-- ==== Sys2Proof/Word.lean ====
section
/-! DEFINITION. The machine's words, the numbers that name its units, and the plain records that commands carry. -/
namespace Sys2Proof

/-- A 32-bit register or instruction-field value (R10, R425). -/
abbrev Word := BitVec 32

/-- A 64-bit word: a ZSC instruction (R65), an event word (R360). -/
abbrev DWord := BitVec 64

/-- A byte. -/
abbrev Byte := BitVec 8

/-- An access context, 0 to 7 (R38). -/
abbrev CtxId := Fin 8

/-- A port, 0 to 15. -/
abbrev PortId := Fin 16

/-- An axis, 0 to 7. -/
abbrev AxisId := Fin 8

/-- A unit that has a state (R374): 0 to 15 the ports, 16 to 23 the axes, as MGT_USTATEu numbers them. -/
abbrev UnitId := Fin 24

/-- A data channel DC0 to DC63. -/
abbrev ChanId := Fin 64

/-- A script channel SC0 to SC15. -/
abbrev ScriptId := Fin 16

/-- An event queue EQ0 to EQ63. -/
abbrev QueueId := Fin 64

/-- An engine (R61): 0 to 15 the gate engines, 16 to 31 the pipe engines, 32 to 39 the axis engines, 40 to 55 the
script channels. -/
abbrev EngId := Fin 56

/-- A drive position TS0 to TS7. -/
abbrev DriveId := Fin 8

/-- A cut group, 0 to 3. -/
abbrev GroupId := Fin 4

/-- The unit of a port. -/
def unitOfPort (p : PortId) : UnitId := ⟨p.val, by omega⟩

/-- The unit of an axis. -/
def unitOfAxis (a : AxisId) : UnitId := ⟨16 + a.val, by omega⟩

/-- The gate engine of a port. -/
def gateEng (p : PortId) : EngId := ⟨p.val, by omega⟩

/-- The pipe engine of a port. -/
def pipeEng (p : PortId) : EngId := ⟨16 + p.val, by omega⟩

/-- The engine of an axis. -/
def axisEng (a : AxisId) : EngId := ⟨32 + a.val, by omega⟩

/-- The engine of a script channel. -/
def scriptEng (c : ScriptId) : EngId := ⟨40 + c.val, by omega⟩

/-- The fields of the target word of a submission (Table 2.4). -/
structure Target where
  unit : Nat
  kind : Nat
  slot : Nat
  rsvd : Nat
  deriving DecidableEq, Repr

/-- An admin submission entry without its opcode, which the command names (Table 2.4): the flags, the command ID, the
target word, the data address and length, the word at 0x14 and arg0 to arg9; `other` is an opcode that Table 2.7 does not list, where
the entry carries one in place of the command's (R426 step 2, log entry 161); `begun` says that the command was executing when the
management cores failed, from which they restart (R373, log entry 195). -/
structure Submission where
  other : Option Byte := none
  begun : Bool := false
  flags : Byte
  cid : BitVec 16
  target : Word
  addr : DWord
  len : Word
  rsvd : Word
  args : List Word
  deriving DecidableEq, Repr

/-- The fields of a ZSC instruction below its opcode (Table 3.4). -/
structure ZscFields where
  cond : BitVec 4
  rd : BitVec 4
  ra : BitVec 4
  rb : BitVec 4
  ext : Byte
  imm : Word
  deriving DecidableEq, Repr

/-- A record as SLATE fixes it (R206 to R209): every slate field but the version, the lost count and the CRC, and the
payload. -/
structure Rec where
  type : Nat
  port : Nat
  flags : Nat
  line : Nat
  pos : Int
  time : Nat
  setup : Nat
  range : Nat
  coding : Nat
  pixels : Nat
  planes : Nat
  layout : Nat
  bad : Nat
  drift : Nat
  cont : Nat
  payload : List Byte
  deriving DecidableEq, Repr

/-- An entry of a segment (R266): a record with the lost count recorded with it, or a note (Table 10.8: kind, count, first
and last line). -/
inductive SEntry where
  | record (r : Rec) (lost : Nat)
  | note (kind count first last : Nat)
  deriving DecidableEq, Repr

/-- A segment map entry with what its segment holds (Tables 10.5, 10.7): state 0 free, 1 open, 2 written, 3 lost; port,
PINNED, sequence, entries in order, bytes used from offset 0x1000, the close code once closed, when it was opened, the next
chunk to be written, whether its header chunk has been issued, and whether it was lost with a failed drive. -/
structure Seg where
  st : Nat
  port : Nat
  pinned : Bool
  seq : Nat
  entries : List SEntry
  used : Nat
  closed : Option Nat
  opened : Nat
  issued : Nat
  header : Bool
  drvLost : Bool
  deriving DecidableEq, Repr

/-- A cue table entry (Table 10.6): state 1 pending, 2 held, 3 lost; `reached` says that the named master has reached the
position of a cue whose line is the first one ticked after that. -/
structure Cue where
  st : Nat
  port : Nat
  kind : Nat
  pinned : Bool
  cause : Nat
  value : Int
  line : Option Nat
  reached : Bool
  before : Nat
  after : Nat
  anchor : Option Nat
  time : Nat
  ctx : Nat
  cid : Nat
  deriving DecidableEq, Repr

/-- What a valid metadata header says (Table 10.4): store ID, checkpoint sequence, next segment sequence, write pointer,
member and lost masks, n_d of the members, the next index and the valid entries of the journal mirror, and the copy it heads. -/
structure StoreHdr where
  id : Nat
  ckpt : Nat
  next : Nat
  wp : Nat
  members : Nat
  lost : Nat
  slots : List Nat
  jhead : Nat
  jcount : Nat
  copy : Fin 2
  deriving DecidableEq, Repr

/-- The measurements of a slice's calibration (R141): the sums at vr_lo and vr_hi, the spread at vr_lo, and the 201 sums of the step
at the trims -100 to 100. -/
structure SliceMeas where
  sLo : Nat
  sHi : Nat
  spread : Nat
  ms : List Nat
  deriving DecidableEq, Repr

/-- What is measured of a reference clock (R398): its frequency in Hz, and the longest interval between two of its rising edges in ps. -/
structure RefMeas where
  freq : Nat
  gap : Nat
  deriving DecidableEq, Repr

/-- The two references at a time. -/
structure RefSample where
  time : Nat
  a : RefMeas
  b : RefMeas
  deriving DecidableEq, Repr

/-- What a power-on meets (R144, R165, R398, R406, R409): what is measured of each reference, the slices that fail their
self-test (port, tap, slice), what their power-on calibrations measured (port, tap, slice; a slice not named measures as an ideal
one), the lanes that fail (port, lane), and which of the banks 1 to 24 are in range (bit b - 1). -/
structure BootInfo where
  refA : RefMeas
  refB : RefMeas
  badSlices : List (Nat × Nat × Nat)
  cals : List (Nat × Nat × Nat × SliceMeas)
  badLanes : List (Nat × Nat)
  banks : Nat
  largeFlash : Bool
  deriving DecidableEq, Repr

/-- A key-management message of IDE_KM (R34): a query, a key (its slot and bytes), the start and the stop of the use of the key
set of the link stream. -/
inductive IdeKm where
  | query
  | keyProg (slot : Nat) (key : List Byte)
  | setGo
  | setStop
  | other (protocol : Nat)
  deriving DecidableEq, Repr

/-- What the host writes to configuration space (Tables 2.1, 2.2): the bases of BAR0 and BAR4, the codes of Max_Payload_Size and
Max_Read_Request_Size (128 bytes times two to the code), the enable of the PTM capability and the AER error status bits that it
clears; and an error that AER logs: its status bit and the header of its packet. -/
structure PciCfg where
  bar0 : Nat
  bar4 : Nat
  mps : Nat
  mrrs : Nat
  ptm : Bool
  aerClear : Nat
  aerError : Option (Nat × List Byte)
  deriving DecidableEq, Repr

/-- A host write to BAR4 or to the MSI-X capability (Table 2.2, R369): a table entry (message address, message data, mask), or the
MSI-X Enable and Function Mask of the capability. -/
inductive MsixWrite where
  | entry (v : Fin 512) (addr : DWord) (data : Word) (mask : Bool)
  | function (enable mask : Bool)
  deriving DecidableEq, Repr

/-- A read of the low half of a pair: its size in bytes, and what ECC finds in the table entries that it reads (R170): how many it
corrects, and whether one is uncorrectable. -/
structure PairRead where
  size : Nat
  corr : Nat
  bad : Bool
  deriving DecidableEq, Repr

/-- What the reset's checks of the table banks find (R170, R173): the banks whose CRC differs (port, table, logical bank), and how many
reads of a port's tables are corrected. -/
structure BankTest where
  bad : List (Nat × Nat × Nat)
  corr : List (PortId × Nat)
  deriving DecidableEq, Repr

/-- What a retrained link has beside its width and rate: Flit mode, and what the host then writes to configuration space, if
anything. -/
structure LinkMode where
  flit : Bool
  cfg : Option PciCfg
  deriving DecidableEq, Repr

/-- What leaves the staging of a pipe, in bytes, and the stall cycles until then (R201). -/
structure Drained where
  bytes : Nat
  cycles : Nat
  deriving DecidableEq, Repr

/-- What ECC finds in the reads of a verify (R169, R170): how many it corrects, and the uncorrectable entries (logical bank, entry). -/
structure EccRead where
  corr : Nat
  fails : List (Nat × Nat)
  deriving DecidableEq, Repr

/-- What the newest checkpoint holds beside the segment map (R269): the cue table, and the sequence number after the last entry of the
journal mirror. -/
structure CkptRead where
  cues : List (Nat × Cue)
  mirrored : Nat
  deriving DecidableEq, Repr

/-- An edge on inputs that a filter guards (R302, R331): its time, and for how many CD6 cycles the new levels last. -/
structure EdgeAt where
  time : Nat
  lasts : Nat
  deriving DecidableEq, Repr

/-- An axis at a time. -/
structure AxisAt where
  axis : AxisId
  time : Nat
  deriving DecidableEq, Repr

/-- A queue, and the CD3 cycles in which the router serves it (R362, R363). -/
structure Delivery where
  queue : QueueId
  words : Nat
  deriving DecidableEq, Repr

/-- Where an MCTP message comes from (R394): SMBus (0), with the address it names, or PCI Express VDM (1). -/
structure MctpFrom where
  bus : Fin 2
  addr : Byte
  deriving DecidableEq, Repr

/-- What PLDM and MCTP tell of the device (R393, R394): the endpoint ID on the bus, the versions of the two firmware slots and of the two
boot-loader copies, what waits for an activation or a power-on, and one sensor for each sensor of Table 15.8, with its reading and its
warning, critical and low limits (a temperature has no low limit in MGT_TLIM, a voltage no warning limit in MGT_VLIM). -/
structure PldmView where
  eid : Nat
  versions : List Nat
  fwPending : Bool
  blPending : Bool
  sensors : List (Nat × Nat × Nat × Nat)
  deriving DecidableEq, Repr

/-- An image that PLDM brings, over SMBus (0) or PCI Express VDM (1). -/
structure PldmImage where
  bus : Fin 2
  bytes : List Byte
  deriving DecidableEq, Repr

/-- What a tap meets at a stamp (R121): the difference voltage Vd of its pins in uV, and by how many codes the slice that converts it
differs from an ideal one. -/
structure TapIn where
  vd : Int
  err : Int
  deriving DecidableEq, Repr

/-- A fetched instruction word, and whether it has an uncorrectable error (R75). -/
structure Fetched where
  word : DWord
  parity : Bool
  deriving DecidableEq, Repr

/-- What an access of a script reads: the bytes that host memory returns, and how many table entries ECC corrects in what it reads of its
source, and in what it merges with (R170). -/
structure AccessData where
  bytes : List Byte
  corr : Nat
  merged : Nat
  deriving DecidableEq, Repr

end Sys2Proof
end

