-- ==== Sys2Proof/Syntax.lean ====
section
/-! DEFINITION. The commands: one constructor for each row of spec/opcode_table.json, with its operands. -/

namespace Sys2Proof

/-- The commands of the ZL9640. An admin command carries its context and its submission entry; a host write its context, index and
value; a ZSC instruction its engine and the fields of its word; an event what comes from outside the part. -/
inductive Instr where
  /-- REG_WRITE (R40). -/
  | regWrite (c : CtxId) (off : BitVec 23) (size : Nat) (v : DWord)
  /-- SEL_PORT_WRITE (R41). -/
  | selPortWrite (c : CtxId) (v : Word)
  /-- SEL_AXIS_WRITE (R41). -/
  | selAxisWrite (c : CtxId) (v : Word)
  /-- SEL_CHAN_WRITE (R41). -/
  | selChanWrite (c : CtxId) (v : Word)
  /-- SEL_ENGINE_WRITE (R41). -/
  | selEngineWrite (c : CtxId) (v : Word)
  /-- SEL_TABLE_WRITE (R41). -/
  | selTableWrite (c : CtxId) (v : Word)
  /-- PAIR_LO_READ (R42). -/
  | pairLoRead (c : CtxId) (off : BitVec 23) (rd : PairRead)
  /-- PAIR_HI_READ (R42). -/
  | pairHiRead (c : CtxId) (off : BitVec 23)
  /-- PAIR_LO_WRITE (R43). -/
  | pairLoWrite (c : CtxId) (off : BitVec 23) (v : Word)
  /-- PAIR_HI_WRITE (R43). -/
  | pairHiWrite (c : CtxId) (off : BitVec 23) (v : Word)
  /-- HIF_CTX_CTL_ENABLE (R47). -/
  | hifCtxCtlEnable (c : CtxId) (v : Word)
  /-- HIF_CTX_CTL_RESET (R52). -/
  | hifCtxCtlReset (c : CtxId) (v : Word)
  /-- HIF_ASQ_TAIL_WRITE (R51). -/
  | hifAsqTailWrite (c : CtxId) (v : Word)
  /-- HIF_ACQ_HEAD_WRITE (R48). -/
  | hifAcqHeadWrite (c : CtxId) (v : Word)
  /-- HIF_DENIED_READ (R45). -/
  | hifDeniedRead (c : CtxId)
  /-- HELLO (R53). -/
  | hello (c : CtxId) (y : Submission)
  /-- IDENTIFY (R55). -/
  | identify (c : CtxId) (y : Submission)
  /-- SET_RIGHTS (R44). -/
  | setRights (c : CtxId) (y : Submission)
  /-- GET_RIGHTS (R55). -/
  | getRights (c : CtxId) (y : Submission)
  /-- SETUP_LOAD (R87). -/
  | setupLoad (c : CtxId) (y : Submission) (data : List Byte)
  /-- SETUP_VERIFY (R79). -/
  | setupVerify (c : CtxId) (y : Submission)
  /-- SETUP_CLEAR (R87). -/
  | setupClear (c : CtxId) (y : Submission)
  /-- COMMIT (R23). -/
  | commit (c : CtxId) (y : Submission)
  /-- UNIT_START (R89). -/
  | unitStart (c : CtxId) (y : Submission)
  /-- UNIT_STOP (R375). -/
  | unitStop (c : CtxId) (y : Submission)
  /-- CUT_GROUP (R25). -/
  | cutGroup (c : CtxId) (y : Submission)
  /-- CUT_ARM (R27). -/
  | cutArm (c : CtxId) (y : Submission)
  /-- CUT_DISARM (R29). -/
  | cutDisarm (c : CtxId) (y : Submission)
  /-- CHAN_OPEN (R234). -/
  | chanOpen (cx : CtxId) (y : Submission)
  /-- CHAN_CLOSE (R235). -/
  | chanClose (cx : CtxId) (y : Submission)
  /-- CAL_START (R174). -/
  | calStart (c : CtxId) (y : Submission)
  /-- CAL_COMPUTE (R176). -/
  | calCompute (c : CtxId) (y : Submission)
  /-- GAP_ANNOUNCE (R178). -/
  | gapAnnounce (c : CtxId) (y : Submission)
  /-- CUE_SET (R276). -/
  | cueSet (c : CtxId) (y : Submission)
  /-- CUE_PIN (R277). -/
  | cuePin (c : CtxId) (y : Submission)
  /-- CUE_CLEAR (R279). -/
  | cueClear (c : CtxId) (y : Submission)
  /-- REWIND_READ (R281). -/
  | rewindRead (c : CtxId) (y : Submission)
  /-- REWIND_STOP (R284). -/
  | rewindStop (c : CtxId) (y : Submission)
  /-- JOURNAL_READ (R387). -/
  | journalRead (c : CtxId) (y : Submission) (norOk : Bool)
  /-- FW_STAGE (R391). -/
  | fwStage (c : CtxId) (y : Submission) (data image : List Byte) (crypto : Bool)
  /-- FW_ACTIVATE (R392). -/
  | fwActivate (c : CtxId) (y : Submission)
  /-- FW_STAGED (R391). -/
  | fwStaged (norOk : Bool)
  /-- FULL_RESET (R382). -/
  | fullReset (c : CtxId) (v : Word)
  /-- RESET_DONE (R382). -/
  | resetDone (failed : List UnitId) (banks : BankTest)
  /-- D3HOT_ENTRY (R35). -/
  | d3hotEntry
  /-- D0_RETURN (R35). -/
  | d0Return
  /-- LINK_RETRAIN (R36). -/
  | linkRetrain (width rate : Nat) (mode : LinkMode)
  /-- L0P_REQUEST (R36). -/
  | l0pRequest (width : Nat)
  /-- PERST_ASSERT (R411). -/
  | perstAssert
  /-- PERST_RELEASE (R410). -/
  | perstRelease (href : Bool)
  /-- PTM_EXCHANGE (R60). -/
  | ptmExchange (ok : Bool) (offset : Int)
  /-- LINE_POSITION_REACHED (R289). -/
  | linePositionReached (p : PortId) (t : Nat)
  /-- TICK (R295). -/
  | tick (c : CtxId) (v : Word)
  /-- HELD_TICK_RELEASE (R294). -/
  | heldTickRelease (p : PortId) (t : Nat)
  /-- DRAIN_TICK (R293). -/
  | drainTick (p : PortId) (t : Nat)
  /-- PIPE_TICK (R21). -/
  | pipeTick (p : PortId)
  /-- MOTION_TICK (R19). -/
  | motionTick (t : Nat)
  /-- HOLD_CURRENT_TIMER (R329). -/
  | holdCurrentTimer (a : AxisId) (t : Nat)
  /-- NOP (R68). -/
  | nop (e : EngId) (f : ZscFields)
  /-- MOV (R68). -/
  | mov (e : EngId) (f : ZscFields)
  /-- ADD (R68). -/
  | add (e : EngId) (f : ZscFields)
  /-- ADC (R68). -/
  | adc (e : EngId) (f : ZscFields)
  /-- SUB (R68). -/
  | sub (e : EngId) (f : ZscFields)
  /-- SBC (R68). -/
  | sbc (e : EngId) (f : ZscFields)
  /-- AND (R68). -/
  | and (e : EngId) (f : ZscFields)
  /-- OR (R68). -/
  | or (e : EngId) (f : ZscFields)
  /-- XOR (R68). -/
  | xor (e : EngId) (f : ZscFields)
  /-- SHL (R68). -/
  | shl (e : EngId) (f : ZscFields)
  /-- SHR (R68). -/
  | shr (e : EngId) (f : ZscFields)
  /-- SAR (R68). -/
  | sar (e : EngId) (f : ZscFields)
  /-- MUL (R68). -/
  | mul (e : EngId) (f : ZscFields)
  /-- MULH (R68). -/
  | mulh (e : EngId) (f : ZscFields)
  /-- MIN (R68). -/
  | min (e : EngId) (f : ZscFields)
  /-- MAX (R68). -/
  | max (e : EngId) (f : ZscFields)
  /-- SATS (R68). -/
  | sats (e : EngId) (f : ZscFields)
  /-- SATU (R68). -/
  | satu (e : EngId) (f : ZscFields)
  /-- CMP (R63). -/
  | cmp (e : EngId) (f : ZscFields)
  /-- TST (R63). -/
  | tst (e : EngId) (f : ZscFields)
  /-- CLZ (R68). -/
  | clz (e : EngId) (f : ZscFields)
  /-- LD (R69). -/
  | ld (e : EngId) (f : ZscFields)
  /-- ST (R69). -/
  | st (e : EngId) (f : ZscFields)
  /-- JMP (R70). -/
  | jmp (e : EngId) (f : ZscFields)
  /-- JMPR (R70). -/
  | jmpr (e : EngId) (f : ZscFields)
  /-- CALL (R70). -/
  | call (e : EngId) (f : ZscFields)
  /-- CALLR (R70). -/
  | callr (e : EngId) (f : ZscFields)
  /-- RET (R70). -/
  | ret (e : EngId) (f : ZscFields)
  /-- LSET (R71). -/
  | lset (e : EngId) (f : ZscFields)
  /-- LEND (R71). -/
  | lend (e : EngId) (f : ZscFields)
  /-- TEND (R72). -/
  | tend (e : EngId) (f : ZscFields)
  /-- RAISE (R74). -/
  | raise (e : EngId) (f : ZscFields)
  /-- RDS (R73). -/
  | rds (e : EngId) (f : ZscFields)
  /-- HALT (R74). -/
  | halt (e : EngId) (f : ZscFields)
  /-- TRAP_OPCODE (R75). -/
  | trapOpcode (e : EngId) (k : Fin 32) (f : ZscFields)
  /-- EDGE (R107). -/
  | edge (p : PortId) (f : ZscFields)
  /-- BURST (R107). -/
  | burst (p : PortId) (f : ZscFields)
  /-- SAMPLE (R107). -/
  | sample (p : PortId) (f : ZscFields)
  /-- CLAMP (R107). -/
  | clamp (p : PortId) (f : ZscFields)
  /-- STROBE (R116). -/
  | strobe (p : PortId) (f : ZscFields)
  /-- GATE (R117). -/
  | gate (p : PortId) (f : ZscFields)
  /-- QFREE (R107). -/
  | qfree (p : PortId) (f : ZscFields)
  /-- EDGE_ENTRY_START (R112). -/
  | edgeEntryStart (p : PortId)
  /-- STROBE_END (R116). -/
  | strobeEnd (p : PortId) (q : Fin 2)
  /-- TAP_SAMPLE (R133). -/
  | tapSample (p : PortId) (t : Fin 16) (v : TapIn)
  /-- ASSEMBLE (R156). -/
  | assemble (p : PortId) (f : ZscFields) (differ : Bool)
  /-- SHADE (R157). -/
  | shade (p : PortId) (f : ZscFields) (differ : Bool) (corr : Nat) (fails : List (Nat × Bool))
  /-- DRIFT (R158). -/
  | drift (p : PortId) (f : ZscFields) (differ : Bool)
  /-- DEFECT (R160). -/
  | defect (p : PortId) (f : ZscFields) (differ : Bool) (corr : Nat) (fails : List (Nat × Bool))
  /-- BIN (R161). -/
  | bin (p : PortId) (f : ZscFields) (differ : Bool)
  /-- LUT (R163). -/
  | lut (p : PortId) (f : ZscFields) (differ : Bool)
  /-- PLANE (R184). -/
  | plane (p : PortId) (f : ZscFields) (differ : Bool)
  /-- GATHER (R187). -/
  | gather (p : PortId) (f : ZscFields) (differ : Bool)
  /-- PACK (R189). -/
  | pack (p : PortId) (f : ZscFields) (differ : Bool) (drained : Nat)
  /-- CODE (R196). -/
  | code (p : PortId) (f : ZscFields) (differ : Bool) (drained : Nat) (wrote : List (Bool × Nat × List Byte))
  /-- SLATE (R215). -/
  | slate (p : PortId) (f : ZscFields)
  /-- EMIT (R216). -/
  | emit (p : PortId) (f : ZscFields)
  /-- PRD (R155). -/
  | prd (p : PortId) (f : ZscFields)
  /-- STAGING_DRAIN (R201). -/
  | stagingDrain (p : PortId) (d : Drained)
  /-- CMP_CTL_INJECT (R200). -/
  | cmpCtlInject (c : CtxId) (v : Word)
  /-- PSET (R316). -/
  | pset (a : AxisId) (f : ZscFields)
  /-- MOVE (R318). -/
  | move (a : AxisId) (f : ZscFields)
  /-- JOG (R318). -/
  | jog (a : AxisId) (f : ZscFields)
  /-- STOP (R316). -/
  | stop (a : AxisId) (f : ZscFields)
  /-- ASTAT (R316). -/
  | astat (a : AxisId) (f : ZscFields)
  /-- HOME (R335). -/
  | home (a : AxisId) (f : ZscFields)
  /-- GEAR (R323). -/
  | gear (a : AxisId) (f : ZscFields)
  /-- LATCH (R316). -/
  | latch (a : AxisId) (f : ZscFields)
  /-- DRIVE (R330). -/
  | drive (a : AxisId) (f : ZscFields)
  /-- SETPOS (R316). -/
  | setpos (a : AxisId) (f : ZscFields)
  /-- MSWAP (R325). -/
  | mswap (a : AxisId) (f : ZscFields)
  /-- XFER (R247). -/
  | xfer (c : ScriptId) (f : ZscFields)
  /-- XFERX (R249). -/
  | xferx (c : ScriptId) (f : ZscFields)
  /-- SHUF (R250). -/
  | shuf (c : ScriptId) (f : ZscFields)
  /-- LOOP (R246). -/
  | loop (c : ScriptId) (f : ZscFields)
  /-- WAIT (R251). -/
  | wait (c : ScriptId) (f : ZscFields)
  /-- SIG (R252). -/
  | sig (c : ScriptId) (f : ZscFields)
  /-- WAIT_RESUME (R251). -/
  | waitResume (c : ScriptId)
  /-- WAIT_TIMEOUT (R251). -/
  | waitTimeout (c : ScriptId) (t : Nat)
  /-- SCRIPT_FETCH (R241). -/
  | scriptFetch (c : ScriptId) (ok : Bool) (w : DWord)
  /-- DMA_SC_CTL_START (R239). -/
  | dmaScCtlStart (c : CtxId) (v : Word)
  /-- DMA_SC_CTL_ABORT (R240). -/
  | dmaScCtlAbort (c : CtxId) (v : Word)
  /-- ENG_WINDOW_WRITE (R85). -/
  | engWindowWrite (c : CtxId) (off : BitVec 21) (size : Nat) (v : DWord)
  /-- TBL_WINDOW_WRITE (R168). -/
  | tblWindowWrite (c : CtxId) (off : BitVec 22) (size : Nat) (v : DWord)
  /-- HEAD_POLL (R103). -/
  | headPoll (p : PortId) (ack : Bool)
  /-- HEAD_INSERT_DELAY (R99). -/
  | headInsertDelay (p : PortId)
  /-- REREAD (R99). -/
  | reread (c : CtxId) (v : Word)
  /-- DESCRIPTOR_READ_DONE (R102). -/
  | descriptorReadDone (p : PortId) (acked : Bool) (bytes : List Byte)
  /-- BANK_POWER_CHANGE (R407). -/
  | bankPowerChange (b : Fin 24) (up : Bool)
  /-- INPUT_OVERVOLT (R129). -/
  | inputOvervolt (p : PortId) (t : Fin 16)
  /-- PRT_OV_CLEAR (R129). -/
  | prtOvClear (c : CtxId) (v : Word)
  /-- ROTATION_DUE (R139). -/
  | rotationDue (p : PortId) (t : Fin 16)
  /-- CAL_NOW (R140). -/
  | calNow (c : CtxId) (v : Word)
  /-- SLICE_CAL_DONE (R141). -/
  | sliceCalDone (p : PortId) (t : Fin 16) (sLo sHi spread : Nat) (ms : List Nat)
  /-- WATCH_BLOCK_END (R143). -/
  | watchBlockEnd (p : PortId) (t : Fin 16)
  /-- BG_BLOCK_END (R145). -/
  | bgBlockEnd (p : PortId) (t : Fin 16)
  /-- FAULT_CLASSIFIED (R380). -/
  | faultClassified (k : Nat) (failed other : Bool)
  /-- VERIFY_S (R169). -/
  | verifyS (c : CtxId) (v : Word)
  /-- VERIFY_D (R169). -/
  | verifyD (c : CtxId) (v : Word)
  /-- UNFLIP_S (R167). -/
  | unflipS (c : CtxId) (v : Word)
  /-- UNFLIP_D (R167). -/
  | unflipD (c : CtxId) (v : Word)
  /-- MIRROR_VERIFY_DONE (R169). -/
  | mirrorVerifyDone (p : PortId) (d : Bool) (ecc : EccRead)
  /-- CAL_DONE (R176). -/
  | calDone (p : PortId)
  /-- RECORD_EMISSION (R219). -/
  | recordEmission (p : PortId) (dest : Fin 4) (exceeds : Bool)
  /-- HOLD_EXPIRY (R228). -/
  | holdExpiry (c : ChanId) (t : Nat)
  /-- BARRIER_DONE (R231). -/
  | barrierDone (c : ChanId)
  /-- EOC_TIMEOUT (R233). -/
  | eocTimeout (c : ChanId) (t : Nat)
  /-- DESCRIPTOR_FETCH (R227). -/
  | descriptorFetch (c : ChanId) (ok : Bool) (bytes : List Byte)
  /-- DMA_DC_TAIL_WRITE (R226). -/
  | dmaDcTailWrite (c : CtxId) (v : Word)
  /-- CHAN_CLOSED (R236). -/
  | chanClosed (c : ChanId)
  /-- DRIVE_LINK_UP (R261). -/
  | driveLinkUp (d : DriveId) (rate width : Nat)
  /-- DRIVE_READY (R261). -/
  | driveReady (d : DriveId) (ns : Option Nat) (lba : Nat) (plain : Bool) (mdts qmax : Nat) (hdr : Option StoreHdr)
  /-- DRIVE_LINK_DOWN (R263). -/
  | driveLinkDown (d : DriveId) (fatal : Bool)
  /-- NVME_TIMEOUT (R263). -/
  | nvmeTimeout (d : DriveId) (k : Option Nat)
  /-- CHUNK_WRITE_DONE (R267). -/
  | chunkWriteDone (d : DriveId) (k : Nat) (ok : Bool)
  /-- NVME_READ_DONE (R282). -/
  | nvmeReadDone (d : DriveId) (k : Nat) (ok hdrOk : Bool) (bad : List Nat)
  /-- READBACK_DELIVERY (R283). -/
  | readbackDelivery (p : PortId)
  /-- CHECKPOINT (R268). -/
  | checkpoint
  /-- SEGMENT_CLOSE_TIMER (R273). -/
  | segmentCloseTimer (p : PortId) (t : Nat)
  /-- SMART_POLL (R262). -/
  | smartPoll (d : DriveId) (warn : Byte) (used temp : Nat)
  /-- STORE_RECOVERY (R269). -/
  | storeRecovery (segs : List (Nat × Seg)) (ckpt : CkptRead) (found : List (Nat × Nat × Seg))
  /-- FORMAT (R270). -/
  | format (c : CtxId) (v : Word)
  /-- JOIN (R270). -/
  | join (c : CtxId) (d : DriveId) (v : Word)
  /-- MASTER_EDGE (R302). -/
  | masterEdge (m : Fin 2) (edge : EdgeAt) (a b z : Bool)
  /-- PRT_GEAR_ARMCTL_WRITE (R300). -/
  | prtGearArmctlWrite (c : CtxId) (v : Word)
  /-- GEAR_LATCH_ARM (R301). -/
  | gearLatchArm (c : CtxId) (v : Word)
  /-- GEAR_LATCH (R301). -/
  | gearLatch (p : PortId)
  /-- GROUP_RUN (R304). -/
  | groupRun (c : CtxId) (g : GroupId) (v : Word)
  /-- GROUP_HOLD (R305). -/
  | groupHold (c : CtxId) (g : GroupId) (v : Word)
  /-- ENCODER_EDGE (R331). -/
  | encoderEdge (a : AxisId) (edge : EdgeAt) (ea eb ez : Bool)
  /-- SWITCH_EDGE (R333). -/
  | switchEdge (a : AxisId) (j : Fin 4) (t : Nat) (level : Bool)
  /-- STOP_IN (R338). -/
  | stopIn (low : Bool) (t : Nat)
  /-- CHOPPER_SWITCH (R326). -/
  | chopperSwitch (a : AxisId) (w : Fin 2) (t : Nat) (code : BitVec 12)
  /-- CHOPPER_ADAPT (R327). -/
  | chopperAdapt (a : AxisId) (w : Fin 2) (t : Nat) (samples : List (Nat × BitVec 12))
  /-- OVERCURRENT (R328). -/
  | overcurrent (a : AxisId) (w : Fin 2) (code0 code1 : BitVec 12)
  /-- MSTEP_SWAP (R325). -/
  | mstepSwap (c : CtxId) (v : Word)
  /-- TABLE_SWAPPED (R325). -/
  | tableSwapped (a : AxisAt)
  /-- AUX_STEP (R341). -/
  | auxStep (t : Nat) (va vb : Int)
  /-- AUX_SCAN_START (R343). -/
  | auxScanStart (c : CtxId) (v : Word)
  /-- SCAN_DUE (R343). -/
  | scanDue (t : Nat)
  /-- EXCITATION_SWAP (R345). -/
  | excitationSwap (n : Fin 8) (t : Nat)
  /-- EXC_FAULT (R347). -/
  | excFault (n : Fin 8)
  /-- AUX_OVERVOLT (R342). -/
  | auxOvervolt (ch : Fin 32) (neg : Bool)
  /-- AUX_OV_CLEAR (R342). -/
  | auxOvClear (c : CtxId) (v : Word)
  /-- AUX_INJ_REQ (R351). -/
  | auxInjReq (c : CtxId) (n : Fin 4) (v : Word)
  /-- AUX_CAL_GO (R353). -/
  | auxCalGo (c : CtxId) (v : Word)
  /-- AUX_CAL_ABORT (R354). -/
  | auxCalAbort (c : CtxId) (v : Word)
  /-- PACKET_DELIVERY (R363). -/
  | packetDelivery (d : Delivery)
  /-- EVQ_POP (R364). -/
  | evqPop (c : CtxId) (q : QueueId)
  /-- EVQ_FLUSH (R365). -/
  | evqFlush (c : CtxId) (q : QueueId) (v : Word)
  /-- EVQ_CTL_WRITE (R367). -/
  | evqCtlWrite (c : CtxId) (q : QueueId) (v : Word)
  /-- EVQ_RING_CFG_WRITE (R367). -/
  | evqRingCfgWrite (c : CtxId) (q : QueueId) (size : Bool) (v : DWord)
  /-- EVQ_RING_HEAD_WRITE (R367). -/
  | evqRingHeadWrite (c : CtxId) (q : QueueId) (v : Word)
  /-- EVQ_LEVEL_WRITE (R369). -/
  | evqLevelWrite (c : CtxId) (q : QueueId) (v : Word)
  /-- EVT_ROUTE_WRITE (R358). -/
  | evtRouteWrite (c : CtxId) (src : Fin 1536) (v : Word)
  /-- QUEUE_INTEGRITY (R366). -/
  | queueIntegrity (q : QueueId) (t : Nat)
  /-- AUDIT (R378). -/
  | audit (diffs : List (Nat × Nat × Nat × Bool))
  /-- LOCKSTEP_MISMATCH (R373). -/
  | lockstepMismatch
  /-- MGT_RESTARTED (R373). -/
  | mgtRestarted
  /-- JOURNAL_DRAIN (R386). -/
  | journalDrain
  /-- SENSOR_READ (R388). -/
  | sensorRead (temps volts : List Nat)
  /-- THERMAL_TRIP (R412). -/
  | thermalTrip (k : Fin 12) (temp : Nat)
  /-- PLDM_MESSAGE (R395). -/
  | pldmMessage
  /-- CFG_GET (R395). -/
  | cfgGet
  /-- CFG_SET (R395). -/
  | cfgSet
  /-- DEBUG_TOKEN (R396). -/
  | debugToken (jtag : Bool) (token : List Byte) (crypto : Bool)
  /-- MCTP_MESSAGE (R394). -/
  | mctpMessage (src : MctpFrom) (msg : List Byte)
  /-- PLDM_UPDATE (R393). -/
  | pldmUpdate (image : PldmImage) (crypto : Bool)
  /-- FW_ACTIVATED (R392). -/
  | fwActivated (ok : Bool)
  /-- REFCLK_FAILOVER (R399). -/
  | refclkFailover (a b : RefMeas)
  /-- REFCLK_VALID (R400). -/
  | refclkValid (m : RefSample)
  /-- HREFCLK_LOSS (R401). -/
  | hrefclkLoss
  /-- PPLL_UNLOCK (R403). -/
  | ppllUnlock (p : PortId)
  /-- PPLL_RELOCK (R403). -/
  | ppllRelock (p : PortId)
  /-- CLK_PPLL_FREQ_WRITE (R402). -/
  | clkPpllFreqWrite (c : CtxId) (p : PortId) (v : Word)
  /-- FREQ_MONITOR (R404). -/
  | freqMonitor (sys : Vector Nat 9) (ports : Vector Nat 16) (t : Nat)
  /-- POWER_ON_RESET (R409). -/
  | powerOnReset (b : BootInfo)
  /-- SUPPLY_FAULT (R406). -/
  | supplyFault
  /-- PRT_GQUEUE_READ (R5). -/
  | prtGqueueRead (c : CtxId)
  /-- PRT_GREJECT_READ (R5). -/
  | prtGrejectRead (c : CtxId)
  /-- PRT_LTG_EARLY_READ (R5). -/
  | prtLtgEarlyRead (c : CtxId)
  /-- PIP_ECC_READ (R5). -/
  | pipEccRead (c : CtxId)
  /-- PIP_ECC_ADDR_READ (R5). -/
  | pipEccAddrRead (c : CtxId)
  /-- PIP_LANE_STAT_READ (R5). -/
  | pipLaneStatRead (c : CtxId)
  /-- CMP_VERIFY_READ (R5). -/
  | cmpVerifyRead (c : CtxId)
  /-- CMP_BAD_READ (R5). -/
  | cmpBadRead (c : CtxId)
  /-- CMP_STALL_READ (R5). -/
  | cmpStallRead (c : CtxId)
  /-- CMP_SHIFT_READ (R5). -/
  | cmpShiftRead (c : CtxId) (k : Fin 16)
  /-- DMA_DC_DROP_READ (R5). -/
  | dmaDcDropRead (c : CtxId)
  /-- DMA_DC_ERR_READ (R5). -/
  | dmaDcErrRead (c : CtxId)
  /-- DMA_SC_FAULT_READ (R5). -/
  | dmaScFaultRead (c : CtxId)
  /-- TKS_PORT_DROP_READ (R5). -/
  | tksPortDropRead (c : CtxId) (p : PortId)
  /-- MOT_CHATTER_READ (R5). -/
  | motChatterRead (c : CtxId)
  /-- AUX_SCAN_STAT_READ (R5). -/
  | auxScanStatRead (c : CtxId)
  /-- AUX_EXC_STAT_READ (R5). -/
  | auxExcStatRead (c : CtxId) (n : Fin 8)
  /-- AUX_INJ_REQ_READ (R5). -/
  | auxInjReqRead (c : CtxId) (n : Fin 4)
  /-- EVQ_LOST_READ (R5). -/
  | evqLostRead (c : CtxId) (q : QueueId)
  /-- MGT_FAULT_READ (R5). -/
  | mgtFaultRead (c : CtxId)
  /-- MGT_FAULT_CNT_READ (R5). -/
  | mgtFaultCntRead (c : CtxId)
  /-- MGT_JRNL_STAT_READ (R5). -/
  | mgtJrnlStatRead (c : CtxId)
  /-- MGT_SENSOR_READ (R5). -/
  | mgtSensorRead (c : CtxId) (k : Fin 32)
  /-- CLAMP_STOPS_CONDUCTING (R129). -/
  | clampStopsConducting (p : PortId) (t : Fin 16)
  /-- AUX_CLAMP_STOPS_CONDUCTING (R342). -/
  | auxClampStopsConducting (ch : Fin 32) (neg : Bool)
  /-- EXC_CURRENT_BELOW_LIMIT (R347). -/
  | excCurrentBelowLimit (n : Fin 8)
  /-- ILLEGAL_OPCODE (R66). -/
  | illegalOpcode (e : EngId) (w : Fetched)
  /-- SCRIPT_ACCESS_DONE (R255). -/
  | scriptAccessDone (c : ScriptId) (ok : Bool) (kind n : Nat) (data : AccessData)
  /-- CHECKPOINT_WRITE_DONE (R268). -/
  | checkpointWriteDone (d : DriveId) (ok : Bool)
  /-- MSI_X_VECTOR_UNMASK (R369). -/
  | msiXVectorUnmask (w : MsixWrite)
  /-- IDE_KM_MESSAGE (R34). -/
  | ideKmMessage (m : IdeKm)
  deriving DecidableEq, Repr

end Sys2Proof
end

