-- ==== Sys2Proof/Machine/Map.lean ====
section
/-! DEFINITION. Sparse memories in one canonical form (a list of key and value pairs, keys rising, no entry equal to what
an unlisted key reads as), bit fields, and the byte order of R10. -/

namespace Sys2Proof.Machine

/-- The value at key `k` of a sparse map whose unlisted keys read as `d k`. -/
def mget {α : Type} (d : Nat → α) : List (Nat × α) → Nat → α
  | [], k => d k
  | (k', v) :: t, k => if k' = k then v else mget d t k

/-- A write that keeps the canonical form: writing the default removes the entry. -/
def mput {α : Type} [DecidableEq α] (d : Nat → α) (k : Nat) (v : α) : List (Nat × α) → List (Nat × α)
  | [] => if v = d k then [] else [(k, v)]
  | (k', v') :: t =>
    if k < k' then (if v = d k then (k', v') :: t else (k, v) :: (k', v') :: t)
    else if k = k' then (if v = d k then t else (k, v) :: t)
    else (k', v') :: mput d k v t

/-- The canonical form: keys strictly rising from above `lo`, no value equal to its default. -/
def mwfFrom {α : Type} [DecidableEq α] (d : Nat → α) : Option Nat → List (Nat × α) → Bool
  | _, [] => true
  | lo, (k, v) :: t =>
    (match lo with | none => true | some l => decide (l < k)) && decide (v ≠ d k) && mwfFrom d (some k) t

/-- The canonical form of a whole map. -/
def mwf {α : Type} [DecidableEq α] (d : Nat → α) (m : List (Nat × α)) : Bool := mwfFrom d none m

/-- Removes every entry whose key satisfies `p`. -/
def mdrop {α : Type} (p : Nat → Bool) (m : List (Nat × α)) : List (Nat × α) := m.filter (fun e => !p e.1)

/-- The field `hi:lo` of a number, as an unsigned value (R11). -/
def fld (v hi lo : Nat) : Nat := v / 2 ^ lo % 2 ^ (hi + 1 - lo)

/-- `v` with its field `hi:lo` replaced by the low bits of `x`. -/
def setFld (v hi lo x : Nat) : Nat :=
  v - fld v hi lo * 2 ^ lo + (x % 2 ^ (hi + 1 - lo)) * 2 ^ lo

/-- Bit `i` of a number. -/
def bitN (v i : Nat) : Bool := v.testBit i

/-- A number read as two's complement of width `w`. -/
def sgn (w v : Nat) : Int := if v % 2 ^ w < 2 ^ (w - 1) then Int.ofNat (v % 2 ^ w) else Int.ofNat (v % 2 ^ w) - 2 ^ w

/-- The two's-complement bits of `x` in width `w`. -/
def twos (w : Nat) (x : Int) : Nat := (x % (2 ^ w)).toNat

/-- `saturate(x, lo, hi)` of Table 0.5. -/
def satI (x lo hi : Int) : Int := if x < lo then lo else if hi < x then hi else x

/-- 1 for true, 0 for false. -/
def b2n (b : Bool) : Nat := if b then 1 else 0

/-- The `n` bytes of a number, least significant first (R10). -/
def leBytes : Nat → Nat → List Byte
  | 0, _ => []
  | n + 1, v => BitVec.ofNat 8 v :: leBytes n (v / 256)

/-- The number that bytes spell, least significant first (R10). -/
def leNat : List Byte → Nat
  | [] => 0
  | b :: t => b.toNat + 256 * leNat t

/-- The little-endian number of `n` bytes at byte offset `o`; bytes beyond the end read 0. -/
def leAt (bs : List Byte) (o n : Nat) : Nat := leNat ((bs.drop o).take n)

/-- One byte step of the CRC-32C (Castagnoli, reflected), bit by bit. -/
def crcBits : Nat → Nat → Nat
  | 0, c => c
  | k + 1, c => crcBits k (if c % 2 = 1 then (c / 2) ^^^ 0x82F63B78 else c / 2)

/-- The CRC-32C register after the bytes. -/
def crcRun : Nat → List Byte → Nat
  | c, [] => c
  | c, b :: t => crcRun (crcBits 8 (c ^^^ b.toNat)) t

/-- CRC-32C of a list of bytes. -/
def crc32c (bs : List Byte) : Nat := crcRun 0xFFFFFFFF bs ^^^ 0xFFFFFFFF

/-- Splits a list into chunks of `n`. -/
def chunksGo {α : Type} (n : Nat) : Nat → List α → List (List α)
  | 0, _ => []
  | _ + 1, [] => []
  | k + 1, l => l.take n :: chunksGo n k (l.drop n)

/-- The chunks of `n` of a list, in order. -/
def chunks {α : Type} (n : Nat) (l : List α) : List (List α) := chunksGo n l.length l

/-- Bit `i` set in a mask, for `i < n`, as the list of such `i`. -/
def maskList (n m : Nat) : List Nat := (List.range n).filter (fun i => bitN m i)

/-- The first refusal of a list of checks. -/
def firstSome {α : Type} : List (Option α) → Option α
  | [] => none
  | some x :: _ => some x
  | none :: t => firstSome t

end Sys2Proof.Machine
end

