-- ==== Sys2Proof/Machine/RegTable.lean ====
section
/-! DEFINITION. The registers of BAR0 as the field tables of spec/02 to spec/16 give them: one row a register (its
offset, its indices, how it is selected, the bits of each field type of R5, its reset value), and the names of the
offsets. Offsets are those of Table 17.5. -/

namespace Sys2Proof.Machine

/-- How a register is reached (R423, R424): not selected, by SEL_PORT, SEL_AXIS, SEL_CHAN, SEL_ENGINE, or one per
context. -/
inductive Sel where
  | none | port | axis | chan | engine | ctx
  deriving DecidableEq, Repr

/-- One register of the register tables: `base + s1*i + s2*j` for `i < n1`, `j < n2`; `pair` is 1 for the `_LO` half
of a pair (R425), 2 for the `_HI` half. The masks give the bits of each field type (Table 0.4). -/
structure RegDef where
  base : Nat
  s1 : Nat
  n1 : Nat
  s2 : Nat
  n2 : Nat
  sel : Sel
  pair : Nat
  rw : Word
  w1c : Word
  stg : Word
  cut : Word
  rs : Word
  wo : Word
  reset : Word
  deriving DecidableEq, Repr

namespace Off
/-- SEL_PORT -/
abbrev SEL_PORT : Nat := 0x10000
/-- SEL_AXIS -/
abbrev SEL_AXIS : Nat := 0x10004
/-- SEL_CHAN -/
abbrev SEL_CHAN : Nat := 0x10008
/-- SEL_ENGINE -/
abbrev SEL_ENGINE : Nat := 0x1000c
/-- SEL_TABLE -/
abbrev SEL_TABLE : Nat := 0x10010
/-- SEL_SNAP_LO -/
abbrev SEL_SNAP_LO : Nat := 0x10018
/-- SEL_SNAP_HI -/
abbrev SEL_SNAP_HI : Nat := 0x1001c
/-- HIF_ID -/
abbrev HIF_ID : Nat := 0x0
/-- HIF_ZHP -/
abbrev HIF_ZHP : Nat := 0x4
/-- HIF_CTX -/
abbrev HIF_CTX : Nat := 0x8
/-- HIF_CTX_CTL -/
abbrev HIF_CTX_CTL : Nat := 0xc
/-- HIF_ASQ_BASE_LO -/
abbrev HIF_ASQ_BASE_LO : Nat := 0x10
/-- HIF_ASQ_BASE_HI -/
abbrev HIF_ASQ_BASE_HI : Nat := 0x14
/-- HIF_ACQ_BASE_LO -/
abbrev HIF_ACQ_BASE_LO : Nat := 0x18
/-- HIF_ACQ_BASE_HI -/
abbrev HIF_ACQ_BASE_HI : Nat := 0x1c
/-- HIF_AQ_SIZE -/
abbrev HIF_AQ_SIZE : Nat := 0x20
/-- HIF_ASQ_TAIL -/
abbrev HIF_ASQ_TAIL : Nat := 0x24
/-- HIF_ACQ_HEAD -/
abbrev HIF_ACQ_HEAD : Nat := 0x28
/-- HIF_AQ_STATUS -/
abbrev HIF_AQ_STATUS : Nat := 0x2c
/-- HIF_RIGHTS_BLK -/
abbrev HIF_RIGHTS_BLK : Nat := 0x30
/-- HIF_RIGHTS_PORT -/
abbrev HIF_RIGHTS_PORT : Nat := 0x34
/-- HIF_RIGHTS_AXIS -/
abbrev HIF_RIGHTS_AXIS : Nat := 0x38
/-- HIF_DENIED -/
abbrev HIF_DENIED : Nat := 0x3c
/-- HIF_TIME_LO -/
abbrev HIF_TIME_LO : Nat := 0x40
/-- HIF_TIME_HI -/
abbrev HIF_TIME_HI : Nat := 0x44
/-- HIF_PTM_CTL -/
abbrev HIF_PTM_CTL : Nat := 0x48
/-- HIF_PTM_STATUS -/
abbrev HIF_PTM_STATUS : Nat := 0x4c
/-- HIF_LINK -/
abbrev HIF_LINK : Nat := 0x50
/-- HIF_GSTATUS -/
abbrev HIF_GSTATUS : Nat := 0x54
/-- HIF_RESET -/
abbrev HIF_RESET : Nat := 0x58
/-- ENG_STATUS -/
abbrev ENG_STATUS : Nat := 0x3f0000
/-- ENG_PC -/
abbrev ENG_PC : Nat := 0x3f0004
/-- ENG_TRAP -/
abbrev ENG_TRAP : Nat := 0x3f0008
/-- ENG_TRAP_ARG -/
abbrev ENG_TRAP_ARG : Nat := 0x3f000c
/-- ENG_CYC_LAST -/
abbrev ENG_CYC_LAST : Nat := 0x3f0010
/-- ENG_CYC_MAX -/
abbrev ENG_CYC_MAX : Nat := 0x3f0014
/-- ENG_DECLARED -/
abbrev ENG_DECLARED : Nat := 0x3f0018
/-- ENG_AVAIL -/
abbrev ENG_AVAIL : Nat := 0x3f001c
/-- ENG_SLOT0 -/
abbrev ENG_SLOT : Nat := 0x3f0020
/-- ENG_TOOL0 -/
abbrev ENG_TOOL : Nat := 0x3f0040
/-- PRT_GCFG -/
abbrev PRT_GCFG : Nat := 0x81000
/-- PRT_TRIM_A -/
abbrev PRT_TRIM_A : Nat := 0x81004
/-- PRT_TRIM_B -/
abbrev PRT_TRIM_B : Nat := 0x81008
/-- PRT_TRIM_C -/
abbrev PRT_TRIM_C : Nat := 0x8100c
/-- PRT_STRW0A -/
abbrev PRT_STRW0A : Nat := 0x81010
/-- PRT_STRW0B -/
abbrev PRT_STRW0B : Nat := 0x81014
/-- PRT_STRW1A -/
abbrev PRT_STRW1A : Nat := 0x81018
/-- PRT_STRW1B -/
abbrev PRT_STRW1B : Nat := 0x8101c
/-- PRT_LREF0 -/
abbrev PRT_LREF0 : Nat := 0x81020
/-- PRT_LREF1 -/
abbrev PRT_LREF1 : Nat := 0x81024
/-- PRT_GQUEUE -/
abbrev PRT_GQUEUE : Nat := 0x81030
/-- PRT_GREJECT -/
abbrev PRT_GREJECT : Nat := 0x81034
/-- PRT_HEAD_CTL -/
abbrev PRT_HEAD_CTL : Nat := 0x81100
/-- PRT_HEAD_STAT -/
abbrev PRT_HEAD_STAT : Nat := 0x81104
/-- PRT_HEAD_REQ -/
abbrev PRT_HEAD_REQ : Nat := 0x81108
/-- PRT_HEAD_PROG -/
abbrev PRT_HEAD_PROG : Nat := 0x8110c
/-- PRT_HDESC0 -/
abbrev PRT_HDESC : Nat := 0x81140
/-- PRT_FE_EN -/
abbrev PRT_FE_EN : Nat := 0x82000
/-- PRT_FE_INV -/
abbrev PRT_FE_INV : Nat := 0x82004
/-- PRT_RANGE_A -/
abbrev PRT_RANGE_A : Nat := 0x82008
/-- PRT_RANGE_B -/
abbrev PRT_RANGE_B : Nat := 0x8200c
/-- PRT_RSET_A -/
abbrev PRT_RSET_A : Nat := 0x82010
/-- PRT_RSET_B -/
abbrev PRT_RSET_B : Nat := 0x82014
/-- PRT_RANGE_NOW_A -/
abbrev PRT_RANGE_NOW_A : Nat := 0x82018
/-- PRT_RANGE_NOW_B -/
abbrev PRT_RANGE_NOW_B : Nat := 0x8201c
/-- PRT_FE_STAT -/
abbrev PRT_FE_STAT : Nat := 0x82020
/-- PRT_CLAMP0 -/
abbrev PRT_CLAMP : Nat := 0x82040
/-- PRT_OV -/
abbrev PRT_OV : Nat := 0x82080
/-- PRT_CONV_CTL -/
abbrev PRT_CONV_CTL : Nat := 0x83000
/-- PRT_WATCH -/
abbrev PRT_WATCH : Nat := 0x83004
/-- PRT_CONV_STAT -/
abbrev PRT_CONV_STAT : Nat := 0x83008
/-- PRT_ROT_COUNT -/
abbrev PRT_ROT_COUNT : Nat := 0x8300c
/-- PRT_TAP_STAT0 -/
abbrev PRT_TAP_STAT : Nat := 0x83100
/-- PRT_SCOEFA -/
abbrev PRT_SCOEFA : Nat := 0x83400
/-- PRT_SCOEFB -/
abbrev PRT_SCOEFB : Nat := 0x83404
/-- PIP_TBLSEL -/
abbrev PIP_TBLSEL : Nat := 0xa0000
/-- PIP_BANK_STAT -/
abbrev PIP_BANK_STAT : Nat := 0xa0004
/-- PIP_BANK_CTL -/
abbrev PIP_BANK_CTL : Nat := 0xa0008
/-- PIP_CRC_S0 -/
abbrev PIP_CRC_S0 : Nat := 0xa0010
/-- PIP_CRC_S1 -/
abbrev PIP_CRC_S1 : Nat := 0xa0014
/-- PIP_CRC_D0 -/
abbrev PIP_CRC_D0 : Nat := 0xa0018
/-- PIP_CRC_D1 -/
abbrev PIP_CRC_D1 : Nat := 0xa001c
/-- PIP_ECC -/
abbrev PIP_ECC : Nat := 0xa0020
/-- PIP_ECC_ADDR -/
abbrev PIP_ECC_ADDR : Nat := 0xa0024
/-- PIP_CAL -/
abbrev PIP_CAL : Nat := 0xa0040
/-- PIP_CAL_TGT_A -/
abbrev PIP_CAL_TGT_A : Nat := 0xa0044
/-- PIP_CAL_TGT_B -/
abbrev PIP_CAL_TGT_B : Nat := 0xa0048
/-- PIP_CAL_LIM -/
abbrev PIP_CAL_LIM : Nat := 0xa004c
/-- PIP_CAL_STAT -/
abbrev PIP_CAL_STAT : Nat := 0xa0050
/-- PIP_GAP -/
abbrev PIP_GAP : Nat := 0xa0060
/-- PIP_DRIFT -/
abbrev PIP_DRIFT : Nat := 0xa0070
/-- PIP_DRIFT_STAT -/
abbrev PIP_DRIFT_STAT : Nat := 0xa0074
/-- PIP_LANE_MAP -/
abbrev PIP_LANE_MAP : Nat := 0xa0080
/-- PIP_LANE_STAT -/
abbrev PIP_LANE_STAT : Nat := 0xa0084
/-- CMP_CTL -/
abbrev CMP_CTL : Nat := 0xc0000
/-- CMP_VERIFY -/
abbrev CMP_VERIFY : Nat := 0xc0004
/-- CMP_VERIFY_LINE -/
abbrev CMP_VERIFY_LINE : Nat := 0xc0008
/-- CMP_BAD -/
abbrev CMP_BAD : Nat := 0xc000c
/-- CMP_STALL -/
abbrev CMP_STALL : Nat := 0xc0010
/-- CMP_BLOCKS_LO -/
abbrev CMP_BLOCKS_LO : Nat := 0xc0018
/-- CMP_BLOCKS_HI -/
abbrev CMP_BLOCKS_HI : Nat := 0xc001c
/-- CMP_SHIFT0 -/
abbrev CMP_SHIFT : Nat := 0xc0040
/-- DMA_DC_CFG -/
abbrev DMA_DC_CFG : Nat := 0x40000
/-- DMA_DC_STATE -/
abbrev DMA_DC_STATE : Nat := 0x40004
/-- DMA_DC_BASE_LO -/
abbrev DMA_DC_BASE_LO : Nat := 0x40008
/-- DMA_DC_BASE_HI -/
abbrev DMA_DC_BASE_HI : Nat := 0x4000c
/-- DMA_DC_TAIL -/
abbrev DMA_DC_TAIL : Nat := 0x40010
/-- DMA_DC_HEAD -/
abbrev DMA_DC_HEAD : Nat := 0x40014
/-- DMA_DC_LEVEL -/
abbrev DMA_DC_LEVEL : Nat := 0x40018
/-- DMA_DC_EOC -/
abbrev DMA_DC_EOC : Nat := 0x4001c
/-- DMA_DC_EOC_PEND -/
abbrev DMA_DC_EOC_PEND : Nat := 0x40020
/-- DMA_DC_DROP -/
abbrev DMA_DC_DROP : Nat := 0x40024
/-- DMA_DC_RECS_LO -/
abbrev DMA_DC_RECS_LO : Nat := 0x40028
/-- DMA_DC_RECS_HI -/
abbrev DMA_DC_RECS_HI : Nat := 0x4002c
/-- DMA_DC_BYTES_LO -/
abbrev DMA_DC_BYTES_LO : Nat := 0x40030
/-- DMA_DC_BYTES_HI -/
abbrev DMA_DC_BYTES_HI : Nat := 0x40034
/-- DMA_DC_LINE_LO -/
abbrev DMA_DC_LINE_LO : Nat := 0x40038
/-- DMA_DC_LINE_HI -/
abbrev DMA_DC_LINE_HI : Nat := 0x4003c
/-- DMA_DC_ERR -/
abbrev DMA_DC_ERR : Nat := 0x40040
/-- DMA_DC_ERR_ADDR_LO -/
abbrev DMA_DC_ERR_ADDR_LO : Nat := 0x40048
/-- DMA_DC_ERR_ADDR_HI -/
abbrev DMA_DC_ERR_ADDR_HI : Nat := 0x4004c
/-- DMA_SC_CFG -/
abbrev DMA_SC_CFG : Nat := 0x40100
/-- DMA_SC_BASE_LO -/
abbrev DMA_SC_BASE_LO : Nat := 0x40108
/-- DMA_SC_BASE_HI -/
abbrev DMA_SC_BASE_HI : Nat := 0x4010c
/-- DMA_SC_LEN -/
abbrev DMA_SC_LEN : Nat := 0x40110
/-- DMA_SC_ARG0 -/
abbrev DMA_SC_ARG : Nat := 0x40120
/-- DMA_SC_CTL -/
abbrev DMA_SC_CTL : Nat := 0x40140
/-- DMA_SC_STATE -/
abbrev DMA_SC_STATE : Nat := 0x40144
/-- DMA_SC_PC -/
abbrev DMA_SC_PC : Nat := 0x40148
/-- DMA_SC_TRAP -/
abbrev DMA_SC_TRAP : Nat := 0x4014c
/-- DMA_SC_TRAP_ARG -/
abbrev DMA_SC_TRAP_ARG : Nat := 0x40150
/-- DMA_SC_FAULT -/
abbrev DMA_SC_FAULT : Nat := 0x40154
/-- DMA_SC_FAULT_ADDR_LO -/
abbrev DMA_SC_FAULT_ADDR_LO : Nat := 0x40158
/-- DMA_SC_FAULT_ADDR_HI -/
abbrev DMA_SC_FAULT_ADDR_HI : Nat := 0x4015c
/-- DMA_SC_XFER_DONE -/
abbrev DMA_SC_XFER_DONE : Nat := 0x40160
/-- DMA_SC_SIGNAL -/
abbrev DMA_SC_SIGNAL : Nat := 0x40164
/-- DMA_SC_BYTES_LO -/
abbrev DMA_SC_BYTES_LO : Nat := 0x40168
/-- DMA_SC_BYTES_HI -/
abbrev DMA_SC_BYTES_HI : Nat := 0x4016c
/-- CMP_REC -/
abbrev CMP_REC : Nat := 0xc0100
/-- TKS_CTL -/
abbrev TKS_CTL : Nat := 0xe0000
/-- TKS_CFG -/
abbrev TKS_CFG : Nat := 0xe0004
/-- TKS_STATUS -/
abbrev TKS_STATUS : Nat := 0xe0008
/-- TKS_ID_LO -/
abbrev TKS_ID_LO : Nat := 0xe0010
/-- TKS_ID_HI -/
abbrev TKS_ID_HI : Nat := 0xe0014
/-- TKS_WP -/
abbrev TKS_WP : Nat := 0xe0018
/-- TKS_SEGS -/
abbrev TKS_SEGS : Nat := 0xe001c
/-- TKS_SEG_WRITABLE -/
abbrev TKS_SEG_WRITABLE : Nat := 0xe0020
/-- TKS_SEG_PINNED -/
abbrev TKS_SEG_PINNED : Nat := 0xe0024
/-- TKS_SEG_LOST -/
abbrev TKS_SEG_LOST : Nat := 0xe0028
/-- TKS_CUES -/
abbrev TKS_CUES : Nat := 0xe002c
/-- TKS_DRV_STATd -/
abbrev TKS_DRV_STAT : Nat := 0xe0100
/-- TKS_DRV_CTLd -/
abbrev TKS_DRV_CTL : Nat := 0xe0104
/-- TKS_DRV_SEGSd -/
abbrev TKS_DRV_SEGS : Nat := 0xe0108
/-- TKS_DRV_HEALTHd -/
abbrev TKS_DRV_HEALTH : Nat := 0xe010c
/-- TKS_PORT_STATp -/
abbrev TKS_PORT_STAT : Nat := 0xe0200
/-- TKS_PORT_DROPp -/
abbrev TKS_PORT_DROP : Nat := 0xe0204
/-- TKS_PORT_OLDEST_LOp -/
abbrev TKS_PORT_OLDEST_LO : Nat := 0xe0208
/-- TKS_PORT_OLDEST_HIp -/
abbrev TKS_PORT_OLDEST_HI : Nat := 0xe020c
/-- TKS_CUEn_0 -/
abbrev TKS_CUE : Nat := 0xe1000
/-- PRT_LTG_CFG -/
abbrev PRT_LTG_CFG : Nat := 0x84000
/-- PRT_LTG_PMIN -/
abbrev PRT_LTG_PMIN : Nat := 0x84004
/-- PRT_GEAR_NUM -/
abbrev PRT_GEAR_NUM : Nat := 0x84008
/-- PRT_GEAR_DEN -/
abbrev PRT_GEAR_DEN : Nat := 0x8400c
/-- PRT_GEAR_NUMS -/
abbrev PRT_GEAR_NUMS : Nat := 0x84010
/-- PRT_GEAR_DENS -/
abbrev PRT_GEAR_DENS : Nat := 0x84014
/-- PRT_GEAR_NOW_NUM -/
abbrev PRT_GEAR_NOW_NUM : Nat := 0x84018
/-- PRT_GEAR_NOW_DEN -/
abbrev PRT_GEAR_NOW_DEN : Nat := 0x8401c
/-- PRT_GEAR_ANUM -/
abbrev PRT_GEAR_ANUM : Nat := 0x84020
/-- PRT_GEAR_ADEN -/
abbrev PRT_GEAR_ADEN : Nat := 0x84024
/-- PRT_GEAR_APOS_LO -/
abbrev PRT_GEAR_APOS_LO : Nat := 0x84028
/-- PRT_GEAR_APOS_HI -/
abbrev PRT_GEAR_APOS_HI : Nat := 0x8402c
/-- PRT_GEAR_ARMCTL -/
abbrev PRT_GEAR_ARMCTL : Nat := 0x84030
/-- PRT_LTG_CMD -/
abbrev PRT_LTG_CMD : Nat := 0x84040
/-- PRT_LTG_STAT -/
abbrev PRT_LTG_STAT : Nat := 0x84044
/-- PRT_LTG_SRC_LO -/
abbrev PRT_LTG_SRC_LO : Nat := 0x84048
/-- PRT_LTG_SRC_HI -/
abbrev PRT_LTG_SRC_HI : Nat := 0x8404c
/-- PRT_LTG_HW_LO -/
abbrev PRT_LTG_HW_LO : Nat := 0x84050
/-- PRT_LTG_HW_HI -/
abbrev PRT_LTG_HW_HI : Nat := 0x84054
/-- PRT_LTG_EARLY -/
abbrev PRT_LTG_EARLY : Nat := 0x84058
/-- PRT_GEAR_LCFG -/
abbrev PRT_GEAR_LCFG : Nat := 0x84060
/-- PRT_GEAR_LPOS_LO -/
abbrev PRT_GEAR_LPOS_LO : Nat := 0x84064
/-- PRT_GEAR_LPOS_HI -/
abbrev PRT_GEAR_LPOS_HI : Nat := 0x84068
/-- PRT_GEAR_LLINE -/
abbrev PRT_GEAR_LLINE : Nat := 0x8406c
/-- PRT_GEAR_LFRAC -/
abbrev PRT_GEAR_LFRAC : Nat := 0x84070
/-- PRT_PACE -/
abbrev PRT_PACE : Nat := 0x84080
/-- PRT_PACE_LW -/
abbrev PRT_PACE_LW : Nat := 0x84084
/-- PRT_CONT_CFG -/
abbrev PRT_CONT_CFG : Nat := 0x84090
/-- PRT_SPLICE_LAST_LO -/
abbrev PRT_SPLICE_LAST_LO : Nat := 0x840a0
/-- PRT_SPLICE_LAST_HI -/
abbrev PRT_SPLICE_LAST_HI : Nat := 0x840a4
/-- PRT_SPLICE_SEAM -/
abbrev PRT_SPLICE_SEAM : Nat := 0x840a8
/-- MOT_GRPg_PACE -/
abbrev MOT_GRP_PACE : Nat := 0x11e000
/-- MOT_GRPg_VRUN -/
abbrev MOT_GRP_VRUN : Nat := 0x11e004
/-- MOT_GRPg_LEADER -/
abbrev MOT_GRP_LEADER : Nat := 0x11e008
/-- MOT_GRPg_CTL -/
abbrev MOT_GRP_CTL : Nat := 0x11e00c
/-- MOT_GRPg_STAT -/
abbrev MOT_GRP_STAT : Nat := 0x11e010
/-- MOT_MCFG0 -/
abbrev MOT_MCFG0 : Nat := 0x11f000
/-- MOT_MCFG1 -/
abbrev MOT_MCFG1 : Nat := 0x11f004
/-- MOT_MSTAT -/
abbrev MOT_MSTAT : Nat := 0x11f008
/-- MOT_MCNT0_LO -/
abbrev MOT_MCNT0_LO : Nat := 0x11f010
/-- MOT_MCNT0_HI -/
abbrev MOT_MCNT0_HI : Nat := 0x11f014
/-- MOT_MCNT1_LO -/
abbrev MOT_MCNT1_LO : Nat := 0x11f018
/-- MOT_MCNT1_HI -/
abbrev MOT_MCNT1_HI : Nat := 0x11f01c
/-- MOT_PROF_VMAX -/
abbrev MOT_PROF_VMAX : Nat := 0x100000
/-- MOT_PROF_ACC -/
abbrev MOT_PROF_ACC : Nat := 0x100004
/-- MOT_PROF_DEC -/
abbrev MOT_PROF_DEC : Nat := 0x100008
/-- MOT_PROF_SDEC -/
abbrev MOT_PROF_SDEC : Nat := 0x10000c
/-- MOT_PROF_JERK -/
abbrev MOT_PROF_JERK : Nat := 0x100010
/-- MOT_PROF_CFG -/
abbrev MOT_PROF_CFG : Nat := 0x100014
/-- MOT_CUR -/
abbrev MOT_CUR : Nat := 0x100020
/-- MOT_CHOP -/
abbrev MOT_CHOP : Nat := 0x100024
/-- MOT_CHOP_ZERO -/
abbrev MOT_CHOP_ZERO : Nat := 0x100028
/-- MOT_OCLIM -/
abbrev MOT_OCLIM : Nat := 0x10002c
/-- MOT_ENC -/
abbrev MOT_ENC : Nat := 0x100030
/-- MOT_ENC_CFG -/
abbrev MOT_ENC_CFG : Nat := 0x100034
/-- MOT_STALL -/
abbrev MOT_STALL : Nat := 0x100038
/-- MOT_INPOS -/
abbrev MOT_INPOS : Nat := 0x10003c
/-- MOT_SW -/
abbrev MOT_SW : Nat := 0x100040
/-- MOT_MSTEP_CTL -/
abbrev MOT_MSTEP_CTL : Nat := 0x100044
/-- MOT_STAT -/
abbrev MOT_STAT : Nat := 0x100080
/-- MOT_POS_LO -/
abbrev MOT_POS_LO : Nat := 0x100084
/-- MOT_POS_HI -/
abbrev MOT_POS_HI : Nat := 0x100088
/-- MOT_ENCC_LO -/
abbrev MOT_ENCC_LO : Nat := 0x10008c
/-- MOT_ENCC_HI -/
abbrev MOT_ENCC_HI : Nat := 0x100090
/-- MOT_TGT_LO -/
abbrev MOT_TGT_LO : Nat := 0x100094
/-- MOT_TGT_HI -/
abbrev MOT_TGT_HI : Nat := 0x100098
/-- MOT_LATCH_LO -/
abbrev MOT_LATCH_LO : Nat := 0x1000a4
/-- MOT_LATCH_HI -/
abbrev MOT_LATCH_HI : Nat := 0x1000a8
/-- MOT_LATCH_ENC_LO -/
abbrev MOT_LATCH_ENC_LO : Nat := 0x1000ac
/-- MOT_LATCH_ENC_HI -/
abbrev MOT_LATCH_ENC_HI : Nat := 0x1000b0
/-- MOT_AGEAR_OUT_LO -/
abbrev MOT_AGEAR_OUT_LO : Nat := 0x1000d8
/-- MOT_AGEAR_OUT_HI -/
abbrev MOT_AGEAR_OUT_HI : Nat := 0x1000dc
/-- MOT_VEL -/
abbrev MOT_VEL : Nat := 0x10009c
/-- MOT_DEV -/
abbrev MOT_DEV : Nat := 0x1000a0
/-- MOT_AGEAR_NUM -/
abbrev MOT_AGEAR_NUM : Nat := 0x1000d0
/-- MOT_AGEAR_DEN -/
abbrev MOT_AGEAR_DEN : Nat := 0x1000d4
/-- MOT_CHATTER -/
abbrev MOT_CHATTER : Nat := 0x1000b4
/-- MOT_CHOP_STAT -/
abbrev MOT_CHOP_STAT : Nat := 0x1000b8
/-- MOT_ISENSE -/
abbrev MOT_ISENSE : Nat := 0x1000bc
/-- MOT_PHASE -/
abbrev MOT_PHASE : Nat := 0x1000c0
/-- AUX_SCAN_CTL -/
abbrev AUX_SCAN_CTL : Nat := 0x120000
/-- AUX_SCAN_MASK -/
abbrev AUX_SCAN_MASK : Nat := 0x120004
/-- AUX_SCAN_PERIOD -/
abbrev AUX_SCAN_PERIOD : Nat := 0x120008
/-- AUX_SCAN_STAT -/
abbrev AUX_SCAN_STAT : Nat := 0x12000c
/-- AUX_EXC_MIN -/
abbrev AUX_EXC_MIN : Nat := 0x120010
/-- AUX_CH0 -/
abbrev AUX_CH : Nat := 0x120100
/-- AUX_EXC0_CFG -/
abbrev AUX_EXC_CFG : Nat := 0x120200
/-- AUX_EXCn_HALF -/
abbrev AUX_EXC_HALF : Nat := 0x120204
/-- AUX_EXCn_BLANK -/
abbrev AUX_EXC_BLANK : Nat := 0x120208
/-- AUX_EXCn_STAT -/
abbrev AUX_EXC_STAT : Nat := 0x12020c
/-- AUX_INJ0_CFG -/
abbrev AUX_INJ_CFG : Nat := 0x120300
/-- AUX_INJn_REQ -/
abbrev AUX_INJ_REQ : Nat := 0x120304
/-- AUX_RES0_LO -/
abbrev AUX_RES_LO : Nat := 0x120400
/-- AUX_INJ0_RES_LO -/
abbrev AUX_INJ_RES_LO : Nat := 0x120308
/-- AUX_RESc_HI -/
abbrev AUX_RES_HI : Nat := 0x120404
/-- AUX_INJn_RES_HI -/
abbrev AUX_INJ_RES_HI : Nat := 0x12030c
/-- AUX_OV -/
abbrev AUX_OV : Nat := 0x120500
/-- AUX_OV_ACT -/
abbrev AUX_OV_ACT : Nat := 0x120504
/-- AUX_CAL_CTL -/
abbrev AUX_CAL_CTL : Nat := 0x120600
/-- AUX_CAL_TGT -/
abbrev AUX_CAL_TGT : Nat := 0x120604
/-- AUX_CAL_Z -/
abbrev AUX_CAL_Z : Nat := 0x12060c
/-- AUX_CAL_STAT -/
abbrev AUX_CAL_STAT : Nat := 0x120608
/-- AUX_COEF_OFSc_r -/
abbrev AUX_COEF_OFS : Nat := 0x121000
/-- AUX_COEF_GAINc_r -/
abbrev AUX_COEF_GAIN : Nat := 0x121004
/-- EVT_ROUTE0 -/
abbrev EVT_ROUTE : Nat := 0x20000
/-- EVT_PEND0 -/
abbrev EVT_PEND : Nat := 0x22000
/-- EVQ_CTL -/
abbrev EVQ_CTL : Nat := 0x30000
/-- EVQ_LEVEL -/
abbrev EVQ_LEVEL : Nat := 0x30004
/-- EVQ_VEC -/
abbrev EVQ_VEC : Nat := 0x30008
/-- EVQ_STAT -/
abbrev EVQ_STAT : Nat := 0x3000c
/-- EVQ_POP_LO -/
abbrev EVQ_POP_LO : Nat := 0x30010
/-- EVQ_POP_HI -/
abbrev EVQ_POP_HI : Nat := 0x30014
/-- EVQ_LOST -/
abbrev EVQ_LOST : Nat := 0x30018
/-- EVQ_RING_BASE_LO -/
abbrev EVQ_RING_BASE_LO : Nat := 0x30020
/-- EVQ_RING_BASE_HI -/
abbrev EVQ_RING_BASE_HI : Nat := 0x30024
/-- EVQ_RING_SIZE -/
abbrev EVQ_RING_SIZE : Nat := 0x30028
/-- EVQ_RING_HEAD -/
abbrev EVQ_RING_HEAD : Nat := 0x3002c
/-- EVQ_RING_TAIL -/
abbrev EVQ_RING_TAIL : Nat := 0x30030
/-- MGT_STATUS -/
abbrev MGT_STATUS : Nat := 0x140000
/-- MGT_FW_VER_A -/
abbrev MGT_FW_VER_A : Nat := 0x140004
/-- MGT_FW_VER_B -/
abbrev MGT_FW_VER_B : Nat := 0x140008
/-- MGT_FW_SVN -/
abbrev MGT_FW_SVN : Nat := 0x14000c
/-- MGT_FAULT -/
abbrev MGT_FAULT : Nat := 0x140020
/-- MGT_FAULT_CNT -/
abbrev MGT_FAULT_CNT : Nat := 0x140024
/-- MGT_USTATE0 -/
abbrev MGT_USTATE : Nat := 0x140100
/-- MGT_JRNL_SEQ_LO -/
abbrev MGT_JRNL_SEQ_LO : Nat := 0x140200
/-- MGT_JRNL_SEQ_HI -/
abbrev MGT_JRNL_SEQ_HI : Nat := 0x140204
/-- MGT_JRNL_OLDEST_LO -/
abbrev MGT_JRNL_OLDEST_LO : Nat := 0x14020c
/-- MGT_JRNL_OLDEST_HI -/
abbrev MGT_JRNL_OLDEST_HI : Nat := 0x140210
/-- MGT_JRNL_STAT -/
abbrev MGT_JRNL_STAT : Nat := 0x140208
/-- MGT_TEMP0 -/
abbrev MGT_TEMP : Nat := 0x140400
/-- MGT_VOLT0 -/
abbrev MGT_VOLT : Nat := 0x140480
/-- MGT_TLIM0 -/
abbrev MGT_TLIM : Nat := 0x140440
/-- MGT_VLIM0 -/
abbrev MGT_VLIM : Nat := 0x140500
/-- MGT_ALARM -/
abbrev MGT_ALARM : Nat := 0x140580
/-- MGT_MBOX_CTL -/
abbrev MGT_MBOX_CTL : Nat := 0x140800
/-- MGT_MBOX_DATA0 -/
abbrev MGT_MBOX_DATA : Nat := 0x140900
/-- MGT_DBG -/
abbrev MGT_DBG : Nat := 0x140a00
/-- MGT_DBG_NONCE0 -/
abbrev MGT_DBG_NONCE : Nat := 0x140a10
/-- CLK_REF_CTL -/
abbrev CLK_REF_CTL : Nat := 0x160000
/-- CLK_REF_STAT -/
abbrev CLK_REF_STAT : Nat := 0x160004
/-- CLK_DOM_OK -/
abbrev CLK_DOM_OK : Nat := 0x160008
/-- CLK_DOM_FAULT -/
abbrev CLK_DOM_FAULT : Nat := 0x16000c
/-- CLK_DOM0_FREQ -/
abbrev CLK_DOM_FREQ : Nat := 0x160100
/-- CLK_PPLL0_FREQ -/
abbrev CLK_PPLL_FREQ : Nat := 0x160200
/-- CLK_PPLL0_STAT -/
abbrev CLK_PPLL_STAT : Nat := 0x160204
/-- CLK_BANK1 -/
abbrev CLK_BANK : Nat := 0x160400
/-- CLK_GPIO_OUT -/
abbrev CLK_GPIO_OUT : Nat := 0x160600
/-- CLK_GPIO_OE -/
abbrev CLK_GPIO_OE : Nat := 0x160604
/-- CLK_GPIO_IN -/
abbrev CLK_GPIO_IN : Nat := 0x160608
end Off

/-- The registers of the HIF block. -/
def hifRegs : List RegDef :=
  [⟨Off.HIF_ID, 0, 1, 0, 1, .none, 0, 0x0, 0x0, 0x0, 0x0, 0x0, 0x0, 0x964000b1⟩,
   ⟨Off.HIF_ZHP, 0, 1, 0, 1, .ctx, 0, 0x0, 0x0, 0x0, 0x0, 0x0, 0x0, 0x3220⟩,
   ⟨Off.HIF_CTX, 0, 1, 0, 1, .ctx, 0, 0x0, 0x0, 0x0, 0x0, 0x0, 0x0, 0x0⟩,
   ⟨Off.HIF_CTX_CTL, 0, 1, 0, 1, .ctx, 0, 0x1, 0x0, 0x0, 0x0, 0x0, 0x2, 0x0⟩,
   ⟨Off.HIF_ASQ_BASE_LO, 0, 1, 0, 1, .ctx, 1, 0xffffffff, 0x0, 0x0, 0x0, 0x0, 0x0, 0x0⟩,
   ⟨Off.HIF_ASQ_BASE_HI, 0, 1, 0, 1, .ctx, 2, 0xffffffff, 0x0, 0x0, 0x0, 0x0, 0x0, 0x0⟩,
   ⟨Off.HIF_ACQ_BASE_LO, 0, 1, 0, 1, .ctx, 1, 0xffffffff, 0x0, 0x0, 0x0, 0x0, 0x0, 0x0⟩,
   ⟨Off.HIF_ACQ_BASE_HI, 0, 1, 0, 1, .ctx, 2, 0xffffffff, 0x0, 0x0, 0x0, 0x0, 0x0, 0x0⟩,
   ⟨Off.HIF_AQ_SIZE, 0, 1, 0, 1, .ctx, 0, 0xf0f, 0x0, 0x0, 0x0, 0x0, 0x0, 0x0⟩,
   ⟨Off.HIF_ASQ_TAIL, 0, 1, 0, 1, .ctx, 0, 0xfff, 0x0, 0x0, 0x0, 0x0, 0x0, 0x0⟩,
   ⟨Off.HIF_ACQ_HEAD, 0, 1, 0, 1, .ctx, 0, 0xfff, 0x0, 0x0, 0x0, 0x0, 0x0, 0x0⟩,
   ⟨Off.HIF_AQ_STATUS, 0, 1, 0, 1, .ctx, 0, 0x0, 0x0, 0x0, 0x0, 0x0, 0x0, 0x0⟩,
   ⟨Off.HIF_RIGHTS_BLK, 0, 1, 0, 1, .ctx, 0, 0x0, 0x0, 0x0, 0x0, 0x0, 0x0, 0x0⟩,
   ⟨Off.HIF_RIGHTS_PORT, 0, 1, 0, 1, .ctx, 0, 0x0, 0x0, 0x0, 0x0, 0x0, 0x0, 0x0⟩,
   ⟨Off.HIF_RIGHTS_AXIS, 0, 1, 0, 1, .ctx, 0, 0x0, 0x0, 0x0, 0x0, 0x0, 0x0, 0x0⟩,
   ⟨Off.HIF_DENIED, 0, 1, 0, 1, .ctx, 0, 0x0, 0x0, 0x0, 0x0, 0x807fffff, 0x0, 0x0⟩,
   ⟨Off.HIF_TIME_LO, 0, 1, 0, 1, .none, 1, 0x0, 0x0, 0x0, 0x0, 0x0, 0x0, 0x0⟩,
   ⟨Off.HIF_TIME_HI, 0, 1, 0, 1, .none, 2, 0x0, 0x0, 0x0, 0x0, 0x0, 0x0, 0x0⟩,
   ⟨Off.HIF_PTM_CTL, 0, 1, 0, 1, .none, 0, 0xff01, 0x0, 0x0, 0x0, 0x0, 0x0, 0xa00⟩,
   ⟨Off.HIF_PTM_STATUS, 0, 1, 0, 1, .none, 0, 0x0, 0x0, 0x0, 0x0, 0x0, 0x0, 0x0⟩,
   ⟨Off.HIF_LINK, 0, 1, 0, 1, .none, 0, 0x0, 0x0, 0x0, 0x0, 0x0, 0x0, 0x0⟩,
   ⟨Off.HIF_GSTATUS, 0, 1, 0, 1, .none, 0, 0x0, 0x0, 0x0, 0x0, 0x0, 0x0, 0x0⟩,
   ⟨Off.HIF_RESET, 0, 1, 0, 1, .none, 0, 0x0, 0x0, 0x0, 0x0, 0x0, 0xffff, 0x0⟩]

/-- The registers of the SEL block. -/
def selRegs : List RegDef :=
  [⟨Off.SEL_PORT, 0, 1, 0, 1, .ctx, 0, 0xf, 0x0, 0x0, 0x0, 0x0, 0x0, 0x0⟩,
   ⟨Off.SEL_AXIS, 0, 1, 0, 1, .ctx, 0, 0x7, 0x0, 0x0, 0x0, 0x0, 0x0, 0x0⟩,
   ⟨Off.SEL_CHAN, 0, 1, 0, 1, .ctx, 0, 0x7f, 0x0, 0x0, 0x0, 0x0, 0x0, 0x0⟩,
   ⟨Off.SEL_ENGINE, 0, 1, 0, 1, .ctx, 0, 0x3f, 0x0, 0x0, 0x0, 0x0, 0x0, 0x0⟩,
   ⟨Off.SEL_TABLE, 0, 1, 0, 1, .ctx, 0, 0x3f1f0f, 0x0, 0x0, 0x0, 0x0, 0x0, 0x0⟩,
   ⟨Off.SEL_SNAP_LO, 0, 1, 0, 1, .ctx, 1, 0x0, 0x0, 0x0, 0x0, 0x0, 0x0, 0x0⟩,
   ⟨Off.SEL_SNAP_HI, 0, 1, 0, 1, .ctx, 2, 0x0, 0x0, 0x0, 0x0, 0x0, 0x0, 0x0⟩]

/-- The registers of the EVT block. -/
def evtRegs : List RegDef :=
  [⟨Off.EVT_ROUTE, 4, 1536, 0, 1, .none, 0, 0x8000003f, 0x0, 0x0, 0x0, 0x0, 0x0, 0x0⟩,
   ⟨Off.EVT_PEND, 4, 48, 0, 1, .none, 0, 0x0, 0x0, 0x0, 0x0, 0x0, 0x0, 0x0⟩,
   ⟨Off.EVQ_CTL, 64, 64, 0, 1, .none, 0, 0x10101, 0x0, 0x0, 0x0, 0x0, 0x80000000, 0x0⟩,
   ⟨Off.EVQ_LEVEL, 64, 64, 0, 1, .none, 0, 0x3f, 0x0, 0x0, 0x0, 0x0, 0x0, 0x0⟩,
   ⟨Off.EVQ_VEC, 64, 64, 0, 1, .none, 0, 0x1ff, 0x0, 0x0, 0x0, 0x0, 0x0, 0x0⟩,
   ⟨Off.EVQ_STAT, 64, 64, 0, 1, .none, 0, 0x0, 0x0, 0x0, 0x0, 0x0, 0x0, 0x0⟩,
   ⟨Off.EVQ_POP_LO, 64, 64, 0, 1, .none, 1, 0x0, 0x0, 0x0, 0x0, 0xffffffff, 0x0, 0x0⟩,
   ⟨Off.EVQ_POP_HI, 64, 64, 0, 1, .none, 2, 0x0, 0x0, 0x0, 0x0, 0xffffffff, 0x0, 0x0⟩,
   ⟨Off.EVQ_LOST, 64, 64, 0, 1, .none, 0, 0x0, 0x0, 0x0, 0x0, 0xffffffff, 0x0, 0x0⟩,
   ⟨Off.EVQ_RING_BASE_LO, 64, 64, 0, 1, .none, 1, 0xffffffff, 0x0, 0x0, 0x0, 0x0, 0x0, 0x0⟩,
   ⟨Off.EVQ_RING_BASE_HI, 64, 64, 0, 1, .none, 2, 0xffffffff, 0x0, 0x0, 0x0, 0x0, 0x0, 0x0⟩,
   ⟨Off.EVQ_RING_SIZE, 64, 64, 0, 1, .none, 0, 0x1f, 0x0, 0x0, 0x0, 0x0, 0x0, 0x6⟩,
   ⟨Off.EVQ_RING_HEAD, 64, 64, 0, 1, .none, 0, 0xffff, 0x0, 0x0, 0x0, 0x0, 0x0, 0x0⟩,
   ⟨Off.EVQ_RING_TAIL, 64, 64, 0, 1, .none, 0, 0x0, 0x0, 0x0, 0x0, 0x0, 0x0, 0x0⟩]

/-- The registers of the DMA block. -/
def dmaRegs : List RegDef :=
  [⟨Off.DMA_DC_CFG, 0, 1, 0, 1, .chan, 0, 0x3ff0001, 0x0, 0x0, 0x0, 0x0, 0x0, 0x640000⟩,
   ⟨Off.DMA_DC_STATE, 0, 1, 0, 1, .chan, 0, 0x0, 0x0, 0x0, 0x0, 0x0, 0x0, 0x0⟩,
   ⟨Off.DMA_DC_BASE_LO, 0, 1, 0, 1, .chan, 1, 0x0, 0x0, 0x0, 0x0, 0x0, 0x0, 0x0⟩,
   ⟨Off.DMA_DC_BASE_HI, 0, 1, 0, 1, .chan, 2, 0x0, 0x0, 0x0, 0x0, 0x0, 0x0, 0x0⟩,
   ⟨Off.DMA_DC_TAIL, 0, 1, 0, 1, .chan, 0, 0xffff, 0x0, 0x0, 0x0, 0x0, 0x0, 0x0⟩,
   ⟨Off.DMA_DC_HEAD, 0, 1, 0, 1, .chan, 0, 0x0, 0x0, 0x0, 0x0, 0x0, 0x0, 0x0⟩,
   ⟨Off.DMA_DC_LEVEL, 0, 1, 0, 1, .chan, 0, 0x0, 0x0, 0x0, 0x0, 0x0, 0x0, 0x0⟩,
   ⟨Off.DMA_DC_EOC, 0, 1, 0, 1, .chan, 0, 0xffffffff, 0x0, 0x0, 0x0, 0x0, 0x0, 0x1⟩,
   ⟨Off.DMA_DC_EOC_PEND, 0, 1, 0, 1, .chan, 0, 0x0, 0x0, 0x0, 0x0, 0x0, 0x0, 0x0⟩,
   ⟨Off.DMA_DC_DROP, 0, 1, 0, 1, .chan, 0, 0x0, 0x0, 0x0, 0x0, 0xffffffff, 0x0, 0x0⟩,
   ⟨Off.DMA_DC_RECS_LO, 0, 1, 0, 1, .chan, 1, 0x0, 0x0, 0x0, 0x0, 0x0, 0x0, 0x0⟩,
   ⟨Off.DMA_DC_RECS_HI, 0, 1, 0, 1, .chan, 2, 0x0, 0x0, 0x0, 0x0, 0x0, 0x0, 0x0⟩,
   ⟨Off.DMA_DC_BYTES_LO, 0, 1, 0, 1, .chan, 1, 0x0, 0x0, 0x0, 0x0, 0x0, 0x0, 0x0⟩,
   ⟨Off.DMA_DC_BYTES_HI, 0, 1, 0, 1, .chan, 2, 0x0, 0x0, 0x0, 0x0, 0x0, 0x0, 0x0⟩,
   ⟨Off.DMA_DC_LINE_LO, 0, 1, 0, 1, .chan, 1, 0x0, 0x0, 0x0, 0x0, 0x0, 0x0, 0x0⟩,
   ⟨Off.DMA_DC_LINE_HI, 0, 1, 0, 1, .chan, 2, 0x0, 0x0, 0x0, 0x0, 0x0, 0x0, 0x0⟩,
   ⟨Off.DMA_DC_ERR, 0, 1, 0, 1, .chan, 0, 0x0, 0x0, 0x0, 0x0, 0x8007ffff, 0x0, 0x0⟩,
   ⟨Off.DMA_DC_ERR_ADDR_LO, 0, 1, 0, 1, .chan, 1, 0x0, 0x0, 0x0, 0x0, 0x0, 0x0, 0x0⟩,
   ⟨Off.DMA_DC_ERR_ADDR_HI, 0, 1, 0, 1, .chan, 2, 0x0, 0x0, 0x0, 0x0, 0x0, 0x0, 0x0⟩,
   ⟨Off.DMA_SC_CFG, 0, 1, 0, 1, .chan, 0, 0xf0f01, 0x0, 0x0, 0x0, 0x0, 0x0, 0x30100⟩,
   ⟨Off.DMA_SC_BASE_LO, 0, 1, 0, 1, .chan, 1, 0xffffffff, 0x0, 0x0, 0x0, 0x0, 0x0, 0x0⟩,
   ⟨Off.DMA_SC_BASE_HI, 0, 1, 0, 1, .chan, 2, 0xffffffff, 0x0, 0x0, 0x0, 0x0, 0x0, 0x0⟩,
   ⟨Off.DMA_SC_LEN, 0, 1, 0, 1, .chan, 0, 0x1ffff, 0x0, 0x0, 0x0, 0x0, 0x0, 0x1⟩,
   ⟨Off.DMA_SC_ARG, 4, 4, 0, 1, .chan, 0, 0xffffffff, 0x0, 0x0, 0x0, 0x0, 0x0, 0x0⟩] ++
  [⟨Off.DMA_SC_CTL, 0, 1, 0, 1, .chan, 0, 0x0, 0x0, 0x0, 0x0, 0x0, 0x3, 0x0⟩,
   ⟨Off.DMA_SC_STATE, 0, 1, 0, 1, .chan, 0, 0x0, 0x0, 0x0, 0x0, 0x0, 0x0, 0x0⟩,
   ⟨Off.DMA_SC_PC, 0, 1, 0, 1, .chan, 0, 0x0, 0x0, 0x0, 0x0, 0x0, 0x0, 0x0⟩,
   ⟨Off.DMA_SC_TRAP, 0, 1, 0, 1, .chan, 0, 0x0, 0x80000000, 0x0, 0x0, 0x0, 0x0, 0x0⟩,
   ⟨Off.DMA_SC_TRAP_ARG, 0, 1, 0, 1, .chan, 0, 0x0, 0x0, 0x0, 0x0, 0x0, 0x0, 0x0⟩,
   ⟨Off.DMA_SC_FAULT, 0, 1, 0, 1, .chan, 0, 0x0, 0x0, 0x0, 0x0, 0x80000f33, 0x0, 0x0⟩,
   ⟨Off.DMA_SC_FAULT_ADDR_LO, 0, 1, 0, 1, .chan, 1, 0x0, 0x0, 0x0, 0x0, 0x0, 0x0, 0x0⟩,
   ⟨Off.DMA_SC_FAULT_ADDR_HI, 0, 1, 0, 1, .chan, 2, 0x0, 0x0, 0x0, 0x0, 0x0, 0x0, 0x0⟩,
   ⟨Off.DMA_SC_XFER_DONE, 0, 1, 0, 1, .chan, 0, 0x0, 0x0, 0x0, 0x0, 0x0, 0x0, 0x0⟩,
   ⟨Off.DMA_SC_SIGNAL, 0, 1, 0, 1, .chan, 0, 0x0, 0x0, 0x0, 0x0, 0x0, 0x0, 0x0⟩,
   ⟨Off.DMA_SC_BYTES_LO, 0, 1, 0, 1, .chan, 1, 0x0, 0x0, 0x0, 0x0, 0x0, 0x0, 0x0⟩,
   ⟨Off.DMA_SC_BYTES_HI, 0, 1, 0, 1, .chan, 2, 0x0, 0x0, 0x0, 0x0, 0x0, 0x0, 0x0⟩]

/-- The registers of the PRT block. -/
def prtRegs : List RegDef :=
  [⟨Off.PRT_GCFG, 0, 1, 0, 1, .port, 0, 0xfff, 0x0, 0x0, 0x3fff0000, 0x0, 0x0, 0x0⟩,
   ⟨Off.PRT_TRIM_A, 0, 1, 0, 1, .port, 0, 0x0, 0x0, 0x3fffffff, 0x0, 0x0, 0x0, 0x0⟩,
   ⟨Off.PRT_TRIM_B, 0, 1, 0, 1, .port, 0, 0x0, 0x0, 0x3fffffff, 0x0, 0x0, 0x0, 0x0⟩,
   ⟨Off.PRT_TRIM_C, 0, 1, 0, 1, .port, 0, 0x0, 0x0, 0x3ff, 0x0, 0x0, 0x0, 0x0⟩,
   ⟨Off.PRT_STRW0A, 0, 1, 0, 1, .port, 0, 0x0, 0x0, 0x0, 0xffffffff, 0x0, 0x0, 0x0⟩,
   ⟨Off.PRT_STRW0B, 0, 1, 0, 1, .port, 0, 0x0, 0x0, 0x0, 0xffffffff, 0x0, 0x0, 0x0⟩,
   ⟨Off.PRT_STRW1A, 0, 1, 0, 1, .port, 0, 0x0, 0x0, 0x0, 0xffffffff, 0x0, 0x0, 0x0⟩,
   ⟨Off.PRT_STRW1B, 0, 1, 0, 1, .port, 0, 0x0, 0x0, 0x0, 0xffffffff, 0x0, 0x0, 0x0⟩,
   ⟨Off.PRT_LREF0, 0, 1, 0, 1, .port, 0, 0x0, 0x0, 0x0, 0xffffffff, 0x0, 0x0, 0x0⟩,
   ⟨Off.PRT_LREF1, 0, 1, 0, 1, .port, 0, 0x0, 0x0, 0x0, 0xffffffff, 0x0, 0x0, 0x0⟩,
   ⟨Off.PRT_GQUEUE, 0, 1, 0, 1, .port, 0, 0x0, 0x0, 0x0, 0x0, 0xffff7f00, 0x0, 0x0⟩,
   ⟨Off.PRT_GREJECT, 0, 1, 0, 1, .port, 0, 0x0, 0x0, 0x0, 0x0, 0x8007ffff, 0x0, 0x0⟩,
   ⟨Off.PRT_HEAD_CTL, 0, 1, 0, 1, .port, 0, 0xff00, 0x0, 0x0, 0x0, 0x0, 0x1, 0xa00⟩,
   ⟨Off.PRT_HEAD_STAT, 0, 1, 0, 1, .port, 0, 0x0, 0x0, 0x0, 0x0, 0x0, 0x0, 0x0⟩,
   ⟨Off.PRT_HEAD_REQ, 0, 1, 0, 1, .port, 0, 0x0, 0x0, 0x0, 0x9f0fffff, 0x0, 0x0, 0x0⟩,
   ⟨Off.PRT_HEAD_PROG, 0, 1, 0, 1, .port, 0, 0x0, 0x0, 0x0, 0xffffffff, 0x0, 0x0, 0x0⟩,
   ⟨Off.PRT_HDESC, 4, 40, 0, 1, .port, 0, 0x0, 0x0, 0x0, 0x0, 0x0, 0x0, 0x0⟩,
   ⟨Off.PRT_FE_EN, 0, 1, 0, 1, .port, 0, 0x0, 0x0, 0x0, 0xffffff, 0x0, 0x0, 0x0⟩,
   ⟨Off.PRT_FE_INV, 0, 1, 0, 1, .port, 0, 0x0, 0x0, 0x0, 0xffff, 0x0, 0x0, 0x0⟩,
   ⟨Off.PRT_RANGE_A, 0, 1, 0, 1, .port, 0, 0x0, 0x0, 0x77777777, 0x0, 0x0, 0x0, 0x0⟩,
   ⟨Off.PRT_RANGE_B, 0, 1, 0, 1, .port, 0, 0x0, 0x0, 0x77777777, 0x0, 0x0, 0x0, 0x0⟩,
   ⟨Off.PRT_RSET_A, 0, 1, 0, 1, .port, 0, 0x0, 0x0, 0x0, 0x77777777, 0x0, 0x0, 0x0⟩,
   ⟨Off.PRT_RSET_B, 0, 1, 0, 1, .port, 0, 0x0, 0x0, 0x0, 0x77777777, 0x0, 0x0, 0x0⟩,
   ⟨Off.PRT_RANGE_NOW_A, 0, 1, 0, 1, .port, 0, 0x0, 0x0, 0x0, 0x0, 0x0, 0x0, 0x0⟩] ++
  [⟨Off.PRT_RANGE_NOW_B, 0, 1, 0, 1, .port, 0, 0x0, 0x0, 0x0, 0x0, 0x0, 0x0, 0x0⟩,
   ⟨Off.PRT_FE_STAT, 0, 1, 0, 1, .port, 0, 0x0, 0x0, 0x0, 0x0, 0x0, 0x0, 0x0⟩,
   ⟨Off.PRT_CLAMP, 4, 16, 0, 1, .port, 0, 0x0, 0x0, 0xfff, 0xfff0000, 0x0, 0x0, 0x8000800⟩,
   ⟨Off.PRT_OV, 0, 1, 0, 1, .port, 0, 0x0, 0xffff, 0x0, 0x0, 0x0, 0x0, 0x0⟩,
   ⟨Off.PRT_CONV_CTL, 0, 1, 0, 1, .port, 0, 0x3ffff, 0x0, 0x0, 0x0, 0x0, 0x80000000, 0x103e8⟩,
   ⟨Off.PRT_WATCH, 0, 1, 0, 1, .port, 0, 0xffff0f01, 0x0, 0x0, 0x0, 0x0, 0x0, 0x400c01⟩,
   ⟨Off.PRT_CONV_STAT, 0, 1, 0, 1, .port, 0, 0x0, 0x0, 0x0, 0x0, 0x0, 0x0, 0x0⟩,
   ⟨Off.PRT_ROT_COUNT, 0, 1, 0, 1, .port, 0, 0x0, 0x0, 0x0, 0x0, 0x0, 0x0, 0x0⟩,
   ⟨Off.PRT_TAP_STAT, 4, 16, 0, 1, .port, 0, 0x0, 0x0, 0x0, 0x0, 0x0, 0x0, 0x0⟩,
   ⟨Off.PRT_SCOEFA, 64, 16, 8, 5, .port, 0, 0x0, 0x0, 0x0, 0x0, 0x0, 0x0, 0x0⟩,
   ⟨Off.PRT_SCOEFB, 64, 16, 8, 5, .port, 0, 0x0, 0x0, 0x0, 0x0, 0x0, 0x0, 0x0⟩,
   ⟨Off.PRT_LTG_CFG, 0, 1, 0, 1, .port, 0, 0x0, 0x0, 0x0, 0xffff0177, 0x0, 0x0, 0x3e80000⟩,
   ⟨Off.PRT_LTG_PMIN, 0, 1, 0, 1, .port, 0, 0x0, 0x0, 0x0, 0xffffffff, 0x0, 0x0, 0x3d090⟩,
   ⟨Off.PRT_GEAR_NUM, 0, 1, 0, 1, .port, 0, 0x0, 0x0, 0xffffffff, 0x0, 0x0, 0x0, 0x1⟩,
   ⟨Off.PRT_GEAR_DEN, 0, 1, 0, 1, .port, 0, 0x0, 0x0, 0xffffffff, 0x0, 0x0, 0x0, 0x1⟩,
   ⟨Off.PRT_GEAR_NUMS, 0, 1, 0, 1, .port, 0, 0x0, 0x0, 0x0, 0xffffffff, 0x0, 0x0, 0x1⟩,
   ⟨Off.PRT_GEAR_DENS, 0, 1, 0, 1, .port, 0, 0x0, 0x0, 0x0, 0xffffffff, 0x0, 0x0, 0x1⟩,
   ⟨Off.PRT_GEAR_NOW_NUM, 0, 1, 0, 1, .port, 0, 0x0, 0x0, 0x0, 0x0, 0x0, 0x0, 0x1⟩,
   ⟨Off.PRT_GEAR_NOW_DEN, 0, 1, 0, 1, .port, 0, 0x0, 0x0, 0x0, 0x0, 0x0, 0x0, 0x1⟩,
   ⟨Off.PRT_GEAR_ANUM, 0, 1, 0, 1, .port, 0, 0xffffffff, 0x0, 0x0, 0x0, 0x0, 0x0, 0x1⟩,
   ⟨Off.PRT_GEAR_ADEN, 0, 1, 0, 1, .port, 0, 0xffffffff, 0x0, 0x0, 0x0, 0x0, 0x0, 0x1⟩,
   ⟨Off.PRT_GEAR_APOS_LO, 0, 1, 0, 1, .port, 1, 0xffffffff, 0x0, 0x0, 0x0, 0x0, 0x0, 0x0⟩,
   ⟨Off.PRT_GEAR_APOS_HI, 0, 1, 0, 1, .port, 2, 0xffff, 0x0, 0x0, 0x0, 0x0, 0x0, 0x0⟩,
   ⟨Off.PRT_GEAR_ARMCTL, 0, 1, 0, 1, .port, 0, 0x7, 0x0, 0x0, 0x0, 0x0, 0x0, 0x0⟩] ++
  [⟨Off.PRT_LTG_CMD, 0, 1, 0, 1, .port, 0, 0x0, 0x0, 0x0, 0x0, 0x0, 0x1, 0x0⟩,
   ⟨Off.PRT_LTG_STAT, 0, 1, 0, 1, .port, 0, 0x0, 0x0, 0x0, 0x0, 0x0, 0x0, 0x0⟩,
   ⟨Off.PRT_LTG_SRC_LO, 0, 1, 0, 1, .port, 1, 0x0, 0x0, 0x0, 0x0, 0x0, 0x0, 0x0⟩,
   ⟨Off.PRT_LTG_SRC_HI, 0, 1, 0, 1, .port, 2, 0x0, 0x0, 0x0, 0x0, 0x0, 0x0, 0x0⟩,
   ⟨Off.PRT_LTG_HW_LO, 0, 1, 0, 1, .port, 1, 0x0, 0x0, 0x0, 0x0, 0x0, 0x0, 0x0⟩,
   ⟨Off.PRT_LTG_HW_HI, 0, 1, 0, 1, .port, 2, 0x0, 0x0, 0x0, 0x0, 0x0, 0x0, 0x0⟩,
   ⟨Off.PRT_LTG_EARLY, 0, 1, 0, 1, .port, 0, 0x0, 0x0, 0x0, 0x0, 0xffffffff, 0x0, 0x0⟩,
   ⟨Off.PRT_GEAR_LCFG, 0, 1, 0, 1, .port, 0, 0x8000033f, 0x0, 0x0, 0x0, 0x0, 0x0, 0x0⟩,
   ⟨Off.PRT_GEAR_LPOS_LO, 0, 1, 0, 1, .port, 1, 0x0, 0x0, 0x0, 0x0, 0x0, 0x0, 0x0⟩,
   ⟨Off.PRT_GEAR_LPOS_HI, 0, 1, 0, 1, .port, 2, 0x0, 0x0, 0x0, 0x0, 0x0, 0x0, 0x0⟩,
   ⟨Off.PRT_GEAR_LLINE, 0, 1, 0, 1, .port, 0, 0x0, 0x0, 0x0, 0x0, 0x0, 0x0, 0x0⟩,
   ⟨Off.PRT_GEAR_LFRAC, 0, 1, 0, 1, .port, 0, 0x0, 0x0, 0x0, 0x0, 0x0, 0x0, 0x0⟩,
   ⟨Off.PRT_PACE, 0, 1, 0, 1, .port, 0, 0x0, 0x0, 0x0, 0x8fff0000, 0x0, 0x0, 0x10000⟩,
   ⟨Off.PRT_PACE_LW, 0, 1, 0, 1, .port, 0, 0x0, 0x0, 0x0, 0xffffffff, 0x0, 0x0, 0x0⟩,
   ⟨Off.PRT_CONT_CFG, 0, 1, 0, 1, .port, 0, 0x0, 0x0, 0x0, 0xf33f3fff, 0x0, 0x0, 0x10000⟩,
   ⟨Off.PRT_SPLICE_LAST_LO, 0, 1, 0, 1, .port, 1, 0x0, 0x0, 0x0, 0x0, 0x0, 0x0, 0x0⟩,
   ⟨Off.PRT_SPLICE_LAST_HI, 0, 1, 0, 1, .port, 2, 0x0, 0x0, 0x0, 0x0, 0x0, 0x0, 0x0⟩,
   ⟨Off.PRT_SPLICE_SEAM, 0, 1, 0, 1, .port, 0, 0x0, 0x0, 0x0, 0x0, 0x0, 0x0, 0x0⟩]

/-- The registers of the PIP block. -/
def pipRegs : List RegDef :=
  [⟨Off.PIP_TBLSEL, 0, 1, 0, 1, .port, 0, 0x0, 0x0, 0x0, 0x3, 0x0, 0x0, 0x0⟩,
   ⟨Off.PIP_BANK_STAT, 0, 1, 0, 1, .port, 0, 0x0, 0x0, 0x0, 0x0, 0x0, 0x0, 0x0⟩,
   ⟨Off.PIP_BANK_CTL, 0, 1, 0, 1, .port, 0, 0x0, 0x0, 0x0, 0x0, 0x0, 0x33, 0x0⟩,
   ⟨Off.PIP_CRC_S0, 0, 1, 0, 1, .port, 0, 0x0, 0x0, 0x0, 0x0, 0x0, 0x0, 0x0⟩,
   ⟨Off.PIP_CRC_S1, 0, 1, 0, 1, .port, 0, 0x0, 0x0, 0x0, 0x0, 0x0, 0x0, 0x0⟩,
   ⟨Off.PIP_CRC_D0, 0, 1, 0, 1, .port, 0, 0x0, 0x0, 0x0, 0x0, 0x0, 0x0, 0x0⟩,
   ⟨Off.PIP_CRC_D1, 0, 1, 0, 1, .port, 0, 0x0, 0x0, 0x0, 0x0, 0x0, 0x0, 0x0⟩,
   ⟨Off.PIP_ECC, 0, 1, 0, 1, .port, 0, 0x0, 0x0, 0x0, 0x0, 0xffffffff, 0x0, 0x0⟩,
   ⟨Off.PIP_ECC_ADDR, 0, 1, 0, 1, .port, 0, 0x0, 0x0, 0x0, 0x0, 0x8003ffff, 0x0, 0x0⟩,
   ⟨Off.PIP_CAL, 0, 1, 0, 1, .port, 0, 0x3, 0x0, 0x0, 0x0, 0x0, 0x0, 0x1⟩,
   ⟨Off.PIP_CAL_TGT_A, 0, 1, 0, 1, .port, 0, 0xffffffff, 0x0, 0x0, 0x0, 0x0, 0x0, 0x36b036b0⟩,
   ⟨Off.PIP_CAL_TGT_B, 0, 1, 0, 1, .port, 0, 0xffffffff, 0x0, 0x0, 0x0, 0x0, 0x0, 0x36b036b0⟩,
   ⟨Off.PIP_CAL_LIM, 0, 1, 0, 1, .port, 0, 0xffffffff, 0x0, 0x0, 0x0, 0x0, 0x0, 0x10000400⟩,
   ⟨Off.PIP_CAL_STAT, 0, 1, 0, 1, .port, 0, 0x0, 0x0, 0x0, 0x0, 0x0, 0x0, 0x0⟩,
   ⟨Off.PIP_GAP, 0, 1, 0, 1, .port, 0, 0x0, 0x0, 0x0, 0x0, 0x0, 0x0, 0x0⟩,
   ⟨Off.PIP_DRIFT, 0, 1, 0, 1, .port, 0, 0x0, 0x0, 0x0, 0x0, 0x0, 0x0, 0x0⟩,
   ⟨Off.PIP_DRIFT_STAT, 0, 1, 0, 1, .port, 0, 0x0, 0xf0, 0x0, 0x0, 0x0, 0x0, 0x0⟩,
   ⟨Off.PIP_LANE_MAP, 0, 1, 0, 1, .port, 0, 0x0, 0x0, 0x0, 0x0, 0x0, 0x0, 0x76543210⟩,
   ⟨Off.PIP_LANE_STAT, 0, 1, 0, 1, .port, 0, 0x0, 0x0, 0x0, 0x0, 0xff00, 0x0, 0x8⟩]

/-- The registers of the CMP block. -/
def cmpRegs : List RegDef :=
  [⟨Off.CMP_CTL, 0, 1, 0, 1, .port, 0, 0x0, 0x0, 0x0, 0x0, 0x0, 0x80000000, 0x0⟩,
   ⟨Off.CMP_VERIFY, 0, 1, 0, 1, .port, 0, 0x0, 0x0, 0x0, 0x0, 0xf803ffff, 0x0, 0x0⟩,
   ⟨Off.CMP_VERIFY_LINE, 0, 1, 0, 1, .port, 0, 0x0, 0x0, 0x0, 0x0, 0x0, 0x0, 0x0⟩,
   ⟨Off.CMP_BAD, 0, 1, 0, 1, .port, 0, 0x0, 0x0, 0x0, 0x0, 0xffff, 0x0, 0x0⟩,
   ⟨Off.CMP_STALL, 0, 1, 0, 1, .port, 0, 0x0, 0x0, 0x0, 0x0, 0xffff0000, 0x0, 0x0⟩,
   ⟨Off.CMP_BLOCKS_LO, 0, 1, 0, 1, .port, 1, 0x0, 0x0, 0x0, 0x0, 0x0, 0x0, 0x0⟩,
   ⟨Off.CMP_BLOCKS_HI, 0, 1, 0, 1, .port, 2, 0x0, 0x0, 0x0, 0x0, 0x0, 0x0, 0x0⟩,
   ⟨Off.CMP_SHIFT, 4, 16, 0, 1, .port, 0, 0x0, 0x0, 0x0, 0x0, 0xffffffff, 0x0, 0x0⟩,
   ⟨Off.CMP_REC, 0, 1, 0, 1, .port, 0, 0x0, 0x0, 0x0, 0x7007f, 0x0, 0x0, 0x0⟩]

/-- The registers of the TKS block. -/
def tksRegs : List RegDef :=
  [⟨Off.TKS_CTL, 0, 1, 0, 1, .none, 0, 0x1, 0x0, 0x0, 0x0, 0x0, 0xffff0000, 0x0⟩,
   ⟨Off.TKS_CFG, 0, 1, 0, 1, .none, 0, 0xffffffff, 0x0, 0x0, 0x0, 0x0, 0x0, 0xa10a03e8⟩,
   ⟨Off.TKS_STATUS, 0, 1, 0, 1, .none, 0, 0x0, 0x0, 0x0, 0x0, 0x0, 0x0, 0x0⟩,
   ⟨Off.TKS_ID_LO, 0, 1, 0, 1, .none, 1, 0x0, 0x0, 0x0, 0x0, 0x0, 0x0, 0x0⟩,
   ⟨Off.TKS_ID_HI, 0, 1, 0, 1, .none, 2, 0x0, 0x0, 0x0, 0x0, 0x0, 0x0, 0x0⟩,
   ⟨Off.TKS_WP, 0, 1, 0, 1, .none, 0, 0x0, 0x0, 0x0, 0x0, 0x0, 0x0, 0x0⟩,
   ⟨Off.TKS_SEGS, 0, 1, 0, 1, .none, 0, 0x0, 0x0, 0x0, 0x0, 0x0, 0x0, 0x0⟩,
   ⟨Off.TKS_SEG_WRITABLE, 0, 1, 0, 1, .none, 0, 0x0, 0x0, 0x0, 0x0, 0x0, 0x0, 0x0⟩,
   ⟨Off.TKS_SEG_PINNED, 0, 1, 0, 1, .none, 0, 0x0, 0x0, 0x0, 0x0, 0x0, 0x0, 0x0⟩,
   ⟨Off.TKS_SEG_LOST, 0, 1, 0, 1, .none, 0, 0x0, 0x0, 0x0, 0x0, 0x0, 0x0, 0x0⟩,
   ⟨Off.TKS_CUES, 0, 1, 0, 1, .none, 0, 0x0, 0x0, 0x0, 0x0, 0x0, 0x0, 0x0⟩,
   ⟨Off.TKS_DRV_STAT, 16, 8, 0, 1, .none, 0, 0x0, 0x0, 0x0, 0x0, 0x0, 0x0, 0x0⟩,
   ⟨Off.TKS_DRV_CTL, 16, 8, 0, 1, .none, 0, 0x0, 0x0, 0x0, 0x0, 0x0, 0x1, 0x0⟩,
   ⟨Off.TKS_DRV_SEGS, 16, 8, 0, 1, .none, 0, 0x0, 0x0, 0x0, 0x0, 0x0, 0x0, 0x0⟩,
   ⟨Off.TKS_DRV_HEALTH, 16, 8, 0, 1, .none, 0, 0x0, 0x0, 0x0, 0x0, 0x0, 0x0, 0x0⟩,
   ⟨Off.TKS_PORT_STAT, 16, 16, 0, 1, .none, 0, 0x0, 0x0, 0x0, 0x0, 0x0, 0x0, 0x0⟩,
   ⟨Off.TKS_PORT_DROP, 16, 16, 0, 1, .none, 0, 0x0, 0x0, 0x0, 0x0, 0xffffffff, 0x0, 0x0⟩,
   ⟨Off.TKS_PORT_OLDEST_LO, 16, 16, 0, 1, .none, 1, 0x0, 0x0, 0x0, 0x0, 0x0, 0x0, 0x0⟩,
   ⟨Off.TKS_PORT_OLDEST_HI, 16, 16, 0, 1, .none, 2, 0x0, 0x0, 0x0, 0x0, 0x0, 0x0, 0x0⟩,
   ⟨Off.TKS_CUE, 16, 256, 4, 4, .none, 0, 0x0, 0x0, 0x0, 0x0, 0x0, 0x0, 0x0⟩]

/-- The registers of the MOT block. -/
def motRegs : List RegDef :=
  [⟨Off.MOT_GRP_PACE, 64, 4, 0, 1, .none, 0, 0x0, 0x0, 0x0, 0x7f0007, 0x0, 0x0, 0x100000⟩,
   ⟨Off.MOT_GRP_VRUN, 64, 4, 0, 1, .none, 0, 0x0, 0x0, 0x0, 0xffffffff, 0x0, 0x0, 0x0⟩,
   ⟨Off.MOT_GRP_LEADER, 64, 4, 0, 1, .none, 0, 0x0, 0x0, 0x0, 0xffffffff, 0x0, 0x0, 0x0⟩,
   ⟨Off.MOT_GRP_CTL, 64, 4, 0, 1, .none, 0, 0x3, 0x0, 0x0, 0x0, 0x0, 0x0, 0x0⟩,
   ⟨Off.MOT_GRP_STAT, 64, 4, 0, 1, .none, 0, 0x0, 0x0, 0x0, 0x0, 0x0, 0x0, 0x0⟩,
   ⟨Off.MOT_MCFG0, 0, 1, 0, 1, .none, 0, 0xf01, 0x0, 0x0, 0x0, 0x0, 0x0, 0x200⟩,
   ⟨Off.MOT_MCFG1, 0, 1, 0, 1, .none, 0, 0xf01, 0x0, 0x0, 0x0, 0x0, 0x0, 0x200⟩,
   ⟨Off.MOT_MSTAT, 0, 1, 0, 1, .none, 0, 0x0, 0x3, 0x0, 0x0, 0x0, 0x0, 0x0⟩,
   ⟨Off.MOT_MCNT0_LO, 0, 1, 0, 1, .none, 1, 0x0, 0x0, 0x0, 0x0, 0x0, 0x0, 0x0⟩,
   ⟨Off.MOT_MCNT0_HI, 0, 1, 0, 1, .none, 2, 0x0, 0x0, 0x0, 0x0, 0x0, 0x0, 0x0⟩,
   ⟨Off.MOT_MCNT1_LO, 0, 1, 0, 1, .none, 1, 0x0, 0x0, 0x0, 0x0, 0x0, 0x0, 0x0⟩,
   ⟨Off.MOT_MCNT1_HI, 0, 1, 0, 1, .none, 2, 0x0, 0x0, 0x0, 0x0, 0x0, 0x0, 0x0⟩,
   ⟨Off.MOT_PROF_VMAX, 0, 1, 0, 1, .axis, 0, 0x0, 0x0, 0x0, 0xffffffff, 0x0, 0x0, 0x186a0⟩,
   ⟨Off.MOT_PROF_ACC, 0, 1, 0, 1, .axis, 0, 0x0, 0x0, 0x0, 0xffffffff, 0x0, 0x0, 0xf4240⟩,
   ⟨Off.MOT_PROF_DEC, 0, 1, 0, 1, .axis, 0, 0x0, 0x0, 0x0, 0xffffffff, 0x0, 0x0, 0xf4240⟩,
   ⟨Off.MOT_PROF_SDEC, 0, 1, 0, 1, .axis, 0, 0x0, 0x0, 0x0, 0xffffffff, 0x0, 0x0, 0x3d0900⟩,
   ⟨Off.MOT_PROF_JERK, 0, 1, 0, 1, .axis, 0, 0x0, 0x0, 0x0, 0xffffffff, 0x0, 0x0, 0xf4240⟩,
   ⟨Off.MOT_PROF_CFG, 0, 1, 0, 1, .axis, 0, 0x0, 0x0, 0x0, 0x101, 0x0, 0x0, 0x100⟩,
   ⟨Off.MOT_CUR, 0, 1, 0, 1, .axis, 0, 0x0, 0x0, 0x0, 0xffff07ff, 0x0, 0x0, 0x64800000⟩,
   ⟨Off.MOT_CHOP, 0, 1, 0, 1, .axis, 0, 0x0, 0x0, 0x0, 0xf3ffffff, 0x0, 0x0, 0xa0c86428⟩,
   ⟨Off.MOT_CHOP_ZERO, 0, 1, 0, 1, .axis, 0, 0x0, 0x0, 0x0, 0xfff0fff, 0x0, 0x0, 0x8000800⟩,
   ⟨Off.MOT_OCLIM, 0, 1, 0, 1, .axis, 0, 0x0, 0x0, 0x0, 0xfff, 0x0, 0x0, 0x7d0⟩,
   ⟨Off.MOT_ENC, 0, 1, 0, 1, .axis, 0, 0x0, 0x0, 0x0, 0xffffffff, 0x0, 0x0, 0x10000⟩,
   ⟨Off.MOT_ENC_CFG, 0, 1, 0, 1, .axis, 0, 0x0, 0x0, 0x0, 0xf01, 0x0, 0x0, 0x200⟩] ++
  [⟨Off.MOT_STALL, 0, 1, 0, 1, .axis, 0, 0x0, 0x0, 0x0, 0x83ffffff, 0x0, 0x0, 0x1040040⟩,
   ⟨Off.MOT_INPOS, 0, 1, 0, 1, .axis, 0, 0x0, 0x0, 0x0, 0xffff, 0x0, 0x0, 0x0⟩,
   ⟨Off.MOT_SW, 0, 1, 0, 1, .axis, 0, 0x0, 0x0, 0x0, 0x30fff, 0x0, 0x0, 0x30004⟩,
   ⟨Off.MOT_MSTEP_CTL, 0, 1, 0, 1, .axis, 0, 0x0, 0x0, 0x0, 0x0, 0x0, 0x1, 0x0⟩,
   ⟨Off.MOT_STAT, 0, 1, 0, 1, .axis, 0, 0x0, 0x700000, 0x0, 0x0, 0x0, 0x0, 0x0⟩,
   ⟨Off.MOT_POS_LO, 0, 1, 0, 1, .axis, 1, 0x0, 0x0, 0x0, 0x0, 0x0, 0x0, 0x0⟩,
   ⟨Off.MOT_POS_HI, 0, 1, 0, 1, .axis, 2, 0x0, 0x0, 0x0, 0x0, 0x0, 0x0, 0x0⟩,
   ⟨Off.MOT_ENCC_LO, 0, 1, 0, 1, .axis, 1, 0x0, 0x0, 0x0, 0x0, 0x0, 0x0, 0x0⟩,
   ⟨Off.MOT_ENCC_HI, 0, 1, 0, 1, .axis, 2, 0x0, 0x0, 0x0, 0x0, 0x0, 0x0, 0x0⟩,
   ⟨Off.MOT_TGT_LO, 0, 1, 0, 1, .axis, 1, 0x0, 0x0, 0x0, 0x0, 0x0, 0x0, 0x0⟩,
   ⟨Off.MOT_TGT_HI, 0, 1, 0, 1, .axis, 2, 0x0, 0x0, 0x0, 0x0, 0x0, 0x0, 0x0⟩,
   ⟨Off.MOT_LATCH_LO, 0, 1, 0, 1, .axis, 1, 0x0, 0x0, 0x0, 0x0, 0x0, 0x0, 0x0⟩,
   ⟨Off.MOT_LATCH_HI, 0, 1, 0, 1, .axis, 2, 0x0, 0x0, 0x0, 0x0, 0x0, 0x0, 0x0⟩,
   ⟨Off.MOT_LATCH_ENC_LO, 0, 1, 0, 1, .axis, 1, 0x0, 0x0, 0x0, 0x0, 0x0, 0x0, 0x0⟩,
   ⟨Off.MOT_LATCH_ENC_HI, 0, 1, 0, 1, .axis, 2, 0x0, 0x0, 0x0, 0x0, 0x0, 0x0, 0x0⟩,
   ⟨Off.MOT_AGEAR_OUT_LO, 0, 1, 0, 1, .axis, 1, 0x0, 0x0, 0x0, 0x0, 0x0, 0x0, 0x0⟩,
   ⟨Off.MOT_AGEAR_OUT_HI, 0, 1, 0, 1, .axis, 2, 0x0, 0x0, 0x0, 0x0, 0x0, 0x0, 0x0⟩,
   ⟨Off.MOT_VEL, 0, 1, 0, 1, .axis, 0, 0x0, 0x0, 0x0, 0x0, 0x0, 0x0, 0x0⟩,
   ⟨Off.MOT_DEV, 0, 1, 0, 1, .axis, 0, 0x0, 0x0, 0x0, 0x0, 0x0, 0x0, 0x0⟩,
   ⟨Off.MOT_AGEAR_NUM, 0, 1, 0, 1, .axis, 0, 0x0, 0x0, 0x0, 0x0, 0x0, 0x0, 0x1⟩,
   ⟨Off.MOT_AGEAR_DEN, 0, 1, 0, 1, .axis, 0, 0x0, 0x0, 0x0, 0x0, 0x0, 0x0, 0x1⟩,
   ⟨Off.MOT_CHATTER, 0, 1, 0, 1, .axis, 0, 0x0, 0x0, 0x0, 0x0, 0xffff, 0x0, 0x0⟩,
   ⟨Off.MOT_CHOP_STAT, 0, 1, 0, 1, .axis, 0, 0x0, 0x0, 0x0, 0x0, 0x0, 0x0, 0x0⟩,
   ⟨Off.MOT_ISENSE, 0, 1, 0, 1, .axis, 0, 0x0, 0x0, 0x0, 0x0, 0x0, 0x0, 0x0⟩] ++
  [⟨Off.MOT_PHASE, 0, 1, 0, 1, .axis, 0, 0x0, 0x0, 0x0, 0x0, 0x0, 0x0, 0x0⟩]

/-- The registers of the AUX block. -/
def auxRegs : List RegDef :=
  [⟨Off.AUX_SCAN_CTL, 0, 1, 0, 1, .none, 0, 0x103, 0x0, 0x0, 0x0, 0x0, 0x80000000, 0x0⟩,
   ⟨Off.AUX_SCAN_MASK, 0, 1, 0, 1, .none, 0, 0xffffffff, 0x0, 0x0, 0x0, 0x0, 0x0, 0x0⟩,
   ⟨Off.AUX_SCAN_PERIOD, 0, 1, 0, 1, .none, 0, 0xffffff, 0x0, 0x0, 0x0, 0x0, 0x0, 0x3e8⟩,
   ⟨Off.AUX_SCAN_STAT, 0, 1, 0, 1, .none, 0, 0x0, 0x0, 0x0, 0x0, 0xffff0000, 0x0, 0x0⟩,
   ⟨Off.AUX_EXC_MIN, 0, 1, 0, 1, .none, 0, 0x1ffff, 0x0, 0x0, 0x0, 0x0, 0x0, 0x2000⟩,
   ⟨Off.AUX_CH, 4, 32, 0, 1, .none, 0, 0x11fff, 0x0, 0x0, 0x0, 0x0, 0x0, 0x10⟩,
   ⟨Off.AUX_EXC_CFG, 16, 8, 0, 1, .none, 0, 0x800003ff, 0x0, 0x0, 0x0, 0x0, 0x0, 0x0⟩,
   ⟨Off.AUX_EXC_HALF, 16, 8, 0, 1, .none, 0, 0xffffffff, 0x0, 0x0, 0x0, 0x0, 0x0, 0x1f4⟩,
   ⟨Off.AUX_EXC_BLANK, 16, 8, 0, 1, .none, 0, 0xffff, 0x0, 0x0, 0x0, 0x0, 0x0, 0x0⟩,
   ⟨Off.AUX_EXC_STAT, 16, 8, 0, 1, .none, 0, 0x0, 0x0, 0x0, 0x0, 0xffff0000, 0x0, 0x0⟩,
   ⟨Off.AUX_INJ_CFG, 16, 4, 0, 1, .none, 0, 0x87ff001f, 0x0, 0x0, 0x0, 0x0, 0x0, 0x0⟩,
   ⟨Off.AUX_INJ_REQ, 16, 4, 0, 1, .none, 0, 0x0, 0x0, 0x0, 0x0, 0xffff, 0x80000000, 0x0⟩,
   ⟨Off.AUX_RES_LO, 8, 32, 0, 1, .none, 1, 0x0, 0x0, 0x0, 0x0, 0x0, 0x0, 0x0⟩,
   ⟨Off.AUX_INJ_RES_LO, 16, 4, 0, 1, .none, 1, 0x0, 0x0, 0x0, 0x0, 0x0, 0x0, 0x0⟩,
   ⟨Off.AUX_RES_HI, 8, 32, 0, 1, .none, 2, 0x0, 0x0, 0x0, 0x0, 0x0, 0x0, 0x0⟩,
   ⟨Off.AUX_INJ_RES_HI, 16, 4, 0, 1, .none, 2, 0x0, 0x0, 0x0, 0x0, 0x0, 0x0, 0x0⟩,
   ⟨Off.AUX_OV, 0, 1, 0, 1, .none, 0, 0x0, 0xffffffff, 0x0, 0x0, 0x0, 0x0, 0x0⟩,
   ⟨Off.AUX_OV_ACT, 0, 1, 0, 1, .none, 0, 0x0, 0x0, 0x0, 0x0, 0x0, 0x0, 0x0⟩,
   ⟨Off.AUX_CAL_CTL, 0, 1, 0, 1, .none, 0, 0xf3f, 0x0, 0x0, 0x0, 0x0, 0xc0000000, 0x400⟩,
   ⟨Off.AUX_CAL_TGT, 0, 1, 0, 1, .none, 0, 0xffffffff, 0x0, 0x0, 0x0, 0x0, 0x0, 0x40000000⟩,
   ⟨Off.AUX_CAL_Z, 0, 1, 0, 1, .none, 0, 0x0, 0x0, 0x0, 0x0, 0x0, 0x0, 0x0⟩,
   ⟨Off.AUX_CAL_STAT, 0, 1, 0, 1, .none, 0, 0x0, 0x0, 0x0, 0x0, 0x0, 0x0, 0x0⟩,
   ⟨Off.AUX_COEF_OFS, 64, 32, 8, 8, .none, 0, 0xffffffff, 0x0, 0x0, 0x0, 0x0, 0x0, 0x0⟩,
   ⟨Off.AUX_COEF_GAIN, 64, 32, 8, 8, .none, 0, 0xffffffff, 0x0, 0x0, 0x0, 0x0, 0x0, 0x40000000⟩]

/-- The registers of the MGT block. -/
def mgtRegs : List RegDef :=
  [⟨Off.MGT_STATUS, 0, 1, 0, 1, .none, 0, 0x0, 0x0, 0x0, 0x0, 0x0, 0x0, 0x0⟩,
   ⟨Off.MGT_FW_VER_A, 0, 1, 0, 1, .none, 0, 0x0, 0x0, 0x0, 0x0, 0x0, 0x0, 0x0⟩,
   ⟨Off.MGT_FW_VER_B, 0, 1, 0, 1, .none, 0, 0x0, 0x0, 0x0, 0x0, 0x0, 0x0, 0x0⟩,
   ⟨Off.MGT_FW_SVN, 0, 1, 0, 1, .none, 0, 0x0, 0x0, 0x0, 0x0, 0x0, 0x0, 0x0⟩,
   ⟨Off.MGT_FAULT, 0, 1, 0, 1, .none, 0, 0x0, 0x0, 0x0, 0x0, 0x83ffffff, 0x0, 0x0⟩,
   ⟨Off.MGT_FAULT_CNT, 0, 1, 0, 1, .none, 0, 0x0, 0x0, 0x0, 0x0, 0xffffffff, 0x0, 0x0⟩,
   ⟨Off.MGT_USTATE, 4, 24, 0, 1, .none, 0, 0x0, 0x0, 0x0, 0x0, 0x0, 0x0, 0x0⟩,
   ⟨Off.MGT_JRNL_SEQ_LO, 0, 1, 0, 1, .none, 1, 0x0, 0x0, 0x0, 0x0, 0x0, 0x0, 0x0⟩,
   ⟨Off.MGT_JRNL_SEQ_HI, 0, 1, 0, 1, .none, 2, 0x0, 0x0, 0x0, 0x0, 0x0, 0x0, 0x0⟩,
   ⟨Off.MGT_JRNL_OLDEST_LO, 0, 1, 0, 1, .none, 1, 0x0, 0x0, 0x0, 0x0, 0x0, 0x0, 0x0⟩,
   ⟨Off.MGT_JRNL_OLDEST_HI, 0, 1, 0, 1, .none, 2, 0x0, 0x0, 0x0, 0x0, 0x0, 0x0, 0x0⟩,
   ⟨Off.MGT_JRNL_STAT, 0, 1, 0, 1, .none, 0, 0x0, 0x0, 0x0, 0x0, 0xfffe0000, 0x0, 0x0⟩,
   ⟨Off.MGT_TEMP, 4, 12, 0, 1, .none, 0, 0x0, 0x0, 0x0, 0x0, 0xffff0000, 0x0, 0x0⟩,
   ⟨Off.MGT_VOLT, 4, 20, 0, 1, .none, 0, 0x0, 0x0, 0x0, 0x0, 0xffff0000, 0x0, 0x0⟩,
   ⟨Off.MGT_TLIM, 4, 12, 0, 1, .none, 0, 0xffffffff, 0x0, 0x0, 0x0, 0x0, 0x0, 0x0⟩,
   ⟨Off.MGT_VLIM, 4, 20, 0, 1, .none, 0, 0xffffffff, 0x0, 0x0, 0x0, 0x0, 0x0, 0x0⟩,
   ⟨Off.MGT_ALARM, 0, 1, 0, 1, .none, 0, 0x0, 0xffffffff, 0x0, 0x0, 0x0, 0x0, 0x0⟩,
   ⟨Off.MGT_MBOX_CTL, 0, 1, 0, 1, .none, 0, 0xf1ff, 0x0, 0x0, 0x0, 0x0, 0x80000000, 0x0⟩,
   ⟨Off.MGT_MBOX_DATA, 4, 64, 0, 1, .none, 0, 0xffffffff, 0x0, 0x0, 0x0, 0x0, 0x0, 0x0⟩,
   ⟨Off.MGT_DBG, 0, 1, 0, 1, .none, 0, 0x0, 0x0, 0x0, 0x0, 0x0, 0x0, 0x0⟩,
   ⟨Off.MGT_DBG_NONCE, 4, 4, 0, 1, .none, 0, 0x0, 0x0, 0x0, 0x0, 0x0, 0x0, 0x0⟩]

/-- The registers of the CLK block. -/
def clkRegs : List RegDef :=
  [⟨Off.CLK_REF_CTL, 0, 1, 0, 1, .none, 0, 0x3, 0x0, 0x0, 0x0, 0x0, 0x0, 0x2⟩,
   ⟨Off.CLK_REF_STAT, 0, 1, 0, 1, .none, 0, 0x0, 0x0, 0x0, 0x0, 0x0, 0x0, 0x0⟩,
   ⟨Off.CLK_DOM_OK, 0, 1, 0, 1, .none, 0, 0x0, 0x0, 0x0, 0x0, 0x0, 0x0, 0x0⟩,
   ⟨Off.CLK_DOM_FAULT, 0, 1, 0, 1, .none, 0, 0x0, 0x1ffffff, 0x0, 0x0, 0x0, 0x0, 0x0⟩,
   ⟨Off.CLK_DOM_FREQ, 4, 25, 0, 1, .none, 0, 0x0, 0x0, 0x0, 0x0, 0x0, 0x0, 0x0⟩,
   ⟨Off.CLK_PPLL_FREQ, 16, 16, 0, 1, .none, 0, 0xffffffff, 0x0, 0x0, 0x0, 0x0, 0x0, 0x10000000⟩,
   ⟨Off.CLK_PPLL_STAT, 16, 16, 0, 1, .none, 0, 0x0, 0x0, 0x0, 0x0, 0x0, 0x0, 0x0⟩,
   ⟨Off.CLK_BANK, 4, 24, 0, 1, .none, 0, 0x13, 0x0, 0x0, 0x0, 0x0, 0x0, 0x1⟩,
   ⟨Off.CLK_GPIO_OUT, 0, 1, 0, 1, .none, 0, 0xffff, 0x0, 0x0, 0x0, 0x0, 0x0, 0x0⟩,
   ⟨Off.CLK_GPIO_OE, 0, 1, 0, 1, .none, 0, 0xffff, 0x0, 0x0, 0x0, 0x0, 0x0, 0x0⟩,
   ⟨Off.CLK_GPIO_IN, 0, 1, 0, 1, .none, 0, 0x0, 0x0, 0x0, 0x0, 0x0, 0x0, 0x0⟩]

/-- The registers of the ENG block. -/
def engRegs : List RegDef :=
  [⟨Off.ENG_STATUS, 0, 1, 0, 1, .engine, 0, 0x0, 0x10000, 0x0, 0x0, 0x0, 0x0, 0x0⟩,
   ⟨Off.ENG_PC, 0, 1, 0, 1, .engine, 0, 0x0, 0x0, 0x0, 0x0, 0x0, 0x0, 0x0⟩,
   ⟨Off.ENG_TRAP, 0, 1, 0, 1, .engine, 0, 0x0, 0x80000000, 0x0, 0x0, 0x0, 0x0, 0x0⟩,
   ⟨Off.ENG_TRAP_ARG, 0, 1, 0, 1, .engine, 0, 0x0, 0x0, 0x0, 0x0, 0x0, 0x0, 0x0⟩,
   ⟨Off.ENG_CYC_LAST, 0, 1, 0, 1, .engine, 0, 0x0, 0x0, 0x0, 0x0, 0x0, 0x0, 0x0⟩,
   ⟨Off.ENG_CYC_MAX, 0, 1, 0, 1, .engine, 0, 0x0, 0xffffffff, 0x0, 0x0, 0x0, 0x0, 0x0⟩,
   ⟨Off.ENG_DECLARED, 0, 1, 0, 1, .engine, 0, 0x0, 0x0, 0x0, 0x0, 0x0, 0x0, 0x0⟩,
   ⟨Off.ENG_AVAIL, 0, 1, 0, 1, .engine, 0, 0x0, 0x0, 0x0, 0x0, 0x0, 0x0, 0x0⟩,
   ⟨Off.ENG_SLOT, 4, 8, 0, 1, .engine, 0, 0x0, 0x0, 0x0, 0x0, 0x0, 0x0, 0x0⟩,
   ⟨Off.ENG_TOOL, 4, 8, 0, 1, .engine, 0, 0x0, 0x0, 0x0, 0x0, 0x0, 0x0, 0x0⟩]

/-- Whether the row names the register at offset `off`. -/
def RegDef.covers (r : RegDef) (off : Nat) : Bool :=
  r.base ≤ off &&
    (let d := off - r.base
     let i := if r.s1 = 0 then 0 else d / r.s1
     let e := if r.s1 = 0 then d else d % r.s1
     let j := if r.s2 = 0 then 0 else e / r.s2
     let f := if r.s2 = 0 then e else e % r.s2
     f = 0 && i < r.n1 && j < r.n2)

/-- The row number b of the block that holds an offset (R422, Table 17.2); none for a reserved offset. -/
def blockRow (off : Nat) : Option Nat :=
  if off < 0x10000 then some 0 else if off < 0x20000 then some 1 else if off < 0x40000 then some 2
  else if off < 0x80000 then some 3 else if off < 0xA0000 then some 4 else if off < 0xC0000 then some 5
  else if off < 0xE0000 then some 6 else if off < 0x100000 then some 7 else if off < 0x120000 then some 8
  else if off < 0x140000 then some 9 else if off < 0x160000 then some 10 else if off < 0x170000 then some 11
  else if off < 0x200000 then none else if off < 0x400000 then some 12 else if off < 0x800000 then some 13
  else none

/-- The registers of block row `b`. -/
def blockRegs (b : Nat) : List RegDef :=
  match b with
  | 0 => hifRegs | 1 => selRegs | 2 => evtRegs | 3 => dmaRegs | 4 => prtRegs | 5 => pipRegs | 6 => cmpRegs
  | 7 => tksRegs | 8 => motRegs | 9 => auxRegs | 10 => mgtRegs | 11 => clkRegs | 12 => engRegs | _ => []

/-- The register at an offset; none where the offset is reserved (R8, R422). -/
def regDef (off : Nat) : Option RegDef :=
  match blockRow off with
  | none => none
  | some b => (blockRegs b).find? (fun r => r.covers off)

/-- A register's value after power-on (the Reset column). EVQ_VEC resets to its queue number; a field shown HW
resets to 0 here and is set by what gives its source (log entries 10 and 11). -/
def resetVal (off : Nat) : Word :=
  match regDef off with
  | none => 0
  | some r => if r.base = Off.EVQ_VEC then BitVec.ofNat 32 ((off - Off.EVQ_VEC) / 0x40) else r.reset

end Sys2Proof.Machine
end

