-- ==== Sys2Proof/Machine/State.lean ====
section
/-! DEFINITION. The state of the ZL9640 as plain data: every register, memory, buffer, counter, mode and pin that the
spec gives it, the queue of commands that wait, and the ways a step can stop. -/

namespace Sys2Proof.Machine

/-- The contents of one register: `val` is what a read returns (the value last written where the field is RW, STG or
CUT), `force` the value in force, and three masks of bits: `stg` written and not yet committed, `cmt` committed and
waiting for the unit's line tick with the value `cmtVal`, `cut` written and waiting for a cut (R5, R6, R427). -/
structure RegCell where
  val : Word
  force : Word
  stg : Word
  cmt : Word
  cmtVal : Word
  cut : Word
  deriving DecidableEq, Repr

/-- The state of an access context (R38, R424): its selections, snapshot and holding register (R41 to R43), its rights
(R44), HIF_DENIED, and its admin rings (R47 to R53). `bells` holds the doorbells with commands that have not begun, oldest
first: their place among all contexts' doorbells, and how many commands are left of each (R50). -/
structure Ctx where
  selPort : Word
  selAxis : Word
  selChan : Word
  selEngine : Word
  selTable : Word
  snapLo : Word
  snapHi : Word
  snapTag : Option Nat
  holdVal : Word
  holdTag : Option Nat
  rightsBlk : Word
  rightsPort : Word
  rightsAxis : Word
  denied : Option Nat
  zhp : Nat
  enable : Bool
  err : Nat
  bells : List (Nat × Nat)
  sqTail : Nat
  sqHead : Nat
  cqHead : Nat
  cqNext : Nat
  phase : Bool
  deriving DecidableEq, Repr

/-- What the ZL9640 puts on the host link, in order: a memory write (with or without Relaxed Ordering), a memory read and
whether it carries No Snoop (R56), the zero-length read that flushes earlier writes (R58, R231), an MSI-X message: the data of
the vector's table entry written to its address (R369). -/
inductive BusOp where
  | memWrite (addr : Nat) (data : List Byte) (relaxed : Bool)
  | memRead (addr len : Nat) (noSnoop : Bool)
  | flushRead
  | msix (vector addr data : Nat)
  deriving DecidableEq, Repr

/-- A journal entry (Table 15.6), without the CRC, which its bytes give. -/
structure JEntry where
  seq : Nat
  time : Nat
  kind : Nat
  origin : Nat
  source : Nat
  status : Nat
  cmd : Nat
  code : Nat
  target : Nat
  offset : Nat
  old : Nat
  new : Nat
  count : Nat
  deriving DecidableEq, Repr

/-- The pending state of an event source (R358): the arguments, words and time of the first raising, and the count. -/
structure Pend where
  arg0 : Nat
  arg1 : Option Nat
  time : Nat
  count : Nat
  deriving DecidableEq, Repr

/-- An event queue (R362 to R369): the words in the chain, head first, the words still to come of a packet that the router has begun, the
word counter kept beside them (R366), the discard state and whether the packet that it discards counts in FLUSHED (R365), whether QUEUE_INTEGRITY
is the next packet of a queue that was reset (R366), and the host ring: head, tail, phase, and the tail index that each whole packet in the ring ends at. -/
structure EvQueue where
  words : List DWord
  flight : List DWord
  counter : Nat
  discard : Bool
  tally : Bool
  owes : Bool
  badBase : Bool
  ringHead : Nat
  ringTail : Nat
  ringPhase : Bool
  ringEnds : List Nat
  deriving DecidableEq, Repr

/-- The state of a unit (Table 15.1). -/
inductive UState where
  | off | loaded | armed | running | draining | halted | faulted | wedged
  deriving DecidableEq, Repr

/-- The program of one engine in a setup slot (R84, R87, R93): its region, entry, declared worst case and jump table. -/
structure Prog where
  base : Nat
  len : Nat
  entry : Nat
  declared : Nat
  jump : List Nat
  version : Nat
  deriving DecidableEq, Repr

/-- A setup slot (R87, R92): `prog0` is the gate program of a port or the program of an axis, `prog1` the pipe program
of a port. -/
structure Slot where
  isLoaded : Bool
  isVerified : Bool
  tool : Word
  build : Word
  prog0 : Prog
  prog1 : Prog
  settings : List (Nat × Word)
  deriving DecidableEq, Repr

/-- A cut that waits for a member (R26, R27): the slot the member takes, the trigger, and whether the trigger has been
reached. -/
structure CutDue where
  group : Nat
  kind : Nat
  ref : Nat
  value : Int
  slot : Nat
  reached : Bool
  deriving DecidableEq, Repr

/-- Management's shadow of a unit (R378). -/
structure Shadow where
  st : UState
  current : Option Nat
  committed : Option Nat
  armed : Bool
  deriving DecidableEq, Repr

/-- A port or an axis as a unit (R374 to R376): its state, the state before its first fault and the one before the detection of the present
fault, whether it has run, its current and committed setups, its cut group and the cut that waits for it, the CUT values that come into
force at its first tick (R7: register offset, value, and the bits of it that a register write had staged), a stop due at the next tick,
its faults, its eight setup slots, and management's shadow. -/
structure UnitSt where
  st : UState
  prior : UState
  back : UState
  ran : Bool
  current : Option Nat
  committed : Option Nat
  group : Option Nat
  cut : Option CutDue
  due : List (Nat × Word × Word)
  haltNext : Bool
  hwFaults : Nat
  faultTimes : List Nat
  slots : Vector Slot 8
  shadow : Shadow
  deriving DecidableEq, Repr

/-- A fault that waits for its classification or is being classified (R379): target kind and number of the unit, the
code of Table 15.4, two arguments (input and slice, lane and block, engine and trap code), and code and argument of the earlier faults
whose classification it has joined (R381). -/
structure FaultRec where
  kind : Nat
  unit : Nat
  code : Nat
  arg : Nat
  arg2 : Nat
  time : Nat
  joined : List (Nat × Nat) := []
  deriving DecidableEq, Repr

/-- What an engine does: ENG_STATUS.STATE. -/
inductive EngRun where
  | idle | running | waiting | trapped | halted
  deriving DecidableEq, Repr

/-- A ZSC engine (R61, R62): registers, loop counters, flags, link stack and pc; its memories (R84); the setup whose
program it runs and, for a pipe engine, whether that is the old one (R82); the tick it works on (R73); its trap and
cycle registers. `param` is keyed by 4096 * slot + word, `imem` by instruction, `scratch` by word. -/
structure Eng where
  g : Vector Word 16
  lc : Vector (BitVec 16) 4
  z : Bool
  n : Bool
  c : Bool
  v : Bool
  link : List Nat
  pc : Nat
  run : EngRun
  setup : Nat
  old : Bool
  line : Nat
  time : Nat
  pos : Int
  cutFlag : Bool
  cyc : Nat
  cycLast : Nat
  cycMax : Nat
  excess : Bool
  trapped : Option (Nat × Nat)
  trapArg : Word
  imem : List (Nat × DWord)
  param : List (Nat × Word)
  scratch : List (Nat × Word)
  deriving DecidableEq, Repr

/-- A cut group (R25, R26, R30): the armed cut's trigger if one is armed, the web mode in force and staged, the members
that a fired cut has not switched yet, for each fired cut that is not complete, oldest first, the member ports whose first new line has not begun its
process stage, and the cuts completed
since power-on (WAIT kind 2, R251). -/
structure Group where
  armed : Option (Nat × Nat × Int)
  drive : Bool
  driveNext : Option Bool
  left : List Nat
  starting : List (List Nat)
  done : Nat
  deriving DecidableEq, Repr

/-- A firmware image slot of the flash (R389, R390), by what its header and checks give: `verified` says that it passed the checks when it
was staged, of which those of the key's revocation and of the SVN can fail later. -/
structure Image where
  component : Nat
  version : Nat
  svn : Nat
  flags : Nat
  key : Nat
  verified : Bool
  deriving DecidableEq, Repr

/-- The management subsystem (R372 to R396): whether it serves admin rings, the busy flag of HIF_GSTATUS, whether firmware or a boot loader
waits for its activation or the next power-on (R393), the endpoint IDs on SMBus and PCI Express VDM (R394), the
firmware slots, what is being staged or activated, the shadows and faults, the journal memory and NOR ring, the
configuration store, the mailbox (BUSY, and the context, OP and LEN of its request) and debug, a restart in progress, and the MCTP responses sent (bus, bytes), newest
first. `staging` is the image being staged and whether its hash, key and signature verify, `stagingPldm` whether PLDM brings it. -/
structure Mgt where
  up : Bool
  resetBusy : Bool
  fwPending : Bool
  blPending : Bool
  eids : Vector Nat 2
  restarts : Nat
  paused : Bool
  staging : Option (Image × Bool)
  stagingPldm : Bool
  activating : Option Nat
  blSlot : Nat
  fwSlot : Nat
  fwA : Image
  fwB : Image
  blA : Image
  blB : Image
  svnMin : Nat
  revoked : Nat
  serial : Nat
  cfg : List Byte
  cfgNext : List Byte
  mboxBusy : Bool
  mboxCtx : Nat
  mboxOp : Nat
  mboxLen : Nat
  dbgTries : Nat
  dbgEnabled : Bool
  restarting : Bool
  mctpOut : List (Nat × List Byte)
  deriving DecidableEq, Repr

/-- The change journal (R384 to R386): the next sequence number, the entries not yet drained (oldest first), the NOR
ring (oldest first) and its capacity, the entries not kept since the last room, the overflow count since its last
read, and of the entries not kept those of memory writes, whose 1 ms may still run (R384). -/
structure Journal where
  next : Nat
  mem : List JEntry
  ring : List JEntry
  ringCap : Nat
  lost : Nat
  overflow : Nat
  lostMem : List JEntry
  deriving DecidableEq, Repr

/-- Configuration space as the host has set it (R34, R37): the bases of BAR0 and BAR4, the codes of Max_Payload_Size and
Max_Read_Request_Size, the enable of the PTM capability, the Enable and the Function Mask of MSI-X and the address and data of its table
entries, the AER error status and the first error with the header of its packet. -/
structure PciSt where
  bar0 : Nat
  bar4 : Nat
  mps : Nat
  mrrs : Nat
  ptmEn : Bool
  msixEn : Bool
  msixMask : Bool
  msixTbl : List (Nat × (Nat × Nat))
  aerStatus : Nat
  aerFirst : Option (Nat × List Byte)
  deriving DecidableEq, Repr

/-- The host link and device time (R35, R36, R60): D3hot, PERST_L, the width that carries data and the trained width, the rate (HIF_LINK.RATE code), Flit mode
and L0p, whether configuration requests are answered (R410), PTM's counts, the key set and state of the link IDE stream (R34), and configuration space. -/
structure LinkSt where
  d3hot : Bool
  perst : Bool
  up : Bool
  width : Nat
  trained : Nat
  rate : Nat
  flit : Bool
  l0p : Bool
  cfgReady : Bool
  ptmGood : Nat
  ptmBad : Nat
  ptmStepped : Bool
  ptmLocked : Bool
  ptmActive : Bool
  ptmOffset : Int
  ideKeys : List (Nat × List Byte)
  ideOn : Bool
  heldMsgs : List Nat
  pci : PciSt
  deriving DecidableEq, Repr

/-- Sums over the samples of each slot of a tap, slot by slot (R143, R145): the samples, sum of y, sum of |y - 8192|, and
for the background correction the sum of squared differences and its terms. -/
structure SlotSums where
  n : List Nat
  s : List Nat
  a : List Nat
  q : List Nat
  c : List Nat
  deriving DecidableEq, Repr

/-- A tap converter (R132 to R147): the slice in each slot, the out-of-service slice and whether it has completed its
calibration, the retired slices (a mask), the active slice among them that the next line tick replaces (R144), each slice's coefficients (offset, gain, skew), those of its last completed calibration, and completed calibrations,
whether a swap is due, whether CAL_NOW asked for it, the rotation period in force (us), whether it has lost a second slice, whether
background correction has converged, the stamps taken in this line (newest first), the last corrected sample and the
window it came from, the watch's block length and sums, the background sums, and coefficients (slice, offset, gain, skew)
that the next line tick puts in force. -/
structure ConvSt where
  slots : List Nat
  out : Option Nat
  ready : Bool
  retired : Nat
  repl : Option Nat
  coef : List (Int × Nat × Int)
  lastCal : List (Int × Nat × Int)
  cals : List Nat
  due : Bool
  calNow : Bool
  period : Nat
  lost : Bool
  bgConv : Bool
  stamps : List Nat
  prev : Option (Nat × Nat)
  watchLog : Nat
  watch : SlotSums
  bg : SlotSums
  bgNext : List (Nat × Int × Nat × Int)
  deriving DecidableEq, Repr

/-- What flows from one primitive of a pass to the next (R150, R154): the samples, or none after a BIN that passes none on;
the geometry; the largest count and the latencies so far (R152); the pixels that SHADE substituted; SHADE's values
before the drift factor (R157). -/
structure Stream where
  xs : Option (List Nat)
  p : Nat
  np : Nat
  layout : Nat
  nmax : Nat
  lat : Nat
  bad : List Nat
  u : List Int
  deriving DecidableEq, Repr

/-- A payload area of a line's line buffer (R183, R207): its bytes, geometry, layout, coding and bad blocks. -/
structure Area where
  bytes : List Byte
  p : Nat
  np : Nat
  layout : Nat
  coding : Nat
  bad : Nat
  deriving DecidableEq, Repr

/-- A record that an EMIT has queued: its slot, and the DEST byte (R216). -/
structure Emission where
  rec_ : Rec
  slot : Nat
  dest : Nat
  deriving DecidableEq, Repr

/-- An accumulator of BIN (R161): its sums and its line count. -/
structure AccSt where
  a : List Nat
  cnt : Nat
  deriving DecidableEq, Repr

/-- A calibration capture that runs (R174, R179): target 0 black, 1 white; the lines it takes and has taken; the first line
it may take, none while it waits in a gap window; whether the axis has come into position since; the geometry of the line last
taken. -/
structure CapSt where
  target : Nat
  len : Nat
  taken : Nat
  fromLine : Option Nat
  inpos : Bool
  geo : Nat × Nat
  deriving DecidableEq, Repr

/-- A PACK or CODE that stalls before its next unit or block (R201): its opcode and fields, whether the lanes differ, the bytes that
it has still to write into the staging, and the blocks whose written bytes are not what the coder should write (twin, block, bytes). -/
structure StallSt where
  left : Nat
  op : Nat
  f : ZscFields
  differ : Bool
  wrote : List (Bool × Nat × List Byte)
  deriving DecidableEq, Repr

/-- A port's pixel pipeline (Table 6.1, R149 to R203): work lines, accumulators, references with their geometry, the
stream and whether a pass is being skipped, payload areas and record slots of the line in process, what PRD tells of the
tick, drift ratios, counts and factors (in force and for the next line), the last line each EMIT block queued, INJECT, a
stalled PACK or CODE, the stall cycles of the line, the bytes in the output staging (R201), the banks in force (logical), flips
that the next process stage makes (with the failing bank), the logical lane that the spare takes then (R165), the capture, CAL_COMPUTE's bank, the verifies that run (whether each bank was written
since), the tables that made the port DEGRADED (bit 0 shading, bit 1 defect map), the sums that this tick added to the capture, the entries that SHADE substituted on this line (R172), those that SHADE_SUBST has
been raised for (table, entry), the rows remapped (R171: table, physical bank, failing entry) with their entries written since, whether
lanes differ on this line (R165, R199), and its blocks that failed verify and wait to be reported (area, block, position, injected). -/
structure PipeSt where
  wl : Vector (List Nat) 4
  accs : Vector AccSt 2
  refs : Vector (List Nat) 2
  refGeo : Vector (Nat × Nat) 2
  stream : Option Stream
  skip : Bool
  areas : Vector (Option Area) 4
  slots : Vector (Option Rec) 4
  queued : List Emission
  groupDone : Bool
  calDone : Bool
  subst : Nat
  unrep : Nat
  discard : Nat
  unfilled : Nat
  dAcc : List Nat
  dValid : List Nat
  q : List Int
  qNext : List Int
  lastEmit : List (Nat × Nat)
  inject : Bool
  stall : Option StallSt
  stallCyc : Nat
  staged : Nat
  shadeBank : Nat
  defBank : Nat
  flipS : Option Nat
  flipD : Option Nat
  unflipS : Bool
  unflipD : Bool
  laneNext : Option (Nat × Nat)
  cap : Option CapSt
  compute : Option Nat
  verS : Option (Bool × Bool)
  verD : Option (Bool × Bool)
  degraded : Nat
  shaded : Bool
  calAdd : List Nat
  shadeBad : List Nat
  substed : List (Nat × Nat)
  remaps : List (Nat × Nat × Nat)
  rewritten : List (Nat × Nat × Nat)
  mismatch : Bool
  fails : List (Nat × Nat × Nat × Bool)
  deriving DecidableEq, Repr

/-- An entry of a port's edge queue (Table 4.5): 0 EDGE, 1 BURST, 2 SAMPLE, 3 CLAMP, 4 STROBE; its destination pin or
strobe, tap mask, start and end stamps, level or active level, period, high time, count and sub-line. -/
structure EdgeEntry where
  kind : Nat
  dest : Nat
  mask : Nat
  start : Nat
  stop : Nat
  level : Bool
  period : Nat
  high : Nat
  count : Nat
  sub : Nat
  deriving DecidableEq, Repr

/-- The gate side of a port (R106 to R118): the entries that wait, the entries that run on their destinations, the spans
issued in this line by tap, the samples counted in it, and the outputs: the level each timing pin holds but for a BURST
that runs, the strobes, the sub-line whose code each LREF output shows, and whether the LREF outputs are on. -/
structure GateSt where
  queue : List EdgeEntry
  active : List EdgeEntry
  spans : List (Nat × Nat × Nat)
  samples : Nat
  pins : Vector Bool 12
  strobes : Vector Bool 2
  lrefSub : Vector Nat 2
  lrefOn : Bool
  deriving DecidableEq, Repr

/-- The head descriptor side of a port (R98 to R105): polls missed, presence, the time of an insertion whose descriptor
read has not started, a read that runs, the descriptor as read, a removal that waits for the port's next tick, and
whether the port's bank is powered. -/
structure HeadSt where
  missed : Nat
  present : Bool
  insertAt : Option Nat
  reading : Bool
  desc : List Byte
  gone : Bool
  bankOk : Bool
  bankSeen : Bool
  deriving DecidableEq, Repr

/-- Lines of a port that were ticked on one grid (R276, R288): the first and the last, and the grid's anchor and ratio. -/
structure Grid where
  first : Nat
  last : Nat
  sA : Int
  kA : Int
  rA : Int
  num : Int
  den : Int
  deriving DecidableEq, Repr

/-- The gear unit and the LTG of a port (R288 to R301): the anchor, the earlier grids since the start and the first line of the present one, the ratio in force, the time of the start, the
high-water, the times of the last line tick and drain tick, the drain ticks since the last line tick, whether a line
tick has been issued since the start, the highest position reached while a tick is held after a drain tick, the line number of the last tick, host ticks, line
ticks since power-on (WAIT kind 1), whether LTG_BEHIND has been raised since BEHIND was last 0, whether a ratio change is armed,
and what the gear latch holds of a selected raw edge (R301): its level, the source count, the line position and its fraction. -/
structure LtgSt where
  sA : Int
  kA : Int
  rA : Int
  num : Int
  den : Int
  past : List Grid
  gridFrom : Nat
  t0 : Nat
  h : Int
  tLine : Nat
  tDrain : Nat
  drains : Nat
  ticked : Bool
  held : Option Int
  lastLine : Nat
  hostTicks : Nat
  ticks : Nat
  behind : Bool
  armed : Bool
  latchRaw : Option (Bool × Int × Int × Nat)
  deriving DecidableEq, Repr

/-- A gap window (R178): its first line, the lines it lasts, the traverse axis, and whether it is active. -/
structure GapSt where
  first : Nat
  count : Nat
  axis : Nat
  active : Bool
  deriving DecidableEq, Repr

/-- What a port keeps for stops and restarts (R305 to R311): whether it started while its pacing unit was not IDLE (its
first restart gives no measurement), the line of the last stop, the last position of the overlap while one is being scanned and
its lines K, whether the next new line carries SPLICE, whether lines carry LEADER, whether a measurement is spoilt, the profiles kept (line, bins), newest first, those of the overlap lines, and
the seam to be carried by the first new line with CONT_VALID. -/
structure SpliceSt where
  late : Bool
  last : Int
  overlapTo : Option Int
  overlapK : Nat
  spliceDue : Bool
  leader : Bool
  spoilt : Bool
  kept : List (Nat × List Nat)
  again : List (Nat × List Nat)
  seam : Option Nat
  deriving DecidableEq, Repr

/-- A line in one of the three stages (R13): its number, the device time and source count of its tick, the setup slot it
belongs to, its gate (R117), whether it has been dropped (R16), its flags, the range code byte (R127), the cuts taken since UNIT_START, whether it lies in a gap window, whether its process
stage has begun, the samples of each
tap, newest first, and its place in the order of capture, counted in line ticks of the port. -/
structure LineRec where
  n : Nat
  time : Nat
  pos : Int
  slot : Nat
  gateStart : Nat
  gateEnd : Nat
  dropped : Bool
  cutFlag : Bool
  overlap : Bool
  splice : Bool
  leader : Bool
  range : Nat
  cuts : Nat
  gap : Bool
  begun : Bool
  samples : List (Nat × List Nat)
  ord : Nat
  deriving DecidableEq, Repr

/-- A descriptor that has been read (R225): its index, address, length and control. -/
structure Desc where
  idx : Nat
  addr : Nat
  len : Nat
  ctl : Nat
  deriving DecidableEq, Repr

/-- The descriptor in use: the bytes written, the records that start in it, its first line, START and CONT, and the time its
first record ended (R228, R230). -/
structure CurDesc where
  d : Desc
  written : Nat
  records : Nat
  firstLine : Nat
  start : Bool
  cont : Bool
  since : Option Nat
  deriving DecidableEq, Repr

/-- A hand-back to be made (R230): the descriptor, its status without FLUSHED, bytes written, first line and control. -/
structure HandBack where
  idx : Nat
  status : Nat
  written : Nat
  firstLine : Nat
  ctl : Nat
  deriving DecidableEq, Repr

/-- A step of a channel that waits in order (R231, R232): whether a barrier must come first, the hand-back, the events, the
cause if it closes the channel, and whether it ends the count by the time limit (R233). -/
structure Held where
  bar : Bool
  hb : Option HandBack
  events : List (Nat × List (Nat × Nat))
  fin : Option (Nat × Nat)
  timed : Bool := false
  deriving DecidableEq, Repr

/-- A data channel (R222 to R237): the state (0 closed, 1 open, 2 draining, 3 halting), the opener's context, ring base and
k, format, PACK and HOLD as read at CHAN_OPEN, head (next to hand back), tail, the index of the next descriptor to read,
those read ahead, the failed attempts of the read in flight, whether reading waits for a tail write (OWN = 0), the
descriptor in use, DROP for the next status, the end of count (hand-backs, time of the first, COUNT as taken up, the last
hand-back), whether buffer writes have been made since the last barrier, the line after the last one of a drain, the lost lines counted
at the last record, the records dropped since, whether no record has been delivered yet, a barrier in flight, the
steps that wait, and the bits in which management's shadow of the state differs from it (R378). -/
structure ChanSt where
  st : Nat
  ctx : Nat
  base : Nat
  k : Nat
  format : Nat
  pack : Bool
  hold : Nat
  head : Nat
  tail : Nat
  fetch : Nat
  descs : List Desc
  tries : Nat
  stalled : Bool
  cur : Option CurDesc
  drop : Bool
  eocCount : Nat
  eocFirst : Option Nat
  eocAt : Nat
  lastHb : Nat × Nat
  dirty : Bool
  lastLine : Nat
  lostAt : Nat
  dropped : Nat
  fresh : Bool
  barrier : Bool
  held : List Held
  skew : Nat
  deriving DecidableEq, Repr

/-- The state of a script channel (DMA_SC_STATE.STATE). -/
inductive ScState where
  | idle | running | waiting | halted | faulted | wedged
  deriving DecidableEq, Repr

/-- What a script waits for (R251): the kind, the selector, the count of the awaited thing when the WAIT began, the time then, and
the time of the timeout. -/
structure WaitSt where
  kind : Nat
  sel : Nat
  since : Nat
  start : Nat
  until_ : Option Nat
  deriving DecidableEq, Repr

/-- A transfer in progress (R247 to R250): the spaces, the index table still to be read with the mode (R249; the moves then hold the
two bases), the moves that remain (source, destination, bytes), whether bytes are copied in descending order, the bytes written with their lowest and highest address (R384), the attempts of the access in
flight, the instruction's cycles. -/
structure XferSt where
  srcSp : Nat
  dstSp : Nat
  table : Option (Nat × Nat)
  moves : List (Nat × Nat × Nat)
  descending : Bool
  written : Nat
  span : Option (Nat × Nat)
  tries : Nat
  cost : Nat
  deriving DecidableEq, Repr

/-- A script channel (R239 to R257), beside its engine: what START latched, the fetched instruction, the WAIT and the
transfer in progress, the attempts of the fetch in flight, an abort that waits for the access boundary, the bytes this
script has written, and the bits in which management's shadow of the state differs from it (R378). -/
structure ScriptSt where
  st : ScState
  cause : Nat
  ctx : Nat
  code : Nat
  retry : Nat
  base : Nat
  len : Nat
  fetched : Option DWord
  wait : Option WaitSt
  xfer : Option XferSt
  tries : Nat
  aborting : Bool
  moved : Nat
  skew : Nat
  deriving DecidableEq, Repr

/-- The move that a profile generator makes (R318): a stop, or rest at the end of one (with SDEC or DEC), a position
move, a velocity move in a direction. -/
inductive AxMove where
  | stop (sdec : Bool)
  | position
  | velocity (dir : Int)
  deriving DecidableEq, Repr

/-- A command that an axis engine has issued and that takes effect at the next motion tick (R314): PSET, MOVE (absolute
or relative), JOG, STOP, HOME with its block, GEAR, DRIVE, SETPOS, a SETPOS that was not accepted, LATCH, MSWAP. -/
inductive AxCmd where
  | pset (par : Nat) (v : Nat)
  | move (rel : Bool) (x : Int)
  | jog (v : Int)
  | stop (sdec : Bool)
  | home (block : List Byte)
  | gear (engage : Bool) (master : Nat) (num den : Int)
  | drive (on : Bool)
  | setpos (pos : Int) (homed : Bool)
  | noSetpos
  | latch (input edge : Nat)
  | mswap
  deriving DecidableEq, Repr

/-- A switch input (R333): its raw level after INV, the qualified state, the samples in a row that differ from it, and
the time, commanded position and encoder count of the last raw edge. -/
structure SwSt where
  raw : Bool
  qual : Bool
  run : Nat
  edgeTime : Nat
  edgePos : Int
  edgeEnc : Int
  deriving DecidableEq, Repr

/-- A chopper channel (R326, R327): DRIVE or DECAY, the time of the last change, the threshold offset o, the sign of its
target current, the last ADC code, the time at which the present DRIVE or that before the present DECAY began, and a chopper cycle that
has ended and not adapted: the start of its DRIVE, its change to DECAY, the change to DRIVE that ended it, and its sign. -/
structure Winding where
  drive : Bool
  since : Nat
  o : Int
  sigma : Int
  code : Nat
  driveAt : Nat
  ended : Option (Nat × Nat × Nat × Int)
  deriving DecidableEq, Repr

/-- A homing in progress (R335, R336): its block, the stage (0 search, 1 turning round, 2 coming to rest after the edge,
3 return, 4 coming to rest after an end), whether the search has reversed, the direction, the latched position, the
lockout ticks that remain, the edges in it, and the result it ends with. -/
structure HomeSt where
  block : List Byte
  stage : Nat
  reversed : Bool
  dir : Int
  pl : Int
  lock : Nat
  edges : Nat
  result : Nat
  deriving DecidableEq, Repr

/-- An axis (R313 to R338): the trapezoid stage (position in units of 2^-32 microstep, speed, direction, phase, move,
target, speed limit of the move), the parameters (JERK and SHAPE as set and, jerkF and shapeF, in force) with a deferred DEC, the length m of the average and the last
positions, the commanded position and that of the tick before, the gear unit (anchor, base, contribution, ratio, per-tick velocity, output at
the last tick), phase and enable, the reference pair, the
encoder and its inputs, the latch with a capture that waits for its switch filter, an index edge since the last tick, switches, stall count, standstill, windings, table swap, homing, the commands of the
engine, a stop that holds (R315 source 3), and the last INPOS and STEPLIM. -/
structure AxisSt where
  p : Int
  v : Nat
  s : Int
  decel : Bool
  move : AxMove
  target : Int
  vmaxMove : Option Nat
  vmax : Nat
  acc : Nat
  dec : Nat
  sdec : Nat
  jerk : Nat
  shape : Nat
  jerkF : Nat
  shapeF : Nat
  irun : Nat
  ihold : Nat
  decNext : Option Nat
  m : Nat
  hist : List Int
  pos : Int
  prevPos : Int
  geared : Bool
  gMaster : Nat
  gAnchor : Int
  gLine : Int
  gRem : Int
  gBase : Int
  gC : Int
  gNum : Int
  gDen : Int
  gVel : Int
  gOut : Int
  phi : Nat
  enabled : Bool
  homed : Bool
  p0 : Int
  e0 : Int
  enc : Int
  encA : Bool
  encB : Bool
  encZ : Bool
  latchArm : Option (Nat × Nat)
  latchCap : Option (Bool × Int × Int)
  zEdge : Option (Bool × Int × Int)
  sw : Vector SwSt 4
  stall : Nat
  lastChange : Nat
  holdCur : Bool
  wind : Vector Winding 2
  tblPend : Bool
  home : Option HomeSt
  cmds : List AxCmd
  held : Option Bool
  inpos : Bool
  stepLim : Bool
  deriving DecidableEq, Repr

/-- The pacing unit of a cut group (R303 to R311): the state of Table 11.2, the forward direction of the pacing axis, the
reference port's line at the stop target, that port as the stop was planned, and whether a cause arose while it backed. -/
structure PaceSt where
  st : Nat
  dir : Int
  line : Int
  ref : Option PortId
  spoiled : Bool
  deriving DecidableEq, Repr

/-- What the axes share: the motion ticks since power-on (R19) and the time of the last, whether STOP_IN_L
counts as active, its pin being low and the low samples in a row (R338), the inputs of the master encoders (R302), and the pacing units. -/
structure MotSt where
  ticks : Nat
  tickTime : Nat
  stopOn : Bool
  stopLow : Bool
  stopRun : Nat
  mA : Vector Bool 2
  mB : Vector Bool 2
  mZ : Vector Bool 2
  paces : Vector PaceSt 4
  deriving DecidableEq, Repr

/-- A command of Table 10.1 that the take store has put to a drive: Identify (CNS), Set Features (I/O queue pairs, arbitration burst,
volatile write cache), creation and deletion of an I/O queue pair (number, entries), a log page (SMART / Health, or Error Information),
Abort, Write (I/O queue, byte offset, data), Read on I/O queue 3 (byte offset, length), Flush, and a deallocation of slots (first, count). -/
inductive NvmeOp where
  | identify (cns : Nat)
  | setQueues (pairs : Nat)
  | setArbitration (burst : Nat)
  | setWriteCache (on : Bool)
  | createQueue (queue entries : Nat)
  | deleteQueue (queue : Nat)
  | logPage (smart : Bool)
  | abort
  | write (queue offset : Nat) (data : List Byte)
  | read (offset len : Nat)
  | flush
  | deallocate (first count : Nat)
  deriving DecidableEq, Repr

/-- An I/O command that a drive has not completed: kind 0 a chunk write, 1 a read for a rewind of a port, 2 the writes of a checkpoint
step, 3 a deallocation, 4 a Flush of a checkpoint; its slot and chunk, or the port of the rewind, or the step; the sequence of the slot's
segment; the attempts made, whether it has been aborted (R263), and what it writes (queue, byte offset, data). -/
structure DrvCmd where
  kind : Nat
  slot : Nat
  chunk : Nat
  seq : Nat
  tries : Nat
  aborted : Bool
  writes : List (Nat × Nat × List Byte)
  deriving DecidableEq, Repr

/-- A drive position (R260, R261): the state of Table 10.2, n_d, the slots that stay lost after it failed, the entries of its I/O queues
and of its admin queue,
the valid entries of its journal mirror in copies A and B, what its metadata says when it was brought up, and the commands outstanding,
oldest first. -/
structure DrvSt where
  st : Nat
  nd : Nat
  lostNd : Nat
  qsize : Nat
  asize : Nat
  mirror : Vector Nat 2
  hdr : Option StoreHdr
  cmds : List DrvCmd
  deriving DecidableEq, Repr

/-- What a rewind has still to deliver (R282): records, lost spans, and segments that it must first read (slot, sequence,
and the lines it takes from them). -/
inductive RItem where
  | recd (r : Rec) (lost : Nat)
  | span (first last : Nat)
  | seg (slot seq first last : Nat)
  deriving DecidableEq, Repr

/-- A rewind (R281 to R284): its sequence number, whether the range is one of positions, the clamped range, the lines of
its markers and the timestamp of the first, the records to read, the share in units of 0.1 GB/s, what is left in line order, whether its
begin marker has gone, the records delivered and dropped, and the cause of its end while its end marker waits for descriptors. -/
structure Rewind where
  seq : Nat
  byPos : Bool
  lo : Int
  hi : Int
  first : Nat
  last : Nat
  time : Nat
  total : Nat
  share : Nat
  items : List RItem
  begun : Bool
  delivered : Nat
  dropped : Nat
  ending : Option Nat
  deriving DecidableEq, Repr

/-- The take-store side of a port: its open segment, notes due before its next record (kind, count, first and last line),
whether it is suspended (R278), the rewinds started, and the rewind that runs. -/
structure TksPort where
  open_ : Option Nat
  notes : List (Nat × Nat × Nat × Nat)
  suspended : Bool
  rewinds : Nat
  rewind : Option Rewind
  deriving DecidableEq, Repr

/-- A checkpoint in progress (R268): the step (0 data of A, 1 header of A, 2 data of B, 3 header of B). -/
structure CkptSt where
  step : Nat
  again : Bool
  deriving DecidableEq, Repr

/-- What a metadata header tells of the checkpoint whose data its copy holds (Table 10.4): its time, the next sequence, the write pointer,
the member and the lost mask, n_d of the members, and the CRC of the cue table. -/
structure HdrSnap where
  time : Nat
  next : Nat
  wp : Nat
  members : Nat
  lost : Nat
  slots : List Nat
  crc : Nat
  deriving DecidableEq, Repr

/-- A copy of the store's metadata (R264, R268): the pages of the segment map that changed since they were last written to it, the
sequence number from which no journal entry has been mirrored, the next index of its journal mirror, and what its header is to tell of the
data written last. -/
structure CopySt where
  pages : List Nat
  jnext : Nat
  jhead : Nat
  snap : HdrSnap
  deriving DecidableEq, Repr

/-- The take store (ch. 10): STATE, the store ID, the drives, the segment map (free slots unlisted), the write pointer, the
next sequence, the checkpoint sequence, the lost mask, the free chunks of the staging memory, the cues, the ports, the
copies A and B of the metadata, the checkpoint in progress, and the commands put to the drives (drive, command), newest first. -/
structure TksSt where
  st : Nat
  id : Nat
  drives : Vector DrvSt 8
  segs : List (Nat × Seg)
  wp : Nat
  next : Nat
  ckpt : Nat
  lost : Nat
  pool : Nat
  cues : List (Nat × Cue)
  ports : Vector TksPort 16
  copies : Vector CopySt 2
  running : Option CkptSt
  nvme : List (Nat × NvmeOp)
  deriving DecidableEq, Repr

/-- A channel of the auxiliary analog unit (R343, R348 to R350): AUX_CHc in force, the inputs that its filter keeps (newest
first), the results that still carry SETTLING, whether the next carries RANGE_CHANGED, and what its samples since the last
result have met, and whether the clamps of its pins (of a bridge channel P and N) conduct. -/
structure AuxCh where
  cfg : Nat
  kept : List (Int × Int)
  settle : Nat
  rngChg : Bool
  ov : Bool
  clip : Bool
  clampP : Bool
  clampN : Bool
  deriving DecidableEq, Repr

/-- A bridge excitation (R345, R346): whether it is driven, AMP and HALF in force, the half, the time of the last swap, and
the sums (S_a, S_b, m) of the positive and the negative half. -/
structure ExcSt where
  on : Bool
  amp : Nat
  half : Nat
  neg : Bool
  swap : Nat
  pos : Int × Int × Nat
  negS : Int × Int × Nat
  deriving DecidableEq, Repr

/-- A calibration step that runs (R353): the injections that it waits for, STEP, the channel, its range, LOG, the results
taken and their sum. -/
structure AuxCal where
  wait : List Nat
  step : Nat
  ch : Nat
  g : Nat
  log : Nat
  taken : Nat
  sum : Int
  deriving DecidableEq, Repr

/-- The auxiliary analog unit (ch. 13): AUX_SCAN_MASK in force, the channels and excitations, whether a scan runs and the
channels it has still to convert, a periodic scan that waits, when the last periodic scan was due, the pending injections (their channels), those that run
before the scan goes on, the calibration step, the zero that is held (channel, range, z), whether the converters are powered down and the
time at which the last start-up ended (R344). -/
structure AuxSt where
  mask : Nat
  chans : Vector AuxCh 32
  exc : Vector ExcSt 8
  running : Bool
  scan : List Nat
  due : Bool
  lastDue : Nat
  inj : Vector (Option Nat) 4
  batch : List Nat
  cal : Option AuxCal
  zero : Option (Nat × Nat × Int)
  down : Bool
  upAt : Nat
  deriving DecidableEq, Repr

/-- What the clock unit keeps beside its registers (ch. 16): whether the thermal trip has struck (R412), since when each reference that is
valid has been so (R400), and which port PLLs have lost lock while their port ran (R403). -/
structure ClkSt where
  tripped : Bool
  since : Vector Nat 2
  lost : Vector Bool 16
  deriving DecidableEq, Repr

/-- A port: its gate side, head, tap converters, clamp levels in force (R125), pipeline, LTG, restarts, gap window, the
lines in its three stages, the cuts taken since UNIT_START, the records due on streams 0 to 2 and on the take store from
the line in its emit stage (R219, R221), and the lines lost (R16): `lostBase` counts those that no record can still come
before, `lostRec` lists the later ones (first, count), and `storeLost` is the count at the last recorded record. -/
structure PortSt where
  gate : GateSt
  head : HeadSt
  conv : Vector ConvSt 16
  clamp : List Nat
  pipe : PipeSt
  ltg : LtgSt
  splice : SpliceSt
  gap : Option GapSt
  cap : Option LineRec
  prc : Option LineRec
  emi : Option LineRec
  cuts : Nat
  due : Vector (List Rec) 4
  lostBase : Nat
  lostRec : List (Nat × Nat)
  storeLost : Nat
  deriving DecidableEq, Repr

/-- The whole machine. `pending` is the queue of commands, first in first out. `now` is device time in ns (R21),
`free` counts the free values drawn (log entry 2), `rdata` is what the last host read returned. `regs` is keyed by
unit * 0x800000 + aperture offset, `raised` counts the raisings of every event source (R359), `bus` is what was put on
the host link, newest first, `tbl` holds the table memories, `store` the script store (Table 9.1), `tks` the take store, `mstepNext` and
`mstepNow` the microstep tables by 256 * axis + j (R325). -/
structure State where
  pending : List Instr
  now : Nat
  free : Nat
  rdata : DWord
  regs : List (Nat × RegCell)
  tbl : List (Nat × Word)
  bus : List BusOp
  ctxs : Vector Ctx 8
  pend : List (Nat × Option Pend)
  raised : List (Nat × Nat)
  queues : Vector EvQueue 64
  msiUnmasked : List (Nat × Bool)
  msiPend : List (Nat × Bool)
  units : Vector UnitSt 24
  groups : Vector Group 4
  engs : Vector Eng 56
  faults : List FaultRec
  mgt : Mgt
  jrnl : Journal
  link : LinkSt
  ports : Vector PortSt 16
  chans : Vector ChanSt 64
  scripts : Vector ScriptSt 16
  store : List (Nat × Word)
  tks : TksSt
  axes : Vector AxisSt 8
  mot : MotSt
  aux : AuxSt
  clk : ClkSt
  mstepNext : List (Nat × Word)
  mstepNow : List (Nat × Word)
  deriving DecidableEq, Repr

/-! ### Reset -/

/-- No sums. -/
def SlotSums.empty : SlotSums :=
  { n := List.replicate 8 0, s := List.replicate 8 0, a := List.replicate 8 0, q := List.replicate 8 0,
    c := List.replicate 8 0 }

/-- A context at power-on (R38, R44): context 0 holds every right, the others none. -/
def Ctx.atReset (owner : Bool) : Ctx :=
  { selPort := 0, selAxis := 0, selChan := 0, selEngine := 0, selTable := 0, snapLo := 0, snapHi := 0, snapTag := none,
    holdVal := 0, holdTag := none, rightsBlk := if owner then 0x0FFFFFFF else 0, rightsPort := if owner then 0xFFFFFFFF else 0,
    rightsAxis := if owner then 0xFFFF else 0, denied := none, zhp := 0, enable := false, err := 0, bells := [], sqTail := 0, sqHead := 0,
    cqHead := 0, cqNext := 0, phase := true }

/-- An event queue at power-on. -/
def EvQueue.atReset : EvQueue :=
  { words := [], flight := [], counter := 0, discard := false, tally := false, owes := false, badBase := false, ringHead := 0, ringTail := 0, ringPhase := true, ringEnds := [] }

/-- An empty program. -/
def Prog.empty : Prog := { base := 0, len := 0, entry := 0, declared := 0, jump := [], version := 0 }

/-- An empty slot (R87). -/
def Slot.empty : Slot :=
  { isLoaded := false, isVerified := false, tool := 0, build := 0, prog0 := Prog.empty, prog1 := Prog.empty, settings := [] }

/-- A unit at power-on: OFF (Table 16.5). -/
def UnitSt.atReset : UnitSt :=
  { st := .off, prior := .off, back := .off, ran := false, current := none, committed := none, group := none, cut := none, due := [], haltNext := false,
    hwFaults := 0, faultTimes := [], slots := Vector.replicate 8 Slot.empty,
    shadow := { st := .off, current := none, committed := none, armed := false } }

/-- An engine at power-on. -/
def Eng.atReset : Eng :=
  { g := Vector.replicate 16 0, lc := Vector.replicate 4 0, z := false, n := false, c := false, v := false, link := [], pc := 0,
    run := .idle, setup := 0, old := false, line := 0, time := 0, pos := 0, cutFlag := false, cyc := 0, cycLast := 0, cycMax := 0,
    excess := false, trapped := none, trapArg := 0, imem := [], param := [], scratch := [] }

/-- An image that the flash holds at first: verified, of version 0 (log entry 120). -/
def Image.first (component : Nat) : Image := { component := component, version := 0, svn := 0, flags := 0, key := 0, verified := true }

/-- Management before it has booted (R409). -/
def Mgt.atReset : Mgt :=
  { up := false, resetBusy := false, fwPending := false, blPending := false, eids := Vector.replicate 2 0, restarts := 0, paused := false, staging := none, stagingPldm := false,
    activating := none, blSlot := 0, fwSlot := 0, fwA := Image.first 0, fwB := Image.first 0, blA := Image.first 1,
    blB := Image.first 1, svnMin := 0, revoked := 0, serial := 0, cfg := List.replicate 256 0, cfgNext := List.replicate 256 0,
    mboxBusy := false, mboxCtx := 0, mboxOp := 0, mboxLen := 0, dbgTries := 0, dbgEnabled := false, restarting := false, mctpOut := [] }

/-- Configuration space after a reset of the link: nothing set up; Max_Payload_Size 128 bytes and Max_Read_Request_Size 512 bytes,
the defaults of PCI Express (log entry 160). -/
def PciSt.atReset : PciSt :=
  { bar0 := 0, bar4 := 0, mps := 0, mrrs := 2, ptmEn := false, msixEn := false, msixMask := false, msixTbl := [], aerStatus := 0, aerFirst := none }

/-- The host link before it has trained, PERST_L asserted (R410). -/
def LinkSt.atReset : LinkSt :=
  { d3hot := false, perst := true, up := false, width := 0, trained := 0, rate := 0, flit := false, l0p := false, cfgReady := false, ptmGood := 0,
    ptmBad := 0, ptmStepped := false, ptmLocked := false, ptmActive := false, ptmOffset := 0, ideKeys := [], ideOn := false,
    heldMsgs := [], pci := PciSt.atReset }

/-- A tap converter before its self-test: slices 0 to 3 in the slots, slice 4 out of service, ideal coefficients (R132, log
entry 120). -/
def ConvSt.atReset : ConvSt :=
  { slots := [0, 1, 2, 3], out := some 4, ready := false, retired := 0, repl := none, coef := List.replicate 5 (0, 32768, 0),
    lastCal := List.replicate 5 (0, 32768, 0), cals := List.replicate 5 0, due := false, calNow := false, period := 1000,
    lost := false, bgConv := false, stamps := [], prev := none, watchLog := 12, watch := SlotSums.empty, bg := SlotSums.empty,
    bgNext := [] }

/-- A pipeline at power-on. -/
def PipeSt.atReset : PipeSt :=
  { wl := Vector.replicate 4 [], accs := Vector.replicate 2 { a := [], cnt := 0 }, refs := Vector.replicate 2 [],
    refGeo := Vector.replicate 2 (0, 0), stream := none, skip := false, areas := Vector.replicate 4 none,
    slots := Vector.replicate 4 none, queued := [], groupDone := false, calDone := false, subst := 0, unrep := 0, discard := 0,
    unfilled := 0, dAcc := List.replicate 4 65536, dValid := List.replicate 4 0, q := List.replicate 4 0,
    qNext := List.replicate 4 0, lastEmit := [], inject := false, stall := none, stallCyc := 0, staged := 0, shadeBank := 0, defBank := 0,
    flipS := none, flipD := none, unflipS := false, unflipD := false, laneNext := none, cap := none, compute := none, verS := none, verD := none,
    degraded := 0, shaded := false, calAdd := [], shadeBad := [], substed := [], remaps := [], rewritten := [], mismatch := false, fails := [] }

/-- A port at power-on: pins at TIDLE (0), no head seen. -/
def PortSt.atReset : PortSt :=
  { gate := { queue := [], active := [], spans := [], samples := 0, pins := Vector.replicate 12 false,
              strobes := Vector.replicate 2 false, lrefSub := Vector.replicate 2 0, lrefOn := false },
    head := { missed := 0, present := false, insertAt := none, reading := false, desc := [], gone := false, bankOk := false,
              bankSeen := false },
    conv := Vector.replicate 16 ConvSt.atReset, clamp := List.replicate 16 2048, pipe := PipeSt.atReset,
    ltg := { sA := 0, kA := 0, rA := 0, num := 1, den := 1, past := [], gridFrom := 0, t0 := 0, h := -1, tLine := 0, tDrain := 0, drains := 0, ticked := false,
             held := none, lastLine := 0, hostTicks := 0, ticks := 0, behind := false, armed := false, latchRaw := none },
    splice := { late := false, last := 0, overlapTo := none, overlapK := 0, spliceDue := false, leader := false, spoilt := false,
                kept := [], again := [], seam := none },
    gap := none, cap := none, prc := none, emi := none, cuts := 0, due := Vector.replicate 4 [], lostBase := 0, lostRec := [],
    storeLost := 0 }

/-- A closed data channel. -/
def ChanSt.atReset : ChanSt :=
  { st := 0, ctx := 0, base := 0, k := 0, format := 0, pack := false, hold := 0, head := 0, tail := 0, fetch := 0, descs := [],
    tries := 0, stalled := false, cur := none, drop := false, eocCount := 0, eocFirst := none, eocAt := 0, lastHb := (0, 0),
    dirty := false, lastLine := 0, lostAt := 0, dropped := 0, fresh := false, barrier := false, held := [], skew := 0 }

/-- An idle script channel. -/
def ScriptSt.atReset : ScriptSt :=
  { st := .idle, cause := 0, ctx := 0, code := 0, retry := 3, base := 0, len := 0, fetched := none, wait := none, xfer := none, tries := 0,
    aborting := false, moved := 0, skew := 0 }

/-- An axis at power-on: at rest at 0, the driver off, the parameters those of the reset values of its registers. -/
def AxisSt.atReset : AxisSt :=
  { p := 0, v := 0, s := 1, decel := false, move := .stop false, target := 0, vmaxMove := none, vmax := 100000, acc := 1000000,
    dec := 1000000, sdec := 4000000, jerk := 1000000, shape := 0, jerkF := 1000000, shapeF := 0, irun := 0, ihold := 128,
    decNext := none, m := 1, hist := [], pos := 0, prevPos := 0, geared := false, gMaster := 0, gAnchor := 0, gLine := 0, gRem := 0,
    gBase := 0, gC := 0, gNum := 1, gDen := 1, gVel := 0, gOut := 0, phi := 0, enabled := false, homed := false, p0 := 0, e0 := 0, enc := 0, encA := false,
    encB := false, encZ := false, latchArm := none, latchCap := none, zEdge := none,
    sw := Vector.replicate 4 { raw := false, qual := false, run := 0, edgeTime := 0, edgePos := 0, edgeEnc := 0 },
    stall := 0, lastChange := 0, holdCur := false, wind := Vector.replicate 2 { drive := false, since := 0, o := 0, sigma := 0, code := 0, driveAt := 0, ended := none },
    tblPend := false, home := none, cmds := [], held := none, inpos := false, stepLim := false }

/-- A drive position with no drive (R261). -/
def DrvSt.absent : DrvSt :=
  { st := 0, nd := 0, lostNd := 0, qsize := 0, asize := 0, mirror := Vector.replicate 2 0, hdr := none, cmds := [] }

/-- The take store at power-on: RECOVERING until its drives are up, nothing staged (R261). -/
def TksSt.atReset : TksSt :=
  { st := 1, id := 0, drives := Vector.replicate 8 DrvSt.absent, segs := [], wp := 0, next := 0, ckpt := 0,
    lost := 0, pool := 256, cues := [],
    ports := Vector.replicate 16 { open_ := none, notes := [], suspended := false, rewinds := 0, rewind := none },
    copies := Vector.replicate 2 {
      pages := [], jnext := 0, jhead := 0,
      snap := { time := 0, next := 0, wp := 0, members := 0, lost := 0, slots := [], crc := 0 } }, running := none, nvme := [] }

/-- The auxiliary analog unit at power-on (R355). -/
def AuxSt.atReset : AuxSt :=
  { mask := 0,
    chans := Vector.replicate 32 { cfg := 0x10, kept := [], settle := 2, rngChg := false, ov := false, clip := false, clampP := false,
                                   clampN := false },
    exc := Vector.replicate 8 { on := false, amp := 0, half := 0, neg := false, swap := 0, pos := (0, 0, 0), negS := (0, 0, 0) },
    running := false, scan := [], due := false, lastDue := 0, inj := Vector.replicate 4 none, batch := [], cal := none, zero := none,
    down := false, upAt := 0 }

/-- The machine at the release of power-on reset, before it has booted (R409): every register at its reset value, every memory
reading 0, no command waiting. A unit's memories and the values that the spec does not give are those of log entry 120. -/
def State.reset : State :=
  { pending := [], now := 0, free := 0, rdata := 0, regs := [], tbl := [], bus := [],
    ctxs := Vector.ofFn (fun c => Ctx.atReset (c.val == 0)), pend := [], raised := [],
    queues := Vector.replicate 64 EvQueue.atReset, msiUnmasked := [], msiPend := [], units := Vector.replicate 24 UnitSt.atReset,
    groups := Vector.replicate 4 { armed := none, drive := false, driveNext := none, left := [], starting := [], done := 0 },
    engs := Vector.replicate 56 Eng.atReset, faults := [], mgt := Mgt.atReset,
    jrnl := { next := 1, mem := [], ring := [], ringCap := 786432, lost := 0, overflow := 0, lostMem := [] }, link := LinkSt.atReset,
    ports := Vector.replicate 16 PortSt.atReset, chans := Vector.replicate 64 ChanSt.atReset,
    scripts := Vector.replicate 16 ScriptSt.atReset, store := [], tks := TksSt.atReset, axes := Vector.replicate 8 AxisSt.atReset,
    mot := { ticks := 0, tickTime := 0, stopOn := false, stopLow := false, stopRun := 0, mA := Vector.replicate 2 false, mB := Vector.replicate 2 false,
             mZ := Vector.replicate 2 false, paces := Vector.replicate 4 { st := 0, dir := 1, line := 0, ref := none, spoiled := false } },
    aux := AuxSt.atReset, clk := { tripped := false, since := Vector.replicate 2 0, lost := Vector.replicate 16 false }, mstepNext := [], mstepNow := [] }

/-- Why a step can stop with a fault. No command of this machine ends in one: every constructor of `Instr` has an effect
in the spec, so this type has no constructor. -/
inductive Fault where
  deriving DecidableEq, Repr

/-- Why a command can be refused. -/
inductive Refusal where
  /-- Raised by an arm of `exec` whose command has no meaning yet; safe, since nothing is concluded about it. -/
  | notModelled (mnemonic : String)
  deriving DecidableEq, Repr

end Sys2Proof.Machine
end

