-- ==== Sys2Proof/Machine/Ops.lean ====
section
/-! DEFINITION. The named operations that the meanings share: registers, the journal, events, unit states, faults. -/

namespace Sys2Proof.Machine

/-- The key of register `off` of unit `u` (R4: offsets lie below 0x0080_0000). -/
def rkey (u off : Nat) : Nat := u * 0x800000 + off

/-- A register that nothing has written: its reset value, nothing staged. -/
def resetCell (k : Nat) : RegCell :=
  let r := resetVal (k % 0x800000)
  { val := r, force := r, stg := 0, cmt := 0, cmtVal := 0, cut := 0 }

/-- The contents of register `off` of unit `u`. -/
def State.cell (s : State) (u off : Nat) : RegCell := mget resetCell s.regs (rkey u off)

/-- Replaces the contents of a register. -/
def State.setCell (s : State) (u off : Nat) (c : RegCell) : State :=
  { s with regs := mput resetCell (rkey u off) c s.regs }

/-- What a plain read of a register returns (R5). -/
def State.reg (s : State) (u off : Nat) : Nat := (s.cell u off).val.toNat

/-- The value of a register in force. -/
def State.eff (s : State) (u off : Nat) : Nat := (s.cell u off).force.toNat

/-- The field `hi:lo` of a register, in force. -/
def State.rf (s : State) (u off hi lo : Nat) : Nat := fld (s.eff u off) hi lo

/-- Whether bank VDDIO(b + 1) lies within its operating range (R407): while it does not, its outputs are at high impedance and its inputs
read low. -/
def State.bankUp (s : State) (b : Nat) : Bool := s.rf 0 (Off.CLK_BANK + 4 * b) 31 31 == 1

/-- The device sets a whole register. -/
def State.setReg (s : State) (u off v : Nat) : State :=
  s.setCell u off { s.cell u off with val := BitVec.ofNat 32 v, force := BitVec.ofNat 32 v }

/-- The device sets one field of a register. -/
def State.setRf (s : State) (u off hi lo x : Nat) : State :=
  let c := s.cell u off
  s.setCell u off { c with val := BitVec.ofNat 32 (setFld c.val.toNat hi lo x),
                           force := BitVec.ofNat 32 (setFld c.force.toNat hi lo x) }

/-- Adds to a counting field, saturating at its greatest value. -/
def State.incRf (s : State) (u off hi lo n : Nat) : State :=
  s.setRf u off hi lo (min (s.rf u off hi lo + n) (2 ^ (hi + 1 - lo) - 1))

/-- A 64-bit pair, low register at `off`. -/
def State.pair (s : State) (u off : Nat) : Nat := s.eff u off + 2 ^ 32 * s.eff u (off + 4)

/-- The device sets a 64-bit pair. -/
def State.setPair (s : State) (u off v : Nat) : State :=
  (s.setReg u off (v % 2 ^ 32)).setReg u (off + 4) (v / 2 ^ 32 % 2 ^ 32)

/-- Device time never runs backwards (Host attachment, Device time): an event at an earlier time happens now. -/
def State.at (s : State) (t : Nat) : State := { s with now := max s.now t }

/-- Draws the next free value's index (log entry 2). -/
def State.tickFree (s : State) : State := { s with free := s.free + 1 }

/-- Puts a transaction on the host link, newest first. -/
def State.send (s : State) (b : BusOp) : State := { s with bus := b :: s.bus }

/-- A host-memory read; No Snoop is never set (R34, R56). -/
def State.hostRead (s : State) (addr len : Nat) : State := s.send (.memRead addr len false)

/-- A host-memory write without Relaxed Ordering (R59). -/
def State.hostWrite (s : State) (addr : Nat) (data : List Byte) : State := s.send (.memWrite addr data false)

/-! ### The journal (R384, R385) -/

/-- An entry with nothing but its kind and origin filled in. -/
def jentry (kind origin source : Nat) : JEntry :=
  { seq := 0, time := 0, kind := kind, origin := origin, source := source, status := 0, cmd := 0xFFFF, code := 0,
    target := 0, offset := 0, old := 0, new := 0, count := 0 }

/-- The entries that the journal memory holds (R385). -/
def journalCap : Nat := 65536

/-- Writes one entry into the journal: while the memory is full of entries not yet drained it is counted and its
sequence number used up; when room returns an entry of kind 14 carries the count (R385). -/
def Journal.add (j : Journal) (time : Nat) (e : JEntry) : Journal :=
  if j.mem.length ≥ journalCap then
    { j with next := j.next + 1, lost := j.lost + 1, overflow := min (j.overflow + 1) 32767 }
  else if j.lost = 0 then
    { j with next := j.next + 1, mem := j.mem ++ [{ e with seq := j.next, time := time }] }
  else
    { j with
      next := j.next + 2, lost := 0,
      mem := j.mem ++ [{ jentry 14 2 0 with seq := j.next, time := time, count := j.lost },
                       { e with seq := j.next + 1, time := time }] }

/-- Journals an entry at the present device time. -/
def State.journal (s : State) (e : JEntry) : State := { s with jrnl := s.jrnl.add s.now e }

/-! ### Events (R357 to R361) -/

/-- Source of an event of port `p` at an offset of Table 14.2. -/
def portSrc (p off : Nat) : Nat := 44 * p + off
/-- Source of an event of data channel `c` (Table 14.1). -/
def chanSrc (c i : Nat) : Nat := 704 + 4 * c + i
/-- Source of an event of script channel `c` (Table 14.1). -/
def scriptSrc (c i : Nat) : Nat := 960 + 4 * c + i
/-- Source of a take-store event at an offset of Table 14.4. -/
def tksSrc (off : Nat) : Nat := 1024 + off
/-- Source of an event of axis `a` at an offset of Table 14.3. -/
def axisSrc (a off : Nat) : Nat := 1152 + 24 * a + off
/-- Source of an auxiliary analog event (Table 14.1). -/
def auxSrc (off : Nat) : Nat := 1344 + off
/-- Source of a management, clock or fault event at an offset of Table 14.5. -/
def mgtSrc (off : Nat) : Nat := 1472 + off

/-- Packs items (width, value) from bit `pos` upwards, each aligned to its width, values saturated to it; gives the word
and the items that did not fit (R361). -/
def packWord : Nat → Nat → List (Nat × Nat) → Nat × List (Nat × Nat)
  | _, acc, [] => (acc, [])
  | pos, acc, (w, v) :: t =>
    let p := (pos + w - 1) / w * w
    if p + w ≤ 32 then packWord (p + w) (acc + min v (2 ^ w - 1) * 2 ^ p) t else (acc, (w, v) :: t)

/-- ARG0, and ARG1 where an item did not fit (R361). -/
def packArgs (items : List (Nat × Nat)) : Nat × Option Nat :=
  let r := packWord 0 0 items
  if r.2.isEmpty then (r.1, none) else (r.1, some (packWord 0 0 r.2).1)

/-- The default of the pending map: not pending. -/
def noPend : Nat → Option Pend := fun _ => none

/-- Whether a source's route is enabled (R358). -/
def State.routeOn (s : State) (src : Nat) : Bool := s.rf 0 (Off.EVT_ROUTE + 4 * src) 31 31 = 1

/-- The queue that a source's route names. -/
def State.routeQueue (s : State) (src : Nat) : Nat := s.rf 0 (Off.EVT_ROUTE + 4 * src) 5 0

/-- The pending state of a source after a raising with these items at time `now` (R358). -/
def pendAfter (p : Option Pend) (items : List (Nat × Nat)) (now : Nat) : Pend :=
  match p with
  | some q => { q with count := min (q.count + 1) 65535 }
  | none => { arg0 := (packArgs items).1, arg1 := (packArgs items).2, time := now, count := 1 }

/-- Raises a source (EVENT_RAISE): every raising is counted, whatever its route (R359); the pending state follows R358. -/
def State.raiseOne (s : State) (src : Nat) (items : List (Nat × Nat)) : State :=
  let raised := mput (fun _ => 0) src (mget (fun _ => 0) s.raised src + 1) s.raised
  if s.routeOn src then
    { s with raised := raised, pend := mput noPend src (some (pendAfter (mget noPend s.pend src) items s.now)) s.pend }
  else { s with raised := raised }

/-- The converters of the auxiliary analog unit are needed at time `now` (R344): if they are powered down they start up, in 3 µs. -/
def AuxSt.wake (x : AuxSt) (now : Nat) : AuxSt := if x.down then { x with down := false, upAt := now + 3000 } else x

/-- Slot `n` takes the raisings of a source as requests (R351: TEN, TRIG). -/
def State.injTrig (s : State) (src : Nat) (n : Fin 4) : Bool :=
  s.rf 0 (Off.AUX_INJ_CFG + 16 * n.val) 31 31 = 1 && s.rf 0 (Off.AUX_INJ_CFG + 16 * n.val) 26 16 = src && src < 1536

/-- Injection slot `n` holds a request for the channel in CH (R351). -/
def State.injHold (s : State) (n : Fin 4) : State :=
  { s with aux := { s.aux.wake s.now with inj := s.aux.inj.set n (some (s.rf 0 (Off.AUX_INJ_CFG + 16 * n.val) 4 0)) } }

/-- A request to a pending slot: it is counted in LOST, and AUX_INJ_LOST is raised with the slot (R351). -/
def State.injLose (s : State) (n : Fin 4) : State :=
  (s.incRf 0 (Off.AUX_INJ_REQ + 16 * n.val) 15 0 1).raiseOne (auxSrc 40) [(8, n.val)]

/-- A request that AUX_INJ_LOST makes (R359): one that is lost in its turn raises AUX_INJ_LOST, and requests nothing more (log entry 90). -/
def State.injAgain (s : State) (n : Fin 4) : State :=
  if s.injTrig (auxSrc 40) n then (if s.aux.inj[n].isSome then s.injLose n else s.injHold n) else s

/-- A request to injection slot `n` (R351): it becomes pending, or, if it is pending already, is lost; the AUX_INJ_LOST of a lost request
requests every slot that it triggers (R359). -/
def State.injRequest (s : State) (n : Fin 4) : State :=
  if s.aux.inj[n].isSome then (List.finRange 4).foldl State.injAgain (s.injLose n) else s.injHold n

/-- Raises a source, and requests every injection slot that it triggers (R351, R359). -/
def State.raise (s : State) (src : Nat) (items : List (Nat × Nat)) : State :=
  (List.finRange 4).foldl (fun t n => if t.injTrig src n then t.injRequest n else t) (s.raiseOne src items)

/-- How often a source has been raised. -/
def State.raisings (s : State) (src : Nat) : Nat := mget (fun _ => 0) s.raised src

/-! ### Units (R374 to R376) -/

/-- The code of a script channel's state. -/
def ScState.code : ScState → Nat
  | .idle => 0 | .running => 1 | .waiting => 2 | .halted => 3 | .faulted => 4 | .wedged => 5

/-- Port `p`. -/
def State.port (s : State) (p : PortId) : PortSt := s.ports[p]

/-- Changes port `p`. -/
def State.updPort (s : State) (p : PortId) (f : PortSt → PortSt) : State := { s with ports := s.ports.set p (f s.ports[p]) }

/-- Changes tap converter `t` of a port. -/
def State.updConv (s : State) (p : PortId) (t : Fin 16) (f : ConvSt → ConvSt) : State :=
  s.updPort p (fun x => { x with conv := x.conv.set t (f x.conv[t]) })

/-- Whether input `t` of port `p` belongs to a pair in pair mode (R136). -/
def State.pairMode (s : State) (p : PortId) (t : Nat) : Bool := bitN (s.rf p.val Off.PRT_FE_EN 23 16) (t / 2)

/-- The other input of the pair of input `t`. -/
def pairMate (t : Fin 16) : Fin 16 := ⟨if t.val % 2 = 0 then t.val + 1 else t.val - 1, by split <;> omega⟩

/-- Input `t` is lost (R147): its converter has lost a second slice, or, under the even input, a converter of its pair has; the odd
input of a pair is not converted. -/
def State.inputLost (s : State) (p : PortId) (t : Fin 16) : Bool :=
  let x := s.ports[p]
  if s.pairMode p t.val then t.val % 2 == 0 && (x.conv[t].lost || x.conv[pairMate t].lost) else x.conv[t].lost

/-- Port `p` reports DEGRADED: by a table (R172, R173) or a lost input (R147). -/
def State.portDegraded (s : State) (p : PortId) : Bool :=
  s.rf p.val Off.PIP_BANK_STAT 15 15 == 1 || (List.finRange 16).any (s.inputLost p)

/-- A swap of R139: the out-of-service slice o enters the slot that o' = o + 1 holds, and o' leaves service; its
calibration starts and the next period runs from now. A background correction of o' that waits is dropped (R145). -/
def ConvSt.swap (x : ConvSt) (period : Nat) : ConvSt :=
  match x.out with
  | none => x
  | some o =>
    let o' := (o + 1) % 5
    { x with slots := x.slots.map (fun s => if s = o' then o else s), out := some o', ready := false, due := false,
             calNow := false, period := period, bgNext := x.bgNext.filter (fun e => e.1 != o') }

/-- ROT_PERIOD of a port: values below 100 are taken as 100. -/
def State.rotPeriod (s : State) (p : PortId) : Nat := max 100 (s.rf p.val Off.PRT_CONV_CTL 15 0)

/-- A converter with no retired slice rotates while ROT_EN is 1 (R139). -/
def State.rotates (s : State) (p : PortId) (t : Fin 16) : Bool :=
  let x := (s.port p).conv[t]
  s.rf p.val Off.PRT_CONV_CTL 16 16 == 1 && x.out.isSome && x.retired == 0

/-- The swap of a converter is due (or asked for by CAL_NOW, when `now`) and its slice has completed its calibration. -/
def State.canSwap (s : State) (p : PortId) (t : Fin 16) (now : Bool) : Bool :=
  let x := (s.port p).conv[t]
  s.rotates p t && x.ready && (x.due || (now && x.calNow))

/-- The swap of one converter; PRT_ROT_COUNT counts it. -/
def State.swapOne (s : State) (p : PortId) (t : Fin 16) : State :=
  (s.updConv p t (fun y => y.swap (s.rotPeriod p))).setReg p.val Off.PRT_ROT_COUNT
    ((s.eff p.val Off.PRT_ROT_COUNT + 1) % 2 ^ 32)

/-- Makes the swap of a converter if it can be made (R139, R140); the converters of a pair that both rotate swap together, when both
can (R136, log entry 172). -/
def State.trySwap (s : State) (p : PortId) (t : Fin 16) (now : Bool) : State :=
  if !s.canSwap p t now then s
  else if s.pairMode p t.val && s.rotates p (pairMate t) then
    (if s.canSwap p (pairMate t) now then (s.swapOne p t).swapOne p (pairMate t) else s)
  else s.swapOne p t

/-- The codes of Table 15.4 whose classification costs lines: while one of them is classified the port takes no line. -/
def stopsLines (code : Nat) : Bool := [2, 4, 7, 8, 9].contains code

/-- A fault has one of its codes, its own or that of a fault it has joined, among `codes` (R381). -/
def FaultRec.hasCode (f : FaultRec) (codes : List Nat) : Bool := codes.contains f.code || f.joined.any (fun e => codes.contains e.1)

/-- A fault of port `p` waits or is being classified whose code, or that of a fault it has joined, is `c`. -/
def State.hasFault (s : State) (p : PortId) (c : Nat) : Bool := s.faults.any (fun f => f.kind == 1 && f.unit == p.val && f.hasCode [c])

/-- What a unit does but for the fault that is being classified: its state, in FAULTED the one before detection. -/
def UnitSt.phase (x : UnitSt) : UState := if x.st = .faulted then x.back else x.st

/-- A port captures: RUNNING, or FAULTED out of RUNNING by faults that cost no line (R379, Table 15.4, log entry 177). -/
def State.driving (s : State) (p : PortId) : Bool :=
  let x := s.units[unitOfPort p]
  x.phase == .running && !(x.st == .faulted && s.faults.any (fun f => f.kind == 1 && f.unit == p.val && f.hasCode [2, 4, 7, 8, 9]))

/-- A unit leaves RUNNING for good: a fault under classification is no such end (log entry 177). -/
def leaves (old new : UState) : Bool :=
  (old == .running || old == .faulted) && !(new == .running || new == .faulted)

/-- The code of a unit state (Table 15.1). -/
def UState.code : UState → Nat
  | .off => 0 | .loaded => 1 | .armed => 2 | .running => 3 | .draining => 4 | .halted => 5 | .faulted => 6 | .wedged => 7

/-- The unit of a number, or unit 0 (numbers come from 0 to 23). -/
def uid (u : Nat) : UnitId := ⟨u % 24, Nat.mod_lt _ (by decide)⟩

/-- Unit `u`. -/
def State.unit (s : State) (u : UnitId) : UnitSt := s.units[u]

/-- Changes unit `u`. -/
def State.updUnit (s : State) (u : UnitId) (f : UnitSt → UnitSt) : State := { s with units := s.units.set u (f s.units[u]) }

/-- Engine `e`. -/
def State.eng (s : State) (e : EngId) : Eng := s.engs[e]

/-- Changes engine `e`. -/
def State.updEng (s : State) (e : EngId) (f : Eng → Eng) : State := { s with engs := s.engs.set e (f s.engs[e]) }

/-- Changes context `c`. -/
def State.updCtx (s : State) (c : CtxId) (f : Ctx → Ctx) : State := { s with ctxs := s.ctxs.set c (f s.ctxs[c]) }

/-- Changes group `g`. -/
def State.updGroup (s : State) (g : GroupId) (f : Group → Group) : State := { s with groups := s.groups.set g (f s.groups[g]) }

/-- Changes management. -/
def State.updMgt (s : State) (f : Mgt → Mgt) : State := { s with mgt := f s.mgt }

/-- The target encoding of a unit (Table 2.4): kind 1 port, 2 axis. -/
def unitTarget (u : UnitId) : Nat := if u.val < 16 then 0x100 + u.val else 0x200 + (u.val - 16)

/-- The source of UNIT_STATE of a unit (Tables 14.2, 14.3). -/
def unitStateSrc (u : UnitId) : Nat := if u.val < 16 then portSrc u.val 33 else axisSrc (u.val - 16) 19

/-- Management's shadow agrees with the unit (R378). -/
def UnitSt.sync (x : UnitSt) : UnitSt :=
  { x with shadow := { st := x.st, current := x.current, committed := x.committed, armed := x.cut.isSome } }

/-- A port that leaves RUNNING makes the swaps that are due (R139). -/
def State.leaveSwaps (s : State) (u : UnitId) (old new : UState) : State :=
  if h : u.val < 16 then
    if leaves old new then (List.finRange 16).foldl (fun t i => t.trySwap ⟨u.val, h⟩ i false) s else s
  else s

/-- CAL_ABORTED (R175): a capture that runs is abandoned without writing a reference. -/
def State.abortCap (s : State) (p : PortId) (cause : Nat) : State :=
  if (s.port p).pipe.cap.isSome then
    ((s.updPort p (fun x => { x with pipe := { x.pipe with cap := none, calAdd := [] } })).setRf p.val Off.PIP_CAL 8 8 0).raise
      (portSrc p.val 19) [(8, cause)]
  else s

/-- A port that leaves RUNNING abandons its capture (R175 cause 1). -/
def State.leaveCap (s : State) (u : UnitId) (old new : UState) : State :=
  if h : u.val < 16 then (if leaves old new then s.abortCap ⟨u.val, h⟩ 1 else s) else s

/-- The levels of a port's outputs while it does not run (R113): timing pins at TIDLE, strobes low, LREF outputs at 0 V. -/
def State.idleOuts (s : State) (p : PortId) : State :=
  let t := s.rf p.val Off.PRT_GCFG 11 0
  s.updPort p (fun x => { x with gate := { x.gate with
    lrefOn := false, lrefSub := Vector.replicate 2 0, strobes := Vector.replicate 2 false,
    pins := Vector.ofFn (fun i => bitN t i.val) } })

/-- A port that leaves RUNNING puts its outputs at those levels, and one that starts runs from them (R113). -/
def State.edgeOuts (s : State) (u : UnitId) (old new : UState) : State :=
  if h : u.val < 16 then
    if leaves old new || (new == .running && old != .running && old != .faulted) then s.idleOuts ⟨u.val, h⟩ else s
  else s

/-- What UNIT_STATE carries (R375): the new state, the old one and the cause; at a start (cause 4) also the slot started (R89), in the next
byte (log entry 196). -/
def UnitSt.stateItems (x : UnitSt) (new : UState) (cause : Nat) : List (Nat × Nat) :=
  [(8, new.code), (8, x.st.code), (8, cause)] ++ (if cause = 4 then [(8, x.current.getD 0)] else [])

/-- A change of a unit's state itself: the state, the event UNIT_STATE and the journal entry (R375, R384). -/
def State.moveState (s : State) (u : UnitId) (new : UState) (cause : Nat) : State :=
  let old := (s.unit u).st
  let s1 := s.updUnit u (fun x => ({ x with st := new, ran := x.ran || decide (new = UState.running) }).sync)
  let s2 := s1.raise (unitStateSrc u) ((s.unit u).stateItems new cause)
  s2.journal { jentry 4 2 0 with target := unitTarget u, old := old.code, new := new.code, code := cause }

/-- The cuts that are complete are counted: every member has switched, and every member port has begun the process stage of its first new
line (R251). The newest cut waits while a member has not switched. -/
def Group.tally (x : Group) : Group :=
  let open_ := x.starting.zipIdx.filter (fun e => !e.1.isEmpty || (!x.left.isEmpty && e.2 + 1 == x.starting.length))
  { x with starting := open_.map (fun e => e.1), done := x.done + (x.starting.length - open_.length) }

/-- A member of group `g` has switched: with the last one the cut is no longer armed (R26). -/
def State.cutDone (s : State) (g : Nat) (u : UnitId) : State :=
  s.updGroup ⟨g % 4, Nat.mod_lt _ (by decide)⟩ (fun x =>
    let left := x.left.filter (fun v => v != u.val)
    if left.isEmpty then Group.tally { x with left := [], armed := none } else { x with left := left })

/-- Unit `u` holds back no cut but the newest `k`: it has begun the process stage of its first new line (R251). -/
def Group.startedBut (x : Group) (u : UnitId) (k : Nat) : Group :=
  if x.starting.any (fun c => c.contains u.val) then
    Group.tally { x with starting := x.starting.zipIdx.map (fun e =>
      if e.2 + k < x.starting.length then e.1.filter (fun v => v != u.val) else e.1) }
  else x

/-- Unit `u` holds no cut back any more: it has no line to begin (R251). -/
def Group.started (x : Group) (u : UnitId) : Group := x.startedBut u 0

/-- Unit `u` holds the cuts of no group back any more. -/
def State.cutStarted (s : State) (u : UnitId) : State := { s with groups := s.groups.map (fun x => x.started u) }

/-! ### CUT values that wait for a tick (R7, R92) -/

/-- The value that a setup's SETTINGS give register `off`, the last record that names it (R92). -/
def Slot.setting (x : Slot) (off : Nat) : Option Word := (x.settings.reverse.find? (fun e => e.1 == off)).map (fun e => e.2)

/-- What the CUT fields of a register of a unit would hold once slot `k` had taken effect: the setting or the reset value, with
staged CUT fields on top (R92). `n` is the select value of the unit. -/
def State.futureCut (s : State) (u : UnitId) (k n off : Nat) : Nat :=
  let c := s.cell n off
  let m := (regDef off).elim 0 (fun r => r.cut)
  let set := (((s.unit u).slots[k % 8]'(Nat.mod_lt _ (by decide))).setting off).getD (resetVal off)
  let base := (c.force &&& ~~~m) ||| (set &&& m)
  ((base &&& ~~~c.cut) ||| (c.val &&& c.cut)).toNat

/-- The offsets of the registers that a row describes. -/
def RegDef.offsets (r : RegDef) : List Nat :=
  (List.range r.n1).flatMap (fun i => (List.range r.n2).map (fun j => r.base + r.s1 * i + r.s2 * j))

/-- The registers with CUT fields that the select register of a port (or an axis) reaches. -/
def cutOffsets (port : Bool) : List Nat :=
  if port then ((prtRegs ++ pipRegs ++ cmpRegs).filter (fun r => r.cut != 0 && r.sel == .port)).flatMap RegDef.offsets
  else (motRegs.filter (fun r => r.cut != 0 && r.sel == .axis)).flatMap RegDef.offsets

/-- The value of the select register that reaches a unit. -/
def unitIndex (u : UnitId) : Nat := if u.val < 16 then u.val else u.val - 16

/-- CUT values that wait for a tick that does not come: the bits that a register write had staged are staged again (R6, R7). -/
def State.putBack (s : State) (u : UnitId) : State :=
  ((s.unit u).due.foldl (fun t e =>
    t.setCell (unitIndex u) e.1 { t.cell (unitIndex u) e.1 with cut := (t.cell (unitIndex u) e.1).cut ||| e.2.2 }) s).updUnit u
    (fun x => { x with due := [] })

/-- Setup `k` is to take effect at the unit's first tick: the values of its registers' CUT fields, with those staged by register writes on
top, wait for it (R7, R92). A write from now on waits for a later cut (R6). -/
def State.stageCut (s : State) (u : UnitId) (k : Nat) : State :=
  let n := unitIndex u
  let s := s.putBack u
  let d := (cutOffsets (decide (u.val < 16))).map (fun off => (off, BitVec.ofNat 32 (s.futureCut u k n off), (s.cell n off).cut))
  (d.foldl (fun t e => t.setCell n e.1 { t.cell n e.1 with cut := 0 }) s).updUnit u (fun x => { x with due := d })

/-- Of the values that wait those of the registers `now` come into force, in the CUT fields. -/
def State.applyDue (s : State) (u : UnitId) (now : Nat → Bool) : State :=
  ((s.unit u).due.foldl (fun t e =>
    let c := t.cell (unitIndex u) e.1
    let m := (regDef e.1).elim 0 (fun r => r.cut)
    if now e.1 then t.setCell (unitIndex u) e.1 { c with force := (c.force &&& ~~~m) ||| (e.2.1 &&& m) } else t) s).updUnit u
    (fun x => { x with due := x.due.filter (fun e => !now e.1) })

/-- An ARMED unit that no cut names any more is LOADED, or HALTED if it has run; so is one whose fault is classified, as it returns. -/
def UnitSt.unarmed (x : UnitSt) : UnitSt :=
  let idle (y : UState) : UState := if y = .armed then (if x.ran then .halted else .loaded) else y
  if x.st = .faulted ∨ x.st = .wedged then { x with back := idle x.back, prior := idle x.prior } else x

/-- A member that is not running takes a cut that has fired: its committed setup is the cut's, which takes effect at its next
start (R7, R27, R89); an ARMED unit returns to LOADED or HALTED (cause 3). A unit that may go on without a start, DRAINING or WEDGED, keeps
its CUT values for the reload that starts the setup, or its first tick (R376). -/
def State.takeIdle (s : State) (u : UnitId) : State :=
  match (s.unit u).cut with
  | none => s
  | some c =>
    let st := (s.unit u).st
    let s0 := if st = .draining ∨ st = .wedged ∨ st = .faulted then s.stageCut u c.slot else s
    let s1 := s0.updUnit u (fun x => ({ x with cut := none, committed := some c.slot }).unarmed.sync)
    if st = .armed then s1.moveState u (if (s.unit u).ran then .halted else .loaded) 3 else s1

/-- A change of a unit's state (R375): a port that leaves RUNNING makes the swaps that are due, abandons its capture and idles its outputs; a
unit that no longer runs takes a cut that has fired as a member that is not running, and holds none back; one that has stopped has no
tick that CUT values could wait for. -/
def State.setUState (s : State) (u : UnitId) (new : UState) (cause : Nat) : State :=
  let old := (s.unit u).st
  let s0 := (((s.leaveSwaps u old new).leaveCap u old new).edgeOuts u old new).moveState u new cause
  let s1 := if new = .halted ∨ new = .loaded ∨ new = .off then s0.putBack u else s0
  match (s1.unit u).cut with
  | some c =>
    if c.reached && new ≠ .running && new ≠ .faulted then ((s1.takeIdle u).cutDone c.group u).cutStarted u else s1
  | none => if new = .running ∨ new = .draining ∨ new = .faulted then s1 else s1.cutStarted u

/-- The units of a cut group. -/
def State.members (s : State) (g : Nat) : List UnitId :=
  (List.finRange 24).filter (fun u => (s.unit u).group == some g)

/-- Takes the armed cut away from one unit: an ARMED unit returns to LOADED, or HALTED if it has run (cause 3). -/
def State.unarmUnit (s : State) (u : UnitId) : State :=
  let s1 := s.updUnit u (fun x => ({ x with cut := none }).unarmed.sync)
  if (s.unit u).st = .armed then s1.setUState u (if (s.unit u).ran then .halted else .loaded) 3 else s1

/-- Disarms the cut of a group for every member that waits for it (CUT_DISARM, R28). -/
def State.disarm (s : State) (g : GroupId) : State :=
  let s1 := s.updGroup g (fun x => { x with armed := none, left := [] })
  (List.finRange 24).foldl (fun t u =>
    if ((t.unit u).cut.map (fun c => c.group)) = some g.val then t.unarmUnit u else t) s1

/-- CUT_DROPPED (R28): the reference port of an armed line cut leaves RUNNING before it reaches the line. -/
def State.dropCuts (s : State) (p : PortId) : State :=
  (List.finRange 4).foldl (fun t g =>
    match t.groups[g].armed with
    | some (0, ref, _) =>
      if ref = p.val && t.groups[g].left.isEmpty then (t.disarm g).raise (portSrc p.val 34) [(8, g.val)] else t
    | _ => t) s

/-- A change of a port's state, with the cuts it drops (R28, R375). -/
def State.setPortState (s : State) (p : PortId) (new : UState) (cause : Nat) : State :=
  let s1 := s.setUState (unitOfPort p) new cause
  match new with
  | .draining | .halted | .wedged | .off => s1.dropCuts p
  | _ => s1

/-- A change of any unit's state, with the cuts a port's change drops. -/
def State.changeUnit (s : State) (u : UnitId) (new : UState) (cause : Nat) : State :=
  if h : u.val < 16 then s.setPortState ⟨u.val, h⟩ new cause else s.setUState u new cause

/-- A port whose fault stops its lines leaves RUNNING by it: the swaps that are due are made (R139), and its outputs go to the levels of
R113. -/
def State.faultOuts (s : State) (f : FaultRec) : State :=
  if f.kind = 1 ∧ stopsLines f.code then
    let p : PortId := ⟨f.unit % 16, Nat.mod_lt _ (by decide)⟩
    (if s.driving p then (List.finRange 16).foldl (fun t i => t.trySwap p i false) s else s).idleOuts p
  else s

/-- A fault joins the classification of its unit's earlier fault (R381): the later code and arguments stand, at the place and time of the
first; with none it waits at the end. -/
def joinFault (f : FaultRec) : List FaultRec → List FaultRec
  | [] => [f]
  | g :: t => if g.kind = f.kind ∧ g.unit = f.unit then { f with time := g.time, joined := g.joined ++ [(g.code, g.arg)] } :: t
    else g :: joinFault f t

/-- The unit of a fault of a port or an axis. -/
def FaultRec.uid (f : FaultRec) : UnitId := Machine.uid (if f.kind = 1 then f.unit else 16 + f.unit)

/-- A fault joins the one that waits: its unit is FAULTED, or it is a script's (R381). -/
def State.joins (s : State) (f : FaultRec) : Bool :=
  f.kind == 5 || ((f.kind == 1 || f.kind == 2) && (s.unit f.uid).st == .faulted)

/-- A detected fault (R375, R379, R381): the fault waits for classification, and its unit, if it is a port or an axis that is
not OFF, is FAULTED; the state before a first fault is not that of a WEDGED unit. -/
def State.detect (s : State) (f : FaultRec) : State :=
  let f := { f with time := s.now }
  let x := s.unit f.uid
  let s1 := s.faultOuts f
  let s2 := { s1 with faults := if s.joins f then joinFault f s1.faults else s1.faults ++ [f] }
  if (f.kind = 1 ∨ f.kind = 2) ∧ ¬(x.st = .off ∨ x.st = .faulted) then
    (s2.updUnit f.uid (fun y => { y with back := x.st, prior := if x.st = .wedged then y.prior else x.st })).setUState f.uid .faulted 8
  else s2

/-- Table 3.2: registers, loop counters, flags and link stack cleared, pc at the entry; scratch kept or cleared. -/
def Eng.restart (e : Eng) (entry : Nat) (clearScratch : Bool) : Eng :=
  { e with g := Vector.replicate 16 0, lc := Vector.replicate 4 0, z := false, n := false, c := false, v := false,
           link := [], pc := entry, run := .waiting, cyc := 0,
           scratch := if clearScratch then [] else e.scratch }

end Sys2Proof.Machine
end

