-- ==== Sys2Proof/Machine/Events.lean ====
section
/-! DEFINITION. Event packets, queues, host rings, interrupts and the meanings of the event commands
(spec/14_queues_and_events.md). -/

namespace Sys2Proof.Machine

/-- Queue `q`. -/
def State.queue (s : State) (q : QueueId) : EvQueue := s.queues[q]

/-- Changes queue `q`. -/
def State.updQueue (s : State) (q : QueueId) (f : EvQueue → EvQueue) : State := { s with queues := s.queues.set q (f s.queues[q]) }

/-- A register of queue `q`: its offset. -/
def qoff (base : Nat) (q : QueueId) : Nat := base + 0x40 * q.val

/-- The words of a packet (R360, Table 14.6). -/
def packetWords (src : Nat) (p : Pend) : List DWord :=
  let n := if p.arg1.isSome then 3 else 2
  let hdr := 2 ^ 63 + n * 2 ^ 60 + src * 2 ^ 48 + p.count * 2 ^ 32 + p.arg0
  let time := 2 ^ 63 + 2 ^ 62 + p.time % 2 ^ 62
  match p.arg1 with
  | none => [BitVec.ofNat 64 hdr, BitVec.ofNat 64 time]
  | some a => [BitVec.ofNat 64 hdr, BitVec.ofNat 64 (2 ^ 63 + a), BitVec.ofNat 64 time]

/-- Whether a word is the last of its packet: END, bit 62 (R360). -/
def isEnd (w : DWord) : Bool := w.getLsbD 62

/-- The packet count of a queue: END words in it (R362). -/
def EvQueue.packets (q : EvQueue) : Nat := (q.words.filter isEnd).length

/-- The words of a ring, less one, that a ring of `size` words may still take before it would write the word at head - 1
(R367). -/
def EvQueue.ringFree (q : EvQueue) (size : Nat) : Nat := (q.ringHead + size - 1 - q.ringTail) % size

/-- k of a queue's ring (R367): 6 to 16, other values taken as 6. -/
def State.ringLog (s : State) (q : QueueId) : Nat :=
  let k := s.rf 0 (qoff Off.EVQ_RING_SIZE q) 4 0
  if 6 ≤ k ∧ k ≤ 16 then k else 6

/-- EVQ_CTL fields. -/
def State.qEn (s : State) (q : QueueId) : Bool := s.rf 0 (qoff Off.EVQ_CTL q) 0 0 = 1
/-- EVQ_CTL.HOST. -/
def State.qHost (s : State) (q : QueueId) : Bool := s.rf 0 (qoff Off.EVQ_CTL q) 16 16 = 1
/-- EVQ_CTL.NOTICE. -/
def State.qNotice (s : State) (q : QueueId) : Bool := s.rf 0 (qoff Off.EVQ_CTL q) 8 8 = 1
/-- EVQ_LEVEL.LEVEL: larger values are taken as 32. -/
def State.qLevel (s : State) (q : QueueId) : Nat := min (s.rf 0 (qoff Off.EVQ_LEVEL q) 5 0) 32

/-- Waiting packets (R369): in the queue, or with HOST = 1 in the ring. -/
def State.waiting (s : State) (q : QueueId) : Nat :=
  if s.qHost q then (s.queue q).ringEnds.length else (s.queue q).packets

/-- Whether messages of a vector go out: MSI-X is enabled, and neither the entry nor the function is masked (R369). -/
def State.vecOpen (s : State) (v : Nat) : Bool :=
  s.link.pci.msixEn && !s.link.pci.msixMask && mget (fun _ => false) s.msiUnmasked v

/-- The message of a vector: the data of its table entry, to the entry's address (R369, Table 2.2). -/
def State.msixMsg (s : State) (v : Nat) : BusOp :=
  let e := mget (fun _ => (0, 0)) s.link.pci.msixTbl v
  .msix v e.1 e.2

/-- MSI_X_MESSAGE: a message on a vector. A masked vector keeps it pending, and further triggers send one message
(R369); in D3hot nothing is sent, and the message is held for the return to D0 (R371, log entry 21). While PERST_L is low MSI-X is
disabled and its pending bits stay at their reset values (R411). -/
def State.message (s : State) (v : Nat) : State :=
  if s.link.perst then s
  else if s.link.d3hot then
    { s with link := { s.link with heldMsgs := if s.link.heldMsgs.contains v then s.link.heldMsgs else s.link.heldMsgs ++ [v] } }
  else if s.vecOpen v then s.send (s.msixMsg v)
  else { s with msiPend := mput (fun _ => false) v true s.msiPend }

/-- The message of a packet that has become whole, `before` and `after` being the waiting packets (R369). -/
def State.notify (s : State) (q : QueueId) (before after : Nat) : State :=
  let lv := s.qLevel q
  if s.qNotice q || (lv ≠ 0 && before < lv && lv ≤ after) then s.message (s.rf 0 (qoff Off.EVQ_VEC q) 8 0) else s

/-- The words of the first whole packet of a queue and the rest. -/
def splitPacket : List DWord → Option (List DWord × List DWord)
  | [] => none
  | w :: t => if isEnd w then some ([w], t) else
    match splitPacket t with
    | none => none
    | some (p, r) => some (w :: p, r)

/-- A ring word: bit 63 holds the phase (R367). -/
def ringWord (w : DWord) (phase : Bool) : DWord := if phase then w ||| 0x8000000000000000#64 else w &&& 0x7FFFFFFFFFFFFFFF#64

/-- Writes words at the ring tail, wrapping and inverting the phase at each wrap (R367, R368). -/
def State.ringPut (s : State) (q : QueueId) (size : Nat) : List DWord → State
  | [] => s
  | w :: t =>
    let qs := s.queue q
    let base := s.pair 0 (qoff Off.EVQ_RING_BASE_LO q)
    let s1 := s.hostWrite (base + 8 * qs.ringTail) (leBytes 8 (ringWord w qs.ringPhase).toNat)
    let nt := (qs.ringTail + 1) % size
    State.ringPut (s1.updQueue q (fun x => { x with ringTail := nt, ringPhase := if nt = 0 then !x.ringPhase else x.ringPhase })) q size t

/-- Moves whole packets from the queue to its host ring while they fit, at most `n` of them (R367). In D3hot and under
PERST_L no ring write is made (R371, R411). -/
def State.drainRing (s : State) (q : QueueId) : Nat → State
  | 0 => s
  | n + 1 =>
    if !s.qHost q || s.link.d3hot || s.link.perst then s else
    match splitPacket (s.queue q).words with
    | none => s
    | some (p, rest) =>
      let size := 2 ^ s.ringLog q
      if (s.queue q).ringFree size < p.length then s
      else
        let before := (s.queue q).ringEnds.length
        let s1 := s.updQueue q (fun x => { x with words := rest, counter := rest.length })
        let s2 := s1.ringPut q size p
        let s3 := s2.updQueue q (fun x => { x with ringEnds := x.ringEnds ++ [(x.ringTail + size - 1) % size] })
        State.drainRing (s3.notify q before (before + 1)) q n

/-- The pending source routed to a queue with the earliest first raising, then the lower number (R363). -/
def State.firstSource (s : State) (q : QueueId) : Option (Nat × Pend) :=
  s.pend.foldl (fun best e =>
    match e.2 with
    | none => best
    | some p =>
      if s.routeOn e.1 && s.routeQueue e.1 = q.val then
        match best with
        | none => some (e.1, p)
        | some b => if p.time < b.2.time then some (e.1, p) else best
      else best) none

/-- The source of QUEUE_INTEGRITY of a queue, if it is pending and routed there: after a reset of the queue its packet comes first (R366). -/
def State.owedSource (s : State) (q : QueueId) : Option (Nat × Pend) :=
  if (s.queue q).owes && s.routeOn (1408 + q.val) && s.routeQueue (1408 + q.val) == q.val then
    (mget noPend s.pend (1408 + q.val)).map (fun p => (1408 + q.val, p))
  else none

/-- The pending source that a queue takes next (R363, R366). -/
def State.nextSource (s : State) (q : QueueId) : Option (Nat × Pend) :=
  match s.owedSource q with
  | some e => some e
  | none => s.firstSource q

/-- The router starts the packet of the next pending source if the queue is enabled and has room for all its words, and none is in flight
(R362, R363). The source's pending state clears. -/
def State.startPacket (s : State) (q : QueueId) : State :=
  match s.nextSource q with
  | none => s
  | some (src, p) =>
    let ws := packetWords src p
    if (s.queue q).flight.isEmpty && s.qEn q && decide ((s.queue q).words.length + ws.length ≤ 64) then
      { s with pend := mput noPend src none s.pend }.updQueue q (fun x => { x with flight := ws, owes := false })
    else s

/-- The router writes the next `n` words of the packet in flight: into the chain, or in the discard state nowhere, whose packet is counted
when its END word goes (R362, R365). A packet that has become whole is notified, or waits for the host ring. -/
def State.routeWords (s : State) (q : QueueId) (n : Nat) : State :=
  let x := s.queue q
  let ended := decide (x.flight.length ≤ n)
  if x.flight.isEmpty then s
  else if x.discard then
    let s1 := s.updQueue q (fun y => { y with flight := y.flight.drop n, discard := !ended })
    if ended && x.tally then s1.incRf 0 (qoff Off.EVQ_LOST q) 15 0 1 else s1
  else
    let s1 := s.updQueue q (fun y => { y with
      words := y.words ++ y.flight.take n, flight := y.flight.drop n, counter := y.counter + (y.flight.take n).length })
    if ended && !s1.qHost q then s1.notify q x.packets (x.packets + 1) else s1

/-- PACKET_DELIVERY (R362, R363, R367): the router writes `n` words of the packet in flight or of the next pending source's; a queue that
drains to a host ring then moves its whole packets there. -/
def State.deliver (s : State) (q : QueueId) (n : Nat) : State :=
  ((if n = 0 then s else (s.startPacket q).routeWords q n)).drainRing q 32

/-- The meaning of PACKET_DELIVERY: in a number of CD3 cycles the router writes as many words to a queue. -/
def execPacketDelivery (d : Delivery) (s : State) : Host.Outcome State Fault Refusal := .next (s.deliver d.queue d.words)

/-- Removes and returns the head word while a whole packet is in the queue (R364). -/
def State.popWord (s : State) (q : QueueId) : State × DWord :=
  match (s.queue q).words with
  | [] => (s, 0)
  | w :: t =>
    if (s.queue q).packets = 0 || s.qHost q then (s, 0)
    else (s.updQueue q (fun x => { x with words := t, counter := t.length }), w)

/-- A queue is emptied at once (R365, R366): the words of a packet in flight are discarded until its END; `tally` says whether that
packet counts in FLUSHED. A packet that is being discarded already goes on as it was. -/
def State.emptyQueue (s : State) (q : QueueId) (tally : Bool) : State :=
  s.updQueue q (fun x => { x with
    words := [], counter := 0, discard := !x.flight.isEmpty, tally := if x.discard then x.tally else tally })

/-- R365: empties the queue and counts the packets discarded. -/
def State.flushQueue (s : State) (q : QueueId) : State :=
  (s.emptyQueue q true).incRf 0 (qoff Off.EVQ_LOST q) 15 0 (s.queue q).packets

/-- The meaning of QUEUE_INTEGRITY (R366), at time `t`: the queue is reset as by a flush, the lost packets, one in flight among them, counted, the event
raised and journaled; routed to this queue, its packet is the next. -/
def execQueueIntegrity (q : QueueId) (t : Nat) (s : State) : Host.Outcome State Fault Refusal :=
  let s := s.at t
  let x := s.queue q
  let n := x.packets + b2n (!x.flight.isEmpty && !x.discard)
  let s1 := (s.emptyQueue q false).updQueue q (fun y => { y with owes := true })
  let s2 := s1.incRf 0 (qoff Off.EVQ_LOST q) 31 16 n
  let s3 := s2.raise (1408 + q.val) [(16, n)]
  let s4 := s3.journal { jentry 8 2 0 with code := 10, target := 0x800 + q.val, count := n }
  .next (s4.detect { kind := 8, unit := q.val, code := 10, arg := n, arg2 := 0, time := 0 })

/-- A write to EVQ_LEVEL: it reads back as written, larger values acting as 32 (`State.qLevel`); nothing is sent (R369). -/
def State.levelWrite (s : State) (q : QueueId) (v : Nat) : State := s.setReg 0 (qoff Off.EVQ_LEVEL q) (fld v 5 0)

/-- A write to EVQ_CTL (R365, R367): FLUSH acts first, HOST is taken only if EN was 0, EN is refused over a misaligned
ring base. -/
def State.qCtlWrite (s : State) (q : QueueId) (v : Nat) : State :=
  let off := qoff Off.EVQ_CTL q
  let s1 := if bitN v 31 then s.flushQueue q else s
  let host := if s1.qEn q then s1.rf 0 off 16 16 else fld v 16 16
  let bad := fld v 0 0 = 1 ∧ host = 1 ∧ s1.eff 0 (qoff Off.EVQ_RING_BASE_LO q) % 4096 ≠ 0
  let en := if bad then 0 else fld v 0 0
  let s2 := s1.setReg 0 off (host * 2 ^ 16 + fld v 8 8 * 2 ^ 8 + en)
  if fld v 0 0 = 1 then s2.updQueue q (fun x => { x with badBase := bad }) else s2

/-- A write to EVQ_RING_BASE_LO/HI or EVQ_RING_SIZE: taken only while EN is 0; HEAD and TAIL return to 0 and the next
pass has phase 1 (R367). -/
def State.ringCfgWrite (s : State) (q : QueueId) (off v : Nat) : State :=
  if s.qEn q then s
  else
    (s.setReg 0 off v).updQueue q (fun x => { x with ringHead := 0, ringTail := 0, ringPhase := true, ringEnds := [] })

/-- A write to EVQ_RING_HEAD: in range it frees the words up to it; out of range it is dropped and journaled (R367). -/
def State.ringHeadWrite (s : State) (c : CtxId) (q : QueueId) (v : Nat) : State :=
  let size := 2 ^ s.ringLog q
  let x := s.queue q
  let i := fld v 15 0
  if i < size ∧ (i + size - x.ringHead) % size ≤ (x.ringTail + size - x.ringHead) % size then
    let keep (e : Nat) : Bool := (e + size - x.ringHead) % size ≥ (i + size - x.ringHead) % size
    (s.updQueue q (fun y => { y with ringHead := i, ringEnds := y.ringEnds.filter keep })).drainRing q 32
  else s.journal { jentry 1 0 c.val with offset := qoff Off.EVQ_RING_HEAD q, old := x.ringHead, new := i }

/-- A write to an EVT_ROUTE register (R358, R363). -/
def State.routeWrite (s : State) (src v : Nat) : State :=
  s.setReg 0 (Off.EVT_ROUTE + 4 * src) (fld v 31 31 * 2 ^ 31 + fld v 5 0)

/-- What a write to BAR4 or to the MSI-X capability sets (Table 2.2): an entry's address, data and mask, or MSI-X Enable and Function Mask. -/
def State.msixSet (s : State) (w : MsixWrite) : State :=
  match w with
  | .entry v addr data mask =>
    { s with
      link := { s.link with pci := { s.link.pci with
        msixTbl := mput (fun _ => (0, 0)) v.val (addr.toNat, data.toNat) s.link.pci.msixTbl } },
      msiUnmasked := mput (fun _ => false) v.val (!mask) s.msiUnmasked }
  | .function enable mask => { s with link := { s.link with pci := { s.link.pci with msixEn := enable, msixMask := mask } } }

/-- A pending message whose vector is no longer masked is sent, and its pending bit clears (R369). -/
def State.msixFlush (s : State) (v : Nat) : State :=
  if s.vecOpen v && mget (fun _ => false) s.msiPend v then
    { s with msiPend := mput (fun _ => false) v false s.msiPend }.message v
  else s

/-- The meaning of MSI_X_VECTOR_UNMASK (R369): the entry or the Function Mask is written, and the pending messages whose vectors
it unmasks are sent. -/
def execMsiXVectorUnmask (w : MsixWrite) (s : State) : Host.Outcome State Fault Refusal :=
  .next ((s.msiPend.map (fun e => e.1)).foldl State.msixFlush (s.msixSet w))

/-- EVQ_STAT as it reads now. -/
def State.qStat (s : State) (q : QueueId) : Nat :=
  let x := s.queue q
  b2n x.badBase * 2 ^ 17 + b2n x.discard * 2 ^ 16 + (min (s.waiting q) 63) * 2 ^ 8 + x.words.length

/-- EVT_PENDw as it reads now. -/
def State.evtPend (s : State) (w : Nat) : Nat :=
  ((List.range 32).filter (fun i => (mget noPend s.pend (32 * w + i)).isSome)).foldl (fun a i => a + 2 ^ i) 0

end Sys2Proof.Machine
end

