-- ==== Sys2Proof/Machine/Units.lean ====
section
/-! DEFINITION. Operations on whole units that several families share: dropping lines (R16), draining and halting
(R375), starting and ending scripts. -/

namespace Sys2Proof.Machine

/-- Script channel `c`. -/
def State.script (s : State) (c : ScriptId) : ScriptSt := s.scripts[c]

/-- Changes script channel `c`. -/
def State.updScript (s : State) (c : ScriptId) (f : ScriptSt → ScriptSt) : State :=
  { s with scripts := s.scripts.set c (f s.scripts[c]) }

/-- The state of port `p` as a unit. -/
def State.portState (s : State) (p : PortId) : UState := (s.unit (unitOfPort p)).st

/-! ### Lines -/

/-- The three stages of a line (R13). -/
inductive Stage where
  | capture | process | emit
  deriving DecidableEq, Repr

/-- The line in a stage. -/
def PortSt.line (x : PortSt) : Stage → Option LineRec
  | .capture => x.cap
  | .process => x.prc
  | .emit => x.emi

/-- Replaces the line in a stage. -/
def PortSt.setLine (x : PortSt) (st : Stage) (l : Option LineRec) : PortSt :=
  match st with
  | .capture => { x with cap := l }
  | .process => { x with prc := l }
  | .emit => { x with emi := l }

/-- A line is dropped whole, once: it is marked, and counted in the lost counts (R16) unless it is an overlap line
(R308). -/
def State.dropQuiet (s : State) (p : PortId) (st : Stage) : State :=
  match (s.port p).line st with
  | none => s
  | some l =>
    if l.dropped then s
    else s.updPort p (fun x =>
      { x.setLine st (some { l with dropped := true }) with
        lostRec := if l.overlap then x.lostRec else x.lostRec ++ [(l.n, 1)],
        due := if st = .emit then Vector.replicate 4 [] else x.due })

/-- LINE_OVERRUN (R16): the line of a stage is dropped whole and the event raised with its cause (Table 1.3). -/
def State.dropLine (s : State) (p : PortId) (st : Stage) (cause : Nat) : State :=
  match (s.port p).line st with
  | none => s
  | some l => if l.dropped then s else (s.dropQuiet p st).raise (portSrc p.val 0) [(8, cause)]

/-! ### Scripts -/

/-- The script channel of a script engine. -/
def scriptOf (e : EngId) : ScriptId := ⟨(e.val + 8) % 16, Nat.mod_lt _ (by decide)⟩

/-- The length of the script that an engine runs, in instructions (R241). -/
def State.scriptLen (s : State) (e : EngId) : Nat := (s.script (scriptOf e)).len

/-- The journal entry of a transfer instruction that has written the device map (R384). -/
def State.journalXfer (s : State) (c : ScriptId) : State :=
  match (s.script c).xfer with
  | none => s
  | some x =>
    match x.span with
    | none => s
    | some (a, b) =>
      if x.dstSp = 1 then
        s.journal { jentry 3 1 c.val with target := 0x500 + c.val, offset := a, old := a, new := b, count := x.written }
      else s

/-- A script stops in state `st` with a cause of Table 9.4; nothing it has written is undone (R256). -/
def State.scriptStop (s : State) (c : ScriptId) (st : ScState) (cause : Nat) : State :=
  ((s.journalXfer c).updScript c (fun x =>
    { x with st := st, cause := cause, wait := none, xfer := none, fetched := none, aborting := false })).updEng
    (scriptEng c) (fun x => { x with run := if x.run = .trapped then .trapped else .halted })

/-- The select value of a script channel (SEL_CHAN 64 to 79). -/
def scSel (c : ScriptId) : Nat := 64 + c.val

/-- The bytes that the transfer in progress has written (R256). -/
def ScriptSt.xferDone (x : ScriptSt) : Nat := match x.xfer with | some y => y.written | none => 0

/-- A script halts abnormally: DMA_SC_XFER_DONE tells the bytes of the halted transfer that were written, SCRIPT_HALTED the cause and
the pc (R240, R256, R258). -/
def State.scriptHalt (s : State) (c : ScriptId) (cause : Nat) : State :=
  let pc := (s.eng (scriptEng c)).pc
  ((s.setReg (scSel c) Off.DMA_SC_XFER_DONE ((s.script c).xferDone % 2 ^ 32)).scriptStop c .halted cause).raise (scriptSrc c.val 1) [(8, cause), (16, pc)]

/-- A script ends normally (R240): cause DONE, and SCRIPT_DONE with the bytes it moved. -/
def State.scriptDone (s : State) (c : ScriptId) : State :=
  let n := (s.script c).moved
  (s.scriptStop c .halted 0).raise (scriptSrc c.val 0) [(32, n % 2 ^ 32)]

/-! ### Draining and halting -/

/-- The gate side of a port that halts: no entry is left, and the outputs have the levels of R113. -/
def State.idlePins (s : State) (p : PortId) : State :=
  (s.updPort p (fun x => { x with gate := { x.gate with queue := [], active := [] } })).idleOuts p

/-- An engine of a unit that halts does no further work; a trap or a HALT stays shown. -/
def Eng.stopRun (x : Eng) : Eng :=
  { x with run := if x.run = .trapped ∨ x.run = .halted then x.run else .idle }

/-- A block of line `n` fails verify (R198, R200): counted, shown, raised; a failure that was not injected has its lane classified. -/
def State.verifyFail (s : State) (p : PortId) (n area b pos : Nat) (injected : Bool) : State :=
  let lane := b % 8
  let s1 := s.incRf p.val Off.CMP_BAD 15 0 1
  let s2 := (s1.setReg p.val Off.CMP_VERIFY (2 ^ 31 + b2n injected * 2 ^ 30 + lane * 2 ^ 27 + area % 4 * 2 ^ 16 + pos % 2 ^ 16)).setReg
    p.val Off.CMP_VERIFY_LINE (n % 2 ^ 32)
  let s3 := s2.raise (portSrc p.val 12) [(8, lane), (16, pos), (8, b2n injected)]
  if injected ∨ s3.faults.any (fun f => f.kind == 1 && f.unit == p.val && f.code == 5 && f.arg == lane) then s3
  else s3.detect { kind := 1, unit := p.val, code := 5, arg := lane, arg2 := pos, time := 0 }

/-- The number of the line in process. -/
def State.prcLine (s : State) (p : PortId) : Nat := match (s.port p).prc with | some l => l.n | none => 0

/-- The failing blocks of the line in process are reported as its stage ends: until then a lane that differs may show that R165 alone applies
to the line (R199, log entry 201). -/
def State.verifyReport (s : State) (p : PortId) : State :=
  (s.port p).pipe.fails.foldl (fun t e => t.verifyFail p (s.prcLine p) e.1 e.2.1 e.2.2.1 e.2.2.2)
    (s.updPort p (fun x => { x with pipe := { x.pipe with fails := [] } }))

/-- A port goes to HALTED (R375): its engines stop, its lines are gone, its pins idle. -/
def State.haltPort (s : State) (p : PortId) (cause : Nat) : State :=
  let s1 := (s.verifyReport p).setPortState p .halted cause
  let s2 := s1.updPort p (fun x => { x with cap := none, prc := none, emi := none })
  ((s2.updEng (gateEng p) Eng.stopRun).updEng (pipeEng p) Eng.stopRun).idlePins p

/-- An armed gear change is cleared (R300). -/
def State.clearGearArm (s : State) (p : PortId) : State :=
  (s.setRf p.val Off.PRT_GEAR_ARMCTL 0 0 0).updPort p (fun x => { x with ltg := { x.ltg with armed := false } })

end Sys2Proof.Machine
end

