-- ==== Sys2Proof/Machine/Admin.lean ====
section
/-! DEFINITION. The admin protocol (spec/02_host_attachment.md): one shared operation that takes a submission through the
order of refusals of R426 to its completion, and the commands on contexts and rights. -/

namespace Sys2Proof

/-- Argument `i` of a submission, as a number. -/
def Submission.arg (x : Submission) (i : Nat) : Nat := (x.args.getD i 0).toNat

/-- The unit number of the target (Table 2.4, bits 7:0). -/
def Submission.unit (x : Submission) : Nat := Machine.fld x.target.toNat 7 0
/-- The unit kind of the target (bits 11:8). -/
def Submission.kind (x : Submission) : Nat := Machine.fld x.target.toNat 11 8
/-- The setup slot of the target (bits 14:12). -/
def Submission.slot (x : Submission) : Nat := Machine.fld x.target.toNat 14 12
/-- A 64-bit value in two arguments, low first. -/
def Submission.arg64 (x : Submission) (i : Nat) : Nat := x.arg i + 2 ^ 32 * x.arg (i + 1)

end Sys2Proof

namespace Sys2Proof.Machine

/-- Status codes (Table 2.6). -/
abbrev stOk : Nat := 0
/-- BAD_ARG -/
abbrev stBadArg : Nat := 1
/-- STATE_CONFLICT -/
abbrev stConflict : Nat := 2
/-- DENIED -/
abbrev stDenied : Nat := 3
/-- BUDGET -/
abbrev stBudget : Nat := 4
/-- VERSION -/
abbrev stVersion : Nat := 5
/-- BUSY -/
abbrev stBusy : Nat := 6
/-- NOT_FOUND -/
abbrev stNotFound : Nat := 7
/-- MEDIA -/
abbrev stMedia : Nat := 8
/-- INTERNAL -/
abbrev stInternal : Nat := 9

/-- How a command completes: status, results and detail (Table 2.5). -/
structure AdmRes where
  status : Nat
  r0 : Nat
  r1 : Nat
  detail : Nat
  deriving DecidableEq, Repr

/-- A refusal with a detail (R49): the index of the argument at fault plus 1, or 0. -/
def refuse (status detail : Nat) : AdmRes := { status := status, r0 := 0, r1 := 0, detail := detail }

/-- A command done as requested. -/
def okRes (r0 r1 : Nat) : AdmRes := { status := stOk, r0 := r0, r1 := r1, detail := 0 }

/-- What Table 2.7 says of a command: opcode, the version that introduces it, the target kinds it takes, whether it names
a slot, the arguments it names. -/
structure AdmDesc where
  op : Nat
  since : Nat
  kinds : List Nat
  slotted : Bool
  args : List Nat
  deriving DecidableEq, Repr

/-- How many units a target kind has (Table 2.4). -/
def kindCount (k : Nat) : Nat :=
  match k with
  | 0 => 1 | 1 => 16 | 2 => 8 | 3 => 4 | 4 => 64 | 5 => 16 | 6 => 256 | 7 => 8 | _ => 0

/-- Steps 1 to 5 of R426: negotiation, an opcode that Table 2.7 does not list, version of the opcode, fields that must be 0, the
target. A setup slot in the target of a command that takes none, and a unit number without a kind, count as a target that names
no slot or unit (DESIGN CHOICE, log entry 164). -/
def admGeneric (zhp : Nat) (d : AdmDesc) (x : Submission) : Option AdmRes :=
  if zhp = 0 ∧ (x.other.isSome ∨ (d.op ≠ 0 ∧ d.op ≠ 1)) then some (refuse stVersion 0)
  else if x.other.isSome then some (refuse stBadArg 0)
  else if zhp ≠ 0 ∧ zhp < d.since then some (refuse stVersion 0)
  else if x.flags.toNat / 2 ≠ 0 ∨ x.rsvd ≠ 0 ∨ fld x.target.toNat 31 15 ≠ 0 then some (refuse stBadArg 0)
  else
    match (List.range 10).find? (fun i => !d.args.contains i && x.arg i != 0) with
    | some i => some (refuse stBadArg (i + 1))
    | none =>
      if !d.kinds.contains x.kind || kindCount x.kind ≤ x.unit || (!d.slotted && x.slot != 0) then
        some (refuse stBadArg 0)
      else none

/-- Whether a context holds the read (false) or write (true) right on block row `b` (R44). -/
def Ctx.blk (x : Ctx) (b : Nat) (wr : Bool) : Bool := bitN x.rightsBlk.toNat (2 * b + b2n wr)
/-- Whether a context holds the read or write right on port `p`. -/
def Ctx.port (x : Ctx) (p : Nat) (wr : Bool) : Bool := bitN x.rightsPort.toNat (p + 16 * b2n wr)
/-- Whether a context holds the read or write right on axis `a`. -/
def Ctx.axis (x : Ctx) (a : Nat) (wr : Bool) : Bool := bitN x.rightsAxis.toNat (a + 8 * b2n wr)

/-- The right that a command on a port or an axis needs: the write right on the unit (log entry 30). -/
def unitRight (x : Ctx) (y : Submission) : Bool :=
  if y.kind = 1 then x.port y.unit true else if y.kind = 2 then x.axis y.unit true else true

/-- Bytes of a completion entry (Table 2.5). -/
def completionBytes (cid : Nat) (r : AdmRes) (phase : Bool) (head : Nat) : List Byte :=
  leBytes 2 cid ++ leBytes 1 r.status ++ leBytes 1 (b2n phase) ++ leBytes 4 r.r0 ++ leBytes 4 r.r1 ++ leBytes 2 head ++
    leBytes 2 r.detail

/-- Whether a context has a submission that could begin: its rings run (ERR 2 stops them, R51), a submission waits, and there is
room for its completion (R48). -/
def State.ready (s : State) (c : CtxId) : Bool :=
  let x := s.ctxs[c]
  let csize := 2 ^ s.rf c.val Off.HIF_AQ_SIZE 11 8
  x.enable && x.err != 2 && x.sqHead != x.sqTail && (x.cqNext + 1) % csize != x.cqHead

/-- The place, among all contexts' doorbells, of the oldest doorbell of a context that has commands which have not begun. -/
def Ctx.bell (x : Ctx) : Nat :=
  match x.bells with
  | [] => 0
  | b :: _ => b.1

/-- The place of the next doorbell (R50). -/
def State.nextBell (s : State) : Nat := s.ctxs.toList.foldl (fun m x => x.bells.foldl (fun k b => max k b.1) m) 0 + 1

/-- A command of the oldest doorbell has begun. -/
def tookBell : List (Nat × Nat) → List (Nat × Nat)
  | [] => []
  | b :: t => if b.2 ≤ 1 then t else (b.1, b.2 - 1) :: t

/-- Whether a context's next submission is served now: management is up, no full reset runs, and of the contexts that have a
submission which could begin this one's doorbell came first (R32, R48, R50, R383). -/
def State.served (s : State) (c : CtxId) : Bool :=
  s.mgt.up && !s.mgt.resetBusy && !s.link.perst && !s.link.d3hot && !s.mgt.paused && s.ready c &&
    (List.finRange 8).all (fun d => !s.ready d || decide ((s.ctxs[c]).bell ≤ (s.ctxs[d]).bell))

/-- The read of the next submission of a context, made once, below the tail that a doorbell has covered (R56). -/
def State.subRead (s : State) (c : CtxId) : BusOp :=
  .memRead (s.pair c.val Off.HIF_ASQ_BASE_LO + 64 * (s.ctxs[c]).sqHead) 64 false

/-! ### The audit of a command's targets (R378) -/

/-- A state register of a unit, as the audit reads it: MGT_USTATE with the armed cut in bit 3. -/
def stateWord (st : UState) (current committed : Option Nat) (armed : Bool) : Nat :=
  committed.getD 0 % 8 * 2 ^ 8 + current.getD 0 % 8 * 2 ^ 4 + b2n armed * 2 ^ 3 + st.code

/-- The unit that a target of kind 1 or 2 names. -/
def auditUnit (kind unit : Nat) : UnitId := uid (if kind = 1 then unit else 16 + unit)

/-- Data channel and script channel of a number. -/
def State.chanOfNat (s : State) (i : Nat) : ChanSt := s.chans[i % 64]'(Nat.mod_lt _ (by decide))
/-- Script channel of a number. -/
def State.scriptOfNat (s : State) (i : Nat) : ScriptSt := s.scripts[i % 16]'(Nat.mod_lt _ (by decide))

/-- The own state register of a unit of a target kind (R378): of a port or an axis as `stateWord` gives it, else the state of the channel. -/
def State.ownState (s : State) (kind unit : Nat) : Nat :=
  if kind = 1 ∨ kind = 2 then
    let x := s.unit (auditUnit kind unit)
    stateWord x.st x.current x.committed x.cut.isSome
  else if kind = 4 then (s.chanOfNat unit).st
  else (s.scriptOfNat unit).st.code

/-- What management's shadow of it reads. -/
def State.shadowState (s : State) (kind unit : Nat) : Nat :=
  if kind = 1 ∨ kind = 2 then
    let x := (s.unit (auditUnit kind unit)).shadow
    stateWord x.st x.current x.committed x.armed
  else if kind = 4 then (s.chanOfNat unit).st ^^^ (s.chanOfNat unit).skew
  else (s.scriptOfNat unit).st.code ^^^ (s.scriptOfNat unit).skew

/-- The unit state of a code. -/
def UState.ofCode (c : Nat) : UState :=
  [UState.off, .loaded, .armed, .running, .draining, .halted, .faulted, .wedged].getD c .off

/-- A shadow comes to read `v`. -/
def State.setShadow (s : State) (kind unit v : Nat) : State :=
  if kind = 1 ∨ kind = 2 then
    s.updUnit (auditUnit kind unit) (fun x => { x with
      shadow := { st := UState.ofCode (v % 8), current := some (v / 16 % 8), committed := some (v / 256 % 8), armed := bitN v 3 } })
  else if kind = 4 then
    { s with chans := s.chans.set (unit % 64) { s.chanOfNat unit with skew := (s.chanOfNat unit).st ^^^ v } (Nat.mod_lt _ (by decide)) }
  else { s with scripts := s.scripts.set (unit % 16) { s.scriptOfNat unit with skew := (s.scriptOfNat unit).st.code ^^^ v } (Nat.mod_lt _ (by decide)) }

/-- A shadow takes the unit's value. -/
def State.syncShadow (s : State) (kind unit : Nat) : State :=
  if kind = 1 ∨ kind = 2 then s.updUnit (auditUnit kind unit) UnitSt.sync
  else if kind = 4 then
    { s with chans := s.chans.set (unit % 64) { s.chanOfNat unit with skew := 0 } (Nat.mod_lt _ (by decide)) }
  else { s with scripts := s.scripts.set (unit % 16) { s.scriptOfNat unit with skew := 0 } (Nat.mod_lt _ (by decide)) }

/-- A unit whose state logic has failed its test is a fault of code 9 (R378); a script stops for it. -/
def State.logicFault (s : State) (kind unit : Nat) : State :=
  let c : ScriptId := ⟨unit % 16, Nat.mod_lt _ (by decide)⟩
  let s1 := if kind = 5 ∧ (s.script c).st ≠ .wedged then
      (s.scriptStop c .faulted (s.script c).cause).updScript c (fun x => { x with skew := 0 })
    else s
  s1.detect { kind := kind, unit := unit, code := 9, arg := 0, arg2 := 0, time := 0 }

/-- The audit of one unit (R378). On a disagreement DISAGREE is journaled with both values and raised; if the state logic's test passes the
shadow takes the unit's value, else the unit is a fault. -/
def State.auditOne (s : State) (kind unit : Nat) (pass : Bool) : State :=
  if s.shadowState kind unit = s.ownState kind unit then s
  else
    let s1 := (s.journal { jentry 9 2 0 with target := kind * 256 + unit, old := s.shadowState kind unit, new := s.ownState kind unit }).raise
      (mgtSrc 54) [(8, kind), (8, unit)]
    let s2 := s1.incRf 0 Off.MGT_FAULT_CNT 31 16 1
    if pass then s2.syncShadow kind unit else s2.logicFault kind unit

/-- The units that a command targets (R378): its port, axis or channel, or the members of its cut group. -/
def State.targets (s : State) (y : Submission) : List (Nat × Nat) :=
  if [1, 2, 4, 5].contains y.kind then [(y.kind, y.unit)]
  else if y.kind = 3 then (s.members y.unit).map (fun u => if u.val < 16 then (1, u.val) else (2, u.val - 16))
  else []

/-- The targets of a command are audited before its checks; the test of their state logic passes (log entry 191). -/
def State.auditTargets (s : State) (y : Submission) : State := (s.targets y).foldl (fun t e => t.auditOne e.1 e.2 true) s

/-- The state that a STATE_CONFLICT of a command reports (R377, log entry 191): of its target, a unit, a data channel, a script channel
or a cue; of CUT_ARM's group the first member whose state allows no cut, else whether a cut is armed (1) and reached (2); of HELLO the version
negotiated, of FW_STAGE whether an activation runs. -/
def State.targetState (s : State) (op : Nat) (y : Submission) : Nat :=
  match y.kind with
  | 1 => (s.unit (uid y.unit)).st.code
  | 2 => (s.unit (uid (16 + y.unit))).st.code
  | 3 =>
    let bad (u : UnitId) : Bool := !([UState.running, .loaded, .halted, .armed].contains (s.unit u).st)
    let g := s.groups[y.unit % 4]'(Nat.mod_lt _ (by decide))
    match (s.members y.unit).find? bad with
    | some u => if op = 0x11 then (s.unit u).st.code else b2n g.armed.isSome + b2n (!g.left.isEmpty)
    | none => b2n g.armed.isSome + b2n (!g.left.isEmpty)
  | 4 => (s.chanOfNat y.unit).st
  | 5 => (s.scriptOfNat y.unit).st.code
  | 6 => ((s.tks.cues.find? (fun e => e.1 == y.unit)).map (fun e => e.2.st)).getD 0
  | _ => b2n s.mgt.activating.isSome

/-- ADMIN_COMPLETION (R58): the flush read, the completion entry without Relaxed Ordering, then ADMIN_CQ and, with
NOTIFY, ADMIN_DONE; the journal entry of the command (R384), and of a STATE_CONFLICT (R377). The submission head moves
on before it is reported (Table 2.5). -/
def State.complete (s : State) (c : CtxId) (op : Nat) (y : Submission) (r : AdmRes) : State :=
  let x := s.ctxs[c]
  let r := if x.zhp < 0x22 then { r with detail := 0 } else r
  let head := (x.sqHead + 1) % 2 ^ s.rf c.val Off.HIF_AQ_SIZE 3 0
  let csize := 2 ^ s.rf c.val Off.HIF_AQ_SIZE 11 8
  let nx := (x.cqNext + 1) % csize
  let op := (y.other.map (fun b => b.toNat)).getD op
  let s1 := s.updCtx c (fun z => { z with sqHead := head, cqNext := nx, phase := if nx = 0 then !z.phase else z.phase,
                                          bells := tookBell z.bells })
  let s2 := (s1.send .flushRead).hostWrite (s.pair c.val Off.HIF_ACQ_BASE_LO + 16 * x.cqNext)
    (completionBytes y.cid.toNat r x.phase head)
  let items := [(16, y.cid.toNat), (8, r.status)]
  let s3 := s2.raise (mgtSrc (5 * c.val + 1)) items
  let s4 := if y.flags.getLsbD 0 then s3.raise (mgtSrc (5 * c.val)) items else s3
  let je := { jentry 2 0 c.val with status := r.status, cmd := y.cid.toNat, code := op, target := y.target.toNat }
  let s5 := if op = 1 ∨ op = 0x30 then s4 else s4.journal je
  let s6 := if r.status = stConflict then
      s5.journal { je with kind := 5, old := if op = 0 then x.zhp else s.targetState op y }
    else s5
  if r.status = stDenied then s6.journal { je with kind := 6 } else s6

/-- Whether a command of context `c` that was executing as the cores failed completes now: while they restart (R373, log entry 195), with
the link there to take its completion. -/
def State.cutShort (s : State) (c : CtxId) (y : Submission) : Bool :=
  y.begun && s.mgt.restarting && !s.link.perst && !s.link.d3hot && s.ready c

/-- One admin command of context `c` (R50, R56, R426): its submission is read; held in its ring while the ring is not served; refused by the first
check that applies, its targets being audited before their state is checked (R378); otherwise its effect, then its completion. `checks` are steps 6 to 11 of R426 in order. A command
that completes with another status than OK has no effect (R49). One that a restart of management cut short completes INTERNAL. -/
def State.admin (s : State) (c : CtxId) (d : AdmDesc) (y : Submission) (checks : List (Option AdmRes))
    (effect : State → State × AdmRes) : State :=
  if s.served c then
    match admGeneric s.ctxs[c].zhp d y with
    | some r => (s.send (s.subRead c)).complete c d.op y r
    | none =>
      let s := s.auditTargets y
      match firstSome checks with
      | some r => (s.send (s.subRead c)).complete c d.op y r
      | none => let e := effect (s.send (s.subRead c)); e.1.complete c d.op y e.2
  else if s.cutShort c y then (s.send (s.subRead c)).complete c d.op y (refuse stInternal 0)
  else s

/-- A refusal when the condition holds. -/
def refuseIf (b : Bool) (status detail : Nat) : Option AdmRes := if b then some (refuse status detail) else none

/-- The versions of the Zelore Host Protocol that the ZL9640 implements. -/
def zhpVersions : List Nat := [0x20, 0x21, 0x22, 0x30, 0x31, 0x32]

/-- The version codes that a HELLO offers (R53): n codes in the bytes of arg1 and arg2, arg1 bits 7:0 first. -/
def helloCodes (y : Submission) : List Nat :=
  (List.range (min (y.arg 0) 8)).map (fun i => fld (y.arg (1 + i / 4)) (8 * (i % 4) + 7) (8 * (i % 4)))

/-- The highest version that both sides offer, 0 if none (R53). -/
def helloPick (y : Submission) : Nat := ((helloCodes y).filter zhpVersions.contains).foldl max 0

/-- The meaning of HELLO (R53). -/
def execHello (c : CtxId) (y : Submission) (s : State) : Host.Outcome State Fault Refusal :=
  .next (s.admin c { op := 0x00, since := 0x20, kinds := [0], slotted := false, args := [0, 1, 2] } y
    [refuseIf (s.ctxs[c].zhp ≠ 0) stConflict 0,
     refuseIf (y.arg 0 = 0 || 8 < y.arg 0) stBadArg 1,
     refuseIf (helloPick y = 0) stVersion 0]
    (fun t => (t.updCtx c (fun x => { x with zhp := helloPick y }), okRes (helloPick y) 0)))

/-- The bytes of Table 2.9; no firmware slot is ever empty (log entry 120). -/
def identifyBytes (s : State) : List Byte :=
  let fw (k : Nat) := if k = 0 then s.mgt.fwA else s.mgt.fwB
  let ver (i : Image) := i.version
  let head := leBytes 2 0xF1A7 ++ leBytes 2 0x9640 ++ [0xB1, 0, 0x20, 0x32] ++ leBytes 8 s.mgt.serial ++ [1, 3, 1, 2] ++
    [1, 2, 0, 0] ++ leBytes 2 16 ++ [8, 8] ++ leBytes 2 64 ++ [16, 64] ++ leBytes 4 (ver (fw s.mgt.fwSlot)) ++
    leBytes 4 (ver (fw (1 - s.mgt.fwSlot))) ++ leBytes 4 0
  head ++ List.replicate (256 - head.length) 0

/-- The meaning of IDENTIFY (R55, Table 2.9). -/
def execIdentify (c : CtxId) (y : Submission) (s : State) : Host.Outcome State Fault Refusal :=
  .next (s.admin c { op := 0x01, since := 0x20, kinds := [0], slotted := false, args := [] } y
    [refuseIf (y.len.toNat < 256) stBadArg 0]
    (fun t => (t.hostWrite y.addr.toNat (identifyBytes t), okRes 0 0)))

/-- The rights block that read mask `r` and write mask `w` spell: bit 2b read, bit 2b + 1 write. -/
def rightsBlkOf (r w : Nat) : Nat :=
  (List.range 14).foldl (fun a b => a + b2n (bitN r b) * 2 ^ (2 * b) + b2n (bitN w b) * 2 ^ (2 * b + 1)) 0

/-- The bits 0, 2, 4 ... of a rights block from `off`, one per block row: the inverse of `rightsBlkOf`. -/
def rightsMask (blk off : Nat) : Nat := (List.range 14).foldl (fun a b => a + b2n (bitN blk (2 * b + off)) * 2 ^ b) 0

/-- The rights of a context are replaced; context 0 keeps every right (R44). -/
def State.giveRights (s : State) (u : CtxId) (b p a : Nat) : State :=
  s.updCtx u (fun x =>
    if u.val = 0 then x
    else { x with rightsBlk := BitVec.ofNat 32 b, rightsPort := BitVec.ofNat 32 p, rightsAxis := BitVec.ofNat 32 a })

/-- The meaning of SET_RIGHTS (R44, R46, Table 2.7): before ZHP 3.0 arg3 is ignored and the axis rights follow the MOT
block right (Table 2.8). Bits of arg0 and arg1 above the 14 block rows, and of arg3 above bit 15, complete BAD_ARG (DESIGN CHOICE,
log entry 163). -/
def execSetRights (c : CtxId) (y : Submission) (s : State) : Host.Outcome State Fault Refusal :=
  let z := s.ctxs[c].zhp
  let ax := if 0x30 ≤ z then y.arg 3 % 2 ^ 16 else
    b2n (bitN (y.arg 0) 8) * 0xFF + b2n (bitN (y.arg 1) 8) * 0xFF00
  .next (s.admin c { op := 0x02, since := 0x20, kinds := [7], slotted := false, args := [0, 1, 2, 3] } y
    [refuseIf (y.unit = 0) stBadArg 0,
     refuseIf (c.val ≠ 0) stDenied 0,
     refuseIf (2 ^ 14 ≤ y.arg 0) stBadArg 1,
     refuseIf (2 ^ 14 ≤ y.arg 1) stBadArg 2,
     refuseIf (0x30 ≤ z && 2 ^ 16 ≤ y.arg 3) stBadArg 4]
    (fun t =>
      let u : CtxId := ⟨y.unit % 8, Nat.mod_lt _ (by decide)⟩
      ((t.giveRights u (rightsBlkOf (y.arg 0) (y.arg 1)) (y.arg 2) ax).journal
        { jentry 12 0 c.val with cmd := y.cid.toNat, target := y.target.toNat, new := y.arg 0 }, okRes 0 0)))

/-- The meaning of GET_RIGHTS (R55): the rights of another context need the HIF block read right (log entry 30). -/
def execGetRights (c : CtxId) (y : Submission) (s : State) : Host.Outcome State Fault Refusal :=
  .next (s.admin c { op := 0x03, since := 0x20, kinds := [7], slotted := false, args := [] } y
    [refuseIf (y.unit ≠ c.val && !(s.ctxs[c]).blk 0 false) stDenied 0]
    (fun t =>
      let x := t.ctxs[(⟨y.unit % 8, Nat.mod_lt _ (by decide)⟩ : CtxId)]
      (t, { status := stOk, r0 := rightsMask x.rightsBlk.toNat 0 + 2 ^ 16 * rightsMask x.rightsBlk.toNat 1,
            r1 := x.rightsPort.toNat, detail := x.rightsAxis.toNat % 2 ^ 16 })))

/-! ### The rings (R47, R48, R51, R52) -/

/-- A ring stops with ERR 2 and raises RING_ERROR (R48, R51). -/
def State.ringError (s : State) (c : CtxId) : State :=
  (s.updCtx c (fun x => { x with err := 2 })).raise (mgtSrc (5 * c.val + 4)) []

/-- ENABLE written 1 starts the rings, or leaves ENABLE at 0 with ERR 1 for a bad base or size (R47); written 0 it stops
them (log entry 31). ERR stays until RESET; while it is 2 nothing starts (R51, log entry 167). -/
def State.ctlEnable (s : State) (c : CtxId) (en : Bool) : State :=
  let sq := s.rf c.val Off.HIF_AQ_SIZE 3 0
  let cq := s.rf c.val Off.HIF_AQ_SIZE 11 8
  if !en then s.updCtx c (fun x => { x with enable := false })
  else if s.ctxs[c].enable || s.ctxs[c].err == 2 then s
  else if s.eff c.val Off.HIF_ASQ_BASE_LO % 4096 ≠ 0 ∨ s.eff c.val Off.HIF_ACQ_BASE_LO % 4096 ≠ 0 ∨ sq < 4 ∨ 12 < sq ∨
      cq < 4 ∨ 12 < cq then
    s.updCtx c (fun x => { x with err := 1 })
  else
    s.updCtx c (fun x => { x with enable := true, bells := [], sqTail := 0, sqHead := 0, cqHead := 0, cqNext := 0, phase := true })

/-- RESET ends the session (R52): unread submissions are discarded, ENABLE and ERR clear, no version is negotiated;
selections, snapshot and rights stay. Head and tail of both rings return to 0 and the phase to 1, as they do when ENABLE goes from 0 to 1
(DESIGN CHOICE, log entry 31: the spec gives no values). -/
def State.ctlReset (s : State) (c : CtxId) : State :=
  s.updCtx c (fun x => { x with enable := false, err := 0, bells := [], zhp := 0, sqTail := 0, sqHead := 0, cqHead := 0, cqNext := 0, phase := true })

/-- The submission doorbell (R51): it takes its place among the doorbells of all contexts (R50). A doorbell written while ENABLE is 0
or the ring is stopped is ignored (DESIGN CHOICE, log entry 162). -/
def State.asqTail (s : State) (c : CtxId) (v : Nat) : State :=
  let x := s.ctxs[c]
  let size := 2 ^ s.rf c.val Off.HIF_AQ_SIZE 3 0
  let i := fld v 11 0
  if !x.enable || x.err == 2 then s
  else if size ≤ i ∨ (x.sqHead + size - 1 - x.sqTail) % size < (i + size - x.sqTail) % size then s.ringError c
  else s.updCtx c (fun z => { z with
    sqTail := i, bells := if i = x.sqTail then z.bells else z.bells ++ [(s.nextBell, (i + size - x.sqTail) % size)] })

/-- The completion-head doorbell (R48). One written while ENABLE is 0 or the ring is stopped is ignored (DESIGN CHOICE, log
entry 162). -/
def State.acqHead (s : State) (c : CtxId) (v : Nat) : State :=
  let x := s.ctxs[c]
  let size := 2 ^ s.rf c.val Off.HIF_AQ_SIZE 11 8
  let i := fld v 11 0
  if !x.enable || x.err == 2 then s
  else if size ≤ i ∨ (x.cqNext + size - x.cqHead) % size < (i + size - x.cqHead) % size then s.ringError c
  else s.updCtx c (fun z => { z with cqHead := i })

/-- HIF_AQ_STATUS as it reads now. -/
def Ctx.status (x : Ctx) : Nat := x.err * 2 ^ 18 + b2n (x.enable && x.err != 2) * 2 ^ 16 + x.sqHead

end Sys2Proof.Machine
end

