-- ==== Sys2Proof/Config.lean ====
section
/-! DEFINITION. What an implementation fixes and the spec leaves open: the free values. Each is an opaque constant applied
to plain data of the state, so that nothing can be proved of its value (log entry 2). -/

namespace Sys2Proof.Config

/-- A free 32-bit value, numbered by the state's counter `free`. -/
opaque freeWord : Nat → Word

/-- A free number below 2^w, numbered by the state's counter. -/
opaque freeNat : Nat → Nat → Nat

/-- The 16 detail bytes of a journal entry (Table 15.6, offset 0x2C: "Detail of the kind"), by its sequence number. -/
opaque journalDetail : Nat → List Byte

/-- Whether entries `e` and `e'` of a table (0 shading, 1 defect map) lie in one row of its memory (R171). -/
opaque sameRow : Nat → Nat → Nat → Bool

/-- The response to a management message whose format a published standard gives (DSP0236, DSP0248, DSP0267), by bus, request, what it
reports of the device, and counter. -/
opaque mctpResponse : Nat → List Byte → PldmView → Nat → List Byte

/-- The bits of configuration space to which the spec gives no value, by offset (R37). -/
opaque pciOther : Nat → Word

end Sys2Proof.Config
end

