-- ==== Sys2Proof/Machine/AuxAnalog.lean ====
section
/-! DEFINITION. The auxiliary analog unit (ch. 13): scans, bridge excitation, results, injected conversions, calibration. -/

namespace Sys2Proof.Machine

/-- Changes the unit. -/
def State.updAux (s : State) (f : AuxSt → AuxSt) : State := { s with aux := f s.aux }

/-- Changes a channel. -/
def State.updCh (s : State) (c : Fin 32) (f : AuxCh → AuxCh) : State :=
  s.updAux (fun x => { x with chans := x.chans.set c (f x.chans[c]) })

/-- Changes an excitation. -/
def State.updExc (s : State) (n : Fin 8) (f : ExcSt → ExcSt) : State :=
  s.updAux (fun x => { x with exc := x.exc.set n (f x.exc[n]) })

/-- A channel by number. -/
def auxCh (c : Nat) : Fin 32 := ⟨c % 32, Nat.mod_lt _ (by decide)⟩

/-- Channels 0 to 7 are bridges (R340). -/
def isBridge (c : Fin 32) : Bool := c.val < 8

/-- The range code in force. -/
def AuxCh.g (x : AuxCh) : Nat := fld x.cfg 2 0
/-- REF in force. -/
def AuxCh.ref (x : AuxCh) : Bool := bitN x.cfg 3
/-- AVG in force, 1 to 8. -/
def AuxCh.avg (x : AuxCh) : Nat := max 1 (min 8 (fld x.cfg 7 4))
/-- The length nn of the boxcar (R348). -/
def AuxCh.nn (x : AuxCh) : Nat := 2 ^ x.avg
/-- SHIFT in force, 0 to 8. -/
def AuxCh.shift (x : AuxCh) : Nat := min 8 (fld x.cfg 11 8)

/-- The code of AXA for a voltage in nV at range `g`, before saturation (R341). -/
def codeA (va : Int) (g : Nat) : Int := (131072 * va * 2 ^ g).fdiv 2500000000
/-- The code of AXB for a voltage in nV, before saturation (R341). -/
def codeB (vb : Int) : Int := (131072 * vb).fdiv 4000000000
/-- The saturation of both converters. -/
def sat18 (x : Int) : Int := satI x (-131072) 131071
/-- The saturation of a result. -/
def sat32 (x : Int) : Int := satI x (-2147483648) 2147483647

/-! ### Calibration (R353, R354) -/

/-- Ends the running calibration step with a result. -/
def State.calEnd (s : State) (k : AuxCal) (result : Nat) : State :=
  let s1 := s.updAux (fun x => { x with cal := none })
  let s2 := ((s1.setRf 0 Off.AUX_CAL_STAT 31 31 0).setRf 0 Off.AUX_CAL_STAT 18 16 result).setRf 0 Off.AUX_CAL_STAT 8 0 k.taken
  s2.raise (auxSrc 36) [(8, k.ch), (8, result), (8, s2.rf 0 Off.AUX_CAL_STAT 30 30)]

/-- A capture of channel `c` that runs ends ABORTED, and no coefficient changes (R354). -/
def State.calAbort (s : State) (c : Nat) : State :=
  match s.aux.cal with
  | some k => if k.ch = c then s.calEnd k 5 else s
  | none => s

/-- The offset of a channel at a range. -/
def ofsOff (c g : Nat) : Nat := Off.AUX_COEF_OFS + 64 * c + 8 * g
/-- The gain of a channel at a range. -/
def gainOff (c g : Nat) : Nat := Off.AUX_COEF_GAIN + 64 * c + 8 * g

/-- The end of a step that has taken all its results: the zero, or the coefficients (R353). A negative gain is not stated, and
is a free value (log entry 91). -/
def State.calFinish (s : State) (k : AuxCal) : State :=
  let m := k.sum.fdiv (2 ^ k.log)
  if k.step = 0 then
    let s1 := ((s.updAux (fun x => { x with zero := some (k.ch, k.g, m) })).setReg 0 Off.AUX_CAL_Z (twos 32 m)).setRf 0
      Off.AUX_CAL_STAT 29 29 1
    s1.calEnd k 0
  else
    match s.aux.zero with
    | none => s.calEnd k 6
    | some (_, _, z) =>
      let span := m - z
      if span ≤ 0 then s.calEnd k 2
      else
        let tgt := sgn 32 (s.eff 0 Off.AUX_CAL_TGT)
        let gn : Int := (tgt * 2 ^ 30 + span.fdiv 2).fdiv span
        if gn > 2 ^ 32 - 1 then s.calEnd k 3
        else
          let r : State × Nat := if gn < 0 then (s.tickFree, (Config.freeWord s.free).toNat) else (s, gn.toNat)
          ((r.1.setReg 0 (ofsOff k.ch k.g) (twos 32 z)).setReg 0 (gainOff k.ch k.g) r.2).calEnd k 0

/-- A running step takes a raw result of its channel, unless it still waits for injections or the result is excluded. -/
def State.calFeed (s : State) (c : Nat) (raw : Int) (excluded : Bool) : State :=
  match s.aux.cal with
  | none => s
  | some k =>
    if k.ch ≠ c || !k.wait.isEmpty || excluded then s
    else
      let k1 := { k with taken := k.taken + 1, sum := k.sum + raw }
      let s1 := (s.updAux (fun x => { x with cal := some k1 })).setRf 0 Off.AUX_CAL_STAT 8 0 k1.taken
      if k1.taken = 2 ^ k1.log then s1.calFinish k1 else s1

/-- An injection of slot `n` has completed: a step that waits for it waits no longer. -/
def State.calInjDone (s : State) (n : Nat) : State :=
  s.updAux (fun x => { x with cal := x.cal.map (fun k => { k with wait := k.wait.filter (fun m => m ≠ n) }) })

/-- GO (R353): ignored while BUSY. -/
def State.calGo (s : State) : State :=
  if s.aux.cal.isSome then s
  else
    let ch := s.rf 0 Off.AUX_CAL_CTL 4 0
    let step := s.rf 0 Off.AUX_CAL_CTL 5 5
    let l := s.rf 0 Off.AUX_CAL_CTL 11 8
    let log := if 1 ≤ l ∧ l ≤ 8 then l else 4
    let g := (s.aux.chans[auxCh ch]).g
    let wait := (List.range 4).filter (fun i => if h : i < 4 then (s.aux.inj[i]'h).isSome else false)
    let k : AuxCal := { wait := wait, step := step, ch := ch, g := g, log := log, taken := 0, sum := 0 }
    let base := s.rf 0 Off.AUX_CAL_STAT 29 29 * 2 ^ 29 + ch * 2 ^ 24 + g * 2 ^ 21
    if !bitN s.aux.mask ch then (s.setReg 0 Off.AUX_CAL_STAT base).calEnd k 4
    else if step = 1 && !(s.aux.zero.any (fun z => z.1 == ch && z.2.1 == g)) then (s.setReg 0 Off.AUX_CAL_STAT base).calEnd k 6
    else
      (s.updAux (fun x => { x with cal := some k })).setReg 0 Off.AUX_CAL_STAT
        (2 ^ 31 + b2n (!wait.isEmpty) * 2 ^ 30 + base + 2 ^ 16)

/-! ### Results (R348 to R350) -/

/-- The filter of a channel restarts (R349), which ends a capture of it (R354). -/
def State.auxRestart (s : State) (c : Fin 32) : State :=
  (s.updCh c (fun x => { x with kept := [], settle := x.nn })).calAbort c.val

/-- The coefficients applied to a raw value (R348). -/
def State.calibrated (s : State) (c g : Nat) (v : Int) : Int :=
  sat32 (((v - sgn 32 (s.eff 0 (ofsOff c g))) * (s.eff 0 (gainOff c g) : Int) + 2 ^ 29).fdiv (2 ^ 30))

/-- The ratiometric value of sums sa and sb against a limit, and whether it is EXC_LOW; a division by 0 is not stated and gives a
free value (log entry 91). -/
def State.ratio (s : State) (sa sb : Int) (g lim : Nat) : State × Int × Bool :=
  if sb.natAbs < lim then (s, 0, true)
  else if sb = 0 then (s.tickFree, sgn 32 (Config.freeWord s.free).toNat, false)
  else (s, sat32 ((sa * 5 * 2 ^ (28 - g)).fdiv sb), false)

/-- The HI word of a result. -/
def resHi (injected blanked calibrated clipped ov low rng settling : Bool) (g seq : Nat) : Nat :=
  2 ^ 31 + b2n injected * 2 ^ 26 + b2n blanked * 2 ^ 25 + b2n calibrated * 2 ^ 24 + b2n clipped * 2 ^ 23 + b2n ov * 2 ^ 22 +
    b2n low * 2 ^ 21 + b2n rng * 2 ^ 20 + b2n settling * 2 ^ 19 + g % 8 * 2 ^ 16 + seq % 65536

/-- An input (a, b) of a channel's filter yields a result (R348, R350). -/
def State.auxResult (s : State) (c : Fin 32) (a b : Int) : State :=
  let x := s.aux.chans[c]
  let kept := ((a, b) :: x.kept).take x.nn
  let cnt := kept.length
  let sa := (kept.map (fun e => e.1)).sum
  let sb := (kept.map (fun e => e.2)).sum
  let lim := cnt * s.rf 0 Off.AUX_EXC_MIN 16 0 * (if isBridge c then 2 else 1)
  let r : State × Int × Bool :=
    if isBridge c || x.ref then s.ratio sa sb x.g lim
    else (s, sat32 (((sa * x.nn).fdiv cnt).fdiv (2 ^ x.shift)), false)
  let calen := bitN x.cfg 12
  let v := if calen then s.calibrated c.val x.g r.2.1 else r.2.1
  let off := Off.AUX_RES_LO + 8 * c.val
  let seq := (s.eff 0 (off + 4) + 1) % 65536
  let settling := 0 < x.settle
  let hi := resHi false false calen x.clip x.ov r.2.2 x.rngChg settling x.g seq
  let s1 := ((r.1.setReg 0 off (twos 32 v)).setReg 0 (off + 4) hi).updCh c (fun y =>
    { y with kept := kept, settle := y.settle - 1, rngChg := false, ov := false, clip := false })
  let s2 := if bitN x.cfg 16 then s1.raise (auxSrc c.val) [(8, c.val), (16, seq)] else s1
  s2.calFeed c.val r.2.1 (settling || x.rngChg || r.2.2)

/-- The result of an injected conversion of a channel by slot `n` (R352). Its flags are those of its own sample, and its limit
that of one half (log entry 92). -/
def State.injResult (s : State) (n : Fin 4) (c : Fin 32) (a b : Int) (clip ov blanked : Bool) : State :=
  let x := s.aux.chans[c]
  let r : State × Int × Bool :=
    if isBridge c || x.ref then s.ratio a b x.g (s.rf 0 Off.AUX_EXC_MIN 16 0)
    else (s, sat32 ((a * x.nn).fdiv (2 ^ x.shift)), false)
  let calen := bitN x.cfg 12
  let v := if calen then s.calibrated c.val x.g r.2.1 else r.2.1
  let off := Off.AUX_INJ_RES_LO + 16 * n.val
  let seq := (s.eff 0 (off + 4) + 1) % 65536
  let s1 := (r.1.setReg 0 off (twos 32 v)).setReg 0 (off + 4) (resHi true blanked calen clip ov r.2.2 false false x.g seq)
  (s1.calInjDone n.val).raise (auxSrc (32 + n.val)) [(8, n.val), (8, c.val)]

/-! ### Scans (R343) -/

/-- A scan start takes up AUX_CHc of one channel: a new range, AVG, SHIFT or REF restarts its filter, and a new range drops a
zero that is held for it (R343, R349, R354). -/
def State.takeCfg (s : State) (c : Fin 32) : State :=
  let w := s.eff 0 (Off.AUX_CH + 4 * c.val)
  let x := s.aux.chans[c]
  let y := { x with cfg := w }
  let rng := x.g ≠ y.g
  let other := x.avg ≠ y.avg || x.shift ≠ y.shift || (!isBridge c && x.ref ≠ y.ref)
  let s1 := s.updCh c (fun z => { z with cfg := w, rngChg := z.rngChg || rng })
  let s2 : State :=
    if rng && s.aux.zero.any (fun z => z.1 == c.val) then
      (s1.updAux (fun z => { z with zero := none })).setRf 0 Off.AUX_CAL_STAT 29 29 0
    else s1
  if rng || other then s2.auxRestart c else s2

/-- The scan mode; 3 is taken as 0. -/
def State.scanMode (s : State) : Nat := s.rf 0 Off.AUX_SCAN_CTL 1 0 % 3

/-- A scan starts: the settings of every channel and the mask come into force; a capture of a channel that leaves the mask
ends ABORTED (R354). A scan of no channel ends at once. -/
def State.scanStart (s : State) : State :=
  let m := s.eff 0 Off.AUX_SCAN_MASK
  let s1 := (List.finRange 32).foldl State.takeCfg s
  let s2 : State := match s1.aux.cal with
    | some k => if bitN m k.ch then s1 else s1.calEnd k 5
    | none => s1
  s2.updAux (fun x => { (if m ≠ 0 then x.wake s.now else x) with mask := m, scan := maskList 32 m, running := decide (m ≠ 0) })

/-- Whether a scan starts by itself when none runs: continuous, or a periodic one that waits, while MASK is not 0. -/
def State.scanNext (s : State) : State :=
  if s.aux.running || s.eff 0 Off.AUX_SCAN_MASK = 0 then s
  else if s.scanMode = 1 then s.scanStart
  else if s.scanMode = 2 && s.aux.due then (s.updAux (fun x => { x with due := false })).scanStart
  else s

/-- A write of 1 to START: one scan in mode 0, unless one runs (R343). -/
def State.scanGo (s : State) : State := if s.scanMode = 0 && !s.aux.running then s.scanStart else s

/-- The period of mode 2 in ns; PERIOD 0 is taken as 1. -/
def State.scanPeriod (s : State) : Nat := 1000 * max 1 (s.rf 0 Off.AUX_SCAN_PERIOD 23 0)

/-- SCAN_DUE at time `t`: in mode 2 a scan is due every AUX_SCAN_PERIOD microseconds, counted from the last that was due (log entry 200); one
that is due while another runs waits, and is late (R343). -/
def execScanDue (t : Nat) (s : State) : Host.Outcome State Fault Refusal :=
  let s := s.at t
  .next (if s.scanMode ≠ 2 || s.eff 0 Off.AUX_SCAN_MASK = 0 || decide (s.now < s.aux.lastDue + s.scanPeriod) then s
    else
    let s := s.updAux (fun x => { x with lastDue := s.now })
    if s.aux.running then
      let s1 := (s.incRf 0 Off.AUX_SCAN_STAT 31 16 1).updAux (fun x => { x with due := true })
      s1.raise (auxSrc 39) [(16, s1.rf 0 Off.AUX_SCAN_STAT 31 16)]
    else s.scanStart)

/-! ### Conversion steps (R341, R346, R352) -/

/-- Whether a sample of an excitation taken at time `t` is blanked (R346). -/
def State.blanked (s : State) (n : Fin 8) (t : Nat) : Bool :=
  t < (s.aux.exc[n]).swap + 1000 * s.rf 0 (Off.AUX_EXC_BLANK + 16 * n.val) 15 0

/-- The samples (a, b) of bridge channel `n` enter the sums of the half in force, unless they are blanked (R346). -/
def State.excSum (s : State) (n : Fin 8) (t : Nat) (a b : Int) : State :=
  if (s.aux.exc[n]).on && !s.blanked n t then
    s.updExc n (fun x =>
      if x.neg then { x with negS := (x.negS.1 + a, x.negS.2.1 + b, x.negS.2.2 + 1) }
      else { x with pos := (x.pos.1 + a, x.pos.2.1 + b, x.pos.2.2 + 1) })
  else s

/-- The injections that are pending, lowest slot first. -/
def State.injPending (s : State) : List Nat :=
  (List.range 4).filter (fun i => if h : i < 4 then (s.aux.inj[i]'h).isSome else false)

/-- A conversion of channel `c`: the codes, whether either was saturated, and whether a clamp conducts. -/
def State.convert (s : State) (c : Fin 32) (va vb : Int) : Int × Int × Bool × Bool :=
  let x := s.aux.chans[c]
  let a := codeA va x.g
  let useB := isBridge c || x.ref
  let b := if useB then codeB vb else 0
  (sat18 a, sat18 b, sat18 a ≠ a || sat18 b ≠ b, x.clampP || x.clampN)

/-- A step that runs injection slot `n`. -/
def State.injStep (s : State) (n : Fin 4) (rest : List Nat) (va vb : Int) : State :=
  let s0 := s.updAux (fun x => { x with inj := x.inj.set n none, batch := rest })
  match s.aux.inj[n] with
  | none => s0
  | some ch =>
    let c := auxCh ch
    let r := s.convert c va vb
    let bl := if h : c.val < 8 then s.blanked ⟨c.val, h⟩ s.now else false
    s0.injResult n c r.1 r.2.1 r.2.2.1 r.2.2.2 bl

/-- A step that runs channel `c` of the scan; the scan ends with its last channel, and pending injections come next. -/
def State.scanStep (s : State) (c : Fin 32) (rest : List Nat) (va vb : Int) : State :=
  let r := s.convert c va vb
  let s1 := s.updCh c (fun x => { x with clip := x.clip || r.2.2.1, ov := x.ov || r.2.2.2 })
  let s2 : State := if h : c.val < 8 then s1.excSum ⟨c.val, h⟩ s.now r.1 r.2.1 else s1.auxResult c r.1 r.2.1
  let s3 := s2.updAux (fun x => { x with scan := rest, running := !rest.isEmpty })
  (s3.updAux (fun x => { x with batch := s3.injPending })).scanNext

/-- The end of a conversion step (R344): with PD the converters power down where no step or injected conversion is due. -/
def State.stepEnd (s : State) : State :=
  if s.rf 0 Off.AUX_SCAN_CTL 8 8 = 1 ∧ !s.aux.running ∧ s.injPending.isEmpty then s.updAux (fun x => { x with down := true }) else s

/-- PD cleared: converters that are powered down start up (R344, log entry 189). -/
def State.pdWrite (s : State) : State := if s.rf 0 Off.AUX_SCAN_CTL 8 8 = 0 then s.updAux (fun x => x.wake s.now) else s

/-- AUX_STEP: a conversion step whose samples, of `va` and `vb` nV, are taken at `t` (log entry 93), 200 ns after the step begins: the next
pending injection, or the next channel of the scan. No step begins before the start-up after a power-down has ended (R344). -/
def execAuxStep (t : Nat) (va vb : Int) (s : State) : Host.Outcome State Fault Refusal :=
  let s := s.at t
  let batch := if s.aux.batch.isEmpty && !s.aux.running then s.injPending else s.aux.batch
  .next (if s.aux.down || s.now < s.aux.upAt + 200 then s
    else match batch with
    | n :: rest => (s.injStep ⟨n % 4, Nat.mod_lt _ (by decide)⟩ rest va vb).stepEnd
    | [] =>
      match s.aux.scan with
      | c :: rest => (s.scanStep (auxCh c) rest va vb).stepEnd
      | [] => s)

/-! ### Excitation (R345 to R347) -/

/-- HALF as it is used: saturated into 25 to 500,000 microseconds. -/
def State.excHalf (s : State) (n : Fin 8) : Nat := max 25 (min 500000 (s.eff 0 (Off.AUX_EXC_HALF + 16 * n.val)))

/-- BLANK ≥ HALF (R346): the channel yields no result. -/
def State.excErr (s : State) (n : Fin 8) : Bool := s.excHalf n ≤ s.rf 0 (Off.AUX_EXC_BLANK + 16 * n.val) 15 0

/-- The swap to positive: AMP and HALF come into force, and a change of them, or EN just set, restarts the filter (R345, R349). -/
def State.swapPos (s : State) (n : Fin 8) (fresh : Bool) : State :=
  let x := s.aux.exc[n]
  let amp := s.rf 0 (Off.AUX_EXC_CFG + 16 * n.val) 9 0
  let half := s.excHalf n
  let s1 := s.updExc n (fun y => { y with on := true, amp := amp, half := half, neg := false, swap := s.now, pos := (0, 0, 0), negS := (0, 0, 0) })
  let s2 := s1.setRf 0 (Off.AUX_EXC_STAT + 16 * n.val) 0 0 0
  if fresh || x.amp ≠ amp || x.half ≠ half then s2.auxRestart ⟨n.val, by omega⟩ else s2

/-- What the excitation drives from AXn_EXCN to AXn_EXCP, in units of 3.3 V / 1,023 (R345): +A in the positive half, −A in the negative
half, with A = AMP of those units; 0 while EN is 0. -/
def State.excLevel (s : State) (n : Fin 8) : Int :=
  let x := s.aux.exc[n]
  if x.on then (if x.neg then -x.amp else x.amp) else 0

/-- After a write of AUX_EXCn_CFG: EN set makes the first swap at once, EN cleared drives both pins to 0 V (R345). After a thermal trip no
excitation goes on (R412). -/
def State.excWrite (s : State) (n : Fin 8) : State :=
  let en := s.rf 0 (Off.AUX_EXC_CFG + 16 * n.val) 31 31 = 1 && !s.clk.tripped
  let x := s.aux.exc[n]
  if en && !x.on then s.swapPos n true
  else if !en && x.on then
    (s.updExc n (fun y => { y with on := false, neg := false, pos := (0, 0, 0), negS := (0, 0, 0) })).setRf 0
      (Off.AUX_EXC_STAT + 16 * n.val) 0 0 0
  else s

/-- The end of a period (R346): a value for the filter, or EMPTY. -/
def State.excPeriod (s : State) (n : Fin 8) : State :=
  let x := s.aux.exc[n]
  let p := x.pos
  let m := x.negS
  if p.2.2 = 0 ∨ m.2.2 = 0 ∨ s.excErr n then s.incRf 0 (Off.AUX_EXC_STAT + 16 * n.val) 31 16 1
  else
    s.auxResult ⟨n.val, by omega⟩ (p.1.fdiv p.2.2 - m.1.fdiv m.2.2) (p.2.1.fdiv p.2.2 - m.2.1.fdiv m.2.2)

/-- EXCITATION_SWAP: HALF microseconds after the last swap the excitation of bridge channel `n` changes its half at `t`; the swap to positive
ends a period. -/
def execExcitationSwap (n : Fin 8) (t : Nat) (s : State) : Host.Outcome State Fault Refusal :=
  let s := s.at t
  let x := s.aux.exc[n]
  .next (if !x.on || decide (s.now < x.swap + 1000 * x.half) then s
    else if x.neg then (s.excPeriod n).swapPos n false
    else (s.updExc n (fun y => { y with neg := true, swap := s.now })).setRf 0 (Off.AUX_EXC_STAT + 16 * n.val) 0 0 1)

/-- EXC_FAULT: the current of an excitation pin reaches its limit (R347). -/
def execExcFault (n : Fin 8) (s : State) : Host.Outcome State Fault Refusal :=
  .next ((s.setRf 0 (Off.AUX_EXC_STAT + 16 * n.val) 2 2 1).raise (auxSrc 38) [(8, n.val)])

/-- EXC_CURRENT_BELOW_LIMIT: FAULT clears (R347). -/
def execExcCurrentBelowLimit (n : Fin 8) (s : State) : Host.Outcome State Fault Refusal :=
  .next (s.setRf 0 (Off.AUX_EXC_STAT + 16 * n.val) 2 2 0)

/-! ### Over-voltage (R342) -/

/-- The clamps of a channel conduct or not; AUX_OV_ACT follows. -/
def State.auxClamp (s : State) (c : Fin 32) (neg on : Bool) : State :=
  let s1 := s.updCh c (fun x => if neg && isBridge c then { x with clampN := on } else { x with clampP := on })
  let y := s1.aux.chans[c]
  s1.setRf 0 Off.AUX_OV_ACT c.val c.val (b2n (y.clampP || y.clampN))

/-- AUX_OVERVOLT: the clamp of a pin of channel `ch` begins to conduct (`neg`: the N pin of a bridge). -/
def execAuxOvervolt (ch : Fin 32) (neg : Bool) (s : State) : Host.Outcome State Fault Refusal :=
  .next (((s.auxClamp ch neg true).setRf 0 Off.AUX_OV ch.val ch.val 1).raise (auxSrc 37) [(8, ch.val)])

/-- AUX_CLAMP_STOPS_CONDUCTING: the clamp of a pin stops conducting; the sticky flag stays. -/
def execAuxClampStopsConducting (ch : Fin 32) (neg : Bool) (s : State) : Host.Outcome State Fault Refusal :=
  .next (s.auxClamp ch neg false)

/-- A write to AUX_OV: the flags written 1 clear, and those of clamps that still conduct are set again at once. -/
def State.auxOvClear (s : State) (v : Nat) : State :=
  s.setReg 0 Off.AUX_OV ((BitVec.ofNat 32 (s.eff 0 Off.AUX_OV) &&& ~~~BitVec.ofNat 32 v) |||
    (BitVec.ofNat 32 (s.eff 0 Off.AUX_OV_ACT))).toNat

/-- ABORT of AUX_CAL_CTL (R354). -/
def State.auxCalAbort (s : State) : State :=
  match s.aux.cal with
  | some k => s.calEnd k 5
  | none => s

end Sys2Proof.Machine
end

