-- ==== Sys2Proof/Machine/Gear.lean ====
section
/-! DEFINITION. The arithmetic of gear units, pacing and the seam measure (spec/11_triggering_and_splice.md, R288 to R311):
exact integers, on plain values. -/

namespace Sys2Proof.Machine

/-- Sign extension of bits 47:0 (R288). -/
def sext48 (x : Int) : Int := sgn 48 (twos 48 x)

/-- Whether a ratio value is allowed (R296): i32, other than 0 and -2^31. -/
def ratioOk (num den : Int) : Bool :=
  num != 0 && den != 0 && decide (-(2 ^ 31) < num) && decide (num < 2 ^ 31) && decide (-(2 ^ 31) < den) && decide (den < 2 ^ 31)

/-- The direction d of a ratio (R288). -/
def ratioDir (num den : Int) : Int := num.sign * den.sign

/-- An anchor and a ratio: s_a, k_a, r_a, NUM and DEN (R288). -/
structure Anchor where
  sA : Int
  kA : Int
  rA : Int
  num : Int
  den : Int
  deriving DecidableEq, Repr

/-- Forward travel t since the anchor (R288). -/
def Anchor.travel (a : Anchor) (src : Int) : Int := ratioDir a.num a.den * sext48 (src - a.sA)

/-- t * |num| + r_a. -/
def Anchor.lam (a : Anchor) (src : Int) : Int := a.travel src * a.num.natAbs + a.rA

/-- The highest line position reached at source count `src` (R288). -/
def Anchor.line (a : Anchor) (src : Int) : Int := a.kA + a.lam src / a.den.natAbs

/-- The remainder of that division. -/
def Anchor.rem (a : Anchor) (src : Int) : Int := a.lam src % a.den.natAbs

/-- The re-anchor of R297 at source count `x` with a new ratio. -/
def Anchor.reanchor (a : Anchor) (x num den : Int) (align : Bool) : Anchor :=
  let kx := a.line x
  let f := a.rem x
  if align then { sA := x, kA := if 0 < f then kx + 1 else kx, rA := 0, num := num, den := den }
  else { sA := x, kA := kx, rA := f * den.natAbs / a.den.natAbs, num := num, den := den }

/-- GEAR_REANCHOR (R292): where |t| exceeds 2^46 the unit re-anchors with no change of ratio. -/
def Anchor.renew (a : Anchor) (src : Int) : Anchor :=
  if 2 ^ 46 < (a.travel src).natAbs then { a with sA := src, kA := a.line src, rA := a.rem src } else a

/-- The first line position at or after the re-anchor count (R300). -/
def Anchor.firstLine (a : Anchor) : Int := if a.rA = 0 then a.kA else a.kA + 1

/-- The latched fraction of a line beyond k (R301). -/
def Anchor.frac (a : Anchor) (src : Int) : Nat := (65536 * (a.lam src - (a.line src - a.kA) * a.den.natAbs) / a.den.natAbs).toNat

/-- The anchor of a port's gear unit. -/
def LtgSt.anchor (x : LtgSt) : Anchor := { sA := x.sA, kA := x.kA, rA := x.rA, num := x.num, den := x.den }

/-- The anchor of a grid. -/
def Grid.anchor (x : Grid) : Anchor := { sA := x.sA, kA := x.kA, rA := x.rA, num := x.num, den := x.den }

/-- The present grid, with the lines ticked on it. -/
def LtgSt.grid (x : LtgSt) : Grid :=
  { first := x.gridFrom, last := x.lastLine, sA := x.sA, kA := x.kA, rA := x.rA, num := x.num, den := x.den }

/-- The grid on which lines have been ticked is kept when another anchor takes its place. -/
def LtgSt.keepGrid (x : LtgSt) : LtgSt :=
  if x.ticked ∧ x.gridFrom ≤ x.lastLine then { x with past := x.past ++ [x.grid], gridFrom := x.lastLine + 1 } else x

/-- Replaces a port's anchor. -/
def LtgSt.setAnchor (x : LtgSt) (a : Anchor) : LtgSt :=
  let y := if a = x.anchor then x else x.keepGrid
  { y with sA := a.sA, kA := a.kA, rA := a.rA, num := a.num, den := a.den }

/-- `ceil` of a non-negative rational. -/
def ceilRat (n d : Nat) : Nat := if d = 0 then 0 else (n + d - 1) / d

/-- The stop distance of R305 and R306 as a fraction: v^2/(2 dd) + v * k / 200000 (+ v * dd / (2 jj)), where `k` is 1 for a
planned stop and 2 for the check. The result is (numerator, denominator). -/
def stopDist (v dd jj k : Nat) : Nat × Nat :=
  -- common denominator 200000 * 2 * dd * jj' with jj' = jj or 1
  let d := max dd 1
  if jj = 0 then (v * v * 200000 + v * k * 2 * d, 2 * d * 200000)
  else (v * v * 200000 * jj + v * k * 2 * d * jj + v * d * 200000 * d, 2 * d * 200000 * jj)

/-- The lines of R306: ceil(dist * e * |num| / |den|) + 3, with e = eN / eD encoder counts per microstep. -/
def stopLines (v dd jj : Nat) (eN eD : Nat) (num den : Int) : Nat :=
  let ds := stopDist v dd jj 2
  ceilRat (ds.1 * eN * num.natAbs) (ds.2 * eD * den.natAbs) + 3

/-- The leader in lines: floor(LEADER * e * |NUM| / |DEN|) (R306). -/
def leaderLines (leader eN eD : Nat) (num den : Int) : Nat := leader * eN * num.natAbs / (max (eD * den.natAbs) 1)

/-! ### The seam measure (R310) -/

/-- Sum of absolute differences of two profiles. -/
def sadOf : List Nat → List Nat → Nat
  | a :: s, b :: t => (if a ≤ b then b - a else a - b) + sadOf s t
  | _, _ => 0

/-- e[dl] of R310: `o` the overlap profiles by i, `kept` the kept profiles by line minus (n_last - kk - 3);
`free` where no term gives it. -/
def seamE (kk : Nat) (o kept : List (List Nat)) (dl : Int) (free : Nat) : Nat :=
  -- j = n_last - kk + 1 + i + dl has index j - (n_last - kk - 3) = i + dl + 4
  let terms := (List.range kk).filterMap (fun (i : Nat) =>
    let idx : Int := Int.ofNat i + dl + 4
    if idx < (kk : Int) + 4 then some (sadOf (o.getD i []) (kept.getD idx.toNat [])) else none)
  let c := 256 * terms.length
  if c = 0 then free else terms.sum * 64 / c

/-- The offset and score of a seam from the nine values e[-4] to e[4] (R310). -/
def seamResult (e : List Nat) : Int × Nat :=
  let at_ (d : Int) : Int := Int.ofNat (e.getD (d + 4).toNat 0)
  let order : List Int := [0, -1, 1, -2, 2, -3, 3, -4, 4]
  let dm := order.foldl (fun best d => if at_ d < at_ best then d else best) 0
  let e0 := at_ dm
  let f : Int :=
    if dm = -4 ∨ dm = 4 then 0
    else
      let den := at_ (dm - 1) - 2 * e0 + at_ (dm + 1)
      if den ≤ 0 then 0 else satI ((16 * (at_ (dm - 1) - at_ (dm + 1)) + den) / (2 * den)) (-8) 8
  let em : Int := Int.ofNat (e.sum / 9)
  let score : Int := if em = 0 then 0 else satI (65535 * (em - e0) / em) 0 65535
  (16 * dm + f, score.toNat)

/-- The continuity field: offset in bits 15:0, score in bits 31:16 (R361, R310). -/
def contField (r : Int × Nat) : Nat := twos 16 r.1 + r.2 * 2 ^ 16

/-- The 256 bins of a profile (R310): `xs` the samples of the plane slot. -/
def profileOf (xs : List Nat) (zs bw shift : Nat) : List Nat :=
  (List.range 256).map (fun b => min (((xs.drop (zs + b * bw)).take bw).sum / 2 ^ shift) 65535)

end Sys2Proof.Machine
end

