-- ==== Sys2Proof/Machine/Axis.lean ====
section
/-! DEFINITION. One axis: the profile generator, the axis gear, microstepping, standstill, stops and the driver
(spec/12_motion_axes.md, R313 to R338), as operations on an axis and on the state. -/

namespace Sys2Proof.Machine

/-- Axis `a`. -/
def State.axis (s : State) (a : AxisId) : AxisSt := s.axes[a]

/-- Changes axis `a`. -/
def State.updAxis (s : State) (a : AxisId) (f : AxisSt → AxisSt) : State := { s with axes := s.axes.set a (f s.axes[a]) }

/-- Unit number of an axis register (SEL_AXIS). -/
def State.arf (s : State) (a : AxisId) (off hi lo : Nat) : Nat := s.rf a.val off hi lo

/-! ### Arithmetic (R317, R318) -/

/-- The floor of a square root, bit by bit from bit `k - 1`. -/
def isqrtGo (n : Nat) : Nat → Nat → Nat
  | 0, r => r
  | k + 1, r => isqrtGo n k (if (r + 2 ^ k) * (r + 2 ^ k) ≤ n then r + 2 ^ k else r)

/-- isqrt of R318. -/
def isqrt (n : Nat) : Nat := isqrtGo n 64 0

/-- A speed in microsteps/s as 2^-32 microstep per motion tick (R317). -/
def speedT (v : Nat) : Nat := v * 2 ^ 32 / 200000

/-- An acceleration in the same units per tick (R317). -/
def accT (a : Nat) : Nat := a * 2 ^ 32 / 40000000000

/-- m of R317. -/
def avgLen (shape dec jerk : Nat) : Nat :=
  if shape = 0 then 1 else max 1 (min 4096 ((dec * 200000 + jerk - 1) / max jerk 1))

/-- A profile parameter saturated into Table 12.4. -/
def parRange (par v : Nat) : Nat :=
  match par with
  | 0 => max 1 (min v 8000000)
  | 1 | 2 | 3 => max 1000 (min v 4000000000)
  | 4 => max 1 (min v 4000000000)
  | 5 => min v 1
  | 6 => min v 2047
  | _ => min v 255

/-- The target in the stage's units. -/
def AxisSt.xt (x : AxisSt) : Int := x.target * 2 ^ 32

/-- The deceleration of the stage: sd_t in a stop with SDEC, else d (R318). -/
def AxisSt.decT (x : AxisSt) : Nat := if x.move = .stop true then accT x.sdec else accT x.dec

/-- The highest speed at which the stage can still come to rest `rem` further on (R318, R320). -/
def brakeSpeed (d rem : Nat) : Nat := max (isqrt (d * d + 2 * d * rem) - d) (min rem d)

/-- One motion tick of the trapezoid stage (R318). A bound of none is infinite. A stage that turns round at rest goes on: its phase is accel
again (log entry 187). -/
def AxisSt.stage (x : AxisSt) : AxisSt :=
  let d := x.decT
  let rem0 := x.s * (x.xt - x.p)
  -- direction and rem of a position move
  let s1 : Int :=
    match x.move with
    | .position => if x.v = 0 ∧ rem0 < 0 then -x.s else x.s
    | .velocity dir => if x.s ≠ dir ∧ x.v = 0 then dir else x.s
    | .stop _ => x.s
  let rem := s1 * (x.xt - x.p)
  let vb : Option Nat :=
    match x.move with
    | .stop _ => some 0
    | .velocity dir => if x.s ≠ dir ∧ x.v ≠ 0 then some 0 else none
    | .position => if rem < 0 then some 0 else some (brakeSpeed d rem.toNat)
  let vmaxT := speedT (x.vmaxMove.getD x.vmax)
  let held := x.decel && decide (s1 = x.s)
  let vc := if held then x.v else if x.v ≤ vmaxT then min (x.v + accT x.acc) vmaxT else max (x.v - d) vmaxT
  let decel := held || (match vb with | some b => decide (b < vc) | none => false)
  let vn0 := max (match vb with | some b => min vc b | none => vc) (x.v - d)
  let vn := if x.move = .position ∧ 0 ≤ rem then min vn0 rem.toNat else vn0
  { x with p := x.p + s1 * vn, v := vn, s := s1, decel := decel, hist := (x.p :: x.hist).take x.m }

/-- q of R319: the average over the last m ticks. -/
def AxisSt.q (x : AxisSt) : Int := Int.fdiv (x.p + (x.hist.take (x.m - 1)).sum) ((x.hist.take (x.m - 1)).length + 1)

/-- The way of the average over the last motion tick, times m. -/
def AxisSt.way (x : AxisSt) : Int := x.p - x.hist.getD (x.m - 1) x.p

/-- The averaged axis runs at per-tick speed `v` in direction `dir` (R304, R319): every one of the last m ticks did. -/
def AxisSt.runsAt (x : AxisSt) (v : Nat) (dir : Int) : Bool := decide (x.v = v ∧ x.s = dir ∧ x.way = dir * (v * x.m : Nat))

/-- The stage and the average are at rest. -/
def AxisSt.still (x : AxisSt) : Bool := x.v == 0 && (x.hist.take (x.m - 1)).all (fun h => h == x.p)

/-- At rest, with no move that has still to go anywhere. -/
def AxisSt.atRest (x : AxisSt) : Bool :=
  x.still && (match x.move with
    | .stop _ => true
    | .position => x.p == x.xt
    | .velocity _ => decide (x.vmaxMove = some 0))

/-- The profile position in microsteps. -/
def AxisSt.profile (x : AxisSt) : Int := Int.fdiv x.q (2 ^ 32)

/-- b + c of the gear unit (R323). -/
def AxisSt.gearOut (x : AxisSt) : Int := x.gBase + x.gC

/-- A new move starts (R318): phase accel; a deferred DEC takes effect and its flag clears (R320). -/
def AxisSt.start (x : AxisSt) (mv : AxMove) (vlim : Option Nat) : AxisSt :=
  { x with move := mv, vmaxMove := vlim, decel := false, dec := x.decNext.getD x.dec, decNext := none }

/-- A stop (R318): a velocity move to rest. -/
def AxisSt.stopWith (x : AxisSt) (sdec : Bool) : AxisSt := { x with move := .stop sdec, decel := true }

/-- A forced release hands the gear's last per-tick velocity to the trapezoid stage (R323). -/
def AxisSt.forceRelease (x : AxisSt) : AxisSt :=
  if x.geared then
    { x with geared := false, gBase := x.gBase + x.gC, gC := 0, gVel := 0,
             v := x.gVel.natAbs * 2 ^ 32, s := if 0 ≤ x.gVel then 1 else -1 }
  else x

/-- The commanded position becomes `pos` at rest (SETPOS, R335 step 4): the stage and the average take it up at once; the
reference pair follows (R332). -/
def AxisSt.place (x : AxisSt) (pos : Int) : AxisSt :=
  let t := pos - x.gearOut
  { x with p := t * 2 ^ 32, hist := x.hist.map (fun _ => t * 2 ^ 32), target := t, pos := pos, prevPos := pos,
           move := .stop false, v := 0, p0 := pos, e0 := x.enc }

/-- The anchor of the axis's gear unit, in the format of all gear units (R288, R296). -/
def AxisSt.gearAnchor (x : AxisSt) : Anchor := { sA := x.gAnchor, kA := x.gLine, rA := x.gRem, num := x.gNum, den := x.gDen }

/-- The contribution c at master count `s` (R323): frozen in the base while no gear is engaged. -/
def AxisSt.gearAt (x : AxisSt) (s : Int) : Int := if x.geared then x.gearAnchor.line s else 0

/-- GEAR engage (R323) with master count `s` and present contribution `c`: no jump in position. -/
def AxisSt.engage (x : AxisSt) (m : Nat) (s c num den : Int) : AxisSt :=
  { x with gBase := x.gBase + c, gC := 0, gAnchor := s, gLine := 0, gRem := 0, gMaster := m, gNum := num, gDen := den, geared := true }

/-- The gear unit at a motion tick with master count `s` (R296, R323): where its travel exceeds 2^46 it re-anchors (R292). -/
def AxisSt.gearTick (x : AxisSt) (s : Int) : AxisSt :=
  let g := if x.geared then x.gearAnchor.renew s else x.gearAnchor
  let c := x.gearAt s
  { x with gAnchor := g.sA, gLine := g.kA, gRem := g.rA, gC := c, gVel := if x.geared then x.gBase + c - x.gOut else 0,
           gOut := x.gBase + c }

/-- Master count m, signed. -/
def State.master (s : State) (m : Nat) : Int := sgn 48 (s.pair 0 (Off.MOT_MCNT0_LO + 8 * (m % 2)))

/-- The commanded microstep at device time `now`: between two ticks the sequencer moves evenly from one commanded
position to the next (R319). -/
def State.axisPos (s : State) (a : AxisId) : Int :=
  let x := s.axis a
  let dt := min (s.now - s.mot.tickTime) 5000
  x.prevPos + Int.fdiv ((x.pos - x.prevPos) * (dt : Nat)) 5000

/-! ### Microsteps (R324) -/

/-- T[j] of a microstep table; T[256] is 4,095. `m` holds the entries that differ from the table at power-on. -/
def mstepAt (d : Nat → Word) (m : List (Nat × Word)) (a j : Nat) : Nat := if j = 256 then 4095 else fld (mget d m (256 * a + j)).toNat 11 0

/-- The phase index i at commanded microstep `pos` (R324). -/
def AxisSt.index (x : AxisSt) (pos : Int) : Nat := ((pos + (x.phi : Nat)) % 1024).toNat

/-- The amplitudes of windings A and B for the index i, `t` being the table in force (Table of R324). -/
def amplitudes (t : Nat → Nat) (i : Nat) : Int × Int :=
  let j := i % 256
  let a : Int := Int.ofNat (t j)
  let b : Int := Int.ofNat (t (256 - j))
  match i / 256 with
  | 0 => (a, b)
  | 1 => (b, -a)
  | 2 => (-a, -b)
  | _ => (-b, a)

/-- The current I in sense codes (R324, R329). -/
def AxisSt.current (x : AxisSt) : Nat := if x.holdCur then x.irun * x.ihold / 256 else x.irun

/-- The target current of an amplitude. -/
def targetCurrent (amp : Int) (i : Nat) : Int := amp.sign * (amp.natAbs * i / 4095 : Nat)

/-! ### Driver (R330) -/

/-- The driver goes off: An_EN and the gate outputs low, o cleared; position, target and HOMED are kept. -/
def AxisSt.driverOff (x : AxisSt) : AxisSt :=
  { x with enabled := false, wind := x.wind.map (fun w => { w with drive := false, o := 0, sigma := 0 }) }

/-- The driver goes on: the reference pair is taken (R332), KEEP decides the phase. -/
def AxisSt.driverOn (x : AxisSt) (keep : Bool) : AxisSt :=
  let y := { x with enabled := true, p0 := x.pos, e0 := x.enc }
  if keep then y else { y with phi := ((-x.pos) % 1024).toNat, homed := false }

/-! ### Events and ends -/

/-- Homing ends with a result (R335, R336). -/
def State.endHome (s : State) (a : AxisId) (result : Nat) : State :=
  if (s.axis a).home.isSome then
    (s.updAxis a (fun x => { x with home := none })).setRf a.val Off.MOT_STAT 26 24 result
  else s

/-- A source of R315 above the engine stops an axis: homing ends with result 4, the gear is released by force, and the
stage stops (R323, R335, R337, R338). -/
def State.axisStop (s : State) (a : AxisId) (sdec : Bool) : State :=
  (s.endHome a 4).updAxis a (fun x => x.forceRelease.stopWith sdec)

/-- A stop that holds the profile generator until the next UNIT_START (R315 source 3, R337); while STOP_IN_L is active its stop with
SDEC goes first (source 1). -/
def State.axisHold (s : State) (a : AxisId) (sdec : Bool) : State :=
  (s.axisStop a (sdec || s.mot.stopOn)).updAxis a (fun x => { x with held := some sdec })

/-- The axis of a unit number from 16 to 23. -/
def axisOfUnit (u : UnitId) : AxisId := ⟨u.val % 8, Nat.mod_lt _ (by decide)⟩

/-- The pacing unit of a group returns to IDLE (R311). -/
def State.paceIdle (s : State) (g : GroupId) : State :=
  ({ s with mot := { s.mot with paces := s.mot.paces.set g { s.mot.paces[g] with st := 0 } } }).setRf 0
    (Off.MOT_GRP_STAT + 0x40 * g.val) 2 0 0

/-- The pacing units whose pacing axis is `a` go to IDLE (R311: the pacing axis leaves RUNNING). -/
def State.paceLeave (s : State) (a : AxisId) : State :=
  (List.finRange 4).foldl (fun t g =>
    if t.rf 0 (Off.MOT_GRP_PACE + 0x40 * g.val) 2 0 = a.val ∧ t.mot.paces[g].st ≠ 0 then t.paceIdle g else t) s

/-- UNIT_STOP with arg0 = 0, HALT (R74, R293, R337): a port ends capture and drains, and halts at once if it has had both
drain ticks; an armed gear change is cleared (R300). An axis stops with DEC and halts at rest. -/
def State.drainUnit (s : State) (u : UnitId) : State :=
  if (s.unit u).st ≠ .running then s
  else if h : u.val < 16 then
    let p : PortId := ⟨u.val, h⟩
    let s1 := (s.setPortState p .draining 5).clearGearArm p
    if (s1.port p).ltg.ticked && decide ((s1.port p).ltg.drains < 2) then s1 else s1.haltPort p 6
  else
    let a := axisOfUnit u
    ((s.setUState u .draining 5).axisHold a false).paceLeave a

end Sys2Proof.Machine
end

