-- ==== Sys2Proof/Machine/Flags.lean ====
section
/-! DEFINITION. The results and flags of the common arithmetic of ZSC (R63, R67, R68). -/

namespace Sys2Proof.Machine

/-- A result with the flags Z, N, C and V that go with it (R63). -/
structure FlagRes where
  r : Word
  z : Bool
  n : Bool
  c : Bool
  v : Bool
  deriving DecidableEq, Repr

/-- Z and N of the result, with C and V given. -/
def flagRes (r : Word) (c v : Bool) : FlagRes := { r := r, z := r == 0, n := r.msb, c := c, v := v }

/-- ADD and ADC: C is the carry out of bit 31, V the signed overflow. -/
def addRes (a b : Word) (cin : Bool) : FlagRes :=
  let t := a.toNat + b.toNat + b2n cin
  let x := a.toInt + b.toInt + (b2n cin : Nat)
  flagRes (BitVec.ofNat 32 t) (2 ^ 32 ≤ t) (x < -(2 ^ 31) || 2 ^ 31 ≤ x)

/-- SUB, SBC and CMP with a borrow in: C is 1 when no borrow occurred, V the signed overflow. -/
def subRes (a b : Word) (bin : Bool) : FlagRes :=
  let x := a.toInt - b.toInt - (b2n bin : Nat)
  flagRes (BitVec.ofInt 32 x) (b.toNat + b2n bin ≤ a.toNat) (x < -(2 ^ 31) || 2 ^ 31 ≤ x)

/-- Instructions that set C and V to 0. -/
def logicRes (r : Word) : FlagRes := flagRes r false false

/-- SHL: C is the last bit shifted out, 0 for a shift of 0. -/
def shlRes (a : Word) (n : Nat) : FlagRes := flagRes (a <<< n) (n ≠ 0 && a.getLsbD (32 - n)) false

/-- SHR: C is the last bit shifted out, 0 for a shift of 0. -/
def shrRes (a : Word) (n : Nat) : FlagRes := flagRes (a >>> n) (n ≠ 0 && a.getLsbD (n - 1)) false

/-- SAR: C is the last bit shifted out, 0 for a shift of 0. -/
def sarRes (a : Word) (n : Nat) : FlagRes := flagRes (a.sshiftRight n) (n ≠ 0 && a.getLsbD (n - 1)) false

/-- MULH: the high word of the signed product. -/
def mulhRes (a b : Word) : FlagRes := logicRes (BitVec.ofInt 32 (a.toInt * b.toInt / 2 ^ 32))

/-- MIN, signed. -/
def minRes (a b : Word) : FlagRes := logicRes (if a.toInt ≤ b.toInt then a else b)

/-- MAX, signed. -/
def maxRes (a b : Word) : FlagRes := logicRes (if a.toInt ≤ b.toInt then b else a)

/-- SATS: n := b[4:0] + 1, saturation to n signed bits. -/
def satsRes (a b : Word) : FlagRes :=
  let n := b.toNat % 32 + 1
  logicRes (BitVec.ofInt 32 (satI a.toInt (-(2 ^ (n - 1))) (2 ^ (n - 1) - 1)))

/-- SATU: n := b[4:0] + 1, saturation of a signed a to n unsigned bits. -/
def satuRes (a b : Word) : FlagRes :=
  let n := b.toNat % 32 + 1
  logicRes (BitVec.ofInt 32 (satI a.toInt 0 (2 ^ n - 1)))

/-- The number of leading zeros of the low `n` bits of `b`. -/
def clzGo (b : Word) : Nat → Nat
  | 0 => 0
  | n + 1 => if b.getLsbD n then 0 else 1 + clzGo b n

/-- CLZ: 0 to 32. -/
def clzRes (b : Word) : FlagRes := logicRes (BitVec.ofNat 32 (clzGo b 32))

end Sys2Proof.Machine
end

