-- ==== Sys2Proof/Machine/Operands.lean ====
section
/-! DEFINITION. Operands of ZSC instructions: registers, the second operand b, conditions, unused fields (R62, R64, R65,
R67). -/

namespace Sys2Proof

/-- ext bit 0 (I) selects the second operand (R67). -/
def ZscFields.isImm (f : ZscFields) : Bool := f.ext.getLsbD 0

/-- ext bit 1 (F) makes the instruction set flags (R67). -/
def ZscFields.setsFlags (f : ZscFields) : Bool := f.ext.getLsbD 1

end Sys2Proof

namespace Sys2Proof.Machine

/-- General register `r`: g0 reads as 0 (R62). -/
def Eng.get (e : Eng) (r : BitVec 4) : Word := if r = 0 then 0 else e.g[r.toNat]

/-- Writes general register `r`: a write to g0 is discarded (R62). -/
def Eng.set (e : Eng) (r : BitVec 4) (v : Word) : Eng := if r = 0 then e else { e with g := e.g.set r.toNat v }

/-- The second operand: g[rb] when I = 0, imm when I = 1 (R67). -/
def Eng.opB (e : Eng) (f : ZscFields) : Word := if f.isImm then f.imm else e.get f.rb

/-- The condition of Table 3.3; code 15 is reserved and never true. -/
def Eng.condTrue (e : Eng) (c : BitVec 4) : Bool :=
  match c.toNat with
  | 0 => true
  | 1 => e.z
  | 2 => !e.z
  | 3 => e.c
  | 4 => !e.c
  | 5 => e.n
  | 6 => !e.n
  | 7 => e.v
  | 8 => !e.v
  | 9 => e.c && !e.z
  | 10 => !e.c || e.z
  | 11 => e.n == e.v
  | 12 => e.n != e.v
  | 13 => !e.z && e.n == e.v
  | 14 => e.z || e.n != e.v
  | _ => false

/-- Which fields an instruction uses; the others must be 0 (R65). `ext` is the mask of ext bits it uses, `b` says that
ext bit 0 selects between rb and imm. -/
structure Uses where
  rd : Bool := false
  ra : Bool := false
  rb : Bool := false
  imm : Bool := false
  b : Bool := false
  ext : Byte := 0
  deriving DecidableEq, Repr

/-- Every unused field is 0 (R65, R67). -/
def Uses.ok (u : Uses) (f : ZscFields) : Bool :=
  (u.rd || f.rd == 0) && (u.ra || f.ra == 0) &&
  (u.rb || (u.b && !f.isImm) || f.rb == 0) && (u.imm || (u.b && f.isImm) || f.imm == 0) && (f.ext &&& ~~~u.ext) == 0

/-- The high word of an instruction: opcode, condition, registers and ext (Table 3.4). -/
def hiWord (op : Nat) (f : ZscFields) : Word :=
  BitVec.ofNat 32 (op * 2 ^ 24 + f.cond.toNat * 2 ^ 20 + f.rd.toNat * 2 ^ 16 + f.ra.toNat * 2 ^ 12 +
    f.rb.toNat * 2 ^ 8 + f.ext.toNat)

/-- The opcodes that an engine of a kind accepts: the common opcodes of Table 3.6, those of its own kind, and the trap
opcodes (R66, Table 3.5). -/
def opAccepted (kind op : Nat) : Bool :=
  decide (op ≤ 0x14) || op == 0x18 || op == 0x19 || (decide (0x20 ≤ op) && decide (op ≤ 0x24)) || op == 0x28 ||
  op == 0x29 || (decide (0x30 ≤ op) && decide (op ≤ 0x32)) || op == 0x3F || decide (0xE0 ≤ op) ||
  (match kind with
   | 0 => decide (0x40 ≤ op) && decide (op ≤ 0x46)
   | 1 => (decide (0x80 ≤ op) && decide (op ≤ 0x85)) || (decide (0x88 ≤ op) && decide (op ≤ 0x8D)) || op == 0x9F
   | 2 => decide (0xA0 ≤ op) && decide (op ≤ 0xAA)
   | _ => op == 0xC0 || op == 0xC1 || op == 0xC2 || op == 0xC4 || op == 0xC8 || op == 0xC9)

/-- The fields of an instruction word below its opcode (Table 3.4). -/
def fieldsOf (w : DWord) : ZscFields :=
  { cond := w.extractLsb' 52 4, rd := w.extractLsb' 48 4, ra := w.extractLsb' 44 4, rb := w.extractLsb' 40 4,
    ext := w.extractLsb' 32 8, imm := w.extractLsb' 0 32 }

/-- The opcode of an instruction word (Table 3.4). -/
def opOf (w : DWord) : Nat := (w.extractLsb' 56 8).toNat

end Sys2Proof.Machine
end

