-- ==== Sys2Proof/Machine/Zsc.lean ====
section
/-! DEFINITION. The common instructions of Zelore sequencer code (spec/03_sequencer_code.md, R61 to R78): one shared
operation that takes an engine through an instruction, and the meaning of each common instruction. -/

namespace Sys2Proof.Machine

/-- What an engine is (Table 3.1): 0 gate, 1 pipe, 2 axis, 3 script. -/
def engKind (e : EngId) : Nat := if e.val < 16 then 0 else if e.val < 32 then 1 else if e.val < 40 then 2 else 3

/-- The number of an engine within its kind. -/
def engIndex (e : EngId) : Nat := if e.val < 32 then e.val % 16 else if e.val < 40 then e.val - 32 else e.val - 40

/-- Instructions in the engine's instruction memory (Table 3.1). -/
def imemSize (kind : Nat) : Nat := if kind = 0 then 4096 else 2048

/-- The unit that owns a gate, pipe or axis engine (R61). -/
def engUnit (e : EngId) : UnitId := if e.val < 32 then ⟨e.val % 16, by omega⟩ else ⟨16 + (e.val - 32) % 8, by omega⟩

/-- The program that an engine runs: of the slot `Eng.setup` of its unit. -/
def State.prog (s : State) (e : EngId) : Prog :=
  let sl := (s.unit (engUnit e)).slots[(s.eng e).setup % 8]
  if engKind e = 1 then sl.prog1 else sl.prog0

/-- The source of ENGINE_TRAP of an engine (Tables 14.1 to 14.3). -/
def trapSrc (e : EngId) : Nat :=
  match engKind e with
  | 0 => portSrc (engIndex e) 28
  | 1 => portSrc (engIndex e) 29
  | 2 => axisSrc (engIndex e) 1
  | _ => scriptSrc (engIndex e) 1

/-- ENGINE_TRAP (R75): the engine stops at the instruction with its state unchanged, records code, pc and argument and
raises the event; the trap waits for its classification (R76). A script channel halts with cause TRAP (R256). -/
def State.trap (s : State) (e : EngId) (code : Nat) (arg : Nat) : State :=
  let pc := (s.eng e).pc
  let s1 := s.updEng e (fun x => { x with run := .trapped, trapped := some (code, pc), trapArg := BitVec.ofNat 32 arg })
  if engKind e = 3 then
    let c := scriptOf e
    ((s1.scriptStop c .faulted 2).raise (trapSrc e) [(8, 2), (16, pc)]).detect
      { kind := 5, unit := c.val, code := 7, arg := e.val, arg2 := code, time := 0 }
  else
    let k := if engKind e = 2 then 2 else 1
    (s1.raise (trapSrc e) [(16, code), (16, pc)]).detect
      { kind := k, unit := engIndex e, code := 7, arg := e.val, arg2 := code, time := 0 }

/-- EXCESS (R83): a tick whose count exceeds the declared worst case stops the engine in that cycle; ENG_CYC_MAX holds the
count reached; the line it works on is dropped with cause CAPTURE or PROCESS; the unit is FAULTED with code 8. ENG_STATUS.STATE of
the stopped engine reads 0, idle (DESIGN CHOICE, log entry 168). -/
def State.excess (s : State) (e : EngId) : State :=
  let d := (s.prog e).declared
  let s1 := s.updEng e (fun x => { x with run := .idle, excess := true, cycMax := max x.cycMax (d + 1), cyc := d + 1 })
  let s2 := if engKind e = 0 then s1.dropLine ⟨engIndex e % 16, Nat.mod_lt _ (by decide)⟩ .capture 1
    else if engKind e = 1 then s1.dropLine ⟨engIndex e % 16, Nat.mod_lt _ (by decide)⟩ .process 2 else s1
  s2.detect { kind := if engKind e = 2 then 2 else 1, unit := engIndex e, code := 8, arg := e.val, arg2 := 0, time := 0 }

/-- Adds the cycles of an instruction to the tick's count; beyond the declared worst case the engine is stopped (R83).
A script's cycles are checked by nothing (R246). -/
def State.charge (s : State) (e : EngId) (cost : Nat) : State :=
  let t := s.updEng e (fun x => { x with cyc := x.cyc + cost })
  if engKind e ≠ 3 ∧ (s.prog e).declared < (s.eng e).cyc + cost then t.excess e else t

/-- Moves the pc, then charges the cycles. For a script the fetched instruction is used up. -/
def State.goto (s : State) (e : EngId) (pc cost : Nat) : State :=
  let s1 := s.updEng e (fun x => { x with pc := pc % 65536 })
  let s2 := if engKind e = 3 then s1.updScript (scriptOf e) (fun x => { x with fetched := none }) else s1
  s2.charge e cost

/-- The next instruction. -/
def State.advance (s : State) (e : EngId) (cost : Nat) : State := s.goto e ((s.eng e).pc + 1) cost

/-- A script engine has a transfer in progress: the next instruction starts when it is done (R247). -/
def State.transferring (s : State) (e : EngId) : Bool := engKind e == 3 && (s.script (scriptOf e)).xfer.isSome

/-- An engine executes an instruction with opcode `op` (R64 to R66): nothing while it does not run; trap ILLEGAL for
condition 15 or a non-zero unused field; with a false condition only the pc advances, for one cycle; otherwise `body`. A non-zero
unused field traps whatever the condition (DESIGN CHOICE, log entry 169). -/
def State.instr (s : State) (e : EngId) (op : Nat) (u : Uses) (f : ZscFields) (body : State → State) : State :=
  if (s.eng e).run ≠ .running ∨ s.transferring e then s
  else if !u.ok f || f.cond = 15 then s.trap e 1 (hiWord op f).toNat
  else if !(s.eng e).condTrue f.cond then s.advance e 1
  else body s

/-- An arithmetic result: the register, and the flags if the instruction sets them (R63, R67). -/
def State.setRes (s : State) (e : EngId) (rd : BitVec 4) (wr setFlags : Bool) (r : FlagRes) : State :=
  s.updEng e (fun x =>
    let y := if wr then x.set rd r.r else x
    if setFlags then { y with z := r.z, n := r.n, c := r.c, v := r.v } else y)

/-- An arithmetic or logic instruction of Table 3.6 with result `g[rd] := op a b`. -/
def State.alu (s : State) (e : EngId) (op : Nat) (f : ZscFields) (cost : Nat) (usesA : Bool)
    (res : Eng → Word → Word → FlagRes) : State :=
  s.instr e op { rd := true, ra := usesA, b := true, ext := 3 } f (fun t =>
    let x := t.eng e
    (t.setRes e f.rd true f.setsFlags (res x (x.get f.ra) (x.opB f))).advance e cost)

/-- The meaning of NOP. -/
def execNop (e : EngId) (f : ZscFields) (s : State) : Host.Outcome State Fault Refusal :=
  .next (s.instr e 0x00 {} f (fun t => t.advance e 1))

/-- The meaning of MOV: g[rd] := b. -/
def execMov (e : EngId) (f : ZscFields) (s : State) : Host.Outcome State Fault Refusal :=
  .next (s.alu e 0x01 f 1 false (fun _ _ b => logicRes b))

/-- The meaning of ADD. -/
def execAdd (e : EngId) (f : ZscFields) (s : State) : Host.Outcome State Fault Refusal :=
  .next (s.alu e 0x02 f 1 true (fun _ a b => addRes a b false))

/-- The meaning of ADC: a + b + C. -/
def execAdc (e : EngId) (f : ZscFields) (s : State) : Host.Outcome State Fault Refusal :=
  .next (s.alu e 0x03 f 1 true (fun x a b => addRes a b x.c))

/-- The meaning of SUB. -/
def execSub (e : EngId) (f : ZscFields) (s : State) : Host.Outcome State Fault Refusal :=
  .next (s.alu e 0x04 f 1 true (fun _ a b => subRes a b false))

/-- The meaning of SBC: a - b - (1 - C). -/
def execSbc (e : EngId) (f : ZscFields) (s : State) : Host.Outcome State Fault Refusal :=
  .next (s.alu e 0x05 f 1 true (fun x a b => subRes a b (!x.c)))

/-- The meaning of AND. -/
def execAnd (e : EngId) (f : ZscFields) (s : State) : Host.Outcome State Fault Refusal :=
  .next (s.alu e 0x06 f 1 true (fun _ a b => logicRes (a &&& b)))

/-- The meaning of OR. -/
def execOr (e : EngId) (f : ZscFields) (s : State) : Host.Outcome State Fault Refusal :=
  .next (s.alu e 0x07 f 1 true (fun _ a b => logicRes (a ||| b)))

/-- The meaning of XOR. -/
def execXor (e : EngId) (f : ZscFields) (s : State) : Host.Outcome State Fault Refusal :=
  .next (s.alu e 0x08 f 1 true (fun _ a b => logicRes (a ^^^ b)))

/-- The meaning of SHL: by b[4:0]. -/
def execShl (e : EngId) (f : ZscFields) (s : State) : Host.Outcome State Fault Refusal :=
  .next (s.alu e 0x09 f 1 true (fun _ a b => shlRes a (b.toNat % 32)))

/-- The meaning of SHR: by b[4:0], a unsigned. -/
def execShr (e : EngId) (f : ZscFields) (s : State) : Host.Outcome State Fault Refusal :=
  .next (s.alu e 0x0A f 1 true (fun _ a b => shrRes a (b.toNat % 32)))

/-- The meaning of SAR: by b[4:0], a signed. -/
def execSar (e : EngId) (f : ZscFields) (s : State) : Host.Outcome State Fault Refusal :=
  .next (s.alu e 0x0B f 1 true (fun _ a b => sarRes a (b.toNat % 32)))

/-- The meaning of MUL: the low word of the product. -/
def execMul (e : EngId) (f : ZscFields) (s : State) : Host.Outcome State Fault Refusal :=
  .next (s.alu e 0x0C f 2 true (fun _ a b => logicRes (a * b)))

/-- The meaning of MULH: the high word of the signed product. -/
def execMulh (e : EngId) (f : ZscFields) (s : State) : Host.Outcome State Fault Refusal :=
  .next (s.alu e 0x0D f 2 true (fun _ a b => mulhRes a b))

/-- The meaning of MIN, signed. -/
def execMin (e : EngId) (f : ZscFields) (s : State) : Host.Outcome State Fault Refusal :=
  .next (s.alu e 0x0E f 1 true (fun _ a b => minRes a b))

/-- The meaning of MAX, signed. -/
def execMax (e : EngId) (f : ZscFields) (s : State) : Host.Outcome State Fault Refusal :=
  .next (s.alu e 0x0F f 1 true (fun _ a b => maxRes a b))

/-- The meaning of SATS. -/
def execSats (e : EngId) (f : ZscFields) (s : State) : Host.Outcome State Fault Refusal :=
  .next (s.alu e 0x10 f 1 true (fun _ a b => satsRes a b))

/-- The meaning of SATU. -/
def execSatu (e : EngId) (f : ZscFields) (s : State) : Host.Outcome State Fault Refusal :=
  .next (s.alu e 0x11 f 1 true (fun _ a b => satuRes a b))

/-- A compare: flags always, no register (R67, R68). -/
def State.compare (s : State) (e : EngId) (op : Nat) (f : ZscFields) (res : Word → Word → FlagRes) : State :=
  s.instr e op { ra := true, b := true, ext := 3 } f (fun t =>
    let x := t.eng e
    (t.setRes e 0 false true (res (x.get f.ra) (x.opB f))).advance e 1)

/-- The meaning of CMP: flags of a - b. -/
def execCmp (e : EngId) (f : ZscFields) (s : State) : Host.Outcome State Fault Refusal :=
  .next (s.compare e 0x12 f (fun a b => subRes a b false))

/-- The meaning of TST: flags of a & b. -/
def execTst (e : EngId) (f : ZscFields) (s : State) : Host.Outcome State Fault Refusal :=
  .next (s.compare e 0x13 f (fun a b => logicRes (a &&& b)))

/-- The meaning of CLZ: leading zeros of b. -/
def execClz (e : EngId) (f : ZscFields) (s : State) : Host.Outcome State Fault Refusal :=
  .next (s.alu e 0x14 f 1 false (fun _ _ b => clzRes b))

/-- The effective address of LD and ST (R68): (a + imm)[31:0]. -/
def Eng.addr (x : Eng) (f : ZscFields) : Nat := (x.get f.ra + f.imm).toNat

/-- The word at word index `i` of parameter memory of slot `k`. -/
def Eng.paramWord (x : Eng) (k i : Nat) : Word := mget (fun _ => 0) x.param (4096 * k + i)

/-- The word at word index `i` of scratch. -/
def Eng.scratchWord (x : Eng) (i : Nat) : Word := mget (fun _ => 0) x.scratch i

/-- LD and ST take their space from ext[1:0]: ILLEGAL for space 2 or 3, for space 0 in a script channel and for a store to
space 0; MEM for an address out of range or not a multiple of 4 (R69). -/
def State.memAccess (s : State) (e : EngId) (op : Nat) (f : ZscFields) (store : Bool) (body : Nat → Nat → State → State) :
    State :=
  let sp := f.ext.toNat % 4
  let a := (s.eng e).addr f
  if 2 ≤ sp ∨ (sp = 0 ∧ (engKind e = 3 ∨ store)) then s.trap e 1 (hiWord op f).toNat
  else if a % 4 ≠ 0 ∨ (if sp = 0 then 16384 else 1024) ≤ a then s.trap e 2 a
  else body sp (a / 4) s

/-- The meaning of LD: a word of the current setup's parameter memory or of scratch (R69). -/
def execLd (e : EngId) (f : ZscFields) (s : State) : Host.Outcome State Fault Refusal :=
  .next (s.instr e 0x18 { rd := true, ra := true, imm := true, ext := 3 } f (fun t =>
    t.memAccess e 0x18 f false (fun sp i t =>
      let x := t.eng e
      let w := if sp = 0 then x.paramWord x.setup i else x.scratchWord i
      (t.updEng e (fun x => x.set f.rd w)).advance e 2)))

/-- The meaning of ST: a word of scratch (R69). -/
def execSt (e : EngId) (f : ZscFields) (s : State) : Host.Outcome State Fault Refusal :=
  .next (s.instr e 0x19 { ra := true, rb := true, imm := true, ext := 3 } f (fun t =>
    t.memAccess e 0x19 f true (fun _ i t =>
      (t.updEng e (fun x => { x with scratch := mput (fun _ => 0) i (x.get f.rb) x.scratch })).advance e 1)))

/-- A branch to an instruction index, two cycles; beyond a script's length it traps MEM (R70). -/
def State.branch (s : State) (e : EngId) (target : Nat) : State :=
  if engKind e = 3 ∧ s.scriptLen e ≤ target then s.trap e 2 target else s.goto e target 2

/-- The meaning of JMP. -/
def execJmp (e : EngId) (f : ZscFields) (s : State) : Host.Outcome State Fault Refusal :=
  .next (s.instr e 0x20 { imm := true } f (fun t => t.branch e (f.imm.toNat % 65536)))

/-- The meaning of JMPR. -/
def execJmpr (e : EngId) (f : ZscFields) (s : State) : Host.Outcome State Fault Refusal :=
  .next (s.instr e 0x21 { ra := true } f (fun t => t.branch e (((t.eng e).get f.ra).toNat % 65536)))

/-- A call: pushes pc + 1 on the link stack of four entries, or traps LINK (R70). -/
def State.call (s : State) (e : EngId) (target : Nat) : State :=
  let x := s.eng e
  if 4 ≤ x.link.length then s.trap e 4 4
  else if engKind e = 3 ∧ s.scriptLen e ≤ target then s.trap e 2 target
  else (s.updEng e (fun y => { y with link := ((y.pc + 1) % 65536) :: y.link })).goto e target 2

/-- The meaning of CALL. -/
def execCall (e : EngId) (f : ZscFields) (s : State) : Host.Outcome State Fault Refusal :=
  .next (s.instr e 0x22 { imm := true } f (fun t => t.call e (f.imm.toNat % 65536)))

/-- The meaning of CALLR. -/
def execCallr (e : EngId) (f : ZscFields) (s : State) : Host.Outcome State Fault Refusal :=
  .next (s.instr e 0x23 { ra := true } f (fun t => t.call e (((t.eng e).get f.ra).toNat % 65536)))

/-- The meaning of RET: pops the link stack, or traps LINK (R70). -/
def execRet (e : EngId) (f : ZscFields) (s : State) : Host.Outcome State Fault Refusal :=
  .next (s.instr e 0x24 {} f (fun t =>
    match (t.eng e).link with
    | [] => t.trap e 4 0
    | pc :: rest =>
      if engKind e = 3 ∧ t.scriptLen e ≤ pc then t.trap e 2 pc
      else (t.updEng e (fun x => { x with link := rest })).goto e pc 2))

/-- A loop counter named by rd[1:0]. -/
def Eng.setLc (x : Eng) (n : Nat) (v : Nat) : Eng := { x with lc := x.lc.set (n % 4) (BitVec.ofNat 16 v) (Nat.mod_lt _ (by decide)) }

/-- Loop counter `n`. -/
def Eng.getLc (x : Eng) (n : Nat) : Nat := (x.lc[n % 4]'(Nat.mod_lt _ (by decide))).toNat

/-- LSET and LEND must carry condition AL and name their counter in rd[1:0]: otherwise ILLEGAL (R65, R71, log entry 41). -/
def loopFieldsOk (f : ZscFields) : Bool := f.cond == 0 && f.rd.toNat < 4

/-- The meaning of LSET (R71). -/
def execLset (e : EngId) (f : ZscFields) (s : State) : Host.Outcome State Fault Refusal :=
  .next (s.instr e 0x28 { rd := true, ra := !f.isImm, imm := true, ext := 1 } f (fun t =>
    if !loopFieldsOk f then t.trap e 1 (hiWord 0x28 f).toNat
    else
      let bound := f.imm.toNat % 65536
      let count := if f.isImm then bound else ((t.eng e).get f.ra).toNat
      if !f.isImm && bound < count then t.trap e 3 count
      else if count = 0 then t.branch e ((f.imm.toNat / 65536 + 1) % 65536)
      else (t.updEng e (fun x => x.setLc f.rd.toNat count)).advance e 1))

/-- The meaning of LEND (R71): the counter falls by 1 in its 16 bits; not 0, back to imm[15:0] in two cycles. -/
def execLend (e : EngId) (f : ZscFields) (s : State) : Host.Outcome State Fault Refusal :=
  .next (s.instr e 0x29 { rd := true, imm := true } f (fun t =>
    if !loopFieldsOk f then t.trap e 1 (hiWord 0x29 f).toNat
    else
      let n := ((t.eng e).getLc f.rd.toNat + 65535) % 65536
      let target := f.imm.toNat % 65536
      if n = 0 then (t.updEng e (fun x => x.setLc f.rd.toNat n)).advance e 1
      else if engKind e = 3 ∧ t.scriptLen e ≤ target then t.trap e 2 target
      else (t.updEng e (fun x => x.setLc f.rd.toNat n)).goto e target 2))

/-- The end of a tick's work: ENG_CYC_LAST and ENG_CYC_MAX take the cycles, and the engine waits (R72, R83); a later tick is not the
first one after a cut (R73, CUTFLAG). -/
def Eng.endTick (x : Eng) : Eng :=
  { x with run := .waiting, cycLast := x.cyc, cycMax := max x.cycMax x.cyc, cutFlag := false }

/-- The meaning of TEND (R72): ILLEGAL in a script channel. -/
def execTend (e : EngId) (f : ZscFields) (s : State) : Host.Outcome State Fault Refusal :=
  .next (s.instr e 0x30 {} f (fun t =>
    if engKind e = 3 then t.trap e 1 (hiWord 0x30 f).toNat
    else
      let t1 := t.advance e 1
      if (t1.eng e).run = .running then t1.updEng e Eng.endTick else t1))

/-- The meaning of RAISE (R74, R252): PROGRAM_EVENT from the unit's source, with the code imm[15:0] and, but for a script
channel (Table 9.5), the pc (R361, Table 12.9). -/
def execRaise (e : EngId) (f : ZscFields) (s : State) : Host.Outcome State Fault Refusal :=
  .next (s.instr e 0x31 { imm := true } f (fun t =>
    let code := f.imm.toNat % 65536
    let pc := (t.eng e).pc
    let t1 := match engKind e with
      | 0 => t.raise (portSrc (engIndex e) 30) [(16, code), (16, pc)]
      | 1 => t.raise (portSrc (engIndex e) 31) [(16, code), (16, pc)]
      | 2 => t.raise (axisSrc (engIndex e) 2) [(16, code), (16, pc)]
      | _ => t.raise (scriptSrc (engIndex e) 3) [(16, code)]
    t1.advance e 1))

/-- The special values of RDS (R73, Table 3.7); none for an index not in the table. -/
def State.special (s : State) (e : EngId) (i : Nat) : Option Nat :=
  let x := s.eng e
  let script := engKind e = 3
  match i with
  | 0 => some (if script then 0 else x.line % 2 ^ 32)
  | 1 => some (if script then 0 else if engKind e = 2 then x.line / 2 ^ 32 % 2 ^ 32 else x.line / 2 ^ 32 % 2 ^ 16)
  | 2 => some (if script then 0 else x.setup % 8)
  | 3 => some (x.cyc % 2 ^ 32)
  | 4 => some ((if script then s.now else x.time) % 2 ^ 32)
  | 5 => some ((if script then s.now else x.time) / 2 ^ 32 % 2 ^ 32)
  | 6 => some (if script then 0 else twos 32 x.pos)
  | 7 => some (if script then 0 else twos 32 (sgn 48 (twos 48 x.pos) / 2 ^ 32))
  | 8 => some (engKind e * 16 + engIndex e)
  | 9 => some (if script then 0 else b2n x.cutFlag)
  | _ => none

/-- The meaning of RDS (R73). -/
def execRds (e : EngId) (f : ZscFields) (s : State) : Host.Outcome State Fault Refusal :=
  .next (s.instr e 0x32 { rd := true, ext := 0xFF } f (fun t =>
    match t.special e f.ext.toNat with
    | none => t.trap e 1 (hiWord 0x32 f).toNat
    | some v => (t.updEng e (fun x => x.set f.rd (BitVec.ofNat 32 v))).advance e 1))

/-- The meaning of HALT (R74): the unit that owns the engine drains and then halts; a script ends normally (R240). The
engine stays at the HALT, whose work for the tick ends there. -/
def execHalt (e : EngId) (f : ZscFields) (s : State) : Host.Outcome State Fault Refusal :=
  .next (s.instr e 0x3F {} f (fun t =>
    if engKind e = 3 then t.scriptDone (scriptOf e)
    else
      let t1 := t.charge e 1
      if (t1.eng e).run = .running then
        (t1.updEng e (fun x => { x.endTick with run := .halted })).drainUnit (engUnit e)
      else t1))

/-- The meaning of TRAP_OPCODE, opcode 0xE0 + k: with its condition true, trap SOFT 0x20 + k with argument imm (R75). -/
def execTrapOpcode (e : EngId) (k : Fin 32) (f : ZscFields) (s : State) : Host.Outcome State Fault Refusal :=
  .next (s.instr e (0xE0 + k.val) { imm := true } f (fun t => t.trap e (0x20 + k.val) f.imm.toNat))

/-- The meaning of ILLEGAL_OPCODE (R66): an engine that runs takes trap ILLEGAL on a word whose opcode it does not
accept; the argument is the word's bits 63:32. A word whose opcode it accepts is not this event, and changes nothing
(log entry 5). A word with an uncorrectable error takes trap PARITY with the index of the instruction (R75, Table 3.8, log entry
170). -/
def execIllegalOpcode (e : EngId) (w : Fetched) (s : State) : Host.Outcome State Fault Refusal :=
  .next (if (s.eng e).run ≠ .running ∨ s.transferring e then s
    else if w.parity then s.trap e 5 (s.eng e).pc
    else if opAccepted (engKind e) (opOf w.word) then s else s.trap e 1 (w.word.toNat / 2 ^ 32))

end Sys2Proof.Machine
end

