-- ==== Sys2Proof/Machine/Gate.lean ====
section
/-! DEFINITION. Gate engines, the edge queue and head descriptors (spec/04_gate_engines.md). -/

namespace Sys2Proof.Machine

/-! ### Clocks and windows (R106, R109, R402) -/

/-- CLK_PPLLn_FREQ of port `p`: f_t = FREQ * 100 MHz / 2^24. -/
def State.freq (s : State) (p : PortId) : Nat := s.eff 0 (Off.CLK_PPLL_FREQ + 0x10 * p.val)

/-- Whether the PLL of port `p` is locked. -/
def State.pllLock (s : State) (p : PortId) : Bool := s.rf 0 (Off.CLK_PPLL_STAT + 16 * p.val) 0 0 = 1

/-- LINE_PERIOD_MIN of port `p` in units of 10 ps, in force. -/
def State.pmin (s : State) (p : PortId) : Nat := s.eff p.val Off.PRT_LTG_PMIN

/-- `a / b` rounded up. -/
def ceilDiv (a b : Nat) : Nat := (a + b - 1) / b

/-- The line window W = floor(f_t * LINE_PERIOD_MIN), in timing cycles (R106). -/
def State.lineWindow (s : State) (p : PortId) : Nat := s.freq p * s.pmin p / (2 ^ 24 * 1000)

/-- The issue time c = ceil((j + 1) * f_t / 400 MHz) of an instruction that completes in gate cycle `j` (R109). -/
def State.issueTime (s : State) (p : PortId) (j : Nat) : Nat := ceilDiv ((j + 1) * s.freq p) (2 ^ 26)

/-- The taps that a mask names: the odd input of a pair in pair mode is ignored (R108). -/
def State.taps (s : State) (p : PortId) (mask : Nat) : List Nat :=
  (maskList 16 mask).filter (fun t => !(s.pairMode p t && t % 2 == 1))

/-- The mask of the taps that a mask names. -/
def State.tapMask (s : State) (p : PortId) (mask : Nat) : Nat := (s.taps p mask).foldl (fun a t => a + 2 ^ t) 0

/-- The width of strobe `q` for sub-line `k` in timing cycles (R116). -/
def State.strobeWidth (s : State) (p : PortId) (q k : Nat) : Nat :=
  s.rf p.val (Off.PRT_STRW0A + 8 * q + 4 * (k / 2)) (16 * (k % 2) + 15) (16 * (k % 2))

/-! ### Issue (R107 to R112) -/

/-- The reason of Table 4.6 that rejects an entry, first that applies; none where it is queued. `c` is the issue time,
`stop` the end stamp (exact, so it may lie before the start where a count is 0), `bad` the PARAM condition. -/
def State.rejects (s : State) (p : PortId) (c : Nat) (x : EdgeEntry) (stop : Int) (bad : Bool) : Option Nat :=
  let g := (s.port p).gate
  let ts := s.taps p x.mask
  let window := x.kind = 2 ∨ x.kind = 3
  if x.start < c + 8 then some 1
  else if (s.lineWindow p : Int) ≤ stop then some 2
  else if bad then some 3
  else if 64 ≤ g.queue.length then some 4
  else if window ∧ ts.any (fun t => g.spans.any (fun sp => sp.1 == t && sp.2.1 ≤ x.stop && x.start ≤ sp.2.2)) then some 5
  else if x.kind = 2 ∧ 65536 < g.samples + ts.length * x.count then some 6
  else none

/-- OCC and the high-water mark HWM of PRT_GQUEUE follow the queue. -/
def State.showQueue (s : State) (p : PortId) : State :=
  let n := (s.port p).gate.queue.length
  (s.setRf p.val Off.PRT_GQUEUE 6 0 n).setRf p.val Off.PRT_GQUEUE 14 8 (max n (s.rf p.val Off.PRT_GQUEUE 14 8))

/-- GATE_REJECT (R110): reason and pc are recorded, the event raised, the line dropped with cause CAPTURE. -/
def State.gateReject (s : State) (p : PortId) (reason pc : Nat) : State :=
  let s1 := (s.setReg p.val Off.PRT_GREJECT (2 ^ 31 + reason * 2 ^ 16 + pc)).incRf p.val Off.PRT_GQUEUE 31 16 1
  (s1.raise (portSrc p.val 4) [(8, reason), (16, pc)]).dropLine p .capture 1

/-- An entry joins the queue with the taps that its mask names (R108): its span and samples are counted (R109). -/
def State.enqueue (s : State) (p : PortId) (x : EdgeEntry) : State :=
  let ts := s.taps p x.mask
  let spans := if x.kind = 2 ∨ x.kind = 3 then ts.map (fun t => (t, x.start, x.stop)) else []
  (s.updPort p (fun y => { y with gate := { y.gate with
    queue := y.gate.queue ++ [{ x with mask := s.tapMask p x.mask }], spans := y.gate.spans ++ spans,
    samples := y.gate.samples + (if x.kind = 2 then ts.length * x.count else 0) } })).showQueue p

/-- An entry is rejected whole for a reason, or queued where there is none (R110). -/
def State.settle (s : State) (p : PortId) (x : EdgeEntry) (pc : Nat) (reason : Option Nat) : State :=
  match reason with
  | some r => s.gateReject p r pc
  | none => s.enqueue p x

/-- Issues an entry at its issue time (R109, R110). -/
def State.issue (s : State) (p : PortId) (x : EdgeEntry) (stop : Int) (bad : Bool) : State :=
  let e := s.eng (gateEng p)
  s.settle p x e.pc (s.rejects p (s.issueTime p (4 + e.cyc)) x stop bad)

/-- The start stamp S = (g[ra] + imm)[31:0] (R107). -/
def Eng.stamp (x : Eng) (f : ZscFields) : Nat := (x.get f.ra + f.imm).toNat

/-- An entry with nothing but its kind and start. -/
def blankEntry (kind start : Nat) : EdgeEntry :=
  { kind := kind, dest := 0, mask := 0, start := start, stop := start, level := false, period := 0, high := 0,
    count := 0, sub := 0 }

/-- The meaning of EDGE: pin ext[3:0] to level ext[4] at S. -/
def execEdge (p : PortId) (f : ZscFields) (s : State) : Host.Outcome State Fault Refusal :=
  .next (s.instr (gateEng p) 0x40 { ra := true, imm := true, ext := 0x1F } f (fun t =>
    let st := (t.eng (gateEng p)).stamp f
    (t.issue p { blankEntry 0 st with dest := f.ext.toNat % 16, level := f.ext.getLsbD 4 } st false).advance (gateEng p) 1))

/-- The meaning of BURST: N pulses of period P and high time H on pin ext[3:0]. -/
def execBurst (p : PortId) (f : ZscFields) (s : State) : Host.Outcome State Fault Refusal :=
  .next (s.instr (gateEng p) 0x41 { rd := true, ra := true, rb := true, imm := true, ext := 0x1F } f (fun t =>
    let x := t.eng (gateEng p)
    let st := x.stamp f
    let pd := (x.get f.rb).toNat % 65536
    let hi := (x.get f.rb).toNat / 65536
    let n := (x.get f.rd).toNat
    let stop : Int := (st : Int) + ((n : Int) - 1) * pd + hi
    (t.issue p { blankEntry 1 st with
      dest := f.ext.toNat % 16, level := !f.ext.getLsbD 4, period := pd, high := hi, count := n, stop := stop.toNat }
      stop (n == 0 || decide (pd < 2) || hi == 0 || decide (pd ≤ hi))).advance (gateEng p) 1))

/-- The shortest SAMPLE period for a mask (Table 4.6): too short for a tap of its mode. A mask that names no tap meets neither
bound (DESIGN CHOICE, log entry 173). -/
def State.periodShort (s : State) (p : PortId) (mask pd : Nat) : Bool :=
  (s.taps p mask).any (fun t => decide (pd < ceilDiv (s.freq p) (if s.pairMode p t then 2 ^ 27 else 2 ^ 26)))

/-- The meaning of SAMPLE: the masked taps take N samples of period P from S. -/
def execSample (p : PortId) (f : ZscFields) (s : State) : Host.Outcome State Fault Refusal :=
  .next (s.instr (gateEng p) 0x42 { rd := true, ra := true, rb := true, imm := true } f (fun t =>
    let x := t.eng (gateEng p)
    let st := x.stamp f
    let mask := (x.get f.rb).toNat % 65536
    let pd := (x.get f.rb).toNat / 65536
    let n := (x.get f.rd).toNat
    let stop : Int := (st : Int) + ((n : Int) - 1) * pd
    (t.issue p { blankEntry 2 st with mask := mask, period := pd, count := n, stop := stop.toNat } stop
      (n == 0 || t.periodShort p mask pd)).advance (gateEng p) 1))

/-- The meaning of CLAMP: the masked inputs are clamped from S for D cycles. -/
def execClamp (p : PortId) (f : ZscFields) (s : State) : Host.Outcome State Fault Refusal :=
  .next (s.instr (gateEng p) 0x43 { rd := true, ra := true, rb := true, imm := true } f (fun t =>
    let x := t.eng (gateEng p)
    let st := x.stamp f
    let d := (x.get f.rd).toNat
    (t.issue p { blankEntry 3 st with mask := (x.get f.rb).toNat % 65536, count := d, stop := st + d } (st + d : Nat)
      (d == 0)).advance (gateEng p) 1))

/-- The meaning of STROBE: Pn_Lq high from S for the width of sub-line k (R116). -/
def execStrobe (p : PortId) (f : ZscFields) (s : State) : Host.Outcome State Fault Refusal :=
  .next (s.instr (gateEng p) 0x44 { ra := true, imm := true, ext := 0x07 } f (fun t =>
    let st := (t.eng (gateEng p)).stamp f
    let q := f.ext.toNat % 2
    let k := f.ext.toNat / 2 % 4
    let w := t.strobeWidth p q k
    (t.issue p { blankEntry 4 st with dest := q, sub := k, count := w, stop := st + w } (st + w : Nat) false).advance
      (gateEng p) 1))

/-- The meaning of GATE: the gate of the line from S to g[rb]; an end before the start is taken as the start (R117). -/
def execGate (p : PortId) (f : ZscFields) (s : State) : Host.Outcome State Fault Refusal :=
  .next (s.instr (gateEng p) 0x45 { ra := true, rb := true, imm := true } f (fun t =>
    let x := t.eng (gateEng p)
    let gs := x.stamp f
    let ge := (x.get f.rb).toNat
    (t.updPort p (fun y => { y with cap := y.cap.map (fun l => { l with gateStart := gs, gateEnd := max gs ge }) })).advance
      (gateEng p) 1))

/-- The meaning of QFREE: g[rd] := free entries of the edge queue. -/
def execQfree (p : PortId) (f : ZscFields) (s : State) : Host.Outcome State Fault Refusal :=
  .next (s.instr (gateEng p) 0x46 { rd := true } f (fun t =>
    let n := 64 - (t.port p).gate.queue.length
    (t.updEng (gateEng p) (fun x => x.set f.rd (BitVec.ofNat 32 n))).advance (gateEng p) 1))

/-! ### Entries on their destinations (R112 to R116) -/

/-- Two entries with one destination pin or strobe (R108, R112). -/
def EdgeEntry.sameDest (x y : EdgeEntry) : Bool :=
  ((decide (x.kind < 2) && decide (y.kind < 2)) || (x.kind == 4 && y.kind == 4)) && x.dest == y.dest

/-- The sub-line after `k` on an LREF output (R116). -/
def State.nextSub (s : State) (p : PortId) (k : Nat) : Nat :=
  if k = s.rf p.val Off.PRT_GCFG 29 28 then 0 else (k + 1) % 4

/-- A strobe of sub-line `k` on output `q` ends: low, and the LREF output takes the code of the next sub-line (R116). -/
def State.endStrobe (s : State) (p : PortId) (q : Nat) (k : Nat) : State :=
  let n := s.nextSub p k
  s.updPort p (fun y => { y with gate := { y.gate with
    strobes := y.gate.strobes.set (q % 2) false (Nat.mod_lt _ (by decide)),
    lrefSub := y.gate.lrefSub.set (q % 2) n (Nat.mod_lt _ (by decide)),
    active := y.gate.active.filter (fun a => !(a.kind == 4 && a.dest == q)) } })

/-- The head's LREF limit (Table 4.3): that of the version 2 descriptor held, also while it is being read again; else 255. -/
def State.lrefLimit (s : State) (p : PortId) (q : Nat) : Nat :=
  let d := (s.port p).head.desc
  if s.rf p.val Off.PRT_HEAD_STAT 6 4 = 0 ∧ leAt d 2 1 = 2 then leAt d (0x82 + q % 2) 1 else 255

/-- The code that Pn_LREFq shows: that of its sub-line, limited to the head's LREF limit (R116); 0 V while the
port does not run (R113) and after a thermal trip (R412). -/
def State.lrefCode (s : State) (p : PortId) (q : Nat) : Nat :=
  let x := s.port p
  let k := x.gate.lrefSub[q % 2]'(Nat.mod_lt _ (by decide))
  if x.gate.lrefOn && s.driving p && !s.clk.tripped then
    min (s.rf p.val (Off.PRT_LREF0 + 4 * (q % 2)) (8 * (k % 4) + 7) (8 * (k % 4))) (s.lrefLimit p q)
  else 0

/-- The stamp of this moment in the line of port `p`: timing cycles since its line tick (R106). -/
def State.stampNow (s : State) (p : PortId) : Nat :=
  match (s.port p).cap with
  | some l => (s.now - l.time) * s.freq p / (10 * 2 ^ 24)
  | none => 0

/-- The level that a BURST gives its pin at stamp `c` (R107): pulse k is active from S + kP for H cycles; before, between and after the
pulses the pin is inactive. -/
def EdgeEntry.pulse (x : EdgeEntry) (c : Nat) : Bool :=
  if x.start ≤ c ∧ c < x.stop ∧ (c - x.start) % max x.period 1 < x.high then x.level else !x.level

/-- The level of timing pin `i` now: that of the BURST that runs on it, else the one it holds. -/
def State.pinLevel (s : State) (p : PortId) (i : Fin 12) : Bool :=
  match (s.port p).gate.active.find? (fun x => x.kind == 1 && x.dest == i.val) with
  | some x => x.pulse (s.stampNow p)
  | none => (s.port p).gate.pins[i]

/-- What Pn_Ti drives, none for high impedance: while the bank is out of its range (R97, R407), after a thermal trip (R412) and where
TOE is 0 (R113); else its level while the port captures, and TIDLE in every other state (R113). -/
def State.pinOut (s : State) (p : PortId) (i : Fin 12) : Option Bool :=
  if !(s.port p).head.bankOk || s.clk.tripped || !bitN (s.rf p.val Off.PRT_GCFG 27 16) i.val then none
  else if s.driving p then some (s.pinLevel p i)
  else some (bitN (s.rf p.val Off.PRT_GCFG 11 0) i.val)

/-- What Pn_Lq drives: high impedance while the bank is out of its range (R97); low while the port does not run (R113) and after a
thermal trip (R412). -/
def State.strobeOut (s : State) (p : PortId) (q : Fin 2) : Option Bool :=
  if !(s.port p).head.bankOk then none
  else some ((s.port p).gate.strobes[q] && s.driving p && !s.clk.tripped)

/-- Whether a CLAMP window of input `t` is open at stamp `c` (R115, R122): from its start stamp for its length. -/
def GateSt.clamped (g : GateSt) (t c : Nat) : Bool :=
  g.active.any (fun x => x.kind == 3 && bitN x.mask t && decide (x.start ≤ c) && decide (c < x.stop))

/-- The level that the clamp switch of input `t` holds now, in units of 2.5 V / 4096 above V(Pn_VREFx): Vclamp = k - 2048 of the clamp
level in force; none while the switch is open (R122). -/
def State.clampDrive (s : State) (p : PortId) (t : Nat) : Option Int :=
  if (s.port p).gate.clamped t (s.stampNow p) then some (((s.port p).clamp.getD t 2048 : Int) - 2048) else none

/-- The entry of the queue that starts next: the lowest start stamp, and of equal ones the one issued last (R112). -/
def nextEntry (q : List EdgeEntry) : Option EdgeEntry :=
  q.foldl (fun b x => match b with
    | none => some x
    | some y => if x.start ≤ y.start then some x else b) none

/-- An entry acts on its destination: an EDGE sets its pin, a BURST runs over the level its pin holds afterwards, a STROBE
of non-zero width raises its output, SAMPLE and CLAMP windows open (R107, R112). A STROBE of width 0 gives no pulse and so has no end at
which the LREF output would step (R116; DESIGN CHOICE, log entry 197). -/
def GateSt.start (g : GateSt) (x : EdgeEntry) : GateSt :=
  match x.kind with
  | 0 => if h : x.dest < 12 then { g with pins := g.pins.set x.dest x.level } else g
  | 1 => if h : x.dest < 12 then { g with pins := g.pins.set x.dest (!x.level), active := g.active ++ [x] } else g
  | 4 =>
    if x.count = 0 then g
    else { g with strobes := g.strobes.set (x.dest % 2) true (Nat.mod_lt _ (by decide)), active := g.active ++ [x] }
  | _ => { g with active := g.active ++ [x] }

/-- A window or entry `a` has ended when an entry `x` starts: one that runs on the same pin or strobe (R112), or a CLAMP window whose
end has come (R122). -/
def EdgeEntry.endedBy (a x : EdgeEntry) : Bool := a.sameDest x || (a.kind == 3 && decide (a.stop ≤ x.start))

/-- An entry that starts while the port does not capture moves no output (R113). -/
def GateSt.startIf (g : GateSt) (x : EdgeEntry) (on : Bool) : GateSt := if on || x.kind == 2 || x.kind == 3 then g.start x else g

/-- The meaning of EDGE_ENTRY_START (R111, R112): the next entry leaves the queue and acts; entries with the same start on
the same pin or strobe are discarded; an entry that runs there ends, a strobe with the effect of its end. -/
def execEdgeEntryStart (p : PortId) (s : State) : Host.Outcome State Fault Refusal :=
  match nextEntry (s.port p).gate.queue with
  | none => .next s
  | some x =>
    let running := (s.port p).gate.active.filter (fun a => a.sameDest x)
    let s1 := running.foldl (fun t a => if a.kind = 4 then t.endStrobe p a.dest a.sub else t) s
    let s2 := s1.updPort p (fun y =>
      let g := { y.gate with
        queue := y.gate.queue.filter (fun a => !(a == x || (a.sameDest x && a.start == x.start))),
        active := y.gate.active.filter (fun a => !a.endedBy x) }
      { y with gate := g.startIf x (s.driving p) })
    .next (s2.showQueue p)

/-- The meaning of STROBE_END (R116): the strobe that runs on output `q` ends. -/
def execStrobeEnd (p : PortId) (q : Fin 2) (s : State) : Host.Outcome State Fault Refusal :=
  match (s.port p).gate.active.find? (fun a => a.kind == 4 && a.dest == q.val) with
  | none => .next s
  | some a => .next (s.endStrobe p q.val a.sub)

/-! ### Heads (R98 to R105) -/

/-- The tap map entry of input `t` (R100). -/
def tapEntry (d : List Byte) (t : Nat) : Nat := leAt d (0x14 + 2 * t) 2

/-- The inputs in use. -/
def tapsUsed (d : List Byte) : List Nat := (List.range 16).filter (fun t => tapEntry d t != 0xFFFF)

/-- The first failing check of Table 4.4, or 0. A segment in use of length 0 of a version 2 head fails check 7 (DESIGN CHOICE, log
entry 174). -/
def descCheck (acked : Bool) (d : List Byte) : Nat :=
  let ver := leAt d 2 1
  let len := leAt d 4 2
  let pix := leAt d 6 2
  let planes := leAt d 8 1
  let seq := leAt d 9 1
  let taps := leAt d 0x0A 1
  let flags := leAt d 0x0B 1
  let period := leAt d 0x0E 2
  let used := tapsUsed d
  let codes := (List.range planes).map (fun i => fld seq (2 * i + 1) (2 * i))
  let segs := used.map (fun t => tapEntry d t % 16)
  let segStart (g : Nat) := leAt d (0x40 + 2 * g) 2
  let segLen (g : Nat) := leAt d (0x60 + 2 * g) 2
  if !acked then 1
  else if leAt d 0 2 ≠ 0x5A48 ∨ ver = 0 ∨ (ver = 1 ∧ len ≠ 64) ∨ (ver = 2 ∧ len ≠ 160) ∨ (2 < ver ∧ (len < 64 ∨ 256 < len)) then 2
  else if crc32c (d.take 0x3C) ≠ leAt d 0x3C 4 then 3
  else if ver = 2 ∧ crc32c ((d.drop 0x40).take 0x5C) ≠ leAt d 0x9C 4 then 4
  else if pix = 0 ∨ 16384 < pix ∨ planes = 0 ∨ 4 < planes ∨ taps = 0 ∨ 16 < taps ∨ period < 250 ∨
      !codes.Nodup ∨ seq / 4 ^ planes ≠ 0 ∨ leAt d 0x0D 1 > 7 ∨ !bitN (leAt d 0x0C 1) (leAt d 0x0D 1) ∨ 8 ≤ flags ∨
      used.any (fun t => fld (tapEntry d t) 14 4 != 0) ∨
      (ver = 2 ∧ ((d.drop 0x85).take 23).any (fun b => b != 0)) then 5
  else if used.length ≠ taps ∨ (List.range taps).any (fun g => !segs.contains g) ∨
      (bitN flags 0 ∧ used.any (fun t => t % 2 == 1)) then 6
  else if ver = 2 then
    (if (List.range taps).any (fun g => segLen g == 0 || decide (pix < segStart g + segLen g)) ∨
        (List.range taps).any (fun g => (List.range g).any (fun h =>
          decide (segStart g < segStart h + segLen h) && decide (segStart h < segStart g + segLen g))) ∨
        ((List.range taps).map segLen).sum ≠ pix then 7 else 0)
  else if pix % taps ≠ 0 then 7 else 0

/-- A descriptor read starts: STATE reads READING (R99). The read that an insertion calls for is still made. -/
def State.startRead (s : State) (p : PortId) : State :=
  (s.updPort p (fun x => { x with head := { x.head with reading := true } })).setRf p.val Off.PRT_HEAD_STAT 1 0 1

/-- The meaning of DESCRIPTOR_READ_DONE (R102): VALID or INVALID with the first failing check. Bytes beyond the length
that R99 reads are not kept. -/
def execDescriptorReadDone (p : PortId) (acked : Bool) (bytes : List Byte) (s : State) : Host.Outcome State Fault Refusal :=
  if !(s.port p).head.reading then .next s
  else
    let d := if leAt bytes 2 1 = 2 then bytes.take 160 else bytes.take 64
    let err := descCheck acked d
    let ver := leAt d 2 1
    let s1 := s.updPort p (fun x => { x with head := { x.head with reading := false, desc := d } })
    let stat := b2n (decide (2 < ver ∧ err = 0)) * 2 ^ 16 + ver * 2 ^ 8 + err * 2 ^ 4 + b2n (s.port p).head.present * 8 +
      (if err = 0 then 2 else 3)
    .next ((s1.setReg p.val Off.PRT_HEAD_STAT stat).raise (portSrc p.val (if err = 0 then 1 else 2)) [])

/-- The meaning of HEAD_INSERT_DELAY (R99): 20 ms after an insertion the read starts; while another read runs it waits for the
next delay. -/
def execHeadInsertDelay (p : PortId) (s : State) : Host.Outcome State Fault Refusal :=
  match (s.port p).head.insertAt with
  | none => .next s
  | some t =>
    if (s.port p).head.reading then .next s
    else .next (((s.at (t + 20000000)).updPort p (fun x => { x with head := { x.head with insertAt := none } })).startRead p)

/-- HEAD_REMOVED (R103, R104): STATE goes to NONE, the other fields of PRT_HEAD_STAT read 0 (DESIGN CHOICE, log entry 175), and the
event is raised; a running port captures no line after its next line tick. -/
def State.headRemoved (s : State) (p : PortId) : State :=
  let s1 := s.updPort p (fun x => { x with head := { x.head with
    present := false, missed := 0, insertAt := none, reading := false, desc := [],
    gone := decide (s.portState p = .running) } })
  (s1.setReg p.val Off.PRT_HEAD_STAT 0).raise (portSrc p.val 3) []

/-- The meaning of HEAD_POLL (R103): with polling on and the bank powered, one acknowledged poll finds a head, three
missed ones in a row lose it. Missed polls are no removal before any poll was acknowledged (DESIGN CHOICE, log entry 175). -/
def execHeadPoll (p : PortId) (ack : Bool) (s : State) : Host.Outcome State Fault Refusal :=
  let h := (s.port p).head
  if s.rf p.val Off.PRT_HEAD_CTL 15 8 = 0 ∨ !h.bankOk then .next s
  else if ack then
    let s1 := s.updPort p (fun x => { x with head := { x.head with
      missed := 0, present := true, insertAt := if h.present then x.head.insertAt else some s.now } })
    .next (s1.setRf p.val Off.PRT_HEAD_STAT 3 3 1)
  else if h.present then
    if 2 ≤ h.missed then .next (s.headRemoved p)
    else .next (s.updPort p (fun x => { x with head := { x.head with missed := h.missed + 1 } }))
  else .next s

end Sys2Proof.Machine
end

