-- ==== Sys2Proof/Machine/Pass.lean ====
section
/-! DEFINITION. Pipe programs as SETUP_VERIFY and the pipe engine see them: parameter blocks and their limits, the geometry
and cost of passes, the work lines' geometry, and the records that EMITs can queue (spec/06, R150 to R163; spec/07, R182 to
R197; spec/08, R214 to R218). -/

namespace Sys2Proof.Machine

/-- A geometry: pixels per plane, planes, layout code (R153, R182). -/
structure Geo where
  p : Nat
  np : Nat
  layout : Nat
  deriving DecidableEq, Repr

/-- Samples per plane, or 16-bit words of a bit-plane layout. -/
def Geo.plane (g : Geo) : Nat := if g.layout = 3 then (g.p + 15) / 16 else g.p

/-- Samples, or words, of a line (R152). -/
def Geo.count (g : Geo) : Nat := g.np * g.plane

/-- The bytes of a parameter block of `n` bytes at byte offset `pb`. -/
def Eng.block (x : Eng) (slot pb n : Nat) : List Byte :=
  ((List.range ((n + 3) / 4)).flatMap (fun i => leBytes 4 (x.paramWord slot (pb / 4 + i)).toNat)).take n

/-- The bytes of a primitive's block (R156 to R163, R184 to R196, R215, R216). -/
def blockSize (op : Nat) : Nat := if op = 0x80 then 72 else if op = 0x82 then 32 else 16

/-- A byte of a block. -/
def bByte (b : List Byte) (o : Nat) : Nat := leAt b o 1
/-- A u16 of a block. -/
def bHalf (b : List Byte) (o : Nat) : Nat := leAt b o 2

/-- Block bytes S of a coding code (Table 7.3). -/
def codeBytes (m : Nat) : Nat := match m with | 2 => 64 | 3 => 48 | 4 => 32 | 5 => 24 | _ => 16
/-- Residual width w of a coding code (Table 7.3). -/
def codeWidth (m : Nat) : Nat := match m with | 3 => 11 | 4 => 7 | 5 => 5 | _ => 3

/-- Blocks of one plane under CODE (R191). -/
def Geo.blocks (g : Geo) : Nat := (g.plane + 31) / 32

/-- The geometry that a primitive gives for an input geometry (R153, R156, R161, R184, R187). -/
def primGeo (op : Nat) (b : List Byte) (g : Geo) : Geo :=
  match op with
  | 0x80 => { p := bHalf b 0, np := bByte b 2, layout := 0 }
  | 0x84 => if bitN (bByte b 6) 0 then g else { p := g.p / max (bByte b 0) 1, np := g.np, layout := 0 }
  | 0x88 =>
    let n := bByte b 1
    match bByte b 0 with
    | 0 => { g with np := n, layout := 0 }
    | 1 => { g with np := n, layout := 1 }
    | 3 => { g with np := n, layout := 3 }
    | _ => { g with np := n, layout := 0 }
  | 0x89 => { p := bHalf b 8, np := g.np, layout := 0 }
  | _ => g

/-- The largest count of samples that enters or leaves a primitive (R152, R183, R187). -/
def primCount (op : Nat) (b : List Byte) (gi : Geo) : Nat :=
  let go := primGeo op b gi
  match op with
  | 0x80 => go.count
  | 0x8B => gi.np * gi.blocks * 32
  | _ => max gi.count go.count

/-- l(p) of a primitive (Table 6.3, R184, R187, R189, R196). -/
def primLat (op : Nat) (b : List Byte) : Nat :=
  match op with
  | 0x80 => 32
  | 0x81 => 12
  | 0x82 => 28
  | 0x83 => 8 + 2 * ((bByte b 0 + 7) / 8)
  | 0x84 => 8 + (bByte b 0 + 7) / 8
  | 0x85 => 6
  | 0x88 => 16
  | 0x89 => 16 + bHalf b 2
  | 0x8A => 8
  | _ => if bByte b 1 = 0 then 40 else 56

/-- pass_cost of R152. -/
def passCost (nmax lat : Nat) : Nat := (nmax + 7) / 8 + lat

/-- Bytes `from` and on of a block are 0. -/
def zeroFrom (b : List Byte) (o : Nat) : Bool := (b.drop o).all (fun x => x == 0)

/-- The taps of an ASSEMBLE block as (tap, START, LEN, DESC). -/
def asmTaps (b : List Byte) : List (Nat × Nat × Nat × Bool) :=
  (maskList 16 (bHalf b 4)).map (fun t => (t, bHalf b (8 + 4 * t), bHalf b (10 + 4 * t) % 2 ^ 15, bitN (bHalf b (10 + 4 * t)) 15))

/-- ASSEMBLE's limits: segments of at least one pixel, within the line, that do not overlap and cover every pixel. -/
def asmOk (b : List Byte) : Bool :=
  let p := bHalf b 0
  let ts := asmTaps b
  decide (1 ≤ p) && decide (p ≤ 16384) && decide (1 ≤ bByte b 2) && decide (bByte b 2 ≤ 4) && decide (bByte b 3 ≤ 1) &&
    bHalf b 6 == 0 && ts.all (fun t => decide (1 ≤ t.2.2.1) && decide (t.2.1 + t.2.2.1 ≤ p)) &&
    (List.range ts.length).all (fun i => (List.range i).all (fun j =>
      let x := ts.getD i (0, 0, 0, false)
      let y := ts.getD j (0, 0, 0, false)
      decide (x.2.1 + x.2.2.1 ≤ y.2.1) || decide (y.2.1 + y.2.2.1 ≤ x.2.1))) &&
    (ts.map (fun t => t.2.2.1)).sum == p

/-- Whether a block holds its fields within the limits of its primitive (checks 0x22, 0x2B, 0x2D); `g` is the input. -/
def blockOk (op : Nat) (b : List Byte) (g : Geo) : Bool :=
  match op with
  | 0x80 => asmOk b
  | 0x81 => decide (bByte b 0 ≤ 3) && zeroFrom b 1
  | 0x82 =>
    let m := bByte b 4
    decide (bHalf b 0 ≤ bHalf b 2) && decide (bHalf b 2 < g.p) && decide (m < 2 ^ min g.np 4) && decide (bByte b 5 ≤ 8) &&
      decide (bByte b 6 ≤ 1) && bByte b 7 == 0 && (maskList 4 m).all (fun k => bHalf b (8 + 2 * k) != 0) && zeroFrom b 0x12
  | 0x83 => decide (1 ≤ bByte b 0) && decide (bByte b 0 ≤ 64) && zeroFrom b 1
  | 0x84 =>
    let f := bByte b 6
    decide (f ≤ 3) && (!bitN f 0 || (decide (2 ≤ bByte b 7) && decide (bByte b 7 ≤ 5))) &&
      (if bitN f 1 then bitN f 0 && bByte b 5 == 1 && bByte b 0 == 1 && bByte b 1 == 0
       else decide (1 ≤ bByte b 0) && decide (bByte b 0 ≤ 16) && decide (bByte b 1 ≤ 4) && decide (1 ≤ bHalf b 2) &&
         decide (bHalf b 2 ≤ 256) && (bHalf b 2 == 1 || (decide (bByte b 4 ≤ 8) && decide (bByte b 5 ≤ 1)))) && zeroFrom b 8
  | 0x85 => decide (bByte b 0 ≤ 1) && zeroFrom b 1
  | 0x88 =>
    let n := bByte b 1
    let order := (List.range n).map (fun i => fld (bByte b 2) (2 * i + 1) (2 * i))
    decide (bByte b 0 ≤ 3) && decide (1 ≤ n) && decide (n ≤ min g.np 4) && decide order.Nodup &&
      order.all (fun k => decide (k < g.np)) && (bByte b 0 != 3 || decide (bByte b 3 ≤ 16)) && zeroFrom b 6
  | 0x89 =>
    decide (bByte b 0 ≤ 63) && bByte b 1 == 0 && decide (1 ≤ bHalf b 2) && decide (bHalf b 2 ≤ 4096) &&
      leAt b 4 4 % 2 == 0 && decide (1 ≤ bHalf b 8) && decide (bHalf b 8 ≤ 16384) && zeroFrom b 10
  | 0x8A =>
    decide (bByte b 0 ≤ 1) && (bByte b 0 == 0 || decide (bByte b 1 ≤ 2)) && decide (bByte b 2 ≤ 3) &&
      decide (bByte b 3 ≤ 1) && zeroFrom b 4
  | 0x8B =>
    let a := bByte b 2
    decide (2 ≤ bByte b 0) && decide (bByte b 0 ≤ 6) && (bByte b 1 == 0 || (decide (2 ≤ bByte b 1) && decide (bByte b 1 ≤ 6))) &&
      fld a 3 2 == 0 && fld a 7 6 == 0 && (bByte b 1 == 0 || fld a 1 0 != fld a 5 4) && decide (bByte b 3 ≤ 3) && zeroFrom b 4
  | 0x8C =>
    decide (bByte b 0 ≤ 3) && decide (1 ≤ bByte b 1) && decide (bByte b 1 ≤ 3) && (decide (bByte b 2 ≤ 3) || bByte b 2 == 255) &&
      zeroFrom b 3
  | 0x8D => decide (bByte b 0 ≤ 3) && decide (bByte b 1 ≤ 15) && bHalf b 2 != 0 && zeroFrom b 4
  | _ => true

/-! ### Instructions of a program -/

/-- Instruction `i` of an engine. -/
def Eng.word (x : Eng) (i : Nat) : DWord := mget (fun _ => 0) x.imem i

/-- The primitives that form passes (Table 6.3). -/
def isPrim (op : Nat) : Bool := (decide (0x80 ≤ op) && decide (op ≤ 0x85)) || (decide (0x88 ≤ op) && decide (op ≤ 0x8B))

/-- CHAIN, bit 39. -/
def chainBit (f : ZscFields) : Bool := f.ext.getLsbD 7

/-- PB, imm[13:0]. -/
def pbOf (f : ZscFields) : Nat := f.imm.toNat % 16384

/-- A pass of a program (R151): the index of its first instruction and its instructions (index, opcode, fields). -/
structure Pass where
  first : Nat
  prims : List (Nat × Nat × ZscFields)
  deriving DecidableEq, Repr

/-- The instructions of a program (index, opcode, fields). -/
def Prog.instrs (x : Eng) (g : Prog) : List (Nat × Nat × ZscFields) :=
  (List.range g.len).map (fun i => let w := x.word (g.base + i); (g.base + i, opOf w, fieldsOf w))

/-- Groups the primitives of a program into passes: one begins at ra ≠ 0 and ends where CHAIN is 0. -/
def passesGo : List (Nat × Nat × ZscFields) → Option Pass → List Pass
  | [], none => []
  | [], some p => [p]
  | (i, op, f) :: t, cur =>
    if !isPrim op then (match cur with | none => passesGo t none | some p => p :: passesGo t none)
    else
      let p : Pass := match cur with
        | none => { first := i, prims := [(i, op, f)] }
        | some q => { q with prims := q.prims ++ [(i, op, f)] }
      if chainBit f then passesGo t (some p) else p :: passesGo t none

/-- The passes of a program. -/
def Prog.passes (x : Eng) (g : Prog) : List Pass := passesGo (g.instrs x) none

/-- The source code of a pass: ra of its first instruction. -/
def Pass.src (p : Pass) : Nat := match p.prims with | [] => 0 | e :: _ => e.2.2.ra.toNat

/-- The destination code of a pass: rd of its last instruction. -/
def Pass.dst (p : Pass) : Nat := match p.prims.getLast? with | none => 0 | some e => e.2.2.rd.toNat

/-- The geometry at each point of a pass: before every primitive, and at the end. -/
def geosOf (x : Eng) (slot : Nat) : List (Nat × Nat × ZscFields) → Geo → List (Nat × Nat × List Byte × Geo) × Geo
  | [], g => ([], g)
  | (i, op, f) :: t, g =>
    let b := x.block slot (pbOf f) (blockSize op)
    let r := geosOf x slot t (primGeo op b g)
    ((i, op, b, g) :: r.1, r.2)

/-- The geometry that a pass writes to a work line, among those that it writes: by its end, or by a BIN with FORK. -/
def Pass.writes (x : Eng) (slot : Nat) (p : Pass) (g : Geo) : List (Nat × Geo) :=
  let r := geosOf x slot p.prims g
  let forks := r.1.filterMap (fun e =>
    if e.2.1 = 0x84 ∧ bitN (bByte e.2.2.1 6) 0 then
      some (bByte e.2.2.1 7, { p := e.2.2.2.p / max (bByte e.2.2.1 0) 1, np := e.2.2.2.np, layout := 0 })
    else none)
  if 2 ≤ p.dst ∧ p.dst ≤ 5 then forks ++ [(p.dst, r.2)] else forks

/-- One sweep over the passes: every pass whose source is known gives the work lines that it writes, first one to do so. -/
def sweep (x : Eng) (slot : Nat) : List Pass → List (Nat × Geo) → List (Nat × Geo)
  | [], m => m
  | p :: t, m =>
    let g : Option Geo := if p.src = 1 then some { p := 0, np := 0, layout := 0 } else (m.find? (fun e => e.1 == p.src)).map (fun e => e.2)
    match g with
    | none => sweep x slot t m
    | some g => sweep x slot t ((p.writes x slot g).foldl (fun m e => if m.any (fun d => d.1 == e.1) then m else m ++ [e]) m)

/-- The geometry of every work line of a program that follows from the capture store (check 0x24): four work lines need
at most four sweeps. -/
def Prog.lines (x : Eng) (slot : Nat) (g : Prog) : List (Nat × Geo) :=
  let ps := g.passes x
  sweep x slot ps (sweep x slot ps (sweep x slot ps (sweep x slot ps [])))

/-- The geometry that a pass reads from source code `src`. -/
def Prog.source (x : Eng) (slot : Nat) (g : Prog) (src : Nat) : Geo :=
  if src = 1 then { p := 0, np := 0, layout := 0 }
  else ((g.lines x slot).find? (fun e => e.1 == src)).map (fun e => e.2) |>.getD { p := 0, np := 0, layout := 0 }

/-- n_max and the sum of latencies of a pass. -/
def Pass.size (x : Eng) (slot : Nat) (p : Pass) (g : Geo) : Nat × Nat :=
  (geosOf x slot p.prims g).1.foldl (fun a e => (max a.1 (primCount e.2.1 e.2.2.1 e.2.2.2), a.2 + primLat e.2.1 e.2.2.1)) (0, 0)

/-! ### Payloads and records (R189, R191, R217) -/

/-- Bytes of a PACK payload of `n` samples. -/
def packBytes (format n : Nat) : Nat := if format = 0 then 2 * n else (14 * n + 7) / 8

/-- Bytes of a CODE payload. -/
def codePayload (mode : Nat) (g : Geo) : Nat := g.np * g.blocks * codeBytes mode

/-- The areas that a primitive writes, with their largest payloads. -/
def primAreas (op : Nat) (b : List Byte) (g : Geo) : List (Nat × Nat) :=
  match op with
  | 0x8A => [(bByte b 2 % 4, packBytes (bByte b 0) g.count)]
  | 0x8B => (fld (bByte b 2) 1 0, codePayload (bByte b 0) g) ::
      (if bByte b 1 = 0 then [] else [(fld (bByte b 2) 5 4, codePayload (bByte b 1) g)])
  | _ => []

/-- The payloads that the passes of a program can write (area, bytes). -/
def Prog.areas (x : Eng) (slot : Nat) (g : Prog) : List (Nat × Nat) :=
  (g.passes x).flatMap (fun p =>
    (geosOf x slot p.prims (g.source x slot p.src)).1.flatMap (fun e => primAreas e.2.1 e.2.2.1 e.2.2.2))

/-- The largest payload of area `a` under the setup's blocks. -/
def Prog.areaMax (x : Eng) (slot : Nat) (g : Prog) (a : Nat) : Nat :=
  ((g.areas x slot).filter (fun e => e.1 == a)).foldl (fun m e => max m e.2) 0

/-- What an EMIT can queue: DEST, and for each SLATE that names its slot the lines from one record to the next, the largest
payload and the type (R180, R217). -/
structure EmitDesc where
  dest : Nat
  recs : List (Nat × Nat × Nat)
  deriving DecidableEq, Repr

/-- The records of a program for the budgets (R217): a record of type CAL counts as emitted once every 2 lines (R180). -/
def Prog.emits (x : Eng) (slot : Nat) (g : Prog) : List EmitDesc :=
  let is := g.instrs x
  let slates := (is.filter (fun e => e.2.1 == 0x8C)).map (fun e => x.block slot (pbOf e.2.2) 16)
  (is.filter (fun e => e.2.1 == 0x8D)).map (fun e =>
    let b := x.block slot (pbOf e.2.2) 16
    { dest := bByte b 1,
      recs := (slates.filter (fun s => bByte s 0 == bByte b 0)).map (fun s =>
        (if bByte s 1 = 3 then 2 else max (bHalf b 2) 1,
         if bByte s 2 = 255 then 0 else g.areaMax x slot (bByte s 2), bByte s 1)) })

end Sys2Proof.Machine
end

