-- ==== Sys2Proof/Machine/Budget.lean ====
section
/-! DEFINITION. The bandwidth budgets of Table 1.7 (R22, R36, R272). -/

namespace Sys2Proof.Machine

/-- Per-lane host budget in units of 10 MB/s by the rate code of HIF_LINK (Table 2.10). -/
def perLane (rate : Nat) : Nat :=
  match rate with
  | 1 => 20 | 2 => 40 | 3 => 75 | 4 => 150 | 5 => 310 | 6 => 625 | 7 => 1250 | _ => 0

/-- The host budget in units of 0.1 GB/s (R36). -/
def hostBudget (width rate : Nat) : Nat := width * perLane rate / 10

/-- The members of the stripe (R261). -/
def State.memberDrives (s : State) : List DriveId := (List.finRange 8).filter (fun d => s.tks.drives[d].st == 4)

/-- DRV_GBPS: 0 is taken as 1. -/
def State.drvGbps (s : State) : Nat := max (s.rf 0 Off.TKS_CFG 31 28) 1

/-- The take-store write limit in GB/s (R272). -/
def State.storeLimit (s : State) : Nat := min 80 (s.memberDrives.length * s.drvGbps)

/-- What a port brings into a budget: whether it counts (RUNNING or ARMED), its setup slot, LINE_PERIOD_MIN and CMP_REC. -/
structure PortPlan where
  on : Bool
  slot : Nat
  pmin : Nat
  recCfg : Nat
  deriving DecidableEq, Repr

/-- A port under setup slot `k` (R22, R92). -/
def State.planWith (s : State) (p : PortId) (k : Nat) : PortPlan :=
  let u := unitOfPort p
  { on := true, slot := k, pmin := s.futureCut u k p.val Off.PRT_LTG_PMIN, recCfg := s.futureCut u k p.val Off.CMP_REC }

/-- A port as the changes accepted so far leave it: under the setup of the cut that waits for it, or its current one
(R22, log entry 101). -/
def State.plan (s : State) (p : PortId) : PortPlan :=
  let x := s.unit (unitOfPort p)
  let on := x.st == .running || x.st == .armed
  match x.cut with
  | some c => { s.planWith p c.slot with on := on }
  | none => { on := on, slot := x.current.getD 0, pmin := s.pmin p, recCfg := s.eff p.val Off.CMP_REC }

/-- Whether CMP_REC records a type (R271). -/
def recorded (cfg type : Nat) : Bool := bitN cfg 0 && type != 4 && type != 5 && decide (type < 7) && bitN cfg type

/-- Bytes per second of the records of an EMIT that satisfy `p`: the greatest of its alternatives. -/
def EmitDesc.rate (e : EmitDesc) (pmin : Nat) (p : Nat → Bool) : Rat :=
  (e.recs.filter (fun r => p r.2.2)).foldl (fun m r => max m (((64 + r.2.1) * 10 ^ 11 : Nat) / ((max pmin 1 * r.1 : Nat) : Rat))) 0

/-- The demand of a port in B/s on the host link and on the take store (R22). -/
def State.portDemand (s : State) (p : PortId) (y : PortPlan) : Rat × Rat :=
  if !y.on then (0, 0)
  else
    let x := s.eng (pipeEng p)
    let es := (s.unit (unitOfPort p)).slots[y.slot % 8].prog1.emits x y.slot
    es.foldl (fun d e =>
      (d.1 + (if bitN e.dest 2 then e.rate y.pmin (fun _ => true) else 0),
       d.2 + (if bitN e.dest 3 then e.rate y.pmin (recorded y.recCfg) else 0))) (0, 0)

/-- The shares granted to rewinds, in B/s (R283). -/
def State.shares (s : State) : Nat :=
  ((List.finRange 16).map (fun p => match s.tks.ports[p].rewind with | some r => r.share * 10 ^ 8 | none => 0)).sum

/-- The host link budget of Table 1.7, for ports as `plan` has them and `extra` further units of 0.1 GB/s of readback (R283). -/
def State.hostFits (s : State) (plan : PortId → PortPlan) (extra : Nat) : Bool :=
  let ds := (List.finRange 16).map (fun p => s.portDemand p (plan p))
  decide ((ds.map (fun d => d.1)).sum + ((s.shares + extra * 10 ^ 8 : Nat) : Rat) ≤
    ((hostBudget s.link.width s.link.rate * 10 ^ 8 : Nat) : Rat))

/-- The host link and take-store budgets of Table 1.7, for ports as `plan` has them. -/
def State.bandwidthOk (s : State) (plan : PortId → PortPlan) : Bool :=
  let ds := (List.finRange 16).map (fun p => s.portDemand p (plan p))
  s.hostFits plan 0 && decide ((ds.map (fun d => d.2)).sum ≤ ((s.storeLimit * 10 ^ 9 : Nat) : Rat))

/-- The committed demand on the host link in B/s (R36). -/
def State.hostDemand (s : State) : Rat :=
  ((List.finRange 16).map (fun p => (s.portDemand p (s.plan p)).1)).sum + (s.shares : Rat)

end Sys2Proof.Machine
end

