-- ==== Sys2Proof/Machine/Pipe.lean ====
section
/-! DEFINITION. The pipe engine's primitives that correct and average a line (spec/06_pixel_pipeline.md, R149 to R172). -/

namespace Sys2Proof.Machine

/-! ### Table memories (R166, R167, R185) -/

/-- Key of shading entry `e` of physical bank `b` of a port. -/
def shadeKey (p b e : Nat) : Nat := (p * 2 + b) * 65536 + e
/-- Key of 32-bit word `w` of physical defect-map bank `b` of a port. -/
def defKey (p b w : Nat) : Nat := 0x200000 + (p * 2 + b) * 2048 + w
/-- Key of entry `i` of LUT `idx` (setup * 4 + slot) of a port. -/
def lutKey (p idx i : Nat) : Nat := 0x400000 + (p * 32 + idx) * 4096 + i
/-- Key of 32-bit word `w` of index table `t`. -/
def idxKey (t w : Nat) : Nat := 0x800000 + t * 8192 + w

/-- A word of the table memories: 0 where nothing has been written (log entry 12). -/
def State.tblWord (s : State) (k : Nat) : Nat := (mget (fun _ => 0) s.tbl k).toNat

/-- Writes a word of the table memories. -/
def State.setTbl (s : State) (k v : Nat) : State := { s with tbl := mput (fun _ => 0) k (BitVec.ofNat 32 v) s.tbl }

/-- S_FLIP (table 0) or D_FLIP (table 1). -/
def State.flip (s : State) (p : PortId) (table : Nat) : Nat := s.rf p.val Off.PIP_BANK_STAT (8 + table) (8 + table)

/-- The physical bank of a logical bank (R167). -/
def State.phys (s : State) (p : PortId) (table b : Nat) : Nat := (b + s.flip p table) % 2

/-- MIRROR of a table (R169). -/
def State.mirror (s : State) (p : PortId) (table : Nat) : Bool := s.rf p.val Off.PIP_BANK_STAT (4 + table) (4 + table) = 1

/-- A shading entry: offset and gain. -/
def shadeEntry (w : Nat) : Int × Nat := (sgn 16 (w / 2 ^ 16), w % 2 ^ 16)

/-- Whether the defect map of physical bank `b` marks pixel `x` of slot `k` bad. -/
def State.defectBit (s : State) (p : PortId) (b k x : Nat) : Bool := bitN (s.tblWord (defKey p.val b (k * 512 + x / 32))) (x % 32)

/-! ### Lanes (R164, R165) -/

/-- Changes the pipeline of a port. -/
def State.updPipe (s : State) (p : PortId) (f : PipeSt → PipeSt) : State := s.updPort p (fun x => { x with pipe := f x.pipe })

/-- The port has no spare lane, or the spare takes a lane at the next process stage (R165). -/
def State.noSpare (s : State) (p : PortId) : Bool :=
  s.rf p.val Off.PIP_LANE_STAT 4 4 == 1 || (s.port p).pipe.laneNext.isSome

/-- The spare takes the logical lane that a retirement gave it, as a process stage begins (R165, R198). -/
def State.applyLane (s : State) (p : PortId) : State :=
  match (s.port p).pipe.laneNext with
  | none => s
  | some (l, spare) =>
    (((s.updPipe p (fun y => { y with laneNext := none })).setRf p.val Off.PIP_LANE_MAP (4 * (l % 8) + 3) (4 * (l % 8)) spare).setRf
      p.val Off.PIP_LANE_STAT 3 0 0xF).setRf p.val Off.PIP_LANE_STAT 4 4 1

/-- A line that is dropped in its process stage is skipped by a capture that has summed it in this tick (R174), also as its last
line: the capture completes only with the stage (DEDUCED from Table 6.7, log entry 178). -/
def State.undoCal (s : State) (p : PortId) : State :=
  let y := (s.port p).pipe
  match y.cap with
  | none => s
  | some c =>
    if y.calAdd.isEmpty then s
    else
      ((s.updPipe p (fun z => { z with
        calAdd := [], calDone := false, cap := some { c with taken := c.taken - 1 },
        accs := z.accs.set 1 { a := (List.range z.accs[1].a.length).map (fun i => z.accs[1].a.getD i 0 - z.calAdd.getD i 0),
                               cnt := c.taken - 1 } })).setRf p.val Off.PIP_CAL 24 16 (c.taken - 1)).setRf p.val Off.PIP_CAL 8 8 1

/-- R165 alone applies to the line in process: no VERIFY is raised for it (R199). -/
def State.onlyLanes (s : State) (p : PortId) : State := s.updPipe p (fun y => { y with mismatch := true, fails := [] })

/-- A lane's result and the spare's differ (R165): the line is dropped whole, LANE_MISMATCH raised in place of LINE_OVERRUN,
and both lanes are classified. Nothing is compared without a spare. -/
def State.laneMismatch (s : State) (p : PortId) (differ : Bool) : State :=
  if !differ || s.noSpare p then s
  else
    let lane := s.prcLine p % 8
    let s1 := ((s.dropQuiet p .process).undoCal p).onlyLanes p
    if s1.hasFault p 4 then s1
    else ((s1.incRf p.val Off.PIP_LANE_STAT 15 8 1).raise (portSrc p.val 10) [(8, lane)]).detect
      { kind := 1, unit := p.val, code := 4, arg := lane, arg2 := 0, time := 0 }

/-! ### The frame of a pass (R150 to R154) -/

/-- A line that is dropped in its process stage while a lane mismatch is classified (R165): as the mismatched line itself. -/
def State.laneDrop (s : State) (p : PortId) : State :=
  match (s.port p).prc with
  | none => s
  | some l => if l.dropped then s else ((s.dropQuiet p .process).onlyLanes p).raise (portSrc p.val 10) [(8, l.n % 8)]

/-- A pass starts at its source (R150, R153). -/
def State.source (s : State) (p : PortId) (src : Nat) : Stream :=
  let x := s.eng (pipeEng p)
  let g := (s.prog (pipeEng p)).source x x.setup src
  let xs := if src = 1 then [] else ((s.port p).pipe.wl.toList.getD (src - 2) []).take g.count ++
    List.replicate (g.count - ((s.port p).pipe.wl.toList.getD (src - 2) []).length) 0
  { xs := some xs, p := g.p, np := g.np, layout := g.layout, nmax := 0, lat := 0, bad := [], u := [] }

/-- The input of a pipe instruction: the stream, or a new one from its source. -/
def State.inStream (s : State) (p : PortId) (f : ZscFields) : Stream :=
  if f.ra = 0 then ((s.port p).pipe.stream).getD { xs := some [], p := 0, np := 0, layout := 0, nmax := 0, lat := 0, bad := [], u := [] }
  else s.source p f.ra.toNat

/-- Geometry of a stream. -/
def Stream.geo (x : Stream) : Geo := { p := x.p, np := x.np, layout := x.layout }

/-- The parameter block of an instruction of the pipe engine. -/
def State.block (s : State) (p : PortId) (op : Nat) (f : ZscFields) : List Byte :=
  let x := s.eng (pipeEng p)
  x.block x.setup (pbOf f) (blockSize op)

/-- Writes a work line by its code 2 to 5: the samples that it does not write keep their contents (R149). -/
def PipeSt.setWl (y : PipeSt) (d : Nat) (xs : List Nat) : PipeSt :=
  if h : 2 ≤ d ∧ d ≤ 5 then { y with wl := y.wl.set (d - 2) (xs ++ (y.wl[d - 2]'(by omega)).drop xs.length) (by omega) } else y

/-- A primitive of a pass (R150 to R154): skipped with its pass, trapped for a non-zero unused field, or run. The last one
writes the destination and costs the pass; the others cost 1 cycle. -/
def State.prim (s : State) (p : PortId) (op : Nat) (f : ZscFields) (differ : Bool)
    (body : State → Stream → List Byte → State × Stream) : State :=
  let e := pipeEng p
  let x := s.eng e
  if x.run ≠ .running ∨ (s.port p).pipe.stall.isSome then s
  else if (s.port p).pipe.skip then (s.updPipe p (fun y => { y with skip := chainBit f })).advance e 1
  else if f.rb ≠ 0 ∨ f.imm.toNat / 16384 ≠ 0 ∨ f.ext &&& 0x7F#8 ≠ 0 ∨ f.cond = 15 then s.trap e 1 (hiWord op f).toNat
  else if !x.condTrue f.cond then (s.updPipe p (fun y => { y with skip := chainBit f })).advance e 1
  else
    let b := s.block p op f
    let i := s.inStream p f
    let r := body s i b
    let g := primGeo op b i.geo
    let o := { r.2 with p := g.p, np := g.np, layout := g.layout,
                        nmax := max i.nmax (primCount op b i.geo), lat := i.lat + primLat op b }
    let s1 := r.1.laneMismatch p differ
    if chainBit f then (s1.updPipe p (fun y => { y with stream := some o })).advance e 1
    else
      let d := f.rd.toNat
      let s2 := s1.updPipe p (fun y => { y with
        stream := none,
        wl := match o.xs with
          | some xs => (y.setWl d xs).wl
          | none => y.wl })
      s2.advance e (passCost o.nmax o.lat)

/-! ### Profiles for the seam measure (R310) -/

/-- The profile of the line in process takes the samples `xs` of a planar line of `n` pixels per plane. -/
def State.keepProfile (s : State) (p : PortId) (xs : List Nat) (n : Nat) : State :=
  let r (hi lo : Nat) := s.rf p.val Off.PRT_CONT_CFG hi lo
  let bw := if r 21 16 = 0 then 64 else r 21 16
  let plane := (xs.drop (r 25 24 * n)).take n
  match (s.port p).prc with
  | none => s
  | some l =>
    let pr := profileOf plane (r 13 0) bw (r 31 28)
    s.updPort p (fun x => { x with splice :=
      if l.overlap then { x.splice with again := ((l.n, pr) :: x.splice.again.filter (fun e => e.1 != l.n)).take 80 }
      else { x.splice with kept := ((l.n, pr) :: x.splice.kept.filter (fun e => e.1 != l.n)).take 80 } })

/-! ### ASSEMBLE (R156) -/

/-- The place of sample `k` of a tap (START a, LEN l, DESC) in the planar line; none where it is discarded. -/
def asmPlace (p np : Nat) (inter desc : Bool) (a l k : Nat) : Option Nat :=
  let i := k / max l 1
  let j := k % max l 1
  if np ≤ i then none
  else
    let pos := if inter then (if j % 2 = 0 then j / 2 else (l + 1) / 2 + (j - 1) / 2) else j
    some (i * p + a + (if desc then l - 1 - pos else pos))

/-- The samples of a tap of the line, in delivery order. -/
def LineRec.tap (l : LineRec) (t : Nat) : List Nat :=
  match l.samples.find? (fun e => e.1 == t) with
  | some e => e.2.reverse
  | none => []

/-- What ASSEMBLE writes (place, sample), and how many samples it discards. -/
def asmWrites (l : LineRec) (b : List Byte) : List (Nat × Nat) × Nat :=
  let p := bHalf b 0
  let np := bByte b 2
  let inter := bitN (bByte b 3) 0
  let all := (asmTaps b).flatMap (fun t => (l.tap t.1).zipIdx.map (fun e => (asmPlace p np inter t.2.2.2 t.2.1 t.2.2.1 e.2, e.1)))
  let kept := all.filterMap (fun e => e.1.map (fun i => (i, e.2)))
  let outside := (l.samples.filter (fun e => !(asmTaps b).any (fun t => t.1 == e.1))).map (fun e => e.2.length)
  (kept, all.length - kept.length + outside.sum)

/-- The meaning of ASSEMBLE. -/
def execAssemble (p : PortId) (f : ZscFields) (differ : Bool) (s : State) : Host.Outcome State Fault Refusal :=
  .next (s.prim p 0x80 f differ (fun t i b =>
    match (t.port p).prc with
    | none => (t, i)
    | some l =>
      let w := asmWrites l b
      let n := bHalf b 0 * bByte b 2
      let xs := (List.range n).map (fun j => ((w.1.find? (fun e => e.1 == j)).map (fun e => e.2)).getD 0)
      let t1 := t.updPipe p (fun y => { y with discard := w.2, unfilled := n - w.1.length })
      ((if (t.port p).pipe.shaded then t1 else t1.keepProfile p xs (bHalf b 0)), { i with xs := some xs })))

/-! ### SHADE (R157, R170 to R172) -/

/-- Replacement of bad pixel `x` of a plane from its neighbours within `dmax` (R160); none where no neighbour is good. -/
def repair (xs : List Nat) (bad : Nat → Bool) (p base x dmax : Nat) : Option Nat :=
  let v (i : Nat) := xs.getD (base + i) 0
  let xl := (List.range dmax).findSome? (fun d => if d + 1 ≤ x ∧ !bad (base + (x - (d + 1))) then some (x - (d + 1)) else none)
  let xr := (List.range dmax).findSome? (fun d => if x + d + 1 < p ∧ !bad (base + (x + d + 1)) then some (x + d + 1) else none)
  match xl, xr with
  | some l, some r => some ((v l * (r - x) + v r * (x - l) + (r - l) / 2) / (r - l))
  | some l, none => some (v l)
  | none, some r => some (v r)
  | none, none => none

/-- Every bad sample of a planar line is replaced (R160); gives the line, the substitutions made and the pixels left. -/
def repairLine (xs : List Nat) (p np dmax : Nat) (bad : Nat → Bool) : List Nat × Nat × Nat :=
  let marks := (List.range (np * p)).filter bad
  let fix := marks.map (fun i => (i, repair xs bad p (i / p * p) (i % p) dmax))
  let left := (fix.filter (fun e => e.2.isNone)).length
  ((List.range (np * p)).map (fun i => match fix.find? (fun e => e.1 == i) with
    | some (_, some y) => y
    | _ => xs.getD i 0), fix.length - left, left)

/-- u of SHADE: offset and gain. -/
def shadeU (e : Int × Nat) (x : Nat) : Int := Int.fdiv (((x : Int) - e.1) * (e.2 : Nat) + 2 ^ 13) (2 ^ 14)

/-- SHADE's output for u with drift factor `q`. -/
def shadeY (u q : Int) (drift wide : Bool) : Nat :=
  let v := if drift then Int.fdiv (u * (1000 + q) + 500) 1000 else u
  (satI v 0 (if wide then 65535 else 16383)).toNat

/-- An entry of a table that lies in a remapped row reads as uncorrectable until it is written (R171); which entries share a row is
a free value. `ph` is the physical bank. -/
def PipeSt.unreadable (y : PipeSt) (table ph e : Nat) : Bool :=
  y.remaps.any (fun r => r.1 == table && r.2.1 == ph && (r.2.2 == e || Config.sameRow table r.2.2 e)) &&
    !y.rewritten.contains (table, ph, e)

/-- An uncorrectable read of a table is counted, and its address shown (R170). -/
def State.eccCount (s : State) (p : PortId) (table bank entry : Nat) : State :=
  (s.incRf p.val Off.PIP_ECC 31 16 1).setReg p.val Off.PIP_ECC_ADDR (2 ^ 31 + table * 2 ^ 17 + bank * 2 ^ 16 + entry % 2 ^ 16)

/-- An uncorrectable read of a table in a pass (R170 to R172): the counts, the address, and the fault that is classified, with the
physical bank and the entry. -/
def State.eccFail (s : State) (p : PortId) (table bank entry : Nat) : State :=
  (s.eccCount p table bank entry).detect
    { kind := 1, unit := p.val, code := 6, arg := table, arg2 := s.phys p table bank * 65536 + entry % 65536, time := 0 }

/-- SHADE_SUBST, once for an entry (R172). -/
def State.substOne (s : State) (p : PortId) (table entry : Nat) : State :=
  if (s.port p).pipe.substed.contains (table, entry) then s
  else (s.updPipe p (fun y => { y with substed := y.substed ++ [(table, entry)] })).raise (portSrc p.val 14) [(8, table), (16, entry)]

/-- The failing entries among those that a pass reads: the ones the errors name, and those of remapped rows (entry, whether the other
bank fails too). -/
def State.allFails (s : State) (p : PortId) (table bank : Nat) (reads : List Nat) (fails : List (Nat × Bool)) : List (Nat × Bool) :=
  let y := (s.port p).pipe
  let ph := s.phys p table bank
  if y.remaps.isEmpty then fails
  else
    fails.map (fun e => (e.1, e.2 || y.unreadable table (1 - ph) e.1)) ++
      (reads.filter (fun e => y.unreadable table ph e && !fails.any (fun d => d.1 == e))).map (fun e => (e, y.unreadable table (1 - ph) e))

/-- DEGRADED of the port by a table (R172, R173). -/
def State.degrade (s : State) (p : PortId) (table : Nat) : State :=
  (s.setRf p.val Off.PIP_BANK_STAT 15 15 1).updPipe p (fun y => { y with degraded := y.degraded ||| (table + 1) })

/-- The uncorrectable entries met by one primitive (R171, R172): `fails` lists (entry, whether the other bank fails too).
With a mirror that reads, the entry is taken from the other bank, which is in force from the next process stage; else it
is substituted and the port is DEGRADED. The result lists the substituted entries. -/
def State.tableErrors (s : State) (p : PortId) (table bank : Nat) (corr : Nat) (fails : List (Nat × Bool)) : State × List Nat :=
  let s0 := s.incRf p.val Off.PIP_ECC 15 0 corr
  let falls := fails.filter (fun e => s.mirror p table && !e.2)
  let subs := (fails.filter (fun e => !(s.mirror p table && !e.2))).map (fun e => e.1)
  let s1 := fails.foldl (fun t e => t.eccFail p table bank e.1) s0
  let s2 := match falls with
    | [] => s1
    | e :: _ =>
      (s1.updPipe p (fun y => if table = 0 then { y with flipS := some bank } else { y with flipD := some bank })).raise (portSrc p.val 13)
        [(8, table), (16, e.1)]
  (subs.foldl (fun t e => (t.degrade p table).substOne p table e) s2, subs)

/-- The samples of a shaded line: the corrected values, the u of R157, and the positions whose entry is uncorrectable (`badE`),
which are repaired. The output of one with no good neighbour to take its place is made with the other bank's entry (DESIGN CHOICE, log
entry 203). -/
def State.shadeStream (t : State) (p : PortId) (fails : List (Nat × Bool)) (i : Stream) (b : List Byte) (xs badE : List Nat) : Stream :=
  let y := (t.port p).pipe
  let phys := t.phys p 0 y.shadeBank
  let entry (k x : Nat) : Int × Nat :=
    let e := k * 16384 + x
    let bk := if fails.any (fun d => d.1 == e) then 1 - phys else phys
    shadeEntry (t.tblWord (shadeKey p.val bk e))
  let drift := bitN (bByte b 0) 1
  let wide := bitN (bByte b 0) 0
  let us := xs.zipIdx.map (fun e => shadeU (entry (e.2 / max i.p 1) (e.2 % max i.p 1)) e.1)
  let ys := us.zipIdx.map (fun e => shadeY e.1 (y.q.getD (e.2 / max i.p 1) 0) drift wide)
  let bad := (List.range xs.length).filter (fun j => badE.contains (j / max i.p 1 * 16384 + j % max i.p 1))
  let out := (repairLine ys i.p i.np 16 (fun j => bad.contains j)).1
  { i with xs := some out, bad := bad,
           u := us.zipIdx.map (fun e => if bad.contains e.2 then ((out.getD e.2 0 : Nat) : Int) else e.1) }

/-- The first SHADE of a line leaves the line's profile (R310). -/
def State.shadeKeep (s : State) (p : PortId) (xs : List Nat) (n : Nat) : State :=
  if (s.port p).pipe.shaded then s else (s.keepProfile p xs n).updPipe p (fun z => { z with shaded := true })

/-- SHADE on a line with samples: entries are read with their errors, then the line is corrected. -/
def State.shadeLine (t : State) (p : PortId) (corr : Nat) (fails : List (Nat × Bool)) (i : Stream) (b : List Byte) : State × Stream :=
  match i.xs with
  | none => (t, i)
  | some xs =>
    let bank := (t.port p).pipe.shadeBank
    let fails := t.allFails p 0 bank ((List.range xs.length).map (fun j => j / max i.p 1 * 16384 + j % max i.p 1)) fails
    let r := t.tableErrors p 0 bank corr fails
    let o := t.shadeStream p fails i b xs r.2
    ((r.1.updPipe p (fun y => { y with shadeBad := r.2 })).shadeKeep p (o.xs.getD []) i.p, o)

/-- The meaning of SHADE: `corr` entries are corrected as they are read, `fails` are uncorrectable. -/
def execShade (p : PortId) (f : ZscFields) (differ : Bool) (corr : Nat) (fails : List (Nat × Bool)) (s : State) :
    Host.Outcome State Fault Refusal :=
  .next (s.prim p 0x81 f differ (fun t i b => t.shadeLine p corr fails i b))

/-! ### DRIFT (R158, R159) -/

/-- The measurement and update of one slot: the new ratio, or none where the slot is not valid on this line. -/
def driftSlot (u : List Int) (p k z0 z1 ref minlevel a : Nat) (acc : Int) : Option Int :=
  let c := z1 - z0 + 1
  let m := Int.fdiv (((u.drop (k * p + z0)).take c).sum) c
  if m < (minlevel : Int) ∨ m = 0 then none
  else
    let r := Int.fdiv ((ref : Int) * 65536 + Int.fdiv m 2) m
    some (acc + Int.fdiv (r - acc) (2 ^ a))

/-- qr of R158. -/
def driftQ (acc : Int) : Int := Int.fdiv ((acc - 65536) * 1000 + 32768) 65536

/-- The meaning of DRIFT. -/
def execDrift (p : PortId) (f : ZscFields) (differ : Bool) (s : State) : Host.Outcome State Fault Refusal :=
  .next (s.prim p 0x82 f differ (fun t i b =>
    match i.xs with
    | none => (t, i)
    | some _ =>
      let y := (t.port p).pipe
      let mask := bByte b 4
      let a := bByte b 5
      let upd := (List.range 4).map (fun k =>
        if bitN mask k then driftSlot i.u i.p k (bHalf b 0) (bHalf b 2) (bHalf b (8 + 2 * k)) (bHalf b 0x10) a (y.dAcc.getD k 65536)
        else none)
      let acc := (List.range 4).map (fun k => ((upd.getD k none).getD (y.dAcc.getD k 65536 : Int)).toNat)
      let valid := (List.range 4).map (fun k => y.dValid.getD k 0 + b2n (upd.getD k none).isSome)
      let qr (k : Nat) : Int := driftQ (acc.getD k 65536)
      let sat := (maskList 4 mask).filter (fun k => decide (qr k < -127) || decide (127 < qr k))
      let q := (List.range 4).map (fun k => if bitN mask k then satI (qr k) (-127) 127 else 0)
      let t1 := t.updPipe p (fun z => { z with dAcc := acc, dValid := valid, qNext := q })
      let vbits := (maskList 4 mask).foldl (fun m k => m + b2n (decide (2 ^ a ≤ valid.getD k 0)) * 2 ^ k) 0
      let t2 := t1.setRf p.val Off.PIP_DRIFT_STAT 3 0 vbits
      let t3 := sat.foldl (fun z k => z.setRf p.val Off.PIP_DRIFT_STAT (4 + k) (4 + k) 1) t2
      ((if sat.isEmpty then t3 else t3.raise (portSrc p.val 9) [(8, sat.foldl (fun m k => m + 2 ^ k) 0)]), i)))

/-! ### DEFECT, BIN and LUT (R160 to R163) -/

/-- Whether sample `j` of a line is defective: SHADE substituted it, in this pass or an earlier one of the line, or its table bit is
set and readable (R160, R172). -/
def State.defectBad (t : State) (p : PortId) (fails : List (Nat × Bool)) (i : Stream) (badW : List Nat) (j : Nat) : Bool :=
  let phys := t.phys p 1 (t.port p).pipe.defBank
  let k := j / max i.p 1
  let x := j % max i.p 1
  let w := k * 256 + x / 64
  i.bad.contains j || (t.port p).pipe.shadeBad.contains (k * 16384 + x) || (!badW.contains w && t.defectBit p (if fails.any (fun d => d.1 == w) then 1 - phys else phys) k x)

/-- DEFECT on a line with samples: words are read with their errors, then the line is repaired. -/
def State.defectLine (t : State) (p : PortId) (corr : Nat) (fails : List (Nat × Bool)) (i : Stream) (b : List Byte) : State × Stream :=
  match i.xs with
  | none => (t, i)
  | some xs =>
    let bank := (t.port p).pipe.defBank
    let fails := t.allFails p 1 bank (((List.range xs.length).map (fun j => j / max i.p 1 * 256 + j % max i.p 1 / 64)).dedup) fails
    let r := t.tableErrors p 1 bank corr fails
    let o := repairLine xs i.p i.np (bByte b 0) (t.defectBad p fails i r.2)
    (r.1.updPipe p (fun z => { z with subst := o.2.1, unrep := o.2.2 }), { i with xs := some o.1 })

/-- The meaning of DEFECT: `fails` lists uncorrectable 64-bit words of the map (index, whether the other bank fails too). -/
def execDefect (p : PortId) (f : ZscFields) (differ : Bool) (corr : Nat) (fails : List (Nat × Bool)) (s : State) :
    Host.Outcome State Fault Refusal :=
  .next (s.prim p 0x83 f differ (fun t i b => t.defectLine p corr fails i b))

/-- The sums of BIN in x, shifted: floor(P / BX) pixels per plane. -/
def binX (xs : List Nat) (p np bx xsh : Nat) : List Nat :=
  let m := p / max bx 1
  (List.range (np * m)).map (fun j => (((xs.drop (j / m * p + j % m * bx)).take bx).sum) / 2 ^ xsh)

/-- Adds two lists of sums. -/
def addSums (a b : List Nat) : List Nat := (List.range (max a.length b.length)).map (fun i => a.getD i 0 + b.getD i 0)

/-- The y-average of BIN on an accumulator (R161): the new accumulator, and the result of a complete group. -/
def AccSt.step (x : AccSt) (xv : List Nat) (height ysh : Nat) : AccSt × Option (List Nat) :=
  let a := if x.cnt = 0 then xv else addSums x.a xv
  if x.cnt + 1 = height then ({ a := a, cnt := 0 }, some (a.map (fun v => min (v / 2 ^ ysh) 65535)))
  else ({ a := a, cnt := x.cnt + 1 }, none)

/-- The averages of a capture of `len` lines, in units of 1/4 code (R162). -/
def calAvg (sums : List Nat) (len : Nat) : List Nat := sums.map (fun v => min (v * 4 / len) 65535)

/-- A calibration capture takes this line (R162, R174): its samples are summed, and the last line writes the averages to DEST; the
capture completes with the line's stage. An overlap line is skipped (R308). -/
def State.calLine (s : State) (p : PortId) (xs : List Nat) (g : Geo) (dest : Nat) : State :=
  match (s.port p).pipe.cap, (s.port p).prc with
  | some c, some l =>
    if l.overlap || l.dropped || decide (c.len ≤ c.taken) || (match c.fromLine with | none => true | some n => decide (l.n < n)) then s
    else
      let acc := (s.port p).pipe.accs[1]
      let sums := if c.taken = 0 then xs else addSums acc.a xs
      let done := c.taken + 1 = c.len
      let s1 := (s.setRf p.val Off.PIP_CAL 24 16 (c.taken + 1))
      let s2 := s1.updPipe p (fun y => { y with
        accs := y.accs.set 1 { a := sums, cnt := c.taken + 1 },
        cap := some { c with taken := c.taken + 1, geo := (g.p, g.np) }, calAdd := xs })
      if done then
        (s2.updPipe p (fun y => { (y.setWl dest (calAvg sums c.len)) with calDone := true })).setRf p.val Off.PIP_CAL 8 8 0
      else s2
  | _, _ => s

/-- The process stage of a line ends: a capture that took it as its last line completes, and REFB or REFW holds the averages (R162,
R174); a dropped line is no line of the capture. -/
def State.capFinish (s : State) (p : PortId) : State :=
  match (s.port p).pipe.cap, (s.port p).prc with
  | some c, some l =>
    if l.dropped then s.undoCal p
    else if c.taken < c.len then s
    else
      let w := c.target % 2
      let s1 := s.updPipe p (fun y =>
        { y with refs := y.refs.set w (calAvg y.accs[1].a c.len) (Nat.mod_lt _ (by decide)),
                 refGeo := y.refGeo.set w c.geo (Nat.mod_lt _ (by decide)), cap := none, calAdd := [] })
      ((s1.setRf p.val Off.PIP_CAL (10 + w) (10 + w) 1).setRf p.val Off.PIP_CAL 8 8 0).raise (portSrc p.val 18) [(8, c.target)]
  | _, _ => s

/-- The meaning of BIN. -/
def execBin (p : PortId) (f : ZscFields) (differ : Bool) (s : State) : Host.Outcome State Fault Refusal :=
  .next (s.prim p 0x84 f differ (fun t i b =>
    match i.xs with
    | none => (t, i)
    | some xs =>
      let flags := bByte b 6
      let fork := bitN flags 0
      if bitN flags 1 then (t.calLine p xs i.geo (bByte b 7), i)
      else
        let xv := binX xs i.p i.np (bByte b 0) (bByte b 1)
        let height := bHalf b 2
        let w := bByte b 5 % 2
        let y := (t.port p).pipe
        let r : PipeSt × Option (List Nat) :=
          if height = 1 then (y, some (xv.map (fun v => min v 65535)))
          else
            let st := (y.accs[w]'(Nat.mod_lt _ (by decide))).step xv height (bByte b 4)
            ({ y with accs := y.accs.set w st.1 (Nat.mod_lt _ (by decide)),
                      groupDone := y.groupDone || (w == 0 && st.2.isSome) }, st.2)
        if fork then
          (t.updPipe p (fun _ => match r.2 with | some res => r.1.setWl (bByte b 7) res | none => r.1), i)
        else (t.updPipe p (fun _ => r.1), { i with xs := r.2 })))

/-- The meaning of LUT. -/
def execLut (p : PortId) (f : ZscFields) (differ : Bool) (s : State) : Host.Outcome State Fault Refusal :=
  .next (s.prim p 0x85 f differ (fun t i b =>
    let in14 := bitN (bByte b 0) 0
    let slot := (t.eng (pipeEng p)).setup % 8
    let e (k j : Nat) : Int := fld (t.tblWord (lutKey p.val (slot * 4 + k) j)) 15 0
    (t, { i with xs := i.xs.map (fun xs => xs.zipIdx.map (fun d =>
      let k := d.2 / max i.p 1
      let v := if in14 then min d.1 16383 * 4 else d.1
      let n := v / 16
      let fr : Int := Int.ofNat (v % 16)
      let o : Int := e k n + Int.fdiv ((e k (min (n + 1) 4095) - e k n) * fr + 8) 16
      o.toNat)) })))

/-! ### PRD (R155) -/

/-- The pipeline values of Table 6.5; a half of a value stops at 65,535 (DESIGN CHOICE, log entry 203). -/
def State.prdValue (s : State) (p : PortId) (i : Nat) : Option Nat :=
  let y := (s.port p).pipe
  match i with
  | 0 =>
    let gap := match (s.port p).prc with | some l => l.gap | none => false
    some (b2n y.groupDone + 2 * b2n y.calDone + 4 * b2n gap + 8 * b2n (y.cap.isSome && !y.calDone))
  | 1 => some ((List.range 4).foldl (fun a k => a + twos 8 (y.q.getD k 0) * 2 ^ (8 * k)) 0)
  | 2 => some (min y.subst 65535 + min y.unrep 65535 * 2 ^ 16)
  | 3 => some (match (s.port p).prc with | some l => (l.samples.map (fun e => e.2.length)).sum | none => 0)
  | 4 => some (min y.discard 65535 + min y.unfilled 65535 * 2 ^ 16)
  | _ => none

/-- The meaning of PRD: g[rd] := the value ext[7:0]; an index not in Table 6.5 traps ILLEGAL. -/
def execPrd (p : PortId) (f : ZscFields) (s : State) : Host.Outcome State Fault Refusal :=
  let e := pipeEng p
  .next (s.instr e 0x9F { rd := true, ext := 0xFF } f (fun t =>
    match t.prdValue p f.ext.toNat with
    | none => t.trap e 1 (hiWord 0x9F f).toNat
    | some v => (t.updEng e (fun x => x.set f.rd (BitVec.ofNat 32 v))).advance e 1))

end Sys2Proof.Machine
end

