-- ==== Sys2Proof/Machine/Coding.lean ====
section
/-! DEFINITION. Planes, gather and fixed-ratio coding (spec/07_fixed_ratio_coding.md, R182 to R203). -/

namespace Sys2Proof.Machine

/-! ### PLANE and GATHER -/

/-- The 16-bit word of a bit-plane: bits of pixels 16 m to 16 m + 15 (R184). -/
def bitPlaneWord (xs : List Nat) (base p m bit thr : Nat) : Nat :=
  (List.range 16).foldl (fun a j =>
    let x := 16 * m + j
    let v := xs.getD (base + x) 0
    let b := if p ≤ x then false else if bit = 16 then decide (thr ≤ v) else bitN v bit
    a + b2n b * 2 ^ j) 0

/-- What PLANE produces (R184). -/
def planeOut (xs : List Nat) (p np : Nat) (b : List Byte) : List Nat :=
  let n := bByte b 1
  let order (i : Nat) := fld (bByte b 2) (2 * i + 1) (2 * i)
  match bByte b 0 with
  | 0 => (List.range (n * p)).map (fun j => xs.getD (order (j / max p 1) * p + j % max p 1) 0)
  | 1 => (List.range (n * p)).map (fun j => xs.getD (order (j % max n 1) * p + j / max n 1) 0)
  | 2 => (List.range (n * p)).map (fun j => xs.getD (j % max p 1 * np + order (j / max p 1)) 0)
  | _ =>
    let w := (p + 15) / 16
    (List.range (n * w)).map (fun j => bitPlaneWord xs (order (j / max w 1) * p) p (j % max w 1) (bByte b 3) (bHalf b 4))

/-- The meaning of PLANE. -/
def execPlane (p : PortId) (f : ZscFields) (differ : Bool) (s : State) : Host.Outcome State Fault Refusal :=
  .next (s.prim p 0x88 f differ (fun t i b => (t, { i with xs := i.xs.map (fun xs => planeOut xs i.p i.np b) })))

/-- A word of index table `t` (Table 7.2). -/
def State.idxWord (s : State) (t w : Nat) : Nat := s.tblWord (idxKey t w)

/-- What GATHER produces (R187) with table words `w`. -/
def gatherOut (xs : List Nat) (p np base nmax count elen : Nat) (off : Nat → Nat) : List Nat :=
  let e := elen / 2
  (List.range (np * nmax)).map (fun j =>
    let k := j / max nmax 1
    let x := j % max nmax 1
    let i := x / max e 1
    if count ≤ i ∨ e = 0 then 0 else xs.getD (k * p + (base + off i) / 2 + x % max e 1) 0)

/-- The meaning of GATHER. -/
def execGather (p : PortId) (f : ZscFields) (differ : Bool) (s : State) : Host.Outcome State Fault Refusal :=
  .next (s.prim p 0x89 f differ (fun t i b =>
    let tb := bByte b 0 % 64
    (t, { i with xs := i.xs.map (fun xs =>
      gatherOut xs i.p i.np (leAt b 4 4) (bHalf b 8) (t.idxWord tb 0) (t.idxWord tb 1) (fun j => t.idxWord tb (4 + j))) })))

/-- Every GATHER block of a pipe program fits its index table (R188). -/
def State.gatherOk (s : State) (x : Eng) (slot : Nat) (g : Prog) : Bool :=
  (g.passes x).all (fun ps =>
    (geosOf x slot ps.prims (g.source x slot ps.src)).1.all (fun e =>
      if e.2.1 = 0x89 then
        let b := e.2.2.1
        let t := bByte b 0 % 64
        let count := s.idxWord t 0
        let elen := s.idxWord t 1
        decide (count ≤ bHalf b 2) && elen % 2 == 0 && decide (count * elen / 2 ≤ bHalf b 8) &&
          (List.range (min count 4096)).all (fun i =>
            (leAt b 4 4 + s.idxWord t (4 + i)) % 2 == 0 && decide (leAt b 4 4 + s.idxWord t (4 + i) + elen ≤ 2 * e.2.2.2.p))
      else true))

/-- The index tables that the GATHER blocks of a pipe program name (R186). -/
def Prog.tables (x : Eng) (slot : Nat) (g : Prog) : List Nat :=
  ((g.instrs x).filter (fun e => e.2.1 == 0x89)).map (fun e => bByte (x.block slot (pbOf e.2.2) 16) 0 % 64)

/-! ### PACK (R189) -/

/-- The bytes of PACK. -/
def packOut (xs : List Nat) (format shift : Nat) : List Byte :=
  if format = 0 then xs.flatMap (fun v => leBytes 2 v)
  else
    let n := xs.foldr (fun v a => min (v / 2 ^ shift) 16383 + 2 ^ 14 * a) 0
    leBytes (packBytes 1 xs.length) n

/-- Writes a payload area of the line in process. -/
def State.setArea (s : State) (p : PortId) (a : Nat) (v : Area) : State :=
  s.updPipe p (fun y => { y with areas := y.areas.set (a % 4) (some v) (Nat.mod_lt _ (by decide)) })

/-- PACK, with room in the staging. -/
def State.pack (s : State) (p : PortId) (f : ZscFields) (differ : Bool) : State :=
  s.prim p 0x8A f differ (fun t i b =>
    match i.xs with
    | none => (t, i)
    | some xs =>
      (t.setArea p (bByte b 2) { bytes := packOut xs (bByte b 0) (bByte b 1), p := i.p, np := i.np, layout := i.layout,
                                 coding := min (bByte b 0) 1, bad := 0 },
        if bitN (bByte b 3) 0 then i else { i with xs := none }))

/-! ### The coder (R190 to R195) -/

/-- try of R193 from reconstructed neighbour `r`: the residuals of the remaining samples, or none. -/
def tryGo (s w : Nat) : List Nat → Nat → Option (List Int)
  | [], _ => some []
  | x :: t, r =>
    let h : Int := if s = 0 then 0 else 2 ^ (s - 1)
    let q : Int := Int.fdiv ((x : Int) - r + h) (2 ^ s)
    if q < -(2 ^ (w - 1)) ∨ 2 ^ (w - 1) - 1 < q then none
    else (tryGo s w t (satI ((r : Int) + q * 2 ^ s) 0 65535).toNat).map (fun qs => q :: qs)

/-- try of R193: c0 and the residuals. -/
def tryBlock (xs : List Nat) (s w : Nat) : Option (Nat × List Int) :=
  match xs with
  | [] => none
  | x0 :: t =>
    let c0 := (x0 + (if s = 0 then 0 else 2 ^ (s - 1))) / 2 ^ s
    (tryGo s w t (min (c0 * 2 ^ s) 65535)).map (fun qs => (c0, qs))

/-- The smallest shift that codes a block, from `s` on (R193). -/
def encodeGo (xs : List Nat) (w : Nat) : Nat → Nat → Nat × Nat × List Int
  | 0, s => (s, 0, [])
  | n + 1, s =>
    match tryBlock xs s w with
    | some r => (s, r)
    | none => encodeGo xs w n (s + 1)

/-- The bytes of a coded block and its shift (R192, R193); a bypass block holds its samples. -/
def encodeBlock (xs : List Nat) (mode : Nat) : List Byte × Nat :=
  if mode = 2 then (xs.flatMap (fun v => leBytes 2 v), 0)
  else
    let w := codeWidth mode
    let r := encodeGo xs w 16 0
    let bits := r.1 + mode * 16 + r.2.1 % 65536 * 2 ^ 16 +
      r.2.2.foldr (fun q a => twos w q + 2 ^ w * a) 0 * 2 ^ 32
    (leBytes (codeBytes mode) bits, r.1)

/-- The residual stage of the decoder (R195): residual `j` on from neighbour `d`. -/
def decodeGo (v s w : Nat) : Nat → Nat → Nat → List Nat
  | 0, _, _ => []
  | n + 1, j, d =>
    let q := sgn w (v / 2 ^ (32 + (j - 1) * w))
    let d' := (satI ((d : Int) + q * 2 ^ s) 0 65535).toNat
    d' :: decodeGo v s w n (j + 1) d'

/-- decode of R195. -/
def decodeBlock (bs : List Byte) : List Nat :=
  if bs.length = 64 then (List.range 32).map (fun j => leAt bs (2 * j) 2)
  else
    let v := leNat bs
    let s := v % 16
    let w := codeWidth (fld v 6 4)
    let d0 := min (fld v 31 16 * 2 ^ s) 65535
    d0 :: decodeGo v s w 31 1 d0

/-- The checks of the verify unit on a written block (R197). -/
def verifyBlock (xs : List Nat) (mode : Nat) (bs : List Byte) : Bool :=
  let v := leNat bs
  let d := decodeBlock bs
  let s := v % 16
  if mode = 2 then d == xs
  else
    fld v 15 7 == 0 && v / 2 ^ (32 + 31 * codeWidth mode) == 0 && fld v 6 4 == mode &&
      ((xs.zip d).all (fun e => decide (dist' e.1 e.2 ≤ if s = 0 then 0 else 2 ^ (s - 1))))
where
  /-- Distance of two samples. -/
  dist' (a b : Nat) : Nat := if a ≤ b then b - a else a - b

/-- The blocks of a line (R191): by block number b = k * B + j, each of 32 samples, the last completed with copies. -/
def lineBlocks (xs : List Nat) (g : Geo) : List (List Nat) :=
  let l := g.plane
  (List.range (g.np * g.blocks)).map (fun b =>
    let k := b / max g.blocks 1
    let j := b % max g.blocks 1
    (List.range 32).map (fun i => xs.getD (k * l + min (32 * j + i) (l - 1)) 0))

/-- The payload position of block number `b` (R197). -/
def blockPos (g : Geo) (il : Bool) (b : Nat) : Nat :=
  if il then b % max g.blocks 1 * g.np + b / max g.blocks 1 else b

/-- One coding of a line: every block with its bytes as written, its shift and whether it verifies. `wrote` gives blocks whose
bytes are not the coder's. -/
def codeLine (xs : List Nat) (g : Geo) (mode : Nat) (twin : Bool) (wrote : List (Bool × Nat × List Byte)) :
    List (Nat × List Byte × Nat × Bool) :=
  (lineBlocks xs g).zipIdx.map (fun e =>
    let r := encodeBlock e.1 mode
    let bs := match wrote.find? (fun w => w.1 == twin && w.2.1 == e.2) with
      | some w => (w.2.2 ++ List.replicate (codeBytes mode) 0).take (codeBytes mode)
      | none => r.1
    (e.2, bs, r.2, verifyBlock e.1 mode bs))

/-- The payload of a coding in its order (R191). -/
def codePayloadBytes (cs : List (Nat × List Byte × Nat × Bool)) (g : Geo) (il : Bool) : List Byte :=
  (List.range cs.length).flatMap (fun pos =>
    let b := if il then pos % max g.np 1 * g.blocks + pos / max g.np 1 else pos
    (cs.getD b (0, [], 0, true)).2.1)

/-- One coding written to its area: its blocks are counted (CMP_BLOCKS, CMP_SHIFT); failing blocks wait to be reported, but on a line
whose lanes differ (R199). -/
def State.codeArea (s : State) (p : PortId) (i : Stream) (mode area : Nat) (il twin inject : Bool)
    (wrote : List (Bool × Nat × List Byte)) : State :=
  match i.xs with
  | none => s
  | some xs =>
    let g := i.geo
    let cs := codeLine xs g mode twin wrote
    let bad := cs.filter (fun e => !e.2.2.2 || (inject && e.1 == 0))
    let lay := if il then (if g.layout = 3 then 4 else 2) else g.layout
    let s1 := s.setArea p area { bytes := codePayloadBytes cs g il, p := i.p, np := i.np, layout := lay, coding := mode,
                                 bad := min bad.length 65535 }
    let s2 := s1.setPair p.val Off.CMP_BLOCKS_LO ((s1.pair p.val Off.CMP_BLOCKS_LO + cs.length) % 2 ^ 64)
    let s3 := if mode = 2 then s2 else
      (List.range 16).foldl (fun t k => t.incRf p.val (Off.CMP_SHIFT + 4 * k) 31 0 (cs.filter (fun e => e.2.2.1 == k)).length) s2
    s3.updPipe p (fun y => if y.mismatch then y else
      { y with fails := y.fails ++ bad.map (fun e => (area, e.1, blockPos g il e.1, inject && e.1 == 0)) })

/-- CODE, with room in the staging. -/
def State.code (s : State) (p : PortId) (f : ZscFields) (differ : Bool) (wrote : List (Bool × Nat × List Byte)) : State :=
  s.prim p 0x8B f differ (fun t i b =>
    let il := bitN (bByte b 3) 1
    let inj := (t.port p).pipe.inject && i.xs.isSome
    let t0 := if inj then t.updPipe p (fun y => { y with inject := false }) else t
    let t1 := t0.codeArea p i (bByte b 0) (fld (bByte b 2) 1 0) il false inj wrote
    let t2 := if bByte b 1 = 0 then t1 else t1.codeArea p i (bByte b 1) (fld (bByte b 2) 5 4) il true false wrote
    (t2, if bitN (bByte b 3) 0 then i else { i with xs := none }))

/-! ### Stalls (R201) -/

/-- The bytes of the output staging of a port. -/
def stagingBytes : Nat := 4096

/-- What a PACK or CODE writes into the staging: all its bytes, and the bytes of one unit: 64 of PACK, a block and its twin of CODE. -/
def State.stageNeed (s : State) (p : PortId) (op : Nat) (f : ZscFields) : Nat × Nat :=
  let i := s.inStream p f
  let b := s.block p op f
  match i.xs with
  | none => (0, 1)
  | some xs =>
    if op = 0x8A then (packBytes (bByte b 0) xs.length, 64)
    else
      let unit := codeBytes (bByte b 0) + (if bByte b 1 = 0 then 0 else codeBytes (bByte b 1))
      (i.np * i.geo.blocks * unit, unit)

/-- Writes units into the staging, in which `room` bytes are free or become free: whole units, and the last one however short; gives the
bytes that have no room yet. -/
def stageGo (left unit room : Nat) : Nat :=
  let k := min (left / max unit 1) (room / max unit 1)
  let rest := left - k * unit
  if rest < unit ∧ rest + k * unit ≤ room then 0 else rest

/-- The staging takes what it has room for, `drained` bytes leaving it meanwhile; gives the bytes still to be written. -/
def State.stage (s : State) (p : PortId) (left unit drained : Nat) : State × Nat :=
  let y := (s.port p).pipe
  let rest := stageGo left unit (stagingBytes - y.staged + drained)
  (s.updPipe p (fun z => { z with staged := min stagingBytes (y.staged + (left - rest) - drained) }), rest)

/-- Whether a PACK or CODE would run now, so that it can stall. -/
def State.wouldRun (s : State) (p : PortId) (f : ZscFields) : Bool :=
  let x := s.eng (pipeEng p)
  x.run == .running && (s.port p).pipe.stall.isNone && !(s.port p).pipe.skip && f.rb == 0 && f.imm.toNat / 16384 == 0 &&
    f.ext &&& 0x7F#8 == 0 && f.cond != 15 && x.condTrue f.cond

/-- A PACK or CODE that stalls (R201). -/
def State.stallAt (s : State) (p : PortId) (st : StallSt) : State := s.updPipe p (fun y => { y with stall := some st })

/-- The meaning of PACK: without room in the staging for its next unit it stalls (R201); `drained` bytes leave the staging while it
runs. -/
def execPack (p : PortId) (f : ZscFields) (differ : Bool) (drained : Nat) (s : State) : Host.Outcome State Fault Refusal :=
  if !s.wouldRun p f then .next (s.pack p f differ)
  else
    let n := s.stageNeed p 0x8A f
    let r := s.stage p n.1 n.2 drained
    .next (if r.2 = 0 then r.1.pack p f differ else r.1.stallAt p { left := r.2, op := 0x8A, f := f, differ := differ, wrote := [] })

/-- The meaning of CODE: without room in the staging for its next block, and its twin, it stalls (R201). -/
def execCode (p : PortId) (f : ZscFields) (differ : Bool) (drained : Nat) (wrote : List (Bool × Nat × List Byte)) (s : State) :
    Host.Outcome State Fault Refusal :=
  if !s.wouldRun p f then .next (s.code p f differ wrote)
  else
    let n := s.stageNeed p 0x8B f
    let r := s.stage p n.1 n.2 drained
    .next (if r.2 = 0 then r.1.code p f differ wrote
      else r.1.stallAt p { left := r.2, op := 0x8B, f := f, differ := differ, wrote := wrote })

/-- The meaning of STAGING_DRAIN: bytes leave the staging, after stall cycles if a primitive stalls, which goes on
with the units that now have room, and is done when all are written. Stall cycles lengthen the process stage and are no part of the
tick's count (R201). -/
def execStagingDrain (p : PortId) (d : Drained) (s : State) : Host.Outcome State Fault Refusal :=
  match (s.port p).pipe.stall with
  | none => .next (s.updPipe p (fun y => { y with staged := y.staged - d.bytes }))
  | some st =>
    let n := (s.port p).pipe.stallCyc + d.cycles
    let r := s.stage p st.left (s.stageNeed p st.op st.f).2 d.bytes
    if r.2 ≠ 0 then .next (r.1.updPipe p (fun y => { y with stall := some { st with left := r.2 }, stallCyc := n }))
    else
      let s1 := r.1.updPipe p (fun y => { y with stall := none, stallCyc := n })
      .next (if st.op = 0x8A then s1.pack p st.f st.differ else s1.code p st.f st.differ st.wrote)

/-- The stall cycles of a line whose PACK or CODE stalls still as its process stage ends (R201): the cycles of the stage that the engine has
not spent, at 1.2 GHz from the tick at `t0` that began it (log entry 202). -/
def State.stallOver (s : State) (p : PortId) (t0 : Nat) : State :=
  if (s.port p).pipe.stall.isSome then
    s.updPipe p (fun y => { y with stallCyc := max y.stallCyc ((s.now - t0) * 6 / 5 - 8 - (s.eng (pipeEng p)).cyc) })
  else s

/-- CMP_STALL shows the stall cycles of a line as its process stage ends (R201). -/
def State.showStall (s : State) (p : PortId) : State :=
  let last := min (s.port p).pipe.stallCyc 65535
  s.setReg p.val Off.CMP_STALL (max last (s.rf p.val Off.CMP_STALL 31 16) * 2 ^ 16 + last)

end Sys2Proof.Machine
end

