-- ==== Sys2Proof/Machine/Records.lean ====
section
/-! DEFINITION. Slates, SLATE and EMIT, descriptor rings and data channels (spec/08_line_records.md). -/

namespace Sys2Proof

open Sys2Proof.Machine in
/-- The slate's bytes 0x00 to 0x3B in format `v` (R206, Table 8.4): `lost` is the lost count of the destination. -/
def Rec.slate (r : Rec) (v lost : Nat) : List Byte :=
  let keep := if v = 1 then 0x13F else if v = 2 then 0x17F else 0x1FF
  leBytes 2 v ++ leBytes 1 r.type ++ leBytes 1 r.port ++ leBytes 4 (r.flags &&& keep) ++ leBytes 8 (r.line % 2 ^ 48) ++
    leBytes 8 (twos 64 r.pos) ++ leBytes 8 r.time ++ leBytes 2 r.setup ++ leBytes 1 r.range ++ leBytes 1 r.coding ++
    leBytes 2 r.pixels ++ leBytes 1 r.planes ++ leBytes 1 r.layout ++ leBytes 4 r.payload.length ++
    leBytes 2 (min lost 65535) ++ leBytes 2 (if v = 3 then min r.bad 65535 else 0) ++
    leBytes 4 (if v = 1 then 0 else r.drift) ++ leBytes 4 (if v = 3 then r.cont else 0) ++ leBytes 4 0

open Sys2Proof.Machine in
/-- A record as delivered (R204, R211, R213). -/
def Rec.bytes (r : Rec) (v lost : Nat) : List Byte :=
  let h := r.slate v lost
  h ++ leBytes 4 (crc32c (h ++ r.payload)) ++ r.payload

/-- The length of a record in bytes (R204). -/
def Rec.size (r : Rec) : Nat := 64 + r.payload.length

end Sys2Proof

namespace Sys2Proof.Machine

/-! ### SLATE and EMIT (R214 to R217) -/

/-- Whether a cue mark names line `n` of port `p` (R208, R276). -/
def State.cueNames (s : State) (p : PortId) (n : Nat) : Bool := s.tks.cues.any (fun c => c.2.port == p.val && c.2.line == some n)

/-- DRIFT_VALID (R159): a DRIFT of the setup has a plane mask that is not empty, and every masked slot has been valid often
enough. -/
def State.driftValid (s : State) (p : PortId) : Bool :=
  let x := s.eng (pipeEng p)
  ((s.prog (pipeEng p)).instrs x).any (fun e =>
    let b := x.block x.setup (pbOf e.2.2) 32
    let mask := bByte b 4
    e.2.1 == 0x82 && mask != 0 && (List.range 4).all (fun k => !bitN mask k || decide (2 ^ bByte b 5 ≤ (s.port p).pipe.dValid.getD k 0)))

/-- The timestamp of a line: the device time of its gate's midpoint (R117). -/
def State.gateTime (s : State) (p : PortId) (l : LineRec) : Nat :=
  l.time + (l.gateStart + l.gateEnd) * 5 * 2 ^ 24 / max (s.freq p) 1

/-- The record that SLATE builds for the line in process from area `a` (R207, R208); with no area it has no payload. -/
def State.slateRec (s : State) (p : PortId) (l : LineRec) (type : Nat) (a : Option Area) : Rec :=
  let y := (s.port p).pipe
  let g := a.getD { bytes := [], p := 0, np := 0, layout := 0, coding := 0, bad := 0 }
  let seam := if l.splice then (s.port p).splice.seam else none
  let flags := [l.splice, l.leader, l.cutFlag, s.cueNames p l.n, s.portDegraded p, g.bad != 0,
    s.driftValid p, seam.isSome]
  { type := type, port := p.val, flags := (flags.zipIdx.map (fun e => b2n e.1 * 2 ^ e.2)).sum, line := l.n, pos := sext48 l.pos,
    time := s.gateTime p l, setup := l.slot % 8 + l.cuts % 256 * 256, range := l.range, coding := g.coding, pixels := g.p,
    planes := g.np, layout := g.layout, bad := g.bad,
    drift := (List.range 4).foldl (fun d k => d + twos 8 (y.q.getD k 0) * 2 ^ (8 * k)) 0, cont := seam.getD 0,
    payload := g.bytes }

/-- SLATE and EMIT execute (R214): ra, rd, rb, CHAIN, ext[38:32] and imm[31:14] must be 0. -/
def State.recordInstr (s : State) (p : PortId) (op cost : Nat) (f : ZscFields) (body : State → LineRec → List Byte → State) :
    State :=
  let e := pipeEng p
  s.instr e op { imm := true } f (fun t =>
    if f.imm.toNat / 16384 ≠ 0 then t.trap e 1 (hiWord op f).toNat
    else
      let x := t.eng e
      match (t.port p).prc with
      | none => t.advance e cost
      | some l => (body t l (x.block x.setup (pbOf f) 16)).advance e cost)

/-- The meaning of SLATE (R215): an area that nothing wrote in this line leaves the slot empty. -/
def execSlate (p : PortId) (f : ZscFields) (s : State) : Host.Outcome State Fault Refusal :=
  .next (s.recordInstr p 0x8C 4 f (fun t l b =>
    let area := bByte b 2
    let r := if area = 255 then some (t.slateRec p l (bByte b 1) none)
      else ((t.port p).pipe.areas[area % 4]'(Nat.mod_lt _ (by decide))).map (fun a => t.slateRec p l (bByte b 1) (some a))
    t.updPipe p (fun y => { y with slots := y.slots.set (bByte b 0 % 4) r (Nat.mod_lt _ (by decide)) })))

/-- The meaning of EMIT (R216, R217): an empty slot does nothing; a record that comes fewer than EVERY line numbers after
the last one that this block queued is discarded. -/
def execEmit (p : PortId) (f : ZscFields) (s : State) : Host.Outcome State Fault Refusal :=
  .next (s.recordInstr p 0x8D 2 f (fun t l b =>
    let y := (t.port p).pipe
    let slot := bByte b 0 % 4
    match y.slots[slot]'(Nat.mod_lt _ (by decide)) with
    | none => t
    | some r =>
      let pb := pbOf f
      let early := match y.lastEmit.find? (fun e => e.1 == pb) with
        | some e => decide (dist l.n e.2 < bHalf b 2)
        | none => false
      if early then t.raise (portSrc p.val 23) [(8, slot), (32, l.n % 2 ^ 32)]
      else t.updPipe p (fun y => { y with
        queued := y.queued ++ [{ rec_ := r, slot := slot, dest := bByte b 1 }],
        lastEmit := (pb, l.n) :: y.lastEmit.filter (fun e => e.1 != pb) })))
where
  /-- Distance of two line numbers. -/
  dist (a b : Nat) : Nat := if a ≤ b then b - a else a - b

/-! ### Channels -/

/-- Channel `c`. -/
def State.chan (s : State) (c : ChanId) : ChanSt := s.chans[c]

/-- Changes channel `c`. -/
def State.updChan (s : State) (c : ChanId) (f : ChanSt → ChanSt) : State := { s with chans := s.chans.set c (f s.chans[c]) }

/-- The channel of stream `k` of a port (R222). -/
def chanOf (p : PortId) (k : Nat) : ChanId := ⟨(4 * p.val + k) % 64, Nat.mod_lt _ (by decide)⟩

/-- The port of a channel (R222). -/
def portOfChan (c : ChanId) : PortId := ⟨c.val / 4, by omega⟩

/-- A rewind ends without an end marker (R284): REWIND_DONE, and its share is released. -/
def State.rewindOver (s : State) (p : PortId) (cause : Nat) : State :=
  match s.tks.ports[p].rewind with
  | none => s
  | some r =>
    { s with tks := { s.tks with ports := s.tks.ports.set p { s.tks.ports[p] with rewind := none } } }.raise
      (tksSrc (32 + p.val)) [(32, r.delivered), (8, cause)]

/-- Descriptors given and not handed back: DMA_DC_LEVEL (R226). -/
def ChanSt.level (x : ChanSt) : Nat := (x.tail + 2 ^ x.k - x.head) % 2 ^ x.k

/-- The index that follows descriptor `i` with control `ctl` (R228). -/
def ChanSt.after (x : ChanSt) (i ctl : Nat) : Nat := if bitN ctl 2 then 0 else (i + 1) % 2 ^ x.k

/-- A close of the channel waits to be made (R236). -/
def ChanSt.closing (x : ChanSt) : Bool := x.held.any (fun h => h.fin.isSome)

/-- The time limit of the end of count has been reached (R233). -/
def State.eocDue (s : State) (c : ChanId) : Bool :=
  let lim := s.rf c.val Off.DMA_DC_EOC 31 16
  lim != 0 && (match s.chans[c].eocFirst with | some t0 => decide (t0 + lim * 1000 ≤ s.now) | none => false)

/-- The end of count restarts (R233). -/
def State.restartEoc (s : State) (c : ChanId) : State :=
  s.updChan c (fun x => { x with eocCount := 0, eocFirst := none, eocAt := s.rf c.val Off.DMA_DC_EOC 15 0 })

/-- The events of a step that waits (R238). -/
def State.raiseAll (s : State) (es : List (Nat × List (Nat × Nat))) : State := es.foldl (fun t e => t.raise e.1 e.2) s

/-- The time limit ends the count (R233): CHAN_EOC with the last descriptor handed back, and the count restarts; nothing where
COUNT has ended it meanwhile. -/
def State.eocTimed (s : State) (c : ChanId) : State :=
  if s.eocDue c then
    (s.raise (chanSrc c.val 0) [(16, (s.chan c).lastHb.1), (32, (s.chan c).lastHb.2)]).restartEoc c
  else s

/-- The front step of a channel is made (R230, R233, R236): the status with bytes written and first line, then the control with
OWN = 0 in a write of its own, both without Relaxed Ordering; EOC and CHAN_EOC at COUNT; the events; the close. -/
def State.chanPerform (s : State) (c : ChanId) : State :=
  let x := s.chan c
  match x.held with
  | [] => s
  | h :: rest =>
    let s0 := s.updChan c (fun y => { y with held := rest })
    let s1 := match h.hb with
      | none => s0
      | some b =>
        let eoc := decide (x.eocAt ≤ x.eocCount + 1)
        let st := b.status + b2n (!x.dirty) * 2 ^ 14 + b2n eoc * 2 ^ 10 + b2n x.drop * 2 ^ 8
        let a := x.base + 32 * b.idx
        let t := (s0.hostWrite (a + 0x0E) (leBytes 2 st ++ leBytes 4 b.written ++ leBytes 4 b.firstLine)).hostWrite (a + 0x0C)
          (leBytes 2 b.ctl)
        let t := t.updChan c (fun y => { y with
          head := y.after b.idx b.ctl, drop := false, lastHb := (b.idx, b.firstLine), eocCount := y.eocCount + 1,
          eocFirst := y.eocFirst.or (some s.now) })
        if eoc then (t.restartEoc c).raise (chanSrc c.val 0) [(16, b.idx), (32, b.firstLine)] else t
    let s2 := (if h.timed then s1.eocTimed c else s1).raiseAll h.events
    match h.fin with
    | none => s2
    | some (cause, idx) =>
      let t := (s2.setReg c.val Off.DMA_DC_ERR (2 ^ 31 + cause * 2 ^ 16 + idx % 2 ^ 16)).updChan c (fun y => { y with
        st := 0, cur := none, descs := [], held := [], barrier := false, stalled := false })
      let t := t.raise (chanSrc c.val 3) [(8, cause), (16, idx)]
      if c.val % 4 = 3 then t.rewindOver (portOfChan c) 2 else t

/-- Makes the steps of a channel in order, until one needs a barrier (R231, R232): a BARRIER descriptor, one that completes
the count, a step that raises events or closes. Nothing is put on the link in D3hot or under PERST_L (R35, R411). -/
def State.chanRun (s : State) (c : ChanId) : Nat → State
  | 0 => s
  | n + 1 =>
    let x := s.chan c
    if x.barrier || s.link.d3hot || s.link.perst then s
    else match x.held with
      | [] => s
      | h :: _ =>
        let full := h.hb.isSome && decide (x.eocAt ≤ x.eocCount + 1)
        if h.bar || full then (s.send .flushRead).updChan c (fun y => { y with barrier := true, dirty := false })
        else State.chanRun (s.chanPerform c) c n

/-- Adds steps to a channel and makes those that can be made. -/
def State.chanPush (s : State) (c : ChanId) (hs : List Held) : State :=
  (s.updChan c (fun x => { x with held := x.held ++ hs })).chanRun c 1024

/-- The meaning of BARRIER_DONE (R231): the step that waited is made, and those after it. -/
def execBarrierDone (c : ChanId) (s : State) : Host.Outcome State Fault Refusal :=
  if (s.chan c).barrier then
    .next (((s.updChan c (fun x => { x with barrier := false })).chanPerform c).chanRun c 1024)
  else .next s

/-- The hand-back of a descriptor in use (R230, Tables 8.7 and 8.8). -/
def CurDesc.handBack (x : CurDesc) (last : Bool) : Held :=
  { bar := bitN x.d.ctl 14,
    hb := some { idx := x.d.idx, status := x.records + b2n last * 2 ^ 9, written := x.written, firstLine := x.firstLine % 2 ^ 32,
                 ctl := (x.d.ctl &&& 0x4004) + b2n x.start * 2 + b2n x.cont },
    events := [], fin := none }

/-- An event of a channel, behind its barrier (R232). -/
def heldEvent (src : Nat) (items : List (Nat × Nat)) : Held := { bar := true, hb := none, events := [(src, items)], fin := none }

/-- A channel starts to close with a cause (R236): the descriptor in use is handed back with LAST, then a barrier, then the
close. A close that has begun keeps its cause. -/
def State.chanClose (s : State) (c : ChanId) (cause idx : Nat) : State :=
  let x := s.chan c
  if x.closing then s
  else
  let last := match x.cur with
    | some d => [d.handBack true]
    | none => []
  (s.updChan c (fun y => { y with st := 3, cur := none, descs := [] })).chanPush c
    (last ++ [{ bar := true, hb := none, events := [], fin := some (cause, idx) }])

/-! ### Placement (R228, R229) -/

/-- `n` rounded up to a multiple of 64. -/
def up64 (n : Nat) : Nat := (n + 63) / 64 * 64

/-- Whether a record of `n` bytes fits behind the last one in the descriptor in use. -/
def ChanSt.fitsCur (x : ChanSt) (n : Nat) : Bool :=
  x.pack && (match x.cur with | some d => decide (up64 d.written + n ≤ d.d.len) | none => false)

/-- Whether the descriptors read hold room for a whole record (R229). -/
def ChanSt.room (x : ChanSt) (n : Nat) : Bool := x.fitsCur n || decide (n ≤ (x.descs.map (fun d => d.len)).sum)

/-- Whether given descriptors are still to be read. -/
def ChanSt.unread (x : ChanSt) : Bool := x.fetch != x.tail && !x.stalled

/-- A record placed at offset 0 of the next descriptors: the writes (address, offset in the record, length), the hand-backs,
the descriptor in use and the descriptors left. -/
def spread (pack : Bool) (line now n : Nat) : List Desc → Nat → Bool → List (Nat × Nat × Nat) × List Held × Option CurDesc × List Desc
  | [], _, _ => ([], [], none, [])
  | d :: ds, off, first =>
    let w := min (n - off) d.len
    let more := decide (off + w < n)
    let c : CurDesc := { d := d, written := w, records := b2n first, firstLine := line, start := first, cont := more,
                         since := if first && !more then some now else none }
    if more then
      let r := spread pack line now n ds (off + w) false
      ((d.addr, off, w) :: r.1, c.handBack false :: r.2.1, r.2.2)
    else if pack then ([(d.addr, off, w)], [], some c, ds)
    else ([(d.addr, off, w)], [c.handBack false], none, ds)

/-- Where a record of `n` bytes goes (R228): writes, hand-backs and the channel after it. A descriptor in use that it does not fit in has
been handed back (`makeRoom`). -/
def ChanSt.place (x : ChanSt) (n line now : Nat) : List (Nat × Nat × Nat) × List Held × ChanSt :=
  match x.fitsCur n, x.cur with
  | true, some d =>
    let off := up64 d.written
    let d' := { d with written := off + n, records := d.records + 1,
                       firstLine := if d.records = 0 then line else d.firstLine, since := d.since.or (some now) }
    if d'.records = 255 then ([(d.d.addr + off, 0, n)], [d'.handBack false], { x with cur := none })
    else ([(d.d.addr + off, 0, n)], [], { x with cur := some d' })
  | _, _ =>
    let r := spread x.pack line now n x.descs 0 true
    (r.1, r.2.1, { x with cur := r.2.2.1, descs := r.2.2.2 })

/-- The descriptor in use is handed back before a record of `n` bytes that does not fit in it starts (R228). -/
def State.makeRoom (s : State) (c : ChanId) (n : Nat) : State :=
  match (s.chan c).cur with
  | some d => if (s.chan c).fitsCur n then s else (s.updChan c (fun x => { x with cur := none })).chanPush c [d.handBack false]
  | none => s

/-- A record goes to a channel that has room for it (R219, R228): the buffer writes, with Relaxed Ordering (R59), the counts
of the channel, the hand-backs. -/
def State.chanWrite (s : State) (c : ChanId) (r : Rec) (lost : Nat) : State :=
  let s := s.makeRoom c (r.bytes (s.chan c).format lost).length
  let x := s.chan c
  let bs := r.bytes x.format lost
  let pl := x.place bs.length r.line s.now
  let s1 := pl.1.foldl (fun t w => t.send (.memWrite w.1 ((bs.drop w.2.1).take w.2.2) true)) s
  let s2 := s1.updChan c (fun _ => { pl.2.2 with dirty := true })
  let s3 := s2.setPair c.val Off.DMA_DC_RECS_LO ((s2.pair c.val Off.DMA_DC_RECS_LO + 1) % 2 ^ 64)
  let s4 := s3.setPair c.val Off.DMA_DC_BYTES_LO ((s3.pair c.val Off.DMA_DC_BYTES_LO + bs.length) % 2 ^ 64)
  (s4.setPair c.val Off.DMA_DC_LINE_LO (r.line % 2 ^ 48)).chanPush c pl.2.1

/-- NO_DESCRIPTOR (R229): the record is dropped for the channel, DROP is due, the record counts as lost. -/
def State.chanNoRoom (s : State) (c : ChanId) (r : Rec) : State :=
  ((s.updChan c (fun x => { x with drop := true, dropped := x.dropped + 1 })).incRf c.val Off.DMA_DC_DROP 15 0 1).chanPush c
    [heldEvent (chanSrc c.val 1) [(8, r.type), (32, r.line % 2 ^ 32)]]

/-- CHAN_LATE (R221): a record whose emission has not started by tick n+3. -/
def State.chanLate (s : State) (c : ChanId) (r : Rec) : State :=
  ((s.updChan c (fun x => { x with drop := true, dropped := x.dropped + 1 })).incRf c.val Off.DMA_DC_DROP 31 16 1).chanPush c
    [heldEvent (chanSrc c.val 2) [(8, r.type), (32, r.line % 2 ^ 32)]]

/-- The lines of a port lost before line `n` (R210). -/
def PortSt.lostBefore (x : PortSt) (n : Nat) : Nat :=
  x.lostBase + ((x.lostRec.filter (fun e => decide (e.1 < n))).map (fun e => e.2)).sum

/-- The lost count of a record for a channel (R210): 0 for the first after CHAN_OPEN and for a CONT record. -/
def State.lostCount (s : State) (c : ChanId) (r : Rec) : Nat :=
  let x := s.chan c
  if x.fresh || r.type == 4 then 0 else min ((s.port (portOfChan c)).lostBefore r.line - x.lostAt + x.dropped) 65535

/-- A record has been delivered: the running sum starts again, but after a CONT record (R210). -/
def State.lostTaken (s : State) (c : ChanId) (r : Rec) : State :=
  if r.type = 4 then s
  else s.updChan c (fun x => { x with lostAt := (s.port (portOfChan c)).lostBefore r.line, dropped := 0, fresh := false })

/-- The front record of stream `k` of a port starts and completes its emission (R219, R229): it waits while descriptors that
have been given are still to be read, and leaves without a trace where the channel takes no record. -/
def State.emitStream (s : State) (p : PortId) (k : Fin 3) : State :=
  match (s.port p).due[k.val] with
  | [] => s
  | r :: rest =>
    let c := chanOf p k.val
    let x := s.chan c
    let pop (t : State) : State := t.updPort p (fun y => { y with due := y.due.set k.val rest })
    if x.st = 0 ∨ x.st = 3 then pop s
    else if !s.link.d3hot && x.room r.size then pop ((s.chanWrite c r (s.lostCount c r)).lostTaken c r)
    else if !s.link.d3hot && x.unread then s
    else pop (s.chanNoRoom c r)

/-! ### Descriptors -/

/-- The meaning of DESCRIPTOR_FETCH (R225 to R227, R236): the read of the next given descriptor completes with its 32 bytes, or
fails; a failed read is retried 3 times, then the channel closes with cause 2. The read has No Snoop clear (R56). -/
def execDescriptorFetch (c : ChanId) (ok : Bool) (bytes : List Byte) (s : State) : Host.Outcome State Fault Refusal :=
  let x := s.chan c
  if x.st = 0 ∨ x.st = 3 ∨ x.fetch = x.tail ∨ x.stalled ∨ s.link.d3hot ∨ s.link.perst then .next s
  else
  let s := s.hostRead (x.base + 32 * x.fetch) 32
  if !ok then
    if x.tries < 3 then .next (s.updChan c (fun y => { y with tries := y.tries + 1 }))
    else .next ((s.setPair c.val Off.DMA_DC_ERR_ADDR_LO (x.base + 32 * x.fetch)).chanClose c 2 x.fetch)
  else
    let d : Desc := { idx := x.fetch, addr := leAt bytes 0 8, len := leAt bytes 8 4, ctl := leAt bytes 0x0C 2 }
    if !bitN d.ctl 15 then .next (s.updChan c (fun y => { y with stalled := true, tries := 0 }))
    else if d.addr % 64 ≠ 0 ∨ d.len % 64 ≠ 0 ∨ d.len < 64 ∨ 16777216 < d.len then .next (s.chanClose c 3 x.fetch)
    else .next (s.updChan c (fun y => { y with descs := y.descs ++ [d], fetch := y.after d.idx d.ctl, tries := 0 }))

/-- The channel doorbell (R226, R227): dropped while the channel is closed. -/
def State.dcTail (s : State) (c : ChanId) (v : Nat) : State :=
  let x := s.chan c
  let size := 2 ^ x.k
  let i := fld v 15 0
  if x.st = 0 then s
  else if size ≤ i ∨ (x.head + size - 1 - x.tail) % size < (i + size - x.tail) % size then s.chanClose c 4 i
  else s.updChan c (fun y => { y with tail := i, stalled := false })

/-- The meaning of HOLD_EXPIRY (R228) at time `t`. -/
def execHoldExpiry (c : ChanId) (t : Nat) (s : State) : Host.Outcome State Fault Refusal :=
  let s := s.at t
  let x := s.chan c
  match x.cur with
  | some d =>
    match d.since with
    | some t0 =>
      if x.pack && d.records != 0 && decide (t0 + x.hold * 1000 ≤ s.now) then
        .next ((s.updChan c (fun y => { y with cur := none })).chanPush c [d.handBack false])
      else .next s
    | none => .next s
  | none => .next s

/-- The meaning of EOC_TIMEOUT (R233) at time `t`: a barrier, then CHAN_EOC and the restart of the count. -/
def execEocTimeout (c : ChanId) (t : Nat) (s : State) : Host.Outcome State Fault Refusal :=
  let s := s.at t
  let x := s.chan c
  if x.st ≠ 0 ∧ s.eocDue c ∧ !x.held.any (fun h => h.timed) then
    .next (s.chanPush c [{ bar := true, hb := none, events := [], fin := none, timed := true }])
  else .next s

/-! ### Opening and closing (R234 to R236) -/

/-- The channel that a submission targets. -/
def chanTarget (y : Submission) : ChanId := ⟨y.unit % 64, Nat.mod_lt _ (by decide)⟩

/-- The records of lines whose emit stage has started do not go to a channel that opens now (R234). -/
def State.freshStream (s : State) (c : ChanId) : State :=
  if h : c.val % 4 < 3 then s.updPort (portOfChan c) (fun x => { x with due := x.due.set (c.val % 4) [] (by omega) }) else s

/-- The meaning of CHAN_OPEN (R234). -/
def execChanOpen (cx : CtxId) (y : Submission) (s : State) : Host.Outcome State Fault Refusal :=
  let c := chanTarget y
  let v := y.arg 4
  .next (s.admin cx { op := 0x18, since := 0x20, kinds := [4], slotted := false, args := [0, 1, 2, 3, 4] } y
    [refuseIf (!(s.ctxs[cx]).port (portOfChan c).val true) stDenied 0,
     refuseIf ((s.chan c).st ≠ 0) stConflict 0,
     refuseIf (y.arg 0 % 4096 ≠ 0) stBadArg 1,
     refuseIf (y.arg 2 < 4 || 16 < y.arg 2) stBadArg 3,
     refuseIf (y.arg 3 = 0 || 65535 < y.arg 3) stBadArg 4,
     refuseIf (v &&& 0xFFFFFFF1 ≠ 0) stBadArg 5,
     refuseIf (v = 0) stVersion 5]
    (fun t =>
      let fmt := if bitN v 3 then 3 else if bitN v 2 then 2 else 1
      let t1 := t.setRf c.val Off.DMA_DC_EOC 15 0 (y.arg 3)
      ((t1.freshStream c).updChan c (fun _ =>
        { st := 1, ctx := cx.val, base := y.arg64 0, k := y.arg 2, format := fmt, pack := t.rf c.val Off.DMA_DC_CFG 0 0 == 1,
          hold := max (t.rf c.val Off.DMA_DC_CFG 25 16) 1, head := 0, tail := 0, fetch := 0, descs := [], tries := 0,
          stalled := false, cur := none, drop := false, eocCount := 0, eocFirst := none, eocAt := y.arg 3, lastHb := (0, 0),
          dirty := true, lastLine := 0, lostAt := 0, dropped := 0, fresh := true, barrier := false, held := [], skew := 0 }), okRes fmt 0)))

/-- The place in the order of capture after the last line captured before now on a port (R235), 0 where its stages hold none. -/
def PortSt.capturedEnd (x : PortSt) : Nat :=
  let after (l : Option LineRec) : Nat := match l with | some r => r.ord + 1 | none => 0
  max (after x.prc) (after x.emi)

/-- The meaning of CHAN_CLOSE (R235). -/
def execChanClose (cx : CtxId) (y : Submission) (s : State) : Host.Outcome State Fault Refusal :=
  let c := chanTarget y
  .next (s.admin cx { op := 0x19, since := 0x20, kinds := [4], slotted := false, args := [0] } y
    [refuseIf (!(s.ctxs[cx]).port (portOfChan c).val true) stDenied 0,
     refuseIf ((s.chan c).st ≠ 1) stConflict 0,
     refuseIf (1 < y.arg 0) stBadArg 1]
    (fun t => (t.updChan c (fun x => { x with st := if y.arg 0 = 0 then 2 else 3, lastLine := (t.port (portOfChan c)).capturedEnd }),
      okRes 0 0)))

/-- Whether a draining channel has received every record it is to receive (R235); on stream 3 those of the rewind that runs. -/
def State.drained (s : State) (c : ChanId) : Bool :=
  let x := s.port (portOfChan c)
  let prc := match x.prc with | some l => decide (l.ord < (s.chan c).lastLine) | none => false
  (if h : c.val % 4 < 3 then (x.due[c.val % 4]'(by omega)).isEmpty && !prc else s.tks.ports[portOfChan c].rewind.isNone)

/-- The meaning of CHAN_CLOSED (R235, R236): a drain that has ended closes the channel with cause 0, a halt with cause 1. -/
def execChanClosed (c : ChanId) (s : State) : Host.Outcome State Fault Refusal :=
  let x := s.chan c
  if x.st = 2 ∧ s.drained c then .next (s.chanClose c 0 x.head)
  else if x.st = 3 ∧ !x.closing then .next (s.chanClose c 1 x.head)
  else .next s

/-- DMA_DC_STATE as it reads now. -/
def State.dcState (s : State) (c : ChanId) : Nat :=
  let x := s.chan c
  if x.st = 0 then x.ctx * 2 ^ 24 + x.k * 2 ^ 16 + x.format * 2 ^ 8 else x.ctx * 2 ^ 24 + x.k * 2 ^ 16 + x.format * 2 ^ 8 + x.st

end Sys2Proof.Machine
end

