-- ==== Sys2Proof/Machine/Link.lean ====
section
/-! DEFINITION. The host link, power states, PERST_L and PTM (R34 to R36, R60, R401, R410, R411). -/

namespace Sys2Proof.Machine

/-- Changes the link. -/
def State.updLink (s : State) (f : LinkSt → LinkSt) : State := { s with link := f s.link }

/-- A journal entry of an event for which Table 15.7 names no kind: its kind is a free value (log entry 95). -/
def State.journalFree (s : State) (e : JEntry) : State := (s.journal { e with kind := Config.freeNat 8 s.free % 256 }).tickFree

/-- What a host write to configuration space sets (Tables 2.1, 2.2): bases on the boundaries of their sizes, the payload and read
request sizes within Table 2.1, the PTM enable, AER status bits cleared. The header log keeps the first error until the host clears
its status bit (R34). -/
def PciSt.config (x : PciSt) (k : PciCfg) : PciSt :=
  let left := x.aerStatus &&& (2 ^ 32 - 1 - k.aerClear % 2 ^ 32)
  let first := x.aerFirst.filter (fun e => bitN left e.1)
  { x with
    bar0 := k.bar0 % 2 ^ 64 / 2 ^ 26 * 2 ^ 26, bar4 := k.bar4 % 2 ^ 64 / 2 ^ 14 * 2 ^ 14, mps := min k.mps 2, mrrs := min k.mrrs 5,
    ptmEn := k.ptm,
    aerStatus := match k.aerError with
      | some e => left ||| 2 ^ (e.1 % 32)
      | none => left,
    aerFirst := match k.aerError with
      | some e => if first.isSome then first else some (e.1 % 32, e.2)
      | none => first }

/-- The meaning of LINK_RETRAIN (R36): the link carries data on `width` lanes at the rate of code `rate`; running traffic is not
checked again. What the host then writes to configuration space comes with it (log entry 160). -/
def execLinkRetrain (width rate : Nat) (mode : LinkMode) (s : State) : Host.Outcome State Fault Refusal :=
  .next (if s.link.perst then s
    else s.updLink (fun x => { x with up := decide (width ≠ 0), width := min width 16, trained := min width 16, rate := rate % 8,
                                      flit := mode.flit, l0p := false, pci := match mode.cfg with
                                        | some k => x.pci.config k
                                        | none => x.pci }))

/-- The smallest width whose budget covers the committed demand (R36); none where no width does. -/
def State.l0pWidth (s : State) : Option Nat :=
  [1, 2, 4, 8, 16].find? (fun w => decide (s.hostDemand ≤ ((hostBudget w s.link.rate * 10 ^ 8 : Nat) : Rat)))

/-- The meaning of L0P_REQUEST (R36): a reduction is accepted only to that width; a return to a greater width, up to the trained
one, is always accepted (DESIGN CHOICE, log entry 166: R36 speaks of reductions only). -/
def execL0pRequest (width : Nat) (s : State) : Host.Outcome State Fault Refusal :=
  let ok := s.link.up && decide (width ≤ s.link.trained) &&
    (decide (s.link.width < width) || (decide (width < s.link.width) && s.l0pWidth == some width))
  .next (if ok then s.updLink (fun x => { x with width := width, l0p := decide (width < x.trained) }) else s)

/-- The meaning of D3HOT_ENTRY (R35): no memory request is made from now on; everything else goes on. -/
def execD3hotEntry (s : State) : Host.Outcome State Fault Refusal :=
  .next (if s.link.perst then s else s.updLink (fun x => { x with d3hot := true }))

/-- Messages held in D3hot are sent (R371). -/
def State.sendHeld (s : State) : State :=
  let s1 := s.updLink (fun x => { x with heldMsgs := [] })
  s.link.heldMsgs.foldl State.message s1

/-- Steps of the channels and packets of the queues that waited for the link are made. -/
def State.linkResume (s : State) : State :=
  let s1 := (List.finRange 64).foldl (fun t c => t.chanRun c 1024) s
  (List.finRange 64).foldl (fun t q => t.drainRing q 32) s1

/-- The meaning of D0_RETURN (R35, R371): every configured value stands, hand-backs, ring writes and messages resume. -/
def execD0Return (s : State) : Host.Outcome State Fault Refusal :=
  .next (if s.link.d3hot then ((s.updLink (fun x => { x with d3hot := false })).sendHeld).linkResume else s)

/-! ### PERST_L (R411, Table 16.6) -/

/-- The ring registers of a context return to 0. -/
def State.ringRegs0 (s : State) (c : CtxId) : State :=
  [Off.HIF_ASQ_BASE_LO, Off.HIF_ASQ_BASE_HI, Off.HIF_ACQ_BASE_LO, Off.HIF_ACQ_BASE_HI, Off.HIF_AQ_SIZE, Off.HIF_ASQ_TAIL,
    Off.HIF_ACQ_HEAD, Off.HIF_CTX_CTL].foldl (fun t off => t.setReg c.val off 0) s

/-- A context's session ends, its ring registers are 0 and, but for context 0, its rights are cleared. -/
def State.perstCtx (s : State) (c : CtxId) : State :=
  ((s.ctlReset c).ringRegs0 c).giveRights c 0 0 0

/-- An open channel closes with cause 1, with no hand-back, no barrier and no access to host memory (R411). -/
def State.perstChan (s : State) (c : ChanId) : State :=
  let x := s.chan c
  if x.st = 0 then s
  else
    let idx := x.head
    let s1 := (s.setReg c.val Off.DMA_DC_ERR (2 ^ 31 + 2 ^ 16 + idx % 2 ^ 16)).updChan c (fun y =>
      { y with st := 0, cur := none, descs := [], held := [], barrier := false, stalled := false })
    let s2 := s1.raise (chanSrc c.val 3) [(8, 1), (16, idx)]
    if c.val % 4 = 3 then s2.rewindOver (portOfChan c) 2 else s2

/-- A queue with HOST = 1 has EN and HOST cleared and keeps its words. -/
def State.perstQueue (s : State) (q : QueueId) : State :=
  if s.qHost q then (s.setRf 0 (qoff Off.EVQ_CTL q) 0 0 0).setRf 0 (qoff Off.EVQ_CTL q) 16 16 0 else s

/-- A script of SC0 to SC14 that runs or waits halts with cause RESET (Table 9.4: 8). -/
def State.resetScript (s : State) (c : ScriptId) : State :=
  if c.val < 15 ∧ ((s.script c).st = .running ∨ (s.script c).st = .waiting) then s.scriptHalt c 8 else s

/-- PERST_L is low (R411): the host attachment is reset; all else keeps its state. A stage in progress is abandoned, and its slot, which is
being written, stays unverified. -/
def State.perstLow (s : State) : State :=
  let s1 := s.journalFree (jentry 0 3 0)
  let s2 := s1.updLink (fun x => { x with perst := true, d3hot := false, up := false, width := 0, trained := 0, rate := 0, flit := false,
                                          l0p := false, ptmActive := false, ideOn := false, ideKeys := [], heldMsgs := [], pci := PciSt.atReset })
  let s3 := { s2 with msiUnmasked := [], msiPend := [] }
  let s4 := (List.finRange 64).foldl State.perstChan s3
  let s5 := (List.finRange 64).foldl State.perstQueue s4
  let s6 := (List.finRange 16).foldl State.resetScript s5
  let s7 := (List.finRange 8).foldl State.perstCtx s6
  let s8 := s7.setRf 0 Off.HIF_PTM_CTL 0 0 0
  s8.updMgt (fun m => if m.stagingPldm then m else { m with staging := none })

/-- The meaning of PERST_ASSERT (R411). -/
def execPerstAssert (s : State) : Host.Outcome State Fault Refusal := .next s.perstLow

/-- The meaning of PERST_RELEASE (R401, R410): HREFCLK is checked, and without it the link runs SRIS; the link enters Detect (a
LINK_RETRAIN brings it up). PERST_L reads low while VDDIO20 is out of its range (R407). -/
def execPerstRelease (href : Bool) (s : State) : Host.Outcome State Fault Refusal :=
  let s1 := s.updLink (fun x => { x with perst := false })
  .next (if !s.bankUp 19 then s else (s1.setRf 0 Off.CLK_REF_STAT 6 6 (b2n href)).setRf 0 Off.CLK_REF_STAT 7 7 (b2n (!href)))

/-- The meaning of HREFCLK_LOSS (R401): a link that uses HREFCLK retrains under SRIS. -/
def execHrefclkLoss (s : State) : Host.Outcome State Fault Refusal :=
  .next ((s.setRf 0 Off.CLK_REF_STAT 6 6 0).setRf 0 Off.CLK_REF_STAT 7 7 1)

/-! ### Time (R60) -/

/-- Whether a port or an axis has been RUNNING since power-on. -/
def State.anyRan (s : State) : Bool := (List.finRange 24).any (fun u => (s.unit u).ran)

/-- LOCKED clears: PTM_UNLOCK is raised if it was set. -/
def State.ptmUnlock (s : State) : State :=
  if s.link.ptmLocked then (s.updLink (fun x => { x with ptmLocked := false })).raise (mgtSrc 43) [] else s

/-- LOCKED sets (R60). At the first lock after power-on device time is stepped once to PTM time if no port or axis has yet been
RUNNING; it never runs backwards (log entry 96). -/
def State.ptmLock (s : State) (offset : Int) : State :=
  let s1 := s.updLink (fun x => { x with ptmLocked := true, ptmStepped := true })
  if s.link.ptmStepped || s.anyRan then s1 else { s1 with now := max s1.now ((s1.now : Int) - offset).toNat }

/-- The meaning of PTM_EXCHANGE (R60): an exchange fails, or measures `offset` (device minus root, ns). It runs only with EN set and
the PTM capability enabled by the host. Between locks device time is slewed (log entry 96). -/
def execPtmExchange (ok : Bool) (offset : Int) (s : State) : Host.Outcome State Fault Refusal :=
  if s.rf 0 Off.HIF_PTM_CTL 0 0 = 0 ∨ !s.link.pci.ptmEn ∨ !s.link.up then .next (s.updLink (fun x => { x with ptmActive := false }))
  else if !ok then
    let s1 := s.updLink (fun x => { x with ptmActive := true, ptmGood := 0, ptmBad := x.ptmBad + 1 })
    .next (if 3 ≤ s1.link.ptmBad then s1.ptmUnlock else s1)
  else
    let s1 := s.updLink (fun x => { x with ptmActive := true, ptmBad := 0, ptmOffset := satI offset (-32768) 32767,
                                           ptmGood := if offset.natAbs ≤ 20 then x.ptmGood + 1 else 0 })
    .next (if 1000 < offset.natAbs then s1.ptmUnlock
      else if 4 ≤ s1.link.ptmGood then s1.ptmLock offset else s1)

/-- HIF_PTM_STATUS as it reads now. -/
def State.ptmStatus (s : State) : Nat :=
  twos 16 s.link.ptmOffset * 2 ^ 16 + b2n s.link.ptmLocked * 2 + b2n (s.link.ptmActive && s.rf 0 Off.HIF_PTM_CTL 0 0 == 1)

/-- HIF_LINK as it reads now (R36). -/
def State.hifLink (s : State) : Nat :=
  hostBudget s.link.width s.link.rate * 2 ^ 16 + b2n s.link.l0p * 2 ^ 10 + b2n s.link.flit * 2 ^ 9 + s.link.rate * 2 ^ 5 + s.link.width

/-- The meaning of IDE_KM_MESSAGE (R34): keys of the one link stream are stored, and their use starts once there are keys (log
entry 97). The DOE mailbox serves no other protocol: a request of one has no effect. -/
def execIdeKmMessage (m : IdeKm) (s : State) : Host.Outcome State Fault Refusal :=
  .next (if !s.link.up then s
    else match m with
      | .query => s
      | .keyProg slot key => s.updLink (fun x => { x with ideKeys := (slot, key) :: x.ideKeys.filter (fun e => e.1 != slot) })
      | .setGo => s.updLink (fun x => { x with ideOn := !x.ideKeys.isEmpty })
      | .setStop => s.updLink (fun x => { x with ideOn := false })
      | .other _ => s)

end Sys2Proof.Machine
end

