-- ==== Sys2Proof/Machine/Clocks.lean ====
section
/-! DEFINITION. Reference clocks, port PLLs and frequency monitors (R398 to R404). -/

namespace Sys2Proof.Machine

/-- CLK_REF_STAT.SEL: 0 A, 1 B, 2 holdover, 3 none. -/
def State.refSel (s : State) : Nat := s.rf 0 Off.CLK_REF_STAT 1 0

/-- The ZL9640 takes another reference (R399): SEL, FAILOVERS and REFCLK_FAILOVER with the new and the old SEL. -/
def State.refSwitch (s : State) (new : Nat) : State :=
  let old := s.refSel
  let n := (s.rf 0 Off.CLK_REF_STAT 31 16 + 1) % 65536
  ((s.setRf 0 Off.CLK_REF_STAT 1 0 new).setRf 0 Off.CLK_REF_STAT 31 16 n).raise (mgtSrc 44) [(8, new), (8, old)]

/-- A reference is valid (R398): its frequency lies within 100 MHz ± 500 ppm, and no interval between rising edges exceeds 40 ns. -/
def refGood (m : RefMeas) : Bool :=
  decide (99950000 ≤ m.freq) && decide (m.freq ≤ 100050000) && decide (m.gap ≤ 40000)

/-- Reference `n` is valid now (A_OK, B_OK). -/
def State.refValid (s : State) (n : Fin 2) : Bool := s.rf 0 Off.CLK_REF_STAT (4 + n.val) (4 + n.val) == 1

/-- Reference `n` is found valid or not; one that becomes valid has been so since now. -/
def State.refFound (s : State) (n : Fin 2) (ok : Bool) : State :=
  let s1 := if ok && !s.refValid n then { s with clk := { s.clk with since := s.clk.since.set n s.now } } else s
  s1.setRf 0 Off.CLK_REF_STAT (4 + n.val) (4 + n.val) (b2n ok)

/-- The two references are measured (R398). -/
def State.refMeasure (s : State) (a b : RefMeas) : State := (s.refFound 0 (refGood a)).refFound 1 (refGood b)

/-- The meaning of REFCLK_FAILOVER (R398 to R400): the references now measure as the operands say. If the selected one is not valid,
the other one is taken, or holdover, whose CLOCK_FAULT names a domain and kind that the spec leaves open (log entry 98). -/
def execRefclkFailover (a b : RefMeas) (s : State) : Host.Outcome State Fault Refusal :=
  let s1 := s.refMeasure a b
  .next (if (s1.refSel = 0 ∧ !refGood a) ∨ (s1.refSel = 1 ∧ !refGood b) then
      if refGood a ∨ refGood b then s1.refSwitch (if refGood a then 0 else 1)
      else
        let s2 := s1.refSwitch 2
        ((s2.tickFree).tickFree).raise (mgtSrc 45) [(8, Config.freeNat 8 s2.free), (8, Config.freeNat 8 (s2.free + 1))]
    else s1)

/-- Reference `n` has been valid for at least `t` ns. -/
def State.refHeld (s : State) (t : Nat) (n : Fin 2) : Bool := s.refValid n && decide (s.clk.since[n] + t ≤ s.now)

/-- The reference to take of those valid for `t` ns: the preferred one first (R400). -/
def State.refPick (s : State) (t : Nat) : Option (Fin 2) :=
  let pref : Fin 2 := if s.rf 0 Off.CLK_REF_CTL 0 0 = 0 then 0 else 1
  [pref, 1 - pref].find? (s.refHeld t)

/-- The PLLs start from a reference, where there was none. -/
def State.pllStart (s : State) (n : Fin 2) : State :=
  (List.finRange 16).foldl (fun t p => t.setRf 0 (Off.CLK_PPLL_STAT + 16 * p.val) 0 0 1) (s.setRf 0 Off.CLK_REF_STAT 1 0 n.val)

/-- The meaning of REFCLK_VALID (R398, R400): the references measure as the sample says at its time. One that has been valid for 1 s ends
holdover, the preferred one first; with RETURN the preferred one is taken back; without any reference the PLLs start from one
valid for 1 ms. -/
def execRefclkValid (m : RefSample) (s : State) : Host.Outcome State Fault Refusal :=
  let s1 := (s.at m.time).refMeasure m.a m.b
  let pref : Fin 2 := if s.rf 0 Off.CLK_REF_CTL 0 0 = 0 then 0 else 1
  .next (match s1.refSel with
    | 2 => (s1.refPick 1000000000).elim s1 (fun n => s1.refSwitch n.val)
    | 3 => (s1.refPick 1000000).elim s1 s1.pllStart
    | cur => if cur ≠ pref.val ∧ s.rf 0 Off.CLK_REF_CTL 1 1 = 1 ∧ s1.refHeld 1000000000 pref then s1.refSwitch pref.val else s1)

/-- The meaning of PPLL_UNLOCK (R403). -/
def execPpllUnlock (p : PortId) (s : State) : Host.Outcome State Fault Refusal :=
  let off := Off.CLK_PPLL_STAT + 16 * p.val
  let n := (s.rf 0 off 31 16 + 1) % 65536
  let s1 := (s.setRf 0 off 0 0 0).setRf 0 off 31 16 n
  .next (if s.portState p = .running then
      let s2 := { s1 with clk := { s1.clk with lost := s1.clk.lost.set p true } }
      (s2.raise (mgtSrc 45) [(8, 9 + p.val), (8, 1)]).dropLine p .capture 1
    else s1)

/-- The meaning of PPLL_RELOCK (R402, R403): LOCK reads 1, and CLOCK_FAULT with kind 2 follows a loss while the port ran. -/
def execPpllRelock (p : PortId) (s : State) : Host.Outcome State Fault Refusal :=
  let s1 := s.setRf 0 (Off.CLK_PPLL_STAT + 16 * p.val) 0 0 1
  .next (if s.clk.lost[p] then
      { s1 with clk := { s1.clk with lost := s1.clk.lost.set p false } }.raise (mgtSrc 45) [(8, 9 + p.val), (8, 2)]
    else s1)

/-- Whether a write to CLK_PPLLn_FREQ is accepted (R402). -/
def State.freqOk (s : State) (p : PortId) (v : Nat) : Bool :=
  let st := s.portState p
  (st == .off || st == .loaded || st == .armed || st == .halted) && decide (0x4000000 ≤ v ∧ v ≤ 0x10000000)

/-- An accepted write to CLK_PPLLn_FREQ (R402): LOCK reads 0 until the PLL has relocked; the timing pins hold TIDLE. -/
def State.freqWrite (s : State) (p : PortId) (v : Nat) : State :=
  ((s.setReg 0 (Off.CLK_PPLL_FREQ + 16 * p.val) v).setRf 0 (Off.CLK_PPLL_STAT + 16 * p.val) 0 0 0).idlePins p

/-- Whether a frequency in kHz lies outside 1,000 ppm of num / den kHz. -/
def outside (f num den : Nat) : Bool := decide (num < 1000 * ((f * den : Int) - num).natAbs)

/-- The transfer rate of a link's rate code in MT/s (HIF_LINK.RATE, TKS_DRV_STAT.RATE); none while the link is not trained. -/
def linkRate (code : Nat) : Option Nat := [none, some 2500, some 5000, some 8000, some 16000, some 32000, some 64000, some 128000].getD code none

/-- The rate code of the take-store links: the highest that a drive's link has trained at (log entry 94). -/
def State.storeRate (s : State) : Nat := ((List.range 8).map (fun d => s.rf 0 (Off.TKS_DRV_STAT + 0x10 * d) 15 12)).foldl max 0

/-- Whether a PHY domain at `f` kHz is outside its trained link rate (R404, log entry 94); a link that is not trained has none. -/
def phyOut (f code : Nat) : Bool := (linkRate code).elim false (fun r => outside f (r * 1000) 1)

/-- Whether domain `d` is outside its limits at `f` kHz (R404, Table 1.6). -/
def State.domOut (s : State) (d f : Nat) : Bool :=
  match d with
  | 0 => outside f 100000 1
  | 1 => outside f 400000 1
  | 2 => phyOut f (if s.link.up then s.link.rate else 0)
  | 3 => outside f 1000000 1
  | 4 => outside f 1200000 1
  | 5 => phyOut f s.storeRate
  | 6 => outside f 200000 1
  | 7 => outside f 100000 1
  | 8 => false
  | _ => outside f (s.eff 0 (Off.CLK_PPLL_FREQ + 16 * (d - 9)) * 100000) (2 ^ 24)

/-- The measurement of one domain: its register, and CLOCK_FAULT with kind 0 when it leaves its limits. -/
def State.domMeasure (s : State) (d f : Nat) : State :=
  let s1 := s.setReg 0 (Off.CLK_DOM_FREQ + 4 * d) (f % 2 ^ 32)
  if !s.domOut d f then s1.setRf 0 Off.CLK_DOM_OK d d 1
  else if s.rf 0 Off.CLK_DOM_OK d d = 1 then
    let s2 := ((s1.setRf 0 Off.CLK_DOM_OK d d 0).setRf 0 Off.CLK_DOM_FAULT d d 1).raise (mgtSrc 45) [(8, d), (8, 0)]
    s2.journalFree { jentry 0 2 0 with code := 1517, old := 1, new := 0, offset := Off.CLK_DOM_OK }
  else s1.setRf 0 Off.CLK_DOM_FAULT d d 1

/-- The meaning of FREQ_MONITOR (R404) at time `t`: the frequencies in kHz of CD0 to CD8, and of the ports' domains CD9 to CD24. -/
def execFreqMonitor (sys : Vector Nat 9) (ports : Vector Nat 16) (t : Nat) (s : State) : Host.Outcome State Fault Refusal :=
  let s1 := (List.finRange 9).foldl (fun t d => t.domMeasure d.val sys[d]) (s.at t)
  .next ((List.finRange 16).foldl (fun t p => t.domMeasure (9 + p.val) ports[p]) s1)

end Sys2Proof.Machine
end

