-- ==== Sys2Proof/Machine/Mgmt.lean ====
section
/-! DEFINITION. Management: the journal, firmware, the audit, sensors, the mailbox and debug
(spec/15_management_and_faults.md, R372 to R396). -/

namespace Sys2Proof.Machine

/-! ### The journal -/

/-- The 64 bytes of a journal entry (Table 15.6). -/
def JEntry.bytes (e : JEntry) : List Byte :=
  let d := Config.journalDetail e.seq
  let body := leBytes 8 e.seq ++ leBytes 8 e.time ++ leBytes 1 e.kind ++ leBytes 1 e.origin ++ leBytes 1 e.source ++
    leBytes 1 e.status ++ leBytes 2 e.cmd ++ leBytes 2 e.code ++ leBytes 4 e.target ++ leBytes 4 e.offset ++
    leBytes 4 e.old ++ leBytes 4 e.new ++ leBytes 4 e.count ++ (d ++ List.replicate 16 0).take 16
  body ++ leBytes 4 (crc32c body)

/-- Every entry that can be read, oldest first: the NOR ring, then the memory. -/
def Journal.all (j : Journal) : List JEntry := j.ring ++ j.mem

/-- The oldest sequence number that can be read. -/
def Journal.oldest (j : Journal) : Nat :=
  match j.all with
  | [] => j.next
  | e :: _ => e.seq

/-- The entries that JOURNAL_READ keeps: from `seq`, by the origin filter, at most `n`; with the sequence after the last
entry examined (R387). -/
def Journal.pick : List JEntry → Nat → Nat → Nat → Nat → List JEntry × Nat
  | [], _, _, _, last => ([], last)
  | e :: t, seq, filter, n, last =>
    if n = 0 then ([], last)
    else if e.seq < seq then Journal.pick t seq filter n last
    else if filter ≠ 0 ∧ !bitN filter e.origin then Journal.pick t seq filter n (e.seq + 1)
    else
      let r := Journal.pick t seq filter (n - 1) (e.seq + 1)
      (e :: r.1, r.2)

/-- The meaning of JOURNAL_READ (R387). `norOk` says whether the NOR reads succeed. A data buffer too short for the entries that
arg2 asks for is refused with the detail of arg2 (DESIGN CHOICE, log entry 165). -/
def execJournalRead (c : CtxId) (y : Submission) (norOk : Bool) (s : State) : Host.Outcome State Fault Refusal :=
  let first := y.arg64 0
  .next (s.admin c { op := 0x30, since := 0x20, kinds := [0], slotted := false, args := [0, 1, 2, 3] } y
    [refuseIf (!(s.ctxs[c]).blk 10 false) stDenied 0,
     refuseIf (s.ctxs[c].zhp < 0x22 && y.arg 3 ≠ 0) stVersion 4,
     refuseIf (first < s.jrnl.oldest) stNotFound 1,
     refuseIf (y.arg 2 = 0) stBadArg 3,
     refuseIf (y.len.toNat < 64 * y.arg 2) stBadArg 3]
    (fun t =>
      if !norOk then (t, refuse stMedia 0)
      else
        let r := Journal.pick t.jrnl.all first (y.arg 3) (y.arg 2) first
        (t.hostWrite y.addr.toNat (r.1.flatMap JEntry.bytes), okRes r.1.length (r.2 % 2 ^ 32))))

/-- The sequence number of the last entry that has been drained once the memory is drained; 0 before any entry. -/
def Journal.lastDrained (j : Journal) : Nat := match j.all.getLast? with | some e => e.seq | none => 0

/-- The journal after a drain (R385, R386): the entries of the memory go to the NOR ring, which overwrites its oldest; if entries had not
been kept, room has returned and an entry of kind 14 carries their count. -/
def Journal.drain (j : Journal) (now : Nat) : Journal :=
  let d := { j with mem := [], ring := j.all.drop (j.all.length - j.ringCap) }
  if j.lost = 0 then d
  else { d with next := j.next + 1, lost := 0, mem := [{ jentry 14 2 0 with seq := j.next, time := now, count := j.lost }] }

/-- The meaning of JOURNAL_DRAIN (R385, R386): the entries not yet drained go to the NOR ring, and JOURNAL_DRAINED carries their number and the
last sequence. -/
def execJournalDrain (s : State) : Host.Outcome State Fault Refusal :=
  if !s.mgt.up then .next s
  else
    let s1 := { s with jrnl := s.jrnl.drain s.now }
    .next (s1.raise (mgtSrc 55) [(16, s.jrnl.mem.length), (32, s.jrnl.lastDrained % 2 ^ 32)])

/-! ### Firmware (R389 to R393) -/

/-- Whether the header of an image passes R390, `crypto` being the outcome of the key hash, the signature and the payload
hash, which the model takes as given (log entry 60). -/
def imageOk (bs : List Byte) (crypto : Bool) (svnMin revoked : Nat) : Bool :=
  let comp := leAt bs 6 1
  let key := leAt bs 7 1
  leAt bs 0 4 == 0x4D465A4B && leAt bs 4 2 == 1 && decide (comp < 2) && decide (key < 4) && !bitN revoked key &&
    decide (leAt bs 0x10 4 ≤ (if comp = 0 then 448 else 192) * 1024) && decide (leAt bs 0x14 1 ≤ 0xB1) &&
    decide (0xB1 ≤ leAt bs 0x15 1) && decide (svnMin ≤ leAt bs 0x0C 4) && crypto

/-- An image as it is staged. -/
def stagedImage (bs : List Byte) (crypto : Bool) (m : Mgt) : Image :=
  { component := leAt bs 6 1, version := leAt bs 8 4, svn := leAt bs 0x0C 4, flags := leAt bs 0x16 1, key := leAt bs 7 1,
    verified := imageOk bs crypto m.svnMin m.revoked }

/-- An image verifies now (R390): it passed the checks as it was staged, its key has not been revoked since, and its SVN is at least the fused
minimum. -/
def Mgt.verifies (m : Mgt) (i : Image) : Bool := i.verified && !bitN m.revoked i.key && decide (m.svnMin ≤ i.svn)

/-- An image goes to the inactive slot of its component (R391). -/
def Mgt.putImage (m : Mgt) (i : Image) : Mgt :=
  if i.component = 1 then (if m.blSlot = 0 then { m with blB := i } else { m with blA := i })
  else (if m.fwSlot = 0 then { m with fwB := i } else { m with fwA := i })

/-- The stage of an image begins (R391): the inactive slot of its component is being written, and does not verify until the image has been
verified in it. -/
def Mgt.beginStage (m : Mgt) (i : Image) (crypto pldm : Bool) : Mgt :=
  let m1 := m.putImage { i with verified := false }
  { m1 with
    staging := some (i, crypto), stagingPldm := pldm, fwPending := m.fwPending && decide (i.component = 1),
    blPending := m.blPending && !decide (i.component = 1) }

/-- Whether an extent list is well formed (R391). -/
def extentsOk (bs : List Byte) : Bool :=
  let n := leAt bs 0 4
  decide (1 ≤ n) && decide (n ≤ 256) && leAt bs 4 4 == 0 && decide (8 + 16 * n ≤ bs.length) &&
    (List.range n).all (fun i => leAt bs (8 + 16 * i + 12) 4 == 0)

/-- The reads of a data buffer, and of the extents that a list in it names (R391). -/
def State.readExtents (s : State) (addr len : Nat) (list : List Byte) : State :=
  (List.range (leAt list 0 4)).foldl (fun t i => t.hostRead (leAt list (8 + 16 * i) 8) (leAt list (16 + 16 * i) 4)) (s.hostRead addr len)

/-- The meaning of FW_STAGE (R391): `data` is the data buffer, `image` what an extent list gathers. -/
def execFwStage (c : CtxId) (y : Submission) (data image : List Byte) (crypto : Bool) (s : State) :
    Host.Outcome State Fault Refusal :=
  let ext := y.arg 0 % 2 = 1
  .next (s.admin c { op := 0x38, since := 0x20, kinds := [0], slotted := false, args := [0] } y
    [refuseIf (c.val ≠ 0) stDenied 0,
     refuseIf (s.ctxs[c].zhp < 0x32 && ext) stVersion 1,
     refuseIf s.mgt.activating.isSome stConflict 0,
     refuseIf (2 ≤ y.arg 0) stBadArg 1,
     refuseIf (ext && !extentsOk data) stBadArg 0,
     refuseIf s.mgt.staging.isSome stBusy 0]
    (fun t => (((t.readExtents y.addr.toNat y.len.toNat (if ext then data else [])).updMgt (fun m => m.beginStage (stagedImage (if ext then image else data) crypto m) crypto false)).journal
      { jentry 11 0 c.val with cmd := y.cid.toNat, code := 0x38 }, okRes 0 0)))

/-- What PLDM and MCTP tell of the device on a bus (R393, R394). -/
def State.pldmView (s : State) (bus : Nat) : PldmView :=
  let t (i : Nat) : Nat × Nat × Nat × Nat :=
    (s.rf 0 (Off.MGT_TEMP + 4 * i) 15 0, s.rf 0 (Off.MGT_TLIM + 4 * i) 15 0, s.rf 0 (Off.MGT_TLIM + 4 * i) 31 16, 0)
  let v (i : Nat) : Nat × Nat × Nat × Nat :=
    (s.rf 0 (Off.MGT_VOLT + 4 * i) 15 0, 0, s.rf 0 (Off.MGT_VLIM + 4 * i) 31 16, s.rf 0 (Off.MGT_VLIM + 4 * i) 15 0)
  { eid := s.mgt.eids.toList.getD bus 0, versions := [s.mgt.fwA.version, s.mgt.fwB.version, s.mgt.blA.version, s.mgt.blB.version],
    fwPending := s.mgt.fwPending, blPending := s.mgt.blPending, sensors := (List.range 12).map t ++ (List.range 20).map v }

/-- A response to a management message whose bytes a published standard gives (log entry 61). -/
def State.respond (s : State) (bus : Nat) (msg : List Byte) : State :=
  (s.updMgt (fun m => { m with mctpOut := (bus, Config.mctpResponse bus msg (s.pldmView bus) s.free) :: m.mctpOut })).tickFree

/-- The meaning of PLDM_UPDATE (R393): stages an image into the same inactive slot; while a stage runs it is refused with the completion code
of DSP0267 for it. -/
def execPldmUpdate (image : PldmImage) (crypto : Bool) (s : State) : Host.Outcome State Fault Refusal :=
  if s.mgt.activating.isSome || !s.mgt.up then .next s
  else if s.mgt.staging.isSome then .next (s.respond image.bus.val [])
  else .next ((s.updMgt (fun m => m.beginStage (stagedImage image.bytes crypto m) crypto true)).journal { jentry 11 4 0 with code := 0x38 })

/-- While CD1 or one of CD3 to CD7 is out of its limits, nothing but journal drains is written to the flash (R404). -/
def State.flashHeld (s : State) : Bool := [1, 3, 4, 5, 6, 7].any (fun d => s.rf 0 Off.CLK_DOM_OK d d == 0)

/-- The meaning of FW_STAGED (R391): the image has been written, read back and verified; result 0 verified, 1 failed R390,
2 NOR error. It waits while the flash takes no write (R404). -/
def execFwStaged (norOk : Bool) (s : State) : Host.Outcome State Fault Refusal :=
  match s.mgt.staging with
  | none => .next s
  | some (i, _) =>
    if s.flashHeld then .next s else
    let res := if !norOk then 2 else if i.verified then 0 else 1
    let i := { i with verified := i.verified && norOk }
    let slot := if i.component = 1 then 1 - s.mgt.blSlot else 1 - s.mgt.fwSlot
    let s1 := s.updMgt (fun m =>
      { m.putImage i with
        staging := none, fwPending := m.fwPending || (res == 0 && i.component == 0),
        blPending := m.blPending || (res == 0 && i.component == 1) })
    .next ((s1.raise (mgtSrc 52) [(8, i.component), (8, slot), (8, res)]).journal { jentry 11 2 0 with code := 52, new := res })

/-- The firmware image of a slot. -/
def Mgt.fw (m : Mgt) (k : Nat) : Image := if k = 0 then m.fwA else m.fwB

/-- The activation of firmware slot `k` begins (R392): management services pause, and the cores restart under R373: MGT_UP reads 0 until they
have (log entry 190). -/
def State.activate (s : State) (k : Nat) : State :=
  s.updMgt (fun m => { m with activating := some k, paused := true, up := false, staging := none })

/-- The meaning of FW_ACTIVATE (R392). -/
def execFwActivate (c : CtxId) (y : Submission) (s : State) : Host.Outcome State Fault Refusal :=
  .next (s.admin c { op := 0x39, since := 0x20, kinds := [0], slotted := false, args := [0] } y
    [refuseIf (c.val ≠ 0) stDenied 0,
     refuseIf (y.arg 0 ≤ 1 && !s.mgt.verifies (s.mgt.fw (y.arg 0))) stConflict 1,
     refuseIf (2 ≤ y.arg 0) stBadArg 1]
    (fun t => ((t.activate (y.arg 0)).journal
      { jentry 11 0 c.val with cmd := y.cid.toNat, code := 0x39, new := y.arg 0 }, okRes ((t.mgt.fw (y.arg 0)).version % 2 ^ 32) 0)))

/-- Management comes up again: its shadows take the units' values, RESTARTS counts, MGT_RESTARTED carries the cause
(R373). -/
def State.mgtRestart (s : State) (cause : Nat) : State :=
  let s1 := { s with units := s.units.map UnitSt.sync }
  let s2 := s1.updMgt (fun m => { m with up := true, restarting := false, paused := false, activating := none, staging := none,
                                         restarts := (m.restarts + 1) % 65536 })
  (s2.raise (mgtSrc 51) [(8, cause)]).journal { jentry 11 2 0 with code := 51, new := cause }

/-- The meaning of FW_ACTIVATED (R392): `ok` says whether the slot verified as it was loaded; then its flags are written to
the fuses and it runs, else the old image is loaded back with result 1. -/
def execFwActivated (ok : Bool) (s : State) : Host.Outcome State Fault Refusal :=
  match s.mgt.activating with
  | none => .next s
  | some k =>
    let i := s.mgt.fw k
    let s1 := if ok then
        s.updMgt (fun m => { m with
          fwSlot := k, fwPending := false,
          svnMin := if i.flags % 2 = 1 then max m.svnMin i.svn else m.svnMin,
          revoked := m.revoked ||| fld i.flags 7 4 })
      else s
    let s2 := s1.mgtRestart 1
    .next (s2.raise (mgtSrc 53) [(8, b2n (!ok)), (32, (s1.mgt.fw s1.mgt.fwSlot).version % 2 ^ 32)])

/-- The meaning of LOCKSTEP_MISMATCH (R373): management stops serving; stages in progress are abandoned; lines, ticks and
records go on (R32). -/
def execLockstepMismatch (s : State) : Host.Outcome State Fault Refusal :=
  let s1 := s.updMgt (fun m => { m with up := false, restarting := true, staging := none, mboxBusy := false })
  .next ((s1.journal { jentry 8 2 0 with code := 12, target := 0xA00 }).detect
    { kind := 10, unit := 0, code := 12, arg := 0, arg2 := 0, time := 0 })

/-- The meaning of MGT_RESTARTED after a mismatch (R373): cause 0. -/
def execMgtRestarted (s : State) : Host.Outcome State Fault Refusal :=
  if s.mgt.restarting then .next (s.mgtRestart 0) else .next s

/-! ### Audit (R378) -/

/-- What the audit looks at: every port, axis, data channel and script channel (target kind, unit). -/
def audited : List (Nat × Nat) :=
  (List.range 16).map (fun i => (1, i)) ++ (List.range 8).map (fun i => (2, i)) ++ (List.range 64).map (fun i => (4, i)) ++
    (List.range 16).map (fun i => (5, i))

/-- The meaning of AUDIT (R378): `diffs` lists shadows that have gone wrong since the last audit, and whether the test of the unit's state
logic passes (target kind, unit, what the shadow reads now, test); then every shadow is compared with its unit's own register. It pauses
while management restarts (R373). -/
def execAudit (diffs : List (Nat × Nat × Nat × Bool)) (s : State) : Host.Outcome State Fault Refusal :=
  if !s.mgt.up then .next s
  else
    let s1 := diffs.foldl (fun t d => t.setShadow d.1 d.2.1 d.2.2.1) s
    let pass (e : Nat × Nat) : Bool := diffs.all (fun d => !(d.1 == e.1 && d.2.1 == e.2) || d.2.2.2)
    .next (audited.foldl (fun t e => t.auditOne e.1 e.2 (pass e)) s1)

/-! ### Sensors (R388) -/

/-- One temperature sensor: NOW and PEAK (signed), and an alarm for a limit that the reading crosses (0 warning,
1 critical). -/
def State.tempRead (s : State) (i : Nat) (v : Nat) : State :=
  let off := Off.MGT_TEMP + 4 * i
  let old := sgn 16 (s.rf 0 off 15 0)
  let new := sgn 16 v
  let peak := max (sgn 16 (s.rf 0 off 31 16)) new
  let s1 := s.setReg 0 off (twos 16 peak * 2 ^ 16 + twos 16 new)
  let cross (t : State) (hi lo code : Nat) : State :=
    let lim := sgn 16 (t.rf 0 (Off.MGT_TLIM + 4 * i) hi lo)
    if old < lim ∧ lim ≤ new then (t.setRf 0 Off.MGT_ALARM i i 1).raise (mgtSrc 46) [(8, i), (8, code)] else t
  cross (cross s1 15 0 0) 31 16 1

/-- One voltage sensor: an alarm for a critical limit reached or a low limit passed downwards (1 critical, 2 low). A first reading below the
low limit crosses nothing: the sensor has shown 0 until then. -/
def State.voltRead (s : State) (i : Nat) (v : Nat) : State :=
  let off := Off.MGT_VOLT + 4 * i
  let old := s.rf 0 off 15 0
  let new := v % 2 ^ 16
  let crit := s.rf 0 (Off.MGT_VLIM + 4 * i) 31 16
  let low := s.rf 0 (Off.MGT_VLIM + 4 * i) 15 0
  let s1 := s.setReg 0 off (max (s.rf 0 off 31 16) new * 2 ^ 16 + new)
  let alarm (t : State) (b : Bool) (code : Nat) : State :=
    if b then (t.setRf 0 Off.MGT_ALARM (12 + i) (12 + i) 1).raise (mgtSrc 47) [(8, i), (8, code)] else t
  alarm (alarm s1 (decide (old < crit ∧ crit ≤ new)) 1) (decide (low ≤ old ∧ new < low)) 2

/-- The meaning of SENSOR_READ: the readings of T0 to T11 (i16, 1/16 degree) and V0 to V19 (mV). -/
def execSensorRead (temps volts : List Nat) (s : State) : Host.Outcome State Fault Refusal :=
  let s1 := (temps.take 12).zipIdx.foldl (fun t e => t.tempRead e.2 e.1) s
  .next ((volts.take 20).zipIdx.foldl (fun t e => t.voltRead e.2 e.1) s1)

/-! ### Mailbox, buses and debug (R394 to R396) -/

/-- The request bytes in the data area. -/
def State.mboxData (s : State) : List Byte :=
  ((List.range 64).flatMap (fun i => leBytes 4 (s.eff 0 (Off.MGT_MBOX_DATA + 4 * i)))).take s.mgt.mboxLen

/-- A mailbox response: STATUS, LEN and the data area; BUSY clears. -/
def State.mboxReply (s : State) (status : Nat) (bs : List Byte) : State :=
  let bs := bs.take 256
  let s1 := (List.range ((bs.length + 3) / 4)).foldl (fun t i => t.setReg 0 (Off.MGT_MBOX_DATA + 4 * i) (leAt bs (4 * i) 4)) s
  let s2 := (s1.setRf 0 Off.MGT_MBOX_CTL 23 16 status).setRf 0 Off.MGT_MBOX_CTL 8 0 bs.length
  s2.updMgt (fun m => { m with mboxBusy := false })

/-- A mailbox request is being served with operation `op`. -/
def State.mboxServing (s : State) (op : Nat) : Bool := s.mgt.mboxBusy && s.mgt.up && s.mgt.mboxOp == op

/-- A PLDM message, from its instance byte on, asks for self-contained activation (DSP0267 ActivateFirmware: type 5, command 0x1A, its
argument 1; PRESUMED, log entry 61). -/
def asksActivation (msg : List Byte) : Bool := leAt msg 1 1 % 64 == 5 && leAt msg 2 1 == 0x1A && leAt msg 3 1 == 1

/-- PLDM activates the firmware that is pending in the inactive slot (R392, R393), by the origin and source of the request. -/
def State.pldmActivate (s : State) (msg : List Byte) (origin source : Nat) : State :=
  let k := 1 - s.mgt.fwSlot
  if asksActivation msg && s.mgt.fwPending && s.mgt.verifies (s.mgt.fw k) && s.mgt.activating.isNone then
    (s.activate k).journal { jentry 11 origin source with code := 0x39, new := k }
  else s

/-- The meaning of PLDM_MESSAGE (R395, operation 1): the response is what the PLDM standards give (log entry 61). -/
def execPldmMessage (s : State) : Host.Outcome State Fault Refusal :=
  if s.mboxServing 1 then
    .next (((s.pldmActivate s.mboxData 0 s.mgt.mboxCtx).mboxReply stOk (Config.mctpResponse 2 s.mboxData (s.pldmView 2) s.free)).tickFree)
  else .next s

/-- The meaning of CFG_GET: the 256-byte configuration record. -/
def execCfgGet (s : State) : Host.Outcome State Fault Refusal :=
  if s.mboxServing 2 then .next (s.mboxReply stOk s.mgt.cfg) else .next s

/-- The meaning of CFG_SET: the record goes to the older copy and is used from the next power-on; it waits while the flash takes no write
(R404). A request whose LEN is not 256 completes BAD_ARG (log entry 62). -/
def execCfgSet (s : State) : Host.Outcome State Fault Refusal :=
  if s.mboxServing 3 then
    if s.mgt.mboxLen = 256 then
      if s.flashHeld then .next s else
      .next ((s.updMgt (fun m => { m with cfgNext := s.mboxData })).mboxReply stOk [])
    else .next (s.mboxReply stBadArg [])
  else .next s

/-- GO (R395): a request of context `c` is submitted unless one is being served; an operation that R395 does not list is answered
BAD_ARG (log entry 111). -/
def State.mboxGo (s : State) (c : CtxId) : State :=
  if s.mgt.mboxBusy then s
  else
    let op := s.rf 0 Off.MGT_MBOX_CTL 15 12
    let s1 := s.updMgt (fun m => { m with mboxBusy := true, mboxCtx := c.val, mboxOp := op, mboxLen := min (s.rf 0 Off.MGT_MBOX_CTL 8 0) 256 })
    if s.mgt.up && (op == 0 || decide (4 < op)) then s1.mboxReply stBadArg [] else s1

/-- The nonce bytes that MGT_DBG_NONCE shows. -/
def State.nonce (s : State) : List Byte := (List.range 4).flatMap (fun i => leBytes 4 (s.eff 0 (Off.MGT_DBG_NONCE + 4 * i)))

/-- A new nonce is drawn: a free value (R396). -/
def State.drawNonce (s : State) : State :=
  (List.range 4).foldl (fun t i => (t.setReg 0 (Off.MGT_DBG_NONCE + 4 * i) (Config.freeWord t.free).toNat).tickFree) s

/-- The meaning of DEBUG_TOKEN (R396): through the mailbox (operation 4), or `jtag` with the token given. Serial number,
nonce and key revocation are checked here, the key hash and signature are `crypto`. -/
def execDebugToken (jtag : Bool) (token : List Byte) (crypto : Bool) (s : State) : Host.Outcome State Fault Refusal :=
  if (if jtag then !s.bankUp 23 else !s.mboxServing 4) then .next s
  else
    let tk := if jtag then token else s.mboxData
    let key := leAt tk 0x1C 1
    let ok := tk.length == 256 && leAt tk 0 8 == s.mgt.serial && (tk.drop 8).take 16 == s.nonce && decide (key < 4) &&
      !bitN s.mgt.revoked key && crypto
    let s1 := s.updMgt (fun m => { m with dbgTries := (m.dbgTries + 1) % 65536, dbgEnabled := m.dbgEnabled || ok })
    let s2 := s1.drawNonce.journal { jentry 13 (if jtag then 4 else 0) (if jtag then 2 else s.mgt.mboxCtx) with new := b2n ok }
    if jtag then .next s2 else .next (s2.mboxReply (if ok then stOk else stDenied) [])

/-- The SMBus address (R394, R395): of the configuration record, 0x4C where that names none (0 or all ones, log entry 159). -/
def Mgt.smbusAddr (m : Mgt) : Nat :=
  let v := leAt m.cfg 4 1
  if v = 0 ∨ v = 0xFF then 0x4C else v

/-- The meaning of MCTP_MESSAGE (R394): a message over SMBus (0), to the device's address, or over PCI Express VDM (1) is served by what
the DMTF standards give (log entry 61): the bus owner assigns the endpoint ID (DSP0236 Set Endpoint ID: message type 0, command 1), and PLDM
(message type 1) may activate pending firmware. -/
def execMctpMessage (src : MctpFrom) (msg : List Byte) (s : State) : Host.Outcome State Fault Refusal :=
  if !s.mgt.up || (src.bus.val == 1 && s.link.perst) || (src.bus.val == 0 && (src.addr.toNat != s.mgt.smbusAddr || !s.bankUp 21)) then .next s
  else
    let s1 := if leAt msg 0 1 % 128 = 0 ∧ leAt msg 2 1 = 1 ∧ leAt msg 3 1 % 4 < 2 then
        s.updMgt (fun m => { m with eids := m.eids.set src.bus (leAt msg 4 1) })
      else s
    let s2 := s1.respond src.bus.val msg
    .next (if leAt msg 0 1 % 128 = 1 then s2.pldmActivate (msg.drop 1) 4 src.bus.val else s2)

end Sys2Proof.Machine
end

