-- ==== Sys2Proof/Machine/FrontEnd.lean ====
section
/-! DEFINITION. The video front end and the tap converters (spec/05_video_front_end.md, R120 to R148). -/

namespace Sys2Proof.Machine

/-! ### Registers in force -/

/-- Whether input `t` is enabled (R124); the odd input of a pair is not (R136). -/
def State.inputOn (s : State) (p : PortId) (t : Nat) : Bool :=
  bitN (s.rf p.val Off.PRT_FE_EN 15 0) t && !(t % 2 == 1 && s.pairMode p t)

/-- The range code in force of input `t` (PRT_RANGE_NOW). -/
def State.rangeNow (s : State) (p : PortId) (t : Nat) : Nat :=
  s.rf p.val (if t < 8 then Off.PRT_RANGE_NOW_A else Off.PRT_RANGE_NOW_B) (4 * (t % 8) + 2) (4 * (t % 8))

/-- The enabled inputs. -/
def State.inputsOn (s : State) (p : PortId) : List Nat := (List.range 16).filter (s.inputOn p)

/-- Whether the enabled inputs have different ranges in force (R127). -/
def State.mixed (s : State) (p : PortId) : Bool :=
  match s.inputsOn p with
  | [] => false
  | t :: ts => ts.any (fun u => s.rangeNow p u != s.rangeNow p t)

/-- The range code byte of a slate (R127). -/
def State.rangeByte (s : State) (p : PortId) : Nat :=
  let lowest := match s.inputsOn p with
    | [] => 0
    | t :: _ => s.rangeNow p t
  s.rf p.val Off.PRT_FE_STAT 3 0 * 16 + b2n (s.mixed p) * 8 + lowest

/-- GEN counts the line ticks at which an input enabled after the tick has a new range in force (R127). `old` gives the
ranges before the tick. -/
def State.countGen (s : State) (p : PortId) (old : Nat → Nat) : State :=
  let gen := s.rf p.val Off.PRT_FE_STAT 3 0
  let g := if (s.inputsOn p).any (fun t => s.rangeNow p t != old t) then (gen + 1) % 16 else gen
  s.setReg p.val Off.PRT_FE_STAT (b2n (s.mixed p) * 16 + g)

/-- The ranges and clamp levels of the setup go in force (R125: at a cut and at a start). -/
def State.setupRanges (s : State) (p : PortId) : State :=
  let s1 := (s.setReg p.val Off.PRT_RANGE_NOW_A (s.eff p.val Off.PRT_RSET_A &&& 0x77777777)).setReg p.val Off.PRT_RANGE_NOW_B
    (s.eff p.val Off.PRT_RSET_B &&& 0x77777777)
  s1.updPort p (fun x => { x with clamp := (List.range 16).map (fun t => s.rf p.val (Off.PRT_CLAMP + 4 * t) 27 16) })

/-- The committed ranges and clamp levels go in force (R125): a field written since the previous commit. `done off` is the
mask of the STG bits of a register that take effect at this tick, and `val` their value. -/
def State.commitRanges (s : State) (p : PortId) (done val : Nat → Word) : State :=
  let put (now off : Nat) (t : State) :=
    let m := done off &&& 0x77777777#32
    t.setReg p.val now (((BitVec.ofNat 32 (t.eff p.val now)) &&& ~~~m) ||| (val off &&& m)).toNat
  let s1 := put Off.PRT_RANGE_NOW_B Off.PRT_RANGE_B (put Off.PRT_RANGE_NOW_A Off.PRT_RANGE_A s)
  s1.updPort p (fun x => { x with clamp := (List.range 16).map (fun t =>
    if done (Off.PRT_CLAMP + 4 * t) &&& 0xFFF#32 = 0 then x.clamp.getD t 2048 else fld (val (Off.PRT_CLAMP + 4 * t)).toNat 11 0) })

/-- FS of a range code in mV (Table 5.1). -/
def fullScale (code : Nat) : Nat := [250, 350, 500, 700, 1000, 1400, 2000, 2500].getD code 0

/-- The raw code that an ideal slice yields for Vd in uV with full-scale range `fs` in mV (R121): 8192 + floor(16384 Vd / FS),
saturated. -/
def idealRaw (fs : Nat) (vd : Int) : Nat := (satI (8192 + Int.fdiv (16384 * vd) (1000 * fs : Nat)) 0 16383).toNat

/-- The raw code of a slice for what input `t` meets (R121, R127): the range in force scales Vd, and the slice differs from an ideal one by
its error. -/
def State.rawCode (s : State) (p : PortId) (t : Nat) (x : TapIn) : Nat :=
  (satI (idealRaw (fullScale (s.rangeNow p t)) x.vd + x.err) 0 16383).toNat

/-! ### Samples (R132 to R137) -/

/-- The number of active slots of a tap: 4, or 8 in pair mode (R133, R136). -/
def State.slotCount (s : State) (p : PortId) (t : Nat) : Nat := if s.pairMode p t then 8 else 4

/-- The converter and the slice that take sample `k` of tap `t` (R133, R136). -/
def State.sliceOf (s : State) (p : PortId) (t : Fin 16) (k : Nat) : Fin 16 × Nat :=
  if s.pairMode p t.val then
    let j := k % 8
    let u : Fin 16 := ⟨(t.val / 2 * 2 + j % 2) % 16, Nat.mod_lt _ (by decide)⟩
    (u, (s.port p).conv[u].slots.getD (j / 2) 0)
  else (t, (s.port p).conv[t].slots.getD (k % 4) 0)

/-- correct of R137 before the inversion. -/
def correctRaw (c : Int × Nat × Int) (raw : Nat) : Nat :=
  (satI (Int.fdiv (((raw : Nat) - 8192 - c.1) * (c.2.1 : Nat) + 2 ^ 14) (2 ^ 15) + 8192) 0 16383).toNat

/-- The next stamp of tap `t` in the windows that have started, and the start of its window: the lowest stamp not yet
taken in this line. -/
def State.nextStamp (s : State) (p : PortId) (t : Fin 16) : Option (Nat × Nat) :=
  let last := ((s.port p).conv[t].stamps.head?).getD 0
  let started := !(s.port p).conv[t].stamps.isEmpty
  ((s.port p).gate.active.filter (fun x => x.kind == 2 && bitN x.mask t.val)).foldl (fun best x =>
    let i := if !started || last < x.start then 0 else (last - x.start) / max x.period 1 + 1
    let st := x.start + i * x.period
    if x.count ≤ i then best
    else match best with
      | none => some (st, x.start)
      | some b => if st < b.1 then some (st, x.start) else best) none

/-- Adds a sample to slot `j` of the sums, unless the slot has the `cap` samples of the block already. -/
def SlotSums.add (x : SlotSums) (cap j y : Nat) (diff : Option Nat) : SlotSums :=
  let up (l : List Nat) (v : Nat) := l.set j (l.getD j 0 + v)
  if cap ≤ x.n.getD j 0 then x
  else
  { n := up x.n 1, s := up x.s y, a := up x.a (if 8192 ≤ y then y - 8192 else 8192 - y),
    q := match diff with | some d => up x.q (d * d) | none => x.q,
    c := match diff with | some _ => up x.c 1 | none => x.c }

/-- A sample is delivered to the line in capture. -/
def State.deliverSample (s : State) (p : PortId) (t y : Nat) : State :=
  s.updPort p (fun x => { x with cap := x.cap.map (fun l =>
    let old := (l.samples.find? (fun e => e.1 == t)).map (fun e => e.2)
    { l with samples := (t, y :: old.getD []) :: l.samples.filter (fun e => e.1 != t) }) })

/-- Background correction runs for input `t` (R145): a converter of it has a retired slice, or BG_ALWAYS is 1. -/
def State.bgRuns (s : State) (p : PortId) (t : Fin 16) : Bool :=
  (s.port p).conv[t].retired != 0 || (s.pairMode p t.val && (s.port p).conv[pairMate t].retired != 0) ||
    s.rf p.val Off.PRT_CONV_CTL 17 17 == 1

/-- A corrected sample joins the blocks of the watch, while EN is 1, and of the background correction, while it runs (R143, R145). -/
def State.blockSample (s : State) (p : PortId) (t : Fin 16) (win j y : Nat) : State :=
  let diff := match (s.port p).conv[t].prev with
    | some (w, y0) => if w = win then some (if y0 ≤ y then y - y0 else y0 - y) else none
    | none => none
  s.updConv p t (fun c => { c with
    prev := some (win, y),
    watch := if s.rf p.val Off.PRT_WATCH 0 0 = 1 then c.watch.add (2 ^ c.watchLog) j y none else c.watch,
    bg := if s.bgRuns p t then c.bg.add 65536 j y diff else c.bg })

/-- The meaning of TAP_SAMPLE (R121, R124, R133 to R137, R143, R145, R147): tap `t` takes its next stamp, at which its pin meets `v`.
The samples of a line that has been dropped are taken and not delivered. Stamps that stand too close drop the line also where no slice
converts them, on an input that is disabled or lost (DESIGN CHOICE, log entry 197). -/
def execTapSample (p : PortId) (t : Fin 16) (v : TapIn) (s : State) : Host.Outcome State Fault Refusal :=
  match s.nextStamp p t with
  | none => .next s
  | some (st, win) =>
    let x := (s.port p).conv[t]
    let k := x.stamps.length
    let n := s.slotCount p t.val
    let early := decide (n ≤ k) && decide ((st - x.stamps.getD (n - 1) 0) * 2 ^ 24 < s.freq p)
    let s0 := s.updConv p t (fun c => { c with stamps := st :: c.stamps })
    let s1 := if early then (s0.raise (portSrc p.val 6) [(8, t.val), (16, k)]).dropLine p .capture 1 else s0
    if !s.inputOn p t.val || s.inputLost p t then .next (s1.deliverSample p t.val 0)
    else
      let sl := s.sliceOf p t k
      let y := correctRaw ((s.port p).conv[sl.1].coef.getD sl.2 (0, 32768, 0)) (s.rawCode p t.val v)
      let s2 := s1.blockSample p t win (k % n) y
      .next (s2.deliverSample p t.val (if bitN (s.rf p.val Off.PRT_FE_INV 15 0) t.val then 16383 - y else y))

/-- At a line tick the count of samples restarts, no sample lies in an earlier window (R133), and the corrections of a background block
take effect (R145). -/
def ConvSt.newLine (x : ConvSt) : ConvSt :=
  let c := x.bgNext.foldl (fun (l : List (Int × Nat × Int)) e => l.set e.1 e.2) x.coef
  { x with stamps := [], prev := none, coef := c, bgNext := [] }

/-- N_LOG of PRT_WATCH: 10 to 16, other values taken as 12. -/
def State.watchLog (s : State) (p : PortId) : Nat :=
  let k := s.rf p.val Off.PRT_WATCH 11 8
  if 10 ≤ k ∧ k ≤ 16 then k else 12

/-- New blocks of the watch, of 2^`k` samples per slot, and of the background correction begin (R143, R145). -/
def ConvSt.newBlocks (k : Nat) (x : ConvSt) : ConvSt := { x with watch := SlotSums.empty, watchLog := k, bg := SlotSums.empty }

/-- The background block of the input that a converter serves starts again (R145). -/
def State.restartBg (s : State) (p : PortId) (t : Fin 16) : State :=
  let s1 := s.updConv p t (fun x => { x with bg := SlotSums.empty })
  if s.pairMode p t.val then s1.updConv p (pairMate t) (fun x => { x with bg := SlotSums.empty }) else s1

/-- The out-of-service slice enters the slot of the retired active slice, with the coefficients of its last completed calibration; the
converter runs on four slices without rotation (R144). -/
def ConvSt.replace (x : ConvSt) : ConvSt :=
  match x.repl, x.out with
  | some b, some o =>
    { x with slots := x.slots.map (fun j => if j = b then o else j), out := none, ready := false, due := false, calNow := false,
             repl := none, coef := x.coef.set o (x.lastCal.getD o (0, 32768, 0)), bgNext := x.bgNext.filter (fun e => e.1 != b) }
  | _, _ => { x with repl := none }

/-- The replacements that the first line tick after a classification makes (R144). -/
def State.replaceSlices (s : State) (p : PortId) : State :=
  (List.finRange 16).foldl (fun t i =>
    if (t.port p).conv[i].repl.isSome then (t.updConv p i ConvSt.replace).restartBg p i else t) s

/-- PRT_WATCH has been written: EN going to 1 starts a new block on every converter (R143). N_LOG written while EN is 1 takes effect at the
next block, also where no sample of the first one has been taken (DESIGN CHOICE, log entry 197). -/
def State.watchWrite (s t : State) (p : PortId) : State :=
  if s.rf p.val Off.PRT_WATCH 0 0 = 0 ∧ t.rf p.val Off.PRT_WATCH 0 0 = 1 then
    t.updPort p (fun x => { x with conv := x.conv.map (fun c => { c with watch := SlotSums.empty, watchLog := t.watchLog p }) })
  else t

/-- BG_ALWAYS going to 1 starts a new background block on every converter that the correction did not run on (R145). -/
def State.bgWrite (s t : State) (p : PortId) : State :=
  if s.rf p.val Off.PRT_CONV_CTL 17 17 = 0 ∧ t.rf p.val Off.PRT_CONV_CTL 17 17 = 1 then
    (List.finRange 16).foldl (fun u i => if s.bgRuns p i then u else u.updConv p i (fun c => { c with bg := SlotSums.empty })) t
  else t

/-- A cut or a start that forms or splits a pair (R136, R147; `old` is the state before it): the blocks of its converters start again, since their
slots change, and TAP_LOST is raised for an input that the pairing loses (log entry 176). -/
def State.pairsChange (s old : State) (p : PortId) : State :=
  (List.finRange 16).foldl (fun t i =>
    if old.pairMode p i.val = s.pairMode p i.val then t
    else
      let t1 := t.updConv p i (ConvSt.newBlocks (s.watchLog p))
      if s.inputLost p i && !old.inputLost p i then t1.raise (portSrc p.val 8) [(8, i.val)] else t1) s

/-! ### Rotation and calibration (R139 to R142) -/

/-- The meaning of ROTATION_DUE (R139, R140): ROT_PERIOD has passed since the last swap of the converter of input `t`.
With ROT_EN the swap is due, and made at once off RUNNING when the slice is ready; without it the out-of-service slice
is calibrated again. The converter of a disabled input goes on rotating and calibrating (DESIGN CHOICE, log entry 197). -/
def execRotationDue (p : PortId) (t : Fin 16) (s : State) : Host.Outcome State Fault Refusal :=
  let x := (s.port p).conv[t]
  if x.out.isNone ∨ x.retired ≠ 0 then .next s
  else if s.rf p.val Off.PRT_CONV_CTL 16 16 = 1 then
    let s1 := s.updConv p t (fun c => { c with due := true })
    .next (if s.driving p then s1 else s1.trySwap p t false)
  else .next (s.updConv p t (fun c => { c with ready := false, period := s.rotPeriod p }))

/-- CAL_NOW: every converter whose out-of-service slice is ready swaps at the next line tick (R140). -/
def State.calNow (s : State) (p : PortId) : State :=
  s.updPort p (fun x => { x with conv := x.conv.map (fun c => { c with calNow := c.calNow || (c.ready && c.out.isSome) }) })

/-- Bisection of the skew trim (R141); `m` gives the sum of 64 conversions at a trim. -/
def skewSearch (m : Int → Nat) : Nat → Int → Int → Int
  | 0, _, hi => hi
  | n + 1, lo, hi =>
    if hi - lo ≤ 1 then hi
    else
      let mid := Int.fdiv (lo + hi) 2
      if 64 * 8192 ≤ m mid then skewSearch m n lo mid else skewSearch m n mid hi

/-- calibrate of R141: the sums at vr_lo and vr_hi, the spread, and the 201 sums of the step at trims -100 to 100. -/
def calibrate (sLo sHi spread : Nat) (ms : List Nat) : Option (Int × Nat × Int) :=
  let m (k : Int) : Nat := ms.getD (k + 100).toNat 0
  let dlt : Int := (sHi : Int) - sLo
  if dlt ≤ 0 ∨ 32 < spread then none
  else
    let off : Int := Int.fdiv ((sLo : Int) + sHi + 256) 512 - 8192
    let g : Nat := ((12288 * 2 ^ 23 + dlt / 2) / dlt).toNat
    if off < -512 ∨ 511 < off ∨ g < 24576 ∨ 40960 < g then none
    else if 64 * 8192 ≤ m (-100) ∨ m 100 < 64 * 8192 then none
    else some (off, g, skewSearch m 8 (-100) 100)

/-- The meaning of SLICE_CAL_DONE (R141, R142): the calibration of the out-of-service slice of input `t` completes with
these measurements; a failure is a detected fault of code 1. -/
def execSliceCalDone (p : PortId) (t : Fin 16) (sLo sHi spread : Nat) (ms : List Nat) (s : State) :
    Host.Outcome State Fault Refusal :=
  let x := (s.port p).conv[t]
  match x.out with
  | none => .next s
  | some o =>
    if x.ready then .next s
    else
      match calibrate sLo sHi spread ms with
      | none => .next (s.detect { kind := 1, unit := p.val, code := 1, arg := t.val, arg2 := o, time := 0 })
      | some c =>
        let s1 := s.updConv p t (fun y => { y with
          ready := true, coef := y.coef.set o c, lastCal := y.lastCal.set o c, cals := y.cals.set o ((y.cals.getD o 0 + 1) % 256) })
        .next (if s.driving p then s1 else s1.trySwap p t false)

/-! ### The watch and the background correction (R143 to R146) -/

/-- Distance of two numbers. -/
def dist (a b : Nat) : Nat := if a ≤ b then b - a else a - b

/-- The slots that a watch block suspects (R143). -/
def suspects (m d : List Nat) (n mean : Nat) : List Nat :=
  let c := m.length
  (List.range c).filter (fun j =>
    let mo := (m.sum - m.getD j 0) / (c - 1)
    let dOth := (d.sum - d.getD j 0) / (c - 1)
    decide (mean * n < dist (m.getD j 0) mo) || (decide (16 * n ≤ dOth) && decide (dOth < 8 * dist (d.getD j 0) dOth)))

/-- The meaning of WATCH_BLOCK_END (R143): a full block of the converter of input `t` is checked, and its suspect slots
are detected faults of code 2; the line in capture is dropped with the fault (R144). A new block starts. -/
def execWatchBlockEnd (p : PortId) (t : Fin 16) (s : State) : Host.Outcome State Fault Refusal :=
  let x := (s.port p).conv[t]
  let n := 2 ^ x.watchLog
  let c := s.slotCount p t.val
  if s.rf p.val Off.PRT_WATCH 0 0 = 0 ∨ !s.inputOn p t.val ∨ (x.watch.n.take c).any (fun k => decide (k < n)) then .next s
  else
    let bad := suspects (x.watch.s.take c) (x.watch.a.take c) n (s.rf p.val Off.PRT_WATCH 31 16)
    let s1 := s.updConv p t (fun y => { y with watch := SlotSums.empty, watchLog := s.watchLog p })
    .next (bad.foldl (fun u j =>
      let sl := s.sliceOf p t j
      (u.detect { kind := 1, unit := p.val, code := 2, arg := sl.1.val, arg2 := sl.2, time := 0 }).dropQuiet p .capture) s1)

/-- The corrections of one block (R145): (offset, gain, skew) of each slot. -/
def bgCorrect (x : SlotSums) (c : Nat) (co : List (Int × Nat × Int)) : List (Int × Nat × Int) :=
  let ms := (x.s.take c).sum / c
  let ma := (x.a.take c).sum / c
  let qn (j : Nat) := x.q.getD j 0 / x.c.getD j 1
  let allC := (x.c.take c).all (fun k => k != 0)
  let qm := ((List.range c).map qn).sum / c
  (List.range c).map (fun j =>
    let e := co.getD j (0, 32768, 0)
    let off := satI (e.1 + Int.fdiv ((x.s.getD j 0 : Int) - ms) (2 ^ 18)) (-8192) 8191
    let g : Int := if 64 * 65536 ≤ ma then
        satI ((e.2.1 : Int) - Int.fdiv (((x.a.getD j 0 : Int) - ma) * (e.2.1 : Nat)) (4 * ma : Nat)) 24576 40960
      else (e.2.1 : Int)
    let sk : Int :=
      if allC && decide (256 ≤ qm) then
        if 257 * qm < 256 * qn j then satI (e.2.2 - 1) (-100) 100
        else if 256 * qn j < 255 * qm then satI (e.2.2 + 1) (-100) 100 else e.2.2
      else e.2.2
    (off, g.toNat, sk))

/-- The meaning of BG_BLOCK_END (R145): on a converter with a retired slice, or on all with BG_ALWAYS, a block of 65,536
samples in every slot gives the coefficients of the next line tick; BG_CONV sets after the first block that changes
none. -/
def execBgBlockEnd (p : PortId) (t : Fin 16) (s : State) : Host.Outcome State Fault Refusal :=
  let x := (s.port p).conv[t]
  let c := s.slotCount p t.val
  if !s.bgRuns p t ∨ !s.inputOn p t.val ∨ (x.bg.n.take c).any (fun k => decide (k < 65536)) then .next s
  else
    let sl := (List.range c).map (fun j => s.sliceOf p t j)
    let co := sl.map (fun e => (s.port p).conv[e.1].coef.getD e.2 (0, 32768, 0))
    let new := bgCorrect x.bg c co
    let s1 := (sl.zip new).foldl (fun u e => u.updConv p e.1.1 (fun y => { y with bgNext := y.bgNext ++ [(e.1.2, e.2)] })) s
    .next (s1.updConv p t (fun y => { y with bg := SlotSums.empty, bgConv := y.bgConv || new == co }))

/-! ### Over-voltage clamps (R129) -/

/-- The meaning of INPUT_OVERVOLT: the clamp of input `t` starts to conduct. -/
def execInputOvervolt (p : PortId) (t : Fin 16) (s : State) : Host.Outcome State Fault Refusal :=
  if bitN (s.reg p.val Off.PRT_OV) (16 + t.val) then .next s
  else .next (((s.setRf p.val Off.PRT_OV (16 + t.val) (16 + t.val) 1).setRf p.val Off.PRT_OV t.val t.val 1).raise
    (portSrc p.val 5) [(8, t.val)])

/-- The meaning of CLAMP_STOPS_CONDUCTING. -/
def execClampStopsConducting (p : PortId) (t : Fin 16) (s : State) : Host.Outcome State Fault Refusal :=
  .next (s.setRf p.val Off.PRT_OV (16 + t.val) (16 + t.val) 0)

/-- After a clear of FLAG bits, those whose clamp still conducts set again at once with a new event (R129). -/
def State.ovAgain (s : State) (p : PortId) (cleared : Nat) : State :=
  (List.range 16).foldl (fun t i =>
    if bitN cleared i && bitN (t.reg p.val Off.PRT_OV) (16 + i) then
      (t.setRf p.val Off.PRT_OV i i 1).raise (portSrc p.val 5) [(8, i)]
    else t) s

/-! ### Registers that show the converters -/

/-- Slices in a mask. -/
def sliceCount (m : Nat) : Nat := ((List.range 5).filter (fun i => bitN m i)).length

/-- PRT_TAP_STATt as it reads now. Of the MODEs that apply, lost comes before powered down, and that before retired; the odd converter of a
pair whose even input is disabled is not powered down (DESIGN CHOICE, log entry 197). -/
def State.tapStat (s : State) (p : PortId) (t : Fin 16) : Nat :=
  let x := (s.port p).conv[t]
  let odd := t.val % 2 == 1 && s.pairMode p t.val
  let mode := if s.inputLost p t || x.lost then 2 else if !(bitN (s.rf p.val Off.PRT_FE_EN 15 0) t.val || odd) then 3 else if x.retired ≠ 0 then 1 else 0
  let slots := (List.range 4).foldl (fun a j => a + x.slots.getD j 0 % 8 * 2 ^ (3 * j)) 0
  mode * 2 ^ 30 + b2n odd * 2 ^ 29 + b2n x.bgConv * 2 ^ 28 + slots * 2 ^ 16 + x.retired % 32 * 2 ^ 8 + x.out.getD 7 * 2 ^ 4

/-- PRT_SCOEFA of slice `i` of input `t`. -/
def State.scoefA (s : State) (p : PortId) (t : Fin 16) (i : Nat) : Nat :=
  let c := (s.port p).conv[t].coef.getD i (0, 0, 0)
  c.2.1 % 2 ^ 16 * 2 ^ 16 + twos 14 c.1

/-- PRT_SCOEFB of slice `i` of input `t`. -/
def State.scoefB (s : State) (p : PortId) (t : Fin 16) (i : Nat) : Nat :=
  let x := (s.port p).conv[t]
  let st := if bitN x.retired i then 3 else if x.out = some i then (if x.ready then 2 else 1) else 0
  x.cals.getD i 0 % 256 * 2 ^ 16 + st * 2 ^ 8 + twos 8 (x.coef.getD i (0, 0, 0)).2.2

/-- PRT_CONV_STAT as it reads now. -/
def State.convStat (s : State) (p : PortId) : Nat :=
  (List.finRange 16).foldl (fun a t =>
    a + b2n (s.inputLost p t) * 2 ^ (16 + t.val) + b2n ((s.port p).conv[t].retired != 0) * 2 ^ t.val) 0

end Sys2Proof.Machine
end

