-- ==== Sys2Proof/Machine/Source.lean ====
section
/-! DEFINITION. The sources of line positions (Table 11.1) and what it means that a master reaches a position (R299). -/

namespace Sys2Proof.Machine

/-- PRT_LTG_CFG.SRC in force. -/
def State.srcCode (s : State) (p : PortId) : Nat := s.rf p.val Off.PRT_LTG_CFG 2 0

/-- PRT_LTG_CFG.AXIS in force. -/
def State.srcAxis (s : State) (p : PortId) : AxisId := ⟨s.rf p.val Off.PRT_LTG_CFG 6 4 % 8, Nat.mod_lt _ (by decide)⟩

/-- The source count of a port now (Table 11.1). -/
def State.srcCount (s : State) (p : PortId) : Int :=
  let l := (s.port p).ltg
  match s.srcCode p with
  | 0 => ((s.now - l.t0) / 5 : Nat)
  | 1 => s.master 0
  | 2 => s.master 1
  | 3 => (s.axis (s.srcAxis p)).enc
  | 4 => s.axisPos (s.srcAxis p)
  | _ => l.hostTicks

/-- The master at `count` has reached position `x` (R299). -/
def masterReached (count x : Int) : Bool := decide (0 ≤ sext48 (count - x))

/-- The line position at source count `x`, and the fraction beyond it in 1/65536 of a line (R301); source 5 has no gear unit. -/
def State.lineAt (s : State) (p : PortId) (x : Int) : Int × Nat :=
  let a := (s.port p).ltg.anchor
  if s.srcCode p = 5 then (a.kA + (x - a.sA), 0) else (a.line x, a.frac x)

/-- Changes the gear unit and LTG of a port. -/
def State.updLtg (s : State) (p : PortId) (f : LtgSt → LtgSt) : State := s.updPort p (fun x => { x with ltg := f x.ltg })

/-- The first line of a port whose slate position is at or beyond position `x` in the forward direction, on the grid in
force (R276, log entry 80): the lowest k whose position is reached at travel t(x) or later. -/
def Anchor.lineAtOrAfter (a : Anchor) (x : Int) : Int :=
  a.kA + Int.fdiv ((a.travel x - 1) * a.num.natAbs + a.rA) a.den.natAbs + 1

end Sys2Proof.Machine
end

