-- ==== Sys2Proof/Machine/Motion.lean ====
section
/-! DEFINITION. Axis engines' instructions, the commands they issue, encoders, switches, homing, choppers and the motion
tick of one axis (spec/12_motion_axes.md). -/

namespace Sys2Proof.Machine

/-! ### Sources of R315 -/

/-- The group whose pacing unit owns axis `a`: not IDLE, with `a` its pacing axis (R303). -/
def State.pacedBy (s : State) (a : AxisId) : Option GroupId :=
  (List.finRange 4).find? (fun g => s.mot.paces[g].st != 0 && s.rf 0 (Off.MOT_GRP_PACE + 0x40 * g.val) 2 0 == a.val)

/-- Whether a source above the axis engine is active (R315). -/
def State.overridden (s : State) (a : AxisId) : Bool := s.mot.stopOn || (s.pacedBy a).isSome || (s.axis a).held.isSome

/-- The qualified state of switch `j` (0 HOME, 1 LIMP, 2 LIMN, 3 AUX) of an axis. -/
def AxisSt.qual (x : AxisSt) (j : Nat) : Bool := (x.sw[j % 4]'(Nat.mod_lt _ (by decide))).qual

/-- Whether an enabled limit is active against motion in direction `dir` (R334). -/
def State.limited (s : State) (a : AxisId) (dir : Int) : Bool :=
  let en := s.arf a Off.MOT_SW 17 16
  if 0 < dir then bitN en 0 && (s.axis a).qual 1 else bitN en 1 && (s.axis a).qual 2

/-! ### Commands taking effect (R314 to R338) -/

/-- DEC set to `dn` (R320): at once, or deferred while a position move could no longer stop at its target. A deferral stands until the
next move command; the last value given is then the one that counts (log entry 188). -/
def AxisSt.setDec (x : AxisSt) (dn : Nat) : AxisSt × Bool :=
  let rem := x.s * (x.xt - x.p)
  let d := accT dn
  if x.move = .position ∧ 0 ≤ rem ∧ brakeSpeed d rem.toNat < x.v - d then ({ x with decNext := some dn }, true)
  else ({ x with dec := dn, decNext := x.decNext.map (fun _ => dn) }, false)

/-- A profile parameter takes its value (R316, R319, R320). -/
def State.setPar (s : State) (a : AxisId) (par v : Nat) : State :=
  let v := parRange par v
  match par with
  | 0 => s.updAxis a (fun x => { x with vmax := v })
  | 1 => s.updAxis a (fun x => { x with acc := v })
  | 2 =>
    let r := (s.axis a).setDec v
    let s1 := s.updAxis a (fun _ => r.1)
    if r.2 && (s.axis a).decNext.isNone then s1.raise (axisSrc a.val 4) [(32, v)] else s1
  | 3 => s.updAxis a (fun x => { x with sdec := v })
  | 4 => s.updAxis a (fun x => { x with jerk := v })
  | 5 => s.updAxis a (fun x => { x with shape := v })
  | 6 => s.updAxis a (fun x => { x with irun := v })
  | 7 => s.updAxis a (fun x => { x with ihold := v })
  | _ => s

/-- The profile registers put their values in force as PSET does, at a cut or a start (MOT axis registers). -/
def State.loadProfile (s : State) (a : AxisId) : State :=
  let r (off hi lo : Nat) := s.arf a off hi lo
  [(0, r Off.MOT_PROF_VMAX 31 0), (1, r Off.MOT_PROF_ACC 31 0), (2, r Off.MOT_PROF_DEC 31 0), (3, r Off.MOT_PROF_SDEC 31 0),
   (4, r Off.MOT_PROF_JERK 31 0), (5, r Off.MOT_PROF_CFG 0 0), (6, r Off.MOT_CUR 10 0), (7, r Off.MOT_CUR 23 16)].foldl
    (fun t e => t.setPar a e.1 e.2) s

/-- The next microstep table is copied into the table in force, and TABLE_SWAPPED raised (R325). -/
def State.swapTable (s : State) (a : AxisId) : State :=
  let keep (m : List (Nat × Word)) := m.filter (fun e => e.1 / 256 != a.val)
  let new := s.mstepNext.filter (fun e => e.1 / 256 == a.val)
  let lo := (keep s.mstepNow).filter (fun e => decide (e.1 / 256 < a.val))
  let hi := (keep s.mstepNow).filter (fun e => decide (a.val < e.1 / 256))
  ({ s with mstepNow := lo ++ new ++ hi }.updAxis a (fun x => { x with tblPend := false })).raise (axisSrc a.val 14) []

/-- The driver of an axis goes off (R330): the offsets o read 0, and a table swap that is pending is made at once (R325, R327). -/
def State.driverDown (s : State) (a : AxisId) : State :=
  let s1 := (s.updAxis a AxisSt.driverOff).setReg a.val Off.MOT_CHOP_STAT 0
  if (s.axis a).tblPend then s1.swapTable a else s1

/-- A swap is requested (R325): ignored while one is pending, done at once while the driver is disabled. -/
def State.reqSwap (s : State) (a : AxisId) : State :=
  if (s.axis a).tblPend then s
  else if (s.axis a).enabled then s.updAxis a (fun x => { x with tblPend := true })
  else s.swapTable a

/-- A field of the homing block (Table 12.8). -/
def homeU (b : List Byte) (o n : Nat) : Nat := leAt b o n

/-- The direction of a homing block. -/
def homeDir (b : List Byte) : Int := if bitN (leAt b 1 1) 0 then -1 else 1

/-- HOME takes effect (R335): HOMED clears and the search starts at VSEARCH. -/
def State.startHome (s : State) (a : AxisId) (b : List Byte) : State :=
  (s.endHome a 4).updAxis a (fun x =>
    { x.start (.velocity (homeDir b)) (some (parRange 0 (homeU b 4 4))) with
      homed := false,
      home := some { block := b, stage := 0, reversed := false, dir := homeDir b, pl := 0, lock := 0, edges := 0, result := 0 } })

/-- DRIVE takes effect (R330): on is refused while OC stands, STOP_IN_L is active or the device has tripped (R328, R338, R412). -/
def State.setDrive (s : State) (a : AxisId) (on : Bool) : State :=
  if on then
    if s.arf a Off.MOT_STAT 21 21 = 1 || s.mot.stopOn || s.clk.tripped || (s.axis a).enabled then s
    else s.updAxis a (fun x => x.driverOn (s.arf a Off.MOT_PROF_CFG 8 8 = 1))
  else s.driverDown a

/-- A command of an axis engine takes effect (R314): nothing where a higher source overrides it (R315), the driver is
disabled, or a limit forbids it (R334). -/
def State.axisCmd (s : State) (a : AxisId) (c : AxCmd) : State :=
  let x := s.axis a
  match c with
  | .pset par v => if par ≤ 5 && s.overridden a then s else s.setPar a par v
  | .move rel t =>
    let target := sgn 48 (twos 48 (if rel then x.target + t else t))
    let dir : Int := if x.p < target * 2 ^ 32 then 1 else if target * 2 ^ 32 < x.p then -1 else 0
    if s.overridden a || !x.enabled || (dir ≠ 0 && s.limited a dir) then s
    else (s.endHome a 4).updAxis a (fun x => { x.start .position none with target := target })
  | .jog v =>
    let dir : Int := if v = 0 then x.s else v.sign
    if s.overridden a || !x.enabled || (v ≠ 0 && s.limited a dir) then s
    else (s.endHome a 4).updAxis a (fun x => x.start (.velocity dir) (some (min v.natAbs 8000000)))
  | .stop sdec => if s.overridden a then s else (s.endHome a 4).updAxis a (fun x => x.stopWith sdec)
  | .home b => if s.overridden a then s else s.startHome a b
  | .gear true m num den =>
    if s.overridden a || !x.enabled then s
    else s.updAxis a (fun x => x.engage m (s.master m) (x.gearAt (s.master x.gMaster)) num den)
  | .gear false _ _ _ =>
    if s.overridden a then s
    else s.updAxis a (fun x => { x with gBase := x.gBase + x.gC, gC := 0, gVel := 0, geared := false })
  | .drive on => s.setDrive a on
  | .setpos pos homed =>
    if s.overridden a then s
    else (s.endHome a 4).updAxis a (fun x => { x.place pos with homed := x.homed || homed })
  | .noSetpos => if s.overridden a then s else s.endHome a 4
  | .latch input edge =>
    s.updAxis a (fun x => { x with latchArm := if input = 0 then none else some (input, edge), latchCap := none })
  | .mswap => s.reqSwap a

/-! ### Instructions (R316, Table 12.3) -/

/-- An instruction that issues a command (R314). -/
def State.axisInstr (s : State) (a : AxisId) (op : Nat) (u : Uses) (f : ZscFields) (cmd : State → Option AxCmd) : State :=
  s.instr (axisEng a) op u f (fun t =>
    (match cmd t with
     | none => t
     | some c => t.updAxis a (fun x => { x with cmds := x.cmds ++ [c] })).advance (axisEng a) 1)

/-- The 48-bit value of a register pair: sext48(g[rb][15:0] :: g[ra]). -/
def Eng.pair48 (x : Eng) (f : ZscFields) : Int := sgn 48 ((x.get f.rb).toNat % 2 ^ 16 * 2 ^ 32 + (x.get f.ra).toNat)

/-- The meaning of PSET: parameters 8 to 15 name nothing and change nothing (log entry 70). -/
def execPset (a : AxisId) (f : ZscFields) (s : State) : Host.Outcome State Fault Refusal :=
  .next (s.axisInstr a 0xA0 { rb := true, imm := true, ext := 0x0F } f (fun t =>
    some (.pset (f.ext.toNat % 16) (((t.eng (axisEng a)).get f.rb + f.imm).toNat))))

/-- The meaning of MOVE, forms 0 to 2; form 2 reads scratch under R69. Form 3 names no target and issues nothing (log
entry 70). -/
def execMove (a : AxisId) (f : ZscFields) (s : State) : Host.Outcome State Fault Refusal :=
  let form := f.ext.toNat % 4
  let u : Uses := { ra := true, rb := form == 0, imm := form == 2, ext := 3 }
  let addr := (s.eng (axisEng a)).addr f
  if form = 2 ∧ (addr % 4 ≠ 0 ∨ 1024 ≤ addr) then
    .next (s.instr (axisEng a) 0xA1 u f (fun t => t.trap (axisEng a) 2 addr))
  else
    .next (s.axisInstr a 0xA1 u f (fun t =>
      let x := t.eng (axisEng a)
      match form with
      | 0 => some (.move false (x.pair48 f))
      | 1 => some (.move true (x.get f.ra).toInt)
      | 2 => some (.move false (x.scratchWord (addr / 4)).toInt)
      | _ => none))

/-- The meaning of JOG. -/
def execJog (a : AxisId) (f : ZscFields) (s : State) : Host.Outcome State Fault Refusal :=
  .next (s.axisInstr a 0xA2 { ra := true } f (fun t => some (.jog ((t.eng (axisEng a)).get f.ra).toInt)))

/-- The meaning of STOP: with DEC or SDEC. -/
def execStop (a : AxisId) (f : ZscFields) (s : State) : Host.Outcome State Fault Refusal :=
  .next (s.axisInstr a 0xA3 { ext := 1 } f (fun _ => some (.stop (f.ext.getLsbD 0))))

/-- The gap word of ASTAT 9: the lowest port whose gap window names the axis (R178). -/
def State.gapWord (s : State) (a : AxisId) : Nat :=
  match (List.finRange 16).findSome? (fun p =>
      match (s.port p).gap with
      | some g => if g.axis = a.val then some (p, g) else none
      | none => none) with
  | none => 0
  | some (p, g) =>
    let n := (s.port p).ltg.lastLine
    let left := if g.active then g.first + g.count - n else g.count
    b2n g.active * 2 ^ 31 + b2n (!g.active) * 2 ^ 30 + p.val * 2 ^ 24 + min left 65535

/-- Commanded velocity in microsteps/s: that of the average (R319) and the gear's. -/
def AxisSt.velocity (x : AxisSt) : Int := Int.fdiv (x.way * 200000) (2 ^ 32 * max x.m 1 : Nat) + x.gVel * 200000

/-- MOT_STAT as it reads now; the W1C bits lie in the register. -/
def State.motStat (s : State) (a : AxisId) : Nat :=
  let x := s.axis a
  let gw := s.gapWord a
  let w1c := s.reg a.val Off.MOT_STAT
  s.arf a Off.MOT_STAT 26 24 * 2 ^ 24 + b2n (x.shape ≠ x.shapeF || x.jerk ≠ x.jerkF) * 2 ^ 23 + b2n (bitN w1c 22) * 2 ^ 22 +
    b2n (bitN w1c 21) * 2 ^ 21 + b2n (bitN w1c 20) * 2 ^ 20 + b2n x.tblPend * 2 ^ 19 + b2n x.stepLim * 2 ^ 18 +
    b2n (x.move == .position && decide (x.s * (x.xt - x.p) < 0)) * 2 ^ 17 + b2n x.decNext.isSome * 2 ^ 16 +
    b2n (bitN gw 30) * 2 ^ 15 + b2n (bitN gw 31) * 2 ^ 14 + b2n (x.qual 3) * 2 ^ 13 + b2n (x.qual 2) * 2 ^ 12 +
    b2n (x.qual 1) * 2 ^ 11 + b2n (x.qual 0) * 2 ^ 10 + b2n x.home.isSome * 2 ^ 9 + b2n x.geared * 2 ^ 8 +
    b2n x.enabled * 2 ^ 7 + b2n s.mot.stopOn * 2 ^ 6 + b2n (s.pacedBy a).isSome * 2 ^ 5 + b2n x.homed * 2 ^ 4 +
    b2n (decide (x.pos ≠ x.prevPos)) * 2 + b2n x.inpos

/-- The ASTAT values (Table 12.5); none for a reserved index. -/
def State.astat (s : State) (a : AxisId) (i : Nat) : Option Nat :=
  let x := s.axis a
  let hi (v : Int) := twos 32 (sgn 48 (twos 48 v) / 2 ^ 32)
  match i with
  | 0 => some (s.motStat a)
  | 1 => some (twos 32 x.enc)
  | 2 => some (hi x.enc)
  | 3 => some (twos 32 x.target)
  | 4 => some (hi x.target)
  | 5 => some (twos 32 x.velocity)
  | 6 => some (s.eff a.val Off.MOT_DEV)
  | 7 => some (s.eff a.val Off.MOT_LATCH_LO)
  | 8 => some (s.eff a.val Off.MOT_LATCH_ENC_LO)
  | 9 => some (s.gapWord a)
  | 10 => some (s.eff 0 Off.MOT_MCNT0_LO)
  | 11 => some (s.eff 0 Off.MOT_MCNT1_LO)
  | _ => none

/-- The meaning of ASTAT: an index of 12 to 15 traps ILLEGAL; Z and N follow the value (R63). -/
def execAstat (a : AxisId) (f : ZscFields) (s : State) : Host.Outcome State Fault Refusal :=
  let e := axisEng a
  .next (s.instr e 0xA4 { rd := true, ext := 0x0F } f (fun t =>
    match t.astat a (f.ext.toNat % 16) with
    | none => t.trap e 1 (hiWord 0xA4 f).toNat
    | some v => (t.setRes e f.rd true true (logicRes (BitVec.ofNat 32 v))).advance e 1))

/-- The block of HOME: 16 bytes of the current setup's parameter memory at imm[13:0]. -/
def Eng.homeBlock (x : Eng) (pb : Nat) : List Byte :=
  (List.range 4).flatMap (fun i => leBytes 4 (x.paramWord x.setup (pb / 16 * 4 + i)).toNat)

/-- The meaning of HOME: imm[31:14] names nothing and must be 0. -/
def execHome (a : AxisId) (f : ZscFields) (s : State) : Host.Outcome State Fault Refusal :=
  let e := axisEng a
  .next (s.instr e 0xA5 { imm := decide (f.imm.toNat < 16384) } f (fun t =>
    (t.updAxis a (fun x => { x with cmds := x.cmds ++ [.home ((t.eng e).homeBlock f.imm.toNat)] })).advance e 1))

/-- Z takes the acceptance of a command. -/
def State.setZ (s : State) (e : EngId) (b : Bool) : State := s.updEng e (fun x => { x with z := b })

/-- The meaning of GEAR: an engage needs the driver on and a ratio of R296, a release needs the generator at rest (R323). -/
def execGear (a : AxisId) (f : ZscFields) (s : State) : Host.Outcome State Fault Refusal :=
  let e := axisEng a
  .next (s.instr e 0xA6 { ra := true, rb := true, ext := 3 } f (fun t =>
    let x := t.eng e
    let num := (x.get f.ra).toInt
    let den := (x.get f.rb).toInt
    let on := f.ext.getLsbD 0
    let ok := !t.overridden a && (if on then (t.axis a).enabled && ratioOk num den else (t.axis a).atRest)
    let t1 := if ok then t.updAxis a (fun y => { y with cmds := y.cmds ++ [.gear on (b2n (f.ext.getLsbD 1)) num den] }) else t
    (t1.setZ e ok).advance e 1))

/-- The meaning of LATCH: arms the axis latch. -/
def execLatch (a : AxisId) (f : ZscFields) (s : State) : Host.Outcome State Fault Refusal :=
  .next (s.axisInstr a 0xA7 { ext := 0xFF } f (fun _ => some (.latch (f.ext.toNat % 64) (f.ext.toNat / 64))))

/-- The meaning of DRIVE: enables or disables the driver. -/
def execDrive (a : AxisId) (f : ZscFields) (s : State) : Host.Outcome State Fault Refusal :=
  .next (s.axisInstr a 0xA8 { ext := 1 } f (fun _ => some (.drive (f.ext.getLsbD 0))))

/-- The meaning of SETPOS: Z tells whether the axis was at rest. One that is not accepted still ends a homing (R335). -/
def execSetpos (a : AxisId) (f : ZscFields) (s : State) : Host.Outcome State Fault Refusal :=
  let e := axisEng a
  .next (s.instr e 0xA9 { ra := true, rb := true, ext := 1 } f (fun t =>
    let x := t.axis a
    let ok := !t.overridden a && x.atRest && x.gVel == 0
    let pos := (t.eng e).pair48 f
    let c : AxCmd := if ok then .setpos pos (f.ext.getLsbD 0) else .noSetpos
    ((t.updAxis a (fun y => { y with cmds := y.cmds ++ [c] })).setZ e ok).advance e 1))

/-- The meaning of MSWAP: requests a microstep table swap. -/
def execMswap (a : AxisId) (f : ZscFields) (s : State) : Host.Outcome State Fault Refusal :=
  .next (s.axisInstr a 0xAA {} f (fun _ => some .mswap))

/-! ### Encoders, latches and switches (R301, R302, R331, R333) -/

/-- Whether a level change is the edge that a latch selects: 0 rising, 1 falling, 2 either. -/
def edgeIs (edge : Nat) (level : Bool) : Bool := edge == 2 || (edge == 0 && level) || (edge == 1 && !level)

/-- A quadrature step from (a0, b0) to (a1, b1): none where both inputs change, else the count. -/
def quadStep (a0 b0 a1 b1 : Bool) : Option Int :=
  if a0 != a1 && b0 != b1 then none
  else if a0 == a1 && b0 == b1 then some 0
  -- A leads B: 00, 10, 11, 01 counts up
  else if (a0 != a1) then some (if a1 == b0 then -1 else 1)
  else some (if b1 == a0 then 1 else -1)

/-- The axis latch of axis `a` takes its registers and raises AXIS_LATCH. -/
def State.axisLatched (s : State) (a : AxisId) (pos enc : Int) : State :=
  let s1 := (s.setPair a.val Off.MOT_LATCH_LO (twos 64 (sgn 48 (twos 48 pos)))).setPair a.val Off.MOT_LATCH_ENC_LO
    (twos 64 (sgn 48 (twos 48 enc)))
  (s1.updAxis a (fun x => { x with latchArm := none, latchCap := none })).raise (axisSrc a.val 13) [(32, twos 32 pos)]

/-- The switch filter of a latch input from 1 to 32 could still qualify an edge to `level`: its qualified state is another (R333). -/
def State.canQualify (s : State) (input : Nat) (level : Bool) : Bool :=
  (s.axis ⟨(input - 1) / 4 % 8, Nat.mod_lt _ (by decide)⟩).qual ((input - 1) % 4) != level

/-- The gear latches of ports that are armed on a raw edge of input `input` note the source count, the line and its fraction (R301): the
first edge of an unfiltered input; of a switch the last that its filter may qualify. -/
def State.gearEdge (s : State) (input : Nat) (level : Bool) : State :=
  (List.finRange 16).foldl (fun t p =>
    let r (hi lo : Nat) := t.rf p.val Off.PRT_GEAR_LCFG hi lo
    let takes := if 1 ≤ input ∧ input ≤ 32 then t.canQualify input level else (t.port p).ltg.latchRaw.isNone
    if r 31 31 = 1 && r 5 0 == input && edgeIs (r 9 8) level && takes then
      let x := t.srcCount p
      t.updLtg p (fun y => { y with latchRaw := some (level, x, (t.lineAt p x).1, (t.lineAt p x).2) }) else t) s

/-- An edge of latch input `input` (coded as PRT_GEAR_LCFG): every latch armed on it captures; an unfiltered input
latches an axis at once, a switch input waits for its filter (R301, R333). -/
def State.latchEdge (s0 : State) (input : Nat) (level : Bool) : State :=
  let s := s0.gearEdge input level
  (List.finRange 8).foldl (fun t a =>
    match (t.axis a).latchArm with
    | some (i, e) =>
      if i = input && edgeIs e level then
        let pos := t.axisPos a
        let enc := (t.axis a).enc
        if input ≤ 32 then
          (if t.canQualify input level then t.updAxis a (fun x => { x with latchCap := some (level, pos, enc) }) else t)
        else t.axisLatched a pos enc
      else t
    | none => t) s

/-- A switch filter qualifies a level on input `input`: the captures that wait for it are kept. -/
def State.latchQual (s : State) (input : Nat) (level : Bool) : State :=
  (List.finRange 8).foldl (fun t a =>
    match (t.axis a).latchArm, (t.axis a).latchCap with
    | some (i, _), some (l, pos, enc) => if i = input && l == level then t.axisLatched a pos enc else t
    | _, _ => t) s

/-- A raw edge of the switch that a homing names, inside its lockout (R335 step 2): MOT_CHATTER counts it, and a count above CHATMAX ends
the homing with result 3. -/
def State.homeChatter (s : State) (a : AxisId) (sw : Nat) : State :=
  match (s.axis a).home with
  | none => s
  | some h =>
    if h.stage = 2 ∧ 0 < h.lock ∧ homeU h.block 0 1 = sw then
      let n := h.edges + 1
      let s1 := (s.updAxis a (fun x => { x with home := some { h with edges := n } })).incRf a.val Off.MOT_CHATTER 15 0 1
      if homeU h.block 2 1 < n ∧ h.result = 0 then
        (s1.updAxis a (fun x => { x with home := some { h with edges := n, result := 3 } })).raise (axisSrc a.val 12) [(16, n)]
      else s1
    else s

/-- A sample of An_EA and An_EB: the encoder count moves, or ENC_ERROR is raised (R331). -/
def State.encoderStep (s : State) (a : AxisId) (ea eb : Bool) : State :=
  let x := s.axis a
  let inv : Int := if s.arf a Off.MOT_ENC_CFG 0 0 = 1 then -1 else 1
  let s1 := s.updAxis a (fun y => { y with encA := ea, encB := eb })
  match quadStep x.encA x.encB ea eb with
  | none => (s1.setRf a.val Off.MOT_STAT 22 22 1).raise (axisSrc a.val 8) []
  | some d => s1.updAxis a (fun y => { y with enc := sgn 48 (twos 48 (y.enc + inv * d)) })

/-- An edge of An_EZ since the last tick, with its positions: the first of the level that a homing on An_EZ waits for stands (R335 step 2),
otherwise the latest. -/
def AxisSt.noteZ (x : AxisSt) (level : Bool) (pos enc : Int) : AxisSt :=
  match x.zEdge, x.home with
  | some e, some h => if e.1 = !bitN (homeU h.block 1 1) 1 then x else { x with zEdge := some (level, pos, enc) }
  | _, _ => { x with zEdge := some (level, pos, enc) }

/-- A sample of the encoder inputs (R331): A and B keep these levels for `width` CD6 cycles, and a pulse shorter than FILT is rejected; Z is
taken unfiltered. -/
def State.encoderPins (s : State) (a : AxisId) (ea eb ez : Bool) (width : Nat) : State :=
  let s1 := if width < s.arf a Off.MOT_ENC_CFG 11 8 then s else s.encoderStep a ea eb
  if ez = (s.axis a).encZ then s1
  else
    let s2 := s1.updAxis a (fun y => { y.noteZ ez (s1.axisPos a) y.enc with encZ := ez })
    (s2.latchEdge (35 + a.val) ez).homeChatter a 4

/-- The meaning of ENCODER_EDGE (R331): new levels of An_EA, An_EB and An_EZ, which read low while VDDIO18 is out of its range
(R407). -/
def execEncoderEdge (a : AxisId) (edge : EdgeAt) (ea eb ez : Bool) (s : State) : Host.Outcome State Fault Refusal :=
  let up := s.bankUp 17
  .next ((s.at edge.time).encoderPins a (ea && up) (eb && up) (ez && up) edge.lasts)

/-- The level of switch `j` of axis `a` after MOT_SW.INV. -/
def State.swLevel (s : State) (a : AxisId) (j : Nat) : Bool :=
  ((s.axis a).sw[j % 4]'(Nat.mod_lt _ (by decide))).raw != bitN (s.arf a Off.MOT_SW 11 8) (j % 4)

/-- Changes switch `j` of an axis. -/
def State.updSw (s : State) (a : AxisId) (j : Fin 4) (f : SwSt → SwSt) : State :=
  s.updAxis a (fun x => { x with sw := x.sw.set j (f x.sw[j]) })

/-- A new level of switch `j` (R333): the edge is kept with its time and positions, and goes to the latches. -/
def State.switchPin (s : State) (a : AxisId) (j : Fin 4) (level : Bool) : State :=
  if (s.axis a).sw[j].raw = level then s
  else
    let pos := s.axisPos a
    let s1 := s.updSw a j (fun w => { w with raw := level, edgeTime := s.now, edgePos := pos, edgeEnc := (s.axis a).enc })
    (s1.latchEdge (1 + 4 * a.val + j.val) (s1.swLevel a j.val)).homeChatter a j.val

/-- The meaning of SWITCH_EDGE (R333) at time `t`; the switches read low while VDDIO17 is out of its range (R407). -/
def execSwitchEdge (a : AxisId) (j : Fin 4) (t : Nat) (level : Bool) (s : State) : Host.Outcome State Fault Refusal :=
  .next ((s.at t).switchPin a j (level && s.bankUp 16))

/-- A sample of Mm_A and Mm_B: the count moves, or MENC_ERROR is raised (R302). -/
def State.masterCount (s : State) (m : Fin 2) (ma mb : Bool) : State :=
  let inv : Int := if s.rf 0 (Off.MOT_MCFG0 + 4 * m.val) 0 0 = 1 then -1 else 1
  let off := Off.MOT_MCNT0_LO + 8 * m.val
  let s1 := { s with mot := { s.mot with mA := s.mot.mA.set m ma, mB := s.mot.mB.set m mb } }
  match quadStep s.mot.mA[m] s.mot.mB[m] ma mb with
  | none => (s1.setRf 0 Off.MOT_MSTAT m.val m.val 1).raise (mgtSrc (40 + m.val)) [(8, m.val)]
  | some d => s1.setPair 0 off (twos 64 (sgn 48 (twos 48 (s.master m.val + inv * d))))

/-- The meaning of MASTER_EDGE but for what hangs on a master position (R301, R302): A and B keep their levels for `width` CD6 cycles, and
a pulse shorter than FILT is rejected; an edge of Z goes to the latches. -/
def State.masterStep (s : State) (m : Fin 2) (ma mb mz : Bool) (width : Nat) : State :=
  let s1 := if width < s.rf 0 (Off.MOT_MCFG0 + 4 * m.val) 11 8 then s else s.masterCount m ma mb
  if mz = s.mot.mZ[m] then s1
  else ({ s1 with mot := { s1.mot with mZ := s1.mot.mZ.set m mz } }).latchEdge (33 + m.val) mz

/-! ### The motion tick of an axis -/

/-- One sample of switch `j` (R333): qualified after FILT + 1 equal samples. The result says whether it changed. -/
def State.sampleSwitch (s : State) (a : AxisId) (j : Fin 4) : State × Bool :=
  let level := s.swLevel a j.val
  let w := (s.axis a).sw[j]
  if level = w.qual then (s.updSw a j (fun y => { y with run := 0 }), false)
  else if s.arf a Off.MOT_SW 7 0 + 1 ≤ w.run + 1 then
    ((s.updSw a j (fun y => { y with qual := level, run := 0 })).latchQual (1 + 4 * a.val + j.val) level, true)
  else (s.updSw a j (fun y => { y with run := w.run + 1 }), false)

/-- The edge that a homing search looks for, if it came at this tick: the position of the raw edge. `changed` lists the
switches qualified at this tick. -/
def State.homeEdge (s : State) (a : AxisId) (h : HomeSt) (changed : List (Fin 4)) : Option Int :=
  let sw := homeU h.block 0 1
  let want := !bitN (homeU h.block 1 1) 1
  let x := s.axis a
  if sw = 4 then
    match x.zEdge with
    | some (l, pos, _) => if l = want then some pos else none
    | none => none
  else (changed.find? (fun j => j.val == sw && x.sw[j].qual == want)).map (fun j => x.sw[j].edgePos)

/-- A limit met during a search (R336), `fresh` saying which become active: 0 none, 1 reverse the search, 2 ends with cause 1, 3 ends with
cause 2. In the direction of travel a limit that is active as the search starts counts as one that becomes active (log entry 71); one
that is active behind the axis does not. -/
def State.homeLimit (s : State) (a : AxisId) (h : HomeSt) (fresh : Nat → Bool) : Nat :=
  let sw := homeU h.block 0 1
  let act (j : Nat) := s.limited a (if j = 1 then 1 else -1) && sw != j
  let towards : Nat := if 0 < h.dir then 1 else 2
  if act (3 - towards) && fresh (3 - towards) then 3
  else if act towards && (h.stage == 0 || fresh towards) then (if bitN (homeU h.block 1 1) 2 && !h.reversed then 1 else 2)
  else 0

/-- Homing ends with HOME_LIMIT and a cause; the axis stops with SDEC (R336). -/
def State.homeLimitEnd (s : State) (a : AxisId) (cause : Nat) : State :=
  ((s.endHome a cause).updAxis a (fun x => x.stopWith true)).raise (axisSrc a.val 11) [(8, cause)]

/-- The search of a homing at a motion tick (R335 step 2, R336). -/
def State.homeSearch (s : State) (a : AxisId) (h : HomeSt) (changed : List (Fin 4)) : State :=
  match s.homeEdge a h changed with
  | some pl =>
    (s.updAxis a (fun x => { x.stopWith false with
      home := some { h with stage := 2, pl := pl, lock := homeU h.block 8 2 + 1, edges := 0 } })).setReg a.val Off.MOT_CHATTER 0
  | none =>
    let fresh (j : Nat) := changed.any (fun k => k.val == j)
    let s1 := s.updAxis a (fun x => { x with home := some { h with stage := 1 } })
    match s1.homeLimit a h fresh with
    | 1 => s1.updAxis a (fun x => { x.start (.velocity (-h.dir)) (some (parRange 0 (homeU h.block 4 4))) with
        home := some { h with stage := 1, reversed := true, dir := -h.dir } })
    | 2 => s1.homeLimitEnd a 1
    | 3 => s1.homeLimitEnd a 2
    | _ => s1

/-- Whether the homing's switch is limit `j`, which is then no limit (R336). -/
def AxisSt.homeNames (x : AxisSt) (j : Nat) : Bool :=
  match x.home with
  | some h => homeU h.block 0 1 == j || h.stage < 2
  | none => false

/-- The direction of present motion: of the stage, or of an engaged gear. -/
def AxisSt.moves (x : AxisSt) (dir : Int) : Bool :=
  (x.v != 0 && decide (x.s = dir)) || (x.geared && decide (x.gVel.sign = dir))

/-- R334 for one limit: motion in its direction stops with SDEC, the gear is released by force, LIMIT is raised. -/
def State.limitStop (s : State) (a : AxisId) (j : Nat) : State :=
  let dir : Int := if j = 1 then 1 else -1
  let x := s.axis a
  if s.limited a dir && x.moves dir && (x.geared || x.move ≠ .stop true) && !x.homeNames j then
    ((s.endHome a 4).updAxis a (fun y => y.forceRelease.stopWith true)).raise (axisSrc a.val 6) [(8, j)]
  else s

/-- The profile stage, the average, the gear and the step limit (R317 to R323). -/
def State.profileTick (s : State) (a : AxisId) : State :=
  let x0 := s.axis a
  -- SHAPE and JERK are taken up at rest (R319)
  let x1 :=
    if x0.still then
      let m := avgLen x0.shape x0.dec x0.jerk
      { x0 with shapeF := x0.shape, jerkF := x0.jerk, m := m, hist := List.replicate m x0.p }
    else x0
  let x2 := x1.stage
  let x3 := x2.gearTick (s.master x2.gMaster)
  let x4 := match x3.move with
    | .stop _ => if x3.still then { x3 with target := x3.profile } else x3
    | _ => x3
  let want := x4.profile + x4.gearOut
  let pos := x4.pos + satI (want - x4.pos) (-40) 40
  let lim := decide (pos ≠ want)
  let moved := decide (pos ≠ x4.pos)
  let x5 := { x4 with prevPos := x4.pos, pos := pos, stepLim := lim,
                      lastChange := if moved then s.now else x4.lastChange, holdCur := x4.holdCur && !moved }
  let s1 := s.updAxis a (fun _ => x5)
  if lim && !x0.stepLim then s1.raise (axisSrc a.val 5) [] else s1

/-- STALL (R332): the deviation at this tick, and the action after N ticks beyond WIN. -/
def State.stallTick (s : State) (a : AxisId) : State :=
  let x := s.axis a
  let en := s.arf a Off.MOT_ENC 15 0
  if en = 0 ∨ !x.enabled then s
  else
    let dev := x.enc - (x.e0 + Int.fdiv ((x.pos - x.p0) * (en : Nat)) (max (s.arf a Off.MOT_ENC 31 16) 1 : Nat))
    let s1 := s.setReg a.val Off.MOT_DEV (twos 32 (satI dev (-(2 ^ 31)) (2 ^ 31 - 1)))
    if s.arf a Off.MOT_STALL 31 31 = 1 ∧ max (s.arf a Off.MOT_STALL 15 0) 1 < dev.natAbs then
      if max (s.arf a Off.MOT_STALL 23 16) 1 ≤ x.stall + 1 then
        let s2 := ((s1.setRf a.val Off.MOT_STAT 20 20 1).updAxis a (fun y => { y with stall := 0, homed := false })).raise
          (axisSrc a.val 7) [(32, twos 32 dev)]
        match s.arf a Off.MOT_STALL 25 24 with
        | 0 => s2
        | 1 => s2.updAxis a (fun y => y.forceRelease.stopWith true)
        | _ => s2.driverDown a
      else s1.updAxis a (fun y => { y with stall := x.stall + 1 })
    else s1.updAxis a (fun y => { y with stall := 0 })

/-- INPOS (R321), with IN_POSITION at its rise. -/
def State.inposTick (s : State) (a : AxisId) : State :=
  let x := s.axis a
  let win := s.arf a Off.MOT_INPOS 15 0
  let dev := sgn 32 (s.eff a.val Off.MOT_DEV)
  let now := x.atRest && decide (x.profile = x.target) && !x.geared && (win == 0 || decide (dev.natAbs ≤ win))
  let s1 := s.updAxis a (fun y => { y with inpos := now })
  if now && !x.inpos then s1.raise (axisSrc a.val 3) [(32, twos 32 x.target)] else s1

/-- The later steps of homing (R335 steps 2 to 4), after the stage of the tick. -/
def State.homeTick (s : State) (a : AxisId) : State :=
  match (s.axis a).home with
  | none => s
  | some h =>
    if h.stage = 2 then
      let lock := h.lock - 1
      if (s.axis a).atRest && h.result ≠ 0 then s.endHome a h.result
      else if (s.axis a).atRest && lock = 0 then
        s.updAxis a (fun x => { x.start .position (some (parRange 0 (homeU h.block 4 4))) with
          target := h.pl - x.gearOut, home := some { h with stage := 3, lock := 0 } })
      else s.updAxis a (fun x => { x with home := some { h with lock := lock } })
    else if h.stage = 3 && (s.axis a).move == .position && (s.axis a).atRest then
      (((s.endHome a 0).updAxis a (fun x =>
        { x.place (sgn 32 (homeU h.block 0x0C 4)) with homed := bitN (homeU h.block 1 1) 3 }))).raise (axisSrc a.val 10) [(8, 0)]
    else s

/-- An axis goes to HALTED: its engine stops, and the driver stays enabled at hold current (R337). -/
def State.haltAxis (s : State) (a : AxisId) (cause : Nat) : State :=
  ((s.updEng (axisEng a) Eng.stopRun).updAxis a (fun x => { x with holdCur := true })).setUState (unitOfAxis a) .halted cause

/-- A stop that holds is over: the unit halts at rest, cause 6 from DRAINING with DEC, cause 7 otherwise (R337, Table 15.2); in HALTED
the driver stays enabled at hold current. -/
def State.haltAtRest (s : State) (a : AxisId) : State :=
  if (s.axis a).held.isSome && (s.axis a).atRest then
    match (s.unit (unitOfAxis a)).st with
    | .draining => s.haltAxis a (if (s.axis a).held = some true then 7 else 6)
    | .running => s.haltAxis a 7
    | .halted => s.updAxis a (fun x => { x with holdCur := true })
    | _ => s
  else s

/-- A source of R315 above the engine ends a homing with result 4 (R335). -/
def State.yieldHome (s : State) (a : AxisId) : State := if s.overridden a then s.endHome a 4 else s

/-- The switches are sampled at a tick, and a homing search looks at what changed (R333, R335, R336). -/
def State.senseTick (s : State) (a : AxisId) : State :=
  let r := (List.finRange 4).foldl (fun (t : State × List (Fin 4)) j =>
    let x := t.1.sampleSwitch a j
    (x.1, if x.2 then t.2 ++ [j] else t.2)) (s, [])
  match (r.1.axis a).home with
  | some h => if h.stage ≤ 1 then r.1.homeSearch a h r.2 else r.1
  | none => r.1

/-- The commands that the engine has given since the last tick take effect in program order, and the limits act (R314, R334). -/
def State.obeyTick (s : State) (a : AxisId) : State :=
  let s2 := s.updAxis a (fun x => { x with zEdge := none })
  let cmds := (s2.axis a).cmds
  let s3 := cmds.foldl (fun t c => t.axisCmd a c) (s2.updAxis a (fun x => { x with cmds := [] }))
  (s3.limitStop a 1).limitStop a 2

/-- The driver goes off once the axis rests while STOP_IN is active (R338) or the unit is wedged (R375). -/
def State.restOff (s : State) (a : AxisId) : State :=
  let off := s.mot.stopOn || (s.unit (unitOfAxis a)).st == .wedged
  if off && (s.axis a).atRest && (s.axis a).enabled then s.driverDown a else s

/-- One motion tick of axis `a` up to its pacing unit and engine: switches, latches, homing, limits, the engine's commands,
the profile, the stall logic and the status (R19, R314 to R338). -/
def State.axisTick (s : State) (a : AxisId) : State :=
  ((((((((s.yieldHome a).senseTick a).obeyTick a).profileTick a).stallTick a).homeTick a).restOff a).inposTick a).haltAtRest a

/-- AXIS_OVERRUN (R20): an engine that runs on as the motion tick comes is a fault of code 8 (Table 15.4). -/
def State.axisOverrun (s : State) (a : AxisId) : State :=
  (s.raise (axisSrc a.val 0) []).detect
    { kind := 2, unit := a.val, code := 8, arg := (axisEng a).val, arg2 := 0, time := 0 }

/-- The engine of an axis takes the motion tick (R19): one that waits resumes; one that still runs has overrun. Every motion tick since the
unit started counts (R73, log entry 102). -/
def State.axisEngineTick (s : State) (a : AxisId) : State :=
  let e := axisEng a
  let running := decide ((s.unit (unitOfAxis a)).st = .running) && !s.mgt.resetBusy
  let s := s.updEng e (fun x => { x with line := x.line + 1 })
  if !running then s
  else if (s.eng e).run = .running then s.axisOverrun a
  else if (s.eng e).run = .waiting && (s.axis a).held.isNone then
    s.updEng e (fun x => { x with run := .running, cyc := 0, time := s.now, pos := (s.axis a).pos })
  else s

/-- The meaning of HOLD_CURRENT_TIMER (R329): HOLD_DLY ms without a change of position. -/
def execHoldCurrentTimer (a : AxisId) (t : Nat) (s : State) : Host.Outcome State Fault Refusal :=
  let s := s.at t
  if (s.axis a).lastChange + s.arf a Off.MOT_CUR 31 24 * 1000000 ≤ s.now then .next (s.updAxis a (fun x => { x with holdCur := true }))
  else .next s

/-! ### Choppers (R326 to R328) -/

/-- The target current of a winding in sense codes (R324), at the commanded microstep of this moment (R319); none flows while the driver is
disabled. -/
def State.windingTarget (s : State) (sineT : Nat → Word) (a : AxisId) (w : Fin 2) : Int :=
  let x := s.axis a
  let amp := amplitudes (mstepAt sineT s.mstepNow a.val) (x.index (s.axisPos a))
  if x.enabled then targetCurrent (if w = 0 then amp.1 else amp.2) x.current else 0

/-- ZERO of a winding. -/
def State.zeroCode (s : State) (a : AxisId) (w : Fin 2) : Int := s.arf a Off.MOT_CHOP_ZERO (16 * w.val + 11) (16 * w.val)

/-- Changes a winding. -/
def State.updWind (s : State) (a : AxisId) (w : Fin 2) (f : Winding → Winding) : State :=
  s.updAxis a (fun x => { x with wind := x.wind.set w (f x.wind[w]) })

/-- An ADC code seen: MOT_ISENSE shows it. -/
def State.sense (s : State) (a : AxisId) (w : Fin 2) (code : Nat) : State :=
  (s.updWind a w (fun y => { y with code := code % 4096 })).setRf a.val Off.MOT_ISENSE (16 * w.val + 11) (16 * w.val) code

/-- One decision of the chopper of a winding at time `t` (R326), `code` being the sense code and `it` the target: DRIVE to
DECAY at the upper threshold, DECAY to DRIVE at the lower, which ends a chopper cycle (R327), DRIVE in a new polarity at a change of sign. -/
def State.chop (s : State) (a : AxisId) (w : Fin 2) (it : Int) (code : Nat) : State :=
  let x := (s.axis a).wind[w]
  let hyst : Int := s.arf a Off.MOT_CHOP 7 0
  let blank := s.arf a Off.MOT_CHOP 15 8
  let toff := s.arf a Off.MOT_CHOP 23 16
  let cyc := (s.now - x.since) / 5
  let mag := it.sign * ((code : Nat) - s.zeroCode a w)
  let hi := (it.natAbs : Int) + hyst / 2 + x.o
  let lo := max ((it.natAbs : Int) - hyst / 2 + x.o) 0
  if it = 0 then s.updWind a w (fun y => { y with drive := false, sigma := 0 })
  else if x.sigma ≠ it.sign then s.updWind a w (fun y => { y with drive := true, sigma := it.sign, since := s.now, driveAt := s.now })
  else if x.drive then
    if blank ≤ cyc ∧ hi ≤ mag then s.updWind a w (fun y => { y with drive := false, since := s.now }) else s
  else if max toff blank ≤ cyc ∧ mag ≤ lo then
    s.updWind a w (fun y => { y with
      drive := true, since := s.now, driveAt := s.now, ended := some (y.driveAt, y.since, s.now, y.sigma) })
  else s

/-- e, r and o of R327. -/
def adaptOffset (o hyst : Int) (adapt : Nat) (peak valley itAbs : Int) : Int :=
  let e := Int.fdiv (peak + valley) 2 - itAbs
  let r : Int := if adapt = 0 then 0 else 2 ^ (adapt - 1)
  satI (o - Int.fdiv (e + r) (2 ^ adapt)) (-hyst) hyst

/-- MOT_CHOP_STAT shows o of both windings. -/
def State.showOffset (s : State) (a : AxisId) (w : Fin 2) : State :=
  s.setRf a.val Off.MOT_CHOP_STAT (16 * w.val + 15) (16 * w.val) (twos 16 (s.axis a).wind[w].o)

/-- The magnitudes of the ADC samples of a winding from time `lo` to `hi`, `sg` being the sign of the target current (R326). -/
def State.magsIn (s : State) (a : AxisId) (w : Fin 2) (sg : Int) (samples : List (Nat × BitVec 12)) (lo hi : Nat) : List Int :=
  (samples.filter (fun e => decide (lo ≤ e.1 ∧ e.1 ≤ hi))).map (fun e => sg * ((e.2.toNat : Int) - s.zeroCode a w))

/-- The extreme of a window. A window in which no sample falls has none that a rule gives: that of a free code (log entry 186). -/
def State.extreme (s : State) (a : AxisId) (w : Fin 2) (sg : Int) (pick : Int → Int → Int) (k : Nat) (l : List Int) : Int :=
  match l with
  | [] => sg * (((Config.freeNat 12 (s.free + k) % 4096 : Nat) : Int) - s.zeroCode a w)
  | x :: t => t.foldl pick x

/-- The offset of a winding adapts BLANK cycles after a chopper cycle (R327): the peak is the highest magnitude from the start of its DRIVE
to BLANK cycles after its change to DECAY, the valley the lowest from there to BLANK cycles after the DRIVE that ended it. -/
def State.adapt (s : State) (a : AxisId) (w : Fin 2) (it : Int) (samples : List (Nat × BitVec 12)) : State :=
  let hyst : Int := s.arf a Off.MOT_CHOP 7 0
  let blank := s.arf a Off.MOT_CHOP 15 8 * 5
  match (s.axis a).wind[w].ended with
  | none => s
  | some (start, decay, stop, sg) =>
    if s.now < stop + blank then s
    else
      let s1 := s.updWind a w (fun y => { y with ended := none })
      if s.arf a Off.MOT_CHOP 31 31 = 1 ∧ hyst ≤ it.natAbs then
        let hi := s.magsIn a w sg samples start (decay + blank)
        let lo := s.magsIn a w sg samples decay (stop + blank)
        let s2 := (s1.updWind a w (fun y => { y with
          o := adaptOffset y.o hyst (s.arf a Off.MOT_CHOP 30 28) (s.extreme a w sg max 0 hi) (s.extreme a w sg min 1 lo)
            it.natAbs })).showOffset a w
        if hi.isEmpty || lo.isEmpty then s2.tickFree.tickFree else s2
      else s1

/-- The drive state of a winding's pins xH and xL (Table 12.2, R326), `mag` being the present magnitude: drive in the
polarity σ; decay slow, fast, or fast for floor(TOFF / 2) cycles, slow once mag is not above 0. -/
def State.gatePins (s : State) (a : AxisId) (w : Fin 2) (mag : Int) : Bool × Bool :=
  let x := s.axis a
  let y := x.wind[w]
  let mode := s.arf a Off.MOT_CHOP 25 24
  let fast := (mode == 1 || (mode == 2 && decide ((s.now - y.since) / 5 < s.arf a Off.MOT_CHOP 23 16 / 2))) && decide (0 < mag)
  let pos := decide (0 < y.sigma)
  if !x.enabled || y.sigma = 0 then (false, false)
  else if y.drive then (pos, !pos)
  else if fast then (!pos, pos)
  else (false, false)

/-- What An_EN drives; none for high impedance, while VDDIO17 is out of its range (R330, R407); low after a thermal trip (R412). -/
def State.enOut (s : State) (a : AxisId) : Option Bool :=
  if s.bankUp 16 then some ((s.axis a).enabled && !s.clk.tripped) else none

/-- What the two gate outputs of a winding drive (R326, R407); both low after a thermal trip (R412). -/
def State.gateOut (s : State) (a : AxisId) (w : Fin 2) (mag : Int) : Option (Bool × Bool) :=
  if s.bankUp 16 then some (if s.clk.tripped then (false, false) else s.gatePins a w mag) else none

/-- The meaning of OVERCURRENT (R328): two samples in a row with |code - ZERO| above LIM turn the driver off, set OC, clear
HOMED and halt the axis; UNIT_STATE carries cause 7, the row of Table 15.2 for a halt that no drain precedes (log entry
72). -/
def execOvercurrent (a : AxisId) (w : Fin 2) (code0 code1 : BitVec 12) (s : State) : Host.Outcome State Fault Refusal :=
  let beyond (c : BitVec 12) : Bool := decide (s.arf a Off.MOT_OCLIM 11 0 < ((c.toNat : Int) - s.zeroCode a w).natAbs)
  let s1 := s.sense a w code1.toNat
  if !(beyond code0 && beyond code1) then .next s1
  else
    let s2 := ((s1.setRf a.val Off.MOT_STAT 21 21 1).driverDown a).updAxis a (fun x => { x with homed := false })
    let s3 := s2.raise (axisSrc a.val 9) [(8, w.val)]
    let u := unitOfAxis a
    if (s3.unit u).st = .running ∨ (s3.unit u).st = .draining then .next ((s3.haltAxis a 7).paceLeave a)
    else .next s3

/-- The meaning of TABLE_SWAPPED (R325): a swap that is pending is done in a CD6 cycle in which j = 0. -/
def execTableSwapped (a : AxisAt) (s : State) : Host.Outcome State Fault Refusal :=
  let s := s.at a.time
  let x := s.axis a.axis
  .next (if x.tblPend && (x.index (s.axisPos a.axis) % 256 == 0 || !x.enabled) then s.swapTable a.axis else s)

/-- The pin STOP_IN_L takes a level (R338). -/
def State.stopPin (s : State) (low : Bool) : State := { s with mot := { s.mot with stopLow := low } }

end Sys2Proof.Machine
end

