-- ==== Sys2Proof/Machine/StoreForm.lean ====
section
/-! DEFINITION. What the take store holds and how it lies on the drives: segments, cue table, metadata (spec/10_take_store.md, R264 to
R268). -/

namespace Sys2Proof

/-- The line of an entry's record. -/
def SEntry.line : SEntry → Option Nat
  | .record r _ => some r.line
  | .note .. => none

/-- The lines of a segment's map entry: first and last (Table 10.5). -/
def Seg.lines (x : Seg) : Option (Nat × Nat) :=
  let span : SEntry → Nat × Nat
    | .record r _ => (r.line, r.line)
    | .note _ _ a b => (a, b)
  match x.entries, x.entries.getLast? with
  | a :: _, some b => some ((span a).1, (span b).2)
  | _, _ => none

/-- First and last line of what a segment holds, in line order (R282): of one in which its port's lines start again they are not those of its
first and last entry (log entry 207). -/
def Seg.extent (x : Seg) : Option (Nat × Nat) :=
  let span : SEntry → Nat × Nat
    | .record r _ => (r.line, r.line)
    | .note _ _ a b => (a, b)
  match x.entries.map span with
  | [] => none
  | e :: t => some (t.foldl (fun m d => (min m.1 d.1, max m.2 d.2)) e)

/-- The span of a cue holds line `n` of its port (R277). -/
def Cue.spans (c : Cue) (n : Nat) : Bool :=
  match c.line with
  | some l => decide (l ≤ n + c.before) && decide (n ≤ l + c.after)
  | none => false

/-- Bytes of a chunk. -/
def chunkBytes : Nat := 131072

/-- Chunks that hold the header and the entries of a segment. -/
def Seg.chunkCount (x : Seg) : Nat := if x.entries.isEmpty then 0 else (4096 + x.used + chunkBytes - 1) / chunkBytes

open Sys2Proof.Machine in
/-- Bytes of an entry in its segment (R266). -/
def SEntry.bytes : SEntry → Nat
  | .record r _ => up64 r.size
  | .note .. => 64

/-- The records of a segment. -/
def Seg.recs (x : Seg) : List Rec := x.entries.filterMap (fun e => match e with | .record r _ => some r | .note .. => none)

/-- Bytes padded with zeros to `n`. -/
def padTo (n : Nat) (b : List Byte) : List Byte := b ++ List.replicate (n - b.length) 0

open Sys2Proof.Machine in
/-- Bytes followed by their CRC-32C (R211). -/
def withCrc (b : List Byte) : List Byte := b ++ leBytes 4 (crc32c b)

open Sys2Proof.Machine in
/-- An entry as its segment holds it (R266, Table 10.8): a record in format 3 followed by zeros, or a note. -/
def SEntry.image (port : Nat) : SEntry → List Byte
  | .record r lost => padTo (up64 r.size) (r.bytes 3 lost)
  | .note k n a b => withCrc (leBytes 2 0xFFFF ++ leBytes 1 k ++ leBytes 1 port ++ leBytes 4 n ++ leBytes 8 a ++ leBytes 8 b ++
      List.replicate 36 0)

open Sys2Proof.Machine in
/-- The segment header (Table 10.7) of slot `g` in the store `id`. Positions and times are those of the first and the last record (log
entry 182). -/
def Seg.headerBytes (x : Seg) (id g : Nat) : List Byte :=
  let ls := x.lines.getD (0, 0)
  let ends (f : Rec → Nat) : List Byte :=
    leBytes 8 ((x.recs.head?.map f).getD 0) ++ leBytes 8 ((x.recs.getLast?.map f).getD 0)
  let dropped := (x.entries.map (fun e => match e with | .note _ n _ _ => n | .record .. => 0)).sum
  withCrc (leBytes 4 0x47535A4B ++ leBytes 2 1 ++ leBytes 1 x.port ++ leBytes 1 (x.closed.getD 0) ++ leBytes 8 id ++ leBytes 8 x.seq ++
    leBytes 4 g ++ leBytes 4 x.entries.length ++ leBytes 8 ls.1 ++ leBytes 8 ls.2 ++ ends (fun r => twos 64 r.pos) ++
    ends (fun r => r.time) ++ leBytes 4 x.used ++ leBytes 4 dropped ++ List.replicate 36 0)

/-- The bytes of a segment: its header in the first 4 KiB, then its entries (R266). -/
def Seg.image (x : Seg) (id g : Nat) : List Byte := padTo 4096 (x.headerBytes id g) ++ x.entries.flatMap (SEntry.image x.port)

/-- A chunk of a segment, its unused bytes 0 (R267). -/
def Seg.chunk (x : Seg) (id g k : Nat) : List Byte := padTo chunkBytes (((x.image id g).drop (chunkBytes * k)).take chunkBytes)

open Sys2Proof.Machine in
/-- What a segment's map entry shows of it (Table 10.5). -/
def Seg.mapKey (x : Seg) : List Nat :=
  [x.st, x.port, b2n x.pinned, x.entries.length, x.seq, (x.lines.getD (0, 0)).1, (x.lines.getD (0, 0)).2]

end Sys2Proof

namespace Sys2Proof.Machine

/-! ### Accessors -/

/-- Changes the take store. -/
def State.updTks (s : State) (f : TksSt → TksSt) : State := { s with tks := f s.tks }

/-- Changes a drive position. -/
def State.updDrive (s : State) (d : DriveId) (f : DrvSt → DrvSt) : State :=
  s.updTks (fun t => { t with drives := t.drives.set d (f t.drives[d]) })

/-- Changes the take-store side of a port. -/
def State.updTport (s : State) (p : PortId) (f : TksPort → TksPort) : State :=
  s.updTks (fun t => { t with ports := t.ports.set p (f t.ports[p]) })

/-- A free slot. -/
def freeSeg : Seg :=
  { st := 0, port := 0, pinned := false, seq := 0, entries := [], used := 0, closed := none, opened := 0, issued := 1,
    header := false, drvLost := false }

/-- The segment of slot `g`. -/
def State.seg (s : State) (g : Nat) : Seg := mget (fun _ => freeSeg) s.tks.segs g

/-- Page `k` of the segment map has changed since it was written to a copy (R268). -/
def CopySt.touch (c : CopySt) (k : Nat) : CopySt := if c.pages.contains k then c else { c with pages := c.pages ++ [k] }

/-- The map entries of slots have changed. -/
def State.touch (s : State) (gs : List Nat) : State :=
  s.updTks (fun t => { t with copies := t.copies.map (fun c => gs.foldl (fun c g => c.touch (g / 128)) c) })

/-- The map entries of every slot of a drive with `n` slots have changed. -/
def State.touchDrive (s : State) (n : Nat) : State :=
  s.updTks (fun t => { t with copies := t.copies.map (fun c => (List.range ((8 * n + 127) / 128)).foldl CopySt.touch c) })

/-- Replaces the segment of slot `g`. -/
def State.setSeg (s : State) (g : Nat) (x : Seg) : State :=
  let t := s.updTks (fun t => { t with segs := mput (fun _ => freeSeg) g x t.segs })
  if x.mapKey = (s.seg g).mapKey then t else t.touch [g]

/-- The drive of a slot (R265). -/
def slotDrive (g : Nat) : DriveId := ⟨g % 8, Nat.mod_lt _ (by decide)⟩

/-- A command put to a drive (Table 10.1). -/
def State.nvme (s : State) (d : DriveId) (op : NvmeOp) : State := s.updTks (fun t => { t with nvme := (d.val, op) :: t.nvme })

/-- The byte offset of a slot on its drive (Table 10.3). -/
def slotOffset (g : Nat) : Nat := 0x40000000 + 0x800000 * (g / 8)

/-- The NVMe commands that a command of the store stands for. -/
def DrvCmd.ops (c : DrvCmd) : List NvmeOp :=
  match c.kind with
  | 1 => [.read (slotOffset c.slot) 0x800000]
  | 3 => [.deallocate c.slot c.chunk]
  | 4 => [.flush]
  | _ => c.writes.map (fun w => .write w.1 w.2.1 w.2.2)

/-- Puts the NVMe commands of a command of the store to a drive. -/
def State.put (s : State) (d : DriveId) (c : DrvCmd) : State := c.ops.foldl (fun t o => t.nvme d o) s

/-- A new command of the store, outstanding from now on. -/
def State.issueCmd (s : State) (d : DriveId) (c : DrvCmd) : State := (s.updDrive d (fun x => { x with cmds := x.cmds ++ [c] })).put d c

/-- A command of the store with nothing written, at its first attempt. -/
def newCmd (kind slot chunk : Nat) : DrvCmd :=
  { kind := kind, slot := slot, chunk := chunk, seq := 0, tries := 0, aborted := false, writes := [] }

/-- A slot exists (R265). -/
def State.slotExists (s : State) (g : Nat) : Bool :=
  let d := s.tks.drives[slotDrive g]
  d.st == 4 && decide (g / 8 < d.nd)

/-- The existing slots. -/
def State.slotCountAll (s : State) : Nat := (s.memberDrives.map (fun d => s.tks.drives[d].nd)).sum

/-- Writable slots (R277): existing ones whose segment is neither open, written or not, nor pinned. -/
def State.writable (s : State) : Nat :=
  s.slotCountAll - (s.tks.segs.filter (fun e => s.slotExists e.1 && (e.2.st == 1 || e.2.pinned))).length

/-- Pinned slots. -/
def State.pinnedSlots (s : State) : Nat := (s.tks.segs.filter (fun e => s.slotExists e.1 && e.2.pinned)).length

/-- Lost slots: those of failed drives until a drive joins in their place (R285), and lost ones on members. -/
def State.lostSlots (s : State) : Nat :=
  ((List.finRange 8).map (fun d => s.tks.drives[d].lostNd)).sum +
    (s.tks.segs.filter (fun e => s.slotExists e.1 && e.2.st == 3)).length

/-- The oldest line of a port held in written segments (TKS_PORT_OLDEST). -/
def State.oldest (s : State) (p : PortId) : Option Nat :=
  (s.tks.segs.filter (fun e => e.2.st == 2 && e.2.port == p.val)).foldl (fun m e =>
    (e.2.entries.filterMap SEntry.line).foldl (fun m n => some (match m with | some k => min k n | none => n)) m) none

/-! ### Cues -/

/-- Cue `n`. -/
def State.cue (s : State) (n : Nat) : Option Cue := (s.tks.cues.find? (fun c => c.1 == n)).map (fun c => c.2)

/-- Changes every cue. -/
def State.mapCues (s : State) (f : Nat → Cue → Cue) : State := s.updTks (fun t => { t with cues := t.cues.map (fun c => (c.1, f c.1 c.2)) })

/-- A cue becomes lost (R280). -/
def State.loseCue (s : State) (n cause : Nat) : State :=
  (s.mapCues (fun m c => if m = n then { c with st := 3, cause := cause } else c)).raise (tksSrc 67) [(16, n), (8, cause)]

/-- The held cues anchored in a slot. -/
def State.anchored (s : State) (g : Nat) : List (Nat × Cue) := s.tks.cues.filter (fun c => c.2.st == 2 && c.2.anchor == some g)

/-- A pinned cue's span holds a record of the segment. -/
def State.segPinned (s : State) (x : Seg) : Bool :=
  (x.st == 1 || x.st == 2) && s.tks.cues.any (fun c => c.2.pinned && c.2.st != 3 && c.2.port == x.port &&
    (x.entries.filterMap SEntry.line).any c.2.spans)

/-- The segments that a cue pins. -/
def State.cuePins (s : State) (q : Cue) : Nat :=
  if q.pinned then (s.tks.segs.filter (fun e => e.2.pinned && e.2.port == q.port && (e.2.entries.filterMap SEntry.line).any q.spans)).length
  else 0

/-! ### The metadata of the store (R264, R268) -/

/-- A cue table entry (Table 10.6). -/
def State.cueBytes (s : State) (n : Nat) : List Byte :=
  match s.cue n with
  | none => List.replicate 64 0
  | some q =>
    leBytes 1 q.st ++ leBytes 1 q.port ++ leBytes 1 q.kind ++ leBytes 1 (b2n q.pinned) ++ leBytes 4 (q.cause % 256) ++
      leBytes 8 (twos 64 q.value) ++ leBytes 8 (q.line.getD 0 % 2 ^ 48) ++ leBytes 4 q.before ++ leBytes 4 q.after ++
      leBytes 4 (q.anchor.getD 0) ++ leBytes 4 (s.cuePins q) ++ leBytes 8 q.time ++ leBytes 2 (q.ctx % 256) ++ leBytes 2 q.cid ++
      List.replicate 12 0

/-- The cue table: 256 entries. -/
def State.cueTable (s : State) : List Byte := (List.range 256).flatMap s.cueBytes

/-- A segment map entry (Table 10.5). Every slot of a failed drive is lost (R285). -/
def State.mapEntry (s : State) (g : Nat) : List Byte :=
  let x := s.seg g
  let st := if g / 8 < s.tks.drives[slotDrive g].lostNd then 3 else x.st
  let ls := x.lines.getD (0, 0)
  leBytes 1 st ++ leBytes 1 x.port ++ leBytes 1 (b2n x.pinned + 2 * b2n (!(s.anchored g).isEmpty)) ++ leBytes 1 0 ++
    leBytes 4 x.entries.length ++ leBytes 8 x.seq ++ leBytes 8 (ls.1 % 2 ^ 48) ++ leBytes 8 (ls.2 % 2 ^ 48)

/-- A 4 KiB page of the segment map. -/
def State.mapPage (s : State) (k : Nat) : List Byte := (List.range 128).flatMap (fun i => s.mapEntry (128 * k + i))

/-- The offset of a copy, 0 A or 1 B (Table 10.3). -/
def copyOffset (c : Fin 2) : Nat := 0x20000000 * c.val

/-- What a header tells of the store as it is now. -/
def State.snapNow (s : State) : HdrSnap :=
  { time := s.now, next := s.tks.next, wp := s.tks.wp, members := (s.memberDrives.map (fun d => 2 ^ d.val)).sum, lost := s.tks.lost,
    slots := (List.finRange 8).map (fun e => if s.memberDrives.contains e then s.tks.drives[e].nd else 0), crc := crc32c s.cueTable }

/-- The metadata header of copy `c` on drive `d` (Table 10.4), padded to 4 KiB: it tells of the data that the copy holds (R268). -/
def State.metaHeader (s : State) (d : DriveId) (c : Fin 2) (h : HdrSnap) : List Byte :=
  padTo 4096 (withCrc (leBytes 4 0x53545A4B ++ leBytes 2 1 ++ leBytes 1 c.val ++ leBytes 1 d.val ++ leBytes 8 s.tks.id ++
    leBytes 8 s.tks.ckpt ++ leBytes 8 h.time ++ leBytes 8 h.next ++ leBytes 4 h.wp ++ leBytes 1 h.members ++ leBytes 1 h.lost ++
    leBytes 2 0 ++ h.slots.flatMap (leBytes 4) ++
    leBytes 4 h.crc ++ leBytes 4 s.tks.copies[c].jhead ++ leBytes 4 s.tks.drives[d].mirror[c] ++ List.replicate 32 0))

/-- Entries of a journal mirror. -/
def mirrorSize : Nat := 0x100000

/-- Writes entries to the journal mirror of a copy from index `i` on. -/
def mirrorWrites (c : Fin 2) (i : Nat) (es : List JEntry) : List (Nat × Nat × List Byte) :=
  es.zipIdx.map (fun e => (0, copyOffset c + 0x100000 + 64 * ((i + e.2) % mirrorSize), e.1.bytes))

/-- The entries drained since a copy's journal mirror was last written (R268, R386). -/
def State.unmirrored (s : State) (c : Fin 2) : List JEntry := s.jrnl.ring.filter (fun e => decide (s.tks.copies[c].jnext ≤ e.seq))

/-- Writes pages of the segment map to a copy. -/
def State.pageWrites (s : State) (c : Fin 2) (ks : List Nat) : List (Nat × Nat × List Byte) :=
  ks.map (fun k => (0, copyOffset c + 0x8000000 + 4096 * k, s.mapPage k))

/-- Writes the cue table to a copy. -/
def State.cueWrite (s : State) (c : Fin 2) : Nat × Nat × List Byte := (0, copyOffset c + 0x1000, s.cueTable)

/-- What a step of a checkpoint writes to drive `d` (R268): 0 and 2 the data, 1 and 3 the header of copies A and B. -/
def State.ckptWrites (s : State) (d : DriveId) (step : Nat) : List (Nat × Nat × List Byte) :=
  let c : Fin 2 := ⟨step / 2 % 2, Nat.mod_lt _ (by decide)⟩
  if step % 2 = 1 then [(0, copyOffset c, s.metaHeader d c s.tks.copies[c].snap)]
  else s.pageWrites c s.tks.copies[c].pages ++ [s.cueWrite c] ++ mirrorWrites c s.tks.copies[c].jhead (s.unmirrored c)

/-- The newest entries of the on-chip journal that a copy mirrors (R270, R385). -/
def State.onChip (s : State) (c : Fin 2) : List JEntry :=
  ((s.jrnl.all.reverse.take 65536).reverse).filter (fun e => decide (e.seq < s.tks.copies[c].jnext))

/-- The pages of the map that hold an entry of a slot `8 i + d` with `i` below `n`. -/
def pagesOf (n : Nat) : List Nat := List.range ((8 * n + 127) / 128)

/-- A drive whose metadata is older, or of no store, is brought up (R269, R270): every page of the map up to the last slot of any drive, the cue
table, the journal mirror from the on-chip journal, and where `hdr` says so the header, to both copies. -/
def State.wholeMeta (s : State) (d : DriveId) (hdr : Bool) : State :=
  let ks := pagesOf (s.tks.drives.toList.foldl (fun m x => max m (max x.nd x.lostNd)) 0)
  let t := s.updDrive d (fun x => { x with mirror := Vector.ofFn (fun c => (s.onChip c).length) })
  t.issueCmd d { newCmd 2 0 4 with writes := (List.finRange 2).flatMap (fun c =>
    t.pageWrites c ks ++ [t.cueWrite c] ++ mirrorWrites c (t.tks.copies[c].jhead + mirrorSize - (t.onChip c).length) (t.onChip c) ++
      (if hdr then [(0, copyOffset c, t.metaHeader d c t.snapNow)] else [])) }

end Sys2Proof.Machine
end

