-- ==== Sys2Proof/Machine/Store.lean ====
section
/-! DEFINITION. The take store: drives, segments, checkpoints, recording, cue marks, rewinds (spec/10_take_store.md). -/

namespace Sys2Proof.Machine

/-! ### Pins and held cues (R276, R277) -/

/-- Pins follow the pinned cues' spans (R277). A pinned cue whose anchor is lost keeps the pins it has. -/
def State.repin (s : State) : State :=
  let kept (x : Seg) : Bool := x.pinned && s.tks.cues.any (fun c => c.2.pinned && c.2.st == 3 && c.2.port == x.port &&
    (x.entries.filterMap SEntry.line).any c.2.spans)
  let now (x : Seg) : Bool := s.segPinned x || kept x
  (s.updTks (fun t => { t with segs := t.segs.map (fun e => (e.1, { e.2 with pinned := now e.2 })) })).touch
    ((s.tks.segs.filter (fun e => e.2.pinned != now e.2)).map (fun e => e.1))

/-- A pending cue whose line a placed record reaches becomes held, with slot `g` as its anchor (R276). -/
def State.holdCues (s : State) (p : PortId) (line g : Nat) : State :=
  s.mapCues (fun _ c =>
    match c.line with
    | some l => if c.st = 1 ∧ c.port = p.val ∧ l ≤ line then { c with st := 2, anchor := some g } else c
    | none => c)

/-! ### Segments and staging (R266, R267) -/

/-- A chunk of a segment is written, by queue g mod 3 (R260, R267). -/
def State.writeChunk (s : State) (g k : Nat) : State :=
  let x := s.seg g
  s.issueCmd (slotDrive g) { newCmd 0 g k with
    seq := x.seq, writes := [(g % 3, slotOffset g + chunkBytes * k, x.chunk s.tks.id g k)] }

/-- Writes the chunks from the next one up to `n`. -/
def State.writeUpTo (s : State) (g : Nat) : Nat → State
  | 0 => s
  | f + 1 =>
    let x := s.seg g
    if f + 1 ≤ x.issued then s
    else
      let t := State.writeUpTo s g f
      (t.writeChunk g f).setSeg g { t.seg g with issued := f + 1 }

/-- Chunk writes of a slot that are outstanding. -/
def State.chunksOut (s : State) (g : Nat) : Nat :=
  (s.tks.drives[slotDrive g].cmds.filter (fun c => c.kind == 0 && c.slot == g)).length

/-- The header chunk goes last, after every other chunk of a closed segment has completed (R267). -/
def State.tryHeader (s : State) (g : Nat) : State :=
  let x := s.seg g
  if x.st = 1 ∧ x.closed.isSome ∧ !x.header ∧ s.chunksOut g = 0 ∧ x.issued ≥ x.chunkCount then
    (s.setSeg g { x with header := true }).writeChunk g 0
  else s

/-- A segment closes with a code of Table 10.7; one that holds nothing is free again. -/
def State.closeSeg (s : State) (g code : Nat) : State :=
  let x := s.seg g
  if x.st ≠ 1 ∨ x.closed.isSome then s
  else if x.entries.isEmpty then s.setSeg g freeSeg
  else ((s.setSeg g { x with closed := some code }).writeUpTo g x.chunkCount).tryHeader g

/-- The open segment of a port closes. -/
def State.closePort (s : State) (p : PortId) (code : Nat) : State :=
  match s.tks.ports[p].open_ with
  | none => s
  | some g => (s.closeSeg g code).updTport p (fun x => { x with open_ := none })

/-- Recording is disabled for a port: its open segment closes (R273); Table 10.7 gives that no code (log entry 81). -/
def State.closeDisabled (s : State) (p : PortId) : State :=
  if s.tks.ports[p].open_.isSome then (s.closePort p (Config.freeNat 8 s.free % 256)).tickFree else s

/-! ### Checkpoints (R268) -/

/-- What the data step of copy `c` has written is no longer to be written, and its header is to tell of it (R268). -/
def State.copied (s : State) (c : Fin 2) : State :=
  let n := (s.unmirrored c).length
  let last := (s.unmirrored c).foldl (fun m e => max m (e.seq + 1)) s.tks.copies[c].jnext
  let t := s.memberDrives.foldl (fun t d =>
    t.updDrive d (fun x => { x with mirror := x.mirror.set c (min mirrorSize (x.mirror[c] + n)) })) s
  t.updTks (fun k => { k with copies := k.copies.set c { pages := [], jnext := last, jhead := (k.copies[c].jhead + n) % mirrorSize, snap := s.snapNow } })

/-- A step of a checkpoint is put to every member; a Flush follows on each once its writes have completed. -/
def State.ckptStep (s : State) (step : Nat) : State :=
  let t := s.memberDrives.foldl (fun t d => t.issueCmd d { newCmd 2 0 step with writes := s.ckptWrites d step }) s
  if step % 2 = 0 then t.copied ⟨step / 2 % 2, Nat.mod_lt _ (by decide)⟩ else t

/-- A checkpoint starts, or is noted to follow the one that runs. -/
def State.checkpoint (s : State) : State :=
  if s.tks.st ≠ 2 then s
  else match s.tks.running with
    | some r => s.updTks (fun t => { t with running := some { r with again := true } })
    | none => (s.updTks (fun t => { t with running := some { step := 0, again := false }, ckpt := t.ckpt + 1 })).ckptStep 0

/-- The checkpoint goes on when no member has a write or a Flush of it outstanding. -/
def State.ckptNext (s : State) : State :=
  match s.tks.running with
  | none => s
  | some r =>
    if s.memberDrives.any (fun d => s.tks.drives[d].cmds.any (fun c => c.kind == 2 || c.kind == 4)) then s
    else if r.step < 3 then (s.updTks (fun t => { t with running := some { r with step := r.step + 1 } })).ckptStep (r.step + 1)
    else
      let t := s.updTks (fun t => { t with running := none })
      if r.again then t.checkpoint else t

/-! ### Rewinds (R281 to R284) -/

/-- A marker record (Table 8.9). The fields that the spec does not give it are free values (log entry 82). -/
def State.marker (s : State) (p : PortId) (r : Rewind) (kind first last count dropped : Nat) : Rec :=
  { type := 5, port := p.val, flags := 0, line := r.first, pos := 0, time := r.time, setup := Config.freeNat 16 s.free % 2 ^ 16,
    range := Config.freeNat 8 s.free % 256, coding := 0, pixels := 0, planes := 0, layout := 0, bad := 0,
    drift := Config.freeNat 32 s.free % 2 ^ 32, cont := 0,
    payload := leBytes 4 r.seq ++ leBytes 2 kind ++ leBytes 2 0 ++ leBytes 8 first ++ leBytes 8 last ++ leBytes 4 count ++ leBytes 4 dropped }

/-- Delivers a record on stream 3, or drops it under R229; tells whether it was delivered. -/
def State.stream3 (s : State) (p : PortId) (r : Rec) (lost : Nat) : State × Bool :=
  let c := chanOf p 3
  if !s.link.d3hot && (s.chan c).room r.size then (s.chanWrite c r lost, true) else (s.chanNoRoom c r, false)

/-- Replaces the rewind of a port. -/
def State.setRewind (s : State) (p : PortId) (r : Option Rewind) : State := s.updTport p (fun x => { x with rewind := r })

/-- Stream 3 of a port waits: the descriptors that have been given are not all read, and those read have no room (R229); or the channel
halts and takes no record (R235). -/
def State.stream3Waits (s : State) (p : PortId) (n : Nat) : Bool :=
  let x := s.chan (chanOf p 3)
  (x.st != 1 && x.st != 2) || (!s.link.d3hot && x.unread && !x.room n)

/-- Bytes of a marker record. -/
def markerSize : Nat := 96

/-- A rewind ends with an end marker (R284), which waits as any record of the stream does. -/
def State.rewindEnd (s : State) (p : PortId) (cause : Nat) : State :=
  match s.tks.ports[p].rewind with
  | none => s
  | some r =>
    let c := r.ending.getD cause
    if s.stream3Waits p markerSize then s.setRewind p (some { r with ending := some c })
    else ((s.stream3 p (s.marker p r 1 r.first r.last r.delivered r.dropped) 0).1.tickFree).rewindOver p c

/-- Every rewind ends (R284). -/
def State.rewindsEnd (s : State) (cause : Nat) : State := (List.finRange 16).foldl (fun t p => t.rewindEnd p cause) s

/-- The next segment of a rewind is read, if no read of it runs (R282). -/
def State.readNext (s : State) (p : PortId) : State :=
  match s.tks.ports[p].rewind with
  | none => s
  | some r =>
    let busy := (List.finRange 8).any (fun d => s.tks.drives[d].cmds.any (fun c => c.kind == 1 && c.chunk == p.val))
    match r.items.findSome? (fun i => match i with | .seg g q _ _ => some (g, q) | _ => none) with
    | none => s
    | some (g, q) =>
      let x := s.seg g
      if busy ∨ x.st ≠ 2 ∨ x.seq ≠ q then s
      else
        s.issueCmd (slotDrive g) { newCmd 1 g p.val with seq := q }

/-! ### Loss (R263, R280, R285) -/

/-- Inserts a segment into a list in order of sequence. -/
def bySeq (a : Nat × Seg) : List (Nat × Seg) → List (Nat × Seg)
  | [] => [a]
  | b :: t => if a.2.seq < b.2.seq then a :: b :: t else b :: bySeq a t

/-- A port number of an argument. -/
def argPort (n : Nat) : PortId := ⟨n % 16, Nat.mod_lt _ (by decide)⟩

/-- Adds to the notes that a port owes: consecutive records of one kind make one note (Table 10.8). -/
def TksPort.addNote (x : TksPort) (kind count first last : Nat) : TksPort :=
  match x.notes.reverse with
  | (k, n, a, b) :: t =>
    if k = kind then { x with notes := (t.reverse) ++ [(k, n + count, min a first, max b last)] }
    else { x with notes := x.notes ++ [(kind, count, first, last)] }
  | [] => { x with notes := [(kind, count, first, last)] }

/-- Chunks of the staging memory that a segment holds. -/
def State.heldChunks (s : State) (g : Nat) : Nat :=
  let x := s.seg g
  if x.st ≠ 1 ∨ x.entries.isEmpty then 0
  else s.chunksOut g + b2n (!x.header) + (x.chunkCount - x.issued)

/-- The records of a segment that are staged: those with bytes in a chunk whose write has not completed (R267). -/
def State.staged (s : State) (g : Nat) : List Nat :=
  let x := s.seg g
  let cs := s.tks.drives[slotDrive g].cmds
  let written (k : Nat) : Bool := decide (0 < k) && decide (k < x.issued) && !cs.any (fun c => c.kind == 0 && c.slot == g && c.chunk == k)
  if x.st ≠ 1 then []
  else
    (x.entries.foldl (fun (a : Nat × List Nat) e =>
      let ks := (List.range ((a.1 + e.bytes - 1) / chunkBytes + 1)).filter (fun k => decide (a.1 / chunkBytes ≤ k))
      (a.1 + e.bytes, match e.line with
        | some n => if ks.all written then a.2 else a.2 ++ [n]
        | none => a.2)) (4096, [])).2

/-- The note that a port owes for the staged records of a segment that are discarded (R285). -/
def TksPort.addLost (x : TksPort) (ls : List Nat) : TksPort :=
  match ls, ls.getLast? with
  | a :: _, some b => x.addNote 1 ls.length a b
  | _, _ => x

/-- The staged records of segments on a drive are discarded: each port owes a note of kind 1 for them, and one whose open segment was
there goes on in another (R285). `s` is the state before the failure. -/
def State.discard (t s : State) (mine : List (Nat × Seg)) : State :=
  mine.foldl (fun t e =>
    t.updTport (argPort e.2.port) (fun x =>
      (if x.open_ = some e.1 then { x with open_ := none } else x).addLost (s.staged e.1))) t

/-- A member drive fails (R285): its slots are lost, staged records are discarded with a note of kind 1, cues anchored there
are lost, a checkpoint goes to the others; with no member left STATE reads FAILED. Its queues are deleted where the link is up (Table
10.1). The failure is classified (Table 15.4, code 11). -/
def State.driveFail (s : State) (d : DriveId) (cause : Nat) : State :=
  if s.tks.drives[d].st ≠ 4 then s
  else
    let mine := s.tks.segs.filter (fun e => e.1 % 8 == d.val && e.2.st != 0)
    let freed := (mine.map (fun e => s.heldChunks e.1)).sum
    let s1 := s.updTks (fun t => { t with
      pool := min 256 (t.pool + freed), lost := t.lost ||| 2 ^ d.val,
      segs := t.segs.map (fun e => if e.1 % 8 = d.val ∧ e.2.st ≠ 0 then
        (e.1, { e.2 with st := 3, drvLost := true, pinned := false }) else e) })
    let s1' := if cause = 0 then s1 else (List.range 4).foldl (fun t q => t.nvme d (.deleteQueue q)) s1
    let s2 := ((s1'.updDrive d (fun x => { x with st := 5, cmds := [], lostNd := x.nd, asize := 0 })).touchDrive s.tks.drives[d].nd).raise
      (tksSrc (56 + d.val)) [(8, cause)]
    let s3 := (mine.flatMap (fun e => s2.anchored e.1)).foldl (fun t c => t.loseCue c.1 1) s2
    let s4 := s3.discard s (mine.foldr bySeq [])
    let s5 := if s4.memberDrives.isEmpty then (s4.updTks (fun t => { t with st := 3, running := none })).rewindsEnd 4
      else s4.ckptNext.checkpoint
    s5.detect { kind := 9, unit := d.val, code := 11, arg := cause, arg2 := 0, time := 0 }

/-- A read of a slot has failed for good, or its header does not match (R266): the segment is lost, and so are the cues
anchored there. -/
def State.segLost (s : State) (g : Nat) : State :=
  let s1 := s.setSeg g { s.seg g with st := 3, pinned := false }
  (s.anchored g).foldl (fun t c => t.loseCue c.1 2) s1

/-! ### Allocation (R273, R278) -/

/-- The first slot from `g` on that can be taken, within `n` slots: existing, not open, not pinned. -/
def State.searchSlot (s : State) (limit : Nat) : Nat → Nat → Option Nat
  | 0, _ => none
  | n + 1, g =>
    if s.slotExists g && (s.seg g).st != 1 && !(s.seg g).pinned then some g
    else State.searchSlot s limit n ((g + 1) % max limit 1)

/-- One past the highest existing slot. -/
def State.slotEnd (s : State) : Nat := s.memberDrives.foldl (fun m d => max m (8 * (s.tks.drives[d].nd - 1) + d.val + 1)) 0

/-- CMP_REC.PRIO of a port. -/
def State.prio (s : State) (p : PortId) : Nat := s.rf p.val Off.CMP_REC 18 16

/-- A port records: enabled, and not suspended (R271). -/
def State.recording (s : State) (p : PortId) : Bool :=
  s.rf p.val Off.CMP_REC 0 0 == 1 && s.rf 0 Off.TKS_CTL 0 0 == 1 && s.tks.st == 2 && !s.tks.ports[p].suspended

/-- The recording port with the lowest priority, ties to the highest number. -/
def State.lowestPort (s : State) : Option PortId :=
  ((List.finRange 16).filter (fun p => s.recording p && s.portState p == .running)).foldl (fun b p =>
    match b with
    | none => some p
    | some q => if s.prio p ≤ s.prio q then some p else some q) none

/-- Ports are suspended until 2 slots are writable (R278). -/
def State.pressure (s : State) : Nat → State
  | 0 => s
  | n + 1 =>
    if 2 ≤ s.writable then s
    else match s.lowestPort with
      | none => s
      | some p =>
        State.pressure (((s.closePort p 2).updTport p (fun x => { x with suspended := true })).raise (tksSrc 65) [(8, p.val)]) n

/-- With at least 4 writable slots one suspended port resumes, highest priority first (R278). -/
def State.resumeOne (s : State) : State :=
  if s.writable < 4 then s
  else
    match ((List.finRange 16).filter (fun p => s.tks.ports[p].suspended)).foldl (fun (b : Option PortId) p =>
      match b with
      | none => some p
      | some q => if s.prio q < s.prio p then some p else some q) none with
    | none => s
    | some p => (s.updTport p (fun x => { x with suspended := false })).raise (tksSrc 66) [(8, p.val)]

/-- The slot at which an allocation starts its search: the write pointer, wrapped from the highest slot to the lowest (R265, R273). -/
def State.ringStart (s : State) (wp : Nat) : Nat := if wp < s.slotEnd then wp else 0

/-- SEGMENT_ALLOC (R273): a suspended port may resume, the next slot is taken with the next sequence, an unpinned cue
anchored in it is lost, a lost slot is reclaimed, and pressure is relieved. -/
def State.allocate (s : State) (p : PortId) : State :=
  let s0 := s.resumeOne
  let limit := s0.slotEnd
  match s0.searchSlot limit limit (s0.ringStart s0.tks.wp) with
  | none => s0.pressure 16
  | some g =>
    let s1 := (s0.anchored g).foldl (fun t c => t.loseCue c.1 0) s0
    let s2 := if (s0.seg g).st = 3 then s1.issueCmd (slotDrive g) (newCmd 3 (g / 8) 1) else s1
    let s3 := s2.setSeg g { freeSeg with st := 1, port := p.val, seq := s2.tks.next, opened := s2.now }
    let s4 := s3.updTks (fun t => { t with wp := g + 1, next := t.next + 1 })
    (s4.updTport p (fun x => { x with open_ := some g })).pressure 16

/-! ### Recording (R271 to R275) -/

/-- Bytes that a segment has for entries. -/
def segRoom : Nat := 8388608 - 4096

/-- A record that is to be recorded is not (R274): counted, TKS_DROP raised, named in a note. -/
def State.tksDrop (s : State) (p : PortId) (r : Rec) (kind : Nat) : State :=
  let s1 := s.updTport p (fun x => x.addNote kind 1 r.line r.line)
  let n := match (s1.tks.ports[p].notes.reverse).head? with | some e => e.2.1 | none => 1
  (s1.incRf 0 (Off.TKS_PORT_DROP + 0x10 * p.val) 31 0 1).raise (tksSrc p.val) [(32, n)]

/-- Places notes and a record in the port's open segment `g` (R267, R273, R276, R277). -/
def State.placeRec (s : State) (p : PortId) (g : Nat) (r : Rec) (lost : Nat) : State :=
  let x := s.seg g
  let new := s.tks.ports[p].notes.map (fun e => SEntry.note e.1 e.2.1 e.2.2.1 e.2.2.2) ++ [SEntry.record r lost]
  let y := { x with entries := x.entries ++ new, used := x.used + (new.map SEntry.bytes).sum }
  let s1 := (s.setSeg g y).updTks (fun t => { t with pool := t.pool - (y.chunkCount - x.chunkCount) })
  let s2 := s1.updTport p (fun q => { q with notes := [] })
  let s3 := s2.writeUpTo g ((4096 + y.used) / chunkBytes)
  let s4 := s3.holdCues p r.line g
  let z := s4.seg g
  s4.setSeg g { z with pinned := z.pinned || s4.segPinned z }

/-- The chunks that a record would take in segment `x`. -/
def State.newChunks (s : State) (p : PortId) (x : Seg) (r : Rec) : Nat :=
  let n := 64 * s.tks.ports[p].notes.length + up64 r.size
  (4096 + x.used + n + chunkBytes - 1) / chunkBytes - x.chunkCount

/-- The open segment of a port can take its notes and the next record (R273). -/
def State.fitsOpen (s : State) (p : PortId) (r : Rec) : Bool :=
  match s.tks.ports[p].open_ with
  | some g => decide ((s.seg g).used + (64 * s.tks.ports[p].notes.length + up64 r.size) ≤ segRoom)
  | none => false

/-- A record is offered to the take store (R271 to R274). `exceeds` says that it exceeds the write limit after a fall in the
number of members. -/
def State.record (s : State) (p : PortId) (r : Rec) (exceeds : Bool) : State :=
  if !recorded (s.eff p.val Off.CMP_REC) r.type || s.rf 0 Off.TKS_CTL 0 0 = 0 then s
  else if s.tks.st = 3 then s.tksDrop p r 1
  else if s.tks.st ≠ 2 then s
  else if s.tks.ports[p].suspended then s.updTport p (fun x => x.addNote 2 1 r.line r.line)
  else if exceeds then s.tksDrop p r 3
  else
    let s1 : State := if s.fitsOpen p r then s else (s.closePort p 0).allocate p
    match s1.tks.ports[p].open_ with
    | none =>
      if s1.tks.ports[p].suspended then s1.updTport p (fun x => x.addNote 2 1 r.line r.line) else s1.tksDrop p r 1
    | some g =>
      let waiting := (s1.tks.drives[slotDrive g].cmds.filter (fun c => c.kind == 0)).length
      if s1.tks.pool < s1.newChunks p (s1.seg g) r ∨ 64 ≤ waiting then s1.tksDrop p r 1
      else
        let total := (s1.port p).lostBefore r.line
        (s1.placeRec p g r (min (total - (s1.port p).storeLost) 65535)).updPort p (fun x => { x with storeLost := total })

/-- The meaning of RECORD_EMISSION (R219): destination 0 to 2 a stream of the port, 3 the take store. -/
def execRecordEmission (p : PortId) (dest : Fin 4) (exceeds : Bool) (s : State) : Host.Outcome State Fault Refusal :=
  if h : dest.val < 3 then .next (s.emitStream p ⟨dest.val, h⟩)
  else
    match (s.port p).due[3] with
    | [] => .next s
    | r :: rest => .next ((s.updPort p (fun y => { y with due := y.due.set 3 rest })).record p r exceeds)

/-! ### Drives (R259 to R263) -/

/-- STATE and link fields of TKS_DRV_STATd. -/
def State.drvLink (s : State) (d : DriveId) (rate width : Nat) : State :=
  (s.setRf 0 (Off.TKS_DRV_STAT + 0x10 * d.val) 15 12 rate).setRf 0 (Off.TKS_DRV_STAT + 0x10 * d.val) 11 8 width

/-- The entries of a drive's admin queue (R260). -/
def adminEntries : Nat := 32

/-- The meaning of DRIVE_LINK_UP (R259, R261): Identify and Set Features (their order is the model's: log entry 183). -/
def execDriveLinkUp (d : DriveId) (rate width : Nat) (s : State) : Host.Outcome State Fault Refusal :=
  if s.tks.drives[d].st = 0 ∨ s.tks.drives[d].st = 5 then
    .next ([NvmeOp.identify 0, .identify 1, .setQueues 4, .setArbitration 8, .setWriteCache true].foldl (fun t o => t.nvme d o)
      ((s.updDrive d (fun x => { x with st := 1, cmds := [], hdr := none, asize := adminEntries })).drvLink d rate width))
  else .next s

/-- n_d (R264). -/
def dataSlots (bytes : Nat) : Nat := min bytes (8 * 10 ^ 12) / 8388608 - 128

/-- The meaning of DRIVE_READY (R260, R261): what Identify tells (namespace bytes if it is there, LBA data size, whether it
has no metadata or protection information, the maximum transfer and the largest queue size) and the newest valid metadata
header found. A usable drive has four I/O queue pairs, and both its headers are read. The drive becomes MEMBER only at recovery, FORMAT or JOIN. -/
def execDriveReady (d : DriveId) (ns : Option Nat) (lba : Nat) (plain : Bool) (mdts qmax : Nat) (hdr : Option StoreHdr) (s : State) :
    Host.Outcome State Fault Refusal :=
  if s.tks.drives[d].st ≠ 1 then .next s
  else
    let bytes := ns.getD 0
    let bad := decide (bytes < 2 ^ 31) || (lba != 512 && lba != 4096) || !plain || decide (mdts < 131072) || decide (qmax < 64)
    let s1 := s.setRf 0 (Off.TKS_DRV_STAT + 0x10 * d.val) 16 16 (b2n (lba == 4096))
    let size := min 1024 qmax
    if bad then .next (s1.updDrive d (fun x => { x with st := 6, nd := 0, qsize := 0, hdr := none }))
    else
      .next (([0, 1, 2, 3].map (fun q => NvmeOp.createQueue q size) ++ (List.finRange 2).map (fun c => NvmeOp.read (copyOffset c) 4096)).foldl
        (fun t o => t.nvme d o)
        (s1.updDrive d (fun x => { x with st := if hdr.isSome then 3 else 2, nd := dataSlots bytes, qsize := size, hdr := hdr })))

/-- The meaning of DRIVE_LINK_DOWN (R263): the link goes down, or the controller reports fatal status (`fatal`). -/
def execDriveLinkDown (d : DriveId) (fatal : Bool) (s : State) : Host.Outcome State Fault Refusal :=
  let s1 := if fatal then s else s.drvLink d 0 0
  if s.tks.drives[d].st = 4 then .next (s1.driveFail d (b2n fatal))
  else if fatal then .next s1
  else .next (s1.updDrive d (fun x => { x with st := 0, nd := 0, qsize := 0, asize := 0, cmds := [], hdr := none }))

/-- Replaces command `k` of a drive. -/
def State.setCmd (s : State) (d : DriveId) (k : Nat) (c : DrvCmd) : State := s.updDrive d (fun x => { x with cmds := x.cmds.set k c })

/-- Removes command `k` of a drive. -/
def State.dropCmd (s : State) (d : DriveId) (k : Nat) : State := s.updDrive d (fun x => { x with cmds := x.cmds.eraseIdx k })

/-- The meaning of NVME_TIMEOUT (R263): I/O command `k` of a drive has been outstanding TIMEOUT ms and is aborted, or has not
completed after a further TIMEOUT ms; with none, an admin command has been outstanding for 1 s. -/
def execNvmeTimeout (d : DriveId) (k : Option Nat) (s : State) : Host.Outcome State Fault Refusal :=
  match k with
  | none => .next (s.driveFail d 3)
  | some i =>
    match s.tks.drives[d].cmds[i]? with
    | none => .next s
    | some c => if c.aborted then .next (s.driveFail d 3) else .next ((s.setCmd d i { c with aborted := true }).nvme d .abort)

/-- A command of a drive is put to it once more. -/
def State.retry (s : State) (d : DriveId) (k : Nat) (c : DrvCmd) : State := (s.setCmd d k { c with tries := 1, aborted := false }).put d c

/-- The meaning of CHUNK_WRITE_DONE (R263, R267): write `k` of a drive completes; the chunk returns to the pool. An error is
retried once, a second fails the drive. A deallocation that completes is done with, whatever its status (log entry 183). -/
def execChunkWriteDone (d : DriveId) (k : Nat) (ok : Bool) (s : State) : Host.Outcome State Fault Refusal :=
  match s.tks.drives[d].cmds[k]? with
  | none => .next s
  | some c =>
    if c.kind = 3 then .next (s.dropCmd d k)
    else if c.kind ≠ 0 then .next s
    else if !ok then
      if c.tries = 0 then .next (s.retry d k c) else .next (s.driveFail d 2)
    else
      let s1 := (s.dropCmd d k).updTks (fun t => { t with pool := min 256 (t.pool + 1) })
      if c.chunk = 0 then .next (s1.setSeg c.slot { s1.seg c.slot with st := 2 }) else .next (s1.tryHeader c.slot)

/-- The meaning of SEGMENT_CLOSE_TIMER (R273): the port's segment has been open for CLOSE ms at time `t`. -/
def execSegmentCloseTimer (p : PortId) (t : Nat) (s : State) : Host.Outcome State Fault Refusal :=
  let s := s.at t
  match s.tks.ports[p].open_ with
  | none => .next s
  | some g => if (s.seg g).opened + max (s.rf 0 Off.TKS_CFG 15 0) 10 * 1000000 ≤ s.now then .next (s.closePort p 1) else .next s

/-- The meaning of SMART_POLL (R262): with the SMART / Health log the Error Information log is read (Table 10.1; DESIGN CHOICE when, log
entry 205). -/
def execSmartPoll (d : DriveId) (warn : Byte) (used temp : Nat) (s : State) : Host.Outcome State Fault Refusal :=
  let st := s.tks.drives[d].st
  if st ≠ 2 ∧ st ≠ 3 ∧ st ≠ 4 then .next s
  else
    let off := Off.TKS_DRV_HEALTH + 0x10 * d.val
    let old := s.rf 0 off 31 24
    let s1 := ((s.setReg 0 off (warn.toNat * 2 ^ 24 + min used 255 * 2 ^ 16 + min temp 65535)).nvme d (.logPage true)).nvme d (.logPage false)
    if (List.range 8).any (fun i => bitN warn.toNat i && !bitN old i) then .next (s1.raise (tksSrc (48 + d.val)) [(8, warn.toNat)])
    else .next s1

/-- The meaning of CHECKPOINT (R268): the 100 ms period. -/
def execCheckpoint (s : State) : Host.Outcome State Fault Refusal := .next s.checkpoint

/-- The meaning of CHECKPOINT_WRITE_DONE (R268): the writes of a step complete on a drive, and its Flush is issued; or the Flush
completes, and the checkpoint goes on once it has on every member; a header that has been flushed is read back (DESIGN CHOICE when, log
entry 205). An error is retried once, a second fails the drive (log entry 83). -/
def execCheckpointWriteDone (d : DriveId) (ok : Bool) (s : State) : Host.Outcome State Fault Refusal :=
  let cs := s.tks.drives[d].cmds
  match cs.findIdx? (fun c => c.kind == 2 || c.kind == 4) with
  | none => .next s
  | some k =>
    match cs[k]? with
    | none => .next s
    | some c =>
      if ok ∧ c.kind = 2 then .next ((s.setCmd d k (newCmd 4 0 c.chunk)).put d (newCmd 4 0 c.chunk))
      else if ok then
        let t := s.dropCmd d k
        .next (if c.chunk = 1 ∨ c.chunk = 3 then t.nvme d (.read (copyOffset ⟨c.chunk / 2 % 2, Nat.mod_lt _ (by decide)⟩) 4096) else t).ckptNext
      else if c.tries = 0 then .next (s.retry d k c)
      else .next (s.driveFail d 2)

/-! ### Recovery, FORMAT, JOIN (R269, R270) -/

/-- The header with the highest checkpoint sequence among the usable drives. -/
def State.bestHdr (s : State) : Option StoreHdr :=
  (List.finRange 8).foldl (fun b d =>
    let x := s.tks.drives[d]
    if x.st = 2 ∨ x.st = 3 then
      match x.hdr, b with
      | some h, none => some h
      | some h, some k => if k.ckpt < h.ckpt then some h else some k
      | none, _ => b
    else b) none

/-- The next `n` existing slots from slot `g` on, in the order of the ring (R265). -/
def State.nextSlots (s : State) (limit : Nat) : Nat → Nat → Nat → List Nat
  | 0, _, _ => []
  | _ + 1, 0, _ => []
  | f + 1, n + 1, g =>
    let h := (g + 1) % max limit 1
    if s.slotExists g then g :: State.nextSlots s limit f n h else State.nextSlots s limit f (n + 1) h

/-- A drive belongs to the store that header `h` names. -/
def State.inStore (s : State) (h : StoreHdr) (d : DriveId) : Bool :=
  let x := s.tks.drives[d]
  (x.st == 2 || x.st == 3) && (x.hdr.map (fun y => y.id)) == some h.id && bitN h.members d.val

/-- The slots that stay lost of a drive that the header marks lost (R269, R285): those up to the last one that the map gives as lost. -/
def lostOf (h : StoreHdr) (segs : List (Nat × Seg)) (d : DriveId) : Nat :=
  if bitN h.lost d.val then (segs.filter (fun e => e.2.st == 3 && e.1 % 8 == d.val)).foldl (fun m e => max m (e.1 / 8 + 1)) 0 else 0

/-- The reads of the newest checkpoint (R259, R269): the cue table, the last entry of the journal mirror and the segment map of the copy with
header `h`, from a drive that holds it. -/
def State.readCkpt (s : State) (h : StoreHdr) : State :=
  match (List.finRange 8).find? (fun d => s.tks.drives[d].hdr == some h) with
  | none => s
  | some d =>
    let n := 8 * h.slots.foldl max 0
    [(0x1000, 16384), (0x100000 + (h.jhead + mirrorSize - 1) % mirrorSize / 64 * 4096, 4096), (0x8000000, (32 * n + 4095) / 4096 * 4096)].foldl
      (fun t e => t.nvme d (.read (copyOffset h.copy + e.1) e.2)) s

/-- The store of header `h` is taken up (R269): its members, the segment map and cue table of its checkpoint, and the place in the
journal mirror; members whose own copy is older are brought up. -/
def State.takeStore (s : State) (h : StoreHdr) (segs : List (Nat × Seg)) (cues : List (Nat × Cue)) (mirrored : Nat) : State :=
  let s1 := s.updTks (fun t => { t with
    st := 2, id := h.id, wp := h.wp, next := h.next, ckpt := h.ckpt, lost := h.lost,
    cues := cues.filter (fun c => decide (c.1 < 256)),
    copies := t.copies.map (fun c => { c with pages := [], jnext := mirrored, jhead := h.jhead }),
    drives := Vector.ofFn (fun d =>
      if s.inStore h d then { t.drives[d] with st := 4, lostNd := 0, mirror := Vector.replicate 2 h.jcount }
      else { t.drives[d] with lostNd := lostOf h segs d }) })
  let ok (e : Nat × Seg) : Bool := e.2.st == 2 || e.2.st == 3
  let s2 := (segs.filter ok).foldl (fun t e => t.setSeg e.1 { e.2 with drvLost := e.2.st == 3 && bitN h.lost (e.1 % 8) }) s1
  let s3 := s2.updTks (fun t => { t with copies := t.copies.map (fun c => { c with pages := [] }) })
  ((List.finRange 8).filter (fun d => s.inStore h d && (s.tks.drives[d].hdr.map (fun y => y.ckpt)) != some h.ckpt)).foldl
    (fun t d => t.wholeMeta d true) s3

/-- A segment enters the map as written (R269): cues that wait for one of its records are held by it (R276), held ones that the slot
anchored before are lost with the segment they had there (R280), and pins follow (R277). -/
def State.enterSeg (s : State) (g : Nat) (x : Seg) : State :=
  let old := s.anchored g
  let s1 := if (s.seg g).seq = x.seq then s else old.foldl (fun t c => t.loseCue c.1 0) s
  let s2 := s1.setSeg g { x with st := 2, pinned := false }
  x.recs.foldl (fun t r => t.holdCues (argPort x.port) r.line g) s2

/-- The slots that the map gives as open (R269 step 6): one whose header is valid and of the segment that the map gives there is written, any
other is free, and the cues it anchored wait again (log entry 206). -/
def State.openSlots (s : State) (h : StoreHdr) (segs : List (Nat × Seg)) (found : List (Nat × Nat × Seg)) : State :=
  (segs.filter (fun e => e.2.st == 1 && s.slotExists e.1)).foldl (fun t e =>
    let t1 := t.nvme (slotDrive e.1) (.read (slotOffset e.1) 4096)
    match found.find? (fun f => f.1 == e.1 && f.2.1 == h.id && f.2.2.seq == e.2.seq && f.2.2.port == e.2.port) with
    | some f => (t1.setSeg e.1 { f.2.2 with st := 0 }).enterSeg e.1 f.2.2
    | none => t1.mapCues (fun _ c => if c.st = 2 ∧ c.anchor = some e.1 then { c with st := 1, anchor := none } else c)) s

/-- The scan of the next 4,096 existing slots (R269): each header found valid, with the store's ID and a sequence not below the
checkpoint's, enters the map as written, in order of sequence; the write pointer and the next sequence move past the highest. The number of
segments comes with the state. -/
def State.scanSlots (s : State) (h : StoreHdr) (found : List (Nat × Nat × Seg)) : State × Nat :=
  let slots := s.nextSlots s.slotEnd 32776 (min 4096 s.slotCountAll) (s.ringStart h.wp)
  let s1 := slots.foldl (fun t g => t.nvme (slotDrive g) (.read (slotOffset g) 4096)) s
  let scan := found.filter (fun e => slots.contains e.1 && e.2.1 == h.id && decide (h.next ≤ e.2.2.seq))
  let s2 := ((scan.map (fun e => (e.1, e.2.2))).foldr bySeq []).foldl (fun t e => t.enterSeg e.1 e.2) s1
  let top := scan.foldl (fun (m : Option (Nat × Nat)) e =>
    match m with
    | some k => if k.2 < e.2.2.seq then some (e.1, e.2.2.seq) else m
    | none => some (e.1, e.2.2.seq)) none
  (match top with
    | some k => s2.updTks (fun t => { t with wp := k.1 + 1, next := k.2 + 1 })
    | none => s2, scan.length)

/-- A member of the store that is absent or unusable is treated as failed (R269): its slots are those that the header gives. -/
def State.absentMember (s : State) (h : StoreHdr) (d : DriveId) : State :=
  let x := s.tks.drives[d]
  ((s.updDrive d (fun y => { y with st := 4, nd := h.slots.getD d.val 0 })).driveFail d 0).updDrive d (fun y =>
    { y with st := x.st, nd := x.nd })

/-- The meaning of STORE_RECOVERY (R269): `segs` is the segment map of the newest checkpoint and `ckpt` what else it holds, `found` the
slots whose headers the scan finds valid, with the store ID and the segment of each. -/
def execStoreRecovery (segs : List (Nat × Seg)) (ckpt : CkptRead) (found : List (Nat × Nat × Seg)) (s : State) :
    Host.Outcome State Fault Refusal :=
  if s.tks.st ≠ 1 then .next s
  else match s.bestHdr with
    | none => .next (s.updTks (fun t => { t with st := 0 }))
    | some h =>
      let r := ((((s.readCkpt h).takeStore h segs ckpt.cues ckpt.mirrored).openSlots h segs found).scanSlots h found)
      let t := ((List.finRange 8).filter (fun d => bitN h.members d.val && !s.inStore h d)).foldl (fun t d => t.absentMember h d) r.1.repin
      .next (t.raise (tksSrc 64) [(16, r.2)])

/-- A new store on the usable drives (R270). The store ID is drawn: a free value. -/
def State.format (s : State) : State :=
  if s.rf 0 Off.TKS_CTL 0 0 = 1 then s
  else
    let usable (d : DriveId) : Bool := let x := s.tks.drives[d].st; x == 2 || x == 3 || x == 4
    let s0 := (List.finRange 16).foldl (fun t p => t.closePort p 4) s
    let s1 := s0.updTks (fun t => { t with
      id := Config.freeNat 64 s.free % 2 ^ 64, segs := [], cues := [], wp := 0, next := 1, ckpt := 0, lost := 0, pool := 256,
      running := none,
      copies := t.copies.map (fun c => { (t.segs.foldl (fun c e => c.touch (e.1 / 128)) c) with jhead := 0 }),
      drives := Vector.ofFn (fun d =>
        if usable d then { t.drives[d] with st := 4, lostNd := 0, cmds := [] } else { t.drives[d] with lostNd := 0 }),
      ports := t.ports.map (fun p => { p with open_ := none, notes := [], suspended := false }) })
    let s2 := s1.memberDrives.foldl (fun t d => (t.issueCmd d (newCmd 3 0 t.tks.drives[d].nd)).wholeMeta d false) s1.tickFree
    if s2.memberDrives.isEmpty then s2.updTks (fun t => { t with st := 0 })
    else (s2.updTks (fun t => { t with st := 2 })).checkpoint

/-- A READY or FOREIGN drive joins the current store, its slots free (R270, R285). Without a store nothing is joined. -/
def State.join (s : State) (d : DriveId) : State :=
  let x := s.tks.drives[d].st
  if (x ≠ 2 ∧ x ≠ 3) ∨ (s.tks.st ≠ 2 ∧ s.tks.st ≠ 3) then s
  else
    let s1 := s.updTks (fun t => { t with
      st := 2, lost := t.lost &&& (255 - 2 ^ d.val), segs := mdrop (fun g => g % 8 == d.val) t.segs })
    let s2 := (s1.touchDrive (max s.tks.drives[d].nd s.tks.drives[d].lostNd)).updDrive d (fun y =>
      { y with st := 4, lostNd := 0, cmds := [] })
    ((s2.issueCmd d (newCmd 3 0 s.tks.drives[d].nd)).wholeMeta d false).checkpoint

/-! ### Cue commands (R276 to R279) -/

/-- Whether a context holds the rights of a take-store command on a port: the TKS block and the port, both to write. -/
def tksRight (x : Ctx) (p : Nat) : Bool := x.blk 7 true && x.port p true

/-- The first line ticked on a grid whose slate position is at or beyond `x`. -/
def Grid.lineFor (g : Grid) (x : Int) : Option Nat :=
  let k := max (g.anchor.lineAtOrAfter x) g.first
  if k ≤ g.last then some k.toNat else none

/-- The line of a new cue, if it is known (R276): on the port's own master the first line ticked since the start whose slate position is
at or beyond the cue's. -/
def State.cueLine (s : State) (p : PortId) (kind : Nat) (v : Nat) : Option Nat :=
  if kind = 0 then some (v % 2 ^ 48)
  else if s.srcCode p = kind ∧ (s.port p).ltg.ticked then
    ((s.port p).ltg.past ++ [(s.port p).ltg.grid]).findSome? (fun g => g.lineFor (sgn 48 v))
  else none

/-- The first record of a port at or after a line, in line order: the slot of its segment. -/
def State.anchorFor (s : State) (p : PortId) (line : Nat) : Option Nat :=
  ((s.tks.segs.filter (fun e => (e.2.st == 1 || e.2.st == 2) && e.2.port == p.val)).foldl (fun (b : Option (Nat × Nat)) e =>
    (e.2.entries.filterMap SEntry.line).foldl (fun b n =>
      if n < line then b
      else match b with
        | none => some (n, e.1)
        | some k => if n < k.1 then some (n, e.1) else b) b) none).map (fun k => k.2)

/-- The meaning of CUE_SET (R276). The lowest number that is not in use is taken (log entry 84). NOT_FOUND carries detail 0 (DESIGN
CHOICE, log entry 165). -/
def execCueSet (c : CtxId) (y : Submission) (s : State) : Host.Outcome State Fault Refusal :=
  let kind := y.arg 0
  let p := argPort (y.arg 1)
  let v := y.arg64 2
  let x : Int := sgn 48 v
  let own := s.srcCode p == kind
  .next (s.admin c { op := 0x28, since := 0x20, kinds := [0], slotted := false, args := [0, 1, 2, 3] } y
    [refuseIf (!(s.ctxs[c]).blk 7 true || (decide (y.arg 1 < 16) && !(s.ctxs[c]).port p.val true)) stDenied 0,
     refuseIf (2 < kind) stBadArg 1,
     refuseIf (16 ≤ y.arg 1) stBadArg 2,
     refuseIf (kind ≠ 0 && !own && masterReached (s.master (kind - 1)) x) stBadArg 3,
     refuseIf (match s.cueLine p kind v, s.oldest p with | some l, some o => decide (l < o) | _, _ => false) stNotFound 0,
     refuseIf (256 ≤ s.tks.cues.length) stBusy 0]
    (fun t =>
      let n := ((List.range 256).find? (fun n => !t.tks.cues.any (fun q => q.1 == n))).getD 0
      let line := t.cueLine p kind v
      let anchor := match line with | some l => t.anchorFor p l | none => none
      let q : Cue := { st := if anchor.isSome then 2 else 1, port := p.val, kind := kind, pinned := false, cause := 0,
                       value := if kind = 0 then (v % 2 ^ 64 : Nat) else x, line := line, reached := false, before := 0, after := 0,
                       anchor := anchor, time := t.now, ctx := c.val, cid := y.cid.toNat }
      let low := t.tks.cues.filter (fun e => decide (e.1 < n))
      let high := t.tks.cues.filter (fun e => decide (n < e.1))
      ((t.updTks (fun k => { k with cues := low ++ [(n, q)] ++ high })).touch anchor.toList, okRes n 0)))

/-- The writable slots that would be left with cue `n` as `q` (R277): what its old span alone pinned is writable again. -/
def State.leftWith (s : State) (n : Nat) (q : Cue) : Nat := ((s.mapCues (fun m k => if m = n then q else k)).repin).writable

/-- The meaning of CUE_PIN (R277): the span is set, and pinned or released. -/
def execCuePin (c : CtxId) (y : Submission) (s : State) : Host.Outcome State Fault Refusal :=
  let n := y.unit
  let q := s.cue n
  let port := match q with | some k => k.port | none => 0
  let set (k : Cue) : Cue := { k with pinned := y.arg 0 == 1, before := y.arg 1, after := y.arg 2 }
  let other := (s.tks.cues.filter (fun e => e.2.pinned && e.1 != n)).length
  .next (s.admin c { op := 0x29, since := 0x21, kinds := [6], slotted := false, args := [0, 1, 2] } y
    [refuseIf (!(s.ctxs[c]).blk 7 true || (q.isSome && !(s.ctxs[c]).port port true)) stDenied 0,
     refuseIf ((q.map (fun k => k.st)) == some 3) stConflict 0,
     refuseIf (2 ≤ y.arg 0) stBadArg 1,
     refuseIf q.isNone stNotFound 0,
     refuseIf (y.arg 0 = 1 && decide (16 ≤ other)) stBusy 0,
     refuseIf (y.arg 0 = 1 && (match q with | some k => decide (s.leftWith n (set k) < 2) | none => false)) stBusy 0]
    (fun t =>
      let t1 := (t.mapCues (fun m k => if m = n then set k else k)).repin
      ((if y.arg 0 = 1 then t1.pressure 16 else t1).checkpoint, okRes 0 0)))

/-- The meaning of CUE_CLEAR (R279). -/
def execCueClear (c : CtxId) (y : Submission) (s : State) : Host.Outcome State Fault Refusal :=
  let n := y.unit
  let q := s.cue n
  let port := match q with | some k => k.port | none => 0
  .next (s.admin c { op := 0x2A, since := 0x20, kinds := [6], slotted := false, args := [] } y
    [refuseIf (!(s.ctxs[c]).blk 7 true || (q.isSome && !(s.ctxs[c]).port port true)) stDenied 0,
     refuseIf q.isNone stNotFound 0]
    (fun t =>
      let was := (q.map (fun k => k.pinned)) == some true
      let t1 := ((t.updTks (fun k => { k with cues := k.cues.filter (fun e => e.1 != n) })).touch (q.bind (fun k => k.anchor)).toList).repin
      (if was then t1.checkpoint else t1, okRes 0 0)))

/-! ### Rewind commands (R281 to R284) -/

/-- A record lies in the range of a rewind. -/
def inRange (byPos : Bool) (lo hi : Int) (r : Rec) : Bool :=
  if byPos then decide (lo ≤ r.pos) && decide (r.pos ≤ hi) else decide (lo ≤ (r.line : Int)) && decide ((r.line : Int) ≤ hi)

/-- The written and lost segments of a port, with their slots, in order of sequence. -/
def State.written (s : State) (p : PortId) : List (Nat × Seg) :=
  (s.tks.segs.filter (fun e => (e.2.st == 2 || e.2.st == 3) && e.2.port == p.val)).foldr bySeq []

/-- The records held in a range. -/
def State.selected (s : State) (p : PortId) (byPos : Bool) (lo hi : Int) : List Rec :=
  ((s.written p).filter (fun e => e.2.st == 2)).flatMap (fun e => e.2.entries.filterMap (fun x =>
    match x with
    | .record r _ => if inRange byPos lo hi r then some r else none
    | .note .. => none))

/-- The line at which an item of a rewind comes. -/
def RItem.at_ : RItem → Nat
  | .recd r _ => r.line
  | .span a _ => a
  | .seg _ _ a _ => a

/-- An item takes its place in line order, behind those of its line (R282). -/
def RItem.insert (x : RItem) : List RItem → List RItem
  | [] => [x]
  | y :: t => if x.at_ < y.at_ then x :: y :: t else y :: RItem.insert x t

/-- Items in line order. -/
def inLines (l : List RItem) : List RItem := l.foldl (fun a x => x.insert a) []

/-- The items of a rewind over lines `a` to `b`, in line order (R282): a span below the oldest held line, and the segments, a lost one
as a span. -/
def State.rewindItems (s : State) (p : PortId) (a b : Nat) : List RItem :=
  let low := match s.oldest p with
    | some o => if a < o then [RItem.span a (min b (o - 1))] else []
    | none => []
  inLines (low ++ (s.written p).filterMap (fun e =>
    match e.2.extent with
    | none => none
    | some (f, l) =>
      if l < a ∨ b < f then none
      else if e.2.st = 3 then some (.span (max f a) (min l b))
      else some (.seg e.1 e.2.seq (max f a) (min l b))))

/-- The last line of a port in a written segment. -/
def State.lastWritten (s : State) (p : PortId) : Nat :=
  ((s.written p).filter (fun e => e.2.st == 2)).foldl (fun m e => (e.2.recs.map (fun r => r.line)).foldl max m) 0

/-- The rewind that a REWIND_READ starts (R281, R282): the range clamped at its upper end to the port's last record in a written
segment; one of positions to the lines of its records. The timestamp of a first line that is not held is a free value (log entry 82). -/
def State.newRewind (s : State) (p : PortId) (rg : Bool × Int × Int) (sel : List Rec) (share : Nat) : Rewind :=
  let ls := sel.map (fun r => r.line)
  let lastSel := ls.foldl max 0
  let a := if rg.1 then ls.foldl min lastSel else rg.2.1.toNat
  let b := if rg.1 then lastSel else min rg.2.2.toNat (s.lastWritten p)
  { seq := (s.tks.ports[p].rewinds + 1) % 2 ^ 32, byPos := rg.1, lo := rg.2.1, hi := rg.2.2, first := a, last := b,
    time := ((sel.find? (fun r => r.line == a)).map (fun r => r.time)).getD (Config.freeNat 64 s.free % 2 ^ 64),
    total := sel.length, share := share, items := s.rewindItems p a b, begun := false, delivered := 0, dropped := 0, ending := none }

/-- The range that a REWIND_READ names: by position or not, first and last. -/
def State.rewindRange (s : State) (y : Submission) : Bool × Int × Int :=
  match y.arg 0 with
  | 0 =>
    match s.cue (y.arg 1) with
    | some q =>
      match q.line with
      | some l => (false, ((l - q.before : Nat) : Int), ((l + q.after : Nat) : Int))
      | none => (false, 0, -1)
    | none => (false, 0, -1)
  | 1 => (false, (y.arg64 1 : Nat), (y.arg64 3 : Nat))
  | _ => (true, sgn 64 (y.arg64 1), sgn 64 (y.arg64 3))

/-- The meaning of REWIND_READ (R281 to R283). -/
def execRewindRead (c : CtxId) (y : Submission) (s : State) : Host.Outcome State Fault Refusal :=
  let p := argPort y.unit
  let kind := y.arg 0
  let rg := s.rewindRange y
  let sel := s.selected p rg.1 rg.2.1 rg.2.2
  let held := match s.cue (y.arg 1) with | some q => q.st == 2 && q.port == p.val | none => false
  .next (s.admin c { op := 0x2B, since := 0x20, kinds := [1], slotted := false, args := [0, 1, 2, 3, 4, 5] } y
    [refuseIf (!tksRight s.ctxs[c] p.val) stDenied 0,
     refuseIf (s.ctxs[c].zhp < 0x21 && kind = 2) stVersion 1,
     refuseIf ((s.chan (chanOf p 3)).st ≠ 1 || s.tks.ports[p].rewind.isSome) stConflict 0,
     refuseIf (2 < kind) stBadArg 1,
     refuseIf (kind = 0 && !held) stNotFound 2,
     refuseIf (kind ≠ 0 && rg.2.2 < rg.2.1) stBadArg 2,
     refuseIf (y.arg 5 = 0 || 2000 < y.arg 5) stBadArg 6,
     refuseIf sel.isEmpty stNotFound 0,
     refuseIf (!s.hostFits s.plan (y.arg 5)) stBudget 0]
    (fun t =>
      let r := t.newRewind p rg sel (y.arg 5)
      ((t.updTport p (fun x => { x with rewinds := r.seq, rewind := some r })).tickFree.readNext p, okRes sel.length 0)))

/-- The meaning of REWIND_STOP (R284): the rewind ends after the record being delivered. -/
def execRewindStop (c : CtxId) (y : Submission) (s : State) : Host.Outcome State Fault Refusal :=
  let p := argPort y.unit
  .next (s.admin c { op := 0x2C, since := 0x20, kinds := [1], slotted := false, args := [] } y
    [refuseIf (!tksRight s.ctxs[c] p.val) stDenied 0,
     refuseIf s.tks.ports[p].rewind.isNone stConflict 0]
    (fun t => (t.rewindEnd p 1, okRes 0 0)))

/-- What a segment that has been read puts into a rewind (R282): its records in the range, spans for records whose stored CRC
fails and for notes; with the lines that fail. -/
def readItems (r : Rewind) (x : Seg) (bad : List Nat) : List RItem × List Nat :=
  let es := x.entries.zipIdx.filterMap (fun e =>
    match e.1 with
    | .record q lost =>
      if !inRange r.byPos r.lo r.hi q || decide (q.line < r.first) || decide (r.last < q.line) then none
      else if bad.contains e.2 then some (RItem.span q.line q.line, some q.line)
      else some (RItem.recd q lost, none)
    | .note _ _ f l => if l < r.first ∨ r.last < f then none else some (RItem.span (max f r.first) (min l r.last), none))
  (es.map (fun e => e.1), es.filterMap (fun e => e.2))

/-- What slot `g` holds takes the place of its item in a rewind, in line order (R282). -/
def Rewind.fill (r : Rewind) (g : Nat) (new : List RItem) : Rewind :=
  { r with items := inLines (new ++ r.items.filter (fun i => match i with | .seg h _ _ _ => h != g | _ => true)) }

/-- The meaning of NVME_READ_DONE (R263, R266, R282): read `k` of a drive completes. An error is retried once; a second, or a
header that does not match, loses the segment. `bad` lists the entries whose stored CRC fails. -/
def execNvmeReadDone (d : DriveId) (k : Nat) (ok hdrOk : Bool) (bad : List Nat) (s : State) : Host.Outcome State Fault Refusal :=
  match s.tks.drives[d].cmds[k]? with
  | none => .next s
  | some c =>
    let p := argPort c.chunk
    if c.kind ≠ 1 then .next s
    else if !ok && c.tries = 0 then .next (s.retry d k c)
    else
      let s1 := s.dropCmd d k
      let s2 := if (ok && hdrOk) || (s.seg c.slot).seq != c.seq then s1 else s1.segLost c.slot
      match s2.tks.ports[p].rewind with
      | none => .next s2
      | some r =>
        let item := r.items.findSome? (fun i => match i with | .seg g q f l => if g = c.slot then some (q, f, l) else none | _ => none)
        match item with
        | none => .next (s2.readNext p)
        | some (q, f, l) =>
          if ok && hdrOk && (s.seg c.slot).seq == q && (s.seg c.slot).st == 2 then
            let new := readItems r (s.seg c.slot) bad
            let s3 := new.2.foldl (fun t n => t.raise (tksSrc (16 + p.val)) [(32, n % 2 ^ 32)]) s2
            .next ((s3.setRewind p (some (r.fill c.slot new.1))).readNext p)
          else .next ((s2.setRewind p (some (r.fill c.slot [.span f l]))).readNext p)

/-- The meaning of READBACK_DELIVERY (R282, R283): the next marker or record of a rewind goes to stream 3; after the last the
rewind ends with cause 0. A segment that is to be read waits for its read, one reused or lost before it was read is a lost
span. -/
def execReadbackDelivery (p : PortId) (s : State) : Host.Outcome State Fault Refusal :=
  match s.tks.ports[p].rewind with
  | none => .next s
  | some r =>
    if r.ending.isSome then .next (s.rewindEnd p 0)
    else if !r.begun then
      if s.stream3Waits p markerSize then .next s
      else .next (((s.stream3 p (s.marker p r 0 r.first r.last r.total 0) 0).1.tickFree).setRewind p (some { r with begun := true }))
    else
      match r.items with
      | [] => .next (s.rewindEnd p 0)
      | .span f l :: rest =>
        if s.stream3Waits p markerSize then .next s
        else .next (((s.stream3 p (s.marker p r 2 f l (l - f + 1) 0) 0).1.tickFree).setRewind p (some { r with items := rest }))
      | .recd q lost :: rest =>
        if s.stream3Waits p q.size then .next s
        else
        let o := s.stream3 p { q with flags := q.flags ||| 0x100 } lost
        .next (o.1.setRewind p (some { r with items := rest, delivered := r.delivered + b2n o.2, dropped := r.dropped + b2n (!o.2) }))
      | .seg g q f l :: rest =>
        if (s.seg g).st = 2 ∧ (s.seg g).seq = q then .next (s.readNext p)
        else .next (s.setRewind p (some { r with items := .span f l :: rest }))

/-! ### Registers -/

/-- TKS_STATUS as it reads now. -/
def State.tksStatus (s : State) : Nat :=
  let members := (s.memberDrives.map (fun d => 2 ^ d.val)).sum
  s.storeLimit * 2 ^ 24 + s.tks.lost % 256 * 2 ^ 16 + members * 2 ^ 8 + b2n (s.tks.ports.toList.any (fun p => p.suspended)) * 2 ^ 4 +
    s.tks.st % 8

/-- TKS_CUES as it reads now. -/
def State.tksCues (s : State) : Nat := (s.tks.cues.filter (fun c => c.2.pinned)).length * 2 ^ 16 + s.tks.cues.length

/-- TKS_PORT_STATp as it reads now. -/
def State.tksPortStat (s : State) (p : PortId) : Nat :=
  let x := s.tks.ports[p]
  b2n x.rewind.isSome * 4 + b2n x.suspended * 2 + b2n (s.recording p)

/-- TKS_CUEn_w as it reads now. -/
def State.cueWord (s : State) (n w : Nat) : Nat :=
  match s.cue n with
  | none => 0
  | some q =>
    match w with
    | 0 => q.st + q.port * 2 ^ 8 + q.kind * 2 ^ 16 + b2n q.pinned * 2 ^ 24
    | 1 => q.line.getD 0 % 2 ^ 32
    | 2 => q.line.getD 0 / 2 ^ 32 % 2 ^ 32
    | _ => s.cuePins q

end Sys2Proof.Machine
end

