-- ==== Sys2Proof/Machine/Windows.lean ====
section
/-! DEFINITION. The memories behind the ENG and TBL windows and the device map of the script channels: where a word lies, when a
write is accepted, what an accepted write changes besides (R84 to R86, R166 to R168, R185, R186, R243, R325). -/

namespace Sys2Proof.Machine

/-! ### Setups that count (R86, R92, R168) -/

/-- A unit in one of these states runs its current setup or returns to it: its current slot counts as current (log entry 100). -/
def UState.live (x : UState) : Bool :=
  match x with
  | .running | .draining | .faulted | .wedged => true
  | _ => false

/-- A slot counts as current (R86): the unit's current setup, named for it by an armed cut, or still run by the pipe engine. -/
def State.counts (s : State) (u : UnitId) (k : Nat) : Bool :=
  let x := s.unit u
  (x.current == some k && x.st.live) || (x.cut.map (fun c => c.slot)) == some k ||
    (if h : u.val < 16 then let e := s.eng (pipeEng ⟨u.val, h⟩); e.old && e.setup == k else false)

/-- Bank `b` of a table (0 shading, 1 defect map) of a port is active (R168): also while the port runs no setup, the bank that
PIP_TBLSEL names (DESIGN CHOICE, log entry 203). -/
def State.bankActive (s : State) (p : PortId) (table b : Nat) : Bool :=
  let y := (s.port p).pipe
  let u := unitOfPort p
  let sel (v : Nat) := fld v table table == b
  sel (s.eff p.val Off.PIP_TBLSEL) ||
    ((s.eng (pipeEng p)).old && (if table = 0 then y.shadeBank else y.defBank) == b) ||
    (match (s.unit u).cut with
     | some c => sel (s.futureCut u c.slot p.val Off.PIP_TBLSEL)
     | none => false)

/-- A running CAL_COMPUTE writes bank `b` of a table: the shading bank that it names, with DEFECT_OR the defect bank not in
force (R176, R177). -/
def State.computing (s : State) (p : PortId) (table b : Nat) : Bool :=
  match (s.port p).pipe.compute with
  | none => false
  | some c => if table = 0 then b == c else s.rf p.val Off.PIP_CAL 1 1 == 1 && b + s.rf p.val Off.PIP_TBLSEL 1 1 == 1

/-- An index table is in use (R186): a GATHER block of a slot that counts as current names it. -/
def State.tableUsed (s : State) (t : Nat) : Bool :=
  (List.finRange 16).any (fun p =>
    (List.range 8).any (fun k =>
      s.counts (unitOfPort p) k &&
        ((((s.unit (unitOfPort p)).slots[k % 8]'(Nat.mod_lt _ (by decide))).prog1).tables (s.eng (pipeEng p)) k).contains t))

/-! ### Places -/

/-- A 32-bit word of a memory: a shading entry, a word of a defect map (port, logical bank, word), of a LUT (port, INDEX, word),
of an index table, of the two microstep tables of an axis, of an engine's parameter memory (slot, word), scratch or
instruction memory, or of the script store. -/
inductive MemLoc where
  | shade (p : PortId) (b w : Nat)
  | defect (p : PortId) (b w : Nat)
  | lut (p : PortId) (i w : Nat)
  | index (t w : Nat)
  | mstepNext (a : AxisId) (w : Nat)
  | mstepNow (a : AxisId) (w : Nat)
  | param (e : EngId) (k w : Nat)
  | scratch (e : EngId) (w : Nat)
  | imem (e : EngId) (w : Nat)
  | store (w : Nat)
  deriving DecidableEq, Repr

/-- The u16 entries 2 w and 2 w + 1 as one word. -/
def halves (lo hi : Nat) : Nat := lo % 65536 + hi % 65536 * 65536

/-- Reads a word. -/
def State.memRead (s : State) (l : MemLoc) : Nat :=
  match l with
  | .shade p b w => s.tblWord (shadeKey p.val (s.phys p 0 b) w)
  | .defect p b w => s.tblWord (defKey p.val (s.phys p 1 b) w)
  | .lut p i w => halves (s.tblWord (lutKey p.val i (2 * w))) (s.tblWord (lutKey p.val i (2 * w + 1)))
  | .index t w => s.tblWord (idxKey t w)
  | .mstepNext a w => halves (mstepAt sineT s.mstepNext a.val (2 * w)) (mstepAt sineT s.mstepNext a.val (2 * w + 1))
  | .mstepNow a w => halves (mstepAt sineT s.mstepNow a.val (2 * w)) (mstepAt sineT s.mstepNow a.val (2 * w + 1))
  | .param e k w => ((s.eng e).paramWord k w).toNat
  | .scratch e w => ((s.eng e).scratchWord w).toNat
  | .imem e w => let v := ((s.eng e).word (w / 2)).toNat; if w % 2 = 0 then v % 2 ^ 32 else v / 2 ^ 32
  | .store w => (mget (fun _ => 0) s.store w).toNat

/-- A write to this place is treated as under R39 (R85, R166, R168, R186, R325). -/
def State.memBlocked (s : State) (l : MemLoc) : Bool :=
  match l with
  | .shade p b _ => s.bankActive p 0 b || s.computing p 0 b
  | .defect p b _ => s.bankActive p 1 b || s.computing p 1 b
  | .lut p i _ => s.counts (unitOfPort p) (i / 4)
  | .index t _ => s.tableUsed t
  | .mstepNext a _ => (s.axis a).tblPend
  | .mstepNow _ _ => true
  | .param e k _ => s.counts (engUnit e) k
  | .scratch e _ => let st := (s.unit (engUnit e)).st; st == .running || st == .draining
  | .imem _ _ => true
  | .store _ => false

/-- A table bank has been written (R168, R169): MIRROR and the bank's CRC-valid bit clear, and a verify that runs knows it. -/
def State.bankWritten (s : State) (p : PortId) (table b : Nat) : State :=
  let s1 := s.setRf p.val Off.PIP_BANK_STAT (4 + table) (4 + table) 0
  let i := (if table = 0 then 13 else 11) + b % 2
  let mark (v : Option (Bool × Bool)) : Option (Bool × Bool) := v.map (fun x => if b % 2 = 0 then (true, x.2) else (x.1, true))
  (s1.setRf p.val Off.PIP_BANK_STAT i i 0).updPipe p (fun y =>
    if table = 0 then { y with verS := mark y.verS } else { y with verD := mark y.verD })

/-- The VERIFIED bit of a slot clears. -/
def State.unverify (s : State) (u : UnitId) (k : Nat) : State :=
  s.updUnit u (fun x => { x with slots := x.slots.set (k % 8) { x.slots[k % 8]'(Nat.mod_lt _ (by decide)) with isVerified := false } (Nat.mod_lt _ (by decide)) })

/-- Writes entry `j` of a next microstep table; bits 15:12 are reserved. -/
def State.setMstep (s : State) (a : AxisId) (j v : Nat) : State :=
  if 256 ≤ j then s else { s with mstepNext := mput sineT (256 * a.val + j) (BitVec.ofNat 32 (v % 4096)) s.mstepNext }

/-- An entry of a table is written: it reads again, though its row was remapped (R171). -/
def State.entryWritten (s : State) (p : PortId) (table ph e : Nat) : State :=
  if (s.port p).pipe.remaps.isEmpty then s
  else s.updPipe p (fun y => { y with rewritten := if y.rewritten.contains (table, ph, e) then y.rewritten else y.rewritten ++ [(table, ph, e)] })

/-- An accepted write of a word, with what it clears. -/
def State.memWrite (s : State) (l : MemLoc) (v : Nat) : State :=
  match l with
  | .shade p b w => ((s.setTbl (shadeKey p.val (s.phys p 0 b) w) v).entryWritten p 0 (s.phys p 0 b) w).bankWritten p 0 b
  | .defect p b w => ((s.setTbl (defKey p.val (s.phys p 1 b) w) v).entryWritten p 1 (s.phys p 1 b) (w / 2)).bankWritten p 1 b
  | .lut p i w =>
    ((s.setTbl (lutKey p.val i (2 * w)) (v % 65536)).setTbl (lutKey p.val i (2 * w + 1)) (v / 65536 % 65536)).unverify
      (unitOfPort p) (i / 4)
  | .index t w => s.setTbl (idxKey t w) v
  | .mstepNext a w => (s.setMstep a (2 * w) (v % 65536)).setMstep a (2 * w + 1) (v / 65536 % 65536)
  | .mstepNow _ _ => s
  | .param e k w =>
    (s.updEng e (fun x => { x with param := mput (fun _ => 0) (4096 * k + w) (BitVec.ofNat 32 v) x.param })).unverify (engUnit e) k
  | .scratch e w => s.updEng e (fun x => { x with scratch := mput (fun _ => 0) w (BitVec.ofNat 32 v) x.scratch })
  | .imem _ _ => s
  | .store w => { s with store := mput (fun _ => 0) w (BitVec.ofNat 32 v) s.store }

/-- The rights unit of a place: the block row of Table 2.3 and the port or axis. -/
def MemLoc.rights (l : MemLoc) : Nat × Option UnitId :=
  match l with
  | .shade p _ _ | .defect p _ _ | .lut p _ _ => (13, some (unitOfPort p))
  | .index _ _ => (13, none)
  | .mstepNext a _ | .mstepNow a _ => (13, some (unitOfAxis a))
  | .param e _ _ | .scratch e _ | .imem e _ => (12, some (engUnit e))
  | .store _ => (3, none)

/-! ### The windows (Table 3.11, R166, R185, R325) -/

/-- The engine that SEL_ENGINE selects: KIND 5:4, INDEX 3:0. -/
def selEngine (v : Nat) : EngId :=
  match fld v 5 4 with
  | 0 => gateEng ⟨v % 16, Nat.mod_lt _ (by decide)⟩
  | 1 => pipeEng ⟨v % 16, Nat.mod_lt _ (by decide)⟩
  | _ => axisEng ⟨v % 8, Nat.mod_lt _ (by decide)⟩

/-- The place of an offset of the ENG window; none where nothing lies there. -/
def engLoc (e : EngId) (off : Nat) : Option MemLoc :=
  if 0x200000 ≤ off ∧ off < 0x200000 + 8 * imemSize (engKind e) then some (.imem e ((off - 0x200000) / 4))
  else if 0x300000 ≤ off ∧ off < 0x320000 then some (.param e ((off - 0x300000) / 0x4000) ((off - 0x300000) % 0x4000 / 4))
  else if 0x380000 ≤ off ∧ off < 0x380400 then some (.scratch e ((off - 0x380000) / 4))
  else none

/-- The place of an offset of the TBL window under SEL_TABLE value `v`; none beyond the table's size. -/
def tblLoc (v off : Nat) : Option MemLoc :=
  let p : PortId := ⟨fld v 11 8 % 16, Nat.mod_lt _ (by decide)⟩
  let a : AxisId := ⟨fld v 11 8 % 8, Nat.mod_lt _ (by decide)⟩
  let b := fld v 12 12
  let i := fld v 21 16
  let o := off - 0x400000
  match fld v 3 0 with
  | 0 => if o < 0x40000 then some (.shade p b (o / 4)) else none
  | 1 => if o < 0x2000 then some (.defect p b (o / 4)) else none
  | 2 => if o < 0x200 then some (.mstepNext a (o / 4)) else if o < 0x400 then some (.mstepNow a ((o - 0x200) / 4)) else none
  | 3 => if o < 16400 then some (.index i (o / 4)) else none
  | 4 => if o < 0x2000 then some (.lut p i (o / 4)) else none
  | _ => none

/-- The place of an address of the device map (Table 9.1); none where it is reserved. -/
def mapLoc (a : Nat) : Option MemLoc :=
  let port (n : Nat) : PortId := ⟨n % 16, Nat.mod_lt _ (by decide)⟩
  if a < 0x800000 then some (.shade (port (a % 0x400000 / 0x40000)) (a / 0x400000) (a % 0x40000 / 4))
  else if a < 0x840000 then
    let o := a - 0x800000
    some (.defect (port (o % 0x20000 / 0x2000)) (o / 0x20000) (o % 0x2000 / 4))
  else if a < 0x1000000 then none
  else if a < 0x1400000 then
    let o := a - 0x1000000
    some (.lut (port (o / 0x40000)) (o % 0x40000 / 0x2000) (o % 0x2000 / 4))
  else if 0x1800000 ≤ a ∧ a < 0x1A00000 then
    let o := a - 0x1800000
    if o % 0x8000 < 16400 then some (.index (o / 0x8000) (o % 0x8000 / 4)) else none
  else if 0x1A00000 ≤ a ∧ a < 0x1A80000 then
    let o := a - 0x1A00000
    let x : AxisId := ⟨o / 0x10000 % 8, Nat.mod_lt _ (by decide)⟩
    if o % 0x10000 < 0x200 then some (.mstepNext x (o % 0x10000 / 4))
    else if o % 0x10000 < 0x400 then some (.mstepNow x ((o % 0x10000 - 0x200) / 4))
    else none
  else if 0x2000000 ≤ a ∧ a < 0x2C00000 then
    let o := a - 0x2000000
    let kind := o / 0x400000
    let n := o % 0x400000 / 0x20000
    let k := o % 0x20000 / 0x4000
    let w := o % 0x4000 / 4
    if kind = 0 ∧ n < 16 then some (.param (gateEng (port n)) k w)
    else if kind = 1 ∧ n < 16 then some (.param (pipeEng (port n)) k w)
    else if kind = 2 ∧ n < 8 then some (.param (axisEng ⟨n % 8, Nat.mod_lt _ (by decide)⟩) k w)
    else none
  else if 0x3000000 ≤ a ∧ a < 0x3010000 then some (.store ((a - 0x3000000) / 4))
  else none

/-! ### ENG registers -/

/-- Cycles available per tick (Table 3.10) for LINE_PERIOD_MIN in units of 10 ps. -/
def cyclesAvail (kind pmin : Nat) : Nat :=
  match kind with
  | 0 => pmin * 4 / 1000 - 4
  | 1 => pmin * 12 / 1000 - 8
  | _ => 1000

/-- The program of slot `k` of an engine. -/
def State.slotProg (s : State) (e : EngId) (k : Nat) : Prog :=
  let sl := (s.unit (engUnit e)).slots[k % 8]'(Nat.mod_lt _ (by decide))
  if engKind e = 1 then sl.prog1 else sl.prog0

/-- Code of an engine's state. -/
def EngRun.code : EngRun → Nat
  | .idle => 0 | .running => 1 | .waiting => 2 | .trapped => 3 | .halted => 4

/-- An ENG register as it reads now: `o` is the offset from 0x003F_0000. -/
def State.engReg (s : State) (e : EngId) (o : Nat) : Nat :=
  let x := s.eng e
  let u := engUnit e
  if o = 0 then b2n x.excess * 2 ^ 16 + b2n x.old * 2 ^ 11 + x.setup % 8 * 2 ^ 8 + x.run.code
  else if o = 4 then x.pc % 65536
  else if o = 8 then (match x.trapped with | some t => 2 ^ 31 + t.1 % 256 * 2 ^ 16 + t.2 % 65536 | none => 0)
  else if o = 0xC then x.trapArg.toNat
  else if o = 0x10 then x.cycLast % 2 ^ 32
  else if o = 0x14 then x.cycMax % 2 ^ 32
  else if o = 0x18 then (s.prog e).declared % 2 ^ 32
  else if o = 0x1C then if (s.unit u).committed.isNone then 0 else cyclesAvail (engKind e) (if u.val < 16 then s.eff u.val Off.PRT_LTG_PMIN else 0)
  else if 0x20 ≤ o ∧ o < 0x40 then
    let k := (o - 0x20) / 4
    let sl := (s.unit u).slots[k % 8]'(Nat.mod_lt _ (by decide))
    let g := s.slotProg e k
    b2n sl.isLoaded * 2 ^ 31 + b2n sl.isVerified * 2 ^ 30 + b2n (s.counts u k) * 2 ^ 29 + g.len % 8192 * 2 ^ 16 + g.base % 4096
  else if 0x40 ≤ o ∧ o < 0x60 then ((s.unit u).slots[(o - 0x40) / 4 % 8]'(Nat.mod_lt _ (by decide))).tool.toNat
  else 0

/-- A write to an ENG register: the W1C fields (R5). -/
def State.engRegWrite (s : State) (e : EngId) (o v : Nat) : State :=
  if o = 0 then (if bitN v 16 then s.updEng e (fun x => { x with excess := false }) else s)
  else if o = 8 then (if bitN v 31 then s.updEng e (fun x => { x with trapped := none }) else s)
  else if o = 0x14 then s.updEng e (fun x => { x with cycMax := x.cycMax % 2 ^ 32 &&& (2 ^ 32 - 1 - v % 2 ^ 32) })
  else s

end Sys2Proof.Machine
end

