-- ==== Sys2Proof/Machine/Tables.lean ====
section
/-! DEFINITION. The banks of the shading and defect tables, their verifies and flips, captures, the computation of coefficients and
gap windows (spec/06_pixel_pipeline.md, R166 to R181). Table 0 is the shading table, table 1 the defect map. -/

namespace Sys2Proof.Machine

/-! ### CRCs and flips (R167 to R173) -/

/-- The words of a bank of a table. -/
def bankWords (table : Nat) : Nat := if table = 0 then 65536 else 2048

/-- The stored word `w` of logical bank `b` of a table. -/
def State.bankWord (s : State) (p : PortId) (table b w : Nat) : Nat :=
  s.memRead (if table = 0 then .shade p b w else .defect p b w)

/-- CRC-32C over the port's region of a logical bank. -/
def State.bankCrc (s : State) (p : PortId) (table b : Nat) : Nat :=
  crc32c ((List.range (bankWords table)).flatMap (fun w => leBytes 4 (s.bankWord p table b w)))

/-- The offset of PIP_CRC of a logical bank. -/
def crcOff (table b : Nat) : Nat := Off.PIP_CRC_S0 + 8 * table + 4 * (b % 2)

/-- The bit of PIP_BANK_STAT that says that a logical bank's CRC is valid. -/
def crcBit (table b : Nat) : Nat := (if table = 0 then 13 else 11) + b % 2

/-- Whether a logical bank's stored CRC is valid. -/
def State.crcValid (s : State) (p : PortId) (table b : Nat) : Bool :=
  s.rf p.val Off.PIP_BANK_STAT (crcBit table b) (crcBit table b) = 1

/-- Sets the CRC-valid bit of a logical bank. -/
def State.setCrcValid (s : State) (p : PortId) (table b : Nat) (v : Bool) : State :=
  s.setRf p.val Off.PIP_BANK_STAT (crcBit table b) (crcBit table b) (b2n v)

/-- Stores the CRC of a logical bank and makes it valid. -/
def State.storeCrc (s : State) (p : PortId) (table b crc : Nat) : State :=
  (s.setReg p.val (crcOff table b) crc).setCrcValid p table b true

/-- A table's flip changes: the logical numbers of its two banks change places, and their CRCs with them (R167, R171). -/
def State.swapBanks (s : State) (p : PortId) (table : Nat) : State :=
  let c0 := s.eff p.val (crcOff table 0)
  let c1 := s.eff p.val (crcOff table 1)
  let v0 := s.crcValid p table 0
  let v1 := s.crcValid p table 1
  let s1 := s.setRf p.val Off.PIP_BANK_STAT (8 + table) (8 + table) (1 - s.flip p table)
  ((((s1.setReg p.val (crcOff table 0) c1).setReg p.val (crcOff table 1) c0).setCrcValid p table 0 v1)).setCrcValid p table 1 v0

/-- BANK_FLIP (R171): the mirror of the failing bank `b` comes in force under the same logical number; MIRROR clears, and so does the
CRC-valid bit of the failed physical bank, which is the other logical bank from now on. No other flip of the table waits any more. -/
def State.fallBack (s : State) (p : PortId) (table b : Nat) : State :=
  (((s.swapBanks p table).setRf p.val Off.PIP_BANK_STAT (4 + table) (4 + table) 0).setCrcValid p table (b + 1) false).updPipe p (fun y =>
    if table = 0 then { y with flipS := none, unflipS := false } else { y with flipD := none, unflipD := false })

/-- The flips that a process stage makes as it begins: of a table whose entry failed, and those that UNFLIP asked for while MIRROR
holds (R171, PIP_BANK_CTL). -/
def State.makeFlips (s : State) (p : PortId) : State :=
  let y := (s.port p).pipe
  let s1 := match y.flipS with
    | some b => s.fallBack p 0 b
    | none => if y.unflipS && s.flip p 0 == 1 then s.swapBanks p 0 else s
  let s2 := match y.flipD with
    | some b => s1.fallBack p 1 b
    | none => if y.unflipD && s1.flip p 1 == 1 then s1.swapBanks p 1 else s1
  s2.updPipe p (fun z => { z with flipS := none, flipD := none, unflipS := false, unflipD := false })

/-- VERIFY_BUSY follows the verifies that run. -/
def State.showVerify (s : State) (p : PortId) : State :=
  let y := (s.port p).pipe
  s.setRf p.val Off.PIP_BANK_STAT 10 10 (b2n (y.verS.isSome || y.verD.isSome))

/-- A write to PIP_BANK_CTL: verifies start unless one runs (R169); an UNFLIP waits for the next process stage if MIRROR is 1. -/
def State.bankCtl (s : State) (p : PortId) (v : Nat) : State :=
  let busy := (s.port p).pipe.verS.isSome || (s.port p).pipe.verD.isSome
  let ms := s.mirror p 0
  let md := s.mirror p 1
  (s.updPipe p (fun y => { y with
    verS := if bitN v 0 && !busy then some (false, false) else y.verS,
    verD := if bitN v 1 && !busy then some (false, false) else y.verD,
    unflipS := y.unflipS || (bitN v 4 && ms),
    unflipD := y.unflipD || (bitN v 5 && md) })).showVerify p

/-- Some entry of a physical bank of a table lies in a remapped row and has not been written since (R171). -/
def PipeSt.bankDead (y : PipeSt) (table ph : Nat) : Bool :=
  y.remaps.any (fun r => r.1 == table && r.2.1 == ph) && (List.range (if table = 0 then 65536 else 1024)).any (y.unreadable table ph)

/-- The meaning of MIRROR_VERIFY_DONE (R169): the verify of the shading table, or of the defect map (`d`), ends, and
`ecc` is what ECC found in its reads. The CRC of a bank that was written meanwhile, or that could not be read,
is a free value. -/
def execMirrorVerifyDone (p : PortId) (d : Bool) (ecc : EccRead) (s : State) : Host.Outcome State Fault Refusal :=
  let table := b2n d
  let dead (b : Nat) : Bool := ecc.fails.any (fun e => e.1 == b) || (s.port p).pipe.bankDead table (s.phys p table b)
  let bad := dead 0 || dead 1
  match (if d then (s.port p).pipe.verD else (s.port p).pipe.verS) with
  | none => .next s
  | some w =>
    let store (b : Nat) (wr : Bool) (t : State) : State :=
      if wr then ((t.setReg p.val (crcOff table b) (Config.freeWord t.free).toNat).setCrcValid p table b false).tickFree
      else if dead b then (t.storeCrc p table b (Config.freeWord t.free).toNat).tickFree
      else t.storeCrc p table b (t.bankCrc p table b)
    let s0 := ecc.fails.foldl (fun t e => t.eccCount p table e.1 e.2) (s.incRf p.val Off.PIP_ECC 15 0 ecc.corr)
    let s1 := store 1 w.2 (store 0 w.1 s0)
    let s2 := (s1.updPipe p (fun y => if d then { y with verD := none } else { y with verS := none })).showVerify p
    let written := w.1 || w.2
    if !written && !bad && s2.bankCrc p table 0 == s2.bankCrc p table 1 then
      .next ((s2.setRf p.val Off.PIP_BANK_STAT (4 + table) (4 + table) 1).raise (portSrc p.val 16) [(8, table)])
    else .next (s2.raise (portSrc p.val 17) [(8, table), (8, if written then 1 else if bad then 2 else 0)])

/-- BANK_CRC_CHECK (R173): after a full reset, the outcome for one table of a port whose banks in `bad` (logical numbers) no longer
match their stored CRC. SHADE_FALLBACK carries an entry that no rule gives here: a free value. -/
def State.crcCheck (s : State) (p : PortId) (table : Nat) (bad : List Nat) : State :=
  let b := s.rf p.val Off.PIP_TBLSEL table table
  let differs (k : Nat) : Bool := s.crcValid p table k && bad.contains k
  if differs b then
    if s.crcValid p table (1 - b) && !differs (1 - b) then
      ((s.fallBack p table b).raise (portSrc p.val 13) [(8, table), (16, Config.freeNat 16 s.free % 65536)]).tickFree
    else
      let s1 := (s.degrade p table).raise (portSrc p.val 15) [(8, table)]
      if differs (1 - b) then s1.setRf p.val Off.PIP_BANK_STAT (4 + table) (4 + table) 0 else s1
  else if differs (1 - b) then s.setRf p.val Off.PIP_BANK_STAT (4 + table) (4 + table) 0
  else s

/-! ### Captures and coefficients (R174 to R177) -/

/-- The port that a submission names. -/
def portTarget (y : Submission) : PortId := ⟨y.unit % 16, Nat.mod_lt _ (by decide)⟩

/-- The current setup holds a BIN in calibration mode. -/
def State.calBin (s : State) (p : PortId) : Bool :=
  match (s.unit (unitOfPort p)).current with
  | none => false
  | some k =>
    let x := s.eng (pipeEng p)
    ((s.slotProg (pipeEng p) k).instrs x).any (fun e => e.2.1 == 0x84 && bitN (bByte (x.block k (pbOf e.2.2) 16) 6) 1)

/-- The meaning of CAL_START (R174): with no gap window the capture takes the lines whose process stage starts from now on. -/
def execCalStart (c : CtxId) (y : Submission) (s : State) : Host.Outcome State Fault Refusal :=
  let p := portTarget y
  .next (s.admin c { op := 0x20, since := 0x20, kinds := [1], slotted := false, args := [0, 1] } y
    [refuseIf (!unitRight s.ctxs[c] y) stDenied 0,
     refuseIf (s.portState p != .running || (s.port p).pipe.cap.isSome || s.bankActive p 0 (s.rf p.val Off.PIP_CAL 0 0)) stConflict 0,
     refuseIf (1 < y.arg 0) stBadArg 1,
     refuseIf (y.arg 1 = 0 || 8 < y.arg 1) stBadArg 2,
     refuseIf (!s.calBin p) stBadArg 0]
    (fun t =>
      let start : Nat := match (t.port p).prc with
        | some l => if l.begun then l.n + 1 else l.n
        | none => 0
      let cap : CapSt := { target := y.arg 0, len := 2 ^ y.arg 1, taken := 0,
                           fromLine := if (t.port p).gap.isSome then none else some start, inpos := false, geo := (0, 0) }
      ((((t.updPipe p (fun z => { z with cap := some cap })).setRf p.val Off.PIP_CAL 8 8 1).setRf p.val Off.PIP_CAL 4 4
        (y.arg 0)).setRf p.val Off.PIP_CAL 24 16 0, okRes 0 0)))

/-- The meaning of CAL_COMPUTE (R176, R177). The bank counts as written from its first write, as the computation begins. -/
def execCalCompute (c : CtxId) (y : Submission) (s : State) : Host.Outcome State Fault Refusal :=
  let p := portTarget y
  let z := (s.port p).pipe
  let defBank := 1 - s.rf p.val Off.PIP_TBLSEL 1 1
  .next (s.admin c { op := 0x21, since := 0x20, kinds := [1], slotted := false, args := [0] } y
    [refuseIf (!unitRight s.ctxs[c] y) stDenied 0,
     refuseIf (decide (y.arg 0 < 2) && s.bankActive p 0 (y.arg 0)) stConflict 1,
     refuseIf ((s.rf p.val Off.PIP_CAL 1 1 == 1 && s.bankActive p 1 defBank) || s.rf p.val Off.PIP_CAL 11 10 != 3 ||
       z.refGeo[0] != z.refGeo[1]) stConflict 0,
     refuseIf (1 < y.arg 0) stBadArg 1,
     refuseIf z.compute.isSome stBusy 0]
    (fun t => (((t.updPipe p (fun x => { x with compute := some (y.arg 0) })).setRf p.val Off.PIP_CAL 9 9 1).bankWritten p 0 (y.arg 0),
      okRes 0 0)))

/-- One coefficient (R176): the entry, and whether the pixel is weak. -/
def coefOf (b w t spanMin blackMax : Nat) : (Int × Nat) × Bool :=
  let span : Int := (w : Int) - b
  let off := satI (((b + 2) / 4 : Nat) : Int) (-32768) 32767
  if span < 4 * spanMin ∨ span ≤ 0 ∨ blackMax < b / 4 then ((off, 16384), true)
  else
    let n := span.toNat
    let g := (t * 65536 + n / 2) / n
    ((off, if 65535 < g then 65535 else if g = 0 then 1 else g), decide (65535 < g))

/-- Writes one entry of a computation; the result counts the weak pixels. -/
def State.calEntry (s : State) (p : PortId) (bank defBank k x b w : Nat) (n : Nat) : State × Nat :=
  let t := s.rf p.val (if k < 2 then Off.PIP_CAL_TGT_A else Off.PIP_CAL_TGT_B) (16 * (k % 2) + 15) (16 * (k % 2))
  let r := coefOf b w t (s.rf p.val Off.PIP_CAL_LIM 15 0) (s.rf p.val Off.PIP_CAL_LIM 31 16)
  let s1 := (s.setTbl (shadeKey p.val (s.phys p 0 bank) (k * 16384 + x)) (twos 16 r.1.1 * 2 ^ 16 + r.1.2)).entryWritten p 0
    (s.phys p 0 bank) (k * 16384 + x)
  if r.2 then
    if s.rf p.val Off.PIP_CAL 1 1 = 1 then
      let key := defKey p.val (s.phys p 1 defBank) (k * 512 + x / 32)
      (s1.setTbl key (s1.tblWord key ||| 2 ^ (x % 32)), n + 1)
    else (s1, n + 1)
  else (s1, n)

/-- The meaning of CAL_DONE (R176): the coefficients of every slot and pixel of the reference geometry, the CRC of the bank, WEAK. -/
def execCalDone (p : PortId) (s : State) : Host.Outcome State Fault Refusal :=
  let y := (s.port p).pipe
  match y.compute with
  | none => .next s
  | some bank =>
    let g := y.refGeo[0]
    let defBank := 1 - s.rf p.val Off.PIP_TBLSEL 1 1
    let r := (List.range (g.1 * g.2)).foldl (fun (a : State × Nat) i =>
      a.1.calEntry p bank defBank (i / max g.1 1) (i % max g.1 1) (y.refs[0].getD i 0) (y.refs[1].getD i 0) a.2) (s, 0)
    let s1 := if r.2 ≠ 0 ∧ s.rf p.val Off.PIP_CAL 1 1 = 1 then r.1.bankWritten p 1 defBank else r.1
    let s1 := s1.bankWritten p 0 bank
    let s2 := s1.storeCrc p 0 bank (s1.bankCrc p 0 bank)
    let s3 := ((s2.setReg p.val Off.PIP_CAL_STAT r.2).setRf p.val Off.PIP_CAL 11 9 0).updPipe p (fun z => { z with compute := none })
    .next (s3.raise (portSrc p.val 20) [(16, r.2)])

/-! ### Gap windows (R178, R179) -/

/-- The lowest line at least 3 above the port's current line whose low 32 bits are `a`. -/
def gapFirst (cur a : Nat) : Nat := cur + 3 + (a + 2 ^ 32 - (cur + 3) % 2 ^ 32) % 2 ^ 32

/-- The meaning of GAP_ANNOUNCE (R178). -/
def execGapAnnounce (c : CtxId) (y : Submission) (s : State) : Host.Outcome State Fault Refusal :=
  let p := portTarget y
  .next (s.admin c { op := 0x22, since := 0x31, kinds := [1], slotted := false, args := [0, 1, 2] } y
    [refuseIf (!unitRight s.ctxs[c] y) stDenied 0,
     refuseIf (s.portState p != .running) stConflict 0,
     refuseIf (y.arg 1 = 0 || 65535 < y.arg 1) stBadArg 2,
     refuseIf (8 ≤ y.arg 2) stBadArg 3,
     refuseIf (s.port p).gap.isSome stBusy 0]
    (fun t => (t.updPort p (fun x => { x with gap := some { first := gapFirst x.ltg.lastLine (y.arg 0), count := y.arg 1,
                                                            axis := y.arg 2, active := false } }), okRes 0 0)))

/-- GAP_BEGIN and GAP_END at line tick `n` (R178): the window begins at its first line tick and ends after its last line; a capture
that still runs is then abandoned (R175 cause 2). A window that lost all its lines raises neither (DESIGN CHOICE, log entry 203). -/
def State.gapTick (s : State) (p : PortId) (n : Nat) : State :=
  match (s.port p).gap with
  | none => s
  | some g =>
    if g.first + g.count ≤ n then
      let s1 := s.updPort p (fun x => { x with gap := none })
      if g.active then (s1.abortCap p 2).raise (portSrc p.val 22) [(32, g.first % 2 ^ 32)] else s1.abortCap p 2
    else if g.first ≤ n ∧ !g.active then
      (s.updPort p (fun x => { x with gap := some { g with active := true } })).raise (portSrc p.val 21) [(32, g.first % 2 ^ 32)]
    else s

/-- A capture that waits in a gap window starts with line `n` once the axis has come into position (R179). -/
def State.gapCapture (s : State) (p : PortId) (n : Nat) : State :=
  s.updPipe p (fun y => { y with cap := y.cap.map (fun c => if c.fromLine.isNone && c.inpos then { c with fromLine := some n } else c) })

/-- The axis comes into position (R179): captures that wait in an active window of that axis may start. -/
def State.gapInpos (s : State) (a : AxisId) : State :=
  (List.finRange 16).foldl (fun t p =>
    match (t.port p).gap with
    | some g => if g.active && g.axis == a.val then
        t.updPipe p (fun y => { y with cap := y.cap.map (fun c => { c with inpos := true }) }) else t
    | none => t) s

end Sys2Proof.Machine
end

