-- ==== Sys2Proof/Machine/Cuts.lean ====
section
/-! DEFINITION. Setups that take effect, cuts that fire and are taken, gear units that re-anchor (spec/01, R24 to R30; spec/03, R78,
R82, R89, R92; spec/11, R297 to R300). -/

namespace Sys2Proof.Machine

/-! ### Registers of a setup (R92) -/

/-- The registers of a port with STG fields. -/
def stgOffsets : List Nat := (prtRegs.filter (fun r => r.stg != 0)).flatMap RegDef.offsets

/-- Setup `k` takes effect for a unit: its settings first, then the CUT fields staged by register writes (R92, R427). -/
def State.applySetup (s : State) (u : UnitId) (k : Nat) : State :=
  let n := unitIndex u
  (cutOffsets (decide (u.val < 16))).foldl (fun t off =>
    t.setCell n off { t.cell n off with force := BitVec.ofNat 32 (s.futureCut u k n off), cut := 0 }) s

/-- The staged CUT fields of a register that no setup names take effect (R92: MOT_GRPg_*). -/
def State.applyStaged (s : State) (off : Nat) : State :=
  let c := s.cell 0 off
  s.setCell 0 off { c with force := (c.force &&& ~~~c.cut) ||| (c.val &&& c.cut), cut := 0 }

/-! ### Gear units (R288, R297) -/

/-- The line position that the source has reached (R288; R295: each TICK of source 5 is one position). -/
def State.lineNow (s : State) (p : PortId) : Int :=
  let l := (s.port p).ltg
  if s.srcCode p = 5 then l.kA + (l.hostTicks - l.sA) else l.anchor.line (s.srcCount p)

/-- The anchor moves to source count `x` with a new ratio, its new count being `xNew` in the source then in force (R297; the same
count but where a cut changes the source, log entry 103). `host` says that the old source was 5. PRT_GEAR_NOW shows the ratio. -/
def State.regear (s : State) (p : PortId) (host : Bool) (x xNew num den : Int) (align : Bool) : State :=
  let l := (s.port p).ltg
  let a : Anchor := if host then { sA := xNew, kA := l.kA + (x - l.sA), rA := 0, num := num, den := den }
    else { l.anchor.reanchor x num den align with sA := xNew }
  ((s.updLtg p (fun y => y.setAnchor a)).setReg p.val Off.PRT_GEAR_NOW_NUM (twos 32 num)).setReg p.val Off.PRT_GEAR_NOW_DEN (twos 32 den)

/-- The ratio of a setup once it is in force. -/
def State.setupRatio (s : State) (p : PortId) : Int × Int :=
  (sgn 32 (s.eff p.val Off.PRT_GEAR_NUMS), sgn 32 (s.eff p.val Off.PRT_GEAR_DENS))

/-! ### Cuts taken -/

/-- An engine starts a setup's program: at a cut or a start (Table 3.2). -/
def State.startEngine (s : State) (e : EngId) (k : Nat) (clearScratch : Bool) : State :=
  s.updEng e (fun x => { x.restart (s.slotProg e k).entry clearScratch with setup := k, old := false })

/-- A DRIFT with KEEP in a setup's pipe program (R159). -/
def State.keepsDrift (s : State) (p : PortId) (k : Nat) : Bool :=
  let x := s.eng (pipeEng p)
  ((s.slotProg (pipeEng p) k).instrs x).any (fun e => e.2.1 == 0x82 && bitN (bByte (x.block k (pbOf e.2.2) 32) 6) 0)

/-- The drift ratios start again (R159): q is 0. -/
def PipeSt.restartDrift (y : PipeSt) : PipeSt :=
  { y with dAcc := List.replicate 4 65536, dValid := List.replicate 4 0, q := List.replicate 4 0, qNext := List.replicate 4 0 }

/-- The banks of PIP_TBLSEL come in force; a bank that does ends DEGRADED by its table (R172). -/
def State.banksInForce (s : State) (p : PortId) : State :=
  let y := (s.port p).pipe
  let sel := s.eff p.val Off.PIP_TBLSEL
  let gone := (if fld sel 0 0 ≠ y.shadeBank then 1 else 0) + (if fld sel 1 1 ≠ y.defBank then 2 else 0)
  let left := y.degraded &&& (3 - gone)
  let s1 := s.updPipe p (fun z => { z with
    degraded := left, shadeBank := fld sel 0 0, defBank := fld sel 1 1,
    substed := z.substed.filter (fun e => !bitN gone e.1) })
  if y.degraded ≠ 0 ∧ left = 0 then s1.setRf p.val Off.PIP_BANK_STAT 15 15 0 else s1

/-- The tick after a cut (R82): the pipe engine starts the new setup's program, with accumulators and, without KEEP, drift cleared
(Table 6.1, R159). -/
def State.pipeSwitch (s : State) (p : PortId) : State :=
  let e := pipeEng p
  if (s.eng e).old then
    let k := ((s.unit (unitOfPort p)).current).getD 0
    let keep := s.keepsDrift p k
    let s1 := (s.startEngine e k false).updPipe p (fun z =>
      let z := if keep then z else z.restartDrift
      { z with accs := Vector.replicate 2 { a := [], cnt := 0 }, lastEmit := [] })
    (if keep then s1 else s1.setRf p.val Off.PIP_DRIFT_STAT 3 0 0).banksInForce p
  else s

/-- A member has switched: the cut's slot is its current and committed setup (R376). -/
def State.tookCut (s : State) (u : UnitId) (c : CutDue) : State :=
  (s.updUnit u (fun x => ({ x with current := some c.slot, committed := some c.slot, cut := none }).sync)).cutDone c.group u

/-- The CUT values that wait for a port's first tick come into force at it (R7, R125, R235): those of a start, or of a cut that fired while
the port did not run; with the latter comes the setup's ratio. -/
def State.takeDue (s : State) (p : PortId) : State :=
  let u := unitOfPort p
  if (s.unit u).due.isEmpty then s
  else
    let s1 := s.applyDue u (fun _ => true)
    let r := s1.setupRatio p
    let s2 := if (s.unit u).due.any (fun e => e.1 == Off.PRT_GEAR_NUMS) then
        s1.regear p (decide (s.srcCode p = 5)) (s.srcCount p) (s1.srcCount p) r.1 r.2 false
      else s1
    let s3 := (s2.setupRanges p).banksInForce p
    if s3.rf p.val Off.CMP_REC 0 0 = 0 then s3.closeDisabled p else s3

/-- The CUT values that wait for an axis's first motion tick come into force at it (R7, R337). -/
def State.takeAxisDue (s : State) (a : AxisId) : State :=
  if (s.unit (unitOfAxis a)).due.isEmpty then s else (s.applyDue (unitOfAxis a) (fun _ => true)).loadProfile a

/-- CUT_TAKE_EFFECT of a port, at its line tick (R26, R82, R92, R125, R175, R297). -/
def State.takeCut (s : State) (p : PortId) : State :=
  let u := unitOfPort p
  match (s.unit u).cut with
  | none => s
  | some c =>
    if !c.reached then s
    else
      let src := s.srcCode p
      let x := s.srcCount p
      let rec0 := s.rf p.val Off.CMP_REC 0 0
      let s1 := (s.abortCap p 0).applySetup u c.slot
      let r := s1.setupRatio p
      -- a port sourced from the named master has re-anchored at X already
      let own := c.kind ≠ 0 ∧ src = c.kind
      let s2 := if own ∧ s1.srcCode p = src then s1
        else (s1.regear p (decide (src = 5)) x (s1.srcCount p) r.1 r.2 false).updLtg p (fun l =>
          if s1.srcCode p = src then l else { l with past := [] })
      let s3 := ((s2.setupRanges p).setRf p.val Off.PIP_CAL 11 10 0).startEngine (gateEng p) c.slot false
      let s4 := (s3.updEng (pipeEng p) (fun e => { e with old := true })).updPort p (fun x => { x with cuts := x.cuts + 1 })
      let s5 := if rec0 = 1 ∧ s4.rf p.val Off.CMP_REC 0 0 = 0 then s4.closeDisabled p else s4
      s5.tookCut u c

/-- CUT_TAKE_EFFECT of an axis, at its motion tick (R26, R82, R337): the values that wait for its first tick, and a cut's new setup's CUT
fields; a move goes on. -/
def State.takeAxisCut (s : State) (a : AxisId) : State :=
  let u := unitOfAxis a
  let s := if (s.unit u).st = .running then s.takeAxisDue a else s
  match (s.unit u).cut with
  | none => s
  | some c =>
    if c.reached ∧ (s.unit u).st = .running then
      let s1 := ((s.applySetup u c.slot).loadProfile a).startEngine (axisEng a) c.slot false
      (s1.updEng (axisEng a) (fun e => { e with cutFlag := true })).tookCut u c
    else s

/-! ### Cuts that fire (R26 to R28) -/

/-- The registers of a cut group that no setup names (R92). -/
def groupOffsets (g : GroupId) : List Nat :=
  [Off.MOT_GRP_PACE + 0x40 * g.val, Off.MOT_GRP_VRUN + 0x40 * g.val, Off.MOT_GRP_LEADER + 0x40 * g.val]

/-- A member that switches at its next tick: the cut is reached, and its setup is the committed one from now on (R78, R376). -/
def UnitSt.fire (x : UnitSt) : UnitSt :=
  match x.cut with
  | some c => { x with cut := some { c with reached := true }, committed := some c.slot }.sync
  | none => x

/-- A unit that switches to a cut at its next tick: it runs, but for a fault, or will run when the full reset that goes on has ended (R383). -/
def State.switches (s : State) (u : UnitId) : Bool :=
  let x := s.unit u
  x.phase == .running || (s.mgt.resetBusy && (x.st == .faulted || x.st == .wedged) && x.prior == .running)

/-- CUT_TRIGGER: the trigger of the armed cut of a group is reached. Members that run, but for a fault, switch at their next tick;
the others take the cut now (R7, R27); the cut's setup is the committed setup of every member from now on, so that a reload starts
it (R78, R376). A port sourced from the named master re-anchors at X (R297). The group's own CUT
values come in force (log entry 104). -/
def State.fireCut (s : State) (g : GroupId) : State :=
  let grp := s.groups[g]
  if grp.armed.isNone || !grp.left.isEmpty then s
  else
    let named := (List.finRange 24).filter (fun u => ((s.unit u).cut.map (fun c => c.group)) == some g.val)
    let later := named.filter s.switches
    let s0 := (groupOffsets g).foldl (fun t off => t.applyStaged off) s
    let s1 := s0.updGroup g (fun x => { x with
      left := later.map (fun u => u.val), starting := if later.isEmpty then x.starting else x.starting ++ [(later.filter (fun u => decide (u.val < 16))).map (fun u => u.val)],
      drive := x.driveNext.getD x.drive, driveNext := none })
    let s2 := named.foldl (fun t u =>
      if later.contains u then
        let t1 := t.updUnit u UnitSt.fire
        if h : u.val < 16 then
          let p : PortId := ⟨u.val, h⟩
          match (t.unit u).cut with
          | some c =>
            if c.kind ≠ 0 ∧ t.srcCode p = c.kind then
              let f (off : Nat) : Nat := t.futureCut u c.slot p.val off
              t1.regear p false c.value c.value (sgn 32 (f Off.PRT_GEAR_NUMS)) (sgn 32 (f Off.PRT_GEAR_DENS))
                (fld (f Off.PRT_LTG_CFG) 8 8 == 1)
            else t1
          | none => t1
        else t1
      else t.takeIdle u) s1
    if later.isEmpty then s2.updGroup g (fun x => { x with armed := none, done := x.done + 1 }) else s2

/-- The line position `k` of port `p` has been reached: line-number triggers at or before it (R28). -/
def State.fireLines (s : State) (p : PortId) (k : Int) : State :=
  (List.finRange 4).foldl (fun t g =>
    match t.groups[g].armed with
    | some (0, ref, l) => if ref = p.val ∧ l ≤ k then t.fireCut g else t
    | _ => t) s

/-- Master `m` has moved: master-position triggers that it has reached (R299). -/
def State.fireMaster (s : State) (m : Nat) : State :=
  (List.finRange 4).foldl (fun t g =>
    match t.groups[g].armed with
    | some (kind, _, x) => if kind = m + 1 ∧ masterReached (t.master m) x then t.fireCut g else t
    | _ => t) s

end Sys2Proof.Machine
end

