-- ==== Sys2Proof/Machine/Trigger.lean ====
section
/-! DEFINITION. Line ticks, drain ticks and the process stage (spec/01, R13 to R17; spec/03, R72 to R83; spec/11, R287 to R310). -/

namespace Sys2Proof.Machine

/-! ### Positions that are lost (R289, R379, R382, R403) -/

/-- The LTG of a port counts positions: the port runs, or has run up to a fault (R374, R379). -/
def State.counting (s : State) (p : PortId) : Bool :=
  let x := s.unit (unitOfPort p)
  x.st == .running || ((x.st == .faulted || x.st == .wedged) && x.prior == .running)

/-- Whether every position that a port reaches now is lost, and the cause of Table 1.3 if one applies: during a full reset,
in WEDGED, while a fault that stops the lines is classified (R83, R379), and without the lock of the port's PLL. -/
def State.losing (s : State) (p : PortId) : Option (Option Nat) :=
  let st := s.portState p
  if s.mgt.resetBusy then some none
  else if st = .wedged ∨ (st = .faulted ∧ (s.unit (unitOfPort p)).back = .wedged) then some (some 0)
  else if st = .faulted ∧ s.hasFault p 8 then
    let gate := s.faults.any (fun f => f.kind == 1 && f.unit == p.val && ((f.code, f.arg) :: f.joined).any (fun e => e.1 == 8 && decide (e.2 < 16)))
    some (some (if gate then 1 else 2))
  else if st = .faulted ∧ [2, 4, 7, 9].any (s.hasFault p) then some none
  else if !s.pllLock p then some (some 0)
  else none

/-- Positions `a` to `b` are counted lost (R289, R16); overlap positions are not counted but spoil the seam measure (R308).
PRT_LTG_EARLY counts those lost under R289. -/
def State.lose (s : State) (p : PortId) (a b : Int) (cause : Option Nat) : State :=
  let a1 : Int := match (s.port p).splice.overlapTo with
    | some o => max a (o + 1)
    | none => a
  let s1 := if a < a1 ∧ a ≤ b then s.updPort p (fun x => { x with splice := { x.splice with spoilt := true } }) else s
  let n := (b + 1 - a1).toNat
  if n = 0 then s1
  else
    let s2 := s1.updPort p (fun x => { x with lostRec := x.lostRec ++ [(a1.toNat, n)] })
    match cause with
    | none => s2
    | some c =>
      let s3 := if c = 0 then s2.incRf p.val Off.PRT_LTG_EARLY 31 0 n else s2
      (List.range n).foldl (fun t _ => t.raise (portSrc p.val 0) [(8, c)]) s3

/-! ### The stages move on (R13, R16, R77, R219 to R221) -/

/-- A record in the due list of the take store would be recorded (R271): one that waits at the deadline is an overrun. -/
def State.mustRecord (s : State) (p : PortId) (r : Rec) : Bool :=
  recorded (s.eff p.val Off.CMP_REC) r.type && s.rf 0 Off.TKS_CTL 0 0 == 1 && (s.tks.st == 2 || s.tks.st == 3) &&
    !s.tks.ports[p].suspended

/-- The emit deadline (R16, R221): a record that the take store has not taken drops the line whole; otherwise each record whose
emission to its channel has not started is late. -/
def State.emitDeadline (s : State) (p : PortId) : State :=
  let due := (s.port p).due
  let s1 := if due[3].any (s.mustRecord p) then s.dropLine p .emit 3
    else (List.finRange 3).foldl (fun t k =>
      (due[k.val]'(by omega)).foldl (fun t r =>
        if (t.chan (chanOf p k.val)).st = 1 ∨ (t.chan (chanOf p k.val)).st = 2 then t.chanLate (chanOf p k.val) r else t) t) s
  s1.updPort p (fun x => { x with due := Vector.replicate 4 [] })

/-- The process deadline (R77): a pipe engine that has not ended its line loses it with cause PROCESS and restarts at its
setup's entry, scratch kept. An engine that an excess has stopped runs no tick until its classification ends, and its lines are lost with
that cause (R83); those of an engine that has trapped are lost (R76). The line of one that has executed HALT itself moves on with the records
it has queued, and is not counted as lost (DESIGN CHOICE, log entry 199). -/
def State.processDeadline (s : State) (p : PortId) : State :=
  match (s.port p).prc with
  | none => s
  | some l =>
    let e := pipeEng p
    let x := s.eng e
    if x.run = .running ∨ (x.run = .waiting ∧ !l.begun) then
      (((s.undoCal p).dropLine p .process 2).updEng e (fun y => y.restart (s.prog e).entry false)).updPipe p (fun y =>
        { y with stall := none, staged := 0 })
    else if x.run = .idle ∧ s.hasFault p 8 then (s.undoCal p).dropLine p .process 2
    else if x.run = .trapped then (s.undoCal p).dropQuiet p .process
    else s

/-- The form in which a record of line `l` leaves for destination `k`, 0 to 2 a stream, 3 the take store (R220). A line that is
both in a gap window and in an overlap leaves as a GAP record (log entry 105). -/
def emitForm (l : LineRec) (k : Nat) (r : Rec) : Option Rec :=
  if l.overlap && k == 3 then none
  else if l.gap && k != 2 then some { r with type := 6, payload := [] }
  else if l.overlap && k != 2 then some { r with type := 4 }
  else some r

/-- A channel takes a record of line `l` (R213, R234, R235). -/
def State.chanTakes (s : State) (p : PortId) (k : Nat) (l : LineRec) (r : Rec) : Bool :=
  let c := s.chan (chanOf p k)
  (c.st == 1 || (c.st == 2 && decide (l.ord < c.lastLine))) && (r.type != 4 || c.format == 3)

/-- The records due from a line that enters its emit stage, by destination in the order of the EMITs (R216, R219). -/
def State.dueOf (s : State) (p : PortId) (l : LineRec) (q : List Emission) : Vector (List Rec) 4 :=
  Vector.ofFn (fun k => q.filterMap (fun e =>
    let named := if k.val = 3 then bitN e.dest 3 else bitN e.dest 2 && decide (e.dest % 4 = k.val)
    if !named || l.dropped then none
    else match emitForm l k.val e.rec_ with
      | none => none
      | some r => if k.val = 3 || s.chanTakes p k.val l r then some r else none))

/-- Lost lines that no record can still come before are folded into one number. -/
def PortSt.fold (x : PortSt) : PortSt :=
  let num (l : Option LineRec) : List Nat := match l with | some r => [r.n] | none => []
  match num x.cap ++ num x.prc ++ num x.emi with
  | [] => x
  | n :: t =>
    let lo := t.foldl min n
    { x with lostBase := x.lostBase + ((x.lostRec.filter (fun e => decide (e.1 < lo))).map (fun e => e.2)).sum,
             lostRec := x.lostRec.filter (fun e => !decide (e.1 < lo)) }

/-! ### The seam (R310) -/

/-- The kept profile of a line. -/
def profOf (l : List (Nat × List Nat)) (n : Int) : Option (List Nat) :=
  (l.find? (fun e => decide ((e.1 : Int) = n))).map (fun e => e.2)

/-- All of a list of options, or none. -/
def allSome : List (Option (List Nat)) → Option (List (List Nat))
  | [] => some []
  | none :: _ => none
  | some x :: t => (allSome t).map (fun l => x :: l)

/-- No measurement was made: SPLICE_DONE carries score 0, and an offset that no rule gives: a free value (R310). -/
def State.noSeam (s : State) (p : PortId) : State :=
  ((s.updPort p (fun y => { y with splice := { y.splice with seam := none, again := [] } })).raise (portSrc p.val 27)
    [(16, Config.freeNat 16 s.free % 65536), (16, 0)]).tickFree

/-- SEAM_MEASURE (R310), as the first new line enters its process stage: the seam goes into PRT_SPLICE_SEAM and the line's slate, and
SPLICE_DONE carries it; with a line missing none is made. With K = 4 no overlap line has a kept one at dl = 4: e[4] is a free value (log entry 185). -/
def State.measureSeam (s : State) (p : PortId) : State :=
  let x := (s.port p).splice
  let kk := x.overlapK
  let o := allSome ((List.range kk).map (fun (i : Nat) => profOf x.again (x.last - kk + 1 + i)))
  let kept := allSome ((List.range (kk + 4)).map (fun (i : Nat) => profOf x.kept (x.last - kk - 3 + i)))
  match o, kept with
  | some o, some kept =>
    if x.spoilt then s.noSeam p
    else
      let r := seamResult ((List.range 9).map (fun (i : Nat) => seamE kk o kept ((i : Int) - 4) (Config.freeNat 32 s.free % 2 ^ 32)))
      let s1 := s.updPort p (fun y => { y with splice := { y.splice with seam := some (contField r), again := [] } })
      let s2 := (s1.setReg p.val Off.PRT_SPLICE_SEAM (contField r)).raise (portSrc p.val 27) [(16, twos 16 r.1), (16, r.2)]
      if kk ≤ 4 then s2.tickFree else s2
  | _, _ => s.noSeam p

/-- The time of the last tick of a port: a line tick or a drain tick. -/
def LtgSt.tickTime (l : LtgSt) : Nat := if l.drains = 0 then l.tLine else l.tDrain

/-- A tick for the process and emit stages (R13, R293): the deadlines fall, the line in process goes to its emit stage with what
its EMITs queued, the captured line goes to process; a pipe engine that ran the old setup takes the new one (R82). -/
def State.shift (s : State) (p : PortId) : State :=
  let s1 := ((((s.emitDeadline p).stallOver p (s.port p).ltg.tickTime).processDeadline p).verifyReport p).capFinish p
  let s2 := if (s1.port p).prc.isSome then s1.showStall p else s1
  let s3 := match (s2.port p).cap with
    | some l => if l.splice then s2.measureSeam p else s2
    | none => s2
  let x := s3.port p
  let due := match x.prc with
    | some l => s3.dueOf p l x.pipe.queued
    | none => Vector.replicate 4 []
  let s4 := s3.updPort p (fun y =>
    PortSt.fold { y with emi := x.prc, prc := x.cap, cap := none, due := due, pipe := { y.pipe with queued := [], stallCyc := 0 } })
  s4.pipeSwitch p

/-! ### Line ticks -/

/-- COMMIT_TAKE_EFFECT (R6, R29, R125, R297): the committed STG values of a port go in force; a commit of the ratio re-anchors, a half
that it does not name keeping the ratio in force. -/
def State.commitTick (s : State) (p : PortId) : State :=
  let n := p.val
  let mask (off : Nat) : Word := (s.cell n off).cmt
  let val (off : Nat) : Word := (s.cell n off).cmtVal
  let s1 := stgOffsets.foldl (fun t off =>
    let c := t.cell n off
    if c.cmt = 0 then t else t.setCell n off { c with force := (c.force &&& ~~~c.cmt) ||| (c.cmtVal &&& c.cmt), cmt := 0 }) s
  let s2 := s1.commitRanges p mask val
  let num := mask Off.PRT_GEAR_NUM
  let den := mask Off.PRT_GEAR_DEN
  if num = 0 ∧ den = 0 then s2
  else
    let l := (s2.port p).ltg
    let x := s2.srcCount p
    s2.regear p (decide (s2.srcCode p = 5)) x x (if num = 0 then l.num else (val Off.PRT_GEAR_NUM).toInt)
      (if den = 0 then l.den else (val Off.PRT_GEAR_DEN).toInt) false

/-- The cue lines that line `n` fixes (R276): the first line at or beyond the position of a cue on the port's own master, or the first
line after the named master reached it. -/
def State.cueTick (s : State) (p : PortId) (n : Nat) (pos : Int) : State :=
  let l := (s.port p).ltg
  let hit (c : Cue) : Bool := c.port == p.val && c.kind != 0 && c.st == 1 && c.line.isNone &&
    (if s.srcCode p = c.kind then decide (0 ≤ ratioDir l.num l.den * sext48 (pos - c.value)) else c.reached)
  let t := s.updTks (fun t => { t with cues := t.cues.map (fun e => if hit e.2 then (e.1, { e.2 with line := some n }) else e) })
  if s.tks.cues.any (fun e => hit e.2 && e.2.pinned) then t.repin else t

/-- The gate side of a new line (R111, R116): the queue is empty, the samples restart, the LREF outputs take the code of sub-line 0. -/
def GateSt.newLine (g : GateSt) : GateSt :=
  { g with queue := [], active := [], spans := [], samples := 0, lrefSub := Vector.replicate 2 0, lrefOn := true }

/-- An engine takes the tick of time `t`, at which it works on line `l` (R72, R73). -/
def Eng.takeTick (x : Eng) (l : LineRec) (t : Nat) : Eng :=
  if x.run = .waiting then
    { x with run := .running, cyc := 0, line := l.n, time := t, pos := l.pos, cutFlag := l.cutFlag }
  else x

/-- Whether line `k` of a port is an overlap line (R308). -/
def State.overlapLine (s : State) (p : PortId) (k : Int) : Bool :=
  match (s.port p).splice.overlapTo with
  | some o => decide (k ≤ o)
  | none => false

/-- Whether a cut that has been reached fires at this tick (R82). -/
def State.cutNow (s : State) (p : PortId) : Bool :=
  (s.unit (unitOfPort p)).st == .running && (match (s.unit (unitOfPort p)).cut with | some c => c.reached | none => false)

/-- What comes in force at a tick, in order: the CUT values of a start, a cut, committed values, the ranges, the pairs, the converters' new
line, the slices. -/
def State.tickSetup (s : State) (p : PortId) (cut overlap : Bool) : State :=
  let s0 := if overlap then s else s.takeDue p
  let s1 := if cut then s0.takeCut p else s0
  let s2 := if overlap then s1 else s1.commitTick p
  let s3 := (s2.countGen p (s.rangeNow p)).pairsChange s p
  let s4 := (s3.updPort p (fun x => { x with conv := x.conv.map ConvSt.newLine })).replaceSlices p
  if s.eff p.val Off.PRT_FE_EN ≠ s4.eff p.val Off.PRT_FE_EN then s4
  else (List.finRange 16).foldl (fun t i => t.trySwap p i true) s4

/-- The record of a line that begins. -/
def State.newLineRec (s : State) (p : PortId) (n : Nat) (cut overlap : Bool) : LineRec :=
  let y := s.port p
  { n := n, time := s.now, pos := s.srcCount p, slot := ((s.unit (unitOfPort p)).current).getD 0, gateStart := 0, gateEnd := 0,
    dropped := false, cutFlag := cut, overlap := overlap, splice := !overlap && y.splice.spliceDue, leader := y.splice.leader && !overlap,
    range := s.rangeByte p, cuts := y.cuts,
    gap := (match y.gap with | some g => decide (g.first ≤ n ∧ n < g.first + g.count) | none => false),
    begun := false, samples := [], ord := y.ltg.ticks }

/-- The record is open, the gate has a new line, the LTG is at position `k`, and the gate engine takes the tick. -/
def State.openLine (s : State) (p : PortId) (k : Int) (overlap : Bool) (l : LineRec) : State :=
  let s1 := s.updPort p (fun x => { x with
    cap := some l, gate := x.gate.newLine,
    splice := if overlap then x.splice else { x.splice with spliceDue := false, overlapTo := none },
    ltg := { x.ltg with tLine := s.now, drains := 0, ticked := true, held := none, lastLine := l.n, h := k, ticks := x.ltg.ticks + 1 } })
  (s1.showQueue p).updEng (gateEng p) (fun e => e.takeTick l s.now)

/-- The start of line `k`, of stored number `n`. -/
def State.beginLine (s : State) (p : PortId) (k : Int) (n : Nat) (cut overlap : Bool) : State :=
  let s1 := s.tickSetup p cut overlap
  let s2 := if overlap then s1 else s1.gapTick p n
  let l := s2.newLineRec p n cut overlap
  let s3 := s2.openLine p k overlap l
  if overlap then s3 else (s3.gapCapture p n).cueTick p n l.pos

/-- LINE_TICK (R13, R29, R82, R139): line `k` begins its capture. A cut comes first, then committed values; an overlap line takes
neither (R308). A stop due at the next tick halts the port instead (Table 15.2), and a head removal drains it (R104, log
entry 106). -/
def State.lineTick (s : State) (p : PortId) (k : Int) : State :=
  let u := unitOfPort p
  if (s.unit u).haltNext then (s.updUnit u (fun x => { x with haltNext := false })).haltPort p 7
  else if (s.port p).head.gone then
    (s.updPort p (fun x => { x with head := { x.head with gone := false } })).drainUnit u
  else
    let overlap := s.overlapLine p k
    let s0 := s.shift p
    s0.beginLine p k (twos 48 k) (!overlap && s0.cutNow p) overlap

/-- Time since `t` is at least LINE_PERIOD_MIN of the port. -/
def State.pminPast (s : State) (p : PortId) (t : Nat) : Bool := decide (s.pmin p ≤ (s.now - t) * 100)

/-- The high-water rises to `k` and no tick is held. -/
def State.setHigh (s : State) (p : PortId) (k : Int) : State := s.updLtg p (fun x => { x with h := k, held := none })

/-- Position `k` above the high-water is to be ticked: those below are lost with cause EARLY. A gate engine that has not ended its
line has exceeded its declared worst case (R77, R83), and the positions are lost. -/
def State.issueTick (s : State) (p : PortId) (k : Int) : State :=
  let h := (s.port p).ltg.h
  if (s.eng (gateEng p)).run = .running then ((s.excess (gateEng p)).lose p (h + 1) k (some 1)).setHigh p k
  else (s.lose p (h + 1) (k - 1) (some 0)).lineTick p k

/-- While a lane mismatch is classified, position `k` starts the process stages of the lines from the high-water on: they are dropped as
the mismatched one (R165). -/
def State.laneLines (s : State) (p : PortId) (k : Int) : State :=
  if s.portState p = .faulted ∧ s.hasFault p 4 then
    let h := (s.port p).ltg.h
    (List.range (k - h).toNat).foldl (fun t i => t.raise (portSrc p.val 10) [(8, (h + (i : Nat)).toNat % 8)]) (s.dropQuiet p .capture)
  else s

/-- The evaluation of R289 to R294 for a port whose source has reached position `k`. -/
def State.evaluateAt (s : State) (p : PortId) (k : Int) : State :=
  let l := (s.port p).ltg
  if k ≤ l.h then
    if k < l.h ∧ !l.behind then (s.updLtg p (fun x => { x with behind := true })).raise (portSrc p.val 24) []
    else if k = l.h then s.updLtg p (fun x => { x with behind := false })
    else s
  else
    let s := s.updLtg p (fun x => { x with behind := false })
    let kk := match l.held with | some y => max k y | none => k
    match s.losing p with
    | some c => ((s.laneLines p kk).lose p (l.h + 1) kk c).setHigh p kk
    | none =>
      if 0 < l.drains ∧ !s.pminPast p l.tDrain then s.updLtg p (fun x => { x with held := some kk })
      else if 0 < l.drains ∨ !l.ticked ∨ s.pminPast p l.tLine then s.issueTick p kk
      else (s.lose p (l.h + 1) kk (some 0)).setHigh p kk

/-- GEAR_REANCHOR (R292). -/
def State.renewAnchor (s : State) (p : PortId) : State :=
  if s.srcCode p = 5 then s else s.updLtg p (fun x => x.setAnchor (x.anchor.renew (s.srcCount p)))

/-- The armed ratio change of a port applies if its master has reached its position, and GEAR_APPLIED is raised (R300). -/
def State.applyArmedOne (s : State) (p : PortId) : State :=
  let n := p.val
  if (s.port p).ltg.armed ∧ masterReached (s.master (s.rf n Off.PRT_GEAR_ARMCTL 1 1)) (sgn 48 (s.pair n Off.PRT_GEAR_APOS_LO)) then
    let x := s.srcCount p
    let t1 := (s.clearGearArm p).regear p (decide (s.srcCode p = 5)) x x (sgn 32 (s.eff n Off.PRT_GEAR_ANUM))
      (sgn 32 (s.eff n Off.PRT_GEAR_ADEN)) (s.rf n Off.PRT_GEAR_ARMCTL 2 2 == 1)
    t1.raise (portSrc n 25) [(32, twos 32 (t1.port p).ltg.anchor.firstLine)]
  else s

/-- The LTG of a port looks at its source: cuts whose line the port reaches fire (R28), then R289 applies; an armed change whose
position is reached on the same count comes last (R298). -/
def State.evaluate (s : State) (p : PortId) : State :=
  if s.counting p then
    let k := s.lineNow p
    (((s.fireLines p k).renewAnchor p).evaluateAt p k).applyArmedOne p
  else s

/-- The meaning of LINE_POSITION_REACHED (R289) at time `t`. -/
def execLinePositionReached (p : PortId) (t : Nat) (s : State) : Host.Outcome State Fault Refusal := .next ((s.at t).evaluate p)

/-- A write of TICK (R295): the next line position of source 5; ignored for other sources. -/
def State.hostTick (s : State) (p : PortId) (v : Nat) : State :=
  if bitN v 0 ∧ s.srcCode p = 5 ∧ s.counting p then
    (s.updLtg p (fun x => { x with hostTicks := x.hostTicks + 1 })).evaluate p
  else s

/-- The meaning of HELD_TICK_RELEASE (R294) at time `t`: LINE_PERIOD_MIN after the drain tick the held line tick is issued, for the
highest position reached. -/
def execHeldTickRelease (p : PortId) (t : Nat) (s : State) : Host.Outcome State Fault Refusal :=
  let s := s.at t
  let l := (s.port p).ltg
  match l.held with
  | some y =>
    if s.counting p && s.pminPast p l.tDrain then .next (s.evaluateAt p (max y (s.lineNow p))) else .next s
  | none => .next s

/-! ### Drain ticks (R293) -/

/-- Whether a drain tick is due: with IDLE past since the last tick of a port that runs, LINE_PERIOD_MIN in DRAINING. Without the lock of the
port's PLL the LTG issues no tick (R403). -/
def State.drainDue (s : State) (p : PortId) : Bool :=
  let l := (s.port p).ltg
  let last := if l.drains = 0 then l.tLine else l.tDrain
  let x := s.unit (unitOfPort p)
  l.ticked && decide (l.drains < 2) && !s.mgt.resetBusy && s.pllLock p &&
    (match x.phase with
     | .running => l.held.isNone && decide (s.rf p.val Off.PRT_LTG_CFG 31 16 * 1000 ≤ s.now - last)
     | .draining => s.pminPast p last
     | _ => false)

/-- The meaning of DRAIN_TICK (R293) at time `t`: the stages move on; the second drain tick of a DRAINING port halts it (cause 6). -/
def execDrainTick (p : PortId) (t : Nat) (s : State) : Host.Outcome State Fault Refusal :=
  let s := s.at t
  let u := unitOfPort p
  if !s.drainDue p then .next s
  else if (s.unit u).haltNext then .next ((s.updUnit u (fun x => { x with haltNext := false })).haltPort p 7)
  else
    let s1 := (s.shift p).updLtg p (fun x => { x with tDrain := s.now, drains := x.drains + 1 })
    let s2 := if (s1.port p).head.gone then
        (s1.updPort p (fun x => { x with head := { x.head with gone := false } })).drainUnit u
      else s1
    if s2.portState p = .draining ∧ 2 ≤ (s2.port p).ltg.drains then .next (s2.haltPort p 6) else .next s2

/-! ### The process stage (R21) -/

/-- The process stage of a line of a port begins: the port holds no cut back but the one that its pipe engine has not taken yet (R82), and
one that it is to take at its next tick (R251). -/
def State.lineStarted (s : State) (p : PortId) : State :=
  let u := unitOfPort p
  let old := b2n (s.eng (pipeEng p)).old
  { s with groups := s.groups.map (fun x => x.startedBut u (old + b2n (x.left.contains u.val))) }

/-- The process stage of the line in process begins (R21, R171, R207, R214): flips are made, the line buffer is empty, the pipe engine
takes its tick. While lanes are classified the line is dropped without an event (R165). -/
def State.beginProcess (s : State) (p : PortId) : State :=
  match (s.port p).prc with
  | none => s
  | some l =>
    if l.begun then s
    else
      let s1 := ((s.updPort p (fun x => { x with prc := some { l with begun := true } })).makeFlips p).applyLane p
      let s2 := s1.updPipe p (fun y => { y with
        q := y.qNext, stream := none, skip := false, areas := Vector.replicate 4 none, slots := Vector.replicate 4 none, queued := [],
        groupDone := false, calDone := false, subst := 0, unrep := 0, discard := 0, unfilled := 0, stall := none, stallCyc := 0,
        shaded := false, calAdd := [], shadeBad := [], mismatch := false, fails := [] })
      let s3 := if s2.hasFault p 4 then s2.laneDrop p else s2
      (s3.lineStarted p).updEng (pipeEng p) (fun e => e.takeTick l (s3.port p).ltg.tickTime)

/-- The meaning of PIPE_TICK. -/
def execPipeTick (p : PortId) (s : State) : Host.Outcome State Fault Refusal := .next (s.beginProcess p)

/-! ### Masters and armed changes (R299 to R302) -/

/-- A tick of the port falls on this very source count and has not been given: a line position above the high-water that the
source had not reached one count before. -/
def State.tickDue (s : State) (p : PortId) : Bool :=
  let l := (s.port p).ltg
  let x := s.srcCount p
  s.counting p && s.srcCode p != 5 && decide (l.h < l.anchor.line x) &&
    decide (l.anchor.line (x - ratioDir l.num l.den) < l.anchor.line x)

/-- Armed ratio changes on master `m` apply, but for those of ports whose line tick falls on this source count: a cut and a commit
that the tick takes come first (R298), and the port applies its change after the tick. -/
def State.applyArmed (s : State) (m : Fin 2) : State :=
  (List.finRange 16).foldl (fun t p =>
    if t.rf p.val Off.PRT_GEAR_ARMCTL 1 1 = m.val ∧ !t.tickDue p then t.applyArmedOne p else t) s

/-- Cues on a master that has reached their position (R276). -/
def State.cueReached (s : State) (m : Fin 2) : State :=
  s.updTks (fun t => { t with cues := t.cues.map (fun e =>
    if e.2.kind = m.val + 1 ∧ masterReached (s.master m.val) e.2.value then (e.1, { e.2 with reached := true }) else e) })

/-- New levels of the inputs of a master (R302): the count moves; cuts, cues and armed changes on the master follow, cuts first (R298). -/
def State.masterPins (s : State) (m : Fin 2) (a b z : Bool) (width : Nat) : State :=
  (((s.masterStep m a b z width).fireMaster m.val).cueReached m).applyArmed m

/-- The meaning of MASTER_EDGE (R302): new levels of a master's inputs, which read low while VDDIO18 is out of its range (R407). -/
def execMasterEdge (m : Fin 2) (edge : EdgeAt) (a b z : Bool) (s : State) : Host.Outcome State Fault Refusal :=
  let up := s.bankUp 17
  .next ((s.at edge.time).masterPins m (a && up) (b && up) (z && up) edge.lasts)

/-- A write to PRT_GEAR_ARMCTL (R296, R298, R300). A change that those rules refuse is not armed, and sets ERR (log entry 107). -/
def State.gearArm (s : State) (p : PortId) (v : Nat) : State :=
  let n := p.val
  let num := sgn 32 (s.eff n Off.PRT_GEAR_ANUM)
  let den := sgn 32 (s.eff n Off.PRT_GEAR_ADEN)
  let l := (s.port p).ltg
  let m := fld v 1 1
  let late := masterReached (s.master m) (sgn 48 (s.pair n Off.PRT_GEAR_APOS_LO))
  let bad := !ratioOk num den || (s.portState p == .running && ratioDir num den != ratioDir l.num l.den)
  let arm := bitN v 0 && !late && !bad
  let err := if bitN v 0 then b2n (late || bad) else s.rf n Off.PRT_GEAR_ARMCTL 31 31
  (s.setReg n Off.PRT_GEAR_ARMCTL (err * 2 ^ 31 + fld v 2 2 * 4 + m * 2 + b2n arm)).updLtg p (fun x => { x with armed := arm })

/-- A write to PRT_GEAR_LCFG (R301): ARM arms the latch anew. -/
def State.gearLatchCfg (s : State) (p : PortId) (v : Nat) : State :=
  (s.setReg p.val Off.PRT_GEAR_LCFG (v &&& 0x8000033F)).updLtg p (fun x => { x with latchRaw := none })

/-- The level that a latch waits to see qualified: that of a switch filter, or the edge's own for an unfiltered input. -/
def State.latchLevel (s : State) (input : Nat) (level : Bool) : Bool :=
  if 1 ≤ input ∧ input ≤ 32 then (s.axis ⟨(input - 1) / 4 % 8, Nat.mod_lt _ (by decide)⟩).qual ((input - 1) % 4) else level

/-- The meaning of GEAR_LATCH (R301): the latch of a port takes the count of the selected raw edge, its line and fraction. -/
def execGearLatch (p : PortId) (s : State) : Host.Outcome State Fault Refusal :=
  let n := p.val
  match (s.port p).ltg.latchRaw with
  | none => .next s
  | some (level, x, k, frac) =>
    if s.rf n Off.PRT_GEAR_LCFG 31 31 = 0 ∨ s.latchLevel (s.rf n Off.PRT_GEAR_LCFG 5 0) level ≠ level then .next s
    else
      let s1 := (s.setPair n Off.PRT_GEAR_LPOS_LO (twos 64 (sext48 x))).setReg n Off.PRT_GEAR_LLINE (twos 32 k)
      let s2 := ((s1.setReg n Off.PRT_GEAR_LFRAC frac).setRf n Off.PRT_GEAR_LCFG 31 31 0).updLtg p (fun y => { y with latchRaw := none })
      .next (s2.raise (portSrc n 26) [(32, twos 32 k)])

/-- The pacing unit of a unit's group is not idle (R311). -/
def State.paceBusy (s : State) (u : UnitId) : Bool :=
  match (s.unit u).group with
  | some g => (s.mot.paces[g % 4]'(Nat.mod_lt _ (by decide))).st != 0
  | none => false

end Sys2Proof.Machine
end

