-- ==== Sys2Proof/Machine/Pacing.lean ====
section
/-! DEFINITION. Pacing units, the motion tick of all axes, STOP_IN_L and the choppers' events (spec/11, R303 to R311; spec/12, R314 to
R338). -/

namespace Sys2Proof.Machine

/-! ### What a pacing unit works with (R303) -/

/-- A register of a group. -/
def grpOff (off : Nat) (g : GroupId) : Nat := off + 0x40 * g.val

/-- The pacing axis of a group. -/
def State.paceAxis (s : State) (g : GroupId) : AxisId := ⟨s.rf 0 (grpOff Off.MOT_GRP_PACE g) 2 0 % 8, Nat.mod_lt _ (by decide)⟩

/-- VRUN in the range of the register. -/
def State.paceSpeed (s : State) (g : GroupId) : Nat := parRange 0 (s.eff 0 (grpOff Off.MOT_GRP_VRUN g))

/-- A member port of group `g` is paced: it runs, and its source is the pacing axis (R303, R311). -/
def State.paced (s : State) (g : GroupId) (p : PortId) : Bool :=
  (s.unit (unitOfPort p)).group == some g.val && s.portState p == .running && (s.srcCode p == 3 || s.srcCode p == 4) &&
    s.srcAxis p == s.paceAxis g

/-- The paced ports of a group. -/
def State.pacedPorts (s : State) (g : GroupId) : List PortId := (List.finRange 16).filter (s.paced g)

/-- The port members of group `g`. -/
def State.groupPorts (s : State) (g : GroupId) : List PortId :=
  (List.finRange 16).filter (fun p => (s.unit (unitOfPort p)).group == some g.val)

/-- A member port that is paced, or would be but for a fault under classification (R311): it has the same last line. -/
def State.stopsWith (s : State) (g : GroupId) (p : PortId) : Bool :=
  let x := s.unit (unitOfPort p)
  x.group == some g.val && x.phase == .running && (s.srcCode p == 3 || s.srcCode p == 4) &&
    s.srcAxis p == s.paceAxis g

/-- PRT_PACE.EN. -/
def State.paceEn (s : State) (p : PortId) : Bool := s.rf p.val Off.PRT_PACE 31 31 == 1

/-- The paced ports whose channel DC(4p) is a pacing channel. -/
def State.paceChans (s : State) (g : GroupId) : List PortId :=
  (s.pacedPorts g).filter (fun p => s.paceEn p && (s.chan (chanOf p 0)).st == 1)

/-- The reference port of a group. -/
def State.refPort (s : State) (g : GroupId) : Option PortId :=
  match (s.pacedPorts g).find? s.paceEn with
  | some p => some p
  | none => (s.pacedPorts g).head?

/-- The pacing unit of a group takes state `st`, which MOT_GRPg_STAT shows. -/
def State.setPace (s : State) (g : GroupId) (st : Nat) : State :=
  ({ s with mot := { s.mot with paces := s.mot.paces.set g { s.mot.paces[g] with st := st } } }).setRf 0 (grpOff Off.MOT_GRP_STAT g) 2 0 st

/-- Changes a pacing unit. -/
def State.updPace (s : State) (g : GroupId) (f : PaceSt → PaceSt) : State :=
  { s with mot := { s.mot with paces := s.mot.paces.set g (f s.mot.paces[g]) } }

/-- MOT_GRPg_CTL bit. -/
def State.grpBit (s : State) (g : GroupId) (i : Nat) : Bool := bitN (s.eff 0 (grpOff Off.MOT_GRP_CTL g)) i

/-- Changes the restart state of every member port. -/
def State.updSplices (s : State) (g : GroupId) (f : SpliceSt → SpliceSt) : State :=
  (s.groupPorts g).foldl (fun t p => t.updPort p (fun x => { x with splice := f x.splice })) s

/-! ### Stops (R305) -/

/-- A cause of R305 and the channel that gives it, the lowest cause first. -/
def State.paceCause (s : State) (g : GroupId) : Option (Nat × Option Nat) :=
  match (s.paceChans g).find? (fun p => decide ((s.chan (chanOf p 0)).level < s.rf p.val Off.PRT_PACE_LW 15 0)) with
  | some p => some (0, some (chanOf p 0).val)
  | none => if s.grpBit g 1 then some (1, none) else if !s.grpBit g 0 then some (2, none) else none

/-- The stop target of R305: the commanded position at which the reference port's line position reaches an integer, the first
at or beyond p + dist in the forward direction `dir`, and the line of the tick there: the highest position reached, where several fall on
one count. `dist` is a fraction. -/
def stopTarget (dir p : Int) (dist : Nat × Nat) (a : Anchor) (enc : Option (Int × Int × Nat × Nat)) : Int × Int :=
  let reach : Int := ceilRat dist.1 dist.2
  let line (d : Int) : Int := a.kA + Int.fdiv ((d - 1) * a.num.natAbs + a.rA) a.den.natAbs + 1
  let travelOf (k : Int) : Int := -Int.fdiv (-((k - a.kA) * a.den.natAbs - a.rA)) a.num.natAbs
  let reached (d : Int) : Int := a.kA + Int.fdiv (d * a.num.natAbs + a.rA) a.den.natAbs
  match enc with
  | none =>
    let d := travelOf (line (dir * (p - a.sA) + reach))
    (a.sA + dir * d, reached d)
  | some (p0, e0, eN, eD) =>
    let y := dir * (p - p0) + reach
    let d := Int.fdiv ((y - 1) * eN) (max eD 1 : Nat) + 1 - dir * (a.sA - e0)
    let c := dir * (a.sA - e0) + travelOf (line d)
    let y1 := -Int.fdiv (-(c * (max eD 1 : Nat))) (max eN 1 : Nat)
    (p0 + dir * y1, reached (Int.fdiv (y1 * eN) (max eD 1 : Nat) - dir * (a.sA - e0)))

/-- Deceleration and jerk of the pacing axis's setup, jerk 0 for a trapezoid (R305). -/
def State.paceDec (s : State) (a : AxisId) : Nat × Nat :=
  (parRange 2 (s.eff a.val Off.MOT_PROF_DEC),
   if s.rf a.val Off.MOT_PROF_CFG 0 0 = 0 then 0 else parRange 4 (s.eff a.val Off.MOT_PROF_JERK))

/-- PACE_STOP (R305): the stop is planned, and the axis goes to the target; in LEADER a measurement that has not ended is discarded (R311). The event's channel is a free value where no channel
gives the cause. -/
def State.paceStop (s : State) (g : GroupId) (cause : Nat) (chan : Option Nat) : State :=
  let a := s.paceAxis g
  let x := s.axis a
  let dir := s.mot.paces[g].dir
  let dj := s.paceDec a
  let dist := stopDist x.velocity.natAbs dj.1 dj.2 1
  let plan : Int × Int := match s.refPort g with
    | some p =>
      let enc := if s.srcCode p = 3 then some (x.p0, x.e0, s.arf a Off.MOT_ENC 15 0, s.arf a Off.MOT_ENC 31 16) else none
      stopTarget dir x.pos dist (s.port p).ltg.anchor enc
    | none => (x.pos + dir * (ceilRat dist.1 dist.2 : Nat), 0)
  let s0 := if s.mot.paces[g].st = 5 then s.updSplices g (fun z => { z with spoilt := true }) else s
  let s1 := (s0.updAxis a (fun y => { y.start .position (some (s.paceSpeed g)) with target := plan.1 - y.gearOut })).updPace g
    (fun y => { y with line := plan.2, ref := s.refPort g })
  let off := grpOff Off.MOT_GRP_STAT g
  let s2 := ((s1.setPace g 2).setRf 0 off 5 4 cause).setRf 0 off 31 16 ((s.rf 0 off 31 16 + 1) % 65536)
  let s3 := s2.raise (axisSrc a.val 15) [(8, g.val), (8, cause), (8, chan.getD (Config.freeNat 8 s.free % 256))]
  if chan.isNone then s3.tickFree else s3

/-- n_last of a paced port (R305, R311): the planned line of the port for which the stop was planned, the last line ticked of another; after a
stop in LEADER never below the old one. -/
def State.lastOf (s : State) (g : GroupId) (p : PortId) : Int :=
  let x := (s.port p).splice
  let l := (s.port p).ltg
  let n : Int := if s.mot.paces[g].ref = some p then s.mot.paces[g].line else if l.ticked then l.lastLine else l.h
  if x.leader then max x.last n else n

/-- PACE_STOPPED (R305): the axis rests at the target; PRT_SPLICE_LAST shows the last line of each paced port, and of one whose fault is
being classified (R311). -/
def State.paceStopped (s : State) (g : GroupId) : State :=
  let s1 := ((List.finRange 16).filter (s.stopsWith g)).foldl (fun t p =>
    let n := s.lastOf g p
    (t.updPort p (fun x => { x with splice := { x.splice with last := n, again := [] } })).setPair p.val Off.PRT_SPLICE_LAST_LO
      (twos 48 n)) s
  let ref : Int := match s.mot.paces[g].ref with | some p => s.lastOf g p | none => s.mot.paces[g].line
  (s1.setPace g (if s.grpBit g 0 then 3 else 0)).raise (axisSrc (s.paceAxis g).val 16) [(8, g.val), (32, twos 32 ref)]

/-! ### Starts and restarts (R304, R307) -/

/-- The moves of a pacing unit use acceleration, deceleration, jerk and shape of the axis's setup (R303). -/
def State.paceProfile (s : State) (a : AxisId) : State :=
  [(1, Off.MOT_PROF_ACC), (2, Off.MOT_PROF_DEC), (4, Off.MOT_PROF_JERK)].foldl (fun t e => t.setPar a e.1 (t.eff a.val e.2))
    (s.setPar a 5 (s.rf a.val Off.MOT_PROF_CFG 0 0))

/-- The pacing axis accelerates forward towards VRUN; a homing of it ends (R315, R335). -/
def State.paceRun (s : State) (g : GroupId) : State :=
  (s.endHome (s.paceAxis g) 4).updAxis (s.paceAxis g) (fun x => x.start (.velocity s.mot.paces[g].dir) (some (s.paceSpeed g)))

/-- A pacing unit can work: its group is in drive mode, and the pacing axis is a running member that STOP_IN_L does not stop
(R303, R311, R338). -/
def State.paceAble (s : State) (g : GroupId) : Bool :=
  let u := unitOfAxis (s.paceAxis g)
  s.groups[g].drive && (s.unit u).group == some g.val && (s.unit u).st == .running && !s.mot.stopOn

/-- The forward direction of the pacing axis: d of the reference port. -/
def State.forward (s : State) (g : GroupId) : Int :=
  match s.refPort g with
  | some p => let a := (s.port p).ltg.anchor; ratioDir a.num a.den
  | none => 1

/-- An overlap that was left unfinished is given up (R304): what it has not scanned again is not repeated, since the high-water stands at
the last line at least. -/
def State.endOverlap (s : State) (p : PortId) : State :=
  s.updPort p (fun x => { x with
    ltg := { x.ltg with h := (match x.splice.overlapTo with | some o => max x.ltg.h o | none => x.ltg.h) },
    splice := { x.splice with leader := false, spliceDue := false, overlapTo := none } })

/-- A plain start (R304): from IDLE to RUN, no overlap, no flags. -/
def State.plainStart (s : State) (g : GroupId) : State :=
  let s1 := (s.paceProfile (s.paceAxis g)).updPace g (fun y => { y with dir := s.forward g, spoiled := false })
  (((s.groupPorts g).foldl State.endOverlap s1).setPace g 1).paceRun g

/-- A write to MOT_GRPg_CTL (R304, R305): RUN starts an idle unit; what HOLD and RUN stop is planned at the next motion tick. -/
def State.groupCtl (s : State) (g : GroupId) (v : Nat) : State :=
  let s1 := s.setReg 0 (grpOff Off.MOT_GRP_CTL g) (v % 4)
  if bitN v 0 ∧ s.mot.paces[g].st = 0 ∧ s.paceAble g then s1.plainStart g else s1

/-- The restart condition of R307. -/
def State.paceReady (s : State) (g : GroupId) : Bool :=
  s.grpBit g 0 && !s.grpBit g 1 &&
    (s.paceChans g).all (fun p => decide (s.rf p.val Off.PRT_PACE_LW 31 16 ≤ (s.chan (chanOf p 0)).level))

/-- PACE_RESTART (R307): the axis moves back by the leader. -/
def State.paceRestart (s : State) (g : GroupId) : State :=
  let a := s.paceAxis g
  let back : Int := s.mot.paces[g].dir * (s.eff 0 (grpOff Off.MOT_GRP_LEADER g) : Nat)
  let s1 := (s.paceProfile a).updAxis a (fun x => { x.start .position none with target := x.target - back })
  ((s1.updPace g (fun y => { y with spoiled := false })).setPace g 4).raise (axisSrc a.val 17) [(8, g.val)]

/-- The backing move has ended (R307 steps 2 and 3): the high-water of each paced port falls by K, and the axis accelerates forward. -/
def State.paceLeader (s : State) (g : GroupId) : State :=
  let k := s.rf 0 (grpOff Off.MOT_GRP_PACE g) 22 16
  let s1 := (s.pacedPorts g).foldl (fun t p =>
    t.updPort p (fun x => { x with
      ltg := { x.ltg with h := x.splice.last - k },
      splice := { x.splice with overlapTo := some x.splice.last, overlapK := k, spliceDue := true, leader := true,
                                spoilt := x.splice.late, late := false, again := [], seam := none } })) s
  (s1.setPace g 5).paceRun g

/-- In RUN and LEADER the axis runs, or accelerates, to MOT_GRPg_VRUN as it is in force now (R304). -/
def State.paceFollow (s : State) (g : GroupId) : State :=
  let st := s.mot.paces[g].st
  if st = 1 ∨ st = 5 then s.updAxis (s.paceAxis g) (fun x => { x with vmaxMove := some (s.paceSpeed g) }) else s

/-- A pacing unit at a motion tick (R304 to R311). -/
def State.paceTick (s : State) (g : GroupId) : State :=
  let y := s.mot.paces[g]
  if y.st = 0 then s
  else if !s.paceAble g then s.paceIdle g
  else
    let s := s.paceFollow g
    let a := s.paceAxis g
    let x := s.axis a
    match y.st, s.paceCause g with
    | 1, some c => s.paceStop g c.1 c.2
    | 1, none => s
    | 5, some c => s.paceStop g c.1 c.2
    | 5, none =>
      if x.runsAt (speedT (s.paceSpeed g)) y.dir then (s.updSplices g (fun z => { z with leader := false })).setPace g 1 else s
    | 2, _ => if x.atRest then s.paceStopped g else s
    | 3, _ => if !s.grpBit g 0 then s.paceIdle g else if s.paceReady g then s.paceRestart g else s
    | _, c =>
      let s1 := if c.isSome then s.updPace g (fun z => { z with spoiled := true }) else s
      if x.atRest then (if s1.mot.paces[g].spoiled then s1.setPace g 3 else s1.paceLeader g) else s1

/-! ### The motion tick (R19) -/

/-- One axis at a motion tick: a cut first, then its commands, profile and status; captures in gap windows see it come into
position (R179). -/
def State.motionAxis (s : State) (a : AxisId) : State :=
  let s1 := if s.mgt.resetBusy then s else s.takeAxisCut a
  let s2 := s1.axisTick a
  if (s2.axis a).inpos && !(s1.axis a).inpos then s2.gapInpos a else s2

/-- Source 3 of R315 is the highest again: an axis that a UNIT_STOP or a trap stops goes on with that stop. -/
def State.resumeHeld (s : State) : State :=
  (List.finRange 8).foldl (fun t a =>
    match (t.axis a).held with
    | some sdec => t.updAxis a (fun x => x.stopWith sdec)
    | none => t) s

/-- STOP_IN_L begins to count as active (R338): pacing units go to IDLE, every axis releases its gear and stops with SDEC, a homing ends,
and STOP_IN is raised. -/
def State.stopAll (s : State) : State :=
  let s1 := (List.finRange 4).foldl State.paceIdle { s with mot := { s.mot with stopOn := true } }
  ((List.finRange 8).foldl (fun u a => u.axisStop a true) s1).raise (mgtSrc 42) []

/-- The sample of STOP_IN_L at a motion tick (R338): active after two low samples in a row, and no longer after a high one. -/
def State.sampleStop (s : State) : State :=
  let run := if s.mot.stopLow then min (s.mot.stopRun + 1) 2 else 0
  let s1 := { s with mot := { s.mot with stopRun := run } }
  if run = 2 ∧ !s.mot.stopOn then s1.stopAll
  else if run = 0 ∧ s.mot.stopOn then ({ s1 with mot := { s1.mot with stopOn := false } }).resumeHeld
  else s1

/-- The meaning of STOP_IN (R338) at time `t`: STOP_IN_L goes low or high, and reads low while VDDIO20 is out of its range (R407); the motion
ticks sample it. -/
def execStopIn (low : Bool) (t : Nat) (s : State) : Host.Outcome State Fault Refusal :=
  .next ((s.at t).stopPin (low || !s.bankUp 19))

/-- The meaning of MOTION_TICK (R19) at time `t`: STOP_IN_L is sampled, then all axes together, the pacing units, and the axis engines. -/
def execMotionTick (t : Nat) (s : State) : Host.Outcome State Fault Refusal :=
  let s0 := s.at t
  let s1 := { s0 with mot := { s0.mot with ticks := s0.mot.ticks + 1, tickTime := s0.now } }.sampleStop
  let s2 := (List.finRange 8).foldl State.motionAxis s1
  let s3 := (List.finRange 4).foldl State.paceTick s2
  .next ((List.finRange 8).foldl State.axisEngineTick s3)

/-! ### Choppers (R326, R327) -/

/-- The meaning of CHOPPER_SWITCH (R326) at time `t`: `code` is what the comparator of a winding meets. -/
def execChopperSwitch (a : AxisId) (w : Fin 2) (t : Nat) (code : BitVec 12) (s : State) : Host.Outcome State Fault Refusal :=
  let s := s.at t
  .next (s.chop a w (s.windingTarget sineT a w) code.toNat)

/-- The meaning of CHOPPER_ADAPT (R327) at time `t`: `samples` are the ADC's, with their times, since the start of the DRIVE of the chopper
cycle that has ended; MOT_ISENSE shows the last. -/
def execChopperAdapt (a : AxisId) (w : Fin 2) (t : Nat) (samples : List (Nat × BitVec 12)) (s : State) : Host.Outcome State Fault Refusal :=
  let s := s.at t
  let s1 := match samples.getLast? with
    | some e => s.sense a w e.2.toNat
    | none => s
  .next (s1.adapt a w (s1.windingTarget sineT a w) samples)

end Sys2Proof.Machine
end

