-- ==== Sys2Proof/Machine/Setup.lean ====
section
/-! DEFINITION. Setups, commits, starts, stops and cuts as admin commands (spec/01, R22 to R30; spec/03, R86 to R95; spec/11, R303,
R306; spec/15, R375). -/

namespace Sys2Proof.Machine

/-- The unit that a command on a port or an axis names. -/
def subUnit (y : Submission) : UnitId := uid (if y.kind = 1 then y.unit else 16 + y.unit)

/-- The cut group that a command names. -/
def subGroup (y : Submission) : GroupId := ⟨y.unit % 4, Nat.mod_lt _ (by decide)⟩

/-- The port of a unit below 16. -/
def unitPort (u : UnitId) : PortId := ⟨u.val % 16, Nat.mod_lt _ (by decide)⟩

/-- Slot `k` of a unit. -/
def State.slotOf (s : State) (u : UnitId) (k : Nat) : Slot := (s.unit u).slots[k % 8]'(Nat.mod_lt _ (by decide))

/-- Changes slot `k` of a unit. -/
def State.setSlot (s : State) (u : UnitId) (k : Nat) (x : Slot) : State :=
  s.updUnit u (fun y => { y with slots := y.slots.set (k % 8) x (Nat.mod_lt _ (by decide)) })

/-- The engines of a unit, in the order of R79. -/
def unitEngs (u : UnitId) : List EngId := if u.val < 16 then [gateEng (unitPort u), pipeEng (unitPort u)] else [axisEng (axisOfUnit u)]

/-! ### ZSO objects (R90 to R95) -/

/-- A section table entry (Table 3.13). -/
structure Sect where
  type : Nat
  eng : Nat
  rsvd : Nat
  off : Nat
  len : Nat
  value : Nat
  deriving DecidableEq, Repr

/-- The section table of an object. -/
def zsoSects (d : List Byte) : List Sect :=
  (List.range (leAt d 6 1)).map (fun i =>
    let o := 0x40 + 16 * i
    { type := leAt d o 1, eng := leAt d (o + 1) 1, rsvd := leAt d (o + 2) 2, off := leAt d (o + 4) 4, len := leAt d (o + 8) 4,
      value := leAt d (o + 12) 4 })

/-- The bytes of a section. -/
def Sect.bytes (x : Sect) (d : List Byte) : List Byte := (d.drop x.off).take x.len

/-- The section of a type for an engine. -/
def sectOf (xs : List Sect) (type eng : Nat) : Option Sect := xs.find? (fun x => x.type == type && x.eng == eng)

/-- The engine codes of a unit kind (R91): 1 a port, 2 an axis. -/
def kindEngs (kind : Nat) : List Nat := if kind = 1 then [0, 1] else [2]

/-- The multiple that a section's length must be of (Table 3.14); BUDGET has no contents. -/
def lenUnit (type : Nat) : Nat :=
  match type with
  | 1 | 4 => 8 | 3 | 5 => 4 | 6 => 2 | _ => 1

/-- Code is relocatable. -/
def zsoReloc (d : List Byte) : Bool := leAt d 4 1 == 2 && bitN (leAt d 7 1) 0

/-- The records of a RELOC section. -/
def relocs (xs : List Sect) (d : List Byte) (eng : Nat) : List Nat :=
  match sectOf xs 5 eng with
  | some x => (chunks 4 (x.bytes d)).map leNat
  | none => []

/-- The instruction words of a CODE section. -/
def codeWords (xs : List Sect) (d : List Byte) (eng : Nat) : List Nat :=
  match sectOf xs 1 eng with
  | some x => (chunks 8 (x.bytes d)).map leNat
  | none => []

/-- An instruction word with the value of a RELOC record's field replaced (R93): field 0 is imm 15:0, field 1 imm 31:16. -/
def relocField (w r : Nat) : Nat := fld w (16 * fld r 16 16 + 15) (16 * fld r 16 16)

/-- One record of a RELOC section adds `base` modulo 2^16 to its field (R93). -/
def relocOne (base : Nat) (ws : List Nat) (r : Nat) : List Nat :=
  let i := r % 65536
  let w := ws.getD i 0
  let lo := 16 * fld r 16 16
  ws.set i (setFld w (lo + 15) lo (relocField w r + base))

/-- The region base that a load would use for an engine (R87), `free` saying whether the instructions from `b` on have room for
the section. A relocatable section goes to its preferred address, else to the lowest with room. -/
def placeAt (reloc : Bool) (addr size n : Nat) (free : Nat → Bool) : Option Nat :=
  let ok (b : Nat) := decide (b + n ≤ size) && free b
  if !reloc then (if ok addr then some addr else none)
  else if addr ≠ 0xFFFF ∧ ok addr then some addr
  else (List.range (size + 1)).find? ok

/-- No region of another slot meets the `n` instructions from `b` on. -/
def State.regionFree (s : State) (u : UnitId) (e : EngId) (k n b : Nat) : Bool :=
  (List.range 8).all (fun j =>
    let g := s.slotProg e j
    j == k || !(s.slotOf u j).isLoaded || decide (b + n ≤ g.base) || decide (g.base + g.len ≤ b))

/-- Where a load into slot `k` places the code of engine `e` (R87). -/
def State.placement (s : State) (u : UnitId) (e : EngId) (k : Nat) (xs : List Sect) (d : List Byte) : Option Nat :=
  let n := (codeWords xs d (engKind e)).length
  placeAt (zsoReloc d) (match sectOf xs 1 (engKind e) with | some x => fld x.value 15 0 | none => 0) (imemSize (engKind e)) n
    (s.regionFree u e k n)

/-- The checks of Table 3.16 in code order; `base` is the region base that would be placed, its preferred address where no region has room:
the placement itself is tried only after every check (R95). -/
def zsoChecks (d : List Byte) (kind len : Nat) (base : Nat → Nat) (hasCut : Nat → Bool) : List (Nat × Bool) :=
  let ver := leAt d 4 1
  let xs := zsoSects d
  let count := leAt d 6 1
  let table := 0x40 + 16 * count
  let engs := kindEngs kind
  let spans := xs.filter (fun x => x.len != 0)
  let size (e : Nat) : Nat := imemSize e
  [(0x01, leAt d 0 4 != 0x004F535A || (ver != 1 && ver != 2)),
   (0x02, crc32c (d.take 12 ++ List.replicate 4 0 ++ d.drop 16) != leAt d 12 4),
   (0x03, leAt d 5 1 != kind || leAt d 8 4 != len),
   (0x04, count == 0 || decide (12 < count) || decide (d.length < table) ||
     xs.any (fun x => x.rsvd != 0 || (if x.type = 4 then x.eng != 0 else !engs.contains x.eng) || x.off % 8 != 0 ||
       decide (x.off < table) || decide (d.length < x.off + x.len) || x.len % lenUnit x.type != 0 || (x.type == 2 && x.len != 0)) ||
     !spans.Pairwise (fun x y => x.off + x.len ≤ y.off ∨ y.off + y.len ≤ x.off)),
   (0x05, !((xs.map (fun x => (x.type, x.eng))).Nodup : Bool) ||
     engs.any (fun e => (sectOf xs 1 e).isNone || (sectOf xs 2 e).isNone)),
   (0x06, xs.any (fun x => (x.type == 1 && decide (8 * size x.eng < x.len)) || (x.type == 3 && decide (16384 < x.len)))),
   (0x07, xs.any (fun x => x.type == 0 || (decide (7 ≤ x.type) && decide (x.type < 0x80)) ||
     (ver == 1 && (x.type == 5 || x.type == 6 || decide (0x80 ≤ x.type))) ||
     (x.type == 1 && !zsoReloc d && fld x.value 15 0 == 0xFFFF))),
   (0x08, fld (leAt d 7 1) 7 1 != 0 || (ver == 1 && bitN (leAt d 7 1) 0) || ((d.drop 0x1C).take 36).any (fun b => b != 0)),
   (0x09, engs.any (fun e =>
     let ws := codeWords xs d e
     (relocs xs d e).any (fun r => decide (ws.length ≤ r % 65536) || decide (r / 65536 % 4 > 1) || r / 2 ^ 18 != 0) ||
     (let out := (relocs xs d e).foldl (relocOne (base e)) ws
      (relocs xs d e).any (fun r => decide (size e ≤ relocField (out.getD (r % 65536) 0) r))))),
   (0x0A, engs.any (fun e => match sectOf xs 1 e with
     | some x => decide ((codeWords xs d e).length ≤ x.value / 65536)
     | none => false)),
   (0x0B, xs.any (fun x => x.type == 4 && (chunks 8 (x.bytes d)).any (fun r => !hasCut (leAt r 0 4))))]

/-- The address that a CODE section prefers (Table 3.14). -/
def prefBase (xs : List Sect) (c : Nat) : Nat := match sectOf xs 1 c with | some x => fld x.value 15 0 | none => 0

/-- The lowest failing check of an object, 0 if none. -/
def firstFail (xs : List (Nat × Bool)) : Nat :=
  match xs.find? (fun e => e.2) with
  | some e => e.1
  | none => 0

/-- The program that a load puts into a slot for engine code `e`, placed at `base` (R93). -/
def zsoProg (xs : List Sect) (d : List Byte) (e base : Nat) : Prog :=
  let val (t : Nat) : Nat := match sectOf xs t e with | some x => x.value | none => 0
  { base := base, len := (codeWords xs d e).length, entry := (val 1 / 65536 + base) % 65536, declared := val 2, version := leAt d 4 1,
    jump := match sectOf xs 6 e with
      | some x => (chunks 2 (x.bytes d)).map (fun b => (leNat b + base) % 65536)
      | none => [] }

/-- The memories of an engine with slot `k` freed (R87): its region reads 0, its parameter memory is zeroed. -/
def Eng.freeSlot (x : Eng) (g : Prog) (k : Nat) : Eng :=
  { x with imem := mdrop (fun i => decide (g.base ≤ i) && decide (i < g.base + g.len)) x.imem,
           param := mdrop (fun i => decide (4096 * k ≤ i) && decide (i < 4096 * k + 4096)) x.param }

/-- The memories of an engine with slot `k` loaded from words at `base` and a parameter image (Table 3.14). -/
def Eng.loadSlot (x : Eng) (k base : Nat) (ws : List Nat) (image : List Nat) : Eng :=
  { x with
    imem := ws.zipIdx.foldl (fun m e => mput (fun _ => 0) (base + e.2) (BitVec.ofNat 64 e.1) m) x.imem,
    param := image.zipIdx.foldl (fun m e => mput (fun _ => 0) (4096 * k + e.2) (BitVec.ofNat 32 e.1) m) x.param }

/-- The slot's region in engine `e` is freed, if it is loaded. -/
def State.freeRegion (s : State) (u : UnitId) (e : EngId) (k : Nat) : State :=
  s.updEng e (fun x => x.freeSlot (if (s.slotOf u k).isLoaded then s.slotProg e k else Prog.empty) k)

/-- SETUP_LOAD's effect (R87, R93): the object that every check accepted. -/
def State.loadSetup (s : State) (u : UnitId) (k : Nat) (d : List Byte) (bases : Nat → Nat) : State :=
  let xs := zsoSects d
  let s1 := (unitEngs u).foldl (fun t e =>
    let c := engKind e
    let image := match sectOf xs 3 c with | some x => (chunks 4 (x.bytes d)).map leNat | none => []
    let ws := (relocs xs d c).foldl (relocOne (bases c)) (codeWords xs d c)
    (t.freeRegion u e k).updEng e (fun x => x.loadSlot k (bases c) ws image)) s
  let settings := match sectOf xs 4 0 with
    | some x => (chunks 8 (x.bytes d)).map (fun r => (leAt r 0 4, BitVec.ofNat 32 (leAt r 4 4)))
    | none => []
  let build := leAt d 0x18 4
  let c0 := if u.val < 16 then 0 else 2
  let s2 := s1.setSlot u k
    { isLoaded := true, isVerified := false, tool := BitVec.ofNat 32 (leAt d 0x10 4), build := BitVec.ofNat 32 build,
      prog0 := zsoProg xs d c0 (bases c0), prog1 := if u.val < 16 then zsoProg xs d 1 (bases 1) else Prog.empty, settings := settings }
  let s3 := if (s.unit u).st = .off then s2.setUState u .loaded 0 else s2
  s3.raise (if u.val < 16 then portSrc u.val 32 else axisSrc (u.val - 16) 18) [(8, k), (32, build)]

/-- The meaning of SETUP_LOAD (R86, R87, R95). `data` is the object as read from the host buffer. -/
def execSetupLoad (c : CtxId) (y : Submission) (data : List Byte) (s : State) : Host.Outcome State Fault Refusal :=
  let u := subUnit y
  let k := y.slot
  let xs := zsoSects data
  let place (e : Nat) : Option Nat := match (unitEngs u).find? (fun x => engKind x == e) with
    | some x => s.placement u x k xs data
    | none => none
  let bad := firstFail (zsoChecks data y.kind y.len.toNat (fun e => (place e).getD (prefBase xs e)) (cutOffsets (decide (y.kind = 1))).contains)
  .next (s.admin c { op := 0x08, since := 0x20, kinds := [1, 2], slotted := true, args := [] } y
    [refuseIf (!unitRight s.ctxs[c] y) stDenied 0,
     refuseIf (s.counts u k) stConflict 0,
     if bad = 0 then none else some { status := stBadArg, r0 := 0, r1 := bad, detail := 0 },
     refuseIf ((kindEngs y.kind).any (fun e => (place e).isNone)) stBusy 0]
    (fun t => ((t.hostRead y.addr.toNat y.len.toNat).loadSetup u k data (fun e => (place e).getD 0), okRes (leAt data 8 4) 0)))

/-- The meaning of SETUP_CLEAR (R87, Table 15.2 cause 1). -/
def execSetupClear (c : CtxId) (y : Submission) (s : State) : Host.Outcome State Fault Refusal :=
  let u := subUnit y
  let k := y.slot
  .next (s.admin c { op := 0x0A, since := 0x20, kinds := [1, 2], slotted := true, args := [] } y
    [refuseIf (!unitRight s.ctxs[c] y) stDenied 0,
     refuseIf (s.counts u k) stConflict 0,
     refuseIf (!(s.slotOf u k).isLoaded) stNotFound 0]
    (fun t =>
      let t1 := ((unitEngs u).foldl (fun t e => t.freeRegion u e k) t).setSlot u k Slot.empty
      let last := (List.range 8).all (fun j => !(t1.slotOf u j).isLoaded)
      let st := (t1.unit u).st
      (if last && (st == .loaded || st == .halted) then t1.setUState u .off 1 else t1, okRes 0 0)))

/-! ### Checks of starts, commits and arms -/

/-- The value of a unit's register once setup `k` had taken effect (R92). -/
def State.fut (s : State) (u : UnitId) (k off : Nat) : Nat := s.futureCut u k (unitIndex u) off

/-- R128: with the head VALID, every enabled input's range lies in the descriptor's mask; `enable` is PRT_FE_EN, whose pair bits
have the odd input's enable ignored (R136). -/
def State.rangesOk (s : State) (p : PortId) (enable : Nat) (range : Nat → Nat) : Bool :=
  s.rf p.val Off.PRT_HEAD_STAT 1 0 != 2 ||
    (List.range 16).all (fun t => !bitN enable t || (t % 2 == 1 && bitN enable (16 + t / 2)) || bitN (leAt (s.port p).head.desc 0x0C 1) (range t))

/-- R105: the head suits the setup. -/
def State.headOk (s : State) (p : PortId) (req prog pmin : Nat) : Bool :=
  let d := (s.port p).head.desc
  s.rf p.val Off.PRT_HEAD_STAT 1 0 == 2 && leAt d 6 2 == fld req 16 0 && leAt d 8 1 == fld req 19 17 && leAt d 0x0A 1 == fld req 28 24 &&
    (prog == 0 || prog == leAt d 0x10 4) && decide (leAt d 0x0E 2 * 1000 ≤ pmin)

/-- The range code of input `t` when a setup takes effect: its PRT_RSET value, and, of a port that does not run, on top a committed PRT_RANGE
value that waits for the first line tick (R125, R128); the commit of one that runs comes before the cut. `f` gives the setup's registers. -/
def State.startRange (s : State) (p : PortId) (f : Nat → Nat) (t : Nat) : Nat :=
  let lo := 4 * (t % 8)
  let c := s.cell p.val (if t < 8 then Off.PRT_RANGE_A else Off.PRT_RANGE_B)
  if (s.unit (unitOfPort p)).st ≠ .running ∧ fld c.cmt.toNat (lo + 2) lo ≠ 0 then fld c.cmtVal.toNat (lo + 2) lo
  else fld (f (if t < 8 then Off.PRT_RSET_A else Off.PRT_RSET_B)) (lo + 2) lo

/-- A slot that a start or a cut arm names is refused (R88, R105, R128, R188, R287, R293, R296, PRT_LTG_PMIN). -/
def State.slotRefused (s : State) (u : UnitId) (k : Nat) : Bool :=
  !(s.slotOf u k).isVerified ||
    (if u.val < 16 then
      let p := unitPort u
      let f (off : Nat) : Nat := s.fut u k off
      let cfg := f Off.PRT_LTG_CFG
      let pmin := f Off.PRT_LTG_PMIN
      let req := f Off.PRT_HEAD_REQ
      let range := s.startRange p f
      (bitN req 31 && (!s.headOk p req (f Off.PRT_HEAD_PROG) pmin || !s.rangesOk p (f Off.PRT_FE_EN) range)) ||
        !s.gatherOk (s.eng (pipeEng p)) k (s.slotOf u k).prog1 || decide (6 ≤ fld cfg 2 0) || decide (pmin < 250000) ||
        decide (fld cfg 31 16 * 100000 < pmin) || !ratioOk (sgn 32 (f Off.PRT_GEAR_NUMS)) (sgn 32 (f Off.PRT_GEAR_DENS))
    else false)

/-- R81: the declared worst cases of a setup fit the cycles available. -/
def State.cyclesOk (s : State) (u : UnitId) (k pmin : Nat) : Bool :=
  (unitEngs u).all (fun e => decide ((s.slotProg e k).declared ≤ cyclesAvail (engKind e) pmin))

/-- A bandwidth plan in which the units of a list take the setups named (R22). -/
def State.plansWith (s : State) (take : List (UnitId × Nat)) (p : PortId) : PortPlan :=
  match take.find? (fun e => e.1 == unitOfPort p) with
  | some e => s.planWith p e.2
  | none => s.plan p

/-- R306 for a drive-mode group whose registers would hold `grp` and its members' `reg`, `ratio` being the ports' gear ratios:
the ports whose pacing channel has RESUME not above LOW, whether a leader is shorter than K + 1 lines, and whether every stop
fits its low-water mark. -/
def State.paceCheck (s : State) (g : GroupId) (grp : Nat → Nat) (reg : UnitId → Nat → Nat) (ratio : PortId → Int × Int) :
    List PortId × Bool × Bool :=
  let a : AxisId := ⟨fld (grp Off.MOT_GRP_PACE) 2 0 % 8, Nat.mod_lt _ (by decide)⟩
  let ax (off : Nat) : Nat := reg (unitOfAxis a) off
  let v := parRange 0 (grp Off.MOT_GRP_VRUN)
  let jj := if bitN (ax Off.MOT_PROF_CFG) 0 then parRange 4 (ax Off.MOT_PROF_JERK) else 0
  let chans := (List.finRange 16).filter (fun p =>
    let cfg := reg (unitOfPort p) Off.PRT_LTG_CFG
    (s.unit (unitOfPort p)).group == some g.val && (fld cfg 2 0 == 3 || fld cfg 2 0 == 4) && fld cfg 6 4 == a.val &&
      bitN (reg (unitOfPort p) Off.PRT_PACE) 31 && (s.chan (chanOf p 0)).st == 1)
  let e (p : PortId) : Nat × Nat :=
    if fld (reg (unitOfPort p) Off.PRT_LTG_CFG) 2 0 = 3 then (fld (ax Off.MOT_ENC) 15 0, max 1 (fld (ax Off.MOT_ENC) 31 16)) else (1, 1)
  let lw (p : PortId) : Nat := reg (unitOfPort p) Off.PRT_PACE_LW
  (chans.filter (fun p => decide (fld (lw p) 31 16 ≤ fld (lw p) 15 0)),
   chans.any (fun p => decide (leaderLines (grp Off.MOT_GRP_LEADER) (e p).1 (e p).2 (ratio p).1 (ratio p).2 <
     fld (grp Off.MOT_GRP_PACE) 22 16 + 1)),
   chans.all (fun p => decide (stopLines v (parRange 2 (ax Off.MOT_PROF_DEC)) jj (e p).1 (e p).2 (ratio p).1 (ratio p).2 <
     fld (lw p) 15 0 * max 1 (fld (reg (unitOfPort p) Off.PRT_PACE) 27 16))))

/-- The gear ratio of a port in force. -/
def State.ratioNow (s : State) (p : PortId) : Int × Int := ((s.port p).ltg.num, (s.port p).ltg.den)

/-- R306 for the group of a unit that starts or commits, if it is in drive mode: `take` names the setup that a unit starts. -/
def State.paceUnit (s : State) (u : UnitId) (take : Option Nat) (ratio : PortId → Int × Int) : List PortId × Bool × Bool :=
  match (s.unit u).group with
  | some g =>
    let g : GroupId := ⟨g % 4, Nat.mod_lt _ (by decide)⟩
    if s.groups[g].drive then
      s.paceCheck g (fun off => s.eff 0 (off + 0x40 * g.val))
        (fun w off => match take with
          | some k => if w = u then s.fut u k off else s.eff (unitIndex w) off
          | none => s.eff (unitIndex w) off) ratio
    else ([], false, true)
  | none => ([], false, true)

/-- The ratio that a setup's registers would give a port. -/
def State.futRatio (s : State) (p : PortId) (k : Nat) : Int × Int :=
  (sgn 32 (s.fut (unitOfPort p) k Off.PRT_GEAR_NUMS), sgn 32 (s.fut (unitOfPort p) k Off.PRT_GEAR_DENS))

/-! ### COMMIT (R6, R23) -/

/-- The ratio that a commit would put in force (R297, R427). -/
def State.commitRatio (s : State) (p : PortId) : Int × Int :=
  let c (off : Nat) := s.cell p.val off
  let l := (s.port p).ltg
  let pick (off : Nat) (now : Int) : Int :=
    if (c off).stg ≠ 0 then (c off).val.toInt else if (c off).cmt ≠ 0 then (c off).cmtVal.toInt else now
  (pick Off.PRT_GEAR_NUM l.num, pick Off.PRT_GEAR_DEN l.den)

/-- The range code that a commit would put in force for an input (R128). -/
def State.commitRange (s : State) (p : PortId) (t : Nat) : Nat :=
  let c := s.cell p.val (if t < 8 then Off.PRT_RANGE_A else Off.PRT_RANGE_B)
  let now := s.eff p.val (if t < 8 then Off.PRT_RANGE_NOW_A else Off.PRT_RANGE_NOW_B)
  let lo := 4 * (t % 8)
  if fld c.stg.toNat (lo + 2) lo ≠ 0 then fld c.val.toNat (lo + 2) lo
  else if fld c.cmt.toNat (lo + 2) lo ≠ 0 then fld c.cmtVal.toNat (lo + 2) lo
  else fld now (lo + 2) lo

/-- Staged STG values of a port are committed: they wait for its next line tick (R6, R7). -/
def State.commitPort (s : State) (p : PortId) : State :=
  stgOffsets.foldl (fun t off =>
    let c := t.cell p.val off
    if c.stg = 0 then t
    else t.setCell p.val off
      { c with cmt := c.cmt ||| c.stg, cmtVal := (c.cmtVal &&& ~~~c.stg) ||| (c.val &&& c.stg), stg := 0 }) s

/-- The meaning of COMMIT (R6, R22, R23, R81, R128, R296, R298, R306). -/
def execCommit (c : CtxId) (y : Submission) (s : State) : Host.Outcome State Fault Refusal :=
  let u := subUnit y
  let p := unitPort u
  let port := decide (u.val < 16)
  let x := s.unit u
  let r := s.commitRatio p
  let l := (s.port p).ltg
  let pace := s.paceUnit u none (fun q => if port ∧ q = p then r else s.ratioNow q)
  let runs := x.st == .running || x.st == .draining
  .next (s.admin c { op := 0x0B, since := 0x20, kinds := [1, 2], slotted := false, args := [] } y
    [refuseIf (!unitRight s.ctxs[c] y) stDenied 0,
     refuseIf (x.st == .faulted || x.st == .wedged) stConflict 0,
     refuseIf (port && (!ratioOk r.1 r.2 || (x.st == .running && ratioDir r.1 r.2 != ratioDir l.num l.den) ||
       (bitN (s.eff p.val Off.PRT_HEAD_REQ) 31 && !s.rangesOk p (s.eff p.val Off.PRT_FE_EN) (s.commitRange p)))) stBadArg 0,
     refuseIf (!pace.1.isEmpty || pace.2.1) stBadArg 0,
     refuseIf ((runs && !s.cyclesOk u (x.current.getD 0) (if port then s.pmin p else 0)) || !s.bandwidthOk s.plan || !pace.2.2)
       stBudget 0]
    (fun t => (if port then t.commitPort p else t, okRes 0 0)))

/-! ### UNIT_START (R89) -/

/-- The registers of the LTG that act at a start, before the first tick that they bring about (R288 to R290, log entry 198). -/
def ltgEarly : List Nat := [Off.PRT_LTG_CFG, Off.PRT_LTG_PMIN, Off.PRT_GEAR_NUMS, Off.PRT_GEAR_DENS]

/-- A port starts setup `k` (R7, R89, R290, Tables 3.2 and 6.1): line 0 is issued at once for sources 0 to 4; the setup's CUT values wait for
the first tick. -/
def State.startPort (s : State) (p : PortId) (k : Nat) : State :=
  let u := unitOfPort p
  let n := p.val
  let s1 := (s.stageCut u k).applyDue u ltgEarly.contains
  let s2 := s1.updUnit u (fun x => ({ x with current := some k, committed := some k, haltNext := false }).sync)
  let s3 := (((s2.setRf n Off.PIP_CAL 11 10 0).setRf n Off.PIP_DRIFT_STAT 3 0 0).startEngine (gateEng p) k true).startEngine (pipeEng p) k true
  let s4 := s3.updPort p (fun x => { x with
    cap := none, prc := none, emi := none, cuts := 0, gap := none, due := Vector.replicate 4 [],
    lostBase := x.lostBase + (x.lostRec.map (fun e => e.2)).sum, lostRec := [],
    head := { x.head with gone := false },
    splice := { late := s3.paceBusy u, last := 0, overlapTo := none, overlapK := 0, spliceDue := false, leader := false, spoilt := false,
                kept := [], again := [], seam := none },
    pipe := { x.pipe.restartDrift with
      wl := Vector.replicate 4 [], accs := Vector.replicate 2 { a := [], cnt := 0 }, lastEmit := [], queued := [], stall := none, staged := 0 } })
  let src := s4.srcCode p
  let r := s4.setupRatio p
  let s5 := s4.updLtg p (fun x => { x with t0 := s4.now, hostTicks := 0 })
  let s6 := s5.updLtg p (fun x => { x with
    sA := if src = 5 then 1 else s5.srcCount p, kA := 0, rA := 0, num := r.1, den := r.2, h := -1, drains := 0, ticked := false,
    held := none, behind := false, past := [], gridFrom := 0 })
  let s7 := (s6.setReg n Off.PRT_GEAR_NOW_NUM (twos 32 r.1)).setReg n Off.PRT_GEAR_NOW_DEN (twos 32 r.2)
  let s8 := s7.setPortState p .running 4
  if src < 5 then s8.lineTick p 0 else s8

/-- An axis starts setup `k`: its engine takes the next motion tick, at which the setup's CUT values come into force (R7); the motion hardware
stays as it stands (R337). -/
def State.startAxis (s : State) (a : AxisId) (k : Nat) : State :=
  let u := unitOfAxis a
  let s1 := (s.stageCut u k).updUnit u (fun x => ({ x with current := some k, committed := some k, haltNext := false }).sync)
  let s2 := (s1.startEngine (axisEng a) k true).updEng (axisEng a) (fun e => { e with line := 0, cutFlag := false })
  (s2.updAxis a (fun x => { x with held := none })).setUState u .running 4

/-- The setup that UNIT_START arg0 names, or none: 0xF is the committed setup (R89). -/
def State.startSlot (s : State) (u : UnitId) (arg : Nat) : Option Nat :=
  if arg < 8 then some arg else if arg = 0xF then (s.unit u).committed else none

/-- The meaning of UNIT_START (R89, R105, R128, R188, R290, R306, R402). -/
def execUnitStart (c : CtxId) (y : Submission) (s : State) : Host.Outcome State Fault Refusal :=
  let u := subUnit y
  let p := unitPort u
  let port := decide (u.val < 16)
  let st := (s.unit u).st
  let slot := s.startSlot u (y.arg 0)
  let k := slot.getD 0
  let pace := s.paceUnit u (some k) (fun q => if port ∧ q = p then s.futRatio q k else s.ratioNow q)
  .next (s.admin c { op := 0x0C, since := 0x20, kinds := [1, 2], slotted := false, args := [0] } y
    [refuseIf (!unitRight s.ctxs[c] y) stDenied 0,
     refuseIf (!(st == .loaded || st == .armed || st == .halted) || (port && !s.pllLock p)) stConflict 0,
     refuseIf (slot.isNone || s.slotRefused u k) stBadArg 1,
     refuseIf (!pace.1.isEmpty) stBadArg 1,
     refuseIf pace.2.1 stBadArg 0,
     refuseIf (!s.cyclesOk u k (if port then s.fut u k Off.PRT_LTG_PMIN else 0) || !s.bandwidthOk (s.plansWith [(u, k)]) ||
       !pace.2.2) stBudget 0]
    (fun t => (if port then t.startPort p k else t.startAxis (axisOfUnit u) k, okRes 0 0)))

/-! ### UNIT_STOP (R375, R337) -/

/-- The meaning of UNIT_STOP: arg0 0 drains, 1 halts at the next tick; an armed gear change is cleared (R300). -/
def execUnitStop (c : CtxId) (y : Submission) (s : State) : Host.Outcome State Fault Refusal :=
  let u := subUnit y
  let st := (s.unit u).st
  let live := st == .running || st == .draining
  .next (s.admin c { op := 0x0D, since := 0x20, kinds := [1, 2], slotted := false, args := [0] } y
    [refuseIf (!unitRight s.ctxs[c] y) stDenied 0,
     refuseIf (st == .off || st == .halted) stConflict 0,
     refuseIf (1 < y.arg 0) stBadArg 1]
    (fun t =>
      let t1 := if u.val < 16 then t.clearGearArm (unitPort u) else t
      if y.arg 0 = 0 then (t1.drainUnit u, okRes 0 0)
      else if !live then (t1, okRes 0 0)
      else if u.val < 16 then (t1.updUnit u (fun x => { x with haltNext := true }), okRes 0 0)
      else ((t1.axisHold (axisOfUnit u) true).paceLeave (axisOfUnit u), okRes 0 0)))

/-! ### Cut groups (R25 to R30) -/

/-- A context holds the write right on every unit of a list. -/
def Ctx.units (x : Ctx) (us : List UnitId) : Bool :=
  us.all (fun u => if u.val < 16 then x.port u.val true else x.axis (u.val - 16) true)

/-- The units of a port mask and an axis mask. -/
def maskUnits (ports axes : Nat) : List UnitId :=
  (List.finRange 24).filter (fun u => if u.val < 16 then bitN ports u.val else bitN axes (u.val - 16))

/-- The meaning of CUT_GROUP (R25, R30): the group holds exactly the units named, and its web mode is staged. -/
def execCutGroup (c : CtxId) (y : Submission) (s : State) : Host.Outcome State Fault Refusal :=
  let g := subGroup y
  let named := maskUnits (y.arg 0) (y.arg 1)
  let busy := (List.finRange 4).any (fun h => s.groups[h].armed.isSome &&
    (h == g || named.any (fun u => (s.unit u).group == some h.val)))
  .next (s.admin c { op := 0x10, since := 0x20, kinds := [3], slotted := false, args := [0, 1, 2] } y
    [refuseIf (!s.ctxs[c].units (named ++ s.members g.val)) stDenied 0,
     refuseIf (2 ^ 16 ≤ y.arg 0) stBadArg 1,
     refuseIf (2 ^ 8 ≤ y.arg 1) stBadArg 2,
     refuseIf (1 < y.arg 2) stBadArg 3,
     refuseIf busy stBusy 0]
    (fun t =>
      let t1 := (List.finRange 24).foldl (fun t u =>
        if named.contains u then t.updUnit u (fun x => { x with group := some g.val })
        else t.updUnit u (fun x => { x with group := if x.group = some g.val then none else x.group })) t
      (t1.updGroup g (fun x => { x with driveNext := some (y.arg 2 == 1) }), okRes 0 0)))

/-- The index of the argument that names the slot of a unit, plus 1 (R49, Table 2.7). -/
def slotArg (u : UnitId) : Nat := if u.val < 8 then 5 else if u.val < 16 then 6 else 7

/-- The slot that a CUT_ARM names for a member; 0xF is its committed setup. -/
def State.armSlot (s : State) (y : Submission) (u : UnitId) : Option Nat :=
  let f := fld (y.arg (slotArg u - 1)) (4 * (u.val % 8) + 3) (4 * (u.val % 8))
  s.startSlot u f

/-- The registers of a cut group that a cut puts in force. -/
def State.grpFuture (s : State) (g : GroupId) (off : Nat) : Nat :=
  let c := s.cell 0 (off + 0x40 * g.val)
  ((c.force &&& ~~~c.cut) ||| (c.val &&& c.cut)).toNat

/-- The lowest slot argument of the members that satisfy `bad`: a refusal that names it. -/
def slotBad (ms : List UnitId) (bad : UnitId → Bool) : Option AdmRes :=
  (ms.find? bad).map (fun u => refuse stBadArg (slotArg u))

/-- CUT_ARM's effect: every member waits for the trigger; those that do not run are ARMED (Table 15.2 cause 2). -/
def State.armCut (s : State) (g : GroupId) (kind ref : Nat) (value : Int) (take : List (UnitId × Nat)) : State :=
  let s1 := s.updGroup g (fun x => { x with armed := some (kind, ref, value), left := [] })
  take.foldl (fun t e =>
    let t1 := t.updUnit e.1 (fun x =>
      ({ x with cut := some { group := g.val, kind := kind, ref := ref, value := value, slot := e.2, reached := false } }).sync)
    if (t1.unit e.1).st = .loaded ∨ (t1.unit e.1).st = .halted then t1.setUState e.1 .armed 2 else t1) s1

/-- The meaning of CUT_ARM (R27 to R29, R81, R82, R177, R298, R299, R303, R306). -/
def execCutArm (c : CtxId) (y : Submission) (s : State) : Host.Outcome State Fault Refusal :=
  let g := subGroup y
  let ms := s.members g.val
  let kind := y.arg 0
  let ref := y.arg 1
  let value : Int := if kind = 0 then y.arg64 2 else sgn 48 (y.arg64 2)
  let k (u : UnitId) : Nat := (s.armSlot y u).getD 0
  let take := ms.map (fun u => (u, k u))
  let st (u : UnitId) : UState := (s.unit u).st
  let writing (u : UnitId) : Bool := decide (u.val < 16) && (s.armSlot y u).isSome &&
    (let sel := s.fut u (k u) Off.PIP_TBLSEL
     s.computing (unitPort u) 0 (fld sel 0 0) || s.computing (unitPort u) 1 (fld sel 1 1))
  let reverse (u : UnitId) : Bool := decide (u.val < 16) && st u == .running &&
    (let r := s.futRatio (unitPort u) (k u)
     let l := (s.port (unitPort u)).ltg
     ratioDir r.1 r.2 != ratioDir l.num l.den)
  let drive := (s.groups[g].driveNext).getD s.groups[g].drive
  let grp := s.grpFuture g
  let paceAx : UnitId := unitOfAxis ⟨fld (grp Off.MOT_GRP_PACE) 2 0 % 8, Nat.mod_lt _ (by decide)⟩
  let pace := if drive then
      s.paceCheck g grp (fun w off => if ms.contains w then s.fut w (k w) off else s.eff (unitIndex w) off)
        (fun p => s.futRatio p (k (unitOfPort p)))
    else ([], false, true)
  let kk := fld (grp Off.MOT_GRP_PACE) 22 16
  let pmin (u : UnitId) : Nat := s.fut u (k u) Off.PRT_LTG_PMIN
  .next (s.admin c { op := 0x11, since := 0x20, kinds := [3], slotted := false, args := [0, 1, 2, 3, 4, 5, 6] } y
    [refuseIf (!s.ctxs[c].units ms) stDenied 0,
     refuseIf ((kind == 1 || kind == 2) && decide (s.ctxs[c].zhp < 0x30)) stVersion 1,
     refuseIf (ms.any (fun u => !(st u == .running || st u == .loaded || st u == .halted || st u == .armed) || writing u)) stConflict 0,
     refuseIf (2 < kind) stBadArg 1,
     refuseIf (kind == 0 && !(decide (ref < 16) && ms.contains (uid ref) && st (uid ref) == .running)) stBadArg 2,
     refuseIf (kind == 0 && decide (value ≤ (s.port (unitPort (uid ref))).ltg.h)) stBadArg 3,
     refuseIf (kind != 0 && decide (sext48 (value - s.master (kind - 1)) ≤ 0)) stBadArg 3,
     refuseIf (kind == 0 && decide (2 ^ 48 ≤ y.arg64 2)) stBadArg 4,
     slotBad ms (fun u => (s.armSlot y u).isNone || s.slotRefused u (k u) || reverse u || (decide (u.val < 16) && pace.1.contains (unitPort u))),
     refuseIf (drive && (!ms.contains paceAx || decide (kk < 4) || decide (64 < kk) || pace.2.1)) stBadArg 0,
     refuseIf s.groups[g].armed.isSome stBusy 0,
     refuseIf (ms.any (fun u => !s.cyclesOk u (k u) (pmin u) || (decide (u.val < 16) && st u == .running &&
         decide (cyclesAvail 1 (pmin u) < (s.slotProg (pipeEng (unitPort u)) ((s.unit u).current.getD 0)).declared))) ||
       !s.bandwidthOk (s.plansWith take) || !pace.2.2) stBudget 0]
    (fun t => (t.armCut g kind ref value take, okRes 0 0)))

/-- The meaning of CUT_DISARM (R29): refused once the trigger has been reached, and where none is armed. -/
def execCutDisarm (c : CtxId) (y : Submission) (s : State) : Host.Outcome State Fault Refusal :=
  let g := subGroup y
  .next (s.admin c { op := 0x12, since := 0x20, kinds := [3], slotted := false, args := [] } y
    [refuseIf (!s.ctxs[c].units (s.members g.val)) stDenied 0,
     refuseIf (s.groups[g].armed.isNone || !s.groups[g].left.isEmpty) stConflict 0]
    (fun t => (t.disarm g, okRes 0 0)))

end Sys2Proof.Machine
end

