-- ==== Sys2Proof/Machine/Faults.lean ====
section
/-! DEFINITION. Fault classification, full reset, power-on (spec/15, R379 to R383; spec/05, R144, R147; spec/06, R165, R173; spec/16,
R399, R406, R409). -/

namespace Sys2Proof.Machine

/-! ### Actions of Table 15.4 -/

/-- A converter that retires a slice (R144, R147): the out-of-service slice leaves service for good, an active one waits to be replaced
at the next line tick; a second slice is the converter's loss. -/
def ConvSt.retire (x : ConvSt) (slice : Nat) : ConvSt :=
  let y := { x with retired := x.retired ||| 2 ^ slice, lost := x.retired != 0 }
  if x.out = some slice then { y with out := none, ready := false, due := false, calNow := false }
  else if x.retired = 0 then { y with repl := some slice } else y

/-- A slice that failed its test is retired (R144); a second failure of the converter loses the input, of a pair the even one (R147).
Gives whether the input was lost. -/
def State.retireSlice (s : State) (p : PortId) (t : Fin 16) (slice cause : Nat) : State × Bool :=
  let x := (s.port p).conv[t]
  if bitN x.retired slice then (s, false)
  else
    let s1 := (s.updConv p t (fun y => y.retire slice)).restartBg p t
    let s2 := s1.raise (portSrc p.val 7) [(8, t.val), (8, slice), (8, cause)]
    let input : Fin 16 := if s.pairMode p t.val then ⟨t.val / 2 * 2, by omega⟩ else t
    if s2.inputLost p input && !s.inputLost p input then (s2.raise (portSrc p.val 8) [(8, input.val)], true) else (s2, false)

/-- A physical lane is retired (R165): the one of logical lane `lane`, which the spare takes from the next process stage, or the spare
itself. -/
def State.retireLane (s : State) (p : PortId) (lane : Option Nat) : State :=
  let n := p.val
  let spare := s.rf n Off.PIP_LANE_STAT 3 0
  let gone := match lane with
    | some l => s.rf n Off.PIP_LANE_MAP (4 * l + 3) (4 * l)
    | none => spare
  let s1 := match lane with
    | some l => s.updPipe p (fun y => { y with laneNext := some (l, spare) })
    | none => (s.setRf n Off.PIP_LANE_STAT 3 0 0xF).setRf n Off.PIP_LANE_STAT 4 4 1
  (s1.setRf n Off.PIP_LANE_STAT (16 + gone) (16 + gone) 1).raise (portSrc n 11) [(8, gone)]

/-- The lines of a port that reach no record are dropped whole (R379). -/
def State.dropStages (s : State) (p : PortId) (emit : Bool) : State :=
  let s1 := ((((s.verifyReport p).undoCal p).dropQuiet p .capture).dropQuiet p .process).updPipe p (fun y => { y with queued := [] })
  if emit && !((s1.port p).due.toList.all List.isEmpty) then s1.dropQuiet p .emit else s1

/-- The engines of a unit start anew from its committed setup (R376, Table 3.2). With it come the CUT values of a cut that fired for a unit
that drains, which has no first tick; those of any other unit wait for it (R7). -/
def State.reloadEngines (s : State) (u : UnitId) : State :=
  let k := ((s.unit u).committed).getD 0
  let s := if (s.unit u).phase = .running ∨ (s.unit u).prior = .running then s
    else if u.val < 16 then s.takeDue (unitPort u) else s.takeAxisDue (axisOfUnit u)
  let s1 := (s.updUnit u (fun x => ({ x with current := some k }).sync))
  let s2 := (unitEngs u).foldl (fun t e => t.startEngine e k true) s1
  if u.val < 16 then
    (s2.updPipe (unitPort u) (fun y => { y with stream := none, skip := false, stall := none })).banksInForce (unitPort u)
  else s2

/-- The engines of a unit that does not run, reset (R33, Table 3.2): cleared, at the entry of the committed setup if there is one. -/
def State.resetEngines (s : State) (u : UnitId) : State :=
  (unitEngs u).foldl (fun t e => t.updEng e (fun x =>
    match (s.unit u).committed with
    | some k => { x.restart (s.slotProg e k).entry true with run := .idle, setup := k, old := false }
    | none => { x.restart 0 true with run := .idle, old := false })) s

/-- The reload of a unit that ran, its lines dropped (R379, R380). -/
def State.reloadUnit (s : State) (u : UnitId) : State :=
  let was := (s.unit u).phase
  if was = .running ∨ was = .draining then
    (if u.val < 16 then s.dropStages (unitPort u) false else s).reloadEngines u
  else s

/-- The lines that a pipe engine stopped by an excess would have served before its classification ended are dropped with cause PROCESS
(R83): the line in process, and the captured one if its next tick has passed. -/
def State.dropServed (s : State) (f : FaultRec) : State :=
  if f.kind = 1 ∧ ((f.code, f.arg) :: f.joined).any (fun e => e.1 == 8 && decide (16 ≤ e.2)) then
    let p : PortId := ⟨f.unit % 16, Nat.mod_lt _ (by decide)⟩
    let s1 := (s.undoCal p).dropLine p .process 2
    match (s.port p).cap with
    | some l => if (l.n : Int) < (s.port p).ltg.h then s1.dropLine p .capture 2 else s1
    | none => s1
  else s

/-- A unit that management cannot clear (R380, Table 15.2 cause 11): a port captures and emits nothing; an axis stops with SDEC. -/
def State.wedge (s : State) (u : UnitId) : State :=
  let s1 := s.changeUnit u .wedged 11
  let s2 := if u.val < 16 then
      let p := unitPort u
      (((s1.dropStages p true).updPort p (fun x => { x with cap := none, prc := none, emi := none, due := Vector.replicate 4 [] })).idlePins p)
    else (s1.axisHold (axisOfUnit u) true).paceLeave (axisOfUnit u)
  let s3 := (unitEngs u).foldl (fun t e => t.updEng e Eng.stopRun) s2
  s3.raise (mgtSrc 49) [(8, if u.val < 16 then 1 else 2), (8, unitIndex u)]

/-- A unit returns to the state before detection (cause 10) or before its first fault (cause 12). A port that drains and has had both drain
ticks halts. One that runs again while its pacing unit works is paced again as one that starts then: the next restart gives no measurement
(R311). -/
def State.returnUnit (s : State) (u : UnitId) (cause : Nat) : State :=
  let s1 := s.changeUnit u (if cause = 10 then (s.unit u).back else (s.unit u).prior) cause
  if h : u.val < 16 then
    let p : PortId := ⟨u.val, h⟩
    let s1 := if (s1.unit u).st = .running ∧ s1.paceBusy u then s1.updPort p (fun x => { x with splice := { x.splice with late := true } }) else s1
    if (s1.unit u).st = .draining ∧ (2 ≤ (s1.port p).ltg.drains ∨ !(s1.port p).ltg.ticked) then s1.haltPort p 6 else s1
  else s1

/-- A program trap (R76): a port loses the lines that no process stage has completed and halts; an axis stops with SDEC; cause 9. -/
def State.programTrap (s : State) (u : UnitId) : State :=
  if h : u.val < 16 then
    let p : PortId := ⟨u.val, h⟩
    let x := s.port p
    let ended := (match x.prc with | some l => l.begun && !l.dropped | none => false) && (s.eng (pipeEng p)).run == .waiting
    let s1 := if ended then
        let q := match x.prc with
          | some l => s.dueOf p l x.pipe.queued
          | none => Vector.replicate 4 []
        (s.dropQuiet p .capture).updPort p (fun y => { y with due := Vector.ofFn (fun k => y.due[k] ++ q[k]) })
      else s.dropStages p false
    s1.haltPort p 9
  else
    let a := axisOfUnit u
    (((s.axisHold a true).paceLeave a).updEng (axisEng a) Eng.stopRun).setUState u .halted 9

/-! ### FAULT_CLASSIFIED (R379 to R381) -/

/-- A row of a table's memory that failed is remapped to one of the region's 16 spare rows (R171): entry and physical bank are those
of the failing read; with no spare row left nothing changes (log entry 179). -/
def State.remapRow (s : State) (p : PortId) (table bankEntry : Nat) : State :=
  let ph := bankEntry / 65536 % 2
  let e := bankEntry % 65536
  s.updPipe p (fun y =>
    if 16 ≤ (y.remaps.filter (fun r => r.1 == table && r.2.1 == ph)).length then y
    else { y with remaps := y.remaps ++ [(table, ph, e)],
                  rewritten := y.rewritten.filter (fun r => !(r.1 == table && r.2.1 == ph && (r.2.2 == e || Config.sameRow table e r.2.2))) })

/-- What a classification does for a port or an axis (Table 15.4): the state, the code reported and the result, 3 for WEDGED. -/
def State.classify (s : State) (f : FaultRec) (failed other : Bool) : State × Nat × Nat :=
  let u := uid (if f.kind = 1 then f.unit else 16 + f.unit)
  let p := unitPort u
  let ok := if failed then 1 else 0
  match f.code with
  | 1 | 2 =>
    if failed then
      let r := s.retireSlice p ⟨f.arg % 16, Nat.mod_lt _ (by decide)⟩ f.arg2 (f.code - 1)
      (r.1, if r.2 then 3 else f.code, 1)
    else (s, f.code, 0)
  | 4 =>
    if failed && other then (s, 4, 3)
    else if failed then (s.retireLane p (some (f.arg % 8)), 4, 1)
    else if other then (s.retireLane p none, 4, 1)
    else (s, 4, 0)
  | 5 =>
    if !failed then (s, 5, 0)
    else if s.noSpare p then (s, 5, 3)
    else (s.retireLane p (some (f.arg % 8)), 5, 1)
  | 7 =>
    if f.arg2 ≠ 5 ∧ !failed then (s, 7, 2)
    else if other then (s, 7, 3) else (s.reloadUnit u, 7, 1)
  | 8 | 9 =>
    if other then (s, f.code, 3) else (s.reloadUnit u, f.code, if f.code = 9 then 1 else ok)
  | 6 => (if failed then s.remapRow p f.arg f.arg2 else s, 6, ok)
  | c => (s, c, ok)

/-- A classification that faults of codes 7 to 9 have joined, and whose later action leaves the engines alone, reloads the engines that they
have stopped (R381, log entry 143). -/
def State.joinedReload (s : State) (f : FaultRec) (result : Nat) : State :=
  if result ≤ 1 ∧ ¬[7, 8, 9].contains f.code ∧ f.hasCode [7, 8, 9] then s.reloadUnit f.uid else s

/-- A unit whose fault has been classified goes on: counted if it was a hardware fault, WEDGED by its action or at the third hardware
fault within 1 s, halted by a program trap, and back to its state before detection when no further fault of it waits. A unit that is OFF is
never FAULTED, and so never WEDGED (Table 15.2, log entry 143). -/
def State.unitAfter (s : State) (u : UnitId) (waits : Bool) (result : Nat) : State × Nat :=
  let x := s.unit u
  let recent := x.faultTimes.filter (fun t => decide (s.now < t + 1000000000))
  let hw := result == 1 || result == 3
  let s1 := if hw then s.updUnit u (fun y => { y with hwFaults := min (y.hwFaults + 1) 65535, faultTimes := recent ++ [s.now] }) else s
  if x.st ≠ .faulted then (s1, if result = 3 then 1 else result)
  else
  let result := if result = 1 ∧ 2 ≤ recent.length then 3 else result
  if result = 3 then (s1.wedge u, 3)
  else if result = 2 then (s1.programTrap u, 2)
  else if waits then (s1, result) else (s1.returnUnit u 10, result)

/-- A script channel's fault classified (R257): HALTED with cause TRAP after a program trap, WEDGED after a hardware fault, as which state
logic that fails its test counts too, since a script has no committed setup to reload (R378, log entry 191). -/
def State.scriptAfter (s : State) (c : ScriptId) (hardware : Bool) : State :=
  if (s.script c).st ≠ .faulted ∧ ¬(hardware ∧ (s.script c).st = .wedged) then s
  else if hardware then (s.updScript c (fun x => { x with st := .wedged })).raise (mgtSrc 49) [(8, 5), (8, c.val)]
  else s.updScript c (fun x => { x with st := .halted })

/-- FAULT_CLASSIFIED itself: the event, MGT_FAULT, its counter and the journal entry. -/
def State.reportFault (s : State) (kind unit code result : Nat) : State :=
  let s1 := s.raise (mgtSrc 48) [(8, kind), (8, unit), (16, code), (8, result)]
  let s2 := s1.setReg 0 Off.MGT_FAULT (2 ^ 31 + result % 4 * 2 ^ 24 + code % 256 * 2 ^ 16 + kind % 256 * 2 ^ 8 + unit % 256)
  (s2.incRf 0 Off.MGT_FAULT_CNT 15 0 1).journal
    { jentry 8 2 0 with code := code, target := kind * 256 + unit, new := result }

/-- The units whose faults are being classified: the first four in order of detection (R379). -/
def classifying (fs : List FaultRec) : List (Nat × Nat) :=
  fs.foldl (fun a f => if a.contains (f.kind, f.unit) || decide (4 ≤ a.length) then a else a ++ [(f.kind, f.unit)]) []

/-- The descriptor that a channel uses is handed back with a barrier (R237). -/
def State.resetChan (s : State) (c : ChanId) : State :=
  match (s.chan c).cur with
  | none => s
  | some d => (s.updChan c (fun x => { x with cur := none })).chanPush c [{ d.handBack false with bar := true }]

/-- The meaning of FAULT_CLASSIFIED (R379 to R381): the classification of detected fault `i` ends; a data channel whose state logic has
failed its test is reset as by a full reset, which keeps its ring and configuration (log entry 191); a fault of a unit that waits behind
four others has no classification that could end (R12, R379). `failed` says that the targeted self-test
of the suspected part failed (slice, lane, engine, row, state logic); `other` that the second thing failed: the spare lane (R165),
or the checks of a reload (R380). -/
def execFaultClassified (i : Nat) (failed other : Bool) (s : State) : Host.Outcome State Fault Refusal :=
  match s.faults[i]? with
  | none => .next s
  | some f =>
    let s0 := { s with faults := s.faults.eraseIdx i }.dropServed f
    if !(classifying s.faults).contains (f.kind, f.unit) then .next s
    else if f.kind = 1 ∨ f.kind = 2 then
      let r := s0.classify f failed other
      let waits := s0.faults.any (fun e => e.kind == f.kind && e.unit == f.unit)
      let q := (r.1.joinedReload f r.2.2).unitAfter f.uid waits r.2.2
      .next (q.1.reportFault f.kind f.unit r.2.1 q.2)
    else if f.kind = 4 then
      .next (((s0.resetChan ⟨f.unit % 64, Nat.mod_lt _ (by decide)⟩).updChan ⟨f.unit % 64, Nat.mod_lt _ (by decide)⟩ (fun x => { x with skew := 0 })).reportFault
        4 f.unit f.code 1)
    else if f.kind = 5 then
      let hardware := failed || f.arg2 == 5 || f.code == 9
      .next ((s0.scriptAfter ⟨f.unit % 16, Nat.mod_lt _ (by decide)⟩ hardware).reportFault 5 f.unit f.code (if hardware then 3 else 2))
    else .next (s0.reportFault f.kind f.unit f.code (b2n failed))

/-! ### Full reset (R33, R382, R383) -/

/-- What a full reset does at once to a port: its lines that no emission has begun for are lost, its pins idle, its pipeline is reset. -/
def State.resetPort (s : State) (p : PortId) : State :=
  let s1 := (s.abortCap p 3).dropStages p true
  let s2 := s1.updPort p (fun x => { x with
    cap := none, prc := none, emi := none, due := Vector.replicate 4 [],
    pipe := { x.pipe.restartDrift with
      wl := Vector.replicate 4 [], accs := Vector.replicate 2 { a := [], cnt := 0 }, stream := none, skip := false,
      areas := Vector.replicate 4 none, slots := Vector.replicate 4 none, queued := [], stall := none, stallCyc := 0, staged := 0 } })
  (((((s2.setRf p.val Off.PIP_CAL 11 10 0).setRf p.val Off.PIP_DRIFT_STAT 3 0 0).idlePins p).showQueue p).updEng (gateEng p) (fun x => { x with run := .idle })).updEng
    (pipeEng p) (fun x => { x with run := .idle })

/-- The ports, the axis engines, the rewinds and the channels at the start of a full reset (R33, Table 15.5). -/
def State.resetWork (s : State) : State :=
  let s1 := (List.finRange 16).foldl State.resetPort s
  let s2 := (List.finRange 8).foldl (fun t a => t.updEng (axisEng a) (fun x => { x with run := .idle })) s1
  (List.finRange 64).foldl State.resetChan (s2.rewindsEnd 3)

/-- The scripts at the start of a full reset (R257). -/
def State.resetScripts (s : State) : State :=
  (List.finRange 15).foldl (fun t j => t.updScript ⟨j.val, by omega⟩ (fun x =>
    { x with st := if x.st = .wedged then .idle else if x.st = .faulted then .halted else x.st }))
    ((List.finRange 16).foldl State.resetScript s)

/-- Management abandons what it classifies of ports, axes and scripts (R382). -/
def State.dropFaults (s : State) : State := { s with faults := s.faults.filter (fun f => !(f.kind == 1 || f.kind == 2 || f.kind == 5)) }

/-- FULL_RESET: a write of the key to HIF_RESET by context `c`; ignored while a reset runs, or for another value. -/
def State.fullReset (s : State) (c : CtxId) (v : Nat) : State :=
  if s.mgt.resetBusy ∨ fld v 15 0 ≠ 0x9640 then s
  else
    let s1 := (s.updMgt (fun m => { m with resetBusy := true })).journal { jentry 10 0 c.val with offset := Off.HIF_RESET, new := fld v 15 0 }
    s1.dropFaults.resetWork.resetScripts.dropFaults

/-- One unit at the end of a full reset (R33): it is reset and reloaded from its committed setup; one that passes its self-test returns to its state
before the first fault (cause 12), one that fails is WEDGED. -/
def State.resetUnit (s : State) (u : UnitId) (failed : Bool) : State :=
  let st := (s.unit u).st
  let bad := st == .faulted || st == .wedged
  if st = .off then s.resetEngines u
  else if failed then
    if st = .wedged then
      match (s.unit u).cut with
      | some c => if c.reached then ((s.takeIdle u).cutDone c.group u).cutStarted u else s
      | none => s
    else
      let s1 := if st = .faulted then s else (s.updUnit u (fun x => { x with prior := st, back := st })).setUState u .faulted 8
      s1.wedge u
  else
    let run := if bad then (s.unit u).prior else st
    let s1 := if run = .running ∨ run = .draining then s.reloadEngines u else s.resetEngines u
    let s2 := if st = .wedged ∧ ¬ u.val < 16 then s1.updAxis (axisOfUnit u) (fun x => { x with held := none }) else s1
    if bad then s2.returnUnit u 12 else s2

/-- The failed bank of a table that fell back after a full reset has its cells tested (R173, R171). Which entry differed is the free value
that SHADE_FALLBACK carried (log entry 204). -/
def State.testFallen (s : State) (p : PortId) (table entry : Nat) : State :=
  s.detect { kind := 1, unit := p.val, code := 6, arg := table, time := 0,
             arg2 := s.phys p table (1 - s.rf p.val Off.PIP_TBLSEL table table) * 65536 + entry % 65536 }

/-- BANK_CRC_CHECK of one table (R173); with it, if the table fell back, the table and its failing entry. -/
def State.crcFall (s : State) (p : PortId) (table : Nat) (bad : List Nat) : State × List (PortId × Nat × Nat) :=
  (s.crcCheck p table bad, if (s.crcCheck p table bad).flip p table = s.flip p table then [] else [(p, table, Config.freeNat 16 s.free)])

/-- BANK_CRC_CHECK of every bank (R173): the banks that differ are given by port, table and bank. With it the tables that fell back, whose
banks are tested once their ports go on. -/
def State.crcChecks (s : State) (bad : List (Nat × Nat × Nat)) : State × List (PortId × Nat × Nat) :=
  ((List.finRange 16).flatMap (fun p => [(p, 0), (p, 1)])).foldl (fun (t : State × List (PortId × Nat × Nat)) e =>
    let r := t.1.crcFall e.1 e.2 ((bad.filter (fun b => b.1 == e.1.val && b.2.1 == e.2)).map (fun b => b.2.2))
    (r.1, t.2 ++ r.2)) (s, [])

/-- The meaning of RESET_DONE (R382): positions reached meanwhile are lost, the banks' CRCs are checked (R173), every unit is reloaded (`failed` lists those whose
self-test fails), and the event carries how many are WEDGED. -/
def execResetDone (failed : List UnitId) (banks : BankTest) (s : State) : Host.Outcome State Fault Refusal :=
  if !s.mgt.resetBusy then .next s
  else
    let s1 := (List.finRange 16).foldl State.evaluate s
    let s2 := (banks.corr.foldl (fun t e => t.incRf e.1.val Off.PIP_ECC 15 0 e.2) s1).crcChecks banks.bad
    let s3 := s2.2.foldl (fun t e => t.testFallen e.1 e.2.1 e.2.2) ((List.finRange 24).foldl (fun t u => t.resetUnit u (failed.contains u)) s2.1)
    let n := ((List.finRange 24).filter (fun u => (s3.unit u).st == .wedged)).length
    .next ((s3.updMgt (fun m => { m with resetBusy := false })).raise (mgtSrc 50) [(16, n)])

/-! ### Power (R399, R406, R409) -/

/-- The firmware slot that the boot loader starts (R392). -/
def Mgt.bootSlot (m : Mgt) : Nat := if m.verifies (m.fw m.fwSlot) then m.fwSlot else 1 - m.fwSlot

/-- The boot-loader copy that the boot ROM starts (R392). -/
def Mgt.bootLoader (m : Mgt) : Nat :=
  if m.verifies m.blA && (!m.verifies m.blB || decide (m.blB.version ≤ m.blA.version)) then 0 else 1

/-- The power-on calibration of slice `i` of input `t` of port `p` (R141): none where it or the self-test fails; a slice whose
measurements are not given measures as an ideal one, with offset 0, gain 1 and skew 0. -/
def bootCoef (b : BootInfo) (p t i : Nat) : Option (Int × Nat × Int) :=
  if b.badSlices.contains (p, t, i) then none
  else match b.cals.find? (fun e => e.1 == p && e.2.1 == t && e.2.2.1 == i) with
    | some e => calibrate e.2.2.2.sLo e.2.2.2.sHi e.2.2.2.spread e.2.2.2.ms
    | none => some (0, 32768, 0)

/-- A converter after the power-on self-test (R141): the coefficients of its slices, and CALS 1 of those that passed. -/
def ConvSt.boot (x : ConvSt) (p t : Nat) (b : BootInfo) : ConvSt :=
  let co : List (Int × Nat × Int) := (List.range 5).map (fun i => (bootCoef b p t i).getD (0, 32768, 0))
  { x with coef := co, lastCal := co, ready := true, cals := (List.range 5).map (fun i => b2n (bootCoef b p t i).isSome) }

/-- The slices of a converter that failed their power-on test are retired with cause 2 (R144), and an active one is replaced at once:
its port has not left OFF. -/
def State.bootSlices (s : State) (p : PortId) (t : Fin 16) (b : BootInfo) : State :=
  (List.range 5).foldl (fun u i =>
    if (bootCoef b p.val t.val i).isNone then (u.retireSlice p t i 2).1.updConv p t ConvSt.replace else u) s

/-- CLK_REF_STAT at power-on (R399, R400): the preferred reference if valid, else the other, else none. -/
def refAtBoot (pref : Nat) (a b : Bool) : Nat :=
  let sel := if a && (pref == 0 || !b) then 0 else if b then 1 else 3
  b2n b * 2 ^ 5 + b2n a * 2 ^ 4 + sel

/-- What a power-on finds again of a machine that lost its supplies: the flash and the fuses, the commands that wait, and the counter of
the free values. What was put on the link stays in the record of it. -/
def State.powerOff (s : State) : State :=
  { State.reset with
    pending := s.pending, free := s.free, bus := s.bus,
    mgt := { State.reset.mgt with
      blSlot := s.mgt.blSlot, fwSlot := s.mgt.fwSlot, fwA := s.mgt.fwA, fwB := s.mgt.fwB, blA := s.mgt.blA, blB := s.mgt.blB,
      svnMin := s.mgt.svnMin, revoked := s.mgt.revoked, serial := s.mgt.serial, cfg := s.mgt.cfgNext, cfgNext := s.mgt.cfgNext },
    jrnl := { State.reset.jrnl with
      ring := s.jrnl.ring, ringCap := s.jrnl.ringCap, next := (match s.jrnl.ring.getLast? with | some e => e.seq + 1 | none => 1) } }

/-- The meaning of SUPPLY_FAULT (R406): the machine resets as at power-on. -/
def execSupplyFault (s : State) : Host.Outcome State Fault Refusal := .next s.powerOff

/-- The sensor limits of the configuration record (R395): from 0x08 on a warning, a critical and a low limit for each temperature and
then each voltage (log entry 121). -/
def State.loadLimits (s : State) : State :=
  let at_ (i k : Nat) : Nat := leAt s.mgt.cfg (8 + 6 * i + 2 * k) 2
  let s1 := (List.range 12).foldl (fun t i => t.setReg 0 (Off.MGT_TLIM + 4 * i) (at_ i 1 * 65536 + at_ i 0)) s
  (List.range 20).foldl (fun t i => t.setReg 0 (Off.MGT_VLIM + 4 * i) (at_ (12 + i) 1 * 65536 + at_ (12 + i) 2)) s1

/-- The NOR journal ring (R389): 786,432 entries in a flash of 512 Mbit, 1,048,576 in a larger one. -/
def State.sizeRing (s : State) (large : Bool) : State :=
  let cap := if large then 1048576 else 786432
  { s with jrnl := { s.jrnl with ringCap := cap, ring := s.jrnl.ring.drop (s.jrnl.ring.length - cap) } }

/-- The meaning of POWER_ON_RESET (R409, Table 16.5): power-on reset is released, the device boots and tests itself, failing slices and
lanes are retired, and management serves its rings. The nonce of MGT_DBG_NONCE is drawn: a free value. -/
def execPowerOnReset (b : BootInfo) (s : State) : Host.Outcome State Fault Refusal :=
  let s0 := s.powerOff.sizeRing b.largeFlash
  let m := s0.mgt
  let s1 := s0.updMgt (fun m => { m with up := true, fwSlot := m.bootSlot, blSlot := m.bootLoader })
  let s2 := s1.loadLimits.journal { jentry 11 2 0 with code := 53, new := m.bootSlot }
  let lock := refGood b.refA || refGood b.refB
  let s3 := (s2.setReg 0 Off.CLK_REF_STAT (refAtBoot (s2.rf 0 Off.CLK_REF_CTL 0 0) (refGood b.refA) (refGood b.refB))).setReg 0 Off.CLK_DOM_OK
    (if lock then 0x1FFFFFF else 0)
  let s4 := (List.finRange 16).foldl (fun t p => t.setRf 0 (Off.CLK_PPLL_STAT + 16 * p.val) 0 0 (b2n lock)) s3
  let s5 := (List.range 24).foldl (fun t k => t.setRf 0 (Off.CLK_BANK + 4 * k) 31 31 (b2n (bitN b.banks k))) s4
  let s6 := (List.finRange 16).foldl (fun t p =>
    let up := bitN b.banks p.val
    let t1 := t.updPort p (fun x => { x with
      head := { x.head with bankOk := up, bankSeen := up },
      conv := Vector.ofFn (fun i => x.conv[i].boot p.val i.val b) })
    if up then t1.startRead p else t1) s5
  let s7 := (List.finRange 16).foldl (fun t p => (List.finRange 16).foldl (fun u i => u.bootSlices p i b) t) s6
  let s8 := b.badLanes.foldl (fun t e =>
    let p : PortId := ⟨e.1 % 16, Nat.mod_lt _ (by decide)⟩
    if t.rf p.val Off.PIP_LANE_STAT 4 4 = 1 then t
    else (t.retireLane p (if e.2 % 9 = 8 then none else some (e.2 % 9))).applyLane p) s7
  let s9 := (List.range 4).foldl (fun t i => (t.setReg 0 (Off.MGT_DBG_NONCE + 4 * i) (Config.freeWord t.free).toNat).tickFree) s8
  .next { s9 with link := { s9.link with cfgReady := true } }

end Sys2Proof.Machine
end

