-- ==== Sys2Proof/Machine/Script.lean ====
section
/-! DEFINITION. Script channels (spec/09_script_channels.md, R239 to R258). -/

namespace Sys2Proof.Machine

/-! ### Places and bytes (R243, R244, R248) -/

/-- The ranges of the device map that hold something without a gap: base and bytes (Table 9.1). -/
def mapRegions : List (Nat × Nat) :=
  [(0, 0x840000), (0x1000000, 0x400000), (0x2000000, 0x200000), (0x2400000, 0x200000), (0x2800000, 0x100000),
   (0x3000000, 0x10000)] ++ (List.range 64).map (fun i => (0x1800000 + 0x8000 * i, 16400)) ++
   (List.range 8).map (fun a => (0x1A00000 + 0x10000 * a, 0x400))

/-- A range of `n` bytes stays within its space (R245). -/
def rangeOk (sp a n : Nat) : Bool :=
  n == 0 ||
  (match sp with
   | 0 => decide (a + n ≤ 2 ^ 64)
   | 1 => mapRegions.any (fun r => decide (r.1 ≤ a) && decide (a + n ≤ r.1 + r.2))
   | 2 => decide (a + n ≤ 0x400)
   | _ => false)

/-- A byte of a word. -/
def byteOf (v i : Nat) : Byte := BitVec.ofNat 8 (v / 2 ^ (8 * (i % 4)))

/-- A word with one byte replaced. -/
def withByte (v i : Nat) (b : Byte) : Nat := setFld v (8 * (i % 4) + 7) (8 * (i % 4)) b.toNat

/-- The place of a byte of a script channel's space 1 or 2. -/
def scLoc (c : ScriptId) (sp a : Nat) : Option MemLoc :=
  if sp = 1 then mapLoc a else if sp = 2 ∧ a < 0x400 then some (.scratch (scriptEng c) (a / 4)) else none

/-- Reads bytes of space 1 or 2. -/
def State.scRead (s : State) (c : ScriptId) (sp a n : Nat) : List Byte :=
  (List.range n).map (fun i => match scLoc c sp (a + i) with
    | some l => byteOf (s.memRead l) (a + i)
    | none => 0)

/-- Writes bytes of space 1 or 2; the other bytes of a word stay (R248). -/
def State.scWrite (s : State) (c : ScriptId) (sp : Nat) : Nat → List Byte → State
  | _, [] => s
  | a, b :: t =>
    State.scWrite (match scLoc c sp a with
      | some l => s.memWrite l (withByte (s.memRead l) a b)
      | none => s) c sp (a + 1) t

/-- Whether the starting context holds the right on a place (R44, R244). -/
def Ctx.holds (x : Ctx) (l : MemLoc) (wr : Bool) : Bool :=
  let r := l.rights
  x.blk r.1 wr && (match r.2 with
    | none => true
    | some u => if u.val < 16 then x.port u.val wr else x.axis (u.val - 16) wr)

/-- The first check of R244 that an access of `n` bytes fails: cause 5 DENIED, 6 PROTECTED. Scratch and host memory have none. -/
def State.scCheck (s : State) (c : ScriptId) (sp a n : Nat) (wr : Bool) : Option Nat :=
  if sp ≠ 1 then none
  else
    let x := s.ctxs[(s.script c).ctx % 8]'(Nat.mod_lt _ (by decide))
    (List.range n).findSome? (fun i => match mapLoc (a + i) with
      | none => some 7
      | some l => if !x.holds l wr then some 5 else if wr && s.memBlocked l then some 6 else none)

/-! ### Halts (R256) -/

/-- DENIED is journaled (R244). -/
def State.scHaltCheck (s : State) (c : ScriptId) (cause addr : Nat) : State :=
  let t := if cause = 5 then
      s.journal { jentry 6 0 (s.script c).ctx with target := 0x500 + c.val, offset := addr % 2 ^ 32 }
    else s
  t.scriptHalt c cause

/-- The port whose PIP_ECC counts the reads of a place (R170, R255): that of a table, or of an engine's parameter memory. -/
def eccPort (space addr : Nat) : Option PortId :=
  if space = 1 then (mapLoc addr).bind (fun l =>
    match l with
    | .shade p _ _ => some p
    | .defect p _ _ => some p
    | .lut p _ _ => some p
    | .param e _ _ => if e.val < 32 then some ⟨e.val % 16, Nat.mod_lt _ (by decide)⟩ else none
    | _ => none)
  else none

/-- A failing access (R255): counted in PIP_ECC for a read of a port's memory, tried again up to RETRY times as latched at START (R239),
then the channel halts with BUS_ERROR. `tries` counts the attempts made before this one. -/
def State.scFail (s : State) (c : ScriptId) (space kind addr tries : Nat) (again : State → State) : State :=
  let s1 := match eccPort space addr with
    | some p => s.incRf p.val Off.PIP_ECC 31 16 1
    | none => s
  if tries < (s.script c).retry then again s1
  else
    let s2 := s1.setReg (scSel c) Off.DMA_SC_FAULT (2 ^ 31 + (tries + 1) % 16 * 2 ^ 8 + kind * 2 ^ 4 + space)
    (s2.setPair (scSel c) Off.DMA_SC_FAULT_ADDR_LO (addr % 2 ^ 64)).scriptHalt c 4

/-! ### Starting and ending (R239, R240) -/

/-- START (R239): ignored but in IDLE and HALTED; SC15 is management's (R242). -/
def State.scStart (s : State) (c : ScriptId) (cx : CtxId) : State :=
  let x := s.script c
  if x.st ≠ .idle ∧ x.st ≠ .halted then s
  else
    let k := scSel c
    let r (off : Nat) := s.eff k off
    let arg (i : Nat) : Word := BitVec.ofNat 32 (r (Off.DMA_SC_ARG + 4 * i))
    let s1 := s.updScript c (fun y => { y with
      st := .running, ctx := cx.val, code := fld (r Off.DMA_SC_CFG) 0 0, retry := fld (r Off.DMA_SC_CFG) 19 16, base := s.pair k Off.DMA_SC_BASE_LO,
      len := max (fld (r Off.DMA_SC_LEN) 16 0) 1, fetched := none, wait := none, xfer := none, tries := 0, aborting := false, moved := 0 })
    s1.updEng (scriptEng c) (fun y =>
      { y with g := (((((Vector.replicate 16 0).set 1 (arg 0)).set 2 (arg 1)).set 3 (arg 2)).set 4 (arg 3)), lc := Vector.replicate 4 0,
               z := false, n := false, c := false, v := false, link := [], pc := 0, run := .running, cyc := 0 })

/-- ABORT (R240): at once, but at the next access boundary of a transfer. -/
def State.scAbort (s : State) (c : ScriptId) : State :=
  let x := s.script c
  if x.st ≠ .running ∧ x.st ≠ .waiting then s
  else if x.xfer.isSome then s.updScript c (fun y => { y with aborting := true })
  else s.scriptHalt c 1

/-- The bus address or device-map address of an instruction, with its space (R241). -/
def State.fetchAt (s : State) (c : ScriptId) : Nat × Nat :=
  let x := s.script c
  let a := x.base + 8 * (s.eng (scriptEng c)).pc
  if x.code = 0 then (0, a) else (1, 0x3000000 + a)

/-- The meaning of SCRIPT_FETCH (R241, R244, R255): the fetch of the instruction at the pc completes with `w` from host memory, or
from the script store, which needs the DMA block right, with what that holds; an index beyond the script's length traps MEM (R70). -/
def execScriptFetch (c : ScriptId) (ok : Bool) (w : DWord) (s : State) : Host.Outcome State Fault Refusal :=
  let x := s.script c
  let e := scriptEng c
  let pc := (s.eng e).pc
  if x.st ≠ .running ∨ x.xfer.isSome ∨ x.fetched.isSome ∨ (x.code = 0 ∧ s.link.d3hot) then .next s
  else if x.len ≤ pc then .next (s.trap e 2 pc)
  else
    let a := s.fetchAt c
    match s.scCheck c a.1 a.2 8 false with
    | some cause => .next (s.scHaltCheck c cause a.2)
    | none =>
      let s1 := if x.code = 0 then s.hostRead a.2 8 else s
      if !ok then .next (s1.scFail c a.1 1 a.2 x.tries (fun t => t.updScript c (fun y => { y with tries := y.tries + 1 })))
      else
        let v := if x.code = 0 then w else BitVec.ofNat 64 (leAt (s.scRead c 1 a.2 8) 0 8)
        .next (s1.updScript c (fun y => { y with fetched := some v, tries := 0 }))

/-! ### Transfers (R245 to R250) -/

/-- The transfer block at an address of scratch. -/
def Eng.xferBlock (x : Eng) (a : Nat) : List Byte := (List.range 8).flatMap (fun i => leBytes 4 (x.scratchWord (a / 4 + i)).toNat)

/-- The transfer that a block names, with nothing written yet. -/
def newXfer (b : List Byte) (table : Option (Nat × Nat)) (moves : List (Nat × Nat × Nat)) (desc : Bool) (cost : Nat) : XferSt :=
  { srcSp := leAt b 0x14 1, dstSp := leAt b 0x15 1, table := table, moves := moves, descending := desc, written := 0, span := none, tries := 0,
    cost := cost }

/-- A transfer instruction: the block's address is checked (R245), then the block, then the transfer begins; one without a byte
to move is done at once. `plan` gives the cause of a halt, or the transfer. -/
def State.transfer (s : State) (c : ScriptId) (op : Nat) (f : ZscFields) (plan : List Byte → Nat ⊕ XferSt) : State :=
  let e := scriptEng c
  s.instr e op { ra := true, imm := true } f (fun t =>
    let a := (t.eng e).addr f
    if a % 8 ≠ 0 ∨ 0x3E0 < a then t.trap e 2 a
    else
      let b := (t.eng e).xferBlock a
      match plan b with
      | .inl cause => t.scHaltCheck c cause a
      | .inr x => if x.moves.isEmpty then t.advance e x.cost else t.updScript c (fun y => { y with xfer := some x }))

/-- Fields that XFER, XFERX and SHUF share: source, destination, length, spaces; the spaces exist and u16 0x16 is 0. -/
def blockHead (b : List Byte) : Nat × Nat × Nat × Nat × Nat × Bool :=
  (leAt b 0 8, leAt b 8 8, leAt b 0x10 4, leAt b 0x14 1, leAt b 0x15 1,
   decide (leAt b 0x14 1 < 3) && decide (leAt b 0x15 1 < 3) && leAt b 0x16 2 == 0)

/-- Two ranges of one space share an address (R243). -/
def overlap (sa a n sb b m : Nat) : Bool := sa == sb && decide (0 < n) && decide (0 < m) && decide (a < b + m) && decide (b < a + n)

/-- The meaning of XFER (R247): copied in descending order where the ranges overlap and the destination lies above. -/
def execXfer (c : ScriptId) (f : ZscFields) (s : State) : Host.Outcome State Fault Refusal :=
  .next (s.transfer c 0xC0 f (fun b =>
    let (src, dst, n, ss, ds, ok) := blockHead b
    if !ok || leAt b 0x18 8 != 0 || !rangeOk ss src n || !rangeOk ds dst n then .inl 7
    else .inr (newXfer b none (if n = 0 then [] else [(src, dst, n)]) (overlap ss src n ds dst n && decide (src < dst)) (6 + (n + 31) / 32))))

/-- The meaning of XFERX (R249): the block is checked, then its index table is to be read. -/
def execXferx (c : ScriptId) (f : ZscFields) (s : State) : Host.Outcome State Fault Refusal :=
  .next (s.transfer c 0xC1 f (fun b =>
    let (src, dst, n, _, _, ok) := blockHead b
    let tb := leAt b 0x18 1
    let mode := leAt b 0x19 1
    if !ok || n != 0 || decide (64 ≤ tb) || decide (2 ≤ mode) || leAt b 0x1A 2 != 0 || leAt b 0x1C 4 != 0 then .inl 7
    else .inr (newXfer b (some (tb, mode)) [(src, dst, 0)] false 0)))

/-- The moves of XFERX by an index table, with its cycles, or the cause of a halt (R249): every element is checked before any write. -/
def State.byIndex (s : State) (x : XferSt) (tb mode : Nat) : Nat ⊕ (List (Nat × Nat × Nat) × Nat) :=
  let src := (x.moves.headD (0, 0, 0)).1
  let dst := (x.moves.headD (0, 0, 0)).2.1
  let ss := x.srcSp
  let ds := x.dstSp
  let cnt := s.idxWord tb 0
  let el := s.idxWord tb 1
  if cnt = 0 ∨ 4096 < cnt ∨ el = 0 ∨ 65536 < el then .inl 7
  else
    let off (i : Nat) := s.idxWord tb (4 + i)
    let ms := (List.range cnt).map (fun i => if mode = 0 then (src + off i, dst + i * el, el) else (src + i * el, dst + off i, el))
    let total := cnt * el
    if ms.any (fun m => !rangeOk ss m.1 el || !rangeOk ds m.2.1 el) then .inl 7
    else
      let clash := if mode = 0 then ms.any (fun m => overlap ds dst total ss m.1 el)
        else ms.any (fun m => overlap ds m.2.1 el ss src total) ||
          ms.zipIdx.any (fun x => ms.zipIdx.any (fun y => decide (x.2 < y.2) && overlap ds x.1.2.1 el ds y.1.2.1 el))
      if clash then .inl 3 else .inr (ms, 6 + 4 * cnt + cnt * (2 + (el + 31) / 32))

/-- The meaning of SHUF (R250): elements in the order of the destination. -/
def execShuf (c : ScriptId) (f : ZscFields) (s : State) : Host.Outcome State Fault Refusal :=
  .next (s.transfer c 0xC2 f (fun b =>
    let (src, dst, n, ss, ds, ok) := blockHead b
    let np := leAt b 0x18 1
    let ec := leAt b 0x19 1
    let dir := leAt b 0x1A 1
    let m := leAt b 0x1C 4
    let el := 2 ^ ec
    if !ok || np == 0 || decide (4 < np) || decide (3 ≤ ec) || decide (2 ≤ dir) || leAt b 0x1B 1 != 0 || m == 0 ||
        decide (16777216 < m) || n != np * m * el || !rangeOk ss src n || !rangeOk ds dst n then .inl 7
    else if overlap ss src n ds dst n then .inl 3
    else
      let at_ (j : Nat) := if dir = 0 then j % m * np + j / m else j % np * m + j / np
      .inr (newXfer b none ((List.range (np * m)).map (fun j => (src + at_ j * el, dst + j * el, el))) false (6 + (n + 15) / 16))))

/-- The moves that remain after `n` bytes of the first one. -/
def XferSt.took (x : XferSt) (n : Nat) : List (Nat × Nat × Nat) :=
  match x.moves with
  | [] => []
  | (a, d, l) :: t =>
    if l ≤ n then t else if x.descending then (a, d, l - n) :: t else (a + n, d + n, l - n) :: t

/-- The addresses written so far, with those of one access more. -/
def XferSt.widen (x : XferSt) (lo hi : Nat) : Option (Nat × Nat) :=
  match x.span with
  | none => some (lo, hi)
  | some (a, b) => some (min a lo, max b hi)

/-- The most bytes of one access at address `a` (its last byte, where bytes are copied in descending order): none crosses a 4 KiB
boundary, and one on the host link keeps to the size `link` (R248). -/
def accessMax (down : Bool) (sp a link : Nat) : Nat :=
  let room := if down then a % 4096 + 1 else 4096 - a % 4096
  match sp with
  | 0 => min link room
  | 1 => room
  | _ => 1024

/-- The next access of a transfer, of at most `n` bytes (R247, R248): where it reads, where it writes, how many bytes. -/
def State.nextAccess (s : State) (x : XferSt) (n : Nat) : Nat × Nat × Nat :=
  match x.moves with
  | [] => (0, 0, 0)
  | (a, d, l) :: _ =>
    let e := if x.descending then l - 1 else 0
    let most := min (accessMax x.descending x.srcSp (a + e) (128 * 2 ^ s.link.pci.mrrs)) (accessMax x.descending x.dstSp (d + e) (128 * 2 ^ s.link.pci.mps))
    let m := max 1 (min (min n l) most)
    if x.descending then (a + l - m, d + l - m, m) else (a, d, m)

/-- The words of the device map that an access of `n` bytes at `dst` covers in part, which it reads to merge with (R248): the first and the
last one at most. -/
def mergeWords (sp dst n : Nat) : List Nat :=
  if sp ≠ 1 then []
  else [dst / 4, (dst + n - 1) / 4].dedup.filterMap (fun w => if 4 * w < dst ∨ dst + n < 4 * w + 4 then some (4 * w) else none)

/-- A read of the word at an address of the device map meets an uncorrectable entry, one of a remapped row (R171). -/
def State.deadWord (s : State) (sp a : Nat) : Bool :=
  sp == 1 && (match mapLoc a with
    | some (.shade p b w) => (s.port p).pipe.unreadable 0 (s.phys p 0 b) w
    | some (.defect p b w) => (s.port p).pipe.unreadable 1 (s.phys p 1 b) (w / 2)
    | _ => false)

/-- What a failing access reads (R255): its space, its kind and its first byte; the read of the source, or of a word that it merges with. A
source in scratch does not fail, nor does a write. A failure of kind 3 is that of a merge where the access merges at all. -/
def State.failPlace (s : State) (x : XferSt) (ok : Bool) (kind src dst n : Nat) : Option (Nat × Nat × Nat) :=
  let ms := mergeWords x.dstSp dst n
  match if !ok && kind == 3 then ms.head? else none with
  | some a => some (1, 3, a)
  | none =>
    if (!ok && x.srcSp != 2) || (List.range' (src / 4) ((src + n - 1) / 4 + 1 - src / 4)).any (fun w => s.deadWord x.srcSp (4 * w)) then
      some (x.srcSp, 0, src)
    else (ms.find? (s.deadWord 1)).map (fun a => (1, 3, a))

/-- The attempts of the access in flight are one more; an abort that waits is made (R240, R255). -/
def State.tryAgain (s : State) (c : ScriptId) (x : XferSt) : State :=
  let t := s.updScript c (fun z => { z with xfer := some { x with tries := x.tries + 1 } })
  if (s.script c).aborting then t.scriptHalt c 1 else t

/-- The read of XFERX's index table completes (R249), or fails. -/
def State.tableRead (s : State) (c : ScriptId) (x : XferSt) (tb mode : Nat) (ok : Bool) : State :=
  let a := 0x1800000 + 0x8000 * tb
  match s.scCheck c 1 a 1 false with
  | some cause => s.scHaltCheck c cause a
  | none =>
    if !ok then s.scFail c 1 2 a x.tries (fun t => t.tryAgain c x)
    else if (s.script c).aborting then s.scriptHalt c 1
    else match s.byIndex x tb mode with
      | .inl cause => s.scriptHalt c cause
      | .inr r => s.updScript c (fun z => { z with xfer := some { x with table := none, moves := r.1, cost := r.2, tries := 0 } })

/-- Entries of the place at an address that a read has corrected are counted for its port (R170). -/
def State.corrected (s : State) (sp a n : Nat) : State :=
  match eccPort sp a with
  | some p => s.incRf p.val Off.PIP_ECC 15 0 n
  | none => s

/-- The read of an access has returned `bs`: they are written (R248), with the corrected entries of source and merge counted (R170), and the
transfer goes on, halts at an abort, or is done. -/
def State.accessMade (s : State) (c : ScriptId) (x : XferSt) (src dst : Nat) (data : AccessData) (bs : List Byte) : State :=
  let m := bs.length
  let s0 := (s.corrected x.srcSp src data.corr).corrected x.dstSp dst (if (mergeWords x.dstSp dst m).isEmpty then 0 else data.merged)
  let s1 := if x.dstSp = 0 then s0.hostWrite dst bs else s0.scWrite c x.dstSp dst bs
  let k := scSel c
  let s2 := s1.setPair k Off.DMA_SC_BYTES_LO ((s1.pair k Off.DMA_SC_BYTES_LO + m) % 2 ^ 64)
  let rest := x.took m
  let s3 := s2.updScript c (fun z => { z with
    moved := z.moved + m,
    xfer := some { x with moves := rest, written := x.written + m, span := x.widen dst (dst + m - 1), tries := 0 } })
  if (s.script c).aborting then s3.scriptHalt c 1
  else if rest.isEmpty then ((s3.journalXfer c).updScript c (fun z => { z with xfer := none })).advance (scriptEng c) x.cost
  else s3

/-- The meaning of SCRIPT_ACCESS_DONE (R244, R247 to R249, R255, R256): the read of XFERX's index table, or the next access of a
transfer, of at most `n` bytes, completes with `data`. A failing
one (`kind` 3: the read of a partial-word merge) is tried again or halts the channel. Host accesses wait in D3hot (R257). -/
def execScriptAccessDone (c : ScriptId) (ok : Bool) (kind n : Nat) (data : AccessData) (s : State) : Host.Outcome State Fault Refusal :=
  match (s.script c).xfer with
  | none => .next s
  | some x =>
    match x.table with
    | some (tb, mode) => .next (s.tableRead c x tb mode ok)
    | none =>
      if x.moves.isEmpty || (s.link.d3hot && (x.srcSp == 0 || x.dstSp == 0)) then .next s
      else
        let q := s.nextAccess x n
        match s.scCheck c x.srcSp q.1 q.2.2 false with
        | some cause => .next (s.scHaltCheck c cause q.1)
        | none =>
          match s.scCheck c x.dstSp q.2.1 q.2.2 true with
          | some cause => .next (s.scHaltCheck c cause q.2.1)
          | none =>
            let s1 := if x.srcSp = 0 then s.hostRead q.1 q.2.2 else s
            match s.failPlace x ok kind q.1 q.2.1 q.2.2 with
            | some (sp, k, a) => .next (s1.scFail c sp k a x.tries (fun t => t.tryAgain c x))
            | none =>
              .next (s1.accessMade c x q.1 q.2.1 data
                (if x.srcSp = 0 then (data.bytes ++ List.replicate q.2.2 0).take q.2.2 else s.scRead c x.srcSp q.1 q.2.2))

/-! ### LOOP, WAIT, SIG (R246, R251, R252) -/

/-- The meaning of LOOP. -/
def execLoop (c : ScriptId) (f : ZscFields) (s : State) : Host.Outcome State Fault Refusal :=
  let e := scriptEng c
  .next (s.instr e 0xC4 { rd := true, imm := decide (f.imm.toNat < 65536) } f (fun t =>
    let v := (t.eng e).get f.rd
    let v' := if v = 0 then 0 else v - 1
    let target := f.imm.toNat % 65536
    if v' = 0 then (t.updEng e (fun x => x.set f.rd v')).advance e 1
    else if t.scriptLen e ≤ target then t.trap e 2 target
    else (t.updEng e (fun x => x.set f.rd v')).goto e target 2))

/-- How often what a WAIT waits for has come (R251): raisings of a source, line ticks of a port, cuts of a group completed. -/
def State.waitCount (s : State) (kind sel : Nat) : Nat :=
  match kind with
  | 0 => s.raisings (sel % 2048)
  | 1 => ((s.port ⟨sel % 16, Nat.mod_lt _ (by decide)⟩).ltg).ticks
  | _ => (s.groups[sel % 4]'(Nat.mod_lt _ (by decide))).done

/-- The meaning of WAIT. -/
def execWait (c : ScriptId) (f : ZscFields) (s : State) : Host.Outcome State Fault Refusal :=
  let e := scriptEng c
  .next (s.instr e 0xC8 { rb := true, imm := true, ext := 3 } f (fun t =>
    let kind := f.ext.toNat % 4
    if kind = 3 then t.trap e 1 (hiWord 0xC8 f).toNat
    else
      let us := ((t.eng e).get f.rb).toNat
      (t.updScript c (fun y => { y with
        st := .waiting,
        wait := some { kind := kind, sel := f.imm.toNat, since := t.waitCount kind f.imm.toNat, start := t.now,
                       until_ := if us = 0 then none else some (t.now + us * 1000) } })).updEng e (fun x => { x with run := .waiting })))

/-- The script goes on after a WAIT with Z as given and N, C and V 0; the WAIT has cost 2 cycles and those of the wait, one in a ns (R246,
Table 3.1). -/
def State.resume (s : State) (c : ScriptId) (z : Bool) : State :=
  let e := scriptEng c
  let waited := match (s.script c).wait with | some w => s.now - w.start | none => 0
  ((s.updScript c (fun y => { y with st := .running, wait := none })).updEng e (fun x =>
    { x with run := .running, z := z, n := false, c := false, v := false })).advance e (2 + waited)

/-- The meaning of WAIT_RESUME: the awaited condition has come since the WAIT began. -/
def execWaitResume (c : ScriptId) (s : State) : Host.Outcome State Fault Refusal :=
  match (s.script c).wait with
  | none => .next s
  | some w => if w.since < s.waitCount w.kind w.sel then .next (s.resume c true) else .next s

/-- The meaning of WAIT_TIMEOUT at time `t`: a condition that has come in time has precedence. -/
def execWaitTimeout (c : ScriptId) (t : Nat) (s : State) : Host.Outcome State Fault Refusal :=
  let s := s.at t
  match (s.script c).wait with
  | none => .next s
  | some w =>
    match w.until_ with
    | none => .next s
    | some u => if u ≤ s.now then .next (s.resume c (decide (w.since < s.waitCount w.kind w.sel))) else .next s

/-- The meaning of SIG. -/
def execSig (c : ScriptId) (f : ZscFields) (s : State) : Host.Outcome State Fault Refusal :=
  let e := scriptEng c
  .next (s.instr e 0xC9 { imm := decide (f.imm.toNat < 65536) } f (fun t =>
    let code := f.imm.toNat % 65536
    let n := (t.rf (scSel c) Off.DMA_SC_SIGNAL 31 16 + 1) % 65536
    ((t.setReg (scSel c) Off.DMA_SC_SIGNAL (n * 65536 + code)).raise (scriptSrc c.val 2) [(16, code)]).advance e 1))

/-! ### Registers -/

/-- DMA_SC_STATE as it reads now. -/
def State.scState (s : State) (c : ScriptId) : Nat :=
  let x := s.script c
  b2n (c.val == 15) * 2 ^ 31 + x.cause % 16 * 2 ^ 16 + x.ctx % 8 * 2 ^ 8 + x.st.code

/-- A write of 1 to DMA_SC_TRAP.VALID clears the trap. -/
def State.scTrapClear (s : State) (c : ScriptId) : State := s.updEng (scriptEng c) (fun x => { x with trapped := none })

/-- DMA_SC_TRAP as it reads now. -/
def State.scTrap (s : State) (c : ScriptId) : Nat :=
  match (s.eng (scriptEng c)).trapped with
  | some t => 2 ^ 31 + t.1 % 256 * 2 ^ 16 + t.2 % 65536
  | none => 0

end Sys2Proof.Machine
end

