-- ==== Sys2Proof/Machine/Bus.lean ====
section
/-! DEFINITION. Host accesses to BAR0 (R38 to R46, R422 to R425): size, rights, selection, what a read returns and does, what a
write does, and the commands that are accesses of one register. -/

namespace Sys2Proof.Machine

/-! ### Whether an access is served (R39, R44, R45) -/

/-- A size and alignment that R39 allows: 32 bits; 64 bits to a pair or in the ENG and TBL windows (Table 3.11). -/
def sizeOk (off size : Nat) : Bool :=
  (size == 4 && off % 4 == 0) ||
  (size == 8 && off % 8 == 0 && (decide (0x200000 ≤ off) || (match regDef off with | some r => r.pair == 1 | none => false)))

/-- The port or axis whose right an access needs beside the block's (R44, R422). -/
def Ctx.unitOf (x : Ctx) (off : Nat) : Option UnitId :=
  let port : UnitId := ⟨x.selPort.toNat % 16, by omega⟩
  match blockRow off with
  | some 3 => if x.selChan.toNat < 64 then some ⟨x.selChan.toNat / 4 % 16, by omega⟩ else none
  | some 4 => some port
  | some 5 => some port
  | some 6 => some port
  | some 8 => if off < 0x11E000 then some ⟨16 + x.selAxis.toNat % 8, by omega⟩ else none
  | some 12 => some (engUnit (Sys2Proof.Machine.selEngine x.selEngine.toNat))
  | some 13 =>
    let v := x.selTable.toNat
    match fld v 3 0 with
    | 2 => some ⟨16 + fld v 11 8 % 8, by omega⟩
    | 3 => none
    | _ => some ⟨fld v 11 8 % 16, by omega⟩
  | _ => none

/-- Whether the context holds the right on a unit. -/
def Ctx.unitHeld (x : Ctx) (u : Option UnitId) (wr : Bool) : Bool :=
  match u with
  | none => true
  | some u => if u.val < 16 then x.port u.val wr else x.axis (u.val - 16) wr

/-- Whether the context may make an access (R44, R45): its SEL registers, ring registers and doorbells, and HIF_ID to HIF_TIME
always; reserved offsets need no right; else the block's right and the unit's. -/
def Ctx.allowed (x : Ctx) (off : Nat) (wr : Bool) : Bool :=
  match blockRow off with
  | none => true
  | some b => b == 1 || (b == 0 && decide (off < 0x48)) || (x.blk b wr && x.unitHeld (x.unitOf off) wr)

/-- An access of a wrong size or alignment, or one treated so (R39): BAD_ACCESS to the context, and a journal entry. -/
def State.badAccess (s : State) (c : CtxId) (off : Nat) : State :=
  (s.raise (mgtSrc (5 * c.val + 3)) [(32, off)]).journal { jentry 7 0 c.val with offset := off }

/-- A denied access (R45): HIF_DENIED, DENIED, and a journal entry. -/
def State.denyAccess (s : State) (c : CtxId) (off : Nat) : State :=
  ((s.updCtx c (fun x => { x with denied := some off })).raise (mgtSrc (5 * c.val + 2)) [(32, off)]).journal
    { jentry 6 0 c.val with offset := off }

/-- The unit key of a register for a context (R423, R424): 0 where it is not selected, the context, or what is selected; none
where SEL_CHAN selects a channel of the other kind. -/
def Ctx.unitKey (x : Ctx) (c : CtxId) (r : RegDef) (off : Nat) : Option Nat :=
  match r.sel with
  | .none => some 0
  | .ctx => some c.val
  | .port => some (x.selPort.toNat % 16)
  | .axis => some (x.selAxis.toNat % 8)
  | .chan => if decide (off < 0x40100) == decide (x.selChan.toNat < 64) then some (x.selChan.toNat % 80) else none
  | .engine => some 0

/-- The register that an access of a context reaches, with its unit key. -/
def State.reach (s : State) (c : CtxId) (off : Nat) : Option (RegDef × Nat) :=
  match regDef off with
  | none => none
  | some r => (s.ctxs[c].unitKey c r off).map (fun u => (r, u))

/-! ### What a register reads -/

/-- The contents as kept, WO fields reading 0. -/
def State.kept (s : State) (r : RegDef) (u off : Nat) : Nat := ((s.cell u off).val &&& ~~~r.wo).toNat

/-- One half of a 64-bit value. -/
def half (v : Nat) (hi : Bool) : Nat := if hi then v / 2 ^ 32 % 2 ^ 32 else v % 2 ^ 32

/-- A 48-bit position, sign-extended to 64 bits. -/
def ext48 (x : Int) : Nat := twos 64 (sext48 x)

/-- HIF_GSTATUS as it reads now. -/
def State.gstatus (s : State) : Nat :=
  let any (st : UState) : Bool := s.units.toList.any (fun u => u.st == st)
  b2n s.mgt.resetBusy * 2 ^ 5 + b2n s.mgt.fwPending * 2 ^ 4 + b2n ((List.finRange 16).any (fun p => s.portDegraded p)) * 2 ^ 3 +
    b2n (any .faulted) * 2 ^ 2 + b2n (any .wedged || s.scripts.toList.any (fun x => x.st == .wedged)) * 2 + b2n s.mgt.up

/-- HIF_DENIED as it reads now. -/
def Ctx.deniedWord (x : Ctx) : Nat :=
  match x.denied with
  | some o => 2 ^ 31 + o % 2 ^ 23
  | none => 0

/-- A register of the HIF block. -/
def State.liveHif (s : State) (c : CtxId) (r : RegDef) (off : Nat) : Nat :=
  let x := s.ctxs[c]
  if off = Off.HIF_ZHP then x.zhp * 2 ^ 16 + 0x3220
  else if off = Off.HIF_CTX then b2n (c.val == 0) * 2 ^ 8 + c.val
  else if off = Off.HIF_CTX_CTL then b2n x.enable
  else if off = Off.HIF_ASQ_TAIL then x.sqTail
  else if off = Off.HIF_ACQ_HEAD then x.cqHead
  else if off = Off.HIF_AQ_STATUS then x.status
  else if off = Off.HIF_RIGHTS_BLK then x.rightsBlk.toNat
  else if off = Off.HIF_RIGHTS_PORT then x.rightsPort.toNat
  else if off = Off.HIF_RIGHTS_AXIS then x.rightsAxis.toNat
  else if off = Off.HIF_DENIED then x.deniedWord
  else if off = Off.HIF_TIME_LO then half s.now false
  else if off = Off.HIF_TIME_HI then half s.now true
  else if off = Off.HIF_PTM_STATUS then s.ptmStatus
  else if off = Off.HIF_LINK then s.hifLink
  else if off = Off.HIF_GSTATUS then s.gstatus
  else s.kept r (if r.sel = .ctx then c.val else 0) off

/-- A register of the SEL block. -/
def Ctx.liveSel (x : Ctx) (off : Nat) : Nat :=
  if off = Off.SEL_PORT then x.selPort.toNat
  else if off = Off.SEL_AXIS then x.selAxis.toNat
  else if off = Off.SEL_CHAN then x.selChan.toNat
  else if off = Off.SEL_ENGINE then x.selEngine.toNat
  else if off = Off.SEL_TABLE then x.selTable.toNat
  else if off = Off.SEL_SNAP_LO then x.snapLo.toNat
  else if off = Off.SEL_SNAP_HI then x.snapHi.toNat
  else 0

/-- The queue of an EVQ offset. -/
def queueAt (r : RegDef) (off : Nat) : QueueId := ⟨(off - r.base) / 64 % 64, by omega⟩

/-- A register of the EVT block. The pop registers read 0 here (R364). -/
def State.liveEvt (s : State) (r : RegDef) (off : Nat) : Nat :=
  if r.base = Off.EVT_PEND then s.evtPend ((off - r.base) / 4)
  else if r.base = Off.EVQ_STAT then s.qStat (queueAt r off)
  else if r.base = Off.EVQ_RING_HEAD then (s.queue (queueAt r off)).ringHead
  else if r.base = Off.EVQ_RING_TAIL then (s.queue (queueAt r off)).ringTail
  else if r.base = Off.EVQ_POP_LO ∨ r.base = Off.EVQ_POP_HI then 0
  else s.kept r 0 off

/-- A register of the DMA block, of the channel of SEL_CHAN `u`. -/
def State.liveDma (s : State) (r : RegDef) (u off : Nat) : Nat :=
  let c : ChanId := ⟨u % 64, by omega⟩
  let x := s.chan c
  let k : ScriptId := ⟨u % 16, by omega⟩
  let e := s.eng (scriptEng k)
  if off = Off.DMA_DC_STATE then s.dcState c
  else if off = Off.DMA_DC_BASE_LO then half x.base false
  else if off = Off.DMA_DC_BASE_HI then half x.base true
  else if off = Off.DMA_DC_TAIL then x.tail
  else if off = Off.DMA_DC_HEAD then x.head
  else if off = Off.DMA_DC_LEVEL then x.level
  else if off = Off.DMA_DC_EOC_PEND then x.eocCount % 65536
  else if off = Off.DMA_SC_STATE then s.scState k
  else if off = Off.DMA_SC_PC then min e.pc 65535
  else if off = Off.DMA_SC_TRAP then s.scTrap k
  else if off = Off.DMA_SC_TRAP_ARG then e.trapArg.toNat
  else s.kept r u off

/-- A register of the PRT block. -/
def State.livePrt (s : State) (r : RegDef) (p : PortId) (off : Nat) : Nat :=
  let l := (s.port p).ltg
  let d := off - r.base
  if r.base = Off.PRT_HDESC then (if s.rf p.val Off.PRT_HEAD_STAT 1 0 = 0 then 0 else leAt (s.port p).head.desc d 4)
  else if r.base = Off.PRT_CONV_STAT then s.convStat p
  else if r.base = Off.PRT_TAP_STAT then s.tapStat p ⟨d / 4 % 16, by omega⟩
  else if r.base = Off.PRT_SCOEFA then s.scoefA p ⟨d / 64 % 16, by omega⟩ (d % 64 / 8)
  else if r.base = Off.PRT_SCOEFB then s.scoefB p ⟨d / 64 % 16, by omega⟩ (d % 64 / 8)
  else if r.base = Off.PRT_LTG_STAT then
    b2n (s.port p).splice.overlapTo.isSome * 2 ^ 20 + min l.drains 3 * 2 ^ 16 + (satI (l.h - s.lineNow p) 0 65535).toNat
  else if r.base = Off.PRT_LTG_SRC_LO then half (twos 64 (s.srcCount p)) false
  else if r.base = Off.PRT_LTG_SRC_HI then half (twos 64 (s.srcCount p)) true
  else if r.base = Off.PRT_LTG_HW_LO then half (twos 48 l.h) false
  else if r.base = Off.PRT_LTG_HW_HI then half (twos 48 l.h) true
  else s.kept r p.val off

/-- PIP_GAP as it reads now. -/
def State.pipGap (s : State) (p : PortId) : Nat :=
  match (s.port p).gap with
  | none => 0
  | some g =>
    let left := if g.active then g.first + g.count - (s.port p).ltg.lastLine else g.count
    b2n g.active * 2 ^ 31 + b2n (!g.active) * 2 ^ 30 + g.axis % 8 * 2 ^ 16 + min left 65535

/-- A register of the PIP and CMP blocks. -/
def State.livePip (s : State) (r : RegDef) (p : PortId) (off : Nat) : Nat :=
  let y := (s.port p).pipe
  if off = Off.PIP_BANK_STAT then setFld (setFld (s.kept r p.val off) 0 0 y.shadeBank) 1 1 y.defBank
  else if off = Off.PIP_GAP then s.pipGap p
  else if off = Off.PIP_DRIFT then (List.range 4).foldl (fun d k => d + twos 8 (y.q.getD k 0) * 2 ^ (8 * k)) 0
  else s.kept r p.val off

/-- A register of the TKS block. -/
def State.liveTks (s : State) (r : RegDef) (off : Nat) : Nat :=
  let d := off - r.base
  let v : DriveId := ⟨d / 16 % 8, by omega⟩
  let p : PortId := ⟨d / 16 % 16, by omega⟩
  if r.base = Off.TKS_STATUS then s.tksStatus
  else if r.base = Off.TKS_ID_LO then half s.tks.id false
  else if r.base = Off.TKS_ID_HI then half s.tks.id true
  else if r.base = Off.TKS_WP then s.tks.wp
  else if r.base = Off.TKS_SEGS then s.slotCountAll
  else if r.base = Off.TKS_SEG_WRITABLE then s.writable
  else if r.base = Off.TKS_SEG_PINNED then s.pinnedSlots
  else if r.base = Off.TKS_SEG_LOST then s.lostSlots
  else if r.base = Off.TKS_CUES then s.tksCues
  else if r.base = Off.TKS_DRV_STAT then setFld (s.kept r 0 off) 2 0 s.tks.drives[v].st
  else if r.base = Off.TKS_DRV_SEGS then s.tks.drives[v].nd
  else if r.base = Off.TKS_PORT_STAT then s.tksPortStat p
  else if r.base = Off.TKS_PORT_OLDEST_LO then half ((s.oldest p).getD 0) false
  else if r.base = Off.TKS_PORT_OLDEST_HI then half ((s.oldest p).getD 0) true
  else if r.base = Off.TKS_CUE then s.cueWord (d / 16) (d % 16 / 4)
  else s.kept r 0 off

/-- A register of the MOT block. -/
def State.liveMot (s : State) (r : RegDef) (u off : Nat) : Nat :=
  let a : AxisId := ⟨u % 8, by omega⟩
  let x := s.axis a
  if off = Off.MOT_STAT then s.motStat a
  else if off = Off.MOT_POS_LO then half (ext48 x.pos) false
  else if off = Off.MOT_POS_HI then half (ext48 x.pos) true
  else if off = Off.MOT_ENCC_LO then half (ext48 x.enc) false
  else if off = Off.MOT_ENCC_HI then half (ext48 x.enc) true
  else if off = Off.MOT_TGT_LO then half (ext48 x.target) false
  else if off = Off.MOT_TGT_HI then half (ext48 x.target) true
  else if off = Off.MOT_AGEAR_OUT_LO then half (ext48 x.gearOut) false
  else if off = Off.MOT_AGEAR_OUT_HI then half (ext48 x.gearOut) true
  else if off = Off.MOT_VEL then twos 32 x.velocity
  else if off = Off.MOT_AGEAR_NUM then twos 32 x.gNum
  else if off = Off.MOT_AGEAR_DEN then twos 32 x.gDen
  else if off = Off.MOT_PHASE then x.phi % 1024 * 2 ^ 16 + x.index (s.axisPos a)
  else s.kept r u off

/-- A register of the AUX block. -/
def State.liveAux (s : State) (r : RegDef) (off : Nat) : Nat :=
  let d := off - r.base
  let n : Fin 8 := ⟨d / 16 % 8, by omega⟩
  let k : Fin 4 := ⟨d / 16 % 4, by omega⟩
  if r.base = Off.AUX_SCAN_STAT then
    setFld (setFld (s.kept r 0 off) 7 4 (((List.finRange 4).map (fun i => b2n s.aux.inj[i].isSome * 2 ^ i.val)).sum)) 0 0
      (b2n s.aux.running)
  else if r.base = Off.AUX_EXC_STAT then setFld (s.kept r 0 off) 1 1 (b2n (s.excErr n))
  else if r.base = Off.AUX_INJ_REQ then setFld (s.kept r 0 off) 16 16 (b2n s.aux.inj[k].isSome)
  else s.kept r 0 off

/-- MGT_USTATEu as it reads now. -/
def State.ustate (s : State) (u : UnitId) : Nat :=
  let x := s.unit u
  min x.hwFaults 65535 * 2 ^ 16 + x.committed.getD 0 % 8 * 2 ^ 8 + x.current.getD 0 % 8 * 2 ^ 4 + x.st.code

/-- The version of an image that verifies, or 0. -/
def Mgt.shown (m : Mgt) (i : Image) : Nat := if m.verifies i then i.version % 2 ^ 32 else 0

/-- A register of the MGT block. -/
def State.liveMgt (s : State) (r : RegDef) (off : Nat) : Nat :=
  let m := s.mgt
  if off = Off.MGT_STATUS then
    m.restarts % 65536 * 2 ^ 16 + b2n m.paused * 2 ^ 3 + b2n m.staging.isSome * 2 ^ 2 + m.blSlot % 2 * 2 + m.fwSlot % 2
  else if off = Off.MGT_FW_VER_A then m.shown m.fwA
  else if off = Off.MGT_FW_VER_B then m.shown m.fwB
  else if off = Off.MGT_FW_SVN then m.revoked % 16 * 2 ^ 28 + m.svnMin % 65536
  else if r.base = Off.MGT_USTATE then s.ustate (uid ((off - r.base) / 4))
  else if off = Off.MGT_JRNL_SEQ_LO then half s.jrnl.next false
  else if off = Off.MGT_JRNL_SEQ_HI then half s.jrnl.next true
  else if off = Off.MGT_JRNL_OLDEST_LO then half s.jrnl.oldest false
  else if off = Off.MGT_JRNL_OLDEST_HI then half s.jrnl.oldest true
  else if off = Off.MGT_JRNL_STAT then s.jrnl.overflow % 32768 * 2 ^ 17 + s.jrnl.mem.length
  else if off = Off.MGT_MBOX_CTL then setFld (setFld (s.kept r 0 off) 30 30 (b2n m.mboxBusy)) 29 27 m.mboxCtx
  else if off = Off.MGT_DBG then m.dbgTries % 65536 * 2 ^ 16 + b2n m.dbgEnabled
  else s.kept r 0 off

/-- What GPIOk drives; none for high impedance, with its OE 0 or VDDIO23 out of its range (R407, R418). -/
def State.gpioOut (s : State) (k : Fin 16) : Option Bool :=
  if s.bankUp 22 && (s.cell 0 Off.CLK_GPIO_OE).force.getLsbD k then some ((s.cell 0 Off.CLK_GPIO_OUT).force.getLsbD k) else none

/-- A register of the CLK block: a GPIO pin that is driven reads its output level (R418), and every pin reads low while VDDIO23 is out of its
range (R407). The level of a pin that the device does not drive is a free value: no row brings it (log entry 120). -/
def State.liveClk (s : State) (r : RegDef) (off : Nat) : Nat :=
  if off = Off.CLK_GPIO_IN then
    let oe := (s.cell 0 Off.CLK_GPIO_OE).force
    if !s.bankUp 22 then 0
    else (((s.cell 0 Off.CLK_GPIO_OUT).force &&& oe) ||| (Config.freeWord s.free &&& 0xFFFF#32 &&& ~~~oe)).toNat
  else s.kept r 0 off

/-- What a read of a register returns now, without a side effect. -/
def State.live (s : State) (c : CtxId) (r : RegDef) (u off : Nat) : Nat :=
  let p : PortId := ⟨u % 16, by omega⟩
  match blockRow off with
  | some 0 => s.liveHif c r off
  | some 1 => s.ctxs[c].liveSel off
  | some 2 => s.liveEvt r off
  | some 3 => s.liveDma r u off
  | some 4 => s.livePrt r p off
  | some 5 => s.livePip r p off
  | some 6 => s.livePip r p off
  | some 7 => s.liveTks r off
  | some 8 => s.liveMot r u off
  | some 9 => s.liveAux r off
  | some 10 => s.liveMgt r off
  | some 11 => s.liveClk r off
  | some 12 => s.engReg (selEngine s.ctxs[c].selEngine.toNat) (off - 0x3F0000)
  | _ => 0

/-! ### Reads (R39, R42, R45) -/

/-- A field of a register takes the value of another of its fields. -/
def State.copyRf (s : State) (u off hi lo hi' lo' : Nat) : State := s.setRf u off hi lo (fld (s.reg u off) hi' lo')

/-- The side effect of a read on the RS fields (R5): PRT_GQUEUE's high-water, CMP_STALL's and the sensors' maxima take the value
of now; other RS fields clear. The next read of CLK_GPIO_IN finds the next free value. -/
def State.readEffect (s : State) (c : CtxId) (r : RegDef) (u off : Nat) : State :=
  if r.base = Off.CLK_GPIO_IN then s.tickFree
  else if r.rs = 0 then s
  else if r.base = Off.HIF_DENIED then s.updCtx c (fun x => { x with denied := none })
  else if r.base = Off.MGT_JRNL_STAT then { s with jrnl := { s.jrnl with overflow := 0 } }
  else if r.base = Off.PRT_GQUEUE then (s.setRf u off 31 16 0).copyRf u off 14 8 6 0
  else if r.base = Off.CMP_STALL ∨ r.base = Off.MGT_TEMP ∨ r.base = Off.MGT_VOLT then s.copyRf u off 31 16 15 0
  else
    let x := s.cell u off
    s.setCell u off { x with val := x.val &&& ~~~r.rs, force := x.force &&& ~~~r.rs }

/-- Both halves of a pair in one cycle; EVQ_POP removes the word it returns (R364). -/
def State.pairRead (s : State) (c : CtxId) (r : RegDef) (u off : Nat) : State × DWord :=
  if r.base = Off.EVQ_POP_LO then s.popWord (queueAt r off)
  else
    let hi := match regDef (off + 4) with | some r' => s.live c r' u (off + 4) | none => 0
    (s, BitVec.ofNat 64 (s.live c r u off + 2 ^ 32 * hi))

/-- A read of the register at an offset (R42): a _LO read renews the snapshot; the _HI read that follows it returns the snapshot
half and clears the tag. -/
def State.regRead (s : State) (c : CtxId) (off size : Nat) : State × DWord :=
  match s.reach c off with
  | none => (s, 0)
  | some (r, u) =>
    if size = 8 then s.pairRead c r u off
    else if r.pair = 1 then
      let q := s.pairRead c r u off
      (q.1.updCtx c (fun x => { x with snapLo := q.2.setWidth 32, snapHi := (q.2 >>> 32).setWidth 32, snapTag := some (rkey u off) }),
        (q.2.setWidth 32).setWidth 64)
    else
      let x := s.ctxs[c]
      if r.pair = 2 ∧ x.snapTag.map (fun k => k % 0x800000) = some (off - 4) then
        (s.updCtx c (fun y => { y with snapTag := none }), x.snapHi.setWidth 64)
      else (s.readEffect c r u off, BitVec.ofNat 64 (s.live c r u off))

/-- The place of an offset of the ENG or TBL window for a context. -/
def Ctx.winLoc (x : Ctx) (off : Nat) : Option MemLoc :=
  if off < 0x400000 then engLoc (Sys2Proof.Machine.selEngine x.selEngine.toNat) off else tblLoc x.selTable.toNat off

/-- A 32-bit word of the ENG or TBL window (R84, R166). -/
def State.winRead (s : State) (c : CtxId) (off : Nat) : Nat :=
  let x := s.ctxs[c]
  if 0x3F0000 ≤ off ∧ off < 0x400000 then s.engReg (selEngine x.selEngine.toNat) (off - 0x3F0000)
  else match x.winLoc off with
    | some l => s.memRead l
    | none => 0

/-- A host read of `size` bytes: the data it returns go to `rdata`. Without a reference no register is served (R398). -/
def State.busRead (s : State) (c : CtxId) (off size : Nat) : State :=
  if s.refSel = 3 then { s with rdata := 0 }
  else if !sizeOk off size then { s.badAccess c off with rdata := 0 }
  else if !s.ctxs[c].allowed off false then { s.denyAccess c off with rdata := 0 }
  else if 0x200000 ≤ off then
    { s with rdata := BitVec.ofNat 64 (s.winRead c off + if size = 8 then 2 ^ 32 * s.winRead c (off + 4) else 0) }
  else
    let q := s.regRead c off size
    { q.1 with rdata := q.2 }

/-! ### Writes: fields, journal (R5, R6, R384) -/

/-- The contents of a register after a write of `v`: RW fields take effect, W1C bits written 1 clear, STG and CUT fields are
staged; other fields ignore it. -/
def RegCell.written (x : RegCell) (r : RegDef) (v : Word) : RegCell :=
  let set := r.rw ||| r.stg ||| r.cut
  { x with val := (x.val &&& ~~~(set ||| (r.w1c &&& v))) ||| (v &&& set),
           force := (x.force &&& ~~~(r.rw ||| (r.w1c &&& v))) ||| (v &&& r.rw),
           stg := x.stg ||| r.stg, cut := x.cut ||| r.cut }

/-- A write to the fields of a register. -/
def State.plain (s : State) (r : RegDef) (u off v : Nat) : State :=
  s.setCell u off ((s.cell u off).written r (BitVec.ofNat 32 v))

/-- The registers whose writes R384 does not journal, and HIF_RESET, which has an entry of its own. -/
def quietRegs : List Nat :=
  [Off.HIF_ASQ_TAIL, Off.HIF_ACQ_HEAD, Off.HIF_RESET, Off.DMA_DC_TAIL, Off.DMA_SC_CTL, Off.EVQ_RING_HEAD, Off.PRT_LTG_CMD]

/-- The target word of the unit that a register belongs to (Table 2.4). -/
def regTarget (r : RegDef) (u : Nat) : Nat :=
  match r.sel with
  | .port => 0x100 + u % 16
  | .axis => 0x200 + u % 8
  | .chan => if u < 64 then 0x400 + u else 0x500 + (u - 64)
  | _ => 0

/-- Journals a write that takes effect in a field RW, STG, CUT or WO (R384); `t` is the state after it. -/
def State.noteWrite (s : State) (t : State) (c : CtxId) (r : RegDef) (u off v : Nat) : State :=
  let w : Word := BitVec.ofNat 32 v
  if r.sel ≠ .engine ∧ !quietRegs.contains r.base ∧ (r.rw ||| r.stg ||| r.cut ||| (r.wo &&& w)) ≠ 0 then
    t.journal { jentry 1 0 c.val with
      target := regTarget r u, offset := off, old := s.live c r u off,
      new := ((BitVec.ofNat 32 (t.live c r u off) &&& ~~~r.wo) ||| (w &&& r.wo)).toNat }
  else t

/-! ### Writes: what each register does besides -/

/-- Whether any unit uses master `m` as a source or trigger (MOT_MCFGm.INV). -/
def State.masterUsed (s : State) (m : Nat) : Bool :=
  (List.finRange 16).any (fun p =>
    (s.srcCode p == m + 1 && (s.unit (unitOfPort p)).st.live) ||
      ((s.port p).ltg.armed && s.rf p.val Off.PRT_GEAR_ARMCTL 1 1 == m)) ||
    s.groups.toList.any (fun g => g.armed.any (fun k => k.1 == m + 1)) ||
    s.axes.toList.any (fun x => x.geared && x.gMaster == m)

/-- The value that a write stores, where a register takes some values as others. -/
def State.adjust (s : State) (r : RegDef) (u off v : Nat) : Nat :=
  if r.base = Off.HIF_PTM_CTL then (if fld v 15 8 = 0 then setFld v 15 8 1 else v)
  else if r.base = Off.DMA_DC_EOC then (if fld v 15 0 = 0 then setFld v 15 0 (s.reg u off % 65536) else v)
  else if r.base = Off.MOT_MCFG0 then (if s.masterUsed 0 then setFld v 0 0 (s.reg u off % 2) else v)
  else if r.base = Off.MOT_MCFG1 then (if s.masterUsed 1 then setFld v 0 0 (s.reg u off % 2) else v)
  else v

/-- Whether a register takes a write now (R47, R367, R395, R402, R234, CLK_BANKb). -/
def State.takes (s : State) (c : CtxId) (r : RegDef) (u off v : Nat) : Bool :=
  if Off.HIF_ASQ_BASE_LO ≤ off ∧ off ≤ Off.HIF_AQ_SIZE then !s.ctxs[c].enable
  else if r.base = Off.EVQ_RING_BASE_LO ∨ r.base = Off.EVQ_RING_BASE_HI ∨ r.base = Off.EVQ_RING_SIZE then !s.qEn (queueAt r off)
  else if r.base = Off.MGT_MBOX_DATA then !s.mgt.mboxBusy
  else if r.base = Off.CLK_PPLL_FREQ then s.freqOk ⟨(off - r.base) / 16 % 16, by omega⟩ v
  else if r.base = Off.CLK_BANK then
    let b := (off - r.base) / 4
    !(decide (b < 16) && (let st := s.portState ⟨b % 16, by omega⟩; st == .running || st == .draining))
  else if r.base = Off.DMA_DC_CFG then (s.chan ⟨u % 64, Nat.mod_lt _ (by decide)⟩).st == 0
  else true

/-- A write to a HIF register: `t` is the state with its fields written. -/
def State.writeHif (s t : State) (c : CtxId) (off v : Nat) : State :=
  if off = Off.HIF_CTX_CTL then
    (let s1 := if bitN v 1 then s.ctlReset c else s
     if bitN v 1 && !bitN v 0 then s1 else s1.ctlEnable c (bitN v 0))
  else if off = Off.HIF_ASQ_TAIL then s.asqTail c v
  else if off = Off.HIF_ACQ_HEAD then s.acqHead c v
  else if off = Off.HIF_RESET then s.fullReset c v
  else t

/-- A write to a select register (R41): a value that names no unit is ignored whole; unused fields are stored as written. -/
def Ctx.writeSel (x : Ctx) (off v : Nat) : Ctx :=
  let w (m : Nat) : Word := BitVec.ofNat 32 (v &&& m)
  if off = Off.SEL_PORT then { x with selPort := w 0xF }
  else if off = Off.SEL_AXIS then { x with selAxis := w 7 }
  else if off = Off.SEL_CHAN then (if fld v 6 0 < 80 then { x with selChan := w 0x7F } else x)
  else if off = Off.SEL_ENGINE then
    (if fld v 5 4 = 3 ∨ (fld v 5 4 = 2 ∧ 8 ≤ fld v 3 0) then x else { x with selEngine := w 0x3F })
  else if off = Off.SEL_TABLE then
    (let k := fld v 3 0
     if 5 ≤ k ∨ (k = 2 ∧ 8 ≤ fld v 11 8) ∨ (k = 4 ∧ 32 ≤ fld v 21 16) then x else { x with selTable := w 0x3F1F0F })
  else x

/-- A write to an EVT register. -/
def State.writeEvt (s t : State) (c : CtxId) (r : RegDef) (off v : Nat) : State :=
  let q := queueAt r off
  if r.base = Off.EVT_ROUTE then s.routeWrite ((off - r.base) / 4) v
  else if r.base = Off.EVQ_CTL then s.qCtlWrite q v
  else if r.base = Off.EVQ_LEVEL then s.levelWrite q v
  else if r.base = Off.EVQ_RING_HEAD then s.ringHeadWrite c q v
  else if r.base = Off.EVQ_RING_BASE_LO ∨ r.base = Off.EVQ_RING_BASE_HI then s.ringCfgWrite q off (v % 2 ^ 32)
  else if r.base = Off.EVQ_RING_SIZE then s.ringCfgWrite q off (fld v 4 0)
  else t

/-- A write to a DMA register. -/
def State.writeDma (s t : State) (c : CtxId) (r : RegDef) (u v : Nat) : State :=
  let k : ScriptId := ⟨u % 16, by omega⟩
  if r.base = Off.DMA_DC_TAIL then s.dcTail ⟨u % 64, by omega⟩ v
  else if r.base = Off.DMA_SC_CTL then
    (let s1 := if bitN v 1 then s.scAbort k else s
     if bitN v 0 then s1.scStart k c else s1)
  else if r.base = Off.DMA_SC_TRAP then (if bitN v 31 then s.scTrapClear k else s)
  else t

/-- A write to a PRT register. -/
def State.writePrt (s t : State) (r : RegDef) (p : PortId) (v : Nat) : State :=
  if r.base = Off.PRT_HEAD_CTL then (if bitN v 0 && !(s.port p).head.reading then t.startRead p else t)
  else if r.base = Off.PRT_OV then t.ovAgain p (v &&& s.reg p.val Off.PRT_OV)
  else if r.base = Off.PRT_CONV_CTL then (let t1 := s.bgWrite t p; if bitN v 31 then t1.calNow p else t1)
  else if r.base = Off.PRT_WATCH then s.watchWrite t p
  else if r.base = Off.PRT_GCFG then (if s.driving p then t else t.idleOuts p)
  else if r.base = Off.PRT_LTG_CMD then s.hostTick p v
  else if r.base = Off.PRT_GEAR_ARMCTL then s.gearArm p v
  else if r.base = Off.PRT_GEAR_LCFG then s.gearLatchCfg p v
  else t

/-- A write to a PIP or CMP register. -/
def State.writePip (s t : State) (r : RegDef) (p : PortId) (v : Nat) : State :=
  if r.base = Off.PIP_BANK_CTL then s.bankCtl p v
  else if r.base = Off.CMP_CTL then
    (if bitN v 31 then s.updPort p (fun x => { x with pipe := { x.pipe with inject := true } }) else s)
  else t

/-- A write to a TKS register: FORMAT with its key while EN is 0 (R270); EN cleared closes what records (R273). -/
def State.writeTks (s : State) (r : RegDef) (off v : Nat) : State :=
  if off = Off.TKS_CTL then
    let s1 := if fld v 31 16 = 0x7A5E then s.format else s
    let s2 := s1.plain r 0 off v
    if s.rf 0 Off.TKS_CTL 0 0 = 1 ∧ !bitN v 0 then (List.finRange 16).foldl State.closeDisabled s2 else s2
  else if r.base = Off.TKS_DRV_CTL then (if bitN v 0 then s.join ⟨(off - r.base) / 16 % 8, by omega⟩ else s)
  else s.plain r 0 off v

/-- A write to a MOT register. -/
def State.writeMot (s t : State) (r : RegDef) (u off v : Nat) : State :=
  if r.base = Off.MOT_GRP_CTL then s.groupCtl ⟨(off - r.base) / 64 % 4, by omega⟩ v
  else if r.base = Off.MOT_MSTEP_CTL then (if bitN v 0 then s.reqSwap ⟨u % 8, by omega⟩ else s)
  else t

/-- A write to an AUX register. -/
def State.writeAux (s t : State) (r : RegDef) (off v : Nat) : State :=
  let n := (off - r.base) / 16
  if r.base = Off.AUX_SCAN_CTL then (let t1 := if bitN v 31 then t.pdWrite.scanGo else t.pdWrite; t1.scanNext)
  else if r.base = Off.AUX_SCAN_MASK then t.scanNext
  else if r.base = Off.AUX_EXC_CFG then t.excWrite ⟨n % 8, by omega⟩
  else if r.base = Off.AUX_INJ_REQ then (if bitN v 31 then s.injRequest ⟨n % 4, by omega⟩ else s)
  else if r.base = Off.AUX_OV then s.auxOvClear v
  else if r.base = Off.AUX_CAL_CTL then
    (let t1 := if bitN v 30 then t.auxCalAbort else t
     if bitN v 31 then t1.calGo else t1)
  else t

/-- A write to a register that takes it. -/
def State.act (s : State) (c : CtxId) (r : RegDef) (u off v : Nat) : State :=
  let p : PortId := ⟨u % 16, by omega⟩
  let t := s.plain r u off v
  match blockRow off with
  | some 0 => s.writeHif t c off v
  | some 1 => s.updCtx c (fun x => x.writeSel off v)
  | some 2 => s.writeEvt t c r off v
  | some 3 => s.writeDma t c r u v
  | some 4 => s.writePrt t r p v
  | some 5 => s.writePip t r p v
  | some 6 => s.writePip t r p v
  | some 7 => s.writeTks r off v
  | some 8 => s.writeMot t r u off v
  | some 9 => s.writeAux t r off v
  | some 10 => if r.base = Off.MGT_MBOX_CTL && bitN v 31 then t.mboxGo c else t
  | some 11 => if r.base = Off.CLK_PPLL_FREQ then s.freqWrite ⟨(off - r.base) / 16 % 16, by omega⟩ (v % 2 ^ 32) else t
  | _ => s

/-- A 32-bit write to a register: dropped, or made and journaled. -/
def State.wordWrite (s : State) (c : CtxId) (r : RegDef) (u off v : Nat) : State :=
  if !s.takes c r u off v then s
  else
    let w := s.adjust r u off v
    let t := s.act c r u off w
    if r.sel = .ctx ∧ 0x10000 ≤ off then t else s.noteWrite t c r u off w

/-- A write to the register at `off` of unit `u`, if one lies there. -/
def State.halfWrite (s : State) (c : CtxId) (u off v : Nat) : State :=
  match regDef off with
  | some r => s.wordWrite c r u off v
  | none => s

/-- SC15's registers of R242. -/
def lockedSc (r : RegDef) (u : Nat) : Bool :=
  u == 79 && [Off.DMA_SC_CTL, Off.DMA_SC_CFG, Off.DMA_SC_BASE_LO, Off.DMA_SC_BASE_HI, Off.DMA_SC_LEN, Off.DMA_SC_ARG].contains r.base

/-- A write to the register at an offset (R43): a _LO half is held; the _HI half commits both, or itself with the present _LO. -/
def State.regWrite (s : State) (c : CtxId) (off size v : Nat) : State :=
  match s.reach c off with
  | none => s
  | some (r, u) =>
    if lockedSc r u then s.badAccess c off
    else if size = 8 then (s.halfWrite c u off (v % 2 ^ 32)).halfWrite c u (off + 4) (v / 2 ^ 32 % 2 ^ 32)
    else if r.pair = 1 then
      if !s.takes c r u off v then s
      else s.updCtx c (fun x => { x with holdVal := BitVec.ofNat 32 v, holdTag := some (rkey u off) })
    else if r.pair = 2 ∧ s.ctxs[c].holdTag = some (rkey u (off - 4)) then
      let lo := s.ctxs[c].holdVal.toNat
      ((s.updCtx c (fun x => { x with holdTag := none })).halfWrite c u (off - 4) lo).halfWrite c u off (v % 2 ^ 32)
    else s.halfWrite c u off (v % 2 ^ 32)

/-! ### Window writes (R85, R168, R186, R325, R384) -/

/-- The memory that a place lies in: the base address of its table in the device map (Table 9.1), and the offset in bytes. Scratch
and instruction memory, which are not in the map, take their offsets of the ENG window. -/
def MemLoc.base (l : MemLoc) : Nat × Nat :=
  let e (x : EngId) (k : Nat) : Nat :=
    0x2000000 + engKind x * 0x400000 + (if engKind x = 2 then x.val - 32 else x.val % 16) * 0x20000 + k * 0x4000
  match l with
  | .shade p b w => (b * 0x400000 + p.val * 0x40000, 4 * w)
  | .defect p b w => (0x800000 + b * 0x20000 + p.val * 0x2000, 4 * w)
  | .lut p i w => (0x1000000 + p.val * 0x40000 + i * 0x2000, 4 * w)
  | .index t w => (0x1800000 + t * 0x8000, 4 * w)
  | .mstepNext a w => (0x1A00000 + a.val * 0x10000, 4 * w)
  | .mstepNow a w => (0x1A00000 + a.val * 0x10000 + 0x200, 4 * w)
  | .param x k w => (e x k, 4 * w)
  | .scratch _ w => (0x380000, 4 * w)
  | .imem _ w => (0x200000, 4 * w)
  | .store w => (0x3000000, 4 * w)

/-- The code of a memory write's entry: the engine number for scratch, which has no address in the device map. -/
def MemLoc.engCode (l : MemLoc) : Nat :=
  match l with
  | .scratch e _ => e.val
  | _ => 0

/-- A journaled memory write (R384): one entry per context and table per 1 ms of host writes, with the first and last offset and
the number of writes, wherever the entry then lies; an entry that a full memory did not keep is lost once (log entry 112). -/
def State.noteMem (s : State) (c : CtxId) (l : MemLoc) : State :=
  let b := l.base
  let same (e : JEntry) : Bool :=
    e.kind == 3 && e.origin == 0 && e.source == c.val && e.offset == b.1 && e.code == l.engCode && decide (s.now < e.time + 1000000)
  let again (e : JEntry) : JEntry := if same e then { e with new := b.2, count := e.count + 1 } else e
  let je := { jentry 3 0 c.val with
    code := l.engCode, target := (match l.rights.2 with | some u => unitTarget u | none => 0), offset := b.1, old := b.2,
    new := b.2, count := 1 }
  if s.jrnl.mem.any same || s.jrnl.ring.any same then
    { s with jrnl := { s.jrnl with mem := s.jrnl.mem.map again, ring := s.jrnl.ring.map again } }
  else if s.jrnl.lostMem.any same then s
  else
    let live := s.jrnl.lostMem.filter (fun e => decide (s.now < e.time + 1000000))
    let s1 := { s with jrnl := { s.jrnl with
      lostMem := if journalCap ≤ s.jrnl.mem.length then { je with time := s.now } :: live else live } }
    s1.journal je

/-- One word of a window write that is accepted. -/
def State.winWord (s : State) (c : CtxId) (off v : Nat) : State :=
  let x := s.ctxs[c]
  if 0x3F0000 ≤ off ∧ off < 0x400000 then s.engRegWrite (selEngine x.selEngine.toNat) (off - 0x3F0000) v
  else match x.winLoc off with
    | some l => (s.memWrite l v).noteMem c l
    | none => s

/-- Whether a word of a window is closed to writes now. -/
def State.winShut (s : State) (c : CtxId) (off : Nat) : Bool :=
  match s.ctxs[c].winLoc off with
  | some l => s.memBlocked l
  | none => false

/-- A write to the ENG or TBL window: one to a closed place is treated as under R39, a 64-bit one whole. -/
def State.winWrite (s : State) (c : CtxId) (off size v : Nat) : State :=
  if s.winShut c off || (size == 8 && s.winShut c (off + 4)) then s.badAccess c off
  else
    let s1 := s.winWord c off (v % 2 ^ 32)
    if size = 8 then s1.winWord c (off + 4) (v / 2 ^ 32 % 2 ^ 32) else s1

/-- A host write of `size` bytes. -/
def State.busWrite (s : State) (c : CtxId) (off size v : Nat) : State :=
  if s.refSel = 3 then s
  else if !sizeOk off size then s.badAccess c off
  else if !s.ctxs[c].allowed off true then s.denyAccess c off
  else if 0x200000 ≤ off then s.winWrite c off size v
  else s.regWrite c off size v

/-! ### The commands -/

/-- The meaning of REG_WRITE (R40): a host write of `size` bytes at an aperture offset. -/
def execRegWrite (c : CtxId) (off : BitVec 23) (size : Nat) (v : DWord) (s : State) : Host.Outcome State Fault Refusal :=
  .next (s.busWrite c off.toNat size v.toNat)

/-- The meaning of ENG_WINDOW_WRITE (R85): a write at `off` of the ENG window. -/
def execEngWindowWrite (c : CtxId) (off : BitVec 21) (size : Nat) (v : DWord) (s : State) : Host.Outcome State Fault Refusal :=
  .next (s.busWrite c (0x200000 + off.toNat) size v.toNat)

/-- The meaning of TBL_WINDOW_WRITE (R168): a write at `off` of the TBL window. -/
def execTblWindowWrite (c : CtxId) (off : BitVec 22) (size : Nat) (v : DWord) (s : State) : Host.Outcome State Fault Refusal :=
  .next (s.busWrite c (0x400000 + off.toNat) size v.toNat)

/-- The table entry at an offset of the TBL window: port, table, logical bank, entry. -/
def State.tblEntry (s : State) (c : CtxId) (off : Nat) : Option (PortId × Nat × Nat × Nat) :=
  if off < 0x400000 then none
  else match s.ctxs[c].winLoc off with
    | some (.shade p b w) => some (p, 0, b, w)
    | some (.defect p b w) => some (p, 1, b, w / 2)
    | _ => none

/-- The errors of a read of a table through the TBL window (R170): `corr` corrected reads count, at most the words read; an entry that is
uncorrectable (`bad`, or in a remapped row) counts, and what is returned for it is a free value (log entry 180). -/
def State.tblEcc (s : State) (c : CtxId) (off size corr : Nat) (bad : Bool) : State :=
  if s.refSel = 3 || !sizeOk off size || !s.ctxs[c].allowed off false then s
  else match s.tblEntry c off with
    | none => s
    | some (p, table, b, e) =>
      let s1 := s.incRf p.val Off.PIP_ECC 15 0 (min corr (size / 4))
      if bad || (s.port p).pipe.unreadable table (s.phys p table b) e then
        { s1.eccCount p table b e with rdata := BitVec.ofNat 64 (Config.freeNat (8 * size) s.free % 2 ^ (8 * size)) }.tickFree
      else s1

/-- The meaning of PAIR_LO_READ (R42): a read of 4 or, of the whole pair, 8 bytes, with the errors of a table read
(R170). -/
def execPairLoRead (c : CtxId) (off : BitVec 23) (rd : PairRead) (s : State) : Host.Outcome State Fault Refusal :=
  .next ((s.busRead c off.toNat rd.size).tblEcc c off.toNat rd.size rd.corr rd.bad)

/-- The meaning of PAIR_HI_READ (R42). -/
def execPairHiRead (c : CtxId) (off : BitVec 23) (s : State) : Host.Outcome State Fault Refusal := .next (s.busRead c off.toNat 4)

/-- The meaning of PAIR_LO_WRITE (R43). -/
def execPairLoWrite (c : CtxId) (off : BitVec 23) (v : Word) (s : State) : Host.Outcome State Fault Refusal :=
  .next (s.busWrite c off.toNat 4 v.toNat)

/-- The meaning of PAIR_HI_WRITE (R43). -/
def execPairHiWrite (c : CtxId) (off : BitVec 23) (v : Word) (s : State) : Host.Outcome State Fault Refusal :=
  .next (s.busWrite c off.toNat 4 v.toNat)

/-- The meaning of EVQ_POP (R364): a 64-bit read of the pair. -/
def execEvqPop (c : CtxId) (q : QueueId) (s : State) : Host.Outcome State Fault Refusal :=
  .next (s.busRead c (Off.EVQ_POP_LO + 64 * q.val) 8)

/-- The meaning of EVQ_RING_CFG_WRITE (R367): register 0 the base (64 bits), 1 the size. -/
def execEvqRingCfgWrite (c : CtxId) (q : QueueId) (size : Bool) (v : DWord) (s : State) : Host.Outcome State Fault Refusal :=
  .next (if size then s.busWrite c (Off.EVQ_RING_SIZE + 64 * q.val) 4 (v.toNat % 2 ^ 32)
    else s.busWrite c (Off.EVQ_RING_BASE_LO + 64 * q.val) 8 v.toNat)

/-- The meaning of SEL_PORT_WRITE (R41): a 32-bit write. -/
def execSelPortWrite (c : CtxId) (v : Word) (s : State) : Host.Outcome State Fault Refusal :=
  .next (s.busWrite c Off.SEL_PORT 4 v.toNat)

/-- The meaning of SEL_AXIS_WRITE (R41): a 32-bit write. -/
def execSelAxisWrite (c : CtxId) (v : Word) (s : State) : Host.Outcome State Fault Refusal :=
  .next (s.busWrite c Off.SEL_AXIS 4 v.toNat)

/-- The meaning of SEL_CHAN_WRITE (R41): a 32-bit write. -/
def execSelChanWrite (c : CtxId) (v : Word) (s : State) : Host.Outcome State Fault Refusal :=
  .next (s.busWrite c Off.SEL_CHAN 4 v.toNat)

/-- The meaning of SEL_ENGINE_WRITE (R41): a 32-bit write. -/
def execSelEngineWrite (c : CtxId) (v : Word) (s : State) : Host.Outcome State Fault Refusal :=
  .next (s.busWrite c Off.SEL_ENGINE 4 v.toNat)

/-- The meaning of SEL_TABLE_WRITE (R41): a 32-bit write. -/
def execSelTableWrite (c : CtxId) (v : Word) (s : State) : Host.Outcome State Fault Refusal :=
  .next (s.busWrite c Off.SEL_TABLE 4 v.toNat)

/-- The meaning of HIF_CTX_CTL_ENABLE (R47): a 32-bit write. -/
def execHifCtxCtlEnable (c : CtxId) (v : Word) (s : State) : Host.Outcome State Fault Refusal :=
  .next (s.busWrite c Off.HIF_CTX_CTL 4 v.toNat)

/-- The meaning of HIF_CTX_CTL_RESET (R52): a 32-bit write. -/
def execHifCtxCtlReset (c : CtxId) (v : Word) (s : State) : Host.Outcome State Fault Refusal :=
  .next (s.busWrite c Off.HIF_CTX_CTL 4 v.toNat)

/-- The meaning of HIF_ASQ_TAIL_WRITE (R51): a 32-bit write. -/
def execHifAsqTailWrite (c : CtxId) (v : Word) (s : State) : Host.Outcome State Fault Refusal :=
  .next (s.busWrite c Off.HIF_ASQ_TAIL 4 v.toNat)

/-- The meaning of HIF_ACQ_HEAD_WRITE (R48): a 32-bit write. -/
def execHifAcqHeadWrite (c : CtxId) (v : Word) (s : State) : Host.Outcome State Fault Refusal :=
  .next (s.busWrite c Off.HIF_ACQ_HEAD 4 v.toNat)

/-- The meaning of FULL_RESET (R33, R382, R383): a 32-bit write. -/
def execFullReset (c : CtxId) (v : Word) (s : State) : Host.Outcome State Fault Refusal :=
  .next (s.busWrite c Off.HIF_RESET 4 v.toNat)

/-- The meaning of TICK (R295): a 32-bit write. -/
def execTick (c : CtxId) (v : Word) (s : State) : Host.Outcome State Fault Refusal :=
  .next (s.busWrite c Off.PRT_LTG_CMD 4 v.toNat)

/-- The meaning of CMP_CTL_INJECT (R200): a 32-bit write. -/
def execCmpCtlInject (c : CtxId) (v : Word) (s : State) : Host.Outcome State Fault Refusal :=
  .next (s.busWrite c Off.CMP_CTL 4 v.toNat)

/-- The meaning of DMA_SC_CTL_START (R239): a 32-bit write. -/
def execDmaScCtlStart (c : CtxId) (v : Word) (s : State) : Host.Outcome State Fault Refusal :=
  .next (s.busWrite c Off.DMA_SC_CTL 4 v.toNat)

/-- The meaning of DMA_SC_CTL_ABORT (R240): a 32-bit write. -/
def execDmaScCtlAbort (c : CtxId) (v : Word) (s : State) : Host.Outcome State Fault Refusal :=
  .next (s.busWrite c Off.DMA_SC_CTL 4 v.toNat)

/-- The meaning of REREAD (R99): a 32-bit write. -/
def execReread (c : CtxId) (v : Word) (s : State) : Host.Outcome State Fault Refusal :=
  .next (s.busWrite c Off.PRT_HEAD_CTL 4 v.toNat)

/-- The meaning of PRT_OV_CLEAR (R129): a 32-bit write. -/
def execPrtOvClear (c : CtxId) (v : Word) (s : State) : Host.Outcome State Fault Refusal :=
  .next (s.busWrite c Off.PRT_OV 4 v.toNat)

/-- The meaning of CAL_NOW (R140): a 32-bit write. -/
def execCalNow (c : CtxId) (v : Word) (s : State) : Host.Outcome State Fault Refusal :=
  .next (s.busWrite c Off.PRT_CONV_CTL 4 v.toNat)

/-- The meaning of VERIFY_S (R167, R169): a 32-bit write. -/
def execVerifyS (c : CtxId) (v : Word) (s : State) : Host.Outcome State Fault Refusal :=
  .next (s.busWrite c Off.PIP_BANK_CTL 4 v.toNat)

/-- The meaning of VERIFY_D (R167, R169): a 32-bit write. -/
def execVerifyD (c : CtxId) (v : Word) (s : State) : Host.Outcome State Fault Refusal :=
  .next (s.busWrite c Off.PIP_BANK_CTL 4 v.toNat)

/-- The meaning of UNFLIP_S (R167, R169): a 32-bit write. -/
def execUnflipS (c : CtxId) (v : Word) (s : State) : Host.Outcome State Fault Refusal :=
  .next (s.busWrite c Off.PIP_BANK_CTL 4 v.toNat)

/-- The meaning of UNFLIP_D (R167, R169): a 32-bit write. -/
def execUnflipD (c : CtxId) (v : Word) (s : State) : Host.Outcome State Fault Refusal :=
  .next (s.busWrite c Off.PIP_BANK_CTL 4 v.toNat)

/-- The meaning of DMA_DC_TAIL_WRITE (R226): a 32-bit write. -/
def execDmaDcTailWrite (c : CtxId) (v : Word) (s : State) : Host.Outcome State Fault Refusal :=
  .next (s.busWrite c Off.DMA_DC_TAIL 4 v.toNat)

/-- The meaning of FORMAT (R270): a 32-bit write. -/
def execFormat (c : CtxId) (v : Word) (s : State) : Host.Outcome State Fault Refusal :=
  .next (s.busWrite c Off.TKS_CTL 4 v.toNat)

/-- The meaning of JOIN (R270): a 32-bit write. -/
def execJoin (c : CtxId) (d : DriveId) (v : Word) (s : State) : Host.Outcome State Fault Refusal :=
  .next (s.busWrite c (Off.TKS_DRV_CTL + 16 * d.val) 4 v.toNat)

/-- The meaning of PRT_GEAR_ARMCTL_WRITE (R298, R300): a 32-bit write. -/
def execPrtGearArmctlWrite (c : CtxId) (v : Word) (s : State) : Host.Outcome State Fault Refusal :=
  .next (s.busWrite c Off.PRT_GEAR_ARMCTL 4 v.toNat)

/-- The meaning of GEAR_LATCH_ARM (R301): a 32-bit write. -/
def execGearLatchArm (c : CtxId) (v : Word) (s : State) : Host.Outcome State Fault Refusal :=
  .next (s.busWrite c Off.PRT_GEAR_LCFG 4 v.toNat)

/-- The meaning of GROUP_RUN (R304): a 32-bit write. -/
def execGroupRun (c : CtxId) (g : GroupId) (v : Word) (s : State) : Host.Outcome State Fault Refusal :=
  .next (s.busWrite c (Off.MOT_GRP_CTL + 64 * g.val) 4 v.toNat)

/-- The meaning of GROUP_HOLD (R305): a 32-bit write. -/
def execGroupHold (c : CtxId) (g : GroupId) (v : Word) (s : State) : Host.Outcome State Fault Refusal :=
  .next (s.busWrite c (Off.MOT_GRP_CTL + 64 * g.val) 4 v.toNat)

/-- The meaning of MSTEP_SWAP (R325): a 32-bit write. -/
def execMstepSwap (c : CtxId) (v : Word) (s : State) : Host.Outcome State Fault Refusal :=
  .next (s.busWrite c Off.MOT_MSTEP_CTL 4 v.toNat)

/-- The meaning of AUX_SCAN_START (R343): a 32-bit write. -/
def execAuxScanStart (c : CtxId) (v : Word) (s : State) : Host.Outcome State Fault Refusal :=
  .next (s.busWrite c Off.AUX_SCAN_CTL 4 v.toNat)

/-- The meaning of AUX_OV_CLEAR (R342): a 32-bit write. -/
def execAuxOvClear (c : CtxId) (v : Word) (s : State) : Host.Outcome State Fault Refusal :=
  .next (s.busWrite c Off.AUX_OV 4 v.toNat)

/-- The meaning of AUX_INJ_REQ (R351): a 32-bit write. -/
def execAuxInjReq (c : CtxId) (n : Fin 4) (v : Word) (s : State) : Host.Outcome State Fault Refusal :=
  .next (s.busWrite c (Off.AUX_INJ_REQ + 16 * n.val) 4 v.toNat)

/-- The meaning of AUX_CAL_GO (R353): a 32-bit write. -/
def execAuxCalGo (c : CtxId) (v : Word) (s : State) : Host.Outcome State Fault Refusal :=
  .next (s.busWrite c Off.AUX_CAL_CTL 4 v.toNat)

/-- The meaning of AUX_CAL_ABORT (R354): a 32-bit write. -/
def execAuxCalAbort (c : CtxId) (v : Word) (s : State) : Host.Outcome State Fault Refusal :=
  .next (s.busWrite c Off.AUX_CAL_CTL 4 v.toNat)

/-- The meaning of EVQ_FLUSH (R365): a 32-bit write. -/
def execEvqFlush (c : CtxId) (q : QueueId) (v : Word) (s : State) : Host.Outcome State Fault Refusal :=
  .next (s.busWrite c (Off.EVQ_CTL + 64 * q.val) 4 v.toNat)

/-- The meaning of EVQ_CTL_WRITE (R367): a 32-bit write. -/
def execEvqCtlWrite (c : CtxId) (q : QueueId) (v : Word) (s : State) : Host.Outcome State Fault Refusal :=
  .next (s.busWrite c (Off.EVQ_CTL + 64 * q.val) 4 v.toNat)

/-- The meaning of EVQ_RING_HEAD_WRITE (R367): a 32-bit write. -/
def execEvqRingHeadWrite (c : CtxId) (q : QueueId) (v : Word) (s : State) : Host.Outcome State Fault Refusal :=
  .next (s.busWrite c (Off.EVQ_RING_HEAD + 64 * q.val) 4 v.toNat)

/-- The meaning of EVQ_LEVEL_WRITE (R369): a 32-bit write. -/
def execEvqLevelWrite (c : CtxId) (q : QueueId) (v : Word) (s : State) : Host.Outcome State Fault Refusal :=
  .next (s.busWrite c (Off.EVQ_LEVEL + 64 * q.val) 4 v.toNat)

/-- The meaning of EVT_ROUTE_WRITE (R358): a 32-bit write. -/
def execEvtRouteWrite (c : CtxId) (src : Fin 1536) (v : Word) (s : State) : Host.Outcome State Fault Refusal :=
  .next (s.busWrite c (Off.EVT_ROUTE + 4 * src.val) 4 v.toNat)

/-- The meaning of CLK_PPLL_FREQ_WRITE (R402): a 32-bit write. -/
def execClkPpllFreqWrite (c : CtxId) (p : PortId) (v : Word) (s : State) : Host.Outcome State Fault Refusal :=
  .next (s.busWrite c (Off.CLK_PPLL_FREQ + 16 * p.val) 4 v.toNat)

/-- The meaning of HIF_DENIED_READ (R45): a 32-bit read. -/
def execHifDeniedRead (c : CtxId) (s : State) : Host.Outcome State Fault Refusal :=
  .next (s.busRead c Off.HIF_DENIED 4)

/-- The meaning of PRT_GQUEUE_READ (R5): a 32-bit read. -/
def execPrtGqueueRead (c : CtxId) (s : State) : Host.Outcome State Fault Refusal :=
  .next (s.busRead c Off.PRT_GQUEUE 4)

/-- The meaning of PRT_GREJECT_READ (R5): a 32-bit read. -/
def execPrtGrejectRead (c : CtxId) (s : State) : Host.Outcome State Fault Refusal :=
  .next (s.busRead c Off.PRT_GREJECT 4)

/-- The meaning of PRT_LTG_EARLY_READ (R5): a 32-bit read. -/
def execPrtLtgEarlyRead (c : CtxId) (s : State) : Host.Outcome State Fault Refusal :=
  .next (s.busRead c Off.PRT_LTG_EARLY 4)

/-- The meaning of PIP_ECC_READ (R5): a 32-bit read. -/
def execPipEccRead (c : CtxId) (s : State) : Host.Outcome State Fault Refusal :=
  .next (s.busRead c Off.PIP_ECC 4)

/-- The meaning of PIP_ECC_ADDR_READ (R5): a 32-bit read. -/
def execPipEccAddrRead (c : CtxId) (s : State) : Host.Outcome State Fault Refusal :=
  .next (s.busRead c Off.PIP_ECC_ADDR 4)

/-- The meaning of PIP_LANE_STAT_READ (R5): a 32-bit read. -/
def execPipLaneStatRead (c : CtxId) (s : State) : Host.Outcome State Fault Refusal :=
  .next (s.busRead c Off.PIP_LANE_STAT 4)

/-- The meaning of CMP_VERIFY_READ (R5): a 32-bit read. -/
def execCmpVerifyRead (c : CtxId) (s : State) : Host.Outcome State Fault Refusal :=
  .next (s.busRead c Off.CMP_VERIFY 4)

/-- The meaning of CMP_BAD_READ (R5): a 32-bit read. -/
def execCmpBadRead (c : CtxId) (s : State) : Host.Outcome State Fault Refusal :=
  .next (s.busRead c Off.CMP_BAD 4)

/-- The meaning of CMP_STALL_READ (R5): a 32-bit read. -/
def execCmpStallRead (c : CtxId) (s : State) : Host.Outcome State Fault Refusal :=
  .next (s.busRead c Off.CMP_STALL 4)

/-- The meaning of DMA_DC_DROP_READ (R5): a 32-bit read. -/
def execDmaDcDropRead (c : CtxId) (s : State) : Host.Outcome State Fault Refusal :=
  .next (s.busRead c Off.DMA_DC_DROP 4)

/-- The meaning of DMA_DC_ERR_READ (R5): a 32-bit read. -/
def execDmaDcErrRead (c : CtxId) (s : State) : Host.Outcome State Fault Refusal :=
  .next (s.busRead c Off.DMA_DC_ERR 4)

/-- The meaning of DMA_SC_FAULT_READ (R5): a 32-bit read. -/
def execDmaScFaultRead (c : CtxId) (s : State) : Host.Outcome State Fault Refusal :=
  .next (s.busRead c Off.DMA_SC_FAULT 4)

/-- The meaning of MOT_CHATTER_READ (R5): a 32-bit read. -/
def execMotChatterRead (c : CtxId) (s : State) : Host.Outcome State Fault Refusal :=
  .next (s.busRead c Off.MOT_CHATTER 4)

/-- The meaning of AUX_SCAN_STAT_READ (R5): a 32-bit read. -/
def execAuxScanStatRead (c : CtxId) (s : State) : Host.Outcome State Fault Refusal :=
  .next (s.busRead c Off.AUX_SCAN_STAT 4)

/-- The meaning of MGT_FAULT_READ (R5): a 32-bit read. -/
def execMgtFaultRead (c : CtxId) (s : State) : Host.Outcome State Fault Refusal :=
  .next (s.busRead c Off.MGT_FAULT 4)

/-- The meaning of MGT_FAULT_CNT_READ (R5): a 32-bit read. -/
def execMgtFaultCntRead (c : CtxId) (s : State) : Host.Outcome State Fault Refusal :=
  .next (s.busRead c Off.MGT_FAULT_CNT 4)

/-- The meaning of MGT_JRNL_STAT_READ (R5): a 32-bit read. -/
def execMgtJrnlStatRead (c : CtxId) (s : State) : Host.Outcome State Fault Refusal :=
  .next (s.busRead c Off.MGT_JRNL_STAT 4)

/-- The meaning of CMP_SHIFT_READ (R5): a 32-bit read. -/
def execCmpShiftRead (c : CtxId) (i : Fin 16) (s : State) : Host.Outcome State Fault Refusal :=
  .next (s.busRead c (Off.CMP_SHIFT + 4 * i.val) 4)

/-- The meaning of TKS_PORT_DROP_READ (R5): a 32-bit read. -/
def execTksPortDropRead (c : CtxId) (p : PortId) (s : State) : Host.Outcome State Fault Refusal :=
  .next (s.busRead c (Off.TKS_PORT_DROP + 16 * p.val) 4)

/-- The meaning of AUX_EXC_STAT_READ (R5): a 32-bit read. -/
def execAuxExcStatRead (c : CtxId) (n : Fin 8) (s : State) : Host.Outcome State Fault Refusal :=
  .next (s.busRead c (Off.AUX_EXC_STAT + 16 * n.val) 4)

/-- The meaning of AUX_INJ_REQ_READ (R5): a 32-bit read. -/
def execAuxInjReqRead (c : CtxId) (n : Fin 4) (s : State) : Host.Outcome State Fault Refusal :=
  .next (s.busRead c (Off.AUX_INJ_REQ + 16 * n.val) 4)

/-- The meaning of EVQ_LOST_READ (R5): a 32-bit read. -/
def execEvqLostRead (c : CtxId) (q : QueueId) (s : State) : Host.Outcome State Fault Refusal :=
  .next (s.busRead c (Off.EVQ_LOST + 64 * q.val) 4)

/-- The meaning of MGT_SENSOR_READ (R5): a 32-bit read of MGT_TEMPi, or from 12 on of MGT_VOLT(i - 12). -/
def execMgtSensorRead (c : CtxId) (i : Fin 32) (s : State) : Host.Outcome State Fault Refusal :=
  .next (s.busRead c (if i.val < 12 then Off.MGT_TEMP + 4 * i.val else Off.MGT_VOLT + 4 * (i.val - 12)) 4)

end Sys2Proof.Machine
end

