-- ==== Sys2Proof/Machine/Supply.lean ====
section
/-! DEFINITION. Banks and the thermal trip (R97, R407, R412). -/

namespace Sys2Proof.Machine

/-- A port bank goes down (R97): the head counts as absent; its outputs are at high impedance and its inputs read low. -/
def State.bankDown (s : State) (p : PortId) : State :=
  let s1 := s.updPort p (fun x => { x with head := { x.head with bankOk := false } })
  if (s.port p).head.present || s.rf p.val Off.PRT_HEAD_STAT 1 0 ≠ 0 then s1.headRemoved p else s1

/-- The inputs of a bank that is going down fall low (R407): those of switches with VDDIO17, of encoders and masters with VDDIO18, PERST_L,
which resets the host attachment, and STOP_IN_L with VDDIO20. No rule reads the level of TSn_PRSNT_L (VDDIO19). -/
def State.inputsLow (s : State) (b : Nat) : State :=
  if b = 16 then
    (List.finRange 8).foldl (fun t a => (List.finRange 4).foldl (fun u j => u.switchPin a j false) t) s
  else if b = 17 then
    (List.finRange 2).foldl (fun t m => t.masterPins m false false false 15)
      ((List.finRange 8).foldl (fun t a => t.encoderPins a false false false 15) s)
  else if b = 19 then (if s.link.perst then s else s.perstLow).stopPin true
  else s

/-- What THERMTRIP_L drives, an open-drain output of VDDIO20: low after a thermal trip, else nothing (R407, R412). -/
def State.thermtripOut (s : State) : Option Bool := if s.bankUp 19 && s.clk.tripped then some false else none

/-- Whether the outputs of bank VDDIO(b + 1) drive their pins at all (R407): of TSn_PERST_L (VDDIO19) and the flash (VDDIO21) published
standards give the levels. -/
def State.outputsOn (s : State) (b : Nat) : Bool := s.bankUp b

/-- The meaning of BANK_POWER_CHANGE (R97, R99, R407): bank b + 1 enters or leaves its operating range. A port bank that comes up
for the first time has its head descriptor read. -/
def execBankPowerChange (b : Fin 24) (up : Bool) (s : State) : Host.Outcome State Fault Refusal :=
  let off := Off.CLK_BANK + 4 * b.val
  let was := s.rf 0 off 31 31 = 1
  let s1 := s.setRf 0 off 31 31 (b2n up)
  .next (if h : b.val < 16 then
      let p : PortId := ⟨b.val, h⟩
      if up && !was then
        let s2 := s1.updPort p (fun x => { x with head := { x.head with bankOk := true, bankSeen := true } })
        if (s.port p).head.bankSeen then s2 else s2.startRead p
      else if !up && was then s1.bankDown p
      else s1
    else if !up && was then s1.inputsLow b.val
    else s1)

/-- Strobes go low and LREF outputs to 0 V. -/
def PortSt.tripOff (x : PortSt) : PortSt :=
  let g := { x.gate with strobes := Vector.replicate 2 false, lrefOn := false, lrefSub := Vector.replicate 2 0 }
  { x with gate := g }

/-- The meaning of THERMAL_TRIP (R412): a sensor reads 125 degrees or more. THERMTRIP_L goes low until power-on reset; drivers,
strobes, LREF outputs and excitations go off, and timing outputs to high impedance. -/
def execThermalTrip (i : Fin 12) (temp : Nat) (s : State) : Host.Outcome State Fault Refusal :=
  if s.clk.tripped ∨ sgn 16 temp < 2000 then .next s
  else
    let s1 := { s with clk := { s.clk with tripped := true } }
    let s2 := (List.finRange 8).foldl State.driverDown { s1 with ports := s1.ports.map PortSt.tripOff }
    let s3 := s2.updAux (fun x => { x with exc := x.exc.map (fun e => { e with on := false }) })
    .next (s3.journalFree { jentry 0 2 0 with target := i.val, new := temp % 65536 })

end Sys2Proof.Machine
end

