-- ==== Sys2Proof/Machine/Verify.lean ====
section
/-! DEFINITION. SETUP_VERIFY: the structural rules of a program, its worst case, and the rules of pipe programs (spec/03, R79, R80;
spec/06, R151 to R153; spec/07, R202; spec/08, R218). -/

namespace Sys2Proof.Machine

/-- A program as SETUP_VERIFY sees it. Instructions and nodes are numbered from the region's base; `costs` holds the cost of
the last instruction of every pass; `free` is the index of the first free value it may use. -/
structure VProg where
  kind : Nat
  base : Nat
  entry : Nat
  jump : List Nat
  version : Nat
  declared : Nat
  ins : Array (Nat × ZscFields)
  costs : List (Nat × Nat)
  free : Nat
  deriving Repr

/-- Instructions of the program. -/
def VProg.n (p : VProg) : Nat := p.ins.size

/-- Opcode of instruction `j`. -/
def VProg.op (p : VProg) (j : Nat) : Nat := (p.ins.getD j (0, { cond := 0, rd := 0, ra := 0, rb := 0, ext := 0, imm := 0 })).1

/-- Fields of instruction `j`. -/
def VProg.fl (p : VProg) (j : Nat) : ZscFields :=
  (p.ins.getD j (0, { cond := 0, rd := 0, ra := 0, rb := 0, ext := 0, imm := 0 })).2

/-- An instruction index as a node; `n` for one outside the region. -/
def VProg.loc (p : VProg) (i : Nat) : Nat := if p.base ≤ i ∧ i < p.base + p.n then i - p.base else p.n

/-- imm[15:0] of instruction `j` as a node. -/
def VProg.low (p : VProg) (j : Nat) : Nat := p.loc ((p.fl j).imm.toNat % 65536)

/-- imm[31:16] of instruction `j` as a node. -/
def VProg.high (p : VProg) (j : Nat) : Nat := p.loc ((p.fl j).imm.toNat / 65536)

/-- The jump table as nodes. -/
def VProg.table (p : VProg) : List Nat := p.jump.map p.loc

/-- Condition AL. -/
def VProg.al (p : VProg) (j : Nat) : Bool := (p.fl j).cond == 0

/-- A HALT or a trap opcode. -/
def haltOp (op : Nat) : Bool := op == 0x3F || decide (0xE0 ≤ op)

/-- An instruction with condition AL that ends a tick's work for good. -/
def VProg.stops (p : VProg) (j : Nat) : Bool := haltOp (p.op j) && p.al j

/-- The instructions of the program. -/
def VProg.all (p : VProg) : List Nat := List.range p.n

/-- The lowest instruction of a list, as an index in the engine's memory. -/
def VProg.lowest (p : VProg) (bad : List Nat) : Option Nat := (bad.min?).map (fun j => p.base + j)

/-- The instructions that satisfy `bad`, the lowest of them. -/
def VProg.first (p : VProg) (bad : Nat → Bool) : Option Nat := p.lowest (p.all.filter bad)

/-! ### The control-flow graph (R71, R80) -/

/-- The node that stands for the return of a routine. -/
def VProg.ret (p : VProg) : Nat := p.n + 1

/-- Where instruction `j` goes on when its condition is true; nowhere after a TEND in the present tick, which is given apart. -/
def VProg.takes (p : VProg) (j : Nat) : List Nat :=
  match p.op j with
  | 0x20 => [p.low j]
  | 0x21 => p.table
  | 0x24 => [p.ret]
  | 0x28 =>
    let skip := min (p.high j + 1) p.n
    if (p.fl j).isImm then (if (p.fl j).imm.toNat % 65536 = 0 then [skip] else [j + 1]) else [j + 1, skip]
  | 0x29 => [p.low j, j + 1]
  | 0x30 => []
  | op => if haltOp op then [] else [j + 1]

/-- The instructions whose false condition leads to another place than their true one. -/
def branches (op : Nat) : Bool := op == 0x20 || op == 0x21 || op == 0x24 || haltOp op

/-- The edges of the graph but for those out of TENDs and into called routines. -/
def VProg.edges (p : VProg) (j : Nat) : List Nat :=
  (p.takes j ++ (if branches (p.op j) && !p.al j then [j + 1] else [])).filter (fun t => decide (t < p.n))

/-- The edges, with those out of TENDs. -/
def VProg.edgesT (p : VProg) (j : Nat) : List Nat := if p.op j = 0x30 then (if j + 1 < p.n then [j + 1] else []) else p.edges j

/-- The routines that instruction `j` calls: every jump-table entry for a CALLR. -/
def VProg.calls (p : VProg) (j : Nat) : List Nat :=
  match p.op j with
  | 0x22 => [p.low j]
  | 0x23 => p.table
  | _ => []

/-- The nodes reached from a list, in at most `k` steps of the search. -/
def reachGo (g : Nat → List Nat) : Nat → List Nat → Array Bool → Array Bool
  | 0, _, seen => seen
  | _ + 1, [], seen => seen
  | k + 1, j :: t, seen => if seen.getD j true then reachGo g k t seen else reachGo g k (g j ++ t) (seen.setIfInBounds j true)

/-- Which nodes are reached from a list. -/
def VProg.reach (p : VProg) (g : Nat → List Nat) (from_ : List Nat) : Array Bool :=
  reachGo g ((p.n + 2) * (p.jump.length + 4) + from_.length) from_ (Array.replicate p.n false)

/-- Whether `j` is among reached nodes. -/
def inReach (r : Array Bool) (j : Nat) : Bool := r.getD j false

/-! ### Fields (check 0x10; R65, R66) -/

/-- The fields that an opcode uses (R65; Tables 3.6, 4.3, 12.3; R150, R155, R214). -/
def usesOf (op : Nat) (f : ZscFields) : Uses :=
  match op with
  | 0x00 | 0x24 | 0x30 | 0x3F | 0xAA => {}
  | 0x01 | 0x14 => { rd := true, b := true, ext := 3 }
  | 0x12 | 0x13 => { ra := true, b := true, ext := 3 }
  | 0x18 => { rd := true, ra := true, imm := true, ext := 3 }
  | 0x19 => { ra := true, rb := true, imm := true, ext := 3 }
  | 0x20 | 0x22 | 0x31 => { imm := true }
  | 0xA5 => { imm := decide (f.imm.toNat < 16384) }
  | 0x21 | 0x23 | 0xA2 => { ra := true }
  | 0x28 => { rd := true, ra := !f.isImm, imm := true, ext := 1 }
  | 0x29 => { rd := true, imm := true }
  | 0x32 | 0x9F => { rd := true, ext := 0xFF }
  | 0x40 => { ra := true, imm := true, ext := 0x1F }
  | 0x41 => { rd := true, ra := true, rb := true, imm := true, ext := 0x1F }
  | 0x42 | 0x43 => { rd := true, ra := true, rb := true, imm := true }
  | 0x44 => { ra := true, imm := true, ext := 7 }
  | 0x45 => { ra := true, rb := true, imm := true }
  | 0x46 => { rd := true }
  | 0x8C | 0x8D => { imm := true }
  | 0xA0 => { rb := true, imm := true, ext := 0x0F }
  | 0xA1 =>
    let form := f.ext.toNat % 4
    { ra := true, rb := form == 0, imm := form == 2, ext := 3 }
  | 0xA3 | 0xA8 => { ext := 1 }
  | 0xA4 => { rd := true, ext := 0x0F }
  | 0xA6 => { ra := true, rb := true, ext := 3 }
  | 0xA7 => { ext := 0xFF }
  | 0xA9 => { ra := true, rb := true, ext := 1 }
  | _ =>
    if op ≤ 0x13 then { rd := true, ra := true, b := true, ext := 3 }
    else if isPrim op then { rd := true, ra := true, imm := true, ext := 0x80 }
    else { imm := true }

/-- The rule of check 0x10 for one instruction. -/
def fieldsOk (kind op : Nat) (f : ZscFields) : Bool :=
  opAccepted kind op && f.cond != 15 && (usesOf op f).ok f && (!(op == 0x28 || op == 0x29) || decide (f.rd.toNat < 4)) &&
    (!(isPrim op || op == 0x8C || op == 0x8D) || f.imm.toNat / 16384 == 0)

/-! ### Table 3.9 -/

/-- Check 0x10. -/
def VProg.c10 (p : VProg) : Option Nat := p.first (fun j => !fieldsOk p.kind (p.op j) (p.fl j))

/-- Check 0x11: targets in the region, no fall through from its last instruction. -/
def VProg.c11 (p : VProg) : Option Nat :=
  p.first (fun j =>
    let op := p.op j
    ((op == 0x20 || op == 0x22 || op == 0x29) && p.low j == p.n) || (op == 0x28 && p.high j == p.n) ||
      (j + 1 == p.n && !(p.al j && branches op)))

/-- The edges without those that close a loop. -/
def VProg.edges12 (p : VProg) (j : Nat) : List Nat :=
  if p.op j = 0x29 then (if j + 1 < p.n then [j + 1] else []) else p.edges j

/-- Check 0x12: a cycle that no LEND closes and that holds no TEND. -/
def VProg.c12 (p : VProg) : Option Nat :=
  (p.all.find? (fun j => inReach (p.reach p.edges12 (p.edges12 j)) j)).map (fun j => p.base + j)

/-- Whether an LSET and the LEND that it names form a loop. -/
def VProg.loopOk (p : VProg) (j : Nat) : Bool :=
  let e := p.high j
  p.al j && decide (j < e) && decide (e < p.n) && p.op e == 0x29 && p.al e && (p.fl e).rd == (p.fl j).rd && p.low e == j + 1

/-- The loops of the program, (LSET, LEND), by rising LSET. -/
def VProg.loops (p : VProg) : List (Nat × Nat) :=
  (p.all.filter (fun j => p.op j == 0x28 && p.loopOk j)).map (fun j => (j, p.high j))

/-- Check 0x13: loops. -/
def VProg.c13 (p : VProg) : Option Nat :=
  let ls := p.loops
  let around (l : Nat × Nat) : List (Nat × Nat) := ls.filter (fun o => decide (o.1 < l.1) && decide (l.1 ≤ o.2))
  p.first (fun j =>
    (p.op j == 0x28 && (!p.loopOk j ||
      (let l := (j, p.high j)
       let out := around l
       out.any (fun o => decide (o.2 < l.2) || o.2 == l.2 || (p.fl o.1).rd == (p.fl j).rd) || decide (4 ≤ out.length)))) ||
    (p.op j == 0x29 && !ls.any (fun l => l.2 == j)) ||
    (p.edges j ++ p.calls j).any (fun t => ls.any (fun l => decide (l.1 < t) && decide (t ≤ l.2) && !(decide (l.1 ≤ j) && decide (j ≤ l.2)))))

/-- Check 0x14: a register count without a bound. -/
def VProg.c14 (p : VProg) : Option Nat :=
  p.first (fun j => p.op j == 0x28 && !(p.fl j).isImm && (p.fl j).imm.toNat % 65536 == 0)

/-- The routines that are called. -/
def VProg.routines (p : VProg) : List Nat := ((p.all.flatMap p.calls).filter (fun r => decide (r < p.n))).eraseDups

/-- The instructions of each routine, with the routines that they call. -/
def VProg.bodies (p : VProg) : List (Nat × List Nat × List Nat) :=
  p.routines.map (fun r =>
    let m := p.reach p.edgesT [r]
    let js := p.all.filter (inReach m)
    (r, js, ((js.flatMap p.calls).filter (fun c => decide (c < p.n))).eraseDups))

/-- Whether routine `r` starts a chain of `k + 1` calls. -/
def chainOf (calls : Nat → List Nat) : Nat → Nat → Bool
  | 0, _ => true
  | k + 1, r => (calls r).any (chainOf calls k)

/-- Check 0x15: a TEND in a called routine, a cycle of calls, or calls nested more than four deep. -/
def VProg.c15 (p : VProg) : Option Nat :=
  let bs := p.bodies
  let calls (r : Nat) : List Nat := match bs.find? (fun b => b.1 == r) with | some b => b.2.2 | none => []
  p.lowest (bs.flatMap (fun b => b.2.1.filter (fun j => p.op j == 0x30)) ++ (bs.map (fun b => b.1)).filter (chainOf calls 4))

/-- Check 0x16: JMPR, CALLR and the jump table. -/
def VProg.c16 (p : VProg) : Option Nat :=
  let users := p.all.filter (fun j => (p.op j == 0x21 || p.op j == 0x23) && (p.version != 2 || p.jump.isEmpty))
  (users.map (fun j => p.base + j) ++ p.jump.filter (fun i => p.loc i == p.n)).min?

/-- Check 0x17: LD and ST with g0. -/
def VProg.c17 (p : VProg) : Option Nat :=
  p.first (fun j =>
    let f := p.fl j
    let sp := f.ext.toNat % 4
    let a := f.imm.toNat
    (p.op j == 0x18 || p.op j == 0x19) && f.ra == 0 &&
      (!(sp == 1 || (sp == 0 && p.op j == 0x18)) || a % 4 != 0 || decide ((if sp = 0 then 16384 else 1024) ≤ a)))

/-- Check 0x18: RDS. -/
def VProg.c18 (p : VProg) : Option Nat := p.first (fun j => p.op j == 0x32 && decide (9 < (p.fl j).ext.toNat))

/-- Check 0x19: a TEND is reached from the entry. No single instruction breaks it, and R79 names none: result1 reports the entry
(DESIGN CHOICE, log entry 171). -/
def VProg.c19 (p : VProg) : Option Nat :=
  let m := p.reach p.edges [p.loc p.entry]
  if p.all.any (fun j => inReach m j && p.op j == 0x30) then none else some p.entry

/-! ### The worst case (R80) -/

/-- A path's length and the node that ends it. -/
abbrev Path := Option (Nat × Nat)

/-- The longer of two paths; on a tie the one that ends lower (R79). -/
def Path.best : Path → Path → Path
  | none, b => b
  | a, none => a
  | some a, some b => if a.1 < b.1 ∨ (a.1 = b.1 ∧ b.2 < a.2) then some b else some a

/-- A path with an edge of cost `c` put before it. -/
def Path.more (c : Nat) (a : Path) : Path := a.map (fun x => (c + x.1, x.2))

/-- One round over the nodes: a node's longest path is known when those of all its successors are. `out` gives the edges of a
node with their costs, `fin` the cost of a path that ends there. -/
def pathRound (out : Nat → List (Nat × Nat)) (fin : Nat → Option Nat) (nodes : List Nat) (v : Array (Option Path)) :
    Array (Option Path) :=
  nodes.foldl (fun v j =>
    if (v.getD j none).isSome then v
    else
      let es := out j
      if es.all (fun e => (v.getD e.1 none).isSome) then
        v.setIfInBounds j (some (es.foldl (fun b e => Path.best b (Path.more e.2 ((v.getD e.1 none).getD none)))
          ((fin j).map (fun c => (c, j)))))
      else v) v

/-- Rounds until nothing more becomes known. -/
def pathRounds (out : Nat → List (Nat × Nat)) (fin : Nat → Option Nat) (nodes : List Nat) :
    Nat → Array (Option Path) → Array (Option Path)
  | 0, v => v
  | k + 1, v =>
    let w := pathRound out fin nodes v
    if (nodes.filter (fun j => (w.getD j none).isSome)).length = (nodes.filter (fun j => (v.getD j none).isSome)).length then w
    else pathRounds out fin nodes k w

/-- The longest path from node `j` to an end that passes no node twice, nor any of `seen`. -/
def simplePath (out : Nat → List (Nat × Nat)) (fin : Nat → Option Nat) : Nat → List Nat → Nat → Path
  | 0, _, _ => none
  | k + 1, seen, j =>
    (((out j).filter (fun e => !seen.contains e.1)).map (fun e => Path.more e.2 (simplePath out fin k (e.1 :: seen) e.1))).foldl Path.best
      ((fin j).map (fun c => (c, j)))

/-- The longest path from `start` to an end. Where a cycle can be reached, a path passes no node twice (log entry 110). -/
def VProg.longest (p : VProg) (start : Nat) (out : Nat → List (Nat × Nat)) (fin : Nat → Option Nat) : Path :=
  let v := (pathRounds out fin (p.n :: p.all.reverse) (p.n + 1) ((Array.replicate (p.n + 2) (none : Option Path)).setIfInBounds p.ret
    (some ((fin p.ret).map (fun c => (c, p.ret)))))).getD start none
  v.getD (simplePath out fin (p.n + 2) [start] start)

/-- A loop collapsed into one node (R80): its cost, whether it is an end node, whether its body
holds a TEND, and the edges that leave it with the cost each carries. -/
structure LoopNode where
  lset : Nat
  lend : Nat
  cost : Nat
  isEnd : Bool
  tend : Bool
  exits : List (Nat × Nat)
  deriving Repr

/-- The cost of instruction `j` with its condition true; `len` gives the lengths of routines. -/
def VProg.cost (p : VProg) (len : Nat → Nat) (j : Nat) : Nat :=
  match p.op j with
  | 0x0C | 0x0D | 0x18 | 0x20 | 0x21 | 0x24 | 0x29 => 2
  | 0x22 => 2 + len (p.low j)
  | 0x23 => 2 + ((p.table.map len).max?).getD 0
  | 0x28 => if (p.fl j).isImm && (p.fl j).imm.toNat % 65536 == 0 then 2 else 1
  | 0x8C => 4
  | 0x8D => 2
  | op => if isPrim op then ((p.costs.find? (fun e => e.1 == j)).map (fun e => e.2)).getD 1 else 1

/-- The edges out of an instruction with the cost of each (R80): of two edges to one place the dearer. -/
def VProg.costed (p : VProg) (len : Nat → Nat) (j : Nat) : List (Nat × Nat) :=
  if p.op j = 0x30 then [(j + 1, 1)]
  else (p.takes j).map (fun t => (t, p.cost len j)) ++ (if branches (p.op j) && !p.al j then [(j + 1, 1)] else [])

/-- The outermost of the collapsed loops `ns` that holds `j`, else `j`; `ns` is in the order of their LSETs. -/
def repOf (ns : List LoopNode) (j : Nat) : Nat :=
  match ns.find? (fun x => decide (x.lset ≤ j) && decide (j ≤ x.lend)) with | some x => x.lset | none => j

/-- The node of a collapsed loop that `j` stands for. -/
def nodeAt (ns : List LoopNode) (j : Nat) : Option LoopNode := ns.find? (fun x => x.lset == j)

/-- Collapses the loop `(a, e)`, the loops inside it being `ns` (R80). -/
def VProg.collapse (p : VProg) (len : Nat → Nat) (a e : Nat) (ns : List LoopNode) : LoopNode :=
  let inside (t : Nat) : Bool := decide (a < t) && decide (t ≤ e)
  let m := (p.fl a).imm.toNat % 65536
  let edges (j : Nat) : List (Nat × Nat) :=
    match nodeAt ns j with
    | some x => x.exits
    | none => if j = e then [] else p.costed len j
  let out (j : Nat) : List (Nat × Nat) :=
    ((edges j).filter (fun t => inside t.1)).map (fun t =>
      (repOf ns t.1, match nodeAt ns j with | some x => x.cost + t.2 | none => t.2))
  let fin (j : Nat) : Option Nat :=
    if j = e then some 2
    else match nodeAt ns j with
      | some x => if x.exits.any (fun t => !inside t.1) then some x.cost else none
      | none => if p.stops j then some 1
        else if (p.costed len j).any (fun t => !inside t.1) then some (((p.costed len j).map (fun t => t.2)).max?.getD 0) else none
  let body := p.longest (repOf ns (a + 1)) out fin
  let js := ((List.range' (a + 1) (e - a - 1)).map (repOf ns)).eraseDups
  { lset := a, lend := e,
    cost := if m = 0 then 2 else 1 + m * (body.map (fun x => x.1)).getD 0,
    isEnd := js.any (fun j => match nodeAt ns j with | some x => x.isEnd | none => p.op j == 0x30 || p.stops j),
    tend := js.any (fun j => match nodeAt ns j with | some x => x.tend | none => p.op j == 0x30),
    exits := (e + 1, 0) :: js.flatMap (fun j =>
      match nodeAt ns j with
      | some x => x.exits.filter (fun t => !inside t.1)
      | none => ((p.costed len j).filter (fun t => !inside t.1)).map (fun t => (t.1, p.cost len j))) }

/-- Collapses every loop, innermost first; the outermost ones stay, by rising LSET. -/
def VProg.collapseAll (p : VProg) (len : Nat → Nat) : List LoopNode :=
  p.loops.foldr (fun l ns =>
    let inner := ns.filter (fun x => decide (x.lset ≤ l.2))
    p.collapse len l.1 l.2 inner :: ns.filter (fun x => decide (l.2 < x.lset))) []

/-- The edges at top level: none leaves a TEND that no loop holds. -/
def VProg.topOut (p : VProg) (len : Nat → Nat) (ns : List LoopNode) (j : Nat) : List (Nat × Nat) :=
  match nodeAt ns j with
  | some x => (x.exits.filter (fun t => t.1 != p.n)).map (fun t => (repOf ns t.1, x.cost + t.2))
  | none => if p.op j = 0x30 then [] else ((p.costed len j).filter (fun t => t.1 != p.n)).map (fun t => (repOf ns t.1, t.2))

/-- The ends at top level. -/
def VProg.topFin (p : VProg) (ns : List LoopNode) (j : Nat) : Option Nat :=
  match nodeAt ns j with
  | some x => if x.isEnd then some x.cost else none
  | none => if j < p.n ∧ (p.op j = 0x30 ∨ p.stops j) then some 1 else none

/-- The length of the longest path of a routine to a RET, a HALT or a trap, by the lengths of those it calls. -/
def VProg.routineLen (p : VProg) (len : Nat → Nat) (r : Nat) : Nat :=
  let ns := p.collapseAll len
  let fin (j : Nat) : Option Nat := if j = p.ret then some 0 else p.topFin ns j
  ((p.longest (repOf ns r) (p.topOut len ns) fin).map (fun x => x.1)).getD 0

/-- The lengths of the routines, for calls nested at most `k` deep. -/
def VProg.lens (p : VProg) : Nat → List (Nat × Nat)
  | 0 => []
  | k + 1 =>
    let inner := p.lens k
    p.routines.map (fun r => (r, p.routineLen (fun c => ((inner.find? (fun e => e.1 == c)).map (fun e => e.2)).getD 0) r))

/-- The longest path from one start (R80). A tick that starts in a collapsed loop may come back to it, and is charged the node
at both ends (log entry 110). -/
def VProg.worstFrom (p : VProg) (len : Nat → Nat) (ns : List LoopNode) (start : Nat) : Path :=
  let again := p.n
  let out (j : Nat) : List (Nat × Nat) :=
    if j = again then [] else (p.topOut len ns j).map (fun t => if t.1 = start then (again, t.2) else t)
  p.longest start out (fun j => p.topFin ns (if j = again then start else j))

/-- The worst case of a program and the instruction that ends the longest path. -/
def VProg.worst (p : VProg) : Nat × Nat :=
  let ls := p.lens 5
  let len (c : Nat) : Nat := ((ls.find? (fun e => e.1 == c)).map (fun e => e.2)).getD 0
  let ns := p.collapseAll len
  let tends := p.all.filter (fun j => p.op j == 0x30 && (nodeAt ns (repOf ns j)).isNone && decide (j + 1 < p.n))
  let starts := (repOf ns (p.loc p.entry) :: tends.map (fun j => repOf ns (j + 1)) ++
    (ns.filter (fun x => x.tend)).map (fun x => x.lset)).eraseDups
  ((starts.map (p.worstFrom len ns)).foldl Path.best none).getD (0, 0)

/-- Check 0x1A: the worst case is at most the declared one. -/
def VProg.c1A (p : VProg) : Option Nat :=
  if p.declared < p.worst.1 then some (p.base + p.worst.2) else none

/-! ### Pipe programs (Tables 6.4, 7.4, 8.5) -/

/-- A pipe program under check: the engine whose parameter memory it reads, the slot, the program. -/
structure PipeCheck where
  eng : Eng
  slot : Nat
  prog : Prog

/-- The passes. -/
def PipeCheck.passes (c : PipeCheck) : List Pass := c.prog.passes c.eng

/-- A pass that takes its geometry from the capture store through ASSEMBLE. -/
def Pass.assembles (p : Pass) : Bool := match p.prims with | e :: _ => p.src == 1 && e.2.1 == 0x80 | [] => false

/-- The geometry of a pass follows from the capture store (check 0x24). -/
def PipeCheck.known (c : PipeCheck) (p : Pass) : Bool :=
  p.assembles || (c.passes.all (fun q => q.src != 1 || q.assembles) && (c.prog.lines c.eng c.slot).any (fun e => e.1 == p.src))

/-- The points of a pass: index, opcode, block and the geometry that enters. -/
def PipeCheck.points (c : PipeCheck) (p : Pass) : List (Nat × Nat × List Byte × Geo) :=
  (geosOf c.eng c.slot p.prims (c.prog.source c.eng c.slot p.src)).1

/-- The geometry that leaves a pass. -/
def PipeCheck.final (c : PipeCheck) (p : Pass) : Geo := (geosOf c.eng c.slot p.prims (c.prog.source c.eng c.slot p.src)).2

/-- The points of every pass with known geometry. -/
def PipeCheck.allPoints (c : PipeCheck) : List (Nat × Nat × List Byte × Geo) := (c.passes.filter c.known).flatMap c.points

/-- A geometry under which no limit that depends on the geometry fails. -/
def Geo.open_ : Geo := { p := 65536, np := 4, layout := 0 }

/-- The block that an instruction names. -/
def PipeCheck.blk (c : PipeCheck) (op : Nat) (f : ZscFields) : List Byte := c.eng.block c.slot (pbOf f) (blockSize op)

/-- The instructions. -/
def PipeCheck.instrs (c : PipeCheck) : List (Nat × Nat × ZscFields) := c.prog.instrs c.eng

/-- The offenders among one pass's instructions against its shape (R151). -/
def Pass.badShape (p : Pass) : List Nat :=
  let n := p.prims.length
  (p.prims.zipIdx.filter (fun e =>
    let f := e.1.2.2
    let head := e.2 == 0
    let last := e.2 + 1 == n
    (if head then decide (f.ra.toNat < 1) || decide (5 < f.ra.toNat) else f.ra != 0 || f.cond != 0) ||
    (if last then chainBit f || !(f.rd.toNat == 7 || (decide (2 ≤ f.rd.toNat) && decide (f.rd.toNat ≤ 5))) else f.rd != 0))).map
      (fun e => e.1.1)

/-- Check 0x20. -/
def PipeCheck.c20 (c : PipeCheck) : List Nat :=
  let inner := c.passes.flatMap (fun p => (p.prims.drop 1).map (fun e => e.1))
  c.passes.flatMap Pass.badShape ++
    (c.instrs.filter (fun e =>
      let lo := e.2.2.imm.toNat % 65536
      let hi := e.2.2.imm.toNat / 65536
      match e.2.1 with
      | 0x20 | 0x22 | 0x29 => inner.contains lo
      | 0x28 => inner.contains (hi + 1)
      | _ => false)).map (fun e => e.1) ++ c.prog.jump.filter inner.contains

/-- The work lines that a pass writes, with the instruction that writes each. -/
def PipeCheck.writers (c : PipeCheck) (p : Pass) : List (Nat × Nat) :=
  (c.points p).filterMap (fun e => if e.2.1 = 0x84 ∧ bitN (bByte e.2.2.1 6) 0 then some (bByte e.2.2.1 7, e.1) else none) ++
    (match p.prims.getLast? with | some e => if 2 ≤ p.dst ∧ p.dst ≤ 5 then [(p.dst, e.1)] else [] | none => [])

/-- The entries of a list whose key stands earlier in it too. -/
def repeats (xs : List (Nat × Nat)) : List Nat :=
  (xs.zipIdx.filter (fun e => (xs.take e.2).any (fun d => d.1 == e.1.1))).map (fun e => e.1.2)

/-- Check 0x21. -/
def PipeCheck.c21 (c : PipeCheck) : List Nat :=
  c.passes.flatMap (fun p =>
    repeats (p.prims.map (fun e => (e.2.1, e.1))) ++ ((c.writers p).filter (fun w => w.1 == p.src)).map (fun e => e.2))

/-- The instructions with a block whose fields break the limits of their primitive, among those with opcodes `ops`. -/
def PipeCheck.limits (c : PipeCheck) (ops : Nat → Bool) : List Nat :=
  (c.passes.flatMap (fun p => ((c.points p).filter (fun e => ops e.2.1 &&
    !blockOk e.2.1 e.2.2.1 (if c.known p then e.2.2.2 else Geo.open_))).map (fun e => e.1)))

/-- Check 0x22. -/
def PipeCheck.c22 (c : PipeCheck) : List Nat :=
  (c.instrs.filter (fun e => (isPrim e.2.1 || e.2.1 == 0x8C || e.2.1 == 0x8D) &&
    (pbOf e.2.2 % 16 != 0 || decide (16384 < pbOf e.2.2 + blockSize e.2.1)))).map (fun e => e.1) ++
    c.limits (fun op => decide (op ≤ 0x85))

/-- Check 0x23. -/
def PipeCheck.c23 (c : PipeCheck) : List Nat :=
  c.passes.flatMap (fun p =>
    (p.prims.zipIdx.filter (fun e =>
      let op := e.1.2.1
      let before := if e.2 = 0 then 0 else (p.prims.getD (e.2 - 1) e.1).2.1
      ((op == 0x80) != (e.2 == 0 && p.src == 1)) || (op == 0x81 + 1 && before != 0x81) ||
        (op == 0x84 && bitN (bByte (c.blk op e.1.2.2) 6) 1 && before != 0x80))).map (fun e => e.1.1))

/-- Check 0x24. -/
def PipeCheck.c24 (c : PipeCheck) : List Nat :=
  let ls := c.prog.lines c.eng c.slot
  (c.passes.filter (fun p =>
    if p.src ≠ 1 ∧ !ls.any (fun e => e.1 == p.src) then true
    else (p.writes c.eng c.slot (c.prog.source c.eng c.slot p.src)).any (fun w => !ls.contains w))).map (fun p => p.first)

/-- Check 0x25. -/
def PipeCheck.c25 (c : PipeCheck) : List Nat :=
  (c.allPoints.filter (fun e => decide (65536 < primCount e.2.1 e.2.2.1 e.2.2.2) ||
    ((e.2.1 == 0x81 || e.2.1 == 0x83) && decide (16384 < e.2.2.2.p)))).map (fun e => e.1)

/-- Check 0x26. -/
def PipeCheck.c26 (c : PipeCheck) : List Nat :=
  let bins := (c.instrs.filter (fun e => e.2.1 == 0x84)).map (fun e => (e.1, c.blk 0x84 e.2.2))
  let cal := bins.filter (fun e => bitN (bByte e.2 6) 1)
  (cal.drop 1).map (fun e => e.1) ++
    (if cal.isEmpty then [] else
      (bins.filter (fun e => !bitN (bByte e.2 6) 1 && bByte e.2 5 == 1 && bHalf e.2 2 != 1)).map (fun e => e.1))

/-- Check 0x27: layouts that primitives take. -/
def PipeCheck.c27 (c : PipeCheck) : List Nat :=
  (c.allPoints.filter (fun e =>
    let op := e.2.1
    if op = 0x88 then e.2.2.2.layout != (if bByte e.2.2.1 0 = 2 then 1 else 0)
    else (decide (0x81 ≤ op) && decide (op ≤ 0x85) || op == 0x89) && e.2.2.2.layout != 0)).map (fun e => e.1)

/-- Check 0x28: layouts that CODE and PACK take. -/
def PipeCheck.c28 (c : PipeCheck) : List Nat :=
  (c.allPoints.filter (fun e =>
    let b := e.2.2.1
    let l := e.2.2.2.layout
    (e.2.1 == 0x8B && (l == 1 || (l == 3 && !(bByte b 0 == 2 && (bByte b 1 == 0 || bByte b 1 == 2))))) ||
      (e.2.1 == 0x8A && bByte b 0 == 1 && l == 3))).map (fun e => e.1)

/-- Check 0x29: outputs. -/
def PipeCheck.c29 (c : PipeCheck) : List Nat :=
  c.passes.flatMap (fun p =>
    let n := p.prims.length
    (p.prims.zipIdx.filter (fun e =>
      let final := (e.1.2.1 == 0x8A || e.1.2.1 == 0x8B) && !bitN (bByte (c.blk e.1.2.1 e.1.2.2) 3) 0
      let seven := e.1.2.2.rd == 7
      (final && (e.2 + 1 != n || !seven)) || (seven && !final))).map (fun e => e.1.1) ++
    (if c.known p && decide (2 ≤ p.dst) && decide (p.dst ≤ 5) && (c.final p).layout != 0 then
      (p.prims.getLast?).toList.map (fun e => e.1) else []))

/-- Check 0x2A: areas named twice in a pass. -/
def PipeCheck.c2A (c : PipeCheck) : List Nat :=
  c.passes.flatMap (fun p => repeats ((c.points p).flatMap (fun e => (primAreas e.2.1 e.2.2.1 e.2.2.2).map (fun a => (a.1, e.1)))))

/-- Check 0x2D. -/
def PipeCheck.c2D (c : PipeCheck) : List Nat :=
  (c.instrs.filter (fun e => (e.2.1 == 0x8C || e.2.1 == 0x8D) && !blockOk e.2.1 (c.blk e.2.1 e.2.2) Geo.open_)).map (fun e => e.1)

/-- The largest payloads of the four areas by the instructions up to index `i`, summed. -/
def PipeCheck.areaSum (c : PipeCheck) (i : Nat) : Nat :=
  let as := (c.allPoints.filter (fun e => decide (e.1 ≤ i))).flatMap (fun e => primAreas e.2.1 e.2.2.1 e.2.2.2)
  ((List.range 4).map (fun a => ((as.filter (fun e => e.1 == a)).map (fun e => e.2)).max?.getD 0)).sum

/-- Check 0x2E: the payloads fit a line buffer. -/
def PipeCheck.c2E (c : PipeCheck) : List Nat := (c.allPoints.map (fun e => e.1)).filter (fun i => decide (130816 < c.areaSum i))

/-- Check 0x2F: stream 3. -/
def PipeCheck.c2F (c : PipeCheck) : List Nat :=
  (c.instrs.filter (fun e => e.2.1 == 0x8D && bByte (c.blk e.2.1 e.2.2) 1 % 4 == 3)).map (fun e => e.1)

/-- The checks of pipe programs in code order; 0x2C fails as 0x10 (R214). -/
def PipeCheck.checks (c : PipeCheck) : List (Nat × List Nat) :=
  [(0x20, c.c20), (0x21, c.c21), (0x22, c.c22), (0x23, c.c23), (0x24, c.c24), (0x25, c.c25), (0x26, c.c26), (0x27, c.c27),
   (0x28, c.c28), (0x29, c.c29), (0x2A, c.c2A), (0x2B, c.limits (fun op => decide (0x88 ≤ op))), (0x2D, c.c2D), (0x2E, c.c2E),
   (0x2F, c.c2F)]

/-- The costs of passes by the node of their last instruction (R152); of one whose geometry does not follow from the capture
store, or that is not formed as R151 says, the spec states no cost: a free value (log entry 110). -/
def PipeCheck.costs (c : PipeCheck) (free : Nat) : List (Nat × Nat) :=
  c.passes.filterMap (fun p => (p.prims.getLast?).map (fun e =>
    let n := p.size c.eng c.slot (c.prog.source c.eng c.slot p.src)
    let i := e.1 - c.prog.base
    (i, if c.known p && p.badShape.isEmpty then passCost n.1 n.2 else Config.freeNat 32 (free + i % 4096))))

/-! ### SETUP_VERIFY -/

/-- The first check of Table 3.9 that a program fails: its code and the instruction. -/
def VProg.fails (p : VProg) : Option (Nat × Nat) :=
  let t (code : Nat) (r : Option Nat) : Option (Nat × Nat) := r.map (fun i => (code, i))
  t 0x10 p.c10 <|> t 0x11 p.c11 <|> t 0x12 p.c12 <|> t 0x13 p.c13 <|> t 0x14 p.c14 <|> t 0x15 p.c15 <|> t 0x16 p.c16 <|>
    t 0x17 p.c17 <|> t 0x18 p.c18 <|> t 0x19 p.c19 <|> t 0x1A p.c1A

/-- The program of engine `e` in slot `k`. -/
def State.vprog (s : State) (e : EngId) (k : Nat) : VProg :=
  let g := s.slotProg e k
  let x := s.eng e
  let free := s.free + 8192 * (engKind e % 2)
  { kind := engKind e, base := g.base, entry := g.entry, jump := g.jump, version := g.version, declared := g.declared,
    ins := (List.range g.len).toArray.map (fun i => let w := x.word (g.base + i); (opOf w, fieldsOf w)),
    costs := if engKind e = 1 then ({ eng := x, slot := k, prog := g } : PipeCheck).costs free else [],
    free := free }

/-- The lowest check that the program of engine `e` in slot `k` fails, and the lowest instruction at which it fails (R79). -/
def State.progFails (s : State) (e : EngId) (k : Nat) : Option (Nat × Nat) :=
  (s.vprog e k).fails <|>
    (if engKind e = 1 then
      ({ eng := s.eng e, slot := k, prog := s.slotProg e k } : PipeCheck).checks.findSome? (fun x =>
        (x.2.min?).map (fun i => (x.1, i)))
    else none)

/-- The result of SETUP_VERIFY for a slot (R79): result0 and result1. -/
def State.verifySlot (s : State) (u : UnitId) (k : Nat) : Nat × Nat :=
  ((unitEngs u).findSome? (fun e => (s.progFails e k).map (fun r => (r.1, engKind e * 65536 + r.2 % 65536)))).getD (0, 0)

/-- The meaning of SETUP_VERIFY (R79, R88). -/
def execSetupVerify (c : CtxId) (y : Submission) (s : State) : Host.Outcome State Fault Refusal :=
  let u := subUnit y
  let k := y.slot
  .next (s.admin c { op := 0x09, since := 0x20, kinds := [1, 2], slotted := true, args := [] } y
    [refuseIf (!unitRight s.ctxs[c] y) stDenied 0,
     refuseIf (!(s.slotOf u k).isLoaded) stNotFound 0]
    (fun t =>
      let r := t.verifySlot u k
      ({ (t.setSlot u k { t.slotOf u k with isVerified := r.1 == 0 }) with free := t.free + 16384 }, okRes r.1 r.2)))

end Sys2Proof.Machine
end

