-- ==== Sys2Proof/Machine/Dispatch.lean ====
section
/-! DEFINITION. Each command to its meaning. -/

namespace Sys2Proof.Machine

/-- The effect of a command on everything but the queue. -/
def exec (i : Instr) (s : State) : Host.Outcome State Fault Refusal :=
  match i with
  | .regWrite c off size v => Sys2Proof.Machine.execRegWrite c off size v s
  | .selPortWrite c v => Sys2Proof.Machine.execSelPortWrite c v s
  | .selAxisWrite c v => Sys2Proof.Machine.execSelAxisWrite c v s
  | .selChanWrite c v => Sys2Proof.Machine.execSelChanWrite c v s
  | .selEngineWrite c v => Sys2Proof.Machine.execSelEngineWrite c v s
  | .selTableWrite c v => Sys2Proof.Machine.execSelTableWrite c v s
  | .pairLoRead c off rd => Sys2Proof.Machine.execPairLoRead c off rd s
  | .pairHiRead c off => Sys2Proof.Machine.execPairHiRead c off s
  | .pairLoWrite c off v => Sys2Proof.Machine.execPairLoWrite c off v s
  | .pairHiWrite c off v => Sys2Proof.Machine.execPairHiWrite c off v s
  | .hifCtxCtlEnable c v => Sys2Proof.Machine.execHifCtxCtlEnable c v s
  | .hifCtxCtlReset c v => Sys2Proof.Machine.execHifCtxCtlReset c v s
  | .hifAsqTailWrite c v => Sys2Proof.Machine.execHifAsqTailWrite c v s
  | .hifAcqHeadWrite c v => Sys2Proof.Machine.execHifAcqHeadWrite c v s
  | .hifDeniedRead c => Sys2Proof.Machine.execHifDeniedRead c s
  | .hello c y => Sys2Proof.Machine.execHello c y s
  | .identify c y => Sys2Proof.Machine.execIdentify c y s
  | .setRights c y => Sys2Proof.Machine.execSetRights c y s
  | .getRights c y => Sys2Proof.Machine.execGetRights c y s
  | .setupLoad c y data => Sys2Proof.Machine.execSetupLoad c y data s
  | .setupVerify c y => Sys2Proof.Machine.execSetupVerify c y s
  | .setupClear c y => Sys2Proof.Machine.execSetupClear c y s
  | .commit c y => Sys2Proof.Machine.execCommit c y s
  | .unitStart c y => Sys2Proof.Machine.execUnitStart c y s
  | .unitStop c y => Sys2Proof.Machine.execUnitStop c y s
  | .cutGroup c y => Sys2Proof.Machine.execCutGroup c y s
  | .cutArm c y => Sys2Proof.Machine.execCutArm c y s
  | .cutDisarm c y => Sys2Proof.Machine.execCutDisarm c y s
  | .chanOpen cx y => Sys2Proof.Machine.execChanOpen cx y s
  | .chanClose cx y => Sys2Proof.Machine.execChanClose cx y s
  | .calStart c y => Sys2Proof.Machine.execCalStart c y s
  | .calCompute c y => Sys2Proof.Machine.execCalCompute c y s
  | .gapAnnounce c y => Sys2Proof.Machine.execGapAnnounce c y s
  | .cueSet c y => Sys2Proof.Machine.execCueSet c y s
  | .cuePin c y => Sys2Proof.Machine.execCuePin c y s
  | .cueClear c y => Sys2Proof.Machine.execCueClear c y s
  | .rewindRead c y => Sys2Proof.Machine.execRewindRead c y s
  | .rewindStop c y => Sys2Proof.Machine.execRewindStop c y s
  | .journalRead c y norOk => Sys2Proof.Machine.execJournalRead c y norOk s
  | .fwStage c y data image crypto => Sys2Proof.Machine.execFwStage c y data image crypto s
  | .fwActivate c y => Sys2Proof.Machine.execFwActivate c y s
  | .fwStaged norOk => Sys2Proof.Machine.execFwStaged norOk s
  | .fullReset c v => Sys2Proof.Machine.execFullReset c v s
  | .resetDone failed banks => Sys2Proof.Machine.execResetDone failed banks s
  | .d3hotEntry => Sys2Proof.Machine.execD3hotEntry s
  | .d0Return => Sys2Proof.Machine.execD0Return s
  | .linkRetrain width rate mode => Sys2Proof.Machine.execLinkRetrain width rate mode s
  | .l0pRequest width => Sys2Proof.Machine.execL0pRequest width s
  | .perstAssert => Sys2Proof.Machine.execPerstAssert s
  | .perstRelease href => Sys2Proof.Machine.execPerstRelease href s
  | .ptmExchange ok offset => Sys2Proof.Machine.execPtmExchange ok offset s
  | .linePositionReached p t => Sys2Proof.Machine.execLinePositionReached p t s
  | .tick c v => Sys2Proof.Machine.execTick c v s
  | .heldTickRelease p t => Sys2Proof.Machine.execHeldTickRelease p t s
  | .drainTick p t => Sys2Proof.Machine.execDrainTick p t s
  | .pipeTick p => Sys2Proof.Machine.execPipeTick p s
  | .motionTick t => Sys2Proof.Machine.execMotionTick t s
  | .holdCurrentTimer a t => Sys2Proof.Machine.execHoldCurrentTimer a t s
  | .nop e f => Sys2Proof.Machine.execNop e f s
  | .mov e f => Sys2Proof.Machine.execMov e f s
  | .add e f => Sys2Proof.Machine.execAdd e f s
  | .adc e f => Sys2Proof.Machine.execAdc e f s
  | .sub e f => Sys2Proof.Machine.execSub e f s
  | .sbc e f => Sys2Proof.Machine.execSbc e f s
  | .and e f => Sys2Proof.Machine.execAnd e f s
  | .or e f => Sys2Proof.Machine.execOr e f s
  | .xor e f => Sys2Proof.Machine.execXor e f s
  | .shl e f => Sys2Proof.Machine.execShl e f s
  | .shr e f => Sys2Proof.Machine.execShr e f s
  | .sar e f => Sys2Proof.Machine.execSar e f s
  | .mul e f => Sys2Proof.Machine.execMul e f s
  | .mulh e f => Sys2Proof.Machine.execMulh e f s
  | .min e f => Sys2Proof.Machine.execMin e f s
  | .max e f => Sys2Proof.Machine.execMax e f s
  | .sats e f => Sys2Proof.Machine.execSats e f s
  | .satu e f => Sys2Proof.Machine.execSatu e f s
  | .cmp e f => Sys2Proof.Machine.execCmp e f s
  | .tst e f => Sys2Proof.Machine.execTst e f s
  | .clz e f => Sys2Proof.Machine.execClz e f s
  | .ld e f => Sys2Proof.Machine.execLd e f s
  | .st e f => Sys2Proof.Machine.execSt e f s
  | .jmp e f => Sys2Proof.Machine.execJmp e f s
  | .jmpr e f => Sys2Proof.Machine.execJmpr e f s
  | .call e f => Sys2Proof.Machine.execCall e f s
  | .callr e f => Sys2Proof.Machine.execCallr e f s
  | .ret e f => Sys2Proof.Machine.execRet e f s
  | .lset e f => Sys2Proof.Machine.execLset e f s
  | .lend e f => Sys2Proof.Machine.execLend e f s
  | .tend e f => Sys2Proof.Machine.execTend e f s
  | .raise e f => Sys2Proof.Machine.execRaise e f s
  | .rds e f => Sys2Proof.Machine.execRds e f s
  | .halt e f => Sys2Proof.Machine.execHalt e f s
  | .trapOpcode e k f => Sys2Proof.Machine.execTrapOpcode e k f s
  | .edge p f => Sys2Proof.Machine.execEdge p f s
  | .burst p f => Sys2Proof.Machine.execBurst p f s
  | .sample p f => Sys2Proof.Machine.execSample p f s
  | .clamp p f => Sys2Proof.Machine.execClamp p f s
  | .strobe p f => Sys2Proof.Machine.execStrobe p f s
  | .gate p f => Sys2Proof.Machine.execGate p f s
  | .qfree p f => Sys2Proof.Machine.execQfree p f s
  | .edgeEntryStart p => Sys2Proof.Machine.execEdgeEntryStart p s
  | .strobeEnd p q => Sys2Proof.Machine.execStrobeEnd p q s
  | .tapSample p t raw => Sys2Proof.Machine.execTapSample p t raw s
  | .assemble p f differ => Sys2Proof.Machine.execAssemble p f differ s
  | .shade p f differ corr fails => Sys2Proof.Machine.execShade p f differ corr fails s
  | .drift p f differ => Sys2Proof.Machine.execDrift p f differ s
  | .defect p f differ corr fails => Sys2Proof.Machine.execDefect p f differ corr fails s
  | .bin p f differ => Sys2Proof.Machine.execBin p f differ s
  | .lut p f differ => Sys2Proof.Machine.execLut p f differ s
  | .plane p f differ => Sys2Proof.Machine.execPlane p f differ s
  | .gather p f differ => Sys2Proof.Machine.execGather p f differ s
  | .pack p f differ drained => Sys2Proof.Machine.execPack p f differ drained s
  | .code p f differ drained wrote => Sys2Proof.Machine.execCode p f differ drained wrote s
  | .slate p f => Sys2Proof.Machine.execSlate p f s
  | .emit p f => Sys2Proof.Machine.execEmit p f s
  | .prd p f => Sys2Proof.Machine.execPrd p f s
  | .stagingDrain p d => Sys2Proof.Machine.execStagingDrain p d s
  | .cmpCtlInject c v => Sys2Proof.Machine.execCmpCtlInject c v s
  | .pset a f => Sys2Proof.Machine.execPset a f s
  | .move a f => Sys2Proof.Machine.execMove a f s
  | .jog a f => Sys2Proof.Machine.execJog a f s
  | .stop a f => Sys2Proof.Machine.execStop a f s
  | .astat a f => Sys2Proof.Machine.execAstat a f s
  | .home a f => Sys2Proof.Machine.execHome a f s
  | .gear a f => Sys2Proof.Machine.execGear a f s
  | .latch a f => Sys2Proof.Machine.execLatch a f s
  | .drive a f => Sys2Proof.Machine.execDrive a f s
  | .setpos a f => Sys2Proof.Machine.execSetpos a f s
  | .mswap a f => Sys2Proof.Machine.execMswap a f s
  | .xfer c f => Sys2Proof.Machine.execXfer c f s
  | .xferx c f => Sys2Proof.Machine.execXferx c f s
  | .shuf c f => Sys2Proof.Machine.execShuf c f s
  | .loop c f => Sys2Proof.Machine.execLoop c f s
  | .wait c f => Sys2Proof.Machine.execWait c f s
  | .sig c f => Sys2Proof.Machine.execSig c f s
  | .waitResume c => Sys2Proof.Machine.execWaitResume c s
  | .waitTimeout c t => Sys2Proof.Machine.execWaitTimeout c t s
  | .scriptFetch c ok w => Sys2Proof.Machine.execScriptFetch c ok w s
  | .dmaScCtlStart c v => Sys2Proof.Machine.execDmaScCtlStart c v s
  | .dmaScCtlAbort c v => Sys2Proof.Machine.execDmaScCtlAbort c v s
  | .engWindowWrite c off size v => Sys2Proof.Machine.execEngWindowWrite c off size v s
  | .tblWindowWrite c off size v => Sys2Proof.Machine.execTblWindowWrite c off size v s
  | .headPoll p ack => Sys2Proof.Machine.execHeadPoll p ack s
  | .headInsertDelay p => Sys2Proof.Machine.execHeadInsertDelay p s
  | .reread c v => Sys2Proof.Machine.execReread c v s
  | .descriptorReadDone p acked bytes => Sys2Proof.Machine.execDescriptorReadDone p acked bytes s
  | .bankPowerChange b up => Sys2Proof.Machine.execBankPowerChange b up s
  | .inputOvervolt p t => Sys2Proof.Machine.execInputOvervolt p t s
  | .prtOvClear c v => Sys2Proof.Machine.execPrtOvClear c v s
  | .rotationDue p t => Sys2Proof.Machine.execRotationDue p t s
  | .calNow c v => Sys2Proof.Machine.execCalNow c v s
  | .sliceCalDone p t sLo sHi spread ms => Sys2Proof.Machine.execSliceCalDone p t sLo sHi spread ms s
  | .watchBlockEnd p t => Sys2Proof.Machine.execWatchBlockEnd p t s
  | .bgBlockEnd p t => Sys2Proof.Machine.execBgBlockEnd p t s
  | .faultClassified k failed other => Sys2Proof.Machine.execFaultClassified k failed other s
  | .verifyS c v => Sys2Proof.Machine.execVerifyS c v s
  | .verifyD c v => Sys2Proof.Machine.execVerifyD c v s
  | .unflipS c v => Sys2Proof.Machine.execUnflipS c v s
  | .unflipD c v => Sys2Proof.Machine.execUnflipD c v s
  | .mirrorVerifyDone p d ecc => Sys2Proof.Machine.execMirrorVerifyDone p d ecc s
  | .calDone p => Sys2Proof.Machine.execCalDone p s
  | .recordEmission p dest exceeds => Sys2Proof.Machine.execRecordEmission p dest exceeds s
  | .holdExpiry c t => Sys2Proof.Machine.execHoldExpiry c t s
  | .barrierDone c => Sys2Proof.Machine.execBarrierDone c s
  | .eocTimeout c t => Sys2Proof.Machine.execEocTimeout c t s
  | .descriptorFetch c ok bytes => Sys2Proof.Machine.execDescriptorFetch c ok bytes s
  | .dmaDcTailWrite c v => Sys2Proof.Machine.execDmaDcTailWrite c v s
  | .chanClosed c => Sys2Proof.Machine.execChanClosed c s
  | .driveLinkUp d rate width => Sys2Proof.Machine.execDriveLinkUp d rate width s
  | .driveReady d ns lba plain mdts qmax hdr => Sys2Proof.Machine.execDriveReady d ns lba plain mdts qmax hdr s
  | .driveLinkDown d fatal => Sys2Proof.Machine.execDriveLinkDown d fatal s
  | .nvmeTimeout d k => Sys2Proof.Machine.execNvmeTimeout d k s
  | .chunkWriteDone d k ok => Sys2Proof.Machine.execChunkWriteDone d k ok s
  | .nvmeReadDone d k ok hdrOk bad => Sys2Proof.Machine.execNvmeReadDone d k ok hdrOk bad s
  | .readbackDelivery p => Sys2Proof.Machine.execReadbackDelivery p s
  | .checkpoint => Sys2Proof.Machine.execCheckpoint s
  | .segmentCloseTimer p t => Sys2Proof.Machine.execSegmentCloseTimer p t s
  | .smartPoll d warn used temp => Sys2Proof.Machine.execSmartPoll d warn used temp s
  | .storeRecovery segs ckpt found => Sys2Proof.Machine.execStoreRecovery segs ckpt found s
  | .format c v => Sys2Proof.Machine.execFormat c v s
  | .join c d v => Sys2Proof.Machine.execJoin c d v s
  | .masterEdge m edge a b z => Sys2Proof.Machine.execMasterEdge m edge a b z s
  | .prtGearArmctlWrite c v => Sys2Proof.Machine.execPrtGearArmctlWrite c v s
  | .gearLatchArm c v => Sys2Proof.Machine.execGearLatchArm c v s
  | .gearLatch p => Sys2Proof.Machine.execGearLatch p s
  | .groupRun c g v => Sys2Proof.Machine.execGroupRun c g v s
  | .groupHold c g v => Sys2Proof.Machine.execGroupHold c g v s
  | .encoderEdge a edge ea eb ez => Sys2Proof.Machine.execEncoderEdge a edge ea eb ez s
  | .switchEdge a j t level => Sys2Proof.Machine.execSwitchEdge a j t level s
  | .stopIn low t => Sys2Proof.Machine.execStopIn low t s
  | .chopperSwitch a w t code => Sys2Proof.Machine.execChopperSwitch a w t code s
  | .chopperAdapt a w t samples => Sys2Proof.Machine.execChopperAdapt a w t samples s
  | .overcurrent a w code0 code1 => Sys2Proof.Machine.execOvercurrent a w code0 code1 s
  | .mstepSwap c v => Sys2Proof.Machine.execMstepSwap c v s
  | .tableSwapped a => Sys2Proof.Machine.execTableSwapped a s
  | .auxStep t va vb => Sys2Proof.Machine.execAuxStep t va vb s
  | .auxScanStart c v => Sys2Proof.Machine.execAuxScanStart c v s
  | .scanDue t => Sys2Proof.Machine.execScanDue t s
  | .excitationSwap n t => Sys2Proof.Machine.execExcitationSwap n t s
  | .excFault n => Sys2Proof.Machine.execExcFault n s
  | .auxOvervolt ch neg => Sys2Proof.Machine.execAuxOvervolt ch neg s
  | .auxOvClear c v => Sys2Proof.Machine.execAuxOvClear c v s
  | .auxInjReq c n v => Sys2Proof.Machine.execAuxInjReq c n v s
  | .auxCalGo c v => Sys2Proof.Machine.execAuxCalGo c v s
  | .auxCalAbort c v => Sys2Proof.Machine.execAuxCalAbort c v s
  | .packetDelivery d => Sys2Proof.Machine.execPacketDelivery d s
  | .evqPop c q => Sys2Proof.Machine.execEvqPop c q s
  | .evqFlush c q v => Sys2Proof.Machine.execEvqFlush c q v s
  | .evqCtlWrite c q v => Sys2Proof.Machine.execEvqCtlWrite c q v s
  | .evqRingCfgWrite c q size v => Sys2Proof.Machine.execEvqRingCfgWrite c q size v s
  | .evqRingHeadWrite c q v => Sys2Proof.Machine.execEvqRingHeadWrite c q v s
  | .evqLevelWrite c q v => Sys2Proof.Machine.execEvqLevelWrite c q v s
  | .evtRouteWrite c src v => Sys2Proof.Machine.execEvtRouteWrite c src v s
  | .queueIntegrity q t => Sys2Proof.Machine.execQueueIntegrity q t s
  | .audit diffs => Sys2Proof.Machine.execAudit diffs s
  | .lockstepMismatch => Sys2Proof.Machine.execLockstepMismatch s
  | .mgtRestarted => Sys2Proof.Machine.execMgtRestarted s
  | .journalDrain => Sys2Proof.Machine.execJournalDrain s
  | .sensorRead temps volts => Sys2Proof.Machine.execSensorRead temps volts s
  | .thermalTrip k temp => Sys2Proof.Machine.execThermalTrip k temp s
  | .pldmMessage => Sys2Proof.Machine.execPldmMessage s
  | .cfgGet => Sys2Proof.Machine.execCfgGet s
  | .cfgSet => Sys2Proof.Machine.execCfgSet s
  | .debugToken jtag token crypto => Sys2Proof.Machine.execDebugToken jtag token crypto s
  | .mctpMessage src msg => Sys2Proof.Machine.execMctpMessage src msg s
  | .pldmUpdate image crypto => Sys2Proof.Machine.execPldmUpdate image crypto s
  | .fwActivated ok => Sys2Proof.Machine.execFwActivated ok s
  | .refclkFailover okA okB => Sys2Proof.Machine.execRefclkFailover okA okB s
  | .refclkValid b => Sys2Proof.Machine.execRefclkValid b s
  | .hrefclkLoss => Sys2Proof.Machine.execHrefclkLoss s
  | .ppllUnlock p => Sys2Proof.Machine.execPpllUnlock p s
  | .ppllRelock p => Sys2Proof.Machine.execPpllRelock p s
  | .clkPpllFreqWrite c p v => Sys2Proof.Machine.execClkPpllFreqWrite c p v s
  | .freqMonitor freqs host store => Sys2Proof.Machine.execFreqMonitor freqs host store s
  | .powerOnReset b => Sys2Proof.Machine.execPowerOnReset b s
  | .supplyFault => Sys2Proof.Machine.execSupplyFault s
  | .prtGqueueRead c => Sys2Proof.Machine.execPrtGqueueRead c s
  | .prtGrejectRead c => Sys2Proof.Machine.execPrtGrejectRead c s
  | .prtLtgEarlyRead c => Sys2Proof.Machine.execPrtLtgEarlyRead c s
  | .pipEccRead c => Sys2Proof.Machine.execPipEccRead c s
  | .pipEccAddrRead c => Sys2Proof.Machine.execPipEccAddrRead c s
  | .pipLaneStatRead c => Sys2Proof.Machine.execPipLaneStatRead c s
  | .cmpVerifyRead c => Sys2Proof.Machine.execCmpVerifyRead c s
  | .cmpBadRead c => Sys2Proof.Machine.execCmpBadRead c s
  | .cmpStallRead c => Sys2Proof.Machine.execCmpStallRead c s
  | .cmpShiftRead c k => Sys2Proof.Machine.execCmpShiftRead c k s
  | .dmaDcDropRead c => Sys2Proof.Machine.execDmaDcDropRead c s
  | .dmaDcErrRead c => Sys2Proof.Machine.execDmaDcErrRead c s
  | .dmaScFaultRead c => Sys2Proof.Machine.execDmaScFaultRead c s
  | .tksPortDropRead c p => Sys2Proof.Machine.execTksPortDropRead c p s
  | .motChatterRead c => Sys2Proof.Machine.execMotChatterRead c s
  | .auxScanStatRead c => Sys2Proof.Machine.execAuxScanStatRead c s
  | .auxExcStatRead c n => Sys2Proof.Machine.execAuxExcStatRead c n s
  | .auxInjReqRead c n => Sys2Proof.Machine.execAuxInjReqRead c n s
  | .evqLostRead c q => Sys2Proof.Machine.execEvqLostRead c q s
  | .mgtFaultRead c => Sys2Proof.Machine.execMgtFaultRead c s
  | .mgtFaultCntRead c => Sys2Proof.Machine.execMgtFaultCntRead c s
  | .mgtJrnlStatRead c => Sys2Proof.Machine.execMgtJrnlStatRead c s
  | .mgtSensorRead c k => Sys2Proof.Machine.execMgtSensorRead c k s
  | .clampStopsConducting p t => Sys2Proof.Machine.execClampStopsConducting p t s
  | .auxClampStopsConducting ch neg => Sys2Proof.Machine.execAuxClampStopsConducting ch neg s
  | .excCurrentBelowLimit n => Sys2Proof.Machine.execExcCurrentBelowLimit n s
  | .illegalOpcode e w => Sys2Proof.Machine.execIllegalOpcode e w s
  | .scriptAccessDone c ok kind n data => Sys2Proof.Machine.execScriptAccessDone c ok kind n data s
  | .checkpointWriteDone d ok => Sys2Proof.Machine.execCheckpointWriteDone d ok s
  | .msiXVectorUnmask w => Sys2Proof.Machine.execMsiXVectorUnmask w s
  | .ideKmMessage m => Sys2Proof.Machine.execIdeKmMessage m s

end Sys2Proof.Machine
end

