-- ==== Sys2Proof/Safety.lean ====
section
/-! DEFINITION. What counts as a sound state, in the terms that statements use: what holds at power-on and what every step keeps. -/

namespace Sys2Proof.Machine

/-- The memories of an engine are in their canonical form. -/
def Eng.memOk (x : Eng) : Prop :=
  mwf (fun _ => 0) x.imem = true ∧ mwf (fun _ => 0) x.param = true ∧ mwf (fun _ => 0) x.scratch = true

/-- Every sparse memory is in its canonical form: registers, tables, pending sources, raisings, MSI-X masks and pending bits, the
script store, the microstep tables, and the engines' memories. -/
structure State.MemOk (s : State) : Prop where
  regs : mwf resetCell s.regs = true
  tbl : mwf (fun _ => 0) s.tbl = true
  pend : mwf noPend s.pend = true
  raised : mwf (fun _ => 0) s.raised = true
  msiUnmasked : mwf (fun _ => false) s.msiUnmasked = true
  msiPend : mwf (fun _ => false) s.msiPend = true
  store : mwf (fun _ => 0) s.store = true
  mstepNext : mwf sineT s.mstepNext = true
  mstepNow : mwf sineT s.mstepNow = true
  engs : ∀ e : EngId, (s.engs[e]).memOk

/-- Context 0 holds every right (R44). -/
def Ctx.owner (x : Ctx) : Prop :=
  x.rightsBlk = 0x0FFFFFFF ∧ x.rightsPort = 0xFFFFFFFF ∧ x.rightsAxis = 0xFFFF

/-- The select registers of a context name units that the ZL9640 has (R41). -/
def Ctx.selOk (x : Ctx) : Prop :=
  x.selPort.toNat < 16 ∧ x.selAxis.toNat < 8 ∧ x.selChan.toNat < 80 ∧
    (fld x.selEngine.toNat 5 4 < 2 ∨ (fld x.selEngine.toNat 5 4 = 2 ∧ fld x.selEngine.toNat 3 0 < 8)) ∧
    (fld x.selTable.toNat 3 0 < 5 ∧ (fld x.selTable.toNat 3 0 = 2 → fld x.selTable.toNat 11 8 < 8) ∧
      (fld x.selTable.toNat 3 0 = 4 → fld x.selTable.toNat 21 16 < 32))

/-- The journal's sequence numbers rise strictly, and the next one is above them all (R384, R385). -/
structure Journal.Ok (j : Journal) : Prop where
  rising : ((j.ring ++ j.mem).map (fun e => e.seq)).Pairwise (fun a b => a < b)
  below : ∀ e ∈ j.ring ++ j.mem, e.seq < j.next

/-- A sound state: canonical memories, the owner's rights, valid selections, queues that hold, with the packet on its way into them, at most 64 words (R362), a rising journal. -/
structure State.Ok (s : State) : Prop where
  mem : s.MemOk
  owner : (s.ctxs[(0 : CtxId)]).owner
  sel : ∀ c : CtxId, (s.ctxs[c]).selOk
  queues : ∀ q : QueueId, (s.queues[q]).words.length + (s.queues[q]).flight.length ≤ 64
  jrnl : s.jrnl.Ok

/-- Command `i` completes on `s` with the outcome `P`: `exec` answers a next state, and `P` holds of it. -/
def Does (i : Instr) (s : State) (P : State → Prop) : Prop := ∃ t, exec i s = .next t ∧ P t

/-- An access of context `c` at `off` is served: a reference runs (R398), and the context holds the rights (R44, R45). -/
def State.Serves (s : State) (c : CtxId) (off : Nat) (wr : Bool) : Prop := s.refSel ≠ 3 ∧ s.ctxs[c].allowed off wr = true

/-- From `s` to `t` every register keeps its contents but those of the keys `ks`. -/
def State.SameRegs (s t : State) (ks : List Nat) : Prop := ∀ k, k ∉ ks → mget resetCell t.regs k = mget resetCell s.regs k

/-- From `s` to `t` every word of the table memories keeps its value but those of the keys `ks`. -/
def State.SameTbl (s t : State) (ks : List Nat) : Prop := ∀ k, k ∉ ks → mget (fun _ => (0 : Word)) t.tbl k = mget (fun _ => 0) s.tbl k

/-- From `s` to `t` no source is raised but those of `srcs`. -/
def State.SameRaised (s t : State) (srcs : List Nat) : Prop := ∀ k, k ∉ srcs → t.raisings k = s.raisings k

/-- The keys of the registers that count the requests an injection slot loses (R351). -/
def injKeys : List Nat := (List.range 4).map (fun n => rkey 0 (Off.AUX_INJ_REQ + 16 * n))

/-- Two states of a cut group that differ at most in the members whose first new line has not begun, and in the count of cuts that
depends on them. -/
def Group.Same (x y : Group) : Prop := { x with starting := [], done := 0 } = { y with starting := [], done := 0 }

/-- From `s` to `t` no source is pending otherwise but those of `srcs`. -/
def State.SamePend (s t : State) (srcs : List Nat) : Prop := ∀ k, k ∉ srcs → mget noPend t.pend k = mget noPend s.pend k

/-- From `s` to `t` nothing changes but what the raising of `srcs` can change: the raisings and the pending state of these sources and of
AUX_INJ_LOST, the injection slots, which only gain requests and wake their converters, and their counts of lost requests. -/
def State.EventsOnly (s t : State) (srcs : List Nat) : Prop :=
  t = { s with raised := t.raised, pend := t.pend, regs := t.regs, aux := { s.aux with inj := t.aux.inj, down := t.aux.down, upAt := t.aux.upAt } } ∧
    s.SameRegs t injKeys ∧ s.SameRaised t (auxSrc 40 :: srcs) ∧ s.SamePend t (auxSrc 40 :: srcs) ∧
    (∀ n : Fin 4, s.aux.inj[n].isSome = true → t.aux.inj[n] = s.aux.inj[n]) ∧ (s.aux.down = false → t.aux.down = false ∧ t.aux.upAt = s.aux.upAt)

/-- The completion entry of context `c` for submission `y` with the outcome `r` (Table 2.5, R58): written at the next place of the
completion ring, with the phase of this pass and the submission head moved past `y`. -/
def State.completion (s : State) (c : CtxId) (y : Submission) (r : AdmRes) : BusOp :=
  .memWrite (s.pair c.val Off.HIF_ACQ_BASE_LO + 16 * (s.ctxs[c]).cqNext)
    (completionBytes y.cid.toNat (if (s.ctxs[c]).zhp < 0x22 then { r with detail := 0 } else r) (s.ctxs[c]).phase
      (((s.ctxs[c]).sqHead + 1) % 2 ^ s.rf c.val Off.HIF_AQ_SIZE 3 0)) false

/-- Context `c` has been answered `r` for `y`: the last write on the link is its completion entry, behind a flush read, and the
heads of its rings have moved on by one (R48, R50, R58). -/
def State.Answered (s t : State) (c : CtxId) (y : Submission) (r : AdmRes) : Prop :=
  t.bus.take 2 = [s.completion c y r, .flushRead] ∧
    (t.ctxs[c]).sqHead = ((s.ctxs[c]).sqHead + 1) % 2 ^ s.rf c.val Off.HIF_AQ_SIZE 3 0 ∧
    (t.ctxs[c]).cqNext = ((s.ctxs[c]).cqNext + 1) % 2 ^ s.rf c.val Off.HIF_AQ_SIZE 11 8

/-- Management's shadow of every unit that a command targets agrees with the unit (R378). -/
def State.Agrees (s : State) (y : Submission) : Prop := ∀ e ∈ s.targets y, s.shadowState e.1 e.2 = s.ownState e.1 e.2

/-- The next submission `y` of context `c` is served, passes the checks of every command with the description `d` (R426,
steps 1 to 5), and the audit of its targets finds nothing (R378). -/
def State.Accepts (s : State) (c : CtxId) (d : AdmDesc) (y : Submission) : Prop :=
  s.served c = true ∧ admGeneric (s.ctxs[c]).zhp d y = none ∧ s.Agrees y

/-- Engine `e` runs, and an instruction of `cost` cycles stays within the declared worst case (R64, R83; a script's cycles are
checked by nothing, R246). -/
def State.Runs (s : State) (e : EngId) (cost : Nat) : Prop :=
  (s.eng e).run = .running ∧ s.transferring e = false ∧ (engKind e = 3 ∨ (s.eng e).cyc + cost ≤ (s.prog e).declared)

/-- Engine `e` runs an instruction whose fields are valid (R64, R65). -/
def State.Takes (s : State) (e : EngId) (cost : Nat) (u : Uses) (f : ZscFields) : Prop :=
  s.Runs e cost ∧ u.ok f = true ∧ f.cond ≠ 15

/-- From `s` to `t` engine `e` becomes `x` and nothing else changes; the word that a script fetched is used up. -/
def State.OnlyEng (s t : State) (e : EngId) (x : Eng) : Prop :=
  t.eng e = x ∧ (∀ d : EngId, d ≠ e → t.eng d = s.eng d) ∧ t = { s with engs := t.engs, scripts := t.scripts } ∧
    (∀ c : ScriptId, t.script c = if engKind e = 3 ∧ c = scriptOf e then { s.script c with fetched := none } else s.script c)

/-- The engine after an instruction that goes to `pc`. -/
def Eng.went (x : Eng) (pc cost : Nat) : Eng := { x with pc := pc % 65536, cyc := x.cyc + cost }

/-- The engine after an arithmetic instruction with the result `r`: rd takes it, but G0 discards it (R62); with the S bit Z and N
follow it, and C and V are as given (R67, R68). With a false condition the instruction takes one cycle and does nothing (R64). -/
def Eng.took (x : Eng) (f : ZscFields) (cost : Nat) (r : Word) (c v : Bool) : Eng :=
  if x.condTrue f.cond then
    let y := if f.rd = 0 then x else { x with g := x.g.set f.rd.toNat r }
    let z := if f.setsFlags then { y with z := decide (r = 0), n := r.msb, c := c, v := v } else y
    z.went (x.pc + 1) cost
  else x.went (x.pc + 1) 1

/-- Engine `e` has stopped with a trap (R75): its registers and pc as they were; the code and the argument recorded; the fault
waits for its classification, or joins the one that runs (R381), and the unit, if it is a port or an axis that is not OFF, is FAULTED. -/
def State.Trapped (s t : State) (e : EngId) (code arg : Nat) : Prop :=
  t.eng e = { s.eng e with run := .trapped, trapped := some (code, (s.eng e).pc), trapArg := BitVec.ofNat 32 arg } ∧
    (∀ d : EngId, d ≠ e → t.eng d = s.eng d) ∧
    (∃ f, t.faults = (if s.joins f then joinFault f s.faults else s.faults ++ [f]) ∧ f.code = 7 ∧ f.arg = e.val ∧ f.arg2 = code ∧ f.time = s.now) ∧
    (if engKind e = 3 then (t.script (scriptOf e)).st = .faulted ∧ (t.script (scriptOf e)).cause = 2 ∧ t.units = s.units
      else (t.unit (engUnit e)).st = if (s.unit (engUnit e)).st = .off then .off else .faulted)

/-- What issuing a gate entry `y` of port `p` with the end stamp `stop` leaves (R109 to R112): the engine goes on; without a reason
for rejection the entry is at the end of the queue, with the taps that its mask names (R108), its window and samples counted; with a reason the queue stays, PRT_GREJECT,
PRT_GQUEUE and GATE_REJECT tell it, and the line in capture is dropped. -/
def State.Issued (s t : State) (p : PortId) (y : EdgeEntry) (reason : Option Nat) (stop : Nat) : Prop :=
  let x := s.eng (gateEng p)
  t.eng (gateEng p) = x.went (x.pc + 1) 1 ∧ (∀ d : EngId, d ≠ gateEng p → t.eng d = s.eng d) ∧
    (∀ q : PortId, q ≠ p → t.port q = s.port q) ∧ (t.port p).gate.pins = (s.port p).gate.pins ∧
    (t.port p).gate.strobes = (s.port p).gate.strobes ∧ (t.port p).gate.active = (s.port p).gate.active ∧
    (match reason with
     | none =>
       t = { s with engs := t.engs, ports := t.ports, regs := t.regs } ∧ (t.port p).cap = (s.port p).cap ∧
         (t.port p).gate.queue = (s.port p).gate.queue ++ [{ y with stop := stop, mask := s.tapMask p y.mask }] ∧
         t.rf p.val Off.PRT_GQUEUE 6 0 = ((s.port p).gate.queue.length + 1) % 128 ∧ s.SameRegs t [rkey p.val Off.PRT_GQUEUE]
     | some r =>
       { s with engs := t.engs, ports := t.ports, regs := t.regs }.EventsOnly t [portSrc p.val 4, portSrc p.val 0] ∧
         (t.port p).gate = (s.port p).gate ∧ t.eff p.val Off.PRT_GREJECT = (2 ^ 31 + r * 2 ^ 16 + x.pc) % 2 ^ 32 ∧
         t.raisings (portSrc p.val 4) = s.raisings (portSrc p.val 4) + 1 ∧
         (t.port p).cap = (s.port p).cap.map (fun l => { l with dropped := true }) ∧
         s.SameRegs t (injKeys ++ [rkey p.val Off.PRT_GREJECT, rkey p.val Off.PRT_GQUEUE]))

/-- The pipe engine of port `p` takes the primitive `op` (R150, R151): it runs and does not stall, the pass is not being skipped, the
unused fields are 0, the condition is true, and the cycles of the pass stay within the declared worst case. -/
def State.TakesPrim (s : State) (p : PortId) (op : Nat) (f : ZscFields) : Prop :=
  let x := s.eng (pipeEng p)
  let i := s.inStream p f
  let b := s.block p op f
  x.run = .running ∧ (s.port p).pipe.stall = none ∧ (s.port p).pipe.skip = false ∧ f.rb = 0 ∧ f.imm.toNat < 16384 ∧
    f.ext &&& 0x7F#8 = 0 ∧ f.cond ≠ 15 ∧ x.condTrue f.cond = true ∧
    x.cyc + (if chainBit f then 1 else passCost (max i.nmax (primCount op b i.geo)) (i.lat + primLat op b)) ≤ (s.prog (pipeEng p)).declared

/-- The stream and the work lines after the primitive `op` has given the samples `out` (R150 to R154): with CHAIN they go on in the
stream with their geometry, count and latency, for one cycle; without it they go to the work line that rd names, if it names one,
which keeps its samples beyond them (R149), and the pass costs what R152 says. -/
def State.Gave (s t : State) (p : PortId) (op : Nat) (f : ZscFields) (out : Option (List Nat)) : Prop :=
  let x := s.eng (pipeEng p)
  let i := s.inStream p f
  let b := s.block p op f
  let g := primGeo op b i.geo
  let n := max i.nmax (primCount op b i.geo)
  let l := i.lat + primLat op b
  (∀ e : EngId, e ≠ pipeEng p → t.eng e = s.eng e) ∧ (∀ q : PortId, q ≠ p → t.port q = s.port q) ∧
    (if chainBit f then
      t.eng (pipeEng p) = x.went (x.pc + 1) 1 ∧ (t.port p).pipe.wl = (s.port p).pipe.wl ∧
        ((t.port p).pipe.stream.map (fun o => (o.xs, o.geo, o.nmax, o.lat))) = some (out, g, n, l)
    else
      t.eng (pipeEng p) = x.went (x.pc + 1) (passCost n l) ∧ (t.port p).pipe.stream = none ∧
        (∀ d : Fin 4, (t.port p).pipe.wl[d] = if f.rd.toNat = d.val + 2 then (out.map (fun xs => xs ++ (s.port p).pipe.wl[d].drop xs.length)).getD (s.port p).pipe.wl[d]
          else (s.port p).pipe.wl[d]))

end Sys2Proof.Machine
end

