-- ==== Sys2Proof/Certificates/Slice0/Obligations.lean ====
section
/-! DEFINITION. The statements for the provers. A clause that begins with `Does i s` says that command `i` answers a next state on every
state and operands that meet the clause's conditions, and what that state holds; what it does not name is unchanged. -/

open Sys2Proof Sys2Proof.Machine

/-- With command c at the front of the queue, a step is exec of c on the state with the rest of the queue; on an empty queue it answers the state unchanged (idling is the model's choice, log entry 1). -/
def Obligations.StepServesTheFront : Prop :=
  (∀ (c : Instr) (rest : List Instr) (s : State), s.pending = c :: rest → step s = exec c { s with pending := rest }) ∧
  (∀ s : State, s.pending = [] → step s = .next s)

/-- The reset state is sound: its memories are canonical, context 0 holds every right, the selections name units, the queues are within bounds and the journal rises. Nothing is queued and device time is 0; contexts 1 to 7 hold no rights and no context has a version or runs rings; every unit is OFF with no setup loaded or committed; no cut is armed, every channel and queue is empty, no source is raised or pending; logical lane l is physical lane l and 8 is the spare; no bank is flipped; the auxiliary analog unit scans nothing, drives nothing, and its coefficients are the identity. (Time 0 is the model's, log entry 120.) -/
def Obligations.ResetState : Prop :=
  State.reset.Ok ∧ State.reset.pending = [] ∧ State.reset.now = 0 ∧
  (∀ c : CtxId, c ≠ 0 → (State.reset.ctxs[c]).rightsBlk = 0 ∧ (State.reset.ctxs[c]).rightsPort = 0 ∧ (State.reset.ctxs[c]).rightsAxis = 0) ∧
  (∀ c : CtxId, (State.reset.ctxs[c]).zhp = 0 ∧ (State.reset.ctxs[c]).enable = false ∧ (State.reset.ctxs[c]).err = 0) ∧
  (∀ u : UnitId, (State.reset.unit u).st = .off ∧ (State.reset.unit u).committed = none ∧ (State.reset.unit u).current = none ∧ (State.reset.unit u).cut = none ∧
    ∀ k : Fin 8, ((State.reset.unit u).slots[k]).isLoaded = false) ∧
  (∀ g : GroupId, (State.reset.groups[g]).armed = none) ∧ (∀ d : ChanId, (State.reset.chan d).st = 0 ∧ (State.reset.chan d).cur = none) ∧
  (∀ q : QueueId, (State.reset.queues[q]).words = []) ∧ State.reset.raised = [] ∧ State.reset.pend = [] ∧ State.reset.faults = [] ∧
  (∀ (p : PortId) (l : Fin 8), State.reset.rf p.val Off.PIP_LANE_MAP (4 * l.val + 3) (4 * l.val) = l.val) ∧
  (∀ p : PortId, State.reset.rf p.val Off.PIP_LANE_STAT 3 0 = 8 ∧ State.reset.phys p 0 0 = 0 ∧ State.reset.phys p 0 1 = 1 ∧ State.reset.phys p 1 0 = 0 ∧ State.reset.phys p 1 1 = 1) ∧
  State.reset.eff 0 Off.AUX_SCAN_MASK = 0 ∧ State.reset.aux.running = false ∧ (∀ n : Fin 8, State.reset.rf 0 (Off.AUX_EXC_CFG + 16 * n.val) 31 31 = 0 ∧ (State.reset.aux.exc[n]).on = false) ∧
  (∀ (c : Fin 32) (g : Fin 8), State.reset.eff 0 (ofsOff c.val g.val) = 0 ∧ State.reset.eff 0 (gainOff c.val g.val) = 2 ^ 30)

/-- A served write of SEL_PORT, SEL_AXIS, SEL_CHAN, SEL_ENGINE or SEL_TABLE sets the used fields of that register of the writing context; a value that names no unit is ignored whole; the other selections, the other contexts and all else keep their values. -/
def Obligations.SelectWrites : Prop :=
  (∀ (c : CtxId) (v : Word) (s : State),
      s.refSel ≠ 3 →
      Does (.selPortWrite c v) s (fun t => t = { s with ctxs := t.ctxs } ∧ (∀ d : CtxId, d ≠ c → t.ctxs[d] = s.ctxs[d]) ∧
        t.ctxs[c] = { s.ctxs[c] with selPort := v &&& 0xF })) ∧
  (∀ (c : CtxId) (v : Word) (s : State),
      s.refSel ≠ 3 →
      Does (.selAxisWrite c v) s (fun t => t = { s with ctxs := t.ctxs } ∧ (∀ d : CtxId, d ≠ c → t.ctxs[d] = s.ctxs[d]) ∧
        t.ctxs[c] = { s.ctxs[c] with selAxis := v &&& 0x7 })) ∧
  (∀ (c : CtxId) (v : Word) (s : State),
      s.refSel ≠ 3 →
      Does (.selChanWrite c v) s (fun t => t = { s with ctxs := t.ctxs } ∧ (∀ d : CtxId, d ≠ c → t.ctxs[d] = s.ctxs[d]) ∧
        t.ctxs[c] = if (v &&& 0x7F).toNat < 80 then { s.ctxs[c] with selChan := v &&& 0x7F } else s.ctxs[c])) ∧
  (∀ (c : CtxId) (v : Word) (s : State),
      s.refSel ≠ 3 →
      Does (.selEngineWrite c v) s (fun t => t = { s with ctxs := t.ctxs } ∧ (∀ d : CtxId, d ≠ c → t.ctxs[d] = s.ctxs[d]) ∧
        t.ctxs[c] = if fld v.toNat 5 4 = 3 ∨ (fld v.toNat 5 4 = 2 ∧ 8 ≤ fld v.toNat 3 0) then s.ctxs[c]
          else { s.ctxs[c] with selEngine := v &&& 0x3F })) ∧
  (∀ (c : CtxId) (v : Word) (s : State),
      s.refSel ≠ 3 →
      Does (.selTableWrite c v) s (fun t => t = { s with ctxs := t.ctxs } ∧ (∀ d : CtxId, d ≠ c → t.ctxs[d] = s.ctxs[d]) ∧
        t.ctxs[c] = if 5 ≤ fld v.toNat 3 0 ∨ (fld v.toNat 3 0 = 2 ∧ 8 ≤ fld v.toNat 11 8) ∨ (fld v.toNat 3 0 = 4 ∧ 32 ≤ fld v.toNat 21 16)
          then s.ctxs[c] else { s.ctxs[c] with selTable := v &&& 0x3F1F0F }))

/-- A served read of the low half of a pair copies both halves of that moment into the snapshot of the context, tagged; the matching read of the high half returns the snapshot half and clears the tag, another returns the live half. A read of a shading or defect table returns its words and counts the corrected ones. A write of the low half of a read-write pair is held; the matching write of the high half commits both, another commits itself. A write to a register of any block that has no action of its own, and that takes the value written, sets the RW fields, stages the STG and CUT fields (they read back staged and are not in force) and clears the W1C bits written 1. An access of another size or alignment, or one without the right, has no effect and a read of that kind returns 0; BAD_ACCESS or DENIED is raised, the access is journaled, and HIF_DENIED takes the offset of a denied one. Without a reference no access is served. (That a snapshot of a _HI read matches by the offset, and a held half by pair and unit, is log entry 115; the order of the checks of an access log entry 113.) -/
def Obligations.PairAndFieldAccesses : Prop :=
  (∀ (c : CtxId) (off : BitVec 23) (size corr : Nat) (bad : Bool) (s : State) (r : RegDef) (u : Nat),
      s.Serves c off.toNat false →
      off.toNat % 8 = 0 →
      (size = 4 ∨ size = 8) →
      (s.reach c off.toNat = some (r, u)) →
      r.pair = 1 →
      r.base ≠ Off.EVQ_POP_LO →
      off.toNat < 0x200000 →
      Does (.pairLoRead c off ⟨size, corr, bad⟩) s (fun t =>
        let v := BitVec.ofNat 64 (s.live c r u off.toNat +
          2 ^ 32 * (match regDef (off.toNat + 4) with | some r' => s.live c r' u (off.toNat + 4) | none => 0))
        t = { s with rdata := t.rdata, ctxs := t.ctxs } ∧ (∀ d : CtxId, d ≠ c → t.ctxs[d] = s.ctxs[d]) ∧
        t.rdata = (if size = 8 then v else (v.setWidth 32).setWidth 64) ∧
        t.ctxs[c] = (if size = 8 then s.ctxs[c] else
          { s.ctxs[c] with snapLo := v.setWidth 32, snapHi := (v >>> 32).setWidth 32, snapTag := some (rkey u off.toNat) }))) ∧
  (∀ (c : CtxId) (off : BitVec 23) (size corr : Nat) (bad : Bool) (s : State) (p : PortId) (k b e : Nat),
      s.MemOk →
      s.refSel ≠ 3 →
      sizeOk off.toNat size = true →
      s.ctxs[c].allowed off.toNat false = true →
      (s.tblEntry c off.toNat = some (p, k, b, e)) →
      bad = false →
      (s.port p).pipe.unreadable k (s.phys p k b) e = false →
      Does (.pairLoRead c off ⟨size, corr, bad⟩) s (fun t =>
        t = { s with regs := t.regs, rdata := t.rdata } ∧ s.SameRegs t [rkey p.val Off.PIP_ECC] ∧
        t.rdata = BitVec.ofNat 64 (s.winRead c off.toNat + if size = 8 then 2 ^ 32 * s.winRead c (off.toNat + 4) else 0) ∧
        t.rf p.val Off.PIP_ECC 15 0 = min (s.rf p.val Off.PIP_ECC 15 0 + min corr (size / 4)) 65535 ∧ t.rf p.val Off.PIP_ECC 31 16 = s.rf p.val Off.PIP_ECC 31 16)) ∧
  (∀ (c : CtxId) (off : BitVec 23) (s : State) (r : RegDef) (u : Nat),
      s.Serves c off.toNat false →
      off.toNat % 8 = 4 →
      (s.reach c off.toNat = some (r, u)) →
      r.pair = 2 →
      r.rs = 0 →
      off.toNat < 0x200000 →
      Does (.pairHiRead c off) s (fun t =>
        t = { s with rdata := t.rdata, ctxs := t.ctxs } ∧ (∀ d : CtxId, d ≠ c → t.ctxs[d] = s.ctxs[d]) ∧
        (if s.ctxs[c].snapTag.map (fun k => k % 0x800000) = some (off.toNat - 4)
          then t.rdata = s.ctxs[c].snapHi.setWidth 64 ∧ t.ctxs[c] = { s.ctxs[c] with snapTag := none }
          else t.rdata = BitVec.ofNat 64 (s.live c r u off.toNat) ∧ t.ctxs[c] = s.ctxs[c]))) ∧
  (∀ (c : CtxId) (off : BitVec 23) (v : Word) (s : State) (r : RegDef) (u : Nat),
      s.Serves c off.toNat true →
      off.toNat % 8 = 0 →
      (s.reach c off.toNat = some (r, u)) →
      r.pair = 1 →
      lockedSc r u = false →
      s.takes c r u off.toNat v.toNat = true →
      off.toNat < 0x200000 →
      Does (.pairLoWrite c off v) s (fun t => t = { s with ctxs := t.ctxs } ∧ (∀ d : CtxId, d ≠ c → t.ctxs[d] = s.ctxs[d]) ∧
        t.ctxs[c] = { s.ctxs[c] with holdVal := v, holdTag := some (rkey u off.toNat) })) ∧
  (∀ (c : CtxId) (off : BitVec 23) (v : Word) (s : State) (r : RegDef) (u : Nat),
      s.MemOk →
      s.Serves c off.toNat true →
      (s.reach c off.toNat = some (r, u)) →
      (r.base = Off.PRT_GEAR_APOS_HI ∨ r.base = Off.DMA_SC_BASE_HI ∨ ((r.base = Off.HIF_ASQ_BASE_HI ∨ r.base = Off.HIF_ACQ_BASE_HI) ∧ s.ctxs[c].enable = false)) →
      lockedSc r u = false →
      Does (.pairHiWrite c off v) s (fun t =>
        t = { s with regs := t.regs, ctxs := t.ctxs, jrnl := t.jrnl } ∧ (∀ d : CtxId, d ≠ c → t.ctxs[d] = s.ctxs[d]) ∧
        s.SameRegs t [rkey u (off.toNat - 4), rkey u off.toNat] ∧ (t.cell u off.toNat).force = (((s.cell u off.toNat).force &&& ~~~r.rw) ||| (v &&& r.rw)) ∧
        (if s.ctxs[c].holdTag = some (rkey u (off.toNat - 4))
          then t.eff u (off.toNat - 4) = s.ctxs[c].holdVal.toNat ∧ t.ctxs[c] = { s.ctxs[c] with holdTag := none }
          else t.eff u (off.toNat - 4) = s.eff u (off.toNat - 4) ∧ t.ctxs[c] = s.ctxs[c]))) ∧
  (∀ (c : CtxId) (off : BitVec 23) (v : DWord) (s : State) (r : RegDef) (u : Nat),
      s.MemOk →
      s.Serves c off.toNat true →
      off.toNat % 4 = 0 →
      (s.reach c off.toNat = some (r, u)) →
      (blockRow off.toNat).any (fun b => decide (b < 12) && b != 1) = true →
      r.pair = 0 →
      lockedSc r u = false →
      s.takes c r u off.toNat (v.toNat % 2 ^ 32) = true →
      s.adjust r u off.toNat (v.toNat % 2 ^ 32) = v.toNat % 2 ^ 32 →
      (r.base ∉ [Off.HIF_CTX_CTL, Off.HIF_ASQ_TAIL, Off.HIF_ACQ_HEAD, Off.HIF_RESET, Off.EVT_ROUTE, Off.EVQ_CTL, Off.EVQ_LEVEL, Off.EVQ_RING_HEAD, Off.EVQ_RING_BASE_LO, Off.EVQ_RING_BASE_HI, Off.EVQ_RING_SIZE, Off.DMA_DC_TAIL, Off.DMA_SC_CTL, Off.DMA_SC_TRAP, Off.PRT_HEAD_CTL, Off.PRT_OV, Off.PRT_WATCH, Off.PRT_GCFG, Off.PRT_CONV_CTL, Off.PRT_LTG_CMD, Off.PRT_GEAR_ARMCTL, Off.PRT_GEAR_LCFG, Off.PIP_BANK_CTL, Off.CMP_CTL, Off.TKS_CTL, Off.TKS_DRV_CTL, Off.MOT_GRP_CTL, Off.MOT_MSTEP_CTL, Off.AUX_SCAN_CTL, Off.AUX_SCAN_MASK, Off.AUX_EXC_CFG, Off.AUX_INJ_REQ, Off.AUX_OV, Off.AUX_CAL_CTL, Off.MGT_MBOX_CTL, Off.CLK_PPLL_FREQ]) →
      Does (.regWrite c off 4 v) s (fun t =>
        let w : Word := v.setWidth 32
        let x := s.cell u off.toNat
        t = { s with regs := t.regs, jrnl := t.jrnl } ∧ s.SameRegs t [rkey u off.toNat] ∧
        (t.cell u off.toNat).val = ((x.val &&& ~~~(r.rw ||| r.stg ||| r.cut ||| (r.w1c &&& w))) ||| (w &&& (r.rw ||| r.stg ||| r.cut))) ∧
        (t.cell u off.toNat).force = ((x.force &&& ~~~(r.rw ||| (r.w1c &&& w))) ||| (w &&& r.rw)) ∧
        (t.cell u off.toNat).stg = x.stg ||| r.stg ∧ (t.cell u off.toNat).cut = x.cut ||| r.cut)) ∧
  (∀ (c : CtxId) (off : BitVec 23) (size : Nat) (v : DWord) (s : State),
      s.refSel = 3 →
      Does (.regWrite c off size v) s (fun t => t = s)) ∧
  (∀ (c : CtxId) (off : BitVec 23) (size : Nat) (v : DWord) (s : State),
      s.MemOk →
      s.refSel ≠ 3 →
      (¬(size = 4 ∧ off.toNat % 4 = 0)) →
      (¬(size = 8 ∧ off.toNat % 8 = 0 ∧ (0x200000 ≤ off.toNat ∨ (regDef off.toNat).any (fun r => r.pair == 1) = true))) →
      Does (.regWrite c off size v) s (fun t => t.raisings (mgtSrc (5 * c.val + 3)) = s.raisings (mgtSrc (5 * c.val + 3)) + 1 ∧
        t.jrnl = s.jrnl.add s.now { jentry 7 0 c.val with offset := off.toNat } ∧ { s with jrnl := t.jrnl }.EventsOnly t [mgtSrc (5 * c.val + 3)])) ∧
  (∀ (c : CtxId) (off : BitVec 23) (size corr : Nat) (bad : Bool) (s : State),
      s.MemOk →
      s.refSel ≠ 3 →
      (¬(size = 4 ∧ off.toNat % 4 = 0)) →
      (¬(size = 8 ∧ off.toNat % 8 = 0 ∧ (0x200000 ≤ off.toNat ∨ (regDef off.toNat).any (fun r => r.pair == 1) = true))) →
      Does (.pairLoRead c off ⟨size, corr, bad⟩) s (fun t => t.rdata = 0 ∧ t.raisings (mgtSrc (5 * c.val + 3)) = s.raisings (mgtSrc (5 * c.val + 3)) + 1 ∧
        t.jrnl = s.jrnl.add s.now { jentry 7 0 c.val with offset := off.toNat } ∧ { s with jrnl := t.jrnl, rdata := t.rdata }.EventsOnly t [mgtSrc (5 * c.val + 3)])) ∧
  (∀ (c : CtxId) (off : BitVec 23) (size : Nat) (v : DWord) (s : State),
      s.MemOk →
      s.refSel ≠ 3 →
      sizeOk off.toNat size = true →
      s.ctxs[c].allowed off.toNat true = false →
      Does (.regWrite c off size v) s (fun t => t.raisings (mgtSrc (5 * c.val + 2)) = s.raisings (mgtSrc (5 * c.val + 2)) + 1 ∧
        t.jrnl = s.jrnl.add s.now { jentry 6 0 c.val with offset := off.toNat } ∧ t.ctxs[c] = { s.ctxs[c] with denied := some off.toNat } ∧
        (∀ d : CtxId, d ≠ c → t.ctxs[d] = s.ctxs[d]) ∧ { s with jrnl := t.jrnl, ctxs := t.ctxs }.EventsOnly t [mgtSrc (5 * c.val + 2)])) ∧
  (∀ (c : CtxId) (off : BitVec 23) (size corr : Nat) (bad : Bool) (s : State),
      s.MemOk →
      s.refSel ≠ 3 →
      sizeOk off.toNat size = true →
      s.ctxs[c].allowed off.toNat false = false →
      Does (.pairLoRead c off ⟨size, corr, bad⟩) s (fun t => t.rdata = 0 ∧ t.raisings (mgtSrc (5 * c.val + 2)) = s.raisings (mgtSrc (5 * c.val + 2)) + 1 ∧
        t.jrnl = s.jrnl.add s.now { jentry 6 0 c.val with offset := off.toNat } ∧ t.ctxs[c] = { s.ctxs[c] with denied := some off.toNat } ∧
        (∀ d : CtxId, d ≠ c → t.ctxs[d] = s.ctxs[d]) ∧ { s with jrnl := t.jrnl, ctxs := t.ctxs, rdata := t.rdata }.EventsOnly t [mgtSrc (5 * c.val + 2)]))

/-- ENABLE written 1 starts the stopped rings of a context if both bases are aligned to 4 KiB and both sizes lie from 4 to 12, and sets ERR to 1 if not; a ring stopped with ERR 2 starts only after RESET; ENABLE written 0 stops them; RESET ends the session and keeps selections, snapshot and rights; the doorbells of running rings move SQ_TAIL and CQ_HEAD to an index in range, and stop the ring with ERR 2 for another; a read of HIF_DENIED returns the last denied offset and clears it. (That ENABLE 0 keeps the pointers is log entry 31; that a good ENABLE leaves an ERR of 1, and that ERR 2 holds it off, log entry 167.) -/
def Obligations.SessionAndDoorbells : Prop :=
  (∀ (c : CtxId) (v : Word) (s : State),
      s.refSel ≠ 3 →
      Does (.hifCtxCtlEnable c v) s (fun t =>
        let x := s.ctxs[c]
        let y : Ctx := if v.getLsbD 1 then { x with enable := false, err := 0, bells := [], zhp := 0, sqTail := 0, sqHead := 0, cqHead := 0, cqNext := 0, phase := true } else x
        let bad := s.eff c.val Off.HIF_ASQ_BASE_LO % 4096 ≠ 0 ∨ s.eff c.val Off.HIF_ACQ_BASE_LO % 4096 ≠ 0 ∨ s.rf c.val Off.HIF_AQ_SIZE 3 0 < 4 ∨ 12 < s.rf c.val Off.HIF_AQ_SIZE 3 0 ∨
          s.rf c.val Off.HIF_AQ_SIZE 11 8 < 4 ∨ 12 < s.rf c.val Off.HIF_AQ_SIZE 11 8
        t = { s with ctxs := t.ctxs, jrnl := t.jrnl } ∧ (∀ d : CtxId, d ≠ c → t.ctxs[d] = s.ctxs[d]) ∧
        t.ctxs[c] = (if v.getLsbD 0 = false then { y with enable := false } else if y.enable ∨ y.err = 2 then y else if bad then { y with err := 1 }
          else { y with enable := true, bells := [], sqTail := 0, sqHead := 0, cqHead := 0, cqNext := 0, phase := true }))) ∧
  (∀ (c : CtxId) (v : Word) (s : State),
      s.refSel ≠ 3 →
      Does (.hifCtxCtlReset c v) s (fun t =>
        let x := s.ctxs[c]
        let y : Ctx := if v.getLsbD 1 then { x with enable := false, err := 0, bells := [], zhp := 0, sqTail := 0, sqHead := 0, cqHead := 0, cqNext := 0, phase := true } else x
        let bad := s.eff c.val Off.HIF_ASQ_BASE_LO % 4096 ≠ 0 ∨ s.eff c.val Off.HIF_ACQ_BASE_LO % 4096 ≠ 0 ∨ s.rf c.val Off.HIF_AQ_SIZE 3 0 < 4 ∨ 12 < s.rf c.val Off.HIF_AQ_SIZE 3 0 ∨
          s.rf c.val Off.HIF_AQ_SIZE 11 8 < 4 ∨ 12 < s.rf c.val Off.HIF_AQ_SIZE 11 8
        t = { s with ctxs := t.ctxs, jrnl := t.jrnl } ∧ (∀ d : CtxId, d ≠ c → t.ctxs[d] = s.ctxs[d]) ∧
        t.ctxs[c] = (if v.getLsbD 0 = false then { y with enable := false } else if y.enable ∨ y.err = 2 then y else if bad then { y with err := 1 }
          else { y with enable := true, bells := [], sqTail := 0, sqHead := 0, cqHead := 0, cqNext := 0, phase := true }))) ∧
  (∀ (c : CtxId) (v : Word) (s : State),
      s.MemOk →
      s.refSel ≠ 3 →
      s.ctxs[c].enable = true →
      s.ctxs[c].err ≠ 2 →
      Does (.hifAsqTailWrite c v) s (fun t =>
        let size := 2 ^ s.rf c.val Off.HIF_AQ_SIZE 3 0
        let i := fld v.toNat 11 0
        let x := s.ctxs[c]
        (∀ d : CtxId, d ≠ c → t.ctxs[d] = s.ctxs[d]) ∧ { s with ctxs := t.ctxs }.EventsOnly t [mgtSrc (5 * c.val + 4)] ∧
        (if i < size ∧ (i + size - x.sqTail) % size ≤ (x.sqHead + size - 1 - x.sqTail) % size
          then t.ctxs[c] = { x with sqTail := i, bells := (if i = x.sqTail then x.bells else x.bells ++ [(s.nextBell, (i + size - x.sqTail) % size)]) } ∧ t.raisings (mgtSrc (5 * c.val + 4)) = s.raisings (mgtSrc (5 * c.val + 4))
          else t.ctxs[c] = { x with err := 2 } ∧ t.raisings (mgtSrc (5 * c.val + 4)) = s.raisings (mgtSrc (5 * c.val + 4)) + 1))) ∧
  (∀ (c : CtxId) (v : Word) (s : State),
      s.MemOk →
      s.refSel ≠ 3 →
      s.ctxs[c].enable = true →
      s.ctxs[c].err ≠ 2 →
      Does (.hifAcqHeadWrite c v) s (fun t =>
        let size := 2 ^ s.rf c.val Off.HIF_AQ_SIZE 11 8
        let i := fld v.toNat 11 0
        let x := s.ctxs[c]
        (∀ d : CtxId, d ≠ c → t.ctxs[d] = s.ctxs[d]) ∧ { s with ctxs := t.ctxs }.EventsOnly t [mgtSrc (5 * c.val + 4)] ∧
        (if i < size ∧ (i + size - x.cqHead) % size ≤ (x.cqNext + size - x.cqHead) % size
          then t.ctxs[c] = { x with cqHead := i } ∧ t.raisings (mgtSrc (5 * c.val + 4)) = s.raisings (mgtSrc (5 * c.val + 4))
          else t.ctxs[c] = { x with err := 2 } ∧ t.raisings (mgtSrc (5 * c.val + 4)) = s.raisings (mgtSrc (5 * c.val + 4)) + 1))) ∧
  (∀ (c : CtxId) (s : State),
      s.refSel ≠ 3 →
      Does (.hifDeniedRead c) s (fun t => t = { s with rdata := t.rdata, ctxs := t.ctxs } ∧ (∀ d : CtxId, d ≠ c → t.ctxs[d] = s.ctxs[d]) ∧
        t.ctxs[c] = { s.ctxs[c] with denied := none } ∧
        t.rdata = (match s.ctxs[c].denied with | some o => BitVec.ofNat 64 (2 ^ 31 + o % 2 ^ 23) | none => 0)))

/-- A served read of PRT_GREJECT, PRT_LTG_EARLY, PIP_ECC, PIP_ECC_ADDR, PIP_LANE_STAT, CMP_VERIFY, CMP_BAD or CMP_SHIFTi returns the register of the selected port and clears its RS fields; PRT_GQUEUE clears its count of rejects and CMP_STALL and PRT_GQUEUE set their high-water to the value of now; no other register changes. A served read of a read-to-clear register returns its value, clears its RS fields (a sensor takes the value of now as its maximum) and changes nothing else; MGT_JRNL_STAT clears the overflow count of the journal. -/
def Obligations.CountersReadToClear : Prop :=
  (∀ (c : CtxId) (s : State),
      s.MemOk →
      s.Serves c (Off.PRT_GQUEUE) false →
      (s.ctxs[c]).selPort.toNat < 16 →
      Does (.prtGqueueRead c) s (fun t => t = { s with rdata := t.rdata, regs := t.regs } ∧ t.rdata = BitVec.ofNat 64 (s.reg (s.ctxs[c]).selPort.toNat (Off.PRT_GQUEUE)) ∧
        s.SameRegs t [rkey (s.ctxs[c]).selPort.toNat (Off.PRT_GQUEUE)] ∧ t.cell (s.ctxs[c]).selPort.toNat (Off.PRT_GQUEUE) = (let x := s.cell (s.ctxs[c]).selPort.toNat Off.PRT_GQUEUE; { x with val := BitVec.ofNat 32 (setFld (setFld x.val.toNat 31 16 0) 14 8 (fld x.val.toNat 6 0)), force := BitVec.ofNat 32 (setFld (setFld x.force.toNat 31 16 0) 14 8 (fld x.val.toNat 6 0)) }))) ∧
  (∀ (c : CtxId) (s : State),
      s.MemOk →
      s.Serves c (Off.PRT_GREJECT) false →
      (s.ctxs[c]).selPort.toNat < 16 →
      Does (.prtGrejectRead c) s (fun t => t = { s with rdata := t.rdata, regs := t.regs } ∧ t.rdata = BitVec.ofNat 64 (s.reg (s.ctxs[c]).selPort.toNat (Off.PRT_GREJECT)) ∧
        s.SameRegs t [rkey (s.ctxs[c]).selPort.toNat (Off.PRT_GREJECT)] ∧ t.cell (s.ctxs[c]).selPort.toNat (Off.PRT_GREJECT) = { s.cell (s.ctxs[c]).selPort.toNat (Off.PRT_GREJECT) with val := (s.cell (s.ctxs[c]).selPort.toNat (Off.PRT_GREJECT)).val &&& ~~~0x8007FFFF#32, force := (s.cell (s.ctxs[c]).selPort.toNat (Off.PRT_GREJECT)).force &&& ~~~0x8007FFFF#32 })) ∧
  (∀ (c : CtxId) (s : State),
      s.MemOk →
      s.Serves c (Off.PRT_LTG_EARLY) false →
      (s.ctxs[c]).selPort.toNat < 16 →
      Does (.prtLtgEarlyRead c) s (fun t => t = { s with rdata := t.rdata, regs := t.regs } ∧ t.rdata = BitVec.ofNat 64 (s.reg (s.ctxs[c]).selPort.toNat (Off.PRT_LTG_EARLY)) ∧
        s.SameRegs t [rkey (s.ctxs[c]).selPort.toNat (Off.PRT_LTG_EARLY)] ∧ t.cell (s.ctxs[c]).selPort.toNat (Off.PRT_LTG_EARLY) = { s.cell (s.ctxs[c]).selPort.toNat (Off.PRT_LTG_EARLY) with val := (s.cell (s.ctxs[c]).selPort.toNat (Off.PRT_LTG_EARLY)).val &&& ~~~0xFFFFFFFF#32, force := (s.cell (s.ctxs[c]).selPort.toNat (Off.PRT_LTG_EARLY)).force &&& ~~~0xFFFFFFFF#32 })) ∧
  (∀ (c : CtxId) (s : State),
      s.MemOk →
      s.Serves c (Off.PIP_ECC) false →
      (s.ctxs[c]).selPort.toNat < 16 →
      Does (.pipEccRead c) s (fun t => t = { s with rdata := t.rdata, regs := t.regs } ∧ t.rdata = BitVec.ofNat 64 (s.reg (s.ctxs[c]).selPort.toNat (Off.PIP_ECC)) ∧
        s.SameRegs t [rkey (s.ctxs[c]).selPort.toNat (Off.PIP_ECC)] ∧ t.cell (s.ctxs[c]).selPort.toNat (Off.PIP_ECC) = { s.cell (s.ctxs[c]).selPort.toNat (Off.PIP_ECC) with val := (s.cell (s.ctxs[c]).selPort.toNat (Off.PIP_ECC)).val &&& ~~~0xFFFFFFFF#32, force := (s.cell (s.ctxs[c]).selPort.toNat (Off.PIP_ECC)).force &&& ~~~0xFFFFFFFF#32 })) ∧
  (∀ (c : CtxId) (s : State),
      s.MemOk →
      s.Serves c (Off.PIP_ECC_ADDR) false →
      (s.ctxs[c]).selPort.toNat < 16 →
      Does (.pipEccAddrRead c) s (fun t => t = { s with rdata := t.rdata, regs := t.regs } ∧ t.rdata = BitVec.ofNat 64 (s.reg (s.ctxs[c]).selPort.toNat (Off.PIP_ECC_ADDR)) ∧
        s.SameRegs t [rkey (s.ctxs[c]).selPort.toNat (Off.PIP_ECC_ADDR)] ∧ t.cell (s.ctxs[c]).selPort.toNat (Off.PIP_ECC_ADDR) = { s.cell (s.ctxs[c]).selPort.toNat (Off.PIP_ECC_ADDR) with val := (s.cell (s.ctxs[c]).selPort.toNat (Off.PIP_ECC_ADDR)).val &&& ~~~0x8003FFFF#32, force := (s.cell (s.ctxs[c]).selPort.toNat (Off.PIP_ECC_ADDR)).force &&& ~~~0x8003FFFF#32 })) ∧
  (∀ (c : CtxId) (s : State),
      s.MemOk →
      s.Serves c (Off.PIP_LANE_STAT) false →
      (s.ctxs[c]).selPort.toNat < 16 →
      Does (.pipLaneStatRead c) s (fun t => t = { s with rdata := t.rdata, regs := t.regs } ∧ t.rdata = BitVec.ofNat 64 (s.reg (s.ctxs[c]).selPort.toNat (Off.PIP_LANE_STAT)) ∧
        s.SameRegs t [rkey (s.ctxs[c]).selPort.toNat (Off.PIP_LANE_STAT)] ∧ t.cell (s.ctxs[c]).selPort.toNat (Off.PIP_LANE_STAT) = { s.cell (s.ctxs[c]).selPort.toNat (Off.PIP_LANE_STAT) with val := (s.cell (s.ctxs[c]).selPort.toNat (Off.PIP_LANE_STAT)).val &&& ~~~0x0000FF00#32, force := (s.cell (s.ctxs[c]).selPort.toNat (Off.PIP_LANE_STAT)).force &&& ~~~0x0000FF00#32 })) ∧
  (∀ (c : CtxId) (s : State),
      s.MemOk →
      s.Serves c (Off.CMP_VERIFY) false →
      (s.ctxs[c]).selPort.toNat < 16 →
      Does (.cmpVerifyRead c) s (fun t => t = { s with rdata := t.rdata, regs := t.regs } ∧ t.rdata = BitVec.ofNat 64 (s.reg (s.ctxs[c]).selPort.toNat (Off.CMP_VERIFY)) ∧
        s.SameRegs t [rkey (s.ctxs[c]).selPort.toNat (Off.CMP_VERIFY)] ∧ t.cell (s.ctxs[c]).selPort.toNat (Off.CMP_VERIFY) = { s.cell (s.ctxs[c]).selPort.toNat (Off.CMP_VERIFY) with val := (s.cell (s.ctxs[c]).selPort.toNat (Off.CMP_VERIFY)).val &&& ~~~0xF803FFFF#32, force := (s.cell (s.ctxs[c]).selPort.toNat (Off.CMP_VERIFY)).force &&& ~~~0xF803FFFF#32 })) ∧
  (∀ (c : CtxId) (s : State),
      s.MemOk →
      s.Serves c (Off.CMP_BAD) false →
      (s.ctxs[c]).selPort.toNat < 16 →
      Does (.cmpBadRead c) s (fun t => t = { s with rdata := t.rdata, regs := t.regs } ∧ t.rdata = BitVec.ofNat 64 (s.reg (s.ctxs[c]).selPort.toNat (Off.CMP_BAD)) ∧
        s.SameRegs t [rkey (s.ctxs[c]).selPort.toNat (Off.CMP_BAD)] ∧ t.cell (s.ctxs[c]).selPort.toNat (Off.CMP_BAD) = { s.cell (s.ctxs[c]).selPort.toNat (Off.CMP_BAD) with val := (s.cell (s.ctxs[c]).selPort.toNat (Off.CMP_BAD)).val &&& ~~~0x0000FFFF#32, force := (s.cell (s.ctxs[c]).selPort.toNat (Off.CMP_BAD)).force &&& ~~~0x0000FFFF#32 })) ∧
  (∀ (c : CtxId) (s : State),
      s.MemOk →
      s.Serves c (Off.CMP_STALL) false →
      (s.ctxs[c]).selPort.toNat < 16 →
      Does (.cmpStallRead c) s (fun t => t = { s with rdata := t.rdata, regs := t.regs } ∧ t.rdata = BitVec.ofNat 64 (s.reg (s.ctxs[c]).selPort.toNat (Off.CMP_STALL)) ∧
        s.SameRegs t [rkey (s.ctxs[c]).selPort.toNat (Off.CMP_STALL)] ∧ t.cell (s.ctxs[c]).selPort.toNat (Off.CMP_STALL) = (let x := s.cell (s.ctxs[c]).selPort.toNat (Off.CMP_STALL); { x with val := BitVec.ofNat 32 (setFld x.val.toNat 31 16 (fld x.val.toNat 15 0)), force := BitVec.ofNat 32 (setFld x.force.toNat 31 16 (fld x.val.toNat 15 0)) }))) ∧
  (∀ (c : CtxId) (i : Fin 16) (s : State),
      s.MemOk →
      s.Serves c (Off.CMP_SHIFT + 4 * i.val) false →
      (s.ctxs[c]).selPort.toNat < 16 →
      Does (.cmpShiftRead c i) s (fun t => t = { s with rdata := t.rdata, regs := t.regs } ∧ t.rdata = BitVec.ofNat 64 (s.reg (s.ctxs[c]).selPort.toNat (Off.CMP_SHIFT + 4 * i.val)) ∧
        s.SameRegs t [rkey (s.ctxs[c]).selPort.toNat (Off.CMP_SHIFT + 4 * i.val)] ∧ t.cell (s.ctxs[c]).selPort.toNat (Off.CMP_SHIFT + 4 * i.val) = { s.cell (s.ctxs[c]).selPort.toNat (Off.CMP_SHIFT + 4 * i.val) with val := (s.cell (s.ctxs[c]).selPort.toNat (Off.CMP_SHIFT + 4 * i.val)).val &&& ~~~0xFFFFFFFF#32, force := (s.cell (s.ctxs[c]).selPort.toNat (Off.CMP_SHIFT + 4 * i.val)).force &&& ~~~0xFFFFFFFF#32 })) ∧
  (∀ (c : CtxId) (s : State),
      s.MemOk →
      s.Serves c (Off.DMA_DC_DROP) false →
      (s.ctxs[c]).selChan.toNat < 64 →
      Does (.dmaDcDropRead c) s (fun t => t = { s with rdata := t.rdata, regs := t.regs } ∧ t.rdata = BitVec.ofNat 64 (s.reg (s.ctxs[c]).selChan.toNat (Off.DMA_DC_DROP)) ∧
        s.SameRegs t [rkey (s.ctxs[c]).selChan.toNat (Off.DMA_DC_DROP)] ∧ t.cell (s.ctxs[c]).selChan.toNat (Off.DMA_DC_DROP) = { s.cell (s.ctxs[c]).selChan.toNat (Off.DMA_DC_DROP) with val := (s.cell (s.ctxs[c]).selChan.toNat (Off.DMA_DC_DROP)).val &&& ~~~0xFFFFFFFF#32, force := (s.cell (s.ctxs[c]).selChan.toNat (Off.DMA_DC_DROP)).force &&& ~~~0xFFFFFFFF#32 })) ∧
  (∀ (c : CtxId) (s : State),
      s.MemOk →
      s.Serves c (Off.DMA_DC_ERR) false →
      (s.ctxs[c]).selChan.toNat < 64 →
      Does (.dmaDcErrRead c) s (fun t => t = { s with rdata := t.rdata, regs := t.regs } ∧ t.rdata = BitVec.ofNat 64 (s.reg (s.ctxs[c]).selChan.toNat (Off.DMA_DC_ERR)) ∧
        s.SameRegs t [rkey (s.ctxs[c]).selChan.toNat (Off.DMA_DC_ERR)] ∧ t.cell (s.ctxs[c]).selChan.toNat (Off.DMA_DC_ERR) = { s.cell (s.ctxs[c]).selChan.toNat (Off.DMA_DC_ERR) with val := (s.cell (s.ctxs[c]).selChan.toNat (Off.DMA_DC_ERR)).val &&& ~~~0x8007FFFF#32, force := (s.cell (s.ctxs[c]).selChan.toNat (Off.DMA_DC_ERR)).force &&& ~~~0x8007FFFF#32 })) ∧
  (∀ (c : CtxId) (s : State),
      s.MemOk →
      s.Serves c (Off.DMA_SC_FAULT) false →
      64 ≤ (s.ctxs[c]).selChan.toNat →
      (s.ctxs[c]).selChan.toNat < 80 →
      Does (.dmaScFaultRead c) s (fun t => t = { s with rdata := t.rdata, regs := t.regs } ∧ t.rdata = BitVec.ofNat 64 (s.reg (s.ctxs[c]).selChan.toNat (Off.DMA_SC_FAULT)) ∧
        s.SameRegs t [rkey (s.ctxs[c]).selChan.toNat (Off.DMA_SC_FAULT)] ∧ t.cell (s.ctxs[c]).selChan.toNat (Off.DMA_SC_FAULT) = { s.cell (s.ctxs[c]).selChan.toNat (Off.DMA_SC_FAULT) with val := (s.cell (s.ctxs[c]).selChan.toNat (Off.DMA_SC_FAULT)).val &&& ~~~0x80000F33#32, force := (s.cell (s.ctxs[c]).selChan.toNat (Off.DMA_SC_FAULT)).force &&& ~~~0x80000F33#32 })) ∧
  (∀ (c : CtxId) (p : PortId) (s : State),
      s.MemOk →
      s.Serves c (Off.TKS_PORT_DROP + 16 * p.val) false →
      Does (.tksPortDropRead c p) s (fun t => t = { s with rdata := t.rdata, regs := t.regs } ∧ t.rdata = BitVec.ofNat 64 (s.reg 0 (Off.TKS_PORT_DROP + 16 * p.val)) ∧
        s.SameRegs t [rkey 0 (Off.TKS_PORT_DROP + 16 * p.val)] ∧ t.cell 0 (Off.TKS_PORT_DROP + 16 * p.val) = { s.cell 0 (Off.TKS_PORT_DROP + 16 * p.val) with val := (s.cell 0 (Off.TKS_PORT_DROP + 16 * p.val)).val &&& ~~~0xFFFFFFFF#32, force := (s.cell 0 (Off.TKS_PORT_DROP + 16 * p.val)).force &&& ~~~0xFFFFFFFF#32 })) ∧
  (∀ (c : CtxId) (s : State),
      s.MemOk →
      s.Serves c (Off.MOT_CHATTER) false →
      (s.ctxs[c]).selAxis.toNat < 8 →
      Does (.motChatterRead c) s (fun t => t = { s with rdata := t.rdata, regs := t.regs } ∧ t.rdata = BitVec.ofNat 64 (s.reg (s.ctxs[c]).selAxis.toNat (Off.MOT_CHATTER)) ∧
        s.SameRegs t [rkey (s.ctxs[c]).selAxis.toNat (Off.MOT_CHATTER)] ∧ t.cell (s.ctxs[c]).selAxis.toNat (Off.MOT_CHATTER) = { s.cell (s.ctxs[c]).selAxis.toNat (Off.MOT_CHATTER) with val := (s.cell (s.ctxs[c]).selAxis.toNat (Off.MOT_CHATTER)).val &&& ~~~0x0000FFFF#32, force := (s.cell (s.ctxs[c]).selAxis.toNat (Off.MOT_CHATTER)).force &&& ~~~0x0000FFFF#32 })) ∧
  (∀ (c : CtxId) (s : State),
      s.MemOk →
      s.Serves c (Off.AUX_SCAN_STAT) false →
      Does (.auxScanStatRead c) s (fun t => t = { s with rdata := t.rdata, regs := t.regs } ∧ t.rdata = BitVec.ofNat 64 (setFld (setFld (s.reg 0 Off.AUX_SCAN_STAT) 7 4 (((List.finRange 4).map (fun i => b2n s.aux.inj[i].isSome * 2 ^ i.val)).sum)) 0 0 (b2n s.aux.running)) ∧
        s.SameRegs t [rkey 0 (Off.AUX_SCAN_STAT)] ∧ t.cell 0 (Off.AUX_SCAN_STAT) = { s.cell 0 (Off.AUX_SCAN_STAT) with val := (s.cell 0 (Off.AUX_SCAN_STAT)).val &&& ~~~0xFFFF0000#32, force := (s.cell 0 (Off.AUX_SCAN_STAT)).force &&& ~~~0xFFFF0000#32 })) ∧
  (∀ (c : CtxId) (n : Fin 8) (s : State),
      s.MemOk →
      s.Serves c (Off.AUX_EXC_STAT + 16 * n.val) false →
      Does (.auxExcStatRead c n) s (fun t => t = { s with rdata := t.rdata, regs := t.regs } ∧ t.rdata = BitVec.ofNat 64 (setFld (s.reg 0 (Off.AUX_EXC_STAT + 16 * n.val)) 1 1 (b2n (s.excErr n))) ∧
        s.SameRegs t [rkey 0 (Off.AUX_EXC_STAT + 16 * n.val)] ∧ t.cell 0 (Off.AUX_EXC_STAT + 16 * n.val) = { s.cell 0 (Off.AUX_EXC_STAT + 16 * n.val) with val := (s.cell 0 (Off.AUX_EXC_STAT + 16 * n.val)).val &&& ~~~0xFFFF0000#32, force := (s.cell 0 (Off.AUX_EXC_STAT + 16 * n.val)).force &&& ~~~0xFFFF0000#32 })) ∧
  (∀ (c : CtxId) (n : Fin 4) (s : State),
      s.MemOk →
      s.Serves c (Off.AUX_INJ_REQ + 16 * n.val) false →
      Does (.auxInjReqRead c n) s (fun t => t = { s with rdata := t.rdata, regs := t.regs } ∧ t.rdata = BitVec.ofNat 64 (setFld (((s.cell 0 (Off.AUX_INJ_REQ + 16 * n.val)).val &&& 0x7FFFFFFF#32).toNat) 16 16 (b2n s.aux.inj[n].isSome)) ∧
        s.SameRegs t [rkey 0 (Off.AUX_INJ_REQ + 16 * n.val)] ∧ t.cell 0 (Off.AUX_INJ_REQ + 16 * n.val) = { s.cell 0 (Off.AUX_INJ_REQ + 16 * n.val) with val := (s.cell 0 (Off.AUX_INJ_REQ + 16 * n.val)).val &&& ~~~0x0000FFFF#32, force := (s.cell 0 (Off.AUX_INJ_REQ + 16 * n.val)).force &&& ~~~0x0000FFFF#32 })) ∧
  (∀ (c : CtxId) (q : QueueId) (s : State),
      s.MemOk →
      s.Serves c (Off.EVQ_LOST + 64 * q.val) false →
      Does (.evqLostRead c q) s (fun t => t = { s with rdata := t.rdata, regs := t.regs } ∧ t.rdata = BitVec.ofNat 64 (s.reg 0 (Off.EVQ_LOST + 64 * q.val)) ∧
        s.SameRegs t [rkey 0 (Off.EVQ_LOST + 64 * q.val)] ∧ t.cell 0 (Off.EVQ_LOST + 64 * q.val) = { s.cell 0 (Off.EVQ_LOST + 64 * q.val) with val := (s.cell 0 (Off.EVQ_LOST + 64 * q.val)).val &&& ~~~0xFFFFFFFF#32, force := (s.cell 0 (Off.EVQ_LOST + 64 * q.val)).force &&& ~~~0xFFFFFFFF#32 })) ∧
  (∀ (c : CtxId) (s : State),
      s.MemOk →
      s.Serves c (Off.MGT_FAULT) false →
      Does (.mgtFaultRead c) s (fun t => t = { s with rdata := t.rdata, regs := t.regs } ∧ t.rdata = BitVec.ofNat 64 (s.reg 0 (Off.MGT_FAULT)) ∧
        s.SameRegs t [rkey 0 (Off.MGT_FAULT)] ∧ t.cell 0 (Off.MGT_FAULT) = { s.cell 0 (Off.MGT_FAULT) with val := (s.cell 0 (Off.MGT_FAULT)).val &&& ~~~0x83FFFFFF#32, force := (s.cell 0 (Off.MGT_FAULT)).force &&& ~~~0x83FFFFFF#32 })) ∧
  (∀ (c : CtxId) (s : State),
      s.MemOk →
      s.Serves c (Off.MGT_FAULT_CNT) false →
      Does (.mgtFaultCntRead c) s (fun t => t = { s with rdata := t.rdata, regs := t.regs } ∧ t.rdata = BitVec.ofNat 64 (s.reg 0 (Off.MGT_FAULT_CNT)) ∧
        s.SameRegs t [rkey 0 (Off.MGT_FAULT_CNT)] ∧ t.cell 0 (Off.MGT_FAULT_CNT) = { s.cell 0 (Off.MGT_FAULT_CNT) with val := (s.cell 0 (Off.MGT_FAULT_CNT)).val &&& ~~~0xFFFFFFFF#32, force := (s.cell 0 (Off.MGT_FAULT_CNT)).force &&& ~~~0xFFFFFFFF#32 })) ∧
  (∀ (c : CtxId) (s : State),
      s.Serves c Off.MGT_JRNL_STAT false →
      Does (.mgtJrnlStatRead c) s (fun t => t = { s with rdata := t.rdata, jrnl := { s.jrnl with overflow := 0 } } ∧
        t.rdata = BitVec.ofNat 64 (s.jrnl.overflow % 32768 * 2 ^ 17 + s.jrnl.mem.length))) ∧
  (∀ (c : CtxId) (i : Fin 32) (s : State),
      s.MemOk →
      s.Serves c ((if i.val < 12 then Off.MGT_TEMP + 4 * i.val else Off.MGT_VOLT + 4 * (i.val - 12))) false →
      Does (.mgtSensorRead c i) s (fun t => t = { s with rdata := t.rdata, regs := t.regs } ∧ t.rdata = BitVec.ofNat 64 (s.reg 0 ((if i.val < 12 then Off.MGT_TEMP + 4 * i.val else Off.MGT_VOLT + 4 * (i.val - 12)))) ∧
        s.SameRegs t [rkey 0 ((if i.val < 12 then Off.MGT_TEMP + 4 * i.val else Off.MGT_VOLT + 4 * (i.val - 12)))] ∧ t.cell 0 ((if i.val < 12 then Off.MGT_TEMP + 4 * i.val else Off.MGT_VOLT + 4 * (i.val - 12))) = (let x := s.cell 0 ((if i.val < 12 then Off.MGT_TEMP + 4 * i.val else Off.MGT_VOLT + 4 * (i.val - 12))); { x with val := BitVec.ofNat 32 (setFld x.val.toNat 31 16 (fld x.val.toNat 15 0)), force := BitVec.ofNat 32 (setFld x.force.toNat 31 16 (fld x.val.toNat 15 0)) })))

/-- A 32-bit write of parameter memory of a setup that does not count as current stores the word and clears the VERIFIED bit of the setup; one of scratch is stored while the unit neither runs nor drains; one of instruction memory, or of a closed place, is a BAD_ACCESS without effect. A write of ENG_STATUS, ENG_TRAP or ENG_CYC_MAX clears what its bits name; where nothing lies nothing happens. A 64-bit write is its two halves in order, and another size or alignment is a BAD_ACCESS. (Which slots count as current is log entry 100, the order of the checks of an access log entry 113. A 64-bit write of which one half alone is closed is left out. Where nothing lies, nothing happens: log entry 5.) A 32-bit write of a shading or defect bank that is not active stores the word in the physical bank of that logical number and clears MIRROR and the CRC-valid bit of the bank; one of a LUT stores two entries and clears the VERIFIED bit of its setup; one of an index table that is not in use or of the next microstep table stores it; one to a closed place is a BAD_ACCESS without effect. A 64-bit write is its two halves in order. INJECT asks for one corrupted block. -/
def Obligations.WindowWrites : Prop :=
  (∀ (c : CtxId) (off : BitVec 21) (v : DWord) (s : State) (e : EngId) (k w : Nat),
      s.Serves c (0x200000 + off.toNat) true →
      off.toNat % 4 = 0 →
      (s.ctxs[c]).winLoc (0x200000 + off.toNat) = some (.param e k w) →
      s.counts (engUnit e) k = false →
      s.MemOk →
      Does (.engWindowWrite c off 4 v) s (fun t => t = { s with engs := t.engs, units := t.units, jrnl := t.jrnl } ∧ (∀ d : EngId, d ≠ e → t.eng d = s.eng d) ∧ t.eng e = { s.eng e with param := (t.eng e).param } ∧
        (t.eng e).paramWord k w = v.setWidth 32 ∧ (∀ i : Fin 8, ∀ j : Fin 4096, i.val ≠ k ∨ j.val ≠ w → (t.eng e).paramWord i.val j.val = (s.eng e).paramWord i.val j.val) ∧
        (∀ u : UnitId, u ≠ engUnit e → t.unit u = s.unit u) ∧ ((t.unit (engUnit e)).slots[k % 8]'(Nat.mod_lt _ (by decide))).isVerified = false)) ∧
  (∀ (c : CtxId) (off : BitVec 21) (v : DWord) (s : State) (e : EngId) (w : Nat),
      s.Serves c (0x200000 + off.toNat) true →
      off.toNat % 4 = 0 →
      (s.ctxs[c]).winLoc (0x200000 + off.toNat) = some (.scratch e w) →
      (s.unit (engUnit e)).st ≠ .running →
      (s.unit (engUnit e)).st ≠ .draining →
      s.MemOk →
      Does (.engWindowWrite c off 4 v) s (fun t => t = { s with engs := t.engs, jrnl := t.jrnl } ∧ (∀ d : EngId, d ≠ e → t.eng d = s.eng d) ∧ t.eng e = { s.eng e with scratch := (t.eng e).scratch } ∧
        (t.eng e).scratchWord w = v.setWidth 32 ∧ (∀ j : Fin 256, j.val ≠ w → (t.eng e).scratchWord j.val = (s.eng e).scratchWord j.val))) ∧
  (∀ (c : CtxId) (off : BitVec 21) (v : DWord) (s : State) (l : MemLoc),
      s.MemOk →
      s.Serves c (0x200000 + off.toNat) true →
      off.toNat % 4 = 0 →
      (s.ctxs[c]).winLoc (0x200000 + off.toNat) = some l →
      s.memBlocked l = true →
      Does (.engWindowWrite c off 4 v) s (fun t => ({ s with jrnl := t.jrnl } : State).EventsOnly t [mgtSrc (5 * c.val + 3)] ∧ t.raisings (mgtSrc (5 * c.val + 3)) = s.raisings (mgtSrc (5 * c.val + 3)) + 1)) ∧
  (∀ (c : CtxId) (off : BitVec 21) (v : DWord) (s : State),
      s.Serves c (0x200000 + off.toNat) true →
      off.toNat % 4 = 0 →
      0x1F0000 ≤ off.toNat →
      Does (.engWindowWrite c off 4 v) s (fun t =>
        let e := selEngine (s.ctxs[c]).selEngine.toNat
        t = { s with engs := t.engs } ∧ (∀ d : EngId, d ≠ e → t.eng d = s.eng d) ∧
        t.eng e = (if off.toNat = 0x1F0000 ∧ v.getLsbD 16 then { s.eng e with excess := false } else if off.toNat = 0x1F0008 ∧ v.getLsbD 31 then { s.eng e with trapped := none } else if off.toNat = 0x1F0014 then { s.eng e with cycMax := ((BitVec.ofNat 32 (s.eng e).cycMax) &&& ~~~(v.setWidth 32 : Word)).toNat } else s.eng e))) ∧
  (∀ (c : CtxId) (off : BitVec 21) (v : DWord) (s : State),
      s.Serves c (0x200000 + off.toNat) true →
      off.toNat % 4 = 0 →
      (s.ctxs[c]).winLoc (0x200000 + off.toNat) = none →
      off.toNat < 0x1F0000 →
      Does (.engWindowWrite c off 4 v) s (fun t => t = s)) ∧
  (∀ (c : CtxId) (off : BitVec 21) (v : DWord) (s : State),
      s.Serves c (0x200000 + off.toNat) true →
      off.toNat % 8 = 0 →
      s.winShut c (0x200000 + off.toNat) = false →
      s.winShut c (0x200000 + off.toNat + 4) = false →
      Does (.engWindowWrite c off 8 v) s (fun t => Does (.engWindowWrite c off 4 (v &&& 0xFFFFFFFF)) s (fun u => Does (.engWindowWrite c (off + 4) 4 (v >>> 32)) u (fun w => w = t)))) ∧
  (∀ (c : CtxId) (off : BitVec 21) (size : Nat) (v : DWord) (s : State),
      s.MemOk →
      s.refSel ≠ 3 →
      sizeOk (0x200000 + off.toNat) size = false →
      Does (.engWindowWrite c off size v) s (fun t => ({ s with jrnl := t.jrnl } : State).EventsOnly t [mgtSrc (5 * c.val + 3)] ∧ t.raisings (mgtSrc (5 * c.val + 3)) = s.raisings (mgtSrc (5 * c.val + 3)) + 1)) ∧
  (∀ (c : CtxId) (off : BitVec 22) (v : DWord) (s : State) (p : PortId) (b w : Nat),
      s.Serves c (0x400000 + off.toNat) true →
      off.toNat % 4 = 0 →
      s.MemOk →
      (s.ctxs[c]).winLoc (0x400000 + off.toNat) = some (.shade p b w) →
      s.bankActive p 0 b = false →
      s.computing p 0 b = false →
      Does (.tblWindowWrite c off 4 v) s (fun t => t = { s with tbl := t.tbl, jrnl := t.jrnl, ports := t.ports, regs := t.regs } ∧ s.SameTbl t [shadeKey p.val (s.phys p 0 b) w] ∧
        t.tblWord (shadeKey p.val (s.phys p 0 b) w) = v.toNat % 2 ^ 32 ∧ t.mirror p 0 = false ∧ t.crcValid p 0 b = false ∧ s.SameRegs t [rkey p.val Off.PIP_BANK_STAT] ∧ (∀ q : PortId, q ≠ p → t.port q = s.port q) ∧
        (t.port p).pipe = (let y := (s.port p).pipe; let rw (e : Nat × Nat × Nat) := if y.remaps = [] ∨ e ∈ y.rewritten then y.rewritten else y.rewritten ++ [e]; let m := fun (x : Bool × Bool) => if b = 0 then (true, x.2) else (x.1, true); { y with verS := y.verS.map m, rewritten := rw (0, s.phys p 0 b, w) }))) ∧
  (∀ (c : CtxId) (off : BitVec 22) (v : DWord) (s : State) (p : PortId) (b w : Nat),
      s.Serves c (0x400000 + off.toNat) true →
      off.toNat % 4 = 0 →
      s.MemOk →
      (s.ctxs[c]).winLoc (0x400000 + off.toNat) = some (.defect p b w) →
      s.bankActive p 1 b = false →
      s.computing p 1 b = false →
      Does (.tblWindowWrite c off 4 v) s (fun t => t = { s with tbl := t.tbl, jrnl := t.jrnl, ports := t.ports, regs := t.regs } ∧ s.SameTbl t [defKey p.val (s.phys p 1 b) w] ∧
        t.tblWord (defKey p.val (s.phys p 1 b) w) = v.toNat % 2 ^ 32 ∧ t.mirror p 1 = false ∧ t.crcValid p 1 b = false ∧ s.SameRegs t [rkey p.val Off.PIP_BANK_STAT] ∧ (∀ q : PortId, q ≠ p → t.port q = s.port q) ∧
        (t.port p).pipe = (let y := (s.port p).pipe; let rw (e : Nat × Nat × Nat) := if y.remaps = [] ∨ e ∈ y.rewritten then y.rewritten else y.rewritten ++ [e]; let m := fun (x : Bool × Bool) => if b = 0 then (true, x.2) else (x.1, true); { y with verD := y.verD.map m, rewritten := rw (1, s.phys p 1 b, w / 2) }))) ∧
  (∀ (c : CtxId) (off : BitVec 22) (v : DWord) (s : State) (p : PortId) (i w : Nat),
      s.Serves c (0x400000 + off.toNat) true →
      off.toNat % 4 = 0 →
      s.MemOk →
      (s.ctxs[c]).winLoc (0x400000 + off.toNat) = some (.lut p i w) →
      s.counts (unitOfPort p) (i / 4) = false →
      Does (.tblWindowWrite c off 4 v) s (fun t => t = { s with tbl := t.tbl, jrnl := t.jrnl, units := t.units } ∧ s.SameTbl t [lutKey p.val i (2 * w), lutKey p.val i (2 * w + 1)] ∧
        t.tblWord (lutKey p.val i (2 * w)) = v.toNat % 65536 ∧ t.tblWord (lutKey p.val i (2 * w + 1)) = v.toNat / 65536 % 65536 ∧
        (∀ u : UnitId, u ≠ unitOfPort p → t.unit u = s.unit u) ∧ ((t.unit (unitOfPort p)).slots[i / 4 % 8]'(Nat.mod_lt _ (by decide))).isVerified = false)) ∧
  (∀ (c : CtxId) (off : BitVec 22) (v : DWord) (s : State) (i w : Nat),
      s.Serves c (0x400000 + off.toNat) true →
      off.toNat % 4 = 0 →
      s.MemOk →
      (s.ctxs[c]).winLoc (0x400000 + off.toNat) = some (.index i w) →
      s.tableUsed i = false →
      Does (.tblWindowWrite c off 4 v) s (fun t => t = { s with tbl := t.tbl, jrnl := t.jrnl } ∧ s.SameTbl t [idxKey i w] ∧ t.tblWord (idxKey i w) = v.toNat % 2 ^ 32)) ∧
  (∀ (c : CtxId) (off : BitVec 22) (v : DWord) (s : State) (a : AxisId) (w : Nat),
      s.Serves c (0x400000 + off.toNat) true →
      off.toNat % 4 = 0 →
      s.MemOk →
      (s.ctxs[c]).winLoc (0x400000 + off.toNat) = some (.mstepNext a w) →
      (s.axis a).tblPend = false →
      Does (.tblWindowWrite c off 4 v) s (fun t => t = { s with mstepNext := t.mstepNext, jrnl := t.jrnl } ∧
        (∀ b : AxisId, ∀ j : Fin 256, mstepAt sineT t.mstepNext b.val j.val = (if b = a ∧ j.val = 2 * w then v.toNat % 4096 else if b = a ∧ j.val = 2 * w + 1 then v.toNat / 65536 % 4096 else mstepAt sineT s.mstepNext b.val j.val)))) ∧
  (∀ (c : CtxId) (off : BitVec 22) (v : DWord) (s : State) (l : MemLoc),
      s.MemOk →
      s.Serves c (0x400000 + off.toNat) true →
      off.toNat % 4 = 0 →
      (s.ctxs[c]).winLoc (0x400000 + off.toNat) = some l →
      s.memBlocked l = true →
      Does (.tblWindowWrite c off 4 v) s (fun t => ({ s with jrnl := t.jrnl } : State).EventsOnly t [mgtSrc (5 * c.val + 3)] ∧ t.raisings (mgtSrc (5 * c.val + 3)) = s.raisings (mgtSrc (5 * c.val + 3)) + 1)) ∧
  (∀ (c : CtxId) (off : BitVec 22) (v : DWord) (s : State),
      s.Serves c (0x400000 + off.toNat) true →
      off.toNat % 4 = 0 →
      (s.ctxs[c]).winLoc (0x400000 + off.toNat) = none →
      Does (.tblWindowWrite c off 4 v) s (fun t => t = s)) ∧
  (∀ (c : CtxId) (off : BitVec 22) (v : DWord) (s : State),
      s.Serves c (0x400000 + off.toNat) true →
      off.toNat % 8 = 0 →
      s.winShut c (0x400000 + off.toNat) = false →
      s.winShut c (0x400000 + off.toNat + 4) = false →
      Does (.tblWindowWrite c off 8 v) s (fun t => Does (.tblWindowWrite c off 4 (v &&& 0xFFFFFFFF)) s (fun u => Does (.tblWindowWrite c (off + 4) 4 (v >>> 32)) u (fun w => w = t)))) ∧
  (∀ (c : CtxId) (off : BitVec 22) (size : Nat) (v : DWord) (s : State),
      s.MemOk →
      s.refSel ≠ 3 →
      sizeOk (0x400000 + off.toNat) size = false →
      Does (.tblWindowWrite c off size v) s (fun t => ({ s with jrnl := t.jrnl } : State).EventsOnly t [mgtSrc (5 * c.val + 3)] ∧ t.raisings (mgtSrc (5 * c.val + 3)) = s.raisings (mgtSrc (5 * c.val + 3)) + 1)) ∧
  (∀ (c : CtxId) (v : Word) (s : State) (p : PortId),
      s.Serves c Off.CMP_CTL true →
      (s.ctxs[c]).selPort.toNat = p.val →
      Does (.cmpCtlInject c v) s (fun t => t = { s with ports := t.ports, jrnl := t.jrnl } ∧ (∀ q : PortId, q ≠ p → t.port q = s.port q) ∧ t.port p = { s.port p with pipe := { (s.port p).pipe with inject := ((s.port p).pipe.inject || v.getLsbD 31) } }))

/-- A context without a version that offers one which the part speaks takes the highest; IDENTIFY writes the 256 bytes of Table 2.9 to the host buffer before the completion; SET_RIGHTS of context 0 gives another context exactly the rights named; GET_RIGHTS returns them. An entry with an opcode that Table 2.7 does not list completes BAD_ARG with detail 0 once a version is agreed. -/
def Obligations.ContextCommands : Prop :=
  (∀ (c : CtxId) (y : Submission) (s : State),
      s.served c = true →
      y.other.isSome = true →
      (s.ctxs[c]).zhp ≠ 0 →
      Does (.hello c y) s (fun t => s.Answered t c y (refuse stBadArg 0) ∧ t = (s.send (s.subRead c)).complete c 0x00 y (refuse stBadArg 0))) ∧
  (∀ (c : CtxId) (y : Submission) (s : State),
      (s.Accepts c { op := 0x00, since := 0x20, kinds := [0], slotted := false, args := [0, 1, 2] } y) →
      (s.ctxs[c]).zhp = 0 →
      (y.arg 0 ≠ 0 ∧ y.arg 0 ≤ 8) →
      helloPick y ≠ 0 →
      Does (.hello c y) s (fun t => s.Answered t c y (okRes (helloPick y) 0) ∧ (t.ctxs[c]).zhp = helloPick y ∧
        (∀ v ∈ helloCodes y, v ∈ [0x20, 0x21, 0x22, 0x30, 0x31, 0x32] → v ≤ (t.ctxs[c]).zhp) ∧
        (∀ d : CtxId, d ≠ c → t.ctxs[d] = s.ctxs[d]) ∧
        { s with ctxs := t.ctxs, bus := t.bus, jrnl := t.jrnl }.EventsOnly t [mgtSrc (5 * c.val), mgtSrc (5 * c.val + 1)])) ∧
  (∀ (c : CtxId) (y : Submission) (s : State),
      (s.Accepts c { op := 0x01, since := 0x20, kinds := [0], slotted := false, args := [] } y) →
      256 ≤ y.len.toNat →
      Does (.identify c y) s (fun t => s.Answered t c y (okRes 0 0) ∧
        t.bus = s.completion c y (okRes 0 0) :: .flushRead :: .memWrite y.addr.toNat (identifyBytes s) false :: s.subRead c :: s.bus ∧
        (∀ d : CtxId, d ≠ c → t.ctxs[d] = s.ctxs[d]) ∧
        { s with ctxs := t.ctxs, bus := t.bus, jrnl := t.jrnl }.EventsOnly t [mgtSrc (5 * c.val), mgtSrc (5 * c.val + 1)])) ∧
  (∀ (y : Submission) (s : State) (u : CtxId),
      (s.Accepts 0 { op := 0x02, since := 0x20, kinds := [7], slotted := false, args := [0, 1, 2, 3] } y) →
      0x30 ≤ (s.ctxs[(0 : CtxId)]).zhp →
      y.unit = u.val →
      u ≠ 0 →
      y.arg 0 < 2 ^ 14 →
      y.arg 1 < 2 ^ 14 →
      y.arg 3 < 2 ^ 16 →
      Does (.setRights 0 y) s (fun t => s.Answered t 0 y (okRes 0 0) ∧
        t.ctxs[u] = { s.ctxs[u] with rightsBlk := BitVec.ofNat 32 (rightsBlkOf (y.arg 0) (y.arg 1)),
                                     rightsPort := BitVec.ofNat 32 (y.arg 2), rightsAxis := BitVec.ofNat 32 (y.arg 3) } ∧
        (∀ b : Fin 14, t.ctxs[u].blk b.val false = bitN (y.arg 0) b.val ∧ t.ctxs[u].blk b.val true = bitN (y.arg 1) b.val) ∧
        (∀ d : CtxId, d ≠ 0 → d ≠ u → t.ctxs[d] = s.ctxs[d]) ∧
        { s with ctxs := t.ctxs, bus := t.bus, jrnl := t.jrnl }.EventsOnly t [mgtSrc 0, mgtSrc 1])) ∧
  (∀ (c : CtxId) (y : Submission) (s : State) (u : CtxId),
      (s.Accepts c { op := 0x03, since := 0x20, kinds := [7], slotted := false, args := [] } y) →
      y.unit = u.val →
      (y.unit = c.val ∨ (s.ctxs[c]).blk 0 false = true) →
      Does (.getRights c y) s (fun t =>
        s.Answered t c y { status := 0, r0 := rightsMask (s.ctxs[u]).rightsBlk.toNat 0 + 2 ^ 16 * rightsMask (s.ctxs[u]).rightsBlk.toNat 1,
                           r1 := (s.ctxs[u]).rightsPort.toNat, detail := (s.ctxs[u]).rightsAxis.toNat % 2 ^ 16 } ∧
        (∀ d : CtxId, d ≠ c → t.ctxs[d] = s.ctxs[d]) ∧
        { s with ctxs := t.ctxs, bus := t.bus, jrnl := t.jrnl }.EventsOnly t [mgtSrc (5 * c.val), mgtSrc (5 * c.val + 1)]))

/-- SETUP_LOAD of an object that passes every check of Table 3.16 and has room puts its programs, settings, tool and build into the slot named, not verified: the slot's region of each engine holds the relocated words of the program and its parameter memory the image, 0 beyond it; the region that the slot had before reads 0; an OFF unit becomes LOADED; SETUP_VERIFY records whether the worst cases of the programs fit; SETUP_CLEAR empties a loaded slot, its regions and its parameter memory, and turns a LOADED or HALTED unit OFF when it was the last. (Which slot counts as current is log entry 100.) -/
def Obligations.SetupSlotCommands : Prop :=
  (∀ (c : CtxId) (y : Submission) (data : List Byte) (s : State) (u : UnitId) (place : Nat → Option Nat),
      (s.Accepts c { op := 0x08, since := 0x20, kinds := [1, 2], slotted := true, args := [] } y) →
      u = subUnit y →
      ((∀ n, place n = ((unitEngs u).find? (fun x => engKind x == n)).bind (fun x => s.placement u x y.slot (zsoSects data) data))) →
      unitRight s.ctxs[c] y = true →
      s.counts u y.slot = false →
      s.MemOk →
      ((s.unit u).st = .off → (s.unit u).cut = none) →
      (kindEngs y.kind).all (fun e => (place e).isSome) = true →
      firstFail (zsoChecks data y.kind y.len.toNat (fun e => (place e).getD (prefBase (zsoSects data) e)) (cutOffsets (decide (y.kind = 1))).contains) = 0 →
      Does (.setupLoad c y data) s (fun t => s.Answered t c y (okRes (leAt data 8 4) 0) ∧
        let xs := zsoSects data
        let base (n : Nat) : Nat := (place n).getD 0
        let code (n : Nat) : List Nat := (relocs xs data n).foldl (relocOne (base n)) (codeWords xs data n)
        let image (n : Nat) : List Nat := match sectOf xs 3 n with | some x => (chunks 4 (x.bytes data)).map leNat | none => []
        let c0 := if u.val < 16 then 0 else 2
        t.slotOf u y.slot = { isLoaded := true, isVerified := false, tool := BitVec.ofNat 32 (leAt data 0x10 4), build := BitVec.ofNat 32 (leAt data 0x18 4),
                              prog0 := zsoProg xs data c0 (base c0), prog1 := if u.val < 16 then zsoProg xs data 1 (base 1) else Prog.empty,
                              settings := match sectOf xs 4 0 with
                                | some x => (chunks 8 (x.bytes data)).map (fun r => (leAt r 0 4, BitVec.ofNat 32 (leAt r 4 4)))
                                | none => [] } ∧
        (∀ e ∈ unitEngs u, t.eng e = { s.eng e with imem := (t.eng e).imem, param := (t.eng e).param } ∧
          (∀ i, i < (code (engKind e)).length → mget (fun _ => (0 : DWord)) (t.eng e).imem (base (engKind e) + i) = BitVec.ofNat 64 ((code (engKind e)).getD i 0)) ∧
          (∀ i, i < imemSize (engKind e) → i < base (engKind e) ∨ base (engKind e) + (code (engKind e)).length ≤ i →
            mget (fun _ => (0 : DWord)) (t.eng e).imem i = if (s.slotOf u y.slot).isLoaded = true ∧ (s.slotProg e y.slot).base ≤ i ∧ i < (s.slotProg e y.slot).base + (s.slotProg e y.slot).len then 0
              else mget (fun _ => 0) (s.eng e).imem i) ∧
          (∀ i, i < 4096 → mget (fun _ => (0 : Word)) (t.eng e).param (4096 * y.slot + i) = BitVec.ofNat 32 ((image (engKind e)).getD i 0)) ∧
          (∀ i, i < 32768 → i / 4096 ≠ y.slot → mget (fun _ => (0 : Word)) (t.eng e).param i = mget (fun _ => 0) (s.eng e).param i)) ∧
        (∀ k : Fin 8, k.val ≠ y.slot → t.slotOf u k.val = s.slotOf u k.val) ∧
        (t.unit u).st = (if (s.unit u).st = .off then .loaded else (s.unit u).st) ∧
        (∀ v : UnitId, v ≠ u → t.unit v = s.unit v) ∧ (∀ e : EngId, e ∉ unitEngs u → t.eng e = s.eng e) ∧
        s.SameRegs t (injKeys ++ (s.unit u).due.map (fun e => rkey (unitIndex u) e.1)) ∧
        { s with ctxs := t.ctxs, bus := t.bus, jrnl := t.jrnl, units := t.units, engs := t.engs, groups := t.groups, regs := t.regs }.EventsOnly t
          [mgtSrc (5 * c.val), mgtSrc (5 * c.val + 1), unitStateSrc u, if u.val < 16 then portSrc u.val 32 else axisSrc (u.val - 16) 18] ∧ (∀ g : GroupId, (t.groups[g]).Same s.groups[g]))) ∧
  (∀ (c : CtxId) (y : Submission) (s : State) (u : UnitId),
      (s.Accepts c { op := 0x09, since := 0x20, kinds := [1, 2], slotted := true, args := [] } y) →
      u = subUnit y →
      unitRight s.ctxs[c] y = true →
      (s.slotOf u y.slot).isLoaded = true →
      Does (.setupVerify c y) s (fun t => s.Answered t c y (okRes (s.verifySlot u y.slot).1 (s.verifySlot u y.slot).2) ∧
        t.slotOf u y.slot = { s.slotOf u y.slot with isVerified := (s.verifySlot u y.slot).1 == 0 } ∧
        (∀ k : Fin 8, k.val ≠ y.slot → t.slotOf u k.val = s.slotOf u k.val) ∧ (t.unit u).st = (s.unit u).st ∧
        (∀ v : UnitId, v ≠ u → t.unit v = s.unit v) ∧
        { s with ctxs := t.ctxs, bus := t.bus, jrnl := t.jrnl, units := t.units, free := t.free }.EventsOnly t [mgtSrc (5 * c.val), mgtSrc (5 * c.val + 1)])) ∧
  (∀ (c : CtxId) (y : Submission) (s : State) (u : UnitId),
      (s.Accepts c { op := 0x0A, since := 0x20, kinds := [1, 2], slotted := true, args := [] } y) →
      u = subUnit y →
      unitRight s.ctxs[c] y = true →
      s.counts u y.slot = false →
      (s.slotOf u y.slot).isLoaded = true →
      s.MemOk →
      ((s.unit u).st = .loaded ∨ (s.unit u).st = .halted → (s.unit u).cut = none) →
      Does (.setupClear c y) s (fun t => s.Answered t c y (okRes 0 0) ∧ t.slotOf u y.slot = Slot.empty ∧
        (∀ k : Fin 8, k.val ≠ y.slot → t.slotOf u k.val = s.slotOf u k.val) ∧
        (t.unit u).st = (if (∀ k : Fin 8, k.val ≠ y.slot → (s.slotOf u k.val).isLoaded = false) ∧
          ((s.unit u).st = .loaded ∨ (s.unit u).st = .halted) then .off else (s.unit u).st) ∧
        (∀ v : UnitId, v ≠ u → t.unit v = s.unit v) ∧ (∀ e : EngId, e ∉ unitEngs u → t.eng e = s.eng e) ∧
        (∀ e ∈ unitEngs u, t.eng e = { s.eng e with imem := (t.eng e).imem, param := (t.eng e).param } ∧
          (∀ i, i < imemSize (engKind e) → mget (fun _ => (0 : DWord)) (t.eng e).imem i =
            if (s.slotProg e y.slot).base ≤ i ∧ i < (s.slotProg e y.slot).base + (s.slotProg e y.slot).len then 0 else mget (fun _ => 0) (s.eng e).imem i) ∧
          (∀ i, i < 32768 → mget (fun _ => (0 : Word)) (t.eng e).param i = if i / 4096 = y.slot then 0 else mget (fun _ => 0) (s.eng e).param i)) ∧
        s.SameRegs t (injKeys ++ (s.unit u).due.map (fun e => rkey (unitIndex u) e.1)) ∧
        { s with ctxs := t.ctxs, bus := t.bus, jrnl := t.jrnl, units := t.units, engs := t.engs, groups := t.groups, regs := t.regs }.EventsOnly t
          [mgtSrc (5 * c.val), mgtSrc (5 * c.val + 1), unitStateSrc u] ∧ (∀ g : GroupId, (t.groups[g]).Same s.groups[g])))

/-- A COMMIT that passes its checks moves the staged STG values of a port to the values that wait for its next line tick and changes no value in force; of an axis it changes nothing. A UNIT_START that passes its checks makes the unit RUNNING with the slot as current and committed setup, starts the engines at the entries of its programs, and lets the CUT values of the setup, with those staged on top, wait for the first tick, but for the registers of the LTG, which act at the start (log entry 198); of a port here with LTG source 5, where the first line waits for a TICK; a port of another source also takes the line tick at position 0. (An axis here is in no cut group.) -/
def Obligations.CommitAndStart : Prop :=
  (∀ (c : CtxId) (y : Submission) (s : State) (u : UnitId),
      s.MemOk →
      (s.Accepts c { op := 0x0B, since := 0x20, kinds := [1, 2], slotted := false, args := [] } y) →
      u = subUnit y →
      unitRight s.ctxs[c] y = true →
      ((s.unit u).st ≠ .faulted ∧ (s.unit u).st ≠ .wedged) →
      (u.val < 16 → ratioOk (s.commitRatio (unitPort u)).1 (s.commitRatio (unitPort u)).2 = true) →
      (u.val < 16 → (s.unit u).st = .running → ratioDir (s.commitRatio (unitPort u)).1 (s.commitRatio (unitPort u)).2 = ratioDir (s.port (unitPort u)).ltg.num (s.port (unitPort u)).ltg.den) →
      (u.val < 16 → bitN (s.eff (unitPort u).val Off.PRT_HEAD_REQ) 31 = false) →
      (s.unit u).group = none →
      ((s.unit u).st.live = true → s.cyclesOk u ((s.unit u).current.getD 0) (if u.val < 16 then s.pmin (unitPort u) else 0) = true) →
      s.bandwidthOk s.plan = true →
      Does (.commit c y) s (fun t => s.Answered t c y (okRes 0 0) ∧ (∀ d : CtxId, d ≠ c → t.ctxs[d] = s.ctxs[d]) ∧
        (u.val < 16 → ∀ off ∈ stgOffsets, t.cell u.val off = { s.cell u.val off with
          cmt := (s.cell u.val off).cmt ||| (s.cell u.val off).stg, stg := 0,
          cmtVal := ((s.cell u.val off).cmtVal &&& ~~~(s.cell u.val off).stg) ||| ((s.cell u.val off).val &&& (s.cell u.val off).stg) }) ∧
        s.SameRegs t (injKeys ++ (if u.val < 16 then stgOffsets.map (rkey u.val) else [])) ∧
        { s with ctxs := t.ctxs, bus := t.bus, jrnl := t.jrnl, regs := t.regs }.EventsOnly t [mgtSrc (5 * c.val), mgtSrc (5 * c.val + 1)])) ∧
  (∀ (c : CtxId) (y : Submission) (s : State) (u : UnitId) (k : Nat),
      s.MemOk →
      (s.Accepts c { op := 0x0C, since := 0x20, kinds := [1, 2], slotted := false, args := [0] } y) →
      u = subUnit y →
      16 ≤ u.val →
      unitRight s.ctxs[c] y = true →
      ((s.unit u).st = .loaded ∨ (s.unit u).st = .armed ∨ (s.unit u).st = .halted) →
      s.startSlot u (y.arg 0) = some k →
      (s.slotOf u k).isVerified = true →
      (s.unit u).group = none →
      (s.unit u).cut = none →
      s.cyclesOk u k 0 = true →
      (s.bandwidthOk (s.plansWith [(u, k)]) = true) →
      Does (.unitStart c y) s (fun t => s.Answered t c y (okRes 0 0) ∧ (∀ d : CtxId, d ≠ c → t.ctxs[d] = s.ctxs[d]) ∧ (∀ v : UnitId, v ≠ u → t.unit v = s.unit v) ∧
        (t.unit u).st = .running ∧ (t.unit u).ran = true ∧ (t.unit u).current = some k ∧ (t.unit u).committed = some k ∧
        (t.unit u).slots = (s.unit u).slots ∧
        (t.eng (axisEng (axisOfUnit u))).pc = (s.slotOf u k).prog0.entry ∧ (t.eng (axisEng (axisOfUnit u))).setup = k ∧
        (t.eng (axisEng (axisOfUnit u))).run = .waiting ∧ (t.eng (axisEng (axisOfUnit u))).scratch = [] ∧
        (t.eng (axisEng (axisOfUnit u))).g = Vector.replicate 16 0 ∧
        (∀ e : EngId, e ≠ axisEng (axisOfUnit u) → t.eng e = s.eng e) ∧
        (t.unit u).due = (cutOffsets false).map (fun off => (off, BitVec.ofNat 32 ((s.putBack u).fut u k off), ((s.putBack u).cell (u.val - 16) off).cut)) ∧
        (∀ off ∈ cutOffsets false, t.cell (u.val - 16) off = { (s.putBack u).cell (u.val - 16) off with cut := 0 }) ∧
        (∀ b : AxisId, b ≠ axisOfUnit u → t.axis b = s.axis b) ∧ (t.axis (axisOfUnit u)).pos = (s.axis (axisOfUnit u)).pos ∧
        (t.axis (axisOfUnit u)).held = none ∧ t.ports = s.ports ∧ t.groups = s.groups ∧ t.now = s.now ∧ t.pending = s.pending)) ∧
  (∀ (c : CtxId) (y : Submission) (s : State) (u : UnitId) (k : Nat),
      s.MemOk →
      (s.Accepts c { op := 0x0C, since := 0x20, kinds := [1, 2], slotted := false, args := [0] } y) →
      u = subUnit y →
      u.val < 16 →
      unitRight s.ctxs[c] y = true →
      ((s.unit u).st = .loaded ∨ (s.unit u).st = .armed ∨ (s.unit u).st = .halted) →
      s.pllLock (unitPort u) = true →
      s.startSlot u (y.arg 0) = some k →
      s.slotRefused u k = false →
      (s.unit u).group = none →
      (s.unit u).cut = none →
      s.cyclesOk u k (s.fut u k Off.PRT_LTG_PMIN) = true →
      (s.bandwidthOk (s.plansWith [(u, k)]) = true) →
      Does (.unitStart c y) s (fun t => t = ((s.send (s.subRead c)).startPort (unitPort u) k).complete c 0x0C y (okRes 0 0)) ∧
        (fld ((s.putBack u).fut u k Off.PRT_LTG_CFG) 2 0 = 5 →
          let t := (s.send (s.subRead c)).startPort (unitPort u) k
          (t.unit u).st = .running ∧ (t.unit u).current = some k ∧ (t.unit u).committed = some k ∧ (∀ v : UnitId, v ≠ u → t.unit v = s.unit v) ∧
          (t.eng (gateEng (unitPort u))).pc = (s.slotOf u k).prog0.entry ∧ (t.eng (pipeEng (unitPort u))).pc = (s.slotOf u k).prog1.entry ∧
          (t.eng (gateEng (unitPort u))).run = .waiting ∧ (t.eng (pipeEng (unitPort u))).run = .waiting ∧
          (∀ e : EngId, e ≠ gateEng (unitPort u) → e ≠ pipeEng (unitPort u) → t.eng e = s.eng e) ∧
          (t.unit u).due = ((cutOffsets true).map (fun off => (off, BitVec.ofNat 32 ((s.putBack u).fut u k off), ((s.putBack u).cell u.val off).cut))).filter (fun e => !ltgEarly.contains e.1) ∧
          (∀ off ∈ cutOffsets true, (t.cell u.val off).cut = 0 ∧ (t.cell u.val off).force = (if off ∈ ltgEarly then
            ((s.cell u.val off).force &&& ~~~((regDef off).elim 0 (fun r => r.cut))) ||| (BitVec.ofNat 32 ((s.putBack u).fut u k off) &&& ((regDef off).elim 0 (fun r => r.cut)))
            else (s.cell u.val off).force)) ∧
          (t.port (unitPort u)).cap = none ∧ (t.port (unitPort u)).prc = none ∧ (t.port (unitPort u)).emi = none ∧
          (t.port (unitPort u)).ltg.kA = 0 ∧ (t.port (unitPort u)).ltg.h = -1 ∧ (t.port (unitPort u)).ltg.sA = 1 ∧
          ((t.port (unitPort u)).ltg.num, (t.port (unitPort u)).ltg.den) = (s.putBack u).futRatio (unitPort u) k ∧
          (∀ q : PortId, q ≠ unitPort u → t.port q = s.port q) ∧ t.now = s.now ∧ t.ctxs = s.ctxs ∧ t.bus = s.subRead c :: s.bus))

/-- UNIT_STOP with arg0 = 1 makes a live port halt at its next tick and clears its armed gear change, and stops a live axis with SDEC, held from then on, its pacing units going to IDLE; with arg0 = 0 a running port or axis drains; a unit that is not live (with arg0 = 0: not RUNNING) goes on as it was (log entry 151). CUT_GROUP makes the group hold exactly the units named, each of which leaves its former group, and stages its web mode. CUT_DISARM takes the cut of a group whose trigger has not been reached from every member. (That CUT_GROUP takes the units out of other groups, and that CUT_DISARM with nothing armed is refused, is log entry 152.) A CUT_ARM that passes its checks (of a group in follow mode or in drive mode) arms the cut of the group: every member waits for the trigger with the slot that the command names for it, a member that does not run becomes ARMED, a running member goes on; the other units keep their state. The trigger is a line of a running member port (kind 0) or a position of master 0 or 1 ahead of it (kinds 1 and 2). (That positions and line numbers have 48 bits is log entry 109, that slot 0xF names the committed setup log entry 152.) -/
def Obligations.StopsCutGroupsAndCutArms : Prop :=
  (∀ (c : CtxId) (y : Submission) (s : State) (u : UnitId),
      (s.Accepts c { op := 0x0D, since := 0x20, kinds := [1, 2], slotted := false, args := [0] } y) →
      u = subUnit y →
      unitRight s.ctxs[c] y = true →
      ((s.unit u).st ≠ .off ∧ (s.unit u).st ≠ .halted) →
      y.arg 0 = 1 →
      u.val < 16 →
      Does (.unitStop c y) s (fun t => s.Answered t c y (okRes 0 0) ∧ (∀ d : CtxId, d ≠ c → t.ctxs[d] = s.ctxs[d]) ∧ (∀ v : UnitId, v ≠ u → t.unit v = s.unit v) ∧
        (t.unit u) = (if (s.unit u).st = .running ∨ (s.unit u).st = .draining then { s.unit u with haltNext := true } else s.unit u) ∧
        (t.port (unitPort u)).ltg = { (s.port (unitPort u)).ltg with armed := false } ∧
        (∀ q : PortId, q ≠ unitPort u → t.port q = s.port q) ∧
        { s with ctxs := t.ctxs, bus := t.bus, jrnl := t.jrnl, units := t.units, ports := t.ports, regs := t.regs }.EventsOnly t [mgtSrc (5 * c.val), mgtSrc (5 * c.val + 1)] ∧
        s.SameRegs t (injKeys ++ [rkey u.val Off.PRT_GEAR_ARMCTL]))) ∧
  (∀ (c : CtxId) (y : Submission) (s : State) (u : UnitId),
      s.MemOk →
      (s.Accepts c { op := 0x0D, since := 0x20, kinds := [1, 2], slotted := false, args := [0] } y) →
      u = subUnit y →
      unitRight s.ctxs[c] y = true →
      ((s.unit u).st = .running ∨ (s.unit u).st = .draining) →
      y.arg 0 = 1 →
      16 ≤ u.val →
      Does (.unitStop c y) s (fun t => s.Answered t c y (okRes 0 0) ∧ (∀ d : CtxId, d ≠ c → t.ctxs[d] = s.ctxs[d]) ∧ t.units = s.units ∧ t.ports = s.ports ∧ t.engs = s.engs ∧ t.groups = s.groups ∧ t.now = s.now ∧
        (let x := s.axis (axisOfUnit u)
         t.axis (axisOfUnit u) = { (if x.geared then { x with geared := false, gBase := x.gBase + x.gC, gC := 0, gVel := 0, v := x.gVel.natAbs * 2 ^ 32, s := if 0 ≤ x.gVel then 1 else -1 } else x) with
           home := none, move := .stop true, decel := true, held := some true }) ∧
        ((s.axis (axisOfUnit u)).home.isSome = true → t.rf (axisOfUnit u).val Off.MOT_STAT 26 24 = 4) ∧
        (∀ a : AxisId, a ≠ axisOfUnit u → t.axis a = s.axis a) ∧
        (∀ g : GroupId, s.rf 0 (Off.MOT_GRP_PACE + 0x40 * g.val) 2 0 = (axisOfUnit u).val → (t.mot.paces[g]).st = 0 ∧ t.rf 0 (Off.MOT_GRP_STAT + 0x40 * g.val) 2 0 = (if (s.mot.paces[g]).st = 0 then s.rf 0 (Off.MOT_GRP_STAT + 0x40 * g.val) 2 0 else 0)) ∧
        (∀ g : GroupId, s.rf 0 (Off.MOT_GRP_PACE + 0x40 * g.val) 2 0 ≠ (axisOfUnit u).val → t.mot.paces[g] = s.mot.paces[g]) ∧
        s.SameRegs t (injKeys ++ rkey (axisOfUnit u).val Off.MOT_STAT :: (List.finRange 4).map (fun g => rkey 0 (Off.MOT_GRP_STAT + 0x40 * g.val))) ∧
        { s with ctxs := t.ctxs, bus := t.bus, jrnl := t.jrnl, axes := t.axes, mot := t.mot, regs := t.regs }.EventsOnly t [mgtSrc (5 * c.val), mgtSrc (5 * c.val + 1)])) ∧
  (∀ (c : CtxId) (y : Submission) (s : State) (u : UnitId),
      (s.Accepts c { op := 0x0D, since := 0x20, kinds := [1, 2], slotted := false, args := [0] } y) →
      u = subUnit y →
      unitRight s.ctxs[c] y = true →
      ((s.unit u).st ≠ .off ∧ (s.unit u).st ≠ .halted ∧ (s.unit u).st ≠ .running) →
      (y.arg 0 = 0 ∨ (y.arg 0 = 1 ∧ (s.unit u).st ≠ .draining)) →
      16 ≤ u.val →
      Does (.unitStop c y) s (fun t => s.Answered t c y (okRes 0 0) ∧ (∀ d : CtxId, d ≠ c → t.ctxs[d] = s.ctxs[d]) ∧ { s with ctxs := t.ctxs, bus := t.bus, jrnl := t.jrnl }.EventsOnly t [mgtSrc (5 * c.val), mgtSrc (5 * c.val + 1)])) ∧
  (∀ (c : CtxId) (y : Submission) (s : State) (u : UnitId),
      s.MemOk →
      (s.Accepts c { op := 0x0D, since := 0x20, kinds := [1, 2], slotted := false, args := [0] } y) →
      u = subUnit y →
      unitRight s.ctxs[c] y = true →
      (s.unit u).st = .running →
      (s.unit u).cut = none →
      y.arg 0 = 0 →
      16 ≤ u.val →
      Does (.unitStop c y) s (fun t => s.Answered t c y (okRes 0 0) ∧ (∀ d : CtxId, d ≠ c → t.ctxs[d] = s.ctxs[d]) ∧ (∀ v : UnitId, v ≠ u → t.unit v = s.unit v) ∧
        (t.unit u).st = .draining ∧ (t.unit u).slots = (s.unit u).slots ∧ (t.unit u).current = (s.unit u).current ∧
        t.axis (axisOfUnit u) = { (s.axisStop (axisOfUnit u) s.mot.stopOn).axis (axisOfUnit u) with held := some false } ∧
        (∀ a : AxisId, a ≠ axisOfUnit u → t.axis a = s.axis a) ∧
        (∀ g : GroupId, s.rf 0 (Off.MOT_GRP_PACE + 0x40 * g.val) 2 0 = (axisOfUnit u).val → (t.mot.paces[g]).st = 0) ∧
        t.raisings (unitStateSrc u) = s.raisings (unitStateSrc u) + 1 ∧ t.ports = s.ports ∧ t.engs = s.engs ∧ (∀ g : GroupId, (t.groups[g]).Same s.groups[g]) ∧ t.now = s.now)) ∧
  (∀ (c : CtxId) (y : Submission) (s : State) (u : UnitId),
      s.MemOk →
      (s.Accepts c { op := 0x0D, since := 0x20, kinds := [1, 2], slotted := false, args := [0] } y) →
      u = subUnit y →
      unitRight s.ctxs[c] y = true →
      (s.unit u).st = .running →
      (s.unit u).cut = none →
      y.arg 0 = 0 →
      u.val < 16 →
      Does (.unitStop c y) s (fun t => s.Answered t c y (okRes 0 0) ∧ (∀ d : CtxId, d ≠ c → t.ctxs[d] = s.ctxs[d]) ∧
        (t.unit u).st = (if (s.port (unitPort u)).ltg.ticked && (s.port (unitPort u)).ltg.drains < 2 then .draining else .halted) ∧
        (t.port (unitPort u)).pipe.cap = none ∧ (t.port (unitPort u)).ltg.armed = false ∧
        t.chans = s.chans ∧ t.axes = s.axes ∧ t.tks = s.tks ∧ t.now = s.now ∧ t.pending = s.pending)) ∧
  (∀ (c : CtxId) (y : Submission) (s : State) (g : GroupId),
      (s.Accepts c { op := 0x10, since := 0x20, kinds := [3], slotted := false, args := [0, 1, 2] } y) →
      g = subGroup y →
      s.ctxs[c].units (maskUnits (y.arg 0) (y.arg 1) ++ s.members g.val) = true →
      y.arg 0 < 2 ^ 16 →
      y.arg 1 < 2 ^ 8 →
      y.arg 2 < 2 →
      s.groups[g].armed = none →
      (∀ h : GroupId, s.groups[h].armed ≠ none → ∀ u ∈ maskUnits (y.arg 0) (y.arg 1), (s.unit u).group ≠ some h.val) →
      Does (.cutGroup c y) s (fun t => s.Answered t c y (okRes 0 0) ∧ (∀ d : CtxId, d ≠ c → t.ctxs[d] = s.ctxs[d]) ∧
        (∀ u : UnitId, t.unit u = { s.unit u with group := (
          if (u.val < 16 ∧ bitN (y.arg 0) u.val) ∨ (16 ≤ u.val ∧ bitN (y.arg 1) (u.val - 16)) then some g.val
          else if (s.unit u).group = some g.val then none else (s.unit u).group) }) ∧
        t.groups[g] = { s.groups[g] with driveNext := some (decide (y.arg 2 = 1)) } ∧ (∀ h : GroupId, h ≠ g → t.groups[h] = s.groups[h]) ∧
        { s with ctxs := t.ctxs, bus := t.bus, jrnl := t.jrnl, units := t.units, groups := t.groups }.EventsOnly t [mgtSrc (5 * c.val), mgtSrc (5 * c.val + 1)])) ∧
  (∀ (c : CtxId) (y : Submission) (s : State) (g : GroupId),
      s.MemOk →
      (s.Accepts c { op := 0x12, since := 0x20, kinds := [3], slotted := false, args := [] } y) →
      g = subGroup y →
      s.ctxs[c].units (s.members g.val) = true →
      s.groups[g].armed ≠ none →
      s.groups[g].left = [] →
      (∀ u : UnitId, (s.unit u).cut.map (fun c => c.group) = some g.val → (s.unit u).st = .loaded ∨ (s.unit u).st = .armed ∨ (s.unit u).st = .running) →
      Does (.cutDisarm c y) s (fun t => s.Answered t c y (okRes 0 0) ∧ (∀ d : CtxId, d ≠ c → t.ctxs[d] = s.ctxs[d]) ∧
        (∀ u : UnitId, (s.unit u).cut.map (fun c => c.group) = some g.val →
          (t.unit u).cut = none ∧ (t.unit u).current = (s.unit u).current ∧ (t.unit u).committed = (s.unit u).committed ∧
          (t.unit u).st = (if (s.unit u).st = .armed then (if (s.unit u).ran then .halted else .loaded) else (s.unit u).st)) ∧
        (∀ u : UnitId, (s.unit u).cut.map (fun c => c.group) ≠ some g.val → t.unit u = s.unit u) ∧
        (t.groups[g]).Same { s.groups[g] with armed := none, left := [] } ∧ (∀ h : GroupId, h ≠ g → (t.groups[h]).Same s.groups[h]) ∧
        (let due := (List.finRange 24).flatMap (fun u => (s.unit u).due.map (fun e => rkey (unitIndex u) e.1))
         s.SameRegs t (injKeys ++ due) ∧
         { s with ctxs := t.ctxs, bus := t.bus, jrnl := t.jrnl, units := t.units, groups := t.groups, regs := t.regs }.EventsOnly t
           ([mgtSrc (5 * c.val), mgtSrc (5 * c.val + 1)] ++ (List.finRange 24).map unitStateSrc)))) ∧
  (∀ (c : CtxId) (y : Submission) (s : State) (g : GroupId),
      s.MemOk →
      (s.Accepts c { op := 0x11, since := 0x20, kinds := [3], slotted := false, args := [0, 1, 2, 3, 4, 5, 6] } y) →
      g = subGroup y →
      s.ctxs[c].units (s.members g.val) = true →
      (y.arg 0 = 0 ∨ (0x30 ≤ s.ctxs[c].zhp ∧ y.arg 0 ≤ 2 ∧ 0 < sext48 (sgn 48 (y.arg64 2) - s.master (y.arg 0 - 1)))) →
      (y.arg 0 = 0 → y.arg 1 < 16 ∧ uid (y.arg 1) ∈ s.members g.val ∧ (s.unit (uid (y.arg 1))).st = .running ∧ (s.port (unitPort (uid (y.arg 1)))).ltg.h < (y.arg64 2 : Int) ∧ y.arg64 2 < 2 ^ 48) →
      (∀ u ∈ s.members g.val, (s.unit u).st = .running ∨ (s.unit u).st = .loaded ∨ (s.unit u).st = .halted ∨ (s.unit u).st = .armed) →
      (∀ u ∈ s.members g.val, (s.armSlot y u).isSome = true ∧ s.slotRefused u ((s.armSlot y u).getD 0) = false ∧ s.cyclesOk u ((s.armSlot y u).getD 0) (s.fut u ((s.armSlot y u).getD 0) Off.PRT_LTG_PMIN) = true) →
      (∀ u ∈ s.members g.val, u.val < 16 → s.computing (unitPort u) 0 (fld (s.fut u ((s.armSlot y u).getD 0) Off.PIP_TBLSEL) 0 0) = false ∧ s.computing (unitPort u) 1 (fld (s.fut u ((s.armSlot y u).getD 0) Off.PIP_TBLSEL) 1 1) = false) →
      (∀ u ∈ s.members g.val, u.val < 16 → (s.unit u).st = .running → ratioDir (s.futRatio (unitPort u) ((s.armSlot y u).getD 0)).1 (s.futRatio (unitPort u) ((s.armSlot y u).getD 0)).2 = ratioDir (s.port (unitPort u)).ltg.num (s.port (unitPort u)).ltg.den ∧ (s.slotProg (pipeEng (unitPort u)) ((s.unit u).current.getD 0)).declared ≤ cyclesAvail 1 (s.fut u ((s.armSlot y u).getD 0) Off.PRT_LTG_PMIN)) →
      (s.groups[g].driveNext.getD s.groups[g].drive = true → unitOfAxis ⟨fld (s.grpFuture g Off.MOT_GRP_PACE) 2 0 % 8, Nat.mod_lt _ (by decide)⟩ ∈ s.members g.val ∧ 4 ≤ fld (s.grpFuture g Off.MOT_GRP_PACE) 22 16 ∧ fld (s.grpFuture g Off.MOT_GRP_PACE) 22 16 ≤ 64 ∧ s.paceCheck g (s.grpFuture g) (fun w off => if (s.members g.val).contains w then s.fut w ((s.armSlot y w).getD 0) off else s.eff (unitIndex w) off) (fun p => s.futRatio p ((s.armSlot y (unitOfPort p)).getD 0)) = ([], false, true)) →
      s.groups[g].armed = none →
      (s.bandwidthOk (s.plansWith ((s.members g.val).map (fun u => (u, (s.armSlot y u).getD 0)))) = true) →
      Does (.cutArm c y) s (fun t =>
        let value : Int := if y.arg 0 = 0 then y.arg64 2 else sgn 48 (y.arg64 2)
        s.Answered t c y (okRes 0 0) ∧ (∀ d : CtxId, d ≠ c → t.ctxs[d] = s.ctxs[d]) ∧
        (t.groups[g]).Same { s.groups[g] with armed := some (y.arg 0, y.arg 1, value), left := [] } ∧
        (∀ h : GroupId, h ≠ g → (t.groups[h]).Same s.groups[h]) ∧
        (∀ u ∈ s.members g.val,
          (t.unit u).cut = some { group := g.val, kind := y.arg 0, ref := y.arg 1, value := value, slot := (s.armSlot y u).getD 0, reached := false } ∧
          (t.unit u).st = (if (s.unit u).st = .running then .running else .armed) ∧
          (t.unit u).current = (s.unit u).current ∧ (t.unit u).committed = (s.unit u).committed) ∧
        (∀ u : UnitId, u ∉ s.members g.val → t.unit u = s.unit u) ∧
        { s with ctxs := t.ctxs, bus := t.bus, jrnl := t.jrnl, units := t.units, groups := t.groups }.EventsOnly t
          ([mgtSrc (5 * c.val), mgtSrc (5 * c.val + 1)] ++ (s.members g.val).map unitStateSrc)))

/-- MOV, ADD, ADC, SUB, SBC, AND, OR and XOR write their 32-bit result to rd (G0 discards it); with the S bit they set Z and N from the result and C and V from the exact sum or difference, or clear them; with a false condition the engine only goes to the next instruction in one cycle; nothing else changes. -/
def Obligations.EngineArithmetic : Prop :=
  (∀ (e : EngId) (f : ZscFields) (s : State),
      (s.Takes e 1 { rd := true, b := true, ext := 3 } f) →
      Does (.mov e f) s (fun t => let x := s.eng e; let a := x.get f.ra; let b := x.opB f; s.OnlyEng t e (x.took f 1 (b) (false) (false)))) ∧
  (∀ (e : EngId) (f : ZscFields) (s : State),
      (s.Takes e 1 { rd := true, ra := true, b := true, ext := 3 } f) →
      Does (.add e f) s (fun t => let x := s.eng e; let a := x.get f.ra; let b := x.opB f; s.OnlyEng t e (x.took f 1 (a + b) (decide (2 ^ 32 ≤ a.toNat + b.toNat)) (decide (a.toInt + b.toInt < -(2 ^ 31) ∨ 2 ^ 31 ≤ a.toInt + b.toInt))))) ∧
  (∀ (e : EngId) (f : ZscFields) (s : State),
      (s.Takes e 1 { rd := true, ra := true, b := true, ext := 3 } f) →
      Does (.adc e f) s (fun t => let x := s.eng e; let a := x.get f.ra; let b := x.opB f; s.OnlyEng t e (x.took f 1 (a + b + (if x.c then 1 else 0)) (decide (2 ^ 32 ≤ a.toNat + b.toNat + b2n x.c)) (decide (a.toInt + b.toInt + (b2n x.c : Int) < -(2 ^ 31) ∨ 2 ^ 31 ≤ a.toInt + b.toInt + (b2n x.c : Int)))))) ∧
  (∀ (e : EngId) (f : ZscFields) (s : State),
      (s.Takes e 1 { rd := true, ra := true, b := true, ext := 3 } f) →
      Does (.sub e f) s (fun t => let x := s.eng e; let a := x.get f.ra; let b := x.opB f; s.OnlyEng t e (x.took f 1 (a - b) (decide (b.toNat ≤ a.toNat)) (decide (a.toInt - b.toInt < -(2 ^ 31) ∨ 2 ^ 31 ≤ a.toInt - b.toInt))))) ∧
  (∀ (e : EngId) (f : ZscFields) (s : State),
      (s.Takes e 1 { rd := true, ra := true, b := true, ext := 3 } f) →
      Does (.sbc e f) s (fun t => let x := s.eng e; let a := x.get f.ra; let b := x.opB f; s.OnlyEng t e (x.took f 1 (a - b - (if x.c then 0 else 1)) (decide (b.toNat + b2n (!x.c) ≤ a.toNat)) (decide (a.toInt - b.toInt - (b2n (!x.c) : Int) < -(2 ^ 31) ∨ 2 ^ 31 ≤ a.toInt - b.toInt - (b2n (!x.c) : Int)))))) ∧
  (∀ (e : EngId) (f : ZscFields) (s : State),
      (s.Takes e 1 { rd := true, ra := true, b := true, ext := 3 } f) →
      Does (.and e f) s (fun t => let x := s.eng e; let a := x.get f.ra; let b := x.opB f; s.OnlyEng t e (x.took f 1 (a &&& b) (false) (false)))) ∧
  (∀ (e : EngId) (f : ZscFields) (s : State),
      (s.Takes e 1 { rd := true, ra := true, b := true, ext := 3 } f) →
      Does (.or e f) s (fun t => let x := s.eng e; let a := x.get f.ra; let b := x.opB f; s.OnlyEng t e (x.took f 1 (a ||| b) (false) (false)))) ∧
  (∀ (e : EngId) (f : ZscFields) (s : State),
      (s.Takes e 1 { rd := true, ra := true, b := true, ext := 3 } f) →
      Does (.xor e f) s (fun t => let x := s.eng e; let a := x.get f.ra; let b := x.opB f; s.OnlyEng t e (x.took f 1 (a ^^^ b) (false) (false))))

/-- SHL, SHR and SAR shift by b[4:0] and put the last bit shifted out into C (0 for a shift by 0); MUL and MULH give the low and the signed high half of the product in two cycles; MIN and MAX compare signed; SATS and SATU saturate a to the signed or unsigned range of n = b[4:0] + 1 bits; CLZ counts leading zeros; C and V are else 0. -/
def Obligations.EngineShiftsAndProducts : Prop :=
  (∀ (e : EngId) (f : ZscFields) (s : State),
      (s.Takes e 1 { rd := true, ra := true, b := true, ext := 3 } f) →
      Does (.shl e f) s (fun t => let x := s.eng e; let a := x.get f.ra; let b := x.opB f; s.OnlyEng t e (x.took f 1 (a <<< (b.toNat % 32)) (decide (b.toNat % 32 ≠ 0) && a.getLsbD (32 - b.toNat % 32)) (false)))) ∧
  (∀ (e : EngId) (f : ZscFields) (s : State),
      (s.Takes e 1 { rd := true, ra := true, b := true, ext := 3 } f) →
      Does (.shr e f) s (fun t => let x := s.eng e; let a := x.get f.ra; let b := x.opB f; s.OnlyEng t e (x.took f 1 (a >>> (b.toNat % 32)) (decide (b.toNat % 32 ≠ 0) && a.getLsbD (b.toNat % 32 - 1)) (false)))) ∧
  (∀ (e : EngId) (f : ZscFields) (s : State),
      (s.Takes e 1 { rd := true, ra := true, b := true, ext := 3 } f) →
      Does (.sar e f) s (fun t => let x := s.eng e; let a := x.get f.ra; let b := x.opB f; s.OnlyEng t e (x.took f 1 (a.sshiftRight (b.toNat % 32)) (decide (b.toNat % 32 ≠ 0) && a.getLsbD (b.toNat % 32 - 1)) (false)))) ∧
  (∀ (e : EngId) (f : ZscFields) (s : State),
      (s.Takes e 2 { rd := true, ra := true, b := true, ext := 3 } f) →
      Does (.mul e f) s (fun t => let x := s.eng e; let a := x.get f.ra; let b := x.opB f; s.OnlyEng t e (x.took f 2 (a * b) (false) (false)))) ∧
  (∀ (e : EngId) (f : ZscFields) (s : State),
      (s.Takes e 2 { rd := true, ra := true, b := true, ext := 3 } f) →
      Does (.mulh e f) s (fun t => let x := s.eng e; let a := x.get f.ra; let b := x.opB f; s.OnlyEng t e (x.took f 2 (((a.signExtend 64 * b.signExtend 64) >>> 32).setWidth 32) (false) (false)))) ∧
  (∀ (e : EngId) (f : ZscFields) (s : State),
      (s.Takes e 1 { rd := true, ra := true, b := true, ext := 3 } f) →
      Does (.min e f) s (fun t => let x := s.eng e; let a := x.get f.ra; let b := x.opB f; s.OnlyEng t e (x.took f 1 (if a.slt b then a else b) (false) (false)))) ∧
  (∀ (e : EngId) (f : ZscFields) (s : State),
      (s.Takes e 1 { rd := true, ra := true, b := true, ext := 3 } f) →
      Does (.max e f) s (fun t => let x := s.eng e; let a := x.get f.ra; let b := x.opB f; s.OnlyEng t e (x.took f 1 (if a.slt b then b else a) (false) (false)))) ∧
  (∀ (e : EngId) (f : ZscFields) (s : State),
      (s.Takes e 1 { rd := true, ra := true, b := true, ext := 3 } f) →
      Does (.sats e f) s (fun t => let x := s.eng e; let a := x.get f.ra; let b := x.opB f; s.OnlyEng t e (x.took f 1 (BitVec.ofInt 32 (if a.toInt < -(2 ^ (b.toNat % 32) : Int) then -(2 ^ (b.toNat % 32) : Int) else if (2 ^ (b.toNat % 32) : Int) - 1 < a.toInt then (2 ^ (b.toNat % 32) : Int) - 1 else a.toInt)) (false) (false)))) ∧
  (∀ (e : EngId) (f : ZscFields) (s : State),
      (s.Takes e 1 { rd := true, ra := true, b := true, ext := 3 } f) →
      Does (.satu e f) s (fun t => let x := s.eng e; let a := x.get f.ra; let b := x.opB f; s.OnlyEng t e (x.took f 1 (BitVec.ofInt 32 (if a.toInt < 0 then 0 else if (2 ^ (b.toNat % 32 + 1) : Int) - 1 < a.toInt then (2 ^ (b.toNat % 32 + 1) : Int) - 1 else a.toInt)) (false) (false)))) ∧
  (∀ (e : EngId) (f : ZscFields) (s : State),
      (s.Takes e 1 { rd := true, b := true, ext := 3 } f) →
      Does (.clz e f) s (fun t => let x := s.eng e; let a := x.get f.ra; let b := x.opB f; s.OnlyEng t e (x.took f 1 (b.clz) (false) (false))))

/-- CMP and TST set the four flags of the difference or the conjunction and write no register; LD reads parameter memory of the engine's setup (space 0) or scratch memory (space 1), ST writes one word of scratch memory; JMP, JMPR, CALL, CALLR and RET move the pc in two cycles, and the calls push the next pc on the link stack of at most four. (The upper half of the immediate of JMP and CALL belongs to the used field, log entry 148. The MEM and LINK traps are left out.) -/
def Obligations.EngineTestsMemoryAndJumps : Prop :=
  (∀ (e : EngId) (f : ZscFields) (s : State),
      (s.Takes e 1 { ra := true, b := true, ext := 3 } f) →
      Does (.cmp e f) s (fun t => let x := s.eng e; let a := x.get f.ra; let b := x.opB f; let r : Word := a - b
        s.OnlyEng t e (if x.condTrue f.cond then { x.went (x.pc + 1) 1 with z := decide (r = 0), n := r.msb, c := decide (b.toNat ≤ a.toNat), v := decide (a.toInt - b.toInt < -(2 ^ 31) ∨ 2 ^ 31 ≤ a.toInt - b.toInt) } else x.went (x.pc + 1) 1))) ∧
  (∀ (e : EngId) (f : ZscFields) (s : State),
      (s.Takes e 1 { ra := true, b := true, ext := 3 } f) →
      Does (.tst e f) s (fun t => let x := s.eng e; let a := x.get f.ra; let b := x.opB f; let r : Word := a &&& b
        s.OnlyEng t e (if x.condTrue f.cond then { x.went (x.pc + 1) 1 with z := decide (r = 0), n := r.msb, c := false, v := false } else x.went (x.pc + 1) 1))) ∧
  (∀ (e : EngId) (f : ZscFields) (s : State),
      (s.Takes e 2 { rd := true, ra := true, imm := true, ext := 3 } f) →
      (f.ext = 1 ∨ (f.ext = 0 ∧ engKind e ≠ 3)) →
      (s.eng e).addr f % 4 = 0 →
      (s.eng e).addr f < (if f.ext = 0 then 16384 else 1024) →
      Does (.ld e f) s (fun t => s.OnlyEng t e (if (s.eng e).condTrue f.cond then
          let w := if f.ext = 0 then (s.eng e).paramWord (s.eng e).setup ((s.eng e).addr f / 4) else (s.eng e).scratchWord ((s.eng e).addr f / 4)
          (if f.rd = 0 then s.eng e else { s.eng e with g := (s.eng e).g.set f.rd.toNat w }).went ((s.eng e).pc + 1) 2
        else (s.eng e).went ((s.eng e).pc + 1) 1))) ∧
  (∀ (e : EngId) (f : ZscFields) (s : State),
      mwf (fun _ => 0) (s.eng e).scratch = true →
      (s.Takes e 1 { ra := true, rb := true, imm := true, ext := 3 } f) →
      f.ext = 1 →
      (s.eng e).addr f % 4 = 0 →
      (s.eng e).addr f < 1024 →
      Does (.st e f) s (fun t => if (s.eng e).condTrue f.cond then
          s.OnlyEng t e { (s.eng e).went ((s.eng e).pc + 1) 1 with scratch := (t.eng e).scratch } ∧
          (t.eng e).scratchWord ((s.eng e).addr f / 4) = (s.eng e).get f.rb ∧
          (∀ i < 256, i ≠ (s.eng e).addr f / 4 → (t.eng e).scratchWord i = (s.eng e).scratchWord i)
        else s.OnlyEng t e ((s.eng e).went ((s.eng e).pc + 1) 1))) ∧
  (∀ (e : EngId) (f : ZscFields) (s : State),
      s.Takes e 2 { imm := true } f →
      (engKind e = 3 → (f.imm.toNat) % 65536 < s.scriptLen e) →
      Does (.jmp e f) s (fun t => s.OnlyEng t e (if (s.eng e).condTrue f.cond then (s.eng e).went (f.imm.toNat) 2 else (s.eng e).went ((s.eng e).pc + 1) 1))) ∧
  (∀ (e : EngId) (f : ZscFields) (s : State),
      s.Takes e 2 { ra := true } f →
      (engKind e = 3 → (((s.eng e).get f.ra).toNat) % 65536 < s.scriptLen e) →
      Does (.jmpr e f) s (fun t => s.OnlyEng t e (if (s.eng e).condTrue f.cond then (s.eng e).went (((s.eng e).get f.ra).toNat) 2 else (s.eng e).went ((s.eng e).pc + 1) 1))) ∧
  (∀ (e : EngId) (f : ZscFields) (s : State),
      s.Takes e 2 { imm := true } f →
      (engKind e = 3 → (f.imm.toNat) % 65536 < s.scriptLen e) →
      (s.eng e).link.length < 4 →
      Does (.call e f) s (fun t => s.OnlyEng t e (if (s.eng e).condTrue f.cond then { (s.eng e).went f.imm.toNat 2 with link := (((s.eng e).pc + 1) % 65536) :: (s.eng e).link } else (s.eng e).went ((s.eng e).pc + 1) 1))) ∧
  (∀ (e : EngId) (f : ZscFields) (s : State),
      s.Takes e 2 { ra := true } f →
      (engKind e = 3 → (((s.eng e).get f.ra).toNat) % 65536 < s.scriptLen e) →
      (s.eng e).link.length < 4 →
      Does (.callr e f) s (fun t => s.OnlyEng t e (if (s.eng e).condTrue f.cond then { (s.eng e).went ((s.eng e).get f.ra).toNat 2 with link := (((s.eng e).pc + 1) % 65536) :: (s.eng e).link } else (s.eng e).went ((s.eng e).pc + 1) 1))) ∧
  (∀ (e : EngId) (f : ZscFields) (s : State) (pc : Nat) (rest : List Nat),
      s.Takes e 2 {} f →
      (s.eng e).link = pc :: rest →
      (engKind e = 3 → pc < s.scriptLen e) →
      Does (.ret e f) s (fun t => s.OnlyEng t e (if (s.eng e).condTrue f.cond then { (s.eng e).went pc 2 with link := rest } else (s.eng e).went ((s.eng e).pc + 1) 1)))

/-- LSET loads a loop counter with a bounded count, or skips the body for a count of 0; LEND counts it down and goes back while it is not 0; TEND ends the work for the tick, RDS reads the special registers, RAISE raises PROGRAM_EVENT of the unit, HALT makes a running unit drain and ends a script; a trap opcode, an opcode that the engine does not accept or a word with an uncorrectable error stops the engine with its state unchanged and its unit FAULTED. (The upper half of the immediate of RAISE belongs to the used field, log entry 148. The MEM, LOOP_BOUND and LINK traps, RDS of an index above 9, and false conditions of RAISE, RDS and HALT are left out.) (A fetch that is not due leaves the state, log entry 5.) -/
def Obligations.EngineLoopsTicksAndEvents : Prop :=
  (∀ (e : EngId) (f : ZscFields) (s : State),
      s.Takes e 1 {} f →
      Does (.nop e f) s (fun t => s.OnlyEng t e ((s.eng e).went ((s.eng e).pc + 1) 1))) ∧
  (∀ (e : EngId) (f : ZscFields) (s : State),
      (s.Takes e 2 { rd := true, ra := !f.isImm, imm := true, ext := 1 } f) →
      f.cond = 0 →
      f.rd.toNat < 4 →
      (f.isImm = false → ((s.eng e).get f.ra).toNat ≤ f.imm.toNat % 65536) →
      (engKind e = 3 → (f.imm.toNat / 65536 + 1) % 65536 < s.scriptLen e) →
      Does (.lset e f) s (fun t =>
        let n := if f.isImm then f.imm.toNat % 65536 else ((s.eng e).get f.ra).toNat
        s.OnlyEng t e (if n = 0 then (s.eng e).went (f.imm.toNat / 65536 + 1) 2 else ((s.eng e).setLc f.rd.toNat n).went ((s.eng e).pc + 1) 1))) ∧
  (∀ (e : EngId) (f : ZscFields) (s : State),
      (s.Takes e 2 { rd := true, imm := true } f) →
      f.cond = 0 →
      f.rd.toNat < 4 →
      (engKind e = 3 → f.imm.toNat % 65536 < s.scriptLen e) →
      Does (.lend e f) s (fun t =>
        let n := ((s.eng e).getLc f.rd.toNat + 65535) % 65536
        s.OnlyEng t e (if n = 0 then ((s.eng e).setLc f.rd.toNat 0).went ((s.eng e).pc + 1) 1 else ((s.eng e).setLc f.rd.toNat n).went f.imm.toNat 2))) ∧
  (∀ (e : EngId) (f : ZscFields) (s : State),
      s.Takes e 1 {} f →
      engKind e ≠ 3 →
      Does (.tend e f) s (fun t => s.OnlyEng t e (if (s.eng e).condTrue f.cond then
          { (s.eng e).went ((s.eng e).pc + 1) 1 with run := .waiting, cycLast := (s.eng e).cyc + 1, cycMax := max (s.eng e).cycMax ((s.eng e).cyc + 1), cutFlag := false }
        else (s.eng e).went ((s.eng e).pc + 1) 1))) ∧
  (∀ (e : EngId) (f : ZscFields) (s : State),
      s.Takes e 1 { imm := true } f →
      (s.eng e).condTrue f.cond = true →
      Does (.raise e f) s (fun t =>
        let src := if engKind e = 0 then portSrc (engIndex e) 30 else if engKind e = 1 then portSrc (engIndex e) 31
          else if engKind e = 2 then axisSrc (engIndex e) 2 else scriptSrc (engIndex e) 3
        t.eng e = (s.eng e).went ((s.eng e).pc + 1) 1 ∧ (∀ d : EngId, d ≠ e → t.eng d = s.eng d) ∧ t.raisings src = s.raisings src + 1 ∧
        { s with engs := t.engs, scripts := t.scripts }.EventsOnly t [src])) ∧
  (∀ (e : EngId) (f : ZscFields) (s : State),
      (s.Takes e 1 { rd := true, ext := 0xFF } f) →
      f.ext.toNat < 10 →
      (s.eng e).condTrue f.cond = true →
      Does (.rds e f) s (fun t => let x := s.eng e
        let time := if engKind e = 3 then s.now else x.time
        let pos : Int := sext48 x.pos
        let v : Nat := if f.ext = 3 then x.cyc else if f.ext = 4 then time else if f.ext = 5 then time / 2 ^ 32
          else if f.ext = 8 then engKind e * 16 + engIndex e else if engKind e = 3 then 0
          else if f.ext = 0 then x.line else if f.ext = 1 then (if engKind e = 2 then x.line / 2 ^ 32 else x.line / 2 ^ 32 % 2 ^ 16)
          else if f.ext = 2 then x.setup % 8 else if f.ext = 6 then twos 32 pos else if f.ext = 7 then twos 32 (pos / 2 ^ 32) else b2n x.cutFlag
        s.OnlyEng t e ((if f.rd = 0 then x else { x with g := x.g.set f.rd.toNat (BitVec.ofNat 32 v) }).went (x.pc + 1) 1))) ∧
  (∀ (e : EngId) (f : ZscFields) (s : State),
      s.Takes e 1 {} f →
      (s.eng e).condTrue f.cond = true →
      engKind e ≠ 3 →
      (s.unit (engUnit e)).st ≠ .running →
      Does (.halt e f) s (fun t =>
        s.OnlyEng t e { (s.eng e) with cyc := (s.eng e).cyc + 1, run := .halted, cycLast := (s.eng e).cyc + 1, cycMax := max (s.eng e).cycMax ((s.eng e).cyc + 1), cutFlag := false })) ∧
  (∀ (e : EngId) (f : ZscFields) (s : State),
      s.MemOk →
      s.Takes e 1 {} f →
      (s.eng e).condTrue f.cond = true →
      engKind e = 2 →
      (s.unit (engUnit e)).st = .running →
      (s.unit (engUnit e)).cut = none →
      Does (.halt e f) s (fun t =>
        t.eng e = { (s.eng e) with cyc := (s.eng e).cyc + 1, run := .halted, cycLast := (s.eng e).cyc + 1, cycMax := max (s.eng e).cycMax ((s.eng e).cyc + 1), cutFlag := false } ∧
        (∀ d : EngId, d ≠ e → t.eng d = s.eng d) ∧ (t.unit (engUnit e)).st = .draining ∧ (∀ u : UnitId, u ≠ engUnit e → t.unit u = s.unit u) ∧
        t.axis (axisOfUnit (engUnit e)) = { (s.axisStop (axisOfUnit (engUnit e)) s.mot.stopOn).axis (axisOfUnit (engUnit e)) with held := some false } ∧ t.ports = s.ports)) ∧
  (∀ (e : EngId) (f : ZscFields) (s : State),
      s.MemOk →
      s.Takes e 1 {} f →
      (s.eng e).condTrue f.cond = true →
      engKind e < 2 →
      (s.unit (engUnit e)).st = .running →
      (s.unit (engUnit e)).cut = none →
      Does (.halt e f) s (fun t =>
        (t.unit (engUnit e)).st = (if (s.port (unitPort (engUnit e))).ltg.ticked && (s.port (unitPort (engUnit e))).ltg.drains < 2 then .draining else .halted) ∧
        (t.eng e).run = .halted ∧ (t.eng e).cycLast = (s.eng e).cyc + 1 ∧ (t.eng e).pc = (s.eng e).pc ∧ (t.eng e).g = (s.eng e).g ∧
        (t.port (unitPort (engUnit e))).ltg.armed = false ∧ (t.port (unitPort (engUnit e))).pipe.cap = none ∧ t.chans = s.chans ∧ t.axes = s.axes)) ∧
  (∀ (e : EngId) (f : ZscFields) (s : State),
      s.Takes e 1 {} f →
      (s.eng e).condTrue f.cond = true →
      engKind e = 3 →
      Does (.halt e f) s (fun t =>
        (t.script (scriptOf e)).st = .halted ∧ (t.script (scriptOf e)).cause = 0 ∧ (t.eng e).run = .halted ∧
        t.raisings (scriptSrc (scriptOf e).val 0) = s.raisings (scriptSrc (scriptOf e).val 0) + 1 ∧
        (∀ c : ScriptId, c ≠ scriptOf e → t.script c = s.script c) ∧ t.units = s.units ∧ t.ports = s.ports ∧ t.tbl = s.tbl)) ∧
  (∀ (e : EngId) (k : Fin 32) (f : ZscFields) (s : State),
      s.Takes e 1 { imm := true } f →
      (s.eng e).condTrue f.cond = true →
      Does (.trapOpcode e k f) s (fun t => s.Trapped t e (0x20 + k.val) f.imm.toNat)) ∧
  (∀ (e : EngId) (w : DWord) (s : State),
      (s.eng e).run = .running →
      s.transferring e = false →
      opAccepted (engKind e) (w.toNat / 2 ^ 56) = false →
      Does (.illegalOpcode e ⟨w, false⟩) s (fun t => s.Trapped t e 1 (w.toNat / 2 ^ 32))) ∧
  (∀ (e : EngId) (w : DWord) (s : State),
      (s.eng e).run = .running →
      s.transferring e = false →
      Does (.illegalOpcode e ⟨w, true⟩) s (fun t => s.Trapped t e 5 (s.eng e).pc)) ∧
  (∀ (e : EngId) (w : DWord) (parity : Bool) (s : State),
      ((s.eng e).run ≠ .running ∨ s.transferring e = true ∨ (parity = false ∧ opAccepted (engKind e) (w.toNat / 2 ^ 56) = true)) →
      Does (.illegalOpcode e ⟨w, parity⟩) s (fun t => t = s))

/-- When the gear unit of a running port reaches a position above the high-water, not sooner than LINE_PERIOD_MIN after the tick before, the line with that number opens at the time and position of now, the gate engine that waits takes its tick, and the captured line goes to its process stage and that to its emit stage; sooner (cause EARLY), or without the lock of its PLL, the position is lost: it counts in the lost lines and in PRT_LTG_EARLY, and LINE_OVERRUN is raised; a position held for a drain tick is given LINE_PERIOD_MIN after it. A port that neither runs nor is FAULTED while running ignores positions. A TICK of a source 5 port is one position. (The time of the tick is that of the command, log entry 5 where nothing is due; which positions raise LINE_OVERRUN without the lock is log entry 141.) -/
def Obligations.LineTicks : Prop :=
  (∀ (p : PortId) (t0 : Nat) (s : State),
      s.counting p = false →
      Does (.linePositionReached p t0) s (fun t => t = { s with now := max s.now t0 })) ∧
  (∀ (p : PortId) (t0 : Nat) (s : State) (k : Int),
      s.MemOk →
      k = (s.at t0).lineNow p →
      s.portState p = .running →
      s.mgt.resetBusy = false →
      s.pllLock p = true →
      (s.unit (unitOfPort p)).haltNext = false →
      (s.unit (unitOfPort p)).cut = none →
      (s.port p).head.gone = false →
      (s.port p).splice.overlapTo = none →
      (∀ g : GroupId, s.groups[g].armed = none) →
      (s.eng (gateEng p)).run ≠ .running →
      (s.port p).cap.elim true (fun l => !l.splice) = true →
      (s.port p).ltg.held = none →
      (s.port p).ltg.h < k →
      (s.port p).ltg.drains = 0 →
      ((s.port p).ltg.ticked = true → s.pmin p ≤ (max s.now t0 - (s.port p).ltg.tLine) * 100) →
      Does (.linePositionReached p t0) s (fun t => (t.port p).ltg.h = k ∧ (t.port p).ltg.held = none ∧ (t.port p).ltg.ticks = (s.port p).ltg.ticks + 1 ∧ (t.port p).ltg.drains = 0 ∧ (t.port p).ltg.ticked = true ∧
        (∀ l ∈ (t.port p).cap, l.n = twos 48 k ∧ l.time = max s.now t0 ∧ l.pos = (s.at t0).srcCount p ∧ l.overlap = false ∧ l.dropped = false ∧ l.samples = [] ∧
          l.cutFlag = false ∧ l.slot = ((s.unit (unitOfPort p)).current).getD 0 ∧
          t.eng (gateEng p) = (if (s.eng (gateEng p)).run = .waiting then { s.eng (gateEng p) with run := .running, cyc := 0, line := l.n, time := l.time, pos := l.pos, cutFlag := false }
            else s.eng (gateEng p))) ∧
        (t.port p).cap.isSome = true ∧ (t.port p).prc = (s.port p).cap ∧ (t.port p).emi.map (fun l => l.n) = (s.port p).prc.map (fun l => l.n) ∧
        (t.port p).gate.queue = [] ∧ (t.port p).gate.lrefOn = true ∧ ((s.port p).pipe.fails = [] → (t.unit (unitOfPort p)).st = .running) ∧
        (∀ q : PortId, q ≠ p → t.port q = s.port q) ∧ t.now = max s.now t0 ∧ t.axes = s.axes ∧
        ((s.port p).prc = none → (s.port p).due[3] = [] → (t.port p).lostBase + ((t.port p).lostRec.map (fun e => e.2)).sum =
          (s.port p).lostBase + ((s.port p).lostRec.map (fun e => e.2)).sum + (k - 1 - (s.port p).ltg.h).toNat))) ∧
  (∀ (p : PortId) (t0 : Nat) (s : State) (k : Int),
      s.MemOk →
      k = (s.at t0).lineNow p →
      s.portState p = .running →
      s.mgt.resetBusy = false →
      (∀ g : GroupId, s.groups[g].armed = none) →
      (s.port p).splice.overlapTo = none →
      s.pllLock p = false →
      (s.port p).ltg.held = none →
      (s.port p).ltg.h < k →
      Does (.linePositionReached p t0) s (fun t => (t.port p).ltg.h = k ∧ (t.port p).cap = (s.port p).cap ∧ (t.port p).prc = (s.port p).prc ∧ (t.port p).emi = (s.port p).emi ∧
        (t.port p).lostRec = (s.port p).lostRec ++ [(((s.port p).ltg.h + 1).toNat, (k - (s.port p).ltg.h).toNat)] ∧
        t.raisings (portSrc p.val 0) = s.raisings (portSrc p.val 0) + (k - (s.port p).ltg.h).toNat ∧
        t.eff p.val Off.PRT_LTG_EARLY = min (s.eff p.val Off.PRT_LTG_EARLY + (k - (s.port p).ltg.h).toNat) (2 ^ 32 - 1) ∧
        (∀ q : PortId, q ≠ p → t.port q = s.port q) ∧ t.units = s.units ∧ t.engs = s.engs)) ∧
  (∀ (p : PortId) (t0 : Nat) (s : State) (k : Int),
      s.MemOk →
      k = (s.at t0).lineNow p →
      s.portState p = .running →
      s.mgt.resetBusy = false →
      s.pllLock p = true →
      (∀ g : GroupId, s.groups[g].armed = none) →
      (s.port p).splice.overlapTo = none →
      (s.port p).ltg.held = none →
      (s.port p).ltg.h < k →
      (s.port p).ltg.drains = 0 →
      (s.port p).ltg.ticked = true →
      (max s.now t0 - (s.port p).ltg.tLine) * 100 < s.pmin p →
      Does (.linePositionReached p t0) s (fun t => (t.port p).ltg.h = k ∧ (t.port p).cap = (s.port p).cap ∧ (t.port p).prc = (s.port p).prc ∧ (t.port p).emi = (s.port p).emi ∧
        (t.port p).lostRec = (s.port p).lostRec ++ [(((s.port p).ltg.h + 1).toNat, (k - (s.port p).ltg.h).toNat)] ∧
        t.raisings (portSrc p.val 0) = s.raisings (portSrc p.val 0) + (k - (s.port p).ltg.h).toNat ∧
        t.eff p.val Off.PRT_LTG_EARLY = min (s.eff p.val Off.PRT_LTG_EARLY + (k - (s.port p).ltg.h).toNat) (2 ^ 32 - 1) ∧
        (∀ q : PortId, q ≠ p → t.port q = s.port q) ∧ t.units = s.units ∧ t.engs = s.engs)) ∧
  (∀ (c : CtxId) (v : Word) (s r : State) (p : PortId),
      s.Serves c Off.PRT_LTG_CMD true →
      (s.ctxs[c]).selPort.toNat = p.val →
      r = s.updLtg p (fun x => { x with hostTicks := x.hostTicks + 1 }) →
      Does (.tick c v) s (fun t => if v.getLsbD 0 ∧ s.srcCode p = 5 ∧ s.counting p then Does (.linePositionReached p s.now) r (fun w => w = t) else t = s)) ∧
  (∀ (p : PortId) (t0 : Nat) (s : State) (k y : Int),
      s.MemOk →
      s.portState p = .running →
      s.mgt.resetBusy = false →
      s.pllLock p = true →
      (s.unit (unitOfPort p)).haltNext = false →
      (s.unit (unitOfPort p)).cut = none →
      (s.port p).head.gone = false →
      (s.port p).splice.overlapTo = none →
      (∀ g : GroupId, s.groups[g].armed = none) →
      (s.eng (gateEng p)).run ≠ .running →
      (s.port p).cap.elim true (fun l => !l.splice) = true →
      (s.port p).ltg.held = some y →
      (s.port p).ltg.h < y →
      k = max y ((s.at t0).lineNow p) →
      s.pmin p ≤ (max s.now t0 - (s.port p).ltg.tDrain) * 100 →
      0 < (s.port p).ltg.drains →
      Does (.heldTickRelease p t0) s (fun t => (t.port p).ltg.h = k ∧ (t.port p).ltg.held = none ∧ (t.port p).ltg.ticks = (s.port p).ltg.ticks + 1 ∧ (t.port p).ltg.drains = 0 ∧ (t.port p).ltg.ticked = true ∧
        (∀ l ∈ (t.port p).cap, l.n = twos 48 k ∧ l.time = max s.now t0 ∧ l.pos = (s.at t0).srcCount p ∧ l.overlap = false ∧ l.dropped = false ∧ l.samples = [] ∧
          l.cutFlag = false ∧ l.slot = ((s.unit (unitOfPort p)).current).getD 0 ∧
          t.eng (gateEng p) = (if (s.eng (gateEng p)).run = .waiting then { s.eng (gateEng p) with run := .running, cyc := 0, line := l.n, time := l.time, pos := l.pos, cutFlag := false }
            else s.eng (gateEng p))) ∧
        (t.port p).cap.isSome = true ∧ (t.port p).prc = (s.port p).cap ∧ (t.port p).emi.map (fun l => l.n) = (s.port p).prc.map (fun l => l.n) ∧
        (t.port p).gate.queue = [] ∧ (t.port p).gate.lrefOn = true ∧ ((s.port p).pipe.fails = [] → (t.unit (unitOfPort p)).st = .running) ∧
        (∀ q : PortId, q ≠ p → t.port q = s.port q) ∧ t.now = max s.now t0 ∧ t.axes = s.axes)) ∧
  (∀ (p : PortId) (t0 : Nat) (s : State),
      ((s.port p).ltg.held = none ∨ s.counting p = false) →
      Does (.heldTickRelease p t0) s (fun t => t = { s with now := max s.now t0 }))

/-- A drain tick that is due moves the lines on without opening one; the second of a DRAINING port halts it, unless a block that failed its verify makes it FAULTED then. When the process stage of a line begins, the pipe engine that waits takes its tick, the stream, the payload areas and the record slots are empty, and the drift factors of the line come in force; while lanes of the port are classified the line is dropped with LANE_MISMATCH (R165). Where no drain tick is due, or the line has begun, nothing happens (log entry 5). -/
def Obligations.DrainAndProcess : Prop :=
  (∀ (p : PortId) (t0 : Nat) (s : State),
      (s.at t0).drainDue p = false →
      Does (.drainTick p t0) s (fun t => t = { s with now := max s.now t0 })) ∧
  (∀ (p : PortId) (t0 : Nat) (s : State),
      (s.at t0).drainDue p = true →
      (s.unit (unitOfPort p)).haltNext = false →
      (s.port p).head.gone = false →
      (s.port p).cap.elim true (fun l => !l.splice) = true →
      (s.portState p = .running ∨ s.portState p = .draining) →
      (s.unit (unitOfPort p)).cut = none →
      Does (.drainTick p t0) s (fun t => (t.port p).ltg.drains = (s.port p).ltg.drains + 1 ∧ (t.port p).ltg.tDrain = max s.now t0 ∧ (t.port p).cap = none ∧
        ((s.port p).pipe.fails = [] → t.portState p = (if s.portState p = .draining ∧ 1 ≤ (s.port p).ltg.drains then .halted else s.portState p)) ∧
        (if t.portState p = .halted then (t.port p).prc = none ∧ (t.port p).emi = none
         else (t.port p).prc = (s.port p).cap ∧ (t.port p).emi.map (fun l => l.n) = (s.port p).prc.map (fun l => l.n)) ∧
        (∀ q : PortId, q ≠ p → t.port q = s.port q) ∧ t.now = max s.now t0 ∧ t.axes = s.axes ∧ t.pending = s.pending)) ∧
  (∀ (p : PortId) (s : State) (l : LineRec),
      s.MemOk →
      s.hasFault p 4 = true →
      (s.port p).prc = some l →
      l.begun = false →
      l.dropped = false →
      Does (.pipeTick p) s (fun t => (t.port p).prc = some { l with begun := true, dropped := true } ∧ t.raisings (portSrc p.val 10) = s.raisings (portSrc p.val 10) + 1 ∧ t.units = s.units ∧ t.axes = s.axes ∧ (∀ q : PortId, q ≠ p → t.port q = s.port q))) ∧
  (∀ (p : PortId) (s : State),
      s.hasFault p 4 = false →
      Does (.pipeTick p) s (fun t =>
        ((s.port p).prc = none → t = s) ∧ (∀ l ∈ (s.port p).prc,
          if l.begun then t = s else
          (t.port p).prc = some { l with begun := true } ∧ (t.port p).pipe.stream = none ∧ (t.port p).pipe.q = (s.port p).pipe.qNext ∧
          (∀ i : Fin 4, (t.port p).pipe.areas[i] = none ∧ (t.port p).pipe.slots[i] = none) ∧ (t.port p).pipe.queued = [] ∧
          (t.port p).pipe.wl = (s.port p).pipe.wl ∧ (t.port p).pipe.accs = (s.port p).pipe.accs ∧
          t.eng (pipeEng p) = (if (s.eng (pipeEng p)).run = .waiting then { s.eng (pipeEng p) with run := .running, cyc := 0, line := l.n, time := (if (s.port p).ltg.drains = 0 then (s.port p).ltg.tLine else (s.port p).ltg.tDrain), pos := l.pos, cutFlag := l.cutFlag }
            else s.eng (pipeEng p)) ∧ (∀ e : EngId, e ≠ pipeEng p → t.eng e = s.eng e) ∧ (∀ q : PortId, q ≠ p → t.port q = s.port q) ∧
          t.units = s.units ∧ t.axes = s.axes ∧ t.now = s.now)))

/-- A quadrature edge of a master that lasts FILT cycles moves its 48-bit count by one in its direction, a shorter one nothing, an invalid one sets the error bit and raises MENC_ERROR; a ratio change armed ahead of the master is armed, one that is late or bad sets ERR instead; arming the latch clears what it captured, and a latch that a qualified edge has captured gives the source position, the line and the fraction of the edge in its registers and raises GEAR_LATCH. (Nothing stays armed after a refused arming, log entry 107; the width of a level is an operand, log entry 193; edges of Z are left out.) (A latch that is not due leaves the state, log entry 5.) -/
def Obligations.MastersAndGears : Prop :=
  (∀ (m : Fin 2) (t0 : Nat) (a b z : Bool) (width : Nat) (s : State),
      s.MemOk →
      s.bankUp 17 = true →
      s.rf 0 (Off.MOT_MCFG0 + 4 * m.val) 11 8 ≤ width →
      z = s.mot.mZ[m] →
      (∀ g : GroupId, s.groups[g].armed = none) →
      (∀ p : PortId, (s.port p).ltg.armed = false) →
      s.tks.cues = [] →
      Does (.masterEdge m ⟨t0, width⟩ a b z) s (fun t =>
        (∀ n : Fin 2, t.mot.mA[n] = (if n = m then a else s.mot.mA[n]) ∧ t.mot.mB[n] = (if n = m then b else s.mot.mB[n])) ∧
        { s with now := max s.now t0, mot := { s.mot with mA := t.mot.mA, mB := t.mot.mB, mZ := t.mot.mZ }, regs := t.regs }.EventsOnly t [mgtSrc (40 + m.val)] ∧
        s.SameRegs t ([rkey 0 (Off.MOT_MCNT0_LO + 8 * m.val), rkey 0 (Off.MOT_MCNT0_LO + 8 * m.val + 4), rkey 0 Off.MOT_MSTAT] ++ injKeys) ∧
        (a ≠ s.mot.mA[m] ∧ b ≠ s.mot.mB[m] → t.rf 0 Off.MOT_MSTAT m.val m.val = 1 ∧ t.master m.val = s.master m.val ∧ t.raisings (mgtSrc (40 + m.val)) = s.raisings (mgtSrc (40 + m.val)) + 1) ∧
        (¬ (a ≠ s.mot.mA[m] ∧ b ≠ s.mot.mB[m]) →
           let up : Int := if a = s.mot.mA[m] ∧ b = s.mot.mB[m] then 0 else if (if a = s.mot.mA[m] then b = a else a ≠ b) then 1 else -1
           t.master m.val = sext48 (s.master m.val + (if s.rf 0 (Off.MOT_MCFG0 + 4 * m.val) 0 0 = 1 then -up else up)) ∧ t.raisings (mgtSrc (40 + m.val)) = s.raisings (mgtSrc (40 + m.val))))) ∧
  (∀ (m : Fin 2) (t0 : Nat) (a b z : Bool) (width : Nat) (s : State),
      s.bankUp 17 = true →
      width < s.rf 0 (Off.MOT_MCFG0 + 4 * m.val) 11 8 →
      z = s.mot.mZ[m] →
      (∀ g : GroupId, s.groups[g].armed = none) →
      (∀ p : PortId, (s.port p).ltg.armed = false) →
      s.tks.cues = [] →
      Does (.masterEdge m ⟨t0, width⟩ a b z) s (fun t => t = { s with now := max s.now t0 })) ∧
  (∀ (m : Fin 2) (t0 : Nat) (a b z : Bool) (width : Nat) (s : State),
      s.bankUp 17 = false →
      Does (.masterEdge m ⟨t0, width⟩ a b z) s (fun t => Does (.masterEdge m ⟨t0, width⟩ false false false) s (fun r => r = t))) ∧
  (∀ (c : CtxId) (v : Word) (s : State) (p : PortId),
      s.MemOk →
      s.Serves c Off.PRT_GEAR_ARMCTL true →
      (s.ctxs[c]).selPort.toNat = p.val →
      Does (.prtGearArmctlWrite c v) s (fun t =>
        let num := sgn 32 (s.eff p.val Off.PRT_GEAR_ANUM)
        let den := sgn 32 (s.eff p.val Off.PRT_GEAR_ADEN)
        let late := decide (0 ≤ sext48 (s.master (fld v.toNat 1 1) - sgn 48 (s.pair p.val Off.PRT_GEAR_APOS_LO)))
        let bad := !ratioOk num den || (s.portState p == .running && ratioDir num den != ratioDir (s.port p).ltg.num (s.port p).ltg.den)
        t = { s with ports := t.ports, regs := t.regs, jrnl := t.jrnl } ∧ (∀ q : PortId, q ≠ p → t.port q = s.port q) ∧ s.SameRegs t [rkey p.val Off.PRT_GEAR_ARMCTL] ∧
        t.port p = { s.port p with ltg := { (s.port p).ltg with armed := v.getLsbD 0 && !late && !bad } } ∧
        t.rf p.val Off.PRT_GEAR_ARMCTL 0 0 = b2n (v.getLsbD 0 && !late && !bad) ∧ t.rf p.val Off.PRT_GEAR_ARMCTL 1 1 = fld v.toNat 1 1 ∧
        t.rf p.val Off.PRT_GEAR_ARMCTL 31 31 = (if v.getLsbD 0 then b2n (late || bad) else s.rf p.val Off.PRT_GEAR_ARMCTL 31 31))) ∧
  (∀ (c : CtxId) (v : Word) (s : State) (p : PortId),
      s.MemOk →
      s.Serves c Off.PRT_GEAR_LCFG true →
      (s.ctxs[c]).selPort.toNat = p.val →
      Does (.gearLatchArm c v) s (fun t =>
        t = { s with ports := t.ports, regs := t.regs, jrnl := t.jrnl } ∧ (∀ q : PortId, q ≠ p → t.port q = s.port q) ∧ s.SameRegs t [rkey p.val Off.PRT_GEAR_LCFG] ∧
        t.port p = { s.port p with ltg := { (s.port p).ltg with latchRaw := none } } ∧ t.eff p.val Off.PRT_GEAR_LCFG = v.toNat &&& 0x8000033F)) ∧
  (∀ (p : PortId) (s : State),
      s.MemOk →
      Does (.gearLatch p) s (fun t =>
        ((s.port p).ltg.latchRaw = none → t = s) ∧ (∀ e ∈ (s.port p).ltg.latchRaw,
          if s.rf p.val Off.PRT_GEAR_LCFG 31 31 = 0 ∨ s.latchLevel (s.rf p.val Off.PRT_GEAR_LCFG 5 0) e.1 ≠ e.1 then t = s else
          (t.port p) = { s.port p with ltg := { (s.port p).ltg with latchRaw := none } } ∧ (∀ q : PortId, q ≠ p → t.port q = s.port q) ∧
          t.pair p.val Off.PRT_GEAR_LPOS_LO = twos 64 (sext48 e.2.1) ∧ t.eff p.val Off.PRT_GEAR_LLINE = twos 32 e.2.2.1 ∧
          t.eff p.val Off.PRT_GEAR_LFRAC = e.2.2.2 % 2 ^ 32 ∧ t.rf p.val Off.PRT_GEAR_LCFG 31 31 = 0 ∧ t.raisings (portSrc p.val 26) = s.raisings (portSrc p.val 26) + 1 ∧
          { s with ports := t.ports, regs := t.regs }.EventsOnly t [portSrc p.val 26] ∧
          s.SameRegs t ([Off.PRT_GEAR_LPOS_LO, Off.PRT_GEAR_LPOS_LO + 4, Off.PRT_GEAR_LLINE, Off.PRT_GEAR_LFRAC, Off.PRT_GEAR_LCFG].map (rkey p.val) ++ injKeys))))

/-- A motion tick counts, takes the time, empties the command list of every axis, and changes the commanded microstep of an axis without a pending SETPOS or homing by at most 40; an axis whose stage is at rest, whose driver may stay and which nothing commands stays where it is. The engine of an unpaused running axis that waits takes the tick at its new position. Motion ticks sample STOP_IN_L; it counts as active once two samples in a row are low. That stops every axis with SDEC, releases its gear by force, ends its homing with result 4, makes every pacing unit IDLE and raises STOP_IN; a high sample ends the override, and an axis that its unit stops goes on with that stop. Writing GROUP_RUN with RUN = 1 starts an idle pacing unit whose axis can work, forward at the group speed, which ends a homing of it; HOLD and RUN are kept. A write of MOT_MSTEP_CTL requests the swap of the microstep table, at once with the driver off. (The transitions of a pacing unit beyond R303 to R309 are log entry 138; GROUP_HOLD in IDLE is left out.) -/
def Obligations.MotionTicksAndPacing : Prop :=
  (∀ (t0 : Nat) (s : State),
      s.MemOk →
      (∀ u : UnitId, (s.unit u).cut = none) →
      Does (.motionTick t0) s (fun t => t.mot.ticks = s.mot.ticks + 1 ∧ t.mot.tickTime = max s.now t0 ∧ t.now = max s.now t0 ∧ t.mot.stopLow = s.mot.stopLow ∧
        (∀ a : AxisId, (t.axis a).cmds = [] ∧ (t.axis a).zEdge = none ∧
          ((s.axis a).home = none → (s.axis a).cmds.all (fun x => match x with | .setpos _ _ => false | .home _ => false | _ => true) = true →
            (t.axis a).prevPos = (s.axis a).pos ∧ ((t.axis a).pos - (s.axis a).pos).natAbs ≤ 40)) ∧
        t.ctxs = s.ctxs ∧ t.tbl = s.tbl ∧ t.link = s.link ∧ t.pending = s.pending)) ∧
  (∀ (t0 : Nat) (s : State) (a : AxisId),
      s.MemOk →
      s.mgt.resetBusy = false →
      (∀ u : UnitId, (s.unit u).cut = none) →
      (s.axis a).cmds = [] →
      (s.axis a).home = none →
      (s.axis a).v = 0 →
      (s.axis a).geared = false →
      (s.axis a).hist.all (fun h => h == (s.axis a).p) = true →
      (s.axis a).shape = 0 →
      (∃ b, (s.axis a).move = .stop b) →
      (s.axis a).gVel = 0 →
      (s.axis a).gC = 0 →
      (s.axis a).pos = Int.fdiv (s.axis a).p (2 ^ 32) + (s.axis a).gBase →
      (s.axis a).held = none →
      s.mot.stopOn = false →
      (∀ g : GroupId, (s.mot.paces[g]).st = 0) →
      s.arf a Off.MOT_ENC 15 0 = 0 →
      (s.unit (unitOfAxis a)).st = .running →
      (s.eng (axisEng a)).run = .waiting →
      Does (.motionTick t0) s (fun t => (t.axis a).pos = (s.axis a).pos ∧ (t.axis a).p = (s.axis a).p ∧ (t.axis a).v = 0 ∧ (t.axis a).target = Int.fdiv (s.axis a).p (2 ^ 32) ∧
        (t.unit (unitOfAxis a)).st = .running ∧
        t.eng (axisEng a) = { s.eng (axisEng a) with run := .running, cyc := 0, line := (s.eng (axisEng a)).line + 1, time := max s.now t0, pos := (s.axis a).pos })) ∧
  (∀ (low : Bool) (t0 : Nat) (s : State),
      Does (.stopIn low t0) s (fun t => t = { s with now := max s.now t0, mot := { s.mot with stopLow := low || !s.bankUp 19 } })) ∧
  (∀ (t0 : Nat) (s : State),
      s.MemOk →
      (∀ u : UnitId, (s.unit u).cut = none) →
      s.mot.stopLow = true →
      0 < s.mot.stopRun →
      s.mot.stopOn = false →
      Does (.motionTick t0) s (fun t => t.mot.stopOn = true ∧ t.mot.stopRun = 2 ∧
        (∀ g : GroupId, (t.mot.paces[g]).st = 0 ∧ t.rf 0 (Off.MOT_GRP_STAT + 0x40 * g.val) 2 0 = 0) ∧
        (∀ a : AxisId, (t.axis a).move = .stop true ∧ (t.axis a).geared = false ∧ (t.axis a).home = none ∧ (t.axis a).cmds = [] ∧
          ((s.axis a).home.isSome = true → t.arf a Off.MOT_STAT 26 24 = 4)) ∧
        t.raisings (mgtSrc 42) = s.raisings (mgtSrc 42) + 1)) ∧
  (∀ (t0 : Nat) (s : State),
      s.MemOk →
      (∀ u : UnitId, (s.unit u).cut = none) →
      (s.mot.stopLow = false ∨ s.mot.stopRun = 0) →
      s.mot.stopOn = false →
      Does (.motionTick t0) s (fun t => t.mot.stopOn = false ∧ t.mot.stopRun = b2n s.mot.stopLow ∧ t.raisings (mgtSrc 42) = s.raisings (mgtSrc 42))) ∧
  (∀ (t0 : Nat) (s : State),
      s.MemOk →
      (∀ u : UnitId, (s.unit u).cut = none) →
      s.mot.stopOn = true →
      (∀ g : GroupId, (s.mot.paces[g]).st = 0) →
      Does (.motionTick t0) s (fun t => t.mot.stopOn = s.mot.stopLow ∧ t.raisings (mgtSrc 42) = s.raisings (mgtSrc 42) ∧
        (s.mot.stopLow = false → ∀ a : AxisId, s.arf a Off.MOT_SW 17 16 = 0 → s.arf a Off.MOT_ENC 15 0 = 0 → (s.axis a).cmds = [] → (s.unit (unitOfAxis a)).st ≠ .wedged → ∀ sdec ∈ (s.axis a).held, (t.axis a).move = .stop sdec))) ∧
  (∀ (c : CtxId) (g : GroupId) (v : Word) (s : State),
      s.MemOk →
      s.Serves c (Off.MOT_GRP_CTL + 64 * g.val) true →
      Does (.groupRun c g v) s (fun t =>
        t.eff 0 (Off.MOT_GRP_CTL + 64 * g.val) = v.toNat % 4 ∧
        (if v.getLsbD 0 ∧ s.mot.paces[g].st = 0 ∧ s.paceAble g then
           t.mot.paces[g].st = 1 ∧ t.mot.paces[g].dir = s.forward g ∧ (t.axis (s.paceAxis g)).move = .velocity (s.forward g) ∧ (t.axis (s.paceAxis g)).decel = false ∧ (t.axis (s.paceAxis g)).home = none ∧
           (t.axis (s.paceAxis g)).vmaxMove = some (s.paceSpeed g) ∧ t.rf 0 (Off.MOT_GRP_STAT + 64 * g.val) 2 0 = 1 ∧
           (∀ h : GroupId, h ≠ g → t.mot.paces[h] = s.mot.paces[h]) ∧ (∀ a : AxisId, a ≠ s.paceAxis g → t.axis a = s.axis a) ∧
           (∀ p ∈ s.pacedPorts g, (t.port p).splice.leader = false ∧ (t.port p).splice.overlapTo = none)
         else t = { s with regs := t.regs, jrnl := t.jrnl } ∧ s.SameRegs t [rkey 0 (Off.MOT_GRP_CTL + 64 * g.val)]))) ∧
  (∀ (c : CtxId) (g : GroupId) (v : Word) (s : State),
      s.MemOk →
      s.Serves c (Off.MOT_GRP_CTL + 64 * g.val) true →
      s.mot.paces[g].st ≠ 0 →
      Does (.groupHold c g v) s (fun t =>
        t.eff 0 (Off.MOT_GRP_CTL + 64 * g.val) = v.toNat % 4 ∧ t = { s with regs := t.regs, jrnl := t.jrnl } ∧ s.SameRegs t [rkey 0 (Off.MOT_GRP_CTL + 64 * g.val)] ∧
        t.grpBit g 1 = v.getLsbD 1)) ∧
  (∀ (c : CtxId) (v : Word) (s : State) (a : AxisId),
      s.MemOk →
      s.Serves c Off.MOT_MSTEP_CTL true →
      (s.ctxs[c]).selAxis.toNat = a.val →
      Does (.mstepSwap c v) s (fun t =>
        (∀ b : AxisId, b ≠ a → t.axis b = s.axis b) ∧
        (if v.getLsbD 0 = true ∧ (s.axis a).tblPend = false then
           (if (s.axis a).enabled then t.axis a = { s.axis a with tblPend := true } ∧ t = { s with axes := t.axes, jrnl := t.jrnl }
            else t.axis a = s.axis a ∧ t.raisings (axisSrc a.val 14) = s.raisings (axisSrc a.val 14) + 1 ∧
              (∀ j : Fin 256, mget sineT t.mstepNow (256 * a.val + j.val) = mget sineT s.mstepNext (256 * a.val + j.val)))
         else t = { s with jrnl := t.jrnl })))

/-- PSET, MOVE, JOG, STOP, HOME, LATCH, DRIVE and MSWAP put a command with their operands at the end of the list that the next motion tick obeys, in one cycle; GEAR and SETPOS do so only where they are accepted, and say that in the Z flag, and a SETPOS that is not accepted still ends a homing; ASTAT reads a status word and sets the flags. (Parameters 8 to 15 of PSET do nothing, log entry 70; acceptance is judged when the instruction issues, log entry 135. MOVE form 3, ASTAT 12 to 15, and GEAR, SETPOS and ASTAT whose condition is false are left out.) -/
def Obligations.AxisInstructions : Prop :=
  (∀ (a : AxisId) (f : ZscFields) (s : State),
      (s.Takes (axisEng a) 1 { rb := true, imm := true, ext := 0x0F } f) →
      Does (.pset a f) s (fun t => let x := s.eng (axisEng a)
        t = { s with engs := t.engs, axes := t.axes } ∧ (∀ b : AxisId, b ≠ a → t.axis b = s.axis b) ∧ (∀ e : EngId, e ≠ axisEng a → t.eng e = s.eng e) ∧
        t.eng (axisEng a) = x.went (x.pc + 1) 1 ∧
        t.axis a = { s.axis a with cmds := (s.axis a).cmds ++ (if x.condTrue f.cond then [.pset f.ext.toNat ((x.get f.rb + f.imm).toNat)] else []) })) ∧
  (∀ (a : AxisId) (f : ZscFields) (s : State),
      (s.Takes (axisEng a) 1 { ra := true, rb := true, ext := 3 } f) →
      f.ext = 0 →
      Does (.move a f) s (fun t => let x := s.eng (axisEng a)
        t = { s with engs := t.engs, axes := t.axes } ∧ (∀ b : AxisId, b ≠ a → t.axis b = s.axis b) ∧ (∀ e : EngId, e ≠ axisEng a → t.eng e = s.eng e) ∧
        t.eng (axisEng a) = x.went (x.pc + 1) 1 ∧
        t.axis a = { s.axis a with cmds := (s.axis a).cmds ++ (if x.condTrue f.cond then [.move false (sgn 48 ((x.get f.rb).toNat % 2 ^ 16 * 2 ^ 32 + (x.get f.ra).toNat))] else []) })) ∧
  (∀ (a : AxisId) (f : ZscFields) (s : State),
      (s.Takes (axisEng a) 1 { ra := true, ext := 3 } f) →
      f.ext = 1 →
      Does (.move a f) s (fun t => let x := s.eng (axisEng a)
        t = { s with engs := t.engs, axes := t.axes } ∧ (∀ b : AxisId, b ≠ a → t.axis b = s.axis b) ∧ (∀ e : EngId, e ≠ axisEng a → t.eng e = s.eng e) ∧
        t.eng (axisEng a) = x.went (x.pc + 1) 1 ∧
        t.axis a = { s.axis a with cmds := (s.axis a).cmds ++ (if x.condTrue f.cond then [.move true (x.get f.ra).toInt] else []) })) ∧
  (∀ (a : AxisId) (f : ZscFields) (s : State),
      (s.Takes (axisEng a) 1 { ra := true, imm := true, ext := 3 } f) →
      f.ext = 2 →
      (s.eng (axisEng a)).addr f % 4 = 0 →
      (s.eng (axisEng a)).addr f < 1024 →
      Does (.move a f) s (fun t => let x := s.eng (axisEng a)
        t = { s with engs := t.engs, axes := t.axes } ∧ (∀ b : AxisId, b ≠ a → t.axis b = s.axis b) ∧ (∀ e : EngId, e ≠ axisEng a → t.eng e = s.eng e) ∧
        t.eng (axisEng a) = x.went (x.pc + 1) 1 ∧
        t.axis a = { s.axis a with cmds := (s.axis a).cmds ++ (if x.condTrue f.cond then [.move false (x.scratchWord ((x.addr f) / 4)).toInt] else []) })) ∧
  (∀ (a : AxisId) (f : ZscFields) (s : State),
      s.Takes (axisEng a) 1 { ra := true } f →
      Does (.jog a f) s (fun t => let x := s.eng (axisEng a)
        t = { s with engs := t.engs, axes := t.axes } ∧ (∀ b : AxisId, b ≠ a → t.axis b = s.axis b) ∧ (∀ e : EngId, e ≠ axisEng a → t.eng e = s.eng e) ∧
        t.eng (axisEng a) = x.went (x.pc + 1) 1 ∧
        t.axis a = { s.axis a with cmds := (s.axis a).cmds ++ (if x.condTrue f.cond then [.jog (x.get f.ra).toInt] else []) })) ∧
  (∀ (a : AxisId) (f : ZscFields) (s : State),
      s.Takes (axisEng a) 1 { ext := 1 } f →
      Does (.stop a f) s (fun t => let x := s.eng (axisEng a)
        t = { s with engs := t.engs, axes := t.axes } ∧ (∀ b : AxisId, b ≠ a → t.axis b = s.axis b) ∧ (∀ e : EngId, e ≠ axisEng a → t.eng e = s.eng e) ∧
        t.eng (axisEng a) = x.went (x.pc + 1) 1 ∧
        t.axis a = { s.axis a with cmds := (s.axis a).cmds ++ (if x.condTrue f.cond then [.stop (f.ext.getLsbD 0)] else []) })) ∧
  (∀ (a : AxisId) (f : ZscFields) (s : State),
      s.Takes (axisEng a) 1 { imm := decide (f.imm.toNat < 16384) } f →
      Does (.home a f) s (fun t => let x := s.eng (axisEng a)
        t = { s with engs := t.engs, axes := t.axes } ∧ (∀ b : AxisId, b ≠ a → t.axis b = s.axis b) ∧ (∀ e : EngId, e ≠ axisEng a → t.eng e = s.eng e) ∧
        t.eng (axisEng a) = x.went (x.pc + 1) 1 ∧
        t.axis a = { s.axis a with cmds := (s.axis a).cmds ++ (if x.condTrue f.cond then [.home (x.homeBlock f.imm.toNat)] else []) })) ∧
  (∀ (a : AxisId) (f : ZscFields) (s : State),
      s.Takes (axisEng a) 1 { ext := 0xFF } f →
      Does (.latch a f) s (fun t => let x := s.eng (axisEng a)
        t = { s with engs := t.engs, axes := t.axes } ∧ (∀ b : AxisId, b ≠ a → t.axis b = s.axis b) ∧ (∀ e : EngId, e ≠ axisEng a → t.eng e = s.eng e) ∧
        t.eng (axisEng a) = x.went (x.pc + 1) 1 ∧
        t.axis a = { s.axis a with cmds := (s.axis a).cmds ++ (if x.condTrue f.cond then [.latch (f.ext.toNat % 64) (f.ext.toNat / 64)] else []) })) ∧
  (∀ (a : AxisId) (f : ZscFields) (s : State),
      s.Takes (axisEng a) 1 { ext := 1 } f →
      Does (.drive a f) s (fun t => let x := s.eng (axisEng a)
        t = { s with engs := t.engs, axes := t.axes } ∧ (∀ b : AxisId, b ≠ a → t.axis b = s.axis b) ∧ (∀ e : EngId, e ≠ axisEng a → t.eng e = s.eng e) ∧
        t.eng (axisEng a) = x.went (x.pc + 1) 1 ∧
        t.axis a = { s.axis a with cmds := (s.axis a).cmds ++ (if x.condTrue f.cond then [.drive (f.ext.getLsbD 0)] else []) })) ∧
  (∀ (a : AxisId) (f : ZscFields) (s : State),
      s.Takes (axisEng a) 1 {} f →
      Does (.mswap a f) s (fun t => let x := s.eng (axisEng a)
        t = { s with engs := t.engs, axes := t.axes } ∧ (∀ b : AxisId, b ≠ a → t.axis b = s.axis b) ∧ (∀ e : EngId, e ≠ axisEng a → t.eng e = s.eng e) ∧
        t.eng (axisEng a) = x.went (x.pc + 1) 1 ∧
        t.axis a = { s.axis a with cmds := (s.axis a).cmds ++ (if x.condTrue f.cond then [.mswap] else []) })) ∧
  (∀ (a : AxisId) (f : ZscFields) (s : State),
      (s.Takes (axisEng a) 1 { ra := true, rb := true, ext := 3 } f) →
      (s.eng (axisEng a)).condTrue f.cond = true →
      Does (.gear a f) s (fun t => let x := s.eng (axisEng a)
        let ok : Bool := !s.overridden a && (if f.ext.getLsbD 0
          then (s.axis a).enabled && ratioOk (x.get f.ra).toInt (x.get f.rb).toInt else (s.axis a).atRest)
        t = { s with engs := t.engs, axes := t.axes } ∧ (∀ b : AxisId, b ≠ a → t.axis b = s.axis b) ∧ (∀ e : EngId, e ≠ axisEng a → t.eng e = s.eng e) ∧
        t.eng (axisEng a) = { x.went (x.pc + 1) 1 with z := ok } ∧
        t.axis a = { s.axis a with cmds := (s.axis a).cmds ++ (if ok then [.gear (f.ext.getLsbD 0) (b2n (f.ext.getLsbD 1)) (x.get f.ra).toInt (x.get f.rb).toInt] else []) })) ∧
  (∀ (a : AxisId) (f : ZscFields) (s : State),
      (s.Takes (axisEng a) 1 { ra := true, rb := true, ext := 1 } f) →
      (s.eng (axisEng a)).condTrue f.cond = true →
      Does (.setpos a f) s (fun t => let x := s.eng (axisEng a)
        let ok : Bool := !s.overridden a && (s.axis a).atRest && (s.axis a).gVel == 0
        t = { s with engs := t.engs, axes := t.axes } ∧ (∀ b : AxisId, b ≠ a → t.axis b = s.axis b) ∧ (∀ e : EngId, e ≠ axisEng a → t.eng e = s.eng e) ∧
        t.eng (axisEng a) = { x.went (x.pc + 1) 1 with z := ok } ∧
        t.axis a = { s.axis a with cmds := (s.axis a).cmds ++ (if ok then [.setpos (sgn 48 ((x.get f.rb).toNat % 2 ^ 16 * 2 ^ 32 + (x.get f.ra).toNat)) (f.ext.getLsbD 0)] else [.noSetpos]) })) ∧
  (∀ (a : AxisId) (f : ZscFields) (s : State),
      (s.Takes (axisEng a) 1 { rd := true, ext := 0x0F } f) →
      (s.eng (axisEng a)).condTrue f.cond = true →
      f.ext.toNat < 12 →
      Does (.astat a f) s (fun t => let x := s.eng (axisEng a); let y := s.axis a
        let hi (v : Int) : Nat := twos 32 (sext48 v / 2 ^ 32)
        let v : Nat := [s.motStat a, twos 32 y.enc, hi y.enc, twos 32 y.target, hi y.target, twos 32 y.velocity, s.eff a.val Off.MOT_DEV,
          s.eff a.val Off.MOT_LATCH_LO, s.eff a.val Off.MOT_LATCH_ENC_LO, s.gapWord a, s.eff 0 Off.MOT_MCNT0_LO, s.eff 0 Off.MOT_MCNT1_LO].getD f.ext.toNat 0
        let w : Word := BitVec.ofNat 32 v
        s.OnlyEng t (axisEng a) { (if f.rd = 0 then x else { x with g := x.g.set f.rd.toNat w }).went (x.pc + 1) 1 with
          z := decide (w = 0), n := w.msb, c := false, v := false }))

/-- A quadrature edge moves the encoder count by one in its direction, modulo 2^48, unless its level stands shorter than FILT, and an invalid one (both inputs at once) sets ENC_ERR and raises ENC_ERROR; a switch edge is timestamped with time, position and count; the standstill timer sets the hold current once the position has not changed for the time set; the chopper of a winding turns to decay at its upper threshold and to drive at its lower; adaptation moves its offset by the extremes of the windows around the changes of the chopper cycle that has ended; a table that waits is swapped at position 0 of the table or with the driver off; two samples above the limit turn the driver off and halt the axis. -/
def Obligations.MotionInputs : Prop :=
  (∀ (a : AxisId) (t0 : Nat) (pa pb pz ea eb : Bool) (width : Nat) (s : State),
      s.MemOk →
      ea = (pa && s.bankUp 17) →
      eb = (pb && s.bankUp 17) →
      (pz && s.bankUp 17) = (s.axis a).encZ →
      s.arf a Off.MOT_ENC_CFG 11 8 ≤ width →
      Does (.encoderEdge a ⟨t0, width⟩ pa pb pz) s (fun t =>
        let x := s.axis a
        (∀ b : AxisId, b ≠ a → t.axis b = s.axis b) ∧ { s with now := max s.now t0, axes := t.axes, regs := t.regs }.EventsOnly t [axisSrc a.val 8] ∧ s.SameRegs t (rkey a.val Off.MOT_STAT :: injKeys) ∧
        (if ea ≠ x.encA ∧ eb ≠ x.encB then
           t.axis a = { x with encA := ea, encB := eb } ∧ t.rf a.val Off.MOT_STAT 22 22 = 1 ∧ t.raisings (axisSrc a.val 8) = s.raisings (axisSrc a.val 8) + 1
         else
           let up : Int := if ea = x.encA ∧ eb = x.encB then 0 else if (if ea = x.encA then eb = ea else ea ≠ eb) then 1 else -1
           t.axis a = { x with encA := ea, encB := eb, enc := sext48 (x.enc + (if s.arf a Off.MOT_ENC_CFG 0 0 = 1 then -up else up)) } ∧ t.regs = s.regs))) ∧
  (∀ (a : AxisId) (t0 : Nat) (pa pb pz : Bool) (width : Nat) (s : State),
      (pz && s.bankUp 17) = (s.axis a).encZ →
      width < s.arf a Off.MOT_ENC_CFG 11 8 →
      Does (.encoderEdge a ⟨t0, width⟩ pa pb pz) s (fun t => t = { s with now := max s.now t0 })) ∧
  (∀ (a : AxisId) (t0 : Nat) (pa pb pz ez : Bool) (width : Nat) (s : State),
      ez = (pz && s.bankUp 17) →
      ez ≠ (s.axis a).encZ →
      (pa && s.bankUp 17) = (s.axis a).encA →
      (pb && s.bankUp 17) = (s.axis a).encB →
      s.arf a Off.MOT_ENC_CFG 11 8 ≤ width →
      (s.axis a).home = none →
      (∀ b : AxisId, (s.axis b).latchArm = none) →
      (∀ p : PortId, s.rf p.val Off.PRT_GEAR_LCFG 31 31 = 0) →
      Does (.encoderEdge a ⟨t0, width⟩ pa pb pz) s (fun t =>
        t = { s with now := max s.now t0, axes := t.axes } ∧ (∀ b : AxisId, b ≠ a → t.axis b = s.axis b) ∧
        t.axis a = { s.axis a with encZ := ez, enc := sext48 (s.axis a).enc, zEdge := some (ez, (s.at t0).axisPos a, sext48 (s.axis a).enc) })) ∧
  (∀ (a : AxisId) (j : Fin 4) (t0 : Nat) (pin level : Bool) (s : State),
      level = (pin && s.bankUp 16) →
      (s.axis a).home = none →
      (∀ b : AxisId, (s.axis b).latchArm = none) →
      (∀ p : PortId, s.rf p.val Off.PRT_GEAR_LCFG 31 31 = 0) →
      Does (.switchEdge a j t0 pin) s (fun t =>
        t = { s with now := max s.now t0, axes := t.axes } ∧ (∀ b : AxisId, b ≠ a → t.axis b = s.axis b) ∧
        t.axis a = (if (s.axis a).sw[j].raw = level then s.axis a else { s.axis a with sw := (s.axis a).sw.set j { (s.axis a).sw[j] with
          raw := level, edgeTime := max s.now t0, edgePos := (s.at t0).axisPos a, edgeEnc := (s.axis a).enc } }))) ∧
  (∀ (a : AxisId) (t0 : Nat) (s : State),
      Does (.holdCurrentTimer a t0) s (fun t => t = { s with now := max s.now t0, axes := t.axes } ∧ (∀ b : AxisId, b ≠ a → t.axis b = s.axis b) ∧
        t.axis a = (if (s.axis a).lastChange + s.arf a Off.MOT_CUR 31 24 * 1000000 ≤ max s.now t0 then { s.axis a with holdCur := true } else s.axis a))) ∧
  (∀ (a : AxisId) (w : Fin 2) (t0 : Nat) (code : BitVec 12) (s : State),
      Does (.chopperSwitch a w t0 code) s (fun t =>
        let it := (s.at t0).windingTarget sineT a w
        let x := (s.axis a).wind[w]
        let now := max s.now t0
        let cyc := (now - x.since) / 5
        let mag : Int := it.sign * ((code.toNat : Int) - s.zeroCode a w)
        let hyst : Int := s.arf a Off.MOT_CHOP 7 0
        t = { s with now := now, axes := t.axes } ∧ (∀ b : AxisId, b ≠ a → t.axis b = s.axis b) ∧
        t.axis a = { s.axis a with wind := (s.axis a).wind.set w (
          if it = 0 then { x with drive := false, sigma := 0 }
          else if x.sigma ≠ it.sign then { x with drive := true, sigma := it.sign, since := now, driveAt := now }
          else if x.drive = true ∧ s.arf a Off.MOT_CHOP 15 8 ≤ cyc ∧ (it.natAbs : Int) + hyst / 2 + x.o ≤ mag then { x with drive := false, since := now }
          else if x.drive = false ∧ max (s.arf a Off.MOT_CHOP 23 16) (s.arf a Off.MOT_CHOP 15 8) ≤ cyc ∧
            mag ≤ max ((it.natAbs : Int) - hyst / 2 + x.o) 0 then { x with drive := true, since := now, driveAt := now, ended := some (x.driveAt, x.since, now, x.sigma) }
          else x) })) ∧
  (∀ (a : AxisId) (w : Fin 2) (t0 : Nat) (samples : List (Nat × BitVec 12)) (s : State),
      s.MemOk →
      Does (.chopperAdapt a w t0 samples) s (fun t =>
        let it := (s.at t0).windingTarget sineT a w
        let now := max s.now t0
        let hyst : Int := s.arf a Off.MOT_CHOP 7 0
        let blank := 5 * s.arf a Off.MOT_CHOP 15 8
        let x := (s.axis a).wind[w]
        let y := (t.axis a).wind[w]
        let mags (sg : Int) (lo hi : Nat) : List Int := (samples.filter (fun e => decide (lo ≤ e.1 ∧ e.1 ≤ hi))).map (fun e => sg * ((e.2.toNat : Int) - s.zeroCode a w))
        (∀ b : AxisId, b ≠ a → t.axis b = s.axis b) ∧ t = { s with now := now, axes := t.axes, regs := t.regs, free := t.free } ∧ s.SameRegs t [rkey a.val Off.MOT_CHOP_STAT, rkey a.val Off.MOT_ISENSE] ∧
        t.axis a = { s.axis a with wind := (s.axis a).wind.set w { x with code := (samples.getLast?.map (fun e => e.2.toNat)).getD x.code, o := y.o, ended := y.ended } } ∧
        (let g := x.ended.getD (0, 0, 0, 0)
         let highs := mags g.2.2.2 g.1 (g.2.1 + blank)
         let lows := mags g.2.2.2 g.2.1 (g.2.2.1 + blank)
         if x.ended = none ∨ now < g.2.2.1 + blank then y.ended = x.ended ∧ y.o = x.o
         else y.ended = none ∧
           (if s.arf a Off.MOT_CHOP 31 31 = 1 ∧ hyst ≤ it.natAbs then
              (highs ≠ [] → lows ≠ [] → y.o = adaptOffset x.o hyst (s.arf a Off.MOT_CHOP 30 28) (highs.max?.getD 0) (lows.min?.getD 0) it.natAbs) ∧
              -hyst ≤ y.o ∧ y.o ≤ hyst ∧ t.rf a.val Off.MOT_CHOP_STAT (16 * w.val + 15) (16 * w.val) = twos 16 y.o
            else y.o = x.o)))) ∧
  (∀ (a : AxisId) (w : Fin 2) (code0 code1 : BitVec 12) (s : State),
      s.MemOk →
      Does (.overcurrent a w code0 code1) s (fun t =>
        let big (c : BitVec 12) : Bool := decide (s.arf a Off.MOT_OCLIM 11 0 < ((c.toNat : Int) - s.zeroCode a w).natAbs)
        (∀ b : AxisId, b ≠ a → t.axis b = s.axis b) ∧
        (if big code0 && big code1 then
           (t.axis a).enabled = false ∧ (t.axis a).homed = false ∧ t.rf a.val Off.MOT_STAT 21 21 = 1 ∧ t.raisings (axisSrc a.val 9) = s.raisings (axisSrc a.val 9) + 1 ∧
           (∀ k : Fin 2, (t.axis a).wind[k].drive = false ∧ (t.axis a).wind[k].sigma = 0) ∧
           (t.unit (unitOfAxis a)).st = (if (s.unit (unitOfAxis a)).st = .running ∨ (s.unit (unitOfAxis a)).st = .draining then .halted else (s.unit (unitOfAxis a)).st)
         else t.axis a = { s.axis a with wind := (s.axis a).wind.set w { (s.axis a).wind[w] with code := code1.toNat } } ∧
           t = { s with axes := t.axes, regs := t.regs } ∧ s.SameRegs t [rkey a.val Off.MOT_ISENSE]))) ∧
  (∀ (a : AxisId) (t0 : Nat) (s : State),
      s.MemOk →
      Does (.tableSwapped ⟨a, t0⟩) s (fun t =>
        (∀ b : AxisId, b ≠ a → t.axis b = s.axis b) ∧ (if (s.axis a).tblPend = true ∧ ((s.axis a).enabled = false ∨ (s.axis a).index ((s.at t0).axisPos a) % 256 = 0) then
           { s with now := max s.now t0, axes := t.axes, mstepNow := t.mstepNow }.EventsOnly t [axisSrc a.val 14] ∧ t.axis a = { s.axis a with tblPend := false } ∧
           (∀ j : Fin 256, mget sineT t.mstepNow (256 * a.val + j.val) = mget sineT s.mstepNext (256 * a.val + j.val)) ∧
           (∀ b : AxisId, b ≠ a → ∀ j : Fin 256, mget sineT t.mstepNow (256 * b.val + j.val) = mget sineT s.mstepNow (256 * b.val + j.val)) ∧
           t.raisings (axisSrc a.val 14) = s.raisings (axisSrc a.val 14) + 1
         else t = { s with now := max s.now t0 })))

/-- EDGE, BURST, SAMPLE, CLAMP and STROBE put an entry with the stamps and operands of the instruction at the end of the edge queue, take a cycle, and change no pin; bits of a tap mask that name the odd input of a pair are ignored; an entry to which a reason of Table 4.6 applies is not queued: PRT_GREJECT names reason and pc, PRT_GQUEUE counts it, GATE_REJECT is raised and the line in capture is dropped. GATE records the gate of the line in capture and QFREE gives the free entries of the edge queue. At its start the earliest entry of the queue leaves it and, while the port captures, acts: an EDGE sets its pin, a BURST runs over the level that its pin then holds, a STROBE of non-zero width raises its output; at the end of a strobe the output falls and its LREF steps to the next sub-line. (Where a command is not due, nothing happens: log entry 5.) -/
def Obligations.GateEntries : Prop :=
  (∀ (p : PortId) (f : ZscFields) (s : State),
      s.MemOk →
      (s.Takes (gateEng p) 1 { ra := true, imm := true, ext := 0x1F } f) →
      Does (.edge p f) s (fun t =>
        if (s.eng (gateEng p)).condTrue f.cond = false then s.OnlyEng t (gateEng p) ((s.eng (gateEng p)).went ((s.eng (gateEng p)).pc + 1) 1) else
        let x := s.eng (gateEng p)
        let st := (x.get f.ra + f.imm).toNat
        let y : EdgeEntry := { blankEntry 0 st with dest := f.ext.toNat % 16, level := f.ext.getLsbD 4 }
        let stop : Int := st
        s.Issued t p y (s.rejects p (s.issueTime p (4 + x.cyc)) { y with stop := stop.toNat } stop (false)) stop.toNat)) ∧
  (∀ (p : PortId) (f : ZscFields) (s : State),
      s.MemOk →
      (s.Takes (gateEng p) 1 { rd := true, ra := true, rb := true, imm := true, ext := 0x1F } f) →
      Does (.burst p f) s (fun t =>
        if (s.eng (gateEng p)).condTrue f.cond = false then s.OnlyEng t (gateEng p) ((s.eng (gateEng p)).went ((s.eng (gateEng p)).pc + 1) 1) else
        let x := s.eng (gateEng p)
        let st := (x.get f.ra + f.imm).toNat
        let y : EdgeEntry := { blankEntry 1 st with dest := f.ext.toNat % 16, level := !f.ext.getLsbD 4, period := (x.get f.rb).toNat % 65536, high := (x.get f.rb).toNat / 65536, count := (x.get f.rd).toNat }
        let stop : Int := (st : Int) + (((x.get f.rd).toNat : Int) - 1) * ((x.get f.rb).toNat % 65536 : Nat) + ((x.get f.rb).toNat / 65536 : Nat)
        s.Issued t p y (s.rejects p (s.issueTime p (4 + x.cyc)) { y with stop := stop.toNat } stop ((x.get f.rd) == 0 || decide ((x.get f.rb).toNat % 65536 < 2) || decide ((x.get f.rb).toNat / 65536 = 0) || decide ((x.get f.rb).toNat % 65536 ≤ (x.get f.rb).toNat / 65536))) stop.toNat)) ∧
  (∀ (p : PortId) (f : ZscFields) (s : State),
      s.MemOk →
      (s.Takes (gateEng p) 1 { rd := true, ra := true, rb := true, imm := true } f) →
      Does (.sample p f) s (fun t =>
        if (s.eng (gateEng p)).condTrue f.cond = false then s.OnlyEng t (gateEng p) ((s.eng (gateEng p)).went ((s.eng (gateEng p)).pc + 1) 1) else
        let x := s.eng (gateEng p)
        let st := (x.get f.ra + f.imm).toNat
        let y : EdgeEntry := { blankEntry 2 st with mask := (x.get f.rb).toNat % 65536, period := (x.get f.rb).toNat / 65536, count := (x.get f.rd).toNat }
        let stop : Int := (st : Int) + (((x.get f.rd).toNat : Int) - 1) * ((x.get f.rb).toNat / 65536 : Nat)
        s.Issued t p y (s.rejects p (s.issueTime p (4 + x.cyc)) { y with stop := stop.toNat } stop ((x.get f.rd) == 0 || s.periodShort p ((x.get f.rb).toNat % 65536) ((x.get f.rb).toNat / 65536))) stop.toNat)) ∧
  (∀ (p : PortId) (f : ZscFields) (s : State),
      s.MemOk →
      (s.Takes (gateEng p) 1 { rd := true, ra := true, rb := true, imm := true } f) →
      Does (.clamp p f) s (fun t =>
        if (s.eng (gateEng p)).condTrue f.cond = false then s.OnlyEng t (gateEng p) ((s.eng (gateEng p)).went ((s.eng (gateEng p)).pc + 1) 1) else
        let x := s.eng (gateEng p)
        let st := (x.get f.ra + f.imm).toNat
        let y : EdgeEntry := { blankEntry 3 st with mask := (x.get f.rb).toNat % 65536, count := (x.get f.rd).toNat }
        let stop : Int := ((st + (x.get f.rd).toNat : Nat) : Int)
        s.Issued t p y (s.rejects p (s.issueTime p (4 + x.cyc)) { y with stop := stop.toNat } stop ((x.get f.rd) == 0)) stop.toNat)) ∧
  (∀ (p : PortId) (f : ZscFields) (s : State),
      s.MemOk →
      (s.Takes (gateEng p) 1 { ra := true, imm := true, ext := 0x07 } f) →
      Does (.strobe p f) s (fun t =>
        if (s.eng (gateEng p)).condTrue f.cond = false then s.OnlyEng t (gateEng p) ((s.eng (gateEng p)).went ((s.eng (gateEng p)).pc + 1) 1) else
        let x := s.eng (gateEng p)
        let st := (x.get f.ra + f.imm).toNat
        let y : EdgeEntry := { blankEntry 4 st with dest := f.ext.toNat % 2, sub := f.ext.toNat / 2 % 4, count := s.strobeWidth p (f.ext.toNat % 2) (f.ext.toNat / 2 % 4) }
        let stop : Int := ((st + s.strobeWidth p (f.ext.toNat % 2) (f.ext.toNat / 2 % 4) : Nat) : Int)
        s.Issued t p y (s.rejects p (s.issueTime p (4 + x.cyc)) { y with stop := stop.toNat } stop (false)) stop.toNat)) ∧
  (∀ (p : PortId) (f : ZscFields) (s : State),
      (s.Takes (gateEng p) 1 { ra := true, rb := true, imm := true } f) →
      (s.eng (gateEng p)).condTrue f.cond = true →
      Does (.gate p f) s (fun t => let x := s.eng (gateEng p)
        t = { s with engs := t.engs, ports := t.ports } ∧ t.eng (gateEng p) = x.went (x.pc + 1) 1 ∧ (∀ d : EngId, d ≠ gateEng p → t.eng d = s.eng d) ∧
        (∀ q : PortId, q ≠ p → t.port q = s.port q) ∧ t.port p = { s.port p with cap := (s.port p).cap.map (fun l => { l with
          gateStart := (x.get f.ra + f.imm).toNat, gateEnd := max (x.get f.ra + f.imm).toNat (x.get f.rb).toNat }) })) ∧
  (∀ (p : PortId) (f : ZscFields) (s : State),
      s.Takes (gateEng p) 1 { rd := true } f →
      (s.eng (gateEng p)).condTrue f.cond = true →
      Does (.qfree p f) s (fun t => let x := s.eng (gateEng p)
        s.OnlyEng t (gateEng p) ((if f.rd = 0 then x else { x with g := x.g.set f.rd.toNat (BitVec.ofNat 32 (64 - (s.port p).gate.queue.length)) }).went (x.pc + 1) 1))) ∧
  (∀ (p : PortId) (s : State),
      Does (.edgeEntryStart p) s (fun t =>
        (nextEntry (s.port p).gate.queue = none → t = s) ∧ (∀ x ∈ nextEntry (s.port p).gate.queue,
          (∀ q : PortId, q ≠ p → t.port q = s.port q) ∧ t = { s with ports := t.ports, regs := t.regs } ∧ s.SameRegs t [rkey p.val Off.PRT_GQUEUE] ∧
          x ∉ (t.port p).gate.queue ∧ (∀ y ∈ (s.port p).gate.queue, y.start ≠ x.start → y ∈ (t.port p).gate.queue) ∧
          (∀ y ∈ (s.port p).gate.queue, x.start ≤ y.start) ∧ (∀ y ∈ (t.port p).gate.queue, y ∈ (s.port p).gate.queue) ∧
          (∀ d : Fin 12, (t.port p).gate.pins[d] = if s.driving p = true ∧ x.kind = 0 ∧ x.dest = d.val then x.level
            else if s.driving p = true ∧ x.kind = 1 ∧ x.dest = d.val then !x.level else (s.port p).gate.pins[d]) ∧
          (x.kind = 4 → x.dest < 2 → (t.port p).gate.strobes[x.dest]? = some (decide (s.driving p = true ∧ x.count ≠ 0) || ((s.port p).gate.strobes[x.dest]? == some true && !((s.port p).gate.active.any (fun a => a.sameDest x)))))))) ∧
  (∀ (p : PortId) (q : Fin 2) (s : State),
      Does (.strobeEnd p q) s (fun t =>
        t = { s with ports := t.ports } ∧ (∀ r : PortId, r ≠ p → t.port r = s.port r) ∧
        ((s.port p).gate.active.find? (fun (a : EdgeEntry) => a.kind == 4 && a.dest == q.val) = none → t = s) ∧
        (∀ a ∈ (s.port p).gate.active.find? (fun (a : EdgeEntry) => a.kind == 4 && a.dest == q.val), (t.port p).gate.strobes = (s.port p).gate.strobes.set q false ∧
             (t.port p).gate.lrefSub = (s.port p).gate.lrefSub.set q (if a.sub = s.rf p.val Off.PRT_GCFG 29 28 then 0 else (a.sub + 1) % 4) ∧
             (t.port p).gate.pins = (s.port p).gate.pins ∧ (t.port p).gate.queue = (s.port p).gate.queue ∧
             (∀ b ∈ (t.port p).gate.active, ¬ (b.kind = 4 ∧ b.dest = q.val)))))

/-- With polling on and the bank powered, an acknowledged poll finds a head, and the third poll in a row that is missed loses it: PRT_HEAD_STAT goes to NONE and HEAD_REMOVED is raised. A descriptor read starts 20 ms after the head was found or at once on READ; when it ends, PRT_HEAD_STAT says VALID or INVALID with the first check that failed, and HEAD_INSERTED or HEAD_INVALID is raised. (Polls that a head never answered, and the fields of PRT_HEAD_STAT cleared on removal, are log entry 175; the drain at the next tick is log entry 106.) (Where a command is not due, nothing happens: log entry 5.) -/
def Obligations.Heads : Prop :=
  (∀ (p : PortId) (ack : Bool) (s : State),
      s.MemOk →
      Does (.headPoll p ack) s (fun t =>
        let h := (s.port p).head
        (∀ q : PortId, q ≠ p → t.port q = s.port q) ∧
        (if s.rf p.val Off.PRT_HEAD_CTL 15 8 = 0 ∨ h.bankOk = false ∨ (ack = false ∧ h.present = false) then t = s
         else if ack then { s with ports := t.ports, regs := t.regs }.EventsOnly t [] ∧
           (t.port p).head = { h with missed := 0, present := true, insertAt := if h.present then h.insertAt else some s.now } ∧
           s.SameRegs t [rkey p.val Off.PRT_HEAD_STAT] ∧ t.rf p.val Off.PRT_HEAD_STAT 3 3 = 1
         else if 2 ≤ h.missed then { s with ports := t.ports, regs := t.regs }.EventsOnly t [portSrc p.val 3] ∧
           (t.port p).head.present = false ∧ (t.port p).head.desc = [] ∧ t.eff p.val Off.PRT_HEAD_STAT = 0 ∧
           (t.port p).head.gone = decide (s.portState p = .running) ∧ t.raisings (portSrc p.val 3) = s.raisings (portSrc p.val 3) + 1
         else t = { s with ports := t.ports } ∧ (t.port p).head = { h with missed := h.missed + 1 }))) ∧
  (∀ (p : PortId) (s : State),
      s.MemOk →
      Does (.headInsertDelay p) s (fun t =>
        ((s.port p).head.insertAt = none → t = s) ∧
        (∀ w ∈ (s.port p).head.insertAt, if (s.port p).head.reading then t = s
          else t = { s with now := max s.now (w + 20000000), ports := t.ports, regs := t.regs } ∧ (∀ q : PortId, q ≠ p → t.port q = s.port q) ∧
            t.port p = { s.port p with head := { (s.port p).head with reading := true, insertAt := none } } ∧
            s.SameRegs t [rkey p.val Off.PRT_HEAD_STAT] ∧ t.rf p.val Off.PRT_HEAD_STAT 1 0 = 1))) ∧
  (∀ (c : CtxId) (v : Word) (s : State) (p : PortId),
      s.MemOk →
      s.Serves c Off.PRT_HEAD_CTL true →
      (s.ctxs[c]).selPort.toNat = p.val →
      Does (.reread c v) s (fun t =>
        t = { s with ports := t.ports, regs := t.regs, jrnl := t.jrnl } ∧ (∀ q : PortId, q ≠ p → t.port q = s.port q) ∧
        t.port p = (if v.getLsbD 0 ∧ (s.port p).head.reading = false then { s.port p with head := { (s.port p).head with reading := true } } else s.port p) ∧
        s.SameRegs t [rkey p.val Off.PRT_HEAD_STAT, rkey p.val Off.PRT_HEAD_CTL] ∧ t.rf p.val Off.PRT_HEAD_CTL 15 8 = fld v.toNat 15 8 ∧
        (v.getLsbD 0 = true → (s.port p).head.reading = false → t.rf p.val Off.PRT_HEAD_STAT 1 0 = 1))) ∧
  (∀ (p : PortId) (acked : Bool) (bytes : List Byte) (s : State),
      s.MemOk →
      Does (.descriptorReadDone p acked bytes) s (fun t =>
        if (s.port p).head.reading = false then t = s else
        let d := if leAt bytes 2 1 = 2 then bytes.take 160 else bytes.take 64
        let err := descCheck acked d
        let src := portSrc p.val (if err = 0 then 1 else 2)
        { s with ports := t.ports, regs := t.regs }.EventsOnly t [src] ∧ t.raisings src = s.raisings src + 1 ∧
        (∀ q : PortId, q ≠ p → t.port q = s.port q) ∧ t.port p = { s.port p with head := { (s.port p).head with reading := false, desc := d } } ∧
        s.SameRegs t (rkey p.val Off.PRT_HEAD_STAT :: injKeys) ∧
        t.rf p.val Off.PRT_HEAD_STAT 1 0 = (if err = 0 then 2 else 3) ∧ t.rf p.val Off.PRT_HEAD_STAT 7 4 = err ∧
        (acked = false → err = 1) ∧ t.rf p.val Off.PRT_HEAD_STAT 3 3 = b2n (s.port p).head.present))

/-- A sample of a tap takes the next stamp of the windows that run; its raw code is 8192 + floor(16384 Vd / FS), Vd in the range in force, plus the error of the slice, saturated to 0 to 16383; the slice that takes it corrects it by offset and gain, saturated; the watch, while it is enabled, and the background sums, while background correction runs, count it in its slot up to the end of their block, and the line in capture takes it, inverted where INV says so. A disabled or lost input delivers 0. A sample that comes too soon after the one in the same slot raises TAP_PACE and drops the line. With no window running nothing happens. (The next stamp is named by a function of the model; nothing with no window is log entry 5; the slices' errors are operands, the drop on an input that is disabled or lost log entry 197.) -/
def Obligations.TapSamples : Prop :=
  (∀ (p : PortId) (t : Fin 16) (v : TapIn) (s : State),
      s.nextStamp p t = none →
      Does (.tapSample p t v) s (fun r => r = s)) ∧
  (∀ (p : PortId) (t : Fin 16) (v : TapIn) (s : State) (st win : Nat),
      (s.nextStamp p t = some (st, win)) →
      (s.slotCount p t.val ≤ (s.port p).conv[t].stamps.length → s.freq p ≤ (st - (s.port p).conv[t].stamps.getD (s.slotCount p t.val - 1) 0) * 2 ^ 24) →
      s.inputOn p t.val = true →
      s.inputLost p t = false →
      Does (.tapSample p t v) s (fun r =>
        let x := (s.port p).conv[t]
        let fs : Int := [250, 350, 500, 700, 1000, 1400, 2000, 2500].getD (s.rangeNow p t.val) 0
        let raw : Int := max 0 (min 16383 (max 0 (min 16383 (8192 + 16384 * v.vd / (1000 * fs))) + v.err))
        let sl := s.sliceOf p t x.stamps.length
        let co := (s.port p).conv[sl.1].coef.getD sl.2 (0, 32768, 0)
        let y := (max 0 (min 16383 (((raw - 8192 - co.1) * (co.2.1 : Int) + 2 ^ 14) / 2 ^ 15 + 8192))).toNat
        let j := x.stamps.length % s.slotCount p t.val
        r = { s with ports := r.ports } ∧ (∀ q : PortId, q ≠ p → r.port q = s.port q) ∧ (∀ u : Fin 16, u ≠ t → (r.port p).conv[u] = (s.port p).conv[u]) ∧
        r.port p = { s.port p with conv := (r.port p).conv, cap := (r.port p).cap } ∧
        (r.port p).conv[t] = { x with stamps := st :: x.stamps, prev := some (win, y), watch := (r.port p).conv[t].watch, bg := (r.port p).conv[t].bg } ∧
        (r.port p).conv[t].watch = (if s.rf p.val Off.PRT_WATCH 0 0 = 0 ∨ 2 ^ x.watchLog ≤ x.watch.n.getD j 0 then x.watch else { x.watch with n := x.watch.n.set j (x.watch.n.getD j 0 + 1), s := x.watch.s.set j (x.watch.s.getD j 0 + y), a := x.watch.a.set j (x.watch.a.getD j 0 + ((y : Int) - 8192).natAbs) }) ∧
        (if s.bgRuns p t = true ∧ x.bg.n.getD j 0 < 65536 then
          (r.port p).conv[t].bg.n = x.bg.n.set j (x.bg.n.getD j 0 + 1) ∧ (r.port p).conv[t].bg.s = x.bg.s.set j (x.bg.s.getD j 0 + y) ∧
          (r.port p).conv[t].bg.a = x.bg.a.set j (x.bg.a.getD j 0 + ((y : Int) - 8192).natAbs) ∧
          (r.port p).conv[t].bg.q = (match x.prev with | some e => if e.1 = win then x.bg.q.set j (x.bg.q.getD j 0 + ((y : Int) - e.2).natAbs ^ 2) else x.bg.q | none => x.bg.q) ∧
          (r.port p).conv[t].bg.c = (match x.prev with | some e => if e.1 = win then x.bg.c.set j (x.bg.c.getD j 0 + 1) else x.bg.c | none => x.bg.c)
          else (r.port p).conv[t].bg = x.bg) ∧
        (r.port p).cap = (s.port p).cap.map (fun (l : LineRec) => { l with samples := (t.val, (if bitN (s.rf p.val Off.PRT_FE_INV 15 0) t.val then 16383 - y else y) :: (l.samples.lookup t.val).getD []) :: l.samples.filter (fun e => e.1 != t.val) }))) ∧
  (∀ (p : PortId) (t : Fin 16) (v : TapIn) (s : State) (st win : Nat),
      (s.nextStamp p t = some (st, win)) →
      (s.slotCount p t.val ≤ (s.port p).conv[t].stamps.length → s.freq p ≤ (st - (s.port p).conv[t].stamps.getD (s.slotCount p t.val - 1) 0) * 2 ^ 24) →
      (s.inputOn p t.val = false ∨ s.inputLost p t = true) →
      Does (.tapSample p t v) s (fun r => r = { s with ports := r.ports } ∧ (∀ q : PortId, q ≠ p → r.port q = s.port q) ∧ (∀ u : Fin 16, u ≠ t → (r.port p).conv[u] = (s.port p).conv[u]) ∧
        r.port p = { s.port p with conv := (r.port p).conv, cap := (r.port p).cap } ∧
        (r.port p).conv[t] = { (s.port p).conv[t] with stamps := st :: (s.port p).conv[t].stamps } ∧
        (r.port p).cap = (s.port p).cap.map (fun (l : LineRec) => { l with samples := (t.val, 0 :: (l.samples.lookup t.val).getD []) :: l.samples.filter (fun e => e.1 != t.val) }))) ∧
  (∀ (p : PortId) (t : Fin 16) (v : TapIn) (s : State) (st win : Nat),
      s.MemOk →
      (s.nextStamp p t = some (st, win)) →
      s.slotCount p t.val ≤ (s.port p).conv[t].stamps.length →
      (st - (s.port p).conv[t].stamps.getD (s.slotCount p t.val - 1) 0) * 2 ^ 24 < s.freq p →
      s.inputOn p t.val = true →
      s.inputLost p t = false →
      Does (.tapSample p t v) s (fun r =>
        let x := (s.port p).conv[t]
        let fs : Int := [250, 350, 500, 700, 1000, 1400, 2000, 2500].getD (s.rangeNow p t.val) 0
        let raw : Int := max 0 (min 16383 (max 0 (min 16383 (8192 + 16384 * v.vd / (1000 * fs))) + v.err))
        let sl := s.sliceOf p t x.stamps.length
        let co := (s.port p).conv[sl.1].coef.getD sl.2 (0, 32768, 0)
        let y := (max 0 (min 16383 (((raw - 8192 - co.1) * (co.2.1 : Int) + 2 ^ 14) / 2 ^ 15 + 8192))).toNat
        let j := x.stamps.length % s.slotCount p t.val
        (∀ q : PortId, q ≠ p → r.port q = s.port q) ∧ (∀ u : Fin 16, u ≠ t → (r.port p).conv[u] = (s.port p).conv[u]) ∧
        r.port p = { s.port p with conv := (r.port p).conv, cap := (r.port p).cap, lostRec := (r.port p).lostRec } ∧
        (r.port p).conv[t] = { x with stamps := st :: x.stamps, prev := some (win, y), watch := (r.port p).conv[t].watch, bg := (r.port p).conv[t].bg } ∧
        (r.port p).conv[t].watch = (if s.rf p.val Off.PRT_WATCH 0 0 = 0 ∨ 2 ^ x.watchLog ≤ x.watch.n.getD j 0 then x.watch else { x.watch with n := x.watch.n.set j (x.watch.n.getD j 0 + 1), s := x.watch.s.set j (x.watch.s.getD j 0 + y), a := x.watch.a.set j (x.watch.a.getD j 0 + ((y : Int) - 8192).natAbs) }) ∧
        (if s.bgRuns p t = true ∧ x.bg.n.getD j 0 < 65536 then
          (r.port p).conv[t].bg.n = x.bg.n.set j (x.bg.n.getD j 0 + 1) ∧ (r.port p).conv[t].bg.s = x.bg.s.set j (x.bg.s.getD j 0 + y) ∧
          (r.port p).conv[t].bg.a = x.bg.a.set j (x.bg.a.getD j 0 + ((y : Int) - 8192).natAbs) ∧
          (r.port p).conv[t].bg.q = (match x.prev with | some e => if e.1 = win then x.bg.q.set j (x.bg.q.getD j 0 + ((y : Int) - e.2).natAbs ^ 2) else x.bg.q | none => x.bg.q) ∧
          (r.port p).conv[t].bg.c = (match x.prev with | some e => if e.1 = win then x.bg.c.set j (x.bg.c.getD j 0 + 1) else x.bg.c | none => x.bg.c)
          else (r.port p).conv[t].bg = x.bg) ∧
        (r.port p).lostRec = (match (s.port p).cap with | some l => if l.dropped = true ∨ l.overlap = true then (s.port p).lostRec else (s.port p).lostRec ++ [(l.n, 1)] | none => (s.port p).lostRec) ∧
        (r.port p).cap = (s.port p).cap.map (fun (l : LineRec) => { l with dropped := true, samples := (t.val, (if bitN (s.rf p.val Off.PRT_FE_INV 15 0) t.val then 16383 - y else y) :: (l.samples.lookup t.val).getD []) :: l.samples.filter (fun e => e.1 != t.val) }) ∧
        r.raisings (portSrc p.val 6) = s.raisings (portSrc p.val 6) + 1 ∧
        r.raisings (portSrc p.val 0) = s.raisings (portSrc p.val 0) + (if (s.port p).cap.any (fun l => !l.dropped) then 1 else 0) ∧
        { s with ports := r.ports }.EventsOnly r [portSrc p.val 6, portSrc p.val 0])) ∧
  (∀ (p : PortId) (t : Fin 16) (v : TapIn) (s : State) (st win : Nat),
      s.MemOk →
      (s.nextStamp p t = some (st, win)) →
      s.slotCount p t.val ≤ (s.port p).conv[t].stamps.length →
      (st - (s.port p).conv[t].stamps.getD (s.slotCount p t.val - 1) 0) * 2 ^ 24 < s.freq p →
      (s.inputOn p t.val = false ∨ s.inputLost p t = true) →
      Does (.tapSample p t v) s (fun r => (∀ q : PortId, q ≠ p → r.port q = s.port q) ∧ (∀ u : Fin 16, u ≠ t → (r.port p).conv[u] = (s.port p).conv[u]) ∧
        r.port p = { s.port p with conv := (r.port p).conv, cap := (r.port p).cap, lostRec := (r.port p).lostRec } ∧
        (r.port p).conv[t] = { (s.port p).conv[t] with stamps := st :: (s.port p).conv[t].stamps } ∧
        (r.port p).lostRec = (match (s.port p).cap with | some l => if l.dropped = true ∨ l.overlap = true then (s.port p).lostRec else (s.port p).lostRec ++ [(l.n, 1)] | none => (s.port p).lostRec) ∧
        (r.port p).cap = (s.port p).cap.map (fun (l : LineRec) => { l with dropped := true, samples := (t.val, 0 :: (l.samples.lookup t.val).getD []) :: l.samples.filter (fun e => e.1 != t.val) }) ∧
        r.raisings (portSrc p.val 6) = s.raisings (portSrc p.val 6) + 1 ∧
        r.raisings (portSrc p.val 0) = s.raisings (portSrc p.val 0) + (if (s.port p).cap.any (fun l => !l.dropped) then 1 else 0) ∧
        { s with ports := r.ports }.EventsOnly r [portSrc p.val 6, portSrc p.val 0]))

/-- With bit t of PRT_FE_INV set, a sample of input t is delivered to the line in capture as 16383 − y in place of the corrected code y, without it as y; with the bit set, a code that is no higher is delivered for a video level that is no lower. -/
def Obligations.InvertedInputs : Prop :=
  (∀ (p : PortId) (t : Fin 16) (v : TapIn) (s : State) (st win : Nat),
      (s.nextStamp p t = some (st, win)) →
      s.inputOn p t.val = true →
      s.inputLost p t = false →
      Does (.tapSample p t v) s (fun r =>
        let x := (s.port p).conv[t]
        let fs : Int := [250, 350, 500, 700, 1000, 1400, 2000, 2500].getD (s.rangeNow p t.val) 0
        let raw : Int := max 0 (min 16383 (max 0 (min 16383 (8192 + 16384 * v.vd / (1000 * fs))) + v.err))
        let sl := s.sliceOf p t x.stamps.length
        let co := (s.port p).conv[sl.1].coef.getD sl.2 (0, 32768, 0)
        let y := (max 0 (min 16383 (((raw - 8192 - co.1) * (co.2.1 : Int) + 2 ^ 14) / 2 ^ 15 + 8192))).toNat
        (r.port p).cap.map (fun l => l.samples) = (s.port p).cap.map (fun (l : LineRec) => (t.val, (if bitN (s.rf p.val Off.PRT_FE_INV 15 0) t.val then 16383 - y else y) :: (l.samples.lookup t.val).getD []) :: l.samples.filter (fun e => e.1 != t.val)) ∧ y ≤ 16383)) ∧
  (∀ (p : PortId) (t : Fin 16) (v v2 : TapIn) (s : State) (st win : Nat),
      (s.nextStamp p t = some (st, win)) →
      s.inputOn p t.val = true →
      s.inputLost p t = false →
      bitN (s.rf p.val Off.PRT_FE_INV 15 0) t.val = true →
      v.vd ≤ v2.vd →
      v.err = v2.err →
      Does (.tapSample p t v) s (fun r => Does (.tapSample p t v2) s (fun r2 =>
        ∀ l ∈ (r.port p).cap, ∀ l2 ∈ (r2.port p).cap, ((l2.samples.lookup t.val).getD []).headD 0 ≤ ((l.samples.lookup t.val).getD []).headD 0)))

/-- When the rotation period of a converter ends with ROT_EN set, a swap is due, and off RUNNING a ready slice swaps at once (of a pair that rotates both, and only when both can): it enters the slot of the next slice, which leaves service; with ROT_EN 0 the out-of-service slice calibrates again. A calibration gives the offset, gain and skew of R141 within their limits and makes the slice ready; one that fails is a detected fault of the port with code 1. CAL_NOW asks every ready converter to swap at the next line tick, and BG_ALWAYS set starts new background blocks on the converters that the correction did not run on. (That the converter of a disabled input goes on is log entry 197, that the port drives on while a fault costs no line log entry 177; where nothing happens log entry 5.) -/
def Obligations.RotationAndCalibration : Prop :=
  (∀ (p : PortId) (t : Fin 16) (s : State),
      ((s.port p).conv[t].out = none ∨ (s.port p).conv[t].retired ≠ 0) →
      Does (.rotationDue p t) s (fun r => r = s)) ∧
  (∀ (p : PortId) (t : Fin 16) (s : State) (o : Nat),
      (s.port p).conv[t].out = some o →
      (s.port p).conv[t].retired = 0 →
      s.rf p.val Off.PRT_CONV_CTL 16 16 = 0 →
      Does (.rotationDue p t) s (fun r => r = { s with ports := r.ports } ∧ (∀ q : PortId, q ≠ p → r.port q = s.port q) ∧ (∀ u : Fin 16, u ≠ t → (r.port p).conv[u] = (s.port p).conv[u]) ∧ r.port p = { s.port p with conv := (r.port p).conv } ∧
        (r.port p).conv[t] = { (s.port p).conv[t] with ready := false, period := max 100 (s.rf p.val Off.PRT_CONV_CTL 15 0) })) ∧
  (∀ (p : PortId) (t : Fin 16) (s : State) (o : Nat),
      (s.port p).conv[t].out = some o →
      (s.port p).conv[t].retired = 0 →
      s.rf p.val Off.PRT_CONV_CTL 16 16 = 1 →
      (s.driving p = true ∨ (s.port p).conv[t].ready = false ∨ (s.pairMode p t.val = true ∧ s.rotates p (pairMate t) = true ∧ s.canSwap p (pairMate t) false = false)) →
      Does (.rotationDue p t) s (fun r => r = { s with ports := r.ports } ∧ (∀ q : PortId, q ≠ p → r.port q = s.port q) ∧ (∀ u : Fin 16, u ≠ t → (r.port p).conv[u] = (s.port p).conv[u]) ∧ r.port p = { s.port p with conv := (r.port p).conv } ∧
        (r.port p).conv[t] = { (s.port p).conv[t] with due := true })) ∧
  (∀ (p : PortId) (t : Fin 16) (s : State) (o : Nat),
      s.MemOk →
      (s.port p).conv[t].out = some o →
      (s.port p).conv[t].retired = 0 →
      s.rf p.val Off.PRT_CONV_CTL 16 16 = 1 →
      s.driving p = false →
      (s.pairMode p t.val && s.rotates p (pairMate t)) = false →
      (s.port p).conv[t].ready = true →
      Does (.rotationDue p t) s (fun r => r = { s with ports := r.ports, regs := r.regs } ∧ (∀ q : PortId, q ≠ p → r.port q = s.port q) ∧ (∀ u : Fin 16, u ≠ t → (r.port p).conv[u] = (s.port p).conv[u]) ∧ r.port p = { s.port p with conv := (r.port p).conv } ∧
        (r.port p).conv[t] = { (s.port p).conv[t] with slots := (s.port p).conv[t].slots.map (fun k => if k = (o + 1) % 5 then o else k), out := some ((o + 1) % 5), ready := false, due := false, calNow := false, period := max 100 (s.rf p.val Off.PRT_CONV_CTL 15 0), bgNext := (s.port p).conv[t].bgNext.filter (fun e => e.1 != (o + 1) % 5) } ∧
        s.SameRegs r [rkey p.val Off.PRT_ROT_COUNT] ∧ r.eff p.val Off.PRT_ROT_COUNT = (s.eff p.val Off.PRT_ROT_COUNT + 1) % 2 ^ 32)) ∧
  (∀ (p : PortId) (t : Fin 16) (s : State) (o : Nat),
      s.MemOk →
      (s.port p).conv[t].out = some o →
      (s.port p).conv[t].retired = 0 →
      s.rf p.val Off.PRT_CONV_CTL 16 16 = 1 →
      s.driving p = false →
      s.pairMode p t.val = true →
      s.canSwap p (pairMate t) false = true →
      (s.port p).conv[t].ready = true →
      Does (.rotationDue p t) s (fun r => (r.port p).conv[t] = { (s.port p).conv[t] with slots := (s.port p).conv[t].slots.map (fun k => if k = (o + 1) % 5 then o else k), out := some ((o + 1) % 5), ready := false, due := false, calNow := false, period := max 100 (s.rf p.val Off.PRT_CONV_CTL 15 0), bgNext := (s.port p).conv[t].bgNext.filter (fun e => e.1 != (o + 1) % 5) } ∧ (r.port p).conv[pairMate t] = ((s.port p).conv[pairMate t]).swap (max 100 (s.rf p.val Off.PRT_CONV_CTL 15 0)) ∧
        s.SameRegs r [rkey p.val Off.PRT_ROT_COUNT] ∧ r.eff p.val Off.PRT_ROT_COUNT = (s.eff p.val Off.PRT_ROT_COUNT + 2) % 2 ^ 32)) ∧
  (∀ (p : PortId) (t : Fin 16) (sLo sHi spread : Nat) (ms : List Nat) (s : State),
      ((s.port p).conv[t].out = none ∨ (s.port p).conv[t].ready = true) →
      Does (.sliceCalDone p t sLo sHi spread ms) s (fun r => r = s)) ∧
  (∀ (p : PortId) (t : Fin 16) (sLo sHi spread : Nat) (ms : List Nat) (s : State) (o : Nat) (c : Int × Nat × Int),
      (s.port p).conv[t].out = some o →
      (s.port p).conv[t].ready = false →
      calibrate sLo sHi spread ms = some c →
      s.driving p = true →
      Does (.sliceCalDone p t sLo sHi spread ms) s (fun r => r = { s with ports := r.ports } ∧ (∀ q : PortId, q ≠ p → r.port q = s.port q) ∧ (∀ u : Fin 16, u ≠ t → (r.port p).conv[u] = (s.port p).conv[u]) ∧ r.port p = { s.port p with conv := (r.port p).conv } ∧
        (r.port p).conv[t] = { (s.port p).conv[t] with ready := true, coef := (s.port p).conv[t].coef.set o c, lastCal := (s.port p).conv[t].lastCal.set o c, cals := (s.port p).conv[t].cals.set o (((s.port p).conv[t].cals.getD o 0 + 1) % 256) } ∧ c.1 = ((sLo : Int) + sHi + 256) / 512 - 8192 ∧ (c.2.1 : Int) = (12288 * 2 ^ 23 + ((sHi : Int) - sLo) / 2) / ((sHi : Int) - sLo) ∧
        -512 ≤ c.1 ∧ c.1 ≤ 511 ∧ 24576 ≤ c.2.1 ∧ c.2.1 ≤ 40960 ∧ -99 ≤ c.2.2 ∧ c.2.2 ≤ 100 ∧
        524288 ≤ ms.getD (c.2.2 + 100).toNat 0 ∧ ms.getD (c.2.2 + 99).toNat 0 < 524288)) ∧
  (∀ (p : PortId) (t : Fin 16) (sLo sHi spread : Nat) (ms : List Nat) (s : State) (o : Nat) (c : Int × Nat × Int),
      s.MemOk →
      (s.port p).conv[t].out = some o →
      (s.port p).conv[t].ready = false →
      calibrate sLo sHi spread ms = some c →
      s.driving p = false →
      (s.pairMode p t.val && s.rotates p (pairMate t)) = false →
      (s.port p).conv[t].retired = 0 →
      (s.port p).conv[t].due = true →
      s.rf p.val Off.PRT_CONV_CTL 16 16 = 1 →
      Does (.sliceCalDone p t sLo sHi spread ms) s (fun r => r = { s with ports := r.ports, regs := r.regs } ∧ (∀ q : PortId, q ≠ p → r.port q = s.port q) ∧ (∀ u : Fin 16, u ≠ t → (r.port p).conv[u] = (s.port p).conv[u]) ∧ r.port p = { s.port p with conv := (r.port p).conv } ∧
        s.SameRegs r [rkey p.val Off.PRT_ROT_COUNT] ∧ r.eff p.val Off.PRT_ROT_COUNT = (s.eff p.val Off.PRT_ROT_COUNT + 1) % 2 ^ 32 ∧
        (r.port p).conv[t] = { (s.port p).conv[t] with slots := (s.port p).conv[t].slots.map (fun k => if k = (o + 1) % 5 then o else k), out := some ((o + 1) % 5), ready := false, due := false, calNow := false, period := max 100 (s.rf p.val Off.PRT_CONV_CTL 15 0), bgNext := (s.port p).conv[t].bgNext.filter (fun e => e.1 != (o + 1) % 5), coef := (s.port p).conv[t].coef.set o c, lastCal := (s.port p).conv[t].lastCal.set o c, cals := (s.port p).conv[t].cals.set o (((s.port p).conv[t].cals.getD o 0 + 1) % 256) })) ∧
  (∀ (p : PortId) (t : Fin 16) (sLo sHi spread : Nat) (ms : List Nat) (s : State) (o : Nat),
      s.MemOk →
      (s.port p).conv[t].out = some o →
      (s.port p).conv[t].ready = false →
      calibrate sLo sHi spread ms = none →
      (s.unit (unitOfPort p)).st = .halted →
      (s.unit (unitOfPort p)).cut = none →
      Does (.sliceCalDone p t sLo sHi spread ms) s (fun r => r.faults = s.faults ++ [{ kind := 1, unit := p.val, code := 1, arg := t.val, arg2 := o, time := s.now }] ∧
        (r.unit (unitOfPort p)).st = .faulted ∧ (r.unit (unitOfPort p)).prior = .halted ∧ r.ports = s.ports ∧ r.now = s.now ∧
        r.raisings (portSrc p.val 33) = s.raisings (portSrc p.val 33) + 1 ∧ (∀ u : UnitId, u ≠ unitOfPort p → r.unit u = s.unit u))) ∧
  (∀ (c : CtxId) (v : Word) (s : State) (p : PortId),
      s.MemOk →
      s.Serves c Off.PRT_CONV_CTL true →
      (s.ctxs[c]).selPort.toNat = p.val →
      Does (.calNow c v) s (fun r => r = { s with ports := r.ports, regs := r.regs, jrnl := r.jrnl } ∧ (∀ q : PortId, q ≠ p → r.port q = s.port q) ∧
        (∀ t : Fin 16, (r.port p).conv[t] = { (s.port p).conv[t] with
          calNow := (s.port p).conv[t].calNow || (v.getLsbD 31 && (s.port p).conv[t].ready && (s.port p).conv[t].out.isSome),
          bg := (if v.getLsbD 17 = true ∧ s.rf p.val Off.PRT_CONV_CTL 17 17 = 0 ∧ s.bgRuns p t = false then SlotSums.empty else (s.port p).conv[t].bg) }) ∧
        r.port p = { s.port p with conv := (r.port p).conv } ∧ s.SameRegs r [rkey p.val Off.PRT_CONV_CTL] ∧ r.rf p.val Off.PRT_CONV_CTL 17 0 = fld v.toNat 17 0))

/-- A full watch block starts a new one; each suspect slot is a detected fault of the port with code 2, which drops the line in capture; the second and later ones join the first (R381). A full background block gives the corrections that the next line tick puts in force, and one that changes none sets BG_CONV; an earlier end does nothing. A clamp that starts to conduct sets ACTIVE and FLAG and raises INPUT_OVERVOLT; ACTIVE follows it; a FLAG bit cleared while its clamp conducts sets again with a new event. (Where a command is not due, nothing happens: log entry 5.) -/
def Obligations.WatchBackgroundAndClamps : Prop :=
  (∀ (p : PortId) (t : Fin 16) (s : State),
      (s.rf p.val Off.PRT_WATCH 0 0 = 0 ∨ s.inputOn p t.val = false ∨ ((s.port p).conv[t].watch.n.take (s.slotCount p t.val)).any (fun k => decide (k < 2 ^ (s.port p).conv[t].watchLog)) = true) →
      Does (.watchBlockEnd p t) s (fun r => r = s)) ∧
  (∀ (p : PortId) (t : Fin 16) (s : State),
      s.rf p.val Off.PRT_WATCH 0 0 = 1 →
      s.inputOn p t.val = true →
      ((s.port p).conv[t].watch.n.take (s.slotCount p t.val)).all (fun k => decide (2 ^ (s.port p).conv[t].watchLog ≤ k)) = true →
      suspects ((s.port p).conv[t].watch.s.take (s.slotCount p t.val)) ((s.port p).conv[t].watch.a.take (s.slotCount p t.val)) (2 ^ (s.port p).conv[t].watchLog) (s.rf p.val Off.PRT_WATCH 31 16) = [] →
      Does (.watchBlockEnd p t) s (fun r => r = { s with ports := r.ports } ∧ (∀ q : PortId, q ≠ p → r.port q = s.port q) ∧ (∀ u : Fin 16, u ≠ t → (r.port p).conv[u] = (s.port p).conv[u]) ∧ r.port p = { s.port p with conv := (r.port p).conv } ∧
        (r.port p).conv[t] = { (s.port p).conv[t] with watch := SlotSums.empty, watchLog := s.watchLog p })) ∧
  (∀ (p : PortId) (t : Fin 16) (s : State) (l : LineRec),
      s.MemOk →
      s.rf p.val Off.PRT_WATCH 0 0 = 1 →
      s.inputOn p t.val = true →
      ((s.port p).conv[t].watch.n.take (s.slotCount p t.val)).all (fun k => decide (2 ^ (s.port p).conv[t].watchLog ≤ k)) = true →
      suspects ((s.port p).conv[t].watch.s.take (s.slotCount p t.val)) ((s.port p).conv[t].watch.a.take (s.slotCount p t.val)) (2 ^ (s.port p).conv[t].watchLog) (s.rf p.val Off.PRT_WATCH 31 16) ≠ [] →
      (s.unit (unitOfPort p)).st = .running →
      (s.unit (unitOfPort p)).cut = none →
      (s.port p).pipe.cap = none →
      (s.port p).cap = some l →
      l.dropped = false →
      (∀ u : Fin 16, (s.port p).conv[u].due = false ∧ (s.port p).conv[u].calNow = false) →
      Does (.watchBlockEnd p t) s (fun r =>
        let f (j : Nat) : FaultRec := { kind := 1, unit := p.val, code := 2, arg := (s.sliceOf p t j).1.val, arg2 := (s.sliceOf p t j).2, time := s.now }
        r.faults = (match suspects ((s.port p).conv[t].watch.s.take (s.slotCount p t.val)) ((s.port p).conv[t].watch.a.take (s.slotCount p t.val)) (2 ^ (s.port p).conv[t].watchLog) (s.rf p.val Off.PRT_WATCH 31 16) with | [] => s.faults | j :: js => js.foldl (fun l i => joinFault (f i) l) (s.faults ++ [f j])) ∧
        (r.unit (unitOfPort p)).st = .faulted ∧ (r.port p).cap = some { l with dropped := true } ∧ (∀ u : Fin 16, u ≠ t → (r.port p).conv[u] = (s.port p).conv[u]) ∧
        (r.port p).conv[t] = { (s.port p).conv[t] with watch := SlotSums.empty, watchLog := s.watchLog p } ∧ (∀ q : PortId, q ≠ p → r.port q = s.port q) ∧ r.raisings (portSrc p.val 0) = s.raisings (portSrc p.val 0))) ∧
  (∀ (p : PortId) (t : Fin 16) (s : State),
      (((s.port p).conv[t].bg.n.take (s.slotCount p t.val)).any (fun k => decide (k < 65536)) = true ∨ s.inputOn p t.val = false ∨ s.bgRuns p t = false) →
      Does (.bgBlockEnd p t) s (fun r => r = s)) ∧
  (∀ (p : PortId) (t : Fin 16) (s : State),
      s.inputOn p t.val = true →
      s.bgRuns p t = true →
      ((s.port p).conv[t].bg.n.take (s.slotCount p t.val)).all (fun k => decide (65536 ≤ k)) = true →
      Does (.bgBlockEnd p t) s (fun r =>
        let x := (s.port p).conv[t]
        let sl := (List.range (s.slotCount p t.val)).map (fun j => s.sliceOf p t j)
        let co := sl.map (fun e => (s.port p).conv[e.1].coef.getD e.2 (0, 32768, 0))
        let new := bgCorrect x.bg (s.slotCount p t.val) co
        r = { s with ports := r.ports } ∧ (∀ q : PortId, q ≠ p → r.port q = s.port q) ∧ r.port p = { s.port p with conv := (r.port p).conv } ∧
        (∀ u : Fin 16, (r.port p).conv[u] = { (s.port p).conv[u] with bgNext := (s.port p).conv[u].bgNext ++ ((sl.zip new).filter (fun e => e.1.1 = u)).map (fun e => (e.1.2, e.2)), bg := (if u = t then SlotSums.empty else (s.port p).conv[u].bg), bgConv := (if u = t then x.bgConv || decide (new = co) else (s.port p).conv[u].bgConv) }) ∧
        (∀ e ∈ new, -8192 ≤ e.1 ∧ e.1 ≤ 8191))) ∧
  (∀ (p : PortId) (t : Fin 16) (s : State),
      s.rf p.val Off.PRT_OV (16 + t.val) (16 + t.val) = 0 →
      s.reg p.val Off.PRT_OV = s.eff p.val Off.PRT_OV →
      s.MemOk →
      Does (.inputOvervolt p t) s (fun r => { s with regs := r.regs }.EventsOnly r [portSrc p.val 5] ∧ s.SameRegs r (rkey p.val Off.PRT_OV :: injKeys) ∧
        r.raisings (portSrc p.val 5) = s.raisings (portSrc p.val 5) + 1 ∧
        r.eff p.val Off.PRT_OV = s.eff p.val Off.PRT_OV ||| (2 ^ t.val + 2 ^ (16 + t.val)))) ∧
  (∀ (p : PortId) (t : Fin 16) (s : State),
      s.rf p.val Off.PRT_OV (16 + t.val) (16 + t.val) = 1 →
      s.reg p.val Off.PRT_OV = s.eff p.val Off.PRT_OV →
      Does (.inputOvervolt p t) s (fun r => r = s)) ∧
  (∀ (p : PortId) (t : Fin 16) (s : State),
      s.MemOk →
      Does (.clampStopsConducting p t) s (fun r => r = { s with regs := r.regs } ∧ s.SameRegs r [rkey p.val Off.PRT_OV] ∧
        r.rf p.val Off.PRT_OV (16 + t.val) (16 + t.val) = 0 ∧ (∀ i : Fin 32, i.val ≠ 16 + t.val → r.rf p.val Off.PRT_OV i.val i.val = s.rf p.val Off.PRT_OV i.val i.val))) ∧
  (∀ (c : CtxId) (v : Word) (s : State) (p : PortId),
      s.MemOk →
      s.Serves c Off.PRT_OV true →
      (s.ctxs[c]).selPort.toNat = p.val →
      s.reg p.val Off.PRT_OV = s.eff p.val Off.PRT_OV →
      Does (.prtOvClear c v) s (fun r => { s with regs := r.regs, jrnl := r.jrnl }.EventsOnly r [portSrc p.val 5] ∧ s.SameRegs r (rkey p.val Off.PRT_OV :: injKeys) ∧
        (∀ t : Fin 16, r.rf p.val Off.PRT_OV (16 + t.val) (16 + t.val) = s.rf p.val Off.PRT_OV (16 + t.val) (16 + t.val) ∧
          r.rf p.val Off.PRT_OV t.val t.val = if v.getLsbD t.val ∧ s.rf p.val Off.PRT_OV (16 + t.val) (16 + t.val) = 0 then 0 else s.rf p.val Off.PRT_OV t.val t.val) ∧
        r.raisings (portSrc p.val 5) = s.raisings (portSrc p.val 5) +
          ((List.finRange 16).filter (fun t => v.getLsbD t.val && s.rf p.val Off.PRT_OV t.val t.val == 1 && s.rf p.val Off.PRT_OV (16 + t.val) (16 + t.val) == 1)).length))

/-- ASSEMBLE puts the samples of the taps at the places that its block gives, SHADE scales them by the bank in force, BIN averages, PLANE reorders planes, GATHER picks elements by an index table; each goes on in the stream with CHAIN or into the work line that rd names, and the pass costs what its largest count and its latencies say. -/
def Obligations.PipeGeometry : Prop :=
  (∀ (p : PortId) (f : ZscFields) (l : LineRec) (s : State),
      s.TakesPrim p 0x80 f →
      (s.port p).prc = some l →
      Does (.assemble p f false) s (fun t => let i := s.inStream p f; let b := s.block p 0x80 f; 
        s.Gave t p 0x80 f (some ((List.range (bHalf b 0 * bByte b 2)).map (fun j => (((asmWrites l b).1.find? (fun e => e.1 == j)).map (fun e => e.2)).getD 0))) ∧ (t.port p).pipe.discard = (asmWrites l b).2 ∧ (t.port p).pipe.unfilled = bHalf b 0 * bByte b 2 - (asmWrites l b).1.length ∧ t = { s with engs := t.engs, ports := t.ports })) ∧
  (∀ (p : PortId) (f : ZscFields) (corr : Nat) (xs : List Nat) (s : State),
      s.TakesPrim p 0x81 f →
      (s.inStream p f).xs = some xs →
      (s.port p).pipe.remaps = [] →
      s.MemOk →
      Does (.shade p f false corr []) s (fun t => let i := s.inStream p f; let b := s.block p 0x81 f; 
        s.Gave t p 0x81 f (some (xs.zipIdx.map (fun e =>
          let k := e.2 / max i.p 1
          let w := shadeEntry (s.tblWord (shadeKey p.val (s.phys p 0 (s.port p).pipe.shadeBank) (k * 16384 + e.2 % max i.p 1)))
          let u : Int := Int.fdiv (((e.1 : Int) - w.1) * (w.2 : Nat) + 2 ^ 13) (2 ^ 14)
          let v : Int := if bitN (bByte b 0) 1 then Int.fdiv (u * (1000 + (s.port p).pipe.q.getD k 0) + 500) 1000 else u
          (if v < 0 then 0 else if (if bitN (bByte b 0) 0 then 65535 else 16383) < v then (if bitN (bByte b 0) 0 then 65535 else 16383) else v).toNat))) ∧ s.SameRegs t [rkey p.val Off.PIP_ECC] ∧ t = { s with engs := t.engs, ports := t.ports, regs := t.regs } ∧ (t.port p).pipe.degraded = (s.port p).pipe.degraded)) ∧
  (∀ (p : PortId) (f : ZscFields) (xs : List Nat) (s : State),
      s.TakesPrim p 0x84 f →
      (s.inStream p f).xs = some xs →
      bByte (s.block p 0x84 f) 6 = 0 →
      bHalf (s.block p 0x84 f) 2 = 1 →
      Does (.bin p f false) s (fun t => let i := s.inStream p f; let b := s.block p 0x84 f; 
        s.Gave t p 0x84 f (some ((binX xs i.p i.np (bByte b 0) (bByte b 1)).map (fun v => min v 65535))) ∧ t = { s with engs := t.engs, ports := t.ports } ∧ (t.port p).pipe.accs = (s.port p).pipe.accs)) ∧
  (∀ (p : PortId) (f : ZscFields) (xs : List Nat) (w : Fin 2) (s : State),
      s.TakesPrim p 0x84 f →
      (s.inStream p f).xs = some xs →
      bByte (s.block p 0x84 f) 6 = 0 →
      1 < bHalf (s.block p 0x84 f) 2 →
      bByte (s.block p 0x84 f) 5 = w.val →
      Does (.bin p f false) s (fun t => let i := s.inStream p f; let b := s.block p 0x84 f; 
        s.Gave t p 0x84 f (((s.port p).pipe.accs[w].step (binX xs i.p i.np (bByte b 0) (bByte b 1)) (bHalf b 2) (bByte b 4)).2) ∧ (t.port p).pipe.accs[w] = ((s.port p).pipe.accs[w].step (binX xs i.p i.np (bByte b 0) (bByte b 1)) (bHalf b 2) (bByte b 4)).1 ∧ t = { s with engs := t.engs, ports := t.ports })) ∧
  (∀ (p : PortId) (f : ZscFields) (xs : List Nat) (s : State),
      s.TakesPrim p 0x88 f →
      (s.inStream p f).xs = some xs →
      Does (.plane p f false) s (fun t => let i := s.inStream p f; let b := s.block p 0x88 f; 
        s.Gave t p 0x88 f (some (planeOut xs i.p i.np b)) ∧ t = { s with engs := t.engs, ports := t.ports })) ∧
  (∀ (p : PortId) (f : ZscFields) (xs : List Nat) (s : State),
      s.TakesPrim p 0x89 f →
      (s.inStream p f).xs = some xs →
      Does (.gather p f false) s (fun t => let i := s.inStream p f; let b := s.block p 0x89 f; 
        s.Gave t p 0x89 f (some (gatherOut xs i.p i.np (leAt b 4 4) (bHalf b 8) (s.idxWord (bByte b 0 % 64) 0) (s.idxWord (bByte b 0 % 64) 1) (fun j => s.idxWord (bByte b 0 % 64) (4 + j)))) ∧ t = { s with engs := t.engs, ports := t.ports }))

/-- The LUT block is 16 B, with IN14 in bit 0 of its flags byte. LUT reads the 4,096-entry table of its plane slot in the current setup: with IN14 the sample saturates at 16383 and is scaled by 4; the table is read at the top 12 bits and the next entry, and interpolated by the low 4 bits, rounded. -/
def Obligations.LutPixels : Prop :=
  (∀ (p : PortId) (f : ZscFields) (xs : List Nat) (s : State),
      s.TakesPrim p 0x85 f →
      (s.inStream p f).xs = some xs →
      Does (.lut p f false) s (fun t => let i := s.inStream p f; let b := s.block p 0x85 f; 
        s.Gave t p 0x85 f (some (xs.zipIdx.map (fun e =>
          let key (n : Nat) : Int := fld (s.tblWord (lutKey p.val ((s.eng (pipeEng p)).setup % 8 * 4 + e.2 / max i.p 1) n)) 15 0
          let v := if bitN (bByte b 0) 0 then min e.1 16383 * 4 else e.1
          let f := v % 16
          (key (v / 16) + Int.fdiv ((key (min (v / 16 + 1) 4095) - key (v / 16)) * Int.ofNat f + 8) 16).toNat))) ∧ t = { s with engs := t.engs, ports := t.ports } ∧ blockSize 0x85 = 16))

/-- DEFECT replaces every pixel that the map in force marks from its good neighbours and counts repaired and unrepaired pixels; DRIFT leaves the line as it is and updates the ratio of every masked slot from the mean of its zone; PRD gives the engine one of the five words about the tick. -/
def Obligations.PipeRepairAndDrift : Prop :=
  (∀ (p : PortId) (f : ZscFields) (corr : Nat) (xs : List Nat) (s : State),
      s.TakesPrim p 0x83 f →
      (s.inStream p f).xs = some xs →
      (s.port p).pipe.remaps = [] →
      s.MemOk →
      Does (.defect p f false corr []) s (fun t => let i := s.inStream p f; let b := s.block p 0x83 f; 
        s.Gave t p 0x83 f (some (repairLine xs i.p i.np (bByte b 0) (s.defectBad p [] i [])).1) ∧ (t.port p).pipe.subst = (repairLine xs i.p i.np (bByte b 0) (s.defectBad p [] i [])).2.1 ∧ (t.port p).pipe.unrep = (repairLine xs i.p i.np (bByte b 0) (s.defectBad p [] i [])).2.2 ∧ s.SameRegs t [rkey p.val Off.PIP_ECC] ∧ t = { s with engs := t.engs, ports := t.ports, regs := t.regs })) ∧
  (∀ (p : PortId) (f : ZscFields) (s : State),
      s.TakesPrim p 0x82 f →
      (s.inStream p f).xs.isSome = true →
      Does (.drift p f false) s (fun t => let i := s.inStream p f; let b := s.block p 0x82 f; 
        s.Gave t p 0x82 f (i.xs) ∧ (∀ k : Fin 4,
          let a := (s.port p).pipe.dAcc.getD k.val 65536
          let r := driftSlot i.u i.p k.val (bHalf b 0) (bHalf b 2) (bHalf b (8 + 2 * k.val)) (bHalf b 0x10) (bByte b 5) a
          (t.port p).pipe.dAcc.getD k.val 0 = (if bitN (bByte b 4) k.val then (r.getD a).toNat else a) ∧
          (t.port p).pipe.dValid.getD k.val 0 = (s.port p).pipe.dValid.getD k.val 0 + (if bitN (bByte b 4) k.val ∧ r.isSome then 1 else 0) ∧
          (bitN (bByte b 4) k.val = true → -127 ≤ (t.port p).pipe.qNext.getD k.val 0 ∧ (t.port p).pipe.qNext.getD k.val 0 ≤ 127) ∧
          (bitN (bByte b 4) k.val = false → (t.port p).pipe.qNext.getD k.val 0 = 0)) ∧ (t.port p).pipe.q = (s.port p).pipe.q ∧
        { s with engs := t.engs, ports := t.ports, regs := t.regs }.EventsOnly t [portSrc p.val 9])) ∧
  (∀ (p : PortId) (f : ZscFields) (s : State),
      (s.Takes (pipeEng p) 1 { rd := true, ext := 0xFF } f) →
      (s.eng (pipeEng p)).condTrue f.cond = true →
      f.ext.toNat < 5 →
      Does (.prd p f) s (fun t => let x := s.eng (pipeEng p); let y := (s.port p).pipe; let l := (s.port p).prc
        let v : Nat := if f.ext = 0 then b2n y.groupDone + 2 * b2n y.calDone + 4 * b2n (l.elim false (fun r => r.gap)) + 8 * b2n (y.cap.isSome && !y.calDone)
          else if f.ext = 1 then twos 8 (y.q.getD 0 0) + twos 8 (y.q.getD 1 0) * 2 ^ 8 + twos 8 (y.q.getD 2 0) * 2 ^ 16 + twos 8 (y.q.getD 3 0) * 2 ^ 24
          else if f.ext = 2 then min y.subst 65535 + min y.unrep 65535 * 2 ^ 16
          else if f.ext = 3 then l.elim 0 (fun r => (r.samples.map (fun e => e.2.length)).sum)
          else min y.discard 65535 + min y.unfilled 65535 * 2 ^ 16
        s.OnlyEng t (pipeEng p) ((if f.rd = 0 then x else { x with g := x.g.set f.rd.toNat (BitVec.ofNat 32 v) }).went (x.pc + 1) 1)))

/-- PACK writes the samples as 16 or 14 bits each, CODE codes blocks of 32 samples at its fixed ratio, and with TWIN at a second one, each into its payload area, and counts the blocks; into the staging of 4096 bytes; where the payload has no room the primitive writes the units that have and stalls, and STAGING_DRAIN goes on with it and completes it. SLATE fills a record slot from an area or with no payload; EMIT queues the record of a slot for its destinations, unless its line is fewer than EVERY from that of the last record that its block queued, which raises EMIT_RATE. -/
def Obligations.PipePayloads : Prop :=
  (∀ (p : PortId) (f : ZscFields) (xs : List Nat) (drained : Nat) (s : State),
      s.TakesPrim p 0x8A f →
      (s.inStream p f).xs = some xs →
      packBytes (bByte (s.block p 0x8A f) 0) xs.length ≤ 4096 - (s.port p).pipe.staged + drained →
      Does (.pack p f false drained) s (fun t => let i := s.inStream p f; let b := s.block p 0x8A f; 
        s.Gave t p 0x8A f ((if bitN (bByte b 3) 0 then some xs else none)) ∧ (t.port p).pipe.areas = (s.port p).pipe.areas.set (bByte b 2 % 4) (some
          { bytes := packOut xs (bByte b 0) (bByte b 1), p := i.p, np := i.np, layout := i.layout, coding := min (bByte b 0) 1, bad := 0 }) (by omega) ∧
        (t.port p).pipe.staged = min 4096 ((s.port p).pipe.staged + packBytes (bByte b 0) xs.length - drained) ∧ t = { s with engs := t.engs, ports := t.ports })) ∧
  (∀ (p : PortId) (f : ZscFields) (xs : List Nat) (drained : Nat) (s : State),
      s.TakesPrim p 0x8A f →
      (s.inStream p f).xs = some xs →
      4096 - (s.port p).pipe.staged + drained < packBytes (bByte (s.block p 0x8A f) 0) xs.length →
      Does (.pack p f false drained) s (fun t =>
        let need := packBytes (bByte (s.block p 0x8A f) 0) xs.length
        let went := min (need / 64) ((4096 - (s.port p).pipe.staged + drained) / 64) * 64
        (t.port p).pipe = { (s.port p).pipe with staged := min 4096 ((s.port p).pipe.staged + went - drained), stall := some { left := need - went, op := 0x8A, f := f, differ := false, wrote := [] } } ∧
        t = { s with ports := t.ports } ∧ (∀ q : PortId, q ≠ p → t.port q = s.port q))) ∧
  (∀ (p : PortId) (drained cycles : Nat) (f : ZscFields) (s q : State) (xs : List Nat) (left : Nat),
      s.TakesPrim p 0x8A f →
      (s.inStream p f).xs = some xs →
      (q = s.updPort p (fun x => { x with pipe := { x.pipe with stall := some { left := left, op := 0x8A, f := f, differ := false, wrote := [] } } })) →
      left ≤ 4096 - (s.port p).pipe.staged + drained →
      Does (.stagingDrain p ⟨drained, cycles⟩) q (fun t => let i := s.inStream p f; let b := s.block p 0x8A f; s.Gave t p 0x8A f (if bitN (bByte b 3) 0 then some xs else none) ∧ (t.port p).pipe.areas = (s.port p).pipe.areas.set (bByte b 2 % 4) (some
          { bytes := packOut xs (bByte b 0) (bByte b 1), p := i.p, np := i.np, layout := i.layout, coding := min (bByte b 0) 1, bad := 0 }) (by omega) ∧
        (t.port p).pipe.stall = none ∧ (t.port p).pipe.stallCyc = (s.port p).pipe.stallCyc + cycles ∧
        (t.port p).pipe.staged = min 4096 ((s.port p).pipe.staged + left - drained) ∧ t = { s with engs := t.engs, ports := t.ports })) ∧
  (∀ (p : PortId) (drained cycles left : Nat) (f : ZscFields) (s : State),
      ((s.port p).pipe.stall = some { left := left, op := 0x8A, f := f, differ := false, wrote := [] }) →
      4096 - (s.port p).pipe.staged + drained < left →
      Does (.stagingDrain p ⟨drained, cycles⟩) s (fun t => let y := (s.port p).pipe
        let went := min (left / (s.stageNeed p 0x8A f).2) ((4096 - y.staged + drained) / (s.stageNeed p 0x8A f).2) * (s.stageNeed p 0x8A f).2
        (t.port p).pipe = { y with stall := some { left := left - went, op := 0x8A, f := f, differ := false, wrote := [] }, stallCyc := y.stallCyc + cycles, staged := min 4096 (y.staged + went - drained) } ∧
        t = { s with ports := t.ports } ∧ (∀ q : PortId, q ≠ p → t.port q = s.port q))) ∧
  (∀ (p : PortId) (drained cycles : Nat) (s : State),
      (s.port p).pipe.stall = none →
      Does (.stagingDrain p ⟨drained, cycles⟩) s (fun t => (t.port p).pipe = { (s.port p).pipe with staged := (s.port p).pipe.staged - drained } ∧
        t = { s with ports := t.ports } ∧ (∀ q : PortId, q ≠ p → t.port q = s.port q))) ∧
  (∀ (p : PortId) (f : ZscFields) (xs : List Nat) (drained : Nat) (s : State),
      s.TakesPrim p 0x8B f →
      s.MemOk →
      (s.inStream p f).xs = some xs →
      (∀ e ∈ codeLine xs (s.inStream p f).geo (bByte (s.block p 0x8B f) 0) false [], e.2.2.2 = true) →
      bByte (s.block p 0x8B f) 1 = 0 →
      (s.inStream p f).np * (s.inStream p f).geo.blocks * codeBytes (bByte (s.block p 0x8B f) 0) ≤ 4096 - (s.port p).pipe.staged + drained →
      (s.port p).pipe.inject = false →
      Does (.code p f false drained []) s (fun t => let i := s.inStream p f; let b := s.block p 0x8B f; 
        s.Gave t p 0x8B f ((if bitN (bByte b 3) 0 then some xs else none)) ∧ (t.port p).pipe.areas = (s.port p).pipe.areas.set (fld (bByte b 2) 1 0 % 4) (some
          { bytes := codePayloadBytes (codeLine xs i.geo (bByte b 0) false []) i.geo (bitN (bByte b 3) 1), p := i.p, np := i.np,
            layout := if bitN (bByte b 3) 1 then (if i.layout = 3 then 4 else 2) else i.layout, coding := bByte b 0, bad := 0 }) (by omega) ∧
        (bByte b 0 ≠ 2 → ∀ k : Fin 16, t.eff p.val (Off.CMP_SHIFT + 4 * k.val) =
          min (s.eff p.val (Off.CMP_SHIFT + 4 * k.val) + ((codeLine xs i.geo (bByte b 0) false []).filter (fun e => e.2.2.1 == k.val)).length) (2 ^ 32 - 1)) ∧
        t.pair p.val Off.CMP_BLOCKS_LO = (s.pair p.val Off.CMP_BLOCKS_LO + i.np * i.geo.blocks) % 2 ^ 64 ∧
        s.SameRegs t ([rkey p.val Off.CMP_BLOCKS_LO, rkey p.val (Off.CMP_BLOCKS_LO + 4)] ++ (List.range 16).map (fun k => rkey p.val (Off.CMP_SHIFT + 4 * k))) ∧
        t = { s with engs := t.engs, ports := t.ports, regs := t.regs })) ∧
  (∀ (p : PortId) (f : ZscFields) (xs : List Nat) (drained : Nat) (s : State),
      s.TakesPrim p 0x8B f →
      s.MemOk →
      (s.inStream p f).xs = some xs →
      (∀ e ∈ codeLine xs (s.inStream p f).geo (bByte (s.block p 0x8B f) 0) false [], e.2.2.2 = true) →
      (∀ e ∈ codeLine xs (s.inStream p f).geo (bByte (s.block p 0x8B f) 1) true [], e.2.2.2 = true) →
      bByte (s.block p 0x8B f) 1 ≠ 0 →
      (s.inStream p f).np * (s.inStream p f).geo.blocks * (codeBytes (bByte (s.block p 0x8B f) 0) + codeBytes (bByte (s.block p 0x8B f) 1)) ≤ 4096 - (s.port p).pipe.staged + drained →
      (s.port p).pipe.inject = false →
      Does (.code p f false drained []) s (fun t => let i := s.inStream p f; let b := s.block p 0x8B f; 
        s.Gave t p 0x8B f ((if bitN (bByte b 3) 0 then some xs else none)) ∧ (t.port p).pipe.areas = ((s.port p).pipe.areas.set (fld (bByte b 2) 1 0 % 4) (some
          { bytes := codePayloadBytes (codeLine xs i.geo (bByte b 0) false []) i.geo (bitN (bByte b 3) 1), p := i.p, np := i.np,
            layout := if bitN (bByte b 3) 1 then (if i.layout = 3 then 4 else 2) else i.layout, coding := bByte b 0, bad := 0 }) (by omega)).set (fld (bByte b 2) 5 4 % 4) (some
          { bytes := codePayloadBytes (codeLine xs i.geo (bByte b 1) true []) i.geo (bitN (bByte b 3) 1), p := i.p, np := i.np,
            layout := if bitN (bByte b 3) 1 then (if i.layout = 3 then 4 else 2) else i.layout, coding := bByte b 1, bad := 0 }) (by omega) ∧
        (∀ k : Fin 16, t.eff p.val (Off.CMP_SHIFT + 4 * k.val) =
          min (s.eff p.val (Off.CMP_SHIFT + 4 * k.val) + (if bByte b 0 = 2 then 0 else ((codeLine xs i.geo (bByte b 0) false []).filter (fun e => e.2.2.1 == k.val)).length) +
            (if bByte b 1 = 2 then 0 else ((codeLine xs i.geo (bByte b 1) true []).filter (fun e => e.2.2.1 == k.val)).length)) (2 ^ 32 - 1)) ∧
        t.pair p.val Off.CMP_BLOCKS_LO = (s.pair p.val Off.CMP_BLOCKS_LO + 2 * (i.np * i.geo.blocks)) % 2 ^ 64 ∧
        s.SameRegs t ([rkey p.val Off.CMP_BLOCKS_LO, rkey p.val (Off.CMP_BLOCKS_LO + 4)] ++ (List.range 16).map (fun k => rkey p.val (Off.CMP_SHIFT + 4 * k))) ∧
        t = { s with engs := t.engs, ports := t.ports, regs := t.regs })) ∧
  (∀ (p : PortId) (f : ZscFields) (l : LineRec) (s : State),
      s.Takes (pipeEng p) 4 { imm := true } f →
      (s.eng (pipeEng p)).condTrue f.cond = true →
      f.imm.toNat < 16384 →
      (s.port p).prc = some l →
      Does (.slate p f) s (fun t => let x := s.eng (pipeEng p); let b := x.block x.setup (pbOf f) 16
        t = { s with engs := t.engs, ports := t.ports } ∧ t.eng (pipeEng p) = x.went (x.pc + 1) 4 ∧ (∀ e : EngId, e ≠ pipeEng p → t.eng e = s.eng e) ∧
        (∀ q : PortId, q ≠ p → t.port q = s.port q) ∧
        t.port p = { s.port p with pipe := { (s.port p).pipe with slots := (s.port p).pipe.slots.set (bByte b 0 % 4) (
          if bByte b 2 = 255 then some (s.slateRec p l (bByte b 1) none)
          else ((s.port p).pipe.areas[bByte b 2 % 4]'(by omega)).map (fun a => s.slateRec p l (bByte b 1) (some a))) (by omega) } })) ∧
  (∀ (p : PortId) (f : ZscFields) (l : LineRec) (r : Rec) (slot : Fin 4) (s : State),
      s.Takes (pipeEng p) 2 { imm := true } f →
      (s.eng (pipeEng p)).condTrue f.cond = true →
      f.imm.toNat < 16384 →
      (s.port p).prc = some l →
      bByte ((s.eng (pipeEng p)).block (s.eng (pipeEng p)).setup (pbOf f) 16) 0 = slot.val →
      (s.port p).pipe.slots[slot] = some r →
      (∀ e ∈ (s.port p).pipe.lastEmit, e.1 ≠ pbOf f) →
      Does (.emit p f) s (fun t => let x := s.eng (pipeEng p); let b := x.block x.setup (pbOf f) 16
        t = { s with engs := t.engs, ports := t.ports } ∧ t.eng (pipeEng p) = x.went (x.pc + 1) 2 ∧ (∀ q : PortId, q ≠ p → t.port q = s.port q) ∧
        (t.port p).pipe.queued = (s.port p).pipe.queued ++ [{ rec_ := r, slot := slot.val, dest := bByte b 1 }] ∧
        (pbOf f, l.n) ∈ (t.port p).pipe.lastEmit ∧ (t.port p).pipe.slots = (s.port p).pipe.slots)) ∧
  (∀ (p : PortId) (f : ZscFields) (l : LineRec) (r : Rec) (slot : Fin 4) (n : Nat) (s : State),
      s.Takes (pipeEng p) 2 { imm := true } f →
      (s.eng (pipeEng p)).condTrue f.cond = true →
      f.imm.toNat < 16384 →
      (s.port p).prc = some l →
      bByte ((s.eng (pipeEng p)).block (s.eng (pipeEng p)).setup (pbOf f) 16) 0 = slot.val →
      (s.port p).pipe.slots[slot] = some r →
      ((s.port p).pipe.lastEmit.find? (fun e => e.1 == pbOf f) = some (pbOf f, n)) →
      bHalf ((s.eng (pipeEng p)).block (s.eng (pipeEng p)).setup (pbOf f) 16) 2 ≤ ((l.n : Int) - n).natAbs →
      Does (.emit p f) s (fun t => let x := s.eng (pipeEng p); let b := x.block x.setup (pbOf f) 16
        t = { s with engs := t.engs, ports := t.ports } ∧ t.eng (pipeEng p) = x.went (x.pc + 1) 2 ∧ (∀ q : PortId, q ≠ p → t.port q = s.port q) ∧
        (t.port p).pipe.queued = (s.port p).pipe.queued ++ [{ rec_ := r, slot := slot.val, dest := bByte b 1 }] ∧
        (t.port p).pipe.lastEmit.find? (fun e => e.1 == pbOf f) = some (pbOf f, l.n) ∧ (t.port p).pipe.slots = (s.port p).pipe.slots)) ∧
  (∀ (p : PortId) (f : ZscFields) (l : LineRec) (r : Rec) (slot : Fin 4) (n : Nat) (s : State),
      s.Takes (pipeEng p) 2 { imm := true } f →
      (s.eng (pipeEng p)).condTrue f.cond = true →
      f.imm.toNat < 16384 →
      (s.port p).prc = some l →
      bByte ((s.eng (pipeEng p)).block (s.eng (pipeEng p)).setup (pbOf f) 16) 0 = slot.val →
      (s.port p).pipe.slots[slot] = some r →
      ((s.port p).pipe.lastEmit.find? (fun e => e.1 == pbOf f) = some (pbOf f, n)) →
      ((l.n : Int) - n).natAbs < bHalf ((s.eng (pipeEng p)).block (s.eng (pipeEng p)).setup (pbOf f) 16) 2 →
      Does (.emit p f) s (fun t => t.port p = s.port p ∧ t.raisings (portSrc p.val 23) = s.raisings (portSrc p.val 23) + 1 ∧
        t.eng (pipeEng p) = (s.eng (pipeEng p)).went ((s.eng (pipeEng p)).pc + 1) 2 ∧ ({ s with engs := t.engs } : State).EventsOnly t [portSrc p.val 23]))

/-- A write of PIP_BANK_CTL starts the verify of the shading table or of the defect map, unless one runs, and asks for an unflip where MIRROR holds; VERIFY_BUSY follows. A verify that ends counts its corrected and uncorrectable reads and stores the CRC-32C of each bank that was not written and could be read; with neither bank written nor unreadable, equal ones set MIRROR and raise MIRROR_DONE, and other outcomes raise MIRROR_FAIL and leave MIRROR. (Where a command is not due, nothing happens: log entry 5.) CAL_START of a running port whose setup holds a BIN in calibration mode starts a capture of 2^LOG lines, which in an announced gap waits for its axis; CAL_COMPUTE of a bank not in use starts the computation, and the bank counts as written; when it ends, each entry of the bank is the offset and gain that R176 computes, its CRC is stored, PIP_CAL_STAT counts the weak pixels and CAL_DONE tells it. GAP_ANNOUNCE announces a window at the next line with these low 32 bits at least 3 above the line of now. -/
def Obligations.MirrorsCalibrationAndGaps : Prop :=
  (∀ (c : CtxId) (v : Word) (s : State) (p : PortId),
      s.MemOk →
      s.Serves c Off.PIP_BANK_CTL true →
      (s.ctxs[c]).selPort.toNat = p.val →
      Does (.verifyS c v) s (fun t =>
        let y := (s.port p).pipe
        let idle := y.verS = none ∧ y.verD = none
        t = { s with ports := t.ports, regs := t.regs, jrnl := t.jrnl } ∧ (∀ q : PortId, q ≠ p → t.port q = s.port q) ∧
        t.port p = { s.port p with pipe := { y with verS := (if v.getLsbD 0 ∧ idle then some (false, false) else y.verS), verD := (if v.getLsbD 1 ∧ idle then some (false, false) else y.verD), unflipS := (y.unflipS || (v.getLsbD 4 && s.mirror p 0)), unflipD := (y.unflipD || (v.getLsbD 5 && s.mirror p 1)) } } ∧
        s.SameRegs t [rkey p.val Off.PIP_BANK_STAT] ∧ t.rf p.val Off.PIP_BANK_STAT 10 10 = (if idle ∧ v.getLsbD 0 = false ∧ v.getLsbD 1 = false then 0 else 1) ∧
        (∀ i : Fin 32, i.val ≠ 10 → t.rf p.val Off.PIP_BANK_STAT i.val i.val = s.rf p.val Off.PIP_BANK_STAT i.val i.val))) ∧
  (∀ (c : CtxId) (v : Word) (s : State) (p : PortId),
      s.MemOk →
      s.Serves c Off.PIP_BANK_CTL true →
      (s.ctxs[c]).selPort.toNat = p.val →
      Does (.verifyD c v) s (fun t =>
        let y := (s.port p).pipe
        let idle := y.verS = none ∧ y.verD = none
        t = { s with ports := t.ports, regs := t.regs, jrnl := t.jrnl } ∧ (∀ q : PortId, q ≠ p → t.port q = s.port q) ∧
        t.port p = { s.port p with pipe := { y with verS := (if v.getLsbD 0 ∧ idle then some (false, false) else y.verS), verD := (if v.getLsbD 1 ∧ idle then some (false, false) else y.verD), unflipS := (y.unflipS || (v.getLsbD 4 && s.mirror p 0)), unflipD := (y.unflipD || (v.getLsbD 5 && s.mirror p 1)) } } ∧
        s.SameRegs t [rkey p.val Off.PIP_BANK_STAT] ∧ t.rf p.val Off.PIP_BANK_STAT 10 10 = (if idle ∧ v.getLsbD 0 = false ∧ v.getLsbD 1 = false then 0 else 1) ∧
        (∀ i : Fin 32, i.val ≠ 10 → t.rf p.val Off.PIP_BANK_STAT i.val i.val = s.rf p.val Off.PIP_BANK_STAT i.val i.val))) ∧
  (∀ (c : CtxId) (v : Word) (s : State) (p : PortId),
      s.MemOk →
      s.Serves c Off.PIP_BANK_CTL true →
      (s.ctxs[c]).selPort.toNat = p.val →
      Does (.unflipS c v) s (fun t =>
        let y := (s.port p).pipe
        let idle := y.verS = none ∧ y.verD = none
        t = { s with ports := t.ports, regs := t.regs, jrnl := t.jrnl } ∧ (∀ q : PortId, q ≠ p → t.port q = s.port q) ∧
        t.port p = { s.port p with pipe := { y with verS := (if v.getLsbD 0 ∧ idle then some (false, false) else y.verS), verD := (if v.getLsbD 1 ∧ idle then some (false, false) else y.verD), unflipS := (y.unflipS || (v.getLsbD 4 && s.mirror p 0)), unflipD := (y.unflipD || (v.getLsbD 5 && s.mirror p 1)) } } ∧
        s.SameRegs t [rkey p.val Off.PIP_BANK_STAT] ∧ t.rf p.val Off.PIP_BANK_STAT 10 10 = (if idle ∧ v.getLsbD 0 = false ∧ v.getLsbD 1 = false then 0 else 1) ∧
        (∀ i : Fin 32, i.val ≠ 10 → t.rf p.val Off.PIP_BANK_STAT i.val i.val = s.rf p.val Off.PIP_BANK_STAT i.val i.val))) ∧
  (∀ (c : CtxId) (v : Word) (s : State) (p : PortId),
      s.MemOk →
      s.Serves c Off.PIP_BANK_CTL true →
      (s.ctxs[c]).selPort.toNat = p.val →
      Does (.unflipD c v) s (fun t =>
        let y := (s.port p).pipe
        let idle := y.verS = none ∧ y.verD = none
        t = { s with ports := t.ports, regs := t.regs, jrnl := t.jrnl } ∧ (∀ q : PortId, q ≠ p → t.port q = s.port q) ∧
        t.port p = { s.port p with pipe := { y with verS := (if v.getLsbD 0 ∧ idle then some (false, false) else y.verS), verD := (if v.getLsbD 1 ∧ idle then some (false, false) else y.verD), unflipS := (y.unflipS || (v.getLsbD 4 && s.mirror p 0)), unflipD := (y.unflipD || (v.getLsbD 5 && s.mirror p 1)) } } ∧
        s.SameRegs t [rkey p.val Off.PIP_BANK_STAT] ∧ t.rf p.val Off.PIP_BANK_STAT 10 10 = (if idle ∧ v.getLsbD 0 = false ∧ v.getLsbD 1 = false then 0 else 1) ∧
        (∀ i : Fin 32, i.val ≠ 10 → t.rf p.val Off.PIP_BANK_STAT i.val i.val = s.rf p.val Off.PIP_BANK_STAT i.val i.val))) ∧
  (∀ (p : PortId) (d : Bool) (corr : Nat) (fails : List (Nat × Nat)) (s : State),
      (if d then (s.port p).pipe.verD else (s.port p).pipe.verS) = none →
      Does (.mirrorVerifyDone p d ⟨corr, fails⟩) s (fun t => t = s)) ∧
  (∀ (p : PortId) (d : Bool) (corr : Nat) (s : State),
      s.MemOk →
      ((if d then (s.port p).pipe.verD else (s.port p).pipe.verS) = some (false, false)) →
      (s.port p).pipe.remaps = [] →
      Does (.mirrorVerifyDone p d ⟨corr, []⟩) s (fun t =>
        let same := s.bankCrc p (b2n d) 0 = s.bankCrc p (b2n d) 1
        t = { s with ports := t.ports, regs := t.regs, raised := t.raised, pend := t.pend, aux := t.aux, free := t.free } ∧ (∀ q : PortId, q ≠ p → t.port q = s.port q) ∧
        (t.port p).pipe = (if d then { (s.port p).pipe with verD := none } else { (s.port p).pipe with verS := none }) ∧
        t.tbl = s.tbl ∧ t.eff p.val (crcOff (b2n d) 0) = s.bankCrc p (b2n d) 0 ∧ t.eff p.val (crcOff (b2n d) 1) = s.bankCrc p (b2n d) 1 ∧
        t.crcValid p (b2n d) 0 = true ∧ t.crcValid p (b2n d) 1 = true ∧ t.rf p.val Off.PIP_ECC 15 0 = min (s.rf p.val Off.PIP_ECC 15 0 + corr) 65535 ∧ t.rf p.val Off.PIP_ECC 31 16 = min (s.rf p.val Off.PIP_ECC 31 16 + 0) 65535 ∧
        (if same then t.mirror p (b2n d) = true ∧ t.raisings (portSrc p.val 16) = s.raisings (portSrc p.val 16) + 1
          else t.mirror p (b2n d) = s.mirror p (b2n d) ∧ t.raisings (portSrc p.val 17) = s.raisings (portSrc p.val 17) + 1))) ∧
  (∀ (p : PortId) (d : Bool) (corr : Nat) (fails : List (Nat × Nat)) (s : State) (w : Bool × Bool),
      s.MemOk →
      (if d then (s.port p).pipe.verD else (s.port p).pipe.verS) = some w →
      ((∃ e ∈ fails, e.1 < 2) ∨ w.1 = true ∨ w.2 = true) →
      Does (.mirrorVerifyDone p d ⟨corr, fails⟩) s (fun t => t = { s with ports := t.ports, regs := t.regs, raised := t.raised, pend := t.pend, aux := t.aux, free := t.free } ∧ (∀ q : PortId, q ≠ p → t.port q = s.port q) ∧
        (t.port p).pipe = (if d then { (s.port p).pipe with verD := none } else { (s.port p).pipe with verS := none }) ∧
        t.tbl = s.tbl ∧ t.rf p.val Off.PIP_ECC 15 0 = min (s.rf p.val Off.PIP_ECC 15 0 + corr) 65535 ∧ t.rf p.val Off.PIP_ECC 31 16 = min (s.rf p.val Off.PIP_ECC 31 16 + fails.length) 65535 ∧
        (∀ b : Fin 2, (if b = 0 then w.1 else w.2) = false → (s.port p).pipe.remaps = [] → (∀ e ∈ fails, e.1 ≠ b.val) → t.eff p.val (crcOff (b2n d) b.val) = s.bankCrc p (b2n d) b.val ∧ t.crcValid p (b2n d) b.val = true) ∧
        (∀ b : Fin 2, (if b = 0 then w.1 else w.2) = true → t.crcValid p (b2n d) b.val = false) ∧ t.mirror p (b2n d) = s.mirror p (b2n d) ∧
        t.raisings (portSrc p.val 17) = s.raisings (portSrc p.val 17) + 1 ∧ t.raisings (portSrc p.val 16) = s.raisings (portSrc p.val 16))) ∧
  (∀ (c : CtxId) (y : Submission) (s : State) (p : PortId),
      s.MemOk →
      (s.Accepts c { op := 0x20, since := 0x20, kinds := [1], slotted := false, args := [0, 1] } y) →
      y.unit = p.val →
      (s.ctxs[c]).port p.val true = true →
      s.portState p = .running →
      (s.port p).pipe.cap = none →
      s.bankActive p 0 (s.rf p.val Off.PIP_CAL 0 0) = false →
      y.arg 0 ≤ 1 →
      (1 ≤ y.arg 1 ∧ y.arg 1 ≤ 8) →
      s.calBin p = true →
      Does (.calStart c y) s (fun t => s.Answered t c y (okRes 0 0) ∧ (∀ q : PortId, q ≠ p → t.port q = s.port q) ∧ (∀ d : CtxId, d ≠ c → t.ctxs[d] = s.ctxs[d]) ∧ (t.port p).pipe = { (s.port p).pipe with cap := (t.port p).pipe.cap } ∧
        (t.port p).pipe.cap.map (fun k => (k.target, k.len, k.taken)) = some (y.arg 0, 2 ^ y.arg 1, 0) ∧
        ((s.port p).gap = none → (t.port p).pipe.cap.bind (fun k => k.fromLine) = some (match (s.port p).prc with | some l => if l.begun then l.n + 1 else l.n | none => 0)) ∧
        ((s.port p).gap ≠ none → (t.port p).pipe.cap.bind (fun k => k.fromLine) = none) ∧
        s.SameRegs t (rkey p.val Off.PIP_CAL :: injKeys) ∧ t.rf p.val Off.PIP_CAL 8 8 = 1 ∧ t.rf p.val Off.PIP_CAL 4 4 = y.arg 0 ∧ t.rf p.val Off.PIP_CAL 24 16 = 0 ∧
        { s with ctxs := t.ctxs, bus := t.bus, jrnl := t.jrnl, ports := t.ports, regs := t.regs }.EventsOnly t [mgtSrc (5 * c.val), mgtSrc (5 * c.val + 1)])) ∧
  (∀ (c : CtxId) (y : Submission) (s : State) (p : PortId),
      s.MemOk →
      (s.Accepts c { op := 0x21, since := 0x20, kinds := [1], slotted := false, args := [0] } y) →
      y.unit = p.val →
      (s.ctxs[c]).port p.val true = true →
      y.arg 0 ≤ 1 →
      s.bankActive p 0 (y.arg 0) = false →
      (s.rf p.val Off.PIP_CAL 1 1 = 0 ∨ s.bankActive p 1 (1 - s.rf p.val Off.PIP_TBLSEL 1 1) = false) →
      s.rf p.val Off.PIP_CAL 11 10 = 3 →
      (s.port p).pipe.refGeo[(0 : Fin 2)] = (s.port p).pipe.refGeo[(1 : Fin 2)] →
      (s.port p).pipe.compute = none →
      Does (.calCompute c y) s (fun t => s.Answered t c y (okRes 0 0) ∧ (∀ q : PortId, q ≠ p → t.port q = s.port q) ∧ (∀ d : CtxId, d ≠ c → t.ctxs[d] = s.ctxs[d]) ∧ (t.port p).pipe.compute = some (y.arg 0) ∧ t.rf p.val Off.PIP_CAL 9 9 = 1 ∧
        t.mirror p 0 = false ∧ t.crcValid p 0 (y.arg 0) = false ∧ t.tbl = s.tbl ∧ s.SameRegs t (rkey p.val Off.PIP_CAL :: rkey p.val Off.PIP_BANK_STAT :: injKeys) ∧
        (∀ w ∈ (s.port p).pipe.verS, (t.port p).pipe.verS = some (if y.arg 0 = 0 then (true, w.2) else (w.1, true))) ∧
        { s with ctxs := t.ctxs, bus := t.bus, jrnl := t.jrnl, ports := t.ports, regs := t.regs }.EventsOnly t [mgtSrc (5 * c.val), mgtSrc (5 * c.val + 1)])) ∧
  (∀ (c : CtxId) (y : Submission) (s : State) (p : PortId),
      (s.Accepts c { op := 0x22, since := 0x31, kinds := [1], slotted := false, args := [0, 1, 2] } y) →
      y.unit = p.val →
      (s.ctxs[c]).port p.val true = true →
      s.portState p = .running →
      (1 ≤ y.arg 1 ∧ y.arg 1 ≤ 65535) →
      y.arg 2 < 8 →
      (s.port p).gap = none →
      Does (.gapAnnounce c y) s (fun t => s.Answered t c y (okRes 0 0) ∧ (∀ q : PortId, q ≠ p → t.port q = s.port q) ∧ (∀ d : CtxId, d ≠ c → t.ctxs[d] = s.ctxs[d]) ∧ t.port p = { s.port p with gap := (t.port p).gap } ∧
        (∀ g ∈ (t.port p).gap, g.count = y.arg 1 ∧ g.axis = y.arg 2 ∧ g.active = false ∧ g.first % 2 ^ 32 = y.arg 0 ∧ (s.port p).ltg.lastLine + 3 ≤ g.first ∧ g.first < (s.port p).ltg.lastLine + 3 + 2 ^ 32) ∧ (t.port p).gap.isSome = true ∧
        { s with ctxs := t.ctxs, bus := t.bus, jrnl := t.jrnl, ports := t.ports }.EventsOnly t [mgtSrc (5 * c.val), mgtSrc (5 * c.val + 1)])) ∧
  (∀ (p : PortId) (s : State),
      (s.port p).pipe.compute = none →
      Does (.calDone p) s (fun t => t = s)) ∧
  (∀ (p : PortId) (s : State) (bank : Nat),
      s.MemOk →
      (s.port p).pipe.compute = some bank →
      bank < 2 →
      (s.port p).pipe.refGeo[(0 : Fin 2)].1 ≤ 16384 →
      (s.port p).pipe.refGeo[(0 : Fin 2)].2 ≤ 4 →
      Does (.calDone p) s (fun t =>
        let z := (s.port p).pipe
        let g := z.refGeo[(0 : Fin 2)]
        let lim := s.eff p.val Off.PIP_CAL_LIM
        let tgt (k : Nat) : Nat := s.rf p.val (if k < 2 then Off.PIP_CAL_TGT_A else Off.PIP_CAL_TGT_B) (16 * (k % 2) + 15) (16 * (k % 2))
        let co (i : Nat) := coefOf (z.refs[(0 : Fin 2)].getD i 0) (z.refs[(1 : Fin 2)].getD i 0) (tgt (i / max g.1 1)) (lim % 65536) (lim / 65536)
        let weak := ((List.range (g.1 * g.2)).filter (fun i => (co i).2)).length
        (∀ k ∈ List.range g.2, ∀ x ∈ List.range g.1, t.tblWord (shadeKey p.val (s.phys p 0 bank) (k * 16384 + x)) = twos 16 (co (k * g.1 + x)).1.1 * 2 ^ 16 + (co (k * g.1 + x)).1.2) ∧
        t.eff p.val Off.PIP_CAL_STAT = weak ∧ t.rf p.val Off.PIP_CAL 11 9 = 0 ∧ t.eff p.val (crcOff 0 bank) = t.bankCrc p 0 bank ∧ t.crcValid p 0 bank = true ∧
        t.raisings (portSrc p.val 20) = s.raisings (portSrc p.val 20) + 1 ∧ (∀ q : PortId, q ≠ p → t.port q = s.port q) ∧ (t.port p).pipe.compute = none ∧ t.units = s.units ∧ t.engs = s.engs ∧
        (s.rf p.val Off.PIP_CAL 1 1 = 1 → ∀ k ∈ List.range g.2, ∀ x ∈ List.range g.1, (co (k * g.1 + x)).2 = true →
          (t.tblWord (defKey p.val (s.phys p 1 (1 - s.rf p.val Off.PIP_TBLSEL 1 1)) (k * 512 + x / 32))).testBit (x % 32) = true)))

/-- The front record of a stream goes whole into the descriptors of its channel when they have room: its bytes are written, at offset 0 of the next descriptors or behind the last record of a packed one, DMA_DC_RECS counts it and DMA_DC_BYTES its length. With no room it waits while given descriptors are still to be read, and is dropped for the channel if there are none: DROP is due and DMA_DC_DROP counts it. A closed or halting channel takes none, and without a record due nothing happens (log entry 5). In D3hot records are dropped as without room (R237). A record has a slate of 64 bytes, of which 0x3C to 0x3F are the CRC-32C of the bytes before them and the payload. -/
def Obligations.RecordEmission : Prop :=
  (∀ (p : PortId) (k : Fin 3) (x : Bool) (s : State),
      (s.port p).due[k.val] = [] →
      Does (.recordEmission p ⟨k.val, by omega⟩ x) s (fun t => t = s)) ∧
  (∀ (p : PortId) (k : Fin 3) (x : Bool) (s : State) (r : Rec) (rest : List Rec),
      (s.port p).due[k.val] = r :: rest →
      ((s.chan (chanOf p k.val)).st = 0 ∨ (s.chan (chanOf p k.val)).st = 3) →
      Does (.recordEmission p ⟨k.val, by omega⟩ x) s (fun t => t = { s with ports := t.ports } ∧ t.port p = { s.port p with due := (s.port p).due.set k.val rest } ∧ (∀ q : PortId, q ≠ p → t.port q = s.port q))) ∧
  (∀ (p : PortId) (k : Fin 3) (x : Bool) (s : State) (r : Rec) (rest : List Rec),
      (s.port p).due[k.val] = r :: rest →
      ((s.chan (chanOf p k.val)).st = 1 ∨ (s.chan (chanOf p k.val)).st = 2) →
      s.link.d3hot = false →
      (s.chan (chanOf p k.val)).room (64 + r.payload.length) = false →
      (s.chan (chanOf p k.val)).unread = true →
      Does (.recordEmission p ⟨k.val, by omega⟩ x) s (fun t => t = s)) ∧
  (∀ (p : PortId) (k : Fin 3) (x : Bool) (s : State) (r : Rec) (rest : List Rec),
      s.MemOk →
      (s.port p).due[k.val] = r :: rest →
      ((s.chan (chanOf p k.val)).st = 1 ∨ (s.chan (chanOf p k.val)).st = 2) →
      (s.link.d3hot = true ∨ ((s.chan (chanOf p k.val)).room (64 + r.payload.length) = false ∧ (s.chan (chanOf p k.val)).unread = false)) →
      Does (.recordEmission p ⟨k.val, by omega⟩ x) s (fun t => t.port p = { s.port p with due := (s.port p).due.set k.val rest } ∧ (∀ q : PortId, q ≠ p → t.port q = s.port q) ∧ ((s.chan (chanOf p k.val)).held = [] → (t.chan (chanOf p k.val)).drop = true) ∧ (t.chan (chanOf p k.val)).dropped = (s.chan (chanOf p k.val)).dropped + 1 ∧
        t.rf (chanOf p k.val).val Off.DMA_DC_DROP 15 0 = min (s.rf (chanOf p k.val).val Off.DMA_DC_DROP 15 0 + 1) 65535 ∧ (∀ d : ChanId, d ≠ chanOf p k.val → t.chan d = s.chan d) ∧ t.units = s.units ∧ t.tks = s.tks)) ∧
  (∀ (p : PortId) (k : Fin 3) (x : Bool) (s : State) (r : Rec) (rest : List Rec),
      s.MemOk →
      (s.port p).due[k.val] = r :: rest →
      ((s.chan (chanOf p k.val)).st = 1 ∨ (s.chan (chanOf p k.val)).st = 2) →
      s.link.d3hot = false →
      (s.chan (chanOf p k.val)).room (64 + r.payload.length) = true →
      Does (.recordEmission p ⟨k.val, by omega⟩ x) s (fun t =>
        let c := chanOf p k.val
        let bs := r.bytes (s.chan c).format (s.lostCount c r)
        let w := ((s.chan c).place (64 + r.payload.length) r.line s.now).1
        t.port p = { s.port p with due := (s.port p).due.set k.val rest } ∧ (∀ q : PortId, q ≠ p → t.port q = s.port q) ∧ bs.length = 64 + r.payload.length ∧ bs.drop 0x40 = r.payload ∧ (bs.drop 0x3C).take 4 = leBytes 4 (crc32c (bs.take 0x3C ++ r.payload)) ∧ (w.map (fun e => e.2.2)).sum = 64 + r.payload.length ∧
        ((w.map (fun (e : Nat × Nat × Nat) => BusOp.memWrite e.1 ((bs.drop e.2.1).take e.2.2) true)).reverse ++ s.bus) <:+ t.bus ∧
        t.pair c.val Off.DMA_DC_RECS_LO = (s.pair c.val Off.DMA_DC_RECS_LO + 1) % 2 ^ 64 ∧
        t.pair c.val Off.DMA_DC_BYTES_LO = (s.pair c.val Off.DMA_DC_BYTES_LO + (64 + r.payload.length)) % 2 ^ 64 ∧
        t.pair c.val Off.DMA_DC_LINE_LO = r.line % 2 ^ 48 ∧ (∀ d : ChanId, d ≠ c → t.chan d = s.chan d) ∧ t.units = s.units ∧ t.tks = s.tks))

/-- CHAN_OPEN of a closed channel opens it with the ring, the end of count and the highest format offered, empty; CHAN_CLOSE puts an open channel to draining or halting; a drain that has ended closes with cause 0 and a halt with cause 1, behind a barrier; the doorbell of a channel that is not closed moves TAIL to an index that the ring can take, and closes the channel with cause 4 for another. (Where no close is due, nothing happens: log entry 5.) -/
def Obligations.ChannelCommands : Prop :=
  (∀ (cx : CtxId) (y : Submission) (s : State) (c : ChanId),
      (s.Accepts cx { op := 0x18, since := 0x20, kinds := [4], slotted := false, args := [0, 1, 2, 3, 4] } y) →
      y.unit = c.val →
      (s.ctxs[cx]).port (portOfChan c).val true = true →
      (s.chan c).st = 0 →
      y.arg 0 % 4096 = 0 →
      (4 ≤ y.arg 2 ∧ y.arg 2 ≤ 16) →
      (1 ≤ y.arg 3 ∧ y.arg 3 ≤ 65535) →
      y.arg 4 &&& 0xFFFFFFF1 = 0 →
      y.arg 4 ≠ 0 →
      s.MemOk →
      Does (.chanOpen cx y) s (fun t => s.Answered t cx y (okRes (if (y.arg 4).testBit 3 then 3 else if (y.arg 4).testBit 2 then 2 else 1) 0) ∧ (∀ d : ChanId, d ≠ c → t.chan d = s.chan d) ∧
        (t.chan c).st = 1 ∧ (t.chan c).ctx = cx.val ∧ (t.chan c).base = y.arg 0 + 2 ^ 32 * y.arg 1 ∧ (t.chan c).k = y.arg 2 ∧ (t.chan c).eocAt = y.arg 3 ∧
        (t.chan c).format = (if (y.arg 4).testBit 3 then 3 else if (y.arg 4).testBit 2 then 2 else 1) ∧ (t.chan c).head = 0 ∧ (t.chan c).tail = 0 ∧ (t.chan c).fresh = true ∧
        (t.chan c).pack = decide (s.rf c.val Off.DMA_DC_CFG 0 0 = 1) ∧ (t.chan c).cur = none ∧ (t.chan c).descs = [] ∧ (t.chan c).held = [] ∧
        s.SameRegs t (rkey c.val Off.DMA_DC_EOC :: injKeys) ∧ t.rf c.val Off.DMA_DC_EOC 15 0 = y.arg 3 ∧
        t.ports = (s.freshStream c).ports ∧ { s with ctxs := t.ctxs, bus := t.bus, jrnl := t.jrnl, chans := t.chans, regs := t.regs, ports := t.ports }.EventsOnly t [mgtSrc (5 * cx.val), mgtSrc (5 * cx.val + 1)] ∧
        (∀ d : CtxId, d ≠ cx → t.ctxs[d] = s.ctxs[d]))) ∧
  (∀ (cx : CtxId) (y : Submission) (s : State) (c : ChanId),
      (s.Accepts cx { op := 0x19, since := 0x20, kinds := [4], slotted := false, args := [0] } y) →
      y.unit = c.val →
      (s.ctxs[cx]).port (portOfChan c).val true = true →
      (s.chan c).st = 1 →
      y.arg 0 ≤ 1 →
      Does (.chanClose cx y) s (fun t => s.Answered t cx y (okRes 0 0) ∧ (∀ d : ChanId, d ≠ c → t.chan d = s.chan d) ∧ t.chan c = { s.chan c with st := 2 + y.arg 0, lastLine := (s.port (portOfChan c)).capturedEnd } ∧
        { s with ctxs := t.ctxs, bus := t.bus, jrnl := t.jrnl, chans := t.chans }.EventsOnly t [mgtSrc (5 * cx.val), mgtSrc (5 * cx.val + 1)] ∧ (∀ d : CtxId, d ≠ cx → t.ctxs[d] = s.ctxs[d]))) ∧
  (∀ (c : ChanId) (s : State),
      ((s.chan c).closing = true ∨ (s.chan c).st ≠ 3 ∧ ((s.chan c).st ≠ 2 ∨ s.drained c = false)) →
      Does (.chanClosed c) s (fun t => t = s)) ∧
  (∀ (c : ChanId) (s : State),
      (s.chan c).closing = false →
      ((s.chan c).st = 2 ∧ s.drained c = true ∨ (s.chan c).st = 3) →
      (s.chan c).cur = none →
      s.link.d3hot = false →
      s.link.perst = false →
      Does (.chanClosed c) s (fun t => (t.chan c).st = 3 ∧ (t.chan c).cur = none ∧ (t.chan c).descs = [] ∧ (∀ d : ChanId, d ≠ c → t.chan d = s.chan d) ∧
        (t.chan c).held.getLast? = some { bar := true, hb := none, events := [], fin := some ((s.chan c).st - 2, (s.chan c).head) } ∧
        ((s.chan c).cur = none → (s.chan c).held = [] → (s.chan c).barrier = false → (t.chan c).barrier = true ∧ t.bus = .flushRead :: s.bus) ∧
        t = { s with chans := t.chans, bus := t.bus, regs := t.regs, raised := t.raised, pend := t.pend, aux := t.aux })) ∧
  (∀ (c : ChanId) (s : State) (d : CurDesc),
      (s.chan c).st = 3 →
      (s.chan c).cur = some d →
      (s.chan c).held = [] →
      (s.chan c).barrier = false →
      d.d.ctl.testBit 14 = false →
      (s.chan c).eocCount + 1 < (s.chan c).eocAt →
      s.link.d3hot = false →
      s.link.perst = false →
      Does (.chanClosed c) s (fun t => (t.chan c).st = 3 ∧ (t.chan c).cur = none ∧ (t.chan c).held = [{ bar := true, hb := none, events := [], fin := some (1, (s.chan c).head) }] ∧ (t.chan c).barrier = true ∧ (∀ d : ChanId, d ≠ c → t.chan d = s.chan d) ∧
        (t.chan c).head = (if d.d.ctl.testBit 2 then 0 else (d.d.idx + 1) % 2 ^ (s.chan c).k) ∧ t = { s with chans := t.chans, bus := t.bus } ∧
        (let a := (s.chan c).base + 32 * d.d.idx
         t.bus = .flushRead ::
           .memWrite (a + 0x0C) (leBytes 2 ((d.d.ctl &&& 0x4004) + b2n d.start * 2 + b2n d.cont)) false ::
           .memWrite (a + 0x0E) (leBytes 2 (d.records + 2 ^ 9 + b2n (!(s.chan c).dirty) * 2 ^ 14 + b2n (s.chan c).drop * 2 ^ 8) ++ leBytes 4 d.written ++ leBytes 4 (d.firstLine % 2 ^ 32)) false :: s.bus))) ∧
  (∀ (c : CtxId) (v : Word) (s : State) (d : ChanId),
      s.Serves c Off.DMA_DC_TAIL true →
      (s.ctxs[c]).selChan.toNat = d.val →
      (s.chan d).st ≠ 0 →
      fld v.toNat 15 0 < 2 ^ (s.chan d).k →
      (fld v.toNat 15 0 + 2 ^ (s.chan d).k - (s.chan d).tail) % 2 ^ (s.chan d).k ≤ ((s.chan d).head + 2 ^ (s.chan d).k - 1 - (s.chan d).tail) % 2 ^ (s.chan d).k →
      Does (.dmaDcTailWrite c v) s (fun t => t = { s with chans := t.chans } ∧ (∀ e : ChanId, e ≠ d → t.chan e = s.chan e) ∧ t.chan d = { s.chan d with tail := fld v.toNat 15 0, stalled := false })) ∧
  (∀ (c : CtxId) (v : Word) (s : State) (d : ChanId),
      s.Serves c Off.DMA_DC_TAIL true →
      (s.ctxs[c]).selChan.toNat = d.val →
      (s.chan d).st ≠ 0 →
      (s.chan d).closing = false →
      (s.chan d).cur = none →
      (2 ^ (s.chan d).k ≤ fld v.toNat 15 0 ∨ ((s.chan d).head + 2 ^ (s.chan d).k - 1 - (s.chan d).tail) % 2 ^ (s.chan d).k < (fld v.toNat 15 0 + 2 ^ (s.chan d).k - (s.chan d).tail) % 2 ^ (s.chan d).k) →
      s.link.d3hot = false →
      s.link.perst = false →
      Does (.dmaDcTailWrite c v) s (fun t => (t.chan d).st = 3 ∧ (t.chan d).cur = none ∧ (t.chan d).descs = [] ∧ (∀ e : ChanId, e ≠ d → t.chan e = s.chan e) ∧
        (t.chan d).held.getLast? = some { bar := true, hb := none, events := [], fin := some (4, fld v.toNat 15 0) } ∧
        ((s.chan d).cur = none → (s.chan d).held = [] → (s.chan d).barrier = false → (t.chan d).barrier = true ∧ t.bus = .flushRead :: s.bus) ∧
        t = { s with chans := t.chans, bus := t.bus, regs := t.regs, raised := t.raised, pend := t.pend, aux := t.aux })) ∧
  (∀ (c : CtxId) (v : Word) (s : State) (d : ChanId),
      s.Serves c Off.DMA_DC_TAIL true →
      (s.ctxs[c]).selChan.toNat = d.val →
      ((s.chan d).st = 0 ∨ (s.chan d).closing = true ∧ (2 ^ (s.chan d).k ≤ fld v.toNat 15 0 ∨ ((s.chan d).head + 2 ^ (s.chan d).k - 1 - (s.chan d).tail) % 2 ^ (s.chan d).k < (fld v.toNat 15 0 + 2 ^ (s.chan d).k - (s.chan d).tail) % 2 ^ (s.chan d).k)) →
      Does (.dmaDcTailWrite c v) s (fun t => t = s))

/-- A descriptor read gives the descriptor to the channel; one that the device owns not ends reading until the next doorbell; one with a bad address or length closes the channel with cause 3; a failed read is tried again three times and then closes it with cause 2. A completed barrier lets the waiting step be made: a hand-back writes status, bytes and first line and then the control word with OWN 0, and the count that it completes raises CHAN_EOC; a close sets DMA_DC_ERR and raises CHAN_CLOSED. A descriptor held too long is handed back, and EOC_TIMEOUT, behind a barrier of its own, raises CHAN_EOC and starts the count again. Each descriptor read is a read of 32 bytes of host memory. A descriptor in use as a cause 2 or 3 arises is handed back with LAST before the close. (Where a command is not due, nothing happens: log entry 5.) -/
def Obligations.DescriptorsAndBarriers : Prop :=
  (∀ (c : ChanId) (ok : Bool) (bytes : List Byte) (s : State),
      ((s.chan c).st = 0 ∨ (s.chan c).st = 3 ∨ (s.chan c).fetch = (s.chan c).tail ∨ (s.chan c).stalled = true ∨ s.link.d3hot = true ∨ s.link.perst = true) →
      Does (.descriptorFetch c ok bytes) s (fun t => t = s)) ∧
  (∀ (c : ChanId) (bytes : List Byte) (s : State),
      ((s.chan c).st = 1 ∨ (s.chan c).st = 2) →
      (s.chan c).fetch ≠ (s.chan c).tail →
      (s.chan c).stalled = false →
      s.link.d3hot = false →
      s.link.perst = false →
      (s.chan c).tries < 3 →
      Does (.descriptorFetch c false bytes) s (fun t => t = { s with chans := t.chans, bus := .memRead ((s.chan c).base + 32 * (s.chan c).fetch) 32 false :: s.bus } ∧ (∀ d : ChanId, d ≠ c → t.chan d = s.chan d) ∧ t.chan c = { s.chan c with tries := (s.chan c).tries + 1 })) ∧
  (∀ (c : ChanId) (bytes : List Byte) (s : State),
      s.MemOk →
      ((s.chan c).st = 1 ∨ (s.chan c).st = 2) →
      (s.chan c).fetch ≠ (s.chan c).tail →
      (s.chan c).stalled = false →
      s.link.d3hot = false →
      s.link.perst = false →
      3 ≤ (s.chan c).tries →
      (s.chan c).cur = none →
      (s.chan c).closing = false →
      Does (.descriptorFetch c false bytes) s (fun t => (t.chan c).st = 3 ∧ (t.chan c).cur = none ∧ (t.chan c).descs = [] ∧ (∀ d : ChanId, d ≠ c → t.chan d = s.chan d) ∧
        (t.chan c).held.getLast? = some { bar := true, hb := none, events := [], fin := some (2, (s.chan c).fetch) } ∧
        ((s.chan c).cur = none → (s.chan c).held = [] → (s.chan c).barrier = false → (t.chan c).barrier = true ∧ t.bus = .flushRead :: .memRead ((s.chan c).base + 32 * (s.chan c).fetch) 32 false :: s.bus) ∧
        t = { s with chans := t.chans, bus := t.bus, regs := t.regs, raised := t.raised, pend := t.pend, aux := t.aux } ∧
        t.pair c.val Off.DMA_DC_ERR_ADDR_LO = ((s.chan c).base + 32 * (s.chan c).fetch) % 2 ^ 64)) ∧
  (∀ (c : ChanId) (bytes : List Byte) (s : State),
      ((s.chan c).st = 1 ∨ (s.chan c).st = 2) →
      (s.chan c).fetch ≠ (s.chan c).tail →
      (s.chan c).stalled = false →
      s.link.d3hot = false →
      s.link.perst = false →
      (leAt bytes 0x0C 2).testBit 15 = false →
      Does (.descriptorFetch c true bytes) s (fun t => t = { s with chans := t.chans, bus := .memRead ((s.chan c).base + 32 * (s.chan c).fetch) 32 false :: s.bus } ∧ (∀ d : ChanId, d ≠ c → t.chan d = s.chan d) ∧ t.chan c = { s.chan c with stalled := true, tries := 0 })) ∧
  (∀ (c : ChanId) (bytes : List Byte) (s : State),
      ((s.chan c).st = 1 ∨ (s.chan c).st = 2) →
      (s.chan c).fetch ≠ (s.chan c).tail →
      (s.chan c).stalled = false →
      s.link.d3hot = false →
      s.link.perst = false →
      (leAt bytes 0x0C 2).testBit 15 = true →
      leAt bytes 0 8 % 64 = 0 →
      leAt bytes 8 4 % 64 = 0 →
      64 ≤ leAt bytes 8 4 →
      leAt bytes 8 4 ≤ 2 ^ 24 →
      Does (.descriptorFetch c true bytes) s (fun t => t = { s with chans := t.chans, bus := .memRead ((s.chan c).base + 32 * (s.chan c).fetch) 32 false :: s.bus } ∧ (∀ d : ChanId, d ≠ c → t.chan d = s.chan d) ∧ t.chan c = { s.chan c with tries := 0, fetch := (if (leAt bytes 0x0C 2).testBit 2 then 0 else ((s.chan c).fetch + 1) % 2 ^ (s.chan c).k), descs := (s.chan c).descs ++ [{ idx := (s.chan c).fetch, addr := leAt bytes 0 8, len := leAt bytes 8 4, ctl := leAt bytes 0x0C 2 }] })) ∧
  (∀ (c : ChanId) (bytes : List Byte) (s : State),
      ((s.chan c).st = 1 ∨ (s.chan c).st = 2) →
      (s.chan c).fetch ≠ (s.chan c).tail →
      (s.chan c).stalled = false →
      s.link.d3hot = false →
      s.link.perst = false →
      (leAt bytes 0x0C 2).testBit 15 = true →
      (leAt bytes 0 8 % 64 ≠ 0 ∨ leAt bytes 8 4 % 64 ≠ 0 ∨ leAt bytes 8 4 < 64 ∨ 2 ^ 24 < leAt bytes 8 4) →
      (s.chan c).cur = none →
      (s.chan c).closing = false →
      Does (.descriptorFetch c true bytes) s (fun t => (t.chan c).st = 3 ∧ (t.chan c).cur = none ∧ (t.chan c).descs = [] ∧ (∀ d : ChanId, d ≠ c → t.chan d = s.chan d) ∧
        (t.chan c).held.getLast? = some { bar := true, hb := none, events := [], fin := some (3, (s.chan c).fetch) } ∧
        ((s.chan c).cur = none → (s.chan c).held = [] → (s.chan c).barrier = false → (t.chan c).barrier = true ∧ t.bus = .flushRead :: .memRead ((s.chan c).base + 32 * (s.chan c).fetch) 32 false :: s.bus) ∧
        t = { s with chans := t.chans, bus := t.bus, regs := t.regs, raised := t.raised, pend := t.pend, aux := t.aux })) ∧
  (∀ (c : ChanId) (bytes : List Byte) (s : State) (d : CurDesc),
      s.MemOk →
      ((s.chan c).st = 1 ∨ (s.chan c).st = 2) →
      (s.chan c).fetch ≠ (s.chan c).tail →
      (s.chan c).stalled = false →
      s.link.d3hot = false →
      s.link.perst = false →
      3 ≤ (s.chan c).tries →
      (s.chan c).cur = some d →
      (s.chan c).closing = false →
      (s.chan c).held = [] →
      (s.chan c).barrier = false →
      d.d.ctl.testBit 14 = false →
      (s.chan c).eocCount + 1 < (s.chan c).eocAt →
      Does (.descriptorFetch c false bytes) s (fun t => (t.chan c).st = 3 ∧ (t.chan c).cur = none ∧ (t.chan c).descs = [] ∧ (t.chan c).held = [{ bar := true, hb := none, events := [], fin := some (2, (s.chan c).fetch) }] ∧ (t.chan c).barrier = true ∧ (∀ d : ChanId, d ≠ c → t.chan d = s.chan d) ∧
        (t.chan c).head = (if d.d.ctl.testBit 2 then 0 else (d.d.idx + 1) % 2 ^ (s.chan c).k) ∧ t = { s with chans := t.chans, bus := t.bus, regs := t.regs } ∧ t.pair c.val Off.DMA_DC_ERR_ADDR_LO = ((s.chan c).base + 32 * (s.chan c).fetch) % 2 ^ 64 ∧
        (let a := (s.chan c).base + 32 * d.d.idx
         t.bus = .flushRead ::
           .memWrite (a + 0x0C) (leBytes 2 ((d.d.ctl &&& 0x4004) + b2n d.start * 2 + b2n d.cont)) false ::
           .memWrite (a + 0x0E) (leBytes 2 (d.records + 2 ^ 9 + b2n (!(s.chan c).dirty) * 2 ^ 14 + b2n (s.chan c).drop * 2 ^ 8) ++ leBytes 4 d.written ++ leBytes 4 (d.firstLine % 2 ^ 32)) false :: .memRead ((s.chan c).base + 32 * (s.chan c).fetch) 32 false :: s.bus))) ∧
  (∀ (c : ChanId) (bytes : List Byte) (s : State) (d : CurDesc),
      s.MemOk →
      ((s.chan c).st = 1 ∨ (s.chan c).st = 2) →
      (s.chan c).fetch ≠ (s.chan c).tail →
      (s.chan c).stalled = false →
      s.link.d3hot = false →
      s.link.perst = false →
      (leAt bytes 0x0C 2).testBit 15 = true →
      (leAt bytes 0 8 % 64 ≠ 0 ∨ leAt bytes 8 4 % 64 ≠ 0 ∨ leAt bytes 8 4 < 64 ∨ 2 ^ 24 < leAt bytes 8 4) →
      (s.chan c).cur = some d →
      (s.chan c).closing = false →
      (s.chan c).held = [] →
      (s.chan c).barrier = false →
      d.d.ctl.testBit 14 = false →
      (s.chan c).eocCount + 1 < (s.chan c).eocAt →
      Does (.descriptorFetch c true bytes) s (fun t => (t.chan c).st = 3 ∧ (t.chan c).cur = none ∧ (t.chan c).descs = [] ∧ (t.chan c).held = [{ bar := true, hb := none, events := [], fin := some (3, (s.chan c).fetch) }] ∧ (t.chan c).barrier = true ∧ (∀ d : ChanId, d ≠ c → t.chan d = s.chan d) ∧
        (t.chan c).head = (if d.d.ctl.testBit 2 then 0 else (d.d.idx + 1) % 2 ^ (s.chan c).k) ∧ t = { s with chans := t.chans, bus := t.bus } ∧
        (let a := (s.chan c).base + 32 * d.d.idx
         t.bus = .flushRead ::
           .memWrite (a + 0x0C) (leBytes 2 ((d.d.ctl &&& 0x4004) + b2n d.start * 2 + b2n d.cont)) false ::
           .memWrite (a + 0x0E) (leBytes 2 (d.records + 2 ^ 9 + b2n (!(s.chan c).dirty) * 2 ^ 14 + b2n (s.chan c).drop * 2 ^ 8) ++ leBytes 4 d.written ++ leBytes 4 (d.firstLine % 2 ^ 32)) false :: .memRead ((s.chan c).base + 32 * (s.chan c).fetch) 32 false :: s.bus))) ∧
  (∀ (c : ChanId) (s : State),
      (s.chan c).barrier = false →
      Does (.barrierDone c) s (fun t => t = s)) ∧
  (∀ (c : ChanId) (s : State) (b : HandBack),
      s.MemOk →
      (s.chan c).barrier = true →
      ((s.chan c).held = [{ bar := true, hb := some b, events := [], fin := none }]) →
      Does (.barrierDone c) s (fun t =>
        let a := (s.chan c).base + 32 * b.idx
        let eoc := (s.chan c).eocAt ≤ (s.chan c).eocCount + 1
        t.bus = .memWrite (a + 0x0C) (leBytes 2 b.ctl) false ::
          .memWrite (a + 0x0E) (leBytes 2 (b.status + b2n (!(s.chan c).dirty) * 2 ^ 14 + (if eoc then 2 ^ 10 else 0) + b2n (s.chan c).drop * 2 ^ 8) ++ leBytes 4 b.written ++ leBytes 4 b.firstLine) false :: s.bus ∧
        t.chan c = { s.chan c with barrier := false, held := [], drop := false, head := (if b.ctl.testBit 2 then 0 else (b.idx + 1) % 2 ^ (s.chan c).k), lastHb := (b.idx, b.firstLine), eocCount := (if eoc then 0 else (s.chan c).eocCount + 1), eocFirst := (if eoc then none else (s.chan c).eocFirst.or (some s.now)), eocAt := (if eoc then s.rf c.val Off.DMA_DC_EOC 15 0 else (s.chan c).eocAt) } ∧
        (∀ d : ChanId, d ≠ c → t.chan d = s.chan d) ∧ t.raisings (chanSrc c.val 0) = s.raisings (chanSrc c.val 0) + (if eoc then 1 else 0) ∧
        { s with chans := t.chans, bus := t.bus }.EventsOnly t [chanSrc c.val 0])) ∧
  (∀ (c : ChanId) (s : State) (cause idx : Nat),
      s.MemOk →
      (s.chan c).barrier = true →
      ((s.chan c).held = [{ bar := true, hb := none, events := [], fin := some (cause, idx) }]) →
      Does (.barrierDone c) s (fun t => (t.chan c).st = 0 ∧ (t.chan c).held = [] ∧ (t.chan c).cur = none ∧ (t.chan c).descs = [] ∧ (t.chan c).barrier = false ∧ (∀ d : ChanId, d ≠ c → t.chan d = s.chan d) ∧
        t.eff c.val Off.DMA_DC_ERR = (2 ^ 31 + cause * 2 ^ 16 + idx % 2 ^ 16) % 2 ^ 32 ∧ t.raisings (chanSrc c.val 3) = s.raisings (chanSrc c.val 3) + 1 ∧
        s.SameRegs t (rkey c.val Off.DMA_DC_ERR :: injKeys) ∧ t.bus = s.bus ∧
        (if c.val % 4 = 3 then (t.tks.ports[portOfChan c]).rewind = none else { s with chans := t.chans, regs := t.regs }.EventsOnly t [chanSrc c.val 3]))) ∧
  (∀ (c : ChanId) (s : State) (n : Nat),
      s.MemOk →
      (s.chan c).barrier = true →
      ((s.chan c).held = [{ bar := true, hb := none, events := [], fin := none, timed := true }]) →
      (s.chan c).eocFirst = some n →
      s.rf c.val Off.DMA_DC_EOC 31 16 ≠ 0 →
      n + s.rf c.val Off.DMA_DC_EOC 31 16 * 1000 ≤ s.now →
      Does (.barrierDone c) s (fun t =>
        t.chan c = { s.chan c with barrier := false, held := [], eocCount := 0, eocFirst := none, eocAt := s.rf c.val Off.DMA_DC_EOC 15 0 } ∧ (∀ d : ChanId, d ≠ c → t.chan d = s.chan d) ∧
        t.bus = s.bus ∧ t.raisings (chanSrc c.val 0) = s.raisings (chanSrc c.val 0) + 1 ∧ { s with chans := t.chans }.EventsOnly t [chanSrc c.val 0])) ∧
  (∀ (c : ChanId) (t0 : Nat) (s : State),
      (∀ d ∈ (s.chan c).cur, ∀ n ∈ d.since, (s.chan c).pack = false ∨ d.records = 0 ∨ max s.now t0 < n + (s.chan c).hold * 1000) →
      Does (.holdExpiry c t0) s (fun t => t = { s with now := max s.now t0 })) ∧
  (∀ (c : ChanId) (t0 : Nat) (s : State) (d : CurDesc) (n : Nat),
      (s.chan c).cur = some d →
      d.since = some n →
      (s.chan c).pack = true →
      d.records ≠ 0 →
      n + (s.chan c).hold * 1000 ≤ max s.now t0 →
      (s.chan c).barrier = true →
      Does (.holdExpiry c t0) s (fun t => t = { s with now := max s.now t0, chans := t.chans } ∧ (∀ d : ChanId, d ≠ c → t.chan d = s.chan d) ∧
        t.chan c = { s.chan c with cur := none, held := (s.chan c).held ++ [{ bar := d.d.ctl.testBit 14, hb := some { idx := d.d.idx, status := d.records, written := d.written, firstLine := d.firstLine % 2 ^ 32, ctl := (d.d.ctl &&& 0x4004) + b2n d.start * 2 + b2n d.cont }, events := [], fin := none }] })) ∧
  (∀ (c : ChanId) (t0 : Nat) (s : State) (d : CurDesc) (n : Nat),
      (s.chan c).cur = some d →
      d.since = some n →
      (s.chan c).pack = true →
      d.records ≠ 0 →
      n + (s.chan c).hold * 1000 ≤ max s.now t0 →
      (s.chan c).barrier = false →
      (s.chan c).held = [] →
      s.link.d3hot = false →
      s.link.perst = false →
      Does (.holdExpiry c t0) s (fun t => t = { s with now := max s.now t0, chans := t.chans, bus := t.bus } ∧ (∀ d : ChanId, d ≠ c → t.chan d = s.chan d) ∧
        (let a := (s.chan c).base + 32 * d.d.idx
         if d.d.ctl.testBit 14 = true ∨ (s.chan c).eocAt ≤ (s.chan c).eocCount + 1 then
           t.bus = .flushRead :: s.bus ∧ t.chan c = { s.chan c with cur := none, barrier := true, dirty := false, held := [{ bar := d.d.ctl.testBit 14, hb := some { idx := d.d.idx, status := d.records, written := d.written, firstLine := d.firstLine % 2 ^ 32, ctl := (d.d.ctl &&& 0x4004) + b2n d.start * 2 + b2n d.cont }, events := [], fin := none }] }
         else
           t.bus = .memWrite (a + 0x0C) (leBytes 2 ((d.d.ctl &&& 0x4004) + b2n d.start * 2 + b2n d.cont)) false ::
             .memWrite (a + 0x0E) (leBytes 2 (d.records + b2n (!(s.chan c).dirty) * 2 ^ 14 + b2n (s.chan c).drop * 2 ^ 8) ++ leBytes 4 d.written ++ leBytes 4 (d.firstLine % 2 ^ 32)) false :: s.bus ∧
           t.chan c = { s.chan c with cur := none, drop := false, head := (if d.d.ctl.testBit 2 then 0 else (d.d.idx + 1) % 2 ^ (s.chan c).k), lastHb := (d.d.idx, d.firstLine % 2 ^ 32), eocCount := (s.chan c).eocCount + 1, eocFirst := (s.chan c).eocFirst.or (some (max s.now t0)) }))) ∧
  (∀ (c : ChanId) (t0 : Nat) (s : State),
      ((s.chan c).eocFirst = none ∨ s.rf c.val Off.DMA_DC_EOC 31 16 = 0 ∨ (s.chan c).st = 0 ∨ (∀ n ∈ (s.chan c).eocFirst, max s.now t0 < n + s.rf c.val Off.DMA_DC_EOC 31 16 * 1000)) →
      Does (.eocTimeout c t0) s (fun t => t = { s with now := max s.now t0 })) ∧
  (∀ (c : ChanId) (t0 : Nat) (s : State) (n : Nat),
      (s.chan c).eocFirst = some n →
      s.rf c.val Off.DMA_DC_EOC 31 16 ≠ 0 →
      (s.chan c).st ≠ 0 →
      n + s.rf c.val Off.DMA_DC_EOC 31 16 * 1000 ≤ max s.now t0 →
      (s.chan c).held = [] →
      (s.chan c).barrier = false →
      s.link.d3hot = false →
      s.link.perst = false →
      Does (.eocTimeout c t0) s (fun t => t = { s with now := max s.now t0, chans := t.chans, bus := .flushRead :: s.bus } ∧ (∀ d : ChanId, d ≠ c → t.chan d = s.chan d) ∧
        t.chan c = { s.chan c with barrier := true, dirty := false, held := [{ bar := true, hb := none, events := [], fin := none, timed := true }] }))

/-- With a true condition, a transfer block at a multiple of 8 within scratch, and valid fields and ranges, XFER begins the move of its bytes, from the top down where the ranges overlap and the destination lies above, SHUF the moves of its elements in the order of the destination, and XFERX the moves that its index table names; a block of no byte is done at once. Invalid fields halt the script with cause 7, overlapping ranges of SHUF with cause 3; a bad block address traps. -/
def Obligations.ScriptTransfers : Prop :=
  (∀ (c : ScriptId) (f : ZscFields) (s : State),
      (s.Takes (scriptEng c) 1 { ra := true, imm := true } f) →
      (s.eng (scriptEng c)).condTrue f.cond = false →
      Does (.xfer c f) s (fun t => s.OnlyEng t (scriptEng c) ((s.eng (scriptEng c)).went ((s.eng (scriptEng c)).pc + 1) 1))) ∧
  (∀ (c : ScriptId) (f : ZscFields) (s : State),
      (s.Takes (scriptEng c) 1 { ra := true, imm := true } f) →
      (s.eng (scriptEng c)).condTrue f.cond = true →
      (((s.eng (scriptEng c)).get f.ra + f.imm).toNat % 8 ≠ 0 ∨ 0x3E0 < ((s.eng (scriptEng c)).get f.ra + f.imm).toNat) →
      Does (.xfer c f) s (fun t => s.Trapped t (scriptEng c) 2 ((s.eng (scriptEng c)).get f.ra + f.imm).toNat)) ∧
  (∀ (c : ScriptId) (f : ZscFields) (s : State),
      (s.Takes (scriptEng c) 1 { ra := true, imm := true } f) →
      (s.eng (scriptEng c)).condTrue f.cond = false →
      Does (.xferx c f) s (fun t => s.OnlyEng t (scriptEng c) ((s.eng (scriptEng c)).went ((s.eng (scriptEng c)).pc + 1) 1))) ∧
  (∀ (c : ScriptId) (f : ZscFields) (s : State),
      (s.Takes (scriptEng c) 1 { ra := true, imm := true } f) →
      (s.eng (scriptEng c)).condTrue f.cond = true →
      (((s.eng (scriptEng c)).get f.ra + f.imm).toNat % 8 ≠ 0 ∨ 0x3E0 < ((s.eng (scriptEng c)).get f.ra + f.imm).toNat) →
      Does (.xferx c f) s (fun t => s.Trapped t (scriptEng c) 2 ((s.eng (scriptEng c)).get f.ra + f.imm).toNat)) ∧
  (∀ (c : ScriptId) (f : ZscFields) (s : State),
      (s.Takes (scriptEng c) 1 { ra := true, imm := true } f) →
      (s.eng (scriptEng c)).condTrue f.cond = false →
      Does (.shuf c f) s (fun t => s.OnlyEng t (scriptEng c) ((s.eng (scriptEng c)).went ((s.eng (scriptEng c)).pc + 1) 1))) ∧
  (∀ (c : ScriptId) (f : ZscFields) (s : State),
      (s.Takes (scriptEng c) 1 { ra := true, imm := true } f) →
      (s.eng (scriptEng c)).condTrue f.cond = true →
      (((s.eng (scriptEng c)).get f.ra + f.imm).toNat % 8 ≠ 0 ∨ 0x3E0 < ((s.eng (scriptEng c)).get f.ra + f.imm).toNat) →
      Does (.shuf c f) s (fun t => s.Trapped t (scriptEng c) 2 ((s.eng (scriptEng c)).get f.ra + f.imm).toNat)) ∧
  (∀ (c : ScriptId) (f : ZscFields) (s : State) (b : List Byte),
      (s.Takes (scriptEng c) 1 { ra := true, imm := true } f) →
      (s.eng (scriptEng c)).condTrue f.cond = true →
      ((s.eng (scriptEng c)).get f.ra + f.imm).toNat % 8 = 0 →
      ((s.eng (scriptEng c)).get f.ra + f.imm).toNat ≤ 0x3E0 →
      b = (s.eng (scriptEng c)).xferBlock ((s.eng (scriptEng c)).get f.ra + f.imm).toNat →
      leAt b 0x14 1 < 3 →
      leAt b 0x15 1 < 3 →
      leAt b 0x16 2 = 0 →
      leAt b 0x18 8 = 0 →
      rangeOk (leAt b 0x14 1) (leAt b 0 8) (leAt b 0x10 4) = true →
      rangeOk (leAt b 0x15 1) (leAt b 8 8) (leAt b 0x10 4) = true →
      leAt b 0x10 4 ≠ 0 →
      Does (.xfer c f) s (fun t => t = { s with scripts := t.scripts } ∧ (∀ d : ScriptId, d ≠ c → t.script d = s.script d) ∧ t.script c = { s.script c with xfer := some { srcSp := leAt b 0x14 1, dstSp := leAt b 0x15 1, table := none, moves := [(leAt b 0 8, leAt b 8 8, leAt b 0x10 4)], descending := decide (leAt b 0x14 1 = leAt b 0x15 1 ∧ leAt b 0 8 < leAt b 8 8 ∧ leAt b 8 8 < leAt b 0 8 + leAt b 0x10 4), written := 0, span := none, tries := 0, cost := 6 + (leAt b 0x10 4 + 31) / 32 } })) ∧
  (∀ (c : ScriptId) (f : ZscFields) (s : State) (b : List Byte),
      (s.Takes (scriptEng c) 1 { ra := true, imm := true } f) →
      (s.eng (scriptEng c)).condTrue f.cond = true →
      ((s.eng (scriptEng c)).get f.ra + f.imm).toNat % 8 = 0 →
      ((s.eng (scriptEng c)).get f.ra + f.imm).toNat ≤ 0x3E0 →
      b = (s.eng (scriptEng c)).xferBlock ((s.eng (scriptEng c)).get f.ra + f.imm).toNat →
      leAt b 0x14 1 < 3 →
      leAt b 0x15 1 < 3 →
      leAt b 0x16 2 = 0 →
      leAt b 0x18 8 = 0 →
      rangeOk (leAt b 0x14 1) (leAt b 0 8) 0 = true →
      rangeOk (leAt b 0x15 1) (leAt b 8 8) 0 = true →
      leAt b 0x10 4 = 0 →
      Does (.xfer c f) s (fun t => s.OnlyEng t (scriptEng c) ((s.eng (scriptEng c)).went ((s.eng (scriptEng c)).pc + 1) 6))) ∧
  (∀ (c : ScriptId) (f : ZscFields) (s : State) (b : List Byte),
      s.MemOk →
      (s.Takes (scriptEng c) 1 { ra := true, imm := true } f) →
      (s.eng (scriptEng c)).condTrue f.cond = true →
      ((s.eng (scriptEng c)).get f.ra + f.imm).toNat % 8 = 0 →
      ((s.eng (scriptEng c)).get f.ra + f.imm).toNat ≤ 0x3E0 →
      b = (s.eng (scriptEng c)).xferBlock ((s.eng (scriptEng c)).get f.ra + f.imm).toNat →
      (3 ≤ leAt b 0x14 1 ∨ 3 ≤ leAt b 0x15 1 ∨ leAt b 0x16 2 ≠ 0 ∨ leAt b 0x18 8 ≠ 0 ∨ rangeOk (leAt b 0x14 1) (leAt b 0 8) (leAt b 0x10 4) = false ∨ rangeOk (leAt b 0x15 1) (leAt b 8 8) (leAt b 0x10 4) = false) →
      Does (.xfer c f) s (fun t => (t.script c).st = .halted ∧ (t.script c).cause = 7 ∧ (t.script c).xfer = none ∧ (∀ d : ScriptId, d ≠ c → t.script d = s.script d) ∧ (∀ e : EngId, e ≠ scriptEng c → t.eng e = s.eng e) ∧ t.eng (scriptEng c) = { s.eng (scriptEng c) with run := .halted } ∧
        t.raisings (scriptSrc c.val 1) = s.raisings (scriptSrc c.val 1) + 1 ∧ t.eff (scSel c) Off.DMA_SC_XFER_DONE = 0 ∧ t.ports = s.ports ∧ t.tbl = s.tbl ∧ t.store = s.store)) ∧
  (∀ (c : ScriptId) (f : ZscFields) (s : State) (b : List Byte) (np m el dir : Nat),
      (s.Takes (scriptEng c) 1 { ra := true, imm := true } f) →
      (s.eng (scriptEng c)).condTrue f.cond = true →
      ((s.eng (scriptEng c)).get f.ra + f.imm).toNat % 8 = 0 →
      ((s.eng (scriptEng c)).get f.ra + f.imm).toNat ≤ 0x3E0 →
      b = (s.eng (scriptEng c)).xferBlock ((s.eng (scriptEng c)).get f.ra + f.imm).toNat →
      leAt b 0x14 1 < 3 →
      leAt b 0x15 1 < 3 →
      leAt b 0x16 2 = 0 →
      np = leAt b 0x18 1 →
      m = leAt b 0x1C 4 →
      el = 2 ^ leAt b 0x19 1 →
      dir = leAt b 0x1A 1 →
      (1 ≤ np ∧ np ≤ 4) →
      leAt b 0x19 1 < 3 →
      dir < 2 →
      leAt b 0x1B 1 = 0 →
      (1 ≤ m ∧ m ≤ 2 ^ 24) →
      leAt b 0x10 4 = np * m * el →
      rangeOk (leAt b 0x14 1) (leAt b 0 8) (leAt b 0x10 4) = true →
      rangeOk (leAt b 0x15 1) (leAt b 8 8) (leAt b 0x10 4) = true →
      (leAt b 0x14 1 ≠ leAt b 0x15 1 ∨ leAt b 0 8 + leAt b 0x10 4 ≤ leAt b 8 8 ∨ leAt b 8 8 + leAt b 0x10 4 ≤ leAt b 0 8) →
      Does (.shuf c f) s (fun t => t = { s with scripts := t.scripts } ∧ (∀ d : ScriptId, d ≠ c → t.script d = s.script d) ∧ t.script c = { s.script c with xfer := some { srcSp := leAt b 0x14 1, dstSp := leAt b 0x15 1, table := none, moves := (List.range (np * m)).map (fun j => (leAt b 0 8 + (if dir = 0 then j % m * np + j / m else j % np * m + j / np) * el, leAt b 8 8 + j * el, el)), descending := false, written := 0, span := none, tries := 0, cost := 6 + (leAt b 0x10 4 + 15) / 16 } })) ∧
  (∀ (c : ScriptId) (f : ZscFields) (s : State) (b : List Byte),
      s.MemOk →
      (s.Takes (scriptEng c) 1 { ra := true, imm := true } f) →
      (s.eng (scriptEng c)).condTrue f.cond = true →
      ((s.eng (scriptEng c)).get f.ra + f.imm).toNat % 8 = 0 →
      ((s.eng (scriptEng c)).get f.ra + f.imm).toNat ≤ 0x3E0 →
      b = (s.eng (scriptEng c)).xferBlock ((s.eng (scriptEng c)).get f.ra + f.imm).toNat →
      leAt b 0x14 1 < 3 →
      leAt b 0x15 1 < 3 →
      leAt b 0x16 2 = 0 →
      (1 ≤ leAt b 0x18 1 ∧ leAt b 0x18 1 ≤ 4) →
      leAt b 0x19 1 < 3 →
      leAt b 0x1A 1 < 2 →
      leAt b 0x1B 1 = 0 →
      (1 ≤ leAt b 0x1C 4 ∧ leAt b 0x1C 4 ≤ 2 ^ 24) →
      leAt b 0x10 4 = leAt b 0x18 1 * leAt b 0x1C 4 * 2 ^ leAt b 0x19 1 →
      rangeOk (leAt b 0x14 1) (leAt b 0 8) (leAt b 0x10 4) = true →
      rangeOk (leAt b 0x15 1) (leAt b 8 8) (leAt b 0x10 4) = true →
      (leAt b 0x14 1 = leAt b 0x15 1 ∧ leAt b 0 8 < leAt b 8 8 + leAt b 0x10 4 ∧ leAt b 8 8 < leAt b 0 8 + leAt b 0x10 4) →
      Does (.shuf c f) s (fun t => (t.script c).st = .halted ∧ (t.script c).cause = 3 ∧ (t.script c).xfer = none ∧ (∀ d : ScriptId, d ≠ c → t.script d = s.script d) ∧ (∀ e : EngId, e ≠ scriptEng c → t.eng e = s.eng e) ∧ t.eng (scriptEng c) = { s.eng (scriptEng c) with run := .halted } ∧
        t.raisings (scriptSrc c.val 1) = s.raisings (scriptSrc c.val 1) + 1 ∧ t.eff (scSel c) Off.DMA_SC_XFER_DONE = 0 ∧ t.ports = s.ports ∧ t.tbl = s.tbl ∧ t.store = s.store)) ∧
  (∀ (c : ScriptId) (f : ZscFields) (s : State) (b : List Byte) (tb mode : Nat),
      (s.Takes (scriptEng c) 1 { ra := true, imm := true } f) →
      (s.eng (scriptEng c)).condTrue f.cond = true →
      ((s.eng (scriptEng c)).get f.ra + f.imm).toNat % 8 = 0 →
      ((s.eng (scriptEng c)).get f.ra + f.imm).toNat ≤ 0x3E0 →
      b = (s.eng (scriptEng c)).xferBlock ((s.eng (scriptEng c)).get f.ra + f.imm).toNat →
      leAt b 0x14 1 < 3 →
      leAt b 0x15 1 < 3 →
      leAt b 0x16 2 = 0 →
      leAt b 0x10 4 = 0 →
      tb = leAt b 0x18 1 →
      tb < 64 →
      mode = leAt b 0x19 1 →
      mode < 2 →
      leAt b 0x1A 2 = 0 →
      leAt b 0x1C 4 = 0 →
      Does (.xferx c f) s (fun t => t = { s with scripts := t.scripts } ∧ (∀ d : ScriptId, d ≠ c → t.script d = s.script d) ∧ t.script c = { s.script c with xfer := some { srcSp := leAt b 0x14 1, dstSp := leAt b 0x15 1, table := some (tb, mode), moves := [(leAt b 0 8, leAt b 8 8, 0)], descending := false, written := 0, span := none, tries := 0, cost := 0 } })) ∧
  (∀ (c : ScriptId) (f : ZscFields) (s : State) (b : List Byte),
      s.MemOk →
      (s.Takes (scriptEng c) 1 { ra := true, imm := true } f) →
      (s.eng (scriptEng c)).condTrue f.cond = true →
      ((s.eng (scriptEng c)).get f.ra + f.imm).toNat % 8 = 0 →
      ((s.eng (scriptEng c)).get f.ra + f.imm).toNat ≤ 0x3E0 →
      b = (s.eng (scriptEng c)).xferBlock ((s.eng (scriptEng c)).get f.ra + f.imm).toNat →
      (3 ≤ leAt b 0x14 1 ∨ 3 ≤ leAt b 0x15 1 ∨ leAt b 0x16 2 ≠ 0 ∨ leAt b 0x10 4 ≠ 0 ∨ 64 ≤ leAt b 0x18 1 ∨ 2 ≤ leAt b 0x19 1 ∨ leAt b 0x1A 2 ≠ 0 ∨ leAt b 0x1C 4 ≠ 0) →
      Does (.xferx c f) s (fun t => (t.script c).st = .halted ∧ (t.script c).cause = 7 ∧ (t.script c).xfer = none ∧ (∀ d : ScriptId, d ≠ c → t.script d = s.script d) ∧ (∀ e : EngId, e ≠ scriptEng c → t.eng e = s.eng e) ∧ t.eng (scriptEng c) = { s.eng (scriptEng c) with run := .halted } ∧
        t.raisings (scriptSrc c.val 1) = s.raisings (scriptSrc c.val 1) + 1 ∧ t.eff (scSel c) Off.DMA_SC_XFER_DONE = 0 ∧ t.ports = s.ports ∧ t.tbl = s.tbl ∧ t.store = s.store))

/-- The read of the index table of XFERX gives its moves; a completed access moves at most the bytes asked for from the first move of a transfer, within a 4 KiB page and the sizes of the link, to host memory, to scratch or to a place of the device map, counts them and goes on; with the last byte the transfer ends and the script goes to its next instruction. An access that the starting context may not make, or to a protected place, halts the script with its cause before anything is written; a failing one, or one that reads an entry of a remapped row, is tried again up to RETRY times and then halts it with BUS_ERROR. Host accesses wait in D3hot. (Where no access is due, nothing happens: log entry 5.) -/
def Obligations.ScriptAccesses : Prop :=
  (∀ (c : ScriptId) (ok : Bool) (kind n corr merged : Nat) (data : List Byte) (s : State),
      (∀ x ∈ (s.script c).xfer, x.table = none ∧ (x.moves = [] ∨ (s.link.d3hot = true ∧ (x.srcSp = 0 ∨ x.dstSp = 0)))) →
      Does (.scriptAccessDone c ok kind n ⟨data, corr, merged⟩) s (fun t => t = s)) ∧
  (∀ (c : ScriptId) (ok : Bool) (kind n corr merged : Nat) (data : List Byte) (s : State) (x : XferSt) (a d l : Nat) (r : List (Nat × Nat × Nat)) (q : Nat × Nat × Nat),
      s.MemOk →
      (s.script c).xfer = some x →
      x.table = none →
      (x.moves = (a, d, l) :: r) →
      (s.link.d3hot = false ∨ (x.srcSp ≠ 0 ∧ x.dstSp ≠ 0)) →
      q = s.nextAccess x n →
      s.scCheck c x.srcSp q.1 q.2.2 false = none →
      s.scCheck c x.dstSp q.2.1 q.2.2 true = none →
      (s.script c).aborting = false →
      s.failPlace x ok kind q.1 q.2.1 q.2.2 = none →
      (r ≠ [] ∨ q.2.2 < l) →
      Does (.scriptAccessDone c ok kind n ⟨data, corr, merged⟩) s (fun t =>
        let m := q.2.2
        let bs : List Byte := if x.srcSp = 0 then List.take m (data ++ List.replicate m (0 : Byte)) else s.scRead c x.srcSp q.1 m
        let u := if x.srcSp = 0 then s.hostRead q.1 m else s
        let v0 := (match eccPort x.srcSp q.1 with | some p => u.incRf p.val Off.PIP_ECC 15 0 corr | none => u)
        let v := (match eccPort x.dstSp q.2.1 with | some p => v0.incRf p.val Off.PIP_ECC 15 0 (if mergeWords x.dstSp q.2.1 m = [] then 0 else merged) | none => v0)
        let w := if x.dstSp = 0 then v.hostWrite q.2.1 bs else v.scWrite c x.dstSp q.2.1 bs
        (1 ≤ l → 1 ≤ n → 1 ≤ m ∧ m ≤ n ∧ m ≤ l ∧ (x.srcSp = 0 → m ≤ 128 * 2 ^ s.link.pci.mrrs ∧ q.1 / 4096 = (q.1 + m - 1) / 4096) ∧
          (x.dstSp = 0 → m ≤ 128 * 2 ^ s.link.pci.mps ∧ q.2.1 / 4096 = (q.2.1 + m - 1) / 4096) ∧
          q.1 = (if x.descending then a + l - m else a) ∧ q.2.1 = (if x.descending then d + l - m else d)) ∧
        t.bus = w.bus ∧ t.tbl = w.tbl ∧ t.store = w.store ∧ t.mstepNext = w.mstepNext ∧ t.ports = w.ports ∧ t.units = w.units ∧ (∀ e : EngId, e ≠ scriptEng c → t.eng e = w.eng e) ∧ (∀ d : ScriptId, d ≠ c → t.script d = s.script d) ∧
        t.pair (scSel c) Off.DMA_SC_BYTES_LO = (w.pair (scSel c) Off.DMA_SC_BYTES_LO + m) % 2 ^ 64 ∧ (x.dstSp = 2 → q.2.1 + m ≤ 0x400 → t.scRead c 2 q.2.1 m = bs) ∧
        (t.script c).moved = (s.script c).moved + m ∧ t.eng (scriptEng c) = w.eng (scriptEng c) ∧ t.jrnl = w.jrnl ∧
        (t.script c).xfer.isSome = true ∧ (∀ y ∈ (t.script c).xfer, y.written = x.written + m ∧ y.tries = 0 ∧ y.moves = (if l ≤ m then r else if x.descending then (a, d, l - m) :: r else (a + m, d + m, l - m) :: r)))) ∧
  (∀ (c : ScriptId) (ok : Bool) (kind n corr merged : Nat) (data : List Byte) (s : State) (x : XferSt) (a d l : Nat) (r : List (Nat × Nat × Nat)) (q : Nat × Nat × Nat),
      s.MemOk →
      (s.script c).xfer = some x →
      x.table = none →
      (x.moves = (a, d, l) :: r) →
      (s.link.d3hot = false ∨ (x.srcSp ≠ 0 ∧ x.dstSp ≠ 0)) →
      q = s.nextAccess x n →
      s.scCheck c x.srcSp q.1 q.2.2 false = none →
      s.scCheck c x.dstSp q.2.1 q.2.2 true = none →
      (s.script c).aborting = false →
      s.failPlace x ok kind q.1 q.2.1 q.2.2 = none →
      r = [] →
      l ≤ q.2.2 →
      1 ≤ l →
      Does (.scriptAccessDone c ok kind n ⟨data, corr, merged⟩) s (fun t =>
        let m := q.2.2
        let bs : List Byte := if x.srcSp = 0 then List.take m (data ++ List.replicate m (0 : Byte)) else s.scRead c x.srcSp q.1 m
        let u := if x.srcSp = 0 then s.hostRead q.1 m else s
        let v0 := (match eccPort x.srcSp q.1 with | some p => u.incRf p.val Off.PIP_ECC 15 0 corr | none => u)
        let v := (match eccPort x.dstSp q.2.1 with | some p => v0.incRf p.val Off.PIP_ECC 15 0 (if mergeWords x.dstSp q.2.1 m = [] then 0 else merged) | none => v0)
        let w := if x.dstSp = 0 then v.hostWrite q.2.1 bs else v.scWrite c x.dstSp q.2.1 bs
        (1 ≤ l → 1 ≤ n → 1 ≤ m ∧ m ≤ n ∧ m ≤ l ∧ (x.srcSp = 0 → m ≤ 128 * 2 ^ s.link.pci.mrrs ∧ q.1 / 4096 = (q.1 + m - 1) / 4096) ∧
          (x.dstSp = 0 → m ≤ 128 * 2 ^ s.link.pci.mps ∧ q.2.1 / 4096 = (q.2.1 + m - 1) / 4096) ∧
          q.1 = (if x.descending then a + l - m else a) ∧ q.2.1 = (if x.descending then d + l - m else d)) ∧
        t.bus = w.bus ∧ t.tbl = w.tbl ∧ t.store = w.store ∧ t.mstepNext = w.mstepNext ∧ t.ports = w.ports ∧ t.units = w.units ∧ (∀ e : EngId, e ≠ scriptEng c → t.eng e = w.eng e) ∧ (∀ d : ScriptId, d ≠ c → t.script d = s.script d) ∧
        t.pair (scSel c) Off.DMA_SC_BYTES_LO = (w.pair (scSel c) Off.DMA_SC_BYTES_LO + m) % 2 ^ 64 ∧ (x.dstSp = 2 → q.2.1 + m ≤ 0x400 → t.scRead c 2 q.2.1 m = bs) ∧
        (t.script c).moved = (s.script c).moved + m ∧ (t.script c).xfer = none ∧ (t.script c).fetched = none ∧ t.eng (scriptEng c) = (w.eng (scriptEng c)).went ((s.eng (scriptEng c)).pc + 1) x.cost ∧
        (x.dstSp ≠ 1 → t.jrnl = w.jrnl))) ∧
  (∀ (c : ScriptId) (ok : Bool) (kind n corr merged : Nat) (data : List Byte) (s : State) (x : XferSt) (a d l : Nat) (r : List (Nat × Nat × Nat)) (q : Nat × Nat × Nat),
      s.MemOk →
      (s.script c).xfer = some x →
      x.table = none →
      (x.moves = (a, d, l) :: r) →
      (s.link.d3hot = false ∨ (x.srcSp ≠ 0 ∧ x.dstSp ≠ 0)) →
      q = s.nextAccess x n →
      s.scCheck c x.srcSp q.1 q.2.2 false = none →
      s.scCheck c x.dstSp q.2.1 q.2.2 true = none →
      s.failPlace x ok kind q.1 q.2.1 q.2.2 = none →
      (s.script c).aborting = true →
      Does (.scriptAccessDone c ok kind n ⟨data, corr, merged⟩) s (fun t => (t.script c).st = .halted ∧ (t.script c).cause = 1 ∧ (t.script c).xfer = none ∧ (t.script c).moved = (s.script c).moved + q.2.2 ∧ (∀ d : ScriptId, d ≠ c → t.script d = s.script d) ∧
        t.eff (scSel c) Off.DMA_SC_XFER_DONE = (x.written + q.2.2) % 2 ^ 32 ∧ t.raisings (scriptSrc c.val 1) = s.raisings (scriptSrc c.val 1) + 1)) ∧
  (∀ (c : ScriptId) (ok : Bool) (kind n corr merged : Nat) (data : List Byte) (s : State) (x : XferSt) (a d l : Nat) (r : List (Nat × Nat × Nat)) (q : Nat × Nat × Nat) (cause : Nat),
      s.MemOk →
      (s.script c).xfer = some x →
      x.table = none →
      (x.moves = (a, d, l) :: r) →
      (s.link.d3hot = false ∨ (x.srcSp ≠ 0 ∧ x.dstSp ≠ 0)) →
      q = s.nextAccess x n →
      (s.scCheck c x.srcSp q.1 q.2.2 false).or (s.scCheck c x.dstSp q.2.1 q.2.2 true) = some cause →
      Does (.scriptAccessDone c ok kind n ⟨data, corr, merged⟩) s (fun t => (t.script c).st = .halted ∧ (t.script c).cause = cause ∧ (t.script c).xfer = none ∧ (∀ d : ScriptId, d ≠ c → t.script d = s.script d) ∧ (∀ e : EngId, e ≠ scriptEng c → t.eng e = s.eng e) ∧
        t.eff (scSel c) Off.DMA_SC_XFER_DONE = x.written % 2 ^ 32 ∧ t.raisings (scriptSrc c.val 1) = s.raisings (scriptSrc c.val 1) + 1 ∧ t.tbl = s.tbl ∧ t.store = s.store ∧ t.bus = s.bus ∧ t.ports = s.ports)) ∧
  (∀ (c : ScriptId) (ok : Bool) (kind n corr merged : Nat) (data : List Byte) (s : State) (x : XferSt) (a d l : Nat) (r : List (Nat × Nat × Nat)) (q : Nat × Nat × Nat) (sp k fa : Nat),
      (s.script c).xfer = some x →
      x.table = none →
      (x.moves = (a, d, l) :: r) →
      (s.link.d3hot = false ∨ (x.srcSp ≠ 0 ∧ x.dstSp ≠ 0)) →
      q = s.nextAccess x n →
      s.scCheck c x.srcSp q.1 q.2.2 false = none →
      s.scCheck c x.dstSp q.2.1 q.2.2 true = none →
      (s.failPlace x ok kind q.1 q.2.1 q.2.2 = some (sp, k, fa)) →
      x.tries < (s.script c).retry →
      (s.script c).aborting = false →
      Does (.scriptAccessDone c ok kind n ⟨data, corr, merged⟩) s (fun t => (ok = false → x.srcSp ≠ 2 → kind ≠ 3 → sp = x.srcSp ∧ k = 0 ∧ fa = q.1) ∧ (ok = true ∨ x.srcSp = 2 → sp = 1) ∧
        t = { s with scripts := t.scripts, bus := t.bus, regs := t.regs } ∧ (∀ d : ScriptId, d ≠ c → t.script d = s.script d) ∧ t.script c = { s.script c with xfer := some { x with tries := x.tries + 1 } } ∧
        t.bus = (if x.srcSp = 0 then (s.hostRead q.1 q.2.2).bus else s.bus) ∧ t.regs = (match eccPort sp fa with | some p => (s.incRf p.val Off.PIP_ECC 31 16 1).regs | none => s.regs))) ∧
  (∀ (c : ScriptId) (ok : Bool) (kind n corr merged : Nat) (data : List Byte) (s : State) (x : XferSt) (a d l : Nat) (r : List (Nat × Nat × Nat)) (q : Nat × Nat × Nat) (sp k fa : Nat),
      s.MemOk →
      (s.script c).xfer = some x →
      x.table = none →
      (x.moves = (a, d, l) :: r) →
      (s.link.d3hot = false ∨ (x.srcSp ≠ 0 ∧ x.dstSp ≠ 0)) →
      q = s.nextAccess x n →
      s.scCheck c x.srcSp q.1 q.2.2 false = none →
      s.scCheck c x.dstSp q.2.1 q.2.2 true = none →
      (s.failPlace x ok kind q.1 q.2.1 q.2.2 = some (sp, k, fa)) →
      (s.script c).retry ≤ x.tries →
      Does (.scriptAccessDone c ok kind n ⟨data, corr, merged⟩) s (fun t => (ok = false → x.srcSp ≠ 2 → kind ≠ 3 → sp = x.srcSp ∧ k = 0 ∧ fa = q.1) ∧ (ok = true ∨ x.srcSp = 2 → sp = 1) ∧
        (t.script c).st = .halted ∧ (t.script c).cause = 4 ∧ (∀ d : ScriptId, d ≠ c → t.script d = s.script d) ∧ (∀ e : EngId, e ≠ scriptEng c → t.eng e = s.eng e) ∧ t.eff (scSel c) Off.DMA_SC_XFER_DONE = x.written % 2 ^ 32 ∧
        t.eff (scSel c) Off.DMA_SC_FAULT = 2 ^ 31 + (x.tries + 1) % 16 * 2 ^ 8 + k % 16 * 2 ^ 4 + sp % 16 ∧ t.pair (scSel c) Off.DMA_SC_FAULT_ADDR_LO = fa % 2 ^ 64 ∧ t.raisings (scriptSrc c.val 1) = s.raisings (scriptSrc c.val 1) + 1)) ∧
  (∀ (c : ScriptId) (kind n corr merged : Nat) (data : List Byte) (s : State) (x : XferSt) (tb mode : Nat) (ss ds src dst cn el : Nat) (ms : List (Nat × Nat × Nat)),
      (s.script c).xfer = some x →
      (x.table = some (tb, mode)) →
      s.scCheck c 1 (0x1800000 + 0x8000 * tb) 1 false = none →
      (s.script c).aborting = false →
      ss = x.srcSp →
      ds = x.dstSp →
      (x.moves.headD (0, 0, 0) = (src, dst, 0)) →
      cn = s.idxWord tb 0 →
      el = s.idxWord tb 1 →
      (1 ≤ cn ∧ cn ≤ 4096) →
      (1 ≤ el ∧ el ≤ 65536) →
      (ms = (List.range cn).map (fun i => if mode = 0 then (src + s.idxWord tb (4 + i), dst + i * el, el) else (src + i * el, dst + s.idxWord tb (4 + i), el))) →
      ms.all (fun m => rangeOk ss m.1 el && rangeOk ds m.2.1 el) = true →
      ss ≠ ds →
      (mode = 0 ∨ ms.Pairwise (fun m k => m.2.1 + el ≤ k.2.1 ∨ k.2.1 + el ≤ m.2.1)) →
      Does (.scriptAccessDone c true kind n ⟨data, corr, merged⟩) s (fun t => t = { s with scripts := t.scripts } ∧ (∀ d : ScriptId, d ≠ c → t.script d = s.script d) ∧ t.script c = { s.script c with xfer := some { x with table := none, moves := ms, cost := 6 + 4 * cn + cn * (2 + (el + 31) / 32), tries := 0 } })) ∧
  (∀ (c : ScriptId) (kind n corr merged : Nat) (data : List Byte) (s : State) (x : XferSt) (tb mode : Nat),
      (s.script c).xfer = some x →
      (x.table = some (tb, mode)) →
      s.scCheck c 1 (0x1800000 + 0x8000 * tb) 1 false = none →
      (s.script c).aborting = false →
      (s.idxWord tb 0 = 0 ∨ 4096 < s.idxWord tb 0 ∨ s.idxWord tb 1 = 0 ∨ 65536 < s.idxWord tb 1) →
      Does (.scriptAccessDone c true kind n ⟨data, corr, merged⟩) s (fun t => (t.script c).st = .halted ∧ (t.script c).cause = 7 ∧ (t.script c).xfer = none ∧ (∀ d : ScriptId, d ≠ c → t.script d = s.script d) ∧ (∀ e : EngId, e ≠ scriptEng c → t.eng e = s.eng e) ∧ t.raisings (scriptSrc c.val 1) = s.raisings (scriptSrc c.val 1) + 1 ∧ t.bus = s.bus ∧ t.tbl = s.tbl)) ∧
  (∀ (c : ScriptId) (kind n corr merged : Nat) (data : List Byte) (s : State) (x : XferSt) (tb mode : Nat),
      (s.script c).xfer = some x →
      (x.table = some (tb, mode)) →
      s.scCheck c 1 (0x1800000 + 0x8000 * tb) 1 false = none →
      tb < 64 →
      x.tries < (s.script c).retry →
      (s.script c).aborting = false →
      Does (.scriptAccessDone c false kind n ⟨data, corr, merged⟩) s (fun t => t = { s with scripts := t.scripts } ∧ (∀ d : ScriptId, d ≠ c → t.script d = s.script d) ∧ t.script c = { s.script c with xfer := some { x with tries := x.tries + 1 } }))

/-- START of an idle or halted script channel begins its script at instruction 0 with G1 to G4 from the arguments, all other registers, counters and flags 0, and the code store, RETRY, base, length and context latched; ABORT of a running or waiting one halts it at once with cause 1, or at the next access boundary of a transfer; both in one write are an abort and then a start. A completed fetch gives the instruction of host memory or of the script store; a failing one is tried again up to RETRY times and then halts with BUS_ERROR; an index beyond the length traps. (Where no fetch is due, nothing happens: log entry 5.) -/
def Obligations.ScriptStartAbortFetch : Prop :=
  (∀ (cx : CtxId) (v : Word) (s : State) (c : ScriptId),
      s.Serves cx Off.DMA_SC_CTL true →
      (s.ctxs[cx]).selChan.toNat = 64 + c.val →
      c ≠ 15 →
      v.getLsbD 0 = true →
      v.getLsbD 1 = false →
      ((s.script c).st = .idle ∨ (s.script c).st = .halted) →
      Does (.dmaScCtlStart cx v) s (fun t => t = { s with scripts := t.scripts, engs := t.engs } ∧ (∀ d : ScriptId, d ≠ c → t.script d = s.script d) ∧ (∀ e : EngId, e ≠ scriptEng c → t.eng e = s.eng e) ∧
        t.script c = { s.script c with st := .running, ctx := cx.val, code := s.rf (scSel c) Off.DMA_SC_CFG 0 0, retry := s.rf (scSel c) Off.DMA_SC_CFG 19 16, base := s.pair (scSel c) Off.DMA_SC_BASE_LO, len := max (s.rf (scSel c) Off.DMA_SC_LEN 16 0) 1, fetched := none, wait := none, xfer := none, tries := 0, aborting := false, moved := 0 } ∧
        (∀ i : Fin 16, (t.eng (scriptEng c)).g[i] = if 1 ≤ i.val ∧ i.val ≤ 4 then BitVec.ofNat 32 (s.eff (scSel c) (Off.DMA_SC_ARG + 4 * (i.val - 1))) else 0) ∧
        t.eng (scriptEng c) = { s.eng (scriptEng c) with g := (t.eng (scriptEng c)).g, lc := Vector.replicate 4 0, z := false, n := false, c := false, v := false, link := [], pc := 0, run := .running, cyc := 0 })) ∧
  (∀ (cx : CtxId) (v : Word) (s : State) (c : ScriptId),
      s.Serves cx Off.DMA_SC_CTL true →
      (s.ctxs[cx]).selChan.toNat = 64 + c.val →
      c ≠ 15 →
      ((v.getLsbD 0 = false ∨ ((s.script c).st ≠ .idle ∧ (s.script c).st ≠ .halted))) →
      ((v.getLsbD 1 = false ∨ ((s.script c).st ≠ .running ∧ (s.script c).st ≠ .waiting))) →
      Does (.dmaScCtlStart cx v) s (fun t => t = s)) ∧
  (∀ (cx : CtxId) (v : Word) (s : State) (c : ScriptId),
      s.Serves cx Off.DMA_SC_CTL true →
      (s.ctxs[cx]).selChan.toNat = 64 + c.val →
      c ≠ 15 →
      v.getLsbD 0 = false →
      v.getLsbD 1 = true →
      ((s.script c).st = .running ∨ (s.script c).st = .waiting) →
      (s.script c).xfer = none →
      s.MemOk →
      Does (.dmaScCtlStart cx v) s (fun t => (t.script c).st = .halted ∧ (t.script c).cause = 1 ∧ (t.script c).wait = none ∧ (t.script c).fetched = none ∧ (t.eng (scriptEng c)).pc = (s.eng (scriptEng c)).pc ∧
        t.raisings (scriptSrc c.val 1) = s.raisings (scriptSrc c.val 1) + 1 ∧ t.eff (scSel c) Off.DMA_SC_XFER_DONE = 0 ∧ s.SameRegs t (rkey (scSel c) Off.DMA_SC_XFER_DONE :: injKeys) ∧ (∀ d : ScriptId, d ≠ c → t.script d = s.script d) ∧ (∀ e : EngId, e ≠ scriptEng c → t.eng e = s.eng e) ∧
        { s with scripts := t.scripts, engs := t.engs, regs := t.regs }.EventsOnly t [scriptSrc c.val 1])) ∧
  (∀ (cx : CtxId) (v : Word) (s : State) (c : ScriptId) (x : XferSt),
      s.Serves cx Off.DMA_SC_CTL true →
      (s.ctxs[cx]).selChan.toNat = 64 + c.val →
      c ≠ 15 →
      v.getLsbD 0 = false →
      v.getLsbD 1 = true →
      ((s.script c).st = .running ∨ (s.script c).st = .waiting) →
      (s.script c).xfer = some x →
      Does (.dmaScCtlStart cx v) s (fun t => t = { s with scripts := t.scripts } ∧ (∀ d : ScriptId, d ≠ c → t.script d = s.script d) ∧ t.script c = { s.script c with aborting := true })) ∧
  (∀ (cx : CtxId) (v : Word) (s : State) (c : ScriptId),
      s.Serves cx Off.DMA_SC_CTL true →
      (s.ctxs[cx]).selChan.toNat = 64 + c.val →
      c ≠ 15 →
      v.getLsbD 0 = true →
      v.getLsbD 1 = true →
      Does (.dmaScCtlStart cx v) s (fun t => Does (.dmaScCtlAbort cx 2) s (fun u => Does (.dmaScCtlStart cx 1) u (fun w => w = t)))) ∧
  (∀ (cx : CtxId) (v : Word) (s : State),
      s.MemOk →
      s.Serves cx Off.DMA_SC_CTL true →
      (s.ctxs[cx]).selChan.toNat = 79 →
      Does (.dmaScCtlStart cx v) s (fun t => { s with jrnl := t.jrnl }.EventsOnly t [mgtSrc (5 * cx.val + 3)] ∧ t.raisings (mgtSrc (5 * cx.val + 3)) = s.raisings (mgtSrc (5 * cx.val + 3)) + 1)) ∧
  (∀ (cx : CtxId) (v : Word) (s : State) (c : ScriptId),
      s.Serves cx Off.DMA_SC_CTL true →
      (s.ctxs[cx]).selChan.toNat = 64 + c.val →
      c ≠ 15 →
      v.getLsbD 0 = true →
      v.getLsbD 1 = false →
      ((s.script c).st = .idle ∨ (s.script c).st = .halted) →
      Does (.dmaScCtlAbort cx v) s (fun t => t = { s with scripts := t.scripts, engs := t.engs } ∧ (∀ d : ScriptId, d ≠ c → t.script d = s.script d) ∧ (∀ e : EngId, e ≠ scriptEng c → t.eng e = s.eng e) ∧
        t.script c = { s.script c with st := .running, ctx := cx.val, code := s.rf (scSel c) Off.DMA_SC_CFG 0 0, retry := s.rf (scSel c) Off.DMA_SC_CFG 19 16, base := s.pair (scSel c) Off.DMA_SC_BASE_LO, len := max (s.rf (scSel c) Off.DMA_SC_LEN 16 0) 1, fetched := none, wait := none, xfer := none, tries := 0, aborting := false, moved := 0 } ∧
        (∀ i : Fin 16, (t.eng (scriptEng c)).g[i] = if 1 ≤ i.val ∧ i.val ≤ 4 then BitVec.ofNat 32 (s.eff (scSel c) (Off.DMA_SC_ARG + 4 * (i.val - 1))) else 0) ∧
        t.eng (scriptEng c) = { s.eng (scriptEng c) with g := (t.eng (scriptEng c)).g, lc := Vector.replicate 4 0, z := false, n := false, c := false, v := false, link := [], pc := 0, run := .running, cyc := 0 })) ∧
  (∀ (cx : CtxId) (v : Word) (s : State) (c : ScriptId),
      s.Serves cx Off.DMA_SC_CTL true →
      (s.ctxs[cx]).selChan.toNat = 64 + c.val →
      c ≠ 15 →
      ((v.getLsbD 0 = false ∨ ((s.script c).st ≠ .idle ∧ (s.script c).st ≠ .halted))) →
      ((v.getLsbD 1 = false ∨ ((s.script c).st ≠ .running ∧ (s.script c).st ≠ .waiting))) →
      Does (.dmaScCtlAbort cx v) s (fun t => t = s)) ∧
  (∀ (cx : CtxId) (v : Word) (s : State) (c : ScriptId),
      s.Serves cx Off.DMA_SC_CTL true →
      (s.ctxs[cx]).selChan.toNat = 64 + c.val →
      c ≠ 15 →
      v.getLsbD 0 = false →
      v.getLsbD 1 = true →
      ((s.script c).st = .running ∨ (s.script c).st = .waiting) →
      (s.script c).xfer = none →
      s.MemOk →
      Does (.dmaScCtlAbort cx v) s (fun t => (t.script c).st = .halted ∧ (t.script c).cause = 1 ∧ (t.script c).wait = none ∧ (t.script c).fetched = none ∧ (t.eng (scriptEng c)).pc = (s.eng (scriptEng c)).pc ∧
        t.raisings (scriptSrc c.val 1) = s.raisings (scriptSrc c.val 1) + 1 ∧ t.eff (scSel c) Off.DMA_SC_XFER_DONE = 0 ∧ s.SameRegs t (rkey (scSel c) Off.DMA_SC_XFER_DONE :: injKeys) ∧ (∀ d : ScriptId, d ≠ c → t.script d = s.script d) ∧ (∀ e : EngId, e ≠ scriptEng c → t.eng e = s.eng e) ∧
        { s with scripts := t.scripts, engs := t.engs, regs := t.regs }.EventsOnly t [scriptSrc c.val 1])) ∧
  (∀ (cx : CtxId) (v : Word) (s : State) (c : ScriptId) (x : XferSt),
      s.Serves cx Off.DMA_SC_CTL true →
      (s.ctxs[cx]).selChan.toNat = 64 + c.val →
      c ≠ 15 →
      v.getLsbD 0 = false →
      v.getLsbD 1 = true →
      ((s.script c).st = .running ∨ (s.script c).st = .waiting) →
      (s.script c).xfer = some x →
      Does (.dmaScCtlAbort cx v) s (fun t => t = { s with scripts := t.scripts } ∧ (∀ d : ScriptId, d ≠ c → t.script d = s.script d) ∧ t.script c = { s.script c with aborting := true })) ∧
  (∀ (cx : CtxId) (v : Word) (s : State) (c : ScriptId),
      s.Serves cx Off.DMA_SC_CTL true →
      (s.ctxs[cx]).selChan.toNat = 64 + c.val →
      c ≠ 15 →
      v.getLsbD 0 = true →
      v.getLsbD 1 = true →
      Does (.dmaScCtlAbort cx v) s (fun t => Does (.dmaScCtlAbort cx 2) s (fun u => Does (.dmaScCtlStart cx 1) u (fun w => w = t)))) ∧
  (∀ (cx : CtxId) (v : Word) (s : State),
      s.MemOk →
      s.Serves cx Off.DMA_SC_CTL true →
      (s.ctxs[cx]).selChan.toNat = 79 →
      Does (.dmaScCtlAbort cx v) s (fun t => { s with jrnl := t.jrnl }.EventsOnly t [mgtSrc (5 * cx.val + 3)] ∧ t.raisings (mgtSrc (5 * cx.val + 3)) = s.raisings (mgtSrc (5 * cx.val + 3)) + 1)) ∧
  (∀ (c : ScriptId) (ok : Bool) (w : DWord) (s : State),
      ((s.script c).st ≠ .running ∨ (s.script c).xfer ≠ none ∨ (s.script c).fetched ≠ none ∨ ((s.script c).code = 0 ∧ s.link.d3hot = true)) →
      Does (.scriptFetch c ok w) s (fun t => t = s)) ∧
  (∀ (c : ScriptId) (w : DWord) (s : State) (fa : Nat),
      (s.script c).st = .running →
      (s.script c).xfer = none →
      (s.script c).fetched = none →
      ((s.script c).code ≠ 0 ∨ s.link.d3hot = false) →
      (s.eng (scriptEng c)).pc < (s.script c).len →
      fa = (s.script c).base + 8 * (s.eng (scriptEng c)).pc →
      ((s.script c).code = 0 ∨ (fa % 4 = 0 ∧ s.scCheck c 1 (0x3000000 + fa) 8 false = none ∧ fa + 8 ≤ 65536)) →
      Does (.scriptFetch c true w) s (fun t => t = { s with scripts := t.scripts, bus := t.bus } ∧ (∀ d : ScriptId, d ≠ c → t.script d = s.script d) ∧ t.bus = (if (s.script c).code = 0 then (s.hostRead fa 8).bus else s.bus) ∧
        (let word (k : Nat) : Word := mget (fun _ => 0) s.store k
         t.script c = { s.script c with tries := 0, fetched := some (if (s.script c).code = 0 then w else word (fa / 4 + 1) ++ word (fa / 4)) }))) ∧
  (∀ (c : ScriptId) (ok : Bool) (w : DWord) (s : State) (fa cause : Nat),
      s.MemOk →
      (s.script c).st = .running →
      (s.script c).xfer = none →
      (s.script c).fetched = none →
      ((s.script c).code ≠ 0 ∨ s.link.d3hot = false) →
      (s.eng (scriptEng c)).pc < (s.script c).len →
      fa = (s.script c).base + 8 * (s.eng (scriptEng c)).pc →
      (s.script c).code ≠ 0 →
      s.scCheck c 1 (0x3000000 + fa) 8 false = some cause →
      Does (.scriptFetch c ok w) s (fun t => (t.script c).st = .halted ∧ (t.script c).cause = cause ∧ (t.script c).fetched = none ∧ (∀ d : ScriptId, d ≠ c → t.script d = s.script d) ∧ (∀ e : EngId, e ≠ scriptEng c → t.eng e = s.eng e) ∧ t.bus = s.bus ∧ t.raisings (scriptSrc c.val 1) = s.raisings (scriptSrc c.val 1) + 1)) ∧
  (∀ (c : ScriptId) (w : DWord) (s : State),
      (s.script c).st = .running →
      (s.script c).xfer = none →
      (s.script c).fetched = none →
      ((s.script c).code ≠ 0 ∨ s.link.d3hot = false) →
      (s.eng (scriptEng c)).pc < (s.script c).len →
      (s.script c).tries < (s.script c).retry →
      (s.script c).code = 0 →
      Does (.scriptFetch c false w) s (fun t => t = { s with scripts := t.scripts, bus := t.bus } ∧ (∀ d : ScriptId, d ≠ c → t.script d = s.script d) ∧ t.script c = { s.script c with tries := (s.script c).tries + 1 })) ∧
  (∀ (c : ScriptId) (w : DWord) (s : State),
      s.MemOk →
      (s.script c).st = .running →
      (s.script c).xfer = none →
      (s.script c).fetched = none →
      ((s.script c).code ≠ 0 ∨ s.link.d3hot = false) →
      (s.eng (scriptEng c)).pc < (s.script c).len →
      (s.script c).retry ≤ (s.script c).tries →
      (s.script c).code = 0 →
      Does (.scriptFetch c false w) s (fun t => (t.script c).st = .halted ∧ (t.script c).cause = 4 ∧ (∀ d : ScriptId, d ≠ c → t.script d = s.script d) ∧ (∀ e : EngId, e ≠ scriptEng c → t.eng e = s.eng e) ∧ t.eff (scSel c) Off.DMA_SC_FAULT = 2 ^ 31 + ((s.script c).tries + 1) % 16 * 2 ^ 8 + 16 ∧
        t.pair (scSel c) Off.DMA_SC_FAULT_ADDR_LO = ((s.script c).base + 8 * (s.eng (scriptEng c)).pc) % 2 ^ 64 ∧ t.raisings (scriptSrc c.val 1) = s.raisings (scriptSrc c.val 1) + 1)) ∧
  (∀ (c : ScriptId) (ok : Bool) (w : DWord) (s : State),
      (s.script c).st = .running →
      (s.script c).xfer = none →
      (s.script c).fetched = none →
      ((s.script c).code ≠ 0 ∨ s.link.d3hot = false) →
      (s.script c).len ≤ (s.eng (scriptEng c)).pc →
      Does (.scriptFetch c ok w) s (fun t => s.Trapped t (scriptEng c) 2 (s.eng (scriptEng c)).pc))

/-- LOOP counts rd down to 0 (0 stays 0) and jumps to its target while it is not 0; WAIT suspends the script until its source, port or group has come once more, with a timeout of rb microseconds if rb is not 0, and costs 2 cycles and those of the wait; when it has come the script goes on with Z 1, and at the timeout with Z 0 if it has not, N, C and V 0. With a false condition each of LOOP, WAIT and SIG takes one cycle and does nothing else. (Where nothing has come, nothing happens: log entry 5.) -/
def Obligations.ScriptLoopsAndWaits : Prop :=
  (∀ (c : ScriptId) (f : ZscFields) (s : State),
      (s.Takes (scriptEng c) 1 { rd := true, imm := decide (f.imm.toNat < 65536) } f) →
      (s.eng (scriptEng c)).condTrue f.cond = false →
      Does (.loop c f) s (fun t => s.OnlyEng t (scriptEng c) ((s.eng (scriptEng c)).went ((s.eng (scriptEng c)).pc + 1) 1))) ∧
  (∀ (c : ScriptId) (f : ZscFields) (s : State),
      (s.Takes (scriptEng c) 1 { rb := true, imm := true, ext := 3 } f) →
      (s.eng (scriptEng c)).condTrue f.cond = false →
      Does (.wait c f) s (fun t => s.OnlyEng t (scriptEng c) ((s.eng (scriptEng c)).went ((s.eng (scriptEng c)).pc + 1) 1))) ∧
  (∀ (c : ScriptId) (f : ZscFields) (s : State),
      s.Takes (scriptEng c) 1 { imm := decide (f.imm.toNat < 65536) } f →
      (s.eng (scriptEng c)).condTrue f.cond = false →
      Does (.sig c f) s (fun t => s.OnlyEng t (scriptEng c) ((s.eng (scriptEng c)).went ((s.eng (scriptEng c)).pc + 1) 1))) ∧
  (∀ (c : ScriptId) (f : ZscFields) (s : State),
      (s.Takes (scriptEng c) 2 { rd := true, imm := decide (f.imm.toNat < 65536) } f) →
      (s.eng (scriptEng c)).condTrue f.cond = true →
      ((s.eng (scriptEng c)).get f.rd).toNat ≤ 1 →
      Does (.loop c f) s (fun t => s.OnlyEng t (scriptEng c) (((s.eng (scriptEng c)).set f.rd 0).went ((s.eng (scriptEng c)).pc + 1) 1))) ∧
  (∀ (c : ScriptId) (f : ZscFields) (s : State),
      (s.Takes (scriptEng c) 2 { rd := true, imm := decide (f.imm.toNat < 65536) } f) →
      (s.eng (scriptEng c)).condTrue f.cond = true →
      2 ≤ ((s.eng (scriptEng c)).get f.rd).toNat →
      f.imm.toNat % 65536 < (s.script c).len →
      Does (.loop c f) s (fun t => s.OnlyEng t (scriptEng c) (((s.eng (scriptEng c)).set f.rd (((s.eng (scriptEng c)).get f.rd) - 1)).went (f.imm.toNat % 65536) 2))) ∧
  (∀ (c : ScriptId) (f : ZscFields) (s : State),
      (s.Takes (scriptEng c) 2 { rd := true, imm := decide (f.imm.toNat < 65536) } f) →
      (s.eng (scriptEng c)).condTrue f.cond = true →
      2 ≤ ((s.eng (scriptEng c)).get f.rd).toNat →
      (s.script c).len ≤ f.imm.toNat % 65536 →
      Does (.loop c f) s (fun t => s.Trapped t (scriptEng c) 2 (f.imm.toNat % 65536))) ∧
  (∀ (c : ScriptId) (f : ZscFields) (s : State),
      (s.Takes (scriptEng c) 2 { rb := true, imm := true, ext := 3 } f) →
      (s.eng (scriptEng c)).condTrue f.cond = true →
      f.ext.toNat % 4 ≠ 3 →
      Does (.wait c f) s (fun t => t = { s with scripts := t.scripts, engs := t.engs } ∧ (∀ d : ScriptId, d ≠ c → t.script d = s.script d) ∧ (∀ e : EngId, e ≠ scriptEng c → t.eng e = s.eng e) ∧ t.eng (scriptEng c) = { s.eng (scriptEng c) with run := .waiting } ∧
        (let us := ((s.eng (scriptEng c)).get f.rb).toNat
         t.script c = { s.script c with st := .waiting, wait := some { kind := f.ext.toNat % 4, sel := f.imm.toNat, since := s.waitCount (f.ext.toNat % 4) f.imm.toNat, start := s.now, until_ := if us = 0 then none else some (s.now + 1000 * us) } }))) ∧
  (∀ (c : ScriptId) (f : ZscFields) (s : State),
      (s.Takes (scriptEng c) 2 { rb := true, imm := true, ext := 3 } f) →
      (s.eng (scriptEng c)).condTrue f.cond = true →
      f.ext.toNat % 4 = 3 →
      Does (.wait c f) s (fun t => s.Trapped t (scriptEng c) 1 (hiWord 0xC8 f).toNat)) ∧
  (∀ (c : ScriptId) (s : State),
      (∀ w ∈ (s.script c).wait, s.waitCount w.kind w.sel ≤ w.since) →
      Does (.waitResume c) s (fun t => t = s)) ∧
  (∀ (c : ScriptId) (s : State) (w : WaitSt),
      (s.script c).wait = some w →
      w.since < s.waitCount w.kind w.sel →
      Does (.waitResume c) s (fun t => t = { s with scripts := t.scripts, engs := t.engs } ∧ (∀ d : ScriptId, d ≠ c → t.script d = s.script d) ∧ (∀ e : EngId, e ≠ scriptEng c → t.eng e = s.eng e) ∧ t.script c = { s.script c with st := .running, wait := none, fetched := none } ∧
        t.eng (scriptEng c) = { ((s.eng (scriptEng c)).went ((s.eng (scriptEng c)).pc + 1) (2 + (s.now - w.start))) with run := .running, z := true, n := false, c := false, v := false })) ∧
  (∀ (c : ScriptId) (t0 : Nat) (s : State),
      (∀ w ∈ (s.script c).wait, ∀ u ∈ w.until_, max s.now t0 < u) →
      Does (.waitTimeout c t0) s (fun t => t = { s with now := max s.now t0 })) ∧
  (∀ (c : ScriptId) (t0 : Nat) (s : State) (w : WaitSt) (u : Nat),
      (s.script c).wait = some w →
      w.until_ = some u →
      u ≤ max s.now t0 →
      Does (.waitTimeout c t0) s (fun t => t = { s with scripts := t.scripts, engs := t.engs, now := max s.now t0 } ∧ (∀ d : ScriptId, d ≠ c → t.script d = s.script d) ∧ (∀ e : EngId, e ≠ scriptEng c → t.eng e = s.eng e) ∧ t.script c = { s.script c with st := .running, wait := none, fetched := none } ∧
        t.eng (scriptEng c) = { ((s.eng (scriptEng c)).went ((s.eng (scriptEng c)).pc + 1) (2 + (max s.now t0 - w.start))) with run := .running, z := decide (w.since < s.waitCount w.kind w.sel), n := false, c := false, v := false }))

/-- SIG raises SCRIPT_SIGNAL from the signal source of its channel, with imm[15:0] in the event word, writes imm[15:0] to DMA_SC_SIGNAL.CODE and increments DMA_SC_SIGNAL.COUNT; RAISE raises PROGRAM_EVENT from the fourth source of the channel with imm[15:0] in the event word; the two sources have routes of their own; a WAIT on either source, of any script, counts it. -/
def Obligations.SigAndRaiseOfAScript : Prop :=
  (∀ (c : ScriptId) (f : ZscFields) (s : State),
      s.MemOk →
      s.Takes (scriptEng c) 1 { imm := decide (f.imm.toNat < 65536) } f →
      (s.eng (scriptEng c)).condTrue f.cond = true →
      Does (.sig c f) s (fun t => t.rf (scSel c) Off.DMA_SC_SIGNAL 15 0 = f.imm.toNat % 65536 ∧ t.rf (scSel c) Off.DMA_SC_SIGNAL 31 16 = (s.rf (scSel c) Off.DMA_SC_SIGNAL 31 16 + 1) % 65536 ∧
        t.raisings (scriptSrc c.val 2) = s.raisings (scriptSrc c.val 2) + 1 ∧ s.SameRegs t (rkey (scSel c) Off.DMA_SC_SIGNAL :: injKeys) ∧ (∀ d : ScriptId, d ≠ c → t.script d = s.script d) ∧ (∀ e : EngId, e ≠ scriptEng c → t.eng e = s.eng e) ∧
        t.eng (scriptEng c) = (s.eng (scriptEng c)).went ((s.eng (scriptEng c)).pc + 1) 1 ∧ { s with scripts := t.scripts, engs := t.engs, regs := t.regs }.EventsOnly t [scriptSrc c.val 2] ∧
        (s.routeOn (scriptSrc c.val 2) = true → mget noPend s.pend (scriptSrc c.val 2) = none → (mget noPend t.pend (scriptSrc c.val 2)).map (fun e => (e.arg0, e.arg1)) = some (f.imm.toNat % 65536, none)) ∧
        t.waitCount 0 (scriptSrc c.val 2) = s.waitCount 0 (scriptSrc c.val 2) + 1)) ∧
  (∀ (c : ScriptId) (f : ZscFields) (s : State),
      s.MemOk →
      s.Takes (scriptEng c) 1 { imm := true } f →
      (s.eng (scriptEng c)).condTrue f.cond = true →
      Does (.raise (scriptEng c) f) s (fun t => t.raisings (scriptSrc c.val 3) = s.raisings (scriptSrc c.val 3) + 1 ∧ (∀ d : ScriptId, d ≠ c → t.script d = s.script d) ∧ (∀ e : EngId, e ≠ scriptEng c → t.eng e = s.eng e) ∧
        t.eng (scriptEng c) = (s.eng (scriptEng c)).went ((s.eng (scriptEng c)).pc + 1) 1 ∧ { s with scripts := t.scripts, engs := t.engs }.EventsOnly t [scriptSrc c.val 3] ∧
        (s.routeOn (scriptSrc c.val 3) = true → mget noPend s.pend (scriptSrc c.val 3) = none → (mget noPend t.pend (scriptSrc c.val 3)).map (fun e => (e.arg0, e.arg1)) = some (f.imm.toNat % 65536, none)) ∧
        t.waitCount 0 (scriptSrc c.val 3) = s.waitCount 0 (scriptSrc c.val 3) + 1)) ∧
  (∀ (x : CtxId) (v : Word) (c : ScriptId) (s : State),
      s.MemOk →
      s.Serves x (Off.EVT_ROUTE + 4 * scriptSrc c.val 2) true →
      scriptSrc c.val 2 < 1536 →
      Does (.evtRouteWrite x (Fin.ofNat 1536 (scriptSrc c.val 2)) v) s (fun t => t.routeOn (scriptSrc c.val 2) = v.getLsbD 31 ∧ t.routeQueue (scriptSrc c.val 2) = fld v.toNat 5 0 ∧
        t.routeOn (scriptSrc c.val 3) = s.routeOn (scriptSrc c.val 3) ∧ t.routeQueue (scriptSrc c.val 3) = s.routeQueue (scriptSrc c.val 3)))

/-- A record due for the take store is placed with the owed notes in the port's open segment, or in the next free slot; full chunks are written; pending cues that it reaches are held there. A record not recorded is counted, TKS_DROP is raised and a note owed; a suspended port only owes the note. A completed write returns its chunk, and the header of a closed segment goes last. A checkpoint writes its steps to every member, one after another, each followed by a Flush. A write that fails twice, or a command that times out twice, fails the drive: its segments and the cues there are lost and the failure is classified. (When a header is read back is log entry 205; where a command is not due, nothing happens: log entry 5.) -/
def Obligations.TakeStoreRecording : Prop :=
  (∀ (p : PortId) (exceeds : Bool) (s : State),
      (s.port p).due[3] = [] →
      Does (.recordEmission p 3 exceeds) s (fun t => t = s)) ∧
  (∀ (p : PortId) (exceeds : Bool) (s : State) (r : Rec) (rest : List Rec),
      (s.port p).due[3] = r :: rest →
      (recorded (s.eff p.val Off.CMP_REC) r.type = false ∨ s.rf 0 Off.TKS_CTL 0 0 = 0 ∨ (s.tks.st ≠ 2 ∧ s.tks.st ≠ 3)) →
      Does (.recordEmission p 3 exceeds) s (fun t => t = { s with ports := t.ports } ∧ t.port p = { s.port p with due := (s.port p).due.set 3 rest } ∧ (∀ q : PortId, q ≠ p → t.port q = s.port q))) ∧
  (∀ (p : PortId) (exceeds : Bool) (s : State) (r : Rec) (rest : List Rec),
      s.MemOk →
      (s.port p).due[3] = r :: rest →
      recorded (s.eff p.val Off.CMP_REC) r.type = true →
      s.rf 0 Off.TKS_CTL 0 0 = 1 →
      (s.tks.st = 3 ∨ (s.tks.st = 2 ∧ (s.tks.ports[p]).suspended = false ∧ exceeds = true)) →
      Does (.recordEmission p 3 exceeds) s (fun t => (t.tks.ports[p]) = (s.tks.ports[p]).addNote (if s.tks.st = 3 then 1 else 3) 1 r.line r.line ∧ (∀ q : PortId, q ≠ p → t.tks.ports[q] = s.tks.ports[q]) ∧ t.port p = { s.port p with due := (s.port p).due.set 3 rest } ∧ (∀ q : PortId, q ≠ p → t.port q = s.port q) ∧
        t.rf 0 (Off.TKS_PORT_DROP + 16 * p.val) 31 0 = min (s.rf 0 (Off.TKS_PORT_DROP + 16 * p.val) 31 0 + 1) (2 ^ 32 - 1) ∧ t.raisings (tksSrc p.val) = s.raisings (tksSrc p.val) + 1 ∧ ({ s with tks := t.tks, ports := t.ports, regs := t.regs } : State).EventsOnly t [tksSrc p.val] ∧ s.SameRegs t (rkey 0 (Off.TKS_PORT_DROP + 16 * p.val) :: injKeys) ∧ t.tks = { s.tks with ports := t.tks.ports })) ∧
  (∀ (p : PortId) (exceeds : Bool) (s : State) (r : Rec) (rest : List Rec),
      (s.port p).due[3] = r :: rest →
      recorded (s.eff p.val Off.CMP_REC) r.type = true →
      s.rf 0 Off.TKS_CTL 0 0 = 1 →
      s.tks.st = 2 →
      (s.tks.ports[p]).suspended = true →
      Does (.recordEmission p 3 exceeds) s (fun t => (t.tks.ports[p]) = (s.tks.ports[p]).addNote 2 1 r.line r.line ∧ (∀ q : PortId, q ≠ p → t.tks.ports[q] = s.tks.ports[q]) ∧ t.port p = { s.port p with due := (s.port p).due.set 3 rest } ∧ (∀ q : PortId, q ≠ p → t.port q = s.port q) ∧
        t = { s with tks := t.tks, ports := t.ports } ∧ t.tks = { s.tks with ports := t.tks.ports })) ∧
  (∀ (p : PortId) (exceeds : Bool) (s : State) (r : Rec) (rest : List Rec) (g : Nat),
      s.MemOk →
      mwf (fun _ => freeSeg) s.tks.segs = true →
      (s.port p).due[3] = r :: rest →
      recorded (s.eff p.val Off.CMP_REC) r.type = true →
      s.rf 0 Off.TKS_CTL 0 0 = 1 →
      s.tks.st = 2 →
      (s.tks.ports[p]).suspended = false →
      exceeds = false →
      (s.tks.ports[p]).open_ = some g →
      (s.seg g).st = 1 →
      (s.tks.ports[p]).notes.length * 64 + up64 r.size + (s.seg g).used ≤ segRoom →
      s.newChunks p (s.seg g) r ≤ s.tks.pool →
      ((s.tks.drives[slotDrive g]).cmds.filter (fun c => c.kind == 0)).length < 64 →
      Does (.recordEmission p 3 exceeds) s (fun t =>
        let new := s.tks.ports[p].notes.map (fun e => SEntry.note e.1 e.2.1 e.2.2.1 e.2.2.2) ++ [SEntry.record r (min ((s.port p).lostBefore r.line - (s.port p).storeLost) 65535)]
        let used := (s.seg g).used + (new.map SEntry.bytes).sum
        t = { s with tks := t.tks, ports := t.ports } ∧ t.port p = { s.port p with due := (s.port p).due.set 3 rest, storeLost := (s.port p).lostBefore r.line } ∧ (∀ q : PortId, q ≠ p → t.port q = s.port q) ∧
        (t.seg g).entries = (s.seg g).entries ++ new ∧ (t.seg g).used = used ∧ (t.seg g).st = 1 ∧ (t.seg g).seq = (s.seg g).seq ∧ (t.seg g).closed = (s.seg g).closed ∧
        t.tks.pool = s.tks.pool - ((t.seg g).chunkCount - (s.seg g).chunkCount) ∧ t.tks.ports[p] = { s.tks.ports[p] with notes := [] } ∧ (∀ q : PortId, q ≠ p → t.tks.ports[q] = s.tks.ports[q]) ∧
        (t.seg g).issued = max (s.seg g).issued ((4096 + used) / chunkBytes) ∧
        (t.tks.drives[slotDrive g]).cmds = (s.tks.drives[slotDrive g]).cmds ++ ((List.range ((t.seg g).issued)).drop (s.seg g).issued).map (fun k => { kind := 0, slot := g, chunk := k, seq := (s.seg g).seq, tries := 0, aborted := false, writes := [(g % 3, slotOffset g + 131072 * k, (t.seg g).chunk s.tks.id g k)] }) ∧
        t.tks.segs.filter (fun e => e.1 ≠ g) = s.tks.segs.filter (fun e => e.1 ≠ g) ∧
        t.tks.cues = s.tks.cues.map (fun q => (q.1, if q.2.st = 1 ∧ q.2.port = p.val ∧ q.2.line.any (fun l => decide (l ≤ r.line)) then { q.2 with st := 2, anchor := some g } else q.2)) ∧
        t.tks.wp = s.tks.wp ∧ t.tks.next = s.tks.next ∧ t.tks.st = 2)) ∧
  (∀ (p : PortId) (exceeds : Bool) (s : State) (r : Rec) (rest : List Rec) (g : Nat),
      s.MemOk →
      mwf (fun _ => freeSeg) s.tks.segs = true →
      (s.port p).due[3] = r :: rest →
      recorded (s.eff p.val Off.CMP_REC) r.type = true →
      s.rf 0 Off.TKS_CTL 0 0 = 1 →
      s.tks.st = 2 →
      (∀ q : PortId, (s.tks.ports[q]).suspended = false) →
      exceeds = false →
      (s.tks.ports[p]).open_ = none →
      s.tks.wp = g →
      s.slotExists g = true →
      s.seg g = freeSeg →
      s.anchored g = [] →
      3 ≤ s.writable →
      (s.tks.ports[p]).notes.length * 64 + up64 r.size + 0 ≤ segRoom →
      4096 + (s.tks.ports[p]).notes.length * 64 + up64 r.size < chunkBytes →
      0 < s.tks.pool →
      ((s.tks.drives[slotDrive g]).cmds.filter (fun c => c.kind == 0)).length < 64 →
      Does (.recordEmission p 3 exceeds) s (fun t =>
        let new := s.tks.ports[p].notes.map (fun e => SEntry.note e.1 e.2.1 e.2.2.1 e.2.2.2) ++ [SEntry.record r (min ((s.port p).lostBefore r.line - (s.port p).storeLost) 65535)]
        let used := 0 + (new.map SEntry.bytes).sum
        t = { s with tks := t.tks, ports := t.ports } ∧ t.port p = { s.port p with due := (s.port p).due.set 3 rest, storeLost := (s.port p).lostBefore r.line } ∧ (∀ q : PortId, q ≠ p → t.port q = s.port q) ∧
        t.seg g = { freeSeg with st := 1, port := p.val, seq := s.tks.next, opened := s.now, entries := new, used := used, pinned := (t.seg g).pinned } ∧
        t.tks.wp = g + 1 ∧ t.tks.next = s.tks.next + 1 ∧ t.tks.pool = s.tks.pool - 1 ∧ t.tks.ports[p] = { s.tks.ports[p] with notes := [], open_ := some g } ∧ (∀ q : PortId, q ≠ p → t.tks.ports[q] = s.tks.ports[q]) ∧ t.tks.drives = s.tks.drives ∧ t.tks.nvme = s.tks.nvme ∧
        t.tks.segs.filter (fun e => e.1 ≠ g) = s.tks.segs.filter (fun e => e.1 ≠ g))) ∧
  (∀ (d : DriveId) (k : Nat) (ok : Bool) (s : State),
      (s.tks.drives[d]).cmds[k]? = none →
      Does (.chunkWriteDone d k ok) s (fun t => t = s)) ∧
  (∀ (d : DriveId) (k : Nat) (ok : Bool) (s : State) (c : DrvCmd),
      (s.tks.drives[d]).cmds[k]? = some c →
      c.kind ≠ 0 →
      Does (.chunkWriteDone d k ok) s (fun t => if c.kind = 3 then t = { s with tks := t.tks } ∧ t.tks = { s.tks with drives := t.tks.drives } ∧ t.tks.drives[d] = { s.tks.drives[d] with cmds := (s.tks.drives[d]).cmds.eraseIdx k } ∧ (∀ e : DriveId, e ≠ d → t.tks.drives[e] = s.tks.drives[e]) else t = s)) ∧
  (∀ (d : DriveId) (k : Nat) (s : State) (c : DrvCmd),
      (s.tks.drives[d]).cmds[k]? = some c →
      c.kind = 0 →
      c.tries = 0 →
      Does (.chunkWriteDone d k false) s (fun t => t = { s with tks := t.tks } ∧ t.tks = { s.tks with drives := t.tks.drives, nvme := (c.ops.map (fun o => (d.val, o))).reverse ++ s.tks.nvme } ∧
        t.tks.drives[d] = { s.tks.drives[d] with cmds := (s.tks.drives[d]).cmds.set k { c with tries := 1, aborted := false } } ∧ (∀ e : DriveId, e ≠ d → t.tks.drives[e] = s.tks.drives[e]))) ∧
  (∀ (d : DriveId) (k : Nat) (s : State) (c : DrvCmd),
      (s.tks.drives[d]).cmds[k]? = some c →
      c.kind = 0 →
      c.tries ≠ 0 →
      s.MemOk →
      (s.tks.drives[d]).st = 4 →
      (∃ e : DriveId, e ≠ d ∧ (s.tks.drives[e]).st = 4) →
      (s.tks.cues.map (fun q => q.1)).Nodup →
      Does (.chunkWriteDone d k false) s (fun t => t.tks.segs = s.tks.segs.map (fun e => if e.1 % 8 = d.val ∧ e.2.st ≠ 0 then (e.1, { e.2 with st := 3, drvLost := true, pinned := false }) else e) ∧
        (t.tks.drives[d]).st = 5 ∧ (t.tks.drives[d]).cmds = [] ∧ (t.tks.drives[d]).lostNd = (s.tks.drives[d]).nd ∧ t.tks.lost = s.tks.lost ||| 2 ^ d.val ∧ t.tks.st = s.tks.st ∧
        t.raisings (tksSrc (56 + d.val)) = s.raisings (tksSrc (56 + d.val)) + 1 ∧ t.faults = s.faults ++ [{ kind := 9, unit := d.val, code := 11, arg := 2, arg2 := 0, time := s.now }] ∧
        t.tks.cues = s.tks.cues.map (fun q => (q.1, if q.2.st = 2 ∧ q.2.anchor.any (fun g => decide (g % 8 = d.val ∧ (s.tks.segs.any (fun e => e.1 == g && e.2.st != 0)) = true)) then { q.2 with st := 3, cause := 1 } else q.2)) ∧
        (∀ p : PortId, (t.tks.ports[p]).rewind = (s.tks.ports[p]).rewind ∧ (t.tks.ports[p]).suspended = (s.tks.ports[p]).suspended ∧
          (t.tks.ports[p]).open_ = (s.tks.ports[p]).open_.filter (fun g => !s.tks.segs.any (fun e => e.1 == g && e.1 % 8 == d.val && e.2.st != 0 && argPort e.2.port == p)) ∧
          (s.tks.segs.all (fun e => e.1 % 8 != d.val || e.2.st == 0 || argPort e.2.port != p) = true → t.tks.ports[p] = s.tks.ports[p])) ∧
        ({ s with tks := t.tks, faults := t.faults, regs := t.regs } : State).EventsOnly t [tksSrc (56 + d.val), tksSrc 67])) ∧
  (∀ (d : DriveId) (k : Nat) (s : State) (c : DrvCmd),
      mwf (fun _ => freeSeg) s.tks.segs = true →
      (s.tks.drives[d]).cmds[k]? = some c →
      c.kind = 0 →
      c.chunk = 0 →
      Does (.chunkWriteDone d k true) s (fun t => t = { s with tks := t.tks } ∧ t.tks = { s.tks with drives := t.tks.drives, segs := t.tks.segs, copies := t.tks.copies, pool := min 256 (s.tks.pool + 1) } ∧
        t.tks.drives[d] = { s.tks.drives[d] with cmds := (s.tks.drives[d]).cmds.eraseIdx k } ∧ (∀ e : DriveId, e ≠ d → t.tks.drives[e] = s.tks.drives[e]) ∧ t.seg c.slot = { s.seg c.slot with st := 2 } ∧ t.tks.segs.filter (fun e => e.1 ≠ c.slot) = s.tks.segs.filter (fun e => e.1 ≠ c.slot))) ∧
  (∀ (d : DriveId) (k : Nat) (s : State) (c : DrvCmd),
      mwf (fun _ => freeSeg) s.tks.segs = true →
      (s.tks.drives[d]).cmds[k]? = some c →
      c.kind = 0 →
      c.chunk ≠ 0 →
      c.slot % 8 = d.val →
      Does (.chunkWriteDone d k true) s (fun t =>
        let x := s.seg c.slot
        let left := (s.tks.drives[d]).cmds.eraseIdx k
        let head := x.st = 1 ∧ x.closed.isSome = true ∧ x.header = false ∧ left.all (fun e => !(e.kind == 0 && e.slot == c.slot)) = true ∧ x.chunkCount ≤ x.issued
        t = { s with tks := t.tks } ∧ t.tks = { s.tks with drives := t.tks.drives, segs := t.tks.segs, nvme := t.tks.nvme, pool := min 256 (s.tks.pool + 1) } ∧ (∀ e : DriveId, e ≠ d → t.tks.drives[e] = s.tks.drives[e]) ∧ t.seg c.slot = { x with header := if head then true else x.header } ∧
        t.tks.drives[d] = { s.tks.drives[d] with cmds := if head then left ++ [{ kind := 0, slot := c.slot, chunk := 0, seq := x.seq, tries := 0, aborted := false, writes := [(c.slot % 3, slotOffset c.slot, x.chunk s.tks.id c.slot 0)] }] else left } ∧
        t.tks.nvme = (if head then (d.val, .write (c.slot % 3) (slotOffset c.slot) (x.chunk s.tks.id c.slot 0)) :: s.tks.nvme else s.tks.nvme) ∧ t.tks.segs.filter (fun e => e.1 ≠ c.slot) = s.tks.segs.filter (fun e => e.1 ≠ c.slot))) ∧
  (∀ (p : PortId) (t : Nat) (s : State),
      (s.tks.ports[p]).open_.all (fun g => decide (max s.now t < (s.seg g).opened + max (s.rf 0 Off.TKS_CFG 15 0) 10 * 1000000)) = true →
      Does (.segmentCloseTimer p t) s (fun r => r = s.at t)) ∧
  (∀ (p : PortId) (t : Nat) (s : State) (g : Nat),
      mwf (fun _ => freeSeg) s.tks.segs = true →
      (s.tks.ports[p]).open_ = some g →
      (s.seg g).opened + max (s.rf 0 Off.TKS_CFG 15 0) 10 * 1000000 ≤ max s.now t →
      (s.seg g).st = 1 →
      (s.seg g).closed = none →
      Does (.segmentCloseTimer p t) s (fun r =>
        let x := s.seg g
        r = { s.at t with tks := r.tks } ∧ r.tks = { s.tks with drives := r.tks.drives, segs := r.tks.segs, copies := r.tks.copies, nvme := r.tks.nvme, ports := r.tks.ports } ∧ r.tks.ports[p] = { s.tks.ports[p] with open_ := none } ∧ (∀ q : PortId, q ≠ p → r.tks.ports[q] = s.tks.ports[q]) ∧
        (if x.entries = [] then r.seg g = freeSeg ∧ r.tks.drives = s.tks.drives else (r.seg g).closed = some 1 ∧ (r.seg g).entries = x.entries ∧ (r.seg g).issued = max x.issued x.chunkCount ∧ (r.seg g).st = 1) ∧
        r.tks.segs.filter (fun e => e.1 ≠ g) = s.tks.segs.filter (fun e => e.1 ≠ g) ∧ (∀ e : DriveId, e ≠ slotDrive g → r.tks.drives[e] = s.tks.drives[e]))) ∧
  (∀ (s : State),
      s.tks.st ≠ 2 →
      Does (.checkpoint) s (fun t => t = s)) ∧
  (∀ (s : State) (x : CkptSt),
      s.tks.st = 2 →
      s.tks.running = some x →
      Does (.checkpoint) s (fun t => t = { s with tks := { s.tks with running := some { x with again := true } } })) ∧
  (∀ (s : State),
      s.tks.st = 2 →
      s.tks.running = none →
      Does (.checkpoint) s (fun t => t = { s with tks := t.tks } ∧ t.tks = { s.tks with running := some { step := 0, again := false }, ckpt := s.tks.ckpt + 1, copies := t.tks.copies, drives := t.tks.drives, nvme := t.tks.nvme } ∧
        (∀ d : DriveId, t.tks.drives[d] = if (s.tks.drives[d]).st = 4 then { s.tks.drives[d] with cmds := (s.tks.drives[d]).cmds ++ [{ kind := 2, slot := 0, chunk := 0, seq := 0, tries := 0, aborted := false, writes := s.ckptWrites d 0 }], mirror := (s.tks.drives[d]).mirror.set 0 (min 1048576 ((s.tks.drives[d]).mirror[0] + (s.unmirrored 0).length)) } else s.tks.drives[d]) ∧
        (t.tks.copies[(0 : Fin 2)]).pages = [] ∧ (t.tks.copies[(0 : Fin 2)]).jhead = ((s.tks.copies[(0 : Fin 2)]).jhead + (s.unmirrored 0).length) % 1048576 ∧ t.tks.copies[(1 : Fin 2)] = s.tks.copies[(1 : Fin 2)])) ∧
  (∀ (d : DriveId) (ok : Bool) (s : State),
      ((s.tks.drives[d]).cmds.all (fun c => decide (c.kind ≠ 2 ∧ c.kind ≠ 4)) = true) →
      Does (.checkpointWriteDone d ok) s (fun t => t = s)) ∧
  (∀ (d : DriveId) (s : State) (c : DrvCmd) (cs : List DrvCmd),
      (s.tks.drives[d]).cmds = c :: cs →
      c.kind = 2 →
      Does (.checkpointWriteDone d true) s (fun t => t = { s with tks := t.tks } ∧ t.tks = { s.tks with drives := t.tks.drives, nvme := (d.val, .flush) :: s.tks.nvme } ∧ t.tks.drives[d] = { s.tks.drives[d] with cmds := { kind := 4, slot := 0, chunk := c.chunk, seq := 0, tries := 0, aborted := false, writes := [] } :: cs } ∧ (∀ e : DriveId, e ≠ d → t.tks.drives[e] = s.tks.drives[e]))) ∧
  (∀ (d : DriveId) (s : State) (c : DrvCmd) (cs : List DrvCmd),
      (s.tks.drives[d]).cmds = c :: cs →
      (c.kind = 2 ∨ c.kind = 4) →
      c.tries = 0 →
      Does (.checkpointWriteDone d false) s (fun t => t = { s with tks := t.tks } ∧ t.tks = { s.tks with drives := t.tks.drives, nvme := (c.ops.map (fun o => (d.val, o))).reverse ++ s.tks.nvme } ∧ t.tks.drives[d] = { s.tks.drives[d] with cmds := { c with tries := 1, aborted := false } :: cs } ∧ (∀ e : DriveId, e ≠ d → t.tks.drives[e] = s.tks.drives[e]))) ∧
  (∀ (d : DriveId) (s : State) (c : DrvCmd) (cs : List DrvCmd),
      (s.tks.drives[d]).cmds = c :: cs →
      (c.kind = 2 ∨ c.kind = 4) →
      c.tries ≠ 0 →
      s.MemOk →
      (s.tks.drives[d]).st = 4 →
      (∃ e : DriveId, e ≠ d ∧ (s.tks.drives[e]).st = 4) →
      (s.tks.cues.map (fun q => q.1)).Nodup →
      Does (.checkpointWriteDone d false) s (fun t => t.tks.segs = s.tks.segs.map (fun e => if e.1 % 8 = d.val ∧ e.2.st ≠ 0 then (e.1, { e.2 with st := 3, drvLost := true, pinned := false }) else e) ∧
        (t.tks.drives[d]).st = 5 ∧ (t.tks.drives[d]).cmds = [] ∧ (t.tks.drives[d]).lostNd = (s.tks.drives[d]).nd ∧ t.tks.lost = s.tks.lost ||| 2 ^ d.val ∧ t.tks.st = s.tks.st ∧
        t.raisings (tksSrc (56 + d.val)) = s.raisings (tksSrc (56 + d.val)) + 1 ∧ t.faults = s.faults ++ [{ kind := 9, unit := d.val, code := 11, arg := 2, arg2 := 0, time := s.now }] ∧
        t.tks.cues = s.tks.cues.map (fun q => (q.1, if q.2.st = 2 ∧ q.2.anchor.any (fun g => decide (g % 8 = d.val ∧ (s.tks.segs.any (fun e => e.1 == g && e.2.st != 0)) = true)) then { q.2 with st := 3, cause := 1 } else q.2)) ∧
        (∀ p : PortId, (t.tks.ports[p]).rewind = (s.tks.ports[p]).rewind ∧ (t.tks.ports[p]).suspended = (s.tks.ports[p]).suspended ∧
          (t.tks.ports[p]).open_ = (s.tks.ports[p]).open_.filter (fun g => !s.tks.segs.any (fun e => e.1 == g && e.1 % 8 == d.val && e.2.st != 0 && argPort e.2.port == p)) ∧
          (s.tks.segs.all (fun e => e.1 % 8 != d.val || e.2.st == 0 || argPort e.2.port != p) = true → t.tks.ports[p] = s.tks.ports[p])) ∧
        ({ s with tks := t.tks, faults := t.faults, regs := t.regs } : State).EventsOnly t [tksSrc (56 + d.val), tksSrc 67])) ∧
  (∀ (d : DriveId) (s : State) (c : DrvCmd) (cs : List DrvCmd) (x : CkptSt),
      (s.tks.drives[d]).cmds = c :: cs →
      c.kind = 4 →
      (cs.all (fun e => decide (e.kind ≠ 2 ∧ e.kind ≠ 4)) = true) →
      (∀ e : DriveId, e ≠ d → (s.tks.drives[e]).cmds.all (fun c => decide (c.kind ≠ 2 ∧ c.kind ≠ 4)) = true) →
      s.tks.running = some x →
      s.tks.st = 2 →
      Does (.checkpointWriteDone d true) s (fun t => t = { s with tks := t.tks } ∧ t.tks = { s.tks with drives := t.tks.drives, nvme := t.tks.nvme, running := t.tks.running, ckpt := t.tks.ckpt, copies := t.tks.copies } ∧
        ((if c.chunk = 1 ∨ c.chunk = 3 then [(d.val, NvmeOp.read (0x20000000 * (c.chunk / 2)) 4096)] else []) ++ s.tks.nvme) <:+ t.tks.nvme ∧ (x.step < 3 → t.tks.running = some { x with step := x.step + 1 } ∧ t.tks.ckpt = s.tks.ckpt ∧ ∀ e : DriveId, (t.tks.drives[e]).cmds = (if e = d then cs else (s.tks.drives[e]).cmds) ++ (if (s.tks.drives[e]).st = 4 then [{ kind := 2, slot := 0, chunk := x.step + 1, seq := 0, tries := 0, aborted := false, writes := s.ckptWrites e (x.step + 1) }] else []) ∧
          (x.step ≠ 1 → (t.tks.drives[e]).mirror = (s.tks.drives[e]).mirror ∧ t.tks.copies = s.tks.copies) ∧ { t.tks.drives[e] with cmds := (s.tks.drives[e]).cmds, mirror := (s.tks.drives[e]).mirror } = s.tks.drives[e]) ∧
        (3 ≤ x.step → x.again = false → t.tks.running = none ∧ t.tks.ckpt = s.tks.ckpt ∧ t.tks.nvme = ((if c.chunk = 1 ∨ c.chunk = 3 then [(d.val, NvmeOp.read (0x20000000 * (c.chunk / 2)) 4096)] else []) ++ s.tks.nvme) ∧ ∀ e : DriveId, t.tks.drives[e] = { s.tks.drives[e] with cmds := if e = d then cs else (s.tks.drives[e]).cmds }) ∧
        (3 ≤ x.step → x.again = true → t.tks.running = some { step := 0, again := false } ∧ t.tks.ckpt = s.tks.ckpt + 1))) ∧
  (∀ (d : DriveId) (s : State) (k : Nat) (c : DrvCmd),
      (s.tks.drives[d]).cmds[k]? = some c →
      c.aborted = false →
      Does (.nvmeTimeout d (some k)) s (fun t => t = { s with tks := t.tks } ∧ t.tks = { s.tks with drives := t.tks.drives, nvme := (d.val, .abort) :: s.tks.nvme } ∧ t.tks.drives[d] = { s.tks.drives[d] with cmds := (s.tks.drives[d]).cmds.set k { c with aborted := true } } ∧ (∀ e : DriveId, e ≠ d → t.tks.drives[e] = s.tks.drives[e]))) ∧
  (∀ (d : DriveId) (s : State) (k : Nat) (c : DrvCmd),
      (s.tks.drives[d]).cmds[k]? = some c →
      c.aborted = true →
      s.MemOk →
      (s.tks.drives[d]).st = 4 →
      (∃ e : DriveId, e ≠ d ∧ (s.tks.drives[e]).st = 4) →
      (s.tks.cues.map (fun q => q.1)).Nodup →
      Does (.nvmeTimeout d (some k)) s (fun t => t.tks.segs = s.tks.segs.map (fun e => if e.1 % 8 = d.val ∧ e.2.st ≠ 0 then (e.1, { e.2 with st := 3, drvLost := true, pinned := false }) else e) ∧
        (t.tks.drives[d]).st = 5 ∧ (t.tks.drives[d]).cmds = [] ∧ (t.tks.drives[d]).lostNd = (s.tks.drives[d]).nd ∧ t.tks.lost = s.tks.lost ||| 2 ^ d.val ∧ t.tks.st = s.tks.st ∧
        t.raisings (tksSrc (56 + d.val)) = s.raisings (tksSrc (56 + d.val)) + 1 ∧ t.faults = s.faults ++ [{ kind := 9, unit := d.val, code := 11, arg := 3, arg2 := 0, time := s.now }] ∧
        t.tks.cues = s.tks.cues.map (fun q => (q.1, if q.2.st = 2 ∧ q.2.anchor.any (fun g => decide (g % 8 = d.val ∧ (s.tks.segs.any (fun e => e.1 == g && e.2.st != 0)) = true)) then { q.2 with st := 3, cause := 1 } else q.2)) ∧
        (∀ p : PortId, (t.tks.ports[p]).rewind = (s.tks.ports[p]).rewind ∧ (t.tks.ports[p]).suspended = (s.tks.ports[p]).suspended ∧
          (t.tks.ports[p]).open_ = (s.tks.ports[p]).open_.filter (fun g => !s.tks.segs.any (fun e => e.1 == g && e.1 % 8 == d.val && e.2.st != 0 && argPort e.2.port == p)) ∧
          (s.tks.segs.all (fun e => e.1 % 8 != d.val || e.2.st == 0 || argPort e.2.port != p) = true → t.tks.ports[p] = s.tks.ports[p])) ∧
        ({ s with tks := t.tks, faults := t.faults, regs := t.regs } : State).EventsOnly t [tksSrc (56 + d.val), tksSrc 67])) ∧
  (∀ (d : DriveId) (s : State),
      s.MemOk →
      (s.tks.drives[d]).st = 4 →
      (∃ e : DriveId, e ≠ d ∧ (s.tks.drives[e]).st = 4) →
      (s.tks.cues.map (fun q => q.1)).Nodup →
      Does (.nvmeTimeout d none) s (fun t => t.tks.segs = s.tks.segs.map (fun e => if e.1 % 8 = d.val ∧ e.2.st ≠ 0 then (e.1, { e.2 with st := 3, drvLost := true, pinned := false }) else e) ∧
        (t.tks.drives[d]).st = 5 ∧ (t.tks.drives[d]).cmds = [] ∧ (t.tks.drives[d]).lostNd = (s.tks.drives[d]).nd ∧ t.tks.lost = s.tks.lost ||| 2 ^ d.val ∧ t.tks.st = s.tks.st ∧
        t.raisings (tksSrc (56 + d.val)) = s.raisings (tksSrc (56 + d.val)) + 1 ∧ t.faults = s.faults ++ [{ kind := 9, unit := d.val, code := 11, arg := 3, arg2 := 0, time := s.now }] ∧
        t.tks.cues = s.tks.cues.map (fun q => (q.1, if q.2.st = 2 ∧ q.2.anchor.any (fun g => decide (g % 8 = d.val ∧ (s.tks.segs.any (fun e => e.1 == g && e.2.st != 0)) = true)) then { q.2 with st := 3, cause := 1 } else q.2)) ∧
        (∀ p : PortId, (t.tks.ports[p]).rewind = (s.tks.ports[p]).rewind ∧ (t.tks.ports[p]).suspended = (s.tks.ports[p]).suspended ∧
          (t.tks.ports[p]).open_ = (s.tks.ports[p]).open_.filter (fun g => !s.tks.segs.any (fun e => e.1 == g && e.1 % 8 == d.val && e.2.st != 0 && argPort e.2.port == p)) ∧
          (s.tks.segs.all (fun e => e.1 % 8 != d.val || e.2.st == 0 || argPort e.2.port != p) = true → t.tks.ports[p] = s.tks.ports[p])) ∧
        ({ s with tks := t.tks, faults := t.faults, regs := t.regs } : State).EventsOnly t [tksSrc (56 + d.val), tksSrc 67])) ∧
  (∀ (d : DriveId) (k : Option Nat) (s : State),
      (s.tks.drives[d]).st ≠ 4 →
      (∀ i ∈ k, (s.tks.drives[d]).cmds[i]? = none) →
      Does (.nvmeTimeout d k) s (fun t => t = s))

/-- A drive's link comes up and its controller is brought up; a usable drive is READY or FOREIGN with its slot count, another UNUSABLE; its link going down takes it away, and fails it when it is a member; the last member's failure fails the store and ends every rewind. A health poll stores the values and warns of each new bit. Recovery reads and takes up the newest checkpoint, the open slots whose header is valid, and what the scan finds; FORMAT with its key makes a new store of the usable drives; JOIN adds a drive with its slots free, and a checkpoint follows both. (The store's new ID is a free value. Slots open in the checkpoint are log entry 206; where a command is not due, nothing happens: log entry 5.) -/
def Obligations.TakeStoreDrives : Prop :=
  (∀ (d : DriveId) (rate width : Nat) (s : State),
      (s.tks.drives[d]).st ≠ 0 →
      (s.tks.drives[d]).st ≠ 5 →
      Does (.driveLinkUp d rate width) s (fun t => t = s)) ∧
  (∀ (d : DriveId) (rate width : Nat) (s : State),
      s.MemOk →
      ((s.tks.drives[d]).st = 0 ∨ (s.tks.drives[d]).st = 5) →
      rate < 16 →
      width < 16 →
      Does (.driveLinkUp d rate width) s (fun t => t = { s with tks := t.tks, regs := t.regs } ∧ t.tks = { s.tks with drives := t.tks.drives, nvme := [(d.val, .setWriteCache true), (d.val, .setArbitration 8), (d.val, .setQueues 4), (d.val, .identify 1), (d.val, .identify 0)] ++ s.tks.nvme } ∧ t.tks.drives[d] = { s.tks.drives[d] with st := 1, cmds := [], hdr := none, asize := 32 } ∧ (∀ e : DriveId, e ≠ d → t.tks.drives[e] = s.tks.drives[e]) ∧
        s.SameRegs t [rkey 0 (Off.TKS_DRV_STAT + 16 * d.val)] ∧ t.rf 0 (Off.TKS_DRV_STAT + 16 * d.val) 15 12 = rate ∧ t.rf 0 (Off.TKS_DRV_STAT + 16 * d.val) 11 8 = width ∧ t.rf 0 (Off.TKS_DRV_STAT + 16 * d.val) 31 16 = s.rf 0 (Off.TKS_DRV_STAT + 16 * d.val) 31 16)) ∧
  (∀ (d : DriveId) (ns : Option Nat) (lba : Nat) (plain : Bool) (mdts qmax : Nat) (hdr : Option StoreHdr) (s : State),
      (s.tks.drives[d]).st ≠ 1 →
      Does (.driveReady d ns lba plain mdts qmax hdr) s (fun t => t = s)) ∧
  (∀ (d : DriveId) (ns : Option Nat) (lba : Nat) (plain : Bool) (mdts qmax : Nat) (hdr : Option StoreHdr) (s : State),
      s.MemOk →
      (s.tks.drives[d]).st = 1 →
      Does (.driveReady d ns lba plain mdts qmax hdr) s (fun t => t = { s with tks := t.tks, regs := t.regs } ∧ t.tks = { s.tks with drives := t.tks.drives, nvme := t.tks.nvme } ∧ (∀ e : DriveId, e ≠ d → t.tks.drives[e] = s.tks.drives[e]) ∧ s.SameRegs t [rkey 0 (Off.TKS_DRV_STAT + 16 * d.val)] ∧ t.rf 0 (Off.TKS_DRV_STAT + 16 * d.val) 16 16 = b2n (lba == 4096) ∧
        (if 2 ^ 31 ≤ ns.getD 0 ∧ (lba = 512 ∨ lba = 4096) ∧ plain = true ∧ 131072 ≤ mdts ∧ 64 ≤ qmax then
          t.tks.drives[d] = { s.tks.drives[d] with st := if hdr = none then 2 else 3, nd := min (ns.getD 0) (8 * 10 ^ 12) / 8388608 - 128, qsize := min 1024 qmax, hdr := hdr } ∧
          t.tks.nvme = [(d.val, .read 0x20000000 4096), (d.val, .read 0 4096)] ++ ([3, 2, 1, 0].map (fun q => (d.val, NvmeOp.createQueue q (min 1024 qmax)))) ++ s.tks.nvme
         else t.tks.drives[d] = { s.tks.drives[d] with st := 6, nd := 0, qsize := 0, hdr := none } ∧ t.tks.nvme = s.tks.nvme))) ∧
  (∀ (d : DriveId) (fatal : Bool) (s : State),
      s.MemOk →
      (s.tks.drives[d]).st ≠ 4 →
      Does (.driveLinkDown d fatal) s (fun t => if fatal then t = s else t = { s with tks := t.tks, regs := t.regs } ∧ t.tks = { s.tks with drives := t.tks.drives } ∧ t.tks.drives[d] = { s.tks.drives[d] with st := 0, nd := 0, qsize := 0, asize := 0, cmds := [], hdr := none } ∧ (∀ e : DriveId, e ≠ d → t.tks.drives[e] = s.tks.drives[e]) ∧ s.SameRegs t [rkey 0 (Off.TKS_DRV_STAT + 16 * d.val)] ∧ t.rf 0 (Off.TKS_DRV_STAT + 16 * d.val) 15 8 = 0 ∧ t.rf 0 (Off.TKS_DRV_STAT + 16 * d.val) 31 16 = s.rf 0 (Off.TKS_DRV_STAT + 16 * d.val) 31 16)) ∧
  (∀ (d : DriveId) (fatal : Bool) (s : State),
      s.MemOk →
      (s.tks.drives[d]).st = 4 →
      (∃ e : DriveId, e ≠ d ∧ (s.tks.drives[e]).st = 4) →
      (s.tks.cues.map (fun q => q.1)).Nodup →
      Does (.driveLinkDown d fatal) s (fun t => t.tks.segs = s.tks.segs.map (fun e => if e.1 % 8 = d.val ∧ e.2.st ≠ 0 then (e.1, { e.2 with st := 3, drvLost := true, pinned := false }) else e) ∧
        (t.tks.drives[d]).st = 5 ∧ (t.tks.drives[d]).cmds = [] ∧ (t.tks.drives[d]).lostNd = (s.tks.drives[d]).nd ∧ t.tks.lost = s.tks.lost ||| 2 ^ d.val ∧ t.tks.st = s.tks.st ∧
        t.raisings (tksSrc (56 + d.val)) = s.raisings (tksSrc (56 + d.val)) + 1 ∧ t.faults = s.faults ++ [{ kind := 9, unit := d.val, code := 11, arg := b2n fatal, arg2 := 0, time := s.now }] ∧
        t.tks.cues = s.tks.cues.map (fun q => (q.1, if q.2.st = 2 ∧ q.2.anchor.any (fun g => decide (g % 8 = d.val ∧ (s.tks.segs.any (fun e => e.1 == g && e.2.st != 0)) = true)) then { q.2 with st := 3, cause := 1 } else q.2)) ∧
        (∀ p : PortId, (t.tks.ports[p]).rewind = (s.tks.ports[p]).rewind ∧ (t.tks.ports[p]).suspended = (s.tks.ports[p]).suspended ∧
          (t.tks.ports[p]).open_ = (s.tks.ports[p]).open_.filter (fun g => !s.tks.segs.any (fun e => e.1 == g && e.1 % 8 == d.val && e.2.st != 0 && argPort e.2.port == p)) ∧
          (s.tks.segs.all (fun e => e.1 % 8 != d.val || e.2.st == 0 || argPort e.2.port != p) = true → t.tks.ports[p] = s.tks.ports[p])) ∧
        ({ s with tks := t.tks, faults := t.faults, regs := t.regs } : State).EventsOnly t [tksSrc (56 + d.val), tksSrc 67] ∧
        s.SameRegs t (rkey 0 (Off.TKS_DRV_STAT + 16 * d.val) :: injKeys) ∧ (fatal = false → t.rf 0 (Off.TKS_DRV_STAT + 16 * d.val) 15 8 = 0))) ∧
  (∀ (d : DriveId) (fatal : Bool) (s : State),
      s.MemOk →
      (s.tks.drives[d]).st = 4 →
      (∀ e : DriveId, e ≠ d → (s.tks.drives[e]).st ≠ 4) →
      Does (.driveLinkDown d fatal) s (fun t => (t.tks.drives[d]).st = 5 ∧ t.tks.st = 3 ∧ t.tks.running = none ∧ t.tks.lost = s.tks.lost ||| 2 ^ d.val ∧ t.raisings (tksSrc (56 + d.val)) = s.raisings (tksSrc (56 + d.val)) + 1 ∧
        (∀ p : PortId, if s.stream3Waits p 96 then (t.tks.ports[p]).rewind = (s.tks.ports[p]).rewind.map (fun r => { r with ending := some (r.ending.getD 4) }) ∧ t.raisings (tksSrc (32 + p.val)) = s.raisings (tksSrc (32 + p.val))
          else (t.tks.ports[p]).rewind = none ∧ t.raisings (tksSrc (32 + p.val)) = s.raisings (tksSrc (32 + p.val)) + b2n (s.tks.ports[p]).rewind.isSome) ∧ t.units = s.units ∧ t.engs = s.engs ∧ t.ports = s.ports ∧ t.now = s.now)) ∧
  (∀ (d : DriveId) (warn : Byte) (used temp : Nat) (s : State),
      (s.tks.drives[d]).st ≠ 2 →
      (s.tks.drives[d]).st ≠ 3 →
      (s.tks.drives[d]).st ≠ 4 →
      Does (.smartPoll d warn used temp) s (fun t => t = s)) ∧
  (∀ (d : DriveId) (warn : Byte) (used temp : Nat) (s : State),
      s.MemOk →
      ((s.tks.drives[d]).st = 2 ∨ (s.tks.drives[d]).st = 3 ∨ (s.tks.drives[d]).st = 4) →
      Does (.smartPoll d warn used temp) s (fun t =>
        let off := Off.TKS_DRV_HEALTH + 16 * d.val
        let new := decide (BitVec.ofNat 8 (s.rf 0 off 31 24) &&& warn ≠ warn)
        t.rf 0 off 31 24 = warn.toNat ∧ t.rf 0 off 23 16 = min used 255 ∧ t.rf 0 off 15 0 = min temp 65535 ∧ t.tks = { s.tks with nvme := (d.val, .logPage false) :: (d.val, .logPage true) :: s.tks.nvme } ∧
        t.raisings (tksSrc (48 + d.val)) = s.raisings (tksSrc (48 + d.val)) + b2n new ∧ ({ s with tks := t.tks, regs := t.regs } : State).EventsOnly t [tksSrc (48 + d.val)] ∧ s.SameRegs t (rkey 0 off :: injKeys))) ∧
  (∀ (segs : List (Nat × Seg)) (cues : List (Nat × Cue)) (mirrored : Nat) (found : List (Nat × Nat × Seg)) (s : State),
      s.tks.st ≠ 1 →
      Does (.storeRecovery segs ⟨cues, mirrored⟩ found) s (fun t => t = s)) ∧
  (∀ (segs : List (Nat × Seg)) (cues : List (Nat × Cue)) (mirrored : Nat) (found : List (Nat × Nat × Seg)) (s : State),
      s.tks.st = 1 →
      s.bestHdr = none →
      Does (.storeRecovery segs ⟨cues, mirrored⟩ found) s (fun t => t = { s with tks := { s.tks with st := 0 } })) ∧
  (∀ (segs : List (Nat × Seg)) (cues : List (Nat × Cue)) (mirrored : Nat) (found : List (Nat × Nat × Seg)) (s : State) (h : StoreHdr),
      s.MemOk →
      s.tks.st = 1 →
      s.tks.segs = [] →
      s.tks.running = none →
      s.bestHdr = some h →
      (∀ d : DriveId, bitN h.members d.val = true → ((s.tks.drives[d]).st = 2 ∨ (s.tks.drives[d]).st = 3) ∧ (s.tks.drives[d]).hdr.map (fun y => y.id) = some h.id ∧ bitN h.members d.val = true) →
      (segs.map (fun e => e.1)).Nodup →
      (found.map (fun e => e.1)).Nodup →
      cues.all (fun c => decide (c.1 < 256)) = true →
      Does (.storeRecovery segs ⟨cues, mirrored⟩ found) s (fun t =>
        let slots := t.nextSlots t.slotEnd 32776 (min 4096 t.slotCountAll) (t.ringStart h.wp)
        let scan := found.filter (fun e => slots.contains e.1 && decide (e.2.1 = h.id) && decide (h.next ≤ e.2.2.seq))
        let older (d : DriveId) : Bool := decide ((s.tks.drives[d]).hdr.map (fun y => y.ckpt) ≠ some h.ckpt)
        t.tks = { s.tks with st := 2, id := h.id, ckpt := h.ckpt, lost := h.lost, cues := t.tks.cues, drives := t.tks.drives, segs := t.tks.segs, wp := t.tks.wp, next := t.tks.next, copies := t.tks.copies, nvme := t.tks.nvme } ∧
        (∀ d : DriveId, if bitN h.members d.val = true then
          { t.tks.drives[d] with mirror := (s.tks.drives[d]).mirror, cmds := (s.tks.drives[d]).cmds } = { s.tks.drives[d] with st := 4, lostNd := 0 } ∧
            (older d = false → (t.tks.drives[d]).cmds = (s.tks.drives[d]).cmds ∧ (t.tks.drives[d]).mirror = Vector.replicate 2 h.jcount) ∧
            (older d = true → (t.tks.drives[d]).cmds.length = (s.tks.drives[d]).cmds.length + 1)
          else t.tks.drives[d] = { s.tks.drives[d] with lostNd := lostOf h segs d }) ∧
        (∃ d : DriveId, (s.tks.drives[d]).hdr = some h ∧ [(0x1000, 16384), (0x100000 + (h.jhead + 1048575) % 1048576 / 64 * 4096, 4096), (0x8000000, (32 * (8 * h.slots.foldl max 0) + 4095) / 4096 * 4096)].all (fun e => t.tks.nvme.contains (d.val, .read (copyOffset h.copy + e.1) e.2)) = true) ∧
        (slots.all (fun g => t.tks.nvme.contains (g % 8, .read (slotOffset g) 4096))) = true ∧
        scan.all (fun e => decide ({ t.seg e.1 with pinned := false } = { e.2.2 with st := 2, pinned := false }) && decide (e.2.2.seq < t.tks.next)) = true ∧
        (segs.filter (fun e => !(scan.any (fun f => f.1 == e.1)))).all (fun e => decide ({ t.seg e.1 with pinned := false } =
          if e.2.st = 2 ∨ e.2.st = 3 then { e.2 with drvLost := e.2.st == 3 && bitN h.lost (e.1 % 8), pinned := false }
          else if e.2.st = 1 ∧ t.slotExists e.1 = true then ((found.find? (fun f => f.1 == e.1 && f.2.1 == h.id && f.2.2.seq == e.2.seq && f.2.2.port == e.2.port)).map (fun f => { f.2.2 with st := 2, pinned := false })).getD freeSeg
          else freeSeg)) = true ∧
        (scan = [] → t.tks.wp = h.wp ∧ t.tks.next = h.next ∧ (segs.all (fun e => decide (e.2.st ≠ 1)) = true → t.tks.cues = cues)) ∧
        (scan ≠ [] → ∃ e ∈ scan, scan.all (fun f => decide (f.2.2.seq ≤ e.2.2.seq)) = true ∧ t.tks.wp = e.1 + 1 ∧ t.tks.next = e.2.2.seq + 1) ∧ t.raisings (tksSrc 64) = s.raisings (tksSrc 64) + 1 ∧ ({ s with tks := t.tks } : State).EventsOnly t [tksSrc 64, tksSrc 67])) ∧
  (∀ (c : CtxId) (v : Word) (s : State),
      s.MemOk →
      s.Serves c Off.TKS_CTL true →
      fld v.toNat 31 16 = 0x7A5E →
      s.rf 0 Off.TKS_CTL 0 0 = 0 →
      (∀ p : PortId, (s.tks.ports[p]).open_ = none) →
      Does (.format c v) s (fun t =>
        let usable (d : DriveId) : Bool := decide ((s.tks.drives[d]).st = 2 ∨ (s.tks.drives[d]).st = 3 ∨ (s.tks.drives[d]).st = 4)
        let some1 := (List.finRange 8).any usable
        t = { s with tks := t.tks, regs := t.regs, jrnl := t.jrnl, free := s.free + 1 } ∧ s.SameRegs t [rkey 0 Off.TKS_CTL] ∧ t.rf 0 Off.TKS_CTL 0 0 = fld v.toNat 0 0 ∧
        t.tks.segs = [] ∧ t.tks.cues = [] ∧ t.tks.wp = 0 ∧ t.tks.next = 1 ∧ t.tks.lost = 0 ∧ t.tks.pool = 256 ∧ t.tks.st = (if some1 then 2 else 0) ∧ t.tks.ckpt = b2n some1 ∧
        (∀ d : DriveId, if usable d then (t.tks.drives[d]).st = 4 ∧ (t.tks.drives[d]).lostNd = 0 ∧ (t.tks.drives[d]).nd = (s.tks.drives[d]).nd ∧ (t.tks.drives[d]).cmds.map (fun c => (c.kind, c.slot, c.chunk)) = [(3, 0, (s.tks.drives[d]).nd), (2, 0, 4), (2, 0, 0)] ∧
            t.tks.nvme.contains (d.val, .deallocate 0 (s.tks.drives[d]).nd) = true else t.tks.drives[d] = { s.tks.drives[d] with lostNd := 0 }) ∧
        (∀ p : PortId, t.tks.ports[p] = { s.tks.ports[p] with notes := [], suspended := false }))) ∧
  (∀ (c : CtxId) (v : Word) (s : State),
      s.MemOk →
      s.Serves c Off.TKS_CTL true →
      (fld v.toNat 31 16 ≠ 0x7A5E ∨ s.rf 0 Off.TKS_CTL 0 0 = 1) →
      (v.getLsbD 0 = true ∨ s.rf 0 Off.TKS_CTL 0 0 = 0) →
      Does (.format c v) s (fun t => t = { s with tks := t.tks, regs := t.regs, jrnl := t.jrnl } ∧ t.tks = s.tks ∧ s.SameRegs t [rkey 0 Off.TKS_CTL] ∧ t.rf 0 Off.TKS_CTL 0 0 = fld v.toNat 0 0)) ∧
  (∀ (c : CtxId) (d : DriveId) (v : Word) (s : State),
      s.MemOk →
      s.Serves c (Off.TKS_DRV_CTL + 16 * d.val) true →
      v.getLsbD 0 = true →
      ((s.tks.drives[d]).st = 2 ∨ (s.tks.drives[d]).st = 3) →
      (s.tks.st = 2 ∨ s.tks.st = 3) →
      s.tks.running = none →
      Does (.join c d v) s (fun t => t = { s with tks := t.tks, jrnl := t.jrnl } ∧ t.tks = { s.tks with st := 2, lost := s.tks.lost &&& (255 - 2 ^ d.val), segs := s.tks.segs.filter (fun e => e.1 % 8 ≠ d.val), drives := t.tks.drives, nvme := t.tks.nvme, copies := t.tks.copies, running := some { step := 0, again := false }, ckpt := s.tks.ckpt + 1 } ∧
        { t.tks.drives[d] with cmds := [], mirror := (s.tks.drives[d]).mirror } = { s.tks.drives[d] with st := 4, lostNd := 0, cmds := [] } ∧ (t.tks.drives[d]).cmds.map (fun c => (c.kind, c.slot, c.chunk)) = [(3, 0, (s.tks.drives[d]).nd), (2, 0, 4), (2, 0, 0)] ∧
        t.tks.nvme.contains (d.val, .deallocate 0 (s.tks.drives[d]).nd) = true ∧
        (∀ e : DriveId, e ≠ d → if (s.tks.drives[e]).st = 4 then { t.tks.drives[e] with cmds := (s.tks.drives[e]).cmds, mirror := (s.tks.drives[e]).mirror } = s.tks.drives[e] ∧ (t.tks.drives[e]).cmds.length = (s.tks.drives[e]).cmds.length + 1 else t.tks.drives[e] = s.tks.drives[e]))) ∧
  (∀ (c : CtxId) (d : DriveId) (v : Word) (s : State),
      s.MemOk →
      s.Serves c (Off.TKS_DRV_CTL + 16 * d.val) true →
      (v.getLsbD 0 = false ∨ ((s.tks.drives[d]).st ≠ 2 ∧ (s.tks.drives[d]).st ≠ 3) ∨ (s.tks.st ≠ 2 ∧ s.tks.st ≠ 3)) →
      Does (.join c d v) s (fun t => t = { s with jrnl := t.jrnl }))

/-- CUE_SET takes the lowest free number for a line or a master position, held if a record lies at or after its line, else pending; CUE_PIN sets or clears a cue's pin and span and the pins of segments follow; REWIND_READ starts a rewind over the records held in its range, and REWIND_STOP ends it. A read of a segment gives its records to the rewind, or loses the segment. A delivery sends the next marker or record to stream 3, counted as delivered or dropped, and the end ends the rewind. (The lowest number is the model's, log entry 84.) (Where a command is not due, nothing happens: log entry 5.) -/
def Obligations.CuesAndRewinds : Prop :=
  (∀ (c : CtxId) (y : Submission) (s : State) (p : PortId),
      (s.Accepts c { op := 0x28, since := 0x20, kinds := [0], slotted := false, args := [0, 1, 2, 3] } y) →
      (s.ctxs[c]).blk 7 true = true →
      (s.ctxs[c]).port p.val true = true →
      y.arg 1 = p.val →
      y.arg 0 ≤ 2 →
      (y.arg 0 ≠ 0 → s.srcCode p = y.arg 0 ∧ masterReached (s.master (y.arg 0 - 1)) (sgn 48 (y.arg64 2)) = false) →
      (∀ l ∈ s.cueLine p (y.arg 0) (y.arg64 2), ∀ o ∈ s.oldest p, o ≤ l) →
      s.tks.cues.length < 256 →
      Does (.cueSet c y) s (fun t =>
        let n := ((List.range 256).find? (fun k => !s.tks.cues.any (fun e => e.1 == k))).getD 0
        let line := s.cueLine p (y.arg 0) (y.arg64 2)
        let anchor := line.bind (fun l => s.anchorFor p l)
        s.Answered t c y (okRes n 0) ∧ (y.arg 0 = 0 → line = some (y.arg64 2 % 2 ^ 48)) ∧
        t.cue n = some { st := if anchor.isSome then 2 else 1, port := p.val, kind := y.arg 0, pinned := false, cause := 0, value := if y.arg 0 = 0 then (y.arg64 2 : Nat) else sgn 48 (y.arg64 2), line := line, reached := false, before := 0, after := 0, anchor := anchor, time := s.now, ctx := c.val, cid := y.cid.toNat } ∧
        (∀ k : Fin 256, k.val ≠ n → t.cue k.val = s.cue k.val) ∧ t.tks = { s.tks with cues := t.tks.cues, copies := t.tks.copies } ∧ t.tks.cues.length = s.tks.cues.length + 1 ∧ (∀ d : CtxId, d ≠ c → t.ctxs[d] = s.ctxs[d]) ∧ { s with ctxs := t.ctxs, bus := t.bus, jrnl := t.jrnl, tks := t.tks }.EventsOnly t [mgtSrc (5 * c.val), mgtSrc (5 * c.val + 1)])) ∧
  (∀ (c : CtxId) (y : Submission) (s : State) (q : Cue),
      (s.Accepts c { op := 0x29, since := 0x21, kinds := [6], slotted := false, args := [0, 1, 2] } y) →
      (s.ctxs[c]).blk 7 true = true →
      s.cue y.unit = some q →
      (s.ctxs[c]).port q.port true = true →
      q.st ≠ 3 →
      y.arg 0 = 0 →
      s.tks.st = 2 →
      s.tks.running = none →
      Does (.cuePin c y) s (fun t => s.Answered t c y (okRes 0 0) ∧ t.tks.cues = s.tks.cues.map (fun e => (e.1, if e.1 = y.unit then { e.2 with pinned := false, before := y.arg 1, after := y.arg 2 } else e.2)) ∧
        t.tks.segs = s.tks.segs.map (fun e => (e.1, { e.2 with pinned := t.segPinned e.2 || (e.2.pinned && t.tks.cues.any (fun q => q.2.pinned && q.2.st == 3 && q.2.port == e.2.port && (e.2.entries.filterMap SEntry.line).any q.2.spans)) })) ∧
        t.tks.running = some { step := 0, again := false } ∧ t.tks.ports = s.tks.ports ∧ (∀ d : CtxId, d ≠ c → t.ctxs[d] = s.ctxs[d]) ∧ { s with ctxs := t.ctxs, bus := t.bus, jrnl := t.jrnl, tks := t.tks }.EventsOnly t [mgtSrc (5 * c.val), mgtSrc (5 * c.val + 1)])) ∧
  (∀ (c : CtxId) (y : Submission) (s : State) (q : Cue),
      (s.Accepts c { op := 0x29, since := 0x21, kinds := [6], slotted := false, args := [0, 1, 2] } y) →
      (s.ctxs[c]).blk 7 true = true →
      s.cue y.unit = some q →
      (s.ctxs[c]).port q.port true = true →
      q.st ≠ 3 →
      y.arg 0 = 1 →
      (s.tks.cues.filter (fun e => e.2.pinned && e.1 != y.unit)).length < 16 →
      (2 ≤ s.leftWith y.unit { q with pinned := true, before := y.arg 1, after := y.arg 2 }) →
      Does (.cuePin c y) s (fun t => s.Answered t c y (okRes 0 0) ∧ t.tks.cues = s.tks.cues.map (fun e => (e.1, if e.1 = y.unit then { e.2 with pinned := true, before := y.arg 1, after := y.arg 2 } else e.2)) ∧
        t.tks.segs.all (fun e => !(t.segPinned e.2) || e.2.pinned) = true ∧ t.tks.segs.all (fun e => !e.2.pinned || t.tks.cues.any (fun q => q.2.pinned && q.2.port == e.2.port && (e.2.entries.filterMap SEntry.line).any q.2.spans)) = true ∧
        t.units = s.units ∧ t.ports = s.ports ∧ t.now = s.now ∧ (∀ d : CtxId, d ≠ c → t.ctxs[d] = s.ctxs[d]))) ∧
  (∀ (c : CtxId) (y : Submission) (s : State) (p : PortId),
      (s.Accepts c { op := 0x2B, since := 0x20, kinds := [1], slotted := false, args := [0, 1, 2, 3, 4, 5] } y) →
      y.unit = p.val →
      tksRight (s.ctxs[c]) p.val = true →
      y.arg 0 ≤ 2 →
      (y.arg 0 = 2 → 0x21 ≤ (s.ctxs[c]).zhp) →
      (s.chan (chanOf p 3)).st = 1 →
      (s.tks.ports[p]).rewind = none →
      (y.arg 0 = 0 → (s.cue (y.arg 1)).any (fun q => q.st == 2 && q.port == p.val) = true) →
      (y.arg 0 = 1 → y.arg64 1 ≤ y.arg64 3) →
      (y.arg 0 = 2 → sgn 64 (y.arg64 1) ≤ sgn 64 (y.arg64 3)) →
      (1 ≤ y.arg 5 ∧ y.arg 5 ≤ 2000) →
      s.selected p (s.rewindRange y).1 (s.rewindRange y).2.1 (s.rewindRange y).2.2 ≠ [] →
      s.hostFits s.plan (y.arg 5) = true →
      Does (.rewindRead c y) s (fun t =>
        let rg := s.rewindRange y
        let sel := s.selected p rg.1 rg.2.1 rg.2.2
        s.Answered t c y (okRes sel.length 0) ∧ (t.tks.ports[p]).rewinds = ((s.tks.ports[p]).rewinds + 1) % 2 ^ 32 ∧
        (y.arg 0 = 1 → rg = (false, ((y.arg64 1 : Nat) : Int), ((y.arg64 3 : Nat) : Int))) ∧ (y.arg 0 = 2 → rg = (true, sgn 64 (y.arg64 1), sgn 64 (y.arg64 3))) ∧
        ((t.tks.ports[p]).rewind.map (fun r => (r.total, r.share, r.begun, r.delivered, r.dropped))) = some (sel.length, y.arg 5, false, 0, 0) ∧
        sel.all (fun r => (t.tks.ports[p]).rewind.any (fun w => decide (r.line ≤ w.last))) = true ∧
        (∀ q : PortId, q ≠ p → t.tks.ports[q] = s.tks.ports[q]) ∧ t.tks = { s.tks with ports := t.tks.ports, drives := t.tks.drives, nvme := t.tks.nvme } ∧ (∀ d : CtxId, d ≠ c → t.ctxs[d] = s.ctxs[d]) ∧ { s with ctxs := t.ctxs, bus := t.bus, jrnl := t.jrnl, tks := t.tks, free := s.free + 1 }.EventsOnly t [mgtSrc (5 * c.val), mgtSrc (5 * c.val + 1)])) ∧
  (∀ (c : CtxId) (y : Submission) (s : State) (p : PortId) (r : Rewind),
      (s.Accepts c { op := 0x2C, since := 0x20, kinds := [1], slotted := false, args := [] } y) →
      y.unit = p.val →
      tksRight (s.ctxs[c]) p.val = true →
      (s.tks.ports[p]).rewind = some r →
      s.stream3Waits p markerSize = false →
      s.MemOk →
      Does (.rewindStop c y) s (fun t => s.Answered t c y (okRes 0 0) ∧
        t.tks.ports[p] = { s.tks.ports[p] with rewind := none } ∧ (∀ q : PortId, q ≠ p → t.tks.ports[q] = s.tks.ports[q]) ∧ t.tks = { s.tks with ports := t.tks.ports } ∧ t.raisings (tksSrc (32 + p.val)) = s.raisings (tksSrc (32 + p.val)) + 1 ∧
        (∀ d : ChanId, d ≠ chanOf p 3 → t.chan d = s.chan d) ∧ t.units = s.units ∧ t.ports = s.ports ∧ t.engs = s.engs ∧ t.axes = s.axes ∧ t.now = s.now ∧ (∀ d : CtxId, d ≠ c → t.ctxs[d] = s.ctxs[d]))) ∧
  (∀ (c : CtxId) (y : Submission) (s : State) (p : PortId) (r : Rewind),
      (s.Accepts c { op := 0x2C, since := 0x20, kinds := [1], slotted := false, args := [] } y) →
      y.unit = p.val →
      tksRight (s.ctxs[c]) p.val = true →
      (s.tks.ports[p]).rewind = some r →
      s.stream3Waits p markerSize = true →
      Does (.rewindStop c y) s (fun t => s.Answered t c y (okRes 0 0) ∧
        t.tks.ports[p] = { s.tks.ports[p] with rewind := some { r with ending := some (r.ending.getD 1) } } ∧ (∀ q : PortId, q ≠ p → t.tks.ports[q] = s.tks.ports[q]) ∧ t.tks = { s.tks with ports := t.tks.ports } ∧ (∀ d : CtxId, d ≠ c → t.ctxs[d] = s.ctxs[d]) ∧ { s with ctxs := t.ctxs, bus := t.bus, jrnl := t.jrnl, tks := t.tks }.EventsOnly t [mgtSrc (5 * c.val), mgtSrc (5 * c.val + 1)])) ∧
  (∀ (d : DriveId) (k : Nat) (ok hdrOk : Bool) (bad : List Nat) (s : State),
      (s.tks.drives[d]).cmds[k]?.all (fun c => decide (c.kind ≠ 1)) = true →
      Does (.nvmeReadDone d k ok hdrOk bad) s (fun t => t = s)) ∧
  (∀ (d : DriveId) (k : Nat) (hdrOk : Bool) (bad : List Nat) (s : State) (c : DrvCmd),
      (s.tks.drives[d]).cmds[k]? = some c →
      c.kind = 1 →
      c.tries = 0 →
      Does (.nvmeReadDone d k false hdrOk bad) s (fun t => t = { s with tks := t.tks } ∧ t.tks = { s.tks with drives := t.tks.drives, nvme := (d.val, .read (0x40000000 + 0x800000 * (c.slot / 8)) 0x800000) :: s.tks.nvme } ∧ t.tks.drives[d] = { s.tks.drives[d] with cmds := (s.tks.drives[d]).cmds.set k { c with tries := 1, aborted := false } } ∧ (∀ e : DriveId, e ≠ d → t.tks.drives[e] = s.tks.drives[e]))) ∧
  (∀ (d : DriveId) (k : Nat) (bad : List Nat) (s : State) (c : DrvCmd) (p : PortId) (r : Rewind) (q f l : Nat) (rest : List RItem),
      s.MemOk →
      (s.tks.drives[d]).cmds[k]? = some c →
      c.kind = 1 →
      c.chunk = p.val →
      (s.tks.ports[p]).rewind = some r →
      r.items = .seg c.slot q f l :: rest →
      rest.all (fun i => match i with | .seg g _ _ _ => g != c.slot | _ => true) = true →
      (s.seg c.slot).seq = q →
      Does (.nvmeReadDone d k true true bad) s (fun t =>
        let new := readItems r (s.seg c.slot) bad
        t.tks.ports[p] = { s.tks.ports[p] with rewind := some { r with items := inLines (new.1 ++ rest) } } ∧ (∀ q : PortId, q ≠ p → t.tks.ports[q] = s.tks.ports[q]) ∧ t.tks.segs = s.tks.segs ∧ t.tks.cues = s.tks.cues ∧
        t.raisings (tksSrc (16 + p.val)) = s.raisings (tksSrc (16 + p.val)) + new.2.length ∧ ({ s with tks := t.tks } : State).EventsOnly t [tksSrc (16 + p.val)] ∧
        t.tks.drives[d] = { s.tks.drives[d] with cmds := (t.tks.drives[d]).cmds } ∧ (t.tks.drives[d]).cmds.take ((s.tks.drives[d]).cmds.length - 1) = (s.tks.drives[d]).cmds.eraseIdx k)) ∧
  (∀ (d : DriveId) (k : Nat) (ok hdrOk : Bool) (bad : List Nat) (s : State) (c : DrvCmd),
      mwf (fun _ => freeSeg) s.tks.segs = true →
      (s.tks.drives[d]).cmds[k]? = some c →
      c.kind = 1 →
      (ok = false ∨ hdrOk = false) →
      (ok = true ∨ c.tries ≠ 0) →
      (s.seg c.slot).seq = c.seq →
      (s.tks.ports[argPort c.chunk]).rewind = none →
      (s.tks.cues.map (fun q => q.1)).Nodup →
      s.MemOk →
      Does (.nvmeReadDone d k ok hdrOk bad) s (fun t => t.tks = { s.tks with segs := t.tks.segs, cues := t.tks.cues, drives := t.tks.drives, copies := t.tks.copies } ∧ t.seg c.slot = { s.seg c.slot with st := 3, pinned := false } ∧ t.tks.segs.filter (fun e => e.1 ≠ c.slot) = s.tks.segs.filter (fun e => e.1 ≠ c.slot) ∧
        t.tks.cues = s.tks.cues.map (fun q => (q.1, if q.2.st = 2 ∧ q.2.anchor = some c.slot then { q.2 with st := 3, cause := 2 } else q.2)) ∧ t.tks.drives[d] = { s.tks.drives[d] with cmds := (s.tks.drives[d]).cmds.eraseIdx k } ∧ (∀ e : DriveId, e ≠ d → t.tks.drives[e] = s.tks.drives[e]) ∧
        t.raisings (tksSrc 67) = s.raisings (tksSrc 67) + (s.anchored c.slot).length ∧ t.tks.ports = s.tks.ports ∧ ({ s with tks := t.tks } : State).EventsOnly t [tksSrc 67])) ∧
  (∀ (p : PortId) (s : State),
      (s.tks.ports[p]).rewind = none →
      Does (.readbackDelivery p) s (fun t => t = s)) ∧
  (∀ (p : PortId) (s : State) (r : Rewind),
      (s.tks.ports[p]).rewind = some r →
      r.ending = none →
      (r.begun = false ∨ (match r.items with | .span _ _ :: _ => true | _ => false) = true) →
      s.stream3Waits p markerSize = true →
      Does (.readbackDelivery p) s (fun t => t = s)) ∧
  (∀ (p : PortId) (s : State) (r : Rewind),
      (s.tks.ports[p]).rewind = some r →
      r.ending = none →
      r.begun = true →
      r.items = [] →
      s.stream3Waits p markerSize = true →
      Does (.readbackDelivery p) s (fun t => t.tks.ports[p] = { s.tks.ports[p] with rewind := some { r with ending := some 0 } } ∧ (∀ q : PortId, q ≠ p → t.tks.ports[q] = s.tks.ports[q]) ∧ t.tks = { s.tks with ports := t.tks.ports } ∧ t = { s with tks := t.tks })) ∧
  (∀ (p : PortId) (s : State) (r : Rewind) (q : Rec) (lost : Nat) (rest : List RItem),
      (s.tks.ports[p]).rewind = some r →
      r.ending = none →
      r.begun = true →
      r.items = .recd q lost :: rest →
      s.stream3Waits p q.size = true →
      Does (.readbackDelivery p) s (fun t => t = s)) ∧
  (∀ (p : PortId) (s : State) (r : Rewind) (k : Nat),
      s.MemOk →
      (s.tks.ports[p]).rewind = some r →
      r.ending = some k →
      s.stream3Waits p markerSize = false →
      Does (.readbackDelivery p) s (fun t => t.tks.ports[p] = { s.tks.ports[p] with rewind := none } ∧ (∀ q : PortId, q ≠ p → t.tks.ports[q] = s.tks.ports[q]) ∧ t.raisings (tksSrc (32 + p.val)) = s.raisings (tksSrc (32 + p.val)) + 1 ∧ (let x := s.chan (chanOf p 3)
         let in3 := s.link.d3hot = false ∧ x.room (((s.marker p r 1 r.first r.last r.delivered r.dropped).size)) = true
         t.pair (chanOf p 3).val Off.DMA_DC_RECS_LO = (if in3 then (s.pair (chanOf p 3).val Off.DMA_DC_RECS_LO + 1) % 2 ^ 64 else s.pair (chanOf p 3).val Off.DMA_DC_RECS_LO) ∧
         t.rf (chanOf p 3).val Off.DMA_DC_DROP 15 0 = (if in3 then s.rf (chanOf p 3).val Off.DMA_DC_DROP 15 0 else min (s.rf (chanOf p 3).val Off.DMA_DC_DROP 15 0 + 1) 65535)) ∧
        (∀ d : ChanId, d ≠ chanOf p 3 → t.chan d = s.chan d) ∧ t.units = s.units ∧ t.engs = s.engs ∧ t.ports = s.ports ∧ t.axes = s.axes ∧ t.ctxs = s.ctxs ∧ t.now = s.now)) ∧
  (∀ (p : PortId) (s : State) (r : Rewind),
      s.MemOk →
      (s.tks.ports[p]).rewind = some r →
      r.ending = none →
      s.stream3Waits p markerSize = false →
      r.begun = false →
      Does (.readbackDelivery p) s (fun t => t.tks.ports[p] = { s.tks.ports[p] with rewind := some { r with begun := true } } ∧ (∀ q : PortId, q ≠ p → t.tks.ports[q] = s.tks.ports[q]) ∧ t.tks = { s.tks with ports := t.tks.ports } ∧ (let x := s.chan (chanOf p 3)
         let in3 := s.link.d3hot = false ∧ x.room (((s.marker p r 0 r.first r.last r.total 0).size)) = true
         t.pair (chanOf p 3).val Off.DMA_DC_RECS_LO = (if in3 then (s.pair (chanOf p 3).val Off.DMA_DC_RECS_LO + 1) % 2 ^ 64 else s.pair (chanOf p 3).val Off.DMA_DC_RECS_LO) ∧
         t.rf (chanOf p 3).val Off.DMA_DC_DROP 15 0 = (if in3 then s.rf (chanOf p 3).val Off.DMA_DC_DROP 15 0 else min (s.rf (chanOf p 3).val Off.DMA_DC_DROP 15 0 + 1) 65535)) ∧
        (∀ d : ChanId, d ≠ chanOf p 3 → t.chan d = s.chan d) ∧ t.units = s.units ∧ t.engs = s.engs ∧ t.ports = s.ports ∧ t.axes = s.axes ∧ t.ctxs = s.ctxs ∧ t.now = s.now)) ∧
  (∀ (p : PortId) (s : State) (r : Rewind),
      s.MemOk →
      (s.tks.ports[p]).rewind = some r →
      r.ending = none →
      s.stream3Waits p markerSize = false →
      r.begun = true →
      r.items = [] →
      Does (.readbackDelivery p) s (fun t => t.tks.ports[p] = { s.tks.ports[p] with rewind := none } ∧ (∀ q : PortId, q ≠ p → t.tks.ports[q] = s.tks.ports[q]) ∧ t.raisings (tksSrc (32 + p.val)) = s.raisings (tksSrc (32 + p.val)) + 1 ∧ (let x := s.chan (chanOf p 3)
         let in3 := s.link.d3hot = false ∧ x.room (((s.marker p r 1 r.first r.last r.delivered r.dropped).size)) = true
         t.pair (chanOf p 3).val Off.DMA_DC_RECS_LO = (if in3 then (s.pair (chanOf p 3).val Off.DMA_DC_RECS_LO + 1) % 2 ^ 64 else s.pair (chanOf p 3).val Off.DMA_DC_RECS_LO) ∧
         t.rf (chanOf p 3).val Off.DMA_DC_DROP 15 0 = (if in3 then s.rf (chanOf p 3).val Off.DMA_DC_DROP 15 0 else min (s.rf (chanOf p 3).val Off.DMA_DC_DROP 15 0 + 1) 65535)) ∧
        (∀ d : ChanId, d ≠ chanOf p 3 → t.chan d = s.chan d) ∧ t.units = s.units ∧ t.engs = s.engs ∧ t.ports = s.ports ∧ t.axes = s.axes ∧ t.ctxs = s.ctxs ∧ t.now = s.now)) ∧
  (∀ (p : PortId) (s : State) (r : Rewind) (f l : Nat) (rest : List RItem),
      s.MemOk →
      (s.tks.ports[p]).rewind = some r →
      r.ending = none →
      s.stream3Waits p markerSize = false →
      r.begun = true →
      r.items = .span f l :: rest →
      Does (.readbackDelivery p) s (fun t => t.tks.ports[p] = { s.tks.ports[p] with rewind := some { r with items := rest } } ∧ (∀ q : PortId, q ≠ p → t.tks.ports[q] = s.tks.ports[q]) ∧ t.tks = { s.tks with ports := t.tks.ports } ∧ (let x := s.chan (chanOf p 3)
         let in3 := s.link.d3hot = false ∧ x.room (((s.marker p r 2 f l (l - f + 1) 0).size)) = true
         t.pair (chanOf p 3).val Off.DMA_DC_RECS_LO = (if in3 then (s.pair (chanOf p 3).val Off.DMA_DC_RECS_LO + 1) % 2 ^ 64 else s.pair (chanOf p 3).val Off.DMA_DC_RECS_LO) ∧
         t.rf (chanOf p 3).val Off.DMA_DC_DROP 15 0 = (if in3 then s.rf (chanOf p 3).val Off.DMA_DC_DROP 15 0 else min (s.rf (chanOf p 3).val Off.DMA_DC_DROP 15 0 + 1) 65535)) ∧
        (∀ d : ChanId, d ≠ chanOf p 3 → t.chan d = s.chan d) ∧ t.units = s.units ∧ t.engs = s.engs ∧ t.ports = s.ports ∧ t.axes = s.axes ∧ t.ctxs = s.ctxs ∧ t.now = s.now)) ∧
  (∀ (p : PortId) (s : State) (r : Rewind) (q : Rec) (lost : Nat) (rest : List RItem),
      s.MemOk →
      (s.tks.ports[p]).rewind = some r →
      r.ending = none →
      s.stream3Waits p q.size = false →
      r.begun = true →
      r.items = .recd q lost :: rest →
      Does (.readbackDelivery p) s (fun t =>
        let o := !s.link.d3hot && (s.chan (chanOf p 3)).room q.size
        t.tks.ports[p] = { s.tks.ports[p] with rewind := some { r with items := rest, delivered := r.delivered + b2n o, dropped := r.dropped + b2n (!o) } } ∧ (∀ q : PortId, q ≠ p → t.tks.ports[q] = s.tks.ports[q]) ∧ t.tks = { s.tks with ports := t.tks.ports } ∧ (let x := s.chan (chanOf p 3)
         let in3 := s.link.d3hot = false ∧ x.room (q.size) = true
         t.pair (chanOf p 3).val Off.DMA_DC_RECS_LO = (if in3 then (s.pair (chanOf p 3).val Off.DMA_DC_RECS_LO + 1) % 2 ^ 64 else s.pair (chanOf p 3).val Off.DMA_DC_RECS_LO) ∧
         t.rf (chanOf p 3).val Off.DMA_DC_DROP 15 0 = (if in3 then s.rf (chanOf p 3).val Off.DMA_DC_DROP 15 0 else min (s.rf (chanOf p 3).val Off.DMA_DC_DROP 15 0 + 1) 65535)) ∧
        (∀ d : ChanId, d ≠ chanOf p 3 → t.chan d = s.chan d) ∧ t.units = s.units ∧ t.engs = s.engs ∧ t.ports = s.ports ∧ t.axes = s.axes ∧ t.ctxs = s.ctxs ∧ t.now = s.now)) ∧
  (∀ (p : PortId) (s : State) (r : Rewind) (g q f l : Nat) (rest : List RItem),
      s.MemOk →
      (s.tks.ports[p]).rewind = some r →
      r.ending = none →
      s.stream3Waits p markerSize = false →
      r.begun = true →
      r.items = .seg g q f l :: rest →
      ((s.seg g).st ≠ 2 ∨ (s.seg g).seq ≠ q) →
      Does (.readbackDelivery p) s (fun t => t.tks.ports[p] = { s.tks.ports[p] with rewind := some { r with items := .span f l :: rest } } ∧ (∀ q : PortId, q ≠ p → t.tks.ports[q] = s.tks.ports[q]) ∧ t.tks = { s.tks with ports := t.tks.ports } ∧ t = { s with tks := t.tks }))

/-- CUE_CLEAR removes a cue of any state, and the pins that only it held are released; CUE_SET takes a number that no cue has. A number in use stays in use after every command but CUE_CLEAR, STORE_RECOVERY, SUPPLY_FAULT, POWER_ON_RESET and a register write whose bytes come near TKS_CTL, whose FORMAT takes the cues away: so a number is not taken again until its cue is removed. -/
def Obligations.CueClearAndCueNumbers : Prop :=
  (∀ (c : CtxId) (y : Submission) (s : State) (q : Cue),
      (s.Accepts c { op := 0x2A, since := 0x20, kinds := [6], slotted := false, args := [] } y) →
      (s.ctxs[c]).blk 7 true = true →
      s.cue y.unit = some q →
      (s.ctxs[c]).port q.port true = true →
      (q.pinned = true → s.tks.st = 2 ∧ s.tks.running = none) →
      Does (.cueClear c y) s (fun t => s.Answered t c y (okRes 0 0) ∧ t.tks.cues = s.tks.cues.filter (fun e => e.1 ≠ y.unit) ∧ t.tks.ports = s.tks.ports ∧ t.tks.wp = s.tks.wp ∧
        t.tks.segs = s.tks.segs.map (fun e => (e.1, { e.2 with pinned := t.segPinned e.2 || (e.2.pinned && t.tks.cues.any (fun q => q.2.pinned && q.2.st == 3 && q.2.port == e.2.port && (e.2.entries.filterMap SEntry.line).any q.2.spans)) })) ∧
        t.tks.running = (if q.pinned then some { step := 0, again := false } else s.tks.running) ∧ (∀ d : CtxId, d ≠ c → t.ctxs[d] = s.ctxs[d]) ∧ { s with ctxs := t.ctxs, bus := t.bus, jrnl := t.jrnl, tks := t.tks }.EventsOnly t [mgtSrc (5 * c.val), mgtSrc (5 * c.val + 1)])) ∧
  (∀ (c : CtxId) (y : Submission) (s : State) (q : Cue),
      (s.Accepts c { op := 0x2A, since := 0x20, kinds := [6], slotted := false, args := [] } y) →
      (s.ctxs[c]).blk 7 true = true →
      s.cue y.unit = some q →
      (s.ctxs[c]).port q.port true = true →
      (s.tks.cues.filter (fun e => e.1 == y.unit)).length = 1 →
      Does (.cueClear c y) s (fun t => t.cue y.unit = none ∧ (∀ k : Fin 256, k.val ≠ y.unit → t.cue k.val = s.cue k.val) ∧
        (q.pinned = true → t.tks.segs.all (fun e => !e.2.pinned || s.tks.cues.any (fun k => k.1 != y.unit && k.2.pinned && k.2.port == e.2.port && (e.2.entries.filterMap SEntry.line).any k.2.spans)) = true))) ∧
  (∀ (c : CtxId) (y : Submission) (s : State) (p : PortId),
      (s.Accepts c { op := 0x28, since := 0x20, kinds := [0], slotted := false, args := [0, 1, 2, 3] } y) →
      (s.ctxs[c]).blk 7 true = true →
      (s.ctxs[c]).port p.val true = true →
      y.arg 1 = p.val →
      y.arg 0 ≤ 2 →
      (y.arg 0 ≠ 0 → s.srcCode p = y.arg 0 ∧ masterReached (s.master (y.arg 0 - 1)) (sgn 48 (y.arg64 2)) = false) →
      (∀ l ∈ s.cueLine p (y.arg 0) (y.arg64 2), ∀ o ∈ s.oldest p, o ≤ l) →
      s.tks.cues.length < 256 →
      Does (.cueSet c y) s (fun t => ∃ n : Fin 256, s.cue n.val = none ∧ (t.cue n.val).isSome = true ∧ s.Answered t c y (okRes n.val 0) ∧ ∀ k : Fin 256, k ≠ n → t.cue k.val = s.cue k.val)) ∧
  (∀ (i : Instr) (s : State) (k : Nat),
      (match i with
        | .cueClear .. => False
        | .storeRecovery .. => False
        | .format .. => False
        | .supplyFault => False
        | .powerOnReset _ => False
        | .regWrite _ off _ _ => off.toNat + 8 ≤ Off.TKS_CTL ∨ Off.TKS_CTL + 8 ≤ off.toNat
        | .pairLoWrite _ off _ => off.toNat + 8 ≤ Off.TKS_CTL ∨ Off.TKS_CTL + 8 ≤ off.toNat
        | .pairHiWrite _ off _ => off.toNat + 8 ≤ Off.TKS_CTL ∨ Off.TKS_CTL + 8 ≤ off.toNat
        | _ => True) →
      (s.cue k).isSome = true →
      Does i s (fun t => (t.cue k).isSome = true))

/-- A conversion step runs the next pending injection, or the next channel of the scan, or nothing. A plain channel's code is the voltage scaled by the range, rounded down and saturated to 18 bits; its filter sums the last 2^AVG inputs, shifted by SHIFT, calibrated where CALEN says so; the HI word carries the flags and a sequence number. A ratiometric channel divides by the reference sum, or reads 0 with EXC_LOW. A bridge channel's sample goes into the sum of its half unless it is blanked. A capture of the channel takes the result, and its last result gives the zero, or the coefficients. With PD the converters go down after the last step of a scan; no step begins while they are down or start up. (That a step with nothing to do leaves the state is log entry 5.) -/
def Obligations.AuxConversions : Prop :=
  (∀ (t : Nat) (va vb : Int) (s : State),
      s.aux.batch = [] →
      s.aux.scan = [] →
      (s.aux.running = true ∨ s.injPending = []) →
      Does (.auxStep t va vb) s (fun r => r = s.at t)) ∧
  (∀ (t : Nat) (va vb : Int) (s : State) (n : Fin 4) (c : Fin 32) (rest : List Nat),
      s.aux.down = false →
      s.aux.upAt + 200 ≤ max s.now t →
      s.rf 0 Off.AUX_SCAN_CTL 8 8 = 0 →
      s.MemOk →
      s.aux.batch = n.val :: rest →
      s.aux.inj[n] = some c.val →
      8 ≤ c.val →
      (s.aux.chans[c]).ref = false →
      (∀ m : Fin 4, s.injTrig (auxSrc (32 + n.val)) m = false) →
      Does (.auxStep t va vb) s (fun r =>
        let x := s.aux.chans[c]
        let a := sat18 (codeA va x.g)
        let v := sat32 ((a * x.nn).fdiv (2 ^ x.shift))
        let lo := Off.AUX_INJ_RES_LO + 16 * n.val
        ({ s.at t with regs := r.regs, aux := r.aux } : State).EventsOnly r [auxSrc (32 + n.val)] ∧ s.SameRegs r [rkey 0 lo, rkey 0 (lo + 4)] ∧ r.eff 0 lo = twos 32 (if bitN x.cfg 12 then s.calibrated c.val x.g v else v) ∧
        r.eff 0 (lo + 4) = resHi true false (bitN x.cfg 12) (decide (a ≠ codeA va x.g)) (x.clampP || x.clampN) false false false x.g ((s.eff 0 (lo + 4) + 1) % 65536) ∧
        r.raisings (auxSrc (32 + n.val)) = s.raisings (auxSrc (32 + n.val)) + 1 ∧
        r.aux = { s.aux with inj := s.aux.inj.set n none, batch := rest, cal := s.aux.cal.map (fun (k : AuxCal) => { k with wait := k.wait.filter (fun m => m ≠ n.val) }) })) ∧
  (∀ (t : Nat) (va vb : Int) (s : State) (c : Fin 32) (rest : List Nat),
      s.aux.down = false →
      s.aux.upAt + 200 ≤ max s.now t →
      s.rf 0 Off.AUX_SCAN_CTL 8 8 = 0 →
      s.MemOk →
      s.aux.batch = [] →
      s.aux.running = true →
      s.aux.scan = c.val :: rest →
      (rest ≠ [] ∨ s.scanMode = 0) →
      (∀ m : Fin 4, s.injTrig (auxSrc c.val) m = false) →
      8 ≤ c.val →
      (s.aux.chans[c]).ref = false →
      s.aux.cal = none →
      Does (.auxStep t va vb) s (fun r =>
        let x := s.aux.chans[c]
        let a := sat18 (codeA va x.g)
        let kept := ((a, 0) :: x.kept).take x.nn
        let v := sat32 ((((kept.map (fun e => e.1)).sum * x.nn).fdiv kept.length).fdiv (2 ^ x.shift))
        ({ s.at t with regs := r.regs, aux := r.aux } : State).EventsOnly r [auxSrc c.val] ∧ s.SameRegs r [rkey 0 (Off.AUX_RES_LO + 8 * c.val), rkey 0 (Off.AUX_RES_HI + 8 * c.val)] ∧ r.eff 0 (Off.AUX_RES_LO + 8 * c.val) = twos 32 (if bitN x.cfg 12 then s.calibrated c.val x.g v else v) ∧
        r.eff 0 (Off.AUX_RES_HI + 8 * c.val) = resHi false false (bitN x.cfg 12) (x.clip || decide (a ≠ codeA va x.g)) (x.ov || x.clampP || x.clampN) false x.rngChg (decide (0 < x.settle)) x.g ((s.eff 0 (Off.AUX_RES_HI + 8 * c.val) + 1) % 65536) ∧
        r.aux = { s.aux with chans := s.aux.chans.set c { x with kept := kept, settle := x.settle - 1, rngChg := false, ov := false, clip := false }, scan := rest, running := !rest.isEmpty, batch := s.injPending } ∧ r.raisings (auxSrc c.val) = s.raisings (auxSrc c.val) + b2n (bitN x.cfg 16))) ∧
  (∀ (t : Nat) (va vb : Int) (s : State) (c : Fin 32) (rest : List Nat),
      s.aux.down = false →
      s.aux.upAt + 200 ≤ max s.now t →
      s.rf 0 Off.AUX_SCAN_CTL 8 8 = 0 →
      s.MemOk →
      s.aux.batch = [] →
      s.aux.running = true →
      s.aux.scan = c.val :: rest →
      (rest ≠ [] ∨ s.scanMode = 0) →
      (∀ m : Fin 4, s.injTrig (auxSrc c.val) m = false) →
      8 ≤ c.val →
      (s.aux.chans[c]).ref = true →
      s.aux.cal = none →
      Does (.auxStep t va vb) s (fun r =>
        let x := s.aux.chans[c]
        let kept := ((sat18 (codeA va x.g), sat18 (codeB vb)) :: x.kept).take x.nn
        let sa := (kept.map (fun e => e.1)).sum
        let sb := (kept.map (fun e => e.2)).sum
        let low := decide (sb.natAbs < kept.length * s.rf 0 Off.AUX_EXC_MIN 16 0)
        let v : Int := if low then 0 else sat32 ((sa * 5 * 2 ^ (28 - x.g)).fdiv sb)
        ({ s.at t with regs := r.regs, aux := r.aux } : State).EventsOnly r [auxSrc c.val] ∧ s.SameRegs r [rkey 0 (Off.AUX_RES_LO + 8 * c.val), rkey 0 (Off.AUX_RES_HI + 8 * c.val)] ∧ (low ∨ sb ≠ 0 → r.eff 0 (Off.AUX_RES_LO + 8 * c.val) = twos 32 (if bitN x.cfg 12 then s.calibrated c.val x.g v else v)) ∧
        (r.eff 0 (Off.AUX_RES_HI + 8 * c.val)).testBit 21 = low ∧ r.raisings (auxSrc c.val) = s.raisings (auxSrc c.val) + b2n (bitN x.cfg 16) ∧
        r.aux = { s.aux with chans := s.aux.chans.set c { x with kept := kept, settle := x.settle - 1, rngChg := false, ov := false, clip := false }, scan := rest, running := !rest.isEmpty, batch := s.injPending })) ∧
  (∀ (t : Nat) (va vb : Int) (s : State) (n : Fin 8) (rest : List Nat),
      s.aux.down = false →
      s.aux.upAt + 200 ≤ max s.now t →
      s.rf 0 Off.AUX_SCAN_CTL 8 8 = 0 →
      s.aux.batch = [] →
      s.aux.running = true →
      s.aux.scan = n.val :: rest →
      (rest ≠ [] ∨ s.scanMode = 0) →
      Does (.auxStep t va vb) s (fun r =>
        let c : Fin 32 := ⟨n.val, by omega⟩
        let x := s.aux.chans[c]
        let e := s.aux.exc[n]
        let a := sat18 (codeA va x.g)
        let b := sat18 (codeB vb)
        r = { s.at t with aux := { s.aux with
          chans := s.aux.chans.set c { x with clip := x.clip || (decide (a ≠ codeA va x.g) || decide (b ≠ codeB vb)), ov := x.ov || (x.clampP || x.clampN) },
          exc := s.aux.exc.set n (if e.on = false ∨ max s.now t < e.swap + 1000 * s.rf 0 (Off.AUX_EXC_BLANK + 16 * n.val) 15 0 then e
            else if e.neg then { e with negS := (e.negS.1 + a, e.negS.2.1 + b, e.negS.2.2 + 1) } else { e with pos := (e.pos.1 + a, e.pos.2.1 + b, e.pos.2.2 + 1) }),
          scan := rest, running := !rest.isEmpty, batch := s.injPending } })) ∧
  (∀ (t : Nat) (va vb : Int) (s : State) (c : Fin 32) (rest : List Nat) (k : AuxCal),
      s.aux.down = false →
      s.aux.upAt + 200 ≤ max s.now t →
      s.rf 0 Off.AUX_SCAN_CTL 8 8 = 0 →
      s.MemOk →
      s.aux.batch = [] →
      s.aux.running = true →
      s.aux.scan = c.val :: rest →
      (rest ≠ [] ∨ s.scanMode = 0) →
      (∀ m : Fin 4, s.injTrig (auxSrc c.val) m = false) →
      8 ≤ c.val →
      (s.aux.chans[c]).ref = false →
      s.aux.cal = some k →
      k.ch = c.val →
      k.wait = [] →
      (s.aux.chans[c]).settle = 0 →
      (s.aux.chans[c]).rngChg = false →
      (∀ m : Fin 4, s.injTrig (auxSrc 36) m = false) →
      k.taken + 1 ≠ 2 ^ k.log →
      k.taken < 511 →
      Does (.auxStep t va vb) s (fun r =>
        let x := s.aux.chans[c]
        let a := sat18 (codeA va x.g)
        let kept := ((a, 0) :: x.kept).take x.nn
        let v := sat32 ((((kept.map (fun e => e.1)).sum * x.nn).fdiv kept.length).fdiv (2 ^ x.shift))
        r.aux.cal = some { k with taken := k.taken + 1, sum := k.sum + v } ∧ r.rf 0 Off.AUX_CAL_STAT 8 0 = k.taken + 1 ∧ r.aux.zero = s.aux.zero ∧
        s.SameRegs r (rkey 0 Off.AUX_CAL_STAT :: [rkey 0 (Off.AUX_RES_LO + 8 * c.val), rkey 0 (Off.AUX_RES_HI + 8 * c.val)]) ∧ r.aux = { s.aux with chans := s.aux.chans.set c { x with kept := kept, settle := x.settle - 1, rngChg := false, ov := false, clip := false }, scan := rest, running := !rest.isEmpty, batch := s.injPending, cal := r.aux.cal })) ∧
  (∀ (t : Nat) (va vb : Int) (s : State) (c : Fin 32) (rest : List Nat) (k : AuxCal),
      s.aux.down = false →
      s.aux.upAt + 200 ≤ max s.now t →
      s.rf 0 Off.AUX_SCAN_CTL 8 8 = 0 →
      s.MemOk →
      s.aux.batch = [] →
      s.aux.running = true →
      s.aux.scan = c.val :: rest →
      (rest ≠ [] ∨ s.scanMode = 0) →
      (∀ m : Fin 4, s.injTrig (auxSrc c.val) m = false) →
      8 ≤ c.val →
      (s.aux.chans[c]).ref = false →
      s.aux.cal = some k →
      k.ch = c.val →
      k.wait = [] →
      (s.aux.chans[c]).settle = 0 →
      (s.aux.chans[c]).rngChg = false →
      (∀ m : Fin 4, s.injTrig (auxSrc 36) m = false) →
      k.taken + 1 = 2 ^ k.log →
      k.log ≤ 8 →
      k.step = 0 →
      Does (.auxStep t va vb) s (fun r =>
        let x := s.aux.chans[c]
        let a := sat18 (codeA va x.g)
        let kept := ((a, 0) :: x.kept).take x.nn
        let v := sat32 ((((kept.map (fun e => e.1)).sum * x.nn).fdiv kept.length).fdiv (2 ^ x.shift))
        let m := (k.sum + v).fdiv (2 ^ k.log)
        r.aux.cal = none ∧ r.aux.zero = some (c.val, k.g, m) ∧ r.eff 0 Off.AUX_CAL_Z = twos 32 m ∧ r.rf 0 Off.AUX_CAL_STAT 29 29 = 1 ∧ r.rf 0 Off.AUX_CAL_STAT 31 31 = 0 ∧ r.rf 0 Off.AUX_CAL_STAT 18 16 = 0 ∧
        r.raisings (auxSrc 36) = s.raisings (auxSrc 36) + 1 ∧ s.SameRegs r (rkey 0 Off.AUX_CAL_STAT :: rkey 0 Off.AUX_CAL_Z :: [rkey 0 (Off.AUX_RES_LO + 8 * c.val), rkey 0 (Off.AUX_RES_HI + 8 * c.val)]) ∧ r.aux = { s.aux with chans := s.aux.chans.set c { x with kept := kept, settle := x.settle - 1, rngChg := false, ov := false, clip := false }, scan := rest, running := !rest.isEmpty, batch := s.injPending, cal := none, zero := r.aux.zero })) ∧
  (∀ (t : Nat) (va vb : Int) (s : State) (c : Fin 32) (rest : List Nat) (k : AuxCal) (z : Nat × Nat × Int),
      s.aux.down = false →
      s.aux.upAt + 200 ≤ max s.now t →
      s.rf 0 Off.AUX_SCAN_CTL 8 8 = 0 →
      s.MemOk →
      s.aux.batch = [] →
      s.aux.running = true →
      s.aux.scan = c.val :: rest →
      (rest ≠ [] ∨ s.scanMode = 0) →
      (∀ m : Fin 4, s.injTrig (auxSrc c.val) m = false) →
      8 ≤ c.val →
      (s.aux.chans[c]).ref = false →
      s.aux.cal = some k →
      k.ch = c.val →
      k.wait = [] →
      (s.aux.chans[c]).settle = 0 →
      (s.aux.chans[c]).rngChg = false →
      (∀ m : Fin 4, s.injTrig (auxSrc 36) m = false) →
      k.taken + 1 = 2 ^ k.log →
      k.log ≤ 8 →
      k.step = 1 →
      k.g < 8 →
      s.aux.zero = some z →
      Does (.auxStep t va vb) s (fun r =>
        let x := s.aux.chans[c]
        let a := sat18 (codeA va x.g)
        let kept := ((a, 0) :: x.kept).take x.nn
        let v := sat32 ((((kept.map (fun e => e.1)).sum * x.nn).fdiv kept.length).fdiv (2 ^ x.shift))
        let m := (k.sum + v).fdiv (2 ^ k.log)
        let span := m - z.2.2
        let gn := (sgn 32 (s.eff 0 Off.AUX_CAL_TGT) * 2 ^ 30 + span.fdiv 2).fdiv span
        r.aux.cal = none ∧ r.aux.zero = s.aux.zero ∧ r.rf 0 Off.AUX_CAL_STAT 31 31 = 0 ∧ r.rf 0 Off.AUX_CAL_STAT 18 16 = (if span ≤ 0 then 2 else if 2 ^ 32 ≤ gn then 3 else 0) ∧
        r.raisings (auxSrc 36) = s.raisings (auxSrc 36) + 1 ∧ (0 < span → 0 ≤ gn → gn < 2 ^ 32 → r.eff 0 (ofsOff c.val k.g) = twos 32 z.2.2 ∧ (r.eff 0 (gainOff c.val k.g) : Int) = gn) ∧
        s.SameRegs r (rkey 0 Off.AUX_CAL_STAT :: rkey 0 (ofsOff c.val k.g) :: rkey 0 (gainOff c.val k.g) :: [rkey 0 (Off.AUX_RES_LO + 8 * c.val), rkey 0 (Off.AUX_RES_HI + 8 * c.val)]) ∧ r.aux = { s.aux with chans := s.aux.chans.set c { x with kept := kept, settle := x.settle - 1, rngChg := false, ov := false, clip := false }, scan := rest, running := !rest.isEmpty, batch := s.injPending, cal := none })) ∧
  (∀ (t : Nat) (va vb : Int) (s : State),
      (s.aux.down = true ∨ max s.now t < s.aux.upAt + 200) →
      Does (.auxStep t va vb) s (fun r => r = s.at t)) ∧
  (∀ (t : Nat) (va vb : Int) (s : State) (n : Fin 8),
      s.aux.down = false →
      s.aux.upAt + 200 ≤ max s.now t →
      s.rf 0 Off.AUX_SCAN_CTL 8 8 = 1 →
      s.aux.batch = [] →
      s.injPending = [] →
      s.aux.running = true →
      s.aux.scan = [n.val] →
      s.scanMode = 0 →
      Does (.auxStep t va vb) s (fun r => r.aux.down = true ∧ r.aux.running = false ∧ r.aux.scan = [] ∧ r = { s.at t with aux := r.aux }))

/-- A scan start takes up the settings of every channel and the mask; a channel whose range, AVG, SHIFT or REF changes restarts its filter; a periodic scan falls due AUX_SCAN_PERIOD after the last that was due (log entry 200), 0 taken as 1; one that falls due while a scan runs waits and is counted late. A swap of a bridge excitation to negative starts the other half; the swap to positive ends a period, gives the filter the difference of the means or counts an empty period, and takes up AMP and HALF. Converters that are powered down start up with a scan or a request. Excitation faults, clamps, injection requests, and the start and the abort of a capture do what their registers and events say, and nothing else changes. (That a scan or a swap that is not due leaves the state is log entry 5.) -/
def Obligations.AuxScansAndExcitation : Prop :=
  (∀ (t : Nat) (s : State),
      (s.scanMode ≠ 2 ∨ s.eff 0 Off.AUX_SCAN_MASK = 0 ∨ max s.now t < s.aux.lastDue + 1000 * max 1 (s.rf 0 Off.AUX_SCAN_PERIOD 23 0)) →
      Does (.scanDue t) s (fun r => r = s.at t)) ∧
  (∀ (t : Nat) (s : State),
      s.MemOk →
      s.scanMode = 2 →
      s.eff 0 Off.AUX_SCAN_MASK ≠ 0 →
      s.aux.lastDue + 1000 * max 1 (s.rf 0 Off.AUX_SCAN_PERIOD 23 0) ≤ max s.now t →
      s.aux.running = true →
      (∀ m : Fin 4, s.injTrig (auxSrc 39) m = false) →
      Does (.scanDue t) s (fun r => ({ s.at t with regs := r.regs, aux := r.aux } : State).EventsOnly r [auxSrc 39] ∧ s.SameRegs r [rkey 0 Off.AUX_SCAN_STAT] ∧ r.aux = { s.aux with due := true, lastDue := max s.now t } ∧ r.raisings (auxSrc 39) = s.raisings (auxSrc 39) + 1 ∧ r.rf 0 Off.AUX_SCAN_STAT 31 16 = min (s.rf 0 Off.AUX_SCAN_STAT 31 16 + 1) 65535)) ∧
  (∀ (t : Nat) (s : State),
      s.scanMode = 2 →
      s.eff 0 Off.AUX_SCAN_MASK ≠ 0 →
      s.aux.lastDue + 1000 * max 1 (s.rf 0 Off.AUX_SCAN_PERIOD 23 0) ≤ max s.now t →
      s.aux.running = false →
      s.aux.cal = none →
      s.aux.zero = none →
      Does (.scanDue t) s (fun r => r = { s.at t with aux := r.aux } ∧ r.aux.lastDue = max s.now t ∧ { r.aux with lastDue := s.aux.lastDue } = { (if s.eff 0 Off.AUX_SCAN_MASK ≠ 0 then s.aux.wake (max s.now t) else s.aux) with chans := r.aux.chans, mask := s.eff 0 Off.AUX_SCAN_MASK, scan := maskList 32 (s.eff 0 Off.AUX_SCAN_MASK), running := decide (s.eff 0 Off.AUX_SCAN_MASK ≠ 0) } ∧
        (∀ c : Fin 32,
          let x := s.aux.chans[c]
          let y : AuxCh := { x with cfg := s.eff 0 (Off.AUX_CH + 4 * c.val) }
          r.aux.chans[c] = if x.g = y.g ∧ x.avg = y.avg ∧ x.shift = y.shift ∧ (c.val < 8 ∨ x.ref = y.ref) then y
            else { y with rngChg := x.rngChg || decide (x.g ≠ y.g), kept := [], settle := y.nn }))) ∧
  (∀ (c : CtxId) (v : Word) (s : State),
      s.MemOk →
      s.Serves c Off.AUX_SCAN_CTL true →
      v.getLsbD 31 = true →
      (fld v.toNat 1 0 = 0 ∨ fld v.toNat 1 0 = 3) →
      s.aux.running = false →
      s.aux.cal = none →
      s.aux.zero = none →
      Does (.auxScanStart c v) s (fun r => r = { s with regs := r.regs, jrnl := r.jrnl, aux := r.aux } ∧ s.SameRegs r [rkey 0 Off.AUX_SCAN_CTL] ∧ r.rf 0 Off.AUX_SCAN_CTL 1 0 = fld v.toNat 1 0 ∧ r.aux = { (if s.eff 0 Off.AUX_SCAN_MASK ≠ 0 ∨ v.getLsbD 8 = false then s.aux.wake s.now else s.aux) with chans := r.aux.chans, mask := s.eff 0 Off.AUX_SCAN_MASK, scan := maskList 32 (s.eff 0 Off.AUX_SCAN_MASK), running := decide (s.eff 0 Off.AUX_SCAN_MASK ≠ 0) } ∧
        (∀ k : Fin 32,
          let x := s.aux.chans[k]
          let y : AuxCh := { x with cfg := s.eff 0 (Off.AUX_CH + 4 * k.val) }
          r.aux.chans[k] = if x.g = y.g ∧ x.avg = y.avg ∧ x.shift = y.shift ∧ (k.val < 8 ∨ x.ref = y.ref) then y
            else { y with rngChg := x.rngChg || decide (x.g ≠ y.g), kept := [], settle := y.nn }))) ∧
  (∀ (c : CtxId) (v : Word) (s : State),
      s.MemOk →
      s.Serves c Off.AUX_SCAN_CTL true →
      s.aux.running = true →
      Does (.auxScanStart c v) s (fun r => r = { s with regs := r.regs, jrnl := r.jrnl, aux := if v.getLsbD 8 then s.aux else s.aux.wake s.now } ∧ s.SameRegs r [rkey 0 Off.AUX_SCAN_CTL] ∧ r.rf 0 Off.AUX_SCAN_CTL 1 0 = fld v.toNat 1 0)) ∧
  (∀ (n : Fin 8) (t : Nat) (s : State),
      ((s.aux.exc[n]).on = false ∨ max s.now t < (s.aux.exc[n]).swap + 1000 * (s.aux.exc[n]).half) →
      Does (.excitationSwap n t) s (fun r => r = s.at t)) ∧
  (∀ (n : Fin 8) (t : Nat) (s : State),
      s.MemOk →
      (s.aux.exc[n]).on = true →
      (s.aux.exc[n]).swap + 1000 * (s.aux.exc[n]).half ≤ max s.now t →
      (s.aux.exc[n]).neg = false →
      Does (.excitationSwap n t) s (fun r => r = { s.at t with regs := r.regs, aux := { s.aux with exc := s.aux.exc.set n { s.aux.exc[n] with neg := true, swap := max s.now t } } } ∧ s.SameRegs r [rkey 0 (Off.AUX_EXC_STAT + 16 * n.val)] ∧ r.rf 0 (Off.AUX_EXC_STAT + 16 * n.val) 0 0 = 1 ∧ r.rf 0 (Off.AUX_EXC_STAT + 16 * n.val) 2 2 = s.rf 0 (Off.AUX_EXC_STAT + 16 * n.val) 2 2)) ∧
  (∀ (n : Fin 8) (t : Nat) (s : State),
      s.MemOk →
      (s.aux.exc[n]).on = true →
      (s.aux.exc[n]).swap + 1000 * (s.aux.exc[n]).half ≤ max s.now t →
      (s.aux.exc[n]).neg = true →
      s.aux.cal = none →
      (∀ m : Fin 4, s.injTrig (auxSrc n.val) m = false) →
      Does (.excitationSwap n t) s (fun r =>
        let c : Fin 32 := ⟨n.val, by omega⟩
        let x := s.aux.chans[c]
        let e := s.aux.exc[n]
        let amp := s.rf 0 (Off.AUX_EXC_CFG + 16 * n.val) 9 0
        let half := max 25 (min 500000 (s.eff 0 (Off.AUX_EXC_HALF + 16 * n.val)))
        let empty := e.pos.2.2 = 0 ∨ e.negS.2.2 = 0 ∨ half ≤ s.rf 0 (Off.AUX_EXC_BLANK + 16 * n.val) 15 0
        let a := e.pos.1.fdiv e.pos.2.2 - e.negS.1.fdiv e.negS.2.2
        let b := e.pos.2.1.fdiv e.pos.2.2 - e.negS.2.1.fdiv e.negS.2.2
        let kept := ((a, b) :: x.kept).take x.nn
        let sa := (kept.map (fun z => z.1)).sum
        let sb := (kept.map (fun z => z.2)).sum
        let low := decide (sb.natAbs < kept.length * s.rf 0 Off.AUX_EXC_MIN 16 0 * 2)
        let v : Int := if low then 0 else sat32 ((sa * 5 * 2 ^ (28 - x.g)).fdiv sb)
        r.aux.exc = s.aux.exc.set n { e with on := true, amp := amp, half := half, neg := false, swap := max s.now t, pos := (0, 0, 0), negS := (0, 0, 0) } ∧
        r.rf 0 (Off.AUX_EXC_STAT + 16 * n.val) 0 0 = 0 ∧ r.rf 0 (Off.AUX_EXC_STAT + 16 * n.val) 31 16 = (if empty then min (s.rf 0 (Off.AUX_EXC_STAT + 16 * n.val) 31 16 + 1) 65535 else s.rf 0 (Off.AUX_EXC_STAT + 16 * n.val) 31 16) ∧
        (empty → s.SameRaised r [] ∧ s.SameRegs r [rkey 0 (Off.AUX_EXC_STAT + 16 * n.val)]) ∧
        (¬ empty → low ∨ sb ≠ 0 → r.eff 0 (Off.AUX_RES_LO + 8 * n.val) = twos 32 (if bitN x.cfg 12 then s.calibrated n.val x.g v else v)) ∧
        r.raisings (auxSrc n.val) = s.raisings (auxSrc n.val) + (if empty then 0 else b2n (bitN x.cfg 16)) ∧
        (e.amp ≠ amp ∨ e.half ≠ half → (r.aux.chans[c]).kept = [] ∧ (r.aux.chans[c]).settle = x.nn) ∧ (e.amp = amp ∧ e.half = half ∧ ¬ empty → (r.aux.chans[c]).kept = kept) ∧
        (∀ d : Fin 32, d ≠ c → r.aux.chans[d] = s.aux.chans[d]) ∧ { s with now := max s.now t, regs := r.regs, free := r.free, aux := r.aux }.EventsOnly r [auxSrc n.val] ∧
        s.SameRegs r [rkey 0 (Off.AUX_EXC_STAT + 16 * n.val), rkey 0 (Off.AUX_RES_LO + 8 * n.val), rkey 0 (Off.AUX_RES_HI + 8 * n.val)])) ∧
  (∀ (n : Fin 8) (s : State),
      s.MemOk →
      Does (.excFault n) s (fun r => ({ s with regs := r.regs } : State).EventsOnly r [auxSrc 38] ∧ s.SameRegs r (rkey 0 (Off.AUX_EXC_STAT + 16 * n.val) :: injKeys) ∧ r.rf 0 (Off.AUX_EXC_STAT + 16 * n.val) 2 2 = 1 ∧ r.rf 0 (Off.AUX_EXC_STAT + 16 * n.val) 1 0 = s.rf 0 (Off.AUX_EXC_STAT + 16 * n.val) 1 0 ∧ r.rf 0 (Off.AUX_EXC_STAT + 16 * n.val) 31 16 = s.rf 0 (Off.AUX_EXC_STAT + 16 * n.val) 31 16 ∧ r.raisings (auxSrc 38) = s.raisings (auxSrc 38) + 1)) ∧
  (∀ (n : Fin 8) (s : State),
      s.MemOk →
      Does (.excCurrentBelowLimit n) s (fun r => r = { s with regs := r.regs } ∧ s.SameRegs r [rkey 0 (Off.AUX_EXC_STAT + 16 * n.val)] ∧ r.rf 0 (Off.AUX_EXC_STAT + 16 * n.val) 2 2 = 0 ∧ r.rf 0 (Off.AUX_EXC_STAT + 16 * n.val) 1 0 = s.rf 0 (Off.AUX_EXC_STAT + 16 * n.val) 1 0 ∧ r.rf 0 (Off.AUX_EXC_STAT + 16 * n.val) 31 16 = s.rf 0 (Off.AUX_EXC_STAT + 16 * n.val) 31 16)) ∧
  (∀ (ch : Fin 32) (neg : Bool) (s : State),
      s.MemOk →
      (∀ m : Fin 4, s.injTrig (auxSrc 37) m = false) →
      Does (.auxOvervolt ch neg) s (fun r =>
        let x := s.aux.chans[ch]
        ({ s with regs := r.regs, aux := r.aux } : State).EventsOnly r [auxSrc 37] ∧ s.SameRegs r [rkey 0 Off.AUX_OV, rkey 0 Off.AUX_OV_ACT] ∧ r.raisings (auxSrc 37) = s.raisings (auxSrc 37) + 1 ∧
        r.aux = { s.aux with chans := s.aux.chans.set ch (if neg = true ∧ ch.val < 8 then { x with clampN := true } else { x with clampP := true }) } ∧
        r.rf 0 Off.AUX_OV ch.val ch.val = 1 ∧ r.rf 0 Off.AUX_OV_ACT ch.val ch.val = 1 ∧ (∀ d : Fin 32, d ≠ ch → r.rf 0 Off.AUX_OV d.val d.val = s.rf 0 Off.AUX_OV d.val d.val ∧ r.rf 0 Off.AUX_OV_ACT d.val d.val = s.rf 0 Off.AUX_OV_ACT d.val d.val))) ∧
  (∀ (ch : Fin 32) (neg : Bool) (s : State),
      s.MemOk →
      Does (.auxClampStopsConducting ch neg) s (fun r =>
        let x := s.aux.chans[ch]
        let y : AuxCh := if neg = true ∧ ch.val < 8 then { x with clampN := false } else { x with clampP := false }
        r = { s with regs := r.regs, aux := { s.aux with chans := s.aux.chans.set ch y } } ∧ s.SameRegs r [rkey 0 Off.AUX_OV_ACT] ∧
        r.rf 0 Off.AUX_OV_ACT ch.val ch.val = b2n (y.clampP || y.clampN) ∧ (∀ d : Fin 32, d ≠ ch → r.rf 0 Off.AUX_OV_ACT d.val d.val = s.rf 0 Off.AUX_OV_ACT d.val d.val))) ∧
  (∀ (c : CtxId) (v : Word) (s : State),
      s.MemOk →
      s.Serves c Off.AUX_OV true →
      Does (.auxOvClear c v) s (fun r => r = { s with regs := r.regs, jrnl := r.jrnl } ∧ s.SameRegs r [rkey 0 Off.AUX_OV] ∧
        (∀ k : Fin 32, (r.eff 0 Off.AUX_OV).testBit k.val = (((s.eff 0 Off.AUX_OV).testBit k.val && !v.getLsbD k.val) || (s.eff 0 Off.AUX_OV_ACT).testBit k.val)))) ∧
  (∀ (c : CtxId) (n : Fin 4) (v : Word) (s : State),
      s.MemOk →
      s.Serves c (Off.AUX_INJ_REQ + 16 * n.val) true →
      (v.getLsbD 31 = false ∨ s.aux.inj[n] = none) →
      Does (.auxInjReq c n v) s (fun r => r = { s with jrnl := r.jrnl, aux := if v.getLsbD 31 then { s.aux.wake s.now with inj := s.aux.inj.set n (some (s.rf 0 (Off.AUX_INJ_CFG + 16 * n.val) 4 0)) } else s.aux })) ∧
  (∀ (c : CtxId) (n : Fin 4) (v : Word) (s : State),
      s.MemOk →
      s.Serves c (Off.AUX_INJ_REQ + 16 * n.val) true →
      v.getLsbD 31 = true →
      s.aux.inj[n] ≠ none →
      Does (.auxInjReq c n v) s (fun r => ({ s with regs := r.regs, jrnl := r.jrnl } : State).EventsOnly r [auxSrc 40] ∧ r.aux = s.aux ∧ s.SameRegs r [rkey 0 (Off.AUX_INJ_REQ + 16 * n.val)] ∧ r.raisings (auxSrc 40) = s.raisings (auxSrc 40) + 1 ∧
        r.rf 0 (Off.AUX_INJ_REQ + 16 * n.val) 15 0 = min (s.rf 0 (Off.AUX_INJ_REQ + 16 * n.val) 15 0 + 1) 65535)) ∧
  (∀ (c : CtxId) (v : Word) (s : State),
      s.MemOk →
      s.Serves c Off.AUX_CAL_CTL true →
      v.getLsbD 31 = true →
      s.aux.cal = none →
      (∀ m : Fin 4, s.injTrig (auxSrc 36) m = false) →
      Does (.auxCalGo c v) s (fun r =>
        let ch := fld v.toNat 4 0
        let log := if 1 ≤ fld v.toNat 11 8 ∧ fld v.toNat 11 8 ≤ 8 then fld v.toNat 11 8 else 4
        let g := (s.aux.chans[auxCh ch]).g
        let off := bitN s.aux.mask ch = false
        let nozero := v.getLsbD 5 = true ∧ s.aux.zero.any (fun z => z.1 == ch && z.2.1 == g) = false
        ({ s with regs := r.regs, jrnl := r.jrnl, aux := r.aux } : State).EventsOnly r [auxSrc 36] ∧ s.SameRegs r [rkey 0 Off.AUX_CAL_CTL, rkey 0 Off.AUX_CAL_STAT] ∧ r.rf 0 Off.AUX_CAL_STAT 28 24 = ch ∧ r.rf 0 Off.AUX_CAL_STAT 23 21 = g ∧
        r.rf 0 Off.AUX_CAL_STAT 29 29 = s.rf 0 Off.AUX_CAL_STAT 29 29 ∧
        (if off ∨ nozero then r.aux = s.aux ∧ r.rf 0 Off.AUX_CAL_STAT 31 31 = 0 ∧ r.rf 0 Off.AUX_CAL_STAT 18 16 = (if off then 4 else 6) ∧ r.raisings (auxSrc 36) = s.raisings (auxSrc 36) + 1
         else r.aux = { s.aux with cal := some { wait := s.injPending, step := b2n (v.getLsbD 5), ch := ch, g := g, log := log, taken := 0, sum := 0 } } ∧ r.rf 0 Off.AUX_CAL_STAT 31 31 = 1 ∧ r.rf 0 Off.AUX_CAL_STAT 30 30 = b2n (!s.injPending.isEmpty) ∧
           r.rf 0 Off.AUX_CAL_STAT 18 16 = 1 ∧ r.raisings (auxSrc 36) = s.raisings (auxSrc 36)))) ∧
  (∀ (c : CtxId) (v : Word) (s : State),
      s.MemOk →
      s.Serves c Off.AUX_CAL_CTL true →
      v.getLsbD 31 = true →
      v.getLsbD 30 = false →
      s.aux.cal ≠ none →
      Does (.auxCalGo c v) s (fun r => r = { s with regs := r.regs, jrnl := r.jrnl } ∧ s.SameRegs r [rkey 0 Off.AUX_CAL_CTL])) ∧
  (∀ (c : CtxId) (v : Word) (s : State),
      s.MemOk →
      s.Serves c Off.AUX_CAL_CTL true →
      v.getLsbD 31 = false →
      v.getLsbD 30 = true →
      s.aux.cal = none →
      Does (.auxCalAbort c v) s (fun r => r = { s with regs := r.regs, jrnl := r.jrnl } ∧ s.SameRegs r [rkey 0 Off.AUX_CAL_CTL])) ∧
  (∀ (c : CtxId) (v : Word) (s : State),
      s.MemOk →
      s.Serves c Off.AUX_CAL_CTL true →
      v.getLsbD 31 = false →
      v.getLsbD 30 = true →
      s.aux.cal ≠ none →
      (∀ m : Fin 4, s.injTrig (auxSrc 36) m = false) →
      Does (.auxCalAbort c v) s (fun r => ({ s with regs := r.regs, jrnl := r.jrnl, aux := r.aux } : State).EventsOnly r [auxSrc 36] ∧ r.aux = { s.aux with cal := none } ∧ s.SameRegs r [rkey 0 Off.AUX_CAL_CTL, rkey 0 Off.AUX_CAL_STAT] ∧ r.rf 0 Off.AUX_CAL_STAT 31 31 = 0 ∧ r.rf 0 Off.AUX_CAL_STAT 18 16 = 5 ∧ r.raisings (auxSrc 36) = s.raisings (auxSrc 36) + 1))

/-- EVQ_POP returns and removes the head word while a whole packet is in a queue that the host does not drain, and else reads 0. FLUSH empties the queue and counts the packets; HOST is taken only while EN is 0, and EN is refused over a ring base that is not aligned. Ring base and size are taken only while EN is 0 and restart the ring; the ring head moves to an index in range and another is dropped and journaled; LEVEL reads as written and acts as at most 32; a route takes its queue and its enable. A raising of a source counts, whatever its route; with the route enabled the source becomes pending with the arguments of that raising, device time and a count of 1, or, if it is pending, adds 1 to its count up to 65,535 and changes nothing else; with the route disabled its pending state stays. Items are packed into ARG0 from bit 0 upwards, each saturated to its width and aligned to it, and from the first that does not fit into ARG1. A packet has VALID in every word, WORDS, SOURCE, COUNT and ARG0 in its header, ARG1 in a second word if there is one, and END and the time of the first raising in its last word. The router puts the packet of the pending source with the earliest first raising, and of those the lowest number, into its enabled queue, a word a cycle, if all its words fit; the packet of QUEUE_INTEGRITY that a queue owes comes first, and a packet in flight when a queue is emptied goes nowhere and counts when its END goes. With the last word it sends the message of the queue if NOTICE is set or LEVEL is reached; to a host ring whole packets are written with their phase while they fit: one that does not fit waits in the queue, and the head write that frees its room sends it. A write of the entry of a vector or of the Function Mask sends the pending messages that it unmasks. A queue whose integrity fails loses its packets, counts them, raises QUEUE_INTEGRITY and is a detected fault. (That a delivery with nothing to deliver leaves the state is log entry 5.) -/
def Obligations.EventQueues : Prop :=
  (∀ (c : CtxId) (q : QueueId) (s : State) (w : DWord) (r : List DWord),
      s.Serves c (Off.EVQ_POP_LO + 64 * q.val) false →
      (s.queue q).words = w :: r →
      (s.queue q).packets ≠ 0 →
      s.qHost q = false →
      Does (.evqPop c q) s (fun t => t = { s with queues := t.queues, rdata := w } ∧ (∀ r : QueueId, r ≠ q → t.queue r = s.queue r) ∧ t.queue q = { s.queue q with words := r, counter := r.length })) ∧
  (∀ (c : CtxId) (q : QueueId) (s : State),
      s.Serves c (Off.EVQ_POP_LO + 64 * q.val) false →
      ((s.queue q).words = [] ∨ (s.queue q).packets = 0 ∨ s.qHost q = true) →
      Does (.evqPop c q) s (fun t => t = { s with rdata := 0 })) ∧
  (∀ (c : CtxId) (q : QueueId) (v : Word) (s : State),
      s.MemOk →
      s.Serves c ((qoff Off.EVQ_CTL q)) true →
      Does (.evqFlush c q v) s (fun t =>
        let x := s.queue q
        let fl := v.getLsbD 31
        let host := if s.qEn q then s.qHost q else v.getLsbD 16
        let bad := v.getLsbD 0 && host && decide (s.eff 0 (qoff Off.EVQ_RING_BASE_LO q) % 4096 ≠ 0)
        t = { s with regs := t.regs, queues := t.queues, jrnl := t.jrnl } ∧ (∀ r : QueueId, r ≠ q → t.queue r = s.queue r) ∧
        t.queue q = { x with words := (if fl then [] else x.words), counter := (if fl then 0 else x.counter), discard := (if fl then !x.flight.isEmpty else x.discard), tally := (if fl then (if x.discard then x.tally else true) else x.tally), badBase := (if v.getLsbD 0 then bad else x.badBase) } ∧
        t.qEn q = (v.getLsbD 0 && !bad) ∧ t.qHost q = host ∧ t.qNotice q = v.getLsbD 8 ∧ s.SameRegs t [rkey 0 (qoff Off.EVQ_CTL q), rkey 0 (qoff Off.EVQ_LOST q)] ∧
        t.rf 0 (qoff Off.EVQ_LOST q) 15 0 = (if fl then min (s.rf 0 (qoff Off.EVQ_LOST q) 15 0 + x.packets) 65535 else s.rf 0 (qoff Off.EVQ_LOST q) 15 0) ∧ t.rf 0 (qoff Off.EVQ_LOST q) 31 16 = s.rf 0 (qoff Off.EVQ_LOST q) 31 16)) ∧
  (∀ (c : CtxId) (q : QueueId) (v : Word) (s : State),
      s.MemOk →
      s.Serves c ((qoff Off.EVQ_CTL q)) true →
      Does (.evqCtlWrite c q v) s (fun t =>
        let x := s.queue q
        let fl := v.getLsbD 31
        let host := if s.qEn q then s.qHost q else v.getLsbD 16
        let bad := v.getLsbD 0 && host && decide (s.eff 0 (qoff Off.EVQ_RING_BASE_LO q) % 4096 ≠ 0)
        t = { s with regs := t.regs, queues := t.queues, jrnl := t.jrnl } ∧ (∀ r : QueueId, r ≠ q → t.queue r = s.queue r) ∧
        t.queue q = { x with words := (if fl then [] else x.words), counter := (if fl then 0 else x.counter), discard := (if fl then !x.flight.isEmpty else x.discard), tally := (if fl then (if x.discard then x.tally else true) else x.tally), badBase := (if v.getLsbD 0 then bad else x.badBase) } ∧
        t.qEn q = (v.getLsbD 0 && !bad) ∧ t.qHost q = host ∧ t.qNotice q = v.getLsbD 8 ∧ s.SameRegs t [rkey 0 (qoff Off.EVQ_CTL q), rkey 0 (qoff Off.EVQ_LOST q)] ∧
        t.rf 0 (qoff Off.EVQ_LOST q) 15 0 = (if fl then min (s.rf 0 (qoff Off.EVQ_LOST q) 15 0 + x.packets) 65535 else s.rf 0 (qoff Off.EVQ_LOST q) 15 0) ∧ t.rf 0 (qoff Off.EVQ_LOST q) 31 16 = s.rf 0 (qoff Off.EVQ_LOST q) 31 16)) ∧
  (∀ (c : CtxId) (q : QueueId) (v : DWord) (s : State),
      s.MemOk →
      s.Serves c (Off.EVQ_RING_BASE_LO + 64 * q.val) true →
      s.qEn q = false →
      Does (.evqRingCfgWrite c q false v) s (fun t => t = { s with regs := t.regs, queues := t.queues, jrnl := t.jrnl } ∧ (∀ r : QueueId, r ≠ q → t.queue r = s.queue r) ∧ t.queue q = { s.queue q with ringHead := 0, ringTail := 0, ringPhase := true, ringEnds := [] } ∧ t.pair 0 (qoff Off.EVQ_RING_BASE_LO q) = v.toNat ∧ s.SameRegs t [rkey 0 (qoff Off.EVQ_RING_BASE_LO q), rkey 0 ((qoff Off.EVQ_RING_BASE_LO q) + 4)])) ∧
  (∀ (c : CtxId) (q : QueueId) (v : DWord) (s : State),
      s.MemOk →
      s.Serves c (Off.EVQ_RING_SIZE + 64 * q.val) true →
      s.qEn q = false →
      Does (.evqRingCfgWrite c q true v) s (fun t => t = { s with regs := t.regs, queues := t.queues, jrnl := t.jrnl } ∧ (∀ r : QueueId, r ≠ q → t.queue r = s.queue r) ∧ t.queue q = { s.queue q with ringHead := 0, ringTail := 0, ringPhase := true, ringEnds := [] } ∧ t.eff 0 (qoff Off.EVQ_RING_SIZE q) = fld v.toNat 4 0 ∧ s.SameRegs t [rkey 0 (qoff Off.EVQ_RING_SIZE q)])) ∧
  (∀ (c : CtxId) (q : QueueId) (size : Bool) (v : DWord) (s : State),
      s.Serves c (Off.EVQ_RING_BASE_LO + 64 * q.val) true →
      s.qEn q = true →
      Does (.evqRingCfgWrite c q size v) s (fun t => t = s)) ∧
  (∀ (c : CtxId) (q : QueueId) (v : Word) (s : State) (size : Nat),
      s.Serves c (Off.EVQ_RING_HEAD + 64 * q.val) true →
      size = 2 ^ s.ringLog q →
      fld v.toNat 15 0 < size →
      (fld v.toNat 15 0 + size - (s.queue q).ringHead) % size ≤ ((s.queue q).ringTail + size - (s.queue q).ringHead) % size →
      ((s.queue q).words = [] ∨ s.qHost q = false) →
      Does (.evqRingHeadWrite c q v) s (fun t => t = { s with queues := t.queues } ∧ (∀ r : QueueId, r ≠ q → t.queue r = s.queue r) ∧ t.queue q = { s.queue q with ringHead := fld v.toNat 15 0, ringEnds := (s.queue q).ringEnds.filter (fun e => decide ((fld v.toNat 15 0 + size - (s.queue q).ringHead) % size ≤ (e + size - (s.queue q).ringHead) % size)) })) ∧
  (∀ (c : CtxId) (q : QueueId) (v : Word) (s : State) (size : Nat) (p : List DWord),
      s.MemOk →
      s.Serves c (Off.EVQ_RING_HEAD + 64 * q.val) true →
      size = 2 ^ s.ringLog q →
      fld v.toNat 15 0 < size →
      (s.queue q).ringTail < size →
      (s.queue q).ringHead < size →
      (fld v.toNat 15 0 + size - (s.queue q).ringHead) % size ≤ ((s.queue q).ringTail + size - (s.queue q).ringHead) % size →
      s.qHost q = true →
      s.link.d3hot = false →
      s.link.perst = false →
      (s.queue q).words = p →
      (p.filter isEnd).length = 1 →
      p.getLast?.map isEnd = some true →
      p.length ≤ (fld v.toNat 15 0 + size - 1 - (s.queue q).ringTail) % size →
      Does (.evqRingHeadWrite c q v) s (fun t =>
        let x := s.queue q
        (t.queue q).words = [] ∧ (t.queue q).counter = 0 ∧ (t.queue q).flight = x.flight ∧ (t.queue q).ringHead = fld v.toNat 15 0 ∧ (t.queue q).ringTail = (x.ringTail + p.length) % size ∧ (t.queue q).ringPhase = (if x.ringTail + p.length < size then x.ringPhase else !x.ringPhase) ∧
        (t.queue q).ringEnds.getLast? = some ((x.ringTail + p.length - 1) % size) ∧ (∀ r : QueueId, r ≠ q → t.queue r = s.queue r) ∧ t = { s with queues := t.queues, bus := t.bus, msiPend := t.msiPend } ∧
        (((p.zipIdx.map (fun (w : DWord × Nat) => BusOp.memWrite (s.pair 0 (qoff Off.EVQ_RING_BASE_LO q) + 8 * ((x.ringTail + w.2) % size)) (leBytes 8 (ringWord w.1 (if x.ringTail + w.2 < size then x.ringPhase else !x.ringPhase)).toNat) false)).reverse ++ s.bus) <:+ t.bus))) ∧
  (∀ (c : CtxId) (q : QueueId) (v : Word) (s : State) (size : Nat),
      s.Serves c (Off.EVQ_RING_HEAD + 64 * q.val) true →
      size = 2 ^ s.ringLog q →
      (size ≤ fld v.toNat 15 0 ∨ ((s.queue q).ringTail + size - (s.queue q).ringHead) % size < (fld v.toNat 15 0 + size - (s.queue q).ringHead) % size) →
      Does (.evqRingHeadWrite c q v) s (fun t => t = { s with jrnl := t.jrnl } ∧ (s.jrnl.mem.length < 65536 → s.jrnl.lost = 0 → t.jrnl.mem.getLast?.map (fun e => (e.kind, e.offset, e.new)) = some (1, qoff Off.EVQ_RING_HEAD q, fld v.toNat 15 0)))) ∧
  (∀ (c : CtxId) (q : QueueId) (v : Word) (s : State),
      s.MemOk →
      s.Serves c (qoff Off.EVQ_LEVEL q) true →
      Does (.evqLevelWrite c q v) s (fun t => t = { s with regs := t.regs, jrnl := t.jrnl } ∧ s.SameRegs t [rkey 0 (qoff Off.EVQ_LEVEL q)] ∧ t.eff 0 (qoff Off.EVQ_LEVEL q) = fld v.toNat 5 0 ∧ t.qLevel q = min (fld v.toNat 5 0) 32)) ∧
  (∀ (c : CtxId) (src : Fin 1536) (v : Word) (s : State),
      s.MemOk →
      s.Serves c (Off.EVT_ROUTE + 4 * src.val) true →
      Does (.evtRouteWrite c src v) s (fun t => t = { s with regs := t.regs, jrnl := t.jrnl } ∧ s.SameRegs t [rkey 0 (Off.EVT_ROUTE + 4 * src.val)] ∧ t.routeOn src.val = v.getLsbD 31 ∧ t.routeQueue src.val = fld v.toNat 5 0)) ∧
  (∀ (q : QueueId) (n : Nat) (s : State),
      s.qHost q = false →
      (n = 0 ∨ ((s.queue q).flight = [] ∧ (s.nextSource q = none ∨ s.qEn q = false))) →
      Does (.packetDelivery ⟨q, n⟩) s (fun t => t = s)) ∧
  (∀ (q : QueueId) (n : Nat) (s : State) (src : Nat) (e : Pend),
      s.qHost q = false →
      (s.nextSource q = some (src, e)) →
      (s.queue q).flight = [] →
      64 < (s.queue q).words.length + (packetWords src e).length →
      Does (.packetDelivery ⟨q, n⟩) s (fun t => t = s)) ∧
  (∀ (q : QueueId) (n : Nat) (s : State) (src : Nat) (e : Pend),
      s.MemOk →
      s.qHost q = false →
      s.qEn q = true →
      (s.nextSource q = some (src, e)) →
      (s.queue q).flight = [] →
      (s.queue q).discard = false →
      (s.queue q).owes = false →
      (packetWords src e).length ≤ n →
      (s.queue q).words.length + (packetWords src e).length ≤ 64 →
      s.link.d3hot = false →
      s.link.perst = false →
      src < 1536 →
      e.arg0 < 2 ^ 32 →
      (1 ≤ e.count ∧ e.count < 65536) →
      (∀ a ∈ e.arg1, a < 2 ^ 32) →
      Does (.packetDelivery ⟨q, n⟩) s (fun t =>
        let x := s.queue q
        let ws := (t.queue q).words.drop x.words.length
        let tell := s.qNotice q ∨ (s.qLevel q ≠ 0 ∧ x.packets < s.qLevel q ∧ s.qLevel q ≤ ((x.words ++ packetWords src e).filter isEnd).length)
        let vec := s.rf 0 (qoff Off.EVQ_VEC q) 8 0
        t = { s with queues := t.queues, pend := t.pend, bus := t.bus, msiPend := t.msiPend } ∧ (∀ r : QueueId, r ≠ q → t.queue r = s.queue r) ∧
        t.queue q = { x with words := x.words ++ packetWords src e, counter := x.counter + (packetWords src e).length } ∧
        mget noPend t.pend src = none ∧ (∀ f ∈ s.pend, f.1 ≠ src → mget noPend t.pend f.1 = mget noPend s.pend f.1) ∧
        t.bus = (if tell ∧ s.vecOpen vec = true then s.msixMsg vec :: s.bus else s.bus) ∧ (tell → s.vecOpen vec = false → mget (fun _ => false) t.msiPend vec = true) ∧
        ws.length = (if e.arg1 = none then 2 else 3) ∧
        ws.head?.map (fun w => (fld w.toNat 63 62, fld w.toNat 61 60, fld w.toNat 59 59, fld w.toNat 58 48, fld w.toNat 47 32, fld w.toNat 31 0)) = some (2, ws.length, 0, src, e.count, e.arg0) ∧
        (∀ a ∈ e.arg1, ws[1]?.map (fun w => (fld w.toNat 63 62, fld w.toNat 61 32, fld w.toNat 31 0)) = some (2, 0, a)) ∧
        ws.getLast?.map (fun w => (fld w.toNat 63 62, fld w.toNat 61 0)) = some (3, e.time % 2 ^ 62) ∧
        ((t.queue q).words.filter isEnd).length = x.packets + 1 ∧
        (∀ f ∈ s.pend, ∀ p ∈ f.2, s.routeOn f.1 = true → s.routeQueue f.1 = q.val → e.time < p.time ∨ (e.time = p.time ∧ src ≤ f.1)))) ∧
  (∀ (q : QueueId) (n : Nat) (s : State) (e : Pend),
      s.MemOk →
      s.qHost q = false →
      s.qEn q = true →
      (s.queue q).flight = [] →
      (s.queue q).discard = false →
      (s.queue q).owes = true →
      s.routeOn (1408 + q.val) = true →
      s.routeQueue (1408 + q.val) = q.val →
      mget noPend s.pend (1408 + q.val) = some e →
      n = 1 →
      (s.queue q).words.length + (packetWords (1408 + q.val) e).length ≤ 64 →
      s.link.d3hot = false →
      s.link.perst = false →
      Does (.packetDelivery ⟨q, n⟩) s (fun t => t = { s with queues := t.queues, pend := t.pend } ∧ (∀ r : QueueId, r ≠ q → t.queue r = s.queue r) ∧ mget noPend t.pend (1408 + q.val) = none ∧
        t.queue q = { s.queue q with words := (s.queue q).words ++ (packetWords (1408 + q.val) e).take 1, counter := (s.queue q).counter + 1, flight := (packetWords (1408 + q.val) e).drop 1, owes := false })) ∧
  (∀ (q : QueueId) (n : Nat) (s : State) (a b : List DWord),
      s.qHost q = false →
      (s.queue q).flight = a ++ b →
      a.length = n →
      b ≠ [] →
      (s.queue q).discard = false →
      Does (.packetDelivery ⟨q, n⟩) s (fun t => t = { s with queues := t.queues } ∧ (∀ r : QueueId, r ≠ q → t.queue r = s.queue r) ∧ t.queue q = { s.queue q with words := (s.queue q).words ++ a, flight := b, counter := (s.queue q).counter + n })) ∧
  (∀ (q : QueueId) (n : Nat) (s : State),
      s.MemOk →
      s.qHost q = false →
      (s.queue q).flight ≠ [] →
      ((s.queue q).flight.filter isEnd).length = 1 →
      (s.queue q).flight.length ≤ n →
      (s.queue q).discard = false →
      s.link.d3hot = false →
      s.link.perst = false →
      Does (.packetDelivery ⟨q, n⟩) s (fun t =>
        let x := s.queue q
        let tell := s.qNotice q ∨ (s.qLevel q ≠ 0 ∧ x.packets < s.qLevel q ∧ s.qLevel q ≤ x.packets + 1)
        let vec := s.rf 0 (qoff Off.EVQ_VEC q) 8 0
        t = { s with queues := t.queues, bus := t.bus, msiPend := t.msiPend } ∧ (∀ r : QueueId, r ≠ q → t.queue r = s.queue r) ∧ t.queue q = { x with words := x.words ++ x.flight, flight := [], counter := x.counter + x.flight.length } ∧ (t.queue q).packets = x.packets + 1 ∧
        t.bus = (if tell ∧ s.vecOpen vec = true then s.msixMsg vec :: s.bus else s.bus) ∧ (tell → s.vecOpen vec = false → mget (fun _ => false) t.msiPend vec = true) ∧ (¬ tell → t.msiPend = s.msiPend))) ∧
  (∀ (q : QueueId) (n : Nat) (s : State) (src : Nat) (e : Pend) (size : Nat),
      s.MemOk →
      s.qHost q = true →
      s.qEn q = true →
      (s.nextSource q = some (src, e)) →
      (s.queue q).flight = [] →
      (s.queue q).discard = false →
      (packetWords src e).length ≤ n →
      n ≠ 0 →
      (s.queue q).words = [] →
      size = 2 ^ s.ringLog q →
      (s.queue q).ringFree size < (packetWords src e).length →
      Does (.packetDelivery ⟨q, n⟩) s (fun t => t = { s with queues := t.queues, pend := t.pend } ∧ (∀ r : QueueId, r ≠ q → t.queue r = s.queue r) ∧ mget noPend t.pend src = none ∧
        t.queue q = { s.queue q with words := packetWords src e, counter := (s.queue q).counter + (packetWords src e).length, owes := false })) ∧
  (∀ (q : QueueId) (n : Nat) (s : State),
      s.MemOk →
      s.qHost q = false →
      (s.queue q).flight ≠ [] →
      (s.queue q).discard = true →
      Does (.packetDelivery ⟨q, n⟩) s (fun t => t = { s with queues := t.queues, regs := t.regs } ∧ (∀ r : QueueId, r ≠ q → t.queue r = s.queue r) ∧ s.SameRegs t [rkey 0 (qoff Off.EVQ_LOST q)] ∧
        let done := decide ((s.queue q).flight.length ≤ n)
        t.queue q = { s.queue q with flight := (s.queue q).flight.drop n, discard := !done } ∧
        t.rf 0 (qoff Off.EVQ_LOST q) 15 0 = min (s.rf 0 (qoff Off.EVQ_LOST q) 15 0 + b2n (done && (s.queue q).tally)) 65535 ∧ t.rf 0 (qoff Off.EVQ_LOST q) 31 16 = s.rf 0 (qoff Off.EVQ_LOST q) 31 16)) ∧
  (∀ (q : QueueId) (n : Nat) (s : State) (src : Nat) (e : Pend) (size : Nat),
      s.MemOk →
      s.qHost q = true →
      s.qEn q = true →
      (s.nextSource q = some (src, e)) →
      (s.queue q).flight = [] →
      (s.queue q).discard = false →
      (packetWords src e).length ≤ n →
      (s.queue q).words = [] →
      s.link.d3hot = false →
      s.link.perst = false →
      size = 2 ^ s.ringLog q →
      (s.queue q).ringTail < size →
      (s.queue q).ringHead < size →
      (packetWords src e).length ≤ (s.queue q).ringFree size →
      isEnd (BitVec.ofNat 64 (2 ^ 63 + (e.arg1.getD 0))) = false →
      e.count < 65536 →
      e.arg0 < 2 ^ 32 →
      src < 2 ^ 12 →
      Does (.packetDelivery ⟨q, n⟩) s (fun t =>
        let x := s.queue q
        let k := (packetWords src e).length
        (t.queue q).words = [] ∧ (t.queue q).flight = [] ∧ (t.queue q).ringTail = (x.ringTail + k) % size ∧ (t.queue q).ringHead = x.ringHead ∧ (t.queue q).ringPhase = (if x.ringTail + k < size then x.ringPhase else !x.ringPhase) ∧
        (t.queue q).ringEnds = x.ringEnds ++ [(x.ringTail + k - 1) % size] ∧ (∀ r : QueueId, r ≠ q → t.queue r = s.queue r) ∧ mget noPend t.pend src = none ∧
        (((packetWords src e).zipIdx.map (fun (w : DWord × Nat) => BusOp.memWrite (s.pair 0 (qoff Off.EVQ_RING_BASE_LO q) + 8 * ((x.ringTail + w.2) % size)) (leBytes 8 (ringWord w.1 (if x.ringTail + w.2 < size then x.ringPhase else !x.ringPhase)).toNat) false)).reverse ++ s.bus) <:+ t.bus)) ∧
  (∀ (v : Fin 512) (addr : DWord) (data : Word) (mask : Bool) (s : State),
      s.MemOk →
      s.link.d3hot = false →
      s.link.perst = false →
      (∀ e ∈ s.msiPend, e.1 = v.val ∨ e.2 = false ∨ s.vecOpen e.1 = false) →
      Does (.msiXVectorUnmask (.entry v addr data mask)) s (fun t => t = { s with link := t.link, msiUnmasked := t.msiUnmasked, msiPend := t.msiPend, bus := t.bus } ∧
        t.link = { s.link with pci := { s.link.pci with msixTbl := t.link.pci.msixTbl } } ∧ mget (fun _ => (0, 0)) t.link.pci.msixTbl v.val = (addr.toNat, data.toNat) ∧ mget (fun _ => false) t.msiUnmasked v.val = !mask ∧
        t.bus = (if mget (fun _ => false) s.msiPend v.val = true ∧ mask = false ∧ s.link.pci.msixEn = true ∧ s.link.pci.msixMask = false then .msix v.val addr.toNat data.toNat :: s.bus else s.bus) ∧
        mget (fun _ => false) t.msiPend v.val = (mget (fun _ => false) s.msiPend v.val && (mask || !s.link.pci.msixEn || s.link.pci.msixMask)) ∧
        (∀ w : Fin 512, w ≠ v → mget (fun _ => (0, 0)) t.link.pci.msixTbl w.val = mget (fun _ => (0, 0)) s.link.pci.msixTbl w.val ∧ mget (fun _ => false) t.msiUnmasked w.val = mget (fun _ => false) s.msiUnmasked w.val ∧ mget (fun _ => false) t.msiPend w.val = mget (fun _ => false) s.msiPend w.val))) ∧
  (∀ (enable mask : Bool) (s : State),
      s.MemOk →
      s.link.d3hot = false →
      s.link.perst = false →
      Does (.msiXVectorUnmask (.function enable mask)) s (fun t => t = { s with link := { s.link with pci := { s.link.pci with msixEn := enable, msixMask := mask } }, msiPend := t.msiPend, bus := t.bus } ∧
        t.bus = ((s.msiPend.filter (fun e => e.2 && enable && !mask && mget (fun _ => false) s.msiUnmasked e.1)).map (fun e => s.msixMsg e.1)).reverse ++ s.bus ∧
        (∀ w : Fin 512, mget (fun _ => false) t.msiPend w.val = (mget (fun _ => false) s.msiPend w.val && !(enable && !mask && mget (fun _ => false) s.msiUnmasked w.val))))) ∧
  (∀ (q : QueueId) (t0 : Nat) (s : State),
      s.MemOk →
      Does (.queueIntegrity q t0) s (fun t =>
        let s := s.at t0
        let x := s.queue q
        let n := x.packets + b2n (!x.flight.isEmpty && !x.discard)
        t.queue q = { x with words := [], counter := 0, discard := !x.flight.isEmpty, tally := x.discard && x.tally, owes := true } ∧ (∀ r : QueueId, r ≠ q → t.queue r = s.queue r) ∧ t.rf 0 (qoff Off.EVQ_LOST q) 31 16 = min (s.rf 0 (qoff Off.EVQ_LOST q) 31 16 + n) 65535 ∧ t.rf 0 (qoff Off.EVQ_LOST q) 15 0 = s.rf 0 (qoff Off.EVQ_LOST q) 15 0 ∧
        s.SameRegs t (rkey 0 (qoff Off.EVQ_LOST q) :: injKeys) ∧ t.raisings (1408 + q.val) = s.raisings (1408 + q.val) + 1 ∧ mget noPend t.pend (1408 + q.val) = (if s.routeOn (1408 + q.val) = true then some (match mget noPend s.pend (1408 + q.val) with
            | some p => { p with count := min (p.count + 1) 65535 }
            | none => { arg0 := (packArgs [(16, n)]).1, arg1 := (packArgs [(16, n)]).2, time := s.now, count := 1 }) else mget noPend s.pend (1408 + q.val)) ∧
        t.faults = s.faults ++ [{ kind := 8, unit := q.val, code := 10, arg := n, arg2 := 0, time := s.now }] ∧
        ({ s with regs := t.regs, queues := t.queues, jrnl := t.jrnl, faults := t.faults } : State).EventsOnly t [1408 + q.val] ∧
        (s.jrnl.mem.length < 65536 → s.jrnl.lost = 0 → t.jrnl.mem.getLast?.map (fun e => (e.kind, e.code, e.target)) = some (8, 10, 0x800 + q.val)))) ∧
  (∀ (s : State) (src : Nat) (items : List (Nat × Nat)) (t : State),
      s.MemOk →
      src < 1536 →
      src ≠ auxSrc 40 →
      t = s.raise src items →
      s.EventsOnly t [src] ∧ t.raisings src = s.raisings src + 1 ∧
        mget noPend t.pend (src) = (if s.routeOn (src) = true then some (match mget noPend s.pend (src) with
            | some p => { p with count := min (p.count + 1) 65535 }
            | none => { arg0 := (packArgs items).1, arg1 := (packArgs items).2, time := s.now, count := 1 }) else mget noPend s.pend (src))) ∧
  (∀ (a b c d e : Nat),
      packArgs [] = (0, none) ∧ packArgs [(8, a)] = (min a 255, none) ∧ packArgs [(32, a)] = (min a 4294967295, none) ∧
        packArgs [(8, a), (8, b)] = (min a 255 + min b 255 * 2 ^ 8, none) ∧ packArgs [(8, a), (16, b)] = (min a 255 + min b 65535 * 2 ^ 16, none) ∧
        packArgs [(16, a), (8, b)] = (min a 65535 + min b 255 * 2 ^ 16, none) ∧ packArgs [(16, a), (16, b)] = (min a 65535 + min b 65535 * 2 ^ 16, none) ∧
        packArgs [(16, a), (16, b), (8, c)] = (min a 65535 + min b 65535 * 2 ^ 16, some (min c 255)) ∧ packArgs [(8, a), (16, b), (8, c)] = (min a 255 + min b 65535 * 2 ^ 16, some (min c 255)) ∧
        packArgs [(16, a), (32, b)] = (min a 65535, some (min b 4294967295)) ∧ packArgs [(32, a), (32, b)] = (min a 4294967295, some (min b 4294967295)) ∧
        packArgs [(8, a), (32, b)] = (min a 255, some (min b 4294967295)) ∧ packArgs [(32, a), (8, b)] = (min a 4294967295, some (min b 255)) ∧
        packArgs [(8, a), (8, b), (8, c), (8, d)] = (min a 255 + min b 255 * 2 ^ 8 + min c 255 * 2 ^ 16 + min d 255 * 2 ^ 24, none) ∧
        packArgs [(8, a), (8, b), (8, c), (8, d), (8, e)] = (min a 255 + min b 255 * 2 ^ 8 + min c 255 * 2 ^ 16 + min d 255 * 2 ^ 24, some (min e 255)) ∧
        packArgs [(8, a), (8, b), (8, c), (16, d)] = (min a 255 + min b 255 * 2 ^ 8 + min c 255 * 2 ^ 16, some (min d 65535))) ∧
  (∀ (n : Fin 8) (s : State),
      s.MemOk →
      Does (.excFault n) s (fun t => mget noPend t.pend (auxSrc 38) = (if s.routeOn (auxSrc 38) = true then some (match mget noPend s.pend (auxSrc 38) with
            | some p => { p with count := min (p.count + 1) 65535 }
            | none => { arg0 := (packArgs [(8, n.val)]).1, arg1 := (packArgs [(8, n.val)]).2, time := s.now, count := 1 }) else mget noPend s.pend (auxSrc 38)) ∧ t.raisings (auxSrc 38) = s.raisings (auxSrc 38) + 1))

/-- JOURNAL_READ writes the entries from a sequence on that pass the origin filter, at most as many as asked for, and returns their number; a drain moves the entries to the NOR ring, which keeps the latest, and reports their number and the sequence of the last; if entries had not been kept, an entry of kind 14 then carries their count. FW_STAGE and a PLDM update stage an image, verified if and only if its header, versions, key and hashes pass R390; from the beginning of the stage the inactive slot of its component does not verify, and when staged the image lies there. FW_ACTIVATE of a slot that verifies now restarts management from it: with success it runs, its flags raise the minimum version and revoke keys, and without it the old image comes back. (That hash and signature are given is the model's, log entry 60; that a stage or an activation that is not in progress leaves the state is log entry 5.) -/
def Obligations.JournalAndFirmware : Prop :=
  (∀ (c : CtxId) (y : Submission) (s : State) (first : Nat),
      (s.Accepts c { op := 0x30, since := 0x20, kinds := [0], slotted := false, args := [0, 1, 2, 3] } y) →
      (s.ctxs[c]).blk 10 false = true →
      (0x22 ≤ (s.ctxs[c]).zhp ∨ y.arg 3 = 0) →
      y.arg 2 ≠ 0 →
      64 * y.arg 2 ≤ y.len.toNat →
      first = y.arg 0 + 2 ^ 32 * y.arg 1 →
      s.jrnl.oldest ≤ first →
      Does (.journalRead c y true) s (fun t =>
        let all := (s.jrnl.ring ++ s.jrnl.mem).filter (fun e => decide (first ≤ e.seq) && (y.arg 3 == 0 || (y.arg 3).testBit e.origin))
        let got := all.take (y.arg 2)
        let seen := if got.length = y.arg 2 then got else (s.jrnl.ring ++ s.jrnl.mem).filter (fun e => decide (first ≤ e.seq))
        let next := (seen.getLast?.map (fun e => e.seq + 1)).getD first
        s.Answered t c y (okRes got.length (next % 2 ^ 32)) ∧ t.bus = s.completion c y (okRes got.length (next % 2 ^ 32)) :: .flushRead :: .memWrite y.addr.toNat (got.flatMap JEntry.bytes) false :: s.subRead c :: s.bus ∧ (∀ d : CtxId, d ≠ c → t.ctxs[d] = s.ctxs[d]) ∧
        ({ s with ctxs := t.ctxs, bus := t.bus, jrnl := t.jrnl } : State).EventsOnly t [mgtSrc (5 * c.val), mgtSrc (5 * c.val + 1)])) ∧
  (∀ (c : CtxId) (y : Submission) (s : State),
      (s.Accepts c { op := 0x30, since := 0x20, kinds := [0], slotted := false, args := [0, 1, 2, 3] } y) →
      (s.ctxs[c]).blk 10 false = true →
      (0x22 ≤ (s.ctxs[c]).zhp ∨ y.arg 3 = 0) →
      y.arg 2 ≠ 0 →
      64 * y.arg 2 ≤ y.len.toNat →
      s.jrnl.oldest ≤ y.arg 0 + 2 ^ 32 * y.arg 1 →
      Does (.journalRead c y false) s (fun t => s.Answered t c y (refuse stMedia 0) ∧ (∀ d : CtxId, d ≠ c → t.ctxs[d] = s.ctxs[d]) ∧ ({ s with ctxs := t.ctxs, bus := t.bus, jrnl := t.jrnl } : State).EventsOnly t [mgtSrc (5 * c.val), mgtSrc (5 * c.val + 1)])) ∧
  (∀ (s : State),
      s.mgt.up = false →
      Does (.journalDrain) s (fun t => t = s)) ∧
  (∀ (s : State),
      s.MemOk →
      s.mgt.up = true →
      s.jrnl.lost = 0 →
      Does (.journalDrain) s (fun t =>
        let all := s.jrnl.ring ++ s.jrnl.mem
        t.jrnl = { s.jrnl with mem := [], ring := all.drop (all.length - s.jrnl.ringCap) } ∧ t.raisings (mgtSrc 55) = s.raisings (mgtSrc 55) + 1 ∧ ({ s with jrnl := t.jrnl } : State).EventsOnly t [mgtSrc 55])) ∧
  (∀ (s : State),
      s.MemOk →
      s.mgt.up = true →
      s.jrnl.lost ≠ 0 →
      Does (.journalDrain) s (fun t =>
        let all := s.jrnl.ring ++ s.jrnl.mem
        t.jrnl = { s.jrnl with mem := [{ jentry 14 2 0 with seq := s.jrnl.next, time := s.now, count := s.jrnl.lost }], next := s.jrnl.next + 1, lost := 0, ring := all.drop (all.length - s.jrnl.ringCap) } ∧
        t.raisings (mgtSrc 55) = s.raisings (mgtSrc 55) + 1 ∧ ({ s with jrnl := t.jrnl } : State).EventsOnly t [mgtSrc 55])) ∧
  (∀ (s : State),
      s.mgt.up = true →
      s.routeOn (mgtSrc 55) = true →
      mget noPend s.pend (mgtSrc 55) = none →
      Does (.journalDrain) s (fun t => mget noPend t.pend (mgtSrc 55) = some { arg0 := min s.jrnl.mem.length 65535, arg1 := some (((s.jrnl.ring ++ s.jrnl.mem).getLast?.map (fun e => e.seq)).getD 0 % 2 ^ 32), time := s.now, count := 1 })) ∧
  (∀ (y : Submission) (data image b : List Byte) (crypto : Bool) (s : State),
      (s.Accepts 0 { op := 0x38, since := 0x20, kinds := [0], slotted := false, args := [0] } y) →
      s.mgt.activating = none →
      s.mgt.staging = none →
      y.arg 0 ≤ 1 →
      (y.arg 0 = 0 ∨ (0x32 ≤ (s.ctxs[(0 : CtxId)]).zhp ∧ extentsOk data = true)) →
      b = (if y.arg 0 % 2 = 1 then image else data) →
      Does (.fwStage 0 y data image crypto) s (fun t =>
        let i : Image := { component := leAt b 6 1, version := leAt b 8 4, svn := leAt b 0x0C 4, flags := leAt b 0x16 1, key := leAt b 7 1, verified := decide (leAt b 0 4 = 0x4D465A4B ∧ leAt b 4 2 = 1 ∧ leAt b 6 1 < 2 ∧ leAt b 7 1 < 4 ∧ s.mgt.revoked.testBit (leAt b 7 1) = false ∧ leAt b 0x10 4 ≤ (if leAt b 6 1 = 0 then 448 else 192) * 1024 ∧
          leAt b 0x14 1 ≤ 0xB1 ∧ 0xB1 ≤ leAt b 0x15 1 ∧ s.mgt.svnMin ≤ leAt b 0x0C 4 ∧ crypto = true) }
        s.Answered t 0 y (okRes 0 0) ∧ t.mgt = { s.mgt with staging := some (i, crypto), stagingPldm := false, fwPending := (s.mgt.fwPending && decide (i.component = 1)), blPending := (s.mgt.blPending && !decide (i.component = 1)), fwA := (if i.component ≠ 1 ∧ s.mgt.fwSlot ≠ 0 then { i with verified := false } else s.mgt.fwA), fwB := (if i.component ≠ 1 ∧ s.mgt.fwSlot = 0 then { i with verified := false } else s.mgt.fwB), blA := (if i.component = 1 ∧ s.mgt.blSlot ≠ 0 then { i with verified := false } else s.mgt.blA), blB := (if i.component = 1 ∧ s.mgt.blSlot = 0 then { i with verified := false } else s.mgt.blB) } ∧ (∀ d : CtxId, d ≠ 0 → t.ctxs[d] = s.ctxs[d]) ∧ ({ s with ctxs := t.ctxs, bus := t.bus, jrnl := t.jrnl, mgt := t.mgt } : State).EventsOnly t [mgtSrc 0, mgtSrc 1])) ∧
  (∀ (bus : Fin 2) (image : List Byte) (crypto : Bool) (s : State),
      (s.mgt.activating ≠ none ∨ s.mgt.up = false) →
      Does (.pldmUpdate ⟨bus, image⟩ crypto) s (fun t => t = s)) ∧
  (∀ (bus : Fin 2) (image : List Byte) (crypto : Bool) (s : State),
      s.mgt.staging ≠ none →
      s.mgt.activating = none →
      s.mgt.up = true →
      Does (.pldmUpdate ⟨bus, image⟩ crypto) s (fun t => t = { s with mgt := { s.mgt with mctpOut := t.mgt.mctpOut }, free := s.free + 1 } ∧ t.mgt.mctpOut.tail = s.mgt.mctpOut ∧ t.mgt.mctpOut.head?.map (fun m => m.1) = some bus.val)) ∧
  (∀ (bus : Fin 2) (image b : List Byte) (crypto : Bool) (s : State),
      s.mgt.staging = none →
      s.mgt.activating = none →
      s.mgt.up = true →
      b = image →
      Does (.pldmUpdate ⟨bus, image⟩ crypto) s (fun t =>
        let i : Image := { component := leAt b 6 1, version := leAt b 8 4, svn := leAt b 0x0C 4, flags := leAt b 0x16 1, key := leAt b 7 1, verified := decide (leAt b 0 4 = 0x4D465A4B ∧ leAt b 4 2 = 1 ∧ leAt b 6 1 < 2 ∧ leAt b 7 1 < 4 ∧ s.mgt.revoked.testBit (leAt b 7 1) = false ∧ leAt b 0x10 4 ≤ (if leAt b 6 1 = 0 then 448 else 192) * 1024 ∧
          leAt b 0x14 1 ≤ 0xB1 ∧ 0xB1 ≤ leAt b 0x15 1 ∧ s.mgt.svnMin ≤ leAt b 0x0C 4 ∧ crypto = true) }
        t.mgt = { s.mgt with staging := some (i, crypto), stagingPldm := true, fwPending := (s.mgt.fwPending && decide (i.component = 1)), blPending := (s.mgt.blPending && !decide (i.component = 1)), fwA := (if i.component ≠ 1 ∧ s.mgt.fwSlot ≠ 0 then { i with verified := false } else s.mgt.fwA), fwB := (if i.component ≠ 1 ∧ s.mgt.fwSlot = 0 then { i with verified := false } else s.mgt.fwB), blA := (if i.component = 1 ∧ s.mgt.blSlot ≠ 0 then { i with verified := false } else s.mgt.blA), blB := (if i.component = 1 ∧ s.mgt.blSlot = 0 then { i with verified := false } else s.mgt.blB) } ∧ t = { s with mgt := t.mgt, jrnl := t.jrnl })) ∧
  (∀ (norOk : Bool) (s : State),
      s.mgt.staging = none →
      Does (.fwStaged norOk) s (fun t => t = s)) ∧
  (∀ (norOk : Bool) (s : State),
      s.flashHeld = true →
      Does (.fwStaged norOk) s (fun t => t = s)) ∧
  (∀ (norOk : Bool) (s : State) (i : Image) (k : Bool),
      s.MemOk →
      s.flashHeld = false →
      (s.mgt.staging = some (i, k)) →
      s.mgt.blSlot < 2 →
      s.mgt.fwSlot < 2 →
      Does (.fwStaged norOk) s (fun t =>
        let j : Image := { i with verified := i.verified && norOk }
        let ok := norOk && i.verified
        t.mgt = { s.mgt with staging := none, fwPending := (s.mgt.fwPending || (ok && i.component == 0)), blPending := (s.mgt.blPending || (ok && i.component == 1)), fwA := (if i.component ≠ 1 ∧ s.mgt.fwSlot = 1 then j else s.mgt.fwA), fwB := (if i.component ≠ 1 ∧ s.mgt.fwSlot = 0 then j else s.mgt.fwB), blA := (if i.component = 1 ∧ s.mgt.blSlot = 1 then j else s.mgt.blA), blB := (if i.component = 1 ∧ s.mgt.blSlot = 0 then j else s.mgt.blB) } ∧
        t.raisings (mgtSrc 52) = s.raisings (mgtSrc 52) + 1 ∧ ({ s with mgt := t.mgt, jrnl := t.jrnl } : State).EventsOnly t [mgtSrc 52])) ∧
  (∀ (y : Submission) (s : State),
      (s.Accepts 0 { op := 0x39, since := 0x20, kinds := [0], slotted := false, args := [0] } y) →
      y.arg 0 ≤ 1 →
      (s.mgt.fw (y.arg 0)).verified = true →
      s.mgt.revoked.testBit (s.mgt.fw (y.arg 0)).key = false →
      s.mgt.svnMin ≤ (s.mgt.fw (y.arg 0)).svn →
      Does (.fwActivate 0 y) s (fun t => s.Answered t 0 y (okRes ((s.mgt.fw (y.arg 0)).version % 2 ^ 32) 0) ∧
        t.mgt = { s.mgt with activating := some (y.arg 0), paused := true, up := false, staging := none } ∧ (∀ d : CtxId, d ≠ 0 → t.ctxs[d] = s.ctxs[d]) ∧ ({ s with ctxs := t.ctxs, bus := t.bus, jrnl := t.jrnl, mgt := t.mgt } : State).EventsOnly t [mgtSrc 0, mgtSrc 1])) ∧
  (∀ (ok : Bool) (s : State),
      s.mgt.activating = none →
      Does (.fwActivated ok) s (fun t => t = s)) ∧
  (∀ (ok : Bool) (s : State) (k : Nat),
      s.MemOk →
      s.mgt.activating = some k →
      Does (.fwActivated ok) s (fun t =>
        let i := s.mgt.fw k
        let m := if ok then { s.mgt with fwSlot := k, fwPending := false, svnMin := (if i.flags % 2 = 1 then max s.mgt.svnMin i.svn else s.mgt.svnMin), revoked := s.mgt.revoked ||| fld i.flags 7 4 } else s.mgt
        t.mgt = { m with up := true, restarting := false, paused := false, activating := none, staging := none, restarts := (s.mgt.restarts + 1) % 65536 } ∧
        t.raisings (mgtSrc 51) = s.raisings (mgtSrc 51) + 1 ∧ t.raisings (mgtSrc 53) = s.raisings (mgtSrc 53) + 1 ∧
        (∀ u : UnitId, t.unit u = { s.unit u with shadow := { st := (s.unit u).st, current := (s.unit u).current, committed := (s.unit u).committed, armed := (s.unit u).cut.isSome } }) ∧
        ({ s with mgt := t.mgt, units := t.units, jrnl := t.jrnl } : State).EventsOnly t [mgtSrc 51, mgtSrc 53]))

/-- A lockstep mismatch stops management and is a detected fault; the restart serves again with the shadows of the units as they are, and a command that was executing at the mismatch completes INTERNAL while the cores restart (that time is the model's, log entry 195). The audit compares every shadow with the state of its unit, data channel or script channel; each difference is journaled and raised: the shadow takes the value of the unit if its test passes, and the unit is a fault of code 9 if not, a script stopping for it. GO submits the request in MGT_MBOX_CTL of the context unless one is being served (an operation that R395 does not list is answered BAD_ARG, log entry 111). A served mailbox request answers with the configuration record, takes a new one of 256 bytes, or checks a debug token against serial number, nonce, key and signature, which draws a new nonce. (The bytes of PLDM and MCTP responses and the nonces are free values, log entries 2, 60 and 61; The endpoint ID and the self-contained activation that a message brings are those of the published standards, log entry 61; BAD_ARG for a short CFG_SET is the model's, log entry 62; the shadow and the test of a unit are operands, log entry 191; faults join as log entry 143 says; a restart drops the mailbox request without a response, log entry 153; that a request that is not served, and an audit with nothing to find, leave the state is log entry 5.) A reading of all sensors shows each value and its maximum; a temperature that reaches its warning or critical limit from below, and a voltage that reaches its critical limit or falls below its low limit, sets its bit of MGT_ALARM, and TEMP_ALARM and VOLT_ALARM are raised once for each. (A first reading crosses a limit from the value 0 that the register shows until then, log entry 208.) -/
def Obligations.ManagementMailboxAndSensors : Prop :=
  (∀ (s : State),
      Does (.lockstepMismatch) s (fun t => t = { s with mgt := { s.mgt with up := false, restarting := true, staging := none, mboxBusy := false }, jrnl := t.jrnl, faults := s.faults ++ [{ kind := 10, unit := 0, code := 12, arg := 0, arg2 := 0, time := s.now }] })) ∧
  (∀ (s : State),
      s.mgt.restarting = false →
      Does (.mgtRestarted) s (fun t => t = s)) ∧
  (∀ (c : CtxId) (y : Submission) (data : List Byte) (s : State),
      y.begun = true →
      (s.mgt.restarting = true ∧ s.mgt.up = false) →
      (s.link.perst = false ∧ s.link.d3hot = false) →
      s.ready c = true →
      Does (.setupLoad c y data) s (fun t => t = (s.send (s.subRead c)).complete c 0x08 y (refuse stInternal 0))) ∧
  (∀ (s : State),
      s.MemOk →
      s.mgt.restarting = true →
      Does (.mgtRestarted) s (fun t =>
        t.mgt = { s.mgt with up := true, restarting := false, paused := false, activating := none, staging := none, restarts := (s.mgt.restarts + 1) % 65536 } ∧ t.raisings (mgtSrc 51) = s.raisings (mgtSrc 51) + 1 ∧
        (∀ u : UnitId, t.unit u = { s.unit u with shadow := { st := (s.unit u).st, current := (s.unit u).current, committed := (s.unit u).committed, armed := (s.unit u).cut.isSome } }) ∧
        ({ s with mgt := t.mgt, units := t.units, jrnl := t.jrnl } : State).EventsOnly t [mgtSrc 51])) ∧
  (∀ (diffs : List (Nat × Nat × Nat × Bool)) (s : State),
      s.mgt.up = false →
      Does (.audit diffs) s (fun t => t = s)) ∧
  (∀ (s : State),
      (∀ e ∈ audited, s.shadowState e.1 e.2 = s.ownState e.1 e.2) →
      Does (.audit []) s (fun t => t = s)) ∧
  (∀ (k n v : Nat) (pass : Bool) (s r : State),
      s.mgt.up = true →
      (∀ e ∈ audited, s.shadowState e.1 e.2 = s.ownState e.1 e.2) →
      r = s.setShadow k n v →
      (∀ e ∈ audited, r.shadowState e.1 e.2 = r.ownState e.1 e.2) →
      Does (.audit [(k, n, v, pass)]) s (fun t => t = r)) ∧
  (∀ (diffs : List (Nat × Nat × Nat × Bool)) (s r : State),
      s.MemOk →
      s.mgt.up = true →
      (∀ d ∈ diffs, d.2.2.2 = true) →
      r = diffs.foldl (fun t d => t.setShadow d.1 d.2.1 d.2.2.1) s →
      Does (.audit diffs) s (fun t =>
        let wrong := (audited.filter (fun e => decide (r.shadowState e.1 e.2 ≠ s.ownState e.1 e.2))).length
        (∀ e ∈ audited, t.shadowState e.1 e.2 = s.ownState e.1 e.2 ∧ t.ownState e.1 e.2 = s.ownState e.1 e.2) ∧ t.raisings (mgtSrc 54) = s.raisings (mgtSrc 54) + wrong ∧
        t.rf 0 Off.MGT_FAULT_CNT 31 16 = max (s.rf 0 Off.MGT_FAULT_CNT 31 16) (min (s.rf 0 Off.MGT_FAULT_CNT 31 16 + wrong) 65535) ∧ t.faults = s.faults ∧
        (∀ u : UnitId, t.unit u = { s.unit u with shadow := (t.unit u).shadow }) ∧ (∀ c : ChanId, t.chan c = { s.chan c with skew := (t.chan c).skew }) ∧ (∀ c : ScriptId, t.script c = { s.script c with skew := (t.script c).skew }) ∧
        ({ s with units := t.units, chans := t.chans, scripts := t.scripts, jrnl := t.jrnl, regs := t.regs } : State).EventsOnly t [mgtSrc 54] ∧ s.SameRegs t (rkey 0 Off.MGT_FAULT_CNT :: injKeys))) ∧
  (∀ (u : UnitId) (v : Nat) (s r : State) (k n : Nat),
      s.MemOk →
      s.mgt.up = true →
      (∀ e ∈ audited, s.shadowState e.1 e.2 = s.ownState e.1 e.2) →
      k = unitTarget u / 256 →
      n = unitTarget u % 256 →
      r = s.setShadow k n v →
      r.shadowState k n ≠ s.ownState k n →
      Does (.audit [(k, n, v, false)]) s (fun t => t.raisings (mgtSrc 54) = s.raisings (mgtSrc 54) + 1 ∧
        (let f : FaultRec := { kind := k, unit := n, code := 9, arg := 0, arg2 := 0, time := s.now }
         t.faults = if s.joins f then joinFault f s.faults else s.faults ++ [f]) ∧
        (t.unit u).st = (if (s.unit u).st = .off then .off else .faulted) ∧ (∀ w : UnitId, w ≠ u → t.unit w = s.unit w) ∧ t.now = s.now)) ∧
  (∀ (c : ChanId) (v : Nat) (s : State),
      s.MemOk →
      s.mgt.up = true →
      (∀ e ∈ audited, s.shadowState e.1 e.2 = s.ownState e.1 e.2) →
      v ≠ (s.chan c).st →
      Does (.audit [(4, c.val, v, false)]) s (fun t => t.raisings (mgtSrc 54) = s.raisings (mgtSrc 54) + 1 ∧
        t.faults = s.faults ++ [{ kind := 4, unit := c.val, code := 9, arg := 0, arg2 := 0, time := s.now }] ∧ t.chan c = { s.chan c with skew := (s.chan c).st ^^^ v } ∧ (∀ d : ChanId, d ≠ c → t.chan d = s.chan d) ∧
        ({ s with chans := t.chans, jrnl := t.jrnl, regs := t.regs, faults := t.faults } : State).EventsOnly t [mgtSrc 54] ∧ s.SameRegs t (rkey 0 Off.MGT_FAULT_CNT :: injKeys))) ∧
  (∀ (c : ScriptId) (v : Nat) (s : State),
      s.MemOk →
      s.mgt.up = true →
      (∀ e ∈ audited, s.shadowState e.1 e.2 = s.ownState e.1 e.2) →
      v ≠ (s.script c).st.code →
      (s.script c).st ≠ .wedged →
      Does (.audit [(5, c.val, v, false)]) s (fun t => t.raisings (mgtSrc 54) = s.raisings (mgtSrc 54) + 1 ∧
        t.faults = joinFault { kind := 5, unit := c.val, code := 9, arg := 0, arg2 := 0, time := s.now } s.faults ∧ (t.script c).st = .faulted ∧ (t.script c).cause = (s.script c).cause ∧ (t.script c).xfer = none ∧ (t.script c).wait = none ∧
        (∀ d : ScriptId, d ≠ c → t.script d = s.script d) ∧ (t.eng (scriptEng c)).run = (if (s.eng (scriptEng c)).run = .trapped then .trapped else .halted) ∧ (∀ e : EngId, e ≠ scriptEng c → t.engs[e] = s.engs[e]) ∧
        ({ s with scripts := t.scripts, engs := t.engs, jrnl := t.jrnl, regs := t.regs, faults := t.faults } : State).EventsOnly t [mgtSrc 54] ∧ s.SameRegs t (rkey 0 Off.MGT_FAULT_CNT :: injKeys))) ∧
  (∀ (c : CtxId) (off : BitVec 23) (v : DWord) (s : State),
      s.MemOk →
      off.toNat = Off.MGT_MBOX_CTL →
      s.Serves c Off.MGT_MBOX_CTL true →
      v.getLsbD 31 = true →
      s.mgt.mboxBusy = false →
      Does (.regWrite c off 4 v) s (fun t =>
        let op := fld v.toNat 15 12
        let bad := s.mgt.up && (op == 0 || decide (4 < op))
        t.mgt = { s.mgt with mboxBusy := !bad, mboxCtx := c.val, mboxOp := op, mboxLen := min (fld v.toNat 8 0) 256 } ∧ t.rf 0 Off.MGT_MBOX_CTL 15 12 = op ∧ (bad → t.rf 0 Off.MGT_MBOX_CTL 23 16 = stBadArg ∧ t.rf 0 Off.MGT_MBOX_CTL 8 0 = 0) ∧
        (bad = false → t.rf 0 Off.MGT_MBOX_CTL 8 0 = fld v.toNat 8 0) ∧ t = { s with mgt := t.mgt, regs := t.regs, jrnl := t.jrnl } ∧ s.SameRegs t [rkey 0 Off.MGT_MBOX_CTL])) ∧
  (∀ (c : CtxId) (off : BitVec 23) (v : DWord) (s : State),
      s.MemOk →
      off.toNat = Off.MGT_MBOX_CTL →
      s.Serves c Off.MGT_MBOX_CTL true →
      v.getLsbD 31 = true →
      s.mgt.mboxBusy = true →
      Does (.regWrite c off 4 v) s (fun t => t.mgt = s.mgt ∧ t = { s with regs := t.regs, jrnl := t.jrnl } ∧ s.SameRegs t [rkey 0 Off.MGT_MBOX_CTL])) ∧
  (∀ (s : State),
      (¬(s.mgt.mboxBusy = true ∧ s.mgt.up = true ∧ s.mgt.mboxOp = 1)) →
      Does (.pldmMessage) s (fun t => t = s)) ∧
  (∀ (s : State),
      (¬(s.mgt.mboxBusy = true ∧ s.mgt.up = true ∧ s.mgt.mboxOp = 2)) →
      Does (.cfgGet) s (fun t => t = s)) ∧
  (∀ (s : State),
      (¬(s.mgt.mboxBusy = true ∧ s.mgt.up = true ∧ s.mgt.mboxOp = 3)) →
      Does (.cfgSet) s (fun t => t = s)) ∧
  (∀ (s : State),
      (s.mgt.mboxBusy = true ∧ s.mgt.up = true ∧ s.mgt.mboxOp = 1) →
      ((¬(asksActivation s.mboxData = true ∧ s.mgt.fwPending = true ∧ s.mgt.verifies (s.mgt.fw (1 - s.mgt.fwSlot)) = true ∧ s.mgt.activating = none))) →
      Does (.pldmMessage) s (fun t => t = { s with mgt := { s.mgt with mboxBusy := false }, regs := t.regs, free := s.free + 1 } ∧ t.rf 0 Off.MGT_MBOX_CTL 23 16 = 0)) ∧
  (∀ (s : State),
      (s.mgt.mboxBusy = true ∧ s.mgt.up = true ∧ s.mgt.mboxOp = 1) →
      asksActivation s.mboxData = true →
      s.mgt.fwPending = true →
      s.mgt.verifies (s.mgt.fw (1 - s.mgt.fwSlot)) = true →
      s.mgt.activating = none →
      Does (.pldmMessage) s (fun t => t = { s with mgt := { s.mgt with mboxBusy := false, activating := some (1 - s.mgt.fwSlot), paused := true, up := false, staging := none }, regs := t.regs, jrnl := t.jrnl, free := s.free + 1 } ∧ t.rf 0 Off.MGT_MBOX_CTL 23 16 = 0)) ∧
  (∀ (s : State),
      s.MemOk →
      (s.mgt.mboxBusy = true ∧ s.mgt.up = true ∧ s.mgt.mboxOp = 2) →
      s.mgt.cfg.length = 256 →
      Does (.cfgGet) s (fun t => t = { s with mgt := { s.mgt with mboxBusy := false }, regs := t.regs } ∧ (∀ i ∈ List.range 64, t.eff 0 (Off.MGT_MBOX_DATA + 4 * i) = leAt s.mgt.cfg (4 * i) 4) ∧ t.mgt.mboxBusy = false ∧ t.rf 0 Off.MGT_MBOX_CTL 23 16 = 0 ∧ t.rf 0 Off.MGT_MBOX_CTL 8 0 = 256 ∧ s.SameRegs t (rkey 0 Off.MGT_MBOX_CTL :: (List.range 64).map (fun (i : Nat) => rkey 0 (Off.MGT_MBOX_DATA + 4 * i))))) ∧
  (∀ (s : State),
      s.MemOk →
      (s.mgt.mboxBusy = true ∧ s.mgt.up = true ∧ s.mgt.mboxOp = 3) →
      s.flashHeld = false →
      s.mgt.mboxLen = 256 →
      Does (.cfgSet) s (fun t => t = { s with mgt := { s.mgt with mboxBusy := false, cfgNext := (((List.range 64).flatMap (fun i => leBytes 4 (s.eff 0 (Off.MGT_MBOX_DATA + 4 * i)))).take s.mgt.mboxLen) }, regs := t.regs } ∧ t.mgt.mboxBusy = false ∧ t.rf 0 Off.MGT_MBOX_CTL 23 16 = 0 ∧ t.rf 0 Off.MGT_MBOX_CTL 8 0 = 0 ∧ s.SameRegs t (rkey 0 Off.MGT_MBOX_CTL :: []))) ∧
  (∀ (s : State),
      (s.mgt.mboxBusy = true ∧ s.mgt.up = true ∧ s.mgt.mboxOp = 3) →
      s.flashHeld = true →
      s.mgt.mboxLen = 256 →
      Does (.cfgSet) s (fun t => t = s)) ∧
  (∀ (s : State),
      s.MemOk →
      (s.mgt.mboxBusy = true ∧ s.mgt.up = true ∧ s.mgt.mboxOp = 3) →
      s.mgt.mboxLen ≠ 256 →
      Does (.cfgSet) s (fun t => t = { s with mgt := { s.mgt with mboxBusy := false }, regs := t.regs } ∧ t.mgt.mboxBusy = false ∧ t.rf 0 Off.MGT_MBOX_CTL 23 16 = stBadArg ∧ t.rf 0 Off.MGT_MBOX_CTL 8 0 = 0 ∧ s.SameRegs t (rkey 0 Off.MGT_MBOX_CTL :: []))) ∧
  (∀ (token tk : List Byte) (crypto : Bool) (s : State),
      s.MemOk →
      s.bankUp 23 = true →
      tk = token →
      Does (.debugToken true token crypto) s (fun t => t.mgt = { s.mgt with dbgTries := (s.mgt.dbgTries + 1) % 65536, dbgEnabled := (s.mgt.dbgEnabled || decide (tk.length = 256 ∧ leAt tk 0 8 = s.mgt.serial ∧ (tk.drop 8).take 16 = s.nonce ∧ leAt tk 0x1C 1 < 4 ∧ s.mgt.revoked.testBit (leAt tk 0x1C 1) = false ∧ crypto = true)) } ∧ t.free = s.free + 4 ∧
        t = { s with mgt := t.mgt, regs := t.regs, jrnl := t.jrnl, free := t.free } ∧ s.SameRegs t ((List.range 4).map (fun (i : Nat) => rkey 0 (Off.MGT_DBG_NONCE + 4 * i))))) ∧
  (∀ (token tk : List Byte) (crypto : Bool) (s : State),
      s.MemOk →
      (s.mgt.mboxBusy = true ∧ s.mgt.up = true ∧ s.mgt.mboxOp = 4) →
      tk = (((List.range 64).flatMap (fun i => leBytes 4 (s.eff 0 (Off.MGT_MBOX_DATA + 4 * i)))).take s.mgt.mboxLen) →
      Does (.debugToken false token crypto) s (fun t => t.mgt = { s.mgt with dbgTries := (s.mgt.dbgTries + 1) % 65536, dbgEnabled := (s.mgt.dbgEnabled || decide (tk.length = 256 ∧ leAt tk 0 8 = s.mgt.serial ∧ (tk.drop 8).take 16 = s.nonce ∧ leAt tk 0x1C 1 < 4 ∧ s.mgt.revoked.testBit (leAt tk 0x1C 1) = false ∧ crypto = true)), mboxBusy := false } ∧ t.free = s.free + 4 ∧
        t = { s with mgt := t.mgt, regs := t.regs, jrnl := t.jrnl, free := t.free } ∧ t.rf 0 Off.MGT_MBOX_CTL 23 16 = (if (tk.length = 256 ∧ leAt tk 0 8 = s.mgt.serial ∧ (tk.drop 8).take 16 = s.nonce ∧ leAt tk 0x1C 1 < 4 ∧ s.mgt.revoked.testBit (leAt tk 0x1C 1) = false ∧ crypto = true) then 0 else stDenied) ∧ s.SameRegs t (rkey 0 Off.MGT_MBOX_CTL :: (List.range 4).map (fun (i : Nat) => rkey 0 (Off.MGT_DBG_NONCE + 4 * i))))) ∧
  (∀ (token : List Byte) (crypto : Bool) (s : State),
      s.bankUp 23 = false →
      Does (.debugToken true token crypto) s (fun t => t = s)) ∧
  (∀ (token : List Byte) (crypto : Bool) (s : State),
      (¬(s.mgt.mboxBusy = true ∧ s.mgt.up = true ∧ s.mgt.mboxOp = 4)) →
      Does (.debugToken false token crypto) s (fun t => t = s)) ∧
  (∀ (bus : Fin 2) (addr : Byte) (msg : List Byte) (s : State),
      (s.mgt.up = false ∨ (bus = 1 ∧ s.link.perst = true) ∨ (bus = 0 ∧ (addr.toNat ≠ s.mgt.smbusAddr ∨ s.bankUp 21 = false))) →
      Does (.mctpMessage ⟨bus, addr⟩ msg) s (fun t => t = s)) ∧
  (∀ (bus : Fin 2) (addr : Byte) (msg : List Byte) (s : State),
      s.mgt.up = true →
      ((bus = 0 ∧ addr.toNat = s.mgt.smbusAddr ∧ s.bankUp 21 = true) ∨ (bus = 1 ∧ s.link.perst = false)) →
      (¬(leAt msg 0 1 % 128 = 0 ∧ leAt msg 2 1 = 1 ∧ leAt msg 3 1 % 4 < 2)) →
      (leAt msg 0 1 % 128 = 1 → (¬(asksActivation (msg.drop 1) = true ∧ s.mgt.fwPending = true ∧ s.mgt.verifies (s.mgt.fw (1 - s.mgt.fwSlot)) = true ∧ s.mgt.activating = none))) →
      Does (.mctpMessage ⟨bus, addr⟩ msg) s (fun t => t = { s with mgt := { s.mgt with mctpOut := t.mgt.mctpOut }, free := s.free + 1 } ∧ t.mgt.mctpOut.tail = s.mgt.mctpOut ∧ t.mgt.mctpOut.head?.map (fun m => m.1) = some bus.val)) ∧
  (∀ (bus : Fin 2) (addr : Byte) (msg : List Byte) (s : State),
      s.mgt.up = true →
      ((bus = 0 ∧ addr.toNat = s.mgt.smbusAddr ∧ s.bankUp 21 = true) ∨ (bus = 1 ∧ s.link.perst = false)) →
      ((leAt msg 0 1 % 128 = 0 ∧ leAt msg 2 1 = 1 ∧ leAt msg 3 1 % 4 < 2)) →
      Does (.mctpMessage ⟨bus, addr⟩ msg) s (fun t => t = { s with mgt := { s.mgt with mctpOut := t.mgt.mctpOut, eids := t.mgt.eids }, free := s.free + 1 } ∧ t.mgt.eids[bus] = leAt msg 4 1 ∧ (∀ b : Fin 2, b ≠ bus → t.mgt.eids[b] = s.mgt.eids[b]) ∧ t.mgt.mctpOut.tail = s.mgt.mctpOut ∧ t.mgt.mctpOut.head?.map (fun m => m.1) = some bus.val)) ∧
  (∀ (bus : Fin 2) (addr : Byte) (msg : List Byte) (s : State),
      s.mgt.up = true →
      ((bus = 0 ∧ addr.toNat = s.mgt.smbusAddr ∧ s.bankUp 21 = true) ∨ (bus = 1 ∧ s.link.perst = false)) →
      leAt msg 0 1 % 128 = 1 →
      asksActivation (msg.drop 1) = true →
      s.mgt.fwPending = true →
      s.mgt.verifies (s.mgt.fw (1 - s.mgt.fwSlot)) = true →
      s.mgt.activating = none →
      Does (.mctpMessage ⟨bus, addr⟩ msg) s (fun t => t = { s with mgt := { s.mgt with mctpOut := t.mgt.mctpOut, activating := some (1 - s.mgt.fwSlot), paused := true, up := false, staging := none }, jrnl := t.jrnl, free := s.free + 1 } ∧ t.mgt.mctpOut.tail = s.mgt.mctpOut ∧ t.mgt.mctpOut.head?.map (fun m => m.1) = some bus.val)) ∧
  (∀ (temps volts : List Nat) (s : State),
      s.MemOk →
      temps.length = 12 →
      volts.length = 20 →
      temps.all (fun v => decide (v < 65536)) = true →
      volts.all (fun v => decide (v < 65536)) = true →
      Does (.sensorRead temps volts) s (fun t =>
        let told (i : Fin 12) : Int := sgn 16 (s.rf 0 (Off.MGT_TEMP + 4 * i.val) 15 0)
        let tnew (i : Fin 12) : Int := sgn 16 (temps.getD i.val 0)
        let tlim (i : Fin 12) (k : Nat) : Int := sgn 16 (s.rf 0 (Off.MGT_TLIM + 4 * i.val) (16 * k + 15) (16 * k))
        let hot (i : Fin 12) (k : Nat) : Bool := decide (told i < tlim i k ∧ tlim i k ≤ tnew i)
        let vold (j : Fin 20) : Nat := s.rf 0 (Off.MGT_VOLT + 4 * j.val) 15 0
        let vnew (j : Fin 20) : Nat := volts.getD j.val 0
        let high (j : Fin 20) : Bool := decide (vold j < s.rf 0 (Off.MGT_VLIM + 4 * j.val) 31 16 ∧ s.rf 0 (Off.MGT_VLIM + 4 * j.val) 31 16 ≤ vnew j)
        let low (j : Fin 20) : Bool := decide (s.rf 0 (Off.MGT_VLIM + 4 * j.val) 15 0 ≤ vold j ∧ vnew j < s.rf 0 (Off.MGT_VLIM + 4 * j.val) 15 0)
        (∀ i : Fin 12, sgn 16 (t.rf 0 (Off.MGT_TEMP + 4 * i.val) 15 0) = tnew i ∧ sgn 16 (t.rf 0 (Off.MGT_TEMP + 4 * i.val) 31 16) = max (sgn 16 (s.rf 0 (Off.MGT_TEMP + 4 * i.val) 31 16)) (tnew i) ∧
          t.rf 0 Off.MGT_ALARM i.val i.val = (if hot i 0 || hot i 1 then 1 else s.rf 0 Off.MGT_ALARM i.val i.val)) ∧
        (∀ j : Fin 20, t.rf 0 (Off.MGT_VOLT + 4 * j.val) 15 0 = vnew j ∧ t.rf 0 (Off.MGT_VOLT + 4 * j.val) 31 16 = max (s.rf 0 (Off.MGT_VOLT + 4 * j.val) 31 16) (vnew j) ∧
          t.rf 0 Off.MGT_ALARM (12 + j.val) (12 + j.val) = (if high j || low j then 1 else s.rf 0 Off.MGT_ALARM (12 + j.val) (12 + j.val))) ∧
        t.raisings (mgtSrc 46) = s.raisings (mgtSrc 46) + ((List.finRange 12).map (fun i => b2n (hot i 0) + b2n (hot i 1))).sum ∧
        t.raisings (mgtSrc 47) = s.raisings (mgtSrc 47) + ((List.finRange 20).map (fun j => b2n (high j) + b2n (low j))).sum ∧
        ({ s with regs := t.regs } : State).EventsOnly t [mgtSrc 46, mgtSrc 47]))

/-- At most four units are classified at a time, the first four in order of detection; a fault of a fifth unit waits. Every classification reports its fault in MGT_FAULT, counts it and raises FAULT_CLASSIFIED. A unit whose part passes its test returns to its state before detection; a slice that fails is retired and the out-of-service one takes its place at the next line tick, or the input is lost when there is none; a lane that fails is replaced by the spare from the next process stage on, and without a spare the port is WEDGED; a program trap halts the unit; a hardware fault of an engine reloads the unit from its committed setup, and WEDGEs it if the checks of the reload fail; so does the third hardware fault of a unit within 1 s. Faults that have joined take the later action, and engines that one of them has stopped are reloaded. A data channel whose state logic has failed hands back its descriptor in use with a barrier and keeps its ring. A script is HALTED by a program trap and WEDGED by a hardware fault. (Here without an armed cut. Which order and results a classification has where the table leaves them open is log entry 143; what it does to channels and scripts is log entry 191; that a fault that is not classified leaves the state is log entry 5.) -/
def Obligations.FaultClassification : Prop :=
  (∀ (i : Nat) (failed other : Bool) (s : State),
      s.faults[i]? = none →
      Does (.faultClassified i failed other) s (fun t => t = s)) ∧
  (∀ (i : Nat) (failed other : Bool) (s : State) (f : FaultRec),
      s.faults[i]? = some f →
      ((classifying s.faults).contains (f.kind, f.unit) = false) →
      Does (.faultClassified i failed other) s (fun t => t = s)) ∧
  (∀ (i : Nat) (failed other : Bool) (s : State) (f : FaultRec),
      s.MemOk →
      (s.faults[i]? = some f ∧ (classifying s.faults).contains (f.kind, f.unit) = true) →
      f.kind ≠ 1 →
      f.kind ≠ 2 →
      f.kind ≠ 4 →
      f.kind ≠ 5 →
      Does (.faultClassified i failed other) s (fun t => t.faults = s.faults.eraseIdx i ∧ t.raisings (mgtSrc 48) = s.raisings (mgtSrc 48) + 1 ∧ t.rf 0 Off.MGT_FAULT_CNT 15 0 = min (s.rf 0 Off.MGT_FAULT_CNT 15 0 + 1) 65535 ∧
        t.eff 0 Off.MGT_FAULT = 2 ^ 31 + b2n failed * 2 ^ 24 + f.code % 256 * 2 ^ 16 + f.kind % 256 * 2 ^ 8 + f.unit % 256 ∧ ({ s with faults := t.faults, regs := t.regs, jrnl := t.jrnl } : State).EventsOnly t [mgtSrc 48] ∧ s.SameRegs t (rkey 0 Off.MGT_FAULT :: rkey 0 Off.MGT_FAULT_CNT :: injKeys))) ∧
  (∀ (i : Nat) (failed other : Bool) (s : State) (f : FaultRec),
      s.faults[i]? = some f →
      ((f.kind, f.unit) ∉ (s.faults.take i).map (fun e => (e.kind, e.unit))) →
      (4 ≤ ((s.faults.take i).map (fun e => (e.kind, e.unit))).dedup.length) →
      Does (.faultClassified i failed other) s (fun t => t = s)) ∧
  (∀ (i : Nat) (failed other : Bool) (s : State) (f : FaultRec),
      s.MemOk →
      s.faults[i]? = some f →
      (((s.faults.take i).map (fun e => (e.kind, e.unit))).dedup.length < 4) →
      (∀ p : PortId, (s.port p).pipe.fails = []) →
      Does (.faultClassified i failed other) s (fun t => t.faults = s.faults.eraseIdx i ∧ t.raisings (mgtSrc 48) = s.raisings (mgtSrc 48) + 1 ∧ t.now = s.now)) ∧
  (∀ (i : Nat) (failed other : Bool) (s : State) (f : FaultRec) (c : ChanId) (d : CurDesc),
      s.MemOk →
      (s.faults[i]? = some f ∧ (classifying s.faults).contains (f.kind, f.unit) = true) →
      f.kind = 4 →
      f.unit = c.val →
      (s.chan c).cur = some d →
      (s.chan c).barrier = false →
      (s.chan c).held = [] →
      s.link.d3hot = false →
      s.link.perst = false →
      Does (.faultClassified i failed other) s (fun t => t.faults = s.faults.eraseIdx i ∧ t.raisings (mgtSrc 48) = s.raisings (mgtSrc 48) + 1 ∧ t.rf 0 Off.MGT_FAULT_CNT 15 0 = min (s.rf 0 Off.MGT_FAULT_CNT 15 0 + 1) 65535 ∧
        t.eff 0 Off.MGT_FAULT = 2 ^ 31 + 1 * 2 ^ 24 + f.code % 256 * 2 ^ 16 + f.kind % 256 * 2 ^ 8 + f.unit % 256 ∧ t.bus = .flushRead :: s.bus ∧ (∀ e : ChanId, e ≠ c → t.chan e = s.chan e) ∧
        t.chan c = { s.chan c with cur := none, skew := 0, barrier := true, dirty := false, held := [{ bar := true, hb := some { idx := d.d.idx, status := d.records, written := d.written, firstLine := d.firstLine % 2 ^ 32, ctl := (d.d.ctl &&& 0x4004) + b2n d.start * 2 + b2n d.cont }, events := [], fin := none }] } ∧
        ({ s with faults := t.faults, regs := t.regs, jrnl := t.jrnl, chans := t.chans, bus := t.bus } : State).EventsOnly t [mgtSrc 48])) ∧
  (∀ (i : Nat) (failed other : Bool) (s : State) (f : FaultRec) (c : ChanId),
      s.MemOk →
      (s.faults[i]? = some f ∧ (classifying s.faults).contains (f.kind, f.unit) = true) →
      f.kind = 4 →
      f.unit = c.val →
      (s.chan c).cur = none →
      Does (.faultClassified i failed other) s (fun t => t.faults = s.faults.eraseIdx i ∧ t.raisings (mgtSrc 48) = s.raisings (mgtSrc 48) + 1 ∧ t.rf 0 Off.MGT_FAULT_CNT 15 0 = min (s.rf 0 Off.MGT_FAULT_CNT 15 0 + 1) 65535 ∧
        t.eff 0 Off.MGT_FAULT = 2 ^ 31 + 1 * 2 ^ 24 + f.code % 256 * 2 ^ 16 + f.kind % 256 * 2 ^ 8 + f.unit % 256 ∧ (∀ e : ChanId, e ≠ c → t.chan e = s.chan e) ∧ t.chan c = { s.chan c with skew := 0 } ∧
        ({ s with faults := t.faults, regs := t.regs, jrnl := t.jrnl, chans := t.chans } : State).EventsOnly t [mgtSrc 48])) ∧
  (∀ (i : Nat) (other : Bool) (s : State) (f : FaultRec) (u : UnitId),
      s.MemOk →
      (s.faults[i]? = some f ∧ (classifying s.faults).contains (f.kind, f.unit) = true) →
      u = uid (if f.kind = 1 then f.unit else 16 + f.unit) →
      (f.kind = 1 ∨ f.kind = 2) →
      (f.code ∉ [4, 7, 8, 9]) →
      (s.unit u).st = .faulted →
      (s.unit u).cut = none →
      (∀ g : GroupId, s.groups[g].armed = none) →
      (s.faults.eraseIdx i).any (fun e => e.kind == f.kind && e.unit == f.unit) = false →
      (s.unit u).back ≠ .draining →
      f.joined = [] →
      Does (.faultClassified i false other) s (fun t => t.faults = s.faults.eraseIdx i ∧ t.raisings (mgtSrc 48) = s.raisings (mgtSrc 48) + 1 ∧ t.rf 0 Off.MGT_FAULT_CNT 15 0 = min (s.rf 0 Off.MGT_FAULT_CNT 15 0 + 1) 65535 ∧
        t.eff 0 Off.MGT_FAULT = 2 ^ 31 + 0 * 2 ^ 24 + f.code % 256 * 2 ^ 16 + f.kind % 256 * 2 ^ 8 + f.unit % 256 ∧ (t.unit u).st = (s.unit u).back ∧ (∀ w : UnitId, w ≠ u → t.unit w = s.unit w) ∧ (t.unit u).hwFaults = (s.unit u).hwFaults ∧ t.engs = s.engs ∧ t.now = s.now)) ∧
  (∀ (i : Nat) (other : Bool) (s : State) (f : FaultRec) (u : UnitId) (p : PortId) (k : Fin 16) (o : Nat),
      s.MemOk →
      (s.faults[i]? = some f ∧ (classifying s.faults).contains (f.kind, f.unit) = true) →
      u = unitOfPort p →
      f.kind = 1 →
      f.unit = p.val →
      (f.code = 1 ∨ f.code = 2) →
      f.arg = k.val →
      f.arg2 < 5 →
      (s.port p).conv[k].retired = 0 →
      (s.port p).conv[k].out = some o →
      ((s.unit u).faultTimes.filter (fun n => decide (s.now < n + 1000000000))).length < 2 →
      (s.unit u).st = .faulted →
      (s.unit u).cut = none →
      (∀ g : GroupId, s.groups[g].armed = none) →
      (s.faults.eraseIdx i).any (fun e => e.kind == f.kind && e.unit == f.unit) = false →
      (s.unit u).back ≠ .draining →
      f.joined = [] →
      Does (.faultClassified i true other) s (fun t => t.faults = s.faults.eraseIdx i ∧ t.raisings (mgtSrc 48) = s.raisings (mgtSrc 48) + 1 ∧ t.rf 0 Off.MGT_FAULT_CNT 15 0 = min (s.rf 0 Off.MGT_FAULT_CNT 15 0 + 1) 65535 ∧
        t.eff 0 Off.MGT_FAULT = 2 ^ 31 + 1 * 2 ^ 24 + f.code % 256 * 2 ^ 16 + f.kind % 256 * 2 ^ 8 + f.unit % 256 ∧ (t.unit u).st = (s.unit u).back ∧ (∀ w : UnitId, w ≠ u → t.unit w = s.unit w) ∧ (t.unit u).hwFaults = min ((s.unit u).hwFaults + 1) 65535 ∧ t.raisings (portSrc p.val 7) = s.raisings (portSrc p.val 7) + 1 ∧
        (t.port p).conv[k] = (let x := { (s.port p).conv[k] with retired := 2 ^ f.arg2, lost := false, bg := SlotSums.empty }; if o = f.arg2 then { x with out := none, ready := false, due := false, calNow := false } else { x with repl := some f.arg2 }) ∧
        (o ≠ f.arg2 → ((t.port p).conv[k]).replace = (let x := (t.port p).conv[k]; { x with slots := x.slots.map (fun j => if j = f.arg2 then o else j), out := none, ready := false, due := false, calNow := false, repl := none, coef := x.coef.set o (x.lastCal.getD o (0, 32768, 0)), bgNext := x.bgNext.filter (fun e => e.1 != f.arg2) })) ∧
        (∀ q : PortId, q ≠ p → t.port q = s.port q))) ∧
  (∀ (i : Nat) (other : Bool) (s : State) (f : FaultRec) (u : UnitId) (p : PortId) (k : Fin 16),
      s.MemOk →
      (s.faults[i]? = some f ∧ (classifying s.faults).contains (f.kind, f.unit) = true) →
      u = unitOfPort p →
      f.kind = 1 →
      f.unit = p.val →
      (f.code = 1 ∨ f.code = 2) →
      f.arg = k.val →
      f.arg2 < 5 →
      (s.port p).conv[k].out = none →
      bitN (s.port p).conv[k].retired f.arg2 = false →
      (s.port p).conv[k].retired ≠ 0 →
      (∀ j : Fin 16, s.inputLost p j = false) →
      ((s.unit u).faultTimes.filter (fun n => decide (s.now < n + 1000000000))).length < 2 →
      (s.unit u).st = .faulted →
      (s.unit u).cut = none →
      (∀ g : GroupId, s.groups[g].armed = none) →
      (s.faults.eraseIdx i).any (fun e => e.kind == f.kind && e.unit == f.unit) = false →
      (s.unit u).back ≠ .draining →
      f.joined = [] →
      Does (.faultClassified i true other) s (fun t => t.faults = s.faults.eraseIdx i ∧ t.raisings (mgtSrc 48) = s.raisings (mgtSrc 48) + 1 ∧ t.rf 0 Off.MGT_FAULT_CNT 15 0 = min (s.rf 0 Off.MGT_FAULT_CNT 15 0 + 1) 65535 ∧
        t.eff 0 Off.MGT_FAULT = 2 ^ 31 + 1 * 2 ^ 24 + 3 % 256 * 2 ^ 16 + f.kind % 256 * 2 ^ 8 + f.unit % 256 ∧ (t.unit u).st = (s.unit u).back ∧ (∀ w : UnitId, w ≠ u → t.unit w = s.unit w) ∧ (t.port p).conv[k] = { (s.port p).conv[k] with retired := (s.port p).conv[k].retired ||| 2 ^ f.arg2, lost := true, bg := SlotSums.empty } ∧
        t.raisings (portSrc p.val 8) = s.raisings (portSrc p.val 8) + 1)) ∧
  (∀ (i : Nat) (other : Bool) (s : State) (f : FaultRec) (u : UnitId) (p : PortId),
      s.MemOk →
      (s.faults[i]? = some f ∧ (classifying s.faults).contains (f.kind, f.unit) = true) →
      u = unitOfPort p →
      f.kind = 1 →
      f.unit = p.val →
      (f.code = 4 ∨ (f.code = 5 ∧ s.noSpare p = false)) →
      f.arg < 8 →
      ((s.unit u).faultTimes.filter (fun n => decide (s.now < n + 1000000000))).length < 2 →
      (f.code = 4 → other = false) →
      (s.unit u).st = .faulted →
      (s.unit u).cut = none →
      (∀ g : GroupId, s.groups[g].armed = none) →
      (s.faults.eraseIdx i).any (fun e => e.kind == f.kind && e.unit == f.unit) = false →
      (s.unit u).back ≠ .draining →
      f.joined = [] →
      Does (.faultClassified i true other) s (fun t => t.faults = s.faults.eraseIdx i ∧ t.raisings (mgtSrc 48) = s.raisings (mgtSrc 48) + 1 ∧ t.rf 0 Off.MGT_FAULT_CNT 15 0 = min (s.rf 0 Off.MGT_FAULT_CNT 15 0 + 1) 65535 ∧
        t.eff 0 Off.MGT_FAULT = 2 ^ 31 + 1 * 2 ^ 24 + f.code % 256 * 2 ^ 16 + f.kind % 256 * 2 ^ 8 + f.unit % 256 ∧ (t.unit u).st = (s.unit u).back ∧ (∀ w : UnitId, w ≠ u → t.unit w = s.unit w) ∧ (t.port p).pipe.laneNext = some (f.arg, s.rf p.val Off.PIP_LANE_STAT 3 0) ∧ (t.applyLane p).rf p.val Off.PIP_LANE_MAP (4 * f.arg + 3) (4 * f.arg) = s.rf p.val Off.PIP_LANE_STAT 3 0 ∧ (t.applyLane p).rf p.val Off.PIP_LANE_STAT 3 0 = 15 ∧
        (t.applyLane p).rf p.val Off.PIP_LANE_STAT 4 4 = 1 ∧ t.rf p.val Off.PIP_LANE_STAT 4 0 = s.rf p.val Off.PIP_LANE_STAT 4 0 ∧ t.raisings (portSrc p.val 11) = s.raisings (portSrc p.val 11) + 1 ∧
        (∀ l : Fin 8, t.rf p.val Off.PIP_LANE_MAP (4 * l.val + 3) (4 * l.val) = s.rf p.val Off.PIP_LANE_MAP (4 * l.val + 3) (4 * l.val)))) ∧
  (∀ (i : Nat) (other : Bool) (s : State) (f : FaultRec) (u : UnitId) (p : PortId),
      s.MemOk →
      (s.faults[i]? = some f ∧ (classifying s.faults).contains (f.kind, f.unit) = true) →
      u = unitOfPort p →
      f.kind = 1 →
      f.unit = p.val →
      (f.code = 4 ∧ other = true ∨ f.code = 5 ∧ s.noSpare p = true) →
      (s.port p).pipe.fails = [] →
      (s.unit u).st = .faulted →
      (s.unit u).cut = none →
      (∀ g : GroupId, s.groups[g].armed = none) →
      Does (.faultClassified i true other) s (fun t => t.faults = s.faults.eraseIdx i ∧ t.raisings (mgtSrc 48) = s.raisings (mgtSrc 48) + 1 ∧ t.rf 0 Off.MGT_FAULT_CNT 15 0 = min (s.rf 0 Off.MGT_FAULT_CNT 15 0 + 1) 65535 ∧
        t.eff 0 Off.MGT_FAULT = 2 ^ 31 + 3 * 2 ^ 24 + f.code % 256 * 2 ^ 16 + f.kind % 256 * 2 ^ 8 + f.unit % 256 ∧ (t.unit u).st = .wedged ∧ (∀ w : UnitId, w ≠ u → t.unit w = s.unit w) ∧ t.raisings (mgtSrc 49) = s.raisings (mgtSrc 49) + 1 ∧ (t.port p).cap = none ∧ (t.port p).prc = none ∧ (t.port p).emi = none ∧
        (t.eng (gateEng p)).run ≠ .running ∧ (t.eng (pipeEng p)).run ≠ .running ∧ (∀ q : PortId, q ≠ p → t.port q = s.port q))) ∧
  (∀ (i : Nat) (other : Bool) (s : State) (f : FaultRec) (u : UnitId) (p : PortId),
      s.MemOk →
      (s.faults[i]? = some f ∧ (classifying s.faults).contains (f.kind, f.unit) = true) →
      u = unitOfPort p →
      f.kind = 1 →
      f.unit = p.val →
      f.code = 7 →
      f.arg2 ≠ 5 →
      (s.port p).pipe.fails = [] →
      (s.unit u).st = .faulted →
      (s.unit u).cut = none →
      (∀ g : GroupId, s.groups[g].armed = none) →
      Does (.faultClassified i false other) s (fun t => t.faults = s.faults.eraseIdx i ∧ t.raisings (mgtSrc 48) = s.raisings (mgtSrc 48) + 1 ∧ t.rf 0 Off.MGT_FAULT_CNT 15 0 = min (s.rf 0 Off.MGT_FAULT_CNT 15 0 + 1) 65535 ∧
        t.eff 0 Off.MGT_FAULT = 2 ^ 31 + 2 * 2 ^ 24 + f.code % 256 * 2 ^ 16 + f.kind % 256 * 2 ^ 8 + f.unit % 256 ∧ (t.unit u).st = .halted ∧ (∀ w : UnitId, w ≠ u → t.unit w = s.unit w) ∧ (t.unit u).hwFaults = (s.unit u).hwFaults ∧ (t.port p).cap = none ∧ (t.port p).prc = none ∧ (t.port p).emi = none ∧
        (t.eng (gateEng p)).run ≠ .running ∧ (t.eng (pipeEng p)).run ≠ .running ∧ (∀ q : PortId, q ≠ p → t.port q = s.port q))) ∧
  (∀ (i : Nat) (other : Bool) (s : State) (f : FaultRec) (u : UnitId) (a : AxisId),
      s.MemOk →
      (s.faults[i]? = some f ∧ (classifying s.faults).contains (f.kind, f.unit) = true) →
      u = unitOfAxis a →
      f.kind = 2 →
      f.unit = a.val →
      f.code = 7 →
      f.arg2 ≠ 5 →
      (s.unit u).st = .faulted →
      (s.unit u).cut = none →
      Does (.faultClassified i false other) s (fun t => t.faults = s.faults.eraseIdx i ∧ t.raisings (mgtSrc 48) = s.raisings (mgtSrc 48) + 1 ∧ t.rf 0 Off.MGT_FAULT_CNT 15 0 = min (s.rf 0 Off.MGT_FAULT_CNT 15 0 + 1) 65535 ∧
        t.eff 0 Off.MGT_FAULT = 2 ^ 31 + 2 * 2 ^ 24 + f.code % 256 * 2 ^ 16 + f.kind % 256 * 2 ^ 8 + f.unit % 256 ∧ (t.unit u).st = .halted ∧ (∀ w : UnitId, w ≠ u → t.unit w = s.unit w) ∧ (t.axis a).held = some true ∧ (t.eng (axisEng a)).run ≠ .running ∧ (∀ b : AxisId, b ≠ a → t.axis b = s.axis b) ∧ t.ports = s.ports)) ∧
  (∀ (i : Nat) (other : Bool) (s : State) (f : FaultRec) (u : UnitId),
      s.MemOk →
      (s.faults[i]? = some f ∧ (classifying s.faults).contains (f.kind, f.unit) = true) →
      u = uid (if f.kind = 1 then f.unit else 16 + f.unit) →
      (f.kind = 1 ∨ f.kind = 2) →
      (f.code = 7 ∨ f.code = 8 ∨ f.code = 9) →
      (∀ p : PortId, (s.port p).pipe.fails = []) →
      ((s.unit u).faultTimes.filter (fun n => decide (s.now < n + 1000000000))).length < 2 →
      (s.unit u).st = .faulted →
      (s.unit u).cut = none →
      (∀ g : GroupId, s.groups[g].armed = none) →
      (s.faults.eraseIdx i).any (fun e => e.kind == f.kind && e.unit == f.unit) = false →
      (s.unit u).back ≠ .draining →
      f.joined = [] →
      Does (.faultClassified i true false) s (fun t => t.faults = s.faults.eraseIdx i ∧ t.raisings (mgtSrc 48) = s.raisings (mgtSrc 48) + 1 ∧ t.rf 0 Off.MGT_FAULT_CNT 15 0 = min (s.rf 0 Off.MGT_FAULT_CNT 15 0 + 1) 65535 ∧
        t.eff 0 Off.MGT_FAULT = 2 ^ 31 + 1 * 2 ^ 24 + f.code % 256 * 2 ^ 16 + f.kind % 256 * 2 ^ 8 + f.unit % 256 ∧ (t.unit u).st = (s.unit u).back ∧ (∀ w : UnitId, w ≠ u → t.unit w = s.unit w) ∧ (t.unit u).hwFaults = min ((s.unit u).hwFaults + 1) 65535 ∧
        ((s.unit u).back = .running → (t.unit u).current = some ((s.unit u).committed.getD 0) ∧ ∀ e ∈ unitEngs u, (t.eng e).run = .waiting ∧ (t.eng e).setup = (s.unit u).committed.getD 0 ∧ (t.eng e).pc = (s.slotProg e ((s.unit u).committed.getD 0)).entry ∧ (t.eng e).scratch = []) ∧
        ((s.unit u).back ≠ .running → t.engs = s.engs) ∧ (∀ e : EngId, e ∉ unitEngs u → t.eng e = s.eng e))) ∧
  (∀ (i : Nat) (other : Bool) (s : State) (f : FaultRec) (u : UnitId),
      s.MemOk →
      (s.faults[i]? = some f ∧ (classifying s.faults).contains (f.kind, f.unit) = true) →
      u = uid (if f.kind = 1 then f.unit else 16 + f.unit) →
      (f.kind = 1 ∨ f.kind = 2) →
      (f.code = 7 ∨ f.code = 8 ∨ f.code = 9) →
      (∀ p : PortId, (s.port p).pipe.fails = []) →
      2 ≤ ((s.unit u).faultTimes.filter (fun n => decide (s.now < n + 1000000000))).length →
      (s.unit u).st = .faulted →
      (s.unit u).cut = none →
      (∀ g : GroupId, s.groups[g].armed = none) →
      Does (.faultClassified i true false) s (fun t => t.faults = s.faults.eraseIdx i ∧ t.raisings (mgtSrc 48) = s.raisings (mgtSrc 48) + 1 ∧ t.rf 0 Off.MGT_FAULT_CNT 15 0 = min (s.rf 0 Off.MGT_FAULT_CNT 15 0 + 1) 65535 ∧
        t.eff 0 Off.MGT_FAULT = 2 ^ 31 + 3 * 2 ^ 24 + f.code % 256 * 2 ^ 16 + f.kind % 256 * 2 ^ 8 + f.unit % 256 ∧ (t.unit u).st = .wedged ∧ (∀ w : UnitId, w ≠ u → t.unit w = s.unit w) ∧ t.raisings (mgtSrc 49) = s.raisings (mgtSrc 49) + 1 ∧ (t.unit u).hwFaults = min ((s.unit u).hwFaults + 1) 65535)) ∧
  (∀ (i : Nat) (other : Bool) (s : State) (f : FaultRec) (u : UnitId) (p : PortId),
      s.MemOk →
      (s.faults[i]? = some f ∧ (classifying s.faults).contains (f.kind, f.unit) = true) →
      u = unitOfPort p →
      f.kind = 1 →
      f.unit = p.val →
      (f.code = 1 ∨ f.code = 2 ∨ f.code = 5) →
      s.noSpare p = false →
      (s.port p).pipe.fails = [] →
      f.arg2 < 5 →
      bitN (s.port p).conv[f.arg % 16].retired f.arg2 = false →
      2 ≤ ((s.unit u).faultTimes.filter (fun n => decide (s.now < n + 1000000000))).length →
      (s.unit u).st = .faulted →
      (s.unit u).cut = none →
      (∀ g : GroupId, s.groups[g].armed = none) →
      f.joined = [] →
      Does (.faultClassified i true other) s (fun t => t.faults = s.faults.eraseIdx i ∧ (t.unit u).st = .wedged ∧ (∀ w : UnitId, w ≠ u → t.unit w = s.unit w) ∧ t.raisings (mgtSrc 49) = s.raisings (mgtSrc 49) + 1 ∧ fld (t.eff 0 Off.MGT_FAULT) 25 24 = 3)) ∧
  (∀ (i : Nat) (other : Bool) (s : State) (f : FaultRec) (u : UnitId) (p : PortId),
      s.MemOk →
      (s.faults[i]? = some f ∧ (classifying s.faults).contains (f.kind, f.unit) = true) →
      u = unitOfPort p →
      f.kind = 1 →
      f.unit = p.val →
      (f.code ∉ [4, 7, 8, 9]) →
      (f.hasCode [7, 8, 9] = true) →
      (∀ e ∈ f.joined, e.1 ≠ 8 ∨ e.2 < 16) →
      (s.port p).pipe.fails = [] →
      (s.unit u).back = .running →
      (s.unit u).st = .faulted →
      (s.unit u).cut = none →
      (∀ g : GroupId, s.groups[g].armed = none) →
      (s.faults.eraseIdx i).any (fun e => e.kind == f.kind && e.unit == f.unit) = false →
      Does (.faultClassified i false other) s (fun t => t.faults = s.faults.eraseIdx i ∧ t.raisings (mgtSrc 48) = s.raisings (mgtSrc 48) + 1 ∧ t.rf 0 Off.MGT_FAULT_CNT 15 0 = min (s.rf 0 Off.MGT_FAULT_CNT 15 0 + 1) 65535 ∧
        t.eff 0 Off.MGT_FAULT = 2 ^ 31 + 0 * 2 ^ 24 + f.code % 256 * 2 ^ 16 + f.kind % 256 * 2 ^ 8 + f.unit % 256 ∧ (t.unit u).st = .running ∧ (∀ w : UnitId, w ≠ u → t.unit w = s.unit w) ∧ (t.unit u).current = some ((s.unit u).committed.getD 0) ∧
        (∀ e ∈ unitEngs u, (t.eng e).run = .waiting ∧ (t.eng e).setup = (s.unit u).committed.getD 0 ∧ (t.eng e).pc = (s.slotProg e ((s.unit u).committed.getD 0)).entry ∧ (t.eng e).scratch = []) ∧ (∀ e : EngId, e ∉ unitEngs u → t.eng e = s.eng e))) ∧
  (∀ (i : Nat) (other : Bool) (s : State) (f : FaultRec) (u : UnitId) (a : AxisId),
      s.MemOk →
      (s.faults[i]? = some f ∧ (classifying s.faults).contains (f.kind, f.unit) = true) →
      u = unitOfAxis a →
      f.kind = 2 →
      f.unit = a.val →
      (f.code = 7 ∨ f.code = 8 ∨ f.code = 9) →
      (s.unit u).st = .faulted →
      (s.unit u).cut = none →
      Does (.faultClassified i true true) s (fun t => t.faults = s.faults.eraseIdx i ∧ t.raisings (mgtSrc 48) = s.raisings (mgtSrc 48) + 1 ∧ t.rf 0 Off.MGT_FAULT_CNT 15 0 = min (s.rf 0 Off.MGT_FAULT_CNT 15 0 + 1) 65535 ∧
        t.eff 0 Off.MGT_FAULT = 2 ^ 31 + 3 * 2 ^ 24 + f.code % 256 * 2 ^ 16 + f.kind % 256 * 2 ^ 8 + f.unit % 256 ∧ (t.unit u).st = .wedged ∧ (∀ w : UnitId, w ≠ u → t.unit w = s.unit w) ∧ t.raisings (mgtSrc 49) = s.raisings (mgtSrc 49) + 1 ∧ (t.axis a).held = some true ∧ (∀ b : AxisId, b ≠ a → t.axis b = s.axis b) ∧ t.ports = s.ports)) ∧
  (∀ (i : Nat) (failed other : Bool) (s : State) (f : FaultRec) (c : ScriptId),
      s.MemOk →
      (s.faults[i]? = some f ∧ (classifying s.faults).contains (f.kind, f.unit) = true) →
      f.kind = 5 →
      f.unit = c.val →
      ((s.script c).st = .faulted ∨ ((s.script c).st = .wedged ∧ (failed = true ∨ f.arg2 = 5 ∨ f.code = 9))) →
      Does (.faultClassified i failed other) s (fun t =>
        let hard := failed = true ∨ f.arg2 = 5 ∨ f.code = 9
        t.faults = s.faults.eraseIdx i ∧ t.raisings (mgtSrc 48) = s.raisings (mgtSrc 48) + 1 ∧ t.rf 0 Off.MGT_FAULT_CNT 15 0 = min (s.rf 0 Off.MGT_FAULT_CNT 15 0 + 1) 65535 ∧
        t.eff 0 Off.MGT_FAULT = 2 ^ 31 + (if hard then 3 else 2) * 2 ^ 24 + f.code % 256 * 2 ^ 16 + f.kind % 256 * 2 ^ 8 + f.unit % 256 ∧ t.script c = { s.script c with st := (if hard then .wedged else .halted) } ∧ (∀ d : ScriptId, d ≠ c → t.script d = s.script d) ∧
        t.raisings (mgtSrc 49) = s.raisings (mgtSrc 49) + (if hard then 1 else 0) ∧ ({ s with faults := t.faults, regs := t.regs, jrnl := t.jrnl, scripts := t.scripts } : State).EventsOnly t [mgtSrc 48, mgtSrc 49]))

/-- A write of the key to HIF_RESET, unless a reset runs, empties every port's line stages, pipeline and gate queue, puts its pins to idle and its engines and the axis engines to rest, hands back the descriptors in use, halts the scripts but SC15 with cause RESET, abandons the classifications of units, and leaves unit states, tables, motion, contexts and time. RESET_DONE resets every unit and reloads it from its committed setup: one that fails its self-test is WEDGED, a FAULTED or WEDGED one returns to its state before the fault, others keep theirs; the engines of a unit that runs start anew from its committed setup, those of one that is LOADED or HALTED are cleared at its entry; and RESET_DONE is raised. (Here with no verify report waiting, no cut and no CUT values that wait. That a reset that is not taken, or an end of none, leaves the state is log entry 5.) -/
def Obligations.FullResetAndItsEnd : Prop :=
  (∀ (c : CtxId) (v : Word) (s : State),
      s.Serves c Off.HIF_RESET true →
      (s.mgt.resetBusy = true ∨ fld v.toNat 15 0 ≠ 0x9640) →
      Does (.fullReset c v) s (fun t => t = s)) ∧
  (∀ (c : CtxId) (v : Word) (s : State),
      s.MemOk →
      s.Serves c Off.HIF_RESET true →
      s.mgt.resetBusy = false →
      fld v.toNat 15 0 = 0x9640 →
      (∀ p : PortId, (s.port p).pipe.fails = []) →
      Does (.fullReset c v) s (fun t => t.mgt = { s.mgt with resetBusy := true } ∧ t.units = s.units ∧ t.axes = s.axes ∧ t.ctxs = s.ctxs ∧ t.tbl = s.tbl ∧ t.store = s.store ∧ t.groups = s.groups ∧ t.now = s.now ∧
        (∀ p : PortId, (t.port p).cap = none ∧ (t.port p).prc = none ∧ (t.port p).emi = none ∧ (∀ k : Fin 4, (t.port p).due[k] = []) ∧ (t.port p).gate.queue = [] ∧ (t.port p).gate.lrefOn = false ∧ (t.port p).pipe.stream = none ∧ (t.port p).pipe.queued = [] ∧ (t.port p).ltg = (s.port p).ltg ∧ (t.port p).conv = (s.port p).conv ∧
          (∀ i : Fin 12, (t.port p).gate.pins[i] = (s.rf p.val Off.PRT_GCFG 11 0).testBit i.val) ∧ (t.eng (gateEng p)).run = .idle ∧ (t.eng (pipeEng p)).run = .idle) ∧
        (∀ a : AxisId, t.eng (axisEng a) = { s.eng (axisEng a) with run := .idle }) ∧ (∀ d : ChanId, (t.chan d).cur = none) ∧
        (∀ e : ChanId, e.val % 4 ≠ 3 → ∀ d ∈ (s.chan e).cur,
          let h : Held := { bar := true, hb := some { idx := d.d.idx, status := d.records, written := d.written, firstLine := d.firstLine % 2 ^ 32, ctl := (d.d.ctl &&& 0x4004) + b2n d.start * 2 + b2n d.cont }, events := [], fin := none }
          ((s.chan e).barrier = true ∨ s.link.d3hot = true ∨ s.link.perst = true → t.chan e = { s.chan e with cur := none, held := (s.chan e).held ++ [h] }) ∧
          ((s.chan e).barrier = false → (s.chan e).held = [] → s.link.d3hot = false → s.link.perst = false → t.chan e = { s.chan e with cur := none, barrier := true, dirty := false, held := [h] })) ∧
        (∀ e : ChanId, e.val % 4 ≠ 3 → (s.chan e).cur = none → t.chan e = s.chan e) ∧
        (∀ k : ScriptId, k ≠ 15 → (t.script k).st ≠ .running ∧ (t.script k).st ≠ .waiting ∧ (t.script k).st ≠ .faulted ∧ (t.script k).st ≠ .wedged ∧ ((s.script k).st = .running ∨ (s.script k).st = .waiting → (t.script k).cause = 8)) ∧ t.script 15 = s.script 15 ∧
        (∀ f ∈ t.faults, f ∈ s.faults ∧ f.kind ≠ 1 ∧ f.kind ≠ 2 ∧ f.kind ≠ 5))) ∧
  (∀ (failed : List UnitId) (bad : List (Nat × Nat × Nat)) (corr : List (PortId × Nat)) (s : State),
      s.mgt.resetBusy = false →
      Does (.resetDone failed ⟨bad, corr⟩) s (fun t => t = s)) ∧
  (∀ (failed : List UnitId) (s : State),
      s.MemOk →
      s.mgt.resetBusy = true →
      (∀ u : UnitId, (s.unit u).cut = none ∧ (s.unit u).due = [] ∧ (s.unit u).prior ≠ .draining) →
      (∀ g : GroupId, s.groups[g].armed = none) →
      (∀ p : PortId, (s.port p).pipe.fails = []) →
      (∀ u ∈ failed, (s.unit u).st ≠ .off) →
      Does (.resetDone failed ⟨[], []⟩) s (fun t => t.mgt = { s.mgt with resetBusy := false } ∧ t.raisings (mgtSrc 50) = s.raisings (mgtSrc 50) + 1 ∧ t.now = s.now ∧
        (∀ u : UnitId, (t.unit u).st = if (s.unit u).st = .off then .off else if u ∈ failed then .wedged else if (s.unit u).st = .faulted ∨ (s.unit u).st = .wedged then (s.unit u).prior else (s.unit u).st) ∧
        (∀ p : PortId, unitOfPort p ∉ failed → (t.unit (unitOfPort p)).st = .running →
          (t.unit (unitOfPort p)).current = some ((s.unit (unitOfPort p)).committed.getD 0) ∧ (t.port p).pipe.stream = none ∧ (t.port p).pipe.stall = none ∧
          ∀ e ∈ [gateEng p, pipeEng p], (t.eng e).run = .waiting ∧ (t.eng e).setup = (s.unit (unitOfPort p)).committed.getD 0 ∧ (t.eng e).pc = (s.slotProg e ((s.unit (unitOfPort p)).committed.getD 0)).entry ∧ (t.eng e).scratch = []) ∧
        (∀ p : PortId, unitOfPort p ∉ failed → (s.unit (unitOfPort p)).st = .halted ∨ (s.unit (unitOfPort p)).st = .loaded → ∀ k ∈ (s.unit (unitOfPort p)).committed, ∀ e ∈ [gateEng p, pipeEng p],
          (t.eng e).run = .idle ∧ (t.eng e).setup = k ∧ (t.eng e).pc = (s.slotProg e k).entry ∧ (t.eng e).scratch = []) ∧
        (∀ p : PortId, unitOfPort p ∈ failed → (t.port p).cap = none ∧ (t.port p).prc = none ∧ (t.port p).emi = none) ∧
        (∀ a : AxisId, unitOfAxis a ∉ failed → (t.unit (unitOfAxis a)).st = .running → (t.eng (axisEng a)).run = .waiting ∧ (t.eng (axisEng a)).setup = (s.unit (unitOfAxis a)).committed.getD 0 ∧ (t.unit (unitOfAxis a)).current = some ((s.unit (unitOfAxis a)).committed.getD 0)) ∧
        (∀ a : AxisId, unitOfAxis a ∉ failed → (s.unit (unitOfAxis a)).st = .halted ∨ (s.unit (unitOfAxis a)).st = .loaded → ∀ k ∈ (s.unit (unitOfAxis a)).committed, (t.eng (axisEng a)).run = .idle ∧ (t.eng (axisEng a)).setup = k ∧ (t.eng (axisEng a)).pc = (s.slotProg (axisEng a) k).entry ∧ (t.eng (axisEng a)).scratch = [])))

/-- A supply fault leaves the machine as at reset, and a release of power-on reset boots it: contexts, units, engines, channels, queues and memories are at their reset values, all units are OFF, time is 0, the flash and the fuses keep their contents, the configuration record written last is in force, management serves, the preferred valid reference is selected, the PLLs are locked if there is one, powered banks have their head descriptors read, and slices and lanes that fail the self-test are retired. (That time restarts at 0 and what a part keeps over a power loss beside flash and fuses is the model's, log entry 120.) -/
def Obligations.PowerOnAndSupplyFault : Prop :=
  (∀ (s : State),
      Does (.supplyFault) s (fun t => t.pending = s.pending ∧ t.now = 0 ∧ t.ctxs = State.reset.ctxs ∧ t.units = State.reset.units ∧ t.groups = State.reset.groups ∧ t.engs = State.reset.engs ∧ t.tbl = [] ∧ t.store = [] ∧ t.pend = [] ∧ t.faults = [] ∧ t.chans = State.reset.chans ∧ t.scripts = State.reset.scripts ∧
        t.axes = State.reset.axes ∧ t.queues = State.reset.queues ∧ t.link = State.reset.link ∧ t.tks = State.reset.tks ∧ t.aux = State.reset.aux ∧ t.jrnl.ring = s.jrnl.ring ∧ t.mgt.svnMin = s.mgt.svnMin ∧ t.mgt.revoked = s.mgt.revoked ∧ t.mgt.serial = s.mgt.serial ∧ t.mgt.fwA = s.mgt.fwA ∧ t.mgt.fwB = s.mgt.fwB ∧ t.mgt.cfg = s.mgt.cfgNext ∧ t.mgt.cfgNext = s.mgt.cfgNext ∧ t.regs = [] ∧ t.raised = [] ∧ t.ports = State.reset.ports ∧ t.mgt.up = false ∧ t.mgt.fwSlot = s.mgt.fwSlot ∧ t.jrnl.mem = [])) ∧
  (∀ (b : BootInfo) (s : State),
      b.badSlices = [] →
      b.badLanes = [] →
      b.cals = [] →
      Does (.powerOnReset b) s (fun t => t.pending = s.pending ∧ t.now = 0 ∧ t.ctxs = State.reset.ctxs ∧ t.units = State.reset.units ∧ t.groups = State.reset.groups ∧ t.engs = State.reset.engs ∧ t.tbl = [] ∧ t.store = [] ∧ t.pend = [] ∧ t.faults = [] ∧ t.chans = State.reset.chans ∧ t.scripts = State.reset.scripts ∧
        t.axes = State.reset.axes ∧ t.queues = State.reset.queues ∧ t.link = { State.reset.link with cfgReady := true } ∧ t.tks = State.reset.tks ∧ t.aux = State.reset.aux ∧ t.jrnl.ring = s.jrnl.ring ∧ t.mgt.svnMin = s.mgt.svnMin ∧ t.mgt.revoked = s.mgt.revoked ∧ t.mgt.serial = s.mgt.serial ∧ t.mgt.fwA = s.mgt.fwA ∧ t.mgt.fwB = s.mgt.fwB ∧ t.mgt.cfg = s.mgt.cfgNext ∧ t.mgt.cfgNext = s.mgt.cfgNext ∧ t.raised = [] ∧ t.mgt.up = true ∧
        t.mgt.fwSlot = (if s.mgt.verifies (s.mgt.fw s.mgt.fwSlot) then s.mgt.fwSlot else 1 - s.mgt.fwSlot) ∧
        t.refSel = (if refGood b.refA then 0 else if refGood b.refB then 1 else 3) ∧ t.rf 0 Off.CLK_REF_STAT 4 4 = b2n (refGood b.refA) ∧ t.rf 0 Off.CLK_REF_STAT 5 5 = b2n (refGood b.refB) ∧
        (∀ p : PortId, t.pllLock p = (refGood b.refA || refGood b.refB) ∧ (t.port p).head = { PortSt.atReset.head with bankOk := b.banks.testBit p.val, bankSeen := b.banks.testBit p.val, reading := b.banks.testBit p.val } ∧
          t.rf p.val Off.PRT_HEAD_STAT 1 0 = b2n (b.banks.testBit p.val) ∧ t.port p = { PortSt.atReset with head := (t.port p).head, conv := (t.port p).conv } ∧
          (∀ k : Fin 16, (t.port p).conv[k] = { ConvSt.atReset with ready := true, cals := List.replicate 5 1 })) ∧
        (∀ k : Fin 24, t.rf 0 (Off.CLK_BANK + 4 * k.val) 31 31 = b2n (b.banks.testBit k.val)) ∧ t.eff 0 Off.CLK_DOM_OK = (if refGood b.refA || refGood b.refB then 0x1FFFFFF else 0) ∧
        t.jrnl.mem.map (fun e => (e.kind, e.code)) = [(11, 53)])) ∧
  (∀ (b : BootInfo) (s : State) (p : PortId) (k : Fin 16) (x : Nat),
      (b.badSlices = [(p.val, k.val, x)]) →
      b.badLanes = [] →
      b.cals = [] →
      x < 4 →
      Does (.powerOnReset b) s (fun t => (t.port p).conv[k].retired = 2 ^ x ∧ (t.port p).conv[k].out = none ∧ (t.port p).conv[k].slots = [0, 1, 2, 3].map (fun j => if j = x then 4 else j) ∧ t.units = State.reset.units ∧ t.mgt.up = true ∧ t.raisings (portSrc p.val 7) = 1)) ∧
  (∀ (b : BootInfo) (s : State) (p : PortId) (l : Nat),
      (b.badLanes = [(p.val, l)]) →
      b.badSlices = [] →
      l < 8 →
      Does (.powerOnReset b) s (fun t => t.rf p.val Off.PIP_LANE_STAT 4 4 = 1 ∧ t.rf p.val Off.PIP_LANE_STAT 3 0 = 15 ∧ t.rf p.val Off.PIP_LANE_MAP (4 * l + 3) (4 * l) = 8 ∧ t.units = State.reset.units ∧ t.mgt.up = true ∧ t.raisings (portSrc p.val 11) = 1))

/-- A retrain puts the link on its new width, rate and mode; L0p takes a width back up to the trained one, and down only to the smallest that carries the committed demand; D3hot stops memory requests, and the return to D0 sends what waited and keeps every configured value; the release of PERST_L, which reads low while VDDIO20 is out of its range, checks HREFCLK and its loss puts the link on SRIS; a host write of configuration space sets bases, sizes, the PTM enable and AER status, whose header log keeps the first error; IDE key management stores keys and starts and stops their use. (How keys are exchanged is the model's, log entry 97; that a host write of configuration space comes with a retrain is log entry 160; that L0p accepts a return to a greater width is log entry 166; that a command that does not apply leaves the state is log entry 5.) PERST_L ends every session, clears the ring registers and the rights of all contexts but the owner's, closes the open channels without touching host memory, takes EN and HOST from the queues of the host and keeps their words, halts running scripts but management's with cause 8, masks MSI-X, and leaves ports, axes, tables and time as they are. A PTM exchange counts good and bad ones: the fourth within 20 ns locks, the third failed one or an offset above 1 microsecond unlocks and raises PTM_UNLOCK, and the first lock steps device time once if no unit has run. (That the step is never backwards is the model's, log entry 96.) -/
def Obligations.LinkResetAndPtm : Prop :=
  (∀ (width rate : Nat) (flit : Bool) (cfg : Option PciCfg) (s : State),
      s.link.perst = true →
      Does (.linkRetrain width rate ⟨flit, cfg⟩) s (fun t => t = s)) ∧
  (∀ (width rate : Nat) (flit : Bool) (s : State),
      s.link.perst = false →
      width ≤ 16 →
      rate < 8 →
      Does (.linkRetrain width rate ⟨flit, none⟩) s (fun t => t = { s with link := { s.link with up := decide (width ≠ 0), width := width, trained := width, rate := rate, flit := flit, l0p := false } })) ∧
  (∀ (width rate : Nat) (flit : Bool) (k : PciCfg) (s : State),
      s.link.perst = false →
      width ≤ 16 →
      rate < 8 →
      k.bar0 < 2 ^ 64 →
      k.bar4 < 2 ^ 64 →
      (∀ e ∈ k.aerError, e.1 < 32) →
      Does (.linkRetrain width rate ⟨flit, (some k)⟩) s (fun t =>
        t.link = { s.link with up := decide (width ≠ 0), width := width, trained := width, rate := rate, flit := flit, l0p := false, pci := t.link.pci } ∧ t = { s with link := t.link } ∧
        t.link.pci = { s.link.pci with bar0 := k.bar0 - k.bar0 % 2 ^ 26, bar4 := k.bar4 - k.bar4 % 2 ^ 14, mps := min k.mps 2, mrrs := min k.mrrs 5, ptmEn := k.ptm, aerStatus := t.link.pci.aerStatus, aerFirst := t.link.pci.aerFirst } ∧
        (∀ i : Fin 32, t.link.pci.aerStatus.testBit i.val = (s.link.pci.aerStatus.testBit i.val && !k.aerClear.testBit i.val || decide (k.aerError.map (fun e => e.1) = some i.val))) ∧
        t.link.pci.aerFirst = (match s.link.pci.aerFirst with
          | some e => if e.1 < 32 ∧ s.link.pci.aerStatus.testBit e.1 = true ∧ k.aerClear.testBit e.1 = false then some e else k.aerError
          | none => k.aerError))) ∧
  (∀ (width : Nat) (s : State),
      s.link.up = true →
      s.link.width < width →
      width ≤ s.link.trained →
      Does (.l0pRequest width) s (fun t => t = { s with link := { s.link with width := width, l0p := decide (width < s.link.trained) } })) ∧
  (∀ (width : Nat) (s : State),
      s.link.up = true →
      width < s.link.width →
      s.link.width ≤ s.link.trained →
      Does (.l0pRequest width) s (fun t => t = { s with link := (if s.l0pWidth = some width then { s.link with width := width, l0p := true } else s.link) })) ∧
  (∀ (width : Nat) (s : State),
      (s.link.up = false ∨ s.link.trained < width ∨ width = s.link.width) →
      Does (.l0pRequest width) s (fun t => t = s)) ∧
  (∀ (s : State),
      Does (.d3hotEntry) s (fun t => t = { s with link := { s.link with d3hot := (s.link.d3hot || !s.link.perst) } })) ∧
  (∀ (s : State),
      s.link.d3hot = false →
      Does (.d0Return) s (fun t => t = s)) ∧
  (∀ (s : State),
      s.MemOk →
      s.link.d3hot = true →
      s.link.perst = false →
      (∀ c : ChanId, (s.chan c).held = []) →
      (∀ q : QueueId, s.qHost q = false) →
      Does (.d0Return) s (fun t => t = { s with link := { s.link with d3hot := false, heldMsgs := [] }, bus := t.bus, msiPend := t.msiPend } ∧
        t.bus = ((s.link.heldMsgs.filter s.vecOpen).map s.msixMsg).reverse ++ s.bus ∧
        (∀ v ∈ s.link.heldMsgs, s.vecOpen v = false → mget (fun _ => false) t.msiPend v = true))) ∧
  (∀ (s : State) (c : ChanId) (b : HandBack),
      s.link.d3hot = true →
      s.link.perst = false →
      s.link.heldMsgs = [] →
      (∀ q : QueueId, s.qHost q = false) →
      (∀ d : ChanId, d ≠ c → (s.chan d).held = []) →
      (s.chan c).barrier = false →
      ((s.chan c).held = [{ bar := false, hb := some b, events := [], fin := none }]) →
      (s.chan c).eocCount + 1 < (s.chan c).eocAt →
      Does (.d0Return) s (fun t => t = { s with link := { s.link with d3hot := false }, bus := t.bus, chans := t.chans } ∧ (∀ d : ChanId, d ≠ c → t.chan d = s.chan d) ∧ (t.chan c).held = [] ∧
        (t.chan c).head = (if b.ctl.testBit 2 then 0 else (b.idx + 1) % 2 ^ (s.chan c).k) ∧
        t.bus = .memWrite ((s.chan c).base + 32 * b.idx + 0x0C) (leBytes 2 b.ctl) false ::
          .memWrite ((s.chan c).base + 32 * b.idx + 0x0E) (leBytes 2 (b.status + b2n (!(s.chan c).dirty) * 2 ^ 14 + b2n (s.chan c).drop * 2 ^ 8) ++ leBytes 4 b.written ++ leBytes 4 b.firstLine) false :: s.bus)) ∧
  (∀ (s : State),
      s.link.d3hot = true →
      Does (.d0Return) s (fun t => t.link.d3hot = false ∧ t.ports = s.ports ∧ t.units = s.units ∧ t.engs = s.engs ∧ t.axes = s.axes ∧ t.ctxs = s.ctxs ∧ t.scripts = s.scripts ∧ t.tbl = s.tbl ∧ t.now = s.now)) ∧
  (∀ (href : Bool) (s : State),
      s.bankUp 19 = false →
      Does (.perstRelease href) s (fun t => t = s)) ∧
  (∀ (href : Bool) (s : State),
      s.MemOk →
      s.rf 0 (Off.CLK_BANK + 76) 31 31 = 1 →
      Does (.perstRelease href) s (fun t => t = { s with link := { s.link with perst := false }, regs := t.regs } ∧ s.SameRegs t [rkey 0 Off.CLK_REF_STAT] ∧ t.rf 0 Off.CLK_REF_STAT 6 6 = b2n href ∧ t.rf 0 Off.CLK_REF_STAT 7 7 = b2n (!href) ∧
        (∀ i : Fin 32, i.val ∉ ([6, 7] : List Nat) → t.rf 0 (Off.CLK_REF_STAT) i.val i.val = s.rf 0 (Off.CLK_REF_STAT) i.val i.val))) ∧
  (∀ (s : State),
      s.MemOk →
      Does (.hrefclkLoss) s (fun t => t = { s with regs := t.regs } ∧ s.SameRegs t [rkey 0 Off.CLK_REF_STAT] ∧ t.rf 0 Off.CLK_REF_STAT 6 6 = 0 ∧ t.rf 0 Off.CLK_REF_STAT 7 7 = 1 ∧
        (∀ i : Fin 32, i.val ∉ ([6, 7] : List Nat) → t.rf 0 (Off.CLK_REF_STAT) i.val i.val = s.rf 0 (Off.CLK_REF_STAT) i.val i.val))) ∧
  (∀ (m : IdeKm) (s : State),
      s.link.up = false →
      Does (.ideKmMessage m) s (fun t => t = s)) ∧
  (∀ (s : State),
      s.link.up = true →
      Does (.ideKmMessage .query) s (fun t => t = s)) ∧
  (∀ (slot : Nat) (key : List Byte) (s : State),
      s.link.up = true →
      Does (.ideKmMessage (.keyProg slot key)) s (fun t => t = { s with link := { s.link with ideKeys := (slot, key) :: s.link.ideKeys.filter (fun e => e.1 != slot) } })) ∧
  (∀ (s : State),
      s.link.up = true →
      Does (.ideKmMessage .setGo) s (fun t => t = { s with link := { s.link with ideOn := !s.link.ideKeys.isEmpty } })) ∧
  (∀ (s : State),
      s.link.up = true →
      Does (.ideKmMessage .setStop) s (fun t => t = { s with link := { s.link with ideOn := false } })) ∧
  (∀ (s : State),
      s.MemOk →
      Does (.perstAssert) s (fun t => t.link = { s.link with perst := true, d3hot := false, up := false, width := 0, trained := 0, rate := 0, flit := false, l0p := false, ptmActive := false, ideOn := false, ideKeys := [], heldMsgs := [], pci := PciSt.atReset } ∧
        (∀ c : CtxId, t.ctxs[c] = { s.ctxs[c] with enable := false, err := 0, bells := [], zhp := 0, sqTail := 0, sqHead := 0, cqHead := 0, cqNext := 0, phase := true, rightsBlk := (if c = 0 then s.ctxs[c].rightsBlk else 0), rightsPort := (if c = 0 then s.ctxs[c].rightsPort else 0), rightsAxis := (if c = 0 then s.ctxs[c].rightsAxis else 0) }) ∧
        (∀ c : CtxId, ∀ off ∈ [Off.HIF_ASQ_BASE_LO, Off.HIF_ASQ_BASE_HI, Off.HIF_ACQ_BASE_LO, Off.HIF_ACQ_BASE_HI, Off.HIF_AQ_SIZE, Off.HIF_CTX_CTL], t.eff c.val off = 0) ∧
        (∀ c : ChanId, (t.chan c).st = 0 ∧ ((s.chan c).st = 0 → t.chan c = s.chan c)) ∧
        (∀ q : QueueId, (t.queues[q]).words = (s.queues[q]).words ∧ t.qHost q = false ∧ (s.qHost q = false → t.qEn q = s.qEn q) ∧ (s.qHost q = true → t.qEn q = false)) ∧
        (∀ c : ScriptId, if c ≠ 15 ∧ ((s.script c).st = .running ∨ (s.script c).st = .waiting) then (t.script c).st = .halted ∧ (t.script c).cause = 8 else t.script c = s.script c) ∧
        t.msiUnmasked = [] ∧ t.msiPend = [] ∧ t.rf 0 Off.HIF_PTM_CTL 0 0 = 0 ∧ t.bus = s.bus ∧
        t.ports = s.ports ∧ t.units = s.units ∧ t.axes = s.axes ∧ t.tbl = s.tbl ∧ t.store = s.store ∧ t.groups = s.groups ∧ t.faults = s.faults ∧ t.clk = s.clk ∧ t.now = s.now ∧
        (∀ e : EngId, e.val < 40 → t.eng e = s.eng e))) ∧
  (∀ (ok : Bool) (offset : Int) (s : State),
      (s.rf 0 Off.HIF_PTM_CTL 0 0 = 0 ∨ s.link.pci.ptmEn = false ∨ s.link.up = false) →
      Does (.ptmExchange ok offset) s (fun t => t = { s with link := { s.link with ptmActive := false } })) ∧
  (∀ (offset : Int) (s : State),
      s.MemOk →
      (s.rf 0 Off.HIF_PTM_CTL 0 0 = 1 ∧ s.link.pci.ptmEn = true) →
      s.link.up = true →
      (s.link.ptmBad < 2 ∨ s.link.ptmLocked = false) →
      Does (.ptmExchange false offset) s (fun t => t = { s with link := { s.link with ptmActive := true, ptmGood := 0, ptmBad := s.link.ptmBad + 1 } })) ∧
  (∀ (offset : Int) (s : State),
      s.MemOk →
      (s.rf 0 Off.HIF_PTM_CTL 0 0 = 1 ∧ s.link.pci.ptmEn = true) →
      s.link.up = true →
      2 ≤ s.link.ptmBad →
      s.link.ptmLocked = true →
      Does (.ptmExchange false offset) s (fun t => ({ s with link := { s.link with ptmActive := true, ptmGood := 0, ptmBad := s.link.ptmBad + 1, ptmLocked := false } } : State).EventsOnly t [mgtSrc 43] ∧
        t.raisings (mgtSrc 43) = s.raisings (mgtSrc 43) + 1)) ∧
  (∀ (offset : Int) (s : State),
      (s.rf 0 Off.HIF_PTM_CTL 0 0 = 1 ∧ s.link.pci.ptmEn = true) →
      s.link.up = true →
      (s.link.ptmStepped = true ∨ s.anyRan = true ∨ ¬ (offset.natAbs ≤ 20 ∧ 3 ≤ s.link.ptmGood)) →
      offset.natAbs ≤ 1000 →
      Does (.ptmExchange true offset) s (fun t => t = { s with link := { s.link with ptmActive := true, ptmStepped := (s.link.ptmStepped || decide (offset.natAbs ≤ 20 ∧ 3 ≤ s.link.ptmGood)), ptmBad := 0, ptmOffset := offset, ptmGood := (if offset.natAbs ≤ 20 then s.link.ptmGood + 1 else 0), ptmLocked := (s.link.ptmLocked || decide (offset.natAbs ≤ 20 ∧ 3 ≤ s.link.ptmGood)) } })) ∧
  (∀ (offset : Int) (s : State),
      s.MemOk →
      (s.rf 0 Off.HIF_PTM_CTL 0 0 = 1 ∧ s.link.pci.ptmEn = true) →
      s.link.up = true →
      1000 < offset.natAbs →
      Does (.ptmExchange true offset) s (fun t => ({ s with link := { s.link with ptmActive := true, ptmBad := 0, ptmOffset := max (-32768) (min 32767 offset), ptmGood := 0, ptmLocked := false } } : State).EventsOnly t [mgtSrc 43] ∧
        t.raisings (mgtSrc 43) = s.raisings (mgtSrc 43) + b2n s.link.ptmLocked)) ∧
  (∀ (offset : Int) (s : State),
      (s.rf 0 Off.HIF_PTM_CTL 0 0 = 1 ∧ s.link.pci.ptmEn = true) →
      s.link.up = true →
      s.link.ptmStepped = false →
      s.anyRan = false →
      offset.natAbs ≤ 20 →
      3 ≤ s.link.ptmGood →
      Does (.ptmExchange true offset) s (fun t => (t.now : Int) = max (s.now : Int) ((s.now : Int) - offset) ∧ t = { s with now := t.now, link := { s.link with ptmActive := true, ptmStepped := true, ptmLocked := true, ptmBad := 0, ptmOffset := offset, ptmGood := s.link.ptmGood + 1 } }))

/-- A reference is valid within 500 ppm of 100 MHz with no interval between edges above 40 ns. When the selected reference fails the other one is taken, or holdover, with REFCLK_FAILOVER, and holdover also raises CLOCK_FAULT; a reference that has been valid for 1 s ends holdover, the preferred one first, and the preferred one is taken back where RETURN says so; without any reference one valid for 1 ms starts the PLLs. A PLL that loses lock while its port runs raises CLOCK_FAULT and drops the line in capture, and its relock raises it again. CLK_PPLL_FREQ takes a value in range while the port does not run, unlocks the PLL and puts the timing pins to TIDLE; otherwise the write is ignored. (The domain and kind of the CLOCK_FAULT of holdover are free values, log entry 98.) A frequency measurement shows each domain, sets OK where it lies within 1,000 ppm of its nominal frequency, and sets FAULT and raises CLOCK_FAULT where it leaves it; a bank shows whether it is powered: a port bank that comes up for the first time has its head descriptor read, and one that goes down loses its head and drives nothing; the inputs of switches, encoders and masters, PERST_L and STOP_IN_L fall low with their banks; at 125 degrees the drivers, strobes, LREF outputs and excitations go off for good, and the timing outputs drive nothing. (The journal kinds of two of these are free values, log entry 95; the nominal frequency of CD2 and CD5, the rate of the trained link, is log entry 94; that what does not apply leaves the state is log entry 5.) -/
def Obligations.ReferencesPllsMonitorsAndBanks : Prop :=
  (∀ (a b : RefMeas) (okA okB : Bool) (s : State),
      s.MemOk →
      (okA = decide (99950000 ≤ a.freq ∧ a.freq ≤ 100050000 ∧ a.gap ≤ 40000)) →
      (okB = decide (99950000 ≤ b.freq ∧ b.freq ≤ 100050000 ∧ b.gap ≤ 40000)) →
      (¬((s.refSel = 0 ∧ okA = false) ∨ (s.refSel = 1 ∧ okB = false))) →
      Does (.refclkFailover a b) s (fun t => t = { s with regs := t.regs, clk := t.clk } ∧ s.SameRegs t (rkey 0 Off.CLK_REF_STAT :: injKeys) ∧ t.rf 0 Off.CLK_REF_STAT 4 4 = b2n okA ∧ t.rf 0 Off.CLK_REF_STAT 5 5 = b2n okB ∧ t.refSel = s.refSel ∧ t.clk = { s.clk with since := t.clk.since } ∧ t.clk.since[0] = (if okA = true ∧ s.rf 0 Off.CLK_REF_STAT 4 4 = 0 then s.now else s.clk.since[0]) ∧ t.clk.since[1] = (if okB = true ∧ s.rf 0 Off.CLK_REF_STAT 5 5 = 0 then s.now else s.clk.since[1]))) ∧
  (∀ (a b : RefMeas) (okA okB : Bool) (s : State),
      s.MemOk →
      (okA = decide (99950000 ≤ a.freq ∧ a.freq ≤ 100050000 ∧ a.gap ≤ 40000)) →
      (okB = decide (99950000 ≤ b.freq ∧ b.freq ≤ 100050000 ∧ b.gap ≤ 40000)) →
      ((s.refSel = 0 ∧ okA = false) ∨ (s.refSel = 1 ∧ okB = false)) →
      (okA = true ∨ okB = true) →
      Does (.refclkFailover a b) s (fun t => ({ s with regs := t.regs, clk := t.clk } : State).EventsOnly t [mgtSrc 44] ∧ t.raisings (mgtSrc 44) = s.raisings (mgtSrc 44) + 1 ∧
        s.SameRegs t (rkey 0 Off.CLK_REF_STAT :: injKeys) ∧ t.rf 0 Off.CLK_REF_STAT 4 4 = b2n okA ∧ t.rf 0 Off.CLK_REF_STAT 5 5 = b2n okB ∧ t.refSel = (if okA then 0 else 1) ∧ t.rf 0 Off.CLK_REF_STAT 31 16 = (s.rf 0 Off.CLK_REF_STAT 31 16 + 1) % 65536 ∧ t.clk = { s.clk with since := t.clk.since } ∧ t.clk.since[0] = (if okA = true ∧ s.rf 0 Off.CLK_REF_STAT 4 4 = 0 then s.now else s.clk.since[0]) ∧ t.clk.since[1] = (if okB = true ∧ s.rf 0 Off.CLK_REF_STAT 5 5 = 0 then s.now else s.clk.since[1]))) ∧
  (∀ (a b : RefMeas) (okA okB : Bool) (s : State),
      s.MemOk →
      (okA = decide (99950000 ≤ a.freq ∧ a.freq ≤ 100050000 ∧ a.gap ≤ 40000)) →
      (okB = decide (99950000 ≤ b.freq ∧ b.freq ≤ 100050000 ∧ b.gap ≤ 40000)) →
      ((s.refSel = 0 ∧ okA = false) ∨ (s.refSel = 1 ∧ okB = false)) →
      okA = false →
      okB = false →
      Does (.refclkFailover a b) s (fun t => ({ s with regs := t.regs, free := t.free, clk := t.clk } : State).EventsOnly t [mgtSrc 44, mgtSrc 45] ∧ t.raisings (mgtSrc 44) = s.raisings (mgtSrc 44) + 1 ∧ t.raisings (mgtSrc 45) = s.raisings (mgtSrc 45) + 1 ∧
        s.SameRegs t (rkey 0 Off.CLK_REF_STAT :: injKeys) ∧ t.rf 0 Off.CLK_REF_STAT 4 4 = b2n okA ∧ t.rf 0 Off.CLK_REF_STAT 5 5 = b2n okB ∧ t.refSel = 2 ∧ t.rf 0 Off.CLK_REF_STAT 31 16 = (s.rf 0 Off.CLK_REF_STAT 31 16 + 1) % 65536 ∧ t.clk = { s.clk with since := t.clk.since } ∧ t.clk.since[0] = (if okA = true ∧ s.rf 0 Off.CLK_REF_STAT 4 4 = 0 then s.now else s.clk.since[0]) ∧ t.clk.since[1] = (if okB = true ∧ s.rf 0 Off.CLK_REF_STAT 5 5 = 0 then s.now else s.clk.since[1]))) ∧
  (∀ (m : RefSample) (okA okB : Bool) (s : State),
      s.MemOk →
      (okA = decide (99950000 ≤ m.a.freq ∧ m.a.freq ≤ 100050000 ∧ m.a.gap ≤ 40000)) →
      (okB = decide (99950000 ≤ m.b.freq ∧ m.b.freq ≤ 100050000 ∧ m.b.gap ≤ 40000)) →
      s.refSel ≠ 3 →
      Does (.refclkValid m) s (fun t =>
        let now := max s.now m.time
        let since (n : Nat) : Nat := if n = 0 then (if okA = true ∧ s.rf 0 Off.CLK_REF_STAT 4 4 = 0 then now else s.clk.since[0]) else (if okB = true ∧ s.rf 0 Off.CLK_REF_STAT 5 5 = 0 then now else s.clk.since[1])
        let held (n lim : Nat) : Bool := (if n = 0 then okA else okB) && decide (since n + lim ≤ now)
        let pref := s.rf 0 Off.CLK_REF_CTL 0 0
        let new : Option Nat := if s.refSel = 2 then (if held pref 1000000000 then some pref else if held (1 - pref) 1000000000 then some (1 - pref) else none)
          else if s.refSel ≠ pref ∧ s.rf 0 Off.CLK_REF_CTL 1 1 = 1 ∧ held pref 1000000000 = true then some pref else none
        ({ s with regs := t.regs, now := now, clk := t.clk } : State).EventsOnly t [mgtSrc 44] ∧ s.SameRegs t (rkey 0 Off.CLK_REF_STAT :: injKeys) ∧ t.rf 0 Off.CLK_REF_STAT 4 4 = b2n okA ∧ t.rf 0 Off.CLK_REF_STAT 5 5 = b2n okB ∧ t.refSel = new.getD s.refSel ∧ t.clk = { s.clk with since := t.clk.since } ∧ t.clk.since[0] = (if okA = true ∧ s.rf 0 Off.CLK_REF_STAT 4 4 = 0 then (max s.now m.time) else s.clk.since[0]) ∧ t.clk.since[1] = (if okB = true ∧ s.rf 0 Off.CLK_REF_STAT 5 5 = 0 then (max s.now m.time) else s.clk.since[1]) ∧ t.raisings (mgtSrc 44) = s.raisings (mgtSrc 44) + b2n new.isSome ∧
        t.rf 0 Off.CLK_REF_STAT 31 16 = (if new.isSome then (s.rf 0 Off.CLK_REF_STAT 31 16 + 1) % 65536 else s.rf 0 Off.CLK_REF_STAT 31 16))) ∧
  (∀ (m : RefSample) (okA okB : Bool) (s : State),
      s.MemOk →
      (okA = decide (99950000 ≤ m.a.freq ∧ m.a.freq ≤ 100050000 ∧ m.a.gap ≤ 40000)) →
      (okB = decide (99950000 ≤ m.b.freq ∧ m.b.freq ≤ 100050000 ∧ m.b.gap ≤ 40000)) →
      s.refSel = 3 →
      Does (.refclkValid m) s (fun t =>
        let now := max s.now m.time
        let since (n : Nat) : Nat := if n = 0 then (if okA = true ∧ s.rf 0 Off.CLK_REF_STAT 4 4 = 0 then now else s.clk.since[0]) else (if okB = true ∧ s.rf 0 Off.CLK_REF_STAT 5 5 = 0 then now else s.clk.since[1])
        let held (n lim : Nat) : Bool := (if n = 0 then okA else okB) && decide (since n + lim ≤ now)
        let pref := s.rf 0 Off.CLK_REF_CTL 0 0
        let new : Option Nat := if held pref 1000000 then some pref else if held (1 - pref) 1000000 then some (1 - pref) else none
        t = { s with regs := t.regs, now := now, clk := t.clk } ∧ t.refSel = new.getD 3 ∧ (∀ p : PortId, t.pllLock p = (new.isSome || s.pllLock p)) ∧ t.rf 0 Off.CLK_REF_STAT 4 4 = b2n okA ∧ t.rf 0 Off.CLK_REF_STAT 5 5 = b2n okB ∧ t.clk = { s.clk with since := t.clk.since } ∧ t.clk.since[0] = (if okA = true ∧ s.rf 0 Off.CLK_REF_STAT 4 4 = 0 then (max s.now m.time) else s.clk.since[0]) ∧ t.clk.since[1] = (if okB = true ∧ s.rf 0 Off.CLK_REF_STAT 5 5 = 0 then (max s.now m.time) else s.clk.since[1]) ∧
        s.SameRegs t (rkey 0 Off.CLK_REF_STAT :: (List.finRange 16).map (fun (p : PortId) => rkey 0 (Off.CLK_PPLL_STAT + 16 * p.val))))) ∧
  (∀ (p : PortId) (s : State),
      s.MemOk →
      s.portState p ≠ .running →
      Does (.ppllUnlock p) s (fun t => t = { s with regs := t.regs } ∧ s.SameRegs t [rkey 0 (Off.CLK_PPLL_STAT + 16 * p.val)] ∧ t.pllLock p = false ∧ t.rf 0 (Off.CLK_PPLL_STAT + 16 * p.val) 31 16 = (s.rf 0 (Off.CLK_PPLL_STAT + 16 * p.val) 31 16 + 1) % 65536)) ∧
  (∀ (p : PortId) (s : State),
      s.MemOk →
      s.portState p = .running →
      Does (.ppllUnlock p) s (fun t => t.clk = { s.clk with lost := s.clk.lost.set p true } ∧ t.pllLock p = false ∧ t.rf 0 (Off.CLK_PPLL_STAT + 16 * p.val) 31 16 = (s.rf 0 (Off.CLK_PPLL_STAT + 16 * p.val) 31 16 + 1) % 65536 ∧
        t.raisings (mgtSrc 45) = s.raisings (mgtSrc 45) + 1 ∧ (∀ l ∈ (t.port p).cap, l.dropped = true) ∧ (t.port p).cap.isSome = (s.port p).cap.isSome ∧ (∀ q : PortId, q ≠ p → t.port q = s.port q) ∧
        ({ s with regs := t.regs, ports := t.ports, clk := t.clk } : State).EventsOnly t [mgtSrc 45, portSrc p.val 0] ∧ s.SameRegs t (rkey 0 (Off.CLK_PPLL_STAT + 16 * p.val) :: injKeys))) ∧
  (∀ (p : PortId) (s : State),
      s.MemOk →
      Does (.ppllRelock p) s (fun t => ({ s with regs := t.regs, clk := { s.clk with lost := s.clk.lost.set p false } } : State).EventsOnly t [mgtSrc 45] ∧ t.pllLock p = true ∧
        t.raisings (mgtSrc 45) = s.raisings (mgtSrc 45) + b2n s.clk.lost[p] ∧ s.SameRegs t (rkey 0 (Off.CLK_PPLL_STAT + 16 * p.val) :: injKeys))) ∧
  (∀ (c : CtxId) (p : PortId) (v : Word) (s : State),
      s.MemOk →
      s.Serves c (Off.CLK_PPLL_FREQ + 16 * p.val) true →
      (s.portState p = .off ∨ s.portState p = .loaded ∨ s.portState p = .armed ∨ s.portState p = .halted) →
      0x4000000 ≤ v.toNat →
      v.toNat ≤ 0x10000000 →
      Does (.clkPpllFreqWrite c p v) s (fun t => t = { s with regs := t.regs, ports := t.ports, jrnl := t.jrnl } ∧ t.eff 0 (Off.CLK_PPLL_FREQ + 16 * p.val) = v.toNat ∧ t.pllLock p = false ∧ s.SameRegs t [rkey 0 (Off.CLK_PPLL_FREQ + 16 * p.val), rkey 0 (Off.CLK_PPLL_STAT + 16 * p.val)] ∧
        (∀ q : PortId, q ≠ p → t.port q = s.port q) ∧ t.port p = { s.port p with gate := (t.port p).gate } ∧
        (∀ i : Fin 12, (t.port p).gate.pins[i] = (s.rf p.val Off.PRT_GCFG 11 0).testBit i.val) ∧ (t.port p).gate.queue = [] ∧ (t.port p).gate.lrefOn = false)) ∧
  (∀ (c : CtxId) (p : PortId) (v : Word) (s : State),
      s.Serves c (Off.CLK_PPLL_FREQ + 16 * p.val) true →
      (¬(s.portState p = .off ∨ s.portState p = .loaded ∨ s.portState p = .armed ∨ s.portState p = .halted) ∨ v.toNat < 0x4000000 ∨ 0x10000000 < v.toNat) →
      Does (.clkPpllFreqWrite c p v) s (fun t => t = s)) ∧
  (∀ (sys : Vector Nat 9) (ports : Vector Nat 16) (t0 : Nat) (s : State),
      s.MemOk →
      Does (.freqMonitor sys ports t0) s (fun t =>
        let freq (d : Fin 25) : Nat := if h : d.val < 9 then sys[d.val] else ports[d.val - 9]
        let rate (code : Nat) : Option (Nat × Nat) := ([none, some 2500, some 5000, some 8000, some 16000, some 32000, some 64000, some 128000].getD code none).map (fun r => (1000 * r, 1))
        let nominal (d : Fin 25) : Option (Nat × Nat) := ([some (100000, 1), some (400000, 1), (if s.link.up then rate s.link.rate else none), some (1000000, 1), some (1200000, 1),
          rate (((List.range 8).map (fun k => s.rf 0 (Off.TKS_DRV_STAT + 0x10 * k) 15 12)).foldl max 0), some (200000, 1), some (100000, 1), none][d.val]?).getD (some (s.eff 0 (Off.CLK_PPLL_FREQ + 16 * (d.val - 9)) * 100000, 2 ^ 24))
        let bad (d : Fin 25) : Bool := (nominal d).any (fun n => decide (n.1 < 1000 * ((freq d * n.2 : Int) - n.1).natAbs))
        (∀ d : Fin 25, t.eff 0 (Off.CLK_DOM_FREQ + 4 * d.val) = freq d % 2 ^ 32 ∧ t.rf 0 Off.CLK_DOM_OK d.val d.val = b2n (!bad d) ∧ t.rf 0 Off.CLK_DOM_FAULT d.val d.val = (if bad d then 1 else s.rf 0 Off.CLK_DOM_FAULT d.val d.val)) ∧
        t.raisings (mgtSrc 45) = s.raisings (mgtSrc 45) + ((List.finRange 25).filter (fun d => bad d && s.rf 0 Off.CLK_DOM_OK d.val d.val == 1)).length ∧
        ({ s with regs := t.regs, jrnl := t.jrnl, free := t.free, now := max s.now t0 } : State).EventsOnly t [mgtSrc 45] ∧
        s.SameRegs t (rkey 0 Off.CLK_DOM_OK :: rkey 0 Off.CLK_DOM_FAULT :: (List.finRange 25).map (fun (d : Fin 25) => rkey 0 (Off.CLK_DOM_FREQ + 4 * d.val)) ++ injKeys))) ∧
  (∀ (b : Fin 24) (up : Bool) (s : State),
      s.MemOk →
      16 ≤ b.val →
      ((18 ≤ b.val ∧ b.val ≠ 19) ∨ up = true ∨ s.rf 0 (Off.CLK_BANK + 4 * b.val) 31 31 = 0) →
      Does (.bankPowerChange b up) s (fun t => t = { s with regs := t.regs } ∧ s.SameRegs t [rkey 0 (Off.CLK_BANK + 4 * b.val)] ∧ t.rf 0 (Off.CLK_BANK + 4 * b.val) 31 31 = b2n up)) ∧
  (∀ (s : State),
      s.rf 0 (Off.CLK_BANK + 64) 31 31 = 1 →
      Does (.bankPowerChange 16 false) s (fun t => (∀ a : AxisId, ∀ j : Fin 4, ((t.axis a).sw[j]).raw = false) ∧ t.units = s.units ∧ t.ctxs = s.ctxs ∧ t.chans = s.chans ∧ t.engs = s.engs ∧ t.now = s.now ∧ (∀ a : AxisId, t.enOut a = none))) ∧
  (∀ (s : State),
      s.rf 0 (Off.CLK_BANK + 76) 31 31 = 1 →
      s.link.perst = true →
      Does (.bankPowerChange 19 false) s (fun t => t = { s with regs := t.regs, mot := { s.mot with stopLow := true } } ∧ t.rf 0 (Off.CLK_BANK + 76) 31 31 = 0 ∧ t.thermtripOut = none)) ∧
  (∀ (s : State),
      s.rf 0 (Off.CLK_BANK + 76) 31 31 = 1 →
      s.link.perst = false →
      Does (.bankPowerChange 19 false) s (fun t => t.mot = { s.mot with stopLow := true } ∧ t.link.perst = true ∧ t.link.up = false ∧ t.link.pci = PciSt.atReset ∧ (∀ c : CtxId, (t.ctxs[c]).zhp = 0 ∧ (t.ctxs[c]).enable = false) ∧ (∀ c : ChanId, (t.chan c).st = 0) ∧ t.ports = s.ports ∧ t.units = s.units ∧ t.axes = s.axes ∧ t.tbl = s.tbl ∧ t.now = s.now ∧ t.thermtripOut = none)) ∧
  (∀ (s : State),
      s.rf 0 (Off.CLK_BANK + 68) 31 31 = 1 →
      s.tks.cues = [] →
      (∀ g : GroupId, s.groups[g].armed = none) →
      Does (.bankPowerChange 17 false) s (fun t => (∀ a : AxisId, (t.axis a).encA = false ∧ (t.axis a).encB = false ∧ (t.axis a).encZ = false) ∧ (∀ m : Fin 2, t.mot.mA[m] = false ∧ t.mot.mB[m] = false ∧ t.mot.mZ[m] = false) ∧ t.ctxs = s.ctxs ∧ t.chans = s.chans ∧ t.tks = s.tks ∧ t.now = s.now)) ∧
  (∀ (b : Fin 24) (s : State) (p : PortId),
      s.MemOk →
      b.val = p.val →
      s.rf 0 (Off.CLK_BANK + 4 * b.val) 31 31 = 0 →
      Does (.bankPowerChange b true) s (fun t => t = { s with regs := t.regs, ports := t.ports } ∧ t.rf 0 (Off.CLK_BANK + 4 * b.val) 31 31 = 1 ∧ s.SameRegs t [rkey 0 (Off.CLK_BANK + 4 * b.val), rkey p.val Off.PRT_HEAD_STAT] ∧
        (∀ q : PortId, q ≠ p → t.port q = s.port q) ∧ t.port p = { s.port p with head := (t.port p).head } ∧ (t.port p).head.bankOk = true ∧ (t.port p).head.bankSeen = true ∧
        (if (s.port p).head.bankSeen then (t.port p).head.reading = (s.port p).head.reading ∧ t.eff p.val Off.PRT_HEAD_STAT = s.eff p.val Off.PRT_HEAD_STAT
          else (t.port p).head.reading = true ∧ t.rf p.val Off.PRT_HEAD_STAT 1 0 = 1))) ∧
  (∀ (b : Fin 24) (s : State) (p : PortId),
      s.MemOk →
      b.val = p.val →
      s.rf 0 (Off.CLK_BANK + 4 * b.val) 31 31 = 1 →
      Does (.bankPowerChange b false) s (fun t => t.rf 0 (Off.CLK_BANK + 4 * b.val) 31 31 = 0 ∧ (∀ q : PortId, q ≠ p → t.port q = s.port q) ∧ t.port p = { s.port p with head := (t.port p).head } ∧ (t.port p).head.bankOk = false ∧ (∀ i : Fin 12, t.pinOut p i = none) ∧ (∀ k : Fin 2, t.strobeOut p k = none) ∧
        s.SameRegs t (rkey 0 (Off.CLK_BANK + 4 * b.val) :: rkey p.val Off.PRT_HEAD_STAT :: injKeys) ∧ ({ s with regs := t.regs, ports := t.ports } : State).EventsOnly t [portSrc p.val 3] ∧
        (if (s.port p).head.present ∨ s.rf p.val Off.PRT_HEAD_STAT 1 0 ≠ 0 then (t.port p).head.present = false ∧ (t.port p).head.gone = decide (s.portState p = .running) ∧ t.eff p.val Off.PRT_HEAD_STAT = 0 ∧ t.raisings (portSrc p.val 3) = s.raisings (portSrc p.val 3) + 1
          else (t.port p).head = { (s.port p).head with bankOk := false } ∧ t.raisings (portSrc p.val 3) = s.raisings (portSrc p.val 3)))) ∧
  (∀ (b : Fin 24) (up : Bool) (s : State),
      s.MemOk →
      b.val < 16 →
      s.rf 0 (Off.CLK_BANK + 4 * b.val) 31 31 = b2n up →
      Does (.bankPowerChange b up) s (fun t => t = { s with regs := t.regs } ∧ s.SameRegs t [rkey 0 (Off.CLK_BANK + 4 * b.val)] ∧ t.rf 0 (Off.CLK_BANK + 4 * b.val) 31 31 = b2n up)) ∧
  (∀ (i : Fin 12) (temp : Nat) (s : State),
      (s.clk.tripped = true ∨ sgn 16 temp < 2000) →
      Does (.thermalTrip i temp) s (fun t => t = s)) ∧
  (∀ (i : Fin 12) (temp : Nat) (s : State),
      s.MemOk →
      s.clk.tripped = false →
      2000 ≤ sgn 16 temp →
      (∀ a : AxisId, (s.axis a).tblPend = false) →
      Does (.thermalTrip i temp) s (fun t => t = { s with clk := { s.clk with tripped := true }, axes := t.axes, ports := t.ports, aux := t.aux, regs := t.regs, jrnl := t.jrnl, free := t.free } ∧
        (∀ a : AxisId, t.axis a = { s.axis a with enabled := false, wind := (s.axis a).wind.map (fun w => { w with drive := false, o := 0, sigma := 0 }) } ∧ t.eff a.val Off.MOT_CHOP_STAT = 0) ∧ s.SameRegs t ((List.finRange 8).map (fun (a : AxisId) => rkey a.val Off.MOT_CHOP_STAT)) ∧ (∀ p : PortId, (∀ i : Fin 12, t.pinOut p i = none) ∧ (∀ k : Fin 2, t.strobeOut p k ≠ some true)) ∧ (∀ n : Fin 8, t.aux.exc[n] = { s.aux.exc[n] with on := false } ∧ t.excLevel n = 0) ∧ (∀ a : AxisId, t.enOut a ≠ some true) ∧ (∀ p : PortId, t.lrefCode p 0 = 0 ∧ t.lrefCode p 1 = 0) ∧ t.thermtripOut = (if s.bankUp 19 then some false else none) ∧ t.aux = { s.aux with exc := t.aux.exc } ∧
        (∀ p : PortId, t.port p = { s.port p with gate := (t.port p).gate } ∧ (t.port p).gate = { (s.port p).gate with strobes := (t.port p).gate.strobes, lrefOn := false, lrefSub := (t.port p).gate.lrefSub } ∧ (∀ k : Fin 2, (t.port p).gate.strobes[k] = false ∧ (t.port p).gate.lrefSub[k] = 0))))

/-- For every command and every state, exec answers a next state with the same queue; and for every state with a command at the front of its queue, a step answers a next state whose queue is the rest: no command faults or is refused, and none adds to, drops from or reorders the commands that wait. -/
def Obligations.EveryStepCompletes : Prop :=
  (∀ (c : Instr) (s : State), ∃ t, Sys2Proof.Machine.exec c s = .next t ∧ t.pending = s.pending) ∧
  (∀ (c : Instr) (rest : List Instr) (s : State), s.pending = c :: rest → ∃ t, step s = .next t ∧ t.pending = rest)

/-- If every sparse memory of the state (registers, tables, pending sources, raisings, MSI-X masks and pending bits, the script store, the microstep tables, the memories of the engines) is in its canonical form, keys rising and no entry at its default, then so it is after any step. -/
def Obligations.MemoriesStayCanonical : Prop :=
  ∀ (s t : State), s.MemOk → step s = .next t → t.MemOk

/-- If context 0 holds every right, it does after any step; if every selection of every context names a unit that the ZL9640 has, so it does after any step. -/
def Obligations.RightsAndSelectionsStayValid : Prop :=
  ∀ (s t : State), step s = .next t →
    ((s.ctxs[(0 : CtxId)]).owner → (t.ctxs[(0 : CtxId)]).owner) ∧ ((∀ c : CtxId, (s.ctxs[c]).selOk) → ∀ c : CtxId, (t.ctxs[c]).selOk)

/-- If every event queue holds, with the packet on its way into it, at most 64 words, so it does after any step; if the sequence numbers of the journal rise strictly and the next one is above them all, so it is after any step. -/
def Obligations.QueuesAndJournalStayOrdered : Prop :=
  ∀ (s t : State), step s = .next t →
    ((∀ q : QueueId, (s.queues[q]).words.length + (s.queues[q]).flight.length ≤ 64) →
      ∀ q : QueueId, (t.queues[q]).words.length + (t.queues[q]).flight.length ≤ 64) ∧ (s.jrnl.Ok → t.jrnl.Ok)

/-- A step of any command but SUPPLY_FAULT and POWER_ON_RESET leaves device time where it was or later, whatever times its operands name, a PTM correction included. (The two exceptions restart it at 0, log entry 120.) -/
def Obligations.TimeNeverRunsBack : Prop :=
  ∀ (c : Instr) (rest : List Instr) (s t : State), s.pending = c :: rest → c ≠ .supplyFault → (∀ b, c ≠ .powerOnReset b) → step s = .next t → s.now ≤ t.now

/-- Every block of 32 samples of 16 bits codes, in each of the modes 3 to 6, at some shift s ≤ 15, in exactly S bytes; at s = 15 every quantised difference lies in −2 to 2, which fits w = 3; every reconstructed sample, sample 0 too, lies within 2^(s−1) of the source, and equals it when s = 0; saturation at 0 or 65,535 only moves a value towards a sample. The decoder is that of R195. -/
def Obligations.EveryBlockCodesWithinItsBound : Prop :=
  (∀ (xs : List Nat) (mode : Nat), xs.length = 32 → (∀ x ∈ xs, x < 65536) → 3 ≤ mode → mode ≤ 6 →
    let r := encodeBlock xs mode
    r.2 ≤ 15 ∧ (tryBlock xs r.2 (codeWidth mode)).isSome = true ∧ r.1.length = codeBytes mode ∧ (decodeBlock r.1).length = 32 ∧
      ∀ j, j < 32 → (((xs.getD j 0 : Int) - ((decodeBlock r.1).getD j 0 : Int)).natAbs ≤ if r.2 = 0 then 0 else 2 ^ (r.2 - 1))) ∧
  (codeBytes 3 = 48 ∧ codeBytes 4 = 32 ∧ codeBytes 5 = 24 ∧ codeBytes 6 = 16 ∧ ∀ mode : Fin 7, 3 ≤ mode.val → codeWidth mode.val = (8 * codeBytes mode.val - 32) / 31) ∧
  (∀ x r : Nat, x < 65536 → r < 65536 → -2 ≤ Int.fdiv ((x : Int) - r + 2 ^ 14) (2 ^ 15) ∧ Int.fdiv ((x : Int) - r + 2 ^ 14) (2 ^ 15) ≤ 2) ∧
  (∀ (x : Nat) (v : Int), x < 65536 → ((x : Int) - satI v 0 65535).natAbs ≤ ((x : Int) - v).natAbs)
end

