-- ==== Sys2Proof/Laws/Admin.lean ====
section
/-! SUPPORT. What the service of an admin submission does: one that passes the checks of R426 has its effect and completes; one that a check
refuses completes with that status and nothing else. -/

namespace Sys2Proof.Machine

/-- Where every shadow agrees with its unit the audit of the targets does nothing (R378). -/
theorem State.auditTargets_agrees {s : State} {y : Submission} (h : s.Agrees y) : s.auditTargets y = s := by
  have one : ∀ l : List (Nat × Nat), (∀ e ∈ l, s.shadowState e.1 e.2 = s.ownState e.1 e.2) →
      l.foldl (fun t e => t.auditOne e.1 e.2 true) s = s := by
    intro l
    induction l with
    | nil => intro _; rfl
    | cons e t ih =>
      intro hl
      have he : s.auditOne e.1 e.2 true = s := if_pos (hl e List.mem_cons_self)
      rw [List.foldl_cons, he]
      exact ih (fun x hx => hl x (List.mem_cons_of_mem _ hx))
  exact one _ h

/-- A command that is accepted and that none of its own checks refuses has its effect, and completes with the result of it. -/
theorem State.admin_done {s : State} {c : CtxId} {d : AdmDesc} {y : Submission} {checks : List (Option AdmRes)}
    {effect : State → State × AdmRes} (h : s.Accepts c d y) (hc : firstSome checks = none) :
    s.admin c d y checks effect = (effect (s.send (s.subRead c))).1.complete c d.op y (effect (s.send (s.subRead c))).2 := by
  unfold State.admin
  rw [if_pos h.1, h.2.1]
  dsimp only
  rw [State.auditTargets_agrees h.2.2, hc]

/-- A command that is accepted and refused by one of its own checks completes with that refusal. -/
theorem State.admin_refused {s : State} {c : CtxId} {d : AdmDesc} {y : Submission} {checks : List (Option AdmRes)}
    {effect : State → State × AdmRes} {r : AdmRes} (h : s.Accepts c d y) (hc : firstSome checks = some r) :
    s.admin c d y checks effect = (s.send (s.subRead c)).complete c d.op y r := by
  unfold State.admin
  rw [if_pos h.1, h.2.1]
  dsimp only
  rw [State.auditTargets_agrees h.2.2, hc]

/-- A submission that is not served, and that no restart has cut short, does nothing. -/
theorem State.admin_waits {s : State} {c : CtxId} {d : AdmDesc} {y : Submission} {checks : List (Option AdmRes)}
    {effect : State → State × AdmRes} (h : s.served c = false) (hb : s.cutShort c y = false) : s.admin c d y checks effect = s := by
  unfold State.admin
  rw [if_neg (by rw [h]; decide), if_neg (by rw [hb]; decide)]

end Sys2Proof.Machine
end

