-- ==== Sys2Proof/Laws/Map.lean ====
section
/-! SUPPORT. What the sparse memories do: a write keeps the canonical form, a read after it gives what was written, and other
keys read as before. -/

namespace Sys2Proof.Machine

variable {α : Type} [DecidableEq α]

/-- A bound on the first key may be dropped. -/
theorem mwfFrom_none {d : Nat → α} {lo : Option Nat} {m : List (Nat × α)} (h : mwfFrom d lo m = true) : mwfFrom d none m = true := by
  cases m with
  | nil => rfl
  | cons e t =>
    obtain ⟨k, v⟩ := e
    simp only [mwfFrom, Bool.and_eq_true] at h ⊢
    exact ⟨⟨trivial, h.1.2⟩, h.2⟩

/-- A bound on the first key may be lowered. -/
theorem mwfFrom_lower {d : Nat → α} {a b : Nat} {m : List (Nat × α)} (hab : a ≤ b) (h : mwfFrom d (some b) m = true) :
    mwfFrom d (some a) m = true := by
  cases m with
  | nil => rfl
  | cons e t =>
    obtain ⟨k, v⟩ := e
    simp only [mwfFrom, Bool.and_eq_true, decide_eq_true_eq] at h ⊢
    exact ⟨⟨by omega, h.1.2⟩, h.2⟩

/-- A write keeps the canonical form, above a bound below the key. -/
theorem mput_wfFrom {d : Nat → α} (k : Nat) (v : α) :
    ∀ (m : List (Nat × α)) (lo : Option Nat), (∀ l, lo = some l → l < k) → mwfFrom d lo m = true →
      mwfFrom d lo (mput d k v m) = true := by
  intro m
  induction m with
  | nil =>
    intro lo hlo _
    unfold mput
    split
    · rfl
    · rename_i hv
      cases lo with
      | none => simp [mwfFrom, hv]
      | some l => simp [mwfFrom, hv, hlo l rfl]
  | cons e t ih =>
    intro lo hlo h
    obtain ⟨k', v'⟩ := e
    simp only [mwfFrom, Bool.and_eq_true] at h
    obtain ⟨⟨hl, hv'⟩, ht⟩ := h
    unfold mput
    split
    · rename_i hk
      split
      · simp only [mwfFrom, Bool.and_eq_true]; exact ⟨⟨hl, hv'⟩, ht⟩
      · rename_i hv
        simp only [mwfFrom, Bool.and_eq_true, decide_eq_true_eq]
        refine ⟨⟨?_, hv⟩, ⟨hk, of_decide_eq_true hv'⟩, ht⟩
        cases lo with
        | none => rfl
        | some l => simpa using hlo l rfl
    · split
      · rename_i hk
        subst hk
        split
        · cases lo with
          | none => exact mwfFrom_none ht
          | some l => exact mwfFrom_lower (by simpa using Nat.le_of_lt (hlo l rfl)) ht
        · rename_i hv
          simp only [mwfFrom, Bool.and_eq_true, decide_eq_true_eq]
          exact ⟨⟨hl, hv⟩, ht⟩
      · rename_i h1 h2
        simp only [mwfFrom, Bool.and_eq_true]
        refine ⟨⟨hl, hv'⟩, ih (some k') ?_ ht⟩
        intro l hl'
        cases hl'
        omega

/-- A write keeps the canonical form. -/
theorem mput_wf {d : Nat → α} {k : Nat} {v : α} {m : List (Nat × α)} (h : mwf d m = true) : mwf d (mput d k v m) = true :=
  mput_wfFrom k v m none (by simp) h

/-- Dropping entries keeps the canonical form, above a bound. -/
theorem mdrop_wfFrom {d : Nat → α} (p : Nat → Bool) :
    ∀ (m : List (Nat × α)) (lo : Option Nat), mwfFrom d lo m = true → mwfFrom d lo (mdrop p m) = true := by
  intro m
  induction m with
  | nil => intro lo _; rfl
  | cons e t ih =>
    intro lo h
    obtain ⟨k, v⟩ := e
    simp only [mwfFrom, Bool.and_eq_true] at h
    obtain ⟨⟨hl, hv⟩, ht⟩ := h
    have hk := ih (some k) ht
    by_cases hp : p k = true
    · have : mdrop p ((k, v) :: t) = mdrop p t := by simp [mdrop, hp]
      rw [this]
      cases lo with
      | none => exact mwfFrom_none hk
      | some l => exact mwfFrom_lower (by have := of_decide_eq_true hl; omega) hk
    · have : mdrop p ((k, v) :: t) = (k, v) :: mdrop p t := by simp [mdrop, hp]
      rw [this]
      simp only [mwfFrom, Bool.and_eq_true]
      exact ⟨⟨hl, hv⟩, hk⟩

/-- Dropping entries keeps the canonical form. -/
theorem mdrop_wf {d : Nat → α} {p : Nat → Bool} {m : List (Nat × α)} (h : mwf d m = true) : mwf d (mdrop p m) = true :=
  mdrop_wfFrom p m none h

/-- Keys above a bound are the default below it. -/
theorem mget_below {d : Nat → α} {k : Nat} : ∀ (m : List (Nat × α)) (b : Nat), k ≤ b → mwfFrom d (some b) m = true → mget d m k = d k := by
  intro m
  induction m with
  | nil => intros; rfl
  | cons e t ih =>
    intro b hb h
    obtain ⟨k', v⟩ := e
    simp only [mwfFrom, Bool.and_eq_true, decide_eq_true_eq] at h
    have : k' ≠ k := by omega
    simp only [mget, this, if_false]
    exact ih k' (by omega) h.2

/-- A read after a write to the same key gives what was written. -/
theorem mget_mput_same {d : Nat → α} {k : Nat} {v : α} : ∀ (m : List (Nat × α)) (lo : Option Nat), mwfFrom d lo m = true →
    mget d (mput d k v m) k = v := by
  intro m
  induction m with
  | nil =>
    intro lo _
    unfold mput
    split
    · rename_i h; simp [mget, h]
    · simp [mget]
  | cons e t ih =>
    intro lo h
    obtain ⟨k', v'⟩ := e
    simp only [mwfFrom, Bool.and_eq_true] at h
    unfold mput
    split
    · rename_i hk
      split
      · rename_i hv
        have : k' ≠ k := by omega
        simp only [mget, this, if_false]
        rw [mget_below t k' (by omega) h.2, hv]
      · simp [mget]
    · split
      · rename_i hk
        subst hk
        split
        · rename_i hv
          rw [mget_below t k (Nat.le_refl _) h.2, hv]
        · simp [mget]
      · rename_i h1 h2
        have : k' ≠ k := by omega
        simp only [mget, this, if_false]
        exact ih (some k') h.2

/-- A write leaves every other key alone. -/
theorem mget_mput_ne {d : Nat → α} {k j : Nat} {v : α} (hj : j ≠ k) : ∀ m : List (Nat × α), mget d (mput d k v m) j = mget d m j := by
  intro m
  induction m with
  | nil =>
    unfold mput
    split
    · rfl
    · simp [mget, Ne.symm hj]
  | cons e t ih =>
    obtain ⟨k', v'⟩ := e
    unfold mput
    split
    · split
      · rfl
      · simp [mget, Ne.symm hj]
    · split
      · rename_i hk
        subst hk
        split
        · simp [mget, Ne.symm hj]
        · simp [mget, Ne.symm hj]
      · simp only [mget]
        rw [ih]

/-- A read after a write (R5). -/
theorem mget_mput {d : Nat → α} {k j : Nat} {v : α} {m : List (Nat × α)} (h : mwf d m = true) :
    mget d (mput d k v m) j = if j = k then v else mget d m j := by
  split
  · rename_i hj; subst hj; exact mget_mput_same m none h
  · rename_i hj; exact mget_mput_ne hj m

/-- The canonical form above a bound, as a statement about the pairs. -/
theorem mwfFrom_iff {d : Nat → α} : ∀ (m : List (Nat × α)) (lo : Option Nat), mwfFrom d lo m = true ↔
    (m.Pairwise (fun x y => x.1 < y.1) ∧ (∀ e ∈ m, e.2 ≠ d e.1) ∧ ∀ l, lo = some l → ∀ e ∈ m, l < e.1) := by
  intro m
  induction m with
  | nil => intro lo; simp [mwfFrom]
  | cons e t ih =>
    intro lo
    obtain ⟨k, v⟩ := e
    have h := ih (some k)
    simp only [mwfFrom, Bool.and_eq_true, h, List.pairwise_cons, List.mem_cons, forall_eq_or_imp, Option.some.injEq, forall_eq']
    cases lo with
    | none => simp; tauto
    | some l =>
      simp only [Option.some.injEq, forall_eq', decide_eq_true_eq, ne_eq]
      constructor
      · rintro ⟨⟨h1, h2⟩, h3, h4, h5⟩
        exact ⟨⟨h5, h3⟩, ⟨h2, h4⟩, h1, fun a ha => Nat.lt_trans h1 (h5 a ha)⟩
      · rintro ⟨⟨h5, h3⟩, ⟨h2, h4⟩, h1, _⟩
        exact ⟨⟨h1, h2⟩, h3, h4, h5⟩

/-- The canonical form as a statement about the pairs: keys strictly rising, no pair the default. -/
theorem mwf_iff {d : Nat → α} {m : List (Nat × α)} :
    mwf d m = true ↔ (m.Pairwise (fun x y => x.1 < y.1) ∧ ∀ e ∈ m, e.2 ≠ d e.1) := by
  rw [mwf, mwfFrom_iff]
  simp

end Sys2Proof.Machine
end

