-- ==== Sys2Proof/Laws/Keeps.lean ====
section
/-! SUPPORT. What every operation keeps: the queue of commands, device time's order, the canonical memories, the owner's rights, the
selections, the bound of the event queues, the journal's order. One relation says it; it is reflexive and passes through
conditions and folds, so that one lemma per operation gives it for every command. -/

namespace Sys2Proof.Machine

/-- Every number that has a cue in `a` has one in `b`; asked where `kc` holds (of every command but those that take cues away). -/
def CuesKept (kc : Bool) (a b : TksSt) : Prop := kc = true → ∀ n, n ∈ a.cues.map Prod.fst → n ∈ b.cues.map Prod.fst

theorem CuesKept.off (a b : TksSt) : CuesKept false a b := fun h => nomatch h

variable {kc : Bool}

theorem CuesKept.same {a b : TksSt} (h : b.cues = a.cues) : CuesKept kc a b := fun _ _ hn => h ▸ hn

theorem CuesKept.refl (a : TksSt) : CuesKept kc a a := CuesKept.same rfl

theorem CuesKept.trans {a b c : TksSt} (x : CuesKept kc a b) (y : CuesKept kc b c) : CuesKept kc a c := fun h n hn => y h n (x h n hn)

/-- A change of the cues one by one, each under its number. -/
theorem CuesKept.map {a b : TksSt} {f : Nat × Cue → Nat × Cue} (h : b.cues = a.cues.map f) (hf : ∀ e, (f e).1 = e.1) : CuesKept kc a b := by
  intro _ n hn
  rw [h, List.map_map]
  have : Prod.fst ∘ f = Prod.fst := funext hf
  rw [this]
  exact hn

/-- A cue put in under its number. -/
theorem CuesKept.insert {a b : TksSt} {k : Nat} {q : Cue}
    (h : b.cues = a.cues.filter (fun e => decide (e.1 < k)) ++ [(k, q)] ++ a.cues.filter (fun e => decide (k < e.1))) : CuesKept kc a b := by
  intro _ n hn
  obtain ⟨e, he, rfl⟩ := List.mem_map.1 hn
  rw [h]
  rcases Nat.lt_trichotomy e.1 k with c | c | c
  · exact List.mem_map.2 ⟨e, by simp [he, c], rfl⟩
  · exact List.mem_map.2 ⟨(k, q), by simp, c.symm⟩
  · exact List.mem_map.2 ⟨e, by simp [he, c], rfl⟩

theorem CuesKept.ite {a x y : TksSt} {c : Prop} [Decidable c] (hx : CuesKept kc a x) (hy : CuesKept kc a y) :
    CuesKept kc a (if c then x else y) := by
  split <;> assumption

/-- What an operation that leads from `s` to `t` keeps. -/
structure Keeps (kc : Bool) (s t : State) : Prop where
  pending : t.pending = s.pending
  now : s.now ≤ t.now
  mem : s.MemOk → t.MemOk
  owner : (s.ctxs[(0 : CtxId)]).owner → (t.ctxs[(0 : CtxId)]).owner
  sel : (∀ c : CtxId, (s.ctxs[c]).selOk) → ∀ c : CtxId, (t.ctxs[c]).selOk
  queues : (∀ q : QueueId, (s.queues[q]).words.length + (s.queues[q]).flight.length ≤ 64) → ∀ q : QueueId, (t.queues[q]).words.length + (t.queues[q]).flight.length ≤ 64
  jrnl : s.jrnl.Ok → t.jrnl.Ok
  cues : CuesKept kc s.tks t.tks

/-- The first component of a result keeps it. -/
def Keeps1 {β : Type} (kc : Bool) (s : State) (q : State × β) : Prop := Keeps kc s q.1

/-- A command answers a next state that keeps it. -/
def OutKeeps (kc : Bool) (s : State) (o : Host.Outcome State Fault Refusal) : Prop := ∃ t, o = .next t ∧ Keeps kc s t

theorem Keeps.refl (s : State) : Keeps kc s s :=
  { pending := rfl, now := Nat.le_refl _, mem := id, owner := id, sel := id, queues := id, jrnl := id, cues := CuesKept.refl _ }

theorem Keeps.trans {s t u : State} (a : Keeps kc s t) (b : Keeps kc t u) : Keeps kc s u :=
  { pending := b.pending.trans a.pending, now := Nat.le_trans a.now b.now, mem := fun h => b.mem (a.mem h),
    owner := fun h => b.owner (a.owner h), sel := fun h => b.sel (a.sel h), queues := fun h => b.queues (a.queues h),
    jrnl := fun h => b.jrnl (a.jrnl h), cues := a.cues.trans b.cues }

/-- A sound state stays sound. -/
theorem Keeps.ok {s t : State} (k : Keeps kc s t) (h : s.Ok) : t.Ok :=
  { mem := k.mem h.mem, owner := k.owner h.owner, sel := k.sel h.sel, queues := k.queues h.queues, jrnl := k.jrnl h.jrnl }

/-- A change of fields that the relation does not speak of. -/
theorem Keeps.upd {s x : State} (h : Keeps kc s x) {free : Nat} {rdata : DWord} {bus : List BusOp} {units : Vector UnitSt 24}
    {groups : Vector Group 4} {faults : List FaultRec} {mgt : Mgt} {link : LinkSt} {ports : Vector PortSt 16}
    {chans : Vector ChanSt 64} {scripts : Vector ScriptSt 16} {axes : Vector AxisSt 8} {mot : MotSt} {aux : AuxSt}
    {clk : ClkSt} :
    Keeps kc s { x with free := free, rdata := rdata, bus := bus, units := units, groups := groups, faults := faults, mgt := mgt,
                        link := link, ports := ports, chans := chans, scripts := scripts, axes := axes, mot := mot,
                        aux := aux, clk := clk } :=
  h.trans
    { pending := rfl, now := Nat.le_refl _, mem := fun m => ⟨m.1, m.2, m.3, m.4, m.5, m.6, m.7, m.8, m.9, m.10⟩, owner := id, sel := id,
      queues := id, jrnl := id, cues := CuesKept.refl _ }

/-- A change of the take store that keeps the cues. -/
theorem Keeps.putTks {s x : State} {tks : TksSt} (h : Keeps kc s x) (hc : CuesKept kc x.tks tks) : Keeps kc s { x with tks := tks } :=
  h.trans
    { pending := rfl, now := Nat.le_refl _, mem := fun m => ⟨m.1, m.2, m.3, m.4, m.5, m.6, m.7, m.8, m.9, m.10⟩, owner := id, sel := id,
      queues := id, jrnl := id, cues := hc }

theorem Keeps.ite {s a b : State} {c : Prop} [Decidable c] (ha : c → Keeps kc s a) (hb : ¬c → Keeps kc s b) : Keeps kc s (if c then a else b) := by
  by_cases h : c
  · rw [if_pos h]; exact ha h
  · rw [if_neg h]; exact hb h

theorem Keeps.dite {s : State} {c : Prop} [Decidable c] {a : c → State} {b : ¬c → State} (ha : ∀ h, Keeps kc s (a h)) (hb : ∀ h, Keeps kc s (b h)) :
    Keeps kc s (if h : c then a h else b h) := by
  by_cases h : c
  · rw [dif_pos h]; exact ha h
  · rw [dif_neg h]; exact hb h

theorem Keeps.foldl {α : Type} {z : State} {f : State → α → State} (hf : ∀ t a, Keeps kc z t → Keeps kc z (f t a)) :
    ∀ (l : List α) (s : State), Keeps kc z s → Keeps kc z (l.foldl f s) := by
  intro l
  induction l with
  | nil => intro s h; exact h
  | cons a t ih => intro s h; exact ih _ (hf s a h)

theorem Keeps.elim {α : Type} {z b : State} {o : Option α} {f : α → State} (hb : Keeps kc z b) (hf : ∀ a, Keeps kc z (f a)) : Keeps kc z (o.elim b f) := by
  cases o with
  | none => exact hb
  | some a => exact hf a

theorem Keeps1.mk {β : Type} {s t : State} {b : β} (h : Keeps kc s t) : Keeps1 kc s (t, b) := h

theorem Keeps1.fst {β : Type} {s : State} {q : State × β} (h : Keeps1 kc s q) : Keeps kc s q.1 := h

theorem Keeps1.ite {β : Type} {s : State} {a b : State × β} {c : Prop} [Decidable c] (ha : c → Keeps1 kc s a) (hb : ¬c → Keeps1 kc s b) :
    Keeps1 kc s (if c then a else b) := by
  by_cases h : c
  · rw [if_pos h]; exact ha h
  · rw [if_neg h]; exact hb h

theorem Keeps1.foldl {α β : Type} {z : State} {f : State × β → α → State × β} (hf : ∀ t a, Keeps1 kc z t → Keeps1 kc z (f t a)) :
    ∀ (l : List α) (s : State × β), Keeps1 kc z s → Keeps1 kc z (l.foldl f s) := by
  intro l
  induction l with
  | nil => intro s h; exact h
  | cons a t ih => intro s h; exact ih _ (hf s a h)

theorem OutKeeps.next {s t : State} (h : Keeps kc s t) : OutKeeps kc s (.next t) := ⟨t, rfl, h⟩

theorem OutKeeps.ite {s : State} {a b : Host.Outcome State Fault Refusal} {c : Prop} [Decidable c] (ha : c → OutKeeps kc s a)
    (hb : ¬c → OutKeeps kc s b) : OutKeeps kc s (if c then a else b) := by
  by_cases h : c
  · rw [if_pos h]; exact ha h
  · rw [if_neg h]; exact hb h

/-- A number has a cue exactly if it is among the numbers of the cues. -/
theorem State.cue_isSome {s : State} {n : Nat} : (s.cue n).isSome = true ↔ n ∈ s.tks.cues.map Prod.fst := by
  unfold State.cue
  rw [Option.isSome_map, List.find?_isSome, List.mem_map]
  exact ⟨fun ⟨e, he, h⟩ => ⟨e, he, by simpa using h⟩, fun ⟨e, he, h⟩ => ⟨e, he, by simpa using h⟩⟩

/-- A number in use stays in use. -/
theorem Keeps.cue {s t : State} {n : Nat} (k : Keeps true s t) (h : (s.cue n).isSome = true) : (t.cue n).isSome = true :=
  State.cue_isSome.2 (k.cues rfl n (State.cue_isSome.1 h))

/-! ### The operations that change what the relation speaks of -/

theorem State.setCell_keeps {z s : State} (u off : Nat) (c : RegCell) (h : Keeps kc z s) : Keeps kc z (s.setCell u off c) :=
  h.trans
    { pending := rfl, now := Nat.le_refl _,
      mem := fun m => ⟨mput_wf m.1, m.2, m.3, m.4, m.5, m.6, m.7, m.8, m.9, m.10⟩, owner := id, sel := id, queues := id, jrnl := id, cues := CuesKept.refl _ }

theorem State.at_keeps {z s : State} (t : Nat) (h : Keeps kc z s) : Keeps kc z (s.at t) :=
  h.trans
    { pending := rfl, now := Nat.le_max_left _ _, mem := fun m => ⟨m.1, m.2, m.3, m.4, m.5, m.6, m.7, m.8, m.9, m.10⟩, owner := id,
      sel := id, queues := id, jrnl := id, cues := CuesKept.refl _ }

/-- A new device time that is not earlier. -/
theorem Keeps.later {s x : State} {n : Nat} (h : Keeps kc s x) (hn : x.now ≤ n) : Keeps kc s { x with now := n } :=
  h.trans
    { pending := rfl, now := hn, mem := fun m => ⟨m.1, m.2, m.3, m.4, m.5, m.6, m.7, m.8, m.9, m.10⟩, owner := id, sel := id,
      queues := id, jrnl := id, cues := CuesKept.refl _ }

/-- An entry added to a journal keeps its order. -/
theorem Journal.add_ok {j : Journal} (t : Nat) (e : JEntry) (h : j.Ok) : (j.add t e).Ok := by
  obtain ⟨hr, hb⟩ := h
  have hb' : ∀ x ∈ (j.ring ++ j.mem).map (fun e => e.seq), x < j.next := by
    intro x hx
    obtain ⟨y, hy, rfl⟩ := List.mem_map.1 hx
    exact hb y hy
  unfold Journal.add
  split
  · exact ⟨hr, fun e he => Nat.lt_succ_of_lt (hb e he)⟩
  · split
    · refine ⟨?_, ?_⟩
      · simp only [← List.append_assoc, List.map_append, List.pairwise_append, List.map_cons, List.map_nil] at hr ⊢
        refine ⟨hr, by simp, ?_⟩
        intro a ha b hb1
        have hbn : b = j.next := by simpa using hb1
        have : a < j.next := hb' a (by simpa using ha)
        omega
      · intro x hx
        simp only [← List.append_assoc, List.mem_append (s := j.ring ++ j.mem), List.mem_singleton] at hx
        rcases hx with hx | rfl
        · have := hb x hx; show _ < j.next + 1; omega
        · exact Nat.lt_succ_self _
    · refine ⟨?_, ?_⟩
      · simp only [← List.append_assoc, List.map_append, List.pairwise_append, List.map_cons, List.map_nil] at hr ⊢
        refine ⟨hr, by simp, ?_⟩
        intro a ha b hb1
        have hbn : b = j.next ∨ b = j.next + 1 := by simpa using hb1
        have : a < j.next := hb' a (by simpa using ha)
        omega
      · intro x hx
        simp only [← List.append_assoc, List.mem_append (s := j.ring ++ j.mem), List.mem_cons, List.not_mem_nil, or_false] at hx
        show _ < j.next + 2
        rcases hx with hx | rfl | rfl
        · have := hb x hx; omega
        · show j.next < j.next + 2; omega
        · show j.next + 1 < j.next + 2; omega

theorem State.journal_keeps {z s : State} (e : JEntry) (h : Keeps kc z s) : Keeps kc z (s.journal e) :=
  h.trans
    { pending := rfl, now := Nat.le_refl _, mem := fun m => ⟨m.1, m.2, m.3, m.4, m.5, m.6, m.7, m.8, m.9, m.10⟩, owner := id,
      sel := id, queues := id, jrnl := fun j => Journal.add_ok _ _ j, cues := CuesKept.refl _ }

theorem State.raiseOne_keeps {z s : State} (src : Nat) (items : List (Nat × Nat)) (h : Keeps kc z s) : Keeps kc z (s.raiseOne src items) := by
  refine h.trans ?_
  unfold State.raiseOne
  split
  · exact { pending := rfl, now := Nat.le_refl _,
            mem := fun m => ⟨m.1, m.2, mput_wf m.3, mput_wf m.4, m.5, m.6, m.7, m.8, m.9, m.10⟩, owner := id, sel := id, queues := id,
            jrnl := id, cues := CuesKept.refl _ }
  · exact { pending := rfl, now := Nat.le_refl _,
            mem := fun m => ⟨m.1, m.2, m.3, mput_wf m.4, m.5, m.6, m.7, m.8, m.9, m.10⟩, owner := id, sel := id, queues := id,
            jrnl := id, cues := CuesKept.refl _ }

/-- Setting one element of a vector keeps a property of all. -/
theorem vector_set_all {α : Type} {n : Nat} {P : α → Prop} {v : Vector α n} {i : Nat} (hi : i < n) {a : α} (hv : ∀ j : Fin n, P v[j])
    (ha : P a) : ∀ j : Fin n, P (v.set i a hi)[j] := by
  intro j
  have : (v.set i a hi)[j] = if i = j.val then a else v[j] := by
    show (v.set i a hi)[j.val] = _
    rw [Vector.getElem_set]
    rfl
  rw [this]
  split
  · exact ha
  · exact hv j

theorem State.updEng_keeps {z s : State} (e : EngId) (f : Eng → Eng) (hf : ∀ x : Eng, x.memOk → (f x).memOk) (h : Keeps kc z s) :
    Keeps kc z (s.updEng e f) :=
  h.trans
    { pending := rfl, now := Nat.le_refl _,
      mem := fun m => ⟨m.1, m.2, m.3, m.4, m.5, m.6, m.7, m.8, m.9, vector_set_all (P := Eng.memOk) e.isLt m.10 (hf _ (m.10 e))⟩,
      owner := id, sel := id, queues := id, jrnl := id, cues := CuesKept.refl _ }

/-- A change of a context that keeps its rights and selections. -/
theorem State.updCtx_keeps {z s : State} (c : CtxId) (f : Ctx → Ctx) (ho : c.val = 0 → ∀ x : Ctx, x.owner → (f x).owner)
    (hs : ∀ x : Ctx, x.selOk → (f x).selOk) (h : Keeps kc z s) : Keeps kc z (s.updCtx c f) := by
  refine h.trans ?_
  refine { pending := rfl, now := Nat.le_refl _, mem := fun m => ⟨m.1, m.2, m.3, m.4, m.5, m.6, m.7, m.8, m.9, m.10⟩,
           owner := ?_, sel := fun hx => vector_set_all (P := Ctx.selOk) c.isLt hx (hs _ (hx c)), queues := id, jrnl := id, cues := CuesKept.refl _ }
  intro hw
  show ((s.ctxs.set c (f s.ctxs[c]))[(0 : CtxId).val]).owner
  rw [Vector.getElem_set]
  split
  · rename_i hc
    have : c = 0 := Fin.ext hc
    subst this
    exact ho rfl _ hw
  · exact hw

theorem State.updQueue_keeps {z s : State} (q : QueueId) (f : EvQueue → EvQueue)
    (hf : (s.queues[q]).words.length + (s.queues[q]).flight.length ≤ 64 → (f s.queues[q]).words.length + (f s.queues[q]).flight.length ≤ 64) (h : Keeps kc z s) : Keeps kc z (s.updQueue q f) :=
  h.trans
    { pending := rfl, now := Nat.le_refl _, mem := fun m => ⟨m.1, m.2, m.3, m.4, m.5, m.6, m.7, m.8, m.9, m.10⟩, owner := id, sel := id,
      queues := fun hx => vector_set_all (P := fun x : EvQueue => x.words.length + x.flight.length ≤ 64) q.isLt hx (hf (hx q)), jrnl := id, cues := CuesKept.refl _ }

theorem State.setTbl_keeps {z s : State} (k v : Nat) (h : Keeps kc z s) : Keeps kc z (s.setTbl k v) :=
  h.trans
    { pending := rfl, now := Nat.le_refl _,
      mem := fun m => ⟨m.1, mput_wf m.2, m.3, m.4, m.5, m.6, m.7, m.8, m.9, m.10⟩, owner := id, sel := id, queues := id, jrnl := id, cues := CuesKept.refl _ }

/-- A write of the script store. -/
theorem Keeps.putStore {z s : State} {k : Nat} {v : Word} (h : Keeps kc z s) :
    Keeps kc z { s with store := mput (fun _ => 0) k v s.store } :=
  h.trans
    { pending := rfl, now := Nat.le_refl _,
      mem := fun m => ⟨m.1, m.2, m.3, m.4, m.5, m.6, mput_wf m.7, m.8, m.9, m.10⟩, owner := id, sel := id, queues := id, jrnl := id, cues := CuesKept.refl _ }

/-- A write of a next microstep table. -/
theorem Keeps.putMstep {z s : State} {k : Nat} {v : Word} (h : Keeps kc z s) :
    Keeps kc z { s with mstepNext := mput sineT k v s.mstepNext } :=
  h.trans
    { pending := rfl, now := Nat.le_refl _,
      mem := fun m => ⟨m.1, m.2, m.3, m.4, m.5, m.6, m.7, mput_wf m.8, m.9, m.10⟩, owner := id, sel := id, queues := id, jrnl := id, cues := CuesKept.refl _ }

/-- A pending source is taken off. -/
theorem Keeps.putPend {z s : State} {k : Nat} {v : Option Pend} (h : Keeps kc z s) : Keeps kc z { s with pend := mput noPend k v s.pend } :=
  h.trans
    { pending := rfl, now := Nat.le_refl _,
      mem := fun m => ⟨m.1, m.2, mput_wf m.3, m.4, m.5, m.6, m.7, m.8, m.9, m.10⟩, owner := id, sel := id, queues := id, jrnl := id, cues := CuesKept.refl _ }

/-- An MSI-X pending bit is written. -/
theorem Keeps.putMsiPend {z s : State} {k : Nat} {v : Bool} (h : Keeps kc z s) :
    Keeps kc z { s with msiPend := mput (fun _ => false) k v s.msiPend } :=
  h.trans
    { pending := rfl, now := Nat.le_refl _,
      mem := fun m => ⟨m.1, m.2, m.3, m.4, m.5, mput_wf m.6, m.7, m.8, m.9, m.10⟩, owner := id, sel := id, queues := id, jrnl := id, cues := CuesKept.refl _ }

/-- An MSI-X mask bit is written. -/
theorem Keeps.putMsiUnmasked {z s : State} {k : Nat} {v : Bool} (h : Keeps kc z s) :
    Keeps kc z { s with msiUnmasked := mput (fun _ => false) k v s.msiUnmasked } :=
  h.trans
    { pending := rfl, now := Nat.le_refl _,
      mem := fun m => ⟨m.1, m.2, m.3, m.4, mput_wf m.5, m.6, m.7, m.8, m.9, m.10⟩, owner := id, sel := id, queues := id, jrnl := id, cues := CuesKept.refl _ }

/-- MSI-X masks and pending bits return to masked and clear. -/
theorem Keeps.clearMsi {z s : State} (h : Keeps kc z s) : Keeps kc z { s with msiUnmasked := [], msiPend := [] } :=
  h.trans
    { pending := rfl, now := Nat.le_refl _,
      mem := fun m => ⟨m.1, m.2, m.3, m.4, rfl, rfl, m.7, m.8, m.9, m.10⟩, owner := id, sel := id, queues := id, jrnl := id, cues := CuesKept.refl _ }

/-- Another journal in order. -/
theorem Keeps.putJrnl {z s : State} {j : Journal} (hj : s.jrnl.Ok → j.Ok) (h : Keeps kc z s) : Keeps kc z { s with jrnl := j } :=
  h.trans
    { pending := rfl, now := Nat.le_refl _, mem := fun m => ⟨m.1, m.2, m.3, m.4, m.5, m.6, m.7, m.8, m.9, m.10⟩, owner := id, sel := id,
      queues := id, jrnl := hj, cues := CuesKept.refl _ }

/-! ### Engines -/

theorem Eng.memOk_of {x y : Eng} (h : x.memOk) (hi : y.imem = x.imem) (hp : y.param = x.param) (hs : y.scratch = x.scratch) : y.memOk := by
  unfold Eng.memOk
  rw [hi, hp, hs]
  exact h

@[simp] theorem Eng.set_imem (e : Eng) (r : BitVec 4) (v : Word) : (e.set r v).imem = e.imem := by unfold Eng.set; split <;> rfl
@[simp] theorem Eng.set_param (e : Eng) (r : BitVec 4) (v : Word) : (e.set r v).param = e.param := by unfold Eng.set; split <;> rfl
@[simp] theorem Eng.set_scratch (e : Eng) (r : BitVec 4) (v : Word) : (e.set r v).scratch = e.scratch := by unfold Eng.set; split <;> rfl

/-- A write of scratch. -/
theorem Eng.putScratch_memOk {x : Eng} (k : Nat) (v : Word) (h : x.memOk) : ({ x with scratch := mput (fun _ => 0) k v x.scratch }).memOk :=
  ⟨h.1, h.2.1, mput_wf h.2.2⟩

/-- A write of parameter memory. -/
theorem Eng.putParam_memOk {x : Eng} (k : Nat) (v : Word) (h : x.memOk) : ({ x with param := mput (fun _ => 0) k v x.param }).memOk :=
  ⟨h.1, mput_wf h.2.1, h.2.2⟩

theorem Eng.restart_memOk {x : Eng} (entry : Nat) (b : Bool) (h : x.memOk) : (x.restart entry b).memOk := by
  refine ⟨h.1, h.2.1, ?_⟩
  unfold Eng.restart
  cases b
  · exact h.2.2
  · rfl

end Sys2Proof.Machine
end

