-- ==== Sys2Proof/Laws/KeepsOps.lean ====
section
/-! SUPPORT. Every operation of Machine/Ops.lean keeps what `Keeps` says. -/

set_option linter.unusedTactic false
set_option linter.unreachableTactic false

namespace Sys2Proof.Machine

variable {kc : Bool}

/-- `State.setReg` keeps what `Keeps` says. -/
theorem State.setReg_keeps {z0 : State} {s : State} (u : Nat) (off : Nat) (v : Nat) (k_s : Keeps kc z0 s) : Keeps kc z0 (State.setReg s u off v) := by
  unfold State.setReg
  repeat' first
    | with_reducible assumption
    | with_reducible exact Keeps.refl _
    | with_reducible exact CuesKept.refl _
    | (with_reducible refine CuesKept.same ?_; rfl)
    | exact fun _ h => h
    | intro _
    | with_reducible refine Keeps.ite ?_ ?_
    | with_reducible refine Keeps.dite ?_ ?_
    | with_reducible refine Keeps.foldl ?_ _ _ ?_
    | with_reducible refine Keeps1.ite ?_ ?_
    | with_reducible refine Keeps1.mk ?_
    | with_reducible apply State.setCell_keeps
    | (refine Eng.memOk_of ‹Eng.memOk _› ?_ ?_ ?_ <;> first | rfl | (simp; done) | (split_ifs <;> simp; done))
    | with_reducible apply Eng.restart_memOk
    | exact Eng.putScratch_memOk _ _ ‹Eng.memOk _›
    | exact Eng.putParam_memOk _ _ ‹Eng.memOk _›
    | dsimp only
    | fail_if_no_progress with_reducible refine Keeps.upd ?_
    | split

/-- `State.setRf` keeps what `Keeps` says. -/
theorem State.setRf_keeps {z0 : State} {s : State} (u : Nat) (off : Nat) (hi : Nat) (lo : Nat) (x : Nat) (k_s : Keeps kc z0 s) : Keeps kc z0 (State.setRf s u off hi lo x) := by
  unfold State.setRf
  repeat' first
    | with_reducible assumption
    | with_reducible exact Keeps.refl _
    | with_reducible exact CuesKept.refl _
    | (with_reducible refine CuesKept.same ?_; rfl)
    | exact fun _ h => h
    | intro _
    | with_reducible refine Keeps.ite ?_ ?_
    | with_reducible refine Keeps.dite ?_ ?_
    | with_reducible refine Keeps.foldl ?_ _ _ ?_
    | with_reducible refine Keeps1.ite ?_ ?_
    | with_reducible refine Keeps1.mk ?_
    | with_reducible apply State.setCell_keeps
    | (refine Eng.memOk_of ‹Eng.memOk _› ?_ ?_ ?_ <;> first | rfl | (simp; done) | (split_ifs <;> simp; done))
    | with_reducible apply Eng.restart_memOk
    | exact Eng.putScratch_memOk _ _ ‹Eng.memOk _›
    | exact Eng.putParam_memOk _ _ ‹Eng.memOk _›
    | dsimp only
    | fail_if_no_progress with_reducible refine Keeps.upd ?_
    | split

/-- `State.incRf` keeps what `Keeps` says. -/
theorem State.incRf_keeps {z0 : State} {s : State} (u : Nat) (off : Nat) (hi : Nat) (lo : Nat) (n : Nat) (k_s : Keeps kc z0 s) : Keeps kc z0 (State.incRf s u off hi lo n) := by
  unfold State.incRf
  repeat' first
    | with_reducible assumption
    | with_reducible exact Keeps.refl _
    | with_reducible exact CuesKept.refl _
    | (with_reducible refine CuesKept.same ?_; rfl)
    | exact fun _ h => h
    | intro _
    | with_reducible refine Keeps.ite ?_ ?_
    | with_reducible refine Keeps.dite ?_ ?_
    | with_reducible refine Keeps.foldl ?_ _ _ ?_
    | with_reducible refine Keeps1.ite ?_ ?_
    | with_reducible refine Keeps1.mk ?_
    | with_reducible apply State.setRf_keeps
    | (refine Eng.memOk_of ‹Eng.memOk _› ?_ ?_ ?_ <;> first | rfl | (simp; done) | (split_ifs <;> simp; done))
    | with_reducible apply Eng.restart_memOk
    | exact Eng.putScratch_memOk _ _ ‹Eng.memOk _›
    | exact Eng.putParam_memOk _ _ ‹Eng.memOk _›
    | dsimp only
    | fail_if_no_progress with_reducible refine Keeps.upd ?_
    | split

/-- `State.setPair` keeps what `Keeps` says. -/
theorem State.setPair_keeps {z0 : State} {s : State} (u : Nat) (off : Nat) (v : Nat) (k_s : Keeps kc z0 s) : Keeps kc z0 (State.setPair s u off v) := by
  unfold State.setPair
  repeat' first
    | with_reducible assumption
    | with_reducible exact Keeps.refl _
    | with_reducible exact CuesKept.refl _
    | (with_reducible refine CuesKept.same ?_; rfl)
    | exact fun _ h => h
    | intro _
    | with_reducible refine Keeps.ite ?_ ?_
    | with_reducible refine Keeps.dite ?_ ?_
    | with_reducible refine Keeps.foldl ?_ _ _ ?_
    | with_reducible refine Keeps1.ite ?_ ?_
    | with_reducible refine Keeps1.mk ?_
    | with_reducible apply State.setReg_keeps
    | (refine Eng.memOk_of ‹Eng.memOk _› ?_ ?_ ?_ <;> first | rfl | (simp; done) | (split_ifs <;> simp; done))
    | with_reducible apply Eng.restart_memOk
    | exact Eng.putScratch_memOk _ _ ‹Eng.memOk _›
    | exact Eng.putParam_memOk _ _ ‹Eng.memOk _›
    | dsimp only
    | fail_if_no_progress with_reducible refine Keeps.upd ?_
    | split

/-- `State.tickFree` keeps what `Keeps` says. -/
theorem State.tickFree_keeps {z0 : State} {s : State} (k_s : Keeps kc z0 s) : Keeps kc z0 (State.tickFree s) := by
  unfold State.tickFree
  repeat' first
    | with_reducible assumption
    | with_reducible exact Keeps.refl _
    | with_reducible exact CuesKept.refl _
    | (with_reducible refine CuesKept.same ?_; rfl)
    | exact fun _ h => h
    | intro _
    | with_reducible refine Keeps.ite ?_ ?_
    | with_reducible refine Keeps.dite ?_ ?_
    | with_reducible refine Keeps.foldl ?_ _ _ ?_
    | with_reducible refine Keeps1.ite ?_ ?_
    | with_reducible refine Keeps1.mk ?_
    | (refine Eng.memOk_of ‹Eng.memOk _› ?_ ?_ ?_ <;> first | rfl | (simp; done) | (split_ifs <;> simp; done))
    | with_reducible apply Eng.restart_memOk
    | exact Eng.putScratch_memOk _ _ ‹Eng.memOk _›
    | exact Eng.putParam_memOk _ _ ‹Eng.memOk _›
    | dsimp only
    | fail_if_no_progress with_reducible refine Keeps.upd ?_
    | split

/-- `State.send` keeps what `Keeps` says. -/
theorem State.send_keeps {z0 : State} {s : State} (b : BusOp) (k_s : Keeps kc z0 s) : Keeps kc z0 (State.send s b) := by
  unfold State.send
  repeat' first
    | with_reducible assumption
    | with_reducible exact Keeps.refl _
    | with_reducible exact CuesKept.refl _
    | (with_reducible refine CuesKept.same ?_; rfl)
    | exact fun _ h => h
    | intro _
    | with_reducible refine Keeps.ite ?_ ?_
    | with_reducible refine Keeps.dite ?_ ?_
    | with_reducible refine Keeps.foldl ?_ _ _ ?_
    | with_reducible refine Keeps1.ite ?_ ?_
    | with_reducible refine Keeps1.mk ?_
    | (refine Eng.memOk_of ‹Eng.memOk _› ?_ ?_ ?_ <;> first | rfl | (simp; done) | (split_ifs <;> simp; done))
    | with_reducible apply Eng.restart_memOk
    | exact Eng.putScratch_memOk _ _ ‹Eng.memOk _›
    | exact Eng.putParam_memOk _ _ ‹Eng.memOk _›
    | dsimp only
    | fail_if_no_progress with_reducible refine Keeps.upd ?_
    | split

/-- `State.hostRead` keeps what `Keeps` says. -/
theorem State.hostRead_keeps {z0 : State} {s : State} (addr : Nat) (len : Nat) (k_s : Keeps kc z0 s) : Keeps kc z0 (State.hostRead s addr len) := by
  unfold State.hostRead
  repeat' first
    | with_reducible assumption
    | with_reducible exact Keeps.refl _
    | with_reducible exact CuesKept.refl _
    | (with_reducible refine CuesKept.same ?_; rfl)
    | exact fun _ h => h
    | intro _
    | with_reducible refine Keeps.ite ?_ ?_
    | with_reducible refine Keeps.dite ?_ ?_
    | with_reducible refine Keeps.foldl ?_ _ _ ?_
    | with_reducible refine Keeps1.ite ?_ ?_
    | with_reducible refine Keeps1.mk ?_
    | with_reducible apply State.send_keeps
    | (refine Eng.memOk_of ‹Eng.memOk _› ?_ ?_ ?_ <;> first | rfl | (simp; done) | (split_ifs <;> simp; done))
    | with_reducible apply Eng.restart_memOk
    | exact Eng.putScratch_memOk _ _ ‹Eng.memOk _›
    | exact Eng.putParam_memOk _ _ ‹Eng.memOk _›
    | dsimp only
    | fail_if_no_progress with_reducible refine Keeps.upd ?_
    | split

/-- `State.hostWrite` keeps what `Keeps` says. -/
theorem State.hostWrite_keeps {z0 : State} {s : State} (addr : Nat) (data : List Byte) (k_s : Keeps kc z0 s) : Keeps kc z0 (State.hostWrite s addr data) := by
  unfold State.hostWrite
  repeat' first
    | with_reducible assumption
    | with_reducible exact Keeps.refl _
    | with_reducible exact CuesKept.refl _
    | (with_reducible refine CuesKept.same ?_; rfl)
    | exact fun _ h => h
    | intro _
    | with_reducible refine Keeps.ite ?_ ?_
    | with_reducible refine Keeps.dite ?_ ?_
    | with_reducible refine Keeps.foldl ?_ _ _ ?_
    | with_reducible refine Keeps1.ite ?_ ?_
    | with_reducible refine Keeps1.mk ?_
    | with_reducible apply State.send_keeps
    | with_reducible apply State.memWrite_keeps
    | (refine Eng.memOk_of ‹Eng.memOk _› ?_ ?_ ?_ <;> first | rfl | (simp; done) | (split_ifs <;> simp; done))
    | with_reducible apply Eng.restart_memOk
    | exact Eng.putScratch_memOk _ _ ‹Eng.memOk _›
    | exact Eng.putParam_memOk _ _ ‹Eng.memOk _›
    | dsimp only
    | fail_if_no_progress with_reducible refine Keeps.upd ?_
    | split

/-- `State.injHold` keeps what `Keeps` says. -/
theorem State.injHold_keeps {z0 : State} {s : State} (n : Fin 4) (k_s : Keeps kc z0 s) : Keeps kc z0 (State.injHold s n) := by
  unfold State.injHold
  repeat' first
    | with_reducible assumption
    | with_reducible exact Keeps.refl _
    | with_reducible exact CuesKept.refl _
    | (with_reducible refine CuesKept.same ?_; rfl)
    | exact fun _ h => h
    | intro _
    | with_reducible refine Keeps.ite ?_ ?_
    | with_reducible refine Keeps.dite ?_ ?_
    | with_reducible refine Keeps.foldl ?_ _ _ ?_
    | with_reducible refine Keeps1.ite ?_ ?_
    | with_reducible refine Keeps1.mk ?_
    | (refine Eng.memOk_of ‹Eng.memOk _› ?_ ?_ ?_ <;> first | rfl | (simp; done) | (split_ifs <;> simp; done))
    | with_reducible apply Eng.restart_memOk
    | exact Eng.putScratch_memOk _ _ ‹Eng.memOk _›
    | exact Eng.putParam_memOk _ _ ‹Eng.memOk _›
    | dsimp only
    | fail_if_no_progress with_reducible refine Keeps.upd ?_
    | split

/-- `State.injLose` keeps what `Keeps` says. -/
theorem State.injLose_keeps {z0 : State} {s : State} (n : Fin 4) (k_s : Keeps kc z0 s) : Keeps kc z0 (State.injLose s n) := by
  unfold State.injLose
  repeat' first
    | with_reducible assumption
    | with_reducible exact Keeps.refl _
    | with_reducible exact CuesKept.refl _
    | (with_reducible refine CuesKept.same ?_; rfl)
    | exact fun _ h => h
    | intro _
    | with_reducible refine Keeps.ite ?_ ?_
    | with_reducible refine Keeps.dite ?_ ?_
    | with_reducible refine Keeps.foldl ?_ _ _ ?_
    | with_reducible refine Keeps1.ite ?_ ?_
    | with_reducible refine Keeps1.mk ?_
    | with_reducible apply State.incRf_keeps
    | with_reducible apply State.raiseOne_keeps
    | (refine Eng.memOk_of ‹Eng.memOk _› ?_ ?_ ?_ <;> first | rfl | (simp; done) | (split_ifs <;> simp; done))
    | with_reducible apply Eng.restart_memOk
    | exact Eng.putScratch_memOk _ _ ‹Eng.memOk _›
    | exact Eng.putParam_memOk _ _ ‹Eng.memOk _›
    | dsimp only
    | fail_if_no_progress with_reducible refine Keeps.upd ?_
    | split

/-- `State.injAgain` keeps what `Keeps` says. -/
theorem State.injAgain_keeps {z0 : State} {s : State} (n : Fin 4) (k_s : Keeps kc z0 s) : Keeps kc z0 (State.injAgain s n) := by
  unfold State.injAgain
  repeat' first
    | with_reducible assumption
    | with_reducible exact Keeps.refl _
    | with_reducible exact CuesKept.refl _
    | (with_reducible refine CuesKept.same ?_; rfl)
    | exact fun _ h => h
    | intro _
    | with_reducible refine Keeps.ite ?_ ?_
    | with_reducible refine Keeps.dite ?_ ?_
    | with_reducible refine Keeps.foldl ?_ _ _ ?_
    | with_reducible refine Keeps1.ite ?_ ?_
    | with_reducible refine Keeps1.mk ?_
    | with_reducible apply State.injLose_keeps
    | with_reducible apply State.injHold_keeps
    | (refine Eng.memOk_of ‹Eng.memOk _› ?_ ?_ ?_ <;> first | rfl | (simp; done) | (split_ifs <;> simp; done))
    | with_reducible apply Eng.restart_memOk
    | exact Eng.putScratch_memOk _ _ ‹Eng.memOk _›
    | exact Eng.putParam_memOk _ _ ‹Eng.memOk _›
    | dsimp only
    | fail_if_no_progress with_reducible refine Keeps.upd ?_
    | split

/-- `State.injRequest` keeps what `Keeps` says. -/
theorem State.injRequest_keeps {z0 : State} {s : State} (n : Fin 4) (k_s : Keeps kc z0 s) : Keeps kc z0 (State.injRequest s n) := by
  unfold State.injRequest
  repeat' first
    | with_reducible assumption
    | with_reducible exact Keeps.refl _
    | with_reducible exact CuesKept.refl _
    | (with_reducible refine CuesKept.same ?_; rfl)
    | exact fun _ h => h
    | intro _
    | with_reducible refine Keeps.ite ?_ ?_
    | with_reducible refine Keeps.dite ?_ ?_
    | with_reducible refine Keeps.foldl ?_ _ _ ?_
    | with_reducible refine Keeps1.ite ?_ ?_
    | with_reducible refine Keeps1.mk ?_
    | with_reducible apply State.injAgain_keeps
    | with_reducible apply State.injLose_keeps
    | with_reducible apply State.injHold_keeps
    | (refine Eng.memOk_of ‹Eng.memOk _› ?_ ?_ ?_ <;> first | rfl | (simp; done) | (split_ifs <;> simp; done))
    | with_reducible apply Eng.restart_memOk
    | exact Eng.putScratch_memOk _ _ ‹Eng.memOk _›
    | exact Eng.putParam_memOk _ _ ‹Eng.memOk _›
    | dsimp only
    | fail_if_no_progress with_reducible refine Keeps.upd ?_
    | split

/-- `State.raise` keeps what `Keeps` says. -/
theorem State.raise_keeps {z0 : State} {s : State} (src : Nat) (items : List (Nat × Nat)) (k_s : Keeps kc z0 s) : Keeps kc z0 (State.raise s src items) := by
  unfold State.raise
  repeat' first
    | with_reducible assumption
    | with_reducible exact Keeps.refl _
    | with_reducible exact CuesKept.refl _
    | (with_reducible refine CuesKept.same ?_; rfl)
    | exact fun _ h => h
    | intro _
    | with_reducible refine Keeps.ite ?_ ?_
    | with_reducible refine Keeps.dite ?_ ?_
    | with_reducible refine Keeps.foldl ?_ _ _ ?_
    | with_reducible refine Keeps1.ite ?_ ?_
    | with_reducible refine Keeps1.mk ?_
    | with_reducible apply State.injRequest_keeps
    | with_reducible apply State.raiseOne_keeps
    | (refine Eng.memOk_of ‹Eng.memOk _› ?_ ?_ ?_ <;> first | rfl | (simp; done) | (split_ifs <;> simp; done))
    | with_reducible apply Eng.restart_memOk
    | exact Eng.putScratch_memOk _ _ ‹Eng.memOk _›
    | exact Eng.putParam_memOk _ _ ‹Eng.memOk _›
    | dsimp only
    | fail_if_no_progress with_reducible refine Keeps.upd ?_
    | split

/-- `State.updPort` keeps what `Keeps` says. -/
theorem State.updPort_keeps {z0 : State} {s : State} (p : PortId) (f : PortSt → PortSt) (k_s : Keeps kc z0 s) : Keeps kc z0 (State.updPort s p f) := by
  unfold State.updPort
  repeat' first
    | with_reducible assumption
    | with_reducible exact Keeps.refl _
    | with_reducible exact CuesKept.refl _
    | (with_reducible refine CuesKept.same ?_; rfl)
    | exact fun _ h => h
    | intro _
    | with_reducible refine Keeps.ite ?_ ?_
    | with_reducible refine Keeps.dite ?_ ?_
    | with_reducible refine Keeps.foldl ?_ _ _ ?_
    | with_reducible refine Keeps1.ite ?_ ?_
    | with_reducible refine Keeps1.mk ?_
    | (refine Eng.memOk_of ‹Eng.memOk _› ?_ ?_ ?_ <;> first | rfl | (simp; done) | (split_ifs <;> simp; done))
    | with_reducible apply Eng.restart_memOk
    | exact Eng.putScratch_memOk _ _ ‹Eng.memOk _›
    | exact Eng.putParam_memOk _ _ ‹Eng.memOk _›
    | dsimp only
    | fail_if_no_progress with_reducible refine Keeps.upd ?_
    | split

/-- `State.updConv` keeps what `Keeps` says. -/
theorem State.updConv_keeps {z0 : State} {s : State} (p : PortId) (t : Fin 16) (f : ConvSt → ConvSt) (k_s : Keeps kc z0 s) : Keeps kc z0 (State.updConv s p t f) := by
  unfold State.updConv
  repeat' first
    | with_reducible assumption
    | with_reducible exact Keeps.refl _
    | with_reducible exact CuesKept.refl _
    | (with_reducible refine CuesKept.same ?_; rfl)
    | exact fun _ h => h
    | intro _
    | with_reducible refine Keeps.ite ?_ ?_
    | with_reducible refine Keeps.dite ?_ ?_
    | with_reducible refine Keeps.foldl ?_ _ _ ?_
    | with_reducible refine Keeps1.ite ?_ ?_
    | with_reducible refine Keeps1.mk ?_
    | with_reducible apply State.updPort_keeps
    | (refine Eng.memOk_of ‹Eng.memOk _› ?_ ?_ ?_ <;> first | rfl | (simp; done) | (split_ifs <;> simp; done))
    | with_reducible apply Eng.restart_memOk
    | exact Eng.putScratch_memOk _ _ ‹Eng.memOk _›
    | exact Eng.putParam_memOk _ _ ‹Eng.memOk _›
    | dsimp only
    | fail_if_no_progress with_reducible refine Keeps.upd ?_
    | split

/-- `State.swapOne` keeps what `Keeps` says. -/
theorem State.swapOne_keeps {z0 : State} {s : State} (p : PortId) (t : Fin 16) (k_s : Keeps kc z0 s) : Keeps kc z0 (State.swapOne s p t) := by
  unfold State.swapOne
  repeat' first
    | with_reducible assumption
    | with_reducible exact Keeps.refl _
    | with_reducible exact CuesKept.refl _
    | (with_reducible refine CuesKept.same ?_; rfl)
    | exact fun _ h => h
    | intro _
    | with_reducible refine Keeps.ite ?_ ?_
    | with_reducible refine Keeps.dite ?_ ?_
    | with_reducible refine Keeps.foldl ?_ _ _ ?_
    | with_reducible refine Keeps1.ite ?_ ?_
    | with_reducible refine Keeps1.mk ?_
    | with_reducible apply State.updConv_keeps
    | with_reducible apply State.setReg_keeps
    | (refine Eng.memOk_of ‹Eng.memOk _› ?_ ?_ ?_ <;> first | rfl | (simp; done) | (split_ifs <;> simp; done))
    | with_reducible apply Eng.restart_memOk
    | exact Eng.putScratch_memOk _ _ ‹Eng.memOk _›
    | exact Eng.putParam_memOk _ _ ‹Eng.memOk _›
    | dsimp only
    | fail_if_no_progress with_reducible refine Keeps.upd ?_
    | split

/-- `State.trySwap` keeps what `Keeps` says. -/
theorem State.trySwap_keeps {z0 : State} {s : State} (p : PortId) (t : Fin 16) (now : Bool) (k_s : Keeps kc z0 s) : Keeps kc z0 (State.trySwap s p t now) := by
  unfold State.trySwap
  repeat' first
    | with_reducible assumption
    | with_reducible exact Keeps.refl _
    | with_reducible exact CuesKept.refl _
    | (with_reducible refine CuesKept.same ?_; rfl)
    | exact fun _ h => h
    | intro _
    | with_reducible refine Keeps.ite ?_ ?_
    | with_reducible refine Keeps.dite ?_ ?_
    | with_reducible refine Keeps.foldl ?_ _ _ ?_
    | with_reducible refine Keeps1.ite ?_ ?_
    | with_reducible refine Keeps1.mk ?_
    | with_reducible apply State.swapOne_keeps
    | (refine Eng.memOk_of ‹Eng.memOk _› ?_ ?_ ?_ <;> first | rfl | (simp; done) | (split_ifs <;> simp; done))
    | with_reducible apply Eng.restart_memOk
    | exact Eng.putScratch_memOk _ _ ‹Eng.memOk _›
    | exact Eng.putParam_memOk _ _ ‹Eng.memOk _›
    | dsimp only
    | fail_if_no_progress with_reducible refine Keeps.upd ?_
    | split

/-- `State.updUnit` keeps what `Keeps` says. -/
theorem State.updUnit_keeps {z0 : State} {s : State} (u : UnitId) (f : UnitSt → UnitSt) (k_s : Keeps kc z0 s) : Keeps kc z0 (State.updUnit s u f) := by
  unfold State.updUnit
  repeat' first
    | with_reducible assumption
    | with_reducible exact Keeps.refl _
    | with_reducible exact CuesKept.refl _
    | (with_reducible refine CuesKept.same ?_; rfl)
    | exact fun _ h => h
    | intro _
    | with_reducible refine Keeps.ite ?_ ?_
    | with_reducible refine Keeps.dite ?_ ?_
    | with_reducible refine Keeps.foldl ?_ _ _ ?_
    | with_reducible refine Keeps1.ite ?_ ?_
    | with_reducible refine Keeps1.mk ?_
    | (refine Eng.memOk_of ‹Eng.memOk _› ?_ ?_ ?_ <;> first | rfl | (simp; done) | (split_ifs <;> simp; done))
    | with_reducible apply Eng.restart_memOk
    | exact Eng.putScratch_memOk _ _ ‹Eng.memOk _›
    | exact Eng.putParam_memOk _ _ ‹Eng.memOk _›
    | dsimp only
    | fail_if_no_progress with_reducible refine Keeps.upd ?_
    | split

/-- `State.updGroup` keeps what `Keeps` says. -/
theorem State.updGroup_keeps {z0 : State} {s : State} (g : GroupId) (f : Group → Group) (k_s : Keeps kc z0 s) : Keeps kc z0 (State.updGroup s g f) := by
  unfold State.updGroup
  repeat' first
    | with_reducible assumption
    | with_reducible exact Keeps.refl _
    | with_reducible exact CuesKept.refl _
    | (with_reducible refine CuesKept.same ?_; rfl)
    | exact fun _ h => h
    | intro _
    | with_reducible refine Keeps.ite ?_ ?_
    | with_reducible refine Keeps.dite ?_ ?_
    | with_reducible refine Keeps.foldl ?_ _ _ ?_
    | with_reducible refine Keeps1.ite ?_ ?_
    | with_reducible refine Keeps1.mk ?_
    | (refine Eng.memOk_of ‹Eng.memOk _› ?_ ?_ ?_ <;> first | rfl | (simp; done) | (split_ifs <;> simp; done))
    | with_reducible apply Eng.restart_memOk
    | exact Eng.putScratch_memOk _ _ ‹Eng.memOk _›
    | exact Eng.putParam_memOk _ _ ‹Eng.memOk _›
    | dsimp only
    | fail_if_no_progress with_reducible refine Keeps.upd ?_
    | split

/-- `State.updMgt` keeps what `Keeps` says. -/
theorem State.updMgt_keeps {z0 : State} {s : State} (f : Mgt → Mgt) (k_s : Keeps kc z0 s) : Keeps kc z0 (State.updMgt s f) := by
  unfold State.updMgt
  repeat' first
    | with_reducible assumption
    | with_reducible exact Keeps.refl _
    | with_reducible exact CuesKept.refl _
    | (with_reducible refine CuesKept.same ?_; rfl)
    | exact fun _ h => h
    | intro _
    | with_reducible refine Keeps.ite ?_ ?_
    | with_reducible refine Keeps.dite ?_ ?_
    | with_reducible refine Keeps.foldl ?_ _ _ ?_
    | with_reducible refine Keeps1.ite ?_ ?_
    | with_reducible refine Keeps1.mk ?_
    | (refine Eng.memOk_of ‹Eng.memOk _› ?_ ?_ ?_ <;> first | rfl | (simp; done) | (split_ifs <;> simp; done))
    | with_reducible apply Eng.restart_memOk
    | exact Eng.putScratch_memOk _ _ ‹Eng.memOk _›
    | exact Eng.putParam_memOk _ _ ‹Eng.memOk _›
    | dsimp only
    | fail_if_no_progress with_reducible refine Keeps.upd ?_
    | split

/-- `State.leaveSwaps` keeps what `Keeps` says. -/
theorem State.leaveSwaps_keeps {z0 : State} {s : State} (u : UnitId) (old : UState) (new : UState) (k_s : Keeps kc z0 s) : Keeps kc z0 (State.leaveSwaps s u old new) := by
  unfold State.leaveSwaps
  repeat' first
    | with_reducible assumption
    | with_reducible exact Keeps.refl _
    | with_reducible exact CuesKept.refl _
    | (with_reducible refine CuesKept.same ?_; rfl)
    | exact fun _ h => h
    | intro _
    | with_reducible refine Keeps.ite ?_ ?_
    | with_reducible refine Keeps.dite ?_ ?_
    | with_reducible refine Keeps.foldl ?_ _ _ ?_
    | with_reducible refine Keeps1.ite ?_ ?_
    | with_reducible refine Keeps1.mk ?_
    | with_reducible apply State.trySwap_keeps
    | (refine Eng.memOk_of ‹Eng.memOk _› ?_ ?_ ?_ <;> first | rfl | (simp; done) | (split_ifs <;> simp; done))
    | with_reducible apply Eng.restart_memOk
    | exact Eng.putScratch_memOk _ _ ‹Eng.memOk _›
    | exact Eng.putParam_memOk _ _ ‹Eng.memOk _›
    | dsimp only
    | fail_if_no_progress with_reducible refine Keeps.upd ?_
    | split

/-- `State.abortCap` keeps what `Keeps` says. -/
theorem State.abortCap_keeps {z0 : State} {s : State} (p : PortId) (cause : Nat) (k_s : Keeps kc z0 s) : Keeps kc z0 (State.abortCap s p cause) := by
  unfold State.abortCap
  repeat' first
    | with_reducible assumption
    | with_reducible exact Keeps.refl _
    | with_reducible exact CuesKept.refl _
    | (with_reducible refine CuesKept.same ?_; rfl)
    | exact fun _ h => h
    | intro _
    | with_reducible refine Keeps.ite ?_ ?_
    | with_reducible refine Keeps.dite ?_ ?_
    | with_reducible refine Keeps.foldl ?_ _ _ ?_
    | with_reducible refine Keeps1.ite ?_ ?_
    | with_reducible refine Keeps1.mk ?_
    | with_reducible apply State.updPort_keeps
    | with_reducible apply State.setRf_keeps
    | with_reducible apply State.raise_keeps
    | (refine Eng.memOk_of ‹Eng.memOk _› ?_ ?_ ?_ <;> first | rfl | (simp; done) | (split_ifs <;> simp; done))
    | with_reducible apply Eng.restart_memOk
    | exact Eng.putScratch_memOk _ _ ‹Eng.memOk _›
    | exact Eng.putParam_memOk _ _ ‹Eng.memOk _›
    | dsimp only
    | fail_if_no_progress with_reducible refine Keeps.upd ?_
    | split

/-- `State.leaveCap` keeps what `Keeps` says. -/
theorem State.leaveCap_keeps {z0 : State} {s : State} (u : UnitId) (old : UState) (new : UState) (k_s : Keeps kc z0 s) : Keeps kc z0 (State.leaveCap s u old new) := by
  unfold State.leaveCap
  repeat' first
    | with_reducible assumption
    | with_reducible exact Keeps.refl _
    | with_reducible exact CuesKept.refl _
    | (with_reducible refine CuesKept.same ?_; rfl)
    | exact fun _ h => h
    | intro _
    | with_reducible refine Keeps.ite ?_ ?_
    | with_reducible refine Keeps.dite ?_ ?_
    | with_reducible refine Keeps.foldl ?_ _ _ ?_
    | with_reducible refine Keeps1.ite ?_ ?_
    | with_reducible refine Keeps1.mk ?_
    | with_reducible apply State.abortCap_keeps
    | (refine Eng.memOk_of ‹Eng.memOk _› ?_ ?_ ?_ <;> first | rfl | (simp; done) | (split_ifs <;> simp; done))
    | with_reducible apply Eng.restart_memOk
    | exact Eng.putScratch_memOk _ _ ‹Eng.memOk _›
    | exact Eng.putParam_memOk _ _ ‹Eng.memOk _›
    | dsimp only
    | fail_if_no_progress with_reducible refine Keeps.upd ?_
    | split

/-- `State.idleOuts` keeps what `Keeps` says. -/
theorem State.idleOuts_keeps {z0 : State} {s : State} (p : PortId) (k_s : Keeps kc z0 s) : Keeps kc z0 (State.idleOuts s p) := by
  unfold State.idleOuts
  repeat' first
    | with_reducible assumption
    | with_reducible exact Keeps.refl _
    | with_reducible exact CuesKept.refl _
    | (with_reducible refine CuesKept.same ?_; rfl)
    | exact fun _ h => h
    | intro _
    | with_reducible refine Keeps.ite ?_ ?_
    | with_reducible refine Keeps.dite ?_ ?_
    | with_reducible refine Keeps.foldl ?_ _ _ ?_
    | with_reducible refine Keeps1.ite ?_ ?_
    | with_reducible refine Keeps1.mk ?_
    | with_reducible apply State.updPort_keeps
    | (refine Eng.memOk_of ‹Eng.memOk _› ?_ ?_ ?_ <;> first | rfl | (simp; done) | (split_ifs <;> simp; done))
    | with_reducible apply Eng.restart_memOk
    | exact Eng.putScratch_memOk _ _ ‹Eng.memOk _›
    | exact Eng.putParam_memOk _ _ ‹Eng.memOk _›
    | dsimp only
    | fail_if_no_progress with_reducible refine Keeps.upd ?_
    | split

/-- `State.edgeOuts` keeps what `Keeps` says. -/
theorem State.edgeOuts_keeps {z0 : State} {s : State} (u : UnitId) (old : UState) (new : UState) (k_s : Keeps kc z0 s) : Keeps kc z0 (State.edgeOuts s u old new) := by
  unfold State.edgeOuts
  repeat' first
    | with_reducible assumption
    | with_reducible exact Keeps.refl _
    | with_reducible exact CuesKept.refl _
    | (with_reducible refine CuesKept.same ?_; rfl)
    | exact fun _ h => h
    | intro _
    | with_reducible refine Keeps.ite ?_ ?_
    | with_reducible refine Keeps.dite ?_ ?_
    | with_reducible refine Keeps.foldl ?_ _ _ ?_
    | with_reducible refine Keeps1.ite ?_ ?_
    | with_reducible refine Keeps1.mk ?_
    | with_reducible apply State.idleOuts_keeps
    | (refine Eng.memOk_of ‹Eng.memOk _› ?_ ?_ ?_ <;> first | rfl | (simp; done) | (split_ifs <;> simp; done))
    | with_reducible apply Eng.restart_memOk
    | exact Eng.putScratch_memOk _ _ ‹Eng.memOk _›
    | exact Eng.putParam_memOk _ _ ‹Eng.memOk _›
    | dsimp only
    | fail_if_no_progress with_reducible refine Keeps.upd ?_
    | split

/-- `State.moveState` keeps what `Keeps` says. -/
theorem State.moveState_keeps {z0 : State} {s : State} (u : UnitId) (new : UState) (cause : Nat) (k_s : Keeps kc z0 s) : Keeps kc z0 (State.moveState s u new cause) := by
  unfold State.moveState
  repeat' first
    | with_reducible assumption
    | with_reducible exact Keeps.refl _
    | with_reducible exact CuesKept.refl _
    | (with_reducible refine CuesKept.same ?_; rfl)
    | exact fun _ h => h
    | intro _
    | with_reducible refine Keeps.ite ?_ ?_
    | with_reducible refine Keeps.dite ?_ ?_
    | with_reducible refine Keeps.foldl ?_ _ _ ?_
    | with_reducible refine Keeps1.ite ?_ ?_
    | with_reducible refine Keeps1.mk ?_
    | with_reducible apply State.updUnit_keeps
    | with_reducible apply State.raise_keeps
    | with_reducible apply State.journal_keeps
    | with_reducible apply State.code_keeps
    | (refine Eng.memOk_of ‹Eng.memOk _› ?_ ?_ ?_ <;> first | rfl | (simp; done) | (split_ifs <;> simp; done))
    | with_reducible apply Eng.restart_memOk
    | exact Eng.putScratch_memOk _ _ ‹Eng.memOk _›
    | exact Eng.putParam_memOk _ _ ‹Eng.memOk _›
    | dsimp only
    | fail_if_no_progress with_reducible refine Keeps.upd ?_
    | split

/-- `State.cutDone` keeps what `Keeps` says. -/
theorem State.cutDone_keeps {z0 : State} {s : State} (g : Nat) (u : UnitId) (k_s : Keeps kc z0 s) : Keeps kc z0 (State.cutDone s g u) := by
  unfold State.cutDone
  repeat' first
    | with_reducible assumption
    | with_reducible exact Keeps.refl _
    | with_reducible exact CuesKept.refl _
    | (with_reducible refine CuesKept.same ?_; rfl)
    | exact fun _ h => h
    | intro _
    | with_reducible refine Keeps.ite ?_ ?_
    | with_reducible refine Keeps.dite ?_ ?_
    | with_reducible refine Keeps.foldl ?_ _ _ ?_
    | with_reducible refine Keeps1.ite ?_ ?_
    | with_reducible refine Keeps1.mk ?_
    | with_reducible apply State.updGroup_keeps
    | (refine Eng.memOk_of ‹Eng.memOk _› ?_ ?_ ?_ <;> first | rfl | (simp; done) | (split_ifs <;> simp; done))
    | with_reducible apply Eng.restart_memOk
    | exact Eng.putScratch_memOk _ _ ‹Eng.memOk _›
    | exact Eng.putParam_memOk _ _ ‹Eng.memOk _›
    | dsimp only
    | fail_if_no_progress with_reducible refine Keeps.upd ?_
    | split

/-- `State.cutStarted` keeps what `Keeps` says. -/
theorem State.cutStarted_keeps {z0 : State} {s : State} (u : UnitId) (k_s : Keeps kc z0 s) : Keeps kc z0 (State.cutStarted s u) := by
  unfold State.cutStarted
  repeat' first
    | with_reducible assumption
    | with_reducible exact Keeps.refl _
    | with_reducible exact CuesKept.refl _
    | (with_reducible refine CuesKept.same ?_; rfl)
    | exact fun _ h => h
    | intro _
    | with_reducible refine Keeps.ite ?_ ?_
    | with_reducible refine Keeps.dite ?_ ?_
    | with_reducible refine Keeps.foldl ?_ _ _ ?_
    | with_reducible refine Keeps1.ite ?_ ?_
    | with_reducible refine Keeps1.mk ?_
    | (refine Eng.memOk_of ‹Eng.memOk _› ?_ ?_ ?_ <;> first | rfl | (simp; done) | (split_ifs <;> simp; done))
    | with_reducible apply Eng.restart_memOk
    | exact Eng.putScratch_memOk _ _ ‹Eng.memOk _›
    | exact Eng.putParam_memOk _ _ ‹Eng.memOk _›
    | dsimp only
    | fail_if_no_progress with_reducible refine Keeps.upd ?_
    | split

/-- `State.putBack` keeps what `Keeps` says. -/
theorem State.putBack_keeps {z0 : State} {s : State} (u : UnitId) (k_s : Keeps kc z0 s) : Keeps kc z0 (State.putBack s u) := by
  unfold State.putBack
  repeat' first
    | with_reducible assumption
    | with_reducible exact Keeps.refl _
    | with_reducible exact CuesKept.refl _
    | (with_reducible refine CuesKept.same ?_; rfl)
    | exact fun _ h => h
    | intro _
    | with_reducible refine Keeps.ite ?_ ?_
    | with_reducible refine Keeps.dite ?_ ?_
    | with_reducible refine Keeps.foldl ?_ _ _ ?_
    | with_reducible refine Keeps1.ite ?_ ?_
    | with_reducible refine Keeps1.mk ?_
    | with_reducible apply State.setCell_keeps
    | with_reducible apply State.updUnit_keeps
    | (refine Eng.memOk_of ‹Eng.memOk _› ?_ ?_ ?_ <;> first | rfl | (simp; done) | (split_ifs <;> simp; done))
    | with_reducible apply Eng.restart_memOk
    | exact Eng.putScratch_memOk _ _ ‹Eng.memOk _›
    | exact Eng.putParam_memOk _ _ ‹Eng.memOk _›
    | dsimp only
    | fail_if_no_progress with_reducible refine Keeps.upd ?_
    | split

/-- `State.stageCut` keeps what `Keeps` says. -/
theorem State.stageCut_keeps {z0 : State} {s : State} (u : UnitId) (k : Nat) (k_s : Keeps kc z0 s) : Keeps kc z0 (State.stageCut s u k) := by
  unfold State.stageCut
  repeat' first
    | with_reducible assumption
    | with_reducible exact Keeps.refl _
    | with_reducible exact CuesKept.refl _
    | (with_reducible refine CuesKept.same ?_; rfl)
    | exact fun _ h => h
    | intro _
    | with_reducible refine Keeps.ite ?_ ?_
    | with_reducible refine Keeps.dite ?_ ?_
    | with_reducible refine Keeps.foldl ?_ _ _ ?_
    | with_reducible refine Keeps1.ite ?_ ?_
    | with_reducible refine Keeps1.mk ?_
    | with_reducible apply State.putBack_keeps
    | with_reducible apply State.setCell_keeps
    | with_reducible apply State.updUnit_keeps
    | (refine Eng.memOk_of ‹Eng.memOk _› ?_ ?_ ?_ <;> first | rfl | (simp; done) | (split_ifs <;> simp; done))
    | with_reducible apply Eng.restart_memOk
    | exact Eng.putScratch_memOk _ _ ‹Eng.memOk _›
    | exact Eng.putParam_memOk _ _ ‹Eng.memOk _›
    | dsimp only
    | fail_if_no_progress with_reducible refine Keeps.upd ?_
    | split

/-- `State.applyDue` keeps what `Keeps` says. -/
theorem State.applyDue_keeps {z0 : State} {s : State} (u : UnitId) (now : Nat → Bool) (k_s : Keeps kc z0 s) : Keeps kc z0 (State.applyDue s u now) := by
  unfold State.applyDue
  repeat' first
    | with_reducible assumption
    | with_reducible exact Keeps.refl _
    | with_reducible exact CuesKept.refl _
    | (with_reducible refine CuesKept.same ?_; rfl)
    | exact fun _ h => h
    | intro _
    | with_reducible refine Keeps.ite ?_ ?_
    | with_reducible refine Keeps.dite ?_ ?_
    | with_reducible refine Keeps.foldl ?_ _ _ ?_
    | with_reducible refine Keeps1.ite ?_ ?_
    | with_reducible refine Keeps1.mk ?_
    | with_reducible apply State.setCell_keeps
    | with_reducible apply State.updUnit_keeps
    | (refine Eng.memOk_of ‹Eng.memOk _› ?_ ?_ ?_ <;> first | rfl | (simp; done) | (split_ifs <;> simp; done))
    | with_reducible apply Eng.restart_memOk
    | exact Eng.putScratch_memOk _ _ ‹Eng.memOk _›
    | exact Eng.putParam_memOk _ _ ‹Eng.memOk _›
    | dsimp only
    | with_reducible refine Keeps.elim ?_ ?_
    | fail_if_no_progress with_reducible refine Keeps.upd ?_
    | split

/-- `State.takeIdle` keeps what `Keeps` says. -/
theorem State.takeIdle_keeps {z0 : State} {s : State} (u : UnitId) (k_s : Keeps kc z0 s) : Keeps kc z0 (State.takeIdle s u) := by
  unfold State.takeIdle
  repeat' first
    | with_reducible assumption
    | with_reducible exact Keeps.refl _
    | with_reducible exact CuesKept.refl _
    | (with_reducible refine CuesKept.same ?_; rfl)
    | exact fun _ h => h
    | intro _
    | with_reducible refine Keeps.ite ?_ ?_
    | with_reducible refine Keeps.dite ?_ ?_
    | with_reducible refine Keeps.foldl ?_ _ _ ?_
    | with_reducible refine Keeps1.ite ?_ ?_
    | with_reducible refine Keeps1.mk ?_
    | with_reducible apply State.stageCut_keeps
    | with_reducible apply State.updUnit_keeps
    | with_reducible apply State.moveState_keeps
    | (refine Eng.memOk_of ‹Eng.memOk _› ?_ ?_ ?_ <;> first | rfl | (simp; done) | (split_ifs <;> simp; done))
    | with_reducible apply Eng.restart_memOk
    | exact Eng.putScratch_memOk _ _ ‹Eng.memOk _›
    | exact Eng.putParam_memOk _ _ ‹Eng.memOk _›
    | dsimp only
    | fail_if_no_progress with_reducible refine Keeps.upd ?_
    | split

/-- `State.setUState` keeps what `Keeps` says. -/
theorem State.setUState_keeps {z0 : State} {s : State} (u : UnitId) (new : UState) (cause : Nat) (k_s : Keeps kc z0 s) : Keeps kc z0 (State.setUState s u new cause) := by
  unfold State.setUState
  repeat' first
    | with_reducible assumption
    | with_reducible exact Keeps.refl _
    | with_reducible exact CuesKept.refl _
    | (with_reducible refine CuesKept.same ?_; rfl)
    | exact fun _ h => h
    | intro _
    | with_reducible refine Keeps.ite ?_ ?_
    | with_reducible refine Keeps.dite ?_ ?_
    | with_reducible refine Keeps.foldl ?_ _ _ ?_
    | with_reducible refine Keeps1.ite ?_ ?_
    | with_reducible refine Keeps1.mk ?_
    | with_reducible apply State.leaveSwaps_keeps
    | with_reducible apply State.leaveCap_keeps
    | with_reducible apply State.edgeOuts_keeps
    | with_reducible apply State.moveState_keeps
    | with_reducible apply State.putBack_keeps
    | with_reducible apply State.takeIdle_keeps
    | with_reducible apply State.cutDone_keeps
    | with_reducible apply State.cutStarted_keeps
    | (refine Eng.memOk_of ‹Eng.memOk _› ?_ ?_ ?_ <;> first | rfl | (simp; done) | (split_ifs <;> simp; done))
    | with_reducible apply Eng.restart_memOk
    | exact Eng.putScratch_memOk _ _ ‹Eng.memOk _›
    | exact Eng.putParam_memOk _ _ ‹Eng.memOk _›
    | dsimp only
    | fail_if_no_progress with_reducible refine Keeps.upd ?_
    | split

/-- `State.unarmUnit` keeps what `Keeps` says. -/
theorem State.unarmUnit_keeps {z0 : State} {s : State} (u : UnitId) (k_s : Keeps kc z0 s) : Keeps kc z0 (State.unarmUnit s u) := by
  unfold State.unarmUnit
  repeat' first
    | with_reducible assumption
    | with_reducible exact Keeps.refl _
    | with_reducible exact CuesKept.refl _
    | (with_reducible refine CuesKept.same ?_; rfl)
    | exact fun _ h => h
    | intro _
    | with_reducible refine Keeps.ite ?_ ?_
    | with_reducible refine Keeps.dite ?_ ?_
    | with_reducible refine Keeps.foldl ?_ _ _ ?_
    | with_reducible refine Keeps1.ite ?_ ?_
    | with_reducible refine Keeps1.mk ?_
    | with_reducible apply State.updUnit_keeps
    | with_reducible apply State.setUState_keeps
    | (refine Eng.memOk_of ‹Eng.memOk _› ?_ ?_ ?_ <;> first | rfl | (simp; done) | (split_ifs <;> simp; done))
    | with_reducible apply Eng.restart_memOk
    | exact Eng.putScratch_memOk _ _ ‹Eng.memOk _›
    | exact Eng.putParam_memOk _ _ ‹Eng.memOk _›
    | dsimp only
    | fail_if_no_progress with_reducible refine Keeps.upd ?_
    | split

/-- `State.disarm` keeps what `Keeps` says. -/
theorem State.disarm_keeps {z0 : State} {s : State} (g : GroupId) (k_s : Keeps kc z0 s) : Keeps kc z0 (State.disarm s g) := by
  unfold State.disarm
  repeat' first
    | with_reducible assumption
    | with_reducible exact Keeps.refl _
    | with_reducible exact CuesKept.refl _
    | (with_reducible refine CuesKept.same ?_; rfl)
    | exact fun _ h => h
    | intro _
    | with_reducible refine Keeps.ite ?_ ?_
    | with_reducible refine Keeps.dite ?_ ?_
    | with_reducible refine Keeps.foldl ?_ _ _ ?_
    | with_reducible refine Keeps1.ite ?_ ?_
    | with_reducible refine Keeps1.mk ?_
    | with_reducible apply State.updGroup_keeps
    | with_reducible apply State.unarmUnit_keeps
    | (refine Eng.memOk_of ‹Eng.memOk _› ?_ ?_ ?_ <;> first | rfl | (simp; done) | (split_ifs <;> simp; done))
    | with_reducible apply Eng.restart_memOk
    | exact Eng.putScratch_memOk _ _ ‹Eng.memOk _›
    | exact Eng.putParam_memOk _ _ ‹Eng.memOk _›
    | dsimp only
    | fail_if_no_progress with_reducible refine Keeps.upd ?_
    | split

/-- `State.dropCuts` keeps what `Keeps` says. -/
theorem State.dropCuts_keeps {z0 : State} {s : State} (p : PortId) (k_s : Keeps kc z0 s) : Keeps kc z0 (State.dropCuts s p) := by
  unfold State.dropCuts
  repeat' first
    | with_reducible assumption
    | with_reducible exact Keeps.refl _
    | with_reducible exact CuesKept.refl _
    | (with_reducible refine CuesKept.same ?_; rfl)
    | exact fun _ h => h
    | intro _
    | with_reducible refine Keeps.ite ?_ ?_
    | with_reducible refine Keeps.dite ?_ ?_
    | with_reducible refine Keeps.foldl ?_ _ _ ?_
    | with_reducible refine Keeps1.ite ?_ ?_
    | with_reducible refine Keeps1.mk ?_
    | with_reducible apply State.disarm_keeps
    | with_reducible apply State.raise_keeps
    | (refine Eng.memOk_of ‹Eng.memOk _› ?_ ?_ ?_ <;> first | rfl | (simp; done) | (split_ifs <;> simp; done))
    | with_reducible apply Eng.restart_memOk
    | exact Eng.putScratch_memOk _ _ ‹Eng.memOk _›
    | exact Eng.putParam_memOk _ _ ‹Eng.memOk _›
    | dsimp only
    | fail_if_no_progress with_reducible refine Keeps.upd ?_
    | split

/-- `State.setPortState` keeps what `Keeps` says. -/
theorem State.setPortState_keeps {z0 : State} {s : State} (p : PortId) (new : UState) (cause : Nat) (k_s : Keeps kc z0 s) : Keeps kc z0 (State.setPortState s p new cause) := by
  unfold State.setPortState
  repeat' first
    | with_reducible assumption
    | with_reducible exact Keeps.refl _
    | with_reducible exact CuesKept.refl _
    | (with_reducible refine CuesKept.same ?_; rfl)
    | exact fun _ h => h
    | intro _
    | with_reducible refine Keeps.ite ?_ ?_
    | with_reducible refine Keeps.dite ?_ ?_
    | with_reducible refine Keeps.foldl ?_ _ _ ?_
    | with_reducible refine Keeps1.ite ?_ ?_
    | with_reducible refine Keeps1.mk ?_
    | with_reducible apply State.setUState_keeps
    | with_reducible apply State.dropCuts_keeps
    | (refine Eng.memOk_of ‹Eng.memOk _› ?_ ?_ ?_ <;> first | rfl | (simp; done) | (split_ifs <;> simp; done))
    | with_reducible apply Eng.restart_memOk
    | exact Eng.putScratch_memOk _ _ ‹Eng.memOk _›
    | exact Eng.putParam_memOk _ _ ‹Eng.memOk _›
    | dsimp only
    | fail_if_no_progress with_reducible refine Keeps.upd ?_
    | split

/-- `State.changeUnit` keeps what `Keeps` says. -/
theorem State.changeUnit_keeps {z0 : State} {s : State} (u : UnitId) (new : UState) (cause : Nat) (k_s : Keeps kc z0 s) : Keeps kc z0 (State.changeUnit s u new cause) := by
  unfold State.changeUnit
  repeat' first
    | with_reducible assumption
    | with_reducible exact Keeps.refl _
    | with_reducible exact CuesKept.refl _
    | (with_reducible refine CuesKept.same ?_; rfl)
    | exact fun _ h => h
    | intro _
    | with_reducible refine Keeps.ite ?_ ?_
    | with_reducible refine Keeps.dite ?_ ?_
    | with_reducible refine Keeps.foldl ?_ _ _ ?_
    | with_reducible refine Keeps1.ite ?_ ?_
    | with_reducible refine Keeps1.mk ?_
    | with_reducible apply State.setPortState_keeps
    | with_reducible apply State.setUState_keeps
    | (refine Eng.memOk_of ‹Eng.memOk _› ?_ ?_ ?_ <;> first | rfl | (simp; done) | (split_ifs <;> simp; done))
    | with_reducible apply Eng.restart_memOk
    | exact Eng.putScratch_memOk _ _ ‹Eng.memOk _›
    | exact Eng.putParam_memOk _ _ ‹Eng.memOk _›
    | dsimp only
    | fail_if_no_progress with_reducible refine Keeps.upd ?_
    | split

/-- `State.faultOuts` keeps what `Keeps` says. -/
theorem State.faultOuts_keeps {z0 : State} {s : State} (f : FaultRec) (k_s : Keeps kc z0 s) : Keeps kc z0 (State.faultOuts s f) := by
  unfold State.faultOuts
  repeat' first
    | with_reducible assumption
    | with_reducible exact Keeps.refl _
    | with_reducible exact CuesKept.refl _
    | (with_reducible refine CuesKept.same ?_; rfl)
    | exact fun _ h => h
    | intro _
    | with_reducible refine Keeps.ite ?_ ?_
    | with_reducible refine Keeps.dite ?_ ?_
    | with_reducible refine Keeps.foldl ?_ _ _ ?_
    | with_reducible refine Keeps1.ite ?_ ?_
    | with_reducible refine Keeps1.mk ?_
    | with_reducible apply State.code_keeps
    | with_reducible apply State.trySwap_keeps
    | with_reducible apply State.idleOuts_keeps
    | (refine Eng.memOk_of ‹Eng.memOk _› ?_ ?_ ?_ <;> first | rfl | (simp; done) | (split_ifs <;> simp; done))
    | with_reducible apply Eng.restart_memOk
    | exact Eng.putScratch_memOk _ _ ‹Eng.memOk _›
    | exact Eng.putParam_memOk _ _ ‹Eng.memOk _›
    | dsimp only
    | fail_if_no_progress with_reducible refine Keeps.upd ?_
    | split

/-- `State.detect` keeps what `Keeps` says. -/
theorem State.detect_keeps {z0 : State} {s : State} (f : FaultRec) (k_s : Keeps kc z0 s) : Keeps kc z0 (State.detect s f) := by
  unfold State.detect
  repeat' first
    | with_reducible assumption
    | with_reducible exact Keeps.refl _
    | with_reducible exact CuesKept.refl _
    | (with_reducible refine CuesKept.same ?_; rfl)
    | exact fun _ h => h
    | intro _
    | with_reducible refine Keeps.ite ?_ ?_
    | with_reducible refine Keeps.dite ?_ ?_
    | with_reducible refine Keeps.foldl ?_ _ _ ?_
    | with_reducible refine Keeps1.ite ?_ ?_
    | with_reducible refine Keeps1.mk ?_
    | with_reducible apply State.faultOuts_keeps
    | with_reducible apply State.updUnit_keeps
    | with_reducible apply State.setUState_keeps
    | (refine Eng.memOk_of ‹Eng.memOk _› ?_ ?_ ?_ <;> first | rfl | (simp; done) | (split_ifs <;> simp; done))
    | with_reducible apply Eng.restart_memOk
    | exact Eng.putScratch_memOk _ _ ‹Eng.memOk _›
    | exact Eng.putParam_memOk _ _ ‹Eng.memOk _›
    | dsimp only
    | fail_if_no_progress with_reducible refine Keeps.upd ?_
    | split

end Sys2Proof.Machine
end

