-- ==== Sys2Proof/Laws/KeepsUnits.lean ====
section
/-! SUPPORT. Every operation of Machine/Units.lean keeps what `Keeps` says. -/

set_option linter.unusedTactic false
set_option linter.unreachableTactic false

namespace Sys2Proof.Machine

variable {kc : Bool}

/-- `State.updScript` keeps what `Keeps` says. -/
theorem State.updScript_keeps {z0 : State} {s : State} (c : ScriptId) (f : ScriptSt → ScriptSt) (k_s : Keeps kc z0 s) : Keeps kc z0 (State.updScript s c f) := by
  unfold State.updScript
  repeat' first
    | with_reducible assumption
    | with_reducible exact Keeps.refl _
    | with_reducible exact CuesKept.refl _
    | (with_reducible refine CuesKept.same ?_; rfl)
    | exact fun _ h => h
    | intro _
    | with_reducible refine Keeps.ite ?_ ?_
    | with_reducible refine Keeps.dite ?_ ?_
    | with_reducible refine Keeps.foldl ?_ _ _ ?_
    | with_reducible refine Keeps1.ite ?_ ?_
    | with_reducible refine Keeps1.mk ?_
    | (refine Eng.memOk_of ‹Eng.memOk _› ?_ ?_ ?_ <;> first | rfl | (simp; done) | (split_ifs <;> simp; done))
    | with_reducible apply Eng.restart_memOk
    | exact Eng.putScratch_memOk _ _ ‹Eng.memOk _›
    | exact Eng.putParam_memOk _ _ ‹Eng.memOk _›
    | dsimp only
    | fail_if_no_progress with_reducible refine Keeps.upd ?_
    | split

/-- `State.dropQuiet` keeps what `Keeps` says. -/
theorem State.dropQuiet_keeps {z0 : State} {s : State} (p : PortId) (st : Stage) (k_s : Keeps kc z0 s) : Keeps kc z0 (State.dropQuiet s p st) := by
  unfold State.dropQuiet
  repeat' first
    | with_reducible assumption
    | with_reducible exact Keeps.refl _
    | with_reducible exact CuesKept.refl _
    | (with_reducible refine CuesKept.same ?_; rfl)
    | exact fun _ h => h
    | intro _
    | with_reducible refine Keeps.ite ?_ ?_
    | with_reducible refine Keeps.dite ?_ ?_
    | with_reducible refine Keeps.foldl ?_ _ _ ?_
    | with_reducible refine Keeps1.ite ?_ ?_
    | with_reducible refine Keeps1.mk ?_
    | with_reducible apply State.updPort_keeps
    | (refine Eng.memOk_of ‹Eng.memOk _› ?_ ?_ ?_ <;> first | rfl | (simp; done) | (split_ifs <;> simp; done))
    | with_reducible apply Eng.restart_memOk
    | exact Eng.putScratch_memOk _ _ ‹Eng.memOk _›
    | exact Eng.putParam_memOk _ _ ‹Eng.memOk _›
    | dsimp only
    | fail_if_no_progress with_reducible refine Keeps.upd ?_
    | split

/-- `State.dropLine` keeps what `Keeps` says. -/
theorem State.dropLine_keeps {z0 : State} {s : State} (p : PortId) (st : Stage) (cause : Nat) (k_s : Keeps kc z0 s) : Keeps kc z0 (State.dropLine s p st cause) := by
  unfold State.dropLine
  repeat' first
    | with_reducible assumption
    | with_reducible exact Keeps.refl _
    | with_reducible exact CuesKept.refl _
    | (with_reducible refine CuesKept.same ?_; rfl)
    | exact fun _ h => h
    | intro _
    | with_reducible refine Keeps.ite ?_ ?_
    | with_reducible refine Keeps.dite ?_ ?_
    | with_reducible refine Keeps.foldl ?_ _ _ ?_
    | with_reducible refine Keeps1.ite ?_ ?_
    | with_reducible refine Keeps1.mk ?_
    | with_reducible apply State.dropQuiet_keeps
    | with_reducible apply State.raise_keeps
    | (refine Eng.memOk_of ‹Eng.memOk _› ?_ ?_ ?_ <;> first | rfl | (simp; done) | (split_ifs <;> simp; done))
    | with_reducible apply Eng.restart_memOk
    | exact Eng.putScratch_memOk _ _ ‹Eng.memOk _›
    | exact Eng.putParam_memOk _ _ ‹Eng.memOk _›
    | dsimp only
    | fail_if_no_progress with_reducible refine Keeps.upd ?_
    | split

/-- `State.journalXfer` keeps what `Keeps` says. -/
theorem State.journalXfer_keeps {z0 : State} {s : State} (c : ScriptId) (k_s : Keeps kc z0 s) : Keeps kc z0 (State.journalXfer s c) := by
  unfold State.journalXfer
  repeat' first
    | with_reducible assumption
    | with_reducible exact Keeps.refl _
    | with_reducible exact CuesKept.refl _
    | (with_reducible refine CuesKept.same ?_; rfl)
    | exact fun _ h => h
    | intro _
    | with_reducible refine Keeps.ite ?_ ?_
    | with_reducible refine Keeps.dite ?_ ?_
    | with_reducible refine Keeps.foldl ?_ _ _ ?_
    | with_reducible refine Keeps1.ite ?_ ?_
    | with_reducible refine Keeps1.mk ?_
    | with_reducible apply State.journal_keeps
    | (refine Eng.memOk_of ‹Eng.memOk _› ?_ ?_ ?_ <;> first | rfl | (simp; done) | (split_ifs <;> simp; done))
    | with_reducible apply Eng.restart_memOk
    | exact Eng.putScratch_memOk _ _ ‹Eng.memOk _›
    | exact Eng.putParam_memOk _ _ ‹Eng.memOk _›
    | dsimp only
    | fail_if_no_progress with_reducible refine Keeps.upd ?_
    | split

/-- `State.scriptStop` keeps what `Keeps` says. -/
theorem State.scriptStop_keeps {z0 : State} {s : State} (c : ScriptId) (st : ScState) (cause : Nat) (k_s : Keeps kc z0 s) : Keeps kc z0 (State.scriptStop s c st cause) := by
  unfold State.scriptStop
  repeat' first
    | with_reducible assumption
    | with_reducible exact Keeps.refl _
    | with_reducible exact CuesKept.refl _
    | (with_reducible refine CuesKept.same ?_; rfl)
    | exact fun _ h => h
    | intro _
    | with_reducible refine Keeps.ite ?_ ?_
    | with_reducible refine Keeps.dite ?_ ?_
    | with_reducible refine Keeps.foldl ?_ _ _ ?_
    | with_reducible refine Keeps1.ite ?_ ?_
    | with_reducible refine Keeps1.mk ?_
    | with_reducible apply State.journalXfer_keeps
    | with_reducible apply State.updScript_keeps
    | with_reducible apply State.updEng_keeps
    | (refine Eng.memOk_of ‹Eng.memOk _› ?_ ?_ ?_ <;> first | rfl | (simp; done) | (split_ifs <;> simp; done))
    | with_reducible apply Eng.restart_memOk
    | exact Eng.putScratch_memOk _ _ ‹Eng.memOk _›
    | exact Eng.putParam_memOk _ _ ‹Eng.memOk _›
    | dsimp only
    | fail_if_no_progress with_reducible refine Keeps.upd ?_
    | split

/-- `State.scriptHalt` keeps what `Keeps` says. -/
theorem State.scriptHalt_keeps {z0 : State} {s : State} (c : ScriptId) (cause : Nat) (k_s : Keeps kc z0 s) : Keeps kc z0 (State.scriptHalt s c cause) := by
  unfold State.scriptHalt
  repeat' first
    | with_reducible assumption
    | with_reducible exact Keeps.refl _
    | with_reducible exact CuesKept.refl _
    | (with_reducible refine CuesKept.same ?_; rfl)
    | exact fun _ h => h
    | intro _
    | with_reducible refine Keeps.ite ?_ ?_
    | with_reducible refine Keeps.dite ?_ ?_
    | with_reducible refine Keeps.foldl ?_ _ _ ?_
    | with_reducible refine Keeps1.ite ?_ ?_
    | with_reducible refine Keeps1.mk ?_
    | with_reducible apply State.setReg_keeps
    | with_reducible apply State.scriptStop_keeps
    | with_reducible apply State.raise_keeps
    | (refine Eng.memOk_of ‹Eng.memOk _› ?_ ?_ ?_ <;> first | rfl | (simp; done) | (split_ifs <;> simp; done))
    | with_reducible apply Eng.restart_memOk
    | exact Eng.putScratch_memOk _ _ ‹Eng.memOk _›
    | exact Eng.putParam_memOk _ _ ‹Eng.memOk _›
    | dsimp only
    | fail_if_no_progress with_reducible refine Keeps.upd ?_
    | split

/-- `State.scriptDone` keeps what `Keeps` says. -/
theorem State.scriptDone_keeps {z0 : State} {s : State} (c : ScriptId) (k_s : Keeps kc z0 s) : Keeps kc z0 (State.scriptDone s c) := by
  unfold State.scriptDone
  repeat' first
    | with_reducible assumption
    | with_reducible exact Keeps.refl _
    | with_reducible exact CuesKept.refl _
    | (with_reducible refine CuesKept.same ?_; rfl)
    | exact fun _ h => h
    | intro _
    | with_reducible refine Keeps.ite ?_ ?_
    | with_reducible refine Keeps.dite ?_ ?_
    | with_reducible refine Keeps.foldl ?_ _ _ ?_
    | with_reducible refine Keeps1.ite ?_ ?_
    | with_reducible refine Keeps1.mk ?_
    | with_reducible apply State.scriptStop_keeps
    | with_reducible apply State.raise_keeps
    | (refine Eng.memOk_of ‹Eng.memOk _› ?_ ?_ ?_ <;> first | rfl | (simp; done) | (split_ifs <;> simp; done))
    | with_reducible apply Eng.restart_memOk
    | exact Eng.putScratch_memOk _ _ ‹Eng.memOk _›
    | exact Eng.putParam_memOk _ _ ‹Eng.memOk _›
    | dsimp only
    | fail_if_no_progress with_reducible refine Keeps.upd ?_
    | split

/-- `State.idlePins` keeps what `Keeps` says. -/
theorem State.idlePins_keeps {z0 : State} {s : State} (p : PortId) (k_s : Keeps kc z0 s) : Keeps kc z0 (State.idlePins s p) := by
  unfold State.idlePins
  repeat' first
    | with_reducible assumption
    | with_reducible exact Keeps.refl _
    | with_reducible exact CuesKept.refl _
    | (with_reducible refine CuesKept.same ?_; rfl)
    | exact fun _ h => h
    | intro _
    | with_reducible refine Keeps.ite ?_ ?_
    | with_reducible refine Keeps.dite ?_ ?_
    | with_reducible refine Keeps.foldl ?_ _ _ ?_
    | with_reducible refine Keeps1.ite ?_ ?_
    | with_reducible refine Keeps1.mk ?_
    | with_reducible apply State.updPort_keeps
    | with_reducible apply State.idleOuts_keeps
    | (refine Eng.memOk_of ‹Eng.memOk _› ?_ ?_ ?_ <;> first | rfl | (simp; done) | (split_ifs <;> simp; done))
    | with_reducible apply Eng.restart_memOk
    | exact Eng.putScratch_memOk _ _ ‹Eng.memOk _›
    | exact Eng.putParam_memOk _ _ ‹Eng.memOk _›
    | dsimp only
    | fail_if_no_progress with_reducible refine Keeps.upd ?_
    | split

/-- `State.verifyFail` keeps what `Keeps` says. -/
theorem State.verifyFail_keeps {z0 : State} {s : State} (p : PortId) (n : Nat) (area : Nat) (b : Nat) (pos : Nat) (injected : Bool) (k_s : Keeps kc z0 s) : Keeps kc z0 (State.verifyFail s p n area b pos injected) := by
  unfold State.verifyFail
  repeat' first
    | with_reducible assumption
    | with_reducible exact Keeps.refl _
    | with_reducible exact CuesKept.refl _
    | (with_reducible refine CuesKept.same ?_; rfl)
    | exact fun _ h => h
    | intro _
    | with_reducible refine Keeps.ite ?_ ?_
    | with_reducible refine Keeps.dite ?_ ?_
    | with_reducible refine Keeps.foldl ?_ _ _ ?_
    | with_reducible refine Keeps1.ite ?_ ?_
    | with_reducible refine Keeps1.mk ?_
    | with_reducible apply State.incRf_keeps
    | with_reducible apply State.setReg_keeps
    | with_reducible apply State.raise_keeps
    | with_reducible apply State.code_keeps
    | with_reducible apply State.detect_keeps
    | (refine Eng.memOk_of ‹Eng.memOk _› ?_ ?_ ?_ <;> first | rfl | (simp; done) | (split_ifs <;> simp; done))
    | with_reducible apply Eng.restart_memOk
    | exact Eng.putScratch_memOk _ _ ‹Eng.memOk _›
    | exact Eng.putParam_memOk _ _ ‹Eng.memOk _›
    | dsimp only
    | fail_if_no_progress with_reducible refine Keeps.upd ?_
    | split

/-- `State.verifyReport` keeps what `Keeps` says. -/
theorem State.verifyReport_keeps {z0 : State} {s : State} (p : PortId) (k_s : Keeps kc z0 s) : Keeps kc z0 (State.verifyReport s p) := by
  unfold State.verifyReport
  repeat' first
    | with_reducible assumption
    | with_reducible exact Keeps.refl _
    | with_reducible exact CuesKept.refl _
    | (with_reducible refine CuesKept.same ?_; rfl)
    | exact fun _ h => h
    | intro _
    | with_reducible refine Keeps.ite ?_ ?_
    | with_reducible refine Keeps.dite ?_ ?_
    | with_reducible refine Keeps.foldl ?_ _ _ ?_
    | with_reducible refine Keeps1.ite ?_ ?_
    | with_reducible refine Keeps1.mk ?_
    | with_reducible apply State.verifyFail_keeps
    | with_reducible apply State.updPort_keeps
    | (refine Eng.memOk_of ‹Eng.memOk _› ?_ ?_ ?_ <;> first | rfl | (simp; done) | (split_ifs <;> simp; done))
    | with_reducible apply Eng.restart_memOk
    | exact Eng.putScratch_memOk _ _ ‹Eng.memOk _›
    | exact Eng.putParam_memOk _ _ ‹Eng.memOk _›
    | dsimp only
    | fail_if_no_progress with_reducible refine Keeps.upd ?_
    | split

/-- `State.haltPort` keeps what `Keeps` says. -/
theorem State.haltPort_keeps {z0 : State} {s : State} (p : PortId) (cause : Nat) (k_s : Keeps kc z0 s) : Keeps kc z0 (State.haltPort s p cause) := by
  unfold State.haltPort
  repeat' first
    | with_reducible assumption
    | with_reducible exact Keeps.refl _
    | with_reducible exact CuesKept.refl _
    | (with_reducible refine CuesKept.same ?_; rfl)
    | exact fun _ h => h
    | intro _
    | with_reducible refine Keeps.ite ?_ ?_
    | with_reducible refine Keeps.dite ?_ ?_
    | with_reducible refine Keeps.foldl ?_ _ _ ?_
    | with_reducible refine Keeps1.ite ?_ ?_
    | with_reducible refine Keeps1.mk ?_
    | with_reducible apply State.verifyReport_keeps
    | with_reducible apply State.setPortState_keeps
    | with_reducible apply State.updPort_keeps
    | with_reducible apply State.updEng_keeps
    | with_reducible apply State.idlePins_keeps
    | (refine Eng.memOk_of ‹Eng.memOk _› ?_ ?_ ?_ <;> first | rfl | (simp; done) | (split_ifs <;> simp; done))
    | with_reducible apply Eng.restart_memOk
    | exact Eng.putScratch_memOk _ _ ‹Eng.memOk _›
    | exact Eng.putParam_memOk _ _ ‹Eng.memOk _›
    | dsimp only
    | fail_if_no_progress with_reducible refine Keeps.upd ?_
    | split

/-- `State.clearGearArm` keeps what `Keeps` says. -/
theorem State.clearGearArm_keeps {z0 : State} {s : State} (p : PortId) (k_s : Keeps kc z0 s) : Keeps kc z0 (State.clearGearArm s p) := by
  unfold State.clearGearArm
  repeat' first
    | with_reducible assumption
    | with_reducible exact Keeps.refl _
    | with_reducible exact CuesKept.refl _
    | (with_reducible refine CuesKept.same ?_; rfl)
    | exact fun _ h => h
    | intro _
    | with_reducible refine Keeps.ite ?_ ?_
    | with_reducible refine Keeps.dite ?_ ?_
    | with_reducible refine Keeps.foldl ?_ _ _ ?_
    | with_reducible refine Keeps1.ite ?_ ?_
    | with_reducible refine Keeps1.mk ?_
    | with_reducible apply State.setRf_keeps
    | with_reducible apply State.updPort_keeps
    | (refine Eng.memOk_of ‹Eng.memOk _› ?_ ?_ ?_ <;> first | rfl | (simp; done) | (split_ifs <;> simp; done))
    | with_reducible apply Eng.restart_memOk
    | exact Eng.putScratch_memOk _ _ ‹Eng.memOk _›
    | exact Eng.putParam_memOk _ _ ‹Eng.memOk _›
    | dsimp only
    | fail_if_no_progress with_reducible refine Keeps.upd ?_
    | split

end Sys2Proof.Machine
end

