-- ==== Sys2Proof/Laws/State.lean ====
section
/-! SUPPORT. What each update of the state leaves as it was: one lemma per update and field, true by computation. The update of one
element of a vector gives the new element there and leaves the others. -/

namespace Sys2Proof.Machine

/-! `setCell` changes `regs`. -/

@[simp] theorem State.setCell_pending (s : State) (u off : Nat) (c : RegCell) : (s.setCell u off c).pending = s.pending := rfl
@[simp] theorem State.setCell_now (s : State) (u off : Nat) (c : RegCell) : (s.setCell u off c).now = s.now := rfl
@[simp] theorem State.setCell_free (s : State) (u off : Nat) (c : RegCell) : (s.setCell u off c).free = s.free := rfl
@[simp] theorem State.setCell_rdata (s : State) (u off : Nat) (c : RegCell) : (s.setCell u off c).rdata = s.rdata := rfl
@[simp] theorem State.setCell_tbl (s : State) (u off : Nat) (c : RegCell) : (s.setCell u off c).tbl = s.tbl := rfl
@[simp] theorem State.setCell_bus (s : State) (u off : Nat) (c : RegCell) : (s.setCell u off c).bus = s.bus := rfl
@[simp] theorem State.setCell_ctxs (s : State) (u off : Nat) (c : RegCell) : (s.setCell u off c).ctxs = s.ctxs := rfl
@[simp] theorem State.setCell_pend (s : State) (u off : Nat) (c : RegCell) : (s.setCell u off c).pend = s.pend := rfl
@[simp] theorem State.setCell_raised (s : State) (u off : Nat) (c : RegCell) : (s.setCell u off c).raised = s.raised := rfl
@[simp] theorem State.setCell_queues (s : State) (u off : Nat) (c : RegCell) : (s.setCell u off c).queues = s.queues := rfl
@[simp] theorem State.setCell_msiUnmasked (s : State) (u off : Nat) (c : RegCell) : (s.setCell u off c).msiUnmasked = s.msiUnmasked := rfl
@[simp] theorem State.setCell_msiPend (s : State) (u off : Nat) (c : RegCell) : (s.setCell u off c).msiPend = s.msiPend := rfl
@[simp] theorem State.setCell_units (s : State) (u off : Nat) (c : RegCell) : (s.setCell u off c).units = s.units := rfl
@[simp] theorem State.setCell_groups (s : State) (u off : Nat) (c : RegCell) : (s.setCell u off c).groups = s.groups := rfl
@[simp] theorem State.setCell_engs (s : State) (u off : Nat) (c : RegCell) : (s.setCell u off c).engs = s.engs := rfl
@[simp] theorem State.setCell_faults (s : State) (u off : Nat) (c : RegCell) : (s.setCell u off c).faults = s.faults := rfl
@[simp] theorem State.setCell_mgt (s : State) (u off : Nat) (c : RegCell) : (s.setCell u off c).mgt = s.mgt := rfl
@[simp] theorem State.setCell_jrnl (s : State) (u off : Nat) (c : RegCell) : (s.setCell u off c).jrnl = s.jrnl := rfl
@[simp] theorem State.setCell_link (s : State) (u off : Nat) (c : RegCell) : (s.setCell u off c).link = s.link := rfl
@[simp] theorem State.setCell_ports (s : State) (u off : Nat) (c : RegCell) : (s.setCell u off c).ports = s.ports := rfl
@[simp] theorem State.setCell_chans (s : State) (u off : Nat) (c : RegCell) : (s.setCell u off c).chans = s.chans := rfl
@[simp] theorem State.setCell_scripts (s : State) (u off : Nat) (c : RegCell) : (s.setCell u off c).scripts = s.scripts := rfl
@[simp] theorem State.setCell_store (s : State) (u off : Nat) (c : RegCell) : (s.setCell u off c).store = s.store := rfl
@[simp] theorem State.setCell_tks (s : State) (u off : Nat) (c : RegCell) : (s.setCell u off c).tks = s.tks := rfl
@[simp] theorem State.setCell_axes (s : State) (u off : Nat) (c : RegCell) : (s.setCell u off c).axes = s.axes := rfl
@[simp] theorem State.setCell_mot (s : State) (u off : Nat) (c : RegCell) : (s.setCell u off c).mot = s.mot := rfl
@[simp] theorem State.setCell_aux (s : State) (u off : Nat) (c : RegCell) : (s.setCell u off c).aux = s.aux := rfl
@[simp] theorem State.setCell_clk (s : State) (u off : Nat) (c : RegCell) : (s.setCell u off c).clk = s.clk := rfl
@[simp] theorem State.setCell_mstepNext (s : State) (u off : Nat) (c : RegCell) : (s.setCell u off c).mstepNext = s.mstepNext := rfl
@[simp] theorem State.setCell_mstepNow (s : State) (u off : Nat) (c : RegCell) : (s.setCell u off c).mstepNow = s.mstepNow := rfl

/-! `setReg` changes `regs`. -/

@[simp] theorem State.setReg_pending (s : State) (u off v : Nat) : (s.setReg u off v).pending = s.pending := rfl
@[simp] theorem State.setReg_now (s : State) (u off v : Nat) : (s.setReg u off v).now = s.now := rfl
@[simp] theorem State.setReg_free (s : State) (u off v : Nat) : (s.setReg u off v).free = s.free := rfl
@[simp] theorem State.setReg_rdata (s : State) (u off v : Nat) : (s.setReg u off v).rdata = s.rdata := rfl
@[simp] theorem State.setReg_tbl (s : State) (u off v : Nat) : (s.setReg u off v).tbl = s.tbl := rfl
@[simp] theorem State.setReg_bus (s : State) (u off v : Nat) : (s.setReg u off v).bus = s.bus := rfl
@[simp] theorem State.setReg_ctxs (s : State) (u off v : Nat) : (s.setReg u off v).ctxs = s.ctxs := rfl
@[simp] theorem State.setReg_pend (s : State) (u off v : Nat) : (s.setReg u off v).pend = s.pend := rfl
@[simp] theorem State.setReg_raised (s : State) (u off v : Nat) : (s.setReg u off v).raised = s.raised := rfl
@[simp] theorem State.setReg_queues (s : State) (u off v : Nat) : (s.setReg u off v).queues = s.queues := rfl
@[simp] theorem State.setReg_msiUnmasked (s : State) (u off v : Nat) : (s.setReg u off v).msiUnmasked = s.msiUnmasked := rfl
@[simp] theorem State.setReg_msiPend (s : State) (u off v : Nat) : (s.setReg u off v).msiPend = s.msiPend := rfl
@[simp] theorem State.setReg_units (s : State) (u off v : Nat) : (s.setReg u off v).units = s.units := rfl
@[simp] theorem State.setReg_groups (s : State) (u off v : Nat) : (s.setReg u off v).groups = s.groups := rfl
@[simp] theorem State.setReg_engs (s : State) (u off v : Nat) : (s.setReg u off v).engs = s.engs := rfl
@[simp] theorem State.setReg_faults (s : State) (u off v : Nat) : (s.setReg u off v).faults = s.faults := rfl
@[simp] theorem State.setReg_mgt (s : State) (u off v : Nat) : (s.setReg u off v).mgt = s.mgt := rfl
@[simp] theorem State.setReg_jrnl (s : State) (u off v : Nat) : (s.setReg u off v).jrnl = s.jrnl := rfl
@[simp] theorem State.setReg_link (s : State) (u off v : Nat) : (s.setReg u off v).link = s.link := rfl
@[simp] theorem State.setReg_ports (s : State) (u off v : Nat) : (s.setReg u off v).ports = s.ports := rfl
@[simp] theorem State.setReg_chans (s : State) (u off v : Nat) : (s.setReg u off v).chans = s.chans := rfl
@[simp] theorem State.setReg_scripts (s : State) (u off v : Nat) : (s.setReg u off v).scripts = s.scripts := rfl
@[simp] theorem State.setReg_store (s : State) (u off v : Nat) : (s.setReg u off v).store = s.store := rfl
@[simp] theorem State.setReg_tks (s : State) (u off v : Nat) : (s.setReg u off v).tks = s.tks := rfl
@[simp] theorem State.setReg_axes (s : State) (u off v : Nat) : (s.setReg u off v).axes = s.axes := rfl
@[simp] theorem State.setReg_mot (s : State) (u off v : Nat) : (s.setReg u off v).mot = s.mot := rfl
@[simp] theorem State.setReg_aux (s : State) (u off v : Nat) : (s.setReg u off v).aux = s.aux := rfl
@[simp] theorem State.setReg_clk (s : State) (u off v : Nat) : (s.setReg u off v).clk = s.clk := rfl
@[simp] theorem State.setReg_mstepNext (s : State) (u off v : Nat) : (s.setReg u off v).mstepNext = s.mstepNext := rfl
@[simp] theorem State.setReg_mstepNow (s : State) (u off v : Nat) : (s.setReg u off v).mstepNow = s.mstepNow := rfl

/-! `setRf` changes `regs`. -/

@[simp] theorem State.setRf_pending (s : State) (u off hi lo x : Nat) : (s.setRf u off hi lo x).pending = s.pending := rfl
@[simp] theorem State.setRf_now (s : State) (u off hi lo x : Nat) : (s.setRf u off hi lo x).now = s.now := rfl
@[simp] theorem State.setRf_free (s : State) (u off hi lo x : Nat) : (s.setRf u off hi lo x).free = s.free := rfl
@[simp] theorem State.setRf_rdata (s : State) (u off hi lo x : Nat) : (s.setRf u off hi lo x).rdata = s.rdata := rfl
@[simp] theorem State.setRf_tbl (s : State) (u off hi lo x : Nat) : (s.setRf u off hi lo x).tbl = s.tbl := rfl
@[simp] theorem State.setRf_bus (s : State) (u off hi lo x : Nat) : (s.setRf u off hi lo x).bus = s.bus := rfl
@[simp] theorem State.setRf_ctxs (s : State) (u off hi lo x : Nat) : (s.setRf u off hi lo x).ctxs = s.ctxs := rfl
@[simp] theorem State.setRf_pend (s : State) (u off hi lo x : Nat) : (s.setRf u off hi lo x).pend = s.pend := rfl
@[simp] theorem State.setRf_raised (s : State) (u off hi lo x : Nat) : (s.setRf u off hi lo x).raised = s.raised := rfl
@[simp] theorem State.setRf_queues (s : State) (u off hi lo x : Nat) : (s.setRf u off hi lo x).queues = s.queues := rfl
@[simp] theorem State.setRf_msiUnmasked (s : State) (u off hi lo x : Nat) : (s.setRf u off hi lo x).msiUnmasked = s.msiUnmasked := rfl
@[simp] theorem State.setRf_msiPend (s : State) (u off hi lo x : Nat) : (s.setRf u off hi lo x).msiPend = s.msiPend := rfl
@[simp] theorem State.setRf_units (s : State) (u off hi lo x : Nat) : (s.setRf u off hi lo x).units = s.units := rfl
@[simp] theorem State.setRf_groups (s : State) (u off hi lo x : Nat) : (s.setRf u off hi lo x).groups = s.groups := rfl
@[simp] theorem State.setRf_engs (s : State) (u off hi lo x : Nat) : (s.setRf u off hi lo x).engs = s.engs := rfl
@[simp] theorem State.setRf_faults (s : State) (u off hi lo x : Nat) : (s.setRf u off hi lo x).faults = s.faults := rfl
@[simp] theorem State.setRf_mgt (s : State) (u off hi lo x : Nat) : (s.setRf u off hi lo x).mgt = s.mgt := rfl
@[simp] theorem State.setRf_jrnl (s : State) (u off hi lo x : Nat) : (s.setRf u off hi lo x).jrnl = s.jrnl := rfl
@[simp] theorem State.setRf_link (s : State) (u off hi lo x : Nat) : (s.setRf u off hi lo x).link = s.link := rfl
@[simp] theorem State.setRf_ports (s : State) (u off hi lo x : Nat) : (s.setRf u off hi lo x).ports = s.ports := rfl
@[simp] theorem State.setRf_chans (s : State) (u off hi lo x : Nat) : (s.setRf u off hi lo x).chans = s.chans := rfl
@[simp] theorem State.setRf_scripts (s : State) (u off hi lo x : Nat) : (s.setRf u off hi lo x).scripts = s.scripts := rfl
@[simp] theorem State.setRf_store (s : State) (u off hi lo x : Nat) : (s.setRf u off hi lo x).store = s.store := rfl
@[simp] theorem State.setRf_tks (s : State) (u off hi lo x : Nat) : (s.setRf u off hi lo x).tks = s.tks := rfl
@[simp] theorem State.setRf_axes (s : State) (u off hi lo x : Nat) : (s.setRf u off hi lo x).axes = s.axes := rfl
@[simp] theorem State.setRf_mot (s : State) (u off hi lo x : Nat) : (s.setRf u off hi lo x).mot = s.mot := rfl
@[simp] theorem State.setRf_aux (s : State) (u off hi lo x : Nat) : (s.setRf u off hi lo x).aux = s.aux := rfl
@[simp] theorem State.setRf_clk (s : State) (u off hi lo x : Nat) : (s.setRf u off hi lo x).clk = s.clk := rfl
@[simp] theorem State.setRf_mstepNext (s : State) (u off hi lo x : Nat) : (s.setRf u off hi lo x).mstepNext = s.mstepNext := rfl
@[simp] theorem State.setRf_mstepNow (s : State) (u off hi lo x : Nat) : (s.setRf u off hi lo x).mstepNow = s.mstepNow := rfl

/-! `incRf` changes `regs`. -/

@[simp] theorem State.incRf_pending (s : State) (u off hi lo n : Nat) : (s.incRf u off hi lo n).pending = s.pending := rfl
@[simp] theorem State.incRf_now (s : State) (u off hi lo n : Nat) : (s.incRf u off hi lo n).now = s.now := rfl
@[simp] theorem State.incRf_free (s : State) (u off hi lo n : Nat) : (s.incRf u off hi lo n).free = s.free := rfl
@[simp] theorem State.incRf_rdata (s : State) (u off hi lo n : Nat) : (s.incRf u off hi lo n).rdata = s.rdata := rfl
@[simp] theorem State.incRf_tbl (s : State) (u off hi lo n : Nat) : (s.incRf u off hi lo n).tbl = s.tbl := rfl
@[simp] theorem State.incRf_bus (s : State) (u off hi lo n : Nat) : (s.incRf u off hi lo n).bus = s.bus := rfl
@[simp] theorem State.incRf_ctxs (s : State) (u off hi lo n : Nat) : (s.incRf u off hi lo n).ctxs = s.ctxs := rfl
@[simp] theorem State.incRf_pend (s : State) (u off hi lo n : Nat) : (s.incRf u off hi lo n).pend = s.pend := rfl
@[simp] theorem State.incRf_raised (s : State) (u off hi lo n : Nat) : (s.incRf u off hi lo n).raised = s.raised := rfl
@[simp] theorem State.incRf_queues (s : State) (u off hi lo n : Nat) : (s.incRf u off hi lo n).queues = s.queues := rfl
@[simp] theorem State.incRf_msiUnmasked (s : State) (u off hi lo n : Nat) : (s.incRf u off hi lo n).msiUnmasked = s.msiUnmasked := rfl
@[simp] theorem State.incRf_msiPend (s : State) (u off hi lo n : Nat) : (s.incRf u off hi lo n).msiPend = s.msiPend := rfl
@[simp] theorem State.incRf_units (s : State) (u off hi lo n : Nat) : (s.incRf u off hi lo n).units = s.units := rfl
@[simp] theorem State.incRf_groups (s : State) (u off hi lo n : Nat) : (s.incRf u off hi lo n).groups = s.groups := rfl
@[simp] theorem State.incRf_engs (s : State) (u off hi lo n : Nat) : (s.incRf u off hi lo n).engs = s.engs := rfl
@[simp] theorem State.incRf_faults (s : State) (u off hi lo n : Nat) : (s.incRf u off hi lo n).faults = s.faults := rfl
@[simp] theorem State.incRf_mgt (s : State) (u off hi lo n : Nat) : (s.incRf u off hi lo n).mgt = s.mgt := rfl
@[simp] theorem State.incRf_jrnl (s : State) (u off hi lo n : Nat) : (s.incRf u off hi lo n).jrnl = s.jrnl := rfl
@[simp] theorem State.incRf_link (s : State) (u off hi lo n : Nat) : (s.incRf u off hi lo n).link = s.link := rfl
@[simp] theorem State.incRf_ports (s : State) (u off hi lo n : Nat) : (s.incRf u off hi lo n).ports = s.ports := rfl
@[simp] theorem State.incRf_chans (s : State) (u off hi lo n : Nat) : (s.incRf u off hi lo n).chans = s.chans := rfl
@[simp] theorem State.incRf_scripts (s : State) (u off hi lo n : Nat) : (s.incRf u off hi lo n).scripts = s.scripts := rfl
@[simp] theorem State.incRf_store (s : State) (u off hi lo n : Nat) : (s.incRf u off hi lo n).store = s.store := rfl
@[simp] theorem State.incRf_tks (s : State) (u off hi lo n : Nat) : (s.incRf u off hi lo n).tks = s.tks := rfl
@[simp] theorem State.incRf_axes (s : State) (u off hi lo n : Nat) : (s.incRf u off hi lo n).axes = s.axes := rfl
@[simp] theorem State.incRf_mot (s : State) (u off hi lo n : Nat) : (s.incRf u off hi lo n).mot = s.mot := rfl
@[simp] theorem State.incRf_aux (s : State) (u off hi lo n : Nat) : (s.incRf u off hi lo n).aux = s.aux := rfl
@[simp] theorem State.incRf_clk (s : State) (u off hi lo n : Nat) : (s.incRf u off hi lo n).clk = s.clk := rfl
@[simp] theorem State.incRf_mstepNext (s : State) (u off hi lo n : Nat) : (s.incRf u off hi lo n).mstepNext = s.mstepNext := rfl
@[simp] theorem State.incRf_mstepNow (s : State) (u off hi lo n : Nat) : (s.incRf u off hi lo n).mstepNow = s.mstepNow := rfl

/-! `setPair` changes `regs`. -/

@[simp] theorem State.setPair_pending (s : State) (u off v : Nat) : (s.setPair u off v).pending = s.pending := rfl
@[simp] theorem State.setPair_now (s : State) (u off v : Nat) : (s.setPair u off v).now = s.now := rfl
@[simp] theorem State.setPair_free (s : State) (u off v : Nat) : (s.setPair u off v).free = s.free := rfl
@[simp] theorem State.setPair_rdata (s : State) (u off v : Nat) : (s.setPair u off v).rdata = s.rdata := rfl
@[simp] theorem State.setPair_tbl (s : State) (u off v : Nat) : (s.setPair u off v).tbl = s.tbl := rfl
@[simp] theorem State.setPair_bus (s : State) (u off v : Nat) : (s.setPair u off v).bus = s.bus := rfl
@[simp] theorem State.setPair_ctxs (s : State) (u off v : Nat) : (s.setPair u off v).ctxs = s.ctxs := rfl
@[simp] theorem State.setPair_pend (s : State) (u off v : Nat) : (s.setPair u off v).pend = s.pend := rfl
@[simp] theorem State.setPair_raised (s : State) (u off v : Nat) : (s.setPair u off v).raised = s.raised := rfl
@[simp] theorem State.setPair_queues (s : State) (u off v : Nat) : (s.setPair u off v).queues = s.queues := rfl
@[simp] theorem State.setPair_msiUnmasked (s : State) (u off v : Nat) : (s.setPair u off v).msiUnmasked = s.msiUnmasked := rfl
@[simp] theorem State.setPair_msiPend (s : State) (u off v : Nat) : (s.setPair u off v).msiPend = s.msiPend := rfl
@[simp] theorem State.setPair_units (s : State) (u off v : Nat) : (s.setPair u off v).units = s.units := rfl
@[simp] theorem State.setPair_groups (s : State) (u off v : Nat) : (s.setPair u off v).groups = s.groups := rfl
@[simp] theorem State.setPair_engs (s : State) (u off v : Nat) : (s.setPair u off v).engs = s.engs := rfl
@[simp] theorem State.setPair_faults (s : State) (u off v : Nat) : (s.setPair u off v).faults = s.faults := rfl
@[simp] theorem State.setPair_mgt (s : State) (u off v : Nat) : (s.setPair u off v).mgt = s.mgt := rfl
@[simp] theorem State.setPair_jrnl (s : State) (u off v : Nat) : (s.setPair u off v).jrnl = s.jrnl := rfl
@[simp] theorem State.setPair_link (s : State) (u off v : Nat) : (s.setPair u off v).link = s.link := rfl
@[simp] theorem State.setPair_ports (s : State) (u off v : Nat) : (s.setPair u off v).ports = s.ports := rfl
@[simp] theorem State.setPair_chans (s : State) (u off v : Nat) : (s.setPair u off v).chans = s.chans := rfl
@[simp] theorem State.setPair_scripts (s : State) (u off v : Nat) : (s.setPair u off v).scripts = s.scripts := rfl
@[simp] theorem State.setPair_store (s : State) (u off v : Nat) : (s.setPair u off v).store = s.store := rfl
@[simp] theorem State.setPair_tks (s : State) (u off v : Nat) : (s.setPair u off v).tks = s.tks := rfl
@[simp] theorem State.setPair_axes (s : State) (u off v : Nat) : (s.setPair u off v).axes = s.axes := rfl
@[simp] theorem State.setPair_mot (s : State) (u off v : Nat) : (s.setPair u off v).mot = s.mot := rfl
@[simp] theorem State.setPair_aux (s : State) (u off v : Nat) : (s.setPair u off v).aux = s.aux := rfl
@[simp] theorem State.setPair_clk (s : State) (u off v : Nat) : (s.setPair u off v).clk = s.clk := rfl
@[simp] theorem State.setPair_mstepNext (s : State) (u off v : Nat) : (s.setPair u off v).mstepNext = s.mstepNext := rfl
@[simp] theorem State.setPair_mstepNow (s : State) (u off v : Nat) : (s.setPair u off v).mstepNow = s.mstepNow := rfl

/-! `at` changes `now`. -/

@[simp] theorem State.at_pending (s : State) (t : Nat) : (s.at t).pending = s.pending := rfl
@[simp] theorem State.at_free (s : State) (t : Nat) : (s.at t).free = s.free := rfl
@[simp] theorem State.at_rdata (s : State) (t : Nat) : (s.at t).rdata = s.rdata := rfl
@[simp] theorem State.at_regs (s : State) (t : Nat) : (s.at t).regs = s.regs := rfl
@[simp] theorem State.at_tbl (s : State) (t : Nat) : (s.at t).tbl = s.tbl := rfl
@[simp] theorem State.at_bus (s : State) (t : Nat) : (s.at t).bus = s.bus := rfl
@[simp] theorem State.at_ctxs (s : State) (t : Nat) : (s.at t).ctxs = s.ctxs := rfl
@[simp] theorem State.at_pend (s : State) (t : Nat) : (s.at t).pend = s.pend := rfl
@[simp] theorem State.at_raised (s : State) (t : Nat) : (s.at t).raised = s.raised := rfl
@[simp] theorem State.at_queues (s : State) (t : Nat) : (s.at t).queues = s.queues := rfl
@[simp] theorem State.at_msiUnmasked (s : State) (t : Nat) : (s.at t).msiUnmasked = s.msiUnmasked := rfl
@[simp] theorem State.at_msiPend (s : State) (t : Nat) : (s.at t).msiPend = s.msiPend := rfl
@[simp] theorem State.at_units (s : State) (t : Nat) : (s.at t).units = s.units := rfl
@[simp] theorem State.at_groups (s : State) (t : Nat) : (s.at t).groups = s.groups := rfl
@[simp] theorem State.at_engs (s : State) (t : Nat) : (s.at t).engs = s.engs := rfl
@[simp] theorem State.at_faults (s : State) (t : Nat) : (s.at t).faults = s.faults := rfl
@[simp] theorem State.at_mgt (s : State) (t : Nat) : (s.at t).mgt = s.mgt := rfl
@[simp] theorem State.at_jrnl (s : State) (t : Nat) : (s.at t).jrnl = s.jrnl := rfl
@[simp] theorem State.at_link (s : State) (t : Nat) : (s.at t).link = s.link := rfl
@[simp] theorem State.at_ports (s : State) (t : Nat) : (s.at t).ports = s.ports := rfl
@[simp] theorem State.at_chans (s : State) (t : Nat) : (s.at t).chans = s.chans := rfl
@[simp] theorem State.at_scripts (s : State) (t : Nat) : (s.at t).scripts = s.scripts := rfl
@[simp] theorem State.at_store (s : State) (t : Nat) : (s.at t).store = s.store := rfl
@[simp] theorem State.at_tks (s : State) (t : Nat) : (s.at t).tks = s.tks := rfl
@[simp] theorem State.at_axes (s : State) (t : Nat) : (s.at t).axes = s.axes := rfl
@[simp] theorem State.at_mot (s : State) (t : Nat) : (s.at t).mot = s.mot := rfl
@[simp] theorem State.at_aux (s : State) (t : Nat) : (s.at t).aux = s.aux := rfl
@[simp] theorem State.at_clk (s : State) (t : Nat) : (s.at t).clk = s.clk := rfl
@[simp] theorem State.at_mstepNext (s : State) (t : Nat) : (s.at t).mstepNext = s.mstepNext := rfl
@[simp] theorem State.at_mstepNow (s : State) (t : Nat) : (s.at t).mstepNow = s.mstepNow := rfl

/-! `tickFree` changes `free`. -/

@[simp] theorem State.tickFree_pending (s : State) : (s.tickFree).pending = s.pending := rfl
@[simp] theorem State.tickFree_now (s : State) : (s.tickFree).now = s.now := rfl
@[simp] theorem State.tickFree_rdata (s : State) : (s.tickFree).rdata = s.rdata := rfl
@[simp] theorem State.tickFree_regs (s : State) : (s.tickFree).regs = s.regs := rfl
@[simp] theorem State.tickFree_tbl (s : State) : (s.tickFree).tbl = s.tbl := rfl
@[simp] theorem State.tickFree_bus (s : State) : (s.tickFree).bus = s.bus := rfl
@[simp] theorem State.tickFree_ctxs (s : State) : (s.tickFree).ctxs = s.ctxs := rfl
@[simp] theorem State.tickFree_pend (s : State) : (s.tickFree).pend = s.pend := rfl
@[simp] theorem State.tickFree_raised (s : State) : (s.tickFree).raised = s.raised := rfl
@[simp] theorem State.tickFree_queues (s : State) : (s.tickFree).queues = s.queues := rfl
@[simp] theorem State.tickFree_msiUnmasked (s : State) : (s.tickFree).msiUnmasked = s.msiUnmasked := rfl
@[simp] theorem State.tickFree_msiPend (s : State) : (s.tickFree).msiPend = s.msiPend := rfl
@[simp] theorem State.tickFree_units (s : State) : (s.tickFree).units = s.units := rfl
@[simp] theorem State.tickFree_groups (s : State) : (s.tickFree).groups = s.groups := rfl
@[simp] theorem State.tickFree_engs (s : State) : (s.tickFree).engs = s.engs := rfl
@[simp] theorem State.tickFree_faults (s : State) : (s.tickFree).faults = s.faults := rfl
@[simp] theorem State.tickFree_mgt (s : State) : (s.tickFree).mgt = s.mgt := rfl
@[simp] theorem State.tickFree_jrnl (s : State) : (s.tickFree).jrnl = s.jrnl := rfl
@[simp] theorem State.tickFree_link (s : State) : (s.tickFree).link = s.link := rfl
@[simp] theorem State.tickFree_ports (s : State) : (s.tickFree).ports = s.ports := rfl
@[simp] theorem State.tickFree_chans (s : State) : (s.tickFree).chans = s.chans := rfl
@[simp] theorem State.tickFree_scripts (s : State) : (s.tickFree).scripts = s.scripts := rfl
@[simp] theorem State.tickFree_store (s : State) : (s.tickFree).store = s.store := rfl
@[simp] theorem State.tickFree_tks (s : State) : (s.tickFree).tks = s.tks := rfl
@[simp] theorem State.tickFree_axes (s : State) : (s.tickFree).axes = s.axes := rfl
@[simp] theorem State.tickFree_mot (s : State) : (s.tickFree).mot = s.mot := rfl
@[simp] theorem State.tickFree_aux (s : State) : (s.tickFree).aux = s.aux := rfl
@[simp] theorem State.tickFree_clk (s : State) : (s.tickFree).clk = s.clk := rfl
@[simp] theorem State.tickFree_mstepNext (s : State) : (s.tickFree).mstepNext = s.mstepNext := rfl
@[simp] theorem State.tickFree_mstepNow (s : State) : (s.tickFree).mstepNow = s.mstepNow := rfl

/-! `send` changes `bus`. -/

@[simp] theorem State.send_pending (s : State) (b : BusOp) : (s.send b).pending = s.pending := rfl
@[simp] theorem State.send_now (s : State) (b : BusOp) : (s.send b).now = s.now := rfl
@[simp] theorem State.send_free (s : State) (b : BusOp) : (s.send b).free = s.free := rfl
@[simp] theorem State.send_rdata (s : State) (b : BusOp) : (s.send b).rdata = s.rdata := rfl
@[simp] theorem State.send_regs (s : State) (b : BusOp) : (s.send b).regs = s.regs := rfl
@[simp] theorem State.send_tbl (s : State) (b : BusOp) : (s.send b).tbl = s.tbl := rfl
@[simp] theorem State.send_ctxs (s : State) (b : BusOp) : (s.send b).ctxs = s.ctxs := rfl
@[simp] theorem State.send_pend (s : State) (b : BusOp) : (s.send b).pend = s.pend := rfl
@[simp] theorem State.send_raised (s : State) (b : BusOp) : (s.send b).raised = s.raised := rfl
@[simp] theorem State.send_queues (s : State) (b : BusOp) : (s.send b).queues = s.queues := rfl
@[simp] theorem State.send_msiUnmasked (s : State) (b : BusOp) : (s.send b).msiUnmasked = s.msiUnmasked := rfl
@[simp] theorem State.send_msiPend (s : State) (b : BusOp) : (s.send b).msiPend = s.msiPend := rfl
@[simp] theorem State.send_units (s : State) (b : BusOp) : (s.send b).units = s.units := rfl
@[simp] theorem State.send_groups (s : State) (b : BusOp) : (s.send b).groups = s.groups := rfl
@[simp] theorem State.send_engs (s : State) (b : BusOp) : (s.send b).engs = s.engs := rfl
@[simp] theorem State.send_faults (s : State) (b : BusOp) : (s.send b).faults = s.faults := rfl
@[simp] theorem State.send_mgt (s : State) (b : BusOp) : (s.send b).mgt = s.mgt := rfl
@[simp] theorem State.send_jrnl (s : State) (b : BusOp) : (s.send b).jrnl = s.jrnl := rfl
@[simp] theorem State.send_link (s : State) (b : BusOp) : (s.send b).link = s.link := rfl
@[simp] theorem State.send_ports (s : State) (b : BusOp) : (s.send b).ports = s.ports := rfl
@[simp] theorem State.send_chans (s : State) (b : BusOp) : (s.send b).chans = s.chans := rfl
@[simp] theorem State.send_scripts (s : State) (b : BusOp) : (s.send b).scripts = s.scripts := rfl
@[simp] theorem State.send_store (s : State) (b : BusOp) : (s.send b).store = s.store := rfl
@[simp] theorem State.send_tks (s : State) (b : BusOp) : (s.send b).tks = s.tks := rfl
@[simp] theorem State.send_axes (s : State) (b : BusOp) : (s.send b).axes = s.axes := rfl
@[simp] theorem State.send_mot (s : State) (b : BusOp) : (s.send b).mot = s.mot := rfl
@[simp] theorem State.send_aux (s : State) (b : BusOp) : (s.send b).aux = s.aux := rfl
@[simp] theorem State.send_clk (s : State) (b : BusOp) : (s.send b).clk = s.clk := rfl
@[simp] theorem State.send_mstepNext (s : State) (b : BusOp) : (s.send b).mstepNext = s.mstepNext := rfl
@[simp] theorem State.send_mstepNow (s : State) (b : BusOp) : (s.send b).mstepNow = s.mstepNow := rfl

/-! `hostWrite` changes `bus`. -/

@[simp] theorem State.hostWrite_pending (s : State) (addr : Nat) (data : List Byte) : (s.hostWrite addr data).pending = s.pending := rfl
@[simp] theorem State.hostWrite_now (s : State) (addr : Nat) (data : List Byte) : (s.hostWrite addr data).now = s.now := rfl
@[simp] theorem State.hostWrite_free (s : State) (addr : Nat) (data : List Byte) : (s.hostWrite addr data).free = s.free := rfl
@[simp] theorem State.hostWrite_rdata (s : State) (addr : Nat) (data : List Byte) : (s.hostWrite addr data).rdata = s.rdata := rfl
@[simp] theorem State.hostWrite_regs (s : State) (addr : Nat) (data : List Byte) : (s.hostWrite addr data).regs = s.regs := rfl
@[simp] theorem State.hostWrite_tbl (s : State) (addr : Nat) (data : List Byte) : (s.hostWrite addr data).tbl = s.tbl := rfl
@[simp] theorem State.hostWrite_ctxs (s : State) (addr : Nat) (data : List Byte) : (s.hostWrite addr data).ctxs = s.ctxs := rfl
@[simp] theorem State.hostWrite_pend (s : State) (addr : Nat) (data : List Byte) : (s.hostWrite addr data).pend = s.pend := rfl
@[simp] theorem State.hostWrite_raised (s : State) (addr : Nat) (data : List Byte) : (s.hostWrite addr data).raised = s.raised := rfl
@[simp] theorem State.hostWrite_queues (s : State) (addr : Nat) (data : List Byte) : (s.hostWrite addr data).queues = s.queues := rfl
@[simp] theorem State.hostWrite_msiUnmasked (s : State) (addr : Nat) (data : List Byte) : (s.hostWrite addr data).msiUnmasked = s.msiUnmasked := rfl
@[simp] theorem State.hostWrite_msiPend (s : State) (addr : Nat) (data : List Byte) : (s.hostWrite addr data).msiPend = s.msiPend := rfl
@[simp] theorem State.hostWrite_units (s : State) (addr : Nat) (data : List Byte) : (s.hostWrite addr data).units = s.units := rfl
@[simp] theorem State.hostWrite_groups (s : State) (addr : Nat) (data : List Byte) : (s.hostWrite addr data).groups = s.groups := rfl
@[simp] theorem State.hostWrite_engs (s : State) (addr : Nat) (data : List Byte) : (s.hostWrite addr data).engs = s.engs := rfl
@[simp] theorem State.hostWrite_faults (s : State) (addr : Nat) (data : List Byte) : (s.hostWrite addr data).faults = s.faults := rfl
@[simp] theorem State.hostWrite_mgt (s : State) (addr : Nat) (data : List Byte) : (s.hostWrite addr data).mgt = s.mgt := rfl
@[simp] theorem State.hostWrite_jrnl (s : State) (addr : Nat) (data : List Byte) : (s.hostWrite addr data).jrnl = s.jrnl := rfl
@[simp] theorem State.hostWrite_link (s : State) (addr : Nat) (data : List Byte) : (s.hostWrite addr data).link = s.link := rfl
@[simp] theorem State.hostWrite_ports (s : State) (addr : Nat) (data : List Byte) : (s.hostWrite addr data).ports = s.ports := rfl
@[simp] theorem State.hostWrite_chans (s : State) (addr : Nat) (data : List Byte) : (s.hostWrite addr data).chans = s.chans := rfl
@[simp] theorem State.hostWrite_scripts (s : State) (addr : Nat) (data : List Byte) : (s.hostWrite addr data).scripts = s.scripts := rfl
@[simp] theorem State.hostWrite_store (s : State) (addr : Nat) (data : List Byte) : (s.hostWrite addr data).store = s.store := rfl
@[simp] theorem State.hostWrite_tks (s : State) (addr : Nat) (data : List Byte) : (s.hostWrite addr data).tks = s.tks := rfl
@[simp] theorem State.hostWrite_axes (s : State) (addr : Nat) (data : List Byte) : (s.hostWrite addr data).axes = s.axes := rfl
@[simp] theorem State.hostWrite_mot (s : State) (addr : Nat) (data : List Byte) : (s.hostWrite addr data).mot = s.mot := rfl
@[simp] theorem State.hostWrite_aux (s : State) (addr : Nat) (data : List Byte) : (s.hostWrite addr data).aux = s.aux := rfl
@[simp] theorem State.hostWrite_clk (s : State) (addr : Nat) (data : List Byte) : (s.hostWrite addr data).clk = s.clk := rfl
@[simp] theorem State.hostWrite_mstepNext (s : State) (addr : Nat) (data : List Byte) : (s.hostWrite addr data).mstepNext = s.mstepNext := rfl
@[simp] theorem State.hostWrite_mstepNow (s : State) (addr : Nat) (data : List Byte) : (s.hostWrite addr data).mstepNow = s.mstepNow := rfl

/-! `journal` changes `jrnl`. -/

@[simp] theorem State.journal_pending (s : State) (e : JEntry) : (s.journal e).pending = s.pending := rfl
@[simp] theorem State.journal_now (s : State) (e : JEntry) : (s.journal e).now = s.now := rfl
@[simp] theorem State.journal_free (s : State) (e : JEntry) : (s.journal e).free = s.free := rfl
@[simp] theorem State.journal_rdata (s : State) (e : JEntry) : (s.journal e).rdata = s.rdata := rfl
@[simp] theorem State.journal_regs (s : State) (e : JEntry) : (s.journal e).regs = s.regs := rfl
@[simp] theorem State.journal_tbl (s : State) (e : JEntry) : (s.journal e).tbl = s.tbl := rfl
@[simp] theorem State.journal_bus (s : State) (e : JEntry) : (s.journal e).bus = s.bus := rfl
@[simp] theorem State.journal_ctxs (s : State) (e : JEntry) : (s.journal e).ctxs = s.ctxs := rfl
@[simp] theorem State.journal_pend (s : State) (e : JEntry) : (s.journal e).pend = s.pend := rfl
@[simp] theorem State.journal_raised (s : State) (e : JEntry) : (s.journal e).raised = s.raised := rfl
@[simp] theorem State.journal_queues (s : State) (e : JEntry) : (s.journal e).queues = s.queues := rfl
@[simp] theorem State.journal_msiUnmasked (s : State) (e : JEntry) : (s.journal e).msiUnmasked = s.msiUnmasked := rfl
@[simp] theorem State.journal_msiPend (s : State) (e : JEntry) : (s.journal e).msiPend = s.msiPend := rfl
@[simp] theorem State.journal_units (s : State) (e : JEntry) : (s.journal e).units = s.units := rfl
@[simp] theorem State.journal_groups (s : State) (e : JEntry) : (s.journal e).groups = s.groups := rfl
@[simp] theorem State.journal_engs (s : State) (e : JEntry) : (s.journal e).engs = s.engs := rfl
@[simp] theorem State.journal_faults (s : State) (e : JEntry) : (s.journal e).faults = s.faults := rfl
@[simp] theorem State.journal_mgt (s : State) (e : JEntry) : (s.journal e).mgt = s.mgt := rfl
@[simp] theorem State.journal_link (s : State) (e : JEntry) : (s.journal e).link = s.link := rfl
@[simp] theorem State.journal_ports (s : State) (e : JEntry) : (s.journal e).ports = s.ports := rfl
@[simp] theorem State.journal_chans (s : State) (e : JEntry) : (s.journal e).chans = s.chans := rfl
@[simp] theorem State.journal_scripts (s : State) (e : JEntry) : (s.journal e).scripts = s.scripts := rfl
@[simp] theorem State.journal_store (s : State) (e : JEntry) : (s.journal e).store = s.store := rfl
@[simp] theorem State.journal_tks (s : State) (e : JEntry) : (s.journal e).tks = s.tks := rfl
@[simp] theorem State.journal_axes (s : State) (e : JEntry) : (s.journal e).axes = s.axes := rfl
@[simp] theorem State.journal_mot (s : State) (e : JEntry) : (s.journal e).mot = s.mot := rfl
@[simp] theorem State.journal_aux (s : State) (e : JEntry) : (s.journal e).aux = s.aux := rfl
@[simp] theorem State.journal_clk (s : State) (e : JEntry) : (s.journal e).clk = s.clk := rfl
@[simp] theorem State.journal_mstepNext (s : State) (e : JEntry) : (s.journal e).mstepNext = s.mstepNext := rfl
@[simp] theorem State.journal_mstepNow (s : State) (e : JEntry) : (s.journal e).mstepNow = s.mstepNow := rfl

/-! `updPort` changes `ports`. -/

@[simp] theorem State.updPort_pending (s : State) (p : PortId) (f : PortSt → PortSt) : (s.updPort p f).pending = s.pending := rfl
@[simp] theorem State.updPort_now (s : State) (p : PortId) (f : PortSt → PortSt) : (s.updPort p f).now = s.now := rfl
@[simp] theorem State.updPort_free (s : State) (p : PortId) (f : PortSt → PortSt) : (s.updPort p f).free = s.free := rfl
@[simp] theorem State.updPort_rdata (s : State) (p : PortId) (f : PortSt → PortSt) : (s.updPort p f).rdata = s.rdata := rfl
@[simp] theorem State.updPort_regs (s : State) (p : PortId) (f : PortSt → PortSt) : (s.updPort p f).regs = s.regs := rfl
@[simp] theorem State.updPort_tbl (s : State) (p : PortId) (f : PortSt → PortSt) : (s.updPort p f).tbl = s.tbl := rfl
@[simp] theorem State.updPort_bus (s : State) (p : PortId) (f : PortSt → PortSt) : (s.updPort p f).bus = s.bus := rfl
@[simp] theorem State.updPort_ctxs (s : State) (p : PortId) (f : PortSt → PortSt) : (s.updPort p f).ctxs = s.ctxs := rfl
@[simp] theorem State.updPort_pend (s : State) (p : PortId) (f : PortSt → PortSt) : (s.updPort p f).pend = s.pend := rfl
@[simp] theorem State.updPort_raised (s : State) (p : PortId) (f : PortSt → PortSt) : (s.updPort p f).raised = s.raised := rfl
@[simp] theorem State.updPort_queues (s : State) (p : PortId) (f : PortSt → PortSt) : (s.updPort p f).queues = s.queues := rfl
@[simp] theorem State.updPort_msiUnmasked (s : State) (p : PortId) (f : PortSt → PortSt) : (s.updPort p f).msiUnmasked = s.msiUnmasked := rfl
@[simp] theorem State.updPort_msiPend (s : State) (p : PortId) (f : PortSt → PortSt) : (s.updPort p f).msiPend = s.msiPend := rfl
@[simp] theorem State.updPort_units (s : State) (p : PortId) (f : PortSt → PortSt) : (s.updPort p f).units = s.units := rfl
@[simp] theorem State.updPort_groups (s : State) (p : PortId) (f : PortSt → PortSt) : (s.updPort p f).groups = s.groups := rfl
@[simp] theorem State.updPort_engs (s : State) (p : PortId) (f : PortSt → PortSt) : (s.updPort p f).engs = s.engs := rfl
@[simp] theorem State.updPort_faults (s : State) (p : PortId) (f : PortSt → PortSt) : (s.updPort p f).faults = s.faults := rfl
@[simp] theorem State.updPort_mgt (s : State) (p : PortId) (f : PortSt → PortSt) : (s.updPort p f).mgt = s.mgt := rfl
@[simp] theorem State.updPort_jrnl (s : State) (p : PortId) (f : PortSt → PortSt) : (s.updPort p f).jrnl = s.jrnl := rfl
@[simp] theorem State.updPort_link (s : State) (p : PortId) (f : PortSt → PortSt) : (s.updPort p f).link = s.link := rfl
@[simp] theorem State.updPort_chans (s : State) (p : PortId) (f : PortSt → PortSt) : (s.updPort p f).chans = s.chans := rfl
@[simp] theorem State.updPort_scripts (s : State) (p : PortId) (f : PortSt → PortSt) : (s.updPort p f).scripts = s.scripts := rfl
@[simp] theorem State.updPort_store (s : State) (p : PortId) (f : PortSt → PortSt) : (s.updPort p f).store = s.store := rfl
@[simp] theorem State.updPort_tks (s : State) (p : PortId) (f : PortSt → PortSt) : (s.updPort p f).tks = s.tks := rfl
@[simp] theorem State.updPort_axes (s : State) (p : PortId) (f : PortSt → PortSt) : (s.updPort p f).axes = s.axes := rfl
@[simp] theorem State.updPort_mot (s : State) (p : PortId) (f : PortSt → PortSt) : (s.updPort p f).mot = s.mot := rfl
@[simp] theorem State.updPort_aux (s : State) (p : PortId) (f : PortSt → PortSt) : (s.updPort p f).aux = s.aux := rfl
@[simp] theorem State.updPort_clk (s : State) (p : PortId) (f : PortSt → PortSt) : (s.updPort p f).clk = s.clk := rfl
@[simp] theorem State.updPort_mstepNext (s : State) (p : PortId) (f : PortSt → PortSt) : (s.updPort p f).mstepNext = s.mstepNext := rfl
@[simp] theorem State.updPort_mstepNow (s : State) (p : PortId) (f : PortSt → PortSt) : (s.updPort p f).mstepNow = s.mstepNow := rfl

/-! `updConv` changes `ports`. -/

@[simp] theorem State.updConv_pending (s : State) (p : PortId) (t : Fin 16) (f : ConvSt → ConvSt) : (s.updConv p t f).pending = s.pending := rfl
@[simp] theorem State.updConv_now (s : State) (p : PortId) (t : Fin 16) (f : ConvSt → ConvSt) : (s.updConv p t f).now = s.now := rfl
@[simp] theorem State.updConv_free (s : State) (p : PortId) (t : Fin 16) (f : ConvSt → ConvSt) : (s.updConv p t f).free = s.free := rfl
@[simp] theorem State.updConv_rdata (s : State) (p : PortId) (t : Fin 16) (f : ConvSt → ConvSt) : (s.updConv p t f).rdata = s.rdata := rfl
@[simp] theorem State.updConv_regs (s : State) (p : PortId) (t : Fin 16) (f : ConvSt → ConvSt) : (s.updConv p t f).regs = s.regs := rfl
@[simp] theorem State.updConv_tbl (s : State) (p : PortId) (t : Fin 16) (f : ConvSt → ConvSt) : (s.updConv p t f).tbl = s.tbl := rfl
@[simp] theorem State.updConv_bus (s : State) (p : PortId) (t : Fin 16) (f : ConvSt → ConvSt) : (s.updConv p t f).bus = s.bus := rfl
@[simp] theorem State.updConv_ctxs (s : State) (p : PortId) (t : Fin 16) (f : ConvSt → ConvSt) : (s.updConv p t f).ctxs = s.ctxs := rfl
@[simp] theorem State.updConv_pend (s : State) (p : PortId) (t : Fin 16) (f : ConvSt → ConvSt) : (s.updConv p t f).pend = s.pend := rfl
@[simp] theorem State.updConv_raised (s : State) (p : PortId) (t : Fin 16) (f : ConvSt → ConvSt) : (s.updConv p t f).raised = s.raised := rfl
@[simp] theorem State.updConv_queues (s : State) (p : PortId) (t : Fin 16) (f : ConvSt → ConvSt) : (s.updConv p t f).queues = s.queues := rfl
@[simp] theorem State.updConv_msiUnmasked (s : State) (p : PortId) (t : Fin 16) (f : ConvSt → ConvSt) : (s.updConv p t f).msiUnmasked = s.msiUnmasked := rfl
@[simp] theorem State.updConv_msiPend (s : State) (p : PortId) (t : Fin 16) (f : ConvSt → ConvSt) : (s.updConv p t f).msiPend = s.msiPend := rfl
@[simp] theorem State.updConv_units (s : State) (p : PortId) (t : Fin 16) (f : ConvSt → ConvSt) : (s.updConv p t f).units = s.units := rfl
@[simp] theorem State.updConv_groups (s : State) (p : PortId) (t : Fin 16) (f : ConvSt → ConvSt) : (s.updConv p t f).groups = s.groups := rfl
@[simp] theorem State.updConv_engs (s : State) (p : PortId) (t : Fin 16) (f : ConvSt → ConvSt) : (s.updConv p t f).engs = s.engs := rfl
@[simp] theorem State.updConv_faults (s : State) (p : PortId) (t : Fin 16) (f : ConvSt → ConvSt) : (s.updConv p t f).faults = s.faults := rfl
@[simp] theorem State.updConv_mgt (s : State) (p : PortId) (t : Fin 16) (f : ConvSt → ConvSt) : (s.updConv p t f).mgt = s.mgt := rfl
@[simp] theorem State.updConv_jrnl (s : State) (p : PortId) (t : Fin 16) (f : ConvSt → ConvSt) : (s.updConv p t f).jrnl = s.jrnl := rfl
@[simp] theorem State.updConv_link (s : State) (p : PortId) (t : Fin 16) (f : ConvSt → ConvSt) : (s.updConv p t f).link = s.link := rfl
@[simp] theorem State.updConv_chans (s : State) (p : PortId) (t : Fin 16) (f : ConvSt → ConvSt) : (s.updConv p t f).chans = s.chans := rfl
@[simp] theorem State.updConv_scripts (s : State) (p : PortId) (t : Fin 16) (f : ConvSt → ConvSt) : (s.updConv p t f).scripts = s.scripts := rfl
@[simp] theorem State.updConv_store (s : State) (p : PortId) (t : Fin 16) (f : ConvSt → ConvSt) : (s.updConv p t f).store = s.store := rfl
@[simp] theorem State.updConv_tks (s : State) (p : PortId) (t : Fin 16) (f : ConvSt → ConvSt) : (s.updConv p t f).tks = s.tks := rfl
@[simp] theorem State.updConv_axes (s : State) (p : PortId) (t : Fin 16) (f : ConvSt → ConvSt) : (s.updConv p t f).axes = s.axes := rfl
@[simp] theorem State.updConv_mot (s : State) (p : PortId) (t : Fin 16) (f : ConvSt → ConvSt) : (s.updConv p t f).mot = s.mot := rfl
@[simp] theorem State.updConv_aux (s : State) (p : PortId) (t : Fin 16) (f : ConvSt → ConvSt) : (s.updConv p t f).aux = s.aux := rfl
@[simp] theorem State.updConv_clk (s : State) (p : PortId) (t : Fin 16) (f : ConvSt → ConvSt) : (s.updConv p t f).clk = s.clk := rfl
@[simp] theorem State.updConv_mstepNext (s : State) (p : PortId) (t : Fin 16) (f : ConvSt → ConvSt) : (s.updConv p t f).mstepNext = s.mstepNext := rfl
@[simp] theorem State.updConv_mstepNow (s : State) (p : PortId) (t : Fin 16) (f : ConvSt → ConvSt) : (s.updConv p t f).mstepNow = s.mstepNow := rfl

/-! `updUnit` changes `units`. -/

@[simp] theorem State.updUnit_pending (s : State) (u : UnitId) (f : UnitSt → UnitSt) : (s.updUnit u f).pending = s.pending := rfl
@[simp] theorem State.updUnit_now (s : State) (u : UnitId) (f : UnitSt → UnitSt) : (s.updUnit u f).now = s.now := rfl
@[simp] theorem State.updUnit_free (s : State) (u : UnitId) (f : UnitSt → UnitSt) : (s.updUnit u f).free = s.free := rfl
@[simp] theorem State.updUnit_rdata (s : State) (u : UnitId) (f : UnitSt → UnitSt) : (s.updUnit u f).rdata = s.rdata := rfl
@[simp] theorem State.updUnit_regs (s : State) (u : UnitId) (f : UnitSt → UnitSt) : (s.updUnit u f).regs = s.regs := rfl
@[simp] theorem State.updUnit_tbl (s : State) (u : UnitId) (f : UnitSt → UnitSt) : (s.updUnit u f).tbl = s.tbl := rfl
@[simp] theorem State.updUnit_bus (s : State) (u : UnitId) (f : UnitSt → UnitSt) : (s.updUnit u f).bus = s.bus := rfl
@[simp] theorem State.updUnit_ctxs (s : State) (u : UnitId) (f : UnitSt → UnitSt) : (s.updUnit u f).ctxs = s.ctxs := rfl
@[simp] theorem State.updUnit_pend (s : State) (u : UnitId) (f : UnitSt → UnitSt) : (s.updUnit u f).pend = s.pend := rfl
@[simp] theorem State.updUnit_raised (s : State) (u : UnitId) (f : UnitSt → UnitSt) : (s.updUnit u f).raised = s.raised := rfl
@[simp] theorem State.updUnit_queues (s : State) (u : UnitId) (f : UnitSt → UnitSt) : (s.updUnit u f).queues = s.queues := rfl
@[simp] theorem State.updUnit_msiUnmasked (s : State) (u : UnitId) (f : UnitSt → UnitSt) : (s.updUnit u f).msiUnmasked = s.msiUnmasked := rfl
@[simp] theorem State.updUnit_msiPend (s : State) (u : UnitId) (f : UnitSt → UnitSt) : (s.updUnit u f).msiPend = s.msiPend := rfl
@[simp] theorem State.updUnit_groups (s : State) (u : UnitId) (f : UnitSt → UnitSt) : (s.updUnit u f).groups = s.groups := rfl
@[simp] theorem State.updUnit_engs (s : State) (u : UnitId) (f : UnitSt → UnitSt) : (s.updUnit u f).engs = s.engs := rfl
@[simp] theorem State.updUnit_faults (s : State) (u : UnitId) (f : UnitSt → UnitSt) : (s.updUnit u f).faults = s.faults := rfl
@[simp] theorem State.updUnit_mgt (s : State) (u : UnitId) (f : UnitSt → UnitSt) : (s.updUnit u f).mgt = s.mgt := rfl
@[simp] theorem State.updUnit_jrnl (s : State) (u : UnitId) (f : UnitSt → UnitSt) : (s.updUnit u f).jrnl = s.jrnl := rfl
@[simp] theorem State.updUnit_link (s : State) (u : UnitId) (f : UnitSt → UnitSt) : (s.updUnit u f).link = s.link := rfl
@[simp] theorem State.updUnit_ports (s : State) (u : UnitId) (f : UnitSt → UnitSt) : (s.updUnit u f).ports = s.ports := rfl
@[simp] theorem State.updUnit_chans (s : State) (u : UnitId) (f : UnitSt → UnitSt) : (s.updUnit u f).chans = s.chans := rfl
@[simp] theorem State.updUnit_scripts (s : State) (u : UnitId) (f : UnitSt → UnitSt) : (s.updUnit u f).scripts = s.scripts := rfl
@[simp] theorem State.updUnit_store (s : State) (u : UnitId) (f : UnitSt → UnitSt) : (s.updUnit u f).store = s.store := rfl
@[simp] theorem State.updUnit_tks (s : State) (u : UnitId) (f : UnitSt → UnitSt) : (s.updUnit u f).tks = s.tks := rfl
@[simp] theorem State.updUnit_axes (s : State) (u : UnitId) (f : UnitSt → UnitSt) : (s.updUnit u f).axes = s.axes := rfl
@[simp] theorem State.updUnit_mot (s : State) (u : UnitId) (f : UnitSt → UnitSt) : (s.updUnit u f).mot = s.mot := rfl
@[simp] theorem State.updUnit_aux (s : State) (u : UnitId) (f : UnitSt → UnitSt) : (s.updUnit u f).aux = s.aux := rfl
@[simp] theorem State.updUnit_clk (s : State) (u : UnitId) (f : UnitSt → UnitSt) : (s.updUnit u f).clk = s.clk := rfl
@[simp] theorem State.updUnit_mstepNext (s : State) (u : UnitId) (f : UnitSt → UnitSt) : (s.updUnit u f).mstepNext = s.mstepNext := rfl
@[simp] theorem State.updUnit_mstepNow (s : State) (u : UnitId) (f : UnitSt → UnitSt) : (s.updUnit u f).mstepNow = s.mstepNow := rfl

/-! `updEng` changes `engs`. -/

@[simp] theorem State.updEng_pending (s : State) (e : EngId) (f : Eng → Eng) : (s.updEng e f).pending = s.pending := rfl
@[simp] theorem State.updEng_now (s : State) (e : EngId) (f : Eng → Eng) : (s.updEng e f).now = s.now := rfl
@[simp] theorem State.updEng_free (s : State) (e : EngId) (f : Eng → Eng) : (s.updEng e f).free = s.free := rfl
@[simp] theorem State.updEng_rdata (s : State) (e : EngId) (f : Eng → Eng) : (s.updEng e f).rdata = s.rdata := rfl
@[simp] theorem State.updEng_regs (s : State) (e : EngId) (f : Eng → Eng) : (s.updEng e f).regs = s.regs := rfl
@[simp] theorem State.updEng_tbl (s : State) (e : EngId) (f : Eng → Eng) : (s.updEng e f).tbl = s.tbl := rfl
@[simp] theorem State.updEng_bus (s : State) (e : EngId) (f : Eng → Eng) : (s.updEng e f).bus = s.bus := rfl
@[simp] theorem State.updEng_ctxs (s : State) (e : EngId) (f : Eng → Eng) : (s.updEng e f).ctxs = s.ctxs := rfl
@[simp] theorem State.updEng_pend (s : State) (e : EngId) (f : Eng → Eng) : (s.updEng e f).pend = s.pend := rfl
@[simp] theorem State.updEng_raised (s : State) (e : EngId) (f : Eng → Eng) : (s.updEng e f).raised = s.raised := rfl
@[simp] theorem State.updEng_queues (s : State) (e : EngId) (f : Eng → Eng) : (s.updEng e f).queues = s.queues := rfl
@[simp] theorem State.updEng_msiUnmasked (s : State) (e : EngId) (f : Eng → Eng) : (s.updEng e f).msiUnmasked = s.msiUnmasked := rfl
@[simp] theorem State.updEng_msiPend (s : State) (e : EngId) (f : Eng → Eng) : (s.updEng e f).msiPend = s.msiPend := rfl
@[simp] theorem State.updEng_units (s : State) (e : EngId) (f : Eng → Eng) : (s.updEng e f).units = s.units := rfl
@[simp] theorem State.updEng_groups (s : State) (e : EngId) (f : Eng → Eng) : (s.updEng e f).groups = s.groups := rfl
@[simp] theorem State.updEng_faults (s : State) (e : EngId) (f : Eng → Eng) : (s.updEng e f).faults = s.faults := rfl
@[simp] theorem State.updEng_mgt (s : State) (e : EngId) (f : Eng → Eng) : (s.updEng e f).mgt = s.mgt := rfl
@[simp] theorem State.updEng_jrnl (s : State) (e : EngId) (f : Eng → Eng) : (s.updEng e f).jrnl = s.jrnl := rfl
@[simp] theorem State.updEng_link (s : State) (e : EngId) (f : Eng → Eng) : (s.updEng e f).link = s.link := rfl
@[simp] theorem State.updEng_ports (s : State) (e : EngId) (f : Eng → Eng) : (s.updEng e f).ports = s.ports := rfl
@[simp] theorem State.updEng_chans (s : State) (e : EngId) (f : Eng → Eng) : (s.updEng e f).chans = s.chans := rfl
@[simp] theorem State.updEng_scripts (s : State) (e : EngId) (f : Eng → Eng) : (s.updEng e f).scripts = s.scripts := rfl
@[simp] theorem State.updEng_store (s : State) (e : EngId) (f : Eng → Eng) : (s.updEng e f).store = s.store := rfl
@[simp] theorem State.updEng_tks (s : State) (e : EngId) (f : Eng → Eng) : (s.updEng e f).tks = s.tks := rfl
@[simp] theorem State.updEng_axes (s : State) (e : EngId) (f : Eng → Eng) : (s.updEng e f).axes = s.axes := rfl
@[simp] theorem State.updEng_mot (s : State) (e : EngId) (f : Eng → Eng) : (s.updEng e f).mot = s.mot := rfl
@[simp] theorem State.updEng_aux (s : State) (e : EngId) (f : Eng → Eng) : (s.updEng e f).aux = s.aux := rfl
@[simp] theorem State.updEng_clk (s : State) (e : EngId) (f : Eng → Eng) : (s.updEng e f).clk = s.clk := rfl
@[simp] theorem State.updEng_mstepNext (s : State) (e : EngId) (f : Eng → Eng) : (s.updEng e f).mstepNext = s.mstepNext := rfl
@[simp] theorem State.updEng_mstepNow (s : State) (e : EngId) (f : Eng → Eng) : (s.updEng e f).mstepNow = s.mstepNow := rfl

/-! `updCtx` changes `ctxs`. -/

@[simp] theorem State.updCtx_pending (s : State) (c : CtxId) (f : Ctx → Ctx) : (s.updCtx c f).pending = s.pending := rfl
@[simp] theorem State.updCtx_now (s : State) (c : CtxId) (f : Ctx → Ctx) : (s.updCtx c f).now = s.now := rfl
@[simp] theorem State.updCtx_free (s : State) (c : CtxId) (f : Ctx → Ctx) : (s.updCtx c f).free = s.free := rfl
@[simp] theorem State.updCtx_rdata (s : State) (c : CtxId) (f : Ctx → Ctx) : (s.updCtx c f).rdata = s.rdata := rfl
@[simp] theorem State.updCtx_regs (s : State) (c : CtxId) (f : Ctx → Ctx) : (s.updCtx c f).regs = s.regs := rfl
@[simp] theorem State.updCtx_tbl (s : State) (c : CtxId) (f : Ctx → Ctx) : (s.updCtx c f).tbl = s.tbl := rfl
@[simp] theorem State.updCtx_bus (s : State) (c : CtxId) (f : Ctx → Ctx) : (s.updCtx c f).bus = s.bus := rfl
@[simp] theorem State.updCtx_pend (s : State) (c : CtxId) (f : Ctx → Ctx) : (s.updCtx c f).pend = s.pend := rfl
@[simp] theorem State.updCtx_raised (s : State) (c : CtxId) (f : Ctx → Ctx) : (s.updCtx c f).raised = s.raised := rfl
@[simp] theorem State.updCtx_queues (s : State) (c : CtxId) (f : Ctx → Ctx) : (s.updCtx c f).queues = s.queues := rfl
@[simp] theorem State.updCtx_msiUnmasked (s : State) (c : CtxId) (f : Ctx → Ctx) : (s.updCtx c f).msiUnmasked = s.msiUnmasked := rfl
@[simp] theorem State.updCtx_msiPend (s : State) (c : CtxId) (f : Ctx → Ctx) : (s.updCtx c f).msiPend = s.msiPend := rfl
@[simp] theorem State.updCtx_units (s : State) (c : CtxId) (f : Ctx → Ctx) : (s.updCtx c f).units = s.units := rfl
@[simp] theorem State.updCtx_groups (s : State) (c : CtxId) (f : Ctx → Ctx) : (s.updCtx c f).groups = s.groups := rfl
@[simp] theorem State.updCtx_engs (s : State) (c : CtxId) (f : Ctx → Ctx) : (s.updCtx c f).engs = s.engs := rfl
@[simp] theorem State.updCtx_faults (s : State) (c : CtxId) (f : Ctx → Ctx) : (s.updCtx c f).faults = s.faults := rfl
@[simp] theorem State.updCtx_mgt (s : State) (c : CtxId) (f : Ctx → Ctx) : (s.updCtx c f).mgt = s.mgt := rfl
@[simp] theorem State.updCtx_jrnl (s : State) (c : CtxId) (f : Ctx → Ctx) : (s.updCtx c f).jrnl = s.jrnl := rfl
@[simp] theorem State.updCtx_link (s : State) (c : CtxId) (f : Ctx → Ctx) : (s.updCtx c f).link = s.link := rfl
@[simp] theorem State.updCtx_ports (s : State) (c : CtxId) (f : Ctx → Ctx) : (s.updCtx c f).ports = s.ports := rfl
@[simp] theorem State.updCtx_chans (s : State) (c : CtxId) (f : Ctx → Ctx) : (s.updCtx c f).chans = s.chans := rfl
@[simp] theorem State.updCtx_scripts (s : State) (c : CtxId) (f : Ctx → Ctx) : (s.updCtx c f).scripts = s.scripts := rfl
@[simp] theorem State.updCtx_store (s : State) (c : CtxId) (f : Ctx → Ctx) : (s.updCtx c f).store = s.store := rfl
@[simp] theorem State.updCtx_tks (s : State) (c : CtxId) (f : Ctx → Ctx) : (s.updCtx c f).tks = s.tks := rfl
@[simp] theorem State.updCtx_axes (s : State) (c : CtxId) (f : Ctx → Ctx) : (s.updCtx c f).axes = s.axes := rfl
@[simp] theorem State.updCtx_mot (s : State) (c : CtxId) (f : Ctx → Ctx) : (s.updCtx c f).mot = s.mot := rfl
@[simp] theorem State.updCtx_aux (s : State) (c : CtxId) (f : Ctx → Ctx) : (s.updCtx c f).aux = s.aux := rfl
@[simp] theorem State.updCtx_clk (s : State) (c : CtxId) (f : Ctx → Ctx) : (s.updCtx c f).clk = s.clk := rfl
@[simp] theorem State.updCtx_mstepNext (s : State) (c : CtxId) (f : Ctx → Ctx) : (s.updCtx c f).mstepNext = s.mstepNext := rfl
@[simp] theorem State.updCtx_mstepNow (s : State) (c : CtxId) (f : Ctx → Ctx) : (s.updCtx c f).mstepNow = s.mstepNow := rfl

/-! `updGroup` changes `groups`. -/

@[simp] theorem State.updGroup_pending (s : State) (g : GroupId) (f : Group → Group) : (s.updGroup g f).pending = s.pending := rfl
@[simp] theorem State.updGroup_now (s : State) (g : GroupId) (f : Group → Group) : (s.updGroup g f).now = s.now := rfl
@[simp] theorem State.updGroup_free (s : State) (g : GroupId) (f : Group → Group) : (s.updGroup g f).free = s.free := rfl
@[simp] theorem State.updGroup_rdata (s : State) (g : GroupId) (f : Group → Group) : (s.updGroup g f).rdata = s.rdata := rfl
@[simp] theorem State.updGroup_regs (s : State) (g : GroupId) (f : Group → Group) : (s.updGroup g f).regs = s.regs := rfl
@[simp] theorem State.updGroup_tbl (s : State) (g : GroupId) (f : Group → Group) : (s.updGroup g f).tbl = s.tbl := rfl
@[simp] theorem State.updGroup_bus (s : State) (g : GroupId) (f : Group → Group) : (s.updGroup g f).bus = s.bus := rfl
@[simp] theorem State.updGroup_ctxs (s : State) (g : GroupId) (f : Group → Group) : (s.updGroup g f).ctxs = s.ctxs := rfl
@[simp] theorem State.updGroup_pend (s : State) (g : GroupId) (f : Group → Group) : (s.updGroup g f).pend = s.pend := rfl
@[simp] theorem State.updGroup_raised (s : State) (g : GroupId) (f : Group → Group) : (s.updGroup g f).raised = s.raised := rfl
@[simp] theorem State.updGroup_queues (s : State) (g : GroupId) (f : Group → Group) : (s.updGroup g f).queues = s.queues := rfl
@[simp] theorem State.updGroup_msiUnmasked (s : State) (g : GroupId) (f : Group → Group) : (s.updGroup g f).msiUnmasked = s.msiUnmasked := rfl
@[simp] theorem State.updGroup_msiPend (s : State) (g : GroupId) (f : Group → Group) : (s.updGroup g f).msiPend = s.msiPend := rfl
@[simp] theorem State.updGroup_units (s : State) (g : GroupId) (f : Group → Group) : (s.updGroup g f).units = s.units := rfl
@[simp] theorem State.updGroup_engs (s : State) (g : GroupId) (f : Group → Group) : (s.updGroup g f).engs = s.engs := rfl
@[simp] theorem State.updGroup_faults (s : State) (g : GroupId) (f : Group → Group) : (s.updGroup g f).faults = s.faults := rfl
@[simp] theorem State.updGroup_mgt (s : State) (g : GroupId) (f : Group → Group) : (s.updGroup g f).mgt = s.mgt := rfl
@[simp] theorem State.updGroup_jrnl (s : State) (g : GroupId) (f : Group → Group) : (s.updGroup g f).jrnl = s.jrnl := rfl
@[simp] theorem State.updGroup_link (s : State) (g : GroupId) (f : Group → Group) : (s.updGroup g f).link = s.link := rfl
@[simp] theorem State.updGroup_ports (s : State) (g : GroupId) (f : Group → Group) : (s.updGroup g f).ports = s.ports := rfl
@[simp] theorem State.updGroup_chans (s : State) (g : GroupId) (f : Group → Group) : (s.updGroup g f).chans = s.chans := rfl
@[simp] theorem State.updGroup_scripts (s : State) (g : GroupId) (f : Group → Group) : (s.updGroup g f).scripts = s.scripts := rfl
@[simp] theorem State.updGroup_store (s : State) (g : GroupId) (f : Group → Group) : (s.updGroup g f).store = s.store := rfl
@[simp] theorem State.updGroup_tks (s : State) (g : GroupId) (f : Group → Group) : (s.updGroup g f).tks = s.tks := rfl
@[simp] theorem State.updGroup_axes (s : State) (g : GroupId) (f : Group → Group) : (s.updGroup g f).axes = s.axes := rfl
@[simp] theorem State.updGroup_mot (s : State) (g : GroupId) (f : Group → Group) : (s.updGroup g f).mot = s.mot := rfl
@[simp] theorem State.updGroup_aux (s : State) (g : GroupId) (f : Group → Group) : (s.updGroup g f).aux = s.aux := rfl
@[simp] theorem State.updGroup_clk (s : State) (g : GroupId) (f : Group → Group) : (s.updGroup g f).clk = s.clk := rfl
@[simp] theorem State.updGroup_mstepNext (s : State) (g : GroupId) (f : Group → Group) : (s.updGroup g f).mstepNext = s.mstepNext := rfl
@[simp] theorem State.updGroup_mstepNow (s : State) (g : GroupId) (f : Group → Group) : (s.updGroup g f).mstepNow = s.mstepNow := rfl

/-! `updMgt` changes `mgt`. -/

@[simp] theorem State.updMgt_pending (s : State) (f : Mgt → Mgt) : (s.updMgt f).pending = s.pending := rfl
@[simp] theorem State.updMgt_now (s : State) (f : Mgt → Mgt) : (s.updMgt f).now = s.now := rfl
@[simp] theorem State.updMgt_free (s : State) (f : Mgt → Mgt) : (s.updMgt f).free = s.free := rfl
@[simp] theorem State.updMgt_rdata (s : State) (f : Mgt → Mgt) : (s.updMgt f).rdata = s.rdata := rfl
@[simp] theorem State.updMgt_regs (s : State) (f : Mgt → Mgt) : (s.updMgt f).regs = s.regs := rfl
@[simp] theorem State.updMgt_tbl (s : State) (f : Mgt → Mgt) : (s.updMgt f).tbl = s.tbl := rfl
@[simp] theorem State.updMgt_bus (s : State) (f : Mgt → Mgt) : (s.updMgt f).bus = s.bus := rfl
@[simp] theorem State.updMgt_ctxs (s : State) (f : Mgt → Mgt) : (s.updMgt f).ctxs = s.ctxs := rfl
@[simp] theorem State.updMgt_pend (s : State) (f : Mgt → Mgt) : (s.updMgt f).pend = s.pend := rfl
@[simp] theorem State.updMgt_raised (s : State) (f : Mgt → Mgt) : (s.updMgt f).raised = s.raised := rfl
@[simp] theorem State.updMgt_queues (s : State) (f : Mgt → Mgt) : (s.updMgt f).queues = s.queues := rfl
@[simp] theorem State.updMgt_msiUnmasked (s : State) (f : Mgt → Mgt) : (s.updMgt f).msiUnmasked = s.msiUnmasked := rfl
@[simp] theorem State.updMgt_msiPend (s : State) (f : Mgt → Mgt) : (s.updMgt f).msiPend = s.msiPend := rfl
@[simp] theorem State.updMgt_units (s : State) (f : Mgt → Mgt) : (s.updMgt f).units = s.units := rfl
@[simp] theorem State.updMgt_groups (s : State) (f : Mgt → Mgt) : (s.updMgt f).groups = s.groups := rfl
@[simp] theorem State.updMgt_engs (s : State) (f : Mgt → Mgt) : (s.updMgt f).engs = s.engs := rfl
@[simp] theorem State.updMgt_faults (s : State) (f : Mgt → Mgt) : (s.updMgt f).faults = s.faults := rfl
@[simp] theorem State.updMgt_jrnl (s : State) (f : Mgt → Mgt) : (s.updMgt f).jrnl = s.jrnl := rfl
@[simp] theorem State.updMgt_link (s : State) (f : Mgt → Mgt) : (s.updMgt f).link = s.link := rfl
@[simp] theorem State.updMgt_ports (s : State) (f : Mgt → Mgt) : (s.updMgt f).ports = s.ports := rfl
@[simp] theorem State.updMgt_chans (s : State) (f : Mgt → Mgt) : (s.updMgt f).chans = s.chans := rfl
@[simp] theorem State.updMgt_scripts (s : State) (f : Mgt → Mgt) : (s.updMgt f).scripts = s.scripts := rfl
@[simp] theorem State.updMgt_store (s : State) (f : Mgt → Mgt) : (s.updMgt f).store = s.store := rfl
@[simp] theorem State.updMgt_tks (s : State) (f : Mgt → Mgt) : (s.updMgt f).tks = s.tks := rfl
@[simp] theorem State.updMgt_axes (s : State) (f : Mgt → Mgt) : (s.updMgt f).axes = s.axes := rfl
@[simp] theorem State.updMgt_mot (s : State) (f : Mgt → Mgt) : (s.updMgt f).mot = s.mot := rfl
@[simp] theorem State.updMgt_aux (s : State) (f : Mgt → Mgt) : (s.updMgt f).aux = s.aux := rfl
@[simp] theorem State.updMgt_clk (s : State) (f : Mgt → Mgt) : (s.updMgt f).clk = s.clk := rfl
@[simp] theorem State.updMgt_mstepNext (s : State) (f : Mgt → Mgt) : (s.updMgt f).mstepNext = s.mstepNext := rfl
@[simp] theorem State.updMgt_mstepNow (s : State) (f : Mgt → Mgt) : (s.updMgt f).mstepNow = s.mstepNow := rfl

/-! `updScript` changes `scripts`. -/

@[simp] theorem State.updScript_pending (s : State) (c : ScriptId) (f : ScriptSt → ScriptSt) : (s.updScript c f).pending = s.pending := rfl
@[simp] theorem State.updScript_now (s : State) (c : ScriptId) (f : ScriptSt → ScriptSt) : (s.updScript c f).now = s.now := rfl
@[simp] theorem State.updScript_free (s : State) (c : ScriptId) (f : ScriptSt → ScriptSt) : (s.updScript c f).free = s.free := rfl
@[simp] theorem State.updScript_rdata (s : State) (c : ScriptId) (f : ScriptSt → ScriptSt) : (s.updScript c f).rdata = s.rdata := rfl
@[simp] theorem State.updScript_regs (s : State) (c : ScriptId) (f : ScriptSt → ScriptSt) : (s.updScript c f).regs = s.regs := rfl
@[simp] theorem State.updScript_tbl (s : State) (c : ScriptId) (f : ScriptSt → ScriptSt) : (s.updScript c f).tbl = s.tbl := rfl
@[simp] theorem State.updScript_bus (s : State) (c : ScriptId) (f : ScriptSt → ScriptSt) : (s.updScript c f).bus = s.bus := rfl
@[simp] theorem State.updScript_ctxs (s : State) (c : ScriptId) (f : ScriptSt → ScriptSt) : (s.updScript c f).ctxs = s.ctxs := rfl
@[simp] theorem State.updScript_pend (s : State) (c : ScriptId) (f : ScriptSt → ScriptSt) : (s.updScript c f).pend = s.pend := rfl
@[simp] theorem State.updScript_raised (s : State) (c : ScriptId) (f : ScriptSt → ScriptSt) : (s.updScript c f).raised = s.raised := rfl
@[simp] theorem State.updScript_queues (s : State) (c : ScriptId) (f : ScriptSt → ScriptSt) : (s.updScript c f).queues = s.queues := rfl
@[simp] theorem State.updScript_msiUnmasked (s : State) (c : ScriptId) (f : ScriptSt → ScriptSt) : (s.updScript c f).msiUnmasked = s.msiUnmasked := rfl
@[simp] theorem State.updScript_msiPend (s : State) (c : ScriptId) (f : ScriptSt → ScriptSt) : (s.updScript c f).msiPend = s.msiPend := rfl
@[simp] theorem State.updScript_units (s : State) (c : ScriptId) (f : ScriptSt → ScriptSt) : (s.updScript c f).units = s.units := rfl
@[simp] theorem State.updScript_groups (s : State) (c : ScriptId) (f : ScriptSt → ScriptSt) : (s.updScript c f).groups = s.groups := rfl
@[simp] theorem State.updScript_engs (s : State) (c : ScriptId) (f : ScriptSt → ScriptSt) : (s.updScript c f).engs = s.engs := rfl
@[simp] theorem State.updScript_faults (s : State) (c : ScriptId) (f : ScriptSt → ScriptSt) : (s.updScript c f).faults = s.faults := rfl
@[simp] theorem State.updScript_mgt (s : State) (c : ScriptId) (f : ScriptSt → ScriptSt) : (s.updScript c f).mgt = s.mgt := rfl
@[simp] theorem State.updScript_jrnl (s : State) (c : ScriptId) (f : ScriptSt → ScriptSt) : (s.updScript c f).jrnl = s.jrnl := rfl
@[simp] theorem State.updScript_link (s : State) (c : ScriptId) (f : ScriptSt → ScriptSt) : (s.updScript c f).link = s.link := rfl
@[simp] theorem State.updScript_ports (s : State) (c : ScriptId) (f : ScriptSt → ScriptSt) : (s.updScript c f).ports = s.ports := rfl
@[simp] theorem State.updScript_chans (s : State) (c : ScriptId) (f : ScriptSt → ScriptSt) : (s.updScript c f).chans = s.chans := rfl
@[simp] theorem State.updScript_store (s : State) (c : ScriptId) (f : ScriptSt → ScriptSt) : (s.updScript c f).store = s.store := rfl
@[simp] theorem State.updScript_tks (s : State) (c : ScriptId) (f : ScriptSt → ScriptSt) : (s.updScript c f).tks = s.tks := rfl
@[simp] theorem State.updScript_axes (s : State) (c : ScriptId) (f : ScriptSt → ScriptSt) : (s.updScript c f).axes = s.axes := rfl
@[simp] theorem State.updScript_mot (s : State) (c : ScriptId) (f : ScriptSt → ScriptSt) : (s.updScript c f).mot = s.mot := rfl
@[simp] theorem State.updScript_aux (s : State) (c : ScriptId) (f : ScriptSt → ScriptSt) : (s.updScript c f).aux = s.aux := rfl
@[simp] theorem State.updScript_clk (s : State) (c : ScriptId) (f : ScriptSt → ScriptSt) : (s.updScript c f).clk = s.clk := rfl
@[simp] theorem State.updScript_mstepNext (s : State) (c : ScriptId) (f : ScriptSt → ScriptSt) : (s.updScript c f).mstepNext = s.mstepNext := rfl
@[simp] theorem State.updScript_mstepNow (s : State) (c : ScriptId) (f : ScriptSt → ScriptSt) : (s.updScript c f).mstepNow = s.mstepNow := rfl

/-! `updAxis` changes `axes`. -/

@[simp] theorem State.updAxis_pending (s : State) (a : AxisId) (f : AxisSt → AxisSt) : (s.updAxis a f).pending = s.pending := rfl
@[simp] theorem State.updAxis_now (s : State) (a : AxisId) (f : AxisSt → AxisSt) : (s.updAxis a f).now = s.now := rfl
@[simp] theorem State.updAxis_free (s : State) (a : AxisId) (f : AxisSt → AxisSt) : (s.updAxis a f).free = s.free := rfl
@[simp] theorem State.updAxis_rdata (s : State) (a : AxisId) (f : AxisSt → AxisSt) : (s.updAxis a f).rdata = s.rdata := rfl
@[simp] theorem State.updAxis_regs (s : State) (a : AxisId) (f : AxisSt → AxisSt) : (s.updAxis a f).regs = s.regs := rfl
@[simp] theorem State.updAxis_tbl (s : State) (a : AxisId) (f : AxisSt → AxisSt) : (s.updAxis a f).tbl = s.tbl := rfl
@[simp] theorem State.updAxis_bus (s : State) (a : AxisId) (f : AxisSt → AxisSt) : (s.updAxis a f).bus = s.bus := rfl
@[simp] theorem State.updAxis_ctxs (s : State) (a : AxisId) (f : AxisSt → AxisSt) : (s.updAxis a f).ctxs = s.ctxs := rfl
@[simp] theorem State.updAxis_pend (s : State) (a : AxisId) (f : AxisSt → AxisSt) : (s.updAxis a f).pend = s.pend := rfl
@[simp] theorem State.updAxis_raised (s : State) (a : AxisId) (f : AxisSt → AxisSt) : (s.updAxis a f).raised = s.raised := rfl
@[simp] theorem State.updAxis_queues (s : State) (a : AxisId) (f : AxisSt → AxisSt) : (s.updAxis a f).queues = s.queues := rfl
@[simp] theorem State.updAxis_msiUnmasked (s : State) (a : AxisId) (f : AxisSt → AxisSt) : (s.updAxis a f).msiUnmasked = s.msiUnmasked := rfl
@[simp] theorem State.updAxis_msiPend (s : State) (a : AxisId) (f : AxisSt → AxisSt) : (s.updAxis a f).msiPend = s.msiPend := rfl
@[simp] theorem State.updAxis_units (s : State) (a : AxisId) (f : AxisSt → AxisSt) : (s.updAxis a f).units = s.units := rfl
@[simp] theorem State.updAxis_groups (s : State) (a : AxisId) (f : AxisSt → AxisSt) : (s.updAxis a f).groups = s.groups := rfl
@[simp] theorem State.updAxis_engs (s : State) (a : AxisId) (f : AxisSt → AxisSt) : (s.updAxis a f).engs = s.engs := rfl
@[simp] theorem State.updAxis_faults (s : State) (a : AxisId) (f : AxisSt → AxisSt) : (s.updAxis a f).faults = s.faults := rfl
@[simp] theorem State.updAxis_mgt (s : State) (a : AxisId) (f : AxisSt → AxisSt) : (s.updAxis a f).mgt = s.mgt := rfl
@[simp] theorem State.updAxis_jrnl (s : State) (a : AxisId) (f : AxisSt → AxisSt) : (s.updAxis a f).jrnl = s.jrnl := rfl
@[simp] theorem State.updAxis_link (s : State) (a : AxisId) (f : AxisSt → AxisSt) : (s.updAxis a f).link = s.link := rfl
@[simp] theorem State.updAxis_ports (s : State) (a : AxisId) (f : AxisSt → AxisSt) : (s.updAxis a f).ports = s.ports := rfl
@[simp] theorem State.updAxis_chans (s : State) (a : AxisId) (f : AxisSt → AxisSt) : (s.updAxis a f).chans = s.chans := rfl
@[simp] theorem State.updAxis_scripts (s : State) (a : AxisId) (f : AxisSt → AxisSt) : (s.updAxis a f).scripts = s.scripts := rfl
@[simp] theorem State.updAxis_store (s : State) (a : AxisId) (f : AxisSt → AxisSt) : (s.updAxis a f).store = s.store := rfl
@[simp] theorem State.updAxis_tks (s : State) (a : AxisId) (f : AxisSt → AxisSt) : (s.updAxis a f).tks = s.tks := rfl
@[simp] theorem State.updAxis_mot (s : State) (a : AxisId) (f : AxisSt → AxisSt) : (s.updAxis a f).mot = s.mot := rfl
@[simp] theorem State.updAxis_aux (s : State) (a : AxisId) (f : AxisSt → AxisSt) : (s.updAxis a f).aux = s.aux := rfl
@[simp] theorem State.updAxis_clk (s : State) (a : AxisId) (f : AxisSt → AxisSt) : (s.updAxis a f).clk = s.clk := rfl
@[simp] theorem State.updAxis_mstepNext (s : State) (a : AxisId) (f : AxisSt → AxisSt) : (s.updAxis a f).mstepNext = s.mstepNext := rfl
@[simp] theorem State.updAxis_mstepNow (s : State) (a : AxisId) (f : AxisSt → AxisSt) : (s.updAxis a f).mstepNow = s.mstepNow := rfl

/-! `updSw` changes `axes`. -/

@[simp] theorem State.updSw_pending (s : State) (a : AxisId) (j : Fin 4) (f : SwSt → SwSt) : (s.updSw a j f).pending = s.pending := rfl
@[simp] theorem State.updSw_now (s : State) (a : AxisId) (j : Fin 4) (f : SwSt → SwSt) : (s.updSw a j f).now = s.now := rfl
@[simp] theorem State.updSw_free (s : State) (a : AxisId) (j : Fin 4) (f : SwSt → SwSt) : (s.updSw a j f).free = s.free := rfl
@[simp] theorem State.updSw_rdata (s : State) (a : AxisId) (j : Fin 4) (f : SwSt → SwSt) : (s.updSw a j f).rdata = s.rdata := rfl
@[simp] theorem State.updSw_regs (s : State) (a : AxisId) (j : Fin 4) (f : SwSt → SwSt) : (s.updSw a j f).regs = s.regs := rfl
@[simp] theorem State.updSw_tbl (s : State) (a : AxisId) (j : Fin 4) (f : SwSt → SwSt) : (s.updSw a j f).tbl = s.tbl := rfl
@[simp] theorem State.updSw_bus (s : State) (a : AxisId) (j : Fin 4) (f : SwSt → SwSt) : (s.updSw a j f).bus = s.bus := rfl
@[simp] theorem State.updSw_ctxs (s : State) (a : AxisId) (j : Fin 4) (f : SwSt → SwSt) : (s.updSw a j f).ctxs = s.ctxs := rfl
@[simp] theorem State.updSw_pend (s : State) (a : AxisId) (j : Fin 4) (f : SwSt → SwSt) : (s.updSw a j f).pend = s.pend := rfl
@[simp] theorem State.updSw_raised (s : State) (a : AxisId) (j : Fin 4) (f : SwSt → SwSt) : (s.updSw a j f).raised = s.raised := rfl
@[simp] theorem State.updSw_queues (s : State) (a : AxisId) (j : Fin 4) (f : SwSt → SwSt) : (s.updSw a j f).queues = s.queues := rfl
@[simp] theorem State.updSw_msiUnmasked (s : State) (a : AxisId) (j : Fin 4) (f : SwSt → SwSt) : (s.updSw a j f).msiUnmasked = s.msiUnmasked := rfl
@[simp] theorem State.updSw_msiPend (s : State) (a : AxisId) (j : Fin 4) (f : SwSt → SwSt) : (s.updSw a j f).msiPend = s.msiPend := rfl
@[simp] theorem State.updSw_units (s : State) (a : AxisId) (j : Fin 4) (f : SwSt → SwSt) : (s.updSw a j f).units = s.units := rfl
@[simp] theorem State.updSw_groups (s : State) (a : AxisId) (j : Fin 4) (f : SwSt → SwSt) : (s.updSw a j f).groups = s.groups := rfl
@[simp] theorem State.updSw_engs (s : State) (a : AxisId) (j : Fin 4) (f : SwSt → SwSt) : (s.updSw a j f).engs = s.engs := rfl
@[simp] theorem State.updSw_faults (s : State) (a : AxisId) (j : Fin 4) (f : SwSt → SwSt) : (s.updSw a j f).faults = s.faults := rfl
@[simp] theorem State.updSw_mgt (s : State) (a : AxisId) (j : Fin 4) (f : SwSt → SwSt) : (s.updSw a j f).mgt = s.mgt := rfl
@[simp] theorem State.updSw_jrnl (s : State) (a : AxisId) (j : Fin 4) (f : SwSt → SwSt) : (s.updSw a j f).jrnl = s.jrnl := rfl
@[simp] theorem State.updSw_link (s : State) (a : AxisId) (j : Fin 4) (f : SwSt → SwSt) : (s.updSw a j f).link = s.link := rfl
@[simp] theorem State.updSw_ports (s : State) (a : AxisId) (j : Fin 4) (f : SwSt → SwSt) : (s.updSw a j f).ports = s.ports := rfl
@[simp] theorem State.updSw_chans (s : State) (a : AxisId) (j : Fin 4) (f : SwSt → SwSt) : (s.updSw a j f).chans = s.chans := rfl
@[simp] theorem State.updSw_scripts (s : State) (a : AxisId) (j : Fin 4) (f : SwSt → SwSt) : (s.updSw a j f).scripts = s.scripts := rfl
@[simp] theorem State.updSw_store (s : State) (a : AxisId) (j : Fin 4) (f : SwSt → SwSt) : (s.updSw a j f).store = s.store := rfl
@[simp] theorem State.updSw_tks (s : State) (a : AxisId) (j : Fin 4) (f : SwSt → SwSt) : (s.updSw a j f).tks = s.tks := rfl
@[simp] theorem State.updSw_mot (s : State) (a : AxisId) (j : Fin 4) (f : SwSt → SwSt) : (s.updSw a j f).mot = s.mot := rfl
@[simp] theorem State.updSw_aux (s : State) (a : AxisId) (j : Fin 4) (f : SwSt → SwSt) : (s.updSw a j f).aux = s.aux := rfl
@[simp] theorem State.updSw_clk (s : State) (a : AxisId) (j : Fin 4) (f : SwSt → SwSt) : (s.updSw a j f).clk = s.clk := rfl
@[simp] theorem State.updSw_mstepNext (s : State) (a : AxisId) (j : Fin 4) (f : SwSt → SwSt) : (s.updSw a j f).mstepNext = s.mstepNext := rfl
@[simp] theorem State.updSw_mstepNow (s : State) (a : AxisId) (j : Fin 4) (f : SwSt → SwSt) : (s.updSw a j f).mstepNow = s.mstepNow := rfl

/-! `updWind` changes `axes`. -/

@[simp] theorem State.updWind_pending (s : State) (a : AxisId) (w : Fin 2) (f : Winding → Winding) : (s.updWind a w f).pending = s.pending := rfl
@[simp] theorem State.updWind_now (s : State) (a : AxisId) (w : Fin 2) (f : Winding → Winding) : (s.updWind a w f).now = s.now := rfl
@[simp] theorem State.updWind_free (s : State) (a : AxisId) (w : Fin 2) (f : Winding → Winding) : (s.updWind a w f).free = s.free := rfl
@[simp] theorem State.updWind_rdata (s : State) (a : AxisId) (w : Fin 2) (f : Winding → Winding) : (s.updWind a w f).rdata = s.rdata := rfl
@[simp] theorem State.updWind_regs (s : State) (a : AxisId) (w : Fin 2) (f : Winding → Winding) : (s.updWind a w f).regs = s.regs := rfl
@[simp] theorem State.updWind_tbl (s : State) (a : AxisId) (w : Fin 2) (f : Winding → Winding) : (s.updWind a w f).tbl = s.tbl := rfl
@[simp] theorem State.updWind_bus (s : State) (a : AxisId) (w : Fin 2) (f : Winding → Winding) : (s.updWind a w f).bus = s.bus := rfl
@[simp] theorem State.updWind_ctxs (s : State) (a : AxisId) (w : Fin 2) (f : Winding → Winding) : (s.updWind a w f).ctxs = s.ctxs := rfl
@[simp] theorem State.updWind_pend (s : State) (a : AxisId) (w : Fin 2) (f : Winding → Winding) : (s.updWind a w f).pend = s.pend := rfl
@[simp] theorem State.updWind_raised (s : State) (a : AxisId) (w : Fin 2) (f : Winding → Winding) : (s.updWind a w f).raised = s.raised := rfl
@[simp] theorem State.updWind_queues (s : State) (a : AxisId) (w : Fin 2) (f : Winding → Winding) : (s.updWind a w f).queues = s.queues := rfl
@[simp] theorem State.updWind_msiUnmasked (s : State) (a : AxisId) (w : Fin 2) (f : Winding → Winding) : (s.updWind a w f).msiUnmasked = s.msiUnmasked := rfl
@[simp] theorem State.updWind_msiPend (s : State) (a : AxisId) (w : Fin 2) (f : Winding → Winding) : (s.updWind a w f).msiPend = s.msiPend := rfl
@[simp] theorem State.updWind_units (s : State) (a : AxisId) (w : Fin 2) (f : Winding → Winding) : (s.updWind a w f).units = s.units := rfl
@[simp] theorem State.updWind_groups (s : State) (a : AxisId) (w : Fin 2) (f : Winding → Winding) : (s.updWind a w f).groups = s.groups := rfl
@[simp] theorem State.updWind_engs (s : State) (a : AxisId) (w : Fin 2) (f : Winding → Winding) : (s.updWind a w f).engs = s.engs := rfl
@[simp] theorem State.updWind_faults (s : State) (a : AxisId) (w : Fin 2) (f : Winding → Winding) : (s.updWind a w f).faults = s.faults := rfl
@[simp] theorem State.updWind_mgt (s : State) (a : AxisId) (w : Fin 2) (f : Winding → Winding) : (s.updWind a w f).mgt = s.mgt := rfl
@[simp] theorem State.updWind_jrnl (s : State) (a : AxisId) (w : Fin 2) (f : Winding → Winding) : (s.updWind a w f).jrnl = s.jrnl := rfl
@[simp] theorem State.updWind_link (s : State) (a : AxisId) (w : Fin 2) (f : Winding → Winding) : (s.updWind a w f).link = s.link := rfl
@[simp] theorem State.updWind_ports (s : State) (a : AxisId) (w : Fin 2) (f : Winding → Winding) : (s.updWind a w f).ports = s.ports := rfl
@[simp] theorem State.updWind_chans (s : State) (a : AxisId) (w : Fin 2) (f : Winding → Winding) : (s.updWind a w f).chans = s.chans := rfl
@[simp] theorem State.updWind_scripts (s : State) (a : AxisId) (w : Fin 2) (f : Winding → Winding) : (s.updWind a w f).scripts = s.scripts := rfl
@[simp] theorem State.updWind_store (s : State) (a : AxisId) (w : Fin 2) (f : Winding → Winding) : (s.updWind a w f).store = s.store := rfl
@[simp] theorem State.updWind_tks (s : State) (a : AxisId) (w : Fin 2) (f : Winding → Winding) : (s.updWind a w f).tks = s.tks := rfl
@[simp] theorem State.updWind_mot (s : State) (a : AxisId) (w : Fin 2) (f : Winding → Winding) : (s.updWind a w f).mot = s.mot := rfl
@[simp] theorem State.updWind_aux (s : State) (a : AxisId) (w : Fin 2) (f : Winding → Winding) : (s.updWind a w f).aux = s.aux := rfl
@[simp] theorem State.updWind_clk (s : State) (a : AxisId) (w : Fin 2) (f : Winding → Winding) : (s.updWind a w f).clk = s.clk := rfl
@[simp] theorem State.updWind_mstepNext (s : State) (a : AxisId) (w : Fin 2) (f : Winding → Winding) : (s.updWind a w f).mstepNext = s.mstepNext := rfl
@[simp] theorem State.updWind_mstepNow (s : State) (a : AxisId) (w : Fin 2) (f : Winding → Winding) : (s.updWind a w f).mstepNow = s.mstepNow := rfl

/-! `updLtg` changes `ports`. -/

@[simp] theorem State.updLtg_pending (s : State) (p : PortId) (f : LtgSt → LtgSt) : (s.updLtg p f).pending = s.pending := rfl
@[simp] theorem State.updLtg_now (s : State) (p : PortId) (f : LtgSt → LtgSt) : (s.updLtg p f).now = s.now := rfl
@[simp] theorem State.updLtg_free (s : State) (p : PortId) (f : LtgSt → LtgSt) : (s.updLtg p f).free = s.free := rfl
@[simp] theorem State.updLtg_rdata (s : State) (p : PortId) (f : LtgSt → LtgSt) : (s.updLtg p f).rdata = s.rdata := rfl
@[simp] theorem State.updLtg_regs (s : State) (p : PortId) (f : LtgSt → LtgSt) : (s.updLtg p f).regs = s.regs := rfl
@[simp] theorem State.updLtg_tbl (s : State) (p : PortId) (f : LtgSt → LtgSt) : (s.updLtg p f).tbl = s.tbl := rfl
@[simp] theorem State.updLtg_bus (s : State) (p : PortId) (f : LtgSt → LtgSt) : (s.updLtg p f).bus = s.bus := rfl
@[simp] theorem State.updLtg_ctxs (s : State) (p : PortId) (f : LtgSt → LtgSt) : (s.updLtg p f).ctxs = s.ctxs := rfl
@[simp] theorem State.updLtg_pend (s : State) (p : PortId) (f : LtgSt → LtgSt) : (s.updLtg p f).pend = s.pend := rfl
@[simp] theorem State.updLtg_raised (s : State) (p : PortId) (f : LtgSt → LtgSt) : (s.updLtg p f).raised = s.raised := rfl
@[simp] theorem State.updLtg_queues (s : State) (p : PortId) (f : LtgSt → LtgSt) : (s.updLtg p f).queues = s.queues := rfl
@[simp] theorem State.updLtg_msiUnmasked (s : State) (p : PortId) (f : LtgSt → LtgSt) : (s.updLtg p f).msiUnmasked = s.msiUnmasked := rfl
@[simp] theorem State.updLtg_msiPend (s : State) (p : PortId) (f : LtgSt → LtgSt) : (s.updLtg p f).msiPend = s.msiPend := rfl
@[simp] theorem State.updLtg_units (s : State) (p : PortId) (f : LtgSt → LtgSt) : (s.updLtg p f).units = s.units := rfl
@[simp] theorem State.updLtg_groups (s : State) (p : PortId) (f : LtgSt → LtgSt) : (s.updLtg p f).groups = s.groups := rfl
@[simp] theorem State.updLtg_engs (s : State) (p : PortId) (f : LtgSt → LtgSt) : (s.updLtg p f).engs = s.engs := rfl
@[simp] theorem State.updLtg_faults (s : State) (p : PortId) (f : LtgSt → LtgSt) : (s.updLtg p f).faults = s.faults := rfl
@[simp] theorem State.updLtg_mgt (s : State) (p : PortId) (f : LtgSt → LtgSt) : (s.updLtg p f).mgt = s.mgt := rfl
@[simp] theorem State.updLtg_jrnl (s : State) (p : PortId) (f : LtgSt → LtgSt) : (s.updLtg p f).jrnl = s.jrnl := rfl
@[simp] theorem State.updLtg_link (s : State) (p : PortId) (f : LtgSt → LtgSt) : (s.updLtg p f).link = s.link := rfl
@[simp] theorem State.updLtg_chans (s : State) (p : PortId) (f : LtgSt → LtgSt) : (s.updLtg p f).chans = s.chans := rfl
@[simp] theorem State.updLtg_scripts (s : State) (p : PortId) (f : LtgSt → LtgSt) : (s.updLtg p f).scripts = s.scripts := rfl
@[simp] theorem State.updLtg_store (s : State) (p : PortId) (f : LtgSt → LtgSt) : (s.updLtg p f).store = s.store := rfl
@[simp] theorem State.updLtg_tks (s : State) (p : PortId) (f : LtgSt → LtgSt) : (s.updLtg p f).tks = s.tks := rfl
@[simp] theorem State.updLtg_axes (s : State) (p : PortId) (f : LtgSt → LtgSt) : (s.updLtg p f).axes = s.axes := rfl
@[simp] theorem State.updLtg_mot (s : State) (p : PortId) (f : LtgSt → LtgSt) : (s.updLtg p f).mot = s.mot := rfl
@[simp] theorem State.updLtg_aux (s : State) (p : PortId) (f : LtgSt → LtgSt) : (s.updLtg p f).aux = s.aux := rfl
@[simp] theorem State.updLtg_clk (s : State) (p : PortId) (f : LtgSt → LtgSt) : (s.updLtg p f).clk = s.clk := rfl
@[simp] theorem State.updLtg_mstepNext (s : State) (p : PortId) (f : LtgSt → LtgSt) : (s.updLtg p f).mstepNext = s.mstepNext := rfl
@[simp] theorem State.updLtg_mstepNow (s : State) (p : PortId) (f : LtgSt → LtgSt) : (s.updLtg p f).mstepNow = s.mstepNow := rfl

/-! `updPipe` changes `ports`. -/

@[simp] theorem State.updPipe_pending (s : State) (p : PortId) (f : PipeSt → PipeSt) : (s.updPipe p f).pending = s.pending := rfl
@[simp] theorem State.updPipe_now (s : State) (p : PortId) (f : PipeSt → PipeSt) : (s.updPipe p f).now = s.now := rfl
@[simp] theorem State.updPipe_free (s : State) (p : PortId) (f : PipeSt → PipeSt) : (s.updPipe p f).free = s.free := rfl
@[simp] theorem State.updPipe_rdata (s : State) (p : PortId) (f : PipeSt → PipeSt) : (s.updPipe p f).rdata = s.rdata := rfl
@[simp] theorem State.updPipe_regs (s : State) (p : PortId) (f : PipeSt → PipeSt) : (s.updPipe p f).regs = s.regs := rfl
@[simp] theorem State.updPipe_tbl (s : State) (p : PortId) (f : PipeSt → PipeSt) : (s.updPipe p f).tbl = s.tbl := rfl
@[simp] theorem State.updPipe_bus (s : State) (p : PortId) (f : PipeSt → PipeSt) : (s.updPipe p f).bus = s.bus := rfl
@[simp] theorem State.updPipe_ctxs (s : State) (p : PortId) (f : PipeSt → PipeSt) : (s.updPipe p f).ctxs = s.ctxs := rfl
@[simp] theorem State.updPipe_pend (s : State) (p : PortId) (f : PipeSt → PipeSt) : (s.updPipe p f).pend = s.pend := rfl
@[simp] theorem State.updPipe_raised (s : State) (p : PortId) (f : PipeSt → PipeSt) : (s.updPipe p f).raised = s.raised := rfl
@[simp] theorem State.updPipe_queues (s : State) (p : PortId) (f : PipeSt → PipeSt) : (s.updPipe p f).queues = s.queues := rfl
@[simp] theorem State.updPipe_msiUnmasked (s : State) (p : PortId) (f : PipeSt → PipeSt) : (s.updPipe p f).msiUnmasked = s.msiUnmasked := rfl
@[simp] theorem State.updPipe_msiPend (s : State) (p : PortId) (f : PipeSt → PipeSt) : (s.updPipe p f).msiPend = s.msiPend := rfl
@[simp] theorem State.updPipe_units (s : State) (p : PortId) (f : PipeSt → PipeSt) : (s.updPipe p f).units = s.units := rfl
@[simp] theorem State.updPipe_groups (s : State) (p : PortId) (f : PipeSt → PipeSt) : (s.updPipe p f).groups = s.groups := rfl
@[simp] theorem State.updPipe_engs (s : State) (p : PortId) (f : PipeSt → PipeSt) : (s.updPipe p f).engs = s.engs := rfl
@[simp] theorem State.updPipe_faults (s : State) (p : PortId) (f : PipeSt → PipeSt) : (s.updPipe p f).faults = s.faults := rfl
@[simp] theorem State.updPipe_mgt (s : State) (p : PortId) (f : PipeSt → PipeSt) : (s.updPipe p f).mgt = s.mgt := rfl
@[simp] theorem State.updPipe_jrnl (s : State) (p : PortId) (f : PipeSt → PipeSt) : (s.updPipe p f).jrnl = s.jrnl := rfl
@[simp] theorem State.updPipe_link (s : State) (p : PortId) (f : PipeSt → PipeSt) : (s.updPipe p f).link = s.link := rfl
@[simp] theorem State.updPipe_chans (s : State) (p : PortId) (f : PipeSt → PipeSt) : (s.updPipe p f).chans = s.chans := rfl
@[simp] theorem State.updPipe_scripts (s : State) (p : PortId) (f : PipeSt → PipeSt) : (s.updPipe p f).scripts = s.scripts := rfl
@[simp] theorem State.updPipe_store (s : State) (p : PortId) (f : PipeSt → PipeSt) : (s.updPipe p f).store = s.store := rfl
@[simp] theorem State.updPipe_tks (s : State) (p : PortId) (f : PipeSt → PipeSt) : (s.updPipe p f).tks = s.tks := rfl
@[simp] theorem State.updPipe_axes (s : State) (p : PortId) (f : PipeSt → PipeSt) : (s.updPipe p f).axes = s.axes := rfl
@[simp] theorem State.updPipe_mot (s : State) (p : PortId) (f : PipeSt → PipeSt) : (s.updPipe p f).mot = s.mot := rfl
@[simp] theorem State.updPipe_aux (s : State) (p : PortId) (f : PipeSt → PipeSt) : (s.updPipe p f).aux = s.aux := rfl
@[simp] theorem State.updPipe_clk (s : State) (p : PortId) (f : PipeSt → PipeSt) : (s.updPipe p f).clk = s.clk := rfl
@[simp] theorem State.updPipe_mstepNext (s : State) (p : PortId) (f : PipeSt → PipeSt) : (s.updPipe p f).mstepNext = s.mstepNext := rfl
@[simp] theorem State.updPipe_mstepNow (s : State) (p : PortId) (f : PipeSt → PipeSt) : (s.updPipe p f).mstepNow = s.mstepNow := rfl

/-! `setTbl` changes `tbl`. -/

@[simp] theorem State.setTbl_pending (s : State) (k v : Nat) : (s.setTbl k v).pending = s.pending := rfl
@[simp] theorem State.setTbl_now (s : State) (k v : Nat) : (s.setTbl k v).now = s.now := rfl
@[simp] theorem State.setTbl_free (s : State) (k v : Nat) : (s.setTbl k v).free = s.free := rfl
@[simp] theorem State.setTbl_rdata (s : State) (k v : Nat) : (s.setTbl k v).rdata = s.rdata := rfl
@[simp] theorem State.setTbl_regs (s : State) (k v : Nat) : (s.setTbl k v).regs = s.regs := rfl
@[simp] theorem State.setTbl_bus (s : State) (k v : Nat) : (s.setTbl k v).bus = s.bus := rfl
@[simp] theorem State.setTbl_ctxs (s : State) (k v : Nat) : (s.setTbl k v).ctxs = s.ctxs := rfl
@[simp] theorem State.setTbl_pend (s : State) (k v : Nat) : (s.setTbl k v).pend = s.pend := rfl
@[simp] theorem State.setTbl_raised (s : State) (k v : Nat) : (s.setTbl k v).raised = s.raised := rfl
@[simp] theorem State.setTbl_queues (s : State) (k v : Nat) : (s.setTbl k v).queues = s.queues := rfl
@[simp] theorem State.setTbl_msiUnmasked (s : State) (k v : Nat) : (s.setTbl k v).msiUnmasked = s.msiUnmasked := rfl
@[simp] theorem State.setTbl_msiPend (s : State) (k v : Nat) : (s.setTbl k v).msiPend = s.msiPend := rfl
@[simp] theorem State.setTbl_units (s : State) (k v : Nat) : (s.setTbl k v).units = s.units := rfl
@[simp] theorem State.setTbl_groups (s : State) (k v : Nat) : (s.setTbl k v).groups = s.groups := rfl
@[simp] theorem State.setTbl_engs (s : State) (k v : Nat) : (s.setTbl k v).engs = s.engs := rfl
@[simp] theorem State.setTbl_faults (s : State) (k v : Nat) : (s.setTbl k v).faults = s.faults := rfl
@[simp] theorem State.setTbl_mgt (s : State) (k v : Nat) : (s.setTbl k v).mgt = s.mgt := rfl
@[simp] theorem State.setTbl_jrnl (s : State) (k v : Nat) : (s.setTbl k v).jrnl = s.jrnl := rfl
@[simp] theorem State.setTbl_link (s : State) (k v : Nat) : (s.setTbl k v).link = s.link := rfl
@[simp] theorem State.setTbl_ports (s : State) (k v : Nat) : (s.setTbl k v).ports = s.ports := rfl
@[simp] theorem State.setTbl_chans (s : State) (k v : Nat) : (s.setTbl k v).chans = s.chans := rfl
@[simp] theorem State.setTbl_scripts (s : State) (k v : Nat) : (s.setTbl k v).scripts = s.scripts := rfl
@[simp] theorem State.setTbl_store (s : State) (k v : Nat) : (s.setTbl k v).store = s.store := rfl
@[simp] theorem State.setTbl_tks (s : State) (k v : Nat) : (s.setTbl k v).tks = s.tks := rfl
@[simp] theorem State.setTbl_axes (s : State) (k v : Nat) : (s.setTbl k v).axes = s.axes := rfl
@[simp] theorem State.setTbl_mot (s : State) (k v : Nat) : (s.setTbl k v).mot = s.mot := rfl
@[simp] theorem State.setTbl_aux (s : State) (k v : Nat) : (s.setTbl k v).aux = s.aux := rfl
@[simp] theorem State.setTbl_clk (s : State) (k v : Nat) : (s.setTbl k v).clk = s.clk := rfl
@[simp] theorem State.setTbl_mstepNext (s : State) (k v : Nat) : (s.setTbl k v).mstepNext = s.mstepNext := rfl
@[simp] theorem State.setTbl_mstepNow (s : State) (k v : Nat) : (s.setTbl k v).mstepNow = s.mstepNow := rfl

/-! `updQueue` changes `queues`. -/

@[simp] theorem State.updQueue_pending (s : State) (q : QueueId) (f : EvQueue → EvQueue) : (s.updQueue q f).pending = s.pending := rfl
@[simp] theorem State.updQueue_now (s : State) (q : QueueId) (f : EvQueue → EvQueue) : (s.updQueue q f).now = s.now := rfl
@[simp] theorem State.updQueue_free (s : State) (q : QueueId) (f : EvQueue → EvQueue) : (s.updQueue q f).free = s.free := rfl
@[simp] theorem State.updQueue_rdata (s : State) (q : QueueId) (f : EvQueue → EvQueue) : (s.updQueue q f).rdata = s.rdata := rfl
@[simp] theorem State.updQueue_regs (s : State) (q : QueueId) (f : EvQueue → EvQueue) : (s.updQueue q f).regs = s.regs := rfl
@[simp] theorem State.updQueue_tbl (s : State) (q : QueueId) (f : EvQueue → EvQueue) : (s.updQueue q f).tbl = s.tbl := rfl
@[simp] theorem State.updQueue_bus (s : State) (q : QueueId) (f : EvQueue → EvQueue) : (s.updQueue q f).bus = s.bus := rfl
@[simp] theorem State.updQueue_ctxs (s : State) (q : QueueId) (f : EvQueue → EvQueue) : (s.updQueue q f).ctxs = s.ctxs := rfl
@[simp] theorem State.updQueue_pend (s : State) (q : QueueId) (f : EvQueue → EvQueue) : (s.updQueue q f).pend = s.pend := rfl
@[simp] theorem State.updQueue_raised (s : State) (q : QueueId) (f : EvQueue → EvQueue) : (s.updQueue q f).raised = s.raised := rfl
@[simp] theorem State.updQueue_msiUnmasked (s : State) (q : QueueId) (f : EvQueue → EvQueue) : (s.updQueue q f).msiUnmasked = s.msiUnmasked := rfl
@[simp] theorem State.updQueue_msiPend (s : State) (q : QueueId) (f : EvQueue → EvQueue) : (s.updQueue q f).msiPend = s.msiPend := rfl
@[simp] theorem State.updQueue_units (s : State) (q : QueueId) (f : EvQueue → EvQueue) : (s.updQueue q f).units = s.units := rfl
@[simp] theorem State.updQueue_groups (s : State) (q : QueueId) (f : EvQueue → EvQueue) : (s.updQueue q f).groups = s.groups := rfl
@[simp] theorem State.updQueue_engs (s : State) (q : QueueId) (f : EvQueue → EvQueue) : (s.updQueue q f).engs = s.engs := rfl
@[simp] theorem State.updQueue_faults (s : State) (q : QueueId) (f : EvQueue → EvQueue) : (s.updQueue q f).faults = s.faults := rfl
@[simp] theorem State.updQueue_mgt (s : State) (q : QueueId) (f : EvQueue → EvQueue) : (s.updQueue q f).mgt = s.mgt := rfl
@[simp] theorem State.updQueue_jrnl (s : State) (q : QueueId) (f : EvQueue → EvQueue) : (s.updQueue q f).jrnl = s.jrnl := rfl
@[simp] theorem State.updQueue_link (s : State) (q : QueueId) (f : EvQueue → EvQueue) : (s.updQueue q f).link = s.link := rfl
@[simp] theorem State.updQueue_ports (s : State) (q : QueueId) (f : EvQueue → EvQueue) : (s.updQueue q f).ports = s.ports := rfl
@[simp] theorem State.updQueue_chans (s : State) (q : QueueId) (f : EvQueue → EvQueue) : (s.updQueue q f).chans = s.chans := rfl
@[simp] theorem State.updQueue_scripts (s : State) (q : QueueId) (f : EvQueue → EvQueue) : (s.updQueue q f).scripts = s.scripts := rfl
@[simp] theorem State.updQueue_store (s : State) (q : QueueId) (f : EvQueue → EvQueue) : (s.updQueue q f).store = s.store := rfl
@[simp] theorem State.updQueue_tks (s : State) (q : QueueId) (f : EvQueue → EvQueue) : (s.updQueue q f).tks = s.tks := rfl
@[simp] theorem State.updQueue_axes (s : State) (q : QueueId) (f : EvQueue → EvQueue) : (s.updQueue q f).axes = s.axes := rfl
@[simp] theorem State.updQueue_mot (s : State) (q : QueueId) (f : EvQueue → EvQueue) : (s.updQueue q f).mot = s.mot := rfl
@[simp] theorem State.updQueue_aux (s : State) (q : QueueId) (f : EvQueue → EvQueue) : (s.updQueue q f).aux = s.aux := rfl
@[simp] theorem State.updQueue_clk (s : State) (q : QueueId) (f : EvQueue → EvQueue) : (s.updQueue q f).clk = s.clk := rfl
@[simp] theorem State.updQueue_mstepNext (s : State) (q : QueueId) (f : EvQueue → EvQueue) : (s.updQueue q f).mstepNext = s.mstepNext := rfl
@[simp] theorem State.updQueue_mstepNow (s : State) (q : QueueId) (f : EvQueue → EvQueue) : (s.updQueue q f).mstepNow = s.mstepNow := rfl

/-! `updLink` changes `link`. -/

@[simp] theorem State.updLink_pending (s : State) (f : LinkSt → LinkSt) : (s.updLink f).pending = s.pending := rfl
@[simp] theorem State.updLink_now (s : State) (f : LinkSt → LinkSt) : (s.updLink f).now = s.now := rfl
@[simp] theorem State.updLink_free (s : State) (f : LinkSt → LinkSt) : (s.updLink f).free = s.free := rfl
@[simp] theorem State.updLink_rdata (s : State) (f : LinkSt → LinkSt) : (s.updLink f).rdata = s.rdata := rfl
@[simp] theorem State.updLink_regs (s : State) (f : LinkSt → LinkSt) : (s.updLink f).regs = s.regs := rfl
@[simp] theorem State.updLink_tbl (s : State) (f : LinkSt → LinkSt) : (s.updLink f).tbl = s.tbl := rfl
@[simp] theorem State.updLink_bus (s : State) (f : LinkSt → LinkSt) : (s.updLink f).bus = s.bus := rfl
@[simp] theorem State.updLink_ctxs (s : State) (f : LinkSt → LinkSt) : (s.updLink f).ctxs = s.ctxs := rfl
@[simp] theorem State.updLink_pend (s : State) (f : LinkSt → LinkSt) : (s.updLink f).pend = s.pend := rfl
@[simp] theorem State.updLink_raised (s : State) (f : LinkSt → LinkSt) : (s.updLink f).raised = s.raised := rfl
@[simp] theorem State.updLink_queues (s : State) (f : LinkSt → LinkSt) : (s.updLink f).queues = s.queues := rfl
@[simp] theorem State.updLink_msiUnmasked (s : State) (f : LinkSt → LinkSt) : (s.updLink f).msiUnmasked = s.msiUnmasked := rfl
@[simp] theorem State.updLink_msiPend (s : State) (f : LinkSt → LinkSt) : (s.updLink f).msiPend = s.msiPend := rfl
@[simp] theorem State.updLink_units (s : State) (f : LinkSt → LinkSt) : (s.updLink f).units = s.units := rfl
@[simp] theorem State.updLink_groups (s : State) (f : LinkSt → LinkSt) : (s.updLink f).groups = s.groups := rfl
@[simp] theorem State.updLink_engs (s : State) (f : LinkSt → LinkSt) : (s.updLink f).engs = s.engs := rfl
@[simp] theorem State.updLink_faults (s : State) (f : LinkSt → LinkSt) : (s.updLink f).faults = s.faults := rfl
@[simp] theorem State.updLink_mgt (s : State) (f : LinkSt → LinkSt) : (s.updLink f).mgt = s.mgt := rfl
@[simp] theorem State.updLink_jrnl (s : State) (f : LinkSt → LinkSt) : (s.updLink f).jrnl = s.jrnl := rfl
@[simp] theorem State.updLink_ports (s : State) (f : LinkSt → LinkSt) : (s.updLink f).ports = s.ports := rfl
@[simp] theorem State.updLink_chans (s : State) (f : LinkSt → LinkSt) : (s.updLink f).chans = s.chans := rfl
@[simp] theorem State.updLink_scripts (s : State) (f : LinkSt → LinkSt) : (s.updLink f).scripts = s.scripts := rfl
@[simp] theorem State.updLink_store (s : State) (f : LinkSt → LinkSt) : (s.updLink f).store = s.store := rfl
@[simp] theorem State.updLink_tks (s : State) (f : LinkSt → LinkSt) : (s.updLink f).tks = s.tks := rfl
@[simp] theorem State.updLink_axes (s : State) (f : LinkSt → LinkSt) : (s.updLink f).axes = s.axes := rfl
@[simp] theorem State.updLink_mot (s : State) (f : LinkSt → LinkSt) : (s.updLink f).mot = s.mot := rfl
@[simp] theorem State.updLink_aux (s : State) (f : LinkSt → LinkSt) : (s.updLink f).aux = s.aux := rfl
@[simp] theorem State.updLink_clk (s : State) (f : LinkSt → LinkSt) : (s.updLink f).clk = s.clk := rfl
@[simp] theorem State.updLink_mstepNext (s : State) (f : LinkSt → LinkSt) : (s.updLink f).mstepNext = s.mstepNext := rfl
@[simp] theorem State.updLink_mstepNow (s : State) (f : LinkSt → LinkSt) : (s.updLink f).mstepNow = s.mstepNow := rfl

/-! `hostRead` changes `bus`. -/

@[simp] theorem State.hostRead_pending (s : State) (addr len : Nat) : (s.hostRead addr len).pending = s.pending := rfl
@[simp] theorem State.hostRead_now (s : State) (addr len : Nat) : (s.hostRead addr len).now = s.now := rfl
@[simp] theorem State.hostRead_free (s : State) (addr len : Nat) : (s.hostRead addr len).free = s.free := rfl
@[simp] theorem State.hostRead_rdata (s : State) (addr len : Nat) : (s.hostRead addr len).rdata = s.rdata := rfl
@[simp] theorem State.hostRead_regs (s : State) (addr len : Nat) : (s.hostRead addr len).regs = s.regs := rfl
@[simp] theorem State.hostRead_tbl (s : State) (addr len : Nat) : (s.hostRead addr len).tbl = s.tbl := rfl
@[simp] theorem State.hostRead_ctxs (s : State) (addr len : Nat) : (s.hostRead addr len).ctxs = s.ctxs := rfl
@[simp] theorem State.hostRead_pend (s : State) (addr len : Nat) : (s.hostRead addr len).pend = s.pend := rfl
@[simp] theorem State.hostRead_raised (s : State) (addr len : Nat) : (s.hostRead addr len).raised = s.raised := rfl
@[simp] theorem State.hostRead_queues (s : State) (addr len : Nat) : (s.hostRead addr len).queues = s.queues := rfl
@[simp] theorem State.hostRead_msiUnmasked (s : State) (addr len : Nat) : (s.hostRead addr len).msiUnmasked = s.msiUnmasked := rfl
@[simp] theorem State.hostRead_msiPend (s : State) (addr len : Nat) : (s.hostRead addr len).msiPend = s.msiPend := rfl
@[simp] theorem State.hostRead_units (s : State) (addr len : Nat) : (s.hostRead addr len).units = s.units := rfl
@[simp] theorem State.hostRead_groups (s : State) (addr len : Nat) : (s.hostRead addr len).groups = s.groups := rfl
@[simp] theorem State.hostRead_engs (s : State) (addr len : Nat) : (s.hostRead addr len).engs = s.engs := rfl
@[simp] theorem State.hostRead_faults (s : State) (addr len : Nat) : (s.hostRead addr len).faults = s.faults := rfl
@[simp] theorem State.hostRead_mgt (s : State) (addr len : Nat) : (s.hostRead addr len).mgt = s.mgt := rfl
@[simp] theorem State.hostRead_jrnl (s : State) (addr len : Nat) : (s.hostRead addr len).jrnl = s.jrnl := rfl
@[simp] theorem State.hostRead_link (s : State) (addr len : Nat) : (s.hostRead addr len).link = s.link := rfl
@[simp] theorem State.hostRead_ports (s : State) (addr len : Nat) : (s.hostRead addr len).ports = s.ports := rfl
@[simp] theorem State.hostRead_chans (s : State) (addr len : Nat) : (s.hostRead addr len).chans = s.chans := rfl
@[simp] theorem State.hostRead_scripts (s : State) (addr len : Nat) : (s.hostRead addr len).scripts = s.scripts := rfl
@[simp] theorem State.hostRead_store (s : State) (addr len : Nat) : (s.hostRead addr len).store = s.store := rfl
@[simp] theorem State.hostRead_tks (s : State) (addr len : Nat) : (s.hostRead addr len).tks = s.tks := rfl
@[simp] theorem State.hostRead_axes (s : State) (addr len : Nat) : (s.hostRead addr len).axes = s.axes := rfl
@[simp] theorem State.hostRead_mot (s : State) (addr len : Nat) : (s.hostRead addr len).mot = s.mot := rfl
@[simp] theorem State.hostRead_aux (s : State) (addr len : Nat) : (s.hostRead addr len).aux = s.aux := rfl
@[simp] theorem State.hostRead_clk (s : State) (addr len : Nat) : (s.hostRead addr len).clk = s.clk := rfl
@[simp] theorem State.hostRead_mstepNext (s : State) (addr len : Nat) : (s.hostRead addr len).mstepNext = s.mstepNext := rfl
@[simp] theorem State.hostRead_mstepNow (s : State) (addr len : Nat) : (s.hostRead addr len).mstepNow = s.mstepNow := rfl

/-! `updAux` changes `aux`. -/

@[simp] theorem State.updAux_pending (s : State) (f : AuxSt → AuxSt) : (s.updAux f).pending = s.pending := rfl
@[simp] theorem State.updAux_now (s : State) (f : AuxSt → AuxSt) : (s.updAux f).now = s.now := rfl
@[simp] theorem State.updAux_free (s : State) (f : AuxSt → AuxSt) : (s.updAux f).free = s.free := rfl
@[simp] theorem State.updAux_rdata (s : State) (f : AuxSt → AuxSt) : (s.updAux f).rdata = s.rdata := rfl
@[simp] theorem State.updAux_regs (s : State) (f : AuxSt → AuxSt) : (s.updAux f).regs = s.regs := rfl
@[simp] theorem State.updAux_tbl (s : State) (f : AuxSt → AuxSt) : (s.updAux f).tbl = s.tbl := rfl
@[simp] theorem State.updAux_bus (s : State) (f : AuxSt → AuxSt) : (s.updAux f).bus = s.bus := rfl
@[simp] theorem State.updAux_ctxs (s : State) (f : AuxSt → AuxSt) : (s.updAux f).ctxs = s.ctxs := rfl
@[simp] theorem State.updAux_pend (s : State) (f : AuxSt → AuxSt) : (s.updAux f).pend = s.pend := rfl
@[simp] theorem State.updAux_raised (s : State) (f : AuxSt → AuxSt) : (s.updAux f).raised = s.raised := rfl
@[simp] theorem State.updAux_queues (s : State) (f : AuxSt → AuxSt) : (s.updAux f).queues = s.queues := rfl
@[simp] theorem State.updAux_msiUnmasked (s : State) (f : AuxSt → AuxSt) : (s.updAux f).msiUnmasked = s.msiUnmasked := rfl
@[simp] theorem State.updAux_msiPend (s : State) (f : AuxSt → AuxSt) : (s.updAux f).msiPend = s.msiPend := rfl
@[simp] theorem State.updAux_units (s : State) (f : AuxSt → AuxSt) : (s.updAux f).units = s.units := rfl
@[simp] theorem State.updAux_groups (s : State) (f : AuxSt → AuxSt) : (s.updAux f).groups = s.groups := rfl
@[simp] theorem State.updAux_engs (s : State) (f : AuxSt → AuxSt) : (s.updAux f).engs = s.engs := rfl
@[simp] theorem State.updAux_faults (s : State) (f : AuxSt → AuxSt) : (s.updAux f).faults = s.faults := rfl
@[simp] theorem State.updAux_mgt (s : State) (f : AuxSt → AuxSt) : (s.updAux f).mgt = s.mgt := rfl
@[simp] theorem State.updAux_jrnl (s : State) (f : AuxSt → AuxSt) : (s.updAux f).jrnl = s.jrnl := rfl
@[simp] theorem State.updAux_link (s : State) (f : AuxSt → AuxSt) : (s.updAux f).link = s.link := rfl
@[simp] theorem State.updAux_ports (s : State) (f : AuxSt → AuxSt) : (s.updAux f).ports = s.ports := rfl
@[simp] theorem State.updAux_chans (s : State) (f : AuxSt → AuxSt) : (s.updAux f).chans = s.chans := rfl
@[simp] theorem State.updAux_scripts (s : State) (f : AuxSt → AuxSt) : (s.updAux f).scripts = s.scripts := rfl
@[simp] theorem State.updAux_store (s : State) (f : AuxSt → AuxSt) : (s.updAux f).store = s.store := rfl
@[simp] theorem State.updAux_tks (s : State) (f : AuxSt → AuxSt) : (s.updAux f).tks = s.tks := rfl
@[simp] theorem State.updAux_axes (s : State) (f : AuxSt → AuxSt) : (s.updAux f).axes = s.axes := rfl
@[simp] theorem State.updAux_mot (s : State) (f : AuxSt → AuxSt) : (s.updAux f).mot = s.mot := rfl
@[simp] theorem State.updAux_clk (s : State) (f : AuxSt → AuxSt) : (s.updAux f).clk = s.clk := rfl
@[simp] theorem State.updAux_mstepNext (s : State) (f : AuxSt → AuxSt) : (s.updAux f).mstepNext = s.mstepNext := rfl
@[simp] theorem State.updAux_mstepNow (s : State) (f : AuxSt → AuxSt) : (s.updAux f).mstepNow = s.mstepNow := rfl

/-! `updCh` changes `aux`. -/

@[simp] theorem State.updCh_pending (s : State) (c : Fin 32) (f : AuxCh → AuxCh) : (s.updCh c f).pending = s.pending := rfl
@[simp] theorem State.updCh_now (s : State) (c : Fin 32) (f : AuxCh → AuxCh) : (s.updCh c f).now = s.now := rfl
@[simp] theorem State.updCh_free (s : State) (c : Fin 32) (f : AuxCh → AuxCh) : (s.updCh c f).free = s.free := rfl
@[simp] theorem State.updCh_rdata (s : State) (c : Fin 32) (f : AuxCh → AuxCh) : (s.updCh c f).rdata = s.rdata := rfl
@[simp] theorem State.updCh_regs (s : State) (c : Fin 32) (f : AuxCh → AuxCh) : (s.updCh c f).regs = s.regs := rfl
@[simp] theorem State.updCh_tbl (s : State) (c : Fin 32) (f : AuxCh → AuxCh) : (s.updCh c f).tbl = s.tbl := rfl
@[simp] theorem State.updCh_bus (s : State) (c : Fin 32) (f : AuxCh → AuxCh) : (s.updCh c f).bus = s.bus := rfl
@[simp] theorem State.updCh_ctxs (s : State) (c : Fin 32) (f : AuxCh → AuxCh) : (s.updCh c f).ctxs = s.ctxs := rfl
@[simp] theorem State.updCh_pend (s : State) (c : Fin 32) (f : AuxCh → AuxCh) : (s.updCh c f).pend = s.pend := rfl
@[simp] theorem State.updCh_raised (s : State) (c : Fin 32) (f : AuxCh → AuxCh) : (s.updCh c f).raised = s.raised := rfl
@[simp] theorem State.updCh_queues (s : State) (c : Fin 32) (f : AuxCh → AuxCh) : (s.updCh c f).queues = s.queues := rfl
@[simp] theorem State.updCh_msiUnmasked (s : State) (c : Fin 32) (f : AuxCh → AuxCh) : (s.updCh c f).msiUnmasked = s.msiUnmasked := rfl
@[simp] theorem State.updCh_msiPend (s : State) (c : Fin 32) (f : AuxCh → AuxCh) : (s.updCh c f).msiPend = s.msiPend := rfl
@[simp] theorem State.updCh_units (s : State) (c : Fin 32) (f : AuxCh → AuxCh) : (s.updCh c f).units = s.units := rfl
@[simp] theorem State.updCh_groups (s : State) (c : Fin 32) (f : AuxCh → AuxCh) : (s.updCh c f).groups = s.groups := rfl
@[simp] theorem State.updCh_engs (s : State) (c : Fin 32) (f : AuxCh → AuxCh) : (s.updCh c f).engs = s.engs := rfl
@[simp] theorem State.updCh_faults (s : State) (c : Fin 32) (f : AuxCh → AuxCh) : (s.updCh c f).faults = s.faults := rfl
@[simp] theorem State.updCh_mgt (s : State) (c : Fin 32) (f : AuxCh → AuxCh) : (s.updCh c f).mgt = s.mgt := rfl
@[simp] theorem State.updCh_jrnl (s : State) (c : Fin 32) (f : AuxCh → AuxCh) : (s.updCh c f).jrnl = s.jrnl := rfl
@[simp] theorem State.updCh_link (s : State) (c : Fin 32) (f : AuxCh → AuxCh) : (s.updCh c f).link = s.link := rfl
@[simp] theorem State.updCh_ports (s : State) (c : Fin 32) (f : AuxCh → AuxCh) : (s.updCh c f).ports = s.ports := rfl
@[simp] theorem State.updCh_chans (s : State) (c : Fin 32) (f : AuxCh → AuxCh) : (s.updCh c f).chans = s.chans := rfl
@[simp] theorem State.updCh_scripts (s : State) (c : Fin 32) (f : AuxCh → AuxCh) : (s.updCh c f).scripts = s.scripts := rfl
@[simp] theorem State.updCh_store (s : State) (c : Fin 32) (f : AuxCh → AuxCh) : (s.updCh c f).store = s.store := rfl
@[simp] theorem State.updCh_tks (s : State) (c : Fin 32) (f : AuxCh → AuxCh) : (s.updCh c f).tks = s.tks := rfl
@[simp] theorem State.updCh_axes (s : State) (c : Fin 32) (f : AuxCh → AuxCh) : (s.updCh c f).axes = s.axes := rfl
@[simp] theorem State.updCh_mot (s : State) (c : Fin 32) (f : AuxCh → AuxCh) : (s.updCh c f).mot = s.mot := rfl
@[simp] theorem State.updCh_clk (s : State) (c : Fin 32) (f : AuxCh → AuxCh) : (s.updCh c f).clk = s.clk := rfl
@[simp] theorem State.updCh_mstepNext (s : State) (c : Fin 32) (f : AuxCh → AuxCh) : (s.updCh c f).mstepNext = s.mstepNext := rfl
@[simp] theorem State.updCh_mstepNow (s : State) (c : Fin 32) (f : AuxCh → AuxCh) : (s.updCh c f).mstepNow = s.mstepNow := rfl

/-! `updExc` changes `aux`. -/

@[simp] theorem State.updExc_pending (s : State) (n : Fin 8) (f : ExcSt → ExcSt) : (s.updExc n f).pending = s.pending := rfl
@[simp] theorem State.updExc_now (s : State) (n : Fin 8) (f : ExcSt → ExcSt) : (s.updExc n f).now = s.now := rfl
@[simp] theorem State.updExc_free (s : State) (n : Fin 8) (f : ExcSt → ExcSt) : (s.updExc n f).free = s.free := rfl
@[simp] theorem State.updExc_rdata (s : State) (n : Fin 8) (f : ExcSt → ExcSt) : (s.updExc n f).rdata = s.rdata := rfl
@[simp] theorem State.updExc_regs (s : State) (n : Fin 8) (f : ExcSt → ExcSt) : (s.updExc n f).regs = s.regs := rfl
@[simp] theorem State.updExc_tbl (s : State) (n : Fin 8) (f : ExcSt → ExcSt) : (s.updExc n f).tbl = s.tbl := rfl
@[simp] theorem State.updExc_bus (s : State) (n : Fin 8) (f : ExcSt → ExcSt) : (s.updExc n f).bus = s.bus := rfl
@[simp] theorem State.updExc_ctxs (s : State) (n : Fin 8) (f : ExcSt → ExcSt) : (s.updExc n f).ctxs = s.ctxs := rfl
@[simp] theorem State.updExc_pend (s : State) (n : Fin 8) (f : ExcSt → ExcSt) : (s.updExc n f).pend = s.pend := rfl
@[simp] theorem State.updExc_raised (s : State) (n : Fin 8) (f : ExcSt → ExcSt) : (s.updExc n f).raised = s.raised := rfl
@[simp] theorem State.updExc_queues (s : State) (n : Fin 8) (f : ExcSt → ExcSt) : (s.updExc n f).queues = s.queues := rfl
@[simp] theorem State.updExc_msiUnmasked (s : State) (n : Fin 8) (f : ExcSt → ExcSt) : (s.updExc n f).msiUnmasked = s.msiUnmasked := rfl
@[simp] theorem State.updExc_msiPend (s : State) (n : Fin 8) (f : ExcSt → ExcSt) : (s.updExc n f).msiPend = s.msiPend := rfl
@[simp] theorem State.updExc_units (s : State) (n : Fin 8) (f : ExcSt → ExcSt) : (s.updExc n f).units = s.units := rfl
@[simp] theorem State.updExc_groups (s : State) (n : Fin 8) (f : ExcSt → ExcSt) : (s.updExc n f).groups = s.groups := rfl
@[simp] theorem State.updExc_engs (s : State) (n : Fin 8) (f : ExcSt → ExcSt) : (s.updExc n f).engs = s.engs := rfl
@[simp] theorem State.updExc_faults (s : State) (n : Fin 8) (f : ExcSt → ExcSt) : (s.updExc n f).faults = s.faults := rfl
@[simp] theorem State.updExc_mgt (s : State) (n : Fin 8) (f : ExcSt → ExcSt) : (s.updExc n f).mgt = s.mgt := rfl
@[simp] theorem State.updExc_jrnl (s : State) (n : Fin 8) (f : ExcSt → ExcSt) : (s.updExc n f).jrnl = s.jrnl := rfl
@[simp] theorem State.updExc_link (s : State) (n : Fin 8) (f : ExcSt → ExcSt) : (s.updExc n f).link = s.link := rfl
@[simp] theorem State.updExc_ports (s : State) (n : Fin 8) (f : ExcSt → ExcSt) : (s.updExc n f).ports = s.ports := rfl
@[simp] theorem State.updExc_chans (s : State) (n : Fin 8) (f : ExcSt → ExcSt) : (s.updExc n f).chans = s.chans := rfl
@[simp] theorem State.updExc_scripts (s : State) (n : Fin 8) (f : ExcSt → ExcSt) : (s.updExc n f).scripts = s.scripts := rfl
@[simp] theorem State.updExc_store (s : State) (n : Fin 8) (f : ExcSt → ExcSt) : (s.updExc n f).store = s.store := rfl
@[simp] theorem State.updExc_tks (s : State) (n : Fin 8) (f : ExcSt → ExcSt) : (s.updExc n f).tks = s.tks := rfl
@[simp] theorem State.updExc_axes (s : State) (n : Fin 8) (f : ExcSt → ExcSt) : (s.updExc n f).axes = s.axes := rfl
@[simp] theorem State.updExc_mot (s : State) (n : Fin 8) (f : ExcSt → ExcSt) : (s.updExc n f).mot = s.mot := rfl
@[simp] theorem State.updExc_clk (s : State) (n : Fin 8) (f : ExcSt → ExcSt) : (s.updExc n f).clk = s.clk := rfl
@[simp] theorem State.updExc_mstepNext (s : State) (n : Fin 8) (f : ExcSt → ExcSt) : (s.updExc n f).mstepNext = s.mstepNext := rfl
@[simp] theorem State.updExc_mstepNow (s : State) (n : Fin 8) (f : ExcSt → ExcSt) : (s.updExc n f).mstepNow = s.mstepNow := rfl

/-! `updChan` changes `chans`. -/

@[simp] theorem State.updChan_pending (s : State) (c : ChanId) (f : ChanSt → ChanSt) : (s.updChan c f).pending = s.pending := rfl
@[simp] theorem State.updChan_now (s : State) (c : ChanId) (f : ChanSt → ChanSt) : (s.updChan c f).now = s.now := rfl
@[simp] theorem State.updChan_free (s : State) (c : ChanId) (f : ChanSt → ChanSt) : (s.updChan c f).free = s.free := rfl
@[simp] theorem State.updChan_rdata (s : State) (c : ChanId) (f : ChanSt → ChanSt) : (s.updChan c f).rdata = s.rdata := rfl
@[simp] theorem State.updChan_regs (s : State) (c : ChanId) (f : ChanSt → ChanSt) : (s.updChan c f).regs = s.regs := rfl
@[simp] theorem State.updChan_tbl (s : State) (c : ChanId) (f : ChanSt → ChanSt) : (s.updChan c f).tbl = s.tbl := rfl
@[simp] theorem State.updChan_bus (s : State) (c : ChanId) (f : ChanSt → ChanSt) : (s.updChan c f).bus = s.bus := rfl
@[simp] theorem State.updChan_ctxs (s : State) (c : ChanId) (f : ChanSt → ChanSt) : (s.updChan c f).ctxs = s.ctxs := rfl
@[simp] theorem State.updChan_pend (s : State) (c : ChanId) (f : ChanSt → ChanSt) : (s.updChan c f).pend = s.pend := rfl
@[simp] theorem State.updChan_raised (s : State) (c : ChanId) (f : ChanSt → ChanSt) : (s.updChan c f).raised = s.raised := rfl
@[simp] theorem State.updChan_queues (s : State) (c : ChanId) (f : ChanSt → ChanSt) : (s.updChan c f).queues = s.queues := rfl
@[simp] theorem State.updChan_msiUnmasked (s : State) (c : ChanId) (f : ChanSt → ChanSt) : (s.updChan c f).msiUnmasked = s.msiUnmasked := rfl
@[simp] theorem State.updChan_msiPend (s : State) (c : ChanId) (f : ChanSt → ChanSt) : (s.updChan c f).msiPend = s.msiPend := rfl
@[simp] theorem State.updChan_units (s : State) (c : ChanId) (f : ChanSt → ChanSt) : (s.updChan c f).units = s.units := rfl
@[simp] theorem State.updChan_groups (s : State) (c : ChanId) (f : ChanSt → ChanSt) : (s.updChan c f).groups = s.groups := rfl
@[simp] theorem State.updChan_engs (s : State) (c : ChanId) (f : ChanSt → ChanSt) : (s.updChan c f).engs = s.engs := rfl
@[simp] theorem State.updChan_faults (s : State) (c : ChanId) (f : ChanSt → ChanSt) : (s.updChan c f).faults = s.faults := rfl
@[simp] theorem State.updChan_mgt (s : State) (c : ChanId) (f : ChanSt → ChanSt) : (s.updChan c f).mgt = s.mgt := rfl
@[simp] theorem State.updChan_jrnl (s : State) (c : ChanId) (f : ChanSt → ChanSt) : (s.updChan c f).jrnl = s.jrnl := rfl
@[simp] theorem State.updChan_link (s : State) (c : ChanId) (f : ChanSt → ChanSt) : (s.updChan c f).link = s.link := rfl
@[simp] theorem State.updChan_ports (s : State) (c : ChanId) (f : ChanSt → ChanSt) : (s.updChan c f).ports = s.ports := rfl
@[simp] theorem State.updChan_scripts (s : State) (c : ChanId) (f : ChanSt → ChanSt) : (s.updChan c f).scripts = s.scripts := rfl
@[simp] theorem State.updChan_store (s : State) (c : ChanId) (f : ChanSt → ChanSt) : (s.updChan c f).store = s.store := rfl
@[simp] theorem State.updChan_tks (s : State) (c : ChanId) (f : ChanSt → ChanSt) : (s.updChan c f).tks = s.tks := rfl
@[simp] theorem State.updChan_axes (s : State) (c : ChanId) (f : ChanSt → ChanSt) : (s.updChan c f).axes = s.axes := rfl
@[simp] theorem State.updChan_mot (s : State) (c : ChanId) (f : ChanSt → ChanSt) : (s.updChan c f).mot = s.mot := rfl
@[simp] theorem State.updChan_aux (s : State) (c : ChanId) (f : ChanSt → ChanSt) : (s.updChan c f).aux = s.aux := rfl
@[simp] theorem State.updChan_clk (s : State) (c : ChanId) (f : ChanSt → ChanSt) : (s.updChan c f).clk = s.clk := rfl
@[simp] theorem State.updChan_mstepNext (s : State) (c : ChanId) (f : ChanSt → ChanSt) : (s.updChan c f).mstepNext = s.mstepNext := rfl
@[simp] theorem State.updChan_mstepNow (s : State) (c : ChanId) (f : ChanSt → ChanSt) : (s.updChan c f).mstepNow = s.mstepNow := rfl

/-! `updTks` changes `tks`. -/

@[simp] theorem State.updTks_pending (s : State) (f : TksSt → TksSt) : (s.updTks f).pending = s.pending := rfl
@[simp] theorem State.updTks_now (s : State) (f : TksSt → TksSt) : (s.updTks f).now = s.now := rfl
@[simp] theorem State.updTks_free (s : State) (f : TksSt → TksSt) : (s.updTks f).free = s.free := rfl
@[simp] theorem State.updTks_rdata (s : State) (f : TksSt → TksSt) : (s.updTks f).rdata = s.rdata := rfl
@[simp] theorem State.updTks_regs (s : State) (f : TksSt → TksSt) : (s.updTks f).regs = s.regs := rfl
@[simp] theorem State.updTks_tbl (s : State) (f : TksSt → TksSt) : (s.updTks f).tbl = s.tbl := rfl
@[simp] theorem State.updTks_bus (s : State) (f : TksSt → TksSt) : (s.updTks f).bus = s.bus := rfl
@[simp] theorem State.updTks_ctxs (s : State) (f : TksSt → TksSt) : (s.updTks f).ctxs = s.ctxs := rfl
@[simp] theorem State.updTks_pend (s : State) (f : TksSt → TksSt) : (s.updTks f).pend = s.pend := rfl
@[simp] theorem State.updTks_raised (s : State) (f : TksSt → TksSt) : (s.updTks f).raised = s.raised := rfl
@[simp] theorem State.updTks_queues (s : State) (f : TksSt → TksSt) : (s.updTks f).queues = s.queues := rfl
@[simp] theorem State.updTks_msiUnmasked (s : State) (f : TksSt → TksSt) : (s.updTks f).msiUnmasked = s.msiUnmasked := rfl
@[simp] theorem State.updTks_msiPend (s : State) (f : TksSt → TksSt) : (s.updTks f).msiPend = s.msiPend := rfl
@[simp] theorem State.updTks_units (s : State) (f : TksSt → TksSt) : (s.updTks f).units = s.units := rfl
@[simp] theorem State.updTks_groups (s : State) (f : TksSt → TksSt) : (s.updTks f).groups = s.groups := rfl
@[simp] theorem State.updTks_engs (s : State) (f : TksSt → TksSt) : (s.updTks f).engs = s.engs := rfl
@[simp] theorem State.updTks_faults (s : State) (f : TksSt → TksSt) : (s.updTks f).faults = s.faults := rfl
@[simp] theorem State.updTks_mgt (s : State) (f : TksSt → TksSt) : (s.updTks f).mgt = s.mgt := rfl
@[simp] theorem State.updTks_jrnl (s : State) (f : TksSt → TksSt) : (s.updTks f).jrnl = s.jrnl := rfl
@[simp] theorem State.updTks_link (s : State) (f : TksSt → TksSt) : (s.updTks f).link = s.link := rfl
@[simp] theorem State.updTks_ports (s : State) (f : TksSt → TksSt) : (s.updTks f).ports = s.ports := rfl
@[simp] theorem State.updTks_chans (s : State) (f : TksSt → TksSt) : (s.updTks f).chans = s.chans := rfl
@[simp] theorem State.updTks_scripts (s : State) (f : TksSt → TksSt) : (s.updTks f).scripts = s.scripts := rfl
@[simp] theorem State.updTks_store (s : State) (f : TksSt → TksSt) : (s.updTks f).store = s.store := rfl
@[simp] theorem State.updTks_axes (s : State) (f : TksSt → TksSt) : (s.updTks f).axes = s.axes := rfl
@[simp] theorem State.updTks_mot (s : State) (f : TksSt → TksSt) : (s.updTks f).mot = s.mot := rfl
@[simp] theorem State.updTks_aux (s : State) (f : TksSt → TksSt) : (s.updTks f).aux = s.aux := rfl
@[simp] theorem State.updTks_clk (s : State) (f : TksSt → TksSt) : (s.updTks f).clk = s.clk := rfl
@[simp] theorem State.updTks_mstepNext (s : State) (f : TksSt → TksSt) : (s.updTks f).mstepNext = s.mstepNext := rfl
@[simp] theorem State.updTks_mstepNow (s : State) (f : TksSt → TksSt) : (s.updTks f).mstepNow = s.mstepNow := rfl

/-! `updDrive` changes `tks`. -/

@[simp] theorem State.updDrive_pending (s : State) (d : DriveId) (f : DrvSt → DrvSt) : (s.updDrive d f).pending = s.pending := rfl
@[simp] theorem State.updDrive_now (s : State) (d : DriveId) (f : DrvSt → DrvSt) : (s.updDrive d f).now = s.now := rfl
@[simp] theorem State.updDrive_free (s : State) (d : DriveId) (f : DrvSt → DrvSt) : (s.updDrive d f).free = s.free := rfl
@[simp] theorem State.updDrive_rdata (s : State) (d : DriveId) (f : DrvSt → DrvSt) : (s.updDrive d f).rdata = s.rdata := rfl
@[simp] theorem State.updDrive_regs (s : State) (d : DriveId) (f : DrvSt → DrvSt) : (s.updDrive d f).regs = s.regs := rfl
@[simp] theorem State.updDrive_tbl (s : State) (d : DriveId) (f : DrvSt → DrvSt) : (s.updDrive d f).tbl = s.tbl := rfl
@[simp] theorem State.updDrive_bus (s : State) (d : DriveId) (f : DrvSt → DrvSt) : (s.updDrive d f).bus = s.bus := rfl
@[simp] theorem State.updDrive_ctxs (s : State) (d : DriveId) (f : DrvSt → DrvSt) : (s.updDrive d f).ctxs = s.ctxs := rfl
@[simp] theorem State.updDrive_pend (s : State) (d : DriveId) (f : DrvSt → DrvSt) : (s.updDrive d f).pend = s.pend := rfl
@[simp] theorem State.updDrive_raised (s : State) (d : DriveId) (f : DrvSt → DrvSt) : (s.updDrive d f).raised = s.raised := rfl
@[simp] theorem State.updDrive_queues (s : State) (d : DriveId) (f : DrvSt → DrvSt) : (s.updDrive d f).queues = s.queues := rfl
@[simp] theorem State.updDrive_msiUnmasked (s : State) (d : DriveId) (f : DrvSt → DrvSt) : (s.updDrive d f).msiUnmasked = s.msiUnmasked := rfl
@[simp] theorem State.updDrive_msiPend (s : State) (d : DriveId) (f : DrvSt → DrvSt) : (s.updDrive d f).msiPend = s.msiPend := rfl
@[simp] theorem State.updDrive_units (s : State) (d : DriveId) (f : DrvSt → DrvSt) : (s.updDrive d f).units = s.units := rfl
@[simp] theorem State.updDrive_groups (s : State) (d : DriveId) (f : DrvSt → DrvSt) : (s.updDrive d f).groups = s.groups := rfl
@[simp] theorem State.updDrive_engs (s : State) (d : DriveId) (f : DrvSt → DrvSt) : (s.updDrive d f).engs = s.engs := rfl
@[simp] theorem State.updDrive_faults (s : State) (d : DriveId) (f : DrvSt → DrvSt) : (s.updDrive d f).faults = s.faults := rfl
@[simp] theorem State.updDrive_mgt (s : State) (d : DriveId) (f : DrvSt → DrvSt) : (s.updDrive d f).mgt = s.mgt := rfl
@[simp] theorem State.updDrive_jrnl (s : State) (d : DriveId) (f : DrvSt → DrvSt) : (s.updDrive d f).jrnl = s.jrnl := rfl
@[simp] theorem State.updDrive_link (s : State) (d : DriveId) (f : DrvSt → DrvSt) : (s.updDrive d f).link = s.link := rfl
@[simp] theorem State.updDrive_ports (s : State) (d : DriveId) (f : DrvSt → DrvSt) : (s.updDrive d f).ports = s.ports := rfl
@[simp] theorem State.updDrive_chans (s : State) (d : DriveId) (f : DrvSt → DrvSt) : (s.updDrive d f).chans = s.chans := rfl
@[simp] theorem State.updDrive_scripts (s : State) (d : DriveId) (f : DrvSt → DrvSt) : (s.updDrive d f).scripts = s.scripts := rfl
@[simp] theorem State.updDrive_store (s : State) (d : DriveId) (f : DrvSt → DrvSt) : (s.updDrive d f).store = s.store := rfl
@[simp] theorem State.updDrive_axes (s : State) (d : DriveId) (f : DrvSt → DrvSt) : (s.updDrive d f).axes = s.axes := rfl
@[simp] theorem State.updDrive_mot (s : State) (d : DriveId) (f : DrvSt → DrvSt) : (s.updDrive d f).mot = s.mot := rfl
@[simp] theorem State.updDrive_aux (s : State) (d : DriveId) (f : DrvSt → DrvSt) : (s.updDrive d f).aux = s.aux := rfl
@[simp] theorem State.updDrive_clk (s : State) (d : DriveId) (f : DrvSt → DrvSt) : (s.updDrive d f).clk = s.clk := rfl
@[simp] theorem State.updDrive_mstepNext (s : State) (d : DriveId) (f : DrvSt → DrvSt) : (s.updDrive d f).mstepNext = s.mstepNext := rfl
@[simp] theorem State.updDrive_mstepNow (s : State) (d : DriveId) (f : DrvSt → DrvSt) : (s.updDrive d f).mstepNow = s.mstepNow := rfl

/-! `updTport` changes `tks`. -/

@[simp] theorem State.updTport_pending (s : State) (p : PortId) (f : TksPort → TksPort) : (s.updTport p f).pending = s.pending := rfl
@[simp] theorem State.updTport_now (s : State) (p : PortId) (f : TksPort → TksPort) : (s.updTport p f).now = s.now := rfl
@[simp] theorem State.updTport_free (s : State) (p : PortId) (f : TksPort → TksPort) : (s.updTport p f).free = s.free := rfl
@[simp] theorem State.updTport_rdata (s : State) (p : PortId) (f : TksPort → TksPort) : (s.updTport p f).rdata = s.rdata := rfl
@[simp] theorem State.updTport_regs (s : State) (p : PortId) (f : TksPort → TksPort) : (s.updTport p f).regs = s.regs := rfl
@[simp] theorem State.updTport_tbl (s : State) (p : PortId) (f : TksPort → TksPort) : (s.updTport p f).tbl = s.tbl := rfl
@[simp] theorem State.updTport_bus (s : State) (p : PortId) (f : TksPort → TksPort) : (s.updTport p f).bus = s.bus := rfl
@[simp] theorem State.updTport_ctxs (s : State) (p : PortId) (f : TksPort → TksPort) : (s.updTport p f).ctxs = s.ctxs := rfl
@[simp] theorem State.updTport_pend (s : State) (p : PortId) (f : TksPort → TksPort) : (s.updTport p f).pend = s.pend := rfl
@[simp] theorem State.updTport_raised (s : State) (p : PortId) (f : TksPort → TksPort) : (s.updTport p f).raised = s.raised := rfl
@[simp] theorem State.updTport_queues (s : State) (p : PortId) (f : TksPort → TksPort) : (s.updTport p f).queues = s.queues := rfl
@[simp] theorem State.updTport_msiUnmasked (s : State) (p : PortId) (f : TksPort → TksPort) : (s.updTport p f).msiUnmasked = s.msiUnmasked := rfl
@[simp] theorem State.updTport_msiPend (s : State) (p : PortId) (f : TksPort → TksPort) : (s.updTport p f).msiPend = s.msiPend := rfl
@[simp] theorem State.updTport_units (s : State) (p : PortId) (f : TksPort → TksPort) : (s.updTport p f).units = s.units := rfl
@[simp] theorem State.updTport_groups (s : State) (p : PortId) (f : TksPort → TksPort) : (s.updTport p f).groups = s.groups := rfl
@[simp] theorem State.updTport_engs (s : State) (p : PortId) (f : TksPort → TksPort) : (s.updTport p f).engs = s.engs := rfl
@[simp] theorem State.updTport_faults (s : State) (p : PortId) (f : TksPort → TksPort) : (s.updTport p f).faults = s.faults := rfl
@[simp] theorem State.updTport_mgt (s : State) (p : PortId) (f : TksPort → TksPort) : (s.updTport p f).mgt = s.mgt := rfl
@[simp] theorem State.updTport_jrnl (s : State) (p : PortId) (f : TksPort → TksPort) : (s.updTport p f).jrnl = s.jrnl := rfl
@[simp] theorem State.updTport_link (s : State) (p : PortId) (f : TksPort → TksPort) : (s.updTport p f).link = s.link := rfl
@[simp] theorem State.updTport_ports (s : State) (p : PortId) (f : TksPort → TksPort) : (s.updTport p f).ports = s.ports := rfl
@[simp] theorem State.updTport_chans (s : State) (p : PortId) (f : TksPort → TksPort) : (s.updTport p f).chans = s.chans := rfl
@[simp] theorem State.updTport_scripts (s : State) (p : PortId) (f : TksPort → TksPort) : (s.updTport p f).scripts = s.scripts := rfl
@[simp] theorem State.updTport_store (s : State) (p : PortId) (f : TksPort → TksPort) : (s.updTport p f).store = s.store := rfl
@[simp] theorem State.updTport_axes (s : State) (p : PortId) (f : TksPort → TksPort) : (s.updTport p f).axes = s.axes := rfl
@[simp] theorem State.updTport_mot (s : State) (p : PortId) (f : TksPort → TksPort) : (s.updTport p f).mot = s.mot := rfl
@[simp] theorem State.updTport_aux (s : State) (p : PortId) (f : TksPort → TksPort) : (s.updTport p f).aux = s.aux := rfl
@[simp] theorem State.updTport_clk (s : State) (p : PortId) (f : TksPort → TksPort) : (s.updTport p f).clk = s.clk := rfl
@[simp] theorem State.updTport_mstepNext (s : State) (p : PortId) (f : TksPort → TksPort) : (s.updTport p f).mstepNext = s.mstepNext := rfl
@[simp] theorem State.updTport_mstepNow (s : State) (p : PortId) (f : TksPort → TksPort) : (s.updTport p f).mstepNow = s.mstepNow := rfl

/-! `touch` changes `tks`. -/

@[simp] theorem State.touch_pending (s : State) (gs : List Nat) : (s.touch gs).pending = s.pending := rfl
@[simp] theorem State.touch_now (s : State) (gs : List Nat) : (s.touch gs).now = s.now := rfl
@[simp] theorem State.touch_free (s : State) (gs : List Nat) : (s.touch gs).free = s.free := rfl
@[simp] theorem State.touch_rdata (s : State) (gs : List Nat) : (s.touch gs).rdata = s.rdata := rfl
@[simp] theorem State.touch_regs (s : State) (gs : List Nat) : (s.touch gs).regs = s.regs := rfl
@[simp] theorem State.touch_tbl (s : State) (gs : List Nat) : (s.touch gs).tbl = s.tbl := rfl
@[simp] theorem State.touch_bus (s : State) (gs : List Nat) : (s.touch gs).bus = s.bus := rfl
@[simp] theorem State.touch_ctxs (s : State) (gs : List Nat) : (s.touch gs).ctxs = s.ctxs := rfl
@[simp] theorem State.touch_pend (s : State) (gs : List Nat) : (s.touch gs).pend = s.pend := rfl
@[simp] theorem State.touch_raised (s : State) (gs : List Nat) : (s.touch gs).raised = s.raised := rfl
@[simp] theorem State.touch_queues (s : State) (gs : List Nat) : (s.touch gs).queues = s.queues := rfl
@[simp] theorem State.touch_msiUnmasked (s : State) (gs : List Nat) : (s.touch gs).msiUnmasked = s.msiUnmasked := rfl
@[simp] theorem State.touch_msiPend (s : State) (gs : List Nat) : (s.touch gs).msiPend = s.msiPend := rfl
@[simp] theorem State.touch_units (s : State) (gs : List Nat) : (s.touch gs).units = s.units := rfl
@[simp] theorem State.touch_groups (s : State) (gs : List Nat) : (s.touch gs).groups = s.groups := rfl
@[simp] theorem State.touch_engs (s : State) (gs : List Nat) : (s.touch gs).engs = s.engs := rfl
@[simp] theorem State.touch_faults (s : State) (gs : List Nat) : (s.touch gs).faults = s.faults := rfl
@[simp] theorem State.touch_mgt (s : State) (gs : List Nat) : (s.touch gs).mgt = s.mgt := rfl
@[simp] theorem State.touch_jrnl (s : State) (gs : List Nat) : (s.touch gs).jrnl = s.jrnl := rfl
@[simp] theorem State.touch_link (s : State) (gs : List Nat) : (s.touch gs).link = s.link := rfl
@[simp] theorem State.touch_ports (s : State) (gs : List Nat) : (s.touch gs).ports = s.ports := rfl
@[simp] theorem State.touch_chans (s : State) (gs : List Nat) : (s.touch gs).chans = s.chans := rfl
@[simp] theorem State.touch_scripts (s : State) (gs : List Nat) : (s.touch gs).scripts = s.scripts := rfl
@[simp] theorem State.touch_store (s : State) (gs : List Nat) : (s.touch gs).store = s.store := rfl
@[simp] theorem State.touch_axes (s : State) (gs : List Nat) : (s.touch gs).axes = s.axes := rfl
@[simp] theorem State.touch_mot (s : State) (gs : List Nat) : (s.touch gs).mot = s.mot := rfl
@[simp] theorem State.touch_aux (s : State) (gs : List Nat) : (s.touch gs).aux = s.aux := rfl
@[simp] theorem State.touch_clk (s : State) (gs : List Nat) : (s.touch gs).clk = s.clk := rfl
@[simp] theorem State.touch_mstepNext (s : State) (gs : List Nat) : (s.touch gs).mstepNext = s.mstepNext := rfl
@[simp] theorem State.touch_mstepNow (s : State) (gs : List Nat) : (s.touch gs).mstepNow = s.mstepNow := rfl

/-! `touchDrive` changes `tks`. -/

@[simp] theorem State.touchDrive_pending (s : State) (n : Nat) : (s.touchDrive n).pending = s.pending := rfl
@[simp] theorem State.touchDrive_now (s : State) (n : Nat) : (s.touchDrive n).now = s.now := rfl
@[simp] theorem State.touchDrive_free (s : State) (n : Nat) : (s.touchDrive n).free = s.free := rfl
@[simp] theorem State.touchDrive_rdata (s : State) (n : Nat) : (s.touchDrive n).rdata = s.rdata := rfl
@[simp] theorem State.touchDrive_regs (s : State) (n : Nat) : (s.touchDrive n).regs = s.regs := rfl
@[simp] theorem State.touchDrive_tbl (s : State) (n : Nat) : (s.touchDrive n).tbl = s.tbl := rfl
@[simp] theorem State.touchDrive_bus (s : State) (n : Nat) : (s.touchDrive n).bus = s.bus := rfl
@[simp] theorem State.touchDrive_ctxs (s : State) (n : Nat) : (s.touchDrive n).ctxs = s.ctxs := rfl
@[simp] theorem State.touchDrive_pend (s : State) (n : Nat) : (s.touchDrive n).pend = s.pend := rfl
@[simp] theorem State.touchDrive_raised (s : State) (n : Nat) : (s.touchDrive n).raised = s.raised := rfl
@[simp] theorem State.touchDrive_queues (s : State) (n : Nat) : (s.touchDrive n).queues = s.queues := rfl
@[simp] theorem State.touchDrive_msiUnmasked (s : State) (n : Nat) : (s.touchDrive n).msiUnmasked = s.msiUnmasked := rfl
@[simp] theorem State.touchDrive_msiPend (s : State) (n : Nat) : (s.touchDrive n).msiPend = s.msiPend := rfl
@[simp] theorem State.touchDrive_units (s : State) (n : Nat) : (s.touchDrive n).units = s.units := rfl
@[simp] theorem State.touchDrive_groups (s : State) (n : Nat) : (s.touchDrive n).groups = s.groups := rfl
@[simp] theorem State.touchDrive_engs (s : State) (n : Nat) : (s.touchDrive n).engs = s.engs := rfl
@[simp] theorem State.touchDrive_faults (s : State) (n : Nat) : (s.touchDrive n).faults = s.faults := rfl
@[simp] theorem State.touchDrive_mgt (s : State) (n : Nat) : (s.touchDrive n).mgt = s.mgt := rfl
@[simp] theorem State.touchDrive_jrnl (s : State) (n : Nat) : (s.touchDrive n).jrnl = s.jrnl := rfl
@[simp] theorem State.touchDrive_link (s : State) (n : Nat) : (s.touchDrive n).link = s.link := rfl
@[simp] theorem State.touchDrive_ports (s : State) (n : Nat) : (s.touchDrive n).ports = s.ports := rfl
@[simp] theorem State.touchDrive_chans (s : State) (n : Nat) : (s.touchDrive n).chans = s.chans := rfl
@[simp] theorem State.touchDrive_scripts (s : State) (n : Nat) : (s.touchDrive n).scripts = s.scripts := rfl
@[simp] theorem State.touchDrive_store (s : State) (n : Nat) : (s.touchDrive n).store = s.store := rfl
@[simp] theorem State.touchDrive_axes (s : State) (n : Nat) : (s.touchDrive n).axes = s.axes := rfl
@[simp] theorem State.touchDrive_mot (s : State) (n : Nat) : (s.touchDrive n).mot = s.mot := rfl
@[simp] theorem State.touchDrive_aux (s : State) (n : Nat) : (s.touchDrive n).aux = s.aux := rfl
@[simp] theorem State.touchDrive_clk (s : State) (n : Nat) : (s.touchDrive n).clk = s.clk := rfl
@[simp] theorem State.touchDrive_mstepNext (s : State) (n : Nat) : (s.touchDrive n).mstepNext = s.mstepNext := rfl
@[simp] theorem State.touchDrive_mstepNow (s : State) (n : Nat) : (s.touchDrive n).mstepNow = s.mstepNow := rfl

/-! `nvme` changes `tks`. -/

@[simp] theorem State.nvme_pending (s : State) (d : DriveId) (op : NvmeOp) : (s.nvme d op).pending = s.pending := rfl
@[simp] theorem State.nvme_now (s : State) (d : DriveId) (op : NvmeOp) : (s.nvme d op).now = s.now := rfl
@[simp] theorem State.nvme_free (s : State) (d : DriveId) (op : NvmeOp) : (s.nvme d op).free = s.free := rfl
@[simp] theorem State.nvme_rdata (s : State) (d : DriveId) (op : NvmeOp) : (s.nvme d op).rdata = s.rdata := rfl
@[simp] theorem State.nvme_regs (s : State) (d : DriveId) (op : NvmeOp) : (s.nvme d op).regs = s.regs := rfl
@[simp] theorem State.nvme_tbl (s : State) (d : DriveId) (op : NvmeOp) : (s.nvme d op).tbl = s.tbl := rfl
@[simp] theorem State.nvme_bus (s : State) (d : DriveId) (op : NvmeOp) : (s.nvme d op).bus = s.bus := rfl
@[simp] theorem State.nvme_ctxs (s : State) (d : DriveId) (op : NvmeOp) : (s.nvme d op).ctxs = s.ctxs := rfl
@[simp] theorem State.nvme_pend (s : State) (d : DriveId) (op : NvmeOp) : (s.nvme d op).pend = s.pend := rfl
@[simp] theorem State.nvme_raised (s : State) (d : DriveId) (op : NvmeOp) : (s.nvme d op).raised = s.raised := rfl
@[simp] theorem State.nvme_queues (s : State) (d : DriveId) (op : NvmeOp) : (s.nvme d op).queues = s.queues := rfl
@[simp] theorem State.nvme_msiUnmasked (s : State) (d : DriveId) (op : NvmeOp) : (s.nvme d op).msiUnmasked = s.msiUnmasked := rfl
@[simp] theorem State.nvme_msiPend (s : State) (d : DriveId) (op : NvmeOp) : (s.nvme d op).msiPend = s.msiPend := rfl
@[simp] theorem State.nvme_units (s : State) (d : DriveId) (op : NvmeOp) : (s.nvme d op).units = s.units := rfl
@[simp] theorem State.nvme_groups (s : State) (d : DriveId) (op : NvmeOp) : (s.nvme d op).groups = s.groups := rfl
@[simp] theorem State.nvme_engs (s : State) (d : DriveId) (op : NvmeOp) : (s.nvme d op).engs = s.engs := rfl
@[simp] theorem State.nvme_faults (s : State) (d : DriveId) (op : NvmeOp) : (s.nvme d op).faults = s.faults := rfl
@[simp] theorem State.nvme_mgt (s : State) (d : DriveId) (op : NvmeOp) : (s.nvme d op).mgt = s.mgt := rfl
@[simp] theorem State.nvme_jrnl (s : State) (d : DriveId) (op : NvmeOp) : (s.nvme d op).jrnl = s.jrnl := rfl
@[simp] theorem State.nvme_link (s : State) (d : DriveId) (op : NvmeOp) : (s.nvme d op).link = s.link := rfl
@[simp] theorem State.nvme_ports (s : State) (d : DriveId) (op : NvmeOp) : (s.nvme d op).ports = s.ports := rfl
@[simp] theorem State.nvme_chans (s : State) (d : DriveId) (op : NvmeOp) : (s.nvme d op).chans = s.chans := rfl
@[simp] theorem State.nvme_scripts (s : State) (d : DriveId) (op : NvmeOp) : (s.nvme d op).scripts = s.scripts := rfl
@[simp] theorem State.nvme_store (s : State) (d : DriveId) (op : NvmeOp) : (s.nvme d op).store = s.store := rfl
@[simp] theorem State.nvme_axes (s : State) (d : DriveId) (op : NvmeOp) : (s.nvme d op).axes = s.axes := rfl
@[simp] theorem State.nvme_mot (s : State) (d : DriveId) (op : NvmeOp) : (s.nvme d op).mot = s.mot := rfl
@[simp] theorem State.nvme_aux (s : State) (d : DriveId) (op : NvmeOp) : (s.nvme d op).aux = s.aux := rfl
@[simp] theorem State.nvme_clk (s : State) (d : DriveId) (op : NvmeOp) : (s.nvme d op).clk = s.clk := rfl
@[simp] theorem State.nvme_mstepNext (s : State) (d : DriveId) (op : NvmeOp) : (s.nvme d op).mstepNext = s.mstepNext := rfl
@[simp] theorem State.nvme_mstepNow (s : State) (d : DriveId) (op : NvmeOp) : (s.nvme d op).mstepNow = s.mstepNow := rfl

/-! `setSeg` changes `tks`. -/

@[simp] theorem State.setSeg_pending (s : State) (g : Nat) (x : Seg) : (s.setSeg g x).pending = s.pending := by unfold State.setSeg; dsimp only; split <;> rfl
@[simp] theorem State.setSeg_now (s : State) (g : Nat) (x : Seg) : (s.setSeg g x).now = s.now := by unfold State.setSeg; dsimp only; split <;> rfl
@[simp] theorem State.setSeg_free (s : State) (g : Nat) (x : Seg) : (s.setSeg g x).free = s.free := by unfold State.setSeg; dsimp only; split <;> rfl
@[simp] theorem State.setSeg_rdata (s : State) (g : Nat) (x : Seg) : (s.setSeg g x).rdata = s.rdata := by unfold State.setSeg; dsimp only; split <;> rfl
@[simp] theorem State.setSeg_regs (s : State) (g : Nat) (x : Seg) : (s.setSeg g x).regs = s.regs := by unfold State.setSeg; dsimp only; split <;> rfl
@[simp] theorem State.setSeg_tbl (s : State) (g : Nat) (x : Seg) : (s.setSeg g x).tbl = s.tbl := by unfold State.setSeg; dsimp only; split <;> rfl
@[simp] theorem State.setSeg_bus (s : State) (g : Nat) (x : Seg) : (s.setSeg g x).bus = s.bus := by unfold State.setSeg; dsimp only; split <;> rfl
@[simp] theorem State.setSeg_ctxs (s : State) (g : Nat) (x : Seg) : (s.setSeg g x).ctxs = s.ctxs := by unfold State.setSeg; dsimp only; split <;> rfl
@[simp] theorem State.setSeg_pend (s : State) (g : Nat) (x : Seg) : (s.setSeg g x).pend = s.pend := by unfold State.setSeg; dsimp only; split <;> rfl
@[simp] theorem State.setSeg_raised (s : State) (g : Nat) (x : Seg) : (s.setSeg g x).raised = s.raised := by unfold State.setSeg; dsimp only; split <;> rfl
@[simp] theorem State.setSeg_queues (s : State) (g : Nat) (x : Seg) : (s.setSeg g x).queues = s.queues := by unfold State.setSeg; dsimp only; split <;> rfl
@[simp] theorem State.setSeg_msiUnmasked (s : State) (g : Nat) (x : Seg) : (s.setSeg g x).msiUnmasked = s.msiUnmasked := by unfold State.setSeg; dsimp only; split <;> rfl
@[simp] theorem State.setSeg_msiPend (s : State) (g : Nat) (x : Seg) : (s.setSeg g x).msiPend = s.msiPend := by unfold State.setSeg; dsimp only; split <;> rfl
@[simp] theorem State.setSeg_units (s : State) (g : Nat) (x : Seg) : (s.setSeg g x).units = s.units := by unfold State.setSeg; dsimp only; split <;> rfl
@[simp] theorem State.setSeg_groups (s : State) (g : Nat) (x : Seg) : (s.setSeg g x).groups = s.groups := by unfold State.setSeg; dsimp only; split <;> rfl
@[simp] theorem State.setSeg_engs (s : State) (g : Nat) (x : Seg) : (s.setSeg g x).engs = s.engs := by unfold State.setSeg; dsimp only; split <;> rfl
@[simp] theorem State.setSeg_faults (s : State) (g : Nat) (x : Seg) : (s.setSeg g x).faults = s.faults := by unfold State.setSeg; dsimp only; split <;> rfl
@[simp] theorem State.setSeg_mgt (s : State) (g : Nat) (x : Seg) : (s.setSeg g x).mgt = s.mgt := by unfold State.setSeg; dsimp only; split <;> rfl
@[simp] theorem State.setSeg_jrnl (s : State) (g : Nat) (x : Seg) : (s.setSeg g x).jrnl = s.jrnl := by unfold State.setSeg; dsimp only; split <;> rfl
@[simp] theorem State.setSeg_link (s : State) (g : Nat) (x : Seg) : (s.setSeg g x).link = s.link := by unfold State.setSeg; dsimp only; split <;> rfl
@[simp] theorem State.setSeg_ports (s : State) (g : Nat) (x : Seg) : (s.setSeg g x).ports = s.ports := by unfold State.setSeg; dsimp only; split <;> rfl
@[simp] theorem State.setSeg_chans (s : State) (g : Nat) (x : Seg) : (s.setSeg g x).chans = s.chans := by unfold State.setSeg; dsimp only; split <;> rfl
@[simp] theorem State.setSeg_scripts (s : State) (g : Nat) (x : Seg) : (s.setSeg g x).scripts = s.scripts := by unfold State.setSeg; dsimp only; split <;> rfl
@[simp] theorem State.setSeg_store (s : State) (g : Nat) (x : Seg) : (s.setSeg g x).store = s.store := by unfold State.setSeg; dsimp only; split <;> rfl
@[simp] theorem State.setSeg_axes (s : State) (g : Nat) (x : Seg) : (s.setSeg g x).axes = s.axes := by unfold State.setSeg; dsimp only; split <;> rfl
@[simp] theorem State.setSeg_mot (s : State) (g : Nat) (x : Seg) : (s.setSeg g x).mot = s.mot := by unfold State.setSeg; dsimp only; split <;> rfl
@[simp] theorem State.setSeg_aux (s : State) (g : Nat) (x : Seg) : (s.setSeg g x).aux = s.aux := by unfold State.setSeg; dsimp only; split <;> rfl
@[simp] theorem State.setSeg_clk (s : State) (g : Nat) (x : Seg) : (s.setSeg g x).clk = s.clk := by unfold State.setSeg; dsimp only; split <;> rfl
@[simp] theorem State.setSeg_mstepNext (s : State) (g : Nat) (x : Seg) : (s.setSeg g x).mstepNext = s.mstepNext := by unfold State.setSeg; dsimp only; split <;> rfl
@[simp] theorem State.setSeg_mstepNow (s : State) (g : Nat) (x : Seg) : (s.setSeg g x).mstepNow = s.mstepNow := by unfold State.setSeg; dsimp only; split <;> rfl

/-! `dropCmd` changes `tks`. -/

@[simp] theorem State.dropCmd_pending (s : State) (d : DriveId) (k : Nat) : (s.dropCmd d k).pending = s.pending := rfl
@[simp] theorem State.dropCmd_now (s : State) (d : DriveId) (k : Nat) : (s.dropCmd d k).now = s.now := rfl
@[simp] theorem State.dropCmd_free (s : State) (d : DriveId) (k : Nat) : (s.dropCmd d k).free = s.free := rfl
@[simp] theorem State.dropCmd_rdata (s : State) (d : DriveId) (k : Nat) : (s.dropCmd d k).rdata = s.rdata := rfl
@[simp] theorem State.dropCmd_regs (s : State) (d : DriveId) (k : Nat) : (s.dropCmd d k).regs = s.regs := rfl
@[simp] theorem State.dropCmd_tbl (s : State) (d : DriveId) (k : Nat) : (s.dropCmd d k).tbl = s.tbl := rfl
@[simp] theorem State.dropCmd_bus (s : State) (d : DriveId) (k : Nat) : (s.dropCmd d k).bus = s.bus := rfl
@[simp] theorem State.dropCmd_ctxs (s : State) (d : DriveId) (k : Nat) : (s.dropCmd d k).ctxs = s.ctxs := rfl
@[simp] theorem State.dropCmd_pend (s : State) (d : DriveId) (k : Nat) : (s.dropCmd d k).pend = s.pend := rfl
@[simp] theorem State.dropCmd_raised (s : State) (d : DriveId) (k : Nat) : (s.dropCmd d k).raised = s.raised := rfl
@[simp] theorem State.dropCmd_queues (s : State) (d : DriveId) (k : Nat) : (s.dropCmd d k).queues = s.queues := rfl
@[simp] theorem State.dropCmd_msiUnmasked (s : State) (d : DriveId) (k : Nat) : (s.dropCmd d k).msiUnmasked = s.msiUnmasked := rfl
@[simp] theorem State.dropCmd_msiPend (s : State) (d : DriveId) (k : Nat) : (s.dropCmd d k).msiPend = s.msiPend := rfl
@[simp] theorem State.dropCmd_units (s : State) (d : DriveId) (k : Nat) : (s.dropCmd d k).units = s.units := rfl
@[simp] theorem State.dropCmd_groups (s : State) (d : DriveId) (k : Nat) : (s.dropCmd d k).groups = s.groups := rfl
@[simp] theorem State.dropCmd_engs (s : State) (d : DriveId) (k : Nat) : (s.dropCmd d k).engs = s.engs := rfl
@[simp] theorem State.dropCmd_faults (s : State) (d : DriveId) (k : Nat) : (s.dropCmd d k).faults = s.faults := rfl
@[simp] theorem State.dropCmd_mgt (s : State) (d : DriveId) (k : Nat) : (s.dropCmd d k).mgt = s.mgt := rfl
@[simp] theorem State.dropCmd_jrnl (s : State) (d : DriveId) (k : Nat) : (s.dropCmd d k).jrnl = s.jrnl := rfl
@[simp] theorem State.dropCmd_link (s : State) (d : DriveId) (k : Nat) : (s.dropCmd d k).link = s.link := rfl
@[simp] theorem State.dropCmd_ports (s : State) (d : DriveId) (k : Nat) : (s.dropCmd d k).ports = s.ports := rfl
@[simp] theorem State.dropCmd_chans (s : State) (d : DriveId) (k : Nat) : (s.dropCmd d k).chans = s.chans := rfl
@[simp] theorem State.dropCmd_scripts (s : State) (d : DriveId) (k : Nat) : (s.dropCmd d k).scripts = s.scripts := rfl
@[simp] theorem State.dropCmd_store (s : State) (d : DriveId) (k : Nat) : (s.dropCmd d k).store = s.store := rfl
@[simp] theorem State.dropCmd_axes (s : State) (d : DriveId) (k : Nat) : (s.dropCmd d k).axes = s.axes := rfl
@[simp] theorem State.dropCmd_mot (s : State) (d : DriveId) (k : Nat) : (s.dropCmd d k).mot = s.mot := rfl
@[simp] theorem State.dropCmd_aux (s : State) (d : DriveId) (k : Nat) : (s.dropCmd d k).aux = s.aux := rfl
@[simp] theorem State.dropCmd_clk (s : State) (d : DriveId) (k : Nat) : (s.dropCmd d k).clk = s.clk := rfl
@[simp] theorem State.dropCmd_mstepNext (s : State) (d : DriveId) (k : Nat) : (s.dropCmd d k).mstepNext = s.mstepNext := rfl
@[simp] theorem State.dropCmd_mstepNow (s : State) (d : DriveId) (k : Nat) : (s.dropCmd d k).mstepNow = s.mstepNow := rfl

/-! `setRewind` changes `tks`. -/

@[simp] theorem State.setRewind_pending (s : State) (p : PortId) (r : Option Rewind) : (s.setRewind p r).pending = s.pending := rfl
@[simp] theorem State.setRewind_now (s : State) (p : PortId) (r : Option Rewind) : (s.setRewind p r).now = s.now := rfl
@[simp] theorem State.setRewind_free (s : State) (p : PortId) (r : Option Rewind) : (s.setRewind p r).free = s.free := rfl
@[simp] theorem State.setRewind_rdata (s : State) (p : PortId) (r : Option Rewind) : (s.setRewind p r).rdata = s.rdata := rfl
@[simp] theorem State.setRewind_regs (s : State) (p : PortId) (r : Option Rewind) : (s.setRewind p r).regs = s.regs := rfl
@[simp] theorem State.setRewind_tbl (s : State) (p : PortId) (r : Option Rewind) : (s.setRewind p r).tbl = s.tbl := rfl
@[simp] theorem State.setRewind_bus (s : State) (p : PortId) (r : Option Rewind) : (s.setRewind p r).bus = s.bus := rfl
@[simp] theorem State.setRewind_ctxs (s : State) (p : PortId) (r : Option Rewind) : (s.setRewind p r).ctxs = s.ctxs := rfl
@[simp] theorem State.setRewind_pend (s : State) (p : PortId) (r : Option Rewind) : (s.setRewind p r).pend = s.pend := rfl
@[simp] theorem State.setRewind_raised (s : State) (p : PortId) (r : Option Rewind) : (s.setRewind p r).raised = s.raised := rfl
@[simp] theorem State.setRewind_queues (s : State) (p : PortId) (r : Option Rewind) : (s.setRewind p r).queues = s.queues := rfl
@[simp] theorem State.setRewind_msiUnmasked (s : State) (p : PortId) (r : Option Rewind) : (s.setRewind p r).msiUnmasked = s.msiUnmasked := rfl
@[simp] theorem State.setRewind_msiPend (s : State) (p : PortId) (r : Option Rewind) : (s.setRewind p r).msiPend = s.msiPend := rfl
@[simp] theorem State.setRewind_units (s : State) (p : PortId) (r : Option Rewind) : (s.setRewind p r).units = s.units := rfl
@[simp] theorem State.setRewind_groups (s : State) (p : PortId) (r : Option Rewind) : (s.setRewind p r).groups = s.groups := rfl
@[simp] theorem State.setRewind_engs (s : State) (p : PortId) (r : Option Rewind) : (s.setRewind p r).engs = s.engs := rfl
@[simp] theorem State.setRewind_faults (s : State) (p : PortId) (r : Option Rewind) : (s.setRewind p r).faults = s.faults := rfl
@[simp] theorem State.setRewind_mgt (s : State) (p : PortId) (r : Option Rewind) : (s.setRewind p r).mgt = s.mgt := rfl
@[simp] theorem State.setRewind_jrnl (s : State) (p : PortId) (r : Option Rewind) : (s.setRewind p r).jrnl = s.jrnl := rfl
@[simp] theorem State.setRewind_link (s : State) (p : PortId) (r : Option Rewind) : (s.setRewind p r).link = s.link := rfl
@[simp] theorem State.setRewind_ports (s : State) (p : PortId) (r : Option Rewind) : (s.setRewind p r).ports = s.ports := rfl
@[simp] theorem State.setRewind_chans (s : State) (p : PortId) (r : Option Rewind) : (s.setRewind p r).chans = s.chans := rfl
@[simp] theorem State.setRewind_scripts (s : State) (p : PortId) (r : Option Rewind) : (s.setRewind p r).scripts = s.scripts := rfl
@[simp] theorem State.setRewind_store (s : State) (p : PortId) (r : Option Rewind) : (s.setRewind p r).store = s.store := rfl
@[simp] theorem State.setRewind_axes (s : State) (p : PortId) (r : Option Rewind) : (s.setRewind p r).axes = s.axes := rfl
@[simp] theorem State.setRewind_mot (s : State) (p : PortId) (r : Option Rewind) : (s.setRewind p r).mot = s.mot := rfl
@[simp] theorem State.setRewind_aux (s : State) (p : PortId) (r : Option Rewind) : (s.setRewind p r).aux = s.aux := rfl
@[simp] theorem State.setRewind_clk (s : State) (p : PortId) (r : Option Rewind) : (s.setRewind p r).clk = s.clk := rfl
@[simp] theorem State.setRewind_mstepNext (s : State) (p : PortId) (r : Option Rewind) : (s.setRewind p r).mstepNext = s.mstepNext := rfl
@[simp] theorem State.setRewind_mstepNow (s : State) (p : PortId) (r : Option Rewind) : (s.setRewind p r).mstepNow = s.mstepNow := rfl

/-! `setCmd` changes `tks`. -/

@[simp] theorem State.setCmd_pending (s : State) (d : DriveId) (k : Nat) (c : DrvCmd) : (s.setCmd d k c).pending = s.pending := rfl
@[simp] theorem State.setCmd_now (s : State) (d : DriveId) (k : Nat) (c : DrvCmd) : (s.setCmd d k c).now = s.now := rfl
@[simp] theorem State.setCmd_free (s : State) (d : DriveId) (k : Nat) (c : DrvCmd) : (s.setCmd d k c).free = s.free := rfl
@[simp] theorem State.setCmd_rdata (s : State) (d : DriveId) (k : Nat) (c : DrvCmd) : (s.setCmd d k c).rdata = s.rdata := rfl
@[simp] theorem State.setCmd_regs (s : State) (d : DriveId) (k : Nat) (c : DrvCmd) : (s.setCmd d k c).regs = s.regs := rfl
@[simp] theorem State.setCmd_tbl (s : State) (d : DriveId) (k : Nat) (c : DrvCmd) : (s.setCmd d k c).tbl = s.tbl := rfl
@[simp] theorem State.setCmd_bus (s : State) (d : DriveId) (k : Nat) (c : DrvCmd) : (s.setCmd d k c).bus = s.bus := rfl
@[simp] theorem State.setCmd_ctxs (s : State) (d : DriveId) (k : Nat) (c : DrvCmd) : (s.setCmd d k c).ctxs = s.ctxs := rfl
@[simp] theorem State.setCmd_pend (s : State) (d : DriveId) (k : Nat) (c : DrvCmd) : (s.setCmd d k c).pend = s.pend := rfl
@[simp] theorem State.setCmd_raised (s : State) (d : DriveId) (k : Nat) (c : DrvCmd) : (s.setCmd d k c).raised = s.raised := rfl
@[simp] theorem State.setCmd_queues (s : State) (d : DriveId) (k : Nat) (c : DrvCmd) : (s.setCmd d k c).queues = s.queues := rfl
@[simp] theorem State.setCmd_msiUnmasked (s : State) (d : DriveId) (k : Nat) (c : DrvCmd) : (s.setCmd d k c).msiUnmasked = s.msiUnmasked := rfl
@[simp] theorem State.setCmd_msiPend (s : State) (d : DriveId) (k : Nat) (c : DrvCmd) : (s.setCmd d k c).msiPend = s.msiPend := rfl
@[simp] theorem State.setCmd_units (s : State) (d : DriveId) (k : Nat) (c : DrvCmd) : (s.setCmd d k c).units = s.units := rfl
@[simp] theorem State.setCmd_groups (s : State) (d : DriveId) (k : Nat) (c : DrvCmd) : (s.setCmd d k c).groups = s.groups := rfl
@[simp] theorem State.setCmd_engs (s : State) (d : DriveId) (k : Nat) (c : DrvCmd) : (s.setCmd d k c).engs = s.engs := rfl
@[simp] theorem State.setCmd_faults (s : State) (d : DriveId) (k : Nat) (c : DrvCmd) : (s.setCmd d k c).faults = s.faults := rfl
@[simp] theorem State.setCmd_mgt (s : State) (d : DriveId) (k : Nat) (c : DrvCmd) : (s.setCmd d k c).mgt = s.mgt := rfl
@[simp] theorem State.setCmd_jrnl (s : State) (d : DriveId) (k : Nat) (c : DrvCmd) : (s.setCmd d k c).jrnl = s.jrnl := rfl
@[simp] theorem State.setCmd_link (s : State) (d : DriveId) (k : Nat) (c : DrvCmd) : (s.setCmd d k c).link = s.link := rfl
@[simp] theorem State.setCmd_ports (s : State) (d : DriveId) (k : Nat) (c : DrvCmd) : (s.setCmd d k c).ports = s.ports := rfl
@[simp] theorem State.setCmd_chans (s : State) (d : DriveId) (k : Nat) (c : DrvCmd) : (s.setCmd d k c).chans = s.chans := rfl
@[simp] theorem State.setCmd_scripts (s : State) (d : DriveId) (k : Nat) (c : DrvCmd) : (s.setCmd d k c).scripts = s.scripts := rfl
@[simp] theorem State.setCmd_store (s : State) (d : DriveId) (k : Nat) (c : DrvCmd) : (s.setCmd d k c).store = s.store := rfl
@[simp] theorem State.setCmd_axes (s : State) (d : DriveId) (k : Nat) (c : DrvCmd) : (s.setCmd d k c).axes = s.axes := rfl
@[simp] theorem State.setCmd_mot (s : State) (d : DriveId) (k : Nat) (c : DrvCmd) : (s.setCmd d k c).mot = s.mot := rfl
@[simp] theorem State.setCmd_aux (s : State) (d : DriveId) (k : Nat) (c : DrvCmd) : (s.setCmd d k c).aux = s.aux := rfl
@[simp] theorem State.setCmd_clk (s : State) (d : DriveId) (k : Nat) (c : DrvCmd) : (s.setCmd d k c).clk = s.clk := rfl
@[simp] theorem State.setCmd_mstepNext (s : State) (d : DriveId) (k : Nat) (c : DrvCmd) : (s.setCmd d k c).mstepNext = s.mstepNext := rfl
@[simp] theorem State.setCmd_mstepNow (s : State) (d : DriveId) (k : Nat) (c : DrvCmd) : (s.setCmd d k c).mstepNow = s.mstepNow := rfl

/-! ### Raising a source -/

/-- What a raising of one source leaves as it was. -/
theorem State.raiseOne_frame (s : State) (src : Nat) (items : List (Nat × Nat)) :
    s.raiseOne src items = { s with raised := (s.raiseOne src items).raised, pend := (s.raiseOne src items).pend } := by
  unfold State.raiseOne
  split <;> rfl

/-- What a fold of steps that each change only events, registers and the auxiliary analog unit leaves as it was. -/
theorem State.foldl_frame {α : Type} (f : State → α → State)
    (hf : ∀ t a, f t a = { t with raised := (f t a).raised, pend := (f t a).pend, regs := (f t a).regs, aux := (f t a).aux }) :
    ∀ (l : List α) (s : State), l.foldl f s =
      { s with raised := (l.foldl f s).raised, pend := (l.foldl f s).pend, regs := (l.foldl f s).regs, aux := (l.foldl f s).aux } := by
  intro l
  induction l with
  | nil => intro s; rfl
  | cons a t ih =>
    intro s
    rw [List.foldl_cons, ih (f s a), hf s a]

/-- What a lost request of an injection slot leaves as it was. -/
theorem State.injLose_frame (s : State) (n : Fin 4) :
    s.injLose n = { s with raised := (s.injLose n).raised, pend := (s.injLose n).pend, regs := (s.injLose n).regs,
                           aux := (s.injLose n).aux } := by
  unfold State.injLose
  rw [State.raiseOne_frame]
  rfl

/-- What a request that a lost request makes leaves as it was. -/
theorem State.injAgain_frame (s : State) (n : Fin 4) :
    s.injAgain n = { s with raised := (s.injAgain n).raised, pend := (s.injAgain n).pend, regs := (s.injAgain n).regs,
                            aux := (s.injAgain n).aux } := by
  unfold State.injAgain
  split
  · split
    · exact State.injLose_frame s n
    · rfl
  · rfl

/-- What a request to an injection slot leaves as it was. -/
theorem State.injRequest_frame (s : State) (n : Fin 4) :
    s.injRequest n = { s with raised := (s.injRequest n).raised, pend := (s.injRequest n).pend, regs := (s.injRequest n).regs,
                              aux := (s.injRequest n).aux } := by
  unfold State.injRequest
  split
  · rw [State.foldl_frame State.injAgain State.injAgain_frame (List.finRange 4) (s.injLose n), State.injLose_frame s n]
  · rfl

/-- A raising changes the raisings, the pending sources and what the injection slots that it triggers need, and nothing else. -/
theorem State.raise_frame (s : State) (src : Nat) (items : List (Nat × Nat)) :
    s.raise src items = { s with raised := (s.raise src items).raised, pend := (s.raise src items).pend,
                                 regs := (s.raise src items).regs, aux := (s.raise src items).aux } := by
  have h := State.foldl_frame (fun t (n : Fin 4) => if t.injTrig src n then t.injRequest n else t) (fun t n => by
    split
    · exact State.injRequest_frame t n
    · rfl) (List.finRange 4) (s.raiseOne src items)
  unfold State.raise
  rw [h, State.raiseOne_frame s src items]

@[simp] theorem State.raise_pending (s : State) (src : Nat) (items : List (Nat × Nat)) : (s.raise src items).pending = s.pending := by rw [State.raise_frame]
@[simp] theorem State.raise_now (s : State) (src : Nat) (items : List (Nat × Nat)) : (s.raise src items).now = s.now := by rw [State.raise_frame]
@[simp] theorem State.raise_free (s : State) (src : Nat) (items : List (Nat × Nat)) : (s.raise src items).free = s.free := by rw [State.raise_frame]
@[simp] theorem State.raise_rdata (s : State) (src : Nat) (items : List (Nat × Nat)) : (s.raise src items).rdata = s.rdata := by rw [State.raise_frame]
@[simp] theorem State.raise_tbl (s : State) (src : Nat) (items : List (Nat × Nat)) : (s.raise src items).tbl = s.tbl := by rw [State.raise_frame]
@[simp] theorem State.raise_bus (s : State) (src : Nat) (items : List (Nat × Nat)) : (s.raise src items).bus = s.bus := by rw [State.raise_frame]
@[simp] theorem State.raise_ctxs (s : State) (src : Nat) (items : List (Nat × Nat)) : (s.raise src items).ctxs = s.ctxs := by rw [State.raise_frame]
@[simp] theorem State.raise_queues (s : State) (src : Nat) (items : List (Nat × Nat)) : (s.raise src items).queues = s.queues := by rw [State.raise_frame]
@[simp] theorem State.raise_msiUnmasked (s : State) (src : Nat) (items : List (Nat × Nat)) : (s.raise src items).msiUnmasked = s.msiUnmasked := by rw [State.raise_frame]
@[simp] theorem State.raise_msiPend (s : State) (src : Nat) (items : List (Nat × Nat)) : (s.raise src items).msiPend = s.msiPend := by rw [State.raise_frame]
@[simp] theorem State.raise_units (s : State) (src : Nat) (items : List (Nat × Nat)) : (s.raise src items).units = s.units := by rw [State.raise_frame]
@[simp] theorem State.raise_groups (s : State) (src : Nat) (items : List (Nat × Nat)) : (s.raise src items).groups = s.groups := by rw [State.raise_frame]
@[simp] theorem State.raise_engs (s : State) (src : Nat) (items : List (Nat × Nat)) : (s.raise src items).engs = s.engs := by rw [State.raise_frame]
@[simp] theorem State.raise_faults (s : State) (src : Nat) (items : List (Nat × Nat)) : (s.raise src items).faults = s.faults := by rw [State.raise_frame]
@[simp] theorem State.raise_mgt (s : State) (src : Nat) (items : List (Nat × Nat)) : (s.raise src items).mgt = s.mgt := by rw [State.raise_frame]
@[simp] theorem State.raise_jrnl (s : State) (src : Nat) (items : List (Nat × Nat)) : (s.raise src items).jrnl = s.jrnl := by rw [State.raise_frame]
@[simp] theorem State.raise_link (s : State) (src : Nat) (items : List (Nat × Nat)) : (s.raise src items).link = s.link := by rw [State.raise_frame]
@[simp] theorem State.raise_ports (s : State) (src : Nat) (items : List (Nat × Nat)) : (s.raise src items).ports = s.ports := by rw [State.raise_frame]
@[simp] theorem State.raise_chans (s : State) (src : Nat) (items : List (Nat × Nat)) : (s.raise src items).chans = s.chans := by rw [State.raise_frame]
@[simp] theorem State.raise_scripts (s : State) (src : Nat) (items : List (Nat × Nat)) : (s.raise src items).scripts = s.scripts := by rw [State.raise_frame]
@[simp] theorem State.raise_store (s : State) (src : Nat) (items : List (Nat × Nat)) : (s.raise src items).store = s.store := by rw [State.raise_frame]
@[simp] theorem State.raise_tks (s : State) (src : Nat) (items : List (Nat × Nat)) : (s.raise src items).tks = s.tks := by rw [State.raise_frame]
@[simp] theorem State.raise_axes (s : State) (src : Nat) (items : List (Nat × Nat)) : (s.raise src items).axes = s.axes := by rw [State.raise_frame]
@[simp] theorem State.raise_mot (s : State) (src : Nat) (items : List (Nat × Nat)) : (s.raise src items).mot = s.mot := by rw [State.raise_frame]
@[simp] theorem State.raise_clk (s : State) (src : Nat) (items : List (Nat × Nat)) : (s.raise src items).clk = s.clk := by rw [State.raise_frame]
@[simp] theorem State.raise_mstepNext (s : State) (src : Nat) (items : List (Nat × Nat)) : (s.raise src items).mstepNext = s.mstepNext := by rw [State.raise_frame]
@[simp] theorem State.raise_mstepNow (s : State) (src : Nat) (items : List (Nat × Nat)) : (s.raise src items).mstepNow = s.mstepNow := by rw [State.raise_frame]

/-! ### One element of a vector -/

@[simp] theorem State.updPort_same (s : State) (i : PortId) (f : PortSt → PortSt) : (s.updPort i f).port i = f (s.port i) := by
  show (s.ports.set i.val (f s.ports[i]))[i.val] = _
  rw [Vector.getElem_set_self]
  rfl

theorem State.updPort_ne (s : State) {i j : PortId} (f : PortSt → PortSt) (h : j ≠ i) : (s.updPort i f).port j = s.port j := by
  show (s.ports.set i.val (f s.ports[i]))[j.val] = s.ports[j.val]
  rw [Vector.getElem_set_ne]
  intro e
  exact h (Fin.ext e.symm)

@[simp] theorem State.updUnit_same (s : State) (i : UnitId) (f : UnitSt → UnitSt) : (s.updUnit i f).unit i = f (s.unit i) := by
  show (s.units.set i.val (f s.units[i]))[i.val] = _
  rw [Vector.getElem_set_self]
  rfl

theorem State.updUnit_ne (s : State) {i j : UnitId} (f : UnitSt → UnitSt) (h : j ≠ i) : (s.updUnit i f).unit j = s.unit j := by
  show (s.units.set i.val (f s.units[i]))[j.val] = s.units[j.val]
  rw [Vector.getElem_set_ne]
  intro e
  exact h (Fin.ext e.symm)

@[simp] theorem State.updEng_same (s : State) (i : EngId) (f : Eng → Eng) : (s.updEng i f).eng i = f (s.eng i) := by
  show (s.engs.set i.val (f s.engs[i]))[i.val] = _
  rw [Vector.getElem_set_self]
  rfl

theorem State.updEng_ne (s : State) {i j : EngId} (f : Eng → Eng) (h : j ≠ i) : (s.updEng i f).eng j = s.eng j := by
  show (s.engs.set i.val (f s.engs[i]))[j.val] = s.engs[j.val]
  rw [Vector.getElem_set_ne]
  intro e
  exact h (Fin.ext e.symm)

@[simp] theorem State.updChan_same (s : State) (i : ChanId) (f : ChanSt → ChanSt) : (s.updChan i f).chan i = f (s.chan i) := by
  show (s.chans.set i.val (f s.chans[i]))[i.val] = _
  rw [Vector.getElem_set_self]
  rfl

theorem State.updChan_ne (s : State) {i j : ChanId} (f : ChanSt → ChanSt) (h : j ≠ i) : (s.updChan i f).chan j = s.chan j := by
  show (s.chans.set i.val (f s.chans[i]))[j.val] = s.chans[j.val]
  rw [Vector.getElem_set_ne]
  intro e
  exact h (Fin.ext e.symm)

@[simp] theorem State.updScript_same (s : State) (i : ScriptId) (f : ScriptSt → ScriptSt) : (s.updScript i f).script i = f (s.script i) := by
  show (s.scripts.set i.val (f s.scripts[i]))[i.val] = _
  rw [Vector.getElem_set_self]
  rfl

theorem State.updScript_ne (s : State) {i j : ScriptId} (f : ScriptSt → ScriptSt) (h : j ≠ i) : (s.updScript i f).script j = s.script j := by
  show (s.scripts.set i.val (f s.scripts[i]))[j.val] = s.scripts[j.val]
  rw [Vector.getElem_set_ne]
  intro e
  exact h (Fin.ext e.symm)

@[simp] theorem State.updAxis_same (s : State) (i : AxisId) (f : AxisSt → AxisSt) : (s.updAxis i f).axis i = f (s.axis i) := by
  show (s.axes.set i.val (f s.axes[i]))[i.val] = _
  rw [Vector.getElem_set_self]
  rfl

theorem State.updAxis_ne (s : State) {i j : AxisId} (f : AxisSt → AxisSt) (h : j ≠ i) : (s.updAxis i f).axis j = s.axis j := by
  show (s.axes.set i.val (f s.axes[i]))[j.val] = s.axes[j.val]
  rw [Vector.getElem_set_ne]
  intro e
  exact h (Fin.ext e.symm)

@[simp] theorem State.updQueue_same (s : State) (i : QueueId) (f : EvQueue → EvQueue) : (s.updQueue i f).queue i = f (s.queue i) := by
  show (s.queues.set i.val (f s.queues[i]))[i.val] = _
  rw [Vector.getElem_set_self]
  rfl

theorem State.updQueue_ne (s : State) {i j : QueueId} (f : EvQueue → EvQueue) (h : j ≠ i) : (s.updQueue i f).queue j = s.queue j := by
  show (s.queues.set i.val (f s.queues[i]))[j.val] = s.queues[j.val]
  rw [Vector.getElem_set_ne]
  intro e
  exact h (Fin.ext e.symm)

@[simp] theorem State.updCtx_same (s : State) (i : CtxId) (f : Ctx → Ctx) : (s.updCtx i f).ctxs[i] = f s.ctxs[i] := by
  show (s.ctxs.set i.val (f s.ctxs[i]))[i.val] = _
  rw [Vector.getElem_set_self]

theorem State.updCtx_ne (s : State) {i j : CtxId} (f : Ctx → Ctx) (h : j ≠ i) : (s.updCtx i f).ctxs[j] = s.ctxs[j] := by
  show (s.ctxs.set i.val (f s.ctxs[i]))[j.val] = s.ctxs[j.val]
  rw [Vector.getElem_set_ne]
  intro e
  exact h (Fin.ext e.symm)

@[simp] theorem State.updGroup_same (s : State) (i : GroupId) (f : Group → Group) : (s.updGroup i f).groups[i] = f s.groups[i] := by
  show (s.groups.set i.val (f s.groups[i]))[i.val] = _
  rw [Vector.getElem_set_self]

theorem State.updGroup_ne (s : State) {i j : GroupId} (f : Group → Group) (h : j ≠ i) : (s.updGroup i f).groups[j] = s.groups[j] := by
  show (s.groups.set i.val (f s.groups[i]))[j.val] = s.groups[j.val]
  rw [Vector.getElem_set_ne]
  intro e
  exact h (Fin.ext e.symm)

end Sys2Proof.Machine
end

