-- ==== Sys2Proof/Laws/Regs.lean ====
section
/-! SUPPORT. What a register reads after an update of the register file, and how often a source has been raised. -/

namespace Sys2Proof.Machine

/-- A register reads what was put there; the others read as before. -/
theorem State.cell_setCell {s : State} (h : s.MemOk) (u off u' off' : Nat) (c : RegCell) :
    (s.setCell u off c).cell u' off' = if rkey u' off' = rkey u off then c else s.cell u' off' :=
  mget_mput h.regs

@[simp] theorem State.cell_setCell_same {s : State} (h : s.MemOk) (u off : Nat) (c : RegCell) : (s.setCell u off c).cell u off = c := by
  rw [State.cell_setCell h, if_pos rfl]

/-- Another register reads as before, whatever the register file. -/
theorem State.cell_setCell_ne {s : State} {u off u' off' : Nat} (hne : rkey u' off' ≠ rkey u off) (c : RegCell) :
    (s.setCell u off c).cell u' off' = s.cell u' off' :=
  mget_mput_ne hne s.regs

theorem State.setCell_memOk {s : State} (h : s.MemOk) (u off : Nat) (c : RegCell) : (s.setCell u off c).MemOk :=
  (State.setCell_keeps u off c (Keeps.refl (kc := false) s)).mem h
theorem State.setReg_memOk {s : State} (h : s.MemOk) (u off v : Nat) : (s.setReg u off v).MemOk :=
  (State.setReg_keeps u off v (Keeps.refl (kc := false) s)).mem h
theorem State.setRf_memOk {s : State} (h : s.MemOk) (u off hi lo x : Nat) : (s.setRf u off hi lo x).MemOk :=
  (State.setRf_keeps u off hi lo x (Keeps.refl (kc := false) s)).mem h
theorem State.raise_memOk {s : State} (h : s.MemOk) (src : Nat) (items : List (Nat × Nat)) : (s.raise src items).MemOk :=
  (State.raise_keeps src items (Keeps.refl (kc := false) s)).mem h

/-- A register that the device sets. -/
theorem State.reg_setReg {s : State} (h : s.MemOk) (u off v : Nat) : (s.setReg u off v).reg u off = v % 2 ^ 32 := by
  unfold State.reg State.setReg
  rw [State.cell_setCell_same h, BitVec.toNat_ofNat]

theorem State.eff_setReg {s : State} (h : s.MemOk) (u off v : Nat) : (s.setReg u off v).eff u off = v % 2 ^ 32 := by
  unfold State.eff State.setReg
  rw [State.cell_setCell_same h, BitVec.toNat_ofNat]

theorem State.cell_setReg_ne {s : State} {u off u' off' : Nat} (hne : rkey u' off' ≠ rkey u off) (v : Nat) :
    (s.setReg u off v).cell u' off' = s.cell u' off' :=
  State.cell_setCell_ne hne _

theorem State.cell_setRf_ne {s : State} {u off u' off' : Nat} (hne : rkey u' off' ≠ rkey u off) (hi lo x : Nat) :
    (s.setRf u off hi lo x).cell u' off' = s.cell u' off' :=
  State.cell_setCell_ne hne _

theorem State.cell_incRf_ne {s : State} {u off u' off' : Nat} (hne : rkey u' off' ≠ rkey u off) (hi lo x : Nat) :
    (s.incRf u off hi lo x).cell u' off' = s.cell u' off' :=
  State.cell_setCell_ne hne _

/-- The parts of a number around a field: above it, the field, below it. -/
theorem fld_split (v hi lo : Nat) :
    v = 2 ^ lo * (2 ^ (hi + 1 - lo) * (v / 2 ^ lo / 2 ^ (hi + 1 - lo)) + fld v hi lo) + v % 2 ^ lo := by
  unfold fld
  rw [Nat.div_add_mod, Nat.div_add_mod]

/-- What a replaced field makes of the parts. -/
theorem setFld_eq (v hi lo x : Nat) :
    setFld v hi lo x = 2 ^ lo * (2 ^ (hi + 1 - lo) * (v / 2 ^ lo / 2 ^ (hi + 1 - lo)) + x % 2 ^ (hi + 1 - lo)) + v % 2 ^ lo := by
  have h := fld_split v hi lo
  unfold setFld
  generalize v / 2 ^ lo / 2 ^ (hi + 1 - lo) = a at h ⊢
  generalize fld v hi lo = f at h ⊢
  generalize x % 2 ^ (hi + 1 - lo) = y
  generalize v % 2 ^ lo = r at h ⊢
  generalize 2 ^ (hi + 1 - lo) = w at h ⊢
  generalize 2 ^ lo = l at h ⊢
  subst h
  have e1 : l * (w * a + f) + r - f * l = l * (w * a) + r := by
    rw [Nat.mul_add, Nat.mul_comm f l]
    omega
  rw [e1, Nat.mul_add, Nat.mul_comm y l]
  omega

/-- A field of a number that was put there. -/
theorem fld_setFld (v hi lo x : Nat) : fld (setFld v hi lo x) hi lo = x % 2 ^ (hi + 1 - lo) := by
  rw [setFld_eq]
  unfold fld
  have h0 : 0 < 2 ^ lo := Nat.two_pow_pos lo
  rw [Nat.mul_add_div h0, Nat.div_eq_of_lt (Nat.mod_lt v h0), Nat.add_zero, Nat.mul_add_mod, Nat.mod_mod]

/-- A number of 32 bits stays one when a field within them is replaced. -/
theorem setFld_lt (v hi lo x : Nat) (hv : v < 2 ^ 32) (hl : lo ≤ hi) (hh : hi < 32) : setFld v hi lo x < 2 ^ 32 := by
  rw [setFld_eq]
  have h0 : 0 < 2 ^ lo := Nat.two_pow_pos lo
  have hy : x % 2 ^ (hi + 1 - lo) < 2 ^ (hi + 1 - lo) := Nat.mod_lt _ (Nat.two_pow_pos _)
  have hr : v % 2 ^ lo < 2 ^ lo := Nat.mod_lt _ h0
  have ha : v / 2 ^ lo / 2 ^ (hi + 1 - lo) < 2 ^ (31 - hi) := by
    rw [Nat.div_div_eq_div_mul, ← Nat.pow_add, Nat.div_lt_iff_lt_mul (Nat.two_pow_pos _), ← Nat.pow_add]
    have : 31 - hi + (lo + (hi + 1 - lo)) = 32 := by omega
    rw [this]
    exact hv
  have e : (2 : Nat) ^ 32 = 2 ^ lo * (2 ^ (hi + 1 - lo) * 2 ^ (31 - hi)) := by
    rw [← Nat.pow_add, ← Nat.pow_add]
    congr 1
    omega
  rw [e]
  generalize v / 2 ^ lo / 2 ^ (hi + 1 - lo) = a at ha ⊢
  generalize x % 2 ^ (hi + 1 - lo) = y at hy ⊢
  generalize v % 2 ^ lo = r at hr ⊢
  generalize 2 ^ (hi + 1 - lo) = w at hy ⊢
  generalize 2 ^ lo = l at hr ⊢
  generalize 2 ^ (31 - hi) = k at ha ⊢
  have h1 : w * a + y + 1 ≤ w * k := by
    have : w * (a + 1) ≤ w * k := Nat.mul_le_mul_left w ha
    rw [Nat.mul_add, Nat.mul_one] at this
    omega
  have h2 : l * (w * a + y + 1) ≤ l * (w * k) := Nat.mul_le_mul_left l h1
  rw [Nat.mul_add, Nat.mul_one] at h2
  omega

/-- A field that the device sets. -/
theorem State.rf_setRf {s : State} (h : s.MemOk) (u off hi lo x : Nat) (hl : lo ≤ hi) (hh : hi < 32) :
    (s.setRf u off hi lo x).rf u off hi lo = x % 2 ^ (hi + 1 - lo) := by
  unfold State.rf State.eff State.setRf
  rw [State.cell_setCell_same h, BitVec.toNat_ofNat, Nat.mod_eq_of_lt (setFld_lt _ _ _ _ (BitVec.isLt _) hl hh), fld_setFld]

/-- How often a source has been raised after one raising. -/
theorem State.raiseOne_raisings {s : State} (h : s.MemOk) (src : Nat) (items : List (Nat × Nat)) :
    (s.raiseOne src items).raisings src = s.raisings src + 1 := by
  unfold State.raiseOne State.raisings
  split <;> exact mget_mput_same s.raised none h.raised

theorem State.raiseOne_raisings_ne (s : State) {src k : Nat} (items : List (Nat × Nat)) (hk : k ≠ src) :
    (s.raiseOne src items).raisings k = s.raisings k := by
  unfold State.raiseOne State.raisings
  split <;> exact mget_mput_ne hk s.raised

/-- Steps that each leave the raisings of `k` as they were. -/
theorem State.foldl_raisings {α : Type} {f : State → α → State} {k : Nat} (hf : ∀ t a, (f t a).raisings k = t.raisings k) :
    ∀ (l : List α) (s : State), (l.foldl f s).raisings k = s.raisings k := by
  intro l
  induction l with
  | nil => intro s; rfl
  | cons a t ih =>
    intro s
    rw [List.foldl_cons, ih, hf]

/-- A lost request raises no source but AUX_INJ_LOST. -/
theorem State.injLose_raisings_ne (s : State) (n : Fin 4) {k : Nat} (hk : k ≠ auxSrc 40) : (s.injLose n).raisings k = s.raisings k := by
  unfold State.injLose
  rw [State.raiseOne_raisings_ne _ _ hk]
  rfl

theorem State.injAgain_raisings_ne (s : State) (n : Fin 4) {k : Nat} (hk : k ≠ auxSrc 40) : (s.injAgain n).raisings k = s.raisings k := by
  unfold State.injAgain
  split
  · split
    · exact State.injLose_raisings_ne s n hk
    · rfl
  · rfl

/-- A request to a slot raises no source but AUX_INJ_LOST. -/
theorem State.injRequest_raisings_ne (s : State) (n : Fin 4) {k : Nat} (hk : k ≠ auxSrc 40) : (s.injRequest n).raisings k = s.raisings k := by
  unfold State.injRequest
  split
  · rw [State.foldl_raisings (fun t m => State.injAgain_raisings_ne t m hk), State.injLose_raisings_ne s n hk]
  · rfl

/-- A raising is counted once (R359). -/
theorem State.raise_raisings {s : State} (h : s.MemOk) {src : Nat} (items : List (Nat × Nat)) (hs : src ≠ auxSrc 40) :
    (s.raise src items).raisings src = s.raisings src + 1 := by
  unfold State.raise
  rw [State.foldl_raisings, State.raiseOne_raisings h]
  intro t n
  split
  · exact State.injRequest_raisings_ne t n hs
  · rfl

/-- A raising of one source counts none for another, but AUX_INJ_LOST. -/
theorem State.raise_raisings_ne (s : State) {src k : Nat} (items : List (Nat × Nat)) (hk : k ≠ src) (h40 : k ≠ auxSrc 40) :
    (s.raise src items).raisings k = s.raisings k := by
  unfold State.raise
  rw [State.foldl_raisings, State.raiseOne_raisings_ne _ _ hk]
  intro t n
  split
  · exact State.injRequest_raisings_ne t n h40
  · rfl

/-- Steps that each leave a register as it was. -/
theorem State.foldl_cell {α : Type} {f : State → α → State} {u off : Nat} (hf : ∀ t a, (f t a).cell u off = t.cell u off) :
    ∀ (l : List α) (s : State), (l.foldl f s).cell u off = s.cell u off := by
  intro l
  induction l with
  | nil => intro s; rfl
  | cons a t ih =>
    intro s
    rw [List.foldl_cons, ih, hf]

theorem State.cell_raiseOne (s : State) (src : Nat) (items : List (Nat × Nat)) (u off : Nat) :
    (s.raiseOne src items).cell u off = s.cell u off := by
  unfold State.raiseOne
  split <;> rfl

theorem State.cell_injLose (s : State) (n : Fin 4) {u off : Nat} (hk : ∀ n : Fin 4, rkey u off ≠ rkey 0 (Off.AUX_INJ_REQ + 16 * n.val)) :
    (s.injLose n).cell u off = s.cell u off := by
  unfold State.injLose
  rw [State.cell_raiseOne, State.cell_incRf_ne (hk n)]

theorem State.cell_injRequest (s : State) (n : Fin 4) {u off : Nat} (hk : ∀ n : Fin 4, rkey u off ≠ rkey 0 (Off.AUX_INJ_REQ + 16 * n.val)) :
    (s.injRequest n).cell u off = s.cell u off := by
  unfold State.injRequest
  split
  · rw [State.foldl_cell, State.cell_injLose s n hk]
    intro t m
    unfold State.injAgain
    split
    · split
      · exact State.cell_injLose t m hk
      · rfl
    · rfl
  · rfl

/-- A register that no injection slot counts in reads as before a raising. -/
theorem State.cell_raise (s : State) (src : Nat) (items : List (Nat × Nat)) {u off : Nat}
    (hk : ∀ n : Fin 4, rkey u off ≠ rkey 0 (Off.AUX_INJ_REQ + 16 * n.val)) : (s.raise src items).cell u off = s.cell u off := by
  unfold State.raise
  rw [State.foldl_cell, State.cell_raiseOne]
  intro t n
  split
  · exact State.cell_injRequest t n hk
  · rfl

end Sys2Proof.Machine
end

