-- ==== Sys2Proof/Laws/Bus.lean ====
section
/-! SUPPORT. What a host access does once it is served: a 32-bit write of a register is the register's own action and, where R384 asks
for it, a journal entry; a 32-bit read returns what the register reads and has its side effect. -/

namespace Sys2Proof.Machine

@[simp] theorem State.noteWrite_pending (s t : State) (c : CtxId) (r : RegDef) (u off v : Nat) : (s.noteWrite t c r u off v).pending = t.pending := by
  unfold State.noteWrite
  dsimp only
  split <;> rfl
@[simp] theorem State.noteWrite_now (s t : State) (c : CtxId) (r : RegDef) (u off v : Nat) : (s.noteWrite t c r u off v).now = t.now := by
  unfold State.noteWrite
  dsimp only
  split <;> rfl
@[simp] theorem State.noteWrite_free (s t : State) (c : CtxId) (r : RegDef) (u off v : Nat) : (s.noteWrite t c r u off v).free = t.free := by
  unfold State.noteWrite
  dsimp only
  split <;> rfl
@[simp] theorem State.noteWrite_rdata (s t : State) (c : CtxId) (r : RegDef) (u off v : Nat) : (s.noteWrite t c r u off v).rdata = t.rdata := by
  unfold State.noteWrite
  dsimp only
  split <;> rfl
@[simp] theorem State.noteWrite_regs (s t : State) (c : CtxId) (r : RegDef) (u off v : Nat) : (s.noteWrite t c r u off v).regs = t.regs := by
  unfold State.noteWrite
  dsimp only
  split <;> rfl
@[simp] theorem State.noteWrite_tbl (s t : State) (c : CtxId) (r : RegDef) (u off v : Nat) : (s.noteWrite t c r u off v).tbl = t.tbl := by
  unfold State.noteWrite
  dsimp only
  split <;> rfl
@[simp] theorem State.noteWrite_bus (s t : State) (c : CtxId) (r : RegDef) (u off v : Nat) : (s.noteWrite t c r u off v).bus = t.bus := by
  unfold State.noteWrite
  dsimp only
  split <;> rfl
@[simp] theorem State.noteWrite_ctxs (s t : State) (c : CtxId) (r : RegDef) (u off v : Nat) : (s.noteWrite t c r u off v).ctxs = t.ctxs := by
  unfold State.noteWrite
  dsimp only
  split <;> rfl
@[simp] theorem State.noteWrite_pend (s t : State) (c : CtxId) (r : RegDef) (u off v : Nat) : (s.noteWrite t c r u off v).pend = t.pend := by
  unfold State.noteWrite
  dsimp only
  split <;> rfl
@[simp] theorem State.noteWrite_raised (s t : State) (c : CtxId) (r : RegDef) (u off v : Nat) : (s.noteWrite t c r u off v).raised = t.raised := by
  unfold State.noteWrite
  dsimp only
  split <;> rfl
@[simp] theorem State.noteWrite_queues (s t : State) (c : CtxId) (r : RegDef) (u off v : Nat) : (s.noteWrite t c r u off v).queues = t.queues := by
  unfold State.noteWrite
  dsimp only
  split <;> rfl
@[simp] theorem State.noteWrite_msiUnmasked (s t : State) (c : CtxId) (r : RegDef) (u off v : Nat) : (s.noteWrite t c r u off v).msiUnmasked = t.msiUnmasked := by
  unfold State.noteWrite
  dsimp only
  split <;> rfl
@[simp] theorem State.noteWrite_msiPend (s t : State) (c : CtxId) (r : RegDef) (u off v : Nat) : (s.noteWrite t c r u off v).msiPend = t.msiPend := by
  unfold State.noteWrite
  dsimp only
  split <;> rfl
@[simp] theorem State.noteWrite_units (s t : State) (c : CtxId) (r : RegDef) (u off v : Nat) : (s.noteWrite t c r u off v).units = t.units := by
  unfold State.noteWrite
  dsimp only
  split <;> rfl
@[simp] theorem State.noteWrite_groups (s t : State) (c : CtxId) (r : RegDef) (u off v : Nat) : (s.noteWrite t c r u off v).groups = t.groups := by
  unfold State.noteWrite
  dsimp only
  split <;> rfl
@[simp] theorem State.noteWrite_engs (s t : State) (c : CtxId) (r : RegDef) (u off v : Nat) : (s.noteWrite t c r u off v).engs = t.engs := by
  unfold State.noteWrite
  dsimp only
  split <;> rfl
@[simp] theorem State.noteWrite_faults (s t : State) (c : CtxId) (r : RegDef) (u off v : Nat) : (s.noteWrite t c r u off v).faults = t.faults := by
  unfold State.noteWrite
  dsimp only
  split <;> rfl
@[simp] theorem State.noteWrite_mgt (s t : State) (c : CtxId) (r : RegDef) (u off v : Nat) : (s.noteWrite t c r u off v).mgt = t.mgt := by
  unfold State.noteWrite
  dsimp only
  split <;> rfl
@[simp] theorem State.noteWrite_link (s t : State) (c : CtxId) (r : RegDef) (u off v : Nat) : (s.noteWrite t c r u off v).link = t.link := by
  unfold State.noteWrite
  dsimp only
  split <;> rfl
@[simp] theorem State.noteWrite_ports (s t : State) (c : CtxId) (r : RegDef) (u off v : Nat) : (s.noteWrite t c r u off v).ports = t.ports := by
  unfold State.noteWrite
  dsimp only
  split <;> rfl
@[simp] theorem State.noteWrite_chans (s t : State) (c : CtxId) (r : RegDef) (u off v : Nat) : (s.noteWrite t c r u off v).chans = t.chans := by
  unfold State.noteWrite
  dsimp only
  split <;> rfl
@[simp] theorem State.noteWrite_scripts (s t : State) (c : CtxId) (r : RegDef) (u off v : Nat) : (s.noteWrite t c r u off v).scripts = t.scripts := by
  unfold State.noteWrite
  dsimp only
  split <;> rfl
@[simp] theorem State.noteWrite_store (s t : State) (c : CtxId) (r : RegDef) (u off v : Nat) : (s.noteWrite t c r u off v).store = t.store := by
  unfold State.noteWrite
  dsimp only
  split <;> rfl
@[simp] theorem State.noteWrite_tks (s t : State) (c : CtxId) (r : RegDef) (u off v : Nat) : (s.noteWrite t c r u off v).tks = t.tks := by
  unfold State.noteWrite
  dsimp only
  split <;> rfl
@[simp] theorem State.noteWrite_axes (s t : State) (c : CtxId) (r : RegDef) (u off v : Nat) : (s.noteWrite t c r u off v).axes = t.axes := by
  unfold State.noteWrite
  dsimp only
  split <;> rfl
@[simp] theorem State.noteWrite_mot (s t : State) (c : CtxId) (r : RegDef) (u off v : Nat) : (s.noteWrite t c r u off v).mot = t.mot := by
  unfold State.noteWrite
  dsimp only
  split <;> rfl
@[simp] theorem State.noteWrite_aux (s t : State) (c : CtxId) (r : RegDef) (u off v : Nat) : (s.noteWrite t c r u off v).aux = t.aux := by
  unfold State.noteWrite
  dsimp only
  split <;> rfl
@[simp] theorem State.noteWrite_clk (s t : State) (c : CtxId) (r : RegDef) (u off v : Nat) : (s.noteWrite t c r u off v).clk = t.clk := by
  unfold State.noteWrite
  dsimp only
  split <;> rfl
@[simp] theorem State.noteWrite_mstepNext (s t : State) (c : CtxId) (r : RegDef) (u off v : Nat) : (s.noteWrite t c r u off v).mstepNext = t.mstepNext := by
  unfold State.noteWrite
  dsimp only
  split <;> rfl
@[simp] theorem State.noteWrite_mstepNow (s t : State) (c : CtxId) (r : RegDef) (u off v : Nat) : (s.noteWrite t c r u off v).mstepNow = t.mstepNow := by
  unfold State.noteWrite
  dsimp only
  split <;> rfl

/-- A write to a register that the context may write, of a register that is not half of a pair. -/
theorem State.busWrite_word {s : State} {c : CtxId} {off v : Nat} {r : RegDef} {u : Nat} (h : s.Serves c off true)
    (hz : off % 4 = 0) (hlt : off < 0x200000) (hr : s.reach c off = some (r, u)) (hl : lockedSc r u = false) (hp : r.pair = 0)
    (ht : s.takes c r u off (v % 2 ^ 32) = true) :
    s.busWrite c off 4 v =
      if r.sel = .ctx ∧ 0x10000 ≤ off then s.act c r u off (s.adjust r u off (v % 2 ^ 32))
      else s.noteWrite (s.act c r u off (s.adjust r u off (v % 2 ^ 32))) c r u off (s.adjust r u off (v % 2 ^ 32)) := by
  have hd : regDef off = some r := by
    unfold State.reach at hr
    cases hq : regDef off with
    | none => rw [hq] at hr; cases hr
    | some r' =>
      rw [hq] at hr
      simp only [Option.map_eq_some_iff, Prod.mk.injEq] at hr
      obtain ⟨a, _, h1, _⟩ := hr
      rw [h1]
  have hz' : sizeOk off 4 = true := by simp [sizeOk, hz]
  have h3 : ¬ 0x200000 ≤ off := by omega
  unfold State.busWrite
  rw [if_neg h.1, hz', h.2, if_neg (by simp), if_neg (by simp), if_neg h3]
  unfold State.regWrite
  rw [hr]
  simp only [hl, hp, State.halfWrite, hd, State.wordWrite, ht]
  simp

end Sys2Proof.Machine
end

