-- ==== Sys2Proof/Laws/Exec.lean ====
section
/-! SUPPORT. What `exec` does, command by command: the arm of a command is its meaning. -/

namespace Sys2Proof.Machine

theorem exec_regWrite (c : CtxId) (off : BitVec 23) (size : Nat) (v : DWord) (s : State) : exec (.regWrite c off size v) s = execRegWrite c off size v s := rfl
theorem exec_selPortWrite (c : CtxId) (v : Word) (s : State) : exec (.selPortWrite c v) s = execSelPortWrite c v s := rfl
theorem exec_selAxisWrite (c : CtxId) (v : Word) (s : State) : exec (.selAxisWrite c v) s = execSelAxisWrite c v s := rfl
theorem exec_selChanWrite (c : CtxId) (v : Word) (s : State) : exec (.selChanWrite c v) s = execSelChanWrite c v s := rfl
theorem exec_selEngineWrite (c : CtxId) (v : Word) (s : State) : exec (.selEngineWrite c v) s = execSelEngineWrite c v s := rfl
theorem exec_selTableWrite (c : CtxId) (v : Word) (s : State) : exec (.selTableWrite c v) s = execSelTableWrite c v s := rfl
theorem exec_pairLoRead (c : CtxId) (off : BitVec 23) (rd : PairRead) (s : State) : exec (.pairLoRead c off rd) s = execPairLoRead c off rd s := rfl
theorem exec_pairHiRead (c : CtxId) (off : BitVec 23) (s : State) : exec (.pairHiRead c off) s = execPairHiRead c off s := rfl
theorem exec_pairLoWrite (c : CtxId) (off : BitVec 23) (v : Word) (s : State) : exec (.pairLoWrite c off v) s = execPairLoWrite c off v s := rfl
theorem exec_pairHiWrite (c : CtxId) (off : BitVec 23) (v : Word) (s : State) : exec (.pairHiWrite c off v) s = execPairHiWrite c off v s := rfl
theorem exec_hifCtxCtlEnable (c : CtxId) (v : Word) (s : State) : exec (.hifCtxCtlEnable c v) s = execHifCtxCtlEnable c v s := rfl
theorem exec_hifCtxCtlReset (c : CtxId) (v : Word) (s : State) : exec (.hifCtxCtlReset c v) s = execHifCtxCtlReset c v s := rfl
theorem exec_hifAsqTailWrite (c : CtxId) (v : Word) (s : State) : exec (.hifAsqTailWrite c v) s = execHifAsqTailWrite c v s := rfl
theorem exec_hifAcqHeadWrite (c : CtxId) (v : Word) (s : State) : exec (.hifAcqHeadWrite c v) s = execHifAcqHeadWrite c v s := rfl
theorem exec_hifDeniedRead (c : CtxId) (s : State) : exec (.hifDeniedRead c) s = execHifDeniedRead c s := rfl
theorem exec_hello (c : CtxId) (y : Submission) (s : State) : exec (.hello c y) s = execHello c y s := rfl
theorem exec_identify (c : CtxId) (y : Submission) (s : State) : exec (.identify c y) s = execIdentify c y s := rfl
theorem exec_setRights (c : CtxId) (y : Submission) (s : State) : exec (.setRights c y) s = execSetRights c y s := rfl
theorem exec_getRights (c : CtxId) (y : Submission) (s : State) : exec (.getRights c y) s = execGetRights c y s := rfl
theorem exec_setupLoad (c : CtxId) (y : Submission) (data : List Byte) (s : State) : exec (.setupLoad c y data) s = execSetupLoad c y data s := rfl
theorem exec_setupVerify (c : CtxId) (y : Submission) (s : State) : exec (.setupVerify c y) s = execSetupVerify c y s := rfl
theorem exec_setupClear (c : CtxId) (y : Submission) (s : State) : exec (.setupClear c y) s = execSetupClear c y s := rfl
theorem exec_commit (c : CtxId) (y : Submission) (s : State) : exec (.commit c y) s = execCommit c y s := rfl
theorem exec_unitStart (c : CtxId) (y : Submission) (s : State) : exec (.unitStart c y) s = execUnitStart c y s := rfl
theorem exec_unitStop (c : CtxId) (y : Submission) (s : State) : exec (.unitStop c y) s = execUnitStop c y s := rfl
theorem exec_cutGroup (c : CtxId) (y : Submission) (s : State) : exec (.cutGroup c y) s = execCutGroup c y s := rfl
theorem exec_cutArm (c : CtxId) (y : Submission) (s : State) : exec (.cutArm c y) s = execCutArm c y s := rfl
theorem exec_cutDisarm (c : CtxId) (y : Submission) (s : State) : exec (.cutDisarm c y) s = execCutDisarm c y s := rfl
theorem exec_chanOpen (cx : CtxId) (y : Submission) (s : State) : exec (.chanOpen cx y) s = execChanOpen cx y s := rfl
theorem exec_chanClose (cx : CtxId) (y : Submission) (s : State) : exec (.chanClose cx y) s = execChanClose cx y s := rfl
theorem exec_calStart (c : CtxId) (y : Submission) (s : State) : exec (.calStart c y) s = execCalStart c y s := rfl
theorem exec_calCompute (c : CtxId) (y : Submission) (s : State) : exec (.calCompute c y) s = execCalCompute c y s := rfl
theorem exec_gapAnnounce (c : CtxId) (y : Submission) (s : State) : exec (.gapAnnounce c y) s = execGapAnnounce c y s := rfl
theorem exec_cueSet (c : CtxId) (y : Submission) (s : State) : exec (.cueSet c y) s = execCueSet c y s := rfl
theorem exec_cuePin (c : CtxId) (y : Submission) (s : State) : exec (.cuePin c y) s = execCuePin c y s := rfl
theorem exec_cueClear (c : CtxId) (y : Submission) (s : State) : exec (.cueClear c y) s = execCueClear c y s := rfl
theorem exec_rewindRead (c : CtxId) (y : Submission) (s : State) : exec (.rewindRead c y) s = execRewindRead c y s := rfl
theorem exec_rewindStop (c : CtxId) (y : Submission) (s : State) : exec (.rewindStop c y) s = execRewindStop c y s := rfl
theorem exec_journalRead (c : CtxId) (y : Submission) (norOk : Bool) (s : State) : exec (.journalRead c y norOk) s = execJournalRead c y norOk s := rfl
theorem exec_fwStage (c : CtxId) (y : Submission) (data image : List Byte) (crypto : Bool) (s : State) : exec (.fwStage c y data image crypto) s = execFwStage c y data image crypto s := rfl
theorem exec_fwActivate (c : CtxId) (y : Submission) (s : State) : exec (.fwActivate c y) s = execFwActivate c y s := rfl
theorem exec_fwStaged (norOk : Bool) (s : State) : exec (.fwStaged norOk) s = execFwStaged norOk s := rfl
theorem exec_fullReset (c : CtxId) (v : Word) (s : State) : exec (.fullReset c v) s = execFullReset c v s := rfl
theorem exec_resetDone (failed : List UnitId) (banks : BankTest) (s : State) : exec (.resetDone failed banks) s = execResetDone failed banks s := rfl
theorem exec_d3hotEntry (s : State) : exec .d3hotEntry s = execD3hotEntry s := rfl
theorem exec_d0Return (s : State) : exec .d0Return s = execD0Return s := rfl
theorem exec_linkRetrain (width rate : Nat) (mode : LinkMode) (s : State) : exec (.linkRetrain width rate mode) s = execLinkRetrain width rate mode s := rfl
theorem exec_l0pRequest (width : Nat) (s : State) : exec (.l0pRequest width) s = execL0pRequest width s := rfl
theorem exec_perstAssert (s : State) : exec .perstAssert s = execPerstAssert s := rfl
theorem exec_perstRelease (href : Bool) (s : State) : exec (.perstRelease href) s = execPerstRelease href s := rfl
theorem exec_ptmExchange (ok : Bool) (offset : Int) (s : State) : exec (.ptmExchange ok offset) s = execPtmExchange ok offset s := rfl
theorem exec_linePositionReached (p : PortId) (t : Nat) (s : State) : exec (.linePositionReached p t) s = execLinePositionReached p t s := rfl
theorem exec_tick (c : CtxId) (v : Word) (s : State) : exec (.tick c v) s = execTick c v s := rfl
theorem exec_heldTickRelease (p : PortId) (t : Nat) (s : State) : exec (.heldTickRelease p t) s = execHeldTickRelease p t s := rfl
theorem exec_drainTick (p : PortId) (t : Nat) (s : State) : exec (.drainTick p t) s = execDrainTick p t s := rfl
theorem exec_pipeTick (p : PortId) (s : State) : exec (.pipeTick p) s = execPipeTick p s := rfl
theorem exec_motionTick (t : Nat) (s : State) : exec (.motionTick t) s = execMotionTick t s := rfl
theorem exec_holdCurrentTimer (a : AxisId) (t : Nat) (s : State) : exec (.holdCurrentTimer a t) s = execHoldCurrentTimer a t s := rfl
theorem exec_nop (e : EngId) (f : ZscFields) (s : State) : exec (.nop e f) s = execNop e f s := rfl
theorem exec_mov (e : EngId) (f : ZscFields) (s : State) : exec (.mov e f) s = execMov e f s := rfl
theorem exec_add (e : EngId) (f : ZscFields) (s : State) : exec (.add e f) s = execAdd e f s := rfl
theorem exec_adc (e : EngId) (f : ZscFields) (s : State) : exec (.adc e f) s = execAdc e f s := rfl
theorem exec_sub (e : EngId) (f : ZscFields) (s : State) : exec (.sub e f) s = execSub e f s := rfl
theorem exec_sbc (e : EngId) (f : ZscFields) (s : State) : exec (.sbc e f) s = execSbc e f s := rfl
theorem exec_and (e : EngId) (f : ZscFields) (s : State) : exec (.and e f) s = execAnd e f s := rfl
theorem exec_or (e : EngId) (f : ZscFields) (s : State) : exec (.or e f) s = execOr e f s := rfl
theorem exec_xor (e : EngId) (f : ZscFields) (s : State) : exec (.xor e f) s = execXor e f s := rfl
theorem exec_shl (e : EngId) (f : ZscFields) (s : State) : exec (.shl e f) s = execShl e f s := rfl
theorem exec_shr (e : EngId) (f : ZscFields) (s : State) : exec (.shr e f) s = execShr e f s := rfl
theorem exec_sar (e : EngId) (f : ZscFields) (s : State) : exec (.sar e f) s = execSar e f s := rfl
theorem exec_mul (e : EngId) (f : ZscFields) (s : State) : exec (.mul e f) s = execMul e f s := rfl
theorem exec_mulh (e : EngId) (f : ZscFields) (s : State) : exec (.mulh e f) s = execMulh e f s := rfl
theorem exec_min (e : EngId) (f : ZscFields) (s : State) : exec (.min e f) s = execMin e f s := rfl
theorem exec_max (e : EngId) (f : ZscFields) (s : State) : exec (.max e f) s = execMax e f s := rfl
theorem exec_sats (e : EngId) (f : ZscFields) (s : State) : exec (.sats e f) s = execSats e f s := rfl
theorem exec_satu (e : EngId) (f : ZscFields) (s : State) : exec (.satu e f) s = execSatu e f s := rfl
theorem exec_cmp (e : EngId) (f : ZscFields) (s : State) : exec (.cmp e f) s = execCmp e f s := rfl
theorem exec_tst (e : EngId) (f : ZscFields) (s : State) : exec (.tst e f) s = execTst e f s := rfl
theorem exec_clz (e : EngId) (f : ZscFields) (s : State) : exec (.clz e f) s = execClz e f s := rfl
theorem exec_ld (e : EngId) (f : ZscFields) (s : State) : exec (.ld e f) s = execLd e f s := rfl
theorem exec_st (e : EngId) (f : ZscFields) (s : State) : exec (.st e f) s = execSt e f s := rfl
theorem exec_jmp (e : EngId) (f : ZscFields) (s : State) : exec (.jmp e f) s = execJmp e f s := rfl
theorem exec_jmpr (e : EngId) (f : ZscFields) (s : State) : exec (.jmpr e f) s = execJmpr e f s := rfl
theorem exec_call (e : EngId) (f : ZscFields) (s : State) : exec (.call e f) s = execCall e f s := rfl
theorem exec_callr (e : EngId) (f : ZscFields) (s : State) : exec (.callr e f) s = execCallr e f s := rfl
theorem exec_ret (e : EngId) (f : ZscFields) (s : State) : exec (.ret e f) s = execRet e f s := rfl
theorem exec_lset (e : EngId) (f : ZscFields) (s : State) : exec (.lset e f) s = execLset e f s := rfl
theorem exec_lend (e : EngId) (f : ZscFields) (s : State) : exec (.lend e f) s = execLend e f s := rfl
theorem exec_tend (e : EngId) (f : ZscFields) (s : State) : exec (.tend e f) s = execTend e f s := rfl
theorem exec_raise (e : EngId) (f : ZscFields) (s : State) : exec (.raise e f) s = execRaise e f s := rfl
theorem exec_rds (e : EngId) (f : ZscFields) (s : State) : exec (.rds e f) s = execRds e f s := rfl
theorem exec_halt (e : EngId) (f : ZscFields) (s : State) : exec (.halt e f) s = execHalt e f s := rfl
theorem exec_trapOpcode (e : EngId) (k : Fin 32) (f : ZscFields) (s : State) : exec (.trapOpcode e k f) s = execTrapOpcode e k f s := rfl
theorem exec_edge (p : PortId) (f : ZscFields) (s : State) : exec (.edge p f) s = execEdge p f s := rfl
theorem exec_burst (p : PortId) (f : ZscFields) (s : State) : exec (.burst p f) s = execBurst p f s := rfl
theorem exec_sample (p : PortId) (f : ZscFields) (s : State) : exec (.sample p f) s = execSample p f s := rfl
theorem exec_clamp (p : PortId) (f : ZscFields) (s : State) : exec (.clamp p f) s = execClamp p f s := rfl
theorem exec_strobe (p : PortId) (f : ZscFields) (s : State) : exec (.strobe p f) s = execStrobe p f s := rfl
theorem exec_gate (p : PortId) (f : ZscFields) (s : State) : exec (.gate p f) s = execGate p f s := rfl
theorem exec_qfree (p : PortId) (f : ZscFields) (s : State) : exec (.qfree p f) s = execQfree p f s := rfl
theorem exec_edgeEntryStart (p : PortId) (s : State) : exec (.edgeEntryStart p) s = execEdgeEntryStart p s := rfl
theorem exec_strobeEnd (p : PortId) (q : Fin 2) (s : State) : exec (.strobeEnd p q) s = execStrobeEnd p q s := rfl
theorem exec_tapSample (p : PortId) (t : Fin 16) (v : TapIn) (s : State) : exec (.tapSample p t v) s = execTapSample p t v s := rfl
theorem exec_assemble (p : PortId) (f : ZscFields) (differ : Bool) (s : State) : exec (.assemble p f differ) s = execAssemble p f differ s := rfl
theorem exec_shade (p : PortId) (f : ZscFields) (differ : Bool) (corr : Nat) (fails : List (Nat × Bool)) (s : State) : exec (.shade p f differ corr fails) s = execShade p f differ corr fails s := rfl
theorem exec_drift (p : PortId) (f : ZscFields) (differ : Bool) (s : State) : exec (.drift p f differ) s = execDrift p f differ s := rfl
theorem exec_defect (p : PortId) (f : ZscFields) (differ : Bool) (corr : Nat) (fails : List (Nat × Bool)) (s : State) : exec (.defect p f differ corr fails) s = execDefect p f differ corr fails s := rfl
theorem exec_bin (p : PortId) (f : ZscFields) (differ : Bool) (s : State) : exec (.bin p f differ) s = execBin p f differ s := rfl
theorem exec_lut (p : PortId) (f : ZscFields) (differ : Bool) (s : State) : exec (.lut p f differ) s = execLut p f differ s := rfl
theorem exec_plane (p : PortId) (f : ZscFields) (differ : Bool) (s : State) : exec (.plane p f differ) s = execPlane p f differ s := rfl
theorem exec_gather (p : PortId) (f : ZscFields) (differ : Bool) (s : State) : exec (.gather p f differ) s = execGather p f differ s := rfl
theorem exec_pack (p : PortId) (f : ZscFields) (differ : Bool) (drained : Nat) (s : State) : exec (.pack p f differ drained) s = execPack p f differ drained s := rfl
theorem exec_code (p : PortId) (f : ZscFields) (differ : Bool) (drained : Nat) (wrote : List (Bool × Nat × List Byte)) (s : State) : exec (.code p f differ drained wrote) s = execCode p f differ drained wrote s := rfl
theorem exec_slate (p : PortId) (f : ZscFields) (s : State) : exec (.slate p f) s = execSlate p f s := rfl
theorem exec_emit (p : PortId) (f : ZscFields) (s : State) : exec (.emit p f) s = execEmit p f s := rfl
theorem exec_prd (p : PortId) (f : ZscFields) (s : State) : exec (.prd p f) s = execPrd p f s := rfl
theorem exec_stagingDrain (p : PortId) (d : Drained) (s : State) : exec (.stagingDrain p d) s = execStagingDrain p d s := rfl
theorem exec_cmpCtlInject (c : CtxId) (v : Word) (s : State) : exec (.cmpCtlInject c v) s = execCmpCtlInject c v s := rfl
theorem exec_pset (a : AxisId) (f : ZscFields) (s : State) : exec (.pset a f) s = execPset a f s := rfl
theorem exec_move (a : AxisId) (f : ZscFields) (s : State) : exec (.move a f) s = execMove a f s := rfl
theorem exec_jog (a : AxisId) (f : ZscFields) (s : State) : exec (.jog a f) s = execJog a f s := rfl
theorem exec_stop (a : AxisId) (f : ZscFields) (s : State) : exec (.stop a f) s = execStop a f s := rfl
theorem exec_astat (a : AxisId) (f : ZscFields) (s : State) : exec (.astat a f) s = execAstat a f s := rfl
theorem exec_home (a : AxisId) (f : ZscFields) (s : State) : exec (.home a f) s = execHome a f s := rfl
theorem exec_gear (a : AxisId) (f : ZscFields) (s : State) : exec (.gear a f) s = execGear a f s := rfl
theorem exec_latch (a : AxisId) (f : ZscFields) (s : State) : exec (.latch a f) s = execLatch a f s := rfl
theorem exec_drive (a : AxisId) (f : ZscFields) (s : State) : exec (.drive a f) s = execDrive a f s := rfl
theorem exec_setpos (a : AxisId) (f : ZscFields) (s : State) : exec (.setpos a f) s = execSetpos a f s := rfl
theorem exec_mswap (a : AxisId) (f : ZscFields) (s : State) : exec (.mswap a f) s = execMswap a f s := rfl
theorem exec_xfer (c : ScriptId) (f : ZscFields) (s : State) : exec (.xfer c f) s = execXfer c f s := rfl
theorem exec_xferx (c : ScriptId) (f : ZscFields) (s : State) : exec (.xferx c f) s = execXferx c f s := rfl
theorem exec_shuf (c : ScriptId) (f : ZscFields) (s : State) : exec (.shuf c f) s = execShuf c f s := rfl
theorem exec_loop (c : ScriptId) (f : ZscFields) (s : State) : exec (.loop c f) s = execLoop c f s := rfl
theorem exec_wait (c : ScriptId) (f : ZscFields) (s : State) : exec (.wait c f) s = execWait c f s := rfl
theorem exec_sig (c : ScriptId) (f : ZscFields) (s : State) : exec (.sig c f) s = execSig c f s := rfl
theorem exec_waitResume (c : ScriptId) (s : State) : exec (.waitResume c) s = execWaitResume c s := rfl
theorem exec_waitTimeout (c : ScriptId) (t : Nat) (s : State) : exec (.waitTimeout c t) s = execWaitTimeout c t s := rfl
theorem exec_scriptFetch (c : ScriptId) (ok : Bool) (w : DWord) (s : State) : exec (.scriptFetch c ok w) s = execScriptFetch c ok w s := rfl
theorem exec_dmaScCtlStart (c : CtxId) (v : Word) (s : State) : exec (.dmaScCtlStart c v) s = execDmaScCtlStart c v s := rfl
theorem exec_dmaScCtlAbort (c : CtxId) (v : Word) (s : State) : exec (.dmaScCtlAbort c v) s = execDmaScCtlAbort c v s := rfl
theorem exec_engWindowWrite (c : CtxId) (off : BitVec 21) (size : Nat) (v : DWord) (s : State) : exec (.engWindowWrite c off size v) s = execEngWindowWrite c off size v s := rfl
theorem exec_tblWindowWrite (c : CtxId) (off : BitVec 22) (size : Nat) (v : DWord) (s : State) : exec (.tblWindowWrite c off size v) s = execTblWindowWrite c off size v s := rfl
theorem exec_headPoll (p : PortId) (ack : Bool) (s : State) : exec (.headPoll p ack) s = execHeadPoll p ack s := rfl
theorem exec_headInsertDelay (p : PortId) (s : State) : exec (.headInsertDelay p) s = execHeadInsertDelay p s := rfl
theorem exec_reread (c : CtxId) (v : Word) (s : State) : exec (.reread c v) s = execReread c v s := rfl
theorem exec_descriptorReadDone (p : PortId) (acked : Bool) (bytes : List Byte) (s : State) : exec (.descriptorReadDone p acked bytes) s = execDescriptorReadDone p acked bytes s := rfl
theorem exec_bankPowerChange (b : Fin 24) (up : Bool) (s : State) : exec (.bankPowerChange b up) s = execBankPowerChange b up s := rfl
theorem exec_inputOvervolt (p : PortId) (t : Fin 16) (s : State) : exec (.inputOvervolt p t) s = execInputOvervolt p t s := rfl
theorem exec_prtOvClear (c : CtxId) (v : Word) (s : State) : exec (.prtOvClear c v) s = execPrtOvClear c v s := rfl
theorem exec_rotationDue (p : PortId) (t : Fin 16) (s : State) : exec (.rotationDue p t) s = execRotationDue p t s := rfl
theorem exec_calNow (c : CtxId) (v : Word) (s : State) : exec (.calNow c v) s = execCalNow c v s := rfl
theorem exec_sliceCalDone (p : PortId) (t : Fin 16) (sLo sHi spread : Nat) (ms : List Nat) (s : State) : exec (.sliceCalDone p t sLo sHi spread ms) s = execSliceCalDone p t sLo sHi spread ms s := rfl
theorem exec_watchBlockEnd (p : PortId) (t : Fin 16) (s : State) : exec (.watchBlockEnd p t) s = execWatchBlockEnd p t s := rfl
theorem exec_bgBlockEnd (p : PortId) (t : Fin 16) (s : State) : exec (.bgBlockEnd p t) s = execBgBlockEnd p t s := rfl
theorem exec_faultClassified (k : Nat) (failed other : Bool) (s : State) : exec (.faultClassified k failed other) s = execFaultClassified k failed other s := rfl
theorem exec_verifyS (c : CtxId) (v : Word) (s : State) : exec (.verifyS c v) s = execVerifyS c v s := rfl
theorem exec_verifyD (c : CtxId) (v : Word) (s : State) : exec (.verifyD c v) s = execVerifyD c v s := rfl
theorem exec_unflipS (c : CtxId) (v : Word) (s : State) : exec (.unflipS c v) s = execUnflipS c v s := rfl
theorem exec_unflipD (c : CtxId) (v : Word) (s : State) : exec (.unflipD c v) s = execUnflipD c v s := rfl
theorem exec_mirrorVerifyDone (p : PortId) (d : Bool) (ecc : EccRead) (s : State) : exec (.mirrorVerifyDone p d ecc) s = execMirrorVerifyDone p d ecc s := rfl
theorem exec_calDone (p : PortId) (s : State) : exec (.calDone p) s = execCalDone p s := rfl
theorem exec_recordEmission (p : PortId) (dest : Fin 4) (exceeds : Bool) (s : State) : exec (.recordEmission p dest exceeds) s = execRecordEmission p dest exceeds s := rfl
theorem exec_holdExpiry (c : ChanId) (t : Nat) (s : State) : exec (.holdExpiry c t) s = execHoldExpiry c t s := rfl
theorem exec_barrierDone (c : ChanId) (s : State) : exec (.barrierDone c) s = execBarrierDone c s := rfl
theorem exec_eocTimeout (c : ChanId) (t : Nat) (s : State) : exec (.eocTimeout c t) s = execEocTimeout c t s := rfl
theorem exec_descriptorFetch (c : ChanId) (ok : Bool) (bytes : List Byte) (s : State) : exec (.descriptorFetch c ok bytes) s = execDescriptorFetch c ok bytes s := rfl
theorem exec_dmaDcTailWrite (c : CtxId) (v : Word) (s : State) : exec (.dmaDcTailWrite c v) s = execDmaDcTailWrite c v s := rfl
theorem exec_chanClosed (c : ChanId) (s : State) : exec (.chanClosed c) s = execChanClosed c s := rfl
theorem exec_driveLinkUp (d : DriveId) (rate width : Nat) (s : State) : exec (.driveLinkUp d rate width) s = execDriveLinkUp d rate width s := rfl
theorem exec_driveReady (d : DriveId) (ns : Option Nat) (lba : Nat) (plain : Bool) (mdts qmax : Nat) (hdr : Option StoreHdr) (s : State) : exec (.driveReady d ns lba plain mdts qmax hdr) s = execDriveReady d ns lba plain mdts qmax hdr s := rfl
theorem exec_driveLinkDown (d : DriveId) (fatal : Bool) (s : State) : exec (.driveLinkDown d fatal) s = execDriveLinkDown d fatal s := rfl
theorem exec_nvmeTimeout (d : DriveId) (k : Option Nat) (s : State) : exec (.nvmeTimeout d k) s = execNvmeTimeout d k s := rfl
theorem exec_chunkWriteDone (d : DriveId) (k : Nat) (ok : Bool) (s : State) : exec (.chunkWriteDone d k ok) s = execChunkWriteDone d k ok s := rfl
theorem exec_nvmeReadDone (d : DriveId) (k : Nat) (ok hdrOk : Bool) (bad : List Nat) (s : State) : exec (.nvmeReadDone d k ok hdrOk bad) s = execNvmeReadDone d k ok hdrOk bad s := rfl
theorem exec_readbackDelivery (p : PortId) (s : State) : exec (.readbackDelivery p) s = execReadbackDelivery p s := rfl
theorem exec_checkpoint (s : State) : exec .checkpoint s = execCheckpoint s := rfl
theorem exec_segmentCloseTimer (p : PortId) (t : Nat) (s : State) : exec (.segmentCloseTimer p t) s = execSegmentCloseTimer p t s := rfl
theorem exec_smartPoll (d : DriveId) (warn : Byte) (used temp : Nat) (s : State) : exec (.smartPoll d warn used temp) s = execSmartPoll d warn used temp s := rfl
theorem exec_storeRecovery (segs : List (Nat × Seg)) (ckpt : CkptRead) (found : List (Nat × Nat × Seg)) (s : State) : exec (.storeRecovery segs ckpt found) s = execStoreRecovery segs ckpt found s := rfl
theorem exec_format (c : CtxId) (v : Word) (s : State) : exec (.format c v) s = execFormat c v s := rfl
theorem exec_join (c : CtxId) (d : DriveId) (v : Word) (s : State) : exec (.join c d v) s = execJoin c d v s := rfl
theorem exec_masterEdge (m : Fin 2) (edge : EdgeAt) (a b z : Bool) (s : State) : exec (.masterEdge m edge a b z) s = execMasterEdge m edge a b z s := rfl
theorem exec_prtGearArmctlWrite (c : CtxId) (v : Word) (s : State) : exec (.prtGearArmctlWrite c v) s = execPrtGearArmctlWrite c v s := rfl
theorem exec_gearLatchArm (c : CtxId) (v : Word) (s : State) : exec (.gearLatchArm c v) s = execGearLatchArm c v s := rfl
theorem exec_gearLatch (p : PortId) (s : State) : exec (.gearLatch p) s = execGearLatch p s := rfl
theorem exec_groupRun (c : CtxId) (g : GroupId) (v : Word) (s : State) : exec (.groupRun c g v) s = execGroupRun c g v s := rfl
theorem exec_groupHold (c : CtxId) (g : GroupId) (v : Word) (s : State) : exec (.groupHold c g v) s = execGroupHold c g v s := rfl
theorem exec_encoderEdge (a : AxisId) (edge : EdgeAt) (ea eb ez : Bool) (s : State) : exec (.encoderEdge a edge ea eb ez) s = execEncoderEdge a edge ea eb ez s := rfl
theorem exec_switchEdge (a : AxisId) (j : Fin 4) (t : Nat) (level : Bool) (s : State) : exec (.switchEdge a j t level) s = execSwitchEdge a j t level s := rfl
theorem exec_stopIn (low : Bool) (t : Nat) (s : State) : exec (.stopIn low t) s = execStopIn low t s := rfl
theorem exec_chopperSwitch (a : AxisId) (w : Fin 2) (t : Nat) (code : BitVec 12) (s : State) : exec (.chopperSwitch a w t code) s = execChopperSwitch a w t code s := rfl
theorem exec_chopperAdapt (a : AxisId) (w : Fin 2) (t : Nat) (samples : List (Nat × BitVec 12)) (s : State) : exec (.chopperAdapt a w t samples) s = execChopperAdapt a w t samples s := rfl
theorem exec_overcurrent (a : AxisId) (w : Fin 2) (code0 code1 : BitVec 12) (s : State) : exec (.overcurrent a w code0 code1) s = execOvercurrent a w code0 code1 s := rfl
theorem exec_mstepSwap (c : CtxId) (v : Word) (s : State) : exec (.mstepSwap c v) s = execMstepSwap c v s := rfl
theorem exec_tableSwapped (a : AxisAt) (s : State) : exec (.tableSwapped a) s = execTableSwapped a s := rfl
theorem exec_auxStep (t : Nat) (va vb : Int) (s : State) : exec (.auxStep t va vb) s = execAuxStep t va vb s := rfl
theorem exec_auxScanStart (c : CtxId) (v : Word) (s : State) : exec (.auxScanStart c v) s = execAuxScanStart c v s := rfl
theorem exec_scanDue (t : Nat) (s : State) : exec (.scanDue t) s = execScanDue t s := rfl
theorem exec_excitationSwap (n : Fin 8) (t : Nat) (s : State) : exec (.excitationSwap n t) s = execExcitationSwap n t s := rfl
theorem exec_excFault (n : Fin 8) (s : State) : exec (.excFault n) s = execExcFault n s := rfl
theorem exec_auxOvervolt (ch : Fin 32) (neg : Bool) (s : State) : exec (.auxOvervolt ch neg) s = execAuxOvervolt ch neg s := rfl
theorem exec_auxOvClear (c : CtxId) (v : Word) (s : State) : exec (.auxOvClear c v) s = execAuxOvClear c v s := rfl
theorem exec_auxInjReq (c : CtxId) (n : Fin 4) (v : Word) (s : State) : exec (.auxInjReq c n v) s = execAuxInjReq c n v s := rfl
theorem exec_auxCalGo (c : CtxId) (v : Word) (s : State) : exec (.auxCalGo c v) s = execAuxCalGo c v s := rfl
theorem exec_auxCalAbort (c : CtxId) (v : Word) (s : State) : exec (.auxCalAbort c v) s = execAuxCalAbort c v s := rfl
theorem exec_packetDelivery (d : Delivery) (s : State) : exec (.packetDelivery d) s = execPacketDelivery d s := rfl
theorem exec_evqPop (c : CtxId) (q : QueueId) (s : State) : exec (.evqPop c q) s = execEvqPop c q s := rfl
theorem exec_evqFlush (c : CtxId) (q : QueueId) (v : Word) (s : State) : exec (.evqFlush c q v) s = execEvqFlush c q v s := rfl
theorem exec_evqCtlWrite (c : CtxId) (q : QueueId) (v : Word) (s : State) : exec (.evqCtlWrite c q v) s = execEvqCtlWrite c q v s := rfl
theorem exec_evqRingCfgWrite (c : CtxId) (q : QueueId) (size : Bool) (v : DWord) (s : State) : exec (.evqRingCfgWrite c q size v) s = execEvqRingCfgWrite c q size v s := rfl
theorem exec_evqRingHeadWrite (c : CtxId) (q : QueueId) (v : Word) (s : State) : exec (.evqRingHeadWrite c q v) s = execEvqRingHeadWrite c q v s := rfl
theorem exec_evqLevelWrite (c : CtxId) (q : QueueId) (v : Word) (s : State) : exec (.evqLevelWrite c q v) s = execEvqLevelWrite c q v s := rfl
theorem exec_evtRouteWrite (c : CtxId) (src : Fin 1536) (v : Word) (s : State) : exec (.evtRouteWrite c src v) s = execEvtRouteWrite c src v s := rfl
theorem exec_queueIntegrity (q : QueueId) (t : Nat) (s : State) : exec (.queueIntegrity q t) s = execQueueIntegrity q t s := rfl
theorem exec_audit (diffs : List (Nat × Nat × Nat × Bool)) (s : State) : exec (.audit diffs) s = execAudit diffs s := rfl
theorem exec_lockstepMismatch (s : State) : exec .lockstepMismatch s = execLockstepMismatch s := rfl
theorem exec_mgtRestarted (s : State) : exec .mgtRestarted s = execMgtRestarted s := rfl
theorem exec_journalDrain (s : State) : exec .journalDrain s = execJournalDrain s := rfl
theorem exec_sensorRead (temps volts : List Nat) (s : State) : exec (.sensorRead temps volts) s = execSensorRead temps volts s := rfl
theorem exec_thermalTrip (k : Fin 12) (temp : Nat) (s : State) : exec (.thermalTrip k temp) s = execThermalTrip k temp s := rfl
theorem exec_pldmMessage (s : State) : exec .pldmMessage s = execPldmMessage s := rfl
theorem exec_cfgGet (s : State) : exec .cfgGet s = execCfgGet s := rfl
theorem exec_cfgSet (s : State) : exec .cfgSet s = execCfgSet s := rfl
theorem exec_debugToken (jtag : Bool) (token : List Byte) (crypto : Bool) (s : State) : exec (.debugToken jtag token crypto) s = execDebugToken jtag token crypto s := rfl
theorem exec_mctpMessage (src : MctpFrom) (msg : List Byte) (s : State) : exec (.mctpMessage src msg) s = execMctpMessage src msg s := rfl
theorem exec_pldmUpdate (image : PldmImage) (crypto : Bool) (s : State) : exec (.pldmUpdate image crypto) s = execPldmUpdate image crypto s := rfl
theorem exec_fwActivated (ok : Bool) (s : State) : exec (.fwActivated ok) s = execFwActivated ok s := rfl
theorem exec_refclkFailover (a b : RefMeas) (s : State) : exec (.refclkFailover a b) s = execRefclkFailover a b s := rfl
theorem exec_refclkValid (m : RefSample) (s : State) : exec (.refclkValid m) s = execRefclkValid m s := rfl
theorem exec_hrefclkLoss (s : State) : exec .hrefclkLoss s = execHrefclkLoss s := rfl
theorem exec_ppllUnlock (p : PortId) (s : State) : exec (.ppllUnlock p) s = execPpllUnlock p s := rfl
theorem exec_ppllRelock (p : PortId) (s : State) : exec (.ppllRelock p) s = execPpllRelock p s := rfl
theorem exec_clkPpllFreqWrite (c : CtxId) (p : PortId) (v : Word) (s : State) : exec (.clkPpllFreqWrite c p v) s = execClkPpllFreqWrite c p v s := rfl
theorem exec_freqMonitor (sys : Vector Nat 9) (ports : Vector Nat 16) (t : Nat) (s : State) : exec (.freqMonitor sys ports t) s = execFreqMonitor sys ports t s := rfl
theorem exec_powerOnReset (b : BootInfo) (s : State) : exec (.powerOnReset b) s = execPowerOnReset b s := rfl
theorem exec_supplyFault (s : State) : exec .supplyFault s = execSupplyFault s := rfl
theorem exec_prtGqueueRead (c : CtxId) (s : State) : exec (.prtGqueueRead c) s = execPrtGqueueRead c s := rfl
theorem exec_prtGrejectRead (c : CtxId) (s : State) : exec (.prtGrejectRead c) s = execPrtGrejectRead c s := rfl
theorem exec_prtLtgEarlyRead (c : CtxId) (s : State) : exec (.prtLtgEarlyRead c) s = execPrtLtgEarlyRead c s := rfl
theorem exec_pipEccRead (c : CtxId) (s : State) : exec (.pipEccRead c) s = execPipEccRead c s := rfl
theorem exec_pipEccAddrRead (c : CtxId) (s : State) : exec (.pipEccAddrRead c) s = execPipEccAddrRead c s := rfl
theorem exec_pipLaneStatRead (c : CtxId) (s : State) : exec (.pipLaneStatRead c) s = execPipLaneStatRead c s := rfl
theorem exec_cmpVerifyRead (c : CtxId) (s : State) : exec (.cmpVerifyRead c) s = execCmpVerifyRead c s := rfl
theorem exec_cmpBadRead (c : CtxId) (s : State) : exec (.cmpBadRead c) s = execCmpBadRead c s := rfl
theorem exec_cmpStallRead (c : CtxId) (s : State) : exec (.cmpStallRead c) s = execCmpStallRead c s := rfl
theorem exec_cmpShiftRead (c : CtxId) (k : Fin 16) (s : State) : exec (.cmpShiftRead c k) s = execCmpShiftRead c k s := rfl
theorem exec_dmaDcDropRead (c : CtxId) (s : State) : exec (.dmaDcDropRead c) s = execDmaDcDropRead c s := rfl
theorem exec_dmaDcErrRead (c : CtxId) (s : State) : exec (.dmaDcErrRead c) s = execDmaDcErrRead c s := rfl
theorem exec_dmaScFaultRead (c : CtxId) (s : State) : exec (.dmaScFaultRead c) s = execDmaScFaultRead c s := rfl
theorem exec_tksPortDropRead (c : CtxId) (p : PortId) (s : State) : exec (.tksPortDropRead c p) s = execTksPortDropRead c p s := rfl
theorem exec_motChatterRead (c : CtxId) (s : State) : exec (.motChatterRead c) s = execMotChatterRead c s := rfl
theorem exec_auxScanStatRead (c : CtxId) (s : State) : exec (.auxScanStatRead c) s = execAuxScanStatRead c s := rfl
theorem exec_auxExcStatRead (c : CtxId) (n : Fin 8) (s : State) : exec (.auxExcStatRead c n) s = execAuxExcStatRead c n s := rfl
theorem exec_auxInjReqRead (c : CtxId) (n : Fin 4) (s : State) : exec (.auxInjReqRead c n) s = execAuxInjReqRead c n s := rfl
theorem exec_evqLostRead (c : CtxId) (q : QueueId) (s : State) : exec (.evqLostRead c q) s = execEvqLostRead c q s := rfl
theorem exec_mgtFaultRead (c : CtxId) (s : State) : exec (.mgtFaultRead c) s = execMgtFaultRead c s := rfl
theorem exec_mgtFaultCntRead (c : CtxId) (s : State) : exec (.mgtFaultCntRead c) s = execMgtFaultCntRead c s := rfl
theorem exec_mgtJrnlStatRead (c : CtxId) (s : State) : exec (.mgtJrnlStatRead c) s = execMgtJrnlStatRead c s := rfl
theorem exec_mgtSensorRead (c : CtxId) (k : Fin 32) (s : State) : exec (.mgtSensorRead c k) s = execMgtSensorRead c k s := rfl
theorem exec_clampStopsConducting (p : PortId) (t : Fin 16) (s : State) : exec (.clampStopsConducting p t) s = execClampStopsConducting p t s := rfl
theorem exec_auxClampStopsConducting (ch : Fin 32) (neg : Bool) (s : State) : exec (.auxClampStopsConducting ch neg) s = execAuxClampStopsConducting ch neg s := rfl
theorem exec_excCurrentBelowLimit (n : Fin 8) (s : State) : exec (.excCurrentBelowLimit n) s = execExcCurrentBelowLimit n s := rfl
theorem exec_illegalOpcode (e : EngId) (w : Fetched) (s : State) : exec (.illegalOpcode e w) s = execIllegalOpcode e w s := rfl
theorem exec_scriptAccessDone (c : ScriptId) (ok : Bool) (kind n : Nat) (data : AccessData) (s : State) : exec (.scriptAccessDone c ok kind n data) s = execScriptAccessDone c ok kind n data s := rfl
theorem exec_checkpointWriteDone (d : DriveId) (ok : Bool) (s : State) : exec (.checkpointWriteDone d ok) s = execCheckpointWriteDone d ok s := rfl
theorem exec_msiXVectorUnmask (w : MsixWrite) (s : State) : exec (.msiXVectorUnmask w) s = execMsiXVectorUnmask w s := rfl
theorem exec_ideKmMessage (m : IdeKm) (s : State) : exec (.ideKmMessage m) s = execIdeKmMessage m s := rfl

end Sys2Proof.Machine
end

