-- ==== Sys2Proof/Laws/KeepsAxis.lean ====
section
/-! SUPPORT. Every operation of Machine/Axis.lean keeps what `Keeps` says. -/

set_option linter.unusedTactic false
set_option linter.unreachableTactic false

namespace Sys2Proof.Machine

variable {kc : Bool}

/-- `State.updAxis` keeps what `Keeps` says. -/
theorem State.updAxis_keeps {z0 : State} {s : State} (a : AxisId) (f : AxisSt → AxisSt) (k_s : Keeps kc z0 s) : Keeps kc z0 (State.updAxis s a f) := by
  unfold State.updAxis
  repeat' first
    | with_reducible assumption
    | with_reducible exact Keeps.refl _
    | with_reducible exact CuesKept.refl _
    | (with_reducible refine CuesKept.same ?_; rfl)
    | exact fun _ h => h
    | intro _
    | with_reducible refine Keeps.ite ?_ ?_
    | with_reducible refine Keeps.dite ?_ ?_
    | with_reducible refine Keeps.foldl ?_ _ _ ?_
    | with_reducible refine Keeps1.ite ?_ ?_
    | with_reducible refine Keeps1.mk ?_
    | (refine Eng.memOk_of ‹Eng.memOk _› ?_ ?_ ?_ <;> first | rfl | (simp; done) | (split_ifs <;> simp; done))
    | with_reducible apply Eng.restart_memOk
    | exact Eng.putScratch_memOk _ _ ‹Eng.memOk _›
    | exact Eng.putParam_memOk _ _ ‹Eng.memOk _›
    | dsimp only
    | fail_if_no_progress with_reducible refine Keeps.upd ?_
    | split

/-- `State.endHome` keeps what `Keeps` says. -/
theorem State.endHome_keeps {z0 : State} {s : State} (a : AxisId) (result : Nat) (k_s : Keeps kc z0 s) : Keeps kc z0 (State.endHome s a result) := by
  unfold State.endHome
  repeat' first
    | with_reducible assumption
    | with_reducible exact Keeps.refl _
    | with_reducible exact CuesKept.refl _
    | (with_reducible refine CuesKept.same ?_; rfl)
    | exact fun _ h => h
    | intro _
    | with_reducible refine Keeps.ite ?_ ?_
    | with_reducible refine Keeps.dite ?_ ?_
    | with_reducible refine Keeps.foldl ?_ _ _ ?_
    | with_reducible refine Keeps1.ite ?_ ?_
    | with_reducible refine Keeps1.mk ?_
    | with_reducible apply State.updAxis_keeps
    | with_reducible apply State.setRf_keeps
    | (refine Eng.memOk_of ‹Eng.memOk _› ?_ ?_ ?_ <;> first | rfl | (simp; done) | (split_ifs <;> simp; done))
    | with_reducible apply Eng.restart_memOk
    | exact Eng.putScratch_memOk _ _ ‹Eng.memOk _›
    | exact Eng.putParam_memOk _ _ ‹Eng.memOk _›
    | dsimp only
    | fail_if_no_progress with_reducible refine Keeps.upd ?_
    | split

/-- `State.axisStop` keeps what `Keeps` says. -/
theorem State.axisStop_keeps {z0 : State} {s : State} (a : AxisId) (sdec : Bool) (k_s : Keeps kc z0 s) : Keeps kc z0 (State.axisStop s a sdec) := by
  unfold State.axisStop
  repeat' first
    | with_reducible assumption
    | with_reducible exact Keeps.refl _
    | with_reducible exact CuesKept.refl _
    | (with_reducible refine CuesKept.same ?_; rfl)
    | exact fun _ h => h
    | intro _
    | with_reducible refine Keeps.ite ?_ ?_
    | with_reducible refine Keeps.dite ?_ ?_
    | with_reducible refine Keeps.foldl ?_ _ _ ?_
    | with_reducible refine Keeps1.ite ?_ ?_
    | with_reducible refine Keeps1.mk ?_
    | with_reducible apply State.endHome_keeps
    | with_reducible apply State.updAxis_keeps
    | (refine Eng.memOk_of ‹Eng.memOk _› ?_ ?_ ?_ <;> first | rfl | (simp; done) | (split_ifs <;> simp; done))
    | with_reducible apply Eng.restart_memOk
    | exact Eng.putScratch_memOk _ _ ‹Eng.memOk _›
    | exact Eng.putParam_memOk _ _ ‹Eng.memOk _›
    | dsimp only
    | fail_if_no_progress with_reducible refine Keeps.upd ?_
    | split

/-- `State.axisHold` keeps what `Keeps` says. -/
theorem State.axisHold_keeps {z0 : State} {s : State} (a : AxisId) (sdec : Bool) (k_s : Keeps kc z0 s) : Keeps kc z0 (State.axisHold s a sdec) := by
  unfold State.axisHold
  repeat' first
    | with_reducible assumption
    | with_reducible exact Keeps.refl _
    | with_reducible exact CuesKept.refl _
    | (with_reducible refine CuesKept.same ?_; rfl)
    | exact fun _ h => h
    | intro _
    | with_reducible refine Keeps.ite ?_ ?_
    | with_reducible refine Keeps.dite ?_ ?_
    | with_reducible refine Keeps.foldl ?_ _ _ ?_
    | with_reducible refine Keeps1.ite ?_ ?_
    | with_reducible refine Keeps1.mk ?_
    | with_reducible apply State.axisStop_keeps
    | with_reducible apply State.updAxis_keeps
    | (refine Eng.memOk_of ‹Eng.memOk _› ?_ ?_ ?_ <;> first | rfl | (simp; done) | (split_ifs <;> simp; done))
    | with_reducible apply Eng.restart_memOk
    | exact Eng.putScratch_memOk _ _ ‹Eng.memOk _›
    | exact Eng.putParam_memOk _ _ ‹Eng.memOk _›
    | dsimp only
    | fail_if_no_progress with_reducible refine Keeps.upd ?_
    | split

/-- `State.paceIdle` keeps what `Keeps` says. -/
theorem State.paceIdle_keeps {z0 : State} {s : State} (g : GroupId) (k_s : Keeps kc z0 s) : Keeps kc z0 (State.paceIdle s g) := by
  unfold State.paceIdle
  repeat' first
    | with_reducible assumption
    | with_reducible exact Keeps.refl _
    | with_reducible exact CuesKept.refl _
    | (with_reducible refine CuesKept.same ?_; rfl)
    | exact fun _ h => h
    | intro _
    | with_reducible refine Keeps.ite ?_ ?_
    | with_reducible refine Keeps.dite ?_ ?_
    | with_reducible refine Keeps.foldl ?_ _ _ ?_
    | with_reducible refine Keeps1.ite ?_ ?_
    | with_reducible refine Keeps1.mk ?_
    | with_reducible apply State.setRf_keeps
    | (refine Eng.memOk_of ‹Eng.memOk _› ?_ ?_ ?_ <;> first | rfl | (simp; done) | (split_ifs <;> simp; done))
    | with_reducible apply Eng.restart_memOk
    | exact Eng.putScratch_memOk _ _ ‹Eng.memOk _›
    | exact Eng.putParam_memOk _ _ ‹Eng.memOk _›
    | dsimp only
    | fail_if_no_progress with_reducible refine Keeps.upd ?_
    | split

/-- `State.paceLeave` keeps what `Keeps` says. -/
theorem State.paceLeave_keeps {z0 : State} {s : State} (a : AxisId) (k_s : Keeps kc z0 s) : Keeps kc z0 (State.paceLeave s a) := by
  unfold State.paceLeave
  repeat' first
    | with_reducible assumption
    | with_reducible exact Keeps.refl _
    | with_reducible exact CuesKept.refl _
    | (with_reducible refine CuesKept.same ?_; rfl)
    | exact fun _ h => h
    | intro _
    | with_reducible refine Keeps.ite ?_ ?_
    | with_reducible refine Keeps.dite ?_ ?_
    | with_reducible refine Keeps.foldl ?_ _ _ ?_
    | with_reducible refine Keeps1.ite ?_ ?_
    | with_reducible refine Keeps1.mk ?_
    | with_reducible apply State.paceIdle_keeps
    | (refine Eng.memOk_of ‹Eng.memOk _› ?_ ?_ ?_ <;> first | rfl | (simp; done) | (split_ifs <;> simp; done))
    | with_reducible apply Eng.restart_memOk
    | exact Eng.putScratch_memOk _ _ ‹Eng.memOk _›
    | exact Eng.putParam_memOk _ _ ‹Eng.memOk _›
    | dsimp only
    | fail_if_no_progress with_reducible refine Keeps.upd ?_
    | split

/-- `State.drainUnit` keeps what `Keeps` says. -/
theorem State.drainUnit_keeps {z0 : State} {s : State} (u : UnitId) (k_s : Keeps kc z0 s) : Keeps kc z0 (State.drainUnit s u) := by
  unfold State.drainUnit
  repeat' first
    | with_reducible assumption
    | with_reducible exact Keeps.refl _
    | with_reducible exact CuesKept.refl _
    | (with_reducible refine CuesKept.same ?_; rfl)
    | exact fun _ h => h
    | intro _
    | with_reducible refine Keeps.ite ?_ ?_
    | with_reducible refine Keeps.dite ?_ ?_
    | with_reducible refine Keeps.foldl ?_ _ _ ?_
    | with_reducible refine Keeps1.ite ?_ ?_
    | with_reducible refine Keeps1.mk ?_
    | with_reducible apply State.setPortState_keeps
    | with_reducible apply State.clearGearArm_keeps
    | with_reducible apply State.haltPort_keeps
    | with_reducible apply State.setUState_keeps
    | with_reducible apply State.axisHold_keeps
    | with_reducible apply State.paceLeave_keeps
    | (refine Eng.memOk_of ‹Eng.memOk _› ?_ ?_ ?_ <;> first | rfl | (simp; done) | (split_ifs <;> simp; done))
    | with_reducible apply Eng.restart_memOk
    | exact Eng.putScratch_memOk _ _ ‹Eng.memOk _›
    | exact Eng.putParam_memOk _ _ ‹Eng.memOk _›
    | dsimp only
    | fail_if_no_progress with_reducible refine Keeps.upd ?_
    | split

end Sys2Proof.Machine
end

