-- ==== Sys2Proof/Laws/KeepsZsc.lean ====
section
/-! SUPPORT. Every operation of Machine/Zsc.lean keeps what `Keeps` says. -/

set_option linter.unusedTactic false
set_option linter.unreachableTactic false

namespace Sys2Proof.Machine

variable {kc : Bool}

/-- `State.trap` keeps what `Keeps` says. -/
theorem State.trap_keeps {z0 : State} {s : State} (e : EngId) (code : Nat) (arg : Nat) (k_s : Keeps kc z0 s) : Keeps kc z0 (State.trap s e code arg) := by
  unfold State.trap
  repeat' first
    | with_reducible assumption
    | with_reducible exact Keeps.refl _
    | with_reducible exact CuesKept.refl _
    | (with_reducible refine CuesKept.same ?_; rfl)
    | exact fun _ h => h
    | intro _
    | with_reducible refine Keeps.ite ?_ ?_
    | with_reducible refine Keeps.dite ?_ ?_
    | with_reducible refine Keeps.foldl ?_ _ _ ?_
    | with_reducible refine Keeps1.ite ?_ ?_
    | with_reducible refine Keeps1.mk ?_
    | with_reducible apply State.updEng_keeps
    | with_reducible apply State.code_keeps
    | with_reducible apply State.scriptStop_keeps
    | with_reducible apply State.raise_keeps
    | with_reducible apply State.detect_keeps
    | (refine Eng.memOk_of ‹Eng.memOk _› ?_ ?_ ?_ <;> first | rfl | (simp; done) | (split_ifs <;> simp; done))
    | with_reducible apply Eng.restart_memOk
    | exact Eng.putScratch_memOk _ _ ‹Eng.memOk _›
    | exact Eng.putParam_memOk _ _ ‹Eng.memOk _›
    | dsimp only
    | fail_if_no_progress with_reducible refine Keeps.upd ?_
    | split

/-- `State.excess` keeps what `Keeps` says. -/
theorem State.excess_keeps {z0 : State} {s : State} (e : EngId) (k_s : Keeps kc z0 s) : Keeps kc z0 (State.excess s e) := by
  unfold State.excess
  repeat' first
    | with_reducible assumption
    | with_reducible exact Keeps.refl _
    | with_reducible exact CuesKept.refl _
    | (with_reducible refine CuesKept.same ?_; rfl)
    | exact fun _ h => h
    | intro _
    | with_reducible refine Keeps.ite ?_ ?_
    | with_reducible refine Keeps.dite ?_ ?_
    | with_reducible refine Keeps.foldl ?_ _ _ ?_
    | with_reducible refine Keeps1.ite ?_ ?_
    | with_reducible refine Keeps1.mk ?_
    | with_reducible apply State.updEng_keeps
    | with_reducible apply State.dropLine_keeps
    | with_reducible apply State.detect_keeps
    | with_reducible apply State.code_keeps
    | (refine Eng.memOk_of ‹Eng.memOk _› ?_ ?_ ?_ <;> first | rfl | (simp; done) | (split_ifs <;> simp; done))
    | with_reducible apply Eng.restart_memOk
    | exact Eng.putScratch_memOk _ _ ‹Eng.memOk _›
    | exact Eng.putParam_memOk _ _ ‹Eng.memOk _›
    | dsimp only
    | fail_if_no_progress with_reducible refine Keeps.upd ?_
    | split

/-- `State.charge` keeps what `Keeps` says. -/
theorem State.charge_keeps {z0 : State} {s : State} (e : EngId) (cost : Nat) (k_s : Keeps kc z0 s) : Keeps kc z0 (State.charge s e cost) := by
  unfold State.charge
  repeat' first
    | with_reducible assumption
    | with_reducible exact Keeps.refl _
    | with_reducible exact CuesKept.refl _
    | (with_reducible refine CuesKept.same ?_; rfl)
    | exact fun _ h => h
    | intro _
    | with_reducible refine Keeps.ite ?_ ?_
    | with_reducible refine Keeps.dite ?_ ?_
    | with_reducible refine Keeps.foldl ?_ _ _ ?_
    | with_reducible refine Keeps1.ite ?_ ?_
    | with_reducible refine Keeps1.mk ?_
    | with_reducible apply State.updEng_keeps
    | with_reducible apply State.excess_keeps
    | (refine Eng.memOk_of ‹Eng.memOk _› ?_ ?_ ?_ <;> first | rfl | (simp; done) | (split_ifs <;> simp; done))
    | with_reducible apply Eng.restart_memOk
    | exact Eng.putScratch_memOk _ _ ‹Eng.memOk _›
    | exact Eng.putParam_memOk _ _ ‹Eng.memOk _›
    | dsimp only
    | fail_if_no_progress with_reducible refine Keeps.upd ?_
    | split

/-- `State.goto` keeps what `Keeps` says. -/
theorem State.goto_keeps {z0 : State} {s : State} (e : EngId) (pc : Nat) (cost : Nat) (k_s : Keeps kc z0 s) : Keeps kc z0 (State.goto s e pc cost) := by
  unfold State.goto
  repeat' first
    | with_reducible assumption
    | with_reducible exact Keeps.refl _
    | with_reducible exact CuesKept.refl _
    | (with_reducible refine CuesKept.same ?_; rfl)
    | exact fun _ h => h
    | intro _
    | with_reducible refine Keeps.ite ?_ ?_
    | with_reducible refine Keeps.dite ?_ ?_
    | with_reducible refine Keeps.foldl ?_ _ _ ?_
    | with_reducible refine Keeps1.ite ?_ ?_
    | with_reducible refine Keeps1.mk ?_
    | with_reducible apply State.updEng_keeps
    | with_reducible apply State.updScript_keeps
    | with_reducible apply State.charge_keeps
    | (refine Eng.memOk_of ‹Eng.memOk _› ?_ ?_ ?_ <;> first | rfl | (simp; done) | (split_ifs <;> simp; done))
    | with_reducible apply Eng.restart_memOk
    | exact Eng.putScratch_memOk _ _ ‹Eng.memOk _›
    | exact Eng.putParam_memOk _ _ ‹Eng.memOk _›
    | dsimp only
    | fail_if_no_progress with_reducible refine Keeps.upd ?_
    | split

/-- `State.advance` keeps what `Keeps` says. -/
theorem State.advance_keeps {z0 : State} {s : State} (e : EngId) (cost : Nat) (k_s : Keeps kc z0 s) : Keeps kc z0 (State.advance s e cost) := by
  unfold State.advance
  repeat' first
    | with_reducible assumption
    | with_reducible exact Keeps.refl _
    | with_reducible exact CuesKept.refl _
    | (with_reducible refine CuesKept.same ?_; rfl)
    | exact fun _ h => h
    | intro _
    | with_reducible refine Keeps.ite ?_ ?_
    | with_reducible refine Keeps.dite ?_ ?_
    | with_reducible refine Keeps.foldl ?_ _ _ ?_
    | with_reducible refine Keeps1.ite ?_ ?_
    | with_reducible refine Keeps1.mk ?_
    | with_reducible apply State.goto_keeps
    | (refine Eng.memOk_of ‹Eng.memOk _› ?_ ?_ ?_ <;> first | rfl | (simp; done) | (split_ifs <;> simp; done))
    | with_reducible apply Eng.restart_memOk
    | exact Eng.putScratch_memOk _ _ ‹Eng.memOk _›
    | exact Eng.putParam_memOk _ _ ‹Eng.memOk _›
    | dsimp only
    | fail_if_no_progress with_reducible refine Keeps.upd ?_
    | split

/-- `State.instr` keeps what `Keeps` says. -/
theorem State.instr_keeps {z0 : State} {s : State} (e : EngId) (op : Nat) (u : Uses) (f : ZscFields) (body : State → State) (k_s : Keeps kc z0 s) (k_body : ∀ t, Keeps kc z0 t → Keeps kc z0 (body t)) : Keeps kc z0 (State.instr s e op u f body) := by
  unfold State.instr
  repeat' first
    | with_reducible assumption
    | with_reducible exact Keeps.refl _
    | with_reducible exact CuesKept.refl _
    | (with_reducible refine CuesKept.same ?_; rfl)
    | exact fun _ h => h
    | intro _
    | with_reducible refine Keeps.ite ?_ ?_
    | with_reducible refine Keeps.dite ?_ ?_
    | with_reducible refine Keeps.foldl ?_ _ _ ?_
    | with_reducible refine Keeps1.ite ?_ ?_
    | with_reducible refine Keeps1.mk ?_
    | with_reducible apply State.trap_keeps
    | with_reducible apply State.advance_keeps
    | with_reducible apply k_body
    | (refine Eng.memOk_of ‹Eng.memOk _› ?_ ?_ ?_ <;> first | rfl | (simp; done) | (split_ifs <;> simp; done))
    | with_reducible apply Eng.restart_memOk
    | exact Eng.putScratch_memOk _ _ ‹Eng.memOk _›
    | exact Eng.putParam_memOk _ _ ‹Eng.memOk _›
    | dsimp only
    | fail_if_no_progress with_reducible refine Keeps.upd ?_
    | split

/-- `State.setRes` keeps what `Keeps` says. -/
theorem State.setRes_keeps {z0 : State} {s : State} (e : EngId) (rd : BitVec 4) (wr : Bool) (setFlags : Bool) (r : FlagRes) (k_s : Keeps kc z0 s) : Keeps kc z0 (State.setRes s e rd wr setFlags r) := by
  unfold State.setRes
  repeat' first
    | with_reducible assumption
    | with_reducible exact Keeps.refl _
    | with_reducible exact CuesKept.refl _
    | (with_reducible refine CuesKept.same ?_; rfl)
    | exact fun _ h => h
    | intro _
    | with_reducible refine Keeps.ite ?_ ?_
    | with_reducible refine Keeps.dite ?_ ?_
    | with_reducible refine Keeps.foldl ?_ _ _ ?_
    | with_reducible refine Keeps1.ite ?_ ?_
    | with_reducible refine Keeps1.mk ?_
    | with_reducible apply State.updEng_keeps
    | (refine Eng.memOk_of ‹Eng.memOk _› ?_ ?_ ?_ <;> first | rfl | (simp; done) | (split_ifs <;> simp; done))
    | with_reducible apply Eng.restart_memOk
    | exact Eng.putScratch_memOk _ _ ‹Eng.memOk _›
    | exact Eng.putParam_memOk _ _ ‹Eng.memOk _›
    | dsimp only
    | fail_if_no_progress with_reducible refine Keeps.upd ?_
    | split

/-- `State.alu` keeps what `Keeps` says. -/
theorem State.alu_keeps {z0 : State} {s : State} (e : EngId) (op : Nat) (f : ZscFields) (cost : Nat) (usesA : Bool) (res : Eng → Word → Word → FlagRes) (k_s : Keeps kc z0 s) : Keeps kc z0 (State.alu s e op f cost usesA res) := by
  unfold State.alu
  repeat' first
    | with_reducible assumption
    | with_reducible exact Keeps.refl _
    | with_reducible exact CuesKept.refl _
    | (with_reducible refine CuesKept.same ?_; rfl)
    | exact fun _ h => h
    | intro _
    | with_reducible refine Keeps.ite ?_ ?_
    | with_reducible refine Keeps.dite ?_ ?_
    | with_reducible refine Keeps.foldl ?_ _ _ ?_
    | with_reducible refine Keeps1.ite ?_ ?_
    | with_reducible refine Keeps1.mk ?_
    | with_reducible apply State.instr_keeps
    | with_reducible apply State.setRes_keeps
    | with_reducible apply State.advance_keeps
    | (refine Eng.memOk_of ‹Eng.memOk _› ?_ ?_ ?_ <;> first | rfl | (simp; done) | (split_ifs <;> simp; done))
    | with_reducible apply Eng.restart_memOk
    | exact Eng.putScratch_memOk _ _ ‹Eng.memOk _›
    | exact Eng.putParam_memOk _ _ ‹Eng.memOk _›
    | dsimp only
    | fail_if_no_progress with_reducible refine Keeps.upd ?_
    | split

/-- `execNop` keeps what `Keeps` says. -/
theorem execNop_keeps (e : EngId) (f : ZscFields) (s : State) : OutKeeps kc s (execNop e f s) := by
  unfold execNop
  repeat' first
    | with_reducible assumption
    | with_reducible exact Keeps.refl _
    | with_reducible exact CuesKept.refl _
    | (with_reducible refine CuesKept.same ?_; rfl)
    | exact fun _ h => h
    | intro _
    | with_reducible refine OutKeeps.ite ?_ ?_
    | with_reducible refine OutKeeps.next ?_
    | with_reducible refine Keeps.ite ?_ ?_
    | with_reducible refine Keeps.dite ?_ ?_
    | with_reducible refine Keeps.foldl ?_ _ _ ?_
    | with_reducible refine Keeps1.ite ?_ ?_
    | with_reducible refine Keeps1.mk ?_
    | with_reducible apply State.instr_keeps
    | with_reducible apply State.advance_keeps
    | (refine Eng.memOk_of ‹Eng.memOk _› ?_ ?_ ?_ <;> first | rfl | (simp; done) | (split_ifs <;> simp; done))
    | with_reducible apply Eng.restart_memOk
    | exact Eng.putScratch_memOk _ _ ‹Eng.memOk _›
    | exact Eng.putParam_memOk _ _ ‹Eng.memOk _›
    | dsimp only
    | fail_if_no_progress with_reducible refine Keeps.upd ?_
    | split

/-- `execMov` keeps what `Keeps` says. -/
theorem execMov_keeps (e : EngId) (f : ZscFields) (s : State) : OutKeeps kc s (execMov e f s) := by
  unfold execMov
  repeat' first
    | with_reducible assumption
    | with_reducible exact Keeps.refl _
    | with_reducible exact CuesKept.refl _
    | (with_reducible refine CuesKept.same ?_; rfl)
    | exact fun _ h => h
    | intro _
    | with_reducible refine OutKeeps.ite ?_ ?_
    | with_reducible refine OutKeeps.next ?_
    | with_reducible refine Keeps.ite ?_ ?_
    | with_reducible refine Keeps.dite ?_ ?_
    | with_reducible refine Keeps.foldl ?_ _ _ ?_
    | with_reducible refine Keeps1.ite ?_ ?_
    | with_reducible refine Keeps1.mk ?_
    | with_reducible apply State.alu_keeps
    | (refine Eng.memOk_of ‹Eng.memOk _› ?_ ?_ ?_ <;> first | rfl | (simp; done) | (split_ifs <;> simp; done))
    | with_reducible apply Eng.restart_memOk
    | exact Eng.putScratch_memOk _ _ ‹Eng.memOk _›
    | exact Eng.putParam_memOk _ _ ‹Eng.memOk _›
    | dsimp only
    | fail_if_no_progress with_reducible refine Keeps.upd ?_
    | split

/-- `execAdd` keeps what `Keeps` says. -/
theorem execAdd_keeps (e : EngId) (f : ZscFields) (s : State) : OutKeeps kc s (execAdd e f s) := by
  unfold execAdd
  repeat' first
    | with_reducible assumption
    | with_reducible exact Keeps.refl _
    | with_reducible exact CuesKept.refl _
    | (with_reducible refine CuesKept.same ?_; rfl)
    | exact fun _ h => h
    | intro _
    | with_reducible refine OutKeeps.ite ?_ ?_
    | with_reducible refine OutKeeps.next ?_
    | with_reducible refine Keeps.ite ?_ ?_
    | with_reducible refine Keeps.dite ?_ ?_
    | with_reducible refine Keeps.foldl ?_ _ _ ?_
    | with_reducible refine Keeps1.ite ?_ ?_
    | with_reducible refine Keeps1.mk ?_
    | with_reducible apply State.alu_keeps
    | (refine Eng.memOk_of ‹Eng.memOk _› ?_ ?_ ?_ <;> first | rfl | (simp; done) | (split_ifs <;> simp; done))
    | with_reducible apply Eng.restart_memOk
    | exact Eng.putScratch_memOk _ _ ‹Eng.memOk _›
    | exact Eng.putParam_memOk _ _ ‹Eng.memOk _›
    | dsimp only
    | fail_if_no_progress with_reducible refine Keeps.upd ?_
    | split

/-- `execAdc` keeps what `Keeps` says. -/
theorem execAdc_keeps (e : EngId) (f : ZscFields) (s : State) : OutKeeps kc s (execAdc e f s) := by
  unfold execAdc
  repeat' first
    | with_reducible assumption
    | with_reducible exact Keeps.refl _
    | with_reducible exact CuesKept.refl _
    | (with_reducible refine CuesKept.same ?_; rfl)
    | exact fun _ h => h
    | intro _
    | with_reducible refine OutKeeps.ite ?_ ?_
    | with_reducible refine OutKeeps.next ?_
    | with_reducible refine Keeps.ite ?_ ?_
    | with_reducible refine Keeps.dite ?_ ?_
    | with_reducible refine Keeps.foldl ?_ _ _ ?_
    | with_reducible refine Keeps1.ite ?_ ?_
    | with_reducible refine Keeps1.mk ?_
    | with_reducible apply State.alu_keeps
    | (refine Eng.memOk_of ‹Eng.memOk _› ?_ ?_ ?_ <;> first | rfl | (simp; done) | (split_ifs <;> simp; done))
    | with_reducible apply Eng.restart_memOk
    | exact Eng.putScratch_memOk _ _ ‹Eng.memOk _›
    | exact Eng.putParam_memOk _ _ ‹Eng.memOk _›
    | dsimp only
    | fail_if_no_progress with_reducible refine Keeps.upd ?_
    | split

/-- `execSub` keeps what `Keeps` says. -/
theorem execSub_keeps (e : EngId) (f : ZscFields) (s : State) : OutKeeps kc s (execSub e f s) := by
  unfold execSub
  repeat' first
    | with_reducible assumption
    | with_reducible exact Keeps.refl _
    | with_reducible exact CuesKept.refl _
    | (with_reducible refine CuesKept.same ?_; rfl)
    | exact fun _ h => h
    | intro _
    | with_reducible refine OutKeeps.ite ?_ ?_
    | with_reducible refine OutKeeps.next ?_
    | with_reducible refine Keeps.ite ?_ ?_
    | with_reducible refine Keeps.dite ?_ ?_
    | with_reducible refine Keeps.foldl ?_ _ _ ?_
    | with_reducible refine Keeps1.ite ?_ ?_
    | with_reducible refine Keeps1.mk ?_
    | with_reducible apply State.alu_keeps
    | (refine Eng.memOk_of ‹Eng.memOk _› ?_ ?_ ?_ <;> first | rfl | (simp; done) | (split_ifs <;> simp; done))
    | with_reducible apply Eng.restart_memOk
    | exact Eng.putScratch_memOk _ _ ‹Eng.memOk _›
    | exact Eng.putParam_memOk _ _ ‹Eng.memOk _›
    | dsimp only
    | fail_if_no_progress with_reducible refine Keeps.upd ?_
    | split

/-- `execSbc` keeps what `Keeps` says. -/
theorem execSbc_keeps (e : EngId) (f : ZscFields) (s : State) : OutKeeps kc s (execSbc e f s) := by
  unfold execSbc
  repeat' first
    | with_reducible assumption
    | with_reducible exact Keeps.refl _
    | with_reducible exact CuesKept.refl _
    | (with_reducible refine CuesKept.same ?_; rfl)
    | exact fun _ h => h
    | intro _
    | with_reducible refine OutKeeps.ite ?_ ?_
    | with_reducible refine OutKeeps.next ?_
    | with_reducible refine Keeps.ite ?_ ?_
    | with_reducible refine Keeps.dite ?_ ?_
    | with_reducible refine Keeps.foldl ?_ _ _ ?_
    | with_reducible refine Keeps1.ite ?_ ?_
    | with_reducible refine Keeps1.mk ?_
    | with_reducible apply State.alu_keeps
    | (refine Eng.memOk_of ‹Eng.memOk _› ?_ ?_ ?_ <;> first | rfl | (simp; done) | (split_ifs <;> simp; done))
    | with_reducible apply Eng.restart_memOk
    | exact Eng.putScratch_memOk _ _ ‹Eng.memOk _›
    | exact Eng.putParam_memOk _ _ ‹Eng.memOk _›
    | dsimp only
    | fail_if_no_progress with_reducible refine Keeps.upd ?_
    | split

/-- `execAnd` keeps what `Keeps` says. -/
theorem execAnd_keeps (e : EngId) (f : ZscFields) (s : State) : OutKeeps kc s (execAnd e f s) := by
  unfold execAnd
  repeat' first
    | with_reducible assumption
    | with_reducible exact Keeps.refl _
    | with_reducible exact CuesKept.refl _
    | (with_reducible refine CuesKept.same ?_; rfl)
    | exact fun _ h => h
    | intro _
    | with_reducible refine OutKeeps.ite ?_ ?_
    | with_reducible refine OutKeeps.next ?_
    | with_reducible refine Keeps.ite ?_ ?_
    | with_reducible refine Keeps.dite ?_ ?_
    | with_reducible refine Keeps.foldl ?_ _ _ ?_
    | with_reducible refine Keeps1.ite ?_ ?_
    | with_reducible refine Keeps1.mk ?_
    | with_reducible apply State.alu_keeps
    | (refine Eng.memOk_of ‹Eng.memOk _› ?_ ?_ ?_ <;> first | rfl | (simp; done) | (split_ifs <;> simp; done))
    | with_reducible apply Eng.restart_memOk
    | exact Eng.putScratch_memOk _ _ ‹Eng.memOk _›
    | exact Eng.putParam_memOk _ _ ‹Eng.memOk _›
    | dsimp only
    | fail_if_no_progress with_reducible refine Keeps.upd ?_
    | split

/-- `execOr` keeps what `Keeps` says. -/
theorem execOr_keeps (e : EngId) (f : ZscFields) (s : State) : OutKeeps kc s (execOr e f s) := by
  unfold execOr
  repeat' first
    | with_reducible assumption
    | with_reducible exact Keeps.refl _
    | with_reducible exact CuesKept.refl _
    | (with_reducible refine CuesKept.same ?_; rfl)
    | exact fun _ h => h
    | intro _
    | with_reducible refine OutKeeps.ite ?_ ?_
    | with_reducible refine OutKeeps.next ?_
    | with_reducible refine Keeps.ite ?_ ?_
    | with_reducible refine Keeps.dite ?_ ?_
    | with_reducible refine Keeps.foldl ?_ _ _ ?_
    | with_reducible refine Keeps1.ite ?_ ?_
    | with_reducible refine Keeps1.mk ?_
    | with_reducible apply State.alu_keeps
    | (refine Eng.memOk_of ‹Eng.memOk _› ?_ ?_ ?_ <;> first | rfl | (simp; done) | (split_ifs <;> simp; done))
    | with_reducible apply Eng.restart_memOk
    | exact Eng.putScratch_memOk _ _ ‹Eng.memOk _›
    | exact Eng.putParam_memOk _ _ ‹Eng.memOk _›
    | dsimp only
    | fail_if_no_progress with_reducible refine Keeps.upd ?_
    | split

/-- `execXor` keeps what `Keeps` says. -/
theorem execXor_keeps (e : EngId) (f : ZscFields) (s : State) : OutKeeps kc s (execXor e f s) := by
  unfold execXor
  repeat' first
    | with_reducible assumption
    | with_reducible exact Keeps.refl _
    | with_reducible exact CuesKept.refl _
    | (with_reducible refine CuesKept.same ?_; rfl)
    | exact fun _ h => h
    | intro _
    | with_reducible refine OutKeeps.ite ?_ ?_
    | with_reducible refine OutKeeps.next ?_
    | with_reducible refine Keeps.ite ?_ ?_
    | with_reducible refine Keeps.dite ?_ ?_
    | with_reducible refine Keeps.foldl ?_ _ _ ?_
    | with_reducible refine Keeps1.ite ?_ ?_
    | with_reducible refine Keeps1.mk ?_
    | with_reducible apply State.alu_keeps
    | (refine Eng.memOk_of ‹Eng.memOk _› ?_ ?_ ?_ <;> first | rfl | (simp; done) | (split_ifs <;> simp; done))
    | with_reducible apply Eng.restart_memOk
    | exact Eng.putScratch_memOk _ _ ‹Eng.memOk _›
    | exact Eng.putParam_memOk _ _ ‹Eng.memOk _›
    | dsimp only
    | fail_if_no_progress with_reducible refine Keeps.upd ?_
    | split

/-- `execShl` keeps what `Keeps` says. -/
theorem execShl_keeps (e : EngId) (f : ZscFields) (s : State) : OutKeeps kc s (execShl e f s) := by
  unfold execShl
  repeat' first
    | with_reducible assumption
    | with_reducible exact Keeps.refl _
    | with_reducible exact CuesKept.refl _
    | (with_reducible refine CuesKept.same ?_; rfl)
    | exact fun _ h => h
    | intro _
    | with_reducible refine OutKeeps.ite ?_ ?_
    | with_reducible refine OutKeeps.next ?_
    | with_reducible refine Keeps.ite ?_ ?_
    | with_reducible refine Keeps.dite ?_ ?_
    | with_reducible refine Keeps.foldl ?_ _ _ ?_
    | with_reducible refine Keeps1.ite ?_ ?_
    | with_reducible refine Keeps1.mk ?_
    | with_reducible apply State.alu_keeps
    | (refine Eng.memOk_of ‹Eng.memOk _› ?_ ?_ ?_ <;> first | rfl | (simp; done) | (split_ifs <;> simp; done))
    | with_reducible apply Eng.restart_memOk
    | exact Eng.putScratch_memOk _ _ ‹Eng.memOk _›
    | exact Eng.putParam_memOk _ _ ‹Eng.memOk _›
    | dsimp only
    | fail_if_no_progress with_reducible refine Keeps.upd ?_
    | split

/-- `execShr` keeps what `Keeps` says. -/
theorem execShr_keeps (e : EngId) (f : ZscFields) (s : State) : OutKeeps kc s (execShr e f s) := by
  unfold execShr
  repeat' first
    | with_reducible assumption
    | with_reducible exact Keeps.refl _
    | with_reducible exact CuesKept.refl _
    | (with_reducible refine CuesKept.same ?_; rfl)
    | exact fun _ h => h
    | intro _
    | with_reducible refine OutKeeps.ite ?_ ?_
    | with_reducible refine OutKeeps.next ?_
    | with_reducible refine Keeps.ite ?_ ?_
    | with_reducible refine Keeps.dite ?_ ?_
    | with_reducible refine Keeps.foldl ?_ _ _ ?_
    | with_reducible refine Keeps1.ite ?_ ?_
    | with_reducible refine Keeps1.mk ?_
    | with_reducible apply State.alu_keeps
    | (refine Eng.memOk_of ‹Eng.memOk _› ?_ ?_ ?_ <;> first | rfl | (simp; done) | (split_ifs <;> simp; done))
    | with_reducible apply Eng.restart_memOk
    | exact Eng.putScratch_memOk _ _ ‹Eng.memOk _›
    | exact Eng.putParam_memOk _ _ ‹Eng.memOk _›
    | dsimp only
    | fail_if_no_progress with_reducible refine Keeps.upd ?_
    | split

/-- `execSar` keeps what `Keeps` says. -/
theorem execSar_keeps (e : EngId) (f : ZscFields) (s : State) : OutKeeps kc s (execSar e f s) := by
  unfold execSar
  repeat' first
    | with_reducible assumption
    | with_reducible exact Keeps.refl _
    | with_reducible exact CuesKept.refl _
    | (with_reducible refine CuesKept.same ?_; rfl)
    | exact fun _ h => h
    | intro _
    | with_reducible refine OutKeeps.ite ?_ ?_
    | with_reducible refine OutKeeps.next ?_
    | with_reducible refine Keeps.ite ?_ ?_
    | with_reducible refine Keeps.dite ?_ ?_
    | with_reducible refine Keeps.foldl ?_ _ _ ?_
    | with_reducible refine Keeps1.ite ?_ ?_
    | with_reducible refine Keeps1.mk ?_
    | with_reducible apply State.alu_keeps
    | (refine Eng.memOk_of ‹Eng.memOk _› ?_ ?_ ?_ <;> first | rfl | (simp; done) | (split_ifs <;> simp; done))
    | with_reducible apply Eng.restart_memOk
    | exact Eng.putScratch_memOk _ _ ‹Eng.memOk _›
    | exact Eng.putParam_memOk _ _ ‹Eng.memOk _›
    | dsimp only
    | fail_if_no_progress with_reducible refine Keeps.upd ?_
    | split

/-- `execMul` keeps what `Keeps` says. -/
theorem execMul_keeps (e : EngId) (f : ZscFields) (s : State) : OutKeeps kc s (execMul e f s) := by
  unfold execMul
  repeat' first
    | with_reducible assumption
    | with_reducible exact Keeps.refl _
    | with_reducible exact CuesKept.refl _
    | (with_reducible refine CuesKept.same ?_; rfl)
    | exact fun _ h => h
    | intro _
    | with_reducible refine OutKeeps.ite ?_ ?_
    | with_reducible refine OutKeeps.next ?_
    | with_reducible refine Keeps.ite ?_ ?_
    | with_reducible refine Keeps.dite ?_ ?_
    | with_reducible refine Keeps.foldl ?_ _ _ ?_
    | with_reducible refine Keeps1.ite ?_ ?_
    | with_reducible refine Keeps1.mk ?_
    | with_reducible apply State.alu_keeps
    | (refine Eng.memOk_of ‹Eng.memOk _› ?_ ?_ ?_ <;> first | rfl | (simp; done) | (split_ifs <;> simp; done))
    | with_reducible apply Eng.restart_memOk
    | exact Eng.putScratch_memOk _ _ ‹Eng.memOk _›
    | exact Eng.putParam_memOk _ _ ‹Eng.memOk _›
    | dsimp only
    | fail_if_no_progress with_reducible refine Keeps.upd ?_
    | split

/-- `execMulh` keeps what `Keeps` says. -/
theorem execMulh_keeps (e : EngId) (f : ZscFields) (s : State) : OutKeeps kc s (execMulh e f s) := by
  unfold execMulh
  repeat' first
    | with_reducible assumption
    | with_reducible exact Keeps.refl _
    | with_reducible exact CuesKept.refl _
    | (with_reducible refine CuesKept.same ?_; rfl)
    | exact fun _ h => h
    | intro _
    | with_reducible refine OutKeeps.ite ?_ ?_
    | with_reducible refine OutKeeps.next ?_
    | with_reducible refine Keeps.ite ?_ ?_
    | with_reducible refine Keeps.dite ?_ ?_
    | with_reducible refine Keeps.foldl ?_ _ _ ?_
    | with_reducible refine Keeps1.ite ?_ ?_
    | with_reducible refine Keeps1.mk ?_
    | with_reducible apply State.alu_keeps
    | (refine Eng.memOk_of ‹Eng.memOk _› ?_ ?_ ?_ <;> first | rfl | (simp; done) | (split_ifs <;> simp; done))
    | with_reducible apply Eng.restart_memOk
    | exact Eng.putScratch_memOk _ _ ‹Eng.memOk _›
    | exact Eng.putParam_memOk _ _ ‹Eng.memOk _›
    | dsimp only
    | fail_if_no_progress with_reducible refine Keeps.upd ?_
    | split

/-- `execMin` keeps what `Keeps` says. -/
theorem execMin_keeps (e : EngId) (f : ZscFields) (s : State) : OutKeeps kc s (execMin e f s) := by
  unfold execMin
  repeat' first
    | with_reducible assumption
    | with_reducible exact Keeps.refl _
    | with_reducible exact CuesKept.refl _
    | (with_reducible refine CuesKept.same ?_; rfl)
    | exact fun _ h => h
    | intro _
    | with_reducible refine OutKeeps.ite ?_ ?_
    | with_reducible refine OutKeeps.next ?_
    | with_reducible refine Keeps.ite ?_ ?_
    | with_reducible refine Keeps.dite ?_ ?_
    | with_reducible refine Keeps.foldl ?_ _ _ ?_
    | with_reducible refine Keeps1.ite ?_ ?_
    | with_reducible refine Keeps1.mk ?_
    | with_reducible apply State.alu_keeps
    | (refine Eng.memOk_of ‹Eng.memOk _› ?_ ?_ ?_ <;> first | rfl | (simp; done) | (split_ifs <;> simp; done))
    | with_reducible apply Eng.restart_memOk
    | exact Eng.putScratch_memOk _ _ ‹Eng.memOk _›
    | exact Eng.putParam_memOk _ _ ‹Eng.memOk _›
    | dsimp only
    | fail_if_no_progress with_reducible refine Keeps.upd ?_
    | split

/-- `execMax` keeps what `Keeps` says. -/
theorem execMax_keeps (e : EngId) (f : ZscFields) (s : State) : OutKeeps kc s (execMax e f s) := by
  unfold execMax
  repeat' first
    | with_reducible assumption
    | with_reducible exact Keeps.refl _
    | with_reducible exact CuesKept.refl _
    | (with_reducible refine CuesKept.same ?_; rfl)
    | exact fun _ h => h
    | intro _
    | with_reducible refine OutKeeps.ite ?_ ?_
    | with_reducible refine OutKeeps.next ?_
    | with_reducible refine Keeps.ite ?_ ?_
    | with_reducible refine Keeps.dite ?_ ?_
    | with_reducible refine Keeps.foldl ?_ _ _ ?_
    | with_reducible refine Keeps1.ite ?_ ?_
    | with_reducible refine Keeps1.mk ?_
    | with_reducible apply State.alu_keeps
    | (refine Eng.memOk_of ‹Eng.memOk _› ?_ ?_ ?_ <;> first | rfl | (simp; done) | (split_ifs <;> simp; done))
    | with_reducible apply Eng.restart_memOk
    | exact Eng.putScratch_memOk _ _ ‹Eng.memOk _›
    | exact Eng.putParam_memOk _ _ ‹Eng.memOk _›
    | dsimp only
    | fail_if_no_progress with_reducible refine Keeps.upd ?_
    | split

/-- `execSats` keeps what `Keeps` says. -/
theorem execSats_keeps (e : EngId) (f : ZscFields) (s : State) : OutKeeps kc s (execSats e f s) := by
  unfold execSats
  repeat' first
    | with_reducible assumption
    | with_reducible exact Keeps.refl _
    | with_reducible exact CuesKept.refl _
    | (with_reducible refine CuesKept.same ?_; rfl)
    | exact fun _ h => h
    | intro _
    | with_reducible refine OutKeeps.ite ?_ ?_
    | with_reducible refine OutKeeps.next ?_
    | with_reducible refine Keeps.ite ?_ ?_
    | with_reducible refine Keeps.dite ?_ ?_
    | with_reducible refine Keeps.foldl ?_ _ _ ?_
    | with_reducible refine Keeps1.ite ?_ ?_
    | with_reducible refine Keeps1.mk ?_
    | with_reducible apply State.alu_keeps
    | (refine Eng.memOk_of ‹Eng.memOk _› ?_ ?_ ?_ <;> first | rfl | (simp; done) | (split_ifs <;> simp; done))
    | with_reducible apply Eng.restart_memOk
    | exact Eng.putScratch_memOk _ _ ‹Eng.memOk _›
    | exact Eng.putParam_memOk _ _ ‹Eng.memOk _›
    | dsimp only
    | fail_if_no_progress with_reducible refine Keeps.upd ?_
    | split

/-- `execSatu` keeps what `Keeps` says. -/
theorem execSatu_keeps (e : EngId) (f : ZscFields) (s : State) : OutKeeps kc s (execSatu e f s) := by
  unfold execSatu
  repeat' first
    | with_reducible assumption
    | with_reducible exact Keeps.refl _
    | with_reducible exact CuesKept.refl _
    | (with_reducible refine CuesKept.same ?_; rfl)
    | exact fun _ h => h
    | intro _
    | with_reducible refine OutKeeps.ite ?_ ?_
    | with_reducible refine OutKeeps.next ?_
    | with_reducible refine Keeps.ite ?_ ?_
    | with_reducible refine Keeps.dite ?_ ?_
    | with_reducible refine Keeps.foldl ?_ _ _ ?_
    | with_reducible refine Keeps1.ite ?_ ?_
    | with_reducible refine Keeps1.mk ?_
    | with_reducible apply State.alu_keeps
    | (refine Eng.memOk_of ‹Eng.memOk _› ?_ ?_ ?_ <;> first | rfl | (simp; done) | (split_ifs <;> simp; done))
    | with_reducible apply Eng.restart_memOk
    | exact Eng.putScratch_memOk _ _ ‹Eng.memOk _›
    | exact Eng.putParam_memOk _ _ ‹Eng.memOk _›
    | dsimp only
    | fail_if_no_progress with_reducible refine Keeps.upd ?_
    | split

/-- `State.compare` keeps what `Keeps` says. -/
theorem State.compare_keeps {z0 : State} {s : State} (e : EngId) (op : Nat) (f : ZscFields) (res : Word → Word → FlagRes) (k_s : Keeps kc z0 s) : Keeps kc z0 (State.compare s e op f res) := by
  unfold State.compare
  repeat' first
    | with_reducible assumption
    | with_reducible exact Keeps.refl _
    | with_reducible exact CuesKept.refl _
    | (with_reducible refine CuesKept.same ?_; rfl)
    | exact fun _ h => h
    | intro _
    | with_reducible refine Keeps.ite ?_ ?_
    | with_reducible refine Keeps.dite ?_ ?_
    | with_reducible refine Keeps.foldl ?_ _ _ ?_
    | with_reducible refine Keeps1.ite ?_ ?_
    | with_reducible refine Keeps1.mk ?_
    | with_reducible apply State.instr_keeps
    | with_reducible apply State.setRes_keeps
    | with_reducible apply State.advance_keeps
    | (refine Eng.memOk_of ‹Eng.memOk _› ?_ ?_ ?_ <;> first | rfl | (simp; done) | (split_ifs <;> simp; done))
    | with_reducible apply Eng.restart_memOk
    | exact Eng.putScratch_memOk _ _ ‹Eng.memOk _›
    | exact Eng.putParam_memOk _ _ ‹Eng.memOk _›
    | dsimp only
    | fail_if_no_progress with_reducible refine Keeps.upd ?_
    | split

/-- `execCmp` keeps what `Keeps` says. -/
theorem execCmp_keeps (e : EngId) (f : ZscFields) (s : State) : OutKeeps kc s (execCmp e f s) := by
  unfold execCmp
  repeat' first
    | with_reducible assumption
    | with_reducible exact Keeps.refl _
    | with_reducible exact CuesKept.refl _
    | (with_reducible refine CuesKept.same ?_; rfl)
    | exact fun _ h => h
    | intro _
    | with_reducible refine OutKeeps.ite ?_ ?_
    | with_reducible refine OutKeeps.next ?_
    | with_reducible refine Keeps.ite ?_ ?_
    | with_reducible refine Keeps.dite ?_ ?_
    | with_reducible refine Keeps.foldl ?_ _ _ ?_
    | with_reducible refine Keeps1.ite ?_ ?_
    | with_reducible refine Keeps1.mk ?_
    | with_reducible apply State.compare_keeps
    | (refine Eng.memOk_of ‹Eng.memOk _› ?_ ?_ ?_ <;> first | rfl | (simp; done) | (split_ifs <;> simp; done))
    | with_reducible apply Eng.restart_memOk
    | exact Eng.putScratch_memOk _ _ ‹Eng.memOk _›
    | exact Eng.putParam_memOk _ _ ‹Eng.memOk _›
    | dsimp only
    | fail_if_no_progress with_reducible refine Keeps.upd ?_
    | split

/-- `execTst` keeps what `Keeps` says. -/
theorem execTst_keeps (e : EngId) (f : ZscFields) (s : State) : OutKeeps kc s (execTst e f s) := by
  unfold execTst
  repeat' first
    | with_reducible assumption
    | with_reducible exact Keeps.refl _
    | with_reducible exact CuesKept.refl _
    | (with_reducible refine CuesKept.same ?_; rfl)
    | exact fun _ h => h
    | intro _
    | with_reducible refine OutKeeps.ite ?_ ?_
    | with_reducible refine OutKeeps.next ?_
    | with_reducible refine Keeps.ite ?_ ?_
    | with_reducible refine Keeps.dite ?_ ?_
    | with_reducible refine Keeps.foldl ?_ _ _ ?_
    | with_reducible refine Keeps1.ite ?_ ?_
    | with_reducible refine Keeps1.mk ?_
    | with_reducible apply State.compare_keeps
    | (refine Eng.memOk_of ‹Eng.memOk _› ?_ ?_ ?_ <;> first | rfl | (simp; done) | (split_ifs <;> simp; done))
    | with_reducible apply Eng.restart_memOk
    | exact Eng.putScratch_memOk _ _ ‹Eng.memOk _›
    | exact Eng.putParam_memOk _ _ ‹Eng.memOk _›
    | dsimp only
    | fail_if_no_progress with_reducible refine Keeps.upd ?_
    | split

/-- `execClz` keeps what `Keeps` says. -/
theorem execClz_keeps (e : EngId) (f : ZscFields) (s : State) : OutKeeps kc s (execClz e f s) := by
  unfold execClz
  repeat' first
    | with_reducible assumption
    | with_reducible exact Keeps.refl _
    | with_reducible exact CuesKept.refl _
    | (with_reducible refine CuesKept.same ?_; rfl)
    | exact fun _ h => h
    | intro _
    | with_reducible refine OutKeeps.ite ?_ ?_
    | with_reducible refine OutKeeps.next ?_
    | with_reducible refine Keeps.ite ?_ ?_
    | with_reducible refine Keeps.dite ?_ ?_
    | with_reducible refine Keeps.foldl ?_ _ _ ?_
    | with_reducible refine Keeps1.ite ?_ ?_
    | with_reducible refine Keeps1.mk ?_
    | with_reducible apply State.alu_keeps
    | (refine Eng.memOk_of ‹Eng.memOk _› ?_ ?_ ?_ <;> first | rfl | (simp; done) | (split_ifs <;> simp; done))
    | with_reducible apply Eng.restart_memOk
    | exact Eng.putScratch_memOk _ _ ‹Eng.memOk _›
    | exact Eng.putParam_memOk _ _ ‹Eng.memOk _›
    | dsimp only
    | fail_if_no_progress with_reducible refine Keeps.upd ?_
    | split

/-- `State.memAccess` keeps what `Keeps` says. -/
theorem State.memAccess_keeps {z0 : State} {s : State} (e : EngId) (op : Nat) (f : ZscFields) (store : Bool) (body : Nat → Nat → State → State) (k_s : Keeps kc z0 s) (k_body : ∀ x y t, Keeps kc z0 t → Keeps kc z0 (body x y t)) : Keeps kc z0 (State.memAccess s e op f store body) := by
  unfold State.memAccess
  repeat' first
    | with_reducible assumption
    | with_reducible exact Keeps.refl _
    | with_reducible exact CuesKept.refl _
    | (with_reducible refine CuesKept.same ?_; rfl)
    | exact fun _ h => h
    | intro _
    | with_reducible refine Keeps.ite ?_ ?_
    | with_reducible refine Keeps.dite ?_ ?_
    | with_reducible refine Keeps.foldl ?_ _ _ ?_
    | with_reducible refine Keeps1.ite ?_ ?_
    | with_reducible refine Keeps1.mk ?_
    | with_reducible apply State.trap_keeps
    | with_reducible apply k_body
    | (refine Eng.memOk_of ‹Eng.memOk _› ?_ ?_ ?_ <;> first | rfl | (simp; done) | (split_ifs <;> simp; done))
    | with_reducible apply Eng.restart_memOk
    | exact Eng.putScratch_memOk _ _ ‹Eng.memOk _›
    | exact Eng.putParam_memOk _ _ ‹Eng.memOk _›
    | dsimp only
    | fail_if_no_progress with_reducible refine Keeps.upd ?_
    | split

/-- `execLd` keeps what `Keeps` says. -/
theorem execLd_keeps (e : EngId) (f : ZscFields) (s : State) : OutKeeps kc s (execLd e f s) := by
  unfold execLd
  repeat' first
    | with_reducible assumption
    | with_reducible exact Keeps.refl _
    | with_reducible exact CuesKept.refl _
    | (with_reducible refine CuesKept.same ?_; rfl)
    | exact fun _ h => h
    | intro _
    | with_reducible refine OutKeeps.ite ?_ ?_
    | with_reducible refine OutKeeps.next ?_
    | with_reducible refine Keeps.ite ?_ ?_
    | with_reducible refine Keeps.dite ?_ ?_
    | with_reducible refine Keeps.foldl ?_ _ _ ?_
    | with_reducible refine Keeps1.ite ?_ ?_
    | with_reducible refine Keeps1.mk ?_
    | with_reducible apply State.instr_keeps
    | with_reducible apply State.memAccess_keeps
    | with_reducible apply State.updEng_keeps
    | with_reducible apply State.advance_keeps
    | (refine Eng.memOk_of ‹Eng.memOk _› ?_ ?_ ?_ <;> first | rfl | (simp; done) | (split_ifs <;> simp; done))
    | with_reducible apply Eng.restart_memOk
    | exact Eng.putScratch_memOk _ _ ‹Eng.memOk _›
    | exact Eng.putParam_memOk _ _ ‹Eng.memOk _›
    | dsimp only
    | fail_if_no_progress with_reducible refine Keeps.upd ?_
    | split

/-- `execSt` keeps what `Keeps` says. -/
theorem execSt_keeps (e : EngId) (f : ZscFields) (s : State) : OutKeeps kc s (execSt e f s) := by
  unfold execSt
  repeat' first
    | with_reducible assumption
    | with_reducible exact Keeps.refl _
    | with_reducible exact CuesKept.refl _
    | (with_reducible refine CuesKept.same ?_; rfl)
    | exact fun _ h => h
    | intro _
    | with_reducible refine OutKeeps.ite ?_ ?_
    | with_reducible refine OutKeeps.next ?_
    | with_reducible refine Keeps.ite ?_ ?_
    | with_reducible refine Keeps.dite ?_ ?_
    | with_reducible refine Keeps.foldl ?_ _ _ ?_
    | with_reducible refine Keeps1.ite ?_ ?_
    | with_reducible refine Keeps1.mk ?_
    | with_reducible apply State.instr_keeps
    | with_reducible apply State.memAccess_keeps
    | with_reducible apply State.updEng_keeps
    | with_reducible apply State.advance_keeps
    | (refine Eng.memOk_of ‹Eng.memOk _› ?_ ?_ ?_ <;> first | rfl | (simp; done) | (split_ifs <;> simp; done))
    | with_reducible apply Eng.restart_memOk
    | exact Eng.putScratch_memOk _ _ ‹Eng.memOk _›
    | exact Eng.putParam_memOk _ _ ‹Eng.memOk _›
    | dsimp only
    | fail_if_no_progress with_reducible refine Keeps.upd ?_
    | split

/-- `State.branch` keeps what `Keeps` says. -/
theorem State.branch_keeps {z0 : State} {s : State} (e : EngId) (target : Nat) (k_s : Keeps kc z0 s) : Keeps kc z0 (State.branch s e target) := by
  unfold State.branch
  repeat' first
    | with_reducible assumption
    | with_reducible exact Keeps.refl _
    | with_reducible exact CuesKept.refl _
    | (with_reducible refine CuesKept.same ?_; rfl)
    | exact fun _ h => h
    | intro _
    | with_reducible refine Keeps.ite ?_ ?_
    | with_reducible refine Keeps.dite ?_ ?_
    | with_reducible refine Keeps.foldl ?_ _ _ ?_
    | with_reducible refine Keeps1.ite ?_ ?_
    | with_reducible refine Keeps1.mk ?_
    | with_reducible apply State.trap_keeps
    | with_reducible apply State.goto_keeps
    | (refine Eng.memOk_of ‹Eng.memOk _› ?_ ?_ ?_ <;> first | rfl | (simp; done) | (split_ifs <;> simp; done))
    | with_reducible apply Eng.restart_memOk
    | exact Eng.putScratch_memOk _ _ ‹Eng.memOk _›
    | exact Eng.putParam_memOk _ _ ‹Eng.memOk _›
    | dsimp only
    | fail_if_no_progress with_reducible refine Keeps.upd ?_
    | split

/-- `execJmp` keeps what `Keeps` says. -/
theorem execJmp_keeps (e : EngId) (f : ZscFields) (s : State) : OutKeeps kc s (execJmp e f s) := by
  unfold execJmp
  repeat' first
    | with_reducible assumption
    | with_reducible exact Keeps.refl _
    | with_reducible exact CuesKept.refl _
    | (with_reducible refine CuesKept.same ?_; rfl)
    | exact fun _ h => h
    | intro _
    | with_reducible refine OutKeeps.ite ?_ ?_
    | with_reducible refine OutKeeps.next ?_
    | with_reducible refine Keeps.ite ?_ ?_
    | with_reducible refine Keeps.dite ?_ ?_
    | with_reducible refine Keeps.foldl ?_ _ _ ?_
    | with_reducible refine Keeps1.ite ?_ ?_
    | with_reducible refine Keeps1.mk ?_
    | with_reducible apply State.instr_keeps
    | with_reducible apply State.branch_keeps
    | (refine Eng.memOk_of ‹Eng.memOk _› ?_ ?_ ?_ <;> first | rfl | (simp; done) | (split_ifs <;> simp; done))
    | with_reducible apply Eng.restart_memOk
    | exact Eng.putScratch_memOk _ _ ‹Eng.memOk _›
    | exact Eng.putParam_memOk _ _ ‹Eng.memOk _›
    | dsimp only
    | fail_if_no_progress with_reducible refine Keeps.upd ?_
    | split

/-- `execJmpr` keeps what `Keeps` says. -/
theorem execJmpr_keeps (e : EngId) (f : ZscFields) (s : State) : OutKeeps kc s (execJmpr e f s) := by
  unfold execJmpr
  repeat' first
    | with_reducible assumption
    | with_reducible exact Keeps.refl _
    | with_reducible exact CuesKept.refl _
    | (with_reducible refine CuesKept.same ?_; rfl)
    | exact fun _ h => h
    | intro _
    | with_reducible refine OutKeeps.ite ?_ ?_
    | with_reducible refine OutKeeps.next ?_
    | with_reducible refine Keeps.ite ?_ ?_
    | with_reducible refine Keeps.dite ?_ ?_
    | with_reducible refine Keeps.foldl ?_ _ _ ?_
    | with_reducible refine Keeps1.ite ?_ ?_
    | with_reducible refine Keeps1.mk ?_
    | with_reducible apply State.instr_keeps
    | with_reducible apply State.branch_keeps
    | (refine Eng.memOk_of ‹Eng.memOk _› ?_ ?_ ?_ <;> first | rfl | (simp; done) | (split_ifs <;> simp; done))
    | with_reducible apply Eng.restart_memOk
    | exact Eng.putScratch_memOk _ _ ‹Eng.memOk _›
    | exact Eng.putParam_memOk _ _ ‹Eng.memOk _›
    | dsimp only
    | fail_if_no_progress with_reducible refine Keeps.upd ?_
    | split

/-- `State.call` keeps what `Keeps` says. -/
theorem State.call_keeps {z0 : State} {s : State} (e : EngId) (target : Nat) (k_s : Keeps kc z0 s) : Keeps kc z0 (State.call s e target) := by
  unfold State.call
  repeat' first
    | with_reducible assumption
    | with_reducible exact Keeps.refl _
    | with_reducible exact CuesKept.refl _
    | (with_reducible refine CuesKept.same ?_; rfl)
    | exact fun _ h => h
    | intro _
    | with_reducible refine Keeps.ite ?_ ?_
    | with_reducible refine Keeps.dite ?_ ?_
    | with_reducible refine Keeps.foldl ?_ _ _ ?_
    | with_reducible refine Keeps1.ite ?_ ?_
    | with_reducible refine Keeps1.mk ?_
    | with_reducible apply State.trap_keeps
    | with_reducible apply State.updEng_keeps
    | with_reducible apply State.goto_keeps
    | (refine Eng.memOk_of ‹Eng.memOk _› ?_ ?_ ?_ <;> first | rfl | (simp; done) | (split_ifs <;> simp; done))
    | with_reducible apply Eng.restart_memOk
    | exact Eng.putScratch_memOk _ _ ‹Eng.memOk _›
    | exact Eng.putParam_memOk _ _ ‹Eng.memOk _›
    | dsimp only
    | fail_if_no_progress with_reducible refine Keeps.upd ?_
    | split

/-- `execCall` keeps what `Keeps` says. -/
theorem execCall_keeps (e : EngId) (f : ZscFields) (s : State) : OutKeeps kc s (execCall e f s) := by
  unfold execCall
  repeat' first
    | with_reducible assumption
    | with_reducible exact Keeps.refl _
    | with_reducible exact CuesKept.refl _
    | (with_reducible refine CuesKept.same ?_; rfl)
    | exact fun _ h => h
    | intro _
    | with_reducible refine OutKeeps.ite ?_ ?_
    | with_reducible refine OutKeeps.next ?_
    | with_reducible refine Keeps.ite ?_ ?_
    | with_reducible refine Keeps.dite ?_ ?_
    | with_reducible refine Keeps.foldl ?_ _ _ ?_
    | with_reducible refine Keeps1.ite ?_ ?_
    | with_reducible refine Keeps1.mk ?_
    | with_reducible apply State.instr_keeps
    | with_reducible apply State.call_keeps
    | (refine Eng.memOk_of ‹Eng.memOk _› ?_ ?_ ?_ <;> first | rfl | (simp; done) | (split_ifs <;> simp; done))
    | with_reducible apply Eng.restart_memOk
    | exact Eng.putScratch_memOk _ _ ‹Eng.memOk _›
    | exact Eng.putParam_memOk _ _ ‹Eng.memOk _›
    | dsimp only
    | fail_if_no_progress with_reducible refine Keeps.upd ?_
    | split

/-- `execCallr` keeps what `Keeps` says. -/
theorem execCallr_keeps (e : EngId) (f : ZscFields) (s : State) : OutKeeps kc s (execCallr e f s) := by
  unfold execCallr
  repeat' first
    | with_reducible assumption
    | with_reducible exact Keeps.refl _
    | with_reducible exact CuesKept.refl _
    | (with_reducible refine CuesKept.same ?_; rfl)
    | exact fun _ h => h
    | intro _
    | with_reducible refine OutKeeps.ite ?_ ?_
    | with_reducible refine OutKeeps.next ?_
    | with_reducible refine Keeps.ite ?_ ?_
    | with_reducible refine Keeps.dite ?_ ?_
    | with_reducible refine Keeps.foldl ?_ _ _ ?_
    | with_reducible refine Keeps1.ite ?_ ?_
    | with_reducible refine Keeps1.mk ?_
    | with_reducible apply State.instr_keeps
    | with_reducible apply State.call_keeps
    | (refine Eng.memOk_of ‹Eng.memOk _› ?_ ?_ ?_ <;> first | rfl | (simp; done) | (split_ifs <;> simp; done))
    | with_reducible apply Eng.restart_memOk
    | exact Eng.putScratch_memOk _ _ ‹Eng.memOk _›
    | exact Eng.putParam_memOk _ _ ‹Eng.memOk _›
    | dsimp only
    | fail_if_no_progress with_reducible refine Keeps.upd ?_
    | split

/-- `execRet` keeps what `Keeps` says. -/
theorem execRet_keeps (e : EngId) (f : ZscFields) (s : State) : OutKeeps kc s (execRet e f s) := by
  unfold execRet
  repeat' first
    | with_reducible assumption
    | with_reducible exact Keeps.refl _
    | with_reducible exact CuesKept.refl _
    | (with_reducible refine CuesKept.same ?_; rfl)
    | exact fun _ h => h
    | intro _
    | with_reducible refine OutKeeps.ite ?_ ?_
    | with_reducible refine OutKeeps.next ?_
    | with_reducible refine Keeps.ite ?_ ?_
    | with_reducible refine Keeps.dite ?_ ?_
    | with_reducible refine Keeps.foldl ?_ _ _ ?_
    | with_reducible refine Keeps1.ite ?_ ?_
    | with_reducible refine Keeps1.mk ?_
    | with_reducible apply State.instr_keeps
    | with_reducible apply State.trap_keeps
    | with_reducible apply State.updEng_keeps
    | with_reducible apply State.goto_keeps
    | (refine Eng.memOk_of ‹Eng.memOk _› ?_ ?_ ?_ <;> first | rfl | (simp; done) | (split_ifs <;> simp; done))
    | with_reducible apply Eng.restart_memOk
    | exact Eng.putScratch_memOk _ _ ‹Eng.memOk _›
    | exact Eng.putParam_memOk _ _ ‹Eng.memOk _›
    | dsimp only
    | fail_if_no_progress with_reducible refine Keeps.upd ?_
    | split

/-- `execLset` keeps what `Keeps` says. -/
theorem execLset_keeps (e : EngId) (f : ZscFields) (s : State) : OutKeeps kc s (execLset e f s) := by
  unfold execLset
  repeat' first
    | with_reducible assumption
    | with_reducible exact Keeps.refl _
    | with_reducible exact CuesKept.refl _
    | (with_reducible refine CuesKept.same ?_; rfl)
    | exact fun _ h => h
    | intro _
    | with_reducible refine OutKeeps.ite ?_ ?_
    | with_reducible refine OutKeeps.next ?_
    | with_reducible refine Keeps.ite ?_ ?_
    | with_reducible refine Keeps.dite ?_ ?_
    | with_reducible refine Keeps.foldl ?_ _ _ ?_
    | with_reducible refine Keeps1.ite ?_ ?_
    | with_reducible refine Keeps1.mk ?_
    | with_reducible apply State.instr_keeps
    | with_reducible apply State.trap_keeps
    | with_reducible apply State.branch_keeps
    | with_reducible apply State.updEng_keeps
    | with_reducible apply State.advance_keeps
    | (refine Eng.memOk_of ‹Eng.memOk _› ?_ ?_ ?_ <;> first | rfl | (simp; done) | (split_ifs <;> simp; done))
    | with_reducible apply Eng.restart_memOk
    | exact Eng.putScratch_memOk _ _ ‹Eng.memOk _›
    | exact Eng.putParam_memOk _ _ ‹Eng.memOk _›
    | dsimp only
    | fail_if_no_progress with_reducible refine Keeps.upd ?_
    | split

/-- `execLend` keeps what `Keeps` says. -/
theorem execLend_keeps (e : EngId) (f : ZscFields) (s : State) : OutKeeps kc s (execLend e f s) := by
  unfold execLend
  repeat' first
    | with_reducible assumption
    | with_reducible exact Keeps.refl _
    | with_reducible exact CuesKept.refl _
    | (with_reducible refine CuesKept.same ?_; rfl)
    | exact fun _ h => h
    | intro _
    | with_reducible refine OutKeeps.ite ?_ ?_
    | with_reducible refine OutKeeps.next ?_
    | with_reducible refine Keeps.ite ?_ ?_
    | with_reducible refine Keeps.dite ?_ ?_
    | with_reducible refine Keeps.foldl ?_ _ _ ?_
    | with_reducible refine Keeps1.ite ?_ ?_
    | with_reducible refine Keeps1.mk ?_
    | with_reducible apply State.instr_keeps
    | with_reducible apply State.trap_keeps
    | with_reducible apply State.updEng_keeps
    | with_reducible apply State.advance_keeps
    | with_reducible apply State.goto_keeps
    | (refine Eng.memOk_of ‹Eng.memOk _› ?_ ?_ ?_ <;> first | rfl | (simp; done) | (split_ifs <;> simp; done))
    | with_reducible apply Eng.restart_memOk
    | exact Eng.putScratch_memOk _ _ ‹Eng.memOk _›
    | exact Eng.putParam_memOk _ _ ‹Eng.memOk _›
    | dsimp only
    | fail_if_no_progress with_reducible refine Keeps.upd ?_
    | split

/-- `execTend` keeps what `Keeps` says. -/
theorem execTend_keeps (e : EngId) (f : ZscFields) (s : State) : OutKeeps kc s (execTend e f s) := by
  unfold execTend
  repeat' first
    | with_reducible assumption
    | with_reducible exact Keeps.refl _
    | with_reducible exact CuesKept.refl _
    | (with_reducible refine CuesKept.same ?_; rfl)
    | exact fun _ h => h
    | intro _
    | with_reducible refine OutKeeps.ite ?_ ?_
    | with_reducible refine OutKeeps.next ?_
    | with_reducible refine Keeps.ite ?_ ?_
    | with_reducible refine Keeps.dite ?_ ?_
    | with_reducible refine Keeps.foldl ?_ _ _ ?_
    | with_reducible refine Keeps1.ite ?_ ?_
    | with_reducible refine Keeps1.mk ?_
    | with_reducible apply State.instr_keeps
    | with_reducible apply State.trap_keeps
    | with_reducible apply State.advance_keeps
    | with_reducible apply State.updEng_keeps
    | (refine Eng.memOk_of ‹Eng.memOk _› ?_ ?_ ?_ <;> first | rfl | (simp; done) | (split_ifs <;> simp; done))
    | with_reducible apply Eng.restart_memOk
    | exact Eng.putScratch_memOk _ _ ‹Eng.memOk _›
    | exact Eng.putParam_memOk _ _ ‹Eng.memOk _›
    | dsimp only
    | fail_if_no_progress with_reducible refine Keeps.upd ?_
    | split

/-- `execRaise` keeps what `Keeps` says. -/
theorem execRaise_keeps (e : EngId) (f : ZscFields) (s : State) : OutKeeps kc s (execRaise e f s) := by
  unfold execRaise
  repeat' first
    | with_reducible assumption
    | with_reducible exact Keeps.refl _
    | with_reducible exact CuesKept.refl _
    | (with_reducible refine CuesKept.same ?_; rfl)
    | exact fun _ h => h
    | intro _
    | with_reducible refine OutKeeps.ite ?_ ?_
    | with_reducible refine OutKeeps.next ?_
    | with_reducible refine Keeps.ite ?_ ?_
    | with_reducible refine Keeps.dite ?_ ?_
    | with_reducible refine Keeps.foldl ?_ _ _ ?_
    | with_reducible refine Keeps1.ite ?_ ?_
    | with_reducible refine Keeps1.mk ?_
    | with_reducible apply State.instr_keeps
    | with_reducible apply State.code_keeps
    | with_reducible apply State.raise_keeps
    | with_reducible apply State.advance_keeps
    | (refine Eng.memOk_of ‹Eng.memOk _› ?_ ?_ ?_ <;> first | rfl | (simp; done) | (split_ifs <;> simp; done))
    | with_reducible apply Eng.restart_memOk
    | exact Eng.putScratch_memOk _ _ ‹Eng.memOk _›
    | exact Eng.putParam_memOk _ _ ‹Eng.memOk _›
    | dsimp only
    | fail_if_no_progress with_reducible refine Keeps.upd ?_
    | split

/-- `execRds` keeps what `Keeps` says. -/
theorem execRds_keeps (e : EngId) (f : ZscFields) (s : State) : OutKeeps kc s (execRds e f s) := by
  unfold execRds
  repeat' first
    | with_reducible assumption
    | with_reducible exact Keeps.refl _
    | with_reducible exact CuesKept.refl _
    | (with_reducible refine CuesKept.same ?_; rfl)
    | exact fun _ h => h
    | intro _
    | with_reducible refine OutKeeps.ite ?_ ?_
    | with_reducible refine OutKeeps.next ?_
    | with_reducible refine Keeps.ite ?_ ?_
    | with_reducible refine Keeps.dite ?_ ?_
    | with_reducible refine Keeps.foldl ?_ _ _ ?_
    | with_reducible refine Keeps1.ite ?_ ?_
    | with_reducible refine Keeps1.mk ?_
    | with_reducible apply State.instr_keeps
    | with_reducible apply State.trap_keeps
    | with_reducible apply State.updEng_keeps
    | with_reducible apply State.advance_keeps
    | (refine Eng.memOk_of ‹Eng.memOk _› ?_ ?_ ?_ <;> first | rfl | (simp; done) | (split_ifs <;> simp; done))
    | with_reducible apply Eng.restart_memOk
    | exact Eng.putScratch_memOk _ _ ‹Eng.memOk _›
    | exact Eng.putParam_memOk _ _ ‹Eng.memOk _›
    | dsimp only
    | fail_if_no_progress with_reducible refine Keeps.upd ?_
    | split

/-- `execHalt` keeps what `Keeps` says. -/
theorem execHalt_keeps (e : EngId) (f : ZscFields) (s : State) : OutKeeps kc s (execHalt e f s) := by
  unfold execHalt
  repeat' first
    | with_reducible assumption
    | with_reducible exact Keeps.refl _
    | with_reducible exact CuesKept.refl _
    | (with_reducible refine CuesKept.same ?_; rfl)
    | exact fun _ h => h
    | intro _
    | with_reducible refine OutKeeps.ite ?_ ?_
    | with_reducible refine OutKeeps.next ?_
    | with_reducible refine Keeps.ite ?_ ?_
    | with_reducible refine Keeps.dite ?_ ?_
    | with_reducible refine Keeps.foldl ?_ _ _ ?_
    | with_reducible refine Keeps1.ite ?_ ?_
    | with_reducible refine Keeps1.mk ?_
    | with_reducible apply State.instr_keeps
    | with_reducible apply State.scriptDone_keeps
    | with_reducible apply State.charge_keeps
    | with_reducible apply State.updEng_keeps
    | with_reducible apply State.drainUnit_keeps
    | (refine Eng.memOk_of ‹Eng.memOk _› ?_ ?_ ?_ <;> first | rfl | (simp; done) | (split_ifs <;> simp; done))
    | with_reducible apply Eng.restart_memOk
    | exact Eng.putScratch_memOk _ _ ‹Eng.memOk _›
    | exact Eng.putParam_memOk _ _ ‹Eng.memOk _›
    | dsimp only
    | fail_if_no_progress with_reducible refine Keeps.upd ?_
    | split

/-- `execTrapOpcode` keeps what `Keeps` says. -/
theorem execTrapOpcode_keeps (e : EngId) (k : Fin 32) (f : ZscFields) (s : State) : OutKeeps kc s (execTrapOpcode e k f s) := by
  unfold execTrapOpcode
  repeat' first
    | with_reducible assumption
    | with_reducible exact Keeps.refl _
    | with_reducible exact CuesKept.refl _
    | (with_reducible refine CuesKept.same ?_; rfl)
    | exact fun _ h => h
    | intro _
    | with_reducible refine OutKeeps.ite ?_ ?_
    | with_reducible refine OutKeeps.next ?_
    | with_reducible refine Keeps.ite ?_ ?_
    | with_reducible refine Keeps.dite ?_ ?_
    | with_reducible refine Keeps.foldl ?_ _ _ ?_
    | with_reducible refine Keeps1.ite ?_ ?_
    | with_reducible refine Keeps1.mk ?_
    | with_reducible apply State.instr_keeps
    | with_reducible apply State.trap_keeps
    | (refine Eng.memOk_of ‹Eng.memOk _› ?_ ?_ ?_ <;> first | rfl | (simp; done) | (split_ifs <;> simp; done))
    | with_reducible apply Eng.restart_memOk
    | exact Eng.putScratch_memOk _ _ ‹Eng.memOk _›
    | exact Eng.putParam_memOk _ _ ‹Eng.memOk _›
    | dsimp only
    | fail_if_no_progress with_reducible refine Keeps.upd ?_
    | split

/-- `execIllegalOpcode` keeps what `Keeps` says. -/
theorem execIllegalOpcode_keeps (e : EngId) (w : Fetched) (s : State) : OutKeeps kc s (execIllegalOpcode e w s) := by
  unfold execIllegalOpcode
  repeat' first
    | with_reducible assumption
    | with_reducible exact Keeps.refl _
    | with_reducible exact CuesKept.refl _
    | (with_reducible refine CuesKept.same ?_; rfl)
    | exact fun _ h => h
    | intro _
    | with_reducible refine OutKeeps.ite ?_ ?_
    | with_reducible refine OutKeeps.next ?_
    | with_reducible refine Keeps.ite ?_ ?_
    | with_reducible refine Keeps.dite ?_ ?_
    | with_reducible refine Keeps.foldl ?_ _ _ ?_
    | with_reducible refine Keeps1.ite ?_ ?_
    | with_reducible refine Keeps1.mk ?_
    | with_reducible apply State.trap_keeps
    | (refine Eng.memOk_of ‹Eng.memOk _› ?_ ?_ ?_ <;> first | rfl | (simp; done) | (split_ifs <;> simp; done))
    | with_reducible apply Eng.restart_memOk
    | exact Eng.putScratch_memOk _ _ ‹Eng.memOk _›
    | exact Eng.putParam_memOk _ _ ‹Eng.memOk _›
    | dsimp only
    | fail_if_no_progress with_reducible refine Keeps.upd ?_
    | split

end Sys2Proof.Machine
end

