-- ==== Sys2Proof/Laws/KeepsSource.lean ====
section
/-! SUPPORT. Every operation of Machine/Source.lean keeps what `Keeps` says. -/

set_option linter.unusedTactic false
set_option linter.unreachableTactic false

namespace Sys2Proof.Machine

variable {kc : Bool}

/-- `State.updLtg` keeps what `Keeps` says. -/
theorem State.updLtg_keeps {z0 : State} {s : State} (p : PortId) (f : LtgSt → LtgSt) (k_s : Keeps kc z0 s) : Keeps kc z0 (State.updLtg s p f) := by
  unfold State.updLtg
  repeat' first
    | with_reducible assumption
    | with_reducible exact Keeps.refl _
    | with_reducible exact CuesKept.refl _
    | (with_reducible refine CuesKept.same ?_; rfl)
    | exact fun _ h => h
    | intro _
    | with_reducible refine Keeps.ite ?_ ?_
    | with_reducible refine Keeps.dite ?_ ?_
    | with_reducible refine Keeps.foldl ?_ _ _ ?_
    | with_reducible refine Keeps1.ite ?_ ?_
    | with_reducible refine Keeps1.mk ?_
    | with_reducible apply State.updPort_keeps
    | (refine Eng.memOk_of ‹Eng.memOk _› ?_ ?_ ?_ <;> first | rfl | (simp; done) | (split_ifs <;> simp; done))
    | with_reducible apply Eng.restart_memOk
    | exact Eng.putScratch_memOk _ _ ‹Eng.memOk _›
    | exact Eng.putParam_memOk _ _ ‹Eng.memOk _›
    | dsimp only
    | fail_if_no_progress with_reducible refine Keeps.upd ?_
    | split

end Sys2Proof.Machine
end

