-- ==== Sys2Proof/Laws/KeepsEvents.lean ====
section
/-! SUPPORT. Every operation of Machine/Events.lean keeps what `Keeps` says. -/

set_option linter.unusedTactic false
set_option linter.unreachableTactic false

namespace Sys2Proof.Machine

variable {kc : Bool}

/-- `State.message` keeps what `Keeps` says. -/
theorem State.message_keeps {z0 : State} {s : State} (v : Nat) (k_s : Keeps kc z0 s) : Keeps kc z0 (State.message s v) := by
  unfold State.message
  repeat' first
    | with_reducible assumption
    | with_reducible exact Keeps.refl _
    | with_reducible exact CuesKept.refl _
    | (with_reducible refine CuesKept.same ?_; rfl)
    | exact fun _ h => h
    | intro _
    | with_reducible refine Keeps.ite ?_ ?_
    | with_reducible refine Keeps.dite ?_ ?_
    | with_reducible refine Keeps.foldl ?_ _ _ ?_
    | with_reducible refine Keeps1.ite ?_ ?_
    | with_reducible refine Keeps1.mk ?_
    | with_reducible apply State.send_keeps
    | (refine Eng.memOk_of ‹Eng.memOk _› ?_ ?_ ?_ <;> first | rfl | (simp; done) | (split_ifs <;> simp; done))
    | with_reducible apply Eng.restart_memOk
    | exact Eng.putScratch_memOk _ _ ‹Eng.memOk _›
    | exact Eng.putParam_memOk _ _ ‹Eng.memOk _›
    | dsimp only
    | fail_if_no_progress with_reducible refine Keeps.putMsiPend ?_
    | fail_if_no_progress with_reducible refine Keeps.upd ?_
    | split

/-- `State.notify` keeps what `Keeps` says. -/
theorem State.notify_keeps {z0 : State} {s : State} (q : QueueId) (before : Nat) (after : Nat) (k_s : Keeps kc z0 s) : Keeps kc z0 (State.notify s q before after) := by
  unfold State.notify
  repeat' first
    | with_reducible assumption
    | with_reducible exact Keeps.refl _
    | with_reducible exact CuesKept.refl _
    | (with_reducible refine CuesKept.same ?_; rfl)
    | exact fun _ h => h
    | intro _
    | with_reducible refine Keeps.ite ?_ ?_
    | with_reducible refine Keeps.dite ?_ ?_
    | with_reducible refine Keeps.foldl ?_ _ _ ?_
    | with_reducible refine Keeps1.ite ?_ ?_
    | with_reducible refine Keeps1.mk ?_
    | with_reducible apply State.message_keeps
    | (refine Eng.memOk_of ‹Eng.memOk _› ?_ ?_ ?_ <;> first | rfl | (simp; done) | (split_ifs <;> simp; done))
    | with_reducible apply Eng.restart_memOk
    | exact Eng.putScratch_memOk _ _ ‹Eng.memOk _›
    | exact Eng.putParam_memOk _ _ ‹Eng.memOk _›
    | dsimp only
    | fail_if_no_progress with_reducible refine Keeps.upd ?_
    | split

/-- The rest after a packet is no longer than the words. -/
theorem splitPacket_length : ∀ (l p r : List DWord), splitPacket l = some (p, r) → r.length ≤ l.length := by
  intro l
  induction l with
  | nil => intro p r h; simp [splitPacket] at h
  | cons w t ih =>
    intro p r h
    unfold splitPacket at h
    split at h
    · simp at h; rw [← h.2]; simp
    · split at h
      · simp at h
      · rename_i p' r' h'
        simp at h
        have := ih _ _ h'
        rw [← h.2]; simp; omega

/-- `State.ringPut` keeps what `Keeps` says. -/
theorem State.ringPut_keeps {z : State} (q : QueueId) (size : Nat) :
    ∀ (l : List DWord) {s : State}, Keeps kc z s → Keeps kc z (State.ringPut s q size l) := by
  intro l
  induction l with
  | nil => intro s h; exact h
  | cons w t ih =>
    intro s h
    unfold State.ringPut
    exact ih (State.updQueue_keeps _ _ id (State.hostWrite_keeps _ _ h))

/-- `State.drainRing` keeps what `Keeps` says. -/
theorem State.drainRing_keeps {z : State} (q : QueueId) (n : Nat) {s : State} (hs : Keeps kc z s) : Keeps kc z (State.drainRing s q n) := by
  induction n generalizing s with
  | zero => exact hs
  | succ n ih =>
    unfold State.drainRing
    split
    · exact hs
    · split
      · exact hs
      · rename_i p rest hsp
        dsimp only
        split
        · exact hs
        · refine ih (State.notify_keeps _ _ _ (State.updQueue_keeps _ _ id (State.ringPut_keeps _ _ _ (State.updQueue_keeps _ _ ?_ hs))))
          intro h
          exact Nat.le_trans (Nat.add_le_add_right (splitPacket_length _ _ _ hsp) _) h

/-- `State.startPacket` keeps what `Keeps` says. -/
theorem State.startPacket_keeps {z : State} {s : State} (q : QueueId) (hs : Keeps kc z s) : Keeps kc z (State.startPacket s q) := by
  unfold State.startPacket
  split
  · exact hs
  · rename_i src p _
    dsimp only
    split
    · rename_i hc
      have hlen : (s.queues[q]).words.length + (packetWords src p).length ≤ 64 := by
        simp only [Bool.and_eq_true, decide_eq_true_eq] at hc
        exact hc.2
      exact State.updQueue_keeps _ _ (fun _ => hlen) (Keeps.putPend hs)
    · exact hs

/-- `State.routeWords` keeps what `Keeps` says. -/
theorem State.routeWords_keeps {z : State} {s : State} (q : QueueId) (n : Nat) (hs : Keeps kc z s) : Keeps kc z (State.routeWords s q n) := by
  have hd : ∀ b : Bool, Keeps kc z (s.updQueue q (fun y => { y with flight := y.flight.drop n, discard := b })) := fun b =>
    State.updQueue_keeps _ _ (fun h => by
      show (s.queues[q]).words.length + ((s.queues[q]).flight.drop n).length ≤ 64
      rw [List.length_drop]
      omega) hs
  have ht : Keeps kc z (s.updQueue q (fun y => { y with
      words := y.words ++ y.flight.take n, flight := y.flight.drop n, counter := y.counter + (y.flight.take n).length })) :=
    State.updQueue_keeps _ _ (fun h => by
      show ((s.queues[q]).words ++ (s.queues[q]).flight.take n).length + ((s.queues[q]).flight.drop n).length ≤ 64
      rw [List.length_append, List.length_take, List.length_drop]
      omega) hs
  unfold State.routeWords
  dsimp only
  split
  · exact hs
  · split
    · split
      · exact State.incRf_keeps _ _ _ _ _ (hd _)
      · exact hd _
    · split
      · exact State.notify_keeps _ _ _ ht
      · exact ht

/-- `State.deliver` keeps what `Keeps` says. -/
theorem State.deliver_keeps {z : State} {s : State} (q : QueueId) (n : Nat) (hs : Keeps kc z s) : Keeps kc z (State.deliver s q n) := by
  unfold State.deliver
  exact State.drainRing_keeps _ _ (Keeps.ite (fun _ => hs) (fun _ => State.routeWords_keeps _ _ (State.startPacket_keeps _ hs)))

/-- `execPacketDelivery` keeps what `Keeps` says. -/
theorem execPacketDelivery_keeps (d : Delivery) (s : State) : OutKeeps kc s (execPacketDelivery d s) := by
  unfold execPacketDelivery
  repeat' first
    | with_reducible assumption
    | with_reducible exact Keeps.refl _
    | with_reducible exact CuesKept.refl _
    | (with_reducible refine CuesKept.same ?_; rfl)
    | exact fun _ h => h
    | intro _
    | with_reducible refine OutKeeps.ite ?_ ?_
    | with_reducible refine OutKeeps.next ?_
    | with_reducible refine Keeps.ite ?_ ?_
    | with_reducible refine Keeps.dite ?_ ?_
    | with_reducible refine Keeps.foldl ?_ _ _ ?_
    | with_reducible refine Keeps1.ite ?_ ?_
    | with_reducible refine Keeps1.mk ?_
    | with_reducible apply State.deliver_keeps
    | (refine Eng.memOk_of ‹Eng.memOk _› ?_ ?_ ?_ <;> first | rfl | (simp; done) | (split_ifs <;> simp; done))
    | with_reducible apply Eng.restart_memOk
    | exact Eng.putScratch_memOk _ _ ‹Eng.memOk _›
    | exact Eng.putParam_memOk _ _ ‹Eng.memOk _›
    | dsimp only
    | fail_if_no_progress with_reducible refine Keeps.upd ?_
    | split

/-- `State.popWord` keeps what `Keeps` says. -/
theorem State.popWord_keeps {z : State} {s : State} (q : QueueId) (hs : Keeps kc z s) : Keeps1 kc z (State.popWord s q) := by
  unfold State.popWord
  split
  · exact hs
  · rename_i w t hw
    split
    · exact hs
    · refine Keeps1.mk (State.updQueue_keeps _ _ (fun h => ?_) hs)
      have hw' : (s.queues[q]).words = w :: t := hw
      rw [hw'] at h
      simp at h ⊢
      omega

/-- `State.emptyQueue` keeps what `Keeps` says. -/
theorem State.emptyQueue_keeps {z : State} {s : State} (q : QueueId) (tally : Bool) (hs : Keeps kc z s) : Keeps kc z (State.emptyQueue s q tally) :=
  State.updQueue_keeps _ _ (fun h => by
    show ([] : List DWord).length + (s.queues[q]).flight.length ≤ 64
    simp only [List.length_nil]
    omega) hs

/-- `State.flushQueue` keeps what `Keeps` says. -/
theorem State.flushQueue_keeps {z0 : State} {s : State} (q : QueueId) (k_s : Keeps kc z0 s) : Keeps kc z0 (State.flushQueue s q) := by
  unfold State.flushQueue
  repeat' first
    | with_reducible assumption
    | with_reducible exact Keeps.refl _
    | with_reducible exact CuesKept.refl _
    | (with_reducible refine CuesKept.same ?_; rfl)
    | exact fun _ h => h
    | intro _
    | with_reducible refine Keeps.ite ?_ ?_
    | with_reducible refine Keeps.dite ?_ ?_
    | with_reducible refine Keeps.foldl ?_ _ _ ?_
    | with_reducible refine Keeps1.ite ?_ ?_
    | with_reducible refine Keeps1.mk ?_
    | with_reducible apply State.emptyQueue_keeps
    | with_reducible apply State.incRf_keeps
    | (refine Eng.memOk_of ‹Eng.memOk _› ?_ ?_ ?_ <;> first | rfl | (simp; done) | (split_ifs <;> simp; done))
    | with_reducible apply Eng.restart_memOk
    | exact Eng.putScratch_memOk _ _ ‹Eng.memOk _›
    | exact Eng.putParam_memOk _ _ ‹Eng.memOk _›
    | dsimp only
    | fail_if_no_progress with_reducible refine Keeps.upd ?_
    | split

/-- `execQueueIntegrity` keeps what `Keeps` says. -/
theorem execQueueIntegrity_keeps (q : QueueId) (t : Nat) (s : State) : OutKeeps kc s (execQueueIntegrity q t s) := by
  unfold execQueueIntegrity
  repeat' first
    | with_reducible assumption
    | with_reducible exact Keeps.refl _
    | with_reducible exact CuesKept.refl _
    | (with_reducible refine CuesKept.same ?_; rfl)
    | exact fun _ h => h
    | intro _
    | with_reducible refine OutKeeps.ite ?_ ?_
    | with_reducible refine OutKeeps.next ?_
    | with_reducible refine Keeps.ite ?_ ?_
    | with_reducible refine Keeps.dite ?_ ?_
    | with_reducible refine Keeps.foldl ?_ _ _ ?_
    | with_reducible refine Keeps1.ite ?_ ?_
    | with_reducible refine Keeps1.mk ?_
    | with_reducible apply State.at_keeps
    | with_reducible apply State.discard_keeps
    | with_reducible apply State.emptyQueue_keeps
    | with_reducible apply State.updQueue_keeps
    | with_reducible apply State.incRf_keeps
    | with_reducible apply State.raise_keeps
    | with_reducible apply State.journal_keeps
    | with_reducible apply State.code_keeps
    | with_reducible apply State.detect_keeps
    | (refine Eng.memOk_of ‹Eng.memOk _› ?_ ?_ ?_ <;> first | rfl | (simp; done) | (split_ifs <;> simp; done))
    | with_reducible apply Eng.restart_memOk
    | exact Eng.putScratch_memOk _ _ ‹Eng.memOk _›
    | exact Eng.putParam_memOk _ _ ‹Eng.memOk _›
    | dsimp only
    | fail_if_no_progress with_reducible refine Keeps.upd ?_
    | split

/-- `State.levelWrite` keeps what `Keeps` says. -/
theorem State.levelWrite_keeps {z0 : State} {s : State} (q : QueueId) (v : Nat) (k_s : Keeps kc z0 s) : Keeps kc z0 (State.levelWrite s q v) := by
  unfold State.levelWrite
  repeat' first
    | with_reducible assumption
    | with_reducible exact Keeps.refl _
    | with_reducible exact CuesKept.refl _
    | (with_reducible refine CuesKept.same ?_; rfl)
    | exact fun _ h => h
    | intro _
    | with_reducible refine Keeps.ite ?_ ?_
    | with_reducible refine Keeps.dite ?_ ?_
    | with_reducible refine Keeps.foldl ?_ _ _ ?_
    | with_reducible refine Keeps1.ite ?_ ?_
    | with_reducible refine Keeps1.mk ?_
    | with_reducible apply State.setReg_keeps
    | (refine Eng.memOk_of ‹Eng.memOk _› ?_ ?_ ?_ <;> first | rfl | (simp; done) | (split_ifs <;> simp; done))
    | with_reducible apply Eng.restart_memOk
    | exact Eng.putScratch_memOk _ _ ‹Eng.memOk _›
    | exact Eng.putParam_memOk _ _ ‹Eng.memOk _›
    | dsimp only
    | fail_if_no_progress with_reducible refine Keeps.upd ?_
    | split

/-- `State.qCtlWrite` keeps what `Keeps` says. -/
theorem State.qCtlWrite_keeps {z0 : State} {s : State} (q : QueueId) (v : Nat) (k_s : Keeps kc z0 s) : Keeps kc z0 (State.qCtlWrite s q v) := by
  unfold State.qCtlWrite
  repeat' first
    | with_reducible assumption
    | with_reducible exact Keeps.refl _
    | with_reducible exact CuesKept.refl _
    | (with_reducible refine CuesKept.same ?_; rfl)
    | exact fun _ h => h
    | intro _
    | with_reducible refine Keeps.ite ?_ ?_
    | with_reducible refine Keeps.dite ?_ ?_
    | with_reducible refine Keeps.foldl ?_ _ _ ?_
    | with_reducible refine Keeps1.ite ?_ ?_
    | with_reducible refine Keeps1.mk ?_
    | with_reducible apply State.flushQueue_keeps
    | with_reducible apply State.setReg_keeps
    | with_reducible apply State.updQueue_keeps
    | (refine Eng.memOk_of ‹Eng.memOk _› ?_ ?_ ?_ <;> first | rfl | (simp; done) | (split_ifs <;> simp; done))
    | with_reducible apply Eng.restart_memOk
    | exact Eng.putScratch_memOk _ _ ‹Eng.memOk _›
    | exact Eng.putParam_memOk _ _ ‹Eng.memOk _›
    | dsimp only
    | fail_if_no_progress with_reducible refine Keeps.upd ?_
    | split

/-- `State.ringCfgWrite` keeps what `Keeps` says. -/
theorem State.ringCfgWrite_keeps {z0 : State} {s : State} (q : QueueId) (off : Nat) (v : Nat) (k_s : Keeps kc z0 s) : Keeps kc z0 (State.ringCfgWrite s q off v) := by
  unfold State.ringCfgWrite
  repeat' first
    | with_reducible assumption
    | with_reducible exact Keeps.refl _
    | with_reducible exact CuesKept.refl _
    | (with_reducible refine CuesKept.same ?_; rfl)
    | exact fun _ h => h
    | intro _
    | with_reducible refine Keeps.ite ?_ ?_
    | with_reducible refine Keeps.dite ?_ ?_
    | with_reducible refine Keeps.foldl ?_ _ _ ?_
    | with_reducible refine Keeps1.ite ?_ ?_
    | with_reducible refine Keeps1.mk ?_
    | with_reducible apply State.setReg_keeps
    | with_reducible apply State.updQueue_keeps
    | (refine Eng.memOk_of ‹Eng.memOk _› ?_ ?_ ?_ <;> first | rfl | (simp; done) | (split_ifs <;> simp; done))
    | with_reducible apply Eng.restart_memOk
    | exact Eng.putScratch_memOk _ _ ‹Eng.memOk _›
    | exact Eng.putParam_memOk _ _ ‹Eng.memOk _›
    | dsimp only
    | fail_if_no_progress with_reducible refine Keeps.upd ?_
    | split

/-- `State.ringHeadWrite` keeps what `Keeps` says. -/
theorem State.ringHeadWrite_keeps {z0 : State} {s : State} (c : CtxId) (q : QueueId) (v : Nat) (k_s : Keeps kc z0 s) : Keeps kc z0 (State.ringHeadWrite s c q v) := by
  unfold State.ringHeadWrite
  repeat' first
    | with_reducible assumption
    | with_reducible exact Keeps.refl _
    | with_reducible exact CuesKept.refl _
    | (with_reducible refine CuesKept.same ?_; rfl)
    | exact fun _ h => h
    | intro _
    | with_reducible refine Keeps.ite ?_ ?_
    | with_reducible refine Keeps.dite ?_ ?_
    | with_reducible refine Keeps.foldl ?_ _ _ ?_
    | with_reducible refine Keeps1.ite ?_ ?_
    | with_reducible refine Keeps1.mk ?_
    | with_reducible apply State.updQueue_keeps
    | with_reducible apply State.drainRing_keeps
    | with_reducible apply State.journal_keeps
    | (refine Eng.memOk_of ‹Eng.memOk _› ?_ ?_ ?_ <;> first | rfl | (simp; done) | (split_ifs <;> simp; done))
    | with_reducible apply Eng.restart_memOk
    | exact Eng.putScratch_memOk _ _ ‹Eng.memOk _›
    | exact Eng.putParam_memOk _ _ ‹Eng.memOk _›
    | dsimp only
    | fail_if_no_progress with_reducible refine Keeps.upd ?_
    | split

/-- `State.routeWrite` keeps what `Keeps` says. -/
theorem State.routeWrite_keeps {z0 : State} {s : State} (src : Nat) (v : Nat) (k_s : Keeps kc z0 s) : Keeps kc z0 (State.routeWrite s src v) := by
  unfold State.routeWrite
  repeat' first
    | with_reducible assumption
    | with_reducible exact Keeps.refl _
    | with_reducible exact CuesKept.refl _
    | (with_reducible refine CuesKept.same ?_; rfl)
    | exact fun _ h => h
    | intro _
    | with_reducible refine Keeps.ite ?_ ?_
    | with_reducible refine Keeps.dite ?_ ?_
    | with_reducible refine Keeps.foldl ?_ _ _ ?_
    | with_reducible refine Keeps1.ite ?_ ?_
    | with_reducible refine Keeps1.mk ?_
    | with_reducible apply State.setReg_keeps
    | (refine Eng.memOk_of ‹Eng.memOk _› ?_ ?_ ?_ <;> first | rfl | (simp; done) | (split_ifs <;> simp; done))
    | with_reducible apply Eng.restart_memOk
    | exact Eng.putScratch_memOk _ _ ‹Eng.memOk _›
    | exact Eng.putParam_memOk _ _ ‹Eng.memOk _›
    | dsimp only
    | fail_if_no_progress with_reducible refine Keeps.upd ?_
    | split

/-- `State.msixSet` keeps what `Keeps` says. -/
theorem State.msixSet_keeps {z : State} {s : State} (w : MsixWrite) (hs : Keeps kc z s) : Keeps kc z (State.msixSet s w) := by
  unfold State.msixSet
  split
  · refine Keeps.upd (x := { s with msiUnmasked := _ }) (Keeps.putMsiUnmasked hs)
  · exact Keeps.upd hs

/-- `State.msixFlush` keeps what `Keeps` says. -/
theorem State.msixFlush_keeps {z0 : State} {s : State} (v : Nat) (k_s : Keeps kc z0 s) : Keeps kc z0 (State.msixFlush s v) := by
  unfold State.msixFlush
  repeat' first
    | with_reducible assumption
    | with_reducible exact Keeps.refl _
    | with_reducible exact CuesKept.refl _
    | (with_reducible refine CuesKept.same ?_; rfl)
    | exact fun _ h => h
    | intro _
    | with_reducible refine Keeps.ite ?_ ?_
    | with_reducible refine Keeps.dite ?_ ?_
    | with_reducible refine Keeps.foldl ?_ _ _ ?_
    | with_reducible refine Keeps1.ite ?_ ?_
    | with_reducible refine Keeps1.mk ?_
    | with_reducible apply State.message_keeps
    | (refine Eng.memOk_of ‹Eng.memOk _› ?_ ?_ ?_ <;> first | rfl | (simp; done) | (split_ifs <;> simp; done))
    | with_reducible apply Eng.restart_memOk
    | exact Eng.putScratch_memOk _ _ ‹Eng.memOk _›
    | exact Eng.putParam_memOk _ _ ‹Eng.memOk _›
    | dsimp only
    | fail_if_no_progress with_reducible refine Keeps.putMsiPend ?_
    | fail_if_no_progress with_reducible refine Keeps.upd ?_
    | split

/-- `execMsiXVectorUnmask` keeps what `Keeps` says. -/
theorem execMsiXVectorUnmask_keeps (w : MsixWrite) (s : State) : OutKeeps kc s (execMsiXVectorUnmask w s) := by
  unfold execMsiXVectorUnmask
  exact OutKeeps.next (Keeps.foldl (fun t v h => State.msixFlush_keeps v h) _ _ (State.msixSet_keeps w (Keeps.refl s)))

end Sys2Proof.Machine
end

