-- ==== Sys2Proof/Laws/KeepsStoreForm.lean ====
section
/-! SUPPORT. Every operation of Machine/StoreForm.lean keeps what `Keeps` says. -/

set_option linter.unusedTactic false
set_option linter.unreachableTactic false

namespace Sys2Proof.Machine

variable {kc : Bool}

/-- A change of the take store that keeps the cues. -/
theorem State.updTks_keeps {z s : State} (f : TksSt → TksSt) (hs : Keeps kc z s)
    (hc : CuesKept kc s.tks (f s.tks)) : Keeps kc z (State.updTks s f) := Keeps.putTks hs hc

/-- `State.updDrive` keeps what `Keeps` says. -/
theorem State.updDrive_keeps {z0 : State} {s : State} (d : DriveId) (f : DrvSt → DrvSt) (k_s : Keeps kc z0 s) : Keeps kc z0 (State.updDrive s d f) := by
  unfold State.updDrive
  repeat' first
    | with_reducible assumption
    | with_reducible exact Keeps.refl _
    | with_reducible exact CuesKept.refl _
    | (with_reducible refine CuesKept.same ?_; rfl)
    | fail_if_no_progress with_reducible refine Keeps.putTks ?_ (CuesKept.same rfl)
    | with_reducible refine CuesKept.ite ?_ ?_
    | with_reducible exact CuesKept.map rfl (fun _ => rfl)
    | with_reducible exact CuesKept.insert rfl
    | (with_reducible refine CuesKept.map rfl (fun _ => ?_)); (split <;> rfl)
    | exact fun _ h => h
    | intro _
    | with_reducible refine Keeps.ite ?_ ?_
    | with_reducible refine Keeps.dite ?_ ?_
    | with_reducible refine Keeps.foldl ?_ _ _ ?_
    | with_reducible refine Keeps1.ite ?_ ?_
    | with_reducible refine Keeps1.mk ?_
    | with_reducible apply State.updTks_keeps
    | (refine Eng.memOk_of ‹Eng.memOk _› ?_ ?_ ?_ <;> first | rfl | (simp; done) | (split_ifs <;> simp; done))
    | with_reducible apply Eng.restart_memOk
    | exact Eng.putScratch_memOk _ _ ‹Eng.memOk _›
    | exact Eng.putParam_memOk _ _ ‹Eng.memOk _›
    | dsimp only
    | fail_if_no_progress with_reducible refine Keeps.upd ?_
    | split

/-- `State.updTport` keeps what `Keeps` says. -/
theorem State.updTport_keeps {z0 : State} {s : State} (p : PortId) (f : TksPort → TksPort) (k_s : Keeps kc z0 s) : Keeps kc z0 (State.updTport s p f) := by
  unfold State.updTport
  repeat' first
    | with_reducible assumption
    | with_reducible exact Keeps.refl _
    | with_reducible exact CuesKept.refl _
    | (with_reducible refine CuesKept.same ?_; rfl)
    | fail_if_no_progress with_reducible refine Keeps.putTks ?_ (CuesKept.same rfl)
    | with_reducible refine CuesKept.ite ?_ ?_
    | with_reducible exact CuesKept.map rfl (fun _ => rfl)
    | with_reducible exact CuesKept.insert rfl
    | (with_reducible refine CuesKept.map rfl (fun _ => ?_)); (split <;> rfl)
    | exact fun _ h => h
    | intro _
    | with_reducible refine Keeps.ite ?_ ?_
    | with_reducible refine Keeps.dite ?_ ?_
    | with_reducible refine Keeps.foldl ?_ _ _ ?_
    | with_reducible refine Keeps1.ite ?_ ?_
    | with_reducible refine Keeps1.mk ?_
    | with_reducible apply State.updTks_keeps
    | (refine Eng.memOk_of ‹Eng.memOk _› ?_ ?_ ?_ <;> first | rfl | (simp; done) | (split_ifs <;> simp; done))
    | with_reducible apply Eng.restart_memOk
    | exact Eng.putScratch_memOk _ _ ‹Eng.memOk _›
    | exact Eng.putParam_memOk _ _ ‹Eng.memOk _›
    | dsimp only
    | fail_if_no_progress with_reducible refine Keeps.upd ?_
    | split

/-- `State.touch` keeps what `Keeps` says. -/
theorem State.touch_keeps {z0 : State} {s : State} (gs : List Nat) (k_s : Keeps kc z0 s) : Keeps kc z0 (State.touch s gs) := by
  unfold State.touch
  repeat' first
    | with_reducible assumption
    | with_reducible exact Keeps.refl _
    | with_reducible exact CuesKept.refl _
    | (with_reducible refine CuesKept.same ?_; rfl)
    | fail_if_no_progress with_reducible refine Keeps.putTks ?_ (CuesKept.same rfl)
    | with_reducible refine CuesKept.ite ?_ ?_
    | with_reducible exact CuesKept.map rfl (fun _ => rfl)
    | with_reducible exact CuesKept.insert rfl
    | (with_reducible refine CuesKept.map rfl (fun _ => ?_)); (split <;> rfl)
    | exact fun _ h => h
    | intro _
    | with_reducible refine Keeps.ite ?_ ?_
    | with_reducible refine Keeps.dite ?_ ?_
    | with_reducible refine Keeps.foldl ?_ _ _ ?_
    | with_reducible refine Keeps1.ite ?_ ?_
    | with_reducible refine Keeps1.mk ?_
    | with_reducible apply State.updTks_keeps
    | (refine Eng.memOk_of ‹Eng.memOk _› ?_ ?_ ?_ <;> first | rfl | (simp; done) | (split_ifs <;> simp; done))
    | with_reducible apply Eng.restart_memOk
    | exact Eng.putScratch_memOk _ _ ‹Eng.memOk _›
    | exact Eng.putParam_memOk _ _ ‹Eng.memOk _›
    | dsimp only
    | fail_if_no_progress with_reducible refine Keeps.upd ?_
    | split

/-- `State.touchDrive` keeps what `Keeps` says. -/
theorem State.touchDrive_keeps {z0 : State} {s : State} (n : Nat) (k_s : Keeps kc z0 s) : Keeps kc z0 (State.touchDrive s n) := by
  unfold State.touchDrive
  repeat' first
    | with_reducible assumption
    | with_reducible exact Keeps.refl _
    | with_reducible exact CuesKept.refl _
    | (with_reducible refine CuesKept.same ?_; rfl)
    | fail_if_no_progress with_reducible refine Keeps.putTks ?_ (CuesKept.same rfl)
    | with_reducible refine CuesKept.ite ?_ ?_
    | with_reducible exact CuesKept.map rfl (fun _ => rfl)
    | with_reducible exact CuesKept.insert rfl
    | (with_reducible refine CuesKept.map rfl (fun _ => ?_)); (split <;> rfl)
    | exact fun _ h => h
    | intro _
    | with_reducible refine Keeps.ite ?_ ?_
    | with_reducible refine Keeps.dite ?_ ?_
    | with_reducible refine Keeps.foldl ?_ _ _ ?_
    | with_reducible refine Keeps1.ite ?_ ?_
    | with_reducible refine Keeps1.mk ?_
    | with_reducible apply State.updTks_keeps
    | with_reducible apply State.touch_keeps
    | (refine Eng.memOk_of ‹Eng.memOk _› ?_ ?_ ?_ <;> first | rfl | (simp; done) | (split_ifs <;> simp; done))
    | with_reducible apply Eng.restart_memOk
    | exact Eng.putScratch_memOk _ _ ‹Eng.memOk _›
    | exact Eng.putParam_memOk _ _ ‹Eng.memOk _›
    | dsimp only
    | fail_if_no_progress with_reducible refine Keeps.upd ?_
    | split

/-- `State.setSeg` keeps what `Keeps` says. -/
theorem State.setSeg_keeps {z0 : State} {s : State} (g : Nat) (x : Seg) (k_s : Keeps kc z0 s) : Keeps kc z0 (State.setSeg s g x) := by
  unfold State.setSeg
  repeat' first
    | with_reducible assumption
    | with_reducible exact Keeps.refl _
    | with_reducible exact CuesKept.refl _
    | (with_reducible refine CuesKept.same ?_; rfl)
    | fail_if_no_progress with_reducible refine Keeps.putTks ?_ (CuesKept.same rfl)
    | with_reducible refine CuesKept.ite ?_ ?_
    | with_reducible exact CuesKept.map rfl (fun _ => rfl)
    | with_reducible exact CuesKept.insert rfl
    | (with_reducible refine CuesKept.map rfl (fun _ => ?_)); (split <;> rfl)
    | exact fun _ h => h
    | intro _
    | with_reducible refine Keeps.ite ?_ ?_
    | with_reducible refine Keeps.dite ?_ ?_
    | with_reducible refine Keeps.foldl ?_ _ _ ?_
    | with_reducible refine Keeps1.ite ?_ ?_
    | with_reducible refine Keeps1.mk ?_
    | with_reducible apply State.updTks_keeps
    | with_reducible apply State.touch_keeps
    | (refine Eng.memOk_of ‹Eng.memOk _› ?_ ?_ ?_ <;> first | rfl | (simp; done) | (split_ifs <;> simp; done))
    | with_reducible apply Eng.restart_memOk
    | exact Eng.putScratch_memOk _ _ ‹Eng.memOk _›
    | exact Eng.putParam_memOk _ _ ‹Eng.memOk _›
    | dsimp only
    | fail_if_no_progress with_reducible refine Keeps.upd ?_
    | split

/-- `State.nvme` keeps what `Keeps` says. -/
theorem State.nvme_keeps {z0 : State} {s : State} (d : DriveId) (op : NvmeOp) (k_s : Keeps kc z0 s) : Keeps kc z0 (State.nvme s d op) := by
  unfold State.nvme
  repeat' first
    | with_reducible assumption
    | with_reducible exact Keeps.refl _
    | with_reducible exact CuesKept.refl _
    | (with_reducible refine CuesKept.same ?_; rfl)
    | fail_if_no_progress with_reducible refine Keeps.putTks ?_ (CuesKept.same rfl)
    | with_reducible refine CuesKept.ite ?_ ?_
    | with_reducible exact CuesKept.map rfl (fun _ => rfl)
    | with_reducible exact CuesKept.insert rfl
    | (with_reducible refine CuesKept.map rfl (fun _ => ?_)); (split <;> rfl)
    | exact fun _ h => h
    | intro _
    | with_reducible refine Keeps.ite ?_ ?_
    | with_reducible refine Keeps.dite ?_ ?_
    | with_reducible refine Keeps.foldl ?_ _ _ ?_
    | with_reducible refine Keeps1.ite ?_ ?_
    | with_reducible refine Keeps1.mk ?_
    | with_reducible apply State.updTks_keeps
    | (refine Eng.memOk_of ‹Eng.memOk _› ?_ ?_ ?_ <;> first | rfl | (simp; done) | (split_ifs <;> simp; done))
    | with_reducible apply Eng.restart_memOk
    | exact Eng.putScratch_memOk _ _ ‹Eng.memOk _›
    | exact Eng.putParam_memOk _ _ ‹Eng.memOk _›
    | dsimp only
    | fail_if_no_progress with_reducible refine Keeps.upd ?_
    | split

/-- `State.put` keeps what `Keeps` says. -/
theorem State.put_keeps {z0 : State} {s : State} (d : DriveId) (c : DrvCmd) (k_s : Keeps kc z0 s) : Keeps kc z0 (State.put s d c) := by
  unfold State.put
  repeat' first
    | with_reducible assumption
    | with_reducible exact Keeps.refl _
    | with_reducible exact CuesKept.refl _
    | (with_reducible refine CuesKept.same ?_; rfl)
    | exact fun _ h => h
    | intro _
    | with_reducible refine Keeps.ite ?_ ?_
    | with_reducible refine Keeps.dite ?_ ?_
    | with_reducible refine Keeps.foldl ?_ _ _ ?_
    | with_reducible refine Keeps1.ite ?_ ?_
    | with_reducible refine Keeps1.mk ?_
    | with_reducible apply State.nvme_keeps
    | (refine Eng.memOk_of ‹Eng.memOk _› ?_ ?_ ?_ <;> first | rfl | (simp; done) | (split_ifs <;> simp; done))
    | with_reducible apply Eng.restart_memOk
    | exact Eng.putScratch_memOk _ _ ‹Eng.memOk _›
    | exact Eng.putParam_memOk _ _ ‹Eng.memOk _›
    | dsimp only
    | fail_if_no_progress with_reducible refine Keeps.upd ?_
    | split

/-- `State.issueCmd` keeps what `Keeps` says. -/
theorem State.issueCmd_keeps {z0 : State} {s : State} (d : DriveId) (c : DrvCmd) (k_s : Keeps kc z0 s) : Keeps kc z0 (State.issueCmd s d c) := by
  unfold State.issueCmd
  repeat' first
    | with_reducible assumption
    | with_reducible exact Keeps.refl _
    | with_reducible exact CuesKept.refl _
    | (with_reducible refine CuesKept.same ?_; rfl)
    | exact fun _ h => h
    | intro _
    | with_reducible refine Keeps.ite ?_ ?_
    | with_reducible refine Keeps.dite ?_ ?_
    | with_reducible refine Keeps.foldl ?_ _ _ ?_
    | with_reducible refine Keeps1.ite ?_ ?_
    | with_reducible refine Keeps1.mk ?_
    | with_reducible apply State.updDrive_keeps
    | with_reducible apply State.put_keeps
    | (refine Eng.memOk_of ‹Eng.memOk _› ?_ ?_ ?_ <;> first | rfl | (simp; done) | (split_ifs <;> simp; done))
    | with_reducible apply Eng.restart_memOk
    | exact Eng.putScratch_memOk _ _ ‹Eng.memOk _›
    | exact Eng.putParam_memOk _ _ ‹Eng.memOk _›
    | dsimp only
    | fail_if_no_progress with_reducible refine Keeps.upd ?_
    | split

/-- `State.mapCues` keeps what `Keeps` says. -/
theorem State.mapCues_keeps {z0 : State} {s : State} (f : Nat → Cue → Cue) (k_s : Keeps kc z0 s) : Keeps kc z0 (State.mapCues s f) := by
  unfold State.mapCues
  repeat' first
    | with_reducible assumption
    | with_reducible exact Keeps.refl _
    | with_reducible exact CuesKept.refl _
    | (with_reducible refine CuesKept.same ?_; rfl)
    | fail_if_no_progress with_reducible refine Keeps.putTks ?_ (CuesKept.same rfl)
    | with_reducible refine CuesKept.ite ?_ ?_
    | with_reducible exact CuesKept.map rfl (fun _ => rfl)
    | with_reducible exact CuesKept.insert rfl
    | (with_reducible refine CuesKept.map rfl (fun _ => ?_)); (split <;> rfl)
    | exact fun _ h => h
    | intro _
    | with_reducible refine Keeps.ite ?_ ?_
    | with_reducible refine Keeps.dite ?_ ?_
    | with_reducible refine Keeps.foldl ?_ _ _ ?_
    | with_reducible refine Keeps1.ite ?_ ?_
    | with_reducible refine Keeps1.mk ?_
    | with_reducible apply State.updTks_keeps
    | (refine Eng.memOk_of ‹Eng.memOk _› ?_ ?_ ?_ <;> first | rfl | (simp; done) | (split_ifs <;> simp; done))
    | with_reducible apply Eng.restart_memOk
    | exact Eng.putScratch_memOk _ _ ‹Eng.memOk _›
    | exact Eng.putParam_memOk _ _ ‹Eng.memOk _›
    | dsimp only
    | fail_if_no_progress with_reducible refine Keeps.upd ?_
    | split

/-- `State.loseCue` keeps what `Keeps` says. -/
theorem State.loseCue_keeps {z0 : State} {s : State} (n : Nat) (cause : Nat) (k_s : Keeps kc z0 s) : Keeps kc z0 (State.loseCue s n cause) := by
  unfold State.loseCue
  repeat' first
    | with_reducible assumption
    | with_reducible exact Keeps.refl _
    | with_reducible exact CuesKept.refl _
    | (with_reducible refine CuesKept.same ?_; rfl)
    | exact fun _ h => h
    | intro _
    | with_reducible refine Keeps.ite ?_ ?_
    | with_reducible refine Keeps.dite ?_ ?_
    | with_reducible refine Keeps.foldl ?_ _ _ ?_
    | with_reducible refine Keeps1.ite ?_ ?_
    | with_reducible refine Keeps1.mk ?_
    | with_reducible apply State.mapCues_keeps
    | with_reducible apply State.raise_keeps
    | (refine Eng.memOk_of ‹Eng.memOk _› ?_ ?_ ?_ <;> first | rfl | (simp; done) | (split_ifs <;> simp; done))
    | with_reducible apply Eng.restart_memOk
    | exact Eng.putScratch_memOk _ _ ‹Eng.memOk _›
    | exact Eng.putParam_memOk _ _ ‹Eng.memOk _›
    | dsimp only
    | fail_if_no_progress with_reducible refine Keeps.upd ?_
    | split

/-- `State.wholeMeta` keeps what `Keeps` says. -/
theorem State.wholeMeta_keeps {z0 : State} {s : State} (d : DriveId) (hdr : Bool) (k_s : Keeps kc z0 s) : Keeps kc z0 (State.wholeMeta s d hdr) := by
  unfold State.wholeMeta
  repeat' first
    | with_reducible assumption
    | with_reducible exact Keeps.refl _
    | with_reducible exact CuesKept.refl _
    | (with_reducible refine CuesKept.same ?_; rfl)
    | exact fun _ h => h
    | intro _
    | with_reducible refine Keeps.ite ?_ ?_
    | with_reducible refine Keeps.dite ?_ ?_
    | with_reducible refine Keeps.foldl ?_ _ _ ?_
    | with_reducible refine Keeps1.ite ?_ ?_
    | with_reducible refine Keeps1.mk ?_
    | with_reducible apply State.updDrive_keeps
    | with_reducible apply State.issueCmd_keeps
    | (refine Eng.memOk_of ‹Eng.memOk _› ?_ ?_ ?_ <;> first | rfl | (simp; done) | (split_ifs <;> simp; done))
    | with_reducible apply Eng.restart_memOk
    | exact Eng.putScratch_memOk _ _ ‹Eng.memOk _›
    | exact Eng.putParam_memOk _ _ ‹Eng.memOk _›
    | dsimp only
    | fail_if_no_progress with_reducible refine Keeps.upd ?_
    | split

end Sys2Proof.Machine
end

