-- ==== Sys2Proof/Laws/KeepsStore.lean ====
section
/-! SUPPORT. Every operation of Machine/Store.lean keeps what `Keeps` says. -/

set_option linter.unusedTactic false
set_option linter.unreachableTactic false

namespace Sys2Proof.Machine

variable {kc : Bool}

/-- `State.repin` keeps what `Keeps` says. -/
theorem State.repin_keeps {z0 : State} {s : State} (k_s : Keeps kc z0 s) : Keeps kc z0 (State.repin s) := by
  unfold State.repin
  repeat' first
    | with_reducible assumption
    | with_reducible exact Keeps.refl _
    | with_reducible exact CuesKept.refl _
    | (with_reducible refine CuesKept.same ?_; rfl)
    | fail_if_no_progress with_reducible refine Keeps.putTks ?_ (CuesKept.same rfl)
    | with_reducible refine CuesKept.ite ?_ ?_
    | with_reducible exact CuesKept.map rfl (fun _ => rfl)
    | with_reducible exact CuesKept.insert rfl
    | (with_reducible refine CuesKept.map rfl (fun _ => ?_)); (split <;> rfl)
    | exact fun _ h => h
    | intro _
    | with_reducible refine Keeps.ite ?_ ?_
    | with_reducible refine Keeps.dite ?_ ?_
    | with_reducible refine Keeps.foldl ?_ _ _ ?_
    | with_reducible refine Keeps1.ite ?_ ?_
    | with_reducible refine Keeps1.mk ?_
    | with_reducible apply State.updTks_keeps
    | with_reducible apply State.touch_keeps
    | (refine Eng.memOk_of ‹Eng.memOk _› ?_ ?_ ?_ <;> first | rfl | (simp; done) | (split_ifs <;> simp; done))
    | with_reducible apply Eng.restart_memOk
    | exact Eng.putScratch_memOk _ _ ‹Eng.memOk _›
    | exact Eng.putParam_memOk _ _ ‹Eng.memOk _›
    | dsimp only
    | fail_if_no_progress with_reducible refine Keeps.upd ?_
    | split

/-- `State.holdCues` keeps what `Keeps` says. -/
theorem State.holdCues_keeps {z0 : State} {s : State} (p : PortId) (line : Nat) (g : Nat) (k_s : Keeps kc z0 s) : Keeps kc z0 (State.holdCues s p line g) := by
  unfold State.holdCues
  repeat' first
    | with_reducible assumption
    | with_reducible exact Keeps.refl _
    | with_reducible exact CuesKept.refl _
    | (with_reducible refine CuesKept.same ?_; rfl)
    | exact fun _ h => h
    | intro _
    | with_reducible refine Keeps.ite ?_ ?_
    | with_reducible refine Keeps.dite ?_ ?_
    | with_reducible refine Keeps.foldl ?_ _ _ ?_
    | with_reducible refine Keeps1.ite ?_ ?_
    | with_reducible refine Keeps1.mk ?_
    | with_reducible apply State.mapCues_keeps
    | (refine Eng.memOk_of ‹Eng.memOk _› ?_ ?_ ?_ <;> first | rfl | (simp; done) | (split_ifs <;> simp; done))
    | with_reducible apply Eng.restart_memOk
    | exact Eng.putScratch_memOk _ _ ‹Eng.memOk _›
    | exact Eng.putParam_memOk _ _ ‹Eng.memOk _›
    | dsimp only
    | fail_if_no_progress with_reducible refine Keeps.upd ?_
    | split

/-- `State.writeChunk` keeps what `Keeps` says. -/
theorem State.writeChunk_keeps {z0 : State} {s : State} (g : Nat) (k : Nat) (k_s : Keeps kc z0 s) : Keeps kc z0 (State.writeChunk s g k) := by
  unfold State.writeChunk
  repeat' first
    | with_reducible assumption
    | with_reducible exact Keeps.refl _
    | with_reducible exact CuesKept.refl _
    | (with_reducible refine CuesKept.same ?_; rfl)
    | exact fun _ h => h
    | intro _
    | with_reducible refine Keeps.ite ?_ ?_
    | with_reducible refine Keeps.dite ?_ ?_
    | with_reducible refine Keeps.foldl ?_ _ _ ?_
    | with_reducible refine Keeps1.ite ?_ ?_
    | with_reducible refine Keeps1.mk ?_
    | with_reducible apply State.issueCmd_keeps
    | (refine Eng.memOk_of ‹Eng.memOk _› ?_ ?_ ?_ <;> first | rfl | (simp; done) | (split_ifs <;> simp; done))
    | with_reducible apply Eng.restart_memOk
    | exact Eng.putScratch_memOk _ _ ‹Eng.memOk _›
    | exact Eng.putParam_memOk _ _ ‹Eng.memOk _›
    | dsimp only
    | fail_if_no_progress with_reducible refine Keeps.upd ?_
    | split

/-- `State.writeUpTo` keeps what `Keeps` says. -/
theorem State.writeUpTo_keeps {z s : State} (g n : Nat) (h : Keeps kc z s) : Keeps kc z (State.writeUpTo s g n) := by
  induction n with
  | zero => exact h
  | succ n ih =>
    unfold State.writeUpTo
    dsimp only
    split
    · exact h
    · exact State.setSeg_keeps _ _ (State.writeChunk_keeps _ _ ih)

/-- `State.tryHeader` keeps what `Keeps` says. -/
theorem State.tryHeader_keeps {z0 : State} {s : State} (g : Nat) (k_s : Keeps kc z0 s) : Keeps kc z0 (State.tryHeader s g) := by
  unfold State.tryHeader
  repeat' first
    | with_reducible assumption
    | with_reducible exact Keeps.refl _
    | with_reducible exact CuesKept.refl _
    | (with_reducible refine CuesKept.same ?_; rfl)
    | exact fun _ h => h
    | intro _
    | with_reducible refine Keeps.ite ?_ ?_
    | with_reducible refine Keeps.dite ?_ ?_
    | with_reducible refine Keeps.foldl ?_ _ _ ?_
    | with_reducible refine Keeps1.ite ?_ ?_
    | with_reducible refine Keeps1.mk ?_
    | with_reducible apply State.setSeg_keeps
    | with_reducible apply State.writeChunk_keeps
    | (refine Eng.memOk_of ‹Eng.memOk _› ?_ ?_ ?_ <;> first | rfl | (simp; done) | (split_ifs <;> simp; done))
    | with_reducible apply Eng.restart_memOk
    | exact Eng.putScratch_memOk _ _ ‹Eng.memOk _›
    | exact Eng.putParam_memOk _ _ ‹Eng.memOk _›
    | dsimp only
    | fail_if_no_progress with_reducible refine Keeps.upd ?_
    | split

/-- `State.closeSeg` keeps what `Keeps` says. -/
theorem State.closeSeg_keeps {z0 : State} {s : State} (g : Nat) (code : Nat) (k_s : Keeps kc z0 s) : Keeps kc z0 (State.closeSeg s g code) := by
  unfold State.closeSeg
  repeat' first
    | with_reducible assumption
    | with_reducible exact Keeps.refl _
    | with_reducible exact CuesKept.refl _
    | (with_reducible refine CuesKept.same ?_; rfl)
    | exact fun _ h => h
    | intro _
    | with_reducible refine Keeps.ite ?_ ?_
    | with_reducible refine Keeps.dite ?_ ?_
    | with_reducible refine Keeps.foldl ?_ _ _ ?_
    | with_reducible refine Keeps1.ite ?_ ?_
    | with_reducible refine Keeps1.mk ?_
    | with_reducible apply State.setSeg_keeps
    | with_reducible apply State.code_keeps
    | with_reducible apply State.writeUpTo_keeps
    | with_reducible apply State.tryHeader_keeps
    | (refine Eng.memOk_of ‹Eng.memOk _› ?_ ?_ ?_ <;> first | rfl | (simp; done) | (split_ifs <;> simp; done))
    | with_reducible apply Eng.restart_memOk
    | exact Eng.putScratch_memOk _ _ ‹Eng.memOk _›
    | exact Eng.putParam_memOk _ _ ‹Eng.memOk _›
    | dsimp only
    | fail_if_no_progress with_reducible refine Keeps.upd ?_
    | split

/-- `State.closePort` keeps what `Keeps` says. -/
theorem State.closePort_keeps {z0 : State} {s : State} (p : PortId) (code : Nat) (k_s : Keeps kc z0 s) : Keeps kc z0 (State.closePort s p code) := by
  unfold State.closePort
  repeat' first
    | with_reducible assumption
    | with_reducible exact Keeps.refl _
    | with_reducible exact CuesKept.refl _
    | (with_reducible refine CuesKept.same ?_; rfl)
    | exact fun _ h => h
    | intro _
    | with_reducible refine Keeps.ite ?_ ?_
    | with_reducible refine Keeps.dite ?_ ?_
    | with_reducible refine Keeps.foldl ?_ _ _ ?_
    | with_reducible refine Keeps1.ite ?_ ?_
    | with_reducible refine Keeps1.mk ?_
    | with_reducible apply State.closeSeg_keeps
    | with_reducible apply State.code_keeps
    | with_reducible apply State.updTport_keeps
    | (refine Eng.memOk_of ‹Eng.memOk _› ?_ ?_ ?_ <;> first | rfl | (simp; done) | (split_ifs <;> simp; done))
    | with_reducible apply Eng.restart_memOk
    | exact Eng.putScratch_memOk _ _ ‹Eng.memOk _›
    | exact Eng.putParam_memOk _ _ ‹Eng.memOk _›
    | dsimp only
    | fail_if_no_progress with_reducible refine Keeps.upd ?_
    | split

/-- `State.closeDisabled` keeps what `Keeps` says. -/
theorem State.closeDisabled_keeps {z0 : State} {s : State} (p : PortId) (k_s : Keeps kc z0 s) : Keeps kc z0 (State.closeDisabled s p) := by
  unfold State.closeDisabled
  repeat' first
    | with_reducible assumption
    | with_reducible exact Keeps.refl _
    | with_reducible exact CuesKept.refl _
    | (with_reducible refine CuesKept.same ?_; rfl)
    | exact fun _ h => h
    | intro _
    | with_reducible refine Keeps.ite ?_ ?_
    | with_reducible refine Keeps.dite ?_ ?_
    | with_reducible refine Keeps.foldl ?_ _ _ ?_
    | with_reducible refine Keeps1.ite ?_ ?_
    | with_reducible refine Keeps1.mk ?_
    | with_reducible apply State.closePort_keeps
    | with_reducible apply State.tickFree_keeps
    | (refine Eng.memOk_of ‹Eng.memOk _› ?_ ?_ ?_ <;> first | rfl | (simp; done) | (split_ifs <;> simp; done))
    | with_reducible apply Eng.restart_memOk
    | exact Eng.putScratch_memOk _ _ ‹Eng.memOk _›
    | exact Eng.putParam_memOk _ _ ‹Eng.memOk _›
    | dsimp only
    | fail_if_no_progress with_reducible refine Keeps.upd ?_
    | split

/-- `State.copied` keeps what `Keeps` says. -/
theorem State.copied_keeps {z0 : State} {s : State} (c : Fin 2) (k_s : Keeps kc z0 s) : Keeps kc z0 (State.copied s c) := by
  unfold State.copied
  repeat' first
    | with_reducible assumption
    | with_reducible exact Keeps.refl _
    | with_reducible exact CuesKept.refl _
    | (with_reducible refine CuesKept.same ?_; rfl)
    | fail_if_no_progress with_reducible refine Keeps.putTks ?_ (CuesKept.same rfl)
    | with_reducible refine CuesKept.ite ?_ ?_
    | with_reducible exact CuesKept.map rfl (fun _ => rfl)
    | with_reducible exact CuesKept.insert rfl
    | (with_reducible refine CuesKept.map rfl (fun _ => ?_)); (split <;> rfl)
    | exact fun _ h => h
    | intro _
    | with_reducible refine Keeps.ite ?_ ?_
    | with_reducible refine Keeps.dite ?_ ?_
    | with_reducible refine Keeps.foldl ?_ _ _ ?_
    | with_reducible refine Keeps1.ite ?_ ?_
    | with_reducible refine Keeps1.mk ?_
    | with_reducible apply State.updDrive_keeps
    | with_reducible apply State.updTks_keeps
    | (refine Eng.memOk_of ‹Eng.memOk _› ?_ ?_ ?_ <;> first | rfl | (simp; done) | (split_ifs <;> simp; done))
    | with_reducible apply Eng.restart_memOk
    | exact Eng.putScratch_memOk _ _ ‹Eng.memOk _›
    | exact Eng.putParam_memOk _ _ ‹Eng.memOk _›
    | dsimp only
    | fail_if_no_progress with_reducible refine Keeps.upd ?_
    | split

/-- `State.ckptStep` keeps what `Keeps` says. -/
theorem State.ckptStep_keeps {z0 : State} {s : State} (step : Nat) (k_s : Keeps kc z0 s) : Keeps kc z0 (State.ckptStep s step) := by
  unfold State.ckptStep
  repeat' first
    | with_reducible assumption
    | with_reducible exact Keeps.refl _
    | with_reducible exact CuesKept.refl _
    | (with_reducible refine CuesKept.same ?_; rfl)
    | exact fun _ h => h
    | intro _
    | with_reducible refine Keeps.ite ?_ ?_
    | with_reducible refine Keeps.dite ?_ ?_
    | with_reducible refine Keeps.foldl ?_ _ _ ?_
    | with_reducible refine Keeps1.ite ?_ ?_
    | with_reducible refine Keeps1.mk ?_
    | with_reducible apply State.issueCmd_keeps
    | with_reducible apply State.copied_keeps
    | (refine Eng.memOk_of ‹Eng.memOk _› ?_ ?_ ?_ <;> first | rfl | (simp; done) | (split_ifs <;> simp; done))
    | with_reducible apply Eng.restart_memOk
    | exact Eng.putScratch_memOk _ _ ‹Eng.memOk _›
    | exact Eng.putParam_memOk _ _ ‹Eng.memOk _›
    | dsimp only
    | fail_if_no_progress with_reducible refine Keeps.upd ?_
    | split

/-- `State.checkpoint` keeps what `Keeps` says. -/
theorem State.checkpoint_keeps {z0 : State} {s : State} (k_s : Keeps kc z0 s) : Keeps kc z0 (State.checkpoint s) := by
  unfold State.checkpoint
  repeat' first
    | with_reducible assumption
    | with_reducible exact Keeps.refl _
    | with_reducible exact CuesKept.refl _
    | (with_reducible refine CuesKept.same ?_; rfl)
    | fail_if_no_progress with_reducible refine Keeps.putTks ?_ (CuesKept.same rfl)
    | with_reducible refine CuesKept.ite ?_ ?_
    | with_reducible exact CuesKept.map rfl (fun _ => rfl)
    | with_reducible exact CuesKept.insert rfl
    | (with_reducible refine CuesKept.map rfl (fun _ => ?_)); (split <;> rfl)
    | exact fun _ h => h
    | intro _
    | with_reducible refine Keeps.ite ?_ ?_
    | with_reducible refine Keeps.dite ?_ ?_
    | with_reducible refine Keeps.foldl ?_ _ _ ?_
    | with_reducible refine Keeps1.ite ?_ ?_
    | with_reducible refine Keeps1.mk ?_
    | with_reducible apply State.updTks_keeps
    | with_reducible apply State.ckptStep_keeps
    | (refine Eng.memOk_of ‹Eng.memOk _› ?_ ?_ ?_ <;> first | rfl | (simp; done) | (split_ifs <;> simp; done))
    | with_reducible apply Eng.restart_memOk
    | exact Eng.putScratch_memOk _ _ ‹Eng.memOk _›
    | exact Eng.putParam_memOk _ _ ‹Eng.memOk _›
    | dsimp only
    | fail_if_no_progress with_reducible refine Keeps.upd ?_
    | split

/-- `State.ckptNext` keeps what `Keeps` says. -/
theorem State.ckptNext_keeps {z0 : State} {s : State} (k_s : Keeps kc z0 s) : Keeps kc z0 (State.ckptNext s) := by
  unfold State.ckptNext
  repeat' first
    | with_reducible assumption
    | with_reducible exact Keeps.refl _
    | with_reducible exact CuesKept.refl _
    | (with_reducible refine CuesKept.same ?_; rfl)
    | fail_if_no_progress with_reducible refine Keeps.putTks ?_ (CuesKept.same rfl)
    | with_reducible refine CuesKept.ite ?_ ?_
    | with_reducible exact CuesKept.map rfl (fun _ => rfl)
    | with_reducible exact CuesKept.insert rfl
    | (with_reducible refine CuesKept.map rfl (fun _ => ?_)); (split <;> rfl)
    | exact fun _ h => h
    | intro _
    | with_reducible refine Keeps.ite ?_ ?_
    | with_reducible refine Keeps.dite ?_ ?_
    | with_reducible refine Keeps.foldl ?_ _ _ ?_
    | with_reducible refine Keeps1.ite ?_ ?_
    | with_reducible refine Keeps1.mk ?_
    | with_reducible apply State.updTks_keeps
    | with_reducible apply State.ckptStep_keeps
    | with_reducible apply State.checkpoint_keeps
    | (refine Eng.memOk_of ‹Eng.memOk _› ?_ ?_ ?_ <;> first | rfl | (simp; done) | (split_ifs <;> simp; done))
    | with_reducible apply Eng.restart_memOk
    | exact Eng.putScratch_memOk _ _ ‹Eng.memOk _›
    | exact Eng.putParam_memOk _ _ ‹Eng.memOk _›
    | dsimp only
    | fail_if_no_progress with_reducible refine Keeps.upd ?_
    | split

/-- `State.stream3` keeps what `Keeps` says. -/
theorem State.stream3_keeps {z0 : State} {s : State} (p : PortId) (r : Rec) (lost : Nat) (k_s : Keeps kc z0 s) : Keeps1 kc z0 (State.stream3 s p r lost) := by
  unfold State.stream3
  repeat' first
    | with_reducible assumption
    | with_reducible exact Keeps.refl _
    | with_reducible exact CuesKept.refl _
    | (with_reducible refine CuesKept.same ?_; rfl)
    | exact fun _ h => h
    | intro _
    | with_reducible refine Keeps.ite ?_ ?_
    | with_reducible refine Keeps.dite ?_ ?_
    | with_reducible refine Keeps.foldl ?_ _ _ ?_
    | with_reducible refine Keeps1.ite ?_ ?_
    | with_reducible refine Keeps1.mk ?_
    | with_reducible apply State.chanWrite_keeps
    | with_reducible apply State.chanNoRoom_keeps
    | (refine Eng.memOk_of ‹Eng.memOk _› ?_ ?_ ?_ <;> first | rfl | (simp; done) | (split_ifs <;> simp; done))
    | with_reducible apply Eng.restart_memOk
    | exact Eng.putScratch_memOk _ _ ‹Eng.memOk _›
    | exact Eng.putParam_memOk _ _ ‹Eng.memOk _›
    | dsimp only
    | fail_if_no_progress with_reducible refine Keeps.upd ?_
    | split

/-- `State.setRewind` keeps what `Keeps` says. -/
theorem State.setRewind_keeps {z0 : State} {s : State} (p : PortId) (r : Option Rewind) (k_s : Keeps kc z0 s) : Keeps kc z0 (State.setRewind s p r) := by
  unfold State.setRewind
  repeat' first
    | with_reducible assumption
    | with_reducible exact Keeps.refl _
    | with_reducible exact CuesKept.refl _
    | (with_reducible refine CuesKept.same ?_; rfl)
    | exact fun _ h => h
    | intro _
    | with_reducible refine Keeps.ite ?_ ?_
    | with_reducible refine Keeps.dite ?_ ?_
    | with_reducible refine Keeps.foldl ?_ _ _ ?_
    | with_reducible refine Keeps1.ite ?_ ?_
    | with_reducible refine Keeps1.mk ?_
    | with_reducible apply State.updTport_keeps
    | (refine Eng.memOk_of ‹Eng.memOk _› ?_ ?_ ?_ <;> first | rfl | (simp; done) | (split_ifs <;> simp; done))
    | with_reducible apply Eng.restart_memOk
    | exact Eng.putScratch_memOk _ _ ‹Eng.memOk _›
    | exact Eng.putParam_memOk _ _ ‹Eng.memOk _›
    | dsimp only
    | fail_if_no_progress with_reducible refine Keeps.upd ?_
    | split

/-- `State.rewindEnd` keeps what `Keeps` says. -/
theorem State.rewindEnd_keeps {z0 : State} {s : State} (p : PortId) (cause : Nat) (k_s : Keeps kc z0 s) : Keeps kc z0 (State.rewindEnd s p cause) := by
  unfold State.rewindEnd
  repeat' first
    | with_reducible assumption
    | with_reducible exact Keeps.refl _
    | with_reducible exact CuesKept.refl _
    | (with_reducible refine CuesKept.same ?_; rfl)
    | exact fun _ h => h
    | intro _
    | with_reducible refine Keeps.ite ?_ ?_
    | with_reducible refine Keeps.dite ?_ ?_
    | with_reducible refine Keeps.foldl ?_ _ _ ?_
    | with_reducible refine Keeps1.ite ?_ ?_
    | with_reducible refine Keeps1.mk ?_
    | with_reducible apply State.setRewind_keeps
    | with_reducible apply State.stream3_keeps
    | with_reducible apply State.tickFree_keeps
    | with_reducible apply State.rewindOver_keeps
    | (with_reducible refine Keeps1.fst ?_; with_reducible assumption)
    | (with_reducible refine Keeps1.fst ?_; with_reducible first | apply State.stream3_keeps | refine Keeps1.foldl ?_ _ _ ?_)
    | (refine Eng.memOk_of ‹Eng.memOk _› ?_ ?_ ?_ <;> first | rfl | (simp; done) | (split_ifs <;> simp; done))
    | with_reducible apply Eng.restart_memOk
    | exact Eng.putScratch_memOk _ _ ‹Eng.memOk _›
    | exact Eng.putParam_memOk _ _ ‹Eng.memOk _›
    | dsimp only
    | fail_if_no_progress with_reducible refine Keeps.upd ?_
    | split

/-- `State.rewindsEnd` keeps what `Keeps` says. -/
theorem State.rewindsEnd_keeps {z0 : State} {s : State} (cause : Nat) (k_s : Keeps kc z0 s) : Keeps kc z0 (State.rewindsEnd s cause) := by
  unfold State.rewindsEnd
  repeat' first
    | with_reducible assumption
    | with_reducible exact Keeps.refl _
    | with_reducible exact CuesKept.refl _
    | (with_reducible refine CuesKept.same ?_; rfl)
    | exact fun _ h => h
    | intro _
    | with_reducible refine Keeps.ite ?_ ?_
    | with_reducible refine Keeps.dite ?_ ?_
    | with_reducible refine Keeps.foldl ?_ _ _ ?_
    | with_reducible refine Keeps1.ite ?_ ?_
    | with_reducible refine Keeps1.mk ?_
    | with_reducible apply State.rewindEnd_keeps
    | (refine Eng.memOk_of ‹Eng.memOk _› ?_ ?_ ?_ <;> first | rfl | (simp; done) | (split_ifs <;> simp; done))
    | with_reducible apply Eng.restart_memOk
    | exact Eng.putScratch_memOk _ _ ‹Eng.memOk _›
    | exact Eng.putParam_memOk _ _ ‹Eng.memOk _›
    | dsimp only
    | fail_if_no_progress with_reducible refine Keeps.upd ?_
    | split

/-- `State.readNext` keeps what `Keeps` says. -/
theorem State.readNext_keeps {z0 : State} {s : State} (p : PortId) (k_s : Keeps kc z0 s) : Keeps kc z0 (State.readNext s p) := by
  unfold State.readNext
  repeat' first
    | with_reducible assumption
    | with_reducible exact Keeps.refl _
    | with_reducible exact CuesKept.refl _
    | (with_reducible refine CuesKept.same ?_; rfl)
    | exact fun _ h => h
    | intro _
    | with_reducible refine Keeps.ite ?_ ?_
    | with_reducible refine Keeps.dite ?_ ?_
    | with_reducible refine Keeps.foldl ?_ _ _ ?_
    | with_reducible refine Keeps1.ite ?_ ?_
    | with_reducible refine Keeps1.mk ?_
    | with_reducible apply State.issueCmd_keeps
    | (refine Eng.memOk_of ‹Eng.memOk _› ?_ ?_ ?_ <;> first | rfl | (simp; done) | (split_ifs <;> simp; done))
    | with_reducible apply Eng.restart_memOk
    | exact Eng.putScratch_memOk _ _ ‹Eng.memOk _›
    | exact Eng.putParam_memOk _ _ ‹Eng.memOk _›
    | dsimp only
    | fail_if_no_progress with_reducible refine Keeps.upd ?_
    | split

/-- `State.discard` keeps what `Keeps` says. -/
theorem State.discard_keeps {z0 : State} {t : State} {s : State} (mine : List (Nat × Seg)) (k_t : Keeps kc z0 t) (k_s : Keeps kc z0 s) : Keeps kc z0 (State.discard t s mine) := by
  unfold State.discard
  repeat' first
    | with_reducible assumption
    | with_reducible exact Keeps.refl _
    | with_reducible exact CuesKept.refl _
    | (with_reducible refine CuesKept.same ?_; rfl)
    | exact fun _ h => h
    | intro _
    | with_reducible refine Keeps.ite ?_ ?_
    | with_reducible refine Keeps.dite ?_ ?_
    | with_reducible refine Keeps.foldl ?_ _ _ ?_
    | with_reducible refine Keeps1.ite ?_ ?_
    | with_reducible refine Keeps1.mk ?_
    | with_reducible apply State.updTport_keeps
    | (refine Eng.memOk_of ‹Eng.memOk _› ?_ ?_ ?_ <;> first | rfl | (simp; done) | (split_ifs <;> simp; done))
    | with_reducible apply Eng.restart_memOk
    | exact Eng.putScratch_memOk _ _ ‹Eng.memOk _›
    | exact Eng.putParam_memOk _ _ ‹Eng.memOk _›
    | dsimp only
    | fail_if_no_progress with_reducible refine Keeps.upd ?_
    | split

/-- `State.driveFail` keeps what `Keeps` says. -/
theorem State.driveFail_keeps {z0 : State} {s : State} (d : DriveId) (cause : Nat) (k_s : Keeps kc z0 s) : Keeps kc z0 (State.driveFail s d cause) := by
  unfold State.driveFail
  repeat' first
    | with_reducible assumption
    | with_reducible exact Keeps.refl _
    | with_reducible exact CuesKept.refl _
    | (with_reducible refine CuesKept.same ?_; rfl)
    | fail_if_no_progress with_reducible refine Keeps.putTks ?_ (CuesKept.same rfl)
    | with_reducible refine CuesKept.ite ?_ ?_
    | with_reducible exact CuesKept.map rfl (fun _ => rfl)
    | with_reducible exact CuesKept.insert rfl
    | (with_reducible refine CuesKept.map rfl (fun _ => ?_)); (split <;> rfl)
    | exact fun _ h => h
    | intro _
    | with_reducible refine Keeps.ite ?_ ?_
    | with_reducible refine Keeps.dite ?_ ?_
    | with_reducible refine Keeps.foldl ?_ _ _ ?_
    | with_reducible refine Keeps1.ite ?_ ?_
    | with_reducible refine Keeps1.mk ?_
    | with_reducible apply State.updTks_keeps
    | with_reducible apply State.nvme_keeps
    | with_reducible apply State.updDrive_keeps
    | with_reducible apply State.touchDrive_keeps
    | with_reducible apply State.raise_keeps
    | with_reducible apply State.loseCue_keeps
    | with_reducible apply State.discard_keeps
    | with_reducible apply State.rewindsEnd_keeps
    | with_reducible apply State.ckptNext_keeps
    | with_reducible apply State.checkpoint_keeps
    | with_reducible apply State.detect_keeps
    | with_reducible apply State.code_keeps
    | (refine Eng.memOk_of ‹Eng.memOk _› ?_ ?_ ?_ <;> first | rfl | (simp; done) | (split_ifs <;> simp; done))
    | with_reducible apply Eng.restart_memOk
    | exact Eng.putScratch_memOk _ _ ‹Eng.memOk _›
    | exact Eng.putParam_memOk _ _ ‹Eng.memOk _›
    | dsimp only
    | fail_if_no_progress with_reducible refine Keeps.upd ?_
    | split

/-- `State.segLost` keeps what `Keeps` says. -/
theorem State.segLost_keeps {z0 : State} {s : State} (g : Nat) (k_s : Keeps kc z0 s) : Keeps kc z0 (State.segLost s g) := by
  unfold State.segLost
  repeat' first
    | with_reducible assumption
    | with_reducible exact Keeps.refl _
    | with_reducible exact CuesKept.refl _
    | (with_reducible refine CuesKept.same ?_; rfl)
    | exact fun _ h => h
    | intro _
    | with_reducible refine Keeps.ite ?_ ?_
    | with_reducible refine Keeps.dite ?_ ?_
    | with_reducible refine Keeps.foldl ?_ _ _ ?_
    | with_reducible refine Keeps1.ite ?_ ?_
    | with_reducible refine Keeps1.mk ?_
    | with_reducible apply State.setSeg_keeps
    | with_reducible apply State.loseCue_keeps
    | (refine Eng.memOk_of ‹Eng.memOk _› ?_ ?_ ?_ <;> first | rfl | (simp; done) | (split_ifs <;> simp; done))
    | with_reducible apply Eng.restart_memOk
    | exact Eng.putScratch_memOk _ _ ‹Eng.memOk _›
    | exact Eng.putParam_memOk _ _ ‹Eng.memOk _›
    | dsimp only
    | fail_if_no_progress with_reducible refine Keeps.upd ?_
    | split

/-- `State.pressure` keeps what `Keeps` says. -/
theorem State.pressure_keeps {z : State} (n : Nat) {s : State} (h : Keeps kc z s) : Keeps kc z (State.pressure s n) := by
  induction n generalizing s with
  | zero => exact h
  | succ n ih =>
    unfold State.pressure
    split
    · exact h
    · split
      · exact h
      · exact ih (State.raise_keeps _ _ (State.updTport_keeps _ _ (State.closePort_keeps _ _ h)))

/-- `State.resumeOne` keeps what `Keeps` says. -/
theorem State.resumeOne_keeps {z0 : State} {s : State} (k_s : Keeps kc z0 s) : Keeps kc z0 (State.resumeOne s) := by
  unfold State.resumeOne
  repeat' first
    | with_reducible assumption
    | with_reducible exact Keeps.refl _
    | with_reducible exact CuesKept.refl _
    | (with_reducible refine CuesKept.same ?_; rfl)
    | exact fun _ h => h
    | intro _
    | with_reducible refine Keeps.ite ?_ ?_
    | with_reducible refine Keeps.dite ?_ ?_
    | with_reducible refine Keeps.foldl ?_ _ _ ?_
    | with_reducible refine Keeps1.ite ?_ ?_
    | with_reducible refine Keeps1.mk ?_
    | with_reducible apply State.updTport_keeps
    | with_reducible apply State.raise_keeps
    | (refine Eng.memOk_of ‹Eng.memOk _› ?_ ?_ ?_ <;> first | rfl | (simp; done) | (split_ifs <;> simp; done))
    | with_reducible apply Eng.restart_memOk
    | exact Eng.putScratch_memOk _ _ ‹Eng.memOk _›
    | exact Eng.putParam_memOk _ _ ‹Eng.memOk _›
    | dsimp only
    | fail_if_no_progress with_reducible refine Keeps.upd ?_
    | split

/-- `State.allocate` keeps what `Keeps` says. -/
theorem State.allocate_keeps {z0 : State} {s : State} (p : PortId) (k_s : Keeps kc z0 s) : Keeps kc z0 (State.allocate s p) := by
  unfold State.allocate
  repeat' first
    | with_reducible assumption
    | with_reducible exact Keeps.refl _
    | with_reducible exact CuesKept.refl _
    | (with_reducible refine CuesKept.same ?_; rfl)
    | fail_if_no_progress with_reducible refine Keeps.putTks ?_ (CuesKept.same rfl)
    | with_reducible refine CuesKept.ite ?_ ?_
    | with_reducible exact CuesKept.map rfl (fun _ => rfl)
    | with_reducible exact CuesKept.insert rfl
    | (with_reducible refine CuesKept.map rfl (fun _ => ?_)); (split <;> rfl)
    | exact fun _ h => h
    | intro _
    | with_reducible refine Keeps.ite ?_ ?_
    | with_reducible refine Keeps.dite ?_ ?_
    | with_reducible refine Keeps.foldl ?_ _ _ ?_
    | with_reducible refine Keeps1.ite ?_ ?_
    | with_reducible refine Keeps1.mk ?_
    | with_reducible apply State.resumeOne_keeps
    | with_reducible apply State.pressure_keeps
    | with_reducible apply State.loseCue_keeps
    | with_reducible apply State.issueCmd_keeps
    | with_reducible apply State.setSeg_keeps
    | with_reducible apply State.updTks_keeps
    | with_reducible apply State.updTport_keeps
    | (refine Eng.memOk_of ‹Eng.memOk _› ?_ ?_ ?_ <;> first | rfl | (simp; done) | (split_ifs <;> simp; done))
    | with_reducible apply Eng.restart_memOk
    | exact Eng.putScratch_memOk _ _ ‹Eng.memOk _›
    | exact Eng.putParam_memOk _ _ ‹Eng.memOk _›
    | dsimp only
    | fail_if_no_progress with_reducible refine Keeps.upd ?_
    | split

/-- `State.tksDrop` keeps what `Keeps` says. -/
theorem State.tksDrop_keeps {z0 : State} {s : State} (p : PortId) (r : Rec) (kind : Nat) (k_s : Keeps kc z0 s) : Keeps kc z0 (State.tksDrop s p r kind) := by
  unfold State.tksDrop
  repeat' first
    | with_reducible assumption
    | with_reducible exact Keeps.refl _
    | with_reducible exact CuesKept.refl _
    | (with_reducible refine CuesKept.same ?_; rfl)
    | exact fun _ h => h
    | intro _
    | with_reducible refine Keeps.ite ?_ ?_
    | with_reducible refine Keeps.dite ?_ ?_
    | with_reducible refine Keeps.foldl ?_ _ _ ?_
    | with_reducible refine Keeps1.ite ?_ ?_
    | with_reducible refine Keeps1.mk ?_
    | with_reducible apply State.updTport_keeps
    | with_reducible apply State.incRf_keeps
    | with_reducible apply State.raise_keeps
    | (refine Eng.memOk_of ‹Eng.memOk _› ?_ ?_ ?_ <;> first | rfl | (simp; done) | (split_ifs <;> simp; done))
    | with_reducible apply Eng.restart_memOk
    | exact Eng.putScratch_memOk _ _ ‹Eng.memOk _›
    | exact Eng.putParam_memOk _ _ ‹Eng.memOk _›
    | dsimp only
    | fail_if_no_progress with_reducible refine Keeps.upd ?_
    | split

/-- `State.placeRec` keeps what `Keeps` says. -/
theorem State.placeRec_keeps {z0 : State} {s : State} (p : PortId) (g : Nat) (r : Rec) (lost : Nat) (k_s : Keeps kc z0 s) : Keeps kc z0 (State.placeRec s p g r lost) := by
  unfold State.placeRec
  repeat' first
    | with_reducible assumption
    | with_reducible exact Keeps.refl _
    | with_reducible exact CuesKept.refl _
    | (with_reducible refine CuesKept.same ?_; rfl)
    | fail_if_no_progress with_reducible refine Keeps.putTks ?_ (CuesKept.same rfl)
    | with_reducible refine CuesKept.ite ?_ ?_
    | with_reducible exact CuesKept.map rfl (fun _ => rfl)
    | with_reducible exact CuesKept.insert rfl
    | (with_reducible refine CuesKept.map rfl (fun _ => ?_)); (split <;> rfl)
    | exact fun _ h => h
    | intro _
    | with_reducible refine Keeps.ite ?_ ?_
    | with_reducible refine Keeps.dite ?_ ?_
    | with_reducible refine Keeps.foldl ?_ _ _ ?_
    | with_reducible refine Keeps1.ite ?_ ?_
    | with_reducible refine Keeps1.mk ?_
    | with_reducible apply State.record_keeps
    | with_reducible apply State.setSeg_keeps
    | with_reducible apply State.updTks_keeps
    | with_reducible apply State.updTport_keeps
    | with_reducible apply State.writeUpTo_keeps
    | with_reducible apply State.holdCues_keeps
    | (refine Eng.memOk_of ‹Eng.memOk _› ?_ ?_ ?_ <;> first | rfl | (simp; done) | (split_ifs <;> simp; done))
    | with_reducible apply Eng.restart_memOk
    | exact Eng.putScratch_memOk _ _ ‹Eng.memOk _›
    | exact Eng.putParam_memOk _ _ ‹Eng.memOk _›
    | dsimp only
    | fail_if_no_progress with_reducible refine Keeps.upd ?_
    | split

/-- `State.record` keeps what `Keeps` says. -/
theorem State.record_keeps {z0 : State} {s : State} (p : PortId) (r : Rec) (exceeds : Bool) (k_s : Keeps kc z0 s) : Keeps kc z0 (State.record s p r exceeds) := by
  unfold State.record
  repeat' first
    | with_reducible assumption
    | with_reducible exact Keeps.refl _
    | with_reducible exact CuesKept.refl _
    | (with_reducible refine CuesKept.same ?_; rfl)
    | exact fun _ h => h
    | intro _
    | with_reducible refine Keeps.ite ?_ ?_
    | with_reducible refine Keeps.dite ?_ ?_
    | with_reducible refine Keeps.foldl ?_ _ _ ?_
    | with_reducible refine Keeps1.ite ?_ ?_
    | with_reducible refine Keeps1.mk ?_
    | with_reducible apply State.tksDrop_keeps
    | with_reducible apply State.updTport_keeps
    | with_reducible apply State.closePort_keeps
    | with_reducible apply State.allocate_keeps
    | with_reducible apply State.placeRec_keeps
    | with_reducible apply State.updPort_keeps
    | (refine Eng.memOk_of ‹Eng.memOk _› ?_ ?_ ?_ <;> first | rfl | (simp; done) | (split_ifs <;> simp; done))
    | with_reducible apply Eng.restart_memOk
    | exact Eng.putScratch_memOk _ _ ‹Eng.memOk _›
    | exact Eng.putParam_memOk _ _ ‹Eng.memOk _›
    | dsimp only
    | fail_if_no_progress with_reducible refine Keeps.upd ?_
    | split

/-- `execRecordEmission` keeps what `Keeps` says. -/
theorem execRecordEmission_keeps (p : PortId) (dest : Fin 4) (exceeds : Bool) (s : State) : OutKeeps kc s (execRecordEmission p dest exceeds s) := by
  unfold execRecordEmission
  repeat' first
    | with_reducible assumption
    | with_reducible exact Keeps.refl _
    | with_reducible exact CuesKept.refl _
    | (with_reducible refine CuesKept.same ?_; rfl)
    | exact fun _ h => h
    | intro _
    | with_reducible refine OutKeeps.ite ?_ ?_
    | with_reducible refine OutKeeps.next ?_
    | with_reducible refine Keeps.ite ?_ ?_
    | with_reducible refine Keeps.dite ?_ ?_
    | with_reducible refine Keeps.foldl ?_ _ _ ?_
    | with_reducible refine Keeps1.ite ?_ ?_
    | with_reducible refine Keeps1.mk ?_
    | with_reducible apply State.emitStream_keeps
    | with_reducible apply State.updPort_keeps
    | with_reducible apply State.record_keeps
    | (refine Eng.memOk_of ‹Eng.memOk _› ?_ ?_ ?_ <;> first | rfl | (simp; done) | (split_ifs <;> simp; done))
    | with_reducible apply Eng.restart_memOk
    | exact Eng.putScratch_memOk _ _ ‹Eng.memOk _›
    | exact Eng.putParam_memOk _ _ ‹Eng.memOk _›
    | dsimp only
    | fail_if_no_progress with_reducible refine Keeps.upd ?_
    | split

/-- `State.drvLink` keeps what `Keeps` says. -/
theorem State.drvLink_keeps {z0 : State} {s : State} (d : DriveId) (rate : Nat) (width : Nat) (k_s : Keeps kc z0 s) : Keeps kc z0 (State.drvLink s d rate width) := by
  unfold State.drvLink
  repeat' first
    | with_reducible assumption
    | with_reducible exact Keeps.refl _
    | with_reducible exact CuesKept.refl _
    | (with_reducible refine CuesKept.same ?_; rfl)
    | exact fun _ h => h
    | intro _
    | with_reducible refine Keeps.ite ?_ ?_
    | with_reducible refine Keeps.dite ?_ ?_
    | with_reducible refine Keeps.foldl ?_ _ _ ?_
    | with_reducible refine Keeps1.ite ?_ ?_
    | with_reducible refine Keeps1.mk ?_
    | with_reducible apply State.setRf_keeps
    | (refine Eng.memOk_of ‹Eng.memOk _› ?_ ?_ ?_ <;> first | rfl | (simp; done) | (split_ifs <;> simp; done))
    | with_reducible apply Eng.restart_memOk
    | exact Eng.putScratch_memOk _ _ ‹Eng.memOk _›
    | exact Eng.putParam_memOk _ _ ‹Eng.memOk _›
    | dsimp only
    | fail_if_no_progress with_reducible refine Keeps.upd ?_
    | split

/-- `execDriveLinkUp` keeps what `Keeps` says. -/
theorem execDriveLinkUp_keeps (d : DriveId) (rate : Nat) (width : Nat) (s : State) : OutKeeps kc s (execDriveLinkUp d rate width s) := by
  unfold execDriveLinkUp
  repeat' first
    | with_reducible assumption
    | with_reducible exact Keeps.refl _
    | with_reducible exact CuesKept.refl _
    | (with_reducible refine CuesKept.same ?_; rfl)
    | exact fun _ h => h
    | intro _
    | with_reducible refine OutKeeps.ite ?_ ?_
    | with_reducible refine OutKeeps.next ?_
    | with_reducible refine Keeps.ite ?_ ?_
    | with_reducible refine Keeps.dite ?_ ?_
    | with_reducible refine Keeps.foldl ?_ _ _ ?_
    | with_reducible refine Keeps1.ite ?_ ?_
    | with_reducible refine Keeps1.mk ?_
    | with_reducible apply State.nvme_keeps
    | with_reducible apply State.updDrive_keeps
    | with_reducible apply State.drvLink_keeps
    | (refine Eng.memOk_of ‹Eng.memOk _› ?_ ?_ ?_ <;> first | rfl | (simp; done) | (split_ifs <;> simp; done))
    | with_reducible apply Eng.restart_memOk
    | exact Eng.putScratch_memOk _ _ ‹Eng.memOk _›
    | exact Eng.putParam_memOk _ _ ‹Eng.memOk _›
    | dsimp only
    | fail_if_no_progress with_reducible refine Keeps.upd ?_
    | split

/-- `execDriveReady` keeps what `Keeps` says. -/
theorem execDriveReady_keeps (d : DriveId) (ns : Option Nat) (lba : Nat) (plain : Bool) (mdts : Nat) (qmax : Nat) (hdr : Option StoreHdr) (s : State) : OutKeeps kc s (execDriveReady d ns lba plain mdts qmax hdr s) := by
  unfold execDriveReady
  repeat' first
    | with_reducible assumption
    | with_reducible exact Keeps.refl _
    | with_reducible exact CuesKept.refl _
    | (with_reducible refine CuesKept.same ?_; rfl)
    | exact fun _ h => h
    | intro _
    | with_reducible refine OutKeeps.ite ?_ ?_
    | with_reducible refine OutKeeps.next ?_
    | with_reducible refine Keeps.ite ?_ ?_
    | with_reducible refine Keeps.dite ?_ ?_
    | with_reducible refine Keeps.foldl ?_ _ _ ?_
    | with_reducible refine Keeps1.ite ?_ ?_
    | with_reducible refine Keeps1.mk ?_
    | with_reducible apply State.plain_keeps
    | with_reducible apply State.setRf_keeps
    | with_reducible apply State.updDrive_keeps
    | with_reducible apply State.nvme_keeps
    | (refine Eng.memOk_of ‹Eng.memOk _› ?_ ?_ ?_ <;> first | rfl | (simp; done) | (split_ifs <;> simp; done))
    | with_reducible apply Eng.restart_memOk
    | exact Eng.putScratch_memOk _ _ ‹Eng.memOk _›
    | exact Eng.putParam_memOk _ _ ‹Eng.memOk _›
    | dsimp only
    | fail_if_no_progress with_reducible refine Keeps.upd ?_
    | split

/-- `execDriveLinkDown` keeps what `Keeps` says. -/
theorem execDriveLinkDown_keeps (d : DriveId) (fatal : Bool) (s : State) : OutKeeps kc s (execDriveLinkDown d fatal s) := by
  unfold execDriveLinkDown
  repeat' first
    | with_reducible assumption
    | with_reducible exact Keeps.refl _
    | with_reducible exact CuesKept.refl _
    | (with_reducible refine CuesKept.same ?_; rfl)
    | exact fun _ h => h
    | intro _
    | with_reducible refine OutKeeps.ite ?_ ?_
    | with_reducible refine OutKeeps.next ?_
    | with_reducible refine Keeps.ite ?_ ?_
    | with_reducible refine Keeps.dite ?_ ?_
    | with_reducible refine Keeps.foldl ?_ _ _ ?_
    | with_reducible refine Keeps1.ite ?_ ?_
    | with_reducible refine Keeps1.mk ?_
    | with_reducible apply State.drvLink_keeps
    | with_reducible apply State.driveFail_keeps
    | with_reducible apply State.updDrive_keeps
    | (refine Eng.memOk_of ‹Eng.memOk _› ?_ ?_ ?_ <;> first | rfl | (simp; done) | (split_ifs <;> simp; done))
    | with_reducible apply Eng.restart_memOk
    | exact Eng.putScratch_memOk _ _ ‹Eng.memOk _›
    | exact Eng.putParam_memOk _ _ ‹Eng.memOk _›
    | dsimp only
    | fail_if_no_progress with_reducible refine Keeps.upd ?_
    | split

/-- `State.setCmd` keeps what `Keeps` says. -/
theorem State.setCmd_keeps {z0 : State} {s : State} (d : DriveId) (k : Nat) (c : DrvCmd) (k_s : Keeps kc z0 s) : Keeps kc z0 (State.setCmd s d k c) := by
  unfold State.setCmd
  repeat' first
    | with_reducible assumption
    | with_reducible exact Keeps.refl _
    | with_reducible exact CuesKept.refl _
    | (with_reducible refine CuesKept.same ?_; rfl)
    | exact fun _ h => h
    | intro _
    | with_reducible refine Keeps.ite ?_ ?_
    | with_reducible refine Keeps.dite ?_ ?_
    | with_reducible refine Keeps.foldl ?_ _ _ ?_
    | with_reducible refine Keeps1.ite ?_ ?_
    | with_reducible refine Keeps1.mk ?_
    | with_reducible apply State.updDrive_keeps
    | (refine Eng.memOk_of ‹Eng.memOk _› ?_ ?_ ?_ <;> first | rfl | (simp; done) | (split_ifs <;> simp; done))
    | with_reducible apply Eng.restart_memOk
    | exact Eng.putScratch_memOk _ _ ‹Eng.memOk _›
    | exact Eng.putParam_memOk _ _ ‹Eng.memOk _›
    | dsimp only
    | fail_if_no_progress with_reducible refine Keeps.upd ?_
    | split

/-- `State.dropCmd` keeps what `Keeps` says. -/
theorem State.dropCmd_keeps {z0 : State} {s : State} (d : DriveId) (k : Nat) (k_s : Keeps kc z0 s) : Keeps kc z0 (State.dropCmd s d k) := by
  unfold State.dropCmd
  repeat' first
    | with_reducible assumption
    | with_reducible exact Keeps.refl _
    | with_reducible exact CuesKept.refl _
    | (with_reducible refine CuesKept.same ?_; rfl)
    | exact fun _ h => h
    | intro _
    | with_reducible refine Keeps.ite ?_ ?_
    | with_reducible refine Keeps.dite ?_ ?_
    | with_reducible refine Keeps.foldl ?_ _ _ ?_
    | with_reducible refine Keeps1.ite ?_ ?_
    | with_reducible refine Keeps1.mk ?_
    | with_reducible apply State.updDrive_keeps
    | (refine Eng.memOk_of ‹Eng.memOk _› ?_ ?_ ?_ <;> first | rfl | (simp; done) | (split_ifs <;> simp; done))
    | with_reducible apply Eng.restart_memOk
    | exact Eng.putScratch_memOk _ _ ‹Eng.memOk _›
    | exact Eng.putParam_memOk _ _ ‹Eng.memOk _›
    | dsimp only
    | fail_if_no_progress with_reducible refine Keeps.upd ?_
    | split

/-- `execNvmeTimeout` keeps what `Keeps` says. -/
theorem execNvmeTimeout_keeps (d : DriveId) (k : Option Nat) (s : State) : OutKeeps kc s (execNvmeTimeout d k s) := by
  unfold execNvmeTimeout
  repeat' first
    | with_reducible assumption
    | with_reducible exact Keeps.refl _
    | with_reducible exact CuesKept.refl _
    | (with_reducible refine CuesKept.same ?_; rfl)
    | exact fun _ h => h
    | intro _
    | with_reducible refine OutKeeps.ite ?_ ?_
    | with_reducible refine OutKeeps.next ?_
    | with_reducible refine Keeps.ite ?_ ?_
    | with_reducible refine Keeps.dite ?_ ?_
    | with_reducible refine Keeps.foldl ?_ _ _ ?_
    | with_reducible refine Keeps1.ite ?_ ?_
    | with_reducible refine Keeps1.mk ?_
    | with_reducible apply State.driveFail_keeps
    | with_reducible apply State.setCmd_keeps
    | with_reducible apply State.nvme_keeps
    | (refine Eng.memOk_of ‹Eng.memOk _› ?_ ?_ ?_ <;> first | rfl | (simp; done) | (split_ifs <;> simp; done))
    | with_reducible apply Eng.restart_memOk
    | exact Eng.putScratch_memOk _ _ ‹Eng.memOk _›
    | exact Eng.putParam_memOk _ _ ‹Eng.memOk _›
    | dsimp only
    | fail_if_no_progress with_reducible refine Keeps.upd ?_
    | split

/-- `State.retry` keeps what `Keeps` says. -/
theorem State.retry_keeps {z0 : State} {s : State} (d : DriveId) (k : Nat) (c : DrvCmd) (k_s : Keeps kc z0 s) : Keeps kc z0 (State.retry s d k c) := by
  unfold State.retry
  repeat' first
    | with_reducible assumption
    | with_reducible exact Keeps.refl _
    | with_reducible exact CuesKept.refl _
    | (with_reducible refine CuesKept.same ?_; rfl)
    | exact fun _ h => h
    | intro _
    | with_reducible refine Keeps.ite ?_ ?_
    | with_reducible refine Keeps.dite ?_ ?_
    | with_reducible refine Keeps.foldl ?_ _ _ ?_
    | with_reducible refine Keeps1.ite ?_ ?_
    | with_reducible refine Keeps1.mk ?_
    | with_reducible apply State.setCmd_keeps
    | with_reducible apply State.put_keeps
    | (refine Eng.memOk_of ‹Eng.memOk _› ?_ ?_ ?_ <;> first | rfl | (simp; done) | (split_ifs <;> simp; done))
    | with_reducible apply Eng.restart_memOk
    | exact Eng.putScratch_memOk _ _ ‹Eng.memOk _›
    | exact Eng.putParam_memOk _ _ ‹Eng.memOk _›
    | dsimp only
    | fail_if_no_progress with_reducible refine Keeps.upd ?_
    | split

/-- `execChunkWriteDone` keeps what `Keeps` says. -/
theorem execChunkWriteDone_keeps (d : DriveId) (k : Nat) (ok : Bool) (s : State) : OutKeeps kc s (execChunkWriteDone d k ok s) := by
  unfold execChunkWriteDone
  repeat' first
    | with_reducible assumption
    | with_reducible exact Keeps.refl _
    | with_reducible exact CuesKept.refl _
    | (with_reducible refine CuesKept.same ?_; rfl)
    | fail_if_no_progress with_reducible refine Keeps.putTks ?_ (CuesKept.same rfl)
    | with_reducible refine CuesKept.ite ?_ ?_
    | with_reducible exact CuesKept.map rfl (fun _ => rfl)
    | with_reducible exact CuesKept.insert rfl
    | (with_reducible refine CuesKept.map rfl (fun _ => ?_)); (split <;> rfl)
    | exact fun _ h => h
    | intro _
    | with_reducible refine OutKeeps.ite ?_ ?_
    | with_reducible refine OutKeeps.next ?_
    | with_reducible refine Keeps.ite ?_ ?_
    | with_reducible refine Keeps.dite ?_ ?_
    | with_reducible refine Keeps.foldl ?_ _ _ ?_
    | with_reducible refine Keeps1.ite ?_ ?_
    | with_reducible refine Keeps1.mk ?_
    | with_reducible apply State.dropCmd_keeps
    | with_reducible apply State.retry_keeps
    | with_reducible apply State.driveFail_keeps
    | with_reducible apply State.updTks_keeps
    | with_reducible apply State.setSeg_keeps
    | with_reducible apply State.tryHeader_keeps
    | (refine Eng.memOk_of ‹Eng.memOk _› ?_ ?_ ?_ <;> first | rfl | (simp; done) | (split_ifs <;> simp; done))
    | with_reducible apply Eng.restart_memOk
    | exact Eng.putScratch_memOk _ _ ‹Eng.memOk _›
    | exact Eng.putParam_memOk _ _ ‹Eng.memOk _›
    | dsimp only
    | fail_if_no_progress with_reducible refine Keeps.upd ?_
    | split

/-- `execSegmentCloseTimer` keeps what `Keeps` says. -/
theorem execSegmentCloseTimer_keeps (p : PortId) (t : Nat) (s : State) : OutKeeps kc s (execSegmentCloseTimer p t s) := by
  unfold execSegmentCloseTimer
  repeat' first
    | with_reducible assumption
    | with_reducible exact Keeps.refl _
    | with_reducible exact CuesKept.refl _
    | (with_reducible refine CuesKept.same ?_; rfl)
    | exact fun _ h => h
    | intro _
    | with_reducible refine OutKeeps.ite ?_ ?_
    | with_reducible refine OutKeeps.next ?_
    | with_reducible refine Keeps.ite ?_ ?_
    | with_reducible refine Keeps.dite ?_ ?_
    | with_reducible refine Keeps.foldl ?_ _ _ ?_
    | with_reducible refine Keeps1.ite ?_ ?_
    | with_reducible refine Keeps1.mk ?_
    | with_reducible apply State.at_keeps
    | with_reducible apply State.closePort_keeps
    | (refine Eng.memOk_of ‹Eng.memOk _› ?_ ?_ ?_ <;> first | rfl | (simp; done) | (split_ifs <;> simp; done))
    | with_reducible apply Eng.restart_memOk
    | exact Eng.putScratch_memOk _ _ ‹Eng.memOk _›
    | exact Eng.putParam_memOk _ _ ‹Eng.memOk _›
    | dsimp only
    | fail_if_no_progress with_reducible refine Keeps.upd ?_
    | split

/-- `execSmartPoll` keeps what `Keeps` says. -/
theorem execSmartPoll_keeps (d : DriveId) (warn : Byte) (used : Nat) (temp : Nat) (s : State) : OutKeeps kc s (execSmartPoll d warn used temp s) := by
  unfold execSmartPoll
  repeat' first
    | with_reducible assumption
    | with_reducible exact Keeps.refl _
    | with_reducible exact CuesKept.refl _
    | (with_reducible refine CuesKept.same ?_; rfl)
    | exact fun _ h => h
    | intro _
    | with_reducible refine OutKeeps.ite ?_ ?_
    | with_reducible refine OutKeeps.next ?_
    | with_reducible refine Keeps.ite ?_ ?_
    | with_reducible refine Keeps.dite ?_ ?_
    | with_reducible refine Keeps.foldl ?_ _ _ ?_
    | with_reducible refine Keeps1.ite ?_ ?_
    | with_reducible refine Keeps1.mk ?_
    | with_reducible apply State.setReg_keeps
    | with_reducible apply State.nvme_keeps
    | with_reducible apply State.raise_keeps
    | (refine Eng.memOk_of ‹Eng.memOk _› ?_ ?_ ?_ <;> first | rfl | (simp; done) | (split_ifs <;> simp; done))
    | with_reducible apply Eng.restart_memOk
    | exact Eng.putScratch_memOk _ _ ‹Eng.memOk _›
    | exact Eng.putParam_memOk _ _ ‹Eng.memOk _›
    | dsimp only
    | fail_if_no_progress with_reducible refine Keeps.upd ?_
    | split

/-- `execCheckpoint` keeps what `Keeps` says. -/
theorem execCheckpoint_keeps (s : State) : OutKeeps kc s (execCheckpoint s) := by
  unfold execCheckpoint
  repeat' first
    | with_reducible assumption
    | with_reducible exact Keeps.refl _
    | with_reducible exact CuesKept.refl _
    | (with_reducible refine CuesKept.same ?_; rfl)
    | exact fun _ h => h
    | intro _
    | with_reducible refine OutKeeps.ite ?_ ?_
    | with_reducible refine OutKeeps.next ?_
    | with_reducible refine Keeps.ite ?_ ?_
    | with_reducible refine Keeps.dite ?_ ?_
    | with_reducible refine Keeps.foldl ?_ _ _ ?_
    | with_reducible refine Keeps1.ite ?_ ?_
    | with_reducible refine Keeps1.mk ?_
    | with_reducible apply State.checkpoint_keeps
    | (refine Eng.memOk_of ‹Eng.memOk _› ?_ ?_ ?_ <;> first | rfl | (simp; done) | (split_ifs <;> simp; done))
    | with_reducible apply Eng.restart_memOk
    | exact Eng.putScratch_memOk _ _ ‹Eng.memOk _›
    | exact Eng.putParam_memOk _ _ ‹Eng.memOk _›
    | dsimp only
    | fail_if_no_progress with_reducible refine Keeps.upd ?_
    | split

/-- `execCheckpointWriteDone` keeps what `Keeps` says. -/
theorem execCheckpointWriteDone_keeps (d : DriveId) (ok : Bool) (s : State) : OutKeeps kc s (execCheckpointWriteDone d ok s) := by
  unfold execCheckpointWriteDone
  repeat' first
    | with_reducible assumption
    | with_reducible exact Keeps.refl _
    | with_reducible exact CuesKept.refl _
    | (with_reducible refine CuesKept.same ?_; rfl)
    | exact fun _ h => h
    | intro _
    | with_reducible refine OutKeeps.ite ?_ ?_
    | with_reducible refine OutKeeps.next ?_
    | with_reducible refine Keeps.ite ?_ ?_
    | with_reducible refine Keeps.dite ?_ ?_
    | with_reducible refine Keeps.foldl ?_ _ _ ?_
    | with_reducible refine Keeps1.ite ?_ ?_
    | with_reducible refine Keeps1.mk ?_
    | with_reducible apply State.setCmd_keeps
    | with_reducible apply State.put_keeps
    | with_reducible apply State.dropCmd_keeps
    | with_reducible apply State.nvme_keeps
    | with_reducible apply State.ckptNext_keeps
    | with_reducible apply State.retry_keeps
    | with_reducible apply State.driveFail_keeps
    | (refine Eng.memOk_of ‹Eng.memOk _› ?_ ?_ ?_ <;> first | rfl | (simp; done) | (split_ifs <;> simp; done))
    | with_reducible apply Eng.restart_memOk
    | exact Eng.putScratch_memOk _ _ ‹Eng.memOk _›
    | exact Eng.putParam_memOk _ _ ‹Eng.memOk _›
    | dsimp only
    | fail_if_no_progress with_reducible refine Keeps.upd ?_
    | split

/-- `State.readCkpt` keeps what `Keeps` says. -/
theorem State.readCkpt_keeps {z0 : State} {s : State} (h : StoreHdr) (k_s : Keeps kc z0 s) : Keeps kc z0 (State.readCkpt s h) := by
  unfold State.readCkpt
  repeat' first
    | with_reducible assumption
    | with_reducible exact Keeps.refl _
    | with_reducible exact CuesKept.refl _
    | (with_reducible refine CuesKept.same ?_; rfl)
    | exact fun _ h => h
    | intro _
    | with_reducible refine Keeps.ite ?_ ?_
    | with_reducible refine Keeps.dite ?_ ?_
    | with_reducible refine Keeps.foldl ?_ _ _ ?_
    | with_reducible refine Keeps1.ite ?_ ?_
    | with_reducible refine Keeps1.mk ?_
    | with_reducible apply State.nvme_keeps
    | (refine Eng.memOk_of ‹Eng.memOk _› ?_ ?_ ?_ <;> first | rfl | (simp; done) | (split_ifs <;> simp; done))
    | with_reducible apply Eng.restart_memOk
    | exact Eng.putScratch_memOk _ _ ‹Eng.memOk _›
    | exact Eng.putParam_memOk _ _ ‹Eng.memOk _›
    | dsimp only
    | fail_if_no_progress with_reducible refine Keeps.upd ?_
    | split

/-- `State.takeStore` keeps what `Keeps` says. -/
theorem State.takeStore_keeps {z0 : State} {s : State} (h : StoreHdr) (segs : List (Nat × Seg)) (cues : List (Nat × Cue)) (mirrored : Nat) (k_s : Keeps false z0 s) : Keeps false z0 (State.takeStore s h segs cues mirrored) := by
  unfold State.takeStore
  repeat' first
    | with_reducible assumption
    | with_reducible exact Keeps.refl _
    | with_reducible exact CuesKept.refl _
    | exact CuesKept.off _ _
    | fail_if_no_progress with_reducible refine Keeps.putTks ?_ (CuesKept.same rfl)
    | with_reducible refine CuesKept.ite ?_ ?_
    | with_reducible exact CuesKept.map rfl (fun _ => rfl)
    | with_reducible exact CuesKept.insert rfl
    | (with_reducible refine CuesKept.map rfl (fun _ => ?_)); (split <;> rfl)
    | exact fun _ h => h
    | intro _
    | with_reducible refine Keeps.ite ?_ ?_
    | with_reducible refine Keeps.dite ?_ ?_
    | with_reducible refine Keeps.foldl ?_ _ _ ?_
    | with_reducible refine Keeps1.ite ?_ ?_
    | with_reducible refine Keeps1.mk ?_
    | with_reducible apply State.updTks_keeps
    | with_reducible apply State.setSeg_keeps
    | with_reducible apply State.wholeMeta_keeps
    | (refine Eng.memOk_of ‹Eng.memOk _› ?_ ?_ ?_ <;> first | rfl | (simp; done) | (split_ifs <;> simp; done))
    | with_reducible apply Eng.restart_memOk
    | exact Eng.putScratch_memOk _ _ ‹Eng.memOk _›
    | exact Eng.putParam_memOk _ _ ‹Eng.memOk _›
    | dsimp only
    | fail_if_no_progress with_reducible refine Keeps.upd ?_
    | split

/-- `State.enterSeg` keeps what `Keeps` says. -/
theorem State.enterSeg_keeps {z0 : State} {s : State} (g : Nat) (x : Seg) (k_s : Keeps kc z0 s) : Keeps kc z0 (State.enterSeg s g x) := by
  unfold State.enterSeg
  repeat' first
    | with_reducible assumption
    | with_reducible exact Keeps.refl _
    | with_reducible exact CuesKept.refl _
    | (with_reducible refine CuesKept.same ?_; rfl)
    | exact fun _ h => h
    | intro _
    | with_reducible refine Keeps.ite ?_ ?_
    | with_reducible refine Keeps.dite ?_ ?_
    | with_reducible refine Keeps.foldl ?_ _ _ ?_
    | with_reducible refine Keeps1.ite ?_ ?_
    | with_reducible refine Keeps1.mk ?_
    | with_reducible apply State.loseCue_keeps
    | with_reducible apply State.setSeg_keeps
    | with_reducible apply State.holdCues_keeps
    | (refine Eng.memOk_of ‹Eng.memOk _› ?_ ?_ ?_ <;> first | rfl | (simp; done) | (split_ifs <;> simp; done))
    | with_reducible apply Eng.restart_memOk
    | exact Eng.putScratch_memOk _ _ ‹Eng.memOk _›
    | exact Eng.putParam_memOk _ _ ‹Eng.memOk _›
    | dsimp only
    | fail_if_no_progress with_reducible refine Keeps.upd ?_
    | split

/-- `State.openSlots` keeps what `Keeps` says. -/
theorem State.openSlots_keeps {z0 : State} {s : State} (h : StoreHdr) (segs : List (Nat × Seg)) (found : List (Nat × Nat × Seg)) (k_s : Keeps kc z0 s) : Keeps kc z0 (State.openSlots s h segs found) := by
  unfold State.openSlots
  repeat' first
    | with_reducible assumption
    | with_reducible exact Keeps.refl _
    | with_reducible exact CuesKept.refl _
    | (with_reducible refine CuesKept.same ?_; rfl)
    | exact fun _ h => h
    | intro _
    | with_reducible refine Keeps.ite ?_ ?_
    | with_reducible refine Keeps.dite ?_ ?_
    | with_reducible refine Keeps.foldl ?_ _ _ ?_
    | with_reducible refine Keeps1.ite ?_ ?_
    | with_reducible refine Keeps1.mk ?_
    | with_reducible apply State.nvme_keeps
    | with_reducible apply State.setSeg_keeps
    | with_reducible apply State.enterSeg_keeps
    | with_reducible apply State.mapCues_keeps
    | (refine Eng.memOk_of ‹Eng.memOk _› ?_ ?_ ?_ <;> first | rfl | (simp; done) | (split_ifs <;> simp; done))
    | with_reducible apply Eng.restart_memOk
    | exact Eng.putScratch_memOk _ _ ‹Eng.memOk _›
    | exact Eng.putParam_memOk _ _ ‹Eng.memOk _›
    | dsimp only
    | fail_if_no_progress with_reducible refine Keeps.upd ?_
    | split

/-- `State.scanSlots` keeps what `Keeps` says. -/
theorem State.scanSlots_keeps {z0 : State} {s : State} (h : StoreHdr) (found : List (Nat × Nat × Seg)) (k_s : Keeps kc z0 s) : Keeps1 kc z0 (State.scanSlots s h found) := by
  unfold State.scanSlots
  repeat' first
    | with_reducible assumption
    | with_reducible exact Keeps.refl _
    | with_reducible exact CuesKept.refl _
    | (with_reducible refine CuesKept.same ?_; rfl)
    | fail_if_no_progress with_reducible refine Keeps.putTks ?_ (CuesKept.same rfl)
    | with_reducible refine CuesKept.ite ?_ ?_
    | with_reducible exact CuesKept.map rfl (fun _ => rfl)
    | with_reducible exact CuesKept.insert rfl
    | (with_reducible refine CuesKept.map rfl (fun _ => ?_)); (split <;> rfl)
    | exact fun _ h => h
    | intro _
    | with_reducible refine Keeps.ite ?_ ?_
    | with_reducible refine Keeps.dite ?_ ?_
    | with_reducible refine Keeps.foldl ?_ _ _ ?_
    | with_reducible refine Keeps1.ite ?_ ?_
    | with_reducible refine Keeps1.mk ?_
    | with_reducible apply State.nvme_keeps
    | with_reducible apply State.enterSeg_keeps
    | with_reducible apply State.updTks_keeps
    | (refine Eng.memOk_of ‹Eng.memOk _› ?_ ?_ ?_ <;> first | rfl | (simp; done) | (split_ifs <;> simp; done))
    | with_reducible apply Eng.restart_memOk
    | exact Eng.putScratch_memOk _ _ ‹Eng.memOk _›
    | exact Eng.putParam_memOk _ _ ‹Eng.memOk _›
    | dsimp only
    | fail_if_no_progress with_reducible refine Keeps.upd ?_
    | split

/-- `State.absentMember` keeps what `Keeps` says. -/
theorem State.absentMember_keeps {z0 : State} {s : State} (h : StoreHdr) (d : DriveId) (k_s : Keeps kc z0 s) : Keeps kc z0 (State.absentMember s h d) := by
  unfold State.absentMember
  repeat' first
    | with_reducible assumption
    | with_reducible exact Keeps.refl _
    | with_reducible exact CuesKept.refl _
    | (with_reducible refine CuesKept.same ?_; rfl)
    | exact fun _ h => h
    | intro _
    | with_reducible refine Keeps.ite ?_ ?_
    | with_reducible refine Keeps.dite ?_ ?_
    | with_reducible refine Keeps.foldl ?_ _ _ ?_
    | with_reducible refine Keeps1.ite ?_ ?_
    | with_reducible refine Keeps1.mk ?_
    | with_reducible apply State.updDrive_keeps
    | with_reducible apply State.driveFail_keeps
    | (refine Eng.memOk_of ‹Eng.memOk _› ?_ ?_ ?_ <;> first | rfl | (simp; done) | (split_ifs <;> simp; done))
    | with_reducible apply Eng.restart_memOk
    | exact Eng.putScratch_memOk _ _ ‹Eng.memOk _›
    | exact Eng.putParam_memOk _ _ ‹Eng.memOk _›
    | dsimp only
    | fail_if_no_progress with_reducible refine Keeps.upd ?_
    | split

/-- `execStoreRecovery` keeps what `Keeps` says. -/
theorem execStoreRecovery_keeps (segs : List (Nat × Seg)) (ckpt : CkptRead) (found : List (Nat × Nat × Seg)) (s : State) : OutKeeps false s (execStoreRecovery segs ckpt found s) := by
  unfold execStoreRecovery
  repeat' first
    | with_reducible assumption
    | with_reducible exact Keeps.refl _
    | with_reducible exact CuesKept.refl _
    | exact CuesKept.off _ _
    | fail_if_no_progress with_reducible refine Keeps.putTks ?_ (CuesKept.same rfl)
    | with_reducible refine CuesKept.ite ?_ ?_
    | with_reducible exact CuesKept.map rfl (fun _ => rfl)
    | with_reducible exact CuesKept.insert rfl
    | (with_reducible refine CuesKept.map rfl (fun _ => ?_)); (split <;> rfl)
    | exact fun _ h => h
    | intro _
    | with_reducible refine OutKeeps.ite ?_ ?_
    | with_reducible refine OutKeeps.next ?_
    | with_reducible refine Keeps.ite ?_ ?_
    | with_reducible refine Keeps.dite ?_ ?_
    | with_reducible refine Keeps.foldl ?_ _ _ ?_
    | with_reducible refine Keeps1.ite ?_ ?_
    | with_reducible refine Keeps1.mk ?_
    | with_reducible apply State.updTks_keeps
    | with_reducible apply State.readCkpt_keeps
    | with_reducible apply State.takeStore_keeps
    | with_reducible apply State.openSlots_keeps
    | with_reducible apply State.scanSlots_keeps
    | with_reducible apply State.absentMember_keeps
    | with_reducible apply State.repin_keeps
    | with_reducible apply State.raise_keeps
    | (with_reducible refine Keeps1.fst ?_; with_reducible assumption)
    | (with_reducible refine Keeps1.fst ?_; with_reducible first | apply State.scanSlots_keeps | refine Keeps1.foldl ?_ _ _ ?_)
    | (refine Eng.memOk_of ‹Eng.memOk _› ?_ ?_ ?_ <;> first | rfl | (simp; done) | (split_ifs <;> simp; done))
    | with_reducible apply Eng.restart_memOk
    | exact Eng.putScratch_memOk _ _ ‹Eng.memOk _›
    | exact Eng.putParam_memOk _ _ ‹Eng.memOk _›
    | dsimp only
    | fail_if_no_progress with_reducible refine Keeps.upd ?_
    | split

/-- `State.format` keeps what `Keeps` says. -/
theorem State.format_keeps {z0 : State} {s : State} (k_s : Keeps false z0 s) : Keeps false z0 (State.format s) := by
  unfold State.format
  repeat' first
    | with_reducible assumption
    | with_reducible exact Keeps.refl _
    | with_reducible exact CuesKept.refl _
    | exact CuesKept.off _ _
    | fail_if_no_progress with_reducible refine Keeps.putTks ?_ (CuesKept.same rfl)
    | with_reducible refine CuesKept.ite ?_ ?_
    | with_reducible exact CuesKept.map rfl (fun _ => rfl)
    | with_reducible exact CuesKept.insert rfl
    | (with_reducible refine CuesKept.map rfl (fun _ => ?_)); (split <;> rfl)
    | exact fun _ h => h
    | intro _
    | with_reducible refine Keeps.ite ?_ ?_
    | with_reducible refine Keeps.dite ?_ ?_
    | with_reducible refine Keeps.foldl ?_ _ _ ?_
    | with_reducible refine Keeps1.ite ?_ ?_
    | with_reducible refine Keeps1.mk ?_
    | with_reducible apply State.closePort_keeps
    | with_reducible apply State.updTks_keeps
    | with_reducible apply State.touch_keeps
    | with_reducible apply State.issueCmd_keeps
    | with_reducible apply State.wholeMeta_keeps
    | with_reducible apply State.tickFree_keeps
    | with_reducible apply State.checkpoint_keeps
    | (refine Eng.memOk_of ‹Eng.memOk _› ?_ ?_ ?_ <;> first | rfl | (simp; done) | (split_ifs <;> simp; done))
    | with_reducible apply Eng.restart_memOk
    | exact Eng.putScratch_memOk _ _ ‹Eng.memOk _›
    | exact Eng.putParam_memOk _ _ ‹Eng.memOk _›
    | dsimp only
    | fail_if_no_progress with_reducible refine Keeps.upd ?_
    | split

/-- `State.join` keeps what `Keeps` says. -/
theorem State.join_keeps {z0 : State} {s : State} (d : DriveId) (k_s : Keeps kc z0 s) : Keeps kc z0 (State.join s d) := by
  unfold State.join
  repeat' first
    | with_reducible assumption
    | with_reducible exact Keeps.refl _
    | with_reducible exact CuesKept.refl _
    | (with_reducible refine CuesKept.same ?_; rfl)
    | fail_if_no_progress with_reducible refine Keeps.putTks ?_ (CuesKept.same rfl)
    | with_reducible refine CuesKept.ite ?_ ?_
    | with_reducible exact CuesKept.map rfl (fun _ => rfl)
    | with_reducible exact CuesKept.insert rfl
    | (with_reducible refine CuesKept.map rfl (fun _ => ?_)); (split <;> rfl)
    | exact fun _ h => h
    | intro _
    | with_reducible refine Keeps.ite ?_ ?_
    | with_reducible refine Keeps.dite ?_ ?_
    | with_reducible refine Keeps.foldl ?_ _ _ ?_
    | with_reducible refine Keeps1.ite ?_ ?_
    | with_reducible refine Keeps1.mk ?_
    | with_reducible apply State.updTks_keeps
    | with_reducible apply State.touchDrive_keeps
    | with_reducible apply State.updDrive_keeps
    | with_reducible apply State.issueCmd_keeps
    | with_reducible apply State.wholeMeta_keeps
    | with_reducible apply State.checkpoint_keeps
    | (refine Eng.memOk_of ‹Eng.memOk _› ?_ ?_ ?_ <;> first | rfl | (simp; done) | (split_ifs <;> simp; done))
    | with_reducible apply Eng.restart_memOk
    | exact Eng.putScratch_memOk _ _ ‹Eng.memOk _›
    | exact Eng.putParam_memOk _ _ ‹Eng.memOk _›
    | dsimp only
    | fail_if_no_progress with_reducible refine Keeps.upd ?_
    | split

/-- `execCueSet` keeps what `Keeps` says. -/
theorem execCueSet_keeps (c : CtxId) (y : Submission) (s : State) : OutKeeps kc s (execCueSet c y s) := by
  unfold execCueSet
  repeat' first
    | with_reducible assumption
    | with_reducible exact Keeps.refl _
    | with_reducible exact CuesKept.refl _
    | (with_reducible refine CuesKept.same ?_; rfl)
    | fail_if_no_progress with_reducible refine Keeps.putTks ?_ (CuesKept.same rfl)
    | with_reducible refine CuesKept.ite ?_ ?_
    | with_reducible exact CuesKept.map rfl (fun _ => rfl)
    | with_reducible exact CuesKept.insert rfl
    | (with_reducible refine CuesKept.map rfl (fun _ => ?_)); (split <;> rfl)
    | exact fun _ h => h
    | intro _
    | with_reducible refine OutKeeps.ite ?_ ?_
    | with_reducible refine OutKeeps.next ?_
    | with_reducible refine Keeps.ite ?_ ?_
    | with_reducible refine Keeps.dite ?_ ?_
    | with_reducible refine Keeps.foldl ?_ _ _ ?_
    | with_reducible refine Keeps1.ite ?_ ?_
    | with_reducible refine Keeps1.mk ?_
    | with_reducible apply State.admin_keeps
    | with_reducible apply State.updTks_keeps
    | with_reducible apply State.touch_keeps
    | (refine Eng.memOk_of ‹Eng.memOk _› ?_ ?_ ?_ <;> first | rfl | (simp; done) | (split_ifs <;> simp; done))
    | with_reducible apply Eng.restart_memOk
    | exact Eng.putScratch_memOk _ _ ‹Eng.memOk _›
    | exact Eng.putParam_memOk _ _ ‹Eng.memOk _›
    | dsimp only
    | fail_if_no_progress with_reducible refine Keeps.upd ?_
    | split

/-- `execCuePin` keeps what `Keeps` says. -/
theorem execCuePin_keeps (c : CtxId) (y : Submission) (s : State) : OutKeeps kc s (execCuePin c y s) := by
  unfold execCuePin
  repeat' first
    | with_reducible assumption
    | with_reducible exact Keeps.refl _
    | with_reducible exact CuesKept.refl _
    | (with_reducible refine CuesKept.same ?_; rfl)
    | exact fun _ h => h
    | intro _
    | with_reducible refine OutKeeps.ite ?_ ?_
    | with_reducible refine OutKeeps.next ?_
    | with_reducible refine Keeps.ite ?_ ?_
    | with_reducible refine Keeps.dite ?_ ?_
    | with_reducible refine Keeps.foldl ?_ _ _ ?_
    | with_reducible refine Keeps1.ite ?_ ?_
    | with_reducible refine Keeps1.mk ?_
    | with_reducible apply State.admin_keeps
    | with_reducible apply State.mapCues_keeps
    | with_reducible apply State.repin_keeps
    | with_reducible apply State.pressure_keeps
    | with_reducible apply State.checkpoint_keeps
    | (refine Eng.memOk_of ‹Eng.memOk _› ?_ ?_ ?_ <;> first | rfl | (simp; done) | (split_ifs <;> simp; done))
    | with_reducible apply Eng.restart_memOk
    | exact Eng.putScratch_memOk _ _ ‹Eng.memOk _›
    | exact Eng.putParam_memOk _ _ ‹Eng.memOk _›
    | dsimp only
    | fail_if_no_progress with_reducible refine Keeps.upd ?_
    | split

/-- `execCueClear` keeps what `Keeps` says. -/
theorem execCueClear_keeps (c : CtxId) (y : Submission) (s : State) : OutKeeps false s (execCueClear c y s) := by
  unfold execCueClear
  repeat' first
    | with_reducible assumption
    | with_reducible exact Keeps.refl _
    | with_reducible exact CuesKept.refl _
    | exact CuesKept.off _ _
    | fail_if_no_progress with_reducible refine Keeps.putTks ?_ (CuesKept.same rfl)
    | with_reducible refine CuesKept.ite ?_ ?_
    | with_reducible exact CuesKept.map rfl (fun _ => rfl)
    | with_reducible exact CuesKept.insert rfl
    | (with_reducible refine CuesKept.map rfl (fun _ => ?_)); (split <;> rfl)
    | exact fun _ h => h
    | intro _
    | with_reducible refine OutKeeps.ite ?_ ?_
    | with_reducible refine OutKeeps.next ?_
    | with_reducible refine Keeps.ite ?_ ?_
    | with_reducible refine Keeps.dite ?_ ?_
    | with_reducible refine Keeps.foldl ?_ _ _ ?_
    | with_reducible refine Keeps1.ite ?_ ?_
    | with_reducible refine Keeps1.mk ?_
    | with_reducible apply State.admin_keeps
    | with_reducible apply State.updTks_keeps
    | with_reducible apply State.touch_keeps
    | with_reducible apply State.repin_keeps
    | with_reducible apply State.checkpoint_keeps
    | (refine Eng.memOk_of ‹Eng.memOk _› ?_ ?_ ?_ <;> first | rfl | (simp; done) | (split_ifs <;> simp; done))
    | with_reducible apply Eng.restart_memOk
    | exact Eng.putScratch_memOk _ _ ‹Eng.memOk _›
    | exact Eng.putParam_memOk _ _ ‹Eng.memOk _›
    | dsimp only
    | fail_if_no_progress with_reducible refine Keeps.upd ?_
    | split

/-- `execRewindRead` keeps what `Keeps` says. -/
theorem execRewindRead_keeps (c : CtxId) (y : Submission) (s : State) : OutKeeps kc s (execRewindRead c y s) := by
  unfold execRewindRead
  repeat' first
    | with_reducible assumption
    | with_reducible exact Keeps.refl _
    | with_reducible exact CuesKept.refl _
    | (with_reducible refine CuesKept.same ?_; rfl)
    | exact fun _ h => h
    | intro _
    | with_reducible refine OutKeeps.ite ?_ ?_
    | with_reducible refine OutKeeps.next ?_
    | with_reducible refine Keeps.ite ?_ ?_
    | with_reducible refine Keeps.dite ?_ ?_
    | with_reducible refine Keeps.foldl ?_ _ _ ?_
    | with_reducible refine Keeps1.ite ?_ ?_
    | with_reducible refine Keeps1.mk ?_
    | with_reducible apply State.admin_keeps
    | with_reducible apply State.updTport_keeps
    | with_reducible apply State.tickFree_keeps
    | with_reducible apply State.readNext_keeps
    | (refine Eng.memOk_of ‹Eng.memOk _› ?_ ?_ ?_ <;> first | rfl | (simp; done) | (split_ifs <;> simp; done))
    | with_reducible apply Eng.restart_memOk
    | exact Eng.putScratch_memOk _ _ ‹Eng.memOk _›
    | exact Eng.putParam_memOk _ _ ‹Eng.memOk _›
    | dsimp only
    | fail_if_no_progress with_reducible refine Keeps.upd ?_
    | split

/-- `execRewindStop` keeps what `Keeps` says. -/
theorem execRewindStop_keeps (c : CtxId) (y : Submission) (s : State) : OutKeeps kc s (execRewindStop c y s) := by
  unfold execRewindStop
  repeat' first
    | with_reducible assumption
    | with_reducible exact Keeps.refl _
    | with_reducible exact CuesKept.refl _
    | (with_reducible refine CuesKept.same ?_; rfl)
    | exact fun _ h => h
    | intro _
    | with_reducible refine OutKeeps.ite ?_ ?_
    | with_reducible refine OutKeeps.next ?_
    | with_reducible refine Keeps.ite ?_ ?_
    | with_reducible refine Keeps.dite ?_ ?_
    | with_reducible refine Keeps.foldl ?_ _ _ ?_
    | with_reducible refine Keeps1.ite ?_ ?_
    | with_reducible refine Keeps1.mk ?_
    | with_reducible apply State.admin_keeps
    | with_reducible apply State.rewindEnd_keeps
    | (refine Eng.memOk_of ‹Eng.memOk _› ?_ ?_ ?_ <;> first | rfl | (simp; done) | (split_ifs <;> simp; done))
    | with_reducible apply Eng.restart_memOk
    | exact Eng.putScratch_memOk _ _ ‹Eng.memOk _›
    | exact Eng.putParam_memOk _ _ ‹Eng.memOk _›
    | dsimp only
    | fail_if_no_progress with_reducible refine Keeps.upd ?_
    | split

/-- `execNvmeReadDone` keeps what `Keeps` says. -/
theorem execNvmeReadDone_keeps (d : DriveId) (k : Nat) (ok : Bool) (hdrOk : Bool) (bad : List Nat) (s : State) : OutKeeps kc s (execNvmeReadDone d k ok hdrOk bad s) := by
  unfold execNvmeReadDone
  repeat' first
    | with_reducible assumption
    | with_reducible exact Keeps.refl _
    | with_reducible exact CuesKept.refl _
    | (with_reducible refine CuesKept.same ?_; rfl)
    | exact fun _ h => h
    | intro _
    | with_reducible refine OutKeeps.ite ?_ ?_
    | with_reducible refine OutKeeps.next ?_
    | with_reducible refine Keeps.ite ?_ ?_
    | with_reducible refine Keeps.dite ?_ ?_
    | with_reducible refine Keeps.foldl ?_ _ _ ?_
    | with_reducible refine Keeps1.ite ?_ ?_
    | with_reducible refine Keeps1.mk ?_
    | with_reducible apply State.retry_keeps
    | with_reducible apply State.dropCmd_keeps
    | with_reducible apply State.segLost_keeps
    | with_reducible apply State.readNext_keeps
    | with_reducible apply State.raise_keeps
    | with_reducible apply State.setRewind_keeps
    | (refine Eng.memOk_of ‹Eng.memOk _› ?_ ?_ ?_ <;> first | rfl | (simp; done) | (split_ifs <;> simp; done))
    | with_reducible apply Eng.restart_memOk
    | exact Eng.putScratch_memOk _ _ ‹Eng.memOk _›
    | exact Eng.putParam_memOk _ _ ‹Eng.memOk _›
    | dsimp only
    | fail_if_no_progress with_reducible refine Keeps.upd ?_
    | split

/-- `execReadbackDelivery` keeps what `Keeps` says. -/
theorem execReadbackDelivery_keeps (p : PortId) (s : State) : OutKeeps kc s (execReadbackDelivery p s) := by
  unfold execReadbackDelivery
  repeat' first
    | with_reducible assumption
    | with_reducible exact Keeps.refl _
    | with_reducible exact CuesKept.refl _
    | (with_reducible refine CuesKept.same ?_; rfl)
    | exact fun _ h => h
    | intro _
    | with_reducible refine OutKeeps.ite ?_ ?_
    | with_reducible refine OutKeeps.next ?_
    | with_reducible refine Keeps.ite ?_ ?_
    | with_reducible refine Keeps.dite ?_ ?_
    | with_reducible refine Keeps.foldl ?_ _ _ ?_
    | with_reducible refine Keeps1.ite ?_ ?_
    | with_reducible refine Keeps1.mk ?_
    | with_reducible apply State.rewindEnd_keeps
    | with_reducible apply State.stream3_keeps
    | with_reducible apply State.tickFree_keeps
    | with_reducible apply State.setRewind_keeps
    | with_reducible apply State.readNext_keeps
    | (with_reducible refine Keeps1.fst ?_; with_reducible assumption)
    | (with_reducible refine Keeps1.fst ?_; with_reducible first | apply State.stream3_keeps | refine Keeps1.foldl ?_ _ _ ?_)
    | (refine Eng.memOk_of ‹Eng.memOk _› ?_ ?_ ?_ <;> first | rfl | (simp; done) | (split_ifs <;> simp; done))
    | with_reducible apply Eng.restart_memOk
    | exact Eng.putScratch_memOk _ _ ‹Eng.memOk _›
    | exact Eng.putParam_memOk _ _ ‹Eng.memOk _›
    | dsimp only
    | fail_if_no_progress with_reducible refine Keeps.upd ?_
    | split

end Sys2Proof.Machine
end

