-- ==== Sys2Proof/Laws/KeepsSupply.lean ====
section
/-! SUPPORT. Every operation of Machine/Supply.lean keeps what `Keeps` says. -/

set_option linter.unusedTactic false
set_option linter.unreachableTactic false

namespace Sys2Proof.Machine

variable {kc : Bool}

/-- `State.bankDown` keeps what `Keeps` says. -/
theorem State.bankDown_keeps {z0 : State} {s : State} (p : PortId) (k_s : Keeps kc z0 s) : Keeps kc z0 (State.bankDown s p) := by
  unfold State.bankDown
  repeat' first
    | with_reducible assumption
    | with_reducible exact Keeps.refl _
    | with_reducible exact CuesKept.refl _
    | (with_reducible refine CuesKept.same ?_; rfl)
    | exact fun _ h => h
    | intro _
    | with_reducible refine Keeps.ite ?_ ?_
    | with_reducible refine Keeps.dite ?_ ?_
    | with_reducible refine Keeps.foldl ?_ _ _ ?_
    | with_reducible refine Keeps1.ite ?_ ?_
    | with_reducible refine Keeps1.mk ?_
    | with_reducible apply State.updPort_keeps
    | with_reducible apply State.headRemoved_keeps
    | (refine Eng.memOk_of ‹Eng.memOk _› ?_ ?_ ?_ <;> first | rfl | (simp; done) | (split_ifs <;> simp; done))
    | with_reducible apply Eng.restart_memOk
    | exact Eng.putScratch_memOk _ _ ‹Eng.memOk _›
    | exact Eng.putParam_memOk _ _ ‹Eng.memOk _›
    | dsimp only
    | fail_if_no_progress with_reducible refine Keeps.upd ?_
    | split

/-- `State.inputsLow` keeps what `Keeps` says. -/
theorem State.inputsLow_keeps {z : State} {s : State} (b : Nat) (hs : Keeps kc z s) : Keeps kc z (State.inputsLow s b) := by
  have h1 : ∀ (l : List AxisId) (t : State), Keeps kc z t →
      Keeps kc z (l.foldl (fun t a => (List.finRange 4).foldl (fun u j => u.switchPin a j false) t) t) := fun l t ht =>
    Keeps.foldl (fun t a h => Keeps.foldl (fun u j hu => State.switchPin_keeps a j false hu) _ _ h) l t ht
  have h2 : ∀ (l : List AxisId) (t : State), Keeps kc z t → Keeps kc z (l.foldl (fun t a => t.encoderPins a false false false 15) t) := fun l t ht =>
    Keeps.foldl (fun t a h => State.encoderPins_keeps a false false false 15 h) l t ht
  have h3 : ∀ (l : List (Fin 2)) (t : State), Keeps kc z t → Keeps kc z (l.foldl (fun t m => t.masterPins m false false false 15) t) := fun l t ht =>
    Keeps.foldl (fun t m h => State.masterPins_keeps m false false false 15 h) l t ht
  unfold State.inputsLow
  exact Keeps.ite (fun _ => h1 _ _ hs) (fun _ => Keeps.ite (fun _ => h3 _ _ (h2 _ _ hs)) (fun _ =>
    Keeps.ite (fun _ => State.stopPin_keeps true (Keeps.ite (fun _ => hs) (fun _ => State.perstLow_keeps hs))) (fun _ => hs)))

/-- `execBankPowerChange` keeps what `Keeps` says. -/
theorem execBankPowerChange_keeps (b : Fin 24) (up : Bool) (s : State) : OutKeeps kc s (execBankPowerChange b up s) := by
  unfold execBankPowerChange
  repeat' first
    | with_reducible assumption
    | with_reducible exact Keeps.refl _
    | with_reducible exact CuesKept.refl _
    | (with_reducible refine CuesKept.same ?_; rfl)
    | exact fun _ h => h
    | intro _
    | with_reducible refine OutKeeps.ite ?_ ?_
    | with_reducible refine OutKeeps.next ?_
    | with_reducible refine Keeps.ite ?_ ?_
    | with_reducible refine Keeps.dite ?_ ?_
    | with_reducible refine Keeps.foldl ?_ _ _ ?_
    | with_reducible refine Keeps1.ite ?_ ?_
    | with_reducible refine Keeps1.mk ?_
    | with_reducible apply State.setRf_keeps
    | with_reducible apply State.updPort_keeps
    | with_reducible apply State.startRead_keeps
    | with_reducible apply State.bankDown_keeps
    | with_reducible apply State.inputsLow_keeps
    | (refine Eng.memOk_of ‹Eng.memOk _› ?_ ?_ ?_ <;> first | rfl | (simp; done) | (split_ifs <;> simp; done))
    | with_reducible apply Eng.restart_memOk
    | exact Eng.putScratch_memOk _ _ ‹Eng.memOk _›
    | exact Eng.putParam_memOk _ _ ‹Eng.memOk _›
    | dsimp only
    | fail_if_no_progress with_reducible refine Keeps.upd ?_
    | split

/-- `execThermalTrip` keeps what `Keeps` says. -/
theorem execThermalTrip_keeps (i : Fin 12) (temp : Nat) (s : State) : OutKeeps kc s (execThermalTrip i temp s) := by
  unfold execThermalTrip
  repeat' first
    | with_reducible assumption
    | with_reducible exact Keeps.refl _
    | with_reducible exact CuesKept.refl _
    | (with_reducible refine CuesKept.same ?_; rfl)
    | exact fun _ h => h
    | intro _
    | with_reducible refine OutKeeps.ite ?_ ?_
    | with_reducible refine OutKeeps.next ?_
    | with_reducible refine Keeps.ite ?_ ?_
    | with_reducible refine Keeps.dite ?_ ?_
    | with_reducible refine Keeps.foldl ?_ _ _ ?_
    | with_reducible refine Keeps1.ite ?_ ?_
    | with_reducible refine Keeps1.mk ?_
    | with_reducible apply State.driverDown_keeps
    | with_reducible apply State.updAux_keeps
    | with_reducible apply State.journalFree_keeps
    | (refine Eng.memOk_of ‹Eng.memOk _› ?_ ?_ ?_ <;> first | rfl | (simp; done) | (split_ifs <;> simp; done))
    | with_reducible apply Eng.restart_memOk
    | exact Eng.putScratch_memOk _ _ ‹Eng.memOk _›
    | exact Eng.putParam_memOk _ _ ‹Eng.memOk _›
    | dsimp only
    | fail_if_no_progress with_reducible refine Keeps.upd ?_
    | split

end Sys2Proof.Machine
end

