-- ==== Sys2Proof/Laws/KeepsSetup.lean ====
section
/-! SUPPORT. Every operation of Machine/Setup.lean keeps what `Keeps` says. -/

set_option linter.unusedTactic false
set_option linter.unreachableTactic false

namespace Sys2Proof.Machine

variable {kc : Bool}

/-- `State.setSlot` keeps what `Keeps` says. -/
theorem State.setSlot_keeps {z0 : State} {s : State} (u : UnitId) (k : Nat) (x : Slot) (k_s : Keeps kc z0 s) : Keeps kc z0 (State.setSlot s u k x) := by
  unfold State.setSlot
  repeat' first
    | with_reducible assumption
    | with_reducible exact Keeps.refl _
    | with_reducible exact CuesKept.refl _
    | (with_reducible refine CuesKept.same ?_; rfl)
    | exact fun _ h => h
    | intro _
    | with_reducible refine Keeps.ite ?_ ?_
    | with_reducible refine Keeps.dite ?_ ?_
    | with_reducible refine Keeps.foldl ?_ _ _ ?_
    | with_reducible refine Keeps1.ite ?_ ?_
    | with_reducible refine Keeps1.mk ?_
    | with_reducible apply State.updUnit_keeps
    | (refine Eng.memOk_of ‹Eng.memOk _› ?_ ?_ ?_ <;> first | rfl | (simp; done) | (split_ifs <;> simp; done))
    | with_reducible apply Eng.restart_memOk
    | exact Eng.putScratch_memOk _ _ ‹Eng.memOk _›
    | exact Eng.putParam_memOk _ _ ‹Eng.memOk _›
    | dsimp only
    | fail_if_no_progress with_reducible refine Keeps.upd ?_
    | split

/-- Freeing a slot keeps the memories canonical. -/
theorem Eng.freeSlot_memOk {x : Eng} (g : Prog) (k : Nat) (h : x.memOk) : (x.freeSlot g k).memOk := by
  have h1 := mdrop_wf (p := fun i => decide (g.base ≤ i) && decide (i < g.base + g.len)) h.1
  have h2 := mdrop_wf (p := fun i => decide (4096 * k ≤ i) && decide (i < 4096 * k + 4096)) h.2.1
  exact ⟨h1, h2, h.2.2⟩

/-- A fold of writes keeps the canonical form. -/
theorem mput_foldl_wf {α β : Type} [DecidableEq α] {d : Nat → α} (f : β → Nat) (v : β → α) :
    ∀ (l : List β) (m : List (Nat × α)), mwf d m = true → mwf d (l.foldl (fun m e => mput d (f e) (v e) m) m) = true := by
  intro l
  induction l with
  | nil => intro m h; exact h
  | cons a t ih => intro m h; exact ih _ (mput_wf h)

/-- Loading a slot keeps the memories canonical. -/
theorem Eng.loadSlot_memOk {x : Eng} (k base : Nat) (ws image : List Nat) (h : x.memOk) : (x.loadSlot k base ws image).memOk := by
  exact ⟨mput_foldl_wf _ _ _ _ h.1, mput_foldl_wf _ _ _ _ h.2.1, h.2.2⟩

/-- `State.freeRegion` keeps what `Keeps` says. -/
theorem State.freeRegion_keeps {z s : State} (u : UnitId) (e : EngId) (k : Nat) (h : Keeps kc z s) : Keeps kc z (State.freeRegion s u e k) := by
  exact State.updEng_keeps _ _ (fun x hx => Eng.freeSlot_memOk _ _ hx) h

/-- `State.loadSetup` keeps what `Keeps` says. -/
theorem State.loadSetup_keeps {z0 : State} {s : State} (u : UnitId) (k : Nat) (d : List Byte) (bases : Nat → Nat) (k_s : Keeps kc z0 s) : Keeps kc z0 (State.loadSetup s u k d bases) := by
  unfold State.loadSetup
  repeat' first
    | with_reducible assumption
    | with_reducible exact Keeps.refl _
    | with_reducible exact CuesKept.refl _
    | (with_reducible refine CuesKept.same ?_; rfl)
    | exact fun _ h => h
    | intro _
    | with_reducible refine Keeps.ite ?_ ?_
    | with_reducible refine Keeps.dite ?_ ?_
    | with_reducible refine Keeps.foldl ?_ _ _ ?_
    | with_reducible refine Keeps1.ite ?_ ?_
    | with_reducible refine Keeps1.mk ?_
    | with_reducible apply State.freeRegion_keeps
    | with_reducible apply State.updEng_keeps
    | with_reducible apply State.setSlot_keeps
    | with_reducible apply State.setUState_keeps
    | with_reducible apply State.raise_keeps
    | (refine Eng.memOk_of ‹Eng.memOk _› ?_ ?_ ?_ <;> first | rfl | (simp; done) | (split_ifs <;> simp; done))
    | with_reducible apply Eng.restart_memOk
    | exact Eng.loadSlot_memOk _ _ _ _ ‹Eng.memOk _›
    | exact Eng.putScratch_memOk _ _ ‹Eng.memOk _›
    | exact Eng.putParam_memOk _ _ ‹Eng.memOk _›
    | dsimp only
    | fail_if_no_progress with_reducible refine Keeps.upd ?_
    | split

/-- `execSetupLoad` keeps what `Keeps` says. -/
theorem execSetupLoad_keeps (c : CtxId) (y : Submission) (data : List Byte) (s : State) : OutKeeps kc s (execSetupLoad c y data s) := by
  unfold execSetupLoad
  repeat' first
    | with_reducible assumption
    | with_reducible exact Keeps.refl _
    | with_reducible exact CuesKept.refl _
    | (with_reducible refine CuesKept.same ?_; rfl)
    | exact fun _ h => h
    | intro _
    | with_reducible refine OutKeeps.ite ?_ ?_
    | with_reducible refine OutKeeps.next ?_
    | with_reducible refine Keeps.ite ?_ ?_
    | with_reducible refine Keeps.dite ?_ ?_
    | with_reducible refine Keeps.foldl ?_ _ _ ?_
    | with_reducible refine Keeps1.ite ?_ ?_
    | with_reducible refine Keeps1.mk ?_
    | with_reducible apply State.admin_keeps
    | with_reducible apply State.hostRead_keeps
    | with_reducible apply State.loadSetup_keeps
    | (refine Eng.memOk_of ‹Eng.memOk _› ?_ ?_ ?_ <;> first | rfl | (simp; done) | (split_ifs <;> simp; done))
    | with_reducible apply Eng.restart_memOk
    | exact Eng.putScratch_memOk _ _ ‹Eng.memOk _›
    | exact Eng.putParam_memOk _ _ ‹Eng.memOk _›
    | dsimp only
    | fail_if_no_progress with_reducible refine Keeps.upd ?_
    | split

/-- `execSetupClear` keeps what `Keeps` says. -/
theorem execSetupClear_keeps (c : CtxId) (y : Submission) (s : State) : OutKeeps kc s (execSetupClear c y s) := by
  unfold execSetupClear
  repeat' first
    | with_reducible assumption
    | with_reducible exact Keeps.refl _
    | with_reducible exact CuesKept.refl _
    | (with_reducible refine CuesKept.same ?_; rfl)
    | exact fun _ h => h
    | intro _
    | with_reducible refine OutKeeps.ite ?_ ?_
    | with_reducible refine OutKeeps.next ?_
    | with_reducible refine Keeps.ite ?_ ?_
    | with_reducible refine Keeps.dite ?_ ?_
    | with_reducible refine Keeps.foldl ?_ _ _ ?_
    | with_reducible refine Keeps1.ite ?_ ?_
    | with_reducible refine Keeps1.mk ?_
    | with_reducible apply State.admin_keeps
    | with_reducible apply State.freeRegion_keeps
    | with_reducible apply State.setSlot_keeps
    | with_reducible apply State.setUState_keeps
    | (refine Eng.memOk_of ‹Eng.memOk _› ?_ ?_ ?_ <;> first | rfl | (simp; done) | (split_ifs <;> simp; done))
    | with_reducible apply Eng.restart_memOk
    | exact Eng.putScratch_memOk _ _ ‹Eng.memOk _›
    | exact Eng.putParam_memOk _ _ ‹Eng.memOk _›
    | dsimp only
    | fail_if_no_progress with_reducible refine Keeps.upd ?_
    | split

/-- `State.commitPort` keeps what `Keeps` says. -/
theorem State.commitPort_keeps {z0 : State} {s : State} (p : PortId) (k_s : Keeps kc z0 s) : Keeps kc z0 (State.commitPort s p) := by
  unfold State.commitPort
  repeat' first
    | with_reducible assumption
    | with_reducible exact Keeps.refl _
    | with_reducible exact CuesKept.refl _
    | (with_reducible refine CuesKept.same ?_; rfl)
    | exact fun _ h => h
    | intro _
    | with_reducible refine Keeps.ite ?_ ?_
    | with_reducible refine Keeps.dite ?_ ?_
    | with_reducible refine Keeps.foldl ?_ _ _ ?_
    | with_reducible refine Keeps1.ite ?_ ?_
    | with_reducible refine Keeps1.mk ?_
    | with_reducible apply State.setCell_keeps
    | (refine Eng.memOk_of ‹Eng.memOk _› ?_ ?_ ?_ <;> first | rfl | (simp; done) | (split_ifs <;> simp; done))
    | with_reducible apply Eng.restart_memOk
    | exact Eng.putScratch_memOk _ _ ‹Eng.memOk _›
    | exact Eng.putParam_memOk _ _ ‹Eng.memOk _›
    | dsimp only
    | fail_if_no_progress with_reducible refine Keeps.upd ?_
    | split

/-- `execCommit` keeps what `Keeps` says. -/
theorem execCommit_keeps (c : CtxId) (y : Submission) (s : State) : OutKeeps kc s (execCommit c y s) := by
  unfold execCommit
  repeat' first
    | with_reducible assumption
    | with_reducible exact Keeps.refl _
    | with_reducible exact CuesKept.refl _
    | (with_reducible refine CuesKept.same ?_; rfl)
    | exact fun _ h => h
    | intro _
    | with_reducible refine OutKeeps.ite ?_ ?_
    | with_reducible refine OutKeeps.next ?_
    | with_reducible refine Keeps.ite ?_ ?_
    | with_reducible refine Keeps.dite ?_ ?_
    | with_reducible refine Keeps.foldl ?_ _ _ ?_
    | with_reducible refine Keeps1.ite ?_ ?_
    | with_reducible refine Keeps1.mk ?_
    | with_reducible apply State.admin_keeps
    | with_reducible apply State.commitPort_keeps
    | (refine Eng.memOk_of ‹Eng.memOk _› ?_ ?_ ?_ <;> first | rfl | (simp; done) | (split_ifs <;> simp; done))
    | with_reducible apply Eng.restart_memOk
    | exact Eng.putScratch_memOk _ _ ‹Eng.memOk _›
    | exact Eng.putParam_memOk _ _ ‹Eng.memOk _›
    | dsimp only
    | fail_if_no_progress with_reducible refine Keeps.upd ?_
    | split

/-- `State.startPort` keeps what `Keeps` says. -/
theorem State.startPort_keeps {z0 : State} {s : State} (p : PortId) (k : Nat) (k_s : Keeps kc z0 s) : Keeps kc z0 (State.startPort s p k) := by
  unfold State.startPort
  repeat' first
    | with_reducible assumption
    | with_reducible exact Keeps.refl _
    | with_reducible exact CuesKept.refl _
    | (with_reducible refine CuesKept.same ?_; rfl)
    | exact fun _ h => h
    | intro _
    | with_reducible refine Keeps.ite ?_ ?_
    | with_reducible refine Keeps.dite ?_ ?_
    | with_reducible refine Keeps.foldl ?_ _ _ ?_
    | with_reducible refine Keeps1.ite ?_ ?_
    | with_reducible refine Keeps1.mk ?_
    | with_reducible apply State.stageCut_keeps
    | with_reducible apply State.applyDue_keeps
    | with_reducible apply State.updUnit_keeps
    | with_reducible apply State.setRf_keeps
    | with_reducible apply State.startEngine_keeps
    | with_reducible apply State.updPort_keeps
    | with_reducible apply State.updLtg_keeps
    | with_reducible apply State.setReg_keeps
    | with_reducible apply State.setPortState_keeps
    | with_reducible apply State.lineTick_keeps
    | (refine Eng.memOk_of ‹Eng.memOk _› ?_ ?_ ?_ <;> first | rfl | (simp; done) | (split_ifs <;> simp; done))
    | with_reducible apply Eng.restart_memOk
    | exact Eng.putScratch_memOk _ _ ‹Eng.memOk _›
    | exact Eng.putParam_memOk _ _ ‹Eng.memOk _›
    | dsimp only
    | (refine Eng.memOk_of (Eng.restart_memOk _ _ ‹Eng.memOk _›) ?_ ?_ ?_ <;> rfl)
    | fail_if_no_progress with_reducible refine Keeps.upd ?_
    | split

/-- `State.startAxis` keeps what `Keeps` says. -/
theorem State.startAxis_keeps {z0 : State} {s : State} (a : AxisId) (k : Nat) (k_s : Keeps kc z0 s) : Keeps kc z0 (State.startAxis s a k) := by
  unfold State.startAxis
  repeat' first
    | with_reducible assumption
    | with_reducible exact Keeps.refl _
    | with_reducible exact CuesKept.refl _
    | (with_reducible refine CuesKept.same ?_; rfl)
    | exact fun _ h => h
    | intro _
    | with_reducible refine Keeps.ite ?_ ?_
    | with_reducible refine Keeps.dite ?_ ?_
    | with_reducible refine Keeps.foldl ?_ _ _ ?_
    | with_reducible refine Keeps1.ite ?_ ?_
    | with_reducible refine Keeps1.mk ?_
    | with_reducible apply State.stageCut_keeps
    | with_reducible apply State.updUnit_keeps
    | with_reducible apply State.startEngine_keeps
    | with_reducible apply State.updEng_keeps
    | with_reducible apply State.updAxis_keeps
    | with_reducible apply State.setUState_keeps
    | (refine Eng.memOk_of ‹Eng.memOk _› ?_ ?_ ?_ <;> first | rfl | (simp; done) | (split_ifs <;> simp; done))
    | with_reducible apply Eng.restart_memOk
    | exact Eng.putScratch_memOk _ _ ‹Eng.memOk _›
    | exact Eng.putParam_memOk _ _ ‹Eng.memOk _›
    | dsimp only
    | fail_if_no_progress with_reducible refine Keeps.upd ?_
    | split

/-- `execUnitStart` keeps what `Keeps` says. -/
theorem execUnitStart_keeps (c : CtxId) (y : Submission) (s : State) : OutKeeps kc s (execUnitStart c y s) := by
  unfold execUnitStart
  repeat' first
    | with_reducible assumption
    | with_reducible exact Keeps.refl _
    | with_reducible exact CuesKept.refl _
    | (with_reducible refine CuesKept.same ?_; rfl)
    | exact fun _ h => h
    | intro _
    | with_reducible refine OutKeeps.ite ?_ ?_
    | with_reducible refine OutKeeps.next ?_
    | with_reducible refine Keeps.ite ?_ ?_
    | with_reducible refine Keeps.dite ?_ ?_
    | with_reducible refine Keeps.foldl ?_ _ _ ?_
    | with_reducible refine Keeps1.ite ?_ ?_
    | with_reducible refine Keeps1.mk ?_
    | with_reducible apply State.admin_keeps
    | with_reducible apply State.startPort_keeps
    | with_reducible apply State.startAxis_keeps
    | (refine Eng.memOk_of ‹Eng.memOk _› ?_ ?_ ?_ <;> first | rfl | (simp; done) | (split_ifs <;> simp; done))
    | with_reducible apply Eng.restart_memOk
    | exact Eng.putScratch_memOk _ _ ‹Eng.memOk _›
    | exact Eng.putParam_memOk _ _ ‹Eng.memOk _›
    | dsimp only
    | fail_if_no_progress with_reducible refine Keeps.upd ?_
    | split

/-- `execUnitStop` keeps what `Keeps` says. -/
theorem execUnitStop_keeps (c : CtxId) (y : Submission) (s : State) : OutKeeps kc s (execUnitStop c y s) := by
  unfold execUnitStop
  repeat' first
    | with_reducible assumption
    | with_reducible exact Keeps.refl _
    | with_reducible exact CuesKept.refl _
    | (with_reducible refine CuesKept.same ?_; rfl)
    | exact fun _ h => h
    | intro _
    | with_reducible refine OutKeeps.ite ?_ ?_
    | with_reducible refine OutKeeps.next ?_
    | with_reducible refine Keeps.ite ?_ ?_
    | with_reducible refine Keeps.dite ?_ ?_
    | with_reducible refine Keeps.foldl ?_ _ _ ?_
    | with_reducible refine Keeps1.ite ?_ ?_
    | with_reducible refine Keeps1.mk ?_
    | with_reducible apply State.admin_keeps
    | with_reducible apply State.clearGearArm_keeps
    | with_reducible apply State.drainUnit_keeps
    | with_reducible apply State.updUnit_keeps
    | with_reducible apply State.axisHold_keeps
    | with_reducible apply State.paceLeave_keeps
    | (refine Eng.memOk_of ‹Eng.memOk _› ?_ ?_ ?_ <;> first | rfl | (simp; done) | (split_ifs <;> simp; done))
    | with_reducible apply Eng.restart_memOk
    | exact Eng.putScratch_memOk _ _ ‹Eng.memOk _›
    | exact Eng.putParam_memOk _ _ ‹Eng.memOk _›
    | dsimp only
    | fail_if_no_progress with_reducible refine Keeps.upd ?_
    | split

/-- `execCutGroup` keeps what `Keeps` says. -/
theorem execCutGroup_keeps (c : CtxId) (y : Submission) (s : State) : OutKeeps kc s (execCutGroup c y s) := by
  unfold execCutGroup
  repeat' first
    | with_reducible assumption
    | with_reducible exact Keeps.refl _
    | with_reducible exact CuesKept.refl _
    | (with_reducible refine CuesKept.same ?_; rfl)
    | exact fun _ h => h
    | intro _
    | with_reducible refine OutKeeps.ite ?_ ?_
    | with_reducible refine OutKeeps.next ?_
    | with_reducible refine Keeps.ite ?_ ?_
    | with_reducible refine Keeps.dite ?_ ?_
    | with_reducible refine Keeps.foldl ?_ _ _ ?_
    | with_reducible refine Keeps1.ite ?_ ?_
    | with_reducible refine Keeps1.mk ?_
    | with_reducible apply State.admin_keeps
    | with_reducible apply State.updUnit_keeps
    | with_reducible apply State.updGroup_keeps
    | (refine Eng.memOk_of ‹Eng.memOk _› ?_ ?_ ?_ <;> first | rfl | (simp; done) | (split_ifs <;> simp; done))
    | with_reducible apply Eng.restart_memOk
    | exact Eng.putScratch_memOk _ _ ‹Eng.memOk _›
    | exact Eng.putParam_memOk _ _ ‹Eng.memOk _›
    | dsimp only
    | fail_if_no_progress with_reducible refine Keeps.upd ?_
    | split

/-- `State.armCut` keeps what `Keeps` says. -/
theorem State.armCut_keeps {z0 : State} {s : State} (g : GroupId) (kind : Nat) (ref : Nat) (value : Int) (take : List (UnitId × Nat)) (k_s : Keeps kc z0 s) : Keeps kc z0 (State.armCut s g kind ref value take) := by
  unfold State.armCut
  repeat' first
    | with_reducible assumption
    | with_reducible exact Keeps.refl _
    | with_reducible exact CuesKept.refl _
    | (with_reducible refine CuesKept.same ?_; rfl)
    | exact fun _ h => h
    | intro _
    | with_reducible refine Keeps.ite ?_ ?_
    | with_reducible refine Keeps.dite ?_ ?_
    | with_reducible refine Keeps.foldl ?_ _ _ ?_
    | with_reducible refine Keeps1.ite ?_ ?_
    | with_reducible refine Keeps1.mk ?_
    | with_reducible apply State.updGroup_keeps
    | with_reducible apply State.updUnit_keeps
    | with_reducible apply State.setUState_keeps
    | (refine Eng.memOk_of ‹Eng.memOk _› ?_ ?_ ?_ <;> first | rfl | (simp; done) | (split_ifs <;> simp; done))
    | with_reducible apply Eng.restart_memOk
    | exact Eng.putScratch_memOk _ _ ‹Eng.memOk _›
    | exact Eng.putParam_memOk _ _ ‹Eng.memOk _›
    | dsimp only
    | fail_if_no_progress with_reducible refine Keeps.upd ?_
    | split

/-- `execCutArm` keeps what `Keeps` says. -/
theorem execCutArm_keeps (c : CtxId) (y : Submission) (s : State) : OutKeeps kc s (execCutArm c y s) := by
  unfold execCutArm
  repeat' first
    | with_reducible assumption
    | with_reducible exact Keeps.refl _
    | with_reducible exact CuesKept.refl _
    | (with_reducible refine CuesKept.same ?_; rfl)
    | exact fun _ h => h
    | intro _
    | with_reducible refine OutKeeps.ite ?_ ?_
    | with_reducible refine OutKeeps.next ?_
    | with_reducible refine Keeps.ite ?_ ?_
    | with_reducible refine Keeps.dite ?_ ?_
    | with_reducible refine Keeps.foldl ?_ _ _ ?_
    | with_reducible refine Keeps1.ite ?_ ?_
    | with_reducible refine Keeps1.mk ?_
    | with_reducible apply State.admin_keeps
    | with_reducible apply State.armCut_keeps
    | (refine Eng.memOk_of ‹Eng.memOk _› ?_ ?_ ?_ <;> first | rfl | (simp; done) | (split_ifs <;> simp; done))
    | with_reducible apply Eng.restart_memOk
    | exact Eng.putScratch_memOk _ _ ‹Eng.memOk _›
    | exact Eng.putParam_memOk _ _ ‹Eng.memOk _›
    | dsimp only
    | fail_if_no_progress with_reducible refine Keeps.upd ?_
    | split

/-- `execCutDisarm` keeps what `Keeps` says. -/
theorem execCutDisarm_keeps (c : CtxId) (y : Submission) (s : State) : OutKeeps kc s (execCutDisarm c y s) := by
  exact OutKeeps.next (State.admin_keeps c _ y _ _ (Keeps.refl s) (fun t h => Keeps1.mk (State.disarm_keeps _ h)))

end Sys2Proof.Machine
end

