-- ==== Sys2Proof/Laws/KeepsFaults.lean ====
section
/-! SUPPORT. Every operation of Machine/Faults.lean keeps what `Keeps` says. -/

set_option linter.unusedTactic false
set_option linter.unreachableTactic false

namespace Sys2Proof.Machine

variable {kc : Bool}

/-- `State.retireSlice` keeps what `Keeps` says. -/
theorem State.retireSlice_keeps {z0 : State} {s : State} (p : PortId) (t : Fin 16) (slice : Nat) (cause : Nat) (k_s : Keeps kc z0 s) : Keeps1 kc z0 (State.retireSlice s p t slice cause) := by
  unfold State.retireSlice
  repeat' first
    | with_reducible assumption
    | with_reducible exact Keeps.refl _
    | with_reducible exact CuesKept.refl _
    | (with_reducible refine CuesKept.same ?_; rfl)
    | exact fun _ h => h
    | intro _
    | with_reducible refine Keeps.ite ?_ ?_
    | with_reducible refine Keeps.dite ?_ ?_
    | with_reducible refine Keeps.foldl ?_ _ _ ?_
    | with_reducible refine Keeps1.ite ?_ ?_
    | with_reducible refine Keeps1.mk ?_
    | with_reducible apply State.updConv_keeps
    | with_reducible apply State.restartBg_keeps
    | with_reducible apply State.raise_keeps
    | (refine Eng.memOk_of ‹Eng.memOk _› ?_ ?_ ?_ <;> first | rfl | (simp; done) | (split_ifs <;> simp; done))
    | with_reducible apply Eng.restart_memOk
    | exact Eng.putScratch_memOk _ _ ‹Eng.memOk _›
    | exact Eng.putParam_memOk _ _ ‹Eng.memOk _›
    | dsimp only
    | (refine Eng.memOk_of (Eng.restart_memOk _ _ ‹Eng.memOk _›) ?_ ?_ ?_ <;> rfl)
    | fail_if_no_progress with_reducible refine Keeps.upd ?_
    | split

/-- `State.retireLane` keeps what `Keeps` says. -/
theorem State.retireLane_keeps {z0 : State} {s : State} (p : PortId) (lane : Option Nat) (k_s : Keeps kc z0 s) : Keeps kc z0 (State.retireLane s p lane) := by
  unfold State.retireLane
  repeat' first
    | with_reducible assumption
    | with_reducible exact Keeps.refl _
    | with_reducible exact CuesKept.refl _
    | (with_reducible refine CuesKept.same ?_; rfl)
    | exact fun _ h => h
    | intro _
    | with_reducible refine Keeps.ite ?_ ?_
    | with_reducible refine Keeps.dite ?_ ?_
    | with_reducible refine Keeps.foldl ?_ _ _ ?_
    | with_reducible refine Keeps1.ite ?_ ?_
    | with_reducible refine Keeps1.mk ?_
    | with_reducible apply State.updPipe_keeps
    | with_reducible apply State.setRf_keeps
    | with_reducible apply State.raise_keeps
    | (refine Eng.memOk_of ‹Eng.memOk _› ?_ ?_ ?_ <;> first | rfl | (simp; done) | (split_ifs <;> simp; done))
    | with_reducible apply Eng.restart_memOk
    | exact Eng.putScratch_memOk _ _ ‹Eng.memOk _›
    | exact Eng.putParam_memOk _ _ ‹Eng.memOk _›
    | dsimp only
    | fail_if_no_progress with_reducible refine Keeps.upd ?_
    | split

/-- `State.dropStages` keeps what `Keeps` says. -/
theorem State.dropStages_keeps {z0 : State} {s : State} (p : PortId) (emit : Bool) (k_s : Keeps kc z0 s) : Keeps kc z0 (State.dropStages s p emit) := by
  unfold State.dropStages
  repeat' first
    | with_reducible assumption
    | with_reducible exact Keeps.refl _
    | with_reducible exact CuesKept.refl _
    | (with_reducible refine CuesKept.same ?_; rfl)
    | exact fun _ h => h
    | intro _
    | with_reducible refine Keeps.ite ?_ ?_
    | with_reducible refine Keeps.dite ?_ ?_
    | with_reducible refine Keeps.foldl ?_ _ _ ?_
    | with_reducible refine Keeps1.ite ?_ ?_
    | with_reducible refine Keeps1.mk ?_
    | with_reducible apply State.verifyReport_keeps
    | with_reducible apply State.undoCal_keeps
    | with_reducible apply State.dropQuiet_keeps
    | with_reducible apply State.updPipe_keeps
    | (refine Eng.memOk_of ‹Eng.memOk _› ?_ ?_ ?_ <;> first | rfl | (simp; done) | (split_ifs <;> simp; done))
    | with_reducible apply Eng.restart_memOk
    | exact Eng.putScratch_memOk _ _ ‹Eng.memOk _›
    | exact Eng.putParam_memOk _ _ ‹Eng.memOk _›
    | dsimp only
    | fail_if_no_progress with_reducible refine Keeps.upd ?_
    | split

/-- `State.reloadEngines` keeps what `Keeps` says. -/
theorem State.reloadEngines_keeps {z0 : State} {s : State} (u : UnitId) (k_s : Keeps kc z0 s) : Keeps kc z0 (State.reloadEngines s u) := by
  unfold State.reloadEngines
  repeat' first
    | with_reducible assumption
    | with_reducible exact Keeps.refl _
    | with_reducible exact CuesKept.refl _
    | (with_reducible refine CuesKept.same ?_; rfl)
    | exact fun _ h => h
    | intro _
    | with_reducible refine Keeps.ite ?_ ?_
    | with_reducible refine Keeps.dite ?_ ?_
    | with_reducible refine Keeps.foldl ?_ _ _ ?_
    | with_reducible refine Keeps1.ite ?_ ?_
    | with_reducible refine Keeps1.mk ?_
    | with_reducible apply State.takeDue_keeps
    | with_reducible apply State.takeAxisDue_keeps
    | with_reducible apply State.updUnit_keeps
    | with_reducible apply State.startEngine_keeps
    | with_reducible apply State.updPipe_keeps
    | with_reducible apply State.banksInForce_keeps
    | (refine Eng.memOk_of ‹Eng.memOk _› ?_ ?_ ?_ <;> first | rfl | (simp; done) | (split_ifs <;> simp; done))
    | with_reducible apply Eng.restart_memOk
    | exact Eng.putScratch_memOk _ _ ‹Eng.memOk _›
    | exact Eng.putParam_memOk _ _ ‹Eng.memOk _›
    | dsimp only
    | fail_if_no_progress with_reducible refine Keeps.upd ?_
    | split

/-- `State.resetEngines` keeps what `Keeps` says. -/
theorem State.resetEngines_keeps {z : State} {s : State} (u : UnitId) (hs : Keeps kc z s) : Keeps kc z (State.resetEngines s u) := by
  unfold State.resetEngines
  refine Keeps.foldl (fun t e ht => State.updEng_keeps _ _ (fun x hx => ?_) ht) _ _ hs
  split
  · rename_i k _
    exact Eng.memOk_of (Eng.restart_memOk (s.slotProg e k).entry true hx) rfl rfl rfl
  · exact Eng.memOk_of (Eng.restart_memOk 0 true hx) rfl rfl rfl

/-- `State.reloadUnit` keeps what `Keeps` says. -/
theorem State.reloadUnit_keeps {z0 : State} {s : State} (u : UnitId) (k_s : Keeps kc z0 s) : Keeps kc z0 (State.reloadUnit s u) := by
  unfold State.reloadUnit
  repeat' first
    | with_reducible assumption
    | with_reducible exact Keeps.refl _
    | with_reducible exact CuesKept.refl _
    | (with_reducible refine CuesKept.same ?_; rfl)
    | exact fun _ h => h
    | intro _
    | with_reducible refine Keeps.ite ?_ ?_
    | with_reducible refine Keeps.dite ?_ ?_
    | with_reducible refine Keeps.foldl ?_ _ _ ?_
    | with_reducible refine Keeps1.ite ?_ ?_
    | with_reducible refine Keeps1.mk ?_
    | with_reducible apply State.dropStages_keeps
    | with_reducible apply State.reloadEngines_keeps
    | (refine Eng.memOk_of ‹Eng.memOk _› ?_ ?_ ?_ <;> first | rfl | (simp; done) | (split_ifs <;> simp; done))
    | with_reducible apply Eng.restart_memOk
    | exact Eng.putScratch_memOk _ _ ‹Eng.memOk _›
    | exact Eng.putParam_memOk _ _ ‹Eng.memOk _›
    | dsimp only
    | fail_if_no_progress with_reducible refine Keeps.upd ?_
    | split

/-- `State.dropServed` keeps what `Keeps` says. -/
theorem State.dropServed_keeps {z0 : State} {s : State} (f : FaultRec) (k_s : Keeps kc z0 s) : Keeps kc z0 (State.dropServed s f) := by
  unfold State.dropServed
  repeat' first
    | with_reducible assumption
    | with_reducible exact Keeps.refl _
    | with_reducible exact CuesKept.refl _
    | (with_reducible refine CuesKept.same ?_; rfl)
    | exact fun _ h => h
    | intro _
    | with_reducible refine Keeps.ite ?_ ?_
    | with_reducible refine Keeps.dite ?_ ?_
    | with_reducible refine Keeps.foldl ?_ _ _ ?_
    | with_reducible refine Keeps1.ite ?_ ?_
    | with_reducible refine Keeps1.mk ?_
    | with_reducible apply State.code_keeps
    | with_reducible apply State.undoCal_keeps
    | with_reducible apply State.dropLine_keeps
    | (refine Eng.memOk_of ‹Eng.memOk _› ?_ ?_ ?_ <;> first | rfl | (simp; done) | (split_ifs <;> simp; done))
    | with_reducible apply Eng.restart_memOk
    | exact Eng.putScratch_memOk _ _ ‹Eng.memOk _›
    | exact Eng.putParam_memOk _ _ ‹Eng.memOk _›
    | dsimp only
    | fail_if_no_progress with_reducible refine Keeps.upd ?_
    | split

/-- `State.wedge` keeps what `Keeps` says. -/
theorem State.wedge_keeps {z0 : State} {s : State} (u : UnitId) (k_s : Keeps kc z0 s) : Keeps kc z0 (State.wedge s u) := by
  unfold State.wedge
  repeat' first
    | with_reducible assumption
    | with_reducible exact Keeps.refl _
    | with_reducible exact CuesKept.refl _
    | (with_reducible refine CuesKept.same ?_; rfl)
    | exact fun _ h => h
    | intro _
    | with_reducible refine Keeps.ite ?_ ?_
    | with_reducible refine Keeps.dite ?_ ?_
    | with_reducible refine Keeps.foldl ?_ _ _ ?_
    | with_reducible refine Keeps1.ite ?_ ?_
    | with_reducible refine Keeps1.mk ?_
    | with_reducible apply State.changeUnit_keeps
    | with_reducible apply State.dropStages_keeps
    | with_reducible apply State.updPort_keeps
    | with_reducible apply State.idlePins_keeps
    | with_reducible apply State.axisHold_keeps
    | with_reducible apply State.paceLeave_keeps
    | with_reducible apply State.updEng_keeps
    | with_reducible apply State.raise_keeps
    | (refine Eng.memOk_of ‹Eng.memOk _› ?_ ?_ ?_ <;> first | rfl | (simp; done) | (split_ifs <;> simp; done))
    | with_reducible apply Eng.restart_memOk
    | exact Eng.putScratch_memOk _ _ ‹Eng.memOk _›
    | exact Eng.putParam_memOk _ _ ‹Eng.memOk _›
    | dsimp only
    | fail_if_no_progress with_reducible refine Keeps.upd ?_
    | split

/-- `State.returnUnit` keeps what `Keeps` says. -/
theorem State.returnUnit_keeps {z0 : State} {s : State} (u : UnitId) (cause : Nat) (k_s : Keeps kc z0 s) : Keeps kc z0 (State.returnUnit s u cause) := by
  unfold State.returnUnit
  repeat' first
    | with_reducible assumption
    | with_reducible exact Keeps.refl _
    | with_reducible exact CuesKept.refl _
    | (with_reducible refine CuesKept.same ?_; rfl)
    | exact fun _ h => h
    | intro _
    | with_reducible refine Keeps.ite ?_ ?_
    | with_reducible refine Keeps.dite ?_ ?_
    | with_reducible refine Keeps.foldl ?_ _ _ ?_
    | with_reducible refine Keeps1.ite ?_ ?_
    | with_reducible refine Keeps1.mk ?_
    | with_reducible apply State.changeUnit_keeps
    | with_reducible apply State.updPort_keeps
    | with_reducible apply State.haltPort_keeps
    | (refine Eng.memOk_of ‹Eng.memOk _› ?_ ?_ ?_ <;> first | rfl | (simp; done) | (split_ifs <;> simp; done))
    | with_reducible apply Eng.restart_memOk
    | exact Eng.putScratch_memOk _ _ ‹Eng.memOk _›
    | exact Eng.putParam_memOk _ _ ‹Eng.memOk _›
    | dsimp only
    | fail_if_no_progress with_reducible refine Keeps.upd ?_
    | split

/-- `State.programTrap` keeps what `Keeps` says. -/
theorem State.programTrap_keeps {z0 : State} {s : State} (u : UnitId) (k_s : Keeps kc z0 s) : Keeps kc z0 (State.programTrap s u) := by
  unfold State.programTrap
  repeat' first
    | with_reducible assumption
    | with_reducible exact Keeps.refl _
    | with_reducible exact CuesKept.refl _
    | (with_reducible refine CuesKept.same ?_; rfl)
    | exact fun _ h => h
    | intro _
    | with_reducible refine Keeps.ite ?_ ?_
    | with_reducible refine Keeps.dite ?_ ?_
    | with_reducible refine Keeps.foldl ?_ _ _ ?_
    | with_reducible refine Keeps1.ite ?_ ?_
    | with_reducible refine Keeps1.mk ?_
    | with_reducible apply State.dropQuiet_keeps
    | with_reducible apply State.updPort_keeps
    | with_reducible apply State.dropStages_keeps
    | with_reducible apply State.haltPort_keeps
    | with_reducible apply State.axisHold_keeps
    | with_reducible apply State.paceLeave_keeps
    | with_reducible apply State.updEng_keeps
    | with_reducible apply State.setUState_keeps
    | (refine Eng.memOk_of ‹Eng.memOk _› ?_ ?_ ?_ <;> first | rfl | (simp; done) | (split_ifs <;> simp; done))
    | with_reducible apply Eng.restart_memOk
    | exact Eng.putScratch_memOk _ _ ‹Eng.memOk _›
    | exact Eng.putParam_memOk _ _ ‹Eng.memOk _›
    | dsimp only
    | fail_if_no_progress with_reducible refine Keeps.upd ?_
    | split

/-- `State.remapRow` keeps what `Keeps` says. -/
theorem State.remapRow_keeps {z0 : State} {s : State} (p : PortId) (table : Nat) (bankEntry : Nat) (k_s : Keeps kc z0 s) : Keeps kc z0 (State.remapRow s p table bankEntry) := by
  unfold State.remapRow
  repeat' first
    | with_reducible assumption
    | with_reducible exact Keeps.refl _
    | with_reducible exact CuesKept.refl _
    | (with_reducible refine CuesKept.same ?_; rfl)
    | exact fun _ h => h
    | intro _
    | with_reducible refine Keeps.ite ?_ ?_
    | with_reducible refine Keeps.dite ?_ ?_
    | with_reducible refine Keeps.foldl ?_ _ _ ?_
    | with_reducible refine Keeps1.ite ?_ ?_
    | with_reducible refine Keeps1.mk ?_
    | with_reducible apply State.updPipe_keeps
    | (refine Eng.memOk_of ‹Eng.memOk _› ?_ ?_ ?_ <;> first | rfl | (simp; done) | (split_ifs <;> simp; done))
    | with_reducible apply Eng.restart_memOk
    | exact Eng.putScratch_memOk _ _ ‹Eng.memOk _›
    | exact Eng.putParam_memOk _ _ ‹Eng.memOk _›
    | dsimp only
    | fail_if_no_progress with_reducible refine Keeps.upd ?_
    | split

/-- `State.classify` keeps what `Keeps` says. -/
theorem State.classify_keeps {z0 : State} {s : State} (f : FaultRec) (failed : Bool) (other : Bool) (k_s : Keeps kc z0 s) : Keeps1 kc z0 (State.classify s f failed other) := by
  unfold State.classify
  repeat' first
    | with_reducible assumption
    | with_reducible exact Keeps.refl _
    | with_reducible exact CuesKept.refl _
    | (with_reducible refine CuesKept.same ?_; rfl)
    | exact fun _ h => h
    | intro _
    | with_reducible refine Keeps.ite ?_ ?_
    | with_reducible refine Keeps.dite ?_ ?_
    | with_reducible refine Keeps.foldl ?_ _ _ ?_
    | with_reducible refine Keeps1.ite ?_ ?_
    | with_reducible refine Keeps1.mk ?_
    | with_reducible apply State.code_keeps
    | with_reducible apply State.retireSlice_keeps
    | with_reducible apply State.retireLane_keeps
    | with_reducible apply State.reloadUnit_keeps
    | with_reducible apply State.remapRow_keeps
    | (with_reducible refine Keeps1.fst ?_; with_reducible assumption)
    | (with_reducible refine Keeps1.fst ?_; with_reducible first | apply State.retireSlice_keeps | refine Keeps1.foldl ?_ _ _ ?_)
    | (refine Eng.memOk_of ‹Eng.memOk _› ?_ ?_ ?_ <;> first | rfl | (simp; done) | (split_ifs <;> simp; done))
    | with_reducible apply Eng.restart_memOk
    | exact Eng.putScratch_memOk _ _ ‹Eng.memOk _›
    | exact Eng.putParam_memOk _ _ ‹Eng.memOk _›
    | dsimp only
    | fail_if_no_progress with_reducible refine Keeps.upd ?_
    | split

/-- `State.joinedReload` keeps what `Keeps` says. -/
theorem State.joinedReload_keeps {z0 : State} {s : State} (f : FaultRec) (result : Nat) (k_s : Keeps kc z0 s) : Keeps kc z0 (State.joinedReload s f result) := by
  unfold State.joinedReload
  repeat' first
    | with_reducible assumption
    | with_reducible exact Keeps.refl _
    | with_reducible exact CuesKept.refl _
    | (with_reducible refine CuesKept.same ?_; rfl)
    | exact fun _ h => h
    | intro _
    | with_reducible refine Keeps.ite ?_ ?_
    | with_reducible refine Keeps.dite ?_ ?_
    | with_reducible refine Keeps.foldl ?_ _ _ ?_
    | with_reducible refine Keeps1.ite ?_ ?_
    | with_reducible refine Keeps1.mk ?_
    | with_reducible apply State.code_keeps
    | with_reducible apply State.reloadUnit_keeps
    | (refine Eng.memOk_of ‹Eng.memOk _› ?_ ?_ ?_ <;> first | rfl | (simp; done) | (split_ifs <;> simp; done))
    | with_reducible apply Eng.restart_memOk
    | exact Eng.putScratch_memOk _ _ ‹Eng.memOk _›
    | exact Eng.putParam_memOk _ _ ‹Eng.memOk _›
    | dsimp only
    | fail_if_no_progress with_reducible refine Keeps.upd ?_
    | split

/-- `State.unitAfter` keeps what `Keeps` says. -/
theorem State.unitAfter_keeps {z0 : State} {s : State} (u : UnitId) (waits : Bool) (result : Nat) (k_s : Keeps kc z0 s) : Keeps1 kc z0 (State.unitAfter s u waits result) := by
  unfold State.unitAfter
  repeat' first
    | with_reducible assumption
    | with_reducible exact Keeps.refl _
    | with_reducible exact CuesKept.refl _
    | (with_reducible refine CuesKept.same ?_; rfl)
    | exact fun _ h => h
    | intro _
    | with_reducible refine Keeps.ite ?_ ?_
    | with_reducible refine Keeps.dite ?_ ?_
    | with_reducible refine Keeps.foldl ?_ _ _ ?_
    | with_reducible refine Keeps1.ite ?_ ?_
    | with_reducible refine Keeps1.mk ?_
    | with_reducible apply State.updUnit_keeps
    | with_reducible apply State.wedge_keeps
    | with_reducible apply State.programTrap_keeps
    | with_reducible apply State.returnUnit_keeps
    | (refine Eng.memOk_of ‹Eng.memOk _› ?_ ?_ ?_ <;> first | rfl | (simp; done) | (split_ifs <;> simp; done))
    | with_reducible apply Eng.restart_memOk
    | exact Eng.putScratch_memOk _ _ ‹Eng.memOk _›
    | exact Eng.putParam_memOk _ _ ‹Eng.memOk _›
    | dsimp only
    | fail_if_no_progress with_reducible refine Keeps.upd ?_
    | split

/-- `State.scriptAfter` keeps what `Keeps` says. -/
theorem State.scriptAfter_keeps {z0 : State} {s : State} (c : ScriptId) (hardware : Bool) (k_s : Keeps kc z0 s) : Keeps kc z0 (State.scriptAfter s c hardware) := by
  unfold State.scriptAfter
  repeat' first
    | with_reducible assumption
    | with_reducible exact Keeps.refl _
    | with_reducible exact CuesKept.refl _
    | (with_reducible refine CuesKept.same ?_; rfl)
    | exact fun _ h => h
    | intro _
    | with_reducible refine Keeps.ite ?_ ?_
    | with_reducible refine Keeps.dite ?_ ?_
    | with_reducible refine Keeps.foldl ?_ _ _ ?_
    | with_reducible refine Keeps1.ite ?_ ?_
    | with_reducible refine Keeps1.mk ?_
    | with_reducible apply State.updScript_keeps
    | with_reducible apply State.raise_keeps
    | (refine Eng.memOk_of ‹Eng.memOk _› ?_ ?_ ?_ <;> first | rfl | (simp; done) | (split_ifs <;> simp; done))
    | with_reducible apply Eng.restart_memOk
    | exact Eng.putScratch_memOk _ _ ‹Eng.memOk _›
    | exact Eng.putParam_memOk _ _ ‹Eng.memOk _›
    | dsimp only
    | fail_if_no_progress with_reducible refine Keeps.upd ?_
    | split

/-- `State.reportFault` keeps what `Keeps` says. -/
theorem State.reportFault_keeps {z0 : State} {s : State} (kind : Nat) (unit : Nat) (code : Nat) (result : Nat) (k_s : Keeps kc z0 s) : Keeps kc z0 (State.reportFault s kind unit code result) := by
  unfold State.reportFault
  repeat' first
    | with_reducible assumption
    | with_reducible exact Keeps.refl _
    | with_reducible exact CuesKept.refl _
    | (with_reducible refine CuesKept.same ?_; rfl)
    | exact fun _ h => h
    | intro _
    | with_reducible refine Keeps.ite ?_ ?_
    | with_reducible refine Keeps.dite ?_ ?_
    | with_reducible refine Keeps.foldl ?_ _ _ ?_
    | with_reducible refine Keeps1.ite ?_ ?_
    | with_reducible refine Keeps1.mk ?_
    | with_reducible apply State.raise_keeps
    | with_reducible apply State.code_keeps
    | with_reducible apply State.setReg_keeps
    | with_reducible apply State.incRf_keeps
    | with_reducible apply State.journal_keeps
    | (refine Eng.memOk_of ‹Eng.memOk _› ?_ ?_ ?_ <;> first | rfl | (simp; done) | (split_ifs <;> simp; done))
    | with_reducible apply Eng.restart_memOk
    | exact Eng.putScratch_memOk _ _ ‹Eng.memOk _›
    | exact Eng.putParam_memOk _ _ ‹Eng.memOk _›
    | dsimp only
    | fail_if_no_progress with_reducible refine Keeps.upd ?_
    | split

/-- `State.resetChan` keeps what `Keeps` says. -/
theorem State.resetChan_keeps {z0 : State} {s : State} (c : ChanId) (k_s : Keeps kc z0 s) : Keeps kc z0 (State.resetChan s c) := by
  unfold State.resetChan
  repeat' first
    | with_reducible assumption
    | with_reducible exact Keeps.refl _
    | with_reducible exact CuesKept.refl _
    | (with_reducible refine CuesKept.same ?_; rfl)
    | exact fun _ h => h
    | intro _
    | with_reducible refine Keeps.ite ?_ ?_
    | with_reducible refine Keeps.dite ?_ ?_
    | with_reducible refine Keeps.foldl ?_ _ _ ?_
    | with_reducible refine Keeps1.ite ?_ ?_
    | with_reducible refine Keeps1.mk ?_
    | with_reducible apply State.updChan_keeps
    | with_reducible apply State.chanPush_keeps
    | (refine Eng.memOk_of ‹Eng.memOk _› ?_ ?_ ?_ <;> first | rfl | (simp; done) | (split_ifs <;> simp; done))
    | with_reducible apply Eng.restart_memOk
    | exact Eng.putScratch_memOk _ _ ‹Eng.memOk _›
    | exact Eng.putParam_memOk _ _ ‹Eng.memOk _›
    | dsimp only
    | fail_if_no_progress with_reducible refine Keeps.upd ?_
    | split

/-- `execFaultClassified` keeps what `Keeps` says. -/
theorem execFaultClassified_keeps (i : Nat) (failed : Bool) (other : Bool) (s : State) : OutKeeps kc s (execFaultClassified i failed other s) := by
  unfold execFaultClassified
  repeat' first
    | with_reducible assumption
    | with_reducible exact Keeps.refl _
    | with_reducible exact CuesKept.refl _
    | (with_reducible refine CuesKept.same ?_; rfl)
    | exact fun _ h => h
    | intro _
    | with_reducible refine OutKeeps.ite ?_ ?_
    | with_reducible refine OutKeeps.next ?_
    | with_reducible refine Keeps.ite ?_ ?_
    | with_reducible refine Keeps.dite ?_ ?_
    | with_reducible refine Keeps.foldl ?_ _ _ ?_
    | with_reducible refine Keeps1.ite ?_ ?_
    | with_reducible refine Keeps1.mk ?_
    | with_reducible apply State.dropServed_keeps
    | with_reducible apply State.classify_keeps
    | with_reducible apply State.joinedReload_keeps
    | with_reducible apply State.unitAfter_keeps
    | with_reducible apply State.reportFault_keeps
    | with_reducible apply State.resetChan_keeps
    | with_reducible apply State.updChan_keeps
    | with_reducible apply State.code_keeps
    | with_reducible apply State.scriptAfter_keeps
    | (with_reducible refine Keeps1.fst ?_; with_reducible assumption)
    | (with_reducible refine Keeps1.fst ?_; with_reducible first | apply State.classify_keeps | apply State.unitAfter_keeps | refine Keeps1.foldl ?_ _ _ ?_)
    | (refine Eng.memOk_of ‹Eng.memOk _› ?_ ?_ ?_ <;> first | rfl | (simp; done) | (split_ifs <;> simp; done))
    | with_reducible apply Eng.restart_memOk
    | exact Eng.putScratch_memOk _ _ ‹Eng.memOk _›
    | exact Eng.putParam_memOk _ _ ‹Eng.memOk _›
    | dsimp only
    | fail_if_no_progress with_reducible refine Keeps.upd ?_
    | split

/-- `State.resetPort` keeps what `Keeps` says. -/
theorem State.resetPort_keeps {z0 : State} {s : State} (p : PortId) (k_s : Keeps kc z0 s) : Keeps kc z0 (State.resetPort s p) := by
  unfold State.resetPort
  repeat' first
    | with_reducible assumption
    | with_reducible exact Keeps.refl _
    | with_reducible exact CuesKept.refl _
    | (with_reducible refine CuesKept.same ?_; rfl)
    | with_reducible exact fun _ h => h
    | intro _
    | with_reducible refine Keeps.ite ?_ ?_
    | with_reducible refine Keeps.dite ?_ ?_
    | with_reducible refine Keeps.foldl ?_ _ _ ?_
    | with_reducible refine Keeps1.ite ?_ ?_
    | with_reducible refine Keeps1.mk ?_
    | with_reducible apply State.abortCap_keeps
    | with_reducible apply State.dropStages_keeps
    | with_reducible apply State.updPort_keeps
    | with_reducible apply State.setRf_keeps
    | with_reducible apply State.idlePins_keeps
    | with_reducible apply State.showQueue_keeps
    | with_reducible apply State.updEng_keeps
    | (refine Eng.memOk_of ‹Eng.memOk _› ?_ ?_ ?_ <;> first | rfl | (simp; done) | (split_ifs <;> simp; done))
    | with_reducible apply Eng.restart_memOk
    | exact Eng.putScratch_memOk _ _ ‹Eng.memOk _›
    | exact Eng.putParam_memOk _ _ ‹Eng.memOk _›
    | dsimp only
    | (refine Eng.memOk_of (Eng.restart_memOk _ _ ‹Eng.memOk _›) ?_ ?_ ?_ <;> rfl)
    | fail_if_no_progress with_reducible refine Keeps.upd ?_
    | split

/-- `State.resetWork` keeps what `Keeps` says. -/
theorem State.resetWork_keeps {z0 : State} {s : State} (k_s : Keeps kc z0 s) : Keeps kc z0 (State.resetWork s) := by
  unfold State.resetWork
  repeat' first
    | with_reducible assumption
    | with_reducible exact Keeps.refl _
    | with_reducible exact CuesKept.refl _
    | (with_reducible refine CuesKept.same ?_; rfl)
    | with_reducible exact fun _ h => h
    | intro _
    | with_reducible refine Keeps.ite ?_ ?_
    | with_reducible refine Keeps.dite ?_ ?_
    | with_reducible refine Keeps.foldl ?_ _ _ ?_
    | with_reducible refine Keeps1.ite ?_ ?_
    | with_reducible refine Keeps1.mk ?_
    | with_reducible apply State.resetPort_keeps
    | with_reducible apply State.updEng_keeps
    | with_reducible apply State.resetChan_keeps
    | with_reducible apply State.rewindsEnd_keeps
    | (refine Eng.memOk_of ‹Eng.memOk _› ?_ ?_ ?_ <;> first | rfl | (simp; done) | (split_ifs <;> simp; done))
    | with_reducible apply Eng.restart_memOk
    | exact Eng.putScratch_memOk _ _ ‹Eng.memOk _›
    | exact Eng.putParam_memOk _ _ ‹Eng.memOk _›
    | dsimp only
    | fail_if_no_progress with_reducible refine Keeps.upd ?_
    | split

/-- `State.resetScripts` keeps what `Keeps` says. -/
theorem State.resetScripts_keeps {z0 : State} {s : State} (k_s : Keeps kc z0 s) : Keeps kc z0 (State.resetScripts s) := by
  unfold State.resetScripts
  repeat' first
    | with_reducible assumption
    | with_reducible exact Keeps.refl _
    | with_reducible exact CuesKept.refl _
    | (with_reducible refine CuesKept.same ?_; rfl)
    | with_reducible exact fun _ h => h
    | intro _
    | with_reducible refine Keeps.ite ?_ ?_
    | with_reducible refine Keeps.dite ?_ ?_
    | with_reducible refine Keeps.foldl ?_ _ _ ?_
    | with_reducible refine Keeps1.ite ?_ ?_
    | with_reducible refine Keeps1.mk ?_
    | with_reducible apply State.updScript_keeps
    | with_reducible apply State.resetScript_keeps
    | (refine Eng.memOk_of ‹Eng.memOk _› ?_ ?_ ?_ <;> first | rfl | (simp; done) | (split_ifs <;> simp; done))
    | with_reducible apply Eng.restart_memOk
    | exact Eng.putScratch_memOk _ _ ‹Eng.memOk _›
    | exact Eng.putParam_memOk _ _ ‹Eng.memOk _›
    | dsimp only
    | fail_if_no_progress with_reducible refine Keeps.upd ?_
    | split

/-- `State.dropFaults` keeps what `Keeps` says. -/
theorem State.dropFaults_keeps {z0 : State} {s : State} (k_s : Keeps kc z0 s) : Keeps kc z0 (State.dropFaults s) := by
  unfold State.dropFaults
  repeat' first
    | with_reducible assumption
    | with_reducible exact Keeps.refl _
    | with_reducible exact CuesKept.refl _
    | (with_reducible refine CuesKept.same ?_; rfl)
    | exact fun _ h => h
    | intro _
    | with_reducible refine Keeps.ite ?_ ?_
    | with_reducible refine Keeps.dite ?_ ?_
    | with_reducible refine Keeps.foldl ?_ _ _ ?_
    | with_reducible refine Keeps1.ite ?_ ?_
    | with_reducible refine Keeps1.mk ?_
    | (refine Eng.memOk_of ‹Eng.memOk _› ?_ ?_ ?_ <;> first | rfl | (simp; done) | (split_ifs <;> simp; done))
    | with_reducible apply Eng.restart_memOk
    | exact Eng.putScratch_memOk _ _ ‹Eng.memOk _›
    | exact Eng.putParam_memOk _ _ ‹Eng.memOk _›
    | dsimp only
    | fail_if_no_progress with_reducible refine Keeps.upd ?_
    | split

/-- `State.fullReset` keeps what `Keeps` says. -/
theorem State.fullReset_keeps {z0 : State} {s : State} (c : CtxId) (v : Nat) (k_s : Keeps kc z0 s) : Keeps kc z0 (State.fullReset s c v) := by
  unfold State.fullReset
  repeat' first
    | with_reducible assumption
    | with_reducible exact Keeps.refl _
    | with_reducible exact CuesKept.refl _
    | (with_reducible refine CuesKept.same ?_; rfl)
    | with_reducible exact fun _ h => h
    | intro _
    | with_reducible refine Keeps.ite ?_ ?_
    | with_reducible refine Keeps.dite ?_ ?_
    | with_reducible refine Keeps.foldl ?_ _ _ ?_
    | with_reducible refine Keeps1.ite ?_ ?_
    | with_reducible refine Keeps1.mk ?_
    | with_reducible apply State.updMgt_keeps
    | with_reducible apply State.journal_keeps
    | with_reducible apply State.dropFaults_keeps
    | with_reducible apply State.resetWork_keeps
    | with_reducible apply State.resetScripts_keeps
    | (refine Eng.memOk_of ‹Eng.memOk _› ?_ ?_ ?_ <;> first | rfl | (simp; done) | (split_ifs <;> simp; done))
    | with_reducible apply Eng.restart_memOk
    | exact Eng.putScratch_memOk _ _ ‹Eng.memOk _›
    | exact Eng.putParam_memOk _ _ ‹Eng.memOk _›
    | dsimp only
    | fail_if_no_progress with_reducible refine Keeps.upd ?_
    | split

/-- `State.resetUnit` keeps what `Keeps` says. -/
theorem State.resetUnit_keeps {z0 : State} {s : State} (u : UnitId) (failed : Bool) (k_s : Keeps kc z0 s) : Keeps kc z0 (State.resetUnit s u failed) := by
  unfold State.resetUnit
  repeat' first
    | with_reducible assumption
    | with_reducible exact Keeps.refl _
    | with_reducible exact CuesKept.refl _
    | (with_reducible refine CuesKept.same ?_; rfl)
    | exact fun _ h => h
    | intro _
    | with_reducible refine Keeps.ite ?_ ?_
    | with_reducible refine Keeps.dite ?_ ?_
    | with_reducible refine Keeps.foldl ?_ _ _ ?_
    | with_reducible refine Keeps1.ite ?_ ?_
    | with_reducible refine Keeps1.mk ?_
    | with_reducible apply State.resetEngines_keeps
    | with_reducible apply State.takeIdle_keeps
    | with_reducible apply State.cutDone_keeps
    | with_reducible apply State.cutStarted_keeps
    | with_reducible apply State.updUnit_keeps
    | with_reducible apply State.setUState_keeps
    | with_reducible apply State.wedge_keeps
    | with_reducible apply State.reloadEngines_keeps
    | with_reducible apply State.updAxis_keeps
    | with_reducible apply State.returnUnit_keeps
    | (refine Eng.memOk_of ‹Eng.memOk _› ?_ ?_ ?_ <;> first | rfl | (simp; done) | (split_ifs <;> simp; done))
    | with_reducible apply Eng.restart_memOk
    | exact Eng.putScratch_memOk _ _ ‹Eng.memOk _›
    | exact Eng.putParam_memOk _ _ ‹Eng.memOk _›
    | dsimp only
    | fail_if_no_progress with_reducible refine Keeps.upd ?_
    | split

/-- `State.testFallen` keeps what `Keeps` says. -/
theorem State.testFallen_keeps {z0 : State} {s : State} (p : PortId) (table : Nat) (entry : Nat) (k_s : Keeps kc z0 s) : Keeps kc z0 (State.testFallen s p table entry) := by
  unfold State.testFallen
  repeat' first
    | with_reducible assumption
    | with_reducible exact Keeps.refl _
    | with_reducible exact CuesKept.refl _
    | (with_reducible refine CuesKept.same ?_; rfl)
    | exact fun _ h => h
    | intro _
    | with_reducible refine Keeps.ite ?_ ?_
    | with_reducible refine Keeps.dite ?_ ?_
    | with_reducible refine Keeps.foldl ?_ _ _ ?_
    | with_reducible refine Keeps1.ite ?_ ?_
    | with_reducible refine Keeps1.mk ?_
    | with_reducible apply State.detect_keeps
    | with_reducible apply State.code_keeps
    | (refine Eng.memOk_of ‹Eng.memOk _› ?_ ?_ ?_ <;> first | rfl | (simp; done) | (split_ifs <;> simp; done))
    | with_reducible apply Eng.restart_memOk
    | exact Eng.putScratch_memOk _ _ ‹Eng.memOk _›
    | exact Eng.putParam_memOk _ _ ‹Eng.memOk _›
    | dsimp only
    | fail_if_no_progress with_reducible refine Keeps.upd ?_
    | split

/-- `State.crcFall` keeps what `Keeps` says. -/
theorem State.crcFall_keeps {z0 : State} {s : State} (p : PortId) (table : Nat) (bad : List Nat) (k_s : Keeps kc z0 s) : Keeps1 kc z0 (State.crcFall s p table bad) := by
  unfold State.crcFall
  repeat' first
    | with_reducible assumption
    | with_reducible exact Keeps.refl _
    | with_reducible exact CuesKept.refl _
    | (with_reducible refine CuesKept.same ?_; rfl)
    | exact fun _ h => h
    | intro _
    | with_reducible refine Keeps.ite ?_ ?_
    | with_reducible refine Keeps.dite ?_ ?_
    | with_reducible refine Keeps.foldl ?_ _ _ ?_
    | with_reducible refine Keeps1.ite ?_ ?_
    | with_reducible refine Keeps1.mk ?_
    | with_reducible apply State.crcCheck_keeps
    | (refine Eng.memOk_of ‹Eng.memOk _› ?_ ?_ ?_ <;> first | rfl | (simp; done) | (split_ifs <;> simp; done))
    | with_reducible apply Eng.restart_memOk
    | exact Eng.putScratch_memOk _ _ ‹Eng.memOk _›
    | exact Eng.putParam_memOk _ _ ‹Eng.memOk _›
    | dsimp only
    | fail_if_no_progress with_reducible refine Keeps.upd ?_
    | split

/-- `State.crcChecks` keeps what `Keeps` says. -/
theorem State.crcChecks_keeps {z0 : State} {s : State} (bad : List (Nat × Nat × Nat)) (k_s : Keeps kc z0 s) : Keeps1 kc z0 (State.crcChecks s bad) := by
  unfold State.crcChecks
  repeat' first
    | with_reducible assumption
    | with_reducible exact Keeps.refl _
    | with_reducible exact CuesKept.refl _
    | (with_reducible refine CuesKept.same ?_; rfl)
    | exact fun _ h => h
    | intro _
    | with_reducible refine Keeps.ite ?_ ?_
    | with_reducible refine Keeps.dite ?_ ?_
    | with_reducible refine Keeps.foldl ?_ _ _ ?_
    | with_reducible refine Keeps1.ite ?_ ?_
    | with_reducible refine Keeps1.mk ?_
    | with_reducible apply State.crcFall_keeps
    | (with_reducible refine Keeps1.fst ?_; with_reducible assumption)
    | (with_reducible refine Keeps1.fst ?_; with_reducible first | apply State.crcFall_keeps | refine Keeps1.foldl ?_ _ _ ?_)
    | (refine Eng.memOk_of ‹Eng.memOk _› ?_ ?_ ?_ <;> first | rfl | (simp; done) | (split_ifs <;> simp; done))
    | with_reducible apply Eng.restart_memOk
    | exact Eng.putScratch_memOk _ _ ‹Eng.memOk _›
    | exact Eng.putParam_memOk _ _ ‹Eng.memOk _›
    | dsimp only
    | fail_if_no_progress with_reducible refine Keeps.upd ?_
    | split

/-- `execResetDone` keeps what `Keeps` says. -/
theorem execResetDone_keeps (failed : List UnitId) (banks : BankTest) (s : State) : OutKeeps kc s (execResetDone failed banks s) := by
  unfold execResetDone
  repeat' first
    | with_reducible assumption
    | with_reducible exact Keeps.refl _
    | with_reducible exact CuesKept.refl _
    | (with_reducible refine CuesKept.same ?_; rfl)
    | exact fun _ h => h
    | intro _
    | with_reducible refine OutKeeps.ite ?_ ?_
    | with_reducible refine OutKeeps.next ?_
    | with_reducible refine Keeps.ite ?_ ?_
    | with_reducible refine Keeps.dite ?_ ?_
    | with_reducible refine Keeps.foldl ?_ _ _ ?_
    | with_reducible refine Keeps1.ite ?_ ?_
    | with_reducible refine Keeps1.mk ?_
    | with_reducible apply State.evaluate_keeps
    | with_reducible apply State.incRf_keeps
    | with_reducible apply State.crcChecks_keeps
    | with_reducible apply State.testFallen_keeps
    | with_reducible apply State.resetUnit_keeps
    | with_reducible apply State.updMgt_keeps
    | with_reducible apply State.raise_keeps
    | (with_reducible refine Keeps1.fst ?_; with_reducible assumption)
    | (with_reducible refine Keeps1.fst ?_; with_reducible first | apply State.crcChecks_keeps | refine Keeps1.foldl ?_ _ _ ?_)
    | (refine Eng.memOk_of ‹Eng.memOk _› ?_ ?_ ?_ <;> first | rfl | (simp; done) | (split_ifs <;> simp; done))
    | with_reducible apply Eng.restart_memOk
    | exact Eng.putScratch_memOk _ _ ‹Eng.memOk _›
    | exact Eng.putParam_memOk _ _ ‹Eng.memOk _›
    | dsimp only
    | fail_if_no_progress with_reducible refine Keeps.upd ?_
    | split

/-- `State.bootSlices` keeps what `Keeps` says. -/
theorem State.bootSlices_keeps {z0 : State} {s : State} (p : PortId) (t : Fin 16) (b : BootInfo) (k_s : Keeps kc z0 s) : Keeps kc z0 (State.bootSlices s p t b) := by
  unfold State.bootSlices
  repeat' first
    | with_reducible assumption
    | with_reducible exact Keeps.refl _
    | with_reducible exact CuesKept.refl _
    | (with_reducible refine CuesKept.same ?_; rfl)
    | exact fun _ h => h
    | intro _
    | with_reducible refine Keeps.ite ?_ ?_
    | with_reducible refine Keeps.dite ?_ ?_
    | with_reducible refine Keeps.foldl ?_ _ _ ?_
    | with_reducible refine Keeps1.ite ?_ ?_
    | with_reducible refine Keeps1.mk ?_
    | with_reducible apply State.retireSlice_keeps
    | with_reducible apply State.updConv_keeps
    | (with_reducible refine Keeps1.fst ?_; with_reducible assumption)
    | (with_reducible refine Keeps1.fst ?_; with_reducible first | apply State.retireSlice_keeps | refine Keeps1.foldl ?_ _ _ ?_)
    | (refine Eng.memOk_of ‹Eng.memOk _› ?_ ?_ ?_ <;> first | rfl | (simp; done) | (split_ifs <;> simp; done))
    | with_reducible apply Eng.restart_memOk
    | exact Eng.putScratch_memOk _ _ ‹Eng.memOk _›
    | exact Eng.putParam_memOk _ _ ‹Eng.memOk _›
    | dsimp only
    | fail_if_no_progress with_reducible refine Keeps.upd ?_
    | split

/-- The commands that wait are still there after a power loss. -/
theorem State.powerOff_pending (s : State) : s.powerOff.pending = s.pending := rfl

/-- After a power loss the memories are canonical. -/
theorem State.powerOff_memOk (s : State) : s.powerOff.MemOk := by
  refine ⟨rfl, rfl, rfl, rfl, rfl, rfl, rfl, rfl, rfl, ?_⟩
  intro e
  have : s.powerOff.engs[e] = Eng.atReset := by
    show (Vector.replicate 56 Eng.atReset)[e.val] = _
    rw [Vector.getElem_replicate]
  rw [this]
  exact ⟨rfl, rfl, rfl⟩

/-- After a power loss context 0 holds every right. -/
theorem State.powerOff_owner (s : State) : (s.powerOff.ctxs[(0 : CtxId)]).owner := by
  have : s.powerOff.ctxs[(0 : CtxId)] = Ctx.atReset true := by
    show (Vector.ofFn (fun c : CtxId => Ctx.atReset (c.val == 0)))[(0 : CtxId).val] = _
    rw [Vector.getElem_ofFn]
    rfl
  rw [this]
  exact ⟨rfl, rfl, rfl⟩

/-- After a power loss every selection is valid. -/
theorem State.powerOff_sel (s : State) (c : CtxId) : (s.powerOff.ctxs[c]).selOk := by
  have : s.powerOff.ctxs[c] = Ctx.atReset (c.val == 0) := by
    show (Vector.ofFn (fun c : CtxId => Ctx.atReset (c.val == 0)))[c.val] = _
    rw [Vector.getElem_ofFn]
  rw [this]
  cases (c.val == 0)
  · unfold Ctx.selOk; decide
  · unfold Ctx.selOk; decide

/-- After a power loss the event queues are empty. -/
theorem State.powerOff_queues (s : State) (q : QueueId) : (s.powerOff.queues[q]).words.length + (s.powerOff.queues[q]).flight.length ≤ 64 := by
  have : s.powerOff.queues[q] = EvQueue.atReset := by
    show (Vector.replicate 64 EvQueue.atReset)[q.val] = _
    rw [Vector.getElem_replicate]
  rw [this]
  decide

/-- After a power loss the journal goes on behind the last entry of its ring. -/
theorem State.powerOff_jrnl (s : State) (h : s.jrnl.Ok) : s.powerOff.jrnl.Ok := by
  have hr : ((s.jrnl.ring).map (fun e : JEntry => e.seq)).Pairwise (fun a b => a < b) := by
    have := h.rising
    rw [List.map_append, List.pairwise_append] at this
    exact this.1
  refine ⟨?_, ?_⟩
  · show ((s.jrnl.ring ++ []).map (fun e : JEntry => e.seq)).Pairwise _
    rw [List.append_nil]
    exact hr
  · intro (e : JEntry) he
    have he' : e ∈ s.jrnl.ring ++ [] := he
    rw [List.append_nil] at he'
    show e.seq < (match s.jrnl.ring.getLast? with | some e => e.seq + 1 | none => 1)
    generalize s.jrnl.ring = l at hr he'
    rcases List.eq_nil_or_concat l with rfl | ⟨l', x, rfl⟩
    · cases he'
    · rw [List.concat_eq_append, List.getLast?_append]
      simp only [List.concat_eq_append, List.map_append, List.map_cons, List.map_nil, List.pairwise_append, List.mem_map,
        List.mem_singleton, List.mem_append] at hr he'
      rcases he' with he' | he'
      · have := hr.2.2 e.seq ⟨e, he', rfl⟩ x.seq rfl
        simp
        omega
      · subst he'
        simp

/-- A sound state that loses its supplies comes up sound. -/
theorem State.powerOff_ok (s : State) (h : s.Ok) : s.powerOff.Ok :=
  { mem := s.powerOff_memOk, owner := s.powerOff_owner, sel := s.powerOff_sel, queues := s.powerOff_queues,
    jrnl := s.powerOff_jrnl h.jrnl }

/-- `State.loadLimits` keeps what `Keeps` says. -/
theorem State.loadLimits_keeps {z0 : State} {s : State} (k_s : Keeps kc z0 s) : Keeps kc z0 (State.loadLimits s) := by
  unfold State.loadLimits
  repeat' first
    | with_reducible assumption
    | with_reducible exact Keeps.refl _
    | with_reducible exact CuesKept.refl _
    | (with_reducible refine CuesKept.same ?_; rfl)
    | exact fun _ h => h
    | intro _
    | with_reducible refine Keeps.ite ?_ ?_
    | with_reducible refine Keeps.dite ?_ ?_
    | with_reducible refine Keeps.foldl ?_ _ _ ?_
    | with_reducible refine Keeps1.ite ?_ ?_
    | with_reducible refine Keeps1.mk ?_
    | with_reducible apply State.setReg_keeps
    | (refine Eng.memOk_of ‹Eng.memOk _› ?_ ?_ ?_ <;> first | rfl | (simp; done) | (split_ifs <;> simp; done))
    | with_reducible apply Eng.restart_memOk
    | exact Eng.putScratch_memOk _ _ ‹Eng.memOk _›
    | exact Eng.putParam_memOk _ _ ‹Eng.memOk _›
    | dsimp only
    | fail_if_no_progress with_reducible refine Keeps.upd ?_
    | split

/-- A ring cut to its last entries keeps the journal's order. -/
theorem Journal.cut_ok {j : Journal} (h : j.Ok) (n cap : Nat) : ({ j with ringCap := cap, ring := j.ring.drop n } : Journal).Ok := by
  have hs : (j.ring.drop n ++ j.mem).Sublist (j.ring ++ j.mem) := (List.drop_sublist n j.ring).append (List.Sublist.refl _)
  exact ⟨h.rising.sublist (hs.map _), fun e he => h.below e (hs.subset he)⟩

/-- `State.sizeRing` keeps what `Keeps` says. -/
theorem State.sizeRing_keeps {z : State} {s : State} (large : Bool) (hs : Keeps kc z s) : Keeps kc z (State.sizeRing s large) :=
  Keeps.putJrnl (fun h => Journal.cut_ok h _ _) hs

/-- A power-on keeps the commands that wait and a sound state sound; device time starts again. -/
theorem execPowerOnReset_keeps (b : BootInfo) (s : State) : OutKeeps kc s.powerOff (execPowerOnReset b s) := by
  unfold execPowerOnReset
  generalize s.powerOff = z
  dsimp only
  refine OutKeeps.next ?_
  refine Keeps.upd ?_
  refine Keeps.foldl (fun t i h => State.tickFree_keeps (State.setReg_keeps _ _ _ h)) _ _ ?_
  refine Keeps.foldl (fun t e h => Keeps.ite (fun _ => h) (fun _ => State.applyLane_keeps _ (State.retireLane_keeps _ _ h))) _ _ ?_
  refine Keeps.foldl (fun t p h => Keeps.foldl (fun u i hu => State.bootSlices_keeps _ _ _ hu) _ _ h) _ _ ?_
  refine Keeps.foldl (fun t p h => Keeps.ite (fun _ => State.startRead_keeps _ (State.updPort_keeps _ _ h))
    (fun _ => State.updPort_keeps _ _ h)) _ _ ?_
  refine Keeps.foldl (fun t k h => State.setRf_keeps _ _ _ _ _ h) _ _ ?_
  refine Keeps.foldl (fun t p h => State.setRf_keeps _ _ _ _ _ h) _ _ ?_
  exact State.setReg_keeps _ _ _ (State.setReg_keeps _ _ _ (State.journal_keeps _ (State.loadLimits_keeps
    (State.updMgt_keeps _ (State.sizeRing_keeps _ (Keeps.refl z))))))

end Sys2Proof.Machine
end

