-- ==== Sys2Proof/Machine/Balls.lean ====
section
/-! DEFINITION. The signals of the part, their banks, and the ball that each has (R405, R417, R419). -/

namespace Sys2Proof.Machine

/-- The sense of a differential pair. -/
inductive Leg where
  | p
  | n
  deriving DecidableEq, Repr

/-- The signals of Table 16.11: of port n V0 to V15, VREFA (0) and VREFB (1), T0 to T11, L0 and L1, LREF0 and LREF1, SCL (0) and SDA (1); the host
link's lanes and HREFCLK; references A (0) and B (1); of take-store link n its lanes, REFCLK, PERST_L and PRSNT_L; of axis n AH, AL, BH, BL, EN,
then HOME, LIMP, LIMN, AUX, then EA, EB, EZ, then ISA and ISB; of a master A, B and Z; of bridge channel n P, N, EXCP and EXCN; AX8 to AX31,
AXREF, AXGND; PERST_L, STOP_IN_L and THERMTRIP_L; the flash (CK, CS_L, DQ0 to DQ7, DQS, RESET_L); SMBus (SCL, SDA, ALERT_L); GPIO; JTAG (TCK,
TMS, TDI, TDO, TRST_L). -/
inductive Signal where
  | portV (n k : Nat)
  | portVref (n k : Nat)
  | portT (n k : Nat)
  | portL (n k : Nat)
  | portLref (n k : Nat)
  | portBus (n k : Nat)
  | hostTx (k : Nat) (l : Leg)
  | hostRx (k : Nat) (l : Leg)
  | hrefclk (l : Leg)
  | refclk (k : Nat) (l : Leg)
  | storeTx (n k : Nat) (l : Leg)
  | storeRx (n k : Nat) (l : Leg)
  | storeRef (n : Nat) (l : Leg)
  | storePerst (n : Nat)
  | storePrsnt (n : Nat)
  | axisOut (n k : Nat)
  | axisSwitch (n k : Nat)
  | axisEnc (n k : Nat)
  | axisSense (n k : Nat)
  | master (m k : Nat)
  | bridge (n k : Nat)
  | aux (k : Nat)
  | auxRef
  | auxGnd
  | mgmt (k : Nat)
  | flash (k : Nat)
  | smbus (k : Nat)
  | gpio (k : Nat)
  | jtag (k : Nat)
  deriving DecidableEq, Repr

/-- What a ball carries (R419): a signal, a supply, or ground. VDDIOk is `io k`. -/
inductive Ball where
  | sig (x : Signal)
  | vss
  | vcore
  | sram
  | phy
  | phyH
  | ana
  | afe
  | aon
  | io (k : Nat)
  deriving DecidableEq, Repr

/-- The bank VDDIOk of a signal (Table 16.11), none for one that another supply carries. -/
def Signal.bank : Signal → Option Nat
  | .portT n _ | .portL n _ | .portBus n _ => some (n + 1)
  | .axisOut _ _ | .axisSwitch _ _ => some 17
  | .axisEnc _ _ | .master _ _ => some 18
  | .storePerst _ | .storePrsnt _ => some 19
  | .mgmt _ => some 20
  | .flash _ => some 21
  | .smbus _ => some 22
  | .gpio _ => some 23
  | .jtag _ => some 24
  | _ => none

/-- Ground where `r + c` is odd, else the supply. -/
def grid (r c : Nat) (x : Ball) : Ball := if (r + c) % 2 = 1 then .vss else x

/-- The supply where `k` is odd, else ground. -/
def oddOf (k : Nat) (x : Ball) : Ball := if k % 2 = 1 then x else .vss

/-- A lane of four rows and three columns: transmit pair, ground, receive pair, ground. -/
def laneTile (i j : Nat) (tx rx : Leg → Signal) : Ball :=
  match i, j with
  | 0, 0 => .sig (tx .p)
  | 0, 1 => .sig (tx .n)
  | 2, 0 => .sig (rx .p)
  | 2, 1 => .sig (rx .n)
  | _, _ => .vss

/-- Rows 7 and 8. -/
def northEdge (r c : Nat) : Ball :=
  let sup (k : Nat) : Ball := oddOf c (.io k)
  let row (x : Ball) (k : Nat) : Ball := if r = 7 then x else sup k
  if c ≤ 5 then row (.sig (.jtag (c - 1))) 24
  else if c ≤ 8 then row .vss 24
  else if c ≤ 24 then row (.sig (.gpio (c - 9))) 23
  else if c ≤ 36 then row (.sig (.flash (c - 25))) 21
  else if c ≤ 39 then row (.sig (.smbus (c - 37))) 22
  else if c ≤ 42 then row .vss 22
  else if c ≤ 45 then row (.sig (.mgmt (c - 43))) 20
  else if c ≤ 48 then row .vss 20
  else if r = 7 then .vss else oddOf c .aon

/-- The north region. -/
def northBall (r c : Nat) : Ball :=
  if r = 5 then oddOf c .phy
  else if r = 6 then oddOf c .phyH
  else if 7 ≤ r then northEdge r c
  else if 5 ≤ c ∧ c ≤ 52 then laneTile (r - 1) ((c - 5) % 3) (.hostTx ((c - 5) / 3)) (.hostRx ((c - 5) / 3))
  else match r, c with
    | 2, 2 => .sig (.hrefclk .p)
    | 2, 3 => .sig (.hrefclk .n)
    | 2, 54 => .sig (.refclk 0 .p)
    | 2, 55 => .sig (.refclk 0 .n)
    | 4, 54 => .sig (.refclk 1 .p)
    | 4, 55 => .sig (.refclk 1 .n)
    | _, _ => .vss

/-- The tile of port `n`: row offset `i`, column offset `j` from the package edge. -/
def portBall (n i j : Nat) : Ball :=
  if i ≤ 3 then
    if j ≤ 3 then .sig (.portV n (4 * i + j))
    else if 6 ≤ j ∧ j ≤ 8 then .sig (.portT n (3 * i + j - 6))
    else if j = 4 then (if i = 0 then .sig (.portVref n 0) else if i = 2 then .sig (.portVref n 1) else .vss)
    else if j = 5 then (if i % 2 = 1 then .afe else .vss)
    else if i % 2 = 0 then .io (n + 1) else .vss
  else match j with
    | 0 | 1 => .sig (.portLref n j)
    | 3 => .afe
    | 5 | 6 => .sig (.portL n (j - 5))
    | 7 | 8 => .sig (.portBus n (j - 7))
    | 9 => .io (n + 1)
    | _ => .vss

/-- The tile of axis `a`. -/
def axisBall (a i j : Nat) : Ball :=
  match i with
  | 0 => .sig (.axisOut a j)
  | 1 => if j = 1 then .io 17 else if j = 3 then .sig (.axisOut a 4) else .vss
  | 2 => if j = 3 then .io 18 else .sig (.axisEnc a j)
  | 3 => .sig (.axisSwitch a j)
  | 4 => if j = 1 then .io 17 else .vss
  | _ => match j with
    | 0 => .sig (.axisSense a 0)
    | 2 => .sig (.axisSense a 1)
    | 3 => .ana
    | _ => .vss

/-- Rows 9 to 12 of the core. -/
def auxBall (r c : Nat) : Ball :=
  if c ≤ 12 ∨ 45 ≤ c then .vss
  else if r = 11 then
    (if c ≤ 36 then .sig (.aux (c - 5)) else if c = 37 then .sig .auxRef else if c = 38 then .sig .auxGnd else .vss)
  else if r = 12 then (if c % 2 = 1 then .vss else .afe)
  else
    let n := (c - 13) / 4
    match r, (c - 13) % 4 with
    | 9, 0 => .sig (.bridge n 0)
    | 9, 1 => .sig (.bridge n 1)
    | 9, 3 => .sig (.bridge n 2)
    | 10, 2 => .afe
    | 10, 3 => .sig (.bridge n 3)
    | _, _ => .vss

/-- The core region. -/
def coreBall (r c : Nat) : Ball :=
  if r ≤ 12 then auxBall r c
  else if 43 ≤ r then
    if c = 11 then .sig (.master ((r - 43) / 3) ((r - 43) % 3))
    else if c = 12 then oddOf r (.io 18)
    else if 45 ≤ c then .vss
    else axisBall ((c - 13) / 4) (r - 43) ((c - 13) % 4)
  else if c = 11 ∨ c = 47 then oddOf r .ana
  else if c = 12 ∨ c = 46 then oddOf (r + 1) .afe
  else grid r c (if r ≤ 16 ∨ 39 ≤ r then .sram else .vcore)

/-- The south region. -/
def southBall (r c : Nat) : Ball :=
  if c ≤ 4 ∨ 53 ≤ c then grid r c (if r ≤ 53 then .phy else .phyH)
  else if r = 49 then
    let n := (c - 5) / 6
    match (c - 5) % 6 with
    | 0 => .sig (.storeRef n .p)
    | 1 => .sig (.storeRef n .n)
    | 3 => .sig (.storePerst n)
    | 4 => .sig (.storePrsnt n)
    | 5 => .io 19
    | _ => .vss
  else
    let n := (c - 5) / 12 + (if r ≤ 53 then 4 else 0)
    let l := (c - 5) % 12 / 3
    laneTile ((if r ≤ 53 then 53 else 57) - r) ((c - 5) % 3) (.storeTx n l) (.storeRx n l)

/-- The function of ball (r, c), rows and columns numbered 1 to 57 (R419). -/
def ballAt (r c : Nat) : Ball :=
  if r ≤ 8 then northBall r c
  else if 49 ≤ r then southBall r c
  else if c ≤ 10 then portBall ((r - 9) / 5) ((r - 9) % 5) (c - 1)
  else if 48 ≤ c then portBall ((r - 9) / 5 + 8) ((r - 9) % 5) (57 - c)
  else coreBall r c

/-- The balls of a function (Table 16.13). -/
def ballCount (f : Ball → Bool) : Nat :=
  ((List.range 57).map (fun r => ((List.range 57).filter (fun c => f (ballAt (r + 1) (c + 1)))).length)).sum

/-- Whether a ball carries a signal. -/
def Ball.isSig : Ball → Bool
  | .sig _ => true
  | _ => false

end Sys2Proof.Machine
end

