-- ==== Sys2Proof/Machine/PciConfig.lean ====
section
/-! DEFINITION. Configuration space and BAR4 as the host reads them: identity, base addresses, capabilities, the MSI-X table and the
pending bits (R2, R3, R34, R37, Tables 0.2, 2.1, 2.2). -/

namespace Sys2Proof.Machine

/-- Vendor ID (Table 0.2). -/
abbrev pciVendor : Nat := 0xF1A7
/-- Device ID (Table 0.2). -/
abbrev pciDevice : Nat := 0x9640
/-- Revision ID, stepping B1 (Table 0.2). -/
abbrev pciRevision : Nat := 0xB1
/-- Class code, subclass and programming interface (Table 0.2). -/
abbrev pciClass : Nat := 0x118000
/-- Physical functions (Table 0.2). -/
abbrev pciFunctions : Nat := 1

/-- Subsystem Vendor ID and Subsystem ID (R3): those of the configuration record in force (R395, offset 0), or the values of a store
that holds none, which is one whose vendor field is 0 or all ones. The record's CRC-32C at 0xFC is not looked at: a record that CFG_SET has
written is used as it stands (DESIGN CHOICE, log entry 159). -/
def Mgt.subsystem (m : Mgt) : Nat × Nat :=
  let v := leAt m.cfg 0 2
  if v = 0 ∨ v = 0xFFFF then (0xF1A7, 0x0000) else (v, leAt m.cfg 2 2)

/-- The extended capabilities of Table 2.2: offset, the capability's number in PCI Express (PRESUMED, log entry 160), and the offset of
the next one. -/
def extCaps : List (Nat × Nat × Nat) :=
  [(0x100, 0x0001, 0x148), (0x148, 0x0003, 0x158), (0x158, 0x0019, 0x188), (0x188, 0x0025, 0x198), (0x198, 0x0026, 0x1C8),
   (0x1C8, 0x002A, 0x1F8), (0x1F8, 0x0031, 0x220), (0x220, 0x0027, 0x280), (0x280, 0x001F, 0x290), (0x290, 0x002F, 0x2A0),
   (0x2A0, 0x0032, 0x2C0), (0x2C0, 0x002E, 0x300), (0x300, 0x0030, 0)]

/-- A word of which the spec gives the bits of `mask`: the others are values that the spec leaves open. -/
def pciFill (off mask v : Nat) : Nat := ((BitVec.ofNat 32 v &&& BitVec.ofNat 32 mask) ||| (Config.pciOther off &&& ~~~BitVec.ofNat 32 mask)).toNat

/-- The word of the AER header log (R34): the header of the first error. -/
def PciSt.headerLog (x : PciSt) (i : Nat) : Nat := match x.aerFirst with
  | some e => leAt e.2 (4 * i) 4
  | none => 0

/-- The word of the standard header at an offset (R37, Table 2.2). -/
def State.pciHeader (s : State) (off : Nat) : Nat :=
  let x := s.link.pci
  let sub := s.mgt.subsystem
  if off = 0x00 then pciVendor + pciDevice * 2 ^ 16
  else if off = 0x08 then pciRevision + pciClass * 2 ^ 8
  else if off = 0x0C then pciFill off 0x00FF0000 0
  else if off = 0x10 then x.bar0 % 2 ^ 32 + 4
  else if off = 0x14 then x.bar0 / 2 ^ 32
  else if off = 0x18 ∨ off = 0x1C ∨ off = 0x30 then 0
  else if off = 0x20 then x.bar4 % 2 ^ 32 + 4
  else if off = 0x24 then x.bar4 / 2 ^ 32
  else if off = 0x2C then sub.1 + sub.2 * 2 ^ 16
  else if off = 0x34 then 0x40
  else if off = 0x3C then pciFill off 0xFF00 0
  else pciFill off 0 0

/-- The word of the capabilities from 0x40 (R34, R37): power management with D3hot and No_Soft_Reset, MSI-X with 512 entries in BAR4,
PCI Express Endpoint version 2 with the payload and read request sizes, no Function Level Reset, up to x16 at 128 GT/s and every lower
rate, no ASPM, 10-bit tags as requester and completer (Table 2.1; where these bits stand is PRESUMED, log entry 160). -/
def State.pciCap (s : State) (off : Nat) : Nat :=
  let x := s.link.pci
  if off = 0x40 then pciFill off 0xF800FFFF 0x5001
  else if off = 0x44 then pciFill off 0x0000000B (8 + 3 * b2n s.link.d3hot)
  else if off = 0x50 then 0x6011 + 511 * 2 ^ 16 + b2n x.msixMask * 2 ^ 30 + b2n x.msixEn * 2 ^ 31
  else if off = 0x54 then 4
  else if off = 0x58 then 0x2000 + 4
  else if off = 0x60 then pciFill off 0x00FFFFFF 0x00020010
  else if off = 0x64 then pciFill off 0x10000007 2
  else if off = 0x68 then pciFill off 0x000070E0 (x.mps * 2 ^ 5 + x.mrrs * 2 ^ 12)
  else if off = 0x6C then pciFill off 0x00000FFF (7 + 16 * 2 ^ 4)
  else if off = 0x70 then pciFill off 0x03FF0003 (s.link.rate % 16 * 2 ^ 16 + s.link.trained % 64 * 2 ^ 20)
  else if off = 0x84 then pciFill off 0x00030000 (3 * 2 ^ 16)
  else if off = 0x8C then pciFill off 0xFE 0xFE
  else pciFill off 0 0

/-- The word of the extended capabilities from 0x100 (R34, R37): each one's number and the next offset, AER's status, first error and
header log, the serial number, the PTM requester and its enable, one link IDE stream and no selective one. -/
def State.pciExt (s : State) (off : Nat) : Nat :=
  let x := s.link.pci
  match extCaps.find? (fun c => c.1 == off) with
  | some c => pciFill off 0xFFF0FFFF (c.2.1 + c.2.2 * 2 ^ 20)
  | none =>
    if off = 0x104 then x.aerStatus
    else if off = 0x118 then pciFill off 0x1F ((x.aerFirst.map (fun e => e.1)).getD 0)
    else if 0x11C ≤ off ∧ off < 0x12C then x.headerLog ((off - 0x11C) / 4)
    else if off = 0x14C then s.mgt.serial % 2 ^ 32
    else if off = 0x150 then s.mgt.serial / 2 ^ 32 % 2 ^ 32
    else if off = 0x284 then pciFill off 1 1
    else if off = 0x288 then pciFill off 1 (b2n x.ptmEn)
    else if off = 0x304 then pciFill off 3 1
    else pciFill off 0 0

/-- The word of configuration space at an offset of function 0, the only one (R2, R37). -/
def State.pciDword (s : State) (off : Nat) : Nat :=
  if off < 0x40 then s.pciHeader off else if off < 0x100 then s.pciCap off else s.pciExt off

/-- The answer to a configuration read (R37, R410): the word, or none for Request Retry Status, until 8 ms after power-on reset. -/
def State.configRead (s : State) (off : Nat) : Option Nat := if s.link.cfgReady then some (s.pciDword off) else none

/-- The word of BAR4 at an offset (R37): 512 MSI-X entries of 16 bytes, the pending bits at 0x2000, the rest reading 0. -/
def State.bar4Dword (s : State) (off : Nat) : Nat :=
  if off < 0x2000 then
    let e := mget (fun _ => (0, 0)) s.link.pci.msixTbl (off / 16)
    match off % 16 / 4 with
    | 0 => e.1 % 2 ^ 32
    | 1 => e.1 / 2 ^ 32
    | 2 => e.2
    | _ => b2n (!mget (fun _ => false) s.msiUnmasked (off / 16))
  else if off < 0x2040 then
    ((List.range 32).filter (fun i => mget (fun _ => false) s.msiPend (8 * (off - 0x2000) + i))).foldl (fun a i => a + 2 ^ i) 0
  else 0

end Sys2Proof.Machine
end

