-- ==== Sys2Proof/WellFormed.lean ====
section
/-! DEFINITION. Which commands are well formed: the bounds of operands that their types do not carry. -/

namespace Sys2Proof

/-- The opcodes that Table 2.7 lists. -/
def opcodes : List Nat :=
  [0x00, 0x01, 0x02, 0x03, 0x08, 0x09, 0x0A, 0x0B, 0x0C, 0x0D, 0x10, 0x11, 0x12, 0x18, 0x19, 0x20, 0x21, 0x22, 0x28, 0x29, 0x2A, 0x2B,
    0x2C, 0x30, 0x38, 0x39]

/-- A submission entry has ten arguments (Table 2.4); an opcode given in place of the command's is one that Table 2.7 does not
list. -/
def Submission.wf (y : Submission) : Bool :=
  y.args.length == 10 && (match y.other with | some b => !opcodes.contains b.toNat | none => true)

/-- An access has 1 to 8 bytes. -/
def sizeWf (n : Nat) : Bool := decide (1 ≤ n ∧ n ≤ 8)

/-- A link width that PCI Express defines. -/
def widthWf (n : Nat) : Bool := [1, 2, 4, 8, 16].contains n

/-- A table bank: port, table (0 shading, 1 defect map), bank. -/
def bankWf (b : Nat × Nat × Nat) : Bool := decide (b.1 < 16) && decide (b.2.1 < 2) && decide (b.2.2 < 2)

/-- What a power-on meets names slices, taps, lanes and banks that exist. -/
def BootInfo.wf (b : BootInfo) : Bool :=
  b.badSlices.all (fun x => decide (x.1 < 16) && decide (x.2.1 < 16) && decide (x.2.2 < 5)) &&
  b.cals.all (fun x => decide (x.1 < 16) && decide (x.2.1 < 16) && decide (x.2.2.1 < 5) && x.2.2.2.ms.length == 201) &&
  b.badLanes.all (fun x => decide (x.1 < 16) && decide (x.2 < 9)) && decide (b.banks < 2 ^ 24)

/-- A key has 32 bytes (the AES-GCM-256 keys of IDE). -/
def IdeKm.wf (m : IdeKm) : Bool :=
  match m with
  | .query => true
  | .keyProg _ key => key.length == 32
  | .setGo => true
  | .setStop => true
  | .other _ => true

/-- Configuration values that Table 2.1 allows: Max_Payload_Size 128 to 512 bytes, Max_Read_Request_Size 128 bytes to 4 KiB, a
status bit of 32 and a header of 16 bytes. -/
def PciCfg.wf (k : PciCfg) : Bool :=
  decide (k.mps ≤ 2) && decide (k.mrrs ≤ 5) && (match k.aerError with | some e => decide (e.1 < 32) && e.2.length == 16 | none => true)

/-- The commands that can arrive. -/
def Instr.wf (i : Instr) : Bool :=
  match i with
  | .regWrite _ _ size _ => sizeWf size
  | .selPortWrite _ _ => true
  | .selAxisWrite _ _ => true
  | .selChanWrite _ _ => true
  | .selEngineWrite _ _ => true
  | .selTableWrite _ _ => true
  | .pairLoRead _ _ rd => sizeWf rd.size
  | .pairHiRead _ _ => true
  | .pairLoWrite _ _ _ => true
  | .pairHiWrite _ _ _ => true
  | .hifCtxCtlEnable _ _ => true
  | .hifCtxCtlReset _ _ => true
  | .hifAsqTailWrite _ _ => true
  | .hifAcqHeadWrite _ _ => true
  | .hifDeniedRead _ => true
  | .hello _ y => y.wf
  | .identify _ y => y.wf
  | .setRights _ y => y.wf
  | .getRights _ y => y.wf
  | .setupLoad _ y _ => y.wf
  | .setupVerify _ y => y.wf
  | .setupClear _ y => y.wf
  | .commit _ y => y.wf
  | .unitStart _ y => y.wf
  | .unitStop _ y => y.wf
  | .cutGroup _ y => y.wf
  | .cutArm _ y => y.wf
  | .cutDisarm _ y => y.wf
  | .chanOpen _ y => y.wf
  | .chanClose _ y => y.wf
  | .calStart _ y => y.wf
  | .calCompute _ y => y.wf
  | .gapAnnounce _ y => y.wf
  | .cueSet _ y => y.wf
  | .cuePin _ y => y.wf
  | .cueClear _ y => y.wf
  | .rewindRead _ y => y.wf
  | .rewindStop _ y => y.wf
  | .journalRead _ y _ => y.wf
  | .fwStage _ y _ _ _ => y.wf
  | .fwActivate _ y => y.wf
  | .fwStaged _ => true
  | .fullReset _ _ => true
  | .resetDone _ banks => banks.bad.all bankWf
  | .d3hotEntry => true
  | .d0Return => true
  | .linkRetrain width rate mode =>
    widthWf width && decide (1 ≤ rate ∧ rate ≤ 7) && (match mode.cfg with | some k => k.wf | none => true)
  | .l0pRequest width => widthWf width
  | .perstAssert => true
  | .perstRelease _ => true
  | .ptmExchange _ _ => true
  | .linePositionReached _ _ => true
  | .tick _ _ => true
  | .heldTickRelease _ _ => true
  | .drainTick _ _ => true
  | .pipeTick _ => true
  | .motionTick _ => true
  | .holdCurrentTimer _ _ => true
  | .nop _ _ => true
  | .mov _ _ => true
  | .add _ _ => true
  | .adc _ _ => true
  | .sub _ _ => true
  | .sbc _ _ => true
  | .and _ _ => true
  | .or _ _ => true
  | .xor _ _ => true
  | .shl _ _ => true
  | .shr _ _ => true
  | .sar _ _ => true
  | .mul _ _ => true
  | .mulh _ _ => true
  | .min _ _ => true
  | .max _ _ => true
  | .sats _ _ => true
  | .satu _ _ => true
  | .cmp _ _ => true
  | .tst _ _ => true
  | .clz _ _ => true
  | .ld _ _ => true
  | .st _ _ => true
  | .jmp _ _ => true
  | .jmpr _ _ => true
  | .call _ _ => true
  | .callr _ _ => true
  | .ret _ _ => true
  | .lset _ _ => true
  | .lend _ _ => true
  | .tend _ _ => true
  | .raise _ _ => true
  | .rds _ _ => true
  | .halt _ _ => true
  | .trapOpcode _ _ _ => true
  | .edge _ _ => true
  | .burst _ _ => true
  | .sample _ _ => true
  | .clamp _ _ => true
  | .strobe _ _ => true
  | .gate _ _ => true
  | .qfree _ _ => true
  | .edgeEntryStart _ => true
  | .strobeEnd _ _ => true
  | .tapSample _ _ _ => true
  | .assemble _ _ _ => true
  | .shade _ _ _ _ _ => true
  | .drift _ _ _ => true
  | .defect _ _ _ _ _ => true
  | .bin _ _ _ => true
  | .lut _ _ _ => true
  | .plane _ _ _ => true
  | .gather _ _ _ => true
  | .pack _ _ _ _ => true
  | .code _ _ _ _ _ => true
  | .slate _ _ => true
  | .emit _ _ => true
  | .prd _ _ => true
  | .stagingDrain _ _ => true
  | .cmpCtlInject _ _ => true
  | .pset _ _ => true
  | .move _ _ => true
  | .jog _ _ => true
  | .stop _ _ => true
  | .astat _ _ => true
  | .home _ _ => true
  | .gear _ _ => true
  | .latch _ _ => true
  | .drive _ _ => true
  | .setpos _ _ => true
  | .mswap _ _ => true
  | .xfer _ _ => true
  | .xferx _ _ => true
  | .shuf _ _ => true
  | .loop _ _ => true
  | .wait _ _ => true
  | .sig _ _ => true
  | .waitResume _ => true
  | .waitTimeout _ _ => true
  | .scriptFetch _ _ _ => true
  | .dmaScCtlStart _ _ => true
  | .dmaScCtlAbort _ _ => true
  | .engWindowWrite _ _ size _ => sizeWf size
  | .tblWindowWrite _ _ size _ => sizeWf size
  | .headPoll _ _ => true
  | .headInsertDelay _ => true
  | .reread _ _ => true
  | .descriptorReadDone _ _ bytes => decide (bytes.length ≤ 160)
  | .bankPowerChange _ _ => true
  | .inputOvervolt _ _ => true
  | .prtOvClear _ _ => true
  | .rotationDue _ _ => true
  | .calNow _ _ => true
  | .sliceCalDone _ _ _ _ _ ms => ms.length == 201
  | .watchBlockEnd _ _ => true
  | .bgBlockEnd _ _ => true
  | .faultClassified _ _ _ => true
  | .verifyS _ _ => true
  | .verifyD _ _ => true
  | .unflipS _ _ => true
  | .unflipD _ _ => true
  | .mirrorVerifyDone _ _ ecc => ecc.fails.all (fun e => decide (e.1 < 2) && decide (e.2 < 65536))
  | .calDone _ => true
  | .recordEmission _ _ _ => true
  | .holdExpiry _ _ => true
  | .barrierDone _ => true
  | .eocTimeout _ _ => true
  | .descriptorFetch _ _ bytes => bytes.length == 32
  | .dmaDcTailWrite _ _ => true
  | .chanClosed _ => true
  | .driveLinkUp _ rate width => decide (rate < 7) && decide (width ≤ 4)
  | .driveReady _ _ _ _ _ _ _ => true
  | .driveLinkDown _ _ => true
  | .nvmeTimeout _ _ => true
  | .chunkWriteDone _ _ _ => true
  | .nvmeReadDone _ _ _ _ _ => true
  | .readbackDelivery _ => true
  | .checkpoint => true
  | .segmentCloseTimer _ _ => true
  | .smartPoll _ _ used temp => decide (used < 256) && decide (temp < 65536)
  | .storeRecovery _ _ _ => true
  | .format _ _ => true
  | .join _ _ _ => true
  | .masterEdge _ _ _ _ _ => true
  | .prtGearArmctlWrite _ _ => true
  | .gearLatchArm _ _ => true
  | .gearLatch _ => true
  | .groupRun _ _ _ => true
  | .groupHold _ _ _ => true
  | .encoderEdge _ _ _ _ _ => true
  | .switchEdge _ _ _ _ => true
  | .stopIn _ _ => true
  | .chopperSwitch _ _ _ _ => true
  | .chopperAdapt _ _ _ _ => true
  | .overcurrent _ _ _ _ => true
  | .mstepSwap _ _ => true
  | .tableSwapped _ => true
  | .auxStep _ _ _ => true
  | .auxScanStart _ _ => true
  | .scanDue _ => true
  | .excitationSwap _ _ => true
  | .excFault _ => true
  | .auxOvervolt _ _ => true
  | .auxOvClear _ _ => true
  | .auxInjReq _ _ _ => true
  | .auxCalGo _ _ => true
  | .auxCalAbort _ _ => true
  | .packetDelivery _ => true
  | .evqPop _ _ => true
  | .evqFlush _ _ _ => true
  | .evqCtlWrite _ _ _ => true
  | .evqRingCfgWrite _ _ _ _ => true
  | .evqRingHeadWrite _ _ _ => true
  | .evqLevelWrite _ _ _ => true
  | .evtRouteWrite _ _ _ => true
  | .queueIntegrity _ _ => true
  | .audit diffs => diffs.all (fun x => ((x.1 == 1 || x.1 == 5) && decide (x.2.1 < 16)) || (x.1 == 2 && decide (x.2.1 < 8)) ||
      (x.1 == 4 && decide (x.2.1 < 64)))
  | .lockstepMismatch => true
  | .mgtRestarted => true
  | .journalDrain => true
  | .sensorRead temps volts => temps.length == 12 && volts.length == 20 && (temps ++ volts).all (fun x => decide (x < 65536))
  | .thermalTrip _ temp => decide (temp < 65536)
  | .pldmMessage => true
  | .cfgGet => true
  | .cfgSet => true
  | .debugToken _ token _ => decide (token.length ≤ 256)
  | .mctpMessage _ _ => true
  | .pldmUpdate _ _ => true
  | .fwActivated _ => true
  | .refclkFailover _ _ => true
  | .refclkValid _ => true
  | .hrefclkLoss => true
  | .ppllUnlock _ => true
  | .ppllRelock _ => true
  | .clkPpllFreqWrite _ _ _ => true
  | .freqMonitor sys ports _ => (sys.toList ++ ports.toList).all (fun x => decide (x < 2 ^ 32))
  | .powerOnReset b => b.wf
  | .supplyFault => true
  | .prtGqueueRead _ => true
  | .prtGrejectRead _ => true
  | .prtLtgEarlyRead _ => true
  | .pipEccRead _ => true
  | .pipEccAddrRead _ => true
  | .pipLaneStatRead _ => true
  | .cmpVerifyRead _ => true
  | .cmpBadRead _ => true
  | .cmpStallRead _ => true
  | .cmpShiftRead _ _ => true
  | .dmaDcDropRead _ => true
  | .dmaDcErrRead _ => true
  | .dmaScFaultRead _ => true
  | .tksPortDropRead _ _ => true
  | .motChatterRead _ => true
  | .auxScanStatRead _ => true
  | .auxExcStatRead _ _ => true
  | .auxInjReqRead _ _ => true
  | .evqLostRead _ _ => true
  | .mgtFaultRead _ => true
  | .mgtFaultCntRead _ => true
  | .mgtJrnlStatRead _ => true
  | .mgtSensorRead _ _ => true
  | .clampStopsConducting _ _ => true
  | .auxClampStopsConducting _ _ => true
  | .excCurrentBelowLimit _ => true
  | .illegalOpcode _ _ => true
  | .scriptAccessDone _ _ kind _ _ => decide (kind < 4)
  | .checkpointWriteDone _ _ => true
  | .msiXVectorUnmask _ => true
  | .ideKmMessage m => m.wf
end Sys2Proof
end

