-- ==== Sys2Proof/Tests/Slice0.lean ====
section
/-! SUPPORT. Tests: an ill-formed command for each check of well-formedness, figures that the specification works out, and for each
clause of the obligations a state and operands that meet its conditions. Where a figure comes from the specification, its chapter and
rule stand beside it. -/

open Sys2Proof Sys2Proof.Machine

namespace Sys2Proof.Tests

/-! ### Well-formedness: each check refuses a term -/

/-- A submission entry with `n` arguments. -/
def entry (n : Nat) : Submission := { flags := 0, cid := 0, target := 0, addr := 0, len := 0, rsvd := 0, args := List.replicate n 0 }
/-- What an ordinary power-on meets. -/
def boot : BootInfo := { refA := ⟨100000000, 10000⟩, refB := ⟨100000000, 10000⟩, badSlices := [], cals := [], badLanes := [], banks := 0, largeFlash := false }

theorem test_wf_submission : Instr.wf (.hello 0 (entry 10)) = true ∧ Instr.wf (.hello 0 (entry 9)) = false ∧
    Instr.wf (.hello 0 { entry 10 with other := some 0x04 }) = true ∧ Instr.wf (.hello 0 { entry 10 with other := some 0x39 }) = false := by decide
theorem test_wf_size : Instr.wf (.regWrite 0 0 4 0) = true ∧ Instr.wf (.regWrite 0 0 0 0) = false ∧ Instr.wf (.pairLoRead 0 0 ⟨9, 0, false⟩) = false := by decide
theorem test_wf_width : Instr.wf (.l0pRequest 8) = true ∧ Instr.wf (.l0pRequest 3) = false ∧ Instr.wf (.linkRetrain 16 7 ⟨true, none⟩) = true ∧
    Instr.wf (.linkRetrain 3 7 ⟨true, none⟩) = false ∧ Instr.wf (.linkRetrain 16 8 ⟨true, none⟩) = false ∧
    Instr.wf (.linkRetrain 16 7 ⟨true, some { bar0 := 0, bar4 := 0, mps := 3, mrrs := 0, ptm := false, aerClear := 0, aerError := none }⟩) = false ∧
    Instr.wf (.linkRetrain 16 7 ⟨true, some { bar0 := 0, bar4 := 0, mps := 0, mrrs := 6, ptm := false, aerClear := 0, aerError := none }⟩) = false ∧
    Instr.wf (.linkRetrain 16 7 ⟨true, some { bar0 := 0, bar4 := 0, mps := 0, mrrs := 0, ptm := false, aerClear := 0, aerError := some (32, []) }⟩) = false := by decide
theorem test_wf_bank : Instr.wf (.resetDone [] ⟨[(15, 1, 1)], []⟩) = true ∧ Instr.wf (.resetDone [] ⟨[(16, 0, 0)], []⟩) = false ∧
    Instr.wf (.resetDone [] ⟨[(0, 2, 0)], []⟩) = false ∧ Instr.wf (.resetDone [] ⟨[(0, 0, 2)], []⟩) = false := by decide
theorem test_wf_boot : Instr.wf (.powerOnReset boot) = true ∧ Instr.wf (.powerOnReset { boot with badSlices := [(0, 0, 5)] }) = false ∧
    Instr.wf (.powerOnReset { boot with cals := [(0, 0, 0, { sLo := 0, sHi := 0, spread := 0, ms := [] })] }) = false ∧
    Instr.wf (.powerOnReset { boot with badLanes := [(0, 9)] }) = false ∧ Instr.wf (.powerOnReset { boot with banks := 2 ^ 24 }) = false := by decide
theorem test_wf_key : Instr.wf (.ideKmMessage (.keyProg 0 (List.replicate 32 1))) = true ∧ Instr.wf (.ideKmMessage (.keyProg 0 [])) = false := by decide
theorem test_wf_window : Instr.wf (.engWindowWrite 0 0 9 0) = false ∧ Instr.wf (.tblWindowWrite 0 0 0 0) = false := by decide
theorem test_wf_lengths : Instr.wf (.descriptorReadDone 0 true (List.replicate 161 0)) = false ∧
    Instr.wf (.mirrorVerifyDone 0 false ⟨0, [(2, 0)]⟩) = false ∧ Instr.wf (.sliceCalDone 0 0 0 0 0 []) = false ∧
    Instr.wf (.descriptorFetch 0 true []) = false ∧ Instr.wf (.debugToken false (List.replicate 257 0) true) = false ∧
    Instr.wf (.sensorRead [] []) = false ∧ Instr.wf (.sensorRead (List.replicate 12 65536) (List.replicate 20 0)) = false := by decide +kernel
theorem test_wf_ranges : Instr.wf (.driveLinkUp 0 7 4) = false ∧ Instr.wf (.driveLinkUp 0 3 5) = false ∧ Instr.wf (.smartPoll 0 0 256 0) = false ∧
    Instr.wf (.smartPoll 0 0 0 65536) = false ∧ Instr.wf (.audit [(3, 0, 0, true)]) = false ∧ Instr.wf (.thermalTrip 0 65536) = false ∧
    Instr.wf (.freqMonitor (Vector.replicate 9 0) (Vector.replicate 16 (2 ^ 32)) 0) = false ∧ Instr.wf (.scriptAccessDone 0 true 4 0 ⟨[], 0, 0⟩) = false := by decide

/-! ### Figures of the specification -/

/-- No row of the table has bits. -/
theorem test_no_words : ∀ n : Fin 65, decodeTableWord n.val 0 = none := by decide
/-- The ramp of chapter 7's example (R193), an 8:3 block. -/
def ramp : List Nat := (List.range 32).map (fun j => if j = 17 then 1705 else 1000 + 40 * j)
/-- Chapter 8's check value of CRC-32C, of the ASCII digits 1 to 9 (R211). -/
theorem test_crc32c : crc32c [0x31, 0x32, 0x33, 0x34, 0x35, 0x36, 0x37, 0x38, 0x39] = 0xE3069283 := by decide +kernel
/-- Chapter 7's example: s = 3, and the block begins with the bytes 53 00 7D 00 A5. -/
theorem test_code_example : (encodeBlock ramp 5).2 = 3 ∧ (encodeBlock ramp 5).1.take 5 = [0x53, 0x00, 0x7D, 0x00, 0xA5] := by decide +kernel
/-- The same example: the only error is 1 code, at sample 17 (R195). -/
theorem test_decode_example : decodeBlock (encodeBlock ramp 5).1 = ramp.set 17 1704 := by decide +kernel
/-- Chapter 6's example of R158: the first update from 65,536 gives 65,577 and q = 1; at 66,198 q is 10. -/
theorem test_drift_example : driftSlot (List.replicate 8 11880) 8 0 0 7 12000 1 4 65536 = some 65577 ∧ driftQ 65577 = 1 ∧ driftQ 66198 = 10 := by decide +kernel
/-- Chapter 3's example of Table 3.10: at 8.333 us a gate engine has 3,329 cycles and a pipe engine 9,991. -/
theorem test_cycles_example : cyclesAvail 0 833330 = 3329 ∧ cyclesAvail 1 833330 = 9991 := by decide
/-- Chapter 13's worked load cell: the result of the means is 2,576,960. -/
theorem test_ratio_example : (State.ratio State.reset 644240 2621440 7 1).2 = (2576960, false) := by decide +kernel
/-- Chapter 17's example: PRT_SCOEFB of slice 2 of input P3_V5 lies at 0x0008_3554, and SEL_PORT picks the port. -/
theorem test_register_example : (State.reset.reach 0 0x083554).map (fun r => r.1.base) = some 0x083404 ∧
    ((State.reset.updCtx 0 (fun x => { x with selPort := 3 })).reach 0 0x083554).map (fun r => r.2) = some 3 := by decide +kernel
/-- Chapter 3's carry and overflow (R68): a sum that wraps sets Z and C, and 2^31 - 1 plus 1 sets N and V. -/
theorem test_add_flags : addRes 0xFFFFFFFF 1 false = { r := 0, z := true, n := false, c := true, v := false } ∧
    addRes 0x7FFFFFFF 1 false = { r := 0x80000000, z := false, n := true, c := false, v := true } := by decide +kernel
/-- A select write names a unit that exists or is ignored (R41). -/
theorem test_select : (match execSelPortWrite 0 9 State.reset with | .next t => t.ctxs[0].selPort | _ => 0) = 9 ∧
    (match execSelPortWrite 0 16 State.reset with | .next t => t.ctxs[0].selPort | _ => 1) = 0 := by decide +kernel
/-- A step serves the front of the queue. -/
theorem test_step : (match step { State.reset with pending := [.selAxisWrite 0 5, .l0pRequest 8] } with
    | .next t => (t.ctxs[0].selAxis.toNat, t.pending.length) | _ => (0, 0)) = (5, 1) := by decide +kernel

/-- Chapter 16's examples of balls (R419): P7_V9, P12_T4, A3_ISB, HTX10_N, TS6_RX2_P, AX20, (20, 20) and (35, 30). -/
theorem test_ball_examples : ballAt 46 2 = .sig (.portV 7 9) ∧ ballAt 30 50 = .sig (.portT 12 4) ∧ ballAt 48 27 = .sig (.axisSense 3 1) ∧
    ballAt 1 36 = .sig (.hostTx 10 .n) ∧ ballAt 51 35 = .sig (.storeRx 6 2 .p) ∧ ballAt 11 25 = .sig (.aux 20) ∧ ballAt 20 20 = .vcore ∧
    ballAt 35 30 = .vss := by decide
/-- Table 16.13's counts of the signals and the grounds. -/
theorem test_ball_counts : ballCount Ball.isSig = 1021 ∧ ballCount (fun b => b == .vss) = 1382 := by decide +kernel
/-- Table 16.13's counts of the supplies. -/
theorem test_supply_counts : ballCount (fun b => b == .vcore) = 363 ∧ ballCount (fun b => b == .sram) = 132 ∧ ballCount (fun b => b == .afe) = 102 ∧
    ballCount (fun b => b == .phy) = 52 ∧ ballCount (fun b => b == .aon) = 5 ∧ ballCount (fun b => b == .ana) = 38 ∧
    ballCount (fun b => b == .phyH) = 47 ∧ ballCount (fun b => b == .io 17) = 16 ∧ ballCount (fun b => b == .io 24) = 4 := by decide +kernel

/-! ### The conditions of the obligations are met -/
set_option linter.unusedVariables false
set_option Elab.async false
set_option maxRecDepth 20000
def dRegDef : RegDef := { base := 0, s1 := 0, n1 := 0, s2 := 0, n2 := 0, sel := .none, pair := 0, rw := 0, w1c := 0, stg := 0, cut := 0, rs := 0, wo := 0, reset := 0 }
def dSubmission : Submission := { other := none, begun := false, flags := 0, cid := 0, target := 0, addr := 0, len := 0, rsvd := 0, args := [] }
def dZscFields : ZscFields := { cond := 0, rd := 0, ra := 0, rb := 0, ext := 0, imm := 0 }
def dLineRec : LineRec := { n := 0, time := 0, pos := 0, slot := 0, gateStart := 0, gateEnd := 0, dropped := false, cutFlag := false, overlap := false, splice := false, leader := false, range := 0, cuts := 0, gap := false, begun := false, samples := [], ord := 0 }
def dTapIn : TapIn := { vd := 0, err := 0 }
def dRec : Rec := { type := 0, port := 0, flags := 0, line := 0, pos := 0, time := 0, setup := 0, range := 0, coding := 0, pixels := 0, planes := 0, layout := 0, bad := 0, drift := 0, cont := 0, payload := [] }
def dDesc : Desc := { idx := 0, addr := 0, len := 0, ctl := 0 }
def dCurDesc : CurDesc := { d := dDesc, written := 0, records := 0, firstLine := 0, start := false, cont := false, since := none }
def dHandBack : HandBack := { idx := 0, status := 0, written := 0, firstLine := 0, ctl := 0 }
def dXferSt : XferSt := { srcSp := 0, dstSp := 0, table := none, moves := [], descending := false, written := 0, span := none, tries := 0, cost := 0 }
def dWaitSt : WaitSt := { kind := 0, sel := 0, since := 0, start := 0, until_ := none }
def dDrvCmd : DrvCmd := { kind := 0, slot := 0, chunk := 0, seq := 0, tries := 0, aborted := false, writes := [] }
def dCkptSt : CkptSt := { step := 0, again := false }
def dStoreHdr : StoreHdr := { id := 0, ckpt := 0, next := 0, wp := 0, members := 0, lost := 0, slots := [], jhead := 0, jcount := 0, copy := 0 }
def dCue : Cue := { st := 0, port := 0, kind := 0, pinned := false, cause := 0, value := 0, line := none, reached := false, before := 0, after := 0, anchor := none, time := 0, ctx := 0, cid := 0 }
def dRewind : Rewind := { seq := 0, byPos := false, lo := 0, hi := 0, first := 0, last := 0, time := 0, total := 0, share := 0, items := [], begun := false, delivered := 0, dropped := 0, ending := none }
def dAuxCal : AuxCal := { wait := [], step := 0, ch := 0, g := 0, log := 0, taken := 0, sum := 0 }
def dPend : Pend := { arg0 := 0, arg1 := none, time := 0, count := 0 }
def dImage : Image := { component := 0, version := 0, svn := 0, flags := 0, key := 0, verified := false }
def dFaultRec : FaultRec := { kind := 0, unit := 0, code := 0, arg := 0, arg2 := 0, time := 0, joined := [] }
def dRefMeas : RefMeas := { freq := 0, gap := 0 }
def dBootInfo : BootInfo := { refA := dRefMeas, refB := dRefMeas, badSlices := [], cals := [], badLanes := [], banks := 0, largeFlash := false }
def dPciCfg : PciCfg := { bar0 := 0, bar4 := 0, mps := 0, mrrs := 0, ptm := false, aerClear := 0, aerError := none }
def dRefSample : RefSample := { time := 0, a := dRefMeas, b := dRefMeas }
def dRegCell : RegCell := { val := 0, force := 0, stg := 0, cmt := 0, cmtVal := 0, cut := 0 }
def dSeg : Seg := { st := 0, port := 0, pinned := false, seq := 0, entries := [], used := 0, closed := none, opened := 0, issued := 0, header := false, drvLost := false }
def dEdgeEntry : EdgeEntry := { kind := 0, dest := 0, mask := 0, start := 0, stop := 0, level := false, period := 0, high := 0, count := 0, sub := 0 }
/-- The check behind `MemOk`. -/
def memOkB (s : State) : Bool :=
  mwf resetCell s.regs && mwf (fun _ => 0) s.tbl && mwf noPend s.pend && mwf (fun _ => 0) s.raised && mwf (fun _ => false) s.msiUnmasked &&
    mwf (fun _ => false) s.msiPend && mwf (fun _ => 0) s.store && mwf sineT s.mstepNext && mwf sineT s.mstepNow &&
    s.engs.toList.all (fun e => mwf (fun _ => 0) e.imem && mwf (fun _ => 0) e.param && mwf (fun _ => 0) e.scratch)
/-- context whose next submission is served -/
def served (s : State) (c : CtxId) : State :=
  let s1 := s.updCtx c (fun x => { x with enable := true, err := 0, sqHead := 3, sqTail := 5, cqNext := 15, cqHead := 5, zhp := 0x32 })
  let s2 := s1.setReg c.val Off.HIF_AQ_SIZE 0x0404
  { s2 with mgt := { s2.mgt with up := true, resetBusy := false, paused := false }, link := { s2.link with perst := false, d3hot := false } }
def agree (s : State) : State :=
  { s with units := s.units.map UnitSt.sync, chans := s.chans.map (fun x => { x with skew := 0 }), scripts := s.scripts.map (fun x => { x with skew := 0 }) }
def sub (kind unit slot : Nat) (args : List Nat) (y : Submission) : Submission :=
  { y with flags := 1, rsvd := 0, target := BitVec.ofNat 32 (slot * 4096 + kind * 256 + unit), args := args.map (BitVec.ofNat 32) }
def own (s : State) : State := (List.finRange 8).foldl (fun s c => s.updCtx c (fun x => { x with rightsBlk := 0x0FFFFFFF, rightsPort := 0xFFFFFFFF, rightsAxis := 0xFFFF })) s
def zso : List Byte :=
  let sect (type eng off len value : Nat) := leBytes 1 type ++ leBytes 1 eng ++ leBytes 2 0 ++ leBytes 4 off ++ leBytes 4 len ++ leBytes 4 value
  let body := sect 1 2 0x60 8 0 ++ sect 2 2 0x60 0 100 ++ leBytes 8 0xF000000000000000
  let hd (crc : Nat) := leBytes 4 0x004F535A ++ leBytes 1 1 ++ leBytes 1 2 ++ leBytes 1 2 ++ leBytes 1 0 ++ leBytes 4 (0x40 + body.length) ++ leBytes 4 crc ++ leBytes 4 7 ++ leBytes 4 0 ++ leBytes 4 99
  let pad (x : List Byte) := x ++ List.replicate (0x40 - x.length) 0
  let crc := crc32c (pad (hd 0) ++ body)
  pad (hd crc) ++ body
/-- slots of the state made plausible -/
def tame (s : State) : State :=
  { s with units := s.units.map (fun u => { u with slots := u.slots.map (fun x => { x with isVerified := true, isLoaded := true, settings := [], prog0 := { x.prog0 with declared := 1, jump := [] }, prog1 := { x.prog1 with declared := 1, len := 0, jump := [] } }), cut := none, group := none, current := u.current.map (· % 8), committed := u.committed.map (· % 8) }), regs := [] }
/-- a state in which engine e runs -/
def running (s : State) (e : EngId) (setup : Nat) : State :=
  let s1 := s.updEng e (fun x => { x with run := .running, cyc := 3, setup := setup })
  let s2 := s1.updUnit (engUnit e) (fun x => { x with slots := x.slots.map (fun (q : Slot) => { q with prog0 := { q.prog0 with declared := 900 }, prog1 := { q.prog1 with declared := 900 } }) })
  s2.updScript (scriptOf e) (fun x => { x with xfer := none })
/-- pipe engine of p runs a primitive whose block is b, on a stream of samples -/
def prim (s : State) (p : PortId) (b : List Byte) (chained : Bool) (xs : List Nat) (pp np : Nat) : State :=
  let s := running s (pipeEng p) 3
  let ws := (List.range ((b.length + 3) / 4)).map (fun i => (4096 * 3 + i, BitVec.ofNat 32 (leAt b (4 * i) 4)))
  let s := s.updEng (pipeEng p) (fun x => { x with param := ws })
  let s := s.updUnit (engUnit (pipeEng p)) (fun x => { x with slots := x.slots.map (fun (q : Slot) => { q with prog1 := { q.prog1 with declared := 100000, base := 0, len := 0 } }) })
  s.updPort p (fun x => { x with pipe := { x.pipe with stall := none, skip := false, cap := none, stream := some { xs := some xs, p := pp, np := np, layout := 0, nmax := 3, lat := 2, bad := [], u := xs.map (fun v => (v : Int)) } } })
def zsoP : List Byte :=
  let sect (type eng off len value : Nat) := leBytes 1 type ++ leBytes 1 eng ++ leBytes 2 0 ++ leBytes 4 off ++ leBytes 4 len ++ leBytes 4 value
  let body := sect 1 0 0x80 8 0 ++ sect 1 1 0x88 8 0 ++ sect 2 0 0x80 0 100 ++ sect 2 1 0x80 0 100 ++ leBytes 8 0xF000000000000000 ++ leBytes 8 0xF000000000000000
  let hd (crc : Nat) := leBytes 4 0x004F535A ++ leBytes 1 1 ++ leBytes 1 1 ++ leBytes 1 4 ++ leBytes 1 0 ++ leBytes 4 (0x40 + body.length) ++ leBytes 4 crc ++ leBytes 4 7 ++ leBytes 4 0 ++ leBytes 4 99
  let pad (x : List Byte) := x ++ List.replicate (0x40 - x.length) 0
  let crc := crc32c (pad (hd 0) ++ body)
  pad (hd crc) ++ body

theorem memOk_of (s : State) (h : memOkB s = true) : s.MemOk := by
  simp only [memOkB, Bool.and_eq_true, List.all_eq_true] at h
  obtain ⟨⟨⟨⟨⟨⟨⟨⟨⟨h1, h2⟩, h3⟩, h4⟩, h5⟩, h6⟩, h7⟩, h8⟩, h9⟩, h0⟩ := h
  refine ⟨h1, h2, h3, h4, h5, h6, h7, h8, h9, fun e => ?_⟩
  have := h0 (s.engs[e]) (by simp)
  exact ⟨this.1.1, this.1.2, this.2⟩
def wSelectWrites0 : CtxId × Word × State :=
  let c : CtxId := 0
  let v : Word := 0
  let s : State := State.reset
  (c, v, s)
def wSelectWrites1 : CtxId × Word × State :=
  let c : CtxId := 0
  let v : Word := 0
  let s : State := State.reset
  (c, v, s)
def wSelectWrites2 : CtxId × Word × State :=
  let c : CtxId := 0
  let v : Word := 0
  let s : State := State.reset
  (c, v, s)
def wSelectWrites3 : CtxId × Word × State :=
  let c : CtxId := 0
  let v : Word := 0
  let s : State := State.reset
  (c, v, s)
def wSelectWrites4 : CtxId × Word × State :=
  let c : CtxId := 0
  let v : Word := 0
  let s : State := State.reset
  (c, v, s)
/-- The conditions of each clause of `Obligations.SelectWrites` are met. -/
theorem test_meets_SelectWrites :
    (∃ (c : CtxId) (v : Word) (s : State), s.refSel ≠ 3) ∧
    (∃ (c : CtxId) (v : Word) (s : State), s.refSel ≠ 3) ∧
    (∃ (c : CtxId) (v : Word) (s : State), s.refSel ≠ 3) ∧
    (∃ (c : CtxId) (v : Word) (s : State), s.refSel ≠ 3) ∧
    (∃ (c : CtxId) (v : Word) (s : State), s.refSel ≠ 3) :=
  ⟨⟨wSelectWrites0.1, wSelectWrites0.2.1, wSelectWrites0.2.2, by decide +kernel⟩,
   ⟨wSelectWrites1.1, wSelectWrites1.2.1, wSelectWrites1.2.2, by decide +kernel⟩,
   ⟨wSelectWrites2.1, wSelectWrites2.2.1, wSelectWrites2.2.2, by decide +kernel⟩,
   ⟨wSelectWrites3.1, wSelectWrites3.2.1, wSelectWrites3.2.2, by decide +kernel⟩,
   ⟨wSelectWrites4.1, wSelectWrites4.2.1, wSelectWrites4.2.2, by decide +kernel⟩⟩
def wPairAndFieldAccesses0 : CtxId × BitVec 23 × Nat × Nat × Bool × State × RegDef × Nat :=
  let c : CtxId := 0
  let off : BitVec 23 := 0
  let size : Nat := 0
  let corr : Nat := 0
  let bad : Bool := false
  let s : State := State.reset
  let r : RegDef := dRegDef
  let u : Nat := 0
  let off0 := if 0 == 0 then Off.HIF_TIME_LO else Off.MOT_POS_LO
  let off : BitVec 23 := BitVec.ofNat 23 off0
  let size := if 0 == 0 then 4 else 8
  let s := own s
  match s.reach c off0 with
  | some (r, u) =>
    (c, off, size, corr, bad, s, r, u)
  | _ => (0, 0, 0, 0, false, State.reset, dRegDef, 0)
def wPairAndFieldAccesses1 : CtxId × BitVec 23 × Nat × Nat × Bool × State × PortId × Nat × Nat × Nat :=
  let c : CtxId := 0
  let off : BitVec 23 := 0
  let size : Nat := 0
  let corr : Nat := 0
  let bad : Bool := false
  let s : State := State.reset
  let p : PortId := 0
  let k : Nat := 0
  let b : Nat := 0
  let e : Nat := 0
  let s := own { s with regs := [] }
  let q0 : Nat := 0
  let q1 : Nat := 0
  let q2 : Nat := 0
  let s := s.updCtx c (fun x => { x with selTable := BitVec.ofNat 32 (q0 + 256 * q1 + 65536 * q2) })
  let off : BitVec 23 := BitVec.ofNat 23 (0x400000 + 8 * 0)
  let size := if 0 == 0 then 4 else 8
  let bad := false
  match s.tblEntry c off.toNat with
  | some (p, k, b, e) =>
    (c, off, size, corr, bad, s, p, k, b, e)
  | _ => (0, 0, 0, 0, false, State.reset, 0, 0, 0, 0)
def wPairAndFieldAccesses2 : CtxId × BitVec 23 × State × RegDef × Nat :=
  let c : CtxId := 0
  let off : BitVec 23 := 0
  let s : State := State.reset
  let r : RegDef := dRegDef
  let u : Nat := 0
  let off0 := if 0 == 0 then Off.HIF_TIME_HI else Off.MOT_POS_HI
  let off : BitVec 23 := BitVec.ofNat 23 off0
  let s := own s
  match s.reach c off0 with
  | some (r, u) =>
    let tg : Nat := 0
    let s := s.updCtx c (fun x => { x with snapTag := if tg == 0 then some (rkey u (off0 - 4)) else x.snapTag })
    (c, off, s, r, u)
  | _ => (0, 0, State.reset, dRegDef, 0)
def wPairAndFieldAccesses3 : CtxId × BitVec 23 × Word × State × RegDef × Nat :=
  let c : CtxId := 0
  let off : BitVec 23 := 0
  let v : Word := 0
  let s : State := State.reset
  let r : RegDef := dRegDef
  let u : Nat := 0
  let off0 := [Off.PRT_GEAR_APOS_LO, Off.DMA_SC_BASE_LO, Off.HIF_ASQ_BASE_LO, Off.HIF_ACQ_BASE_LO][0]?.getD 0
  let off : BitVec 23 := BitVec.ofNat 23 off0
  let s := own s
  let s := s.updCtx c (fun x => { x with selChan := 64 + x.selChan.toNat % 15 })
  match s.reach c off0 with
  | some (r, u) =>
    let tg : Nat := 0
    let s := s.updCtx c (fun x => { x with holdTag := if tg == 0 then some (rkey u (off0 - 4)) else x.holdTag })
    (c, off, v, s, r, u)
  | _ => (0, 0, 0, State.reset, dRegDef, 0)
def wPairAndFieldAccesses4 : CtxId × BitVec 23 × Word × State × RegDef × Nat :=
  let c : CtxId := 0
  let off : BitVec 23 := 0
  let v : Word := 0
  let s : State := State.reset
  let r : RegDef := dRegDef
  let u : Nat := 0
  let off0 := [Off.PRT_GEAR_APOS_HI, Off.DMA_SC_BASE_HI, Off.HIF_ASQ_BASE_HI, Off.HIF_ACQ_BASE_HI][0]?.getD 0
  let off : BitVec 23 := BitVec.ofNat 23 off0
  let s := own s
  let s := s.updCtx c (fun x => { x with selChan := 64 + x.selChan.toNat % 15 })
  match s.reach c off0 with
  | some (r, u) =>
    let tg : Nat := 0
    let s := s.updCtx c (fun x => { x with holdTag := if tg == 0 then some (rkey u (off0 - 4)) else x.holdTag })
    (c, off, v, s, r, u)
  | _ => (0, 0, 0, State.reset, dRegDef, 0)
def wPairAndFieldAccesses5 : CtxId × BitVec 23 × DWord × State × RegDef × Nat :=
  let c : CtxId := 1
  let off : BitVec 23 := 63
  let v : DWord := 7
  let s : State := State.reset
  let r : RegDef := dRegDef
  let u : Nat := 28
  let lst := ((List.range 13).flatMap blockRegs).filter (fun r => r.pair == 0 && (r.rw ||| r.stg ||| r.cut ||| r.w1c) != 0)
  match lst[25]? with
  | some r =>
    let off : BitVec 23 := BitVec.ofNat 23 r.base
    let s := own s
    let s := s.updCtx c (fun x => { x with selChan := (if off.toNat < 0x40100 then x.selChan &&& 63 else 64 + x.selChan.toNat % 15), enable := false })
    match s.reach c r.base with
    | some (r, u) =>
      (c, off, v, s, r, u)
    | _ => (0, 0, 0, State.reset, dRegDef, 0)
  | _ => (0, 0, 0, State.reset, dRegDef, 0)
def wPairAndFieldAccesses6 : CtxId × BitVec 23 × Nat × DWord × State :=
  let c : CtxId := 0
  let off : BitVec 23 := 0
  let size : Nat := 0
  let v : DWord := 0
  let s : State := State.reset
  let s := s.setReg 0 Off.CLK_REF_STAT 3
  (c, off, size, v, s)
def wPairAndFieldAccesses7 : CtxId × BitVec 23 × Nat × DWord × State :=
  let c : CtxId := 0
  let off : BitVec 23 := 0
  let size : Nat := 0
  let v : DWord := 0
  let s : State := State.reset
  let size := [1, 2, 4, 8][0]?.getD 3
  (c, off, size, v, s)
def wPairAndFieldAccesses8 : CtxId × BitVec 23 × Nat × Nat × Bool × State :=
  let c : CtxId := 0
  let off : BitVec 23 := 0
  let size : Nat := 0
  let corr : Nat := 0
  let bad : Bool := false
  let s : State := State.reset
  let size := [1, 2, 4, 8][0]?.getD 3
  (c, off, size, corr, bad, s)
def wPairAndFieldAccesses9 : CtxId × BitVec 23 × Nat × DWord × State :=
  let c : CtxId := 0
  let off : BitVec 23 := 0
  let size : Nat := 0
  let v : DWord := 0
  let s : State := State.reset
  let size := 4
  let off := BitVec.ofNat 23 ((Nat.min 0x14FFFC off.toNat) / 4 * 4)
  let off := BitVec.ofNat 23 0x083404
  let s := s.updCtx c (fun x => { x with rightsBlk := 0 })
  (c, off, size, v, s)
def wPairAndFieldAccesses10 : CtxId × BitVec 23 × Nat × Nat × Bool × State :=
  let c : CtxId := 0
  let off : BitVec 23 := 0
  let size : Nat := 0
  let corr : Nat := 0
  let bad : Bool := false
  let s : State := State.reset
  let size := 4
  let off := BitVec.ofNat 23 ((Nat.min 0x14FFFC off.toNat) / 4 * 4)
  let off := BitVec.ofNat 23 0x083404
  let s := s.updCtx c (fun x => { x with rightsBlk := 0 })
  (c, off, size, corr, bad, s)
/-- The conditions of each clause of `Obligations.PairAndFieldAccesses` are met. -/
theorem test_meets_PairAndFieldAccesses :
    (∃ (c : CtxId) (off : BitVec 23) (size : Nat) (corr : Nat) (bad : Bool) (s : State) (r : RegDef) (u : Nat), (s.Serves c off.toNat false) ∧ (off.toNat % 8 = 0) ∧ (size = 4 ∨ size = 8) ∧ (s.reach c off.toNat = some (r, u)) ∧ (r.pair = 1) ∧ (r.base ≠ Off.EVQ_POP_LO) ∧ (off.toNat < 0x200000)) ∧
    (∃ (c : CtxId) (off : BitVec 23) (size : Nat) (corr : Nat) (bad : Bool) (s : State) (p : PortId) (k : Nat) (b : Nat) (e : Nat), (s.MemOk) ∧ (s.refSel ≠ 3) ∧ (sizeOk off.toNat size = true) ∧ (s.ctxs[c].allowed off.toNat false = true) ∧ (s.tblEntry c off.toNat = some (p, k, b, e)) ∧ (bad = false) ∧ ((s.port p).pipe.unreadable k (s.phys p k b) e = false)) ∧
    (∃ (c : CtxId) (off : BitVec 23) (s : State) (r : RegDef) (u : Nat), (s.Serves c off.toNat false) ∧ (off.toNat % 8 = 4) ∧ (s.reach c off.toNat = some (r, u)) ∧ (r.pair = 2) ∧ (r.rs = 0) ∧ (off.toNat < 0x200000)) ∧
    (∃ (c : CtxId) (off : BitVec 23) (v : Word) (s : State) (r : RegDef) (u : Nat), (s.Serves c off.toNat true) ∧ (off.toNat % 8 = 0) ∧ (s.reach c off.toNat = some (r, u)) ∧ (r.pair = 1) ∧ (lockedSc r u = false) ∧ (s.takes c r u off.toNat v.toNat = true) ∧ (off.toNat < 0x200000)) ∧
    (∃ (c : CtxId) (off : BitVec 23) (v : Word) (s : State) (r : RegDef) (u : Nat), (s.MemOk) ∧ (s.Serves c off.toNat true) ∧ (s.reach c off.toNat = some (r, u)) ∧ (r.base = Off.PRT_GEAR_APOS_HI ∨ r.base = Off.DMA_SC_BASE_HI ∨ ((r.base = Off.HIF_ASQ_BASE_HI ∨ r.base = Off.HIF_ACQ_BASE_HI) ∧ s.ctxs[c].enable = false)) ∧ (lockedSc r u = false)) ∧
    (∃ (c : CtxId) (off : BitVec 23) (v : DWord) (s : State) (r : RegDef) (u : Nat), (s.MemOk) ∧ (s.Serves c off.toNat true) ∧ (off.toNat % 4 = 0) ∧ (s.reach c off.toNat = some (r, u)) ∧ ((blockRow off.toNat).any (fun b => decide (b < 12) && b != 1) = true) ∧ (r.pair = 0) ∧ (lockedSc r u = false) ∧ (s.takes c r u off.toNat (v.toNat % 2 ^ 32) = true) ∧ (s.adjust r u off.toNat (v.toNat % 2 ^ 32) = v.toNat % 2 ^ 32) ∧ (r.base ∉ [Off.HIF_CTX_CTL, Off.HIF_ASQ_TAIL, Off.HIF_ACQ_HEAD, Off.HIF_RESET, Off.EVT_ROUTE, Off.EVQ_CTL, Off.EVQ_LEVEL, Off.EVQ_RING_HEAD, Off.EVQ_RING_BASE_LO, Off.EVQ_RING_BASE_HI, Off.EVQ_RING_SIZE, Off.DMA_DC_TAIL, Off.DMA_SC_CTL, Off.DMA_SC_TRAP, Off.PRT_HEAD_CTL, Off.PRT_OV, Off.PRT_WATCH, Off.PRT_GCFG, Off.PRT_CONV_CTL, Off.PRT_LTG_CMD, Off.PRT_GEAR_ARMCTL, Off.PRT_GEAR_LCFG, Off.PIP_BANK_CTL, Off.CMP_CTL, Off.TKS_CTL, Off.TKS_DRV_CTL, Off.MOT_GRP_CTL, Off.MOT_MSTEP_CTL, Off.AUX_SCAN_CTL, Off.AUX_SCAN_MASK, Off.AUX_EXC_CFG, Off.AUX_INJ_REQ, Off.AUX_OV, Off.AUX_CAL_CTL, Off.MGT_MBOX_CTL, Off.CLK_PPLL_FREQ])) ∧
    (∃ (c : CtxId) (off : BitVec 23) (size : Nat) (v : DWord) (s : State), s.refSel = 3) ∧
    (∃ (c : CtxId) (off : BitVec 23) (size : Nat) (v : DWord) (s : State), (s.MemOk) ∧ (s.refSel ≠ 3) ∧ (¬(size = 4 ∧ off.toNat % 4 = 0)) ∧ (¬(size = 8 ∧ off.toNat % 8 = 0 ∧ (0x200000 ≤ off.toNat ∨ (regDef off.toNat).any (fun r => r.pair == 1) = true)))) ∧
    (∃ (c : CtxId) (off : BitVec 23) (size : Nat) (corr : Nat) (bad : Bool) (s : State), (s.MemOk) ∧ (s.refSel ≠ 3) ∧ (¬(size = 4 ∧ off.toNat % 4 = 0)) ∧ (¬(size = 8 ∧ off.toNat % 8 = 0 ∧ (0x200000 ≤ off.toNat ∨ (regDef off.toNat).any (fun r => r.pair == 1) = true)))) ∧
    (∃ (c : CtxId) (off : BitVec 23) (size : Nat) (v : DWord) (s : State), (s.MemOk) ∧ (s.refSel ≠ 3) ∧ (sizeOk off.toNat size = true) ∧ (s.ctxs[c].allowed off.toNat true = false)) ∧
    (∃ (c : CtxId) (off : BitVec 23) (size : Nat) (corr : Nat) (bad : Bool) (s : State), (s.MemOk) ∧ (s.refSel ≠ 3) ∧ (sizeOk off.toNat size = true) ∧ (s.ctxs[c].allowed off.toNat false = false)) :=
  ⟨⟨wPairAndFieldAccesses0.1, wPairAndFieldAccesses0.2.1, wPairAndFieldAccesses0.2.2.1, wPairAndFieldAccesses0.2.2.2.1, wPairAndFieldAccesses0.2.2.2.2.1, wPairAndFieldAccesses0.2.2.2.2.2.1, wPairAndFieldAccesses0.2.2.2.2.2.2.1, wPairAndFieldAccesses0.2.2.2.2.2.2.2, by unfold State.Serves; decide +kernel⟩,
   ⟨wPairAndFieldAccesses1.1, wPairAndFieldAccesses1.2.1, wPairAndFieldAccesses1.2.2.1, wPairAndFieldAccesses1.2.2.2.1, wPairAndFieldAccesses1.2.2.2.2.1, wPairAndFieldAccesses1.2.2.2.2.2.1, wPairAndFieldAccesses1.2.2.2.2.2.2.1, wPairAndFieldAccesses1.2.2.2.2.2.2.2.1, wPairAndFieldAccesses1.2.2.2.2.2.2.2.2.1, wPairAndFieldAccesses1.2.2.2.2.2.2.2.2.2, memOk_of _ (by decide +kernel), (by decide +kernel), (by decide +kernel), (by decide +kernel), (by decide +kernel), (by decide +kernel), (by decide +kernel)⟩,
   ⟨wPairAndFieldAccesses2.1, wPairAndFieldAccesses2.2.1, wPairAndFieldAccesses2.2.2.1, wPairAndFieldAccesses2.2.2.2.1, wPairAndFieldAccesses2.2.2.2.2, by unfold State.Serves; decide +kernel⟩,
   ⟨wPairAndFieldAccesses3.1, wPairAndFieldAccesses3.2.1, wPairAndFieldAccesses3.2.2.1, wPairAndFieldAccesses3.2.2.2.1, wPairAndFieldAccesses3.2.2.2.2.1, wPairAndFieldAccesses3.2.2.2.2.2, by unfold State.Serves; decide +kernel⟩,
   ⟨wPairAndFieldAccesses4.1, wPairAndFieldAccesses4.2.1, wPairAndFieldAccesses4.2.2.1, wPairAndFieldAccesses4.2.2.2.1, wPairAndFieldAccesses4.2.2.2.2.1, wPairAndFieldAccesses4.2.2.2.2.2, memOk_of _ (by decide +kernel), (by unfold State.Serves; decide +kernel), (by decide +kernel), (by decide +kernel), (by decide +kernel)⟩,
   ⟨wPairAndFieldAccesses5.1, wPairAndFieldAccesses5.2.1, wPairAndFieldAccesses5.2.2.1, wPairAndFieldAccesses5.2.2.2.1, wPairAndFieldAccesses5.2.2.2.2.1, wPairAndFieldAccesses5.2.2.2.2.2, memOk_of _ (by decide +kernel), (by unfold State.Serves; decide +kernel), (by decide +kernel), (by decide +kernel), (by decide +kernel), (by decide +kernel), (by decide +kernel), (by decide +kernel), (by decide +kernel), (by decide +kernel)⟩,
   ⟨wPairAndFieldAccesses6.1, wPairAndFieldAccesses6.2.1, wPairAndFieldAccesses6.2.2.1, wPairAndFieldAccesses6.2.2.2.1, wPairAndFieldAccesses6.2.2.2.2, by decide +kernel⟩,
   ⟨wPairAndFieldAccesses7.1, wPairAndFieldAccesses7.2.1, wPairAndFieldAccesses7.2.2.1, wPairAndFieldAccesses7.2.2.2.1, wPairAndFieldAccesses7.2.2.2.2, memOk_of _ (by decide +kernel), (by decide +kernel), (by decide +kernel), (by decide +kernel)⟩,
   ⟨wPairAndFieldAccesses8.1, wPairAndFieldAccesses8.2.1, wPairAndFieldAccesses8.2.2.1, wPairAndFieldAccesses8.2.2.2.1, wPairAndFieldAccesses8.2.2.2.2.1, wPairAndFieldAccesses8.2.2.2.2.2, memOk_of _ (by decide +kernel), (by decide +kernel), (by decide +kernel), (by decide +kernel)⟩,
   ⟨wPairAndFieldAccesses9.1, wPairAndFieldAccesses9.2.1, wPairAndFieldAccesses9.2.2.1, wPairAndFieldAccesses9.2.2.2.1, wPairAndFieldAccesses9.2.2.2.2, memOk_of _ (by decide +kernel), (by decide +kernel), (by decide +kernel), (by decide +kernel)⟩,
   ⟨wPairAndFieldAccesses10.1, wPairAndFieldAccesses10.2.1, wPairAndFieldAccesses10.2.2.1, wPairAndFieldAccesses10.2.2.2.1, wPairAndFieldAccesses10.2.2.2.2.1, wPairAndFieldAccesses10.2.2.2.2.2, memOk_of _ (by decide +kernel), (by decide +kernel), (by decide +kernel), (by decide +kernel)⟩⟩
def wSessionAndDoorbells0 : CtxId × Word × State :=
  let c : CtxId := 0
  let v : Word := 0
  let s : State := State.reset
  let s := if 0 == 0 then s else ((s.setReg c.val Off.HIF_AQ_SIZE 0x0504).setReg c.val Off.HIF_ASQ_BASE_LO 0x1000).setReg c.val Off.HIF_ACQ_BASE_LO 0x2000
  let s := if 0 == 0 then s else s.updCtx c (fun x => { x with enable := false })
  (c, v, s)
def wSessionAndDoorbells1 : CtxId × Word × State :=
  let c : CtxId := 0
  let v : Word := 0
  let s : State := State.reset
  let s := if 0 == 0 then s else ((s.setReg c.val Off.HIF_AQ_SIZE 0x0504).setReg c.val Off.HIF_ASQ_BASE_LO 0x1000).setReg c.val Off.HIF_ACQ_BASE_LO 0x2000
  let s := if 0 == 0 then s else s.updCtx c (fun x => { x with enable := false })
  (c, v, s)
def wSessionAndDoorbells2 : CtxId × Word × State :=
  let c : CtxId := 0
  let v : Word := 0
  let s : State := State.reset
  let s := (served s c).updCtx c (fun x => { x with sqHead := x.sqHead % 16, sqTail := x.sqTail % 16 })
  let v : Word := BitVec.ofNat 32 0
  (c, v, s)
def wSessionAndDoorbells3 : CtxId × Word × State :=
  let c : CtxId := 0
  let v : Word := 0
  let s : State := State.reset
  let s := (served s c).updCtx c (fun x => { x with cqHead := x.sqHead % 16, cqNext := x.sqTail % 16 })
  let v : Word := BitVec.ofNat 32 0
  (c, v, s)
def wSessionAndDoorbells4 : CtxId × State :=
  let c : CtxId := 0
  let s : State := State.reset
  (c, s)
/-- The conditions of each clause of `Obligations.SessionAndDoorbells` are met. -/
theorem test_meets_SessionAndDoorbells :
    (∃ (c : CtxId) (v : Word) (s : State), s.refSel ≠ 3) ∧
    (∃ (c : CtxId) (v : Word) (s : State), s.refSel ≠ 3) ∧
    (∃ (c : CtxId) (v : Word) (s : State), (s.MemOk) ∧ (s.refSel ≠ 3) ∧ (s.ctxs[c].enable = true) ∧ (s.ctxs[c].err ≠ 2)) ∧
    (∃ (c : CtxId) (v : Word) (s : State), (s.MemOk) ∧ (s.refSel ≠ 3) ∧ (s.ctxs[c].enable = true) ∧ (s.ctxs[c].err ≠ 2)) ∧
    (∃ (c : CtxId) (s : State), s.refSel ≠ 3) :=
  ⟨⟨wSessionAndDoorbells0.1, wSessionAndDoorbells0.2.1, wSessionAndDoorbells0.2.2, by decide +kernel⟩,
   ⟨wSessionAndDoorbells1.1, wSessionAndDoorbells1.2.1, wSessionAndDoorbells1.2.2, by decide +kernel⟩,
   ⟨wSessionAndDoorbells2.1, wSessionAndDoorbells2.2.1, wSessionAndDoorbells2.2.2, memOk_of _ (by decide +kernel), (by decide +kernel), (by decide +kernel), (by decide +kernel)⟩,
   ⟨wSessionAndDoorbells3.1, wSessionAndDoorbells3.2.1, wSessionAndDoorbells3.2.2, memOk_of _ (by decide +kernel), (by decide +kernel), (by decide +kernel), (by decide +kernel)⟩,
   ⟨wSessionAndDoorbells4.1, wSessionAndDoorbells4.2, by decide +kernel⟩⟩
def wCountersReadToClear0 : CtxId × State :=
  let c : CtxId := 0
  let s : State := State.reset
  let s := own s
  let w : RegCell := dRegCell
  let s := s.setCell (s.ctxs[c]).selPort.toNat (Off.PRT_GQUEUE) w
  let s := s.updCtx c (fun x => { x with selPort := x.selPort &&& 15, selAxis := x.selAxis &&& 7, selChan := BitVec.ofNat 32 (x.selChan.toNat % 64) })
  let w : RegCell := dRegCell
  let s := s.setCell (s.ctxs[c]).selPort.toNat Off.PRT_GQUEUE w
  (c, s)
def wCountersReadToClear1 : CtxId × State :=
  let c : CtxId := 0
  let s : State := State.reset
  let s := own s
  let w : RegCell := dRegCell
  let s := s.setCell (s.ctxs[c]).selPort.toNat (Off.PRT_GREJECT) w
  let s := s.updCtx c (fun x => { x with selPort := x.selPort &&& 15, selAxis := x.selAxis &&& 7, selChan := BitVec.ofNat 32 (x.selChan.toNat % 64) })
  let w : RegCell := dRegCell
  let s := s.setCell (s.ctxs[c]).selPort.toNat Off.PRT_GREJECT w
  (c, s)
def wCountersReadToClear2 : CtxId × State :=
  let c : CtxId := 0
  let s : State := State.reset
  let s := own s
  let w : RegCell := dRegCell
  let s := s.setCell (s.ctxs[c]).selPort.toNat (Off.PRT_LTG_EARLY) w
  let s := s.updCtx c (fun x => { x with selPort := x.selPort &&& 15, selAxis := x.selAxis &&& 7, selChan := BitVec.ofNat 32 (x.selChan.toNat % 64) })
  let w : RegCell := dRegCell
  let s := s.setCell (s.ctxs[c]).selPort.toNat Off.PRT_LTG_EARLY w
  (c, s)
def wCountersReadToClear3 : CtxId × State :=
  let c : CtxId := 0
  let s : State := State.reset
  let s := own s
  let w : RegCell := dRegCell
  let s := s.setCell (s.ctxs[c]).selPort.toNat (Off.PIP_ECC) w
  let s := s.updCtx c (fun x => { x with selPort := x.selPort &&& 15, selAxis := x.selAxis &&& 7, selChan := BitVec.ofNat 32 (x.selChan.toNat % 64) })
  let w : RegCell := dRegCell
  let s := s.setCell (s.ctxs[c]).selPort.toNat Off.PIP_ECC w
  (c, s)
def wCountersReadToClear4 : CtxId × State :=
  let c : CtxId := 0
  let s : State := State.reset
  let s := own s
  let w : RegCell := dRegCell
  let s := s.setCell (s.ctxs[c]).selPort.toNat (Off.PIP_ECC_ADDR) w
  let s := s.updCtx c (fun x => { x with selPort := x.selPort &&& 15, selAxis := x.selAxis &&& 7, selChan := BitVec.ofNat 32 (x.selChan.toNat % 64) })
  let w : RegCell := dRegCell
  let s := s.setCell (s.ctxs[c]).selPort.toNat Off.PIP_ECC_ADDR w
  (c, s)
def wCountersReadToClear5 : CtxId × State :=
  let c : CtxId := 0
  let s : State := State.reset
  let s := own s
  let w : RegCell := dRegCell
  let s := s.setCell (s.ctxs[c]).selPort.toNat (Off.PIP_LANE_STAT) w
  let s := s.updCtx c (fun x => { x with selPort := x.selPort &&& 15, selAxis := x.selAxis &&& 7, selChan := BitVec.ofNat 32 (x.selChan.toNat % 64) })
  let w : RegCell := dRegCell
  let s := s.setCell (s.ctxs[c]).selPort.toNat Off.PIP_LANE_STAT w
  (c, s)
def wCountersReadToClear6 : CtxId × State :=
  let c : CtxId := 0
  let s : State := State.reset
  let s := own s
  let w : RegCell := dRegCell
  let s := s.setCell (s.ctxs[c]).selPort.toNat (Off.CMP_VERIFY) w
  let s := s.updCtx c (fun x => { x with selPort := x.selPort &&& 15, selAxis := x.selAxis &&& 7, selChan := BitVec.ofNat 32 (x.selChan.toNat % 64) })
  let w : RegCell := dRegCell
  let s := s.setCell (s.ctxs[c]).selPort.toNat Off.CMP_VERIFY w
  (c, s)
def wCountersReadToClear7 : CtxId × State :=
  let c : CtxId := 0
  let s : State := State.reset
  let s := own s
  let w : RegCell := dRegCell
  let s := s.setCell (s.ctxs[c]).selPort.toNat (Off.CMP_BAD) w
  let s := s.updCtx c (fun x => { x with selPort := x.selPort &&& 15, selAxis := x.selAxis &&& 7, selChan := BitVec.ofNat 32 (x.selChan.toNat % 64) })
  let w : RegCell := dRegCell
  let s := s.setCell (s.ctxs[c]).selPort.toNat Off.CMP_BAD w
  (c, s)
def wCountersReadToClear8 : CtxId × State :=
  let c : CtxId := 0
  let s : State := State.reset
  let s := own s
  let w : RegCell := dRegCell
  let s := s.setCell (s.ctxs[c]).selPort.toNat (Off.CMP_STALL) w
  let s := s.updCtx c (fun x => { x with selPort := x.selPort &&& 15, selAxis := x.selAxis &&& 7, selChan := BitVec.ofNat 32 (x.selChan.toNat % 64) })
  let w : RegCell := dRegCell
  let s := s.setCell (s.ctxs[c]).selPort.toNat Off.CMP_STALL w
  (c, s)
def wCountersReadToClear9 : CtxId × Fin 16 × State :=
  let c : CtxId := 0
  let i : Fin 16 := 0
  let s : State := State.reset
  let s := own s
  let w : RegCell := dRegCell
  let s := s.setCell (s.ctxs[c]).selPort.toNat (Off.CMP_SHIFT + 4 * i.val) w
  let s := s.updCtx c (fun x => { x with selPort := x.selPort &&& 15, selAxis := x.selAxis &&& 7, selChan := BitVec.ofNat 32 (x.selChan.toNat % 64) })
  let w : RegCell := dRegCell
  let s := s.setCell (s.ctxs[c]).selPort.toNat (Off.CMP_SHIFT + 4 * i.val) w
  (c, i, s)
def wCountersReadToClear10 : CtxId × State :=
  let c : CtxId := 0
  let s : State := State.reset
  let s := own s
  let w : RegCell := dRegCell
  let s := s.setCell (s.ctxs[c]).selChan.toNat (Off.DMA_DC_DROP) w
  let s := s.updCtx c (fun x => { x with selPort := x.selPort &&& 15, selAxis := x.selAxis &&& 7, selChan := BitVec.ofNat 32 (x.selChan.toNat % 64) })
  let w : RegCell := dRegCell
  let s := s.setCell (s.ctxs[c]).selChan.toNat Off.DMA_DC_DROP w
  (c, s)
def wCountersReadToClear11 : CtxId × State :=
  let c : CtxId := 0
  let s : State := State.reset
  let s := own s
  let w : RegCell := dRegCell
  let s := s.setCell (s.ctxs[c]).selChan.toNat (Off.DMA_DC_ERR) w
  let s := s.updCtx c (fun x => { x with selPort := x.selPort &&& 15, selAxis := x.selAxis &&& 7, selChan := BitVec.ofNat 32 (x.selChan.toNat % 64) })
  let w : RegCell := dRegCell
  let s := s.setCell (s.ctxs[c]).selChan.toNat Off.DMA_DC_ERR w
  (c, s)
def wCountersReadToClear12 : CtxId × State :=
  let c : CtxId := 0
  let s : State := State.reset
  let s := own s
  let w : RegCell := dRegCell
  let s := s.setCell (s.ctxs[c]).selChan.toNat (Off.DMA_SC_FAULT) w
  let s := s.updCtx c (fun x => { x with selPort := x.selPort &&& 15, selAxis := x.selAxis &&& 7, selChan := BitVec.ofNat 32 (64 + x.selChan.toNat % 15) })
  let w : RegCell := dRegCell
  let s := s.setCell (s.ctxs[c]).selChan.toNat Off.DMA_SC_FAULT w
  (c, s)
def wCountersReadToClear13 : CtxId × PortId × State :=
  let c : CtxId := 0
  let p : PortId := 0
  let s : State := State.reset
  let s := own s
  let w : RegCell := dRegCell
  let s := s.setCell 0 (Off.TKS_PORT_DROP + 16 * p.val) w
  (c, p, s)
def wCountersReadToClear14 : CtxId × State :=
  let c : CtxId := 0
  let s : State := State.reset
  let s := own s
  let w : RegCell := dRegCell
  let s := s.setCell (s.ctxs[c]).selAxis.toNat (Off.MOT_CHATTER) w
  let s := s.updCtx c (fun x => { x with selPort := x.selPort &&& 15, selAxis := x.selAxis &&& 7, selChan := BitVec.ofNat 32 (x.selChan.toNat % 64) })
  let w : RegCell := dRegCell
  let s := s.setCell (s.ctxs[c]).selAxis.toNat Off.MOT_CHATTER w
  (c, s)
def wCountersReadToClear15 : CtxId × State :=
  let c : CtxId := 0
  let s : State := State.reset
  let s := own s
  let w : RegCell := dRegCell
  let s := s.setCell 0 (Off.AUX_SCAN_STAT) w
  (c, s)
def wCountersReadToClear16 : CtxId × Fin 8 × State :=
  let c : CtxId := 0
  let n : Fin 8 := 0
  let s : State := State.reset
  let s := own s
  let w : RegCell := dRegCell
  let s := s.setCell 0 (Off.AUX_EXC_STAT + 16 * n.val) w
  (c, n, s)
def wCountersReadToClear17 : CtxId × Fin 4 × State :=
  let c : CtxId := 0
  let n : Fin 4 := 0
  let s : State := State.reset
  let s := own s
  let w : RegCell := dRegCell
  let s := s.setCell 0 (Off.AUX_INJ_REQ + 16 * n.val) w
  (c, n, s)
def wCountersReadToClear18 : CtxId × QueueId × State :=
  let c : CtxId := 0
  let q : QueueId := 0
  let s : State := State.reset
  let s := own s
  let w : RegCell := dRegCell
  let s := s.setCell 0 (Off.EVQ_LOST + 64 * q.val) w
  (c, q, s)
def wCountersReadToClear19 : CtxId × State :=
  let c : CtxId := 0
  let s : State := State.reset
  let s := own s
  let w : RegCell := dRegCell
  let s := s.setCell 0 (Off.MGT_FAULT) w
  (c, s)
def wCountersReadToClear20 : CtxId × State :=
  let c : CtxId := 0
  let s : State := State.reset
  let s := own s
  let w : RegCell := dRegCell
  let s := s.setCell 0 (Off.MGT_FAULT_CNT) w
  (c, s)
def wCountersReadToClear21 : CtxId × State :=
  let c : CtxId := 0
  let s : State := State.reset
  let s := own s
  (c, s)
def wCountersReadToClear22 : CtxId × Fin 32 × State :=
  let c : CtxId := 0
  let i : Fin 32 := 0
  let s : State := State.reset
  let s := own s
  let w : RegCell := dRegCell
  let s := s.setCell 0 ((if i.val < 12 then Off.MGT_TEMP + 4 * i.val else Off.MGT_VOLT + 4 * (i.val - 12))) w
  (c, i, s)
/-- The conditions of each clause of `Obligations.CountersReadToClear` are met. -/
theorem test_meets_CountersReadToClear :
    (∃ (c : CtxId) (s : State), (s.MemOk) ∧ (s.Serves c (Off.PRT_GQUEUE) false) ∧ ((s.ctxs[c]).selPort.toNat < 16)) ∧
    (∃ (c : CtxId) (s : State), (s.MemOk) ∧ (s.Serves c (Off.PRT_GREJECT) false) ∧ ((s.ctxs[c]).selPort.toNat < 16)) ∧
    (∃ (c : CtxId) (s : State), (s.MemOk) ∧ (s.Serves c (Off.PRT_LTG_EARLY) false) ∧ ((s.ctxs[c]).selPort.toNat < 16)) ∧
    (∃ (c : CtxId) (s : State), (s.MemOk) ∧ (s.Serves c (Off.PIP_ECC) false) ∧ ((s.ctxs[c]).selPort.toNat < 16)) ∧
    (∃ (c : CtxId) (s : State), (s.MemOk) ∧ (s.Serves c (Off.PIP_ECC_ADDR) false) ∧ ((s.ctxs[c]).selPort.toNat < 16)) ∧
    (∃ (c : CtxId) (s : State), (s.MemOk) ∧ (s.Serves c (Off.PIP_LANE_STAT) false) ∧ ((s.ctxs[c]).selPort.toNat < 16)) ∧
    (∃ (c : CtxId) (s : State), (s.MemOk) ∧ (s.Serves c (Off.CMP_VERIFY) false) ∧ ((s.ctxs[c]).selPort.toNat < 16)) ∧
    (∃ (c : CtxId) (s : State), (s.MemOk) ∧ (s.Serves c (Off.CMP_BAD) false) ∧ ((s.ctxs[c]).selPort.toNat < 16)) ∧
    (∃ (c : CtxId) (s : State), (s.MemOk) ∧ (s.Serves c (Off.CMP_STALL) false) ∧ ((s.ctxs[c]).selPort.toNat < 16)) ∧
    (∃ (c : CtxId) (i : Fin 16) (s : State), (s.MemOk) ∧ (s.Serves c (Off.CMP_SHIFT + 4 * i.val) false) ∧ ((s.ctxs[c]).selPort.toNat < 16)) ∧
    (∃ (c : CtxId) (s : State), (s.MemOk) ∧ (s.Serves c (Off.DMA_DC_DROP) false) ∧ ((s.ctxs[c]).selChan.toNat < 64)) ∧
    (∃ (c : CtxId) (s : State), (s.MemOk) ∧ (s.Serves c (Off.DMA_DC_ERR) false) ∧ ((s.ctxs[c]).selChan.toNat < 64)) ∧
    (∃ (c : CtxId) (s : State), (s.MemOk) ∧ (s.Serves c (Off.DMA_SC_FAULT) false) ∧ (64 ≤ (s.ctxs[c]).selChan.toNat) ∧ ((s.ctxs[c]).selChan.toNat < 80)) ∧
    (∃ (c : CtxId) (p : PortId) (s : State), (s.MemOk) ∧ (s.Serves c (Off.TKS_PORT_DROP + 16 * p.val) false)) ∧
    (∃ (c : CtxId) (s : State), (s.MemOk) ∧ (s.Serves c (Off.MOT_CHATTER) false) ∧ ((s.ctxs[c]).selAxis.toNat < 8)) ∧
    (∃ (c : CtxId) (s : State), (s.MemOk) ∧ (s.Serves c (Off.AUX_SCAN_STAT) false)) ∧
    (∃ (c : CtxId) (n : Fin 8) (s : State), (s.MemOk) ∧ (s.Serves c (Off.AUX_EXC_STAT + 16 * n.val) false)) ∧
    (∃ (c : CtxId) (n : Fin 4) (s : State), (s.MemOk) ∧ (s.Serves c (Off.AUX_INJ_REQ + 16 * n.val) false)) ∧
    (∃ (c : CtxId) (q : QueueId) (s : State), (s.MemOk) ∧ (s.Serves c (Off.EVQ_LOST + 64 * q.val) false)) ∧
    (∃ (c : CtxId) (s : State), (s.MemOk) ∧ (s.Serves c (Off.MGT_FAULT) false)) ∧
    (∃ (c : CtxId) (s : State), (s.MemOk) ∧ (s.Serves c (Off.MGT_FAULT_CNT) false)) ∧
    (∃ (c : CtxId) (s : State), s.Serves c Off.MGT_JRNL_STAT false) ∧
    (∃ (c : CtxId) (i : Fin 32) (s : State), (s.MemOk) ∧ (s.Serves c ((if i.val < 12 then Off.MGT_TEMP + 4 * i.val else Off.MGT_VOLT + 4 * (i.val - 12))) false)) :=
  ⟨⟨wCountersReadToClear0.1, wCountersReadToClear0.2, memOk_of _ (by decide +kernel), (by unfold State.Serves; decide +kernel), (by decide +kernel)⟩,
   ⟨wCountersReadToClear1.1, wCountersReadToClear1.2, memOk_of _ (by decide +kernel), (by unfold State.Serves; decide +kernel), (by decide +kernel)⟩,
   ⟨wCountersReadToClear2.1, wCountersReadToClear2.2, memOk_of _ (by decide +kernel), (by unfold State.Serves; decide +kernel), (by decide +kernel)⟩,
   ⟨wCountersReadToClear3.1, wCountersReadToClear3.2, memOk_of _ (by decide +kernel), (by unfold State.Serves; decide +kernel), (by decide +kernel)⟩,
   ⟨wCountersReadToClear4.1, wCountersReadToClear4.2, memOk_of _ (by decide +kernel), (by unfold State.Serves; decide +kernel), (by decide +kernel)⟩,
   ⟨wCountersReadToClear5.1, wCountersReadToClear5.2, memOk_of _ (by decide +kernel), (by unfold State.Serves; decide +kernel), (by decide +kernel)⟩,
   ⟨wCountersReadToClear6.1, wCountersReadToClear6.2, memOk_of _ (by decide +kernel), (by unfold State.Serves; decide +kernel), (by decide +kernel)⟩,
   ⟨wCountersReadToClear7.1, wCountersReadToClear7.2, memOk_of _ (by decide +kernel), (by unfold State.Serves; decide +kernel), (by decide +kernel)⟩,
   ⟨wCountersReadToClear8.1, wCountersReadToClear8.2, memOk_of _ (by decide +kernel), (by unfold State.Serves; decide +kernel), (by decide +kernel)⟩,
   ⟨wCountersReadToClear9.1, wCountersReadToClear9.2.1, wCountersReadToClear9.2.2, memOk_of _ (by decide +kernel), (by unfold State.Serves; decide +kernel), (by decide +kernel)⟩,
   ⟨wCountersReadToClear10.1, wCountersReadToClear10.2, memOk_of _ (by decide +kernel), (by unfold State.Serves; decide +kernel), (by decide +kernel)⟩,
   ⟨wCountersReadToClear11.1, wCountersReadToClear11.2, memOk_of _ (by decide +kernel), (by unfold State.Serves; decide +kernel), (by decide +kernel)⟩,
   ⟨wCountersReadToClear12.1, wCountersReadToClear12.2, memOk_of _ (by decide +kernel), (by unfold State.Serves; decide +kernel), (by decide +kernel), (by decide +kernel)⟩,
   ⟨wCountersReadToClear13.1, wCountersReadToClear13.2.1, wCountersReadToClear13.2.2, memOk_of _ (by decide +kernel), (by unfold State.Serves; decide +kernel)⟩,
   ⟨wCountersReadToClear14.1, wCountersReadToClear14.2, memOk_of _ (by decide +kernel), (by unfold State.Serves; decide +kernel), (by decide +kernel)⟩,
   ⟨wCountersReadToClear15.1, wCountersReadToClear15.2, memOk_of _ (by decide +kernel), (by unfold State.Serves; decide +kernel)⟩,
   ⟨wCountersReadToClear16.1, wCountersReadToClear16.2.1, wCountersReadToClear16.2.2, memOk_of _ (by decide +kernel), (by unfold State.Serves; decide +kernel)⟩,
   ⟨wCountersReadToClear17.1, wCountersReadToClear17.2.1, wCountersReadToClear17.2.2, memOk_of _ (by decide +kernel), (by unfold State.Serves; decide +kernel)⟩,
   ⟨wCountersReadToClear18.1, wCountersReadToClear18.2.1, wCountersReadToClear18.2.2, memOk_of _ (by decide +kernel), (by unfold State.Serves; decide +kernel)⟩,
   ⟨wCountersReadToClear19.1, wCountersReadToClear19.2, memOk_of _ (by decide +kernel), (by unfold State.Serves; decide +kernel)⟩,
   ⟨wCountersReadToClear20.1, wCountersReadToClear20.2, memOk_of _ (by decide +kernel), (by unfold State.Serves; decide +kernel)⟩,
   ⟨wCountersReadToClear21.1, wCountersReadToClear21.2, by unfold State.Serves; decide +kernel⟩,
   ⟨wCountersReadToClear22.1, wCountersReadToClear22.2.1, wCountersReadToClear22.2.2, memOk_of _ (by decide +kernel), (by unfold State.Serves; decide +kernel)⟩⟩
def wWindowWrites0 : CtxId × BitVec 21 × DWord × State × EngId × Nat × Nat :=
  let c : CtxId := 0
  let off : BitVec 21 := 0
  let v : DWord := 0
  let s : State := State.reset
  let e : EngId := 0
  let k : Nat := 0
  let w : Nat := 0
  let s := own { s with regs := [], tbl := [] }
  let s := { s with units := s.units.map (fun (u : UnitSt) => { u with st := .halted, cut := none }) }
  let s := { s with engs := s.engs.map (fun (x : Eng) => { x with old := false, param := [], scratch := [(3, 9)] }) }
  let s := { s with jrnl := { s.jrnl with mem := [] } }
  let off0 := 0x100000 + 4 * 0
  let off : BitVec 21 := BitVec.ofNat 21 off0
  let sel : Nat := 0
  let idx : Nat := 0
  let s := s.updCtx c (fun x => { x with selEngine := BitVec.ofNat 32 (sel * 16 + idx) })
  match (s.ctxs[c]).winLoc (0x200000 + off.toNat) with
  | some (.param e k w) =>
    (c, off, v, s, e, k, w)
  | _ => (0, 0, 0, State.reset, 0, 0, 0)
def wWindowWrites1 : CtxId × BitVec 21 × DWord × State × EngId × Nat :=
  let c : CtxId := 0
  let off : BitVec 21 := 0
  let v : DWord := 0
  let s : State := State.reset
  let e : EngId := 0
  let w : Nat := 0
  let s := own { s with regs := [], tbl := [] }
  let s := { s with units := s.units.map (fun (u : UnitSt) => { u with st := .halted, cut := none }) }
  let s := { s with engs := s.engs.map (fun (x : Eng) => { x with old := false, param := [], scratch := [(3, 9)] }) }
  let s := { s with jrnl := { s.jrnl with mem := [] } }
  let off0 := 0x180000 + 4 * 0
  let off : BitVec 21 := BitVec.ofNat 21 off0
  let sel : Nat := 0
  let idx : Nat := 0
  let s := s.updCtx c (fun x => { x with selEngine := BitVec.ofNat 32 (sel * 16 + idx) })
  match (s.ctxs[c]).winLoc (0x200000 + off.toNat) with
  | some (.scratch e w) =>
    (c, off, v, s, e, w)
  | _ => (0, 0, 0, State.reset, 0, 0)
def wWindowWrites2 : CtxId × BitVec 21 × DWord × State × MemLoc :=
  let c : CtxId := 0
  let off : BitVec 21 := 0
  let v : DWord := 0
  let s : State := State.reset
  let l : MemLoc := (.store 0)
  let s := own { s with regs := [], tbl := [] }
  let s := { s with units := s.units.map (fun (u : UnitSt) => { u with st := .halted, cut := none }) }
  let s := { s with engs := s.engs.map (fun (x : Eng) => { x with old := false, param := [], scratch := [(3, 9)] }) }
  let s := { s with jrnl := { s.jrnl with mem := [] } }
  let off0 := 4 * 0
  let off : BitVec 21 := BitVec.ofNat 21 off0
  let sel : Nat := 0
  let idx : Nat := 0
  let s := s.updCtx c (fun x => { x with selEngine := BitVec.ofNat 32 (sel * 16 + idx) })
  match (s.ctxs[c]).winLoc (0x200000 + off.toNat) with
  | some l =>
    (c, off, v, s, l)
  | _ => (0, 0, 0, State.reset, (.store 0))
def wWindowWrites3 : CtxId × BitVec 21 × DWord × State :=
  let c : CtxId := 0
  let off : BitVec 21 := 0
  let v : DWord := 0
  let s : State := State.reset
  let s := own { s with regs := [], tbl := [] }
  let s := { s with units := s.units.map (fun (u : UnitSt) => { u with st := .halted, cut := none }) }
  let s := { s with engs := s.engs.map (fun (x : Eng) => { x with old := false, param := [], scratch := [(3, 9)] }) }
  let s := { s with jrnl := { s.jrnl with mem := [] } }
  let off0 := 0x1F0000 + 4 * 0
  let off : BitVec 21 := BitVec.ofNat 21 off0
  let sel : Nat := 0
  let idx : Nat := 0
  let s := s.updCtx c (fun x => { x with selEngine := BitVec.ofNat 32 (sel * 16 + idx) })
  let q : Nat := 0
  let v := if q == 0 then v else 0xFFFFFFFF
  (c, off, v, s)
def wWindowWrites4 : CtxId × BitVec 21 × DWord × State :=
  let c : CtxId := 0
  let off : BitVec 21 := 0
  let v : DWord := 0
  let s : State := State.reset
  let s := own { s with regs := [], tbl := [] }
  let s := { s with units := s.units.map (fun (u : UnitSt) => { u with st := .halted, cut := none }) }
  let s := { s with engs := s.engs.map (fun (x : Eng) => { x with old := false, param := [], scratch := [(3, 9)] }) }
  let s := { s with jrnl := { s.jrnl with mem := [] } }
  let off0 := 0x170000 + 4 * 0
  let off : BitVec 21 := BitVec.ofNat 21 off0
  let sel : Nat := 0
  let idx : Nat := 0
  let s := s.updCtx c (fun x => { x with selEngine := BitVec.ofNat 32 (sel * 16 + idx) })
  (c, off, v, s)
def wWindowWrites5 : CtxId × BitVec 21 × DWord × State :=
  let c : CtxId := 0
  let off : BitVec 21 := 0
  let v : DWord := 0
  let s : State := State.reset
  let s := own { s with regs := [], tbl := [] }
  let s := { s with units := s.units.map (fun (u : UnitSt) => { u with st := .halted, cut := none }) }
  let s := { s with engs := s.engs.map (fun (x : Eng) => { x with old := false, param := [], scratch := [(3, 9)] }) }
  let s := { s with jrnl := { s.jrnl with mem := [] } }
  let off0 := 0x100000 + 8 * 0
  let off : BitVec 21 := BitVec.ofNat 21 off0
  let sel : Nat := 0
  let idx : Nat := 0
  let s := s.updCtx c (fun x => { x with selEngine := BitVec.ofNat 32 (sel * 16 + idx) })
  (c, off, v, s)
def wWindowWrites6 : CtxId × BitVec 21 × Nat × DWord × State :=
  let c : CtxId := 0
  let off : BitVec 21 := 0
  let size : Nat := 0
  let v : DWord := 0
  let s : State := State.reset
  let s := own { s with regs := [], tbl := [] }
  let s := { s with units := s.units.map (fun (u : UnitSt) => { u with st := .halted, cut := none }) }
  let s := { s with engs := s.engs.map (fun (x : Eng) => { x with old := false, param := [], scratch := [(3, 9)] }) }
  let s := { s with jrnl := { s.jrnl with mem := [] } }
  let off0 := 0
  let off : BitVec 21 := BitVec.ofNat 21 off0
  let sel : Nat := 0
  let idx : Nat := 0
  let s := s.updCtx c (fun x => { x with selEngine := BitVec.ofNat 32 (sel * 16 + idx) })
  let size : Nat := 0
  (c, off, size, v, s)
def wWindowWrites7 : CtxId × BitVec 22 × DWord × State × PortId × Nat × Nat :=
  let c : CtxId := 7
  let off : BitVec 22 := 37
  let v : DWord := 41
  let s : State := State.reset
  let p : PortId := 3
  let b : Nat := 31
  let w : Nat := 6
  let s := own { s with regs := [], tbl := [] }
  let s := { s with units := s.units.map (fun (u : UnitSt) => { u with st := .halted, cut := none }) }
  let s := { s with engs := s.engs.map (fun (x : Eng) => { x with old := false, param := [], scratch := [(3, 9)] }) }
  let s := { s with jrnl := { s.jrnl with mem := [] } }
  let pp : Nat := 0
  let bb : Nat := 1
  let ii : Nat := 9
  let off0 := 4 * 46900
  let off : BitVec 22 := BitVec.ofNat 22 off0
  let s := s.updCtx c (fun x => { x with selTable := BitVec.ofNat 32 (0 + 4096 * bb + 256 * pp) })
  let s := s.setReg pp Off.PIP_TBLSEL (1774 % 4)
  let s := s.setReg pp Off.PIP_BANK_STAT 4776
  let s := { s with ports := s.ports.map (fun (x : PortSt) => { x with pipe := { x.pipe with compute := none } }) }
  match (s.ctxs[c]).winLoc (0x400000 + off.toNat) with
  | some (.shade p b w) =>
    (c, off, v, s, p, b, w)
  | _ => (0, 0, 0, State.reset, 0, 0, 0)
def wWindowWrites8 : CtxId × BitVec 22 × DWord × State × PortId × Nat × Nat :=
  let c : CtxId := 3
  let off : BitVec 22 := 55
  let v : DWord := 61
  let s : State := State.reset
  let p : PortId := 3
  let b : Nat := 2
  let w : Nat := 28
  let s := own { s with regs := [], tbl := [] }
  let s := { s with units := s.units.map (fun (u : UnitSt) => { u with st := .halted, cut := none }) }
  let s := { s with engs := s.engs.map (fun (x : Eng) => { x with old := false, param := [], scratch := [(3, 9)] }) }
  let s := { s with jrnl := { s.jrnl with mem := [] } }
  let pp : Nat := 0
  let bb : Nat := 0
  let ii : Nat := 5
  let off0 := 4 * 1511
  let off : BitVec 22 := BitVec.ofNat 22 off0
  let s := s.updCtx c (fun x => { x with selTable := BitVec.ofNat 32 (1 + 4096 * bb + 256 * pp) })
  let s := s.setReg pp Off.PIP_TBLSEL (1462 % 4)
  let s := s.setReg pp Off.PIP_BANK_STAT 4953
  let s := { s with ports := s.ports.map (fun (x : PortSt) => { x with pipe := { x.pipe with compute := none } }) }
  match (s.ctxs[c]).winLoc (0x400000 + off.toNat) with
  | some (.defect p b w) =>
    (c, off, v, s, p, b, w)
  | _ => (0, 0, 0, State.reset, 0, 0, 0)
def wWindowWrites9 : CtxId × BitVec 22 × DWord × State × PortId × Nat × Nat :=
  let c : CtxId := 0
  let off : BitVec 22 := 0
  let v : DWord := 0
  let s : State := State.reset
  let p : PortId := 0
  let i : Nat := 0
  let w : Nat := 0
  let s := own { s with regs := [], tbl := [] }
  let s := { s with units := s.units.map (fun (u : UnitSt) => { u with st := .halted, cut := none }) }
  let s := { s with engs := s.engs.map (fun (x : Eng) => { x with old := false, param := [], scratch := [(3, 9)] }) }
  let s := { s with jrnl := { s.jrnl with mem := [] } }
  let pp : Nat := 0
  let bb : Nat := 0
  let ii : Nat := 0
  let off0 := 4 * 0
  let off : BitVec 22 := BitVec.ofNat 22 off0
  let s := s.updCtx c (fun x => { x with selTable := BitVec.ofNat 32 (4 + 65536 * ii + 256 * pp) })
  match (s.ctxs[c]).winLoc (0x400000 + off.toNat) with
  | some (.lut p i w) =>
    (c, off, v, s, p, i, w)
  | _ => (0, 0, 0, State.reset, 0, 0, 0)
def wWindowWrites10 : CtxId × BitVec 22 × DWord × State × Nat × Nat :=
  let c : CtxId := 0
  let off : BitVec 22 := 0
  let v : DWord := 0
  let s : State := State.reset
  let i : Nat := 0
  let w : Nat := 0
  let s := own { s with regs := [], tbl := [] }
  let s := { s with units := s.units.map (fun (u : UnitSt) => { u with st := .halted, cut := none }) }
  let s := { s with engs := s.engs.map (fun (x : Eng) => { x with old := false, param := [], scratch := [(3, 9)] }) }
  let s := { s with jrnl := { s.jrnl with mem := [] } }
  let pp : Nat := 0
  let bb : Nat := 0
  let ii : Nat := 0
  let off0 := 4 * 0
  let off : BitVec 22 := BitVec.ofNat 22 off0
  let s := s.updCtx c (fun x => { x with selTable := BitVec.ofNat 32 (3 + 65536 * ii + 256 * pp) })
  match (s.ctxs[c]).winLoc (0x400000 + off.toNat) with
  | some (.index i w) =>
    (c, off, v, s, i, w)
  | _ => (0, 0, 0, State.reset, 0, 0)
def wWindowWrites11 : CtxId × BitVec 22 × DWord × State × AxisId × Nat :=
  let c : CtxId := 0
  let off : BitVec 22 := 0
  let v : DWord := 0
  let s : State := State.reset
  let a : AxisId := 0
  let w : Nat := 0
  let s := own { s with regs := [], tbl := [] }
  let s := { s with units := s.units.map (fun (u : UnitSt) => { u with st := .halted, cut := none }) }
  let s := { s with engs := s.engs.map (fun (x : Eng) => { x with old := false, param := [], scratch := [(3, 9)] }) }
  let s := { s with jrnl := { s.jrnl with mem := [] } }
  let pp : Nat := 0
  let bb : Nat := 0
  let ii : Nat := 0
  let off0 := 4 * 0
  let off : BitVec 22 := BitVec.ofNat 22 off0
  let s := s.updCtx c (fun x => { x with selTable := BitVec.ofNat 32 (2 + 256 * pp) })
  let s := { s with mstepNext := [], axes := s.axes.map (fun (x : AxisSt) => { x with tblPend := false }) }
  match (s.ctxs[c]).winLoc (0x400000 + off.toNat) with
  | some (.mstepNext a w) =>
    (c, off, v, s, a, w)
  | _ => (0, 0, 0, State.reset, 0, 0)
def wWindowWrites12 : CtxId × BitVec 22 × DWord × State × MemLoc :=
  let c : CtxId := 0
  let off : BitVec 22 := 0
  let v : DWord := 0
  let s : State := State.reset
  let l : MemLoc := (.store 0)
  let s := own { s with regs := [], tbl := [] }
  let s := { s with units := s.units.map (fun (u : UnitSt) => { u with st := .halted, cut := none }) }
  let s := { s with engs := s.engs.map (fun (x : Eng) => { x with old := false, param := [], scratch := [(3, 9)] }) }
  let s := { s with jrnl := { s.jrnl with mem := [] } }
  let pp : Nat := 0
  let bb : Nat := 0
  let ii : Nat := 0
  let off0 := 4 * 0
  let off : BitVec 22 := BitVec.ofNat 22 off0
  let s := s.updCtx c (fun x => { x with selTable := BitVec.ofNat 32 (bb * 2 + 0 * ii + 256 * pp) })
  let s := { s with axes := s.axes.map (fun (x : AxisSt) => { x with tblPend := true }) }
  match (s.ctxs[c]).winLoc (0x400000 + off.toNat) with
  | some l =>
    (c, off, v, s, l)
  | _ => (0, 0, 0, State.reset, (.store 0))
def wWindowWrites13 : CtxId × BitVec 22 × DWord × State :=
  let c : CtxId := 0
  let off : BitVec 22 := 0
  let v : DWord := 0
  let s : State := State.reset
  let s := own { s with regs := [], tbl := [] }
  let s := { s with units := s.units.map (fun (u : UnitSt) => { u with st := .halted, cut := none }) }
  let s := { s with engs := s.engs.map (fun (x : Eng) => { x with old := false, param := [], scratch := [(3, 9)] }) }
  let s := { s with jrnl := { s.jrnl with mem := [] } }
  let pp : Nat := 0
  let bb : Nat := 0
  let ii : Nat := 0
  let off0 := 0x40000 + 4 * 0
  let off : BitVec 22 := BitVec.ofNat 22 off0
  let s := s.updCtx c (fun x => { x with selTable := BitVec.ofNat 32 (bb * 2 + 0 * ii + 256 * pp) })
  (c, off, v, s)
def wWindowWrites14 : CtxId × BitVec 22 × DWord × State :=
  let c : CtxId := 1
  let off : BitVec 22 := 63
  let v : DWord := 7
  let s : State := State.reset
  let s := own { s with regs := [], tbl := [] }
  let s := { s with units := s.units.map (fun (u : UnitSt) => { u with st := .halted, cut := none }) }
  let s := { s with engs := s.engs.map (fun (x : Eng) => { x with old := false, param := [], scratch := [(3, 9)] }) }
  let s := { s with jrnl := { s.jrnl with mem := [] } }
  let pp : Nat := 4
  let bb : Nat := 1
  let ii : Nat := 16
  let off0 := 8 * 32
  let off : BitVec 22 := BitVec.ofNat 22 off0
  let s := s.updCtx c (fun x => { x with selTable := BitVec.ofNat 32 (([0,1,3][ii % 3]?.getD 0) + 4096 * bb + 65536 * ii + 256 * pp) })
  (c, off, v, s)
def wWindowWrites15 : CtxId × BitVec 22 × Nat × DWord × State :=
  let c : CtxId := 0
  let off : BitVec 22 := 0
  let size : Nat := 0
  let v : DWord := 0
  let s : State := State.reset
  let s := own { s with regs := [], tbl := [] }
  let s := { s with units := s.units.map (fun (u : UnitSt) => { u with st := .halted, cut := none }) }
  let s := { s with engs := s.engs.map (fun (x : Eng) => { x with old := false, param := [], scratch := [(3, 9)] }) }
  let s := { s with jrnl := { s.jrnl with mem := [] } }
  let pp : Nat := 0
  let bb : Nat := 0
  let ii : Nat := 0
  let off0 := 0
  let off : BitVec 22 := BitVec.ofNat 22 off0
  let s := s.updCtx c (fun x => { x with selTable := BitVec.ofNat 32 (ii % 5 + 256 * pp) })
  let size : Nat := 0
  (c, off, size, v, s)
def wWindowWrites16 : CtxId × Word × State × PortId :=
  let c : CtxId := 0
  let v : Word := 0
  let s : State := State.reset
  let p : PortId := 0
  let s := own s
  let s := s.updCtx c (fun x => { x with selPort := BitVec.ofNat 32 p.val })
  let s := s.updPort p (fun x => { x with pipe := { x.pipe with inject := (v.getLsbD 0) } })
  (c, v, s, p)
/-- The conditions of each clause of `Obligations.WindowWrites` are met. -/
theorem test_meets_WindowWrites :
    (∃ (c : CtxId) (off : BitVec 21) (v : DWord) (s : State) (e : EngId) (k : Nat) (w : Nat), (s.Serves c (0x200000 + off.toNat) true) ∧ (off.toNat % 4 = 0) ∧ ((s.ctxs[c]).winLoc (0x200000 + off.toNat) = some (.param e k w)) ∧ (s.counts (engUnit e) k = false) ∧ (s.MemOk)) ∧
    (∃ (c : CtxId) (off : BitVec 21) (v : DWord) (s : State) (e : EngId) (w : Nat), (s.Serves c (0x200000 + off.toNat) true) ∧ (off.toNat % 4 = 0) ∧ ((s.ctxs[c]).winLoc (0x200000 + off.toNat) = some (.scratch e w)) ∧ ((s.unit (engUnit e)).st ≠ .running) ∧ ((s.unit (engUnit e)).st ≠ .draining) ∧ (s.MemOk)) ∧
    (∃ (c : CtxId) (off : BitVec 21) (v : DWord) (s : State) (l : MemLoc), (s.MemOk) ∧ (s.Serves c (0x200000 + off.toNat) true) ∧ (off.toNat % 4 = 0) ∧ ((s.ctxs[c]).winLoc (0x200000 + off.toNat) = some l) ∧ (s.memBlocked l = true)) ∧
    (∃ (c : CtxId) (off : BitVec 21) (v : DWord) (s : State), (s.Serves c (0x200000 + off.toNat) true) ∧ (off.toNat % 4 = 0) ∧ (0x1F0000 ≤ off.toNat)) ∧
    (∃ (c : CtxId) (off : BitVec 21) (v : DWord) (s : State), (s.Serves c (0x200000 + off.toNat) true) ∧ (off.toNat % 4 = 0) ∧ ((s.ctxs[c]).winLoc (0x200000 + off.toNat) = none) ∧ (off.toNat < 0x1F0000)) ∧
    (∃ (c : CtxId) (off : BitVec 21) (v : DWord) (s : State), (s.Serves c (0x200000 + off.toNat) true) ∧ (off.toNat % 8 = 0) ∧ (s.winShut c (0x200000 + off.toNat) = false) ∧ (s.winShut c (0x200000 + off.toNat + 4) = false)) ∧
    (∃ (c : CtxId) (off : BitVec 21) (size : Nat) (v : DWord) (s : State), (s.MemOk) ∧ (s.refSel ≠ 3) ∧ (sizeOk (0x200000 + off.toNat) size = false)) ∧
    (∃ (c : CtxId) (off : BitVec 22) (v : DWord) (s : State) (p : PortId) (b : Nat) (w : Nat), (s.Serves c (0x400000 + off.toNat) true) ∧ (off.toNat % 4 = 0) ∧ (s.MemOk) ∧ ((s.ctxs[c]).winLoc (0x400000 + off.toNat) = some (.shade p b w)) ∧ (s.bankActive p 0 b = false) ∧ (s.computing p 0 b = false)) ∧
    (∃ (c : CtxId) (off : BitVec 22) (v : DWord) (s : State) (p : PortId) (b : Nat) (w : Nat), (s.Serves c (0x400000 + off.toNat) true) ∧ (off.toNat % 4 = 0) ∧ (s.MemOk) ∧ ((s.ctxs[c]).winLoc (0x400000 + off.toNat) = some (.defect p b w)) ∧ (s.bankActive p 1 b = false) ∧ (s.computing p 1 b = false)) ∧
    (∃ (c : CtxId) (off : BitVec 22) (v : DWord) (s : State) (p : PortId) (i : Nat) (w : Nat), (s.Serves c (0x400000 + off.toNat) true) ∧ (off.toNat % 4 = 0) ∧ (s.MemOk) ∧ ((s.ctxs[c]).winLoc (0x400000 + off.toNat) = some (.lut p i w)) ∧ (s.counts (unitOfPort p) (i / 4) = false)) ∧
    (∃ (c : CtxId) (off : BitVec 22) (v : DWord) (s : State) (i : Nat) (w : Nat), (s.Serves c (0x400000 + off.toNat) true) ∧ (off.toNat % 4 = 0) ∧ (s.MemOk) ∧ ((s.ctxs[c]).winLoc (0x400000 + off.toNat) = some (.index i w)) ∧ (s.tableUsed i = false)) ∧
    (∃ (c : CtxId) (off : BitVec 22) (v : DWord) (s : State) (a : AxisId) (w : Nat), (s.Serves c (0x400000 + off.toNat) true) ∧ (off.toNat % 4 = 0) ∧ (s.MemOk) ∧ ((s.ctxs[c]).winLoc (0x400000 + off.toNat) = some (.mstepNext a w)) ∧ ((s.axis a).tblPend = false)) ∧
    (∃ (c : CtxId) (off : BitVec 22) (v : DWord) (s : State) (l : MemLoc), (s.MemOk) ∧ (s.Serves c (0x400000 + off.toNat) true) ∧ (off.toNat % 4 = 0) ∧ ((s.ctxs[c]).winLoc (0x400000 + off.toNat) = some l) ∧ (s.memBlocked l = true)) ∧
    (∃ (c : CtxId) (off : BitVec 22) (v : DWord) (s : State), (s.Serves c (0x400000 + off.toNat) true) ∧ (off.toNat % 4 = 0) ∧ ((s.ctxs[c]).winLoc (0x400000 + off.toNat) = none)) ∧
    (∃ (c : CtxId) (off : BitVec 22) (v : DWord) (s : State), (s.Serves c (0x400000 + off.toNat) true) ∧ (off.toNat % 8 = 0) ∧ (s.winShut c (0x400000 + off.toNat) = false) ∧ (s.winShut c (0x400000 + off.toNat + 4) = false)) ∧
    (∃ (c : CtxId) (off : BitVec 22) (size : Nat) (v : DWord) (s : State), (s.MemOk) ∧ (s.refSel ≠ 3) ∧ (sizeOk (0x400000 + off.toNat) size = false)) ∧
    (∃ (c : CtxId) (v : Word) (s : State) (p : PortId), (s.Serves c Off.CMP_CTL true) ∧ ((s.ctxs[c]).selPort.toNat = p.val)) :=
  ⟨⟨wWindowWrites0.1, wWindowWrites0.2.1, wWindowWrites0.2.2.1, wWindowWrites0.2.2.2.1, wWindowWrites0.2.2.2.2.1, wWindowWrites0.2.2.2.2.2.1, wWindowWrites0.2.2.2.2.2.2, (by unfold State.Serves; decide +kernel), (by decide +kernel), (by decide +kernel), (by decide +kernel), memOk_of _ (by decide +kernel)⟩,
   ⟨wWindowWrites1.1, wWindowWrites1.2.1, wWindowWrites1.2.2.1, wWindowWrites1.2.2.2.1, wWindowWrites1.2.2.2.2.1, wWindowWrites1.2.2.2.2.2, (by unfold State.Serves; decide +kernel), (by decide +kernel), (by decide +kernel), (by decide +kernel), (by decide +kernel), memOk_of _ (by decide +kernel)⟩,
   ⟨wWindowWrites2.1, wWindowWrites2.2.1, wWindowWrites2.2.2.1, wWindowWrites2.2.2.2.1, wWindowWrites2.2.2.2.2, memOk_of _ (by decide +kernel), (by unfold State.Serves; decide +kernel), (by decide +kernel), (by decide +kernel), (by decide +kernel)⟩,
   ⟨wWindowWrites3.1, wWindowWrites3.2.1, wWindowWrites3.2.2.1, wWindowWrites3.2.2.2, by unfold State.Serves; decide +kernel⟩,
   ⟨wWindowWrites4.1, wWindowWrites4.2.1, wWindowWrites4.2.2.1, wWindowWrites4.2.2.2, by unfold State.Serves; decide +kernel⟩,
   ⟨wWindowWrites5.1, wWindowWrites5.2.1, wWindowWrites5.2.2.1, wWindowWrites5.2.2.2, by unfold State.Serves; decide +kernel⟩,
   ⟨wWindowWrites6.1, wWindowWrites6.2.1, wWindowWrites6.2.2.1, wWindowWrites6.2.2.2.1, wWindowWrites6.2.2.2.2, memOk_of _ (by decide +kernel), (by decide +kernel), (by decide +kernel)⟩,
   ⟨wWindowWrites7.1, wWindowWrites7.2.1, wWindowWrites7.2.2.1, wWindowWrites7.2.2.2.1, wWindowWrites7.2.2.2.2.1, wWindowWrites7.2.2.2.2.2.1, wWindowWrites7.2.2.2.2.2.2, (by unfold State.Serves; decide +kernel), (by decide +kernel), memOk_of _ (by decide +kernel), (by decide +kernel), (by decide +kernel), (by decide +kernel)⟩,
   ⟨wWindowWrites8.1, wWindowWrites8.2.1, wWindowWrites8.2.2.1, wWindowWrites8.2.2.2.1, wWindowWrites8.2.2.2.2.1, wWindowWrites8.2.2.2.2.2.1, wWindowWrites8.2.2.2.2.2.2, (by unfold State.Serves; decide +kernel), (by decide +kernel), memOk_of _ (by decide +kernel), (by decide +kernel), (by decide +kernel), (by decide +kernel)⟩,
   ⟨wWindowWrites9.1, wWindowWrites9.2.1, wWindowWrites9.2.2.1, wWindowWrites9.2.2.2.1, wWindowWrites9.2.2.2.2.1, wWindowWrites9.2.2.2.2.2.1, wWindowWrites9.2.2.2.2.2.2, (by unfold State.Serves; decide +kernel), (by decide +kernel), memOk_of _ (by decide +kernel), (by decide +kernel), (by decide +kernel)⟩,
   ⟨wWindowWrites10.1, wWindowWrites10.2.1, wWindowWrites10.2.2.1, wWindowWrites10.2.2.2.1, wWindowWrites10.2.2.2.2.1, wWindowWrites10.2.2.2.2.2, (by unfold State.Serves; decide +kernel), (by decide +kernel), memOk_of _ (by decide +kernel), (by decide +kernel), (by decide +kernel)⟩,
   ⟨wWindowWrites11.1, wWindowWrites11.2.1, wWindowWrites11.2.2.1, wWindowWrites11.2.2.2.1, wWindowWrites11.2.2.2.2.1, wWindowWrites11.2.2.2.2.2, (by unfold State.Serves; decide +kernel), (by decide +kernel), memOk_of _ (by decide +kernel), (by decide +kernel), (by decide +kernel)⟩,
   ⟨wWindowWrites12.1, wWindowWrites12.2.1, wWindowWrites12.2.2.1, wWindowWrites12.2.2.2.1, wWindowWrites12.2.2.2.2, memOk_of _ (by decide +kernel), (by unfold State.Serves; decide +kernel), (by decide +kernel), (by decide +kernel), (by decide +kernel)⟩,
   ⟨wWindowWrites13.1, wWindowWrites13.2.1, wWindowWrites13.2.2.1, wWindowWrites13.2.2.2, by unfold State.Serves; decide +kernel⟩,
   ⟨wWindowWrites14.1, wWindowWrites14.2.1, wWindowWrites14.2.2.1, wWindowWrites14.2.2.2, by unfold State.Serves; decide +kernel⟩,
   ⟨wWindowWrites15.1, wWindowWrites15.2.1, wWindowWrites15.2.2.1, wWindowWrites15.2.2.2.1, wWindowWrites15.2.2.2.2, memOk_of _ (by decide +kernel), (by decide +kernel), (by decide +kernel)⟩,
   ⟨wWindowWrites16.1, wWindowWrites16.2.1, wWindowWrites16.2.2.1, wWindowWrites16.2.2.2, by unfold State.Serves; decide +kernel⟩⟩
def wContextCommands0 : CtxId × Submission × State :=
  let c : CtxId := 0
  let y : Submission := dSubmission
  let s : State := State.reset
  let s := served (own (tame s)) c
  let y := sub 0 (0) (0) [3, 0x342030, 0] y
  let s := s.updCtx c (fun x => { x with zhp := 0x32 })
  let y := { y with other := some 0x55 }
  (c, y, s)
def wContextCommands1 : CtxId × Submission × State :=
  let c : CtxId := 0
  let y : Submission := dSubmission
  let s : State := State.reset
  let s := served (own (tame s)) c
  let y := sub 0 (0) (0) [3, 0x342030, 0] y
  let s := s.updCtx c (fun x => { x with zhp := 0 })
  let s := agree s
  (c, y, s)
def wContextCommands2 : CtxId × Submission × State :=
  let c : CtxId := 0
  let y : Submission := dSubmission
  let s : State := State.reset
  let s := served (own (tame s)) c
  let y := sub 0 (0) (0) [] y
  let y := { y with len := 256 }
  let s := agree s
  (c, y, s)
def wContextCommands3 : Submission × State × CtxId :=
  let y : Submission := dSubmission
  let s : State := State.reset
  let u : CtxId := 1
  let c : CtxId := 0
  let s := served (own (tame s)) c
  let y := sub 7 (u.val) (0) [13503, 12103, 31463, 1148] y
  let s := agree s
  (y, s, u)
def wContextCommands4 : CtxId × Submission × State × CtxId :=
  let c : CtxId := 0
  let y : Submission := dSubmission
  let s : State := State.reset
  let u : CtxId := 0
  let s := served (own (tame s)) c
  let y := sub 7 (u.val) (0) [] y
  let s := agree s
  (c, y, s, u)
/-- The conditions of each clause of `Obligations.ContextCommands` are met. -/
theorem test_meets_ContextCommands :
    (∃ (c : CtxId) (y : Submission) (s : State), (s.served c = true) ∧ (y.other.isSome = true) ∧ ((s.ctxs[c]).zhp ≠ 0)) ∧
    (∃ (c : CtxId) (y : Submission) (s : State), (s.Accepts c { op := 0x00, since := 0x20, kinds := [0], slotted := false, args := [0, 1, 2] } y) ∧ ((s.ctxs[c]).zhp = 0) ∧ (y.arg 0 ≠ 0 ∧ y.arg 0 ≤ 8) ∧ (helloPick y ≠ 0)) ∧
    (∃ (c : CtxId) (y : Submission) (s : State), (s.Accepts c { op := 0x01, since := 0x20, kinds := [0], slotted := false, args := [] } y) ∧ (256 ≤ y.len.toNat)) ∧
    (∃ (y : Submission) (s : State) (u : CtxId), (s.Accepts 0 { op := 0x02, since := 0x20, kinds := [7], slotted := false, args := [0, 1, 2, 3] } y) ∧ (0x30 ≤ (s.ctxs[(0 : CtxId)]).zhp) ∧ (y.unit = u.val) ∧ (u ≠ 0) ∧ (y.arg 0 < 2 ^ 14) ∧ (y.arg 1 < 2 ^ 14) ∧ (y.arg 3 < 2 ^ 16)) ∧
    (∃ (c : CtxId) (y : Submission) (s : State) (u : CtxId), (s.Accepts c { op := 0x03, since := 0x20, kinds := [7], slotted := false, args := [] } y) ∧ (y.unit = u.val) ∧ (y.unit = c.val ∨ (s.ctxs[c]).blk 0 false = true)) :=
  ⟨⟨wContextCommands0.1, wContextCommands0.2.1, wContextCommands0.2.2, by decide +kernel⟩,
   ⟨wContextCommands1.1, wContextCommands1.2.1, wContextCommands1.2.2, by unfold State.Accepts State.Agrees; decide +kernel⟩,
   ⟨wContextCommands2.1, wContextCommands2.2.1, wContextCommands2.2.2, by unfold State.Accepts State.Agrees; decide +kernel⟩,
   ⟨wContextCommands3.1, wContextCommands3.2.1, wContextCommands3.2.2, by unfold State.Accepts State.Agrees; decide +kernel⟩,
   ⟨wContextCommands4.1, wContextCommands4.2.1, wContextCommands4.2.2.1, wContextCommands4.2.2.2, by unfold State.Accepts State.Agrees; decide +kernel⟩⟩
def wSetupSlotCommands0 : CtxId × Submission × List Byte × State × UnitId × (Nat → Option Nat) :=
  let c : CtxId := 0
  let y : Submission := dSubmission
  let data : List Byte := []
  let s : State := State.reset
  let u : UnitId := 0
  let place : Nat → Option Nat := fun _ => none
  let ax : Nat := 0
  let u8 : Nat := 0
  let u : UnitId := if ax == 0 then ⟨16 + u8 % 8, by omega⟩ else ⟨u8 % 16, by omega⟩
  let data := if ax == 0 then zso else zsoP
  let k12 : Nat := 0
  let un := u.val
  let s := served (own (tame s)) c
  let y := sub (if un < 16 then 1 else 2) (if un < 16 then un else un - 16) (0) [] y
  let y := { y with len := BitVec.ofNat 32 data.length }
  let s := s.updUnit u (fun x => { x with slots := Vector.replicate 8 Slot.empty, current := none, st := (if k12 == 0 then .off else .halted) })
  let s := agree s
  let place : Nat → Option Nat := fun n => ((unitEngs u).find? (fun x => engKind x == n)).bind (fun x => s.placement u x y.slot (zsoSects data) data)
  (c, y, data, s, u, place)
def wSetupSlotCommands1 : CtxId × Submission × State × UnitId :=
  let c : CtxId := 0
  let y : Submission := dSubmission
  let s : State := State.reset
  let u : UnitId := 0
  let k12 : Nat := 0
  let un := u.val
  let s := served (own (tame s)) c
  let y := sub (if un < 16 then 1 else 2) (if un < 16 then un else un - 16) (0) [] y
  let s := s.updUnit u (fun x => { x with slots := Vector.replicate 8 { Slot.empty with isLoaded := true } })
  let s := agree s
  (c, y, s, u)
def wSetupSlotCommands2 : CtxId × Submission × State × UnitId :=
  let c : CtxId := 0
  let y : Submission := dSubmission
  let s : State := State.reset
  let u : UnitId := 0
  let k12 : Nat := 0
  let un := u.val
  let s := served (own (tame s)) c
  let y := sub (if un < 16 then 1 else 2) (if un < 16 then un else un - 16) (0) [] y
  let s := s.updUnit u (fun x => { x with current := none, st := .loaded, slots := (Vector.replicate 8 (if k12 == 0 then Slot.empty else { Slot.empty with isLoaded := true })).set (y.slot % 8) { Slot.empty with isLoaded := true } (by omega) })
  let s := agree s
  (c, y, s, u)
/-- The conditions of each clause of `Obligations.SetupSlotCommands` are met. -/
theorem test_meets_SetupSlotCommands :
    (∃ (c : CtxId) (y : Submission) (data : List Byte) (s : State) (u : UnitId) (place : Nat → Option Nat), (s.Accepts c { op := 0x08, since := 0x20, kinds := [1, 2], slotted := true, args := [] } y) ∧ (u = subUnit y) ∧ ((∀ n, place n = ((unitEngs u).find? (fun x => engKind x == n)).bind (fun x => s.placement u x y.slot (zsoSects data) data))) ∧ (unitRight s.ctxs[c] y = true) ∧ (s.counts u y.slot = false) ∧ (s.MemOk) ∧ ((s.unit u).st = .off → (s.unit u).cut = none) ∧ ((kindEngs y.kind).all (fun e => (place e).isSome) = true) ∧ (firstFail (zsoChecks data y.kind y.len.toNat (fun e => (place e).getD (prefBase (zsoSects data) e)) (cutOffsets (decide (y.kind = 1))).contains) = 0)) ∧
    (∃ (c : CtxId) (y : Submission) (s : State) (u : UnitId), (s.Accepts c { op := 0x09, since := 0x20, kinds := [1, 2], slotted := true, args := [] } y) ∧ (u = subUnit y) ∧ (unitRight s.ctxs[c] y = true) ∧ ((s.slotOf u y.slot).isLoaded = true)) ∧
    (∃ (c : CtxId) (y : Submission) (s : State) (u : UnitId), (s.Accepts c { op := 0x0A, since := 0x20, kinds := [1, 2], slotted := true, args := [] } y) ∧ (u = subUnit y) ∧ (unitRight s.ctxs[c] y = true) ∧ (s.counts u y.slot = false) ∧ ((s.slotOf u y.slot).isLoaded = true) ∧ (s.MemOk) ∧ ((s.unit u).st = .loaded ∨ (s.unit u).st = .halted → (s.unit u).cut = none)) :=
  ⟨⟨wSetupSlotCommands0.1, wSetupSlotCommands0.2.1, wSetupSlotCommands0.2.2.1, wSetupSlotCommands0.2.2.2.1, wSetupSlotCommands0.2.2.2.2.1, wSetupSlotCommands0.2.2.2.2.2, (by unfold State.Accepts State.Agrees; decide +kernel), (by decide +kernel), fun _ => rfl, (by decide +kernel), (by decide +kernel), memOk_of _ (by decide +kernel), (by decide +kernel), (by decide +kernel), (by decide +kernel)⟩,
   ⟨wSetupSlotCommands1.1, wSetupSlotCommands1.2.1, wSetupSlotCommands1.2.2.1, wSetupSlotCommands1.2.2.2, by unfold State.Accepts State.Agrees; decide +kernel⟩,
   ⟨wSetupSlotCommands2.1, wSetupSlotCommands2.2.1, wSetupSlotCommands2.2.2.1, wSetupSlotCommands2.2.2.2, (by unfold State.Accepts State.Agrees; decide +kernel), (by decide +kernel), (by decide +kernel), (by decide +kernel), (by decide +kernel), memOk_of _ (by decide +kernel), (by decide +kernel)⟩⟩
def wCommitAndStart0 : CtxId × Submission × State × UnitId :=
  let c : CtxId := 0
  let y : Submission := dSubmission
  let s : State := State.reset
  let u : UnitId := 0
  let k12 : Nat := 0
  let un := u.val
  let s := served (own (tame s)) c
  let y := sub (if un < 16 then 1 else 2) (if un < 16 then un else un - 16) (0) [] y
  let g : Nat := 0
  let r : RegCell := dRegCell
  let s := s.updUnit u (fun x => { x with group := none, st := (if g == 0 then .halted else .loaded) })
  let s := s.setCell u.val Off.PRT_GEAR_NUM { r with val := 3, stg := (if g == 0 then 0 else 0xFFFFFFFF), cmt := 0 }
  let s := s.updPort (unitPort u) (fun x => { x with ltg := { x.ltg with num := 5, den := 7 } })
  let r : RegCell := dRegCell
  let s := s.setCell u.val Off.PRT_RANGE_A r
  let s := { s with link := { s.link with width := 16, rate := 7 }, tks := { s.tks with ports := s.tks.ports.map (fun (x : TksPort) => { x with rewind := none }) } }
  let s := (s.updCtx c (fun x => { x with rightsBlk := 0x0FFFFFFF, rightsPort := 0xFFFFFFFF, rightsAxis := 0xFFFF }))
  let s := agree s
  (c, y, s, u)
def wCommitAndStart1 : CtxId × Submission × State × UnitId × Nat :=
  let c : CtxId := 0
  let y : Submission := dSubmission
  let s : State := State.reset
  let u : UnitId := 0
  let k : Nat := 0
  let u : UnitId := ⟨16 + 0 % 8, by omega⟩
  let k := 0
  let k12 : Nat := 0
  let un := u.val
  let s := served (own (tame s)) c
  let y := sub (if un < 16 then 1 else 2) (if un < 16 then un else un - 16) (0) [k] y
  let s := { s with tks := { s.tks with ports := s.tks.ports.map (fun (x : TksPort) => { x with rewind := none }) } }
  let s := s.updUnit u (fun x => { x with current := some 1, committed := some 2, st := (if k12 == 0 then .loaded else .halted), ran := (k12 != 0), group := none })
  let s := { s with link := { s.link with width := 16, rate := 7 }, tks := { s.tks with ports := s.tks.ports.map (fun (x : TksPort) => { x with rewind := none }) } }
  let z : Nat := 0
  let y := if z == 0 then sub 2 (un - 16) 0 [15] y else y
  let k := if z == 0 then 2 else k
  let s := agree s
  (c, y, s, u, k)
def wCommitAndStart2 : CtxId × Submission × State × UnitId × Nat :=
  let c : CtxId := 0
  let y : Submission := dSubmission
  let s : State := State.reset
  let u : UnitId := 0
  let k : Nat := 0
  let u : UnitId := ⟨0 % 16, by omega⟩
  let k := 0
  let k12 : Nat := 0
  let un := u.val
  let s := served (own (tame s)) c
  let y := sub (if un < 16 then 1 else 2) (if un < 16 then un else un - 16) (0) [k] y
  let s := { s with tks := { s.tks with ports := s.tks.ports.map (fun (x : TksPort) => { x with rewind := none }) } }
  let s := s.updUnit u (fun x => { x with current := some 1, committed := some 2, st := (if k12 == 0 then .loaded else .halted), ran := (k12 != 0), group := none })
  let s := { s with link := { s.link with width := 16, rate := 7 }, tks := { s.tks with ports := s.tks.ports.map (fun (x : TksPort) => { x with rewind := none }) } }
  let z : Nat := 0
  let s := s.updUnit u (fun x => { x with slots := x.slots.map (fun (q : Slot) => { q with settings := [(Off.PRT_LTG_CFG, BitVec.ofNat 32 ((if z == 0 then 5 else z) + 200 * 65536)), (Off.PRT_LTG_PMIN, 1000000)] }) })
  let s := s.setReg 0 (Off.CLK_PPLL_STAT + 16 * u.val) 1
  let s := agree s
  (c, y, s, u, k)
/-- The conditions of each clause of `Obligations.CommitAndStart` are met. -/
theorem test_meets_CommitAndStart :
    (∃ (c : CtxId) (y : Submission) (s : State) (u : UnitId), (s.MemOk) ∧ (s.Accepts c { op := 0x0B, since := 0x20, kinds := [1, 2], slotted := false, args := [] } y) ∧ (u = subUnit y) ∧ (unitRight s.ctxs[c] y = true) ∧ ((s.unit u).st ≠ .faulted ∧ (s.unit u).st ≠ .wedged) ∧ (u.val < 16 → ratioOk (s.commitRatio (unitPort u)).1 (s.commitRatio (unitPort u)).2 = true) ∧ (u.val < 16 → (s.unit u).st = .running → ratioDir (s.commitRatio (unitPort u)).1 (s.commitRatio (unitPort u)).2 = ratioDir (s.port (unitPort u)).ltg.num (s.port (unitPort u)).ltg.den) ∧ (u.val < 16 → bitN (s.eff (unitPort u).val Off.PRT_HEAD_REQ) 31 = false) ∧ ((s.unit u).group = none) ∧ ((s.unit u).st.live = true → s.cyclesOk u ((s.unit u).current.getD 0) (if u.val < 16 then s.pmin (unitPort u) else 0) = true) ∧ (s.bandwidthOk s.plan = true)) ∧
    (∃ (c : CtxId) (y : Submission) (s : State) (u : UnitId) (k : Nat), (s.MemOk) ∧ (s.Accepts c { op := 0x0C, since := 0x20, kinds := [1, 2], slotted := false, args := [0] } y) ∧ (u = subUnit y) ∧ (16 ≤ u.val) ∧ (unitRight s.ctxs[c] y = true) ∧ ((s.unit u).st = .loaded ∨ (s.unit u).st = .armed ∨ (s.unit u).st = .halted) ∧ (s.startSlot u (y.arg 0) = some k) ∧ ((s.slotOf u k).isVerified = true) ∧ ((s.unit u).group = none) ∧ ((s.unit u).cut = none) ∧ (s.cyclesOk u k 0 = true) ∧ (s.bandwidthOk (s.plansWith [(u, k)]) = true)) ∧
    (∃ (c : CtxId) (y : Submission) (s : State) (u : UnitId) (k : Nat), (s.MemOk) ∧ (s.Accepts c { op := 0x0C, since := 0x20, kinds := [1, 2], slotted := false, args := [0] } y) ∧ (u = subUnit y) ∧ (u.val < 16) ∧ (unitRight s.ctxs[c] y = true) ∧ ((s.unit u).st = .loaded ∨ (s.unit u).st = .armed ∨ (s.unit u).st = .halted) ∧ (s.pllLock (unitPort u) = true) ∧ (s.startSlot u (y.arg 0) = some k) ∧ (s.slotRefused u k = false) ∧ ((s.unit u).group = none) ∧ ((s.unit u).cut = none) ∧ (s.cyclesOk u k (s.fut u k Off.PRT_LTG_PMIN) = true) ∧ (s.bandwidthOk (s.plansWith [(u, k)]) = true)) :=
  ⟨⟨wCommitAndStart0.1, wCommitAndStart0.2.1, wCommitAndStart0.2.2.1, wCommitAndStart0.2.2.2, memOk_of _ (by decide +kernel), (by unfold State.Accepts State.Agrees; decide +kernel), (by decide +kernel), (by decide +kernel), (by decide +kernel), (by decide +kernel), (by decide +kernel), (by decide +kernel), (by decide +kernel), (by decide +kernel), (by decide +kernel)⟩,
   ⟨wCommitAndStart1.1, wCommitAndStart1.2.1, wCommitAndStart1.2.2.1, wCommitAndStart1.2.2.2.1, wCommitAndStart1.2.2.2.2, memOk_of _ (by decide +kernel), (by unfold State.Accepts State.Agrees; decide +kernel), (by decide +kernel), (by decide +kernel), (by decide +kernel), (by decide +kernel), (by decide +kernel), (by decide +kernel), (by decide +kernel), (by decide +kernel), (by decide +kernel), (by decide +kernel)⟩,
   ⟨wCommitAndStart2.1, wCommitAndStart2.2.1, wCommitAndStart2.2.2.1, wCommitAndStart2.2.2.2.1, wCommitAndStart2.2.2.2.2, memOk_of _ (by decide +kernel), (by unfold State.Accepts State.Agrees; decide +kernel), (by decide +kernel), (by decide +kernel), (by decide +kernel), (by decide +kernel), (by decide +kernel), (by decide +kernel), (by decide +kernel), (by decide +kernel), (by decide +kernel), (by decide +kernel), (by decide +kernel)⟩⟩
def wStopsCutGroupsAndCutArms0 : CtxId × Submission × State × UnitId :=
  let c : CtxId := 0
  let y : Submission := dSubmission
  let s : State := State.reset
  let u : UnitId := 0
  let k12 : Nat := 0
  let un := u.val
  let s := served (own (tame s)) c
  let y := sub (if un < 16 then 1 else 2) (if un < 16 then un else un - 16) (0) [1] y
  let s := s.updUnit u (fun x => { x with current := some 1, committed := some 2, st := (if k12 == 0 then .running else .draining), cut := none })
  let s := agree s
  (c, y, s, u)
def wStopsCutGroupsAndCutArms1 : CtxId × Submission × State × UnitId :=
  let c : CtxId := 0
  let y : Submission := dSubmission
  let s : State := State.reset
  let u : UnitId := 0
  let u : UnitId := ⟨16 + 0 % 8, by omega⟩
  let k12 : Nat := 0
  let un := u.val
  let s := served (own (tame s)) c
  let y := sub (if un < 16 then 1 else 2) (if un < 16 then un else un - 16) (0) [1] y
  let s := s.updUnit u (fun x => { x with current := some 1, committed := some 2, st := (if k12 == 0 then .running else .draining), cut := none })
  let hm : Nat := 0
  let s := s.updAxis (axisOfUnit u) (fun x => { x with home := if hm == 0 then none else x.home })
  let s := agree s
  (c, y, s, u)
def wStopsCutGroupsAndCutArms2 : CtxId × Submission × State × UnitId :=
  let c : CtxId := 0
  let y : Submission := dSubmission
  let s : State := State.reset
  let u : UnitId := 0
  let u : UnitId := ⟨16 + 0 % 8, by omega⟩
  let k12 : Nat := 0
  let un := u.val
  let s := served (own (tame s)) c
  let y := sub (if un < 16 then 1 else 2) (if un < 16 then un else un - 16) (0) [0] y
  let s := s.updUnit u (fun x => { x with st := (if k12 == 0 then .loaded else .wedged), cut := none })
  let s := agree s
  (c, y, s, u)
def wStopsCutGroupsAndCutArms3 : CtxId × Submission × State × UnitId :=
  let c : CtxId := 0
  let y : Submission := dSubmission
  let s : State := State.reset
  let u : UnitId := 0
  let u : UnitId := ⟨16 + 0 % 8, by omega⟩
  let k12 : Nat := 0
  let un := u.val
  let s := served (own (tame s)) c
  let y := sub (if un < 16 then 1 else 2) (if un < 16 then un else un - 16) (0) [0] y
  let s := s.updUnit u (fun x => { x with current := some 1, committed := some 2, st := .running, cut := none })
  let s := agree s
  (c, y, s, u)
def wStopsCutGroupsAndCutArms4 : CtxId × Submission × State × UnitId :=
  let c : CtxId := 0
  let y : Submission := dSubmission
  let s : State := State.reset
  let u : UnitId := 0
  let u : UnitId := ⟨0 % 16, by omega⟩
  let k12 : Nat := 0
  let un := u.val
  let s := served (own (tame s)) c
  let y := sub (if un < 16 then 1 else 2) (if un < 16 then un else un - 16) (0) [0] y
  let s := s.updUnit u (fun x => { x with current := some 1, committed := some 2, st := .running, cut := none })
  let z : Nat := 0
  let s := s.updPort (unitPort u) (fun x => { x with ltg := { x.ltg with ticked := true, drains := z } })
  let s := agree s
  (c, y, s, u)
def wStopsCutGroupsAndCutArms5 : CtxId × Submission × State × GroupId :=
  let c : CtxId := 0
  let y : Submission := dSubmission
  let s : State := State.reset
  let g : GroupId := 0
  let g : GroupId := ⟨0 % 4, by omega⟩
  let s := served (own (tame s)) c
  let y := sub 3 g.val 0 [0,0,0] y
  let s := s.updGroup g (fun x => { x with armed := none })
  let s := { s with units := s.units.mapIdx (fun i (x : UnitSt) => { x with group := if i % 5 < 4 then some (i % 5) else none }) }
  let s := if 0 == 0 then { s with groups := s.groups.map (fun (x : Group) => { x with armed := none }) } else { s with groups := s.groups.mapIdx (fun i (x : Group) => { x with armed := if i == 2 && g.val ≠ 2 then some (0,1,2) else none }), units := s.units.map (fun (x : UnitSt) => { x with group := x.group.map (fun i => i % 2) }) }
  let s := agree s
  (c, y, s, g)
def wStopsCutGroupsAndCutArms6 : CtxId × Submission × State × GroupId :=
  let c : CtxId := 0
  let y : Submission := dSubmission
  let s : State := State.reset
  let g : GroupId := 0
  let g : GroupId := ⟨0 % 4, by omega⟩
  let s := served (own s) c
  let y := sub 3 g.val 0 [] y
  let s := s.updGroup g (fun x => { x with armed := some (0,1,2), left := [] })
  let s := { s with units := s.units.mapIdx (fun i (x : UnitSt) => { x with cut := x.cut.map (fun (q : CutDue) => { q with group := i % 4 }), st := (if i % 3 == 0 then .armed else if i % 3 == 1 then .running else .loaded) })  }
  let s := { s with regs := [] }
  let s := agree s
  (c, y, s, g)
def wStopsCutGroupsAndCutArms7 : CtxId × Submission × State × GroupId :=
  let c : CtxId := 0
  let y : Submission := dSubmission
  let s : State := State.reset
  let g : GroupId := 0
  let g : GroupId := ⟨0 % 4, by omega⟩
  let s := served (own (tame s)) c
  let kd : Nat := 0
  let y := sub 3 g.val 0 [kd,1,5,0,0,0x11111111,0x22222222] y
  let y := { y with args := y.args.set 4 (y.args.getD 4 0 &&& 0x77777777) }
  let dr : Nat := 0
  let s := s.updGroup g (fun x => { x with armed := none, drive := dr == 1, driveNext := none })
  let s := { s with link := { s.link with width := 16, rate := 7 }, tks := { s.tks with ports := s.tks.ports.map (fun (x : TksPort) => { x with rewind := none }) } }
  let s := { s with units := s.units.mapIdx (fun i (x : UnitSt) => { x with group := (if i % 5 == g.val || i == 1 then some g.val else none), current := some 1, st := (if i == 1 then .running else if i % 3 == 0 then .loaded else .halted), slots := x.slots.map (fun (q : Slot) => { q with settings := [(Off.PRT_LTG_CFG, BitVec.ofNat 32 (5 + 200 * 65536)), (Off.PRT_LTG_PMIN, 1000000)] }) }) }
  let s := { s with ports := s.ports.map (fun (x : PortSt) => { x with ltg := { x.ltg with h := 3, num := 1, den := 1 }, pipe := { x.pipe with compute := none } }) }
  let s := agree s
  (c, y, s, g)
/-- The conditions of each clause of `Obligations.StopsCutGroupsAndCutArms` are met. -/
theorem test_meets_StopsCutGroupsAndCutArms :
    (∃ (c : CtxId) (y : Submission) (s : State) (u : UnitId), (s.Accepts c { op := 0x0D, since := 0x20, kinds := [1, 2], slotted := false, args := [0] } y) ∧ (u = subUnit y) ∧ (unitRight s.ctxs[c] y = true) ∧ ((s.unit u).st ≠ .off ∧ (s.unit u).st ≠ .halted) ∧ (y.arg 0 = 1) ∧ (u.val < 16)) ∧
    (∃ (c : CtxId) (y : Submission) (s : State) (u : UnitId), (s.MemOk) ∧ (s.Accepts c { op := 0x0D, since := 0x20, kinds := [1, 2], slotted := false, args := [0] } y) ∧ (u = subUnit y) ∧ (unitRight s.ctxs[c] y = true) ∧ ((s.unit u).st = .running ∨ (s.unit u).st = .draining) ∧ (y.arg 0 = 1) ∧ (16 ≤ u.val)) ∧
    (∃ (c : CtxId) (y : Submission) (s : State) (u : UnitId), (s.Accepts c { op := 0x0D, since := 0x20, kinds := [1, 2], slotted := false, args := [0] } y) ∧ (u = subUnit y) ∧ (unitRight s.ctxs[c] y = true) ∧ ((s.unit u).st ≠ .off ∧ (s.unit u).st ≠ .halted ∧ (s.unit u).st ≠ .running) ∧ (y.arg 0 = 0 ∨ (y.arg 0 = 1 ∧ (s.unit u).st ≠ .draining)) ∧ (16 ≤ u.val)) ∧
    (∃ (c : CtxId) (y : Submission) (s : State) (u : UnitId), (s.MemOk) ∧ (s.Accepts c { op := 0x0D, since := 0x20, kinds := [1, 2], slotted := false, args := [0] } y) ∧ (u = subUnit y) ∧ (unitRight s.ctxs[c] y = true) ∧ ((s.unit u).st = .running) ∧ ((s.unit u).cut = none) ∧ (y.arg 0 = 0) ∧ (16 ≤ u.val)) ∧
    (∃ (c : CtxId) (y : Submission) (s : State) (u : UnitId), (s.MemOk) ∧ (s.Accepts c { op := 0x0D, since := 0x20, kinds := [1, 2], slotted := false, args := [0] } y) ∧ (u = subUnit y) ∧ (unitRight s.ctxs[c] y = true) ∧ ((s.unit u).st = .running) ∧ ((s.unit u).cut = none) ∧ (y.arg 0 = 0) ∧ (u.val < 16)) ∧
    (∃ (c : CtxId) (y : Submission) (s : State) (g : GroupId), (s.Accepts c { op := 0x10, since := 0x20, kinds := [3], slotted := false, args := [0, 1, 2] } y) ∧ (g = subGroup y) ∧ (s.ctxs[c].units (maskUnits (y.arg 0) (y.arg 1) ++ s.members g.val) = true) ∧ (y.arg 0 < 2 ^ 16) ∧ (y.arg 1 < 2 ^ 8) ∧ (y.arg 2 < 2) ∧ (s.groups[g].armed = none) ∧ (∀ h : GroupId, s.groups[h].armed ≠ none → ∀ u ∈ maskUnits (y.arg 0) (y.arg 1), (s.unit u).group ≠ some h.val)) ∧
    (∃ (c : CtxId) (y : Submission) (s : State) (g : GroupId), (s.MemOk) ∧ (s.Accepts c { op := 0x12, since := 0x20, kinds := [3], slotted := false, args := [] } y) ∧ (g = subGroup y) ∧ (s.ctxs[c].units (s.members g.val) = true) ∧ (s.groups[g].armed ≠ none) ∧ (s.groups[g].left = []) ∧ (∀ u : UnitId, (s.unit u).cut.map (fun c => c.group) = some g.val → (s.unit u).st = .loaded ∨ (s.unit u).st = .armed ∨ (s.unit u).st = .running)) ∧
    (∃ (c : CtxId) (y : Submission) (s : State) (g : GroupId), (s.MemOk) ∧ (s.Accepts c { op := 0x11, since := 0x20, kinds := [3], slotted := false, args := [0, 1, 2, 3, 4, 5, 6] } y) ∧ (g = subGroup y) ∧ (s.ctxs[c].units (s.members g.val) = true) ∧ (y.arg 0 = 0 ∨ (0x30 ≤ s.ctxs[c].zhp ∧ y.arg 0 ≤ 2 ∧ 0 < sext48 (sgn 48 (y.arg64 2) - s.master (y.arg 0 - 1)))) ∧ (y.arg 0 = 0 → y.arg 1 < 16 ∧ uid (y.arg 1) ∈ s.members g.val ∧ (s.unit (uid (y.arg 1))).st = .running ∧ (s.port (unitPort (uid (y.arg 1)))).ltg.h < (y.arg64 2 : Int) ∧ y.arg64 2 < 2 ^ 48) ∧ (∀ u ∈ s.members g.val, (s.unit u).st = .running ∨ (s.unit u).st = .loaded ∨ (s.unit u).st = .halted ∨ (s.unit u).st = .armed) ∧ (∀ u ∈ s.members g.val, (s.armSlot y u).isSome = true ∧ s.slotRefused u ((s.armSlot y u).getD 0) = false ∧ s.cyclesOk u ((s.armSlot y u).getD 0) (s.fut u ((s.armSlot y u).getD 0) Off.PRT_LTG_PMIN) = true) ∧ (∀ u ∈ s.members g.val, u.val < 16 → s.computing (unitPort u) 0 (fld (s.fut u ((s.armSlot y u).getD 0) Off.PIP_TBLSEL) 0 0) = false ∧ s.computing (unitPort u) 1 (fld (s.fut u ((s.armSlot y u).getD 0) Off.PIP_TBLSEL) 1 1) = false) ∧ (∀ u ∈ s.members g.val, u.val < 16 → (s.unit u).st = .running → ratioDir (s.futRatio (unitPort u) ((s.armSlot y u).getD 0)).1 (s.futRatio (unitPort u) ((s.armSlot y u).getD 0)).2 = ratioDir (s.port (unitPort u)).ltg.num (s.port (unitPort u)).ltg.den ∧ (s.slotProg (pipeEng (unitPort u)) ((s.unit u).current.getD 0)).declared ≤ cyclesAvail 1 (s.fut u ((s.armSlot y u).getD 0) Off.PRT_LTG_PMIN)) ∧ (s.groups[g].driveNext.getD s.groups[g].drive = true → unitOfAxis ⟨fld (s.grpFuture g Off.MOT_GRP_PACE) 2 0 % 8, Nat.mod_lt _ (by decide)⟩ ∈ s.members g.val ∧ 4 ≤ fld (s.grpFuture g Off.MOT_GRP_PACE) 22 16 ∧ fld (s.grpFuture g Off.MOT_GRP_PACE) 22 16 ≤ 64 ∧ s.paceCheck g (s.grpFuture g) (fun w off => if (s.members g.val).contains w then s.fut w ((s.armSlot y w).getD 0) off else s.eff (unitIndex w) off) (fun p => s.futRatio p ((s.armSlot y (unitOfPort p)).getD 0)) = ([], false, true)) ∧ (s.groups[g].armed = none) ∧ (s.bandwidthOk (s.plansWith ((s.members g.val).map (fun u => (u, (s.armSlot y u).getD 0)))) = true)) :=
  ⟨⟨wStopsCutGroupsAndCutArms0.1, wStopsCutGroupsAndCutArms0.2.1, wStopsCutGroupsAndCutArms0.2.2.1, wStopsCutGroupsAndCutArms0.2.2.2, by unfold State.Accepts State.Agrees; decide +kernel⟩,
   ⟨wStopsCutGroupsAndCutArms1.1, wStopsCutGroupsAndCutArms1.2.1, wStopsCutGroupsAndCutArms1.2.2.1, wStopsCutGroupsAndCutArms1.2.2.2, memOk_of _ (by decide +kernel), (by unfold State.Accepts State.Agrees; decide +kernel), (by decide +kernel), (by decide +kernel), (by decide +kernel), (by decide +kernel), (by decide +kernel)⟩,
   ⟨wStopsCutGroupsAndCutArms2.1, wStopsCutGroupsAndCutArms2.2.1, wStopsCutGroupsAndCutArms2.2.2.1, wStopsCutGroupsAndCutArms2.2.2.2, by unfold State.Accepts State.Agrees; decide +kernel⟩,
   ⟨wStopsCutGroupsAndCutArms3.1, wStopsCutGroupsAndCutArms3.2.1, wStopsCutGroupsAndCutArms3.2.2.1, wStopsCutGroupsAndCutArms3.2.2.2, memOk_of _ (by decide +kernel), (by unfold State.Accepts State.Agrees; decide +kernel), (by decide +kernel), (by decide +kernel), (by decide +kernel), (by decide +kernel), (by decide +kernel), (by decide +kernel)⟩,
   ⟨wStopsCutGroupsAndCutArms4.1, wStopsCutGroupsAndCutArms4.2.1, wStopsCutGroupsAndCutArms4.2.2.1, wStopsCutGroupsAndCutArms4.2.2.2, memOk_of _ (by decide +kernel), (by unfold State.Accepts State.Agrees; decide +kernel), (by decide +kernel), (by decide +kernel), (by decide +kernel), (by decide +kernel), (by decide +kernel), (by decide +kernel)⟩,
   ⟨wStopsCutGroupsAndCutArms5.1, wStopsCutGroupsAndCutArms5.2.1, wStopsCutGroupsAndCutArms5.2.2.1, wStopsCutGroupsAndCutArms5.2.2.2, by unfold State.Accepts State.Agrees; decide +kernel⟩,
   ⟨wStopsCutGroupsAndCutArms6.1, wStopsCutGroupsAndCutArms6.2.1, wStopsCutGroupsAndCutArms6.2.2.1, wStopsCutGroupsAndCutArms6.2.2.2, memOk_of _ (by decide +kernel), (by unfold State.Accepts State.Agrees; decide +kernel), (by decide +kernel), (by decide +kernel), (by decide +kernel), (by decide +kernel), (by decide +kernel)⟩,
   ⟨wStopsCutGroupsAndCutArms7.1, wStopsCutGroupsAndCutArms7.2.1, wStopsCutGroupsAndCutArms7.2.2.1, wStopsCutGroupsAndCutArms7.2.2.2, memOk_of _ (by decide +kernel), (by unfold State.Accepts State.Agrees; decide +kernel), (by decide +kernel), (by decide +kernel), (by decide +kernel), (by decide +kernel), (by decide +kernel), (by decide +kernel), (by decide +kernel), (by decide +kernel), (by decide +kernel), (by decide +kernel), (by decide +kernel)⟩⟩
def wEngineArithmetic0 : EngId × ZscFields × State :=
  let e : EngId := 0
  let f : ZscFields := dZscFields
  let s : State := State.reset
  let kk : Nat := 0
  let s := running s e kk
  let f := { f with cond := (if kk < 5 then 0 else f.cond % 15#4), ext := f.ext &&& 3 }
  let f := { f with ra := 0 }
  let f := if f.isImm then { f with rb := 0 } else { f with imm := 0 }
  (e, f, s)
def wEngineArithmetic1 : EngId × ZscFields × State :=
  let e : EngId := 0
  let f : ZscFields := dZscFields
  let s : State := State.reset
  let kk : Nat := 0
  let s := running s e kk
  let f := { f with cond := (if kk < 5 then 0 else f.cond % 15#4), ext := f.ext &&& 3 }
  let f := if f.isImm then { f with rb := 0 } else { f with imm := 0 }
  (e, f, s)
def wEngineArithmetic2 : EngId × ZscFields × State :=
  let e : EngId := 0
  let f : ZscFields := dZscFields
  let s : State := State.reset
  let kk : Nat := 0
  let s := running s e kk
  let f := { f with cond := (if kk < 5 then 0 else f.cond % 15#4), ext := f.ext &&& 3 }
  let f := if f.isImm then { f with rb := 0 } else { f with imm := 0 }
  (e, f, s)
def wEngineArithmetic3 : EngId × ZscFields × State :=
  let e : EngId := 0
  let f : ZscFields := dZscFields
  let s : State := State.reset
  let kk : Nat := 0
  let s := running s e kk
  let f := { f with cond := (if kk < 5 then 0 else f.cond % 15#4), ext := f.ext &&& 3 }
  let f := if f.isImm then { f with rb := 0 } else { f with imm := 0 }
  (e, f, s)
def wEngineArithmetic4 : EngId × ZscFields × State :=
  let e : EngId := 0
  let f : ZscFields := dZscFields
  let s : State := State.reset
  let kk : Nat := 0
  let s := running s e kk
  let f := { f with cond := (if kk < 5 then 0 else f.cond % 15#4), ext := f.ext &&& 3 }
  let f := if f.isImm then { f with rb := 0 } else { f with imm := 0 }
  (e, f, s)
def wEngineArithmetic5 : EngId × ZscFields × State :=
  let e : EngId := 0
  let f : ZscFields := dZscFields
  let s : State := State.reset
  let kk : Nat := 0
  let s := running s e kk
  let f := { f with cond := (if kk < 5 then 0 else f.cond % 15#4), ext := f.ext &&& 3 }
  let f := if f.isImm then { f with rb := 0 } else { f with imm := 0 }
  (e, f, s)
def wEngineArithmetic6 : EngId × ZscFields × State :=
  let e : EngId := 0
  let f : ZscFields := dZscFields
  let s : State := State.reset
  let kk : Nat := 0
  let s := running s e kk
  let f := { f with cond := (if kk < 5 then 0 else f.cond % 15#4), ext := f.ext &&& 3 }
  let f := if f.isImm then { f with rb := 0 } else { f with imm := 0 }
  (e, f, s)
def wEngineArithmetic7 : EngId × ZscFields × State :=
  let e : EngId := 0
  let f : ZscFields := dZscFields
  let s : State := State.reset
  let kk : Nat := 0
  let s := running s e kk
  let f := { f with cond := (if kk < 5 then 0 else f.cond % 15#4), ext := f.ext &&& 3 }
  let f := if f.isImm then { f with rb := 0 } else { f with imm := 0 }
  (e, f, s)
/-- The conditions of each clause of `Obligations.EngineArithmetic` are met. -/
theorem test_meets_EngineArithmetic :
    (∃ (e : EngId) (f : ZscFields) (s : State), s.Takes e 1 { rd := true, b := true, ext := 3 } f) ∧
    (∃ (e : EngId) (f : ZscFields) (s : State), s.Takes e 1 { rd := true, ra := true, b := true, ext := 3 } f) ∧
    (∃ (e : EngId) (f : ZscFields) (s : State), s.Takes e 1 { rd := true, ra := true, b := true, ext := 3 } f) ∧
    (∃ (e : EngId) (f : ZscFields) (s : State), s.Takes e 1 { rd := true, ra := true, b := true, ext := 3 } f) ∧
    (∃ (e : EngId) (f : ZscFields) (s : State), s.Takes e 1 { rd := true, ra := true, b := true, ext := 3 } f) ∧
    (∃ (e : EngId) (f : ZscFields) (s : State), s.Takes e 1 { rd := true, ra := true, b := true, ext := 3 } f) ∧
    (∃ (e : EngId) (f : ZscFields) (s : State), s.Takes e 1 { rd := true, ra := true, b := true, ext := 3 } f) ∧
    (∃ (e : EngId) (f : ZscFields) (s : State), s.Takes e 1 { rd := true, ra := true, b := true, ext := 3 } f) :=
  ⟨⟨wEngineArithmetic0.1, wEngineArithmetic0.2.1, wEngineArithmetic0.2.2, by unfold State.Takes State.Runs; decide +kernel⟩,
   ⟨wEngineArithmetic1.1, wEngineArithmetic1.2.1, wEngineArithmetic1.2.2, by unfold State.Takes State.Runs; decide +kernel⟩,
   ⟨wEngineArithmetic2.1, wEngineArithmetic2.2.1, wEngineArithmetic2.2.2, by unfold State.Takes State.Runs; decide +kernel⟩,
   ⟨wEngineArithmetic3.1, wEngineArithmetic3.2.1, wEngineArithmetic3.2.2, by unfold State.Takes State.Runs; decide +kernel⟩,
   ⟨wEngineArithmetic4.1, wEngineArithmetic4.2.1, wEngineArithmetic4.2.2, by unfold State.Takes State.Runs; decide +kernel⟩,
   ⟨wEngineArithmetic5.1, wEngineArithmetic5.2.1, wEngineArithmetic5.2.2, by unfold State.Takes State.Runs; decide +kernel⟩,
   ⟨wEngineArithmetic6.1, wEngineArithmetic6.2.1, wEngineArithmetic6.2.2, by unfold State.Takes State.Runs; decide +kernel⟩,
   ⟨wEngineArithmetic7.1, wEngineArithmetic7.2.1, wEngineArithmetic7.2.2, by unfold State.Takes State.Runs; decide +kernel⟩⟩
def wEngineShiftsAndProducts0 : EngId × ZscFields × State :=
  let e : EngId := 0
  let f : ZscFields := dZscFields
  let s : State := State.reset
  let kk : Nat := 0
  let s := running s e kk
  let f := { f with cond := (if kk < 5 then 0 else f.cond % 15#4), ext := f.ext &&& 3 }
  let f := if f.isImm then { f with rb := 0 } else { f with imm := 0 }
  (e, f, s)
def wEngineShiftsAndProducts1 : EngId × ZscFields × State :=
  let e : EngId := 0
  let f : ZscFields := dZscFields
  let s : State := State.reset
  let kk : Nat := 0
  let s := running s e kk
  let f := { f with cond := (if kk < 5 then 0 else f.cond % 15#4), ext := f.ext &&& 3 }
  let f := if f.isImm then { f with rb := 0 } else { f with imm := 0 }
  (e, f, s)
def wEngineShiftsAndProducts2 : EngId × ZscFields × State :=
  let e : EngId := 0
  let f : ZscFields := dZscFields
  let s : State := State.reset
  let kk : Nat := 0
  let s := running s e kk
  let f := { f with cond := (if kk < 5 then 0 else f.cond % 15#4), ext := f.ext &&& 3 }
  let f := if f.isImm then { f with rb := 0 } else { f with imm := 0 }
  (e, f, s)
def wEngineShiftsAndProducts3 : EngId × ZscFields × State :=
  let e : EngId := 0
  let f : ZscFields := dZscFields
  let s : State := State.reset
  let kk : Nat := 0
  let s := running s e kk
  let f := { f with cond := (if kk < 5 then 0 else f.cond % 15#4), ext := f.ext &&& 3 }
  let f := if f.isImm then { f with rb := 0 } else { f with imm := 0 }
  (e, f, s)
def wEngineShiftsAndProducts4 : EngId × ZscFields × State :=
  let e : EngId := 0
  let f : ZscFields := dZscFields
  let s : State := State.reset
  let kk : Nat := 0
  let s := running s e kk
  let f := { f with cond := (if kk < 5 then 0 else f.cond % 15#4), ext := f.ext &&& 3 }
  let f := if f.isImm then { f with rb := 0 } else { f with imm := 0 }
  (e, f, s)
def wEngineShiftsAndProducts5 : EngId × ZscFields × State :=
  let e : EngId := 0
  let f : ZscFields := dZscFields
  let s : State := State.reset
  let kk : Nat := 0
  let s := running s e kk
  let f := { f with cond := (if kk < 5 then 0 else f.cond % 15#4), ext := f.ext &&& 3 }
  let f := if f.isImm then { f with rb := 0 } else { f with imm := 0 }
  (e, f, s)
def wEngineShiftsAndProducts6 : EngId × ZscFields × State :=
  let e : EngId := 0
  let f : ZscFields := dZscFields
  let s : State := State.reset
  let kk : Nat := 0
  let s := running s e kk
  let f := { f with cond := (if kk < 5 then 0 else f.cond % 15#4), ext := f.ext &&& 3 }
  let f := if f.isImm then { f with rb := 0 } else { f with imm := 0 }
  (e, f, s)
def wEngineShiftsAndProducts7 : EngId × ZscFields × State :=
  let e : EngId := 0
  let f : ZscFields := dZscFields
  let s : State := State.reset
  let kk : Nat := 0
  let s := running s e kk
  let f := { f with cond := (if kk < 5 then 0 else f.cond % 15#4), ext := f.ext &&& 3 }
  let f := if f.isImm then { f with rb := 0 } else { f with imm := 0 }
  (e, f, s)
def wEngineShiftsAndProducts8 : EngId × ZscFields × State :=
  let e : EngId := 0
  let f : ZscFields := dZscFields
  let s : State := State.reset
  let kk : Nat := 0
  let s := running s e kk
  let f := { f with cond := (if kk < 5 then 0 else f.cond % 15#4), ext := f.ext &&& 3 }
  let f := if f.isImm then { f with rb := 0 } else { f with imm := 0 }
  (e, f, s)
def wEngineShiftsAndProducts9 : EngId × ZscFields × State :=
  let e : EngId := 0
  let f : ZscFields := dZscFields
  let s : State := State.reset
  let kk : Nat := 0
  let s := running s e kk
  let f := { f with cond := (if kk < 5 then 0 else f.cond % 15#4), ext := f.ext &&& 3 }
  let f := { f with ra := 0 }
  let f := if f.isImm then { f with rb := 0 } else { f with imm := 0 }
  (e, f, s)
/-- The conditions of each clause of `Obligations.EngineShiftsAndProducts` are met. -/
theorem test_meets_EngineShiftsAndProducts :
    (∃ (e : EngId) (f : ZscFields) (s : State), s.Takes e 1 { rd := true, ra := true, b := true, ext := 3 } f) ∧
    (∃ (e : EngId) (f : ZscFields) (s : State), s.Takes e 1 { rd := true, ra := true, b := true, ext := 3 } f) ∧
    (∃ (e : EngId) (f : ZscFields) (s : State), s.Takes e 1 { rd := true, ra := true, b := true, ext := 3 } f) ∧
    (∃ (e : EngId) (f : ZscFields) (s : State), s.Takes e 2 { rd := true, ra := true, b := true, ext := 3 } f) ∧
    (∃ (e : EngId) (f : ZscFields) (s : State), s.Takes e 2 { rd := true, ra := true, b := true, ext := 3 } f) ∧
    (∃ (e : EngId) (f : ZscFields) (s : State), s.Takes e 1 { rd := true, ra := true, b := true, ext := 3 } f) ∧
    (∃ (e : EngId) (f : ZscFields) (s : State), s.Takes e 1 { rd := true, ra := true, b := true, ext := 3 } f) ∧
    (∃ (e : EngId) (f : ZscFields) (s : State), s.Takes e 1 { rd := true, ra := true, b := true, ext := 3 } f) ∧
    (∃ (e : EngId) (f : ZscFields) (s : State), s.Takes e 1 { rd := true, ra := true, b := true, ext := 3 } f) ∧
    (∃ (e : EngId) (f : ZscFields) (s : State), s.Takes e 1 { rd := true, b := true, ext := 3 } f) :=
  ⟨⟨wEngineShiftsAndProducts0.1, wEngineShiftsAndProducts0.2.1, wEngineShiftsAndProducts0.2.2, by unfold State.Takes State.Runs; decide +kernel⟩,
   ⟨wEngineShiftsAndProducts1.1, wEngineShiftsAndProducts1.2.1, wEngineShiftsAndProducts1.2.2, by unfold State.Takes State.Runs; decide +kernel⟩,
   ⟨wEngineShiftsAndProducts2.1, wEngineShiftsAndProducts2.2.1, wEngineShiftsAndProducts2.2.2, by unfold State.Takes State.Runs; decide +kernel⟩,
   ⟨wEngineShiftsAndProducts3.1, wEngineShiftsAndProducts3.2.1, wEngineShiftsAndProducts3.2.2, by unfold State.Takes State.Runs; decide +kernel⟩,
   ⟨wEngineShiftsAndProducts4.1, wEngineShiftsAndProducts4.2.1, wEngineShiftsAndProducts4.2.2, by unfold State.Takes State.Runs; decide +kernel⟩,
   ⟨wEngineShiftsAndProducts5.1, wEngineShiftsAndProducts5.2.1, wEngineShiftsAndProducts5.2.2, by unfold State.Takes State.Runs; decide +kernel⟩,
   ⟨wEngineShiftsAndProducts6.1, wEngineShiftsAndProducts6.2.1, wEngineShiftsAndProducts6.2.2, by unfold State.Takes State.Runs; decide +kernel⟩,
   ⟨wEngineShiftsAndProducts7.1, wEngineShiftsAndProducts7.2.1, wEngineShiftsAndProducts7.2.2, by unfold State.Takes State.Runs; decide +kernel⟩,
   ⟨wEngineShiftsAndProducts8.1, wEngineShiftsAndProducts8.2.1, wEngineShiftsAndProducts8.2.2, by unfold State.Takes State.Runs; decide +kernel⟩,
   ⟨wEngineShiftsAndProducts9.1, wEngineShiftsAndProducts9.2.1, wEngineShiftsAndProducts9.2.2, by unfold State.Takes State.Runs; decide +kernel⟩⟩
def wEngineTestsMemoryAndJumps0 : EngId × ZscFields × State :=
  let e : EngId := 0
  let f : ZscFields := dZscFields
  let s : State := State.reset
  let kk : Nat := 0
  let s := running s e kk
  let f := { f with cond := (if kk < 5 then 0 else f.cond % 15#4), ext := f.ext &&& 3 }
  let f := { f with rd := 0 }
  let f := if f.isImm then { f with rb := 0 } else { f with imm := 0 }
  (e, f, s)
def wEngineTestsMemoryAndJumps1 : EngId × ZscFields × State :=
  let e : EngId := 0
  let f : ZscFields := dZscFields
  let s : State := State.reset
  let kk : Nat := 0
  let s := running s e kk
  let f := { f with cond := (if kk < 5 then 0 else f.cond % 15#4), ext := f.ext &&& 3 }
  let f := { f with rd := 0 }
  let f := if f.isImm then { f with rb := 0 } else { f with imm := 0 }
  (e, f, s)
def wEngineTestsMemoryAndJumps2 : EngId × ZscFields × State :=
  let e : EngId := 0
  let f : ZscFields := dZscFields
  let s : State := State.reset
  let kk : Nat := 0
  let s := running s e kk
  let f := { f with cond := (if kk < 5 then 0 else f.cond % 15#4), ext := f.ext &&& 3 }
  let s := s.updEng e (fun x => { x with g := x.g.set 3 0x100 })
  let z : Nat := 0
  let f := { f with ra := (if z == 0 then 3 else 0), imm := BitVec.ofNat 32 (4 * 0), ext := BitVec.ofNat 8 z &&& 1 }
  let f := { f with rb := 0 }
  (e, f, s)
def wEngineTestsMemoryAndJumps3 : EngId × ZscFields × State :=
  let e : EngId := 0
  let f : ZscFields := dZscFields
  let s : State := State.reset
  let kk : Nat := 0
  let s := running s e kk
  let f := { f with cond := (if kk < 5 then 0 else f.cond % 15#4), ext := f.ext &&& 3 }
  let s := s.updEng e (fun x => { x with g := x.g.set 3 0x100 })
  let z : Nat := 0
  let f := { f with ra := (if z == 0 then 3 else 0), imm := BitVec.ofNat 32 (4 * 0), ext := BitVec.ofNat 8 z &&& 1 }
  let f := { f with rd := 0, ext := 1 }
  (e, f, s)
def wEngineTestsMemoryAndJumps4 : EngId × ZscFields × State :=
  let e : EngId := 0
  let f : ZscFields := dZscFields
  let s : State := State.reset
  let kk : Nat := 0
  let s := running s e kk
  let f := { f with cond := (if kk < 5 then 0 else f.cond % 15#4), ext := f.ext &&& 3 }
  let f := { f with rd := 0, ra := 0, rb := 0, ext := 0, imm := f.imm }
  let s := s.updScript (scriptOf e) (fun x => { x with len := 70000 })
  (e, f, s)
def wEngineTestsMemoryAndJumps5 : EngId × ZscFields × State :=
  let e : EngId := 0
  let f : ZscFields := dZscFields
  let s : State := State.reset
  let kk : Nat := 0
  let s := running s e kk
  let f := { f with cond := (if kk < 5 then 0 else f.cond % 15#4), ext := f.ext &&& 3 }
  let f := { f with rd := 0, rb := 0, ext := 0, imm := 0 }
  let s := s.updScript (scriptOf e) (fun x => { x with len := 70000 })
  (e, f, s)
def wEngineTestsMemoryAndJumps6 : EngId × ZscFields × State :=
  let e : EngId := 0
  let f : ZscFields := dZscFields
  let s : State := State.reset
  let kk : Nat := 0
  let s := running s e kk
  let f := { f with cond := (if kk < 5 then 0 else f.cond % 15#4), ext := f.ext &&& 3 }
  let f := { f with rd := 0, ra := 0, rb := 0, ext := 0, imm := f.imm }
  let s := s.updScript (scriptOf e) (fun x => { x with len := 70000 })
  let q : Nat := 0
  let s := s.updEng e (fun x => { x with link := [5, 6, 7, 8].drop (q + 1) })
  (e, f, s)
def wEngineTestsMemoryAndJumps7 : EngId × ZscFields × State :=
  let e : EngId := 0
  let f : ZscFields := dZscFields
  let s : State := State.reset
  let kk : Nat := 0
  let s := running s e kk
  let f := { f with cond := (if kk < 5 then 0 else f.cond % 15#4), ext := f.ext &&& 3 }
  let f := { f with rd := 0, rb := 0, ext := 0, imm := 0 }
  let s := s.updScript (scriptOf e) (fun x => { x with len := 70000 })
  let q : Nat := 0
  let s := s.updEng e (fun x => { x with link := [5, 6, 7, 8].drop (q + 1) })
  (e, f, s)
def wEngineTestsMemoryAndJumps8 : EngId × ZscFields × State × Nat × List Nat :=
  let e : EngId := 0
  let f : ZscFields := dZscFields
  let s : State := State.reset
  let pc : Nat := 0
  let rest : List Nat := []
  let kk : Nat := 0
  let s := running s e kk
  let f := { f with cond := (if kk < 5 then 0 else f.cond % 15#4), ext := f.ext &&& 3 }
  let f := { f with rd := 0, ra := 0, rb := 0, ext := 0, imm := 0 }
  let s := s.updScript (scriptOf e) (fun x => { x with len := 70000 })
  let s := s.updEng e (fun x => { x with link := pc :: rest })
  (e, f, s, pc, rest)
/-- The conditions of each clause of `Obligations.EngineTestsMemoryAndJumps` are met. -/
theorem test_meets_EngineTestsMemoryAndJumps :
    (∃ (e : EngId) (f : ZscFields) (s : State), s.Takes e 1 { ra := true, b := true, ext := 3 } f) ∧
    (∃ (e : EngId) (f : ZscFields) (s : State), s.Takes e 1 { ra := true, b := true, ext := 3 } f) ∧
    (∃ (e : EngId) (f : ZscFields) (s : State), (s.Takes e 2 { rd := true, ra := true, imm := true, ext := 3 } f) ∧ (f.ext = 1 ∨ (f.ext = 0 ∧ engKind e ≠ 3)) ∧ ((s.eng e).addr f % 4 = 0) ∧ ((s.eng e).addr f < (if f.ext = 0 then 16384 else 1024))) ∧
    (∃ (e : EngId) (f : ZscFields) (s : State), (mwf (fun _ => 0) (s.eng e).scratch = true) ∧ (s.Takes e 1 { ra := true, rb := true, imm := true, ext := 3 } f) ∧ (f.ext = 1) ∧ ((s.eng e).addr f % 4 = 0) ∧ ((s.eng e).addr f < 1024)) ∧
    (∃ (e : EngId) (f : ZscFields) (s : State), (s.Takes e 2 { imm := true } f) ∧ (engKind e = 3 → (f.imm.toNat) % 65536 < s.scriptLen e)) ∧
    (∃ (e : EngId) (f : ZscFields) (s : State), (s.Takes e 2 { ra := true } f) ∧ (engKind e = 3 → (((s.eng e).get f.ra).toNat) % 65536 < s.scriptLen e)) ∧
    (∃ (e : EngId) (f : ZscFields) (s : State), (s.Takes e 2 { imm := true } f) ∧ (engKind e = 3 → (f.imm.toNat) % 65536 < s.scriptLen e) ∧ ((s.eng e).link.length < 4)) ∧
    (∃ (e : EngId) (f : ZscFields) (s : State), (s.Takes e 2 { ra := true } f) ∧ (engKind e = 3 → (((s.eng e).get f.ra).toNat) % 65536 < s.scriptLen e) ∧ ((s.eng e).link.length < 4)) ∧
    (∃ (e : EngId) (f : ZscFields) (s : State) (pc : Nat) (rest : List Nat), (s.Takes e 2 {} f) ∧ ((s.eng e).link = pc :: rest) ∧ (engKind e = 3 → pc < s.scriptLen e)) :=
  ⟨⟨wEngineTestsMemoryAndJumps0.1, wEngineTestsMemoryAndJumps0.2.1, wEngineTestsMemoryAndJumps0.2.2, by unfold State.Takes State.Runs; decide +kernel⟩,
   ⟨wEngineTestsMemoryAndJumps1.1, wEngineTestsMemoryAndJumps1.2.1, wEngineTestsMemoryAndJumps1.2.2, by unfold State.Takes State.Runs; decide +kernel⟩,
   ⟨wEngineTestsMemoryAndJumps2.1, wEngineTestsMemoryAndJumps2.2.1, wEngineTestsMemoryAndJumps2.2.2, by unfold State.Takes State.Runs; decide +kernel⟩,
   ⟨wEngineTestsMemoryAndJumps3.1, wEngineTestsMemoryAndJumps3.2.1, wEngineTestsMemoryAndJumps3.2.2, by unfold State.Takes State.Runs; decide +kernel⟩,
   ⟨wEngineTestsMemoryAndJumps4.1, wEngineTestsMemoryAndJumps4.2.1, wEngineTestsMemoryAndJumps4.2.2, by unfold State.Takes State.Runs; decide +kernel⟩,
   ⟨wEngineTestsMemoryAndJumps5.1, wEngineTestsMemoryAndJumps5.2.1, wEngineTestsMemoryAndJumps5.2.2, by unfold State.Takes State.Runs; decide +kernel⟩,
   ⟨wEngineTestsMemoryAndJumps6.1, wEngineTestsMemoryAndJumps6.2.1, wEngineTestsMemoryAndJumps6.2.2, by unfold State.Takes State.Runs; decide +kernel⟩,
   ⟨wEngineTestsMemoryAndJumps7.1, wEngineTestsMemoryAndJumps7.2.1, wEngineTestsMemoryAndJumps7.2.2, by unfold State.Takes State.Runs; decide +kernel⟩,
   ⟨wEngineTestsMemoryAndJumps8.1, wEngineTestsMemoryAndJumps8.2.1, wEngineTestsMemoryAndJumps8.2.2.1, wEngineTestsMemoryAndJumps8.2.2.2.1, wEngineTestsMemoryAndJumps8.2.2.2.2, by unfold State.Takes State.Runs; decide +kernel⟩⟩
def wEngineLoopsTicksAndEvents0 : EngId × ZscFields × State :=
  let e : EngId := 0
  let f : ZscFields := dZscFields
  let s : State := State.reset
  let kk : Nat := 0
  let s := running s e kk
  let f := { f with cond := (if kk < 5 then 0 else f.cond % 15#4), ext := f.ext &&& 3 }
  let f := { f with rd := 0, ra := 0, rb := 0, ext := 0, imm := 0 }
  (e, f, s)
def wEngineLoopsTicksAndEvents1 : EngId × ZscFields × State :=
  let e : EngId := 0
  let f : ZscFields := dZscFields
  let s : State := State.reset
  let kk : Nat := 0
  let s := running s e kk
  let f := { f with cond := (if kk < 5 then 0 else f.cond % 15#4), ext := f.ext &&& 3 }
  let s := s.updScript (scriptOf e) (fun x => { x with len := 70000 })
  let f := { f with cond := 0, rb := 0, rd := f.rd % 4#4, ext := f.ext &&& 1 }
  let f := if f.isImm then { f with ra := 0 } else f
  let s := if f.isImm then s else s.updEng e (fun x => { x with g := x.g.map (fun w => w % 5000#32) })
  let z : Nat := 0
  let f := if z == 0 then { f with imm := f.imm &&& 0xFFFF0000 } else f
  (e, f, s)
def wEngineLoopsTicksAndEvents2 : EngId × ZscFields × State :=
  let e : EngId := 0
  let f : ZscFields := dZscFields
  let s : State := State.reset
  let kk : Nat := 0
  let s := running s e kk
  let f := { f with cond := (if kk < 5 then 0 else f.cond % 15#4), ext := f.ext &&& 3 }
  let s := s.updScript (scriptOf e) (fun x => { x with len := 70000 })
  let f := { f with cond := 0, rb := 0, rd := f.rd % 4#4, ext := f.ext &&& 1 }
  let f := if f.isImm then { f with ra := 0 } else f
  let s := if f.isImm then s else s.updEng e (fun x => { x with g := x.g.map (fun w => w % 5000#32) })
  let z : Nat := 0
  let f := if z == 0 then { f with imm := f.imm &&& 0xFFFF0000 } else f
  let f := { f with ra := 0, ext := 0 }
  let s := if z == 1 then s.updEng e (fun x => { x with lc := Vector.replicate 4 1 }) else s
  (e, f, s)
def wEngineLoopsTicksAndEvents3 : EngId × ZscFields × State :=
  let e : EngId := 0
  let f : ZscFields := dZscFields
  let s : State := State.reset
  let kk : Nat := 0
  let s := running s e kk
  let f := { f with cond := (if kk < 5 then 0 else f.cond % 15#4), ext := f.ext &&& 3 }
  let f := { f with rd := 0, ra := 0, rb := 0, ext := 0, imm := 0 }
  (e, f, s)
def wEngineLoopsTicksAndEvents4 : EngId × ZscFields × State :=
  let e : EngId := 0
  let f : ZscFields := dZscFields
  let s : State := State.reset
  let kk : Nat := 0
  let s := running s e kk
  let f := { f with cond := (if kk < 5 then 0 else f.cond % 15#4), ext := f.ext &&& 3 }
  let f := { f with rd := 0, ra := 0, rb := 0, ext := 0, imm := f.imm }
  (e, f, s)
def wEngineLoopsTicksAndEvents5 : EngId × ZscFields × State :=
  let e : EngId := 0
  let f : ZscFields := dZscFields
  let s : State := State.reset
  let kk : Nat := 0
  let s := running s e kk
  let f := { f with cond := (if kk < 5 then 0 else f.cond % 15#4), ext := f.ext &&& 3 }
  let f := { f with ra := 0, rb := 0, imm := 0, ext := BitVec.ofNat 8 0 }
  (e, f, s)
def wEngineLoopsTicksAndEvents6 : EngId × ZscFields × State :=
  let e : EngId := 0
  let f : ZscFields := dZscFields
  let s : State := State.reset
  let kk : Nat := 0
  let s := running s e kk
  let f := { f with cond := (if kk < 5 then 0 else f.cond % 15#4), ext := f.ext &&& 3 }
  let f := { f with rd := 0, ra := 0, rb := 0, ext := 0, imm := 0 }
  (e, f, s)
def wEngineLoopsTicksAndEvents7 : EngId × ZscFields × State :=
  let e : EngId := 0
  let f : ZscFields := dZscFields
  let s : State := State.reset
  let e : EngId := ⟨32 + 0 % 8, by omega⟩
  let kk : Nat := 0
  let s := running s e kk
  let f := { f with cond := (if kk < 5 then 0 else f.cond % 15#4), ext := f.ext &&& 3 }
  let f := { f with rd := 0, ra := 0, rb := 0, ext := 0, imm := 0 }
  let s := s.updUnit (engUnit e) (fun x => { x with st := .running, cut := none })
  (e, f, s)
def wEngineLoopsTicksAndEvents8 : EngId × ZscFields × State :=
  let e : EngId := 0
  let f : ZscFields := dZscFields
  let s : State := State.reset
  let e : EngId := ⟨0 % 32, by omega⟩
  let kk : Nat := 0
  let s := running s e kk
  let f := { f with cond := (if kk < 5 then 0 else f.cond % 15#4), ext := f.ext &&& 3 }
  let f := { f with rd := 0, ra := 0, rb := 0, ext := 0, imm := 0 }
  let z : Nat := 0
  let s := s.updPort (unitPort (engUnit e)) (fun x => { x with ltg := { x.ltg with ticked := true, drains := z } })
  let s := s.updUnit (engUnit e) (fun x => { x with st := .running, cut := none })
  (e, f, s)
def wEngineLoopsTicksAndEvents9 : EngId × ZscFields × State :=
  let e : EngId := 0
  let f : ZscFields := dZscFields
  let s : State := State.reset
  let e : EngId := ⟨40 + 0 % 16, by omega⟩
  let kk : Nat := 0
  let s := running s e kk
  let f := { f with cond := (if kk < 5 then 0 else f.cond % 15#4), ext := f.ext &&& 3 }
  let f := { f with rd := 0, ra := 0, rb := 0, ext := 0, imm := 0 }
  (e, f, s)
def wEngineLoopsTicksAndEvents10 : EngId × Fin 32 × ZscFields × State :=
  let e : EngId := 0
  let k : Fin 32 := 0
  let f : ZscFields := dZscFields
  let s : State := State.reset
  let kk : Nat := 0
  let s := running s e kk
  let f := { f with cond := (if kk < 5 then 0 else f.cond % 15#4), ext := f.ext &&& 3 }
  let f := { f with rd := 0, ra := 0, rb := 0, ext := 0, imm := f.imm }
  (e, k, f, s)
def wEngineLoopsTicksAndEvents11 : EngId × DWord × State :=
  let e : EngId := 49
  let w : DWord := 63
  let s : State := State.reset
  let k : Nat := 7
  let s := running s e k
  let w := w + BitVec.ofNat 64 (148 * 2 ^ 56)
  (e, w, s)
def wEngineLoopsTicksAndEvents12 : EngId × DWord × State :=
  let e : EngId := 0
  let w : DWord := 0
  let s : State := State.reset
  let k : Nat := 0
  let s := running s e k
  (e, w, s)
def wEngineLoopsTicksAndEvents13 : EngId × DWord × Bool × State :=
  let e : EngId := 0
  let w : DWord := 0
  let parity : Bool := false
  let s : State := State.reset
  (e, w, parity, s)
/-- The conditions of each clause of `Obligations.EngineLoopsTicksAndEvents` are met. -/
theorem test_meets_EngineLoopsTicksAndEvents :
    (∃ (e : EngId) (f : ZscFields) (s : State), s.Takes e 1 {} f) ∧
    (∃ (e : EngId) (f : ZscFields) (s : State), (s.Takes e 2 { rd := true, ra := !f.isImm, imm := true, ext := 1 } f) ∧ (f.cond = 0) ∧ (f.rd.toNat < 4) ∧ (f.isImm = false → ((s.eng e).get f.ra).toNat ≤ f.imm.toNat % 65536) ∧ (engKind e = 3 → (f.imm.toNat / 65536 + 1) % 65536 < s.scriptLen e)) ∧
    (∃ (e : EngId) (f : ZscFields) (s : State), (s.Takes e 2 { rd := true, imm := true } f) ∧ (f.cond = 0) ∧ (f.rd.toNat < 4) ∧ (engKind e = 3 → f.imm.toNat % 65536 < s.scriptLen e)) ∧
    (∃ (e : EngId) (f : ZscFields) (s : State), (s.Takes e 1 {} f) ∧ (engKind e ≠ 3)) ∧
    (∃ (e : EngId) (f : ZscFields) (s : State), (s.Takes e 1 { imm := true } f) ∧ ((s.eng e).condTrue f.cond = true)) ∧
    (∃ (e : EngId) (f : ZscFields) (s : State), (s.Takes e 1 { rd := true, ext := 0xFF } f) ∧ (f.ext.toNat < 10) ∧ ((s.eng e).condTrue f.cond = true)) ∧
    (∃ (e : EngId) (f : ZscFields) (s : State), (s.Takes e 1 {} f) ∧ ((s.eng e).condTrue f.cond = true) ∧ (engKind e ≠ 3) ∧ ((s.unit (engUnit e)).st ≠ .running)) ∧
    (∃ (e : EngId) (f : ZscFields) (s : State), (s.MemOk) ∧ (s.Takes e 1 {} f) ∧ ((s.eng e).condTrue f.cond = true) ∧ (engKind e = 2) ∧ ((s.unit (engUnit e)).st = .running) ∧ ((s.unit (engUnit e)).cut = none)) ∧
    (∃ (e : EngId) (f : ZscFields) (s : State), (s.MemOk) ∧ (s.Takes e 1 {} f) ∧ ((s.eng e).condTrue f.cond = true) ∧ (engKind e < 2) ∧ ((s.unit (engUnit e)).st = .running) ∧ ((s.unit (engUnit e)).cut = none)) ∧
    (∃ (e : EngId) (f : ZscFields) (s : State), (s.Takes e 1 {} f) ∧ ((s.eng e).condTrue f.cond = true) ∧ (engKind e = 3)) ∧
    (∃ (e : EngId) (k : Fin 32) (f : ZscFields) (s : State), (s.Takes e 1 { imm := true } f) ∧ ((s.eng e).condTrue f.cond = true)) ∧
    (∃ (e : EngId) (w : DWord) (s : State), ((s.eng e).run = .running) ∧ (s.transferring e = false) ∧ (opAccepted (engKind e) (w.toNat / 2 ^ 56) = false)) ∧
    (∃ (e : EngId) (w : DWord) (s : State), ((s.eng e).run = .running) ∧ (s.transferring e = false)) ∧
    (∃ (e : EngId) (w : DWord) (parity : Bool) (s : State), (s.eng e).run ≠ .running ∨ s.transferring e = true ∨ (parity = false ∧ opAccepted (engKind e) (w.toNat / 2 ^ 56) = true)) :=
  ⟨⟨wEngineLoopsTicksAndEvents0.1, wEngineLoopsTicksAndEvents0.2.1, wEngineLoopsTicksAndEvents0.2.2, by unfold State.Takes State.Runs; decide +kernel⟩,
   ⟨wEngineLoopsTicksAndEvents1.1, wEngineLoopsTicksAndEvents1.2.1, wEngineLoopsTicksAndEvents1.2.2, by unfold State.Takes State.Runs; decide +kernel⟩,
   ⟨wEngineLoopsTicksAndEvents2.1, wEngineLoopsTicksAndEvents2.2.1, wEngineLoopsTicksAndEvents2.2.2, by unfold State.Takes State.Runs; decide +kernel⟩,
   ⟨wEngineLoopsTicksAndEvents3.1, wEngineLoopsTicksAndEvents3.2.1, wEngineLoopsTicksAndEvents3.2.2, by unfold State.Takes State.Runs; decide +kernel⟩,
   ⟨wEngineLoopsTicksAndEvents4.1, wEngineLoopsTicksAndEvents4.2.1, wEngineLoopsTicksAndEvents4.2.2, by unfold State.Takes State.Runs; decide +kernel⟩,
   ⟨wEngineLoopsTicksAndEvents5.1, wEngineLoopsTicksAndEvents5.2.1, wEngineLoopsTicksAndEvents5.2.2, by unfold State.Takes State.Runs; decide +kernel⟩,
   ⟨wEngineLoopsTicksAndEvents6.1, wEngineLoopsTicksAndEvents6.2.1, wEngineLoopsTicksAndEvents6.2.2, by unfold State.Takes State.Runs; decide +kernel⟩,
   ⟨wEngineLoopsTicksAndEvents7.1, wEngineLoopsTicksAndEvents7.2.1, wEngineLoopsTicksAndEvents7.2.2, memOk_of _ (by decide +kernel), (by unfold State.Takes State.Runs; decide +kernel), (by decide +kernel), (by decide +kernel), (by decide +kernel), (by decide +kernel)⟩,
   ⟨wEngineLoopsTicksAndEvents8.1, wEngineLoopsTicksAndEvents8.2.1, wEngineLoopsTicksAndEvents8.2.2, memOk_of _ (by decide +kernel), (by unfold State.Takes State.Runs; decide +kernel), (by decide +kernel), (by decide +kernel), (by decide +kernel), (by decide +kernel)⟩,
   ⟨wEngineLoopsTicksAndEvents9.1, wEngineLoopsTicksAndEvents9.2.1, wEngineLoopsTicksAndEvents9.2.2, by unfold State.Takes State.Runs; decide +kernel⟩,
   ⟨wEngineLoopsTicksAndEvents10.1, wEngineLoopsTicksAndEvents10.2.1, wEngineLoopsTicksAndEvents10.2.2.1, wEngineLoopsTicksAndEvents10.2.2.2, by unfold State.Takes State.Runs; decide +kernel⟩,
   ⟨wEngineLoopsTicksAndEvents11.1, wEngineLoopsTicksAndEvents11.2.1, wEngineLoopsTicksAndEvents11.2.2, by decide +kernel⟩,
   ⟨wEngineLoopsTicksAndEvents12.1, wEngineLoopsTicksAndEvents12.2.1, wEngineLoopsTicksAndEvents12.2.2, by decide +kernel⟩,
   ⟨wEngineLoopsTicksAndEvents13.1, wEngineLoopsTicksAndEvents13.2.1, wEngineLoopsTicksAndEvents13.2.2.1, wEngineLoopsTicksAndEvents13.2.2.2, by decide +kernel⟩⟩
def wLineTicks0 : PortId × Nat × State :=
  let p : PortId := 0
  let t0 : Nat := 0
  let s : State := State.reset
  (p, t0, s)
def wLineTicks1 : PortId × Nat × State × Int :=
  let p : PortId := 0
  let t0 : Nat := 0
  let s : State := State.reset
  let k : Int := 0
  let u := unitOfPort p
  let s := { s with regs := [], mgt := { s.mgt with resetBusy := false }, faults := [], groups := s.groups.map (fun (g : Group) => { g with armed := none }) }
  let s := s.updUnit u (fun x => { x with st := .running, prior := .running, cut := none, haltNext := false, current := some 3 })
  let q0 : Nat := 0
  let q1 : Nat := 0
  let q2 : Nat := 0
  let q3 : Nat := 0
  let s := ((s.setReg p.val Off.PRT_LTG_CFG (200 * 65536)).setReg p.val Off.PRT_LTG_PMIN 250000).setReg 0 (Off.CLK_PPLL_STAT + 16 * p.val) 1
  let lr : LineRec := dLineRec
  let s := s.updPort p (fun x => { x with head := { x.head with gone := false }, gap := none, prc := (if q1 == 0 then none else x.prc), lostRec := [(1, 2)], splice := { x.splice with overlapTo := none }, ltg := { x.ltg with sA := 0, kA := 0, rA := 0, num := 1, den := 1, t0 := s.now, h := q3, behind := false, held := none, drains := 0, ticked := (q0 != 0), tLine := (if q0 == 1 then s.now else 0) } })
  let s := s.updEng (gateEng p) (fun x => { x with run := (if q2 == 0 then .waiting else .idle) })
  let t0 := s.now + 5 * 6
  let s := s.updEng (pipeEng p) (fun x => { x with old := false })
  let s := { s with tks := { s.tks with st := 1, cues := [] } }
  let s := s.updPort p (fun x => { x with cap := (if q1 == 1 then none else some { lr with splice := false }) })
  let k := (s.at t0).lineNow p
  (p, t0, s, k)
def wLineTicks2 : PortId × Nat × State × Int :=
  let p : PortId := 0
  let t0 : Nat := 0
  let s : State := State.reset
  let k : Int := 0
  let u := unitOfPort p
  let s := { s with regs := [], mgt := { s.mgt with resetBusy := false }, faults := [], groups := s.groups.map (fun (g : Group) => { g with armed := none }) }
  let s := s.updUnit u (fun x => { x with st := .running, prior := .running, cut := none, haltNext := false, current := some 3 })
  let q0 : Nat := 0
  let q1 : Nat := 0
  let q2 : Nat := 0
  let q3 : Nat := 0
  let s := ((s.setReg p.val Off.PRT_LTG_CFG (200 * 65536)).setReg p.val Off.PRT_LTG_PMIN 250000).setReg 0 (Off.CLK_PPLL_STAT + 16 * p.val) 1
  let lr : LineRec := dLineRec
  let s := s.updPort p (fun x => { x with head := { x.head with gone := false }, gap := none, prc := (if q1 == 0 then none else x.prc), lostRec := [(1, 2)], splice := { x.splice with overlapTo := none }, ltg := { x.ltg with sA := 0, kA := 0, rA := 0, num := 1, den := 1, t0 := s.now, h := q3, behind := false, held := none, drains := 0, ticked := (q0 != 0), tLine := (if q0 == 1 then s.now else 0) } })
  let s := s.updEng (gateEng p) (fun x => { x with run := (if q2 == 0 then .waiting else .idle) })
  let t0 := s.now + 5 * 6
  let s := s.updEng (pipeEng p) (fun x => { x with old := false })
  let s := { s with tks := { s.tks with st := 1, cues := [] } }
  let s := s.setReg 0 (Off.CLK_PPLL_STAT + 16 * p.val) 0
  let k := (s.at t0).lineNow p
  (p, t0, s, k)
def wLineTicks3 : PortId × Nat × State × Int :=
  let p : PortId := 0
  let t0 : Nat := 0
  let s : State := State.reset
  let k : Int := 0
  let u := unitOfPort p
  let s := { s with regs := [], mgt := { s.mgt with resetBusy := false }, faults := [], groups := s.groups.map (fun (g : Group) => { g with armed := none }) }
  let s := s.updUnit u (fun x => { x with st := .running, prior := .running, cut := none, haltNext := false, current := some 3 })
  let q0 : Nat := 0
  let q1 : Nat := 0
  let q2 : Nat := 0
  let q3 : Nat := 0
  let s := ((s.setReg p.val Off.PRT_LTG_CFG (200 * 65536)).setReg p.val Off.PRT_LTG_PMIN 250000).setReg 0 (Off.CLK_PPLL_STAT + 16 * p.val) 1
  let lr : LineRec := dLineRec
  let s := s.updPort p (fun x => { x with head := { x.head with gone := false }, gap := none, prc := (if q1 == 0 then none else x.prc), lostRec := [(1, 2)], splice := { x.splice with overlapTo := none }, ltg := { x.ltg with sA := 0, kA := 0, rA := 0, num := 1, den := 1, t0 := s.now, h := q3, behind := false, held := none, drains := 0, ticked := (q0 != 0), tLine := (if q0 == 1 then s.now else 0) } })
  let s := s.updEng (gateEng p) (fun x => { x with run := (if q2 == 0 then .waiting else .idle) })
  let t0 := s.now + 5 * 6
  let s := s.updEng (pipeEng p) (fun x => { x with old := false })
  let s := { s with tks := { s.tks with st := 1, cues := [] } }
  let s := s.setReg p.val Off.PRT_LTG_PMIN 250000000
  let s := s.updPort p (fun x => { x with ltg := { x.ltg with ticked := true, tLine := t0 - 1 } })
  let k := (s.at t0).lineNow p
  (p, t0, s, k)
def wLineTicks4 : CtxId × Word × State × State × PortId :=
  let c : CtxId := 0
  let v : Word := 0
  let s : State := State.reset
  let r : State := State.reset
  let p : PortId := 0
  let q : Nat := 0
  let s := own s
  let s := s.updCtx c (fun x => { x with selPort := BitVec.ofNat 32 p.val })
  let u := unitOfPort p
  let s := { s with regs := [], mgt := { s.mgt with resetBusy := false }, faults := [], groups := s.groups.map (fun (g : Group) => { g with armed := none }) }
  let s := s.updUnit u (fun x => { x with st := .running, prior := .running, cut := none, haltNext := false, current := some 3 })
  let q0 : Nat := 0
  let q1 : Nat := 0
  let q2 : Nat := 0
  let q3 : Nat := 0
  let s := ((s.setReg p.val Off.PRT_LTG_CFG (200 * 65536)).setReg p.val Off.PRT_LTG_PMIN 250000).setReg 0 (Off.CLK_PPLL_STAT + 16 * p.val) 1
  let lr : LineRec := dLineRec
  let s := s.updPort p (fun x => { x with head := { x.head with gone := false }, gap := none, prc := (if q1 == 0 then none else x.prc), lostRec := [(1, 2)], splice := { x.splice with overlapTo := none }, ltg := { x.ltg with sA := 0, kA := 0, rA := 0, num := 1, den := 1, t0 := s.now, h := q3, behind := false, held := none, drains := 0, ticked := (q0 != 0), tLine := (if q0 == 1 then s.now else 0) } })
  let s := s.updEng (gateEng p) (fun x => { x with run := (if q2 == 0 then .waiting else .idle) })
  let t0 := s.now + 5 * 6
  let s := s.updEng (pipeEng p) (fun x => { x with old := false })
  let s := { s with tks := { s.tks with st := 1, cues := [] } }
  let s := s.setReg p.val Off.PRT_LTG_CFG (200 * 65536 + (if q == 0 then 0 else 5))
  let s := (s.updLtg p (fun x => { x with hostTicks := 5 })).updPort p (fun x => { x with cap := none })
  let r := s.updLtg p (fun x => { x with hostTicks := x.hostTicks + 1 })
  (c, v, s, r, p)
def wLineTicks5 : PortId × Nat × State × Int × Int :=
  let p : PortId := 0
  let t0 : Nat := 0
  let s : State := State.reset
  let k : Int := 0
  let y : Int := 0
  let u := unitOfPort p
  let s := { s with regs := [], mgt := { s.mgt with resetBusy := false }, faults := [], groups := s.groups.map (fun (g : Group) => { g with armed := none }) }
  let s := s.updUnit u (fun x => { x with st := .running, prior := .running, cut := none, haltNext := false, current := some 3 })
  let q0 : Nat := 0
  let q1 : Nat := 0
  let q2 : Nat := 0
  let q3 : Nat := 0
  let s := ((s.setReg p.val Off.PRT_LTG_CFG (200 * 65536)).setReg p.val Off.PRT_LTG_PMIN 250000).setReg 0 (Off.CLK_PPLL_STAT + 16 * p.val) 1
  let lr : LineRec := dLineRec
  let s := s.updPort p (fun x => { x with head := { x.head with gone := false }, gap := none, prc := (if q1 == 0 then none else x.prc), lostRec := [(1, 2)], splice := { x.splice with overlapTo := none }, ltg := { x.ltg with sA := 0, kA := 0, rA := 0, num := 1, den := 1, t0 := s.now, h := q3, behind := false, held := none, drains := 0, ticked := (q0 != 0), tLine := (if q0 == 1 then s.now else 0) } })
  let s := s.updEng (gateEng p) (fun x => { x with run := (if q2 == 0 then .waiting else .idle) })
  let t0 := s.now + 5 * 6
  let s := s.updEng (pipeEng p) (fun x => { x with old := false })
  let s := { s with tks := { s.tks with st := 1, cues := [] } }
  let s := s.updPort p (fun x => { x with cap := (if q1 == 1 then none else some { lr with splice := false }), ltg := { x.ltg with held := some 5, drains := 1, tDrain := 0 } })
  let y : Int := 5
  let k := max y ((s.at t0).lineNow p)
  let t0 := t0 + 1000000000
  let k := max y ((s.at t0).lineNow p)
  (p, t0, s, k, y)
def wLineTicks6 : PortId × Nat × State :=
  let p : PortId := 0
  let t0 : Nat := 0
  let s : State := State.reset
  (p, t0, s)
/-- The conditions of each clause of `Obligations.LineTicks` are met. -/
theorem test_meets_LineTicks :
    (∃ (p : PortId) (t0 : Nat) (s : State), s.counting p = false) ∧
    (∃ (p : PortId) (t0 : Nat) (s : State) (k : Int), (s.MemOk) ∧ (k = (s.at t0).lineNow p) ∧ (s.portState p = .running) ∧ (s.mgt.resetBusy = false) ∧ (s.pllLock p = true) ∧ ((s.unit (unitOfPort p)).haltNext = false) ∧ ((s.unit (unitOfPort p)).cut = none) ∧ ((s.port p).head.gone = false) ∧ ((s.port p).splice.overlapTo = none) ∧ (∀ g : GroupId, s.groups[g].armed = none) ∧ ((s.eng (gateEng p)).run ≠ .running) ∧ ((s.port p).cap.elim true (fun l => !l.splice) = true) ∧ ((s.port p).ltg.held = none) ∧ ((s.port p).ltg.h < k) ∧ ((s.port p).ltg.drains = 0) ∧ ((s.port p).ltg.ticked = true → s.pmin p ≤ (max s.now t0 - (s.port p).ltg.tLine) * 100)) ∧
    (∃ (p : PortId) (t0 : Nat) (s : State) (k : Int), (s.MemOk) ∧ (k = (s.at t0).lineNow p) ∧ (s.portState p = .running) ∧ (s.mgt.resetBusy = false) ∧ (∀ g : GroupId, s.groups[g].armed = none) ∧ ((s.port p).splice.overlapTo = none) ∧ (s.pllLock p = false) ∧ ((s.port p).ltg.held = none) ∧ ((s.port p).ltg.h < k)) ∧
    (∃ (p : PortId) (t0 : Nat) (s : State) (k : Int), (s.MemOk) ∧ (k = (s.at t0).lineNow p) ∧ (s.portState p = .running) ∧ (s.mgt.resetBusy = false) ∧ (s.pllLock p = true) ∧ (∀ g : GroupId, s.groups[g].armed = none) ∧ ((s.port p).splice.overlapTo = none) ∧ ((s.port p).ltg.held = none) ∧ ((s.port p).ltg.h < k) ∧ ((s.port p).ltg.drains = 0) ∧ ((s.port p).ltg.ticked = true) ∧ ((max s.now t0 - (s.port p).ltg.tLine) * 100 < s.pmin p)) ∧
    (∃ (c : CtxId) (v : Word) (s : State) (r : State) (p : PortId), (s.Serves c Off.PRT_LTG_CMD true) ∧ ((s.ctxs[c]).selPort.toNat = p.val) ∧ (r = s.updLtg p (fun x => { x with hostTicks := x.hostTicks + 1 }))) ∧
    (∃ (p : PortId) (t0 : Nat) (s : State) (k : Int) (y : Int), (s.MemOk) ∧ (s.portState p = .running) ∧ (s.mgt.resetBusy = false) ∧ (s.pllLock p = true) ∧ ((s.unit (unitOfPort p)).haltNext = false) ∧ ((s.unit (unitOfPort p)).cut = none) ∧ ((s.port p).head.gone = false) ∧ ((s.port p).splice.overlapTo = none) ∧ (∀ g : GroupId, s.groups[g].armed = none) ∧ ((s.eng (gateEng p)).run ≠ .running) ∧ ((s.port p).cap.elim true (fun l => !l.splice) = true) ∧ ((s.port p).ltg.held = some y) ∧ ((s.port p).ltg.h < y) ∧ (k = max y ((s.at t0).lineNow p)) ∧ (s.pmin p ≤ (max s.now t0 - (s.port p).ltg.tDrain) * 100) ∧ (0 < (s.port p).ltg.drains)) ∧
    (∃ (p : PortId) (t0 : Nat) (s : State), (s.port p).ltg.held = none ∨ s.counting p = false) :=
  ⟨⟨wLineTicks0.1, wLineTicks0.2.1, wLineTicks0.2.2, by decide +kernel⟩,
   ⟨wLineTicks1.1, wLineTicks1.2.1, wLineTicks1.2.2.1, wLineTicks1.2.2.2, memOk_of _ (by decide +kernel), (by decide +kernel), (by decide +kernel), (by decide +kernel), (by decide +kernel), (by decide +kernel), (by decide +kernel), (by decide +kernel), (by decide +kernel), (by decide +kernel), (by decide +kernel), (by decide +kernel), (by decide +kernel), (by decide +kernel), (by decide +kernel), (by decide +kernel)⟩,
   ⟨wLineTicks2.1, wLineTicks2.2.1, wLineTicks2.2.2.1, wLineTicks2.2.2.2, memOk_of _ (by decide +kernel), (by decide +kernel), (by decide +kernel), (by decide +kernel), (by decide +kernel), (by decide +kernel), (by decide +kernel), (by decide +kernel), (by decide +kernel)⟩,
   ⟨wLineTicks3.1, wLineTicks3.2.1, wLineTicks3.2.2.1, wLineTicks3.2.2.2, memOk_of _ (by decide +kernel), (by decide +kernel), (by decide +kernel), (by decide +kernel), (by decide +kernel), (by decide +kernel), (by decide +kernel), (by decide +kernel), (by decide +kernel), (by decide +kernel), (by decide +kernel), (by decide +kernel)⟩,
   ⟨wLineTicks4.1, wLineTicks4.2.1, wLineTicks4.2.2.1, wLineTicks4.2.2.2.1, wLineTicks4.2.2.2.2, by unfold State.Serves; decide +kernel⟩,
   ⟨wLineTicks5.1, wLineTicks5.2.1, wLineTicks5.2.2.1, wLineTicks5.2.2.2.1, wLineTicks5.2.2.2.2, memOk_of _ (by decide +kernel), (by decide +kernel), (by decide +kernel), (by decide +kernel), (by decide +kernel), (by decide +kernel), (by decide +kernel), (by decide +kernel), (by decide +kernel), (by decide +kernel), (by decide +kernel), (by decide +kernel), (by decide +kernel), (by decide +kernel), (by decide +kernel), (by decide +kernel)⟩,
   ⟨wLineTicks6.1, wLineTicks6.2.1, wLineTicks6.2.2, by decide +kernel⟩⟩
def wDrainAndProcess0 : PortId × Nat × State :=
  let p : PortId := 0
  let t0 : Nat := 0
  let s : State := State.reset
  (p, t0, s)
def wDrainAndProcess1 : PortId × Nat × State :=
  let p : PortId := 0
  let t0 : Nat := 0
  let s : State := State.reset
  let u := unitOfPort p
  let s := { s with regs := [], mgt := { s.mgt with resetBusy := false }, faults := [], groups := s.groups.map (fun (g : Group) => { g with armed := none }) }
  let s := s.updUnit u (fun x => { x with st := .running, prior := .running, cut := none, haltNext := false, current := some 3 })
  let q0 : Nat := 0
  let q1 : Nat := 0
  let q2 : Nat := 0
  let q3 : Nat := 0
  let s := ((s.setReg p.val Off.PRT_LTG_CFG (200 * 65536)).setReg p.val Off.PRT_LTG_PMIN 250000).setReg 0 (Off.CLK_PPLL_STAT + 16 * p.val) 1
  let lr : LineRec := dLineRec
  let s := s.updPort p (fun x => { x with head := { x.head with gone := false }, gap := none, prc := (if q1 == 0 then none else x.prc), lostRec := [(1, 2)], splice := { x.splice with overlapTo := none }, ltg := { x.ltg with sA := 0, kA := 0, rA := 0, num := 1, den := 1, t0 := s.now, h := q3, behind := false, held := none, drains := 0, ticked := (q0 != 0), tLine := (if q0 == 1 then s.now else 0) } })
  let s := s.updEng (gateEng p) (fun x => { x with run := (if q2 == 0 then .waiting else .idle) })
  let t0 := s.now + 5 * 6
  let s := s.updEng (pipeEng p) (fun x => { x with old := false })
  let s := { s with tks := { s.tks with st := 1, cues := [] } }
  let s := s.updUnit u (fun x => { x with st := (if q2 == 0 then .draining else .running) })
  let s := s.updPort p (fun x => { x with cap := (if q1 == 1 then none else some { lr with splice := false }), ltg := { x.ltg with ticked := true, tLine := 0, tDrain := 0, drains := q0 % 2 } })
  let t0 := t0 + 300000
  (p, t0, s)
def wDrainAndProcess2 : PortId × State × LineRec :=
  let p : PortId := 0
  let s : State := State.reset
  let l : LineRec := dLineRec
  let l := { l with begun := false, dropped := false }
  let s := s.updPort p (fun x => { x with prc := some l })
  let s := { s with faults := [{ kind := 1, unit := p.val, code := 4, arg := 0, arg2 := 0, time := 0 }] }
  (p, s, l)
def wDrainAndProcess3 : PortId × State :=
  let p : PortId := 0
  let s : State := State.reset
  let l : LineRec := dLineRec
  let q : Nat := 0
  let s := s.updPort p (fun x => { x with prc := (if q == 0 then none else some l) })
  let s := s.updEng (pipeEng p) (fun x => { x with run := (if q == 1 then .waiting else .idle) })
  (p, s)
/-- The conditions of each clause of `Obligations.DrainAndProcess` are met. -/
theorem test_meets_DrainAndProcess :
    (∃ (p : PortId) (t0 : Nat) (s : State), (s.at t0).drainDue p = false) ∧
    (∃ (p : PortId) (t0 : Nat) (s : State), ((s.at t0).drainDue p = true) ∧ ((s.unit (unitOfPort p)).haltNext = false) ∧ ((s.port p).head.gone = false) ∧ ((s.port p).cap.elim true (fun l => !l.splice) = true) ∧ (s.portState p = .running ∨ s.portState p = .draining) ∧ ((s.unit (unitOfPort p)).cut = none)) ∧
    (∃ (p : PortId) (s : State) (l : LineRec), (s.MemOk) ∧ (s.hasFault p 4 = true) ∧ ((s.port p).prc = some l) ∧ (l.begun = false) ∧ (l.dropped = false)) ∧
    (∃ (p : PortId) (s : State), s.hasFault p 4 = false) :=
  ⟨⟨wDrainAndProcess0.1, wDrainAndProcess0.2.1, wDrainAndProcess0.2.2, by decide +kernel⟩,
   ⟨wDrainAndProcess1.1, wDrainAndProcess1.2.1, wDrainAndProcess1.2.2, by decide +kernel⟩,
   ⟨wDrainAndProcess2.1, wDrainAndProcess2.2.1, wDrainAndProcess2.2.2, memOk_of _ (by decide +kernel), (by decide +kernel), (by decide +kernel), (by decide +kernel), (by decide +kernel)⟩,
   ⟨wDrainAndProcess3.1, wDrainAndProcess3.2, by decide +kernel⟩⟩
def wMastersAndGears0 : Fin 2 × Nat × Bool × Bool × Bool × Nat × State :=
  let m : Fin 2 := 1
  let t0 : Nat := 39
  let a : Bool := true
  let b : Bool := true
  let z : Bool := false
  let width : Nat := 28
  let s : State := State.reset
  let z := s.mot.mZ[m]
  let q : Nat := 0
  let width := width % 40
  let s := { s with regs := [] }.setReg 0 (Off.CLK_BANK + 4 * 17) 0x80000000
  let s := (s.setReg 0 (Off.MOT_MCFG0 + 4 * m.val) (q + 256 * 5))
  let s := { s with groups := s.groups.map (fun (g : Group) => { g with armed := none }), tks := { s.tks with cues := [] }, ports := s.ports.map (fun (x : PortSt) => { x with ltg := { x.ltg with armed := false } }) }
  (m, t0, a, b, z, width, s)
def wMastersAndGears1 : Fin 2 × Nat × Bool × Bool × Bool × Nat × State :=
  let m : Fin 2 := 0
  let t0 : Nat := 0
  let a : Bool := false
  let b : Bool := false
  let z : Bool := false
  let width : Nat := 0
  let s : State := State.reset
  let z := s.mot.mZ[m]
  let width := width % 5
  let s := ({ s with regs := [] }.setReg 0 (Off.CLK_BANK + 4 * 17) 0x80000000).setReg 0 (Off.MOT_MCFG0 + 4 * m.val) (256 * 5)
  let s := { s with groups := s.groups.map (fun (g : Group) => { g with armed := none }), tks := { s.tks with cues := [] }, ports := s.ports.map (fun (x : PortSt) => { x with ltg := { x.ltg with armed := false } }) }
  (m, t0, a, b, z, width, s)
def wMastersAndGears2 : Fin 2 × Nat × Bool × Bool × Bool × Nat × State :=
  let m : Fin 2 := 0
  let t0 : Nat := 0
  let a : Bool := false
  let b : Bool := false
  let z : Bool := false
  let width : Nat := 0
  let s : State := State.reset
  let s := { s with regs := [] }
  (m, t0, a, b, z, width, s)
def wMastersAndGears3 : CtxId × Word × State × PortId :=
  let c : CtxId := 0
  let v : Word := 0
  let s : State := State.reset
  let p : PortId := 0
  let q : Nat := 0
  let s := own s
  let s := s.updCtx c (fun x => { x with selPort := BitVec.ofNat 32 p.val })
  let s := (((s.setReg p.val Off.PRT_GEAR_ANUM 3).setReg p.val Off.PRT_GEAR_ADEN q).setReg p.val Off.PRT_GEAR_APOS_LO 500).setReg 0 Off.MOT_MCNT1_LO 900
  let s := s.updPort p (fun x => { x with ltg := { x.ltg with num := 1, den := 1 } })
  (c, v, s, p)
def wMastersAndGears4 : CtxId × Word × State × PortId :=
  let c : CtxId := 0
  let v : Word := 0
  let s : State := State.reset
  let p : PortId := 0
  let s := own s
  let s := s.updCtx c (fun x => { x with selPort := BitVec.ofNat 32 p.val })
  (c, v, s, p)
def wMastersAndGears5 : PortId × State :=
  let p : PortId := 0
  let s : State := State.reset
  let q : Nat := 0
  let s := (s.setReg p.val Off.PRT_GEAR_LCFG (if q == 0 then 0 else 2 ^ 31 + 33)).updPort p (fun x => { x with ltg := { x.ltg with latchRaw := (if q == 1 then none else some (true, 1234, 5, 77)) } })
  (p, s)
/-- The conditions of each clause of `Obligations.MastersAndGears` are met. -/
theorem test_meets_MastersAndGears :
    (∃ (m : Fin 2) (t0 : Nat) (a : Bool) (b : Bool) (z : Bool) (width : Nat) (s : State), (s.MemOk) ∧ (s.bankUp 17 = true) ∧ (s.rf 0 (Off.MOT_MCFG0 + 4 * m.val) 11 8 ≤ width) ∧ (z = s.mot.mZ[m]) ∧ (∀ g : GroupId, s.groups[g].armed = none) ∧ (∀ p : PortId, (s.port p).ltg.armed = false) ∧ (s.tks.cues = [])) ∧
    (∃ (m : Fin 2) (t0 : Nat) (a : Bool) (b : Bool) (z : Bool) (width : Nat) (s : State), (s.bankUp 17 = true) ∧ (width < s.rf 0 (Off.MOT_MCFG0 + 4 * m.val) 11 8) ∧ (z = s.mot.mZ[m]) ∧ (∀ g : GroupId, s.groups[g].armed = none) ∧ (∀ p : PortId, (s.port p).ltg.armed = false) ∧ (s.tks.cues = [])) ∧
    (∃ (m : Fin 2) (t0 : Nat) (a : Bool) (b : Bool) (z : Bool) (width : Nat) (s : State), s.bankUp 17 = false) ∧
    (∃ (c : CtxId) (v : Word) (s : State) (p : PortId), (s.MemOk) ∧ (s.Serves c Off.PRT_GEAR_ARMCTL true) ∧ ((s.ctxs[c]).selPort.toNat = p.val)) ∧
    (∃ (c : CtxId) (v : Word) (s : State) (p : PortId), (s.MemOk) ∧ (s.Serves c Off.PRT_GEAR_LCFG true) ∧ ((s.ctxs[c]).selPort.toNat = p.val)) ∧
    (∃ (p : PortId) (s : State), s.MemOk) :=
  ⟨⟨wMastersAndGears0.1, wMastersAndGears0.2.1, wMastersAndGears0.2.2.1, wMastersAndGears0.2.2.2.1, wMastersAndGears0.2.2.2.2.1, wMastersAndGears0.2.2.2.2.2.1, wMastersAndGears0.2.2.2.2.2.2, memOk_of _ (by decide +kernel), (by decide +kernel), (by decide +kernel), (by decide +kernel), (by decide +kernel), (by decide +kernel), (by decide +kernel)⟩,
   ⟨wMastersAndGears1.1, wMastersAndGears1.2.1, wMastersAndGears1.2.2.1, wMastersAndGears1.2.2.2.1, wMastersAndGears1.2.2.2.2.1, wMastersAndGears1.2.2.2.2.2.1, wMastersAndGears1.2.2.2.2.2.2, by decide +kernel⟩,
   ⟨wMastersAndGears2.1, wMastersAndGears2.2.1, wMastersAndGears2.2.2.1, wMastersAndGears2.2.2.2.1, wMastersAndGears2.2.2.2.2.1, wMastersAndGears2.2.2.2.2.2.1, wMastersAndGears2.2.2.2.2.2.2, by decide +kernel⟩,
   ⟨wMastersAndGears3.1, wMastersAndGears3.2.1, wMastersAndGears3.2.2.1, wMastersAndGears3.2.2.2, memOk_of _ (by decide +kernel), (by unfold State.Serves; decide +kernel), (by decide +kernel)⟩,
   ⟨wMastersAndGears4.1, wMastersAndGears4.2.1, wMastersAndGears4.2.2.1, wMastersAndGears4.2.2.2, memOk_of _ (by decide +kernel), (by unfold State.Serves; decide +kernel), (by decide +kernel)⟩,
   ⟨wMastersAndGears5.1, wMastersAndGears5.2, memOk_of _ (by decide +kernel)⟩⟩
def wMotionTicksAndPacing0 : Nat × State :=
  let t0 : Nat := 0
  let s : State := State.reset
  let s := { s with regs := [], mgt := { s.mgt with resetBusy := false }, mot := { s.mot with paces := s.mot.paces.map (fun (x : PaceSt) => { x with st := 0 }) }, units := s.units.map (fun (x : UnitSt) => { x with cut := none }) }
  let s := { s with axes := s.axes.map (fun (x : AxisSt) => { x with hist := x.hist.take 3, m := 3, shape := 0, home := none }) }
  (t0, s)
def wMotionTicksAndPacing1 : Nat × State × AxisId :=
  let t0 : Nat := 0
  let s : State := State.reset
  let a : AxisId := 0
  let s := { s with regs := [], mgt := { s.mgt with resetBusy := false }, mot := { s.mot with paces := s.mot.paces.map (fun (x : PaceSt) => { x with st := 0 }) }, units := s.units.map (fun (x : UnitSt) => { x with cut := none }) }
  let s := { s with mot := { s.mot with stopOn := false } }
  let s := s.updUnit (unitOfAxis a) (fun x => { x with st := .running })
  let s := s.updEng (axisEng a) (fun x => { x with run := .waiting })
  let s := s.updAxis a (fun x => { x with cmds := [], home := none, v := 0, geared := false, hist := [], m := 1, shape := 0, move := .stop true, gVel := 0, gC := 0, pos := Int.fdiv x.p (2 ^ 32) + x.gBase, held := none })
  (t0, s, a)
def wMotionTicksAndPacing3 : Nat × State :=
  let t0 : Nat := 0
  let s : State := State.reset
  let q : Nat := 0
  let s := { s with regs := [] }
  let s := { s with axes := s.axes.map (fun (x : AxisSt) => { x with gC := (if x.geared then x.gC else 0) }) }
  let s := { s with units := s.units.map (fun (x : UnitSt) => { x with cut := none }) }
  let s := { s with axes := s.axes.map (fun (x : AxisSt) => { x with hist := x.hist.take 3, m := 3, shape := 0, cmds := x.cmds.take 2 }) }
  let s := { s with mot := { s.mot with stopLow := true, stopRun := 1 + s.mot.stopRun % 2, stopOn := false } }
  (t0, s)
def wMotionTicksAndPacing4 : Nat × State :=
  let t0 : Nat := 0
  let s : State := State.reset
  let q : Nat := 0
  let s := { s with regs := [] }
  let s := { s with axes := s.axes.map (fun (x : AxisSt) => { x with gC := (if x.geared then x.gC else 0) }) }
  let s := { s with units := s.units.map (fun (x : UnitSt) => { x with cut := none }) }
  let s := { s with axes := s.axes.map (fun (x : AxisSt) => { x with hist := x.hist.take 3, m := 3, shape := 0, cmds := x.cmds.take 2 }) }
  let s := { s with mot := { s.mot with stopRun := s.mot.stopRun % 2, stopOn := false } }
  (t0, s)
def wMotionTicksAndPacing5 : Nat × State :=
  let t0 : Nat := 0
  let s : State := State.reset
  let q : Nat := 0
  let s := { s with regs := [] }
  let s := { s with axes := s.axes.map (fun (x : AxisSt) => { x with gC := (if x.geared then x.gC else 0) }) }
  let s := { s with units := s.units.map (fun (x : UnitSt) => { x with cut := none }) }
  let s := { s with axes := s.axes.map (fun (x : AxisSt) => { x with hist := x.hist.take 3, m := 3, shape := 0, cmds := x.cmds.take 2 }) }
  let s := { s with mot := { s.mot with stopOn := true, paces := s.mot.paces.map (fun (x : PaceSt) => { x with st := 0 }) } }
  let s := if q == 0 then s else (List.finRange 8).foldl (fun t a => (t.setReg a.val Off.MOT_SW 0).updAxis a (fun x => { x with cmds := [] })) s
  (t0, s)
def wMotionTicksAndPacing6 : CtxId × GroupId × Word × State :=
  let c : CtxId := 0
  let g : GroupId := 0
  let v : Word := 0
  let s : State := State.reset
  let s := own s
  let q : Nat := 0
  let s := if q == 0 then s else { s with regs := [], mot := { s.mot with stopOn := false, paces := s.mot.paces.map (fun (x : PaceSt) => { x with st := 0 }) }, groups := s.groups.map (fun (x : Group) => { x with drive := true }) }.updUnit (unitOfAxis 0) (fun x => { x with st := .running, group := some g.val })
  let s := s.updPort 2 (fun x => { x with splice := { x.splice with leader := true } })
  let s := (s.updUnit (unitOfPort 2) (fun x => { x with st := .running, group := some g.val })).setReg 2 Off.PRT_LTG_CFG 4
  (c, g, v, s)
def wMotionTicksAndPacing7 : CtxId × GroupId × Word × State :=
  let c : CtxId := 0
  let g : GroupId := 0
  let v : Word := 0
  let s : State := State.reset
  let s := own s
  let s := { s with mot := { s.mot with paces := s.mot.paces.map (fun (x : PaceSt) => { x with st := 1 }) } }
  (c, g, v, s)
def wMotionTicksAndPacing8 : CtxId × Word × State × AxisId :=
  let c : CtxId := 0
  let v : Word := 0
  let s : State := State.reset
  let a : AxisId := 0
  let s := own s
  let s := s.updCtx c (fun x => { x with selAxis := BitVec.ofNat 32 a.val })
  let q : Nat := 0
  let s := { s with mstepNext := [(3, 7), (256 + 9, 11), (1000, 2)], mstepNow := [(4, 8), (300, 5), (1900, 1)] }.updAxis a (fun x => { x with tblPend := q == 0 })
  (c, v, s, a)
/-- The conditions of each clause of `Obligations.MotionTicksAndPacing` are met. -/
theorem test_meets_MotionTicksAndPacing :
    (∃ (t0 : Nat) (s : State), (s.MemOk) ∧ (∀ u : UnitId, (s.unit u).cut = none)) ∧
    (∃ (t0 : Nat) (s : State) (a : AxisId), (s.MemOk) ∧ (s.mgt.resetBusy = false) ∧ (∀ u : UnitId, (s.unit u).cut = none) ∧ ((s.axis a).cmds = []) ∧ ((s.axis a).home = none) ∧ ((s.axis a).v = 0) ∧ ((s.axis a).geared = false) ∧ ((s.axis a).hist.all (fun h => h == (s.axis a).p) = true) ∧ ((s.axis a).shape = 0) ∧ (∃ b, (s.axis a).move = .stop b) ∧ ((s.axis a).gVel = 0) ∧ ((s.axis a).gC = 0) ∧ ((s.axis a).pos = Int.fdiv (s.axis a).p (2 ^ 32) + (s.axis a).gBase) ∧ ((s.axis a).held = none) ∧ (s.mot.stopOn = false) ∧ (∀ g : GroupId, (s.mot.paces[g]).st = 0) ∧ (s.arf a Off.MOT_ENC 15 0 = 0) ∧ ((s.unit (unitOfAxis a)).st = .running) ∧ ((s.eng (axisEng a)).run = .waiting)) ∧
    (∃ (t0 : Nat) (s : State), (s.MemOk) ∧ (∀ u : UnitId, (s.unit u).cut = none) ∧ (s.mot.stopLow = true) ∧ (0 < s.mot.stopRun) ∧ (s.mot.stopOn = false)) ∧
    (∃ (t0 : Nat) (s : State), (s.MemOk) ∧ (∀ u : UnitId, (s.unit u).cut = none) ∧ (s.mot.stopLow = false ∨ s.mot.stopRun = 0) ∧ (s.mot.stopOn = false)) ∧
    (∃ (t0 : Nat) (s : State), (s.MemOk) ∧ (∀ u : UnitId, (s.unit u).cut = none) ∧ (s.mot.stopOn = true) ∧ (∀ g : GroupId, (s.mot.paces[g]).st = 0)) ∧
    (∃ (c : CtxId) (g : GroupId) (v : Word) (s : State), (s.MemOk) ∧ (s.Serves c (Off.MOT_GRP_CTL + 64 * g.val) true)) ∧
    (∃ (c : CtxId) (g : GroupId) (v : Word) (s : State), (s.MemOk) ∧ (s.Serves c (Off.MOT_GRP_CTL + 64 * g.val) true) ∧ (s.mot.paces[g].st ≠ 0)) ∧
    (∃ (c : CtxId) (v : Word) (s : State) (a : AxisId), (s.MemOk) ∧ (s.Serves c Off.MOT_MSTEP_CTL true) ∧ ((s.ctxs[c]).selAxis.toNat = a.val)) :=
  ⟨⟨wMotionTicksAndPacing0.1, wMotionTicksAndPacing0.2, memOk_of _ (by decide +kernel), (by decide +kernel)⟩,
   ⟨wMotionTicksAndPacing1.1, wMotionTicksAndPacing1.2.1, wMotionTicksAndPacing1.2.2, memOk_of _ (by decide +kernel), (by decide +kernel), (by decide +kernel), (by decide +kernel), (by decide +kernel), (by decide +kernel), (by decide +kernel), (by decide +kernel), (by decide +kernel), (by decide +kernel), (by decide +kernel), (by decide +kernel), (by decide +kernel), (by decide +kernel), (by decide +kernel), (by decide +kernel), (by decide +kernel), (by decide +kernel), (by decide +kernel)⟩,
   ⟨wMotionTicksAndPacing3.1, wMotionTicksAndPacing3.2, memOk_of _ (by decide +kernel), (by decide +kernel), (by decide +kernel), (by decide +kernel), (by decide +kernel)⟩,
   ⟨wMotionTicksAndPacing4.1, wMotionTicksAndPacing4.2, memOk_of _ (by decide +kernel), (by decide +kernel), (by decide +kernel), (by decide +kernel)⟩,
   ⟨wMotionTicksAndPacing5.1, wMotionTicksAndPacing5.2, memOk_of _ (by decide +kernel), (by decide +kernel), (by decide +kernel), (by decide +kernel)⟩,
   ⟨wMotionTicksAndPacing6.1, wMotionTicksAndPacing6.2.1, wMotionTicksAndPacing6.2.2.1, wMotionTicksAndPacing6.2.2.2, memOk_of _ (by decide +kernel), (by unfold State.Serves; decide +kernel)⟩,
   ⟨wMotionTicksAndPacing7.1, wMotionTicksAndPacing7.2.1, wMotionTicksAndPacing7.2.2.1, wMotionTicksAndPacing7.2.2.2, memOk_of _ (by decide +kernel), (by unfold State.Serves; decide +kernel), (by decide +kernel)⟩,
   ⟨wMotionTicksAndPacing8.1, wMotionTicksAndPacing8.2.1, wMotionTicksAndPacing8.2.2.1, wMotionTicksAndPacing8.2.2.2, memOk_of _ (by decide +kernel), (by unfold State.Serves; decide +kernel), (by decide +kernel)⟩⟩
def wAxisInstructions0 : AxisId × ZscFields × State :=
  let a : AxisId := 0
  let f : ZscFields := dZscFields
  let s : State := State.reset
  let kk : Nat := 0
  let s := running s (axisEng a) kk
  let f := { f with cond := (if kk < 5 then 0 else f.cond % 15#4), rd := 0, ra := 0, rb := f.rb, ext := f.ext &&& 15, imm := f.imm }
  (a, f, s)
def wAxisInstructions1 : AxisId × ZscFields × State :=
  let a : AxisId := 0
  let f : ZscFields := dZscFields
  let s : State := State.reset
  let kk : Nat := 0
  let s := running s (axisEng a) kk
  let f := { f with cond := (if kk < 5 then 0 else f.cond % 15#4), rd := 0, ra := f.ra, rb := f.rb, ext := 0, imm := 0 }
  (a, f, s)
def wAxisInstructions2 : AxisId × ZscFields × State :=
  let a : AxisId := 0
  let f : ZscFields := dZscFields
  let s : State := State.reset
  let kk : Nat := 0
  let s := running s (axisEng a) kk
  let f := { f with cond := (if kk < 5 then 0 else f.cond % 15#4), rd := 0, ra := f.ra, rb := 0, ext := 1, imm := 0 }
  (a, f, s)
def wAxisInstructions3 : AxisId × ZscFields × State :=
  let a : AxisId := 0
  let f : ZscFields := dZscFields
  let s : State := State.reset
  let kk : Nat := 0
  let s := running s (axisEng a) kk
  let f := { f with cond := (if kk < 5 then 0 else f.cond % 15#4), rd := 0, ra := 0, rb := 0, ext := 2, imm := f.imm &&& 0x7C }
  (a, f, s)
def wAxisInstructions4 : AxisId × ZscFields × State :=
  let a : AxisId := 0
  let f : ZscFields := dZscFields
  let s : State := State.reset
  let kk : Nat := 0
  let s := running s (axisEng a) kk
  let f := { f with cond := (if kk < 5 then 0 else f.cond % 15#4), rd := 0, ra := f.ra, rb := 0, ext := 0, imm := 0 }
  (a, f, s)
def wAxisInstructions5 : AxisId × ZscFields × State :=
  let a : AxisId := 0
  let f : ZscFields := dZscFields
  let s : State := State.reset
  let kk : Nat := 0
  let s := running s (axisEng a) kk
  let f := { f with cond := (if kk < 5 then 0 else f.cond % 15#4), rd := 0, ra := 0, rb := 0, ext := f.ext &&& 1, imm := 0 }
  (a, f, s)
def wAxisInstructions6 : AxisId × ZscFields × State :=
  let a : AxisId := 0
  let f : ZscFields := dZscFields
  let s : State := State.reset
  let kk : Nat := 0
  let s := running s (axisEng a) kk
  let f := { f with cond := (if kk < 5 then 0 else f.cond % 15#4), rd := 0, ra := 0, rb := 0, ext := 0, imm := f.imm &&& 0x3FFF }
  (a, f, s)
def wAxisInstructions7 : AxisId × ZscFields × State :=
  let a : AxisId := 0
  let f : ZscFields := dZscFields
  let s : State := State.reset
  let kk : Nat := 0
  let s := running s (axisEng a) kk
  let f := { f with cond := (if kk < 5 then 0 else f.cond % 15#4), rd := 0, ra := 0, rb := 0, ext := f.ext, imm := 0 }
  (a, f, s)
def wAxisInstructions8 : AxisId × ZscFields × State :=
  let a : AxisId := 0
  let f : ZscFields := dZscFields
  let s : State := State.reset
  let kk : Nat := 0
  let s := running s (axisEng a) kk
  let f := { f with cond := (if kk < 5 then 0 else f.cond % 15#4), rd := 0, ra := 0, rb := 0, ext := f.ext &&& 1, imm := 0 }
  (a, f, s)
def wAxisInstructions9 : AxisId × ZscFields × State :=
  let a : AxisId := 0
  let f : ZscFields := dZscFields
  let s : State := State.reset
  let kk : Nat := 0
  let s := running s (axisEng a) kk
  let f := { f with cond := (if kk < 5 then 0 else f.cond % 15#4), rd := 0, ra := 0, rb := 0, ext := 0, imm := 0 }
  (a, f, s)
def wAxisInstructions10 : AxisId × ZscFields × State :=
  let a : AxisId := 0
  let f : ZscFields := dZscFields
  let s : State := State.reset
  let kk : Nat := 0
  let s := running s (axisEng a) kk
  let f := { f with cond := (if kk < 5 then 0 else f.cond % 15#4), rd := 0, ra := f.ra, rb := f.rb, ext := f.ext &&& 3, imm := 0 }
  let q : Nat := 0
  let s := if q == 0 then { s with mot := { s.mot with stopOn := false, paces := s.mot.paces.map (fun (x : PaceSt) => { x with st := 0 }) } }.updAxis a (fun x => { x with held := none, enabled := true, move := .stop true, v := 0, gVel := 0, hist := [] }) else s
  (a, f, s)
def wAxisInstructions11 : AxisId × ZscFields × State :=
  let a : AxisId := 0
  let f : ZscFields := dZscFields
  let s : State := State.reset
  let kk : Nat := 0
  let s := running s (axisEng a) kk
  let f := { f with cond := (if kk < 5 then 0 else f.cond % 15#4), rd := 0, ra := f.ra, rb := f.rb, ext := f.ext &&& 1, imm := 0 }
  let q : Nat := 0
  let s := if q == 0 then { s with mot := { s.mot with stopOn := false, paces := s.mot.paces.map (fun (x : PaceSt) => { x with st := 0 }) } }.updAxis a (fun x => { x with held := none, enabled := true, move := .stop true, v := 0, gVel := 0, hist := [] }) else s
  (a, f, s)
def wAxisInstructions12 : AxisId × ZscFields × State :=
  let a : AxisId := 0
  let f : ZscFields := dZscFields
  let s : State := State.reset
  let kk : Nat := 0
  let s := running s (axisEng a) kk
  let f := { f with cond := (if kk < 5 then 0 else f.cond % 15#4), rd := f.rd, ra := 0, rb := 0, ext := BitVec.ofNat 8 0, imm := 0 }
  (a, f, s)
/-- The conditions of each clause of `Obligations.AxisInstructions` are met. -/
theorem test_meets_AxisInstructions :
    (∃ (a : AxisId) (f : ZscFields) (s : State), s.Takes (axisEng a) 1 { rb := true, imm := true, ext := 0x0F } f) ∧
    (∃ (a : AxisId) (f : ZscFields) (s : State), (s.Takes (axisEng a) 1 { ra := true, rb := true, ext := 3 } f) ∧ (f.ext = 0)) ∧
    (∃ (a : AxisId) (f : ZscFields) (s : State), (s.Takes (axisEng a) 1 { ra := true, ext := 3 } f) ∧ (f.ext = 1)) ∧
    (∃ (a : AxisId) (f : ZscFields) (s : State), (s.Takes (axisEng a) 1 { ra := true, imm := true, ext := 3 } f) ∧ (f.ext = 2) ∧ ((s.eng (axisEng a)).addr f % 4 = 0) ∧ ((s.eng (axisEng a)).addr f < 1024)) ∧
    (∃ (a : AxisId) (f : ZscFields) (s : State), s.Takes (axisEng a) 1 { ra := true } f) ∧
    (∃ (a : AxisId) (f : ZscFields) (s : State), s.Takes (axisEng a) 1 { ext := 1 } f) ∧
    (∃ (a : AxisId) (f : ZscFields) (s : State), s.Takes (axisEng a) 1 { imm := decide (f.imm.toNat < 16384) } f) ∧
    (∃ (a : AxisId) (f : ZscFields) (s : State), s.Takes (axisEng a) 1 { ext := 0xFF } f) ∧
    (∃ (a : AxisId) (f : ZscFields) (s : State), s.Takes (axisEng a) 1 { ext := 1 } f) ∧
    (∃ (a : AxisId) (f : ZscFields) (s : State), s.Takes (axisEng a) 1 {} f) ∧
    (∃ (a : AxisId) (f : ZscFields) (s : State), (s.Takes (axisEng a) 1 { ra := true, rb := true, ext := 3 } f) ∧ ((s.eng (axisEng a)).condTrue f.cond = true)) ∧
    (∃ (a : AxisId) (f : ZscFields) (s : State), (s.Takes (axisEng a) 1 { ra := true, rb := true, ext := 1 } f) ∧ ((s.eng (axisEng a)).condTrue f.cond = true)) ∧
    (∃ (a : AxisId) (f : ZscFields) (s : State), (s.Takes (axisEng a) 1 { rd := true, ext := 0x0F } f) ∧ ((s.eng (axisEng a)).condTrue f.cond = true) ∧ (f.ext.toNat < 12)) :=
  ⟨⟨wAxisInstructions0.1, wAxisInstructions0.2.1, wAxisInstructions0.2.2, by unfold State.Takes State.Runs; decide +kernel⟩,
   ⟨wAxisInstructions1.1, wAxisInstructions1.2.1, wAxisInstructions1.2.2, by unfold State.Takes State.Runs; decide +kernel⟩,
   ⟨wAxisInstructions2.1, wAxisInstructions2.2.1, wAxisInstructions2.2.2, by unfold State.Takes State.Runs; decide +kernel⟩,
   ⟨wAxisInstructions3.1, wAxisInstructions3.2.1, wAxisInstructions3.2.2, by unfold State.Takes State.Runs; decide +kernel⟩,
   ⟨wAxisInstructions4.1, wAxisInstructions4.2.1, wAxisInstructions4.2.2, by unfold State.Takes State.Runs; decide +kernel⟩,
   ⟨wAxisInstructions5.1, wAxisInstructions5.2.1, wAxisInstructions5.2.2, by unfold State.Takes State.Runs; decide +kernel⟩,
   ⟨wAxisInstructions6.1, wAxisInstructions6.2.1, wAxisInstructions6.2.2, by unfold State.Takes State.Runs; decide +kernel⟩,
   ⟨wAxisInstructions7.1, wAxisInstructions7.2.1, wAxisInstructions7.2.2, by unfold State.Takes State.Runs; decide +kernel⟩,
   ⟨wAxisInstructions8.1, wAxisInstructions8.2.1, wAxisInstructions8.2.2, by unfold State.Takes State.Runs; decide +kernel⟩,
   ⟨wAxisInstructions9.1, wAxisInstructions9.2.1, wAxisInstructions9.2.2, by unfold State.Takes State.Runs; decide +kernel⟩,
   ⟨wAxisInstructions10.1, wAxisInstructions10.2.1, wAxisInstructions10.2.2, by unfold State.Takes State.Runs; decide +kernel⟩,
   ⟨wAxisInstructions11.1, wAxisInstructions11.2.1, wAxisInstructions11.2.2, by unfold State.Takes State.Runs; decide +kernel⟩,
   ⟨wAxisInstructions12.1, wAxisInstructions12.2.1, wAxisInstructions12.2.2, by unfold State.Takes State.Runs; decide +kernel⟩⟩
def wMotionInputs0 : AxisId × Nat × Bool × Bool × Bool × Bool × Bool × Nat × State :=
  let a : AxisId := 0
  let t0 : Nat := 0
  let pa : Bool := false
  let pb : Bool := false
  let pz : Bool := false
  let ea : Bool := false
  let eb : Bool := false
  let width : Nat := 0
  let s : State := State.reset
  let q : Nat := 0
  let s := { s with regs := [] }
  let s := (s.setReg a.val Off.MOT_ENC_CFG (q + 256 * 5)).setReg 0 (Off.CLK_BANK + 4 * 17) (if s.free % 4 == 0 then 0 else 0x80000000)
  let ea := pa && s.bankUp 17
  let eb := pb && s.bankUp 17
  let s := s.updAxis a (fun x => { x with encZ := pz && s.bankUp 17, encA := (if q == 0 then ea else x.encA) })
  let width := 5 + width
  (a, t0, pa, pb, pz, ea, eb, width, s)
def wMotionInputs1 : AxisId × Nat × Bool × Bool × Bool × Nat × State :=
  let a : AxisId := 0
  let t0 : Nat := 0
  let pa : Bool := false
  let pb : Bool := false
  let pz : Bool := false
  let width : Nat := 0
  let s : State := State.reset
  let s := { s with regs := [] }
  let s := (s.setReg a.val Off.MOT_ENC_CFG (256 * 9)).setReg 0 (Off.CLK_BANK + 4 * 17) (if s.free % 4 == 0 then 0 else 0x80000000)
  let s := s.updAxis a (fun x => { x with encZ := pz && s.bankUp 17 })
  let width := width % 12
  (a, t0, pa, pb, pz, width, s)
def wMotionInputs2 : AxisId × Nat × Bool × Bool × Bool × Bool × Nat × State :=
  let a : AxisId := 1
  let t0 : Nat := 15
  let pa : Bool := true
  let pb : Bool := false
  let pz : Bool := true
  let ez : Bool := false
  let width : Nat := 32
  let s : State := State.reset
  let s := { s with axes := s.axes.map (fun (x : AxisSt) => { x with latchArm := none }) }
  let s := { s with regs := [] }
  let s := s.setReg 0 (Off.CLK_BANK + 4 * 17) (if s.free % 4 == 0 then 0 else 0x80000000)
  let ez := pz && s.bankUp 17
  let s := s.updAxis a (fun x => { x with encZ := !ez, home := none, encA := pa && s.bankUp 17, encB := pb && s.bankUp 17 })
  (a, t0, pa, pb, pz, ez, width, s)
def wMotionInputs3 : AxisId × Fin 4 × Nat × Bool × Bool × State :=
  let a : AxisId := 0
  let j : Fin 4 := 0
  let t0 : Nat := 0
  let pin : Bool := false
  let level : Bool := false
  let s : State := State.reset
  let s := { s with axes := s.axes.map (fun (x : AxisSt) => { x with latchArm := none }) }
  let s := { s with regs := [] }
  let s := (s.updAxis a (fun x => { x with home := none })).setReg 0 (Off.CLK_BANK + 4 * 16) (if s.free % 4 == 0 then 0 else 0x80000000)
  let level := pin && s.bankUp 16
  (a, j, t0, pin, level, s)
def wMotionInputs6 : AxisId × Fin 2 × Nat × (List (Nat × BitVec 12)) × State :=
  let a : AxisId := 0
  let w : Fin 2 := 0
  let t0 : Nat := 0
  let samples : List (Nat × BitVec 12) := []
  let s : State := State.reset
  let q : Nat := 0
  let q2 : Nat := 0
  let s := (s.updAxis a (fun x => { x with enabled := q != 0, irun := 2047, holdCur := false, wind := x.wind.map (fun (w : Winding) => { w with o := 3, ended := (if q2 == 0 then none else some (100, 400, 700, if q2 == 1 then -1 else 1)) }) })).setReg a.val Off.MOT_CHOP 0xA0030210
  let t0 := if q2 == 2 then t0 else 5000
  let sm : Nat := 0
  let samples : List (Nat × BitVec 12) := (List.range (2 + q2)).map (fun i => (50 + 150 * i, BitVec.ofNat 12 (sm + 977 * i * i)))
  (a, w, t0, samples, s)
def wMotionInputs7 : AxisId × Fin 2 × BitVec 12 × BitVec 12 × State :=
  let a : AxisId := 0
  let w : Fin 2 := 0
  let code0 : BitVec 12 := 0
  let code1 : BitVec 12 := 0
  let s : State := State.reset
  let s := { s with regs := [] }
  let s := s.setReg a.val Off.MOT_OCLIM 40
  let q : Nat := 0
  let s := s.updUnit (unitOfAxis a) (fun x => { x with st := (if q == 0 then .running else x.st), cut := none })
  (a, w, code0, code1, s)
def wMotionInputs8 : AxisId × Nat × State :=
  let a : AxisId := 0
  let t0 : Nat := 0
  let s : State := State.reset
  let q : Nat := 0
  let s := { s with mstepNext := [(3, 7), (256 + 9, 11), (1000, 2)], mstepNow := [(4, 8), (300, 5), (1900, 1)] }.updAxis a (fun x => { x with tblPend := q != 0 })
  (a, t0, s)
/-- The conditions of each clause of `Obligations.MotionInputs` are met. -/
theorem test_meets_MotionInputs :
    (∃ (a : AxisId) (t0 : Nat) (pa : Bool) (pb : Bool) (pz : Bool) (ea : Bool) (eb : Bool) (width : Nat) (s : State), (s.MemOk) ∧ (ea = (pa && s.bankUp 17)) ∧ (eb = (pb && s.bankUp 17)) ∧ ((pz && s.bankUp 17) = (s.axis a).encZ) ∧ (s.arf a Off.MOT_ENC_CFG 11 8 ≤ width)) ∧
    (∃ (a : AxisId) (t0 : Nat) (pa : Bool) (pb : Bool) (pz : Bool) (width : Nat) (s : State), ((pz && s.bankUp 17) = (s.axis a).encZ) ∧ (width < s.arf a Off.MOT_ENC_CFG 11 8)) ∧
    (∃ (a : AxisId) (t0 : Nat) (pa : Bool) (pb : Bool) (pz : Bool) (ez : Bool) (width : Nat) (s : State), (ez = (pz && s.bankUp 17)) ∧ (ez ≠ (s.axis a).encZ) ∧ ((pa && s.bankUp 17) = (s.axis a).encA) ∧ ((pb && s.bankUp 17) = (s.axis a).encB) ∧ (s.arf a Off.MOT_ENC_CFG 11 8 ≤ width) ∧ ((s.axis a).home = none) ∧ (∀ b : AxisId, (s.axis b).latchArm = none) ∧ (∀ p : PortId, s.rf p.val Off.PRT_GEAR_LCFG 31 31 = 0)) ∧
    (∃ (a : AxisId) (j : Fin 4) (t0 : Nat) (pin : Bool) (level : Bool) (s : State), (level = (pin && s.bankUp 16)) ∧ ((s.axis a).home = none) ∧ (∀ b : AxisId, (s.axis b).latchArm = none) ∧ (∀ p : PortId, s.rf p.val Off.PRT_GEAR_LCFG 31 31 = 0)) ∧
    (∃ (a : AxisId) (w : Fin 2) (t0 : Nat) (samples : List (Nat × BitVec 12)) (s : State), s.MemOk) ∧
    (∃ (a : AxisId) (w : Fin 2) (code0 : BitVec 12) (code1 : BitVec 12) (s : State), s.MemOk) ∧
    (∃ (a : AxisId) (t0 : Nat) (s : State), s.MemOk) :=
  ⟨⟨wMotionInputs0.1, wMotionInputs0.2.1, wMotionInputs0.2.2.1, wMotionInputs0.2.2.2.1, wMotionInputs0.2.2.2.2.1, wMotionInputs0.2.2.2.2.2.1, wMotionInputs0.2.2.2.2.2.2.1, wMotionInputs0.2.2.2.2.2.2.2.1, wMotionInputs0.2.2.2.2.2.2.2.2, memOk_of _ (by decide +kernel), (by decide +kernel), (by decide +kernel), (by decide +kernel), (by decide +kernel)⟩,
   ⟨wMotionInputs1.1, wMotionInputs1.2.1, wMotionInputs1.2.2.1, wMotionInputs1.2.2.2.1, wMotionInputs1.2.2.2.2.1, wMotionInputs1.2.2.2.2.2.1, wMotionInputs1.2.2.2.2.2.2, by decide +kernel⟩,
   ⟨wMotionInputs2.1, wMotionInputs2.2.1, wMotionInputs2.2.2.1, wMotionInputs2.2.2.2.1, wMotionInputs2.2.2.2.2.1, wMotionInputs2.2.2.2.2.2.1, wMotionInputs2.2.2.2.2.2.2.1, wMotionInputs2.2.2.2.2.2.2.2, by decide +kernel⟩,
   ⟨wMotionInputs3.1, wMotionInputs3.2.1, wMotionInputs3.2.2.1, wMotionInputs3.2.2.2.1, wMotionInputs3.2.2.2.2.1, wMotionInputs3.2.2.2.2.2, by decide +kernel⟩,
   ⟨wMotionInputs6.1, wMotionInputs6.2.1, wMotionInputs6.2.2.1, wMotionInputs6.2.2.2.1, wMotionInputs6.2.2.2.2, memOk_of _ (by decide +kernel)⟩,
   ⟨wMotionInputs7.1, wMotionInputs7.2.1, wMotionInputs7.2.2.1, wMotionInputs7.2.2.2.1, wMotionInputs7.2.2.2.2, memOk_of _ (by decide +kernel)⟩,
   ⟨wMotionInputs8.1, wMotionInputs8.2.1, wMotionInputs8.2.2, memOk_of _ (by decide +kernel)⟩⟩
def wGateEntries0 : PortId × ZscFields × State :=
  let p : PortId := 0
  let f : ZscFields := dZscFields
  let s : State := State.reset
  let kk : Nat := 0
  let e := gateEng p
  let s := running s e kk
  let f := { f with cond := (if kk < 5 then 0 else f.cond % 15#4), imm := BitVec.ofNat 32 0, ra := (if kk < 4 then 0 else f.ra), ext := f.ext &&& 0x1F, rd := 0, rb := 0 }
  let kk : Nat := 0
  let s := (s.setReg p.val Off.PRT_LTG_PMIN 1000000).setReg 0 (Off.CLK_PPLL_FREQ + 16 * p.val) 0x4000000
  let r := [BitVec.ofNat 32 (0 * 65536 + 0), BitVec.ofNat 32 (0 * 65536 + 0), BitVec.ofNat 32 0]
  let s := s.updEng e (fun x => { x with cyc := 1, g := ((x.g.set 5 (r.getD 0 0)).set 6 (r.getD 1 0)).set 7 (r.getD 2 0) })
  let s := s.updPort p (fun x => { x with gate := { x.gate with queue := if kk == 0 then List.replicate 64 (blankEntry 0 7) else x.gate.queue, samples := kk * 9300 } })
  (p, f, s)
def wGateEntries1 : PortId × ZscFields × State :=
  let p : PortId := 0
  let f : ZscFields := dZscFields
  let s : State := State.reset
  let kk : Nat := 0
  let e := gateEng p
  let s := running s e kk
  let f := { f with cond := (if kk < 5 then 0 else f.cond % 15#4), imm := BitVec.ofNat 32 0, ra := (if kk < 4 then 0 else f.ra), ext := f.ext &&& 0x1F, rd := 7, rb := 5 }
  let kk : Nat := 0
  let s := (s.setReg p.val Off.PRT_LTG_PMIN 1000000).setReg 0 (Off.CLK_PPLL_FREQ + 16 * p.val) 0x4000000
  let r := [BitVec.ofNat 32 (0 * 65536 + 0), BitVec.ofNat 32 (0 * 65536 + 0), BitVec.ofNat 32 0]
  let s := s.updEng e (fun x => { x with cyc := 1, g := ((x.g.set 5 (r.getD 0 0)).set 6 (r.getD 1 0)).set 7 (r.getD 2 0) })
  let s := s.updPort p (fun x => { x with gate := { x.gate with queue := if kk == 0 then List.replicate 64 (blankEntry 0 7) else x.gate.queue, samples := kk * 9300 } })
  (p, f, s)
def wGateEntries2 : PortId × ZscFields × State :=
  let p : PortId := 0
  let f : ZscFields := dZscFields
  let s : State := State.reset
  let kk : Nat := 0
  let e := gateEng p
  let s := running s e kk
  let f := { f with cond := (if kk < 5 then 0 else f.cond % 15#4), imm := BitVec.ofNat 32 0, ra := (if kk < 4 then 0 else f.ra), ext := f.ext &&& 0, rd := 7, rb := 6 }
  let kk : Nat := 0
  let s := (s.setReg p.val Off.PRT_LTG_PMIN 1000000).setReg 0 (Off.CLK_PPLL_FREQ + 16 * p.val) 0x4000000
  let r := [BitVec.ofNat 32 (0 * 65536 + 0), BitVec.ofNat 32 (0 * 65536 + 0), BitVec.ofNat 32 0]
  let s := s.updEng e (fun x => { x with cyc := 1, g := ((x.g.set 5 (r.getD 0 0)).set 6 (r.getD 1 0)).set 7 (r.getD 2 0) })
  let s := s.updPort p (fun x => { x with gate := { x.gate with queue := if kk == 0 then List.replicate 64 (blankEntry 0 7) else x.gate.queue, samples := kk * 9300 } })
  (p, f, s)
def wGateEntries3 : PortId × ZscFields × State :=
  let p : PortId := 0
  let f : ZscFields := dZscFields
  let s : State := State.reset
  let kk : Nat := 0
  let e := gateEng p
  let s := running s e kk
  let f := { f with cond := (if kk < 5 then 0 else f.cond % 15#4), imm := BitVec.ofNat 32 0, ra := (if kk < 4 then 0 else f.ra), ext := f.ext &&& 0, rd := 7, rb := 6 }
  let kk : Nat := 0
  let s := (s.setReg p.val Off.PRT_LTG_PMIN 1000000).setReg 0 (Off.CLK_PPLL_FREQ + 16 * p.val) 0x4000000
  let r := [BitVec.ofNat 32 (0 * 65536 + 0), BitVec.ofNat 32 (0 * 65536 + 0), BitVec.ofNat 32 0]
  let s := s.updEng e (fun x => { x with cyc := 1, g := ((x.g.set 5 (r.getD 0 0)).set 6 (r.getD 1 0)).set 7 (r.getD 2 0) })
  let s := s.updPort p (fun x => { x with gate := { x.gate with queue := if kk == 0 then List.replicate 64 (blankEntry 0 7) else x.gate.queue, samples := kk * 9300 } })
  (p, f, s)
def wGateEntries4 : PortId × ZscFields × State :=
  let p : PortId := 0
  let f : ZscFields := dZscFields
  let s : State := State.reset
  let kk : Nat := 0
  let e := gateEng p
  let s := running s e kk
  let f := { f with cond := (if kk < 5 then 0 else f.cond % 15#4), imm := BitVec.ofNat 32 0, ra := (if kk < 4 then 0 else f.ra), ext := f.ext &&& 0x07, rd := 0, rb := 0 }
  let kk : Nat := 0
  let s := (s.setReg p.val Off.PRT_LTG_PMIN 1000000).setReg 0 (Off.CLK_PPLL_FREQ + 16 * p.val) 0x4000000
  let r := [BitVec.ofNat 32 (0 * 65536 + 0), BitVec.ofNat 32 (0 * 65536 + 0), BitVec.ofNat 32 0]
  let s := s.updEng e (fun x => { x with cyc := 1, g := ((x.g.set 5 (r.getD 0 0)).set 6 (r.getD 1 0)).set 7 (r.getD 2 0) })
  let s := s.updPort p (fun x => { x with gate := { x.gate with queue := if kk == 0 then List.replicate 64 (blankEntry 0 7) else x.gate.queue, samples := kk * 9300 } })
  (p, f, s)
def wGateEntries5 : PortId × ZscFields × State :=
  let p : PortId := 0
  let f : ZscFields := dZscFields
  let s : State := State.reset
  let kk : Nat := 0
  let e := gateEng p
  let s := running s e kk
  let f := { f with cond := (if kk < 5 then 0 else f.cond % 15#4), imm := BitVec.ofNat 32 0, ra := (if kk < 4 then 0 else f.ra), ext := f.ext &&& 0, rd := 0, rb := f.rb }
  let kk : Nat := 0
  let s := (s.setReg p.val Off.PRT_LTG_PMIN 1000000).setReg 0 (Off.CLK_PPLL_FREQ + 16 * p.val) 0x4000000
  let r := [BitVec.ofNat 32 (0 * 65536 + 0), BitVec.ofNat 32 (0 * 65536 + 0), BitVec.ofNat 32 0]
  let s := s.updEng e (fun x => { x with cyc := 1, g := ((x.g.set 5 (r.getD 0 0)).set 6 (r.getD 1 0)).set 7 (r.getD 2 0) })
  let s := s.updPort p (fun x => { x with gate := { x.gate with queue := if kk == 0 then List.replicate 64 (blankEntry 0 7) else x.gate.queue, samples := kk * 9300 } })
  let z : Nat := 0
  let l : LineRec := dLineRec
  let s := s.updPort p (fun x => { x with cap := (if z == 0 then none else some l) })
  (p, f, s)
def wGateEntries6 : PortId × ZscFields × State :=
  let p : PortId := 0
  let f : ZscFields := dZscFields
  let s : State := State.reset
  let kk : Nat := 0
  let e := gateEng p
  let s := running s e kk
  let f := { f with cond := (if kk < 5 then 0 else f.cond % 15#4), imm := BitVec.ofNat 32 0, ra := (if kk < 4 then 0 else f.ra), ext := f.ext &&& 0, rd := f.rd, rb := 0 }
  let kk : Nat := 0
  let s := (s.setReg p.val Off.PRT_LTG_PMIN 1000000).setReg 0 (Off.CLK_PPLL_FREQ + 16 * p.val) 0x4000000
  let r := [BitVec.ofNat 32 (0 * 65536 + 0), BitVec.ofNat 32 (0 * 65536 + 0), BitVec.ofNat 32 0]
  let s := s.updEng e (fun x => { x with cyc := 1, g := ((x.g.set 5 (r.getD 0 0)).set 6 (r.getD 1 0)).set 7 (r.getD 2 0) })
  let s := s.updPort p (fun x => { x with gate := { x.gate with queue := if kk == 0 then List.replicate 64 (blankEntry 0 7) else x.gate.queue, samples := kk * 9300 } })
  let f := { f with ra := 0, imm := 0 }
  (p, f, s)
/-- The conditions of each clause of `Obligations.GateEntries` are met. -/
theorem test_meets_GateEntries :
    (∃ (p : PortId) (f : ZscFields) (s : State), (s.MemOk) ∧ (s.Takes (gateEng p) 1 { ra := true, imm := true, ext := 0x1F } f)) ∧
    (∃ (p : PortId) (f : ZscFields) (s : State), (s.MemOk) ∧ (s.Takes (gateEng p) 1 { rd := true, ra := true, rb := true, imm := true, ext := 0x1F } f)) ∧
    (∃ (p : PortId) (f : ZscFields) (s : State), (s.MemOk) ∧ (s.Takes (gateEng p) 1 { rd := true, ra := true, rb := true, imm := true } f)) ∧
    (∃ (p : PortId) (f : ZscFields) (s : State), (s.MemOk) ∧ (s.Takes (gateEng p) 1 { rd := true, ra := true, rb := true, imm := true } f)) ∧
    (∃ (p : PortId) (f : ZscFields) (s : State), (s.MemOk) ∧ (s.Takes (gateEng p) 1 { ra := true, imm := true, ext := 0x07 } f)) ∧
    (∃ (p : PortId) (f : ZscFields) (s : State), (s.Takes (gateEng p) 1 { ra := true, rb := true, imm := true } f) ∧ ((s.eng (gateEng p)).condTrue f.cond = true)) ∧
    (∃ (p : PortId) (f : ZscFields) (s : State), (s.Takes (gateEng p) 1 { rd := true } f) ∧ ((s.eng (gateEng p)).condTrue f.cond = true)) :=
  ⟨⟨wGateEntries0.1, wGateEntries0.2.1, wGateEntries0.2.2, memOk_of _ (by decide +kernel), (by unfold State.Takes State.Runs; decide +kernel)⟩,
   ⟨wGateEntries1.1, wGateEntries1.2.1, wGateEntries1.2.2, memOk_of _ (by decide +kernel), (by unfold State.Takes State.Runs; decide +kernel)⟩,
   ⟨wGateEntries2.1, wGateEntries2.2.1, wGateEntries2.2.2, memOk_of _ (by decide +kernel), (by unfold State.Takes State.Runs; decide +kernel)⟩,
   ⟨wGateEntries3.1, wGateEntries3.2.1, wGateEntries3.2.2, memOk_of _ (by decide +kernel), (by unfold State.Takes State.Runs; decide +kernel)⟩,
   ⟨wGateEntries4.1, wGateEntries4.2.1, wGateEntries4.2.2, memOk_of _ (by decide +kernel), (by unfold State.Takes State.Runs; decide +kernel)⟩,
   ⟨wGateEntries5.1, wGateEntries5.2.1, wGateEntries5.2.2, by unfold State.Takes State.Runs; decide +kernel⟩,
   ⟨wGateEntries6.1, wGateEntries6.2.1, wGateEntries6.2.2, by unfold State.Takes State.Runs; decide +kernel⟩⟩
def wHeads0 : PortId × Bool × State :=
  let p : PortId := 0
  let ack : Bool := false
  let s : State := State.reset
  let a : Nat := 0
  let z : Nat := 0
  let w : Nat := 0
  let s := s.setReg p.val Off.PRT_HEAD_CTL (if a == 0 then 0 else 0x500)
  let s := s.updPort p (fun x => { x with head := { x.head with missed := z, bankOk := (w != 0) } })
  (p, ack, s)
def wHeads1 : PortId × State :=
  let p : PortId := 0
  let s : State := State.reset
  let a : Nat := 0
  let s := s.updPort p (fun x => { x with head := { x.head with insertAt := (if a == 0 then none else some 100000), reading := false } })
  (p, s)
def wHeads2 : CtxId × Word × State × PortId :=
  let c : CtxId := 0
  let v : Word := 0
  let s : State := State.reset
  let p : PortId := 0
  let s := own s
  let a : Nat := 0
  let s := s.updCtx c (fun x => { x with selPort := BitVec.ofNat 32 p.val })
  let s := s.updPort p (fun x => { x with head := { x.head with reading := (a == 0) } })
  (c, v, s, p)
def wHeads3 : PortId × Bool × List Byte × State :=
  let p : PortId := 0
  let acked : Bool := false
  let bytes : List Byte := []
  let s : State := State.reset
  let a : Nat := 0
  let s := s.updPort p (fun x => { x with head := { x.head with reading := (a != 0) } })
  let bytes := if a == 1 then leBytes 2 0x5A48 ++ [1] ++ bytes else bytes
  (p, acked, bytes, s)
/-- The conditions of each clause of `Obligations.Heads` are met. -/
theorem test_meets_Heads :
    (∃ (p : PortId) (ack : Bool) (s : State), s.MemOk) ∧
    (∃ (p : PortId) (s : State), s.MemOk) ∧
    (∃ (c : CtxId) (v : Word) (s : State) (p : PortId), (s.MemOk) ∧ (s.Serves c Off.PRT_HEAD_CTL true) ∧ ((s.ctxs[c]).selPort.toNat = p.val)) ∧
    (∃ (p : PortId) (acked : Bool) (bytes : List Byte) (s : State), s.MemOk) :=
  ⟨⟨wHeads0.1, wHeads0.2.1, wHeads0.2.2, memOk_of _ (by decide +kernel)⟩,
   ⟨wHeads1.1, wHeads1.2, memOk_of _ (by decide +kernel)⟩,
   ⟨wHeads2.1, wHeads2.2.1, wHeads2.2.2.1, wHeads2.2.2.2, memOk_of _ (by decide +kernel), (by unfold State.Serves; decide +kernel), (by decide +kernel)⟩,
   ⟨wHeads3.1, wHeads3.2.1, wHeads3.2.2.1, wHeads3.2.2.2, memOk_of _ (by decide +kernel)⟩⟩
def wTapSamples0 : PortId × Fin 16 × TapIn × State :=
  let p : PortId := 0
  let t : Fin 16 := 0
  let v : TapIn := dTapIn
  let s : State := State.reset
  (p, t, v, s)
def wTapSamples1 : PortId × Fin 16 × TapIn × State × Nat × Nat :=
  let p : PortId := 1
  let t : Fin 16 := 15
  let v : TapIn := dTapIn
  let s : State := State.reset
  let st : Nat := 15
  let win : Nat := 28
  let s := { s with regs := [] }
  let s := s.updPort p (fun x => { x with cap := x.cap.map (fun (l : LineRec) => { l with dropped := false }), conv := x.conv.map (fun (c : ConvSt) => { c with retired := 0, lost := false }) })
  let dv : Nat := 103
  let de : Nat := 0
  let v : TapIn := { vd := (dv : Int) * 1000 - 1200000, err := (de : Int) - 30 }
  let q0 : Nat := 2
  let q1 : Nat := 1
  let k : Nat := 3
  let lg : Nat := 1
  let k := if lg == 0 then k else k + 8
  let s := s.setReg 0 (Off.CLK_PPLL_FREQ + 16 * p.val) 16777216
  let s := (s.setReg p.val Off.PRT_WATCH (k % 2)).setReg p.val Off.PRT_CONV_CTL (131072 * (k / 2))
  let s := (s.setReg p.val Off.PRT_FE_EN (if q0 == 0 then 0 else 0xFFFF)).setReg p.val Off.PRT_FE_INV (if q1 == 0 then 0 else 0xFFFF)
  let e : EdgeEntry := dEdgeEntry
  let s := s.updPort p (fun x => { x with gate := { x.gate with active := [{ e with kind := 2, mask := 0xFFFF, start := 100, period := 2, count := 40 }] }, conv := x.conv.map (fun (c : ConvSt) => { c with slots := [0,1,3,4], stamps := ((List.range k).map (fun i => 100 + 2 * i)).reverse, watch := SlotSums.empty, bg := SlotSums.empty, prev := (if k % 2 == 0 then none else some (100, 8000)) }) })
  match s.nextStamp p t with
  | some (st,win) =>
    (p, t, v, s, st, win)
  | _ => (0, 0, dTapIn, State.reset, 0, 0)
def wTapSamples2 : PortId × Fin 16 × TapIn × State × Nat × Nat :=
  let p : PortId := 0
  let t : Fin 16 := 0
  let v : TapIn := dTapIn
  let s : State := State.reset
  let st : Nat := 0
  let win : Nat := 0
  let s := { s with regs := [] }
  let s := s.updPort p (fun x => { x with cap := x.cap.map (fun (l : LineRec) => { l with dropped := false }), conv := x.conv.map (fun (c : ConvSt) => { c with retired := 0, lost := false }) })
  let dv : Nat := 0
  let de : Nat := 0
  let v : TapIn := { vd := (dv : Int) * 1000 - 1200000, err := (de : Int) - 30 }
  let q0 : Nat := 0
  let q1 : Nat := 0
  let k : Nat := 0
  let lg : Nat := 0
  let k := if lg == 0 then k else k + 8
  let s := s.setReg 0 (Off.CLK_PPLL_FREQ + 16 * p.val) 16777216
  let s := (s.setReg p.val Off.PRT_WATCH (k % 2)).setReg p.val Off.PRT_CONV_CTL (131072 * (k / 2))
  let s := (s.setReg p.val Off.PRT_FE_EN (if q0 == 0 then 0 else 0xFFFF)).setReg p.val Off.PRT_FE_INV (if q1 == 0 then 0 else 0xFFFF)
  let e : EdgeEntry := dEdgeEntry
  let s := s.updPort p (fun x => { x with gate := { x.gate with active := [{ e with kind := 2, mask := 0xFFFF, start := 100, period := 2, count := 40 }] }, conv := x.conv.map (fun (c : ConvSt) => { c with slots := [0,1,3,4], stamps := ((List.range k).map (fun i => 100 + 2 * i)).reverse, watch := SlotSums.empty, bg := SlotSums.empty, prev := (if k % 2 == 0 then none else some (100, 8000)) }) })
  match s.nextStamp p t with
  | some (st,win) =>
    (p, t, v, s, st, win)
  | _ => (0, 0, dTapIn, State.reset, 0, 0)
def wTapSamples3 : PortId × Fin 16 × TapIn × State × Nat × Nat :=
  let p : PortId := 1
  let t : Fin 16 := 15
  let v : TapIn := dTapIn
  let s : State := State.reset
  let st : Nat := 15
  let win : Nat := 28
  let s := { s with regs := [] }
  let s := s.updPort p (fun x => { x with cap := x.cap.map (fun (l : LineRec) => { l with dropped := false }), conv := x.conv.map (fun (c : ConvSt) => { c with retired := 0, lost := false }) })
  let dv : Nat := 103
  let de : Nat := 0
  let v : TapIn := { vd := (dv : Int) * 1000 - 1200000, err := (de : Int) - 30 }
  let q0 : Nat := 2
  let q1 : Nat := 1
  let k := 8
  let s := s.setReg 0 (Off.CLK_PPLL_FREQ + 16 * p.val) 16777216
  let s := (s.setReg p.val Off.PRT_WATCH (k % 2)).setReg p.val Off.PRT_CONV_CTL (131072 * (k / 2))
  let s := (s.setReg p.val Off.PRT_FE_EN (if q0 == 0 then 0 else 0xFFFF)).setReg p.val Off.PRT_FE_INV (if q1 == 0 then 0 else 0xFFFF)
  let e : EdgeEntry := dEdgeEntry
  let s := s.updPort p (fun x => { x with gate := { x.gate with active := [{ e with kind := 2, mask := 0xFFFF, start := 100, period := 2, count := 40 }] }, conv := x.conv.map (fun (c : ConvSt) => { c with slots := [0,1,3,4], stamps := ((List.range k).map (fun i => 100 + 2 * i)).reverse, watch := SlotSums.empty, bg := SlotSums.empty, prev := (if k % 2 == 0 then none else some (100, 8000)) }) })
  let s := s.setReg 0 (Off.CLK_PPLL_FREQ + 16 * p.val) 0xFFFFFFF
  let l : LineRec := dLineRec
  let s := if 3 == 0 then s else s.updPort p (fun x => { x with cap := some l })
  match s.nextStamp p t with
  | some (st,win) =>
    (p, t, v, s, st, win)
  | _ => (0, 0, dTapIn, State.reset, 0, 0)
def wTapSamples4 : PortId × Fin 16 × TapIn × State × Nat × Nat :=
  let p : PortId := 0
  let t : Fin 16 := 0
  let v : TapIn := dTapIn
  let s : State := State.reset
  let st : Nat := 0
  let win : Nat := 0
  let s := { s with regs := [] }
  let s := s.updPort p (fun x => { x with cap := x.cap.map (fun (l : LineRec) => { l with dropped := false }), conv := x.conv.map (fun (c : ConvSt) => { c with retired := 0, lost := false }) })
  let dv : Nat := 0
  let de : Nat := 0
  let v : TapIn := { vd := (dv : Int) * 1000 - 1200000, err := (de : Int) - 30 }
  let q0 : Nat := 0
  let q1 : Nat := 0
  let k := 8
  let s := s.setReg 0 (Off.CLK_PPLL_FREQ + 16 * p.val) 16777216
  let s := (s.setReg p.val Off.PRT_WATCH (k % 2)).setReg p.val Off.PRT_CONV_CTL (131072 * (k / 2))
  let s := (s.setReg p.val Off.PRT_FE_EN (if q0 == 0 then 0 else 0xFFFF)).setReg p.val Off.PRT_FE_INV (if q1 == 0 then 0 else 0xFFFF)
  let e : EdgeEntry := dEdgeEntry
  let s := s.updPort p (fun x => { x with gate := { x.gate with active := [{ e with kind := 2, mask := 0xFFFF, start := 100, period := 2, count := 40 }] }, conv := x.conv.map (fun (c : ConvSt) => { c with slots := [0,1,3,4], stamps := ((List.range k).map (fun i => 100 + 2 * i)).reverse, watch := SlotSums.empty, bg := SlotSums.empty, prev := (if k % 2 == 0 then none else some (100, 8000)) }) })
  let s := s.setReg 0 (Off.CLK_PPLL_FREQ + 16 * p.val) 0xFFFFFFF
  let l : LineRec := dLineRec
  let s := if 0 == 0 then s else s.updPort p (fun x => { x with cap := some l })
  match s.nextStamp p t with
  | some (st,win) =>
    (p, t, v, s, st, win)
  | _ => (0, 0, dTapIn, State.reset, 0, 0)
/-- The conditions of each clause of `Obligations.TapSamples` are met. -/
theorem test_meets_TapSamples :
    (∃ (p : PortId) (t : Fin 16) (v : TapIn) (s : State), s.nextStamp p t = none) ∧
    (∃ (p : PortId) (t : Fin 16) (v : TapIn) (s : State) (st : Nat) (win : Nat), (s.nextStamp p t = some (st, win)) ∧ (s.slotCount p t.val ≤ (s.port p).conv[t].stamps.length → s.freq p ≤ (st - (s.port p).conv[t].stamps.getD (s.slotCount p t.val - 1) 0) * 2 ^ 24) ∧ (s.inputOn p t.val = true) ∧ (s.inputLost p t = false)) ∧
    (∃ (p : PortId) (t : Fin 16) (v : TapIn) (s : State) (st : Nat) (win : Nat), (s.nextStamp p t = some (st, win)) ∧ (s.slotCount p t.val ≤ (s.port p).conv[t].stamps.length → s.freq p ≤ (st - (s.port p).conv[t].stamps.getD (s.slotCount p t.val - 1) 0) * 2 ^ 24) ∧ (s.inputOn p t.val = false ∨ s.inputLost p t = true)) ∧
    (∃ (p : PortId) (t : Fin 16) (v : TapIn) (s : State) (st : Nat) (win : Nat), (s.MemOk) ∧ (s.nextStamp p t = some (st, win)) ∧ (s.slotCount p t.val ≤ (s.port p).conv[t].stamps.length) ∧ ((st - (s.port p).conv[t].stamps.getD (s.slotCount p t.val - 1) 0) * 2 ^ 24 < s.freq p) ∧ (s.inputOn p t.val = true) ∧ (s.inputLost p t = false)) ∧
    (∃ (p : PortId) (t : Fin 16) (v : TapIn) (s : State) (st : Nat) (win : Nat), (s.MemOk) ∧ (s.nextStamp p t = some (st, win)) ∧ (s.slotCount p t.val ≤ (s.port p).conv[t].stamps.length) ∧ ((st - (s.port p).conv[t].stamps.getD (s.slotCount p t.val - 1) 0) * 2 ^ 24 < s.freq p) ∧ (s.inputOn p t.val = false ∨ s.inputLost p t = true)) :=
  ⟨⟨wTapSamples0.1, wTapSamples0.2.1, wTapSamples0.2.2.1, wTapSamples0.2.2.2, by decide +kernel⟩,
   ⟨wTapSamples1.1, wTapSamples1.2.1, wTapSamples1.2.2.1, wTapSamples1.2.2.2.1, wTapSamples1.2.2.2.2.1, wTapSamples1.2.2.2.2.2, by decide +kernel⟩,
   ⟨wTapSamples2.1, wTapSamples2.2.1, wTapSamples2.2.2.1, wTapSamples2.2.2.2.1, wTapSamples2.2.2.2.2.1, wTapSamples2.2.2.2.2.2, by decide +kernel⟩,
   ⟨wTapSamples3.1, wTapSamples3.2.1, wTapSamples3.2.2.1, wTapSamples3.2.2.2.1, wTapSamples3.2.2.2.2.1, wTapSamples3.2.2.2.2.2, memOk_of _ (by decide +kernel), (by decide +kernel), (by decide +kernel), (by decide +kernel), (by decide +kernel), (by decide +kernel)⟩,
   ⟨wTapSamples4.1, wTapSamples4.2.1, wTapSamples4.2.2.1, wTapSamples4.2.2.2.1, wTapSamples4.2.2.2.2.1, wTapSamples4.2.2.2.2.2, memOk_of _ (by decide +kernel), (by decide +kernel), (by decide +kernel), (by decide +kernel), (by decide +kernel)⟩⟩
def wInvertedInputs0 : PortId × Fin 16 × TapIn × State × Nat × Nat :=
  let p : PortId := 1
  let t : Fin 16 := 15
  let v : TapIn := dTapIn
  let s : State := State.reset
  let st : Nat := 15
  let win : Nat := 28
  let s := { s with regs := [] }
  let s := s.updPort p (fun x => { x with cap := x.cap.map (fun (l : LineRec) => { l with dropped := false }), conv := x.conv.map (fun (c : ConvSt) => { c with retired := 0, lost := false }) })
  let dv : Nat := 103
  let de : Nat := 0
  let v : TapIn := { vd := (dv : Int) * 1000 - 1200000, err := (de : Int) - 30 }
  let q0 : Nat := 2
  let q1 : Nat := 1
  let k : Nat := 3
  let lg : Nat := 1
  let k := if lg == 0 then k else k + 8
  let s := s.setReg 0 (Off.CLK_PPLL_FREQ + 16 * p.val) 16777216
  let s := (s.setReg p.val Off.PRT_WATCH (k % 2)).setReg p.val Off.PRT_CONV_CTL (131072 * (k / 2))
  let s := (s.setReg p.val Off.PRT_FE_EN (if q0 == 0 then 0 else 0xFFFF)).setReg p.val Off.PRT_FE_INV (if q1 == 0 then 0 else 0xFFFF)
  let e : EdgeEntry := dEdgeEntry
  let s := s.updPort p (fun x => { x with gate := { x.gate with active := [{ e with kind := 2, mask := 0xFFFF, start := 100, period := 2, count := 40 }] }, conv := x.conv.map (fun (c : ConvSt) => { c with slots := [0,1,3,4], stamps := ((List.range k).map (fun i => 100 + 2 * i)).reverse, watch := SlotSums.empty, bg := SlotSums.empty, prev := (if k % 2 == 0 then none else some (100, 8000)) }) })
  match s.nextStamp p t with
  | some (st,win) =>
    (p, t, v, s, st, win)
  | _ => (0, 0, dTapIn, State.reset, 0, 0)
def wInvertedInputs1 : PortId × Fin 16 × TapIn × TapIn × State × Nat × Nat :=
  let p : PortId := 1
  let t : Fin 16 := 15
  let v : TapIn := dTapIn
  let v2 : TapIn := dTapIn
  let s : State := State.reset
  let st : Nat := 15
  let win : Nat := 28
  let s := { s with regs := [] }
  let s := s.updPort p (fun x => { x with cap := x.cap.map (fun (l : LineRec) => { l with dropped := false }), conv := x.conv.map (fun (c : ConvSt) => { c with retired := 0, lost := false }) })
  let dv : Nat := 103
  let de : Nat := 0
  let v : TapIn := { vd := (dv : Int) * 1000 - 1200000, err := (de : Int) - 30 }
  let q0 : Nat := 2
  let q1 : Nat := 1
  let k : Nat := 3
  let lg : Nat := 1
  let k := if lg == 0 then k else k + 8
  let s := s.setReg 0 (Off.CLK_PPLL_FREQ + 16 * p.val) 16777216
  let s := (s.setReg p.val Off.PRT_WATCH (k % 2)).setReg p.val Off.PRT_CONV_CTL (131072 * (k / 2))
  let s := (s.setReg p.val Off.PRT_FE_EN (if q0 == 0 then 0 else 0xFFFF)).setReg p.val Off.PRT_FE_INV (if q1 == 0 then 0 else 0xFFFF)
  let e : EdgeEntry := dEdgeEntry
  let s := s.updPort p (fun x => { x with gate := { x.gate with active := [{ e with kind := 2, mask := 0xFFFF, start := 100, period := 2, count := 40 }] }, conv := x.conv.map (fun (c : ConvSt) => { c with slots := [0,1,3,4], stamps := ((List.range k).map (fun i => 100 + 2 * i)).reverse, watch := SlotSums.empty, bg := SlotSums.empty, prev := (if k % 2 == 0 then none else some (100, 8000)) }) })
  match s.nextStamp p t with
  | some (st,win) =>
    let s := s.setReg p.val Off.PRT_FE_INV 0xFFFF
    let v2 : TapIn := { v with vd := v.vd + (dv % 7 : Nat) * 60000 }
    (p, t, v, v2, s, st, win)
  | _ => (0, 0, dTapIn, dTapIn, State.reset, 0, 0)
/-- The conditions of each clause of `Obligations.InvertedInputs` are met. -/
theorem test_meets_InvertedInputs :
    (∃ (p : PortId) (t : Fin 16) (v : TapIn) (s : State) (st : Nat) (win : Nat), (s.nextStamp p t = some (st, win)) ∧ (s.inputOn p t.val = true) ∧ (s.inputLost p t = false)) ∧
    (∃ (p : PortId) (t : Fin 16) (v : TapIn) (v2 : TapIn) (s : State) (st : Nat) (win : Nat), (s.nextStamp p t = some (st, win)) ∧ (s.inputOn p t.val = true) ∧ (s.inputLost p t = false) ∧ (bitN (s.rf p.val Off.PRT_FE_INV 15 0) t.val = true) ∧ (v.vd ≤ v2.vd) ∧ (v.err = v2.err)) :=
  ⟨⟨wInvertedInputs0.1, wInvertedInputs0.2.1, wInvertedInputs0.2.2.1, wInvertedInputs0.2.2.2.1, wInvertedInputs0.2.2.2.2.1, wInvertedInputs0.2.2.2.2.2, by decide +kernel⟩,
   ⟨wInvertedInputs1.1, wInvertedInputs1.2.1, wInvertedInputs1.2.2.1, wInvertedInputs1.2.2.2.1, wInvertedInputs1.2.2.2.2.1, wInvertedInputs1.2.2.2.2.2.1, wInvertedInputs1.2.2.2.2.2.2, by decide +kernel⟩⟩
def wRotationAndCalibration0 : PortId × Fin 16 × State :=
  let p : PortId := 0
  let t : Fin 16 := 0
  let s : State := State.reset
  let s := s.updConv p t (fun x => { x with out := none })
  (p, t, s)
def wRotationAndCalibration1 : PortId × Fin 16 × State × Nat :=
  let p : PortId := 0
  let t : Fin 16 := 0
  let s : State := State.reset
  let o : Nat := 0
  let s := { s with regs := [] }
  let s := s.updPort p (fun x => { x with cap := x.cap.map (fun (l : LineRec) => { l with dropped := false }), conv := x.conv.map (fun (c : ConvSt) => { c with retired := 0, lost := false }) })
  let q0 : Nat := 0
  let q1 : Nat := 0
  let q2 : Nat := 0
  let s := s.setReg p.val Off.PRT_CONV_CTL (if q0 == 0 then 1000 else 66536)
  let s := s.updUnit (unitOfPort p) (fun x => { x with st := if q1 == 0 then .running else .halted })
  let s := s.updConv p t (fun c => { c with out := some (c.watchLog % 5), slots := [0,1,2,3], ready := (q2 == 0), calNow := false })
  let o := (s.port p).conv[t].watchLog % 5
  (p, t, s, o)
def wRotationAndCalibration2 : PortId × Fin 16 × State × Nat :=
  let p : PortId := 3
  let t : Fin 16 := 7
  let s : State := State.reset
  let o : Nat := 13
  let s := { s with regs := [] }
  let s := s.updPort p (fun x => { x with cap := x.cap.map (fun (l : LineRec) => { l with dropped := false }), conv := x.conv.map (fun (c : ConvSt) => { c with retired := 0, lost := false }) })
  let q0 : Nat := 1
  let q1 : Nat := 0
  let q2 : Nat := 0
  let s := s.setReg p.val Off.PRT_CONV_CTL (if q0 == 0 then 1000 else 66536)
  let s := s.updUnit (unitOfPort p) (fun x => { x with st := if q1 == 0 then .running else .halted })
  let s := s.updConv p t (fun c => { c with out := some (c.watchLog % 5), slots := [0,1,2,3], ready := (q2 == 0), calNow := false })
  let o := (s.port p).conv[t].watchLog % 5
  (p, t, s, o)
def wRotationAndCalibration3 : PortId × Fin 16 × State × Nat :=
  let p : PortId := 7
  let t : Fin 16 := 5
  let s : State := State.reset
  let o : Nat := 17
  let s := { s with regs := [] }
  let s := s.updPort p (fun x => { x with cap := x.cap.map (fun (l : LineRec) => { l with dropped := false }), conv := x.conv.map (fun (c : ConvSt) => { c with retired := 0, lost := false }) })
  let q0 : Nat := 1
  let q1 : Nat := 1
  let q2 : Nat := 0
  let s := s.setReg p.val Off.PRT_CONV_CTL (if q0 == 0 then 1000 else 66536)
  let s := s.updUnit (unitOfPort p) (fun x => { x with st := if q1 == 0 then .running else .halted })
  let s := s.updConv p t (fun c => { c with out := some (c.watchLog % 5), slots := [0,1,2,3], ready := (q2 == 0), calNow := false })
  let o := (s.port p).conv[t].watchLog % 5
  (p, t, s, o)
def wRotationAndCalibration4 : PortId × Fin 16 × State × Nat :=
  let p : PortId := 0
  let t : Fin 16 := 0
  let s : State := State.reset
  let o : Nat := 0
  let s := { s with regs := [] }
  let s := s.updPort p (fun x => { x with cap := x.cap.map (fun (l : LineRec) => { l with dropped := false }), conv := x.conv.map (fun (c : ConvSt) => { c with retired := 0, lost := false }) })
  let q0 : Nat := 0
  let q1 : Nat := 0
  let q2 : Nat := 0
  let s := s.setReg p.val Off.PRT_CONV_CTL (if q0 == 0 then 1000 else 66536)
  let s := s.updUnit (unitOfPort p) (fun x => { x with st := if q1 == 0 then .running else .halted })
  let s := s.updConv p t (fun c => { c with out := some (c.watchLog % 5), slots := [0,1,2,3], ready := (q2 == 0), calNow := false })
  let o := (s.port p).conv[t].watchLog % 5
  let s := (s.setReg p.val Off.PRT_CONV_CTL 66536).setReg p.val Off.PRT_FE_EN 0xFFFFFF
  let s := s.updUnit (unitOfPort p) (fun x => { x with st := .halted })
  let s := s.updPort p (fun x => { x with conv := x.conv.map (fun (c : ConvSt) => { c with ready := true, due := true, out := some (c.out.getD 4), retired := 0 }) })
  let s := s.updConv p t (fun c => { c with out := some o })
  (p, t, s, o)
def wRotationAndCalibration5 : PortId × Fin 16 × Nat × Nat × Nat × List Nat × State :=
  let p : PortId := 0
  let t : Fin 16 := 0
  let sLo : Nat := 0
  let sHi : Nat := 0
  let spread : Nat := 0
  let ms : List Nat := []
  let s : State := State.reset
  let s := s.updConv p t (fun x => { x with out := none })
  (p, t, sLo, sHi, spread, ms, s)
def wRotationAndCalibration6 : PortId × Fin 16 × Nat × Nat × Nat × List Nat × State × Nat × (Int × Nat × Int) :=
  let p : PortId := 0
  let t : Fin 16 := 0
  let sLo : Nat := 0
  let sHi : Nat := 0
  let spread : Nat := 0
  let ms : List Nat := []
  let s : State := State.reset
  let o : Nat := 0
  let c : Int × Nat × Int := (0, 0, 0)
  let s := { s with regs := [] }
  let s := s.updPort p (fun x => { x with cap := x.cap.map (fun (l : LineRec) => { l with dropped := false }), conv := x.conv.map (fun (c : ConvSt) => { c with retired := 0, lost := false }) })
  let q0 : Nat := 0
  let q1 : Nat := 0
  let sLo := 256 * 2048 + 0
  let sHi := 256 * 14336 + 0
  let spread : Nat := 0
  let th : Nat := 0
  let ms := (List.range 201).map (fun i => if i ≤ th then 500000 else 540000)
  let s := s.setReg p.val Off.PRT_CONV_CTL (if q0 == 0 then 1000 else 66536)
  let s := s.updUnit (unitOfPort p) (fun x => { x with st := if q1 == 0 then .running else .halted })
  let s := s.updConv p t (fun c => { c with out := some (c.watchLog % 5), slots := [0,1,2,3], ready := false, due := true, calNow := false })
  let o := (s.port p).conv[t].watchLog % 5
  match calibrate sLo sHi spread ms with
  | some c =>
    (p, t, sLo, sHi, spread, ms, s, o, c)
  | _ => (0, 0, 0, 0, 0, [], State.reset, 0, (0, 0, 0))
def wRotationAndCalibration7 : PortId × Fin 16 × Nat × Nat × Nat × List Nat × State × Nat × (Int × Nat × Int) :=
  let p : PortId := 13
  let t : Fin 16 := 10
  let sLo : Nat := 12
  let sHi : Nat := 33
  let spread : Nat := 7
  let ms : List Nat := []
  let s : State := State.reset
  let o : Nat := 4
  let c : Int × Nat × Int := (0, 0, 0)
  let s := { s with regs := [] }
  let s := s.updPort p (fun x => { x with cap := x.cap.map (fun (l : LineRec) => { l with dropped := false }), conv := x.conv.map (fun (c : ConvSt) => { c with retired := 0, lost := false }) })
  let q0 : Nat := 1
  let q1 : Nat := 1
  let sLo := 256 * 2048 + 160
  let sHi := 256 * 14336 + 114
  let spread : Nat := 9
  let th : Nat := 58
  let ms := (List.range 201).map (fun i => if i ≤ th then 500000 else 540000)
  let s := s.setReg p.val Off.PRT_CONV_CTL (if q0 == 0 then 1000 else 66536)
  let s := s.updUnit (unitOfPort p) (fun x => { x with st := if q1 == 0 then .running else .halted })
  let s := s.updConv p t (fun c => { c with out := some (c.watchLog % 5), slots := [0,1,2,3], ready := false, due := true, calNow := false })
  let o := (s.port p).conv[t].watchLog % 5
  match calibrate sLo sHi spread ms with
  | some c =>
    (p, t, sLo, sHi, spread, ms, s, o, c)
  | _ => (0, 0, 0, 0, 0, [], State.reset, 0, (0, 0, 0))
def wRotationAndCalibration8 : PortId × Fin 16 × Nat × Nat × Nat × List Nat × State × Nat :=
  let p : PortId := 0
  let t : Fin 16 := 0
  let sLo : Nat := 0
  let sHi : Nat := 0
  let spread : Nat := 0
  let ms : List Nat := []
  let s : State := State.reset
  let o : Nat := 0
  let s := { s with regs := [] }
  let s := s.updPort p (fun x => { x with cap := x.cap.map (fun (l : LineRec) => { l with dropped := false }), conv := x.conv.map (fun (c : ConvSt) => { c with retired := 0, lost := false }) })
  let q0 : Nat := 0
  let q1 : Nat := 0
  let sLo := 256 * 2048 + 0
  let sHi := 256 * 14336 + 0
  let spread : Nat := 0
  let th : Nat := 300
  let ms := (List.range 201).map (fun i => if i ≤ th then 500000 else 540000)
  let s := s.setReg p.val Off.PRT_CONV_CTL (if q0 == 0 then 1000 else 66536)
  let s := s.updUnit (unitOfPort p) (fun x => { x with st := if q1 == 0 then .running else .halted })
  let s := s.updConv p t (fun c => { c with out := some (c.watchLog % 5), slots := [0,1,2,3], ready := false, due := true, calNow := false })
  let o := (s.port p).conv[t].watchLog % 5
  let s := s.updUnit (unitOfPort p) (fun x => { x with st := .halted, cut := none })
  (p, t, sLo, sHi, spread, ms, s, o)
def wRotationAndCalibration9 : CtxId × Word × State × PortId :=
  let c : CtxId := 0
  let v : Word := 0
  let s : State := State.reset
  let p : PortId := 0
  let s := own s
  let s := s.updCtx c (fun x => { x with selPort := BitVec.ofNat 32 p.val })
  (c, v, s, p)
/-- The conditions of each clause of `Obligations.RotationAndCalibration` are met. -/
theorem test_meets_RotationAndCalibration :
    (∃ (p : PortId) (t : Fin 16) (s : State), (s.port p).conv[t].out = none ∨ (s.port p).conv[t].retired ≠ 0) ∧
    (∃ (p : PortId) (t : Fin 16) (s : State) (o : Nat), ((s.port p).conv[t].out = some o) ∧ ((s.port p).conv[t].retired = 0) ∧ (s.rf p.val Off.PRT_CONV_CTL 16 16 = 0)) ∧
    (∃ (p : PortId) (t : Fin 16) (s : State) (o : Nat), ((s.port p).conv[t].out = some o) ∧ ((s.port p).conv[t].retired = 0) ∧ (s.rf p.val Off.PRT_CONV_CTL 16 16 = 1) ∧ (s.driving p = true ∨ (s.port p).conv[t].ready = false ∨ (s.pairMode p t.val = true ∧ s.rotates p (pairMate t) = true ∧ s.canSwap p (pairMate t) false = false))) ∧
    (∃ (p : PortId) (t : Fin 16) (s : State) (o : Nat), (s.MemOk) ∧ ((s.port p).conv[t].out = some o) ∧ ((s.port p).conv[t].retired = 0) ∧ (s.rf p.val Off.PRT_CONV_CTL 16 16 = 1) ∧ (s.driving p = false) ∧ ((s.pairMode p t.val && s.rotates p (pairMate t)) = false) ∧ ((s.port p).conv[t].ready = true)) ∧
    (∃ (p : PortId) (t : Fin 16) (s : State) (o : Nat), (s.MemOk) ∧ ((s.port p).conv[t].out = some o) ∧ ((s.port p).conv[t].retired = 0) ∧ (s.rf p.val Off.PRT_CONV_CTL 16 16 = 1) ∧ (s.driving p = false) ∧ (s.pairMode p t.val = true) ∧ (s.canSwap p (pairMate t) false = true) ∧ ((s.port p).conv[t].ready = true)) ∧
    (∃ (p : PortId) (t : Fin 16) (sLo : Nat) (sHi : Nat) (spread : Nat) (ms : List Nat) (s : State), (s.port p).conv[t].out = none ∨ (s.port p).conv[t].ready = true) ∧
    (∃ (p : PortId) (t : Fin 16) (sLo : Nat) (sHi : Nat) (spread : Nat) (ms : List Nat) (s : State) (o : Nat) (c : Int × Nat × Int), ((s.port p).conv[t].out = some o) ∧ ((s.port p).conv[t].ready = false) ∧ (calibrate sLo sHi spread ms = some c) ∧ (s.driving p = true)) ∧
    (∃ (p : PortId) (t : Fin 16) (sLo : Nat) (sHi : Nat) (spread : Nat) (ms : List Nat) (s : State) (o : Nat) (c : Int × Nat × Int), (s.MemOk) ∧ ((s.port p).conv[t].out = some o) ∧ ((s.port p).conv[t].ready = false) ∧ (calibrate sLo sHi spread ms = some c) ∧ (s.driving p = false) ∧ ((s.pairMode p t.val && s.rotates p (pairMate t)) = false) ∧ ((s.port p).conv[t].retired = 0) ∧ ((s.port p).conv[t].due = true) ∧ (s.rf p.val Off.PRT_CONV_CTL 16 16 = 1)) ∧
    (∃ (p : PortId) (t : Fin 16) (sLo : Nat) (sHi : Nat) (spread : Nat) (ms : List Nat) (s : State) (o : Nat), (s.MemOk) ∧ ((s.port p).conv[t].out = some o) ∧ ((s.port p).conv[t].ready = false) ∧ (calibrate sLo sHi spread ms = none) ∧ ((s.unit (unitOfPort p)).st = .halted) ∧ ((s.unit (unitOfPort p)).cut = none)) ∧
    (∃ (c : CtxId) (v : Word) (s : State) (p : PortId), (s.MemOk) ∧ (s.Serves c Off.PRT_CONV_CTL true) ∧ ((s.ctxs[c]).selPort.toNat = p.val)) :=
  ⟨⟨wRotationAndCalibration0.1, wRotationAndCalibration0.2.1, wRotationAndCalibration0.2.2, by decide +kernel⟩,
   ⟨wRotationAndCalibration1.1, wRotationAndCalibration1.2.1, wRotationAndCalibration1.2.2.1, wRotationAndCalibration1.2.2.2, by decide +kernel⟩,
   ⟨wRotationAndCalibration2.1, wRotationAndCalibration2.2.1, wRotationAndCalibration2.2.2.1, wRotationAndCalibration2.2.2.2, by decide +kernel⟩,
   ⟨wRotationAndCalibration3.1, wRotationAndCalibration3.2.1, wRotationAndCalibration3.2.2.1, wRotationAndCalibration3.2.2.2, memOk_of _ (by decide +kernel), (by decide +kernel), (by decide +kernel), (by decide +kernel), (by decide +kernel), (by decide +kernel), (by decide +kernel)⟩,
   ⟨wRotationAndCalibration4.1, wRotationAndCalibration4.2.1, wRotationAndCalibration4.2.2.1, wRotationAndCalibration4.2.2.2, memOk_of _ (by decide +kernel), (by decide +kernel), (by decide +kernel), (by decide +kernel), (by decide +kernel), (by decide +kernel), (by decide +kernel), (by decide +kernel)⟩,
   ⟨wRotationAndCalibration5.1, wRotationAndCalibration5.2.1, wRotationAndCalibration5.2.2.1, wRotationAndCalibration5.2.2.2.1, wRotationAndCalibration5.2.2.2.2.1, wRotationAndCalibration5.2.2.2.2.2.1, wRotationAndCalibration5.2.2.2.2.2.2, by decide +kernel⟩,
   ⟨wRotationAndCalibration6.1, wRotationAndCalibration6.2.1, wRotationAndCalibration6.2.2.1, wRotationAndCalibration6.2.2.2.1, wRotationAndCalibration6.2.2.2.2.1, wRotationAndCalibration6.2.2.2.2.2.1, wRotationAndCalibration6.2.2.2.2.2.2.1, wRotationAndCalibration6.2.2.2.2.2.2.2.1, wRotationAndCalibration6.2.2.2.2.2.2.2.2, by decide +kernel⟩,
   ⟨wRotationAndCalibration7.1, wRotationAndCalibration7.2.1, wRotationAndCalibration7.2.2.1, wRotationAndCalibration7.2.2.2.1, wRotationAndCalibration7.2.2.2.2.1, wRotationAndCalibration7.2.2.2.2.2.1, wRotationAndCalibration7.2.2.2.2.2.2.1, wRotationAndCalibration7.2.2.2.2.2.2.2.1, wRotationAndCalibration7.2.2.2.2.2.2.2.2, memOk_of _ (by decide +kernel), (by decide +kernel), (by decide +kernel), (by decide +kernel), (by decide +kernel), (by decide +kernel), (by decide +kernel), (by decide +kernel), (by decide +kernel)⟩,
   ⟨wRotationAndCalibration8.1, wRotationAndCalibration8.2.1, wRotationAndCalibration8.2.2.1, wRotationAndCalibration8.2.2.2.1, wRotationAndCalibration8.2.2.2.2.1, wRotationAndCalibration8.2.2.2.2.2.1, wRotationAndCalibration8.2.2.2.2.2.2.1, wRotationAndCalibration8.2.2.2.2.2.2.2, memOk_of _ (by decide +kernel), (by decide +kernel), (by decide +kernel), (by decide +kernel), (by decide +kernel), (by decide +kernel)⟩,
   ⟨wRotationAndCalibration9.1, wRotationAndCalibration9.2.1, wRotationAndCalibration9.2.2.1, wRotationAndCalibration9.2.2.2, memOk_of _ (by decide +kernel), (by unfold State.Serves; decide +kernel), (by decide +kernel)⟩⟩
def wWatchBackgroundAndClamps0 : PortId × Fin 16 × State :=
  let p : PortId := 0
  let t : Fin 16 := 0
  let s : State := State.reset
  (p, t, s)
def wWatchBackgroundAndClamps1 : PortId × Fin 16 × State :=
  let p : PortId := 0
  let t : Fin 16 := 0
  let s : State := State.reset
  let s := { s with regs := [] }
  let s := s.updPort p (fun x => { x with cap := x.cap.map (fun (l : LineRec) => { l with dropped := false }), conv := x.conv.map (fun (c : ConvSt) => { c with retired := 0, lost := false }) })
  let s := (s.setReg p.val Off.PRT_FE_EN 0xFFFF).setReg p.val Off.PRT_WATCH (64 * 65536 + 0xC01)
  let q := 0
  let n := 4096
  let s := s.updUnit (unitOfPort p) (fun x => { x with st := .running, cut := none })
  let s := s.updPort p (fun x => { x with head := { x.head with gone := false }, pipe := { x.pipe with cap := none } })
  let s := s.updConv p t (fun c => { c with watchLog := 12, slots := [0,1,2,3], watch := { n := List.replicate 8 n, s := List.replicate 8 (n*8000) |>.set 1 (n * (if q == 0 then 8000 else 8900)), a := List.replicate 8 (n*192), q := [], c := [] } })
  (p, t, s)
def wWatchBackgroundAndClamps2 : PortId × Fin 16 × State × LineRec :=
  let p : PortId := 1
  let t : Fin 16 := 15
  let s : State := State.reset
  let l : LineRec := dLineRec
  let s := { s with regs := [] }
  let s := s.updPort p (fun x => { x with cap := x.cap.map (fun (l : LineRec) => { l with dropped := false }), conv := x.conv.map (fun (c : ConvSt) => { c with retired := 0, lost := false }) })
  let s := (s.setReg p.val Off.PRT_FE_EN 0xFFFF).setReg p.val Off.PRT_WATCH (64 * 65536 + 0xC01)
  let q : Nat := 2
  let n := 4096
  let s := s.updUnit (unitOfPort p) (fun x => { x with st := .running, cut := none })
  let s := s.updPort p (fun x => { x with head := { x.head with gone := false }, pipe := { x.pipe with cap := none } })
  let s := s.updConv p t (fun c => { c with watchLog := 12, slots := [0,1,2,3], watch := { n := List.replicate 8 n, s := List.replicate 8 (n*8000) |>.set 1 (n * (if q == 0 then 8000 else 8900)), a := List.replicate 8 (n*192), q := [], c := [] } })
  let l : LineRec := dLineRec
  let l := { l with dropped := false }
  let s := s.updPort p (fun x => { x with cap := some l, conv := x.conv.map (fun (c : ConvSt) => { c with due := false, calNow := false }) })
  (p, t, s, l)
def wWatchBackgroundAndClamps3 : PortId × Fin 16 × State :=
  let p : PortId := 0
  let t : Fin 16 := 0
  let s : State := State.reset
  (p, t, s)
def wWatchBackgroundAndClamps4 : PortId × Fin 16 × State :=
  let p : PortId := 0
  let t : Fin 16 := 0
  let s : State := State.reset
  let s := { s with regs := [] }
  let s := s.updPort p (fun x => { x with cap := x.cap.map (fun (l : LineRec) => { l with dropped := false }), conv := x.conv.map (fun (c : ConvSt) => { c with retired := 0, lost := false }) })
  let s := (s.setReg p.val Off.PRT_FE_EN 0xFFFF).setReg p.val Off.PRT_CONV_CTL (1000 + 131072)
  let q : Nat := 0
  let n := 65536
  let s := s.updConv p t (fun c => { c with slots := [0,1,2,3], coef := List.replicate 5 (0, 32768, 0), bgConv := false, bg := { n := List.replicate 8 n, s := List.replicate 8 (n*8000) |>.set 1 (n * (if q == 0 then 8000 else 8900)), a := List.replicate 8 (n*192), q := List.replicate 8 (n * 300), c := List.replicate 8 n } })
  (p, t, s)
def wWatchBackgroundAndClamps5 : PortId × Fin 16 × State :=
  let p : PortId := 0
  let t : Fin 16 := 0
  let s : State := State.reset
  let s := { s with regs := [] }
  let q : Nat := 0
  let w : Nat := 0
  let s := s.setReg p.val Off.PRT_OV (if q == 0 then 0 else w)
  (p, t, s)
def wWatchBackgroundAndClamps6 : PortId × Fin 16 × State :=
  let p : PortId := 0
  let t : Fin 16 := 0
  let s : State := State.reset
  let s := { s with regs := [] }
  let q : Nat := 0
  let w : Nat := 0
  let s := s.setReg p.val Off.PRT_OV (if q == 0 then 0 else w)
  let s := s.setReg p.val Off.PRT_OV 0xFFFF0000
  (p, t, s)
def wWatchBackgroundAndClamps7 : PortId × Fin 16 × State :=
  let p : PortId := 0
  let t : Fin 16 := 0
  let s : State := State.reset
  let s := { s with regs := [] }
  let q : Nat := 0
  let w : Nat := 0
  let s := s.setReg p.val Off.PRT_OV (if q == 0 then 0 else w)
  (p, t, s)
def wWatchBackgroundAndClamps8 : CtxId × Word × State × PortId :=
  let c : CtxId := 0
  let v : Word := 0
  let s : State := State.reset
  let p : PortId := 0
  let s := own s
  let s := s.updCtx c (fun x => { x with selPort := BitVec.ofNat 32 p.val })
  let s := { s with regs := [] }
  let q : Nat := 0
  let w : Nat := 0
  let s := s.setReg p.val Off.PRT_OV (if q == 0 then 0 else w)
  (c, v, s, p)
/-- The conditions of each clause of `Obligations.WatchBackgroundAndClamps` are met. -/
theorem test_meets_WatchBackgroundAndClamps :
    (∃ (p : PortId) (t : Fin 16) (s : State), s.rf p.val Off.PRT_WATCH 0 0 = 0 ∨ s.inputOn p t.val = false ∨ ((s.port p).conv[t].watch.n.take (s.slotCount p t.val)).any (fun k => decide (k < 2 ^ (s.port p).conv[t].watchLog)) = true) ∧
    (∃ (p : PortId) (t : Fin 16) (s : State), (s.rf p.val Off.PRT_WATCH 0 0 = 1) ∧ (s.inputOn p t.val = true) ∧ (((s.port p).conv[t].watch.n.take (s.slotCount p t.val)).all (fun k => decide (2 ^ (s.port p).conv[t].watchLog ≤ k)) = true) ∧ (suspects ((s.port p).conv[t].watch.s.take (s.slotCount p t.val)) ((s.port p).conv[t].watch.a.take (s.slotCount p t.val)) (2 ^ (s.port p).conv[t].watchLog) (s.rf p.val Off.PRT_WATCH 31 16) = [])) ∧
    (∃ (p : PortId) (t : Fin 16) (s : State) (l : LineRec), (s.MemOk) ∧ (s.rf p.val Off.PRT_WATCH 0 0 = 1) ∧ (s.inputOn p t.val = true) ∧ (((s.port p).conv[t].watch.n.take (s.slotCount p t.val)).all (fun k => decide (2 ^ (s.port p).conv[t].watchLog ≤ k)) = true) ∧ (suspects ((s.port p).conv[t].watch.s.take (s.slotCount p t.val)) ((s.port p).conv[t].watch.a.take (s.slotCount p t.val)) (2 ^ (s.port p).conv[t].watchLog) (s.rf p.val Off.PRT_WATCH 31 16) ≠ []) ∧ ((s.unit (unitOfPort p)).st = .running) ∧ ((s.unit (unitOfPort p)).cut = none) ∧ ((s.port p).pipe.cap = none) ∧ ((s.port p).cap = some l) ∧ (l.dropped = false) ∧ (∀ u : Fin 16, (s.port p).conv[u].due = false ∧ (s.port p).conv[u].calNow = false)) ∧
    (∃ (p : PortId) (t : Fin 16) (s : State), ((s.port p).conv[t].bg.n.take (s.slotCount p t.val)).any (fun k => decide (k < 65536)) = true ∨ s.inputOn p t.val = false ∨ s.bgRuns p t = false) ∧
    (∃ (p : PortId) (t : Fin 16) (s : State), (s.inputOn p t.val = true) ∧ (s.bgRuns p t = true) ∧ (((s.port p).conv[t].bg.n.take (s.slotCount p t.val)).all (fun k => decide (65536 ≤ k)) = true)) ∧
    (∃ (p : PortId) (t : Fin 16) (s : State), (s.rf p.val Off.PRT_OV (16 + t.val) (16 + t.val) = 0) ∧ (s.reg p.val Off.PRT_OV = s.eff p.val Off.PRT_OV) ∧ (s.MemOk)) ∧
    (∃ (p : PortId) (t : Fin 16) (s : State), (s.rf p.val Off.PRT_OV (16 + t.val) (16 + t.val) = 1) ∧ (s.reg p.val Off.PRT_OV = s.eff p.val Off.PRT_OV)) ∧
    (∃ (p : PortId) (t : Fin 16) (s : State), s.MemOk) ∧
    (∃ (c : CtxId) (v : Word) (s : State) (p : PortId), (s.MemOk) ∧ (s.Serves c Off.PRT_OV true) ∧ ((s.ctxs[c]).selPort.toNat = p.val) ∧ (s.reg p.val Off.PRT_OV = s.eff p.val Off.PRT_OV)) :=
  ⟨⟨wWatchBackgroundAndClamps0.1, wWatchBackgroundAndClamps0.2.1, wWatchBackgroundAndClamps0.2.2, by decide +kernel⟩,
   ⟨wWatchBackgroundAndClamps1.1, wWatchBackgroundAndClamps1.2.1, wWatchBackgroundAndClamps1.2.2, by decide +kernel⟩,
   ⟨wWatchBackgroundAndClamps2.1, wWatchBackgroundAndClamps2.2.1, wWatchBackgroundAndClamps2.2.2.1, wWatchBackgroundAndClamps2.2.2.2, memOk_of _ (by decide +kernel), (by decide +kernel), (by decide +kernel), (by decide +kernel), (by decide +kernel), (by decide +kernel), (by decide +kernel), (by decide +kernel), (by decide +kernel), (by decide +kernel), (by decide +kernel)⟩,
   ⟨wWatchBackgroundAndClamps3.1, wWatchBackgroundAndClamps3.2.1, wWatchBackgroundAndClamps3.2.2, by decide +kernel⟩,
   ⟨wWatchBackgroundAndClamps4.1, wWatchBackgroundAndClamps4.2.1, wWatchBackgroundAndClamps4.2.2, by decide +kernel⟩,
   ⟨wWatchBackgroundAndClamps5.1, wWatchBackgroundAndClamps5.2.1, wWatchBackgroundAndClamps5.2.2, (by decide +kernel), (by decide +kernel), memOk_of _ (by decide +kernel)⟩,
   ⟨wWatchBackgroundAndClamps6.1, wWatchBackgroundAndClamps6.2.1, wWatchBackgroundAndClamps6.2.2, by decide +kernel⟩,
   ⟨wWatchBackgroundAndClamps7.1, wWatchBackgroundAndClamps7.2.1, wWatchBackgroundAndClamps7.2.2, memOk_of _ (by decide +kernel)⟩,
   ⟨wWatchBackgroundAndClamps8.1, wWatchBackgroundAndClamps8.2.1, wWatchBackgroundAndClamps8.2.2.1, wWatchBackgroundAndClamps8.2.2.2, memOk_of _ (by decide +kernel), (by unfold State.Serves; decide +kernel), (by decide +kernel), (by decide +kernel)⟩⟩
def wPipeGeometry0 : PortId × ZscFields × LineRec × State :=
  let p : PortId := 0
  let f : ZscFields := dZscFields
  let l : LineRec := dLineRec
  let s : State := State.reset
  let z : Nat := 0
  let w : Nat := 0
  let f : ZscFields := { f with cond := 0, ra := 0, rb := 0, ext := (if z == 0 then 0 else 0x80#8), imm := 0, rd := BitVec.ofNat 4 w }
  let xs := (List.range (4 * 2))
  let v : Nat := 0
  let blk : List Byte := leBytes 2 8 ++ [1, BitVec.ofNat 8 v] ++ leBytes 2 3 ++ leBytes 2 0 ++ leBytes 2 0 ++ leBytes 2 4 ++ leBytes 2 4 ++ leBytes 2 (4 + 32768)
  let s := prim s p (blk ++ List.replicate (72 - blk.length) 0) false xs (4) (2)
  let s := s.updPort p (fun x => { x with prc := some { l with samples := [(0, [1, 2, 3, 4]), (1, [5, 6, 7, 8])] } })
  let l : LineRec := { l with samples := [(0, [1, 2, 3, 4]), (1, [5, 6, 7, 8])] }
  (p, f, l, s)
def wPipeGeometry1 : PortId × ZscFields × Nat × List Nat × State :=
  let p : PortId := 0
  let f : ZscFields := dZscFields
  let corr : Nat := 0
  let xs : List Nat := []
  let s : State := State.reset
  let z : Nat := 0
  let w : Nat := 0
  let f : ZscFields := { f with cond := 0, ra := 0, rb := 0, ext := (if z == 0 then 0 else 0x80#8), imm := 0, rd := BitVec.ofNat 4 w }
  let xs := (List.range (4 * 2))
  let v : Nat := 0
  let blk : List Byte := [BitVec.ofNat 8 (v + 2 * (w % 2))]
  let s := prim s p (blk ++ List.replicate (72 - blk.length) 0) false xs (4) (2)
  let s := s.updPort p (fun x => { x with pipe := { x.pipe with remaps := [] } })
  let s := { s with tbl := ((List.range 4).map (fun k => (shadeKey p.val (s.phys p 0 ((s.port p).pipe.shadeBank % 2)) k, (BitVec.ofNat 32 (0x00054000 + 700 * k) : Word)))) }
  let s := s.updEng (pipeEng p) (fun x => { x with param := x.param.filter (fun e => e.2 != 0) })
  (p, f, corr, xs, s)
def wPipeGeometry2 : PortId × ZscFields × List Nat × State :=
  let p : PortId := 0
  let f : ZscFields := dZscFields
  let xs : List Nat := []
  let s : State := State.reset
  let z : Nat := 0
  let w : Nat := 0
  let f : ZscFields := { f with cond := 0, ra := 0, rb := 0, ext := (if z == 0 then 0 else 0x80#8), imm := 0, rd := BitVec.ofNat 4 w }
  let xs := (List.range (4 * 2))
  let v : Nat := 0
  let blk : List Byte := [2, 1] ++ leBytes 2 1
  let s := prim s p (blk ++ List.replicate (72 - blk.length) 0) false xs (4) (2)
  (p, f, xs, s)
def wPipeGeometry3 : PortId × ZscFields × List Nat × Fin 2 × State :=
  let p : PortId := 0
  let f : ZscFields := dZscFields
  let xs : List Nat := []
  let w : Fin 2 := 0
  let s : State := State.reset
  let w0 := w
  let z : Nat := 0
  let w : Nat := 0
  let f : ZscFields := { f with cond := 0, ra := 0, rb := 0, ext := (if z == 0 then 0 else 0x80#8), imm := 0, rd := BitVec.ofNat 4 w }
  let xs := (List.range (4 * 2))
  let v : Nat := 0
  let blk : List Byte := [2, 1] ++ leBytes 2 3 ++ [2, BitVec.ofNat 8 w0.val]
  let s := prim s p (blk ++ List.replicate (72 - blk.length) 0) false xs (4) (2)
  let w := w0
  let cn : Nat := 0
  let s := s.updPort p (fun x => { x with pipe := { x.pipe with accs := x.pipe.accs.set w.val { a := [9, 8, 7, 60000], cnt := cn } } })
  (p, f, xs, w, s)
def wPipeGeometry4 : PortId × ZscFields × List Nat × State :=
  let p : PortId := 0
  let f : ZscFields := dZscFields
  let xs : List Nat := []
  let s : State := State.reset
  let z : Nat := 0
  let w : Nat := 0
  let f : ZscFields := { f with cond := 0, ra := 0, rb := 0, ext := (if z == 0 then 0 else 0x80#8), imm := 0, rd := BitVec.ofNat 4 w }
  let xs := (List.range (4 * 2))
  let v : Nat := 0
  let blk : List Byte := [BitVec.ofNat 8 (w % 4), 2, 1, 3]
  let s := prim s p (blk ++ List.replicate (72 - blk.length) 0) false xs (4) (2)
  (p, f, xs, s)
def wPipeGeometry5 : PortId × ZscFields × List Nat × State :=
  let p : PortId := 0
  let f : ZscFields := dZscFields
  let xs : List Nat := []
  let s : State := State.reset
  let z : Nat := 0
  let w : Nat := 0
  let f : ZscFields := { f with cond := 0, ra := 0, rb := 0, ext := (if z == 0 then 0 else 0x80#8), imm := 0, rd := BitVec.ofNat 4 w }
  let xs := (List.range (4 * 2))
  let v : Nat := 0
  let blk : List Byte := [5, 0] ++ leBytes 2 4 ++ leBytes 4 2 ++ leBytes 2 6
  let s := prim s p (blk ++ List.replicate (72 - blk.length) 0) false xs (4) (2)
  let s := { s with tbl := [(idxKey 5 0, 2#32), (idxKey 5 1, 4#32), (idxKey 5 4, 2#32)] }
  (p, f, xs, s)
/-- The conditions of each clause of `Obligations.PipeGeometry` are met. -/
theorem test_meets_PipeGeometry :
    (∃ (p : PortId) (f : ZscFields) (l : LineRec) (s : State), (s.TakesPrim p 0x80 f) ∧ ((s.port p).prc = some l)) ∧
    (∃ (p : PortId) (f : ZscFields) (corr : Nat) (xs : List Nat) (s : State), (s.TakesPrim p 0x81 f) ∧ ((s.inStream p f).xs = some xs) ∧ ((s.port p).pipe.remaps = []) ∧ (s.MemOk)) ∧
    (∃ (p : PortId) (f : ZscFields) (xs : List Nat) (s : State), (s.TakesPrim p 0x84 f) ∧ ((s.inStream p f).xs = some xs) ∧ (bByte (s.block p 0x84 f) 6 = 0) ∧ (bHalf (s.block p 0x84 f) 2 = 1)) ∧
    (∃ (p : PortId) (f : ZscFields) (xs : List Nat) (w : Fin 2) (s : State), (s.TakesPrim p 0x84 f) ∧ ((s.inStream p f).xs = some xs) ∧ (bByte (s.block p 0x84 f) 6 = 0) ∧ (1 < bHalf (s.block p 0x84 f) 2) ∧ (bByte (s.block p 0x84 f) 5 = w.val)) ∧
    (∃ (p : PortId) (f : ZscFields) (xs : List Nat) (s : State), (s.TakesPrim p 0x88 f) ∧ ((s.inStream p f).xs = some xs)) ∧
    (∃ (p : PortId) (f : ZscFields) (xs : List Nat) (s : State), (s.TakesPrim p 0x89 f) ∧ ((s.inStream p f).xs = some xs)) :=
  ⟨⟨wPipeGeometry0.1, wPipeGeometry0.2.1, wPipeGeometry0.2.2.1, wPipeGeometry0.2.2.2, by unfold State.TakesPrim; decide +kernel⟩,
   ⟨wPipeGeometry1.1, wPipeGeometry1.2.1, wPipeGeometry1.2.2.1, wPipeGeometry1.2.2.2.1, wPipeGeometry1.2.2.2.2, (by unfold State.TakesPrim; decide +kernel), (by decide +kernel), (by decide +kernel), memOk_of _ (by decide +kernel)⟩,
   ⟨wPipeGeometry2.1, wPipeGeometry2.2.1, wPipeGeometry2.2.2.1, wPipeGeometry2.2.2.2, by unfold State.TakesPrim; decide +kernel⟩,
   ⟨wPipeGeometry3.1, wPipeGeometry3.2.1, wPipeGeometry3.2.2.1, wPipeGeometry3.2.2.2.1, wPipeGeometry3.2.2.2.2, by unfold State.TakesPrim; decide +kernel⟩,
   ⟨wPipeGeometry4.1, wPipeGeometry4.2.1, wPipeGeometry4.2.2.1, wPipeGeometry4.2.2.2, by unfold State.TakesPrim; decide +kernel⟩,
   ⟨wPipeGeometry5.1, wPipeGeometry5.2.1, wPipeGeometry5.2.2.1, wPipeGeometry5.2.2.2, by unfold State.TakesPrim; decide +kernel⟩⟩
def wLutPixels0 : PortId × ZscFields × List Nat × State :=
  let p : PortId := 0
  let f : ZscFields := dZscFields
  let xs : List Nat := []
  let s : State := State.reset
  let z : Nat := 0
  let w : Nat := 0
  let f : ZscFields := { f with cond := 0, ra := 0, rb := 0, ext := (if z == 0 then 0 else 0x80#8), imm := 0, rd := BitVec.ofNat 4 w }
  let xs := (List.range (4 * 2))
  let v : Nat := 0
  let blk : List Byte := [BitVec.ofNat 8 v]
  let s := prim s p (blk ++ List.replicate (72 - blk.length) 0) false xs (4) (2)
  let s := { s with tbl := ((List.range 3000).map (fun k => (lutKey p.val 12 k, (BitVec.ofNat 32 (70000 - 13 * k) : Word)))) }
  (p, f, xs, s)
theorem test_meets_LutPixels :
    (∃ (p : PortId) (f : ZscFields) (xs : List Nat) (s : State), (s.TakesPrim p 0x85 f) ∧ ((s.inStream p f).xs = some xs)) :=
  ⟨wLutPixels0.1, wLutPixels0.2.1, wLutPixels0.2.2.1, wLutPixels0.2.2.2, by unfold State.TakesPrim; decide +kernel⟩
def wPipeRepairAndDrift0 : PortId × ZscFields × Nat × List Nat × State :=
  let p : PortId := 0
  let f : ZscFields := dZscFields
  let corr : Nat := 0
  let xs : List Nat := []
  let s : State := State.reset
  let z : Nat := 0
  let w : Nat := 0
  let f : ZscFields := { f with cond := 0, ra := 0, rb := 0, ext := (if z == 0 then 0 else 0x80#8), imm := 0, rd := BitVec.ofNat 4 w }
  let xs := (List.range (4 * 2))
  let v : Nat := 0
  let blk : List Byte := [2]
  let s := prim s p (blk ++ List.replicate (72 - blk.length) 0) false xs (4) (2)
  let s := s.updPort p (fun x => { x with pipe := { x.pipe with remaps := [] } })
  let s := { s with tbl := [(defKey p.val (s.phys p 1 ((s.port p).pipe.defBank)) 0, 5#32)] }
  let s := s.updEng (pipeEng p) (fun x => { x with param := x.param.filter (fun e => e.2 != 0) })
  (p, f, corr, xs, s)
def wPipeRepairAndDrift1 : PortId × ZscFields × State :=
  let p : PortId := 0
  let f : ZscFields := dZscFields
  let s : State := State.reset
  let z : Nat := 0
  let w : Nat := 0
  let f : ZscFields := { f with cond := 0, ra := 0, rb := 0, ext := (if z == 0 then 0 else 0x80#8), imm := 0, rd := BitVec.ofNat 4 w }
  let xs := (List.range (4 * 2))
  let v : Nat := 0
  let blk : List Byte := leBytes 2 1 ++ leBytes 2 2 ++ [BitVec.ofNat 8 (1 + 2 * v), 1, 0, 0] ++ leBytes 2 30000 ++ leBytes 2 20000
  let s := prim s p (blk ++ List.replicate (72 - blk.length) 0) false xs (4) (2)
  (p, f, s)
def wPipeRepairAndDrift2 : PortId × ZscFields × State :=
  let p : PortId := 0
  let f : ZscFields := dZscFields
  let s : State := State.reset
  let s := running s (pipeEng p) 1
  let f := { f with cond := 0, ra := 0, rb := 0, imm := 0, ext := BitVec.ofNat 8 0 }
  (p, f, s)
/-- The conditions of each clause of `Obligations.PipeRepairAndDrift` are met. -/
theorem test_meets_PipeRepairAndDrift :
    (∃ (p : PortId) (f : ZscFields) (corr : Nat) (xs : List Nat) (s : State), (s.TakesPrim p 0x83 f) ∧ ((s.inStream p f).xs = some xs) ∧ ((s.port p).pipe.remaps = []) ∧ (s.MemOk)) ∧
    (∃ (p : PortId) (f : ZscFields) (s : State), (s.TakesPrim p 0x82 f) ∧ ((s.inStream p f).xs.isSome = true)) ∧
    (∃ (p : PortId) (f : ZscFields) (s : State), (s.Takes (pipeEng p) 1 { rd := true, ext := 0xFF } f) ∧ ((s.eng (pipeEng p)).condTrue f.cond = true) ∧ (f.ext.toNat < 5)) :=
  ⟨⟨wPipeRepairAndDrift0.1, wPipeRepairAndDrift0.2.1, wPipeRepairAndDrift0.2.2.1, wPipeRepairAndDrift0.2.2.2.1, wPipeRepairAndDrift0.2.2.2.2, (by unfold State.TakesPrim; decide +kernel), (by decide +kernel), (by decide +kernel), memOk_of _ (by decide +kernel)⟩,
   ⟨wPipeRepairAndDrift1.1, wPipeRepairAndDrift1.2.1, wPipeRepairAndDrift1.2.2, by unfold State.TakesPrim; decide +kernel⟩,
   ⟨wPipeRepairAndDrift2.1, wPipeRepairAndDrift2.2.1, wPipeRepairAndDrift2.2.2, by unfold State.Takes State.Runs; decide +kernel⟩⟩
def wPipePayloads0 : PortId × ZscFields × List Nat × Nat × State :=
  let p : PortId := 0
  let f : ZscFields := dZscFields
  let xs : List Nat := []
  let drained : Nat := 0
  let s : State := State.reset
  let z : Nat := 0
  let w : Nat := 0
  let f : ZscFields := { f with cond := 0, ra := 0, rb := 0, ext := (if z == 0 then 0 else 0x80#8), imm := 0, rd := BitVec.ofNat 4 w }
  let xs := (List.range (4 * 2))
  let v : Nat := 0
  let blk : List Byte := [BitVec.ofNat 8 v, BitVec.ofNat 8 (w % 3), BitVec.ofNat 8 (w % 4), BitVec.ofNat 8 z]
  let s := prim s p (blk ++ List.replicate (72 - blk.length) 0) false xs (4) (2)
  let drained := drained % 300
  let s := s.updPort p (fun x => { x with pipe := { x.pipe with staged := 1000 } })
  let xs := ((s.inStream p f).xs).getD []
  (p, f, xs, drained, s)
def wPipePayloads1 : PortId × ZscFields × List Nat × Nat × State :=
  let p : PortId := 0
  let f : ZscFields := dZscFields
  let xs : List Nat := []
  let drained : Nat := 0
  let s : State := State.reset
  let z : Nat := 0
  let w : Nat := 0
  let f : ZscFields := { f with cond := 0, ra := 0, rb := 0, ext := (if z == 0 then 0 else 0x80#8), imm := 0, rd := BitVec.ofNat 4 w }
  let xs := (List.range (70 * 2))
  let v : Nat := 0
  let blk : List Byte := [BitVec.ofNat 8 v, 1, 2, 1]
  let s := prim s p (blk ++ List.replicate (72 - blk.length) 0) false xs (70) (2)
  let drained := drained % 300
  let s := s.updPort p (fun x => { x with pipe := { x.pipe with staged := 4090 } })
  let xs := ((s.inStream p f).xs).getD []
  (p, f, xs, drained, s)
def wPipePayloads2 : PortId × Nat × Nat × ZscFields × State × State × List Nat × Nat :=
  let p : PortId := 0
  let drained : Nat := 0
  let cycles : Nat := 0
  let f : ZscFields := dZscFields
  let s : State := State.reset
  let q : State := State.reset
  let xs : List Nat := []
  let left : Nat := 0
  let z : Nat := 0
  let w : Nat := 0
  let f : ZscFields := { f with cond := 0, ra := 0, rb := 0, ext := (if z == 0 then 0 else 0x80#8), imm := 0, rd := BitVec.ofNat 4 w }
  let xs := (List.range (4 * 2))
  let v : Nat := 0
  let blk : List Byte := [BitVec.ofNat 8 v, 1, 2, 1]
  let s := prim s p (blk ++ List.replicate (72 - blk.length) 0) false xs (4) (2)
  let drained := drained % 300
  let s := s.updPort p (fun x => { x with pipe := { x.pipe with staged := 1000 } })
  let xs := ((s.inStream p f).xs).getD []
  let left := left % 4096
  let xs := ((s.inStream p f).xs).getD []
  let q := s.updPort p (fun x => { x with pipe := { x.pipe with stall := some { left := left, op := 0x8A, f := f, differ := false, wrote := [] } } })
  (p, drained, cycles, f, s, q, xs, left)
def wPipePayloads3 : PortId × Nat × Nat × Nat × ZscFields × State :=
  let p : PortId := 0
  let drained : Nat := 0
  let cycles : Nat := 0
  let left : Nat := 0
  let f : ZscFields := dZscFields
  let s : State := State.reset
  let z : Nat := 0
  let w : Nat := 0
  let f : ZscFields := { f with cond := 0, ra := 0, rb := 0, ext := (if z == 0 then 0 else 0x80#8), imm := 0, rd := BitVec.ofNat 4 w }
  let xs := (List.range (4 * 2))
  let v : Nat := 0
  let blk : List Byte := [BitVec.ofNat 8 v, 1, 2, 1]
  let s := prim s p (blk ++ List.replicate (72 - blk.length) 0) false xs (4) (2)
  let drained := drained % 300
  let left := 400 + left % 4096
  let s := s.updPort p (fun x => { x with pipe := { x.pipe with staged := 4000, stall := some { left := left, op := 0x8A, f := f, differ := false, wrote := [] } } })
  (p, drained, cycles, left, f, s)
def wPipePayloads4 : PortId × Nat × Nat × State :=
  let p : PortId := 0
  let drained : Nat := 0
  let cycles : Nat := 0
  let s : State := State.reset
  let s := s.updPort p (fun x => { x with pipe := { x.pipe with stall := none } })
  (p, drained, cycles, s)
def wPipePayloads5 : PortId × ZscFields × List Nat × Nat × State :=
  let p : PortId := 0
  let f : ZscFields := dZscFields
  let xs : List Nat := []
  let drained : Nat := 0
  let s : State := State.reset
  let z : Nat := 0
  let w : Nat := 0
  let f : ZscFields := { f with cond := 0, ra := 0, rb := 0, ext := (if z == 0 then 0 else 0x80#8), imm := 0, rd := BitVec.ofNat 4 w }
  let xs := (List.range (40 * 2))
  let v : Nat := 0
  let blk : List Byte := [BitVec.ofNat 8 (2 + w % 5), 0, BitVec.ofNat 8 (w % 4), BitVec.ofNat 8 (z + 2 * v)]
  let s := prim s p (blk ++ List.replicate (72 - blk.length) 0) false xs (40) (2)
  let s := s.updPort p (fun x => { x with pipe := { x.pipe with inject := false } })
  let drained := drained % 300
  let s := s.updPort p (fun x => { x with pipe := { x.pipe with staged := 1000 } })
  let xs := ((s.inStream p f).xs).getD []
  let s := s.updEng (pipeEng p) (fun x => { x with param := x.param.filter (fun e => e.2 != 0) })
  (p, f, xs, drained, s)
def wPipePayloads6 : PortId × ZscFields × List Nat × Nat × State :=
  let p : PortId := 0
  let f : ZscFields := dZscFields
  let xs : List Nat := []
  let drained : Nat := 0
  let s : State := State.reset
  let z : Nat := 0
  let w : Nat := 0
  let f : ZscFields := { f with cond := 0, ra := 0, rb := 0, ext := (if z == 0 then 0 else 0x80#8), imm := 0, rd := BitVec.ofNat 4 w }
  let xs := (List.range (40 * 2))
  let v : Nat := 0
  let blk : List Byte := [BitVec.ofNat 8 (2 + w % 5), BitVec.ofNat 8 (2 + (w / 5 + z + v) % 5), BitVec.ofNat 8 (w % 4 + 16 * ((w + v) % 4)), BitVec.ofNat 8 (z + 2 * v)]
  let s := prim s p (blk ++ List.replicate (72 - blk.length) 0) false xs (40) (2)
  let s := s.updPort p (fun x => { x with pipe := { x.pipe with inject := false } })
  let drained := drained % 300
  let s := s.updPort p (fun x => { x with pipe := { x.pipe with staged := 1000 } })
  let xs := ((s.inStream p f).xs).getD []
  let s := s.updEng (pipeEng p) (fun x => { x with param := x.param.filter (fun e => e.2 != 0) })
  (p, f, xs, drained, s)
def wPipePayloads7 : PortId × ZscFields × LineRec × State :=
  let p : PortId := 0
  let f : ZscFields := dZscFields
  let l : LineRec := dLineRec
  let s : State := State.reset
  let z : Nat := 0
  let w : Nat := 0
  let f : ZscFields := { f with cond := 0, ra := 0, rb := 0, ext := (if z == 0 then 0 else 0x80#8), imm := 0, rd := BitVec.ofNat 4 w }
  let xs := (List.range (4 * 2))
  let v : Nat := 0
  let blk : List Byte := [BitVec.ofNat 8 (w % 4), 2, if v == 0 then 255 else BitVec.ofNat 8 (w % 4)]
  let s := prim s p (blk ++ List.replicate (72 - blk.length) 0) false xs (4) (2)
  let f := { f with ext := 0, rd := 0 }
  let s := s.updPort p (fun x => { x with prc := some l })
  (p, f, l, s)
def wPipePayloads8 : PortId × ZscFields × LineRec × Rec × Fin 4 × State :=
  let p : PortId := 0
  let f : ZscFields := dZscFields
  let l : LineRec := dLineRec
  let r : Rec := dRec
  let slot : Fin 4 := 0
  let s : State := State.reset
  let z : Nat := 0
  let w : Nat := 0
  let f : ZscFields := { f with cond := 0, ra := 0, rb := 0, ext := (if z == 0 then 0 else 0x80#8), imm := 0, rd := BitVec.ofNat 4 w }
  let xs := (List.range (4 * 2))
  let v : Nat := 0
  let blk : List Byte := [BitVec.ofNat 8 slot.val, 5, 3]
  let s := prim s p (blk ++ List.replicate (72 - blk.length) 0) false xs (4) (2)
  let f := { f with ext := 0, rd := 0 }
  let s := s.updPort p (fun x => { x with prc := some l, pipe := { x.pipe with lastEmit := [(9, 1)], slots := x.pipe.slots.set slot.val (some r) } })
  let l := { l with n := 2 }
  let s := s.updPort p (fun x => { x with prc := some l })
  (p, f, l, r, slot, s)
def wPipePayloads9 : PortId × ZscFields × LineRec × Rec × Fin 4 × Nat × State :=
  let p : PortId := 9
  let f : ZscFields := dZscFields
  let l : LineRec := dLineRec
  let r : Rec := dRec
  let slot : Fin 4 := 0
  let n : Nat := 16
  let s : State := State.reset
  let z : Nat := 0
  let w : Nat := 4
  let f : ZscFields := { f with cond := 0, ra := 0, rb := 0, ext := (if z == 0 then 0 else 0x80#8), imm := 0, rd := BitVec.ofNat 4 w }
  let xs := (List.range (4 * 2))
  let v : Nat := 0
  let blk : List Byte := [BitVec.ofNat 8 slot.val, 5, 3]
  let s := prim s p (blk ++ List.replicate (72 - blk.length) 0) false xs (4) (2)
  let f := { f with ext := 0, rd := 0 }
  let q : Nat := 1
  let l := { l with n := (if q == 0 then l.n % 4 else l.n % 9) }
  let n := (if q == 0 then 1 else l.n + 4)
  let s := s.updPort p (fun x => { x with prc := some l, pipe := { x.pipe with lastEmit := [(9, 2), (0, n)], slots := x.pipe.slots.set slot.val (some r) } })
  (p, f, l, r, slot, n, s)
def wPipePayloads10 : PortId × ZscFields × LineRec × Rec × Fin 4 × Nat × State :=
  let p : PortId := 0
  let f : ZscFields := dZscFields
  let l : LineRec := dLineRec
  let r : Rec := dRec
  let slot : Fin 4 := 0
  let n : Nat := 0
  let s : State := State.reset
  let z : Nat := 0
  let w : Nat := 0
  let f : ZscFields := { f with cond := 0, ra := 0, rb := 0, ext := (if z == 0 then 0 else 0x80#8), imm := 0, rd := BitVec.ofNat 4 w }
  let xs := (List.range (4 * 2))
  let v : Nat := 0
  let blk : List Byte := [BitVec.ofNat 8 slot.val, 5, 3]
  let s := prim s p (blk ++ List.replicate (72 - blk.length) 0) false xs (4) (2)
  let f := { f with ext := 0, rd := 0 }
  let q : Nat := 0
  let l := { l with n := (if q == 0 then l.n % 4 else l.n % 9) }
  let n := (if q == 0 then 1 else l.n + 2)
  let s := s.updPort p (fun x => { x with prc := some l, pipe := { x.pipe with lastEmit := [(9, 2), (0, n)], slots := x.pipe.slots.set slot.val (some r) } })
  (p, f, l, r, slot, n, s)
/-- The conditions of each clause of `Obligations.PipePayloads` are met. -/
theorem test_meets_PipePayloads :
    (∃ (p : PortId) (f : ZscFields) (xs : List Nat) (drained : Nat) (s : State), (s.TakesPrim p 0x8A f) ∧ ((s.inStream p f).xs = some xs) ∧ (packBytes (bByte (s.block p 0x8A f) 0) xs.length ≤ 4096 - (s.port p).pipe.staged + drained)) ∧
    (∃ (p : PortId) (f : ZscFields) (xs : List Nat) (drained : Nat) (s : State), (s.TakesPrim p 0x8A f) ∧ ((s.inStream p f).xs = some xs) ∧ (4096 - (s.port p).pipe.staged + drained < packBytes (bByte (s.block p 0x8A f) 0) xs.length)) ∧
    (∃ (p : PortId) (drained : Nat) (cycles : Nat) (f : ZscFields) (s : State) (q : State) (xs : List Nat) (left : Nat), (s.TakesPrim p 0x8A f) ∧ ((s.inStream p f).xs = some xs) ∧ (q = s.updPort p (fun x => { x with pipe := { x.pipe with stall := some { left := left, op := 0x8A, f := f, differ := false, wrote := [] } } })) ∧ (left ≤ 4096 - (s.port p).pipe.staged + drained)) ∧
    (∃ (p : PortId) (drained : Nat) (cycles : Nat) (left : Nat) (f : ZscFields) (s : State), ((s.port p).pipe.stall = some { left := left, op := 0x8A, f := f, differ := false, wrote := [] }) ∧ (4096 - (s.port p).pipe.staged + drained < left)) ∧
    (∃ (p : PortId) (drained : Nat) (cycles : Nat) (s : State), (s.port p).pipe.stall = none) ∧
    (∃ (p : PortId) (f : ZscFields) (xs : List Nat) (drained : Nat) (s : State), (s.TakesPrim p 0x8B f) ∧ (s.MemOk) ∧ ((s.inStream p f).xs = some xs) ∧ (∀ e ∈ codeLine xs (s.inStream p f).geo (bByte (s.block p 0x8B f) 0) false [], e.2.2.2 = true) ∧ (bByte (s.block p 0x8B f) 1 = 0) ∧ ((s.inStream p f).np * (s.inStream p f).geo.blocks * codeBytes (bByte (s.block p 0x8B f) 0) ≤ 4096 - (s.port p).pipe.staged + drained) ∧ ((s.port p).pipe.inject = false)) ∧
    (∃ (p : PortId) (f : ZscFields) (xs : List Nat) (drained : Nat) (s : State), (s.TakesPrim p 0x8B f) ∧ (s.MemOk) ∧ ((s.inStream p f).xs = some xs) ∧ (∀ e ∈ codeLine xs (s.inStream p f).geo (bByte (s.block p 0x8B f) 0) false [], e.2.2.2 = true) ∧ (∀ e ∈ codeLine xs (s.inStream p f).geo (bByte (s.block p 0x8B f) 1) true [], e.2.2.2 = true) ∧ (bByte (s.block p 0x8B f) 1 ≠ 0) ∧ ((s.inStream p f).np * (s.inStream p f).geo.blocks * (codeBytes (bByte (s.block p 0x8B f) 0) + codeBytes (bByte (s.block p 0x8B f) 1)) ≤ 4096 - (s.port p).pipe.staged + drained) ∧ ((s.port p).pipe.inject = false)) ∧
    (∃ (p : PortId) (f : ZscFields) (l : LineRec) (s : State), (s.Takes (pipeEng p) 4 { imm := true } f) ∧ ((s.eng (pipeEng p)).condTrue f.cond = true) ∧ (f.imm.toNat < 16384) ∧ ((s.port p).prc = some l)) ∧
    (∃ (p : PortId) (f : ZscFields) (l : LineRec) (r : Rec) (slot : Fin 4) (s : State), (s.Takes (pipeEng p) 2 { imm := true } f) ∧ ((s.eng (pipeEng p)).condTrue f.cond = true) ∧ (f.imm.toNat < 16384) ∧ ((s.port p).prc = some l) ∧ (bByte ((s.eng (pipeEng p)).block (s.eng (pipeEng p)).setup (pbOf f) 16) 0 = slot.val) ∧ ((s.port p).pipe.slots[slot] = some r) ∧ (∀ e ∈ (s.port p).pipe.lastEmit, e.1 ≠ pbOf f)) ∧
    (∃ (p : PortId) (f : ZscFields) (l : LineRec) (r : Rec) (slot : Fin 4) (n : Nat) (s : State), (s.Takes (pipeEng p) 2 { imm := true } f) ∧ ((s.eng (pipeEng p)).condTrue f.cond = true) ∧ (f.imm.toNat < 16384) ∧ ((s.port p).prc = some l) ∧ (bByte ((s.eng (pipeEng p)).block (s.eng (pipeEng p)).setup (pbOf f) 16) 0 = slot.val) ∧ ((s.port p).pipe.slots[slot] = some r) ∧ ((s.port p).pipe.lastEmit.find? (fun e => e.1 == pbOf f) = some (pbOf f, n)) ∧ (bHalf ((s.eng (pipeEng p)).block (s.eng (pipeEng p)).setup (pbOf f) 16) 2 ≤ ((l.n : Int) - n).natAbs)) ∧
    (∃ (p : PortId) (f : ZscFields) (l : LineRec) (r : Rec) (slot : Fin 4) (n : Nat) (s : State), (s.Takes (pipeEng p) 2 { imm := true } f) ∧ ((s.eng (pipeEng p)).condTrue f.cond = true) ∧ (f.imm.toNat < 16384) ∧ ((s.port p).prc = some l) ∧ (bByte ((s.eng (pipeEng p)).block (s.eng (pipeEng p)).setup (pbOf f) 16) 0 = slot.val) ∧ ((s.port p).pipe.slots[slot] = some r) ∧ ((s.port p).pipe.lastEmit.find? (fun e => e.1 == pbOf f) = some (pbOf f, n)) ∧ (((l.n : Int) - n).natAbs < bHalf ((s.eng (pipeEng p)).block (s.eng (pipeEng p)).setup (pbOf f) 16) 2)) :=
  ⟨⟨wPipePayloads0.1, wPipePayloads0.2.1, wPipePayloads0.2.2.1, wPipePayloads0.2.2.2.1, wPipePayloads0.2.2.2.2, by unfold State.TakesPrim; decide +kernel⟩,
   ⟨wPipePayloads1.1, wPipePayloads1.2.1, wPipePayloads1.2.2.1, wPipePayloads1.2.2.2.1, wPipePayloads1.2.2.2.2, by unfold State.TakesPrim; decide +kernel⟩,
   ⟨wPipePayloads2.1, wPipePayloads2.2.1, wPipePayloads2.2.2.1, wPipePayloads2.2.2.2.1, wPipePayloads2.2.2.2.2.1, wPipePayloads2.2.2.2.2.2.1, wPipePayloads2.2.2.2.2.2.2.1, wPipePayloads2.2.2.2.2.2.2.2, by unfold State.TakesPrim; decide +kernel⟩,
   ⟨wPipePayloads3.1, wPipePayloads3.2.1, wPipePayloads3.2.2.1, wPipePayloads3.2.2.2.1, wPipePayloads3.2.2.2.2.1, wPipePayloads3.2.2.2.2.2, by decide +kernel⟩,
   ⟨wPipePayloads4.1, wPipePayloads4.2.1, wPipePayloads4.2.2.1, wPipePayloads4.2.2.2, by decide +kernel⟩,
   ⟨wPipePayloads5.1, wPipePayloads5.2.1, wPipePayloads5.2.2.1, wPipePayloads5.2.2.2.1, wPipePayloads5.2.2.2.2, (by unfold State.TakesPrim; decide +kernel), memOk_of _ (by decide +kernel), (by decide +kernel), (by decide +kernel), (by decide +kernel), (by decide +kernel), (by decide +kernel)⟩,
   ⟨wPipePayloads6.1, wPipePayloads6.2.1, wPipePayloads6.2.2.1, wPipePayloads6.2.2.2.1, wPipePayloads6.2.2.2.2, (by unfold State.TakesPrim; decide +kernel), memOk_of _ (by decide +kernel), (by decide +kernel), (by decide +kernel), (by decide +kernel), (by decide +kernel), (by decide +kernel), (by decide +kernel)⟩,
   ⟨wPipePayloads7.1, wPipePayloads7.2.1, wPipePayloads7.2.2.1, wPipePayloads7.2.2.2, by unfold State.Takes State.Runs; decide +kernel⟩,
   ⟨wPipePayloads8.1, wPipePayloads8.2.1, wPipePayloads8.2.2.1, wPipePayloads8.2.2.2.1, wPipePayloads8.2.2.2.2.1, wPipePayloads8.2.2.2.2.2, by unfold State.Takes State.Runs; decide +kernel⟩,
   ⟨wPipePayloads9.1, wPipePayloads9.2.1, wPipePayloads9.2.2.1, wPipePayloads9.2.2.2.1, wPipePayloads9.2.2.2.2.1, wPipePayloads9.2.2.2.2.2.1, wPipePayloads9.2.2.2.2.2.2, by unfold State.Takes State.Runs; decide +kernel⟩,
   ⟨wPipePayloads10.1, wPipePayloads10.2.1, wPipePayloads10.2.2.1, wPipePayloads10.2.2.2.1, wPipePayloads10.2.2.2.2.1, wPipePayloads10.2.2.2.2.2.1, wPipePayloads10.2.2.2.2.2.2, by unfold State.Takes State.Runs; decide +kernel⟩⟩
def wMirrorsCalibrationAndGaps0 : CtxId × Word × State × PortId :=
  let c : CtxId := 0
  let v : Word := 0
  let s : State := State.reset
  let p : PortId := 0
  let s := own { s with regs := [], link := { s.link with d3hot := false, perst := false } }
  let s := s.updCtx c (fun x => { x with selPort := BitVec.ofNat 32 p.val })
  let q0 : Nat := 0
  let s := s.setReg p.val Off.PIP_BANK_STAT q0
  let q : Nat := 0
  let s := s.updPort p (fun x => { x with pipe := { x.pipe with verS := (if q == 1 then some (true, false) else none), verD := none } })
  (c, v, s, p)
def wMirrorsCalibrationAndGaps1 : CtxId × Word × State × PortId :=
  let c : CtxId := 0
  let v : Word := 0
  let s : State := State.reset
  let p : PortId := 0
  let s := own { s with regs := [], link := { s.link with d3hot := false, perst := false } }
  let s := s.updCtx c (fun x => { x with selPort := BitVec.ofNat 32 p.val })
  let q0 : Nat := 0
  let s := s.setReg p.val Off.PIP_BANK_STAT q0
  let q : Nat := 0
  let s := s.updPort p (fun x => { x with pipe := { x.pipe with verS := (if q == 1 then some (true, false) else none), verD := none } })
  (c, v, s, p)
def wMirrorsCalibrationAndGaps2 : CtxId × Word × State × PortId :=
  let c : CtxId := 0
  let v : Word := 0
  let s : State := State.reset
  let p : PortId := 0
  let s := own { s with regs := [], link := { s.link with d3hot := false, perst := false } }
  let s := s.updCtx c (fun x => { x with selPort := BitVec.ofNat 32 p.val })
  let q0 : Nat := 0
  let s := s.setReg p.val Off.PIP_BANK_STAT q0
  let q : Nat := 0
  let s := s.updPort p (fun x => { x with pipe := { x.pipe with verS := (if q == 1 then some (true, false) else none), verD := none } })
  (c, v, s, p)
def wMirrorsCalibrationAndGaps3 : CtxId × Word × State × PortId :=
  let c : CtxId := 0
  let v : Word := 0
  let s : State := State.reset
  let p : PortId := 0
  let s := own { s with regs := [], link := { s.link with d3hot := false, perst := false } }
  let s := s.updCtx c (fun x => { x with selPort := BitVec.ofNat 32 p.val })
  let q0 : Nat := 0
  let s := s.setReg p.val Off.PIP_BANK_STAT q0
  let q : Nat := 0
  let s := s.updPort p (fun x => { x with pipe := { x.pipe with verS := (if q == 1 then some (true, false) else none), verD := none } })
  (c, v, s, p)
def wMirrorsCalibrationAndGaps4 : PortId × Bool × Nat × (List (Nat × Nat)) × State :=
  let p : PortId := 0
  let d : Bool := false
  let corr : Nat := 0
  let fails : List (Nat × Nat) := []
  let s : State := State.reset
  (p, d, corr, fails, s)
def wMirrorsCalibrationAndGaps5 : PortId × Bool × Nat × State :=
  let p : PortId := 0
  let d : Bool := false
  let corr : Nat := 0
  let s : State := State.reset
  let s := { s with regs := [], tbl := [(shadeKey p.val 0 3, 5), (shadeKey p.val 1 3, 5)] }
  let q : Nat := 0
  let s := if q == 1 then { s with tbl := [(shadeKey p.val 0 3, 5)] } else s
  let s := s.updPort p (fun x => { x with pipe := { x.pipe with remaps := [], verS := some (q == 2, false), verD := some (false, q == 2) } })
  let corr := corr % 7
  (p, d, corr, s)
def wMirrorsCalibrationAndGaps6 : PortId × Bool × Nat × (List (Nat × Nat)) × State × (Bool × Bool) :=
  let p : PortId := 0
  let d : Bool := false
  let corr : Nat := 0
  let fails : List (Nat × Nat) := []
  let s : State := State.reset
  let w : Bool × Bool := (false, false)
  let s := { s with regs := [], tbl := [(shadeKey p.val 0 3, 5), (shadeKey p.val 1 3, 5)] }
  let q : Nat := 0
  let s := if q == 1 then { s with tbl := [(shadeKey p.val 0 3, 5)] } else s
  let s := s.updPort p (fun x => { x with pipe := { x.pipe with remaps := [], verS := some (q == 2, false), verD := some (false, q == 2) } })
  let corr := corr % 7
  let fails := [(q % 2, 5), (q % 2, 300)]
  let w := (if d then (s.port p).pipe.verD else (s.port p).pipe.verS).getD (false,false)
  (p, d, corr, fails, s, w)
def wMirrorsCalibrationAndGaps7 : CtxId × Submission × State × PortId :=
  let c : CtxId := 0
  let y : Submission := dSubmission
  let s : State := State.reset
  let p : PortId := 0
  let s := { s with regs := [] }
  let s := served (own (tame s)) c
  let y := sub 1 (p.val) (0) [0, 1 + 0] y
  let s := s.updUnit (unitOfPort p) (fun x => { x with st := .running, current := some 0, cut := none })
  let blk : List Byte := [0,0,0,0,0,0,2,0,0,0,0,0,0,0,0,0]
  let s := s.updEng (pipeEng p) (fun x => { x with old := false, imem := [(0, BitVec.ofNat 64 (0x84 * 2 ^ 56))], param := (List.range 4).map (fun i => (i, BitVec.ofNat 32 (leAt blk (4 * i) 4))) })
  let s := s.updUnit (unitOfPort p) (fun x => { x with slots := x.slots.map (fun (q : Slot) => { q with prog1 := { q.prog1 with base := 0, len := 1 } }) })
  let s := s.updPort p (fun x => { x with pipe := { x.pipe with cap := none } })
  let s := s.updEng (pipeEng p) (fun x => { x with param := x.param.filter (fun e => e.2 != 0) })
  let s := agree s
  (c, y, s, p)
def wMirrorsCalibrationAndGaps8 : CtxId × Submission × State × PortId :=
  let c : CtxId := 0
  let y : Submission := dSubmission
  let s : State := State.reset
  let p : PortId := 0
  let s := { s with regs := [] }
  let s := served (own (tame s)) c
  let y := sub 1 (p.val) (0) [0] y
  let q : Nat := 0
  let s := s.setReg p.val Off.PIP_CAL (0xC00 + (if q == 1 then 2 else 0))
  let s := s.setReg p.val Off.PIP_TBLSEL (1 - y.arg 0)
  let s := s.updPort p (fun x => { x with pipe := { x.pipe with compute := none, verS := (if q == 0 then none else some (false, false)), refGeo := Vector.replicate 2 (3, 2) } })
  let s := s.updEng (pipeEng p) (fun x => { x with old := false })
  let s := agree s
  (c, y, s, p)
def wMirrorsCalibrationAndGaps9 : CtxId × Submission × State × PortId :=
  let c : CtxId := 0
  let y : Submission := dSubmission
  let s : State := State.reset
  let p : PortId := 0
  let s := { s with regs := [] }
  let s := served (own (tame s)) c
  let y := sub 1 (p.val) (0) [0 % 2 ^ 32, 1 + 0, 0] y
  let s := s.updUnit (unitOfPort p) (fun x => { x with st := .running, current := some 0, cut := none })
  let s := s.updPort p (fun x => { x with gap := none })
  let s := agree s
  (c, y, s, p)
def wMirrorsCalibrationAndGaps10 : PortId × State :=
  let p : PortId := 0
  let s : State := State.reset
  (p, s)
def wMirrorsCalibrationAndGaps11 : PortId × State × Nat :=
  let p : PortId := 0
  let s : State := State.reset
  let bank : Nat := 0
  let s := { s with regs := [], tbl := [] }
  let q : Nat := 0
  let b0 : Nat := 0
  let s := ((s.setReg p.val Off.PIP_CAL (2 * q + 0x200)).setReg p.val Off.PIP_CAL_LIM (1000 * 65536 + 300)).setReg p.val Off.PIP_CAL_TGT_A 0xC000D000
  let s := s.updPort p (fun x => { x with pipe := { x.pipe with compute := some (q % 2), refGeo := Vector.replicate 2 (3, 2), refs := #v[[b0, 100, 200, 300, 400, 500], [40000, 1000, 2000, 500, 0, 30000]] } })
  let bank := q % 2
  (p, s, bank)
/-- The conditions of each clause of `Obligations.MirrorsCalibrationAndGaps` are met. -/
theorem test_meets_MirrorsCalibrationAndGaps :
    (∃ (c : CtxId) (v : Word) (s : State) (p : PortId), (s.MemOk) ∧ (s.Serves c Off.PIP_BANK_CTL true) ∧ ((s.ctxs[c]).selPort.toNat = p.val)) ∧
    (∃ (c : CtxId) (v : Word) (s : State) (p : PortId), (s.MemOk) ∧ (s.Serves c Off.PIP_BANK_CTL true) ∧ ((s.ctxs[c]).selPort.toNat = p.val)) ∧
    (∃ (c : CtxId) (v : Word) (s : State) (p : PortId), (s.MemOk) ∧ (s.Serves c Off.PIP_BANK_CTL true) ∧ ((s.ctxs[c]).selPort.toNat = p.val)) ∧
    (∃ (c : CtxId) (v : Word) (s : State) (p : PortId), (s.MemOk) ∧ (s.Serves c Off.PIP_BANK_CTL true) ∧ ((s.ctxs[c]).selPort.toNat = p.val)) ∧
    (∃ (p : PortId) (d : Bool) (corr : Nat) (fails : List (Nat × Nat)) (s : State), (if d then (s.port p).pipe.verD else (s.port p).pipe.verS) = none) ∧
    (∃ (p : PortId) (d : Bool) (corr : Nat) (s : State), (s.MemOk) ∧ ((if d then (s.port p).pipe.verD else (s.port p).pipe.verS) = some (false, false)) ∧ ((s.port p).pipe.remaps = [])) ∧
    (∃ (p : PortId) (d : Bool) (corr : Nat) (fails : List (Nat × Nat)) (s : State) (w : Bool × Bool), (s.MemOk) ∧ ((if d then (s.port p).pipe.verD else (s.port p).pipe.verS) = some w) ∧ ((∃ e ∈ fails, e.1 < 2) ∨ w.1 = true ∨ w.2 = true)) ∧
    (∃ (c : CtxId) (y : Submission) (s : State) (p : PortId), (s.MemOk) ∧ (s.Accepts c { op := 0x20, since := 0x20, kinds := [1], slotted := false, args := [0, 1] } y) ∧ (y.unit = p.val) ∧ ((s.ctxs[c]).port p.val true = true) ∧ (s.portState p = .running) ∧ ((s.port p).pipe.cap = none) ∧ (s.bankActive p 0 (s.rf p.val Off.PIP_CAL 0 0) = false) ∧ (y.arg 0 ≤ 1) ∧ (1 ≤ y.arg 1 ∧ y.arg 1 ≤ 8) ∧ (s.calBin p = true)) ∧
    (∃ (c : CtxId) (y : Submission) (s : State) (p : PortId), (s.MemOk) ∧ (s.Accepts c { op := 0x21, since := 0x20, kinds := [1], slotted := false, args := [0] } y) ∧ (y.unit = p.val) ∧ ((s.ctxs[c]).port p.val true = true) ∧ (y.arg 0 ≤ 1) ∧ (s.bankActive p 0 (y.arg 0) = false) ∧ (s.rf p.val Off.PIP_CAL 1 1 = 0 ∨ s.bankActive p 1 (1 - s.rf p.val Off.PIP_TBLSEL 1 1) = false) ∧ (s.rf p.val Off.PIP_CAL 11 10 = 3) ∧ ((s.port p).pipe.refGeo[(0 : Fin 2)] = (s.port p).pipe.refGeo[(1 : Fin 2)]) ∧ ((s.port p).pipe.compute = none)) ∧
    (∃ (c : CtxId) (y : Submission) (s : State) (p : PortId), (s.Accepts c { op := 0x22, since := 0x31, kinds := [1], slotted := false, args := [0, 1, 2] } y) ∧ (y.unit = p.val) ∧ ((s.ctxs[c]).port p.val true = true) ∧ (s.portState p = .running) ∧ (1 ≤ y.arg 1 ∧ y.arg 1 ≤ 65535) ∧ (y.arg 2 < 8) ∧ ((s.port p).gap = none)) ∧
    (∃ (p : PortId) (s : State), (s.port p).pipe.compute = none) ∧
    (∃ (p : PortId) (s : State) (bank : Nat), (s.MemOk) ∧ ((s.port p).pipe.compute = some bank) ∧ (bank < 2) ∧ ((s.port p).pipe.refGeo[(0 : Fin 2)].1 ≤ 16384) ∧ ((s.port p).pipe.refGeo[(0 : Fin 2)].2 ≤ 4)) :=
  ⟨⟨wMirrorsCalibrationAndGaps0.1, wMirrorsCalibrationAndGaps0.2.1, wMirrorsCalibrationAndGaps0.2.2.1, wMirrorsCalibrationAndGaps0.2.2.2, memOk_of _ (by decide +kernel), (by unfold State.Serves; decide +kernel), (by decide +kernel)⟩,
   ⟨wMirrorsCalibrationAndGaps1.1, wMirrorsCalibrationAndGaps1.2.1, wMirrorsCalibrationAndGaps1.2.2.1, wMirrorsCalibrationAndGaps1.2.2.2, memOk_of _ (by decide +kernel), (by unfold State.Serves; decide +kernel), (by decide +kernel)⟩,
   ⟨wMirrorsCalibrationAndGaps2.1, wMirrorsCalibrationAndGaps2.2.1, wMirrorsCalibrationAndGaps2.2.2.1, wMirrorsCalibrationAndGaps2.2.2.2, memOk_of _ (by decide +kernel), (by unfold State.Serves; decide +kernel), (by decide +kernel)⟩,
   ⟨wMirrorsCalibrationAndGaps3.1, wMirrorsCalibrationAndGaps3.2.1, wMirrorsCalibrationAndGaps3.2.2.1, wMirrorsCalibrationAndGaps3.2.2.2, memOk_of _ (by decide +kernel), (by unfold State.Serves; decide +kernel), (by decide +kernel)⟩,
   ⟨wMirrorsCalibrationAndGaps4.1, wMirrorsCalibrationAndGaps4.2.1, wMirrorsCalibrationAndGaps4.2.2.1, wMirrorsCalibrationAndGaps4.2.2.2.1, wMirrorsCalibrationAndGaps4.2.2.2.2, by decide +kernel⟩,
   ⟨wMirrorsCalibrationAndGaps5.1, wMirrorsCalibrationAndGaps5.2.1, wMirrorsCalibrationAndGaps5.2.2.1, wMirrorsCalibrationAndGaps5.2.2.2, memOk_of _ (by decide +kernel), (by decide +kernel), (by decide +kernel)⟩,
   ⟨wMirrorsCalibrationAndGaps6.1, wMirrorsCalibrationAndGaps6.2.1, wMirrorsCalibrationAndGaps6.2.2.1, wMirrorsCalibrationAndGaps6.2.2.2.1, wMirrorsCalibrationAndGaps6.2.2.2.2.1, wMirrorsCalibrationAndGaps6.2.2.2.2.2, memOk_of _ (by decide +kernel), (by decide +kernel), (by decide +kernel)⟩,
   ⟨wMirrorsCalibrationAndGaps7.1, wMirrorsCalibrationAndGaps7.2.1, wMirrorsCalibrationAndGaps7.2.2.1, wMirrorsCalibrationAndGaps7.2.2.2, memOk_of _ (by decide +kernel), (by unfold State.Accepts State.Agrees; decide +kernel), (by decide +kernel), (by decide +kernel), (by decide +kernel), (by decide +kernel), (by decide +kernel), (by decide +kernel), (by decide +kernel), (by decide +kernel)⟩,
   ⟨wMirrorsCalibrationAndGaps8.1, wMirrorsCalibrationAndGaps8.2.1, wMirrorsCalibrationAndGaps8.2.2.1, wMirrorsCalibrationAndGaps8.2.2.2, memOk_of _ (by decide +kernel), (by unfold State.Accepts State.Agrees; decide +kernel), (by decide +kernel), (by decide +kernel), (by decide +kernel), (by decide +kernel), (by decide +kernel), (by decide +kernel), (by decide +kernel), (by decide +kernel)⟩,
   ⟨wMirrorsCalibrationAndGaps9.1, wMirrorsCalibrationAndGaps9.2.1, wMirrorsCalibrationAndGaps9.2.2.1, wMirrorsCalibrationAndGaps9.2.2.2, by unfold State.Accepts State.Agrees; decide +kernel⟩,
   ⟨wMirrorsCalibrationAndGaps10.1, wMirrorsCalibrationAndGaps10.2, by decide +kernel⟩,
   ⟨wMirrorsCalibrationAndGaps11.1, wMirrorsCalibrationAndGaps11.2.1, wMirrorsCalibrationAndGaps11.2.2, memOk_of _ (by decide +kernel), (by decide +kernel), (by decide +kernel), (by decide +kernel), (by decide +kernel)⟩⟩
def wRecordEmission0 : PortId × Fin 3 × Bool × State :=
  let p : PortId := 0
  let k : Fin 3 := 0
  let x : Bool := false
  let s : State := State.reset
  let s := s.updPort p (fun x => { x with due := Vector.replicate 4 [] })
  (p, k, x, s)
def wRecordEmission1 : PortId × Fin 3 × Bool × State × Rec × List Rec :=
  let p : PortId := 0
  let k : Fin 3 := 0
  let x : Bool := false
  let s : State := State.reset
  let r : Rec := dRec
  let rest : List Rec := []
  let s := { s with regs := [], link := { s.link with d3hot := false, perst := false } }
  let q : Nat := 0
  let r : Rec := dRec
  let r := { r with payload := r.payload.take 20 }
  let rest : List Rec := []
  let s := s.updPort p (fun x => { x with due := x.due.set k.val (r :: rest) })
  let d : Desc := { idx := 2, addr := 0x4000, len := 64 * (1 + q), ctl := 0 }
  let d2 : Desc := { idx := 3, addr := 0x9000, len := 64 * (1 + q), ctl := 0 }
  let s := s.updChan (chanOf p k.val) (fun x => { x with st := 1 + q % 2, cur := none, descs := [d, d2], held := [], barrier := false, pack := (q == 1), eocCount := 0, eocAt := 50, format := 1 + q % 3, k := 5 })
  let s := s.updChan (chanOf p k.val) (fun x => { x with st := 0 })
  (p, k, x, s, r, rest)
def wRecordEmission2 : PortId × Fin 3 × Bool × State × Rec × List Rec :=
  let p : PortId := 0
  let k : Fin 3 := 0
  let x : Bool := false
  let s : State := State.reset
  let r : Rec := dRec
  let rest : List Rec := []
  let s := { s with regs := [], link := { s.link with d3hot := false, perst := false } }
  let q : Nat := 0
  let r : Rec := dRec
  let r := { r with payload := r.payload.take 20 }
  let rest : List Rec := []
  let s := s.updPort p (fun x => { x with due := x.due.set k.val (r :: rest) })
  let d : Desc := { idx := 2, addr := 0x4000, len := 64 * (1 + q), ctl := 0 }
  let d2 : Desc := { idx := 3, addr := 0x9000, len := 64 * (1 + q), ctl := 0 }
  let s := s.updChan (chanOf p k.val) (fun x => { x with st := 1 + q % 2, cur := none, descs := [d, d2], held := [], barrier := false, pack := (q == 1), eocCount := 0, eocAt := 50, format := 1 + q % 3, k := 5 })
  let s := s.updChan (chanOf p k.val) (fun x => { x with descs := [], tail := 3, fetch := 4, stalled := false })
  (p, k, x, s, r, rest)
def wRecordEmission3 : PortId × Fin 3 × Bool × State × Rec × List Rec :=
  let p : PortId := 0
  let k : Fin 3 := 0
  let x : Bool := false
  let s : State := State.reset
  let r : Rec := dRec
  let rest : List Rec := []
  let s := { s with regs := [], link := { s.link with d3hot := false, perst := false } }
  let q : Nat := 0
  let r : Rec := dRec
  let r := { r with payload := r.payload.take 20 }
  let rest : List Rec := []
  let s := s.updPort p (fun x => { x with due := x.due.set k.val (r :: rest) })
  let d : Desc := { idx := 2, addr := 0x4000, len := 64 * (1 + q), ctl := 0 }
  let d2 : Desc := { idx := 3, addr := 0x9000, len := 64 * (1 + q), ctl := 0 }
  let s := s.updChan (chanOf p k.val) (fun x => { x with st := 1 + q % 2, cur := none, descs := [d, d2], held := [], barrier := false, pack := (q == 1), eocCount := 0, eocAt := 50, format := 1 + q % 3, k := 5 })
  let s := s.updChan (chanOf p k.val) (fun x => { x with descs := [], tail := 3, fetch := (if q == 0 then 4 else 3), stalled := false })
  let s := { s with link := { s.link with d3hot := (q == 0) } }
  (p, k, x, s, r, rest)
def wRecordEmission4 : PortId × Fin 3 × Bool × State × Rec × List Rec :=
  let p : PortId := 0
  let k : Fin 3 := 0
  let x : Bool := false
  let s : State := State.reset
  let r : Rec := dRec
  let rest : List Rec := []
  let s := { s with regs := [], link := { s.link with d3hot := false, perst := false } }
  let q : Nat := 0
  let r : Rec := dRec
  let r := { r with payload := r.payload.take 20 }
  let rest : List Rec := []
  let s := s.updPort p (fun x => { x with due := x.due.set k.val (r :: rest) })
  let d : Desc := { idx := 2, addr := 0x4000, len := 64 * (1 + q), ctl := 0 }
  let d2 : Desc := { idx := 3, addr := 0x9000, len := 64 * (1 + q), ctl := 0 }
  let s := s.updChan (chanOf p k.val) (fun x => { x with st := 1 + q % 2, cur := none, descs := [d, d2], held := [], barrier := false, pack := (q == 1), eocCount := 0, eocAt := 50, format := 1 + q % 3, k := 5 })
  (p, k, x, s, r, rest)
/-- The conditions of each clause of `Obligations.RecordEmission` are met. -/
theorem test_meets_RecordEmission :
    (∃ (p : PortId) (k : Fin 3) (x : Bool) (s : State), (s.port p).due[k.val] = []) ∧
    (∃ (p : PortId) (k : Fin 3) (x : Bool) (s : State) (r : Rec) (rest : List Rec), ((s.port p).due[k.val] = r :: rest) ∧ ((s.chan (chanOf p k.val)).st = 0 ∨ (s.chan (chanOf p k.val)).st = 3)) ∧
    (∃ (p : PortId) (k : Fin 3) (x : Bool) (s : State) (r : Rec) (rest : List Rec), ((s.port p).due[k.val] = r :: rest) ∧ ((s.chan (chanOf p k.val)).st = 1 ∨ (s.chan (chanOf p k.val)).st = 2) ∧ (s.link.d3hot = false) ∧ ((s.chan (chanOf p k.val)).room (64 + r.payload.length) = false) ∧ ((s.chan (chanOf p k.val)).unread = true)) ∧
    (∃ (p : PortId) (k : Fin 3) (x : Bool) (s : State) (r : Rec) (rest : List Rec), (s.MemOk) ∧ ((s.port p).due[k.val] = r :: rest) ∧ ((s.chan (chanOf p k.val)).st = 1 ∨ (s.chan (chanOf p k.val)).st = 2) ∧ (s.link.d3hot = true ∨ ((s.chan (chanOf p k.val)).room (64 + r.payload.length) = false ∧ (s.chan (chanOf p k.val)).unread = false))) ∧
    (∃ (p : PortId) (k : Fin 3) (x : Bool) (s : State) (r : Rec) (rest : List Rec), (s.MemOk) ∧ ((s.port p).due[k.val] = r :: rest) ∧ ((s.chan (chanOf p k.val)).st = 1 ∨ (s.chan (chanOf p k.val)).st = 2) ∧ (s.link.d3hot = false) ∧ ((s.chan (chanOf p k.val)).room (64 + r.payload.length) = true)) :=
  ⟨⟨wRecordEmission0.1, wRecordEmission0.2.1, wRecordEmission0.2.2.1, wRecordEmission0.2.2.2, by decide +kernel⟩,
   ⟨wRecordEmission1.1, wRecordEmission1.2.1, wRecordEmission1.2.2.1, wRecordEmission1.2.2.2.1, wRecordEmission1.2.2.2.2.1, wRecordEmission1.2.2.2.2.2, by decide +kernel⟩,
   ⟨wRecordEmission2.1, wRecordEmission2.2.1, wRecordEmission2.2.2.1, wRecordEmission2.2.2.2.1, wRecordEmission2.2.2.2.2.1, wRecordEmission2.2.2.2.2.2, by decide +kernel⟩,
   ⟨wRecordEmission3.1, wRecordEmission3.2.1, wRecordEmission3.2.2.1, wRecordEmission3.2.2.2.1, wRecordEmission3.2.2.2.2.1, wRecordEmission3.2.2.2.2.2, memOk_of _ (by decide +kernel), (by decide +kernel), (by decide +kernel), (by decide +kernel)⟩,
   ⟨wRecordEmission4.1, wRecordEmission4.2.1, wRecordEmission4.2.2.1, wRecordEmission4.2.2.2.1, wRecordEmission4.2.2.2.2.1, wRecordEmission4.2.2.2.2.2, memOk_of _ (by decide +kernel), (by decide +kernel), (by decide +kernel), (by decide +kernel), (by decide +kernel)⟩⟩
def wChannelCommands0 : CtxId × Submission × State × ChanId :=
  let cx : CtxId := 0
  let y : Submission := dSubmission
  let s : State := State.reset
  let c : ChanId := 0
  let c : ChanId := c
  let c0 := cx
  let s := served (own (tame s)) cx
  let y := sub 4 (c.val) (0) [0x45000, 3, 4 + 0, 1 + 0, 2 * (1 + 0)] y
  let s := s.updChan c (fun x => { x with st := 0 })
  let s := agree s
  (cx, y, s, c)
def wChannelCommands1 : CtxId × Submission × State × ChanId :=
  let cx : CtxId := 0
  let y : Submission := dSubmission
  let s : State := State.reset
  let c : ChanId := 0
  let c : ChanId := c
  let c0 := cx
  let s := served (own (tame s)) cx
  let y := sub 4 (c.val) (0) [0] y
  let s := s.updChan c (fun x => { x with st := 1 })
  let s := agree s
  (cx, y, s, c)
def wChannelCommands2 : ChanId × State :=
  let c : ChanId := 0
  let s : State := State.reset
  let s := { s with regs := [], link := { s.link with d3hot := false, perst := false } }
  let s := s.updChan c (fun x => { x with k := 4 + x.k % 13, tail := x.tail % 16, head := x.head % 16, fetch := x.fetch % 16, held := [], barrier := false })
  (c, s)
def wChannelCommands3 : ChanId × State :=
  let c : ChanId := 0
  let s : State := State.reset
  let s := { s with regs := [], link := { s.link with d3hot := false, perst := false } }
  let s := s.updChan c (fun x => { x with k := 4 + x.k % 13, tail := x.tail % 16, head := x.head % 16, fetch := x.fetch % 16, held := [], barrier := false })
  let q : Nat := 0
  let s := s.updChan c (fun x => { x with st := 2 + q, cur := none })
  let s := s.updPort (portOfChan c) (fun x => { x with prc := none, due := Vector.replicate 4 [] })
  (c, s)
def wChannelCommands4 : ChanId × State × CurDesc :=
  let c : ChanId := 0
  let s : State := State.reset
  let d : CurDesc := dCurDesc
  let s := { s with regs := [], link := { s.link with d3hot := false, perst := false } }
  let s := s.updChan c (fun x => { x with k := 4 + x.k % 13, tail := x.tail % 16, head := x.head % 16, fetch := x.fetch % 16, held := [], barrier := false })
  let d : CurDesc := dCurDesc
  let ct : Nat := 0
  let d := { d with d := { d.d with ctl := ct, idx := 3 } }
  let s := s.updChan c (fun x => { x with st := 3, cur := some d, eocCount := 2, eocAt := 60 })
  (c, s, d)
def wChannelCommands5 : CtxId × Word × State × ChanId :=
  let c : CtxId := 1
  let v : Word := 63
  let s : State := State.reset
  let d : ChanId := 7
  let s := own s
  let s := s.updCtx c (fun x => { x with selChan := BitVec.ofNat 32 d.val })
  let s := { s with regs := [], link := { s.link with d3hot := false, perst := false } }
  let s := s.updChan d (fun x => { x with k := 4 + x.k % 13, tail := x.tail % 16, head := x.head % 16, fetch := x.fetch % 16, held := [], barrier := false })
  let q : Nat := 3
  let s := s.updChan d (fun x => { x with st := q, cur := (if q == 1 then none else x.cur) })
  let v : Word := BitVec.ofNat 32 7
  (c, v, s, d)
def wChannelCommands6 : CtxId × Word × State × ChanId :=
  let c : CtxId := 1
  let v : Word := 14
  let s : State := State.reset
  let d : ChanId := 3
  let s := own s
  let s := s.updCtx c (fun x => { x with selChan := BitVec.ofNat 32 d.val })
  let s := { s with regs := [], link := { s.link with d3hot := false, perst := false } }
  let s := s.updChan d (fun x => { x with k := 4 + x.k % 13, tail := x.tail % 16, head := x.head % 16, fetch := x.fetch % 16, held := [], barrier := false })
  let q : Nat := 1
  let s := s.updChan d (fun x => { x with st := q, cur := (if q == 1 then none else x.cur) })
  let v : Word := BitVec.ofNat 32 16
  (c, v, s, d)
def wChannelCommands7 : CtxId × Word × State × ChanId :=
  let c : CtxId := 0
  let v : Word := 0
  let s : State := State.reset
  let d : ChanId := 0
  let s := own s
  let s := s.updCtx c (fun x => { x with selChan := BitVec.ofNat 32 d.val })
  let s := { s with regs := [], link := { s.link with d3hot := false, perst := false } }
  let s := s.updChan d (fun x => { x with k := 4 + x.k % 13, tail := x.tail % 16, head := x.head % 16, fetch := x.fetch % 16, held := [], barrier := false })
  let q : Nat := 0
  let s := s.updChan d (fun x => { x with st := q, cur := (if q == 1 then none else x.cur) })
  let v : Word := BitVec.ofNat 32 0
  (c, v, s, d)
/-- The conditions of each clause of `Obligations.ChannelCommands` are met. -/
theorem test_meets_ChannelCommands :
    (∃ (cx : CtxId) (y : Submission) (s : State) (c : ChanId), (s.Accepts cx { op := 0x18, since := 0x20, kinds := [4], slotted := false, args := [0, 1, 2, 3, 4] } y) ∧ (y.unit = c.val) ∧ ((s.ctxs[cx]).port (portOfChan c).val true = true) ∧ ((s.chan c).st = 0) ∧ (y.arg 0 % 4096 = 0) ∧ (4 ≤ y.arg 2 ∧ y.arg 2 ≤ 16) ∧ (1 ≤ y.arg 3 ∧ y.arg 3 ≤ 65535) ∧ (y.arg 4 &&& 0xFFFFFFF1 = 0) ∧ (y.arg 4 ≠ 0) ∧ (s.MemOk)) ∧
    (∃ (cx : CtxId) (y : Submission) (s : State) (c : ChanId), (s.Accepts cx { op := 0x19, since := 0x20, kinds := [4], slotted := false, args := [0] } y) ∧ (y.unit = c.val) ∧ ((s.ctxs[cx]).port (portOfChan c).val true = true) ∧ ((s.chan c).st = 1) ∧ (y.arg 0 ≤ 1)) ∧
    (∃ (c : ChanId) (s : State), (s.chan c).closing = true ∨ (s.chan c).st ≠ 3 ∧ ((s.chan c).st ≠ 2 ∨ s.drained c = false)) ∧
    (∃ (c : ChanId) (s : State), ((s.chan c).closing = false) ∧ ((s.chan c).st = 2 ∧ s.drained c = true ∨ (s.chan c).st = 3) ∧ ((s.chan c).cur = none) ∧ (s.link.d3hot = false) ∧ (s.link.perst = false)) ∧
    (∃ (c : ChanId) (s : State) (d : CurDesc), ((s.chan c).st = 3) ∧ ((s.chan c).cur = some d) ∧ ((s.chan c).held = []) ∧ ((s.chan c).barrier = false) ∧ (d.d.ctl.testBit 14 = false) ∧ ((s.chan c).eocCount + 1 < (s.chan c).eocAt) ∧ (s.link.d3hot = false) ∧ (s.link.perst = false)) ∧
    (∃ (c : CtxId) (v : Word) (s : State) (d : ChanId), (s.Serves c Off.DMA_DC_TAIL true) ∧ ((s.ctxs[c]).selChan.toNat = d.val) ∧ ((s.chan d).st ≠ 0) ∧ (fld v.toNat 15 0 < 2 ^ (s.chan d).k) ∧ ((fld v.toNat 15 0 + 2 ^ (s.chan d).k - (s.chan d).tail) % 2 ^ (s.chan d).k ≤ ((s.chan d).head + 2 ^ (s.chan d).k - 1 - (s.chan d).tail) % 2 ^ (s.chan d).k)) ∧
    (∃ (c : CtxId) (v : Word) (s : State) (d : ChanId), (s.Serves c Off.DMA_DC_TAIL true) ∧ ((s.ctxs[c]).selChan.toNat = d.val) ∧ ((s.chan d).st ≠ 0) ∧ ((s.chan d).closing = false) ∧ ((s.chan d).cur = none) ∧ (2 ^ (s.chan d).k ≤ fld v.toNat 15 0 ∨ ((s.chan d).head + 2 ^ (s.chan d).k - 1 - (s.chan d).tail) % 2 ^ (s.chan d).k < (fld v.toNat 15 0 + 2 ^ (s.chan d).k - (s.chan d).tail) % 2 ^ (s.chan d).k) ∧ (s.link.d3hot = false) ∧ (s.link.perst = false)) ∧
    (∃ (c : CtxId) (v : Word) (s : State) (d : ChanId), (s.Serves c Off.DMA_DC_TAIL true) ∧ ((s.ctxs[c]).selChan.toNat = d.val) ∧ ((s.chan d).st = 0 ∨ (s.chan d).closing = true ∧ (2 ^ (s.chan d).k ≤ fld v.toNat 15 0 ∨ ((s.chan d).head + 2 ^ (s.chan d).k - 1 - (s.chan d).tail) % 2 ^ (s.chan d).k < (fld v.toNat 15 0 + 2 ^ (s.chan d).k - (s.chan d).tail) % 2 ^ (s.chan d).k))) :=
  ⟨⟨wChannelCommands0.1, wChannelCommands0.2.1, wChannelCommands0.2.2.1, wChannelCommands0.2.2.2, (by unfold State.Accepts State.Agrees; decide +kernel), (by decide +kernel), (by decide +kernel), (by decide +kernel), (by decide +kernel), (by decide +kernel), (by decide +kernel), (by decide +kernel), (by decide +kernel), memOk_of _ (by decide +kernel)⟩,
   ⟨wChannelCommands1.1, wChannelCommands1.2.1, wChannelCommands1.2.2.1, wChannelCommands1.2.2.2, by unfold State.Accepts State.Agrees; decide +kernel⟩,
   ⟨wChannelCommands2.1, wChannelCommands2.2, by decide +kernel⟩,
   ⟨wChannelCommands3.1, wChannelCommands3.2, by decide +kernel⟩,
   ⟨wChannelCommands4.1, wChannelCommands4.2.1, wChannelCommands4.2.2, by decide +kernel⟩,
   ⟨wChannelCommands5.1, wChannelCommands5.2.1, wChannelCommands5.2.2.1, wChannelCommands5.2.2.2, by unfold State.Serves; decide +kernel⟩,
   ⟨wChannelCommands6.1, wChannelCommands6.2.1, wChannelCommands6.2.2.1, wChannelCommands6.2.2.2, by unfold State.Serves; decide +kernel⟩,
   ⟨wChannelCommands7.1, wChannelCommands7.2.1, wChannelCommands7.2.2.1, wChannelCommands7.2.2.2, by unfold State.Serves; decide +kernel⟩⟩
def wDescriptorsAndBarriers0 : ChanId × Bool × List Byte × State :=
  let c : ChanId := 0
  let ok : Bool := false
  let bytes : List Byte := []
  let s : State := State.reset
  (c, ok, bytes, s)
def wDescriptorsAndBarriers1 : ChanId × List Byte × State :=
  let c : ChanId := 0
  let bytes : List Byte := []
  let s : State := State.reset
  let s := { s with regs := [], link := { s.link with d3hot := false, perst := false } }
  let s := s.updChan c (fun x => { x with k := 4 + x.k % 13, tail := x.tail % 16, head := x.head % 16, fetch := x.fetch % 16, held := [], barrier := false })
  let q : Nat := 0
  let ix := (s.chan c).fetch
  let s := s.updChan c (fun x => { x with st := 1, stalled := false, tail := (x.fetch + 3) % 2 ^ x.k, fetch := x.fetch % 2 ^ x.k, tries := (if q < 3 then 1 else 3), cur := none })
  (c, bytes, s)
def wDescriptorsAndBarriers2 : ChanId × List Byte × State :=
  let c : ChanId := 33
  let bytes : List Byte := []
  let s : State := State.reset
  let s := { s with regs := [], link := { s.link with d3hot := false, perst := false } }
  let s := s.updChan c (fun x => { x with k := 4 + x.k % 13, tail := x.tail % 16, head := x.head % 16, fetch := x.fetch % 16, held := [], barrier := false })
  let q : Nat := 3
  let ix := (s.chan c).fetch
  let s := s.updChan c (fun x => { x with st := 1, stalled := false, tail := (x.fetch + 3) % 2 ^ x.k, fetch := x.fetch % 2 ^ x.k, tries := (if q < 3 then 1 else 3), cur := none })
  (c, bytes, s)
def wDescriptorsAndBarriers3 : ChanId × List Byte × State :=
  let c : ChanId := 0
  let bytes : List Byte := []
  let s : State := State.reset
  let s := { s with regs := [], link := { s.link with d3hot := false, perst := false } }
  let s := s.updChan c (fun x => { x with k := 4 + x.k % 13, tail := x.tail % 16, head := x.head % 16, fetch := x.fetch % 16, held := [], barrier := false })
  let q : Nat := 0
  let ix := (s.chan c).fetch
  let s := s.updChan c (fun x => { x with st := 1, stalled := false, tail := (x.fetch + 3) % 2 ^ x.k, fetch := x.fetch % 2 ^ x.k, tries := (if q < 3 then 1 else 3), cur := none })
  let bytes : List Byte := List.replicate 32 0
  (c, bytes, s)
def wDescriptorsAndBarriers4 : ChanId × List Byte × State :=
  let c : ChanId := 0
  let bytes : List Byte := []
  let s : State := State.reset
  let s := { s with regs := [], link := { s.link with d3hot := false, perst := false } }
  let s := s.updChan c (fun x => { x with k := 4 + x.k % 13, tail := x.tail % 16, head := x.head % 16, fetch := x.fetch % 16, held := [], barrier := false })
  let q : Nat := 0
  let ix := (s.chan c).fetch
  let s := s.updChan c (fun x => { x with st := 1, stalled := false, tail := (x.fetch + 3) % 2 ^ x.k, fetch := x.fetch % 2 ^ x.k, tries := (if q < 3 then 1 else 3), cur := none })
  let q0 : Nat := 0
  let ctl : Nat := 0
  let ctl := ctl ||| 32768
  let bytes := leBytes 8 0x12345640 ++ leBytes 4 (64 * (1 + q)) ++ leBytes 2 ctl ++ List.replicate 18 0
  (c, bytes, s)
def wDescriptorsAndBarriers5 : ChanId × List Byte × State :=
  let c : ChanId := 0
  let bytes : List Byte := []
  let s : State := State.reset
  let s := { s with regs := [], link := { s.link with d3hot := false, perst := false } }
  let s := s.updChan c (fun x => { x with k := 4 + x.k % 13, tail := x.tail % 16, head := x.head % 16, fetch := x.fetch % 16, held := [], barrier := false })
  let q : Nat := 0
  let ix := (s.chan c).fetch
  let s := s.updChan c (fun x => { x with st := 1, stalled := false, tail := (x.fetch + 3) % 2 ^ x.k, fetch := x.fetch % 2 ^ x.k, tries := (if q < 3 then 1 else 3), cur := none })
  let bytes := leBytes 8 (if q == 0 then 0x12345641 else 0x40) ++ leBytes 4 (if q == 0 then 64 else if q == 1 then 63 else if q == 2 then 0 else 64 + 16777216) ++ leBytes 2 0x8000 ++ List.replicate 18 0
  (c, bytes, s)
def wDescriptorsAndBarriers6 : ChanId × List Byte × State × CurDesc :=
  let c : ChanId := 0
  let bytes : List Byte := []
  let s : State := State.reset
  let d : CurDesc := dCurDesc
  let s := { s with regs := [], link := { s.link with d3hot := false, perst := false } }
  let s := s.updChan c (fun x => { x with k := 4 + x.k % 13, tail := x.tail % 16, head := x.head % 16, fetch := x.fetch % 16, held := [], barrier := false })
  let q : Nat := 0
  let ix := (s.chan c).fetch
  let s := s.updChan c (fun x => { x with st := 1, stalled := false, tail := (x.fetch + 3) % 2 ^ x.k, fetch := x.fetch % 2 ^ x.k, tries := (if q < 3 then 1 else 3), cur := none })
  let d : CurDesc := dCurDesc
  let ct : Nat := 0
  let d := { d with d := { d.d with ctl := ct, idx := 3 } }
  let s := s.updChan c (fun x => { x with cur := some d, eocCount := 2, eocAt := 60, tries := 3 })
  (c, bytes, s, d)
def wDescriptorsAndBarriers7 : ChanId × List Byte × State × CurDesc :=
  let c : ChanId := 0
  let bytes : List Byte := []
  let s : State := State.reset
  let d : CurDesc := dCurDesc
  let s := { s with regs := [], link := { s.link with d3hot := false, perst := false } }
  let s := s.updChan c (fun x => { x with k := 4 + x.k % 13, tail := x.tail % 16, head := x.head % 16, fetch := x.fetch % 16, held := [], barrier := false })
  let q : Nat := 0
  let ix := (s.chan c).fetch
  let s := s.updChan c (fun x => { x with st := 1, stalled := false, tail := (x.fetch + 3) % 2 ^ x.k, fetch := x.fetch % 2 ^ x.k, tries := (if q < 3 then 1 else 3), cur := none })
  let bytes := leBytes 8 (if q == 0 then 0x12345641 else 0x40) ++ leBytes 4 (if q == 0 then 64 else if q == 1 then 63 else if q == 2 then 0 else 64 + 16777216) ++ leBytes 2 0x8000 ++ List.replicate 18 0
  let d : CurDesc := dCurDesc
  let ct : Nat := 0
  let d := { d with d := { d.d with ctl := ct, idx := 3 } }
  let s := s.updChan c (fun x => { x with cur := some d, eocCount := 2, eocAt := 60, tries := 3 })
  (c, bytes, s, d)
def wDescriptorsAndBarriers8 : ChanId × State :=
  let c : ChanId := 0
  let s : State := State.reset
  (c, s)
def wDescriptorsAndBarriers9 : ChanId × State × HandBack :=
  let c : ChanId := 0
  let s : State := State.reset
  let b : HandBack := dHandBack
  let s := { s with regs := [], link := { s.link with d3hot := false, perst := false } }
  let q : Nat := 0
  let s := s.updChan c (fun x => { x with k := 5, barrier := true, held := [{ bar := true, hb := some b, events := [], fin := none }], eocCount := 2, eocAt := (if q == 0 then 3 else 30) })
  (c, s, b)
def wDescriptorsAndBarriers10 : ChanId × State × Nat × Nat :=
  let c : ChanId := 0
  let s : State := State.reset
  let cause : Nat := 0
  let idx : Nat := 0
  let s := { s with regs := [] }
  let s := s.updChan c (fun x => { x with barrier := true, held := [{ bar := true, hb := none, events := [], fin := some (cause, idx) }] })
  (c, s, cause, idx)
def wDescriptorsAndBarriers11 : ChanId × State × Nat :=
  let c : ChanId := 0
  let s : State := State.reset
  let n : Nat := 0
  let s := { (s.setReg c.val Off.DMA_DC_EOC (65536 * 3 + 9)) with now := 9000 }
  let s := s.updChan c (fun x => { x with barrier := true, eocFirst := some 5, held := [{ bar := true, hb := none, events := [], fin := none, timed := true }] })
  let n := 5
  (c, s, n)
def wDescriptorsAndBarriers12 : ChanId × Nat × State :=
  let c : ChanId := 0
  let t0 : Nat := 0
  let s : State := State.reset
  (c, t0, s)
def wDescriptorsAndBarriers13 : ChanId × Nat × State × CurDesc × Nat :=
  let c : ChanId := 0
  let t0 : Nat := 0
  let s : State := State.reset
  let d : CurDesc := dCurDesc
  let n : Nat := 0
  let d : CurDesc := dCurDesc
  let d := { d with since := some 5, records := 1 + d.records % 9 }
  let n := 5
  let s := s.updChan c (fun x => { x with cur := some d, pack := true, hold := 3, barrier := true })
  let t0 := 10000
  (c, t0, s, d, n)
def wDescriptorsAndBarriers14 : ChanId × Nat × State × CurDesc × Nat :=
  let c : ChanId := 0
  let t0 : Nat := 0
  let s : State := State.reset
  let d : CurDesc := dCurDesc
  let n : Nat := 0
  let s := { s with regs := [], link := { s.link with d3hot := false, perst := false } }
  let s := s.updChan c (fun x => { x with k := 4 + x.k % 13, tail := x.tail % 16, head := x.head % 16, fetch := x.fetch % 16, held := [], barrier := false })
  let q : Nat := 0
  let d : CurDesc := dCurDesc
  let ct : Nat := 0
  let d := { d with d := { d.d with ctl := (if q == 0 then ct else ct % 16384) }, since := some 5, records := 1 + d.records % 9 }
  let n := 5
  let s := s.updChan c (fun x => { x with cur := some d, pack := true, hold := 3, eocCount := 2, eocAt := (if q == 1 then 3 else 60) })
  let t0 := 10000
  (c, t0, s, d, n)
def wDescriptorsAndBarriers15 : ChanId × Nat × State :=
  let c : ChanId := 0
  let t0 : Nat := 0
  let s : State := State.reset
  (c, t0, s)
def wDescriptorsAndBarriers16 : ChanId × Nat × State × Nat :=
  let c : ChanId := 0
  let t0 : Nat := 0
  let s : State := State.reset
  let n : Nat := 0
  let s := { s with regs := [], link := { s.link with d3hot := false, perst := false } }
  let s := s.updChan c (fun x => { x with k := 4 + x.k % 13, tail := x.tail % 16, head := x.head % 16, fetch := x.fetch % 16, held := [], barrier := false })
  let s := (s.setReg c.val Off.DMA_DC_EOC (65536 * 3 + 9)).updChan c (fun x => { x with st := 1, eocFirst := some 5 })
  let n := 5
  let t0 := 10000
  (c, t0, s, n)
/-- The conditions of each clause of `Obligations.DescriptorsAndBarriers` are met. -/
theorem test_meets_DescriptorsAndBarriers :
    (∃ (c : ChanId) (ok : Bool) (bytes : List Byte) (s : State), (s.chan c).st = 0 ∨ (s.chan c).st = 3 ∨ (s.chan c).fetch = (s.chan c).tail ∨ (s.chan c).stalled = true ∨ s.link.d3hot = true ∨ s.link.perst = true) ∧
    (∃ (c : ChanId) (bytes : List Byte) (s : State), ((s.chan c).st = 1 ∨ (s.chan c).st = 2) ∧ ((s.chan c).fetch ≠ (s.chan c).tail) ∧ ((s.chan c).stalled = false) ∧ (s.link.d3hot = false) ∧ (s.link.perst = false) ∧ ((s.chan c).tries < 3)) ∧
    (∃ (c : ChanId) (bytes : List Byte) (s : State), (s.MemOk) ∧ ((s.chan c).st = 1 ∨ (s.chan c).st = 2) ∧ ((s.chan c).fetch ≠ (s.chan c).tail) ∧ ((s.chan c).stalled = false) ∧ (s.link.d3hot = false) ∧ (s.link.perst = false) ∧ (3 ≤ (s.chan c).tries) ∧ ((s.chan c).cur = none) ∧ ((s.chan c).closing = false)) ∧
    (∃ (c : ChanId) (bytes : List Byte) (s : State), ((s.chan c).st = 1 ∨ (s.chan c).st = 2) ∧ ((s.chan c).fetch ≠ (s.chan c).tail) ∧ ((s.chan c).stalled = false) ∧ (s.link.d3hot = false) ∧ (s.link.perst = false) ∧ ((leAt bytes 0x0C 2).testBit 15 = false)) ∧
    (∃ (c : ChanId) (bytes : List Byte) (s : State), ((s.chan c).st = 1 ∨ (s.chan c).st = 2) ∧ ((s.chan c).fetch ≠ (s.chan c).tail) ∧ ((s.chan c).stalled = false) ∧ (s.link.d3hot = false) ∧ (s.link.perst = false) ∧ ((leAt bytes 0x0C 2).testBit 15 = true) ∧ (leAt bytes 0 8 % 64 = 0) ∧ (leAt bytes 8 4 % 64 = 0) ∧ (64 ≤ leAt bytes 8 4) ∧ (leAt bytes 8 4 ≤ 2 ^ 24)) ∧
    (∃ (c : ChanId) (bytes : List Byte) (s : State), ((s.chan c).st = 1 ∨ (s.chan c).st = 2) ∧ ((s.chan c).fetch ≠ (s.chan c).tail) ∧ ((s.chan c).stalled = false) ∧ (s.link.d3hot = false) ∧ (s.link.perst = false) ∧ ((leAt bytes 0x0C 2).testBit 15 = true) ∧ (leAt bytes 0 8 % 64 ≠ 0 ∨ leAt bytes 8 4 % 64 ≠ 0 ∨ leAt bytes 8 4 < 64 ∨ 2 ^ 24 < leAt bytes 8 4) ∧ ((s.chan c).cur = none) ∧ ((s.chan c).closing = false)) ∧
    (∃ (c : ChanId) (bytes : List Byte) (s : State) (d : CurDesc), (s.MemOk) ∧ ((s.chan c).st = 1 ∨ (s.chan c).st = 2) ∧ ((s.chan c).fetch ≠ (s.chan c).tail) ∧ ((s.chan c).stalled = false) ∧ (s.link.d3hot = false) ∧ (s.link.perst = false) ∧ (3 ≤ (s.chan c).tries) ∧ ((s.chan c).cur = some d) ∧ ((s.chan c).closing = false) ∧ ((s.chan c).held = []) ∧ ((s.chan c).barrier = false) ∧ (d.d.ctl.testBit 14 = false) ∧ ((s.chan c).eocCount + 1 < (s.chan c).eocAt)) ∧
    (∃ (c : ChanId) (bytes : List Byte) (s : State) (d : CurDesc), (s.MemOk) ∧ ((s.chan c).st = 1 ∨ (s.chan c).st = 2) ∧ ((s.chan c).fetch ≠ (s.chan c).tail) ∧ ((s.chan c).stalled = false) ∧ (s.link.d3hot = false) ∧ (s.link.perst = false) ∧ ((leAt bytes 0x0C 2).testBit 15 = true) ∧ (leAt bytes 0 8 % 64 ≠ 0 ∨ leAt bytes 8 4 % 64 ≠ 0 ∨ leAt bytes 8 4 < 64 ∨ 2 ^ 24 < leAt bytes 8 4) ∧ ((s.chan c).cur = some d) ∧ ((s.chan c).closing = false) ∧ ((s.chan c).held = []) ∧ ((s.chan c).barrier = false) ∧ (d.d.ctl.testBit 14 = false) ∧ ((s.chan c).eocCount + 1 < (s.chan c).eocAt)) ∧
    (∃ (c : ChanId) (s : State), (s.chan c).barrier = false) ∧
    (∃ (c : ChanId) (s : State) (b : HandBack), (s.MemOk) ∧ ((s.chan c).barrier = true) ∧ ((s.chan c).held = [{ bar := true, hb := some b, events := [], fin := none }])) ∧
    (∃ (c : ChanId) (s : State) (cause : Nat) (idx : Nat), (s.MemOk) ∧ ((s.chan c).barrier = true) ∧ ((s.chan c).held = [{ bar := true, hb := none, events := [], fin := some (cause, idx) }])) ∧
    (∃ (c : ChanId) (s : State) (n : Nat), (s.MemOk) ∧ ((s.chan c).barrier = true) ∧ ((s.chan c).held = [{ bar := true, hb := none, events := [], fin := none, timed := true }]) ∧ ((s.chan c).eocFirst = some n) ∧ (s.rf c.val Off.DMA_DC_EOC 31 16 ≠ 0) ∧ (n + s.rf c.val Off.DMA_DC_EOC 31 16 * 1000 ≤ s.now)) ∧
    (∃ (c : ChanId) (t0 : Nat) (s : State), ∀ d ∈ (s.chan c).cur, ∀ n ∈ d.since, (s.chan c).pack = false ∨ d.records = 0 ∨ max s.now t0 < n + (s.chan c).hold * 1000) ∧
    (∃ (c : ChanId) (t0 : Nat) (s : State) (d : CurDesc) (n : Nat), ((s.chan c).cur = some d) ∧ (d.since = some n) ∧ ((s.chan c).pack = true) ∧ (d.records ≠ 0) ∧ (n + (s.chan c).hold * 1000 ≤ max s.now t0) ∧ ((s.chan c).barrier = true)) ∧
    (∃ (c : ChanId) (t0 : Nat) (s : State) (d : CurDesc) (n : Nat), ((s.chan c).cur = some d) ∧ (d.since = some n) ∧ ((s.chan c).pack = true) ∧ (d.records ≠ 0) ∧ (n + (s.chan c).hold * 1000 ≤ max s.now t0) ∧ ((s.chan c).barrier = false) ∧ ((s.chan c).held = []) ∧ (s.link.d3hot = false) ∧ (s.link.perst = false)) ∧
    (∃ (c : ChanId) (t0 : Nat) (s : State), (s.chan c).eocFirst = none ∨ s.rf c.val Off.DMA_DC_EOC 31 16 = 0 ∨ (s.chan c).st = 0 ∨ (∀ n ∈ (s.chan c).eocFirst, max s.now t0 < n + s.rf c.val Off.DMA_DC_EOC 31 16 * 1000)) ∧
    (∃ (c : ChanId) (t0 : Nat) (s : State) (n : Nat), ((s.chan c).eocFirst = some n) ∧ (s.rf c.val Off.DMA_DC_EOC 31 16 ≠ 0) ∧ ((s.chan c).st ≠ 0) ∧ (n + s.rf c.val Off.DMA_DC_EOC 31 16 * 1000 ≤ max s.now t0) ∧ ((s.chan c).held = []) ∧ ((s.chan c).barrier = false) ∧ (s.link.d3hot = false) ∧ (s.link.perst = false)) :=
  ⟨⟨wDescriptorsAndBarriers0.1, wDescriptorsAndBarriers0.2.1, wDescriptorsAndBarriers0.2.2.1, wDescriptorsAndBarriers0.2.2.2, by decide +kernel⟩,
   ⟨wDescriptorsAndBarriers1.1, wDescriptorsAndBarriers1.2.1, wDescriptorsAndBarriers1.2.2, by decide +kernel⟩,
   ⟨wDescriptorsAndBarriers2.1, wDescriptorsAndBarriers2.2.1, wDescriptorsAndBarriers2.2.2, memOk_of _ (by decide +kernel), (by decide +kernel), (by decide +kernel), (by decide +kernel), (by decide +kernel), (by decide +kernel), (by decide +kernel), (by decide +kernel), (by decide +kernel)⟩,
   ⟨wDescriptorsAndBarriers3.1, wDescriptorsAndBarriers3.2.1, wDescriptorsAndBarriers3.2.2, by decide +kernel⟩,
   ⟨wDescriptorsAndBarriers4.1, wDescriptorsAndBarriers4.2.1, wDescriptorsAndBarriers4.2.2, by decide +kernel⟩,
   ⟨wDescriptorsAndBarriers5.1, wDescriptorsAndBarriers5.2.1, wDescriptorsAndBarriers5.2.2, by decide +kernel⟩,
   ⟨wDescriptorsAndBarriers6.1, wDescriptorsAndBarriers6.2.1, wDescriptorsAndBarriers6.2.2.1, wDescriptorsAndBarriers6.2.2.2, memOk_of _ (by decide +kernel), (by decide +kernel), (by decide +kernel), (by decide +kernel), (by decide +kernel), (by decide +kernel), (by decide +kernel), (by decide +kernel), (by decide +kernel), (by decide +kernel), (by decide +kernel), (by decide +kernel), (by decide +kernel)⟩,
   ⟨wDescriptorsAndBarriers7.1, wDescriptorsAndBarriers7.2.1, wDescriptorsAndBarriers7.2.2.1, wDescriptorsAndBarriers7.2.2.2, memOk_of _ (by decide +kernel), (by decide +kernel), (by decide +kernel), (by decide +kernel), (by decide +kernel), (by decide +kernel), (by decide +kernel), (by decide +kernel), (by decide +kernel), (by decide +kernel), (by decide +kernel), (by decide +kernel), (by decide +kernel), (by decide +kernel)⟩,
   ⟨wDescriptorsAndBarriers8.1, wDescriptorsAndBarriers8.2, by decide +kernel⟩,
   ⟨wDescriptorsAndBarriers9.1, wDescriptorsAndBarriers9.2.1, wDescriptorsAndBarriers9.2.2, memOk_of _ (by decide +kernel), (by decide +kernel), (by decide +kernel)⟩,
   ⟨wDescriptorsAndBarriers10.1, wDescriptorsAndBarriers10.2.1, wDescriptorsAndBarriers10.2.2.1, wDescriptorsAndBarriers10.2.2.2, memOk_of _ (by decide +kernel), (by decide +kernel), (by decide +kernel)⟩,
   ⟨wDescriptorsAndBarriers11.1, wDescriptorsAndBarriers11.2.1, wDescriptorsAndBarriers11.2.2, memOk_of _ (by decide +kernel), (by decide +kernel), (by decide +kernel), (by decide +kernel), (by decide +kernel), (by decide +kernel)⟩,
   ⟨wDescriptorsAndBarriers12.1, wDescriptorsAndBarriers12.2.1, wDescriptorsAndBarriers12.2.2, by decide +kernel⟩,
   ⟨wDescriptorsAndBarriers13.1, wDescriptorsAndBarriers13.2.1, wDescriptorsAndBarriers13.2.2.1, wDescriptorsAndBarriers13.2.2.2.1, wDescriptorsAndBarriers13.2.2.2.2, by decide +kernel⟩,
   ⟨wDescriptorsAndBarriers14.1, wDescriptorsAndBarriers14.2.1, wDescriptorsAndBarriers14.2.2.1, wDescriptorsAndBarriers14.2.2.2.1, wDescriptorsAndBarriers14.2.2.2.2, by decide +kernel⟩,
   ⟨wDescriptorsAndBarriers15.1, wDescriptorsAndBarriers15.2.1, wDescriptorsAndBarriers15.2.2, by decide +kernel⟩,
   ⟨wDescriptorsAndBarriers16.1, wDescriptorsAndBarriers16.2.1, wDescriptorsAndBarriers16.2.2.1, wDescriptorsAndBarriers16.2.2.2, by decide +kernel⟩⟩
def wScriptTransfers0 : ScriptId × ZscFields × State :=
  let c : ScriptId := 0
  let f : ZscFields := dZscFields
  let s : State := State.reset
  let s := running { s with regs := [], engs := s.engs.map (fun (x : Eng) => { x with scratch := [] }) } (scriptEng c) 0
  let f := { f with cond := 0, rd := 0, rb := 0, ext := 0 }
  let f := { f with ra := 3, imm := 0x40 }
  let s := s.updEng (scriptEng c) (fun x => { x with g := x.g.set 3 0 })
  let f := { f with cond := 1 + f.cond % 14#4 }
  (c, f, s)
def wScriptTransfers1 : ScriptId × ZscFields × State :=
  let c : ScriptId := 0
  let f : ZscFields := dZscFields
  let s : State := State.reset
  let s := running { s with regs := [], engs := s.engs.map (fun (x : Eng) => { x with scratch := [] }) } (scriptEng c) 0
  let f := { f with cond := 0, rd := 0, rb := 0, ext := 0 }
  let f := { f with ra := 3, imm := 0x40 }
  let s := s.updEng (scriptEng c) (fun x => { x with g := x.g.set 3 0 })
  let f := { f with imm := BitVec.ofNat 32 (0x3E1 + c.val) }
  (c, f, s)
def wScriptTransfers2 : ScriptId × ZscFields × State :=
  let c : ScriptId := 0
  let f : ZscFields := dZscFields
  let s : State := State.reset
  let s := running { s with regs := [], engs := s.engs.map (fun (x : Eng) => { x with scratch := [] }) } (scriptEng c) 0
  let f := { f with cond := 0, rd := 0, rb := 0, ext := 0 }
  let f := { f with ra := 3, imm := 0x40 }
  let s := s.updEng (scriptEng c) (fun x => { x with g := x.g.set 3 0 })
  let f := { f with cond := 1 + f.cond % 14#4 }
  (c, f, s)
def wScriptTransfers3 : ScriptId × ZscFields × State :=
  let c : ScriptId := 0
  let f : ZscFields := dZscFields
  let s : State := State.reset
  let s := running { s with regs := [], engs := s.engs.map (fun (x : Eng) => { x with scratch := [] }) } (scriptEng c) 0
  let f := { f with cond := 0, rd := 0, rb := 0, ext := 0 }
  let f := { f with ra := 3, imm := 0x40 }
  let s := s.updEng (scriptEng c) (fun x => { x with g := x.g.set 3 0 })
  let f := { f with imm := BitVec.ofNat 32 (0x3E1 + c.val) }
  (c, f, s)
def wScriptTransfers4 : ScriptId × ZscFields × State :=
  let c : ScriptId := 0
  let f : ZscFields := dZscFields
  let s : State := State.reset
  let s := running { s with regs := [], engs := s.engs.map (fun (x : Eng) => { x with scratch := [] }) } (scriptEng c) 0
  let f := { f with cond := 0, rd := 0, rb := 0, ext := 0 }
  let f := { f with ra := 3, imm := 0x40 }
  let s := s.updEng (scriptEng c) (fun x => { x with g := x.g.set 3 0 })
  let f := { f with cond := 1 + f.cond % 14#4 }
  (c, f, s)
def wScriptTransfers5 : ScriptId × ZscFields × State :=
  let c : ScriptId := 0
  let f : ZscFields := dZscFields
  let s : State := State.reset
  let s := running { s with regs := [], engs := s.engs.map (fun (x : Eng) => { x with scratch := [] }) } (scriptEng c) 0
  let f := { f with cond := 0, rd := 0, rb := 0, ext := 0 }
  let f := { f with ra := 3, imm := 0x40 }
  let s := s.updEng (scriptEng c) (fun x => { x with g := x.g.set 3 0 })
  let f := { f with imm := BitVec.ofNat 32 (0x3E1 + c.val) }
  (c, f, s)
def wScriptTransfers6 : ScriptId × ZscFields × State × List Byte :=
  let c : ScriptId := 0
  let f : ZscFields := dZscFields
  let s : State := State.reset
  let b : List Byte := []
  let s := running { s with regs := [], engs := s.engs.map (fun (x : Eng) => { x with scratch := [] }) } (scriptEng c) 0
  let f := { f with cond := 0, rd := 0, rb := 0, ext := 0 }
  let f := { f with ra := 3, imm := 0x40 }
  let s := s.updEng (scriptEng c) (fun x => { x with g := x.g.set 3 0 })
  let b : List Byte := leBytes 8 (0x100) ++ leBytes 8 (0x120) ++ leBytes 4 ([1,64,20][c.val % 3]?.getD 1) ++ leBytes 1 (c.val % 2 * 2) ++ leBytes 1 (2) ++ leBytes 2 0 ++ leBytes 8 0
  let s := s.updEng (scriptEng c) (fun x => { x with scratch := (List.range 8).filterMap (fun i => if leAt b (4*i) 4 == 0 then none else some (16 + i, BitVec.ofNat 32 (leAt b (4 * i) 4))) })
  (c, f, s, b)
def wScriptTransfers7 : ScriptId × ZscFields × State × List Byte :=
  let c : ScriptId := 0
  let f : ZscFields := dZscFields
  let s : State := State.reset
  let b : List Byte := []
  let s := running { s with regs := [], engs := s.engs.map (fun (x : Eng) => { x with scratch := [] }) } (scriptEng c) 0
  let f := { f with cond := 0, rd := 0, rb := 0, ext := 0 }
  let f := { f with ra := 3, imm := 0x40 }
  let s := s.updEng (scriptEng c) (fun x => { x with g := x.g.set 3 0 })
  let b : List Byte := leBytes 8 (0x100) ++ leBytes 8 (0x120) ++ leBytes 4 (0) ++ leBytes 1 (c.val % 3) ++ leBytes 1 (2) ++ leBytes 2 0 ++ leBytes 8 0
  let s := s.updEng (scriptEng c) (fun x => { x with scratch := (List.range 8).filterMap (fun i => if leAt b (4*i) 4 == 0 then none else some (16 + i, BitVec.ofNat 32 (leAt b (4 * i) 4))) })
  (c, f, s, b)
def wScriptTransfers8 : ScriptId × ZscFields × State × List Byte :=
  let c : ScriptId := 0
  let f : ZscFields := dZscFields
  let s : State := State.reset
  let b : List Byte := []
  let s := running { s with regs := [], engs := s.engs.map (fun (x : Eng) => { x with scratch := [] }) } (scriptEng c) 0
  let f := { f with cond := 0, rd := 0, rb := 0, ext := 0 }
  let f := { f with ra := 3, imm := 0x40 }
  let s := s.updEng (scriptEng c) (fun x => { x with g := x.g.set 3 0 })
  let b : List Byte := leBytes 8 (0x100) ++ leBytes 8 (0x3F0) ++ leBytes 4 (64) ++ leBytes 1 (c.val % 3) ++ leBytes 1 (2) ++ leBytes 2 0 ++ leBytes 8 0
  let s := s.updEng (scriptEng c) (fun x => { x with scratch := (List.range 8).filterMap (fun i => if leAt b (4*i) 4 == 0 then none else some (16 + i, BitVec.ofNat 32 (leAt b (4 * i) 4))) })
  (c, f, s, b)
def wScriptTransfers9 : ScriptId × ZscFields × State × List Byte × Nat × Nat × Nat × Nat :=
  let c : ScriptId := 0
  let f : ZscFields := dZscFields
  let s : State := State.reset
  let b : List Byte := []
  let np : Nat := 0
  let m : Nat := 0
  let el : Nat := 0
  let dir : Nat := 0
  let s := running { s with regs := [], engs := s.engs.map (fun (x : Eng) => { x with scratch := [] }) } (scriptEng c) 0
  let f := { f with cond := 0, rd := 0, rb := 0, ext := 0 }
  let f := { f with ra := 3, imm := 0x40 }
  let s := s.updEng (scriptEng c) (fun x => { x with g := x.g.set 3 0 })
  let b : List Byte := leBytes 8 (0x100) ++ leBytes 8 (0x200) ++ leBytes 4 (3 * 5 * 2) ++ leBytes 1 (2) ++ leBytes 1 (2) ++ leBytes 2 0 ++ leBytes 1 3 ++ leBytes 1 1 ++ leBytes 1 (c.val % 2) ++ leBytes 1 0 ++ leBytes 4 5
  let s := s.updEng (scriptEng c) (fun x => { x with scratch := (List.range 8).filterMap (fun i => if leAt b (4*i) 4 == 0 then none else some (16 + i, BitVec.ofNat 32 (leAt b (4 * i) 4))) })
  let np := 3
  let m := 5
  let el := 2
  let dir := c.val % 2
  (c, f, s, b, np, m, el, dir)
def wScriptTransfers10 : ScriptId × ZscFields × State × List Byte :=
  let c : ScriptId := 0
  let f : ZscFields := dZscFields
  let s : State := State.reset
  let b : List Byte := []
  let s := running { s with regs := [], engs := s.engs.map (fun (x : Eng) => { x with scratch := [] }) } (scriptEng c) 0
  let f := { f with cond := 0, rd := 0, rb := 0, ext := 0 }
  let f := { f with ra := 3, imm := 0x40 }
  let s := s.updEng (scriptEng c) (fun x => { x with g := x.g.set 3 0 })
  let b : List Byte := leBytes 8 (0x100) ++ leBytes 8 (0x110) ++ leBytes 4 (3 * 5 * 2) ++ leBytes 1 (2) ++ leBytes 1 (2) ++ leBytes 2 0 ++ leBytes 1 3 ++ leBytes 1 1 ++ leBytes 1 (c.val % 2) ++ leBytes 1 0 ++ leBytes 4 5
  let s := s.updEng (scriptEng c) (fun x => { x with scratch := (List.range 8).filterMap (fun i => if leAt b (4*i) 4 == 0 then none else some (16 + i, BitVec.ofNat 32 (leAt b (4 * i) 4))) })
  (c, f, s, b)
def wScriptTransfers11 : ScriptId × ZscFields × State × List Byte × Nat × Nat :=
  let c : ScriptId := 0
  let f : ZscFields := dZscFields
  let s : State := State.reset
  let b : List Byte := []
  let tb : Nat := 0
  let mode : Nat := 0
  let s := running { s with regs := [], engs := s.engs.map (fun (x : Eng) => { x with scratch := [] }) } (scriptEng c) 0
  let f := { f with cond := 0, rd := 0, rb := 0, ext := 0 }
  let f := { f with ra := 3, imm := 0x40 }
  let s := s.updEng (scriptEng c) (fun x => { x with g := x.g.set 3 0 })
  let b : List Byte := leBytes 8 (0x1000) ++ leBytes 8 (0x200) ++ leBytes 4 (0) ++ leBytes 1 (0) ++ leBytes 1 (2) ++ leBytes 2 0 ++ leBytes 1 5 ++ leBytes 1 (c.val % 2) ++ leBytes 6 0
  let s := s.updEng (scriptEng c) (fun x => { x with scratch := (List.range 8).filterMap (fun i => if leAt b (4*i) 4 == 0 then none else some (16 + i, BitVec.ofNat 32 (leAt b (4 * i) 4))) })
  let tb := 5
  let mode := c.val % 2
  (c, f, s, b, tb, mode)
def wScriptTransfers12 : ScriptId × ZscFields × State × List Byte :=
  let c : ScriptId := 0
  let f : ZscFields := dZscFields
  let s : State := State.reset
  let b : List Byte := []
  let s := running { s with regs := [], engs := s.engs.map (fun (x : Eng) => { x with scratch := [] }) } (scriptEng c) 0
  let f := { f with cond := 0, rd := 0, rb := 0, ext := 0 }
  let f := { f with ra := 3, imm := 0x40 }
  let s := s.updEng (scriptEng c) (fun x => { x with g := x.g.set 3 0 })
  let b : List Byte := leBytes 8 (0x1000) ++ leBytes 8 (0x200) ++ leBytes 4 (c.val % 2) ++ leBytes 1 (0) ++ leBytes 1 (2) ++ leBytes 2 0 ++ leBytes 1 65 ++ leBytes 1 (c.val % 2) ++ leBytes 6 0
  let s := s.updEng (scriptEng c) (fun x => { x with scratch := (List.range 8).filterMap (fun i => if leAt b (4*i) 4 == 0 then none else some (16 + i, BitVec.ofNat 32 (leAt b (4 * i) 4))) })
  (c, f, s, b)
/-- The conditions of each clause of `Obligations.ScriptTransfers` are met. -/
theorem test_meets_ScriptTransfers :
    (∃ (c : ScriptId) (f : ZscFields) (s : State), (s.Takes (scriptEng c) 1 { ra := true, imm := true } f) ∧ ((s.eng (scriptEng c)).condTrue f.cond = false)) ∧
    (∃ (c : ScriptId) (f : ZscFields) (s : State), (s.Takes (scriptEng c) 1 { ra := true, imm := true } f) ∧ ((s.eng (scriptEng c)).condTrue f.cond = true) ∧ (((s.eng (scriptEng c)).get f.ra + f.imm).toNat % 8 ≠ 0 ∨ 0x3E0 < ((s.eng (scriptEng c)).get f.ra + f.imm).toNat)) ∧
    (∃ (c : ScriptId) (f : ZscFields) (s : State), (s.Takes (scriptEng c) 1 { ra := true, imm := true } f) ∧ ((s.eng (scriptEng c)).condTrue f.cond = false)) ∧
    (∃ (c : ScriptId) (f : ZscFields) (s : State), (s.Takes (scriptEng c) 1 { ra := true, imm := true } f) ∧ ((s.eng (scriptEng c)).condTrue f.cond = true) ∧ (((s.eng (scriptEng c)).get f.ra + f.imm).toNat % 8 ≠ 0 ∨ 0x3E0 < ((s.eng (scriptEng c)).get f.ra + f.imm).toNat)) ∧
    (∃ (c : ScriptId) (f : ZscFields) (s : State), (s.Takes (scriptEng c) 1 { ra := true, imm := true } f) ∧ ((s.eng (scriptEng c)).condTrue f.cond = false)) ∧
    (∃ (c : ScriptId) (f : ZscFields) (s : State), (s.Takes (scriptEng c) 1 { ra := true, imm := true } f) ∧ ((s.eng (scriptEng c)).condTrue f.cond = true) ∧ (((s.eng (scriptEng c)).get f.ra + f.imm).toNat % 8 ≠ 0 ∨ 0x3E0 < ((s.eng (scriptEng c)).get f.ra + f.imm).toNat)) ∧
    (∃ (c : ScriptId) (f : ZscFields) (s : State) (b : List Byte), (s.Takes (scriptEng c) 1 { ra := true, imm := true } f) ∧ ((s.eng (scriptEng c)).condTrue f.cond = true) ∧ (((s.eng (scriptEng c)).get f.ra + f.imm).toNat % 8 = 0) ∧ (((s.eng (scriptEng c)).get f.ra + f.imm).toNat ≤ 0x3E0) ∧ (b = (s.eng (scriptEng c)).xferBlock ((s.eng (scriptEng c)).get f.ra + f.imm).toNat) ∧ (leAt b 0x14 1 < 3) ∧ (leAt b 0x15 1 < 3) ∧ (leAt b 0x16 2 = 0) ∧ (leAt b 0x18 8 = 0) ∧ (rangeOk (leAt b 0x14 1) (leAt b 0 8) (leAt b 0x10 4) = true) ∧ (rangeOk (leAt b 0x15 1) (leAt b 8 8) (leAt b 0x10 4) = true) ∧ (leAt b 0x10 4 ≠ 0)) ∧
    (∃ (c : ScriptId) (f : ZscFields) (s : State) (b : List Byte), (s.Takes (scriptEng c) 1 { ra := true, imm := true } f) ∧ ((s.eng (scriptEng c)).condTrue f.cond = true) ∧ (((s.eng (scriptEng c)).get f.ra + f.imm).toNat % 8 = 0) ∧ (((s.eng (scriptEng c)).get f.ra + f.imm).toNat ≤ 0x3E0) ∧ (b = (s.eng (scriptEng c)).xferBlock ((s.eng (scriptEng c)).get f.ra + f.imm).toNat) ∧ (leAt b 0x14 1 < 3) ∧ (leAt b 0x15 1 < 3) ∧ (leAt b 0x16 2 = 0) ∧ (leAt b 0x18 8 = 0) ∧ (rangeOk (leAt b 0x14 1) (leAt b 0 8) 0 = true) ∧ (rangeOk (leAt b 0x15 1) (leAt b 8 8) 0 = true) ∧ (leAt b 0x10 4 = 0)) ∧
    (∃ (c : ScriptId) (f : ZscFields) (s : State) (b : List Byte), (s.MemOk) ∧ (s.Takes (scriptEng c) 1 { ra := true, imm := true } f) ∧ ((s.eng (scriptEng c)).condTrue f.cond = true) ∧ (((s.eng (scriptEng c)).get f.ra + f.imm).toNat % 8 = 0) ∧ (((s.eng (scriptEng c)).get f.ra + f.imm).toNat ≤ 0x3E0) ∧ (b = (s.eng (scriptEng c)).xferBlock ((s.eng (scriptEng c)).get f.ra + f.imm).toNat) ∧ (3 ≤ leAt b 0x14 1 ∨ 3 ≤ leAt b 0x15 1 ∨ leAt b 0x16 2 ≠ 0 ∨ leAt b 0x18 8 ≠ 0 ∨ rangeOk (leAt b 0x14 1) (leAt b 0 8) (leAt b 0x10 4) = false ∨ rangeOk (leAt b 0x15 1) (leAt b 8 8) (leAt b 0x10 4) = false)) ∧
    (∃ (c : ScriptId) (f : ZscFields) (s : State) (b : List Byte) (np : Nat) (m : Nat) (el : Nat) (dir : Nat), (s.Takes (scriptEng c) 1 { ra := true, imm := true } f) ∧ ((s.eng (scriptEng c)).condTrue f.cond = true) ∧ (((s.eng (scriptEng c)).get f.ra + f.imm).toNat % 8 = 0) ∧ (((s.eng (scriptEng c)).get f.ra + f.imm).toNat ≤ 0x3E0) ∧ (b = (s.eng (scriptEng c)).xferBlock ((s.eng (scriptEng c)).get f.ra + f.imm).toNat) ∧ (leAt b 0x14 1 < 3) ∧ (leAt b 0x15 1 < 3) ∧ (leAt b 0x16 2 = 0) ∧ (np = leAt b 0x18 1) ∧ (m = leAt b 0x1C 4) ∧ (el = 2 ^ leAt b 0x19 1) ∧ (dir = leAt b 0x1A 1) ∧ (1 ≤ np ∧ np ≤ 4) ∧ (leAt b 0x19 1 < 3) ∧ (dir < 2) ∧ (leAt b 0x1B 1 = 0) ∧ (1 ≤ m ∧ m ≤ 2 ^ 24) ∧ (leAt b 0x10 4 = np * m * el) ∧ (rangeOk (leAt b 0x14 1) (leAt b 0 8) (leAt b 0x10 4) = true) ∧ (rangeOk (leAt b 0x15 1) (leAt b 8 8) (leAt b 0x10 4) = true) ∧ (leAt b 0x14 1 ≠ leAt b 0x15 1 ∨ leAt b 0 8 + leAt b 0x10 4 ≤ leAt b 8 8 ∨ leAt b 8 8 + leAt b 0x10 4 ≤ leAt b 0 8)) ∧
    (∃ (c : ScriptId) (f : ZscFields) (s : State) (b : List Byte), (s.MemOk) ∧ (s.Takes (scriptEng c) 1 { ra := true, imm := true } f) ∧ ((s.eng (scriptEng c)).condTrue f.cond = true) ∧ (((s.eng (scriptEng c)).get f.ra + f.imm).toNat % 8 = 0) ∧ (((s.eng (scriptEng c)).get f.ra + f.imm).toNat ≤ 0x3E0) ∧ (b = (s.eng (scriptEng c)).xferBlock ((s.eng (scriptEng c)).get f.ra + f.imm).toNat) ∧ (leAt b 0x14 1 < 3) ∧ (leAt b 0x15 1 < 3) ∧ (leAt b 0x16 2 = 0) ∧ (1 ≤ leAt b 0x18 1 ∧ leAt b 0x18 1 ≤ 4) ∧ (leAt b 0x19 1 < 3) ∧ (leAt b 0x1A 1 < 2) ∧ (leAt b 0x1B 1 = 0) ∧ (1 ≤ leAt b 0x1C 4 ∧ leAt b 0x1C 4 ≤ 2 ^ 24) ∧ (leAt b 0x10 4 = leAt b 0x18 1 * leAt b 0x1C 4 * 2 ^ leAt b 0x19 1) ∧ (rangeOk (leAt b 0x14 1) (leAt b 0 8) (leAt b 0x10 4) = true) ∧ (rangeOk (leAt b 0x15 1) (leAt b 8 8) (leAt b 0x10 4) = true) ∧ (leAt b 0x14 1 = leAt b 0x15 1 ∧ leAt b 0 8 < leAt b 8 8 + leAt b 0x10 4 ∧ leAt b 8 8 < leAt b 0 8 + leAt b 0x10 4)) ∧
    (∃ (c : ScriptId) (f : ZscFields) (s : State) (b : List Byte) (tb : Nat) (mode : Nat), (s.Takes (scriptEng c) 1 { ra := true, imm := true } f) ∧ ((s.eng (scriptEng c)).condTrue f.cond = true) ∧ (((s.eng (scriptEng c)).get f.ra + f.imm).toNat % 8 = 0) ∧ (((s.eng (scriptEng c)).get f.ra + f.imm).toNat ≤ 0x3E0) ∧ (b = (s.eng (scriptEng c)).xferBlock ((s.eng (scriptEng c)).get f.ra + f.imm).toNat) ∧ (leAt b 0x14 1 < 3) ∧ (leAt b 0x15 1 < 3) ∧ (leAt b 0x16 2 = 0) ∧ (leAt b 0x10 4 = 0) ∧ (tb = leAt b 0x18 1) ∧ (tb < 64) ∧ (mode = leAt b 0x19 1) ∧ (mode < 2) ∧ (leAt b 0x1A 2 = 0) ∧ (leAt b 0x1C 4 = 0)) ∧
    (∃ (c : ScriptId) (f : ZscFields) (s : State) (b : List Byte), (s.MemOk) ∧ (s.Takes (scriptEng c) 1 { ra := true, imm := true } f) ∧ ((s.eng (scriptEng c)).condTrue f.cond = true) ∧ (((s.eng (scriptEng c)).get f.ra + f.imm).toNat % 8 = 0) ∧ (((s.eng (scriptEng c)).get f.ra + f.imm).toNat ≤ 0x3E0) ∧ (b = (s.eng (scriptEng c)).xferBlock ((s.eng (scriptEng c)).get f.ra + f.imm).toNat) ∧ (3 ≤ leAt b 0x14 1 ∨ 3 ≤ leAt b 0x15 1 ∨ leAt b 0x16 2 ≠ 0 ∨ leAt b 0x10 4 ≠ 0 ∨ 64 ≤ leAt b 0x18 1 ∨ 2 ≤ leAt b 0x19 1 ∨ leAt b 0x1A 2 ≠ 0 ∨ leAt b 0x1C 4 ≠ 0)) :=
  ⟨⟨wScriptTransfers0.1, wScriptTransfers0.2.1, wScriptTransfers0.2.2, by unfold State.Takes State.Runs; decide +kernel⟩,
   ⟨wScriptTransfers1.1, wScriptTransfers1.2.1, wScriptTransfers1.2.2, by unfold State.Takes State.Runs; decide +kernel⟩,
   ⟨wScriptTransfers2.1, wScriptTransfers2.2.1, wScriptTransfers2.2.2, by unfold State.Takes State.Runs; decide +kernel⟩,
   ⟨wScriptTransfers3.1, wScriptTransfers3.2.1, wScriptTransfers3.2.2, by unfold State.Takes State.Runs; decide +kernel⟩,
   ⟨wScriptTransfers4.1, wScriptTransfers4.2.1, wScriptTransfers4.2.2, by unfold State.Takes State.Runs; decide +kernel⟩,
   ⟨wScriptTransfers5.1, wScriptTransfers5.2.1, wScriptTransfers5.2.2, by unfold State.Takes State.Runs; decide +kernel⟩,
   ⟨wScriptTransfers6.1, wScriptTransfers6.2.1, wScriptTransfers6.2.2.1, wScriptTransfers6.2.2.2, by unfold State.Takes State.Runs; decide +kernel⟩,
   ⟨wScriptTransfers7.1, wScriptTransfers7.2.1, wScriptTransfers7.2.2.1, wScriptTransfers7.2.2.2, by unfold State.Takes State.Runs; decide +kernel⟩,
   ⟨wScriptTransfers8.1, wScriptTransfers8.2.1, wScriptTransfers8.2.2.1, wScriptTransfers8.2.2.2, memOk_of _ (by decide +kernel), (by unfold State.Takes State.Runs; decide +kernel), (by decide +kernel), (by decide +kernel), (by decide +kernel), (by decide +kernel), (by decide +kernel)⟩,
   ⟨wScriptTransfers9.1, wScriptTransfers9.2.1, wScriptTransfers9.2.2.1, wScriptTransfers9.2.2.2.1, wScriptTransfers9.2.2.2.2.1, wScriptTransfers9.2.2.2.2.2.1, wScriptTransfers9.2.2.2.2.2.2.1, wScriptTransfers9.2.2.2.2.2.2.2, by unfold State.Takes State.Runs; decide +kernel⟩,
   ⟨wScriptTransfers10.1, wScriptTransfers10.2.1, wScriptTransfers10.2.2.1, wScriptTransfers10.2.2.2, memOk_of _ (by decide +kernel), (by unfold State.Takes State.Runs; decide +kernel), (by decide +kernel), (by decide +kernel), (by decide +kernel), (by decide +kernel), (by decide +kernel), (by decide +kernel), (by decide +kernel), (by decide +kernel), (by decide +kernel), (by decide +kernel), (by decide +kernel), (by decide +kernel), (by decide +kernel), (by decide +kernel), (by decide +kernel), (by decide +kernel)⟩,
   ⟨wScriptTransfers11.1, wScriptTransfers11.2.1, wScriptTransfers11.2.2.1, wScriptTransfers11.2.2.2.1, wScriptTransfers11.2.2.2.2.1, wScriptTransfers11.2.2.2.2.2, by unfold State.Takes State.Runs; decide +kernel⟩,
   ⟨wScriptTransfers12.1, wScriptTransfers12.2.1, wScriptTransfers12.2.2.1, wScriptTransfers12.2.2.2, memOk_of _ (by decide +kernel), (by unfold State.Takes State.Runs; decide +kernel), (by decide +kernel), (by decide +kernel), (by decide +kernel), (by decide +kernel), (by decide +kernel)⟩⟩
def wScriptAccesses0 : ScriptId × Bool × Nat × Nat × Nat × Nat × List Byte × State :=
  let c : ScriptId := 0
  let ok : Bool := false
  let kind : Nat := 0
  let n : Nat := 0
  let corr : Nat := 0
  let merged : Nat := 0
  let data : List Byte := []
  let s : State := State.reset
  let q : Nat := 0
  let s := { s with link := { s.link with d3hot := true } }
  let s := s.updScript c (fun y => { y with xfer := (if q == 0 then none else y.xfer.map (fun z => { z with srcSp := 0, table := none })) })
  (c, ok, kind, n, corr, merged, data, s)
def wScriptAccesses1 : ScriptId × Bool × Nat × Nat × Nat × Nat × List Byte × State × XferSt × Nat × Nat × Nat × (List (Nat × Nat × Nat)) × (Nat × Nat × Nat) :=
  let c : ScriptId := 3
  let ok : Bool := true
  let kind : Nat := 13
  let n : Nat := 27
  let corr : Nat := 2
  let merged : Nat := 28
  let data : List Byte := []
  let s : State := State.reset
  let x : XferSt := dXferSt
  let a : Nat := 0
  let d : Nat := 36
  let l : Nat := 13
  let r : List (Nat × Nat × Nat) := []
  let q : Nat × Nat × Nat := (0, 0, 0)
  let s := own { s with regs := [], link := { s.link with d3hot := false } }
  let q : Nat := 1
  let q1 : Nat := 0
  let l := 1 + 33
  let x : XferSt := { srcSp := (if q == 0 then 0 else 2), dstSp := (if q == 1 then 0 else 2), table := none, moves := [(0x100, 0x200, l)], descending := (q1 == 0), written := 7, span := none, tries := 1, cost := 9 }
  let a := 0x100
  let d := 0x200
  let r : List (Nat × Nat × Nat) := []
  let n := n % 64
  let kind := kind % 4
  let corr := corr % 5
  let s := s.updScript c (fun y => { y with st := .running, xfer := some x, aborting := false, retry := 3 })
  let s := s.updEng (scriptEng c) (fun y => { y with run := .running })
  let q := s.nextAccess x n
  (c, ok, kind, n, corr, merged, data, s, x, a, d, l, r, q)
def wScriptAccesses2 : ScriptId × Bool × Nat × Nat × Nat × Nat × List Byte × State × XferSt × Nat × Nat × Nat × (List (Nat × Nat × Nat)) × (Nat × Nat × Nat) :=
  let c : ScriptId := 1
  let ok : Bool := true
  let kind : Nat := 15
  let n : Nat := 28
  let corr : Nat := 23
  let merged : Nat := 0
  let data : List Byte := []
  let s : State := State.reset
  let x : XferSt := dXferSt
  let a : Nat := 32
  let d : Nat := 5
  let l : Nat := 35
  let r : List (Nat × Nat × Nat) := []
  let q : Nat × Nat × Nat := (0, 0, 0)
  let s := own { s with regs := [], link := { s.link with d3hot := false } }
  let q : Nat := 2
  let q1 : Nat := 1
  let l := 1 + 13
  let x : XferSt := { srcSp := (if q == 0 then 0 else 2), dstSp := (if q == 1 then 0 else 2), table := none, moves := [(0x100, 0x200, l)], descending := (q1 == 0), written := 7, span := none, tries := 1, cost := 9 }
  let a := 0x100
  let d := 0x200
  let r : List (Nat × Nat × Nat) := []
  let n := n % 64
  let kind := kind % 4
  let corr := corr % 5
  let s := s.updScript c (fun y => { y with st := .running, xfer := some x, aborting := false, retry := 3 })
  let s := s.updEng (scriptEng c) (fun y => { y with run := .running })
  let n := n + 64
  let q := s.nextAccess x n
  (c, ok, kind, n, corr, merged, data, s, x, a, d, l, r, q)
def wScriptAccesses3 : ScriptId × Bool × Nat × Nat × Nat × Nat × List Byte × State × XferSt × Nat × Nat × Nat × (List (Nat × Nat × Nat)) × (Nat × Nat × Nat) :=
  let c : ScriptId := 1
  let ok : Bool := true
  let kind : Nat := 15
  let n : Nat := 28
  let corr : Nat := 23
  let merged : Nat := 0
  let data : List Byte := []
  let s : State := State.reset
  let x : XferSt := dXferSt
  let a : Nat := 32
  let d : Nat := 5
  let l : Nat := 35
  let r : List (Nat × Nat × Nat) := []
  let q : Nat × Nat × Nat := (0, 0, 0)
  let s := own { s with regs := [], link := { s.link with d3hot := false } }
  let q : Nat := 2
  let q1 : Nat := 1
  let l := 1 + 13
  let x : XferSt := { srcSp := (if q == 0 then 0 else 2), dstSp := (if q == 1 then 0 else 2), table := none, moves := [(0x100, 0x200, l)], descending := (q1 == 0), written := 7, span := none, tries := 1, cost := 9 }
  let a := 0x100
  let d := 0x200
  let r : List (Nat × Nat × Nat) := []
  let n := n % 64
  let kind := kind % 4
  let corr := corr % 5
  let s := s.updScript c (fun y => { y with st := .running, xfer := some x, aborting := true, retry := 3 })
  let s := s.updEng (scriptEng c) (fun y => { y with run := .running })
  let q := s.nextAccess x n
  (c, ok, kind, n, corr, merged, data, s, x, a, d, l, r, q)
def wScriptAccesses4 : ScriptId × Bool × Nat × Nat × Nat × Nat × List Byte × State × XferSt × Nat × Nat × Nat × (List (Nat × Nat × Nat)) × (Nat × Nat × Nat) × Nat :=
  let c : ScriptId := 0
  let ok : Bool := false
  let kind : Nat := 0
  let n : Nat := 0
  let corr : Nat := 0
  let merged : Nat := 0
  let data : List Byte := []
  let s : State := State.reset
  let x : XferSt := dXferSt
  let a : Nat := 0
  let d : Nat := 0
  let l : Nat := 0
  let r : List (Nat × Nat × Nat) := []
  let q : Nat × Nat × Nat := (0, 0, 0)
  let cause : Nat := 0
  let s := own { s with regs := [], link := { s.link with d3hot := false } }
  let q : Nat := 0
  let q1 : Nat := 0
  let l := 1 + 0
  let x : XferSt := { srcSp := (if q == 0 then 0 else 2), dstSp := (if q == 1 then 0 else 2), table := none, moves := [(0x100, 0x200, l)], descending := (q1 == 0), written := 7, span := none, tries := 1, cost := 9 }
  let a := 0x100
  let d := 0x200
  let r : List (Nat × Nat × Nat) := []
  let n := n % 64
  let kind := kind % 4
  let corr := corr % 5
  let s := s.updScript c (fun y => { y with st := .running, xfer := some x, aborting := false, retry := 3 })
  let s := s.updEng (scriptEng c) (fun y => { y with run := .running })
  let x := { x with srcSp := 1, dstSp := 2, moves := [(0x1800000, 0x200, l)] }
  let a := 0x1800000
  let s := (s.updScript c (fun y => { y with xfer := some x })).updCtx ⟨(s.script c).ctx % 8, by omega⟩ (fun z => { z with rightsBlk := 0 })
  let cause := 5
  let q := s.nextAccess x n
  (c, ok, kind, n, corr, merged, data, s, x, a, d, l, r, q, cause)
def wScriptAccesses5 : ScriptId × Bool × Nat × Nat × Nat × Nat × List Byte × State × XferSt × Nat × Nat × Nat × (List (Nat × Nat × Nat)) × (Nat × Nat × Nat) × Nat × Nat × Nat :=
  let c : ScriptId := 0
  let ok : Bool := false
  let kind : Nat := 0
  let n : Nat := 0
  let corr : Nat := 0
  let merged : Nat := 0
  let data : List Byte := []
  let s : State := State.reset
  let x : XferSt := dXferSt
  let a : Nat := 0
  let d : Nat := 0
  let l : Nat := 0
  let r : List (Nat × Nat × Nat) := []
  let q : Nat × Nat × Nat := (0, 0, 0)
  let sp : Nat := 0
  let k : Nat := 0
  let fa : Nat := 0
  let s := own { s with regs := [], link := { s.link with d3hot := false } }
  let q : Nat := 0
  let q1 : Nat := 0
  let l := 1 + 0
  let x : XferSt := { srcSp := (if q == 0 then 0 else 2), dstSp := (if q == 1 then 0 else 2), table := none, moves := [(0x100, 0x200, l)], descending := (q1 == 0), written := 7, span := none, tries := 1, cost := 9 }
  let a := 0x100
  let d := 0x200
  let r : List (Nat × Nat × Nat) := []
  let n := n % 64
  let kind := kind % 4
  let corr := corr % 5
  let s := s.updScript c (fun y => { y with st := .running, xfer := some x, aborting := false, retry := 3 })
  let s := s.updEng (scriptEng c) (fun y => { y with run := .running })
  let q := s.nextAccess x n
  let fp := (s.failPlace x ok kind q.1 q.2.1 q.2.2).getD (0, 0, 0)
  let sp := fp.1
  let k := fp.2.1
  let fa := fp.2.2
  (c, ok, kind, n, corr, merged, data, s, x, a, d, l, r, q, sp, k, fa)
def wScriptAccesses6 : ScriptId × Bool × Nat × Nat × Nat × Nat × List Byte × State × XferSt × Nat × Nat × Nat × (List (Nat × Nat × Nat)) × (Nat × Nat × Nat) × Nat × Nat × Nat :=
  let c : ScriptId := 0
  let ok : Bool := false
  let kind : Nat := 0
  let n : Nat := 0
  let corr : Nat := 0
  let merged : Nat := 0
  let data : List Byte := []
  let s : State := State.reset
  let x : XferSt := dXferSt
  let a : Nat := 0
  let d : Nat := 0
  let l : Nat := 0
  let r : List (Nat × Nat × Nat) := []
  let q : Nat × Nat × Nat := (0, 0, 0)
  let sp : Nat := 0
  let k : Nat := 0
  let fa : Nat := 0
  let s := own { s with regs := [], link := { s.link with d3hot := false } }
  let q : Nat := 0
  let q1 : Nat := 0
  let l := 1 + 0
  let x : XferSt := { srcSp := (if q == 0 then 0 else 2), dstSp := (if q == 1 then 0 else 2), table := none, moves := [(0x100, 0x200, l)], descending := (q1 == 0), written := 7, span := none, tries := 1, cost := 9 }
  let a := 0x100
  let d := 0x200
  let r : List (Nat × Nat × Nat) := []
  let n := n % 64
  let kind := kind % 4
  let corr := corr % 5
  let s := s.updScript c (fun y => { y with st := .running, xfer := some x, aborting := false, retry := 3 })
  let s := s.updEng (scriptEng c) (fun y => { y with run := .running })
  let q := s.nextAccess x n
  let fp := (s.failPlace x ok kind q.1 q.2.1 q.2.2).getD (0, 0, 0)
  let sp := fp.1
  let k := fp.2.1
  let fa := fp.2.2
  let s := s.updScript c (fun y => { y with retry := 1 })
  (c, ok, kind, n, corr, merged, data, s, x, a, d, l, r, q, sp, k, fa)
def wScriptAccesses7 : ScriptId × Nat × Nat × Nat × Nat × List Byte × State × XferSt × Nat × Nat × Nat × Nat × Nat × Nat × Nat × Nat × (List (Nat × Nat × Nat)) :=
  let c : ScriptId := 0
  let kind : Nat := 0
  let n : Nat := 0
  let corr : Nat := 0
  let merged : Nat := 0
  let data : List Byte := []
  let s : State := State.reset
  let x : XferSt := dXferSt
  let tb : Nat := 0
  let mode : Nat := 0
  let ss : Nat := 0
  let ds : Nat := 0
  let src : Nat := 0
  let dst : Nat := 0
  let cn : Nat := 0
  let el : Nat := 0
  let ms : List (Nat × Nat × Nat) := []
  let s := own { s with regs := [], link := { s.link with d3hot := false } }
  let q : Nat := 0
  let q1 : Nat := 0
  let l := 1 + 0
  let x : XferSt := { srcSp := (if q == 0 then 0 else 2), dstSp := (if q == 1 then 0 else 2), table := some (5, q1), moves := [(0x100, 0x200, 0)], descending := (q1 == 0), written := 7, span := none, tries := 1, cost := 9 }
  let a := 0x100
  let d := 0x200
  let r : List (Nat × Nat × Nat) := []
  let n := n % 64
  let kind := kind % 4
  let corr := corr % 5
  let s := s.updScript c (fun y => { y with st := .running, xfer := some x, aborting := false, retry := 3 })
  let s := s.updEng (scriptEng c) (fun y => { y with run := .running })
  let tb := 5
  let mode := q1
  let s := own { s with tbl := [(idxKey 5 0, 3), (idxKey 5 1, 8), (idxKey 5 4, 32), (idxKey 5 5, 16), (idxKey 5 6, 100)] }
  let ss := x.srcSp
  let ds := x.dstSp
  let src := 0x100
  let dst := 0x200
  let cn := 3
  let el := 8
  let ms := (List.range cn).map (fun i => if mode = 0 then (src + s.idxWord tb (4 + i), dst + i * el, el) else (src + i * el, dst + s.idxWord tb (4 + i), el))
  (c, kind, n, corr, merged, data, s, x, tb, mode, ss, ds, src, dst, cn, el, ms)
def wScriptAccesses8 : ScriptId × Nat × Nat × Nat × Nat × List Byte × State × XferSt × Nat × Nat :=
  let c : ScriptId := 0
  let kind : Nat := 0
  let n : Nat := 0
  let corr : Nat := 0
  let merged : Nat := 0
  let data : List Byte := []
  let s : State := State.reset
  let x : XferSt := dXferSt
  let tb : Nat := 0
  let mode : Nat := 0
  let s := own { s with regs := [], link := { s.link with d3hot := false } }
  let q : Nat := 0
  let q1 : Nat := 0
  let l := 1 + 0
  let x : XferSt := { srcSp := (if q == 0 then 0 else 2), dstSp := (if q == 1 then 0 else 2), table := some (5, q1), moves := [(0x100, 0x200, 0)], descending := (q1 == 0), written := 7, span := none, tries := 1, cost := 9 }
  let a := 0x100
  let d := 0x200
  let r : List (Nat × Nat × Nat) := []
  let n := n % 64
  let kind := kind % 4
  let corr := corr % 5
  let s := s.updScript c (fun y => { y with st := .running, xfer := some x, aborting := false, retry := 3 })
  let s := s.updEng (scriptEng c) (fun y => { y with run := .running })
  let tb := 5
  let mode := q1
  let s := own { s with tbl := [(idxKey 5 0, 3), (idxKey 5 1, 8), (idxKey 5 4, 32), (idxKey 5 5, 16), (idxKey 5 6, 100)] }
  let s := { s with tbl := [] }
  (c, kind, n, corr, merged, data, s, x, tb, mode)
def wScriptAccesses9 : ScriptId × Nat × Nat × Nat × Nat × List Byte × State × XferSt × Nat × Nat :=
  let c : ScriptId := 0
  let kind : Nat := 0
  let n : Nat := 0
  let corr : Nat := 0
  let merged : Nat := 0
  let data : List Byte := []
  let s : State := State.reset
  let x : XferSt := dXferSt
  let tb : Nat := 0
  let mode : Nat := 0
  let s := own { s with regs := [], link := { s.link with d3hot := false } }
  let q : Nat := 0
  let q1 : Nat := 0
  let l := 1 + 0
  let x : XferSt := { srcSp := (if q == 0 then 0 else 2), dstSp := (if q == 1 then 0 else 2), table := some (5, q1), moves := [(0x100, 0x200, 0)], descending := (q1 == 0), written := 7, span := none, tries := 1, cost := 9 }
  let a := 0x100
  let d := 0x200
  let r : List (Nat × Nat × Nat) := []
  let n := n % 64
  let kind := kind % 4
  let corr := corr % 5
  let s := s.updScript c (fun y => { y with st := .running, xfer := some x, aborting := false, retry := 3 })
  let s := s.updEng (scriptEng c) (fun y => { y with run := .running })
  let tb := 5
  let mode := q1
  let s := own { s with tbl := [(idxKey 5 0, 3), (idxKey 5 1, 8), (idxKey 5 4, 32), (idxKey 5 5, 16), (idxKey 5 6, 100)] }
  (c, kind, n, corr, merged, data, s, x, tb, mode)
/-- The conditions of each clause of `Obligations.ScriptAccesses` are met. -/
theorem test_meets_ScriptAccesses :
    (∃ (c : ScriptId) (ok : Bool) (kind : Nat) (n : Nat) (corr : Nat) (merged : Nat) (data : List Byte) (s : State), ∀ x ∈ (s.script c).xfer, x.table = none ∧ (x.moves = [] ∨ (s.link.d3hot = true ∧ (x.srcSp = 0 ∨ x.dstSp = 0)))) ∧
    (∃ (c : ScriptId) (ok : Bool) (kind : Nat) (n : Nat) (corr : Nat) (merged : Nat) (data : List Byte) (s : State) (x : XferSt) (a : Nat) (d : Nat) (l : Nat) (r : List (Nat × Nat × Nat)) (q : Nat × Nat × Nat), (s.MemOk) ∧ ((s.script c).xfer = some x) ∧ (x.table = none) ∧ (x.moves = (a, d, l) :: r) ∧ (s.link.d3hot = false ∨ (x.srcSp ≠ 0 ∧ x.dstSp ≠ 0)) ∧ (q = s.nextAccess x n) ∧ (s.scCheck c x.srcSp q.1 q.2.2 false = none) ∧ (s.scCheck c x.dstSp q.2.1 q.2.2 true = none) ∧ ((s.script c).aborting = false) ∧ (s.failPlace x ok kind q.1 q.2.1 q.2.2 = none) ∧ (r ≠ [] ∨ q.2.2 < l)) ∧
    (∃ (c : ScriptId) (ok : Bool) (kind : Nat) (n : Nat) (corr : Nat) (merged : Nat) (data : List Byte) (s : State) (x : XferSt) (a : Nat) (d : Nat) (l : Nat) (r : List (Nat × Nat × Nat)) (q : Nat × Nat × Nat), (s.MemOk) ∧ ((s.script c).xfer = some x) ∧ (x.table = none) ∧ (x.moves = (a, d, l) :: r) ∧ (s.link.d3hot = false ∨ (x.srcSp ≠ 0 ∧ x.dstSp ≠ 0)) ∧ (q = s.nextAccess x n) ∧ (s.scCheck c x.srcSp q.1 q.2.2 false = none) ∧ (s.scCheck c x.dstSp q.2.1 q.2.2 true = none) ∧ ((s.script c).aborting = false) ∧ (s.failPlace x ok kind q.1 q.2.1 q.2.2 = none) ∧ (r = []) ∧ (l ≤ q.2.2) ∧ (1 ≤ l)) ∧
    (∃ (c : ScriptId) (ok : Bool) (kind : Nat) (n : Nat) (corr : Nat) (merged : Nat) (data : List Byte) (s : State) (x : XferSt) (a : Nat) (d : Nat) (l : Nat) (r : List (Nat × Nat × Nat)) (q : Nat × Nat × Nat), (s.MemOk) ∧ ((s.script c).xfer = some x) ∧ (x.table = none) ∧ (x.moves = (a, d, l) :: r) ∧ (s.link.d3hot = false ∨ (x.srcSp ≠ 0 ∧ x.dstSp ≠ 0)) ∧ (q = s.nextAccess x n) ∧ (s.scCheck c x.srcSp q.1 q.2.2 false = none) ∧ (s.scCheck c x.dstSp q.2.1 q.2.2 true = none) ∧ (s.failPlace x ok kind q.1 q.2.1 q.2.2 = none) ∧ ((s.script c).aborting = true)) ∧
    (∃ (c : ScriptId) (ok : Bool) (kind : Nat) (n : Nat) (corr : Nat) (merged : Nat) (data : List Byte) (s : State) (x : XferSt) (a : Nat) (d : Nat) (l : Nat) (r : List (Nat × Nat × Nat)) (q : Nat × Nat × Nat) (cause : Nat), (s.MemOk) ∧ ((s.script c).xfer = some x) ∧ (x.table = none) ∧ (x.moves = (a, d, l) :: r) ∧ (s.link.d3hot = false ∨ (x.srcSp ≠ 0 ∧ x.dstSp ≠ 0)) ∧ (q = s.nextAccess x n) ∧ ((s.scCheck c x.srcSp q.1 q.2.2 false).or (s.scCheck c x.dstSp q.2.1 q.2.2 true) = some cause)) ∧
    (∃ (c : ScriptId) (ok : Bool) (kind : Nat) (n : Nat) (corr : Nat) (merged : Nat) (data : List Byte) (s : State) (x : XferSt) (a : Nat) (d : Nat) (l : Nat) (r : List (Nat × Nat × Nat)) (q : Nat × Nat × Nat) (sp : Nat) (k : Nat) (fa : Nat), ((s.script c).xfer = some x) ∧ (x.table = none) ∧ (x.moves = (a, d, l) :: r) ∧ (s.link.d3hot = false ∨ (x.srcSp ≠ 0 ∧ x.dstSp ≠ 0)) ∧ (q = s.nextAccess x n) ∧ (s.scCheck c x.srcSp q.1 q.2.2 false = none) ∧ (s.scCheck c x.dstSp q.2.1 q.2.2 true = none) ∧ (s.failPlace x ok kind q.1 q.2.1 q.2.2 = some (sp, k, fa)) ∧ (x.tries < (s.script c).retry) ∧ ((s.script c).aborting = false)) ∧
    (∃ (c : ScriptId) (ok : Bool) (kind : Nat) (n : Nat) (corr : Nat) (merged : Nat) (data : List Byte) (s : State) (x : XferSt) (a : Nat) (d : Nat) (l : Nat) (r : List (Nat × Nat × Nat)) (q : Nat × Nat × Nat) (sp : Nat) (k : Nat) (fa : Nat), (s.MemOk) ∧ ((s.script c).xfer = some x) ∧ (x.table = none) ∧ (x.moves = (a, d, l) :: r) ∧ (s.link.d3hot = false ∨ (x.srcSp ≠ 0 ∧ x.dstSp ≠ 0)) ∧ (q = s.nextAccess x n) ∧ (s.scCheck c x.srcSp q.1 q.2.2 false = none) ∧ (s.scCheck c x.dstSp q.2.1 q.2.2 true = none) ∧ (s.failPlace x ok kind q.1 q.2.1 q.2.2 = some (sp, k, fa)) ∧ ((s.script c).retry ≤ x.tries)) ∧
    (∃ (c : ScriptId) (kind : Nat) (n : Nat) (corr : Nat) (merged : Nat) (data : List Byte) (s : State) (x : XferSt) (tb : Nat) (mode : Nat) (ss : Nat) (ds : Nat) (src : Nat) (dst : Nat) (cn : Nat) (el : Nat) (ms : List (Nat × Nat × Nat)), ((s.script c).xfer = some x) ∧ (x.table = some (tb, mode)) ∧ (s.scCheck c 1 (0x1800000 + 0x8000 * tb) 1 false = none) ∧ ((s.script c).aborting = false) ∧ (ss = x.srcSp) ∧ (ds = x.dstSp) ∧ (x.moves.headD (0, 0, 0) = (src, dst, 0)) ∧ (cn = s.idxWord tb 0) ∧ (el = s.idxWord tb 1) ∧ (1 ≤ cn ∧ cn ≤ 4096) ∧ (1 ≤ el ∧ el ≤ 65536) ∧ (ms = (List.range cn).map (fun i => if mode = 0 then (src + s.idxWord tb (4 + i), dst + i * el, el) else (src + i * el, dst + s.idxWord tb (4 + i), el))) ∧ (ms.all (fun m => rangeOk ss m.1 el && rangeOk ds m.2.1 el) = true) ∧ (ss ≠ ds) ∧ (mode = 0 ∨ ms.Pairwise (fun m k => m.2.1 + el ≤ k.2.1 ∨ k.2.1 + el ≤ m.2.1))) ∧
    (∃ (c : ScriptId) (kind : Nat) (n : Nat) (corr : Nat) (merged : Nat) (data : List Byte) (s : State) (x : XferSt) (tb : Nat) (mode : Nat), ((s.script c).xfer = some x) ∧ (x.table = some (tb, mode)) ∧ (s.scCheck c 1 (0x1800000 + 0x8000 * tb) 1 false = none) ∧ ((s.script c).aborting = false) ∧ (s.idxWord tb 0 = 0 ∨ 4096 < s.idxWord tb 0 ∨ s.idxWord tb 1 = 0 ∨ 65536 < s.idxWord tb 1)) ∧
    (∃ (c : ScriptId) (kind : Nat) (n : Nat) (corr : Nat) (merged : Nat) (data : List Byte) (s : State) (x : XferSt) (tb : Nat) (mode : Nat), ((s.script c).xfer = some x) ∧ (x.table = some (tb, mode)) ∧ (s.scCheck c 1 (0x1800000 + 0x8000 * tb) 1 false = none) ∧ (tb < 64) ∧ (x.tries < (s.script c).retry) ∧ ((s.script c).aborting = false)) :=
  ⟨⟨wScriptAccesses0.1, wScriptAccesses0.2.1, wScriptAccesses0.2.2.1, wScriptAccesses0.2.2.2.1, wScriptAccesses0.2.2.2.2.1, wScriptAccesses0.2.2.2.2.2.1, wScriptAccesses0.2.2.2.2.2.2.1, wScriptAccesses0.2.2.2.2.2.2.2, by decide +kernel⟩,
   ⟨wScriptAccesses1.1, wScriptAccesses1.2.1, wScriptAccesses1.2.2.1, wScriptAccesses1.2.2.2.1, wScriptAccesses1.2.2.2.2.1, wScriptAccesses1.2.2.2.2.2.1, wScriptAccesses1.2.2.2.2.2.2.1, wScriptAccesses1.2.2.2.2.2.2.2.1, wScriptAccesses1.2.2.2.2.2.2.2.2.1, wScriptAccesses1.2.2.2.2.2.2.2.2.2.1, wScriptAccesses1.2.2.2.2.2.2.2.2.2.2.1, wScriptAccesses1.2.2.2.2.2.2.2.2.2.2.2.1, wScriptAccesses1.2.2.2.2.2.2.2.2.2.2.2.2.1, wScriptAccesses1.2.2.2.2.2.2.2.2.2.2.2.2.2, memOk_of _ (by decide +kernel), (by decide +kernel), (by decide +kernel), (by decide +kernel), (by decide +kernel), (by decide +kernel), (by decide +kernel), (by decide +kernel), (by decide +kernel), (by decide +kernel), (by decide +kernel)⟩,
   ⟨wScriptAccesses2.1, wScriptAccesses2.2.1, wScriptAccesses2.2.2.1, wScriptAccesses2.2.2.2.1, wScriptAccesses2.2.2.2.2.1, wScriptAccesses2.2.2.2.2.2.1, wScriptAccesses2.2.2.2.2.2.2.1, wScriptAccesses2.2.2.2.2.2.2.2.1, wScriptAccesses2.2.2.2.2.2.2.2.2.1, wScriptAccesses2.2.2.2.2.2.2.2.2.2.1, wScriptAccesses2.2.2.2.2.2.2.2.2.2.2.1, wScriptAccesses2.2.2.2.2.2.2.2.2.2.2.2.1, wScriptAccesses2.2.2.2.2.2.2.2.2.2.2.2.2.1, wScriptAccesses2.2.2.2.2.2.2.2.2.2.2.2.2.2, memOk_of _ (by decide +kernel), (by decide +kernel), (by decide +kernel), (by decide +kernel), (by decide +kernel), (by decide +kernel), (by decide +kernel), (by decide +kernel), (by decide +kernel), (by decide +kernel), (by decide +kernel), (by decide +kernel), (by decide +kernel)⟩,
   ⟨wScriptAccesses3.1, wScriptAccesses3.2.1, wScriptAccesses3.2.2.1, wScriptAccesses3.2.2.2.1, wScriptAccesses3.2.2.2.2.1, wScriptAccesses3.2.2.2.2.2.1, wScriptAccesses3.2.2.2.2.2.2.1, wScriptAccesses3.2.2.2.2.2.2.2.1, wScriptAccesses3.2.2.2.2.2.2.2.2.1, wScriptAccesses3.2.2.2.2.2.2.2.2.2.1, wScriptAccesses3.2.2.2.2.2.2.2.2.2.2.1, wScriptAccesses3.2.2.2.2.2.2.2.2.2.2.2.1, wScriptAccesses3.2.2.2.2.2.2.2.2.2.2.2.2.1, wScriptAccesses3.2.2.2.2.2.2.2.2.2.2.2.2.2, memOk_of _ (by decide +kernel), (by decide +kernel), (by decide +kernel), (by decide +kernel), (by decide +kernel), (by decide +kernel), (by decide +kernel), (by decide +kernel), (by decide +kernel), (by decide +kernel)⟩,
   ⟨wScriptAccesses4.1, wScriptAccesses4.2.1, wScriptAccesses4.2.2.1, wScriptAccesses4.2.2.2.1, wScriptAccesses4.2.2.2.2.1, wScriptAccesses4.2.2.2.2.2.1, wScriptAccesses4.2.2.2.2.2.2.1, wScriptAccesses4.2.2.2.2.2.2.2.1, wScriptAccesses4.2.2.2.2.2.2.2.2.1, wScriptAccesses4.2.2.2.2.2.2.2.2.2.1, wScriptAccesses4.2.2.2.2.2.2.2.2.2.2.1, wScriptAccesses4.2.2.2.2.2.2.2.2.2.2.2.1, wScriptAccesses4.2.2.2.2.2.2.2.2.2.2.2.2.1, wScriptAccesses4.2.2.2.2.2.2.2.2.2.2.2.2.2.1, wScriptAccesses4.2.2.2.2.2.2.2.2.2.2.2.2.2.2, memOk_of _ (by decide +kernel), (by decide +kernel), (by decide +kernel), (by decide +kernel), (by decide +kernel), (by decide +kernel), (by decide +kernel)⟩,
   ⟨wScriptAccesses5.1, wScriptAccesses5.2.1, wScriptAccesses5.2.2.1, wScriptAccesses5.2.2.2.1, wScriptAccesses5.2.2.2.2.1, wScriptAccesses5.2.2.2.2.2.1, wScriptAccesses5.2.2.2.2.2.2.1, wScriptAccesses5.2.2.2.2.2.2.2.1, wScriptAccesses5.2.2.2.2.2.2.2.2.1, wScriptAccesses5.2.2.2.2.2.2.2.2.2.1, wScriptAccesses5.2.2.2.2.2.2.2.2.2.2.1, wScriptAccesses5.2.2.2.2.2.2.2.2.2.2.2.1, wScriptAccesses5.2.2.2.2.2.2.2.2.2.2.2.2.1, wScriptAccesses5.2.2.2.2.2.2.2.2.2.2.2.2.2.1, wScriptAccesses5.2.2.2.2.2.2.2.2.2.2.2.2.2.2.1, wScriptAccesses5.2.2.2.2.2.2.2.2.2.2.2.2.2.2.2.1, wScriptAccesses5.2.2.2.2.2.2.2.2.2.2.2.2.2.2.2.2, by decide +kernel⟩,
   ⟨wScriptAccesses6.1, wScriptAccesses6.2.1, wScriptAccesses6.2.2.1, wScriptAccesses6.2.2.2.1, wScriptAccesses6.2.2.2.2.1, wScriptAccesses6.2.2.2.2.2.1, wScriptAccesses6.2.2.2.2.2.2.1, wScriptAccesses6.2.2.2.2.2.2.2.1, wScriptAccesses6.2.2.2.2.2.2.2.2.1, wScriptAccesses6.2.2.2.2.2.2.2.2.2.1, wScriptAccesses6.2.2.2.2.2.2.2.2.2.2.1, wScriptAccesses6.2.2.2.2.2.2.2.2.2.2.2.1, wScriptAccesses6.2.2.2.2.2.2.2.2.2.2.2.2.1, wScriptAccesses6.2.2.2.2.2.2.2.2.2.2.2.2.2.1, wScriptAccesses6.2.2.2.2.2.2.2.2.2.2.2.2.2.2.1, wScriptAccesses6.2.2.2.2.2.2.2.2.2.2.2.2.2.2.2.1, wScriptAccesses6.2.2.2.2.2.2.2.2.2.2.2.2.2.2.2.2, memOk_of _ (by decide +kernel), (by decide +kernel), (by decide +kernel), (by decide +kernel), (by decide +kernel), (by decide +kernel), (by decide +kernel), (by decide +kernel), (by decide +kernel), (by decide +kernel)⟩,
   ⟨wScriptAccesses7.1, wScriptAccesses7.2.1, wScriptAccesses7.2.2.1, wScriptAccesses7.2.2.2.1, wScriptAccesses7.2.2.2.2.1, wScriptAccesses7.2.2.2.2.2.1, wScriptAccesses7.2.2.2.2.2.2.1, wScriptAccesses7.2.2.2.2.2.2.2.1, wScriptAccesses7.2.2.2.2.2.2.2.2.1, wScriptAccesses7.2.2.2.2.2.2.2.2.2.1, wScriptAccesses7.2.2.2.2.2.2.2.2.2.2.1, wScriptAccesses7.2.2.2.2.2.2.2.2.2.2.2.1, wScriptAccesses7.2.2.2.2.2.2.2.2.2.2.2.2.1, wScriptAccesses7.2.2.2.2.2.2.2.2.2.2.2.2.2.1, wScriptAccesses7.2.2.2.2.2.2.2.2.2.2.2.2.2.2.1, wScriptAccesses7.2.2.2.2.2.2.2.2.2.2.2.2.2.2.2.1, wScriptAccesses7.2.2.2.2.2.2.2.2.2.2.2.2.2.2.2.2, by decide +kernel⟩,
   ⟨wScriptAccesses8.1, wScriptAccesses8.2.1, wScriptAccesses8.2.2.1, wScriptAccesses8.2.2.2.1, wScriptAccesses8.2.2.2.2.1, wScriptAccesses8.2.2.2.2.2.1, wScriptAccesses8.2.2.2.2.2.2.1, wScriptAccesses8.2.2.2.2.2.2.2.1, wScriptAccesses8.2.2.2.2.2.2.2.2.1, wScriptAccesses8.2.2.2.2.2.2.2.2.2, by decide +kernel⟩,
   ⟨wScriptAccesses9.1, wScriptAccesses9.2.1, wScriptAccesses9.2.2.1, wScriptAccesses9.2.2.2.1, wScriptAccesses9.2.2.2.2.1, wScriptAccesses9.2.2.2.2.2.1, wScriptAccesses9.2.2.2.2.2.2.1, wScriptAccesses9.2.2.2.2.2.2.2.1, wScriptAccesses9.2.2.2.2.2.2.2.2.1, wScriptAccesses9.2.2.2.2.2.2.2.2.2, by decide +kernel⟩⟩
def wScriptStartAbortFetch0 : CtxId × Word × State × ScriptId :=
  let cx : CtxId := 3
  let v : Word := 55
  let s : State := State.reset
  let c : ScriptId := 13
  let s := own { s with regs := [] }
  let s := s.updCtx cx (fun x => { x with selChan := BitVec.ofNat 32 (64 + c.val) })
  let q : Nat := 1
  let s := s.updScript c (fun x => { x with st := (if q == 0 then .running else .halted) })
  let s := (((s.setReg (scSel c) Off.DMA_SC_LEN 1).setReg (scSel c) Off.DMA_SC_CFG 0).setReg (scSel c) (Off.DMA_SC_ARG + 8) 1920).setReg (scSel c) Off.DMA_SC_BASE_LO 0x500
  let v := (v ||| 1) &&& 0xFFFFFFFD
  (cx, v, s, c)
def wScriptStartAbortFetch1 : CtxId × Word × State × ScriptId :=
  let cx : CtxId := 0
  let v : Word := 0
  let s : State := State.reset
  let c : ScriptId := 0
  let s := own { s with regs := [] }
  let s := s.updCtx cx (fun x => { x with selChan := BitVec.ofNat 32 (64 + c.val) })
  let q : Nat := 0
  let s := s.updScript c (fun x => { x with st := (if q == 0 then .running else .halted) })
  let s := (((s.setReg (scSel c) Off.DMA_SC_LEN 0).setReg (scSel c) Off.DMA_SC_CFG 0).setReg (scSel c) (Off.DMA_SC_ARG + 8) 0).setReg (scSel c) Off.DMA_SC_BASE_LO 0x500
  let v := v &&& (if q == 0 then 0xFFFFFFFE else 0xFFFFFFFC)
  (cx, v, s, c)
def wScriptStartAbortFetch2 : CtxId × Word × State × ScriptId :=
  let cx : CtxId := 0
  let v : Word := 0
  let s : State := State.reset
  let c : ScriptId := 0
  let s := own { s with regs := [] }
  let s := s.updCtx cx (fun x => { x with selChan := BitVec.ofNat 32 (64 + c.val) })
  let q : Nat := 0
  let s := s.updScript c (fun x => { x with st := (if q == 0 then .running else .halted) })
  let s := (((s.setReg (scSel c) Off.DMA_SC_LEN 0).setReg (scSel c) Off.DMA_SC_CFG 0).setReg (scSel c) (Off.DMA_SC_ARG + 8) 0).setReg (scSel c) Off.DMA_SC_BASE_LO 0x500
  let v := (v &&& 0xFFFFFFFC) ||| 2
  let s := s.updScript c (fun x => { x with xfer := none, st := (if q == 0 then .running else .waiting) })
  (cx, v, s, c)
def wScriptStartAbortFetch3 : CtxId × Word × State × ScriptId × XferSt :=
  let cx : CtxId := 0
  let v : Word := 0
  let s : State := State.reset
  let c : ScriptId := 0
  let x : XferSt := dXferSt
  let s := own { s with regs := [] }
  let s := s.updCtx cx (fun x => { x with selChan := BitVec.ofNat 32 (64 + c.val) })
  let q : Nat := 0
  let s := s.updScript c (fun x => { x with st := (if q == 0 then .running else .halted) })
  let s := (((s.setReg (scSel c) Off.DMA_SC_LEN 0).setReg (scSel c) Off.DMA_SC_CFG 0).setReg (scSel c) (Off.DMA_SC_ARG + 8) 0).setReg (scSel c) Off.DMA_SC_BASE_LO 0x500
  let v := (v &&& 0xFFFFFFFC) ||| 2
  let s := s.updScript c (fun z => { z with xfer := some x, st := .running })
  (cx, v, s, c, x)
def wScriptStartAbortFetch4 : CtxId × Word × State × ScriptId :=
  let cx : CtxId := 0
  let v : Word := 0
  let s : State := State.reset
  let c : ScriptId := 0
  let s := own { s with regs := [] }
  let s := s.updCtx cx (fun x => { x with selChan := BitVec.ofNat 32 (64 + c.val) })
  let q : Nat := 0
  let s := s.updScript c (fun x => { x with st := (if q == 0 then .running else .halted) })
  let s := (((s.setReg (scSel c) Off.DMA_SC_LEN 0).setReg (scSel c) Off.DMA_SC_CFG 0).setReg (scSel c) (Off.DMA_SC_ARG + 8) 0).setReg (scSel c) Off.DMA_SC_BASE_LO 0x500
  let v := v ||| 3
  (cx, v, s, c)
def wScriptStartAbortFetch5 : CtxId × Word × State :=
  let cx : CtxId := 0
  let v : Word := 0
  let s : State := State.reset
  let c : ScriptId := 15
  let s := own { s with regs := [] }
  let s := s.updCtx cx (fun x => { x with selChan := BitVec.ofNat 32 (64 + c.val) })
  let q : Nat := 0
  let s := s.updScript c (fun x => { x with st := (if q == 0 then .running else .halted) })
  let s := (((s.setReg (scSel c) Off.DMA_SC_LEN 0).setReg (scSel c) Off.DMA_SC_CFG 0).setReg (scSel c) (Off.DMA_SC_ARG + 8) 0).setReg (scSel c) Off.DMA_SC_BASE_LO 0x500
  (cx, v, s)
def wScriptStartAbortFetch6 : CtxId × Word × State × ScriptId :=
  let cx : CtxId := 3
  let v : Word := 55
  let s : State := State.reset
  let c : ScriptId := 13
  let s := own { s with regs := [] }
  let s := s.updCtx cx (fun x => { x with selChan := BitVec.ofNat 32 (64 + c.val) })
  let q : Nat := 1
  let s := s.updScript c (fun x => { x with st := (if q == 0 then .running else .halted) })
  let s := (((s.setReg (scSel c) Off.DMA_SC_LEN 1).setReg (scSel c) Off.DMA_SC_CFG 0).setReg (scSel c) (Off.DMA_SC_ARG + 8) 1920).setReg (scSel c) Off.DMA_SC_BASE_LO 0x500
  let v := (v ||| 1) &&& 0xFFFFFFFD
  (cx, v, s, c)
def wScriptStartAbortFetch7 : CtxId × Word × State × ScriptId :=
  let cx : CtxId := 0
  let v : Word := 0
  let s : State := State.reset
  let c : ScriptId := 0
  let s := own { s with regs := [] }
  let s := s.updCtx cx (fun x => { x with selChan := BitVec.ofNat 32 (64 + c.val) })
  let q : Nat := 0
  let s := s.updScript c (fun x => { x with st := (if q == 0 then .running else .halted) })
  let s := (((s.setReg (scSel c) Off.DMA_SC_LEN 0).setReg (scSel c) Off.DMA_SC_CFG 0).setReg (scSel c) (Off.DMA_SC_ARG + 8) 0).setReg (scSel c) Off.DMA_SC_BASE_LO 0x500
  let v := v &&& (if q == 0 then 0xFFFFFFFE else 0xFFFFFFFC)
  (cx, v, s, c)
def wScriptStartAbortFetch8 : CtxId × Word × State × ScriptId :=
  let cx : CtxId := 0
  let v : Word := 0
  let s : State := State.reset
  let c : ScriptId := 0
  let s := own { s with regs := [] }
  let s := s.updCtx cx (fun x => { x with selChan := BitVec.ofNat 32 (64 + c.val) })
  let q : Nat := 0
  let s := s.updScript c (fun x => { x with st := (if q == 0 then .running else .halted) })
  let s := (((s.setReg (scSel c) Off.DMA_SC_LEN 0).setReg (scSel c) Off.DMA_SC_CFG 0).setReg (scSel c) (Off.DMA_SC_ARG + 8) 0).setReg (scSel c) Off.DMA_SC_BASE_LO 0x500
  let v := (v &&& 0xFFFFFFFC) ||| 2
  let s := s.updScript c (fun x => { x with xfer := none, st := (if q == 0 then .running else .waiting) })
  (cx, v, s, c)
def wScriptStartAbortFetch9 : CtxId × Word × State × ScriptId × XferSt :=
  let cx : CtxId := 0
  let v : Word := 0
  let s : State := State.reset
  let c : ScriptId := 0
  let x : XferSt := dXferSt
  let s := own { s with regs := [] }
  let s := s.updCtx cx (fun x => { x with selChan := BitVec.ofNat 32 (64 + c.val) })
  let q : Nat := 0
  let s := s.updScript c (fun x => { x with st := (if q == 0 then .running else .halted) })
  let s := (((s.setReg (scSel c) Off.DMA_SC_LEN 0).setReg (scSel c) Off.DMA_SC_CFG 0).setReg (scSel c) (Off.DMA_SC_ARG + 8) 0).setReg (scSel c) Off.DMA_SC_BASE_LO 0x500
  let v := (v &&& 0xFFFFFFFC) ||| 2
  let s := s.updScript c (fun z => { z with xfer := some x, st := .running })
  (cx, v, s, c, x)
def wScriptStartAbortFetch10 : CtxId × Word × State × ScriptId :=
  let cx : CtxId := 0
  let v : Word := 0
  let s : State := State.reset
  let c : ScriptId := 0
  let s := own { s with regs := [] }
  let s := s.updCtx cx (fun x => { x with selChan := BitVec.ofNat 32 (64 + c.val) })
  let q : Nat := 0
  let s := s.updScript c (fun x => { x with st := (if q == 0 then .running else .halted) })
  let s := (((s.setReg (scSel c) Off.DMA_SC_LEN 0).setReg (scSel c) Off.DMA_SC_CFG 0).setReg (scSel c) (Off.DMA_SC_ARG + 8) 0).setReg (scSel c) Off.DMA_SC_BASE_LO 0x500
  let v := v ||| 3
  (cx, v, s, c)
def wScriptStartAbortFetch11 : CtxId × Word × State :=
  let cx : CtxId := 0
  let v : Word := 0
  let s : State := State.reset
  let c : ScriptId := 15
  let s := own { s with regs := [] }
  let s := s.updCtx cx (fun x => { x with selChan := BitVec.ofNat 32 (64 + c.val) })
  let q : Nat := 0
  let s := s.updScript c (fun x => { x with st := (if q == 0 then .running else .halted) })
  let s := (((s.setReg (scSel c) Off.DMA_SC_LEN 0).setReg (scSel c) Off.DMA_SC_CFG 0).setReg (scSel c) (Off.DMA_SC_ARG + 8) 0).setReg (scSel c) Off.DMA_SC_BASE_LO 0x500
  (cx, v, s)
def wScriptStartAbortFetch12 : ScriptId × Bool × DWord × State :=
  let c : ScriptId := 0
  let ok : Bool := false
  let w : DWord := 0
  let s : State := State.reset
  (c, ok, w, s)
def wScriptStartAbortFetch13 : ScriptId × DWord × State × Nat :=
  let c : ScriptId := 0
  let w : DWord := 0
  let s : State := State.reset
  let fa : Nat := 0
  let s := { s with regs := [], link := { s.link with d3hot := false } }
  let q : Nat := 0
  let s := s.updScript c (fun y => { y with st := .running, xfer := none, fetched := none, code := q, base := 64, len := 30, tries := 1 })
  let s := s.updEng (scriptEng c) (fun y => { y with pc := y.pc % 30, run := .running })
  let s := own { s with store := (List.range 40).map (fun i => (20 + i, BitVec.ofNat 32 (77 * i + 3))) }
  let fa := (s.script c).base + 8 * (s.eng (scriptEng c)).pc
  (c, w, s, fa)
def wScriptStartAbortFetch14 : ScriptId × Bool × DWord × State × Nat × Nat :=
  let c : ScriptId := 0
  let ok : Bool := false
  let w : DWord := 0
  let s : State := State.reset
  let fa : Nat := 0
  let cause : Nat := 0
  let s := { s with regs := [], link := { s.link with d3hot := false } }
  let q : Nat := 0
  let s := s.updScript c (fun y => { y with st := .running, xfer := none, fetched := none, code := q, base := 64, len := 30, tries := 1 })
  let s := s.updEng (scriptEng c) (fun y => { y with pc := y.pc % 30, run := .running })
  let fa := (s.script c).base + 8 * (s.eng (scriptEng c)).pc
  let s := (s.updScript c (fun y => { y with code := 1 })).updCtx ⟨(s.script c).ctx % 8, by omega⟩ (fun z => { z with rightsBlk := 0 })
  let cause := 5
  (c, ok, w, s, fa, cause)
def wScriptStartAbortFetch15 : ScriptId × DWord × State :=
  let c : ScriptId := 0
  let w : DWord := 0
  let s : State := State.reset
  let s := { s with regs := [], link := { s.link with d3hot := false } }
  let q : Nat := 0
  let s := s.updScript c (fun y => { y with st := .running, xfer := none, fetched := none, code := q, base := 64, len := 30, tries := 1 })
  let s := s.updEng (scriptEng c) (fun y => { y with pc := y.pc % 30, run := .running })
  let s := s.updScript c (fun y => { y with retry := 3 })
  (c, w, s)
def wScriptStartAbortFetch16 : ScriptId × DWord × State :=
  let c : ScriptId := 0
  let w : DWord := 0
  let s : State := State.reset
  let s := { s with regs := [], link := { s.link with d3hot := false } }
  let q : Nat := 0
  let s := s.updScript c (fun y => { y with st := .running, xfer := none, fetched := none, code := q, base := 64, len := 30, tries := 1 })
  let s := s.updEng (scriptEng c) (fun y => { y with pc := y.pc % 30, run := .running })
  let s := s.updScript c (fun y => { y with retry := 1 })
  (c, w, s)
def wScriptStartAbortFetch17 : ScriptId × Bool × DWord × State :=
  let c : ScriptId := 0
  let ok : Bool := false
  let w : DWord := 0
  let s : State := State.reset
  let s := { s with regs := [], link := { s.link with d3hot := false } }
  let q : Nat := 0
  let s := s.updScript c (fun y => { y with st := .running, xfer := none, fetched := none, code := q, base := 64, len := 30, tries := 1 })
  let s := s.updEng (scriptEng c) (fun y => { y with pc := y.pc % 30, run := .running })
  let s := s.updScript c (fun y => { y with len := 0 })
  (c, ok, w, s)
/-- The conditions of each clause of `Obligations.ScriptStartAbortFetch` are met. -/
theorem test_meets_ScriptStartAbortFetch :
    (∃ (cx : CtxId) (v : Word) (s : State) (c : ScriptId), (s.Serves cx Off.DMA_SC_CTL true) ∧ ((s.ctxs[cx]).selChan.toNat = 64 + c.val) ∧ (c ≠ 15) ∧ (v.getLsbD 0 = true) ∧ (v.getLsbD 1 = false) ∧ ((s.script c).st = .idle ∨ (s.script c).st = .halted)) ∧
    (∃ (cx : CtxId) (v : Word) (s : State) (c : ScriptId), (s.Serves cx Off.DMA_SC_CTL true) ∧ ((s.ctxs[cx]).selChan.toNat = 64 + c.val) ∧ (c ≠ 15) ∧ ((v.getLsbD 0 = false ∨ ((s.script c).st ≠ .idle ∧ (s.script c).st ≠ .halted))) ∧ ((v.getLsbD 1 = false ∨ ((s.script c).st ≠ .running ∧ (s.script c).st ≠ .waiting)))) ∧
    (∃ (cx : CtxId) (v : Word) (s : State) (c : ScriptId), (s.Serves cx Off.DMA_SC_CTL true) ∧ ((s.ctxs[cx]).selChan.toNat = 64 + c.val) ∧ (c ≠ 15) ∧ (v.getLsbD 0 = false) ∧ (v.getLsbD 1 = true) ∧ ((s.script c).st = .running ∨ (s.script c).st = .waiting) ∧ ((s.script c).xfer = none) ∧ (s.MemOk)) ∧
    (∃ (cx : CtxId) (v : Word) (s : State) (c : ScriptId) (x : XferSt), (s.Serves cx Off.DMA_SC_CTL true) ∧ ((s.ctxs[cx]).selChan.toNat = 64 + c.val) ∧ (c ≠ 15) ∧ (v.getLsbD 0 = false) ∧ (v.getLsbD 1 = true) ∧ ((s.script c).st = .running ∨ (s.script c).st = .waiting) ∧ ((s.script c).xfer = some x)) ∧
    (∃ (cx : CtxId) (v : Word) (s : State) (c : ScriptId), (s.Serves cx Off.DMA_SC_CTL true) ∧ ((s.ctxs[cx]).selChan.toNat = 64 + c.val) ∧ (c ≠ 15) ∧ (v.getLsbD 0 = true) ∧ (v.getLsbD 1 = true)) ∧
    (∃ (cx : CtxId) (v : Word) (s : State), (s.MemOk) ∧ (s.Serves cx Off.DMA_SC_CTL true) ∧ ((s.ctxs[cx]).selChan.toNat = 79)) ∧
    (∃ (cx : CtxId) (v : Word) (s : State) (c : ScriptId), (s.Serves cx Off.DMA_SC_CTL true) ∧ ((s.ctxs[cx]).selChan.toNat = 64 + c.val) ∧ (c ≠ 15) ∧ (v.getLsbD 0 = true) ∧ (v.getLsbD 1 = false) ∧ ((s.script c).st = .idle ∨ (s.script c).st = .halted)) ∧
    (∃ (cx : CtxId) (v : Word) (s : State) (c : ScriptId), (s.Serves cx Off.DMA_SC_CTL true) ∧ ((s.ctxs[cx]).selChan.toNat = 64 + c.val) ∧ (c ≠ 15) ∧ ((v.getLsbD 0 = false ∨ ((s.script c).st ≠ .idle ∧ (s.script c).st ≠ .halted))) ∧ ((v.getLsbD 1 = false ∨ ((s.script c).st ≠ .running ∧ (s.script c).st ≠ .waiting)))) ∧
    (∃ (cx : CtxId) (v : Word) (s : State) (c : ScriptId), (s.Serves cx Off.DMA_SC_CTL true) ∧ ((s.ctxs[cx]).selChan.toNat = 64 + c.val) ∧ (c ≠ 15) ∧ (v.getLsbD 0 = false) ∧ (v.getLsbD 1 = true) ∧ ((s.script c).st = .running ∨ (s.script c).st = .waiting) ∧ ((s.script c).xfer = none) ∧ (s.MemOk)) ∧
    (∃ (cx : CtxId) (v : Word) (s : State) (c : ScriptId) (x : XferSt), (s.Serves cx Off.DMA_SC_CTL true) ∧ ((s.ctxs[cx]).selChan.toNat = 64 + c.val) ∧ (c ≠ 15) ∧ (v.getLsbD 0 = false) ∧ (v.getLsbD 1 = true) ∧ ((s.script c).st = .running ∨ (s.script c).st = .waiting) ∧ ((s.script c).xfer = some x)) ∧
    (∃ (cx : CtxId) (v : Word) (s : State) (c : ScriptId), (s.Serves cx Off.DMA_SC_CTL true) ∧ ((s.ctxs[cx]).selChan.toNat = 64 + c.val) ∧ (c ≠ 15) ∧ (v.getLsbD 0 = true) ∧ (v.getLsbD 1 = true)) ∧
    (∃ (cx : CtxId) (v : Word) (s : State), (s.MemOk) ∧ (s.Serves cx Off.DMA_SC_CTL true) ∧ ((s.ctxs[cx]).selChan.toNat = 79)) ∧
    (∃ (c : ScriptId) (ok : Bool) (w : DWord) (s : State), (s.script c).st ≠ .running ∨ (s.script c).xfer ≠ none ∨ (s.script c).fetched ≠ none ∨ ((s.script c).code = 0 ∧ s.link.d3hot = true)) ∧
    (∃ (c : ScriptId) (w : DWord) (s : State) (fa : Nat), ((s.script c).st = .running) ∧ ((s.script c).xfer = none) ∧ ((s.script c).fetched = none) ∧ ((s.script c).code ≠ 0 ∨ s.link.d3hot = false) ∧ ((s.eng (scriptEng c)).pc < (s.script c).len) ∧ (fa = (s.script c).base + 8 * (s.eng (scriptEng c)).pc) ∧ ((s.script c).code = 0 ∨ (fa % 4 = 0 ∧ s.scCheck c 1 (0x3000000 + fa) 8 false = none ∧ fa + 8 ≤ 65536))) ∧
    (∃ (c : ScriptId) (ok : Bool) (w : DWord) (s : State) (fa : Nat) (cause : Nat), (s.MemOk) ∧ ((s.script c).st = .running) ∧ ((s.script c).xfer = none) ∧ ((s.script c).fetched = none) ∧ ((s.script c).code ≠ 0 ∨ s.link.d3hot = false) ∧ ((s.eng (scriptEng c)).pc < (s.script c).len) ∧ (fa = (s.script c).base + 8 * (s.eng (scriptEng c)).pc) ∧ ((s.script c).code ≠ 0) ∧ (s.scCheck c 1 (0x3000000 + fa) 8 false = some cause)) ∧
    (∃ (c : ScriptId) (w : DWord) (s : State), ((s.script c).st = .running) ∧ ((s.script c).xfer = none) ∧ ((s.script c).fetched = none) ∧ ((s.script c).code ≠ 0 ∨ s.link.d3hot = false) ∧ ((s.eng (scriptEng c)).pc < (s.script c).len) ∧ ((s.script c).tries < (s.script c).retry) ∧ ((s.script c).code = 0)) ∧
    (∃ (c : ScriptId) (w : DWord) (s : State), (s.MemOk) ∧ ((s.script c).st = .running) ∧ ((s.script c).xfer = none) ∧ ((s.script c).fetched = none) ∧ ((s.script c).code ≠ 0 ∨ s.link.d3hot = false) ∧ ((s.eng (scriptEng c)).pc < (s.script c).len) ∧ ((s.script c).retry ≤ (s.script c).tries) ∧ ((s.script c).code = 0)) ∧
    (∃ (c : ScriptId) (ok : Bool) (w : DWord) (s : State), ((s.script c).st = .running) ∧ ((s.script c).xfer = none) ∧ ((s.script c).fetched = none) ∧ ((s.script c).code ≠ 0 ∨ s.link.d3hot = false) ∧ ((s.script c).len ≤ (s.eng (scriptEng c)).pc)) :=
  ⟨⟨wScriptStartAbortFetch0.1, wScriptStartAbortFetch0.2.1, wScriptStartAbortFetch0.2.2.1, wScriptStartAbortFetch0.2.2.2, by unfold State.Serves; decide +kernel⟩,
   ⟨wScriptStartAbortFetch1.1, wScriptStartAbortFetch1.2.1, wScriptStartAbortFetch1.2.2.1, wScriptStartAbortFetch1.2.2.2, by unfold State.Serves; decide +kernel⟩,
   ⟨wScriptStartAbortFetch2.1, wScriptStartAbortFetch2.2.1, wScriptStartAbortFetch2.2.2.1, wScriptStartAbortFetch2.2.2.2, (by unfold State.Serves; decide +kernel), (by decide +kernel), (by decide +kernel), (by decide +kernel), (by decide +kernel), (by decide +kernel), (by decide +kernel), memOk_of _ (by decide +kernel)⟩,
   ⟨wScriptStartAbortFetch3.1, wScriptStartAbortFetch3.2.1, wScriptStartAbortFetch3.2.2.1, wScriptStartAbortFetch3.2.2.2.1, wScriptStartAbortFetch3.2.2.2.2, by unfold State.Serves; decide +kernel⟩,
   ⟨wScriptStartAbortFetch4.1, wScriptStartAbortFetch4.2.1, wScriptStartAbortFetch4.2.2.1, wScriptStartAbortFetch4.2.2.2, by unfold State.Serves; decide +kernel⟩,
   ⟨wScriptStartAbortFetch5.1, wScriptStartAbortFetch5.2.1, wScriptStartAbortFetch5.2.2, memOk_of _ (by decide +kernel), (by unfold State.Serves; decide +kernel), (by decide +kernel)⟩,
   ⟨wScriptStartAbortFetch6.1, wScriptStartAbortFetch6.2.1, wScriptStartAbortFetch6.2.2.1, wScriptStartAbortFetch6.2.2.2, by unfold State.Serves; decide +kernel⟩,
   ⟨wScriptStartAbortFetch7.1, wScriptStartAbortFetch7.2.1, wScriptStartAbortFetch7.2.2.1, wScriptStartAbortFetch7.2.2.2, by unfold State.Serves; decide +kernel⟩,
   ⟨wScriptStartAbortFetch8.1, wScriptStartAbortFetch8.2.1, wScriptStartAbortFetch8.2.2.1, wScriptStartAbortFetch8.2.2.2, (by unfold State.Serves; decide +kernel), (by decide +kernel), (by decide +kernel), (by decide +kernel), (by decide +kernel), (by decide +kernel), (by decide +kernel), memOk_of _ (by decide +kernel)⟩,
   ⟨wScriptStartAbortFetch9.1, wScriptStartAbortFetch9.2.1, wScriptStartAbortFetch9.2.2.1, wScriptStartAbortFetch9.2.2.2.1, wScriptStartAbortFetch9.2.2.2.2, by unfold State.Serves; decide +kernel⟩,
   ⟨wScriptStartAbortFetch10.1, wScriptStartAbortFetch10.2.1, wScriptStartAbortFetch10.2.2.1, wScriptStartAbortFetch10.2.2.2, by unfold State.Serves; decide +kernel⟩,
   ⟨wScriptStartAbortFetch11.1, wScriptStartAbortFetch11.2.1, wScriptStartAbortFetch11.2.2, memOk_of _ (by decide +kernel), (by unfold State.Serves; decide +kernel), (by decide +kernel)⟩,
   ⟨wScriptStartAbortFetch12.1, wScriptStartAbortFetch12.2.1, wScriptStartAbortFetch12.2.2.1, wScriptStartAbortFetch12.2.2.2, by decide +kernel⟩,
   ⟨wScriptStartAbortFetch13.1, wScriptStartAbortFetch13.2.1, wScriptStartAbortFetch13.2.2.1, wScriptStartAbortFetch13.2.2.2, by decide +kernel⟩,
   ⟨wScriptStartAbortFetch14.1, wScriptStartAbortFetch14.2.1, wScriptStartAbortFetch14.2.2.1, wScriptStartAbortFetch14.2.2.2.1, wScriptStartAbortFetch14.2.2.2.2.1, wScriptStartAbortFetch14.2.2.2.2.2, memOk_of _ (by decide +kernel), (by decide +kernel), (by decide +kernel), (by decide +kernel), (by decide +kernel), (by decide +kernel), (by decide +kernel), (by decide +kernel), (by decide +kernel)⟩,
   ⟨wScriptStartAbortFetch15.1, wScriptStartAbortFetch15.2.1, wScriptStartAbortFetch15.2.2, by decide +kernel⟩,
   ⟨wScriptStartAbortFetch16.1, wScriptStartAbortFetch16.2.1, wScriptStartAbortFetch16.2.2, memOk_of _ (by decide +kernel), (by decide +kernel), (by decide +kernel), (by decide +kernel), (by decide +kernel), (by decide +kernel), (by decide +kernel), (by decide +kernel)⟩,
   ⟨wScriptStartAbortFetch17.1, wScriptStartAbortFetch17.2.1, wScriptStartAbortFetch17.2.2.1, wScriptStartAbortFetch17.2.2.2, by decide +kernel⟩⟩
def wScriptLoopsAndWaits0 : ScriptId × ZscFields × State :=
  let c : ScriptId := 0
  let f : ZscFields := dZscFields
  let s : State := State.reset
  let s := running { s with regs := [] } (scriptEng c) 0
  let s := s.updScript c (fun y => { y with len := 60 })
  let f := { f with ext := f.ext % 3#8, cond := 0, imm := f.imm &&& 0x7F, ra := 0 }
  let q : Nat := 0
  let f := { f with cond := 1 + f.cond % 14#4, rd := 0, rb := 0, ext := 0 }
  (c, f, s)
def wScriptLoopsAndWaits1 : ScriptId × ZscFields × State :=
  let c : ScriptId := 0
  let f : ZscFields := dZscFields
  let s : State := State.reset
  let s := running { s with regs := [] } (scriptEng c) 0
  let s := s.updScript c (fun y => { y with len := 60 })
  let f := { f with ext := f.ext % 3#8, cond := 0, imm := f.imm &&& 0x7F, ra := 0 }
  let q : Nat := 0
  let f := { f with cond := 1 + f.cond % 14#4, rd := 0, rb := 0, ext := 0 }
  (c, f, s)
def wScriptLoopsAndWaits2 : ScriptId × ZscFields × State :=
  let c : ScriptId := 0
  let f : ZscFields := dZscFields
  let s : State := State.reset
  let s := running { s with regs := [] } (scriptEng c) 0
  let s := s.updScript c (fun y => { y with len := 60 })
  let f := { f with ext := f.ext % 3#8, cond := 0, imm := f.imm &&& 0x7F, ra := 0 }
  let q : Nat := 0
  let f := { f with cond := 1 + f.cond % 14#4, rd := 0, rb := 0, ext := 0 }
  (c, f, s)
def wScriptLoopsAndWaits3 : ScriptId × ZscFields × State :=
  let c : ScriptId := 0
  let f : ZscFields := dZscFields
  let s : State := State.reset
  let s := running { s with regs := [] } (scriptEng c) 0
  let s := s.updScript c (fun y => { y with len := 60 })
  let f := { f with ext := f.ext % 3#8, cond := 0, imm := f.imm &&& 0x7F, ra := 0 }
  let q : Nat := 0
  let f := { f with rb := 0, ext := 0 }
  let s := s.updEng (scriptEng c) (fun x => { x with g := x.g.set f.rd.toNat (BitVec.ofNat 32 q) })
  (c, f, s)
def wScriptLoopsAndWaits4 : ScriptId × ZscFields × State :=
  let c : ScriptId := 0
  let f : ZscFields := dZscFields
  let s : State := State.reset
  let s := running { s with regs := [] } (scriptEng c) 0
  let s := s.updScript c (fun y => { y with len := 60 })
  let f := { f with ext := f.ext % 3#8, cond := 0, imm := f.imm &&& 0x7F, ra := 0 }
  let q : Nat := 0
  let f := { f with rb := 0, ext := 0 }
  let s := s.updEng (scriptEng c) (fun x => { x with g := x.g.set f.rd.toNat (BitVec.ofNat 32 (q + 5)) })
  let f := { f with rd := 3 }
  let s := s.updEng (scriptEng c) (fun x => { x with g := x.g.set 3 7 })
  (c, f, s)
def wScriptLoopsAndWaits5 : ScriptId × ZscFields × State :=
  let c : ScriptId := 0
  let f : ZscFields := dZscFields
  let s : State := State.reset
  let s := running { s with regs := [] } (scriptEng c) 0
  let s := s.updScript c (fun y => { y with len := 60 })
  let f := { f with ext := f.ext % 3#8, cond := 0, imm := f.imm &&& 0x7F, ra := 0 }
  let q : Nat := 0
  let f := { f with rb := 0, ext := 0 }
  let s := s.updEng (scriptEng c) (fun x => { x with g := x.g.set f.rd.toNat (BitVec.ofNat 32 (q + 5)) })
  let f := { f with rd := 3, imm := 100 }
  let s := s.updEng (scriptEng c) (fun x => { x with g := x.g.set 3 7 })
  (c, f, s)
def wScriptLoopsAndWaits6 : ScriptId × ZscFields × State :=
  let c : ScriptId := 0
  let f : ZscFields := dZscFields
  let s : State := State.reset
  let s := running { s with regs := [] } (scriptEng c) 0
  let s := s.updScript c (fun y => { y with len := 60 })
  let f := { f with ext := f.ext % 3#8, cond := 0, imm := f.imm &&& 0x7F, ra := 0 }
  let q : Nat := 0
  let f := { f with rd := 0 }
  (c, f, s)
def wScriptLoopsAndWaits7 : ScriptId × ZscFields × State :=
  let c : ScriptId := 0
  let f : ZscFields := dZscFields
  let s : State := State.reset
  let s := running { s with regs := [] } (scriptEng c) 0
  let s := s.updScript c (fun y => { y with len := 60 })
  let f := { f with ext := f.ext % 3#8, cond := 0, imm := f.imm &&& 0x7F, ra := 0 }
  let q : Nat := 0
  let f := { f with rd := 0, ext := 3 }
  (c, f, s)
def wScriptLoopsAndWaits8 : ScriptId × State :=
  let c : ScriptId := 0
  let s : State := State.reset
  (c, s)
def wScriptLoopsAndWaits9 : ScriptId × State × WaitSt :=
  let c : ScriptId := 0
  let s : State := State.reset
  let w : WaitSt := dWaitSt
  let s := running { s with regs := [] } (scriptEng c) 0
  let q : Nat := 0
  let q1 : Nat := 0
  let w : WaitSt := { kind := q, sel := w.sel % 64, since := s.waitCount q (w.sel % 64) - q1, start := w.start % 9000, until_ := if q1 == 0 then some 5000 else w.until_ }
  let s := s.updScript c (fun y => { y with st := .waiting, wait := some w })
  let w := { w with since := 0 }
  let s := ({ s with raised := [(w.sel, 3)] } : State)
  let w := { w with kind := 0 }
  let s := s.updScript c (fun y => { y with wait := some w })
  (c, s, w)
def wScriptLoopsAndWaits10 : ScriptId × Nat × State :=
  let c : ScriptId := 0
  let t0 : Nat := 0
  let s : State := State.reset
  (c, t0, s)
def wScriptLoopsAndWaits11 : ScriptId × Nat × State × WaitSt × Nat :=
  let c : ScriptId := 0
  let t0 : Nat := 0
  let s : State := State.reset
  let w : WaitSt := dWaitSt
  let u : Nat := 0
  let s := running { s with regs := [] } (scriptEng c) 0
  let q : Nat := 0
  let q1 : Nat := 0
  let w : WaitSt := { kind := q, sel := w.sel % 64, since := s.waitCount q (w.sel % 64) - q1, start := w.start % 9000, until_ := if q1 == 0 then some 5000 else w.until_ }
  let s := s.updScript c (fun y => { y with st := .waiting, wait := some w })
  let u := 5000
  let t0 := 6000
  (c, t0, s, w, u)
/-- The conditions of each clause of `Obligations.ScriptLoopsAndWaits` are met. -/
theorem test_meets_ScriptLoopsAndWaits :
    (∃ (c : ScriptId) (f : ZscFields) (s : State), (s.Takes (scriptEng c) 1 { rd := true, imm := decide (f.imm.toNat < 65536) } f) ∧ ((s.eng (scriptEng c)).condTrue f.cond = false)) ∧
    (∃ (c : ScriptId) (f : ZscFields) (s : State), (s.Takes (scriptEng c) 1 { rb := true, imm := true, ext := 3 } f) ∧ ((s.eng (scriptEng c)).condTrue f.cond = false)) ∧
    (∃ (c : ScriptId) (f : ZscFields) (s : State), (s.Takes (scriptEng c) 1 { imm := decide (f.imm.toNat < 65536) } f) ∧ ((s.eng (scriptEng c)).condTrue f.cond = false)) ∧
    (∃ (c : ScriptId) (f : ZscFields) (s : State), (s.Takes (scriptEng c) 2 { rd := true, imm := decide (f.imm.toNat < 65536) } f) ∧ ((s.eng (scriptEng c)).condTrue f.cond = true) ∧ (((s.eng (scriptEng c)).get f.rd).toNat ≤ 1)) ∧
    (∃ (c : ScriptId) (f : ZscFields) (s : State), (s.Takes (scriptEng c) 2 { rd := true, imm := decide (f.imm.toNat < 65536) } f) ∧ ((s.eng (scriptEng c)).condTrue f.cond = true) ∧ (2 ≤ ((s.eng (scriptEng c)).get f.rd).toNat) ∧ (f.imm.toNat % 65536 < (s.script c).len)) ∧
    (∃ (c : ScriptId) (f : ZscFields) (s : State), (s.Takes (scriptEng c) 2 { rd := true, imm := decide (f.imm.toNat < 65536) } f) ∧ ((s.eng (scriptEng c)).condTrue f.cond = true) ∧ (2 ≤ ((s.eng (scriptEng c)).get f.rd).toNat) ∧ ((s.script c).len ≤ f.imm.toNat % 65536)) ∧
    (∃ (c : ScriptId) (f : ZscFields) (s : State), (s.Takes (scriptEng c) 2 { rb := true, imm := true, ext := 3 } f) ∧ ((s.eng (scriptEng c)).condTrue f.cond = true) ∧ (f.ext.toNat % 4 ≠ 3)) ∧
    (∃ (c : ScriptId) (f : ZscFields) (s : State), (s.Takes (scriptEng c) 2 { rb := true, imm := true, ext := 3 } f) ∧ ((s.eng (scriptEng c)).condTrue f.cond = true) ∧ (f.ext.toNat % 4 = 3)) ∧
    (∃ (c : ScriptId) (s : State), ∀ w ∈ (s.script c).wait, s.waitCount w.kind w.sel ≤ w.since) ∧
    (∃ (c : ScriptId) (s : State) (w : WaitSt), ((s.script c).wait = some w) ∧ (w.since < s.waitCount w.kind w.sel)) ∧
    (∃ (c : ScriptId) (t0 : Nat) (s : State), ∀ w ∈ (s.script c).wait, ∀ u ∈ w.until_, max s.now t0 < u) ∧
    (∃ (c : ScriptId) (t0 : Nat) (s : State) (w : WaitSt) (u : Nat), ((s.script c).wait = some w) ∧ (w.until_ = some u) ∧ (u ≤ max s.now t0)) :=
  ⟨⟨wScriptLoopsAndWaits0.1, wScriptLoopsAndWaits0.2.1, wScriptLoopsAndWaits0.2.2, by unfold State.Takes State.Runs; decide +kernel⟩,
   ⟨wScriptLoopsAndWaits1.1, wScriptLoopsAndWaits1.2.1, wScriptLoopsAndWaits1.2.2, by unfold State.Takes State.Runs; decide +kernel⟩,
   ⟨wScriptLoopsAndWaits2.1, wScriptLoopsAndWaits2.2.1, wScriptLoopsAndWaits2.2.2, by unfold State.Takes State.Runs; decide +kernel⟩,
   ⟨wScriptLoopsAndWaits3.1, wScriptLoopsAndWaits3.2.1, wScriptLoopsAndWaits3.2.2, by unfold State.Takes State.Runs; decide +kernel⟩,
   ⟨wScriptLoopsAndWaits4.1, wScriptLoopsAndWaits4.2.1, wScriptLoopsAndWaits4.2.2, by unfold State.Takes State.Runs; decide +kernel⟩,
   ⟨wScriptLoopsAndWaits5.1, wScriptLoopsAndWaits5.2.1, wScriptLoopsAndWaits5.2.2, by unfold State.Takes State.Runs; decide +kernel⟩,
   ⟨wScriptLoopsAndWaits6.1, wScriptLoopsAndWaits6.2.1, wScriptLoopsAndWaits6.2.2, by unfold State.Takes State.Runs; decide +kernel⟩,
   ⟨wScriptLoopsAndWaits7.1, wScriptLoopsAndWaits7.2.1, wScriptLoopsAndWaits7.2.2, by unfold State.Takes State.Runs; decide +kernel⟩,
   ⟨wScriptLoopsAndWaits8.1, wScriptLoopsAndWaits8.2, by decide +kernel⟩,
   ⟨wScriptLoopsAndWaits9.1, wScriptLoopsAndWaits9.2.1, wScriptLoopsAndWaits9.2.2, by decide +kernel⟩,
   ⟨wScriptLoopsAndWaits10.1, wScriptLoopsAndWaits10.2.1, wScriptLoopsAndWaits10.2.2, by decide +kernel⟩,
   ⟨wScriptLoopsAndWaits11.1, wScriptLoopsAndWaits11.2.1, wScriptLoopsAndWaits11.2.2.1, wScriptLoopsAndWaits11.2.2.2.1, wScriptLoopsAndWaits11.2.2.2.2, by decide +kernel⟩⟩
def wSigAndRaiseOfAScript0 : ScriptId × ZscFields × State :=
  let c : ScriptId := 0
  let f : ZscFields := dZscFields
  let s : State := State.reset
  let s := running { s with regs := [] } (scriptEng c) 0
  let s := s.updScript c (fun y => { y with len := 60 })
  let f := { f with ext := f.ext % 3#8, cond := 0, imm := f.imm &&& 0x7F, ra := 0 }
  let q : Nat := 0
  let f := { f with rd := 0, rb := 0, ext := 0 }
  let s := { s with pend := [] }
  let s := if q == 0 then s else (s.setReg 0 (Off.EVT_ROUTE + 4 * scriptSrc c.val 2) 0x80000005).setReg 0 (Off.EVT_ROUTE + 4 * scriptSrc c.val 3) 0x80000005
  (c, f, s)
def wSigAndRaiseOfAScript1 : ScriptId × ZscFields × State :=
  let c : ScriptId := 0
  let f : ZscFields := dZscFields
  let s : State := State.reset
  let s := running { s with regs := [] } (scriptEng c) 0
  let s := s.updScript c (fun y => { y with len := 60 })
  let f := { f with ext := f.ext % 3#8, cond := 0, imm := f.imm &&& 0x7F, ra := 0 }
  let q : Nat := 0
  let f := { f with rd := 0, rb := 0, ext := 0 }
  let s := { s with pend := [] }
  let s := if q == 0 then s else (s.setReg 0 (Off.EVT_ROUTE + 4 * scriptSrc c.val 2) 0x80000005).setReg 0 (Off.EVT_ROUTE + 4 * scriptSrc c.val 3) 0x80000005
  (c, f, s)
def wSigAndRaiseOfAScript2 : CtxId × Word × ScriptId × State :=
  let x : CtxId := 0
  let v : Word := 0
  let c : ScriptId := 0
  let s : State := State.reset
  let s := own { s with regs := [] }
  (x, v, c, s)
/-- The conditions of each clause of `Obligations.SigAndRaiseOfAScript` are met. -/
theorem test_meets_SigAndRaiseOfAScript :
    (∃ (c : ScriptId) (f : ZscFields) (s : State), (s.MemOk) ∧ (s.Takes (scriptEng c) 1 { imm := decide (f.imm.toNat < 65536) } f) ∧ ((s.eng (scriptEng c)).condTrue f.cond = true)) ∧
    (∃ (c : ScriptId) (f : ZscFields) (s : State), (s.MemOk) ∧ (s.Takes (scriptEng c) 1 { imm := true } f) ∧ ((s.eng (scriptEng c)).condTrue f.cond = true)) ∧
    (∃ (x : CtxId) (v : Word) (c : ScriptId) (s : State), (s.MemOk) ∧ (s.Serves x (Off.EVT_ROUTE + 4 * scriptSrc c.val 2) true) ∧ (scriptSrc c.val 2 < 1536)) :=
  ⟨⟨wSigAndRaiseOfAScript0.1, wSigAndRaiseOfAScript0.2.1, wSigAndRaiseOfAScript0.2.2, memOk_of _ (by decide +kernel), (by unfold State.Takes State.Runs; decide +kernel), (by decide +kernel)⟩,
   ⟨wSigAndRaiseOfAScript1.1, wSigAndRaiseOfAScript1.2.1, wSigAndRaiseOfAScript1.2.2, memOk_of _ (by decide +kernel), (by unfold State.Takes State.Runs; decide +kernel), (by decide +kernel)⟩,
   ⟨wSigAndRaiseOfAScript2.1, wSigAndRaiseOfAScript2.2.1, wSigAndRaiseOfAScript2.2.2.1, wSigAndRaiseOfAScript2.2.2.2, memOk_of _ (by decide +kernel), (by unfold State.Serves; decide +kernel), (by decide +kernel)⟩⟩
def wTakeStoreRecording0 : PortId × Bool × State :=
  let p : PortId := 0
  let exceeds : Bool := false
  let s : State := State.reset
  let s := s.updPort p (fun x => { x with due := x.due.set 3 [] })
  (p, exceeds, s)
def wTakeStoreRecording1 : PortId × Bool × State × Rec × List Rec :=
  let p : PortId := 0
  let exceeds : Bool := false
  let s : State := State.reset
  let r : Rec := dRec
  let rest : List Rec := []
  let s := { s with regs := [] }
  let q0 : Nat := 0
  let q1 : Nat := 0
  let s := (s.setReg p.val Off.CMP_REC (if q0 == 0 then 0 else 0x7FFFFFFF)).setReg 0 Off.TKS_CTL (if q1 == 0 then 0 else 1)
  let s := s.updPort p (fun x => { x with due := x.due.set 3 (r :: rest) })
  let sg : Seg := dSeg
  let sg : Seg := { sg with st := 1, closed := none, port := p.val, used := (if q0 == 1 then 100 else 131072 - 4096 - 100), entries := sg.entries, issued := 1, header := false }
  let g := 26
  let s := { s with tks := { s.tks with st := q0, segs := [(26, sg)], pool := 10, ports := s.tks.ports.map (fun (x : TksPort) => { x with open_ := some 26, suspended := false, rewind := none }), drives := s.tks.drives.map (fun (x : DrvSt) => { x with st := 4, nd := 100, cmds := [] }) } }
  let s := { s with tks := { s.tks with cues := (s.tks.cues.take 2).zipIdx.map (fun (e : (Nat × Cue) × Nat) => (e.2, { e.1.2 with port := p.val, st := 1, pinned := false })) } }
  (p, exceeds, s, r, rest)
def wTakeStoreRecording2 : PortId × Bool × State × Rec × List Rec :=
  let p : PortId := 1
  let exceeds : Bool := true
  let s : State := State.reset
  let r : Rec := dRec
  let rest : List Rec := []
  let s := { s with regs := [] }
  let q0 : Nat := 2
  let q1 : Nat := 2
  let s := (s.setReg p.val Off.CMP_REC (if q0 == 0 then 0 else 0x7FFFFFFF)).setReg 0 Off.TKS_CTL (if q1 == 0 then 0 else 1)
  let s := s.updPort p (fun x => { x with due := x.due.set 3 (r :: rest) })
  let sg : Seg := dSeg
  let sg : Seg := { sg with st := 1, closed := none, port := p.val, used := (if q0 == 1 then 100 else 131072 - 4096 - 100), entries := sg.entries, issued := 1, header := false }
  let g := 26
  let s := { s with tks := { s.tks with st := (if q0 == 1 then 3 else 2), segs := [(26, sg)], pool := 10, ports := s.tks.ports.map (fun (x : TksPort) => { x with open_ := some 26, suspended := false, rewind := none }), drives := s.tks.drives.map (fun (x : DrvSt) => { x with st := 4, nd := 100, cmds := [] }) } }
  let s := { s with tks := { s.tks with cues := (s.tks.cues.take 2).zipIdx.map (fun (e : (Nat × Cue) × Nat) => (e.2, { e.1.2 with port := p.val, st := 1, pinned := false })) } }
  (p, exceeds, s, r, rest)
def wTakeStoreRecording3 : PortId × Bool × State × Rec × List Rec :=
  let p : PortId := 1
  let exceeds : Bool := true
  let s : State := State.reset
  let r : Rec := dRec
  let rest : List Rec := []
  let s := { s with regs := [] }
  let q0 : Nat := 2
  let q1 : Nat := 2
  let s := (s.setReg p.val Off.CMP_REC (if q0 == 0 then 0 else 0x7FFFFFFF)).setReg 0 Off.TKS_CTL (if q1 == 0 then 0 else 1)
  let s := s.updPort p (fun x => { x with due := x.due.set 3 (r :: rest) })
  let sg : Seg := dSeg
  let sg : Seg := { sg with st := 1, closed := none, port := p.val, used := (if q0 == 1 then 100 else 131072 - 4096 - 100), entries := sg.entries, issued := 1, header := false }
  let g := 26
  let s := { s with tks := { s.tks with st := 2, segs := [(26, sg)], pool := 10, ports := s.tks.ports.map (fun (x : TksPort) => { x with open_ := some 26, suspended := true, rewind := none }), drives := s.tks.drives.map (fun (x : DrvSt) => { x with st := 4, nd := 100, cmds := [] }) } }
  let s := { s with tks := { s.tks with cues := (s.tks.cues.take 2).zipIdx.map (fun (e : (Nat × Cue) × Nat) => (e.2, { e.1.2 with port := p.val, st := 1, pinned := false })) } }
  (p, exceeds, s, r, rest)
def wTakeStoreRecording4 : PortId × Bool × State × Rec × List Rec × Nat :=
  let p : PortId := 1
  let exceeds : Bool := true
  let s : State := State.reset
  let r : Rec := dRec
  let rest : List Rec := []
  let g : Nat := 15
  let s := { s with regs := [] }
  let q0 : Nat := 2
  let q1 : Nat := 1
  let s := (s.setReg p.val Off.CMP_REC (if q0 == 0 then 0 else 0x7FFFFFFF)).setReg 0 Off.TKS_CTL (if q1 == 0 then 0 else 1)
  let s := s.updPort p (fun x => { x with due := x.due.set 3 (r :: rest) })
  let sg : Seg := dSeg
  let sg : Seg := { sg with st := 1, closed := none, port := p.val, used := (if q0 == 1 then 100 else 131072 - 4096 - 100), entries := sg.entries, issued := 1, header := false }
  let g := 26
  let s := { s with tks := { s.tks with st := 2, segs := [(26, sg)], pool := 10, ports := s.tks.ports.map (fun (x : TksPort) => { x with open_ := some 26, suspended := false, rewind := none }), drives := s.tks.drives.map (fun (x : DrvSt) => { x with st := 4, nd := 100, cmds := [] }) } }
  let s := { s with tks := { s.tks with cues := (s.tks.cues.take 2).zipIdx.map (fun (e : (Nat × Cue) × Nat) => (e.2, { e.1.2 with port := p.val, st := 1, pinned := false })) } }
  let exceeds := false
  (p, exceeds, s, r, rest, g)
def wTakeStoreRecording5 : PortId × Bool × State × Rec × List Rec × Nat :=
  let p : PortId := 1
  let exceeds : Bool := true
  let s : State := State.reset
  let r : Rec := dRec
  let rest : List Rec := []
  let g : Nat := 15
  let s := { s with regs := [] }
  let q0 : Nat := 2
  let q1 : Nat := 1
  let s := (s.setReg p.val Off.CMP_REC (if q0 == 0 then 0 else 0x7FFFFFFF)).setReg 0 Off.TKS_CTL (if q1 == 0 then 0 else 1)
  let s := s.updPort p (fun x => { x with due := x.due.set 3 (r :: rest) })
  let sg : Seg := dSeg
  let sg : Seg := { sg with st := 1, closed := none, port := p.val, used := (if q0 == 1 then 100 else 131072 - 4096 - 100), entries := sg.entries, issued := 1, header := false }
  let g := 26
  let s := { s with tks := { s.tks with st := 2, segs := [(26, sg)], pool := 10, ports := s.tks.ports.map (fun (x : TksPort) => { x with open_ := some 26, suspended := false, rewind := none }), drives := s.tks.drives.map (fun (x : DrvSt) => { x with st := 4, nd := 100, cmds := [] }) } }
  let s := { s with tks := { s.tks with cues := (s.tks.cues.take 2).zipIdx.map (fun (e : (Nat × Cue) × Nat) => (e.2, { e.1.2 with port := p.val, st := 1, pinned := false })) } }
  let exceeds := false
  let g := 27
  let s := { s with tks := { s.tks with wp := 27, ports := s.tks.ports.map (fun (x : TksPort) => { x with open_ := none }), cues := s.tks.cues.map (fun (e : Nat × Cue) => (e.1, { e.2 with anchor := none })) } }
  (p, exceeds, s, r, rest, g)
def wTakeStoreRecording6 : DriveId × Nat × Bool × State :=
  let d : DriveId := 0
  let k : Nat := 0
  let ok : Bool := false
  let s : State := State.reset
  let k := 100 + k
  (d, k, ok, s)
def wTakeStoreRecording7 : DriveId × Nat × Bool × State × DrvCmd :=
  let d : DriveId := 3
  let k : Nat := 39
  let ok : Bool := true
  let s : State := State.reset
  let c : DrvCmd := dDrvCmd
  let sg : Seg := dSeg
  let q0 : Nat := 1
  let q1 : Nat := 0
  let k := 1
  let g := 8 * 3 + d.val
  let cm : DrvCmd := { kind := 0, slot := g, chunk := (if q0 == 0 then 0 else 1), seq := 5, tries := q1, aborted := false, writes := [(1, 77, [3, 4]), (2, 78, [5])] }
  let co : DrvCmd := { kind := 1, slot := 5, chunk := 2, seq := 4, tries := 0, aborted := false, writes := [] }
  let sg : Seg := { sg with st := 1, closed := (if q1 == 0 then none else some 0), header := false, issued := 2, used := 131072, entries := [.note 1 1 2 3] }
  let s := { s with tks := { s.tks with segs := [(g, sg)], pool := 10, drives := s.tks.drives.map (fun (x : DrvSt) => { x with st := 4, nd := 100, cmds := [co, cm] }), ports := s.tks.ports.map (fun (x : TksPort) => { x with rewind := none, open_ := (if q1 == 0 then some g else none) }) } }
  let s := { s with tks := { s.tks with cues := (s.tks.cues.take 3).zipIdx.map (fun (e : (Nat × Cue) × Nat) => (e.2, { e.1.2 with anchor := some g, st := 1 + e.2 })) } }
  let q2 : Nat := 3
  let c := { cm with kind := q2 }
  let s := s.setCmd d k c
  (d, k, ok, s, c)
def wTakeStoreRecording8 : DriveId × Nat × State × DrvCmd :=
  let d : DriveId := 0
  let k : Nat := 0
  let s : State := State.reset
  let c : DrvCmd := dDrvCmd
  let sg : Seg := dSeg
  let q0 : Nat := 0
  let q1 : Nat := 0
  let k := 1
  let g := 8 * 3 + d.val
  let cm : DrvCmd := { kind := 0, slot := g, chunk := (if q0 == 0 then 0 else 1), seq := 5, tries := q1, aborted := false, writes := [(1, 77, [3, 4]), (2, 78, [5])] }
  let co : DrvCmd := { kind := 1, slot := 5, chunk := 2, seq := 4, tries := 0, aborted := false, writes := [] }
  let sg : Seg := { sg with st := 1, closed := (if q1 == 0 then none else some 0), header := false, issued := 2, used := 131072, entries := [.note 1 1 2 3] }
  let s := { s with tks := { s.tks with segs := [(g, sg)], pool := 10, drives := s.tks.drives.map (fun (x : DrvSt) => { x with st := 4, nd := 100, cmds := [co, cm] }), ports := s.tks.ports.map (fun (x : TksPort) => { x with rewind := none, open_ := (if q1 == 0 then some g else none) }) } }
  let s := { s with tks := { s.tks with cues := (s.tks.cues.take 3).zipIdx.map (fun (e : (Nat × Cue) × Nat) => (e.2, { e.1.2 with anchor := some g, st := 1 + e.2 })) } }
  let c := { cm with tries := 0 }
  let s := s.setCmd d k c
  (d, k, s, c)
def wTakeStoreRecording9 : DriveId × Nat × State × DrvCmd :=
  let d : DriveId := 0
  let k : Nat := 0
  let s : State := State.reset
  let c : DrvCmd := dDrvCmd
  let sg : Seg := dSeg
  let q0 : Nat := 0
  let q1 : Nat := 0
  let k := 1
  let g := 8 * 3 + d.val
  let cm : DrvCmd := { kind := 0, slot := g, chunk := (if q0 == 0 then 0 else 1), seq := 5, tries := q1, aborted := false, writes := [(1, 77, [3, 4]), (2, 78, [5])] }
  let co : DrvCmd := { kind := 1, slot := 5, chunk := 2, seq := 4, tries := 0, aborted := false, writes := [] }
  let sg : Seg := { sg with st := 1, closed := (if q1 == 0 then none else some 0), header := false, issued := 2, used := 131072, entries := [.note 1 1 2 3] }
  let s := { s with tks := { s.tks with segs := [(g, sg)], pool := 10, drives := s.tks.drives.map (fun (x : DrvSt) => { x with st := 4, nd := 100, cmds := [co, cm] }), ports := s.tks.ports.map (fun (x : TksPort) => { x with rewind := none, open_ := (if q1 == 0 then some g else none) }) } }
  let s := { s with tks := { s.tks with cues := (s.tks.cues.take 3).zipIdx.map (fun (e : (Nat × Cue) × Nat) => (e.2, { e.1.2 with anchor := some g, st := 1 + e.2 })) } }
  let c := { cm with tries := 1 }
  let s := s.setCmd d k c
  (d, k, s, c)
def wTakeStoreRecording10 : DriveId × Nat × State × DrvCmd :=
  let d : DriveId := 0
  let k : Nat := 0
  let s : State := State.reset
  let c : DrvCmd := dDrvCmd
  let sg : Seg := dSeg
  let q0 : Nat := 0
  let q1 : Nat := 0
  let k := 1
  let g := 8 * 3 + d.val
  let cm : DrvCmd := { kind := 0, slot := g, chunk := (if q0 == 0 then 0 else 1), seq := 5, tries := q1, aborted := false, writes := [(1, 77, [3, 4]), (2, 78, [5])] }
  let co : DrvCmd := { kind := 1, slot := 5, chunk := 2, seq := 4, tries := 0, aborted := false, writes := [] }
  let sg : Seg := { sg with st := 1, closed := (if q1 == 0 then none else some 0), header := false, issued := 2, used := 131072, entries := [.note 1 1 2 3] }
  let s := { s with tks := { s.tks with segs := [(g, sg)], pool := 10, drives := s.tks.drives.map (fun (x : DrvSt) => { x with st := 4, nd := 100, cmds := [co, cm] }), ports := s.tks.ports.map (fun (x : TksPort) => { x with rewind := none, open_ := (if q1 == 0 then some g else none) }) } }
  let s := { s with tks := { s.tks with cues := (s.tks.cues.take 3).zipIdx.map (fun (e : (Nat × Cue) × Nat) => (e.2, { e.1.2 with anchor := some g, st := 1 + e.2 })) } }
  let c := cm
  (d, k, s, c)
def wTakeStoreRecording11 : DriveId × Nat × State × DrvCmd :=
  let d : DriveId := 0
  let k : Nat := 0
  let s : State := State.reset
  let c : DrvCmd := dDrvCmd
  let sg : Seg := dSeg
  let q0 : Nat := 0
  let q1 : Nat := 0
  let k := 1
  let g := 8 * 3 + d.val
  let cm : DrvCmd := { kind := 0, slot := g, chunk := (if q0 == 0 then 0 else 1), seq := 5, tries := q1, aborted := false, writes := [(1, 77, [3, 4]), (2, 78, [5])] }
  let co : DrvCmd := { kind := 1, slot := 5, chunk := 2, seq := 4, tries := 0, aborted := false, writes := [] }
  let sg : Seg := { sg with st := 1, closed := (if q1 == 0 then none else some 0), header := false, issued := 2, used := 131072, entries := [.note 1 1 2 3] }
  let s := { s with tks := { s.tks with segs := [(g, sg)], pool := 10, drives := s.tks.drives.map (fun (x : DrvSt) => { x with st := 4, nd := 100, cmds := [co, cm] }), ports := s.tks.ports.map (fun (x : TksPort) => { x with rewind := none, open_ := (if q1 == 0 then some g else none) }) } }
  let s := { s with tks := { s.tks with cues := (s.tks.cues.take 3).zipIdx.map (fun (e : (Nat × Cue) × Nat) => (e.2, { e.1.2 with anchor := some g, st := 1 + e.2 })) } }
  let c := { cm with chunk := 1 }
  let s := s.setCmd d k c
  (d, k, s, c)
def wTakeStoreRecording12 : PortId × Nat × State :=
  let p : PortId := 0
  let t : Nat := 0
  let s : State := State.reset
  let s := { s with now := 5 }
  let t := t % 10
  (p, t, s)
def wTakeStoreRecording13 : PortId × Nat × State × Nat :=
  let p : PortId := 0
  let t : Nat := 0
  let s : State := State.reset
  let g : Nat := 0
  let s := { s with regs := [] }
  let q0 : Nat := 0
  let q1 : Nat := 0
  let s := (s.setReg p.val Off.CMP_REC (if q0 == 0 then 0 else 0x7FFFFFFF)).setReg 0 Off.TKS_CTL (if q1 == 0 then 0 else 1)
  let s := s.updPort p (fun x => { x with due := x.due.set 3 [] })
  let sg : Seg := dSeg
  let sg : Seg := { sg with st := 1, closed := none, port := p.val, used := (if q0 == 1 then 100 else 131072 - 4096 - 100), entries := sg.entries, issued := 1, header := false }
  let g := 26
  let s := { s with tks := { s.tks with st := 2, segs := [(26, sg)], pool := 10, ports := s.tks.ports.map (fun (x : TksPort) => { x with open_ := some 26, suspended := false, rewind := none }), drives := s.tks.drives.map (fun (x : DrvSt) => { x with st := 4, nd := 100, cmds := [] }) } }
  let s := { s with tks := { s.tks with cues := (s.tks.cues.take 2).zipIdx.map (fun (e : (Nat × Cue) × Nat) => (e.2, { e.1.2 with port := p.val, st := 1, pinned := false })) } }
  let q2 : Nat := 0
  let s := { s with tks := { s.tks with segs := [(26, { sg with opened := 0, entries := if q2 == 0 then [] else [.note 1 1 1 1] })] } }
  let t := 20000000000
  (p, t, s, g)
def wTakeStoreRecording14 : State :=
  let s : State := State.reset
  (s)
def wTakeStoreRecording15 : State × CkptSt :=
  let s : State := State.reset
  let x : CkptSt := dCkptSt
  let s := { s with tks := { s.tks with st := 2, running := some x } }
  (s, x)
def wTakeStoreRecording16 : State :=
  let s : State := State.reset
  let s := { s with tks := { s.tks with st := 2, running := none, drives := s.tks.drives.map (fun (x : DrvSt) => { x with st := 3 + x.st % 2 }) } }
  (s)
def wTakeStoreRecording17 : DriveId × Bool × State :=
  let d : DriveId := 0
  let ok : Bool := false
  let s : State := State.reset
  let sg : Seg := dSeg
  let q0 : Nat := 0
  let q1 : Nat := 0
  let g := 8 * 3 + d.val
  let cm : DrvCmd := { kind := 0, slot := g, chunk := (if q0 == 0 then 0 else 1), seq := 5, tries := q1, aborted := false, writes := [(1, 77, [3, 4]), (2, 78, [5])] }
  let co : DrvCmd := { kind := 1, slot := 5, chunk := 2, seq := 4, tries := 0, aborted := false, writes := [] }
  let sg : Seg := { sg with st := 1, closed := (if q1 == 0 then none else some 0), header := false, issued := 2, used := 131072, entries := [.note 1 1 2 3] }
  let s := { s with tks := { s.tks with segs := [(g, sg)], pool := 10, drives := s.tks.drives.map (fun (x : DrvSt) => { x with st := 4, nd := 100, cmds := [co, cm] }), ports := s.tks.ports.map (fun (x : TksPort) => { x with rewind := none, open_ := (if q1 == 0 then some g else none) }) } }
  let s := { s with tks := { s.tks with cues := (s.tks.cues.take 3).zipIdx.map (fun (e : (Nat × Cue) × Nat) => (e.2, { e.1.2 with anchor := some g, st := 1 + e.2 })) } }
  (d, ok, s)
def wTakeStoreRecording18 : DriveId × State × DrvCmd × List DrvCmd :=
  let d : DriveId := 0
  let s : State := State.reset
  let c : DrvCmd := dDrvCmd
  let cs : List DrvCmd := []
  let c := { c with kind := 2, tries := 0 }
  let s := s.updDrive d (fun x => { x with cmds := c :: cs })
  (d, s, c, cs)
def wTakeStoreRecording19 : DriveId × State × DrvCmd × List DrvCmd :=
  let d : DriveId := 0
  let s : State := State.reset
  let c : DrvCmd := dDrvCmd
  let cs : List DrvCmd := []
  let c := { c with kind := 2 + 2 * (c.kind % 2), tries := 0 }
  let s := s.updDrive d (fun x => { x with cmds := c :: cs })
  (d, s, c, cs)
def wTakeStoreRecording20 : DriveId × State × DrvCmd × List DrvCmd :=
  let d : DriveId := 0
  let s : State := State.reset
  let c : DrvCmd := dDrvCmd
  let cs : List DrvCmd := []
  let sg : Seg := dSeg
  let q0 : Nat := 0
  let q1 : Nat := 0
  let g := 8 * 3 + d.val
  let cm : DrvCmd := { kind := 0, slot := g, chunk := (if q0 == 0 then 0 else 1), seq := 5, tries := q1, aborted := false, writes := [(1, 77, [3, 4]), (2, 78, [5])] }
  let co : DrvCmd := { kind := 1, slot := 5, chunk := 2, seq := 4, tries := 0, aborted := false, writes := [] }
  let sg : Seg := { sg with st := 1, closed := (if q1 == 0 then none else some 0), header := false, issued := 2, used := 131072, entries := [.note 1 1 2 3] }
  let s := { s with tks := { s.tks with segs := [(g, sg)], pool := 10, drives := s.tks.drives.map (fun (x : DrvSt) => { x with st := 4, nd := 100, cmds := [co, cm] }), ports := s.tks.ports.map (fun (x : TksPort) => { x with rewind := none, open_ := (if q1 == 0 then some g else none) }) } }
  let s := { s with tks := { s.tks with cues := (s.tks.cues.take 3).zipIdx.map (fun (e : (Nat × Cue) × Nat) => (e.2, { e.1.2 with anchor := some g, st := 1 + e.2 })) } }
  let c := { c with kind := 2 + 2 * (c.kind % 2), tries := 1 }
  let s := s.updDrive d (fun x => { x with cmds := c :: cs })
  (d, s, c, cs)
def wTakeStoreRecording21 : DriveId × State × DrvCmd × List DrvCmd × CkptSt :=
  let d : DriveId := 0
  let s : State := State.reset
  let c : DrvCmd := dDrvCmd
  let cs : List DrvCmd := []
  let x : CkptSt := dCkptSt
  let c := { c with kind := 4, tries := 0 }
  let cs := cs.map (fun (e : DrvCmd) => { e with kind := e.kind % 2 })
  let x : CkptSt := { x with step := x.step % 4 }
  let s := { s with tks := { s.tks with st := 2, running := some x, drives := s.tks.drives.map (fun (x : DrvSt) => { x with st := 3 + x.st % 2, cmds := x.cmds.map (fun (e : DrvCmd) => { e with kind := e.kind % 2 }) }) } }
  let s := s.updDrive d (fun x => { x with st := 4, cmds := c :: cs })
  (d, s, c, cs, x)
def wTakeStoreRecording22 : DriveId × State × Nat × DrvCmd :=
  let d : DriveId := 0
  let s : State := State.reset
  let k : Nat := 0
  let c : DrvCmd := dDrvCmd
  let sg : Seg := dSeg
  let q0 : Nat := 0
  let q1 : Nat := 0
  let k := 1
  let g := 8 * 3 + d.val
  let cm : DrvCmd := { kind := 0, slot := g, chunk := (if q0 == 0 then 0 else 1), seq := 5, tries := q1, aborted := false, writes := [(1, 77, [3, 4]), (2, 78, [5])] }
  let co : DrvCmd := { kind := 1, slot := 5, chunk := 2, seq := 4, tries := 0, aborted := false, writes := [] }
  let sg : Seg := { sg with st := 1, closed := (if q1 == 0 then none else some 0), header := false, issued := 2, used := 131072, entries := [.note 1 1 2 3] }
  let s := { s with tks := { s.tks with segs := [(g, sg)], pool := 10, drives := s.tks.drives.map (fun (x : DrvSt) => { x with st := 4, nd := 100, cmds := [co, cm] }), ports := s.tks.ports.map (fun (x : TksPort) => { x with rewind := none, open_ := (if q1 == 0 then some g else none) }) } }
  let s := { s with tks := { s.tks with cues := (s.tks.cues.take 3).zipIdx.map (fun (e : (Nat × Cue) × Nat) => (e.2, { e.1.2 with anchor := some g, st := 1 + e.2 })) } }
  let c := cm
  (d, s, k, c)
def wTakeStoreRecording23 : DriveId × State × Nat × DrvCmd :=
  let d : DriveId := 0
  let s : State := State.reset
  let k : Nat := 0
  let c : DrvCmd := dDrvCmd
  let sg : Seg := dSeg
  let q0 : Nat := 0
  let q1 : Nat := 0
  let k := 1
  let g := 8 * 3 + d.val
  let cm : DrvCmd := { kind := 0, slot := g, chunk := (if q0 == 0 then 0 else 1), seq := 5, tries := q1, aborted := false, writes := [(1, 77, [3, 4]), (2, 78, [5])] }
  let co : DrvCmd := { kind := 1, slot := 5, chunk := 2, seq := 4, tries := 0, aborted := false, writes := [] }
  let sg : Seg := { sg with st := 1, closed := (if q1 == 0 then none else some 0), header := false, issued := 2, used := 131072, entries := [.note 1 1 2 3] }
  let s := { s with tks := { s.tks with segs := [(g, sg)], pool := 10, drives := s.tks.drives.map (fun (x : DrvSt) => { x with st := 4, nd := 100, cmds := [co, cm] }), ports := s.tks.ports.map (fun (x : TksPort) => { x with rewind := none, open_ := (if q1 == 0 then some g else none) }) } }
  let s := { s with tks := { s.tks with cues := (s.tks.cues.take 3).zipIdx.map (fun (e : (Nat × Cue) × Nat) => (e.2, { e.1.2 with anchor := some g, st := 1 + e.2 })) } }
  let c := { cm with aborted := true }
  let s := s.setCmd d k c
  (d, s, k, c)
def wTakeStoreRecording24 : DriveId × State :=
  let d : DriveId := 0
  let s : State := State.reset
  let sg : Seg := dSeg
  let q0 : Nat := 0
  let q1 : Nat := 0
  let k := 1
  let g := 8 * 3 + d.val
  let cm : DrvCmd := { kind := 0, slot := g, chunk := (if q0 == 0 then 0 else 1), seq := 5, tries := q1, aborted := false, writes := [(1, 77, [3, 4]), (2, 78, [5])] }
  let co : DrvCmd := { kind := 1, slot := 5, chunk := 2, seq := 4, tries := 0, aborted := false, writes := [] }
  let sg : Seg := { sg with st := 1, closed := (if q1 == 0 then none else some 0), header := false, issued := 2, used := 131072, entries := [.note 1 1 2 3] }
  let s := { s with tks := { s.tks with segs := [(g, sg)], pool := 10, drives := s.tks.drives.map (fun (x : DrvSt) => { x with st := 4, nd := 100, cmds := [co, cm] }), ports := s.tks.ports.map (fun (x : TksPort) => { x with rewind := none, open_ := (if q1 == 0 then some g else none) }) } }
  let s := { s with tks := { s.tks with cues := (s.tks.cues.take 3).zipIdx.map (fun (e : (Nat × Cue) × Nat) => (e.2, { e.1.2 with anchor := some g, st := 1 + e.2 })) } }
  (d, s)
def wTakeStoreRecording25 : DriveId × Option Nat × State :=
  let d : DriveId := 0
  let k : Option Nat := none
  let s : State := State.reset
  let k : Option Nat := k.map (· + 100)
  (d, k, s)
/-- The conditions of each clause of `Obligations.TakeStoreRecording` are met. -/
theorem test_meets_TakeStoreRecording :
    (∃ (p : PortId) (exceeds : Bool) (s : State), (s.port p).due[3] = []) ∧
    (∃ (p : PortId) (exceeds : Bool) (s : State) (r : Rec) (rest : List Rec), ((s.port p).due[3] = r :: rest) ∧ (recorded (s.eff p.val Off.CMP_REC) r.type = false ∨ s.rf 0 Off.TKS_CTL 0 0 = 0 ∨ (s.tks.st ≠ 2 ∧ s.tks.st ≠ 3))) ∧
    (∃ (p : PortId) (exceeds : Bool) (s : State) (r : Rec) (rest : List Rec), (s.MemOk) ∧ ((s.port p).due[3] = r :: rest) ∧ (recorded (s.eff p.val Off.CMP_REC) r.type = true) ∧ (s.rf 0 Off.TKS_CTL 0 0 = 1) ∧ (s.tks.st = 3 ∨ (s.tks.st = 2 ∧ (s.tks.ports[p]).suspended = false ∧ exceeds = true))) ∧
    (∃ (p : PortId) (exceeds : Bool) (s : State) (r : Rec) (rest : List Rec), ((s.port p).due[3] = r :: rest) ∧ (recorded (s.eff p.val Off.CMP_REC) r.type = true) ∧ (s.rf 0 Off.TKS_CTL 0 0 = 1) ∧ (s.tks.st = 2) ∧ ((s.tks.ports[p]).suspended = true)) ∧
    (∃ (p : PortId) (exceeds : Bool) (s : State) (r : Rec) (rest : List Rec) (g : Nat), (s.MemOk) ∧ (mwf (fun _ => freeSeg) s.tks.segs = true) ∧ ((s.port p).due[3] = r :: rest) ∧ (recorded (s.eff p.val Off.CMP_REC) r.type = true) ∧ (s.rf 0 Off.TKS_CTL 0 0 = 1) ∧ (s.tks.st = 2) ∧ ((s.tks.ports[p]).suspended = false) ∧ (exceeds = false) ∧ ((s.tks.ports[p]).open_ = some g) ∧ ((s.seg g).st = 1) ∧ ((s.tks.ports[p]).notes.length * 64 + up64 r.size + (s.seg g).used ≤ segRoom) ∧ (s.newChunks p (s.seg g) r ≤ s.tks.pool) ∧ (((s.tks.drives[slotDrive g]).cmds.filter (fun c => c.kind == 0)).length < 64)) ∧
    (∃ (p : PortId) (exceeds : Bool) (s : State) (r : Rec) (rest : List Rec) (g : Nat), (s.MemOk) ∧ (mwf (fun _ => freeSeg) s.tks.segs = true) ∧ ((s.port p).due[3] = r :: rest) ∧ (recorded (s.eff p.val Off.CMP_REC) r.type = true) ∧ (s.rf 0 Off.TKS_CTL 0 0 = 1) ∧ (s.tks.st = 2) ∧ (∀ q : PortId, (s.tks.ports[q]).suspended = false) ∧ (exceeds = false) ∧ ((s.tks.ports[p]).open_ = none) ∧ (s.tks.wp = g) ∧ (s.slotExists g = true) ∧ (s.seg g = freeSeg) ∧ (s.anchored g = []) ∧ (3 ≤ s.writable) ∧ ((s.tks.ports[p]).notes.length * 64 + up64 r.size + 0 ≤ segRoom) ∧ (4096 + (s.tks.ports[p]).notes.length * 64 + up64 r.size < chunkBytes) ∧ (0 < s.tks.pool) ∧ (((s.tks.drives[slotDrive g]).cmds.filter (fun c => c.kind == 0)).length < 64)) ∧
    (∃ (d : DriveId) (k : Nat) (ok : Bool) (s : State), (s.tks.drives[d]).cmds[k]? = none) ∧
    (∃ (d : DriveId) (k : Nat) (ok : Bool) (s : State) (c : DrvCmd), ((s.tks.drives[d]).cmds[k]? = some c) ∧ (c.kind ≠ 0)) ∧
    (∃ (d : DriveId) (k : Nat) (s : State) (c : DrvCmd), ((s.tks.drives[d]).cmds[k]? = some c) ∧ (c.kind = 0) ∧ (c.tries = 0)) ∧
    (∃ (d : DriveId) (k : Nat) (s : State) (c : DrvCmd), ((s.tks.drives[d]).cmds[k]? = some c) ∧ (c.kind = 0) ∧ (c.tries ≠ 0) ∧ (s.MemOk) ∧ ((s.tks.drives[d]).st = 4) ∧ (∃ e : DriveId, e ≠ d ∧ (s.tks.drives[e]).st = 4) ∧ ((s.tks.cues.map (fun q => q.1)).Nodup)) ∧
    (∃ (d : DriveId) (k : Nat) (s : State) (c : DrvCmd), (mwf (fun _ => freeSeg) s.tks.segs = true) ∧ ((s.tks.drives[d]).cmds[k]? = some c) ∧ (c.kind = 0) ∧ (c.chunk = 0)) ∧
    (∃ (d : DriveId) (k : Nat) (s : State) (c : DrvCmd), (mwf (fun _ => freeSeg) s.tks.segs = true) ∧ ((s.tks.drives[d]).cmds[k]? = some c) ∧ (c.kind = 0) ∧ (c.chunk ≠ 0) ∧ (c.slot % 8 = d.val)) ∧
    (∃ (p : PortId) (t : Nat) (s : State), (s.tks.ports[p]).open_.all (fun g => decide (max s.now t < (s.seg g).opened + max (s.rf 0 Off.TKS_CFG 15 0) 10 * 1000000)) = true) ∧
    (∃ (p : PortId) (t : Nat) (s : State) (g : Nat), (mwf (fun _ => freeSeg) s.tks.segs = true) ∧ ((s.tks.ports[p]).open_ = some g) ∧ ((s.seg g).opened + max (s.rf 0 Off.TKS_CFG 15 0) 10 * 1000000 ≤ max s.now t) ∧ ((s.seg g).st = 1) ∧ ((s.seg g).closed = none)) ∧
    (∃ (s : State), s.tks.st ≠ 2) ∧
    (∃ (s : State) (x : CkptSt), (s.tks.st = 2) ∧ (s.tks.running = some x)) ∧
    (∃ (s : State), (s.tks.st = 2) ∧ (s.tks.running = none)) ∧
    (∃ (d : DriveId) (ok : Bool) (s : State), (s.tks.drives[d]).cmds.all (fun c => decide (c.kind ≠ 2 ∧ c.kind ≠ 4)) = true) ∧
    (∃ (d : DriveId) (s : State) (c : DrvCmd) (cs : List DrvCmd), ((s.tks.drives[d]).cmds = c :: cs) ∧ (c.kind = 2)) ∧
    (∃ (d : DriveId) (s : State) (c : DrvCmd) (cs : List DrvCmd), ((s.tks.drives[d]).cmds = c :: cs) ∧ (c.kind = 2 ∨ c.kind = 4) ∧ (c.tries = 0)) ∧
    (∃ (d : DriveId) (s : State) (c : DrvCmd) (cs : List DrvCmd), ((s.tks.drives[d]).cmds = c :: cs) ∧ (c.kind = 2 ∨ c.kind = 4) ∧ (c.tries ≠ 0) ∧ (s.MemOk) ∧ ((s.tks.drives[d]).st = 4) ∧ (∃ e : DriveId, e ≠ d ∧ (s.tks.drives[e]).st = 4) ∧ ((s.tks.cues.map (fun q => q.1)).Nodup)) ∧
    (∃ (d : DriveId) (s : State) (c : DrvCmd) (cs : List DrvCmd) (x : CkptSt), ((s.tks.drives[d]).cmds = c :: cs) ∧ (c.kind = 4) ∧ (cs.all (fun e => decide (e.kind ≠ 2 ∧ e.kind ≠ 4)) = true) ∧ (∀ e : DriveId, e ≠ d → (s.tks.drives[e]).cmds.all (fun c => decide (c.kind ≠ 2 ∧ c.kind ≠ 4)) = true) ∧ (s.tks.running = some x) ∧ (s.tks.st = 2)) ∧
    (∃ (d : DriveId) (s : State) (k : Nat) (c : DrvCmd), ((s.tks.drives[d]).cmds[k]? = some c) ∧ (c.aborted = false)) ∧
    (∃ (d : DriveId) (s : State) (k : Nat) (c : DrvCmd), ((s.tks.drives[d]).cmds[k]? = some c) ∧ (c.aborted = true) ∧ (s.MemOk) ∧ ((s.tks.drives[d]).st = 4) ∧ (∃ e : DriveId, e ≠ d ∧ (s.tks.drives[e]).st = 4) ∧ ((s.tks.cues.map (fun q => q.1)).Nodup)) ∧
    (∃ (d : DriveId) (s : State), (s.MemOk) ∧ ((s.tks.drives[d]).st = 4) ∧ (∃ e : DriveId, e ≠ d ∧ (s.tks.drives[e]).st = 4) ∧ ((s.tks.cues.map (fun q => q.1)).Nodup)) ∧
    (∃ (d : DriveId) (k : Option Nat) (s : State), ((s.tks.drives[d]).st ≠ 4) ∧ (∀ i ∈ k, (s.tks.drives[d]).cmds[i]? = none)) :=
  ⟨⟨wTakeStoreRecording0.1, wTakeStoreRecording0.2.1, wTakeStoreRecording0.2.2, by decide +kernel⟩,
   ⟨wTakeStoreRecording1.1, wTakeStoreRecording1.2.1, wTakeStoreRecording1.2.2.1, wTakeStoreRecording1.2.2.2.1, wTakeStoreRecording1.2.2.2.2, by decide +kernel⟩,
   ⟨wTakeStoreRecording2.1, wTakeStoreRecording2.2.1, wTakeStoreRecording2.2.2.1, wTakeStoreRecording2.2.2.2.1, wTakeStoreRecording2.2.2.2.2, memOk_of _ (by decide +kernel), (by decide +kernel), (by decide +kernel), (by decide +kernel), (by decide +kernel)⟩,
   ⟨wTakeStoreRecording3.1, wTakeStoreRecording3.2.1, wTakeStoreRecording3.2.2.1, wTakeStoreRecording3.2.2.2.1, wTakeStoreRecording3.2.2.2.2, by decide +kernel⟩,
   ⟨wTakeStoreRecording4.1, wTakeStoreRecording4.2.1, wTakeStoreRecording4.2.2.1, wTakeStoreRecording4.2.2.2.1, wTakeStoreRecording4.2.2.2.2.1, wTakeStoreRecording4.2.2.2.2.2, memOk_of _ (by decide +kernel), (by decide +kernel), (by decide +kernel), (by decide +kernel), (by decide +kernel), (by decide +kernel), (by decide +kernel), (by decide +kernel), (by decide +kernel), (by decide +kernel), (by decide +kernel), (by decide +kernel), (by decide +kernel)⟩,
   ⟨wTakeStoreRecording5.1, wTakeStoreRecording5.2.1, wTakeStoreRecording5.2.2.1, wTakeStoreRecording5.2.2.2.1, wTakeStoreRecording5.2.2.2.2.1, wTakeStoreRecording5.2.2.2.2.2, memOk_of _ (by decide +kernel), (by decide +kernel), (by decide +kernel), (by decide +kernel), (by decide +kernel), (by decide +kernel), (by decide +kernel), (by decide +kernel), (by decide +kernel), (by decide +kernel), (by decide +kernel), (by decide +kernel), (by decide +kernel), (by decide +kernel), (by decide +kernel), (by decide +kernel), (by decide +kernel), (by decide +kernel)⟩,
   ⟨wTakeStoreRecording6.1, wTakeStoreRecording6.2.1, wTakeStoreRecording6.2.2.1, wTakeStoreRecording6.2.2.2, by decide +kernel⟩,
   ⟨wTakeStoreRecording7.1, wTakeStoreRecording7.2.1, wTakeStoreRecording7.2.2.1, wTakeStoreRecording7.2.2.2.1, wTakeStoreRecording7.2.2.2.2, by decide +kernel⟩,
   ⟨wTakeStoreRecording8.1, wTakeStoreRecording8.2.1, wTakeStoreRecording8.2.2.1, wTakeStoreRecording8.2.2.2, by decide +kernel⟩,
   ⟨wTakeStoreRecording9.1, wTakeStoreRecording9.2.1, wTakeStoreRecording9.2.2.1, wTakeStoreRecording9.2.2.2, (by decide +kernel), (by decide +kernel), (by decide +kernel), memOk_of _ (by decide +kernel), (by decide +kernel), (by decide +kernel), (by decide +kernel)⟩,
   ⟨wTakeStoreRecording10.1, wTakeStoreRecording10.2.1, wTakeStoreRecording10.2.2.1, wTakeStoreRecording10.2.2.2, by decide +kernel⟩,
   ⟨wTakeStoreRecording11.1, wTakeStoreRecording11.2.1, wTakeStoreRecording11.2.2.1, wTakeStoreRecording11.2.2.2, by decide +kernel⟩,
   ⟨wTakeStoreRecording12.1, wTakeStoreRecording12.2.1, wTakeStoreRecording12.2.2, by decide +kernel⟩,
   ⟨wTakeStoreRecording13.1, wTakeStoreRecording13.2.1, wTakeStoreRecording13.2.2.1, wTakeStoreRecording13.2.2.2, by decide +kernel⟩,
   ⟨wTakeStoreRecording14, by decide +kernel⟩,
   ⟨wTakeStoreRecording15.1, wTakeStoreRecording15.2, by decide +kernel⟩,
   ⟨wTakeStoreRecording16, by decide +kernel⟩,
   ⟨wTakeStoreRecording17.1, wTakeStoreRecording17.2.1, wTakeStoreRecording17.2.2, by decide +kernel⟩,
   ⟨wTakeStoreRecording18.1, wTakeStoreRecording18.2.1, wTakeStoreRecording18.2.2.1, wTakeStoreRecording18.2.2.2, by decide +kernel⟩,
   ⟨wTakeStoreRecording19.1, wTakeStoreRecording19.2.1, wTakeStoreRecording19.2.2.1, wTakeStoreRecording19.2.2.2, by decide +kernel⟩,
   ⟨wTakeStoreRecording20.1, wTakeStoreRecording20.2.1, wTakeStoreRecording20.2.2.1, wTakeStoreRecording20.2.2.2, (by decide +kernel), (by decide +kernel), (by decide +kernel), memOk_of _ (by decide +kernel), (by decide +kernel), (by decide +kernel), (by decide +kernel)⟩,
   ⟨wTakeStoreRecording21.1, wTakeStoreRecording21.2.1, wTakeStoreRecording21.2.2.1, wTakeStoreRecording21.2.2.2.1, wTakeStoreRecording21.2.2.2.2, by decide +kernel⟩,
   ⟨wTakeStoreRecording22.1, wTakeStoreRecording22.2.1, wTakeStoreRecording22.2.2.1, wTakeStoreRecording22.2.2.2, by decide +kernel⟩,
   ⟨wTakeStoreRecording23.1, wTakeStoreRecording23.2.1, wTakeStoreRecording23.2.2.1, wTakeStoreRecording23.2.2.2, (by decide +kernel), (by decide +kernel), memOk_of _ (by decide +kernel), (by decide +kernel), (by decide +kernel), (by decide +kernel)⟩,
   ⟨wTakeStoreRecording24.1, wTakeStoreRecording24.2, memOk_of _ (by decide +kernel), (by decide +kernel), (by decide +kernel), (by decide +kernel)⟩,
   ⟨wTakeStoreRecording25.1, wTakeStoreRecording25.2.1, wTakeStoreRecording25.2.2, by decide +kernel⟩⟩
def wTakeStoreDrives0 : DriveId × Nat × Nat × State :=
  let d : DriveId := 0
  let rate : Nat := 0
  let width : Nat := 0
  let s : State := State.reset
  let s := s.updDrive d (fun x => { x with st := 2 })
  (d, rate, width, s)
def wTakeStoreDrives1 : DriveId × Nat × Nat × State :=
  let d : DriveId := 0
  let rate : Nat := 0
  let width : Nat := 0
  let s : State := State.reset
  let s := s.updDrive d (fun x => { x with st := 5 * (x.st % 2) })
  let rate := rate % 16
  let width := width % 16
  (d, rate, width, s)
def wTakeStoreDrives2 : DriveId × Option Nat × Nat × Bool × Nat × Nat × Option StoreHdr × State :=
  let d : DriveId := 0
  let ns : Option Nat := none
  let lba : Nat := 0
  let plain : Bool := false
  let mdts : Nat := 0
  let qmax : Nat := 0
  let hdr : Option StoreHdr := none
  let s : State := State.reset
  (d, ns, lba, plain, mdts, qmax, hdr, s)
def wTakeStoreDrives3 : DriveId × Option Nat × Nat × Bool × Nat × Nat × Option StoreHdr × State :=
  let d : DriveId := 0
  let ns : Option Nat := none
  let lba : Nat := 0
  let plain : Bool := false
  let mdts : Nat := 0
  let qmax : Nat := 0
  let hdr : Option StoreHdr := none
  let s : State := State.reset
  let s := s.updDrive d (fun x => { x with st := 1 })
  let q0 : Nat := 0
  let q1 : Nat := 0
  let ns : Option Nat := if q0 == 0 then ns else some (2 ^ 31 + 12345678901 * q0)
  let lba := if q0 == 1 then 512 else if q0 == 2 then 4096 else 520
  let mdts := if q1 == 0 then 131072 else mdts
  let qmax := 64 + qmax
  (d, ns, lba, plain, mdts, qmax, hdr, s)
def wTakeStoreDrives4 : DriveId × Bool × State :=
  let d : DriveId := 0
  let fatal : Bool := false
  let s : State := State.reset
  (d, fatal, s)
def wTakeStoreDrives5 : DriveId × Bool × State :=
  let d : DriveId := 0
  let fatal : Bool := false
  let s : State := State.reset
  let k := 0
  let sg : Seg := dSeg
  let q0 : Nat := 0
  let q1 : Nat := 0
  let k := 1
  let g := 8 * 3 + d.val
  let cm : DrvCmd := { kind := 0, slot := g, chunk := (if q0 == 0 then 0 else 1), seq := 5, tries := q1, aborted := false, writes := [(1, 77, [3, 4]), (2, 78, [5])] }
  let co : DrvCmd := { kind := 1, slot := 5, chunk := 2, seq := 4, tries := 0, aborted := false, writes := [] }
  let sg : Seg := { sg with st := 1, closed := (if q1 == 0 then none else some 0), header := false, issued := 2, used := 131072, entries := [.note 1 1 2 3] }
  let s := { s with tks := { s.tks with segs := [(g, sg)], pool := 10, drives := s.tks.drives.map (fun (x : DrvSt) => { x with st := 4, nd := 100, cmds := [co, cm] }), ports := s.tks.ports.map (fun (x : TksPort) => { x with rewind := none, open_ := (if q1 == 0 then some g else none) }) } }
  let s := { s with tks := { s.tks with cues := (s.tks.cues.take 3).zipIdx.map (fun (e : (Nat × Cue) × Nat) => (e.2, { e.1.2 with anchor := some g, st := 1 + e.2 })) } }
  (d, fatal, s)
def wTakeStoreDrives6 : DriveId × Bool × State :=
  let d : DriveId := 0
  let fatal : Bool := false
  let s : State := State.reset
  let s := { s with tks := { s.tks with drives := s.tks.drives.map (fun (x : DrvSt) => { x with st := x.st % 3, nd := x.nd % 30, lostNd := x.lostNd % 30 }) } }
  let s := s.updDrive d (fun x => { x with st := 4 })
  (d, fatal, s)
def wTakeStoreDrives7 : DriveId × Byte × Nat × Nat × State :=
  let d : DriveId := 0
  let warn : Byte := 0
  let used : Nat := 0
  let temp : Nat := 0
  let s : State := State.reset
  (d, warn, used, temp, s)
def wTakeStoreDrives8 : DriveId × Byte × Nat × Nat × State :=
  let d : DriveId := 0
  let warn : Byte := 0
  let used : Nat := 0
  let temp : Nat := 0
  let s : State := State.reset
  let q : Nat := 0
  let s := (s.updDrive d (fun x => { x with st := 2 + x.st % 3 })).setReg 0 (Off.TKS_DRV_HEALTH + 16 * d.val) (if q == 0 then 0xFF000000 else 0x0F000000)
  (d, warn, used, temp, s)
def wTakeStoreDrives9 : (List (Nat × Seg)) × (List (Nat × Cue)) × Nat × (List (Nat × Nat × Seg)) × State :=
  let segs : List (Nat × Seg) := []
  let cues : List (Nat × Cue) := []
  let mirrored : Nat := 0
  let found : List (Nat × Nat × Seg) := []
  let s : State := State.reset
  let s := { s with tks := { s.tks with st := 2 } }
  (segs, cues, mirrored, found, s)
def wTakeStoreDrives10 : (List (Nat × Seg)) × (List (Nat × Cue)) × Nat × (List (Nat × Nat × Seg)) × State :=
  let segs : List (Nat × Seg) := []
  let cues : List (Nat × Cue) := []
  let mirrored : Nat := 0
  let found : List (Nat × Nat × Seg) := []
  let s : State := State.reset
  let s := { s with tks := { s.tks with st := 1, drives := s.tks.drives.map (fun (x : DrvSt) => { x with hdr := none }) } }
  (segs, cues, mirrored, found, s)
def wTakeStoreDrives11 : (List (Nat × Seg)) × (List (Nat × Cue)) × Nat × (List (Nat × Nat × Seg)) × State × StoreHdr :=
  let segs : List (Nat × Seg) := []
  let cues : List (Nat × Cue) := []
  let mirrored : Nat := 0
  let found : List (Nat × Nat × Seg) := []
  let s : State := State.reset
  let h : StoreHdr := dStoreHdr
  let h : StoreHdr := dStoreHdr
  let h : StoreHdr := { h with wp := 4, jcount := h.jcount % 7, jhead := h.jhead % 9, members := (if s.free % 2 == 0 then 3 else 7), lost := 0, next := 5 }
  let s := { s with tks := { s.tks with st := 1, segs := [], running := none, drives := Vector.ofFn (fun (d : Fin 8) => { s.tks.drives[d] with st := if d.val < 3 then 3 else 0, nd := 50, hdr := (if d.val < 3 then some { h with ckpt := (if d.val == 1 ∧ s.free % 3 == 0 then 0 else h.ckpt) } else none) }) } }
  let mirrored := mirrored % 100
  let segs : List (Nat × Seg) := [(8, { freeSeg with st := 2, seq := 3 }), (9, { freeSeg with st := 1, seq := 4 })]
  let found : List (Nat × Nat × Seg) := [(17, h.id, { freeSeg with st := 1, seq := 6 }), (16, h.id, { freeSeg with st := 0, seq := 2 }), (15, h.id, { freeSeg with seq := 9 }), (18, h.id + 1, { freeSeg with seq := 9 })]
  let cues := cues.map (fun (c : Nat × Cue) => (c.1 % 256, c.2))
  match s.bestHdr with
  | some h =>
    let q : Nat := 0
    let found := if q == 0 then [] else found
    let q : Nat := 0
    let segs := if q == 0 then segs.take 1 else segs
    let found := if q == 1 then found ++ [(9, h.id, { freeSeg with st := 1, seq := 4 })] else found
    (segs, cues, mirrored, found, s, h)
  | _ => ([], [], 0, [], State.reset, dStoreHdr)
def wTakeStoreDrives12 : CtxId × Word × State :=
  let c : CtxId := 0
  let v : Word := 0
  let s : State := State.reset
  let s := own { s with regs := [] }
  let s := { s with tks := { s.tks with segs := [], ports := s.tks.ports.map (fun (x : TksPort) => { x with open_ := none }), drives := s.tks.drives.map (fun (x : DrvSt) => { x with st := x.st % 6, nd := x.nd % 30, lostNd := x.lostNd % 20 }) } }
  let v : Word := 0x7A5E0000 ||| (v &&& 1)
  (c, v, s)
def wTakeStoreDrives13 : CtxId × Word × State :=
  let c : CtxId := 0
  let v : Word := 0
  let s : State := State.reset
  let s := own { s with regs := [] }
  let s := { s with tks := { s.tks with segs := [], ports := s.tks.ports.map (fun (x : TksPort) => { x with open_ := none }), drives := s.tks.drives.map (fun (x : DrvSt) => { x with st := x.st % 6, nd := x.nd % 30, lostNd := x.lostNd % 20 }) } }
  let v : Word := 0x7A5E0000 ||| (v &&& 1)
  let q : Nat := 0
  let v := if q == 0 then v ||| 1 else v &&& 0xFFFF
  let s := s.setReg 0 Off.TKS_CTL (if q == 0 then 1 else 0)
  (c, v, s)
def wTakeStoreDrives14 : CtxId × DriveId × Word × State :=
  let c : CtxId := 0
  let d : DriveId := 0
  let v : Word := 0
  let s : State := State.reset
  let s := own { s with regs := [] }
  let s := { s with tks := { s.tks with segs := [], ports := s.tks.ports.map (fun (x : TksPort) => { x with open_ := none }), drives := s.tks.drives.map (fun (x : DrvSt) => { x with st := x.st % 6, nd := x.nd % 30, lostNd := x.lostNd % 20 }) } }
  let v : Word := 0x7A5E0000 ||| (v &&& 1)
  let s := { s with tks := { s.tks with running := none, st := 2 + s.free % 2 } }
  let s := s.updDrive d (fun x => { x with st := 2 + s.free % 2 })
  let v := v ||| 1
  (c, d, v, s)
def wTakeStoreDrives15 : CtxId × DriveId × Word × State :=
  let c : CtxId := 0
  let d : DriveId := 0
  let v : Word := 0
  let s : State := State.reset
  let s := own { s with regs := [] }
  let s := { s with tks := { s.tks with segs := [], ports := s.tks.ports.map (fun (x : TksPort) => { x with open_ := none }), drives := s.tks.drives.map (fun (x : DrvSt) => { x with st := x.st % 6, nd := x.nd % 30, lostNd := x.lostNd % 20 }) } }
  let v : Word := 0x7A5E0000 ||| (v &&& 1)
  (c, d, v, s)
/-- The conditions of each clause of `Obligations.TakeStoreDrives` are met. -/
theorem test_meets_TakeStoreDrives :
    (∃ (d : DriveId) (rate : Nat) (width : Nat) (s : State), ((s.tks.drives[d]).st ≠ 0) ∧ ((s.tks.drives[d]).st ≠ 5)) ∧
    (∃ (d : DriveId) (rate : Nat) (width : Nat) (s : State), (s.MemOk) ∧ ((s.tks.drives[d]).st = 0 ∨ (s.tks.drives[d]).st = 5) ∧ (rate < 16) ∧ (width < 16)) ∧
    (∃ (d : DriveId) (ns : Option Nat) (lba : Nat) (plain : Bool) (mdts : Nat) (qmax : Nat) (hdr : Option StoreHdr) (s : State), (s.tks.drives[d]).st ≠ 1) ∧
    (∃ (d : DriveId) (ns : Option Nat) (lba : Nat) (plain : Bool) (mdts : Nat) (qmax : Nat) (hdr : Option StoreHdr) (s : State), (s.MemOk) ∧ ((s.tks.drives[d]).st = 1)) ∧
    (∃ (d : DriveId) (fatal : Bool) (s : State), (s.MemOk) ∧ ((s.tks.drives[d]).st ≠ 4)) ∧
    (∃ (d : DriveId) (fatal : Bool) (s : State), (s.MemOk) ∧ ((s.tks.drives[d]).st = 4) ∧ (∃ e : DriveId, e ≠ d ∧ (s.tks.drives[e]).st = 4) ∧ ((s.tks.cues.map (fun q => q.1)).Nodup)) ∧
    (∃ (d : DriveId) (fatal : Bool) (s : State), (s.MemOk) ∧ ((s.tks.drives[d]).st = 4) ∧ (∀ e : DriveId, e ≠ d → (s.tks.drives[e]).st ≠ 4)) ∧
    (∃ (d : DriveId) (warn : Byte) (used : Nat) (temp : Nat) (s : State), ((s.tks.drives[d]).st ≠ 2) ∧ ((s.tks.drives[d]).st ≠ 3) ∧ ((s.tks.drives[d]).st ≠ 4)) ∧
    (∃ (d : DriveId) (warn : Byte) (used : Nat) (temp : Nat) (s : State), (s.MemOk) ∧ ((s.tks.drives[d]).st = 2 ∨ (s.tks.drives[d]).st = 3 ∨ (s.tks.drives[d]).st = 4)) ∧
    (∃ (segs : List (Nat × Seg)) (cues : List (Nat × Cue)) (mirrored : Nat) (found : List (Nat × Nat × Seg)) (s : State), s.tks.st ≠ 1) ∧
    (∃ (segs : List (Nat × Seg)) (cues : List (Nat × Cue)) (mirrored : Nat) (found : List (Nat × Nat × Seg)) (s : State), (s.tks.st = 1) ∧ (s.bestHdr = none)) ∧
    (∃ (segs : List (Nat × Seg)) (cues : List (Nat × Cue)) (mirrored : Nat) (found : List (Nat × Nat × Seg)) (s : State) (h : StoreHdr), (s.MemOk) ∧ (s.tks.st = 1) ∧ (s.tks.segs = []) ∧ (s.tks.running = none) ∧ (s.bestHdr = some h) ∧ (∀ d : DriveId, bitN h.members d.val = true → ((s.tks.drives[d]).st = 2 ∨ (s.tks.drives[d]).st = 3) ∧ (s.tks.drives[d]).hdr.map (fun y => y.id) = some h.id ∧ bitN h.members d.val = true) ∧ ((segs.map (fun e => e.1)).Nodup) ∧ ((found.map (fun e => e.1)).Nodup) ∧ (cues.all (fun c => decide (c.1 < 256)) = true)) ∧
    (∃ (c : CtxId) (v : Word) (s : State), (s.MemOk) ∧ (s.Serves c Off.TKS_CTL true) ∧ (fld v.toNat 31 16 = 0x7A5E) ∧ (s.rf 0 Off.TKS_CTL 0 0 = 0) ∧ (∀ p : PortId, (s.tks.ports[p]).open_ = none)) ∧
    (∃ (c : CtxId) (v : Word) (s : State), (s.MemOk) ∧ (s.Serves c Off.TKS_CTL true) ∧ (fld v.toNat 31 16 ≠ 0x7A5E ∨ s.rf 0 Off.TKS_CTL 0 0 = 1) ∧ (v.getLsbD 0 = true ∨ s.rf 0 Off.TKS_CTL 0 0 = 0)) ∧
    (∃ (c : CtxId) (d : DriveId) (v : Word) (s : State), (s.MemOk) ∧ (s.Serves c (Off.TKS_DRV_CTL + 16 * d.val) true) ∧ (v.getLsbD 0 = true) ∧ ((s.tks.drives[d]).st = 2 ∨ (s.tks.drives[d]).st = 3) ∧ (s.tks.st = 2 ∨ s.tks.st = 3) ∧ (s.tks.running = none)) ∧
    (∃ (c : CtxId) (d : DriveId) (v : Word) (s : State), (s.MemOk) ∧ (s.Serves c (Off.TKS_DRV_CTL + 16 * d.val) true) ∧ (v.getLsbD 0 = false ∨ ((s.tks.drives[d]).st ≠ 2 ∧ (s.tks.drives[d]).st ≠ 3) ∨ (s.tks.st ≠ 2 ∧ s.tks.st ≠ 3))) :=
  ⟨⟨wTakeStoreDrives0.1, wTakeStoreDrives0.2.1, wTakeStoreDrives0.2.2.1, wTakeStoreDrives0.2.2.2, by decide +kernel⟩,
   ⟨wTakeStoreDrives1.1, wTakeStoreDrives1.2.1, wTakeStoreDrives1.2.2.1, wTakeStoreDrives1.2.2.2, memOk_of _ (by decide +kernel), (by decide +kernel), (by decide +kernel), (by decide +kernel)⟩,
   ⟨wTakeStoreDrives2.1, wTakeStoreDrives2.2.1, wTakeStoreDrives2.2.2.1, wTakeStoreDrives2.2.2.2.1, wTakeStoreDrives2.2.2.2.2.1, wTakeStoreDrives2.2.2.2.2.2.1, wTakeStoreDrives2.2.2.2.2.2.2.1, wTakeStoreDrives2.2.2.2.2.2.2.2, by decide +kernel⟩,
   ⟨wTakeStoreDrives3.1, wTakeStoreDrives3.2.1, wTakeStoreDrives3.2.2.1, wTakeStoreDrives3.2.2.2.1, wTakeStoreDrives3.2.2.2.2.1, wTakeStoreDrives3.2.2.2.2.2.1, wTakeStoreDrives3.2.2.2.2.2.2.1, wTakeStoreDrives3.2.2.2.2.2.2.2, memOk_of _ (by decide +kernel), (by decide +kernel)⟩,
   ⟨wTakeStoreDrives4.1, wTakeStoreDrives4.2.1, wTakeStoreDrives4.2.2, memOk_of _ (by decide +kernel), (by decide +kernel)⟩,
   ⟨wTakeStoreDrives5.1, wTakeStoreDrives5.2.1, wTakeStoreDrives5.2.2, memOk_of _ (by decide +kernel), (by decide +kernel), (by decide +kernel), (by decide +kernel)⟩,
   ⟨wTakeStoreDrives6.1, wTakeStoreDrives6.2.1, wTakeStoreDrives6.2.2, memOk_of _ (by decide +kernel), (by decide +kernel), (by decide +kernel)⟩,
   ⟨wTakeStoreDrives7.1, wTakeStoreDrives7.2.1, wTakeStoreDrives7.2.2.1, wTakeStoreDrives7.2.2.2.1, wTakeStoreDrives7.2.2.2.2, by decide +kernel⟩,
   ⟨wTakeStoreDrives8.1, wTakeStoreDrives8.2.1, wTakeStoreDrives8.2.2.1, wTakeStoreDrives8.2.2.2.1, wTakeStoreDrives8.2.2.2.2, memOk_of _ (by decide +kernel), (by decide +kernel)⟩,
   ⟨wTakeStoreDrives9.1, wTakeStoreDrives9.2.1, wTakeStoreDrives9.2.2.1, wTakeStoreDrives9.2.2.2.1, wTakeStoreDrives9.2.2.2.2, by decide +kernel⟩,
   ⟨wTakeStoreDrives10.1, wTakeStoreDrives10.2.1, wTakeStoreDrives10.2.2.1, wTakeStoreDrives10.2.2.2.1, wTakeStoreDrives10.2.2.2.2, by decide +kernel⟩,
   ⟨wTakeStoreDrives11.1, wTakeStoreDrives11.2.1, wTakeStoreDrives11.2.2.1, wTakeStoreDrives11.2.2.2.1, wTakeStoreDrives11.2.2.2.2.1, wTakeStoreDrives11.2.2.2.2.2, memOk_of _ (by decide +kernel), (by decide +kernel), (by decide +kernel), (by decide +kernel), (by decide +kernel), (by decide +kernel), (by decide +kernel), (by decide +kernel), (by decide +kernel)⟩,
   ⟨wTakeStoreDrives12.1, wTakeStoreDrives12.2.1, wTakeStoreDrives12.2.2, memOk_of _ (by decide +kernel), (by unfold State.Serves; decide +kernel), (by decide +kernel), (by decide +kernel), (by decide +kernel)⟩,
   ⟨wTakeStoreDrives13.1, wTakeStoreDrives13.2.1, wTakeStoreDrives13.2.2, memOk_of _ (by decide +kernel), (by unfold State.Serves; decide +kernel), (by decide +kernel), (by decide +kernel)⟩,
   ⟨wTakeStoreDrives14.1, wTakeStoreDrives14.2.1, wTakeStoreDrives14.2.2.1, wTakeStoreDrives14.2.2.2, memOk_of _ (by decide +kernel), (by unfold State.Serves; decide +kernel), (by decide +kernel), (by decide +kernel), (by decide +kernel), (by decide +kernel)⟩,
   ⟨wTakeStoreDrives15.1, wTakeStoreDrives15.2.1, wTakeStoreDrives15.2.2.1, wTakeStoreDrives15.2.2.2, memOk_of _ (by decide +kernel), (by unfold State.Serves; decide +kernel), (by decide +kernel)⟩⟩
def wCuesAndRewinds0 : CtxId × Submission × State × PortId :=
  let c : CtxId := 0
  let y : Submission := dSubmission
  let s : State := State.reset
  let p : PortId := 0
  let k : Nat := 0
  let ln : Nat := 0
  let s := served (own (tame s)) c
  let y := sub 0 (0) (0) [(if k == 0 then 0 else s.free % 3), p.val, ln + 10, s.now % 2] y
  let q0 : Nat := 0
  let q1 : Nat := 0
  let s := { s with tks := { s.tks with running := none, st := 2, segs := [(5, { freeSeg with st := 2, port := p.val, seq := 1, entries := [.note 1 1 2 3, .record { dRec with line := 10 } 0, .record { dRec with line := 11 } 0], used := 500 }), (9, { freeSeg with st := 2, port := p.val, seq := 2, entries := [.record { dRec with line := 15 } 0], used := 500 })], drives := s.tks.drives.map (fun (x : DrvSt) => { x with st := 4, nd := 100, cmds := [] }), ports := s.tks.ports.map (fun (x : TksPort) => { x with open_ := none, suspended := false, rewind := none }) } }
  let s := { s with tks := { s.tks with cues := (s.tks.cues.take 3).zipIdx.map (fun (e : (Nat × Cue) × Nat) => (2 * e.2 + q0, { e.1.2 with port := p.val, line := some (8 + 3 * e.2), before := e.1.2.before % 3, after := e.1.2.after % 3, anchor := some 5, st := (if e.1.2.st == 3 then 3 else 2) })) } }
  let s := agree s
  (c, y, s, p)
def wCuesAndRewinds1 : CtxId × Submission × State × Cue :=
  let c : CtxId := 0
  let y : Submission := dSubmission
  let s : State := State.reset
  let q : Cue := dCue
  let s := { s with tks := { s.tks with cues := [(0, dCue), (1, dCue), (2, dCue)] } }
  let p : PortId := 3
  let s := served (own (tame s)) c
  let y := sub 6 (0) (0) [0, 1, 1] y
  let q0 : Nat := 0
  let q1 : Nat := 0
  let s := { s with tks := { s.tks with running := none, st := 2, segs := [(5, { freeSeg with st := 2, port := p.val, seq := 1, entries := [.note 1 1 2 3, .record { dRec with line := 10 } 0, .record { dRec with line := 11 } 0], used := 500 }), (9, { freeSeg with st := 2, port := p.val, seq := 2, entries := [.record { dRec with line := 15 } 0], used := 500 })], drives := s.tks.drives.map (fun (x : DrvSt) => { x with st := 4, nd := 100, cmds := [] }), ports := s.tks.ports.map (fun (x : TksPort) => { x with open_ := none, suspended := false, rewind := none }) } }
  let s := { s with tks := { s.tks with cues := (s.tks.cues.take 3).zipIdx.map (fun (e : (Nat × Cue) × Nat) => (2 * e.2 + q0, { e.1.2 with port := p.val, line := some (8 + 3 * e.2), before := e.1.2.before % 3, after := e.1.2.after % 3, anchor := some 5, st := (if e.1.2.st == 3 then 3 else 2) })) } }
  let y := { y with target := BitVec.ofNat 32 (6 * 256 + q0) }
  match s.cue y.unit with
  | some q =>
    let s := agree s
    (c, y, s, q)
  | _ => (0, dSubmission, State.reset, dCue)
def wCuesAndRewinds2 : CtxId × Submission × State × Cue :=
  let c : CtxId := 0
  let y : Submission := dSubmission
  let s : State := State.reset
  let q : Cue := dCue
  let s := { s with tks := { s.tks with cues := [(0, dCue), (1, dCue), (2, dCue)] } }
  let p : PortId := 3
  let s := served (own (tame s)) c
  let y := sub 6 (0) (0) [1, 3, 4] y
  let q0 : Nat := 0
  let q1 : Nat := 0
  let s := { s with tks := { s.tks with running := none, st := 2, segs := [(5, { freeSeg with st := 2, port := p.val, seq := 1, entries := [.note 1 1 2 3, .record { dRec with line := 10 } 0, .record { dRec with line := 11 } 0], used := 500 }), (9, { freeSeg with st := 2, port := p.val, seq := 2, entries := [.record { dRec with line := 15 } 0], used := 500 })], drives := s.tks.drives.map (fun (x : DrvSt) => { x with st := 4, nd := 100, cmds := [] }), ports := s.tks.ports.map (fun (x : TksPort) => { x with open_ := none, suspended := false, rewind := none }) } }
  let s := { s with tks := { s.tks with cues := (s.tks.cues.take 3).zipIdx.map (fun (e : (Nat × Cue) × Nat) => (2 * e.2 + q0, { e.1.2 with port := p.val, line := some (8 + 3 * e.2), before := e.1.2.before % 3, after := e.1.2.after % 3, anchor := some 5, st := (if e.1.2.st == 3 then 3 else 2) })) } }
  let y := { y with target := BitVec.ofNat 32 (6 * 256 + q0) }
  match s.cue y.unit with
  | some q =>
    let s := agree s
    (c, y, s, q)
  | _ => (0, dSubmission, State.reset, dCue)
def wCuesAndRewinds3 : CtxId × Submission × State × PortId :=
  let c : CtxId := 1
  let y : Submission := dSubmission
  let s : State := State.reset
  let p : PortId := 15
  let k : Nat := 2
  let lo : Nat := 8
  let s := served (own (tame s)) c
  let y := sub 1 (p.val) (0) [k, lo, 0, lo + 5, 0, 1 + 1703] y
  let q0 : Nat := 0
  let q1 : Nat := 2
  let s := { s with tks := { s.tks with running := none, st := 2, segs := [(5, { freeSeg with st := 2, port := p.val, seq := 1, entries := [.note 1 1 2 3, .record { dRec with line := 10 } 0, .record { dRec with line := 11 } 0], used := 500 }), (9, { freeSeg with st := 2, port := p.val, seq := 2, entries := [.record { dRec with line := 15 } 0], used := 500 })], drives := s.tks.drives.map (fun (x : DrvSt) => { x with st := 4, nd := 100, cmds := [] }), ports := s.tks.ports.map (fun (x : TksPort) => { x with open_ := none, suspended := false, rewind := none }) } }
  let s := { s with tks := { s.tks with cues := (s.tks.cues.take 3).zipIdx.map (fun (e : (Nat × Cue) × Nat) => (2 * e.2 + q0, { e.1.2 with port := p.val, line := some (8 + 3 * e.2), before := e.1.2.before % 3, after := e.1.2.after % 3, anchor := some 5, st := (if e.1.2.st == 3 then 3 else 2) })) } }
  let y := if k == 0 then sub 1 p.val 0 [0, q0, 0, 0, 0, 3] y else if k == 2 then sub 1 p.val 0 [2, 0, 0x80000000, 0xFFFFFFFF, 0x7FFFFFFF, 7] y else y
  let s := s.updChan (chanOf p 3) (fun x => { x with st := 1 })
  let s := { s with units := s.units.map (fun (u : UnitSt) => { u with st := .halted }), link := { s.link with width := 16, rate := 5 } }
  let s := agree s
  (c, y, s, p)
def wCuesAndRewinds4 : CtxId × Submission × State × PortId × Rewind :=
  let c : CtxId := 0
  let y : Submission := dSubmission
  let s : State := State.reset
  let p : PortId := 0
  let r : Rewind := dRewind
  let s := served (own (tame s)) c
  let y := sub 1 (p.val) (0) [] y
  let q0 : Nat := 0
  let q1 : Nat := 0
  let s := { s with tks := { s.tks with running := none, st := 2, segs := [(5, { freeSeg with st := 2, port := p.val, seq := 1, entries := [.note 1 1 2 3, .record { dRec with line := 10 } 0, .record { dRec with line := 11 } 0], used := 500 }), (9, { freeSeg with st := 2, port := p.val, seq := 2, entries := [.record { dRec with line := 15 } 0], used := 500 })], drives := s.tks.drives.map (fun (x : DrvSt) => { x with st := 4, nd := 100, cmds := [] }), ports := s.tks.ports.map (fun (x : TksPort) => { x with open_ := none, suspended := false, rewind := none }) } }
  let s := { s with tks := { s.tks with cues := (s.tks.cues.take 3).zipIdx.map (fun (e : (Nat × Cue) × Nat) => (2 * e.2 + q0, { e.1.2 with port := p.val, line := some (8 + 3 * e.2), before := e.1.2.before % 3, after := e.1.2.after % 3, anchor := some 5, st := (if e.1.2.st == 3 then 3 else 2) })) } }
  let s := s.updChan (chanOf p 3) (fun x => { x with st := 1, fetch := x.tail })
  let s := { s with tks := { s.tks with ports := s.tks.ports.set p { s.tks.ports[p] with rewind := some r } } }
  let s := agree s
  (c, y, s, p, r)
def wCuesAndRewinds5 : CtxId × Submission × State × PortId × Rewind :=
  let c : CtxId := 0
  let y : Submission := dSubmission
  let s : State := State.reset
  let p : PortId := 0
  let r : Rewind := dRewind
  let s := served (own (tame s)) c
  let y := sub 1 (p.val) (0) [] y
  let q0 : Nat := 0
  let q1 : Nat := 0
  let s := { s with tks := { s.tks with running := none, st := 2, segs := [(5, { freeSeg with st := 2, port := p.val, seq := 1, entries := [.note 1 1 2 3, .record { dRec with line := 10 } 0, .record { dRec with line := 11 } 0], used := 500 }), (9, { freeSeg with st := 2, port := p.val, seq := 2, entries := [.record { dRec with line := 15 } 0], used := 500 })], drives := s.tks.drives.map (fun (x : DrvSt) => { x with st := 4, nd := 100, cmds := [] }), ports := s.tks.ports.map (fun (x : TksPort) => { x with open_ := none, suspended := false, rewind := none }) } }
  let s := { s with tks := { s.tks with cues := (s.tks.cues.take 3).zipIdx.map (fun (e : (Nat × Cue) × Nat) => (2 * e.2 + q0, { e.1.2 with port := p.val, line := some (8 + 3 * e.2), before := e.1.2.before % 3, after := e.1.2.after % 3, anchor := some 5, st := (if e.1.2.st == 3 then 3 else 2) })) } }
  let s := s.updChan (chanOf p 3) (fun x => { x with st := 3 })
  let s := { s with tks := { s.tks with ports := s.tks.ports.set p { s.tks.ports[p] with rewind := some r } } }
  let s := agree s
  (c, y, s, p, r)
def wCuesAndRewinds6 : DriveId × Nat × Bool × Bool × List Nat × State :=
  let d : DriveId := 0
  let k : Nat := 0
  let ok : Bool := false
  let hdrOk : Bool := false
  let bad : List Nat := []
  let s : State := State.reset
  let k := k + 10
  (d, k, ok, hdrOk, bad, s)
def wCuesAndRewinds7 : DriveId × Nat × Bool × List Nat × State × DrvCmd :=
  let d : DriveId := 0
  let k : Nat := 0
  let hdrOk : Bool := false
  let bad : List Nat := []
  let s : State := State.reset
  let c : DrvCmd := dDrvCmd
  let p : PortId := 3
  let r : Rewind := dRewind
  let q2 : Nat := 0
  let q0 : Nat := 0
  let q1 : Nat := 0
  let s := { s with tks := { s.tks with running := none, st := 2, segs := [(5, { freeSeg with st := 2, port := p.val, seq := 1, entries := [.note 1 1 2 3, .record { dRec with line := 10 } 0, .record { dRec with line := 11 } 0], used := 500 }), (9, { freeSeg with st := 2, port := p.val, seq := 2, entries := [.record { dRec with line := 15 } 0], used := 500 })], drives := s.tks.drives.map (fun (x : DrvSt) => { x with st := 4, nd := 100, cmds := [] }), ports := s.tks.ports.map (fun (x : TksPort) => { x with open_ := none, suspended := false, rewind := none }) } }
  let s := { s with tks := { s.tks with cues := (s.tks.cues.take 3).zipIdx.map (fun (e : (Nat × Cue) × Nat) => (2 * e.2 + q0, { e.1.2 with port := p.val, line := some (8 + 3 * e.2), before := e.1.2.before % 3, after := e.1.2.after % 3, anchor := some 5, st := (if e.1.2.st == 3 then 3 else 2) })) } }
  let r : Rewind := { r with byPos := false, lo := 0, hi := 100, first := 0, last := 100, items := [.seg 5 (if q1 == 0 then 7 else 1) 10 11, .seg 9 2 15 15] }
  let d : DriveId := 5
  let k := 0
  let cm : DrvCmd := { kind := 1, slot := 5, chunk := 3, tries := q2 % 2, aborted := false, seq := 1, writes := [] }
  let s := { s with tks := { s.tks with ports := s.tks.ports.set p { s.tks.ports[p] with rewind := some r } } }
  let s := s.updDrive d (fun x => { x with cmds := [cm] })
  let c := { cm with tries := 0 }
  let s := s.setCmd d k c
  (d, k, hdrOk, bad, s, c)
def wCuesAndRewinds8 : DriveId × Nat × List Nat × State × DrvCmd × PortId × Rewind × Nat × Nat × Nat × List RItem :=
  let d : DriveId := 0
  let k : Nat := 0
  let bad : List Nat := []
  let s : State := State.reset
  let c : DrvCmd := dDrvCmd
  let p : PortId := 0
  let r : Rewind := dRewind
  let q : Nat := 0
  let f : Nat := 0
  let l : Nat := 0
  let rest : List RItem := []
  let p : PortId := 3
  let r : Rewind := dRewind
  let q2 : Nat := 0
  let q0 : Nat := 0
  let q1 : Nat := 0
  let s := { s with tks := { s.tks with running := none, st := 2, segs := [(5, { freeSeg with st := 2, port := p.val, seq := 1, entries := [.note 1 1 2 3, .record { dRec with line := 10 } 0, .record { dRec with line := 11 } 0], used := 500 }), (9, { freeSeg with st := 2, port := p.val, seq := 2, entries := [.record { dRec with line := 15 } 0], used := 500 })], drives := s.tks.drives.map (fun (x : DrvSt) => { x with st := 4, nd := 100, cmds := [] }), ports := s.tks.ports.map (fun (x : TksPort) => { x with open_ := none, suspended := false, rewind := none }) } }
  let s := { s with tks := { s.tks with cues := (s.tks.cues.take 3).zipIdx.map (fun (e : (Nat × Cue) × Nat) => (2 * e.2 + q0, { e.1.2 with port := p.val, line := some (8 + 3 * e.2), before := e.1.2.before % 3, after := e.1.2.after % 3, anchor := some 5, st := (if e.1.2.st == 3 then 3 else 2) })) } }
  let r : Rewind := { r with byPos := false, lo := 0, hi := 100, first := 0, last := 100, items := [.seg 5 (if q1 == 0 then 7 else 1) 10 11, .seg 9 2 15 15] }
  let d : DriveId := 5
  let k := 0
  let cm : DrvCmd := { kind := 1, slot := 5, chunk := 3, tries := q2 % 2, aborted := false, seq := 1, writes := [] }
  let s := { s with tks := { s.tks with ports := s.tks.ports.set p { s.tks.ports[p] with rewind := some r } } }
  let s := s.updDrive d (fun x => { x with cmds := [cm] })
  let s := { s with regs := [] }
  let c := cm
  let q := 1
  let f := 10
  let l := 11
  let rest : List RItem := [.seg 9 2 15 15]
  let r : Rewind := { r with items := .seg 5 1 10 11 :: rest }
  let s := { s with tks := { s.tks with ports := s.tks.ports.set p { s.tks.ports[p] with rewind := some r } } }
  let bad := if q2 == 0 then [] else [1]
  (d, k, bad, s, c, p, r, q, f, l, rest)
def wCuesAndRewinds9 : DriveId × Nat × Bool × Bool × List Nat × State × DrvCmd :=
  let d : DriveId := 0
  let k : Nat := 0
  let ok : Bool := false
  let hdrOk : Bool := false
  let bad : List Nat := []
  let s : State := State.reset
  let c : DrvCmd := dDrvCmd
  let p : PortId := 3
  let r : Rewind := dRewind
  let q2 : Nat := 0
  let q0 : Nat := 0
  let q1 : Nat := 0
  let s := { s with tks := { s.tks with running := none, st := 2, segs := [(5, { freeSeg with st := 2, port := p.val, seq := 1, entries := [.note 1 1 2 3, .record { dRec with line := 10 } 0, .record { dRec with line := 11 } 0], used := 500 }), (9, { freeSeg with st := 2, port := p.val, seq := 2, entries := [.record { dRec with line := 15 } 0], used := 500 })], drives := s.tks.drives.map (fun (x : DrvSt) => { x with st := 4, nd := 100, cmds := [] }), ports := s.tks.ports.map (fun (x : TksPort) => { x with open_ := none, suspended := false, rewind := none }) } }
  let s := { s with tks := { s.tks with cues := (s.tks.cues.take 3).zipIdx.map (fun (e : (Nat × Cue) × Nat) => (2 * e.2 + q0, { e.1.2 with port := p.val, line := some (8 + 3 * e.2), before := e.1.2.before % 3, after := e.1.2.after % 3, anchor := some 5, st := (if e.1.2.st == 3 then 3 else 2) })) } }
  let r : Rewind := { r with byPos := false, lo := 0, hi := 100, first := 0, last := 100, items := [.seg 5 (if q1 == 0 then 7 else 1) 10 11, .seg 9 2 15 15] }
  let d : DriveId := 5
  let k := 0
  let cm : DrvCmd := { kind := 1, slot := 5, chunk := 3, tries := q2 % 2, aborted := false, seq := 1, writes := [] }
  let s := { s with tks := { s.tks with ports := s.tks.ports.set p { s.tks.ports[p] with rewind := some r } } }
  let s := s.updDrive d (fun x => { x with cmds := [cm] })
  let s := { s with regs := [] }
  let c := { cm with tries := 1 }
  let ok := q0 == 0
  let hdrOk := false
  let s := s.setCmd d k c
  let s := { s with tks := { s.tks with ports := s.tks.ports.set p { s.tks.ports[p] with rewind := none } } }
  (d, k, ok, hdrOk, bad, s, c)
def wCuesAndRewinds10 : PortId × State :=
  let p : PortId := 0
  let s : State := State.reset
  let s := { s with tks := { s.tks with ports := s.tks.ports.set p { s.tks.ports[p] with rewind := none } } }
  (p, s)
def wCuesAndRewinds11 : PortId × State × Rewind :=
  let p : PortId := 0
  let s : State := State.reset
  let r : Rewind := dRewind
  let q0 : Nat := 0
  let s := { s with regs := [], link := { s.link with d3hot := false, perst := false } }
  let s := s.updChan (chanOf p 3) (fun x => { x with st := (if q0 == 0 then 3 else 1), held := [], barrier := false, tail := 3, fetch := 5, stalled := false, descs := [] })
  let r := { r with begun := true, ending := none }
  let r := { r with begun := false }
  let s := { s with tks := { s.tks with ports := s.tks.ports.set p { s.tks.ports[p] with rewind := some r } } }
  (p, s, r)
def wCuesAndRewinds12 : PortId × State × Rewind :=
  let p : PortId := 0
  let s : State := State.reset
  let r : Rewind := dRewind
  let q0 : Nat := 0
  let s := { s with regs := [], link := { s.link with d3hot := false, perst := false } }
  let s := s.updChan (chanOf p 3) (fun x => { x with st := (if q0 == 0 then 3 else 1), held := [], barrier := false, tail := 3, fetch := 5, stalled := false, descs := [] })
  let r := { r with begun := true, ending := none }
  let r := { r with items := [] }
  let s := { s with tks := { s.tks with ports := s.tks.ports.set p { s.tks.ports[p] with rewind := some r } } }
  (p, s, r)
def wCuesAndRewinds13 : PortId × State × Rewind × Rec × Nat × List RItem :=
  let p : PortId := 0
  let s : State := State.reset
  let r : Rewind := dRewind
  let q : Rec := dRec
  let lost : Nat := 0
  let rest : List RItem := []
  let q0 : Nat := 0
  let s := { s with regs := [], link := { s.link with d3hot := false, perst := false } }
  let s := s.updChan (chanOf p 3) (fun x => { x with st := (if q0 == 0 then 3 else 1), held := [], barrier := false, tail := 3, fetch := 5, stalled := false, descs := [] })
  let r := { r with begun := true, ending := none }
  let r := { r with items := .recd q lost :: rest }
  let s := { s with tks := { s.tks with ports := s.tks.ports.set p { s.tks.ports[p] with rewind := some r } } }
  (p, s, r, q, lost, rest)
def wCuesAndRewinds14 : PortId × State × Rewind × Nat :=
  let p : PortId := 0
  let s : State := State.reset
  let r : Rewind := dRewind
  let k : Nat := 0
  let q0 : Nat := 0
  let q1 : Nat := 0
  let s := { s with regs := [], link := { s.link with d3hot := q0 == 0, perst := false } }
  let s := s.updChan (chanOf p 3) (fun x => { x with st := 1, held := [], barrier := false, fetch := x.tail, descs := (if q1 == 0 then [] else x.descs.map (fun (d : Desc) => { d with len := 200000 })), pack := x.pack && q1 == 3 })
  let r : Rewind := { r with begun := true, ending := none, items := r.items }
  let s := { s with tks := { s.tks with ports := s.tks.ports.set p { s.tks.ports[p] with rewind := some r } } }
  let k := q1
  let r : Rewind := { r with ending := some k }
  let s := { s with tks := { s.tks with ports := s.tks.ports.set p { s.tks.ports[p] with rewind := some r } } }
  (p, s, r, k)
def wCuesAndRewinds15 : PortId × State × Rewind :=
  let p : PortId := 0
  let s : State := State.reset
  let r : Rewind := dRewind
  let q0 : Nat := 0
  let q1 : Nat := 0
  let s := { s with regs := [], link := { s.link with d3hot := q0 == 0, perst := false } }
  let s := s.updChan (chanOf p 3) (fun x => { x with st := 1, held := [], barrier := false, fetch := x.tail, descs := (if q1 == 0 then [] else x.descs.map (fun (d : Desc) => { d with len := 200000 })), pack := x.pack && q1 == 3 })
  let r : Rewind := { r with begun := true, ending := none, items := r.items }
  let s := { s with tks := { s.tks with ports := s.tks.ports.set p { s.tks.ports[p] with rewind := some r } } }
  let r : Rewind := { r with begun := false }
  let s := { s with tks := { s.tks with ports := s.tks.ports.set p { s.tks.ports[p] with rewind := some r } } }
  (p, s, r)
def wCuesAndRewinds16 : PortId × State × Rewind :=
  let p : PortId := 0
  let s : State := State.reset
  let r : Rewind := dRewind
  let q0 : Nat := 0
  let q1 : Nat := 0
  let s := { s with regs := [], link := { s.link with d3hot := q0 == 0, perst := false } }
  let s := s.updChan (chanOf p 3) (fun x => { x with st := 1, held := [], barrier := false, fetch := x.tail, descs := (if q1 == 0 then [] else x.descs.map (fun (d : Desc) => { d with len := 200000 })), pack := x.pack && q1 == 3 })
  let r : Rewind := { r with begun := true, ending := none, items := [] }
  let s := { s with tks := { s.tks with ports := s.tks.ports.set p { s.tks.ports[p] with rewind := some r } } }
  (p, s, r)
def wCuesAndRewinds17 : PortId × State × Rewind × Nat × Nat × List RItem :=
  let p : PortId := 0
  let s : State := State.reset
  let r : Rewind := dRewind
  let f : Nat := 0
  let l : Nat := 0
  let rest : List RItem := []
  let q0 : Nat := 0
  let q1 : Nat := 0
  let s := { s with regs := [], link := { s.link with d3hot := q0 == 0, perst := false } }
  let s := s.updChan (chanOf p 3) (fun x => { x with st := 1, held := [], barrier := false, fetch := x.tail, descs := (if q1 == 0 then [] else x.descs.map (fun (d : Desc) => { d with len := 200000 })), pack := x.pack && q1 == 3 })
  let r : Rewind := { r with begun := true, ending := none, items := .span f l :: rest }
  let s := { s with tks := { s.tks with ports := s.tks.ports.set p { s.tks.ports[p] with rewind := some r } } }
  (p, s, r, f, l, rest)
def wCuesAndRewinds18 : PortId × State × Rewind × Rec × Nat × List RItem :=
  let p : PortId := 0
  let s : State := State.reset
  let r : Rewind := dRewind
  let q : Rec := dRec
  let lost : Nat := 0
  let rest : List RItem := []
  let q0 : Nat := 0
  let q1 : Nat := 0
  let s := { s with regs := [], link := { s.link with d3hot := q0 == 0, perst := false } }
  let s := s.updChan (chanOf p 3) (fun x => { x with st := 1, held := [], barrier := false, fetch := x.tail, descs := (if q1 == 0 then [] else x.descs.map (fun (d : Desc) => { d with len := 200000 })), pack := x.pack && q1 == 3 })
  let r : Rewind := { r with begun := true, ending := none, items := .recd q lost :: rest }
  let s := { s with tks := { s.tks with ports := s.tks.ports.set p { s.tks.ports[p] with rewind := some r } } }
  (p, s, r, q, lost, rest)
def wCuesAndRewinds19 : PortId × State × Rewind × Nat × Nat × Nat × Nat × List RItem :=
  let p : PortId := 0
  let s : State := State.reset
  let r : Rewind := dRewind
  let g : Nat := 0
  let q : Nat := 0
  let f : Nat := 0
  let l : Nat := 0
  let rest : List RItem := []
  let q0 : Nat := 0
  let q1 : Nat := 0
  let s := { s with regs := [], link := { s.link with d3hot := q0 == 0, perst := false } }
  let s := s.updChan (chanOf p 3) (fun x => { x with st := 1, held := [], barrier := false, fetch := x.tail, descs := (if q1 == 0 then [] else x.descs.map (fun (d : Desc) => { d with len := 200000 })), pack := x.pack && q1 == 3 })
  let r : Rewind := { r with begun := true, ending := none, items := .seg g q f l :: rest }
  let s := { s with tks := { s.tks with ports := s.tks.ports.set p { s.tks.ports[p] with rewind := some r } } }
  (p, s, r, g, q, f, l, rest)
/-- The conditions of each clause of `Obligations.CuesAndRewinds` are met. -/
theorem test_meets_CuesAndRewinds :
    (∃ (c : CtxId) (y : Submission) (s : State) (p : PortId), (s.Accepts c { op := 0x28, since := 0x20, kinds := [0], slotted := false, args := [0, 1, 2, 3] } y) ∧ ((s.ctxs[c]).blk 7 true = true) ∧ ((s.ctxs[c]).port p.val true = true) ∧ (y.arg 1 = p.val) ∧ (y.arg 0 ≤ 2) ∧ (y.arg 0 ≠ 0 → s.srcCode p = y.arg 0 ∧ masterReached (s.master (y.arg 0 - 1)) (sgn 48 (y.arg64 2)) = false) ∧ (∀ l ∈ s.cueLine p (y.arg 0) (y.arg64 2), ∀ o ∈ s.oldest p, o ≤ l) ∧ (s.tks.cues.length < 256)) ∧
    (∃ (c : CtxId) (y : Submission) (s : State) (q : Cue), (s.Accepts c { op := 0x29, since := 0x21, kinds := [6], slotted := false, args := [0, 1, 2] } y) ∧ ((s.ctxs[c]).blk 7 true = true) ∧ (s.cue y.unit = some q) ∧ ((s.ctxs[c]).port q.port true = true) ∧ (q.st ≠ 3) ∧ (y.arg 0 = 0) ∧ (s.tks.st = 2) ∧ (s.tks.running = none)) ∧
    (∃ (c : CtxId) (y : Submission) (s : State) (q : Cue), (s.Accepts c { op := 0x29, since := 0x21, kinds := [6], slotted := false, args := [0, 1, 2] } y) ∧ ((s.ctxs[c]).blk 7 true = true) ∧ (s.cue y.unit = some q) ∧ ((s.ctxs[c]).port q.port true = true) ∧ (q.st ≠ 3) ∧ (y.arg 0 = 1) ∧ ((s.tks.cues.filter (fun e => e.2.pinned && e.1 != y.unit)).length < 16) ∧ (2 ≤ s.leftWith y.unit { q with pinned := true, before := y.arg 1, after := y.arg 2 })) ∧
    (∃ (c : CtxId) (y : Submission) (s : State) (p : PortId), (s.Accepts c { op := 0x2B, since := 0x20, kinds := [1], slotted := false, args := [0, 1, 2, 3, 4, 5] } y) ∧ (y.unit = p.val) ∧ (tksRight (s.ctxs[c]) p.val = true) ∧ (y.arg 0 ≤ 2) ∧ (y.arg 0 = 2 → 0x21 ≤ (s.ctxs[c]).zhp) ∧ ((s.chan (chanOf p 3)).st = 1) ∧ ((s.tks.ports[p]).rewind = none) ∧ (y.arg 0 = 0 → (s.cue (y.arg 1)).any (fun q => q.st == 2 && q.port == p.val) = true) ∧ (y.arg 0 = 1 → y.arg64 1 ≤ y.arg64 3) ∧ (y.arg 0 = 2 → sgn 64 (y.arg64 1) ≤ sgn 64 (y.arg64 3)) ∧ (1 ≤ y.arg 5 ∧ y.arg 5 ≤ 2000) ∧ (s.selected p (s.rewindRange y).1 (s.rewindRange y).2.1 (s.rewindRange y).2.2 ≠ []) ∧ (s.hostFits s.plan (y.arg 5) = true)) ∧
    (∃ (c : CtxId) (y : Submission) (s : State) (p : PortId) (r : Rewind), (s.Accepts c { op := 0x2C, since := 0x20, kinds := [1], slotted := false, args := [] } y) ∧ (y.unit = p.val) ∧ (tksRight (s.ctxs[c]) p.val = true) ∧ ((s.tks.ports[p]).rewind = some r) ∧ (s.stream3Waits p markerSize = false) ∧ (s.MemOk)) ∧
    (∃ (c : CtxId) (y : Submission) (s : State) (p : PortId) (r : Rewind), (s.Accepts c { op := 0x2C, since := 0x20, kinds := [1], slotted := false, args := [] } y) ∧ (y.unit = p.val) ∧ (tksRight (s.ctxs[c]) p.val = true) ∧ ((s.tks.ports[p]).rewind = some r) ∧ (s.stream3Waits p markerSize = true)) ∧
    (∃ (d : DriveId) (k : Nat) (ok : Bool) (hdrOk : Bool) (bad : List Nat) (s : State), (s.tks.drives[d]).cmds[k]?.all (fun c => decide (c.kind ≠ 1)) = true) ∧
    (∃ (d : DriveId) (k : Nat) (hdrOk : Bool) (bad : List Nat) (s : State) (c : DrvCmd), ((s.tks.drives[d]).cmds[k]? = some c) ∧ (c.kind = 1) ∧ (c.tries = 0)) ∧
    (∃ (d : DriveId) (k : Nat) (bad : List Nat) (s : State) (c : DrvCmd) (p : PortId) (r : Rewind) (q : Nat) (f : Nat) (l : Nat) (rest : List RItem), (s.MemOk) ∧ ((s.tks.drives[d]).cmds[k]? = some c) ∧ (c.kind = 1) ∧ (c.chunk = p.val) ∧ ((s.tks.ports[p]).rewind = some r) ∧ (r.items = .seg c.slot q f l :: rest) ∧ (rest.all (fun i => match i with | .seg g _ _ _ => g != c.slot | _ => true) = true) ∧ ((s.seg c.slot).seq = q)) ∧
    (∃ (d : DriveId) (k : Nat) (ok : Bool) (hdrOk : Bool) (bad : List Nat) (s : State) (c : DrvCmd), (mwf (fun _ => freeSeg) s.tks.segs = true) ∧ ((s.tks.drives[d]).cmds[k]? = some c) ∧ (c.kind = 1) ∧ (ok = false ∨ hdrOk = false) ∧ (ok = true ∨ c.tries ≠ 0) ∧ ((s.seg c.slot).seq = c.seq) ∧ ((s.tks.ports[argPort c.chunk]).rewind = none) ∧ ((s.tks.cues.map (fun q => q.1)).Nodup) ∧ (s.MemOk)) ∧
    (∃ (p : PortId) (s : State), (s.tks.ports[p]).rewind = none) ∧
    (∃ (p : PortId) (s : State) (r : Rewind), ((s.tks.ports[p]).rewind = some r) ∧ (r.ending = none) ∧ (r.begun = false ∨ (match r.items with | .span _ _ :: _ => true | _ => false) = true) ∧ (s.stream3Waits p markerSize = true)) ∧
    (∃ (p : PortId) (s : State) (r : Rewind), ((s.tks.ports[p]).rewind = some r) ∧ (r.ending = none) ∧ (r.begun = true) ∧ (r.items = []) ∧ (s.stream3Waits p markerSize = true)) ∧
    (∃ (p : PortId) (s : State) (r : Rewind) (q : Rec) (lost : Nat) (rest : List RItem), ((s.tks.ports[p]).rewind = some r) ∧ (r.ending = none) ∧ (r.begun = true) ∧ (r.items = .recd q lost :: rest) ∧ (s.stream3Waits p q.size = true)) ∧
    (∃ (p : PortId) (s : State) (r : Rewind) (k : Nat), (s.MemOk) ∧ ((s.tks.ports[p]).rewind = some r) ∧ (r.ending = some k) ∧ (s.stream3Waits p markerSize = false)) ∧
    (∃ (p : PortId) (s : State) (r : Rewind), (s.MemOk) ∧ ((s.tks.ports[p]).rewind = some r) ∧ (r.ending = none) ∧ (s.stream3Waits p markerSize = false) ∧ (r.begun = false)) ∧
    (∃ (p : PortId) (s : State) (r : Rewind), (s.MemOk) ∧ ((s.tks.ports[p]).rewind = some r) ∧ (r.ending = none) ∧ (s.stream3Waits p markerSize = false) ∧ (r.begun = true) ∧ (r.items = [])) ∧
    (∃ (p : PortId) (s : State) (r : Rewind) (f : Nat) (l : Nat) (rest : List RItem), (s.MemOk) ∧ ((s.tks.ports[p]).rewind = some r) ∧ (r.ending = none) ∧ (s.stream3Waits p markerSize = false) ∧ (r.begun = true) ∧ (r.items = .span f l :: rest)) ∧
    (∃ (p : PortId) (s : State) (r : Rewind) (q : Rec) (lost : Nat) (rest : List RItem), (s.MemOk) ∧ ((s.tks.ports[p]).rewind = some r) ∧ (r.ending = none) ∧ (s.stream3Waits p q.size = false) ∧ (r.begun = true) ∧ (r.items = .recd q lost :: rest)) ∧
    (∃ (p : PortId) (s : State) (r : Rewind) (g : Nat) (q : Nat) (f : Nat) (l : Nat) (rest : List RItem), (s.MemOk) ∧ ((s.tks.ports[p]).rewind = some r) ∧ (r.ending = none) ∧ (s.stream3Waits p markerSize = false) ∧ (r.begun = true) ∧ (r.items = .seg g q f l :: rest) ∧ ((s.seg g).st ≠ 2 ∨ (s.seg g).seq ≠ q)) :=
  ⟨⟨wCuesAndRewinds0.1, wCuesAndRewinds0.2.1, wCuesAndRewinds0.2.2.1, wCuesAndRewinds0.2.2.2, by unfold State.Accepts State.Agrees; decide +kernel⟩,
   ⟨wCuesAndRewinds1.1, wCuesAndRewinds1.2.1, wCuesAndRewinds1.2.2.1, wCuesAndRewinds1.2.2.2, by unfold State.Accepts State.Agrees; decide +kernel⟩,
   ⟨wCuesAndRewinds2.1, wCuesAndRewinds2.2.1, wCuesAndRewinds2.2.2.1, wCuesAndRewinds2.2.2.2, by unfold State.Accepts State.Agrees; decide +kernel⟩,
   ⟨wCuesAndRewinds3.1, wCuesAndRewinds3.2.1, wCuesAndRewinds3.2.2.1, wCuesAndRewinds3.2.2.2, by unfold State.Accepts State.Agrees; decide +kernel⟩,
   ⟨wCuesAndRewinds4.1, wCuesAndRewinds4.2.1, wCuesAndRewinds4.2.2.1, wCuesAndRewinds4.2.2.2.1, wCuesAndRewinds4.2.2.2.2, (by unfold State.Accepts State.Agrees; decide +kernel), (by decide +kernel), (by decide +kernel), (by decide +kernel), (by decide +kernel), memOk_of _ (by decide +kernel)⟩,
   ⟨wCuesAndRewinds5.1, wCuesAndRewinds5.2.1, wCuesAndRewinds5.2.2.1, wCuesAndRewinds5.2.2.2.1, wCuesAndRewinds5.2.2.2.2, by unfold State.Accepts State.Agrees; decide +kernel⟩,
   ⟨wCuesAndRewinds6.1, wCuesAndRewinds6.2.1, wCuesAndRewinds6.2.2.1, wCuesAndRewinds6.2.2.2.1, wCuesAndRewinds6.2.2.2.2.1, wCuesAndRewinds6.2.2.2.2.2, by decide +kernel⟩,
   ⟨wCuesAndRewinds7.1, wCuesAndRewinds7.2.1, wCuesAndRewinds7.2.2.1, wCuesAndRewinds7.2.2.2.1, wCuesAndRewinds7.2.2.2.2.1, wCuesAndRewinds7.2.2.2.2.2, by decide +kernel⟩,
   ⟨wCuesAndRewinds8.1, wCuesAndRewinds8.2.1, wCuesAndRewinds8.2.2.1, wCuesAndRewinds8.2.2.2.1, wCuesAndRewinds8.2.2.2.2.1, wCuesAndRewinds8.2.2.2.2.2.1, wCuesAndRewinds8.2.2.2.2.2.2.1, wCuesAndRewinds8.2.2.2.2.2.2.2.1, wCuesAndRewinds8.2.2.2.2.2.2.2.2.1, wCuesAndRewinds8.2.2.2.2.2.2.2.2.2.1, wCuesAndRewinds8.2.2.2.2.2.2.2.2.2.2, memOk_of _ (by decide +kernel), (by decide +kernel), (by decide +kernel), (by decide +kernel), (by decide +kernel), (by decide +kernel), (by decide +kernel), (by decide +kernel)⟩,
   ⟨wCuesAndRewinds9.1, wCuesAndRewinds9.2.1, wCuesAndRewinds9.2.2.1, wCuesAndRewinds9.2.2.2.1, wCuesAndRewinds9.2.2.2.2.1, wCuesAndRewinds9.2.2.2.2.2.1, wCuesAndRewinds9.2.2.2.2.2.2, (by decide +kernel), (by decide +kernel), (by decide +kernel), (by decide +kernel), (by decide +kernel), (by decide +kernel), (by decide +kernel), (by decide +kernel), memOk_of _ (by decide +kernel)⟩,
   ⟨wCuesAndRewinds10.1, wCuesAndRewinds10.2, by decide +kernel⟩,
   ⟨wCuesAndRewinds11.1, wCuesAndRewinds11.2.1, wCuesAndRewinds11.2.2, by decide +kernel⟩,
   ⟨wCuesAndRewinds12.1, wCuesAndRewinds12.2.1, wCuesAndRewinds12.2.2, by decide +kernel⟩,
   ⟨wCuesAndRewinds13.1, wCuesAndRewinds13.2.1, wCuesAndRewinds13.2.2.1, wCuesAndRewinds13.2.2.2.1, wCuesAndRewinds13.2.2.2.2.1, wCuesAndRewinds13.2.2.2.2.2, by decide +kernel⟩,
   ⟨wCuesAndRewinds14.1, wCuesAndRewinds14.2.1, wCuesAndRewinds14.2.2.1, wCuesAndRewinds14.2.2.2, memOk_of _ (by decide +kernel), (by decide +kernel), (by decide +kernel), (by decide +kernel)⟩,
   ⟨wCuesAndRewinds15.1, wCuesAndRewinds15.2.1, wCuesAndRewinds15.2.2, memOk_of _ (by decide +kernel), (by decide +kernel), (by decide +kernel), (by decide +kernel), (by decide +kernel)⟩,
   ⟨wCuesAndRewinds16.1, wCuesAndRewinds16.2.1, wCuesAndRewinds16.2.2, memOk_of _ (by decide +kernel), (by decide +kernel), (by decide +kernel), (by decide +kernel), (by decide +kernel), (by decide +kernel)⟩,
   ⟨wCuesAndRewinds17.1, wCuesAndRewinds17.2.1, wCuesAndRewinds17.2.2.1, wCuesAndRewinds17.2.2.2.1, wCuesAndRewinds17.2.2.2.2.1, wCuesAndRewinds17.2.2.2.2.2, memOk_of _ (by decide +kernel), (by decide +kernel), (by decide +kernel), (by decide +kernel), (by decide +kernel), (by decide +kernel)⟩,
   ⟨wCuesAndRewinds18.1, wCuesAndRewinds18.2.1, wCuesAndRewinds18.2.2.1, wCuesAndRewinds18.2.2.2.1, wCuesAndRewinds18.2.2.2.2.1, wCuesAndRewinds18.2.2.2.2.2, memOk_of _ (by decide +kernel), (by decide +kernel), (by decide +kernel), (by decide +kernel), (by decide +kernel), (by decide +kernel)⟩,
   ⟨wCuesAndRewinds19.1, wCuesAndRewinds19.2.1, wCuesAndRewinds19.2.2.1, wCuesAndRewinds19.2.2.2.1, wCuesAndRewinds19.2.2.2.2.1, wCuesAndRewinds19.2.2.2.2.2.1, wCuesAndRewinds19.2.2.2.2.2.2.1, wCuesAndRewinds19.2.2.2.2.2.2.2, memOk_of _ (by decide +kernel), (by decide +kernel), (by decide +kernel), (by decide +kernel), (by decide +kernel), (by decide +kernel), (by decide +kernel)⟩⟩
def wCueClearAndCueNumbers0 : CtxId × Submission × State × Cue :=
  let c : CtxId := 0
  let y : Submission := dSubmission
  let s : State := State.reset
  let q : Cue := dCue
  let s := { s with tks := { s.tks with cues := [(0, dCue), (1, dCue), (2, dCue)] } }
  let p : PortId := 3
  let s := served (own (tame s)) c
  let y := sub 6 (0) (0) [] y
  let q0 : Nat := 0
  let q1 : Nat := 0
  let s := { s with tks := { s.tks with running := none, st := 2, segs := [(5, { freeSeg with st := 2, port := p.val, seq := 1, entries := [.note 1 1 2 3, .record { dRec with line := 10 } 0, .record { dRec with line := 11 } 0], used := 500 }), (9, { freeSeg with st := 2, port := p.val, seq := 2, entries := [.record { dRec with line := 15 } 0], used := 500 })], drives := s.tks.drives.map (fun (x : DrvSt) => { x with st := 4, nd := 100, cmds := [] }), ports := s.tks.ports.map (fun (x : TksPort) => { x with open_ := none, suspended := false, rewind := none }) } }
  let s := { s with tks := { s.tks with cues := (s.tks.cues.take 3).zipIdx.map (fun (e : (Nat × Cue) × Nat) => (2 * e.2 + q0, { e.1.2 with port := p.val, line := some (8 + 3 * e.2), before := e.1.2.before % 3, after := e.1.2.after % 3, anchor := some 5, st := (if e.1.2.st == 3 then 3 else 2) })) } }
  let y := { y with target := BitVec.ofNat 32 (6 * 256 + q0) }
  match s.cue y.unit with
  | some q =>
    let s := agree s
    (c, y, s, q)
  | _ => (0, dSubmission, State.reset, dCue)
def wCueClearAndCueNumbers1 : CtxId × Submission × State × Cue :=
  let c : CtxId := 0
  let y : Submission := dSubmission
  let s : State := State.reset
  let q : Cue := dCue
  let s := { s with tks := { s.tks with cues := [(0, dCue), (1, dCue), (2, dCue)] } }
  let p : PortId := 3
  let s := served (own (tame s)) c
  let y := sub 6 (0) (0) [] y
  let q0 : Nat := 0
  let q1 : Nat := 0
  let s := { s with tks := { s.tks with running := none, st := 2, segs := [(5, { freeSeg with st := 2, port := p.val, seq := 1, entries := [.note 1 1 2 3, .record { dRec with line := 10 } 0, .record { dRec with line := 11 } 0], used := 500 }), (9, { freeSeg with st := 2, port := p.val, seq := 2, entries := [.record { dRec with line := 15 } 0], used := 500 })], drives := s.tks.drives.map (fun (x : DrvSt) => { x with st := 4, nd := 100, cmds := [] }), ports := s.tks.ports.map (fun (x : TksPort) => { x with open_ := none, suspended := false, rewind := none }) } }
  let s := { s with tks := { s.tks with cues := (s.tks.cues.take 3).zipIdx.map (fun (e : (Nat × Cue) × Nat) => (2 * e.2 + q0, { e.1.2 with port := p.val, line := some (8 + 3 * e.2), before := e.1.2.before % 3, after := e.1.2.after % 3, anchor := some 5, st := (if e.1.2.st == 3 then 3 else 2) })) } }
  let y := { y with target := BitVec.ofNat 32 (6 * 256 + q0) }
  match s.cue y.unit with
  | some q =>
    let s := agree s
    (c, y, s, q)
  | _ => (0, dSubmission, State.reset, dCue)
def wCueClearAndCueNumbers2 : CtxId × Submission × State × PortId :=
  let c : CtxId := 0
  let y : Submission := dSubmission
  let s : State := State.reset
  let p : PortId := 0
  let k : Nat := 0
  let ln : Nat := 0
  let s := served (own (tame s)) c
  let y := sub 0 (0) (0) [(if k == 0 then 0 else s.free % 3), p.val, ln + 10, s.now % 2] y
  let q0 : Nat := 0
  let q1 : Nat := 0
  let s := { s with tks := { s.tks with running := none, st := 2, segs := [(5, { freeSeg with st := 2, port := p.val, seq := 1, entries := [.note 1 1 2 3, .record { dRec with line := 10 } 0, .record { dRec with line := 11 } 0], used := 500 }), (9, { freeSeg with st := 2, port := p.val, seq := 2, entries := [.record { dRec with line := 15 } 0], used := 500 })], drives := s.tks.drives.map (fun (x : DrvSt) => { x with st := 4, nd := 100, cmds := [] }), ports := s.tks.ports.map (fun (x : TksPort) => { x with open_ := none, suspended := false, rewind := none }) } }
  let s := { s with tks := { s.tks with cues := (s.tks.cues.take 3).zipIdx.map (fun (e : (Nat × Cue) × Nat) => (2 * e.2 + q0, { e.1.2 with port := p.val, line := some (8 + 3 * e.2), before := e.1.2.before % 3, after := e.1.2.after % 3, anchor := some 5, st := (if e.1.2.st == 3 then 3 else 2) })) } }
  let s := agree s
  (c, y, s, p)
/-- The conditions of each clause of `Obligations.CueClearAndCueNumbers` are met. -/
theorem test_meets_CueClearAndCueNumbers :
    (∃ (c : CtxId) (y : Submission) (s : State) (q : Cue), (s.Accepts c { op := 0x2A, since := 0x20, kinds := [6], slotted := false, args := [] } y) ∧ ((s.ctxs[c]).blk 7 true = true) ∧ (s.cue y.unit = some q) ∧ ((s.ctxs[c]).port q.port true = true) ∧ (q.pinned = true → s.tks.st = 2 ∧ s.tks.running = none)) ∧
    (∃ (c : CtxId) (y : Submission) (s : State) (q : Cue), (s.Accepts c { op := 0x2A, since := 0x20, kinds := [6], slotted := false, args := [] } y) ∧ ((s.ctxs[c]).blk 7 true = true) ∧ (s.cue y.unit = some q) ∧ ((s.ctxs[c]).port q.port true = true) ∧ ((s.tks.cues.filter (fun e => e.1 == y.unit)).length = 1)) ∧
    (∃ (c : CtxId) (y : Submission) (s : State) (p : PortId), (s.Accepts c { op := 0x28, since := 0x20, kinds := [0], slotted := false, args := [0, 1, 2, 3] } y) ∧ ((s.ctxs[c]).blk 7 true = true) ∧ ((s.ctxs[c]).port p.val true = true) ∧ (y.arg 1 = p.val) ∧ (y.arg 0 ≤ 2) ∧ (y.arg 0 ≠ 0 → s.srcCode p = y.arg 0 ∧ masterReached (s.master (y.arg 0 - 1)) (sgn 48 (y.arg64 2)) = false) ∧ (∀ l ∈ s.cueLine p (y.arg 0) (y.arg64 2), ∀ o ∈ s.oldest p, o ≤ l) ∧ (s.tks.cues.length < 256)) :=
  ⟨⟨wCueClearAndCueNumbers0.1, wCueClearAndCueNumbers0.2.1, wCueClearAndCueNumbers0.2.2.1, wCueClearAndCueNumbers0.2.2.2, by unfold State.Accepts State.Agrees; decide +kernel⟩,
   ⟨wCueClearAndCueNumbers1.1, wCueClearAndCueNumbers1.2.1, wCueClearAndCueNumbers1.2.2.1, wCueClearAndCueNumbers1.2.2.2, by unfold State.Accepts State.Agrees; decide +kernel⟩,
   ⟨wCueClearAndCueNumbers2.1, wCueClearAndCueNumbers2.2.1, wCueClearAndCueNumbers2.2.2.1, wCueClearAndCueNumbers2.2.2.2, by unfold State.Accepts State.Agrees; decide +kernel⟩⟩
def wAuxConversions0 : Nat × Int × Int × State :=
  let t : Nat := 0
  let va : Int := 0
  let vb : Int := 0
  let s : State := State.reset
  let s := { s with aux := { s.aux with batch := [], scan := [] } }
  (t, va, vb, s)
def wAuxConversions1 : Nat × Int × Int × State × Fin 4 × Fin 32 × List Nat :=
  let t : Nat := 0
  let va : Int := 0
  let vb : Int := 0
  let s : State := State.reset
  let n : Fin 4 := 0
  let c : Fin 32 := 0
  let rest : List Nat := []
  let s := { s with regs := [], aux := { s.aux with down := false, upAt := 0 } }
  let q0 : Nat := 0
  let q1 : Nat := 0
  let c : Fin 32 := ⟨8 + c.val % 24, by omega⟩
  let s := { s with aux := { s.aux with batch := [], running := true, scan := c.val :: rest, cal := s.aux.cal, chans := s.aux.chans.map (fun (x : AuxCh) => { x with cfg := (if q0 == 0 then x.cfg ||| 8 else if x.cfg / 8 % 2 == 1 then x.cfg - 8 else x.cfg), settle := x.settle % 3, kept := if q1 == 0 then [] else x.kept.map (fun (z : Int × Int) => (z.1 % 131072, z.2 % 131072)) }) } }
  let s := (s.setReg 0 (ofsOff c.val (s.aux.chans[c]).g) 77).setReg 0 Off.AUX_EXC_MIN (if q1 == 1 then 5000 else 70000)
  let s := { s with aux := { s.aux with batch := n.val :: rest, inj := s.aux.inj.set n (some c.val), chans := s.aux.chans.map (fun (x : AuxCh) => { x with cfg := if x.cfg / 8 % 2 == 1 then x.cfg - 8 else x.cfg }) } }
  let t := 2000 + t
  (t, va, vb, s, n, c, rest)
def wAuxConversions2 : Nat × Int × Int × State × Fin 32 × List Nat :=
  let t : Nat := 9
  let va : Int := 15
  let vb : Int := 15
  let s : State := State.reset
  let c : Fin 32 := 4
  let rest : List Nat := []
  let s := { s with regs := [], aux := { s.aux with down := false, upAt := 0 } }
  let q0 : Nat := 1
  let q1 : Nat := 0
  let c : Fin 32 := ⟨8 + c.val % 24, by omega⟩
  let s := { s with aux := { s.aux with batch := [], running := true, scan := c.val :: rest, cal := none, chans := s.aux.chans.map (fun (x : AuxCh) => { x with cfg := (if q0 == 0 then x.cfg ||| 8 else if x.cfg / 8 % 2 == 1 then x.cfg - 8 else x.cfg), settle := x.settle % 3, kept := if q1 == 0 then [] else x.kept.map (fun (z : Int × Int) => (z.1 % 131072, z.2 % 131072)) }) } }
  let s := (s.setReg 0 (ofsOff c.val (s.aux.chans[c]).g) 77).setReg 0 Off.AUX_EXC_MIN (if q1 == 1 then 5000 else 70000)
  let t := 2000 + t
  (t, va, vb, s, c, rest)
def wAuxConversions3 : Nat × Int × Int × State × Fin 32 × List Nat :=
  let t : Nat := 0
  let va : Int := 0
  let vb : Int := 0
  let s : State := State.reset
  let c : Fin 32 := 0
  let rest : List Nat := []
  let s := { s with regs := [], aux := { s.aux with down := false, upAt := 0 } }
  let q0 : Nat := 0
  let q1 : Nat := 0
  let c : Fin 32 := ⟨8 + c.val % 24, by omega⟩
  let s := { s with aux := { s.aux with batch := [], running := true, scan := c.val :: rest, cal := none, chans := s.aux.chans.map (fun (x : AuxCh) => { x with cfg := (if q0 == 0 then x.cfg ||| 8 else if x.cfg / 8 % 2 == 1 then x.cfg - 8 else x.cfg), settle := x.settle % 3, kept := if q1 == 0 then [] else x.kept.map (fun (z : Int × Int) => (z.1 % 131072, z.2 % 131072)) }) } }
  let s := (s.setReg 0 (ofsOff c.val (s.aux.chans[c]).g) 77).setReg 0 Off.AUX_EXC_MIN (if q1 == 1 then 5000 else 70000)
  let t := 2000 + t
  (t, va, vb, s, c, rest)
def wAuxConversions4 : Nat × Int × Int × State × Fin 8 × List Nat :=
  let t : Nat := 0
  let va : Int := 0
  let vb : Int := 0
  let s : State := State.reset
  let n : Fin 8 := 0
  let rest : List Nat := []
  let s := { s with regs := [], aux := { s.aux with down := false, upAt := 0 } }
  let q0 : Nat := 0
  let q1 : Nat := 0
  let s := { s with aux := { s.aux with batch := [], running := true, scan := n.val :: rest } }
  let t := if q0 == 0 then s.aux.exc[n].swap + 5 else t
  let t := 2000 + t
  (t, va, vb, s, n, rest)
def wAuxConversions5 : Nat × Int × Int × State × Fin 32 × List Nat × AuxCal :=
  let t : Nat := 0
  let va : Int := 0
  let vb : Int := 0
  let s : State := State.reset
  let c : Fin 32 := 0
  let rest : List Nat := []
  let k : AuxCal := dAuxCal
  let s := { s with regs := [], aux := { s.aux with down := false, upAt := 0 } }
  let q0 : Nat := 0
  let q1 : Nat := 0
  let c : Fin 32 := ⟨8 + c.val % 24, by omega⟩
  let s := { s with aux := { s.aux with batch := [], running := true, scan := c.val :: rest, cal := none, chans := s.aux.chans.map (fun (x : AuxCh) => { x with cfg := (if q0 == 0 then x.cfg ||| 8 else if x.cfg / 8 % 2 == 1 then x.cfg - 8 else x.cfg), settle := x.settle % 3, kept := if q1 == 0 then [] else x.kept.map (fun (z : Int × Int) => (z.1 % 131072, z.2 % 131072)) }) } }
  let s := (s.setReg 0 (ofsOff c.val (s.aux.chans[c]).g) 77).setReg 0 Off.AUX_EXC_MIN (if q1 == 1 then 5000 else 70000)
  let l : Nat := 0
  let w : Nat := 0
  let k : AuxCal := { k with wait := [], ch := c.val, log := l, taken := 5, step := 0, g := k.g % 8 }
  let s := { s with aux := { s.aux with cal := some k, zero := some (c.val, k.g, (-1000000000000)), chans := s.aux.chans.map (fun (x : AuxCh) => { x with settle := 0, rngChg := false, cfg := if x.cfg / 8 % 2 == 1 then x.cfg - 8 else x.cfg }) } }
  let s := s.setReg 0 Off.AUX_CAL_TGT 5000
  let t := 2000 + t
  (t, va, vb, s, c, rest, k)
def wAuxConversions6 : Nat × Int × Int × State × Fin 32 × List Nat × AuxCal :=
  let t : Nat := 0
  let va : Int := 0
  let vb : Int := 0
  let s : State := State.reset
  let c : Fin 32 := 0
  let rest : List Nat := []
  let k : AuxCal := dAuxCal
  let s := { s with regs := [], aux := { s.aux with down := false, upAt := 0 } }
  let q0 : Nat := 0
  let q1 : Nat := 0
  let c : Fin 32 := ⟨8 + c.val % 24, by omega⟩
  let s := { s with aux := { s.aux with batch := [], running := true, scan := c.val :: rest, cal := none, chans := s.aux.chans.map (fun (x : AuxCh) => { x with cfg := (if q0 == 0 then x.cfg ||| 8 else if x.cfg / 8 % 2 == 1 then x.cfg - 8 else x.cfg), settle := x.settle % 3, kept := if q1 == 0 then [] else x.kept.map (fun (z : Int × Int) => (z.1 % 131072, z.2 % 131072)) }) } }
  let s := (s.setReg 0 (ofsOff c.val (s.aux.chans[c]).g) 77).setReg 0 Off.AUX_EXC_MIN (if q1 == 1 then 5000 else 70000)
  let l : Nat := 0
  let w : Nat := 0
  let k : AuxCal := { k with wait := [], ch := c.val, log := l, taken := 2 ^ l - 1, step := 0, g := k.g % 8 }
  let s := { s with aux := { s.aux with cal := some k, zero := some (c.val, k.g, (-1000000000000)), chans := s.aux.chans.map (fun (x : AuxCh) => { x with settle := 0, rngChg := false, cfg := if x.cfg / 8 % 2 == 1 then x.cfg - 8 else x.cfg }) } }
  let s := s.setReg 0 Off.AUX_CAL_TGT 5000
  let t := 2000 + t
  (t, va, vb, s, c, rest, k)
def wAuxConversions7 : Nat × Int × Int × State × Fin 32 × List Nat × AuxCal × (Nat × Nat × Int) :=
  let t : Nat := 0
  let va : Int := 0
  let vb : Int := 0
  let s : State := State.reset
  let c : Fin 32 := 0
  let rest : List Nat := []
  let k : AuxCal := dAuxCal
  let z : Nat × Nat × Int := (0, 0, 0)
  let s := { s with regs := [], aux := { s.aux with down := false, upAt := 0 } }
  let q0 : Nat := 0
  let q1 : Nat := 0
  let c : Fin 32 := ⟨8 + c.val % 24, by omega⟩
  let s := { s with aux := { s.aux with batch := [], running := true, scan := c.val :: rest, cal := none, chans := s.aux.chans.map (fun (x : AuxCh) => { x with cfg := (if q0 == 0 then x.cfg ||| 8 else if x.cfg / 8 % 2 == 1 then x.cfg - 8 else x.cfg), settle := x.settle % 3, kept := if q1 == 0 then [] else x.kept.map (fun (z : Int × Int) => (z.1 % 131072, z.2 % 131072)) }) } }
  let s := (s.setReg 0 (ofsOff c.val (s.aux.chans[c]).g) 77).setReg 0 Off.AUX_EXC_MIN (if q1 == 1 then 5000 else 70000)
  let l : Nat := 0
  let w : Nat := 0
  let k : AuxCal := { k with wait := [], ch := c.val, log := l, taken := 2 ^ l - 1, step := 1, g := k.g % 8 }
  let s := { s with aux := { s.aux with cal := some k, zero := some (c.val, k.g, (-1000000000000)), chans := s.aux.chans.map (fun (x : AuxCh) => { x with settle := 0, rngChg := false, cfg := if x.cfg / 8 % 2 == 1 then x.cfg - 8 else x.cfg }) } }
  let s := s.setReg 0 Off.AUX_CAL_TGT 5000
  let b : Nat := 0
  let z := (c.val, k.g, if b == 0 then (-10000000000 : Int) else 0)
  let s := { s with aux := { s.aux with zero := some z, cal := some { k with sum := 3000 * w } } }
  let t := 2000 + t
  (t, va, vb, s, c, rest, k, z)
def wAuxConversions8 : Nat × Int × Int × State :=
  let t : Nat := 0
  let va : Int := 0
  let vb : Int := 0
  let s : State := State.reset
  let q : Nat := 0
  let s := { s with aux := { s.aux with down := q == 0, upAt := s.now + 3000 } }
  let t := s.now + 1000
  (t, va, vb, s)
def wAuxConversions9 : Nat × Int × Int × State × Fin 8 :=
  let t : Nat := 0
  let va : Int := 0
  let vb : Int := 0
  let s : State := State.reset
  let n : Fin 8 := 0
  let s := { s with regs := [], aux := { s.aux with down := false, upAt := 0 } }
  let q0 : Nat := 0
  let q1 : Nat := 0
  let s := ({ s with aux := { s.aux with batch := [], inj := s.aux.inj.map (fun _ => none), running := true, scan := [n.val] } }).setReg 0 Off.AUX_SCAN_CTL 0x100
  let t := 2000 + t
  (t, va, vb, s, n)
/-- The conditions of each clause of `Obligations.AuxConversions` are met. -/
theorem test_meets_AuxConversions :
    (∃ (t : Nat) (va : Int) (vb : Int) (s : State), (s.aux.batch = []) ∧ (s.aux.scan = []) ∧ (s.aux.running = true ∨ s.injPending = [])) ∧
    (∃ (t : Nat) (va : Int) (vb : Int) (s : State) (n : Fin 4) (c : Fin 32) (rest : List Nat), (s.aux.down = false) ∧ (s.aux.upAt + 200 ≤ max s.now t) ∧ (s.rf 0 Off.AUX_SCAN_CTL 8 8 = 0) ∧ (s.MemOk) ∧ (s.aux.batch = n.val :: rest) ∧ (s.aux.inj[n] = some c.val) ∧ (8 ≤ c.val) ∧ ((s.aux.chans[c]).ref = false) ∧ (∀ m : Fin 4, s.injTrig (auxSrc (32 + n.val)) m = false)) ∧
    (∃ (t : Nat) (va : Int) (vb : Int) (s : State) (c : Fin 32) (rest : List Nat), (s.aux.down = false) ∧ (s.aux.upAt + 200 ≤ max s.now t) ∧ (s.rf 0 Off.AUX_SCAN_CTL 8 8 = 0) ∧ (s.MemOk) ∧ (s.aux.batch = []) ∧ (s.aux.running = true) ∧ (s.aux.scan = c.val :: rest) ∧ (rest ≠ [] ∨ s.scanMode = 0) ∧ (∀ m : Fin 4, s.injTrig (auxSrc c.val) m = false) ∧ (8 ≤ c.val) ∧ ((s.aux.chans[c]).ref = false) ∧ (s.aux.cal = none)) ∧
    (∃ (t : Nat) (va : Int) (vb : Int) (s : State) (c : Fin 32) (rest : List Nat), (s.aux.down = false) ∧ (s.aux.upAt + 200 ≤ max s.now t) ∧ (s.rf 0 Off.AUX_SCAN_CTL 8 8 = 0) ∧ (s.MemOk) ∧ (s.aux.batch = []) ∧ (s.aux.running = true) ∧ (s.aux.scan = c.val :: rest) ∧ (rest ≠ [] ∨ s.scanMode = 0) ∧ (∀ m : Fin 4, s.injTrig (auxSrc c.val) m = false) ∧ (8 ≤ c.val) ∧ ((s.aux.chans[c]).ref = true) ∧ (s.aux.cal = none)) ∧
    (∃ (t : Nat) (va : Int) (vb : Int) (s : State) (n : Fin 8) (rest : List Nat), (s.aux.down = false) ∧ (s.aux.upAt + 200 ≤ max s.now t) ∧ (s.rf 0 Off.AUX_SCAN_CTL 8 8 = 0) ∧ (s.aux.batch = []) ∧ (s.aux.running = true) ∧ (s.aux.scan = n.val :: rest) ∧ (rest ≠ [] ∨ s.scanMode = 0)) ∧
    (∃ (t : Nat) (va : Int) (vb : Int) (s : State) (c : Fin 32) (rest : List Nat) (k : AuxCal), (s.aux.down = false) ∧ (s.aux.upAt + 200 ≤ max s.now t) ∧ (s.rf 0 Off.AUX_SCAN_CTL 8 8 = 0) ∧ (s.MemOk) ∧ (s.aux.batch = []) ∧ (s.aux.running = true) ∧ (s.aux.scan = c.val :: rest) ∧ (rest ≠ [] ∨ s.scanMode = 0) ∧ (∀ m : Fin 4, s.injTrig (auxSrc c.val) m = false) ∧ (8 ≤ c.val) ∧ ((s.aux.chans[c]).ref = false) ∧ (s.aux.cal = some k) ∧ (k.ch = c.val) ∧ (k.wait = []) ∧ ((s.aux.chans[c]).settle = 0) ∧ ((s.aux.chans[c]).rngChg = false) ∧ (∀ m : Fin 4, s.injTrig (auxSrc 36) m = false) ∧ (k.taken + 1 ≠ 2 ^ k.log) ∧ (k.taken < 511)) ∧
    (∃ (t : Nat) (va : Int) (vb : Int) (s : State) (c : Fin 32) (rest : List Nat) (k : AuxCal), (s.aux.down = false) ∧ (s.aux.upAt + 200 ≤ max s.now t) ∧ (s.rf 0 Off.AUX_SCAN_CTL 8 8 = 0) ∧ (s.MemOk) ∧ (s.aux.batch = []) ∧ (s.aux.running = true) ∧ (s.aux.scan = c.val :: rest) ∧ (rest ≠ [] ∨ s.scanMode = 0) ∧ (∀ m : Fin 4, s.injTrig (auxSrc c.val) m = false) ∧ (8 ≤ c.val) ∧ ((s.aux.chans[c]).ref = false) ∧ (s.aux.cal = some k) ∧ (k.ch = c.val) ∧ (k.wait = []) ∧ ((s.aux.chans[c]).settle = 0) ∧ ((s.aux.chans[c]).rngChg = false) ∧ (∀ m : Fin 4, s.injTrig (auxSrc 36) m = false) ∧ (k.taken + 1 = 2 ^ k.log) ∧ (k.log ≤ 8) ∧ (k.step = 0)) ∧
    (∃ (t : Nat) (va : Int) (vb : Int) (s : State) (c : Fin 32) (rest : List Nat) (k : AuxCal) (z : Nat × Nat × Int), (s.aux.down = false) ∧ (s.aux.upAt + 200 ≤ max s.now t) ∧ (s.rf 0 Off.AUX_SCAN_CTL 8 8 = 0) ∧ (s.MemOk) ∧ (s.aux.batch = []) ∧ (s.aux.running = true) ∧ (s.aux.scan = c.val :: rest) ∧ (rest ≠ [] ∨ s.scanMode = 0) ∧ (∀ m : Fin 4, s.injTrig (auxSrc c.val) m = false) ∧ (8 ≤ c.val) ∧ ((s.aux.chans[c]).ref = false) ∧ (s.aux.cal = some k) ∧ (k.ch = c.val) ∧ (k.wait = []) ∧ ((s.aux.chans[c]).settle = 0) ∧ ((s.aux.chans[c]).rngChg = false) ∧ (∀ m : Fin 4, s.injTrig (auxSrc 36) m = false) ∧ (k.taken + 1 = 2 ^ k.log) ∧ (k.log ≤ 8) ∧ (k.step = 1) ∧ (k.g < 8) ∧ (s.aux.zero = some z)) ∧
    (∃ (t : Nat) (va : Int) (vb : Int) (s : State), s.aux.down = true ∨ max s.now t < s.aux.upAt + 200) ∧
    (∃ (t : Nat) (va : Int) (vb : Int) (s : State) (n : Fin 8), (s.aux.down = false) ∧ (s.aux.upAt + 200 ≤ max s.now t) ∧ (s.rf 0 Off.AUX_SCAN_CTL 8 8 = 1) ∧ (s.aux.batch = []) ∧ (s.injPending = []) ∧ (s.aux.running = true) ∧ (s.aux.scan = [n.val]) ∧ (s.scanMode = 0)) :=
  ⟨⟨wAuxConversions0.1, wAuxConversions0.2.1, wAuxConversions0.2.2.1, wAuxConversions0.2.2.2, by decide +kernel⟩,
   ⟨wAuxConversions1.1, wAuxConversions1.2.1, wAuxConversions1.2.2.1, wAuxConversions1.2.2.2.1, wAuxConversions1.2.2.2.2.1, wAuxConversions1.2.2.2.2.2.1, wAuxConversions1.2.2.2.2.2.2, (by decide +kernel), (by decide +kernel), (by decide +kernel), memOk_of _ (by decide +kernel), (by decide +kernel), (by decide +kernel), (by decide +kernel), (by decide +kernel), (by decide +kernel)⟩,
   ⟨wAuxConversions2.1, wAuxConversions2.2.1, wAuxConversions2.2.2.1, wAuxConversions2.2.2.2.1, wAuxConversions2.2.2.2.2.1, wAuxConversions2.2.2.2.2.2, (by decide +kernel), (by decide +kernel), (by decide +kernel), memOk_of _ (by decide +kernel), (by decide +kernel), (by decide +kernel), (by decide +kernel), (by decide +kernel), (by decide +kernel), (by decide +kernel), (by decide +kernel), (by decide +kernel)⟩,
   ⟨wAuxConversions3.1, wAuxConversions3.2.1, wAuxConversions3.2.2.1, wAuxConversions3.2.2.2.1, wAuxConversions3.2.2.2.2.1, wAuxConversions3.2.2.2.2.2, (by decide +kernel), (by decide +kernel), (by decide +kernel), memOk_of _ (by decide +kernel), (by decide +kernel), (by decide +kernel), (by decide +kernel), (by decide +kernel), (by decide +kernel), (by decide +kernel), (by decide +kernel), (by decide +kernel)⟩,
   ⟨wAuxConversions4.1, wAuxConversions4.2.1, wAuxConversions4.2.2.1, wAuxConversions4.2.2.2.1, wAuxConversions4.2.2.2.2.1, wAuxConversions4.2.2.2.2.2, by decide +kernel⟩,
   ⟨wAuxConversions5.1, wAuxConversions5.2.1, wAuxConversions5.2.2.1, wAuxConversions5.2.2.2.1, wAuxConversions5.2.2.2.2.1, wAuxConversions5.2.2.2.2.2.1, wAuxConversions5.2.2.2.2.2.2, (by decide +kernel), (by decide +kernel), (by decide +kernel), memOk_of _ (by decide +kernel), (by decide +kernel), (by decide +kernel), (by decide +kernel), (by decide +kernel), (by decide +kernel), (by decide +kernel), (by decide +kernel), (by decide +kernel), (by decide +kernel), (by decide +kernel), (by decide +kernel), (by decide +kernel), (by decide +kernel), (by decide +kernel), (by decide +kernel)⟩,
   ⟨wAuxConversions6.1, wAuxConversions6.2.1, wAuxConversions6.2.2.1, wAuxConversions6.2.2.2.1, wAuxConversions6.2.2.2.2.1, wAuxConversions6.2.2.2.2.2.1, wAuxConversions6.2.2.2.2.2.2, (by decide +kernel), (by decide +kernel), (by decide +kernel), memOk_of _ (by decide +kernel), (by decide +kernel), (by decide +kernel), (by decide +kernel), (by decide +kernel), (by decide +kernel), (by decide +kernel), (by decide +kernel), (by decide +kernel), (by decide +kernel), (by decide +kernel), (by decide +kernel), (by decide +kernel), (by decide +kernel), (by decide +kernel), (by decide +kernel), (by decide +kernel)⟩,
   ⟨wAuxConversions7.1, wAuxConversions7.2.1, wAuxConversions7.2.2.1, wAuxConversions7.2.2.2.1, wAuxConversions7.2.2.2.2.1, wAuxConversions7.2.2.2.2.2.1, wAuxConversions7.2.2.2.2.2.2.1, wAuxConversions7.2.2.2.2.2.2.2, (by decide +kernel), (by decide +kernel), (by decide +kernel), memOk_of _ (by decide +kernel), (by decide +kernel), (by decide +kernel), (by decide +kernel), (by decide +kernel), (by decide +kernel), (by decide +kernel), (by decide +kernel), (by decide +kernel), (by decide +kernel), (by decide +kernel), (by decide +kernel), (by decide +kernel), (by decide +kernel), (by decide +kernel), (by decide +kernel), (by decide +kernel), (by decide +kernel), (by decide +kernel)⟩,
   ⟨wAuxConversions8.1, wAuxConversions8.2.1, wAuxConversions8.2.2.1, wAuxConversions8.2.2.2, by decide +kernel⟩,
   ⟨wAuxConversions9.1, wAuxConversions9.2.1, wAuxConversions9.2.2.1, wAuxConversions9.2.2.2.1, wAuxConversions9.2.2.2.2, by decide +kernel⟩⟩
def wAuxScansAndExcitation0 : Nat × State :=
  let t : Nat := 0
  let s : State := State.reset
  let q : Nat := 0
  let s := { s with regs := if q == 0 then [] else s.regs }
  (t, s)
def wAuxScansAndExcitation1 : Nat × State :=
  let t : Nat := 9
  let s : State := State.reset
  let s := { s with regs := [], aux := { s.aux with down := false, upAt := 0 } }
  let q0 : Nat := 0
  let q1 : Nat := 2
  let s := { s with aux := { s.aux with running := false, cal := none, zero := none, chans := s.aux.chans.map (fun (x : AuxCh) => { x with cfg := if q0 == 0 then 0 else x.cfg }) } }
  let s := (s.setReg 0 Off.AUX_SCAN_MASK (if q1 == 0 then 0 else 0x50)).setReg 0 (Off.AUX_CH + 16) 5
  let s := own s
  let s := (s.setReg 0 Off.AUX_SCAN_CTL 2).updAux (fun x => { x with running := true })
  let s := (s.setReg 0 Off.AUX_SCAN_PERIOD 3).updAux (fun x => { x with lastDue := s.now - 5000 })
  let t := 200000
  (t, s)
def wAuxScansAndExcitation2 : Nat × State :=
  let t : Nat := 9
  let s : State := State.reset
  let s := { s with regs := [], aux := { s.aux with down := false, upAt := 0 } }
  let q0 : Nat := 0
  let q1 : Nat := 2
  let s := { s with aux := { s.aux with running := false, cal := none, zero := none, chans := s.aux.chans.map (fun (x : AuxCh) => { x with cfg := if q0 == 0 then 0 else x.cfg }) } }
  let s := (s.setReg 0 Off.AUX_SCAN_MASK (if q1 == 0 then 0 else 0x50)).setReg 0 (Off.AUX_CH + 16) 5
  let s := own s
  let s := s.setReg 0 Off.AUX_SCAN_CTL 2
  let s := (s.setReg 0 Off.AUX_SCAN_PERIOD 3).updAux (fun x => { x with lastDue := s.now - 5000 })
  let t := 200000
  (t, s)
def wAuxScansAndExcitation3 : CtxId × Word × State :=
  let c : CtxId := 0
  let v : Word := 0
  let s : State := State.reset
  let s := { s with regs := [], aux := { s.aux with down := false, upAt := 0 } }
  let q0 : Nat := 0
  let q1 : Nat := 0
  let s := { s with aux := { s.aux with running := false, cal := none, zero := none, chans := s.aux.chans.map (fun (x : AuxCh) => { x with cfg := if q0 == 0 then 0 else x.cfg }) } }
  let s := (s.setReg 0 Off.AUX_SCAN_MASK (if q1 == 0 then 0 else 0x50)).setReg 0 (Off.AUX_CH + 16) 5
  let s := own s
  let v : Word := if v.getLsbD 4 then 0x80000003 else 0x80000000
  (c, v, s)
def wAuxScansAndExcitation4 : CtxId × Word × State :=
  let c : CtxId := 0
  let v : Word := 0
  let s : State := State.reset
  let s := { s with regs := [], aux := { s.aux with down := false, upAt := 0 } }
  let q0 : Nat := 0
  let q1 : Nat := 0
  let s := { s with aux := { s.aux with running := false, cal := none, zero := none, chans := s.aux.chans.map (fun (x : AuxCh) => { x with cfg := if q0 == 0 then 0 else x.cfg }) } }
  let s := (s.setReg 0 Off.AUX_SCAN_MASK (if q1 == 0 then 0 else 0x50)).setReg 0 (Off.AUX_CH + 16) 5
  let s := own s
  let s := s.updAux (fun x => { x with running := true })
  (c, v, s)
def wAuxScansAndExcitation5 : Fin 8 × Nat × State :=
  let n : Fin 8 := 0
  let t : Nat := 0
  let s : State := State.reset
  let s := { s with regs := [], aux := { s.aux with down := false, upAt := 0 } }
  let q0 : Nat := 0
  let q1 : Nat := 0
  let s := (s.setReg 0 (Off.AUX_EXC_CFG + 16 * n.val) (if q0 == 0 then 0 else 17)).setReg 0 (Off.AUX_EXC_HALF + 16 * n.val) 100
  let q2 : Nat := 0
  let s := { s with aux := { s.aux with cal := none, chans := s.aux.chans.map (fun (x : AuxCh) => { x with kept := [] }), exc := s.aux.exc.map (fun (e : ExcSt) => { e with on := false, neg := e.neg, amp := (if q2 == 0 then e.amp else 17), half := 100, swap := s.now - 100000, negS := (e.negS.1, e.negS.2.1, (if q1 == 0 then 0 else e.negS.2.2 + 1)), pos := (e.pos.1, e.pos.2.1, e.pos.2.2 + 1) }) } }
  (n, t, s)
def wAuxScansAndExcitation6 : Fin 8 × Nat × State :=
  let n : Fin 8 := 0
  let t : Nat := 0
  let s : State := State.reset
  let s := { s with regs := [], aux := { s.aux with down := false, upAt := 0 } }
  let q0 : Nat := 0
  let q1 : Nat := 0
  let s := (s.setReg 0 (Off.AUX_EXC_CFG + 16 * n.val) (if q0 == 0 then 0 else 17)).setReg 0 (Off.AUX_EXC_HALF + 16 * n.val) 100
  let q2 : Nat := 0
  let s := { s with aux := { s.aux with cal := none, chans := s.aux.chans.map (fun (x : AuxCh) => { x with kept := [] }), exc := s.aux.exc.map (fun (e : ExcSt) => { e with on := true, neg := false, amp := (if q2 == 0 then e.amp else 17), half := 100, swap := s.now - 100000, negS := (e.negS.1, e.negS.2.1, (if q1 == 0 then 0 else e.negS.2.2 + 1)), pos := (e.pos.1, e.pos.2.1, e.pos.2.2 + 1) }) } }
  let t := 200000
  (n, t, s)
def wAuxScansAndExcitation7 : Fin 8 × Nat × State :=
  let n : Fin 8 := 0
  let t : Nat := 0
  let s : State := State.reset
  let s := { s with regs := [], aux := { s.aux with down := false, upAt := 0 } }
  let q0 : Nat := 0
  let q1 : Nat := 0
  let s := (s.setReg 0 (Off.AUX_EXC_CFG + 16 * n.val) (if q0 == 0 then 0 else 17)).setReg 0 (Off.AUX_EXC_HALF + 16 * n.val) 100
  let q2 : Nat := 0
  let s := { s with aux := { s.aux with cal := none, chans := s.aux.chans.map (fun (x : AuxCh) => { x with kept := [] }), exc := s.aux.exc.map (fun (e : ExcSt) => { e with on := true, neg := true, amp := (if q2 == 0 then e.amp else 17), half := 100, swap := s.now - 100000, negS := (e.negS.1, e.negS.2.1, (if q1 == 0 then 0 else e.negS.2.2 + 1)), pos := (e.pos.1, e.pos.2.1, e.pos.2.2 + 1) }) } }
  let t := 200000
  (n, t, s)
def wAuxScansAndExcitation8 : Fin 8 × State :=
  let n : Fin 8 := 0
  let s : State := State.reset
  let s := { s with regs := [] }
  (n, s)
def wAuxScansAndExcitation9 : Fin 8 × State :=
  let n : Fin 8 := 0
  let s : State := State.reset
  let s := { s with regs := [], aux := { s.aux with down := false, upAt := 0 } }
  let q0 : Nat := 0
  let q1 : Nat := 0
  let s := s.setReg 0 (Off.AUX_EXC_STAT + 16 * n.val) 5
  (n, s)
def wAuxScansAndExcitation10 : Fin 32 × Bool × State :=
  let ch : Fin 32 := 0
  let neg : Bool := false
  let s : State := State.reset
  let s := { s with regs := [] }
  let s := (s.setReg 0 Off.AUX_OV 0xFF00).setReg 0 Off.AUX_OV_ACT 0xF00
  (ch, neg, s)
def wAuxScansAndExcitation11 : Fin 32 × Bool × State :=
  let ch : Fin 32 := 0
  let neg : Bool := false
  let s : State := State.reset
  let s := { s with regs := [] }
  let s := (s.setReg 0 Off.AUX_OV 0xFF00).setReg 0 Off.AUX_OV_ACT 0xF00
  (ch, neg, s)
def wAuxScansAndExcitation12 : CtxId × Word × State :=
  let c : CtxId := 0
  let v : Word := 0
  let s : State := State.reset
  let s := own { s with regs := [] }
  let s := (s.setReg 0 Off.AUX_OV 0xFF00).setReg 0 Off.AUX_OV_ACT 0xF00
  (c, v, s)
def wAuxScansAndExcitation13 : CtxId × Fin 4 × Word × State :=
  let c : CtxId := 0
  let n : Fin 4 := 0
  let v : Word := 0
  let s : State := State.reset
  let s := own { s with regs := [], aux := { s.aux with inj := s.aux.inj.set n none } }
  (c, n, v, s)
def wAuxScansAndExcitation14 : CtxId × Fin 4 × Word × State :=
  let c : CtxId := 0
  let n : Fin 4 := 0
  let v : Word := 0
  let s : State := State.reset
  let s := own { s with regs := [], aux := { s.aux with inj := s.aux.inj.set n (some 3) } }
  let v := v ||| 0x80000000
  (c, n, v, s)
def wAuxScansAndExcitation15 : CtxId × Word × State :=
  let c : CtxId := 0
  let v : Word := 0
  let s : State := State.reset
  let s := own { s with regs := [], aux := { s.aux with cal := none } }
  let v := v ||| 0x80000000
  let ch := fld v.toNat 4 0
  let q : Nat := 0
  let s := s.updAux (fun x => { x with mask := (if q == 0 then 0 else 0xFFFFFFFF), zero := (if q == 1 then none else some (ch, (x.chans[auxCh ch]).g, 5)) })
  (c, v, s)
def wAuxScansAndExcitation16 : CtxId × Word × State :=
  let c : CtxId := 0
  let v : Word := 0
  let s : State := State.reset
  let s := own { s with regs := [] }
  let v := (v ||| 0x80000000) &&& 0xBFFFFFFF
  let k : AuxCal := dAuxCal
  let s := { s with aux := { s.aux with cal := some k } }
  (c, v, s)
def wAuxScansAndExcitation17 : CtxId × Word × State :=
  let c : CtxId := 0
  let v : Word := 0
  let s : State := State.reset
  let s := own { s with regs := [], aux := { s.aux with cal := none } }
  let v := (v ||| 0x40000000) &&& 0x7FFFFFFF
  (c, v, s)
def wAuxScansAndExcitation18 : CtxId × Word × State :=
  let c : CtxId := 0
  let v : Word := 0
  let s : State := State.reset
  let s := own { s with regs := [] }
  let v := (v ||| 0x40000000) &&& 0x7FFFFFFF
  let k : AuxCal := dAuxCal
  let s := { s with aux := { s.aux with cal := some k } }
  (c, v, s)
/-- The conditions of each clause of `Obligations.AuxScansAndExcitation` are met. -/
theorem test_meets_AuxScansAndExcitation :
    (∃ (t : Nat) (s : State), s.scanMode ≠ 2 ∨ s.eff 0 Off.AUX_SCAN_MASK = 0 ∨ max s.now t < s.aux.lastDue + 1000 * max 1 (s.rf 0 Off.AUX_SCAN_PERIOD 23 0)) ∧
    (∃ (t : Nat) (s : State), (s.MemOk) ∧ (s.scanMode = 2) ∧ (s.eff 0 Off.AUX_SCAN_MASK ≠ 0) ∧ (s.aux.lastDue + 1000 * max 1 (s.rf 0 Off.AUX_SCAN_PERIOD 23 0) ≤ max s.now t) ∧ (s.aux.running = true) ∧ (∀ m : Fin 4, s.injTrig (auxSrc 39) m = false)) ∧
    (∃ (t : Nat) (s : State), (s.scanMode = 2) ∧ (s.eff 0 Off.AUX_SCAN_MASK ≠ 0) ∧ (s.aux.lastDue + 1000 * max 1 (s.rf 0 Off.AUX_SCAN_PERIOD 23 0) ≤ max s.now t) ∧ (s.aux.running = false) ∧ (s.aux.cal = none) ∧ (s.aux.zero = none)) ∧
    (∃ (c : CtxId) (v : Word) (s : State), (s.MemOk) ∧ (s.Serves c Off.AUX_SCAN_CTL true) ∧ (v.getLsbD 31 = true) ∧ (fld v.toNat 1 0 = 0 ∨ fld v.toNat 1 0 = 3) ∧ (s.aux.running = false) ∧ (s.aux.cal = none) ∧ (s.aux.zero = none)) ∧
    (∃ (c : CtxId) (v : Word) (s : State), (s.MemOk) ∧ (s.Serves c Off.AUX_SCAN_CTL true) ∧ (s.aux.running = true)) ∧
    (∃ (n : Fin 8) (t : Nat) (s : State), (s.aux.exc[n]).on = false ∨ max s.now t < (s.aux.exc[n]).swap + 1000 * (s.aux.exc[n]).half) ∧
    (∃ (n : Fin 8) (t : Nat) (s : State), (s.MemOk) ∧ ((s.aux.exc[n]).on = true) ∧ ((s.aux.exc[n]).swap + 1000 * (s.aux.exc[n]).half ≤ max s.now t) ∧ ((s.aux.exc[n]).neg = false)) ∧
    (∃ (n : Fin 8) (t : Nat) (s : State), (s.MemOk) ∧ ((s.aux.exc[n]).on = true) ∧ ((s.aux.exc[n]).swap + 1000 * (s.aux.exc[n]).half ≤ max s.now t) ∧ ((s.aux.exc[n]).neg = true) ∧ (s.aux.cal = none) ∧ (∀ m : Fin 4, s.injTrig (auxSrc n.val) m = false)) ∧
    (∃ (n : Fin 8) (s : State), s.MemOk) ∧
    (∃ (n : Fin 8) (s : State), s.MemOk) ∧
    (∃ (ch : Fin 32) (neg : Bool) (s : State), (s.MemOk) ∧ (∀ m : Fin 4, s.injTrig (auxSrc 37) m = false)) ∧
    (∃ (ch : Fin 32) (neg : Bool) (s : State), s.MemOk) ∧
    (∃ (c : CtxId) (v : Word) (s : State), (s.MemOk) ∧ (s.Serves c Off.AUX_OV true)) ∧
    (∃ (c : CtxId) (n : Fin 4) (v : Word) (s : State), (s.MemOk) ∧ (s.Serves c (Off.AUX_INJ_REQ + 16 * n.val) true) ∧ (v.getLsbD 31 = false ∨ s.aux.inj[n] = none)) ∧
    (∃ (c : CtxId) (n : Fin 4) (v : Word) (s : State), (s.MemOk) ∧ (s.Serves c (Off.AUX_INJ_REQ + 16 * n.val) true) ∧ (v.getLsbD 31 = true) ∧ (s.aux.inj[n] ≠ none)) ∧
    (∃ (c : CtxId) (v : Word) (s : State), (s.MemOk) ∧ (s.Serves c Off.AUX_CAL_CTL true) ∧ (v.getLsbD 31 = true) ∧ (s.aux.cal = none) ∧ (∀ m : Fin 4, s.injTrig (auxSrc 36) m = false)) ∧
    (∃ (c : CtxId) (v : Word) (s : State), (s.MemOk) ∧ (s.Serves c Off.AUX_CAL_CTL true) ∧ (v.getLsbD 31 = true) ∧ (v.getLsbD 30 = false) ∧ (s.aux.cal ≠ none)) ∧
    (∃ (c : CtxId) (v : Word) (s : State), (s.MemOk) ∧ (s.Serves c Off.AUX_CAL_CTL true) ∧ (v.getLsbD 31 = false) ∧ (v.getLsbD 30 = true) ∧ (s.aux.cal = none)) ∧
    (∃ (c : CtxId) (v : Word) (s : State), (s.MemOk) ∧ (s.Serves c Off.AUX_CAL_CTL true) ∧ (v.getLsbD 31 = false) ∧ (v.getLsbD 30 = true) ∧ (s.aux.cal ≠ none) ∧ (∀ m : Fin 4, s.injTrig (auxSrc 36) m = false)) :=
  ⟨⟨wAuxScansAndExcitation0.1, wAuxScansAndExcitation0.2, by decide +kernel⟩,
   ⟨wAuxScansAndExcitation1.1, wAuxScansAndExcitation1.2, memOk_of _ (by decide +kernel), (by decide +kernel), (by decide +kernel), (by decide +kernel), (by decide +kernel), (by decide +kernel)⟩,
   ⟨wAuxScansAndExcitation2.1, wAuxScansAndExcitation2.2, by decide +kernel⟩,
   ⟨wAuxScansAndExcitation3.1, wAuxScansAndExcitation3.2.1, wAuxScansAndExcitation3.2.2, memOk_of _ (by decide +kernel), (by unfold State.Serves; decide +kernel), (by decide +kernel), (by decide +kernel), (by decide +kernel), (by decide +kernel), (by decide +kernel)⟩,
   ⟨wAuxScansAndExcitation4.1, wAuxScansAndExcitation4.2.1, wAuxScansAndExcitation4.2.2, memOk_of _ (by decide +kernel), (by unfold State.Serves; decide +kernel), (by decide +kernel)⟩,
   ⟨wAuxScansAndExcitation5.1, wAuxScansAndExcitation5.2.1, wAuxScansAndExcitation5.2.2, by decide +kernel⟩,
   ⟨wAuxScansAndExcitation6.1, wAuxScansAndExcitation6.2.1, wAuxScansAndExcitation6.2.2, memOk_of _ (by decide +kernel), (by decide +kernel), (by decide +kernel), (by decide +kernel)⟩,
   ⟨wAuxScansAndExcitation7.1, wAuxScansAndExcitation7.2.1, wAuxScansAndExcitation7.2.2, memOk_of _ (by decide +kernel), (by decide +kernel), (by decide +kernel), (by decide +kernel), (by decide +kernel), (by decide +kernel)⟩,
   ⟨wAuxScansAndExcitation8.1, wAuxScansAndExcitation8.2, memOk_of _ (by decide +kernel)⟩,
   ⟨wAuxScansAndExcitation9.1, wAuxScansAndExcitation9.2, memOk_of _ (by decide +kernel)⟩,
   ⟨wAuxScansAndExcitation10.1, wAuxScansAndExcitation10.2.1, wAuxScansAndExcitation10.2.2, memOk_of _ (by decide +kernel), (by decide +kernel)⟩,
   ⟨wAuxScansAndExcitation11.1, wAuxScansAndExcitation11.2.1, wAuxScansAndExcitation11.2.2, memOk_of _ (by decide +kernel)⟩,
   ⟨wAuxScansAndExcitation12.1, wAuxScansAndExcitation12.2.1, wAuxScansAndExcitation12.2.2, memOk_of _ (by decide +kernel), (by unfold State.Serves; decide +kernel)⟩,
   ⟨wAuxScansAndExcitation13.1, wAuxScansAndExcitation13.2.1, wAuxScansAndExcitation13.2.2.1, wAuxScansAndExcitation13.2.2.2, memOk_of _ (by decide +kernel), (by unfold State.Serves; decide +kernel), (by decide +kernel)⟩,
   ⟨wAuxScansAndExcitation14.1, wAuxScansAndExcitation14.2.1, wAuxScansAndExcitation14.2.2.1, wAuxScansAndExcitation14.2.2.2, memOk_of _ (by decide +kernel), (by unfold State.Serves; decide +kernel), (by decide +kernel), (by decide +kernel)⟩,
   ⟨wAuxScansAndExcitation15.1, wAuxScansAndExcitation15.2.1, wAuxScansAndExcitation15.2.2, memOk_of _ (by decide +kernel), (by unfold State.Serves; decide +kernel), (by decide +kernel), (by decide +kernel), (by decide +kernel)⟩,
   ⟨wAuxScansAndExcitation16.1, wAuxScansAndExcitation16.2.1, wAuxScansAndExcitation16.2.2, memOk_of _ (by decide +kernel), (by unfold State.Serves; decide +kernel), (by decide +kernel), (by decide +kernel), (by decide +kernel)⟩,
   ⟨wAuxScansAndExcitation17.1, wAuxScansAndExcitation17.2.1, wAuxScansAndExcitation17.2.2, memOk_of _ (by decide +kernel), (by unfold State.Serves; decide +kernel), (by decide +kernel), (by decide +kernel), (by decide +kernel)⟩,
   ⟨wAuxScansAndExcitation18.1, wAuxScansAndExcitation18.2.1, wAuxScansAndExcitation18.2.2, memOk_of _ (by decide +kernel), (by unfold State.Serves; decide +kernel), (by decide +kernel), (by decide +kernel), (by decide +kernel), (by decide +kernel)⟩⟩
def wEventQueues0 : CtxId × QueueId × State × DWord × List DWord :=
  let c : CtxId := 0
  let q : QueueId := 0
  let s : State := State.reset
  let w : DWord := 0
  let r : List DWord := []
  let s := own { s with regs := [], link := { s.link with d3hot := false, perst := false } }
  let w : Nat := 0
  let k : Nat := 0
  let en : Nat := 0
  let s := s.setReg 0 (qoff Off.EVQ_CTL q) (256 * (w % 2) + en)
  let s := s.setReg 0 (qoff Off.EVQ_LEVEL q) (w % 4)
  let s := s.updQueue q (fun x => { x with words := ((List.range k).flatMap (fun i => [BitVec.ofNat 64 (2^63 + i), BitVec.ofNat 64 (2^63 + 2^62 + i)])), counter := 2 * k })
  let s := s.updQueue q (fun x => { x with words := [5, 0xC000000000000000] })
  let w : DWord := 5
  let r : List DWord := [0xC000000000000000]
  (c, q, s, w, r)
def wEventQueues1 : CtxId × QueueId × State :=
  let c : CtxId := 0
  let q : QueueId := 0
  let s : State := State.reset
  let s := own { s with regs := [], link := { s.link with d3hot := false, perst := false } }
  let w : Nat := 0
  let k : Nat := 0
  let en : Nat := 0
  let s := s.setReg 0 (qoff Off.EVQ_CTL q) (256 * (w % 2) + en)
  let s := s.setReg 0 (qoff Off.EVQ_LEVEL q) (w % 4)
  let s := s.updQueue q (fun x => { x with words := ((List.range k).flatMap (fun i => [BitVec.ofNat 64 (2^63 + i), BitVec.ofNat 64 (2^63 + 2^62 + i)])), counter := 2 * k })
  let s := s.updQueue q (fun x => { x with words := [5] })
  (c, q, s)
def wEventQueues2 : CtxId × QueueId × Word × State :=
  let c : CtxId := 0
  let q : QueueId := 0
  let v : Word := 0
  let s : State := State.reset
  let s := own { s with regs := [], link := { s.link with d3hot := false, perst := false } }
  let w : Nat := 0
  let k : Nat := 0
  let en : Nat := 0
  let s := s.setReg 0 (qoff Off.EVQ_CTL q) (256 * (w % 2) + en)
  let s := s.setReg 0 (qoff Off.EVQ_LEVEL q) (w % 4)
  let s := s.updQueue q (fun x => { x with words := ((List.range k).flatMap (fun i => [BitVec.ofNat 64 (2^63 + i), BitVec.ofNat 64 (2^63 + 2^62 + i)])), counter := 2 * k })
  let s := s.setReg 0 (qoff Off.EVQ_RING_BASE_LO q) (if w % 3 == 0 then 64 else 4096)
  (c, q, v, s)
def wEventQueues3 : CtxId × QueueId × Word × State :=
  let c : CtxId := 0
  let q : QueueId := 0
  let v : Word := 0
  let s : State := State.reset
  let s := own { s with regs := [], link := { s.link with d3hot := false, perst := false } }
  let w : Nat := 0
  let k : Nat := 0
  let en : Nat := 0
  let s := s.setReg 0 (qoff Off.EVQ_CTL q) (256 * (w % 2) + en)
  let s := s.setReg 0 (qoff Off.EVQ_LEVEL q) (w % 4)
  let s := s.updQueue q (fun x => { x with words := ((List.range k).flatMap (fun i => [BitVec.ofNat 64 (2^63 + i), BitVec.ofNat 64 (2^63 + 2^62 + i)])), counter := 2 * k })
  let s := s.setReg 0 (qoff Off.EVQ_RING_BASE_LO q) (if w % 3 == 0 then 64 else 4096)
  (c, q, v, s)
def wEventQueues4 : CtxId × QueueId × DWord × State :=
  let c : CtxId := 0
  let q : QueueId := 0
  let v : DWord := 0
  let s : State := State.reset
  let s := own { s with regs := [], link := { s.link with d3hot := false, perst := false } }
  let w : Nat := 0
  let k : Nat := 0
  let en : Nat := 0
  let s := s.setReg 0 (qoff Off.EVQ_CTL q) (256 * (w % 2) + en)
  let s := s.setReg 0 (qoff Off.EVQ_LEVEL q) (w % 4)
  let s := s.updQueue q (fun x => { x with words := ((List.range k).flatMap (fun i => [BitVec.ofNat 64 (2^63 + i), BitVec.ofNat 64 (2^63 + 2^62 + i)])), counter := 2 * k })
  let s := s.setReg 0 (qoff Off.EVQ_CTL q) 0
  (c, q, v, s)
def wEventQueues5 : CtxId × QueueId × DWord × State :=
  let c : CtxId := 0
  let q : QueueId := 0
  let v : DWord := 0
  let s : State := State.reset
  let s := own { s with regs := [], link := { s.link with d3hot := false, perst := false } }
  let w : Nat := 0
  let k : Nat := 0
  let en : Nat := 0
  let s := s.setReg 0 (qoff Off.EVQ_CTL q) (256 * (w % 2) + en)
  let s := s.setReg 0 (qoff Off.EVQ_LEVEL q) (w % 4)
  let s := s.updQueue q (fun x => { x with words := ((List.range k).flatMap (fun i => [BitVec.ofNat 64 (2^63 + i), BitVec.ofNat 64 (2^63 + 2^62 + i)])), counter := 2 * k })
  let s := s.setReg 0 (qoff Off.EVQ_CTL q) 0
  (c, q, v, s)
def wEventQueues6 : CtxId × QueueId × Bool × DWord × State :=
  let c : CtxId := 0
  let q : QueueId := 0
  let size : Bool := false
  let v : DWord := 0
  let s : State := State.reset
  let s := own { s with regs := [], link := { s.link with d3hot := false, perst := false } }
  let w : Nat := 0
  let k : Nat := 0
  let en : Nat := 0
  let s := s.setReg 0 (qoff Off.EVQ_CTL q) (256 * (w % 2) + en)
  let s := s.setReg 0 (qoff Off.EVQ_LEVEL q) (w % 4)
  let s := s.updQueue q (fun x => { x with words := ((List.range k).flatMap (fun i => [BitVec.ofNat 64 (2^63 + i), BitVec.ofNat 64 (2^63 + 2^62 + i)])), counter := 2 * k })
  let s := s.setReg 0 (qoff Off.EVQ_CTL q) 1
  (c, q, size, v, s)
def wEventQueues7 : CtxId × QueueId × Word × State × Nat :=
  let c : CtxId := 0
  let q : QueueId := 0
  let v : Word := 0
  let s : State := State.reset
  let size : Nat := 0
  let s := own { s with regs := [], link := { s.link with d3hot := false, perst := false } }
  let w : Nat := 0
  let k : Nat := 0
  let en : Nat := 0
  let s := s.setReg 0 (qoff Off.EVQ_CTL q) (256 * (w % 2) + en)
  let s := s.setReg 0 (qoff Off.EVQ_LEVEL q) (w % 4)
  let s := s.updQueue q (fun x => { x with words := ((List.range k).flatMap (fun i => [BitVec.ofNat 64 (2^63 + i), BitVec.ofNat 64 (2^63 + 2^62 + i)])), counter := 2 * k })
  let s := s.updQueue q (fun x => { x with words := [], ringHead := x.ringHead % 64, ringTail := x.ringTail % 64, ringEnds := x.ringEnds.map (· % 64) })
  let size := 64
  let v : Word := BitVec.ofNat 32 0
  (c, q, v, s, size)
def wEventQueues8 : CtxId × QueueId × Word × State × Nat × List DWord :=
  let c : CtxId := 0
  let q : QueueId := 0
  let v : Word := 0
  let s : State := State.reset
  let size : Nat := 0
  let p : List DWord := []
  let s := own { s with regs := [], link := { s.link with d3hot := false, perst := false } }
  let w : Nat := 0
  let k : Nat := 0
  let en : Nat := 0
  let s := s.setReg 0 (qoff Off.EVQ_CTL q) (256 * (w % 2) + en)
  let s := s.setReg 0 (qoff Off.EVQ_LEVEL q) (w % 4)
  let s := s.updQueue q (fun x => { x with words := ((List.range k).flatMap (fun i => [BitVec.ofNat 64 (2^63 + i), BitVec.ofNat 64 (2^63 + 2^62 + i)])), counter := 2 * k })
  let size := 64
  let s := (s.setReg 0 (qoff Off.EVQ_CTL q) (65536 + 256 * (w % 2) + en)).setReg 0 (qoff Off.EVQ_RING_BASE_LO q) 0x7000
  let p : List DWord := [0x9000000000000001, 0xC000000000000005]
  let s := s.updQueue q (fun x => { x with words := p, counter := 2, ringHead := 61, ringTail := 60, ringEnds := [62, 60] })
  let s := s.updQueue q (fun x => { x with ringTail := (58 + w % 3) % 64, ringHead := (60 + w % 3) % 64 })
  let v : Word := BitVec.ofNat 32 ((60 + w % 3 + 5) % 64)
  (c, q, v, s, size, p)
def wEventQueues9 : CtxId × QueueId × Word × State × Nat :=
  let c : CtxId := 1
  let q : QueueId := 63
  let v : Word := 7
  let s : State := State.reset
  let size : Nat := 28
  let s := own { s with regs := [], link := { s.link with d3hot := false, perst := false } }
  let w : Nat := 3703
  let k : Nat := 0
  let en : Nat := 0
  let s := s.setReg 0 (qoff Off.EVQ_CTL q) (256 * (w % 2) + en)
  let s := s.setReg 0 (qoff Off.EVQ_LEVEL q) (w % 4)
  let s := s.updQueue q (fun x => { x with words := ((List.range k).flatMap (fun i => [BitVec.ofNat 64 (2^63 + i), BitVec.ofNat 64 (2^63 + 2^62 + i)])), counter := 2 * k })
  let s := s.updQueue q (fun x => { x with ringHead := x.ringHead % 64, ringTail := x.ringTail % 64 })
  let size := 64
  let v : Word := BitVec.ofNat 32 5
  (c, q, v, s, size)
def wEventQueues10 : CtxId × QueueId × Word × State :=
  let c : CtxId := 0
  let q : QueueId := 0
  let v : Word := 0
  let s : State := State.reset
  let s := own { s with regs := [], link := { s.link with d3hot := false, perst := false } }
  let w : Nat := 0
  let k : Nat := 0
  let en : Nat := 0
  let s := s.setReg 0 (qoff Off.EVQ_CTL q) (256 * (w % 2) + en)
  let s := s.setReg 0 (qoff Off.EVQ_LEVEL q) (w % 4)
  let s := s.updQueue q (fun x => { x with words := ((List.range k).flatMap (fun i => [BitVec.ofNat 64 (2^63 + i), BitVec.ofNat 64 (2^63 + 2^62 + i)])), counter := 2 * k })
  (c, q, v, s)
def wEventQueues11 : CtxId × Fin 1536 × Word × State :=
  let c : CtxId := 0
  let src : Fin 1536 := 0
  let v : Word := 0
  let s : State := State.reset
  let s := own { s with regs := [] }
  (c, src, v, s)
def wEventQueues12 : QueueId × Nat × State :=
  let q : QueueId := 0
  let n : Nat := 0
  let s : State := State.reset
  let s := own { s with regs := [], link := { s.link with d3hot := false, perst := false } }
  let w : Nat := 0
  let k : Nat := 0
  let en : Nat := 0
  let s := s.setReg 0 (qoff Off.EVQ_CTL q) (256 * (w % 2) + en)
  let s := s.setReg 0 (qoff Off.EVQ_LEVEL q) (w % 4)
  let s := s.updQueue q (fun x => { x with words := ((List.range k).flatMap (fun i => [BitVec.ofNat 64 (2^63 + i), BitVec.ofNat 64 (2^63 + 2^62 + i)])), counter := 2 * k })
  let q3 : Nat := 0
  let s := s.updQueue q (fun x => { x with flight := [] })
  let s := if q3 == 0 then { s with pend := [] } else s
  let s := s.setReg 0 (qoff Off.EVQ_CTL q) 0
  (q, n, s)
def wEventQueues13 : QueueId × Nat × State × Nat × Pend :=
  let q : QueueId := 0
  let n : Nat := 0
  let s : State := State.reset
  let src : Nat := 0
  let e : Pend := dPend
  let s := own { s with regs := [], link := { s.link with d3hot := false, perst := false } }
  let w : Nat := 0
  let k : Nat := 0
  let en : Nat := 0
  let s := s.setReg 0 (qoff Off.EVQ_CTL q) (256 * (w % 2) + en)
  let s := s.setReg 0 (qoff Off.EVQ_LEVEL q) (w % 4)
  let s := s.updQueue q (fun x => { x with words := ((List.range k).flatMap (fun i => [BitVec.ofNat 64 (2^63 + i), BitVec.ofNat 64 (2^63 + 2^62 + i)])), counter := 2 * k })
  let src : Nat := 0
  let e : Pend := dPend
  let e := { e with arg0 := e.arg0 % 2 ^ 32, arg1 := (if w % 2 == 0 then none else some (w % 2 ^ 32)), count := 1 + e.count % 60000, time := e.time % 2 ^ 50 }
  let s := { s with pend := [(src, some e)] ++ (if src < 1400 then [(src + 100, some { e with time := e.time + (w % 2) })] else []) }
  let s := (s.setReg 0 (Off.EVT_ROUTE + 4 * src) (2147483648 + q.val)).setReg 0 (Off.EVT_ROUTE + 4 * (src + 100)) (2147483648 + q.val)
  let s := s.updQueue q (fun x => { x with flight := [], discard := false, owes := false })
  let n := 2 + n % 4
  let s := s.updQueue q (fun x => { x with words := List.replicate 63 0 })
  (q, n, s, src, e)
def wEventQueues14 : QueueId × Nat × State × Nat × Pend :=
  let q : QueueId := 0
  let n : Nat := 0
  let s : State := State.reset
  let src : Nat := 0
  let e : Pend := dPend
  let s := own { s with regs := [], link := { s.link with d3hot := false, perst := false } }
  let w : Nat := 0
  let k : Nat := 0
  let en : Nat := 0
  let s := s.setReg 0 (qoff Off.EVQ_CTL q) (256 * (w % 2) + en)
  let s := s.setReg 0 (qoff Off.EVQ_LEVEL q) (w % 4)
  let s := s.updQueue q (fun x => { x with words := ((List.range k).flatMap (fun i => [BitVec.ofNat 64 (2^63 + i), BitVec.ofNat 64 (2^63 + 2^62 + i)])), counter := 2 * k })
  let src : Nat := 0
  let e : Pend := dPend
  let e := { e with arg0 := e.arg0 % 2 ^ 32, arg1 := (if w % 2 == 0 then none else some (w % 2 ^ 32)), count := 1 + e.count % 60000, time := e.time % 2 ^ 50 }
  let s := { s with pend := [(src, some e)] ++ (if src < 1400 then [(src + 100, some { e with time := e.time + (w % 2) })] else []) }
  let s := (s.setReg 0 (Off.EVT_ROUTE + 4 * src) (2147483648 + q.val)).setReg 0 (Off.EVT_ROUTE + 4 * (src + 100)) (2147483648 + q.val)
  let s := s.updQueue q (fun x => { x with flight := [], discard := false, owes := false })
  let n := 2 + n % 4
  let s := s.setReg 0 (qoff Off.EVQ_CTL q) (256 * (w % 2) + 1)
  (q, n, s, src, e)
def wEventQueues15 : QueueId × Nat × State × Pend :=
  let q : QueueId := 0
  let n : Nat := 0
  let s : State := State.reset
  let e : Pend := dPend
  let s := own { s with regs := [], link := { s.link with d3hot := false, perst := false } }
  let w : Nat := 0
  let k : Nat := 0
  let en : Nat := 0
  let s := s.setReg 0 (qoff Off.EVQ_CTL q) (256 * (w % 2) + en)
  let s := s.setReg 0 (qoff Off.EVQ_LEVEL q) (w % 4)
  let s := s.updQueue q (fun x => { x with words := ((List.range k).flatMap (fun i => [BitVec.ofNat 64 (2^63 + i), BitVec.ofNat 64 (2^63 + 2^62 + i)])), counter := 2 * k })
  let src : Nat := 0
  let e : Pend := dPend
  let e := { e with arg0 := e.arg0 % 2 ^ 32, arg1 := (if w % 2 == 0 then none else some (w % 2 ^ 32)), count := 1 + e.count % 60000, time := e.time % 2 ^ 50 }
  let s := { s with pend := [(src, some e)] ++ (if src < 1400 then [(src + 100, some { e with time := e.time + (w % 2) })] else []) }
  let s := (s.setReg 0 (Off.EVT_ROUTE + 4 * src) (2147483648 + q.val)).setReg 0 (Off.EVT_ROUTE + 4 * (src + 100)) (2147483648 + q.val)
  let s := s.updQueue q (fun x => { x with flight := [], discard := false, owes := false })
  let n := 2 + n % 4
  let n := 1
  let s := s.updQueue q (fun x => { x with owes := true })
  let s := { s with pend := [(7, some { e with time := 0 }), (1408 + q.val, some e)] }
  let s := ((s.setReg 0 (Off.EVT_ROUTE + 4 * 7) (2147483648 + q.val)).setReg 0 (Off.EVT_ROUTE + 4 * (1408 + q.val)) (2147483648 + q.val)).setReg 0 (qoff Off.EVQ_CTL q) (256 * (w % 2) + 1)
  (q, n, s, e)
def wEventQueues16 : QueueId × Nat × State × List DWord × List DWord :=
  let q : QueueId := 0
  let n : Nat := 0
  let s : State := State.reset
  let a : List DWord := []
  let b : List DWord := []
  let s := own { s with regs := [], link := { s.link with d3hot := false, perst := false } }
  let w : Nat := 0
  let k : Nat := 0
  let en : Nat := 0
  let s := s.setReg 0 (qoff Off.EVQ_CTL q) (256 * (w % 2) + en)
  let s := s.setReg 0 (qoff Off.EVQ_LEVEL q) (w % 4)
  let s := s.updQueue q (fun x => { x with words := ((List.range k).flatMap (fun i => [BitVec.ofNat 64 (2^63 + i), BitVec.ofNat 64 (2^63 + 2^62 + i)])), counter := 2 * k })
  let n := 1 + n % 2
  let a : List DWord := (List.range n).map (fun i => BitVec.ofNat 64 (i + 7))
  let b : List DWord := [BitVec.ofNat 64 (2 ^ 62)]
  let s := s.updQueue q (fun x => { x with flight := a ++ b, discard := false })
  (q, n, s, a, b)
def wEventQueues17 : QueueId × Nat × State :=
  let q : QueueId := 0
  let n : Nat := 0
  let s : State := State.reset
  let s := own { s with regs := [], link := { s.link with d3hot := false, perst := false } }
  let w : Nat := 0
  let k : Nat := 0
  let en : Nat := 0
  let s := s.setReg 0 (qoff Off.EVQ_CTL q) (256 * (w % 2) + en)
  let s := s.setReg 0 (qoff Off.EVQ_LEVEL q) (w % 4)
  let s := s.updQueue q (fun x => { x with words := ((List.range k).flatMap (fun i => [BitVec.ofNat 64 (2^63 + i), BitVec.ofNat 64 (2^63 + 2^62 + i)])), counter := 2 * k })
  let n := 1 + n % 3
  let a : List DWord := (List.range (n - 1)).map (fun i => BitVec.ofNat 64 (i + 7))
  let s := s.setReg 0 (qoff Off.EVQ_CTL q) (256 * (w % 2) + 1)
  let s := s.updQueue q (fun x => { x with flight := a ++ [BitVec.ofNat 64 (2 ^ 62 + 3)], discard := false })
  (q, n, s)
def wEventQueues18 : QueueId × Nat × State × Nat × Pend × Nat :=
  let q : QueueId := 0
  let n : Nat := 0
  let s : State := State.reset
  let src : Nat := 0
  let e : Pend := dPend
  let size : Nat := 0
  let s := own { s with regs := [], link := { s.link with d3hot := false, perst := false } }
  let w : Nat := 0
  let k : Nat := 0
  let en : Nat := 0
  let s := s.setReg 0 (qoff Off.EVQ_CTL q) (256 * (w % 2) + en)
  let s := s.setReg 0 (qoff Off.EVQ_LEVEL q) (w % 4)
  let s := s.updQueue q (fun x => { x with words := ((List.range k).flatMap (fun i => [BitVec.ofNat 64 (2^63 + i), BitVec.ofNat 64 (2^63 + 2^62 + i)])), counter := 2 * k })
  let src : Nat := 0
  let e : Pend := dPend
  let e := { e with arg0 := e.arg0 % 2 ^ 32, arg1 := (if w % 2 == 0 then none else some (w % 2 ^ 32)), count := 1 + e.count % 60000, time := e.time % 2 ^ 50 }
  let s := { s with pend := [(src, some e)] ++ (if src < 1400 then [(src + 100, some { e with time := e.time + (w % 2) })] else []) }
  let s := (s.setReg 0 (Off.EVT_ROUTE + 4 * src) (2147483648 + q.val)).setReg 0 (Off.EVT_ROUTE + 4 * (src + 100)) (2147483648 + q.val)
  let s := s.updQueue q (fun x => { x with flight := [], discard := false, owes := false })
  let n := 2 + n % 4
  let s := (s.setReg 0 (qoff Off.EVQ_CTL q) (65536 + 256 * (w % 2) + 1)).setReg 0 (qoff Off.EVQ_RING_BASE_LO q) 0x7000
  let size := 64
  let s := s.updQueue q (fun x => { x with words := [], counter := 0, ringTail := 10 + w % 3, ringHead := 12, ringEnds := [9] })
  let s := s.updQueue q (fun x => { x with ringHead := x.ringTail + 1 + w % 2 })
  (q, n, s, src, e, size)
def wEventQueues19 : QueueId × Nat × State :=
  let q : QueueId := 0
  let n : Nat := 0
  let s : State := State.reset
  let s := own { s with regs := [], link := { s.link with d3hot := false, perst := false } }
  let w : Nat := 0
  let k : Nat := 0
  let en : Nat := 0
  let s := s.setReg 0 (qoff Off.EVQ_CTL q) (256 * (w % 2) + en)
  let s := s.setReg 0 (qoff Off.EVQ_LEVEL q) (w % 4)
  let s := s.updQueue q (fun x => { x with words := ((List.range k).flatMap (fun i => [BitVec.ofNat 64 (2^63 + i), BitVec.ofNat 64 (2^63 + 2^62 + i)])), counter := 2 * k })
  let n := 1 + n % 3
  let s := s.updQueue q (fun x => { x with flight := [1, BitVec.ofNat 64 (2 ^ 62)], discard := true })
  (q, n, s)
def wEventQueues20 : QueueId × Nat × State × Nat × Pend × Nat :=
  let q : QueueId := 0
  let n : Nat := 0
  let s : State := State.reset
  let src : Nat := 0
  let e : Pend := dPend
  let size : Nat := 0
  let s := own { s with regs := [], link := { s.link with d3hot := false, perst := false } }
  let w : Nat := 0
  let k : Nat := 0
  let en : Nat := 0
  let s := s.setReg 0 (qoff Off.EVQ_CTL q) (256 * (w % 2) + en)
  let s := s.setReg 0 (qoff Off.EVQ_LEVEL q) (w % 4)
  let s := s.updQueue q (fun x => { x with words := ((List.range k).flatMap (fun i => [BitVec.ofNat 64 (2^63 + i), BitVec.ofNat 64 (2^63 + 2^62 + i)])), counter := 2 * k })
  let src : Nat := 0
  let e : Pend := dPend
  let e := { e with arg0 := e.arg0 % 2 ^ 32, arg1 := (if w % 2 == 0 then none else some (w % 2 ^ 32)), count := 1 + e.count % 60000, time := e.time % 2 ^ 50 }
  let s := { s with pend := [(src, some e)] ++ (if src < 1400 then [(src + 100, some { e with time := e.time + (w % 2) })] else []) }
  let s := (s.setReg 0 (Off.EVT_ROUTE + 4 * src) (2147483648 + q.val)).setReg 0 (Off.EVT_ROUTE + 4 * (src + 100)) (2147483648 + q.val)
  let s := s.updQueue q (fun x => { x with flight := [], discard := false, owes := false })
  let n := 2 + n % 4
  let s := (s.setReg 0 (qoff Off.EVQ_CTL q) (65536 + 256 * (w % 2) + 1)).setReg 0 (qoff Off.EVQ_RING_BASE_LO q) 0x7000
  let size := 64
  let s := s.updQueue q (fun x => { x with words := [], counter := 0, ringTail := (x.ringTail % 2) * 3 + 59 + x.ringTail % 4, ringHead := x.ringHead % 50 })
  let s := s.updQueue q (fun x => { x with ringTail := x.ringTail % 64 })
  (q, n, s, src, e, size)
def wEventQueues21 : Fin 512 × DWord × Word × Bool × State :=
  let v : Fin 512 := 0
  let addr : DWord := 0
  let data : Word := 0
  let mask : Bool := false
  let s : State := State.reset
  let q : Nat := 0
  let s := { s with msiPend := (if q == 0 then [] else [(v.val, true)]), msiUnmasked := [], link := { s.link with d3hot := false, perst := false } }
  (v, addr, data, mask, s)
def wEventQueues22 : Bool × Bool × State :=
  let enable : Bool := false
  let mask : Bool := false
  let s : State := State.reset
  let q : Nat := 0
  let s := { s with msiPend := (if q == 0 then [] else [(3, true), (17, true)]), msiUnmasked := (if q == 1 then [(17, true)] else [(3, true), (17, true)]), link := { s.link with d3hot := false, perst := false } }
  (enable, mask, s)
def wEventQueues23 : QueueId × Nat × State :=
  let q : QueueId := 0
  let t0 : Nat := 0
  let s : State := State.reset
  let s := own { s with regs := [], link := { s.link with d3hot := false, perst := false } }
  let w : Nat := 0
  let k : Nat := 0
  let en : Nat := 0
  let s := s.setReg 0 (qoff Off.EVQ_CTL q) (256 * (w % 2) + en)
  let s := s.setReg 0 (qoff Off.EVQ_LEVEL q) (w % 4)
  let s := s.updQueue q (fun x => { x with words := ((List.range k).flatMap (fun i => [BitVec.ofNat 64 (2^63 + i), BitVec.ofNat 64 (2^63 + 2^62 + i)])), counter := 2 * k })
  (q, t0, s)
def wEventQueues24 : State × Nat × (List (Nat × Nat)) × State :=
  let s : State := State.reset
  let src : Nat := 0
  let items : List (Nat × Nat) := []
  let t : State := State.reset
  let src : Nat := 0
  let q0 : Nat := 0
  let q1 : Nat := 0
  let s := { s with regs := [], pend := if q0 == 0 then [] else [(src, some { arg0 := 5, arg1 := none, time := 3, count := if q0 == 1 then 2 else 65535 })] }
  let s := if q1 == 0 then s else s.setReg 0 (Off.EVT_ROUTE + 4 * src) (2147483648 + q1)
  let items := [(8, q0), (16, 70000), (32, 9)]
  let t := s.raise src items
  (s, src, items, t)
def wEventQueues26 : Fin 8 × State :=
  let n : Fin 8 := 0
  let s : State := State.reset
  let src : Nat := 0
  let q0 : Nat := 0
  let q1 : Nat := 0
  let s := { s with regs := [], pend := if q0 == 0 then [] else [(src, some { arg0 := 5, arg1 := none, time := 3, count := if q0 == 1 then 2 else 65535 })] }
  let s := if q1 == 0 then s else s.setReg 0 (Off.EVT_ROUTE + 4 * src) (2147483648 + q1)
  let s := if q1 == 0 then { s with pend := [] } else { s with pend := [(auxSrc 38, some { arg0 := 5, arg1 := none, time := 3, count := 2 })] }
  let s := if q0 == 0 then s else s.setReg 0 (Off.EVT_ROUTE + 4 * auxSrc 38) (2147483648 + q1)
  (n, s)
/-- The conditions of each clause of `Obligations.EventQueues` are met. -/
theorem test_meets_EventQueues :
    (∃ (c : CtxId) (q : QueueId) (s : State) (w : DWord) (r : List DWord), (s.Serves c (Off.EVQ_POP_LO + 64 * q.val) false) ∧ ((s.queue q).words = w :: r) ∧ ((s.queue q).packets ≠ 0) ∧ (s.qHost q = false)) ∧
    (∃ (c : CtxId) (q : QueueId) (s : State), (s.Serves c (Off.EVQ_POP_LO + 64 * q.val) false) ∧ ((s.queue q).words = [] ∨ (s.queue q).packets = 0 ∨ s.qHost q = true)) ∧
    (∃ (c : CtxId) (q : QueueId) (v : Word) (s : State), (s.MemOk) ∧ (s.Serves c ((qoff Off.EVQ_CTL q)) true)) ∧
    (∃ (c : CtxId) (q : QueueId) (v : Word) (s : State), (s.MemOk) ∧ (s.Serves c ((qoff Off.EVQ_CTL q)) true)) ∧
    (∃ (c : CtxId) (q : QueueId) (v : DWord) (s : State), (s.MemOk) ∧ (s.Serves c (Off.EVQ_RING_BASE_LO + 64 * q.val) true) ∧ (s.qEn q = false)) ∧
    (∃ (c : CtxId) (q : QueueId) (v : DWord) (s : State), (s.MemOk) ∧ (s.Serves c (Off.EVQ_RING_SIZE + 64 * q.val) true) ∧ (s.qEn q = false)) ∧
    (∃ (c : CtxId) (q : QueueId) (size : Bool) (v : DWord) (s : State), (s.Serves c (Off.EVQ_RING_BASE_LO + 64 * q.val) true) ∧ (s.qEn q = true)) ∧
    (∃ (c : CtxId) (q : QueueId) (v : Word) (s : State) (size : Nat), (s.Serves c (Off.EVQ_RING_HEAD + 64 * q.val) true) ∧ (size = 2 ^ s.ringLog q) ∧ (fld v.toNat 15 0 < size) ∧ ((fld v.toNat 15 0 + size - (s.queue q).ringHead) % size ≤ ((s.queue q).ringTail + size - (s.queue q).ringHead) % size) ∧ ((s.queue q).words = [] ∨ s.qHost q = false)) ∧
    (∃ (c : CtxId) (q : QueueId) (v : Word) (s : State) (size : Nat) (p : List DWord), (s.MemOk) ∧ (s.Serves c (Off.EVQ_RING_HEAD + 64 * q.val) true) ∧ (size = 2 ^ s.ringLog q) ∧ (fld v.toNat 15 0 < size) ∧ ((s.queue q).ringTail < size) ∧ ((s.queue q).ringHead < size) ∧ ((fld v.toNat 15 0 + size - (s.queue q).ringHead) % size ≤ ((s.queue q).ringTail + size - (s.queue q).ringHead) % size) ∧ (s.qHost q = true) ∧ (s.link.d3hot = false) ∧ (s.link.perst = false) ∧ ((s.queue q).words = p) ∧ ((p.filter isEnd).length = 1) ∧ (p.getLast?.map isEnd = some true) ∧ (p.length ≤ (fld v.toNat 15 0 + size - 1 - (s.queue q).ringTail) % size)) ∧
    (∃ (c : CtxId) (q : QueueId) (v : Word) (s : State) (size : Nat), (s.Serves c (Off.EVQ_RING_HEAD + 64 * q.val) true) ∧ (size = 2 ^ s.ringLog q) ∧ (size ≤ fld v.toNat 15 0 ∨ ((s.queue q).ringTail + size - (s.queue q).ringHead) % size < (fld v.toNat 15 0 + size - (s.queue q).ringHead) % size)) ∧
    (∃ (c : CtxId) (q : QueueId) (v : Word) (s : State), (s.MemOk) ∧ (s.Serves c (qoff Off.EVQ_LEVEL q) true)) ∧
    (∃ (c : CtxId) (src : Fin 1536) (v : Word) (s : State), (s.MemOk) ∧ (s.Serves c (Off.EVT_ROUTE + 4 * src.val) true)) ∧
    (∃ (q : QueueId) (n : Nat) (s : State), (s.qHost q = false) ∧ (n = 0 ∨ ((s.queue q).flight = [] ∧ (s.nextSource q = none ∨ s.qEn q = false)))) ∧
    (∃ (q : QueueId) (n : Nat) (s : State) (src : Nat) (e : Pend), (s.qHost q = false) ∧ (s.nextSource q = some (src, e)) ∧ ((s.queue q).flight = []) ∧ (64 < (s.queue q).words.length + (packetWords src e).length)) ∧
    (∃ (q : QueueId) (n : Nat) (s : State) (src : Nat) (e : Pend), (s.MemOk) ∧ (s.qHost q = false) ∧ (s.qEn q = true) ∧ (s.nextSource q = some (src, e)) ∧ ((s.queue q).flight = []) ∧ ((s.queue q).discard = false) ∧ ((s.queue q).owes = false) ∧ ((packetWords src e).length ≤ n) ∧ ((s.queue q).words.length + (packetWords src e).length ≤ 64) ∧ (s.link.d3hot = false) ∧ (s.link.perst = false) ∧ (src < 1536) ∧ (e.arg0 < 2 ^ 32) ∧ (1 ≤ e.count ∧ e.count < 65536) ∧ (∀ a ∈ e.arg1, a < 2 ^ 32)) ∧
    (∃ (q : QueueId) (n : Nat) (s : State) (e : Pend), (s.MemOk) ∧ (s.qHost q = false) ∧ (s.qEn q = true) ∧ ((s.queue q).flight = []) ∧ ((s.queue q).discard = false) ∧ ((s.queue q).owes = true) ∧ (s.routeOn (1408 + q.val) = true) ∧ (s.routeQueue (1408 + q.val) = q.val) ∧ (mget noPend s.pend (1408 + q.val) = some e) ∧ (n = 1) ∧ ((s.queue q).words.length + (packetWords (1408 + q.val) e).length ≤ 64) ∧ (s.link.d3hot = false) ∧ (s.link.perst = false)) ∧
    (∃ (q : QueueId) (n : Nat) (s : State) (a : List DWord) (b : List DWord), (s.qHost q = false) ∧ ((s.queue q).flight = a ++ b) ∧ (a.length = n) ∧ (b ≠ []) ∧ ((s.queue q).discard = false)) ∧
    (∃ (q : QueueId) (n : Nat) (s : State), (s.MemOk) ∧ (s.qHost q = false) ∧ ((s.queue q).flight ≠ []) ∧ (((s.queue q).flight.filter isEnd).length = 1) ∧ ((s.queue q).flight.length ≤ n) ∧ ((s.queue q).discard = false) ∧ (s.link.d3hot = false) ∧ (s.link.perst = false)) ∧
    (∃ (q : QueueId) (n : Nat) (s : State) (src : Nat) (e : Pend) (size : Nat), (s.MemOk) ∧ (s.qHost q = true) ∧ (s.qEn q = true) ∧ (s.nextSource q = some (src, e)) ∧ ((s.queue q).flight = []) ∧ ((s.queue q).discard = false) ∧ ((packetWords src e).length ≤ n) ∧ (n ≠ 0) ∧ ((s.queue q).words = []) ∧ (size = 2 ^ s.ringLog q) ∧ ((s.queue q).ringFree size < (packetWords src e).length)) ∧
    (∃ (q : QueueId) (n : Nat) (s : State), (s.MemOk) ∧ (s.qHost q = false) ∧ ((s.queue q).flight ≠ []) ∧ ((s.queue q).discard = true)) ∧
    (∃ (q : QueueId) (n : Nat) (s : State) (src : Nat) (e : Pend) (size : Nat), (s.MemOk) ∧ (s.qHost q = true) ∧ (s.qEn q = true) ∧ (s.nextSource q = some (src, e)) ∧ ((s.queue q).flight = []) ∧ ((s.queue q).discard = false) ∧ ((packetWords src e).length ≤ n) ∧ ((s.queue q).words = []) ∧ (s.link.d3hot = false) ∧ (s.link.perst = false) ∧ (size = 2 ^ s.ringLog q) ∧ ((s.queue q).ringTail < size) ∧ ((s.queue q).ringHead < size) ∧ ((packetWords src e).length ≤ (s.queue q).ringFree size) ∧ (isEnd (BitVec.ofNat 64 (2 ^ 63 + (e.arg1.getD 0))) = false) ∧ (e.count < 65536) ∧ (e.arg0 < 2 ^ 32) ∧ (src < 2 ^ 12)) ∧
    (∃ (v : Fin 512) (addr : DWord) (data : Word) (mask : Bool) (s : State), (s.MemOk) ∧ (s.link.d3hot = false) ∧ (s.link.perst = false) ∧ (∀ e ∈ s.msiPend, e.1 = v.val ∨ e.2 = false ∨ s.vecOpen e.1 = false)) ∧
    (∃ (enable : Bool) (mask : Bool) (s : State), (s.MemOk) ∧ (s.link.d3hot = false) ∧ (s.link.perst = false)) ∧
    (∃ (q : QueueId) (t0 : Nat) (s : State), s.MemOk) ∧
    (∃ (s : State) (src : Nat) (items : List (Nat × Nat)) (t : State), (s.MemOk) ∧ (src < 1536) ∧ (src ≠ auxSrc 40) ∧ (t = s.raise src items)) ∧
    (∃ (n : Fin 8) (s : State), s.MemOk) :=
  ⟨⟨wEventQueues0.1, wEventQueues0.2.1, wEventQueues0.2.2.1, wEventQueues0.2.2.2.1, wEventQueues0.2.2.2.2, by unfold State.Serves; decide +kernel⟩,
   ⟨wEventQueues1.1, wEventQueues1.2.1, wEventQueues1.2.2, by unfold State.Serves; decide +kernel⟩,
   ⟨wEventQueues2.1, wEventQueues2.2.1, wEventQueues2.2.2.1, wEventQueues2.2.2.2, memOk_of _ (by decide +kernel), (by unfold State.Serves; decide +kernel)⟩,
   ⟨wEventQueues3.1, wEventQueues3.2.1, wEventQueues3.2.2.1, wEventQueues3.2.2.2, memOk_of _ (by decide +kernel), (by unfold State.Serves; decide +kernel)⟩,
   ⟨wEventQueues4.1, wEventQueues4.2.1, wEventQueues4.2.2.1, wEventQueues4.2.2.2, memOk_of _ (by decide +kernel), (by unfold State.Serves; decide +kernel), (by decide +kernel)⟩,
   ⟨wEventQueues5.1, wEventQueues5.2.1, wEventQueues5.2.2.1, wEventQueues5.2.2.2, memOk_of _ (by decide +kernel), (by unfold State.Serves; decide +kernel), (by decide +kernel)⟩,
   ⟨wEventQueues6.1, wEventQueues6.2.1, wEventQueues6.2.2.1, wEventQueues6.2.2.2.1, wEventQueues6.2.2.2.2, by unfold State.Serves; decide +kernel⟩,
   ⟨wEventQueues7.1, wEventQueues7.2.1, wEventQueues7.2.2.1, wEventQueues7.2.2.2.1, wEventQueues7.2.2.2.2, by unfold State.Serves; decide +kernel⟩,
   ⟨wEventQueues8.1, wEventQueues8.2.1, wEventQueues8.2.2.1, wEventQueues8.2.2.2.1, wEventQueues8.2.2.2.2.1, wEventQueues8.2.2.2.2.2, memOk_of _ (by decide +kernel), (by unfold State.Serves; decide +kernel), (by decide +kernel), (by decide +kernel), (by decide +kernel), (by decide +kernel), (by decide +kernel), (by decide +kernel), (by decide +kernel), (by decide +kernel), (by decide +kernel), (by decide +kernel), (by decide +kernel), (by decide +kernel)⟩,
   ⟨wEventQueues9.1, wEventQueues9.2.1, wEventQueues9.2.2.1, wEventQueues9.2.2.2.1, wEventQueues9.2.2.2.2, by unfold State.Serves; decide +kernel⟩,
   ⟨wEventQueues10.1, wEventQueues10.2.1, wEventQueues10.2.2.1, wEventQueues10.2.2.2, memOk_of _ (by decide +kernel), (by unfold State.Serves; decide +kernel)⟩,
   ⟨wEventQueues11.1, wEventQueues11.2.1, wEventQueues11.2.2.1, wEventQueues11.2.2.2, memOk_of _ (by decide +kernel), (by unfold State.Serves; decide +kernel)⟩,
   ⟨wEventQueues12.1, wEventQueues12.2.1, wEventQueues12.2.2, by decide +kernel⟩,
   ⟨wEventQueues13.1, wEventQueues13.2.1, wEventQueues13.2.2.1, wEventQueues13.2.2.2.1, wEventQueues13.2.2.2.2, by decide +kernel⟩,
   ⟨wEventQueues14.1, wEventQueues14.2.1, wEventQueues14.2.2.1, wEventQueues14.2.2.2.1, wEventQueues14.2.2.2.2, memOk_of _ (by decide +kernel), (by decide +kernel), (by decide +kernel), (by decide +kernel), (by decide +kernel), (by decide +kernel), (by decide +kernel), (by decide +kernel), (by decide +kernel), (by decide +kernel), (by decide +kernel), (by decide +kernel), (by decide +kernel), (by decide +kernel), (by decide +kernel)⟩,
   ⟨wEventQueues15.1, wEventQueues15.2.1, wEventQueues15.2.2.1, wEventQueues15.2.2.2, memOk_of _ (by decide +kernel), (by decide +kernel), (by decide +kernel), (by decide +kernel), (by decide +kernel), (by decide +kernel), (by decide +kernel), (by decide +kernel), (by decide +kernel), (by decide +kernel), (by decide +kernel), (by decide +kernel), (by decide +kernel)⟩,
   ⟨wEventQueues16.1, wEventQueues16.2.1, wEventQueues16.2.2.1, wEventQueues16.2.2.2.1, wEventQueues16.2.2.2.2, by decide +kernel⟩,
   ⟨wEventQueues17.1, wEventQueues17.2.1, wEventQueues17.2.2, memOk_of _ (by decide +kernel), (by decide +kernel), (by decide +kernel), (by decide +kernel), (by decide +kernel), (by decide +kernel), (by decide +kernel), (by decide +kernel)⟩,
   ⟨wEventQueues18.1, wEventQueues18.2.1, wEventQueues18.2.2.1, wEventQueues18.2.2.2.1, wEventQueues18.2.2.2.2.1, wEventQueues18.2.2.2.2.2, memOk_of _ (by decide +kernel), (by decide +kernel), (by decide +kernel), (by decide +kernel), (by decide +kernel), (by decide +kernel), (by decide +kernel), (by decide +kernel), (by decide +kernel), (by decide +kernel), (by decide +kernel)⟩,
   ⟨wEventQueues19.1, wEventQueues19.2.1, wEventQueues19.2.2, memOk_of _ (by decide +kernel), (by decide +kernel), (by decide +kernel), (by decide +kernel)⟩,
   ⟨wEventQueues20.1, wEventQueues20.2.1, wEventQueues20.2.2.1, wEventQueues20.2.2.2.1, wEventQueues20.2.2.2.2.1, wEventQueues20.2.2.2.2.2, memOk_of _ (by decide +kernel), (by decide +kernel), (by decide +kernel), (by decide +kernel), (by decide +kernel), (by decide +kernel), (by decide +kernel), (by decide +kernel), (by decide +kernel), (by decide +kernel), (by decide +kernel), (by decide +kernel), (by decide +kernel), (by decide +kernel), (by decide +kernel), (by decide +kernel), (by decide +kernel), (by decide +kernel)⟩,
   ⟨wEventQueues21.1, wEventQueues21.2.1, wEventQueues21.2.2.1, wEventQueues21.2.2.2.1, wEventQueues21.2.2.2.2, memOk_of _ (by decide +kernel), (by decide +kernel), (by decide +kernel), (by decide +kernel)⟩,
   ⟨wEventQueues22.1, wEventQueues22.2.1, wEventQueues22.2.2, memOk_of _ (by decide +kernel), (by decide +kernel), (by decide +kernel)⟩,
   ⟨wEventQueues23.1, wEventQueues23.2.1, wEventQueues23.2.2, memOk_of _ (by decide +kernel)⟩,
   ⟨wEventQueues24.1, wEventQueues24.2.1, wEventQueues24.2.2.1, wEventQueues24.2.2.2, memOk_of _ (by decide +kernel), (by decide +kernel), (by decide +kernel), (by decide +kernel)⟩,
   ⟨wEventQueues26.1, wEventQueues26.2, memOk_of _ (by decide +kernel)⟩⟩
def wJournalAndFirmware0 : CtxId × Submission × State × Nat :=
  let c : CtxId := 0
  let y : Submission := dSubmission
  let s : State := State.reset
  let first : Nat := 0
  let s := served (own (tame s)) c
  let y := sub 0 (0) (0) [5 + 0, 0, 1 + 0, 0] y
  let k : Nat := 0
  let s := { s with jrnl := { s.jrnl with ring := (List.range 3).map (fun i => { jentry 1 (i % 3) 0 with seq := 5 + i }), mem := (List.range k).map (fun i => { jentry 2 (i % 3) 1 with seq := 20 + i }), next := 30, lost := 0, ringCap := 6 } }
  let y := { y with len := 640 }
  let first := y.arg 0 + 2 ^ 32 * y.arg 1
  let s := agree s
  (c, y, s, first)
def wJournalAndFirmware1 : CtxId × Submission × State :=
  let c : CtxId := 0
  let y : Submission := dSubmission
  let s : State := State.reset
  let s := served (own (tame s)) c
  let y := sub 0 (0) (0) [5 + 0, 0, 1 + 0, 0] y
  let k : Nat := 0
  let s := { s with jrnl := { s.jrnl with ring := (List.range 3).map (fun i => { jentry 1 (i % 3) 0 with seq := 5 + i }), mem := (List.range k).map (fun i => { jentry 2 (i % 3) 1 with seq := 20 + i }), next := 30, lost := 0, ringCap := 6 } }
  let y := { y with len := 640 }
  let s := agree s
  (c, y, s)
def wJournalAndFirmware2 : State :=
  let s : State := State.reset
  (s)
def wJournalAndFirmware3 : State :=
  let s : State := State.reset
  let k : Nat := 0
  let s := { s with jrnl := { s.jrnl with ring := (List.range 3).map (fun i => { jentry 1 (i % 3) 0 with seq := 5 + i }), mem := (List.range k).map (fun i => { jentry 2 (i % 3) 1 with seq := 20 + i }), next := 30, lost := 0, ringCap := 6 } }
  let s := { s with mgt := { s.mgt with up := true } }
  (s)
def wJournalAndFirmware4 : State :=
  let s : State := State.reset
  let k : Nat := 0
  let s := { s with jrnl := { s.jrnl with ring := (List.range 3).map (fun i => { jentry 1 (i % 3) 0 with seq := 5 + i }), mem := (List.range k).map (fun i => { jentry 2 (i % 3) 1 with seq := 20 + i }), next := 30, lost := 0, ringCap := 6 } }
  let s := { s with jrnl := { s.jrnl with lost := 1 + k }, mgt := { s.mgt with up := true } }
  (s)
def wJournalAndFirmware5 : State :=
  let s : State := State.reset
  let k : Nat := 0
  let s := { s with jrnl := { s.jrnl with ring := (List.range 3).map (fun i => { jentry 1 (i % 3) 0 with seq := 5 + i }), mem := (List.range k).map (fun i => { jentry 2 (i % 3) 1 with seq := 20 + i }), next := 30, lost := 0, ringCap := 6 } }
  let s := { s with regs := [], pend := [], mgt := { s.mgt with up := true } }
  let s := s.setReg 0 (Off.EVT_ROUTE + 4 * mgtSrc 55) (2147483648 + 5)
  (s)
def wJournalAndFirmware6 : Submission × List Byte × List Byte × List Byte × Bool × State :=
  let y : Submission := dSubmission
  let data : List Byte := []
  let image : List Byte := []
  let b : List Byte := []
  let crypto : Bool := false
  let s : State := State.reset
  let c : CtxId := 0
  let s := served (own (tame s)) c
  let y := sub 0 (0) (0) [0] y
  let q : Nat := 0
  let bs : List Byte := leBytes 4 (if q == 5 then 0 else 0x4D465A4B) ++ leBytes 2 1 ++ leBytes 1 (q % 2) ++ leBytes 1 1 ++ leBytes 4 77 ++ leBytes 4 9 ++ leBytes 4 100 ++ leBytes 1 0xA0 ++ leBytes 1 0xB2 ++ leBytes 1 0x21 ++ leBytes 1 0
  let data : List Byte := if y.arg 0 == 1 then leBytes 8 1 ++ List.replicate 16 0 else bs
  let image := bs
  let b := if y.arg 0 % 2 = 1 then image else data
  let s := { s with mgt := { s.mgt with staging := none, activating := none } }
  let s := agree s
  (y, data, image, b, crypto, s)
def wJournalAndFirmware7 : Fin 2 × List Byte × Bool × State :=
  let bus : Fin 2 := 0
  let image : List Byte := []
  let crypto : Bool := false
  let s : State := State.reset
  (bus, image, crypto, s)
def wJournalAndFirmware8 : Fin 2 × List Byte × Bool × State :=
  let bus : Fin 2 := 0
  let image : List Byte := []
  let crypto : Bool := false
  let s : State := State.reset
  let s := { s with mgt := { s.mgt with activating := none, up := true, staging := some ({ component := 0, version := 1, svn := 1, flags := 0, key := 0, verified := true }, true) } }
  (bus, image, crypto, s)
def wJournalAndFirmware9 : Fin 2 × List Byte × List Byte × Bool × State :=
  let bus : Fin 2 := 0
  let image : List Byte := []
  let b : List Byte := []
  let crypto : Bool := false
  let s : State := State.reset
  let q : Nat := 0
  let bs : List Byte := leBytes 4 (if q == 5 then 0 else 0x4D465A4B) ++ leBytes 2 1 ++ leBytes 1 (q % 2) ++ leBytes 1 1 ++ leBytes 4 77 ++ leBytes 4 9 ++ leBytes 4 100 ++ leBytes 1 0xA0 ++ leBytes 1 0xB2 ++ leBytes 1 0x21 ++ leBytes 1 0
  let image := bs
  let b := bs
  let s := { s with mgt := { s.mgt with staging := none, activating := none, up := true, svnMin := 9 } }
  (bus, image, b, crypto, s)
def wJournalAndFirmware10 : Bool × State :=
  let norOk : Bool := false
  let s : State := State.reset
  let s := { s with mgt := { s.mgt with staging := none } }
  (norOk, s)
def wJournalAndFirmware11 : Bool × State :=
  let norOk : Bool := false
  let s : State := State.reset
  (norOk, s)
def wJournalAndFirmware12 : Bool × State × Image × Bool :=
  let norOk : Bool := false
  let s : State := State.reset
  let i : Image := dImage
  let k : Bool := false
  let q : Nat := 0
  let i := { i with component := i.component % 2 }
  let s := ({ s with regs := [] } : State)
  let s := s.setReg 0 Off.CLK_DOM_OK 0xFF
  let s := { s with mgt := { s.mgt with staging := some (i, k), blSlot := q, fwSlot := 1 - q } }
  (norOk, s, i, k)
def wJournalAndFirmware13 : Submission × State :=
  let y : Submission := dSubmission
  let s : State := State.reset
  let c : CtxId := 0
  let s := served (own (tame s)) c
  let y := sub 0 (0) (0) [0] y
  let s := { s with mgt := { s.mgt with svnMin := 3, revoked := s.mgt.revoked % 4, fwA := { s.mgt.fwA with verified := true, svn := 3, key := 2 }, fwB := { s.mgt.fwB with verified := true, svn := 5, key := s.mgt.fwB.key % 4 } } }
  let s := agree s
  (y, s)
def wJournalAndFirmware14 : Bool × State :=
  let ok : Bool := false
  let s : State := State.reset
  let s := { s with mgt := { s.mgt with activating := none } }
  (ok, s)
def wJournalAndFirmware15 : Bool × State × Nat :=
  let ok : Bool := false
  let s : State := State.reset
  let k : Nat := 0
  let k := k % 2
  let s := { s with mgt := { s.mgt with activating := some k } }
  (ok, s, k)
/-- The conditions of each clause of `Obligations.JournalAndFirmware` are met. -/
theorem test_meets_JournalAndFirmware :
    (∃ (c : CtxId) (y : Submission) (s : State) (first : Nat), (s.Accepts c { op := 0x30, since := 0x20, kinds := [0], slotted := false, args := [0, 1, 2, 3] } y) ∧ ((s.ctxs[c]).blk 10 false = true) ∧ (0x22 ≤ (s.ctxs[c]).zhp ∨ y.arg 3 = 0) ∧ (y.arg 2 ≠ 0) ∧ (64 * y.arg 2 ≤ y.len.toNat) ∧ (first = y.arg 0 + 2 ^ 32 * y.arg 1) ∧ (s.jrnl.oldest ≤ first)) ∧
    (∃ (c : CtxId) (y : Submission) (s : State), (s.Accepts c { op := 0x30, since := 0x20, kinds := [0], slotted := false, args := [0, 1, 2, 3] } y) ∧ ((s.ctxs[c]).blk 10 false = true) ∧ (0x22 ≤ (s.ctxs[c]).zhp ∨ y.arg 3 = 0) ∧ (y.arg 2 ≠ 0) ∧ (64 * y.arg 2 ≤ y.len.toNat) ∧ (s.jrnl.oldest ≤ y.arg 0 + 2 ^ 32 * y.arg 1)) ∧
    (∃ (s : State), s.mgt.up = false) ∧
    (∃ (s : State), (s.MemOk) ∧ (s.mgt.up = true) ∧ (s.jrnl.lost = 0)) ∧
    (∃ (s : State), (s.MemOk) ∧ (s.mgt.up = true) ∧ (s.jrnl.lost ≠ 0)) ∧
    (∃ (s : State), (s.mgt.up = true) ∧ (s.routeOn (mgtSrc 55) = true) ∧ (mget noPend s.pend (mgtSrc 55) = none)) ∧
    (∃ (y : Submission) (data : List Byte) (image : List Byte) (b : List Byte) (crypto : Bool) (s : State), (s.Accepts 0 { op := 0x38, since := 0x20, kinds := [0], slotted := false, args := [0] } y) ∧ (s.mgt.activating = none) ∧ (s.mgt.staging = none) ∧ (y.arg 0 ≤ 1) ∧ (y.arg 0 = 0 ∨ (0x32 ≤ (s.ctxs[(0 : CtxId)]).zhp ∧ extentsOk data = true)) ∧ (b = (if y.arg 0 % 2 = 1 then image else data))) ∧
    (∃ (bus : Fin 2) (image : List Byte) (crypto : Bool) (s : State), s.mgt.activating ≠ none ∨ s.mgt.up = false) ∧
    (∃ (bus : Fin 2) (image : List Byte) (crypto : Bool) (s : State), (s.mgt.staging ≠ none) ∧ (s.mgt.activating = none) ∧ (s.mgt.up = true)) ∧
    (∃ (bus : Fin 2) (image : List Byte) (b : List Byte) (crypto : Bool) (s : State), (s.mgt.staging = none) ∧ (s.mgt.activating = none) ∧ (s.mgt.up = true) ∧ (b = image)) ∧
    (∃ (norOk : Bool) (s : State), s.mgt.staging = none) ∧
    (∃ (norOk : Bool) (s : State), s.flashHeld = true) ∧
    (∃ (norOk : Bool) (s : State) (i : Image) (k : Bool), (s.MemOk) ∧ (s.flashHeld = false) ∧ (s.mgt.staging = some (i, k)) ∧ (s.mgt.blSlot < 2) ∧ (s.mgt.fwSlot < 2)) ∧
    (∃ (y : Submission) (s : State), (s.Accepts 0 { op := 0x39, since := 0x20, kinds := [0], slotted := false, args := [0] } y) ∧ (y.arg 0 ≤ 1) ∧ ((s.mgt.fw (y.arg 0)).verified = true) ∧ (s.mgt.revoked.testBit (s.mgt.fw (y.arg 0)).key = false) ∧ (s.mgt.svnMin ≤ (s.mgt.fw (y.arg 0)).svn)) ∧
    (∃ (ok : Bool) (s : State), s.mgt.activating = none) ∧
    (∃ (ok : Bool) (s : State) (k : Nat), (s.MemOk) ∧ (s.mgt.activating = some k)) :=
  ⟨⟨wJournalAndFirmware0.1, wJournalAndFirmware0.2.1, wJournalAndFirmware0.2.2.1, wJournalAndFirmware0.2.2.2, by unfold State.Accepts State.Agrees; decide +kernel⟩,
   ⟨wJournalAndFirmware1.1, wJournalAndFirmware1.2.1, wJournalAndFirmware1.2.2, by unfold State.Accepts State.Agrees; decide +kernel⟩,
   ⟨wJournalAndFirmware2, by decide +kernel⟩,
   ⟨wJournalAndFirmware3, memOk_of _ (by decide +kernel), (by decide +kernel), (by decide +kernel)⟩,
   ⟨wJournalAndFirmware4, memOk_of _ (by decide +kernel), (by decide +kernel), (by decide +kernel)⟩,
   ⟨wJournalAndFirmware5, by decide +kernel⟩,
   ⟨wJournalAndFirmware6.1, wJournalAndFirmware6.2.1, wJournalAndFirmware6.2.2.1, wJournalAndFirmware6.2.2.2.1, wJournalAndFirmware6.2.2.2.2.1, wJournalAndFirmware6.2.2.2.2.2, by unfold State.Accepts State.Agrees; decide +kernel⟩,
   ⟨wJournalAndFirmware7.1, wJournalAndFirmware7.2.1, wJournalAndFirmware7.2.2.1, wJournalAndFirmware7.2.2.2, by decide +kernel⟩,
   ⟨wJournalAndFirmware8.1, wJournalAndFirmware8.2.1, wJournalAndFirmware8.2.2.1, wJournalAndFirmware8.2.2.2, by decide +kernel⟩,
   ⟨wJournalAndFirmware9.1, wJournalAndFirmware9.2.1, wJournalAndFirmware9.2.2.1, wJournalAndFirmware9.2.2.2.1, wJournalAndFirmware9.2.2.2.2, by decide +kernel⟩,
   ⟨wJournalAndFirmware10.1, wJournalAndFirmware10.2, by decide +kernel⟩,
   ⟨wJournalAndFirmware11.1, wJournalAndFirmware11.2, by decide +kernel⟩,
   ⟨wJournalAndFirmware12.1, wJournalAndFirmware12.2.1, wJournalAndFirmware12.2.2.1, wJournalAndFirmware12.2.2.2, memOk_of _ (by decide +kernel), (by decide +kernel), (by decide +kernel), (by decide +kernel), (by decide +kernel)⟩,
   ⟨wJournalAndFirmware13.1, wJournalAndFirmware13.2, by unfold State.Accepts State.Agrees; decide +kernel⟩,
   ⟨wJournalAndFirmware14.1, wJournalAndFirmware14.2, by decide +kernel⟩,
   ⟨wJournalAndFirmware15.1, wJournalAndFirmware15.2.1, wJournalAndFirmware15.2.2, memOk_of _ (by decide +kernel), (by decide +kernel)⟩⟩
def wManagementMailboxAndSensors1 : State :=
  let s : State := State.reset
  (s)
def wManagementMailboxAndSensors2 : CtxId × Submission × List Byte × State :=
  let c : CtxId := 0
  let y : Submission := dSubmission
  let data : List Byte := []
  let s : State := State.reset
  let s := served (own (tame s)) c
  let s := { s with mgt := { s.mgt with restarting := true, up := false } }
  let y := { y with begun := true }
  (c, y, data, s)
def wManagementMailboxAndSensors3 : State :=
  let s : State := State.reset
  let s := { s with mgt := { s.mgt with restarting := true } }
  (s)
def wManagementMailboxAndSensors4 : (List (Nat × Nat × Nat × Bool)) × State :=
  let diffs : List (Nat × Nat × Nat × Bool) := []
  let s : State := State.reset
  let s := { s with mgt := { s.mgt with up := false } }
  (diffs, s)
def wManagementMailboxAndSensors5 : State :=
  let s : State := State.reset
  let s := agree s
  (s)
def wManagementMailboxAndSensors6 : Nat × Nat × Nat × Bool × State × State :=
  let k : Nat := 0
  let n : Nat := 0
  let v : Nat := 0
  let pass : Bool := false
  let s : State := State.reset
  let r : State := State.reset
  let s := agree { s with mgt := { s.mgt with up := true } }
  let k := 4 + k % 2
  let v := s.ownState k n
  let r := s.setShadow k n v
  (k, n, v, pass, s, r)
def wManagementMailboxAndSensors7 : (List (Nat × Nat × Nat × Bool)) × State × State :=
  let diffs : List (Nat × Nat × Nat × Bool) := []
  let s : State := State.reset
  let r : State := State.reset
  let v : Nat := 0
  let w : Nat := 0
  let s := agree { s with mgt := { s.mgt with up := true } }
  let diffs := [(1, 3, v, true), (5, 2, w, true), (4, 7, w, true), (2, 1, v + 1, true)].take (w + 1)
  let r := diffs.foldl (fun t d => t.setShadow d.1 d.2.1 d.2.2.1) s
  (diffs, s, r)
def wManagementMailboxAndSensors8 : UnitId × Nat × State × State × Nat × Nat :=
  let u : UnitId := 1
  let v : Nat := 15
  let s : State := State.reset
  let r : State := State.reset
  let k : Nat := 15
  let n : Nat := 28
  let k := unitTarget u / 256
  let n := unitTarget u % 256
  let s := agree { s with mgt := { s.mgt with up := true } }
  let v := v % 256
  let r := s.setShadow k n v
  (u, v, s, r, k, n)
def wManagementMailboxAndSensors9 : ChanId × Nat × State :=
  let c : ChanId := 33
  let v : Nat := 15
  let s : State := State.reset
  let s := agree { s with mgt := { s.mgt with up := true } }
  (c, v, s)
def wManagementMailboxAndSensors10 : ScriptId × Nat × State :=
  let c : ScriptId := 1
  let v : Nat := 15
  let s : State := State.reset
  let s := agree { s with mgt := { s.mgt with up := true } }
  let v := v % 8
  (c, v, s)
def wManagementMailboxAndSensors11 : CtxId × BitVec 23 × DWord × State :=
  let c : CtxId := 0
  let off : BitVec 23 := 0
  let v : DWord := 0
  let s : State := State.reset
  let off : BitVec 23 := 0x140800
  let s := own { s with regs := [] }
  let q : Nat := 0
  let v : DWord := BitVec.ofNat 64 (v.toNat % 2 ^ 32 ||| 2 ^ 31)
  let v : DWord := if q == 0 then BitVec.ofNat 64 (v.toNat / 2 ^ 16 * 2 ^ 16 + 0x2055) else v
  let s := { s with mgt := { s.mgt with mboxBusy := false } }
  (c, off, v, s)
def wManagementMailboxAndSensors12 : CtxId × BitVec 23 × DWord × State :=
  let c : CtxId := 0
  let off : BitVec 23 := 0
  let v : DWord := 0
  let s : State := State.reset
  let off : BitVec 23 := 0x140800
  let s := own { s with regs := [] }
  let q : Nat := 0
  let v : DWord := BitVec.ofNat 64 (v.toNat % 2 ^ 32 ||| 2 ^ 31)
  let v : DWord := if q == 0 then BitVec.ofNat 64 (v.toNat / 2 ^ 16 * 2 ^ 16 + 0x2055) else v
  let s := { s with mgt := { s.mgt with mboxBusy := true } }
  (c, off, v, s)
def wManagementMailboxAndSensors13 : State :=
  let s : State := State.reset
  (s)
def wManagementMailboxAndSensors14 : State :=
  let s : State := State.reset
  (s)
def wManagementMailboxAndSensors15 : State :=
  let s : State := State.reset
  (s)
def wManagementMailboxAndSensors16 : State :=
  let s : State := State.reset
  let s := { s with regs := [] }
  let q : Nat := 0
  let q2 : Nat := 0
  let s := if q2 == 0 then s else s.setReg 0 Off.CLK_DOM_OK 0xFF
  let s := { s with mgt := { s.mgt with mboxBusy := true, up := true, mboxOp := 1, mboxLen := (if q == 0 then 256 else 17), cfg := (List.range 256).map (fun i => BitVec.ofNat 8 (3 * i + 1)) } }
  let s := (s.setReg 0 Off.MGT_MBOX_DATA 0x12345678).setReg 0 (Off.MGT_MBOX_DATA + 12) 0xFFF
  (s)
def wManagementMailboxAndSensors17 : State :=
  let s : State := State.reset
  let s := { s with regs := [] }
  let q : Nat := 0
  let q2 : Nat := 0
  let s := if q2 == 0 then s else s.setReg 0 Off.CLK_DOM_OK 0xFF
  let s := { s with mgt := { s.mgt with mboxBusy := true, up := true, mboxOp := 1, mboxLen := (if q == 0 then 256 else 17), cfg := (List.range 256).map (fun i => BitVec.ofNat 8 (3 * i + 1)) } }
  let s := (s.setReg 0 Off.MGT_MBOX_DATA 0x12345678).setReg 0 (Off.MGT_MBOX_DATA + 12) 0xFFF
  let s := { s with mgt := { s.mgt with up := true, fwPending := true, activating := none, svnMin := 0, revoked := 0, fwA := { s.mgt.fwA with verified := true }, fwB := { s.mgt.fwB with verified := true } } }
  let s := s.setReg 0 Off.MGT_MBOX_DATA 0x011A0500
  (s)
def wManagementMailboxAndSensors18 : State :=
  let s : State := State.reset
  let s := { s with regs := [] }
  let q : Nat := 0
  let q2 : Nat := 0
  let s := if q2 == 0 then s else s.setReg 0 Off.CLK_DOM_OK 0xFF
  let s := { s with mgt := { s.mgt with mboxBusy := true, up := true, mboxOp := 2, mboxLen := (if q == 0 then 256 else 17), cfg := (List.range 256).map (fun i => BitVec.ofNat 8 (3 * i + 1)) } }
  let s := (s.setReg 0 Off.MGT_MBOX_DATA 0x12345678).setReg 0 (Off.MGT_MBOX_DATA + 12) 0xFFF
  (s)
def wManagementMailboxAndSensors19 : State :=
  let s : State := State.reset
  let s := { s with regs := [] }
  let q : Nat := 0
  let q2 : Nat := 1
  let s := if q2 == 0 then s else s.setReg 0 Off.CLK_DOM_OK 0xFF
  let s := { s with mgt := { s.mgt with mboxBusy := true, up := true, mboxOp := 3, mboxLen := (if q == 0 then 256 else 17), cfg := (List.range 256).map (fun i => BitVec.ofNat 8 (3 * i + 1)) } }
  let s := (s.setReg 0 Off.MGT_MBOX_DATA 0x12345678).setReg 0 (Off.MGT_MBOX_DATA + 12) 0xFFF
  (s)
def wManagementMailboxAndSensors20 : State :=
  let s : State := State.reset
  let s := { s with regs := [] }
  let q : Nat := 0
  let q2 : Nat := 0
  let s := if q2 == 0 then s else s.setReg 0 Off.CLK_DOM_OK 0xFF
  let s := { s with mgt := { s.mgt with mboxBusy := true, up := true, mboxOp := 3, mboxLen := (if q == 0 then 256 else 17), cfg := (List.range 256).map (fun i => BitVec.ofNat 8 (3 * i + 1)) } }
  let s := (s.setReg 0 Off.MGT_MBOX_DATA 0x12345678).setReg 0 (Off.MGT_MBOX_DATA + 12) 0xFFF
  (s)
def wManagementMailboxAndSensors21 : State :=
  let s : State := State.reset
  let s := { s with regs := [] }
  let q : Nat := 1
  let q2 : Nat := 3
  let s := if q2 == 0 then s else s.setReg 0 Off.CLK_DOM_OK 0xFF
  let s := { s with mgt := { s.mgt with mboxBusy := true, up := true, mboxOp := 3, mboxLen := (if q == 0 then 256 else 17), cfg := (List.range 256).map (fun i => BitVec.ofNat 8 (3 * i + 1)) } }
  let s := (s.setReg 0 Off.MGT_MBOX_DATA 0x12345678).setReg 0 (Off.MGT_MBOX_DATA + 12) 0xFFF
  (s)
def wManagementMailboxAndSensors22 : List Byte × List Byte × Bool × State :=
  let token : List Byte := []
  let tk : List Byte := []
  let crypto : Bool := false
  let s : State := State.reset
  let s := { s with regs := [] }
  let q : Nat := 0
  let s := (s.setReg 0 Off.MGT_DBG_NONCE 0x11223344).setReg 0 (Off.MGT_DBG_NONCE + 12) 7
  let tk : List Byte := leBytes 8 (s.mgt.serial % 2 ^ 64) ++ s.nonce ++ leBytes 4 0 ++ leBytes 1 (s.free % 5) ++ List.replicate 227 0
  let tk := if q == 0 then tk else tk.set 9 0x55
  let s := { s with mgt := { s.mgt with serial := s.mgt.serial % 2 ^ 64 } }
  let token := tk
  let s := s.setReg 0 (Off.CLK_BANK + 4 * 23) 0x80000000
  (token, tk, crypto, s)
def wManagementMailboxAndSensors23 : List Byte × List Byte × Bool × State :=
  let token : List Byte := []
  let tk : List Byte := []
  let crypto : Bool := false
  let s : State := State.reset
  let s := { s with regs := [] }
  let q : Nat := 0
  let s := (s.setReg 0 Off.MGT_DBG_NONCE 0x11223344).setReg 0 (Off.MGT_DBG_NONCE + 12) 7
  let tk : List Byte := leBytes 8 (s.mgt.serial % 2 ^ 64) ++ s.nonce ++ leBytes 4 0 ++ leBytes 1 (s.free % 5) ++ List.replicate 227 0
  let tk := if q == 0 then tk else tk.set 9 0x55
  let s := { s with mgt := { s.mgt with serial := s.mgt.serial % 2 ^ 64 } }
  let s := (List.range 64).foldl (fun (t : State) i => t.setReg 0 (Off.MGT_MBOX_DATA + 4 * i) (leAt tk (4 * i) 4)) s
  let s := { s with mgt := { s.mgt with mboxBusy := true, up := true, mboxOp := 4, mboxLen := 256 } }
  (token, tk, crypto, s)
def wManagementMailboxAndSensors24 : List Byte × Bool × State :=
  let token : List Byte := []
  let crypto : Bool := false
  let s : State := State.reset
  (token, crypto, s)
def wManagementMailboxAndSensors25 : List Byte × Bool × State :=
  let token : List Byte := []
  let crypto : Bool := false
  let s : State := State.reset
  (token, crypto, s)
def wManagementMailboxAndSensors26 : Fin 2 × Byte × List Byte × State :=
  let bus : Fin 2 := 0
  let addr : Byte := 0
  let msg : List Byte := []
  let s : State := State.reset
  (bus, addr, msg, s)
def wManagementMailboxAndSensors27 : Fin 2 × Byte × List Byte × State :=
  let bus : Fin 2 := 0
  let addr : Byte := 0
  let msg : List Byte := []
  let s : State := State.reset
  let q : Nat := 0
  let s := (({ s with regs := [], mgt := { s.mgt with up := true }, link := { s.link with perst := false } } : State).setReg 0 (Off.CLK_BANK + 4 * 21) 0x80000000)
  let addr : Byte := if q == 3 then addr else BitVec.ofNat 8 s.mgt.smbusAddr
  let msg := if q == 0 then msg else BitVec.ofNat 8 q :: msg
  (bus, addr, msg, s)
def wManagementMailboxAndSensors28 : Fin 2 × Byte × List Byte × State :=
  let bus : Fin 2 := 0
  let addr : Byte := 0
  let msg : List Byte := []
  let s : State := State.reset
  let q : Nat := 0
  let s := (({ s with regs := [], mgt := { s.mgt with up := true }, link := { s.link with perst := false } } : State).setReg 0 (Off.CLK_BANK + 4 * 21) 0x80000000)
  let addr : Byte := if q == 3 then addr else BitVec.ofNat 8 s.mgt.smbusAddr
  let msg : List Byte := [0, BitVec.ofNat 8 (128 + q), 1, BitVec.ofNat 8 (q % 2), BitVec.ofNat 8 (30 + q)]
  (bus, addr, msg, s)
def wManagementMailboxAndSensors29 : Fin 2 × Byte × List Byte × State :=
  let bus : Fin 2 := 0
  let addr : Byte := 0
  let msg : List Byte := []
  let s : State := State.reset
  let q : Nat := 0
  let s := (({ s with regs := [], mgt := { s.mgt with up := true }, link := { s.link with perst := false } } : State).setReg 0 (Off.CLK_BANK + 4 * 21) 0x80000000)
  let addr : Byte := if q == 3 then addr else BitVec.ofNat 8 s.mgt.smbusAddr
  let s := { s with mgt := { s.mgt with up := true, fwPending := true, activating := none, svnMin := 0, revoked := 0, fwA := { s.mgt.fwA with verified := true }, fwB := { s.mgt.fwB with verified := true } } }
  let msg : List Byte := [1, BitVec.ofNat 8 (128 + q), 5, 0x1A, 1]
  (bus, addr, msg, s)
def wManagementMailboxAndSensors30 : List Nat × List Nat × State :=
  let temps : List Nat := []
  let volts : List Nat := []
  let s : State := State.reset
  let s := { s with regs := [] }
  let temps := (List.range 12)
  let volts := (List.range 20)
  let s := (List.range 12).foldl (fun (t : State) i => (t.setReg 0 (Off.MGT_TLIM + 4 * i) (2000 * 65536 + 1000)).setReg 0 (Off.MGT_TEMP + 4 * i) (700 * 65536 + (if i % 2 == 0 then 65530 else 1500))) s
  let s := (List.range 20).foldl (fun (t : State) i => (t.setReg 0 (Off.MGT_VLIM + 4 * i) (2000 * 65536 + 1000)).setReg 0 (Off.MGT_VOLT + 4 * i) (700 * 65536 + (i % 3) * 800)) s
  (temps, volts, s)
/-- The conditions of each clause of `Obligations.ManagementMailboxAndSensors` are met. -/
theorem test_meets_ManagementMailboxAndSensors :
    (∃ (s : State), s.mgt.restarting = false) ∧
    (∃ (c : CtxId) (y : Submission) (data : List Byte) (s : State), (y.begun = true) ∧ (s.mgt.restarting = true ∧ s.mgt.up = false) ∧ (s.link.perst = false ∧ s.link.d3hot = false) ∧ (s.ready c = true)) ∧
    (∃ (s : State), (s.MemOk) ∧ (s.mgt.restarting = true)) ∧
    (∃ (diffs : List (Nat × Nat × Nat × Bool)) (s : State), s.mgt.up = false) ∧
    (∃ (s : State), ∀ e ∈ audited, s.shadowState e.1 e.2 = s.ownState e.1 e.2) ∧
    (∃ (k : Nat) (n : Nat) (v : Nat) (pass : Bool) (s : State) (r : State), (s.mgt.up = true) ∧ (∀ e ∈ audited, s.shadowState e.1 e.2 = s.ownState e.1 e.2) ∧ (r = s.setShadow k n v) ∧ (∀ e ∈ audited, r.shadowState e.1 e.2 = r.ownState e.1 e.2)) ∧
    (∃ (diffs : List (Nat × Nat × Nat × Bool)) (s : State) (r : State), (s.MemOk) ∧ (s.mgt.up = true) ∧ (∀ d ∈ diffs, d.2.2.2 = true) ∧ (r = diffs.foldl (fun t d => t.setShadow d.1 d.2.1 d.2.2.1) s)) ∧
    (∃ (u : UnitId) (v : Nat) (s : State) (r : State) (k : Nat) (n : Nat), (s.MemOk) ∧ (s.mgt.up = true) ∧ (∀ e ∈ audited, s.shadowState e.1 e.2 = s.ownState e.1 e.2) ∧ (k = unitTarget u / 256) ∧ (n = unitTarget u % 256) ∧ (r = s.setShadow k n v) ∧ (r.shadowState k n ≠ s.ownState k n)) ∧
    (∃ (c : ChanId) (v : Nat) (s : State), (s.MemOk) ∧ (s.mgt.up = true) ∧ (∀ e ∈ audited, s.shadowState e.1 e.2 = s.ownState e.1 e.2) ∧ (v ≠ (s.chan c).st)) ∧
    (∃ (c : ScriptId) (v : Nat) (s : State), (s.MemOk) ∧ (s.mgt.up = true) ∧ (∀ e ∈ audited, s.shadowState e.1 e.2 = s.ownState e.1 e.2) ∧ (v ≠ (s.script c).st.code) ∧ ((s.script c).st ≠ .wedged)) ∧
    (∃ (c : CtxId) (off : BitVec 23) (v : DWord) (s : State), (s.MemOk) ∧ (off.toNat = Off.MGT_MBOX_CTL) ∧ (s.Serves c Off.MGT_MBOX_CTL true) ∧ (v.getLsbD 31 = true) ∧ (s.mgt.mboxBusy = false)) ∧
    (∃ (c : CtxId) (off : BitVec 23) (v : DWord) (s : State), (s.MemOk) ∧ (off.toNat = Off.MGT_MBOX_CTL) ∧ (s.Serves c Off.MGT_MBOX_CTL true) ∧ (v.getLsbD 31 = true) ∧ (s.mgt.mboxBusy = true)) ∧
    (∃ (s : State), ¬(s.mgt.mboxBusy = true ∧ s.mgt.up = true ∧ s.mgt.mboxOp = 1)) ∧
    (∃ (s : State), ¬(s.mgt.mboxBusy = true ∧ s.mgt.up = true ∧ s.mgt.mboxOp = 2)) ∧
    (∃ (s : State), ¬(s.mgt.mboxBusy = true ∧ s.mgt.up = true ∧ s.mgt.mboxOp = 3)) ∧
    (∃ (s : State), (s.mgt.mboxBusy = true ∧ s.mgt.up = true ∧ s.mgt.mboxOp = 1) ∧ ((¬(asksActivation s.mboxData = true ∧ s.mgt.fwPending = true ∧ s.mgt.verifies (s.mgt.fw (1 - s.mgt.fwSlot)) = true ∧ s.mgt.activating = none)))) ∧
    (∃ (s : State), (s.mgt.mboxBusy = true ∧ s.mgt.up = true ∧ s.mgt.mboxOp = 1) ∧ (asksActivation s.mboxData = true) ∧ (s.mgt.fwPending = true) ∧ (s.mgt.verifies (s.mgt.fw (1 - s.mgt.fwSlot)) = true) ∧ (s.mgt.activating = none)) ∧
    (∃ (s : State), (s.MemOk) ∧ (s.mgt.mboxBusy = true ∧ s.mgt.up = true ∧ s.mgt.mboxOp = 2) ∧ (s.mgt.cfg.length = 256)) ∧
    (∃ (s : State), (s.MemOk) ∧ (s.mgt.mboxBusy = true ∧ s.mgt.up = true ∧ s.mgt.mboxOp = 3) ∧ (s.flashHeld = false) ∧ (s.mgt.mboxLen = 256)) ∧
    (∃ (s : State), (s.mgt.mboxBusy = true ∧ s.mgt.up = true ∧ s.mgt.mboxOp = 3) ∧ (s.flashHeld = true) ∧ (s.mgt.mboxLen = 256)) ∧
    (∃ (s : State), (s.MemOk) ∧ (s.mgt.mboxBusy = true ∧ s.mgt.up = true ∧ s.mgt.mboxOp = 3) ∧ (s.mgt.mboxLen ≠ 256)) ∧
    (∃ (token : List Byte) (tk : List Byte) (crypto : Bool) (s : State), (s.MemOk) ∧ (s.bankUp 23 = true) ∧ (tk = token)) ∧
    (∃ (token : List Byte) (tk : List Byte) (crypto : Bool) (s : State), (s.MemOk) ∧ (s.mgt.mboxBusy = true ∧ s.mgt.up = true ∧ s.mgt.mboxOp = 4) ∧ (tk = (((List.range 64).flatMap (fun i => leBytes 4 (s.eff 0 (Off.MGT_MBOX_DATA + 4 * i)))).take s.mgt.mboxLen))) ∧
    (∃ (token : List Byte) (crypto : Bool) (s : State), s.bankUp 23 = false) ∧
    (∃ (token : List Byte) (crypto : Bool) (s : State), ¬(s.mgt.mboxBusy = true ∧ s.mgt.up = true ∧ s.mgt.mboxOp = 4)) ∧
    (∃ (bus : Fin 2) (addr : Byte) (msg : List Byte) (s : State), s.mgt.up = false ∨ (bus = 1 ∧ s.link.perst = true) ∨ (bus = 0 ∧ (addr.toNat ≠ s.mgt.smbusAddr ∨ s.bankUp 21 = false))) ∧
    (∃ (bus : Fin 2) (addr : Byte) (msg : List Byte) (s : State), (s.mgt.up = true) ∧ ((bus = 0 ∧ addr.toNat = s.mgt.smbusAddr ∧ s.bankUp 21 = true) ∨ (bus = 1 ∧ s.link.perst = false)) ∧ (¬(leAt msg 0 1 % 128 = 0 ∧ leAt msg 2 1 = 1 ∧ leAt msg 3 1 % 4 < 2)) ∧ (leAt msg 0 1 % 128 = 1 → (¬(asksActivation (msg.drop 1) = true ∧ s.mgt.fwPending = true ∧ s.mgt.verifies (s.mgt.fw (1 - s.mgt.fwSlot)) = true ∧ s.mgt.activating = none)))) ∧
    (∃ (bus : Fin 2) (addr : Byte) (msg : List Byte) (s : State), (s.mgt.up = true) ∧ ((bus = 0 ∧ addr.toNat = s.mgt.smbusAddr ∧ s.bankUp 21 = true) ∨ (bus = 1 ∧ s.link.perst = false)) ∧ ((leAt msg 0 1 % 128 = 0 ∧ leAt msg 2 1 = 1 ∧ leAt msg 3 1 % 4 < 2))) ∧
    (∃ (bus : Fin 2) (addr : Byte) (msg : List Byte) (s : State), (s.mgt.up = true) ∧ ((bus = 0 ∧ addr.toNat = s.mgt.smbusAddr ∧ s.bankUp 21 = true) ∨ (bus = 1 ∧ s.link.perst = false)) ∧ (leAt msg 0 1 % 128 = 1) ∧ (asksActivation (msg.drop 1) = true) ∧ (s.mgt.fwPending = true) ∧ (s.mgt.verifies (s.mgt.fw (1 - s.mgt.fwSlot)) = true) ∧ (s.mgt.activating = none)) ∧
    (∃ (temps : List Nat) (volts : List Nat) (s : State), (s.MemOk) ∧ (temps.length = 12) ∧ (volts.length = 20) ∧ (temps.all (fun v => decide (v < 65536)) = true) ∧ (volts.all (fun v => decide (v < 65536)) = true)) :=
  ⟨⟨wManagementMailboxAndSensors1, by decide +kernel⟩,
   ⟨wManagementMailboxAndSensors2.1, wManagementMailboxAndSensors2.2.1, wManagementMailboxAndSensors2.2.2.1, wManagementMailboxAndSensors2.2.2.2, by decide +kernel⟩,
   ⟨wManagementMailboxAndSensors3, memOk_of _ (by decide +kernel), (by decide +kernel)⟩,
   ⟨wManagementMailboxAndSensors4.1, wManagementMailboxAndSensors4.2, by decide +kernel⟩,
   ⟨wManagementMailboxAndSensors5, by decide +kernel⟩,
   ⟨wManagementMailboxAndSensors6.1, wManagementMailboxAndSensors6.2.1, wManagementMailboxAndSensors6.2.2.1, wManagementMailboxAndSensors6.2.2.2.1, wManagementMailboxAndSensors6.2.2.2.2.1, wManagementMailboxAndSensors6.2.2.2.2.2, by decide +kernel⟩,
   ⟨wManagementMailboxAndSensors7.1, wManagementMailboxAndSensors7.2.1, wManagementMailboxAndSensors7.2.2, memOk_of _ (by decide +kernel), (by decide +kernel), (by decide +kernel), (by decide +kernel)⟩,
   ⟨wManagementMailboxAndSensors8.1, wManagementMailboxAndSensors8.2.1, wManagementMailboxAndSensors8.2.2.1, wManagementMailboxAndSensors8.2.2.2.1, wManagementMailboxAndSensors8.2.2.2.2.1, wManagementMailboxAndSensors8.2.2.2.2.2, memOk_of _ (by decide +kernel), (by decide +kernel), (by decide +kernel), (by decide +kernel), (by decide +kernel), (by decide +kernel), (by decide +kernel)⟩,
   ⟨wManagementMailboxAndSensors9.1, wManagementMailboxAndSensors9.2.1, wManagementMailboxAndSensors9.2.2, memOk_of _ (by decide +kernel), (by decide +kernel), (by decide +kernel), (by decide +kernel)⟩,
   ⟨wManagementMailboxAndSensors10.1, wManagementMailboxAndSensors10.2.1, wManagementMailboxAndSensors10.2.2, memOk_of _ (by decide +kernel), (by decide +kernel), (by decide +kernel), (by decide +kernel), (by decide +kernel)⟩,
   ⟨wManagementMailboxAndSensors11.1, wManagementMailboxAndSensors11.2.1, wManagementMailboxAndSensors11.2.2.1, wManagementMailboxAndSensors11.2.2.2, memOk_of _ (by decide +kernel), (by decide +kernel), (by unfold State.Serves; decide +kernel), (by decide +kernel), (by decide +kernel)⟩,
   ⟨wManagementMailboxAndSensors12.1, wManagementMailboxAndSensors12.2.1, wManagementMailboxAndSensors12.2.2.1, wManagementMailboxAndSensors12.2.2.2, memOk_of _ (by decide +kernel), (by decide +kernel), (by unfold State.Serves; decide +kernel), (by decide +kernel), (by decide +kernel)⟩,
   ⟨wManagementMailboxAndSensors13, by decide +kernel⟩,
   ⟨wManagementMailboxAndSensors14, by decide +kernel⟩,
   ⟨wManagementMailboxAndSensors15, by decide +kernel⟩,
   ⟨wManagementMailboxAndSensors16, by decide +kernel⟩,
   ⟨wManagementMailboxAndSensors17, by decide +kernel⟩,
   ⟨wManagementMailboxAndSensors18, memOk_of _ (by decide +kernel), (by decide +kernel), (by decide +kernel)⟩,
   ⟨wManagementMailboxAndSensors19, memOk_of _ (by decide +kernel), (by decide +kernel), (by decide +kernel), (by decide +kernel)⟩,
   ⟨wManagementMailboxAndSensors20, by decide +kernel⟩,
   ⟨wManagementMailboxAndSensors21, memOk_of _ (by decide +kernel), (by decide +kernel), (by decide +kernel)⟩,
   ⟨wManagementMailboxAndSensors22.1, wManagementMailboxAndSensors22.2.1, wManagementMailboxAndSensors22.2.2.1, wManagementMailboxAndSensors22.2.2.2, memOk_of _ (by decide +kernel), (by decide +kernel), (by decide +kernel)⟩,
   ⟨wManagementMailboxAndSensors23.1, wManagementMailboxAndSensors23.2.1, wManagementMailboxAndSensors23.2.2.1, wManagementMailboxAndSensors23.2.2.2, memOk_of _ (by decide +kernel), (by decide +kernel), (by decide +kernel)⟩,
   ⟨wManagementMailboxAndSensors24.1, wManagementMailboxAndSensors24.2.1, wManagementMailboxAndSensors24.2.2, by decide +kernel⟩,
   ⟨wManagementMailboxAndSensors25.1, wManagementMailboxAndSensors25.2.1, wManagementMailboxAndSensors25.2.2, by decide +kernel⟩,
   ⟨wManagementMailboxAndSensors26.1, wManagementMailboxAndSensors26.2.1, wManagementMailboxAndSensors26.2.2.1, wManagementMailboxAndSensors26.2.2.2, by decide +kernel⟩,
   ⟨wManagementMailboxAndSensors27.1, wManagementMailboxAndSensors27.2.1, wManagementMailboxAndSensors27.2.2.1, wManagementMailboxAndSensors27.2.2.2, by decide +kernel⟩,
   ⟨wManagementMailboxAndSensors28.1, wManagementMailboxAndSensors28.2.1, wManagementMailboxAndSensors28.2.2.1, wManagementMailboxAndSensors28.2.2.2, by decide +kernel⟩,
   ⟨wManagementMailboxAndSensors29.1, wManagementMailboxAndSensors29.2.1, wManagementMailboxAndSensors29.2.2.1, wManagementMailboxAndSensors29.2.2.2, by decide +kernel⟩,
   ⟨wManagementMailboxAndSensors30.1, wManagementMailboxAndSensors30.2.1, wManagementMailboxAndSensors30.2.2, memOk_of _ (by decide +kernel), (by decide +kernel), (by decide +kernel), (by decide +kernel), (by decide +kernel)⟩⟩
def wFaultClassification0 : Nat × Bool × Bool × State :=
  let i : Nat := 0
  let failed : Bool := false
  let other : Bool := false
  let s : State := State.reset
  let s := { s with faults := [] }
  (i, failed, other, s)
def wFaultClassification1 : Nat × Bool × Bool × State × FaultRec :=
  let i : Nat := 0
  let failed : Bool := false
  let other : Bool := false
  let s : State := State.reset
  let f : FaultRec := dFaultRec
  let s := { s with regs := if s.now % 3 == 0 then s.regs else [], groups := s.groups.map (fun (g : Group) => { g with armed := none }) }
  let s := { s with units := s.units.map (fun (u : UnitSt) => { u with cut := none, faultTimes := [] }) }
  let s := { s with ports := s.ports.map (fun (x : PortSt) => { x with ltg := { x.ltg with drains := x.ltg.drains % 3 }, pipe := { x.pipe with fails := [] }, conv := if s.now % 2 == 0 then x.conv else x.conv.map (fun (c : ConvSt) => { c with retired := 0, slots := [0,1,2,3], out := some 4 }) }) }
  let i : Nat := 0
  let f : FaultRec := { kind := 8, unit := 6, code := 10, arg := 0, arg2 := 0, time := 5 }
  let s := { s with faults := [f] }
  let s := { s with faults := (List.range 5).map (fun k => { f with unit := k }) }
  let f : FaultRec := { f with unit := 4 }
  let i := 4
  (i, failed, other, s, f)
def wFaultClassification2 : Nat × Bool × Bool × State × FaultRec :=
  let i : Nat := 0
  let failed : Bool := false
  let other : Bool := false
  let s : State := State.reset
  let f : FaultRec := dFaultRec
  let s := { s with regs := if s.now % 3 == 0 then s.regs else [], groups := s.groups.map (fun (g : Group) => { g with armed := none }) }
  let s := { s with units := s.units.map (fun (u : UnitSt) => { u with cut := none, faultTimes := [] }) }
  let s := { s with ports := s.ports.map (fun (x : PortSt) => { x with ltg := { x.ltg with drains := x.ltg.drains % 3 }, pipe := { x.pipe with fails := [] }, conv := if s.now % 2 == 0 then x.conv else x.conv.map (fun (c : ConvSt) => { c with retired := 0, slots := [0,1,2,3], out := some 4 }) }) }
  let i : Nat := 0
  let f : FaultRec := { kind := 8, unit := 6, code := 10, arg := 0, arg2 := 0, time := 5 }
  let s := { s with faults := [f] }
  (i, failed, other, s, f)
def wFaultClassification3 : Nat × Bool × Bool × State × FaultRec :=
  let i : Nat := 0
  let failed : Bool := false
  let other : Bool := false
  let s : State := State.reset
  let f : FaultRec := dFaultRec
  let s := { s with regs := if s.now % 3 == 0 then s.regs else [], groups := s.groups.map (fun (g : Group) => { g with armed := none }) }
  let s := { s with units := s.units.map (fun (u : UnitSt) => { u with cut := none, faultTimes := [] }) }
  let s := { s with ports := s.ports.map (fun (x : PortSt) => { x with ltg := { x.ltg with drains := x.ltg.drains % 3 }, pipe := { x.pipe with fails := [] }, conv := if s.now % 2 == 0 then x.conv else x.conv.map (fun (c : ConvSt) => { c with retired := 0, slots := [0,1,2,3], out := some 4 }) }) }
  let i : Nat := 0
  let f : FaultRec := { kind := 8, unit := 6, code := 10, arg := 0, arg2 := 0, time := 5 }
  let s := { s with faults := [f] }
  let s := { s with faults := (List.range 6).map (fun k => { f with unit := k / 1 }) }
  let f : FaultRec := { f with unit := 5 }
  let i := 5
  (i, failed, other, s, f)
def wFaultClassification4 : Nat × Bool × Bool × State × FaultRec :=
  let i : Nat := 0
  let failed : Bool := false
  let other : Bool := false
  let s : State := State.reset
  let f : FaultRec := dFaultRec
  let s := { s with regs := if s.now % 3 == 0 then s.regs else [], groups := s.groups.map (fun (g : Group) => { g with armed := none }) }
  let s := { s with units := s.units.map (fun (u : UnitSt) => { u with cut := none, faultTimes := [] }) }
  let s := { s with ports := s.ports.map (fun (x : PortSt) => { x with ltg := { x.ltg with drains := x.ltg.drains % 3 }, pipe := { x.pipe with fails := [] }, conv := if s.now % 2 == 0 then x.conv else x.conv.map (fun (c : ConvSt) => { c with retired := 0, slots := [0,1,2,3], out := some 4 }) }) }
  let i : Nat := 0
  let f : FaultRec := { kind := (1 + s.free % 8), unit := 6, code := (1 + s.now % 9), arg := 0, arg2 := 0, time := 5 }
  let s := { s with faults := [f] }
  let s := { s with faults := (List.range 6).map (fun k => { f with unit := k / 2 }) }
  let i := s.free % 6
  let f : FaultRec := { f with unit := i / 2 }
  (i, failed, other, s, f)
def wFaultClassification5 : Nat × Bool × Bool × State × FaultRec × ChanId × CurDesc :=
  let i : Nat := 0
  let failed : Bool := false
  let other : Bool := false
  let s : State := State.reset
  let f : FaultRec := dFaultRec
  let c : ChanId := 0
  let d : CurDesc := dCurDesc
  let s := { s with regs := if s.now % 3 == 0 then s.regs else [], groups := s.groups.map (fun (g : Group) => { g with armed := none }) }
  let s := { s with units := s.units.map (fun (u : UnitSt) => { u with cut := none, faultTimes := [] }) }
  let s := { s with ports := s.ports.map (fun (x : PortSt) => { x with ltg := { x.ltg with drains := x.ltg.drains % 3 }, pipe := { x.pipe with fails := [] }, conv := if s.now % 2 == 0 then x.conv else x.conv.map (fun (c : ConvSt) => { c with retired := 0, slots := [0,1,2,3], out := some 4 }) }) }
  let i : Nat := 0
  let f : FaultRec := { kind := 4, unit := c.val, code := 9, arg := 0, arg2 := 0, time := 5 }
  let s := { s with faults := [f] }
  let s := (s.updChan c (fun x => { x with cur := some d, barrier := false, held := [] }))
  let s := { s with link := { s.link with d3hot := false, perst := false } }
  (i, failed, other, s, f, c, d)
def wFaultClassification6 : Nat × Bool × Bool × State × FaultRec × ChanId :=
  let i : Nat := 0
  let failed : Bool := false
  let other : Bool := false
  let s : State := State.reset
  let f : FaultRec := dFaultRec
  let c : ChanId := 0
  let s := { s with regs := if s.now % 3 == 0 then s.regs else [], groups := s.groups.map (fun (g : Group) => { g with armed := none }) }
  let s := { s with units := s.units.map (fun (u : UnitSt) => { u with cut := none, faultTimes := [] }) }
  let s := { s with ports := s.ports.map (fun (x : PortSt) => { x with ltg := { x.ltg with drains := x.ltg.drains % 3 }, pipe := { x.pipe with fails := [] }, conv := if s.now % 2 == 0 then x.conv else x.conv.map (fun (c : ConvSt) => { c with retired := 0, slots := [0,1,2,3], out := some 4 }) }) }
  let i : Nat := 0
  let f : FaultRec := { kind := 4, unit := c.val, code := 9, arg := 0, arg2 := 0, time := 5 }
  let s := { s with faults := [f] }
  let s := (s.updChan c (fun x => { x with cur := none }))
  (i, failed, other, s, f, c)
def wFaultClassification7 : Nat × Bool × State × FaultRec × UnitId :=
  let i : Nat := 0
  let other : Bool := false
  let s : State := State.reset
  let f : FaultRec := dFaultRec
  let u : UnitId := 0
  let u : UnitId := unitOfPort 3
  let s := { s with regs := if s.now % 3 == 0 then s.regs else [], groups := s.groups.map (fun (g : Group) => { g with armed := none }) }
  let s := { s with units := s.units.map (fun (u : UnitSt) => { u with cut := none, faultTimes := [] }) }
  let s := { s with ports := s.ports.map (fun (x : PortSt) => { x with ltg := { x.ltg with drains := x.ltg.drains % 3 }, pipe := { x.pipe with fails := [] }, conv := if s.now % 2 == 0 then x.conv else x.conv.map (fun (c : ConvSt) => { c with retired := 0, slots := [0,1,2,3], out := some 4 }) }) }
  let i : Nat := 0
  let f : FaultRec := { kind := 1, unit := 3, code := 1 + s.free % 2, arg := 2, arg2 := 1, time := 5 }
  let s := { s with faults := [f] }
  let s := s.updUnit u (fun x => { x with st := .faulted, prior := .halted, back := (if s.now % 2 == 0 then .halted else .armed) })
  (i, other, s, f, u)
def wFaultClassification8 : Nat × Bool × State × FaultRec × UnitId × PortId × Fin 16 × Nat :=
  let i : Nat := 0
  let other : Bool := false
  let s : State := State.reset
  let f : FaultRec := dFaultRec
  let u : UnitId := 0
  let p : PortId := 0
  let k : Fin 16 := 0
  let o : Nat := 0
  let u : UnitId := unitOfPort p
  let s := { s with regs := if s.now % 3 == 0 then s.regs else [], groups := s.groups.map (fun (g : Group) => { g with armed := none }) }
  let s := { s with units := s.units.map (fun (u : UnitSt) => { u with cut := none, faultTimes := [] }) }
  let s := { s with ports := s.ports.map (fun (x : PortSt) => { x with ltg := { x.ltg with drains := x.ltg.drains % 3 }, pipe := { x.pipe with fails := [] }, conv := if s.now % 2 == 0 then x.conv else x.conv.map (fun (c : ConvSt) => { c with retired := 0, slots := [0,1,2,3], out := some 4 }) }) }
  let i : Nat := 0
  let f : FaultRec := { kind := 1, unit := p.val, code := 1 + s.free % 2, arg := k.val, arg2 := s.free % 5, time := 5 }
  let s := { s with faults := [f] }
  let s := s.updUnit u (fun x => { x with st := .faulted, prior := .halted, back := (if s.now % 2 == 0 then .halted else .armed) })
  let o := 4
  (i, other, s, f, u, p, k, o)
def wFaultClassification9 : Nat × Bool × State × FaultRec × UnitId × PortId × Fin 16 :=
  let i : Nat := 0
  let other : Bool := false
  let s : State := State.reset
  let f : FaultRec := dFaultRec
  let u : UnitId := 0
  let p : PortId := 0
  let k : Fin 16 := 0
  let u : UnitId := unitOfPort p
  let s := { s with regs := if s.now % 3 == 0 then s.regs else [], groups := s.groups.map (fun (g : Group) => { g with armed := none }) }
  let s := { s with units := s.units.map (fun (u : UnitSt) => { u with cut := none, faultTimes := [] }) }
  let s := { s with ports := s.ports.map (fun (x : PortSt) => { x with ltg := { x.ltg with drains := x.ltg.drains % 3 }, pipe := { x.pipe with fails := [] }, conv := if s.now % 2 == 0 then x.conv else x.conv.map (fun (c : ConvSt) => { c with retired := 0, slots := [0,1,2,3], out := some 4 }) }) }
  let i : Nat := 0
  let f : FaultRec := { kind := 1, unit := p.val, code := 1 + s.free % 2, arg := k.val, arg2 := s.free % 5, time := 5 }
  let s := { s with faults := [f] }
  let s := s.updUnit u (fun x => { x with st := .faulted, prior := .halted, back := (if s.now % 2 == 0 then .halted else .armed) })
  let s := s.updConv p k (fun x => { x with out := none, retired := 2 ^ ((f.arg2 + 1) % 5) })
  let s := (List.finRange 16).foldl (fun s j => s.updConv p j (fun x => { x with lost := false })) s
  (i, other, s, f, u, p, k)
def wFaultClassification10 : Nat × Bool × State × FaultRec × UnitId × PortId :=
  let i : Nat := 0
  let other : Bool := false
  let s : State := State.reset
  let f : FaultRec := dFaultRec
  let u : UnitId := 0
  let p : PortId := 0
  let u : UnitId := unitOfPort p
  let other := false
  let s := { s with regs := if s.now % 3 == 0 then s.regs else [], groups := s.groups.map (fun (g : Group) => { g with armed := none }) }
  let s := { s with units := s.units.map (fun (u : UnitSt) => { u with cut := none, faultTimes := [] }) }
  let s := { s with ports := s.ports.map (fun (x : PortSt) => { x with ltg := { x.ltg with drains := x.ltg.drains % 3 }, pipe := { x.pipe with fails := [] }, conv := if s.now % 2 == 0 then x.conv else x.conv.map (fun (c : ConvSt) => { c with retired := 0, slots := [0,1,2,3], out := some 4 }) }) }
  let i : Nat := 0
  let f : FaultRec := { kind := 1, unit := p.val, code := 4 + s.free % 2, arg := s.free % 8, arg2 := 0, time := 5 }
  let s := { s with faults := [f] }
  let s := s.updUnit u (fun x => { x with st := .faulted, prior := .halted, back := (if s.now % 2 == 0 then .halted else .armed) })
  (i, other, s, f, u, p)
def wFaultClassification11 : Nat × Bool × State × FaultRec × UnitId × PortId :=
  let i : Nat := 0
  let other : Bool := false
  let s : State := State.reset
  let f : FaultRec := dFaultRec
  let u : UnitId := 0
  let p : PortId := 0
  let u : UnitId := unitOfPort p
  let other := true
  let s := { s with regs := if s.now % 3 == 0 then s.regs else [], groups := s.groups.map (fun (g : Group) => { g with armed := none }) }
  let s := { s with units := s.units.map (fun (u : UnitSt) => { u with cut := none, faultTimes := [] }) }
  let s := { s with ports := s.ports.map (fun (x : PortSt) => { x with ltg := { x.ltg with drains := x.ltg.drains % 3 }, pipe := { x.pipe with fails := [] }, conv := if s.now % 2 == 0 then x.conv else x.conv.map (fun (c : ConvSt) => { c with retired := 0, slots := [0,1,2,3], out := some 4 }) }) }
  let i : Nat := 0
  let f : FaultRec := { kind := 1, unit := p.val, code := 4, arg := s.free % 8, arg2 := 0, time := 5 }
  let s := { s with faults := [f] }
  let s := s.updUnit u (fun x => { x with st := .faulted, prior := .running, back := (if s.now % 2 == 0 then .running else .armed) })
  (i, other, s, f, u, p)
def wFaultClassification12 : Nat × Bool × State × FaultRec × UnitId × PortId :=
  let i : Nat := 0
  let other : Bool := false
  let s : State := State.reset
  let f : FaultRec := dFaultRec
  let u : UnitId := 0
  let p : PortId := 0
  let u : UnitId := unitOfPort p
  let s := { s with regs := if s.now % 3 == 0 then s.regs else [], groups := s.groups.map (fun (g : Group) => { g with armed := none }) }
  let s := { s with units := s.units.map (fun (u : UnitSt) => { u with cut := none, faultTimes := [] }) }
  let s := { s with ports := s.ports.map (fun (x : PortSt) => { x with ltg := { x.ltg with drains := x.ltg.drains % 3 }, pipe := { x.pipe with fails := [] }, conv := if s.now % 2 == 0 then x.conv else x.conv.map (fun (c : ConvSt) => { c with retired := 0, slots := [0,1,2,3], out := some 4 }) }) }
  let i : Nat := 0
  let f : FaultRec := { kind := 1, unit := p.val, code := 7, arg := 0, arg2 := 1, time := 5 }
  let s := { s with faults := [f] }
  let s := s.updUnit u (fun x => { x with st := .faulted, prior := .running, back := (if s.now % 2 == 0 then .running else .armed) })
  (i, other, s, f, u, p)
def wFaultClassification13 : Nat × Bool × State × FaultRec × UnitId × AxisId :=
  let i : Nat := 0
  let other : Bool := false
  let s : State := State.reset
  let f : FaultRec := dFaultRec
  let u : UnitId := 0
  let a : AxisId := 0
  let u : UnitId := unitOfAxis a
  let s := { s with regs := if s.now % 3 == 0 then s.regs else [], groups := s.groups.map (fun (g : Group) => { g with armed := none }) }
  let s := { s with units := s.units.map (fun (u : UnitSt) => { u with cut := none, faultTimes := [] }) }
  let s := { s with ports := s.ports.map (fun (x : PortSt) => { x with ltg := { x.ltg with drains := x.ltg.drains % 3 }, pipe := { x.pipe with fails := [] }, conv := if s.now % 2 == 0 then x.conv else x.conv.map (fun (c : ConvSt) => { c with retired := 0, slots := [0,1,2,3], out := some 4 }) }) }
  let i : Nat := 0
  let f : FaultRec := { kind := 2, unit := a.val, code := 7, arg := 0, arg2 := 1, time := 5 }
  let s := { s with faults := [f] }
  let s := s.updUnit u (fun x => { x with st := .faulted, prior := .running, back := (if s.now % 2 == 0 then .running else .armed) })
  (i, other, s, f, u, a)
def wFaultClassification14 : Nat × Bool × State × FaultRec × UnitId :=
  let i : Nat := 0
  let other : Bool := false
  let s : State := State.reset
  let f : FaultRec := dFaultRec
  let u : UnitId := 0
  let u : UnitId := if s.free % 2 == 0 then unitOfPort 3 else unitOfAxis 3
  let s := { s with regs := if s.now % 3 == 0 then s.regs else [], groups := s.groups.map (fun (g : Group) => { g with armed := none }) }
  let s := { s with units := s.units.map (fun (u : UnitSt) => { u with cut := none, faultTimes := [] }) }
  let s := { s with ports := s.ports.map (fun (x : PortSt) => { x with ltg := { x.ltg with drains := x.ltg.drains % 3 }, pipe := { x.pipe with fails := [] }, conv := if s.now % 2 == 0 then x.conv else x.conv.map (fun (c : ConvSt) => { c with retired := 0, slots := [0,1,2,3], out := some 4 }) }) }
  let i : Nat := 0
  let f : FaultRec := { kind := (1 + s.free % 2), unit := 3, code := 7 + s.now % 3, arg := 0, arg2 := 5, time := 5 }
  let s := { s with faults := [f] }
  let q : Nat := 0
  let s := s.updUnit u (fun x => { x with st := .faulted, prior := (if s.now % 2 == 0 then .running else .halted), back := (if q == 0 then .running else .armed) })
  (i, other, s, f, u)
def wFaultClassification15 : Nat × Bool × State × FaultRec × UnitId :=
  let i : Nat := 0
  let other : Bool := false
  let s : State := State.reset
  let f : FaultRec := dFaultRec
  let u : UnitId := 0
  let u : UnitId := if s.free % 2 == 0 then unitOfPort 3 else unitOfAxis 3
  let s := { s with regs := if s.now % 3 == 0 then s.regs else [], groups := s.groups.map (fun (g : Group) => { g with armed := none }) }
  let s := { s with units := s.units.map (fun (u : UnitSt) => { u with cut := none, faultTimes := [] }) }
  let s := { s with ports := s.ports.map (fun (x : PortSt) => { x with ltg := { x.ltg with drains := x.ltg.drains % 3 }, pipe := { x.pipe with fails := [] }, conv := if s.now % 2 == 0 then x.conv else x.conv.map (fun (c : ConvSt) => { c with retired := 0, slots := [0,1,2,3], out := some 4 }) }) }
  let i : Nat := 0
  let f : FaultRec := { kind := (1 + s.free % 2), unit := 3, code := 7 + s.now % 3, arg := 0, arg2 := 5, time := 5 }
  let s := { s with faults := [f] }
  let s := s.updUnit u (fun x => { x with st := .faulted, faultTimes := [s.now - 999999999, 5, s.now - 3] })
  (i, other, s, f, u)
def wFaultClassification16 : Nat × Bool × State × FaultRec × UnitId × PortId :=
  let i : Nat := 0
  let other : Bool := false
  let s : State := State.reset
  let f : FaultRec := dFaultRec
  let u : UnitId := 0
  let p : PortId := 0
  let u : UnitId := unitOfPort p
  let s := { s with regs := if s.now % 3 == 0 then s.regs else [], groups := s.groups.map (fun (g : Group) => { g with armed := none }) }
  let s := { s with units := s.units.map (fun (u : UnitSt) => { u with cut := none, faultTimes := [] }) }
  let s := { s with ports := s.ports.map (fun (x : PortSt) => { x with ltg := { x.ltg with drains := x.ltg.drains % 3 }, pipe := { x.pipe with fails := [] }, conv := if s.now % 2 == 0 then x.conv else x.conv.map (fun (c : ConvSt) => { c with retired := 0, slots := [0,1,2,3], out := some 4 }) }) }
  let i : Nat := 0
  let f : FaultRec := { kind := 1, unit := p.val, code := ([1, 2, 5][s.free % 3]?.getD 1), arg := s.now % 8, arg2 := s.free % 5, time := 5 }
  let s := { s with faults := [f] }
  let s := s.updUnit u (fun x => { x with st := .faulted, faultTimes := [s.now - 999999999, s.now - 3] })
  (i, other, s, f, u, p)
def wFaultClassification17 : Nat × Bool × State × FaultRec × UnitId × PortId :=
  let i : Nat := 0
  let other : Bool := false
  let s : State := State.reset
  let f : FaultRec := dFaultRec
  let u : UnitId := 0
  let p : PortId := 0
  let u : UnitId := unitOfPort p
  let s := { s with regs := if s.now % 3 == 0 then s.regs else [], groups := s.groups.map (fun (g : Group) => { g with armed := none }) }
  let s := { s with units := s.units.map (fun (u : UnitSt) => { u with cut := none, faultTimes := [] }) }
  let s := { s with ports := s.ports.map (fun (x : PortSt) => { x with ltg := { x.ltg with drains := x.ltg.drains % 3 }, pipe := { x.pipe with fails := [] }, conv := if s.now % 2 == 0 then x.conv else x.conv.map (fun (c : ConvSt) => { c with retired := 0, slots := [0,1,2,3], out := some 4 }) }) }
  let i : Nat := 0
  let f : FaultRec := { kind := 1, unit := p.val, code := 1 + s.free % 2, arg := 2, arg2 := 1, time := 5, joined := [(3, 1), (7 + s.free % 3, 4)] }
  let s := { s with faults := [f] }
  let s := s.updUnit u (fun x => { x with st := .faulted, prior := .running, back := (if s.now % 2 == 0 then .running else .armed) })
  let s := s.updUnit u (fun x => { x with back := .running })
  (i, other, s, f, u, p)
def wFaultClassification18 : Nat × Bool × State × FaultRec × UnitId × AxisId :=
  let i : Nat := 0
  let other : Bool := false
  let s : State := State.reset
  let f : FaultRec := dFaultRec
  let u : UnitId := 0
  let a : AxisId := 0
  let u : UnitId := unitOfAxis a
  let s := { s with regs := if s.now % 3 == 0 then s.regs else [], groups := s.groups.map (fun (g : Group) => { g with armed := none }) }
  let s := { s with units := s.units.map (fun (u : UnitSt) => { u with cut := none, faultTimes := [] }) }
  let s := { s with ports := s.ports.map (fun (x : PortSt) => { x with ltg := { x.ltg with drains := x.ltg.drains % 3 }, pipe := { x.pipe with fails := [] }, conv := if s.now % 2 == 0 then x.conv else x.conv.map (fun (c : ConvSt) => { c with retired := 0, slots := [0,1,2,3], out := some 4 }) }) }
  let i : Nat := 0
  let f : FaultRec := { kind := 2, unit := a.val, code := 7 + s.free % 3, arg := 0, arg2 := 1, time := 5 }
  let s := { s with faults := [f] }
  let s := s.updUnit u (fun x => { x with st := .faulted, prior := .running, back := (if s.now % 2 == 0 then .running else .armed) })
  (i, other, s, f, u, a)
def wFaultClassification19 : Nat × Bool × Bool × State × FaultRec × ScriptId :=
  let i : Nat := 0
  let failed : Bool := false
  let other : Bool := false
  let s : State := State.reset
  let f : FaultRec := dFaultRec
  let c : ScriptId := 0
  let s := { s with regs := if s.now % 3 == 0 then s.regs else [], groups := s.groups.map (fun (g : Group) => { g with armed := none }) }
  let s := { s with units := s.units.map (fun (u : UnitSt) => { u with cut := none, faultTimes := [] }) }
  let s := { s with ports := s.ports.map (fun (x : PortSt) => { x with ltg := { x.ltg with drains := x.ltg.drains % 3 }, pipe := { x.pipe with fails := [] }, conv := if s.now % 2 == 0 then x.conv else x.conv.map (fun (c : ConvSt) => { c with retired := 0, slots := [0,1,2,3], out := some 4 }) }) }
  let i : Nat := 0
  let f : FaultRec := { kind := 5, unit := c.val, code := (if s.now % 3 == 0 then 9 else 7), arg := 0, arg2 := s.free % 6, time := 5 }
  let s := { s with faults := [f] }
  let s := s.updScript c (fun x => { x with st := (if s.now % 5 == 0 then .wedged else .faulted) })
  (i, failed, other, s, f, c)
/-- The conditions of each clause of `Obligations.FaultClassification` are met. -/
theorem test_meets_FaultClassification :
    (∃ (i : Nat) (failed : Bool) (other : Bool) (s : State), s.faults[i]? = none) ∧
    (∃ (i : Nat) (failed : Bool) (other : Bool) (s : State) (f : FaultRec), (s.faults[i]? = some f) ∧ ((classifying s.faults).contains (f.kind, f.unit) = false)) ∧
    (∃ (i : Nat) (failed : Bool) (other : Bool) (s : State) (f : FaultRec), (s.MemOk) ∧ (s.faults[i]? = some f ∧ (classifying s.faults).contains (f.kind, f.unit) = true) ∧ (f.kind ≠ 1) ∧ (f.kind ≠ 2) ∧ (f.kind ≠ 4) ∧ (f.kind ≠ 5)) ∧
    (∃ (i : Nat) (failed : Bool) (other : Bool) (s : State) (f : FaultRec), (s.faults[i]? = some f) ∧ ((f.kind, f.unit) ∉ (s.faults.take i).map (fun e => (e.kind, e.unit))) ∧ (4 ≤ ((s.faults.take i).map (fun e => (e.kind, e.unit))).dedup.length)) ∧
    (∃ (i : Nat) (failed : Bool) (other : Bool) (s : State) (f : FaultRec), (s.MemOk) ∧ (s.faults[i]? = some f) ∧ (((s.faults.take i).map (fun e => (e.kind, e.unit))).dedup.length < 4) ∧ (∀ p : PortId, (s.port p).pipe.fails = [])) ∧
    (∃ (i : Nat) (failed : Bool) (other : Bool) (s : State) (f : FaultRec) (c : ChanId) (d : CurDesc), (s.MemOk) ∧ (s.faults[i]? = some f ∧ (classifying s.faults).contains (f.kind, f.unit) = true) ∧ (f.kind = 4) ∧ (f.unit = c.val) ∧ ((s.chan c).cur = some d) ∧ ((s.chan c).barrier = false) ∧ ((s.chan c).held = []) ∧ (s.link.d3hot = false) ∧ (s.link.perst = false)) ∧
    (∃ (i : Nat) (failed : Bool) (other : Bool) (s : State) (f : FaultRec) (c : ChanId), (s.MemOk) ∧ (s.faults[i]? = some f ∧ (classifying s.faults).contains (f.kind, f.unit) = true) ∧ (f.kind = 4) ∧ (f.unit = c.val) ∧ ((s.chan c).cur = none)) ∧
    (∃ (i : Nat) (other : Bool) (s : State) (f : FaultRec) (u : UnitId), (s.MemOk) ∧ (s.faults[i]? = some f ∧ (classifying s.faults).contains (f.kind, f.unit) = true) ∧ (u = uid (if f.kind = 1 then f.unit else 16 + f.unit)) ∧ (f.kind = 1 ∨ f.kind = 2) ∧ (f.code ∉ [4, 7, 8, 9]) ∧ ((s.unit u).st = .faulted) ∧ ((s.unit u).cut = none) ∧ (∀ g : GroupId, s.groups[g].armed = none) ∧ ((s.faults.eraseIdx i).any (fun e => e.kind == f.kind && e.unit == f.unit) = false) ∧ ((s.unit u).back ≠ .draining) ∧ (f.joined = [])) ∧
    (∃ (i : Nat) (other : Bool) (s : State) (f : FaultRec) (u : UnitId) (p : PortId) (k : Fin 16) (o : Nat), (s.MemOk) ∧ (s.faults[i]? = some f ∧ (classifying s.faults).contains (f.kind, f.unit) = true) ∧ (u = unitOfPort p) ∧ (f.kind = 1) ∧ (f.unit = p.val) ∧ (f.code = 1 ∨ f.code = 2) ∧ (f.arg = k.val) ∧ (f.arg2 < 5) ∧ ((s.port p).conv[k].retired = 0) ∧ ((s.port p).conv[k].out = some o) ∧ (((s.unit u).faultTimes.filter (fun n => decide (s.now < n + 1000000000))).length < 2) ∧ ((s.unit u).st = .faulted) ∧ ((s.unit u).cut = none) ∧ (∀ g : GroupId, s.groups[g].armed = none) ∧ ((s.faults.eraseIdx i).any (fun e => e.kind == f.kind && e.unit == f.unit) = false) ∧ ((s.unit u).back ≠ .draining) ∧ (f.joined = [])) ∧
    (∃ (i : Nat) (other : Bool) (s : State) (f : FaultRec) (u : UnitId) (p : PortId) (k : Fin 16), (s.MemOk) ∧ (s.faults[i]? = some f ∧ (classifying s.faults).contains (f.kind, f.unit) = true) ∧ (u = unitOfPort p) ∧ (f.kind = 1) ∧ (f.unit = p.val) ∧ (f.code = 1 ∨ f.code = 2) ∧ (f.arg = k.val) ∧ (f.arg2 < 5) ∧ ((s.port p).conv[k].out = none) ∧ (bitN (s.port p).conv[k].retired f.arg2 = false) ∧ ((s.port p).conv[k].retired ≠ 0) ∧ (∀ j : Fin 16, s.inputLost p j = false) ∧ (((s.unit u).faultTimes.filter (fun n => decide (s.now < n + 1000000000))).length < 2) ∧ ((s.unit u).st = .faulted) ∧ ((s.unit u).cut = none) ∧ (∀ g : GroupId, s.groups[g].armed = none) ∧ ((s.faults.eraseIdx i).any (fun e => e.kind == f.kind && e.unit == f.unit) = false) ∧ ((s.unit u).back ≠ .draining) ∧ (f.joined = [])) ∧
    (∃ (i : Nat) (other : Bool) (s : State) (f : FaultRec) (u : UnitId) (p : PortId), (s.MemOk) ∧ (s.faults[i]? = some f ∧ (classifying s.faults).contains (f.kind, f.unit) = true) ∧ (u = unitOfPort p) ∧ (f.kind = 1) ∧ (f.unit = p.val) ∧ (f.code = 4 ∨ (f.code = 5 ∧ s.noSpare p = false)) ∧ (f.arg < 8) ∧ (((s.unit u).faultTimes.filter (fun n => decide (s.now < n + 1000000000))).length < 2) ∧ (f.code = 4 → other = false) ∧ ((s.unit u).st = .faulted) ∧ ((s.unit u).cut = none) ∧ (∀ g : GroupId, s.groups[g].armed = none) ∧ ((s.faults.eraseIdx i).any (fun e => e.kind == f.kind && e.unit == f.unit) = false) ∧ ((s.unit u).back ≠ .draining) ∧ (f.joined = [])) ∧
    (∃ (i : Nat) (other : Bool) (s : State) (f : FaultRec) (u : UnitId) (p : PortId), (s.MemOk) ∧ (s.faults[i]? = some f ∧ (classifying s.faults).contains (f.kind, f.unit) = true) ∧ (u = unitOfPort p) ∧ (f.kind = 1) ∧ (f.unit = p.val) ∧ (f.code = 4 ∧ other = true ∨ f.code = 5 ∧ s.noSpare p = true) ∧ ((s.port p).pipe.fails = []) ∧ ((s.unit u).st = .faulted) ∧ ((s.unit u).cut = none) ∧ (∀ g : GroupId, s.groups[g].armed = none)) ∧
    (∃ (i : Nat) (other : Bool) (s : State) (f : FaultRec) (u : UnitId) (p : PortId), (s.MemOk) ∧ (s.faults[i]? = some f ∧ (classifying s.faults).contains (f.kind, f.unit) = true) ∧ (u = unitOfPort p) ∧ (f.kind = 1) ∧ (f.unit = p.val) ∧ (f.code = 7) ∧ (f.arg2 ≠ 5) ∧ ((s.port p).pipe.fails = []) ∧ ((s.unit u).st = .faulted) ∧ ((s.unit u).cut = none) ∧ (∀ g : GroupId, s.groups[g].armed = none)) ∧
    (∃ (i : Nat) (other : Bool) (s : State) (f : FaultRec) (u : UnitId) (a : AxisId), (s.MemOk) ∧ (s.faults[i]? = some f ∧ (classifying s.faults).contains (f.kind, f.unit) = true) ∧ (u = unitOfAxis a) ∧ (f.kind = 2) ∧ (f.unit = a.val) ∧ (f.code = 7) ∧ (f.arg2 ≠ 5) ∧ ((s.unit u).st = .faulted) ∧ ((s.unit u).cut = none)) ∧
    (∃ (i : Nat) (other : Bool) (s : State) (f : FaultRec) (u : UnitId), (s.MemOk) ∧ (s.faults[i]? = some f ∧ (classifying s.faults).contains (f.kind, f.unit) = true) ∧ (u = uid (if f.kind = 1 then f.unit else 16 + f.unit)) ∧ (f.kind = 1 ∨ f.kind = 2) ∧ (f.code = 7 ∨ f.code = 8 ∨ f.code = 9) ∧ (∀ p : PortId, (s.port p).pipe.fails = []) ∧ (((s.unit u).faultTimes.filter (fun n => decide (s.now < n + 1000000000))).length < 2) ∧ ((s.unit u).st = .faulted) ∧ ((s.unit u).cut = none) ∧ (∀ g : GroupId, s.groups[g].armed = none) ∧ ((s.faults.eraseIdx i).any (fun e => e.kind == f.kind && e.unit == f.unit) = false) ∧ ((s.unit u).back ≠ .draining) ∧ (f.joined = [])) ∧
    (∃ (i : Nat) (other : Bool) (s : State) (f : FaultRec) (u : UnitId), (s.MemOk) ∧ (s.faults[i]? = some f ∧ (classifying s.faults).contains (f.kind, f.unit) = true) ∧ (u = uid (if f.kind = 1 then f.unit else 16 + f.unit)) ∧ (f.kind = 1 ∨ f.kind = 2) ∧ (f.code = 7 ∨ f.code = 8 ∨ f.code = 9) ∧ (∀ p : PortId, (s.port p).pipe.fails = []) ∧ (2 ≤ ((s.unit u).faultTimes.filter (fun n => decide (s.now < n + 1000000000))).length) ∧ ((s.unit u).st = .faulted) ∧ ((s.unit u).cut = none) ∧ (∀ g : GroupId, s.groups[g].armed = none)) ∧
    (∃ (i : Nat) (other : Bool) (s : State) (f : FaultRec) (u : UnitId) (p : PortId), (s.MemOk) ∧ (s.faults[i]? = some f ∧ (classifying s.faults).contains (f.kind, f.unit) = true) ∧ (u = unitOfPort p) ∧ (f.kind = 1) ∧ (f.unit = p.val) ∧ (f.code = 1 ∨ f.code = 2 ∨ f.code = 5) ∧ (s.noSpare p = false) ∧ ((s.port p).pipe.fails = []) ∧ (f.arg2 < 5) ∧ (bitN (s.port p).conv[f.arg % 16].retired f.arg2 = false) ∧ (2 ≤ ((s.unit u).faultTimes.filter (fun n => decide (s.now < n + 1000000000))).length) ∧ ((s.unit u).st = .faulted) ∧ ((s.unit u).cut = none) ∧ (∀ g : GroupId, s.groups[g].armed = none) ∧ (f.joined = [])) ∧
    (∃ (i : Nat) (other : Bool) (s : State) (f : FaultRec) (u : UnitId) (p : PortId), (s.MemOk) ∧ (s.faults[i]? = some f ∧ (classifying s.faults).contains (f.kind, f.unit) = true) ∧ (u = unitOfPort p) ∧ (f.kind = 1) ∧ (f.unit = p.val) ∧ (f.code ∉ [4, 7, 8, 9]) ∧ (f.hasCode [7, 8, 9] = true) ∧ (∀ e ∈ f.joined, e.1 ≠ 8 ∨ e.2 < 16) ∧ ((s.port p).pipe.fails = []) ∧ ((s.unit u).back = .running) ∧ ((s.unit u).st = .faulted) ∧ ((s.unit u).cut = none) ∧ (∀ g : GroupId, s.groups[g].armed = none) ∧ ((s.faults.eraseIdx i).any (fun e => e.kind == f.kind && e.unit == f.unit) = false)) ∧
    (∃ (i : Nat) (other : Bool) (s : State) (f : FaultRec) (u : UnitId) (a : AxisId), (s.MemOk) ∧ (s.faults[i]? = some f ∧ (classifying s.faults).contains (f.kind, f.unit) = true) ∧ (u = unitOfAxis a) ∧ (f.kind = 2) ∧ (f.unit = a.val) ∧ (f.code = 7 ∨ f.code = 8 ∨ f.code = 9) ∧ ((s.unit u).st = .faulted) ∧ ((s.unit u).cut = none)) ∧
    (∃ (i : Nat) (failed : Bool) (other : Bool) (s : State) (f : FaultRec) (c : ScriptId), (s.MemOk) ∧ (s.faults[i]? = some f ∧ (classifying s.faults).contains (f.kind, f.unit) = true) ∧ (f.kind = 5) ∧ (f.unit = c.val) ∧ ((s.script c).st = .faulted ∨ ((s.script c).st = .wedged ∧ (failed = true ∨ f.arg2 = 5 ∨ f.code = 9)))) :=
  ⟨⟨wFaultClassification0.1, wFaultClassification0.2.1, wFaultClassification0.2.2.1, wFaultClassification0.2.2.2, by decide +kernel⟩,
   ⟨wFaultClassification1.1, wFaultClassification1.2.1, wFaultClassification1.2.2.1, wFaultClassification1.2.2.2.1, wFaultClassification1.2.2.2.2, by decide +kernel⟩,
   ⟨wFaultClassification2.1, wFaultClassification2.2.1, wFaultClassification2.2.2.1, wFaultClassification2.2.2.2.1, wFaultClassification2.2.2.2.2, memOk_of _ (by decide +kernel), (by decide +kernel), (by decide +kernel), (by decide +kernel), (by decide +kernel), (by decide +kernel)⟩,
   ⟨wFaultClassification3.1, wFaultClassification3.2.1, wFaultClassification3.2.2.1, wFaultClassification3.2.2.2.1, wFaultClassification3.2.2.2.2, by decide +kernel⟩,
   ⟨wFaultClassification4.1, wFaultClassification4.2.1, wFaultClassification4.2.2.1, wFaultClassification4.2.2.2.1, wFaultClassification4.2.2.2.2, memOk_of _ (by decide +kernel), (by decide +kernel), (by decide +kernel), (by decide +kernel)⟩,
   ⟨wFaultClassification5.1, wFaultClassification5.2.1, wFaultClassification5.2.2.1, wFaultClassification5.2.2.2.1, wFaultClassification5.2.2.2.2.1, wFaultClassification5.2.2.2.2.2.1, wFaultClassification5.2.2.2.2.2.2, memOk_of _ (by decide +kernel), (by decide +kernel), (by decide +kernel), (by decide +kernel), (by decide +kernel), (by decide +kernel), (by decide +kernel), (by decide +kernel), (by decide +kernel)⟩,
   ⟨wFaultClassification6.1, wFaultClassification6.2.1, wFaultClassification6.2.2.1, wFaultClassification6.2.2.2.1, wFaultClassification6.2.2.2.2.1, wFaultClassification6.2.2.2.2.2, memOk_of _ (by decide +kernel), (by decide +kernel), (by decide +kernel), (by decide +kernel), (by decide +kernel)⟩,
   ⟨wFaultClassification7.1, wFaultClassification7.2.1, wFaultClassification7.2.2.1, wFaultClassification7.2.2.2.1, wFaultClassification7.2.2.2.2, memOk_of _ (by decide +kernel), (by decide +kernel), (by decide +kernel), (by decide +kernel), (by decide +kernel), (by decide +kernel), (by decide +kernel), (by decide +kernel), (by decide +kernel), (by decide +kernel), (by decide +kernel)⟩,
   ⟨wFaultClassification8.1, wFaultClassification8.2.1, wFaultClassification8.2.2.1, wFaultClassification8.2.2.2.1, wFaultClassification8.2.2.2.2.1, wFaultClassification8.2.2.2.2.2.1, wFaultClassification8.2.2.2.2.2.2.1, wFaultClassification8.2.2.2.2.2.2.2, memOk_of _ (by decide +kernel), (by decide +kernel), (by decide +kernel), (by decide +kernel), (by decide +kernel), (by decide +kernel), (by decide +kernel), (by decide +kernel), (by decide +kernel), (by decide +kernel), (by decide +kernel), (by decide +kernel), (by decide +kernel), (by decide +kernel), (by decide +kernel), (by decide +kernel), (by decide +kernel)⟩,
   ⟨wFaultClassification9.1, wFaultClassification9.2.1, wFaultClassification9.2.2.1, wFaultClassification9.2.2.2.1, wFaultClassification9.2.2.2.2.1, wFaultClassification9.2.2.2.2.2.1, wFaultClassification9.2.2.2.2.2.2, memOk_of _ (by decide +kernel), (by decide +kernel), (by decide +kernel), (by decide +kernel), (by decide +kernel), (by decide +kernel), (by decide +kernel), (by decide +kernel), (by decide +kernel), (by decide +kernel), (by decide +kernel), (by decide +kernel), (by decide +kernel), (by decide +kernel), (by decide +kernel), (by decide +kernel), (by decide +kernel), (by decide +kernel), (by decide +kernel)⟩,
   ⟨wFaultClassification10.1, wFaultClassification10.2.1, wFaultClassification10.2.2.1, wFaultClassification10.2.2.2.1, wFaultClassification10.2.2.2.2.1, wFaultClassification10.2.2.2.2.2, memOk_of _ (by decide +kernel), (by decide +kernel), (by decide +kernel), (by decide +kernel), (by decide +kernel), (by decide +kernel), (by decide +kernel), (by decide +kernel), (by decide +kernel), (by decide +kernel), (by decide +kernel), (by decide +kernel), (by decide +kernel), (by decide +kernel), (by decide +kernel)⟩,
   ⟨wFaultClassification11.1, wFaultClassification11.2.1, wFaultClassification11.2.2.1, wFaultClassification11.2.2.2.1, wFaultClassification11.2.2.2.2.1, wFaultClassification11.2.2.2.2.2, memOk_of _ (by decide +kernel), (by decide +kernel), (by decide +kernel), (by decide +kernel), (by decide +kernel), (by decide +kernel), (by decide +kernel), (by decide +kernel), (by decide +kernel), (by decide +kernel)⟩,
   ⟨wFaultClassification12.1, wFaultClassification12.2.1, wFaultClassification12.2.2.1, wFaultClassification12.2.2.2.1, wFaultClassification12.2.2.2.2.1, wFaultClassification12.2.2.2.2.2, memOk_of _ (by decide +kernel), (by decide +kernel), (by decide +kernel), (by decide +kernel), (by decide +kernel), (by decide +kernel), (by decide +kernel), (by decide +kernel), (by decide +kernel), (by decide +kernel), (by decide +kernel)⟩,
   ⟨wFaultClassification13.1, wFaultClassification13.2.1, wFaultClassification13.2.2.1, wFaultClassification13.2.2.2.1, wFaultClassification13.2.2.2.2.1, wFaultClassification13.2.2.2.2.2, memOk_of _ (by decide +kernel), (by decide +kernel), (by decide +kernel), (by decide +kernel), (by decide +kernel), (by decide +kernel), (by decide +kernel), (by decide +kernel), (by decide +kernel)⟩,
   ⟨wFaultClassification14.1, wFaultClassification14.2.1, wFaultClassification14.2.2.1, wFaultClassification14.2.2.2.1, wFaultClassification14.2.2.2.2, memOk_of _ (by decide +kernel), (by decide +kernel), (by decide +kernel), (by decide +kernel), (by decide +kernel), (by decide +kernel), (by decide +kernel), (by decide +kernel), (by decide +kernel), (by decide +kernel), (by decide +kernel), (by decide +kernel), (by decide +kernel)⟩,
   ⟨wFaultClassification15.1, wFaultClassification15.2.1, wFaultClassification15.2.2.1, wFaultClassification15.2.2.2.1, wFaultClassification15.2.2.2.2, memOk_of _ (by decide +kernel), (by decide +kernel), (by decide +kernel), (by decide +kernel), (by decide +kernel), (by decide +kernel), (by decide +kernel), (by decide +kernel), (by decide +kernel), (by decide +kernel)⟩,
   ⟨wFaultClassification16.1, wFaultClassification16.2.1, wFaultClassification16.2.2.1, wFaultClassification16.2.2.2.1, wFaultClassification16.2.2.2.2.1, wFaultClassification16.2.2.2.2.2, memOk_of _ (by decide +kernel), (by decide +kernel), (by decide +kernel), (by decide +kernel), (by decide +kernel), (by decide +kernel), (by decide +kernel), (by decide +kernel), (by decide +kernel), (by decide +kernel), (by decide +kernel), (by decide +kernel), (by decide +kernel), (by decide +kernel), (by decide +kernel)⟩,
   ⟨wFaultClassification17.1, wFaultClassification17.2.1, wFaultClassification17.2.2.1, wFaultClassification17.2.2.2.1, wFaultClassification17.2.2.2.2.1, wFaultClassification17.2.2.2.2.2, memOk_of _ (by decide +kernel), (by decide +kernel), (by decide +kernel), (by decide +kernel), (by decide +kernel), (by decide +kernel), (by decide +kernel), (by decide +kernel), (by decide +kernel), (by decide +kernel), (by decide +kernel), (by decide +kernel), (by decide +kernel), (by decide +kernel)⟩,
   ⟨wFaultClassification18.1, wFaultClassification18.2.1, wFaultClassification18.2.2.1, wFaultClassification18.2.2.2.1, wFaultClassification18.2.2.2.2.1, wFaultClassification18.2.2.2.2.2, memOk_of _ (by decide +kernel), (by decide +kernel), (by decide +kernel), (by decide +kernel), (by decide +kernel), (by decide +kernel), (by decide +kernel), (by decide +kernel)⟩,
   ⟨wFaultClassification19.1, wFaultClassification19.2.1, wFaultClassification19.2.2.1, wFaultClassification19.2.2.2.1, wFaultClassification19.2.2.2.2.1, wFaultClassification19.2.2.2.2.2, memOk_of _ (by decide +kernel), (by decide +kernel), (by decide +kernel), (by decide +kernel), (by decide +kernel)⟩⟩
def wFullResetAndItsEnd0 : CtxId × Word × State :=
  let c : CtxId := 0
  let v : Word := 0
  let s : State := State.reset
  let s := own s
  (c, v, s)
def wFullResetAndItsEnd1 : CtxId × Word × State :=
  let c : CtxId := 0
  let v : Word := 0
  let s : State := State.reset
  let s := own { s with regs := [] }
  let s := { s with ports := s.ports.map (fun (x : PortSt) => { x with pipe := { x.pipe with fails := [] } }) }
  let s := { s with chans := s.chans.map (fun (x : ChanSt) => if s.now % 3 == 0 then x else { x with held := [], barrier := false }) }
  let s := { s with mgt := { s.mgt with resetBusy := false } }
  let v : Word := 0x9640 + (v <<< 16)
  (c, v, s)
def wFullResetAndItsEnd2 : List UnitId × (List (Nat × Nat × Nat)) × (List (PortId × Nat)) × State :=
  let failed : List UnitId := []
  let bad : List (Nat × Nat × Nat) := []
  let corr : List (PortId × Nat) := []
  let s : State := State.reset
  (failed, bad, corr, s)
def wFullResetAndItsEnd3 : List UnitId × State :=
  let failed : List UnitId := []
  let s : State := State.reset
  let s := own { s with regs := [] }
  let s := { s with ports := s.ports.map (fun (x : PortSt) => { x with pipe := { x.pipe with fails := [] } }) }
  let s := { s with chans := s.chans.map (fun (x : ChanSt) => if s.now % 3 == 0 then x else { x with held := [], barrier := false }) }
  let s := { s with mgt := { s.mgt with resetBusy := false } }
  let s := { s with mgt := { s.mgt with resetBusy := true }, groups := s.groups.map (fun (g : Group) => { g with armed := none }) }
  let k : Nat := 0
  let sts : List UState := [.off, .loaded, .halted, .faulted, .wedged, .armed]
  let s := { s with units := Vector.ofFn (fun (i : Fin 24) => { s.units[i] with cut := none, due := [], prior := (if i.val < 8 then .halted else .running), st := (if i.val % 3 = 0 then .running else (sts[(i.val + k) % 6]?).getD .off) }) }
  let failed : List UnitId := ([3, 20] : List UnitId).filter (fun u => (s.unit u).st != .off)
  let s := { s with ports := s.ports.map (fun (x : PortSt) => { x with pipe := { x.pipe with cap := none, fails := [] } }) }
  (failed, s)
/-- The conditions of each clause of `Obligations.FullResetAndItsEnd` are met. -/
theorem test_meets_FullResetAndItsEnd :
    (∃ (c : CtxId) (v : Word) (s : State), (s.Serves c Off.HIF_RESET true) ∧ (s.mgt.resetBusy = true ∨ fld v.toNat 15 0 ≠ 0x9640)) ∧
    (∃ (c : CtxId) (v : Word) (s : State), (s.MemOk) ∧ (s.Serves c Off.HIF_RESET true) ∧ (s.mgt.resetBusy = false) ∧ (fld v.toNat 15 0 = 0x9640) ∧ (∀ p : PortId, (s.port p).pipe.fails = [])) ∧
    (∃ (failed : List UnitId) (bad : List (Nat × Nat × Nat)) (corr : List (PortId × Nat)) (s : State), s.mgt.resetBusy = false) ∧
    (∃ (failed : List UnitId) (s : State), (s.MemOk) ∧ (s.mgt.resetBusy = true) ∧ (∀ u : UnitId, (s.unit u).cut = none ∧ (s.unit u).due = [] ∧ (s.unit u).prior ≠ .draining) ∧ (∀ g : GroupId, s.groups[g].armed = none) ∧ (∀ p : PortId, (s.port p).pipe.fails = []) ∧ (∀ u ∈ failed, (s.unit u).st ≠ .off)) :=
  ⟨⟨wFullResetAndItsEnd0.1, wFullResetAndItsEnd0.2.1, wFullResetAndItsEnd0.2.2, by unfold State.Serves; decide +kernel⟩,
   ⟨wFullResetAndItsEnd1.1, wFullResetAndItsEnd1.2.1, wFullResetAndItsEnd1.2.2, memOk_of _ (by decide +kernel), (by unfold State.Serves; decide +kernel), (by decide +kernel), (by decide +kernel), (by decide +kernel)⟩,
   ⟨wFullResetAndItsEnd2.1, wFullResetAndItsEnd2.2.1, wFullResetAndItsEnd2.2.2.1, wFullResetAndItsEnd2.2.2.2, by decide +kernel⟩,
   ⟨wFullResetAndItsEnd3.1, wFullResetAndItsEnd3.2, memOk_of _ (by decide +kernel), (by decide +kernel), (by decide +kernel), (by decide +kernel), (by decide +kernel), (by decide +kernel)⟩⟩
def wPowerOnAndSupplyFault1 : BootInfo × State :=
  let b : BootInfo := dBootInfo
  let s : State := State.reset
  let b := { b with badSlices := [], badLanes := [], cals := [], banks := b.banks % 2 ^ 24, refA := (if s.free % 2 == 0 then ⟨99950000 + s.free, 40000⟩ else b.refA), refB := (if s.free % 3 == 0 then ⟨100050000, 100⟩ else b.refB) }
  let s := { s with mgt := { s.mgt with fwSlot := s.mgt.fwSlot % 2, cfgNext := s.mgt.cfgNext } }
  (b, s)
def wPowerOnAndSupplyFault2 : BootInfo × State × PortId × Fin 16 × Nat :=
  let b : BootInfo := dBootInfo
  let s : State := State.reset
  let p : PortId := 0
  let k : Fin 16 := 0
  let x : Nat := 0
  let x := x % 4
  let b := { b with badSlices := [(p.val, k.val, x)], badLanes := [], cals := [] }
  (b, s, p, k, x)
def wPowerOnAndSupplyFault3 : BootInfo × State × PortId × Nat :=
  let b : BootInfo := dBootInfo
  let s : State := State.reset
  let p : PortId := 0
  let l : Nat := 0
  let l := l % 8
  let b := { b with badSlices := [], badLanes := [(p.val, l)] }
  (b, s, p, l)
/-- The conditions of each clause of `Obligations.PowerOnAndSupplyFault` are met. -/
theorem test_meets_PowerOnAndSupplyFault :
    (∃ (b : BootInfo) (s : State), (b.badSlices = []) ∧ (b.badLanes = []) ∧ (b.cals = [])) ∧
    (∃ (b : BootInfo) (s : State) (p : PortId) (k : Fin 16) (x : Nat), (b.badSlices = [(p.val, k.val, x)]) ∧ (b.badLanes = []) ∧ (b.cals = []) ∧ (x < 4)) ∧
    (∃ (b : BootInfo) (s : State) (p : PortId) (l : Nat), (b.badLanes = [(p.val, l)]) ∧ (b.badSlices = []) ∧ (l < 8)) :=
  ⟨⟨wPowerOnAndSupplyFault1.1, wPowerOnAndSupplyFault1.2, by decide +kernel⟩,
   ⟨wPowerOnAndSupplyFault2.1, wPowerOnAndSupplyFault2.2.1, wPowerOnAndSupplyFault2.2.2.1, wPowerOnAndSupplyFault2.2.2.2.1, wPowerOnAndSupplyFault2.2.2.2.2, by decide +kernel⟩,
   ⟨wPowerOnAndSupplyFault3.1, wPowerOnAndSupplyFault3.2.1, wPowerOnAndSupplyFault3.2.2.1, wPowerOnAndSupplyFault3.2.2.2, by decide +kernel⟩⟩
def wLinkResetAndPtm0 : Nat × Nat × Bool × Option PciCfg × State :=
  let width : Nat := 0
  let rate : Nat := 0
  let flit : Bool := false
  let cfg : Option PciCfg := none
  let s : State := State.reset
  (width, rate, flit, cfg, s)
def wLinkResetAndPtm1 : Nat × Nat × Bool × State :=
  let width : Nat := 0
  let rate : Nat := 0
  let flit : Bool := false
  let s : State := State.reset
  let width := width % 17
  let rate := rate % 8
  let s := { s with link := { s.link with perst := false, up := true } }
  (width, rate, flit, s)
def wLinkResetAndPtm2 : Nat × Nat × Bool × PciCfg × State :=
  let width : Nat := 0
  let rate : Nat := 0
  let flit : Bool := false
  let k : PciCfg := dPciCfg
  let s : State := State.reset
  let width := width % 17
  let rate := rate % 8
  let k := { k with aerError := k.aerError.map (fun e => (e.1 % 32, e.2)), aerClear := k.aerClear % 2 ^ 32 }
  let s := { s with link := { s.link with perst := false, pci := { s.link.pci with aerStatus := s.link.pci.aerStatus % 2 ^ 32 } } }
  (width, rate, flit, k, s)
def wLinkResetAndPtm3 : Nat × State :=
  let width : Nat := 0
  let s : State := State.reset
  let s := { s with link := { s.link with width := 4, trained := 16, up := true } }
  let width := 5 + width % 12
  (width, s)
def wLinkResetAndPtm4 : Nat × State :=
  let width : Nat := 0
  let s : State := State.reset
  let s := { s with regs := [], units := s.units.map (fun (u : UnitSt) => { u with st := .off, cut := none }), link := { s.link with width := 16, trained := 16, up := true, rate := 5 } }
  let width := 1 + width % 2
  (width, s)
def wLinkResetAndPtm5 : Nat × State :=
  let width : Nat := 0
  let s : State := State.reset
  (width, s)
def wLinkResetAndPtm7 : State :=
  let s : State := State.reset
  (s)
def wLinkResetAndPtm8 : State :=
  let s : State := State.reset
  let s := { s with regs := [], chans := s.chans.map (fun (x : ChanSt) => { x with held := [] }), link := { s.link with d3hot := true, perst := false } }
  (s)
def wLinkResetAndPtm9 : State × ChanId × HandBack :=
  let s : State := State.reset
  let c : ChanId := 0
  let b : HandBack := dHandBack
  let s := { s with regs := [], chans := s.chans.map (fun (x : ChanSt) => { x with held := [] }), link := { s.link with d3hot := true, perst := false, heldMsgs := [] } }
  let s := s.updChan c (fun x => { x with barrier := false, eocCount := 1, eocAt := 10, k := 5, held := [{ bar := false, hb := some b, events := [], fin := none }] })
  (s, c, b)
def wLinkResetAndPtm10 : State :=
  let s : State := State.reset
  let s := { s with regs := [], link := { s.link with d3hot := true, perst := false } }
  (s)
def wLinkResetAndPtm11 : Bool × State :=
  let href : Bool := false
  let s : State := State.reset
  (href, s)
def wLinkResetAndPtm12 : Bool × State :=
  let href : Bool := false
  let s : State := State.reset
  let s := (s.setReg 0 Off.CLK_REF_STAT 0).setReg 0 (Off.CLK_BANK + 76) 0x80000000
  (href, s)
def wLinkResetAndPtm13 : State :=
  let s : State := State.reset
  let s := s.setReg 0 Off.CLK_REF_STAT 0
  (s)
def wLinkResetAndPtm14 : IdeKm × State :=
  let m : IdeKm := .query
  let s : State := State.reset
  let s := { s with link := { s.link with up := false } }
  (m, s)
def wLinkResetAndPtm15 : State :=
  let s : State := State.reset
  let s := { s with link := { s.link with up := true } }
  (s)
def wLinkResetAndPtm16 : Nat × List Byte × State :=
  let slot : Nat := 0
  let key : List Byte := []
  let s : State := State.reset
  let s := { s with link := { s.link with up := true } }
  (slot, key, s)
def wLinkResetAndPtm17 : State :=
  let s : State := State.reset
  let s := { s with link := { s.link with up := true } }
  (s)
def wLinkResetAndPtm18 : State :=
  let s : State := State.reset
  let s := { s with link := { s.link with up := true } }
  (s)
def wLinkResetAndPtm19 : State :=
  let s : State := State.reset
  let s := { s with regs := [] }
  let s := (s.setReg 0 (Off.EVQ_CTL + 64) 0x10001).setReg 0 (Off.EVQ_CTL + 128) 1
  (s)
def wLinkResetAndPtm20 : Bool × Int × State :=
  let ok : Bool := false
  let offset : Int := 0
  let s : State := State.reset
  let s := { s with link := { s.link with up := false } }
  (ok, offset, s)
def wLinkResetAndPtm21 : Int × State :=
  let offset : Int := 0
  let s : State := State.reset
  let q : Nat := 0
  let q1 : Nat := 0
  let offset : Int := if q1 == 0 then 5000 else if q1 == 1 then -15 else 20
  let s := { s with regs := [] }
  let s := s.setReg 0 Off.HIF_PTM_CTL 1
  let s := { s with link := { s.link with pci := { s.link.pci with ptmEn := true }, up := true, ptmBad := q, ptmGood := q } }
  (offset, s)
def wLinkResetAndPtm22 : Int × State :=
  let offset : Int := 9
  let s : State := State.reset
  let q : Nat := 3
  let q1 : Nat := 2
  let offset : Int := if q1 == 0 then 5000 else if q1 == 1 then -15 else 20
  let s := { s with regs := [] }
  let s := s.setReg 0 Off.HIF_PTM_CTL 1
  let s := { s with link := { s.link with pci := { s.link.pci with ptmEn := true }, up := true, ptmBad := q, ptmGood := q } }
  let s := { s with link := { s.link with ptmLocked := true } }
  (offset, s)
def wLinkResetAndPtm23 : Int × State :=
  let offset : Int := 13
  let s : State := State.reset
  let q : Nat := 2
  let q1 : Nat := 1
  let offset : Int := if q1 == 0 then 5000 else if q1 == 1 then -15 else 20
  let s := { s with regs := [] }
  let s := s.setReg 0 Off.HIF_PTM_CTL 1
  let s := { s with link := { s.link with pci := { s.link.pci with ptmEn := true }, up := true, ptmBad := q, ptmGood := q } }
  let s := { s with link := { s.link with ptmStepped := (q == 0) } }
  (offset, s)
def wLinkResetAndPtm24 : Int × State :=
  let offset : Int := 0
  let s : State := State.reset
  let q : Nat := 0
  let q1 : Nat := 0
  let offset : Int := if q1 == 0 then 5000 else if q1 == 1 then -15 else 20
  let s := { s with regs := [] }
  let s := s.setReg 0 Off.HIF_PTM_CTL 1
  let s := { s with link := { s.link with pci := { s.link.pci with ptmEn := true }, up := true, ptmBad := q, ptmGood := q } }
  let s := { s with link := { s.link with ptmStepped := true } }
  let offset : Int := if q == 0 then 4000 else -40000
  (offset, s)
def wLinkResetAndPtm25 : Int × State :=
  let offset : Int := 9
  let s : State := State.reset
  let q : Nat := 3
  let q1 : Nat := 2
  let offset : Int := if q1 == 0 then 5000 else if q1 == 1 then -15 else 20
  let s := { s with regs := [] }
  let s := s.setReg 0 Off.HIF_PTM_CTL 1
  let s := { s with link := { s.link with pci := { s.link.pci with ptmEn := true }, up := true, ptmBad := q, ptmGood := q } }
  let s := { s with units := s.units.map (fun (u : UnitSt) => { u with ran := false }), link := { s.link with ptmStepped := false } }
  let offset : Int := if q1 == 0 then 15 else -15
  (offset, s)
/-- The conditions of each clause of `Obligations.LinkResetAndPtm` are met. -/
theorem test_meets_LinkResetAndPtm :
    (∃ (width : Nat) (rate : Nat) (flit : Bool) (cfg : Option PciCfg) (s : State), s.link.perst = true) ∧
    (∃ (width : Nat) (rate : Nat) (flit : Bool) (s : State), (s.link.perst = false) ∧ (width ≤ 16) ∧ (rate < 8)) ∧
    (∃ (width : Nat) (rate : Nat) (flit : Bool) (k : PciCfg) (s : State), (s.link.perst = false) ∧ (width ≤ 16) ∧ (rate < 8) ∧ (k.bar0 < 2 ^ 64) ∧ (k.bar4 < 2 ^ 64) ∧ (∀ e ∈ k.aerError, e.1 < 32)) ∧
    (∃ (width : Nat) (s : State), (s.link.up = true) ∧ (s.link.width < width) ∧ (width ≤ s.link.trained)) ∧
    (∃ (width : Nat) (s : State), (s.link.up = true) ∧ (width < s.link.width) ∧ (s.link.width ≤ s.link.trained)) ∧
    (∃ (width : Nat) (s : State), s.link.up = false ∨ s.link.trained < width ∨ width = s.link.width) ∧
    (∃ (s : State), s.link.d3hot = false) ∧
    (∃ (s : State), (s.MemOk) ∧ (s.link.d3hot = true) ∧ (s.link.perst = false) ∧ (∀ c : ChanId, (s.chan c).held = []) ∧ (∀ q : QueueId, s.qHost q = false)) ∧
    (∃ (s : State) (c : ChanId) (b : HandBack), (s.link.d3hot = true) ∧ (s.link.perst = false) ∧ (s.link.heldMsgs = []) ∧ (∀ q : QueueId, s.qHost q = false) ∧ (∀ d : ChanId, d ≠ c → (s.chan d).held = []) ∧ ((s.chan c).barrier = false) ∧ ((s.chan c).held = [{ bar := false, hb := some b, events := [], fin := none }]) ∧ ((s.chan c).eocCount + 1 < (s.chan c).eocAt)) ∧
    (∃ (s : State), s.link.d3hot = true) ∧
    (∃ (href : Bool) (s : State), s.bankUp 19 = false) ∧
    (∃ (href : Bool) (s : State), (s.MemOk) ∧ (s.rf 0 (Off.CLK_BANK + 76) 31 31 = 1)) ∧
    (∃ (s : State), s.MemOk) ∧
    (∃ (m : IdeKm) (s : State), s.link.up = false) ∧
    (∃ (s : State), s.link.up = true) ∧
    (∃ (slot : Nat) (key : List Byte) (s : State), s.link.up = true) ∧
    (∃ (s : State), s.link.up = true) ∧
    (∃ (s : State), s.link.up = true) ∧
    (∃ (s : State), s.MemOk) ∧
    (∃ (ok : Bool) (offset : Int) (s : State), s.rf 0 Off.HIF_PTM_CTL 0 0 = 0 ∨ s.link.pci.ptmEn = false ∨ s.link.up = false) ∧
    (∃ (offset : Int) (s : State), (s.MemOk) ∧ (s.rf 0 Off.HIF_PTM_CTL 0 0 = 1 ∧ s.link.pci.ptmEn = true) ∧ (s.link.up = true) ∧ (s.link.ptmBad < 2 ∨ s.link.ptmLocked = false)) ∧
    (∃ (offset : Int) (s : State), (s.MemOk) ∧ (s.rf 0 Off.HIF_PTM_CTL 0 0 = 1 ∧ s.link.pci.ptmEn = true) ∧ (s.link.up = true) ∧ (2 ≤ s.link.ptmBad) ∧ (s.link.ptmLocked = true)) ∧
    (∃ (offset : Int) (s : State), (s.rf 0 Off.HIF_PTM_CTL 0 0 = 1 ∧ s.link.pci.ptmEn = true) ∧ (s.link.up = true) ∧ (s.link.ptmStepped = true ∨ s.anyRan = true ∨ ¬ (offset.natAbs ≤ 20 ∧ 3 ≤ s.link.ptmGood)) ∧ (offset.natAbs ≤ 1000)) ∧
    (∃ (offset : Int) (s : State), (s.MemOk) ∧ (s.rf 0 Off.HIF_PTM_CTL 0 0 = 1 ∧ s.link.pci.ptmEn = true) ∧ (s.link.up = true) ∧ (1000 < offset.natAbs)) ∧
    (∃ (offset : Int) (s : State), (s.rf 0 Off.HIF_PTM_CTL 0 0 = 1 ∧ s.link.pci.ptmEn = true) ∧ (s.link.up = true) ∧ (s.link.ptmStepped = false) ∧ (s.anyRan = false) ∧ (offset.natAbs ≤ 20) ∧ (3 ≤ s.link.ptmGood)) :=
  ⟨⟨wLinkResetAndPtm0.1, wLinkResetAndPtm0.2.1, wLinkResetAndPtm0.2.2.1, wLinkResetAndPtm0.2.2.2.1, wLinkResetAndPtm0.2.2.2.2, by decide +kernel⟩,
   ⟨wLinkResetAndPtm1.1, wLinkResetAndPtm1.2.1, wLinkResetAndPtm1.2.2.1, wLinkResetAndPtm1.2.2.2, by decide +kernel⟩,
   ⟨wLinkResetAndPtm2.1, wLinkResetAndPtm2.2.1, wLinkResetAndPtm2.2.2.1, wLinkResetAndPtm2.2.2.2.1, wLinkResetAndPtm2.2.2.2.2, by decide +kernel⟩,
   ⟨wLinkResetAndPtm3.1, wLinkResetAndPtm3.2, by decide +kernel⟩,
   ⟨wLinkResetAndPtm4.1, wLinkResetAndPtm4.2, by decide +kernel⟩,
   ⟨wLinkResetAndPtm5.1, wLinkResetAndPtm5.2, by decide +kernel⟩,
   ⟨wLinkResetAndPtm7, by decide +kernel⟩,
   ⟨wLinkResetAndPtm8, memOk_of _ (by decide +kernel), (by decide +kernel), (by decide +kernel), (by decide +kernel), (by decide +kernel)⟩,
   ⟨wLinkResetAndPtm9.1, wLinkResetAndPtm9.2.1, wLinkResetAndPtm9.2.2, by decide +kernel⟩,
   ⟨wLinkResetAndPtm10, by decide +kernel⟩,
   ⟨wLinkResetAndPtm11.1, wLinkResetAndPtm11.2, by decide +kernel⟩,
   ⟨wLinkResetAndPtm12.1, wLinkResetAndPtm12.2, memOk_of _ (by decide +kernel), (by decide +kernel)⟩,
   ⟨wLinkResetAndPtm13, memOk_of _ (by decide +kernel)⟩,
   ⟨wLinkResetAndPtm14.1, wLinkResetAndPtm14.2, by decide +kernel⟩,
   ⟨wLinkResetAndPtm15, by decide +kernel⟩,
   ⟨wLinkResetAndPtm16.1, wLinkResetAndPtm16.2.1, wLinkResetAndPtm16.2.2, by decide +kernel⟩,
   ⟨wLinkResetAndPtm17, by decide +kernel⟩,
   ⟨wLinkResetAndPtm18, by decide +kernel⟩,
   ⟨wLinkResetAndPtm19, memOk_of _ (by decide +kernel)⟩,
   ⟨wLinkResetAndPtm20.1, wLinkResetAndPtm20.2.1, wLinkResetAndPtm20.2.2, by decide +kernel⟩,
   ⟨wLinkResetAndPtm21.1, wLinkResetAndPtm21.2, memOk_of _ (by decide +kernel), (by decide +kernel), (by decide +kernel), (by decide +kernel)⟩,
   ⟨wLinkResetAndPtm22.1, wLinkResetAndPtm22.2, memOk_of _ (by decide +kernel), (by decide +kernel), (by decide +kernel), (by decide +kernel), (by decide +kernel)⟩,
   ⟨wLinkResetAndPtm23.1, wLinkResetAndPtm23.2, by decide +kernel⟩,
   ⟨wLinkResetAndPtm24.1, wLinkResetAndPtm24.2, memOk_of _ (by decide +kernel), (by decide +kernel), (by decide +kernel), (by decide +kernel)⟩,
   ⟨wLinkResetAndPtm25.1, wLinkResetAndPtm25.2, by decide +kernel⟩⟩
def wReferencesPllsMonitorsAndBanks0 : RefMeas × RefMeas × Bool × Bool × State :=
  let a : RefMeas := dRefMeas
  let b : RefMeas := dRefMeas
  let okA : Bool := false
  let okB : Bool := false
  let s : State := State.reset
  let s := { s with regs := [] }
  let q : Nat := 0
  let q1 : Nat := 0
  let q2 : Nat := 0
  let s := s.setReg 0 Off.CLK_REF_STAT (q + (if s.now % 2 == 0 then 48 else 16) + 65536 * 7)
  let a : RefMeas := if q1 == 0 then ⟨99950000, 40000⟩ else ⟨99949999, 20⟩
  let b : RefMeas := if q2 == 0 then ⟨100050000, 3⟩ else ⟨100000000, 40001⟩
  let okA := refGood a
  let okB := refGood b
  (a, b, okA, okB, s)
def wReferencesPllsMonitorsAndBanks1 : RefMeas × RefMeas × Bool × Bool × State :=
  let a : RefMeas := dRefMeas
  let b : RefMeas := dRefMeas
  let okA : Bool := true
  let okB : Bool := true
  let s : State := State.reset
  let s := { s with regs := [] }
  let q : Nat := 0
  let q1 : Nat := 1
  let q2 : Nat := 0
  let s := s.setReg 0 Off.CLK_REF_STAT (q + (if s.now % 2 == 0 then 48 else 16) + 65536 * 7)
  let a : RefMeas := if q1 == 0 then ⟨99950000, 40000⟩ else ⟨99949999, 20⟩
  let b : RefMeas := if q2 == 0 then ⟨100050000, 3⟩ else ⟨100000000, 40001⟩
  let okA := refGood a
  let okB := refGood b
  (a, b, okA, okB, s)
def wReferencesPllsMonitorsAndBanks2 : RefMeas × RefMeas × Bool × Bool × State :=
  let a : RefMeas := dRefMeas
  let b : RefMeas := dRefMeas
  let okA : Bool := true
  let okB : Bool := true
  let s : State := State.reset
  let s := { s with regs := [] }
  let q : Nat := 1
  let q1 : Nat := 1
  let q2 : Nat := 1
  let s := s.setReg 0 Off.CLK_REF_STAT (q + (if s.now % 2 == 0 then 48 else 16) + 65536 * 7)
  let a : RefMeas := if q1 == 0 then ⟨99950000, 40000⟩ else ⟨99949999, 20⟩
  let b : RefMeas := if q2 == 0 then ⟨100050000, 3⟩ else ⟨100000000, 40001⟩
  let okA := refGood a
  let okB := refGood b
  (a, b, okA, okB, s)
def wReferencesPllsMonitorsAndBanks3 : RefSample × Bool × Bool × State :=
  let m : RefSample := dRefSample
  let okA : Bool := false
  let okB : Bool := false
  let s : State := State.reset
  let s := { s with regs := [] }
  let q : Nat := 0
  let q1 : Nat := 0
  let q2 : Nat := 0
  let s := s.setReg 0 Off.CLK_REF_STAT (q + (if s.now % 2 == 0 then 48 else 16) + 65536 * 7)
  let a : RefMeas := if q1 == 0 then ⟨99950000, 40000⟩ else ⟨99949999, 20⟩
  let b : RefMeas := if q2 == 0 then ⟨100050000, 3⟩ else ⟨100000000, 40001⟩
  let okA := refGood a
  let okB := refGood b
  let m : RefSample := ⟨m.time, a, b⟩
  let s := (s.setReg 0 Off.CLK_REF_CTL 0)
  let s := { s with clk := { s.clk with since := Vector.ofFn (fun (i : Fin 2) => if (s.now + i.val) % 3 == 0 then s.now else s.now - 2000000000) } }
  let m := if s.free % 2 == 0 then m else { m with time := s.now + 1000000000 }
  (m, okA, okB, s)
def wReferencesPllsMonitorsAndBanks4 : RefSample × Bool × Bool × State :=
  let m : RefSample := dRefSample
  let okA : Bool := false
  let okB : Bool := false
  let s : State := State.reset
  let s := { s with regs := [] }
  let q := 3
  let q1 : Nat := 0
  let q2 : Nat := 0
  let s := s.setReg 0 Off.CLK_REF_STAT (q + (if s.now % 2 == 0 then 48 else 16) + 65536 * 7)
  let a : RefMeas := if q1 == 0 then ⟨99950000, 40000⟩ else ⟨99949999, 20⟩
  let b : RefMeas := if q2 == 0 then ⟨100050000, 3⟩ else ⟨100000000, 40001⟩
  let okA := refGood a
  let okB := refGood b
  let m : RefSample := ⟨m.time, a, b⟩
  let s := (s.setReg 0 Off.CLK_REF_CTL 0)
  let s := { s with clk := { s.clk with since := Vector.ofFn (fun (i : Fin 2) => if (s.now + i.val) % 3 == 0 then s.now else s.now - 2000000000) } }
  let m := if s.free % 2 == 0 then m else { m with time := s.now + 1000000 }
  (m, okA, okB, s)
def wReferencesPllsMonitorsAndBanks5 : PortId × State :=
  let p : PortId := 0
  let s : State := State.reset
  let s := own { s with regs := [] }
  let s := s.setReg 0 (Off.CLK_PPLL_STAT + 16 * p.val) 0x30001
  let q : Nat := 0
  let s := s.updUnit (unitOfPort p) (fun x => { x with st := (if q == 4 then .running else if q == 1 then .faulted else if q == 2 then .halted else .off) })
  (p, s)
def wReferencesPllsMonitorsAndBanks6 : PortId × State :=
  let p : PortId := 0
  let s : State := State.reset
  let s := own { s with regs := [] }
  let s := s.setReg 0 (Off.CLK_PPLL_STAT + 16 * p.val) 0x30001
  let q : Nat := 0
  let s := s.updUnit (unitOfPort p) (fun x => { x with st := (if q == 0 then .running else if q == 1 then .faulted else if q == 2 then .halted else .off) })
  (p, s)
def wReferencesPllsMonitorsAndBanks7 : PortId × State :=
  let p : PortId := 0
  let s : State := State.reset
  let s := own { s with regs := [] }
  let s := s.setReg 0 (Off.CLK_PPLL_STAT + 16 * p.val) 0x30001
  let q : Nat := 0
  let s := s.updUnit (unitOfPort p) (fun x => { x with st := (if q == 0 then .running else if q == 1 then .faulted else if q == 2 then .halted else .off) })
  (p, s)
def wReferencesPllsMonitorsAndBanks8 : CtxId × PortId × Word × State :=
  let c : CtxId := 3
  let p : PortId := 7
  let v : Word := 61
  let s : State := State.reset
  let s := own { s with regs := [] }
  let s := s.setReg 0 (Off.CLK_PPLL_STAT + 16 * p.val) 0x30001
  let q : Nat := 3
  let s := s.updUnit (unitOfPort p) (fun x => { x with st := (if q == 0 then .running else if q == 1 then .faulted else if q == 2 then .halted else .off) })
  let v : Word := BitVec.ofNat 32 (0x4000000 + 149704546)
  (c, p, v, s)
def wReferencesPllsMonitorsAndBanks9 : CtxId × PortId × Word × State :=
  let c : CtxId := 0
  let p : PortId := 0
  let v : Word := 0
  let s : State := State.reset
  let s := own { s with regs := [] }
  let s := s.setReg 0 (Off.CLK_PPLL_STAT + 16 * p.val) 0x30001
  let q : Nat := 0
  let s := s.updUnit (unitOfPort p) (fun x => { x with st := (if q == 0 then .running else if q == 1 then .faulted else if q == 2 then .halted else .off) })
  (c, p, v, s)
def wReferencesPllsMonitorsAndBanks10 : Vector Nat 9 × Vector Nat 16 × Nat × State :=
  let sys : Vector Nat 9 := (Vector.replicate 9 0)
  let ports : Vector Nat 16 := (Vector.replicate 16 0)
  let t0 : Nat := 0
  let s : State := State.reset
  let s := { s with regs := [] }
  let s := s.setReg 0 Off.CLK_DOM_OK 0
  let s := (s.setReg 0 (Off.CLK_PPLL_FREQ + 48) 0x1000000).setReg 0 (Off.TKS_DRV_STAT + 32) (4096 * (s.free % 8))
  let sys : Vector Nat 9 := Vector.ofFn (fun (i : Fin 9) => if sys[i] % 3 == 0 then sys[i] else (#[100000, 400400, 32000000, 999000, 1200000, 16000000, 200201, 100100, 5].getD i.val 0))
  let ports : Vector Nat 16 := ports.map (fun x => if x % 2 == 0 then 100000 else x)
  let s := { s with link := { s.link with up := true, rate := 5 + s.now % 3 } }
  (sys, ports, t0, s)
def wReferencesPllsMonitorsAndBanks11 : Fin 24 × Bool × State :=
  let b : Fin 24 := 17
  let up : Bool := true
  let s : State := State.reset
  let s := { s with regs := [] }
  let q : Nat := 0
  let s := s.setReg 0 (Off.CLK_BANK + 4 * b.val) (2147483648 * q)
  (b, up, s)
def wReferencesPllsMonitorsAndBanks12 : State :=
  let s : State := State.reset
  let s := { s with regs := [] }.setReg 0 (Off.CLK_BANK + 64) (2 ^ 31)
  (s)
def wReferencesPllsMonitorsAndBanks13 : State :=
  let s : State := State.reset
  let s := ({ s with regs := [], link := { s.link with perst := true } } : State).setReg 0 (Off.CLK_BANK + 76) (2 ^ 31)
  (s)
def wReferencesPllsMonitorsAndBanks14 : State :=
  let s : State := State.reset
  let s := ({ s with regs := [], link := { s.link with perst := false } } : State).setReg 0 (Off.CLK_BANK + 76) (2 ^ 31)
  (s)
def wReferencesPllsMonitorsAndBanks15 : State :=
  let s : State := State.reset
  let s := { s with regs := [], groups := s.groups.map (fun (g : Group) => { g with armed := none }), tks := { s.tks with cues := [] } }.setReg 0 (Off.CLK_BANK + 68) (2 ^ 31)
  (s)
def wReferencesPllsMonitorsAndBanks16 : Fin 24 × State × PortId :=
  let b : Fin 24 := 0
  let s : State := State.reset
  let p : PortId := 0
  let s := { s with regs := [] }
  let q : Nat := 0
  let s := s.setReg 0 (Off.CLK_BANK + 4 * p.val) (2147483648 * q)
  let b : Fin 24 := ⟨p.val, by omega⟩
  (b, s, p)
def wReferencesPllsMonitorsAndBanks17 : Fin 24 × State × PortId :=
  let b : Fin 24 := 0
  let s : State := State.reset
  let p : PortId := 0
  let s := { s with regs := [] }
  let q := 1
  let q9 : Nat := 0
  let s := s.setReg 0 (Off.CLK_BANK + 4 * p.val) (2147483648 * q)
  let b : Fin 24 := ⟨p.val, by omega⟩
  let s := s.updPort p (fun x => { x with head := { x.head with present := (q9 == 0) } })
  (b, s, p)
def wReferencesPllsMonitorsAndBanks18 : Fin 24 × Bool × State :=
  let b : Fin 24 := 0
  let up : Bool := false
  let s : State := State.reset
  let s := { s with regs := [] }
  let q : Nat := 0
  let s := s.setReg 0 (Off.CLK_BANK + 4 * b.val) (2147483648 * q)
  (b, up, s)
def wReferencesPllsMonitorsAndBanks19 : Fin 12 × Nat × State :=
  let i : Fin 12 := 0
  let temp : Nat := 0
  let s : State := State.reset
  (i, temp, s)
def wReferencesPllsMonitorsAndBanks20 : Fin 12 × Nat × State :=
  let i : Fin 12 := 0
  let temp : Nat := 0
  let s : State := State.reset
  let s := { s with clk := { s.clk with tripped := false }, axes := s.axes.map (fun (x : AxisSt) => { x with tblPend := false }) }
  let temp := 2000 + temp % 100
  (i, temp, s)
/-- The conditions of each clause of `Obligations.ReferencesPllsMonitorsAndBanks` are met. -/
theorem test_meets_ReferencesPllsMonitorsAndBanks :
    (∃ (a : RefMeas) (b : RefMeas) (okA : Bool) (okB : Bool) (s : State), (s.MemOk) ∧ (okA = decide (99950000 ≤ a.freq ∧ a.freq ≤ 100050000 ∧ a.gap ≤ 40000)) ∧ (okB = decide (99950000 ≤ b.freq ∧ b.freq ≤ 100050000 ∧ b.gap ≤ 40000)) ∧ (¬((s.refSel = 0 ∧ okA = false) ∨ (s.refSel = 1 ∧ okB = false)))) ∧
    (∃ (a : RefMeas) (b : RefMeas) (okA : Bool) (okB : Bool) (s : State), (s.MemOk) ∧ (okA = decide (99950000 ≤ a.freq ∧ a.freq ≤ 100050000 ∧ a.gap ≤ 40000)) ∧ (okB = decide (99950000 ≤ b.freq ∧ b.freq ≤ 100050000 ∧ b.gap ≤ 40000)) ∧ ((s.refSel = 0 ∧ okA = false) ∨ (s.refSel = 1 ∧ okB = false)) ∧ (okA = true ∨ okB = true)) ∧
    (∃ (a : RefMeas) (b : RefMeas) (okA : Bool) (okB : Bool) (s : State), (s.MemOk) ∧ (okA = decide (99950000 ≤ a.freq ∧ a.freq ≤ 100050000 ∧ a.gap ≤ 40000)) ∧ (okB = decide (99950000 ≤ b.freq ∧ b.freq ≤ 100050000 ∧ b.gap ≤ 40000)) ∧ ((s.refSel = 0 ∧ okA = false) ∨ (s.refSel = 1 ∧ okB = false)) ∧ (okA = false) ∧ (okB = false)) ∧
    (∃ (m : RefSample) (okA : Bool) (okB : Bool) (s : State), (s.MemOk) ∧ (okA = decide (99950000 ≤ m.a.freq ∧ m.a.freq ≤ 100050000 ∧ m.a.gap ≤ 40000)) ∧ (okB = decide (99950000 ≤ m.b.freq ∧ m.b.freq ≤ 100050000 ∧ m.b.gap ≤ 40000)) ∧ (s.refSel ≠ 3)) ∧
    (∃ (m : RefSample) (okA : Bool) (okB : Bool) (s : State), (s.MemOk) ∧ (okA = decide (99950000 ≤ m.a.freq ∧ m.a.freq ≤ 100050000 ∧ m.a.gap ≤ 40000)) ∧ (okB = decide (99950000 ≤ m.b.freq ∧ m.b.freq ≤ 100050000 ∧ m.b.gap ≤ 40000)) ∧ (s.refSel = 3)) ∧
    (∃ (p : PortId) (s : State), (s.MemOk) ∧ (s.portState p ≠ .running)) ∧
    (∃ (p : PortId) (s : State), (s.MemOk) ∧ (s.portState p = .running)) ∧
    (∃ (p : PortId) (s : State), s.MemOk) ∧
    (∃ (c : CtxId) (p : PortId) (v : Word) (s : State), (s.MemOk) ∧ (s.Serves c (Off.CLK_PPLL_FREQ + 16 * p.val) true) ∧ (s.portState p = .off ∨ s.portState p = .loaded ∨ s.portState p = .armed ∨ s.portState p = .halted) ∧ (0x4000000 ≤ v.toNat) ∧ (v.toNat ≤ 0x10000000)) ∧
    (∃ (c : CtxId) (p : PortId) (v : Word) (s : State), (s.Serves c (Off.CLK_PPLL_FREQ + 16 * p.val) true) ∧ (¬(s.portState p = .off ∨ s.portState p = .loaded ∨ s.portState p = .armed ∨ s.portState p = .halted) ∨ v.toNat < 0x4000000 ∨ 0x10000000 < v.toNat)) ∧
    (∃ (sys : Vector Nat 9) (ports : Vector Nat 16) (t0 : Nat) (s : State), s.MemOk) ∧
    (∃ (b : Fin 24) (up : Bool) (s : State), (s.MemOk) ∧ (16 ≤ b.val) ∧ ((18 ≤ b.val ∧ b.val ≠ 19) ∨ up = true ∨ s.rf 0 (Off.CLK_BANK + 4 * b.val) 31 31 = 0)) ∧
    (∃ (s : State), s.rf 0 (Off.CLK_BANK + 64) 31 31 = 1) ∧
    (∃ (s : State), (s.rf 0 (Off.CLK_BANK + 76) 31 31 = 1) ∧ (s.link.perst = true)) ∧
    (∃ (s : State), (s.rf 0 (Off.CLK_BANK + 76) 31 31 = 1) ∧ (s.link.perst = false)) ∧
    (∃ (s : State), (s.rf 0 (Off.CLK_BANK + 68) 31 31 = 1) ∧ (s.tks.cues = []) ∧ (∀ g : GroupId, s.groups[g].armed = none)) ∧
    (∃ (b : Fin 24) (s : State) (p : PortId), (s.MemOk) ∧ (b.val = p.val) ∧ (s.rf 0 (Off.CLK_BANK + 4 * b.val) 31 31 = 0)) ∧
    (∃ (b : Fin 24) (s : State) (p : PortId), (s.MemOk) ∧ (b.val = p.val) ∧ (s.rf 0 (Off.CLK_BANK + 4 * b.val) 31 31 = 1)) ∧
    (∃ (b : Fin 24) (up : Bool) (s : State), (s.MemOk) ∧ (b.val < 16) ∧ (s.rf 0 (Off.CLK_BANK + 4 * b.val) 31 31 = b2n up)) ∧
    (∃ (i : Fin 12) (temp : Nat) (s : State), s.clk.tripped = true ∨ sgn 16 temp < 2000) ∧
    (∃ (i : Fin 12) (temp : Nat) (s : State), (s.MemOk) ∧ (s.clk.tripped = false) ∧ (2000 ≤ sgn 16 temp) ∧ (∀ a : AxisId, (s.axis a).tblPend = false)) :=
  ⟨⟨wReferencesPllsMonitorsAndBanks0.1, wReferencesPllsMonitorsAndBanks0.2.1, wReferencesPllsMonitorsAndBanks0.2.2.1, wReferencesPllsMonitorsAndBanks0.2.2.2.1, wReferencesPllsMonitorsAndBanks0.2.2.2.2, memOk_of _ (by decide +kernel), (by decide +kernel), (by decide +kernel), (by decide +kernel)⟩,
   ⟨wReferencesPllsMonitorsAndBanks1.1, wReferencesPllsMonitorsAndBanks1.2.1, wReferencesPllsMonitorsAndBanks1.2.2.1, wReferencesPllsMonitorsAndBanks1.2.2.2.1, wReferencesPllsMonitorsAndBanks1.2.2.2.2, memOk_of _ (by decide +kernel), (by decide +kernel), (by decide +kernel), (by decide +kernel), (by decide +kernel)⟩,
   ⟨wReferencesPllsMonitorsAndBanks2.1, wReferencesPllsMonitorsAndBanks2.2.1, wReferencesPllsMonitorsAndBanks2.2.2.1, wReferencesPllsMonitorsAndBanks2.2.2.2.1, wReferencesPllsMonitorsAndBanks2.2.2.2.2, memOk_of _ (by decide +kernel), (by decide +kernel), (by decide +kernel), (by decide +kernel), (by decide +kernel), (by decide +kernel)⟩,
   ⟨wReferencesPllsMonitorsAndBanks3.1, wReferencesPllsMonitorsAndBanks3.2.1, wReferencesPllsMonitorsAndBanks3.2.2.1, wReferencesPllsMonitorsAndBanks3.2.2.2, memOk_of _ (by decide +kernel), (by decide +kernel), (by decide +kernel), (by decide +kernel)⟩,
   ⟨wReferencesPllsMonitorsAndBanks4.1, wReferencesPllsMonitorsAndBanks4.2.1, wReferencesPllsMonitorsAndBanks4.2.2.1, wReferencesPllsMonitorsAndBanks4.2.2.2, memOk_of _ (by decide +kernel), (by decide +kernel), (by decide +kernel), (by decide +kernel)⟩,
   ⟨wReferencesPllsMonitorsAndBanks5.1, wReferencesPllsMonitorsAndBanks5.2, memOk_of _ (by decide +kernel), (by decide +kernel)⟩,
   ⟨wReferencesPllsMonitorsAndBanks6.1, wReferencesPllsMonitorsAndBanks6.2, memOk_of _ (by decide +kernel), (by decide +kernel)⟩,
   ⟨wReferencesPllsMonitorsAndBanks7.1, wReferencesPllsMonitorsAndBanks7.2, memOk_of _ (by decide +kernel)⟩,
   ⟨wReferencesPllsMonitorsAndBanks8.1, wReferencesPllsMonitorsAndBanks8.2.1, wReferencesPllsMonitorsAndBanks8.2.2.1, wReferencesPllsMonitorsAndBanks8.2.2.2, memOk_of _ (by decide +kernel), (by unfold State.Serves; decide +kernel), (by decide +kernel), (by decide +kernel), (by decide +kernel)⟩,
   ⟨wReferencesPllsMonitorsAndBanks9.1, wReferencesPllsMonitorsAndBanks9.2.1, wReferencesPllsMonitorsAndBanks9.2.2.1, wReferencesPllsMonitorsAndBanks9.2.2.2, by unfold State.Serves; decide +kernel⟩,
   ⟨wReferencesPllsMonitorsAndBanks10.1, wReferencesPllsMonitorsAndBanks10.2.1, wReferencesPllsMonitorsAndBanks10.2.2.1, wReferencesPllsMonitorsAndBanks10.2.2.2, memOk_of _ (by decide +kernel)⟩,
   ⟨wReferencesPllsMonitorsAndBanks11.1, wReferencesPllsMonitorsAndBanks11.2.1, wReferencesPllsMonitorsAndBanks11.2.2, memOk_of _ (by decide +kernel), (by decide +kernel), (by decide +kernel)⟩,
   ⟨wReferencesPllsMonitorsAndBanks12, by decide +kernel⟩,
   ⟨wReferencesPllsMonitorsAndBanks13, by decide +kernel⟩,
   ⟨wReferencesPllsMonitorsAndBanks14, by decide +kernel⟩,
   ⟨wReferencesPllsMonitorsAndBanks15, by decide +kernel⟩,
   ⟨wReferencesPllsMonitorsAndBanks16.1, wReferencesPllsMonitorsAndBanks16.2.1, wReferencesPllsMonitorsAndBanks16.2.2, memOk_of _ (by decide +kernel), (by decide +kernel), (by decide +kernel)⟩,
   ⟨wReferencesPllsMonitorsAndBanks17.1, wReferencesPllsMonitorsAndBanks17.2.1, wReferencesPllsMonitorsAndBanks17.2.2, memOk_of _ (by decide +kernel), (by decide +kernel), (by decide +kernel)⟩,
   ⟨wReferencesPllsMonitorsAndBanks18.1, wReferencesPllsMonitorsAndBanks18.2.1, wReferencesPllsMonitorsAndBanks18.2.2, memOk_of _ (by decide +kernel), (by decide +kernel), (by decide +kernel)⟩,
   ⟨wReferencesPllsMonitorsAndBanks19.1, wReferencesPllsMonitorsAndBanks19.2.1, wReferencesPllsMonitorsAndBanks19.2.2, by decide +kernel⟩,
   ⟨wReferencesPllsMonitorsAndBanks20.1, wReferencesPllsMonitorsAndBanks20.2.1, wReferencesPllsMonitorsAndBanks20.2.2, memOk_of _ (by decide +kernel), (by decide +kernel), (by decide +kernel), (by decide +kernel)⟩⟩
/-- Power-on with one command waiting. -/
def waiting : State := { State.reset with pending := [.selAxisWrite 0 5] }
/-- The conditions of `Obligations.StepServesTheFront` are met. -/
theorem test_meets_StepServesTheFront : (∃ (c : Instr) (rest : List Instr) (s : State), s.pending = c :: rest) ∧ ∃ s : State, s.pending = [] :=
  ⟨⟨_, _, waiting, rfl⟩, State.reset, rfl⟩
/-- The conditions of `Obligations.EveryStepCompletes` are met. -/
theorem test_meets_EveryStepCompletes : ∃ (c : Instr) (rest : List Instr) (s : State), s.pending = c :: rest := ⟨_, _, waiting, rfl⟩
/-- The conditions of `Obligations.MemoriesStayCanonical` are met. -/
theorem test_meets_MemoriesStayCanonical : ∃ s t : State, s.MemOk ∧ step s = .next t := ⟨waiting, _, memOk_of _ (by decide +kernel), rfl⟩
/-- The conditions of `Obligations.RightsAndSelectionsStayValid` are met. -/
theorem test_meets_RightsAndSelectionsStayValid :
    ∃ s t : State, step s = .next t ∧ (s.ctxs[(0 : CtxId)]).owner ∧ ∀ c : CtxId, (s.ctxs[c]).selOk :=
  ⟨waiting, _, rfl, by unfold Ctx.owner; decide +kernel, by unfold Ctx.selOk; decide +kernel⟩
/-- The conditions of `Obligations.QueuesAndJournalStayOrdered` are met. -/
theorem test_meets_QueuesAndJournalStayOrdered :
    ∃ s t : State, step s = .next t ∧ (∀ q : QueueId, (s.queues[q]).words.length + (s.queues[q]).flight.length ≤ 64) ∧ s.jrnl.Ok :=
  ⟨waiting, _, rfl, by decide +kernel, ⟨by decide +kernel, by decide +kernel⟩⟩
/-- The conditions of `Obligations.TimeNeverRunsBack` are met. -/
theorem test_meets_TimeNeverRunsBack : ∃ (c : Instr) (rest : List Instr) (s t : State), s.pending = c :: rest ∧ c ≠ .supplyFault ∧
    (∀ b, c ≠ .powerOnReset b) ∧ step s = .next t := ⟨_, _, waiting, _, rfl, by decide, fun _ h => Instr.noConfusion h, rfl⟩
/-- The conditions of `Obligations.EveryBlockCodesWithinItsBound` are met, by the example of chapter 7. -/
theorem test_meets_EveryBlockCodesWithinItsBound : (∃ (xs : List Nat) (mode : Nat), xs.length = 32 ∧ (∀ x ∈ xs, x < 65536) ∧ 3 ≤ mode ∧ mode ≤ 6) ∧
    (∃ x r : Nat, x < 65536 ∧ r < 65536) ∧ ∃ x : Nat, x < 65536 :=
  ⟨⟨ramp, 5, by decide +kernel⟩, ⟨65535, 0, by decide⟩, 65535, by decide⟩
end Sys2Proof.Tests
end

section
/-! SUPPORT. What every step keeps: the lemmas of Laws/Keeps* put together over the commands. -/

namespace Sys2Proof.Machine

/-- Every command but the two that start device time again keeps what `Keeps` says. -/
theorem exec_keeps (i : Instr) (s : State) (hf : i ≠ .supplyFault) (hp : ∀ b, i ≠ .powerOnReset b) : OutKeeps false s (exec i s) := by
  cases i with
  | supplyFault => exact absurd rfl hf
  | powerOnReset b => exact absurd rfl (hp b)
  | regWrite c off size v => exact execRegWrite_keeps c off size v s nofun
  | selPortWrite c v => exact execSelPortWrite_keeps c v s
  | selAxisWrite c v => exact execSelAxisWrite_keeps c v s
  | selChanWrite c v => exact execSelChanWrite_keeps c v s
  | selEngineWrite c v => exact execSelEngineWrite_keeps c v s
  | selTableWrite c v => exact execSelTableWrite_keeps c v s
  | pairLoRead c off rd => exact execPairLoRead_keeps c off rd s
  | pairHiRead c off => exact execPairHiRead_keeps c off s
  | pairLoWrite c off v => exact execPairLoWrite_keeps c off v s nofun
  | pairHiWrite c off v => exact execPairHiWrite_keeps c off v s nofun
  | hifCtxCtlEnable c v => exact execHifCtxCtlEnable_keeps c v s
  | hifCtxCtlReset c v => exact execHifCtxCtlReset_keeps c v s
  | hifAsqTailWrite c v => exact execHifAsqTailWrite_keeps c v s
  | hifAcqHeadWrite c v => exact execHifAcqHeadWrite_keeps c v s
  | hifDeniedRead c => exact execHifDeniedRead_keeps c s
  | hello c y => exact execHello_keeps c y s
  | identify c y => exact execIdentify_keeps c y s
  | setRights c y => exact execSetRights_keeps c y s
  | getRights c y => exact execGetRights_keeps c y s
  | setupLoad c y data => exact execSetupLoad_keeps c y data s
  | setupVerify c y => exact execSetupVerify_keeps c y s
  | setupClear c y => exact execSetupClear_keeps c y s
  | commit c y => exact execCommit_keeps c y s
  | unitStart c y => exact execUnitStart_keeps c y s
  | unitStop c y => exact execUnitStop_keeps c y s
  | cutGroup c y => exact execCutGroup_keeps c y s
  | cutArm c y => exact execCutArm_keeps c y s
  | cutDisarm c y => exact execCutDisarm_keeps c y s
  | chanOpen cx y => exact execChanOpen_keeps cx y s
  | chanClose cx y => exact execChanClose_keeps cx y s
  | calStart c y => exact execCalStart_keeps c y s
  | calCompute c y => exact execCalCompute_keeps c y s
  | gapAnnounce c y => exact execGapAnnounce_keeps c y s
  | cueSet c y => exact execCueSet_keeps c y s
  | cuePin c y => exact execCuePin_keeps c y s
  | cueClear c y => exact execCueClear_keeps c y s
  | rewindRead c y => exact execRewindRead_keeps c y s
  | rewindStop c y => exact execRewindStop_keeps c y s
  | journalRead c y norOk => exact execJournalRead_keeps c y norOk s
  | fwStage c y data image crypto => exact execFwStage_keeps c y data image crypto s
  | fwActivate c y => exact execFwActivate_keeps c y s
  | fwStaged norOk => exact execFwStaged_keeps norOk s
  | fullReset c v => exact execFullReset_keeps c v s
  | resetDone failed banks => exact execResetDone_keeps failed banks s
  | d3hotEntry => exact execD3hotEntry_keeps s
  | d0Return => exact execD0Return_keeps s
  | linkRetrain width rate mode => exact execLinkRetrain_keeps width rate mode s
  | l0pRequest width => exact execL0pRequest_keeps width s
  | perstAssert => exact execPerstAssert_keeps s
  | perstRelease href => exact execPerstRelease_keeps href s
  | ptmExchange ok offset => exact execPtmExchange_keeps ok offset s
  | linePositionReached p t => exact execLinePositionReached_keeps p t s
  | tick c v => exact execTick_keeps c v s
  | heldTickRelease p t => exact execHeldTickRelease_keeps p t s
  | drainTick p t => exact execDrainTick_keeps p t s
  | pipeTick p => exact execPipeTick_keeps p s
  | motionTick t => exact execMotionTick_keeps t s
  | holdCurrentTimer a t => exact execHoldCurrentTimer_keeps a t s
  | nop e f => exact execNop_keeps e f s
  | mov e f => exact execMov_keeps e f s
  | add e f => exact execAdd_keeps e f s
  | adc e f => exact execAdc_keeps e f s
  | sub e f => exact execSub_keeps e f s
  | sbc e f => exact execSbc_keeps e f s
  | and e f => exact execAnd_keeps e f s
  | or e f => exact execOr_keeps e f s
  | xor e f => exact execXor_keeps e f s
  | shl e f => exact execShl_keeps e f s
  | shr e f => exact execShr_keeps e f s
  | sar e f => exact execSar_keeps e f s
  | mul e f => exact execMul_keeps e f s
  | mulh e f => exact execMulh_keeps e f s
  | min e f => exact execMin_keeps e f s
  | max e f => exact execMax_keeps e f s
  | sats e f => exact execSats_keeps e f s
  | satu e f => exact execSatu_keeps e f s
  | cmp e f => exact execCmp_keeps e f s
  | tst e f => exact execTst_keeps e f s
  | clz e f => exact execClz_keeps e f s
  | ld e f => exact execLd_keeps e f s
  | st e f => exact execSt_keeps e f s
  | jmp e f => exact execJmp_keeps e f s
  | jmpr e f => exact execJmpr_keeps e f s
  | call e f => exact execCall_keeps e f s
  | callr e f => exact execCallr_keeps e f s
  | ret e f => exact execRet_keeps e f s
  | lset e f => exact execLset_keeps e f s
  | lend e f => exact execLend_keeps e f s
  | tend e f => exact execTend_keeps e f s
  | raise e f => exact execRaise_keeps e f s
  | rds e f => exact execRds_keeps e f s
  | halt e f => exact execHalt_keeps e f s
  | trapOpcode e k f => exact execTrapOpcode_keeps e k f s
  | edge p f => exact execEdge_keeps p f s
  | burst p f => exact execBurst_keeps p f s
  | sample p f => exact execSample_keeps p f s
  | clamp p f => exact execClamp_keeps p f s
  | strobe p f => exact execStrobe_keeps p f s
  | gate p f => exact execGate_keeps p f s
  | qfree p f => exact execQfree_keeps p f s
  | edgeEntryStart p => exact execEdgeEntryStart_keeps p s
  | strobeEnd p q => exact execStrobeEnd_keeps p q s
  | tapSample p t raw => exact execTapSample_keeps p t raw s
  | assemble p f differ => exact execAssemble_keeps p f differ s
  | shade p f differ corr fails => exact execShade_keeps p f differ corr fails s
  | drift p f differ => exact execDrift_keeps p f differ s
  | defect p f differ corr fails => exact execDefect_keeps p f differ corr fails s
  | bin p f differ => exact execBin_keeps p f differ s
  | lut p f differ => exact execLut_keeps p f differ s
  | plane p f differ => exact execPlane_keeps p f differ s
  | gather p f differ => exact execGather_keeps p f differ s
  | pack p f differ drained => exact execPack_keeps p f differ drained s
  | code p f differ drained wrote => exact execCode_keeps p f differ drained wrote s
  | slate p f => exact execSlate_keeps p f s
  | emit p f => exact execEmit_keeps p f s
  | prd p f => exact execPrd_keeps p f s
  | stagingDrain p d => exact execStagingDrain_keeps p d s
  | cmpCtlInject c v => exact execCmpCtlInject_keeps c v s
  | pset a f => exact execPset_keeps a f s
  | move a f => exact execMove_keeps a f s
  | jog a f => exact execJog_keeps a f s
  | stop a f => exact execStop_keeps a f s
  | astat a f => exact execAstat_keeps a f s
  | home a f => exact execHome_keeps a f s
  | gear a f => exact execGear_keeps a f s
  | latch a f => exact execLatch_keeps a f s
  | drive a f => exact execDrive_keeps a f s
  | setpos a f => exact execSetpos_keeps a f s
  | mswap a f => exact execMswap_keeps a f s
  | xfer c f => exact execXfer_keeps c f s
  | xferx c f => exact execXferx_keeps c f s
  | shuf c f => exact execShuf_keeps c f s
  | loop c f => exact execLoop_keeps c f s
  | wait c f => exact execWait_keeps c f s
  | sig c f => exact execSig_keeps c f s
  | waitResume c => exact execWaitResume_keeps c s
  | waitTimeout c t => exact execWaitTimeout_keeps c t s
  | scriptFetch c ok w => exact execScriptFetch_keeps c ok w s
  | dmaScCtlStart c v => exact execDmaScCtlStart_keeps c v s
  | dmaScCtlAbort c v => exact execDmaScCtlAbort_keeps c v s
  | engWindowWrite c off size v => exact execEngWindowWrite_keeps c off size v s
  | tblWindowWrite c off size v => exact execTblWindowWrite_keeps c off size v s
  | headPoll p ack => exact execHeadPoll_keeps p ack s
  | headInsertDelay p => exact execHeadInsertDelay_keeps p s
  | reread c v => exact execReread_keeps c v s
  | descriptorReadDone p acked bytes => exact execDescriptorReadDone_keeps p acked bytes s
  | bankPowerChange b up => exact execBankPowerChange_keeps b up s
  | inputOvervolt p t => exact execInputOvervolt_keeps p t s
  | prtOvClear c v => exact execPrtOvClear_keeps c v s
  | rotationDue p t => exact execRotationDue_keeps p t s
  | calNow c v => exact execCalNow_keeps c v s
  | sliceCalDone p t sLo sHi spread ms => exact execSliceCalDone_keeps p t sLo sHi spread ms s
  | watchBlockEnd p t => exact execWatchBlockEnd_keeps p t s
  | bgBlockEnd p t => exact execBgBlockEnd_keeps p t s
  | faultClassified k failed other => exact execFaultClassified_keeps k failed other s
  | verifyS c v => exact execVerifyS_keeps c v s
  | verifyD c v => exact execVerifyD_keeps c v s
  | unflipS c v => exact execUnflipS_keeps c v s
  | unflipD c v => exact execUnflipD_keeps c v s
  | mirrorVerifyDone p d ecc => exact execMirrorVerifyDone_keeps p d ecc s
  | calDone p => exact execCalDone_keeps p s
  | recordEmission p dest exceeds => exact execRecordEmission_keeps p dest exceeds s
  | holdExpiry c t => exact execHoldExpiry_keeps c t s
  | barrierDone c => exact execBarrierDone_keeps c s
  | eocTimeout c t => exact execEocTimeout_keeps c t s
  | descriptorFetch c ok bytes => exact execDescriptorFetch_keeps c ok bytes s
  | dmaDcTailWrite c v => exact execDmaDcTailWrite_keeps c v s
  | chanClosed c => exact execChanClosed_keeps c s
  | driveLinkUp d rate width => exact execDriveLinkUp_keeps d rate width s
  | driveReady d ns lba plain mdts qmax hdr => exact execDriveReady_keeps d ns lba plain mdts qmax hdr s
  | driveLinkDown d fatal => exact execDriveLinkDown_keeps d fatal s
  | nvmeTimeout d k => exact execNvmeTimeout_keeps d k s
  | chunkWriteDone d k ok => exact execChunkWriteDone_keeps d k ok s
  | nvmeReadDone d k ok hdrOk bad => exact execNvmeReadDone_keeps d k ok hdrOk bad s
  | readbackDelivery p => exact execReadbackDelivery_keeps p s
  | checkpoint => exact execCheckpoint_keeps s
  | segmentCloseTimer p t => exact execSegmentCloseTimer_keeps p t s
  | smartPoll d warn used temp => exact execSmartPoll_keeps d warn used temp s
  | storeRecovery segs ckpt found => exact execStoreRecovery_keeps segs ckpt found s
  | format c v => exact execFormat_keeps c v s
  | join c d v => exact execJoin_keeps c d v s
  | masterEdge m edge a b z => exact execMasterEdge_keeps m edge a b z s
  | prtGearArmctlWrite c v => exact execPrtGearArmctlWrite_keeps c v s
  | gearLatchArm c v => exact execGearLatchArm_keeps c v s
  | gearLatch p => exact execGearLatch_keeps p s
  | groupRun c g v => exact execGroupRun_keeps c g v s
  | groupHold c g v => exact execGroupHold_keeps c g v s
  | encoderEdge a edge ea eb ez => exact execEncoderEdge_keeps a edge ea eb ez s
  | switchEdge a j t level => exact execSwitchEdge_keeps a j t level s
  | stopIn low t => exact execStopIn_keeps low t s
  | chopperSwitch a w t code => exact execChopperSwitch_keeps a w t code s
  | chopperAdapt a w t samples => exact execChopperAdapt_keeps a w t samples s
  | overcurrent a w code0 code1 => exact execOvercurrent_keeps a w code0 code1 s
  | mstepSwap c v => exact execMstepSwap_keeps c v s
  | tableSwapped a => exact execTableSwapped_keeps a s
  | auxStep t va vb => exact execAuxStep_keeps t va vb s
  | auxScanStart c v => exact execAuxScanStart_keeps c v s
  | scanDue t => exact execScanDue_keeps t s
  | excitationSwap n t => exact execExcitationSwap_keeps n t s
  | excFault n => exact execExcFault_keeps n s
  | auxOvervolt ch neg => exact execAuxOvervolt_keeps ch neg s
  | auxOvClear c v => exact execAuxOvClear_keeps c v s
  | auxInjReq c n v => exact execAuxInjReq_keeps c n v s
  | auxCalGo c v => exact execAuxCalGo_keeps c v s
  | auxCalAbort c v => exact execAuxCalAbort_keeps c v s
  | packetDelivery d => exact execPacketDelivery_keeps d s
  | evqPop c q => exact execEvqPop_keeps c q s
  | evqFlush c q v => exact execEvqFlush_keeps c q v s
  | evqCtlWrite c q v => exact execEvqCtlWrite_keeps c q v s
  | evqRingCfgWrite c q size v => exact execEvqRingCfgWrite_keeps c q size v s
  | evqRingHeadWrite c q v => exact execEvqRingHeadWrite_keeps c q v s
  | evqLevelWrite c q v => exact execEvqLevelWrite_keeps c q v s
  | evtRouteWrite c src v => exact execEvtRouteWrite_keeps c src v s
  | queueIntegrity q t => exact execQueueIntegrity_keeps q t s
  | audit diffs => exact execAudit_keeps diffs s
  | lockstepMismatch => exact execLockstepMismatch_keeps s
  | mgtRestarted => exact execMgtRestarted_keeps s
  | journalDrain => exact execJournalDrain_keeps s
  | sensorRead temps volts => exact execSensorRead_keeps temps volts s
  | thermalTrip k temp => exact execThermalTrip_keeps k temp s
  | pldmMessage => exact execPldmMessage_keeps s
  | cfgGet => exact execCfgGet_keeps s
  | cfgSet => exact execCfgSet_keeps s
  | debugToken jtag token crypto => exact execDebugToken_keeps jtag token crypto s
  | mctpMessage src msg => exact execMctpMessage_keeps src msg s
  | pldmUpdate image crypto => exact execPldmUpdate_keeps image crypto s
  | fwActivated ok => exact execFwActivated_keeps ok s
  | refclkFailover okA okB => exact execRefclkFailover_keeps okA okB s
  | refclkValid b => exact execRefclkValid_keeps b s
  | hrefclkLoss => exact execHrefclkLoss_keeps s
  | ppllUnlock p => exact execPpllUnlock_keeps p s
  | ppllRelock p => exact execPpllRelock_keeps p s
  | clkPpllFreqWrite c p v => exact execClkPpllFreqWrite_keeps c p v s
  | freqMonitor freqs host store => exact execFreqMonitor_keeps freqs host store s
  | prtGqueueRead c => exact execPrtGqueueRead_keeps c s
  | prtGrejectRead c => exact execPrtGrejectRead_keeps c s
  | prtLtgEarlyRead c => exact execPrtLtgEarlyRead_keeps c s
  | pipEccRead c => exact execPipEccRead_keeps c s
  | pipEccAddrRead c => exact execPipEccAddrRead_keeps c s
  | pipLaneStatRead c => exact execPipLaneStatRead_keeps c s
  | cmpVerifyRead c => exact execCmpVerifyRead_keeps c s
  | cmpBadRead c => exact execCmpBadRead_keeps c s
  | cmpStallRead c => exact execCmpStallRead_keeps c s
  | cmpShiftRead c k => exact execCmpShiftRead_keeps c k s
  | dmaDcDropRead c => exact execDmaDcDropRead_keeps c s
  | dmaDcErrRead c => exact execDmaDcErrRead_keeps c s
  | dmaScFaultRead c => exact execDmaScFaultRead_keeps c s
  | tksPortDropRead c p => exact execTksPortDropRead_keeps c p s
  | motChatterRead c => exact execMotChatterRead_keeps c s
  | auxScanStatRead c => exact execAuxScanStatRead_keeps c s
  | auxExcStatRead c n => exact execAuxExcStatRead_keeps c n s
  | auxInjReqRead c n => exact execAuxInjReqRead_keeps c n s
  | evqLostRead c q => exact execEvqLostRead_keeps c q s
  | mgtFaultRead c => exact execMgtFaultRead_keeps c s
  | mgtFaultCntRead c => exact execMgtFaultCntRead_keeps c s
  | mgtJrnlStatRead c => exact execMgtJrnlStatRead_keeps c s
  | mgtSensorRead c k => exact execMgtSensorRead_keeps c k s
  | clampStopsConducting p t => exact execClampStopsConducting_keeps p t s
  | auxClampStopsConducting ch neg => exact execAuxClampStopsConducting_keeps ch neg s
  | excCurrentBelowLimit n => exact execExcCurrentBelowLimit_keeps n s
  | illegalOpcode e w => exact execIllegalOpcode_keeps e w s
  | scriptAccessDone c ok kind n data => exact execScriptAccessDone_keeps c ok kind n data s
  | checkpointWriteDone d ok => exact execCheckpointWriteDone_keeps d ok s
  | msiXVectorUnmask w => exact execMsiXVectorUnmask_keeps w s
  | ideKmMessage m => exact execIdeKmMessage_keeps m s

/-- Whatever answers with a state that keeps what `Keeps` says keeps the memories canonical. -/
theorem OutKeeps.memOk {kc : Bool} {s t : State} {o : Host.Outcome State Fault Refusal} (h : OutKeeps kc s o) (hs : s.MemOk) (ho : o = .next t) :
    t.MemOk := by
  obtain ⟨u, hu, hk⟩ := h
  rw [hu] at ho
  cases ho
  exact hk.mem hs

/-- Every command keeps the memories canonical. -/
theorem exec_memOk {i : Instr} {s t : State} (hs : s.MemOk) (h : exec i s = .next t) : t.MemOk := by
  by_cases hf : i = .supplyFault
  · subst hf
    cases h
    exact s.powerOff_memOk
  · by_cases hp : ∃ b, i = .powerOnReset b
    · obtain ⟨b, rfl⟩ := hp
      exact (execPowerOnReset_keeps (kc := false) b s).memOk s.powerOff_memOk h
    · exact (exec_keeps i s hf (fun b hb => hp ⟨b, hb⟩)).memOk hs h

/-- The queue of commands is no sparse memory. -/
theorem State.MemOk.dequeue {s : State} (h : s.MemOk) (rest : List Instr) : ({ s with pending := rest } : State).MemOk :=
  ⟨h.regs, h.tbl, h.pend, h.raised, h.msiUnmasked, h.msiPend, h.store, h.mstepNext, h.mstepNow, h.engs⟩

/-- Settles O56: the command at the front of the queue keeps the memories canonical; an empty queue leaves the state as it is. -/
theorem memoriesStayCanonical : Obligations.MemoriesStayCanonical := by
  intro s t hs h
  unfold step at h
  split at h
  · cases h
    exact hs
  · exact exec_memOk (hs.dequeue _) h

end Sys2Proof.Machine
end

section
/-! SUPPORT. What a host read does once it is served (R5, R39, R42): a 32-bit read of a register that is no half of a pair returns what the
register reads now and has its side effect; which registers read as they are kept, and which side effects a read has. -/

namespace Sys2Proof.Machine

/-! ### Which register an access reaches -/

/-- The register that an access reaches lies at the offset. -/
theorem State.reach_regDef {s : State} {c : CtxId} {off : Nat} {r : RegDef} {u : Nat} (h : s.reach c off = some (r, u)) :
    regDef off = some r := by
  unfold State.reach at h
  cases hq : regDef off with
  | none => rw [hq] at h; cases h
  | some r' =>
    rw [hq] at h
    obtain ⟨_, _, he⟩ := Option.map_eq_some_iff.1 h
    cases he
    rfl

/-- The unit of the register that an access reaches is the one that the context selects. -/
theorem State.reach_unitKey {s : State} {c : CtxId} {off : Nat} {r : RegDef} {u : Nat} (h : s.reach c off = some (r, u)) :
    s.ctxs[c].unitKey c r off = some u := by
  unfold State.reach at h
  rw [State.reach_regDef h] at h
  obtain ⟨_, hu, he⟩ := Option.map_eq_some_iff.1 h
  cases he
  exact hu

/-- A register and the unit selected give what an access reaches. -/
theorem State.reach_of {s : State} {c : CtxId} {off : Nat} {r : RegDef} {u : Nat} (hd : regDef off = some r)
    (hu : s.ctxs[c].unitKey c r off = some u) : s.reach c off = some (r, u) := by
  unfold State.reach
  rw [hd]
  exact congrArg (Option.map _) hu

theorem Ctx.unitKey_none {x : Ctx} {c : CtxId} {r : RegDef} {off : Nat} (h : r.sel = .none) : x.unitKey c r off = some 0 := by
  unfold Ctx.unitKey
  rw [h]

theorem Ctx.unitKey_port {x : Ctx} {c : CtxId} {r : RegDef} {off : Nat} (h : r.sel = .port) (hp : x.selPort.toNat < 16) :
    x.unitKey c r off = some x.selPort.toNat := by
  unfold Ctx.unitKey
  rw [h]
  exact congrArg some (Nat.mod_eq_of_lt hp)

theorem Ctx.unitKey_axis {x : Ctx} {c : CtxId} {r : RegDef} {off : Nat} (h : r.sel = .axis) (ha : x.selAxis.toNat < 8) :
    x.unitKey c r off = some x.selAxis.toNat := by
  unfold Ctx.unitKey
  rw [h]
  exact congrArg some (Nat.mod_eq_of_lt ha)

/-- A channel register is reached where SEL_CHAN selects a channel of its kind (R423). -/
theorem Ctx.unitKey_chan {x : Ctx} {c : CtxId} {r : RegDef} {off : Nat} (h : r.sel = .chan) (hc : x.selChan.toNat < 80)
    (hk : off < 0x40100 ↔ x.selChan.toNat < 64) : x.unitKey c r off = some x.selChan.toNat := by
  unfold Ctx.unitKey
  rw [h]
  dsimp only
  rw [if_pos (by simp [hk]), Nat.mod_eq_of_lt hc]

/-! ### A served read -/

theorem sizeOk_word {off : Nat} (hz : off % 4 = 0) : sizeOk off 4 = true := by
  unfold sizeOk
  simp [hz]

/-- A served read of a register. -/
theorem State.busRead_register {s : State} {c : CtxId} {off size : Nat} (h : s.Serves c off false) (hz : sizeOk off size = true)
    (hlt : off < 0x200000) : s.busRead c off size = { (s.regRead c off size).1 with rdata := (s.regRead c off size).2 } := by
  unfold State.busRead
  rw [if_neg h.1, hz, h.2, if_neg (by simp), if_neg (by simp), if_neg (by omega)]

/-- A 32-bit read of a register that is no half of a pair returns what the register reads, and has its side effect. -/
theorem State.busRead_word {s : State} {c : CtxId} {off : Nat} {r : RegDef} {u : Nat} (h : s.Serves c off false) (hz : off % 4 = 0)
    (hlt : off < 0x200000) (hr : s.reach c off = some (r, u)) (hp : r.pair = 0) :
    s.busRead c off 4 = { s.readEffect c r u off with rdata := BitVec.ofNat 64 (s.live c r u off) } := by
  rw [State.busRead_register h (sizeOk_word hz) hlt]
  unfold State.regRead
  rw [hr]
  simp [hp]

/-- The registers whose RS fields do more than clear when they are read (R5), and CLK_GPIO_IN. -/
def ownReadEffect : List Nat :=
  [Off.CLK_GPIO_IN, Off.HIF_DENIED, Off.MGT_JRNL_STAT, Off.PRT_GQUEUE, Off.CMP_STALL, Off.MGT_TEMP, Off.MGT_VOLT]

/-- A register after a read that clears its RS fields. -/
def RegCell.cleared (x : RegCell) (m : Word) : RegCell := { x with val := x.val &&& ~~~m, force := x.force &&& ~~~m }

/-- A read clears the RS fields of a register that has no effect of its own. -/
theorem State.readEffect_clears {s : State} {c : CtxId} {r : RegDef} {u off : Nat} (hrs : r.rs ≠ 0) (hb : r.base ∉ ownReadEffect) :
    s.readEffect c r u off = s.setCell u off ((s.cell u off).cleared r.rs) := by
  simp only [ownReadEffect, List.mem_cons, List.not_mem_nil, or_false, not_or] at hb
  obtain ⟨h1, h2, h3, h4, h5, h6, h7⟩ := hb
  unfold State.readEffect
  rw [if_neg h1, if_neg hrs, if_neg h2, if_neg h3, if_neg h4, if_neg (by simp [h5, h6, h7])]
  rfl

/-- A register in which field `hi:lo` takes the value that the field `hi':lo'` reads. -/
def RegCell.copied (x : RegCell) (hi lo hi' lo' : Nat) : RegCell :=
  { x with val := BitVec.ofNat 32 (setFld x.val.toNat hi lo (fld x.val.toNat hi' lo')),
           force := BitVec.ofNat 32 (setFld x.force.toNat hi lo (fld x.val.toNat hi' lo')) }

/-- A read of CMP_STALL or of a sensor sets its high-water to the value of now. -/
theorem State.readEffect_highWater {s : State} {c : CtxId} {r : RegDef} {u off : Nat} (hrs : r.rs ≠ 0)
    (hb : r.base = Off.CMP_STALL ∨ r.base = Off.MGT_TEMP ∨ r.base = Off.MGT_VOLT) :
    s.readEffect c r u off = s.setCell u off ((s.cell u off).copied 31 16 15 0) := by
  have hne : r.base ≠ Off.CLK_GPIO_IN ∧ r.base ≠ Off.HIF_DENIED ∧ r.base ≠ Off.MGT_JRNL_STAT ∧ r.base ≠ Off.PRT_GQUEUE := by
    rcases hb with h | h | h <;> rw [h] <;> decide
  obtain ⟨h1, h2, h3, h4⟩ := hne
  unfold State.readEffect
  rw [if_neg h1, if_neg hrs, if_neg h2, if_neg h3, if_neg h4, if_pos hb]
  rfl

/-! ### Registers that read as they are kept -/

/-- A register without WO fields reads as it is kept. -/
theorem State.kept_eq_reg {s : State} {r : RegDef} {u off : Nat} (h : r.wo = 0) : s.kept r u off = s.reg u off := by
  unfold State.kept State.reg
  rw [h]
  exact congrArg BitVec.toNat ((congrArg _ BitVec.not_zero).trans BitVec.and_allOnes)

/-- The registers of the PRT block that show something else than what is kept. -/
def shownPrt : List Nat :=
  [Off.PRT_HDESC, Off.PRT_CONV_STAT, Off.PRT_TAP_STAT, Off.PRT_SCOEFA, Off.PRT_SCOEFB, Off.PRT_LTG_STAT, Off.PRT_LTG_SRC_LO,
   Off.PRT_LTG_SRC_HI, Off.PRT_LTG_HW_LO, Off.PRT_LTG_HW_HI]

theorem State.livePrt_kept {s : State} {r : RegDef} {p : PortId} {off : Nat} (h : r.base ∉ shownPrt) :
    s.livePrt r p off = s.kept r p.val off := by
  simp only [shownPrt, List.mem_cons, List.not_mem_nil, or_false, not_or] at h
  obtain ⟨h1, h2, h3, h4, h5, h6, h7, h8, h9, h10⟩ := h
  unfold State.livePrt
  simp only [h1, h2, h3, h4, h5, h6, h7, h8, h9, h10, if_false]

/-- The registers of the PIP and CMP blocks that show something else than what is kept. -/
def shownPip : List Nat := [Off.PIP_BANK_STAT, Off.PIP_GAP, Off.PIP_DRIFT]

theorem State.livePip_kept {s : State} {r : RegDef} {p : PortId} {off : Nat} (h : off ∉ shownPip) :
    s.livePip r p off = s.kept r p.val off := by
  simp only [shownPip, List.mem_cons, List.not_mem_nil, or_false, not_or] at h
  obtain ⟨h1, h2, h3⟩ := h
  unfold State.livePip
  simp only [h1, h2, h3, if_false]

/-- The registers of the DMA block that show something else than what is kept. -/
def shownDma : List Nat :=
  [Off.DMA_DC_STATE, Off.DMA_DC_BASE_LO, Off.DMA_DC_BASE_HI, Off.DMA_DC_TAIL, Off.DMA_DC_HEAD, Off.DMA_DC_LEVEL, Off.DMA_DC_EOC_PEND,
   Off.DMA_SC_STATE, Off.DMA_SC_PC, Off.DMA_SC_TRAP, Off.DMA_SC_TRAP_ARG]

theorem State.liveDma_kept {s : State} {r : RegDef} {u off : Nat} (h : off ∉ shownDma) : s.liveDma r u off = s.kept r u off := by
  simp only [shownDma, List.mem_cons, List.not_mem_nil, or_false, not_or] at h
  obtain ⟨h1, h2, h3, h4, h5, h6, h7, h8, h9, h10, h11⟩ := h
  unfold State.liveDma
  simp only [h1, h2, h3, h4, h5, h6, h7, h8, h9, h10, h11, if_false]

/-- A register of a port that is kept, of the PRT block. -/
theorem State.live_prt {s : State} {c : CtxId} {r : RegDef} {u off : Nat} (hb : blockRow off = some 4) (hs : r.base ∉ shownPrt)
    (hw : r.wo = 0) (hu : u < 16) : s.live c r u off = s.reg u off := by
  unfold State.live
  rw [hb]
  exact ((State.livePrt_kept hs).trans (State.kept_eq_reg hw)).trans (congrArg (s.reg · off) (Nat.mod_eq_of_lt hu))

/-- A register of a port that is kept, of the PIP or the CMP block. -/
theorem State.live_pip {s : State} {c : CtxId} {r : RegDef} {u off : Nat} (hb : blockRow off = some 5 ∨ blockRow off = some 6)
    (hs : off ∉ shownPip) (hw : r.wo = 0) (hu : u < 16) : s.live c r u off = s.reg u off := by
  unfold State.live
  rcases hb with hb | hb <;> rw [hb] <;>
    exact ((State.livePip_kept hs).trans (State.kept_eq_reg hw)).trans (congrArg (s.reg · off) (Nat.mod_eq_of_lt hu))

/-- A register of a channel that is kept. -/
theorem State.live_dma {s : State} {c : CtxId} {r : RegDef} {u off : Nat} (hb : blockRow off = some 3) (hs : off ∉ shownDma)
    (hw : r.wo = 0) : s.live c r u off = s.reg u off := by
  unfold State.live
  rw [hb]
  exact (State.liveDma_kept hs).trans (State.kept_eq_reg hw)

end Sys2Proof.Machine
end

section
/-! SUPPORT. Fields beside a field that is replaced, and O6: the registers that a read clears. -/

namespace Sys2Proof.Machine

/-! ### Fields beside a field that is replaced -/

/-- A field is a part of the number below the bit after it. -/
theorem fld_eq_mod_div (v : Nat) {hi lo : Nat} (h : lo ≤ hi) : fld v hi lo = v % 2 ^ (hi + 1) / 2 ^ lo := by
  have e : 2 ^ (hi + 1) = 2 ^ lo * 2 ^ (hi + 1 - lo) := by rw [← Nat.pow_add]; congr 1; omega
  unfold fld
  rw [e, Nat.mod_mul_right_div_self]

/-- A field below the one that is replaced keeps its value. -/
theorem fld_setFld_below (v x : Nat) {hi lo hi' lo' : Nat} (h : lo' ≤ hi') (hb : hi' < lo) : fld (setFld v hi lo x) hi' lo' = fld v hi' lo' := by
  have hd : 2 ^ (hi' + 1) ∣ 2 ^ lo := Nat.pow_dvd_pow 2 hb
  have e : setFld v hi lo x % 2 ^ lo = v % 2 ^ lo := by rw [setFld_eq, Nat.mul_add_mod, Nat.mod_mod]
  rw [fld_eq_mod_div _ h, fld_eq_mod_div _ h, ← Nat.mod_mod_of_dvd _ hd, e, Nat.mod_mod_of_dvd _ hd]

/-- A field above the one that is replaced keeps its value. -/
theorem fld_setFld_above (v x : Nat) {hi lo hi' lo' : Nat} (h : lo ≤ hi) (ha : hi < lo') : fld (setFld v hi lo x) hi' lo' = fld v hi' lo' := by
  have hl : 0 < 2 ^ lo := Nat.two_pow_pos lo
  have hw : x % 2 ^ (hi + 1 - lo) < 2 ^ (hi + 1 - lo) := Nat.mod_lt _ (Nat.two_pow_pos _)
  have e : setFld v hi lo x / 2 ^ lo / 2 ^ (hi + 1 - lo) = v / 2 ^ lo / 2 ^ (hi + 1 - lo) := by
    rw [setFld_eq, Nat.mul_add_div hl, Nat.div_eq_of_lt (Nat.mod_lt v hl), Nat.add_zero, Nat.mul_add_div (Nat.two_pow_pos _),
      Nat.div_eq_of_lt hw, Nat.add_zero]
  have hp : 2 ^ lo' = 2 ^ lo * 2 ^ (hi + 1 - lo) * 2 ^ (lo' - (hi + 1)) := by
    rw [← Nat.pow_add, ← Nat.pow_add]
    congr 1
    omega
  unfold fld
  simp only [hp, ← Nat.div_div_eq_div_mul, e]

/-! ### Registers of the other blocks that read as they are kept -/

/-- The registers of the EVT block that show something else than what is kept. -/
def shownEvt : List Nat := [Off.EVT_PEND, Off.EVQ_STAT, Off.EVQ_RING_HEAD, Off.EVQ_RING_TAIL, Off.EVQ_POP_LO, Off.EVQ_POP_HI]

/-- A register of the EVT block that is kept. -/
theorem State.live_evt {s : State} {c : CtxId} {r : RegDef} {u off : Nat} (hb : blockRow off = some 2) (hs : r.base ∉ shownEvt)
    (hw : r.wo = 0) : s.live c r u off = s.reg 0 off := by
  simp only [shownEvt, List.mem_cons, List.not_mem_nil, or_false, not_or] at hs
  obtain ⟨h1, h2, h3, h4, h5, h6⟩ := hs
  unfold State.live
  rw [hb]
  simp only [State.liveEvt, h1, h2, h3, h4, h5, h6, or_self, if_false, State.kept_eq_reg hw]

/-- The registers of the TKS block that show something else than what is kept. -/
def shownTks : List Nat :=
  [Off.TKS_STATUS, Off.TKS_ID_LO, Off.TKS_ID_HI, Off.TKS_WP, Off.TKS_SEGS, Off.TKS_SEG_WRITABLE, Off.TKS_SEG_PINNED, Off.TKS_SEG_LOST,
   Off.TKS_CUES, Off.TKS_DRV_STAT, Off.TKS_DRV_SEGS, Off.TKS_PORT_STAT, Off.TKS_PORT_OLDEST_LO, Off.TKS_PORT_OLDEST_HI, Off.TKS_CUE]

/-- A register of the TKS block that is kept. -/
theorem State.live_tks {s : State} {c : CtxId} {r : RegDef} {u off : Nat} (hb : blockRow off = some 7) (hs : r.base ∉ shownTks)
    (hw : r.wo = 0) : s.live c r u off = s.reg 0 off := by
  simp only [shownTks, List.mem_cons, List.not_mem_nil, or_false, not_or] at hs
  obtain ⟨h1, h2, h3, h4, h5, h6, h7, h8, h9, h10, h11, h12, h13, h14, h15⟩ := hs
  unfold State.live
  rw [hb]
  simp only [State.liveTks, h1, h2, h3, h4, h5, h6, h7, h8, h9, h10, h11, h12, h13, h14, h15, if_false, State.kept_eq_reg hw]

/-- The registers of the MOT block that show something else than what is kept. -/
def shownMot : List Nat :=
  [Off.MOT_STAT, Off.MOT_POS_LO, Off.MOT_POS_HI, Off.MOT_ENCC_LO, Off.MOT_ENCC_HI, Off.MOT_TGT_LO, Off.MOT_TGT_HI, Off.MOT_AGEAR_OUT_LO,
   Off.MOT_AGEAR_OUT_HI, Off.MOT_VEL, Off.MOT_AGEAR_NUM, Off.MOT_AGEAR_DEN, Off.MOT_PHASE]

/-- A register of the MOT block that is kept. -/
theorem State.live_mot {s : State} {c : CtxId} {r : RegDef} {u off : Nat} (hb : blockRow off = some 8) (hs : off ∉ shownMot)
    (hw : r.wo = 0) : s.live c r u off = s.reg u off := by
  simp only [shownMot, List.mem_cons, List.not_mem_nil, or_false, not_or] at hs
  obtain ⟨h1, h2, h3, h4, h5, h6, h7, h8, h9, h10, h11, h12, h13⟩ := hs
  unfold State.live
  rw [hb]
  simp only [State.liveMot, h1, h2, h3, h4, h5, h6, h7, h8, h9, h10, h11, h12, h13, if_false, State.kept_eq_reg hw]

/-- The registers of the MGT block that show something else than what is kept. -/
def shownMgt : List Nat :=
  [Off.MGT_STATUS, Off.MGT_FW_VER_A, Off.MGT_FW_VER_B, Off.MGT_FW_SVN, Off.MGT_JRNL_SEQ_LO, Off.MGT_JRNL_SEQ_HI, Off.MGT_JRNL_OLDEST_LO,
   Off.MGT_JRNL_OLDEST_HI, Off.MGT_JRNL_STAT, Off.MGT_MBOX_CTL, Off.MGT_DBG]

/-- A register of the MGT block that is kept. -/
theorem State.live_mgt {s : State} {c : CtxId} {r : RegDef} {u off : Nat} (hb : blockRow off = some 10) (hs : off ∉ shownMgt)
    (hu : r.base ≠ Off.MGT_USTATE) (hw : r.wo = 0) : s.live c r u off = s.reg 0 off := by
  simp only [shownMgt, List.mem_cons, List.not_mem_nil, or_false, not_or] at hs
  obtain ⟨h1, h2, h3, h4, h5, h6, h7, h8, h9, h10, h11⟩ := hs
  unfold State.live
  rw [hb]
  simp only [State.liveMgt, h1, h2, h3, h4, h5, h6, h7, h8, h9, h10, h11, hu, if_false, State.kept_eq_reg hw]

/-! ### What a read that clears leaves -/

/-- From `s` to `t` a read has returned `n` and left register `off` of unit `u` as `x`; nothing else changes. -/
def State.ReadAs (s t : State) (u off n : Nat) (x : RegCell) : Prop :=
  t = { s with rdata := t.rdata, regs := t.regs } ∧ t.rdata = BitVec.ofNat 64 n ∧ s.SameRegs t [rkey u off] ∧ t.cell u off = x

/-- A read whose side effect is a change of the register that it reads. -/
theorem does_read {i : Instr} {s : State} {c : CtxId} {off : Nat} {r : RegDef} {u n : Nat} {x : RegCell}
    (hi : exec i s = .next (s.busRead c off 4)) (hm : s.MemOk) (h : s.Serves c off false) (hz : off % 4 = 0) (hlt : off < 0x200000)
    (hr : s.reach c off = some (r, u)) (hp : r.pair = 0) (he : s.readEffect c r u off = s.setCell u off x) (hl : s.live c r u off = n) :
    Does i s (fun t => s.ReadAs t u off n x) := by
  rw [State.busRead_word h hz hlt hr hp, he, hl] at hi
  refine ⟨_, hi, rfl, rfl, fun k hk => mget_mput_ne (List.ne_of_not_mem_cons hk) _, State.cell_setCell_same hm u off x⟩

/-- What the register table says of a register whose read clears its RS fields `m`. -/
structure ClearsOnRead (off : Nat) (r : RegDef) (m : Word) : Prop where
  def_ : regDef off = some r
  single : r.pair = 0
  rs : r.rs = m
  plain : m ≠ 0 ∧ r.base ∉ ownReadEffect
  place : off % 4 = 0 ∧ off < 0x200000

/-- A served read of such a register returns what it reads and clears its RS fields. -/
theorem ClearsOnRead.does {i : Instr} {s : State} {c : CtxId} {off : Nat} {r : RegDef} {m : Word} {u n : Nat} (k : ClearsOnRead off r m)
    (hi : exec i s = .next (s.busRead c off 4)) (hm : s.MemOk) (h : s.Serves c off false) (hu : s.ctxs[c].unitKey c r off = some u)
    (hl : s.live c r u off = n) : Does i s (fun t => s.ReadAs t u off n ((s.cell u off).cleared m)) :=
  does_read hi hm h k.place.1 k.place.2 (State.reach_of k.def_ hu) k.single
    ((State.readEffect_clears (k.rs ▸ k.plain.1) k.plain.2).trans (by rw [k.rs])) hl

/-! ### The registers that do more than clear -/

/-- A read of PRT_GQUEUE clears its count of rejects and sets its high-water to the entries of now. -/
def RegCell.queueRead (x : RegCell) : RegCell :=
  { x with val := BitVec.ofNat 32 (setFld (setFld x.val.toNat 31 16 0) 14 8 (fld x.val.toNat 6 0)),
           force := BitVec.ofNat 32 (setFld (setFld x.force.toNat 31 16 0) 14 8 (fld x.val.toNat 6 0)) }

/-- Replacing a field of a word and then copying another field into a third is one change of the word. -/
theorem toNat_ofNat_setFld (w : Word) (hi lo x : Nat) (hl : lo ≤ hi) (hh : hi < 32) :
    (BitVec.ofNat 32 (setFld w.toNat hi lo x)).toNat = setFld w.toNat hi lo x := by
  rw [BitVec.toNat_ofNat, Nat.mod_eq_of_lt (setFld_lt _ _ _ _ w.isLt hl hh)]

theorem prtGqueueRead_does {s : State} {c : CtxId} (hm : s.MemOk) (h : s.Serves c Off.PRT_GQUEUE false)
    (hp : (s.ctxs[c]).selPort.toNat < 16) :
    Does (.prtGqueueRead c) s (fun t => s.ReadAs t (s.ctxs[c]).selPort.toNat Off.PRT_GQUEUE (s.reg (s.ctxs[c]).selPort.toNat Off.PRT_GQUEUE)
      (s.cell (s.ctxs[c]).selPort.toNat Off.PRT_GQUEUE).queueRead) := by
  generalize hu : (s.ctxs[c]).selPort.toNat = u at hp ⊢
  have hr : s.reach c Off.PRT_GQUEUE = some (_, u) := State.reach_of rfl (hu ▸ Ctx.unitKey_port rfl (hu ▸ hp))
  have hb := State.busRead_word h rfl (by decide) hr rfl
  refine ⟨_, (exec_prtGqueueRead c s).trans (congrArg Host.Outcome.next hb), rfl, ?_, ?_, ?_⟩
  · exact congrArg (BitVec.ofNat 64) (State.live_prt rfl (by decide) rfl hp)
  · exact fun k hk => (mget_mput_ne (List.ne_of_not_mem_cons hk) _).trans (mget_mput_ne (List.ne_of_not_mem_cons hk) _)
  · refine (State.cell_setCell_same (State.setRf_memOk hm u Off.PRT_GQUEUE 31 16 0) u _ _).trans ?_
    unfold State.reg State.setRf RegCell.queueRead
    rw [State.cell_setCell_same hm]
    simp only [toNat_ofNat_setFld _ 31 16 0 (by decide) (by decide), fld_setFld_below _ _ (show 0 ≤ 6 by decide) (show 6 < 16 by decide)]

end Sys2Proof.Machine
end

section
/-! SUPPORT. O6: each register that a read clears. -/

namespace Sys2Proof.Machine

/-- A read of a register with a high-water field returns what it reads and sets that field to the value of now. -/
theorem highWaterRead_does {i : Instr} {s : State} {c : CtxId} {off : Nat} {r : RegDef} {u : Nat}
    (hi : exec i s = .next (s.busRead c off 4)) (hm : s.MemOk) (h : s.Serves c off false) (hz : off % 4 = 0 ∧ off < 0x200000)
    (hd : regDef off = some r) (hu : s.ctxs[c].unitKey c r off = some u) (hp : r.pair = 0) (hrs : r.rs ≠ 0)
    (hb : r.base = Off.CMP_STALL ∨ r.base = Off.MGT_TEMP ∨ r.base = Off.MGT_VOLT) (hl : s.live c r u off = s.reg u off) :
    Does i s (fun t => s.ReadAs t u off (s.reg u off) ((s.cell u off).copied 31 16 15 0)) :=
  does_read hi hm h hz.1 hz.2 (State.reach_of hd hu) hp (State.readEffect_highWater hrs hb) hl

/-- A read of MGT_JRNL_STAT returns the counts of the journal and clears that of its overflow. -/
theorem mgtJrnlStatRead_does {s : State} {c : CtxId} (h : s.Serves c Off.MGT_JRNL_STAT false) :
    Does (.mgtJrnlStatRead c) s (fun t => t = { s with rdata := t.rdata, jrnl := { s.jrnl with overflow := 0 } } ∧
      t.rdata = BitVec.ofNat 64 (s.jrnl.overflow % 32768 * 2 ^ 17 + s.jrnl.mem.length)) :=
  have hb := State.busRead_word h rfl (by decide) (State.reach_of rfl (Ctx.unitKey_none rfl)) rfl
  ⟨_, (exec_mgtJrnlStatRead c s).trans (congrArg Host.Outcome.next hb), rfl, rfl⟩

/-! ### The registers that stand in rows -/

theorem regDef_cmpShift : ∀ i : Fin 16, regDef (Off.CMP_SHIFT + 4 * i.val) =
    some ⟨Off.CMP_SHIFT, 4, 16, 0, 1, .port, 0, 0, 0, 0, 0, 0xffffffff, 0, 0⟩ := by decide +kernel

theorem regDef_tksPortDrop : ∀ p : PortId, regDef (Off.TKS_PORT_DROP + 16 * p.val) =
    some ⟨Off.TKS_PORT_DROP, 16, 16, 0, 1, .none, 0, 0, 0, 0, 0, 0xffffffff, 0, 0⟩ := by decide +kernel

theorem regDef_auxExcStat : ∀ n : Fin 8, regDef (Off.AUX_EXC_STAT + 16 * n.val) =
    some ⟨Off.AUX_EXC_STAT, 16, 8, 0, 1, .none, 0, 0, 0, 0, 0, 0xffff0000, 0, 0⟩ := by decide +kernel

theorem regDef_auxInjReq : ∀ n : Fin 4, regDef (Off.AUX_INJ_REQ + 16 * n.val) =
    some ⟨Off.AUX_INJ_REQ, 16, 4, 0, 1, .none, 0, 0, 0, 0, 0, 0xffff, 0x80000000, 0⟩ := by decide +kernel

theorem regDef_evqLost : ∀ q : QueueId, regDef (Off.EVQ_LOST + 64 * q.val) =
    some ⟨Off.EVQ_LOST, 64, 64, 0, 1, .none, 0, 0, 0, 0, 0, 0xffffffff, 0, 0⟩ := by decide +kernel

theorem regDef_mgtTemp : ∀ i : Fin 12, regDef (Off.MGT_TEMP + 4 * i.val) =
    some ⟨Off.MGT_TEMP, 4, 12, 0, 1, .none, 0, 0, 0, 0, 0, 0xffff0000, 0, 0⟩ := by decide +kernel

theorem regDef_mgtVolt : ∀ i : Fin 20, regDef (Off.MGT_VOLT + 4 * i.val) =
    some ⟨Off.MGT_VOLT, 4, 20, 0, 1, .none, 0, 0, 0, 0, 0, 0xffff0000, 0, 0⟩ := by decide +kernel

theorem cmpShiftRead_does {s : State} {c : CtxId} (i : Fin 16) (hm : s.MemOk) (h : s.Serves c (Off.CMP_SHIFT + 4 * i.val) false)
    (hp : (s.ctxs[c]).selPort.toNat < 16) :
    Does (.cmpShiftRead c i) s (fun t => s.ReadAs t (s.ctxs[c]).selPort.toNat (Off.CMP_SHIFT + 4 * i.val)
      (s.reg (s.ctxs[c]).selPort.toNat (Off.CMP_SHIFT + 4 * i.val))
      ((s.cell (s.ctxs[c]).selPort.toNat (Off.CMP_SHIFT + 4 * i.val)).cleared 0xFFFFFFFF)) :=
  have hz : ∀ i : Fin 16, (Off.CMP_SHIFT + 4 * i.val) % 4 = 0 ∧ Off.CMP_SHIFT + 4 * i.val < 0x200000 := by decide
  have hk : ∀ i : Fin 16, blockRow (Off.CMP_SHIFT + 4 * i.val) = some 6 ∧ (Off.CMP_SHIFT + 4 * i.val) ∉ shownPip := by decide
  ClearsOnRead.does ⟨regDef_cmpShift i, rfl, rfl, by decide, hz i⟩ rfl hm h (Ctx.unitKey_port rfl hp)
    (State.live_pip (.inr (hk i).1) (hk i).2 rfl hp)

theorem tksPortDropRead_does {s : State} {c : CtxId} (p : PortId) (hm : s.MemOk) (h : s.Serves c (Off.TKS_PORT_DROP + 16 * p.val) false) :
    Does (.tksPortDropRead c p) s (fun t => s.ReadAs t 0 (Off.TKS_PORT_DROP + 16 * p.val) (s.reg 0 (Off.TKS_PORT_DROP + 16 * p.val))
      ((s.cell 0 (Off.TKS_PORT_DROP + 16 * p.val)).cleared 0xFFFFFFFF)) :=
  have hz : ∀ p : PortId, (Off.TKS_PORT_DROP + 16 * p.val) % 4 = 0 ∧ Off.TKS_PORT_DROP + 16 * p.val < 0x200000 := by decide
  have hk : ∀ p : PortId, blockRow (Off.TKS_PORT_DROP + 16 * p.val) = some 7 := by decide
  ClearsOnRead.does ⟨regDef_tksPortDrop p, rfl, rfl, by decide, hz p⟩ rfl hm h (Ctx.unitKey_none rfl)
    (State.live_tks (hk p) (by decide) rfl)

theorem evqLostRead_does {s : State} {c : CtxId} (q : QueueId) (hm : s.MemOk) (h : s.Serves c (Off.EVQ_LOST + 64 * q.val) false) :
    Does (.evqLostRead c q) s (fun t => s.ReadAs t 0 (Off.EVQ_LOST + 64 * q.val) (s.reg 0 (Off.EVQ_LOST + 64 * q.val))
      ((s.cell 0 (Off.EVQ_LOST + 64 * q.val)).cleared 0xFFFFFFFF)) :=
  have hz : ∀ q : QueueId, (Off.EVQ_LOST + 64 * q.val) % 4 = 0 ∧ Off.EVQ_LOST + 64 * q.val < 0x200000 := by decide
  have hk : ∀ q : QueueId, blockRow (Off.EVQ_LOST + 64 * q.val) = some 2 := by decide
  ClearsOnRead.does ⟨regDef_evqLost q, rfl, rfl, by decide, hz q⟩ rfl hm h (Ctx.unitKey_none rfl)
    (State.live_evt (hk q) (by decide) rfl)

/-- AUX_EXC_STAT shows in bit 1 whether the blanking of the bridge fits its half period (R345). -/
theorem State.live_auxExcStat {s : State} {c : CtxId} {r : RegDef} {u off : Nat} {n : Fin 8} (hb : blockRow off = some 9)
    (hr : r.base = Off.AUX_EXC_STAT) (hw : r.wo = 0) (hn : (off - Off.AUX_EXC_STAT) / 16 % 8 = n.val) :
    s.live c r u off = setFld (s.reg 0 off) 1 1 (b2n (s.excErr n)) := by
  unfold State.live
  rw [hb]
  unfold State.liveAux
  dsimp only
  rw [if_neg (by rw [hr]; decide), if_pos hr, State.kept_eq_reg hw]
  exact congrArg (fun m => setFld (s.reg 0 off) 1 1 (b2n (s.excErr m))) (Fin.ext ((congrArg (fun b => (off - b) / 16 % 8) hr).trans hn))

/-- AUX_INJ_REQ shows in bit 16 whether the slot holds a request (R351). -/
theorem State.live_auxInjReq {s : State} {c : CtxId} {r : RegDef} {u off : Nat} {n : Fin 4} (hb : blockRow off = some 9)
    (hr : r.base = Off.AUX_INJ_REQ) (hn : (off - Off.AUX_INJ_REQ) / 16 % 4 = n.val) :
    s.live c r u off = setFld (s.kept r 0 off) 16 16 (b2n s.aux.inj[n].isSome) := by
  unfold State.live
  rw [hb]
  unfold State.liveAux
  dsimp only
  rw [if_neg (by rw [hr]; decide), if_neg (by rw [hr]; decide), if_pos hr]
  exact congrArg (fun m : Fin 4 => setFld (s.kept r 0 off) 16 16 (b2n s.aux.inj[m].isSome)) (Fin.ext ((congrArg (fun b => (off - b) / 16 % 4) hr).trans hn))

theorem auxExcStatRead_does {s : State} {c : CtxId} (n : Fin 8) (hm : s.MemOk) (h : s.Serves c (Off.AUX_EXC_STAT + 16 * n.val) false) :
    Does (.auxExcStatRead c n) s (fun t => s.ReadAs t 0 (Off.AUX_EXC_STAT + 16 * n.val)
      (setFld (s.reg 0 (Off.AUX_EXC_STAT + 16 * n.val)) 1 1 (b2n (s.excErr n)))
      ((s.cell 0 (Off.AUX_EXC_STAT + 16 * n.val)).cleared 0xFFFF0000)) :=
  have hz : ∀ n : Fin 8, (Off.AUX_EXC_STAT + 16 * n.val) % 4 = 0 ∧ Off.AUX_EXC_STAT + 16 * n.val < 0x200000 := by decide
  have hk : ∀ n : Fin 8, blockRow (Off.AUX_EXC_STAT + 16 * n.val) = some 9 ∧
    (Off.AUX_EXC_STAT + 16 * n.val - Off.AUX_EXC_STAT) / 16 % 8 = n.val := by decide
  ClearsOnRead.does ⟨regDef_auxExcStat n, rfl, rfl, by decide, hz n⟩ rfl hm h (Ctx.unitKey_none rfl)
    (State.live_auxExcStat (hk n).1 rfl rfl (hk n).2)

theorem auxInjReqRead_does {s : State} {c : CtxId} (n : Fin 4) (hm : s.MemOk) (h : s.Serves c (Off.AUX_INJ_REQ + 16 * n.val) false) :
    Does (.auxInjReqRead c n) s (fun t => s.ReadAs t 0 (Off.AUX_INJ_REQ + 16 * n.val)
      (setFld (((s.cell 0 (Off.AUX_INJ_REQ + 16 * n.val)).val &&& 0x7FFFFFFF#32).toNat) 16 16 (b2n s.aux.inj[n].isSome))
      ((s.cell 0 (Off.AUX_INJ_REQ + 16 * n.val)).cleared 0x0000FFFF)) :=
  have hz : ∀ n : Fin 4, (Off.AUX_INJ_REQ + 16 * n.val) % 4 = 0 ∧ Off.AUX_INJ_REQ + 16 * n.val < 0x200000 := by decide
  have hk : ∀ n : Fin 4, blockRow (Off.AUX_INJ_REQ + 16 * n.val) = some 9 ∧
    (Off.AUX_INJ_REQ + 16 * n.val - Off.AUX_INJ_REQ) / 16 % 4 = n.val := by decide
  ClearsOnRead.does ⟨regDef_auxInjReq n, rfl, rfl, by decide, hz n⟩ rfl hm h (Ctx.unitKey_none rfl)
    (State.live_auxInjReq (hk n).1 rfl (hk n).2)

/-- A sensor takes the value of now as its maximum (R388). -/
theorem mgtSensorRead_does {s : State} {c : CtxId} (i : Fin 32) (hm : s.MemOk)
    (h : s.Serves c (if i.val < 12 then Off.MGT_TEMP + 4 * i.val else Off.MGT_VOLT + 4 * (i.val - 12)) false) :
    Does (.mgtSensorRead c i) s (fun t => s.ReadAs t 0 (if i.val < 12 then Off.MGT_TEMP + 4 * i.val else Off.MGT_VOLT + 4 * (i.val - 12))
      (s.reg 0 (if i.val < 12 then Off.MGT_TEMP + 4 * i.val else Off.MGT_VOLT + 4 * (i.val - 12)))
      ((s.cell 0 (if i.val < 12 then Off.MGT_TEMP + 4 * i.val else Off.MGT_VOLT + 4 * (i.val - 12))).copied 31 16 15 0)) := by
  have hx := exec_mgtSensorRead c i s
  unfold execMgtSensorRead at hx
  split at h
  · rename_i hi
    have hz : ∀ j : Fin 12, (Off.MGT_TEMP + 4 * j.val) % 4 = 0 ∧ Off.MGT_TEMP + 4 * j.val < 0x200000 := by decide
    have hk : ∀ j : Fin 12, blockRow (Off.MGT_TEMP + 4 * j.val) = some 10 ∧ (Off.MGT_TEMP + 4 * j.val) ∉ shownMgt := by decide
    rw [if_pos hi] at hx ⊢
    exact highWaterRead_does hx hm h (hz ⟨i, hi⟩) (regDef_mgtTemp ⟨i, hi⟩) (Ctx.unitKey_none rfl) rfl (by decide) (.inr (.inl rfl))
      (State.live_mgt (hk ⟨i, hi⟩).1 (hk ⟨i, hi⟩).2 (by decide) rfl)
  · rename_i hi
    have hz : ∀ j : Fin 20, (Off.MGT_VOLT + 4 * j.val) % 4 = 0 ∧ Off.MGT_VOLT + 4 * j.val < 0x200000 := by decide
    have hk : ∀ j : Fin 20, blockRow (Off.MGT_VOLT + 4 * j.val) = some 10 ∧ (Off.MGT_VOLT + 4 * j.val) ∉ shownMgt := by decide
    have hj : i.val - 12 < 20 := by omega
    rw [if_neg hi] at hx ⊢
    exact highWaterRead_does hx hm h (hz ⟨i.val - 12, hj⟩) (regDef_mgtVolt ⟨i.val - 12, hj⟩) (Ctx.unitKey_none rfl) rfl (by decide) (.inr (.inr rfl))
      (State.live_mgt (hk ⟨i.val - 12, hj⟩).1 (hk ⟨i.val - 12, hj⟩).2 (by decide) rfl)

/-- Settles O6, register by register: what it reads, and the side effect of the read. -/
theorem countersReadToClear : Obligations.CountersReadToClear := by
  unfold Obligations.CountersReadToClear
  refine ⟨?prtGqueue, ?prtGreject, ?prtLtgEarly, ?pipEcc, ?pipEccAddr, ?pipLaneStat, ?cmpVerify, ?cmpBad, ?cmpStall, ?cmpShift, ?dmaDcDrop,
    ?dmaDcErr, ?dmaScFault, ?tksPortDrop, ?motChatter, ?auxScanStat, ?auxExcStat, ?auxInjReq, ?evqLost, ?mgtFault, ?mgtFaultCnt,
    ?mgtJrnlStat, ?mgtSensor⟩
  case prtGqueue => exact fun c s hm h hp => prtGqueueRead_does hm h hp
  case prtGreject =>
    exact fun c s hm h hp => ClearsOnRead.does ⟨rfl, rfl, rfl, by decide, by decide⟩ rfl hm h (Ctx.unitKey_port rfl hp)
      (State.live_prt rfl (by decide) rfl hp)
  case prtLtgEarly =>
    exact fun c s hm h hp => ClearsOnRead.does ⟨rfl, rfl, rfl, by decide, by decide⟩ rfl hm h (Ctx.unitKey_port rfl hp)
      (State.live_prt rfl (by decide) rfl hp)
  case pipEcc =>
    exact fun c s hm h hp => ClearsOnRead.does ⟨rfl, rfl, rfl, by decide, by decide⟩ rfl hm h (Ctx.unitKey_port rfl hp)
      (State.live_pip (.inl rfl) (by decide) rfl hp)
  case pipEccAddr =>
    exact fun c s hm h hp => ClearsOnRead.does ⟨rfl, rfl, rfl, by decide, by decide⟩ rfl hm h (Ctx.unitKey_port rfl hp)
      (State.live_pip (.inl rfl) (by decide) rfl hp)
  case pipLaneStat =>
    exact fun c s hm h hp => ClearsOnRead.does ⟨rfl, rfl, rfl, by decide, by decide⟩ rfl hm h (Ctx.unitKey_port rfl hp)
      (State.live_pip (.inl rfl) (by decide) rfl hp)
  case cmpVerify =>
    exact fun c s hm h hp => ClearsOnRead.does ⟨rfl, rfl, rfl, by decide, by decide⟩ rfl hm h (Ctx.unitKey_port rfl hp)
      (State.live_pip (.inr rfl) (by decide) rfl hp)
  case cmpBad =>
    exact fun c s hm h hp => ClearsOnRead.does ⟨rfl, rfl, rfl, by decide, by decide⟩ rfl hm h (Ctx.unitKey_port rfl hp)
      (State.live_pip (.inr rfl) (by decide) rfl hp)
  case cmpStall =>
    exact fun c s hm h hp => highWaterRead_does rfl hm h (by decide) rfl (Ctx.unitKey_port rfl hp) rfl (by decide) (.inl rfl)
      (State.live_pip (.inr rfl) (by decide) rfl hp)
  case cmpShift => exact fun c i s hm h hp => cmpShiftRead_does i hm h hp
  case dmaDcDrop =>
    exact fun c s hm h hc => ClearsOnRead.does ⟨rfl, rfl, rfl, by decide, by decide⟩ rfl hm h
      (Ctx.unitKey_chan rfl (by omega) ⟨fun _ => hc, fun _ => by decide⟩) (State.live_dma rfl (by decide) rfl)
  case dmaDcErr =>
    exact fun c s hm h hc => ClearsOnRead.does ⟨rfl, rfl, rfl, by decide, by decide⟩ rfl hm h
      (Ctx.unitKey_chan rfl (by omega) ⟨fun _ => hc, fun _ => by decide⟩) (State.live_dma rfl (by decide) rfl)
  case dmaScFault =>
    exact fun c s hm h hlo hc => ClearsOnRead.does ⟨rfl, rfl, rfl, by decide, by decide⟩ rfl hm h
      (Ctx.unitKey_chan rfl hc ⟨fun hl => absurd hl (by decide), fun hl => absurd hl (by omega)⟩) (State.live_dma rfl (by decide) rfl)
  case tksPortDrop => exact fun c p s hm h => tksPortDropRead_does p hm h
  case motChatter =>
    exact fun c s hm h ha => ClearsOnRead.does ⟨rfl, rfl, rfl, by decide, by decide⟩ rfl hm h (Ctx.unitKey_axis rfl ha)
      (State.live_mot rfl (by decide) rfl)
  case auxScanStat =>
    exact fun c s hm h => ClearsOnRead.does ⟨rfl, rfl, rfl, by decide, by decide⟩ rfl hm h (Ctx.unitKey_none rfl)
      (congrArg (fun v => setFld (setFld v 7 4 _) 0 0 _) (State.kept_eq_reg rfl))
  case auxExcStat => exact fun c n s hm h => auxExcStatRead_does n hm h
  case auxInjReq => exact fun c n s hm h => auxInjReqRead_does n hm h
  case evqLost => exact fun c q s hm h => evqLostRead_does q hm h
  case mgtFault =>
    exact fun c s hm h => ClearsOnRead.does ⟨rfl, rfl, rfl, by decide, by decide⟩ rfl hm h (Ctx.unitKey_none rfl)
      (State.live_mgt rfl (by decide) (by decide) rfl)
  case mgtFaultCnt =>
    exact fun c s hm h => ClearsOnRead.does ⟨rfl, rfl, rfl, by decide, by decide⟩ rfl hm h (Ctx.unitKey_none rfl)
      (State.live_mgt rfl (by decide) (by decide) rfl)
  case mgtJrnlStat => exact fun c s h => mgtJrnlStatRead_does h
  case mgtSensor => exact fun c i s hm h => mgtSensorRead_does i hm h

end Sys2Proof.Machine
end

section
/-! SUPPORT. What a raising can change (R351, R358, R359), as `State.EventsOnly` says it: the rule of the relation and of each step of a
raising. -/

namespace Sys2Proof.Machine

/-! ### The relation -/

theorem State.EventsOnly.refl (s : State) (srcs : List Nat) : s.EventsOnly s srcs :=
  ⟨rfl, fun _ _ => rfl, fun _ _ => rfl, fun _ _ => rfl, fun _ _ => rfl, fun h => ⟨h, rfl⟩⟩

theorem State.EventsOnly.trans {s t w : State} {srcs : List Nat} (h : s.EventsOnly t srcs) (g : t.EventsOnly w srcs) :
    s.EventsOnly w srcs := by
  obtain ⟨hf, hregs, hraised, hpend, hinj, hdown⟩ := h
  obtain ⟨gf, gregs, graised, gpend, ginj, gdown⟩ := g
  refine ⟨?_, fun k hk => (gregs k hk).trans (hregs k hk), fun k hk => (graised k hk).trans (hraised k hk),
    fun k hk => (gpend k hk).trans (hpend k hk), fun n hn => ?_, fun hd => ?_⟩
  · rw [gf, hf]
  · exact (ginj n (by rw [hinj n hn]; exact hn)).trans (hinj n hn)
  · obtain ⟨hd', hu⟩ := hdown hd
    obtain ⟨gd, gu⟩ := gdown hd'
    exact ⟨gd, gu.trans hu⟩

/-- More sources may be raised. -/
theorem State.EventsOnly.mono {s t : State} {srcs srcs' : List Nat} (h : s.EventsOnly t srcs) (hs : ∀ k ∈ srcs, k ∈ srcs') :
    s.EventsOnly t srcs' := by
  obtain ⟨hf, hregs, hraised, hpend, hinj, hdown⟩ := h
  have hc : ∀ k, k ∉ auxSrc 40 :: srcs' → k ∉ auxSrc 40 :: srcs := fun k hk hm =>
    hk (List.mem_cons.2 ((List.mem_cons.1 hm).imp_right (hs k)))
  exact ⟨hf, hregs, fun k hk => hraised k (hc k hk), fun k hk => hpend k (hc k hk), hinj, hdown⟩

/-- The events do not depend on the journal and on what a read returned. -/
theorem State.EventsOnly.besides {s t : State} {srcs : List Nat} (h : s.EventsOnly t srcs) (j : Journal) (d : DWord) :
    { s with jrnl := j, rdata := d }.EventsOnly { t with jrnl := j, rdata := d } srcs := by
  obtain ⟨hf, hregs, hraised, hpend, hinj, hdown⟩ := h
  exact ⟨congrArg (fun x : State => { x with jrnl := j, rdata := d }) hf, hregs, hraised, hpend, hinj, hdown⟩

/-- Steps that each raise none but these sources. -/
theorem State.foldl_eventsOnly {α : Type} {f : State → α → State} {srcs : List Nat} (hf : ∀ (t : State) (a : α), t.EventsOnly (f t a) srcs) :
    ∀ (l : List α) (s : State), s.EventsOnly (l.foldl f s) srcs := by
  intro l
  induction l with
  | nil => exact fun s => State.EventsOnly.refl s srcs
  | cons a l ih => exact fun s => (hf s a).trans (ih (f s a))

/-! ### The steps of a raising -/

theorem State.raiseOne_eventsOnly (s : State) (src : Nat) (items : List (Nat × Nat)) : s.EventsOnly (s.raiseOne src items) [src] := by
  have hne : ∀ k, k ∉ [auxSrc 40, src] → k ≠ src := fun k hk e => hk (by rw [e]; exact List.mem_cons_of_mem _ (List.mem_singleton_self src))
  refine ⟨?_, ?_, fun k hk => State.raiseOne_raisings_ne s items (hne k hk), ?_, ?_, ?_⟩
  all_goals unfold State.raiseOne; split
  case refine_1.isTrue | refine_1.isFalse => rfl
  case refine_3.isTrue => exact fun k hk => mget_mput_ne (hne k hk) s.pend
  case refine_5.isTrue | refine_5.isFalse => exact fun h => ⟨h, rfl⟩
  all_goals exact fun _ _ => rfl

/-- The register that counts the requests a slot loses is one of `injKeys`. -/
theorem rkey_mem_injKeys (n : Fin 4) : rkey 0 (Off.AUX_INJ_REQ + 16 * n.val) ∈ injKeys :=
  List.mem_map.2 ⟨n.val, List.mem_range.2 n.isLt, rfl⟩

/-- A lost request counts in its slot and raises AUX_INJ_LOST. -/
theorem State.injLose_eventsOnly (s : State) (n : Fin 4) : s.EventsOnly (s.injLose n) [] := by
  have hc : s.EventsOnly (s.incRf 0 (Off.AUX_INJ_REQ + 16 * n.val) 15 0 1) [] :=
    ⟨rfl, fun k hk => mget_mput_ne (fun e => hk (by rw [e]; exact rkey_mem_injKeys n)) s.regs, fun _ _ => rfl, fun _ _ => rfl, fun _ _ => rfl,
      fun h => ⟨h, rfl⟩⟩
  have hr := State.raiseOne_eventsOnly (s.incRf 0 (Off.AUX_INJ_REQ + 16 * n.val) 15 0 1) (auxSrc 40) [(8, n.val)]
  obtain ⟨hf, hregs, hraised, hpend, hinj, hdown⟩ := hr
  have hs : ∀ k, k ∉ [auxSrc 40] → k ∉ [auxSrc 40, auxSrc 40] := fun k hk hm => hk (by simpa using hm)
  exact hc.trans ⟨hf, hregs, fun k hk => hraised k (hs k hk), fun k hk => hpend k (hs k hk), hinj, hdown⟩

/-- A slot without a request takes one, and wakes its converters. -/
theorem State.injHold_eventsOnly {s : State} {n : Fin 4} (hn : s.aux.inj[n].isSome = false) : s.EventsOnly (s.injHold n) [] := by
  refine ⟨?_, fun _ _ => rfl, fun _ _ => rfl, fun _ _ => rfl, fun m hm => ?_, fun hd => ?_⟩
  · unfold State.injHold AuxSt.wake
    split <;> rfl
  · have hmn : n.val ≠ m.val := fun e => by rw [Fin.ext e] at hn; rw [hn] at hm; cases hm
    exact Vector.getElem_set_ne n.isLt m.isLt hmn
  · unfold State.injHold AuxSt.wake
    rw [hd]
    exact ⟨hd, rfl⟩

theorem State.injAgain_eventsOnly (s : State) (n : Fin 4) : s.EventsOnly (s.injAgain n) [] := by
  unfold State.injAgain
  split
  · split
    · exact State.injLose_eventsOnly s n
    · next hn => exact State.injHold_eventsOnly (Bool.eq_false_iff.2 hn)
  · exact State.EventsOnly.refl s []

/-- A request to an injection slot raises no source but AUX_INJ_LOST. -/
theorem State.injRequest_eventsOnly (s : State) (n : Fin 4) : s.EventsOnly (s.injRequest n) [] := by
  unfold State.injRequest
  split
  · exact (State.injLose_eventsOnly s n).trans (State.foldl_eventsOnly State.injAgain_eventsOnly _ _)
  · next hn => exact State.injHold_eventsOnly (Bool.eq_false_iff.2 hn)

/-- A raising changes what `State.EventsOnly` says. -/
theorem State.raise_eventsOnly (s : State) (src : Nat) (items : List (Nat × Nat)) : s.EventsOnly (s.raise src items) [src] := by
  refine (State.raiseOne_eventsOnly s src items).trans (State.foldl_eventsOnly (fun t n => ?_) _ _)
  split
  · exact (State.injRequest_eventsOnly t n).mono (by simp)
  · exact State.EventsOnly.refl t [src]

/-! ### An access that is not served (R39, R45) -/

/-- No event of a context is AUX_INJ_LOST. -/
theorem ctxSrc_ne_auxSrc (k : Nat) : mgtSrc k ≠ auxSrc 40 := by
  unfold mgtSrc auxSrc
  omega

theorem State.badAccess_raisings {s : State} (hm : s.MemOk) (c : CtxId) (off : Nat) :
    (s.badAccess c off).raisings (mgtSrc (5 * c.val + 3)) = s.raisings (mgtSrc (5 * c.val + 3)) + 1 :=
  State.raise_raisings hm _ (ctxSrc_ne_auxSrc _)

/-- A bad access is journaled at the time of now. -/
theorem State.badAccess_jrnl (s : State) (c : CtxId) (off : Nat) :
    (s.badAccess c off).jrnl = s.jrnl.add s.now { jentry 7 0 c.val with offset := off } := by
  show (s.raise _ _).jrnl.add (s.raise _ _).now _ = _
  rw [State.raise_jrnl, State.raise_now]

/-- A bad access changes the journal and raises BAD_ACCESS. -/
theorem State.badAccess_eventsOnly (s : State) (c : CtxId) (off : Nat) (d : DWord) :
    { s with jrnl := (s.badAccess c off).jrnl, rdata := d }.EventsOnly { s.badAccess c off with rdata := d } [mgtSrc (5 * c.val + 3)] := by
  exact (State.raise_eventsOnly s (mgtSrc (5 * c.val + 3)) [(32, off)]).besides (s.badAccess c off).jrnl d

theorem State.denyAccess_raisings {s : State} (hm : s.MemOk) (c : CtxId) (off : Nat) :
    (s.denyAccess c off).raisings (mgtSrc (5 * c.val + 2)) = s.raisings (mgtSrc (5 * c.val + 2)) + 1 := by
  have hu : (s.updCtx c (fun x => { x with denied := some off })).MemOk :=
    (State.updCtx_keeps c (fun x => { x with denied := some off }) (fun _ _ h => h) (fun _ h => h) (Keeps.refl (kc := false) s)).mem hm
  exact State.raise_raisings hu _ (ctxSrc_ne_auxSrc _)

/-- A denied access is journaled at the time of now. -/
theorem State.denyAccess_jrnl (s : State) (c : CtxId) (off : Nat) :
    (s.denyAccess c off).jrnl = s.jrnl.add s.now { jentry 6 0 c.val with offset := off } := by
  unfold State.denyAccess State.journal
  rw [State.raise_jrnl, State.raise_now]
  rfl

/-- HIF_DENIED of the context takes the offset. -/
theorem State.denyAccess_ctxs (s : State) (c : CtxId) (off : Nat) :
    (s.denyAccess c off).ctxs = (s.updCtx c (fun x => { x with denied := some off })).ctxs :=
  State.raise_ctxs _ _ _

/-- A denied access changes the journal and HIF_DENIED of the context, and raises DENIED. -/
theorem State.denyAccess_eventsOnly (s : State) (c : CtxId) (off : Nat) (d : DWord) :
    { s with jrnl := (s.denyAccess c off).jrnl, ctxs := (s.denyAccess c off).ctxs, rdata := d }.EventsOnly
      { s.denyAccess c off with rdata := d } [mgtSrc (5 * c.val + 2)] := by
  rw [State.denyAccess_ctxs]
  exact (State.raise_eventsOnly (s.updCtx c (fun x => { x with denied := some off })) (mgtSrc (5 * c.val + 2)) [(32, off)]).besides
    (s.denyAccess c off).jrnl d

end Sys2Proof.Machine
end

section
/-! SUPPORT. O4: reads and writes of register pairs (R42, R43), a write to a register that has no action of its own (R5, R6), a read of a
table through its window (R170), and the accesses that are not served (R39, R45). -/

namespace Sys2Proof.Machine

/-! ### The register table -/

/-- The register at an offset is one of the block that holds it. -/
theorem regDef_mem {off : Nat} {r : RegDef} (h : regDef off = some r) : ∃ b, blockRow off = some b ∧ r ∈ blockRegs b := by
  unfold regDef at h
  cases hb : blockRow off with
  | none => rw [hb] at h; cases h
  | some b =>
    rw [hb] at h
    exact ⟨b, rfl, List.mem_of_find?_eq_some h⟩

theorem lt_of_mem_blockRegs {b : Nat} {r : RegDef} (h : r ∈ blockRegs b) : b < 13 := by
  by_contra hb
  obtain ⟨n, rfl⟩ := Nat.exists_eq_add_of_le' (Nat.le_of_not_lt hb)
  exact List.not_mem_nil h

/-- What holds of every row of the register table holds of the register at an offset. -/
theorem regDef_forall {P : RegDef → Prop} (hP : ∀ b : Fin 13, ∀ r ∈ blockRegs b.val, P r) {off : Nat} {r : RegDef}
    (h : regDef off = some r) : P r := by
  obtain ⟨b, hb, hr⟩ := regDef_mem h
  exact hP ⟨b, lt_of_mem_blockRegs hr⟩ r hr

/-- CLK_GPIO_IN is no half of a pair. -/
theorem base_ne_gpioIn {off : Nat} {r : RegDef} (h : regDef off = some r) (hp : r.pair = 2) : r.base ≠ Off.CLK_GPIO_IN :=
  regDef_forall (P := fun r => r.pair = 2 → r.base ≠ Off.CLK_GPIO_IN) (by decide +kernel) h hp

/-- A register that stands alone lies at its base. -/
theorem off_of_regDef_base {o : Nat} (hs : ∀ b : Fin 13, ∀ r ∈ blockRegs b.val, r.base = o → r.s1 = 0 ∧ r.n1 = 1 ∧ r.s2 = 0) {off : Nat} {r : RegDef}
    (h : regDef off = some r) (hb : r.base = o) : off = o := by
  obtain ⟨h1, -, h3⟩ := regDef_forall hs h hb
  have hc : r.covers off = true := by
    unfold regDef at h
    cases hq : blockRow off with
    | none => rw [hq] at h; cases h
    | some b => rw [hq] at h; simpa using List.find?_some h
  simp only [RegDef.covers, h1, h3, if_true, Bool.and_eq_true, decide_eq_true_eq] at hc
  omega

/-! ### Pairs -/

/-- A read of either size of the low half of a pair is of a size that R39 allows. -/
theorem sizeOk_pair {off size : Nat} {r : RegDef} (hd : regDef off = some r) (hp : r.pair = 1) (hz : off % 8 = 0)
    (hs : size = 4 ∨ size = 8) : sizeOk off size = true := by
  unfold sizeOk
  rw [hd]
  rcases hs with rfl | rfl
  · have : off % 4 = 0 := by omega
    simp [this]
  · simp [hz, hp]

/-- A read outside the TBL window counts no errors of a table. -/
theorem State.tblEcc_register (s : State) (c : CtxId) {off : Nat} (h : off < 0x200000) (size corr : Nat) (bad : Bool) :
    s.tblEcc c off size corr bad = s := by
  unfold State.tblEcc State.tblEntry
  rw [if_pos (show off < 0x400000 by omega)]
  split <;> rfl

/-- Both halves of a pair as they read in one cycle. -/
def State.pairNow (s : State) (c : CtxId) (r : RegDef) (u off : Nat) : DWord :=
  BitVec.ofNat 64 (s.live c r u off + 2 ^ 32 * (match regDef (off + 4) with | some r' => s.live c r' u (off + 4) | none => 0))

/-- A read of a pair that is no queue's changes nothing. -/
theorem State.pairRead_eq {s : State} {c : CtxId} {r : RegDef} {u off : Nat} (h : r.base ≠ Off.EVQ_POP_LO) :
    s.pairRead c r u off = (s, s.pairNow c r u off) :=
  if_neg h

/-- A context that has read the low half of a pair keeps both halves, tagged. -/
def Ctx.snapped (x : Ctx) (u off : Nat) (v : DWord) : Ctx :=
  { x with snapLo := v.setWidth 32, snapHi := (v >>> 32).setWidth 32, snapTag := some (rkey u off) }

/-- What a read of the low half of a pair, or of the whole of it, does. -/
theorem pairLoRead_does {s : State} {c : CtxId} {off : BitVec 23} {size corr : Nat} {bad : Bool} {r : RegDef} {u : Nat}
    (h : s.Serves c off.toNat false) (hz : off.toNat % 8 = 0) (hs : size = 4 ∨ size = 8) (hr : s.reach c off.toNat = some (r, u))
    (hp : r.pair = 1) (hb : r.base ≠ Off.EVQ_POP_LO) (hlt : off.toNat < 0x200000) :
    Does (.pairLoRead c off ⟨size, corr, bad⟩) s (fun t =>
      let v := s.pairNow c r u off.toNat
      t = { s with rdata := t.rdata, ctxs := t.ctxs } ∧ (∀ d : CtxId, d ≠ c → t.ctxs[d] = s.ctxs[d]) ∧
        t.rdata = (if size = 8 then v else (v.setWidth 32).setWidth 64) ∧
        t.ctxs[c] = (if size = 8 then s.ctxs[c] else s.ctxs[c].snapped u off.toNat v)) := by
  have hok := sizeOk_pair (State.reach_regDef hr) hp hz hs
  refine ⟨_, congrArg Host.Outcome.next
    ((State.tblEcc_register _ c hlt size corr bad).trans (State.busRead_register h hok hlt)), ?_⟩
  unfold State.regRead
  rw [hr]
  dsimp only
  rcases hs with rfl | rfl
  · rw [if_neg (by decide), if_pos hp, State.pairRead_eq hb]
    exact ⟨rfl, fun d hd => State.updCtx_ne s _ hd, rfl, State.updCtx_same s c _⟩
  · rw [if_pos rfl, State.pairRead_eq hb]
    exact ⟨rfl, fun _ _ => rfl, rfl, rfl⟩

/-- What a read of the high half of a pair does. -/
theorem pairHiRead_does {s : State} {c : CtxId} {off : BitVec 23} {r : RegDef} {u : Nat}
    (h : s.Serves c off.toNat false) (hz : off.toNat % 8 = 4) (hr : s.reach c off.toNat = some (r, u))
    (hp : r.pair = 2) (hrs : r.rs = 0) (hlt : off.toNat < 0x200000) :
    Does (.pairHiRead c off) s (fun t =>
      t = { s with rdata := t.rdata, ctxs := t.ctxs } ∧ (∀ d : CtxId, d ≠ c → t.ctxs[d] = s.ctxs[d]) ∧
        (if s.ctxs[c].snapTag.map (fun k => k % 0x800000) = some (off.toNat - 4)
          then t.rdata = s.ctxs[c].snapHi.setWidth 64 ∧ t.ctxs[c] = { s.ctxs[c] with snapTag := none }
          else t.rdata = BitVec.ofNat 64 (s.live c r u off.toNat) ∧ t.ctxs[c] = s.ctxs[c])) := by
  have hok : sizeOk off.toNat 4 = true := sizeOk_word (by omega)
  have he : s.readEffect c r u off.toNat = s := by
    unfold State.readEffect
    rw [if_neg (base_ne_gpioIn (State.reach_regDef hr) hp), if_pos hrs]
  refine ⟨_, congrArg Host.Outcome.next (State.busRead_register h hok hlt), ?_⟩
  unfold State.regRead
  rw [hr]
  dsimp only
  rw [if_neg (by decide), if_neg (by rw [hp]; decide), he]
  split
  · next hm =>
    rw [if_pos hm.2]
    exact ⟨rfl, fun d hd => State.updCtx_ne s _ hd, rfl, State.updCtx_same s c _⟩
  · next hm =>
    rw [if_neg fun ht => hm ⟨hp, ht⟩]
    exact ⟨rfl, fun _ _ => rfl, rfl, rfl⟩

/-! ### A read of a shading or defect table (R170) -/

/-- The tables lie in the TBL window. -/
theorem State.tblEntry_le {s : State} {c : CtxId} {off : Nat} {e : PortId × Nat × Nat × Nat} (h : s.tblEntry c off = some e) :
    0x400000 ≤ off := by
  by_contra hlt
  unfold State.tblEntry at h
  rw [if_pos (Nat.lt_of_not_le hlt)] at h
  cases h

/-- A counting field after it counts. -/
theorem State.rf_incRf {s : State} (h : s.MemOk) (u off hi lo n : Nat) (hl : lo ≤ hi) (hh : hi < 32) :
    (s.incRf u off hi lo n).rf u off hi lo = min (s.rf u off hi lo + n) (2 ^ (hi + 1 - lo) - 1) := by
  have hw : 0 < 2 ^ (hi + 1 - lo) := Nat.two_pow_pos _
  exact (State.rf_setRf h u off hi lo _ hl hh).trans (Nat.mod_eq_of_lt (by omega))

/-- A field above one that counts keeps its value. -/
theorem State.rf_incRf_above {s : State} (h : s.MemOk) (u off n : Nat) {hi lo hi' lo' : Nat} (hl : lo ≤ hi) (hh : hi < 32)
    (ha : hi < lo') : (s.incRf u off hi lo n).rf u off hi' lo' = s.rf u off hi' lo' := by
  unfold State.incRf State.setRf State.rf State.eff
  rw [State.cell_setCell_same h]
  dsimp only
  rw [toNat_ofNat_setFld _ _ _ _ hl hh, fld_setFld_above _ _ hl ha]

/-- The errors of a served read of an entry that can be read. -/
theorem State.tblEcc_readable {s : State} {c : CtxId} {off size corr : Nat} {p : PortId} {k b e : Nat} (h : s.Serves c off false)
    (hz : sizeOk off size = true) (he : s.tblEntry c off = some (p, k, b, e))
    (hu : (s.port p).pipe.unreadable k (s.phys p k b) e = false) :
    s.tblEcc c off size corr false = s.incRf p.val Off.PIP_ECC 15 0 (min corr (size / 4)) := by
  unfold State.tblEcc
  rw [if_neg (by simpa [hz, State.Serves] using h), he]
  dsimp only
  rw [hu, if_neg (by decide)]

/-- A read of a table entry that can be read returns its words and counts the corrected ones. -/
theorem tableRead_does {s : State} {c : CtxId} {off : BitVec 23} {size corr : Nat} {bad : Bool} {p : PortId} {k b e : Nat}
    (hm : s.MemOk) (h : s.Serves c off.toNat false) (hz : sizeOk off.toNat size = true)
    (he : s.tblEntry c off.toNat = some (p, k, b, e)) (hb : bad = false)
    (hu : (s.port p).pipe.unreadable k (s.phys p k b) e = false) :
    Does (.pairLoRead c off ⟨size, corr, bad⟩) s (fun t =>
      t = { s with regs := t.regs, rdata := t.rdata } ∧ s.SameRegs t [rkey p.val Off.PIP_ECC] ∧
        t.rdata = BitVec.ofNat 64 (s.winRead c off.toNat + if size = 8 then 2 ^ 32 * s.winRead c (off.toNat + 4) else 0) ∧
        t.rf p.val Off.PIP_ECC 15 0 = min (s.rf p.val Off.PIP_ECC 15 0 + min corr (size / 4)) 65535 ∧
        t.rf p.val Off.PIP_ECC 31 16 = s.rf p.val Off.PIP_ECC 31 16) := by
  have hle := State.tblEntry_le he
  have hread : s.busRead c off.toNat size =
      { s with rdata := BitVec.ofNat 64 (s.winRead c off.toNat + if size = 8 then 2 ^ 32 * s.winRead c (off.toNat + 4) else 0) } := by
    unfold State.busRead
    rw [if_neg h.1, hz, h.2, if_neg (by simp), if_neg (by simp), if_pos (by omega)]
  generalize BitVec.ofNat 64 (s.winRead c off.toNat + if size = 8 then 2 ^ 32 * s.winRead c (off.toNat + 4) else 0) = d at hread ⊢
  have hecc : State.tblEcc { s with rdata := d } c off.toNat size corr bad =
      { s with rdata := d }.incRf p.val Off.PIP_ECC 15 0 (min corr (size / 4)) :=
    hb ▸ State.tblEcc_readable (s := { s with rdata := d }) h hz he hu
  refine ⟨_, congrArg Host.Outcome.next ((congrArg (State.tblEcc · c off.toNat size corr bad) hread).trans hecc), rfl, ?_, rfl, ?_, ?_⟩
  · exact fun x hx => mget_mput_ne (List.ne_of_not_mem_cons hx) _
  · exact State.rf_incRf (s := s) hm p.val Off.PIP_ECC 15 0 _ (by decide) (by decide)
  · exact State.rf_incRf_above (s := s) hm p.val Off.PIP_ECC _ (by decide) (by decide) (by decide)

end Sys2Proof.Machine
end

section
/-! SUPPORT. O4: a write to a register that has no action of its own (R5, R6), and to the halves of a pair (R43). -/

namespace Sys2Proof.Machine

/-! ### Registers that a write only writes -/

/-- The registers whose write has an action of its own. -/
def actingRegs : List Nat :=
  [Off.HIF_CTX_CTL, Off.HIF_ASQ_TAIL, Off.HIF_ACQ_HEAD, Off.HIF_RESET, Off.EVT_ROUTE, Off.EVQ_CTL, Off.EVQ_LEVEL, Off.EVQ_RING_HEAD,
   Off.EVQ_RING_BASE_LO, Off.EVQ_RING_BASE_HI, Off.EVQ_RING_SIZE, Off.DMA_DC_TAIL, Off.DMA_SC_CTL, Off.DMA_SC_TRAP, Off.PRT_HEAD_CTL,
   Off.PRT_OV, Off.PRT_WATCH, Off.PRT_GCFG, Off.PRT_CONV_CTL, Off.PRT_LTG_CMD, Off.PRT_GEAR_ARMCTL, Off.PRT_GEAR_LCFG, Off.PIP_BANK_CTL,
   Off.CMP_CTL, Off.TKS_CTL, Off.TKS_DRV_CTL, Off.MOT_GRP_CTL, Off.MOT_MSTEP_CTL, Off.AUX_SCAN_CTL, Off.AUX_SCAN_MASK, Off.AUX_EXC_CFG,
   Off.AUX_INJ_REQ, Off.AUX_OV, Off.AUX_CAL_CTL, Off.MGT_MBOX_CTL, Off.CLK_PPLL_FREQ]

/-- A register without an action is none of these. -/
theorem base_ne_of_not_acting {r : RegDef} (h : r.base ∉ actingRegs) {o : Nat} (ho : o ∈ actingRegs) : r.base ≠ o :=
  fun e => h (e ▸ ho)

/-- The offset of a register that stands alone is that of no register with another base. -/
theorem off_ne_of_base_ne {off o : Nat} {r : RegDef} (hd : regDef off = some r) (ho : (regDef o).map RegDef.base = some o)
    (h : r.base ≠ o) : off ≠ o := by
  rintro rfl
  rw [hd] at ho
  exact h (Option.some.inj ho)

section

variable {s t : State} {c : CtxId} {r : RegDef} (hn : r.base ∉ actingRegs)
include hn

theorem State.writeHif_plain {off v : Nat} (hd : regDef off = some r) : s.writeHif t c off v = t := by
  have hne {o : Nat} (ho : o ∈ actingRegs) (hr : (regDef o).map RegDef.base = some o) : off ≠ o :=
    off_ne_of_base_ne hd hr (base_ne_of_not_acting hn ho)
  unfold State.writeHif
  rw [if_neg (hne (by decide) (by decide +kernel)), if_neg (hne (by decide) (by decide +kernel)),
    if_neg (hne (by decide) (by decide +kernel)), if_neg (hne (by decide) (by decide +kernel))]

theorem State.writeEvt_plain {off v : Nat} : s.writeEvt t c r off v = t := by
  have hne {o : Nat} (ho : o ∈ actingRegs) : r.base ≠ o := base_ne_of_not_acting hn ho
  unfold State.writeEvt
  simp only [if_neg (hne (o := Off.EVT_ROUTE) (by decide)), if_neg (hne (o := Off.EVQ_CTL) (by decide)),
    if_neg (hne (o := Off.EVQ_LEVEL) (by decide)), if_neg (hne (o := Off.EVQ_RING_HEAD) (by decide)),
    if_neg (not_or.2 ⟨hne (o := Off.EVQ_RING_BASE_LO) (by decide), hne (o := Off.EVQ_RING_BASE_HI) (by decide)⟩),
    if_neg (hne (o := Off.EVQ_RING_SIZE) (by decide))]

theorem State.writeDma_plain {u v : Nat} : s.writeDma t c r u v = t := by
  have hne {o : Nat} (ho : o ∈ actingRegs) : r.base ≠ o := base_ne_of_not_acting hn ho
  unfold State.writeDma
  simp only [if_neg (hne (o := Off.DMA_DC_TAIL) (by decide)), if_neg (hne (o := Off.DMA_SC_CTL) (by decide)),
    if_neg (hne (o := Off.DMA_SC_TRAP) (by decide))]

theorem State.writePrt_plain {p : PortId} {v : Nat} : s.writePrt t r p v = t := by
  have hne {o : Nat} (ho : o ∈ actingRegs) : r.base ≠ o := base_ne_of_not_acting hn ho
  unfold State.writePrt
  simp only [if_neg (hne (o := Off.PRT_HEAD_CTL) (by decide)), if_neg (hne (o := Off.PRT_OV) (by decide)),
    if_neg (hne (o := Off.PRT_CONV_CTL) (by decide)), if_neg (hne (o := Off.PRT_WATCH) (by decide)),
    if_neg (hne (o := Off.PRT_GCFG) (by decide)), if_neg (hne (o := Off.PRT_LTG_CMD) (by decide)),
    if_neg (hne (o := Off.PRT_GEAR_ARMCTL) (by decide)), if_neg (hne (o := Off.PRT_GEAR_LCFG) (by decide))]

theorem State.writePip_plain {p : PortId} {v : Nat} : s.writePip t r p v = t := by
  have hne {o : Nat} (ho : o ∈ actingRegs) : r.base ≠ o := base_ne_of_not_acting hn ho
  unfold State.writePip
  rw [if_neg (hne (by decide)), if_neg (hne (by decide))]

theorem State.writeTks_plain {off v : Nat} (hd : regDef off = some r) : s.writeTks r off v = s.plain r 0 off v := by
  have hne {o : Nat} (ho : o ∈ actingRegs) : r.base ≠ o := base_ne_of_not_acting hn ho
  have hoff : off ≠ Off.TKS_CTL := off_ne_of_base_ne hd (by decide +kernel) (hne (by decide))
  unfold State.writeTks
  rw [if_neg hoff, if_neg (hne (by decide))]

theorem State.writeMot_plain {u off v : Nat} : s.writeMot t r u off v = t := by
  have hne {o : Nat} (ho : o ∈ actingRegs) : r.base ≠ o := base_ne_of_not_acting hn ho
  unfold State.writeMot
  rw [if_neg (hne (by decide)), if_neg (hne (by decide))]

theorem State.writeAux_plain {off v : Nat} : s.writeAux t r off v = t := by
  have hne {o : Nat} (ho : o ∈ actingRegs) : r.base ≠ o := base_ne_of_not_acting hn ho
  unfold State.writeAux
  simp only [if_neg (hne (o := Off.AUX_SCAN_CTL) (by decide)), if_neg (hne (o := Off.AUX_SCAN_MASK) (by decide)),
    if_neg (hne (o := Off.AUX_EXC_CFG) (by decide)), if_neg (hne (o := Off.AUX_INJ_REQ) (by decide)),
    if_neg (hne (o := Off.AUX_OV) (by decide)), if_neg (hne (o := Off.AUX_CAL_CTL) (by decide))]

end

/-- The registers of the TKS block are selected by no SEL register. -/
theorem sel_none_of_mem_tksRegs {r : RegDef} (h : r ∈ tksRegs) : r.sel = .none := by
  have ha : ∀ r ∈ tksRegs, r.sel = .none := by decide +kernel
  exact ha r h

/-- A write to a register without an action writes its fields. -/
theorem State.act_plain {s : State} {c : CtxId} {off u v b : Nat} {r : RegDef} (hd : regDef off = some r) (hu : r.sel = .none → u = 0)
    (hb : blockRow off = some b) (h12 : b < 12) (h1 : b ≠ 1) (hn : r.base ∉ actingRegs) : s.act c r u off v = s.plain r u off v := by
  have hne {o : Nat} (ho : o ∈ actingRegs) : r.base ≠ o := base_ne_of_not_acting hn ho
  unfold State.act
  rw [hb]
  match b, hb with
  | 0, _ => exact State.writeHif_plain hn hd
  | 2, _ => exact State.writeEvt_plain hn
  | 3, _ => exact State.writeDma_plain hn
  | 4, _ => exact State.writePrt_plain hn
  | 5, _ | 6, _ => exact State.writePip_plain hn
  | 7, hb =>
    obtain ⟨b', hb', hmem⟩ := regDef_mem hd
    rw [hb] at hb'
    cases hb'
    rw [hu (sel_none_of_mem_tksRegs hmem)]
    exact State.writeTks_plain hn hd
  | 8, _ => exact State.writeMot_plain hn
  | 9, _ => exact State.writeAux_plain hn
  | 10, _ => exact if_neg (by simp [hne (o := Off.MGT_MBOX_CTL) (by decide)])
  | 11, _ => exact if_neg (hne (by decide))

/-! ### A write that a register takes -/

/-- A journaled write is the write and an entry. -/
theorem State.noteWrite_frame (s t : State) (c : CtxId) (r : RegDef) (u off v : Nat) :
    s.noteWrite t c r u off v = { t with jrnl := (s.noteWrite t c r u off v).jrnl } := by
  unfold State.noteWrite
  dsimp only
  split <;> rfl

/-- A write that a register takes. -/
theorem State.wordWrite_taken {s : State} {c : CtxId} {r : RegDef} {u off v : Nat} (ht : s.takes c r u off v = true) :
    s.wordWrite c r u off v =
      if r.sel = .ctx ∧ 0x10000 ≤ off then s.act c r u off (s.adjust r u off v)
      else s.noteWrite (s.act c r u off (s.adjust r u off v)) c r u off (s.adjust r u off v) := by
  unfold State.wordWrite
  rw [ht]
  rfl

/-- A write that a register without an action takes as it is writes its fields and may be journaled. -/
theorem State.wordWrite_plain {s : State} {c : CtxId} {off u v : Nat} {r : RegDef} (ht : s.takes c r u off v = true)
    (ha : s.adjust r u off v = v) (hp : s.act c r u off v = s.plain r u off v) :
    ∃ j, s.wordWrite c r u off v = { s.plain r u off v with jrnl := j } := by
  rw [State.wordWrite_taken ht, ha, hp]
  split
  · exact ⟨_, rfl⟩
  · exact ⟨_, State.noteWrite_frame s _ c r u off v⟩

/-- From `s` to `t` a write of `w` has written the fields of register `r` at `off` of unit `u`, and may have been journaled. -/
def State.Written (s t : State) (r : RegDef) (u off : Nat) (w : Word) : Prop :=
  t = { s with regs := t.regs, jrnl := t.jrnl } ∧ s.SameRegs t [rkey u off] ∧ t.cell u off = (s.cell u off).written r w

theorem State.wordWrite_written {s : State} (hm : s.MemOk) {c : CtxId} {off u v : Nat} {r : RegDef} (ht : s.takes c r u off v = true)
    (ha : s.adjust r u off v = v) (hp : s.act c r u off v = s.plain r u off v) :
    s.Written (s.wordWrite c r u off v) r u off (BitVec.ofNat 32 v) := by
  obtain ⟨j, hj⟩ := State.wordWrite_plain ht ha hp
  rw [hj]
  exact ⟨rfl, fun k hk => mget_mput_ne (List.ne_of_not_mem_cons hk) _, State.cell_setCell_same hm u off _⟩

/-- A served write of a register. -/
theorem State.busWrite_register {s : State} {c : CtxId} {off size v : Nat} (h : s.Serves c off true) (hz : sizeOk off size = true)
    (hlt : off < 0x200000) : s.busWrite c off size v = s.regWrite c off size v := by
  unfold State.busWrite
  rw [if_neg h.1, hz, h.2, if_neg (by simp), if_neg (by simp), if_neg (by omega)]

/-- The blocks of the registers lie below the windows. -/
theorem lt_of_blockRow {off b : Nat} (hb : blockRow off = some b) (h : b < 12) : off < 0x200000 := by
  by_contra hge
  have hge : 0x200000 ≤ off := Nat.le_of_not_lt hge
  unfold blockRow at hb
  simp only [show ¬ off < 0x10000 by omega, show ¬ off < 0x20000 by omega, show ¬ off < 0x40000 by omega, show ¬ off < 0x80000 by omega,
    show ¬ off < 0xA0000 by omega, show ¬ off < 0xC0000 by omega, show ¬ off < 0xE0000 by omega, show ¬ off < 0x100000 by omega,
    show ¬ off < 0x120000 by omega, show ¬ off < 0x140000 by omega, show ¬ off < 0x160000 by omega, show ¬ off < 0x170000 by omega,
    show ¬ off < 0x200000 by omega, if_false] at hb
  split_ifs at hb <;> · obtain rfl := Option.some.inj hb; omega

/-- The low word of a number of a write. -/
theorem ofNat_mod_eq_setWidth (v : DWord) : BitVec.ofNat 32 (v.toNat % 2 ^ 32) = v.setWidth 32 :=
  BitVec.eq_of_toNat_eq (by simp)

/-- A write to a register without an action. -/
theorem plainWrite_does {s : State} {c : CtxId} {off : BitVec 23} {v : DWord} {r : RegDef} {u : Nat} (hm : s.MemOk)
    (h : s.Serves c off.toNat true) (hz : off.toNat % 4 = 0) (hr : s.reach c off.toNat = some (r, u))
    (hb : (blockRow off.toNat).any (fun b => decide (b < 12) && b != 1) = true) (hp : r.pair = 0) (hl : lockedSc r u = false)
    (ht : s.takes c r u off.toNat (v.toNat % 2 ^ 32) = true)
    (ha : s.adjust r u off.toNat (v.toNat % 2 ^ 32) = v.toNat % 2 ^ 32) (hn : r.base ∉ actingRegs) :
    Does (.regWrite c off 4 v) s (fun t => s.Written t r u off.toNat (v.setWidth 32)) := by
  obtain ⟨b, hrow, h12, h1⟩ : ∃ b, blockRow off.toNat = some b ∧ b < 12 ∧ b ≠ 1 := by simpa [Option.any_eq_true] using hb
  have hw : s.busWrite c off.toNat 4 v.toNat = s.wordWrite c r u off.toNat (v.toNat % 2 ^ 32) :=
    (State.busWrite_word h hz (lt_of_blockRow hrow h12) hr hl hp ht).trans (State.wordWrite_taken ht).symm
  refine ⟨_, congrArg Host.Outcome.next hw, ?_⟩
  have hu : r.sel = .none → u = 0 := fun hs => Option.some.inj ((State.reach_unitKey hr).symm.trans (Ctx.unitKey_none hs))
  have hwr := State.wordWrite_written hm ht ha (State.act_plain (State.reach_regDef hr) hu hrow h12 h1 hn)
  rwa [ofNat_mod_eq_setWidth] at hwr

/-! ### The halves of a pair (R43) -/

/-- What a write of the low half of a pair does: it is held. -/
theorem pairLoWrite_does {s : State} {c : CtxId} {off : BitVec 23} {v : Word} {r : RegDef} {u : Nat} (h : s.Serves c off.toNat true)
    (hz : off.toNat % 8 = 0) (hr : s.reach c off.toNat = some (r, u)) (hp : r.pair = 1) (hl : lockedSc r u = false)
    (ht : s.takes c r u off.toNat v.toNat = true) (hlt : off.toNat < 0x200000) :
    Does (.pairLoWrite c off v) s (fun t => t = { s with ctxs := t.ctxs } ∧ (∀ d : CtxId, d ≠ c → t.ctxs[d] = s.ctxs[d]) ∧
      t.ctxs[c] = { s.ctxs[c] with holdVal := v, holdTag := some (rkey u off.toNat) }) := by
  refine ⟨_, congrArg Host.Outcome.next (State.busWrite_register h (sizeOk_word (by omega)) hlt), ?_⟩
  unfold State.regWrite
  rw [hr]
  dsimp only
  rw [hl, if_neg (by decide), if_neg (by decide), if_pos hp, ht, if_neg (by decide), BitVec.ofNat_toNat, BitVec.setWidth_eq]
  exact ⟨rfl, fun d hd => State.updCtx_ne s _ hd, State.updCtx_same s c _⟩

/-- The registers whose write is taken only at times, or as another value, beside those with an action of their own. -/
def pickyRegs : List Nat :=
  [Off.MGT_MBOX_DATA, Off.CLK_BANK, Off.DMA_DC_CFG, Off.HIF_PTM_CTL, Off.DMA_DC_EOC, Off.MOT_MCFG0, Off.MOT_MCFG1]

/-- The offsets that take no write while the rings of the context run (R47). -/
def ringOffset (off : Nat) : Prop := Off.HIF_ASQ_BASE_LO ≤ off ∧ off ≤ Off.HIF_AQ_SIZE

/-- What the register table says of a half whose write only writes its RW fields. -/
structure PlainHalf (off : Nat) (r : RegDef) : Prop where
  def_ : regDef off = some r
  place : off % 4 = 0 ∧ ∃ b, blockRow off = some b ∧ b < 12 ∧ b ≠ 1
  selected : r.sel ≠ .none
  plain : r.base ∉ actingRegs ∧ r.base ∉ pickyRegs
  clears : r.w1c = 0#32

/-- Such a half takes a write, unless it is of a ring that runs. -/
theorem PlainHalf.takes {s : State} {c : CtxId} {off u v : Nat} {r : RegDef} (k : PlainHalf off r)
    (he : ringOffset off → s.ctxs[c].enable = false) : s.takes c r u off v = true := by
  have hact {o : Nat} (ho : o ∈ actingRegs) : r.base ≠ o := base_ne_of_not_acting k.plain.1 ho
  have hpick {o : Nat} (ho : o ∈ pickyRegs) : r.base ≠ o := fun e => k.plain.2 (e ▸ ho)
  unfold State.takes
  split
  · next hring => simpa using he hring
  · rw [if_neg (not_or.2 ⟨hact (by decide), not_or.2 ⟨hact (by decide), hact (by decide)⟩⟩), if_neg (hpick (by decide)),
      if_neg (hact (by decide)), if_neg (hpick (by decide)), if_neg (hpick (by decide))]

/-- Such a half stores what is written. -/
theorem PlainHalf.adjust {s : State} {off u v : Nat} {r : RegDef} (k : PlainHalf off r) : s.adjust r u off v = v := by
  have hpick {o : Nat} (ho : o ∈ pickyRegs) : r.base ≠ o := fun e => k.plain.2 (e ▸ ho)
  unfold State.adjust
  rw [if_neg (hpick (by decide)), if_neg (hpick (by decide)), if_neg (hpick (by decide)), if_neg (hpick (by decide))]

theorem PlainHalf.written {s : State} {c : CtxId} {off u v : Nat} {r : RegDef} (k : PlainHalf off r) (hm : s.MemOk)
    (he : ringOffset off → s.ctxs[c].enable = false) : s.Written (s.halfWrite c u off v) r u off (BitVec.ofNat 32 v) := by
  obtain ⟨b, hrow, h12, h1⟩ := k.place.2
  unfold State.halfWrite
  rw [k.def_]
  exact State.wordWrite_written hm (k.takes he) k.adjust
    (State.act_plain k.def_ (fun hs => absurd hs k.selected) hrow h12 h1 k.plain.1)

/-- The value in force of a half after the write. -/
theorem PlainHalf.force_written {off : Nat} {r : RegDef} (k : PlainHalf off r) (x : RegCell) (w : Word) :
    (x.written r w).force = (x.force &&& ~~~r.rw) ||| (w &&& r.rw) := by
  unfold RegCell.written
  rw [k.clears, BitVec.zero_and, BitVec.or_zero]

theorem State.Written.ctxs {s t : State} {r : RegDef} {u off : Nat} {w : Word} (h : s.Written t r u off w) : t.ctxs = s.ctxs :=
  (congrArg State.ctxs h.1 :)

/-- Another register keeps its contents. -/
theorem State.Written.cell_ne {s t : State} {r : RegDef} {u off off' : Nat} {w : Word} (h : s.Written t r u off w)
    (hne : off' ≠ off) : t.cell u off' = s.cell u off' :=
  h.2.1 _ fun hm => hne (Nat.add_left_cancel (List.mem_singleton.1 hm))

/-- Both halves written, the low one first: what each reads then. -/
theorem PlainHalf.both_written {s : State} {c : CtxId} {off u v w : Nat} {lo hi : RegDef} (kl : PlainHalf (off - 4) lo)
    (kh : PlainHalf off hi) (hm : s.MemOk) (hlo : lo.rw = BitVec.allOnes 32) (h4 : 4 ≤ off)
    (hel : ringOffset (off - 4) → s.ctxs[c].enable = false) (heh : ringOffset off → s.ctxs[c].enable = false) :
    let t := (s.halfWrite c u (off - 4) v).halfWrite c u off w
    t = { s with regs := t.regs, jrnl := t.jrnl } ∧ s.SameRegs t [rkey u (off - 4), rkey u off] ∧
      (t.cell u off).force = ((s.cell u off).force &&& ~~~hi.rw) ||| (BitVec.ofNat 32 w &&& hi.rw) ∧
      (t.cell u (off - 4)).force = BitVec.ofNat 32 v := by
  have hl := kl.written (u := u) (v := v) hm hel
  have hm' : (s.halfWrite c u (off - 4) v).MemOk :=
    (State.halfWrite_keeps c u (off - 4) v (Keeps.refl (kc := false) s) (fun h => by cases h)).mem hm
  have hh := kh.written (c := c) (u := u) (v := w) hm' (by rw [hl.ctxs]; exact heh)
  refine ⟨?_, fun k hk => ?_, ?_, ?_⟩
  · rw [hh.1, hl.1]
  · obtain ⟨hk1, hk2⟩ : k ∉ [rkey u (off - 4)] ∧ k ∉ [rkey u off] := by simpa [not_or] using hk
    exact (hh.2.1 k hk2).trans (hl.2.1 k hk1)
  · rw [hh.2.2, kh.force_written, hl.cell_ne (by omega)]
  · rw [hh.cell_ne (by omega), hl.2.2, kl.force_written, hlo, BitVec.and_allOnes, BitVec.not_allOnes, BitVec.and_zero,
      BitVec.zero_or]

/-- The state with no half held for context `c`. -/
def State.unheld (s : State) (c : CtxId) : State := s.updCtx c (fun x => { x with holdTag := none })

theorem State.unheld_same (s : State) (c : CtxId) : (s.unheld c).ctxs[c] = { s.ctxs[c] with holdTag := none } :=
  State.updCtx_same s c _

theorem State.unheld_ne (s : State) {c d : CtxId} (h : d ≠ c) : (s.unheld c).ctxs[d] = s.ctxs[d] := State.updCtx_ne s _ h

theorem State.frame_of_unheld {s t : State} {c : CtxId} (h : t = { s.unheld c with regs := t.regs, jrnl := t.jrnl }) :
    t = { s with regs := t.regs, ctxs := t.ctxs, jrnl := t.jrnl } := by
  rw [h]
  rfl

theorem State.unheld_memOk {s : State} (h : s.MemOk) (c : CtxId) : (s.unheld c).MemOk :=
  (State.updCtx_keeps c (fun x => { x with holdTag := none }) (fun _ _ h => h) (fun _ h => h) (Keeps.refl (kc := false) s)).mem h

/-- What a write of the high half of a pair does: it commits the low half that is held for it, or itself. -/
theorem pairHiWrite_does {s : State} {c : CtxId} {off : BitVec 23} {v : Word} {lo hi : RegDef} {u : Nat} (hm : s.MemOk)
    (h : s.Serves c off.toNat true) (hr : s.reach c off.toNat = some (hi, u)) (kl : PlainHalf (off.toNat - 4) lo)
    (kh : PlainHalf off.toNat hi) (hp : hi.pair = 2) (hlo : lo.rw = BitVec.allOnes 32) (h4 : 4 ≤ off.toNat) (hl : lockedSc hi u = false)
    (hel : ringOffset (off.toNat - 4) → s.ctxs[c].enable = false) (heh : ringOffset off.toNat → s.ctxs[c].enable = false) :
    Does (.pairHiWrite c off v) s (fun t =>
      t = { s with regs := t.regs, ctxs := t.ctxs, jrnl := t.jrnl } ∧ (∀ d : CtxId, d ≠ c → t.ctxs[d] = s.ctxs[d]) ∧
        s.SameRegs t [rkey u (off.toNat - 4), rkey u off.toNat] ∧
        (t.cell u off.toNat).force = (((s.cell u off.toNat).force &&& ~~~hi.rw) ||| (v &&& hi.rw)) ∧
        (if s.ctxs[c].holdTag = some (rkey u (off.toNat - 4))
          then t.eff u (off.toNat - 4) = s.ctxs[c].holdVal.toNat ∧ t.ctxs[c] = { s.ctxs[c] with holdTag := none }
          else t.eff u (off.toNat - 4) = s.eff u (off.toNat - 4) ∧ t.ctxs[c] = s.ctxs[c])) := by
  obtain ⟨b, hrow, h12, -⟩ := kh.place.2
  have hv : BitVec.ofNat 32 (v.toNat % 2 ^ 32) = v := by
    rw [Nat.mod_eq_of_lt v.isLt, BitVec.ofNat_toNat, BitVec.setWidth_eq]
  refine ⟨_, congrArg Host.Outcome.next (State.busWrite_register h (sizeOk_word kh.place.1) (lt_of_blockRow hrow h12)), ?_⟩
  unfold State.regWrite
  rw [hr]
  dsimp only
  rw [hl, if_neg (by decide), if_neg (by decide), if_neg (by rw [hp]; decide)]
  by_cases hh : s.ctxs[c].holdTag = some (rkey u (off.toNat - 4))
  · rw [if_pos ⟨hp, hh⟩, if_pos hh]
    obtain ⟨hf, hs, hforce, hlow⟩ := kl.both_written (c := c) (u := u) (v := s.ctxs[c].holdVal.toNat) (w := v.toNat % 2 ^ 32) kh
      (State.unheld_memOk hm c) hlo h4 (by rw [State.unheld_same]; exact hel) (by rw [State.unheld_same]; exact heh)
    rw [hv] at hforce
    have hctxs := (congrArg State.ctxs hf :)
    refine ⟨State.frame_of_unheld hf, fun d hd => ?_, hs, hforce, ?_, ?_⟩
    · exact (congrArg (·[d]) hctxs).trans (State.unheld_ne s hd)
    · exact (congrArg BitVec.toNat hlow).trans (by rw [BitVec.ofNat_toNat, BitVec.setWidth_eq])
    · exact (congrArg (·[c]) hctxs).trans (State.unheld_same s c)
  · have hw := kh.written (c := c) (u := u) (v := v.toNat % 2 ^ 32) hm heh
    rw [if_neg fun hc => hh hc.2, if_neg hh]
    refine ⟨?_, fun d _ => congrArg (·[d]) hw.ctxs, fun k hk => hw.2.1 k fun hm => hk (List.mem_cons_of_mem _ hm), ?_, ?_,
      congrArg (·[c]) hw.ctxs⟩
    · rw [hw.1]
    · rw [hw.2.2, kh.force_written, hv]
    · exact congrArg (fun x : RegCell => x.force.toNat) (hw.cell_ne (by omega))

/-! ### The pairs that a host writes -/

/-- The high halves of the pairs that a host writes. -/
def pairHiRegs : List Nat := [Off.PRT_GEAR_APOS_HI, Off.DMA_SC_BASE_HI, Off.HIF_ASQ_BASE_HI, Off.HIF_ACQ_BASE_HI]

/-- Each of them stands alone. -/
theorem off_of_mem_pairHiRegs {off : Nat} {r : RegDef} (hd : regDef off = some r) (h : r.base ∈ pairHiRegs) : off = r.base :=
  off_of_regDef_base (o := r.base)
    (fun b r' hr' he => (by decide +kernel : ∀ b : Fin 13, ∀ r ∈ blockRegs b.val, r.base ∈ pairHiRegs → r.s1 = 0 ∧ r.n1 = 1 ∧ r.s2 = 0)
      b r' hr' (he ▸ h)) hd rfl

/-- The two halves of such a pair. -/
theorem pairHiRegs_halves : ∀ o ∈ pairHiRegs, ∃ lo hi, PlainHalf (o - 4) lo ∧ PlainHalf o hi ∧ hi.pair = 2 ∧ lo.rw = BitVec.allOnes 32 ∧ 4 ≤ o := by
  simp only [pairHiRegs, List.mem_cons, List.not_mem_nil, or_false]
  rintro o (rfl | rfl | rfl | rfl) <;>
    exact ⟨_, _, ⟨rfl, ⟨by decide, _, rfl, by decide, by decide⟩, by decide, by decide, rfl⟩,
      ⟨rfl, ⟨by decide, _, rfl, by decide, by decide⟩, by decide, by decide, rfl⟩, rfl, rfl, by decide⟩

end Sys2Proof.Machine
end

section
/-! SUPPORT. O4: the accesses that are not served, and the statement. -/

namespace Sys2Proof.Machine

/-- R39 allows an access of 32 bits, or of 64 bits to a pair or in a window. -/
theorem sizeOk_iff (off size : Nat) : sizeOk off size = true ↔ (size = 4 ∧ off % 4 = 0) ∨
    (size = 8 ∧ off % 8 = 0 ∧ (0x200000 ≤ off ∨ (regDef off).any (fun r => r.pair == 1) = true)) := by
  unfold sizeOk
  cases regDef off <;> simp [and_assoc]

theorem sizeOk_eq_false {off size : Nat} (h4 : ¬(size = 4 ∧ off % 4 = 0))
    (h8 : ¬(size = 8 ∧ off % 8 = 0 ∧ (0x200000 ≤ off ∨ (regDef off).any (fun r => r.pair == 1) = true))) :
    sizeOk off size = false :=
  Bool.eq_false_iff.2 fun h => ((sizeOk_iff off size).1 h).elim h4 h8

section

variable {s : State} {c : CtxId} {off size : Nat} (hs : s.refSel ≠ 3)
include hs

theorem State.busWrite_bad (v : Nat) (hz : sizeOk off size = false) : s.busWrite c off size v = s.badAccess c off := by
  unfold State.busWrite
  rw [if_neg hs, hz]
  rfl

theorem State.busWrite_denied (v : Nat) (hz : sizeOk off size = true) (ha : s.ctxs[c].allowed off true = false) :
    s.busWrite c off size v = s.denyAccess c off := by
  unfold State.busWrite
  rw [if_neg hs, hz, ha]
  rfl

theorem State.busRead_bad (hz : sizeOk off size = false) : s.busRead c off size = { s.badAccess c off with rdata := 0 } := by
  unfold State.busRead
  rw [if_neg hs, hz]
  rfl

theorem State.busRead_denied (hz : sizeOk off size = true) (ha : s.ctxs[c].allowed off false = false) :
    s.busRead c off size = { s.denyAccess c off with rdata := 0 } := by
  unfold State.busRead
  rw [if_neg hs, hz, ha]
  rfl

end

/-- A read that is not served counts no errors of a table. -/
theorem State.tblEcc_unserved {s : State} {c : CtxId} {off size corr : Nat} {bad : Bool}
    (h : sizeOk off size = false ∨ s.ctxs[c].allowed off false = false) : s.tblEcc c off size corr bad = s := by
  have hc : (s.refSel = 3 || !sizeOk off size || !s.ctxs[c].allowed off false) = true := by
    rcases h with h | h <;> rw [h] <;> simp
  unfold State.tblEcc
  rw [if_pos (by simpa using hc)]

/-- What a context may access does not depend on HIF_DENIED. -/
theorem State.denyAccess_allowed (s : State) (c : CtxId) (off : Nat) (off' : Nat) (wr : Bool) :
    (s.denyAccess c off).ctxs[c].allowed off' wr = s.ctxs[c].allowed off' wr := by
  rw [State.denyAccess_ctxs, State.updCtx_same]
  rfl

/-- What a denied access leaves. -/
theorem State.denyAccess_leaves {s : State} (hm : s.MemOk) (c : CtxId) (off : Nat) (d : DWord) :
    let t := { s.denyAccess c off with rdata := d }
    t.raisings (mgtSrc (5 * c.val + 2)) = s.raisings (mgtSrc (5 * c.val + 2)) + 1 ∧
      t.jrnl = s.jrnl.add s.now { jentry 6 0 c.val with offset := off } ∧ t.ctxs[c] = { s.ctxs[c] with denied := some off } ∧
      (∀ e : CtxId, e ≠ c → t.ctxs[e] = s.ctxs[e]) ∧
      { s with jrnl := t.jrnl, ctxs := t.ctxs, rdata := t.rdata }.EventsOnly t [mgtSrc (5 * c.val + 2)] := by
  refine ⟨State.denyAccess_raisings hm c off, State.denyAccess_jrnl s c off, ?_, fun e he => ?_, State.denyAccess_eventsOnly s c off d⟩
  · exact (congrArg (·[c]) (State.denyAccess_ctxs s c off)).trans (State.updCtx_same s c (fun x => { x with denied := some off }))
  · exact (congrArg (·[e]) (State.denyAccess_ctxs s c off)).trans (State.updCtx_ne s (fun x => { x with denied := some off }) he)

theorem State.denyAccess_rdata (s : State) (c : CtxId) (off : Nat) : (s.denyAccess c off).rdata = s.rdata := State.raise_rdata _ _ _

theorem State.badAccess_rdata (s : State) (c : CtxId) (off : Nat) : (s.badAccess c off).rdata = s.rdata := State.raise_rdata _ _ _

section

variable {s : State} {c : CtxId} {off : BitVec 23} {size : Nat} (hm : s.MemOk) (hs : s.refSel ≠ 3)
include hm hs

theorem badWrite_does (v : DWord) (hz : sizeOk off.toNat size = false) :
    Does (.regWrite c off size v) s (fun t => t.raisings (mgtSrc (5 * c.val + 3)) = s.raisings (mgtSrc (5 * c.val + 3)) + 1 ∧
      t.jrnl = s.jrnl.add s.now { jentry 7 0 c.val with offset := off.toNat } ∧
      { s with jrnl := t.jrnl }.EventsOnly t [mgtSrc (5 * c.val + 3)]) := by
  refine ⟨_, congrArg Host.Outcome.next (State.busWrite_bad hs v.toNat hz), State.badAccess_raisings hm c off.toNat,
    State.badAccess_jrnl s c off.toNat, ?_⟩
  have h : { s with jrnl := (s.badAccess c off.toNat).jrnl, rdata := (s.badAccess c off.toNat).rdata }.EventsOnly
      (s.badAccess c off.toNat) [mgtSrc (5 * c.val + 3)] := State.badAccess_eventsOnly s c off.toNat _
  rwa [State.badAccess_rdata] at h

theorem badRead_does (corr : Nat) (bad : Bool) (hz : sizeOk off.toNat size = false) :
    Does (.pairLoRead c off ⟨size, corr, bad⟩) s (fun t => t.rdata = 0 ∧
      t.raisings (mgtSrc (5 * c.val + 3)) = s.raisings (mgtSrc (5 * c.val + 3)) + 1 ∧
      t.jrnl = s.jrnl.add s.now { jentry 7 0 c.val with offset := off.toNat } ∧
      { s with jrnl := t.jrnl, rdata := t.rdata }.EventsOnly t [mgtSrc (5 * c.val + 3)]) := by
  refine ⟨_, congrArg Host.Outcome.next ((State.tblEcc_unserved (.inl hz)).trans (State.busRead_bad hs hz)), rfl,
    State.badAccess_raisings hm c off.toNat, State.badAccess_jrnl s c off.toNat, State.badAccess_eventsOnly s c off.toNat 0⟩

theorem deniedWrite_does (v : DWord) (hz : sizeOk off.toNat size = true) (ha : s.ctxs[c].allowed off.toNat true = false) :
    Does (.regWrite c off size v) s (fun t => t.raisings (mgtSrc (5 * c.val + 2)) = s.raisings (mgtSrc (5 * c.val + 2)) + 1 ∧
      t.jrnl = s.jrnl.add s.now { jentry 6 0 c.val with offset := off.toNat } ∧
      t.ctxs[c] = { s.ctxs[c] with denied := some off.toNat } ∧ (∀ d : CtxId, d ≠ c → t.ctxs[d] = s.ctxs[d]) ∧
      { s with jrnl := t.jrnl, ctxs := t.ctxs }.EventsOnly t [mgtSrc (5 * c.val + 2)]) := by
  obtain ⟨hraised, hjrnl, hc, hne, hev⟩ := State.denyAccess_leaves hm c off.toNat (s.denyAccess c off.toNat).rdata
  have h : { s with jrnl := (s.denyAccess c off.toNat).jrnl, ctxs := (s.denyAccess c off.toNat).ctxs,
                    rdata := (s.denyAccess c off.toNat).rdata }.EventsOnly (s.denyAccess c off.toNat) [mgtSrc (5 * c.val + 2)] := hev
  rw [State.denyAccess_rdata] at h
  exact ⟨_, congrArg Host.Outcome.next (State.busWrite_denied hs v.toNat hz ha), hraised, hjrnl, hc, hne, h⟩

theorem deniedRead_does (corr : Nat) (bad : Bool) (hz : sizeOk off.toNat size = true)
    (ha : s.ctxs[c].allowed off.toNat false = false) :
    Does (.pairLoRead c off ⟨size, corr, bad⟩) s (fun t => t.rdata = 0 ∧
      t.raisings (mgtSrc (5 * c.val + 2)) = s.raisings (mgtSrc (5 * c.val + 2)) + 1 ∧
      t.jrnl = s.jrnl.add s.now { jentry 6 0 c.val with offset := off.toNat } ∧
      t.ctxs[c] = { s.ctxs[c] with denied := some off.toNat } ∧ (∀ d : CtxId, d ≠ c → t.ctxs[d] = s.ctxs[d]) ∧
      { s with jrnl := t.jrnl, ctxs := t.ctxs, rdata := t.rdata }.EventsOnly t [mgtSrc (5 * c.val + 2)]) := by
  have hu : State.tblEcc { s.denyAccess c off.toNat with rdata := 0 } c off.toNat size corr bad =
      { s.denyAccess c off.toNat with rdata := 0 } :=
    State.tblEcc_unserved (.inr ((State.denyAccess_allowed s c off.toNat off.toNat false).trans ha))
  exact ⟨_, congrArg Host.Outcome.next ((congrArg (State.tblEcc · c off.toNat size corr bad) (State.busRead_denied hs hz ha)).trans hu),
    rfl, State.denyAccess_leaves hm c off.toNat 0⟩

end

/-- Without a reference no write is served. -/
theorem unreferencedWrite_does {s : State} (c : CtxId) (off : BitVec 23) (size : Nat) (v : DWord) (h : s.refSel = 3) :
    Does (.regWrite c off size v) s (fun t => t = s) :=
  ⟨_, congrArg Host.Outcome.next (if_pos h), rfl⟩

/-- A write of the high half of one of the pairs that a host writes. -/
theorem pairHiRegs_does {s : State} {c : CtxId} {off : BitVec 23} {v : Word} {r : RegDef} {u : Nat} (hm : s.MemOk)
    (h : s.Serves c off.toNat true) (hr : s.reach c off.toNat = some (r, u)) (hl : lockedSc r u = false)
    (hb : r.base = Off.PRT_GEAR_APOS_HI ∨ r.base = Off.DMA_SC_BASE_HI ∨
      ((r.base = Off.HIF_ASQ_BASE_HI ∨ r.base = Off.HIF_ACQ_BASE_HI) ∧ s.ctxs[c].enable = false)) :
    Does (.pairHiWrite c off v) s (fun t =>
      t = { s with regs := t.regs, ctxs := t.ctxs, jrnl := t.jrnl } ∧ (∀ d : CtxId, d ≠ c → t.ctxs[d] = s.ctxs[d]) ∧
        s.SameRegs t [rkey u (off.toNat - 4), rkey u off.toNat] ∧
        (t.cell u off.toNat).force = (((s.cell u off.toNat).force &&& ~~~r.rw) ||| (v &&& r.rw)) ∧
        (if s.ctxs[c].holdTag = some (rkey u (off.toNat - 4))
          then t.eff u (off.toNat - 4) = s.ctxs[c].holdVal.toNat ∧ t.ctxs[c] = { s.ctxs[c] with holdTag := none }
          else t.eff u (off.toNat - 4) = s.eff u (off.toNat - 4) ∧ t.ctxs[c] = s.ctxs[c])) := by
  have hd := State.reach_regDef hr
  have hmem : r.base ∈ pairHiRegs := by
    unfold pairHiRegs
    rcases hb with hb | hb | ⟨hb | hb, -⟩ <;> rw [hb] <;> decide
  have hoff : off.toNat = r.base := off_of_mem_pairHiRegs hd hmem
  obtain ⟨lo, hi, kl, kh, hp, hlo, h4⟩ := pairHiRegs_halves r.base hmem
  rw [← hoff] at kl kh h4
  obtain rfl : hi = r := Option.some.inj (kh.def_.symm.trans hd)
  have hring : ringOffset (off.toNat - 4) ∨ ringOffset off.toNat → s.ctxs[c].enable = false := by
    rw [hoff]
    rcases hb with hb | hb | ⟨-, hen⟩
    · rw [hb]
      exact fun hc => absurd hc (by unfold ringOffset; decide)
    · rw [hb]
      exact fun hc => absurd hc (by unfold ringOffset; decide)
    · exact fun _ => hen
  exact pairHiWrite_does hm h hr kl kh hp hlo h4 hl (fun hc => hring (.inl hc)) (fun hc => hring (.inr hc))

/-- Settles O4, clause by clause: each access is what the laws above say of `State.busRead` and `State.busWrite`. -/
theorem pairAndFieldAccesses : Obligations.PairAndFieldAccesses := by
  unfold Obligations.PairAndFieldAccesses
  refine ⟨?_, ?_, ?_, ?_, ?_, ?_, ?_, ?_, ?_, ?_, ?_⟩
  · intro c off size corr bad s r u h hz hs hr hp hb hlt
    exact pairLoRead_does h hz hs hr hp hb hlt
  · intro c off size corr bad s p k b e hm href hz ha he hb hu
    exact tableRead_does hm ⟨href, ha⟩ hz he hb hu
  · intro c off s r u h hz hr hp hrs hlt
    exact pairHiRead_does h hz hr hp hrs hlt
  · intro c off v s r u h hz hr hp hl ht hlt
    exact pairLoWrite_does h hz hr hp hl ht hlt
  · intro c off v s r u hm h hr hb hl
    exact pairHiRegs_does hm h hr hl hb
  · intro c off v s r u hm h hz hr hb hp hl ht ha hn
    obtain ⟨t, he, hf, hs, hc⟩ := plainWrite_does hm h hz hr hb hp hl ht ha hn
    exact ⟨t, he, hf, hs, congrArg RegCell.val hc, congrArg RegCell.force hc, congrArg RegCell.stg hc, congrArg RegCell.cut hc⟩
  · intro c off size v s href
    exact unreferencedWrite_does c off size v href
  · intro c off size v s hm href h4 h8
    exact badWrite_does hm href v (sizeOk_eq_false h4 h8)
  · intro c off size corr bad s hm href h4 h8
    exact badRead_does hm href corr bad (sizeOk_eq_false h4 h8)
  · intro c off size v s hm href hz ha
    exact deniedWrite_does hm href v hz ha
  · intro c off size corr bad s hm href hz ha
    exact deniedRead_does hm href corr bad hz ha

end Sys2Proof.Machine
end

section
/-! SUPPORT. What the completion of a command and a change of a unit's state leave (R58, R375, R384), for O10. -/

namespace Sys2Proof.Machine

/-! ### What raisings leave of the registers -/

/-- The registers of the blocks before AUX are not among those that count lost requests. -/
theorem rkey_not_mem_injKeys (u : Nat) {off : Nat} (h : off < 0x120000) : rkey u off ∉ injKeys := by
  intro hm
  obtain ⟨n, hn, he⟩ := List.mem_map.1 hm
  have hn : n < 4 := List.mem_range.1 hn
  have ha : Off.AUX_INJ_REQ + 16 * n < 0x800000 ∧ 0x120000 ≤ Off.AUX_INJ_REQ + 16 * n := by
    unfold Off.AUX_INJ_REQ
    omega
  generalize Off.AUX_INJ_REQ + 16 * n = a at ha he
  unfold rkey at he
  omega

theorem State.EventsOnly.cell {s t : State} {srcs : List Nat} (h : s.EventsOnly t srcs) (u : Nat) {off : Nat} (ho : off < 0x120000) :
    t.cell u off = s.cell u off :=
  h.2.1 _ (rkey_not_mem_injKeys u ho)

/-- The registers need not be told. -/
theorem State.EventsOnly.regs {s t : State} {srcs : List Nat} (h : s.EventsOnly t srcs) : { s with regs := t.regs }.EventsOnly t srcs := by
  obtain ⟨hf, -, hraised, hpend, hinj, hdown⟩ := h
  exact ⟨hf, fun _ _ => rfl, hraised, hpend, hinj, hdown⟩

/-- From `s` to `t` nothing changes but the journal and what the raising of `srcs` can change. -/
def State.Tells (s t : State) (srcs : List Nat) : Prop := { s with jrnl := t.jrnl }.EventsOnly t srcs

theorem State.Tells.trans {s t w : State} {srcs : List Nat} (h : s.Tells t srcs) (g : t.Tells w srcs) : s.Tells w srcs := by
  obtain ⟨hf, hregs, hraised, hpend, hinj, hdown⟩ := h
  exact State.EventsOnly.trans (t := { t with jrnl := w.jrnl })
    ⟨congrArg (fun x : State => { x with jrnl := w.jrnl }) hf, hregs, hraised, hpend, hinj, hdown⟩ g

/-- A journal entry only tells. -/
theorem State.journal_tells (s : State) (e : JEntry) (srcs : List Nat) : s.Tells (s.journal e) srcs :=
  State.EventsOnly.refl (s.journal e) srcs

/-- A raising only tells. -/
theorem State.raise_tells (s : State) {src : Nat} (items : List (Nat × Nat)) {srcs : List Nat} (h : src ∈ srcs) :
    s.Tells (s.raise src items) srcs := by
  unfold State.Tells
  rw [State.raise_jrnl]
  exact (State.raise_eventsOnly s src items).mono (by simpa using h)

/-- What is told when a condition holds. -/
theorem State.Tells.ite {s t w : State} {srcs : List Nat} {b : Prop} [Decidable b] (h : s.Tells t srcs) (g : s.Tells w srcs) :
    s.Tells (if b then t else w) srcs := by
  split
  · exact h
  · exact g

/-! ### The completion of a command (R58) -/

/-- The context whose command completes: the heads of its rings have moved on. -/
def State.answeredCtx (s : State) (c : CtxId) (z : Ctx) : Ctx :=
  let nx := ((s.ctxs[c]).cqNext + 1) % 2 ^ s.rf c.val Off.HIF_AQ_SIZE 11 8
  { z with sqHead := ((s.ctxs[c]).sqHead + 1) % 2 ^ s.rf c.val Off.HIF_AQ_SIZE 3 0, cqNext := nx,
           phase := if nx = 0 then !z.phase else z.phase, bells := tookBell z.bells }

/-- The state with the completion entry written, before its events and its journal entries. -/
def State.answering (s : State) (c : CtxId) (y : Submission) (r : AdmRes) : State :=
  ((s.updCtx c (s.answeredCtx c)).send .flushRead).send (s.completion c y r)

/-- A completion tells by its events and its journal entries. -/
theorem State.complete_tells (s : State) (c : CtxId) (op : Nat) (y : Submission) (r : AdmRes) :
    (s.answering c y r).Tells (s.complete c op y r) [mgtSrc (5 * c.val), mgtSrc (5 * c.val + 1)] := by
  unfold State.complete
  extract_lets x r' head csize nx op' s1 s2 items s3 s4 j0 je s5 s6
  have h3 : (s.answering c y r).Tells s3 [mgtSrc (5 * c.val), mgtSrc (5 * c.val + 1)] := State.raise_tells s2 items (by simp)
  have h4 : (s.answering c y r).Tells s4 [mgtSrc (5 * c.val), mgtSrc (5 * c.val + 1)] :=
    (h3.trans (State.raise_tells s3 items (by simp))).ite h3
  have h5 : (s.answering c y r).Tells s5 [mgtSrc (5 * c.val), mgtSrc (5 * c.val + 1)] :=
    h4.ite (h4.trans (State.journal_tells s4 je _))
  have h6 : (s.answering c y r).Tells s6 [mgtSrc (5 * c.val), mgtSrc (5 * c.val + 1)] :=
    (h5.trans (State.journal_tells s5 _ _)).ite h5
  exact (h6.trans (State.journal_tells s6 _ _)).ite h6

/-- What a completion leaves of everything else. -/
theorem State.complete_frame (s : State) (c : CtxId) (op : Nat) (y : Submission) (r : AdmRes) :
    let t := s.complete c op y r
    t = { s with ctxs := (s.updCtx c (s.answeredCtx c)).ctxs, bus := s.completion c y r :: .flushRead :: s.bus, jrnl := t.jrnl,
                 raised := t.raised, pend := t.pend, regs := t.regs,
                 aux := { s.aux with inj := t.aux.inj, down := t.aux.down, upAt := t.aux.upAt } } :=
  (State.complete_tells s c op y r).1

theorem State.complete_ctxs (s : State) (c : CtxId) (op : Nat) (y : Submission) (r : AdmRes) :
    (s.complete c op y r).ctxs = (s.updCtx c (s.answeredCtx c)).ctxs :=
  (congrArg State.ctxs (State.complete_frame s c op y r) :)

theorem State.complete_bus (s : State) (c : CtxId) (op : Nat) (y : Submission) (r : AdmRes) :
    (s.complete c op y r).bus = s.completion c y r :: .flushRead :: s.bus :=
  (congrArg State.bus (State.complete_frame s c op y r) :)

/-- The other contexts stay as they are. -/
theorem State.complete_ctx_ne (s : State) {c d : CtxId} (op : Nat) (y : Submission) (r : AdmRes) (h : d ≠ c) :
    (s.complete c op y r).ctxs[d] = s.ctxs[d] := by
  rw [State.complete_ctxs]
  exact State.updCtx_ne s _ h

/-- The rings of context `c` stand in `w` as in `s`: where they lie, how long they are, and their heads. -/
structure State.SameRings (s w : State) (c : CtxId) : Prop where
  ctx : w.ctxs[c] = s.ctxs[c]
  eff : ∀ off, off < 0x10000 → w.eff c.val off = s.eff c.val off

/-- A command that completes has been answered, wherever its effect left the rings as they stood. -/
theorem State.complete_answered {s w : State} {c : CtxId} (h : s.SameRings w c) (op : Nat) (y : Submission) (r : AdmRes) :
    s.Answered (w.complete c op y r) c y r := by
  have hsize (hi lo : Nat) : w.rf c.val Off.HIF_AQ_SIZE hi lo = s.rf c.val Off.HIF_AQ_SIZE hi lo :=
    congrArg (fld · hi lo) (h.eff Off.HIF_AQ_SIZE (by decide))
  have hbase : w.pair c.val Off.HIF_ACQ_BASE_LO = s.pair c.val Off.HIF_ACQ_BASE_LO := by
    unfold State.pair
    rw [h.eff Off.HIF_ACQ_BASE_LO (by decide), h.eff (Off.HIF_ACQ_BASE_LO + 4) (by decide)]
  have hcomp : w.completion c y r = s.completion c y r := by
    unfold State.completion
    rw [hbase, h.ctx, hsize]
  have hctx : (w.complete c op y r).ctxs[c] = w.answeredCtx c (w.ctxs[c]) :=
    (congrArg (·[c]) (State.complete_ctxs w c op y r)).trans (State.updCtx_same w c (w.answeredCtx c))
  refine ⟨?_, ?_, ?_⟩
  · rw [State.complete_bus, hcomp]
    rfl
  · rw [hctx]
    simp only [State.answeredCtx, h.ctx, hsize]
  · rw [hctx]
    simp only [State.answeredCtx, h.ctx, hsize]

/-! ### A change of a unit's state (R375) -/

/-- The unit whose state changes to `new`. -/
def UnitSt.moved (x : UnitSt) (new : UState) : UnitSt := ({ x with st := new, ran := x.ran || decide (new = UState.running) }).sync

/-- A change of a unit's state tells by UNIT_STATE and its journal entry. -/
theorem State.moveState_tells (s : State) (u : UnitId) (new : UState) (cause : Nat) :
    (s.updUnit u (UnitSt.moved · new)).Tells (s.moveState u new cause) [unitStateSrc u] :=
  (State.raise_tells _ _ (List.mem_singleton_self _)).trans (State.journal_tells _ _ _)

/-- What a change of a unit's state leaves of everything else. -/
theorem State.moveState_frame (s : State) (u : UnitId) (new : UState) (cause : Nat) :
    let t := s.moveState u new cause
    t = { s with units := (s.updUnit u (UnitSt.moved · new)).units, jrnl := t.jrnl, raised := t.raised, pend := t.pend, regs := t.regs,
                 aux := { s.aux with inj := t.aux.inj, down := t.aux.down, upAt := t.aux.upAt } } :=
  (State.moveState_tells s u new cause).1

/-- The registers of the blocks before AUX keep their contents. -/
theorem State.Tells.cell {s t : State} {srcs : List Nat} (h : s.Tells t srcs) (u : Nat) {off : Nat} (ho : off < 0x120000) :
    t.cell u off = s.cell u off :=
  State.EventsOnly.cell h u ho

end Sys2Proof.Machine
end

section
/-! SUPPORT. Steps that each rewrite one register, and what they leave; O10: the COMMIT of staged values (R6). -/

namespace Sys2Proof.Machine

/-! ### Steps that each rewrite one register -/

/-- Step `f` for `a` rewrites register `o a` of unit key `n` by `g a`, or leaves everything where that changes nothing. -/
def CellStep {α : Type} (f : State → α → State) (n : Nat) (o : α → Nat) (g : α → RegCell → RegCell) : Prop :=
  ∀ t a, f t a = t.setCell n (o a) (g a (t.cell n (o a))) ∨ (f t a = t ∧ g a (t.cell n (o a)) = t.cell n (o a))

section

variable {α : Type} {f : State → α → State} {n : Nat} {o : α → Nat} {g : α → RegCell → RegCell} (hf : CellStep f n o g)
include hf

theorem CellStep.step_regs (t : State) (a : α) : f t a = { t with regs := (f t a).regs } := by
  rcases hf t a with h | ⟨h, -⟩ <;> rw [h]
  rfl

theorem CellStep.step_memOk {t : State} (h : t.MemOk) (a : α) : (f t a).MemOk := by
  rcases hf t a with hs | ⟨hs, -⟩ <;> rw [hs]
  · exact State.setCell_memOk h _ _ _
  · exact h

theorem CellStep.step_same {t : State} (h : t.MemOk) (a : α) : (f t a).cell n (o a) = g a (t.cell n (o a)) := by
  rcases hf t a with hs | ⟨hs, hg⟩ <;> rw [hs]
  · exact State.cell_setCell_same h _ _ _
  · exact hg.symm

theorem CellStep.step_other (t : State) (a : α) {k : Nat} (hk : k ≠ rkey n (o a)) :
    mget resetCell (f t a).regs k = mget resetCell t.regs k := by
  rcases hf t a with hs | ⟨hs, -⟩ <;> rw [hs]
  exact mget_mput_ne hk t.regs

/-- The steps change only registers. -/
theorem CellStep.foldl_regs (l : List α) (s : State) : l.foldl f s = { s with regs := (l.foldl f s).regs } := by
  induction l generalizing s with
  | nil => rfl
  | cons a l ih => rw [List.foldl_cons, ih (f s a), hf.step_regs s a]

/-- The registers that no step rewrites keep their contents. -/
theorem CellStep.foldl_other (l : List α) (s : State) {k : Nat} (hk : ∀ a ∈ l, k ≠ rkey n (o a)) :
    mget resetCell (l.foldl f s).regs k = mget resetCell s.regs k := by
  induction l generalizing s with
  | nil => rfl
  | cons a l ih =>
    exact (ih (f s a) fun b hb => hk b (List.mem_cons_of_mem _ hb)).trans (hf.step_other s a (hk a List.mem_cons_self))

/-- A register that one step rewrites. -/
theorem CellStep.foldl_same (l : List α) {s : State} (h : s.MemOk) (hn : (l.map o).Nodup) {a : α} (ha : a ∈ l) :
    (l.foldl f s).cell n (o a) = g a (s.cell n (o a)) := by
  induction l generalizing s with
  | nil => cases ha
  | cons b l ih =>
    rw [List.map_cons, List.nodup_cons] at hn
    have hne {c : α} (hc : c ∈ l) : rkey n (o c) ≠ rkey n (o b) := fun e =>
      hn.1 (Nat.add_left_cancel e ▸ List.mem_map_of_mem hc)
    rw [List.foldl_cons]
    rcases List.mem_cons.1 ha with rfl | ha
    · exact (hf.foldl_other l (f s a) fun c hc => (hne hc).symm).trans (hf.step_same h a)
    · rw [ih (hf.step_memOk h b) hn.2 ha]
      exact congrArg (g a) (hf.step_other s b (hne ha))

/-- What no step changes of a register stays as it is in every register. -/
theorem CellStep.foldl_keeps {β : Type} (φ : RegCell → β) (hφ : ∀ a x, φ (g a x) = φ x) (l : List α) {s : State} (h : s.MemOk)
    (u off : Nat) : φ ((l.foldl f s).cell u off) = φ (s.cell u off) := by
  induction l generalizing s with
  | nil => rfl
  | cons a l ih =>
    rw [List.foldl_cons, ih (hf.step_memOk h a)]
    by_cases hk : rkey u off = rkey n (o a)
    · have he : ∀ t : State, t.cell u off = t.cell n (o a) := fun t => congrArg (mget resetCell t.regs) hk
      rw [he, he, hf.step_same h a, hφ]
    · exact congrArg φ (hf.step_other s a hk)

end

/-! ### COMMIT (R6) -/

/-- A register whose staged values wait for the next line tick. -/
def RegCell.committed (x : RegCell) : RegCell :=
  { x with cmt := x.cmt ||| x.stg, stg := 0, cmtVal := (x.cmtVal &&& ~~~x.stg) ||| (x.val &&& x.stg) }

/-- With nothing staged a commit changes nothing. -/
theorem RegCell.committed_unstaged {x : RegCell} (h : x.stg = 0) : x.committed = x := by
  obtain ⟨val, force, stg, cmt, cmtVal, cut⟩ := x
  obtain rfl : stg = 0#32 := h
  simp only [RegCell.committed, BitVec.or_zero, BitVec.not_zero, BitVec.and_allOnes, BitVec.and_zero]
  rfl

/-- The step of a commit for one register. -/
def State.commitReg (p : PortId) (t : State) (off : Nat) : State :=
  let c := t.cell p.val off
  if c.stg = 0 then t
  else t.setCell p.val off { c with cmt := c.cmt ||| c.stg, cmtVal := (c.cmtVal &&& ~~~c.stg) ||| (c.val &&& c.stg), stg := 0 }

theorem State.commitPort_eq (s : State) (p : PortId) : s.commitPort p = stgOffsets.foldl (State.commitReg p) s := rfl

theorem State.commitReg_step (p : PortId) : CellStep (State.commitReg p) p.val id (fun _ => RegCell.committed) := by
  intro t off
  unfold State.commitReg
  dsimp only
  split
  · next h => exact .inr ⟨rfl, RegCell.committed_unstaged h⟩
  · exact .inl rfl

/-- The registers with staged fields are distinct registers of the PRT block. -/
theorem stgOffsets_nodup : stgOffsets.Nodup := by decide +kernel

theorem stgOffsets_lt : ∀ off ∈ stgOffsets, off < 0xA0000 := by decide +kernel

theorem stgOffsets_ge : ∀ off ∈ stgOffsets, 0x10000 ≤ off := by decide +kernel

/-! ### The service of a command -/

/-- The read of the submission leaves every register as it was. -/
theorem State.SameRings.send (s : State) (c : CtxId) (b : BusOp) : s.SameRings (s.send b) c := ⟨rfl, fun _ _ => rfl⟩

/-- A unit in no cut group is checked against no pacing (R306). -/
theorem State.paceUnit_ungrouped {s : State} {u : UnitId} (h : (s.unit u).group = none) (take : Option Nat) (ratio : PortId → Int × Int) :
    s.paceUnit u take ratio = ([], false, true) := by
  unfold State.paceUnit
  rw [h]

theorem refuseIf_false {b : Bool} (h : b = false) (status detail : Nat) : refuseIf b status detail = none := by
  rw [h]
  rfl

/-- A command that passes its checks. -/
theorem firstSome_passed {l : List (Option AdmRes)} (h : ∀ r ∈ l, r = none) : firstSome l = none := by
  induction l with
  | nil => rfl
  | cons a l ih =>
    rw [h a List.mem_cons_self]
    exact ih fun r hr => h r (List.mem_cons_of_mem _ hr)

/-- A command whose effect is a change of registers beside its rings tells, besides, by its completion only. -/
theorem State.complete_regsOnly {s w : State} {c : CtxId} (hw : w = { s.send (s.subRead c) with regs := w.regs })
    (hr : s.SameRings w c) (op : Nat) (y : Submission) (r : AdmRes) :
    let t := w.complete c op y r
    s.Answered t c y r ∧ (∀ d : CtxId, d ≠ c → t.ctxs[d] = s.ctxs[d]) ∧
      { s with ctxs := t.ctxs, bus := t.bus, jrnl := t.jrnl, regs := t.regs }.EventsOnly t [mgtSrc (5 * c.val), mgtSrc (5 * c.val + 1)] := by
  intro t
  refine ⟨State.complete_answered hr op y r, fun d hd => ?_, ?_⟩
  · exact (State.complete_ctx_ne w op y r hd).trans (congrArg (·[d]) (congrArg State.ctxs hw :))
  · have hb : { w.answering c y r with jrnl := t.jrnl, regs := t.regs } =
        { s with ctxs := t.ctxs, bus := t.bus, jrnl := t.jrnl, regs := t.regs } := by
      rw [State.complete_ctxs w c op y r, State.complete_bus w c op y r]
      exact congrArg (fun x : State => { x with
        ctxs := (w.updCtx c (w.answeredCtx c)).ctxs, bus := w.completion c y r :: .flushRead :: w.bus, jrnl := t.jrnl, regs := t.regs }) hw
    exact hb ▸ State.EventsOnly.regs (State.complete_tells w c op y r)

/-- The state after the effect of a COMMIT. -/
def State.commitDone (s : State) (c : CtxId) (u : UnitId) : State :=
  if decide (u.val < 16) then (s.send (s.subRead c)).commitPort (unitPort u) else s.send (s.subRead c)

theorem State.commitDone_port (s : State) (c : CtxId) {u : UnitId} (h : u.val < 16) :
    s.commitDone c u = stgOffsets.foldl (State.commitReg (unitPort u)) (s.send (s.subRead c)) :=
  (if_pos (decide_eq_true h)).trans (State.commitPort_eq _ _)

theorem State.commitDone_axis (s : State) (c : CtxId) {u : UnitId} (h : ¬ u.val < 16) : s.commitDone c u = s.send (s.subRead c) :=
  if_neg fun hd => h (of_decide_eq_true hd)

theorem unitPort_val {u : UnitId} (h : u.val < 16) : (unitPort u).val = u.val := Nat.mod_eq_of_lt h

/-- A COMMIT changes only registers. -/
theorem State.commitDone_regs (s : State) (c : CtxId) (u : UnitId) :
    s.commitDone c u = { s.send (s.subRead c) with regs := (s.commitDone c u).regs } := by
  by_cases hu : u.val < 16
  · rw [State.commitDone_port s c hu]
    exact (State.commitReg_step (unitPort u)).foldl_regs _ _
  · rw [State.commitDone_axis s c hu]

/-- The registers with staged values that a COMMIT of a unit commits. -/
def commitKeys (u : UnitId) : List Nat := if u.val < 16 then stgOffsets.map (rkey u.val) else []

/-- The other registers keep their contents. -/
theorem State.commitDone_other (s : State) (c : CtxId) (u : UnitId) {k : Nat} (hk : k ∉ commitKeys u) :
    mget resetCell (s.commitDone c u).regs k = mget resetCell s.regs k := by
  unfold commitKeys at hk
  by_cases hu : u.val < 16
  · rw [State.commitDone_port s c hu]
    rw [if_pos hu, ← unitPort_val hu] at hk
    exact (State.commitReg_step (unitPort u)).foldl_other _ _ fun off ho e => hk (e ▸ List.mem_map_of_mem ho)
  · rw [State.commitDone_axis s c hu]
    rfl

/-- The rings stand as they stood. -/
theorem State.commitDone_rings (s : State) (c : CtxId) (u : UnitId) : s.SameRings (s.commitDone c u) c := by
  refine ⟨congrArg (·[c]) (congrArg State.ctxs (State.commitDone_regs s c u) :), fun off ho => ?_⟩
  refine congrArg (fun x : RegCell => x.force.toNat) (State.commitDone_other s c u fun hm => ?_)
  unfold commitKeys at hm
  split at hm
  · obtain ⟨o, hmem, he⟩ := List.mem_map.1 hm
    have h1 := stgOffsets_lt o hmem
    have h2 := stgOffsets_ge o hmem
    unfold rkey at he
    omega
  · cases hm

/-- Every register with staged values of a port is committed. -/
theorem State.commitDone_cell {s : State} (hm : s.MemOk) (c : CtxId) {u : UnitId} (hu : u.val < 16) {off : Nat} (ho : off ∈ stgOffsets) :
    (s.commitDone c u).cell u.val off = (s.cell u.val off).committed := by
  rw [State.commitDone_port s c hu, ← unitPort_val hu]
  exact (State.commitReg_step (unitPort u)).foldl_same (s := s.send (s.subRead c)) _
    ((State.send_keeps _ (Keeps.refl (kc := false) s)).mem hm)
    (by rw [List.map_id]; exact stgOffsets_nodup) ho

/-- What a COMMIT that passes its checks leaves. -/
theorem commit_leaves {s : State} (hm : s.MemOk) (c : CtxId) (y : Submission) (u : UnitId) :
    let t := (s.commitDone c u).complete c 0x0B y (okRes 0 0)
    s.Answered t c y (okRes 0 0) ∧ (∀ d : CtxId, d ≠ c → t.ctxs[d] = s.ctxs[d]) ∧
      (u.val < 16 → ∀ off ∈ stgOffsets, t.cell u.val off = (s.cell u.val off).committed) ∧ s.SameRegs t (injKeys ++ commitKeys u) ∧
      { s with ctxs := t.ctxs, bus := t.bus, jrnl := t.jrnl, regs := t.regs }.EventsOnly t [mgtSrc (5 * c.val), mgtSrc (5 * c.val + 1)] := by
  have ht := State.complete_tells (s.commitDone c u) c 0x0B y (okRes 0 0)
  obtain ⟨hans, hctx, hev⟩ :=
    State.complete_regsOnly (State.commitDone_regs s c u) (State.commitDone_rings s c u) 0x0B y (okRes 0 0)
  refine ⟨hans, hctx, fun hu off ho => ?_, fun k hk => ?_, hev⟩
  · have hlt := stgOffsets_lt off ho
    exact (ht.cell u.val (by omega)).trans (State.commitDone_cell hm c hu ho)
  · rw [List.mem_append, not_or] at hk
    exact (ht.2.1 k hk.1).trans (State.commitDone_other s c u hk.2)

/-- A COMMIT that passes its checks. -/
theorem commit_does {s : State} {c : CtxId} {y : Submission} {u : UnitId} (hm : s.MemOk)
    (ha : s.Accepts c { op := 0x0B, since := 0x20, kinds := [1, 2], slotted := false, args := [] } y) (hu : u = subUnit y)
    (hright : unitRight s.ctxs[c] y = true) (hst : (s.unit u).st ≠ .faulted ∧ (s.unit u).st ≠ .wedged)
    (hratio : u.val < 16 → ratioOk (s.commitRatio (unitPort u)).1 (s.commitRatio (unitPort u)).2 = true)
    (hdir : u.val < 16 → (s.unit u).st = .running → ratioDir (s.commitRatio (unitPort u)).1 (s.commitRatio (unitPort u)).2 =
      ratioDir (s.port (unitPort u)).ltg.num (s.port (unitPort u)).ltg.den)
    (hhead : u.val < 16 → bitN (s.eff (unitPort u).val Off.PRT_HEAD_REQ) 31 = false) (hgroup : (s.unit u).group = none)
    (hcyc : (s.unit u).st.live = true →
      s.cyclesOk u ((s.unit u).current.getD 0) (if u.val < 16 then s.pmin (unitPort u) else 0) = true)
    (hband : s.bandwidthOk s.plan = true) :
    Does (.commit c y) s (fun t => s.Answered t c y (okRes 0 0) ∧ (∀ d : CtxId, d ≠ c → t.ctxs[d] = s.ctxs[d]) ∧
      (u.val < 16 → ∀ off ∈ stgOffsets, t.cell u.val off = (s.cell u.val off).committed) ∧ s.SameRegs t (injKeys ++ commitKeys u) ∧
      { s with ctxs := t.ctxs, bus := t.bus, jrnl := t.jrnl, regs := t.regs }.EventsOnly t
        [mgtSrc (5 * c.val), mgtSrc (5 * c.val + 1)]) := by
  subst hu
  refine ⟨_, congrArg Host.Outcome.next (State.admin_done ha (firstSome_passed ?_)), commit_leaves hm c y (subUnit y)⟩
  rw [State.paceUnit_ungrouped hgroup]
  simp only [List.forall_mem_cons, List.not_mem_nil, false_imp_iff, implies_true, and_true]
  refine ⟨refuseIf_false ?_ _ _, refuseIf_false ?_ _ _, refuseIf_false ?_ _ _, refuseIf_false rfl _ _, refuseIf_false ?_ _ _⟩
  · rw [hright]
    rfl
  · simp [hst]
  · by_cases hp : (subUnit y).val < 16
    · rw [hratio hp, hhead hp]
      by_cases hrun : (s.unit (subUnit y)).st = .running
      · simp [hdir hp hrun]
      · simp [hrun]
    · simp [hp]
  · rw [hband]
    by_cases hrun : (s.unit (subUnit y)).st = .running ∨ (s.unit (subUnit y)).st = .draining
    · have hlive : (s.unit (subUnit y)).st.live = true := by rcases hrun with h | h <;> rw [h] <;> rfl
      simp [hcyc hlive]
    · rw [not_or] at hrun
      simp [hrun]

end Sys2Proof.Machine
end

section
/-! SUPPORT. CUT values that wait for a tick (R6, R7, R92), and a unit that starts to run (R89, R375), for O10. -/

namespace Sys2Proof.Machine

/-! ### The values that wait are put back -/

/-- A register whose CUT bits `e.2.2` are staged again. -/
def restaged (e : Nat × Word × Word) (x : RegCell) : RegCell := { x with cut := x.cut ||| e.2.2 }

/-- The registers after the values of unit `u` that wait are put back. -/
def State.restage (s : State) (u : UnitId) : State :=
  (s.unit u).due.foldl (fun t e => t.setCell (unitIndex u) e.1 (restaged e (t.cell (unitIndex u) e.1))) s

theorem State.putBack_eq (s : State) (u : UnitId) : s.putBack u = (s.restage u).updUnit u (fun x => { x with due := [] }) := rfl

theorem restage_step (u : UnitId) :
    CellStep (fun t e => t.setCell (unitIndex u) e.1 (restaged e (t.cell (unitIndex u) e.1))) (unitIndex u) (fun e => e.1) restaged :=
  fun _ _ => .inl rfl

theorem State.restage_regs (s : State) (u : UnitId) : s.restage u = { s with regs := (s.restage u).regs } :=
  (restage_step u).foldl_regs _ s

theorem State.putBack_frame (s : State) (u : UnitId) :
    s.putBack u = { s with regs := (s.putBack u).regs, units := (s.updUnit u (fun x => { x with due := [] })).units } := by
  rw [State.putBack_eq]
  exact congrArg (fun t : State => t.updUnit u (fun x => { x with due := [] })) (State.restage_regs s u)

theorem State.putBack_memOk {s : State} (h : s.MemOk) (u : UnitId) : (s.putBack u).MemOk :=
  (State.putBack_keeps u (Keeps.refl (kc := false) s)).mem h

/-- No value in force changes. -/
theorem State.putBack_force {s : State} (h : s.MemOk) (u : UnitId) (n off : Nat) :
    ((s.putBack u).cell n off).force = (s.cell n off).force :=
  (restage_step u).foldl_keeps RegCell.force (fun _ _ => rfl) _ h n off

/-- A transaction on the link and the putting back do not touch each other. -/
theorem State.putBack_send (s : State) (b : BusOp) (u : UnitId) : (s.send b).putBack u = (s.putBack u).send b := by
  rw [State.putBack_eq, State.putBack_eq]
  exact congrArg (fun t : State => t.updUnit u (fun x => { x with due := [] }))
    (List.foldl_hom (fun t : State => t.send b) (fun _ _ => rfl))

/-! ### The values of a setup that wait -/

/-- The values that wait once setup `k` has been staged at unit `u`. -/
def State.stagedDue (s : State) (u : UnitId) (k : Nat) : List (Nat × Word × Word) :=
  (cutOffsets (decide (u.val < 16))).map (fun off =>
    (off, BitVec.ofNat 32 ((s.putBack u).fut u k off), ((s.putBack u).cell (unitIndex u) off).cut))

/-- A register with no CUT field staged. -/
def RegCell.unstaged (x : RegCell) : RegCell := { x with cut := 0 }

/-- The registers of unit `u` once their staged CUT values wait. -/
def State.unstageAll (s : State) (u : UnitId) (d : List (Nat × Word × Word)) : State :=
  d.foldl (fun t e => t.setCell (unitIndex u) e.1 (t.cell (unitIndex u) e.1).unstaged) s

theorem State.stageCut_eq (s : State) (u : UnitId) (k : Nat) :
    s.stageCut u k = ((s.putBack u).unstageAll u (s.stagedDue u k)).updUnit u (fun x => { x with due := s.stagedDue u k }) := rfl

theorem unstage_step (u : UnitId) :
    CellStep (fun t (e : Nat × Word × Word) => t.setCell (unitIndex u) e.1 (t.cell (unitIndex u) e.1).unstaged) (unitIndex u)
      (fun e => e.1) (fun _ => RegCell.unstaged) :=
  fun _ _ => .inl rfl

theorem State.stagedDue_send (s : State) (b : BusOp) (u : UnitId) (k : Nat) : (s.send b).stagedDue u k = s.stagedDue u k := by
  unfold State.stagedDue
  rw [State.putBack_send]
  rfl

/-- The registers with CUT fields of a port, and of an axis, are distinct. -/
theorem cutOffsets_nodup (port : Bool) : (cutOffsets port).Nodup := by
  revert port
  decide +kernel

theorem cutOffsets_lt (port : Bool) : ∀ off ∈ cutOffsets port, off < 0x120000 := by
  revert port
  decide +kernel

theorem stagedDue_offsets (s : State) (u : UnitId) (k : Nat) : (s.stagedDue u k).map (fun e => e.1) = cutOffsets (decide (u.val < 16)) := by
  unfold State.stagedDue
  rw [List.map_map]
  exact List.map_id _

theorem State.stageCut_memOk {s : State} (h : s.MemOk) (u : UnitId) (k : Nat) : (s.stageCut u k).MemOk :=
  (State.stageCut_keeps u k (Keeps.refl (kc := false) s)).mem h

/-- A change of registers, of a state that differs in registers and units, and then of a unit. -/
theorem State.updUnit_frame {s p t : State} (ht : t = { p with regs := t.regs }) (hp : p = { s with regs := p.regs, units := p.units })
    (u : UnitId) (f : UnitSt → UnitSt) : t.updUnit u f = { s with regs := (t.updUnit u f).regs, units := (t.updUnit u f).units } := by
  rw [ht, hp]
  rfl

/-- A staging changes registers and its unit only. -/
theorem State.stageCut_frame (s : State) (u : UnitId) (k : Nat) :
    s.stageCut u k = { s with regs := (s.stageCut u k).regs, units := (s.stageCut u k).units } := by
  rw [State.stageCut_eq]
  exact State.updUnit_frame ((unstage_step u).foldl_regs _ _) ((State.putBack_frame s u).trans (by rw [State.putBack_frame s u])) u _

theorem State.unstageAll_units (s : State) (u : UnitId) (d : List (Nat × Word × Word)) : (s.unstageAll u d).units = s.units :=
  (congrArg State.units ((unstage_step u).foldl_regs d s) :)

theorem State.putBack_unit_same (s : State) (u : UnitId) : (s.putBack u).unit u = { s.unit u with due := [] } :=
  (congrArg (fun t : State => t.unit u) (State.putBack_frame s u)).trans (State.updUnit_same s u (fun x => { x with due := [] }))

theorem State.putBack_unit_ne (s : State) {u v : UnitId} (h : v ≠ u) : (s.putBack u).unit v = s.unit v :=
  (congrArg (fun t : State => t.unit v) (State.putBack_frame s u)).trans (State.updUnit_ne s (fun x => { x with due := [] }) h)

theorem State.stageCut_unit_same (s : State) (u : UnitId) (k : Nat) :
    (s.stageCut u k).unit u = { s.unit u with due := s.stagedDue u k } := by
  have hu : ((s.putBack u).unstageAll u (s.stagedDue u k)).unit u = { s.unit u with due := [] } :=
    (congrArg (·[u]) (State.unstageAll_units (s.putBack u) u _)).trans (State.putBack_unit_same s u)
  rw [State.stageCut_eq, State.updUnit_same, hu]

theorem State.stageCut_unit_ne (s : State) {u v : UnitId} (k : Nat) (h : v ≠ u) : (s.stageCut u k).unit v = s.unit v := by
  rw [State.stageCut_eq, State.updUnit_ne _ _ h]
  exact (congrArg (·[v]) (State.unstageAll_units (s.putBack u) u _)).trans (State.putBack_unit_ne s h)

/-- No value in force changes. -/
theorem State.stageCut_force {s : State} (h : s.MemOk) (u : UnitId) (k n off : Nat) :
    ((s.stageCut u k).cell n off).force = (s.cell n off).force :=
  ((unstage_step u).foldl_keeps RegCell.force (fun _ _ => rfl) (s.stagedDue u k) (State.putBack_memOk h u) n off).trans
    (State.putBack_force h u n off)

/-- A register with CUT fields has none staged any more. -/
theorem State.stageCut_cell {s : State} (h : s.MemOk) (u : UnitId) (k : Nat) {off : Nat} (ho : off ∈ cutOffsets (decide (u.val < 16))) :
    (s.stageCut u k).cell (unitIndex u) off = ((s.putBack u).cell (unitIndex u) off).unstaged := by
  obtain ⟨e, he, rfl⟩ := List.mem_map.1 ((stagedDue_offsets s u k) ▸ ho)
  exact (unstage_step u).foldl_same (s.stagedDue u k) (State.putBack_memOk h u)
    ((stagedDue_offsets s u k).symm ▸ cutOffsets_nodup _) he

/-! ### A unit that starts to run (R375) -/

theorem State.moveState_unit_same (s : State) (u : UnitId) (new : UState) (cause : Nat) :
    (s.moveState u new cause).unit u = (s.unit u).moved new :=
  (congrArg (fun t : State => t.unit u) (State.moveState_frame s u new cause)).trans (State.updUnit_same s u (UnitSt.moved · new))

theorem State.moveState_unit_ne (s : State) {u v : UnitId} (new : UState) (cause : Nat) (h : v ≠ u) :
    (s.moveState u new cause).unit v = s.unit v :=
  (congrArg (fun t : State => t.unit v) (State.moveState_frame s u new cause)).trans (State.updUnit_ne s (UnitSt.moved · new) h)

/-- What a unit that starts to run does at once, but for its state: a port puts its outputs at their levels (R113). -/
def State.runOuts (s : State) (u : UnitId) : State := if h : u.val < 16 then s.idleOuts ⟨u.val, h⟩ else s

/-- The outputs of a port are of its gate. -/
theorem State.runOuts_frame (s : State) (u : UnitId) : s.runOuts u = { s with ports := (s.runOuts u).ports } := by
  unfold State.runOuts
  split <;> rfl

/-- A unit in no cut that stands still starts to run. -/
theorem State.setUState_running {s : State} {u : UnitId} (hst : (s.unit u).st = .loaded ∨ (s.unit u).st = .armed ∨ (s.unit u).st = .halted)
    (hcut : (s.unit u).cut = none) (cause : Nat) : s.setUState u .running cause = (s.runOuts u).moveState u .running cause := by
  have hl : leaves (s.unit u).st .running = false := by
    unfold leaves
    simp
  have hswaps : s.leaveSwaps u (s.unit u).st .running = s := by
    unfold State.leaveSwaps
    rw [hl]
    split <;> rfl
  have hcap : s.leaveCap u (s.unit u).st .running = s := by
    unfold State.leaveCap
    rw [hl]
    split <;> rfl
  have houts : s.edgeOuts u (s.unit u).st .running = s.runOuts u := by
    unfold State.edgeOuts State.runOuts
    rw [hl]
    rcases hst with h | h | h <;> rw [h] <;> rfl
  have hmoved : (((s.runOuts u).moveState u .running cause).unit u).cut = none := by
    rw [State.moveState_unit_same, State.runOuts_frame]
    exact hcut
  unfold State.setUState
  dsimp only
  rw [hswaps, hcap, houts, if_neg (by decide), hmoved]
  exact if_pos (.inl rfl)

end Sys2Proof.Machine
end

section
/-! SUPPORT. O10: an axis starts a setup (R7, R89, R337). -/

namespace Sys2Proof.Machine

/-- The unit that starts setup `k`. -/
def UnitSt.started (x : UnitSt) (k : Nat) : UnitSt := ({ x with current := some k, committed := some k, haltNext := false }).sync

/-- A unit whose values wait, which starts its setup and runs. -/
def UnitSt.startedWith (x : UnitSt) (k : Nat) (due : List (Nat × Word × Word)) : UnitSt :=
  (({ x with due := due } : UnitSt).started k).moved .running

/-! ### Programs -/

/-- The program of an engine is of the slot of its unit. -/
theorem State.slotProg_eq (s : State) (e : EngId) (k : Nat) :
    s.slotProg e k = if engKind e = 1 then (s.slotOf (engUnit e) k).prog1 else (s.slotOf (engUnit e) k).prog0 := rfl

theorem State.slotOf_congr {s t : State} {u : UnitId} (h : (t.unit u).slots = (s.unit u).slots) (k : Nat) : t.slotOf u k = s.slotOf u k :=
  congrArg (fun v : Vector Slot 8 => v[k % 8]'(Nat.mod_lt _ (by decide))) h

theorem engUnit_axisEng (a : AxisId) : engUnit (axisEng a) = unitOfAxis a := by
  revert a
  decide

theorem engKind_axisEng (a : AxisId) : engKind (axisEng a) ≠ 1 := by
  revert a
  decide

/-- An engine that starts a program. -/
def Eng.starting (x : Eng) (entry k : Nat) : Eng := { x.restart entry true with setup := k, old := false }

theorem State.startEngine_eq (s : State) (e : EngId) (k : Nat) :
    s.startEngine e k true = s.updEng e (Eng.starting · (s.slotProg e k).entry k) := rfl

/-! ### The state in which an axis is ready to run -/

/-- The axis whose setup `k` is staged starts it, before its state changes. -/
def State.readyAxis (p : State) (a : AxisId) (k : Nat) : State :=
  (((p.updUnit (unitOfAxis a) (UnitSt.started · k)).startEngine (axisEng a) k true).updEng (axisEng a)
    (fun e => { e with line := 0, cutFlag := false })).updAxis a (fun x => { x with held := none })

theorem State.startAxis_eq (s : State) (a : AxisId) (k : Nat) :
    s.startAxis a k = ((s.stageCut (unitOfAxis a) k).readyAxis a k).setUState (unitOfAxis a) .running 4 := by
  unfold State.startAxis State.readyAxis
  rfl

section

variable (p : State) (a : AxisId) (k : Nat)

/-- The units, the engines and the axes change, and nothing else. -/
theorem State.readyAxis_frame : p.readyAxis a k =
    { p with units := (p.readyAxis a k).units, engs := (p.readyAxis a k).engs, axes := (p.readyAxis a k).axes } := rfl

theorem State.readyAxis_unit_same : (p.readyAxis a k).unit (unitOfAxis a) = (p.unit (unitOfAxis a)).started k :=
  State.updUnit_same p (unitOfAxis a) (UnitSt.started · k)

theorem State.readyAxis_unit_ne {v : UnitId} (h : v ≠ unitOfAxis a) : (p.readyAxis a k).unit v = p.unit v :=
  State.updUnit_ne p (UnitSt.started · k) h

theorem State.readyAxis_eng_same : (p.readyAxis a k).eng (axisEng a) =
    { (p.eng (axisEng a)).starting (p.slotOf (unitOfAxis a) k).prog0.entry k with line := 0, cutFlag := false } := by
  have hslots : ((p.updUnit (unitOfAxis a) (UnitSt.started · k)).unit (unitOfAxis a)).slots = (p.unit (unitOfAxis a)).slots :=
    (congrArg UnitSt.slots (State.updUnit_same p (unitOfAxis a) (UnitSt.started · k)) :)
  have hprog : (p.updUnit (unitOfAxis a) (UnitSt.started · k)).slotProg (axisEng a) k = (p.slotOf (unitOfAxis a) k).prog0 := by
    rw [State.slotProg_eq, if_neg (engKind_axisEng a), engUnit_axisEng, State.slotOf_congr hslots]
  refine (State.updEng_same _ (axisEng a) (fun e => { e with line := 0, cutFlag := false })).trans ?_
  rw [State.startEngine_eq, State.updEng_same, hprog]
  rfl

theorem State.readyAxis_eng_ne {e : EngId} (h : e ≠ axisEng a) : (p.readyAxis a k).eng e = p.eng e :=
  (State.updEng_ne _ (fun e => { e with line := 0, cutFlag := false }) h).trans
    (State.updEng_ne (p.updUnit (unitOfAxis a) (UnitSt.started · k)) _ h)

theorem State.readyAxis_axis_same : (p.readyAxis a k).axis a = { p.axis a with held := none } :=
  State.updAxis_same _ a (fun x => { x with held := none })

theorem State.readyAxis_axis_ne {b : AxisId} (h : b ≠ a) : (p.readyAxis a k).axis b = p.axis b :=
  State.updAxis_ne _ (fun x => { x with held := none }) h

end

/-! ### UNIT_START of an axis -/

theorem unitOfAxis_axisOfUnit {u : UnitId} (h : 16 ≤ u.val) : unitOfAxis (axisOfUnit u) = u := by
  revert u
  decide

/-- An axis in no cut that stands still starts to run. -/
theorem State.readyAxis_runs {p : State} {a : AxisId} {u : UnitId} (hu : unitOfAxis a = u)
    (hst : (p.unit u).st = .loaded ∨ (p.unit u).st = .armed ∨ (p.unit u).st = .halted) (hcut : (p.unit u).cut = none) (k : Nat) :
    (p.readyAxis a k).setUState u .running 4 = (p.readyAxis a k).moveState u .running 4 := by
  subst hu
  have hx := State.readyAxis_unit_same p a k
  have h16 : ¬ (unitOfAxis a).val < 16 := by
    unfold unitOfAxis
    simp
  have hruns : (p.readyAxis a k).runOuts (unitOfAxis a) = p.readyAxis a k := dif_neg h16
  rw [State.setUState_running (by rw [hx]; exact hst) (by rw [hx]; exact hcut), hruns]

/-- A change of a unit's state and the completion of its command leave the machinery as it was. -/
theorem State.complete_moveState_fields (w : State) (u : UnitId) (new : UState) (cause : Nat) (c : CtxId) (op : Nat) (y : Submission)
    (r : AdmRes) :
    let t := (w.moveState u new cause).complete c op y r
    t.engs = w.engs ∧ t.axes = w.axes ∧ t.ports = w.ports ∧ t.groups = w.groups ∧ t.now = w.now ∧ t.pending = w.pending ∧
      t.units = (w.moveState u new cause).units := by
  have hm := State.moveState_frame w u new cause
  have hc := State.complete_frame (w.moveState u new cause) c op y r
  exact ⟨(congrArg State.engs hc :).trans (congrArg State.engs hm :), (congrArg State.axes hc :).trans (congrArg State.axes hm :),
    (congrArg State.ports hc :).trans (congrArg State.ports hm :), (congrArg State.groups hc :).trans (congrArg State.groups hm :),
    (congrArg State.now hc :).trans (congrArg State.now hm :), (congrArg State.pending hc :).trans (congrArg State.pending hm :),
    (congrArg State.units hc :)⟩

theorem State.answering_cell (s : State) (c : CtxId) (y : Submission) (r : AdmRes) (u off : Nat) :
    (s.answering c y r).cell u off = s.cell u off := rfl

theorem State.updUnit_cell (s : State) (v : UnitId) (f : UnitSt → UnitSt) (u off : Nat) : (s.updUnit v f).cell u off = s.cell u off := rfl

theorem State.complete_moveState_cell (w : State) (v : UnitId) (new : UState) (cause : Nat) (c : CtxId) (op : Nat) (y : Submission)
    (r : AdmRes) (u : Nat) {off : Nat} (ho : off < 0x120000) :
    ((w.moveState v new cause).complete c op y r).cell u off = w.cell u off := by
  rw [(State.complete_tells (w.moveState v new cause) c op y r).cell u ho, State.answering_cell,
    (State.moveState_tells w v new cause).cell u ho, State.updUnit_cell]

/-- A unit that starts to run leaves the rings as they stand. -/
theorem State.moveState_rings {s w : State} {c : CtxId} (h : s.SameRings w c) (u : UnitId) (new : UState) (cause : Nat) :
    s.SameRings (w.moveState u new cause) c := by
  refine ⟨?_, fun off ho => ?_⟩
  · rw [State.moveState_frame]
    exact h.ctx
  · rw [← h.eff off ho]
    refine congrArg (fun x : RegCell => x.force.toNat) ?_
    rw [(State.moveState_tells w u new cause).cell c.val (by omega), State.updUnit_cell]

/-- What a UNIT_START of an axis that passes its checks leaves: `s` is the state with the submission read. -/
theorem startAxis_leaves {s : State} (hm : s.MemOk) {u : UnitId} {a : AxisId} (hu : unitOfAxis a = u) (k : Nat)
    (hst : (s.unit u).st = .loaded ∨ (s.unit u).st = .armed ∨ (s.unit u).st = .halted) (hcut : (s.unit u).cut = none)
    (c : CtxId) (op : Nat) (y : Submission) (r : AdmRes) :
    let t := (s.startAxis a k).complete c op y r
    s.Answered t c y r ∧ (∀ d : CtxId, d ≠ c → t.ctxs[d] = s.ctxs[d]) ∧ (∀ v : UnitId, v ≠ u → t.unit v = s.unit v) ∧
      t.unit u = (s.unit u).startedWith k (s.stagedDue u k) ∧
      t.eng (axisEng a) = { (s.eng (axisEng a)).starting (s.slotOf u k).prog0.entry k with line := 0, cutFlag := false } ∧
      (∀ e : EngId, e ≠ axisEng a → t.eng e = s.eng e) ∧
      (∀ off ∈ cutOffsets false, t.cell (u.val - 16) off = ((s.putBack u).cell (u.val - 16) off).unstaged) ∧
      (∀ b : AxisId, b ≠ a → t.axis b = s.axis b) ∧ t.axis a = { s.axis a with held := none } ∧
      t.ports = s.ports ∧ t.groups = s.groups ∧ t.now = s.now ∧ t.pending = s.pending := by
  have hpu := State.stageCut_unit_same s u k
  have hpv {v : UnitId} (hv : v ≠ u) := State.stageCut_unit_ne s k hv
  have hpf := State.stageCut_frame s u k
  have hforce := State.stageCut_force hm u k
  have hcell {off : Nat} (ho : off ∈ cutOffsets (decide (u.val < 16))) := State.stageCut_cell hm u k ho
  have h16 : ¬ u.val < 16 := by
    rw [← hu]
    unfold unitOfAxis
    simp
  have hidx : unitIndex u = u.val - 16 := if_neg h16
  intro t
  have ht : t = (((s.stageCut u k).readyAxis a k).moveState u .running 4).complete c op y r := by
    unfold t
    rw [State.startAxis_eq, hu, State.readyAxis_runs hu (by rw [hpu]; exact hst) (by rw [hpu]; exact hcut)]
  clear_value t
  generalize s.stageCut u k = p at *
  obtain ⟨hengs, haxes, hports, hgroups, hnow, hpend, hunits⟩ :=
    State.complete_moveState_fields (p.readyAxis a k) u .running 4 c op y r
  have hregs {off : Nat} (n : Nat) (ho : off < 0x120000) := State.complete_moveState_cell (p.readyAxis a k) u .running 4 c op y r n ho
  have hrings : s.SameRings (p.readyAxis a k) c := by
    refine ⟨?_, fun off _ => congrArg BitVec.toNat (hforce c.val off)⟩
    rw [State.readyAxis_frame, hpf]
  have hans := State.complete_answered (State.moveState_rings hrings u .running 4) op y r
  rw [← ht] at hengs haxes hports hgroups hnow hpend hunits hans
  subst hu
  refine ⟨hans, fun d hd => ?_, fun v hv => ?_, ?_, ?_, fun e he => ?_, fun off ho => ?_, fun b hb => ?_, ?_, ?_, ?_, ?_, ?_⟩
  · rw [ht, State.complete_ctx_ne _ _ _ _ hd, State.moveState_frame, State.readyAxis_frame, hpf]
  · refine (congrArg (·[v]) hunits).trans ?_
    exact (State.moveState_unit_ne _ _ _ hv).trans ((State.readyAxis_unit_ne p a k hv).trans (hpv hv))
  · refine (congrArg (·[unitOfAxis a]) hunits).trans ((State.moveState_unit_same _ _ _ _).trans ?_)
    rw [State.readyAxis_unit_same, hpu]
    rfl
  · refine (congrArg (·[axisEng a]) hengs).trans ((State.readyAxis_eng_same p a k).trans ?_)
    rw [State.slotOf_congr (s := s) (congrArg UnitSt.slots hpu :), hpf]
    rfl
  · refine (congrArg (·[e]) hengs).trans ((State.readyAxis_eng_ne p a k he).trans ?_)
    rw [hpf]
    rfl
  · rw [ht, hregs _ (cutOffsets_lt false off ho), ← hidx]
    exact hcell (by rw [decide_eq_false h16]; exact ho)
  · refine (congrArg (·[b]) haxes).trans ((State.readyAxis_axis_ne p a k hb).trans ?_)
    rw [hpf]
    rfl
  · refine (congrArg (·[a]) haxes).trans ((State.readyAxis_axis_same p a k).trans ?_)
    rw [hpf]
    rfl
  · rw [hports, State.readyAxis_frame, hpf]
  · rw [hgroups, State.readyAxis_frame, hpf]
  · rw [hnow, State.readyAxis_frame, hpf]
  · rw [hpend, State.readyAxis_frame, hpf]

end Sys2Proof.Machine
end

section
/-! SUPPORT. O10: UNIT_START of an axis and of a port, and the checks of both (R89). -/

namespace Sys2Proof.Machine

/-- The effect of UNIT_START on the state in which the submission has been read. -/
def State.startUnit (s : State) (u : UnitId) (k : Nat) : State :=
  if decide (u.val < 16) then s.startPort (unitPort u) k else s.startAxis (axisOfUnit u) k

/-- A UNIT_START that passes its checks. -/
theorem unitStart_done {s : State} {c : CtxId} {y : Submission} {u : UnitId} {k : Nat}
    (ha : s.Accepts c { op := 0x0C, since := 0x20, kinds := [1, 2], slotted := false, args := [0] } y) (hu : u = subUnit y)
    (hright : unitRight s.ctxs[c] y = true) (hst : (s.unit u).st = .loaded ∨ (s.unit u).st = .armed ∨ (s.unit u).st = .halted)
    (hpll : u.val < 16 → s.pllLock (unitPort u) = true) (hslot : s.startSlot u (y.arg 0) = some k)
    (hrefused : s.slotRefused u k = false) (hgroup : (s.unit u).group = none)
    (hcyc : s.cyclesOk u k (if decide (u.val < 16) then s.fut u k Off.PRT_LTG_PMIN else 0) = true)
    (hband : s.bandwidthOk (s.plansWith [(u, k)]) = true) :
    exec (.unitStart c y) s = .next (((s.send (s.subRead c)).startUnit u k).complete c 0x0C y (okRes 0 0)) := by
  subst hu
  refine congrArg Host.Outcome.next ((State.admin_done ha (firstSome_passed ?_)).trans ?_)
  · rw [State.paceUnit_ungrouped hgroup, hslot]
    simp only [List.forall_mem_cons, List.not_mem_nil, false_imp_iff, implies_true, and_true]
    refine ⟨refuseIf_false ?_ _ _, refuseIf_false ?_ _ _, refuseIf_false ?_ _ _, refuseIf_false rfl _ _, refuseIf_false rfl _ _,
      refuseIf_false ?_ _ _⟩
    · rw [hright]
      rfl
    · by_cases hp : (subUnit y).val < 16
      · rw [hpll hp]
        rcases hst with h | h | h <;> rw [h] <;> simp
      · rcases hst with h | h | h <;> rw [h] <;> simp [hp]
    · exact hrefused
    · rw [Option.getD_some, hcyc, hband]
      rfl
  · rw [hslot]
    rfl

/-- The staged values of an axis that wait. -/
theorem stagedDue_axis (s : State) {u : UnitId} (h : ¬ u.val < 16) (k : Nat) :
    s.stagedDue u k = (cutOffsets false).map (fun off =>
      (off, BitVec.ofNat 32 ((s.putBack u).fut u k off), ((s.putBack u).cell (u.val - 16) off).cut)) := by
  unfold State.stagedDue unitIndex
  rw [decide_eq_false h, if_neg h]

/-- A UNIT_START of an axis that passes its checks. -/
theorem startAxis_does {s : State} {c : CtxId} {y : Submission} {u : UnitId} {k : Nat} (hm : s.MemOk)
    (ha : s.Accepts c { op := 0x0C, since := 0x20, kinds := [1, 2], slotted := false, args := [0] } y) (hu : u = subUnit y)
    (h16 : 16 ≤ u.val) (hright : unitRight s.ctxs[c] y = true)
    (hst : (s.unit u).st = .loaded ∨ (s.unit u).st = .armed ∨ (s.unit u).st = .halted) (hslot : s.startSlot u (y.arg 0) = some k)
    (hver : (s.slotOf u k).isVerified = true) (hgroup : (s.unit u).group = none) (hcut : (s.unit u).cut = none)
    (hcyc : s.cyclesOk u k 0 = true) (hband : s.bandwidthOk (s.plansWith [(u, k)]) = true) :
    Does (.unitStart c y) s (fun t => s.Answered t c y (okRes 0 0) ∧ (∀ d : CtxId, d ≠ c → t.ctxs[d] = s.ctxs[d]) ∧
      (∀ v : UnitId, v ≠ u → t.unit v = s.unit v) ∧ t.unit u = (s.unit u).startedWith k (s.stagedDue u k) ∧
      t.eng (axisEng (axisOfUnit u)) =
        { (s.eng (axisEng (axisOfUnit u))).starting (s.slotOf u k).prog0.entry k with line := 0, cutFlag := false } ∧
      (∀ e : EngId, e ≠ axisEng (axisOfUnit u) → t.eng e = s.eng e) ∧
      (∀ off ∈ cutOffsets false, t.cell (u.val - 16) off = ((s.putBack u).cell (u.val - 16) off).unstaged) ∧
      (∀ b : AxisId, b ≠ axisOfUnit u → t.axis b = s.axis b) ∧ t.axis (axisOfUnit u) = { s.axis (axisOfUnit u) with held := none } ∧
      t.ports = s.ports ∧ t.groups = s.groups ∧ t.now = s.now ∧ t.pending = s.pending) := by
  have hport : ¬ u.val < 16 := by omega
  have hrefused : s.slotRefused u k = false := by
    unfold State.slotRefused
    rw [hver, if_neg hport]
    rfl
  have hdone := unitStart_done ha hu hright hst (fun h => absurd h hport) hslot hrefused hgroup
    (by rw [decide_eq_false hport]; exact hcyc) hband
  have hleaves := startAxis_leaves (s := s.send (s.subRead c)) ((State.send_keeps _ (Keeps.refl (kc := false) s)).mem hm)
    (unitOfAxis_axisOfUnit h16) k hst hcut c 0x0C y (okRes 0 0)
  have heff : (s.send (s.subRead c)).startUnit u k = (s.send (s.subRead c)).startAxis (axisOfUnit u) k :=
    if_neg (by simpa using hport)
  rw [← heff, State.stagedDue_send, State.putBack_send] at hleaves
  exact ⟨_, hdone, hleaves⟩

end Sys2Proof.Machine
end

section
/-! SUPPORT. O10: a port starts a setup (R7, R89, R290, Table 3.2). -/

namespace Sys2Proof.Machine

/-! ### The values of the LTG that act at the start -/

/-- A register that takes the CUT fields of a value that waits. -/
def RegCell.taken (x : RegCell) (off : Nat) (v : Word) : RegCell :=
  { x with force := (x.force &&& ~~~((regDef off).elim 0 (fun r => r.cut))) ||| (v &&& ((regDef off).elim 0 (fun r => r.cut))) }

/-- A value that waits comes into force if its register is one of `now`. -/
def dueTaken (now : Nat → Bool) (e : Nat × Word × Word) (x : RegCell) : RegCell := if now e.1 then x.taken e.1 e.2.1 else x

/-- The step of the coming into force of one value that waits. -/
def State.applyDueReg (u : UnitId) (now : Nat → Bool) (t : State) (e : Nat × Word × Word) : State :=
  let c := t.cell (unitIndex u) e.1
  let m := (regDef e.1).elim 0 (fun r => r.cut)
  if now e.1 then t.setCell (unitIndex u) e.1 { c with force := (c.force &&& ~~~m) ||| (e.2.1 &&& m) } else t

theorem applyDueReg_step (u : UnitId) (now : Nat → Bool) :
    CellStep (State.applyDueReg u now) (unitIndex u) (fun e => e.1) (dueTaken now) := by
  intro t e
  unfold State.applyDueReg dueTaken
  by_cases h : now e.1 = true
  · rw [if_pos h, if_pos h]
    exact .inl rfl
  · rw [if_neg h, if_neg h]
    exact .inr ⟨rfl, rfl⟩

theorem State.applyDue_eq (s : State) (u : UnitId) (now : Nat → Bool) : s.applyDue u now =
    ((s.unit u).due.foldl (State.applyDueReg u now) s).updUnit u (fun x => { x with due := x.due.filter (fun e => !now e.1) }) := rfl

theorem State.applyDue_regs (s : State) (u : UnitId) (now : Nat → Bool) :
    (s.unit u).due.foldl (State.applyDueReg u now) s = { s with regs := ((s.unit u).due.foldl (State.applyDueReg u now) s).regs } :=
  (applyDueReg_step u now).foldl_regs _ s

theorem State.applyDue_frame (s : State) (u : UnitId) (now : Nat → Bool) :
    s.applyDue u now = { s with regs := (s.applyDue u now).regs, units := (s.applyDue u now).units } := by
  rw [State.applyDue_eq]
  exact State.updUnit_frame (State.applyDue_regs s u now) rfl u _

theorem State.applyDue_unit_same (s : State) (u : UnitId) (now : Nat → Bool) :
    (s.applyDue u now).unit u = { s.unit u with due := (s.unit u).due.filter (fun e => !now e.1) } := by
  rw [State.applyDue_eq, State.updUnit_same, State.applyDue_regs]
  rfl

theorem State.applyDue_unit_ne (s : State) {u v : UnitId} (now : Nat → Bool) (h : v ≠ u) : (s.applyDue u now).unit v = s.unit v := by
  rw [State.applyDue_eq, State.updUnit_ne _ _ h, State.applyDue_regs]
  rfl

/-- A register whose value waits, once those of `now` have come into force. -/
theorem State.applyDue_cell {s : State} (h : s.MemOk) (u : UnitId) (now : Nat → Bool) (hn : ((s.unit u).due.map (fun e => e.1)).Nodup)
    {e : Nat × Word × Word} (he : e ∈ (s.unit u).due) :
    (s.applyDue u now).cell (unitIndex u) e.1 = dueTaken now e (s.cell (unitIndex u) e.1) := by
  rw [State.applyDue_eq, State.updUnit_cell]
  exact (applyDueReg_step u now).foldl_same _ h hn he

/-! ### The state in which a port is ready to run -/

theorem engUnit_gateEng (p : PortId) : engUnit (gateEng p) = unitOfPort p := by
  revert p
  decide

theorem engUnit_pipeEng (p : PortId) : engUnit (pipeEng p) = unitOfPort p := by
  revert p
  decide

theorem engKind_gateEng (p : PortId) : engKind (gateEng p) ≠ 1 := by
  revert p
  decide

theorem engKind_pipeEng (p : PortId) : engKind (pipeEng p) = 1 := by
  revert p
  decide

theorem gateEng_ne_pipeEng (p : PortId) : gateEng p ≠ pipeEng p := by
  revert p
  decide

/-- What a start clears of a port. -/
def PortSt.emptied (x : PortSt) (busy : Bool) : PortSt :=
  { x with
    cap := none, prc := none, emi := none, cuts := 0, gap := none, due := Vector.replicate 4 [],
    lostBase := x.lostBase + (x.lostRec.map (fun e => e.2)).sum, lostRec := [],
    head := { x.head with gone := false },
    splice := { late := busy, last := 0, overlapTo := none, overlapK := 0, spliceDue := false, leader := false, spoilt := false,
                kept := [], again := [], seam := none },
    pipe := { x.pipe.restartDrift with
      wl := Vector.replicate 4 [], accs := Vector.replicate 2 { a := [], cnt := 0 }, lastEmit := [], queued := [], stall := none, staged := 0 } }

/-- The engines of a port start setup `k`, which becomes the current one. -/
def State.startEngines (q : State) (p : PortId) (k : Nat) : State :=
  ((((q.updUnit (unitOfPort p) (UnitSt.started · k)).setRf p.val Off.PIP_CAL 11 10 0).setRf p.val Off.PIP_DRIFT_STAT 3 0 0).startEngine
    (gateEng p) k true).startEngine (pipeEng p) k true

/-- The port whose setup `k` is staged, with its engines started and its lines emptied. -/
def State.emptyPort (q : State) (p : PortId) (k : Nat) : State :=
  let t := q.startEngines p k
  t.updPort p (PortSt.emptied · (t.paceBusy (unitOfPort p)))

/-- The LTG of a port that starts: its source count and the ratio `r` of its setup. -/
def LtgSt.begun (x : LtgSt) (sA : Int) (r : Int × Int) : LtgSt :=
  { x with sA := sA, kA := 0, rA := 0, num := r.1, den := r.2, h := -1, drains := 0, ticked := false, held := none, behind := false,
           past := [], gridFrom := 0 }

/-- The LTG of port `p` starts. -/
def State.startLtg (s : State) (p : PortId) : State :=
  let r := s.setupRatio p
  let t := s.updLtg p (fun x => { x with t0 := s.now, hostTicks := 0 })
  ((t.updLtg p (LtgSt.begun · (if s.srcCode p = 5 then 1 else t.srcCount p) r)).setReg p.val Off.PRT_GEAR_NOW_NUM (twos 32 r.1)).setReg
    p.val Off.PRT_GEAR_NOW_DEN (twos 32 r.2)

/-- The port with its engines started, its lines emptied and its LTG begun. -/
def State.readyPort (q : State) (p : PortId) (k : Nat) : State := (q.emptyPort p k).startLtg p

/-- The port whose setup `k` is staged, and whose LTG values are in force, starts it. -/
def State.startStaged (q : State) (p : PortId) (k : Nat) : State :=
  let t := (q.readyPort p k).setPortState p .running 4
  if (q.emptyPort p k).srcCode p < 5 then t.lineTick p 0 else t

/-- The state with setup `k` staged at a port, and the values of its LTG in force. -/
def State.stagedPort (s : State) (p : PortId) (k : Nat) : State :=
  (s.stageCut (unitOfPort p) k).applyDue (unitOfPort p) ltgEarly.contains

theorem State.startPort_eq (s : State) (p : PortId) (k : Nat) : s.startPort p k = (s.stagedPort p k).startStaged p k := rfl

/-- The registers of one unit key have keys of their own. -/
theorem rkey_inj {u a b : Nat} (h : rkey u a = rkey u b) : a = b := Nat.add_left_cancel h

theorem State.startEngine_cell (s : State) (e : EngId) (k : Nat) (b : Bool) (u off : Nat) :
    (s.startEngine e k b).cell u off = s.cell u off := rfl

section

variable (q : State) (p : PortId) (k : Nat)

/-- The registers, the units and the engines change, and nothing else. -/
theorem State.startEngines_frame : q.startEngines p k =
    { q with regs := (q.startEngines p k).regs, units := (q.startEngines p k).units, engs := (q.startEngines p k).engs } := by
  unfold State.startEngines
  rfl

theorem State.startEngines_unit_same : (q.startEngines p k).unit (unitOfPort p) = (q.unit (unitOfPort p)).started k :=
  State.updUnit_same q (unitOfPort p) (UnitSt.started · k)

theorem State.startEngines_unit_ne {v : UnitId} (h : v ≠ unitOfPort p) : (q.startEngines p k).unit v = q.unit v :=
  State.updUnit_ne q (UnitSt.started · k) h

/-- The registers but PIP_CAL and PIP_DRIFT_STAT keep their contents. -/
theorem State.startEngines_cell {off : Nat} (h1 : off ≠ Off.PIP_CAL) (h2 : off ≠ Off.PIP_DRIFT_STAT) :
    (q.startEngines p k).cell p.val off = q.cell p.val off := by
  unfold State.startEngines
  rw [State.startEngine_cell, State.startEngine_cell, State.cell_setRf_ne fun e => h2 (rkey_inj e),
    State.cell_setRf_ne fun e => h1 (rkey_inj e), State.updUnit_cell]

/-- The unit with its setup current has the slots it had. -/
theorem State.slotOf_started (u : UnitId) : (q.updUnit u (UnitSt.started · k)).slotOf u k = q.slotOf u k :=
  State.slotOf_congr (congrArg UnitSt.slots (State.updUnit_same q u (UnitSt.started · k)) :) k

theorem State.startEngines_eng_gate : (q.startEngines p k).eng (gateEng p) =
    (q.eng (gateEng p)).starting (q.slotOf (unitOfPort p) k).prog0.entry k := by
  have hprog : (q.updUnit (unitOfPort p) (UnitSt.started · k)).slotProg (gateEng p) k = (q.slotOf (unitOfPort p) k).prog0 := by
    rw [State.slotProg_eq, if_neg (engKind_gateEng p), engUnit_gateEng, State.slotOf_started]
  rw [← hprog]
  exact (State.updEng_ne _ _ (gateEng_ne_pipeEng p)).trans (State.updEng_same _ (gateEng p) _)

theorem State.startEngines_eng_pipe : (q.startEngines p k).eng (pipeEng p) =
    (q.eng (pipeEng p)).starting (q.slotOf (unitOfPort p) k).prog1.entry k := by
  have hprog : (q.updUnit (unitOfPort p) (UnitSt.started · k)).slotProg (pipeEng p) k = (q.slotOf (unitOfPort p) k).prog1 := by
    rw [State.slotProg_eq, if_pos (engKind_pipeEng p), engUnit_pipeEng, State.slotOf_started]
  rw [← hprog]
  refine (State.updEng_same _ (pipeEng p) _).trans ?_
  exact congrArg (fun x : Eng => x.starting _ k) (State.updEng_ne _ _ (gateEng_ne_pipeEng p).symm)

theorem State.startEngines_eng_ne {e : EngId} (h1 : e ≠ gateEng p) (h2 : e ≠ pipeEng p) : (q.startEngines p k).eng e = q.eng e :=
  (State.updEng_ne _ _ h2).trans (State.updEng_ne _ _ h1)

end

end Sys2Proof.Machine
end

section
/-! SUPPORT. O10: a port with LTG source 5 starts a setup, and the statement. -/

namespace Sys2Proof.Machine

/-- The registers that a start of a port sets beside its CUT fields. -/
def startRegs : List Nat := [Off.PIP_CAL, Off.PIP_DRIFT_STAT, Off.PRT_GEAR_NOW_NUM, Off.PRT_GEAR_NOW_DEN]

theorem State.setReg_port (s : State) (u off v : Nat) (p : PortId) : (s.setReg u off v).port p = s.port p := rfl

theorem State.setReg_frame (s : State) (u off v : Nat) : s.setReg u off v = { s with regs := (s.setReg u off v).regs } := rfl

theorem State.updPort_cell (s : State) (p : PortId) (f : PortSt → PortSt) (u off : Nat) : (s.updPort p f).cell u off = s.cell u off := rfl

section

variable (q : State) (p : PortId) (k : Nat)

theorem State.emptyPort_port_same : ∃ busy, (q.emptyPort p k).port p = (q.port p).emptied busy :=
  ⟨_, State.updPort_same (q.startEngines p k) p _⟩

theorem State.emptyPort_cell {off : Nat} (h : off ∉ startRegs) : (q.emptyPort p k).cell p.val off = q.cell p.val off := by
  have h1 : off ≠ Off.PIP_CAL := fun e => h (by rw [e]; decide)
  have h2 : off ≠ Off.PIP_DRIFT_STAT := fun e => h (by rw [e]; decide)
  unfold State.emptyPort
  dsimp only
  rw [State.updPort_cell, State.startEngines_cell q p k h1 h2]

theorem State.startLtg_cell (s : State) {off : Nat} (h : off ∉ startRegs) : (s.startLtg p).cell p.val off = s.cell p.val off := by
  have h1 : off ≠ Off.PRT_GEAR_NOW_NUM := fun e => h (by rw [e]; decide)
  have h2 : off ≠ Off.PRT_GEAR_NOW_DEN := fun e => h (by rw [e]; decide)
  unfold State.startLtg
  dsimp only
  rw [State.cell_setReg_ne fun e => h2 (rkey_inj e), State.cell_setReg_ne fun e => h1 (rkey_inj e)]
  rfl

/-- The registers but four keep their contents. -/
theorem State.readyPort_cell {off : Nat} (h : off ∉ startRegs) : (q.readyPort p k).cell p.val off = q.cell p.val off :=
  (State.startLtg_cell p (q.emptyPort p k) h).trans (State.emptyPort_cell q p k h)

theorem State.startLtg_frame (s : State) : s.startLtg p = { s with regs := (s.startLtg p).regs, ports := (s.startLtg p).ports } := by
  unfold State.startLtg
  dsimp only
  rw [State.setReg_frame, State.setReg_frame]
  rfl

theorem State.emptyPort_frame :
    q.emptyPort p k = { q.startEngines p k with ports := (q.emptyPort p k).ports } := by
  unfold State.emptyPort
  rfl

theorem State.readyPort_units : (q.readyPort p k).units = (q.startEngines p k).units := by
  unfold State.readyPort
  rw [State.startLtg_frame, State.emptyPort_frame]

theorem State.readyPort_engs : (q.readyPort p k).engs = (q.startEngines p k).engs := by
  unfold State.readyPort
  rw [State.startLtg_frame, State.emptyPort_frame]

/-- The registers, the units, the engines and the ports change, and nothing else. -/
theorem State.readyPort_frame : q.readyPort p k =
    { q with regs := (q.readyPort p k).regs, units := (q.readyPort p k).units, engs := (q.readyPort p k).engs,
             ports := (q.readyPort p k).ports } := by
  unfold State.readyPort
  rw [State.startLtg_frame, State.emptyPort_frame, State.startEngines_frame]

theorem State.readyPort_port_ne {r : PortId} (h : r ≠ p) : (q.readyPort p k).port r = q.port r := by
  unfold State.readyPort State.startLtg
  dsimp only
  rw [State.setReg_port, State.setReg_port]
  exact (State.updPort_ne _ _ h).trans ((State.updPort_ne _ _ h).trans (State.updPort_ne (q.startEngines p k) _ h))

/-- The port, where its LTG counts the ticks of the host. -/
theorem State.readyPort_port_same (h5 : (q.emptyPort p k).srcCode p = 5) : ∃ busy t0, (q.readyPort p k).port p =
    { (q.port p).emptied busy with
      ltg := ({ ((q.port p).emptied busy).ltg with t0 := t0, hostTicks := 0 } : LtgSt).begun 1 ((q.emptyPort p k).setupRatio p) } := by
  obtain ⟨busy, hb⟩ := State.emptyPort_port_same q p k
  refine ⟨busy, (q.emptyPort p k).now, ?_⟩
  unfold State.readyPort State.startLtg
  dsimp only
  rw [State.setReg_port, State.setReg_port, h5, if_pos rfl]
  unfold State.updLtg
  rw [State.updPort_same, State.updPort_same, hb]

end

/-! ### What is in force at the start -/

/-- A value that a setup gives a register has 32 bits. -/
theorem State.fut_lt (s : State) (u : UnitId) (k off : Nat) : s.fut u k off < 2 ^ 32 := by
  unfold State.fut State.futureCut
  exact BitVec.isLt _

/-- The low three bits of a register that takes all of them. -/
theorem fld_taken {m : Word} (hm : m.setWidth 3 = 7#3) (x v : Word) :
    fld ((x &&& ~~~m) ||| (v &&& m)).toNat 2 0 = fld v.toNat 2 0 := by
  have hlow (w : Word) : fld w.toNat 2 0 = (w.setWidth 3).toNat := by
    rw [BitVec.toNat_setWidth]
    exact congrArg (· % 2 ^ 3) (Nat.div_one _)
  have h3 : ∀ a b : BitVec 3, (a &&& ~~~7#3) ||| (b &&& 7#3) = b := by decide
  rw [hlow, hlow, BitVec.setWidth_or, BitVec.setWidth_and, BitVec.setWidth_and, BitVec.setWidth_not (by decide), hm, h3]

/-- The CUT fields of PRT_LTG_CFG include the source. -/
theorem cut_ltgCfg : ((regDef Off.PRT_LTG_CFG).elim 0 (fun r => r.cut)).setWidth 3 = 7#3 := by decide +kernel

/-- The ratio of a setup is of CUT fields of 32 bits. -/
theorem cut_gearNums : (regDef Off.PRT_GEAR_NUMS).elim 0 (fun r => r.cut) = BitVec.allOnes 32 := by decide +kernel

theorem cut_gearDens : (regDef Off.PRT_GEAR_DENS).elim 0 (fun r => r.cut) = BitVec.allOnes 32 := by decide +kernel

theorem ltgEarly_subset : ∀ off ∈ ltgEarly, off ∈ cutOffsets true := by decide +kernel

/-- No register that a start sets has CUT fields. -/
theorem not_mem_startRegs {off : Nat} (h : off ∈ cutOffsets true) : off ∉ startRegs := by
  have ha : ∀ off ∈ cutOffsets true, off ∉ startRegs := by decide +kernel
  exact ha off h

theorem unitOfPort_lt (p : PortId) : (unitOfPort p).val < 16 := p.isLt

theorem unitIndex_unitOfPort (p : PortId) : unitIndex (unitOfPort p) = p.val := if_pos (unitOfPort_lt p)

/-- The staged values of a port that wait. -/
theorem stagedDue_port (s : State) {u : UnitId} (h : u.val < 16) (k : Nat) :
    s.stagedDue u k = (cutOffsets true).map (fun off =>
      (off, BitVec.ofNat 32 ((s.putBack u).fut u k off), ((s.putBack u).cell u.val off).cut)) := by
  unfold State.stagedDue unitIndex
  rw [decide_eq_true h, if_pos h]

section

variable {s : State} (p : PortId) (k : Nat)

theorem State.stagedPort_unit_same : (s.stagedPort p k).unit (unitOfPort p) =
    { s.unit (unitOfPort p) with due := (s.stagedDue (unitOfPort p) k).filter (fun e => !ltgEarly.contains e.1) } := by
  unfold State.stagedPort
  rw [State.applyDue_unit_same, State.stageCut_unit_same]

theorem State.stagedPort_unit_ne {v : UnitId} (h : v ≠ unitOfPort p) : (s.stagedPort p k).unit v = s.unit v :=
  (State.applyDue_unit_ne _ _ h).trans (State.stageCut_unit_ne s k h)

/-- The registers and the units change, and nothing else. -/
theorem State.stagedPort_frame :
    s.stagedPort p k = { s with regs := (s.stagedPort p k).regs, units := (s.stagedPort p k).units } := by
  unfold State.stagedPort
  rw [State.applyDue_frame, State.stageCut_frame]

/-- A register with CUT fields of the port that starts: nothing staged, and the value of its setup in force if it is of the LTG. -/
theorem State.stagedPort_cell (hm : s.MemOk) {off : Nat} (ho : off ∈ cutOffsets true) :
    (s.stagedPort p k).cell p.val off =
      if ltgEarly.contains off then
        ((s.putBack (unitOfPort p)).cell p.val off).unstaged.taken off (BitVec.ofNat 32 ((s.putBack (unitOfPort p)).fut (unitOfPort p) k off))
      else ((s.putBack (unitOfPort p)).cell p.val off).unstaged := by
  have hport : decide ((unitOfPort p).val < 16) = true := decide_eq_true (unitOfPort_lt p)
  have hdue : ((s.stageCut (unitOfPort p) k).unit (unitOfPort p)).due = s.stagedDue (unitOfPort p) k := by
    rw [State.stageCut_unit_same]
  have hin : (off, BitVec.ofNat 32 ((s.putBack (unitOfPort p)).fut (unitOfPort p) k off), ((s.putBack (unitOfPort p)).cell p.val off).cut) ∈
      s.stagedDue (unitOfPort p) k := by
    rw [stagedDue_port s (unitOfPort_lt p)]
    exact List.mem_map.2 ⟨off, ho, rfl⟩
  have hnodup : ((s.stagedDue (unitOfPort p) k).map (fun e => e.1)).Nodup := by
    rw [stagedDue_offsets]
    exact cutOffsets_nodup _
  rw [← hdue] at hin hnodup
  have h := State.applyDue_cell (State.stageCut_memOk hm (unitOfPort p) k) (unitOfPort p) ltgEarly.contains hnodup hin
  rw [State.stageCut_cell hm _ _ (by rw [hport]; exact ho), unitIndex_unitOfPort] at h
  exact h

/-- The value in force of a register with CUT fields of the port that starts. -/
theorem State.stagedPort_force (hm : s.MemOk) {off : Nat} (ho : off ∈ cutOffsets true) :
    ((s.stagedPort p k).cell p.val off).force =
      if off ∈ ltgEarly then
        ((s.cell p.val off).force &&& ~~~((regDef off).elim 0 (fun r => r.cut))) |||
          (BitVec.ofNat 32 ((s.putBack (unitOfPort p)).fut (unitOfPort p) k off) &&& ((regDef off).elim 0 (fun r => r.cut)))
      else (s.cell p.val off).force := by
  have hf := State.putBack_force hm (unitOfPort p) p.val off
  rw [State.stagedPort_cell p k hm ho, ← hf]
  by_cases he : off ∈ ltgEarly
  · rw [if_pos he, if_pos (List.contains_iff_mem.2 he)]
    rfl
  · rw [if_neg he, if_neg fun hc => he (List.contains_iff_mem.1 hc)]
    rfl

/-- The value of a register of the LTG whose CUT fields are all of it. -/
theorem State.stagedPort_eff (hm : s.MemOk) {off : Nat} (he : off ∈ ltgEarly)
    (hcut : (regDef off).elim 0 (fun r => r.cut) = BitVec.allOnes 32) :
    (s.stagedPort p k).eff p.val off = (s.putBack (unitOfPort p)).fut (unitOfPort p) k off := by
  unfold State.eff
  rw [State.stagedPort_force p k hm (ltgEarly_subset off he), if_pos he, hcut, BitVec.not_allOnes, BitVec.and_zero, BitVec.zero_or,
    BitVec.and_allOnes, BitVec.toNat_ofNat, Nat.mod_eq_of_lt (State.fut_lt _ _ _ _)]

/-- The source of the setup. -/
theorem State.stagedPort_source (hm : s.MemOk) : (s.stagedPort p k).rf p.val Off.PRT_LTG_CFG 2 0 =
    fld ((s.putBack (unitOfPort p)).fut (unitOfPort p) k Off.PRT_LTG_CFG) 2 0 := by
  have he : Off.PRT_LTG_CFG ∈ ltgEarly := by decide
  unfold State.rf State.eff
  rw [State.stagedPort_force p k hm (ltgEarly_subset _ he), if_pos he, fld_taken cut_ltgCfg, BitVec.toNat_ofNat,
    Nat.mod_eq_of_lt (State.fut_lt _ _ _ _)]

/-- An LTG register reads the same once the port is emptied. -/
theorem State.emptyPort_eff (q : State) {off : Nat} (he : off ∈ ltgEarly) : (q.emptyPort p k).eff p.val off = q.eff p.val off :=
  congrArg (fun x : RegCell => x.force.toNat) (State.emptyPort_cell q p k (not_mem_startRegs (ltgEarly_subset off he)))

/-- The port that starts counts by the source of its setup. -/
theorem State.emptyPort_source (hm : s.MemOk) : ((s.stagedPort p k).emptyPort p k).srcCode p =
    fld ((s.putBack (unitOfPort p)).fut (unitOfPort p) k Off.PRT_LTG_CFG) 2 0 :=
  (congrArg (fld · 2 0) (State.emptyPort_eff p k _ (by decide))).trans (State.stagedPort_source p k hm)

/-- Its ratio is that of its setup. -/
theorem State.emptyPort_ratio (hm : s.MemOk) : ((s.stagedPort p k).emptyPort p k).setupRatio p =
    (s.putBack (unitOfPort p)).futRatio p k := by
  have hn : Off.PRT_GEAR_NUMS ∈ ltgEarly := by decide
  have hd : Off.PRT_GEAR_DENS ∈ ltgEarly := by decide
  unfold State.setupRatio State.futRatio
  rw [State.emptyPort_eff p k _ hn, State.emptyPort_eff p k _ hd, State.stagedPort_eff p k hm hn cut_gearNums,
    State.stagedPort_eff p k hm hd cut_gearDens]

end

end Sys2Proof.Machine
end

section
/-! SUPPORT. O10: a port with LTG source 5 runs, and the statement. -/

namespace Sys2Proof.Machine

/-- The outputs of a port that starts are of its gate. -/
theorem State.runOuts_port_same (v : State) (p : PortId) :
    ∃ g, (v.runOuts (unitOfPort p)).port p = { v.port p with gate := g } := by
  have h : v.runOuts (unitOfPort p) = v.idleOuts p := dif_pos (unitOfPort_lt p)
  rw [h]
  exact ⟨_, State.updPort_same v p _⟩

theorem State.runOuts_port_ne (v : State) {p r : PortId} (h : r ≠ p) : (v.runOuts (unitOfPort p)).port r = v.port r := by
  have hi : v.runOuts (unitOfPort p) = v.idleOuts p := dif_pos (unitOfPort_lt p)
  rw [hi]
  exact State.updPort_ne v _ h

theorem State.runOuts_unit (v : State) (u w : UnitId) : (v.runOuts u).unit w = v.unit w :=
  congrArg (·[w]) (congrArg State.units (State.runOuts_frame v u) :)

theorem State.runOuts_eng (v : State) (u : UnitId) (e : EngId) : (v.runOuts u).eng e = v.eng e :=
  congrArg (·[e]) (congrArg State.engs (State.runOuts_frame v u) :)

theorem State.runOuts_cell (v : State) (u : UnitId) (n off : Nat) : (v.runOuts u).cell n off = v.cell n off :=
  congrArg (fun m => mget resetCell m (rkey n off)) (congrArg State.regs (State.runOuts_frame v u) :)

theorem State.moveState_eng (v : State) (u : UnitId) (new : UState) (cause : Nat) (e : EngId) :
    (v.moveState u new cause).eng e = v.eng e :=
  congrArg (·[e]) (congrArg State.engs (State.moveState_frame v u new cause) :)

theorem State.moveState_port (v : State) (u : UnitId) (new : UState) (cause : Nat) (p : PortId) :
    (v.moveState u new cause).port p = v.port p :=
  congrArg (·[p]) (congrArg State.ports (State.moveState_frame v u new cause) :)

theorem State.setPortState_running (v : State) (p : PortId) (cause : Nat) :
    v.setPortState p .running cause = v.setUState (unitOfPort p) .running cause := rfl

theorem State.readyPort_unit_same (q : State) (p : PortId) (k : Nat) :
    (q.readyPort p k).unit (unitOfPort p) = (q.unit (unitOfPort p)).started k :=
  (congrArg (·[unitOfPort p]) (State.readyPort_units q p k)).trans (State.startEngines_unit_same q p k)

theorem State.readyPort_unit_ne (q : State) (p : PortId) (k : Nat) {v : UnitId} (h : v ≠ unitOfPort p) :
    (q.readyPort p k).unit v = q.unit v :=
  (congrArg (·[v]) (State.readyPort_units q p k)).trans (State.startEngines_unit_ne q p k h)

/-- A port in no cut that stands still, whose setup counts the ticks of the host, starts to run. -/
theorem State.startStaged_runs {q : State} {p : PortId} {k : Nat}
    (hst : (q.unit (unitOfPort p)).st = .loaded ∨ (q.unit (unitOfPort p)).st = .armed ∨ (q.unit (unitOfPort p)).st = .halted)
    (hcut : (q.unit (unitOfPort p)).cut = none) (h5 : (q.emptyPort p k).srcCode p = 5) :
    q.startStaged p k = ((q.readyPort p k).runOuts (unitOfPort p)).moveState (unitOfPort p) .running 4 := by
  have hu := State.readyPort_unit_same q p k
  unfold State.startStaged
  dsimp only
  rw [h5, if_neg (by decide), State.setPortState_running]
  exact State.setUState_running (by rw [hu]; exact hst) (by rw [hu]; exact hcut) 4

/-- What a start of a port whose setup counts the ticks of the host leaves. -/
structure State.PortStarted (s t : State) (p : PortId) (k : Nat) : Prop where
  unit : t.unit (unitOfPort p) =
    (s.unit (unitOfPort p)).startedWith k ((s.stagedDue (unitOfPort p) k).filter (fun e => !ltgEarly.contains e.1))
  units : ∀ v : UnitId, v ≠ unitOfPort p → t.unit v = s.unit v
  gate : t.eng (gateEng p) = (s.eng (gateEng p)).starting (s.slotOf (unitOfPort p) k).prog0.entry k
  pipe : t.eng (pipeEng p) = (s.eng (pipeEng p)).starting (s.slotOf (unitOfPort p) k).prog1.entry k
  engs : ∀ e : EngId, e ≠ gateEng p → e ≠ pipeEng p → t.eng e = s.eng e
  cells : ∀ off ∈ cutOffsets true, t.cell p.val off = (s.stagedPort p k).cell p.val off
  port : ∃ busy t0 g, t.port p = { (s.port p).emptied busy with
    ltg := ({ ((s.port p).emptied busy).ltg with t0 := t0, hostTicks := 0 } : LtgSt).begun 1 ((s.putBack (unitOfPort p)).futRatio p k)
    gate := g }
  ports : ∀ r : PortId, r ≠ p → t.port r = s.port r
  rest : t.now = s.now ∧ t.ctxs = s.ctxs ∧ t.bus = s.bus

theorem startPort_leaves {s : State} (hm : s.MemOk) {p : PortId} {k : Nat}
    (hst : (s.unit (unitOfPort p)).st = .loaded ∨ (s.unit (unitOfPort p)).st = .armed ∨ (s.unit (unitOfPort p)).st = .halted)
    (hcut : (s.unit (unitOfPort p)).cut = none)
    (h5 : fld ((s.putBack (unitOfPort p)).fut (unitOfPort p) k Off.PRT_LTG_CFG) 2 0 = 5) : s.PortStarted (s.startPort p k) p k := by
  have hsrc := (State.emptyPort_source p k hm).trans h5
  have hratio := State.emptyPort_ratio (s := s) p k hm
  have hqu := State.stagedPort_unit_same (s := s) p k
  have hqv {v : UnitId} (hv : v ≠ unitOfPort p) := State.stagedPort_unit_ne (s := s) p k hv
  have hqf := State.stagedPort_frame (s := s) p k
  have ht : s.startPort p k =
      (((s.stagedPort p k).readyPort p k).runOuts (unitOfPort p)).moveState (unitOfPort p) .running 4 :=
    (State.startPort_eq s p k).trans (State.startStaged_runs (by rw [hqu]; exact hst)
      (by rw [hqu]; exact hcut) hsrc)
  rw [ht]
  clear ht
  generalize hq : s.stagedPort p k = q at *
  have hof := State.runOuts_frame (q.readyPort p k) (unitOfPort p)
  have hvf := State.readyPort_frame q p k
  have hengs : ∀ e, (((q.readyPort p k).runOuts (unitOfPort p)).moveState (unitOfPort p) .running 4).eng e = (q.startEngines p k).eng e := by
    intro e
    rw [State.moveState_eng, State.runOuts_eng]
    exact congrArg (·[e]) (State.readyPort_engs q p k)
  refine ⟨?_, fun v hv => ?_, ?_, ?_, fun e h1 h2 => ?_, fun off ho => ?_, ?_, fun r hr => ?_, ?_⟩
  · rw [State.moveState_unit_same, State.runOuts_unit, State.readyPort_unit_same, hqu]
    rfl
  · rw [State.moveState_unit_ne _ _ _ hv, State.runOuts_unit, State.readyPort_unit_ne q p k hv, hqv hv]
  · rw [hengs, State.startEngines_eng_gate, State.slotOf_congr (s := s) (congrArg UnitSt.slots hqu :), hqf]
    rfl
  · rw [hengs, State.startEngines_eng_pipe, State.slotOf_congr (s := s) (congrArg UnitSt.slots hqu :), hqf]
    rfl
  · rw [hengs, State.startEngines_eng_ne q p k h1 h2, hqf]
    rfl
  · rw [(State.moveState_tells _ _ _ _).cell p.val (cutOffsets_lt true off ho), State.updUnit_cell, State.runOuts_cell,
      State.readyPort_cell q p k (not_mem_startRegs ho), hq]
  · obtain ⟨g, hg⟩ := State.runOuts_port_same (q.readyPort p k) p
    obtain ⟨busy, t0, hp⟩ := State.readyPort_port_same q p k hsrc
    refine ⟨busy, t0, g, ?_⟩
    rw [State.moveState_port, hg, hp, hratio, hqf]
    rfl
  · rw [State.moveState_port, State.runOuts_port_ne _ hr, State.readyPort_port_ne q p k hr, hqf]
    rfl
  · rw [State.moveState_frame, hof, hvf, hqf]
    exact ⟨rfl, rfl, rfl⟩

theorem unitOfPort_unitPort {u : UnitId} (h : u.val < 16) : unitOfPort (unitPort u) = u := by
  revert u
  decide

/-- The clauses of O10 on a port whose setup counts the ticks of the host, for the state with the submission `b` read. -/
theorem portStarted_told {s : State} (hm : s.MemOk) (b : BusOp) {u : UnitId} {k : Nat} (hport : u.val < 16)
    (hst : (s.unit u).st = .loaded ∨ (s.unit u).st = .armed ∨ (s.unit u).st = .halted) (hcut : (s.unit u).cut = none)
    (h5 : fld ((s.putBack u).fut u k Off.PRT_LTG_CFG) 2 0 = 5) :
    let t := (s.send b).startPort (unitPort u) k
    (t.unit u).st = .running ∧ (t.unit u).current = some k ∧ (t.unit u).committed = some k ∧ (∀ v : UnitId, v ≠ u → t.unit v = s.unit v) ∧
      (t.eng (gateEng (unitPort u))).pc = (s.slotOf u k).prog0.entry ∧ (t.eng (pipeEng (unitPort u))).pc = (s.slotOf u k).prog1.entry ∧
      (t.eng (gateEng (unitPort u))).run = .waiting ∧ (t.eng (pipeEng (unitPort u))).run = .waiting ∧
      (∀ e : EngId, e ≠ gateEng (unitPort u) → e ≠ pipeEng (unitPort u) → t.eng e = s.eng e) ∧
      (t.unit u).due = ((cutOffsets true).map (fun off =>
        (off, BitVec.ofNat 32 ((s.putBack u).fut u k off), ((s.putBack u).cell u.val off).cut))).filter (fun e => !ltgEarly.contains e.1) ∧
      (∀ off ∈ cutOffsets true, (t.cell u.val off).cut = 0 ∧ (t.cell u.val off).force = (if off ∈ ltgEarly then
        ((s.cell u.val off).force &&& ~~~((regDef off).elim 0 (fun r => r.cut))) |||
          (BitVec.ofNat 32 ((s.putBack u).fut u k off) &&& ((regDef off).elim 0 (fun r => r.cut)))
        else (s.cell u.val off).force)) ∧
      (t.port (unitPort u)).cap = none ∧ (t.port (unitPort u)).prc = none ∧ (t.port (unitPort u)).emi = none ∧
      (t.port (unitPort u)).ltg.kA = 0 ∧ (t.port (unitPort u)).ltg.h = -1 ∧ (t.port (unitPort u)).ltg.sA = 1 ∧
      ((t.port (unitPort u)).ltg.num, (t.port (unitPort u)).ltg.den) = (s.putBack u).futRatio (unitPort u) k ∧
      (∀ q : PortId, q ≠ unitPort u → t.port q = s.port q) ∧ t.now = s.now ∧ t.ctxs = s.ctxs ∧ t.bus = b :: s.bus := by
  have hu := (unitOfPort_unitPort hport).symm
  generalize unitPort u = p at hu ⊢
  subst hu
  have hm' : (s.send b).MemOk := (State.send_keeps b (Keeps.refl (kc := false) s)).mem hm
  have h := startPort_leaves (s := s.send b) (p := p) (k := k) hm' hst hcut (by rw [State.putBack_send]; exact h5)
  have hcells {off : Nat} (ho : off ∈ cutOffsets true) := State.stagedPort_cell (s := s.send b) p k hm' ho
  have hforce {off : Nat} (ho : off ∈ cutOffsets true) := State.stagedPort_force (s := s.send b) p k hm' ho
  generalize (s.send b).startPort p k = t at h ⊢
  obtain ⟨hunit, hunits, hgate, hpipe, hengs, hcell, ⟨busy, t0, g, hp⟩, hports, hnow, hctxs, hbus⟩ := h
  rw [State.stagedDue_send, stagedDue_port s (unitOfPort_lt p)] at hunit
  rw [State.putBack_send] at hp
  refine ⟨congrArg UnitSt.st hunit, congrArg UnitSt.current hunit, congrArg UnitSt.committed hunit, hunits, congrArg Eng.pc hgate,
    congrArg Eng.pc hpipe, congrArg Eng.run hgate, congrArg Eng.run hpipe, hengs, congrArg UnitSt.due hunit, fun off ho => ⟨?_, ?_⟩,
    congrArg PortSt.cap hp, congrArg PortSt.prc hp, congrArg PortSt.emi hp, congrArg (fun x : PortSt => x.ltg.kA) hp,
    congrArg (fun x : PortSt => x.ltg.h) hp, congrArg (fun x : PortSt => x.ltg.sA) hp,
    congrArg (fun x : PortSt => (x.ltg.num, x.ltg.den)) hp, hports, hnow, hctxs, hbus⟩
  · refine (congrArg RegCell.cut ((hcell off ho).trans (hcells ho))).trans ?_
    split <;> rfl
  · refine (congrArg RegCell.force (hcell off ho)).trans ((hforce ho).trans ?_)
    rw [State.putBack_send]
    rfl

/-- Settles O10: an accepted command has its effect and completes (`State.admin_done`), and what the effect leaves is said once for a COMMIT,
the start of an axis and the start of a port. -/
theorem commitAndStart : Obligations.CommitAndStart := by
  unfold Obligations.CommitAndStart
  refine ⟨?_, ?_, ?_⟩
  · intro c y s u hm ha hu hright hst hratio hdir hhead hgroup hcyc hband
    exact commit_does hm ha hu hright hst hratio hdir hhead hgroup hcyc hband
  · intro c y s u k hm ha hu h16 hright hst hslot hver hgroup hcut hcyc hband
    obtain ⟨t, he, hans, hctx, hunits, hunit, heng, hengs, hcells, haxes, haxis, hports, hgroups, hnow, hpend⟩ :=
      startAxis_does hm ha hu h16 hright hst hslot hver hgroup hcut hcyc hband
    rw [stagedDue_axis s (by omega)] at hunit
    exact ⟨t, he, hans, hctx, hunits, congrArg UnitSt.st hunit, (congrArg UnitSt.ran hunit).trans (Bool.or_true _),
      congrArg UnitSt.current hunit, congrArg UnitSt.committed hunit, (congrArg UnitSt.slots hunit :), congrArg Eng.pc heng,
      congrArg Eng.setup heng, congrArg Eng.run heng, congrArg Eng.scratch heng, congrArg Eng.g heng, hengs, congrArg UnitSt.due hunit,
      hcells, haxes, (congrArg AxisSt.pos haxis :), congrArg AxisSt.held haxis, hports, hgroups, hnow, hpend⟩
  · intro c y s u k hm ha hu hport hright hst hpll hslot hrefused hgroup hcut hcyc hband
    have hdone := unitStart_done ha hu hright hst (fun _ => hpll) hslot hrefused hgroup
      (by rw [decide_eq_true hport]; exact hcyc) hband
    have heff : (s.send (s.subRead c)).startUnit u k = (s.send (s.subRead c)).startPort (unitPort u) k :=
      if_pos (decide_eq_true hport)
    rw [heff] at hdone
    refine ⟨⟨_, hdone, rfl⟩, fun h5 => ?_⟩
    exact portStarted_told hm _ hport hst hcut h5

end Sys2Proof.Machine
end

section
/-! SUPPORT. The counterexamples of the refuted obligations on ticks and on the full reset. -/

namespace Sys2Proof.Machine

/-- The state after power-on reset has its memories in canonical form. -/
theorem State.reset_memOk : State.reset.MemOk :=
  ⟨rfl, rfl, rfl, rfl, rfl, rfl, rfl, rfl, rfl, by unfold Eng.memOk; decide +kernel⟩

/-- `exec` answers a next state that meets the Boolean test `b`. -/
def reaches (i : Instr) (s : State) (b : State → Bool) : Bool :=
  match exec i s with
  | .next t => b t
  | _ => false

/-- A command that reaches a state in which the Boolean test fails does not have an outcome for which it holds. -/
theorem not_does_of_reaches {i : Instr} {s : State} {b : State → Bool} {P : State → Prop} (h : reaches i s b = true)
    (hP : ∀ t, P t → b t = false) : ¬ Does i s P := by
  rintro ⟨t, ht, hp⟩
  rw [reaches, ht] at h
  exact Bool.false_ne_true ((hP t hp).symm.trans h)

/-- A line of port 0 in its capture stage. -/
def lineInCapture : LineRec where
  n := 0
  time := 0
  pos := 0
  slot := 0
  gateStart := 0
  gateEnd := 0
  dropped := false
  cutFlag := false
  overlap := false
  splice := false
  leader := false
  range := 0
  cuts := 0
  gap := false
  begun := false
  samples := []
  ord := 0

/-- A full reset runs; port 0 is WEDGED with a line in its capture stage, every other unit is OFF. -/
def wedgedInReset : State :=
  ((State.reset.updMgt (fun m => { m with resetBusy := true })).updUnit (unitOfPort 0) (fun x => { x with st := .wedged })).updPort 0
    (fun x => { x with cap := some lineInCapture })

theorem wedgedInReset_memOk : wedgedInReset.MemOk :=
  let h := State.reset_memOk
  ⟨h.regs, h.tbl, h.pend, h.raised, h.msiUnmasked, h.msiPend, h.store, h.mstepNext, h.mstepNow, h.engs⟩

/-- A unit that was WEDGED before and fails its self-test again is left as it is by RESET_DONE, its line with it. -/
theorem wedgedInReset_keeps_line :
    reaches (.resetDone [unitOfPort 0] ⟨[], []⟩) wedgedInReset (fun t => (t.port 0).cap.isSome) = true := by
  decide +kernel

/-- Refutes O51: a port that is WEDGED already when it fails its self-test at RESET_DONE keeps the lines in its stages
(`wedgedInReset`), where the last clause says that they are gone. -/
theorem not_fullResetAndItsEnd : ¬ Obligations.FullResetAndItsEnd := by
  unfold Obligations.FullResetAndItsEnd
  rintro ⟨-, -, -, hdone⟩
  refine not_does_of_reaches wedgedInReset_keeps_line ?_
    (hdone [unitOfPort 0] wedgedInReset wedgedInReset_memOk rfl (by decide +kernel) (by decide +kernel) (by decide +kernel)
      (by decide +kernel))
  rintro t ⟨-, -, -, -, -, -, hlines, -⟩
  rw [(hlines 0 (List.mem_singleton.mpr rfl)).1]
  rfl

/-- Port 0 runs from the clock, and a CUT value waits for its first tick that takes line positions from master 0. -/
def sourceWaits : State :=
  ((((State.reset.setReg 0 Off.PRT_LTG_CFG (200 * 65536)).setReg 0 Off.PRT_LTG_PMIN 250000).setReg 0 Off.CLK_PPLL_STAT 1).updUnit
    (unitOfPort 0) (fun x => { x with st := .running, prior := .running, current := some 3, due := [(Off.PRT_LTG_CFG, 1, 0)] })).updPort 0
    (fun x => { x with ltg := { x.ltg with sA := 0, kA := 0, rA := 0, num := 1, den := 1, t0 := 0, h := 0, held := none, drains := 0, ticked := false } })

theorem sourceWaits_memOk : sourceWaits.MemOk :=
  let h := State.setReg_memOk (State.setReg_memOk (State.setReg_memOk State.reset_memOk 0 Off.PRT_LTG_CFG (200 * 65536)) 0 Off.PRT_LTG_PMIN 250000)
    0 Off.CLK_PPLL_STAT 1
  ⟨h.regs, h.tbl, h.pend, h.raised, h.msiUnmasked, h.msiPend, h.store, h.mstepNext, h.mstepNow, h.engs⟩

/-- The line of the tick carries 0, the count of master 0, where the source in force before the tick, the clock, stands at 6. -/
theorem sourceWaits_line_pos :
    reaches (.linePositionReached 0 30) sourceWaits (fun t => (t.port 0).cap.any (fun l => l.pos ≠ (sourceWaits.at 30).srcCount 0)) = true := by
  decide +kernel

/-- Refutes O16: the CUT values that wait for the tick come in force before the line takes its position (`sourceWaits`), so a
waiting value that gives the port another source makes the position the count of that source, where the second clause says
that it is the count of the source in force before the tick. -/
theorem not_lineTicks : ¬ Obligations.LineTicks := by
  unfold Obligations.LineTicks
  rintro ⟨-, htick, -⟩
  refine not_does_of_reaches sourceWaits_line_pos ?_
    (htick 0 30 sourceWaits _ sourceWaits_memOk rfl (by decide +kernel) (by decide +kernel) (by decide +kernel) (by decide +kernel)
      (by decide +kernel) (by decide +kernel) (by decide +kernel) (by decide +kernel) (by decide +kernel) (by decide +kernel)
      (by decide +kernel) (by decide +kernel) (by decide +kernel) (by decide +kernel))
  rintro t ⟨-, -, -, -, -, hline, -⟩
  cases hcap : (t.port 0).cap with
  | none => rfl
  | some l =>
    obtain ⟨-, -, hpos, -⟩ := hline l hcap
    exact decide_eq_false (not_not_intro hpos)

/-- Axis 0 runs at a stop of its unit while the STOP_IN override ends; its limit switch closed, and a CUT value waits for its first
tick that lets the switch stop it. -/
def limitWaits : State :=
  let s := ((State.reset.setReg 0 Off.MOT_SW 4).updUnit (unitOfAxis 0) (fun x => { x with st := .running, due := [(Off.MOT_SW, 0x10004, 0)] })).updAxis 0
    (fun x => { x with held := some false, v := 2 ^ 32, s := 1, move := .stop false, cmds := [], sw := x.sw.set 1 { x.sw[1] with qual := true } })
  { s with mot := { s.mot with stopOn := true, stopLow := false, stopRun := 0 } }

theorem limitWaits_memOk : limitWaits.MemOk :=
  let h := State.setReg_memOk State.reset_memOk 0 Off.MOT_SW 4
  ⟨h.regs, h.tbl, h.pend, h.raised, h.msiUnmasked, h.msiPend, h.store, h.mstepNext, h.mstepNow, h.engs⟩

/-- The tick stops the axis at its limit, with SDEC. -/
theorem limitWaits_stops_with_sdec : reaches (.motionTick 0) limitWaits (fun t => (t.axis 0).move ≠ .stop false) = true := by
  decide +kernel

/-- Refutes O19: the CUT values that wait for a motion tick come in force in it, so a limit switch that they enable (`limitWaits`)
stops the axis with SDEC, where the sixth clause says that it goes on with the stop of its unit. -/
theorem not_motionTicksAndPacing : ¬ Obligations.MotionTicksAndPacing := by
  unfold Obligations.MotionTicksAndPacing
  rintro ⟨-, -, -, -, -, hends, -⟩
  refine not_does_of_reaches limitWaits_stops_with_sdec ?_
    (hends 0 limitWaits limitWaits_memOk (by decide +kernel) (by decide +kernel) (by decide +kernel))
  rintro t ⟨-, -, hmove⟩
  exact decide_eq_false (not_not_intro (hmove rfl 0 (by decide +kernel) (by decide +kernel) (by decide +kernel) (by decide +kernel) false
    (by decide +kernel)))

end Sys2Proof.Machine
end

section
/-! SUPPORT. What the change of a port's state leaves as it was (R28, R375). -/

namespace Sys2Proof.Machine

theorem State.unit_congr {s t : State} (h : t.units = s.units) (u : UnitId) : t.unit u = s.unit u := congrArg (·[u]) h

theorem State.port_congr {s t : State} (h : t.ports = s.ports) (p : PortId) : t.port p = s.port p := congrArg (·[p]) h

/-- From `s` to `t` port `p` or units beside it change their states: the other ports, the channels, axes, contexts and the time stay,
port `p` keeps its gear unit and LTG and begins no capture, and the host's registers keep their values in force. -/
structure State.PortWork (p : PortId) (s t : State) : Prop where
  others : ∀ q : PortId, q ≠ p → t.port q = s.port q
  ltg : (t.port p).ltg = (s.port p).ltg
  cal : (s.port p).pipe.cap = none → (t.port p).pipe.cap = none
  chans : t.chans = s.chans
  axes : t.axes = s.axes
  tks : t.tks = s.tks
  now : t.now = s.now
  pending : t.pending = s.pending
  ctxs : t.ctxs = s.ctxs
  mem : s.MemOk → t.MemOk
  host : s.MemOk → ∀ n off, off < 0x10000 → (t.cell n off).force = (s.cell n off).force

theorem State.PortWork.refl (p : PortId) (s : State) : s.PortWork p s :=
  ⟨fun _ _ => rfl, rfl, id, rfl, rfl, rfl, rfl, rfl, rfl, id, fun _ _ _ _ => rfl⟩

theorem State.PortWork.trans {p : PortId} {s t r : State} (h : s.PortWork p t) (k : t.PortWork p r) : s.PortWork p r :=
  ⟨fun q hq => (k.others q hq).trans (h.others q hq), k.ltg.trans h.ltg, fun hc => k.cal (h.cal hc), k.chans.trans h.chans,
    k.axes.trans h.axes, k.tks.trans h.tks, k.now.trans h.now, k.pending.trans h.pending, k.ctxs.trans h.ctxs,
    fun hm => k.mem (h.mem hm), fun hm n off ho => (k.host (h.mem hm) n off ho).trans (h.host hm n off ho)⟩

theorem State.PortWork.ite {p : PortId} {s t r : State} {c : Prop} [Decidable c] (h : s.PortWork p t) (k : s.PortWork p r) :
    s.PortWork p (if c then t else r) := by
  split
  · exact h
  · exact k

theorem State.PortWork.foldl {α : Type} {p : PortId} {f : State → α → State} (h : ∀ (t : State) (a : α), t.PortWork p (f t a)) (l : List α)
    (s : State) : s.PortWork p (l.foldl f s) := by
  induction l generalizing s with
  | nil => exact .refl p s
  | cons a l ih => exact (h s a).trans (ih (f s a))

/-- A step that leaves the ports and everything else that counts here. -/
theorem State.PortWork.of_ports {p : PortId} {s t : State} (hports : t.ports = s.ports) (hchans : t.chans = s.chans)
    (haxes : t.axes = s.axes) (htks : t.tks = s.tks) (hnow : t.now = s.now) (hpending : t.pending = s.pending)
    (hctxs : t.ctxs = s.ctxs) (hmem : s.MemOk → t.MemOk)
    (hhost : s.MemOk → ∀ n off, off < 0x10000 → (t.cell n off).force = (s.cell n off).force) : s.PortWork p t :=
  have hport (q : PortId) : t.port q = s.port q := State.port_congr hports q
  ⟨fun q _ => hport q, congrArg PortSt.ltg (hport p), fun hc => (congrArg (fun x => x.pipe.cap) (hport p)).trans hc, hchans, haxes, htks,
    hnow, hpending, hctxs, hmem, hhost⟩

/-- What units, groups and faults hold is no part of it. -/
theorem State.PortWork.of_units (p : PortId) (s : State) (units : Vector UnitSt 24) (groups : Vector Group 4) (faults : List FaultRec) :
    s.PortWork p { s with units := units, groups := groups, faults := faults } :=
  .of_ports rfl rfl rfl rfl rfl rfl rfl (fun h => ⟨h.1, h.2, h.3, h.4, h.5, h.6, h.7, h.8, h.9, h.10⟩) (fun _ _ _ _ => rfl)

theorem State.updPort_work (s : State) (p : PortId) {f : PortSt → PortSt} (hl : (f (s.port p)).ltg = (s.port p).ltg)
    (hc : (s.port p).pipe.cap = none → (f (s.port p)).pipe.cap = none) : s.PortWork p (s.updPort p f) := by
  have hsame := State.updPort_same s p f
  exact ⟨fun q hq => State.updPort_ne s f hq, (congrArg PortSt.ltg hsame).trans hl,
    fun h => (congrArg (fun x => x.pipe.cap) hsame).trans (hc h), rfl, rfl, rfl, rfl, rfl, rfl,
    fun h => ⟨h.1, h.2, h.3, h.4, h.5, h.6, h.7, h.8, h.9, h.10⟩, fun _ _ _ _ => rfl⟩

/-- Registers of different offsets have different keys, whatever their units. -/
theorem rkey_ne_of_off {u v a b : Nat} (ha : a < 0x800000) (hb : b < 0x800000) (h : a ≠ b) : rkey u a ≠ rkey v b := by
  unfold rkey
  omega

theorem State.setCell_work (p : PortId) (s : State) (u : Nat) {off : Nat} (c : RegCell) (h : 0x10000 ≤ off) (h' : off < 0x800000) :
    s.PortWork p (s.setCell u off c) :=
  .of_ports rfl rfl rfl rfl rfl rfl rfl (fun hm => State.setCell_memOk hm u off c)
    (fun _ n o ho => congrArg RegCell.force (State.cell_setCell_ne (rkey_ne_of_off (by omega) h' (by omega)) c))

theorem State.setReg_work (p : PortId) (s : State) (u : Nat) {off : Nat} (v : Nat) (h : 0x10000 ≤ off) (h' : off < 0x800000) :
    s.PortWork p (s.setReg u off v) := State.setCell_work p s u _ h h'

theorem State.setRf_work (p : PortId) (s : State) (u : Nat) {off : Nat} (hi lo x : Nat) (h : 0x10000 ≤ off) (h' : off < 0x800000) :
    s.PortWork p (s.setRf u off hi lo x) := State.setCell_work p s u _ h h'

theorem State.raise_work (p : PortId) (s : State) (src : Nat) (items : List (Nat × Nat)) : s.PortWork p (s.raise src items) :=
  .of_ports (by simp) (by simp) (by simp) (by simp) (by simp) (by simp) (by simp) (fun h => State.raise_memOk h src items)
    (fun _ n _ ho => congrArg RegCell.force ((State.raise_eventsOnly s src items).cell n (by omega)))

theorem State.moveState_work (p : PortId) (s : State) (u : UnitId) (new : UState) (cause : Nat) : s.PortWork p (s.moveState u new cause) := by
  have h := State.moveState_frame s u new cause
  exact .of_ports (congrArg State.ports h :) (congrArg State.chans h :) (congrArg State.axes h :) (congrArg State.tks h :)
    (congrArg State.now h :) (congrArg State.pending h :) (congrArg State.ctxs h :)
    (State.moveState_keeps u new cause (Keeps.refl (kc := false) s)).mem
    (fun _ n _ ho => congrArg RegCell.force (((State.moveState_tells s u new cause).cell n (by omega)).trans (State.updUnit_cell s u _ n _)))

theorem State.putBack_work (p : PortId) (s : State) (u : UnitId) : s.PortWork p (s.putBack u) := by
  have h := State.putBack_frame s u
  exact .of_ports (congrArg State.ports h :) (congrArg State.chans h :) (congrArg State.axes h :) (congrArg State.tks h :)
    (congrArg State.now h :) (congrArg State.pending h :) (congrArg State.ctxs h :) (fun hm => State.putBack_memOk hm u)
    (fun hm n off _ => State.putBack_force hm u n off)

/-! ### Leaving RUNNING -/

theorem State.swapOne_work (s : State) (p : PortId) (i : Fin 16) : s.PortWork p (s.swapOne p i) :=
  (State.updPort_work s p rfl id).trans (State.setReg_work p _ p.val _ (by decide) (by decide))

theorem State.trySwap_work (s : State) (p : PortId) (i : Fin 16) (now : Bool) : s.PortWork p (s.trySwap p i now) :=
  .ite (.refl p s)
    (.ite (.ite ((State.swapOne_work s p i).trans (State.swapOne_work _ p _)) (.refl p s)) (State.swapOne_work s p i))

theorem State.abortCap_work (s : State) (p : PortId) (cause : Nat) : s.PortWork p (s.abortCap p cause) :=
  .ite (((State.updPort_work s p rfl (fun _ => rfl)).trans (State.setRf_work p _ p.val 8 8 0 (by decide) (by decide))).trans
    (State.raise_work p _ _ _)) (.refl p s)

theorem State.idleOuts_work (s : State) (p : PortId) : s.PortWork p (s.idleOuts p) := by
  unfold State.idleOuts
  exact State.updPort_work s p rfl id

/-- What a port does that leaves RUNNING, or starts, but for the change of its state itself. -/
def State.leaveWork (s : State) (u : UnitId) (new : UState) : State :=
  ((s.leaveSwaps u (s.unit u).st new).leaveCap u (s.unit u).st new).edgeOuts u (s.unit u).st new

theorem State.leaveWork_work (s : State) (p : PortId) (new : UState) : s.PortWork p (s.leaveWork (unitOfPort p) new) := by
  have hp : (unitOfPort p).val < 16 := p.isLt
  unfold State.leaveWork State.leaveSwaps State.leaveCap State.edgeOuts
  simp only [dif_pos hp]
  exact ((State.PortWork.ite (.foldl (fun t i => State.trySwap_work t p i false) _ s) (.refl p s)).trans
    (.ite (State.abortCap_work _ p 1) (.refl p _))).trans (.ite (State.idleOuts_work _ p) (.refl p _))

/-- A unit that did not run, and does not start, does nothing of it. -/
theorem State.leaveWork_of_idle (s : State) (u : UnitId) {new : UState} (hl : leaves (s.unit u).st new = false) (hn : new ≠ .running) :
    s.leaveWork u new = s := by
  have hr : (new == .running) = false := by simpa using hn
  unfold State.leaveWork State.leaveSwaps State.leaveCap State.edgeOuts
  simp [hl, hr]

theorem State.trySwap_units (s : State) (p : PortId) (i : Fin 16) (now : Bool) : (s.trySwap p i now).units = s.units := by
  unfold State.trySwap
  split_ifs <;> rfl

theorem State.foldl_units {α : Type} {f : State → α → State} (h : ∀ (t : State) (a : α), (f t a).units = t.units) (l : List α) (s : State) :
    (l.foldl f s).units = s.units := by
  induction l generalizing s with
  | nil => rfl
  | cons a l ih => exact (ih (f s a)).trans (h s a)

theorem State.abortCap_units (s : State) (p : PortId) (cause : Nat) : (s.abortCap p cause).units = s.units := by
  unfold State.abortCap
  split_ifs
  · simp
  · rfl

/-- The capture of a port is over when it is abandoned. -/
theorem State.abortCap_none (s : State) (p : PortId) (cause : Nat) : ((s.abortCap p cause).port p).pipe.cap = none := by
  unfold State.abortCap
  split_ifs with h
  · refine (State.raise_work p _ _ _).cal ((State.setRf_work p _ p.val 8 8 0 (by decide) (by decide)).cal ?_)
    rw [State.updPort_same]
  · simpa using h

theorem State.leaveWork_units (s : State) (u : UnitId) (new : UState) : (s.leaveWork u new).units = s.units := by
  have hswaps (t : State) (old : UState) : (t.leaveSwaps u old new).units = t.units := by
    unfold State.leaveSwaps
    split_ifs
    · exact State.foldl_units (fun t i => State.trySwap_units t _ i false) _ t
    · rfl
    · rfl
  have hcap (t : State) (old : UState) : (t.leaveCap u old new).units = t.units := by
    unfold State.leaveCap
    split_ifs
    · exact State.abortCap_units t _ 1
    · rfl
    · rfl
  have houts (t : State) (old : UState) : (t.edgeOuts u old new).units = t.units := by
    unfold State.edgeOuts
    split_ifs <;> rfl
  exact (houts _ _).trans ((hcap _ _).trans (hswaps s _))

/-- A port that leaves RUNNING has no capture after it. -/
theorem State.leaveWork_cal (s : State) (p : PortId) {new : UState} (hl : leaves (s.unit (unitOfPort p)).st new = true) :
    ((s.leaveWork (unitOfPort p) new).port p).pipe.cap = none := by
  have hp : (unitOfPort p).val < 16 := p.isLt
  unfold State.leaveWork State.leaveSwaps State.leaveCap State.edgeOuts
  simp only [dif_pos hp, hl, if_true, Bool.true_or]
  exact (State.idleOuts_work _ p).cal (State.abortCap_none _ p 1)

/-! ### A change of state -/

/-- The state of a unit changes, and a unit that has stopped has no tick that values could wait for. -/
def State.turn (s : State) (u : UnitId) (new : UState) (cause : Nat) : State :=
  if new = .halted ∨ new = .loaded ∨ new = .off then (s.moveState u new cause).putBack u else s.moveState u new cause

theorem State.turn_work (p : PortId) (s : State) (u : UnitId) (new : UState) (cause : Nat) : s.PortWork p (s.turn u new cause) :=
  .ite ((State.moveState_work p s u new cause).trans (State.putBack_work p _ u)) (State.moveState_work p s u new cause)

/-- The state of the unit after it, its values that wait aside. -/
theorem State.turn_unit_same (s : State) (u : UnitId) (new : UState) (cause : Nat) :
    (s.turn u new cause).unit u = { (s.unit u).moved new with due := if new = .halted ∨ new = .loaded ∨ new = .off then [] else (s.unit u).due } := by
  unfold State.turn
  split_ifs
  · rw [State.putBack_unit_same, State.moveState_unit_same]
  · rw [State.moveState_unit_same]
    rfl

theorem State.turn_unit_ne (s : State) {u v : UnitId} (new : UState) (cause : Nat) (h : v ≠ u) :
    (s.turn u new cause).unit v = s.unit v := by
  unfold State.turn
  split_ifs
  · rw [State.putBack_unit_ne _ h, State.moveState_unit_ne _ _ _ h]
  · rw [State.moveState_unit_ne _ _ _ h]

/-- A unit that waits for no cut: its state changes, and where it stops it holds no cut back. -/
theorem State.setUState_uncut {s : State} {u : UnitId} (hcut : (s.unit u).cut = none) (new : UState) (cause : Nat) :
    s.setUState u new cause =
      if new = .running ∨ new = .draining ∨ new = .faulted then (s.leaveWork u new).turn u new cause
      else ((s.leaveWork u new).turn u new cause).cutStarted u := by
  have hunit : (s.leaveWork u new).unit u = s.unit u := State.unit_congr (State.leaveWork_units s u new) u
  have hnone : (((s.leaveWork u new).turn u new cause).unit u).cut = none := by
    rw [State.turn_unit_same, hunit]
    exact hcut
  unfold State.turn State.leaveWork at hnone ⊢
  unfold State.setUState
  dsimp only
  rw [hnone]

theorem State.setUState_work {s : State} {p : PortId} (hcut : (s.unit (unitOfPort p)).cut = none) (new : UState) (cause : Nat) :
    s.PortWork p (s.setUState (unitOfPort p) new cause) := by
  rw [State.setUState_uncut hcut]
  have h := (State.leaveWork_work s p new).trans (State.turn_work p _ (unitOfPort p) new cause)
  exact .ite h (h.trans (.of_units p _ _ _ _))

theorem State.setUState_unit_same {s : State} {u : UnitId} (hcut : (s.unit u).cut = none) (new : UState) (cause : Nat) :
    (s.setUState u new cause).unit u =
      { (s.unit u).moved new with due := if new = .halted ∨ new = .loaded ∨ new = .off then [] else (s.unit u).due } := by
  have hunit : (s.leaveWork u new).unit u = s.unit u := State.unit_congr (State.leaveWork_units s u new) u
  rw [State.setUState_uncut hcut]
  refine Eq.trans ?_ ((State.turn_unit_same _ u new cause).trans (by rw [hunit]))
  split_ifs <;> rfl

theorem State.setUState_unit_ne {s : State} {u v : UnitId} (hcut : (s.unit u).cut = none) (new : UState) (cause : Nat) (h : v ≠ u) :
    (s.setUState u new cause).unit v = s.unit v := by
  have hunit : (s.leaveWork u new).unit v = s.unit v := State.unit_congr (State.leaveWork_units s u new) v
  rw [State.setUState_uncut hcut]
  refine Eq.trans ?_ ((State.turn_unit_ne _ new cause h).trans hunit)
  split_ifs <;> rfl

/-! ### Cuts that are dropped -/

/-- A unit whose cut is taken away: the cut goes, and an ARMED unit returns. -/
theorem State.unarmUnit_eq (s : State) (v : UnitId) :
    s.unarmUnit v = if (s.unit v).st = .armed then
        ((s.updUnit v (fun x => ({ x with cut := none }).unarmed.sync)).turn v (if (s.unit v).ran then .halted else .loaded) 3).cutStarted v
      else s.updUnit v (fun x => ({ x with cut := none }).unarmed.sync) := by
  unfold State.unarmUnit
  split_ifs with harmed hran <;> try rfl
  all_goals
    have hunit := State.updUnit_same s v (fun x => ({ x with cut := none }).unarmed.sync)
    have hcut : ((s.updUnit v (fun x => ({ x with cut := none }).unarmed.sync)).unit v).cut = none := by
      rw [hunit]
      unfold UnitSt.unarmed UnitSt.sync
      split_ifs <;> rfl
    have hst : ((s.updUnit v (fun x => ({ x with cut := none }).unarmed.sync)).unit v).st = .armed := by
      rw [hunit]
      unfold UnitSt.unarmed UnitSt.sync
      split_ifs <;> exact harmed
    rw [State.setUState_uncut hcut, State.leaveWork_of_idle _ v (by rw [hst]; rfl) (by decide)]
    rfl

theorem State.unarmUnit_work (p : PortId) (s : State) (v : UnitId) : s.PortWork p (s.unarmUnit v) := by
  rw [State.unarmUnit_eq]
  have h : s.PortWork p (s.updUnit v (fun x => ({ x with cut := none }).unarmed.sync)) := .of_units p s _ _ _
  exact .ite ((h.trans (State.turn_work p _ v _ 3)).trans (.of_units p _ _ _ _)) h

theorem State.unarmUnit_unit_ne (s : State) {u v : UnitId} (h : u ≠ v) : (s.unarmUnit v).unit u = s.unit u := by
  have hu := State.updUnit_ne s (fun x => ({ x with cut := none }).unarmed.sync) h
  rw [State.unarmUnit_eq]
  split_ifs
  · exact (State.turn_unit_ne _ _ 3 h).trans hu
  · exact (State.turn_unit_ne _ _ 3 h).trans hu
  · exact hu

theorem State.disarm_work (p : PortId) (s : State) (g : GroupId) : s.PortWork p (s.disarm g) :=
  (State.PortWork.of_units p s _ _ _).trans (.foldl (fun t v => .ite (State.unarmUnit_work p t v) (.refl p t)) _ _)

/-- A unit that waits for no cut keeps its state. -/
theorem State.disarm_unit {s : State} {u : UnitId} (hcut : (s.unit u).cut = none) (g : GroupId) : (s.disarm g).unit u = s.unit u := by
  have hstep (l : List UnitId) (t : State) (h : t.unit u = s.unit u) :
      (l.foldl (fun t v => if ((t.unit v).cut.map (fun c => c.group)) = some g.val then t.unarmUnit v else t) t).unit u = s.unit u := by
    induction l generalizing t with
    | nil => exact h
    | cons v l ih =>
      refine ih _ ?_
      dsimp only
      split_ifs with hv
      · refine (State.unarmUnit_unit_ne t (fun e => ?_)).trans h
        rw [← e, h, hcut] at hv
        exact absurd hv (by simp)
      · exact h
  exact hstep _ _ rfl

/-- One group's cut on a line of port `p` that its port will not reach. -/
def State.dropCut (s : State) (p : PortId) (g : GroupId) : State :=
  match s.groups[g].armed with
  | some (0, ref, _) => if ref = p.val && s.groups[g].left.isEmpty then (s.disarm g).raise (portSrc p.val 34) [(8, g.val)] else s
  | _ => s

theorem State.dropCuts_eq (s : State) (p : PortId) : s.dropCuts p = (List.finRange 4).foldl (fun t g => t.dropCut p g) s := rfl

theorem State.dropCut_work (s : State) (p : PortId) (g : GroupId) : s.PortWork p (s.dropCut p g) := by
  unfold State.dropCut
  split
  · exact .ite ((State.disarm_work p s g).trans (State.raise_work p _ _ _)) (.refl p s)
  · exact .refl p s

theorem State.dropCut_unit {s : State} {u : UnitId} (hcut : (s.unit u).cut = none) (p : PortId) (g : GroupId) :
    (s.dropCut p g).unit u = s.unit u := by
  unfold State.dropCut
  split
  · split_ifs
    · exact (State.unit_congr (State.raise_units _ _ _) u).trans (State.disarm_unit hcut g)
    · rfl
  · rfl

theorem State.dropCuts_work (s : State) (p : PortId) : s.PortWork p (s.dropCuts p) :=
  .foldl (fun t g => State.dropCut_work t p g) _ s

theorem State.dropCuts_unit {s : State} {u : UnitId} (hcut : (s.unit u).cut = none) (p : PortId) : (s.dropCuts p).unit u = s.unit u := by
  have hstep (l : List GroupId) (t : State) (h : t.unit u = s.unit u) : (l.foldl (fun t g => t.dropCut p g) t).unit u = s.unit u := by
    induction l generalizing t with
    | nil => exact h
    | cons g l ih => exact ih _ ((State.dropCut_unit (h ▸ hcut) p g).trans h)
  exact hstep _ s rfl

theorem State.setPortState_work {s : State} {p : PortId} (hcut : (s.unit (unitOfPort p)).cut = none) (new : UState) (cause : Nat) :
    s.PortWork p (s.setPortState p new cause) := by
  have h := State.setUState_work hcut new cause
  have hd := h.trans (State.dropCuts_work _ p)
  unfold State.setPortState
  dsimp only
  split
  · exact hd
  · exact hd
  · exact hd
  · exact hd
  · exact h

/-- The state of the port itself after the change. -/
theorem State.setPortState_unit {s : State} {p : PortId} (hcut : (s.unit (unitOfPort p)).cut = none) (new : UState) (cause : Nat) :
    (s.setPortState p new cause).unit (unitOfPort p) = (s.setUState (unitOfPort p) new cause).unit (unitOfPort p) := by
  have hd : ((s.setUState (unitOfPort p) new cause).dropCuts p).unit (unitOfPort p) = (s.setUState (unitOfPort p) new cause).unit (unitOfPort p) := by
    refine State.dropCuts_unit ?_ p
    rw [State.setUState_unit_same hcut]
    exact hcut
  unfold State.setPortState
  dsimp only
  split
  · exact hd
  · exact hd
  · exact hd
  · exact hd
  · rfl

end Sys2Proof.Machine
end

section
/-! SUPPORT. A port that halts, and the report of the blocks that failed their verify (R198, R199, R375). -/

namespace Sys2Proof.Machine

theorem State.turn_ports (s : State) (u : UnitId) (new : UState) (cause : Nat) : (s.turn u new cause).ports = s.ports := by
  have hm : (s.moveState u new cause).ports = s.ports := (congrArg State.ports (State.moveState_frame s u new cause) :)
  unfold State.turn
  split_ifs
  · exact (congrArg State.ports (State.putBack_frame (s.moveState u new cause) u) :).trans hm
  · exact hm

/-- What the failure of a verify, which stops no line, does to a port in no cut: it may become FAULTED. -/
structure State.VerifyWork (p : PortId) (s t : State) : Prop where
  work : s.PortWork p t
  ports : t.ports = s.ports
  cut : (t.unit (unitOfPort p)).cut = none
  st : (t.unit (unitOfPort p)).st = (s.unit (unitOfPort p)).st ∨ (t.unit (unitOfPort p)).st = .faulted

theorem State.VerifyWork.trans {p : PortId} {s t r : State} (h : s.VerifyWork p t) (k : t.VerifyWork p r) : s.VerifyWork p r :=
  ⟨h.work.trans k.work, k.ports.trans h.ports, k.cut, k.st.elim (fun e => h.st.imp e.trans e.trans) .inr⟩

/-- A step that changes neither ports nor units. -/
theorem State.VerifyWork.of_units {p : PortId} {s t : State} (hcut : (s.unit (unitOfPort p)).cut = none) (hw : s.PortWork p t)
    (hports : t.ports = s.ports) (hunits : t.units = s.units) : s.VerifyWork p t :=
  have hu : t.unit (unitOfPort p) = s.unit (unitOfPort p) := State.unit_congr hunits _
  ⟨hw, hports, (congrArg UnitSt.cut hu).trans hcut, .inl (congrArg UnitSt.st hu)⟩

/-- A port in no cut that becomes FAULTED, whatever is noted of its former states. -/
theorem State.faulted_verify {s : State} {p : PortId} {g : UnitSt → UnitSt} (hg : (g (s.unit (unitOfPort p))).cut = none) :
    s.VerifyWork p ((s.updUnit (unitOfPort p) g).setUState (unitOfPort p) .faulted 8) := by
  have hcut : ((s.updUnit (unitOfPort p) g).unit (unitOfPort p)).cut = none := (congrArg UnitSt.cut (State.updUnit_same s _ g)).trans hg
  have hset := State.setUState_uncut hcut .faulted 8
  rw [State.leaveWork_of_idle _ _ (by unfold leaves; simp) (by decide), if_pos (.inr (.inr rfl))] at hset
  have hunit := State.turn_unit_same (s.updUnit (unitOfPort p) g) (unitOfPort p) .faulted 8
  rw [hset]
  exact ⟨(State.PortWork.of_units p s _ _ _).trans (State.turn_work p _ _ _ _), State.turn_ports _ _ _ _,
    (congrArg UnitSt.cut hunit).trans hcut, .inr (congrArg UnitSt.st hunit)⟩

/-- A port that detects a fault that stops no line becomes FAULTED, and nothing else happens to it. -/
theorem State.detect_verify {s : State} {p : PortId} {f : FaultRec} (hcut : (s.unit (unitOfPort p)).cut = none)
    (hf : f.uid = unitOfPort p) (hl : stopsLines f.code = false) : s.VerifyWork p (s.detect f) := by
  unfold State.detect
  extract_lets f1 x s1 s2
  have hs1 : s1 = s := if_neg (fun h => Bool.false_ne_true (hl.symm.trans h.2))
  have h2 : s.VerifyWork p s2 := by
    show s.VerifyWork p { s1 with faults := _ }
    rw [hs1]
    exact .of_units hcut (.of_units p s _ _ _) rfl rfl
  have hf1 : f1.uid = unitOfPort p := hf
  rw [hf1]
  split
  · exact h2.trans (State.faulted_verify h2.cut)
  · exact h2

theorem State.verifyFail_verify {s : State} {p : PortId} (hcut : (s.unit (unitOfPort p)).cut = none) (n area b pos : Nat)
    (injected : Bool) : s.VerifyWork p (s.verifyFail p n area b pos injected) := by
  unfold State.verifyFail
  extract_lets lane s1 s2 s3
  have h3 : s.VerifyWork p s3 := by
    refine .of_units hcut ?_ (State.raise_ports s2 _ _) (State.raise_units s2 _ _)
    exact (((State.setRf_work p s p.val _ _ _ (by decide) (by decide)).trans (State.setReg_work p s1 p.val _ (by decide) (by decide))).trans
      (State.setReg_work p _ p.val _ (by decide) (by decide))).trans (State.raise_work p s2 _ _)
  split
  · exact h3
  · exact h3.trans (State.detect_verify h3.cut (Fin.ext (Nat.mod_eq_of_lt (by have := p.isLt; show p.val < 24; omega))) rfl)

/-- The report of what failed clears the list of failures. -/
theorem State.verifyReport_verify {s : State} {p : PortId} (hcut : (s.unit (unitOfPort p)).cut = none) :
    (s.updPort p (fun x => { x with pipe := { x.pipe with fails := [] } })).VerifyWork p (s.verifyReport p) := by
  have hstep (l : List (Nat × Nat × Nat × Bool)) (t : State) (ht : (t.unit (unitOfPort p)).cut = none) (n : Nat) :
      t.VerifyWork p (l.foldl (fun t e => t.verifyFail p n e.1 e.2.1 e.2.2.1 e.2.2.2) t) := by
    induction l generalizing t with
    | nil => exact .of_units ht (.refl p t) rfl rfl
    | cons e l ih =>
      have h := State.verifyFail_verify ht n e.1 e.2.1 e.2.2.1 e.2.2.2
      exact h.trans (ih _ h.cut)
  unfold State.verifyReport
  apply hstep
  exact hcut

theorem State.verifyReport_port {s : State} {p : PortId} (hcut : (s.unit (unitOfPort p)).cut = none) :
    (s.verifyReport p).port p = { s.port p with pipe := { (s.port p).pipe with fails := [] } } :=
  (State.port_congr (State.verifyReport_verify hcut).ports p).trans (State.updPort_same s p _)

theorem State.verifyReport_work {s : State} {p : PortId} (hcut : (s.unit (unitOfPort p)).cut = none) : s.PortWork p (s.verifyReport p) :=
  (State.updPort_work s p rfl id).trans (State.verifyReport_verify hcut).work

/-- With nothing to report no unit changes. -/
theorem State.verifyReport_units {s : State} {p : PortId} (hf : (s.port p).pipe.fails = []) : (s.verifyReport p).units = s.units := by
  unfold State.verifyReport
  rw [hf]
  rfl

/-! ### A port that halts -/

theorem State.updEng_work (p : PortId) (s : State) (e : EngId) {f : Eng → Eng} (hf : ∀ x : Eng, x.memOk → (f x).memOk) :
    s.PortWork p (s.updEng e f) :=
  .of_ports rfl rfl rfl rfl rfl rfl rfl (State.updEng_keeps e f hf (Keeps.refl (kc := false) s)).mem (fun _ _ _ _ => rfl)

theorem Eng.stopRun_memOk (x : Eng) (h : x.memOk) : x.stopRun.memOk := Eng.memOk_of h rfl rfl rfl

theorem State.idlePins_work (s : State) (p : PortId) : s.PortWork p (s.idlePins p) :=
  (State.updPort_work s p rfl id).trans (State.idleOuts_work _ p)

/-- The lines of a port are gone and its engines at rest. -/
def State.stilled (s : State) (p : PortId) : State :=
  ((((s.updPort p (fun x => { x with cap := none, prc := none, emi := none })).updEng (gateEng p) Eng.stopRun).updEng (pipeEng p)
    Eng.stopRun).idlePins p)

theorem State.stilled_work (s : State) (p : PortId) : s.PortWork p (s.stilled p) :=
  (((State.updPort_work s p rfl id).trans (State.updEng_work p _ _ Eng.stopRun_memOk)).trans
    (State.updEng_work p _ _ Eng.stopRun_memOk)).trans (State.idlePins_work _ p)

theorem State.stilled_lines (s : State) (p : PortId) :
    ((s.stilled p).port p).cap = none ∧ ((s.stilled p).port p).prc = none ∧ ((s.stilled p).port p).emi = none := by
  have h (t : State) : (t.idlePins p).port p = { t.port p with gate := ((t.idlePins p).port p).gate } := by
    unfold State.idlePins State.idleOuts
    simp
  have hlines : (((s.updPort p (fun x => { x with cap := none, prc := none, emi := none })).updEng (gateEng p) Eng.stopRun).updEng (pipeEng p)
      Eng.stopRun).port p = { s.port p with cap := none, prc := none, emi := none } :=
    State.updPort_same s p (fun x => { x with cap := none, prc := none, emi := none })
  unfold State.stilled
  rw [h, hlines]
  exact ⟨rfl, rfl, rfl⟩

theorem State.stilled_units (s : State) (p : PortId) : (s.stilled p).units = s.units := by
  unfold State.stilled State.idlePins State.idleOuts
  simp only [State.updPort_units, State.updEng_units]

theorem State.haltPort_eq (s : State) (p : PortId) (cause : Nat) :
    s.haltPort p cause = ((s.verifyReport p).setPortState p .halted cause).stilled p := rfl

theorem State.haltPort_work {s : State} {p : PortId} (hcut : (s.unit (unitOfPort p)).cut = none) (cause : Nat) :
    s.PortWork p (s.haltPort p cause) := by
  rw [State.haltPort_eq]
  exact ((State.verifyReport_work hcut).trans (State.setPortState_work (State.verifyReport_verify hcut).cut .halted cause)).trans
    (State.stilled_work _ p)

theorem State.haltPort_st {s : State} {p : PortId} (hcut : (s.unit (unitOfPort p)).cut = none) (cause : Nat) :
    ((s.haltPort p cause).unit (unitOfPort p)).st = .halted := by
  have h := (State.verifyReport_verify hcut).cut
  have hset := (State.setPortState_unit h .halted cause).trans (State.setUState_unit_same h .halted cause)
  rw [State.haltPort_eq]
  exact (congrArg UnitSt.st (State.unit_congr (State.stilled_units _ p) _)).trans (congrArg UnitSt.st hset)

/-- No line is left. -/
theorem State.haltPort_lines (s : State) (p : PortId) (cause : Nat) :
    ((s.haltPort p cause).port p).cap = none ∧ ((s.haltPort p cause).port p).prc = none ∧ ((s.haltPort p cause).port p).emi = none := by
  rw [State.haltPort_eq]
  exact State.stilled_lines _ p

end Sys2Proof.Machine
end

section
/-! SUPPORT. What the stages of a port's lines leave as it was at a tick (R13, R16, R77, R221). -/

namespace Sys2Proof.Machine

/-- From `s` to `t` port `p` works on the lines it has, without moving them: the other ports, the axes and the time stay, and of port `p`
the gear unit and LTG, the head, the line it captures and the number of the line in process. -/
structure State.StageWork (p : PortId) (s t : State) : Prop where
  others : ∀ q : PortId, q ≠ p → t.port q = s.port q
  ltg : (t.port p).ltg = (s.port p).ltg
  head : (t.port p).head = (s.port p).head
  cap : (t.port p).cap = (s.port p).cap
  prc : (t.port p).prc.map (fun l => l.n) = (s.port p).prc.map (fun l => l.n)
  axes : t.axes = s.axes
  now : t.now = s.now
  pending : t.pending = s.pending

theorem State.StageWork.trans {p : PortId} {s t r : State} (h : s.StageWork p t) (k : t.StageWork p r) : s.StageWork p r :=
  ⟨fun q hq => (k.others q hq).trans (h.others q hq), k.ltg.trans h.ltg, k.head.trans h.head, k.cap.trans h.cap, k.prc.trans h.prc,
    k.axes.trans h.axes, k.now.trans h.now, k.pending.trans h.pending⟩

/-- The port's state at `t` as a step leaves it that changes no other port, given the port itself. -/
theorem State.StageWork.of_port {p : PortId} {s t : State} {x : PortSt} (hp : t.port p = x) (ho : ∀ q : PortId, q ≠ p → t.port q = s.port q)
    (hl : x.ltg = (s.port p).ltg) (hh : x.head = (s.port p).head) (hc : x.cap = (s.port p).cap)
    (hn : x.prc.map (fun l => l.n) = (s.port p).prc.map (fun l => l.n)) (haxes : t.axes = s.axes) (hnow : t.now = s.now)
    (hpending : t.pending = s.pending) : s.StageWork p t := by
  subst hp
  exact ⟨ho, hl, hh, hc, hn, haxes, hnow, hpending⟩

/-- Besides, no unit changes and the blocks that failed stay noted. -/
structure State.LineWork (p : PortId) (s t : State) : Prop extends State.StageWork p s t where
  fails : (t.port p).pipe.fails = (s.port p).pipe.fails
  units : t.units = s.units

theorem State.LineWork.refl (p : PortId) (s : State) : s.LineWork p s := ⟨⟨fun _ _ => rfl, rfl, rfl, rfl, rfl, rfl, rfl, rfl⟩, rfl, rfl⟩

theorem State.LineWork.trans {p : PortId} {s t r : State} (h : s.LineWork p t) (k : t.LineWork p r) : s.LineWork p r :=
  ⟨h.toStageWork.trans k.toStageWork, k.fails.trans h.fails, k.units.trans h.units⟩

theorem State.LineWork.ite {p : PortId} {s t r : State} {c : Prop} [Decidable c] (h : s.LineWork p t) (k : s.LineWork p r) :
    s.LineWork p (if c then t else r) := by
  split
  · exact h
  · exact k

theorem State.LineWork.foldl {α : Type} {p : PortId} {f : State → α → State} (h : ∀ (t : State) (a : α), t.LineWork p (f t a)) (l : List α)
    (s : State) : s.LineWork p (l.foldl f s) := by
  induction l generalizing s with
  | nil => exact .refl p s
  | cons a l ih => exact (h s a).trans (ih (f s a))

/-- A step that leaves the ports, the units, the axes and the time. -/
theorem State.LineWork.of_ports {p : PortId} {s t : State} (hports : t.ports = s.ports) (hunits : t.units = s.units)
    (haxes : t.axes = s.axes) (hnow : t.now = s.now) (hpending : t.pending = s.pending) : s.LineWork p t :=
  have hport (q : PortId) : t.port q = s.port q := State.port_congr hports q
  ⟨.of_port (hport p) (fun q _ => hport q) rfl rfl rfl rfl haxes hnow hpending, congrArg (fun x => x.pipe.fails) (hport p), hunits⟩

theorem State.updPort_lineWork (s : State) (p : PortId) {f : PortSt → PortSt} (hl : (f (s.port p)).ltg = (s.port p).ltg)
    (hh : (f (s.port p)).head = (s.port p).head) (hc : (f (s.port p)).cap = (s.port p).cap)
    (hp : (f (s.port p)).prc.map (fun l => l.n) = (s.port p).prc.map (fun l => l.n))
    (hf : (f (s.port p)).pipe.fails = (s.port p).pipe.fails) : s.LineWork p (s.updPort p f) :=
  have h := State.updPort_same s p f
  ⟨.of_port h (fun _ hq => State.updPort_ne s f hq) hl hh hc hp rfl rfl rfl, (congrArg (fun x => x.pipe.fails) h).trans hf, rfl⟩

theorem State.updPipe_lineWork (s : State) (p : PortId) {f : PipeSt → PipeSt} (hf : (f (s.port p).pipe).fails = (s.port p).pipe.fails) :
    s.LineWork p (s.updPipe p f) := State.updPort_lineWork s p rfl rfl rfl rfl hf

theorem State.raise_lineWork (p : PortId) (s : State) (src : Nat) (items : List (Nat × Nat)) : s.LineWork p (s.raise src items) :=
  .of_ports (by simp) (by simp) (by simp) (by simp) (by simp)

theorem State.setRf_lineWork (p : PortId) (s : State) (u off hi lo x : Nat) : s.LineWork p (s.setRf u off hi lo x) :=
  .of_ports rfl rfl rfl rfl rfl

theorem State.updChan_lineWork (p : PortId) (s : State) (c : ChanId) (f : ChanSt → ChanSt) : s.LineWork p (s.updChan c f) :=
  .of_ports rfl rfl rfl rfl rfl

theorem State.updEng_lineWork (p : PortId) (s : State) (e : EngId) (f : Eng → Eng) : s.LineWork p (s.updEng e f) :=
  .of_ports rfl rfl rfl rfl rfl

/-! ### The steps of a channel -/

theorem State.raiseAll_lineWork (p : PortId) (s : State) (es : List (Nat × List (Nat × Nat))) : s.LineWork p (s.raiseAll es) := by
  unfold State.raiseAll
  refine State.LineWork.foldl ?_ es s
  intro t e
  exact State.raise_lineWork p t e.1 e.2

theorem State.restartEoc_lineWork (p : PortId) (s : State) (c : ChanId) : s.LineWork p (s.restartEoc c) := State.updChan_lineWork p s c _

theorem State.eocTimed_lineWork (p : PortId) (s : State) (c : ChanId) : s.LineWork p (s.eocTimed c) := by
  unfold State.eocTimed
  exact .ite ((State.raise_lineWork p s _ _).trans (State.restartEoc_lineWork p _ c)) (.refl p s)

theorem State.rewindOver_lineWork (p : PortId) (s : State) (q : PortId) (cause : Nat) : s.LineWork p (s.rewindOver q cause) := by
  unfold State.rewindOver
  split
  · exact .refl p s
  · refine State.LineWork.trans ?_ (State.raise_lineWork p _ _ _)
    exact .of_ports rfl rfl rfl rfl rfl

/-- A descriptor's status and control are written and counted. -/
theorem State.chanPerform_lineWork (p : PortId) (s : State) (c : ChanId) : s.LineWork p (s.chanPerform c) := by
  unfold State.chanPerform
  extract_lets x
  split
  · exact .refl p s
  next h rest _ =>
    extract_lets s0 s1 s2
    have h0 : s.LineWork p s0 := State.updChan_lineWork p s c _
    have h1 : s.LineWork p s1 := by
      show s.LineWork p (match h.hb with | none => s0 | some b => _)
      cases h.hb with
      | none => exact h0
      | some b =>
        refine h0.trans (.ite (.trans (.trans ?_ (State.restartEoc_lineWork p _ c)) (State.raise_lineWork p _ _ _)) ?_)
        · exact .of_ports rfl rfl rfl rfl rfl
        · exact .of_ports rfl rfl rfl rfl rfl
    have h2 : s.LineWork p s2 := (State.LineWork.ite (h1.trans (State.eocTimed_lineWork p s1 c)) h1).trans (State.raiseAll_lineWork p _ _)
    split
    · exact h2
    next cause idx _ =>
      have h3 : s.LineWork p ((s2.setReg c.val Off.DMA_DC_ERR (2 ^ 31 + cause * 2 ^ 16 + idx % 2 ^ 16)).updChan c (fun y => { y with
          st := 0, cur := none, descs := [], held := [], barrier := false, stalled := false })) := h2.trans (.of_ports rfl rfl rfl rfl rfl)
      have h4 := h3.trans (State.raise_lineWork p _ (chanSrc c.val 3) [(8, cause), (16, idx)])
      exact .ite (h4.trans (State.rewindOver_lineWork p _ _ _)) h4

theorem State.chanRun_lineWork (p : PortId) (c : ChanId) (n : Nat) (s : State) : s.LineWork p (s.chanRun c n) := by
  induction n generalizing s with
  | zero => exact .refl p s
  | succ n ih =>
    unfold State.chanRun
    refine .ite (.refl p s) ?_
    split
    · exact .refl p s
    · exact .ite (.of_ports rfl rfl rfl rfl rfl) ((State.chanPerform_lineWork p s c).trans (ih _))

theorem State.chanLate_lineWork (p : PortId) (s : State) (c : ChanId) (r : Rec) : s.LineWork p (s.chanLate c r) := by
  unfold State.chanLate State.chanPush
  exact ((State.updChan_lineWork p s c _).trans (State.setRf_lineWork p _ _ _ _ _ _)).trans
    ((State.updChan_lineWork p _ c _).trans (State.chanRun_lineWork p c 1024 _))

/-! ### The deadlines of a tick -/

/-- A line of the process or the emit stage that is dropped keeps its place and its number. -/
theorem State.dropQuiet_lineWork (s : State) (p : PortId) {st : Stage} (hst : st ≠ .capture) : s.LineWork p (s.dropQuiet p st) := by
  unfold State.dropQuiet
  split
  · exact .refl p s
  next l hl =>
    refine .ite (.refl p s) ?_
    cases st with
    | capture => exact absurd rfl hst
    | process =>
      have hl : (s.port p).prc = some l := hl
      exact State.updPort_lineWork s p rfl rfl rfl (by rw [hl]; rfl) rfl
    | emit => exact State.updPort_lineWork s p rfl rfl rfl rfl rfl

theorem State.dropLine_lineWork (s : State) (p : PortId) {st : Stage} (hst : st ≠ .capture) (cause : Nat) :
    s.LineWork p (s.dropLine p st cause) := by
  unfold State.dropLine
  split
  · exact .refl p s
  · exact .ite (.refl p s) ((State.dropQuiet_lineWork s p hst).trans (State.raise_lineWork p _ _ _))

theorem State.emitDeadline_lineWork (s : State) (p : PortId) : s.LineWork p (s.emitDeadline p) := by
  unfold State.emitDeadline
  extract_lets due s1
  have h1 : s.LineWork p s1 := .ite (State.dropLine_lineWork s p (st := .emit) nofun 3)
    (.foldl (fun t k => .foldl (fun t r => .ite (State.chanLate_lineWork p t _ r) (.refl p t)) _ t) _ s)
  exact h1.trans (State.updPort_lineWork s1 p rfl rfl rfl rfl rfl)

theorem State.stallOver_lineWork (s : State) (p : PortId) (t0 : Nat) : s.LineWork p (s.stallOver p t0) :=
  .ite (State.updPipe_lineWork s p rfl) (.refl p s)

theorem State.undoCal_lineWork (s : State) (p : PortId) : s.LineWork p (s.undoCal p) := by
  unfold State.undoCal
  dsimp only
  split
  · exact .refl p s
  · exact .ite (.refl p s) (((State.updPipe_lineWork s p rfl).trans (State.setRf_lineWork p _ _ _ _ _ _)).trans (State.setRf_lineWork p _ _ _ _ _ _))

theorem State.processDeadline_lineWork (s : State) (p : PortId) : s.LineWork p (s.processDeadline p) := by
  have hdrop : s.LineWork p ((s.undoCal p).dropLine p .process 2) :=
    (State.undoCal_lineWork s p).trans (State.dropLine_lineWork _ p (by decide) 2)
  unfold State.processDeadline
  split
  · exact .refl p s
  · exact .ite ((hdrop.trans (State.updEng_lineWork p _ _ _)).trans (State.updPipe_lineWork _ p rfl))
      (.ite hdrop (.ite ((State.undoCal_lineWork s p).trans (State.dropQuiet_lineWork _ p (by decide))) (.refl p s)))

theorem State.capFinish_lineWork (s : State) (p : PortId) : s.LineWork p (s.capFinish p) := by
  unfold State.capFinish
  split
  · exact .ite (State.undoCal_lineWork s p) (.ite (.refl p s) ((((State.updPipe_lineWork s p rfl).trans (State.setRf_lineWork p _ _ _ _ _ _)).trans
      (State.setRf_lineWork p _ _ _ _ _ _)).trans (State.raise_lineWork p _ _ _)))
  · exact .refl p s

theorem State.showStall_lineWork (s : State) (p : PortId) : s.LineWork p (s.showStall p) := .of_ports rfl rfl rfl rfl rfl

theorem State.banksInForce_lineWork (s : State) (p : PortId) : s.LineWork p (s.banksInForce p) :=
  have h := State.updPipe_lineWork s p rfl
  .ite (h.trans (State.setRf_lineWork p _ _ _ _ _ _)) h

theorem State.pipeSwitch_lineWork (s : State) (p : PortId) : s.LineWork p (s.pipeSwitch p) := by
  refine .ite ?_ (.refl p s)
  have h : s.LineWork p ((s.startEngine (pipeEng p) (((s.unit (unitOfPort p)).current).getD 0) false).updPipe p (fun z =>
      let z := if s.keepsDrift p (((s.unit (unitOfPort p)).current).getD 0) then z else z.restartDrift
      { z with accs := Vector.replicate 2 { a := [], cnt := 0 }, lastEmit := [] })) :=
    (State.updEng_lineWork p s _ _).trans (State.updPipe_lineWork _ p (by dsimp only; split <;> rfl))
  exact (State.LineWork.ite h (h.trans (State.setRf_lineWork p _ _ _ _ _ _))).trans (State.banksInForce_lineWork _ p)

end Sys2Proof.Machine
end

section
/-! SUPPORT. The tick that moves a port's lines on, and drain ticks (R13, R293). -/

namespace Sys2Proof.Machine

/-- From `s` to `t` only registers and the pipeline of port `p` change. -/
structure State.PipeWork (p : PortId) (s t : State) : Prop where
  frame : t = { s with ports := t.ports, regs := t.regs }
  others : ∀ q : PortId, q ≠ p → t.port q = s.port q
  port : t.port p = { s.port p with pipe := (t.port p).pipe }

theorem State.PipeWork.refl (p : PortId) (s : State) : s.PipeWork p s := ⟨rfl, fun _ _ => rfl, rfl⟩

theorem State.PipeWork.trans {p : PortId} {s t r : State} (h : s.PipeWork p t) (k : t.PipeWork p r) : s.PipeWork p r :=
  ⟨k.frame.trans (congrArg (fun x : State => { x with ports := r.ports, regs := r.regs }) h.frame),
    fun q hq => (k.others q hq).trans (h.others q hq),
    k.port.trans (congrArg (fun x : PortSt => { x with pipe := (r.port p).pipe }) h.port)⟩

theorem State.PipeWork.ite {p : PortId} {s t r : State} {c : Prop} [Decidable c] (h : s.PipeWork p t) (k : s.PipeWork p r) :
    s.PipeWork p (if c then t else r) := by
  split
  · exact h
  · exact k

theorem State.updPipe_pipeWork (s : State) (p : PortId) (f : PipeSt → PipeSt) : s.PipeWork p (s.updPipe p f) := by
  have h : (s.updPipe p f).port p = { s.port p with pipe := f (s.port p).pipe } := State.updPort_same s p _
  exact ⟨rfl, fun q hq => State.updPort_ne s _ hq, h.trans (by rw [h])⟩

theorem State.setCell_pipeWork (p : PortId) (s : State) (u off : Nat) (c : RegCell) : s.PipeWork p (s.setCell u off c) :=
  ⟨rfl, fun _ _ => rfl, rfl⟩

theorem State.setReg_pipeWork (p : PortId) (s : State) (u off v : Nat) : s.PipeWork p (s.setReg u off v) := State.setCell_pipeWork p s u off _

theorem State.setRf_pipeWork (p : PortId) (s : State) (u off hi lo x : Nat) : s.PipeWork p (s.setRf u off hi lo x) :=
  State.setCell_pipeWork p s u off _

theorem State.banksInForce_pipeWork (s : State) (p : PortId) : s.PipeWork p (s.banksInForce p) := by
  unfold State.banksInForce
  extract_lets y sel gone left s1
  have h : s.PipeWork p s1 := State.updPipe_pipeWork s p _
  exact .ite (h.trans (State.setRf_pipeWork p s1 _ _ _ _ _)) h

/-- Folding the lost lines changes their counts only. -/
theorem PortSt.fold_eq (x : PortSt) : x.fold = { x with lostBase := x.fold.lostBase, lostRec := x.fold.lostRec } := by
  unfold PortSt.fold
  dsimp only
  split <;> rfl

/-- The end of the stages before a tick reports the blocks that failed, so that the port may become FAULTED. -/
structure State.StageEnd (p : PortId) (s t : State) : Prop extends State.StageWork p s t where
  fails : (t.port p).pipe.fails = []
  units : (s.port p).pipe.fails = [] → t.units = s.units
  cut : (t.unit (unitOfPort p)).cut = none
  st : (t.unit (unitOfPort p)).st = (s.unit (unitOfPort p)).st ∨ (t.unit (unitOfPort p)).st = .faulted

theorem State.LineWork.unit {p : PortId} {s t : State} (h : s.LineWork p t) (u : UnitId) : t.unit u = s.unit u := State.unit_congr h.units u

theorem State.LineWork.then_end {p : PortId} {s t r : State} (h : s.LineWork p t) (k : t.StageEnd p r) : s.StageEnd p r :=
  ⟨h.toStageWork.trans k.toStageWork, k.fails, fun hf => (k.units (h.fails.trans hf)).trans h.units, k.cut,
    k.st.imp_left (fun e => e.trans (congrArg UnitSt.st (h.unit _)))⟩

theorem State.StageEnd.trans {p : PortId} {s t r : State} (h : s.StageEnd p t) (k : t.LineWork p r) : s.StageEnd p r :=
  ⟨h.toStageWork.trans k.toStageWork, k.fails.trans h.fails, fun hf => k.units.trans (h.units hf), (congrArg UnitSt.cut (k.unit _)).trans h.cut,
    h.st.imp (congrArg UnitSt.st (k.unit _)).trans (congrArg UnitSt.st (k.unit _)).trans⟩

theorem State.verifyReport_stageEnd {s : State} {p : PortId} (hcut : (s.unit (unitOfPort p)).cut = none) :
    s.StageEnd p (s.verifyReport p) :=
  have hport := State.verifyReport_port hcut
  have hv := State.verifyReport_verify hcut
  have hw := State.verifyReport_work hcut
  ⟨.of_port hport hw.others rfl rfl rfl rfl hw.axes hw.now hw.pending, (congrArg (fun x : PortSt => x.pipe.fails) hport :),
    State.verifyReport_units, hv.cut, hv.st⟩

/-- The stages of a tick end: the deadlines fall, what failed is reported, and the capture of a reference ends with its last line. -/
def State.endStages (s : State) (p : PortId) : State :=
  let s1 := ((((s.emitDeadline p).stallOver p (s.port p).ltg.tickTime).processDeadline p).verifyReport p).capFinish p
  if (s1.port p).prc.isSome then s1.showStall p else s1

theorem State.endStages_stageEnd {s : State} {p : PortId} (hcut : (s.unit (unitOfPort p)).cut = none) : s.StageEnd p (s.endStages p) := by
  have h1 := ((State.emitDeadline_lineWork s p).trans (State.stallOver_lineWork _ p (s.port p).ltg.tickTime)).trans
    (State.processDeadline_lineWork _ p)
  have h2 := (h1.then_end (State.verifyReport_stageEnd ((congrArg UnitSt.cut (h1.unit _)).trans hcut))).trans (State.capFinish_lineWork _ p)
  unfold State.endStages
  exact h2.trans (.ite (State.showStall_lineWork _ p) (.refl p _))

/-- The lines of a port move on by one stage. -/
def State.moveLines (s : State) (p : PortId) : State :=
  let x := s.port p
  let due := match x.prc with
    | some l => s.dueOf p l x.pipe.queued
    | none => Vector.replicate 4 []
  s.updPort p (fun y =>
    PortSt.fold { y with emi := x.prc, prc := x.cap, cap := none, due := due, pipe := { y.pipe with queued := [], stallCyc := 0 } })

/-- A tick of a port in no splice. -/
theorem State.shift_eq {s : State} {p : PortId} (h : ((s.endStages p).port p).cap.elim true (fun l => !l.splice) = true) :
    s.shift p = ((s.endStages p).moveLines p).pipeSwitch p := by
  unfold State.shift
  extract_lets s1 s2 s3 x due s4
  have h2 : s2 = s.endStages p := rfl
  have h3 : s3 = s2 := by
    rw [← h2] at h
    clear_value s2
    unfold s3
    split
    next l hl =>
      rw [hl] at h
      exact if_neg (by simpa using h)
    · rfl
  clear_value s3
  have h4 : s4 = s3.moveLines p := rfl
  rw [h4, h3, h2]

/-- What a tick that moves a port's lines on leaves: the line captured is in process, the one in process in its emit stage. -/
structure State.Shifted (p : PortId) (s t : State) : Prop where
  others : ∀ q : PortId, q ≠ p → t.port q = s.port q
  ltg : (t.port p).ltg = (s.port p).ltg
  head : (t.port p).head = (s.port p).head
  cap : (t.port p).cap = none
  prc : (t.port p).prc = (s.port p).cap
  emi : (t.port p).emi.map (fun l => l.n) = (s.port p).prc.map (fun l => l.n)
  units : (s.port p).pipe.fails = [] → t.units = s.units
  cut : (t.unit (unitOfPort p)).cut = none
  st : (t.unit (unitOfPort p)).st = (s.unit (unitOfPort p)).st ∨ (t.unit (unitOfPort p)).st = .faulted
  axes : t.axes = s.axes
  now : t.now = s.now
  pending : t.pending = s.pending

theorem State.moveLines_frame (s : State) (p : PortId) : s.moveLines p = { s with ports := (s.moveLines p).ports } := rfl

theorem State.moveLines_port (s : State) (p : PortId) :
    let x := s.port p
    let y := (s.moveLines p).port p
    y.ltg = x.ltg ∧ y.head = x.head ∧ y.cap = none ∧ y.prc = x.cap ∧ y.emi = x.prc := by
  have h := State.updPort_same s p
  unfold State.moveLines
  dsimp only
  rw [h, PortSt.fold_eq]
  exact ⟨rfl, rfl, rfl, rfl, rfl⟩

/-- A pipe engine that takes the new setup changes itself and its port's pipeline. -/
theorem State.pipeSwitch_port (s : State) (p : PortId) :
    (∀ q : PortId, q ≠ p → (s.pipeSwitch p).port q = s.port q) ∧
      (s.pipeSwitch p).port p = { s.port p with pipe := ((s.pipeSwitch p).port p).pipe } ∧ (s.pipeSwitch p).units = s.units ∧
      (s.pipeSwitch p).axes = s.axes ∧ (s.pipeSwitch p).now = s.now ∧ (s.pipeSwitch p).pending = s.pending := by
  unfold State.pipeSwitch
  extract_lets e k keep s1
  split
  · have h1 : (s.startEngine e k false).PipeWork p s1 := State.updPipe_pipeWork _ p _
    have h : (s.startEngine e k false).PipeWork p ((if keep then s1 else s1.setRf p.val Off.PIP_DRIFT_STAT 3 0 0).banksInForce p) :=
      (State.PipeWork.ite h1 (h1.trans (State.setRf_pipeWork p s1 _ _ _ _ _))).trans (State.banksInForce_pipeWork _ p)
    exact ⟨h.others, h.port, (congrArg State.units h.frame :), (congrArg State.axes h.frame :), (congrArg State.now h.frame :),
      (congrArg State.pending h.frame :)⟩
  · exact ⟨fun _ _ => rfl, rfl, rfl, rfl, rfl, rfl⟩

theorem State.shift_shifted {s : State} {p : PortId} (hcut : (s.unit (unitOfPort p)).cut = none)
    (hcap : (s.port p).cap.elim true (fun l => !l.splice) = true) : s.Shifted p (s.shift p) := by
  have hend := State.endStages_stageEnd hcut
  rw [State.shift_eq (by rw [hend.cap]; exact hcap)]
  generalize s.endStages p = e at hend
  have hmoved := State.moveLines_frame e p
  obtain ⟨hltg, hhead, hnone, hprc, hemi⟩ := State.moveLines_port e p
  have hmothers (q : PortId) (hq : q ≠ p) : (e.moveLines p).port q = e.port q := State.updPort_ne e _ hq
  generalize e.moveLines p = m at hmoved hltg hhead hnone hprc hemi hmothers
  obtain ⟨hothers, hport, hunits, haxes, hnow, hpending⟩ := State.pipeSwitch_port m p
  generalize m.pipeSwitch p = t at hothers hport hunits haxes hnow hpending
  have hu : t.units = e.units := hunits.trans (congrArg State.units hmoved :)
  have hunit := State.unit_congr hu (unitOfPort p)
  exact {
    others := fun q hq => (hothers q hq).trans ((hmothers q hq).trans (hend.others q hq))
    ltg := by rw [hport]; exact hltg.trans hend.ltg
    head := by rw [hport]; exact hhead.trans hend.head
    cap := by rw [hport]; exact hnone
    prc := by rw [hport]; exact hprc.trans hend.cap
    emi := by rw [hport]; exact (congrArg (Option.map (fun l => l.n)) hemi).trans hend.prc
    units := fun hf => hu.trans (hend.units hf)
    cut := by rw [hunit]; exact hend.cut
    st := by rw [hunit]; exact hend.st
    axes := haxes.trans ((congrArg State.axes hmoved :).trans hend.axes)
    now := hnow.trans ((congrArg State.now hmoved :).trans hend.now)
    pending := hpending.trans ((congrArg State.pending hmoved :).trans hend.pending) }

/-! ### Drain ticks -/

/-- A drain tick at `now` is counted. -/
def State.drainedAt (s : State) (p : PortId) (now : Nat) : State := s.updLtg p (fun x => { x with tDrain := now, drains := x.drains + 1 })

theorem State.drainedAt_port (s : State) (p : PortId) (now : Nat) :
    (s.drainedAt p now).port p = { s.port p with ltg := { (s.port p).ltg with tDrain := now, drains := (s.port p).ltg.drains + 1 } } :=
  State.updPort_same s p _

theorem State.drainedAt_head (s : State) (p : PortId) (now : Nat) : ((s.drainedAt p now).port p).head = (s.port p).head := by
  rw [State.drainedAt_port]

theorem State.drainedAt_frame (s : State) (p : PortId) (now : Nat) : s.drainedAt p now = { s with ports := (s.drainedAt p now).ports } := rfl

theorem State.drainedAt_port_ne (s : State) {p q : PortId} (now : Nat) (h : q ≠ p) : (s.drainedAt p now).port q = s.port q :=
  State.updPort_ne s _ h

/-- A drain tick that is due, of a port that neither halts at once nor is to drain: the lines move on, and the second of a DRAINING port
halts it. -/
theorem execDrainTick_due {s : State} {p : PortId} {t0 : Nat} (hdue : (s.at t0).drainDue p = true)
    (hhalt : ((s.at t0).unit (unitOfPort p)).haltNext = false) (hgone : (((s.at t0).shift p).port p).head.gone = false) :
    execDrainTick p t0 s =
      let r := ((s.at t0).shift p).drainedAt p (s.at t0).now
      .next (if r.portState p = .draining ∧ 2 ≤ (r.port p).ltg.drains then r.haltPort p 6 else r) := by
  have hr : ((((s.at t0).shift p).drainedAt p (s.at t0).now).port p).head.gone = false := by
    rw [State.drainedAt_head]
    exact hgone
  unfold execDrainTick
  extract_lets s' u s1 s2 r
  rw [if_neg (by simpa using hdue), if_neg (by simpa using hhalt)]
  have h1 : s1 = r := rfl
  have h2 : s2 = s1 := if_neg (by rw [h1, hr]; exact Bool.false_ne_true)
  rw [h2, h1]
  exact (apply_ite Host.Outcome.next _ _ _).symm

/-- What a drain tick of a running or DRAINING port leaves. -/
theorem State.drainedAt_outcome {s m : State} {p : PortId} {now : Nat} (hsh : s.Shifted p m)
    (hst : s.portState p = .running ∨ s.portState p = .draining) :
    let r := m.drainedAt p now
    let t := if r.portState p = .draining ∧ 2 ≤ (r.port p).ltg.drains then r.haltPort p 6 else r
    (t.port p).ltg.drains = (s.port p).ltg.drains + 1 ∧ (t.port p).ltg.tDrain = now ∧ (t.port p).cap = none ∧
      ((s.port p).pipe.fails = [] → t.portState p = (if s.portState p = .draining ∧ 1 ≤ (s.port p).ltg.drains then .halted else s.portState p)) ∧
      (if t.portState p = .halted then (t.port p).prc = none ∧ (t.port p).emi = none
       else (t.port p).prc = (s.port p).cap ∧ (t.port p).emi.map (fun l => l.n) = (s.port p).prc.map (fun l => l.n)) ∧
      (∀ q : PortId, q ≠ p → t.port q = s.port q) ∧ t.now = s.now ∧ t.axes = s.axes ∧ t.pending = s.pending := by
  intro r
  have hport : r.port p = { m.port p with ltg := { (m.port p).ltg with tDrain := now, drains := (m.port p).ltg.drains + 1 } } :=
    State.drainedAt_port m p now
  have hframe : r = { m with ports := r.ports } := State.drainedAt_frame m p now
  have hothers (q : PortId) (hq : q ≠ p) : r.port q = s.port q := (State.drainedAt_port_ne m now hq).trans (hsh.others q hq)
  have hunit (u : UnitId) : r.unit u = m.unit u := State.unit_congr (congrArg State.units hframe :) u
  have hdrains : (r.port p).ltg.drains = (s.port p).ltg.drains + 1 := by rw [hport, hsh.ltg]
  have htime : (r.port p).ltg.tDrain = now := by rw [hport]
  have hstate : r.portState p = s.portState p ∨ r.portState p = .faulted := by
    have h := hsh.st
    rw [← hunit] at h
    exact h
  have hkept (hf : (s.port p).pipe.fails = []) : r.portState p = s.portState p :=
    congrArg UnitSt.st ((hunit _).trans (State.unit_congr (hsh.units hf) _))
  clear_value r
  split
  case isTrue h =>
    have hw := State.haltPort_work (s := r) (p := p) ((congrArg UnitSt.cut (hunit _)).trans hsh.cut) 6
    have hhalted : (r.haltPort p 6).portState p = .halted := State.haltPort_st ((congrArg UnitSt.cut (hunit _)).trans hsh.cut) 6
    obtain ⟨hcap, hprc, hemi⟩ := State.haltPort_lines r p 6
    refine ⟨(congrArg LtgSt.drains hw.ltg).trans hdrains, (congrArg LtgSt.tDrain hw.ltg).trans htime, hcap, fun hf => ?_, ?_,
      fun q hq => (hw.others q hq).trans (hothers q hq), hw.now.trans ((congrArg State.now hframe :).trans hsh.now),
      hw.axes.trans ((congrArg State.axes hframe :).trans hsh.axes), hw.pending.trans ((congrArg State.pending hframe :).trans hsh.pending)⟩
    · rw [hhalted, if_pos ⟨(hkept hf).symm.trans h.1, by omega⟩]
    · rw [if_pos hhalted]
      exact ⟨hprc, hemi⟩
  case isFalse h =>
    have hrun : r.portState p ≠ .halted := by
      rcases hstate with e | e
      · rcases hst with e' | e' <;> rw [e, e'] <;> decide
      · rw [e]
        decide
    refine ⟨hdrains, htime, by rw [hport]; exact hsh.cap, fun hf => ?_, ?_, hothers, (congrArg State.now hframe :).trans hsh.now,
      (congrArg State.axes hframe :).trans hsh.axes, (congrArg State.pending hframe :).trans hsh.pending⟩
    · rw [hkept hf, if_neg (fun hd => h ⟨(hkept hf).trans hd.1, by omega⟩)]
    · rw [if_neg hrun, hport]
      exact ⟨hsh.prc, hsh.emi⟩

end Sys2Proof.Machine
end

section
/-! SUPPORT. The start of the process stage (R21, R165, R171), and what O17 says. -/

namespace Sys2Proof.Machine

/-- Besides, of the pipeline the work lines, the accumulators and the drift factors for the next line stay. -/
structure State.FlipWork (p : PortId) (s t : State) : Prop extends State.PipeWork p s t where
  wl : (t.port p).pipe.wl = (s.port p).pipe.wl
  accs : (t.port p).pipe.accs = (s.port p).pipe.accs
  qNext : (t.port p).pipe.qNext = (s.port p).pipe.qNext

theorem State.FlipWork.refl (p : PortId) (s : State) : s.FlipWork p s := ⟨.refl p s, rfl, rfl, rfl⟩

theorem State.FlipWork.trans {p : PortId} {s t r : State} (h : s.FlipWork p t) (k : t.FlipWork p r) : s.FlipWork p r :=
  ⟨h.toPipeWork.trans k.toPipeWork, k.wl.trans h.wl, k.accs.trans h.accs, k.qNext.trans h.qNext⟩

theorem State.FlipWork.ite {p : PortId} {s t r : State} {c : Prop} [Decidable c] (h : s.FlipWork p t) (k : s.FlipWork p r) :
    s.FlipWork p (if c then t else r) := by
  split
  · exact h
  · exact k

theorem State.setCell_flipWork (p : PortId) (s : State) (u off : Nat) (c : RegCell) : s.FlipWork p (s.setCell u off c) :=
  ⟨State.setCell_pipeWork p s u off c, rfl, rfl, rfl⟩

theorem State.setReg_flipWork (p : PortId) (s : State) (u off v : Nat) : s.FlipWork p (s.setReg u off v) := State.setCell_flipWork p s u off _

theorem State.setRf_flipWork (p : PortId) (s : State) (u off hi lo x : Nat) : s.FlipWork p (s.setRf u off hi lo x) :=
  State.setCell_flipWork p s u off _

theorem State.updPipe_port (s : State) (p : PortId) (f : PipeSt → PipeSt) :
    (s.updPipe p f).port p = { s.port p with pipe := f (s.port p).pipe } := State.updPort_same s p _

theorem State.updPipe_flipWork (s : State) (p : PortId) {f : PipeSt → PipeSt} (hw : (f (s.port p).pipe).wl = (s.port p).pipe.wl)
    (ha : (f (s.port p).pipe).accs = (s.port p).pipe.accs) (hq : (f (s.port p).pipe).qNext = (s.port p).pipe.qNext) :
    s.FlipWork p (s.updPipe p f) := by
  have h := State.updPipe_port s p f
  exact ⟨State.updPipe_pipeWork s p f, (congrArg (fun x => x.pipe.wl) h).trans hw, (congrArg (fun x => x.pipe.accs) h).trans ha,
    (congrArg (fun x => x.pipe.qNext) h).trans hq⟩

theorem State.swapBanks_flipWork (s : State) (p : PortId) (table : Nat) : s.FlipWork p (s.swapBanks p table) :=
  ((((State.setRf_flipWork p s _ _ _ _ _).trans (State.setReg_flipWork p _ _ _ _)).trans (State.setReg_flipWork p _ _ _ _)).trans
    (State.setRf_flipWork p _ _ _ _ _ _)).trans (State.setRf_flipWork p _ _ _ _ _ _)

theorem State.fallBack_flipWork (s : State) (p : PortId) (table b : Nat) : s.FlipWork p (s.fallBack p table b) :=
  (((State.swapBanks_flipWork s p table).trans (State.setRf_flipWork p _ _ _ _ _ _)).trans (State.setRf_flipWork p _ _ _ _ _ _)).trans
    (State.updPipe_flipWork _ p (by split <;> rfl) (by split <;> rfl) (by split <;> rfl))

theorem State.makeFlips_flipWork (s : State) (p : PortId) : s.FlipWork p (s.makeFlips p) := by
  unfold State.makeFlips
  extract_lets y s1 s2
  have h1 : s.FlipWork p s1 := by
    unfold s1
    split
    · exact State.fallBack_flipWork s p 0 _
    · exact .ite (State.swapBanks_flipWork s p 0) (.refl p s)
  clear_value s1
  have h2 : s.FlipWork p s2 := by
    unfold s2
    split
    · exact h1.trans (State.fallBack_flipWork s1 p 1 _)
    · exact .ite (h1.trans (State.swapBanks_flipWork s1 p 1)) h1
  exact h2.trans (State.updPipe_flipWork s2 p rfl rfl rfl)

theorem State.applyLane_flipWork (s : State) (p : PortId) : s.FlipWork p (s.applyLane p) := by
  unfold State.applyLane
  split
  · exact .refl p s
  · exact (((State.updPipe_flipWork s p rfl rfl rfl).trans (State.setRf_flipWork p _ _ _ _ _ _)).trans
      (State.setRf_flipWork p _ _ _ _ _ _)).trans (State.setRf_flipWork p _ _ _ _ _ _)

/-- The pipeline as the process stage of a line finds it. -/
def PipeSt.begun (y : PipeSt) : PipeSt := { y with
  q := y.qNext, stream := none, skip := false, areas := Vector.replicate 4 none, slots := Vector.replicate 4 none, queued := [],
  groupDone := false, calDone := false, subst := 0, unrep := 0, discard := 0, unfilled := 0, stall := none, stallCyc := 0,
  shaded := false, calAdd := [], shadeBad := [], mismatch := false, fails := [] }

/-- The process stage of line `l` has begun. -/
def State.markBegun (s : State) (p : PortId) (l : LineRec) : State := s.updPort p (fun x => { x with prc := some { l with begun := true } })

/-- The line in process begins: flips and the spare lane are taken, and the pipeline is empty. -/
def State.processLine (s : State) (p : PortId) (l : LineRec) : State :=
  (((s.markBegun p l).makeFlips p).applyLane p).updPipe p PipeSt.begun

theorem State.beginProcess_eq {s : State} {p : PortId} {l : LineRec} (hl : (s.port p).prc = some l) (hb : l.begun = false) :
    s.beginProcess p =
      let s3 := if (s.processLine p l).hasFault p 4 then (s.processLine p l).laneDrop p else s.processLine p l
      (s3.lineStarted p).updEng (pipeEng p) (fun e => e.takeTick l (s3.port p).ltg.tickTime) := by
  unfold State.beginProcess
  rw [hl]
  dsimp only
  rw [hb]
  rfl

/-- Where no line waits to begin nothing happens. -/
theorem State.beginProcess_idle {s : State} {p : PortId} (h : ∀ l ∈ (s.port p).prc, l.begun = true) : s.beginProcess p = s := by
  unfold State.beginProcess
  split
  · rfl
  next l hl => exact if_pos (h l hl)

/-- What opening a line leaves. -/
theorem State.processLine_outcome (s : State) (p : PortId) (l : LineRec) :
    let t := s.processLine p l
    t = { s with ports := t.ports, regs := t.regs } ∧ (∀ q : PortId, q ≠ p → t.port q = s.port q) ∧
      ∃ y : PipeSt, t.port p = { s.port p with prc := some { l with begun := true }, pipe := y.begun } ∧
        y.wl = (s.port p).pipe.wl ∧ y.accs = (s.port p).pipe.accs ∧ y.qNext = (s.port p).pipe.qNext := by
  intro t
  have h0 : (s.markBegun p l).port p = { s.port p with prc := some { l with begun := true } } := State.updPort_same s p _
  have hothers (q : PortId) (hq : q ≠ p) : (s.markBegun p l).port q = s.port q := State.updPort_ne s _ hq
  have hframe : s.markBegun p l = { s with ports := (s.markBegun p l).ports } := rfl
  have hf := (State.makeFlips_flipWork (s.markBegun p l) p).trans (State.applyLane_flipWork _ p)
  have ht : t = (((s.markBegun p l).makeFlips p).applyLane p).updPipe p PipeSt.begun := rfl
  clear_value t
  generalize s.markBegun p l = s0 at h0 hf ht hothers hframe
  generalize (s0.makeFlips p).applyLane p = s1 at hf ht
  have hp := State.updPipe_pipeWork s1 p PipeSt.begun
  rw [← ht] at hp
  refine ⟨?_, fun q hq => (hp.others q hq).trans ((hf.others q hq).trans (hothers q hq)), (s1.port p).pipe, ?_, ?_, ?_, ?_⟩
  · have h2 := (hf.toPipeWork.trans hp).frame
    rw [hframe] at h2
    exact h2
  · rw [ht, State.updPipe_port, hf.port, h0]
  · rw [hf.wl, h0]
  · rw [hf.accs, h0]
  · rw [hf.qNext, h0]

/-- The pipe engine takes its tick for line `l`, and nothing else but groups changes. -/
theorem State.lineStarted_takeTick (s : State) (p : PortId) (l : LineRec) (t0 : Nat) :
    let t := (s.lineStarted p).updEng (pipeEng p) (fun e => e.takeTick l t0)
    t = { s with groups := t.groups, engs := t.engs } ∧ t.eng (pipeEng p) = (s.eng (pipeEng p)).takeTick l t0 ∧
      ∀ e : EngId, e ≠ pipeEng p → t.eng e = s.eng e :=
  ⟨rfl, State.updEng_same (s.lineStarted p) (pipeEng p) _, fun _ he => State.updEng_ne (s.lineStarted p) _ he⟩

/-- A line that is dropped for a lane mismatch as its stage begins is told of once. -/
theorem State.laneDrop_outcome {s : State} {p : PortId} {l : LineRec} (hm : s.MemOk) (hl : (s.port p).prc = some l) (hd : l.dropped = false) :
    let t := s.laneDrop p
    (t.port p).prc = some { l with dropped := true } ∧ t.raisings (portSrc p.val 10) = s.raisings (portSrc p.val 10) + 1 ∧
      t.units = s.units ∧ t.axes = s.axes ∧ ∀ q : PortId, q ≠ p → t.port q = s.port q := by
  intro t
  have hline : (s.port p).line .process = some l := hl
  have hquiet : s.dropQuiet p .process = s.updPort p (fun x => { x with
      prc := some { l with dropped := true }, lostRec := if l.overlap then x.lostRec else x.lostRec ++ [(l.n, 1)] }) := by
    unfold State.dropQuiet
    rw [hline]
    exact if_neg (by simp [hd])
  have ht : t = ((s.dropQuiet p .process).onlyLanes p).raise (portSrc p.val 10) [(8, l.n % 8)] := by
    show s.laneDrop p = _
    unfold State.laneDrop
    rw [hl]
    exact if_neg (by simp [hd])
  have hk : ((s.dropQuiet p .process).onlyLanes p).MemOk :=
    (State.onlyLanes_keeps p (State.dropQuiet_keeps p .process (Keeps.refl (kc := false) s))).mem hm
  have hsrc : portSrc p.val 10 ≠ auxSrc 40 := by
    have := p.isLt
    unfold portSrc auxSrc
    omega
  have h0 := State.updPort_same s p (fun x => { x with
      prc := some { l with dropped := true }, lostRec := if l.overlap then x.lostRec else x.lostRec ++ [(l.n, 1)] })
  have hothers (q : PortId) (hq : q ≠ p) : (s.dropQuiet p .process).port q = s.port q := by
    rw [hquiet]
    exact State.updPort_ne s _ hq
  have hframe : s.dropQuiet p .process = { s with ports := (s.dropQuiet p .process).ports } := by
    rw [hquiet]
    rfl
  rw [← hquiet] at h0
  clear hquiet
  clear_value t
  generalize s.dropQuiet p .process = r at ht hk h0 hothers hframe
  have hpipe := State.updPipe_pipeWork r p (fun y => { y with mismatch := true, fails := [] })
  change r.PipeWork p (r.onlyLanes p) at hpipe
  generalize r.onlyLanes p = m at ht hk hpipe
  subst ht
  refine ⟨?_, ?_, ?_, ?_, fun q hq => ?_⟩
  · rw [State.port_congr (State.raise_ports m _ _), hpipe.port, h0]
  · rw [State.raise_raisings hk _ hsrc]
    exact congrArg (mget (fun _ => 0) · _ + 1) ((congrArg State.raised hpipe.frame :).trans (congrArg State.raised hframe :))
  · exact (State.raise_units m _ _).trans ((congrArg State.units hpipe.frame :).trans (congrArg State.units hframe :))
  · exact (State.raise_axes m _ _).trans ((congrArg State.axes hpipe.frame :).trans (congrArg State.axes hframe :))
  · exact (State.port_congr (State.raise_ports m _ _) q).trans ((hpipe.others q hq).trans (hothers q hq))

theorem State.hasFault_congr {s t : State} (h : t.faults = s.faults) (p : PortId) (c : Nat) : t.hasFault p c = s.hasFault p c := by
  unfold State.hasFault
  rw [h]

theorem State.processLine_memOk {s : State} (h : s.MemOk) (p : PortId) (l : LineRec) : (s.processLine p l).MemOk :=
  (State.updPipe_keeps p _ (State.applyLane_keeps p (State.makeFlips_keeps p (State.updPort_keeps p _ (Keeps.refl (kc := false) s))))).mem h

/-- While lanes of the port are classified the line that begins is dropped (R165). -/
theorem pipeTick_lanes {p : PortId} {s : State} {l : LineRec} (hm : s.MemOk) (hfault : s.hasFault p 4 = true) (hl : (s.port p).prc = some l)
    (hb : l.begun = false) (hd : l.dropped = false) :
    Does (.pipeTick p) s (fun t => (t.port p).prc = some { l with begun := true, dropped := true } ∧
      t.raisings (portSrc p.val 10) = s.raisings (portSrc p.val 10) + 1 ∧ t.units = s.units ∧ t.axes = s.axes ∧
      ∀ q : PortId, q ≠ p → t.port q = s.port q) := by
  refine ⟨_, rfl, ?_⟩
  rw [State.beginProcess_eq hl hb]
  obtain ⟨hframe, hothers, y, hport, -, -, -⟩ := State.processLine_outcome s p l
  have hk := State.processLine_memOk hm p l
  dsimp only
  generalize s.processLine p l = r at hframe hothers hport hk
  have hfaults : r.faults = s.faults := (congrArg State.faults hframe :)
  rw [State.hasFault_congr hfaults, if_pos hfault]
  obtain ⟨hprc, hrais, hunits, haxes, hdropped⟩ := State.laneDrop_outcome (p := p) hk (congrArg PortSt.prc hport) hd
  generalize r.laneDrop p = d at hprc hrais hunits haxes hdropped
  obtain ⟨htick, -, -⟩ := State.lineStarted_takeTick d p l (d.port p).ltg.tickTime
  generalize (d.lineStarted p).updEng (pipeEng p) _ = t at htick
  have hp (q : PortId) : t.port q = d.port q := State.port_congr (congrArg State.ports htick :) q
  refine ⟨by rw [hp]; exact hprc, ?_, ?_, ?_, fun q hq => (hp q).trans ((hdropped q hq).trans (hothers q hq))⟩
  · have hr : t.raisings (portSrc p.val 10) = d.raisings (portSrc p.val 10) := congrArg (mget (fun _ => 0) · _) (congrArg State.raised htick :)
    have hs : r.raisings (portSrc p.val 10) = s.raisings (portSrc p.val 10) := congrArg (mget (fun _ => 0) · _) (congrArg State.raised hframe :)
    rw [hr, hrais, hs]
  · exact (congrArg State.units htick :).trans (hunits.trans (congrArg State.units hframe :))
  · exact (congrArg State.axes htick :).trans (haxes.trans (congrArg State.axes hframe :))

/-- The line that begins finds the pipeline empty, and the engine takes its tick (R21). -/
theorem beginProcess_outcome {p : PortId} {s : State} {l : LineRec} (hfault : s.hasFault p 4 = false) (hl : (s.port p).prc = some l)
    (hb : l.begun = false) :
    let t := s.beginProcess p
    ∃ y : PipeSt, t.port p = { s.port p with prc := some { l with begun := true }, pipe := y.begun } ∧ y.wl = (s.port p).pipe.wl ∧
      y.accs = (s.port p).pipe.accs ∧ y.qNext = (s.port p).pipe.qNext ∧
      t.eng (pipeEng p) = (s.eng (pipeEng p)).takeTick l (s.port p).ltg.tickTime ∧ (∀ e : EngId, e ≠ pipeEng p → t.eng e = s.eng e) ∧
      (∀ q : PortId, q ≠ p → t.port q = s.port q) ∧ t.units = s.units ∧ t.axes = s.axes ∧ t.now = s.now := by
  intro t
  have ht : t = _ := State.beginProcess_eq hl hb
  obtain ⟨hframe, hothers, y, hport, hwl, haccs, hq⟩ := State.processLine_outcome s p l
  clear_value t
  dsimp only at ht
  generalize s.processLine p l = r at hframe hothers hport ht
  have hfaults : r.faults = s.faults := (congrArg State.faults hframe :)
  rw [State.hasFault_congr hfaults, hfault, if_neg Bool.false_ne_true] at ht
  obtain ⟨htick, heng, hengs⟩ := State.lineStarted_takeTick r p l (r.port p).ltg.tickTime
  rw [← ht] at htick heng hengs
  have hp (q : PortId) : t.port q = r.port q := State.port_congr (congrArg State.ports htick :) q
  have he (e : EngId) : r.eng e = s.eng e := congrArg (fun x : Vector Eng 56 => x[e]) (congrArg State.engs hframe :)
  refine ⟨y, (hp p).trans hport, hwl, haccs, hq, ?_, fun e hne => (hengs e hne).trans (he e), fun q hne => (hp q).trans (hothers q hne),
    (congrArg State.units htick :).trans (congrArg State.units hframe :), (congrArg State.axes htick :).trans (congrArg State.axes hframe :),
    (congrArg State.now htick :).trans (congrArg State.now hframe :)⟩
  rw [heng, he, hport]

/-- Settles O17: a drain tick is `State.shift` with its count (`State.drainedAt_outcome`), and the start of a process stage is said once
(`beginProcess_outcome`). -/
theorem drainAndProcess : Obligations.DrainAndProcess := by
  unfold Obligations.DrainAndProcess
  refine ⟨?_, ?_, ?_, ?_⟩
  · intro p t0 s hdue
    refine ⟨s.at t0, ?_, rfl⟩
    show execDrainTick p t0 s = _
    unfold execDrainTick
    exact if_pos (by rw [hdue]; rfl)
  · intro p t0 s hdue hhalt hgone hcap hst hcut
    have hsh := State.shift_shifted (s := s.at t0) hcut hcap
    exact ⟨_, execDrainTick_due hdue hhalt ((congrArg HeadSt.gone hsh.head).trans hgone), State.drainedAt_outcome hsh hst⟩
  · intro p s l hm hfault hl hb hd
    exact pipeTick_lanes hm hfault hl hb hd
  · intro p s hfault
    refine ⟨s.beginProcess p, rfl, fun hnone => State.beginProcess_idle (by rw [hnone]; nofun), fun l hl => ?_⟩
    split
    case isTrue hb =>
      refine State.beginProcess_idle fun k hk => ?_
      rw [Option.mem_unique hk hl]
      exact hb
    case isFalse hb =>
      obtain ⟨y, hport, hwl, haccs, hq, heng, hengs, hothers, hunits, haxes, hnow⟩ :=
        beginProcess_outcome hfault hl (Bool.eq_false_of_not_eq_true hb)
      generalize s.beginProcess p = t at *
      refine ⟨by rw [hport], by rw [hport]; rfl, by rw [hport]; exact hq, fun i => ?_, by rw [hport]; rfl, by rw [hport]; exact hwl,
        by rw [hport]; exact haccs, heng, hengs, hothers, hunits, haxes, hnow⟩
      rw [hport]
      exact ⟨Vector.getElem_replicate _, Vector.getElem_replicate _⟩

end Sys2Proof.Machine
end

section
/-! SUPPORT. What a command on units and groups leaves of everything else. -/

namespace Sys2Proof.Machine

/-- From `s` to `t` contexts, the link, the journal, units, ports, groups, axes, motion, registers and what the raising of `srcs` can
change may change, and nothing else. -/
structure State.Told (s t : State) (srcs : List Nat) : Prop where
  frame : t = { s with ctxs := t.ctxs, bus := t.bus, jrnl := t.jrnl, units := t.units, ports := t.ports, groups := t.groups, axes := t.axes,
                       mot := t.mot, regs := t.regs, raised := t.raised, pend := t.pend,
                       aux := { s.aux with inj := t.aux.inj, down := t.aux.down, upAt := t.aux.upAt } }
  raised : s.SameRaised t (auxSrc 40 :: srcs)
  pend : s.SamePend t (auxSrc 40 :: srcs)
  inj : ∀ n : Fin 4, s.aux.inj[n].isSome = true → t.aux.inj[n] = s.aux.inj[n]
  down : s.aux.down = false → t.aux.down = false ∧ t.aux.upAt = s.aux.upAt

theorem State.Told.trans {s t w : State} {srcs : List Nat} (h : s.Told t srcs) (g : t.Told w srcs) : s.Told w srcs := by
  obtain ⟨hf, hraised, hpend, hinj, hdown⟩ := h
  obtain ⟨gf, graised, gpend, ginj, gdown⟩ := g
  refine ⟨?_, fun k hk => (graised k hk).trans (hraised k hk), fun k hk => (gpend k hk).trans (hpend k hk), fun n hn => ?_, fun hd => ?_⟩
  · rw [gf, hf]
  · exact (ginj n (by rw [hinj n hn]; exact hn)).trans (hinj n hn)
  · obtain ⟨hd', hu⟩ := hdown hd
    obtain ⟨gd, gu⟩ := gdown hd'
    exact ⟨gd, gu.trans hu⟩

/-- A step that raises nothing. -/
theorem State.Told.of_frame {s t : State} (srcs : List Nat)
    (h : t = { s with ctxs := t.ctxs, bus := t.bus, jrnl := t.jrnl, units := t.units, ports := t.ports, groups := t.groups, axes := t.axes,
                      mot := t.mot, regs := t.regs }) : s.Told t srcs := by
  have hraised : t.raised = s.raised := (congrArg State.raised h :)
  have hpend : t.pend = s.pend := (congrArg State.pend h :)
  have haux : t.aux = s.aux := (congrArg State.aux h :)
  refine ⟨?_, fun k _ => congrArg (mget (fun _ => 0) · k) hraised, fun k _ => congrArg (mget noPend · k) hpend, fun n _ => by rw [haux],
    fun hd => by rw [haux]; exact ⟨hd, rfl⟩⟩
  rw [hraised, hpend, haux]
  exact h

theorem State.Told.refl (s : State) (srcs : List Nat) : s.Told s srcs := .of_frame srcs rfl

theorem State.Told.of_eventsOnly {s t : State} {srcs : List Nat} (h : s.EventsOnly t srcs) : s.Told t srcs := by
  obtain ⟨hf, -, hraised, hpend, hinj, hdown⟩ := h
  refine ⟨?_, hraised, hpend, hinj, hdown⟩
  rw [hf]

theorem State.Told.of_tells {s t : State} {srcs : List Nat} (h : s.Tells t srcs) : s.Told t srcs :=
  .trans (t := { s with jrnl := t.jrnl }) (.of_frame srcs rfl) (.of_eventsOnly h)

theorem State.Told.mono {s t : State} {srcs srcs' : List Nat} (h : s.Told t srcs) (hs : ∀ k ∈ srcs, k ∈ srcs') : s.Told t srcs' := by
  have hc : ∀ k, k ∉ auxSrc 40 :: srcs' → k ∉ auxSrc 40 :: srcs := fun k hk hm =>
    hk (List.mem_cons.2 ((List.mem_cons.1 hm).imp_right (hs k)))
  exact ⟨h.frame, fun k hk => h.raised k (hc k hk), fun k hk => h.pend k (hc k hk), h.inj, h.down⟩

/-- What an obligation says of it, with every field that may change told. -/
theorem State.Told.eventsOnly {s t : State} {srcs : List Nat} (h : s.Told t srcs) :
    { s with ctxs := t.ctxs, bus := t.bus, jrnl := t.jrnl, units := t.units, ports := t.ports, groups := t.groups, axes := t.axes,
             mot := t.mot, regs := t.regs }.EventsOnly t srcs :=
  ⟨h.frame, fun _ _ => rfl, h.raised, h.pend, h.inj, h.down⟩

/-- The same where the registers change by events only. -/
theorem State.Told.eventsOnly_regs {s t : State} {srcs : List Nat} (h : s.Told t srcs) (hr : s.SameRegs t injKeys) :
    { s with ctxs := t.ctxs, bus := t.bus, jrnl := t.jrnl, units := t.units, ports := t.ports, groups := t.groups, axes := t.axes,
             mot := t.mot }.EventsOnly t srcs :=
  ⟨h.frame, hr, h.raised, h.pend, h.inj, h.down⟩

theorem State.SameRegs.trans {s t w : State} {ks : List Nat} (h : s.SameRegs t ks) (g : t.SameRegs w ks) : s.SameRegs w ks :=
  fun k hk => (g k hk).trans (h k hk)

theorem State.SameRegs.mono {s t : State} {ks ks' : List Nat} (h : s.SameRegs t ks) (hs : ∀ k ∈ ks, k ∈ ks') : s.SameRegs t ks' :=
  fun k hk => h k fun hm => hk (hs k hm)

theorem State.SameRegs.of_regs {s t : State} (h : t.regs = s.regs) (ks : List Nat) : s.SameRegs t ks := fun k _ => congrArg (mget resetCell · k) h

theorem State.setCell_sameRegs (s : State) (u off : Nat) (c : RegCell) : s.SameRegs (s.setCell u off c) [rkey u off] :=
  fun _ hk => mget_mput_ne (fun e => hk (List.mem_singleton.2 e)) s.regs

/-- The registers of a block before AUX keep their contents where their keys are not named. -/
theorem State.SameRegs.cell {s t : State} {ks : List Nat} (h : s.SameRegs t (injKeys ++ ks)) {u off : Nat} (ho : off < 0x120000)
    (hk : rkey u off ∉ ks) : t.cell u off = s.cell u off :=
  h _ fun hm => (List.mem_append.1 hm).elim (rkey_not_mem_injKeys u ho) hk

/-- The host's registers stand where only keys of later blocks are named. -/
theorem State.SameRings.of_sameRegs {s t : State} {c : CtxId} {ks : List Nat} (hc : t.ctxs[c] = s.ctxs[c]) (h : s.SameRegs t (injKeys ++ ks))
    (hk : ∀ off, off < 0x10000 → rkey c.val off ∉ ks) : s.SameRings t c :=
  ⟨hc, fun off ho => congrArg (fun x : RegCell => x.force.toNat) (h.cell (by omega) (hk off ho))⟩

/-! ### The completion of a command -/

theorem State.complete_told (w : State) (c : CtxId) (op : Nat) (y : Submission) (r : AdmRes) :
    w.Told (w.complete c op y r) [mgtSrc (5 * c.val), mgtSrc (5 * c.val + 1)] :=
  .trans (t := w.answering c y r) (.of_frame _ rfl) (.of_tells (State.complete_tells w c op y r))

theorem State.complete_sameRegs (w : State) (c : CtxId) (op : Nat) (y : Submission) (r : AdmRes) :
    w.SameRegs (w.complete c op y r) injKeys := (State.complete_tells w c op y r).2.1

/-- What a completion leaves of the machinery. -/
structure State.Machinery (w t : State) : Prop where
  units : t.units = w.units
  ports : t.ports = w.ports
  engs : t.engs = w.engs
  groups : t.groups = w.groups
  axes : t.axes = w.axes
  mot : t.mot = w.mot
  chans : t.chans = w.chans
  tks : t.tks = w.tks
  now : t.now = w.now
  pending : t.pending = w.pending

theorem State.complete_machinery (w : State) (c : CtxId) (op : Nat) (y : Submission) (r : AdmRes) : w.Machinery (w.complete c op y r) := by
  have h := State.complete_frame w c op y r
  exact ⟨(congrArg State.units h :), (congrArg State.ports h :), (congrArg State.engs h :), (congrArg State.groups h :),
    (congrArg State.axes h :), (congrArg State.mot h :), (congrArg State.chans h :), (congrArg State.tks h :), (congrArg State.now h :),
    (congrArg State.pending h :)⟩

/-- The events of a completion are of its context. -/
theorem State.complete_raisings (w : State) (c : CtxId) (op : Nat) (y : Submission) (r : AdmRes) {k : Nat} (h40 : k ≠ auxSrc 40)
    (h0 : k ≠ mgtSrc (5 * c.val)) (h1 : k ≠ mgtSrc (5 * c.val + 1)) : (w.complete c op y r).raisings k = w.raisings k :=
  (State.complete_told w c op y r).raised k (by simp [h40, h0, h1])

/-- A command whose effect `w` leaves the contexts and the rings is answered. -/
theorem State.complete_answers {s w : State} {c : CtxId} (hc : w.ctxs = s.ctxs) (hr : s.SameRings w c) (op : Nat) (y : Submission) (r : AdmRes) :
    s.Answered (w.complete c op y r) c y r ∧ ∀ d : CtxId, d ≠ c → (w.complete c op y r).ctxs[d] = s.ctxs[d] :=
  ⟨State.complete_answered hr op y r, fun d hd => (State.complete_ctx_ne w op y r hd).trans (by rw [hc])⟩

end Sys2Proof.Machine
end

section
/-! SUPPORT. UNIT_STOP of an axis: the stop that holds, and the pacing units that go to IDLE (R311, R315, R337). -/

namespace Sys2Proof.Machine

/-- A fold whose step at `a` changes component `a` only, by `G a`, while `P` holds: every component named once is changed once. -/
theorem foldl_componentwise {σ α β : Type} [DecidableEq α] {P : σ → Prop} {f : σ → α → σ} {φ : α → σ → β} {G : α → β → β}
    (hP : ∀ t a, P t → P (f t a)) (hsame : ∀ t a, P t → φ a (f t a) = G a (φ a t)) (hne : ∀ t a b, P t → b ≠ a → φ b (f t a) = φ b t)
    {l : List α} (hl : l.Nodup) {s : σ} (hs : P s) (b : α) : φ b (l.foldl f s) = if b ∈ l then G b (φ b s) else φ b s := by
  induction l generalizing s with
  | nil => rfl
  | cons a l ih =>
    obtain ⟨ha, hl⟩ := List.nodup_cons.1 hl
    rw [List.foldl_cons, ih hl (hP s a hs)]
    by_cases hb : b = a
    · subst hb
      rw [if_neg ha, if_pos List.mem_cons_self, hsame s b hs]
    · simp only [List.mem_cons, hb, false_or, hne s a b hs hb]

/-! ### A stop that holds -/

/-- An axis that a stop holds, homing over and the gear released. -/
theorem State.axisHold_axis (s : State) (a : AxisId) (sdec : Bool) :
    (s.axisHold a sdec).axis a = { (s.axisStop a (sdec || s.mot.stopOn)).axis a with held := some sdec } := State.updAxis_same _ a _

theorem State.axisStop_axis (s : State) (a : AxisId) (sdec : Bool) :
    (s.axisStop a sdec).axis a = ({ s.axis a with home := none } : AxisSt).forceRelease.stopWith sdec := by
  unfold State.axisStop State.endHome
  rw [State.updAxis_same]
  split_ifs with h
  · exact congrArg (fun x : AxisSt => x.forceRelease.stopWith sdec) (State.updAxis_same s a (fun x => { x with home := none }))
  · have hnone : (s.axis a).home = none := by simpa using h
    rw [← hnone]

theorem State.axisStop_axis_ne (s : State) {a b : AxisId} (sdec : Bool) (h : b ≠ a) : (s.axisStop a sdec).axis b = s.axis b := by
  unfold State.axisStop State.endHome
  rw [State.updAxis_ne _ _ h]
  split_ifs
  · exact State.updAxis_ne s (fun x => { x with home := none }) h
  · rfl

theorem State.axisHold_axis_ne (s : State) {a b : AxisId} (sdec : Bool) (h : b ≠ a) : (s.axisHold a sdec).axis b = s.axis b :=
  (State.updAxis_ne _ _ h).trans (State.axisStop_axis_ne s _ h)

theorem State.axisHold_frame (s : State) (a : AxisId) (sdec : Bool) :
    s.axisHold a sdec = { s with axes := (s.axisHold a sdec).axes, regs := (s.axisHold a sdec).regs } := by
  unfold State.axisHold State.axisStop State.endHome
  split_ifs <;> rfl

theorem State.axisHold_regs (s : State) (a : AxisId) (sdec : Bool) : (s.axisHold a sdec).regs = (s.endHome a 4).regs := rfl

theorem State.axisHold_sameRegs (s : State) (a : AxisId) (sdec : Bool) : s.SameRegs (s.axisHold a sdec) [rkey a.val Off.MOT_STAT] := by
  have h : s.SameRegs (s.endHome a 4) [rkey a.val Off.MOT_STAT] := by
    unfold State.endHome
    split_ifs
    · exact State.setCell_sameRegs (s.updAxis a (fun x => { x with home := none })) _ _ _
    · exact fun _ _ => rfl
  exact fun k hk => (congrArg (mget resetCell · k) (State.axisHold_regs s a sdec)).trans (h k hk)

/-- A homing that the stop ends has result 4. -/
theorem State.axisHold_result {s : State} (hm : s.MemOk) {a : AxisId} (hh : (s.axis a).home.isSome = true) (sdec : Bool) :
    (s.axisHold a sdec).rf a.val Off.MOT_STAT 26 24 = 4 := by
  have hrf : (s.axisHold a sdec).rf a.val Off.MOT_STAT 26 24 = (s.endHome a 4).rf a.val Off.MOT_STAT 26 24 := rfl
  rw [hrf]
  unfold State.endHome
  rw [if_pos hh]
  exact State.rf_setRf (State.updAxis_keeps a _ (Keeps.refl (kc := false) s) |>.mem hm) a.val Off.MOT_STAT 26 24 4 (by decide) (by decide)

/-! ### Pacing units -/

/-- The pacing unit of group `g` goes to IDLE where axis `a` is its pacing axis. -/
def State.paceOut (a : AxisId) (s : State) (g : GroupId) : State :=
  if s.rf 0 (Off.MOT_GRP_PACE + 0x40 * g.val) 2 0 = a.val ∧ s.mot.paces[g].st ≠ 0 then s.paceIdle g else s

theorem State.paceLeave_eq (s : State) (a : AxisId) : s.paceLeave a = (List.finRange 4).foldl (State.paceOut a) s := rfl

/-- From `s` to `t` pacing units go to IDLE: the motion state and the status registers of groups change, and no other. -/
structure State.PaceWork (s t : State) : Prop where
  frame : t = { s with mot := t.mot, regs := t.regs }
  regs : s.SameRegs t ((List.finRange 4).map (fun g => rkey 0 (Off.MOT_GRP_STAT + 0x40 * g.val)))
  mem : s.MemOk → t.MemOk

theorem State.paceIdle_work (s : State) (g : GroupId) : s.PaceWork (s.paceIdle g) :=
  ⟨rfl, fun k hk => State.setCell_sameRegs { s with mot := { s.mot with paces := s.mot.paces.set g { s.mot.paces[g] with st := 0 } } } _ _ _ k
      fun hm => hk (List.mem_map.2 ⟨g, List.mem_finRange g, (List.mem_singleton.1 hm).symm⟩),
    (State.paceIdle_keeps g (Keeps.refl (kc := false) s)).mem⟩

theorem State.PaceWork.refl (s : State) : s.PaceWork s := ⟨rfl, fun _ _ => rfl, id⟩

theorem State.PaceWork.trans {s t r : State} (h : s.PaceWork t) (k : t.PaceWork r) : s.PaceWork r :=
  ⟨k.frame.trans (congrArg (fun x : State => { x with mot := r.mot, regs := r.regs }) h.frame), h.regs.trans k.regs, fun hm => k.mem (h.mem hm)⟩

theorem State.paceOut_work (s : State) (a : AxisId) (g : GroupId) : s.PaceWork (s.paceOut a g) := by
  unfold State.paceOut
  split_ifs
  · exact State.paceIdle_work s g
  · exact .refl s

theorem State.paceLeave_work (s : State) (a : AxisId) : s.PaceWork (s.paceLeave a) := by
  have hstep (l : List GroupId) (t : State) : t.PaceWork (l.foldl (State.paceOut a) t) := by
    induction l generalizing t with
    | nil => exact .refl t
    | cons g l ih => exact (State.paceOut_work t a g).trans (ih _)
  rw [State.paceLeave_eq]
  exact hstep _ s

/-- No pacing configuration changes. -/
theorem State.PaceWork.pace {s t : State} (h : s.PaceWork t) (g : GroupId) :
    t.rf 0 (Off.MOT_GRP_PACE + 0x40 * g.val) 2 0 = s.rf 0 (Off.MOT_GRP_PACE + 0x40 * g.val) 2 0 := by
  refine congrArg (fun c : RegCell => fld c.force.toNat 2 0) (h.regs _ fun hm => ?_)
  obtain ⟨n, -, he⟩ := List.mem_map.1 hm
  have := rkey_inj he
  have := n.isLt
  have := g.isLt
  unfold Off.MOT_GRP_STAT Off.MOT_GRP_PACE at *
  omega

/-- The state of a pacing unit and what its status shows of it. -/
def State.paceShown (g : GroupId) (s : State) : PaceSt × Nat := (s.mot.paces[g], s.rf 0 (Off.MOT_GRP_STAT + 0x40 * g.val) 2 0)

theorem State.paceIdle_shown {s : State} (hm : s.MemOk) (g : GroupId) : (s.paceIdle g).paceShown g = ({ s.mot.paces[g] with st := 0 }, 0) := by
  refine Prod.ext ?_ (State.rf_setRf (s := { s with mot := { s.mot with paces := s.mot.paces.set g { s.mot.paces[g] with st := 0 } } })
    ⟨hm.1, hm.2, hm.3, hm.4, hm.5, hm.6, hm.7, hm.8, hm.9, hm.10⟩ _ _ _ _ _ (by decide) (by decide))
  show (s.mot.paces.set g.val { s.mot.paces[g] with st := 0 })[g.val] = _
  rw [Vector.getElem_set_self]

theorem State.paceIdle_shown_ne (s : State) {g h : GroupId} (hne : h ≠ g) : (s.paceIdle g).paceShown h = s.paceShown h := by
  refine Prod.ext ?_ (congrArg (fun c : RegCell => fld c.force.toNat 2 0) (State.cell_setCell_ne (fun he => hne ?_) _))
  · show (s.mot.paces.set g.val { s.mot.paces[g] with st := 0 })[h.val] = _
    rw [Vector.getElem_set_ne _ _ (fun e => hne (Fin.ext e.symm))]
    rfl
  · have := rkey_inj he
    exact Fin.ext (by omega)

/-- The pacing units of the axis are IDLE, and their status says so of those that were not; the others stay. -/
theorem State.paceLeave_shown {s : State} (hm : s.MemOk) (a : AxisId) (g : GroupId) :
    (s.paceLeave a).paceShown g =
      if s.rf 0 (Off.MOT_GRP_PACE + 0x40 * g.val) 2 0 = a.val ∧ s.mot.paces[g].st ≠ 0 then ({ s.mot.paces[g] with st := 0 }, 0)
      else s.paceShown g := by
  have h := foldl_componentwise (P := fun t => s.PaceWork t) (f := State.paceOut a) (φ := State.paceShown)
    (G := fun g x => if s.rf 0 (Off.MOT_GRP_PACE + 0x40 * g.val) 2 0 = a.val ∧ x.1.st ≠ 0 then ({ x.1 with st := 0 }, 0) else x)
    (fun t g ht => ht.trans (State.paceOut_work t a g))
    (fun t g ht => by
      unfold State.paceOut
      rw [ht.pace g]
      refine (apply_ite (State.paceShown g) _ _ _).trans ?_
      rw [State.paceIdle_shown (ht.mem hm)]
      rfl)
    (fun t g h _ hne => by
      unfold State.paceOut
      split_ifs
      · exact State.paceIdle_shown_ne t hne
      · rfl)
    (List.nodup_finRange 4) (.refl s) g
  rw [State.paceLeave_eq, h, if_pos (List.mem_finRange g)]
  rfl

end Sys2Proof.Machine
end

section
/-! SUPPORT. UNIT_STOP (R300, R375, log entries 137, 138 and 151). -/

namespace Sys2Proof.Machine

/-- The description of UNIT_STOP in Table 2.7. -/
def unitStopDesc : AdmDesc := { op := 0x0D, since := 0x20, kinds := [1, 2], slotted := false, args := [0] }

/-- What an accepted UNIT_STOP does: an armed gear change is cleared; the unit drains, or it halts at its next tick where it is live. -/
def State.stopUnit (v : State) (u : UnitId) (drain live : Bool) : State :=
  let t := if u.val < 16 then v.clearGearArm (unitPort u) else v
  if drain then t.drainUnit u
  else if !live then t
  else if u.val < 16 then t.updUnit u (fun x => { x with haltNext := true })
  else (t.axisHold (axisOfUnit u) true).paceLeave (axisOfUnit u)

/-- A unit that runs or drains. -/
def UnitSt.live (x : UnitSt) : Bool := x.st == .running || x.st == .draining

theorem UnitSt.live_iff (x : UnitSt) : x.live = true ↔ x.st = .running ∨ x.st = .draining := by
  unfold UnitSt.live
  simp

theorem unitStop_done {c : CtxId} {y : Submission} {s : State} {u : UnitId} (ha : s.Accepts c unitStopDesc y) (hu : u = subUnit y)
    (hright : unitRight s.ctxs[c] y = true) (hst : (s.unit u).st ≠ .off ∧ (s.unit u).st ≠ .halted) (harg : y.arg 0 ≤ 1) :
    exec (.unitStop c y) s =
      .next (((s.send (s.subRead c)).stopUnit u (decide (y.arg 0 = 0)) (s.unit u).live).complete c 0x0D y (okRes 0 0)) := by
  show execUnitStop c y s = _
  unfold execUnitStop
  dsimp only
  rw [← hu]
  refine congrArg Host.Outcome.next ((State.admin_done ha (firstSome_passed ?_)).trans ?_)
  · simp only [List.mem_cons, List.not_mem_nil, or_false, forall_eq_or_imp, forall_eq]
    refine ⟨refuseIf_false (by rw [hright]; rfl) _ _, refuseIf_false ?_ _ _, refuseIf_false (decide_eq_false (by omega)) _ _⟩
    simp [hst.1, hst.2]
  · refine congrArg (fun e : State × AdmRes => e.1.complete c 0x0D y e.2)
      (a₂ := ((s.send (s.subRead c)).stopUnit u (decide (y.arg 0 = 0)) (s.unit u).live, okRes 0 0)) ?_
    unfold State.stopUnit UnitSt.live
    dsimp only
    simp only [decide_eq_true_eq]
    split_ifs <;> rfl

/-! ### A port that halts at its next tick -/

theorem State.clearGearArm_port (s : State) (p : PortId) :
    (s.clearGearArm p).port p = { s.port p with ltg := { (s.port p).ltg with armed := false } } :=
  State.updPort_same (s.setRf p.val Off.PRT_GEAR_ARMCTL 0 0 0) p _

theorem State.clearGearArm_port_ne (s : State) {p q : PortId} (h : q ≠ p) : (s.clearGearArm p).port q = s.port q :=
  State.updPort_ne (s.setRf p.val Off.PRT_GEAR_ARMCTL 0 0 0) _ h

theorem State.clearGearArm_sameRegs (s : State) (p : PortId) : s.SameRegs (s.clearGearArm p) [rkey p.val Off.PRT_GEAR_ARMCTL] :=
  State.setCell_sameRegs s p.val Off.PRT_GEAR_ARMCTL _

/-- What a UNIT_STOP of a port with argument 1 does (R300, R375). -/
structure State.PortStopped (u : UnitId) (live : Bool) (v w : State) : Prop where
  frame : w = { v with units := w.units, ports := w.ports, regs := w.regs }
  regs : v.SameRegs w [rkey u.val Off.PRT_GEAR_ARMCTL]
  unit : w.unit u = if live then { v.unit u with haltNext := true } else v.unit u
  units : ∀ x : UnitId, x ≠ u → w.unit x = v.unit x
  port : w.port (unitPort u) = { v.port (unitPort u) with ltg := { (v.port (unitPort u)).ltg with armed := false } }
  ports : ∀ q : PortId, q ≠ unitPort u → w.port q = v.port q

theorem State.stopUnit_port (v : State) {u : UnitId} (hport : u.val < 16) (live : Bool) : v.PortStopped u live (v.stopUnit u false live) := by
  have hw : v.stopUnit u false live =
      if live then (v.clearGearArm (unitPort u)).updUnit u (fun x => { x with haltNext := true }) else v.clearGearArm (unitPort u) := by
    unfold State.stopUnit
    cases live <;> simp [hport]
  have hkeys := State.clearGearArm_sameRegs v (unitPort u)
  rw [unitPort_val hport] at hkeys
  rw [hw]
  cases live with
  | false =>
    exact ⟨rfl, hkeys, rfl, fun _ _ => rfl, State.clearGearArm_port v _, fun _ hq => State.clearGearArm_port_ne v hq⟩
  | true =>
    rw [if_pos rfl]
    exact ⟨rfl, hkeys, State.updUnit_same (v.clearGearArm (unitPort u)) u (fun x => { x with haltNext := true }),
      fun _ hx => State.updUnit_ne (v.clearGearArm (unitPort u)) (fun x => { x with haltNext := true }) hx, State.clearGearArm_port v _,
      fun _ hq => State.clearGearArm_port_ne v hq⟩

theorem unitStop_port {c : CtxId} {y : Submission} {s : State} {u : UnitId} (ha : s.Accepts c unitStopDesc y) (hu : u = subUnit y)
    (hright : unitRight s.ctxs[c] y = true) (hst : (s.unit u).st ≠ .off ∧ (s.unit u).st ≠ .halted) (harg : y.arg 0 = 1) (hport : u.val < 16) :
    Does (.unitStop c y) s (fun t => s.Answered t c y (okRes 0 0) ∧ (∀ d : CtxId, d ≠ c → t.ctxs[d] = s.ctxs[d]) ∧ (∀ v : UnitId, v ≠ u → t.unit v = s.unit v) ∧
      (t.unit u) = (if (s.unit u).st = .running ∨ (s.unit u).st = .draining then { s.unit u with haltNext := true } else s.unit u) ∧
      (t.port (unitPort u)).ltg = { (s.port (unitPort u)).ltg with armed := false } ∧
      (∀ q : PortId, q ≠ unitPort u → t.port q = s.port q) ∧
      { s with ctxs := t.ctxs, bus := t.bus, jrnl := t.jrnl, units := t.units, ports := t.ports, regs := t.regs }.EventsOnly t [mgtSrc (5 * c.val), mgtSrc (5 * c.val + 1)] ∧
      s.SameRegs t (injKeys ++ [rkey u.val Off.PRT_GEAR_ARMCTL])) := by
  have hdone := unitStop_done ha hu hright hst (by omega)
  rw [harg, show decide (1 = 0) = false from rfl] at hdone
  have hw := State.stopUnit_port (s.send (s.subRead c)) hport (s.unit u).live
  generalize (s.send (s.subRead c)).stopUnit u false (s.unit u).live = w at hdone hw
  obtain ⟨hframe, hregs, hunit, hunits, hltg, hports⟩ := hw
  have hctxs : w.ctxs = s.ctxs := (congrArg State.ctxs hframe :)
  have hkeys : s.SameRegs w (injKeys ++ [rkey u.val Off.PRT_GEAR_ARMCTL]) := State.SameRegs.mono (s := s) (t := w) hregs (by simp)
  have hrings : s.SameRings w c := .of_sameRegs (by rw [hctxs]) hkeys fun off ho hm =>
    rkey_ne_of_off (by omega) (by decide) (by have : Off.PRT_GEAR_ARMCTL = 0x84030 := rfl; omega) (List.mem_singleton.1 hm)
  obtain ⟨hans, hothers⟩ := State.complete_answers hctxs hrings 0x0D y (okRes 0 0)
  have hm := State.complete_machinery w c 0x0D y (okRes 0 0)
  have htold : s.Told (w.complete c 0x0D y (okRes 0 0)) [mgtSrc (5 * c.val), mgtSrc (5 * c.val + 1)] :=
    State.Told.trans (t := w) (.of_frame _ (by rw [hframe]; rfl)) (State.complete_told w c 0x0D y (okRes 0 0))
  have hsame := hkeys.trans ((State.complete_sameRegs w c 0x0D y (okRes 0 0)).mono fun k hk => List.mem_append_left _ hk)
  refine ⟨_, hdone, hans, hothers, fun x hx => (State.unit_congr hm.units x).trans (hunits x hx), ?_, ?_,
    fun q hq => (State.port_congr hm.ports q).trans (hports q hq), ?_, hsame⟩
  · rw [State.unit_congr hm.units, hunit]
    exact if_congr (UnitSt.live_iff _) rfl rfl
  · rw [State.port_congr hm.ports, hltg]
    rfl
  · have h := htold.eventsOnly
    have hgroups : w.groups = s.groups := (congrArg State.groups hframe :)
    have haxes : w.axes = s.axes := (congrArg State.axes hframe :)
    have hmot : w.mot = s.mot := (congrArg State.mot hframe :)
    rw [hm.groups, hm.axes, hm.mot, hgroups, haxes, hmot] at h
    exact h

end Sys2Proof.Machine
end

section
/-! SUPPORT. UNIT_STOP of an axis (R311, R337, log entry 138). -/

namespace Sys2Proof.Machine

/-- The keys of the status registers of an axis and of the cut groups. -/
def stopKeys (a : AxisId) : List Nat := rkey a.val Off.MOT_STAT :: (List.finRange 4).map (fun g => rkey 0 (Off.MOT_GRP_STAT + 0x40 * g.val))

/-- The registers that such a stop leaves are those of other offsets. -/
theorem rkey_not_mem_stopKeys {a : AxisId} {u off : Nat} (ho : off < 0x800000) (hs : off ≠ Off.MOT_STAT)
    (hg : ∀ g : GroupId, off ≠ Off.MOT_GRP_STAT + 0x40 * g.val) : rkey u off ∉ stopKeys a := by
  intro hm
  rcases List.mem_cons.1 hm with h | h
  · exact rkey_ne_of_off ho (by decide) hs h
  · obtain ⟨g, -, he⟩ := List.mem_map.1 h
    have := g.isLt
    exact rkey_ne_of_off (by unfold Off.MOT_GRP_STAT; omega) ho (fun e => hg g e.symm) he

/-- A stop holds axis `a` from `v` to `w`, and its pacing units are IDLE. -/
structure State.AxisStopped (a : AxisId) (sdec : Bool) (v w : State) : Prop where
  frame : w = { v with axes := w.axes, mot := w.mot, regs := w.regs }
  regs : v.SameRegs w (stopKeys a)
  axis : w.axis a = { (v.axisStop a (sdec || v.mot.stopOn)).axis a with held := some sdec }
  axes : ∀ b : AxisId, b ≠ a → w.axis b = v.axis b
  result : (v.axis a).home.isSome = true → w.rf a.val Off.MOT_STAT 26 24 = 4
  paces : ∀ g : GroupId, v.rf 0 (Off.MOT_GRP_PACE + 0x40 * g.val) 2 0 = a.val → (w.mot.paces[g]).st = 0 ∧
    w.rf 0 (Off.MOT_GRP_STAT + 0x40 * g.val) 2 0 = if (v.mot.paces[g]).st = 0 then v.rf 0 (Off.MOT_GRP_STAT + 0x40 * g.val) 2 0 else 0
  others : ∀ g : GroupId, v.rf 0 (Off.MOT_GRP_PACE + 0x40 * g.val) 2 0 ≠ a.val → w.mot.paces[g] = v.mot.paces[g]

theorem State.stopAxis_stopped {v : State} (hm : v.MemOk) (a : AxisId) (sdec : Bool) :
    v.AxisStopped a sdec ((v.axisHold a sdec).paceLeave a) := by
  have hk := State.axisHold_frame v a sdec
  have hkm : (v.axisHold a sdec).MemOk := (State.axisHold_keeps a sdec (Keeps.refl (kc := false) v)).mem hm
  have hregs := State.axisHold_sameRegs v a sdec
  have haxis := State.axisHold_axis v a sdec
  have haxes (b : AxisId) (hb : b ≠ a) := State.axisHold_axis_ne v sdec hb
  have hresult (hh : (v.axis a).home.isSome = true) := State.axisHold_result hm hh sdec
  generalize v.axisHold a sdec = k at *
  have hw := State.paceLeave_work k a
  have hshown := State.paceLeave_shown hkm a
  generalize k.paceLeave a = w at *
  have hmot : k.mot = v.mot := (congrArg State.mot hk :)
  have hax : w.axes = k.axes := (congrArg State.axes hw.frame :)
  have hbefore (off : Nat) (ho : off < 0x800000) (hs : off ≠ Off.MOT_STAT) (hi lo : Nat) : k.rf 0 off hi lo = v.rf 0 off hi lo :=
    congrArg (fun c : RegCell => fld c.force.toNat hi lo) (hregs _ fun h => rkey_ne_of_off ho (by decide) hs (List.mem_singleton.1 h))
  have hpace (g : GroupId) : k.rf 0 (Off.MOT_GRP_PACE + 0x40 * g.val) 2 0 = v.rf 0 (Off.MOT_GRP_PACE + 0x40 * g.val) 2 0 := by
    have := g.isLt
    exact hbefore _ (by unfold Off.MOT_GRP_PACE; omega) (by unfold Off.MOT_GRP_PACE Off.MOT_STAT; omega) 2 0
  have hstat (g : GroupId) : k.rf 0 (Off.MOT_GRP_STAT + 0x40 * g.val) 2 0 = v.rf 0 (Off.MOT_GRP_STAT + 0x40 * g.val) 2 0 := by
    have := g.isLt
    exact hbefore _ (by unfold Off.MOT_GRP_STAT; omega) (by unfold Off.MOT_GRP_STAT Off.MOT_STAT; omega) 2 0
  constructor
  case frame => rw [hw.frame, hk]
  case regs => exact (hregs.mono (by simp [stopKeys])).trans (hw.regs.mono fun k hk => List.mem_cons_of_mem _ hk)
  case axis => exact (congrArg (fun x : Vector AxisSt 8 => x[a]) hax).trans haxis
  case axes => exact fun b hb => (congrArg (fun x : Vector AxisSt 8 => x[b]) hax).trans (haxes b hb)
  case result =>
    intro hh
    refine (congrArg (fun c : RegCell => fld c.force.toNat 26 24) (hw.regs _ fun h => ?_)).trans (hresult hh)
    obtain ⟨g, -, he⟩ := List.mem_map.1 h
    have := g.isLt
    exact rkey_ne_of_off (by unfold Off.MOT_GRP_STAT; omega) (by decide) (by unfold Off.MOT_GRP_STAT Off.MOT_STAT; omega) he
  case paces =>
    intro g hg
    have h := hshown g
    rw [hpace, hg, hmot] at h
    by_cases hst : (v.mot.paces[g]).st = 0
    · rw [if_neg (fun e => e.2 hst)] at h
      have hsame : w.mot.paces[g] = k.mot.paces[g] := congrArg Prod.fst h
      rw [if_pos hst, ← hstat]
      exact ⟨(congrArg PaceSt.st hsame).trans ((congrArg (fun m : MotSt => (m.paces[g]).st) hmot).trans hst), congrArg Prod.snd h⟩
    · rw [if_pos ⟨rfl, hst⟩] at h
      rw [if_neg hst]
      exact ⟨congrArg (fun x : PaceSt × Nat => x.1.st) h, congrArg Prod.snd h⟩
  case others =>
    intro g hg
    have h := hshown g
    rw [hpace, if_neg (fun e => hg e.1)] at h
    exact (congrArg Prod.fst h).trans (congrArg (fun m : MotSt => m.paces[g]) hmot)

end Sys2Proof.Machine
end

section
/-! SUPPORT. UNIT_STOP of an axis, as O11 says it. -/

namespace Sys2Proof.Machine

theorem State.send_memOk {s : State} (h : s.MemOk) (b : BusOp) : (s.send b).MemOk := (State.send_keeps b (Keeps.refl (kc := false) s)).mem h

/-- The registers of the blocks before the axes stay. -/
theorem State.AxisStopped.cell {a : AxisId} {sdec : Bool} {v w : State} (h : v.AxisStopped a sdec w) (u : Nat) {off : Nat} (ho : off < 0x100000) :
    w.cell u off = v.cell u off :=
  h.regs _ (rkey_not_mem_stopKeys (by omega) (by have : Off.MOT_STAT = 0x100080 := rfl; omega)
    (fun g => by have : Off.MOT_GRP_STAT = 0x11e010 := rfl; omega))

/-- The axis as a stop leaves it, hold aside, does not depend on anything but the axis. -/
theorem State.axisStop_axis_congr {s v : State} {a : AxisId} (h : v.axis a = s.axis a) (sdec : Bool) :
    (v.axisStop a sdec).axis a = (s.axisStop a sdec).axis a := by
  rw [State.axisStop_axis, State.axisStop_axis, h]

/-- A stop of an axis whose homing ends: the gear is released by force, and the stage comes to rest. -/
theorem AxisSt.stop_eq (x : AxisSt) (sdec : Bool) : ({ x with home := none } : AxisSt).forceRelease.stopWith sdec =
    { (if x.geared then { x with geared := false, gBase := x.gBase + x.gC, gC := 0, gVel := 0, v := x.gVel.natAbs * 2 ^ 32, s := if 0 ≤ x.gVel then 1 else -1 } else x) with
      home := none, move := .stop sdec, decel := true } := by
  unfold AxisSt.forceRelease AxisSt.stopWith
  cases hg : x.geared <;> simp [hg]

/-- A unit of an axis in UNIT_STOP. -/
theorem State.stopUnit_axis (v : State) {u : UnitId} (haxis : 16 ≤ u.val) (drain live : Bool) :
    v.stopUnit u drain live =
      if drain then v.drainUnit u else if live then (v.axisHold (axisOfUnit u) true).paceLeave (axisOfUnit u) else v := by
  have hnot : ¬ u.val < 16 := by omega
  unfold State.stopUnit
  simp only [if_neg hnot]
  cases drain <;> cases live <;> rfl

theorem State.complete_rf (w : State) (c : CtxId) (op : Nat) (y : Submission) (r : AdmRes) (u : Nat) {off : Nat} (ho : off < 0x120000) (hi lo : Nat) :
    (w.complete c op y r).rf u off hi lo = w.rf u off hi lo :=
  congrArg (fun x : RegCell => fld x.force.toNat hi lo) (State.complete_sameRegs w c op y r _ (rkey_not_mem_injKeys u ho))

/-- A live axis stops with SDEC, held from then on (R337). -/
theorem unitStop_axis {c : CtxId} {y : Submission} {s : State} {u : UnitId} (hmem : s.MemOk) (ha : s.Accepts c unitStopDesc y) (hu : u = subUnit y)
    (hright : unitRight s.ctxs[c] y = true) (hst : (s.unit u).st = .running ∨ (s.unit u).st = .draining) (harg : y.arg 0 = 1) (haxis : 16 ≤ u.val) :
    Does (.unitStop c y) s (fun t => s.Answered t c y (okRes 0 0) ∧ (∀ d : CtxId, d ≠ c → t.ctxs[d] = s.ctxs[d]) ∧ t.units = s.units ∧ t.ports = s.ports ∧ t.engs = s.engs ∧ t.groups = s.groups ∧ t.now = s.now ∧
      (let x := s.axis (axisOfUnit u)
       t.axis (axisOfUnit u) = { (if x.geared then { x with geared := false, gBase := x.gBase + x.gC, gC := 0, gVel := 0, v := x.gVel.natAbs * 2 ^ 32, s := if 0 ≤ x.gVel then 1 else -1 } else x) with
         home := none, move := .stop true, decel := true, held := some true }) ∧
      ((s.axis (axisOfUnit u)).home.isSome = true → t.rf (axisOfUnit u).val Off.MOT_STAT 26 24 = 4) ∧
      (∀ a : AxisId, a ≠ axisOfUnit u → t.axis a = s.axis a) ∧
      (∀ g : GroupId, s.rf 0 (Off.MOT_GRP_PACE + 0x40 * g.val) 2 0 = (axisOfUnit u).val → (t.mot.paces[g]).st = 0 ∧ t.rf 0 (Off.MOT_GRP_STAT + 0x40 * g.val) 2 0 = (if (s.mot.paces[g]).st = 0 then s.rf 0 (Off.MOT_GRP_STAT + 0x40 * g.val) 2 0 else 0)) ∧
      (∀ g : GroupId, s.rf 0 (Off.MOT_GRP_PACE + 0x40 * g.val) 2 0 ≠ (axisOfUnit u).val → t.mot.paces[g] = s.mot.paces[g]) ∧
      s.SameRegs t (injKeys ++ rkey (axisOfUnit u).val Off.MOT_STAT :: (List.finRange 4).map (fun g => rkey 0 (Off.MOT_GRP_STAT + 0x40 * g.val))) ∧
      { s with ctxs := t.ctxs, bus := t.bus, jrnl := t.jrnl, axes := t.axes, mot := t.mot, regs := t.regs }.EventsOnly t [mgtSrc (5 * c.val), mgtSrc (5 * c.val + 1)]) := by
  have hlive := (UnitSt.live_iff (s.unit u)).2 hst
  have hdone := unitStop_done ha hu hright (by rcases hst with h | h <;> rw [h] <;> decide) (by omega)
  rw [harg, hlive, show decide (1 = 0) = false from rfl, State.stopUnit_axis _ haxis, if_neg Bool.false_ne_true, if_pos rfl] at hdone
  have hw := State.stopAxis_stopped (State.send_memOk hmem (s.subRead c)) (axisOfUnit u) true
  generalize ((s.send (s.subRead c)).axisHold (axisOfUnit u) true).paceLeave (axisOfUnit u) = w at hdone hw
  have hframe := hw.frame
  have hctxs : w.ctxs = s.ctxs := (congrArg State.ctxs hframe :)
  have hunits : w.units = s.units := (congrArg State.units hframe :)
  have hports : w.ports = s.ports := (congrArg State.ports hframe :)
  have hgroups : w.groups = s.groups := (congrArg State.groups hframe :)
  have hrings : s.SameRings w c := ⟨by rw [hctxs], fun off ho => congrArg (fun x : RegCell => x.force.toNat) (hw.cell c.val (by omega))⟩
  obtain ⟨hans, hothers⟩ := State.complete_answers hctxs hrings 0x0D y (okRes 0 0)
  have hm := State.complete_machinery w c 0x0D y (okRes 0 0)
  have htold : s.Told (w.complete c 0x0D y (okRes 0 0)) [mgtSrc (5 * c.val), mgtSrc (5 * c.val + 1)] :=
    State.Told.trans (t := w) (.of_frame _ (by rw [hframe]; rfl)) (State.complete_told w c 0x0D y (okRes 0 0))
  have hkeys := State.complete_sameRegs w c 0x0D y (okRes 0 0)
  have hrf (n : Nat) {off : Nat} (ho : off < 0x120000) := State.complete_rf w c 0x0D y (okRes 0 0) n ho
  generalize w.complete c 0x0D y (okRes 0 0) = t at hdone hans hothers hm htold hkeys hrf
  have hax (b : AxisId) : t.axis b = w.axis b := congrArg (fun x : Vector AxisSt 8 => x[b]) hm.axes
  have hmot (g : GroupId) : t.mot.paces[g] = w.mot.paces[g] := congrArg (fun m : MotSt => m.paces[g]) hm.mot
  refine ⟨t, hdone, hans, hothers, hm.units.trans hunits, hm.ports.trans hports, hm.engs.trans (congrArg State.engs hframe :),
    hm.groups.trans hgroups, hm.now.trans (congrArg State.now hframe :), ?_, ?_, ?_, ?_, ?_, ?_, ?_⟩
  · rw [hax, hw.axis, Bool.true_or, State.axisStop_axis, AxisSt.stop_eq]
    rfl
  · intro hh
    rw [hrf _ (by decide)]
    exact hw.result hh
  · exact fun b hb => (hax b).trans (hw.axes b hb)
  · intro g hg
    have := g.isLt
    obtain ⟨h0, hs⟩ := hw.paces g hg
    rw [hmot, hrf _ (by unfold Off.MOT_GRP_STAT; omega)]
    exact ⟨h0, hs⟩
  · exact fun g hg => (hmot g).trans (hw.others g hg)
  · exact State.SameRegs.trans (t := w) (hw.regs.mono fun k hk => List.mem_append_right _ hk) (hkeys.mono fun k hk => List.mem_append_left _ hk)
  · have h := htold.eventsOnly
    rw [hm.units, hm.ports, hm.groups, hunits, hports, hgroups] at h
    exact h

/-- An axis that does not run, or with argument 1 is not live, goes on (log entry 151). -/
theorem unitStop_idleAxis {c : CtxId} {y : Submission} {s : State} {u : UnitId} (ha : s.Accepts c unitStopDesc y) (hu : u = subUnit y)
    (hright : unitRight s.ctxs[c] y = true) (hst : (s.unit u).st ≠ .off ∧ (s.unit u).st ≠ .halted ∧ (s.unit u).st ≠ .running)
    (harg : y.arg 0 = 0 ∨ (y.arg 0 = 1 ∧ (s.unit u).st ≠ .draining)) (haxis : 16 ≤ u.val) :
    Does (.unitStop c y) s (fun t => s.Answered t c y (okRes 0 0) ∧ (∀ d : CtxId, d ≠ c → t.ctxs[d] = s.ctxs[d]) ∧
      { s with ctxs := t.ctxs, bus := t.bus, jrnl := t.jrnl }.EventsOnly t [mgtSrc (5 * c.val), mgtSrc (5 * c.val + 1)]) := by
  have hdone := unitStop_done ha hu hright ⟨hst.1, hst.2.1⟩ (by omega)
  have hstay : (s.send (s.subRead c)).stopUnit u (decide (y.arg 0 = 0)) (s.unit u).live = s.send (s.subRead c) := by
    rw [State.stopUnit_axis _ haxis]
    rcases harg with h | ⟨h, hd⟩
    · rw [h]
      unfold State.drainUnit
      exact if_pos hst.2.2
    · have hlive : (s.unit u).live = false := Bool.eq_false_iff.2 fun e => ((UnitSt.live_iff _).1 e).elim hst.2.2 hd
      rw [h, hlive]
      rfl
  rw [hstay] at hdone
  obtain ⟨hans, hothers⟩ := State.complete_answers (s := s) (w := s.send (s.subRead c)) rfl (State.SameRings.send s c _) 0x0D y (okRes 0 0)
  have hm := State.complete_machinery (s.send (s.subRead c)) c 0x0D y (okRes 0 0)
  have h := ((State.complete_told (s.send (s.subRead c)) c 0x0D y (okRes 0 0)).eventsOnly_regs
    (State.complete_sameRegs (s.send (s.subRead c)) c 0x0D y (okRes 0 0)))
  rw [hm.units, hm.ports, hm.groups, hm.axes, hm.mot] at h
  exact ⟨_, hdone, hans, hothers, h⟩

end Sys2Proof.Machine
end

section
/-! SUPPORT. UNIT_STOP with argument 0: a unit that runs drains (R293, R300, R337, R375). -/

namespace Sys2Proof.Machine

theorem State.moveState_raisings {s : State} (hm : s.MemOk) {u : UnitId} (new : UState) (cause : Nat) :
    (s.moveState u new cause).raisings (unitStateSrc u) = s.raisings (unitStateSrc u) + 1 := by
  have hsrc : unitStateSrc u ≠ auxSrc 40 := by
    have := u.isLt
    unfold unitStateSrc portSrc axisSrc auxSrc
    split <;> omega
  have h := State.raise_raisings (s := s.updUnit u (fun x => ({ x with st := new, ran := x.ran || decide (new = UState.running) }).sync))
    ⟨hm.1, hm.2, hm.3, hm.4, hm.5, hm.6, hm.7, hm.8, hm.9, hm.10⟩ ((s.unit u).stateItems new cause) hsrc
  exact h

theorem unitStateSrc_ne_mgtSrc (u : UnitId) (k : Nat) : unitStateSrc u ≠ mgtSrc k := by
  have := u.isLt
  unfold unitStateSrc portSrc axisSrc mgtSrc
  split <;> omega

theorem unitStateSrc_ne_auxSrc (u : UnitId) : unitStateSrc u ≠ auxSrc 40 := by
  have := u.isLt
  unfold unitStateSrc portSrc axisSrc auxSrc
  split <;> omega

/-- An axis in no cut drains: its state changes, and a stop holds it. -/
theorem State.drainUnit_axis {v : State} {u : UnitId} (haxis : 16 ≤ u.val) (hst : (v.unit u).st = .running) (hcut : (v.unit u).cut = none) :
    v.drainUnit u = ((v.moveState u .draining 5).axisHold (axisOfUnit u) false).paceLeave (axisOfUnit u) := by
  have hnot : ¬ u.val < 16 := by omega
  have hleave : v.leaveWork u .draining = v := by
    unfold State.leaveWork State.leaveSwaps State.leaveCap State.edgeOuts
    simp only [dif_neg hnot]
  unfold State.drainUnit
  rw [if_neg (by simp [hst]), dif_neg hnot, State.setUState_uncut hcut, if_pos (.inr (.inl rfl)), hleave]
  rfl

/-- A running axis in no cut drains. -/
theorem unitStop_drainAxis {c : CtxId} {y : Submission} {s : State} {u : UnitId} (hmem : s.MemOk) (ha : s.Accepts c unitStopDesc y) (hu : u = subUnit y)
    (hright : unitRight s.ctxs[c] y = true) (hst : (s.unit u).st = .running) (hcut : (s.unit u).cut = none) (harg : y.arg 0 = 0) (haxis : 16 ≤ u.val) :
    Does (.unitStop c y) s (fun t => s.Answered t c y (okRes 0 0) ∧ (∀ d : CtxId, d ≠ c → t.ctxs[d] = s.ctxs[d]) ∧ (∀ v : UnitId, v ≠ u → t.unit v = s.unit v) ∧
      (t.unit u).st = .draining ∧ (t.unit u).slots = (s.unit u).slots ∧ (t.unit u).current = (s.unit u).current ∧
      t.axis (axisOfUnit u) = { (s.axisStop (axisOfUnit u) s.mot.stopOn).axis (axisOfUnit u) with held := some false } ∧
      (∀ a : AxisId, a ≠ axisOfUnit u → t.axis a = s.axis a) ∧
      (∀ g : GroupId, s.rf 0 (Off.MOT_GRP_PACE + 0x40 * g.val) 2 0 = (axisOfUnit u).val → (t.mot.paces[g]).st = 0) ∧
      t.raisings (unitStateSrc u) = s.raisings (unitStateSrc u) + 1 ∧ t.ports = s.ports ∧ t.engs = s.engs ∧ (∀ g : GroupId, (t.groups[g]).Same s.groups[g]) ∧ t.now = s.now) := by
  have hdone := unitStop_done ha hu hright (by rw [hst]; decide) (by omega)
  have hv := State.send_memOk hmem (s.subRead c)
  rw [harg, show decide (0 = 0) = true from rfl, State.stopUnit_axis _ haxis, if_pos rfl,
    State.drainUnit_axis (v := s.send (s.subRead c)) haxis hst hcut] at hdone
  have hd := State.moveState_frame (s.send (s.subRead c)) u .draining 5
  have hdm : ((s.send (s.subRead c)).moveState u .draining 5).MemOk := (State.moveState_keeps u .draining 5 (Keeps.refl (kc := false) _)).mem hv
  have hraised := State.moveState_raisings hv (u := u) .draining 5
  have hunit := State.moveState_unit_same (s.send (s.subRead c)) u .draining 5
  have hunits (x : UnitId) (hx : x ≠ u) := State.moveState_unit_ne (s.send (s.subRead c)) .draining 5 hx
  have hcell (n : Nat) {off : Nat} (ho : off < 0x120000) := (State.moveState_tells (s.send (s.subRead c)) u .draining 5).cell n ho
  generalize (s.send (s.subRead c)).moveState u .draining 5 = d at hdone hd hdm hraised hunit hunits hcell
  have hw := State.stopAxis_stopped hdm (axisOfUnit u) false
  generalize (d.axisHold (axisOfUnit u) false).paceLeave (axisOfUnit u) = w at hdone hw
  have hframe := hw.frame
  have hwu : w.units = d.units := (congrArg State.units hframe :)
  have hctxs : w.ctxs = s.ctxs := (congrArg State.ctxs hframe :).trans (congrArg State.ctxs hd :)
  have hrings : s.SameRings w c := ⟨by rw [hctxs], fun off ho => congrArg (fun x : RegCell => x.force.toNat)
    ((hw.cell c.val (by omega)).trans (hcell c.val (by omega)))⟩
  obtain ⟨hans, hothers⟩ := State.complete_answers hctxs hrings 0x0D y (okRes 0 0)
  have hm := State.complete_machinery w c 0x0D y (okRes 0 0)
  have hrais := State.complete_raisings w c 0x0D y (okRes 0 0) (unitStateSrc_ne_auxSrc u) (unitStateSrc_ne_mgtSrc u _) (unitStateSrc_ne_mgtSrc u _)
  generalize w.complete c 0x0D y (okRes 0 0) = t at hdone hans hothers hm hrais
  have htu (x : UnitId) : t.unit x = d.unit x := State.unit_congr (hm.units.trans hwu) x
  have hax (b : AxisId) : t.axis b = w.axis b := congrArg (fun x : Vector AxisSt 8 => x[b]) hm.axes
  have hdax (b : AxisId) : d.axis b = s.axis b := congrArg (fun x : Vector AxisSt 8 => x[b]) (congrArg State.axes hd :)
  have hdmot : d.mot = s.mot := (congrArg State.mot hd :)
  refine ⟨t, hdone, hans, hothers, fun x hx => (htu x).trans (hunits x hx), ?_, ?_, ?_, ?_, fun b hb => (hax b).trans ((hw.axes b hb).trans (hdax b)),
    ?_, ?_, ?_, ?_, fun g => ?_, ?_⟩
  · rw [htu, hunit]
    rfl
  · rw [htu, hunit]
    rfl
  · rw [htu, hunit]
    rfl
  · rw [hax, hw.axis, Bool.false_or, hdmot, State.axisStop_axis_congr (hdax _)]
  · intro g hg
    have := g.isLt
    have hpace : d.rf 0 (Off.MOT_GRP_PACE + 0x40 * g.val) 2 0 = s.rf 0 (Off.MOT_GRP_PACE + 0x40 * g.val) 2 0 :=
      congrArg (fun x : RegCell => fld x.force.toNat 2 0) (hcell 0 (by unfold Off.MOT_GRP_PACE; omega))
    exact (congrArg (fun m : MotSt => (m.paces[g]).st) hm.mot).trans (hw.paces g (hpace.trans hg)).1
  · have hwr : w.raisings (unitStateSrc u) = d.raisings (unitStateSrc u) := congrArg (mget (fun _ => 0) · _) (congrArg State.raised hframe :)
    rw [hrais, hwr, hraised]
    rfl
  · exact hm.ports.trans ((congrArg State.ports hframe :).trans (congrArg State.ports hd :))
  · exact hm.engs.trans ((congrArg State.engs hframe :).trans (congrArg State.engs hd :))
  · have hg : t.groups = s.groups := hm.groups.trans ((congrArg State.groups hframe :).trans (congrArg State.groups hd :))
    rw [hg]
    rfl
  · exact hm.now.trans ((congrArg State.now hframe :).trans (congrArg State.now hd :))

end Sys2Proof.Machine
end

section
/-! SUPPORT. UNIT_STOP with argument 0 of a port (R293, R300, R375). -/

namespace Sys2Proof.Machine

/-- A running port in no cut that begins to drain has no capture. -/
theorem State.setPortState_drain_cal {v : State} {p : PortId} (hst : (v.unit (unitOfPort p)).st = .running)
    (hcut : (v.unit (unitOfPort p)).cut = none) (cause : Nat) : ((v.setPortState p .draining cause).port p).pipe.cap = none := by
  have hset : v.setUState (unitOfPort p) .draining cause = (v.leaveWork (unitOfPort p) .draining).turn (unitOfPort p) .draining cause := by
    rw [State.setUState_uncut hcut, if_pos (.inr (.inl rfl))]
  have hcal := State.leaveWork_cal v p (new := .draining) (by rw [hst]; rfl)
  unfold State.setPortState
  dsimp only
  rw [hset]
  exact (State.dropCuts_work _ p).cal ((State.turn_work p _ _ _ _).cal hcal)

/-- A port that drains, or halts at once where it has had both drain ticks: what it leaves. -/
structure State.PortDrained (p : PortId) (v w : State) : Prop where
  st : (w.unit (unitOfPort p)).st = if (v.port p).ltg.ticked && decide ((v.port p).ltg.drains < 2) then .draining else .halted
  cal : (w.port p).pipe.cap = none
  armed : (w.port p).ltg.armed = false
  chans : w.chans = v.chans
  axes : w.axes = v.axes
  tks : w.tks = v.tks
  now : w.now = v.now
  pending : w.pending = v.pending
  ctxs : w.ctxs = v.ctxs
  host : ∀ n off, off < 0x10000 → (w.cell n off).force = (v.cell n off).force

theorem State.drainUnit_port {v : State} (hm : v.MemOk) {p : PortId} (hst : (v.unit (unitOfPort p)).st = .running)
    (hcut : (v.unit (unitOfPort p)).cut = none) : v.PortDrained p (v.drainUnit (unitOfPort p)) := by
  have hport : (unitOfPort p).val < 16 := p.isLt
  have hd := State.setPortState_work hcut .draining 5
  have hcal := State.setPortState_drain_cal hst hcut 5
  have hunit := (State.setPortState_unit hcut .draining 5).trans (State.setUState_unit_same hcut .draining 5)
  have hdrain : v.drainUnit (unitOfPort p) =
      let k := (v.setPortState p .draining 5).clearGearArm p
      if (k.port p).ltg.ticked && decide ((k.port p).ltg.drains < 2) then k else k.haltPort p 6 := by
    unfold State.drainUnit
    have hp : (⟨(unitOfPort p).val, hport⟩ : PortId) = p := rfl
    rw [if_neg (by simp [hst]), dif_pos hport, hp]
  rw [hdrain]
  generalize v.setPortState p .draining 5 = d at hd hcal hunit
  have hk := State.clearGearArm_port d p
  have hkw : d.PortWork p { d with regs := (d.clearGearArm p).regs } := State.setRf_work p d p.val 0 0 0 (by decide) (by decide)
  have hkf : d.clearGearArm p = { d with ports := (d.clearGearArm p).ports, regs := (d.clearGearArm p).regs } := rfl
  have hkm : (d.clearGearArm p).MemOk := (State.clearGearArm_keeps p (Keeps.refl (kc := false) d)).mem (hd.mem hm)
  have hkh (n off : Nat) (ho : off < 0x10000) : ((d.clearGearArm p).cell n off).force = (v.cell n off).force :=
    (hkw.host (hd.mem hm) n off ho).trans (hd.host hm n off ho)
  generalize d.clearGearArm p = k at *
  have hku : k.unit (unitOfPort p) = d.unit (unitOfPort p) := State.unit_congr (congrArg State.units hkf :) _
  have hkcut : (k.unit (unitOfPort p)).cut = none := by
    rw [hku, hunit]
    exact hcut
  have hkst : (k.unit (unitOfPort p)).st = .draining := by
    rw [hku, hunit]
    rfl
  have hkcal : (k.port p).pipe.cap = none := by
    rw [hk]
    exact hcal
  have hltg : (k.port p).ltg = { (v.port p).ltg with armed := false } := by rw [hk, hd.ltg]
  have hticks : ((k.port p).ltg.ticked && decide ((k.port p).ltg.drains < 2)) = ((v.port p).ltg.ticked && decide ((v.port p).ltg.drains < 2)) := by
    rw [hltg]
  dsimp only
  rw [hticks]
  cases hb : (v.port p).ltg.ticked && decide ((v.port p).ltg.drains < 2) with
  | true =>
    rw [if_pos rfl]
    exact {
      st := by rw [hkst, hb]; rfl
      cal := hkcal
      armed := by rw [hltg]
      chans := (congrArg State.chans hkf :).trans hd.chans
      axes := (congrArg State.axes hkf :).trans hd.axes
      tks := (congrArg State.tks hkf :).trans hd.tks
      now := (congrArg State.now hkf :).trans hd.now
      pending := (congrArg State.pending hkf :).trans hd.pending
      ctxs := (congrArg State.ctxs hkf :).trans hd.ctxs
      host := hkh }
  | false =>
    have hw := State.haltPort_work hkcut 6
    rw [if_neg Bool.false_ne_true]
    exact {
      st := by rw [State.haltPort_st hkcut, hb]; rfl
      cal := hw.cal hkcal
      armed := by rw [hw.ltg, hltg]
      chans := hw.chans.trans ((congrArg State.chans hkf :).trans hd.chans)
      axes := hw.axes.trans ((congrArg State.axes hkf :).trans hd.axes)
      tks := hw.tks.trans ((congrArg State.tks hkf :).trans hd.tks)
      now := hw.now.trans ((congrArg State.now hkf :).trans hd.now)
      pending := hw.pending.trans ((congrArg State.pending hkf :).trans hd.pending)
      ctxs := hw.ctxs.trans ((congrArg State.ctxs hkf :).trans hd.ctxs)
      host := fun n off ho => (hw.host hkm n off ho).trans (hkh n off ho) }

/-- A running port in no cut drains, or halts. -/
theorem unitStop_drainPort {c : CtxId} {y : Submission} {s : State} {u : UnitId} (hmem : s.MemOk) (ha : s.Accepts c unitStopDesc y) (hu : u = subUnit y)
    (hright : unitRight s.ctxs[c] y = true) (hst : (s.unit u).st = .running) (hcut : (s.unit u).cut = none) (harg : y.arg 0 = 0) (hport : u.val < 16) :
    Does (.unitStop c y) s (fun t => s.Answered t c y (okRes 0 0) ∧ (∀ d : CtxId, d ≠ c → t.ctxs[d] = s.ctxs[d]) ∧
      (t.unit u).st = (if (s.port (unitPort u)).ltg.ticked && (s.port (unitPort u)).ltg.drains < 2 then .draining else .halted) ∧
      (t.port (unitPort u)).pipe.cap = none ∧ (t.port (unitPort u)).ltg.armed = false ∧
      t.chans = s.chans ∧ t.axes = s.axes ∧ t.tks = s.tks ∧ t.now = s.now ∧ t.pending = s.pending) := by
  have hup : unitOfPort (unitPort u) = u := unitOfPort_unitPort hport
  have hdone := unitStop_done ha hu hright (by rw [hst]; decide) (by omega)
  have hstop : (s.send (s.subRead c)).stopUnit u (decide (y.arg 0 = 0)) (s.unit u).live =
      ((s.send (s.subRead c)).clearGearArm (unitPort u)).drainUnit (unitOfPort (unitPort u)) := by
    unfold State.stopUnit
    rw [harg, hup]
    simp only [if_pos hport]
    rfl
  rw [hstop] at hdone
  have hframe : (s.send (s.subRead c)).clearGearArm (unitPort u) =
    { s.send (s.subRead c) with ports := ((s.send (s.subRead c)).clearGearArm (unitPort u)).ports,
                                regs := ((s.send (s.subRead c)).clearGearArm (unitPort u)).regs } := rfl
  have hk := State.clearGearArm_port (s.send (s.subRead c)) (unitPort u)
  have hkm : ((s.send (s.subRead c)).clearGearArm (unitPort u)).MemOk :=
    (State.clearGearArm_keeps _ (Keeps.refl (kc := false) (s.send (s.subRead c)))).mem (State.send_memOk hmem _)
  have hkeys := State.clearGearArm_sameRegs (s.send (s.subRead c)) (unitPort u)
  generalize (s.send (s.subRead c)).clearGearArm (unitPort u) = k at *
  have hku : k.unit (unitOfPort (unitPort u)) = s.unit u := (State.unit_congr (congrArg State.units hframe :) _).trans (congrArg s.unit hup)
  have hw := State.drainUnit_port hkm (p := unitPort u) (by rw [hku]; exact hst) (by rw [hku]; exact hcut)
  generalize k.drainUnit (unitOfPort (unitPort u)) = w at hdone hw
  have hctxs : w.ctxs = s.ctxs := hw.ctxs.trans (congrArg State.ctxs hframe :)
  have hrings : s.SameRings w c := by
    refine ⟨by rw [hctxs], fun off ho => congrArg BitVec.toNat ((hw.host c.val off ho).trans (congrArg RegCell.force (hkeys _ fun h => ?_)))⟩
    exact rkey_ne_of_off (by omega) (by decide) (by have : Off.PRT_GEAR_ARMCTL = 0x84030 := rfl; omega) (List.mem_singleton.1 h)
  obtain ⟨hans, hothers⟩ := State.complete_answers hctxs hrings 0x0D y (okRes 0 0)
  have hm := State.complete_machinery w c 0x0D y (okRes 0 0)
  generalize w.complete c 0x0D y (okRes 0 0) = t at hdone hans hothers hm
  have hst' := hw.st
  rw [hup, hk] at hst'
  refine ⟨t, hdone, hans, hothers, (congrArg UnitSt.st (State.unit_congr hm.units u)).trans hst', ?_, ?_,
    hm.chans.trans (hw.chans.trans (congrArg State.chans hframe :)), hm.axes.trans (hw.axes.trans (congrArg State.axes hframe :)),
    hm.tks.trans (hw.tks.trans (congrArg State.tks hframe :)), hm.now.trans (hw.now.trans (congrArg State.now hframe :)),
    hm.pending.trans (hw.pending.trans (congrArg State.pending hframe :))⟩
  · rw [State.port_congr hm.ports]
    exact hw.cal
  · rw [State.port_congr hm.ports]
    exact hw.armed

end Sys2Proof.Machine
end

section
/-! SUPPORT. CUT_GROUP (R25, R30, log entry 152). -/

namespace Sys2Proof.Machine

/-- The description of CUT_GROUP in Table 2.7. -/
def cutGroupDesc : AdmDesc := { op := 0x10, since := 0x20, kinds := [3], slotted := false, args := [0, 1, 2] }

/-- A unit as a CUT_GROUP of group `g` that names it, or does not, leaves it. -/
def UnitSt.regroup (g : GroupId) (named : Bool) (x : UnitSt) : UnitSt :=
  { x with group := if named then some g.val else if x.group = some g.val then none else x.group }

/-- Every unit takes its place. -/
def State.regroup (s : State) (g : GroupId) (named : List UnitId) : State :=
  (List.finRange 24).foldl (fun t u => t.updUnit u (UnitSt.regroup g (named.contains u))) s

theorem State.regroup_frame (s : State) (g : GroupId) (named : List UnitId) :
    s.regroup g named = { s with units := (s.regroup g named).units } := by
  have hstep (l : List UnitId) (t : State) : l.foldl (fun t u => t.updUnit u (UnitSt.regroup g (named.contains u))) t =
      { t with units := (l.foldl (fun t u => t.updUnit u (UnitSt.regroup g (named.contains u))) t).units } := by
    induction l generalizing t with
    | nil => rfl
    | cons u l ih =>
      rw [List.foldl_cons, ih]
      rfl
  exact hstep _ s

theorem State.regroup_unit (s : State) (g : GroupId) (named : List UnitId) (u : UnitId) :
    (s.regroup g named).unit u = UnitSt.regroup g (named.contains u) (s.unit u) := by
  have h := foldl_componentwise (P := fun _ => True) (f := fun t u => State.updUnit t u (UnitSt.regroup g (named.contains u)))
    (φ := fun u t => t.unit u) (G := fun u => UnitSt.regroup g (named.contains u)) (fun _ _ h => h)
    (fun t u _ => State.updUnit_same t u _) (fun t u v _ hv => State.updUnit_ne t _ hv) (List.nodup_finRange 24) (s := s) trivial u
  rw [if_pos (List.mem_finRange u)] at h
  exact h

theorem mem_maskUnits {ports axes : Nat} {u : UnitId} :
    u ∈ maskUnits ports axes ↔ (u.val < 16 ∧ bitN ports u.val = true) ∨ (16 ≤ u.val ∧ bitN axes (u.val - 16) = true) := by
  unfold maskUnits
  rw [List.mem_filter]
  by_cases h : u.val < 16
  · simp [h]
  · simp [h]
    omega

/-- No group that holds a cut has a unit that the command takes. -/
def State.groupFree (s : State) (g : GroupId) (named : List UnitId) : Prop :=
  s.groups[g].armed = none ∧ ∀ h : GroupId, s.groups[h].armed ≠ none → ∀ u ∈ named, (s.unit u).group ≠ some h.val

theorem cutGroup_done {c : CtxId} {y : Submission} {s : State} {g : GroupId} (ha : s.Accepts c cutGroupDesc y) (hg : g = subGroup y)
    (hright : s.ctxs[c].units (maskUnits (y.arg 0) (y.arg 1) ++ s.members g.val) = true) (h0 : y.arg 0 < 2 ^ 16) (h1 : y.arg 1 < 2 ^ 8)
    (h2 : y.arg 2 < 2) (hfree : s.groupFree g (maskUnits (y.arg 0) (y.arg 1))) :
    exec (.cutGroup c y) s = .next ((((s.send (s.subRead c)).regroup g (maskUnits (y.arg 0) (y.arg 1))).updGroup g
      (fun x => { x with driveNext := some (y.arg 2 == 1) })).complete c 0x10 y (okRes 0 0)) := by
  show execCutGroup c y s = _
  unfold execCutGroup
  dsimp only
  rw [← hg]
  refine congrArg Host.Outcome.next ((State.admin_done ha (firstSome_passed ?_)).trans ?_)
  · simp only [List.mem_cons, List.not_mem_nil, or_false, forall_eq_or_imp, forall_eq]
    refine ⟨refuseIf_false (by rw [hright]; rfl) _ _, refuseIf_false (decide_eq_false (by omega)) _ _,
      refuseIf_false (decide_eq_false (by omega)) _ _, refuseIf_false (decide_eq_false (by omega)) _ _, refuseIf_false ?_ _ _⟩
    obtain ⟨hnone, hnamed⟩ := hfree
    rw [List.any_eq_false]
    intro h _ hbusy
    simp only [Bool.and_eq_true, Option.isSome_iff_ne_none, Bool.or_eq_true, beq_iff_eq, List.any_eq_true] at hbusy
    obtain ⟨harmed, he | ⟨u, hu, hgroup⟩⟩ := hbusy
    · exact harmed (he ▸ hnone)
    · exact hnamed h harmed u hu hgroup
  · refine congrArg (fun e : State × AdmRes => e.1.complete c 0x10 y e.2) (a₂ := (((s.send (s.subRead c)).regroup g
      (maskUnits (y.arg 0) (y.arg 1))).updGroup g (fun x => { x with driveNext := some (y.arg 2 == 1) }), okRes 0 0)) ?_
    have hstep : (fun (t : State) (u : UnitId) => if (maskUnits (y.arg 0) (y.arg 1)).contains u then t.updUnit u (fun x => { x with group := some g.val })
        else t.updUnit u (fun x => { x with group := if x.group = some g.val then none else x.group })) =
        fun t u => t.updUnit u (UnitSt.regroup g ((maskUnits (y.arg 0) (y.arg 1)).contains u)) := by
      funext t u
      cases (maskUnits (y.arg 0) (y.arg 1)).contains u <;> rfl
    rw [hstep]
    rfl

theorem cutGroup_does {c : CtxId} {y : Submission} {s : State} {g : GroupId} (ha : s.Accepts c cutGroupDesc y) (hg : g = subGroup y)
    (hright : s.ctxs[c].units (maskUnits (y.arg 0) (y.arg 1) ++ s.members g.val) = true) (h0 : y.arg 0 < 2 ^ 16) (h1 : y.arg 1 < 2 ^ 8)
    (h2 : y.arg 2 < 2) (hfree : s.groupFree g (maskUnits (y.arg 0) (y.arg 1))) :
    Does (.cutGroup c y) s (fun t => s.Answered t c y (okRes 0 0) ∧ (∀ d : CtxId, d ≠ c → t.ctxs[d] = s.ctxs[d]) ∧
      (∀ u : UnitId, t.unit u = { s.unit u with group := (
        if (u.val < 16 ∧ bitN (y.arg 0) u.val) ∨ (16 ≤ u.val ∧ bitN (y.arg 1) (u.val - 16)) then some g.val
        else if (s.unit u).group = some g.val then none else (s.unit u).group) }) ∧
      t.groups[g] = { s.groups[g] with driveNext := some (decide (y.arg 2 = 1)) } ∧ (∀ h : GroupId, h ≠ g → t.groups[h] = s.groups[h]) ∧
      { s with ctxs := t.ctxs, bus := t.bus, jrnl := t.jrnl, units := t.units, groups := t.groups }.EventsOnly t [mgtSrc (5 * c.val), mgtSrc (5 * c.val + 1)]) := by
  have hdone := cutGroup_done ha hg hright h0 h1 h2 hfree
  have hframe := State.regroup_frame (s.send (s.subRead c)) g (maskUnits (y.arg 0) (y.arg 1))
  have hunit (u : UnitId) := State.regroup_unit (s.send (s.subRead c)) g (maskUnits (y.arg 0) (y.arg 1)) u
  generalize (s.send (s.subRead c)).regroup g (maskUnits (y.arg 0) (y.arg 1)) = k at hdone hframe hunit
  have hsame := State.updGroup_same k g (fun x => { x with driveNext := some (y.arg 2 == 1) })
  have hne (h : GroupId) (hh : h ≠ g) := State.updGroup_ne k (fun x => { x with driveNext := some (y.arg 2 == 1) }) hh
  have hwf : k.updGroup g (fun x => { x with driveNext := some (y.arg 2 == 1) }) =
    { k with groups := (k.updGroup g (fun x => { x with driveNext := some (y.arg 2 == 1) })).groups } := rfl
  generalize k.updGroup g (fun x => { x with driveNext := some (y.arg 2 == 1) }) = w at hdone hsame hne hwf
  have hctxs : w.ctxs = s.ctxs := (congrArg State.ctxs hwf :).trans (congrArg State.ctxs hframe :)
  have hregs : w.regs = s.regs := (congrArg State.regs hwf :).trans (congrArg State.regs hframe :)
  have hrings : s.SameRings w c := ⟨by rw [hctxs], fun off _ => by unfold State.eff State.cell; rw [hregs]⟩
  have htold : s.Told (w.complete c 0x10 y (okRes 0 0)) [mgtSrc (5 * c.val), mgtSrc (5 * c.val + 1)] :=
    State.Told.trans (t := w) (.of_frame _ (by rw [hwf, hframe]; rfl)) (State.complete_told w c 0x10 y (okRes 0 0))
  have hkeys : s.SameRegs (w.complete c 0x10 y (okRes 0 0)) injKeys :=
    (State.SameRegs.of_regs hregs _).trans (State.complete_sameRegs w c 0x10 y (okRes 0 0))
  obtain ⟨hans, hothers⟩ := State.complete_answers hctxs hrings 0x10 y (okRes 0 0)
  have hm := State.complete_machinery w c 0x10 y (okRes 0 0)
  generalize w.complete c 0x10 y (okRes 0 0) = t at hdone hans hothers hm htold hkeys
  have hkg (h : GroupId) : k.groups[h] = s.groups[h] := congrArg (fun x : Vector Group 4 => x[h]) (congrArg State.groups hframe :)
  have htg (h : GroupId) : t.groups[h] = w.groups[h] := congrArg (fun x : Vector Group 4 => x[h]) hm.groups
  refine ⟨t, hdone, hans, hothers, fun u => ?_, ?_, fun h hh => (htg h).trans ((hne h hh).trans (hkg h)), ?_⟩
  · have htu : t.unit u = k.unit u := State.unit_congr (hm.units.trans (congrArg State.units hwf :)) u
    have hnamed : (maskUnits (y.arg 0) (y.arg 1)).contains u = true ↔ _ := List.contains_iff_mem.trans mem_maskUnits
    rw [htu, hunit, UnitSt.regroup, if_congr hnamed rfl rfl]
    rfl
  · rw [htg, hsame, hkg]
    rfl
  · have h := htold.eventsOnly_regs hkeys
    have hports : w.ports = s.ports := (congrArg State.ports hwf :).trans (congrArg State.ports hframe :)
    have haxes : w.axes = s.axes := (congrArg State.axes hwf :).trans (congrArg State.axes hframe :)
    have hmot : w.mot = s.mot := (congrArg State.mot hwf :).trans (congrArg State.mot hframe :)
    rw [hm.ports, hm.axes, hm.mot, hports, haxes, hmot] at h
    exact h

end Sys2Proof.Machine
end

section
/-! SUPPORT. What the changes of units and their cuts leave (R28, R251, R375). -/

namespace Sys2Proof.Machine

theorem Group.Same.refl (x : Group) : x.Same x := rfl

theorem Group.Same.trans {x y z : Group} (h : x.Same y) (k : y.Same z) : x.Same z := Eq.trans h k

/-- A member that holds no cut back any more changes only which cuts are complete. -/
theorem Group.started_same (x : Group) (u : UnitId) : (x.started u).Same x := by
  unfold Group.started Group.startedBut
  split <;> rfl

/-- From `s` to `t` units, their groups' complete cuts, registers of the keys `ks` and what the raising of `srcs` can change may change. -/
structure State.UnitsTold (s t : State) (srcs ks : List Nat) : Prop where
  told : s.Told t srcs
  ctxs : t.ctxs = s.ctxs
  ports : t.ports = s.ports
  axes : t.axes = s.axes
  mot : t.mot = s.mot
  regs : s.SameRegs t (injKeys ++ ks)
  groups : ∀ h : GroupId, (t.groups[h]).Same s.groups[h]

theorem State.UnitsTold.refl (s : State) (srcs ks : List Nat) : s.UnitsTold s srcs ks :=
  ⟨.refl s srcs, rfl, rfl, rfl, rfl, fun _ _ => rfl, fun _ => rfl⟩

theorem State.UnitsTold.trans {s t w : State} {srcs ks : List Nat} (h : s.UnitsTold t srcs ks) (k : t.UnitsTold w srcs ks) : s.UnitsTold w srcs ks :=
  ⟨h.told.trans k.told, k.ctxs.trans h.ctxs, k.ports.trans h.ports, k.axes.trans h.axes, k.mot.trans h.mot, h.regs.trans k.regs,
    fun g => (k.groups g).trans (h.groups g)⟩

theorem State.UnitsTold.mono {s t : State} {srcs srcs' ks : List Nat} (h : s.UnitsTold t srcs ks) (hs : ∀ k ∈ srcs, k ∈ srcs') : s.UnitsTold t srcs' ks :=
  ⟨h.told.mono hs, h.ctxs, h.ports, h.axes, h.mot, h.regs, h.groups⟩

theorem State.updUnit_told (s : State) (u : UnitId) (f : UnitSt → UnitSt) (srcs ks : List Nat) : s.UnitsTold (s.updUnit u f) srcs ks :=
  ⟨.of_frame srcs rfl, rfl, rfl, rfl, rfl, fun _ _ => rfl, fun _ => rfl⟩

theorem State.moveState_told (s : State) (u : UnitId) (new : UState) (cause : Nat) (ks : List Nat) :
    s.UnitsTold (s.moveState u new cause) [unitStateSrc u] ks := by
  have h := State.moveState_tells s u new cause
  have hf := State.moveState_frame s u new cause
  have hg : (s.moveState u new cause).groups = s.groups := (congrArg State.groups hf :)
  exact ⟨.trans (t := s.updUnit u (UnitSt.moved · new)) (.of_frame _ rfl) (.of_tells h), (congrArg State.ctxs hf :), (congrArg State.ports hf :),
    (congrArg State.axes hf :), (congrArg State.mot hf :), h.2.1.mono fun k hk => List.mem_append_left ks hk, fun g => by rw [hg]; rfl⟩

theorem State.putBack_told (s : State) (u : UnitId) (srcs : List Nat) {ks : List Nat} (hk : ∀ e ∈ (s.unit u).due, rkey (unitIndex u) e.1 ∈ ks) :
    s.UnitsTold (s.putBack u) srcs ks := by
  have hf := State.putBack_frame s u
  have hg : (s.putBack u).groups = s.groups := (congrArg State.groups hf :)
  refine ⟨.of_frame srcs (hf.trans (by rw [hf])), (congrArg State.ctxs hf :), (congrArg State.ports hf :), (congrArg State.axes hf :),
    (congrArg State.mot hf :), fun k hn => ?_, fun g => by rw [hg]; rfl⟩
  exact (restage_step u).foldl_other _ s fun e he heq => hn (List.mem_append_right _ (heq ▸ hk e he))

theorem State.cutStarted_told (s : State) (u : UnitId) (srcs ks : List Nat) : s.UnitsTold (s.cutStarted u) srcs ks := by
  refine ⟨.of_frame srcs rfl, rfl, rfl, rfl, rfl, fun _ _ => rfl, fun g => ?_⟩
  show ((s.groups.map (fun x : Group => x.started u))[g.val]).Same _
  rw [Vector.getElem_map]
  exact Group.started_same _ u

/-- A fold of steps that each tell no more, as long as `P` holds. -/
theorem State.UnitsTold.foldl {α : Type} {P : State → Prop} {f : State → α → State} {srcs ks : List Nat} {l : List α} {s : State} (hs : P s)
    (hP : ∀ t a, P t → P (f t a)) (h : ∀ t, ∀ a ∈ l, P t → t.UnitsTold (f t a) srcs ks) : s.UnitsTold (l.foldl f s) srcs ks := by
  induction l generalizing s with
  | nil => exact .refl s srcs ks
  | cons a l ih =>
    exact (h s a List.mem_cons_self hs).trans (ih (hP s a hs) fun t b hb => h t b (List.mem_cons_of_mem _ hb))

/-! ### A cut that is taken away -/

/-- A unit whose cut is taken away. -/
def UnitSt.disarmed (x : UnitSt) : UnitSt :=
  let y := ({ x with cut := none } : UnitSt).unarmed.sync
  if x.st = .armed then { y.moved (if x.ran then .halted else .loaded) with due := [] } else y

theorem UnitSt.unarmed_due (x : UnitSt) : x.unarmed.due = x.due := by
  unfold UnitSt.unarmed
  split_ifs <;> rfl

theorem UnitSt.disarmed_fields (x : UnitSt) : x.disarmed.cut = none ∧ x.disarmed.current = x.current ∧ x.disarmed.committed = x.committed ∧
    x.disarmed.st = (if x.st = .armed then (if x.ran then .halted else .loaded) else x.st) ∧ (x.disarmed.due = x.due ∨ x.disarmed.due = []) := by
  unfold UnitSt.disarmed UnitSt.unarmed UnitSt.moved UnitSt.sync
  split_ifs <;> exact ⟨rfl, rfl, rfl, by simp_all, by simp⟩

theorem State.unarmUnit_unit_same (s : State) (v : UnitId) : (s.unarmUnit v).unit v = (s.unit v).disarmed := by
  have hu := State.updUnit_same s v (fun x => ({ x with cut := none }).unarmed.sync)
  rw [State.unarmUnit_eq]
  unfold UnitSt.disarmed
  split_ifs with harmed hran
  · refine (State.turn_unit_same _ v .halted 3).trans ?_
    rw [hu]
    rfl
  · refine (State.turn_unit_same _ v .loaded 3).trans ?_
    rw [hu]
    rfl
  · exact hu

theorem State.turn_told (s : State) (u : UnitId) (new : UState) (cause : Nat) {ks : List Nat}
    (hk : ∀ e ∈ (s.unit u).due, rkey (unitIndex u) e.1 ∈ ks) : s.UnitsTold (s.turn u new cause) [unitStateSrc u] ks := by
  have h := State.moveState_told s u new cause ks
  unfold State.turn
  split_ifs
  · refine h.trans (State.putBack_told _ u _ fun e he => hk e ?_)
    rw [State.moveState_unit_same] at he
    exact he
  · exact h

theorem State.unarmUnit_told (s : State) (v : UnitId) {ks : List Nat} (hk : ∀ e ∈ (s.unit v).due, rkey (unitIndex v) e.1 ∈ ks) :
    s.UnitsTold (s.unarmUnit v) [unitStateSrc v] ks := by
  have hu := State.updUnit_same s v (fun x => ({ x with cut := none }).unarmed.sync)
  have h := State.updUnit_told s v (fun x => ({ x with cut := none }).unarmed.sync) [unitStateSrc v] ks
  rw [State.unarmUnit_eq]
  split
  · refine (h.trans (State.turn_told _ v _ 3 fun e he => hk e ?_)).trans (State.cutStarted_told _ v _ ks)
    rw [hu] at he
    have he : e ∈ ({ s.unit v with cut := none } : UnitSt).unarmed.due := he
    rw [UnitSt.unarmed_due] at he
    exact he
  · exact h

/-! ### The cut of a group that is disarmed -/

/-- One unit where the cut of group `g` is disarmed. -/
def State.disarmOne (g : GroupId) (s : State) (v : UnitId) : State :=
  if (s.unit v).cut.map (fun c => c.group) = some g.val then s.unarmUnit v else s

theorem State.disarm_eq (s : State) (g : GroupId) :
    s.disarm g = (List.finRange 24).foldl (State.disarmOne g) (s.updGroup g (fun x => { x with armed := none, left := [] })) := rfl

theorem State.disarmOne_unit_same (s : State) (g : GroupId) (v : UnitId) :
    (s.disarmOne g v).unit v = if (s.unit v).cut.map (fun c => c.group) = some g.val then (s.unit v).disarmed else s.unit v := by
  unfold State.disarmOne
  split_ifs
  · exact State.unarmUnit_unit_same s v
  · rfl

theorem State.disarmOne_unit_ne (s : State) (g : GroupId) {u v : UnitId} (h : u ≠ v) : (s.disarmOne g v).unit u = s.unit u := by
  unfold State.disarmOne
  split_ifs
  · exact State.unarmUnit_unit_ne s h
  · rfl

/-- The units after it. -/
theorem State.disarm_unit_eq (s : State) (g : GroupId) (u : UnitId) :
    (s.disarm g).unit u = if (s.unit u).cut.map (fun c => c.group) = some g.val then (s.unit u).disarmed else s.unit u := by
  have h := foldl_componentwise (P := fun _ => True) (f := State.disarmOne g) (φ := fun u t => t.unit u)
    (G := fun _ x => if x.cut.map (fun c => c.group) = some g.val then x.disarmed else x) (fun _ _ h => h)
    (fun t v _ => State.disarmOne_unit_same t g v) (fun t v u _ hu => State.disarmOne_unit_ne t g hu) (List.nodup_finRange 24)
    (s := s.updGroup g (fun x => { x with armed := none, left := [] })) trivial u
  rw [if_pos (List.mem_finRange u)] at h
  exact h

/-- The keys of the registers whose CUT values wait. -/
def State.dueKeys (s : State) : List Nat := (List.finRange 24).flatMap (fun u => (s.unit u).due.map (fun e => rkey (unitIndex u) e.1))

theorem State.mem_dueKeys {s : State} {u : UnitId} {e : Nat × Word × Word} (h : e ∈ (s.unit u).due) : rkey (unitIndex u) e.1 ∈ s.dueKeys :=
  List.mem_flatMap.2 ⟨u, List.mem_finRange u, List.mem_map.2 ⟨e, h, rfl⟩⟩

/-- What the disarming of a group's cut tells, but for the group itself. -/
theorem State.disarm_told (s : State) (g : GroupId) :
    (s.updGroup g (fun x => { x with armed := none, left := [] })).UnitsTold (s.disarm g) ((List.finRange 24).map unitStateSrc) s.dueKeys := by
  rw [State.disarm_eq]
  refine State.UnitsTold.foldl (P := fun t => ∀ v, (t.unit v).due = (s.unit v).due ∨ (t.unit v).due = []) (fun v => .inl rfl) (fun t v ht u => ?_)
    fun t v _ ht => ?_
  · by_cases huv : u = v
    · subst huv
      rw [State.disarmOne_unit_same]
      split_ifs
      · obtain ⟨-, -, -, -, hdue⟩ := UnitSt.disarmed_fields (t.unit u)
        exact hdue.elim (fun e => e ▸ ht u) .inr
      · exact ht u
    · rw [State.disarmOne_unit_ne t g huv]
      exact ht u
  · unfold State.disarmOne
    split_ifs
    · refine (State.unarmUnit_told t v fun e he => ?_).mono (by simp)
      rcases ht v with h | h
      · exact State.mem_dueKeys (h ▸ he)
      · rw [h] at he
        cases he
    · exact .refl t _ _

end Sys2Proof.Machine
end

section
/-! SUPPORT. CUT_DISARM (R28, R29, log entry 152). -/

namespace Sys2Proof.Machine

/-- The description of CUT_DISARM in Table 2.7. -/
def cutDisarmDesc : AdmDesc := { op := 0x12, since := 0x20, kinds := [3], slotted := false, args := [] }

theorem cutDisarm_done {c : CtxId} {y : Submission} {s : State} {g : GroupId} (ha : s.Accepts c cutDisarmDesc y) (hg : g = subGroup y)
    (hright : s.ctxs[c].units (s.members g.val) = true) (harmed : s.groups[g].armed ≠ none) (hleft : s.groups[g].left = []) :
    exec (.cutDisarm c y) s = .next (((s.send (s.subRead c)).disarm g).complete c 0x12 y (okRes 0 0)) := by
  subst hg
  show execCutDisarm c y s = _
  unfold execCutDisarm
  dsimp only
  have hsome : s.groups[subGroup y].armed.isNone = false := by
    rw [Option.isNone_eq_false_iff, Option.isSome_iff_ne_none]
    exact harmed
  refine congrArg Host.Outcome.next ((State.admin_done ha (firstSome_passed ?_)).trans ?_)
  · simp only [List.mem_cons, List.not_mem_nil, or_false, forall_eq_or_imp, forall_eq]
    exact ⟨refuseIf_false (by rw [hright]; rfl) _ _, refuseIf_false (by rw [hsome, hleft]; rfl) _ _⟩
  · dsimp only [cutDisarmDesc]

theorem cutDisarm_does {c : CtxId} {y : Submission} {s : State} {g : GroupId} (hmem : s.MemOk) (ha : s.Accepts c cutDisarmDesc y) (hg : g = subGroup y)
    (hright : s.ctxs[c].units (s.members g.val) = true) (harmed : s.groups[g].armed ≠ none) (hleft : s.groups[g].left = []) :
    Does (.cutDisarm c y) s (fun t => s.Answered t c y (okRes 0 0) ∧ (∀ d : CtxId, d ≠ c → t.ctxs[d] = s.ctxs[d]) ∧
      (∀ u : UnitId, (s.unit u).cut.map (fun c => c.group) = some g.val →
        (t.unit u).cut = none ∧ (t.unit u).current = (s.unit u).current ∧ (t.unit u).committed = (s.unit u).committed ∧
        (t.unit u).st = (if (s.unit u).st = .armed then (if (s.unit u).ran then .halted else .loaded) else (s.unit u).st)) ∧
      (∀ u : UnitId, (s.unit u).cut.map (fun c => c.group) ≠ some g.val → t.unit u = s.unit u) ∧
      (t.groups[g]).Same { s.groups[g] with armed := none, left := [] } ∧ (∀ h : GroupId, h ≠ g → (t.groups[h]).Same s.groups[h]) ∧
      (let due := (List.finRange 24).flatMap (fun u => (s.unit u).due.map (fun e => rkey (unitIndex u) e.1))
       s.SameRegs t (injKeys ++ due) ∧
       { s with ctxs := t.ctxs, bus := t.bus, jrnl := t.jrnl, units := t.units, groups := t.groups, regs := t.regs }.EventsOnly t
         ([mgtSrc (5 * c.val), mgtSrc (5 * c.val + 1)] ++ (List.finRange 24).map unitStateSrc))) := by
  have hdone := cutDisarm_done ha hg hright harmed hleft
  have hw := State.disarm_told (s.send (s.subRead c)) g
  have hwork := State.disarm_work 0 (s.send (s.subRead c)) g
  have hunit (u : UnitId) := State.disarm_unit_eq (s.send (s.subRead c)) g u
  have hsame := State.updGroup_same (s.send (s.subRead c)) g (fun x => { x with armed := none, left := [] })
  have hne (h : GroupId) (hh : h ≠ g) := State.updGroup_ne (s.send (s.subRead c)) (fun x => { x with armed := none, left := [] }) hh
  have hgf : (s.send (s.subRead c)).updGroup g (fun x => { x with armed := none, left := [] }) =
    { s.send (s.subRead c) with groups := ((s.send (s.subRead c)).updGroup g (fun x => { x with armed := none, left := [] })).groups } := rfl
  generalize (s.send (s.subRead c)).disarm g = w at hdone hw hwork hunit
  generalize (s.send (s.subRead c)).updGroup g (fun x => { x with armed := none, left := [] }) = k at hw hsame hne hgf
  have hctxs : w.ctxs = s.ctxs := hwork.ctxs
  have hrings : s.SameRings w c := ⟨by rw [hctxs], fun off ho => congrArg BitVec.toNat (hwork.host (State.send_memOk hmem _) c.val off ho)⟩
  obtain ⟨hans, hothers⟩ := State.complete_answers hctxs hrings 0x12 y (okRes 0 0)
  have hm := State.complete_machinery w c 0x12 y (okRes 0 0)
  have htold : s.Told (w.complete c 0x12 y (okRes 0 0)) ([mgtSrc (5 * c.val), mgtSrc (5 * c.val + 1)] ++ (List.finRange 24).map unitStateSrc) :=
    (State.Told.trans (t := k) (.of_frame _ (by rw [hgf]; rfl)) (hw.told.mono fun n hn => List.mem_append_right _ hn)).trans
      ((State.complete_told w c 0x12 y (okRes 0 0)).mono fun n hn => List.mem_append_left _ hn)
  have hkregs : k.regs = s.regs := (congrArg State.regs hgf :)
  have hkeys : s.SameRegs (w.complete c 0x12 y (okRes 0 0)) (injKeys ++ s.dueKeys) :=
    ((State.SameRegs.of_regs hkregs _).trans hw.regs).trans ((State.complete_sameRegs w c 0x12 y (okRes 0 0)).mono fun n hn => List.mem_append_left _ hn)
  generalize w.complete c 0x12 y (okRes 0 0) = t at hdone hans hothers hm htold hkeys
  have htu (u : UnitId) : t.unit u = w.unit u := State.unit_congr hm.units u
  have htg (h : GroupId) : t.groups[h] = w.groups[h] := congrArg (fun x : Vector Group 4 => x[h]) hm.groups
  refine ⟨t, hdone, hans, hothers, fun u hu => ?_, fun u hu => ?_, ?_, fun h hh => ?_, hkeys, ?_⟩
  · obtain ⟨hcut, hcurrent, hcommitted, hst, -⟩ := UnitSt.disarmed_fields (s.unit u)
    have hd : t.unit u = (s.unit u).disarmed := (htu u).trans ((hunit u).trans (if_pos hu))
    rw [hd]
    exact ⟨hcut, hcurrent, hcommitted, hst⟩
  · exact (htu u).trans ((hunit u).trans (if_neg hu))
  · have h := hw.groups g
    rw [← htg, hsame] at h
    exact h
  · have h := hw.groups h
    rw [← htg, hne _ hh] at h
    exact h
  · have h := htold.eventsOnly
    have hports : w.ports = s.ports := hw.ports.trans (congrArg State.ports hgf :)
    have haxes : w.axes = s.axes := hw.axes.trans (congrArg State.axes hgf :)
    have hmot : w.mot = s.mot := hw.mot.trans (congrArg State.mot hgf :)
    rw [hm.ports, hm.axes, hm.mot, hports, haxes, hmot] at h
    exact h

end Sys2Proof.Machine
end

section
/-! SUPPORT. CUT_ARM (R27 to R29, R82, R298, R303, log entries 109 and 152). -/

namespace Sys2Proof.Machine

/-- A unit that waits for a cut that has not fired changes its state as one in no cut does, but for what it holds back. -/
theorem State.setUState_unfired {s : State} {u : UnitId} {x : CutDue} (hcut : (s.unit u).cut = some x) (hx : x.reached = false) (new : UState)
    (cause : Nat) : s.setUState u new cause = (s.leaveWork u new).turn u new cause := by
  have hunit : (s.leaveWork u new).unit u = s.unit u := State.unit_congr (State.leaveWork_units s u new) u
  have hsome : (((s.leaveWork u new).turn u new cause).unit u).cut = some x := by
    rw [State.turn_unit_same, hunit]
    exact hcut
  unfold State.turn State.leaveWork at hsome ⊢
  unfold State.setUState
  dsimp only
  rw [hsome]
  exact if_neg (by simp [hx])

/-- A member of the group as the arming of cut `x` leaves it. -/
def UnitSt.armedFor (x : CutDue) (y : UnitSt) : UnitSt :=
  let z := ({ y with cut := some x } : UnitSt).sync
  if y.st = .loaded ∨ y.st = .halted then z.moved .armed else z

theorem UnitSt.armedFor_fields (x : CutDue) (y : UnitSt) : (y.armedFor x).cut = some x ∧ (y.armedFor x).current = y.current ∧
    (y.armedFor x).committed = y.committed ∧ (y.armedFor x).st = (if y.st = .loaded ∨ y.st = .halted then .armed else y.st) := by
  unfold UnitSt.armedFor
  dsimp only
  split_ifs <;> exact ⟨rfl, rfl, rfl, rfl⟩

/-- One member waits for cut `x`; one that does not run is ARMED (Table 15.2 cause 2). -/
def State.armOne (x : CutDue) (s : State) (u : UnitId) : State :=
  let t := s.updUnit u (fun y => ({ y with cut := some x } : UnitSt).sync)
  if (t.unit u).st = .loaded ∨ (t.unit u).st = .halted then t.setUState u .armed 2 else t

theorem State.armOne_eq {x : CutDue} (hx : x.reached = false) (s : State) (u : UnitId) :
    s.armOne x u = if (s.unit u).st = .loaded ∨ (s.unit u).st = .halted then
        (s.updUnit u (fun y => ({ y with cut := some x } : UnitSt).sync)).turn u .armed 2
      else s.updUnit u (fun y => ({ y with cut := some x } : UnitSt).sync) := by
  have hu := State.updUnit_same s u (fun y => ({ y with cut := some x } : UnitSt).sync)
  have hst : ((s.updUnit u (fun y => ({ y with cut := some x } : UnitSt).sync)).unit u).st = (s.unit u).st := by
    rw [hu]
    rfl
  have hcut : ((s.updUnit u (fun y => ({ y with cut := some x } : UnitSt).sync)).unit u).cut = some x := by
    rw [hu]
    rfl
  unfold State.armOne
  dsimp only
  rw [hst]
  split_ifs with h
  · rw [State.setUState_unfired hcut hx, State.leaveWork_of_idle _ u (by rw [hst]; rcases h with h | h <;> rw [h] <;> rfl) (by decide)]
  · rfl

theorem State.armOne_unit_same {x : CutDue} (hx : x.reached = false) (s : State) (u : UnitId) :
    (s.armOne x u).unit u = (s.unit u).armedFor x := by
  have hu := State.updUnit_same s u (fun y => ({ y with cut := some x } : UnitSt).sync)
  rw [State.armOne_eq hx]
  unfold UnitSt.armedFor
  split_ifs
  · refine (State.turn_unit_same _ u .armed 2).trans ?_
    rw [hu]
    rfl
  · exact hu

theorem State.armOne_unit_ne {x : CutDue} (hx : x.reached = false) (s : State) {u v : UnitId} (h : v ≠ u) : (s.armOne x u).unit v = s.unit v := by
  have hu := State.updUnit_ne s (fun y => ({ y with cut := some x } : UnitSt).sync) h
  rw [State.armOne_eq hx]
  split_ifs
  · exact (State.turn_unit_ne _ .armed 2 h).trans hu
  · exact hu

theorem State.armOne_told {x : CutDue} (hx : x.reached = false) (s : State) (u : UnitId) : s.UnitsTold (s.armOne x u) [unitStateSrc u] [] := by
  have h := State.updUnit_told s u (fun y => ({ y with cut := some x } : UnitSt).sync) [unitStateSrc u] []
  rw [State.armOne_eq hx]
  split_ifs
  · unfold State.turn
    rw [if_neg (by decide)]
    exact h.trans (State.moveState_told _ u .armed 2 [])
  · exact h

/-- The cut that member `u` waits for. -/
def cutFor (g : GroupId) (kind ref : Nat) (value : Int) (slot : UnitId → Nat) (u : UnitId) : CutDue :=
  { group := g.val, kind := kind, ref := ref, value := value, slot := slot u, reached := false }

theorem State.armCut_eq (s : State) (g : GroupId) (kind ref : Nat) (value : Int) (slot : UnitId → Nat) (ms : List UnitId) :
    s.armCut g kind ref value (ms.map (fun u => (u, slot u))) =
      ms.foldl (fun t u => t.armOne (cutFor g kind ref value slot u) u) (s.updGroup g (fun x => { x with armed := some (kind, ref, value), left := [] })) := by
  unfold State.armCut
  rw [List.foldl_map]
  rfl

theorem State.armCut_unit (s : State) (g : GroupId) (kind ref : Nat) (value : Int) (slot : UnitId → Nat) {ms : List UnitId} (hms : ms.Nodup)
    (u : UnitId) : (s.armCut g kind ref value (ms.map (fun u => (u, slot u)))).unit u =
      if u ∈ ms then (s.unit u).armedFor (cutFor g kind ref value slot u) else s.unit u := by
  rw [State.armCut_eq]
  exact foldl_componentwise (P := fun _ => True) (f := fun t u => State.armOne (cutFor g kind ref value slot u) t u) (φ := fun u t => t.unit u)
    (G := fun u x => x.armedFor (cutFor g kind ref value slot u)) (fun _ _ h => h) (fun t u _ => State.armOne_unit_same rfl t u)
    (fun t u v _ hv => State.armOne_unit_ne rfl t hv) hms (s := s.updGroup g (fun x => { x with armed := some (kind, ref, value), left := [] })) trivial u

theorem State.armCut_told (s : State) (g : GroupId) (kind ref : Nat) (value : Int) (slot : UnitId → Nat) (ms : List UnitId) :
    (s.updGroup g (fun x => { x with armed := some (kind, ref, value), left := [] })).UnitsTold
      (s.armCut g kind ref value (ms.map (fun u => (u, slot u)))) (ms.map unitStateSrc) [] := by
  rw [State.armCut_eq]
  exact State.UnitsTold.foldl (P := fun _ => True) trivial (fun _ _ h => h)
    fun t u hu _ => (State.armOne_told rfl t u).mono (by simpa using ⟨u, hu, rfl⟩)

theorem State.members_nodup (s : State) (g : Nat) : (s.members g).Nodup := (List.nodup_finRange 24).filter _

end Sys2Proof.Machine
end

section
/-! SUPPORT. The checks of CUT_ARM, and what O11 says. -/

namespace Sys2Proof.Machine

/-- The description of CUT_ARM in Table 2.7. -/
def cutArmDesc : AdmDesc := { op := 0x11, since := 0x20, kinds := [3], slotted := false, args := [0, 1, 2, 3, 4, 5, 6] }

/-- The slot that a CUT_ARM makes member `u` take. -/
def State.armSlotOf (s : State) (y : Submission) (u : UnitId) : Nat := (s.armSlot y u).getD 0

/-- A member that a CUT_ARM accepts (R27, R79, R82, R177, R299). -/
structure State.ArmableMember (s : State) (y : Submission) (u : UnitId) : Prop where
  st : (s.unit u).st = .running ∨ (s.unit u).st = .loaded ∨ (s.unit u).st = .halted ∨ (s.unit u).st = .armed
  slot : (s.armSlot y u).isSome = true
  passes : s.slotRefused u (s.armSlotOf y u) = false
  cycles : s.cyclesOk u (s.armSlotOf y u) (s.fut u (s.armSlotOf y u) Off.PRT_LTG_PMIN) = true
  writing : u.val < 16 → s.computing (unitPort u) 0 (fld (s.fut u (s.armSlotOf y u) Off.PIP_TBLSEL) 0 0) = false ∧
    s.computing (unitPort u) 1 (fld (s.fut u (s.armSlotOf y u) Off.PIP_TBLSEL) 1 1) = false
  running : u.val < 16 → (s.unit u).st = .running →
    ratioDir (s.futRatio (unitPort u) (s.armSlotOf y u)).1 (s.futRatio (unitPort u) (s.armSlotOf y u)).2 =
      ratioDir (s.port (unitPort u)).ltg.num (s.port (unitPort u)).ltg.den ∧
    (s.slotProg (pipeEng (unitPort u)) ((s.unit u).current.getD 0)).declared ≤ cyclesAvail 1 (s.fut u (s.armSlotOf y u) Off.PRT_LTG_PMIN)

/-- The trigger that a CUT_ARM names (R27, R298, log entry 109). -/
structure State.ArmableTrigger (s : State) (c : CtxId) (y : Submission) (g : GroupId) : Prop where
  kind : y.arg 0 = 0 ∨ (0x30 ≤ s.ctxs[c].zhp ∧ y.arg 0 ≤ 2 ∧ 0 < sext48 (sgn 48 (y.arg64 2) - s.master (y.arg 0 - 1)))
  line : y.arg 0 = 0 → y.arg 1 < 16 ∧ uid (y.arg 1) ∈ s.members g.val ∧ (s.unit (uid (y.arg 1))).st = .running ∧
    (s.port (unitPort (uid (y.arg 1)))).ltg.h < (y.arg64 2 : Int) ∧ y.arg64 2 < 2 ^ 48

/-- A group in drive mode that a CUT_ARM accepts (R303, R306). -/
def State.ArmableDrive (s : State) (y : Submission) (g : GroupId) : Prop :=
  s.groups[g].driveNext.getD s.groups[g].drive = true →
    unitOfAxis ⟨fld (s.grpFuture g Off.MOT_GRP_PACE) 2 0 % 8, Nat.mod_lt _ (by decide)⟩ ∈ s.members g.val ∧
    4 ≤ fld (s.grpFuture g Off.MOT_GRP_PACE) 22 16 ∧ fld (s.grpFuture g Off.MOT_GRP_PACE) 22 16 ≤ 64 ∧
    s.paceCheck g (s.grpFuture g) (fun w off => if (s.members g.val).contains w then s.fut w (s.armSlotOf y w) off else s.eff (unitIndex w) off)
      (fun p => s.futRatio p (s.armSlotOf y (unitOfPort p))) = ([], false, true)

/-- The position of the trigger. -/
def armValue (y : Submission) : Int := if y.arg 0 = 0 then y.arg64 2 else sgn 48 (y.arg64 2)

theorem State.ArmableMember.state_passes {s : State} {y : Submission} {u : UnitId} (h : s.ArmableMember y u) :
    (!((s.unit u).st == .running || (s.unit u).st == .loaded || (s.unit u).st == .halted || (s.unit u).st == .armed) ||
      (decide (u.val < 16) && (s.armSlot y u).isSome &&
        (s.computing (unitPort u) 0 (fld (s.fut u (s.armSlotOf y u) Off.PIP_TBLSEL) 0 0) ||
          s.computing (unitPort u) 1 (fld (s.fut u (s.armSlotOf y u) Off.PIP_TBLSEL) 1 1)))) = false := by
  have hst : ((s.unit u).st == .running || (s.unit u).st == .loaded || (s.unit u).st == .halted || (s.unit u).st == .armed) = true := by
    rcases h.st with e | e | e | e <;> rw [e] <;> rfl
  rw [hst]
  by_cases hp : u.val < 16
  · rw [(h.writing hp).1, (h.writing hp).2]
    simp
  · simp [hp]

theorem State.ArmableMember.slot_passes {s : State} {y : Submission} {u : UnitId} (h : s.ArmableMember y u) :
    ((s.armSlot y u).isNone || s.slotRefused u (s.armSlotOf y u) ||
      (decide (u.val < 16) && (s.unit u).st == .running &&
        ratioDir (s.futRatio (unitPort u) (s.armSlotOf y u)).1 (s.futRatio (unitPort u) (s.armSlotOf y u)).2 !=
          ratioDir (s.port (unitPort u)).ltg.num (s.port (unitPort u)).ltg.den) ||
      (decide (u.val < 16) && ([] : List PortId).contains (unitPort u))) = false := by
  rw [Option.isNone_eq_false_iff.2 h.slot, h.passes]
  by_cases hp : u.val < 16 ∧ (s.unit u).st = .running
  · rw [(h.running hp.1 hp.2).1]
    simp
  · rcases not_and_or.1 hp with e | e <;> simp [e]

theorem State.ArmableMember.cycles_pass {s : State} {y : Submission} {u : UnitId} (h : s.ArmableMember y u) :
    (!s.cyclesOk u (s.armSlotOf y u) (s.fut u (s.armSlotOf y u) Off.PRT_LTG_PMIN) || (decide (u.val < 16) && (s.unit u).st == .running &&
      decide (cyclesAvail 1 (s.fut u (s.armSlotOf y u) Off.PRT_LTG_PMIN) <
        (s.slotProg (pipeEng (unitPort u)) ((s.unit u).current.getD 0)).declared))) = false := by
  rw [h.cycles]
  by_cases hp : u.val < 16 ∧ (s.unit u).st = .running
  · rw [decide_eq_false (not_lt.2 (h.running hp.1 hp.2).2)]
    simp
  · rcases not_and_or.1 hp with e | e <;> simp [e]

/-- A line of a running member port that lies ahead of it. -/
theorem State.ArmableTrigger.line_passes {s : State} {c : CtxId} {y : Submission} {g : GroupId} (h : s.ArmableTrigger c y g) :
    (y.arg 0 == 0 && !(decide (y.arg 1 < 16) && (s.members g.val).contains (uid (y.arg 1)) && (s.unit (uid (y.arg 1))).st == .running)) = false ∧
      (y.arg 0 == 0 && decide (armValue y ≤ (s.port (unitPort (uid (y.arg 1)))).ltg.h)) = false ∧
      (y.arg 0 == 0 && decide (2 ^ 48 ≤ y.arg64 2)) = false := by
  by_cases h0 : y.arg 0 = 0
  · obtain ⟨href, hin, hrun, hahead, hlt⟩ := h.line h0
    have hv : armValue y = (y.arg64 2 : Int) := if_pos h0
    rw [decide_eq_true href, List.contains_iff_mem.2 hin, hrun, hv, decide_eq_false (not_le.2 hahead), decide_eq_false (not_le.2 hlt), h0]
    exact ⟨rfl, rfl, rfl⟩
  · rw [beq_eq_false_iff_ne.2 h0]
    exact ⟨rfl, rfl, rfl⟩

/-- A position of a master that lies ahead of it, in the dialect that knows it. -/
theorem State.ArmableTrigger.master_passes {s : State} {c : CtxId} {y : Submission} {g : GroupId} (h : s.ArmableTrigger c y g) :
    ((y.arg 0 == 1 || y.arg 0 == 2) && decide (s.ctxs[c].zhp < 0x30)) = false ∧ decide (2 < y.arg 0) = false ∧
      (y.arg 0 != 0 && decide (sext48 (armValue y - s.master (y.arg 0 - 1)) ≤ 0)) = false := by
  by_cases h0 : y.arg 0 = 0
  · rw [h0]
    exact ⟨rfl, rfl, rfl⟩
  · obtain ⟨hzhp, hle, hahead⟩ := h.kind.resolve_left h0
    have hv : armValue y = sgn 48 (y.arg64 2) := if_neg h0
    rw [decide_eq_false (by omega), decide_eq_false (by omega), hv, decide_eq_false (not_le.2 hahead), Bool.and_false, Bool.and_false]
    exact ⟨rfl, rfl, rfl⟩

theorem cutArm_done {c : CtxId} {y : Submission} {s : State} {g : GroupId} (ha : s.Accepts c cutArmDesc y) (hg : g = subGroup y)
    (hright : s.ctxs[c].units (s.members g.val) = true) (htrigger : s.ArmableTrigger c y g)
    (hmember : ∀ u ∈ s.members g.val, s.ArmableMember y u) (hdrive : s.ArmableDrive y g) (hfree : s.groups[g].armed = none)
    (hband : s.bandwidthOk (s.plansWith ((s.members g.val).map (fun u => (u, s.armSlotOf y u)))) = true) :
    exec (.cutArm c y) s = .next (((s.send (s.subRead c)).armCut g (y.arg 0) (y.arg 1) (armValue y)
      ((s.members g.val).map (fun u => (u, s.armSlotOf y u)))).complete c 0x11 y (okRes 0 0)) := by
  subst hg
  show execCutArm c y s = _
  unfold execCutArm
  extract_lets g ms kind ref value k take st writing reverse drive grp paceAx pace kk pmin
  have hpace : pace = ([], false, true) := by
    unfold pace
    split
    case isTrue h => exact (hdrive h).2.2.2
    case isFalse => rfl
  obtain ⟨hport, hline, hbits⟩ := htrigger.line_passes
  obtain ⟨hversion, hrange, hmaster⟩ := htrigger.master_passes
  have hdriven : (drive && (!ms.contains paceAx || decide (kk < 4) || decide (64 < kk) || pace.2.1)) = false := by
    cases hd : drive with
    | false => rfl
    | true =>
      obtain ⟨hin, hlow, hhigh, -⟩ := hdrive hd
      rw [List.contains_iff_mem.2 (show paceAx ∈ ms from hin), decide_eq_false (not_lt.2 (show 4 ≤ kk from hlow)),
        decide_eq_false (not_lt.2 (show kk ≤ 64 from hhigh)), hpace]
      rfl
  refine congrArg Host.Outcome.next ((State.admin_done ha (firstSome_passed ?_)).trans ?_)
  · simp only [List.mem_cons, List.not_mem_nil, or_false, forall_eq_or_imp, forall_eq]
    rw [hpace] at hdriven ⊢
    refine ⟨refuseIf_false (congrArg not hright) _ _, refuseIf_false hversion _ _,
      refuseIf_false (List.any_eq_false.2 fun u hu => Bool.eq_false_iff.1 (hmember u hu).state_passes) _ _, refuseIf_false hrange _ _,
      refuseIf_false hport _ _, refuseIf_false hline _ _, refuseIf_false hmaster _ _, refuseIf_false hbits _ _,
      Option.map_eq_none_iff.2 (List.find?_eq_none.2 fun u hu => Bool.eq_false_iff.1 (hmember u hu).slot_passes),
      refuseIf_false hdriven _ _, refuseIf_false (by rw [hfree]; rfl) _ _, refuseIf_false ?_ _ _⟩
    have hcycles := List.any_eq_false.2 fun u hu => Bool.eq_false_iff.1 (hmember u hu).cycles_pass
    exact Bool.or_eq_false_iff.2 ⟨Bool.or_eq_false_iff.2 ⟨hcycles, congrArg not hband⟩, rfl⟩
  · dsimp only [cutArmDesc]
    rfl

end Sys2Proof.Machine
end

section
/-! What a CUT_ARM does, and O11. -/

namespace Sys2Proof.Machine

theorem State.armCut_groups (s : State) (g : GroupId) (kind ref : Nat) (value : Int) (slot : UnitId → Nat) (ms : List UnitId) :
    ((s.armCut g kind ref value (ms.map (fun u => (u, slot u)))).groups[g]).Same { s.groups[g] with armed := some (kind, ref, value), left := [] } ∧
      ∀ h : GroupId, h ≠ g → ((s.armCut g kind ref value (ms.map (fun u => (u, slot u)))).groups[h]).Same s.groups[h] := by
  have hw := State.armCut_told s g kind ref value slot ms
  refine ⟨(hw.groups g).trans ?_, fun h hh => (hw.groups h).trans ?_⟩
  · rw [State.updGroup_same]
    exact .refl _
  · rw [State.updGroup_ne _ _ hh]
    exact .refl _

theorem cutArm_does {c : CtxId} {y : Submission} {s : State} {g : GroupId} (ha : s.Accepts c cutArmDesc y) (hg : g = subGroup y)
    (hright : s.ctxs[c].units (s.members g.val) = true) (htrigger : s.ArmableTrigger c y g)
    (hmember : ∀ u ∈ s.members g.val, s.ArmableMember y u) (hdrive : s.ArmableDrive y g) (hfree : s.groups[g].armed = none)
    (hband : s.bandwidthOk (s.plansWith ((s.members g.val).map (fun u => (u, s.armSlotOf y u)))) = true) :
    Does (.cutArm c y) s (fun t => s.Answered t c y (okRes 0 0) ∧ (∀ d : CtxId, d ≠ c → t.ctxs[d] = s.ctxs[d]) ∧
      (t.groups[g]).Same { s.groups[g] with armed := some (y.arg 0, y.arg 1, armValue y), left := [] } ∧
      (∀ h : GroupId, h ≠ g → (t.groups[h]).Same s.groups[h]) ∧
      (∀ u ∈ s.members g.val,
        (t.unit u).cut = some { group := g.val, kind := y.arg 0, ref := y.arg 1, value := armValue y, slot := s.armSlotOf y u, reached := false } ∧
        (t.unit u).st = (if (s.unit u).st = .running then .running else .armed) ∧
        (t.unit u).current = (s.unit u).current ∧ (t.unit u).committed = (s.unit u).committed) ∧
      (∀ u : UnitId, u ∉ s.members g.val → t.unit u = s.unit u) ∧
      { s with ctxs := t.ctxs, bus := t.bus, jrnl := t.jrnl, units := t.units, groups := t.groups }.EventsOnly t
        ([mgtSrc (5 * c.val), mgtSrc (5 * c.val + 1)] ++ (s.members g.val).map unitStateSrc)) := by
  have hdone := cutArm_done ha hg hright htrigger hmember hdrive hfree hband
  have hw := State.armCut_told (s.send (s.subRead c)) g (y.arg 0) (y.arg 1) (armValue y) (s.armSlotOf y) (s.members g.val)
  have hgroups := State.armCut_groups (s.send (s.subRead c)) g (y.arg 0) (y.arg 1) (armValue y) (s.armSlotOf y) (s.members g.val)
  have hunit (u : UnitId) :=
    State.armCut_unit (s.send (s.subRead c)) g (y.arg 0) (y.arg 1) (armValue y) (s.armSlotOf y) (State.members_nodup s g.val) u
  generalize (s.send (s.subRead c)).armCut g (y.arg 0) (y.arg 1) (armValue y) _ = w at hdone hw hgroups hunit
  have hctxs : w.ctxs = s.ctxs := hw.ctxs
  have hregs : s.SameRegs w (injKeys ++ []) := hw.regs
  obtain ⟨hans, hothers⟩ := State.complete_answers hctxs (.of_sameRegs (by rw [hctxs]) hregs fun _ _ => List.not_mem_nil) 0x11 y (okRes 0 0)
  have hm := State.complete_machinery w c 0x11 y (okRes 0 0)
  have htold : s.Told (w.complete c 0x11 y (okRes 0 0)) ([mgtSrc (5 * c.val), mgtSrc (5 * c.val + 1)] ++ (s.members g.val).map unitStateSrc) :=
    ((State.Told.of_frame _ rfl).trans (hw.told.mono fun n hn => List.mem_append_right _ hn)).trans
      ((State.complete_told w c 0x11 y (okRes 0 0)).mono fun n hn => List.mem_append_left _ hn)
  have hkeys : s.SameRegs (w.complete c 0x11 y (okRes 0 0)) injKeys :=
    .trans (by rwa [List.append_nil] at hregs) (State.complete_sameRegs w c 0x11 y (okRes 0 0))
  generalize w.complete c 0x11 y (okRes 0 0) = t at hdone hans hothers hm htold hkeys
  have htu (u : UnitId) : t.unit u = w.unit u := State.unit_congr hm.units u
  have htg (h : GroupId) : t.groups[h] = w.groups[h] := congrArg (fun x : Vector Group 4 => x[h]) hm.groups
  refine ⟨t, hdone, hans, hothers, ?_, fun h hh => ?_, fun u hu => ?_, fun u hu => (htu u).trans ((hunit u).trans (if_neg hu)), ?_⟩
  · rw [htg]
    exact hgroups.1
  · rw [htg]
    exact hgroups.2 h hh
  · obtain ⟨hcut, hcurrent, hcommitted, hst⟩ := UnitSt.armedFor_fields (cutFor g (y.arg 0) (y.arg 1) (armValue y) (s.armSlotOf y) u) (s.unit u)
    have hd : t.unit u = (s.unit u).armedFor (cutFor g (y.arg 0) (y.arg 1) (armValue y) (s.armSlotOf y) u) :=
      (htu u).trans ((hunit u).trans (if_pos hu))
    rw [hd]
    refine ⟨hcut, hst.trans ?_, hcurrent, hcommitted⟩
    rcases (hmember u hu).st with e | e | e | e <;> rw [e] <;> rfl
  · have h := htold.eventsOnly_regs hkeys
    rw [hm.ports, hm.axes, hm.mot, show w.ports = s.ports from hw.ports, show w.axes = s.axes from hw.axes, show w.mot = s.mot from hw.mot] at h
    exact h

/-- Settles O11: each command passes its checks and is answered; what its effect leaves is told field by field, and an effect on all members
of a group is one on each of them. -/
theorem stopsCutGroupsAndCutArms : Obligations.StopsCutGroupsAndCutArms := by
  unfold Obligations.StopsCutGroupsAndCutArms
  refine ⟨?_, ?_, ?_, ?_, ?_, ?_, ?_, ?_⟩
  · intro c y s u ha hu hright hst harg hport
    exact unitStop_port ha hu hright hst harg hport
  · intro c y s u hmem ha hu hright hst harg haxis
    exact unitStop_axis hmem ha hu hright hst harg haxis
  · intro c y s u ha hu hright hst harg haxis
    exact unitStop_idleAxis ha hu hright hst harg haxis
  · intro c y s u hmem ha hu hright hst hcut harg haxis
    exact unitStop_drainAxis hmem ha hu hright hst hcut harg haxis
  · intro c y s u hmem ha hu hright hst hcut harg hport
    exact unitStop_drainPort hmem ha hu hright hst hcut harg hport
  · intro c y s g ha hg hright h0 h1 h2 harmed hnamed
    exact cutGroup_does ha hg hright h0 h1 h2 ⟨harmed, hnamed⟩
  · intro c y s g hmem ha hg hright harmed hleft _
    exact cutDisarm_does hmem ha hg hright harmed hleft
  · intro c y s g _ ha hg hright hkind hline hst hslot hwriting hrunning hdrive hfree hband
    have hmember (u : UnitId) (hu : u ∈ s.members g.val) : s.ArmableMember y u :=
      have ⟨hsome, hpasses, hcycles⟩ := hslot u hu
      ⟨hst u hu, hsome, hpasses, hcycles, hwriting u hu, hrunning u hu⟩
    exact cutArm_does ha hg hright ⟨hkind, hline⟩ hmember hdrive hfree hband

end Sys2Proof.Machine
end

section
/-! SUPPORT. O1, O55, O57 and O59: what each step keeps, whatever its command. -/

namespace Sys2Proof.Machine

/-- What every command keeps, the two that start device time again included. -/
structure ExecSafe (s t : State) : Prop where
  pending : t.pending = s.pending
  owner : (s.ctxs[(0 : CtxId)]).owner → (t.ctxs[(0 : CtxId)]).owner
  sel : (∀ c : CtxId, (s.ctxs[c]).selOk) → ∀ c : CtxId, (t.ctxs[c]).selOk

theorem Keeps.execSafe {kc : Bool} {s t : State} (h : Keeps kc s t) : ExecSafe s t := ⟨h.pending, h.owner, h.sel⟩

theorem State.powerOff_execSafe (s : State) : ExecSafe s s.powerOff :=
  ⟨s.powerOff_pending, fun _ => s.powerOff_owner, fun _ => s.powerOff_sel⟩

theorem ExecSafe.trans {s t w : State} (h : ExecSafe s t) (g : ExecSafe t w) : ExecSafe s w :=
  ⟨g.pending.trans h.pending, fun hs => g.owner (h.owner hs), fun hs => g.sel (h.sel hs)⟩

/-- Every command answers a next state, with the queue, the owner's rights and the validity of the selections kept. -/
theorem exec_safe (i : Instr) (s : State) : ∃ t, exec i s = .next t ∧ ExecSafe s t := by
  by_cases hf : i = .supplyFault
  · exact ⟨s.powerOff, congrArg (exec · s) hf, s.powerOff_execSafe⟩
  · by_cases hp : ∃ b, i = .powerOnReset b
    · obtain ⟨b, rfl⟩ := hp
      obtain ⟨t, ht, hk⟩ := execPowerOnReset_keeps (kc := false) b s
      exact ⟨t, ht, s.powerOff_execSafe.trans hk.execSafe⟩
    · obtain ⟨t, ht, hk⟩ := exec_keeps i s hf fun b hb => hp ⟨b, hb⟩
      exact ⟨t, ht, hk.execSafe⟩

/-- A step takes the command at the front of the queue. -/
theorem step_cons {s : State} {i : Instr} {rest : List Instr} (h : s.pending = i :: rest) :
    step s = exec i { s with pending := rest } := by
  unfold step
  rw [h]

/-- On an empty queue the block idles. -/
theorem step_nil {s : State} (h : s.pending = []) : step s = .next s := by
  unfold step
  rw [h]

/-- Settles O1: by the two equations of `step`. -/
theorem stepServesTheFront : Obligations.StepServesTheFront :=
  ⟨fun _ _ _ h => step_cons h, fun _ h => step_nil h⟩

/-- Settles O55: every command completes and leaves the queue (`exec_safe`); a step hands it the rest. -/
theorem everyStepCompletes : Obligations.EveryStepCompletes := by
  refine ⟨fun i s => ?_, fun i rest s hq => ?_⟩
  · obtain ⟨t, ht, hs⟩ := exec_safe i s
    exact ⟨t, ht, hs.pending⟩
  · obtain ⟨t, ht, hs⟩ := exec_safe i { s with pending := rest }
    exact ⟨t, (step_cons hq).trans ht, hs.pending⟩

/-- A step keeps what every command keeps of the contexts. -/
theorem step_safe {s t : State} (h : step s = .next t) : ∃ rest, ExecSafe { s with pending := rest } t := by
  cases hq : s.pending with
  | nil =>
    rw [step_nil hq] at h
    cases h
    exact ⟨s.pending, rfl, id, id⟩
  | cons i rest =>
    obtain ⟨w, hw, hs⟩ := exec_safe i { s with pending := rest }
    rw [step_cons hq, hw] at h
    cases h
    exact ⟨rest, hs⟩

/-- Settles O57: no command takes a right from context 0 or lets a selection name no unit, and a power-on sets both anew. -/
theorem rightsAndSelectionsStayValid : Obligations.RightsAndSelectionsStayValid := by
  intro s t h
  obtain ⟨rest, hs⟩ := step_safe h
  exact ⟨hs.owner, hs.sel⟩

/-- Settles O59: every command but those two keeps device time or moves it on (`exec_keeps`). -/
theorem timeNeverRunsBack : Obligations.TimeNeverRunsBack := by
  intro i rest s t hq hf hp h
  obtain ⟨w, hw, hk⟩ := exec_keeps i { s with pending := rest } hf hp
  rw [step_cons hq, hw] at h
  cases h
  exact hk.now

end Sys2Proof.Machine
end

section
/-! SUPPORT. O3: a write of a select register (R41). -/

namespace Sys2Proof.Machine

/-- A register that every context may always access, and that lies in no window: the SEL registers, the ring registers and
the doorbells (R44). -/
theorem Ctx.allowed_own {x : Ctx} {off : Nat} (h : blockRow off = some 1 ∨ (blockRow off = some 0 ∧ off < 0x48)) (wr : Bool) :
    x.allowed off wr = true := by
  unfold Ctx.allowed
  rcases h with h | ⟨h, hlt⟩ <;> rw [h]
  · simp
  · simp [hlt]

/-- A write of a 32-bit value as it is to a register that takes it. -/
theorem State.busWrite_taken {s : State} {c : CtxId} {off : Nat} {r : RegDef} {u : Nat} {v : Word} (h : s.Serves c off true)
    (hz : off % 4 = 0) (hlt : off < 0x200000) (hr : s.reach c off = some (r, u)) (hl : lockedSc r u = false) (hp : r.pair = 0)
    (ht : s.takes c r u off v.toNat = true) (ha : s.adjust r u off v.toNat = v.toNat) :
    s.busWrite c off 4 v.toNat = if r.sel = .ctx ∧ 0x10000 ≤ off then s.act c r u off v.toNat
      else s.noteWrite (s.act c r u off v.toNat) c r u off v.toNat := by
  have hv : v.toNat % 2 ^ 32 = v.toNat := Nat.mod_eq_of_lt v.isLt
  have hw := State.busWrite_word (v := v.toNat) h hz hlt hr hl hp
  rw [hv, ha] at hw
  exact hw ht

/-- What the register table says of a select register. -/
structure SelRegister (off : Nat) (r : RegDef) : Prop where
  row : blockRow off = some 1
  def_ : regDef off = some r
  sel : r.sel = .ctx
  single : r.pair = 0
  place : off % 4 = 0 ∧ 0x10000 ≤ off

/-- A served write of a select register writes that register of the context and is not journaled. -/
theorem SelRegister.busWrite {s : State} {c : CtxId} {off : Nat} {r : RegDef} (k : SelRegister off r) {v : Word} (href : s.refSel ≠ 3)
    (ht : s.takes c r c.val off v.toNat = true) (ha : s.adjust r c.val off v.toNat = v.toNat) (hl : lockedSc r c.val = false) :
    s.busWrite c off 4 v.toNat = s.updCtx c (fun x => x.writeSel off v.toNat) := by
  have hu : s.ctxs[c].unitKey c r off = some c.val := by
    unfold Ctx.unitKey
    rw [k.sel]
  have hact : s.act c r c.val off v.toNat = s.updCtx c (fun x => x.writeSel off v.toNat) := by
    unfold State.act
    rw [k.row]
    rfl
  rw [State.busWrite_taken ⟨href, Ctx.allowed_own (.inl k.row) true⟩ k.place.1 (lt_of_blockRow k.row (by decide)) (State.reach_of k.def_ hu)
    hl k.single ht ha, if_pos ⟨k.sel, k.place.2⟩, hact]

/-- What a served write of a select register does: `f` to the writing context. -/
theorem SelRegister.does {i : Instr} {s : State} {c : CtxId} {off : Nat} {r : RegDef} (k : SelRegister off r) {v : Word} {y : Ctx}
    (hi : exec i s = .next (s.busWrite c off 4 v.toNat)) (href : s.refSel ≠ 3) (ht : s.takes c r c.val off v.toNat = true)
    (ha : s.adjust r c.val off v.toNat = v.toNat) (hl : lockedSc r c.val = false) (hy : s.ctxs[c].writeSel off v.toNat = y) :
    Does i s (fun t => t = { s with ctxs := t.ctxs } ∧ (∀ d : CtxId, d ≠ c → t.ctxs[d] = s.ctxs[d]) ∧ t.ctxs[c] = y) :=
  ⟨_, hi.trans (congrArg _ (k.busWrite href ht ha hl)), rfl, fun _ hd => State.updCtx_ne s _ hd, (State.updCtx_same s c _).trans hy⟩

/-- SC15's registers are none that are selected by context. -/
theorem lockedSc_ctx (r : RegDef) (c : CtxId) : lockedSc r c.val = false := by
  unfold lockedSc
  rw [beq_false_of_ne (by omega), Bool.false_and]

/-- The used fields of a select register as the register keeps them. -/
theorem ofNat_toNat_and (v m : Word) : BitVec.ofNat 32 (v.toNat &&& m.toNat) = v &&& m := by
  rw [← BitVec.toNat_and, BitVec.ofNat_toNat, BitVec.setWidth_eq]

theorem fld_selChan (v : Word) : fld v.toNat 6 0 = (v &&& 0x7F).toNat := by
  rw [BitVec.toNat_and]
  exact (congrArg (· % 2 ^ 7) (Nat.div_one _)).trans (Nat.and_two_pow_sub_one_eq_mod v.toNat 7).symm

/-- Settles O3, register by register: each write is `Ctx.writeSel` of the writing context. -/
theorem selectWrites : Obligations.SelectWrites := by
  unfold Obligations.SelectWrites
  refine ⟨?port, ?axis, ?chan, ?engine, ?table⟩
  case port =>
    intro c v s href
    refine SelRegister.does ⟨rfl, rfl, rfl, rfl, by decide⟩ rfl href rfl rfl (lockedSc_ctx _ c) ?_
    exact congrArg (fun w => { s.ctxs[c] with selPort := w }) (ofNat_toNat_and v 0xF)
  case axis =>
    intro c v s href
    refine SelRegister.does ⟨rfl, rfl, rfl, rfl, by decide⟩ rfl href rfl rfl (lockedSc_ctx _ c) ?_
    exact congrArg (fun w => { s.ctxs[c] with selAxis := w }) (ofNat_toNat_and v 7)
  case chan =>
    intro c v s href
    refine SelRegister.does ⟨rfl, rfl, rfl, rfl, by decide⟩ rfl href rfl rfl (lockedSc_ctx _ c) ?_
    rw [← fld_selChan, ← ofNat_toNat_and v 0x7F]
    rfl
  case engine =>
    intro c v s href
    refine SelRegister.does ⟨rfl, rfl, rfl, rfl, by decide⟩ rfl href rfl rfl (lockedSc_ctx _ c) ?_
    rw [← ofNat_toNat_and v 0x3F]
    rfl
  case table =>
    intro c v s href
    refine SelRegister.does ⟨rfl, rfl, rfl, rfl, by decide⟩ rfl href rfl rfl (lockedSc_ctx _ c) ?_
    rw [← ofNat_toNat_and v 0x3F1F0F]
    rfl

end Sys2Proof.Machine
end

section
/-! SUPPORT. O2: the state after reset. -/

namespace Sys2Proof.Machine

/-- A register that nothing has written reads its reset value. -/
theorem State.reset_cell (u off : Nat) (h : off < 0x800000) :
    State.reset.cell u off = { val := resetVal off, force := resetVal off, stg := 0, cmt := 0, cmtVal := 0, cut := 0 } := by
  have hk : rkey u off % 0x800000 = off := by unfold rkey; omega
  show resetCell (rkey u off) = _
  unfold resetCell
  rw [hk]

theorem State.reset_eff (u : Nat) {off : Nat} (h : off < 0x800000) : State.reset.eff u off = (resetVal off).toNat :=
  congrArg (fun x : RegCell => x.force.toNat) (State.reset_cell u off h)

/-- A field of a register that nothing has written. -/
theorem State.reset_rf (u : Nat) {off : Nat} (h : off < 0x800000) (hi lo : Nat) :
    State.reset.rf u off hi lo = fld (resetVal off).toNat hi lo :=
  congrArg (fld · hi lo) (State.reset_eff u h)

/-- The reset state is sound. -/
theorem State.reset_ok : State.reset.Ok where
  mem := State.reset_memOk
  owner := State.reset.powerOff_owner
  sel := State.reset.powerOff_sel
  queues := State.reset.powerOff_queues
  jrnl := ⟨List.Pairwise.nil, fun _ he => nomatch he⟩

theorem State.reset_ctx (c : CtxId) : State.reset.ctxs[c] = Ctx.atReset (c.val == 0) := Vector.getElem_ofFn _

theorem State.reset_unit (u : UnitId) : State.reset.unit u = UnitSt.atReset := Vector.getElem_replicate _

theorem State.reset_chan (c : ChanId) : State.reset.chan c = ChanSt.atReset := Vector.getElem_replicate _

theorem State.reset_queue (q : QueueId) : State.reset.queues[q] = EvQueue.atReset := Vector.getElem_replicate _

/-- No bank is flipped: logical bank b is physical bank b. -/
theorem State.reset_phys (p : PortId) {table b : Nat} (ht : table < 2) (hb : b < 2) : State.reset.phys p table b = b := by
  have hf : State.reset.flip p table = 0 := by
    unfold State.flip
    rw [State.reset_rf p.val (by decide)]
    interval_cases table <;> rfl
  unfold State.phys
  rw [hf]
  exact Nat.mod_eq_of_lt hb

/-- Logical lane l is physical lane l. -/
theorem State.reset_lane (p : PortId) (l : Fin 8) : State.reset.rf p.val Off.PIP_LANE_MAP (4 * l.val + 3) (4 * l.val) = l.val := by
  rw [State.reset_rf p.val (by decide)]
  revert l
  decide +kernel

/-- The spare lane is the ninth. -/
theorem State.reset_spare (p : PortId) : State.reset.rf p.val Off.PIP_LANE_STAT 3 0 = 8 := by
  rw [State.reset_rf p.val (by decide)]
  rfl

/-- No bridge is driven. -/
theorem State.reset_excitation (n : Fin 8) :
    State.reset.rf 0 (Off.AUX_EXC_CFG + 16 * n.val) 31 31 = 0 ∧ (State.reset.aux.exc[n]).on = false := by
  refine ⟨?_, congrArg ExcSt.on (Vector.getElem_replicate _)⟩
  rw [State.reset_rf 0 (by unfold Off.AUX_EXC_CFG; omega)]
  revert n
  decide +kernel

/-- The coefficients of a channel at a range are the identity: offset 0, gain 2 ^ 30. -/
theorem State.reset_coefficients (c : Fin 32) (g : Fin 8) :
    State.reset.eff 0 (ofsOff c.val g.val) = 0 ∧ State.reset.eff 0 (gainOff c.val g.val) = 2 ^ 30 := by
  have hv : ∀ (c : Fin 32) (g : Fin 8),
      (resetVal (ofsOff c.val g.val)).toNat = 0 ∧ (resetVal (gainOff c.val g.val)).toNat = 2 ^ 30 := by decide +kernel
  rw [State.reset_eff 0 (by unfold ofsOff Off.AUX_COEF_OFS; omega), State.reset_eff 0 (by unfold gainOff Off.AUX_COEF_GAIN; omega)]
  exact hv c g

/-- Settles O2, field by field. -/
theorem resetState : Obligations.ResetState := by
  unfold Obligations.ResetState
  refine ⟨State.reset_ok, rfl, rfl, fun c hc => ?_, fun c => ?_, fun u => ?_, fun g => congrArg Group.armed (Vector.getElem_replicate _),
    fun d => ?_, fun q => congrArg EvQueue.words (State.reset_queue q), rfl, rfl, rfl, State.reset_lane,
    fun p => ⟨State.reset_spare p, State.reset_phys p (by decide) (by decide), State.reset_phys p (by decide) (by decide),
      State.reset_phys p (by decide) (by decide), State.reset_phys p (by decide) (by decide)⟩,
    State.reset_eff 0 (by decide), rfl, State.reset_excitation, State.reset_coefficients⟩
  · have h0 : (c.val == 0) = false := beq_false_of_ne fun h => hc (Fin.ext h)
    rw [State.reset_ctx, h0]
    exact ⟨rfl, rfl, rfl⟩
  · rw [State.reset_ctx]
    exact ⟨rfl, rfl, rfl⟩
  · rw [State.reset_unit]
    exact ⟨rfl, rfl, rfl, rfl, fun k => congrArg Slot.isLoaded (Vector.getElem_replicate _)⟩
  · rw [State.reset_chan]
    exact ⟨rfl, rfl⟩

end Sys2Proof.Machine
end

section
/-! SUPPORT. O5: the session of a context and the doorbells of its rings (R45, R47, R48, R51, R52). -/

namespace Sys2Proof.Machine

/-- A change of a context to itself. -/
theorem State.updCtx_self (s : State) (c : CtxId) : s.updCtx c (fun x => x) = s :=
  congrArg (fun v => ({ s with ctxs := v } : State)) (Vector.set_getElem_self c.isLt)

/-- Two changes of one context. -/
theorem State.updCtx_updCtx (s : State) (c : CtxId) (f g : Ctx → Ctx) : (s.updCtx c f).updCtx c g = s.updCtx c (fun x => g (f x)) := by
  have h : (s.updCtx c f).ctxs[c] = f s.ctxs[c] := State.updCtx_same s c f
  refine congrArg (fun v => ({ s with ctxs := v } : State)) ?_
  show (s.ctxs.set c (f s.ctxs[c])).set c (g (s.updCtx c f).ctxs[c]) = _
  rw [h, Vector.set_set]

/-! ### Writes of the ring registers -/

/-- What the register table says of a ring register or doorbell of a context. -/
structure RingRegister (off : Nat) (r : RegDef) : Prop where
  row : blockRow off = some 0
  own : off < 0x48
  def_ : regDef off = some r
  sel : r.sel = .ctx
  single : r.pair = 0
  align : off % 4 = 0

section

variable {s : State} {c : CtxId} {off : Nat} {r : RegDef} (k : RingRegister off r)
include k

theorem RingRegister.reach : s.reach c off = some (r, c.val) :=
  State.reach_of k.def_ (by unfold Ctx.unitKey; rw [k.sel])

theorem RingRegister.serves (href : s.refSel ≠ 3) (wr : Bool) : s.Serves c off wr :=
  ⟨href, Ctx.allowed_own (.inr ⟨k.row, k.own⟩) wr⟩

theorem RingRegister.lt : off < 0x200000 := lt_of_blockRow k.row (by decide)

/-- A write of a ring register is its own action, and may be journaled. -/
theorem RingRegister.busWrite {v : Word} (href : s.refSel ≠ 3) (ht : s.takes c r c.val off v.toNat = true)
    (ha : s.adjust r c.val off v.toNat = v.toNat) :
    s.busWrite c off 4 v.toNat =
      s.noteWrite (s.writeHif (s.plain r c.val off v.toNat) c off v.toNat) c r c.val off v.toNat := by
  have hact : s.act c r c.val off v.toNat = s.writeHif (s.plain r c.val off v.toNat) c off v.toNat := by
    unfold State.act
    rw [k.row]
    rfl
  have hown := k.own
  rw [State.busWrite_taken (k.serves href true) k.align k.lt k.reach (lockedSc_ctx r c) k.single ht ha, hact,
    if_neg fun h => absurd h.2 (by omega)]

end

/-- A doorbell is not journaled. -/
theorem State.noteWrite_quiet {s t : State} {c : CtxId} {r : RegDef} {u off v : Nat} (h : quietRegs.contains r.base = true) :
    s.noteWrite t c r u off v = t := by
  unfold State.noteWrite
  rw [if_neg fun hc => absurd h (by simpa using hc.2.1)]

/-! ### ENABLE and RESET (R47, R52) -/

/-- The session of a context ends. -/
def Ctx.ended (x : Ctx) : Ctx :=
  { x with enable := false, err := 0, bells := [], zhp := 0, sqTail := 0, sqHead := 0, cqHead := 0, cqNext := 0, phase := true }

/-- ENABLE written `en`, `bad` telling whether a base or a size is bad. -/
def Ctx.enabled (x : Ctx) (en : Bool) (bad : Prop) [Decidable bad] : Ctx :=
  if en = false then { x with enable := false }
  else if x.enable ∨ x.err = 2 then x
  else if bad then { x with err := 1 }
  else { x with enable := true, bells := [], sqTail := 0, sqHead := 0, cqHead := 0, cqNext := 0, phase := true }

/-- A base of the rings of a context is not aligned to 4 KiB, or a size lies outside 4 to 12. -/
abbrev State.badRings (s : State) (c : CtxId) : Prop :=
  s.eff c.val Off.HIF_ASQ_BASE_LO % 4096 ≠ 0 ∨ s.eff c.val Off.HIF_ACQ_BASE_LO % 4096 ≠ 0 ∨
    s.rf c.val Off.HIF_AQ_SIZE 3 0 < 4 ∨ 12 < s.rf c.val Off.HIF_AQ_SIZE 3 0 ∨
    s.rf c.val Off.HIF_AQ_SIZE 11 8 < 4 ∨ 12 < s.rf c.val Off.HIF_AQ_SIZE 11 8

theorem State.updCtx_congr (s : State) (c : CtxId) {f g : Ctx → Ctx} (h : f s.ctxs[c] = g s.ctxs[c]) : s.updCtx c f = s.updCtx c g := by
  unfold State.updCtx
  rw [h]

theorem State.ctlEnable_eq (s : State) (c : CtxId) (en : Bool) : s.ctlEnable c en = s.updCtx c (fun x => x.enabled en (s.badRings c)) := by
  unfold State.ctlEnable Ctx.enabled
  cases en with
  | false => rfl
  | true =>
    by_cases hr : s.ctxs[c].enable = true ∨ s.ctxs[c].err = 2
    · have he : (s.ctxs[c].enable || s.ctxs[c].err == 2) = true := by simpa using hr
      simp only [Bool.not_true, Bool.false_eq_true, if_false, he, if_true]
      refine ((State.updCtx_congr s c ?_).trans (State.updCtx_self s c)).symm
      rw [if_neg (by decide), if_pos hr]
    · have he : (s.ctxs[c].enable || s.ctxs[c].err == 2) = false := by simpa using hr
      simp only [Bool.not_true, Bool.false_eq_true, if_false, he]
      split
      · exact State.updCtx_congr s c (by rw [if_neg (by decide), if_neg hr])
      · exact State.updCtx_congr s c (by rw [if_neg (by decide), if_neg hr])

/-- What a write of HIF_CTX_CTL makes of the context: RESET first, then ENABLE. -/
def Ctx.controlled (x : Ctx) (v : Word) (bad : Prop) [Decidable bad] : Ctx :=
  (if v.getLsbD 1 then x.ended else x).enabled (v.getLsbD 0) bad

theorem State.writeHif_ctl (s t : State) (c : CtxId) (v : Word) :
    s.writeHif t c Off.HIF_CTX_CTL v.toNat = s.updCtx c (fun x => x.controlled v (s.badRings c)) := by
  have h1 : bitN v.toNat 1 = v.getLsbD 1 := rfl
  have h0 : bitN v.toNat 0 = v.getLsbD 0 := rfl
  unfold State.writeHif Ctx.controlled
  rw [if_pos rfl, h1, h0]
  cases v.getLsbD 1 with
  | false => exact State.ctlEnable_eq s c _
  | true =>
    cases v.getLsbD 0 with
    | false => rfl
    | true =>
      exact (State.ctlEnable_eq (s.ctlReset c) c true).trans (State.updCtx_updCtx s c Ctx.ended _)

/-- What a write of HIF_CTX_CTL leaves. -/
theorem ctlWrite_does {i : Instr} {s : State} {c : CtxId} {v : Word} (hi : exec i s = .next (s.busWrite c Off.HIF_CTX_CTL 4 v.toNat))
    (href : s.refSel ≠ 3) :
    Does i s (fun t => t = { s with ctxs := t.ctxs, jrnl := t.jrnl } ∧ (∀ d : CtxId, d ≠ c → t.ctxs[d] = s.ctxs[d]) ∧
      t.ctxs[c] = s.ctxs[c].controlled v (s.badRings c)) := by
  have hw := RingRegister.busWrite (off := Off.HIF_CTX_CTL) (c := c) ⟨rfl, by decide, rfl, rfl, rfl, rfl⟩ (v := v) href rfl rfl
  rw [State.writeHif_ctl, State.noteWrite_frame] at hw
  exact ⟨_, hi.trans (congrArg _ hw), rfl,
    fun d hd => State.updCtx_ne s (fun x => x.controlled v (s.badRings c)) hd, State.updCtx_same s c (fun x => x.controlled v (s.badRings c))⟩

/-! ### Doorbells (R48, R51) -/

/-- A ring that stops with ERR 2. -/
theorem State.ringError_leaves {s : State} (hm : s.MemOk) (c : CtxId) :
    let t := s.ringError c
    (∀ d : CtxId, d ≠ c → t.ctxs[d] = s.ctxs[d]) ∧ { s with ctxs := t.ctxs }.EventsOnly t [mgtSrc (5 * c.val + 4)] ∧
      t.ctxs[c] = { s.ctxs[c] with err := 2 } ∧ t.raisings (mgtSrc (5 * c.val + 4)) = s.raisings (mgtSrc (5 * c.val + 4)) + 1 := by
  have hc : (s.ringError c).ctxs = (s.updCtx c (fun x => { x with err := 2 })).ctxs := State.raise_ctxs _ _ _
  have hu : (s.updCtx c (fun x => { x with err := 2 })).MemOk :=
    (State.updCtx_keeps c (fun x => { x with err := 2 }) (fun _ _ h => h) (fun _ h => h) (Keeps.refl (kc := false) s)).mem hm
  refine ⟨fun d hd => ?_, ?_, ?_, State.raise_raisings hu _ (ctxSrc_ne_auxSrc _)⟩
  · exact (congrArg (·[d]) hc).trans (State.updCtx_ne s _ hd)
  · rw [hc]
    exact State.raise_eventsOnly (s.updCtx c (fun x => { x with err := 2 })) _ _
  · exact (congrArg (·[c]) hc).trans (State.updCtx_same s c _)

/-- What a doorbell that moves its index leaves: `f` to the context. -/
theorem State.updCtx_leaves (s : State) (c : CtxId) (f : Ctx → Ctx) (srcs : List Nat) :
    let t := s.updCtx c f
    (∀ d : CtxId, d ≠ c → t.ctxs[d] = s.ctxs[d]) ∧ { s with ctxs := t.ctxs }.EventsOnly t srcs ∧ t.ctxs[c] = f s.ctxs[c] :=
  ⟨fun _ hd => State.updCtx_ne s f hd, State.EventsOnly.refl _ _, State.updCtx_same s c f⟩

/-- A doorbell of rings that run: the index is taken, or the ring stops. -/
theorem doorbell_does {i : Instr} {s : State} {c : CtxId} {off : Nat} {r : RegDef} (k : RingRegister off r) {v : Word} {good : Prop}
    [Decidable good] {f : Ctx → Ctx} (hi : exec i s = .next (s.busWrite c off 4 v.toNat)) (hm : s.MemOk) (href : s.refSel ≠ 3)
    (ht : s.takes c r c.val off v.toNat = true) (ha : s.adjust r c.val off v.toNat = v.toNat)
    (hq : quietRegs.contains r.base = true)
    (hw : s.writeHif (s.plain r c.val off v.toNat) c off v.toNat = if good then s.updCtx c f else s.ringError c) :
    Does i s (fun t => (∀ d : CtxId, d ≠ c → t.ctxs[d] = s.ctxs[d]) ∧ { s with ctxs := t.ctxs }.EventsOnly t [mgtSrc (5 * c.val + 4)] ∧
      (if good then t.ctxs[c] = f s.ctxs[c] ∧ t.raisings (mgtSrc (5 * c.val + 4)) = s.raisings (mgtSrc (5 * c.val + 4))
        else t.ctxs[c] = { s.ctxs[c] with err := 2 } ∧
          t.raisings (mgtSrc (5 * c.val + 4)) = s.raisings (mgtSrc (5 * c.val + 4)) + 1)) := by
  refine ⟨_, hi.trans (congrArg _ ((k.busWrite href ht ha).trans ((State.noteWrite_quiet hq).trans hw))), ?_⟩
  by_cases hg : good
  · simp only [if_pos hg]
    obtain ⟨hne, hev, hc⟩ := State.updCtx_leaves s c f [mgtSrc (5 * c.val + 4)]
    exact ⟨hne, hev, hc, rfl⟩
  · simp only [if_neg hg]
    exact State.ringError_leaves hm c

/-- The index of the submission doorbell is taken; where it moves, the doorbell takes its place among all. -/
def Ctx.tailed (x : Ctx) (i n place : Nat) : Ctx :=
  { x with sqTail := i, bells := if i = x.sqTail then x.bells else x.bells ++ [(place, n)] }

/-- The submission doorbell of rings that run. -/
theorem State.asqTail_running {s : State} {c : CtxId} (hen : s.ctxs[c].enable = true) (herr : s.ctxs[c].err ≠ 2) (v : Nat) :
    let size := 2 ^ s.rf c.val Off.HIF_AQ_SIZE 3 0
    let i := fld v 11 0
    let x := s.ctxs[c]
    s.asqTail c v = if i < size ∧ (i + size - x.sqTail) % size ≤ (x.sqHead + size - 1 - x.sqTail) % size
      then s.updCtx c (fun z => z.tailed i ((i + size - x.sqTail) % size) s.nextBell) else s.ringError c := by
  intro size i x
  have hrun : (!s.ctxs[c].enable || s.ctxs[c].err == 2) = false := by
    rw [hen]
    simpa using herr
  have hgood : (i < size ∧ (i + size - x.sqTail) % size ≤ (x.sqHead + size - 1 - x.sqTail) % size) ↔
      ¬(size ≤ i ∨ (x.sqHead + size - 1 - x.sqTail) % size < (i + size - x.sqTail) % size) := by
    rw [not_or, Nat.not_le, Nat.not_lt]
  unfold State.asqTail
  simp only [hgood, ite_not]
  rw [if_neg (by rw [hrun]; decide)]
  rfl

/-- The completion doorbell of rings that run. -/
theorem State.acqHead_running {s : State} {c : CtxId} (hen : s.ctxs[c].enable = true) (herr : s.ctxs[c].err ≠ 2) (v : Nat) :
    let size := 2 ^ s.rf c.val Off.HIF_AQ_SIZE 11 8
    let i := fld v 11 0
    let x := s.ctxs[c]
    s.acqHead c v = if i < size ∧ (i + size - x.cqHead) % size ≤ (x.cqNext + size - x.cqHead) % size
      then s.updCtx c (fun z => { z with cqHead := i }) else s.ringError c := by
  intro size i x
  have hrun : (!s.ctxs[c].enable || s.ctxs[c].err == 2) = false := by
    rw [hen]
    simpa using herr
  have hgood : (i < size ∧ (i + size - x.cqHead) % size ≤ (x.cqNext + size - x.cqHead) % size) ↔
      ¬(size ≤ i ∨ (x.cqNext + size - x.cqHead) % size < (i + size - x.cqHead) % size) := by
    rw [not_or, Nat.not_le, Nat.not_lt]
  unfold State.acqHead
  simp only [hgood, ite_not]
  rw [if_neg (by rw [hrun]; decide)]

/-- A read of HIF_DENIED returns the last denied offset and clears it. -/
theorem hifDeniedRead_does {s : State} (c : CtxId) (href : s.refSel ≠ 3) :
    Does (.hifDeniedRead c) s (fun t => t = { s with rdata := t.rdata, ctxs := t.ctxs } ∧ (∀ d : CtxId, d ≠ c → t.ctxs[d] = s.ctxs[d]) ∧
      t.ctxs[c] = { s.ctxs[c] with denied := none } ∧ t.rdata = BitVec.ofNat 64 s.ctxs[c].deniedWord) := by
  have k : RingRegister Off.HIF_DENIED _ := ⟨rfl, by decide, rfl, rfl, rfl, rfl⟩
  have hb : s.busRead c Off.HIF_DENIED 4 =
      { s.updCtx c (fun x => { x with denied := none }) with rdata := BitVec.ofNat 64 s.ctxs[c].deniedWord } :=
    State.busRead_word (k.serves href false) k.align k.lt (k.reach (c := c)) rfl
  exact ⟨_, congrArg Host.Outcome.next hb, rfl, fun d hd => State.updCtx_ne s (fun x => { x with denied := none }) hd,
    State.updCtx_same s c (fun x => { x with denied := none }), rfl⟩

/-- Settles O5: the registers of a session through `State.writeHif`, the doorbells through `doorbell_does`. -/
theorem sessionAndDoorbells : Obligations.SessionAndDoorbells := by
  unfold Obligations.SessionAndDoorbells
  refine ⟨fun c v s href => ?_, fun c v s href => ?_, fun c v s hm href hen herr => ?_, fun c v s hm href hen herr => ?_, fun c s href => ?_⟩
  · exact ctlWrite_does (i := .hifCtxCtlEnable c v) rfl href
  · exact ctlWrite_does (i := .hifCtxCtlReset c v) rfl href
  · exact doorbell_does (v := v) (off := Off.HIF_ASQ_TAIL) ⟨rfl, by decide, rfl, rfl, rfl, rfl⟩ rfl hm href rfl rfl rfl
      (State.asqTail_running hen herr v.toNat)
  · exact doorbell_does (v := v) (off := Off.HIF_ACQ_HEAD) ⟨rfl, by decide, rfl, rfl, rfl, rfl⟩ rfl hm href rfl rfl rfl
      (State.acqHead_running hen herr v.toNat)
  · obtain ⟨t, ht, hf, hne, hc, hd⟩ := hifDeniedRead_does c href
    refine ⟨t, ht, hf, hne, hc, hd.trans ?_⟩
    unfold Ctx.deniedWord
    cases s.ctxs[c].denied <;> rfl

end Sys2Proof.Machine
end

section
/-! SUPPORT. O8: HELLO, IDENTIFY and the rights of a context (R44, R53, R55, R58, R426). -/

namespace Sys2Proof.Machine

/-! ### Commands that change contexts -/

/-- The session of context `c` stands in `w` as in `s` as far as a completion with the outcome `r` can tell: the indices and the phase of
its rings, and the version, which decides whether a detail is told (Table 2.5). -/
structure State.SameSession (s w : State) (c : CtxId) (r : AdmRes) : Prop where
  sqHead : w.ctxs[c].sqHead = s.ctxs[c].sqHead
  cqNext : w.ctxs[c].cqNext = s.ctxs[c].cqNext
  phase : w.ctxs[c].phase = s.ctxs[c].phase
  detail : w.ctxs[c].zhp = s.ctxs[c].zhp ∨ r.detail = 0

theorem State.SameSession.of_ctx {s w : State} {c : CtxId} (h : w.ctxs[c] = s.ctxs[c]) (r : AdmRes) : s.SameSession w c r :=
  ⟨by rw [h], by rw [h], by rw [h], .inl (by rw [h])⟩

/-- An outcome without a detail reads the same under every version. -/
theorem AdmRes.detail_dropped {r : AdmRes} (h : r.detail = 0) (z : Nat) : (if z < 0x22 then { r with detail := 0 } else r) = r := by
  obtain ⟨status, r0, r1, detail⟩ := r
  obtain rfl : detail = 0 := h
  exact ite_self _

/-- The completion entry is the same after an effect on contexts, link and journal that leaves the session. -/
theorem State.completion_same {s w : State} {c : CtxId} {r : AdmRes} (hr : w.regs = s.regs) (h : s.SameSession w c r) (y : Submission) :
    w.completion c y r = s.completion c y r := by
  have hcell (u off : Nat) : w.cell u off = s.cell u off := congrArg (mget resetCell · (rkey u off)) hr
  have hd : (if w.ctxs[c].zhp < 0x22 then { r with detail := 0 } else r) = if s.ctxs[c].zhp < 0x22 then { r with detail := 0 } else r := by
    rcases h.detail with hz | hz
    · rw [hz]
    · rw [AdmRes.detail_dropped hz, AdmRes.detail_dropped hz]
  unfold State.completion State.pair State.rf State.eff
  simp only [hcell]
  rw [h.sqHead, h.cqNext, h.phase, hd]

/-- A command whose effect `w` changes contexts, link and journal alone, and leaves the session, is answered and tells by the events of a
completion. -/
theorem State.complete_leaves {s w : State} {c : CtxId} {r : AdmRes} (hw : w = { s with ctxs := w.ctxs, bus := w.bus, jrnl := w.jrnl })
    (h : s.SameSession w c r) (op : Nat) (y : Submission) :
    let t := w.complete c op y r
    s.Answered t c y r ∧
      { s with ctxs := t.ctxs, bus := t.bus, jrnl := t.jrnl }.EventsOnly t [mgtSrc (5 * c.val), mgtSrc (5 * c.val + 1)] := by
  have hregs : w.regs = s.regs := (congrArg State.regs hw :)
  have hrf (hi lo : Nat) : w.rf c.val Off.HIF_AQ_SIZE hi lo = s.rf c.val Off.HIF_AQ_SIZE hi lo :=
    congrArg (fun m => fld (mget resetCell m (rkey c.val Off.HIF_AQ_SIZE)).force.toNat hi lo) hregs
  have hctx : (w.complete c op y r).ctxs[c] = w.answeredCtx c w.ctxs[c] :=
    (congrArg (·[c]) (State.complete_ctxs w c op y r)).trans (State.updCtx_same w c (w.answeredCtx c))
  refine ⟨⟨?_, ?_, ?_⟩, ?_⟩
  · rw [State.complete_bus, State.completion_same hregs h]
    rfl
  · rw [hctx]
    simp only [State.answeredCtx, h.sqHead, hrf]
  · rw [hctx]
    simp only [State.answeredCtx, h.cqNext, hrf]
  · have he := State.complete_tells w c op y r
    unfold State.Tells at he
    have hf : { s with ctxs := (w.complete c op y r).ctxs, bus := (w.complete c op y r).bus, jrnl := (w.complete c op y r).jrnl } =
        { w.answering c y r with jrnl := (w.complete c op y r).jrnl } := by
      rw [State.complete_ctxs, State.complete_bus]
      generalize (w.complete c op y r).jrnl = j
      unfold State.answering State.updCtx State.send
      rw [hw]
    dsimp only at hf ⊢
    rw [hf]
    exact he

/-- What a completion leaves of its own context, but for the heads of its rings. -/
theorem State.complete_ctx_same (w : State) (c : CtxId) (op : Nat) (y : Submission) (r : AdmRes) :
    (w.complete c op y r).ctxs[c] = w.answeredCtx c w.ctxs[c] :=
  (congrArg (·[c]) (State.complete_ctxs w c op y r)).trans (State.updCtx_same w c (w.answeredCtx c))

/-- An entry whose opcode Table 2.7 does not list, once a version is agreed. -/
theorem State.admin_unlisted {s : State} {c : CtxId} {d : AdmDesc} {y : Submission} {checks : List (Option AdmRes)}
    {effect : State → State × AdmRes} (hs : s.served c = true) (ho : y.other.isSome = true) (hz : s.ctxs[c].zhp ≠ 0) :
    s.admin c d y checks effect = (s.send (s.subRead c)).complete c d.op y (refuse stBadArg 0) := by
  have hg : admGeneric s.ctxs[c].zhp d y = some (refuse stBadArg 0) := by
    unfold admGeneric
    rw [if_neg fun h => hz h.1, if_pos ho]
  unfold State.admin
  rw [if_pos hs, hg]

/-! ### HELLO (R53) -/

/-- The greatest of a list, from `a` on, is at least `a` and each of its members. -/
theorem le_foldl_max {l : List Nat} {a v : Nat} (h : v ≤ a ∨ v ∈ l) : v ≤ l.foldl max a := by
  induction l generalizing a with
  | nil => exact h.resolve_right List.not_mem_nil
  | cons b l ih =>
    refine ih ?_
    rcases h with h | h
    · exact .inl (le_max_of_le_left h)
    · exact (List.mem_cons.1 h).imp_left fun hv => le_of_eq_of_le hv (le_max_right a b)

/-- The version picked is the highest that both sides offer. -/
theorem le_helloPick {y : Submission} {v : Nat} (h : v ∈ helloCodes y) (hv : v ∈ zhpVersions) : v ≤ helloPick y :=
  le_foldl_max (.inr (List.mem_filter.2 ⟨h, by simpa using hv⟩))

theorem hello_does {s : State} {c : CtxId} {y : Submission}
    (ha : s.Accepts c { op := 0x00, since := 0x20, kinds := [0], slotted := false, args := [0, 1, 2] } y) (hz : s.ctxs[c].zhp = 0)
    (hn : y.arg 0 ≠ 0 ∧ y.arg 0 ≤ 8) (hp : helloPick y ≠ 0) :
    Does (.hello c y) s (fun t => s.Answered t c y (okRes (helloPick y) 0) ∧ t.ctxs[c].zhp = helloPick y ∧
      (∀ d : CtxId, d ≠ c → t.ctxs[d] = s.ctxs[d]) ∧
      { s with ctxs := t.ctxs, bus := t.bus, jrnl := t.jrnl }.EventsOnly t [mgtSrc (5 * c.val), mgtSrc (5 * c.val + 1)]) := by
  have hc : firstSome [refuseIf (s.ctxs[c].zhp ≠ 0) stConflict 0, refuseIf (y.arg 0 = 0 || 8 < y.arg 0) stBadArg 1,
      refuseIf (helloPick y = 0) stVersion 0] = none := by
    refine firstSome_passed ?_
    simp only [List.forall_mem_cons]
    exact ⟨refuseIf_false (decide_eq_false fun h => h hz) _ _, refuseIf_false (by simp [hn]) _ _,
      refuseIf_false (decide_eq_false hp) _ _, fun _ h => nomatch h⟩
  refine ⟨_, congrArg Host.Outcome.next (State.admin_done ha hc), ?_⟩
  have hctx : ((s.send (s.subRead c)).updCtx c (fun x => { x with zhp := helloPick y })).ctxs[c] = { s.ctxs[c] with zhp := helloPick y } :=
    State.updCtx_same _ c _
  have hsame : s.SameSession ((s.send (s.subRead c)).updCtx c (fun x => { x with zhp := helloPick y })) c (okRes (helloPick y) 0) :=
    ⟨by rw [hctx], by rw [hctx], by rw [hctx], .inr rfl⟩
  obtain ⟨hans, hev⟩ := State.complete_leaves rfl hsame 0x00 y
  refine ⟨hans, ?_, fun d hd => (State.complete_ctx_ne _ _ y _ hd).trans (State.updCtx_ne _ _ hd), hev⟩
  rw [State.complete_ctx_same]
  exact congrArg Ctx.zhp hctx

/-! ### IDENTIFY (R55) -/

theorem identify_does {s : State} {c : CtxId} {y : Submission}
    (ha : s.Accepts c { op := 0x01, since := 0x20, kinds := [0], slotted := false, args := [] } y) (hl : 256 ≤ y.len.toNat) :
    Does (.identify c y) s (fun t => s.Answered t c y (okRes 0 0) ∧
      t.bus = s.completion c y (okRes 0 0) :: .flushRead :: .memWrite y.addr.toNat (identifyBytes s) false :: s.subRead c :: s.bus ∧
      (∀ d : CtxId, d ≠ c → t.ctxs[d] = s.ctxs[d]) ∧
      { s with ctxs := t.ctxs, bus := t.bus, jrnl := t.jrnl }.EventsOnly t [mgtSrc (5 * c.val), mgtSrc (5 * c.val + 1)]) := by
  have hc : firstSome [refuseIf (y.len.toNat < 256) stBadArg 0] = none :=
    firstSome_passed fun _ h => List.mem_singleton.1 h ▸ refuseIf_false (decide_eq_false (Nat.not_lt.2 hl)) _ _
  obtain ⟨hans, hev⟩ := State.complete_leaves (s := s) (w := (s.send (s.subRead c)).hostWrite y.addr.toNat (identifyBytes s)) (c := c)
    (r := okRes 0 0) rfl ⟨rfl, rfl, rfl, .inl rfl⟩ 0x01 y
  exact ⟨_, congrArg Host.Outcome.next (State.admin_done ha hc), hans, State.complete_bus _ c _ y _,
    fun d hd => State.complete_ctx_ne _ _ y _ hd, hev⟩

/-! ### Rights (R44, R55) -/

/-- The rights of the first `n` block rows that read mask `r` and write mask `w` spell. -/
def rightsBits (r w n : Nat) : Nat :=
  (List.range n).foldl (fun a b => a + b2n (bitN r b) * 2 ^ (2 * b) + b2n (bitN w b) * 2 ^ (2 * b + 1)) 0

theorem rightsBlkOf_eq (r w : Nat) : rightsBlkOf r w = rightsBits r w 14 := rfl

/-- The two rights of a row stand above those of the rows before it. -/
theorem rightsBits_succ (r w n : Nat) :
    rightsBits r w (n + 1) = 2 ^ (2 * n) * (b2n (bitN r n) + 2 * b2n (bitN w n)) + rightsBits r w n := by
  unfold rightsBits
  rw [List.range_succ, List.foldl_append, List.foldl_cons, List.foldl_nil]
  ring

theorem rightsBits_lt (r w n : Nat) : rightsBits r w n < 2 ^ (2 * n) := by
  induction n with
  | zero => exact Nat.zero_lt_one
  | succ n ih =>
    have hb (b : Bool) : b2n b ≤ 1 := by cases b <;> decide
    have hr := hb (bitN r n)
    have hw := hb (bitN w n)
    have h4 : (2 : Nat) ^ (2 * (n + 1)) = 2 ^ (2 * n) * 3 + 2 ^ (2 * n) := by ring
    rw [rightsBits_succ, h4]
    exact Nat.add_lt_add_of_le_of_lt (Nat.mul_le_mul_left _ (by omega)) ih

/-- Bit 0 of a pair of rights is the read right, bit 1 the write right. -/
theorem testBit_rightPair (x y wr : Bool) : (b2n x + 2 * b2n y).testBit (b2n wr) = if wr then y else x := by
  cases x <;> cases y <;> cases wr <;> decide

/-- The rights of a row are the bits of its number in the masks. -/
theorem rightsBits_testBit (r w : Nat) {n b : Nat} (hb : b < n) (wr : Bool) :
    (rightsBits r w n).testBit (2 * b + b2n wr) = if wr then bitN w b else bitN r b := by
  have hwr : b2n wr ≤ 1 := by cases wr <;> decide
  induction n with
  | zero => omega
  | succ n ih =>
    rw [rightsBits_succ, Nat.testBit_two_pow_mul_add _ (rightsBits_lt r w n)]
    by_cases hbn : b = n
    · subst hbn
      rw [if_neg (by omega), Nat.add_sub_cancel_left, testBit_rightPair]
    · rw [if_pos (by omega), ih (by omega)]

/-- A context whose rights are replaced. -/
def Ctx.given (x : Ctx) (r w port axis : Nat) : Ctx :=
  { x with rightsBlk := BitVec.ofNat 32 (rightsBlkOf r w), rightsPort := BitVec.ofNat 32 port, rightsAxis := BitVec.ofNat 32 axis }

/-- The rights given are those that the masks name. -/
theorem Ctx.given_blk (x : Ctx) (r w port axis : Nat) (b : Fin 14) (wr : Bool) :
    (x.given r w port axis).blk b.val wr = if wr then bitN w b.val else bitN r b.val := by
  have hlt : rightsBits r w 14 < 2 ^ 32 := (rightsBits_lt r w 14).trans (by decide)
  have hv : (BitVec.ofNat 32 (rightsBlkOf r w)).toNat = rightsBits r w 14 := by
    rw [rightsBlkOf_eq, BitVec.toNat_ofNat, Nat.mod_eq_of_lt hlt]
  show bitN (BitVec.ofNat 32 (rightsBlkOf r w)).toNat _ = _
  rw [hv]
  exact rightsBits_testBit r w b.isLt wr

/-- Another context than the owner's takes the rights given. -/
theorem State.giveRights_other (s : State) {u : CtxId} (hu : u ≠ 0) (r w port axis : Nat) :
    s.giveRights u (rightsBlkOf r w) port axis = s.updCtx u (fun x => x.given r w port axis) :=
  State.updCtx_congr s u (if_neg fun h => hu (Fin.ext h))

/-- The journal entry of a change of rights (R384). -/
def rightsEntry (y : Submission) : JEntry := { jentry 12 0 0 with cmd := y.cid.toNat, target := y.target.toNat, new := y.arg 0 }

section

variable {s : State} {y : Submission} {u : CtxId}
  (ha : s.Accepts 0 { op := 0x02, since := 0x20, kinds := [7], slotted := false, args := [0, 1, 2, 3] } y)
  (hz : 0x30 ≤ s.ctxs[(0 : CtxId)].zhp) (hy : y.unit = u.val) (hu : u ≠ 0) (h0 : y.arg 0 < 2 ^ 14) (h1 : y.arg 1 < 2 ^ 14)
  (h3 : y.arg 3 < 2 ^ 16)
include ha hz hy hu h0 h1 h3

/-- SET_RIGHTS of another context passes its checks, gives the rights and completes. -/
theorem setRights_done : exec (.setRights 0 y) s = .next ((((s.send (s.subRead 0)).updCtx u
    (fun x => x.given (y.arg 0) (y.arg 1) (y.arg 2) (y.arg 3))).journal (rightsEntry y)).complete 0 0x02 y (okRes 0 0)) := by
  have hu0 : u.val ≠ 0 := fun h => hu (Fin.ext h)
  have hc : firstSome [refuseIf (y.unit = 0) stBadArg 0, refuseIf ((0 : CtxId).val ≠ 0) stDenied 0, refuseIf (2 ^ 14 ≤ y.arg 0) stBadArg 1,
      refuseIf (2 ^ 14 ≤ y.arg 1) stBadArg 2, refuseIf (0x30 ≤ s.ctxs[(0 : CtxId)].zhp && 2 ^ 16 ≤ y.arg 3) stBadArg 4] = none := by
    refine firstSome_passed ?_
    simp only [List.forall_mem_cons]
    exact ⟨refuseIf_false (decide_eq_false (hy ▸ hu0)) _ _, rfl, refuseIf_false (decide_eq_false (Nat.not_le.2 h0)) _ _,
      refuseIf_false (decide_eq_false (Nat.not_le.2 h1)) _ _,
      refuseIf_false (by rw [decide_eq_false (Nat.not_le.2 h3), Bool.and_false]) _ _, fun _ h => nomatch h⟩
  have hyu : (⟨y.unit % 8, Nat.mod_lt _ (by decide)⟩ : CtxId) = u := Fin.ext ((congrArg (· % 8) hy).trans (Nat.mod_eq_of_lt u.isLt))
  refine (congrArg Host.Outcome.next (State.admin_done ha hc)).trans ?_
  rw [hyu, if_pos hz, Nat.mod_eq_of_lt h3]
  dsimp only
  rw [State.giveRights_other _ hu]
  rfl

theorem setRights_does : Does (.setRights 0 y) s (fun t => s.Answered t 0 y (okRes 0 0) ∧
    t.ctxs[u] = s.ctxs[u].given (y.arg 0) (y.arg 1) (y.arg 2) (y.arg 3) ∧ (∀ d : CtxId, d ≠ 0 → d ≠ u → t.ctxs[d] = s.ctxs[d]) ∧
    { s with ctxs := t.ctxs, bus := t.bus, jrnl := t.jrnl }.EventsOnly t [mgtSrc 0, mgtSrc 1]) := by
  have hdone := setRights_done ha hz hy hu h0 h1 h3
  generalize hw : ((s.send (s.subRead 0)).updCtx u
    (fun x => x.given (y.arg 0) (y.arg 1) (y.arg 2) (y.arg 3))).journal (rightsEntry y) = w at hdone
  have hf : w = { s with ctxs := w.ctxs, bus := w.bus, jrnl := w.jrnl } := hw ▸ rfl
  have hgiven : w.ctxs[u] = s.ctxs[u].given (y.arg 0) (y.arg 1) (y.arg 2) (y.arg 3) := hw ▸ State.updCtx_same
    (s.send (s.subRead 0)) u (fun x => x.given (y.arg 0) (y.arg 1) (y.arg 2) (y.arg 3))
  have hother (d : CtxId) (hd : d ≠ u) : w.ctxs[d] = s.ctxs[d] := hw ▸ State.updCtx_ne
    (s.send (s.subRead 0)) (fun x => x.given (y.arg 0) (y.arg 1) (y.arg 2) (y.arg 3)) hd
  obtain ⟨hans, hev⟩ := State.complete_leaves hf (.of_ctx (hother 0 hu.symm) (okRes 0 0)) 0x02 y
  exact ⟨_, hdone, hans, (State.complete_ctx_ne w _ y _ hu).trans hgiven,
    fun d hd hdu => (State.complete_ctx_ne w _ y _ hd).trans (hother d hdu), hev⟩

end

/-- What GET_RIGHTS answers of a context (R426). -/
def State.rightsAnswer (s : State) (u : CtxId) : AdmRes :=
  { status := 0, r0 := rightsMask (s.ctxs[u]).rightsBlk.toNat 0 + 2 ^ 16 * rightsMask (s.ctxs[u]).rightsBlk.toNat 1,
    r1 := (s.ctxs[u]).rightsPort.toNat, detail := (s.ctxs[u]).rightsAxis.toNat % 2 ^ 16 }

theorem getRights_does {s : State} {c : CtxId} {y : Submission} {u : CtxId}
    (ha : s.Accepts c { op := 0x03, since := 0x20, kinds := [7], slotted := false, args := [] } y) (hy : y.unit = u.val)
    (hright : y.unit = c.val ∨ (s.ctxs[c]).blk 0 false = true) :
    Does (.getRights c y) s (fun t =>
      s.Answered t c y { status := 0, r0 := rightsMask (s.ctxs[u]).rightsBlk.toNat 0 + 2 ^ 16 * rightsMask (s.ctxs[u]).rightsBlk.toNat 1,
                         r1 := (s.ctxs[u]).rightsPort.toNat, detail := (s.ctxs[u]).rightsAxis.toNat % 2 ^ 16 } ∧
      (∀ d : CtxId, d ≠ c → t.ctxs[d] = s.ctxs[d]) ∧
      { s with ctxs := t.ctxs, bus := t.bus, jrnl := t.jrnl }.EventsOnly t [mgtSrc (5 * c.val), mgtSrc (5 * c.val + 1)]) := by
  have hc : firstSome [refuseIf (y.unit ≠ c.val && !(s.ctxs[c]).blk 0 false) stDenied 0] = none := by
    refine firstSome_passed fun _ h => List.mem_singleton.1 h ▸ refuseIf_false ?_ _ _
    rcases hright with h | h
    · rw [decide_eq_false (not_not.2 h), Bool.false_and]
    · rw [h, Bool.not_true, Bool.and_false]
  have hyu : (⟨y.unit % 8, Nat.mod_lt _ (by decide)⟩ : CtxId) = u := Fin.ext ((congrArg (· % 8) hy).trans (Nat.mod_eq_of_lt u.isLt))
  have hdone : exec (.getRights c y) s = .next ((s.send (s.subRead c)).complete c 0x03 y (s.rightsAnswer _)) :=
    congrArg Host.Outcome.next (State.admin_done ha hc)
  rw [congrArg s.rightsAnswer hyu] at hdone
  obtain ⟨hans, hev⟩ := State.complete_leaves (s := s) (w := s.send (s.subRead c)) (c := c) (r := s.rightsAnswer u) rfl
    ⟨rfl, rfl, rfl, .inl rfl⟩ 0x03 y
  exact ⟨_, hdone, hans, fun d hd => State.complete_ctx_ne _ _ y _ hd, hev⟩

/-- Settles O8: each command passes its checks, has its effect and is answered. -/
theorem contextCommands : Obligations.ContextCommands := by
  unfold Obligations.ContextCommands
  refine ⟨?unlisted, ?hello, ?identify, ?setRights, ?getRights⟩
  case unlisted =>
    intro c y s hs ho hz
    have hans := (State.complete_leaves (s := s) (w := s.send (s.subRead c)) (c := c) (r := refuse stBadArg 0) rfl
      ⟨rfl, rfl, rfl, .inr rfl⟩ 0x00 y).1
    exact ⟨_, congrArg Host.Outcome.next (State.admin_unlisted hs ho hz), hans, rfl⟩
  case hello =>
    intro c y s ha hz hn hp
    obtain ⟨t, ht, hans, hzhp, hother, hev⟩ := hello_does ha hz hn hp
    exact ⟨t, ht, hans, hzhp, fun v hv hk => hzhp ▸ le_helloPick hv hk, hother, hev⟩
  case identify => exact fun c y s ha hl => identify_does ha hl
  case setRights =>
    intro y s u ha hz hy hu h0 h1 h3
    obtain ⟨t, ht, hans, hgiven, hother, hev⟩ := setRights_does ha hz hy hu h0 h1 h3
    refine ⟨t, ht, hans, hgiven, fun b => ?_, hother, hev⟩
    rw [hgiven]
    exact ⟨Ctx.given_blk _ _ _ _ _ b false, Ctx.given_blk _ _ _ _ _ b true⟩
  case getRights => exact fun c y s u ha hy hright => getRights_does ha hy hright

end Sys2Proof.Machine
end

section
/-! SUPPORT. O7: what a write through a window serves, and the words that it reaches (R84, R85, R166). -/

namespace Sys2Proof.Machine

/-! ### Where a word of a window lies -/

/-- Nothing but registers lies in the last 64 KiB of the ENG window. -/
theorem engLoc_reg (e : EngId) {off : Nat} (h : 0x3F0000 ≤ off) : engLoc e off = none := by
  have hi : imemSize (engKind e) ≤ 4096 := by unfold imemSize; split <;> decide
  unfold engLoc
  rw [if_neg (by omega), if_neg (by omega), if_neg (by omega)]

theorem Ctx.winLoc_reg (x : Ctx) {off : Nat} (h : 0x3F0000 ≤ off ∧ off < 0x400000) : x.winLoc off = none := by
  unfold Ctx.winLoc
  rw [if_pos h.2, engLoc_reg _ h.1]

theorem Ctx.winLoc_eng (x : Ctx) {off : Nat} (h : off < 0x400000) : x.winLoc off = engLoc (Machine.selEngine x.selEngine.toNat) off := if_pos h

theorem Ctx.winLoc_tbl (x : Ctx) {off : Nat} (h : 0x400000 ≤ off) : x.winLoc off = tblLoc x.selTable.toNat off := if_neg (Nat.not_lt.2 h)

/-- What the ENG window holds at an offset: a word of instruction memory, of parameter memory, of scratch, or nothing. -/
theorem engLoc_cases {e : EngId} {off : Nat} {l : MemLoc} (h : engLoc e off = some l) :
    (∃ w, l = .imem e w) ∨
      (0x300000 ≤ off ∧ off < 0x320000 ∧ l = .param e ((off - 0x300000) / 0x4000) ((off - 0x300000) % 0x4000 / 4)) ∨
      (0x380000 ≤ off ∧ off < 0x380400 ∧ l = .scratch e ((off - 0x380000) / 4)) := by
  unfold engLoc at h
  split at h
  · exact .inl ⟨_, (Option.some.inj h).symm⟩
  · split at h
    · next hp => exact .inr (.inl ⟨hp.1, hp.2, (Option.some.inj h).symm⟩)
    · split at h
      · next hs => exact .inr (.inr ⟨hs.1, hs.2, (Option.some.inj h).symm⟩)
      · cases h

/-- The memory that a place lies in: the tables by their numbers in SEL_TABLE, behind them the memories of an engine and the
script store. -/
def MemLoc.memory (l : MemLoc) : Nat :=
  match l with
  | .shade .. => 0 | .defect .. => 1 | .mstepNext .. | .mstepNow .. => 2 | .index .. => 3 | .lut .. => 4
  | .param .. => 5 | .scratch .. => 6 | .imem .. => 7 | .store .. => 8

/-- Two words of 32 bits that make one of 64 bits in the ENG window lie in one memory. -/
theorem engLoc_memory {e : EngId} {off : Nat} {l m : MemLoc} (hz : off % 8 = 0) (hl : engLoc e off = some l)
    (hm : engLoc e (off + 4) = some m) : l.memory = 7 ∨ l.memory = m.memory := by
  have hi : imemSize (engKind e) ≤ 4096 := by unfold imemSize; split <;> decide
  rcases engLoc_cases hl with ⟨w, rfl⟩ | ⟨h1, h2, rfl⟩ | ⟨h1, h2, rfl⟩
  · exact .inl rfl
  · unfold engLoc at hm
    rw [if_neg (by omega), if_pos (by omega)] at hm
    rw [← Option.some.inj hm]
    simp only [MemLoc.memory, or_true]
  · unfold engLoc at hm
    rw [if_neg (by omega), if_neg (by omega), if_pos (by omega)] at hm
    rw [← Option.some.inj hm]
    simp only [MemLoc.memory, or_true]

/-- A place within the bound of a table. -/
theorem eq_of_ite_some {P : Prop} [Decidable P] {l m : MemLoc} (h : (if P then some l else none) = some m) : m = l := by
  split at h
  · exact (Option.some.inj h).symm
  · cases h

/-- What the TBL window holds at an offset. -/
theorem tblLoc_cases {v off : Nat} {l : MemLoc} (h : tblLoc v off = some l) :
    let p : PortId := ⟨fld v 11 8 % 16, Nat.mod_lt _ (by decide)⟩
    let a : AxisId := ⟨fld v 11 8 % 8, Nat.mod_lt _ (by decide)⟩
    let o := off - 0x400000
    (fld v 3 0 = 0 ∧ l = .shade p (fld v 12 12) (o / 4)) ∨ (fld v 3 0 = 1 ∧ l = .defect p (fld v 12 12) (o / 4)) ∨
      (fld v 3 0 = 2 ∧ o < 0x200 ∧ l = .mstepNext a (o / 4)) ∨ (fld v 3 0 = 2 ∧ 0x200 ≤ o ∧ l = .mstepNow a ((o - 0x200) / 4)) ∨
      (fld v 3 0 = 3 ∧ l = .index (fld v 21 16) (o / 4)) ∨ (fld v 3 0 = 4 ∧ l = .lut p (fld v 21 16) (o / 4)) := by
  intro p a o
  unfold tblLoc at h
  split at h
  case h_1 hk => exact .inl ⟨hk, eq_of_ite_some h⟩
  case h_2 hk => exact .inr (.inl ⟨hk, eq_of_ite_some h⟩)
  case h_3 hk =>
    dsimp only at h
    split at h
    · next ho => exact .inr (.inr (.inl ⟨hk, ho, (Option.some.inj h).symm⟩))
    · next ho => exact .inr (.inr (.inr (.inl ⟨hk, Nat.le_of_not_lt ho, eq_of_ite_some h⟩)))
  case h_4 hk => exact .inr (.inr (.inr (.inr (.inl ⟨hk, eq_of_ite_some h⟩))))
  case h_5 hk => exact .inr (.inr (.inr (.inr (.inr ⟨hk, eq_of_ite_some h⟩))))
  case h_6 => cases h

/-- SEL_TABLE names the memory that the TBL window reaches. -/
theorem tblLoc_memory {v off : Nat} {l : MemLoc} (h : tblLoc v off = some l) : l.memory = fld v 3 0 := by
  rcases tblLoc_cases h with ⟨hk, rfl⟩ | ⟨hk, rfl⟩ | ⟨hk, _, rfl⟩ | ⟨hk, _, rfl⟩ | ⟨hk, rfl⟩ | ⟨hk, rfl⟩ <;> exact hk.symm

theorem Ctx.winLoc_memory {x : Ctx} {off : Nat} {l m : MemLoc} (hz : off % 8 = 0) (hl : x.winLoc off = some l)
    (hm : x.winLoc (off + 4) = some m) : l.memory = 7 ∨ l.memory = m.memory := by
  by_cases h : off < 0x400000
  · rw [x.winLoc_eng h] at hl
    rw [x.winLoc_eng (by omega)] at hm
    exact engLoc_memory hz hl hm
  · rw [x.winLoc_tbl (by omega)] at hl hm
    exact .inr ((tblLoc_memory hl).trans (tblLoc_memory hm).symm)

/-! ### A served write -/

/-- The journal entry of a memory write changes the journal alone. -/
theorem State.noteMem_frame (s : State) (c : CtxId) (l : MemLoc) : s.noteMem c l = { s with jrnl := (s.noteMem c l).jrnl } := by
  unfold State.noteMem
  simp only []
  split
  · rfl
  · split <;> rfl

section

variable {s : State} {c : CtxId} {off size : Nat} (h : s.Serves c off true) (hz : sizeOk off size = true) (hw : 0x200000 ≤ off)
include h hz hw

theorem State.busWrite_window (v : Nat) : s.busWrite c off size v = s.winWrite c off size v := by
  unfold State.busWrite
  rw [if_neg h.1, hz, h.2, if_neg (by simp), if_neg (by simp), if_pos hw]

end

theorem State.winWrite_word (s : State) (c : CtxId) (off v : Nat) :
    s.winWrite c off 4 v = if s.winShut c off then s.badAccess c off else s.winWord c off (v % 2 ^ 32) := by
  unfold State.winWrite
  simp

/-- A word of a window that is no ENG register goes to its place. -/
theorem State.winWord_some {s : State} {c : CtxId} {off : Nat} {l : MemLoc} (v : Nat) (hl : s.ctxs[c].winLoc off = some l) :
    s.winWord c off v = (s.memWrite l v).noteMem c l := by
  have hr : ¬(0x3F0000 ≤ off ∧ off < 0x400000) := fun hr => by
    rw [Ctx.winLoc_reg _ hr] at hl
    cases hl
  unfold State.winWord
  rw [if_neg hr, hl]

theorem State.winWord_none {s : State} {c : CtxId} {off : Nat} (v : Nat) (hl : s.ctxs[c].winLoc off = none)
    (hr : ¬(0x3F0000 ≤ off ∧ off < 0x400000)) : s.winWord c off v = s := by
  unfold State.winWord
  rw [if_neg hr, hl]

theorem State.winWord_engReg {s : State} {c : CtxId} {off : Nat} (v : Nat) (hr : 0x3F0000 ≤ off ∧ off < 0x400000) :
    s.winWord c off v = s.engRegWrite (Machine.selEngine s.ctxs[c].selEngine.toNat) (off - 0x3F0000) v := by
  unfold State.winWord
  rw [if_pos hr]

section

variable {s : State} {c : CtxId} {off : Nat} (h : s.Serves c off true) (hz : off % 4 = 0) (hw : 0x200000 ≤ off)
include h hz hw

theorem State.busWrite_winWord (v : Nat) (hs : s.winShut c off = false) : s.busWrite c off 4 v = s.winWord c off (v % 2 ^ 32) := by
  rw [State.busWrite_window h (sizeOk_word hz) hw, State.winWrite_word, if_neg (by simp [hs])]

/-- A write to a place that is open stores the word; the journal may note it. -/
theorem State.busWrite_open {l : MemLoc} (v : Nat) (hl : s.ctxs[c].winLoc off = some l) (hb : s.memBlocked l = false) :
    ∃ j, s.busWrite c off 4 v = { s.memWrite l (v % 2 ^ 32) with jrnl := j } := by
  have hs : s.winShut c off = false := by
    unfold State.winShut
    rw [hl]
    exact hb
  exact ⟨_, (State.busWrite_winWord h hz hw v hs).trans ((State.winWord_some _ hl).trans (State.noteMem_frame _ c l))⟩

/-- A write to a closed place is a bad access. -/
theorem State.busWrite_shut {l : MemLoc} (v : Nat) (hl : s.ctxs[c].winLoc off = some l) (hb : s.memBlocked l = true) :
    s.busWrite c off 4 v = s.badAccess c off := by
  have hs : s.winShut c off = true := by
    unfold State.winShut
    rw [hl]
    exact hb
  rw [State.busWrite_window h (sizeOk_word hz) hw, State.winWrite_word, if_pos hs]

/-- Where nothing lies nothing happens. -/
theorem State.busWrite_nowhere (v : Nat) (hl : s.ctxs[c].winLoc off = none) (hr : ¬(0x3F0000 ≤ off ∧ off < 0x400000)) :
    s.busWrite c off 4 v = s := by
  have hs : s.winShut c off = false := by
    unfold State.winShut
    rw [hl]
  exact (State.busWrite_winWord h hz hw v hs).trans (State.winWord_none _ hl hr)

theorem State.busWrite_engReg (v : Nat) (hr : 0x3F0000 ≤ off ∧ off < 0x400000) :
    s.busWrite c off 4 v = s.engRegWrite (selEngine s.ctxs[c].selEngine.toNat) (off - 0x3F0000) (v % 2 ^ 32) := by
  have hs : s.winShut c off = false := by
    unfold State.winShut
    rw [Ctx.winLoc_reg _ hr]
  exact (State.busWrite_winWord h hz hw v hs).trans (State.winWord_engReg _ hr)

end

/-- What a bad access leaves. -/
theorem State.badAccess_leaves {s : State} (hm : s.MemOk) (c : CtxId) (off : Nat) :
    let t := s.badAccess c off
    { s with jrnl := t.jrnl }.EventsOnly t [mgtSrc (5 * c.val + 3)] ∧
      t.raisings (mgtSrc (5 * c.val + 3)) = s.raisings (mgtSrc (5 * c.val + 3)) + 1 := by
  have h : { s with jrnl := (s.badAccess c off).jrnl, rdata := (s.badAccess c off).rdata }.EventsOnly
      (s.badAccess c off) [mgtSrc (5 * c.val + 3)] := State.badAccess_eventsOnly s c off _
  rw [State.badAccess_rdata] at h
  exact ⟨h, State.badAccess_raisings hm c off⟩

/-! ### A 64-bit write is its two halves in order -/

/-- The banks that the host may not write are the same in both states (R168, R176). -/
def State.SameBanks (s t : State) : Prop :=
  ∀ (p : PortId) (table b : Nat), t.bankActive p table b = s.bankActive p table b ∧ t.computing p table b = s.computing p table b

theorem State.SameBanks.trans {s t w : State} (h : s.SameBanks t) (g : t.SameBanks w) : s.SameBanks w :=
  fun p table b => ⟨(g p table b).1.trans (h p table b).1, (g p table b).2.trans (h p table b).2⟩

/-- PIP_BANK_STAT says nothing of which banks are in use. -/
theorem State.setRf_sameBanks (s : State) (u hi lo x : Nat) : s.SameBanks (s.setRf u Off.PIP_BANK_STAT hi lo x) := by
  intro p table b
  have hsel : (s.setRf u Off.PIP_BANK_STAT hi lo x).cell p.val Off.PIP_TBLSEL = s.cell p.val Off.PIP_TBLSEL :=
    State.cell_setRf_ne (rkey_ne_of_off (by decide) (by decide) (by decide)) hi lo x
  have hcal : (s.setRf u Off.PIP_BANK_STAT hi lo x).cell p.val Off.PIP_CAL = s.cell p.val Off.PIP_CAL :=
    State.cell_setRf_ne (rkey_ne_of_off (by decide) (by decide) (by decide)) hi lo x
  constructor
  · unfold State.bankActive State.futureCut State.eff
    rw [hsel]
    rfl
  · unfold State.computing State.rf State.eff
    rw [hsel, hcal]
    rfl

/-- A change of a pipeline that keeps a part of it keeps it at every port. -/
theorem State.updPipe_field {α : Type} (s : State) (p q : PortId) {f : PipeSt → PipeSt} {g : PipeSt → α} (h : ∀ y, g (f y) = g y) :
    g ((s.updPipe p f).port q).pipe = g (s.port q).pipe := by
  by_cases hq : q = p
  · subst hq
    exact (congrArg (fun x : PortSt => g x.pipe) (State.updPort_same s q _)).trans (h _)
  · exact congrArg (fun x : PortSt => g x.pipe) (State.updPort_ne s _ hq)

theorem State.updPipe_sameBanks (s : State) (q : PortId) {f : PipeSt → PipeSt} (hs : ∀ y, (f y).shadeBank = y.shadeBank)
    (hd : ∀ y, (f y).defBank = y.defBank) (hc : ∀ y, (f y).compute = y.compute) : s.SameBanks (s.updPipe q f) := by
  intro p table b
  have hshade : ((s.updPipe q f).port p).pipe.shadeBank = (s.port p).pipe.shadeBank := State.updPipe_field s q p hs
  have hdef : ((s.updPipe q f).port p).pipe.defBank = (s.port p).pipe.defBank := State.updPipe_field s q p hd
  have hcomp : ((s.updPipe q f).port p).pipe.compute = (s.port p).pipe.compute := State.updPipe_field s q p hc
  constructor
  · unfold State.bankActive
    simp only [hshade, hdef]
    rfl
  · unfold State.computing
    rw [hcomp]
    rfl

theorem State.entryWritten_sameBanks (s : State) (p : PortId) (table ph e : Nat) : s.SameBanks (s.entryWritten p table ph e) := by
  unfold State.entryWritten
  split
  · exact fun _ _ _ => ⟨rfl, rfl⟩
  · exact State.updPipe_sameBanks s p (fun _ => rfl) (fun _ => rfl) fun _ => rfl

theorem State.bankWritten_sameBanks (s : State) (p : PortId) (table b : Nat) : s.SameBanks (s.bankWritten p table b) := by
  refine ((State.setRf_sameBanks s _ _ _ _).trans (State.setRf_sameBanks _ _ _ _ _)).trans
    (State.updPipe_sameBanks _ p (fun y => ?_) (fun y => ?_) fun y => ?_) <;> split <;> rfl

/-- Whether a slot counts as current does not depend on its VERIFIED bit. -/
theorem State.unverify_counts (s : State) (v : UnitId) (j : Nat) (u : UnitId) (k : Nat) : (s.unverify v j).counts u k = s.counts u k := by
  unfold State.counts
  by_cases h : u = v
  · subst h
    unfold State.unverify
    rw [State.updUnit_same]
    rfl
  · have hu : (s.unverify v j).unit u = s.unit u := State.updUnit_ne s _ h
    rw [hu]
    rfl

/-- Nor on the words of parameter memory. -/
theorem State.updEng_counts (s : State) (e : EngId) {f : Eng → Eng} (ho : ∀ x, (f x).old = x.old) (hs : ∀ x, (f x).setup = x.setup)
    (u : UnitId) (k : Nat) : (s.updEng e f).counts u k = s.counts u k := by
  have hold (d : EngId) : ((s.updEng e f).eng d).old = (s.eng d).old := by
    by_cases h : d = e
    · subst h
      rw [State.updEng_same, ho]
    · rw [State.updEng_ne s f h]
  have hset (d : EngId) : ((s.updEng e f).eng d).setup = (s.eng d).setup := by
    by_cases h : d = e
    · subst h
      rw [State.updEng_same, hs]
    · rw [State.updEng_ne s f h]
  unfold State.counts
  simp only [hold, hset]
  rfl

/-- A write of a word that is open closes no word of the same memory. -/
theorem State.memWrite_memBlocked {s : State} {l m : MemLoc} (hk : l.memory = 7 ∨ l.memory = m.memory) (hl : s.memBlocked l = false)
    (v : Nat) : (s.memWrite l v).memBlocked m = s.memBlocked m := by
  have hk : l.memory = m.memory := hk.resolve_left fun h => by
    cases l
    case imem => exact Bool.noConfusion hl
    all_goals simp [MemLoc.memory] at h
  match l, m, hk with
  | .shade p b w, .shade q d w', _ =>
    obtain ⟨ha, hc⟩ := ((State.entryWritten_sameBanks (s.setTbl _ v) p 0 (s.phys p 0 b) w).trans
      (State.bankWritten_sameBanks _ p 0 b)) q 0 d
    exact congrArg₂ (· || ·) ha hc
  | .defect p b w, .defect q d w', _ =>
    obtain ⟨ha, hc⟩ := ((State.entryWritten_sameBanks (s.setTbl _ v) p 1 (s.phys p 1 b) (w / 2)).trans
      (State.bankWritten_sameBanks _ p 1 b)) q 1 d
    exact congrArg₂ (· || ·) ha hc
  | .lut p i w, .lut q j w', _ => exact State.unverify_counts _ _ _ _ _
  | .index i w, .index j w', _ => rfl
  | .mstepNext a w, .mstepNext b w', _ =>
    show ((s.setMstep a _ _).setMstep a _ _).memBlocked (.mstepNext b w') = _
    unfold State.setMstep
    split_ifs <;> rfl
  | .mstepNext _ _, .mstepNow _ _, _ => rfl
  | .mstepNow _ _, _, _ => cases hl
  | .param d k w, .param e j w', _ =>
    refine (State.unverify_counts _ _ _ _ _).trans (State.updEng_counts s d ?_ ?_ _ _) <;> exact fun _ => rfl
  | .scratch d w, .scratch e w', _ => rfl
  | .imem _ _, _, _ => cases hl
  | .store _, .store _, _ => rfl

theorem State.entryWritten_ctxs (s : State) (p : PortId) (table ph e : Nat) : (s.entryWritten p table ph e).ctxs = s.ctxs := by
  unfold State.entryWritten
  split <;> rfl

theorem State.entryWritten_regs (s : State) (p : PortId) (table ph e : Nat) : (s.entryWritten p table ph e).regs = s.regs := by
  unfold State.entryWritten
  split <;> rfl

theorem State.setMstep_frame (s : State) (a : AxisId) (j v : Nat) :
    s.setMstep a j v = { s with mstepNext := (s.setMstep a j v).mstepNext } := by
  unfold State.setMstep
  split <;> rfl

theorem State.memWrite_mstepNext (s : State) (a : AxisId) (w v : Nat) :
    s.memWrite (.mstepNext a w) v = { s with mstepNext := (s.memWrite (.mstepNext a w) v).mstepNext } := by
  show (s.setMstep a _ _).setMstep a _ _ = { s with mstepNext := ((s.setMstep a _ _).setMstep a _ _).mstepNext }
  rw [State.setMstep_frame (s.setMstep a _ _), State.setMstep_frame s]

/-- A write of a word changes no context. -/
theorem State.memWrite_ctxs (s : State) (l : MemLoc) (v : Nat) : (s.memWrite l v).ctxs = s.ctxs := by
  cases l with
  | shade p b w => exact State.entryWritten_ctxs (s.setTbl _ v) p 0 _ _
  | defect p b w => exact State.entryWritten_ctxs (s.setTbl _ v) p 1 _ _
  | mstepNext a w => rw [State.memWrite_mstepNext]
  | _ => rfl

/-- Of the registers it changes PIP_BANK_STAT alone. -/
theorem State.bankWritten_sameRegs (s : State) (p : PortId) (table b : Nat) :
    s.SameRegs (s.bankWritten p table b) [rkey p.val Off.PIP_BANK_STAT] :=
  ((State.setCell_sameRegs s p.val Off.PIP_BANK_STAT _).trans (State.setCell_sameRegs _ p.val Off.PIP_BANK_STAT _)).trans
    (.of_regs rfl _)

theorem State.memWrite_cell (s : State) (l : MemLoc) (v u : Nat) {off : Nat} (ho : off < 0x800000) (hb : off ≠ Off.PIP_BANK_STAT) :
    (s.memWrite l v).cell u off = s.cell u off := by
  have hk (p : PortId) : rkey u off ∉ [rkey p.val Off.PIP_BANK_STAT] :=
    fun h => rkey_ne_of_off ho (by decide) hb (List.mem_singleton.1 h)
  cases l with
  | shade p b w =>
    exact (State.bankWritten_sameRegs _ p 0 b _ (hk p)).trans
      (congrArg (mget resetCell · _) (State.entryWritten_regs (s.setTbl _ v) p 0 _ _))
  | defect p b w =>
    exact (State.bankWritten_sameRegs _ p 1 b _ (hk p)).trans
      (congrArg (mget resetCell · _) (State.entryWritten_regs (s.setTbl _ v) p 1 _ _))
  | mstepNext a w =>
    rw [State.memWrite_mstepNext]
    rfl
  | _ => rfl

/-- What the first word of a 64-bit write leaves for the second. -/
structure State.SameWindow (s t : State) (c : CtxId) (off : Nat) : Prop where
  ctxs : t.ctxs = s.ctxs
  ref : t.refSel = s.refSel
  shut : t.winShut c off = s.winShut c off

theorem State.engRegWrite_frame (s : State) (e : EngId) (o v : Nat) :
    s.engRegWrite e o v = { s with engs := (s.engRegWrite e o v).engs } := by
  unfold State.engRegWrite
  split_ifs <;> rfl

theorem State.winWord_sameWindow {s : State} {c : CtxId} {off : Nat} (v : Nat) (hz : off % 8 = 0) (hs : s.winShut c off = false) :
    s.SameWindow (s.winWord c off v) c (off + 4) := by
  by_cases hr : 0x3F0000 ≤ off ∧ off < 0x400000
  · obtain ⟨x, hw⟩ : ∃ x, s.winWord c off v = { s with engs := x } :=
      ⟨_, (State.winWord_engReg v hr).trans (State.engRegWrite_frame s _ _ _)⟩
    have hnone : s.ctxs[c].winLoc (off + 4) = none := Ctx.winLoc_reg _ (by omega)
    rw [hw]
    refine ⟨rfl, rfl, ?_⟩
    unfold State.winShut
    dsimp only
    rw [hnone]
  · cases hl : s.ctxs[c].winLoc off with
    | none =>
      rw [State.winWord_none v hl hr]
      exact ⟨rfl, rfl, rfl⟩
    | some l =>
      have hopen : s.memBlocked l = false := by
        unfold State.winShut at hs
        rwa [hl] at hs
      have hctxs := State.memWrite_ctxs s l v
      rw [State.winWord_some v hl, State.noteMem_frame]
      refine ⟨hctxs, ?_, ?_⟩
      · exact congrArg (fun x : RegCell => fld x.force.toNat 1 0) (State.memWrite_cell s l v 0 (by decide) (by decide))
      · have hctx : (s.memWrite l v).ctxs[c] = s.ctxs[c] := congrArg (·[c]) hctxs
        unfold State.winShut
        dsimp only
        rw [hctx]
        cases hm : s.ctxs[c].winLoc (off + 4) with
        | none => rfl
        | some m => exact State.memWrite_memBlocked (Ctx.winLoc_memory hz hl hm) hopen v

/-- The blocks of the windows (Table 17.2). -/
theorem blockRow_window {off : Nat} (hw : 0x200000 ≤ off) :
    blockRow off = if off < 0x400000 then some 12 else if off < 0x800000 then some 13 else none := by
  unfold blockRow
  iterate 13 rw [if_neg (by omega)]

/-- The rights that a window asks for are those of the window, not of the offset in it. -/
theorem Ctx.allowed_next (x : Ctx) {off : Nat} (hz : off % 8 = 0) (hw : 0x200000 ≤ off) (wr : Bool) :
    x.allowed (off + 4) wr = x.allowed off wr := by
  have hrow := blockRow_window hw
  have hnext : blockRow (off + 4) = blockRow off := by
    rw [hrow, blockRow_window (by omega)]
    simp only [show off + 4 < 0x400000 ↔ off < 0x400000 by omega, show off + 4 < 0x800000 ↔ off < 0x800000 by omega]
  unfold Ctx.allowed Ctx.unitOf
  rw [hnext, hrow]
  split_ifs <;> rfl

/-- A 64-bit write of open places is its two halves in order (R85). -/
theorem State.busWrite_halves {s : State} {c : CtxId} {off : Nat} (h : s.Serves c off true) (hz : off % 8 = 0) (hw : 0x200000 ≤ off)
    (h0 : s.winShut c off = false) (h4 : s.winShut c (off + 4) = false) {v lo hi : Nat} (hlo : lo % 2 ^ 32 = v % 2 ^ 32)
    (hhi : hi % 2 ^ 32 = v / 2 ^ 32 % 2 ^ 32) : s.busWrite c off 8 v = (s.busWrite c off 4 lo).busWrite c (off + 4) 4 hi := by
  have hsize : sizeOk off 8 = true := (sizeOk_iff off 8).2 (.inr ⟨rfl, hz, .inl hw⟩)
  have hsame := State.winWord_sameWindow (v % 2 ^ 32) hz h0
  have hserves : (s.winWord c off (v % 2 ^ 32)).Serves c (off + 4) true := by
    refine ⟨hsame.ref ▸ h.1, ?_⟩
    rw [hsame.ctxs, Ctx.allowed_next _ hz hw]
    exact h.2
  have hword : s.busWrite c off 8 v = (s.winWord c off (v % 2 ^ 32)).winWord c (off + 4) (v / 2 ^ 32 % 2 ^ 32) := by
    rw [State.busWrite_window h hsize hw]
    unfold State.winWrite
    simp [h0, h4]
  rw [hword, State.busWrite_winWord h (by omega) hw lo h0, hlo,
    State.busWrite_winWord hserves (by omega) (by omega) hi (hsame.shut.trans h4), hhi]

end Sys2Proof.Machine
end

section
/-! SUPPORT. O7: what a write of a word of each memory leaves (R85, R86, R168, R171, R185, R186, R325). -/

namespace Sys2Proof.Machine

/-! ### Fields of one register -/

section

variable {s : State} (hm : s.MemOk) (u off : Nat) {hi lo hi' lo' : Nat} (x : Nat) (hl : lo ≤ hi) (hh : hi < 32) (hl' : lo' ≤ hi')
include hm hl hh hl'

/-- A field that the device sets leaves the fields below it. -/
theorem State.rf_setRf_below (h : hi' < lo) : (s.setRf u off hi lo x).rf u off hi' lo' = s.rf u off hi' lo' := by
  unfold State.rf State.eff State.setRf
  rw [State.cell_setCell_same hm, BitVec.toNat_ofNat, Nat.mod_eq_of_lt (setFld_lt _ _ _ _ (BitVec.isLt _) hl hh),
    fld_setFld_below _ _ hl' h]

omit hl' in
/-- And the fields above it. -/
theorem State.rf_setRf_above (h : hi < lo') : (s.setRf u off hi lo x).rf u off hi' lo' = s.rf u off hi' lo' := by
  unfold State.rf State.eff State.setRf
  rw [State.cell_setCell_same hm, BitVec.toNat_ofNat, Nat.mod_eq_of_lt (setFld_lt _ _ _ _ (BitVec.isLt _) hl hh),
    fld_setFld_above _ _ hl h]

end

/-! ### The memories of an engine -/

/-- The low word of a 64-bit value. -/
theorem ofNat_mod_word (v : DWord) : BitVec.ofNat 32 (v.toNat % 2 ^ 32) = v.setWidth 32 := by
  rw [← BitVec.toNat_setWidth, BitVec.ofNat_toNat, BitVec.setWidth_eq]

theorem State.unverify_ne (s : State) {u v : UnitId} (h : v ≠ u) (k : Nat) : (s.unverify u k).unit v = s.unit v :=
  State.updUnit_ne s _ h

theorem State.unverify_isVerified (s : State) (u : UnitId) (k : Nat) :
    (((s.unverify u k).unit u).slots[k % 8]'(Nat.mod_lt _ (by decide))).isVerified = false := by
  unfold State.unverify
  rw [State.updUnit_same]
  exact congrArg Slot.isVerified (Vector.getElem_set_self _)

/-- A word of parameter memory is stored, and its slot is not verified any more. -/
theorem State.memWrite_param {s : State} (hm : s.MemOk) (e : EngId) {k w : Nat} (hw : w < 4096) (v : Nat) :
    let t := s.memWrite (.param e k w) v
    (∀ d : EngId, d ≠ e → t.eng d = s.eng d) ∧ t.eng e = { s.eng e with param := (t.eng e).param } ∧
      (t.eng e).paramWord k w = BitVec.ofNat 32 v ∧
      (∀ i : Fin 8, ∀ j : Fin 4096, i.val ≠ k ∨ j.val ≠ w → (t.eng e).paramWord i.val j.val = (s.eng e).paramWord i.val j.val) ∧
      (∀ u : UnitId, u ≠ engUnit e → t.unit u = s.unit u) ∧
      ((t.unit (engUnit e)).slots[k % 8]'(Nat.mod_lt _ (by decide))).isVerified = false := by
  intro t
  have he : t.eng e = { s.eng e with param := mput (fun _ => 0) (4096 * k + w) (BitVec.ofNat 32 v) (s.eng e).param } :=
    State.updEng_same s e (fun x => { x with param := mput (fun _ => 0) (4096 * k + w) (BitVec.ofNat 32 v) x.param })
  obtain ⟨-, hparam, -⟩ := hm.engs e
  refine ⟨fun d hd => State.updEng_ne s
    (fun x => { x with param := mput (fun _ => 0) (4096 * k + w) (BitVec.ofNat 32 v) x.param }) hd, ?_, ?_, fun i j hij => ?_,
    fun u hu => State.unverify_ne _ hu k, State.unverify_isVerified _ _ k⟩
  · rw [he]
  · rw [he]
    exact mget_mput_same _ none hparam
  · rw [he]
    exact mget_mput_ne (by omega) _

/-- A word of scratch is stored. -/
theorem State.memWrite_scratch {s : State} (hm : s.MemOk) (e : EngId) (w v : Nat) :
    let t := s.memWrite (.scratch e w) v
    (∀ d : EngId, d ≠ e → t.eng d = s.eng d) ∧ t.eng e = { s.eng e with scratch := (t.eng e).scratch } ∧
      (t.eng e).scratchWord w = BitVec.ofNat 32 v ∧
      (∀ j : Fin 256, j.val ≠ w → (t.eng e).scratchWord j.val = (s.eng e).scratchWord j.val) := by
  intro t
  have he : t.eng e = { s.eng e with scratch := mput (fun _ => 0) w (BitVec.ofNat 32 v) (s.eng e).scratch } := State.updEng_same s e _
  obtain ⟨-, -, hscratch⟩ := hm.engs e
  refine ⟨fun d hd => State.updEng_ne s _ hd, ?_, ?_, fun j hj => ?_⟩
  · rw [he]
  · rw [he]
    exact mget_mput_same _ none hscratch
  · rw [he]
    exact mget_mput_ne hj _

/-! ### ENG registers -/

/-- The W1C fields of the ENG registers (R5). -/
def Eng.regWritten (x : Eng) (o v : Nat) : Eng :=
  if o = 0 ∧ bitN v 16 then { x with excess := false }
  else if o = 8 ∧ bitN v 31 then { x with trapped := none }
  else if o = 0x14 then { x with cycMax := x.cycMax % 2 ^ 32 &&& (2 ^ 32 - 1 - v % 2 ^ 32) }
  else x

theorem State.updEng_self (s : State) (e : EngId) : s.updEng e (fun x => x) = s :=
  congrArg (fun v => ({ s with engs := v } : State)) (Vector.set_getElem_self e.isLt)

theorem State.engRegWrite_eq (s : State) (e : EngId) (o v : Nat) : s.engRegWrite e o v = s.updEng e (fun x => x.regWritten o v) := by
  unfold State.engRegWrite Eng.regWritten
  by_cases h0 : o = 0
  · cases hb : bitN v 16 <;> simp [h0, State.updEng_self]
  · by_cases h8 : o = 8
    · cases hb : bitN v 31 <;> simp [h8, State.updEng_self]
    · by_cases h14 : o = 0x14
      · simp [h14]
      · simp [h0, h8, h14, State.updEng_self]

/-- ENG_CYC_MAX with the written bits cleared. -/
theorem cycMax_cleared (x : Nat) (v : DWord) :
    x % 2 ^ 32 &&& (2 ^ 32 - 1 - v.toNat % 2 ^ 32 % 2 ^ 32) = ((BitVec.ofNat 32 x) &&& ~~~(v.setWidth 32 : Word)).toNat := by
  rw [BitVec.toNat_and, BitVec.toNat_ofNat, BitVec.toNat_not, BitVec.toNat_setWidth, Nat.mod_mod]

theorem bitN_mod_word (v : DWord) {i : Nat} (hi : i < 32) : bitN (v.toNat % 2 ^ 32) i = v.getLsbD i := by
  show (v.toNat % 2 ^ 32).testBit i = v.toNat.testBit i
  rw [Nat.testBit_mod_two_pow, decide_eq_true hi, Bool.true_and]

/-! ### The banks of the tables -/

theorem State.tblWord_setTbl_same {s : State} (hm : s.MemOk) (k v : Nat) : (s.setTbl k v).tblWord k = v % 2 ^ 32 := by
  unfold State.tblWord State.setTbl
  rw [mget_mput_same _ none hm.tbl, BitVec.toNat_ofNat]

theorem State.tblWord_setTbl_ne (s : State) {k j : Nat} (h : j ≠ k) (v : Nat) : (s.setTbl k v).tblWord j = s.tblWord j :=
  congrArg BitVec.toNat (mget_mput_ne h s.tbl)

theorem State.setTbl_sameTbl (s : State) (k v : Nat) : s.SameTbl (s.setTbl k v) [k] :=
  fun _ hj => mget_mput_ne (List.ne_of_not_mem_cons hj) s.tbl

/-- An entry of a remapped table is known to be written again (R171). -/
def PipeSt.entryWritten (y : PipeSt) (e : Nat × Nat × Nat) : PipeSt :=
  { y with rewritten := if y.remaps = [] ∨ e ∈ y.rewritten then y.rewritten else y.rewritten ++ [e] }

theorem State.updPipe_self (s : State) (p : PortId) : s.updPipe p (fun y => y) = s :=
  congrArg (fun v => ({ s with ports := v } : State)) (Vector.set_getElem_self p.isLt)

theorem State.updPipe_congr (s : State) (p : PortId) {f g : PipeSt → PipeSt} (h : f (s.port p).pipe = g (s.port p).pipe) :
    s.updPipe p f = s.updPipe p g :=
  congrArg (fun y => ({ s with ports := s.ports.set p { s.port p with pipe := y } } : State)) h

theorem State.entryWritten_eq (s : State) (p : PortId) (table ph e : Nat) :
    s.entryWritten p table ph e = s.updPipe p (fun y => y.entryWritten (table, ph, e)) := by
  unfold State.entryWritten
  split
  · next h =>
    refine (State.updPipe_self s p).symm.trans (State.updPipe_congr s p ?_)
    unfold PipeSt.entryWritten
    rw [if_pos (.inl (List.isEmpty_iff.1 h))]
  · next h =>
    refine State.updPipe_congr s p ?_
    unfold PipeSt.entryWritten
    simp [List.isEmpty_iff.not.1 h]

/-- A verify that runs knows of the write of a bank (R169). -/
def PipeSt.bankWritten (y : PipeSt) (table b : Nat) : PipeSt :=
  let mark (x : Bool × Bool) := if b = 0 then (true, x.2) else (x.1, true)
  if table = 0 then { y with verS := y.verS.map mark } else { y with verD := y.verD.map mark }

/-- What the write of an entry of a bank leaves besides the entry. -/
theorem State.bankWritten_leaves {s : State} (hm : s.MemOk) (p : PortId) {table b : Nat} (ht : table < 2) (hb : b < 2) :
    let t := s.bankWritten p table b
    t.mirror p table = false ∧ t.crcValid p table b = false ∧ (∀ q : PortId, q ≠ p → t.port q = s.port q) ∧
      (t.port p).pipe = (s.port p).pipe.bankWritten table b := by
  have hm' : (s.setRf p.val Off.PIP_BANK_STAT (4 + table) (4 + table) 0).MemOk := State.setRf_memOk hm _ _ _ _ _
  have hbit : crcBit table b < 32 ∧ 4 + table < crcBit table b := by
    unfold crcBit
    split <;> omega
  have hmirror : (s.bankWritten p table b).rf p.val Off.PIP_BANK_STAT (4 + table) (4 + table) = 0 :=
    (State.rf_setRf_below hm' p.val Off.PIP_BANK_STAT 0 (Nat.le_refl _) hbit.1 (Nat.le_refl _) hbit.2).trans
      ((State.rf_setRf hm p.val Off.PIP_BANK_STAT _ _ 0 (Nat.le_refl _) (by omega)).trans (Nat.zero_mod _))
  have hcrc : (s.bankWritten p table b).rf p.val Off.PIP_BANK_STAT (crcBit table b) (crcBit table b) = 0 :=
    (State.rf_setRf hm' p.val Off.PIP_BANK_STAT _ _ 0 (Nat.le_refl _) hbit.1).trans (Nat.zero_mod _)
  refine ⟨?_, ?_, fun q hq => State.updPort_ne _ _ hq, ?_⟩
  · unfold State.mirror
    rw [hmirror]
    rfl
  · unfold State.crcValid
    rw [hcrc]
    rfl
  · refine (congrArg PortSt.pipe (State.updPipe_port _ p _)).trans ?_
    unfold PipeSt.bankWritten
    simp only [Nat.mod_eq_of_lt hb]
    rfl

/-- A write of an entry of a bank (R168 to R171). -/
theorem State.bankEntry_leaves {s : State} (hm : s.MemOk) (p : PortId) {table b : Nat} (ht : table < 2) (hb : b < 2) (key ph e v : Nat) :
    let t := ((s.setTbl key v).entryWritten p table ph e).bankWritten p table b
    t = { s with tbl := t.tbl, ports := t.ports, regs := t.regs } ∧ s.SameTbl t [key] ∧ t.tblWord key = v % 2 ^ 32 ∧
      t.mirror p table = false ∧ t.crcValid p table b = false ∧ s.SameRegs t [rkey p.val Off.PIP_BANK_STAT] ∧
      (∀ q : PortId, q ≠ p → t.port q = s.port q) ∧
      (t.port p).pipe = ((s.port p).pipe.entryWritten (table, ph, e)).bankWritten table b := by
  have hm' : ((s.setTbl key v).updPipe p (fun y => y.entryWritten (table, ph, e))).MemOk :=
    (State.updPipe_keeps p _ (State.setTbl_keeps key v (Keeps.refl (kc := false) s))).mem hm
  rw [State.entryWritten_eq]
  obtain ⟨hmirror, hcrc, hne, hpipe⟩ := State.bankWritten_leaves hm' p ht hb
  refine ⟨rfl, State.setTbl_sameTbl s key v, State.tblWord_setTbl_same hm key v, hmirror, hcrc,
    State.bankWritten_sameRegs _ p table b, fun q hq => (hne q hq).trans (State.updPort_ne _ _ hq), hpipe.trans ?_⟩
  rw [State.updPipe_port]
  rfl

/-! ### LUTs and microstep tables -/

/-- Two entries of a LUT are stored, and its setup is not verified any more. -/
theorem State.memWrite_lut {s : State} (hm : s.MemOk) (p : PortId) (i w v : Nat) :
    let t := s.memWrite (.lut p i w) v
    s.SameTbl t [lutKey p.val i (2 * w), lutKey p.val i (2 * w + 1)] ∧ t.tblWord (lutKey p.val i (2 * w)) = v % 65536 ∧
      t.tblWord (lutKey p.val i (2 * w + 1)) = v / 65536 % 65536 ∧ (∀ u : UnitId, u ≠ unitOfPort p → t.unit u = s.unit u) ∧
      ((t.unit (unitOfPort p)).slots[i / 4 % 8]'(Nat.mod_lt _ (by decide))).isVerified = false := by
  have hm' : (s.setTbl (lutKey p.val i (2 * w)) (v % 65536)).MemOk := (State.setTbl_keeps _ _ (Keeps.refl (kc := false) s)).mem hm
  have hkey : lutKey p.val i (2 * w) ≠ lutKey p.val i (2 * w + 1) := by
    unfold lutKey
    omega
  refine ⟨fun k hk => ?_, ?_, ?_, fun u hu => State.unverify_ne _ hu _, State.unverify_isVerified _ _ _⟩
  · obtain ⟨h0, h1⟩ := not_or.1 (List.mem_pair.not.1 hk)
    exact (mget_mput_ne h1 _).trans (mget_mput_ne h0 _)
  · refine (State.tblWord_setTbl_ne _ hkey _).trans ((State.tblWord_setTbl_same hm _ _).trans (Nat.mod_eq_of_lt ?_))
    omega
  · refine (State.tblWord_setTbl_same hm' _ _).trans (Nat.mod_eq_of_lt ?_)
    omega

/-- An entry of the next microstep table reads what was written. -/
theorem State.setMstep_at {s : State} (hm : s.MemOk) (a : AxisId) {i : Nat} (hi : i < 256) (v : Nat) (b : AxisId) (j : Fin 256) :
    mstepAt sineT (s.setMstep a i v).mstepNext b.val j.val =
      if b = a ∧ j.val = i then v % 4096 else mstepAt sineT s.mstepNext b.val j.val := by
  have hkey : 256 * b.val + j.val = 256 * a.val + i ↔ b = a ∧ j.val = i := by
    rw [Fin.ext_iff]
    omega
  have hj : j.val ≠ 256 := by omega
  unfold State.setMstep mstepAt
  rw [if_neg (Nat.not_le.2 hi), if_neg hj, if_neg hj]
  dsimp only
  rw [mget_mput hm.mstepNext]
  simp only [hkey]
  split
  · rw [BitVec.toNat_ofNat]
    unfold fld
    omega
  · rfl

theorem State.memWrite_mstepAt {s : State} (hm : s.MemOk) (a : AxisId) {w : Nat} (hw : w < 128) (v : Nat) (b : AxisId) (j : Fin 256) :
    mstepAt sineT (s.memWrite (.mstepNext a w) v).mstepNext b.val j.val =
      if b = a ∧ j.val = 2 * w then v % 4096 else if b = a ∧ j.val = 2 * w + 1 then v / 65536 % 4096
      else mstepAt sineT s.mstepNext b.val j.val := by
  have hm' : (s.setMstep a (2 * w) (v % 65536)).MemOk := (State.setMstep_keeps a _ _ (Keeps.refl (kc := false) s)).mem hm
  have h := (State.setMstep_at hm' a (i := 2 * w + 1) (by omega) (v / 65536 % 65536) b j)
  rw [State.setMstep_at hm a (i := 2 * w) (by omega)] at h
  refine h.trans ?_
  split_ifs <;> omega

end Sys2Proof.Machine
end

section
/-! SUPPORT. O7: the statement, window by window. -/

namespace Sys2Proof.Machine

/-- What a host write of `size` bytes at `off` of a window does, `i size v` being the command of the window. -/
structure WindowCommand (i : Nat → DWord → Instr) (c : CtxId) (off : Nat) : Prop where
  exec : ∀ (s : State) (size : Nat) (v : DWord), exec (i size v) s = .next (s.busWrite c off size v.toNat)
  window : 0x200000 ≤ off

section

variable {i : Nat → DWord → Instr} {c : CtxId} {off : Nat} (k : WindowCommand i c off) {s : State}
include k

/-- A write to a place that is open. -/
theorem WindowCommand.open_does (h : s.Serves c off true) (hz : off % 4 = 0) {l : MemLoc} (hl : s.ctxs[c].winLoc off = some l)
    (hb : s.memBlocked l = false) (v : DWord) {P : State → Prop} (hP : ∀ j, P { s.memWrite l (v.toNat % 2 ^ 32) with jrnl := j }) :
    Does (i 4 v) s P := by
  obtain ⟨j, hj⟩ := State.busWrite_open h hz k.window v.toNat hl hb
  exact ⟨_, (k.exec s 4 v).trans (congrArg _ hj), hP j⟩

theorem WindowCommand.shut_does (hm : s.MemOk) (h : s.Serves c off true) (hz : off % 4 = 0) {l : MemLoc}
    (hl : s.ctxs[c].winLoc off = some l) (hb : s.memBlocked l = true) (v : DWord) :
    Does (i 4 v) s (fun t => ({ s with jrnl := t.jrnl } : State).EventsOnly t [mgtSrc (5 * c.val + 3)] ∧
      t.raisings (mgtSrc (5 * c.val + 3)) = s.raisings (mgtSrc (5 * c.val + 3)) + 1) :=
  ⟨_, (k.exec s 4 v).trans (congrArg _ (State.busWrite_shut h hz k.window v.toNat hl hb)), State.badAccess_leaves hm c off⟩

theorem WindowCommand.nowhere_does (h : s.Serves c off true) (hz : off % 4 = 0) (hl : s.ctxs[c].winLoc off = none)
    (hr : ¬(0x3F0000 ≤ off ∧ off < 0x400000)) (v : DWord) : Does (i 4 v) s (fun t => t = s) :=
  ⟨s, (k.exec s 4 v).trans (congrArg _ (State.busWrite_nowhere h hz k.window v.toNat hl hr)), rfl⟩

theorem WindowCommand.bad_does (hm : s.MemOk) (href : s.refSel ≠ 3) {size : Nat} (hz : sizeOk off size = false) (v : DWord) :
    Does (i size v) s (fun t => ({ s with jrnl := t.jrnl } : State).EventsOnly t [mgtSrc (5 * c.val + 3)] ∧
      t.raisings (mgtSrc (5 * c.val + 3)) = s.raisings (mgtSrc (5 * c.val + 3)) + 1) :=
  ⟨_, (k.exec s size v).trans (congrArg _ (State.busWrite_bad href v.toNat hz)), State.badAccess_leaves hm c off⟩

theorem WindowCommand.halves_does {i' : Nat → DWord → Instr} (k' : WindowCommand i' c (off + 4)) (h : s.Serves c off true)
    (hz : off % 8 = 0) (h0 : s.winShut c off = false) (h4 : s.winShut c (off + 4) = false) (v : DWord) :
    Does (i 8 v) s (fun t => Does (i 4 (v &&& 0xFFFFFFFF)) s (fun u => Does (i' 4 (v >>> 32)) u (fun w => w = t))) := by
  have hlo : (v &&& 0xFFFFFFFF).toNat % 2 ^ 32 = v.toNat % 2 ^ 32 := by
    rw [BitVec.toNat_and]
    exact (congrArg (· % 2 ^ 32) (Nat.and_two_pow_sub_one_eq_mod v.toNat 32)).trans (Nat.mod_mod _ _)
  have hhi : (v >>> 32).toNat % 2 ^ 32 = v.toNat / 2 ^ 32 % 2 ^ 32 := by
    rw [BitVec.toNat_ushiftRight, Nat.shiftRight_eq_div_pow]
  exact ⟨_, k.exec s 8 v, _, k.exec s 4 _, _, k'.exec _ 4 _, (State.busWrite_halves h hz k.window h0 h4 hlo hhi).symm⟩

end

/-- ENG_WINDOW_WRITE at an offset of the window. -/
theorem engWindow (c : CtxId) (off : BitVec 21) : WindowCommand (fun size v => .engWindowWrite c off size v) c (0x200000 + off.toNat) :=
  ⟨fun _ _ _ => rfl, Nat.le_add_right _ _⟩

/-- TBL_WINDOW_WRITE at an offset of the window. -/
theorem tblWindow (c : CtxId) (off : BitVec 22) : WindowCommand (fun size v => .tblWindowWrite c off size v) c (0x400000 + off.toNat) :=
  ⟨fun _ _ _ => rfl, by omega⟩

/-! ### Bounds of the places -/

theorem engParam_lt {e d : EngId} {off k w : Nat} (h : engLoc e off = some (.param d k w)) : w < 4096 := by
  rcases engLoc_cases h with ⟨_, h⟩ | ⟨_, _, h⟩ | ⟨_, _, h⟩ <;> cases h
  omega

theorem tblBank_lt {v off : Nat} {p : PortId} {b w : Nat}
    (h : tblLoc v off = some (.shade p b w) ∨ tblLoc v off = some (.defect p b w)) : b < 2 := by
  have hb : fld v 12 12 < 2 := Nat.mod_lt _ (by decide)
  rcases h with h | h <;>
    rcases tblLoc_cases h with ⟨_, h⟩ | ⟨_, h⟩ | ⟨_, _, h⟩ | ⟨_, _, h⟩ | ⟨_, h⟩ | ⟨_, h⟩ <;> cases h <;> exact hb

theorem tblMstep_lt {v off : Nat} {a : AxisId} {w : Nat} (h : tblLoc v off = some (.mstepNext a w)) : w < 128 := by
  rcases tblLoc_cases h with ⟨_, h⟩ | ⟨_, h⟩ | ⟨_, ho, h⟩ | ⟨_, _, h⟩ | ⟨_, h⟩ | ⟨_, h⟩ <;> cases h
  omega

/-! ### The TBL window -/

section

variable {c : CtxId} {off : BitVec 22} {s : State} (h : s.Serves c (0x400000 + off.toNat) true) (hz : off.toNat % 4 = 0)
  (hm : s.MemOk) (v : DWord)
include h hz hm

/-- What a write of an entry of a bank leaves, the journal being `j`. -/
theorem tblBank_does {l : MemLoc} {p : PortId} {table b : Nat} {key ph e : Nat}
    (hl : (s.ctxs[c]).winLoc (0x400000 + off.toNat) = some l) (ht : table < 2) (hb : b < 2) (hopen : s.memBlocked l = false)
    (hw : ∀ v, s.memWrite l v = ((s.setTbl key v).entryWritten p table ph e).bankWritten p table b) :
    Does (.tblWindowWrite c off 4 v) s (fun t =>
      t = { s with tbl := t.tbl, jrnl := t.jrnl, ports := t.ports, regs := t.regs } ∧ s.SameTbl t [key] ∧
        t.tblWord key = v.toNat % 2 ^ 32 ∧ t.mirror p table = false ∧ t.crcValid p table b = false ∧
        s.SameRegs t [rkey p.val Off.PIP_BANK_STAT] ∧ (∀ q : PortId, q ≠ p → t.port q = s.port q) ∧
        (t.port p).pipe = ((s.port p).pipe.entryWritten (table, ph, e)).bankWritten table b) := by
  refine (tblWindow c off).open_does h (by omega) hl hopen v fun j => ?_
  rw [hw]
  obtain ⟨hf, htbl, hword, hrest⟩ := State.bankEntry_leaves hm p ht hb key ph e (v.toNat % 2 ^ 32)
  exact ⟨congrArg (fun t : State => { t with jrnl := j }) hf, htbl, hword.trans (Nat.mod_mod _ _), hrest⟩

end

/-- INJECT written `b`. -/
def PipeSt.injected (y : PipeSt) (b : Bool) : PipeSt := { y with inject := y.inject || b }

/-- INJECT of CMP_CTL asks for one corrupted block (R200). -/
theorem cmpCtlInject_does {c : CtxId} (v : Word) {s : State} {p : PortId} (h : s.Serves c Off.CMP_CTL true)
    (hp : (s.ctxs[c]).selPort.toNat = p.val) :
    Does (.cmpCtlInject c v) s (fun t => t = { s with ports := t.ports, jrnl := t.jrnl } ∧
      (∀ q : PortId, q ≠ p → t.port q = s.port q) ∧
      t.port p = { s.port p with pipe := { (s.port p).pipe with inject := ((s.port p).pipe.inject || v.getLsbD 31) } }) := by
  have hu : s.ctxs[c].unitKey c ⟨Off.CMP_CTL, 0, 1, 0, 1, .port, 0, 0x0, 0x0, 0x0, 0x0, 0x0, 0x80000000, 0x0⟩ Off.CMP_CTL = some p.val :=
    hp ▸ Ctx.unitKey_port rfl (hp ▸ p.isLt)
  have hlock (r : RegDef) : lockedSc r p.val = false := by
    unfold lockedSc
    rw [beq_false_of_ne (by omega), Bool.false_and]
  have hpos : (⟨p.val % 16, Nat.mod_lt _ (by decide)⟩ : PortId) = p := Fin.ext (Nat.mod_eq_of_lt p.isLt)
  have hact (r : RegDef) (hr : r.base = Off.CMP_CTL) : s.act c r p.val Off.CMP_CTL v.toNat =
      s.updPipe p (fun y => y.injected (v.getLsbD 31)) := by
    have hrow : s.act c r p.val Off.CMP_CTL v.toNat = s.writePip (s.plain r p.val Off.CMP_CTL v.toNat) r p v.toNat :=
      congrArg (s.writePip (s.plain r p.val Off.CMP_CTL v.toNat) r · v.toNat) hpos
    rw [hrow]
    have hbit : bitN v.toNat 31 = v.getLsbD 31 := rfl
    unfold State.writePip
    rw [hr, if_neg (by decide), if_pos rfl, hbit]
    cases v.getLsbD 31 with
    | false =>
      refine (State.updPipe_self s p).symm.trans (State.updPipe_congr s p ?_)
      unfold PipeSt.injected
      rw [Bool.or_false]
    | true =>
      refine State.updPipe_congr s p (f := fun y => { y with inject := true }) ?_
      unfold PipeSt.injected
      rw [Bool.or_true]
  have hw := State.busWrite_taken h rfl (by decide) (State.reach_of rfl hu) (hlock _) rfl (v := v) rfl rfl
  rw [if_neg (by decide), hact _ rfl, State.noteWrite_frame] at hw
  exact ⟨_, congrArg Host.Outcome.next hw, rfl,
    fun q hq => State.updPort_ne s (fun x => { x with pipe := x.pipe.injected (v.getLsbD 31) }) hq,
    State.updPipe_port s p (fun y => y.injected (v.getLsbD 31))⟩

/-- Settles O7: each place through `WindowCommand`, whose writes are `State.memWrite` where the place is open. -/
theorem windowWrites : Obligations.WindowWrites := by
  unfold Obligations.WindowWrites
  refine ⟨fun c off v s e k w h hz hl hb hm => ?param,
    fun c off v s e w h hz hl hr hd hm => ?scratch,
    fun c off v s l hm h hz hl hb => (engWindow c off).shut_does hm h (by omega) hl hb v,
    fun c off v s h hz hreg => ?engReg,
    fun c off v s h hz hl hlt => (engWindow c off).nowhere_does h (by omega) hl (by omega) v,
    fun c off v s h hz h0 h4 => ?engHalves,
    fun c off size v s hm href hz => (engWindow c off).bad_does hm href hz v,
    fun c off v s p b w h hz hm hl ha hc => ?shade,
    fun c off v s p b w h hz hm hl ha hc => ?defect,
    fun c off v s p i w h hz hm hl hb => (tblWindow c off).open_does h (by omega) hl hb v fun j => ?lut,
    fun c off v s i w h hz hm hl hb => (tblWindow c off).open_does h (by omega) hl hb v fun j => ?index,
    fun c off v s a w h hz hm hl hb => (tblWindow c off).open_does h (by omega) hl hb v fun j => ?mstep,
    fun c off v s l hm h hz hl hb => (tblWindow c off).shut_does hm h (by omega) hl hb v,
    fun c off v s h hz hl => (tblWindow c off).nowhere_does h (by omega) hl (by omega) v,
    fun c off v s h hz h0 h4 => ?tblHalves,
    fun c off size v s hm href hz => (tblWindow c off).bad_does hm href hz v,
    fun c v s p h hp => cmpCtlInject_does v h hp⟩
  case param =>
    have hw : w < 4096 := engParam_lt ((Ctx.winLoc_eng _ (by omega)).symm.trans hl)
    have hleaves := State.memWrite_param hm e (k := k) hw (v.toNat % 2 ^ 32)
    rw [ofNat_mod_word] at hleaves
    exact (engWindow c off).open_does h (by omega) hl hb v fun j => ⟨rfl, hleaves⟩
  case scratch =>
    have hb : s.memBlocked (.scratch e w) = false := by
      show ((s.unit (engUnit e)).st == .running || (s.unit (engUnit e)).st == .draining) = false
      rw [beq_false_of_ne hr, beq_false_of_ne hd]
      rfl
    have hleaves := State.memWrite_scratch hm e w (v.toNat % 2 ^ 32)
    rw [ofNat_mod_word] at hleaves
    exact (engWindow c off).open_does h (by omega) hl hb v fun j => ⟨rfl, hleaves⟩
  case engReg =>
    have hw := (State.busWrite_engReg h (by omega) (engWindow c off).window v.toNat (by omega)).trans (State.engRegWrite_eq s _ _ _)
    have ho (n : Nat) : 0x200000 + off.toNat - 0x3F0000 = n ↔ off.toNat = 0x1F0000 + n := by omega
    refine ⟨_, congrArg Host.Outcome.next hw, rfl, fun d hd => State.updEng_ne s _ hd, (State.updEng_same s _ _).trans ?_⟩
    unfold Eng.regWritten
    simp only [ho, bitN_mod_word v (show 16 < 32 by decide), bitN_mod_word v (show 31 < 32 by decide), cycMax_cleared]
  case engHalves =>
    have hnext : 0x200000 + (off + 4).toNat = 0x200000 + off.toNat + 4 := by bv_omega
    exact (engWindow c off).halves_does (hnext ▸ engWindow c (off + 4)) h (by omega) h0 h4 v
  case tblHalves =>
    have hnext : 0x400000 + (off + 4).toNat = 0x400000 + off.toNat + 4 := by bv_omega
    exact (tblWindow c off).halves_does (hnext ▸ tblWindow c (off + 4)) h (by omega) h0 h4 v
  case shade =>
    have hb : b < 2 := tblBank_lt (.inl ((Ctx.winLoc_tbl _ (by omega)).symm.trans hl))
    exact tblBank_does (table := 0) h hz hm v hl (by decide) hb (by show (_ || _) = false; rw [ha, hc]; rfl) fun _ => rfl
  case defect =>
    have hb : b < 2 := tblBank_lt (.inr ((Ctx.winLoc_tbl _ (by omega)).symm.trans hl))
    exact tblBank_does (table := 1) h hz hm v hl (by decide) hb (by show (_ || _) = false; rw [ha, hc]; rfl) fun _ => rfl
  case lut =>
    obtain ⟨htbl, hlo, hhi, hrest⟩ := State.memWrite_lut hm p i w (v.toNat % 2 ^ 32)
    exact ⟨rfl, htbl, hlo.trans (by omega), hhi.trans (by omega), hrest⟩
  case index =>
    exact ⟨rfl, State.setTbl_sameTbl s _ _, (State.tblWord_setTbl_same hm _ _).trans (Nat.mod_mod _ _)⟩
  case mstep =>
    have hw : w < 128 := tblMstep_lt ((Ctx.winLoc_tbl _ (by omega)).symm.trans hl)
    have hlo : v.toNat % 2 ^ 32 % 4096 = v.toNat % 4096 := by omega
    have hhi : v.toNat % 2 ^ 32 / 65536 % 4096 = v.toNat / 65536 % 4096 := by omega
    refine ⟨congrArg (fun t : State => { t with jrnl := j }) (State.memWrite_mstepNext s a w _), fun b n => ?_⟩
    have hat := State.memWrite_mstepAt hm a hw (v.toNat % 2 ^ 32) b n
    rwa [hlo, hhi] at hat

end Sys2Proof.Machine
end

section
/-! SUPPORT. O53: the host link, its configuration, PERST_L's release, HREFCLK and PTM (R34 to R36, R60, R401, R410). -/

namespace Sys2Proof.Machine

/-! ### The link and what the host configures (R34, R36) -/

theorem linkRetrain_done {s : State} (h : s.link.perst = false) {width rate : Nat} (hw : width ≤ 16) (hr : rate < 8) (mode : LinkMode) :
    exec (.linkRetrain width rate mode) s = .next { s with link := { s.link with
      up := decide (width ≠ 0), width := width, trained := width, rate := rate, flit := mode.flit, l0p := false,
      pci := match mode.cfg with
        | some k => s.link.pci.config k
        | none => s.link.pci } } := by
  show execLinkRetrain width rate mode s = _
  unfold execLinkRetrain
  rw [h, if_neg (by decide), Nat.min_eq_left hw, Nat.mod_eq_of_lt hr]
  rfl

theorem sub_mod_eq_div_mul (a b : Nat) : a / b * b = a - a % b :=
  Nat.eq_sub_of_add_eq (Nat.div_add_mod' a b)

/-- What the host configures, but for the AER status and the header log. -/
theorem PciSt.config_sets (x : PciSt) {k : PciCfg} (h0 : k.bar0 < 2 ^ 64) (h4 : k.bar4 < 2 ^ 64) :
    x.config k = { x with
      bar0 := k.bar0 - k.bar0 % 2 ^ 26, bar4 := k.bar4 - k.bar4 % 2 ^ 14, mps := min k.mps 2, mrrs := min k.mrrs 5, ptmEn := k.ptm,
      aerStatus := (x.config k).aerStatus, aerFirst := (x.config k).aerFirst } := by
  have hb0 : (x.config k).bar0 = k.bar0 - k.bar0 % 2 ^ 26 := by
    rw [← sub_mod_eq_div_mul]
    exact congrArg (fun n => n / 2 ^ 26 * 2 ^ 26) (Nat.mod_eq_of_lt h0)
  have hb4 : (x.config k).bar4 = k.bar4 - k.bar4 % 2 ^ 14 := by
    rw [← sub_mod_eq_div_mul]
    exact congrArg (fun n => n / 2 ^ 14 * 2 ^ 14) (Nat.mod_eq_of_lt h4)
  rw [← hb0, ← hb4]
  rfl

/-- AER status bits as the host leaves them. -/
def PciSt.aerLeft (x : PciSt) (clear : Nat) : Nat := x.aerStatus &&& (2 ^ 32 - 1 - clear % 2 ^ 32)

theorem PciSt.aerLeft_testBit (x : PciSt) (clear i : Nat) :
    (x.aerLeft clear).testBit i = (x.aerStatus.testBit i && (decide (i < 32) && !clear.testBit i)) := by
  have hc : clear % 2 ^ 32 < 2 ^ 32 := Nat.mod_lt _ (Nat.two_pow_pos 32)
  have hs : 2 ^ 32 - 1 - clear % 2 ^ 32 = 2 ^ 32 - (clear % 2 ^ 32 + 1) := by omega
  unfold PciSt.aerLeft
  rw [Nat.testBit_and, hs, Nat.testBit_two_pow_sub_succ hc, Nat.testBit_mod_two_pow]
  cases decide (i < 32) <;> simp

section

variable (x : PciSt) {k : PciCfg} (he : ∀ e ∈ k.aerError, e.1 < 32)
include he

theorem PciSt.config_aerStatus (i : Fin 32) : (x.config k).aerStatus.testBit i.val =
    (x.aerStatus.testBit i.val && !k.aerClear.testBit i.val || decide (k.aerError.map (fun e => e.1) = some i.val)) := by
  have hl : (x.aerLeft k.aerClear).testBit i.val = (x.aerStatus.testBit i.val && !k.aerClear.testBit i.val) := by
    rw [PciSt.aerLeft_testBit, decide_eq_true i.isLt, Bool.true_and]
  have hs : (x.config k).aerStatus = match k.aerError with
      | some e => x.aerLeft k.aerClear ||| 2 ^ (e.1 % 32)
      | none => x.aerLeft k.aerClear := rfl
  rw [hs]
  cases hk : k.aerError with
  | none => exact hl.trans (Bool.or_false _).symm
  | some e =>
    have hlt : e.1 < 32 := he e hk
    simp only [Option.map_some, Option.some.injEq]
    rw [Nat.testBit_or, hl, Nat.testBit_two_pow, Nat.mod_eq_of_lt hlt]

theorem PciSt.config_aerFirst : (x.config k).aerFirst = match x.aerFirst with
    | some e => if e.1 < 32 ∧ x.aerStatus.testBit e.1 = true ∧ k.aerClear.testBit e.1 = false then some e else k.aerError
    | none => k.aerError := by
  have hb (n : Nat) : bitN (x.aerLeft k.aerClear) n = true ↔ n < 32 ∧ x.aerStatus.testBit n = true ∧ k.aerClear.testBit n = false := by
    show (x.aerLeft k.aerClear).testBit n = true ↔ _
    rw [PciSt.aerLeft_testBit]
    simp only [Bool.and_eq_true, decide_eq_true_eq, Bool.not_eq_true']
    tauto
  have hf : (x.config k).aerFirst = match k.aerError with
      | some e => if (x.aerFirst.filter (fun e => bitN (x.aerLeft k.aerClear) e.1)).isSome
          then x.aerFirst.filter (fun e => bitN (x.aerLeft k.aerClear) e.1) else some (e.1 % 32, e.2)
      | none => x.aerFirst.filter (fun e => bitN (x.aerLeft k.aerClear) e.1) := rfl
  have hmod : ∀ e ∈ k.aerError, some (e.1 % 32, e.2) = some e := fun e hk => by rw [Nat.mod_eq_of_lt (he e hk)]
  rw [hf]
  cases x.aerFirst with
  | none =>
    cases hk : k.aerError with
    | none => rfl
    | some e => exact hmod e hk
  | some f =>
    simp only [Option.filter_some, hb]
    by_cases hc : f.1 < 32 ∧ x.aerStatus.testBit f.1 = true ∧ k.aerClear.testBit f.1 = false
    · simp only [if_pos hc]
      cases k.aerError <;> rfl
    · simp only [if_neg hc]
      cases hk : k.aerError with
      | none => rfl
      | some e => exact hmod e hk

end

/-! ### Widths (R36) -/

theorem l0pRequest_does {s : State} (width : Nat) {good : Prop} [Decidable good]
    (h : (s.link.up && decide (width ≤ s.link.trained) &&
      (decide (s.link.width < width) || (decide (width < s.link.width) && s.l0pWidth == some width))) = decide good) :
    Does (.l0pRequest width) s (fun t => t = if good then
      { s with link := { s.link with width := width, l0p := decide (width < s.link.trained) } } else s) := by
  have hexec : exec (.l0pRequest width) s = .next (if good then
      { s with link := { s.link with width := width, l0p := decide (width < s.link.trained) } } else s) := by
    show execL0pRequest width s = _
    unfold execL0pRequest
    simp only [h, decide_eq_true_eq]
    rfl
  exact ⟨_, hexec, rfl⟩

/-! ### HREFCLK (R401, R410) -/

/-- HREFCLK is there, or the link runs SRIS. -/
theorem State.hrefclk_leaves {s : State} (hm : s.MemOk) (a b : Bool) :
    let t := (s.setRf 0 Off.CLK_REF_STAT 6 6 (b2n a)).setRf 0 Off.CLK_REF_STAT 7 7 (b2n b)
    s.SameRegs t [rkey 0 Off.CLK_REF_STAT] ∧ t.rf 0 Off.CLK_REF_STAT 6 6 = b2n a ∧ t.rf 0 Off.CLK_REF_STAT 7 7 = b2n b ∧
      ∀ i : Fin 32, i.val ∉ ([6, 7] : List Nat) → t.rf 0 Off.CLK_REF_STAT i.val i.val = s.rf 0 Off.CLK_REF_STAT i.val i.val := by
  have hm' : (s.setRf 0 Off.CLK_REF_STAT 6 6 (b2n a)).MemOk := State.setRf_memOk hm _ _ _ _ _
  have hbit (x : Bool) : b2n x % 2 ^ 1 = b2n x := by cases x <;> rfl
  refine ⟨(State.setCell_sameRegs s _ _ _).trans (State.setCell_sameRegs _ _ _ _), ?_, ?_, fun i hi => ?_⟩
  · exact (State.rf_setRf_below hm' _ _ _ (by decide) (by decide) (by decide) (by decide)).trans
      ((State.rf_setRf hm _ _ _ _ _ (by decide) (by decide)).trans (hbit a))
  · exact (State.rf_setRf hm' _ _ _ _ _ (by decide) (by decide)).trans (hbit b)
  · obtain ⟨h6, h7⟩ := not_or.1 (List.mem_pair.not.1 hi)
    rcases Nat.lt_or_ge i.val 6 with hlt | hge
    · exact (State.rf_setRf_below hm' _ _ _ (by decide) (by decide) (Nat.le_refl _) (by omega)).trans
        (State.rf_setRf_below hm _ _ _ (by decide) (by decide) (Nat.le_refl _) hlt)
    · exact (State.rf_setRf_above hm' _ _ _ (by decide) (by decide) (by omega)).trans
        (State.rf_setRf_above hm _ _ _ (by decide) (by decide) (by omega))

/-! ### PTM (R60) -/

/-- PTM runs: EN is set, the host enables the capability, and the link is up. -/
structure State.PtmRuns (s : State) : Prop where
  en : s.rf 0 Off.HIF_PTM_CTL 0 0 = 1
  host : s.link.pci.ptmEn = true
  up : s.link.up = true

/-- The link after a failed exchange. -/
def LinkSt.ptmFailed (x : LinkSt) : LinkSt := { x with ptmActive := true, ptmGood := 0, ptmBad := x.ptmBad + 1 }

/-- The link after an exchange that measured `offset`. -/
def LinkSt.ptmMeasured (x : LinkSt) (offset : Int) : LinkSt :=
  { x with ptmActive := true, ptmBad := 0, ptmOffset := satI offset (-32768) 32767,
           ptmGood := if offset.natAbs ≤ 20 then x.ptmGood + 1 else 0 }

section

variable {s : State} (h : s.PtmRuns)
include h

theorem State.PtmRuns.running : ¬(s.rf 0 Off.HIF_PTM_CTL 0 0 = 0 ∨ (!s.link.pci.ptmEn) = true ∨ (!s.link.up) = true) := by
  rw [h.en, h.host, h.up]
  decide

theorem ptmExchange_failed (offset : Int) : exec (.ptmExchange false offset) s =
    .next (if 2 ≤ s.link.ptmBad then (s.updLink LinkSt.ptmFailed).ptmUnlock else s.updLink LinkSt.ptmFailed) := by
  show execPtmExchange false offset s = _
  unfold execPtmExchange
  rw [if_neg h.running, if_pos (show (!false) = true from rfl)]
  have hbad : 3 ≤ (s.updLink LinkSt.ptmFailed).link.ptmBad ↔ 2 ≤ s.link.ptmBad := Nat.succ_le_succ_iff
  exact congrArg Host.Outcome.next (if_congr hbad rfl rfl)

theorem ptmExchange_measured (offset : Int) : exec (.ptmExchange true offset) s =
    .next (if 1000 < offset.natAbs then (s.updLink (fun x => x.ptmMeasured offset)).ptmUnlock
      else if 4 ≤ (s.link.ptmMeasured offset).ptmGood then (s.updLink (fun x => x.ptmMeasured offset)).ptmLock offset
      else s.updLink (fun x => x.ptmMeasured offset)) := by
  show execPtmExchange true offset s = _
  unfold execPtmExchange
  rw [if_neg h.running, if_neg (by decide)]
  rfl

end

theorem State.updLink_memOk {s : State} (h : s.MemOk) (f : LinkSt → LinkSt) : (s.updLink f).MemOk :=
  (State.updLink_keeps f (Keeps.refl (kc := false) s)).mem h

/-- Without a lock nothing unlocks. -/
theorem State.ptmUnlock_unlocked {s : State} (h : s.link.ptmLocked = false) : s.ptmUnlock = s := by
  unfold State.ptmUnlock
  rw [h]
  exact if_neg (by decide)

/-- A lock that is lost raises PTM_UNLOCK. -/
theorem State.ptmUnlock_leaves {s : State} (hm : s.MemOk) :
    ({ s with link := { s.link with ptmLocked := false } } : State).EventsOnly s.ptmUnlock [mgtSrc 43] ∧
      s.ptmUnlock.raisings (mgtSrc 43) = s.raisings (mgtSrc 43) + b2n s.link.ptmLocked := by
  cases hl : s.link.ptmLocked with
  | false =>
    rw [State.ptmUnlock_unlocked hl, ← hl]
    exact ⟨.refl s _, by rw [hl]; rfl⟩
  | true =>
    have hu : s.ptmUnlock = (s.updLink (fun x => { x with ptmLocked := false })).raise (mgtSrc 43) [] := by
      unfold State.ptmUnlock
      rw [hl]
      exact if_pos rfl
    rw [hu]
    exact ⟨State.raise_eventsOnly _ _ _, State.raise_raisings (State.updLink_memOk hm _) [] (ctxSrc_ne_auxSrc 43)⟩

theorem satI_eq_max (x : Int) : satI x (-32768) 32767 = max (-32768) (min 32767 x) := by
  unfold satI
  split_ifs <;> omega

theorem satI_of_small {x : Int} (h : x.natAbs ≤ 1000) : satI x (-32768) 32767 = x := by
  rw [satI_eq_max]
  omega

section

variable {s : State} (h : s.PtmRuns) (offset : Int)
include h

theorem ptmFailed_quiet (hq : s.link.ptmBad < 2 ∨ s.link.ptmLocked = false) :
    Does (.ptmExchange false offset) s (fun t => t = { s with link := s.link.ptmFailed }) := by
  refine ⟨_, ptmExchange_failed h offset, ?_⟩
  split
  · next hbad => exact State.ptmUnlock_unlocked (hq.resolve_left (Nat.not_lt.2 hbad))
  · rfl

theorem ptmFailed_unlocks (hm : s.MemOk) (hbad : 2 ≤ s.link.ptmBad) (hl : s.link.ptmLocked = true) :
    Does (.ptmExchange false offset) s (fun t =>
      ({ s with link := { s.link with ptmActive := true, ptmGood := 0, ptmBad := s.link.ptmBad + 1, ptmLocked := false } } : State).EventsOnly t
        [mgtSrc 43] ∧ t.raisings (mgtSrc 43) = s.raisings (mgtSrc 43) + 1) := by
  obtain ⟨hev, hr⟩ := State.ptmUnlock_leaves (State.updLink_memOk hm LinkSt.ptmFailed)
  have hlock : (s.updLink LinkSt.ptmFailed).link.ptmLocked = true := hl
  rw [hlock] at hr
  exact ⟨_, (ptmExchange_failed h offset).trans (congrArg _ (if_pos hbad)), hev, hr⟩

theorem ptmMeasured_far (hm : s.MemOk) (hfar : 1000 < offset.natAbs) :
    Does (.ptmExchange true offset) s (fun t =>
      ({ s with link := { s.link with ptmActive := true, ptmBad := 0, ptmOffset := max (-32768) (min 32767 offset), ptmGood := 0,
                                      ptmLocked := false } } : State).EventsOnly t [mgtSrc 43] ∧
        t.raisings (mgtSrc 43) = s.raisings (mgtSrc 43) + b2n s.link.ptmLocked) := by
  obtain ⟨hev, hr⟩ := State.ptmUnlock_leaves (State.updLink_memOk hm (fun x => x.ptmMeasured offset))
  have hlink : s.link.ptmMeasured offset = { s.link with
      ptmActive := true, ptmBad := 0, ptmOffset := max (-32768) (min 32767 offset), ptmGood := 0 } := by
    unfold LinkSt.ptmMeasured
    rw [if_neg (by omega), satI_eq_max]
  have hup : s.updLink (fun x => x.ptmMeasured offset) = { s with link := s.link.ptmMeasured offset } := rfl
  refine ⟨_, (ptmExchange_measured h offset).trans (congrArg _ (if_pos hfar)), ?_, hr⟩
  rw [hup, hlink] at hev ⊢
  exact hev

/-- A measurement within 1 microsecond. -/
theorem ptmMeasured_near (hnear : offset.natAbs ≤ 1000) : exec (.ptmExchange true offset) s =
    .next (if offset.natAbs ≤ 20 ∧ 3 ≤ s.link.ptmGood then (s.updLink (fun x => x.ptmMeasured offset)).ptmLock offset
      else s.updLink (fun x => x.ptmMeasured offset)) := by
  have hgood : 4 ≤ (s.link.ptmMeasured offset).ptmGood ↔ offset.natAbs ≤ 20 ∧ 3 ≤ s.link.ptmGood := by
    unfold LinkSt.ptmMeasured
    dsimp only
    split <;> omega
  rw [ptmExchange_measured h offset, if_neg (Nat.not_lt.2 hnear)]
  exact congrArg Host.Outcome.next (if_congr hgood rfl rfl)

/-- The first lock may step device time; any other measurement within 1 microsecond does not. -/
theorem ptmMeasured_still (hq : s.link.ptmStepped = true ∨ s.anyRan = true ∨ ¬(offset.natAbs ≤ 20 ∧ 3 ≤ s.link.ptmGood))
    (hnear : offset.natAbs ≤ 1000) :
    Does (.ptmExchange true offset) s (fun t => t = { s with link := { s.link with
      ptmActive := true, ptmStepped := (s.link.ptmStepped || decide (offset.natAbs ≤ 20 ∧ 3 ≤ s.link.ptmGood)), ptmBad := 0,
      ptmOffset := offset, ptmGood := (if offset.natAbs ≤ 20 then s.link.ptmGood + 1 else 0),
      ptmLocked := (s.link.ptmLocked || decide (offset.natAbs ≤ 20 ∧ 3 ≤ s.link.ptmGood)) } }) := by
  have hup : s.updLink (fun x => x.ptmMeasured offset) = { s with link := { s.link with
      ptmActive := true, ptmBad := 0, ptmOffset := offset, ptmGood := if offset.natAbs ≤ 20 then s.link.ptmGood + 1 else 0 } } := by
    unfold State.updLink LinkSt.ptmMeasured
    rw [satI_of_small hnear]
  refine ⟨_, ptmMeasured_near h offset hnear, ?_⟩
  rw [hup]
  by_cases hlock : offset.natAbs ≤ 20 ∧ 3 ≤ s.link.ptmGood
  · have hstep : (s.link.ptmStepped || s.anyRan) = true := by
      rcases hq with hq | hq | hq
      · rw [hq, Bool.true_or]
      · rw [hq, Bool.or_true]
      · exact absurd hlock hq
    rw [if_pos hlock, decide_eq_true hlock, Bool.or_true, Bool.or_true]
    exact if_pos hstep
  · rw [if_neg hlock, decide_eq_false hlock, Bool.or_false, Bool.or_false]

theorem ptmMeasured_steps (hs : s.link.ptmStepped = false) (hr : s.anyRan = false) (hnear : offset.natAbs ≤ 20)
    (hgood : 3 ≤ s.link.ptmGood) :
    Does (.ptmExchange true offset) s (fun t => (t.now : Int) = max (s.now : Int) ((s.now : Int) - offset) ∧
      t = { s with now := t.now, link := { s.link with ptmActive := true, ptmStepped := true, ptmLocked := true, ptmBad := 0,
                                                       ptmOffset := offset, ptmGood := s.link.ptmGood + 1 } }) := by
  have hup : s.updLink (fun x => x.ptmMeasured offset) = { s with link := { s.link with
      ptmActive := true, ptmBad := 0, ptmOffset := offset, ptmGood := s.link.ptmGood + 1 } } := by
    unfold State.updLink LinkSt.ptmMeasured
    rw [satI_of_small (by omega)]
    simp only [if_pos hnear]
  have hstep : ¬(s.link.ptmStepped || s.anyRan) = true := by
    rw [hs, hr]
    decide
  have hexec := ptmMeasured_near h offset (by omega)
  rw [if_pos ⟨hnear, hgood⟩, hup] at hexec
  refine ⟨_, hexec.trans (congrArg Host.Outcome.next (if_neg hstep)), ?_, rfl⟩
  show ((max s.now ((s.now : Int) - offset).toNat : Nat) : Int) = _
  omega

end

end Sys2Proof.Machine
end

section
/-! SUPPORT. O53: what the host link takes up again with the return to D0 (R35, R371). -/

namespace Sys2Proof.Machine

/-! ### What the traffic of the link leaves -/

/-- Steps of channels, packets of rings and messages leave the power state, the units and the contexts. -/
structure State.LinkWork (s t : State) : Prop where
  d3hot : t.link.d3hot = s.link.d3hot
  ports : t.ports = s.ports
  units : t.units = s.units
  engs : t.engs = s.engs
  axes : t.axes = s.axes
  ctxs : t.ctxs = s.ctxs
  scripts : t.scripts = s.scripts
  tbl : t.tbl = s.tbl
  now : t.now = s.now

theorem State.LinkWork.refl (s : State) : s.LinkWork s := ⟨rfl, rfl, rfl, rfl, rfl, rfl, rfl, rfl, rfl⟩

theorem State.LinkWork.trans {s t w : State} (h : s.LinkWork t) (g : t.LinkWork w) : s.LinkWork w :=
  ⟨g.d3hot.trans h.d3hot, g.ports.trans h.ports, g.units.trans h.units, g.engs.trans h.engs, g.axes.trans h.axes,
    g.ctxs.trans h.ctxs, g.scripts.trans h.scripts, g.tbl.trans h.tbl, g.now.trans h.now⟩

theorem State.LinkWork.ite {s t w : State} {c : Prop} [Decidable c] (h : s.LinkWork t) (g : s.LinkWork w) :
    s.LinkWork (if c then t else w) := by
  split
  · exact h
  · exact g

theorem State.LinkWork.foldl {α : Type} {f : State → α → State} (h : ∀ (t : State) (a : α), t.LinkWork (f t a)) (l : List α)
    (s : State) : s.LinkWork (l.foldl f s) := by
  induction l generalizing s with
  | nil => exact .refl s
  | cons a l ih => exact (h s a).trans (ih (f s a))

theorem State.raise_linkWork (s : State) (src : Nat) (items : List (Nat × Nat)) : s.LinkWork (s.raise src items) := by
  constructor <;> simp

theorem State.updChan_linkWork (s : State) (c : ChanId) (f : ChanSt → ChanSt) : s.LinkWork (s.updChan c f) :=
  ⟨rfl, rfl, rfl, rfl, rfl, rfl, rfl, rfl, rfl⟩

theorem State.updQueue_linkWork (s : State) (q : QueueId) (f : EvQueue → EvQueue) : s.LinkWork (s.updQueue q f) :=
  ⟨rfl, rfl, rfl, rfl, rfl, rfl, rfl, rfl, rfl⟩

theorem State.message_linkWork (s : State) (v : Nat) : s.LinkWork (s.message v) := by
  unfold State.message
  exact .ite (.refl s) (.ite ⟨rfl, rfl, rfl, rfl, rfl, rfl, rfl, rfl, rfl⟩
    (.ite ⟨rfl, rfl, rfl, rfl, rfl, rfl, rfl, rfl, rfl⟩ ⟨rfl, rfl, rfl, rfl, rfl, rfl, rfl, rfl, rfl⟩))

/-! ### Rings -/

theorem State.ringPut_linkWork (q : QueueId) (size : Nat) (ws : List DWord) (s : State) : s.LinkWork (s.ringPut q size ws) := by
  induction ws generalizing s with
  | nil => exact .refl s
  | cons w ws ih =>
    unfold State.ringPut
    refine .trans ?_ (ih _)
    exact ⟨rfl, rfl, rfl, rfl, rfl, rfl, rfl, rfl, rfl⟩

theorem State.notify_linkWork (s : State) (q : QueueId) (before after : Nat) : s.LinkWork (s.notify q before after) := by
  unfold State.notify
  exact .ite (State.message_linkWork s _) (.refl s)

theorem State.drainRing_linkWork (q : QueueId) (n : Nat) (s : State) : s.LinkWork (s.drainRing q n) := by
  induction n generalizing s with
  | zero => exact .refl s
  | succ n ih =>
    unfold State.drainRing
    refine .ite (.refl s) ?_
    split
    · exact .refl s
    · refine .ite (.refl s) ?_
      refine .trans (.trans ?_ (State.notify_linkWork _ q _ _)) (ih _)
      exact ((State.updQueue_linkWork s q _).trans (State.ringPut_linkWork q _ _ _)).trans (State.updQueue_linkWork _ q _)

/-! ### Channels -/

theorem State.raiseAll_linkWork (s : State) (es : List (Nat × List (Nat × Nat))) : s.LinkWork (s.raiseAll es) := by
  unfold State.raiseAll
  refine State.LinkWork.foldl ?_ es s
  intro t e
  exact State.raise_linkWork t e.1 e.2

theorem State.eocTimed_linkWork (s : State) (c : ChanId) : s.LinkWork (s.eocTimed c) := by
  unfold State.eocTimed
  exact .ite ((State.raise_linkWork s _ _).trans (State.updChan_linkWork _ c _)) (.refl s)

theorem State.rewindOver_linkWork (s : State) (p : PortId) (cause : Nat) : s.LinkWork (s.rewindOver p cause) := by
  unfold State.rewindOver
  split
  · exact .refl s
  · refine .trans ?_ (State.raise_linkWork _ _ _)
    exact ⟨rfl, rfl, rfl, rfl, rfl, rfl, rfl, rfl, rfl⟩

theorem State.chanPerform_linkWork (s : State) (c : ChanId) : s.LinkWork (s.chanPerform c) := by
  unfold State.chanPerform
  extract_lets x
  split
  · exact .refl s
  next h rest _ =>
    extract_lets s0 s1 s2
    have h0 : s.LinkWork s0 := State.updChan_linkWork s c _
    have h1 : s.LinkWork s1 := by
      show s.LinkWork (match h.hb with | none => s0 | some b => _)
      cases h.hb with
      | none => exact h0
      | some b =>
        refine h0.trans (.ite (.trans (.trans ?_ (State.updChan_linkWork _ c _)) (State.raise_linkWork _ _ _)) ?_) <;>
          exact ⟨rfl, rfl, rfl, rfl, rfl, rfl, rfl, rfl, rfl⟩
    have h2 : s.LinkWork s2 := (State.LinkWork.ite (h1.trans (State.eocTimed_linkWork s1 c)) h1).trans (State.raiseAll_linkWork _ _)
    split
    · exact h2
    · refine .ite (.trans (.trans (h2.trans ?_) (State.raise_linkWork _ _ _)) (State.rewindOver_linkWork _ _ _))
        (.trans (h2.trans ?_) (State.raise_linkWork _ _ _)) <;> exact ⟨rfl, rfl, rfl, rfl, rfl, rfl, rfl, rfl, rfl⟩

theorem State.chanRun_linkWork (c : ChanId) (n : Nat) (s : State) : s.LinkWork (s.chanRun c n) := by
  induction n generalizing s with
  | zero => exact .refl s
  | succ n ih =>
    unfold State.chanRun
    refine .ite (.refl s) ?_
    split
    · exact .refl s
    · exact .ite ⟨rfl, rfl, rfl, rfl, rfl, rfl, rfl, rfl, rfl⟩ ((State.chanPerform_linkWork s c).trans (ih _))

theorem State.sendHeld_linkWork (s : State) : s.LinkWork s.sendHeld :=
  .trans (t := s.updLink (fun x => { x with heldMsgs := [] })) ⟨rfl, rfl, rfl, rfl, rfl, rfl, rfl, rfl, rfl⟩
    (.foldl State.message_linkWork s.link.heldMsgs _)

theorem State.linkResume_linkWork (s : State) : s.LinkWork s.linkResume :=
  .trans (.foldl (fun t c => State.chanRun_linkWork c 1024 t) _ s) (.foldl (fun t q => State.drainRing_linkWork q 32 t) _ _)

/-! ### The return to D0 -/

/-- The state in which the link takes up its traffic. -/
def State.woken (s : State) : State := s.updLink (fun x => { x with d3hot := false })

theorem d0Return_woken {s : State} (h : s.link.d3hot = true) : exec .d0Return s = .next s.woken.sendHeld.linkResume :=
  congrArg Host.Outcome.next (if_pos h)

/-- A channel on which nothing waits makes no step. -/
theorem State.chanRun_idle {s : State} {c : ChanId} (h : (s.chan c).held = []) (n : Nat) : s.chanRun c n = s := by
  cases n with
  | zero => rfl
  | succ n =>
    unfold State.chanRun
    dsimp only
    rw [h]
    exact ite_self s

/-- A queue that does not drain to the host moves no packet. -/
theorem State.drainRing_idle {s : State} {q : QueueId} (h : s.qHost q = false) (n : Nat) : s.drainRing q n = s := by
  cases n with
  | zero => rfl
  | succ n =>
    unfold State.drainRing
    rw [h]
    exact if_pos rfl

/-- Steps that do nothing in a state leave it. -/
theorem foldl_idle {σ α : Type} {f : σ → α → σ} {s : σ} {l : List α} (h : ∀ a ∈ l, f s a = s) : l.foldl f s = s := by
  induction l with
  | nil => rfl
  | cons a l ih =>
    rw [List.foldl_cons, h a List.mem_cons_self]
    exact ih fun b hb => h b (List.mem_cons_of_mem a hb)

theorem State.drainRings_idle {s : State} (h : ∀ q : QueueId, s.qHost q = false) (n : Nat) :
    (List.finRange 64).foldl (fun t q => t.drainRing q n) s = s :=
  foldl_idle fun q _ => State.drainRing_idle (h q) n

theorem State.chanRuns_idle {s : State} {l : List ChanId} (h : ∀ c ∈ l, (s.chan c).held = []) (n : Nat) :
    l.foldl (fun t c => t.chanRun c n) s = s :=
  foldl_idle fun c hc => State.chanRun_idle (h c hc) n

/-- What messages that go out or stay pending leave (R369). -/
structure State.Messaged (s t : State) (vs : List Nat) : Prop where
  frame : t = { s with bus := t.bus, msiPend := t.msiPend }
  bus : t.bus = ((vs.filter s.vecOpen).map s.msixMsg).reverse ++ s.bus
  kept : ∀ v, mget (fun _ => false) s.msiPend v = true → mget (fun _ => false) t.msiPend v = true
  pending : ∀ v ∈ vs, s.vecOpen v = false → mget (fun _ => false) t.msiPend v = true

theorem State.messages_leave {s : State} (hm : mwf (fun _ => false) s.msiPend = true) (hp : s.link.perst = false)
    (hd : s.link.d3hot = false) (vs : List Nat) : s.Messaged (vs.foldl State.message s) vs := by
  induction vs generalizing s with
  | nil => exact ⟨rfl, rfl, fun _ h => h, fun _ h => nomatch h⟩
  | cons v vs ih =>
    have hone : s.message v = if s.vecOpen v then s.send (s.msixMsg v) else { s with msiPend := mput (fun _ => false) v true s.msiPend } := by
      unfold State.message
      rw [hp, hd, if_neg (by decide), if_neg (by decide)]
    rw [List.foldl_cons, hone]
    cases ho : s.vecOpen v with
    | true =>
      obtain ⟨hf, hb, hk, hpend⟩ := ih (s := s.send (s.msixMsg v)) hm hp hd
      refine ⟨hf, hb.trans ?_, hk, fun u hu hc => ?_⟩
      · rw [List.filter_cons_of_pos ho, List.map_cons, List.reverse_cons, List.append_assoc]
        rfl
      · rcases List.mem_cons.1 hu with rfl | hu
        · rw [ho] at hc
          cases hc
        · exact hpend u hu hc
    | false =>
      have hm' : mwf (fun _ => false) (mput (fun _ => false) v true s.msiPend) = true := mput_wf hm
      obtain ⟨hf, hb, hk, hpend⟩ := ih (s := { s with msiPend := mput (fun _ => false) v true s.msiPend }) hm' hp hd
      have hset (u : Nat) : mget (fun _ => false) (mput (fun _ => false) v true s.msiPend) u =
          if u = v then true else mget (fun _ => false) s.msiPend u := mget_mput hm
      refine ⟨hf, hb.trans ?_, fun u hu => hk u ?_, fun u hu hc => ?_⟩
      · rw [List.filter_cons_of_neg (by rw [ho]; decide)]
        rfl
      · exact (hset u).trans (by rw [hu, ite_self])
      · rcases List.mem_cons.1 hu with rfl | hu
        · exact hk u ((hset u).trans (if_pos rfl))
        · exact hpend u hu hc

/-- With no traffic but messages, those held go out or stay pending (R371). -/
theorem d0Return_messages {s : State} (hm : s.MemOk) (hd : s.link.d3hot = true) (hp : s.link.perst = false)
    (hc : ∀ c : ChanId, (s.chan c).held = []) (hq : ∀ q : QueueId, s.qHost q = false) :
    Does .d0Return s (fun t =>
      t = { s with link := { s.link with d3hot := false, heldMsgs := [] }, bus := t.bus, msiPend := t.msiPend } ∧
        t.bus = ((s.link.heldMsgs.filter s.vecOpen).map s.msixMsg).reverse ++ s.bus ∧
        (∀ v ∈ s.link.heldMsgs, s.vecOpen v = false → mget (fun _ => false) t.msiPend v = true)) := by
  obtain ⟨hf, hb, -, hpend⟩ := State.messages_leave (s := s.woken.updLink (fun x => { x with heldMsgs := [] })) hm.msiPend hp rfl
    s.link.heldMsgs
  have hidle : s.woken.sendHeld.linkResume = s.woken.sendHeld := by
    have hchan (c : ChanId) : (s.woken.sendHeld.chan c).held = [] :=
      (congrArg (fun t : State => (t.chan c).held) hf).trans (hc c)
    have hring (q : QueueId) : s.woken.sendHeld.qHost q = false := (congrArg (fun t : State => t.qHost q) hf).trans (hq q)
    unfold State.linkResume
    rw [State.chanRuns_idle (fun c _ => hchan c) 1024]
    exact State.drainRings_idle hring 32
  refine ⟨_, (d0Return_woken hd).trans (congrArg _ hidle), hf, hb, hpend⟩

/-- Whatever waited, the return leaves the units and all that is configured (R35). -/
theorem d0Return_keeps {s : State} (hd : s.link.d3hot = true) :
    Does .d0Return s (fun t => t.link.d3hot = false ∧ t.ports = s.ports ∧ t.units = s.units ∧ t.engs = s.engs ∧ t.axes = s.axes ∧
      t.ctxs = s.ctxs ∧ t.scripts = s.scripts ∧ t.tbl = s.tbl ∧ t.now = s.now) := by
  obtain ⟨h1, h2, h3, h4, h5, h6, h7, h8, h9⟩ := (State.sendHeld_linkWork s.woken).trans (State.linkResume_linkWork _)
  exact ⟨_, d0Return_woken hd, h1, h2, h3, h4, h5, h6, h7, h8, h9⟩

/-! ### A hand-back that waited -/

/-- A channel whose hand-back has been made, but for the end of count. -/
def ChanSt.handedBack (x : ChanSt) (b : HandBack) (now : Nat) : ChanSt :=
  { x with held := [], head := x.after b.idx b.ctl, drop := false, lastHb := (b.idx, b.firstLine), eocCount := x.eocCount + 1,
           eocFirst := x.eocFirst.or (some now) }

/-- The writes of a hand-back that does not end the count: the status, then the control (R230). -/
def State.handBackOps (s : State) (c : ChanId) (b : HandBack) : List BusOp :=
  let x := s.chan c
  [.memWrite (x.base + 32 * b.idx + 0x0C) (leBytes 2 b.ctl) false,
    .memWrite (x.base + 32 * b.idx + 0x0E)
      (leBytes 2 (b.status + b2n (!x.dirty) * 2 ^ 14 + b2n x.drop * 2 ^ 8) ++ leBytes 4 b.written ++ leBytes 4 b.firstLine) false]

theorem State.updChan_updChan (s : State) (c : ChanId) (f g : ChanSt → ChanSt) :
    (s.updChan c f).updChan c g = s.updChan c (fun x => g (f x)) := by
  have h : (s.updChan c f).chan c = f (s.chan c) := State.updChan_same s c f
  refine congrArg (fun v => ({ s with chans := v } : State)) ?_
  show (s.chans.set c (f (s.chan c))).set c (g ((s.updChan c f).chan c)) = _
  rw [h, Vector.set_set]
  rfl

/-- The front step of a channel, a hand-back that raises nothing and does not end the count. -/
theorem State.chanPerform_handBack {s : State} {c : ChanId} {b : HandBack}
    (hh : (s.chan c).held = [{ bar := false, hb := some b, events := [], fin := none }]) (he : (s.chan c).eocCount + 1 < (s.chan c).eocAt) :
    s.chanPerform c = { s.updChan c (fun x => x.handedBack b s.now) with bus := s.handBackOps c b ++ s.bus } := by
  have heoc : decide ((s.chan c).eocAt ≤ (s.chan c).eocCount + 1) = false := decide_eq_false (Nat.not_le.2 he)
  unfold State.chanPerform
  dsimp only
  rw [hh]
  dsimp only
  rw [heoc]
  rw [if_neg Bool.false_ne_true, if_neg Bool.false_ne_true, show b2n false * 2 ^ 10 = 0 from rfl, Nat.add_zero]
  exact congrArg (fun t : State => ({ t with bus := s.handBackOps c b ++ s.bus } : State))
    (State.updChan_updChan s c (fun y => { y with held := [] }) (fun y => { y with
      head := y.after b.idx b.ctl, drop := false, lastHb := (b.idx, b.firstLine), eocCount := y.eocCount + 1,
      eocFirst := y.eocFirst.or (some s.now) }))

/-- A run makes it, and nothing more waits. -/
theorem State.chanRun_handBack {s : State} {c : ChanId} {b : HandBack} (hd : s.link.d3hot = false) (hp : s.link.perst = false)
    (hb : (s.chan c).barrier = false) (hh : (s.chan c).held = [{ bar := false, hb := some b, events := [], fin := none }])
    (he : (s.chan c).eocCount + 1 < (s.chan c).eocAt) (n : Nat) :
    s.chanRun c (n + 1) = { s.updChan c (fun x => x.handedBack b s.now) with bus := s.handBackOps c b ++ s.bus } := by
  have hidle : ((s.chanPerform c).chan c).held = [] := by
    rw [State.chanPerform_handBack hh he]
    exact congrArg ChanSt.held (State.updChan_same s c (fun x => x.handedBack b s.now))
  unfold State.chanRun
  dsimp only
  rw [hb, hd, hp, hh, decide_eq_false (Nat.not_le.2 he)]
  exact (State.chanRun_idle hidle n).trans (State.chanPerform_handBack hh he)

/-- A fold of which one step alone does something. -/
theorem foldl_single {σ α : Type} {f : σ → α → σ} {s : σ} {a : α} {l : List α} (hl : l.Nodup) (ha : a ∈ l)
    (h0 : ∀ b ∈ l, b ≠ a → f s b = s) (h1 : ∀ b ∈ l, b ≠ a → f (f s a) b = f s a) : l.foldl f s = f s a := by
  induction l with
  | nil => cases ha
  | cons b l ih =>
    obtain ⟨hb, hl⟩ := List.nodup_cons.1 hl
    rw [List.foldl_cons]
    by_cases h : b = a
    · subst h
      exact foldl_idle fun d hd => h1 d (List.mem_cons_of_mem b hd) fun e => hb (e ▸ hd)
    · rw [h0 b List.mem_cons_self h]
      exact ih hl ((List.mem_cons.1 ha).resolve_left (Ne.symm h)) (fun d hd => h0 d (List.mem_cons_of_mem b hd))
        fun d hd => h1 d (List.mem_cons_of_mem b hd)

/-- Of the runs of all channels one does something. -/
theorem State.chanRuns_single {s t : State} {c : ChanId} {n : Nat} (hrun : s.chanRun c n = t)
    (h0 : ∀ d : ChanId, d ≠ c → (s.chan d).held = []) (h1 : ∀ d : ChanId, d ≠ c → (t.chan d).held = []) :
    (List.finRange 64).foldl (fun t c => t.chanRun c n) s = t := by
  subst hrun
  exact foldl_single (List.nodup_finRange 64) (List.mem_finRange c) (fun d _ h => State.chanRun_idle (h0 d h) n)
    fun d _ h => State.chanRun_idle (h1 d h) n

/-- A hand-back that waited is made (R35, R371). -/
theorem d0Return_handBack {s : State} {c : ChanId} {b : HandBack} (hd : s.link.d3hot = true) (hp : s.link.perst = false)
    (hm : s.link.heldMsgs = []) (hq : ∀ q : QueueId, s.qHost q = false) (hne : ∀ d : ChanId, d ≠ c → (s.chan d).held = [])
    (hb : (s.chan c).barrier = false) (hh : (s.chan c).held = [{ bar := false, hb := some b, events := [], fin := none }])
    (he : (s.chan c).eocCount + 1 < (s.chan c).eocAt) :
    exec .d0Return s = .next { s.woken.updChan c (fun x => x.handedBack b s.now) with bus := s.handBackOps c b ++ s.bus } := by
  have hsend : s.woken.sendHeld = s.woken := by
    have hw : s.woken.link.heldMsgs = [] := hm
    unfold State.sendHeld
    rw [hw]
    exact congrArg (fun m => ({ s.woken with link := { s.woken.link with heldMsgs := m } } : State)) hw.symm
  have hrun : s.woken.chanRun c 1024 = { s.woken.updChan c (fun x => x.handedBack b s.now) with bus := s.handBackOps c b ++ s.bus } :=
    State.chanRun_handBack (s := s.woken) rfl hp hb hh he 1023
  have hdone (d : ChanId) (h : d ≠ c) :
      (State.chan { s.woken.updChan c (fun x => x.handedBack b s.now) with bus := s.handBackOps c b ++ s.bus } d).held = [] :=
    (congrArg ChanSt.held (State.updChan_ne s (fun x => x.handedBack b s.now) h)).trans (hne d h)
  have hfold := State.chanRuns_single hrun hne hdone
  have hrings := State.drainRings_idle (s := { s.woken.updChan c (fun x => x.handedBack b s.now) with bus := s.handBackOps c b ++ s.bus })
    hq 32
  rw [d0Return_woken hd, hsend]
  exact congrArg Host.Outcome.next ((congrArg (fun t => (List.finRange 64).foldl (fun t q => State.drainRing t q 32) t)
    hfold).trans hrings)

end Sys2Proof.Machine
end

section
/-! SUPPORT. O53: PERST_L low (R411): the channels, the queues, the scripts and the contexts, one after another. -/

namespace Sys2Proof.Machine

/-! ### What a reset of the host attachment leaves -/

/-- What every part of a reset of the host attachment leaves. -/
structure State.ResetWork (s t : State) : Prop where
  link : t.link = s.link
  bus : t.bus = s.bus
  queues : t.queues = s.queues
  msiUnmasked : t.msiUnmasked = s.msiUnmasked
  msiPend : t.msiPend = s.msiPend
  ports : t.ports = s.ports
  units : t.units = s.units
  axes : t.axes = s.axes
  tbl : t.tbl = s.tbl
  store : t.store = s.store
  groups : t.groups = s.groups
  faults : t.faults = s.faults
  clk : t.clk = s.clk
  now : t.now = s.now
  eng : ∀ e : EngId, e.val < 40 → t.eng e = s.eng e

theorem State.ResetWork.of_engs {s t : State} (h : t = { s with
    pending := t.pending, free := t.free, rdata := t.rdata, regs := t.regs, ctxs := t.ctxs, pend := t.pend, raised := t.raised,
    mgt := t.mgt, jrnl := t.jrnl, chans := t.chans, scripts := t.scripts, tks := t.tks, mot := t.mot, aux := t.aux,
    mstepNext := t.mstepNext, mstepNow := t.mstepNow }) : s.ResetWork t := by
  rw [h]
  exact ⟨rfl, rfl, rfl, rfl, rfl, rfl, rfl, rfl, rfl, rfl, rfl, rfl, rfl, rfl, fun _ _ => rfl⟩

theorem State.ResetWork.refl (s : State) : s.ResetWork s := .of_engs rfl

theorem State.ResetWork.trans {s t w : State} (h : s.ResetWork t) (g : t.ResetWork w) : s.ResetWork w :=
  ⟨g.link.trans h.link, g.bus.trans h.bus, g.queues.trans h.queues, g.msiUnmasked.trans h.msiUnmasked, g.msiPend.trans h.msiPend,
    g.ports.trans h.ports, g.units.trans h.units, g.axes.trans h.axes, g.tbl.trans h.tbl, g.store.trans h.store,
    g.groups.trans h.groups, g.faults.trans h.faults, g.clk.trans h.clk, g.now.trans h.now,
    fun e he => (g.eng e he).trans (h.eng e he)⟩

theorem State.ResetWork.foldl {α : Type} {f : State → α → State} (h : ∀ (t : State) (a : α), t.ResetWork (f t a)) (l : List α)
    (s : State) : s.ResetWork (l.foldl f s) := by
  induction l generalizing s with
  | nil => exact .refl s
  | cons a l ih => exact (h s a).trans (ih (f s a))

theorem State.raise_resetWork (s : State) (src : Nat) (items : List (Nat × Nat)) : s.ResetWork (s.raise src items) := by
  rw [State.raise_frame]
  exact .of_engs rfl

/-- Steps that each keep a part of the state keep it. -/
theorem foldl_same {σ α β : Type} {f : σ → α → σ} {φ : σ → β} (h : ∀ t a, φ (f t a) = φ t) (l : List α) (s : σ) :
    φ (l.foldl f s) = φ s := by
  induction l generalizing s with
  | nil => rfl
  | cons a l ih => exact (ih (f s a)).trans (h s a)

/-! ### Channels -/

/-- A channel that is closed at once. -/
def ChanSt.shut (x : ChanSt) : ChanSt :=
  if x.st = 0 then x else { x with st := 0, cur := none, descs := [], held := [], barrier := false, stalled := false }

/-- The registers below the DMA block keep their contents. -/
def State.LowCells (s t : State) : Prop := ∀ u off : Nat, off < 0x40000 → t.cell u off = s.cell u off

theorem State.LowCells.trans {s t w : State} (h : s.LowCells t) (g : t.LowCells w) : s.LowCells w :=
  fun u off ho => (g u off ho).trans (h u off ho)

theorem State.LowCells.of_regs {s t : State} (h : t.regs = s.regs) : s.LowCells t :=
  fun _ _ _ => congrArg (fun m => mget resetCell m _) h

theorem State.raise_lowCells (s : State) (src : Nat) (items : List (Nat × Nat)) : s.LowCells (s.raise src items) :=
  fun u _ ho => (State.raise_eventsOnly s src items).cell u (by omega)

theorem State.setReg_lowCells (s : State) (u : Nat) {off : Nat} (h : 0x40000 ≤ off ∧ off < 0x800000) (v : Nat) :
    s.LowCells (s.setReg u off v) :=
  fun _ _ ho => State.cell_setCell_ne (rkey_ne_of_off (by omega) h.2 (by omega)) _

theorem State.LowCells.foldl {α : Type} {f : State → α → State} (h : ∀ (t : State) (a : α), t.LowCells (f t a)) (l : List α)
    (s : State) : s.LowCells (l.foldl f s) :=
  fun u off ho => foldl_same (φ := fun t : State => t.cell u off) (fun t a => h t a u off ho) l s

/-- What the close of one channel, or the halt of one script, leaves of the registers and the contexts. -/
structure State.ChanWork (s t : State) : Prop where
  work : s.ResetWork t
  ctxs : t.ctxs = s.ctxs
  scripts : t.scripts = s.scripts
  cells : s.LowCells t

theorem State.ChanWork.trans {s t w : State} (h : s.ChanWork t) (g : t.ChanWork w) : s.ChanWork w :=
  ⟨h.work.trans g.work, g.ctxs.trans h.ctxs, g.scripts.trans h.scripts, h.cells.trans g.cells⟩

theorem State.raise_chanWork (s : State) (src : Nat) (items : List (Nat × Nat)) : s.ChanWork (s.raise src items) :=
  ⟨State.raise_resetWork s src items, State.raise_ctxs s src items, State.raise_scripts s src items, State.raise_lowCells s src items⟩

theorem State.rewindOver_chanWork (s : State) (p : PortId) (cause : Nat) :
    s.ChanWork (s.rewindOver p cause) ∧ (s.rewindOver p cause).chans = s.chans := by
  unfold State.rewindOver
  split
  · exact ⟨⟨.refl s, rfl, rfl, .of_regs rfl⟩, rfl⟩
  · refine ⟨.trans ?_ (State.raise_chanWork _ _ _), State.raise_chans _ _ _⟩
    exact ⟨.of_engs rfl, rfl, rfl, .of_regs rfl⟩

/-- The record that a channel is closed with. -/
def State.chanShut (s : State) (c : ChanId) : State :=
  (s.setReg c.val Off.DMA_DC_ERR (2 ^ 31 + 2 ^ 16 + (s.chan c).head % 2 ^ 16)).updChan c (fun y =>
    { y with st := 0, cur := none, descs := [], held := [], barrier := false, stalled := false })

theorem State.perstChan_open {s : State} {c : ChanId} (h : (s.chan c).st ≠ 0) :
    s.perstChan c = if c.val % 4 = 3
      then ((s.chanShut c).raise (chanSrc c.val 3) [(8, 1), (16, (s.chan c).head)]).rewindOver (portOfChan c) 2
      else (s.chanShut c).raise (chanSrc c.val 3) [(8, 1), (16, (s.chan c).head)] :=
  if_neg h

theorem State.perstChan_leaves (s : State) (c : ChanId) :
    s.ChanWork (s.perstChan c) ∧ (s.perstChan c).chan c = (s.chan c).shut ∧
      ∀ d : ChanId, d ≠ c → (s.perstChan c).chan d = s.chan d := by
  by_cases h : (s.chan c).st = 0
  · have hs : s.perstChan c = s := if_pos h
    rw [hs]
    exact ⟨⟨.refl s, rfl, rfl, .of_regs rfl⟩, (if_pos h).symm, fun _ _ => rfl⟩
  · have hshut : s.ChanWork (s.chanShut c) :=
      ⟨.of_engs rfl, rfl, rfl, State.setReg_lowCells s c.val (by decide) _⟩
    have hraise := hshut.trans (State.raise_chanWork (s.chanShut c) (chanSrc c.val 3) [(8, 1), (16, (s.chan c).head)])
    have hchans : (s.perstChan c).chans = (s.chanShut c).chans := by
      rw [State.perstChan_open h]
      split
      · exact (State.rewindOver_chanWork _ _ _).2.trans (State.raise_chans _ _ _)
      · exact State.raise_chans _ _ _
    refine ⟨?_, (congrArg (·[c]) hchans).trans ?_, fun d hd => (congrArg (·[d]) hchans).trans (State.updChan_ne _ _ hd)⟩
    · rw [State.perstChan_open h]
      split
      · exact hraise.trans (State.rewindOver_chanWork _ _ _).1
      · exact hraise
    · exact (State.updChan_same _ c _).trans (if_neg h).symm

/-- All channels close. -/
def State.perstChans (s : State) : State := (List.finRange 64).foldl State.perstChan s

theorem State.perstChans_work (s : State) : s.ChanWork s.perstChans :=
  ⟨.foldl (fun t c => (State.perstChan_leaves t c).1.work) _ s, foldl_same (fun t c => (State.perstChan_leaves t c).1.ctxs) _ s,
    foldl_same (fun t c => (State.perstChan_leaves t c).1.scripts) _ s, .foldl (fun t c => (State.perstChan_leaves t c).1.cells) _ s⟩

theorem State.perstChans_chan (s : State) (c : ChanId) : s.perstChans.chan c = (s.chan c).shut := by
  have h := foldl_componentwise (P := fun _ : State => True) (φ := fun c (t : State) => t.chan c) (G := fun _ => ChanSt.shut)
    (fun _ _ _ => trivial) (fun t c _ => (State.perstChan_leaves t c).2.1) (fun t c d _ h => (State.perstChan_leaves t c).2.2 d h)
    (List.nodup_finRange 64) (s := s) trivial c
  rwa [if_pos (List.mem_finRange c)] at h

/-! ### Queues -/

/-- HOST and EN of a queue. -/
def State.qHostEn (s : State) (q : QueueId) : Bool × Bool := (s.qHost q, s.qEn q)

theorem State.qHostEn_congr {s t : State} {q : QueueId} (h : t.cell 0 (qoff Off.EVQ_CTL q) = s.cell 0 (qoff Off.EVQ_CTL q)) :
    t.qHostEn q = s.qHostEn q := by
  unfold State.qHostEn State.qHost State.qEn State.rf State.eff
  rw [h]

/-- A queue of the host loses EN and HOST. -/
theorem State.perstQueue_same {s : State} (hm : s.MemOk) (q : QueueId) :
    (s.perstQueue q).qHostEn q = if (s.qHostEn q).1 then (false, false) else s.qHostEn q := by
  by_cases h : s.qHost q = true
  · have hm' : (s.setRf 0 (qoff Off.EVQ_CTL q) 0 0 0).MemOk := State.setRf_memOk hm _ _ _ _ _
    have hs : s.perstQueue q = (s.setRf 0 (qoff Off.EVQ_CTL q) 0 0 0).setRf 0 (qoff Off.EVQ_CTL q) 16 16 0 := if_pos h
    have hhost : (s.perstQueue q).rf 0 (qoff Off.EVQ_CTL q) 16 16 = 0 := by
      rw [hs]
      exact State.rf_setRf hm' 0 (qoff Off.EVQ_CTL q) 16 16 0 (by decide) (by decide)
    have hen : (s.perstQueue q).rf 0 (qoff Off.EVQ_CTL q) 0 0 = 0 := by
      rw [hs, State.rf_setRf_below hm' 0 (qoff Off.EVQ_CTL q) 0 (by decide) (by decide) (by decide) (by decide)]
      exact State.rf_setRf hm 0 (qoff Off.EVQ_CTL q) 0 0 0 (by decide) (by decide)
    unfold State.qHostEn
    rw [h, if_pos rfl]
    unfold State.qHost State.qEn
    rw [hhost, hen]
    rfl
  · have hs : s.perstQueue q = s := if_neg h
    rw [hs]
    exact (if_neg h).symm

theorem State.perstQueue_work (s : State) (q : QueueId) :
    s.ResetWork (s.perstQueue q) ∧ (s.perstQueue q).ctxs = s.ctxs ∧ (s.perstQueue q).scripts = s.scripts ∧
      (s.perstQueue q).chans = s.chans := by
  unfold State.perstQueue
  split
  · exact ⟨.of_engs rfl, rfl, rfl, rfl⟩
  · exact ⟨.refl s, rfl, rfl, rfl⟩

theorem State.perstQueue_ne (s : State) {q r : QueueId} (h : r ≠ q) : (s.perstQueue q).qHostEn r = s.qHostEn r := by
  have hne : rkey 0 (qoff Off.EVQ_CTL r) ≠ rkey 0 (qoff Off.EVQ_CTL q) := by
    have hv : r.val ≠ q.val := fun e => h (Fin.ext e)
    unfold rkey qoff
    omega
  unfold State.perstQueue
  split
  · refine State.qHostEn_congr ?_
    exact (State.cell_setRf_ne hne 16 16 0).trans (State.cell_setRf_ne hne 0 0 0)
  · rfl

/-- The queues of the host stop. -/
def State.perstQueues (s : State) : State := (List.finRange 64).foldl State.perstQueue s

theorem State.perstQueues_work (s : State) :
    s.ResetWork s.perstQueues ∧ s.perstQueues.ctxs = s.ctxs ∧ s.perstQueues.scripts = s.scripts ∧ s.perstQueues.chans = s.chans :=
  ⟨.foldl (fun t q => (State.perstQueue_work t q).1) _ s, foldl_same (fun t q => (State.perstQueue_work t q).2.1) _ s,
    foldl_same (fun t q => (State.perstQueue_work t q).2.2.1) _ s, foldl_same (fun t q => (State.perstQueue_work t q).2.2.2) _ s⟩

theorem State.perstQueues_qHostEn {s : State} (hm : s.MemOk) (q : QueueId) :
    s.perstQueues.qHostEn q = if (s.qHostEn q).1 then (false, false) else s.qHostEn q := by
  have h := foldl_componentwise (P := State.MemOk) (φ := fun q (t : State) => t.qHostEn q)
    (G := fun _ x => if x.1 then (false, false) else x)
    (fun t q ht => (State.perstQueue_keeps q (Keeps.refl (kc := false) t)).mem ht) (fun t q ht => State.perstQueue_same ht q)
    (fun t q r _ h => State.perstQueue_ne t h) (List.nodup_finRange 64) hm q
  rwa [if_pos (List.mem_finRange q)] at h

/-! ### Scripts -/

/-- A script that has stopped. -/
def ScriptSt.stopped (x : ScriptSt) (st : ScState) (cause : Nat) : ScriptSt :=
  { x with st := st, cause := cause, wait := none, xfer := none, fetched := none, aborting := false }

/-- A script that a reset of the host attachment halts, but for management's (R411). -/
def ScriptSt.resetHalt (c : ScriptId) (x : ScriptSt) : ScriptSt :=
  if c.val < 15 ∧ (x.st = .running ∨ x.st = .waiting)
    then x.stopped .halted 8 else x

theorem State.journalXfer_frame (s : State) (c : ScriptId) : s.journalXfer c = { s with jrnl := (s.journalXfer c).jrnl } := by
  unfold State.journalXfer
  split
  · rfl
  · split
    · rfl
    · split <;> rfl

theorem State.scriptStop_leaves (s : State) (c : ScriptId) (st : ScState) (cause : Nat) :
    s.ResetWork (s.scriptStop c st cause) ∧ (s.scriptStop c st cause).ctxs = s.ctxs ∧ (s.scriptStop c st cause).chans = s.chans ∧
      (s.scriptStop c st cause).regs = s.regs ∧
      (s.scriptStop c st cause).script c = (s.script c).stopped st cause ∧
      ∀ d : ScriptId, d ≠ c → (s.scriptStop c st cause).script d = s.script d := by
  unfold State.scriptStop
  rw [State.journalXfer_frame]
  refine ⟨.trans (t := s.updScript c fun x => x.stopped st cause) (.of_engs rfl)
    ⟨rfl, rfl, rfl, rfl, rfl, rfl, rfl, rfl, rfl, rfl, rfl, rfl, rfl, rfl, fun e he => State.updEng_ne _ _ fun h => ?_⟩,
    rfl, rfl, rfl, State.updScript_same s c (fun x => x.stopped st cause),
    fun d hd => State.updScript_ne s (fun x => x.stopped st cause) hd⟩
  rw [h] at he
  exact absurd he (Nat.not_lt.2 (Nat.le_add_right 40 c.val))

/-- What the halt of a script leaves. -/
theorem State.scriptHalt_leaves (s : State) (c : ScriptId) (cause : Nat) :
    s.ResetWork (s.scriptHalt c cause) ∧ (s.scriptHalt c cause).ctxs = s.ctxs ∧ (s.scriptHalt c cause).chans = s.chans ∧
      s.LowCells (s.scriptHalt c cause) ∧
      (s.scriptHalt c cause).script c = (s.script c).stopped .halted cause ∧
      ∀ d : ScriptId, d ≠ c → (s.scriptHalt c cause).script d = s.script d := by
  have hstop := State.scriptStop_leaves (s.setReg (scSel c) Off.DMA_SC_XFER_DONE ((s.script c).xferDone % 2 ^ 32)) c .halted cause
  have hset : s.ResetWork (s.setReg (scSel c) Off.DMA_SC_XFER_DONE ((s.script c).xferDone % 2 ^ 32)) := .of_engs rfl
  obtain ⟨hwork, hctxs, hchans, hregs, hsame, hne⟩ := hstop
  have hscripts (d : ScriptId) := congrArg (·[d]) (State.raise_scripts ((s.setReg (scSel c) Off.DMA_SC_XFER_DONE
    ((s.script c).xferDone % 2 ^ 32)).scriptStop c .halted cause) (scriptSrc c.val 1) [(8, cause), (16, (s.eng (scriptEng c)).pc)])
  refine ⟨(hset.trans hwork).trans (State.raise_resetWork _ _ _), (State.raise_ctxs _ _ _).trans hctxs,
    (State.raise_chans _ _ _).trans hchans, ?_, (hscripts c).trans hsame, fun d hd => (hscripts d).trans (hne d hd)⟩
  exact ((State.setReg_lowCells s (scSel c) (by decide) _).trans (.of_regs hregs)).trans (State.raise_lowCells _ _ _)

theorem State.resetScript_leaves (s : State) (c : ScriptId) :
    s.ResetWork (s.resetScript c) ∧ (s.resetScript c).ctxs = s.ctxs ∧ (s.resetScript c).chans = s.chans ∧
      s.LowCells (s.resetScript c) ∧ (s.resetScript c).script c = (s.script c).resetHalt c ∧
      ∀ d : ScriptId, d ≠ c → (s.resetScript c).script d = s.script d := by
  unfold State.resetScript ScriptSt.resetHalt
  split
  · exact State.scriptHalt_leaves s c 8
  · exact ⟨.refl s, rfl, rfl, .of_regs rfl, rfl, fun _ _ => rfl⟩

/-- The scripts halt. -/
def State.perstScripts (s : State) : State := (List.finRange 16).foldl State.resetScript s

theorem State.perstScripts_work (s : State) :
    s.ResetWork s.perstScripts ∧ s.perstScripts.ctxs = s.ctxs ∧ s.perstScripts.chans = s.chans ∧ s.LowCells s.perstScripts := by
  refine ⟨.foldl (fun t c => ?_) _ s, foldl_same (fun t c => ?_) _ s, foldl_same (fun t c => ?_) _ s, .foldl (fun t c => ?_) _ s⟩ <;>
    obtain ⟨hwork, hctxs, hchans, hcells, -, -⟩ := State.resetScript_leaves t c
  · exact hwork
  · exact hctxs
  · exact hchans
  · exact hcells

theorem State.perstScripts_script (s : State) (c : ScriptId) : s.perstScripts.script c = (s.script c).resetHalt c := by
  have h := foldl_componentwise (P := fun _ : State => True) (φ := fun c (t : State) => t.script c) (G := ScriptSt.resetHalt)
    (fun _ _ _ => trivial) (fun t c _ => (State.resetScript_leaves t c).2.2.2.2.1)
    (fun t c d _ h => (State.resetScript_leaves t c).2.2.2.2.2 d h) (List.nodup_finRange 16) (s := s) trivial c
  rwa [if_pos (List.mem_finRange c)] at h

/-! ### Contexts -/

/-- A context whose session ends, and which but for the owner loses its rights. -/
def Ctx.perst (c : CtxId) (x : Ctx) : Ctx :=
  { x.ended with rightsBlk := if c = 0 then x.rightsBlk else 0, rightsPort := if c = 0 then x.rightsPort else 0,
                 rightsAxis := if c = 0 then x.rightsAxis else 0 }

/-- The ring registers that return to 0. -/
def ringOffs : List Nat :=
  [Off.HIF_ASQ_BASE_LO, Off.HIF_ASQ_BASE_HI, Off.HIF_ACQ_BASE_LO, Off.HIF_ACQ_BASE_HI, Off.HIF_AQ_SIZE, Off.HIF_ASQ_TAIL,
    Off.HIF_ACQ_HEAD, Off.HIF_CTX_CTL]

theorem rkey_ne_of_unit {u v a b : Nat} (ha : a < 0x800000) (hb : b < 0x800000) (h : u ≠ v) : rkey u a ≠ rkey v b := by
  unfold rkey
  omega

/-- Registers set to 0. -/
theorem State.setRegs_eff {s : State} (h : s.MemOk) (u off : Nat) (l : List Nat) :
    (l.foldl (fun t off => t.setReg u off 0) s).eff u off = if off ∈ l then 0 else s.eff u off := by
  induction l generalizing s with
  | nil => rfl
  | cons a l ih =>
    rw [List.foldl_cons, ih (State.setReg_memOk h u a 0)]
    have hone : (s.setReg u a 0).eff u off = if off = a then 0 else s.eff u off := by
      by_cases ho : off = a
      · subst ho
        rw [if_pos rfl]
        exact congrArg (fun x : RegCell => x.force.toNat) (State.cell_setCell_same h u off _)
      · rw [if_neg ho]
        exact congrArg (fun x : RegCell => x.force.toNat) (State.cell_setCell_ne (fun e => ho (rkey_inj e)) _)
    rw [hone]
    by_cases hl : off ∈ l <;> by_cases ho : off = a <;> simp [hl, ho]

/-- Registers that are not set keep their contents. -/
theorem State.setRegs_cell {s : State} {u v off : Nat} {l : List Nat} (h : ∀ a ∈ l, rkey v off ≠ rkey u a) :
    (l.foldl (fun t off => t.setReg u off 0) s).cell v off = s.cell v off := by
  induction l generalizing s with
  | nil => rfl
  | cons a l ih =>
    rw [List.foldl_cons, ih fun b hb => h b (List.mem_cons_of_mem a hb)]
    exact State.cell_setCell_ne (h a List.mem_cons_self) _

theorem ringOffs_lt : ∀ a ∈ ringOffs, a < 0x48 := by decide

theorem State.setRegs_frame (s : State) (u : Nat) (l : List Nat) : l.foldl (fun t off => t.setReg u off 0) s =
    { s with regs := (l.foldl (fun t off => t.setReg u off 0) s).regs } := by
  induction l generalizing s with
  | nil => rfl
  | cons a l ih => exact ih (s.setReg u a 0)

/-- The registers after the ring registers of a context return to 0. -/
def State.ringRegs (s : State) (c : CtxId) : List (Nat × RegCell) := (ringOffs.foldl (fun t off => t.setReg c.val off 0) s).regs

/-- The rights of a context after PERST_L; context 0 keeps them. -/
theorem State.giveRights_ended (s : State) (c : CtxId) : (s.ctlReset c).giveRights c 0 0 0 = s.updCtx c (Ctx.perst c) := by
  refine (State.updCtx_updCtx s c Ctx.ended _).trans (State.updCtx_congr s c ?_)
  unfold Ctx.perst
  by_cases hc : c = 0
  · simp only [if_pos hc, if_pos (show c.val = 0 from congrArg Fin.val hc)]
    rfl
  · simp only [if_neg hc, if_neg (show ¬c.val = 0 from fun e => hc (Fin.ext e))]
    rfl

theorem State.perstCtx_eq (s : State) (c : CtxId) :
    s.perstCtx c = { s.updCtx c (Ctx.perst c) with regs := (s.ctlReset c).ringRegs c } := by
  have h : (s.ctlReset c).ringRegs0 c = { s.ctlReset c with regs := (s.ctlReset c).ringRegs c } := State.setRegs_frame _ c.val ringOffs
  unfold State.perstCtx
  rw [h]
  exact congrArg (fun t : State => { t with regs := (s.ctlReset c).ringRegs c }) (State.giveRights_ended s c)

theorem State.perstCtx_work (s : State) (c : CtxId) :
    s.ResetWork (s.perstCtx c) ∧ (s.perstCtx c).scripts = s.scripts ∧ (s.perstCtx c).chans = s.chans := by
  rw [State.perstCtx_eq]
  generalize (s.ctlReset c).ringRegs c = m
  exact ⟨.of_engs rfl, rfl, rfl⟩

theorem State.perstCtx_regs (s : State) (c : CtxId) :
    (s.perstCtx c).regs = (ringOffs.foldl (fun t off => t.setReg c.val off 0) (s.ctlReset c)).regs := by
  rw [State.perstCtx_eq]
  rfl

theorem State.perstCtx_cell (s : State) (c : CtxId) {u off : Nat} (h : ∀ a ∈ ringOffs, rkey u off ≠ rkey c.val a) :
    (s.perstCtx c).cell u off = s.cell u off :=
  (congrArg (fun m => mget resetCell m (rkey u off)) (State.perstCtx_regs s c)).trans (State.setRegs_cell (s := s.ctlReset c) h)

theorem State.ctlReset_memOk {s : State} (h : s.MemOk) (c : CtxId) : (s.ctlReset c).MemOk :=
  (State.ctlReset_keeps c (Keeps.refl (kc := false) s)).mem h

theorem State.perstCtx_eff {s : State} (hm : s.MemOk) (c : CtxId) {off : Nat} (h : off ∈ ringOffs) : (s.perstCtx c).eff c.val off = 0 :=
  (congrArg (fun m => (mget resetCell m (rkey c.val off)).force.toNat) (State.perstCtx_regs s c)).trans
    ((State.setRegs_eff (State.ctlReset_memOk hm c) c.val off ringOffs).trans (if_pos h))

/-- The context's session is over, and but for the owner its rights are gone. -/
theorem State.perstCtx_same (s : State) (c : CtxId) : (s.perstCtx c).ctxs[c] = (s.ctxs[c]).perst c := by
  rw [State.perstCtx_eq]
  generalize (s.ctlReset c).ringRegs c = m
  exact State.updCtx_same s c (Ctx.perst c)

theorem State.perstCtx_ne (s : State) {c d : CtxId} (h : d ≠ c) : (s.perstCtx c).ctxs[d] = s.ctxs[d] := by
  rw [State.perstCtx_eq]
  generalize (s.ctlReset c).ringRegs c = m
  exact State.updCtx_ne s (Ctx.perst c) h

/-- The sessions end. -/
def State.perstCtxs (s : State) : State := (List.finRange 8).foldl State.perstCtx s

theorem State.perstCtxs_work (s : State) :
    s.ResetWork s.perstCtxs ∧ s.perstCtxs.scripts = s.scripts ∧ s.perstCtxs.chans = s.chans :=
  ⟨.foldl (fun t c => (State.perstCtx_work t c).1) _ s, foldl_same (fun t c => (State.perstCtx_work t c).2.1) _ s,
    foldl_same (fun t c => (State.perstCtx_work t c).2.2) _ s⟩

theorem State.perstCtxs_cell (s : State) (u : Nat) {off : Nat} (h : 0x48 ≤ off) (ho : off < 0x800000) :
    s.perstCtxs.cell u off = s.cell u off :=
  foldl_same (φ := fun t : State => t.cell u off) (fun t c => State.perstCtx_cell t c fun a ha => by
    have := ringOffs_lt a ha
    exact rkey_ne_of_off ho (by omega) (by omega)) _ s

theorem State.perstCtxs_ctx (s : State) (c : CtxId) : s.perstCtxs.ctxs[c] = (s.ctxs[c]).perst c := by
  have h := foldl_componentwise (P := fun _ : State => True) (φ := fun c (t : State) => t.ctxs[c]) (G := Ctx.perst)
    (fun _ _ _ => trivial) (fun t c _ => State.perstCtx_same t c) (fun t c d _ h => State.perstCtx_ne t h)
    (List.nodup_finRange 8) (s := s) trivial c
  rwa [if_pos (List.mem_finRange c)] at h

theorem State.perstCtxs_eff {s : State} (hm : s.MemOk) (c : CtxId) {off : Nat} (h : off ∈ ringOffs) : s.perstCtxs.eff c.val off = 0 := by
  have hlt := ringOffs_lt off h
  have hfold := foldl_componentwise (P := State.MemOk) (φ := fun c (t : State) => t.eff (Fin.val c) off) (G := fun (_ : CtxId) _ => 0)
    (fun t c ht => (State.perstCtx_keeps c (Keeps.refl (kc := false) t)).mem ht) (fun t c ht => State.perstCtx_eff ht c h)
    (fun t c d _ hd => congrArg (fun x : RegCell => x.force.toNat) (State.perstCtx_cell t c fun a ha => by
      have := ringOffs_lt a ha
      exact rkey_ne_of_unit (by omega) (by omega) fun e => hd (Fin.ext e)))
    (List.nodup_finRange 8) hm c
  rwa [if_pos (List.mem_finRange c)] at hfold

end Sys2Proof.Machine
end

section
/-! SUPPORT. O53: PERST_L low as a whole, and the statement. -/

namespace Sys2Proof.Machine

/-- The link under PERST_L. -/
def LinkSt.inReset (x : LinkSt) : LinkSt :=
  { x with perst := true, d3hot := false, up := false, width := 0, trained := 0, rate := 0, flit := false, l0p := false,
           ptmActive := false, ideOn := false, ideKeys := [], heldMsgs := [], pci := PciSt.atReset }

/-- PERST_L as it falls: the link and MSI-X. -/
def State.perstStart (s : State) : State :=
  { (s.journalFree (jentry 0 3 0)).updLink LinkSt.inReset with msiUnmasked := [], msiPend := [] }

/-- The channels, queues, scripts and contexts after it. -/
def State.perstParts (s : State) : State := s.perstStart.perstChans.perstQueues.perstScripts.perstCtxs

/-- A stage in progress is abandoned. -/
def Mgt.unstage (m : Mgt) : Mgt := if m.stagingPldm then m else { m with staging := none }

/-- PTM goes off, and management gives up the stage. -/
def State.perstEnd (s : State) : State := (s.setRf 0 Off.HIF_PTM_CTL 0 0 0).updMgt Mgt.unstage

theorem State.perstLow_eq (s : State) : s.perstLow = s.perstParts.perstEnd := by
  unfold State.perstLow State.perstParts State.perstCtxs State.perstScripts State.perstQueues State.perstChans
  rfl

theorem State.perstEnd_parts (s : State) :
    s.ResetWork s.perstEnd ∧ s.perstEnd.ctxs = s.ctxs ∧ s.perstEnd.chans = s.chans ∧ s.perstEnd.scripts = s.scripts :=
  ⟨.of_engs rfl, rfl, rfl, rfl⟩

theorem State.perstEnd_cell (s : State) {u off : Nat} (h : off ≠ Off.HIF_PTM_CTL) (ho : off < 0x800000) :
    s.perstEnd.cell u off = s.cell u off :=
  State.cell_setRf_ne (rkey_ne_of_off ho (by decide) h) 0 0 0

theorem State.perstEnd_ptm {s : State} (hm : s.MemOk) : s.perstEnd.rf 0 Off.HIF_PTM_CTL 0 0 = 0 :=
  State.rf_setRf hm 0 Off.HIF_PTM_CTL 0 0 0 (by decide) (by decide)

section

variable {s : State} (hm : s.MemOk)
include hm

theorem State.perstStart_memOk : s.perstStart.MemOk :=
  ⟨hm.regs, hm.tbl, hm.pend, hm.raised, rfl, rfl, hm.store, hm.mstepNext, hm.mstepNow, hm.engs⟩

theorem State.perstChans_memOk : s.perstStart.perstChans.MemOk :=
  (Keeps.foldl (fun _ c h => State.perstChan_keeps c h) _ _ (Keeps.refl (kc := false) s.perstStart)).mem (State.perstStart_memOk hm)

theorem State.perstScripts_memOk : s.perstStart.perstChans.perstQueues.perstScripts.MemOk :=
  (Keeps.foldl (fun _ c h => State.resetScript_keeps c h) _ _ (Keeps.foldl (fun _ q h => State.perstQueue_keeps q h) _ _
    (Keeps.refl (kc := false) s.perstStart.perstChans))).mem (State.perstChans_memOk hm)

theorem State.perstParts_memOk : s.perstParts.MemOk :=
  (Keeps.foldl (fun _ c h => State.perstCtx_keeps c h) _ _
    (Keeps.refl (kc := false) s.perstStart.perstChans.perstQueues.perstScripts)).mem (State.perstScripts_memOk hm)

end

theorem State.perstLow_work (s : State) : s.perstStart.ResetWork s.perstLow := by
  have h : s.perstStart.ResetWork s.perstParts :=
    (((State.perstChans_work s.perstStart).work.trans (State.perstQueues_work _).1).trans (State.perstScripts_work _).1).trans
      (State.perstCtxs_work _).1
  rw [State.perstLow_eq]
  exact h.trans (State.perstEnd_parts s.perstParts).1

theorem State.perstLow_parts (s : State) :
    s.perstLow.ctxs = s.perstParts.ctxs ∧ s.perstLow.chans = s.perstParts.chans ∧ s.perstLow.scripts = s.perstParts.scripts := by
  rw [State.perstLow_eq]
  exact (State.perstEnd_parts s.perstParts).2

theorem State.perstLow_ctx (s : State) (c : CtxId) : s.perstLow.ctxs[c] = (s.ctxs[c]).perst c := by
  have hctxs : s.perstStart.perstChans.perstQueues.perstScripts.ctxs = s.perstStart.ctxs :=
    (State.perstScripts_work _).2.1.trans ((State.perstQueues_work _).2.1.trans (State.perstChans_work s.perstStart).ctxs)
  have h : s.perstParts.ctxs[c] = _ := State.perstCtxs_ctx _ c
  rw [(State.perstLow_parts s).1, h, hctxs]
  rfl

theorem State.perstLow_chan (s : State) (c : ChanId) : s.perstLow.chan c = (s.chan c).shut := by
  have hchans : s.perstLow.chans = s.perstStart.perstChans.chans := (State.perstLow_parts s).2.1.trans
    ((State.perstCtxs_work _).2.2.trans ((State.perstScripts_work _).2.2.1.trans (State.perstQueues_work _).2.2.2))
  exact (congrArg (fun v : Vector ChanSt 64 => v[c]) hchans).trans (State.perstChans_chan s.perstStart c)

theorem State.perstLow_script (s : State) (c : ScriptId) : s.perstLow.script c = (s.script c).resetHalt c := by
  have hafter : s.perstLow.scripts = s.perstStart.perstChans.perstQueues.perstScripts.scripts :=
    (State.perstLow_parts s).2.2.trans (State.perstCtxs_work _).2.1
  have hbefore : s.perstStart.perstChans.perstQueues.scripts = s.perstStart.scripts :=
    (State.perstQueues_work _).2.2.1.trans (State.perstChans_work s.perstStart).scripts
  exact (congrArg (fun v : Vector ScriptSt 16 => v[c]) hafter).trans ((State.perstScripts_script _ c).trans
    (congrArg (fun v : Vector ScriptSt 16 => ScriptSt.resetHalt c v[c]) hbefore))

theorem State.perstLow_qHostEn {s : State} (hm : s.MemOk) (q : QueueId) :
    s.perstLow.qHostEn q = if s.qHost q then (false, false) else s.qHostEn q := by
  have hoff : 0x10000 ≤ qoff Off.EVQ_CTL q ∧ qoff Off.EVQ_CTL q < 0x40000 := by
    unfold qoff Off.EVQ_CTL
    omega
  have hptm : qoff Off.EVQ_CTL q ≠ Off.HIF_PTM_CTL := by
    unfold qoff Off.EVQ_CTL Off.HIF_PTM_CTL
    omega
  have hafter : s.perstLow.cell 0 (qoff Off.EVQ_CTL q) = s.perstStart.perstChans.perstQueues.cell 0 (qoff Off.EVQ_CTL q) := by
    rw [State.perstLow_eq]
    exact (State.perstEnd_cell s.perstParts hptm (by omega)).trans ((State.perstCtxs_cell _ 0 (by omega) (by omega)).trans
      ((State.perstScripts_work _).2.2.2 0 _ hoff.2))
  have hbefore : s.perstStart.perstChans.qHostEn q = s.qHostEn q :=
    State.qHostEn_congr ((State.perstChans_work s.perstStart).cells 0 _ hoff.2)
  rw [State.qHostEn_congr hafter, State.perstQueues_qHostEn (State.perstChans_memOk hm), hbefore]
  rfl

theorem State.perstLow_eff {s : State} (hm : s.MemOk) (c : CtxId) {off : Nat} (h : off ∈ ringOffs) : s.perstLow.eff c.val off = 0 := by
  have hlt := ringOffs_lt off h
  have hptm : off ≠ Off.HIF_PTM_CTL := Nat.ne_of_lt hlt
  rw [State.perstLow_eq]
  exact (congrArg (fun x : RegCell => x.force.toNat) (State.perstEnd_cell s.perstParts hptm (by omega))).trans
    (State.perstCtxs_eff (State.perstScripts_memOk hm) c h)

theorem State.perstLow_ptm {s : State} (hm : s.MemOk) : s.perstLow.rf 0 Off.HIF_PTM_CTL 0 0 = 0 := by
  rw [State.perstLow_eq]
  exact State.perstEnd_ptm (State.perstParts_memOk hm)

/-- A channel that was closed stays as it was. -/
theorem ChanSt.shut_st (x : ChanSt) : x.shut.st = 0 ∧ (x.st = 0 → x.shut = x) := by
  unfold ChanSt.shut
  split
  · next hst => exact ⟨hst, fun _ => rfl⟩
  · next hst => exact ⟨rfl, fun e => absurd e hst⟩

/-- A queue of the host loses EN and HOST, any other keeps them. -/
theorem State.perstLow_queue {s : State} (hm : s.MemOk) (q : QueueId) :
    s.perstLow.qHost q = false ∧ (s.qHost q = false → s.perstLow.qEn q = s.qEn q) ∧ (s.qHost q = true → s.perstLow.qEn q = false) := by
  have hq := State.perstLow_qHostEn hm q
  cases hh : s.qHost q with
  | true =>
    rw [hh, if_pos rfl] at hq
    exact ⟨congrArg Prod.fst hq, fun e => (nomatch e), fun _ => congrArg Prod.snd hq⟩
  | false =>
    rw [hh, if_neg (by decide)] at hq
    exact ⟨(congrArg Prod.fst hq).trans hh, fun _ => congrArg Prod.snd hq, fun e => (nomatch e)⟩

/-- A script that ran or waited halts with cause RESET, but for management's. -/
theorem ScriptSt.resetHalt_st (c : ScriptId) (x : ScriptSt) : if c ≠ 15 ∧ (x.st = .running ∨ x.st = .waiting)
    then (x.resetHalt c).st = .halted ∧ (x.resetHalt c).cause = 8 else x.resetHalt c = x := by
  have hc : c ≠ 15 ↔ c.val < 15 := by
    rw [Ne, Fin.ext_iff]
    have := c.isLt
    show ¬c.val = 15 ↔ _
    omega
  unfold ScriptSt.resetHalt
  simp only [hc]
  split
  · exact ⟨rfl, rfl⟩
  · rfl

end Sys2Proof.Machine
end

section
/-! SUPPORT. O53: the statement. -/

namespace Sys2Proof.Machine

/-- A width that is not accepted. -/
theorem l0pRequest_refused {s : State} {width : Nat} (h : s.link.up = false ∨ s.link.trained < width ∨ width = s.link.width) :
    Does (.l0pRequest width) s (fun t => t = s) := by
  obtain ⟨t, ht, hs⟩ := l0pRequest_does (s := s) width (good := False) (by
    rcases h with h | h | h
    · simp [h]
    · simp [Nat.not_le.2 h]
    · simp [h])
  exact ⟨t, ht, hs.trans (if_neg id)⟩

/-- A return to a greater width, up to the trained one (R36). -/
theorem l0pRequest_up {s : State} {width : Nat} (hup : s.link.up = true) (hlt : s.link.width < width) (hle : width ≤ s.link.trained) :
    Does (.l0pRequest width) s (fun t => t = { s with link := { s.link with
      width := width, l0p := decide (width < s.link.trained) } }) := by
  obtain ⟨t, ht, rfl⟩ := l0pRequest_does (s := s) width (good := True) (by simp [hup, hlt, hle])
  exact ⟨_, ht, if_pos trivial⟩

/-- A reduction, to the smallest width that carries the committed demand alone (R36). -/
theorem l0pRequest_down {s : State} {width : Nat} (hup : s.link.up = true) (hlt : width < s.link.width)
    (hle : s.link.width ≤ s.link.trained) :
    Does (.l0pRequest width) s (fun t => t = { s with link :=
      (if s.l0pWidth = some width then { s.link with width := width, l0p := true } else s.link) }) := by
  obtain ⟨t, ht, rfl⟩ := l0pRequest_does (s := s) width (good := s.l0pWidth = some width) (by
    simp [hup, hlt, Nat.not_lt.2 (Nat.le_of_lt hlt), Nat.le_trans (Nat.le_of_lt hlt) hle, beq_eq_decide])
  refine ⟨_, ht, ?_⟩
  rw [decide_eq_true (Nat.lt_of_lt_of_le hlt hle)]
  split <;> rfl

theorem perstRelease_does {s : State} (href : Bool) (hm : s.MemOk) (hup : s.rf 0 (Off.CLK_BANK + 76) 31 31 = 1) :
    Does (.perstRelease href) s (fun t => t = { s with link := { s.link with perst := false }, regs := t.regs } ∧
      s.SameRegs t [rkey 0 Off.CLK_REF_STAT] ∧ t.rf 0 Off.CLK_REF_STAT 6 6 = b2n href ∧ t.rf 0 Off.CLK_REF_STAT 7 7 = b2n (!href) ∧
      (∀ i : Fin 32, i.val ∉ ([6, 7] : List Nat) → t.rf 0 Off.CLK_REF_STAT i.val i.val = s.rf 0 Off.CLK_REF_STAT i.val i.val)) := by
  have hbank : s.bankUp 19 = true := by
    unfold State.bankUp
    rw [hup]
    rfl
  have hdone : exec (.perstRelease href) s = .next (((s.updLink (fun x => { x with perst := false })).setRf 0 Off.CLK_REF_STAT 6 6
      (b2n href)).setRf 0 Off.CLK_REF_STAT 7 7 (b2n (!href))) := by
    show execPerstRelease href s = _
    unfold execPerstRelease
    rw [hbank]
    rfl
  exact ⟨_, hdone, rfl, State.hrefclk_leaves (State.updLink_memOk hm (fun x => { x with perst := false })) href (!href)⟩

theorem perstRelease_low {s : State} (href : Bool) (h : s.bankUp 19 = false) : Does (.perstRelease href) s (fun t => t = s) := by
  have hdone : exec (.perstRelease href) s = .next s := by
    show execPerstRelease href s = _
    unfold execPerstRelease
    rw [h]
    rfl
  exact ⟨s, hdone, rfl⟩

/-- IDE key management, while the link is up. -/
theorem ideKm_up {s : State} (h : s.link.up = true) (m : IdeKm) : exec (.ideKmMessage m) s = .next (match m with
    | .query => s
    | .keyProg slot key => s.updLink (fun x => { x with ideKeys := (slot, key) :: x.ideKeys.filter (fun e => e.1 != slot) })
    | .setGo => s.updLink (fun x => { x with ideOn := !x.ideKeys.isEmpty })
    | .setStop => s.updLink (fun x => { x with ideOn := false })
    | .other _ => s) := by
  show execIdeKmMessage m s = _
  unfold execIdeKmMessage
  rw [h]
  rfl

theorem ideKm_down {s : State} (h : s.link.up = false) (m : IdeKm) : Does (.ideKmMessage m) s (fun t => t = s) := by
  have hdone : exec (.ideKmMessage m) s = .next s := by
    show execIdeKmMessage m s = _
    unfold execIdeKmMessage
    rw [h]
    rfl
  exact ⟨s, hdone, rfl⟩

theorem ptmExchange_off {s : State} (ok : Bool) (offset : Int)
    (h : s.rf 0 Off.HIF_PTM_CTL 0 0 = 0 ∨ s.link.pci.ptmEn = false ∨ s.link.up = false) :
    Does (.ptmExchange ok offset) s (fun t => t = { s with link := { s.link with ptmActive := false } }) := by
  have hoff : s.rf 0 Off.HIF_PTM_CTL 0 0 = 0 ∨ (!s.link.pci.ptmEn) = true ∨ (!s.link.up) = true := by simpa using h
  exact ⟨_, if_pos hoff, rfl⟩

/-- Settles O53: the link's commands each by their own lemma, the return to D0 by what waited, PERST_L part by part. -/
theorem linkResetAndPtm : Obligations.LinkResetAndPtm := by
  unfold Obligations.LinkResetAndPtm
  refine ⟨fun w r f k s h => ⟨s, congrArg Host.Outcome.next (if_pos h), rfl⟩,
    fun w r f s h hw hr => ⟨_, linkRetrain_done h hw hr ⟨f, none⟩, rfl⟩,
    fun w r f k s h hw hr h0 h4 he => ⟨_, linkRetrain_done h hw hr ⟨f, some k⟩, rfl, rfl, s.link.pci.config_sets h0 h4,
      s.link.pci.config_aerStatus he, s.link.pci.config_aerFirst he⟩,
    fun w s hup hlt hle => l0pRequest_up hup hlt hle,
    fun w s hup hlt hle => l0pRequest_down hup hlt hle,
    fun w s h => l0pRequest_refused h,
    fun s => ?d3hot,
    fun s h => ⟨s, congrArg Host.Outcome.next (if_neg (Bool.eq_false_iff.1 h)), rfl⟩,
    fun s hm hd hp hc hq => d0Return_messages hm hd hp hc hq,
    fun s c b hd hp hmsg hq hne hb hh he => ?handBack,
    fun s hd => d0Return_keeps hd,
    fun href s h => perstRelease_low href h,
    fun href s hm hup => perstRelease_does href hm hup,
    fun s hm => ⟨_, rfl, rfl, State.hrefclk_leaves hm false true⟩,
    fun m s h => ideKm_down h m,
    fun s h => ⟨_, ideKm_up h .query, rfl⟩,
    fun slot key s h => ⟨_, ideKm_up h (.keyProg slot key), rfl⟩,
    fun s h => ⟨_, ideKm_up h .setGo, rfl⟩,
    fun s h => ⟨_, ideKm_up h .setStop, rfl⟩,
    fun s hm => ?perst,
    fun ok offset s h => ptmExchange_off ok offset h,
    fun offset s _ hen hup hq => ptmFailed_quiet ⟨hen.1, hen.2, hup⟩ offset hq,
    fun offset s hm hen hup hbad hl => ptmFailed_unlocks ⟨hen.1, hen.2, hup⟩ offset hm hbad hl,
    fun offset s hen hup hq hnear => ptmMeasured_still ⟨hen.1, hen.2, hup⟩ offset hq hnear,
    fun offset s hm hen hup hfar => ptmMeasured_far ⟨hen.1, hen.2, hup⟩ offset hm hfar,
    fun offset s hen hup hs hr hnear hgood => ptmMeasured_steps ⟨hen.1, hen.2, hup⟩ offset hs hr hnear hgood⟩
  case d3hot =>
    cases hp : s.link.perst with
    | true => exact ⟨s, congrArg Host.Outcome.next (if_pos hp), by simp⟩
    | false =>
      refine ⟨_, congrArg Host.Outcome.next (if_neg (Bool.eq_false_iff.1 hp)), ?_⟩
      simp [State.updLink]
  case perst =>
    have h := State.perstLow_work s
    have hring : ∀ off ∈ [Off.HIF_ASQ_BASE_LO, Off.HIF_ASQ_BASE_HI, Off.HIF_ACQ_BASE_LO, Off.HIF_ACQ_BASE_HI, Off.HIF_AQ_SIZE,
        Off.HIF_CTX_CTL], off ∈ ringOffs := by decide
    refine ⟨_, rfl, h.link, State.perstLow_ctx s, fun c off ho => State.perstLow_eff hm c (hring off ho), fun c => ?_, fun q => ?_,
      fun c => ?_, h.msiUnmasked, h.msiPend, State.perstLow_ptm hm, h.bus, h.ports, h.units, h.axes, h.tbl, h.store, h.groups, h.faults,
      h.clk, h.now, h.eng⟩
    · rw [State.perstLow_chan]
      exact (s.chan c).shut_st
    · exact ⟨congrArg (fun v : Vector EvQueue 64 => (v[q]).words) h.queues, State.perstLow_queue hm q⟩
    · rw [State.perstLow_script]
      exact (s.script c).resetHalt_st c
  case handBack =>
    have hsame := State.updChan_same s c (fun x => x.handedBack b s.now)
    refine ⟨_, d0Return_handBack hd hp hmsg hq hne hb hh he, rfl, fun d h => State.updChan_ne s (fun x => x.handedBack b s.now) h,
      congrArg ChanSt.held hsame, congrArg ChanSt.head hsame, rfl⟩

end Sys2Proof.Machine
end

section
/-! SUPPORT. O12 and O13: an instruction that an engine takes (R64, R65), and the results and flags of the arithmetic (R63, R67, R68). -/

namespace Sys2Proof.Machine

/-! ### An instruction that an engine takes -/

/-- The program that an engine runs depends on its setup alone. -/
theorem State.prog_congr {s t : State} {e : EngId} (hu : t.units = s.units) (hs : (t.eng e).setup = (s.eng e).setup) :
    t.prog e = s.prog e := by
  unfold State.prog
  simp only [hs, State.unit_congr hu]

theorem State.updEng_script (s : State) (e : EngId) (f : Eng → Eng) (c : ScriptId) : (s.updEng e f).script c = s.script c := rfl

/-- The fetched instruction of a script is used up. -/
def State.used (s : State) (e : EngId) : State :=
  if engKind e = 3 then s.updScript (scriptOf e) (fun x => { x with fetched := none }) else s

theorem State.used_frame (s : State) (e : EngId) : s.used e = { s with scripts := (s.used e).scripts } := by
  unfold State.used
  split <;> rfl

theorem State.used_eng (s : State) (e d : EngId) : (s.used e).eng d = s.eng d := by
  rw [State.used_frame]
  rfl

theorem State.used_script (s : State) (e : EngId) (c : ScriptId) :
    (s.used e).script c = if engKind e = 3 ∧ c = scriptOf e then { s.script c with fetched := none } else s.script c := by
  unfold State.used
  by_cases hk : engKind e = 3
  · by_cases hc : c = scriptOf e
    · rw [if_pos hk, if_pos ⟨hk, hc⟩, hc, State.updScript_same]
    · rw [if_pos hk, if_neg fun hx => hc hx.2, State.updScript_ne _ _ hc]
  · rw [if_neg hk, if_neg fun hx => hk hx.1]

/-- Two changes of one engine are one change. -/
theorem State.updEng_updEng (s : State) (e : EngId) (f g : Eng → Eng) : (s.updEng e f).updEng e g = s.updEng e (fun x => g (f x)) := by
  simp [State.updEng, Vector.set_set]

/-- Engine `e` is changed twice, and the word that a script fetched is used up between. -/
theorem State.onlyEng_used (s : State) (e : EngId) (f g : Eng → Eng) :
    s.OnlyEng (((s.updEng e f).used e).updEng e g) e (g (f (s.eng e))) := by
  refine ⟨?_, fun d hd => ?_, ?_, fun c => ?_⟩
  · rw [State.updEng_same, State.used_eng, State.updEng_same]
  · rw [State.updEng_ne _ g hd, State.used_eng, State.updEng_ne s f hd]
  · rw [State.used_frame]
    rfl
  · exact (s.updEng e f).used_script e c

/-- The engine at instruction `pc`. -/
def Eng.atPc (x : Eng) (pc : Nat) : Eng := { x with pc := pc % 65536 }

/-- The engine with `n` more cycles counted. -/
def Eng.paid (x : Eng) (n : Nat) : Eng := { x with cyc := x.cyc + n }

theorem Eng.went_eq (x : Eng) (pc n : Nat) : x.went pc n = (x.atPc pc).paid n := rfl

theorem State.goto_eq (s : State) (e : EngId) (pc n : Nat) : s.goto e pc n = ((s.updEng e (Eng.atPc · pc)).used e).charge e n := rfl

/-- With cycles left within the declared worst case, a charge only counts them (R83, R246). -/
theorem State.charge_within {s : State} {e : EngId} {n : Nat} (h : engKind e = 3 ∨ (s.eng e).cyc + n ≤ (s.prog e).declared) :
    s.charge e n = s.updEng e (Eng.paid · n) := by
  refine if_neg fun hx => ?_
  obtain ⟨hk, hd⟩ := hx
  rcases h with h | h
  · exact hk h
  · omega

/-- Going on at `pc` after a change of the engine that leaves its cycles and its setup: that engine alone is changed. -/
theorem State.Runs.goto {s : State} {e : EngId} {cost n : Nat} (h : s.Runs e cost) (hn : n ≤ cost) {f : Eng → Eng}
    (hcyc : (f (s.eng e)).cyc = (s.eng e).cyc) (hset : (f (s.eng e)).setup = (s.eng e).setup) (pc : Nat) :
    s.OnlyEng ((s.updEng e f).goto e pc n) e ((f (s.eng e)).went pc n) := by
  obtain ⟨-, -, hd⟩ := h
  have hx : (((s.updEng e (fun x => (f x).atPc pc)).used e).eng e) = (f (s.eng e)).atPc pc := by
    rw [State.used_eng, State.updEng_same]
  have hp : ((s.updEng e (fun x => (f x).atPc pc)).used e).prog e = s.prog e :=
    State.prog_congr (by rw [State.used_frame]; rfl) ((congrArg Eng.setup hx).trans hset)
  rw [State.goto_eq, State.updEng_updEng, State.charge_within, Eng.went_eq]
  · exact s.onlyEng_used e _ _
  · rw [hp, hx]
    refine hd.imp_right fun hd => ?_
    show (f (s.eng e)).cyc + n ≤ _
    omega

/-- An instruction with valid fields is its body with a true condition, and else only goes on, for one cycle (R64, R65). -/
theorem State.Takes.instr {s : State} {e : EngId} {cost : Nat} {u : Uses} {f : ZscFields} (h : s.Takes e cost u f) (op : Nat)
    (body : State → State) : s.instr e op u f body = if (s.eng e).condTrue f.cond then body s else s.advance e 1 := by
  obtain ⟨⟨hrun, hxfer, -⟩, hok, hcond⟩ := h
  rw [State.instr, if_neg (by simp [hrun, hxfer]), if_neg (by simpa [hok] using hcond)]
  cases (s.eng e).condTrue f.cond <;> rfl

/-- Going on to the next instruction. -/
theorem State.Runs.advance {s : State} {e : EngId} {cost c : Nat} (h : s.Runs e cost) (hc : c ≤ cost) {f : Eng → Eng}
    (hcyc : (f (s.eng e)).cyc = (s.eng e).cyc) (hset : (f (s.eng e)).setup = (s.eng e).setup)
    (hpc : (f (s.eng e)).pc = (s.eng e).pc) :
    s.OnlyEng ((s.updEng e f).advance e c) e ((f (s.eng e)).went ((s.eng e).pc + 1) c) := by
  unfold State.advance
  rw [State.updEng_same, hpc]
  exact h.goto hc hcyc hset _

/-- A false condition: the next instruction, in one cycle. -/
theorem State.Runs.skip {s : State} {e : EngId} {cost : Nat} (h : s.Runs e cost) (hc : 1 ≤ cost) :
    s.OnlyEng (s.advance e 1) e ((s.eng e).went ((s.eng e).pc + 1) 1) := by
  have hs := h.advance hc (f := id) rfl rfl rfl
  rwa [show s.updEng e id = s from s.updEng_self e] at hs

/-- An instruction that changes its engine alone: its body with a true condition, and else one cycle. -/
theorem State.Takes.onlyEng {s : State} {e : EngId} {cost op : Nat} {u : Uses} {f : ZscFields} {body : State → State} {x : Eng}
    (h : s.Takes e cost u f) (hc : 1 ≤ cost) (hb : (s.eng e).condTrue f.cond = true → s.OnlyEng (body s) e x) :
    s.OnlyEng (s.instr e op u f body) e (if (s.eng e).condTrue f.cond then x else (s.eng e).went ((s.eng e).pc + 1) 1) := by
  rw [h.instr]
  split
  · next ht => exact hb ht
  · exact h.1.skip hc

/-! ### Results and flags -/

/-- The engine with the result `r` and its flags, before it goes on (R62, R63, R67). -/
def Eng.result (x : Eng) (f : ZscFields) (r : FlagRes) : Eng :=
  let y := x.set f.rd r.r
  if f.setsFlags then { y with z := r.z, n := r.n, c := r.c, v := r.v } else y

theorem Eng.result_kept (x : Eng) (f : ZscFields) (r : FlagRes) :
    (x.result f r).cyc = x.cyc ∧ (x.result f r).setup = x.setup ∧ (x.result f r).pc = x.pc := by
  unfold Eng.result Eng.set
  split <;> split <;> exact ⟨rfl, rfl, rfl⟩

/-- An arithmetic instruction with the result `r` and the flags `c` and `v`. -/
theorem State.Takes.alu {s : State} {e : EngId} {cost op : Nat} {a : Bool} {f : ZscFields}
    (h : s.Takes e cost { rd := true, ra := a, b := true, ext := 3 } f) (hc : 1 ≤ cost) {res : Eng → Word → Word → FlagRes} {r : Word} {c v : Bool}
    (hr : res (s.eng e) ((s.eng e).get f.ra) ((s.eng e).opB f) = flagRes r c v) :
    s.OnlyEng (s.alu e op f cost a res) e ((s.eng e).took f cost r c v) := by
  have hb := h.onlyEng (op := op) (x := ((s.eng e).result f (flagRes r c v)).went ((s.eng e).pc + 1) cost) hc
    (body := fun t => (t.setRes e f.rd true f.setsFlags (res (t.eng e) ((t.eng e).get f.ra) ((t.eng e).opB f))).advance e cost) (fun _ => ?_)
  · exact hb
  · rw [hr]
    obtain ⟨hcyc, hset, hpc⟩ := (s.eng e).result_kept f (flagRes r c v)
    exact h.1.advance (f := fun x => x.result f (flagRes r c v)) (Nat.le_refl cost) hcyc hset hpc

/-- ADD and ADC. -/
theorem addRes_eq (a b : Word) (c : Bool) :
    addRes a b c = flagRes (a + b + (if c then 1 else 0)) (decide (2 ^ 32 ≤ a.toNat + b.toNat + b2n c))
      (decide (a.toInt + b.toInt + (b2n c : Int) < -(2 ^ 31) ∨ 2 ^ 31 ≤ a.toInt + b.toInt + (b2n c : Int))) := by
  have hr : BitVec.ofNat 32 (a.toNat + b.toNat + b2n c) = a + b + (if c then 1 else 0) := by
    cases c <;> simp [b2n, BitVec.ofNat_add]
  simp only [addRes, hr, Bool.decide_or]

theorem addRes_false (a b : Word) :
    addRes a b false = flagRes (a + b) (decide (2 ^ 32 ≤ a.toNat + b.toNat))
      (decide (a.toInt + b.toInt < -(2 ^ 31) ∨ 2 ^ 31 ≤ a.toInt + b.toInt)) := by
  simpa [b2n] using addRes_eq a b false

/-- SUB, SBC and CMP. -/
theorem subRes_eq (a b : Word) (c : Bool) :
    subRes a b (!c) = flagRes (a - b - (if c then 0 else 1)) (decide (b.toNat + b2n (!c) ≤ a.toNat))
      (decide (a.toInt - b.toInt - (b2n (!c) : Int) < -(2 ^ 31) ∨ 2 ^ 31 ≤ a.toInt - b.toInt - (b2n (!c) : Int))) := by
  have hr : BitVec.ofInt 32 (a.toInt - b.toInt - (b2n (!c) : Nat)) = a - b - (if c then 0 else 1) := by
    cases c <;> simp [b2n, Int.sub_eq_add_neg, BitVec.ofInt_add, BitVec.ofInt_neg, BitVec.sub_eq_add_neg]
  simp only [subRes, hr, Bool.decide_or]

theorem subRes_false (a b : Word) :
    subRes a b false = flagRes (a - b) (decide (b.toNat ≤ a.toNat))
      (decide (a.toInt - b.toInt < -(2 ^ 31) ∨ 2 ^ 31 ≤ a.toInt - b.toInt)) := by
  simpa [b2n] using subRes_eq a b true

/-- MULH: the signed product of two words fits 64 bits. -/
theorem mulhRes_eq (a b : Word) : mulhRes a b = logicRes (((a.signExtend 64 * b.signExtend 64) >>> 32).setWidth 32) := by
  have hp : (a.signExtend 64 * b.signExtend 64) = BitVec.ofInt 64 (a.toInt * b.toInt) := by
    rw [BitVec.ofInt_mul]
    rfl
  unfold mulhRes
  congr 1
  apply BitVec.eq_of_toNat_eq
  rw [hp, BitVec.toNat_ofInt, BitVec.toNat_setWidth, BitVec.toNat_ushiftRight, BitVec.toNat_ofInt, Nat.shiftRight_eq_div_pow]
  omega

/-- A word that is not greater is less or the same. -/
theorem toInt_le_iff {a b : Word} : a.toInt ≤ b.toInt ↔ a.slt b = true ∨ a = b := by
  rw [BitVec.slt_iff_toInt_lt, ← BitVec.toInt_inj]
  omega

/-- MIN: where neither word is less, they are the same. -/
theorem minRes_eq (a b : Word) : minRes a b = logicRes (if a.slt b then a else b) := by
  unfold minRes
  by_cases h : a = b
  · simp [h]
  · simp [toInt_le_iff, h]

theorem maxRes_eq (a b : Word) : maxRes a b = logicRes (if a.slt b then b else a) := by
  unfold maxRes
  by_cases h : a = b
  · simp [h]
  · simp [toInt_le_iff, h]

/-- CLZ: the search from the top bit down. -/
theorem clzGo_eq (b : Word) (n : Nat) (_ : n < 32) : BitVec.ofNat 32 (31 - n + clzGo b (n + 1)) = BitVec.clzAuxRec b n := by
  induction n with
  | zero =>
    simp only [clzGo, BitVec.clzAuxRec]
    split <;> simp
  | succ n ih =>
    rw [clzGo, BitVec.clzAuxRec, ← ih (by omega)]
    split
    · rfl
    · congr 1
      omega

theorem clzRes_eq (b : Word) : clzRes b = logicRes b.clz := by
  unfold clzRes BitVec.clz
  rw [← clzGo_eq b 31 (by decide)]
  simp

/-- Settles O12: each instruction is `State.alu` with its result and flags. -/
theorem engineArithmetic : Obligations.EngineArithmetic := by
  exact ⟨fun e f s h => ⟨_, rfl, h.alu (Nat.le_refl 1) rfl⟩, fun e f s h => ⟨_, rfl, h.alu (Nat.le_refl 1) (addRes_false _ _)⟩,
    fun e f s h => ⟨_, rfl, h.alu (Nat.le_refl 1) (addRes_eq _ _ _)⟩, fun e f s h => ⟨_, rfl, h.alu (Nat.le_refl 1) (subRes_false _ _)⟩,
    fun e f s h => ⟨_, rfl, h.alu (Nat.le_refl 1) (subRes_eq _ _ _)⟩, fun e f s h => ⟨_, rfl, h.alu (Nat.le_refl 1) rfl⟩,
    fun e f s h => ⟨_, rfl, h.alu (Nat.le_refl 1) rfl⟩, fun e f s h => ⟨_, rfl, h.alu (Nat.le_refl 1) rfl⟩⟩

/-- Settles O13. -/
theorem engineShiftsAndProducts : Obligations.EngineShiftsAndProducts := by
  exact ⟨fun e f s h => ⟨_, rfl, h.alu (Nat.le_refl 1) rfl⟩, fun e f s h => ⟨_, rfl, h.alu (Nat.le_refl 1) rfl⟩,
    fun e f s h => ⟨_, rfl, h.alu (Nat.le_refl 1) rfl⟩, fun e f s h => ⟨_, rfl, h.alu (Nat.le_succ 1) rfl⟩,
    fun e f s h => ⟨_, rfl, h.alu (Nat.le_succ 1) (mulhRes_eq _ _)⟩, fun e f s h => ⟨_, rfl, h.alu (Nat.le_refl 1) (minRes_eq _ _)⟩,
    fun e f s h => ⟨_, rfl, h.alu (Nat.le_refl 1) (maxRes_eq _ _)⟩, fun e f s h => ⟨_, rfl, h.alu (Nat.le_refl 1) rfl⟩,
    fun e f s h => ⟨_, rfl, h.alu (Nat.le_refl 1) rfl⟩, fun e f s h => ⟨_, rfl, h.alu (Nat.le_refl 1) (clzRes_eq _)⟩⟩

end Sys2Proof.Machine
end

section
/-! SUPPORT. O14: compares, LD and ST, branches and calls (R63, R68 to R70). -/

namespace Sys2Proof.Machine

/-- A compare sets the four flags and writes no register (R67, R68). -/
theorem State.Takes.compare {s : State} {e : EngId} {op : Nat} {f : ZscFields}
    (h : s.Takes e 1 { ra := true, b := true, ext := 3 } f) {res : Word → Word → FlagRes} {r : Word} {c v : Bool}
    (hr : res ((s.eng e).get f.ra) ((s.eng e).opB f) = flagRes r c v) :
    s.OnlyEng (s.compare e op f res) e (if (s.eng e).condTrue f.cond then
      { (s.eng e).went ((s.eng e).pc + 1) 1 with z := decide (r = 0), n := r.msb, c := c, v := v }
      else (s.eng e).went ((s.eng e).pc + 1) 1) := by
  refine h.onlyEng (Nat.le_refl 1) fun _ => ?_
  dsimp only
  rw [hr]
  exact h.1.advance (f := fun x => { x with z := decide (r = 0), n := r.msb, c := c, v := v }) (Nat.le_refl 1) rfl rfl rfl

/-- LD and ST reach a word of their space (R69). -/
theorem State.memAccess_reaches {s : State} {e : EngId} {op : Nat} {f : ZscFields} {store : Bool} {body : Nat → Nat → State → State}
    (hs : f.ext = 1 ∨ (f.ext = 0 ∧ engKind e ≠ 3 ∧ store = false)) (h4 : (s.eng e).addr f % 4 = 0)
    (ha : (s.eng e).addr f < if f.ext = 0 then 16384 else 1024) :
    s.memAccess e op f store body = body f.ext.toNat ((s.eng e).addr f / 4) s := by
  have hx : f.ext.toNat % 4 = f.ext.toNat ∧ ¬(2 ≤ f.ext.toNat ∨ (f.ext.toNat = 0 ∧ (engKind e = 3 ∨ store = true))) := by
    rcases hs with hs | ⟨hs, hk, hst⟩
    · rw [hs]
      exact ⟨rfl, by simp⟩
    · rw [hs]
      exact ⟨rfl, by simp [hk, hst]⟩
  obtain ⟨hmod, hspace⟩ := hx
  have hrange : ¬((s.eng e).addr f % 4 ≠ 0 ∨ (if f.ext.toNat = 0 then 16384 else 1024) ≤ (s.eng e).addr f) := by
    simpa [h4, ← BitVec.toNat_inj] using ha
  simp only [State.memAccess, hmod]
  rw [if_neg hspace, if_neg hrange]

/-- LD of a word that it reaches (R69). -/
theorem State.Takes.ld {s : State} {e : EngId} {f : ZscFields} (h : s.Takes e 2 { rd := true, ra := true, imm := true, ext := 3 } f)
    (hs : f.ext = 1 ∨ (f.ext = 0 ∧ engKind e ≠ 3)) (h4 : (s.eng e).addr f % 4 = 0)
    (ha : (s.eng e).addr f < if f.ext = 0 then 16384 else 1024) :
    Does (.ld e f) s (fun t => s.OnlyEng t e (if (s.eng e).condTrue f.cond then
      ((s.eng e).set f.rd (if f.ext = 0 then (s.eng e).paramWord (s.eng e).setup ((s.eng e).addr f / 4)
        else (s.eng e).scratchWord ((s.eng e).addr f / 4))).went ((s.eng e).pc + 1) 2
      else (s.eng e).went ((s.eng e).pc + 1) 1)) := by
  refine ⟨_, rfl, h.onlyEng (Nat.le_succ 1) fun _ => ?_⟩
  rw [State.memAccess_reaches (hs.imp_right fun hs => ⟨hs.1, hs.2, rfl⟩) h4 ha]
  simp only [show f.ext = 0 ↔ f.ext.toNat = 0 from BitVec.toNat_inj.symm]
  generalize (if f.ext.toNat = 0 then _ else _ : Word) = w
  refine h.1.advance (f := fun x => x.set f.rd w) (Nat.le_refl 2) ?_ ?_ ?_ <;> unfold Eng.set <;> split <;> rfl

/-- ST of a word of scratch memory that it reaches (R69). -/
theorem State.Takes.st {s : State} {e : EngId} {f : ZscFields} (hm : mwf (fun _ => 0) (s.eng e).scratch = true)
    (h : s.Takes e 1 { ra := true, rb := true, imm := true, ext := 3 } f)
    (hs : f.ext = 1) (h4 : (s.eng e).addr f % 4 = 0) (ha : (s.eng e).addr f < 1024) :
    Does (.st e f) s (fun t => if (s.eng e).condTrue f.cond then
      s.OnlyEng t e { (s.eng e).went ((s.eng e).pc + 1) 1 with scratch := (t.eng e).scratch } ∧
      (t.eng e).scratchWord ((s.eng e).addr f / 4) = (s.eng e).get f.rb ∧
      (∀ i < 256, i ≠ (s.eng e).addr f / 4 → (t.eng e).scratchWord i = (s.eng e).scratchWord i)
      else s.OnlyEng t e ((s.eng e).went ((s.eng e).pc + 1) 1)) := by
  refine ⟨_, rfl, ?_⟩
  rw [h.instr]
  split
  · rw [State.memAccess_reaches (.inl hs) h4 (by simpa [hs] using ha)]
    have ho := h.1.advance (f := fun x => { x with scratch := mput (fun _ => 0) ((s.eng e).addr f / 4) (x.get f.rb) x.scratch })
      (Nat.le_refl 1) rfl rfl rfl
    have hsc := congrArg Eng.scratch ho.1
    refine ⟨?_, ?_, fun i _ hi => ?_⟩
    · rw [hsc]
      exact ho
    · unfold Eng.scratchWord
      rw [hsc]
      exact (mget_mput hm).trans (if_pos rfl)
    · unfold Eng.scratchWord
      rw [hsc]
      exact (mget_mput hm).trans (if_neg hi)
  · exact h.1.skip (Nat.le_refl 1)

/-- A branch within the program (R70). -/
theorem State.Runs.branch {s : State} {e : EngId} (h : s.Runs e 2) {pc : Nat} (hp : engKind e = 3 → pc % 65536 < s.scriptLen e) :
    s.OnlyEng (s.branch e (pc % 65536)) e ((s.eng e).went pc 2) := by
  have hg := h.goto (Nat.le_refl 2) (f := id) rfl rfl (pc % 65536)
  rw [show s.updEng e id = s from s.updEng_self e] at hg
  unfold State.branch
  rw [if_neg fun hx => absurd (hp hx.1) (Nat.not_lt.2 hx.2)]
  simpa [Eng.went] using hg

/-- A call within the program, with room on the link stack (R70). -/
theorem State.Runs.call {s : State} {e : EngId} (h : s.Runs e 2) {pc : Nat} (hp : engKind e = 3 → pc % 65536 < s.scriptLen e)
    (hl : (s.eng e).link.length < 4) :
    s.OnlyEng (s.call e (pc % 65536)) e { (s.eng e).went pc 2 with link := (((s.eng e).pc + 1) % 65536) :: (s.eng e).link } := by
  have hg := h.goto (Nat.le_refl 2) (f := fun y => { y with link := ((y.pc + 1) % 65536) :: y.link }) rfl rfl (pc % 65536)
  unfold State.call
  rw [if_neg (Nat.not_le.2 hl), if_neg fun hx => absurd (hp hx.1) (Nat.not_lt.2 hx.2)]
  simpa [Eng.went] using hg

/-- RET to an instruction within the program (R70). -/
theorem State.Takes.ret {s : State} {e : EngId} {f : ZscFields} {pc : Nat} {rest : List Nat} (h : s.Takes e 2 {} f)
    (hl : (s.eng e).link = pc :: rest) (hp : engKind e = 3 → pc < s.scriptLen e) :
    Does (.ret e f) s (fun t => s.OnlyEng t e (if (s.eng e).condTrue f.cond then { (s.eng e).went pc 2 with link := rest }
      else (s.eng e).went ((s.eng e).pc + 1) 1)) := by
  refine ⟨_, rfl, h.onlyEng (Nat.le_succ 1) fun _ => ?_⟩
  simp only [hl]
  rw [if_neg fun hx => absurd (hp hx.1) (Nat.not_lt.2 hx.2)]
  exact h.1.goto (f := fun x => { x with link := rest }) (Nat.le_refl 2) rfl rfl pc

/-- Settles O14. -/
theorem engineTestsMemoryAndJumps : Obligations.EngineTestsMemoryAndJumps :=
  ⟨fun _ _ _ h => ⟨_, rfl, h.compare (subRes_false _ _)⟩,
    fun _ _ _ h => ⟨_, rfl, h.compare rfl⟩,
    fun _ _ _ h hs h4 ha => h.ld hs h4 ha,
    fun _ _ _ hm h hs h4 ha => h.st hm hs h4 ha,
    fun _ _ _ h hp => ⟨_, rfl, h.onlyEng (Nat.le_succ 1) fun _ => h.1.branch hp⟩,
    fun _ _ _ h hp => ⟨_, rfl, h.onlyEng (Nat.le_succ 1) fun _ => h.1.branch hp⟩,
    fun _ _ _ h hp hl => ⟨_, rfl, h.onlyEng (Nat.le_succ 1) fun _ => h.1.call hp hl⟩,
    fun _ _ _ h hp hl => ⟨_, rfl, h.onlyEng (Nat.le_succ 1) fun _ => h.1.call hp hl⟩,
    fun _ _ _ _ _ h hl hp => h.ret hl hp⟩

end Sys2Proof.Machine
end

section
/-! SUPPORT. What the change of a unit's state cannot change: engines, faults, scripts, channels, contexts and the time (R375). -/

namespace Sys2Proof.Machine

/-- `s` with the parts of `a` that a change of a unit's state can change. -/
def State.withUnits (s a : State) : State :=
  { s with regs := a.regs, raised := a.raised, pend := a.pend, aux := a.aux, jrnl := a.jrnl, units := a.units, groups := a.groups, ports := a.ports }

/-- From `s` to `t` nothing changes but what the change of a unit's state can change. -/
def State.MovesUnits (s t : State) : Prop := t = s.withUnits t

theorem State.MovesUnits.refl (s : State) : s.MovesUnits s := rfl

theorem State.MovesUnits.trans {s t r : State} (h : s.MovesUnits t) (k : t.MovesUnits r) : s.MovesUnits r :=
  Eq.trans k (congrArg (fun x : State => x.withUnits r) (h : t = s.withUnits t) :)

/-- A step whose equation `t = a` says what it changes. -/
theorem State.MovesUnits.of_eq {s t a : State} (h : t = a) (ha : a = s.withUnits a) : s.MovesUnits t := h ▸ ha

theorem State.MovesUnits.ite {s t r : State} {c : Prop} [Decidable c] (h : s.MovesUnits t) (k : s.MovesUnits r) :
    s.MovesUnits (if c then t else r) := by
  split
  · exact h
  · exact k

theorem State.MovesUnits.foldl {α : Type} {f : State → α → State} (h : ∀ (t : State) (a : α), t.MovesUnits (f t a)) (l : List α) (s : State) :
    s.MovesUnits (l.foldl f s) := by
  induction l generalizing s with
  | nil => exact .refl s
  | cons a l ih => exact (h s a).trans (ih (f s a))

section
variable {s t : State} (h : s.MovesUnits t)
include h

theorem State.MovesUnits.engs : t.engs = s.engs := (congrArg State.engs (h : t = s.withUnits t) :)
theorem State.MovesUnits.faults : t.faults = s.faults := (congrArg State.faults (h : t = s.withUnits t) :)
theorem State.MovesUnits.scripts : t.scripts = s.scripts := (congrArg State.scripts (h : t = s.withUnits t) :)
theorem State.MovesUnits.axes : t.axes = s.axes := (congrArg State.axes (h : t = s.withUnits t) :)
theorem State.MovesUnits.now : t.now = s.now := (congrArg State.now (h : t = s.withUnits t) :)

end

theorem State.eng_congr {s t : State} (h : t.engs = s.engs) (e : EngId) : t.eng e = s.eng e := congrArg (·[e]) h

theorem State.script_congr {s t : State} (h : t.scripts = s.scripts) (c : ScriptId) : t.script c = s.script c := congrArg (·[c]) h

theorem State.updUnit_movesUnits (s : State) (u : UnitId) (f : UnitSt → UnitSt) : s.MovesUnits (s.updUnit u f) := rfl

theorem State.updGroup_movesUnits (s : State) (g : GroupId) (f : Group → Group) : s.MovesUnits (s.updGroup g f) := rfl

theorem State.updPort_movesUnits (s : State) (p : PortId) (f : PortSt → PortSt) : s.MovesUnits (s.updPort p f) := rfl

theorem State.setRf_movesUnits (s : State) (n off hi lo v : Nat) : s.MovesUnits (s.setRf n off hi lo v) := rfl

theorem State.cutStarted_movesUnits (s : State) (u : UnitId) : s.MovesUnits (s.cutStarted u) := rfl

theorem State.cutDone_movesUnits (s : State) (g : Nat) (u : UnitId) : s.MovesUnits (s.cutDone g u) := rfl

theorem State.idleOuts_movesUnits (s : State) (p : PortId) : s.MovesUnits (s.idleOuts p) := rfl

theorem State.swapOne_movesUnits (s : State) (p : PortId) (i : Fin 16) : s.MovesUnits (s.swapOne p i) := rfl

theorem State.raise_movesUnits (s : State) (src : Nat) (items : List (Nat × Nat)) : s.MovesUnits (s.raise src items) :=
  .of_eq (State.raise_frame s src items) rfl

theorem State.trySwap_movesUnits (s : State) (p : PortId) (i : Fin 16) (now : Bool) : s.MovesUnits (s.trySwap p i now) := by
  unfold State.trySwap
  exact .ite (.refl s) (.ite (.ite ((s.swapOne_movesUnits p i).trans (State.swapOne_movesUnits _ p _)) (.refl s)) (s.swapOne_movesUnits p i))

theorem State.trySwaps_movesUnits (s : State) (p : PortId) : s.MovesUnits ((List.finRange 16).foldl (fun t i => t.trySwap p i false) s) :=
  .foldl (fun t i => t.trySwap_movesUnits p i false) _ s

theorem State.abortCap_movesUnits (s : State) (p : PortId) (cause : Nat) : s.MovesUnits (s.abortCap p cause) := by
  unfold State.abortCap
  exact .ite (((s.updPort_movesUnits p _).trans (State.setRf_movesUnits _ _ _ _ _ _)).trans (State.raise_movesUnits _ _ _)) (.refl s)

theorem State.leaveWork_movesUnits (s : State) (u : UnitId) (new : UState) : s.MovesUnits (s.leaveWork u new) := by
  unfold State.leaveWork State.leaveSwaps State.leaveCap State.edgeOuts
  by_cases hu : u.val < 16
  · simp only [dif_pos hu]
    exact (State.MovesUnits.ite (s.trySwaps_movesUnits _) (.refl s)).trans
      ((State.MovesUnits.ite (State.abortCap_movesUnits _ _ 1) (.refl _)).trans (.ite (State.idleOuts_movesUnits _ _) (.refl _)))
  · simp only [dif_neg hu]
    exact .refl s

theorem State.moveState_movesUnits (s : State) (u : UnitId) (new : UState) (cause : Nat) : s.MovesUnits (s.moveState u new cause) :=
  .of_eq (State.moveState_frame s u new cause) rfl

theorem State.putBack_movesUnits (s : State) (u : UnitId) : s.MovesUnits (s.putBack u) := .of_eq (State.putBack_frame s u) rfl

theorem State.stageCut_movesUnits (s : State) (u : UnitId) (k : Nat) : s.MovesUnits (s.stageCut u k) := .of_eq (State.stageCut_frame s u k) rfl

theorem State.takeIdle_movesUnits (s : State) (u : UnitId) : s.MovesUnits (s.takeIdle u) := by
  unfold State.takeIdle
  split
  · exact .refl s
  · next c _ =>
    have hs := (State.MovesUnits.ite (c := (s.unit u).st = .draining ∨ (s.unit u).st = .wedged ∨ (s.unit u).st = .faulted)
      (s.stageCut_movesUnits u c.slot) (.refl s)).trans
      (State.updUnit_movesUnits _ u fun x => ({ x with cut := none, committed := some c.slot }).unarmed.sync)
    exact .ite (hs.trans (State.moveState_movesUnits _ u _ 3)) hs

/-- The change of state itself is `leaveWork` and `turn`; what remains concerns a cut. -/
theorem State.setUState_eq (s : State) (u : UnitId) (new : UState) (cause : Nat) :
    s.setUState u new cause =
      let s1 := (s.leaveWork u new).turn u new cause
      match (s1.unit u).cut with
      | some c => if c.reached && new ≠ .running && new ≠ .faulted then ((s1.takeIdle u).cutDone c.group u).cutStarted u else s1
      | none => if new = .running ∨ new = .draining ∨ new = .faulted then s1 else s1.cutStarted u := rfl

theorem State.turn_movesUnits (s : State) (u : UnitId) (new : UState) (cause : Nat) : s.MovesUnits (s.turn u new cause) :=
  .ite ((s.moveState_movesUnits u new cause).trans (State.putBack_movesUnits _ u)) (s.moveState_movesUnits u new cause)

theorem State.setUState_movesUnits (s : State) (u : UnitId) (new : UState) (cause : Nat) : s.MovesUnits (s.setUState u new cause) := by
  have h := (s.leaveWork_movesUnits u new).trans (State.turn_movesUnits _ u new cause)
  rw [State.setUState_eq]
  dsimp only
  split
  · exact .ite (((h.trans (State.takeIdle_movesUnits _ u)).trans (State.cutDone_movesUnits _ _ u)).trans (State.cutStarted_movesUnits _ u)) h
  · exact .ite h (h.trans (State.cutStarted_movesUnits _ u))

/-- A unit that becomes FAULTED takes no cut by it. -/
theorem State.setUState_faulted (s : State) (u : UnitId) (cause : Nat) :
    s.setUState u .faulted cause = (s.leaveWork u .faulted).turn u .faulted cause := by
  rw [State.setUState_eq]
  dsimp only
  split <;> simp

theorem State.setUState_faulted_same (s : State) (u : UnitId) (cause : Nat) :
    (s.setUState u .faulted cause).unit u = (s.unit u).moved .faulted := by
  rw [State.setUState_faulted, State.turn_unit_same, State.unit_congr (s.leaveWork_units u .faulted)]
  rfl

theorem State.unarmUnit_movesUnits (s : State) (u : UnitId) : s.MovesUnits (s.unarmUnit u) := by
  have h := s.updUnit_movesUnits u (fun x => ({ x with cut := none }).unarmed.sync)
  unfold State.unarmUnit
  dsimp only
  split
  · exact h.trans (State.setUState_movesUnits _ u _ 3)
  · exact h

theorem State.disarm_movesUnits (s : State) (g : GroupId) : s.MovesUnits (s.disarm g) :=
  (s.updGroup_movesUnits g (fun x => { x with armed := none, left := [] })).trans
    (.foldl (fun t u => .ite (t.unarmUnit_movesUnits u) (.refl t)) _ _)

theorem State.dropCut_movesUnits (s : State) (p : PortId) (g : GroupId) : s.MovesUnits (s.dropCut p g) := by
  unfold State.dropCut
  split
  · exact .ite ((s.disarm_movesUnits g).trans (State.raise_movesUnits _ _ _)) (.refl s)
  · exact .refl s

theorem State.dropCuts_movesUnits (s : State) (p : PortId) : s.MovesUnits (s.dropCuts p) :=
  .foldl (fun t g => t.dropCut_movesUnits p g) _ s

theorem State.setPortState_movesUnits (s : State) (p : PortId) (new : UState) (cause : Nat) : s.MovesUnits (s.setPortState p new cause) := by
  have h := s.setUState_movesUnits (unitOfPort p) new cause
  have hd := h.trans (State.dropCuts_movesUnits _ p)
  cases new with
  | draining => exact hd
  | halted => exact hd
  | wedged => exact hd
  | off => exact hd
  | loaded => exact h
  | armed => exact h
  | running => exact h
  | faulted => exact h

/-! ### A detected fault (R379, R381) -/

/-- The fault as it is recorded: with the time of its detection. -/
def State.timed (s : State) (f : FaultRec) : FaultRec := { f with time := s.now }

/-- The faults after fault `f` was detected. -/
def State.faultsWith (s : State) (f : FaultRec) : List FaultRec :=
  if s.joins f then joinFault (s.timed f) s.faults else s.faults ++ [s.timed f]

theorem State.faultOuts_movesUnits (s : State) (f : FaultRec) : s.MovesUnits (s.faultOuts f) :=
  .ite ((State.MovesUnits.ite (s.trySwaps_movesUnits _) (.refl s)).trans (State.idleOuts_movesUnits _ _)) (.refl s)

theorem State.faultOuts_units (s : State) (f : FaultRec) : (s.faultOuts f).units = s.units := by
  unfold State.faultOuts
  split_ifs
  · dsimp only
    split_ifs
    · exact State.foldl_units (fun t i => t.trySwap_units _ i false) _ s
    · rfl
  · rfl

/-- Fault `f` recorded, before its unit is moved. -/
def State.recorded (s : State) (f : FaultRec) : State := { s.faultOuts (s.timed f) with faults := s.faultsWith f }

theorem State.recorded_movesUnits (s : State) (f : FaultRec) : { s with faults := s.faultsWith f }.MovesUnits (s.recorded f) :=
  (congrArg (fun t : State => { t with faults := s.faultsWith f }) (s.faultOuts_movesUnits (s.timed f) : _ = s.withUnits _) :)

theorem State.recorded_unit (s : State) (f : FaultRec) (u : UnitId) : (s.recorded f).unit u = s.unit u :=
  State.unit_congr (s.faultOuts_units (s.timed f)) u

/-- `detect`: the fault is recorded and then its unit moved. -/
theorem State.detect_eq (s : State) (f : FaultRec) :
    s.detect f =
      if (f.kind = 1 ∨ f.kind = 2) ∧ ¬((s.unit f.uid).st = .off ∨ (s.unit f.uid).st = .faulted) then
        ((s.recorded f).updUnit f.uid (fun y => { y with back := (s.unit f.uid).st, prior := (if (s.unit f.uid).st = .wedged then y.prior
          else (s.unit f.uid).st) })).setUState f.uid .faulted 8
      else s.recorded f := by
  rw [State.recorded, State.faultsWith, ← (s.faultOuts_movesUnits (s.timed f)).faults]
  rfl

/-- Besides what the change of a unit's state can change, only the fault is new. -/
theorem State.detect_movesUnits (s : State) (f : FaultRec) :
    { s with faults := s.faultsWith f }.MovesUnits (s.detect f) := by
  have h := s.recorded_movesUnits f
  rw [State.detect_eq]
  exact .ite ((h.trans (State.updUnit_movesUnits _ _ _)).trans (State.setUState_movesUnits _ _ _ _)) h

theorem State.detect_faults (s : State) (f : FaultRec) : (s.detect f).faults = s.faultsWith f := (s.detect_movesUnits f).faults

theorem State.detect_engs (s : State) (f : FaultRec) : (s.detect f).engs = s.engs := (s.detect_movesUnits f).engs

theorem State.detect_scripts (s : State) (f : FaultRec) : (s.detect f).scripts = s.scripts := (s.detect_movesUnits f).scripts

/-- The unit of a fault of a port or an axis is FAULTED, unless it is OFF. -/
theorem State.detect_st (s : State) {f : FaultRec} (hk : f.kind = 1 ∨ f.kind = 2) :
    ((s.detect f).unit f.uid).st = if (s.unit f.uid).st = .off then .off else .faulted := by
  rw [State.detect_eq]
  by_cases hst : (s.unit f.uid).st = .off ∨ (s.unit f.uid).st = .faulted
  · rw [if_neg fun h => h.2 hst, State.recorded_unit]
    rcases hst with hst | hst <;> simp [hst]
  · rw [if_pos ⟨hk, hst⟩, State.setUState_faulted_same, if_neg fun h => hst (.inl h)]
    rfl

theorem State.detect_units_of_script (s : State) {f : FaultRec} (hk : f.kind = 5) : (s.detect f).units = s.units := by
  rw [State.detect_eq, if_neg (by simp [hk])]
  exact s.faultOuts_units _

end Sys2Proof.Machine
end

section
/-! SUPPORT. O15: loops, the end of a tick, RAISE, RDS, HALT and traps (R71 to R75). -/

namespace Sys2Proof.Machine

/-! ### Traps -/

theorem scriptEng_scriptOf {e : EngId} (h : engKind e = 3) : scriptEng (scriptOf e) = e := by
  have := e.isLt
  apply Fin.ext
  unfold engKind at h
  simp only [scriptEng, scriptOf]
  split_ifs at h <;> omega

theorem scriptOf_scriptEng (c : ScriptId) : scriptOf (scriptEng c) = c := by
  apply Fin.ext
  simp only [scriptEng, scriptOf]
  omega

theorem engKind_scriptEng (c : ScriptId) : engKind (scriptEng c) = 3 := by
  unfold engKind scriptEng
  simp only
  split_ifs <;> omega

theorem State.scriptStop_units (s : State) (c : ScriptId) (st : ScState) (cause : Nat) : (s.scriptStop c st cause).units = s.units := by
  unfold State.scriptStop
  rw [State.journalXfer_frame]
  rfl

theorem State.scriptStop_faults (s : State) (c : ScriptId) (st : ScState) (cause : Nat) : (s.scriptStop c st cause).faults = s.faults := by
  unfold State.scriptStop
  rw [State.journalXfer_frame]
  rfl

theorem State.scriptStop_now (s : State) (c : ScriptId) (st : ScState) (cause : Nat) : (s.scriptStop c st cause).now = s.now := by
  unfold State.scriptStop
  rw [State.journalXfer_frame]
  rfl

theorem State.scriptStop_script_same (s : State) (c : ScriptId) (st : ScState) (cause : Nat) :
    (s.scriptStop c st cause).script c = (s.script c).stopped st cause :=
  (s.scriptStop_leaves c st cause).2.2.2.2.1

theorem State.scriptStop_script_ne (s : State) {c d : ScriptId} (h : d ≠ c) (st : ScState) (cause : Nat) :
    (s.scriptStop c st cause).script d = s.script d :=
  (s.scriptStop_leaves c st cause).2.2.2.2.2 d h

theorem State.scriptStop_eng_same (s : State) (c : ScriptId) (st : ScState) (cause : Nat) :
    (s.scriptStop c st cause).eng (scriptEng c) =
      { s.eng (scriptEng c) with run := if (s.eng (scriptEng c)).run = .trapped then .trapped else .halted } := by
  unfold State.scriptStop
  rw [State.updEng_same, State.journalXfer_frame]
  rfl

theorem State.scriptStop_eng_ne (s : State) {c : ScriptId} {d : EngId} (h : d ≠ scriptEng c) (st : ScState) (cause : Nat) :
    (s.scriptStop c st cause).eng d = s.eng d := by
  unfold State.scriptStop
  rw [State.updEng_ne _ _ h, State.journalXfer_frame]
  rfl

theorem State.faultsWith_congr {s t : State} (hf : t.faults = s.faults) (hu : t.units = s.units) (hn : t.now = s.now) (f : FaultRec) :
    t.faultsWith f = s.faultsWith f := by
  have hj : t.joins f = s.joins f := by
    unfold State.joins
    rw [State.unit_congr hu]
  have ht : t.timed f = s.timed f := by rw [State.timed, hn, State.timed]
  rw [State.faultsWith, hf, hj, ht, State.faultsWith]

/-- The fault record of a trap of engine `e` (R76, R379). -/
def trapFault (e : EngId) (code : Nat) : FaultRec :=
  if engKind e = 3 then { kind := 5, unit := (scriptOf e).val, code := 7, arg := e.val, arg2 := code, time := 0 }
  else { kind := if engKind e = 2 then 2 else 1, unit := engIndex e, code := 7, arg := e.val, arg2 := code, time := 0 }

/-- The unit of the fault is that of the engine. -/
theorem trapFault_uid {e : EngId} (h : engKind e ≠ 3) (code : Nat) : (trapFault e code).uid = engUnit e := by
  have := e.isLt
  rw [trapFault, if_neg h]
  apply Fin.ext
  unfold FaultRec.uid Machine.uid engUnit engIndex
  by_cases h32 : e.val < 32
  · have h2 : engKind e ≠ 2 := by unfold engKind; split_ifs <;> omega
    simp only [h2, h32, if_true, if_false]
    omega
  · have h2 : engKind e = 2 := by unfold engKind at h ⊢; split_ifs at h ⊢ <;> omega
    have h40 : e.val < 40 := by unfold engKind at h2; split_ifs at h2 <;> omega
    simp only [h2, h32, h40, if_true, if_false, show ¬(2 = 1) by decide]
    omega

/-- The engine stopped at the instruction (R75). -/
def Eng.trappedBy (x : Eng) (code arg : Nat) : Eng :=
  { x with run := .trapped, trapped := some (code, x.pc), trapArg := BitVec.ofNat 32 arg }

/-- A trap of a port's or an axis's engine. -/
theorem State.trap_unit {e : EngId} (hk : engKind e ≠ 3) (s : State) (code arg : Nat) :
    s.trap e code arg = ((s.updEng e (Eng.trappedBy · code arg)).raise (trapSrc e) [(16, code), (16, (s.eng e).pc)]).detect (trapFault e code) := by
  rw [trapFault, if_neg hk]
  exact if_neg hk

/-- A trap of a script. -/
theorem State.trap_script {e : EngId} (hk : engKind e = 3) (s : State) (code arg : Nat) :
    s.trap e code arg =
      (((s.updEng e (Eng.trappedBy · code arg)).scriptStop (scriptOf e) .faulted 2).raise (trapSrc e) [(8, 2), (16, (s.eng e).pc)]).detect
        (trapFault e code) := by
  rw [trapFault, if_pos hk]
  exact if_pos hk

/-- The fault that a state with the faults, units and time of `s` records for a trap. -/
theorem State.trap_faults {s t : State} (hf : t.faults = s.faults) (hu : t.units = s.units) (hn : t.now = s.now) (e : EngId) (code : Nat) :
    ∃ f, (t.detect (trapFault e code)).faults = (if s.joins f then joinFault f s.faults else s.faults ++ [f]) ∧
      f.code = 7 ∧ f.arg = e.val ∧ f.arg2 = code ∧ f.time = s.now := by
  refine ⟨s.timed (trapFault e code), (t.detect_faults _).trans (State.faultsWith_congr hf hu hn _), ?_⟩
  unfold State.timed trapFault
  split_ifs <;> exact ⟨rfl, rfl, rfl, rfl⟩

theorem State.updEng_detect_eng {s t : State} {e : EngId} {x : Eng} (hs : t.eng e = x) (hne : ∀ d : EngId, d ≠ e → t.eng d = s.eng d)
    (src : Nat) (items : List (Nat × Nat)) (f : FaultRec) :
    (((t.raise src items).detect f).eng e = x) ∧ ∀ d : EngId, d ≠ e → ((t.raise src items).detect f).eng d = s.eng d := by
  have h (d : EngId) : ((t.raise src items).detect f).eng d = t.eng d :=
    State.eng_congr ((State.detect_engs _ f).trans (t.raise_movesUnits src items).engs) d
  exact ⟨(h e).trans hs, fun d hd => (h d).trans (hne d hd)⟩

theorem State.trap_trapped (s : State) (e : EngId) (code arg : Nat) : s.Trapped (s.trap e code arg) e code arg := by
  have hsame : (s.updEng e (Eng.trappedBy · code arg)).eng e = (s.eng e).trappedBy code arg := State.updEng_same s e _
  have hne (d : EngId) (hd : d ≠ e) : (s.updEng e (Eng.trappedBy · code arg)).eng d = s.eng d := State.updEng_ne s _ hd
  by_cases hk : engKind e = 3
  · have hsc := scriptEng_scriptOf hk
    rw [State.trap_script hk]
    set u := s.updEng e (Eng.trappedBy · code arg) with hu
    have hstop : (u.scriptStop (scriptOf e) .faulted 2).eng e = (s.eng e).trappedBy code arg := by
      have h := u.scriptStop_eng_same (scriptOf e) .faulted 2
      rw [hsc, hsame] at h
      exact h
    obtain ⟨heng, hothers⟩ := State.updEng_detect_eng (s := s) (e := e) hstop
      (fun d hd => (u.scriptStop_eng_ne (by rwa [hsc]) .faulted 2).trans (hne d hd)) (trapSrc e) [(8, 2), (16, (s.eng e).pc)] (trapFault e code)
    have hscripts := (State.detect_scripts ((u.scriptStop (scriptOf e) .faulted 2).raise (trapSrc e) [(8, 2), (16, (s.eng e).pc)])
      (trapFault e code)).trans (State.raise_scripts _ _ _)
    have hscript := (State.script_congr hscripts (scriptOf e)).trans (u.scriptStop_script_same (scriptOf e) .faulted 2)
    refine ⟨heng, hothers, State.trap_faults ?_ ?_ ?_ e code, ?_⟩
    · exact ((State.raise_movesUnits _ _ _).faults).trans (u.scriptStop_faults _ _ _)
    · exact (State.raise_units _ _ _).trans (u.scriptStop_units _ _ _)
    · exact (State.raise_now _ _ _).trans (u.scriptStop_now _ _ _)
    · rw [if_pos hk, hscript]
      exact ⟨rfl, rfl, (State.detect_units_of_script _ (by rw [trapFault, if_pos hk])).trans
        ((State.raise_units _ _ _).trans (u.scriptStop_units _ _ _))⟩
  · rw [State.trap_unit hk]
    obtain ⟨heng, hothers⟩ := State.updEng_detect_eng (s := s) (e := e) hsame hne (trapSrc e) [(16, code), (16, (s.eng e).pc)] (trapFault e code)
    refine ⟨heng, hothers, State.trap_faults ?_ ?_ ?_ e code, ?_⟩
    · exact (State.raise_movesUnits _ _ _).faults
    · exact State.raise_units _ _ _
    · exact State.raise_now _ _ _
    · have hst := State.detect_st ((s.updEng e (Eng.trappedBy · code arg)).raise (trapSrc e) [(16, code), (16, (s.eng e).pc)])
        (f := trapFault e code) (by rw [trapFault, if_neg hk]; dsimp only; split_ifs <;> simp)
      rw [trapFault_uid hk, State.unit_congr (State.raise_units _ _ _)] at hst
      rw [if_neg hk]
      exact hst

/-! ### Raisings that are counted -/

/-- A value that is not the default is read back, whatever the list. -/
theorem mget_mput_of_ne {α : Type} [DecidableEq α] {d : Nat → α} {k : Nat} {v : α} (hv : v ≠ d k) (m : List (Nat × α)) :
    mget d (mput d k v m) k = v := by
  induction m with
  | nil => simp [mput, mget, hv]
  | cons y m ih =>
    unfold mput
    split_ifs with hlt heq
    · simp [mget]
    · simp [mget]
    · rw [mget, if_neg fun h => heq h.symm]
      exact ih

/-- A raising is counted once (R359), whatever the maps. -/
theorem State.raise_counted (s : State) {src : Nat} (items : List (Nat × Nat)) (hs : src ≠ auxSrc 40) :
    (s.raise src items).raisings src = s.raisings src + 1 := by
  have hone : (s.raiseOne src items).raisings src = s.raisings src + 1 := by
    unfold State.raiseOne State.raisings
    split <;> exact mget_mput_of_ne (Nat.succ_ne_zero _) s.raised
  unfold State.raise
  rw [State.foldl_raisings, hone]
  intro t n
  split
  · exact State.injRequest_raisings_ne t n hs
  · rfl

end Sys2Proof.Machine
end

section
/-! SUPPORT. O15: loops, the end of a tick, RAISE, RDS and HALT (R61, R71 to R75). -/

namespace Sys2Proof.Machine

/-! ### Loops, TEND and RDS -/

/-- A further change of the one engine that changed. -/
theorem State.OnlyEng.updEng {s t : State} {e : EngId} {x : Eng} (h : s.OnlyEng t e x) (g : Eng → Eng) : s.OnlyEng (t.updEng e g) e (g x) := by
  obtain ⟨hsame, hne, hframe, hscripts⟩ := h
  exact ⟨by rw [State.updEng_same, hsame], fun d hd => (State.updEng_ne t g hd).trans (hne d hd),
    (congrArg (fun w : State => { w with engs := (t.updEng e g).engs }) hframe :), hscripts⟩

theorem condTrue_always (x : Eng) : x.condTrue 0 = true := rfl

/-- LSET of a count within its bound, and LEND, name a counter and carry condition AL. -/
theorem loopFieldsOk_of {f : ZscFields} (hc : f.cond = 0) (hrd : f.rd.toNat < 4) : (!loopFieldsOk f) = false := by
  simp [loopFieldsOk, hc, hrd]

theorem State.Takes.lset {s : State} {e : EngId} {f : ZscFields} (h : s.Takes e 2 { rd := true, ra := !f.isImm, imm := true, ext := 1 } f)
    (hc : f.cond = 0) (hrd : f.rd.toNat < 4) (hb : f.isImm = false → ((s.eng e).get f.ra).toNat ≤ f.imm.toNat % 65536)
    (hp : engKind e = 3 → (f.imm.toNat / 65536 + 1) % 65536 < s.scriptLen e) :
    Does (.lset e f) s (fun t =>
      let n := if f.isImm then f.imm.toNat % 65536 else ((s.eng e).get f.ra).toNat
      s.OnlyEng t e (if n = 0 then (s.eng e).went (f.imm.toNat / 65536 + 1) 2
        else ((s.eng e).setLc f.rd.toNat n).went ((s.eng e).pc + 1) 1)) := by
  refine ⟨_, rfl, ?_⟩
  rw [h.instr, hc, condTrue_always, if_pos rfl, loopFieldsOk_of hc hrd, if_neg Bool.false_ne_true]
  dsimp only
  generalize hn : (if f.isImm = true then f.imm.toNat % 65536 else ((s.eng e).get f.ra).toNat) = n
  have hle : ¬((!f.isImm && decide (f.imm.toNat % 65536 < n)) = true) := by
    cases hi : f.isImm <;> simp_all
  rw [if_neg hle]
  split
  · exact h.1.branch hp
  · exact h.1.advance (f := fun x => x.setLc f.rd.toNat n) (Nat.le_succ 1) rfl rfl rfl

theorem State.Takes.lend {s : State} {e : EngId} {f : ZscFields} (h : s.Takes e 2 { rd := true, imm := true } f)
    (hc : f.cond = 0) (hrd : f.rd.toNat < 4) (hp : engKind e = 3 → f.imm.toNat % 65536 < s.scriptLen e) :
    Does (.lend e f) s (fun t =>
      let n := ((s.eng e).getLc f.rd.toNat + 65535) % 65536
      s.OnlyEng t e (if n = 0 then ((s.eng e).setLc f.rd.toNat 0).went ((s.eng e).pc + 1) 1
        else ((s.eng e).setLc f.rd.toNat n).went f.imm.toNat 2)) := by
  refine ⟨_, rfl, ?_⟩
  rw [h.instr, hc, condTrue_always, if_pos rfl, loopFieldsOk_of hc hrd, if_neg Bool.false_ne_true]
  dsimp only
  generalize ((s.eng e).getLc f.rd.toNat + 65535) % 65536 = n
  have hgoto := h.1.goto (f := fun x => x.setLc f.rd.toNat n) (Nat.le_refl 2) rfl rfl (f.imm.toNat % 65536)
  split
  · next hn =>
    rw [hn]
    exact h.1.advance (f := fun x => x.setLc f.rd.toNat 0) (Nat.le_succ 1) rfl rfl rfl
  · rw [if_neg fun hx => absurd (hp hx.1) (Nat.not_lt.2 hx.2)]
    simpa [Eng.went] using hgoto

theorem State.Takes.tend {s : State} {e : EngId} {f : ZscFields} (h : s.Takes e 1 {} f) (hk : engKind e ≠ 3) :
    Does (.tend e f) s (fun t => s.OnlyEng t e (if (s.eng e).condTrue f.cond then
        { (s.eng e).went ((s.eng e).pc + 1) 1 with run := .waiting, cycLast := (s.eng e).cyc + 1, cycMax := max (s.eng e).cycMax ((s.eng e).cyc + 1), cutFlag := false }
      else (s.eng e).went ((s.eng e).pc + 1) 1)) := by
  refine ⟨_, rfl, h.onlyEng (Nat.le_refl 1) fun _ => ?_⟩
  have hs := h.1.skip (Nat.le_refl 1)
  have hrun : ((s.advance e 1).eng e).run = .running := (congrArg Eng.run hs.1).trans h.1.1
  dsimp only
  rw [if_neg hk, if_pos hrun]
  exact hs.updEng Eng.endTick

/-- The low word of a position, sign-extended from 48 bits or not. -/
theorem twos_sext48 (x : Int) : twos 32 (sext48 x) = twos 32 x := by
  have h48 : (twos 48 x : Int) = x % 2 ^ 48 := Int.toNat_of_nonneg (Int.emod_nonneg x (by decide))
  unfold sext48 sgn twos at *
  split_ifs <;> (congr 1; simp only [Int.ofNat_eq_natCast] ; omega)

/-- The special values of RDS (R73, Table 3.7). -/
def State.specialValue (s : State) (e : EngId) (i : BitVec 8) : Nat :=
  let x := s.eng e
  let time := if engKind e = 3 then s.now else x.time
  let pos : Int := sext48 x.pos
  if i = 3 then x.cyc else if i = 4 then time else if i = 5 then time / 2 ^ 32
  else if i = 8 then engKind e * 16 + engIndex e else if engKind e = 3 then 0
  else if i = 0 then x.line else if i = 1 then (if engKind e = 2 then x.line / 2 ^ 32 else x.line / 2 ^ 32 % 2 ^ 16)
  else if i = 2 then x.setup % 8 else if i = 6 then twos 32 pos else if i = 7 then twos 32 (pos / 2 ^ 32) else b2n x.cutFlag

theorem State.special_eq (s : State) (e : EngId) {i : BitVec 8} (hi : i.toNat < 10) :
    ∃ v, s.special e i.toNat = some v ∧ BitVec.ofNat 32 v = BitVec.ofNat 32 (s.specialValue e i) := by
  obtain ⟨n, rfl⟩ : ∃ n, i = BitVec.ofNat 8 n := ⟨i.toNat, (BitVec.ofNat_toNat 8 i).symm⟩
  generalize hn : (BitVec.ofNat 8 n).toNat = m at hi
  have hm : BitVec.ofNat 8 n = BitVec.ofNat 8 m := by rw [← hn, BitVec.ofNat_toNat, BitVec.setWidth_eq]
  rw [hm]
  unfold State.specialValue
  interval_cases m <;> refine ⟨_, rfl, ?_⟩ <;> rw [← BitVec.toNat_inj, BitVec.toNat_ofNat, BitVec.toNat_ofNat] <;>
    by_cases hk : engKind e = 3 <;> simp [hk, twos_sext48]
  · split_ifs <;> simp
  · rfl

theorem State.Takes.rds {s : State} {e : EngId} {f : ZscFields} (h : s.Takes e 1 { rd := true, ext := 0xFF } f) (hi : f.ext.toNat < 10)
    (hc : (s.eng e).condTrue f.cond = true) :
    Does (.rds e f) s (fun t => s.OnlyEng t e (((s.eng e).set f.rd (BitVec.ofNat 32 (s.specialValue e f.ext))).went ((s.eng e).pc + 1) 1)) := by
  obtain ⟨v, hv, hw⟩ := s.special_eq e hi
  refine ⟨_, rfl, ?_⟩
  rw [h.instr, if_pos hc]
  simp only [hv, hw]
  generalize BitVec.ofNat 32 (s.specialValue e f.ext) = w
  refine h.1.advance (f := fun x => x.set f.rd w) (Nat.le_refl 1) ?_ ?_ ?_ <;> unfold Eng.set <;> split <;> rfl

end Sys2Proof.Machine
end

section
/-! SUPPORT. O15: RAISE and HALT (R74, R240). -/

namespace Sys2Proof.Machine

/-! ### RAISE -/

/-- Whether an engine runs depends on the engines, units and scripts alone. -/
theorem State.Runs.congr {s t : State} {e : EngId} {cost : Nat} (h : s.Runs e cost) (he : t.engs = s.engs) (hu : t.units = s.units)
    (hs : t.scripts = s.scripts) : t.Runs e cost := by
  obtain ⟨hrun, hx, hd⟩ := h
  have heng := State.eng_congr he e
  refine ⟨(congrArg Eng.run heng).trans hrun, ?_, ?_⟩
  · unfold State.transferring at hx ⊢
    rw [State.script_congr hs]
    exact hx
  · rw [State.prog_congr hu (congrArg Eng.setup heng), heng]
    exact hd

/-- The source of PROGRAM_EVENT of an engine (Tables 14.1 to 14.3). -/
def raiseSrc (e : EngId) : Nat :=
  if engKind e = 0 then portSrc (engIndex e) 30 else if engKind e = 1 then portSrc (engIndex e) 31
  else if engKind e = 2 then axisSrc (engIndex e) 2 else scriptSrc (engIndex e) 3

/-- The items of PROGRAM_EVENT (Tables 9.5, 12.9). -/
def raiseItems (s : State) (e : EngId) (f : ZscFields) : List (Nat × Nat) :=
  if engKind e = 3 then [(16, f.imm.toNat % 65536)] else [(16, f.imm.toNat % 65536), (16, (s.eng e).pc)]

theorem raiseSrc_ne (e : EngId) : raiseSrc e ≠ auxSrc 40 := by
  have := e.isLt
  unfold raiseSrc engKind engIndex portSrc axisSrc scriptSrc auxSrc
  split_ifs <;> omega

theorem exec_raise_body (e : EngId) (f : ZscFields) (s : State) :
    exec (.raise e f) s = .next (s.instr e 0x31 { imm := true } f (fun t => (t.raise (raiseSrc e) (raiseItems t e f)).advance e 1)) := by
  refine congrArg (fun b => Host.Outcome.next (s.instr e 0x31 { imm := true } f b)) (funext fun t => ?_)
  have hkind : engKind e = 0 ∨ engKind e = 1 ∨ engKind e = 2 ∨ engKind e = 3 := by
    unfold engKind
    split_ifs <;> simp
  rcases hkind with h | h | h | h <;> simp [raiseSrc, raiseItems, h]

/-- Engines and scripts have no part in what a raising may change. -/
theorem State.EventsOnly.withEngs {s r t : State} {srcs : List Nat} (h : s.EventsOnly r srcs)
    (ht : t = { r with engs := t.engs, scripts := t.scripts }) : { s with engs := t.engs, scripts := t.scripts }.EventsOnly t srcs := by
  obtain ⟨hframe, hrest⟩ := h
  refine ⟨?_, ?_⟩
  · rw [ht, hframe]
  · rw [ht]
    exact hrest

theorem State.Takes.raise {s : State} {e : EngId} {f : ZscFields} (h : s.Takes e 1 { imm := true } f) (hc : (s.eng e).condTrue f.cond = true) :
    Does (.raise e f) s (fun t =>
      t.eng e = (s.eng e).went ((s.eng e).pc + 1) 1 ∧ (∀ d : EngId, d ≠ e → t.eng d = s.eng d) ∧
      t.raisings (raiseSrc e) = s.raisings (raiseSrc e) + 1 ∧
      { s with engs := t.engs, scripts := t.scripts }.EventsOnly t [raiseSrc e]) := by
  refine ⟨_, exec_raise_body e f s, ?_⟩
  rw [h.instr, if_pos hc]
  set r := s.raise (raiseSrc e) (raiseItems s e f) with hr
  have hm := s.raise_movesUnits (raiseSrc e) (raiseItems s e f)
  have hr : r.Runs e 1 := h.1.congr hm.engs (State.raise_units _ _ _) hm.scripts
  obtain ⟨hsame, hne, hframe, -⟩ := hr.skip (Nat.le_refl 1)
  have heng (d : EngId) : r.eng d = s.eng d := State.eng_congr hm.engs d
  rw [heng] at hsame
  refine ⟨hsame, fun d hd => (hne d hd).trans (heng d), ?_, (State.raise_eventsOnly s _ _).withEngs hframe⟩
  rw [← s.raise_counted (raiseItems s e f) (raiseSrc_ne e), hframe]
  rfl

/-! ### HALT -/

/-- The engine that has executed HALT: its work for the tick has ended, and it stays at the instruction (R74). -/
def Eng.haltedAt (x : Eng) : Eng :=
  { x with cyc := x.cyc + 1, run := .halted, cycLast := x.cyc + 1, cycMax := max x.cycMax (x.cyc + 1), cutFlag := false }

/-- HALT of a unit's engine: the engine stops, and the unit drains. -/
theorem State.Takes.halt_unit {s : State} {e : EngId} {f : ZscFields} (h : s.Takes e 1 {} f) (hc : (s.eng e).condTrue f.cond = true)
    (hk : engKind e ≠ 3) : exec (.halt e f) s = .next ((s.updEng e Eng.haltedAt).drainUnit (engUnit e)) := by
  have hcharge : s.charge e 1 = s.updEng e (Eng.paid · 1) := State.charge_within h.1.2.2
  have hrun : ((s.updEng e (Eng.paid · 1)).eng e).run = .running := (congrArg Eng.run (s.updEng_same e _)).trans h.1.1
  rw [exec_halt]
  unfold execHalt
  rw [h.instr, if_pos hc, if_neg hk]
  dsimp only
  rw [hcharge, if_pos hrun, State.updEng_updEng]
  rfl

/-- HALT of a script ends it normally (R240). -/
theorem State.Takes.halt_script {s : State} {e : EngId} {f : ZscFields} (h : s.Takes e 1 {} f) (hc : (s.eng e).condTrue f.cond = true)
    (hk : engKind e = 3) : exec (.halt e f) s = .next (s.scriptDone (scriptOf e)) := by
  rw [exec_halt]
  unfold execHalt
  rw [h.instr, if_pos hc, if_pos hk]

theorem scriptSrc_ne_auxSrc (c : ScriptId) {k : Nat} (hk : k < 16) : scriptSrc c.val k ≠ auxSrc 40 := by
  have := c.isLt
  unfold scriptSrc auxSrc
  omega

/-- A script that ends normally: halted with cause 0, SCRIPT_DONE raised, the other scripts as they were. -/
theorem State.scriptDone_leaves (s : State) (c : ScriptId) :
    let t := s.scriptDone c
    t.script c = (s.script c).stopped .halted 0 ∧
      t.eng (scriptEng c) = { s.eng (scriptEng c) with run := if (s.eng (scriptEng c)).run = .trapped then .trapped else .halted } ∧
      t.raisings (scriptSrc c.val 0) = s.raisings (scriptSrc c.val 0) + 1 ∧ (∀ d : ScriptId, d ≠ c → t.script d = s.script d) ∧
      t.units = s.units ∧ t.ports = s.ports ∧ t.tbl = s.tbl := by
  have hm := (s.scriptStop c .halted 0).raise_movesUnits (scriptSrc c.val 0) [(32, (s.script c).moved % 2 ^ 32)]
  have hj : s.journalXfer c = { s with jrnl := (s.journalXfer c).jrnl } := State.journalXfer_frame s c
  have hstop : s.scriptStop c .halted 0 = { s with jrnl := (s.journalXfer c).jrnl, scripts := (s.scriptStop c .halted 0).scripts, engs := (s.scriptStop c .halted 0).engs } := by
    unfold State.scriptStop
    rw [hj]
    rfl
  refine ⟨?_, ?_, ?_, fun d hd => ?_, ?_, ?_, ?_⟩
  · exact (State.script_congr hm.scripts c).trans (s.scriptStop_script_same c .halted 0)
  · exact (State.eng_congr hm.engs _).trans (s.scriptStop_eng_same c .halted 0)
  · refine ((s.scriptStop c .halted 0).raise_counted _ (scriptSrc_ne_auxSrc c (by decide))).trans ?_
    rw [hstop]
    rfl
  · exact (State.script_congr hm.scripts d).trans (s.scriptStop_script_ne hd .halted 0)
  · exact (State.raise_units _ _ _).trans (congrArg State.units hstop :)
  · exact (State.raise_ports _ _ _).trans (congrArg State.ports hstop :)
  · exact (State.raise_tbl _ _ _).trans (congrArg State.tbl hstop :)

/-! ### A port whose engine has halted -/

theorem State.verifyFail_engs (s : State) (p : PortId) (n area b pos : Nat) (injected : Bool) :
    (s.verifyFail p n area b pos injected).engs = s.engs := by
  have hr (t : State) (src : Nat) (items : List (Nat × Nat)) : (t.raise src items).engs = t.engs := (t.raise_movesUnits src items).engs
  unfold State.verifyFail
  extract_lets lane s1 s2 s3
  split
  · exact hr s2 _ _
  · exact (State.detect_engs s3 _).trans (hr s2 _ _)

theorem State.verifyReport_engs (s : State) (p : PortId) : (s.verifyReport p).engs = s.engs := by
  unfold State.verifyReport
  exact foldl_same (φ := State.engs) (fun t e => State.verifyFail_engs t p _ _ _ _ _) _ _

theorem Eng.stopRun_halted {x : Eng} (h : x.run = .halted) : x.stopRun = x := by
  unfold Eng.stopRun
  rw [if_pos (.inr h)]

theorem State.updEng_stopRun_halted {s : State} {e : EngId} (h : (s.eng e).run = .halted) (d : EngId) :
    (s.updEng d Eng.stopRun).eng e = s.eng e := by
  by_cases hd : e = d
  · rw [← hd, State.updEng_same, Eng.stopRun_halted h]
  · exact State.updEng_ne s _ hd

theorem State.stilled_halted {s : State} {e : EngId} (h : (s.eng e).run = .halted) (p : PortId) : (s.stilled p).eng e = s.eng e := by
  have hgate := State.updEng_stopRun_halted (s := s.updPort p (fun x => { x with cap := none, prc := none, emi := none })) h (gateEng p)
  exact (State.updEng_stopRun_halted ((congrArg Eng.run hgate).trans h) (pipeEng p)).trans hgate

/-- The halt of a port leaves an engine that has halted. -/
theorem State.haltPort_halted {s : State} {e : EngId} (h : (s.eng e).run = .halted) (p : PortId) (cause : Nat) :
    (s.haltPort p cause).eng e = s.eng e := by
  have hset : ((s.verifyReport p).setPortState p .halted cause).eng e = s.eng e :=
    State.eng_congr (((s.verifyReport p).setPortState_movesUnits p .halted cause).engs.trans (s.verifyReport_engs p)) e
  rw [State.haltPort_eq]
  exact (State.stilled_halted ((congrArg Eng.run hset).trans h) p).trans hset

theorem State.clearGearArm_engs (s : State) (p : PortId) : (s.clearGearArm p).engs = s.engs := rfl

/-- A running port drains, or halts: its halted engine stays. -/
theorem State.drainUnit_port_halted {s : State} {e : EngId} {u : UnitId} (h : (s.eng e).run = .halted) (hu : u.val < 16) :
    (s.drainUnit u).eng e = s.eng e := by
  have hset : ((s.setPortState ⟨u.val, hu⟩ .draining 5).clearGearArm ⟨u.val, hu⟩).eng e = s.eng e :=
    State.eng_congr ((State.clearGearArm_engs _ _).trans (s.setPortState_movesUnits ⟨u.val, hu⟩ .draining 5).engs) e
  by_cases hst : (s.unit u).st ≠ .running
  · rw [State.drainUnit, if_pos hst]
  · rw [State.drainUnit, if_neg hst, dif_pos hu]
    extract_lets p k
    by_cases hk : (k.port p).ltg.ticked && decide ((k.port p).ltg.drains < 2)
    · rw [if_pos hk]
      exact hset
    · rw [if_neg hk]
      exact (State.haltPort_halted ((congrArg Eng.run hset).trans h) _ 6).trans hset

theorem engUnit_port {e : EngId} (h : engKind e < 2) : (engUnit e).val < 16 := by
  unfold engKind at h
  unfold engUnit
  split_ifs at h ⊢ <;> simp only <;> omega

theorem engUnit_axis {e : EngId} (h : engKind e = 2) : 16 ≤ (engUnit e).val := by
  unfold engKind at h
  unfold engUnit
  split_ifs at h ⊢ <;> simp only <;> omega

theorem State.haltedAt_memOk {s : State} (hm : s.MemOk) (e : EngId) : (s.updEng e Eng.haltedAt).MemOk :=
  (State.updEng_keeps e Eng.haltedAt (fun _ hx => Eng.memOk_of hx rfl rfl rfl) (Keeps.refl (kc := false) s)).mem hm

/-- HALT of an engine of a running port in no cut (R74, R293). -/
theorem State.Takes.halt_port {s : State} {e : EngId} {f : ZscFields} (hm : s.MemOk) (h : s.Takes e 1 {} f)
    (hc : (s.eng e).condTrue f.cond = true) (hk : engKind e < 2) (hst : (s.unit (engUnit e)).st = .running)
    (hcut : (s.unit (engUnit e)).cut = none) :
    Does (.halt e f) s (fun t =>
      (t.unit (engUnit e)).st = (if (s.port (unitPort (engUnit e))).ltg.ticked && (s.port (unitPort (engUnit e))).ltg.drains < 2
        then .draining else .halted) ∧
      (t.eng e).run = .halted ∧ (t.eng e).cycLast = (s.eng e).cyc + 1 ∧ (t.eng e).pc = (s.eng e).pc ∧ (t.eng e).g = (s.eng e).g ∧
      (t.port (unitPort (engUnit e))).ltg.armed = false ∧ (t.port (unitPort (engUnit e))).pipe.cap = none ∧
      t.chans = s.chans ∧ t.axes = s.axes) := by
  have hu := engUnit_port hk
  have hup := unitOfPort_unitPort hu
  have heng : (s.updEng e Eng.haltedAt).eng e = (s.eng e).haltedAt := s.updEng_same e _
  have hkeep : ((s.updEng e Eng.haltedAt).drainUnit (engUnit e)).eng e = (s.eng e).haltedAt :=
    (State.drainUnit_port_halted (by rw [heng]; rfl) hu).trans heng
  have hd := State.drainUnit_port (v := s.updEng e Eng.haltedAt) (p := unitPort (engUnit e))
    (State.haltedAt_memOk hm e) (by rw [hup]; exact hst) (by rw [hup]; exact hcut)
  rw [hup] at hd
  refine ⟨_, h.halt_unit hc (by omega), ?_, ?_, ?_, ?_, ?_, hd.armed, hd.cal, hd.chans, hd.axes⟩
  · have := hd.st
    rw [hup] at this
    exact this
  all_goals rw [hkeep]; rfl

/-- HALT of the engine of a running axis in no cut (R74). -/
theorem State.Takes.halt_axis {s : State} {e : EngId} {f : ZscFields} (hm : s.MemOk) (h : s.Takes e 1 {} f)
    (hc : (s.eng e).condTrue f.cond = true) (hk : engKind e = 2) (hst : (s.unit (engUnit e)).st = .running)
    (hcut : (s.unit (engUnit e)).cut = none) :
    Does (.halt e f) s (fun t =>
      t.eng e = (s.eng e).haltedAt ∧ (∀ d : EngId, d ≠ e → t.eng d = s.eng d) ∧ (t.unit (engUnit e)).st = .draining ∧
      (∀ u : UnitId, u ≠ engUnit e → t.unit u = s.unit u) ∧
      t.axis (axisOfUnit (engUnit e)) = { (s.axisStop (axisOfUnit (engUnit e)) s.mot.stopOn).axis (axisOfUnit (engUnit e)) with held := some false } ∧
      t.ports = s.ports) := by
  set v := s.updEng e Eng.haltedAt with hv
  have hvm : v.MemOk := State.haltedAt_memOk hm e
  have hdrain := State.drainUnit_axis (v := v) (engUnit_axis hk) hst hcut
  set d := v.moveState (engUnit e) .draining 5 with hd
  have hdm : d.MemOk := (State.moveState_keeps _ .draining 5 (Keeps.refl (kc := false) v)).mem hvm
  have hmove := v.moveState_movesUnits (engUnit e) .draining 5
  have hstop := State.stopAxis_stopped hdm (axisOfUnit (engUnit e)) false
  have hmot : d.mot = s.mot := (congrArg State.mot (hmove : d = v.withUnits d) :)
  have hports : d.ports = s.ports := (congrArg State.ports (v.moveState_frame (engUnit e) .draining 5) :)
  rw [← hdrain] at hstop
  have heng (x : EngId) : (v.drainUnit (engUnit e)).eng x = v.eng x :=
    State.eng_congr ((congrArg State.engs hstop.frame :).trans hmove.engs) x
  have hunit (u : UnitId) : (v.drainUnit (engUnit e)).unit u = d.unit u := State.unit_congr (congrArg State.units hstop.frame :) u
  refine ⟨_, h.halt_unit hc (by omega), (heng e).trans (s.updEng_same e _), fun x hx => (heng x).trans (State.updEng_ne s _ hx), ?_,
    fun u hu => (hunit u).trans (v.moveState_unit_ne .draining 5 hu), ?_, (congrArg State.ports hstop.frame :).trans hports⟩
  · rw [hunit, hd, State.moveState_unit_same]
    rfl
  · rw [hstop.axis, hmot, Bool.false_or, State.axisStop_axis_congr (s := s) (congrArg (·[axisOfUnit (engUnit e)]) hmove.axes :)]

/-- HALT of an engine whose unit does not run ends its tick only. -/
theorem State.Takes.halt_idle {s : State} {e : EngId} {f : ZscFields} (h : s.Takes e 1 {} f) (hc : (s.eng e).condTrue f.cond = true)
    (hk : engKind e ≠ 3) (hst : (s.unit (engUnit e)).st ≠ .running) :
    Does (.halt e f) s (fun t => s.OnlyEng t e (s.eng e).haltedAt) := by
  refine ⟨_, h.halt_unit hc hk, ?_⟩
  rw [show (s.updEng e Eng.haltedAt).drainUnit (engUnit e) = s.updEng e Eng.haltedAt from if_pos hst]
  refine ⟨s.updEng_same e _, fun d hd => State.updEng_ne s _ hd, rfl, fun c => ?_⟩
  rw [if_neg fun hx => hk hx.1]
  rfl

theorem opOf_eq (w : DWord) : opOf w = w.toNat / 2 ^ 56 := by
  unfold opOf
  rw [BitVec.extractLsb'_toNat, Nat.shiftRight_eq_div_pow]
  have := w.isLt
  omega

/-- Settles O15. -/
theorem engineLoopsTicksAndEvents : Obligations.EngineLoopsTicksAndEvents := by
  refine ⟨fun e f s h => ⟨_, rfl, ?_⟩, fun e f s h hc hrd hb hp => h.lset hc hrd hb hp, fun e f s h hc hrd hp => h.lend hc hrd hp,
    fun e f s h hk => h.tend hk, fun e f s h hc => h.raise hc, fun e f s h hi hc => h.rds hi hc,
    fun e f s h hc hk hst => h.halt_idle hc hk hst, fun e f s hm h hc hk hst hcut => h.halt_axis hm hc hk hst hcut,
    fun e f s hm h hc hk hst hcut => h.halt_port hm hc hk hst hcut, fun e f s h hc hk => ?_, fun e k f s h hc => ⟨_, rfl, ?_⟩,
    fun e w s hrun hx hop => ⟨_, rfl, ?_⟩, fun e w s hrun hx => ⟨_, rfl, ?_⟩, fun e w parity s hn => ⟨_, rfl, ?_⟩⟩
  case refine_1 =>
    have hs := h.1.skip (Nat.le_refl 1)
    rw [h.instr, ite_self]
    exact hs
  case refine_2 =>
    have hrun := h.1.1
    obtain ⟨hscript, heng, hraised, hne, hunits, hports, htbl⟩ := s.scriptDone_leaves (scriptOf e)
    rw [scriptEng_scriptOf hk, hrun] at heng
    refine ⟨_, h.halt_script hc hk, ?_, ?_, ?_, hraised, hne, hunits, hports, htbl⟩
    · rw [hscript]
      rfl
    · rw [hscript]
      rfl
    · rw [heng]
      rfl
  case refine_3 =>
    rw [h.instr, if_pos hc]
    exact s.trap_trapped e _ _
  case refine_4 =>
    dsimp only
    rw [if_neg (by simp [hrun, hx]), if_neg Bool.false_ne_true, if_neg (by rw [opOf_eq, hop]; exact Bool.false_ne_true)]
    exact s.trap_trapped e _ _
  case refine_5 =>
    dsimp only
    rw [if_neg (by simp [hrun, hx]), if_pos rfl]
    exact s.trap_trapped e _ _
  case refine_6 =>
    rcases hn with hrun | hx | ⟨hp, hop⟩
    · exact if_pos (.inl hrun)
    · exact if_pos (.inr hx)
    · dsimp only
      rw [hp, if_neg Bool.false_ne_true, opOf_eq, if_pos hop, ite_self]

end Sys2Proof.Machine
end

section
/-! SUPPORT. A script that halts without a transfer in progress (R240, R256). -/

namespace Sys2Proof.Machine

/-- From `s` to `t` script `c`, which moves nothing, has halted with `cause`: its engine stands, DMA_SC_XFER_DONE tells no bytes,
SCRIPT_HALTED is raised, and nothing else changes. -/
structure State.ScriptHalted (s t : State) (c : ScriptId) (cause : Nat) : Prop where
  events : { s with scripts := t.scripts, engs := t.engs, regs := t.regs }.EventsOnly t [scriptSrc c.val 1]
  regs : s.SameRegs t (rkey (scSel c) Off.DMA_SC_XFER_DONE :: injKeys)
  script : t.script c = (s.script c).stopped .halted cause
  scripts : ∀ d : ScriptId, d ≠ c → t.script d = s.script d
  eng : t.eng (scriptEng c) = { s.eng (scriptEng c) with run := if (s.eng (scriptEng c)).run = .trapped then .trapped else .halted }
  engs : ∀ e : EngId, e ≠ scriptEng c → t.eng e = s.eng e
  raised : t.raisings (scriptSrc c.val 1) = s.raisings (scriptSrc c.val 1) + 1
  done : s.MemOk → t.eff (scSel c) Off.DMA_SC_XFER_DONE = 0

/-- The stop of a script that moves nothing. -/
theorem State.scriptStop_idle {s : State} {c : ScriptId} (hx : (s.script c).xfer = none) (st : ScState) (cause : Nat) :
    s.scriptStop c st cause = { s with scripts := (s.scriptStop c st cause).scripts, engs := (s.scriptStop c st cause).engs } := by
  have hj : s.journalXfer c = s := by
    unfold State.journalXfer
    rw [hx]
  unfold State.scriptStop
  rw [hj]
  rfl

/-- A change of scripts and engines, and then a raising. -/
theorem State.EventsOnly.afterStop {u v : State} (hv : v = { u with scripts := v.scripts, engs := v.engs }) (src : Nat) (items : List (Nat × Nat)) :
    { u with scripts := (v.raise src items).scripts, engs := (v.raise src items).engs }.EventsOnly (v.raise src items) [src] := by
  have hm := v.raise_movesUnits src items
  rw [hm.scripts, hm.engs, ← hv]
  exact v.raise_eventsOnly src items

theorem State.scriptHalt_halted {s : State} {c : ScriptId} (hx : (s.script c).xfer = none) (cause : Nat) :
    s.ScriptHalted (s.scriptHalt c cause) c cause := by
  have hhalt : s.scriptHalt c cause = ((s.setReg (scSel c) Off.DMA_SC_XFER_DONE 0).scriptStop c .halted cause).raise (scriptSrc c.val 1)
      [(8, cause), (16, (s.eng (scriptEng c)).pc)] := by
    unfold State.scriptHalt ScriptSt.xferDone
    rw [hx]
    rfl
  have hstop := State.scriptStop_idle (s := s.setReg (scSel c) Off.DMA_SC_XFER_DONE 0) hx .halted cause
  have hscript := (s.setReg (scSel c) Off.DMA_SC_XFER_DONE 0).scriptStop_script_same c .halted cause
  have hscripts (d : ScriptId) (hd : d ≠ c) := (s.setReg (scSel c) Off.DMA_SC_XFER_DONE 0).scriptStop_script_ne hd .halted cause
  have heng := (s.setReg (scSel c) Off.DMA_SC_XFER_DONE 0).scriptStop_eng_same c .halted cause
  have hengs (e : EngId) (he : e ≠ scriptEng c) := (s.setReg (scSel c) Off.DMA_SC_XFER_DONE 0).scriptStop_eng_ne he .halted cause
  have hreg : s.SameRegs (s.setReg (scSel c) Off.DMA_SC_XFER_DONE 0) [rkey (scSel c) Off.DMA_SC_XFER_DONE] := State.setCell_sameRegs _ _ _ _
  have hdone (hm : s.MemOk) := State.eff_setReg hm (scSel c) Off.DMA_SC_XFER_DONE 0
  rw [hhalt]
  generalize hu : s.setReg (scSel c) Off.DMA_SC_XFER_DONE 0 = u at *
  have hus : u = { s with regs := u.regs } := by rw [← hu]; rfl
  generalize u.scriptStop c .halted cause = v at *
  have hvu : v.regs = u.regs := (congrArg State.regs hstop :)
  have hr := State.EventsOnly.afterStop hstop (scriptSrc c.val 1) [(8, cause), (16, (s.eng (scriptEng c)).pc)]
  have hcount := v.raise_counted [(8, cause), (16, (s.eng (scriptEng c)).pc)] (scriptSrc_ne_auxSrc c (k := 1) (by decide))
  have hm := v.raise_movesUnits (scriptSrc c.val 1) [(8, cause), (16, (s.eng (scriptEng c)).pc)]
  have hrregs := (v.raise_eventsOnly (scriptSrc c.val 1) [(8, cause), (16, (s.eng (scriptEng c)).pc)]).2.1
  have hcell := (v.raise_eventsOnly (scriptSrc c.val 1) [(8, cause), (16, (s.eng (scriptEng c)).pc)]).cell (scSel c)
    (off := Off.DMA_SC_XFER_DONE) (by decide)
  generalize v.raise (scriptSrc c.val 1) [(8, cause), (16, (s.eng (scriptEng c)).pc)] = t at *
  have hvr : v.raised = s.raised := (congrArg State.raised hstop :).trans (congrArg State.raised hus :)
  exact {
    events := by
      obtain ⟨hframe, -, hrest⟩ := hr
      rw [hus] at hframe hrest
      exact ⟨hframe, fun _ _ => rfl, hrest⟩
    regs := fun k hk => by
      have hk' : k ≠ rkey (scSel c) Off.DMA_SC_XFER_DONE ∧ k ∉ injKeys := by simpa using hk
      rw [hrregs k hk'.2, hvu, hreg k (by simpa using hk'.1)]
    script := (State.script_congr hm.scripts c).trans (hscript.trans (by rw [hus]; rfl))
    scripts := fun d hd => (State.script_congr hm.scripts d).trans ((hscripts d hd).trans (by rw [hus]; rfl))
    eng := (State.eng_congr hm.engs _).trans (heng.trans (by rw [hus]; rfl))
    engs := fun e he => (State.eng_congr hm.engs e).trans ((hengs e he).trans (by rw [hus]; rfl))
    raised := hcount.trans (congrArg (mget (fun _ => 0) · _ + 1) hvr :)
    done := fun h => by
      refine Eq.trans ?_ (hdone h)
      unfold State.eff
      rw [hcell]
      exact congrArg (fun m => (mget resetCell m (rkey (scSel c) Off.DMA_SC_XFER_DONE)).force.toNat) hvu }

end Sys2Proof.Machine
end

section
/-! SUPPORT. O36: XFER, XFERX and SHUF (R245 to R250). -/

namespace Sys2Proof.Machine

/-- A script pays any cost (R246). -/
theorem State.Runs.ofScript {s : State} {c : ScriptId} {cost : Nat} (h : s.Runs (scriptEng c) cost) (n : Nat) : s.Runs (scriptEng c) n :=
  ⟨h.1, h.2.1, .inl (engKind_scriptEng c)⟩

/-- A script that runs an instruction has no transfer in progress. -/
theorem State.Runs.xfer {s : State} {c : ScriptId} {cost : Nat} (h : s.Runs (scriptEng c) cost) : (s.script c).xfer = none := by
  have hx := h.2.1
  unfold State.transferring at hx
  rw [engKind_scriptEng, scriptOf_scriptEng] at hx
  simpa using hx

/-- Only DENIED is journaled (R244). -/
theorem State.scHaltCheck_of_ne {cause : Nat} (h : cause ≠ 5) (s : State) (c : ScriptId) (addr : Nat) :
    s.scHaltCheck c cause addr = s.scriptHalt c cause := by
  unfold State.scHaltCheck
  rw [if_neg h]

/-- What the halt of a running script by an instruction leaves. -/
def State.HaltedBy (s t : State) (c : ScriptId) (cause : Nat) : Prop :=
  (t.script c).st = .halted ∧ (t.script c).cause = cause ∧ (t.script c).xfer = none ∧ (∀ d : ScriptId, d ≠ c → t.script d = s.script d) ∧
    (∀ e : EngId, e ≠ scriptEng c → t.eng e = s.eng e) ∧ t.eng (scriptEng c) = { s.eng (scriptEng c) with run := .halted } ∧
    t.raisings (scriptSrc c.val 1) = s.raisings (scriptSrc c.val 1) + 1 ∧ t.eff (scSel c) Off.DMA_SC_XFER_DONE = 0 ∧
    t.ports = s.ports ∧ t.tbl = s.tbl ∧ t.store = s.store

theorem State.ScriptHalted.haltedBy {s t : State} {c : ScriptId} {cause : Nat} (h : s.ScriptHalted t c cause) (hm : s.MemOk)
    (hrun : (s.eng (scriptEng c)).run = .running) : s.HaltedBy t c cause := by
  have hframe := h.events.1
  have heng := h.eng
  rw [hrun] at heng
  refine ⟨?_, ?_, ?_, h.scripts, h.engs, heng, h.raised, h.done hm, (congrArg State.ports hframe :), (congrArg State.tbl hframe :),
    (congrArg State.store hframe :)⟩
  all_goals rw [h.script]; rfl

/-! ### What a transfer instruction finds at its block (R245) -/

section
variable {s : State} {c : ScriptId} {f : ZscFields} {op : Nat} {plan : List Byte → Nat ⊕ XferSt}
variable (h : s.Takes (scriptEng c) 1 { ra := true, imm := true } f)
include h

/-- With a false condition a transfer instruction only goes on. -/
theorem State.Takes.transfer_skip (hc : (s.eng (scriptEng c)).condTrue f.cond = false) :
    s.OnlyEng (s.transfer c op f plan) (scriptEng c) ((s.eng (scriptEng c)).went ((s.eng (scriptEng c)).pc + 1) 1) := by
  unfold State.transfer
  rw [h.instr, if_neg (by simp [hc])]
  exact h.1.skip (Nat.le_refl 1)

/-- A block that is not at a multiple of 8, or not within scratch (R245). -/
theorem State.Takes.transfer_trap (hc : (s.eng (scriptEng c)).condTrue f.cond = true)
    (ha : ((s.eng (scriptEng c)).get f.ra + f.imm).toNat % 8 ≠ 0 ∨ 0x3E0 < ((s.eng (scriptEng c)).get f.ra + f.imm).toNat) :
    s.Trapped (s.transfer c op f plan) (scriptEng c) 2 ((s.eng (scriptEng c)).get f.ra + f.imm).toNat := by
  have hbad : (s.eng (scriptEng c)).addr f % 8 ≠ 0 ∨ 0x3E0 < (s.eng (scriptEng c)).addr f := ha
  unfold State.transfer
  rw [h.instr, if_pos hc]
  dsimp only
  rw [if_pos hbad]
  exact s.trap_trapped _ 2 _

section
variable (hc : (s.eng (scriptEng c)).condTrue f.cond = true) (h8 : ((s.eng (scriptEng c)).get f.ra + f.imm).toNat % 8 = 0)
  (hle : ((s.eng (scriptEng c)).get f.ra + f.imm).toNat ≤ 0x3E0) {b : List Byte}
  (hb : b = (s.eng (scriptEng c)).xferBlock ((s.eng (scriptEng c)).get f.ra + f.imm).toNat)
include hc h8 hle hb

theorem State.Takes.transfer_eq :
    s.transfer c op f plan =
      match plan b with
      | .inl cause => s.scHaltCheck c cause ((s.eng (scriptEng c)).addr f)
      | .inr x => if x.moves.isEmpty then s.advance (scriptEng c) x.cost else s.updScript c (fun y => { y with xfer := some x }) := by
  have hgood : ¬((s.eng (scriptEng c)).addr f % 8 ≠ 0 ∨ 0x3E0 < (s.eng (scriptEng c)).addr f) :=
    fun hx => hx.elim (fun hn => hn h8) (fun hn => absurd hle (Nat.not_le.2 hn))
  unfold State.transfer
  rw [h.instr, if_pos hc]
  dsimp only
  rw [if_neg hgood, hb]
  rfl

/-- A block that its checks refuse halts the script. -/
theorem State.Takes.transfer_halt (hm : s.MemOk) {cause : Nat} (hp : plan b = .inl cause) (h5 : cause ≠ 5) :
    s.HaltedBy (s.transfer c op f plan) c cause := by
  rw [h.transfer_eq hc h8 hle hb, hp]
  dsimp only
  rw [State.scHaltCheck_of_ne h5]
  exact (State.scriptHalt_halted h.1.xfer cause).haltedBy hm h.1.1

/-- A block with something to move begins its transfer. -/
theorem State.Takes.transfer_begin {x : XferSt} (hp : plan b = .inr x) (hx : x.moves ≠ []) :
    s.transfer c op f plan = { s with scripts := (s.transfer c op f plan).scripts } ∧
      (∀ d : ScriptId, d ≠ c → (s.transfer c op f plan).script d = s.script d) ∧
      (s.transfer c op f plan).script c = { s.script c with xfer := some x } := by
  have heq := h.transfer_eq (op := op) (plan := plan) hc h8 hle hb
  rw [hp] at heq
  dsimp only at heq
  rw [if_neg (by simpa using hx)] at heq
  rw [heq]
  exact ⟨rfl, fun d hd => State.updScript_ne s _ hd, State.updScript_same s c _⟩

/-- A block of no byte is done at once. -/
theorem State.Takes.transfer_nothing {x : XferSt} (hp : plan b = .inr x) (hx : x.moves = []) :
    s.OnlyEng (s.transfer c op f plan) (scriptEng c) ((s.eng (scriptEng c)).went ((s.eng (scriptEng c)).pc + 1) x.cost) := by
  have hs := (h.1.ofScript x.cost).advance (f := id) (Nat.le_refl _) rfl rfl rfl
  rw [show s.updEng (scriptEng c) id = s from s.updEng_self (scriptEng c)] at hs
  rw [h.transfer_eq hc h8 hle hb, hp]
  dsimp only
  rw [if_pos (by simp [hx])]
  exact hs

end
end

/-! ### The plans of the three instructions -/

/-- The plan of XFER (R247). -/
def xferPlan (b : List Byte) : Nat ⊕ XferSt :=
  let (src, dst, n, ss, ds, ok) := blockHead b
  if !ok || leAt b 0x18 8 != 0 || !rangeOk ss src n || !rangeOk ds dst n then .inl 7
  else .inr (newXfer b none (if n = 0 then [] else [(src, dst, n)]) (overlap ss src n ds dst n && decide (src < dst)) (6 + (n + 31) / 32))

/-- The plan of XFERX (R249). -/
def xferxPlan (b : List Byte) : Nat ⊕ XferSt :=
  let (src, dst, n, _, _, ok) := blockHead b
  let tb := leAt b 0x18 1
  let mode := leAt b 0x19 1
  if !ok || n != 0 || decide (64 ≤ tb) || decide (2 ≤ mode) || leAt b 0x1A 2 != 0 || leAt b 0x1C 4 != 0 then .inl 7
  else .inr (newXfer b (some (tb, mode)) [(src, dst, 0)] false 0)

/-- The plan of SHUF (R250). -/
def shufPlan (b : List Byte) : Nat ⊕ XferSt :=
  let (src, dst, n, ss, ds, ok) := blockHead b
  let np := leAt b 0x18 1
  let ec := leAt b 0x19 1
  let dir := leAt b 0x1A 1
  let m := leAt b 0x1C 4
  let el := 2 ^ ec
  if !ok || np == 0 || decide (4 < np) || decide (3 ≤ ec) || decide (2 ≤ dir) || leAt b 0x1B 1 != 0 || m == 0 ||
      decide (16777216 < m) || n != np * m * el || !rangeOk ss src n || !rangeOk ds dst n then .inl 7
  else if overlap ss src n ds dst n then .inl 3
  else
    let at_ (j : Nat) := if dir = 0 then j % m * np + j / m else j % np * m + j / np
    .inr (newXfer b none ((List.range (np * m)).map (fun j => (src + at_ j * el, dst + j * el, el))) false (6 + (n + 15) / 16))

theorem exec_xfer_plan (c : ScriptId) (f : ZscFields) (s : State) : exec (.xfer c f) s = .next (s.transfer c 0xC0 f xferPlan) := rfl

theorem exec_xferx_plan (c : ScriptId) (f : ZscFields) (s : State) : exec (.xferx c f) s = .next (s.transfer c 0xC1 f xferxPlan) := rfl

theorem exec_shuf_plan (c : ScriptId) (f : ZscFields) (s : State) : exec (.shuf c f) s = .next (s.transfer c 0xC2 f shufPlan) := rfl

/-- A valid block of XFER. -/
theorem xferPlan_valid {b : List Byte} (hs : leAt b 0x14 1 < 3) (hd : leAt b 0x15 1 < 3) (h0 : leAt b 0x16 2 = 0) (h18 : leAt b 0x18 8 = 0)
    (hsrc : rangeOk (leAt b 0x14 1) (leAt b 0 8) (leAt b 0x10 4) = true) (hdst : rangeOk (leAt b 0x15 1) (leAt b 8 8) (leAt b 0x10 4) = true) :
    xferPlan b = .inr (newXfer b none (if leAt b 0x10 4 = 0 then [] else [(leAt b 0 8, leAt b 8 8, leAt b 0x10 4)])
      (overlap (leAt b 0x14 1) (leAt b 0 8) (leAt b 0x10 4) (leAt b 0x15 1) (leAt b 8 8) (leAt b 0x10 4) && decide (leAt b 0 8 < leAt b 8 8))
      (6 + (leAt b 0x10 4 + 31) / 32)) := by
  simp [xferPlan, blockHead, hs, hd, h0, h18, hsrc, hdst]

/-- A block of XFER with a field or a range that is not valid. -/
theorem xferPlan_invalid {b : List Byte} (h : 3 ≤ leAt b 0x14 1 ∨ 3 ≤ leAt b 0x15 1 ∨ leAt b 0x16 2 ≠ 0 ∨ leAt b 0x18 8 ≠ 0 ∨
    rangeOk (leAt b 0x14 1) (leAt b 0 8) (leAt b 0x10 4) = false ∨ rangeOk (leAt b 0x15 1) (leAt b 8 8) (leAt b 0x10 4) = false) :
    xferPlan b = .inl 7 := by
  unfold xferPlan blockHead
  refine if_pos ?_
  simp only [Bool.or_eq_true, Bool.not_eq_true', Bool.and_eq_false_iff, decide_eq_false_iff_not, Nat.not_lt, bne_iff_ne, beq_eq_false_iff_ne]
  tauto

theorem xferxPlan_valid {b : List Byte} (hs : leAt b 0x14 1 < 3) (hd : leAt b 0x15 1 < 3) (h0 : leAt b 0x16 2 = 0) (hn : leAt b 0x10 4 = 0)
    (htb : leAt b 0x18 1 < 64) (hmode : leAt b 0x19 1 < 2) (h1a : leAt b 0x1A 2 = 0) (h1c : leAt b 0x1C 4 = 0) :
    xferxPlan b = .inr (newXfer b (some (leAt b 0x18 1, leAt b 0x19 1)) [(leAt b 0 8, leAt b 8 8, 0)] false 0) := by
  unfold xferxPlan blockHead
  refine if_neg ?_
  simp [hs, hd, h0, hn, htb, hmode, h1a, h1c]

theorem xferxPlan_invalid {b : List Byte} (h : 3 ≤ leAt b 0x14 1 ∨ 3 ≤ leAt b 0x15 1 ∨ leAt b 0x16 2 ≠ 0 ∨ leAt b 0x10 4 ≠ 0 ∨
    64 ≤ leAt b 0x18 1 ∨ 2 ≤ leAt b 0x19 1 ∨ leAt b 0x1A 2 ≠ 0 ∨ leAt b 0x1C 4 ≠ 0) : xferxPlan b = .inl 7 := by
  unfold xferxPlan blockHead
  refine if_pos ?_
  simp only [Bool.or_eq_true, Bool.not_eq_true', Bool.and_eq_false_iff, decide_eq_false_iff_not, decide_eq_true_eq, Nat.not_lt, bne_iff_ne,
    beq_eq_false_iff_ne]
  tauto

/-- The fields and ranges of a block of SHUF are valid. -/
structure ShufOk (b : List Byte) : Prop where
  srcSp : leAt b 0x14 1 < 3
  dstSp : leAt b 0x15 1 < 3
  zero : leAt b 0x16 2 = 0
  planes : 1 ≤ leAt b 0x18 1 ∧ leAt b 0x18 1 ≤ 4
  elem : leAt b 0x19 1 < 3
  dir : leAt b 0x1A 1 < 2
  zero' : leAt b 0x1B 1 = 0
  count : 1 ≤ leAt b 0x1C 4 ∧ leAt b 0x1C 4 ≤ 2 ^ 24
  bytes : leAt b 0x10 4 = leAt b 0x18 1 * leAt b 0x1C 4 * 2 ^ leAt b 0x19 1
  src : rangeOk (leAt b 0x14 1) (leAt b 0 8) (leAt b 0x10 4) = true
  dst : rangeOk (leAt b 0x15 1) (leAt b 8 8) (leAt b 0x10 4) = true

/-- The ranges of a block of SHUF share an address. -/
def ShufClash (b : List Byte) : Prop :=
  leAt b 0x14 1 = leAt b 0x15 1 ∧ leAt b 0 8 < leAt b 8 8 + leAt b 0x10 4 ∧ leAt b 8 8 < leAt b 0 8 + leAt b 0x10 4

theorem ShufOk.pos {b : List Byte} (h : ShufOk b) : 0 < leAt b 0x10 4 := by
  rw [h.bytes]
  exact Nat.mul_pos (Nat.mul_pos h.planes.1 h.count.1) (Nat.two_pow_pos _)

/-- The moves of SHUF, in the order of the destination. -/
def shufMoves (b : List Byte) : List (Nat × Nat × Nat) :=
  (List.range (leAt b 0x18 1 * leAt b 0x1C 4)).map (fun j =>
    (leAt b 0 8 + (if leAt b 0x1A 1 = 0 then j % leAt b 0x1C 4 * leAt b 0x18 1 + j / leAt b 0x1C 4
      else j % leAt b 0x18 1 * leAt b 0x1C 4 + j / leAt b 0x18 1) * 2 ^ leAt b 0x19 1, leAt b 8 8 + j * 2 ^ leAt b 0x19 1, 2 ^ leAt b 0x19 1))

theorem ShufOk.moves_ne {b : List Byte} (h : ShufOk b) : shufMoves b ≠ [] := by
  unfold shufMoves
  simpa using ⟨Nat.ne_of_gt h.planes.1, Nat.ne_of_gt h.count.1⟩

theorem ShufOk.plan {b : List Byte} (h : ShufOk b) :
    shufPlan b = if overlap (leAt b 0x14 1) (leAt b 0 8) (leAt b 0x10 4) (leAt b 0x15 1) (leAt b 8 8) (leAt b 0x10 4) then .inl 3
      else .inr (newXfer b none (shufMoves b) false (6 + (leAt b 0x10 4 + 15) / 16)) := by
  obtain ⟨hs, hd, h0, ⟨hp1, hp4⟩, he, hdir, h1b, ⟨hm1, hm24⟩, hn, hsrc, hdst⟩ := h
  have hcount : ¬16777216 < leAt b 0x1C 4 := Nat.not_lt.2 hm24
  unfold shufPlan blockHead
  refine if_neg ?_
  simp [hs, hd, h0, h1b, hsrc, hdst, he, hdir, hcount, ← hn, Nat.ne_of_gt hp1, Nat.ne_of_gt hm1, Nat.not_lt.2 hp4]

theorem ShufOk.clash_iff {b : List Byte} (h : ShufOk b) :
    overlap (leAt b 0x14 1) (leAt b 0 8) (leAt b 0x10 4) (leAt b 0x15 1) (leAt b 8 8) (leAt b 0x10 4) = true ↔ ShufClash b := by
  simp [overlap, ShufClash, h.pos, and_assoc]

/-- Settles O36. -/
theorem scriptTransfers : Obligations.ScriptTransfers := by
  refine ⟨fun c f s h hc => ⟨_, exec_xfer_plan c f s, h.transfer_skip hc⟩, fun c f s h hc ha => ⟨_, exec_xfer_plan c f s, h.transfer_trap hc ha⟩,
    fun c f s h hc => ⟨_, exec_xferx_plan c f s, h.transfer_skip hc⟩, fun c f s h hc ha => ⟨_, exec_xferx_plan c f s, h.transfer_trap hc ha⟩,
    fun c f s h hc => ⟨_, exec_shuf_plan c f s, h.transfer_skip hc⟩, fun c f s h hc ha => ⟨_, exec_shuf_plan c f s, h.transfer_trap hc ha⟩,
    fun c f s b h hc h8 hle hb hs hd h0 h18 hsrc hdst hn => ⟨_, exec_xfer_plan c f s, ?_⟩,
    fun c f s b h hc h8 hle hb hs hd h0 h18 hsrc hdst hn => ⟨_, exec_xfer_plan c f s, ?_⟩,
    fun c f s b hm h hc h8 hle hb hbad => ⟨_, exec_xfer_plan c f s, h.transfer_halt hc h8 hle hb hm (xferPlan_invalid hbad) (by decide)⟩,
    fun c f s b np m el dir h hc h8 hle hb hs hd h0 hnp hm hel hdir hp he hd2 h1b hcount hn hsrc hdst hclash => ⟨_, exec_shuf_plan c f s, ?_⟩,
    fun c f s b hm h hc h8 hle hb hs hd h0 hp he hdir h1b hcount hn hsrc hdst hclash => ⟨_, exec_shuf_plan c f s, ?_⟩,
    fun c f s b tb mode h hc h8 hle hb hs hd h0 hn htb htb64 hmode hmode2 h1a h1c => ⟨_, exec_xferx_plan c f s, ?_⟩,
    fun c f s b hm h hc h8 hle hb hbad => ⟨_, exec_xferx_plan c f s, h.transfer_halt hc h8 hle hb hm (xferxPlan_invalid hbad) (by decide)⟩⟩
  case refine_1 =>
    have hp := xferPlan_valid hs hd h0 h18 hsrc hdst
    rw [if_neg hn] at hp
    have hdesc : (overlap (leAt b 0x14 1) (leAt b 0 8) (leAt b 0x10 4) (leAt b 0x15 1) (leAt b 8 8) (leAt b 0x10 4) &&
        decide (leAt b 0 8 < leAt b 8 8)) =
        decide (leAt b 0x14 1 = leAt b 0x15 1 ∧ leAt b 0 8 < leAt b 8 8 ∧ leAt b 8 8 < leAt b 0 8 + leAt b 0x10 4) := by
      rw [Bool.eq_iff_iff]
      simp only [overlap, Bool.and_eq_true, beq_iff_eq, decide_eq_true_eq]
      omega
    rw [hdesc] at hp
    exact h.transfer_begin hc h8 hle hb hp (List.cons_ne_nil _ _)
  case refine_2 =>
    have hp := xferPlan_valid hs hd h0 h18 (by rw [hn]; exact hsrc) (by rw [hn]; exact hdst)
    rw [if_pos hn, hn] at hp
    exact h.transfer_nothing hc h8 hle hb hp rfl
  case refine_3 =>
    subst hnp hm hel hdir
    have hok : ShufOk b := ⟨hs, hd, h0, hp, he, hd2, h1b, hcount, hn, hsrc, hdst⟩
    have hplan := hok.plan
    rw [if_neg (by rw [hok.clash_iff, ShufClash]; omega)] at hplan
    exact h.transfer_begin hc h8 hle hb hplan hok.moves_ne
  case refine_4 =>
    have hok : ShufOk b := ⟨hs, hd, h0, hp, he, hdir, h1b, hcount, hn, hsrc, hdst⟩
    have hplan := hok.plan
    rw [if_pos (hok.clash_iff.2 hclash)] at hplan
    exact h.transfer_halt hc h8 hle hb hm hplan (by decide)
  case refine_5 =>
    subst htb hmode
    exact h.transfer_begin hc h8 hle hb (xferxPlan_valid hs hd h0 hn htb64 hmode2 h1a h1c) (List.cons_ne_nil _ _)

end Sys2Proof.Machine
end

section
/-! SUPPORT. O39: LOOP and WAIT (R246, R251). -/

namespace Sys2Proof.Machine

theorem Eng.set_kept (x : Eng) (rd : BitVec 4) (v : Word) : (x.set rd v).cyc = x.cyc ∧ (x.set rd v).setup = x.setup ∧ (x.set rd v).pc = x.pc := by
  unfold Eng.set
  split <;> exact ⟨rfl, rfl, rfl⟩

/-- A script goes to `pc` after any change of its engine: nothing counts its cycles (R246). -/
theorem State.script_goto (s : State) (c : ScriptId) (f : Eng → Eng) (pc n : Nat) :
    s.OnlyEng ((s.updEng (scriptEng c) f).goto (scriptEng c) pc n) (scriptEng c) ((f (s.eng (scriptEng c))).went pc n) := by
  rw [State.goto_eq, State.updEng_updEng, State.charge_within (.inl (engKind_scriptEng c))]
  exact s.onlyEng_used (scriptEng c) _ _

/-! ### LOOP -/

section
variable {s : State} {c : ScriptId} {f : ZscFields} (h : s.Takes (scriptEng c) 2 { rd := true, imm := decide (f.imm.toNat < 65536) } f)
  (hc : (s.eng (scriptEng c)).condTrue f.cond = true)
include h hc

/-- LOOP of 0 or 1 ends the loop. -/
theorem State.Takes.loop_ends (hv : ((s.eng (scriptEng c)).get f.rd).toNat ≤ 1) :
    Does (.loop c f) s (fun t => s.OnlyEng t (scriptEng c) (((s.eng (scriptEng c)).set f.rd 0).went ((s.eng (scriptEng c)).pc + 1) 1)) := by
  have hzero : (if (s.eng (scriptEng c)).get f.rd = 0 then 0 else (s.eng (scriptEng c)).get f.rd - 1) = 0 := by
    generalize (s.eng (scriptEng c)).get f.rd = v at hv
    split_ifs with h0
    · rfl
    · have h1 : v = 1 := BitVec.eq_of_toNat_eq (by have := mt BitVec.toNat_inj.1 h0; simp at this ⊢; omega)
      rw [h1]
      rfl
  refine ⟨_, rfl, ?_⟩
  rw [h.instr, if_pos hc]
  dsimp only
  rw [hzero, if_pos rfl]
  obtain ⟨hcyc, hset, hpc⟩ := (s.eng (scriptEng c)).set_kept f.rd 0
  exact h.1.advance (f := fun x => x.set f.rd 0) (Nat.le_succ 1) hcyc hset hpc

/-- LOOP of more counts down and goes to its target, if that is within the script. -/
theorem State.Takes.loop_goes (hv : 2 ≤ ((s.eng (scriptEng c)).get f.rd).toNat) :
    exec (.loop c f) s = .next (if s.scriptLen (scriptEng c) ≤ f.imm.toNat % 65536 then s.trap (scriptEng c) 2 (f.imm.toNat % 65536)
      else (s.updEng (scriptEng c) (fun x => x.set f.rd ((s.eng (scriptEng c)).get f.rd - 1))).goto (scriptEng c) (f.imm.toNat % 65536) 2) := by
  have hne : (s.eng (scriptEng c)).get f.rd ≠ 0 := fun h0 => by rw [h0] at hv; exact absurd hv (by decide)
  have hsub : (s.eng (scriptEng c)).get f.rd - 1 ≠ 0 := by
    generalize (s.eng (scriptEng c)).get f.rd = v at hv
    intro h0
    have := v.isLt
    have h1 := congrArg BitVec.toNat h0
    rw [BitVec.toNat_sub] at h1
    simp at h1
    omega
  refine congrArg Host.Outcome.next ?_
  rw [h.instr, if_pos hc]
  dsimp only
  rw [if_neg hne, if_neg hsub]

end

theorem State.scriptLen_scriptEng (s : State) (c : ScriptId) : s.scriptLen (scriptEng c) = (s.script c).len := by
  unfold State.scriptLen
  rw [scriptOf_scriptEng]

/-! ### WAIT -/

/-- A script that goes on after a WAIT. -/
def ScriptSt.resumed (y : ScriptSt) : ScriptSt := { y with st := .running, wait := none }

/-- The engine of a script that goes on after a WAIT. -/
def Eng.resumed (x : Eng) (z : Bool) : Eng := { x with run := .running, z := z, n := false, c := false, v := false }

/-- The script after its WAIT: it runs, its cycles those of the wait (R246), Z as given. -/
theorem State.resume_leaves {s : State} {c : ScriptId} {w : WaitSt} (hw : (s.script c).wait = some w) (z : Bool) :
    let t := s.resume c z
    t = { s with scripts := t.scripts, engs := t.engs } ∧ (∀ d : ScriptId, d ≠ c → t.script d = s.script d) ∧
      (∀ e : EngId, e ≠ scriptEng c → t.eng e = s.eng e) ∧ t.script c = { s.script c with st := .running, wait := none, fetched := none } ∧
      t.eng (scriptEng c) = { ((s.eng (scriptEng c)).went ((s.eng (scriptEng c)).pc + 1) (2 + (s.now - w.start))) with
        run := .running, z := z, n := false, c := false, v := false } := by
  have hgo := (s.updScript c ScriptSt.resumed).script_goto c (Eng.resumed · z) ((s.eng (scriptEng c)).pc + 1) (2 + (s.now - w.start))
  have hpc : (((s.updScript c ScriptSt.resumed).updEng (scriptEng c) (Eng.resumed · z)).eng (scriptEng c)).pc = (s.eng (scriptEng c)).pc :=
    (congrArg Eng.pc (State.updEng_same (s.updScript c ScriptSt.resumed) (scriptEng c) (Eng.resumed · z)) :)
  have heq : s.resume c z = ((s.updScript c ScriptSt.resumed).updEng (scriptEng c) (Eng.resumed · z)).advance (scriptEng c)
      (2 + (s.now - w.start)) := by
    unfold State.resume
    rw [hw]
    rfl
  rw [State.advance, hpc] at heq
  rw [heq]
  obtain ⟨hsame, hne, hframe, hscripts⟩ := hgo
  refine ⟨hframe, fun d hd => ?_, hne, ?_, hsame⟩
  · rw [hscripts, if_neg fun hx => hd (by rw [hx.2, scriptOf_scriptEng]), State.updScript_ne _ _ hd]
  · rw [hscripts, if_pos ⟨engKind_scriptEng c, (scriptOf_scriptEng c).symm⟩, State.updScript_same]
    rfl

/-- WAIT of a source, a port or a group suspends the script (R251). -/
theorem State.Takes.wait {s : State} {c : ScriptId} {f : ZscFields} (h : s.Takes (scriptEng c) 2 { rb := true, imm := true, ext := 3 } f)
    (hc : (s.eng (scriptEng c)).condTrue f.cond = true) (hk : f.ext.toNat % 4 ≠ 3) :
    Does (.wait c f) s (fun t => t = { s with scripts := t.scripts, engs := t.engs } ∧ (∀ d : ScriptId, d ≠ c → t.script d = s.script d) ∧
      (∀ e : EngId, e ≠ scriptEng c → t.eng e = s.eng e) ∧ t.eng (scriptEng c) = { s.eng (scriptEng c) with run := .waiting } ∧
      (let us := ((s.eng (scriptEng c)).get f.rb).toNat
       t.script c = { s.script c with st := .waiting, wait := some { kind := f.ext.toNat % 4, sel := f.imm.toNat, since := s.waitCount (f.ext.toNat % 4) f.imm.toNat, start := s.now, until_ := if us = 0 then none else some (s.now + 1000 * us) } })) := by
  refine ⟨_, rfl, ?_⟩
  rw [h.instr, if_pos hc]
  dsimp only
  rw [if_neg hk, Nat.mul_comm 1000]
  exact ⟨rfl, fun d hd => (State.updEng_script _ _ _ d).trans (State.updScript_ne s _ hd), fun e he => State.updEng_ne _ _ he, State.updEng_same _ _ _,
    (State.updEng_script _ _ _ c).trans (State.updScript_same s c _)⟩

/-- Settles O39. -/
theorem scriptLoopsAndWaits : Obligations.ScriptLoopsAndWaits := by
  refine ⟨fun c f s h hc => ⟨_, rfl, ?_⟩, fun c f s h hc => ⟨_, rfl, ?_⟩, fun c f s h hc => ⟨_, rfl, ?_⟩,
    fun c f s h hc hv => h.loop_ends hc hv, fun c f s h hc hv hlen => ⟨_, h.loop_goes hc hv, ?_⟩,
    fun c f s h hc hv hlen => ⟨_, h.loop_goes hc hv, ?_⟩, fun c f s h hc hk => h.wait hc hk, fun c f s h hc hk => ⟨_, rfl, ?_⟩,
    fun c s hw => ⟨s, ?_, rfl⟩, fun c s w hw hcount => ⟨s.resume c true, ?_, State.resume_leaves hw true⟩,
    fun c t0 s hw => ⟨s.at t0, ?_, rfl⟩,
    fun c t0 s w u hw hu hle => ⟨(s.at t0).resume c (decide (w.since < s.waitCount w.kind w.sel)), ?_, State.resume_leaves (s := s.at t0) hw _⟩⟩
  case refine_1 | refine_2 | refine_3 =>
    rw [h.instr, if_neg (by simp [hc])]
    exact h.1.skip (Nat.le_refl 1)
  case refine_4 =>
    rw [if_neg (by rw [State.scriptLen_scriptEng]; omega)]
    exact s.script_goto c (fun x => x.set f.rd _) _ 2
  case refine_5 =>
    rw [if_pos (by rw [State.scriptLen_scriptEng]; omega)]
    exact s.trap_trapped _ 2 _
  case refine_6 =>
    rw [h.instr, if_pos hc]
    dsimp only
    rw [if_pos hk]
    exact s.trap_trapped _ 1 _
  case refine_7 =>
    rw [exec_waitResume]
    unfold execWaitResume
    split
    · rfl
    · next w hwait => rw [if_neg (Nat.not_lt.2 (hw w hwait))]
  case refine_8 =>
    rw [exec_waitResume]
    unfold execWaitResume
    rw [hw]
    exact if_pos hcount
  case refine_9 =>
    rw [exec_waitTimeout]
    unfold execWaitTimeout
    dsimp only
    split
    · rfl
    · next w hwait =>
      split
      · rfl
      · next u hu => exact if_neg (Nat.not_le.2 (hw w hwait u hu))
  case refine_10 =>
    have hwait : ((s.at t0).script c).wait = some w := hw
    rw [exec_waitTimeout]
    unfold execWaitTimeout
    dsimp only
    rw [hwait]
    dsimp only
    rw [hu]
    exact if_pos hle

end Sys2Proof.Machine
end

section
/-! SUPPORT. O38: START and ABORT of a script (R239, R240, R242). -/

namespace Sys2Proof.Machine

/-! ### The write of DMA_SC_CTL -/

/-- The description of DMA_SC_CTL. -/
def scCtlDef : RegDef := ⟨Off.DMA_SC_CTL, 0, 1, 0, 1, .chan, 0, 0x0, 0x0, 0x0, 0x0, 0x0, 0x3, 0x0⟩

theorem regDef_scCtl : regDef Off.DMA_SC_CTL = some scCtlDef := by decide +kernel

/-- What a write of DMA_SC_CTL does: ABORT, and then START. -/
def State.scCtl (s : State) (cx : CtxId) (c : ScriptId) (abort start : Bool) : State :=
  let s1 := if abort then s.scAbort c else s
  if start then s1.scStart c cx else s1

theorem State.act_scCtl (s : State) (cx : CtxId) (n v : Nat) :
    s.act cx scCtlDef n Off.DMA_SC_CTL v = s.scCtl cx ⟨n % 16, Nat.mod_lt _ (by decide)⟩ (bitN v 1) (bitN v 0) := rfl

theorem State.reach_scCtl {s : State} {cx : CtxId} {n : Nat} (hc : (s.ctxs[cx]).selChan.toNat = n) (hlo : 64 ≤ n) (hhi : n < 80) :
    s.reach cx Off.DMA_SC_CTL = some (scCtlDef, n) := by
  refine State.reach_of regDef_scCtl ?_
  rw [← hc]
  exact Ctx.unitKey_chan rfl (by omega) ⟨fun h => absurd h (by decide), fun h => by omega⟩

theorem State.busWrite_scCtl {s : State} {cx : CtxId} {c : ScriptId} (h : s.Serves cx Off.DMA_SC_CTL true)
    (hc : (s.ctxs[cx]).selChan.toNat = 64 + c.val) (h15 : c ≠ 15) (v : Word) :
    s.busWrite cx Off.DMA_SC_CTL 4 v.toNat = s.scCtl cx c (v.getLsbD 1) (v.getLsbD 0) := by
  have hcl := c.isLt
  have hne : c.val ≠ 15 := fun hx => h15 (Fin.ext hx)
  have hreach := State.reach_scCtl hc (by omega) (by omega)
  have hlock : lockedSc scCtlDef (64 + c.val) = false := by
    have : ¬(64 + c.val = 79) := by omega
    simp [lockedSc, this]
  rw [State.busWrite_word h (by decide) (by decide) hreach hlock rfl rfl, if_neg (by decide), Nat.mod_eq_of_lt v.isLt]
  have hid : (⟨(64 + c.val) % 16, Nat.mod_lt _ (by decide)⟩ : ScriptId) = c := Fin.ext (by simp only; omega)
  have hnote (t : State) : s.noteWrite t cx scCtlDef (64 + c.val) Off.DMA_SC_CTL v.toNat = t := by
    unfold State.noteWrite
    exact if_neg fun hx => absurd hx.2.1 (by decide)
  have hadj : s.adjust scCtlDef (64 + c.val) Off.DMA_SC_CTL v.toNat = v.toNat := rfl
  rw [hadj, hnote, State.act_scCtl, hid]
  rfl

/-- DMA_SC_CTL of SC15 is management's (R242). -/
theorem State.busWrite_scCtl_locked {s : State} {cx : CtxId} (h : s.Serves cx Off.DMA_SC_CTL true)
    (hc : (s.ctxs[cx]).selChan.toNat = 79) (v : Nat) : s.busWrite cx Off.DMA_SC_CTL 4 v = s.badAccess cx Off.DMA_SC_CTL := by
  rw [State.busWrite_register h (by decide) (by decide)]
  unfold State.regWrite
  rw [State.reach_scCtl hc (by decide) (by decide)]
  rfl

/-! ### START and ABORT -/

/-- A script that START begins (R239). -/
theorem State.scStart_begins {s : State} {c : ScriptId} (h : (s.script c).st = .idle ∨ (s.script c).st = .halted) (cx : CtxId) :
    let t := s.scStart c cx
    t = { s with scripts := t.scripts, engs := t.engs } ∧ (∀ d : ScriptId, d ≠ c → t.script d = s.script d) ∧
      (∀ e : EngId, e ≠ scriptEng c → t.eng e = s.eng e) ∧
      t.script c = { s.script c with st := .running, ctx := cx.val, code := s.rf (scSel c) Off.DMA_SC_CFG 0 0, retry := s.rf (scSel c) Off.DMA_SC_CFG 19 16, base := s.pair (scSel c) Off.DMA_SC_BASE_LO, len := max (s.rf (scSel c) Off.DMA_SC_LEN 16 0) 1, fetched := none, wait := none, xfer := none, tries := 0, aborting := false, moved := 0 } ∧
      (∀ i : Fin 16, (t.eng (scriptEng c)).g[i] = if 1 ≤ i.val ∧ i.val ≤ 4 then BitVec.ofNat 32 (s.eff (scSel c) (Off.DMA_SC_ARG + 4 * (i.val - 1))) else 0) ∧
      t.eng (scriptEng c) = { s.eng (scriptEng c) with g := (t.eng (scriptEng c)).g, lc := Vector.replicate 4 0, z := false, n := false, c := false, v := false, link := [], pc := 0, run := .running, cyc := 0 } := by
  dsimp only
  unfold State.scStart
  rw [if_neg (by rcases h with h | h <;> simp [h])]
  refine ⟨rfl, fun d hd => (State.updEng_script _ _ _ d).trans (State.updScript_ne s _ hd), fun e he => State.updEng_ne _ _ he,
    (State.updEng_script _ _ _ c).trans (State.updScript_same s c _), fun i => ?_, ?_⟩
  · rw [State.updEng_same]
    fin_cases i <;> rfl
  · rw [State.updEng_same]
    rfl

theorem State.scStart_ignored {s : State} {c : ScriptId} (h : (s.script c).st ≠ .idle ∧ (s.script c).st ≠ .halted) (cx : CtxId) :
    s.scStart c cx = s := if_pos h

theorem State.scAbort_ignored {s : State} {c : ScriptId} (h : (s.script c).st ≠ .running ∧ (s.script c).st ≠ .waiting) :
    s.scAbort c = s := if_pos h

/-- ABORT halts a script that moves nothing at once (R240). -/
theorem State.scAbort_halts {s : State} {c : ScriptId} (h : (s.script c).st = .running ∨ (s.script c).st = .waiting)
    (hx : (s.script c).xfer = none) : s.scAbort c = s.scriptHalt c 1 := by
  unfold State.scAbort
  rw [if_neg (by rcases h with h | h <;> simp [h]), hx]
  rfl

/-- ABORT of a script in a transfer waits for its next access boundary (R240). -/
theorem State.scAbort_waits {s : State} {c : ScriptId} (h : (s.script c).st = .running ∨ (s.script c).st = .waiting) {x : XferSt}
    (hx : (s.script c).xfer = some x) : s.scAbort c = s.updScript c (fun y => { y with aborting := true }) := by
  unfold State.scAbort
  rw [if_neg (by rcases h with h | h <;> simp [h]), hx]
  rfl

/-- ABORT takes no context its rights, nor the device its reference. -/
theorem State.scAbort_serves {s : State} {cx : CtxId} {off : Nat} (h : s.Serves cx off true) (c : ScriptId) :
    (s.scAbort c).Serves cx off true ∧ (s.scAbort c).ctxs = s.ctxs := by
  by_cases hst : (s.script c).st = .running ∨ (s.script c).st = .waiting
  · cases hx : (s.script c).xfer with
    | some x =>
      rw [State.scAbort_waits hst hx]
      exact ⟨h, rfl⟩
    | none =>
      have hh := State.scriptHalt_halted hx 1
      have hctxs : (s.scriptHalt c 1).ctxs = s.ctxs := (congrArg State.ctxs hh.events.1 :)
      have hcell : (s.scriptHalt c 1).cell 0 Off.CLK_REF_STAT = s.cell 0 Off.CLK_REF_STAT :=
        hh.regs _ (List.not_mem_cons_of_ne_of_not_mem (rkey_ne_of_off (by decide) (by decide) (by decide)) (by decide))
      have href : (s.scriptHalt c 1).refSel = s.refSel := congrArg (fun x : RegCell => fld x.force.toNat 1 0) hcell
      rw [State.scAbort_halts hst hx]
      refine ⟨⟨by rw [href]; exact h.1, ?_⟩, hctxs⟩
      rw [hctxs]
      exact h.2
  · rw [State.scAbort_ignored (not_or.1 hst)]
    exact ⟨h, rfl⟩

end Sys2Proof.Machine
end

section
/-! SUPPORT. O38: the fetch of a script's instruction (R241, R244, R255). -/

namespace Sys2Proof.Machine

/-! ### An instruction of the script store -/

/-- A byte of the script store in the device map (Table 9.1). -/
theorem scLoc_store (c : ScriptId) {a : Nat} (h : a < 65536) : scLoc c 1 (0x3000000 + a) = some (.store (a / 4)) := by
  have hsub : 0x3000000 + a - 0x3000000 = a := Nat.add_sub_cancel_left _ _
  unfold scLoc mapLoc
  simp only [if_true, hsub]
  rw [if_neg (by omega), if_neg (by omega), if_neg (by omega), if_neg (by omega), if_neg (by omega), if_neg (by omega), if_neg (by omega),
    if_pos (by omega)]

/-- The bytes of a word spell it. -/
theorem bytes_of_word (w : Word) :
    (byteOf w.toNat 0).toNat + 256 * ((byteOf w.toNat 1).toNat + 256 * ((byteOf w.toNat 2).toNat + 256 * (byteOf w.toNat 3).toNat)) = w.toNat := by
  have := w.isLt
  simp only [byteOf, BitVec.toNat_ofNat, Nat.reduceMod, Nat.reduceMul, Nat.reducePow]
  omega

theorem byteOf_mod (v : Nat) {i j : Nat} (h : i % 4 = j % 4) : byteOf v i = byteOf v j := by
  unfold byteOf
  rw [h]

/-- The instruction at a word-aligned place of the script store: two words, the lower first. -/
theorem State.scRead_store (s : State) (c : ScriptId) {fa : Nat} (h4 : fa % 4 = 0) (hfa : fa + 8 ≤ 65536) :
    BitVec.ofNat 64 (leAt (s.scRead c 1 (0x3000000 + fa) 8) 0 8) =
      mget (fun _ => (0 : Word)) s.store (fa / 4 + 1) ++ mget (fun _ => (0 : Word)) s.store (fa / 4) := by
  have hbyte (i : Nat) (hi : i < 8) : (match scLoc c 1 (0x3000000 + fa + i) with
      | some l => byteOf (s.memRead l) (0x3000000 + fa + i)
      | none => 0) = byteOf (mget (fun _ => (0 : Word)) s.store (fa / 4 + i / 4)).toNat (i % 4) := by
    rw [Nat.add_assoc, scLoc_store c (by omega), show (fa + i) / 4 = fa / 4 + i / 4 by omega]
    exact byteOf_mod _ (by omega)
  have hread : s.scRead c 1 (0x3000000 + fa) 8 =
      (List.range 8).map (fun i => byteOf (mget (fun _ => (0 : Word)) s.store (fa / 4 + i / 4)).toNat (i % 4)) :=
    List.map_congr_left fun i hi => hbyte i (List.mem_range.1 hi)
  have h0 := bytes_of_word (mget (fun _ => (0 : Word)) s.store (fa / 4))
  have h1 := bytes_of_word (mget (fun _ => (0 : Word)) s.store (fa / 4 + 1))
  have hlt0 := (mget (fun _ => (0 : Word)) s.store (fa / 4)).isLt
  have hlt1 := (mget (fun _ => (0 : Word)) s.store (fa / 4 + 1)).isLt
  rw [hread]
  apply BitVec.eq_of_toNat_eq
  rw [BitVec.toNat_append, BitVec.toNat_ofNat, ← Nat.shiftLeft_add_eq_or_of_lt hlt0, Nat.shiftLeft_eq]
  simp only [leAt, List.range, List.range.loop, List.map, List.drop, List.take, leNat, Nat.reduceDiv, Nat.reduceMod, Nat.add_zero]
  omega

/-! ### The fetch -/

/-- A fetch is due, of an instruction within the script (R241). -/
def State.Fetches (s : State) (c : ScriptId) : Prop :=
  (s.script c).st = .running ∧ (s.script c).xfer = none ∧ (s.script c).fetched = none ∧ ((s.script c).code ≠ 0 ∨ s.link.d3hot = false)

/-- No fetch is due. -/
theorem State.scriptFetch_idle {s : State} {c : ScriptId} (ok : Bool) (w : DWord)
    (h : (s.script c).st ≠ .running ∨ (s.script c).xfer ≠ none ∨ (s.script c).fetched ≠ none ∨ ((s.script c).code = 0 ∧ s.link.d3hot = true)) :
    exec (.scriptFetch c ok w) s = .next s := by
  refine if_pos ?_
  simpa [Option.isSome_iff_ne_none] using h

theorem State.Fetches.not_idle {s : State} {c : ScriptId} (h : s.Fetches c) :
    ¬((s.script c).st ≠ .running ∨ (s.script c).xfer.isSome ∨ (s.script c).fetched.isSome ∨ ((s.script c).code = 0 ∧ s.link.d3hot)) := by
  obtain ⟨hst, hx, hf, hd⟩ := h
  rcases hd with hd | hd <;> simp [hst, hx, hf, hd]

/-- An index beyond the script's length traps (R70). -/
theorem State.Fetches.beyond {s : State} {c : ScriptId} (h : s.Fetches c) (hlen : (s.script c).len ≤ (s.eng (scriptEng c)).pc) (ok : Bool)
    (w : DWord) : exec (.scriptFetch c ok w) s = .next (s.trap (scriptEng c) 2 (s.eng (scriptEng c)).pc) :=
  (if_neg h.not_idle).trans (if_pos hlen)

/-- A fetch whose place its checks refuse halts the script (R244). -/
theorem State.Fetches.refused {s : State} {c : ScriptId} (h : s.Fetches c) (hlen : (s.eng (scriptEng c)).pc < (s.script c).len) {cause : Nat}
    (hchk : s.scCheck c (s.fetchAt c).1 (s.fetchAt c).2 8 false = some cause) (ok : Bool) (w : DWord) :
    exec (.scriptFetch c ok w) s = .next (s.scHaltCheck c cause (s.fetchAt c).2) := by
  refine ((if_neg h.not_idle).trans (if_neg (Nat.not_le.2 hlen))).trans ?_
  dsimp only
  rw [hchk]

/-- The state after the read of an instruction. -/
def State.fetchRead (s : State) (c : ScriptId) : State := if (s.script c).code = 0 then s.hostRead (s.fetchAt c).2 8 else s

/-- The instruction that a fetch gives: that of host memory, or what the script store holds. -/
def State.fetchWord (s : State) (c : ScriptId) (w : DWord) : DWord :=
  if (s.script c).code = 0 then w else BitVec.ofNat 64 (leAt (s.scRead c 1 (s.fetchAt c).2 8) 0 8)

theorem State.Fetches.done {s : State} {c : ScriptId} (h : s.Fetches c) (hlen : (s.eng (scriptEng c)).pc < (s.script c).len)
    (hchk : s.scCheck c (s.fetchAt c).1 (s.fetchAt c).2 8 false = none) (w : DWord) :
    exec (.scriptFetch c true w) s =
      .next ((s.fetchRead c).updScript c (fun y => { y with fetched := some (s.fetchWord c w), tries := 0 })) := by
  refine ((if_neg h.not_idle).trans (if_neg (Nat.not_le.2 hlen))).trans ?_
  dsimp only
  rw [hchk]
  rfl

theorem State.Fetches.failed {s : State} {c : ScriptId} (h : s.Fetches c) (hlen : (s.eng (scriptEng c)).pc < (s.script c).len)
    (hchk : s.scCheck c (s.fetchAt c).1 (s.fetchAt c).2 8 false = none) (w : DWord) :
    exec (.scriptFetch c false w) s =
      .next ((s.fetchRead c).scFail c (s.fetchAt c).1 1 (s.fetchAt c).2 (s.script c).tries
        (fun t => t.updScript c (fun y => { y with tries := y.tries + 1 }))) := by
  refine ((if_neg h.not_idle).trans (if_neg (Nat.not_le.2 hlen))).trans ?_
  dsimp only
  rw [hchk]
  rfl

/-- Host memory has no check (R244). -/
theorem State.scCheck_host (s : State) (c : ScriptId) (a n : Nat) (wr : Bool) : s.scCheck c 0 a n wr = none := rfl

theorem State.fetchAt_host {s : State} {c : ScriptId} (h : (s.script c).code = 0) :
    s.fetchAt c = (0, (s.script c).base + 8 * (s.eng (scriptEng c)).pc) := if_pos h

theorem State.fetchAt_store {s : State} {c : ScriptId} (h : (s.script c).code ≠ 0) :
    s.fetchAt c = (1, 0x3000000 + ((s.script c).base + 8 * (s.eng (scriptEng c)).pc)) := if_neg h

/-- A read of host memory that fails is tried again, or halts the script with BUS_ERROR (R255). -/
theorem State.scFail_host (s : State) (c : ScriptId) (kind addr tries : Nat) (again : State → State) :
    s.scFail c 0 kind addr tries again =
      if tries < (s.script c).retry then again s
      else ((s.setReg (scSel c) Off.DMA_SC_FAULT (2 ^ 31 + (tries + 1) % 16 * 2 ^ 8 + kind * 2 ^ 4 + 0)).setPair (scSel c)
        Off.DMA_SC_FAULT_ADDR_LO (addr % 2 ^ 64)).scriptHalt c 4 := rfl

/-- A pair that the device sets. -/
theorem State.pair_setPair {s : State} (h : s.MemOk) (u : Nat) {off : Nat} (v : Nat) : (s.setPair u off v).pair u off = v % 2 ^ 64 := by
  have hlo := State.eff_setReg h u off (v % 2 ^ 32)
  have hhi := State.eff_setReg (State.setReg_memOk h u off (v % 2 ^ 32)) u (off + 4) (v / 2 ^ 32 % 2 ^ 32)
  have hkeep : (s.setPair u off v).eff u off = (s.setReg u off (v % 2 ^ 32)).eff u off :=
    congrArg (fun c : RegCell => c.force.toNat) (State.cell_setReg_ne (by unfold rkey; omega) _)
  unfold State.pair
  rw [hkeep, hlo]
  unfold State.setPair
  rw [hhi]
  omega

end Sys2Proof.Machine
end

section
/-! SUPPORT. O38: the clauses of START, ABORT and the fetch. -/

namespace Sys2Proof.Machine

/-- What the ABORT of a script that moves nothing leaves (R240). -/
def State.AbortedNow (s t : State) (c : ScriptId) : Prop :=
  (t.script c).st = .halted ∧ (t.script c).cause = 1 ∧ (t.script c).wait = none ∧ (t.script c).fetched = none ∧
    (t.eng (scriptEng c)).pc = (s.eng (scriptEng c)).pc ∧ t.raisings (scriptSrc c.val 1) = s.raisings (scriptSrc c.val 1) + 1 ∧
    t.eff (scSel c) Off.DMA_SC_XFER_DONE = 0 ∧ s.SameRegs t (rkey (scSel c) Off.DMA_SC_XFER_DONE :: injKeys) ∧
    (∀ d : ScriptId, d ≠ c → t.script d = s.script d) ∧ (∀ e : EngId, e ≠ scriptEng c → t.eng e = s.eng e) ∧
    { s with scripts := t.scripts, engs := t.engs, regs := t.regs }.EventsOnly t [scriptSrc c.val 1]

theorem State.ScriptHalted.abortedNow {s t : State} {c : ScriptId} (h : s.ScriptHalted t c 1) (hm : s.MemOk) : s.AbortedNow t c := by
  have heng := h.eng
  refine ⟨?_, ?_, ?_, ?_, ?_, h.raised, h.done hm, h.regs, h.scripts, h.engs, h.events⟩
  · rw [h.script]; rfl
  · rw [h.script]; rfl
  · rw [h.script]; rfl
  · rw [h.script]; rfl
  · rw [heng]

/-! ### One write of DMA_SC_CTL -/

section
variable {s : State} {cx : CtxId} {v : Word} {c : ScriptId} (h : s.Serves cx Off.DMA_SC_CTL true)
  (hc : (s.ctxs[cx]).selChan.toNat = 64 + c.val) (h15 : c ≠ 15)
include h hc h15

/-- START alone. -/
theorem State.busWrite_start (h0 : v.getLsbD 0 = true) (h1 : v.getLsbD 1 = false) :
    s.busWrite cx Off.DMA_SC_CTL 4 v.toNat = s.scStart c cx := by
  rw [State.busWrite_scCtl h hc h15, h0, h1]
  rfl

/-- ABORT alone. -/
theorem State.busWrite_abort (h0 : v.getLsbD 0 = false) (h1 : v.getLsbD 1 = true) :
    s.busWrite cx Off.DMA_SC_CTL 4 v.toNat = s.scAbort c := by
  rw [State.busWrite_scCtl h hc h15, h0, h1]
  rfl

/-- A START or an ABORT that the script's state ignores, or neither. -/
theorem State.busWrite_scCtl_ignored (h0 : v.getLsbD 0 = false ∨ ((s.script c).st ≠ .idle ∧ (s.script c).st ≠ .halted))
    (h1 : v.getLsbD 1 = false ∨ ((s.script c).st ≠ .running ∧ (s.script c).st ≠ .waiting)) :
    s.busWrite cx Off.DMA_SC_CTL 4 v.toNat = s := by
  have habort : (if v.getLsbD 1 then s.scAbort c else s) = s := by
    rcases h1 with h1 | h1
    · rw [h1, if_neg Bool.false_ne_true]
    · rw [State.scAbort_ignored h1, ite_self]
  rw [State.busWrite_scCtl h hc h15, State.scCtl, habort]
  rcases h0 with h0 | h0
  · rw [h0, if_neg Bool.false_ne_true]
  · rw [State.scStart_ignored h0, ite_self]

/-- Both bits in one write are an ABORT and then a START. -/
theorem State.busWrite_both (h0 : v.getLsbD 0 = true) (h1 : v.getLsbD 1 = true) :
    ((s.busWrite cx Off.DMA_SC_CTL 4 (2 : Word).toNat).busWrite cx Off.DMA_SC_CTL 4 (1 : Word).toNat) =
      s.busWrite cx Off.DMA_SC_CTL 4 v.toNat := by
  obtain ⟨hserves, hctxs⟩ := State.scAbort_serves h c
  rw [State.busWrite_abort h hc h15 rfl rfl, State.busWrite_start hserves (by rw [hctxs]; exact hc) h15 rfl rfl, State.busWrite_scCtl h hc h15,
    h0, h1]
  rfl

/-- ABORT of a script that moves nothing. -/
theorem State.busWrite_abort_now (hm : s.MemOk) (h0 : v.getLsbD 0 = false) (h1 : v.getLsbD 1 = true)
    (hst : (s.script c).st = .running ∨ (s.script c).st = .waiting) (hx : (s.script c).xfer = none) :
    s.AbortedNow (s.busWrite cx Off.DMA_SC_CTL 4 v.toNat) c := by
  rw [State.busWrite_abort h hc h15 h0 h1, State.scAbort_halts hst hx]
  exact (State.scriptHalt_halted hx 1).abortedNow hm

/-- ABORT of a script in a transfer. -/
theorem State.busWrite_abort_later {x : XferSt} (h0 : v.getLsbD 0 = false) (h1 : v.getLsbD 1 = true)
    (hst : (s.script c).st = .running ∨ (s.script c).st = .waiting) (hx : (s.script c).xfer = some x) :
    let t := s.busWrite cx Off.DMA_SC_CTL 4 v.toNat
    t = { s with scripts := t.scripts } ∧ (∀ d : ScriptId, d ≠ c → t.script d = s.script d) ∧
      t.script c = { s.script c with aborting := true } := by
  rw [State.busWrite_abort h hc h15 h0 h1, State.scAbort_waits hst hx]
  exact ⟨rfl, fun d hd => State.updScript_ne s _ hd, State.updScript_same s c _⟩

end

/-- A write of DMA_SC_CTL of SC15 is a bad access (R242). -/
theorem State.busWrite_locked_events {s : State} {cx : CtxId} (hm : s.MemOk) (h : s.Serves cx Off.DMA_SC_CTL true)
    (hc : (s.ctxs[cx]).selChan.toNat = 79) (v : Nat) :
    let t := s.busWrite cx Off.DMA_SC_CTL 4 v
    { s with jrnl := t.jrnl }.EventsOnly t [mgtSrc (5 * cx.val + 3)] ∧
      t.raisings (mgtSrc (5 * cx.val + 3)) = s.raisings (mgtSrc (5 * cx.val + 3)) + 1 := by
  have hdata : s.rdata = (s.badAccess cx Off.DMA_SC_CTL).rdata := (State.raise_rdata _ _ _).symm
  have hsame : { s.badAccess cx Off.DMA_SC_CTL with rdata := s.rdata } = s.badAccess cx Off.DMA_SC_CTL :=
    congrArg (fun d => { s.badAccess cx Off.DMA_SC_CTL with rdata := d }) hdata
  have he := State.badAccess_eventsOnly s cx Off.DMA_SC_CTL s.rdata
  rw [hsame] at he
  rw [State.busWrite_scCtl_locked h hc]
  exact ⟨he, State.badAccess_raisings hm cx _⟩

/-! ### The clauses of the fetch -/

theorem State.fetchRead_frame (s : State) (c : ScriptId) : s.fetchRead c = { s with bus := (s.fetchRead c).bus } := by
  unfold State.fetchRead
  split <;> rfl

/-- A fetch that succeeds. -/
theorem State.Fetches.fetched {s : State} {c : ScriptId} {fa : Nat} (h : s.Fetches c) (hlen : (s.eng (scriptEng c)).pc < (s.script c).len)
    (hfa : fa = (s.script c).base + 8 * (s.eng (scriptEng c)).pc)
    (hplace : (s.script c).code = 0 ∨ (fa % 4 = 0 ∧ s.scCheck c 1 (0x3000000 + fa) 8 false = none ∧ fa + 8 ≤ 65536)) (w : DWord) :
    Does (.scriptFetch c true w) s (fun t => t = { s with scripts := t.scripts, bus := t.bus } ∧ (∀ d : ScriptId, d ≠ c → t.script d = s.script d) ∧
      t.bus = (if (s.script c).code = 0 then (s.hostRead fa 8).bus else s.bus) ∧
      (let word (k : Nat) : Word := mget (fun _ => 0) s.store k
       t.script c = { s.script c with tries := 0, fetched := some (if (s.script c).code = 0 then w else word (fa / 4 + 1) ++ word (fa / 4)) })) := by
  subst hfa
  have hframe := s.fetchRead_frame c
  have hscript (d : ScriptId) : (s.fetchRead c).script d = s.script d := State.script_congr (congrArg State.scripts hframe :) d
  have hdone : s.scCheck c (s.fetchAt c).1 (s.fetchAt c).2 8 false = none ∧
      (s.fetchRead c).bus = (if (s.script c).code = 0 then (s.hostRead ((s.script c).base + 8 * (s.eng (scriptEng c)).pc) 8).bus else s.bus) ∧
      s.fetchWord c w = (if (s.script c).code = 0 then w else
        mget (fun _ => (0 : Word)) s.store (((s.script c).base + 8 * (s.eng (scriptEng c)).pc) / 4 + 1) ++
          mget (fun _ => (0 : Word)) s.store (((s.script c).base + 8 * (s.eng (scriptEng c)).pc) / 4)) := by
    unfold State.fetchRead State.fetchWord
    by_cases hcode : (s.script c).code = 0
    · rw [State.fetchAt_host hcode]
      simp only [hcode, if_true]
      exact ⟨s.scCheck_host c _ _ _, trivial, trivial⟩
    · obtain ⟨h4, hchk, hfit⟩ := hplace.resolve_left hcode
      rw [State.fetchAt_store hcode]
      simp only [hcode, if_false]
      exact ⟨hchk, trivial, s.scRead_store c h4 hfit⟩
  obtain ⟨hchk, hbus, hword⟩ := hdone
  refine ⟨_, h.done hlen hchk w, ?_, fun d hd => (State.updScript_ne _ _ hd).trans (hscript d), hbus, ?_⟩
  · rw [hframe]
    rfl
  · rw [State.updScript_same, hscript, hword]

/-- From `s` to `t` script `c` halts with `cause`, and reports it. -/
def State.FetchHalts (s t : State) (c : ScriptId) (cause : Nat) : Prop :=
  (t.script c).st = .halted ∧ (t.script c).cause = cause ∧ (t.script c).fetched = none ∧ (∀ d : ScriptId, d ≠ c → t.script d = s.script d) ∧
    (∀ e : EngId, e ≠ scriptEng c → t.eng e = s.eng e) ∧ t.bus = s.bus ∧ t.raisings (scriptSrc c.val 1) = s.raisings (scriptSrc c.val 1) + 1

/-- A halt of a script that moves nothing, whatever the journal. -/
theorem State.scriptHalt_fetchHalts {s u : State} {c : ScriptId} (hu : u = { s with jrnl := u.jrnl })
    (hx : (s.script c).xfer = none) (cause : Nat) : s.FetchHalts (u.scriptHalt c cause) c cause := by
  have hscript (d : ScriptId) : u.script d = s.script d := State.script_congr (congrArg State.scripts hu :) d
  have heng (e : EngId) : u.eng e = s.eng e := State.eng_congr (congrArg State.engs hu :) e
  have hh := State.scriptHalt_halted (s := u) (c := c) (by rw [hscript]; exact hx) cause
  refine ⟨by rw [hh.script]; rfl, by rw [hh.script]; rfl, by rw [hh.script]; rfl, fun d hd => (hh.scripts d hd).trans (hscript d),
    fun e he => (hh.engs e he).trans (heng e), (congrArg State.bus hh.events.1 :).trans (congrArg State.bus hu :), hh.raised.trans ?_⟩
  exact congrArg (mget (fun _ => 0) · _ + 1) (congrArg State.raised hu :)

/-- A fetch of the script store that its checks refuse. -/
theorem State.Fetches.haltedBy {s : State} {c : ScriptId} {fa cause : Nat} (h : s.Fetches c)
    (hlen : (s.eng (scriptEng c)).pc < (s.script c).len) (hfa : fa = (s.script c).base + 8 * (s.eng (scriptEng c)).pc)
    (hcode : (s.script c).code ≠ 0) (hchk : s.scCheck c 1 (0x3000000 + fa) 8 false = some cause) (ok : Bool) (w : DWord) :
    Does (.scriptFetch c ok w) s (s.FetchHalts · c cause) := by
  subst hfa
  have hplace := State.fetchAt_store hcode
  have hexec := h.refused hlen (by rw [hplace]; exact hchk) ok w
  rw [hplace] at hexec
  refine ⟨_, hexec, ?_⟩
  unfold State.scHaltCheck
  split
  · exact State.scriptHalt_fetchHalts rfl h.2.1 cause
  · exact State.scriptHalt_fetchHalts (s := s) rfl h.2.1 cause

/-- A failing read of host memory that is tried again. -/
theorem State.Fetches.again {s : State} {c : ScriptId} (h : s.Fetches c) (hlen : (s.eng (scriptEng c)).pc < (s.script c).len)
    (htries : (s.script c).tries < (s.script c).retry) (hcode : (s.script c).code = 0) (w : DWord) :
    Does (.scriptFetch c false w) s (fun t => t = { s with scripts := t.scripts, bus := t.bus } ∧
      (∀ d : ScriptId, d ≠ c → t.script d = s.script d) ∧ t.script c = { s.script c with tries := (s.script c).tries + 1 }) := by
  have hframe := s.fetchRead_frame c
  have hscript (d : ScriptId) : (s.fetchRead c).script d = s.script d := State.script_congr (congrArg State.scripts hframe :) d
  have hexec := h.failed hlen (by rw [State.fetchAt_host hcode]; exact s.scCheck_host c _ _ _) w
  rw [State.fetchAt_host hcode, State.scFail_host, if_pos (by rw [hscript]; exact htries)] at hexec
  refine ⟨_, hexec, ?_, fun d hd => (State.updScript_ne _ _ hd).trans (hscript d), ?_⟩
  · rw [hframe]
    rfl
  · rw [State.updScript_same, hscript]

/-- A failing read of host memory after its last attempt halts the script with BUS_ERROR. -/
theorem State.Fetches.busError {s : State} {c : ScriptId} (hm : s.MemOk) (h : s.Fetches c) (hlen : (s.eng (scriptEng c)).pc < (s.script c).len)
    (htries : (s.script c).retry ≤ (s.script c).tries) (hcode : (s.script c).code = 0) (w : DWord) :
    Does (.scriptFetch c false w) s (fun t => (t.script c).st = .halted ∧ (t.script c).cause = 4 ∧ (∀ d : ScriptId, d ≠ c → t.script d = s.script d) ∧
      (∀ e : EngId, e ≠ scriptEng c → t.eng e = s.eng e) ∧
      t.eff (scSel c) Off.DMA_SC_FAULT = 2 ^ 31 + ((s.script c).tries + 1) % 16 * 2 ^ 8 + 16 ∧
      t.pair (scSel c) Off.DMA_SC_FAULT_ADDR_LO = ((s.script c).base + 8 * (s.eng (scriptEng c)).pc) % 2 ^ 64 ∧
      t.raisings (scriptSrc c.val 1) = s.raisings (scriptSrc c.val 1) + 1) := by
  have hframe := s.fetchRead_frame c
  have hexec := h.failed hlen (by rw [State.fetchAt_host hcode]; exact s.scCheck_host c _ _ _) w
  have hrm : (s.fetchRead c).MemOk := by
    rw [hframe]
    exact ⟨hm.1, hm.2, hm.3, hm.4, hm.5, hm.6, hm.7, hm.8, hm.9, hm.10⟩
  rw [State.fetchAt_host hcode, State.scFail_host,
    if_neg (by rw [State.script_congr (congrArg State.scripts hframe :)]; exact Nat.not_lt.2 htries)] at hexec
  generalize hv : 2 ^ 31 + ((s.script c).tries + 1) % 16 * 2 ^ 8 + 1 * 2 ^ 4 + 0 = v at hexec
  generalize (s.script c).base + 8 * (s.eng (scriptEng c)).pc = a at hexec ⊢
  generalize s.fetchRead c = r at hexec hframe hrm
  have hrs := State.setReg_memOk hrm (scSel c) Off.DMA_SC_FAULT v
  have hfault := State.eff_setReg hrm (scSel c) Off.DMA_SC_FAULT v
  have hpair := State.pair_setPair hrs (scSel c) (off := Off.DMA_SC_FAULT_ADDR_LO) (a % 2 ^ 64)
  have hkeep : ((r.setReg (scSel c) Off.DMA_SC_FAULT v).setPair (scSel c) Off.DMA_SC_FAULT_ADDR_LO (a % 2 ^ 64)).cell (scSel c) Off.DMA_SC_FAULT =
      (r.setReg (scSel c) Off.DMA_SC_FAULT v).cell (scSel c) Off.DMA_SC_FAULT :=
    (State.cell_setReg_ne (rkey_ne_of_off (by decide) (by decide) (by decide)) _).trans
      (State.cell_setReg_ne (rkey_ne_of_off (by decide) (by decide) (by decide)) _)
  have hu : (r.setReg (scSel c) Off.DMA_SC_FAULT v).setPair (scSel c) Off.DMA_SC_FAULT_ADDR_LO (a % 2 ^ 64) =
      { r with regs := ((r.setReg (scSel c) Off.DMA_SC_FAULT v).setPair (scSel c) Off.DMA_SC_FAULT_ADDR_LO (a % 2 ^ 64)).regs } := rfl
  generalize (r.setReg (scSel c) Off.DMA_SC_FAULT v).setPair (scSel c) Off.DMA_SC_FAULT_ADDR_LO (a % 2 ^ 64) = u at *
  have hus : u = { s with bus := u.bus, regs := u.regs } := by rw [hu, hframe]
  have hscript (d : ScriptId) : u.script d = s.script d := State.script_congr (congrArg State.scripts hus :) d
  have heng (e : EngId) : u.eng e = s.eng e := State.eng_congr (congrArg State.engs hus :) e
  have hh := State.scriptHalt_halted (s := u) (c := c) (by rw [hscript]; exact h.2.1) 4
  have hcell {off : Nat} (ho : off < 0x120000) (hne : off ≠ Off.DMA_SC_XFER_DONE) :
      (u.scriptHalt c 4).cell (scSel c) off = u.cell (scSel c) off :=
    hh.regs _ (List.not_mem_cons_of_ne_of_not_mem (rkey_ne_of_off (by omega) (by decide) hne) (rkey_not_mem_injKeys _ ho))
  refine ⟨_, hexec, by rw [hh.script]; rfl, by rw [hh.script]; rfl, fun d hd => (hh.scripts d hd).trans (hscript d),
    fun e he => (hh.engs e he).trans (heng e), ?_, ?_, hh.raised.trans ?_⟩
  · unfold State.eff at hfault ⊢
    rw [hcell (by decide) (by decide), hkeep, hfault, ← hv]
    omega
  · unfold State.pair State.eff at hpair ⊢
    rw [hcell (by decide) (by decide), hcell (by decide) (by decide), hpair]
    omega
  · exact congrArg (mget (fun _ => 0) · _ + 1) (congrArg State.raised hus :)

/-- Settles O38. -/
theorem scriptStartAbortFetch : Obligations.ScriptStartAbortFetch := by
  refine ⟨fun cx v s c h hc h15 h0 h1 hst => ⟨_, rfl, ?_⟩, fun cx v s c h hc h15 h0 h1 => ⟨_, rfl, State.busWrite_scCtl_ignored h hc h15 h0 h1⟩,
    fun cx v s c h hc h15 h0 h1 hst hx hm => ⟨_, rfl, State.busWrite_abort_now h hc h15 hm h0 h1 hst hx⟩,
    fun cx v s c x h hc h15 h0 h1 hst hx => ⟨_, rfl, State.busWrite_abort_later h hc h15 h0 h1 hst hx⟩,
    fun cx v s c h hc h15 h0 h1 => ⟨_, rfl, _, rfl, _, rfl, State.busWrite_both h hc h15 h0 h1⟩,
    fun cx v s hm h hc => ⟨_, rfl, State.busWrite_locked_events hm h hc _⟩,
    fun cx v s c h hc h15 h0 h1 hst => ⟨_, rfl, ?_⟩, fun cx v s c h hc h15 h0 h1 => ⟨_, rfl, State.busWrite_scCtl_ignored h hc h15 h0 h1⟩,
    fun cx v s c h hc h15 h0 h1 hst hx hm => ⟨_, rfl, State.busWrite_abort_now h hc h15 hm h0 h1 hst hx⟩,
    fun cx v s c x h hc h15 h0 h1 hst hx => ⟨_, rfl, State.busWrite_abort_later h hc h15 h0 h1 hst hx⟩,
    fun cx v s c h hc h15 h0 h1 => ⟨_, rfl, _, rfl, _, rfl, State.busWrite_both h hc h15 h0 h1⟩,
    fun cx v s hm h hc => ⟨_, rfl, State.busWrite_locked_events hm h hc _⟩,
    fun c ok w s hidle => ⟨s, State.scriptFetch_idle ok w hidle, rfl⟩,
    fun c w s fa hst hx hf hd hlen hfa hplace => State.Fetches.fetched ⟨hst, hx, hf, hd⟩ hlen hfa hplace w,
    fun c ok w s fa cause _ hst hx hf hd hlen hfa hcode hchk => State.Fetches.haltedBy ⟨hst, hx, hf, hd⟩ hlen hfa hcode hchk ok w,
    fun c w s hst hx hf hd hlen htries hcode => State.Fetches.again ⟨hst, hx, hf, hd⟩ hlen htries hcode w,
    fun c w s hm hst hx hf hd hlen htries hcode => State.Fetches.busError hm ⟨hst, hx, hf, hd⟩ hlen htries hcode w,
    fun c ok w s hst hx hf hd hlen => ⟨_, State.Fetches.beyond ⟨hst, hx, hf, hd⟩ hlen ok w, s.trap_trapped _ 2 _⟩⟩
  all_goals
    rw [State.busWrite_start h hc h15 h0 h1]
    exact State.scStart_begins hst cx

end Sys2Proof.Machine
end

section
/-! SUPPORT. O9: the memories of engines as slots are freed and loaded (R87, R93). -/

namespace Sys2Proof.Machine

/-! ### Sparse memories that are cleared in part, or written in a row -/

theorem mget_mdrop {α : Type} (d : Nat → α) (p : Nat → Bool) (m : List (Nat × α)) (i : Nat) :
    mget d (mdrop p m) i = if p i then d i else mget d m i := by
  induction m with
  | nil => exact (ite_self _).symm
  | cons e m ih =>
    obtain ⟨k, v⟩ := e
    unfold mdrop at ih ⊢
    by_cases hp : p k = true
    · rw [List.filter_cons_of_neg (by simp [hp]), ih]
      by_cases hk : k = i
      · rw [if_pos (hk ▸ hp), if_pos (hk ▸ hp)]
      · simp only [mget, if_neg hk]
    · rw [List.filter_cons_of_pos (by simp [hp])]
      by_cases hk : k = i
      · rw [if_neg (hk ▸ hp)]
        simp only [mget, if_pos hk]
      · simp only [mget, if_neg hk]
        exact ih

/-- A list written from `base` on: its entries there, elsewhere what was before. -/
theorem mget_writes {α β : Type} [DecidableEq α] {d : Nat → α} (g : β → α) (z : β) (base : Nat) (l : List β) (i : Nat) :
    ∀ (n : Nat) (m : List (Nat × α)), mwf d m = true →
      mget d ((l.zipIdx n).foldl (fun m e => mput d (base + e.2) (g e.1) m) m) i =
        if base + n ≤ i ∧ i < base + n + l.length then g (l.getD (i - (base + n)) z) else mget d m i := by
  induction l with
  | nil =>
    intro n m _
    rw [if_neg (by simp only [List.length_nil]; omega)]
    rfl
  | cons a l ih =>
    intro n m hm
    rw [List.zipIdx_cons, List.foldl_cons, ih (n + 1) _ (mput_wf hm), mget_mput hm]
    rw [List.length_cons]
    by_cases h0 : i = base + n
    · rw [if_neg (by omega), if_pos h0, if_pos (by omega), h0, Nat.sub_self]
      rfl
    · by_cases hin : base + (n + 1) ≤ i ∧ i < base + (n + 1) + l.length
      · rw [if_pos hin, if_pos (by omega), show i - (base + n) = i - (base + (n + 1)) + 1 by omega]
        rfl
      · rw [if_neg hin, if_neg h0, if_neg (by omega)]

/-! ### An engine's memories -/

/-- Instruction memory after a slot's region is freed. -/
theorem Eng.freeSlot_imem (x : Eng) (g : Prog) (k i : Nat) :
    mget (fun _ => (0 : DWord)) (x.freeSlot g k).imem i = if g.base ≤ i ∧ i < g.base + g.len then 0 else mget (fun _ => 0) x.imem i := by
  unfold Eng.freeSlot
  rw [mget_mdrop]
  simp only [Bool.and_eq_true, decide_eq_true_eq]

/-- Parameter memory after a slot is freed. -/
theorem Eng.freeSlot_param (x : Eng) (g : Prog) (k i : Nat) :
    mget (fun _ => (0 : Word)) (x.freeSlot g k).param i = if i / 4096 = k then 0 else mget (fun _ => 0) x.param i := by
  have hk : (4096 * k ≤ i ∧ i < 4096 * k + 4096) ↔ i / 4096 = k := by omega
  unfold Eng.freeSlot
  rw [mget_mdrop]
  simp only [Bool.and_eq_true, decide_eq_true_eq, hk]

/-- Instruction memory after a slot is loaded. -/
theorem Eng.loadSlot_imem {x : Eng} (h : x.memOk) (k base : Nat) (ws image : List Nat) (i : Nat) :
    mget (fun _ => (0 : DWord)) (x.loadSlot k base ws image).imem i =
      if base ≤ i ∧ i < base + ws.length then BitVec.ofNat 64 (ws.getD (i - base) 0) else mget (fun _ => 0) x.imem i :=
  mget_writes (BitVec.ofNat 64) 0 base ws i 0 x.imem h.1

/-- Parameter memory after a slot is loaded. -/
theorem Eng.loadSlot_param {x : Eng} (h : x.memOk) (k base : Nat) (ws image : List Nat) (i : Nat) :
    mget (fun _ => (0 : Word)) (x.loadSlot k base ws image).param i =
      if 4096 * k ≤ i ∧ i < 4096 * k + image.length then BitVec.ofNat 32 (image.getD (i - 4096 * k) 0) else mget (fun _ => 0) x.param i :=
  mget_writes (BitVec.ofNat 32) 0 (4096 * k) image i 0 x.param h.2.1

/-! ### The engines of a unit -/

theorem unitEngs_nodup (u : UnitId) : (unitEngs u).Nodup := by
  unfold unitEngs
  split
  · simp only [List.nodup_cons, List.mem_singleton, List.not_mem_nil, not_false_eq_true, List.nodup_nil, and_true]
    intro h
    have := congrArg Fin.val h
    simp only [gateEng, pipeEng] at this
    omega
  · exact List.nodup_singleton _

/-- The program that the region of slot `k` of engine `e` holds: none while the slot is not loaded. -/
def State.heldProg (s : State) (u : UnitId) (k : Nat) (e : EngId) : Prog := if (s.slotOf u k).isLoaded then s.slotProg e k else Prog.empty

theorem State.heldProg_congr {s t : State} (h : t.units = s.units) (u : UnitId) (k : Nat) (e : EngId) : t.heldProg u k e = s.heldProg u k e := by
  unfold State.heldProg State.slotOf State.slotProg
  rw [State.unit_congr h, State.unit_congr h]

/-- Changes of the engines of a unit, one after another, each by what the units hold: every engine is changed once. -/
theorem State.foldl_engs {f : State → EngId → Eng → Eng} (hf : ∀ (s t : State) (e : EngId), t.units = s.units → f t e = f s e) {l : List EngId}
    (hl : l.Nodup) (s : State) :
    let t := l.foldl (fun t e => t.updEng e (f t e)) s
    t = { s with engs := t.engs } ∧ ∀ e : EngId, t.eng e = if e ∈ l then f s e (s.eng e) else s.eng e := by
  have hframe (l : List EngId) (t : State) : l.foldl (fun t e => t.updEng e (f t e)) t =
      { t with engs := (l.foldl (fun t e => t.updEng e (f t e)) t).engs } := by
    induction l generalizing t with
    | nil => rfl
    | cons e l ih =>
      rw [List.foldl_cons, ih]
      rfl
  refine ⟨hframe l s, fun e => ?_⟩
  exact foldl_componentwise (P := fun t => t.units = s.units) (f := fun t e => t.updEng e (f t e)) (φ := fun e t => t.eng e) (G := f s) (fun _ _ h => h)
    (fun t e h => (State.updEng_same t e _).trans (congrFun (hf s t e h) _)) (fun t e d _ hd => State.updEng_ne t _ hd) hl rfl e

/-- The regions of slot `k` are freed. -/
def State.freed (s : State) (u : UnitId) (k : Nat) : State := (unitEngs u).foldl (fun t e => t.freeRegion u e k) s

theorem State.freed_frame (s : State) (u : UnitId) (k : Nat) : s.freed u k = { s with engs := (s.freed u k).engs } :=
  (State.foldl_engs (f := fun t e x => x.freeSlot (t.heldProg u k e) k) (fun s t e h => by rw [State.heldProg_congr h]) (unitEngs_nodup u) s).1

theorem State.freed_eng (s : State) (u : UnitId) (k : Nat) (e : EngId) :
    (s.freed u k).eng e = if e ∈ unitEngs u then (s.eng e).freeSlot (s.heldProg u k e) k else s.eng e :=
  (State.foldl_engs (f := fun t e x => x.freeSlot (t.heldProg u k e) k) (fun s t e h => by rw [State.heldProg_congr h]) (unitEngs_nodup u) s).2 e

/-- The instruction words of an object for an engine code, relocated to `base` (R93). -/
def zsoCode (d : List Byte) (base n : Nat) : List Nat := (relocs (zsoSects d) d n).foldl (relocOne base) (codeWords (zsoSects d) d n)

/-- The parameter image of an object for an engine code. -/
def zsoImage (d : List Byte) (n : Nat) : List Nat :=
  match sectOf (zsoSects d) 3 n with
  | some x => (chunks 4 (x.bytes d)).map leNat
  | none => []

/-- An engine with slot `k` freed and loaded from an object. -/
def Eng.loaded (x : Eng) (g : Prog) (k : Nat) (d : List Byte) (base n : Nat) : Eng :=
  (x.freeSlot g k).loadSlot k base (zsoCode d base n) (zsoImage d n)

/-- The engines of a unit with slot `k` freed and loaded from an object. -/
def State.loadedEngs (s : State) (u : UnitId) (k : Nat) (d : List Byte) (bases : Nat → Nat) : State :=
  (unitEngs u).foldl (fun t e => t.updEng e (fun x => x.loaded (t.heldProg u k e) k d (bases (engKind e)) (engKind e))) s

theorem State.loadedEngs_frame (s : State) (u : UnitId) (k : Nat) (d : List Byte) (bases : Nat → Nat) :
    s.loadedEngs u k d bases = { s with engs := (s.loadedEngs u k d bases).engs } :=
  (State.foldl_engs (f := fun t e x => x.loaded (t.heldProg u k e) k d (bases (engKind e)) (engKind e))
    (fun s t e h => by rw [State.heldProg_congr h]) (unitEngs_nodup u) s).1

theorem State.loadedEngs_eng (s : State) (u : UnitId) (k : Nat) (d : List Byte) (bases : Nat → Nat) (e : EngId) :
    (s.loadedEngs u k d bases).eng e =
      if e ∈ unitEngs u then (s.eng e).loaded (s.heldProg u k e) k d (bases (engKind e)) (engKind e) else s.eng e :=
  (State.foldl_engs (f := fun t e x => x.loaded (t.heldProg u k e) k d (bases (engKind e)) (engKind e))
    (fun s t e h => by rw [State.heldProg_congr h]) (unitEngs_nodup u) s).2 e

theorem State.loadedEngs_memOk {s : State} (hm : s.MemOk) (u : UnitId) (k : Nat) (d : List Byte) (bases : Nat → Nat) :
    (s.loadedEngs u k d bases).MemOk := by
  refine (Keeps.foldl (kc := false) (fun t e ht => ?_) _ s (Keeps.refl s)).mem hm
  exact State.updEng_keeps _ _ (fun x hx => Eng.loadSlot_memOk _ _ _ _ (Eng.freeSlot_memOk _ _ hx)) ht

theorem State.freed_memOk {s : State} (hm : s.MemOk) (u : UnitId) (k : Nat) : (s.freed u k).MemOk :=
  (Keeps.foldl (kc := false) (fun _ _ ht => State.freeRegion_keeps _ _ _ ht) _ s (Keeps.refl s)).mem hm

end Sys2Proof.Machine
end

section
/-! SUPPORT. O9: a slot that is filled or emptied, and its unit with it (R375, Table 15.2). -/

namespace Sys2Proof.Machine

/-- The keys of the registers of unit `u` whose CUT values wait. -/
def State.unitDueKeys (s : State) (u : UnitId) : List Nat := (s.unit u).due.map (fun e => rkey (unitIndex u) e.1)

/-- From `v` to `w` slot `k` of unit `u` becomes `x` and its state `st`; events of `srcs` may tell it. -/
structure State.SlotSet (v w : State) (u : UnitId) (k : Nat) (x : Slot) (st : UState) (srcs : List Nat) : Prop where
  told : v.UnitsTold w srcs (v.unitDueKeys u)
  work : v.PortWork 0 w
  engs : w.engs = v.engs
  slot : w.slotOf u k = x
  slots : k < 8 → ∀ j : Fin 8, j.val ≠ k → w.slotOf u j.val = v.slotOf u j.val
  st : (w.unit u).st = st
  others : ∀ a : UnitId, a ≠ u → w.unit a = v.unit a

/-- A unit with one slot replaced. -/
def UnitSt.withSlot (y : UnitSt) (k : Nat) (x : Slot) : UnitSt := { y with slots := y.slots.set (k % 8) x (Nat.mod_lt _ (by decide)) }

theorem State.setSlot_unit_same (s : State) (u : UnitId) (k : Nat) (x : Slot) : (s.setSlot u k x).unit u = (s.unit u).withSlot k x :=
  State.updUnit_same s u _

theorem UnitSt.withSlot_same (y : UnitSt) (k : Nat) (x : Slot) : (y.withSlot k x).slots[k % 8]'(Nat.mod_lt _ (by decide)) = x :=
  Vector.getElem_set_self _

theorem UnitSt.withSlot_ne (y : UnitSt) {k : Nat} (hk : k < 8) (x : Slot) {j : Fin 8} (h : j.val ≠ k) :
    (y.withSlot k x).slots[j.val % 8]'(Nat.mod_lt _ (by decide)) = y.slots[j.val % 8]'(Nat.mod_lt _ (by decide)) :=
  Vector.getElem_set_ne (Nat.mod_lt _ (by decide)) (Nat.mod_lt _ (by decide)) (by rw [Nat.mod_eq_of_lt hk, Nat.mod_eq_of_lt j.isLt]; exact fun e => h e.symm)

theorem State.setSlot_slotSet (v : State) (u : UnitId) (k : Nat) (x : Slot) (srcs : List Nat) :
    v.SlotSet (v.setSlot u k x) u k x (v.unit u).st srcs where
  told := State.updUnit_told v u _ srcs _
  work := .of_units 0 v _ _ _
  engs := rfl
  slot := by
    unfold State.slotOf
    rw [State.setSlot_unit_same]
    exact UnitSt.withSlot_same _ k x
  slots := fun hk j hj => by
    unfold State.slotOf
    rw [State.setSlot_unit_same]
    exact UnitSt.withSlot_ne _ hk x hj
  st := by
    rw [State.setSlot_unit_same]
    rfl
  others := fun a ha => State.updUnit_ne v _ ha

/-- A unit in no cut that does not run turns LOADED or OFF. -/
theorem State.setUState_idle {s : State} {u : UnitId} {new : UState} (hcut : (s.unit u).cut = none) (hl : leaves (s.unit u).st new = false)
    (hn : new = .loaded ∨ new = .off) (cause : Nat) : s.setUState u new cause = (s.turn u new cause).cutStarted u := by
  rw [State.setUState_uncut hcut, State.leaveWork_of_idle s u hl (by rcases hn with rfl | rfl <;> decide),
    if_neg (by rcases hn with rfl | rfl <;> decide)]

theorem State.setSlot_turned {v : State} {u : UnitId} {k : Nat} {x : Slot} {new : UState} (hcut : (v.unit u).cut = none)
    (hl : leaves (v.unit u).st new = false) (hn : new = .loaded ∨ new = .off) (cause : Nat) :
    v.SlotSet ((v.setSlot u k x).setUState u new cause) u k x new [unitStateSrc u] := by
  have h := State.setSlot_slotSet v u k x [unitStateSrc u]
  have hunit := State.setSlot_unit_same v u k x
  have hset := State.setUState_idle (s := v.setSlot u k x) (u := u) (new := new) (by rw [hunit]; exact hcut) (by rw [hunit]; exact hl) hn cause
  have hturn := State.turn_unit_same (v.setSlot u k x) u new cause
  have hslots (j : Nat) : (((v.setSlot u k x).turn u new cause).cutStarted u).slotOf u j = (v.setSlot u k x).slotOf u j :=
    (congrArg (fun y : UnitSt => y.slots[j % 8]'(Nat.mod_lt _ (by decide))) hturn :)
  have htold := State.turn_told (v.setSlot u k x) u new cause (ks := v.unitDueKeys u)
    (fun e he => List.mem_map.2 ⟨e, by rw [hunit] at he; exact he, rfl⟩)
  rw [hset]
  exact {
    told := (h.told.trans htold).trans (State.cutStarted_told _ u _ _)
    work := (h.work.trans (State.turn_work 0 _ u new cause)).trans (.of_units 0 _ _ _ _)
    engs := (State.turn_movesUnits (v.setSlot u k x) u new cause).engs
    slot := (hslots k).trans h.slot
    slots := fun hk j hj => (hslots j).trans (h.slots hk j hj)
    st := (congrArg UnitSt.st hturn :)
    others := fun a ha => (State.turn_unit_ne _ new cause ha).trans (h.others a ha) }

theorem State.SlotSet.mono {v w : State} {u : UnitId} {k : Nat} {x : Slot} {st : UState} {srcs srcs' : List Nat}
    (h : v.SlotSet w u k x st srcs) (hs : ∀ a ∈ srcs, a ∈ srcs') : v.SlotSet w u k x st srcs' :=
  { h with told := h.told.mono hs }

/-- A raising beside. -/
theorem State.SlotSet.raise {v w : State} {u : UnitId} {k : Nat} {x : Slot} {st : UState} {srcs : List Nat}
    (h : v.SlotSet w u k x st srcs) {src : Nat} (hs : src ∈ srcs) (items : List (Nat × Nat)) : v.SlotSet (w.raise src items) u k x st srcs := by
  have hm := w.raise_movesUnits src items
  have hunit (a : UnitId) : (w.raise src items).unit a = w.unit a := State.unit_congr (State.raise_units _ _ _) a
  have hslots (j : Nat) : (w.raise src items).slotOf u j = w.slotOf u j :=
    congrArg (fun y : UnitSt => y.slots[j % 8]'(Nat.mod_lt _ (by decide))) (hunit u)
  have htold : w.UnitsTold (w.raise src items) srcs (v.unitDueKeys u) :=
    ⟨.of_tells (State.raise_tells w items hs), State.raise_ctxs _ _ _, State.raise_ports _ _ _, State.raise_axes _ _ _, State.raise_mot _ _ _,
      (State.raise_tells w items hs).2.1.mono fun a ha => List.mem_append_left _ ha, fun g => by rw [State.raise_groups]; rfl⟩
  exact {
    told := h.told.trans htold
    work := h.work.trans (State.raise_work 0 w src items)
    engs := hm.engs.trans h.engs
    slot := (hslots k).trans h.slot
    slots := fun hk j hj => (hslots j).trans (h.slots hk j hj)
    st := (congrArg UnitSt.st (hunit u)).trans h.st
    others := fun a ha => (hunit a).trans (h.others a ha) }

/-! ### The completion of a setup command -/

/-- What a setup command of context `c` leaves that sets slot `k` of unit `u` and completes with `r`. -/
structure State.SlotDone (s v t : State) (c : CtxId) (y : Submission) (r : AdmRes) (u : UnitId) (x : Slot) (st : UState) (srcs : List Nat) : Prop where
  answered : s.Answered t c y r
  slot : t.slotOf u y.slot = x
  slots : ∀ j : Fin 8, j.val ≠ y.slot → t.slotOf u j.val = v.slotOf u j.val
  st : (t.unit u).st = st
  others : ∀ a : UnitId, a ≠ u → t.unit a = v.unit a
  engs : t.engs = v.engs
  regs : s.SameRegs t (injKeys ++ v.unitDueKeys u)
  events : { v with ctxs := t.ctxs, bus := t.bus, jrnl := t.jrnl, units := t.units, groups := t.groups, regs := t.regs }.EventsOnly t
    (mgtSrc (5 * c.val) :: mgtSrc (5 * c.val + 1) :: srcs)
  groups : ∀ g : GroupId, (t.groups[g]).Same s.groups[g]

/-- The slot number of a command is below 8. -/
theorem Submission.slot_lt_eight (y : Submission) : y.slot < 8 := Nat.mod_lt _ (by decide)

/-- A command whose effect changes the engines or the place of the free values, and then sets a slot. -/
theorem State.SlotSet.complete {s v w : State} {c : CtxId} {y : Submission} {r : AdmRes} {u : UnitId} {x : Slot} {st : UState} {srcs : List Nat}
    (h : v.SlotSet w u y.slot x st srcs) (hctxs : v.ctxs = s.ctxs) (hregs : v.regs = s.regs) (hgroups : v.groups = s.groups)
    (hrings : s.SameRings w c) (op : Nat) : s.SlotDone v (w.complete c op y r) c y r u x st srcs := by
  have hwc : w.ctxs = s.ctxs := h.told.ctxs.trans hctxs
  have hans := (State.complete_answers (y := y) hwc hrings op r).1
  have hm := State.complete_machinery w c op y r
  have htold := State.complete_told w c op y r
  have hkeys := State.complete_sameRegs w c op y r
  generalize w.complete c op y r = t at hans hm htold hkeys
  have hunit (a : UnitId) : t.unit a = w.unit a := State.unit_congr hm.units a
  have hslots (j : Nat) : t.slotOf u j = w.slotOf u j := congrArg (fun y : UnitSt => y.slots[j % 8]'(Nat.mod_lt _ (by decide))) (hunit u)
  have hevents := ((h.told.told.mono (srcs' := mgtSrc (5 * c.val) :: mgtSrc (5 * c.val + 1) :: srcs)
    fun a ha => List.mem_cons_of_mem _ (List.mem_cons_of_mem _ ha)).trans (htold.mono (by simp))).eventsOnly
  rw [hm.ports, h.told.ports, hm.axes, h.told.axes, hm.mot, h.told.mot] at hevents
  exact {
    answered := hans
    slot := (hslots _).trans h.slot
    slots := fun j hj => (hslots _).trans (h.slots (Submission.slot_lt_eight y) j hj)
    st := (congrArg UnitSt.st (hunit u)).trans h.st
    others := fun a ha => (hunit a).trans (h.others a ha)
    engs := hm.engs.trans h.engs
    regs := (State.SameRegs.of_regs hregs _).trans (h.told.regs.trans (hkeys.mono fun a ha => List.mem_append_left _ ha))
    events := hevents
    groups := fun g => by
      rw [hm.groups, ← hgroups]
      exact h.told.groups g }

/-- The rings of a context after a slot was set. -/
theorem State.SlotSet.rings {s v w : State} {u : UnitId} {k : Nat} {x : Slot} {st : UState} {srcs : List Nat} (h : v.SlotSet w u k x st srcs)
    (hm : v.MemOk) (hctxs : v.ctxs = s.ctxs) (hregs : v.regs = s.regs) (c : CtxId) : s.SameRings w c := by
  refine ⟨by rw [h.told.ctxs, hctxs], fun off ho => ?_⟩
  have hv : v.eff c.val off = s.eff c.val off := by
    unfold State.eff State.cell
    rw [hregs]
  exact (congrArg BitVec.toNat (h.work.host hm c.val off ho)).trans hv

end Sys2Proof.Machine
end

section
/-! O9: SETUP_LOAD, SETUP_VERIFY and SETUP_CLEAR. -/

namespace Sys2Proof.Machine

/-! ### What the effect of a setup command changes besides the slot -/

/-- From `s` to `v` only accesses were sent and engines changed. -/
def State.MovesEngs (s v : State) : Prop := v = { s with bus := v.bus, engs := v.engs }

theorem State.MovesEngs.units {s v : State} (h : s.MovesEngs v) : v.units = s.units := (congrArg State.units h :)

theorem State.MovesEngs.unit {s v : State} (h : s.MovesEngs v) (u : UnitId) : v.unit u = s.unit u := State.unit_congr h.units u

theorem State.MovesEngs.slotOf {s v : State} (h : s.MovesEngs v) (u : UnitId) (k : Nat) : v.slotOf u k = s.slotOf u k := by
  unfold State.slotOf
  rw [h.unit]

theorem State.MovesEngs.unitDueKeys {s v : State} (h : s.MovesEngs v) (u : UnitId) :
    v.unitDueKeys u = (s.unit u).due.map (fun e => rkey (unitIndex u) e.1) := by
  unfold State.unitDueKeys
  rw [h.unit]

/-- The state after a setup command that changes engines and sets a slot. -/
theorem State.SlotSet.done {s v w : State} {c : CtxId} {y : Submission} {r : AdmRes} {u : UnitId} {x : Slot} {st : UState} {srcs : List Nat}
    (h : v.SlotSet w u y.slot x st srcs) (hv : s.MovesEngs v) (hm : v.MemOk) (op : Nat) : s.SlotDone v (w.complete c op y r) c y r u x st srcs :=
  h.complete (s := s) (congrArg State.ctxs hv :) (congrArg State.regs hv :) (congrArg State.groups hv :)
    (h.rings (s := s) hm (congrArg State.ctxs hv :) (congrArg State.regs hv :) c) op

/-- The events of such a command, told by the state before it. -/
theorem State.SlotDone.told {s v t : State} {c : CtxId} {y : Submission} {r : AdmRes} {u : UnitId} {x : Slot} {st : UState} {srcs : List Nat}
    (h : s.SlotDone v t c y r u x st srcs) (hv : s.MovesEngs v) :
    { s with ctxs := t.ctxs, bus := t.bus, jrnl := t.jrnl, units := t.units, engs := t.engs, groups := t.groups, regs := t.regs }.EventsOnly t
      (mgtSrc (5 * c.val) :: mgtSrc (5 * c.val + 1) :: srcs) := by
  have he : { v with ctxs := t.ctxs, bus := t.bus, jrnl := t.jrnl, units := t.units, groups := t.groups, regs := t.regs } =
      { s with ctxs := t.ctxs, bus := t.bus, jrnl := t.jrnl, units := t.units, engs := t.engs, groups := t.groups, regs := t.regs } := by
    rw [h.engs]
    exact congrArg (fun z : State => { z with ctxs := t.ctxs, bus := t.bus, jrnl := t.jrnl, units := t.units, groups := t.groups, regs := t.regs }) hv
  exact he ▸ h.events

theorem State.SlotDone.eng {s v t : State} {c : CtxId} {y : Submission} {r : AdmRes} {u : UnitId} {x : Slot} {st : UState} {srcs : List Nat}
    (h : s.SlotDone v t c y r u x st srcs) (e : EngId) : t.eng e = v.eng e := State.eng_congr h.engs e

/-! ### The checks of an object (Table 3.16) -/

/-- An object that no check finds at fault. -/
theorem firstFail_zero {xs : List (Nat × Bool)} (h : firstFail xs = 0) (hn : ∀ e ∈ xs, e.1 ≠ 0) : ∀ e ∈ xs, e.2 = false := by
  unfold firstFail at h
  split at h
  case h_1 e he => exact absurd h (hn e (List.mem_of_find?_eq_some he))
  case h_2 hnone => exact fun e he => Bool.eq_false_iff.2 (List.find?_eq_none.1 hnone e he)

theorem zsoChecks_codes (d : List Byte) (kind len : Nat) (base : Nat → Nat) (hasCut : Nat → Bool) :
    (zsoChecks d kind len base hasCut).map Prod.fst = [1, 2, 3, 4, 5, 6, 7, 8, 9, 10, 11] := rfl

/-- Check 0x06: a parameter image of an object without fault has at most 16,384 bytes. -/
theorem zsoChecks_image {d : List Byte} {kind len : Nat} {base : Nat → Nat} {hasCut : Nat → Bool}
    (h : firstFail (zsoChecks d kind len base hasCut) = 0) {x : Sect} (hx : x ∈ zsoSects d) (ht : x.type = 3) : x.len ≤ 16384 := by
  have hcodes : ∀ e ∈ zsoChecks d kind len base hasCut, e.1 ≠ 0 := fun e he h0 =>
    absurd (zsoChecks_codes d kind len base hasCut ▸ List.mem_map_of_mem (f := Prod.fst) he) (by rw [h0]; decide)
  have hsix := List.any_eq_false.1 (firstFail_zero h hcodes _ (.tail _ (.tail _ (.tail _ (.tail _ (.tail _ (.head _))))))) x hx
  simpa [ht] using hsix

theorem chunksGo_four_length {α : Type} (k : Nat) (l : List α) : 4 * (chunksGo 4 k l).length ≤ l.length + 3 := by
  induction k generalizing l with
  | zero => exact Nat.zero_le _
  | succ k ih =>
    cases l with
    | nil => exact Nat.zero_le _
    | cons a l =>
      have := ih ((a :: l).drop 4)
      simp only [chunksGo, List.length_cons, List.length_drop] at this ⊢
      omega

/-- The parameter image of an object without fault fits the slot's parameter memory. -/
theorem zsoImage_length {d : List Byte} {kind len : Nat} {base : Nat → Nat} {hasCut : Nat → Bool}
    (h : firstFail (zsoChecks d kind len base hasCut) = 0) (n : Nat) : (zsoImage d n).length ≤ 4096 := by
  unfold zsoImage
  split
  case h_2 => exact Nat.zero_le _
  case h_1 x hx =>
    have htype : x.type = 3 := by
      have := List.find?_some hx
      simp only [Bool.and_eq_true, beq_iff_eq] at this
      exact this.1
    have hlen := zsoChecks_image h (List.mem_of_find?_eq_some hx) htype
    have hbytes : (x.bytes d).length ≤ 16384 := (List.length_take_le _ _).trans hlen
    have hchunks := chunksGo_four_length (x.bytes d).length (x.bytes d)
    rw [List.length_map]
    unfold chunks
    omega

/-! ### SETUP_LOAD -/

/-- The slot that a load fills. -/
def zsoSlot (d : List Byte) (u : UnitId) (bases : Nat → Nat) : Slot :=
  { isLoaded := true, isVerified := false, tool := BitVec.ofNat 32 (leAt d 0x10 4), build := BitVec.ofNat 32 (leAt d 0x18 4),
    prog0 := zsoProg (zsoSects d) d (if u.val < 16 then 0 else 2) (bases (if u.val < 16 then 0 else 2)),
    prog1 := if u.val < 16 then zsoProg (zsoSects d) d 1 (bases 1) else Prog.empty,
    settings := match sectOf (zsoSects d) 4 0 with
      | some x => (chunks 8 (x.bytes d)).map (fun r => (leAt r 0 4, BitVec.ofNat 32 (leAt r 4 4)))
      | none => [] }

/-- The source of SETUP_LOADED of a unit. -/
def loadedSrc (u : UnitId) : Nat := if u.val < 16 then portSrc u.val 32 else axisSrc (u.val - 16) 18

/-- A load: the engines, then the slot, an OFF unit LOADED, and the event. -/
theorem State.loadSetup_eq (s : State) (u : UnitId) (k : Nat) (d : List Byte) (bases : Nat → Nat) :
    s.loadSetup u k d bases =
      (if (s.unit u).st = .off then ((s.loadedEngs u k d bases).setSlot u k (zsoSlot d u bases)).setUState u .loaded 0
        else (s.loadedEngs u k d bases).setSlot u k (zsoSlot d u bases)).raise (loadedSrc u) [(8, k), (32, leAt d 0x18 4)] := by
  have hengs : (unitEngs u).foldl (fun t e => (t.freeRegion u e k).updEng e (fun x => x.loadSlot k (bases (engKind e))
      (zsoCode d (bases (engKind e)) (engKind e)) (zsoImage d (engKind e)))) s = s.loadedEngs u k d bases := by
    unfold State.loadedEngs
    congr 1
    funext t e
    exact State.updEng_updEng t e _ _
  rw [← hengs]
  rfl

theorem State.loadedEngs_movesEngs {s t : State} (h : s.MovesEngs t) (u : UnitId) (k : Nat) (d : List Byte) (bases : Nat → Nat) :
    s.MovesEngs (t.loadedEngs u k d bases) := by
  have hf := State.loadedEngs_frame t u k d bases
  unfold State.MovesEngs at h ⊢
  rw [hf, h]

theorem State.loadSetup_slotSet {s t : State} {u : UnitId} (h : s.MovesEngs t) (hcut : (s.unit u).st = .off → (s.unit u).cut = none) (k : Nat)
    (d : List Byte) (bases : Nat → Nat) :
    (t.loadedEngs u k d bases).SlotSet (t.loadSetup u k d bases) u k (zsoSlot d u bases)
      (if (s.unit u).st = .off then .loaded else (s.unit u).st) [unitStateSrc u, loadedSrc u] := by
  have hunit := (State.loadedEngs_movesEngs h u k d bases).unit u
  rw [State.loadSetup_eq, h.unit]
  refine State.SlotSet.raise ?_ (List.mem_cons_of_mem _ List.mem_cons_self) _
  split
  case isTrue hoff =>
    exact (State.setSlot_turned (by rw [hunit]; exact hcut hoff) (by rw [hunit, hoff]; rfl) (Or.inl rfl) 0).mono (by simp)
  case isFalse =>
    have := State.setSlot_slotSet (t.loadedEngs u k d bases) u k (zsoSlot d u bases) [unitStateSrc u, loadedSrc u]
    rwa [hunit] at this

/-- The program of a slot that is not loaded holds no instruction. -/
theorem State.heldProg_region (s : State) (u : UnitId) (k : Nat) (e : EngId) (i : Nat) :
    ((s.heldProg u k e).base ≤ i ∧ i < (s.heldProg u k e).base + (s.heldProg u k e).len) ↔
      ((s.slotOf u k).isLoaded = true ∧ (s.slotProg e k).base ≤ i ∧ i < (s.slotProg e k).base + (s.slotProg e k).len) := by
  unfold State.heldProg
  by_cases hl : (s.slotOf u k).isLoaded = true
  · rw [if_pos hl]
    exact ⟨fun h => ⟨hl, h⟩, fun h => h.2⟩
  · rw [if_neg hl]
    exact ⟨fun h => absurd h.2 (Nat.not_lt_zero i), fun h => absurd h.1 hl⟩

/-- The memories of an engine whose slot `k` is loaded from an object with an image that fits. -/
theorem Eng.loaded_mems {x : Eng} (hx : x.memOk) (g : Prog) (k : Nat) (d : List Byte) (base n : Nat) (hlen : (zsoImage d n).length ≤ 4096) :
    (∀ i, i < (zsoCode d base n).length →
      mget (fun _ => (0 : DWord)) (x.loaded g k d base n).imem (base + i) = BitVec.ofNat 64 ((zsoCode d base n).getD i 0)) ∧
    (∀ i, i < base ∨ base + (zsoCode d base n).length ≤ i →
      mget (fun _ => (0 : DWord)) (x.loaded g k d base n).imem i = if g.base ≤ i ∧ i < g.base + g.len then 0 else mget (fun _ => 0) x.imem i) ∧
    (∀ i, i < 4096 → mget (fun _ => (0 : Word)) (x.loaded g k d base n).param (4096 * k + i) = BitVec.ofNat 32 ((zsoImage d n).getD i 0)) ∧
    (∀ i, i / 4096 ≠ k → mget (fun _ => (0 : Word)) (x.loaded g k d base n).param i = mget (fun _ => 0) x.param i) := by
  have hf := Eng.freeSlot_memOk g k hx
  unfold Eng.loaded
  refine ⟨fun i hi => ?_, fun i hi => ?_, fun i hi => ?_, fun i hi => ?_⟩
  · rw [Eng.loadSlot_imem hf, if_pos ⟨Nat.le_add_right _ _, Nat.add_lt_add_left hi _⟩, Nat.add_sub_cancel_left]
  · rw [Eng.loadSlot_imem hf, if_neg (by omega), Eng.freeSlot_imem]
  · rw [Eng.loadSlot_param hf, Nat.add_sub_cancel_left]
    by_cases hin : i < (zsoImage d n).length
    · rw [if_pos (by omega)]
    · rw [if_neg (by omega), Eng.freeSlot_param, if_pos (by omega), List.getD_eq_default _ _ (by omega)]
      rfl
  · rw [Eng.loadSlot_param hf, if_neg (by omega), Eng.freeSlot_param, if_neg hi]

/-- Where every engine of a kind has a place, no check of R87 refuses the load. -/
theorem kindEngs_placed {kind : Nat} {place : Nat → Option Nat} (h : (kindEngs kind).all (fun e => (place e).isSome) = true) :
    (kindEngs kind).any (fun e => (place e).isNone) = false :=
  List.any_eq_false.2 fun e he hn => by
    have := List.all_eq_true.1 h e he
    rw [← Option.not_isNone, hn] at this
    cases this

end Sys2Proof.Machine
end

section
/-! O9: the three commands, each as one statement. -/

namespace Sys2Proof.Machine

theorem State.send_movesEngs (s : State) (b : BusOp) : s.MovesEngs (s.send b) := rfl

theorem State.MovesEngs.send {s t : State} (h : s.MovesEngs t) (b : BusOp) : s.MovesEngs (t.send b) :=
  (congrArg (fun z : State => z.send b) h :)

/-- SETUP_LOAD of an object that passes every check and has room. -/
theorem setupLoad_does {s : State} {c : CtxId} {y : Submission} {data : List Byte} {u : UnitId} {place : Nat → Option Nat}
    (ha : s.Accepts c { op := 0x08, since := 0x20, kinds := [1, 2], slotted := true, args := [] } y) (hu : u = subUnit y)
    (hplace : ∀ n, place n = ((unitEngs u).find? (fun x => engKind x == n)).bind (fun x => s.placement u x y.slot (zsoSects data) data))
    (hright : unitRight s.ctxs[c] y = true) (hcounts : s.counts u y.slot = false) (hm : s.MemOk)
    (hcut : (s.unit u).st = .off → (s.unit u).cut = none) (hroom : (kindEngs y.kind).all (fun e => (place e).isSome) = true)
    (hok : firstFail (zsoChecks data y.kind y.len.toNat (fun e => (place e).getD (prefBase (zsoSects data) e))
      (cutOffsets (decide (y.kind = 1))).contains) = 0) :
    Does (.setupLoad c y data) s (fun t => ∃ v, s.MovesEngs v ∧ v = ((s.send (s.subRead c)).hostRead y.addr.toNat y.len.toNat).loadedEngs u y.slot data
        (fun n => (place n).getD 0) ∧
      s.SlotDone v t c y (okRes (leAt data 8 4) 0) u (zsoSlot data u (fun n => (place n).getD 0))
        (if (s.unit u).st = .off then .loaded else (s.unit u).st) [unitStateSrc u, loadedSrc u]) := by
  subst hu
  have hsent : s.MovesEngs ((s.send (s.subRead c)).hostRead y.addr.toNat y.len.toNat) := (State.send_movesEngs s _).send _
  have hset := State.loadSetup_slotSet hsent hcut y.slot data (fun n => (place n).getD 0)
  have hmoved := State.loadedEngs_movesEngs hsent (subUnit y) y.slot data (fun n => (place n).getD 0)
  have hmem : ((s.send (s.subRead c)).hostRead y.addr.toNat y.len.toNat).MemOk :=
    (State.send_keeps _ (State.send_keeps _ (Keeps.refl (kc := false) s))).mem hm
  refine ⟨_, ?_, _, hmoved, rfl, hset.done hmoved (State.loadedEngs_memOk hmem _ _ _ _) 0x08⟩
  rw [exec_setupLoad]
  unfold execSetupLoad
  extract_lets u k xs found bad
  have hfound : found = place := by
    funext n
    rw [hplace n]
    unfold found
    cases (unitEngs (subUnit y)).find? (fun x => engKind x == n) <;> rfl
  have hbad : bad = 0 := by
    unfold bad
    rw [hfound]
    exact hok
  clear_value found bad
  subst hfound
  refine congrArg Host.Outcome.next (State.admin_done ha (firstSome_passed ?_))
  simp only [List.forall_mem_cons, List.not_mem_nil, false_imp_iff, implies_true, and_true]
  exact ⟨refuseIf_false (by rw [hright]; rfl) _ _, refuseIf_false hcounts _ _, if_pos hbad, refuseIf_false (kindEngs_placed hroom) _ _⟩

/-! ### SETUP_VERIFY -/

/-- SETUP_VERIFY of a loaded slot records the result of its checks. -/
theorem setupVerify_does {s : State} {c : CtxId} {y : Submission} {u : UnitId}
    (ha : s.Accepts c { op := 0x09, since := 0x20, kinds := [1, 2], slotted := true, args := [] } y) (hu : u = subUnit y)
    (hright : unitRight s.ctxs[c] y = true) (hl : (s.slotOf u y.slot).isLoaded = true) :
    Does (.setupVerify c y) s (fun t => t = State.complete
      { ((s.send (s.subRead c)).setSlot u y.slot { s.slotOf u y.slot with isVerified := (s.verifySlot u y.slot).1 == 0 }) with free := s.free + 16384 }
      c 0x09 y (okRes (s.verifySlot u y.slot).1 (s.verifySlot u y.slot).2)) := by
  subst hu
  refine ⟨_, congrArg Host.Outcome.next (State.admin_done ha (firstSome_passed ?_)), rfl⟩
  simp only [List.forall_mem_cons, List.not_mem_nil, false_imp_iff, implies_true, and_true]
  exact ⟨refuseIf_false (by rw [hright]; rfl) _ _, refuseIf_false (by rw [hl]; rfl) _ _⟩

/-! ### SETUP_CLEAR -/

theorem State.freed_movesEngs {s t : State} (h : s.MovesEngs t) (u : UnitId) (k : Nat) : s.MovesEngs (t.freed u k) := by
  have hf := State.freed_frame t u k
  unfold State.MovesEngs at h ⊢
  rw [hf, h]

/-- With slot `k` emptied every slot is empty just when all the others are. -/
theorem State.setSlot_allEmpty (s : State) (u : UnitId) {k : Nat} (hk : k < 8) :
    (List.range 8).all (fun j => !((s.setSlot u k Slot.empty).slotOf u j).isLoaded) =
      decide (∀ j : Fin 8, j.val ≠ k → (s.slotOf u j.val).isLoaded = false) := by
  have hset := State.setSlot_slotSet s u k Slot.empty []
  rw [Bool.eq_iff_iff, List.all_eq_true, decide_eq_true_eq]
  constructor
  · intro h j hj
    have := h j.val (List.mem_range.2 j.isLt)
    rw [hset.slots hk j hj] at this
    exact Bool.not_eq_true' _ ▸ this
  · intro h j hj
    by_cases hjk : j = k
    · rw [hjk, hset.slot]
      rfl
    · rw [hset.slots hk ⟨j, List.mem_range.1 hj⟩ hjk, h ⟨j, List.mem_range.1 hj⟩ hjk]
      rfl

/-- SETUP_CLEAR's effect on the slot and the state of the unit. -/
theorem State.clear_slotSet (v : State) (u : UnitId) {k : Nat} (hk : k < 8)
    (hcut : (v.unit u).st = .loaded ∨ (v.unit u).st = .halted → (v.unit u).cut = none) :
    let t1 := v.setSlot u k Slot.empty
    v.SlotSet (if (List.range 8).all (fun j => !(t1.slotOf u j).isLoaded) && ((t1.unit u).st == .loaded || (t1.unit u).st == .halted)
        then t1.setUState u .off 1 else t1) u k Slot.empty
      (if (∀ j : Fin 8, j.val ≠ k → (v.slotOf u j.val).isLoaded = false) ∧ ((v.unit u).st = .loaded ∨ (v.unit u).st = .halted) then .off
        else (v.unit u).st) [unitStateSrc u] := by
  intro t1
  have hst : (t1.unit u).st = (v.unit u).st := (State.setSlot_slotSet v u k Slot.empty []).st
  rw [State.setSlot_allEmpty v u hk, hst]
  simp only [Bool.and_eq_true, Bool.or_eq_true, beq_iff_eq, decide_eq_true_eq]
  split
  case isTrue h =>
    refine State.setSlot_turned (hcut h.2) ?_ (Or.inr rfl) 1
    rcases h.2 with h | h <;> rw [h] <;> rfl
  case isFalse => exact State.setSlot_slotSet v u k Slot.empty _

/-- SETUP_CLEAR of a loaded slot that does not count as current. -/
theorem setupClear_does {s : State} {c : CtxId} {y : Submission} {u : UnitId}
    (ha : s.Accepts c { op := 0x0A, since := 0x20, kinds := [1, 2], slotted := true, args := [] } y) (hu : u = subUnit y)
    (hright : unitRight s.ctxs[c] y = true) (hcounts : s.counts u y.slot = false) (hl : (s.slotOf u y.slot).isLoaded = true) (hm : s.MemOk)
    (hcut : (s.unit u).st = .loaded ∨ (s.unit u).st = .halted → (s.unit u).cut = none) :
    Does (.setupClear c y) s (fun t => s.SlotDone ((s.send (s.subRead c)).freed u y.slot) t c y (okRes 0 0) u Slot.empty
      (if (∀ k : Fin 8, k.val ≠ y.slot → (s.slotOf u k.val).isLoaded = false) ∧ ((s.unit u).st = .loaded ∨ (s.unit u).st = .halted) then .off
        else (s.unit u).st) [unitStateSrc u]) := by
  subst hu
  have hmoved := State.freed_movesEngs (State.send_movesEngs s (s.subRead c)) (subUnit y) y.slot
  have hset := State.clear_slotSet ((s.send (s.subRead c)).freed (subUnit y) y.slot) (subUnit y) (Submission.slot_lt_eight y)
    (by rw [hmoved.unit]; exact hcut)
  simp only [hmoved.unit, hmoved.slotOf] at hset
  have hmem := State.freed_memOk ((State.send_keeps (s.subRead c) (Keeps.refl (kc := false) s)).mem hm) (subUnit y) y.slot
  refine ⟨_, congrArg Host.Outcome.next (State.admin_done ha (firstSome_passed ?_)), hset.done hmoved hmem 0x0A⟩
  simp only [List.forall_mem_cons, List.not_mem_nil, false_imp_iff, implies_true, and_true]
  exact ⟨refuseIf_false (by rw [hright]; rfl) _ _, refuseIf_false hcounts _ _, refuseIf_false (by rw [hl]; rfl) _ _⟩

end Sys2Proof.Machine
end

section
/-! O9: the obligation. -/

namespace Sys2Proof.Machine

/-! ### The engines after a load and after a clear -/

theorem setupLoad_engs {s : State} (hm : s.MemOk) {u : UnitId} {k : Nat} {data : List Byte} {bases : Nat → Nat}
    (hlen : ∀ n, (zsoImage data n).length ≤ 4096) {e : EngId} (he : e ∈ unitEngs u) {x : Eng}
    (hx : x = (s.loadedEngs u k data bases).eng e) :
    x = { s.eng e with imem := x.imem, param := x.param } ∧
      (∀ i, i < (zsoCode data (bases (engKind e)) (engKind e)).length → mget (fun _ => (0 : DWord)) x.imem (bases (engKind e) + i) =
        BitVec.ofNat 64 ((zsoCode data (bases (engKind e)) (engKind e)).getD i 0)) ∧
      (∀ i, i < imemSize (engKind e) → i < bases (engKind e) ∨ bases (engKind e) + (zsoCode data (bases (engKind e)) (engKind e)).length ≤ i →
        mget (fun _ => (0 : DWord)) x.imem i =
          if (s.slotOf u k).isLoaded = true ∧ (s.slotProg e k).base ≤ i ∧ i < (s.slotProg e k).base + (s.slotProg e k).len then 0
          else mget (fun _ => 0) (s.eng e).imem i) ∧
      (∀ i, i < 4096 → mget (fun _ => (0 : Word)) x.param (4096 * k + i) = BitVec.ofNat 32 ((zsoImage data (engKind e)).getD i 0)) ∧
      (∀ i, i < 32768 → i / 4096 ≠ k → mget (fun _ => (0 : Word)) x.param i = mget (fun _ => 0) (s.eng e).param i) := by
  rw [State.loadedEngs_eng, if_pos he] at hx
  obtain ⟨himem, hrest, hparam, hother⟩ :=
    Eng.loaded_mems (hm.engs e) (s.heldProg u k e) k data (bases (engKind e)) (engKind e) (hlen _)
  rw [hx]
  refine ⟨rfl, himem, fun i _ hi => (hrest i hi).trans ?_, hparam, fun i _ hi => hother i hi⟩
  simp only [State.heldProg_region]
  rfl

theorem setupClear_engs {s : State} {u : UnitId} {k : Nat} (hl : (s.slotOf u k).isLoaded = true) {e : EngId} (he : e ∈ unitEngs u) {x : Eng}
    (hx : x = (s.freed u k).eng e) :
    x = { s.eng e with imem := x.imem, param := x.param } ∧
      (∀ i, i < imemSize (engKind e) → mget (fun _ => (0 : DWord)) x.imem i =
        if (s.slotProg e k).base ≤ i ∧ i < (s.slotProg e k).base + (s.slotProg e k).len then 0 else mget (fun _ => 0) (s.eng e).imem i) ∧
      (∀ i, i < 32768 → mget (fun _ => (0 : Word)) x.param i = if i / 4096 = k then 0 else mget (fun _ => 0) (s.eng e).param i) := by
  have hprog : s.heldProg u k e = s.slotProg e k := if_pos hl
  rw [State.freed_eng, if_pos he, hprog] at hx
  rw [hx]
  exact ⟨rfl, fun i _ => Eng.freeSlot_imem _ _ _ i, fun i _ => Eng.freeSlot_param _ _ _ i⟩

/-! ### The events of SETUP_VERIFY -/

/-- A completion tells, of a state that differs from `s` in the units, the free values and the accesses only. -/
theorem State.complete_unitsOnly {s w : State} (hw : w = { s with bus := w.bus, units := w.units, free := w.free }) (c : CtxId) (op : Nat)
    (y : Submission) (r : AdmRes) :
    let t := w.complete c op y r
    { s with ctxs := t.ctxs, bus := t.bus, jrnl := t.jrnl, units := t.units, free := t.free }.EventsOnly t
      [mgtSrc (5 * c.val), mgtSrc (5 * c.val + 1)] := by
  intro t
  have hframe := State.complete_frame w c op y r
  have hb : { w.answering c y r with jrnl := t.jrnl } =
      { s with ctxs := t.ctxs, bus := t.bus, jrnl := t.jrnl, units := t.units, free := t.free } := by
    rw [show t.units = w.units from (congrArg State.units hframe :), show t.free = w.free from (congrArg State.free hframe :),
      State.complete_ctxs w c op y r, State.complete_bus w c op y r]
    exact congrArg (fun x : State => { x with
      ctxs := (w.updCtx c (w.answeredCtx c)).ctxs, bus := w.completion c y r :: .flushRead :: w.bus, jrnl := t.jrnl }) hw
  exact hb ▸ State.complete_tells w c op y r

/-- Settles O9: a load, a verification and a clear each set one slot after a change of the unit's engines, if any. -/
theorem setupSlotCommands : Obligations.SetupSlotCommands := by
  unfold Obligations.SetupSlotCommands
  refine ⟨fun c y data s u place ha hu hplace hright hcounts hm hcut hroom hok => ?_, fun c y s u ha hu hright hl => ?_,
    fun c y s u ha hu hright hcounts hl hm hcut => ?_⟩
  · obtain ⟨t, ht, v, hmoved, hv, hdone⟩ := setupLoad_does ha hu hplace hright hcounts hm hcut hroom hok
    have hsent : s.MovesEngs ((s.send (s.subRead c)).hostRead y.addr.toNat y.len.toNat) := (State.send_movesEngs s _).send _
    have hmem : ((s.send (s.subRead c)).hostRead y.addr.toNat y.len.toNat).MemOk :=
      (State.send_keeps _ (State.send_keeps _ (Keeps.refl (kc := false) s))).mem hm
    have heng (e : EngId) : t.eng e = v.eng e := hdone.eng e
    refine ⟨t, ht, hdone.answered, hdone.slot, fun e he => ?_, fun k hk => (hdone.slots k hk).trans (hmoved.slotOf u k), hdone.st,
      fun a ha => (hdone.others a ha).trans (hmoved.unit a), fun e he => ?_, ?_, hdone.told hmoved, hdone.groups⟩
    · exact setupLoad_engs hmem (zsoImage_length hok) he ((heng e).trans (congrArg (State.eng · e) hv))
    · rw [heng, hv, State.loadedEngs_eng, if_neg he]
      rfl
    · rw [← hmoved.unitDueKeys]
      exact hdone.regs
  · obtain ⟨t, ht, hval⟩ := setupVerify_does ha hu hright hl
    have hset := State.setSlot_slotSet { s.send (s.subRead c) with free := s.free + 16384 } u y.slot
      { s.slotOf u y.slot with isVerified := (s.verifySlot u y.slot).1 == 0 } []
    have hdone := hset.complete (s := s) (c := c) (r := okRes (s.verifySlot u y.slot).1 (s.verifySlot u y.slot).2) rfl rfl rfl ⟨rfl, fun _ _ => rfl⟩ 0x09
    subst hval
    exact ⟨_, ht, hdone.answered, hdone.slot, hdone.slots, hdone.st, hdone.others, State.complete_unitsOnly (s := s) rfl c 0x09 y _⟩
  · obtain ⟨t, ht, hdone⟩ := setupClear_does ha hu hright hcounts hl hm hcut
    have hmoved := State.freed_movesEngs (State.send_movesEngs s (s.subRead c)) u y.slot
    refine ⟨t, ht, hdone.answered, hdone.slot, fun k hk => (hdone.slots k hk).trans (hmoved.slotOf u k), hdone.st,
      fun a ha => (hdone.others a ha).trans (hmoved.unit a), fun e he => ?_, fun e he => ?_, ?_, hdone.told hmoved, hdone.groups⟩
    · rw [hdone.eng, State.freed_eng, if_neg he]
      rfl
    · exact setupClear_engs (s := s.send (s.subRead c)) hl he (hdone.eng e)
    · rw [← hmoved.unitDueKeys]
      exact hdone.regs

end Sys2Proof.Machine
end

section
/-! O50: the reset of a channel makes the steps that wait in it, whatever they raise (R232, R379). -/

namespace Sys2Proof.Machine

/-- A step of a channel that waits for nothing and raises FAULT_CLASSIFIED. -/
def classifyingStep : Held := { bar := false, hb := none, events := [(mgtSrc 48, [])], fin := none }

/-- A descriptor in use, with nothing written. -/
def descInUse : CurDesc :=
  { d := { idx := 0, addr := 0, len := 0, ctl := 0 }, written := 0, records := 0, firstLine := 0, start := false, cont := false, since := none }

/-- The link is up, and channel 0 is found faulty, with a descriptor in use, while a step of its own waits that raises FAULT_CLASSIFIED. -/
def stepWaits : State :=
  { State.reset.updChan 0 (fun x => { x with cur := some descInUse, held := [classifyingStep] }) with
    link := { State.reset.link with perst := false, d3hot := false }, faults := [{ kind := 4, unit := 0, code := 0, arg := 0, arg2 := 0, time := 0 }] }

theorem stepWaits_memOk : stepWaits.MemOk :=
  let h := State.reset_memOk
  ⟨h.regs, h.tbl, h.pend, h.raised, h.msiUnmasked, h.msiPend, h.store, h.mstepNext, h.mstepNow, h.engs⟩

/-- The hand-back of the descriptor lets the step before it be made, which is counted beside the report. -/
theorem stepWaits_raises_twice :
    reaches (.faultClassified 0 true false) stepWaits (fun t => t.raisings (mgtSrc 48) ≠ stepWaits.raisings (mgtSrc 48) + 1) = true := by
  decide +kernel

/-- Refutes O50: its fifth clause, on every fault that is classified, asks nothing of the steps that wait in a channel. The reset of a
channel (log entry 191) makes them, so one that raises FAULT_CLASSIFIED (`stepWaits`) is counted beside the report. The commands of the
model put no such step into a channel; the clause would need a hypothesis that says so. -/
theorem not_faultClassification : ¬ Obligations.FaultClassification := by
  unfold Obligations.FaultClassification
  rintro ⟨-, -, -, -, hreport, -⟩
  refine not_does_of_reaches stepWaits_raises_twice ?_
    (hreport 0 true false stepWaits _ stepWaits_memOk rfl (by decide +kernel) (by decide +kernel))
  rintro t ⟨-, hraised, -⟩
  exact decide_eq_false (not_not_intro hraised)

end Sys2Proof.Machine
end
